-- ==== Sys2Proof/Word.lean ====
section
/-! DEFINITION. The words of the module: 32-bit register words (R7), bytes, 64-bit words,
and the plainest views of them. -/

namespace Sys2Proof

/-- A 32-bit register word (R7). -/
abbrev Word := BitVec 32

/-- A 64-bit word, for example one data word of the SRAM (R341). -/
abbrev DWord := BitVec 64

/-- A byte. -/
abbrev Byte := BitVec 8

/-- The value of bits `lo + w - 1` to `lo` of `v`, as a number. -/
def bitsOf (v lo w : Nat) : Nat := v / 2 ^ lo % 2 ^ w

/-- Bit `i` of the number `v`. -/
def bitOf (v i : Nat) : Bool := v.testBit i

/-- The two's-complement value of the `w`-bit number `v`. -/
def signedOf (w v : Nat) : Int :=
  if v % 2 ^ w < 2 ^ (w - 1) then ((v % 2 ^ w : Nat) : Int)
  else ((v % 2 ^ w : Nat) : Int) - ((2 ^ w : Nat) : Int)

/-- The `w`-bit two's-complement encoding of `x`. -/
def encodeSigned (w : Nat) (x : Int) : Nat := (x % ((2 ^ w : Nat) : Int)).toNat

end Sys2Proof
end

