-- ==== Sys2Proof/Syntax.lean ====
section
/-! DEFINITION. The commands of the block: one constructor per row of the table of operations and
events. What the outside world brings with a command (the register value written, what a sensor
or a decoder delivered, an angle or an outcome) is its operands. -/

namespace Sys2Proof

/-! ### Operands that are records -/

/-- What the track-operation builder chooses for one operation (R133, R134): its code, context and
place, the sectors of both lanes, the SRAM offsets and buffers that it takes, and the fields that
it passes on. A TAIL_VERIFY takes its milliactuator offset and a SEEK its track as `target`. -/
structure RunPlan where
  op : Fin 9
  ctx : Fin 5
  surface : Fin 24
  track : BitVec 24
  first : BitVec 10
  count : BitVec 10
  tfirst : BitVec 10
  tcount : BitVec 10
  zone : BitVec 20
  zoned : Bool
  aftseek : Bool
  spec : Bool
  desc : BitVec 23
  bufl : BitVec 27
  ftab : BitVec 26
  res : BitVec 27
  bufs : List (BitVec 17)
  tag : Word
  target : Word
  arg : Word
  deriving DecidableEq, Repr

/-- A step of a patrol SCAN (R492, R493): the read of the track starts, the result of one of its
sectors is known (whether a re-read recovered it, and the outcome of its cipher job: OK, TAGFAIL
or CRCFAIL), or the track ends. -/
inductive ScanStep where
  | start
  | sector (index : Fin 1024) (recovered : Bool) (job : Fin 3)
  | finish
  deriving DecidableEq, Repr


/-- A sample pair of the floating phase (R196): when it is taken, in ns since the last commutation, the phase
voltage in an on-state window and in an off-state window, and the bus voltage, in fp32. -/
structure BemfPair where
  at_ : Word
  on : Word
  off : Word
  bus : Word
  deriving DecidableEq, Repr

/-- A step of a TAIL_RELOAD (R127): its reads start, or its results are judged. -/
inductive ReloadStep where
  | start
  | finish
  deriving DecidableEq, Repr

/-- What a decode attempt of a lane ends with (R43, R73): the offset, in bits, from which it takes each
codeword fragment against that fragment's expected position, its decisions on the codeword, and the
iterations, global iterations less 1 and corrected bits that it used. -/
structure DecodeTry where
  offsets : List Int
  word : List Byte
  it : Nat
  gitn : Nat
  ncorr : Nat
  deriving DecidableEq, Repr

/-- What a lane's front end and detector deliver of a sector (R44, R47, R49, R70, R71): the hard decisions
from 128 bits before the expected sync mark to 128 bits after it, the same around the resync mark of each
later fragment, the decode attempts that are made, the samples that reach an ADC rail, and the largest
baseline shift in ADC codes. -/
structure SectorSignal where
  mark : BitVec 288
  resync : List (BitVec 288)
  tries : List DecodeTry
  rails : Nat
  shift : Byte
  deriving DecidableEq, Repr

/-- A Noile datagram as the engine gets it (R265 to R270, R287): the Ethernet port and the source that it
came from, whether it was fragmented, and its UDP payload. -/
structure NoiDatagram where
  port : Fin 2
  addr : BitVec 128
  udp : BitVec 16
  fragmented : Bool
  bytes : List Byte
  deriving DecidableEq, Repr

/-- A session that an SPDM exchange forms (R287, R408): its ID, the SHA-256 of the root public key of the
requester's certificate chain, the root certificate, and the data encryption keys of the request and the
response direction. -/
structure SpdmSession where
  id : Word
  rootKey : BitVec 256
  rootCert : List Byte
  requestKey : BitVec 256
  responseKey : BitVec 256
  deriving DecidableEq, Repr

/-- The size of a core access: 8, 16, 32 or 64 bits (R7, R540). -/
inductive AccessSize where
  | byte
  | half
  | word
  | double
  deriving DecidableEq, Repr

/-- The transport of a connection (R222). -/
inductive Transport where
  | rdma
  | tcp
  deriving DecidableEq, Repr

/-- How a connection reaches the module (R222, R224, R302): the port, the transport, the address and service
port that it goes to, whether it names the discovery service, the SQSIZE of its queue (entries less one), and
the header and data digests that the host asks for. -/
structure ConnectPath where
  port : Fin 2
  transport : Transport
  addr : BitVec 128
  service : BitVec 16
  discovery : Bool
  sqsize : BitVec 16
  hdgst : Bool
  ddgst : Bool
  deriving DecidableEq, Repr

/-- A hash of DH-HMAC-CHAP (R225). -/
inductive AuthHash where
  | sha256
  | sha384
  | sha512
  deriving DecidableEq, Repr

/-- A Diffie-Hellman group of DH-HMAC-CHAP (R225). -/
inductive AuthGroup where
  | none
  | ffdhe2048
  | ffdhe3072
  | ffdhe4096
  | ffdhe6144
  | ffdhe8192
  deriving DecidableEq, Repr

/-- A DH-HMAC-CHAP message of the host (R225): the hashes and groups that it offers, its reply to the
challenge with whether the response verifies, or another message. -/
inductive AuthMessage where
  | negotiate (hashes : List AuthHash) (groups : List AuthGroup)
  | reply (verifies : Bool)
  | other
  deriving DecidableEq, Repr

/-- The commands of the block, in the order of the table. -/
inductive Instr where
  /-- ZERO_CROSSINGS_SEEN (R14). The electrical period in ns. -/
  | zeroCrossingsSeen (period : Word)
  /-- COARSE_TIMEOUT (R14). -/
  | coarseTimeout
  /-- ACQUIRE_ENTRY (R14). -/
  | acquireEntry
  /-- PHASE_SAMPLE (R546). The actuator, the angle of the mark in eighths of a tick, and its wedge number. -/
  | phaseSample (a : Fin 2) (angle8 : Fin (2 ^ 25)) (decoded : Bool) (wedge : Fin 1024)
  /-- ACQUIRE_TIMEOUT (R14). -/
  | acquireTimeout
  /-- HOLD (R14). -/
  | angHold
  /-- HOLDOVER_EXPIRY (R14). -/
  | holdoverExpiry
  /-- HEADS_UNLOADED (R14). -/
  | headsUnloaded
  /-- REVOLUTION_WRAP (R31). -/
  | revolutionWrap
  /-- ANG_NOW_READ (R31). -/
  | angNowRead
  /-- SKEW_WRITE (R19). -/
  | skewWrite (surface : Fin 24) (value : Word)
  /-- ANG_QPOST (R21). -/
  | angQpost (entry : DWord)
  /-- ANG_QFLUSH (R28). -/
  | angQflush (slot : Fin 8) (value : Word)
  /-- WG_ON (R26). The entry at the front of the slot's queue. -/
  | wgOn (slot : Fin 8)
  /-- WG_OFF (R26). The entry at the front of the slot's queue. -/
  | wgOff (slot : Fin 8)
  /-- RG_ON (R26). The entry at the front of the slot's queue. -/
  | rgOn (slot : Fin 8)
  /-- RG_OFF (R26). The entry at the front of the slot's queue. -/
  | rgOff (slot : Fin 8)
  /-- TG_ON (R26). The entry at the front of the slot's queue. -/
  | tgOn (slot : Fin 8)
  /-- TG_OFF (R26). The entry at the front of the slot's queue. -/
  | tgOff (slot : Fin 8)
  /-- ASSIST_ON (R87). The entry at the front of the slot's queue. -/
  | assistOn (slot : Fin 8)
  /-- ASSIST_OFF (R90). The entry at the front of the slot's queue. -/
  | assistOff (slot : Fin 8)
  /-- LANE_START (R80). The entry at the front of the slot's queue. -/
  | laneStart (slot : Fin 8)
  /-- SYNC_OPEN (R22). The entry at the front of the slot's queue. -/
  | syncOpen (slot : Fin 8)
  /-- HEAD_SEL (R78). The entry at the front of the slot's queue. -/
  | headSel (slot : Fin 8)
  /-- SEQ_WAKE (R22). The entry at the front of the slot's queue. -/
  | seqWake (slot : Fin 8)
  /-- MARK (R22). The entry at the front of the slot's queue. -/
  | markAction (slot : Fin 8)
  /-- HEAD_SETTLE_END (R78). -/
  | headSettleEnd (slot : Fin 8)
  /-- BTLOAD_GO (R34). -/
  | btloadGo
  /-- BAND_TABLE_WRITE (R35). The word of ZTB_BTW0 to ZTB_BTW7 that is written. -/
  | bandTableWrite (word : Fin 8) (value : Word)
  /-- NZONE_WRITE (R56). -/
  | nzoneWrite (value : Word)
  /-- ZONE_ENGINE_ENABLE (R547). -/
  | zoneEngineEnable
  /-- LAYOUT_CHECK_END (R547). -/
  | layoutCheckEnd
  /-- SET_STATE (R66). The zone and NEWST. -/
  | setState (zone : BitVec 20) (state : BitVec 4)
  /-- RESET (R66). The zone. -/
  | zcmdReset (zone : BitVec 20)
  /-- ZONE_COMMAND_END (R129). -/
  | zoneCommandEnd
  /-- SLACK (R59). The pool index acknowledged. -/
  | slack (index : BitVec 20)
  /-- MAPIN (R57). The value written to ZTB_MAPIN. -/
  | mapin (value : DWord)
  /-- MAP_DONE (R58). -/
  | mapDone
  /-- SECTOR_RESULT (R548). What the front end, the detector and the decoder deliver. -/
  | sectorResult (lane : Fin 16) (signal : SectorSignal)
  /-- SECTOR_DEADLINE (R74). What has been delivered by then, whether the re-search has ended, and whether the lane delivers nothing at all. -/
  | sectorDeadline (lane : Fin 16) (signal : SectorSignal) (searched dead : Bool)
  /-- ASSIST_RAMP_END (R90). -/
  | assistRampEnd (slot : Fin 8)
  /-- PREAMP_WORD (R524). The actuator and the word. -/
  | preampWord (a : Fin 2) (word : Word)
  /-- CONTROL_WORD (R523). -/
  | controlWord (a : Fin 2)
  /-- LINK_TRAINING (R525). The actuator, and whether four training words in a row came back. -/
  | linkTraining (a : Fin 2) (answered : Bool)
  /-- DUTY_BUCKET_UPDATE (R94). -/
  | dutyBucketUpdate
  /-- BUILDER_ISSUE (R114). What the builder chose. -/
  | builderIssue (plan : RunPlan)
  /-- TAIL_VERIFY_TRIGGER (R107). The tail verify that the builder chose. -/
  | tailVerifyTrigger (plan : RunPlan)
  /-- WRITE_REISSUE (R120). The run from its first sector that did not complete. -/
  | writeReissue (plan : RunPlan)
  /-- WGUARD_WRITE (R118). -/
  | wguardWrite (value : Word)
  /-- WGUARD_TAKES_EFFECT (R118). -/
  | wguardTakesEffect
  /-- OPACK (R125). -/
  | opack (zone : BitVec 20)
  /-- RCMD (R126). -/
  | rcmd (value : Word)
  /-- RCVDONE (R126). Whether a seek or read could not be performed, and the physical indexes of the zone that read clean, each pair from the first up to and without the second. -/
  | rcvdone (media : Bool) (clean : List (BitVec 20 × BitVec 20))
  /-- RETPEAK_WRITE (R131). -/
  | retpeakWrite (value : Word)
  /-- READ_RUN (R134). The sequencer and the context whose routine it is. -/
  | readRun (q : Fin 2) (x : Fin 4)
  /-- PAIRED_READ (R85). The sequencer and the context whose routine it is. -/
  | pairedRead (q : Fin 2) (x : Fin 4)
  /-- WRITE_RUN (R106). The sequencer and the context whose routine it is. -/
  | writeRun (q : Fin 2) (x : Fin 4)
  /-- TAIL_VERIFY (R108). The sequencer and the context whose routine it is. -/
  | tailVerify (q : Fin 2) (x : Fin 4)
  /-- TAIL_RELOAD (R127). The context, and the step of the reload. -/
  | tailReload (q : Fin 2) (x : Fin 4) (step : ReloadStep)
  /-- SCAN (R492). The context, and the step of the scan. -/
  | scanOp (q : Fin 2) (x : Fin 4) (step : ScanStep)
  /-- SEEK (R134). The sequencer whose X4 runs it. -/
  | seekOp (q : Fin 2)
  /-- PREBIAS (R92). The sequencer and the context whose routine it is. -/
  | prebias (q : Fin 2) (x : Fin 4)
  /-- FW_POST (R136). The sequencer and the value written to TSQ_FWQ. -/
  | fwPost (q : Fin 2) (value : DWord)
  /-- DISPATCH (R136). The sequencer and the context. -/
  | dispatch (q : Fin 2) (x : Fin 5)
  /-- NOP (R139). The sequencer and the context whose next word it is. -/
  | nopWord (q : Fin 2) (x : Fin 5)
  /-- MOV (R139). The sequencer and the context whose next word it is. -/
  | movWord (q : Fin 2) (x : Fin 5)
  /-- MOVI (R139). The sequencer and the context whose next word it is. -/
  | moviWord (q : Fin 2) (x : Fin 5)
  /-- MOVHI (R139). The sequencer and the context whose next word it is. -/
  | movhiWord (q : Fin 2) (x : Fin 5)
  /-- ADD (R139). The sequencer and the context whose next word it is. -/
  | addWord (q : Fin 2) (x : Fin 5)
  /-- SUB (R139). The sequencer and the context whose next word it is. -/
  | subWord (q : Fin 2) (x : Fin 5)
  /-- ADDI (R139). The sequencer and the context whose next word it is. -/
  | addiWord (q : Fin 2) (x : Fin 5)
  /-- AND (R139). The sequencer and the context whose next word it is. -/
  | andWord (q : Fin 2) (x : Fin 5)
  /-- OR (R139). The sequencer and the context whose next word it is. -/
  | orWord (q : Fin 2) (x : Fin 5)
  /-- XOR (R139). The sequencer and the context whose next word it is. -/
  | xorWord (q : Fin 2) (x : Fin 5)
  /-- SHLI (R139). The sequencer and the context whose next word it is. -/
  | shliWord (q : Fin 2) (x : Fin 5)
  /-- SHRI (R139). The sequencer and the context whose next word it is. -/
  | shriWord (q : Fin 2) (x : Fin 5)
  /-- ANGADD (R139). The sequencer and the context whose next word it is. -/
  | angaddWord (q : Fin 2) (x : Fin 5)
  /-- CMP (R139). The sequencer and the context whose next word it is. -/
  | cmpWord (q : Fin 2) (x : Fin 5)
  /-- CMPI (R139). The sequencer and the context whose next word it is. -/
  | cmpiWord (q : Fin 2) (x : Fin 5)
  /-- MFS (R141). The sequencer and the context whose next word it is. -/
  | mfsWord (q : Fin 2) (x : Fin 5)
  /-- MTS (R141). The sequencer and the context whose next word it is. -/
  | mtsWord (q : Fin 2) (x : Fin 5)
  /-- BR (R140). The sequencer and the context whose next word it is. -/
  | brWord (q : Fin 2) (x : Fin 5)
  /-- CALL (R139). The sequencer and the context whose next word it is. -/
  | callWord (q : Fin 2) (x : Fin 5)
  /-- RET (R139). The sequencer and the context whose next word it is. -/
  | retWord (q : Fin 2) (x : Fin 5)
  /-- ARM (R142). The sequencer and the context whose next word it is. -/
  | armWord (q : Fin 2) (x : Fin 5)
  /-- GATE (R143). The sequencer and the context whose next word it is. -/
  | gateWord (q : Fin 2) (x : Fin 5)
  /-- LANE (R144). The sequencer and the context whose next word it is. -/
  | laneWord (q : Fin 2) (x : Fin 5)
  /-- DESC (R145). The sequencer and the context whose next word it is. -/
  | descWord (q : Fin 2) (x : Fin 5)
  /-- POST (R146). The sequencer and the context whose next word it is. -/
  | postWord (q : Fin 2) (x : Fin 5)
  /-- HALT (R154). The sequencer and the context whose next word it is. -/
  | haltWord (q : Fin 2) (x : Fin 5)
  /-- WAITC (R148). The sequencer and the context whose next word it is. -/
  | waitcWord (q : Fin 2) (x : Fin 5)
  /-- CLASS_S_INTERRUPT (R153). The sequencer and the context. -/
  | classSInterrupt (q : Fin 2) (x : Fin 5)
  /-- OPTIME (R152). The sequencer and the context. -/
  | optime (q : Fin 2) (x : Fin 5)
  /-- PREQ (R155). The sequencer and the contexts named. -/
  | preq (q : Fin 2) (mask : BitVec 5)
  /-- PREEMPTION_EXIT (R155). The sequencer and the context. -/
  | preemptionExit (q : Fin 2) (x : Fin 5)
  /-- PEXIT (R155). The sequencer and the context. -/
  | pexit (q : Fin 2) (x : Fin 5)
  /-- KILL (R152). The sequencer and the contexts named. -/
  | tsqKill (q : Fin 2) (mask : BitVec 5)
  /-- UCPAR (R152). The sequencer and the context. -/
  | ucpar (q : Fin 2) (x : Fin 5)
  /-- LOAD (R158). -/
  | loadImage
  /-- PATCH (R158). -/
  | patchImage
  /-- LDDONE (R158). -/
  | lddone
  /-- TSQ_CTL_WRITE (R159). -/
  | tsqCtlWrite (q : Fin 2) (value : Word)
  /-- FWCQ_POP (R136). -/
  | fwcqPop (q : Fin 2)
  /-- SERVO_SAMPLE (R169). The actuator, the interval since its previous trigger and the wait for the arithmetic units in ns, the position of each slot in 1/256 servo track where a valid sample came, the correctable errors of the coefficient memory that the computation meets, and whether it meets an uncorrectable one. -/
  | servoSample (a : Fin 2) (dt : BitVec 16) (wait : BitVec 16) (p0 p1 p2 p3 : Option Word) (cce : Fin 8) (cpar : Bool)
  /-- OUTPUT_APPLY (R161). -/
  | outputApply (a : Fin 2)
  /-- RETRACT_END (R188). -/
  | retractEnd (a : Fin 2)
  /-- SHOCK_READING (R413). The six axes. -/
  | shockReading (x y z rx ry rz : BitVec 16)
  /-- SHOCK_CLEAR (R413). Which condition. -/
  | shockClear (hard : Bool)
  /-- SKFAIL (R178). -/
  | skfail (a : Fin 2)
  /-- ANCH_WRITE (R174). -/
  | anchWrite (a : Fin 2) (slot : Fin 4)
  /-- SRV_EN_WRITE (R181). -/
  | srvEnWrite (a : Fin 2) (en : Bool)
  /-- SWAP (R183). -/
  | bankSwap (a : Fin 2)
  /-- BANK_CHECK_END (R183). -/
  | bankCheckEnd (a : Fin 2)
  /-- COEFFICIENT_WINDOW_WRITE (R181). -/
  | coefficientWindowWrite (word : Fin 8192) (value : Word)
  /-- INJECTION_GO (R189). The actuator and the value written to SRV_INJCTL. -/
  | injectionGo (a : Fin 2) (value : Word)
  /-- INJECTION_STOP (R189). -/
  | injectionStop (a : Fin 2)
  /-- CAPTURE_GO (R190). The actuator and the value written to SRV_CAPCTL. -/
  | captureGo (a : Fin 2) (value : Word)
  /-- CAPTURE_STOP (R190). -/
  | captureStop (a : Fin 2)
  /-- CAPD3_READ (R190). -/
  | capd3Read (a : Fin 2)
  /-- BEMF_CROSSING (R199). The two consecutive sample pairs of the floating phase between which its back-EMF changes sign. -/
  | bemfCrossing (first second : BemfPair)
  /-- MISSED_CROSSING (R198). -/
  | missedCrossing
  /-- COMMUTATE (R193). -/
  | commutate
  /-- OBSFAIL (R204). -/
  | obsfail
  /-- RACQOK (R203). -/
  | racqok
  /-- COMPARATOR_EDGE (R206). The order of the edge, the interval since the previous edge in ns, and its distance from its expected position in 0.01 electrical degrees. -/
  | comparatorEdge (back : Bool) (dt : Word) (position : BitVec 16)
  /-- RACQFAIL (R206). -/
  | racqfail
  /-- OBSERVE_END (R209). -/
  | observeEnd
  /-- ALIGN_END (R210). -/
  | alignEnd
  /-- HANDOVER_TIMEOUT (R210). -/
  | handoverTimeout
  /-- STARTFAIL (R211). -/
  | startfail
  /-- FAILS_CLEAR (R208). -/
  | failsClear
  /-- RUN (R213). -/
  | spnRun
  /-- STOP (R213). -/
  | spnStop
  /-- COAST (R213). -/
  | spnCoast
  /-- BRAKE_QUIET (R213). -/
  | brakeQuiet
  /-- STOPPED (R213). -/
  | spnStopped
  /-- TGT_WRITE (R213). -/
  | tgtWrite (value : Word)
  /-- DISBRK (R215). -/
  | disbrk
  /-- WEIR_SAMPLE (R217). The 12 V node voltage, the 12 V input current and the phase current measured, in fp32. -/
  | weirSample (v12 i12 iph : Word)
  /-- ILIMPK (R194). -/
  | ilimpk
  /-- WEIR_LIMIT_WRITE (R220). The register: ILIM, IINLIM, VREG, RAMPI0, RAMPR, KIIN or KV. -/
  | weirLimitWrite (reg : Fin 7) (value : Word)
  /-- COMMAND_FETCH (R229). An association and submission queue, a command slot, the entry at the head of the queue, and the other submission queues whose head command could be fetched now. -/
  | commandFetch (assoc sqid : BitVec 16) (slot : Fin 16384) (entry : BitVec 512) (others : List (BitVec 16 × BitVec 16))
  /-- CONNECT (R227). The association and queue, the command identifier, the host NQN (223 bytes, zero-terminated if shorter), the Keep Alive Timeout in ms, and how the connection comes. -/
  | connect (assoc qid cid : BitVec 16) (host : BitVec 1784) (kato : Word) (path : ConnectPath)
  /-- PROPERTY_GET (R236). The command slot. -/
  | propertyGet (slot : Fin 16384)
  /-- PROPERTY_SET (R248). The command slot. -/
  | propertySet (slot : Fin 16384)
  /-- DISCONNECT (R248). The command slot. -/
  | disconnect (slot : Fin 16384)
  /-- AUTHENTICATION_SEND (R225). The command slot and the DH-HMAC-CHAP message. -/
  | authenticationSend (slot : Fin 16384) (message : AuthMessage)
  /-- AUTHENTICATION_RECEIVE (R225). The command slot. -/
  | authenticationReceive (slot : Fin 16384)
  /-- IDENTIFY (R236). The command slot. -/
  | identify (slot : Fin 16384)
  /-- GET_LOG_PAGE (R236). The command slot. -/
  | getLogPage (slot : Fin 16384)
  /-- ARBITRATION (R229). The command slot. -/
  | arbitration (slot : Fin 16384)
  /-- POWER_MANAGEMENT (R256). The command slot. -/
  | powerManagement (slot : Fin 16384)
  /-- TEMPERATURE_THRESHOLD (R446). The command slot. -/
  | temperatureThreshold (slot : Fin 16384)
  /-- ERROR_RECOVERY (R234). The command slot. -/
  | errorRecovery (slot : Fin 16384)
  /-- NUMBER_OF_QUEUES (R227). The command slot. -/
  | numberOfQueues (slot : Fin 16384)
  /-- ASYNCHRONOUS_EVENT_CONFIGURATION (R236). The command slot. -/
  | asynchronousEventConfiguration (slot : Fin 16384)
  /-- KEEP_ALIVE_TIMER (R230). The command slot. -/
  | keepAliveTimer (slot : Fin 16384)
  /-- GET_FEATURES (R256). The command slot. -/
  | getFeatures (slot : Fin 16384)
  /-- ABORT (R246). The command slot. -/
  | nvmAbort (slot : Fin 16384)
  /-- ASYNCHRONOUS_EVENT_REQUEST (R236). The command slot, and Dword 0 of the event reported, if one has happened. -/
  | asynchronousEventRequest (slot : Fin 16384) (event : Option Word)
  /-- KEEP_ALIVE (R230). The command slot. -/
  | keepAlive (slot : Fin 16384)
  /-- KEEP_ALIVE_EXPIRY (R230). The association. -/
  | keepAliveExpiry (assoc : BitVec 16)
  /-- FIRMWARE_IMAGE_DOWNLOAD (R252). The command slot and the bytes transferred. -/
  | firmwareImageDownload (slot : Fin 16384) (data : List Byte)
  /-- COMMIT_ACTION_1 (R252). The command slot. -/
  | commitAction1 (slot : Fin 16384)
  /-- COMMIT_ACTION_2 (R252). The command slot. -/
  | commitAction2 (slot : Fin 16384)
  /-- COMMIT_ACTION_3 (R253). The command slot. -/
  | commitAction3 (slot : Fin 16384)
  /-- ACTIVATION_FALLBACK (R254). -/
  | activationFallback
  /-- FWACT_HOLD (R253). The value written. -/
  | fwactHold (hold : Bool)
  /-- EXIT_FAILURE_MODE (R262). The command slot. -/
  | exitFailureMode (slot : Fin 16384)
  /-- CRYPTO_ERASE (R260). The command slot of the Sanitize that starts; or, for one that runs, whether its present step ended or failed. -/
  | cryptoErase (slot : Fin 16384) (done : Option Bool)
  /-- OVERWRITE (R260). The command slot of the Sanitize that starts; or, for one that runs, whether its present step ended or failed. -/
  | overwrite (slot : Fin 16384) (done : Option Bool)
  /-- BLOCK_ERASE (R259). The command slot. -/
  | blockErase (slot : Fin 16384)
  /-- READ (R101). The command slot. -/
  | nvmRead (slot : Fin 16384)
  /-- WRITE (R240). The command slot, and the buffers of its sectors in order. -/
  | nvmWrite (slot : Fin 16384) (bufs : List (Fin 94208))
  /-- WRITE_ZEROES (R240). The command slot, and the buffers of its sectors in order. -/
  | writeZeroes (slot : Fin 16384) (bufs : List (Fin 94208))
  /-- VERIFY (R236). The command slot. -/
  | nvmVerify (slot : Fin 16384)
  /-- FLUSH (R243). The command slot. -/
  | nvmFlush (slot : Fin 16384)
  /-- COMPARE (R236). The command slot. -/
  | nvmCompare (slot : Fin 16384)
  /-- ZONE_APPEND (R240). The command slot, and the buffers of its sectors in order. -/
  | zoneAppend (slot : Fin 16384) (bufs : List (Fin 94208))
  /-- OPEN (R238). The command slot. -/
  | openZone (slot : Fin 16384)
  /-- CLOSE (R238). The command slot. -/
  | closeZone (slot : Fin 16384)
  /-- FINISH (R238). The command slot. -/
  | finishZone (slot : Fin 16384)
  /-- ZONE_RESET (R238). The command slot. -/
  | zoneReset (slot : Fin 16384)
  /-- ZONE_MANAGEMENT_RECEIVE (R239). The command slot. -/
  | zoneManagementReceive (slot : Fin 16384)
  /-- DELETE_IO_SUBMISSION_QUEUE (R247). The command slot. -/
  | deleteIoSubmissionQueue (slot : Fin 16384)
  /-- CONTROLLER_RESET (R248). The association. -/
  | controllerReset (assoc : BitVec 16)
  /-- CONNECTION_LOSS (R248). The association. -/
  | connectionLoss (assoc : BitVec 16)
  /-- NSSR (R250). The association. -/
  | nssr (assoc : BitVec 16)
  /-- CPLPOST (R242). The value written. -/
  | cplpost (value : DWord)
  /-- EXQ_POP (R242). -/
  | exqPop
  /-- POWER_STATE_ENTRY (R256). -/
  | powerStateEntry
  /-- NOILE_MESSAGE (R278). The datagram. -/
  | noileMessage (datagram : NoiDatagram)
  /-- NOILE_READ (R271). The request slot that firmware serves. -/
  | noileRead (slot : Fin 64)
  /-- NOILE_WRITE (R283). The request slot that firmware serves. -/
  | noileWrite (slot : Fin 64)
  /-- READ_SEG (R284). The request slot that firmware serves. -/
  | readSeg (slot : Fin 64)
  /-- WRITE_SEG (R285). The request slot that firmware serves. -/
  | writeSeg (slot : Fin 64)
  /-- ACK (R291). The datagram that holds the ACK. -/
  | noiAck (datagram : NoiDatagram)
  /-- FW_DEADLINE (R281). The request slot. -/
  | fwDeadline (slot : Fin 64)
  /-- FWQ_POP (R281). -/
  | fwqPop
  /-- FWRSP (R295). The value written. -/
  | fwrsp (value : Word)
  /-- BROADCAST_REPLY (R269). Which of the waiting replies goes out. -/
  | broadcastReply (reply : Nat)
  /-- REPLY_CACHE_EXPIRY (R282). -/
  | replyCacheExpiry
  /-- SEGMENT_TIMEOUT (R286). The object. -/
  | segmentTimeout (index : BitVec 16) (sub : Byte)
  /-- SESSION_IDLE (R288). The session. -/
  | sessionIdle (session : Word)
  /-- SUBSCRIBE (R290). The request slot that firmware serves. -/
  | subscribe (slot : Fin 64)
  /-- UNSUBSCRIBE (R291). The request slot that firmware serves. -/
  | unsubscribe (slot : Fin 64)
  /-- NOTIFY (R291). The handle of the subscription. -/
  | notify (handle : Byte)
  /-- NOTIFY_RESEND (R291). The handle of the subscription. -/
  | notifyResend (handle : Byte)
  /-- NTFY (R291). The value written. -/
  | ntfy (value : Word)
  /-- SPDM_REQUEST (R407). The request slot with the last segment, the response message that firmware makes, the session that forms with it, and whether it ends the session that carries it. -/
  | spdmRequest (slot : Fin 64) (response : List Byte) (formed : Option SpdmSession) (ended : Bool)
  /-- AUTO_NEGOTIATION (R297). The abilities of the link partner, and whether training and alignment succeed. -/
  | autoNegotiation (port : Fin 2) (partner : BitVec 14) (trained : Bool)
  /-- ANEFF_RELOAD (R298). -/
  | aneffReload (port : Fin 2)
  /-- ANADV_WRITE (R298). -/
  | anadvWrite (port : Fin 2) (value : Word)
  /-- LINKUP (R299). -/
  | linkup (port : Fin 2)
  /-- LINKDN (R299). -/
  | linkdn (port : Fin 2)
  /-- ANNOUNCE_REPEAT (R306). -/
  | announceRepeat (port : Fin 2)
  /-- MOVE (R306). -/
  | portMove (port : Fin 2)
  /-- BACK (R308). -/
  | portBack (port : Fin 2)
  /-- FBACK (R308). -/
  | fback (port : Fin 2)
  /-- FRAME_RECEIVE (R300). The bytes of the frame from its destination address to its FCS, and whether the PCS or FEC signalled an error. -/
  | frameReceive (port : Fin 2) (data : List Byte) (faulty : Bool)
  /-- PFC_FRAME (R315). The priorities that the frame names, and its eight times in quanta, priority 0 in the lowest bits. -/
  | pfcFrame (port : Fin 2) (prios : Byte) (times : BitVec 128)
  /-- PFC_PAUSE_END (R315). -/
  | pfcPauseEnd (port : Fin 2) (prio : Fin 8)
  /-- PFC_RESEND (R314). -/
  | pfcResend (port : Fin 2)
  /-- PACKET_CONSUME (R323). The receive Runnel, whether the header entry is read as it was written, whether the packet is, and whether the NVMe/TCP digests that apply pass. -/
  | packetConsume (port : Fin 2) (tc : Fin 8) (header : Bool) (intact : Bool) (digests : Bool)
  /-- FRAME_TRANSMIT (R316). The traffic class that the scheduler serves. -/
  | frameTransmit (port : Fin 2) (tc : Fin 8)
  /-- DROP (R324). -/
  | runDrop (runnel : Fin 32)
  /-- FLUSH_RUNNEL (R324). -/
  | flushRunnel (runnel : Fin 32)
  /-- PORT_DISABLE (R325). -/
  | portDisable (port : Fin 2)
  /-- ETS_WRITE (R316). ETH_ETS0, ETH_ETS1 or ETH_TSA. -/
  | etsWrite (port : Fin 2) (reg : Fin 3) (value : Word)
  /-- MSLOAD (R311). -/
  | msload (port : Fin 2) (value : Word)
  /-- MSTXPN_WRITE (R312). -/
  | mstxpnWrite (port : Fin 2) (value : DWord)
  /-- PTPSTEP (R317). -/
  | ptpstep (value : DWord)
  /-- TXTSID_POP (R318). -/
  | txtsidPop
  /-- FWTX (R303). -/
  | fwtx (port : Fin 2) (value : Word)
  /-- FWRXQ_POP (R330). -/
  | fwrxqPop (port : Fin 2)
  /-- ADDRESS_TABLE_WRITE (R302). The request slot with the last segment. -/
  | addressTableWrite (slot : Fin 64)
  /-- ALLOCATION (R332). The owners that request in this clock, one bit each, and whether the request is read-ahead. -/
  | allocation (requests : BitVec 8) (spec : Bool)
  /-- GIVE (R334). -/
  | cisGiveEngine (requester : Fin 8) (index : BitVec 17) (owner : Byte)
  /-- FREE (R334). -/
  | cisFreeEngine (requester : Fin 8) (index : BitVec 17)
  /-- ALLOCATION_RETRY (R333). -/
  | allocationRetry (owner : Fin 8)
  /-- RECLAIM (R337). -/
  | reclaim
  /-- REBUILD (R328). -/
  | rebuild
  /-- CIS_ALLOC (R339). -/
  | cisAlloc
  /-- CIS_ALLOCR (R339). -/
  | cisAllocr
  /-- CIS_FREE (R339). -/
  | cisFree (value : Word)
  /-- CIS_GIVE (R339). -/
  | cisGive (value : DWord)
  /-- ERRLOG_POP (R335). -/
  | errlogPop
  /-- MINFREE_WRITE (R331). -/
  | minfreeWrite (value : Word)
  /-- CIS_CTL_WRITE (R544). -/
  | cisCtlWrite (value : Word)
  /-- SRAM_READ (R346). The requester (0 to 5 the cores, else an engine), the word, and the way of the L2 that a fill would take. -/
  | sramRead (requester : Byte) (word : BitVec 26) (way : Fin 16)
  /-- SRAM_WRITE (R344). As SRAM_READ, with the data. -/
  | sramWrite (requester : Byte) (word : BitVec 26) (data : DWord) (way : Fin 16)
  /-- NARROW_WRITE (R347). As SRAM_WRITE, with the bytes that are written. -/
  | narrowWrite (requester : Byte) (word : BitVec 26) (data : DWord) (mask : Byte) (way : Fin 16)
  /-- CE_WRITEBACK (R348). -/
  | ceWriteback
  /-- FILL_END (R422). How many words did not read back CLEAN, and the channels with one that read back UE or POISON. -/
  | fillEnd (bad : Word) (failed : BitVec 4)
  /-- SCRUB_READ (R350). -/
  | scrubRead
  /-- SCRUBLATE (R351). -/
  | scrublate
  /-- SCRUBEN_WRITE (R350). -/
  | scrubenWrite (value : Word)
  /-- ECC_INJ (R352). -/
  | eccInj (value : DWord)
  /-- CELCLR (R349). -/
  | celclr (value : Word)
  /-- L2_MISS (R359). The core, the line that it misses, and the way of the L2 that the line takes. -/
  | l2Miss (core : Fin 6) (line : BitVec 23) (way : Fin 16)
  /-- WRITEBACK_ISSUE (R358). -/
  | writebackIssue
  /-- L2EN_CLEAR (R361). -/
  | l2enClear
  /-- DRAINDONE (R361). -/
  | draindone
  /-- L2EN_SET (R361). -/
  | l2enSet
  /-- BASINEN_CLEAR (R361). -/
  | basinenClear
  /-- NC_WINDOW_WRITE (R355). The window, whether its size or its base is written, and the value. -/
  | ncWindowWrite (index : Fin 4) (size : Bool) (value : Word)
  /-- WDKICK (R363). -/
  | wdkick (core : Fin 6) (value : Word)
  /-- WATCHDOG_RESET (R363). -/
  | watchdogReset (core : Fin 6)
  /-- CIPHER_JOB_POST (R374). -/
  | cipherJobPost (value : DWord)
  /-- SECTOR_ENC (R372). The number of the job. -/
  | sectorEnc (job : Nat)
  /-- SECTOR_DEC (R373). The number of the job. -/
  | sectorDec (job : Nat)
  /-- GCM_ENC (R374). The number of the job. -/
  | gcmEnc (job : Nat)
  /-- GCM_DEC (R374). The number of the job. -/
  | gcmDec (job : Nat)
  /-- INVOCATION_START (R370). -/
  | invocationStart
  /-- INVOCATION_END (R368). The number of the job. -/
  | invocationEnd (job : Nat)
  /-- CPH_FWCQ_POP (R374). -/
  | cphFwcqPop
  /-- KEY_LOAD (R380). -/
  | keyLoad
  /-- DESTROY (R383). -/
  | keyDestroy
  /-- RETIRE (R384). -/
  | keyRetire
  /-- KDONE (R383). -/
  | kdone
  /-- JOURNAL_RECORD_DURABLE (R389). Whether the program of the record succeeded. -/
  | journalRecordDurable (ok : Bool)
  /-- COMPACTION (R390). -/
  | compaction
  /-- JOURNAL_SCAN_END (R391). -/
  | journalScanEnd
  /-- MASK_RESEED (R377). -/
  | maskReseed
  /-- ENTFAIL (R378). -/
  | entfail
  /-- RNG_READ (R379). -/
  | rngRead
  /-- KAT (R393). The clusters that pass, and whether the DRBG does. -/
  | kat (pass : BitVec 40) (drbg : Bool)
  /-- KHPROG (R397). The KEYHASH slot written. -/
  | khprog (slot : Fin 4)
  /-- REVCMD (R397). The key written. -/
  | revcmd (key : Fin 4)
  /-- OTPDONE (R397). Whether every bit was programmed. -/
  | otpdone (ok : Bool)
  /-- ARBADV (R403). The value written. -/
  | arbadv (value : BitVec 7)
  /-- VCMD (R399). -/
  | vcmd
  /-- VDONE (R399). -/
  | vdone
  /-- SGCMD (R405). -/
  | sgcmd
  /-- SGDONE (R405). -/
  | sgdone
  /-- SEC_LOCK (R8). -/
  | secLock
  /-- BOOT_END (R401). Whether the tag of the stored identity key verifies (R404). -/
  | bootEnd (identity : Bool)
  /-- SLUICE_INHIBIT (R414). -/
  | sluiceInhibit (slot : Fin 8)
  /-- TARGET_CHECK (R412). -/
  | targetCheck (slot : Fin 8)
  /-- LIMIT_WRITE (R410). The offset of the register in SLU and the value written. -/
  | limitWrite (offset : BitVec 10) (value : Word)
  /-- WORKING_LIMIT_WRITE (R410). Whether the register is SLU_SHKLIM, else SLU_PESLIM, and the value written. -/
  | workingLimitWrite (shock : Bool) (value : Word)
  /-- SUPPLY_EXCURSION (R411). Whether it is the 5 V supply. -/
  | supplyExcursion (v5 : Bool)
  /-- FLT_N_FALL (R414). -/
  | fltNFall (a : Fin 2)
  /-- PFAULT_HOLD (R439). -/
  | pfaultHold (a : Fin 2)
  /-- MREQ_STANDBY (R423). -/
  | mreqStandby
  /-- MREQ_SPINNING (R423). -/
  | mreqSpinning
  /-- MREQ_SLOW (R423). -/
  | mreqSlow
  /-- MREQ_READY (R424). -/
  | mreqReady
  /-- MREQ_TEST (R423). -/
  | mreqTest
  /-- TRANSITION_STEP_DONE (R423). Whether the step succeeds. -/
  | transitionStepDone (ok : Bool)
  /-- LOAD_END (R424). -/
  | loadEnd
  /-- LOAD_TIMEOUT (R424). -/
  | loadTimeout
  /-- SURVEY_END (R428). The bytes read of each identity memory, none where it does not answer. -/
  | surveyEnd (preampA preampB hda : Option (List Byte))
  /-- IDN_ACMD (R426). -/
  | idnAcmd (value : Word)
  /-- ACDONE (R426). The word that a read returns, none where the memory does not answer. -/
  | acdone (data : Option Word)
  /-- POWER_ON_RESET (R533). -/
  | powerOnReset
  /-- RESET_N_LOW (R532). -/
  | resetNLow
  /-- PIN_RESET (R430). -/
  | pinReset
  /-- FULL_RESET (R432). -/
  | fullReset
  /-- SUBSYS_RESET (R432). -/
  | subsysReset
  /-- POWER_LOSS (R435). -/
  | powerLoss
  /-- LANECLR (R438). -/
  | laneclr (mask : BitVec 16)
  /-- HOLD_ACTUATOR (R439). -/
  | holdActuator (a : Fin 2)
  /-- CLEAR_ACTUATOR (R439). -/
  | clearActuator (a : Fin 2)
  /-- SHREQ (R440). -/
  | shreq
  /-- CLOCK_LOSS (R440). Whether REFCLK is lost, and the clock generator that lost its lock: core, fabric or SRAM. -/
  | clockLoss (refclk : Bool) (generator : Option (Fin 3))
  /-- TEMPERATURE_SAMPLE (R447). The die temperature in 0.125 °C, none where it is out of range; the 5 V input current and the input power in fp32. -/
  | temperatureSample (sample : Option (BitVec 16)) (i5 pin : Word)
  /-- TSTEP_RISE (R450). -/
  | tstepRise
  /-- TSTEP_FALL (R450). -/
  | tstepFall
  /-- GOVERNOR_INTERVAL (R453). -/
  | governorInterval
  /-- THR_WRITE (R447). -/
  | thrWrite (value : Word)
  /-- FLOOR_WRITE (R449). -/
  | floorWrite (value : Word)
  /-- I5LIM_WRITE (R453). -/
  | i5limWrite (value : Word)
  /-- TMAX_WRITE (R457). -/
  | tmaxWrite (value : Word)
  /-- CALIBRATE (R461). -/
  | calibrate
  /-- CALIBRATE_DEFERRED (R464). -/
  | calibrateDeferred
  /-- CHAINS_ONLINE (R462). The reading of CALREF in fp32, and the twelve words of gain and offset computed, gain of chain 0 lowest. -/
  | chainsOnline (ref : Word) (trims : BitVec 384)
  /-- CAL_RECORD_DURABLE (R462). Whether the program of the record succeeded. -/
  | calRecordDurable (ok : Bool)
  /-- TST_GO (R468). -/
  | tstGo (channel : Fin 8)
  /-- TST_STOP (R469). What the checker has counted, TST_FAIL, and whether it locked. -/
  | tstStop (channel : Fin 8) (errors : Word) (bits : DWord) (fail : Word) (lock : Bool)
  /-- TEST_DURATION_END (R469). As TST_STOP. -/
  | testDurationEnd (channel : Fin 8) (errors : Word) (bits : DWord) (fail : Word) (lock : Bool)
  /-- SNAPSHOT_CAPTURE (R473). -/
  | snapshotCapture
  /-- SWTRIG (R476). -/
  | swtrig (channel : Fin 64)
  /-- PERIODIC_TRIGGER (R476). -/
  | periodicTrigger (channel : Fin 64)
  /-- CHANNEL_CONFIG_WRITE (R476). The 32-bit word of the channel's page that is written. -/
  | channelConfigWrite (channel : Fin 64) (word : Fin 32) (value : Word)
  /-- LOG_COMMIT (R479). The positions, counted from the next free one, whose program fails. -/
  | logCommit (failed : List Nat)
  /-- LOG_COMMIT_DONE (R479). The positions of the commit, in order, whose second program fails. -/
  | logCommitDone (failed : List Nat)
  /-- LOG_SCAN (R481). -/
  | logScan
  /-- LOG_CLEAR (R484). The token written to object 0x7020:00. -/
  | logClear (token : List Byte)
  /-- CLRDONE (R484). -/
  | clrdone
  /-- MIRROR_WRITE (R486). The copy, and whether its sector was committed. -/
  | mirrorWrite (copy : Fin 2) (committed : Bool)
  /-- GAUGE_PUBLISH (R489). -/
  | gaugePublish
  /-- GCLR (R490). -/
  | gclr (mask : Byte)
  /-- PTLOG_POP (R495). -/
  | ptlogPop
  /-- REWRAP_GO (R497). -/
  | rewrapGo
  /-- REWRAP_ABORT (R500). -/
  | rewrapAbort
  /-- RWACK (R498). -/
  | rwack
  /-- COPY_END (R498). -/
  | copyEnd
  /-- STREAM_START (R506). -/
  | streamStart
  /-- STREAM_PAUSE (R506). -/
  | streamPause
  /-- STREAM_ABORT (R506). -/
  | streamAbort
  /-- STREAM_ENTRY_START (R503). Whether the descriptor of the peer zone says Empty, its capacity in sectors, and the ZASL of the peer in sectors. -/
  | streamEntryStart (peerEmpty : Bool) (capacity : DWord) (zasl : Word)
  /-- PEER_COMPLETION (R503). The plan entry, whether a Flush or the append at a source offset completes, and its status and returned LBA. -/
  | peerCompletion (entry : Fin 524288) (flush : Bool) (offset : BitVec 18) (status : BitVec 15) (lba : DWord)
  /-- EXTEST (R530). -/
  | extest
  /-- EXTEST_PULSE (R530). -/
  | extestPulse
  /-- EXTEST_TRAIN (R530). -/
  | extestTrain
  /-- BYPASS (R530). -/
  | bypass
  /-- IDCODE (R530). -/
  | idcode
  /-- SAMPLE_PRELOAD (R530). The levels of the two balls that no state of the module gives, and the value loaded. -/
  | samplePreload (scl sda : Bool) (load : BitVec 21)
  /-- CLAMP (R530). -/
  | clamp
  /-- HIGHZ (R530). -/
  | highz
  /-- FWLOAD (R530). The firmware slot and the image. -/
  | fwload (slot : Fin 2) (image : List Byte)
  /-- PREAMP_SUPPLY_LIMIT (R518). -/
  | preampSupplyLimit (a : Fin 2)
  /-- NAND_LOAD (R542). The core, the NAND offset and the size of the access, and whether the programs that it waits for succeed. -/
  | nandLoad (core : Fin 6) (off : BitVec 29) (size : AccessSize) (ok : Bool)
  /-- NAND_STORE (R542). The core, the NAND offset, the size of the access and its data. -/
  | nandStore (core : Fin 6) (off : BitVec 29) (size : AccessSize) (data : DWord)
  /-- NAND_ERASE (R542). The core, the NAND offset, the size of the access, and whether the erase succeeds. -/
  | nandErase (core : Fin 6) (off : BitVec 29) (size : AccessSize) (ok : Bool)
  /-- PAGE_PROGRAM (R542). The page, and whether its program succeeds. -/
  | pageProgram (page : Fin 262144) (ok : Bool)
  /-- REGISTER_WRITE (R544). The core, the offset from core address 0x4000_0000, the size of the access and its data. -/
  | registerWrite (core : Fin 6) (off : BitVec 29) (size : AccessSize) (value : DWord)
  /-- FLT_N_RISE (R411). -/
  | fltNRise (a : Fin 2)
  /-- SUPPLY_RETURN (R411). Whether it is the 5 V supply. -/
  | supplyReturn (v5 : Bool)
  deriving DecidableEq, Repr

end Sys2Proof
end

