-- ==== Sys2Proof/Decode.lean ====
section
/-! DEFINITION. The commands that a word spells. The table of operations and events gives no row
any bits, so no word spells a command. -/

namespace Sys2Proof

/-- The command that a word spells by the bits of its table row: no row has bits. -/
def decodeTableWord (_nbits _w : Nat) : Option Instr := none

end Sys2Proof
end

