-- ==== Sys2Proof/Config.lean ====
section
/-! DEFINITION. What one module fixes and the specification does not give: values set at
manufacture, and the free values of the model. Every free value is an opaque constant, so
nothing can be proved of it but what holds for every value. -/

namespace Sys2Proof.Config

/-- Word `p` (0 low, 1 high) of the MAC address of port `k`, set at manufacture (R301); log entry 3. -/
opaque macAddrWord : Nat → Nat → BitVec 32

/-- Factory trims of the measurement chains: gains at even places, offsets at odd places
(chapter 17, CAL_GAINn and CAL_OFSn); log entry 3. -/
opaque calFactory : Nat → BitVec 32

/-- A free value drawn by the model: the `n`-th draw of the run; log entry 4. -/
opaque freeValue : Nat → BitVec 64

/-- Byte `i` that a mask generator of the cipher lattice gives in a state, and the state after it. R376 and R377
give its seed and rate, and not its function (log entry 4). -/
opaque maskByte : Nat → Nat → BitVec 8
opaque maskNext : Nat → Nat

/-- KEYHASH0: the SHA-256 of the Linrak root public key, set at manufacture (R395); log entry 3. -/
opaque keyHash0 : BitVec 256

/-- WRAPKEY: the device wrapping key, generated on die (R395); log entry 3. -/
opaque wrapKey : BitVec 256

/-- Whether an inexact result of an fp32 engine goes to the neighbour farther from zero; the
specification states no rounding mode (log entry 6). -/
opaque fpRoundsUp : Rat → Bool

/-- The modulus of the device identity key pair, generated on die at manufacture (R404); log entry 3. -/
opaque identityModulus : BitVec 3072

/-- The reference of a seek profile at a sample: position, velocity and acceleration, from the
profile's start, target and limits. The specification gives bounds, which the model holds it to, and not the
curve (log entry 4). -/
opaque profileAt : List Rat → Nat → Rat × Rat × Rat

/-- The radius of track 0 of a surface in the HDA identity memory, in units of 0.01 nm. R427 gives no
place or form for it, nor for the next (log entry 4). -/
opaque trackZeroRadius : Nat → Nat

/-- The trailing-reader offsets that a preamp identity memory lists for the head of a surface: radius and
offset, in units of 0.01 nm (R51); log entry 4. -/
opaque readerOffsets : Nat → List (Nat × Nat)

/-- A free rational, the `n`-th draw of the run; log entry 4. -/
opaque freeRat : Nat → Rat

/-- The error of the injector's sine of an angle in turns, which the model keeps below 2^-24 (R189); log
entry 4. -/
opaque sineError : Rat → Rat

/-- The error in turns of the phase of the logarithmic sweep, from F0, F1, the sweep's length and the time,
which the model keeps below 2^-24; log entry 4. -/
opaque sweepError : Rat → Rat → Rat → Rat → Rat

/-- What a register shows that counts or measures what no command brings: a core's load, a parity error of an
L1 cache, a codeword of the FEC. By the clock and the register's offset (log entry 4). -/
opaque measured : Nat → Nat → BitVec 32

/-- The phase of a logarithmic sweep whose frequencies are not both above 0; log entry 4. -/
opaque logSweep : Rat → Rat → Rat → Rat → Rat

/-- The unit in which the feed-forward filter takes shock input `a` (R170); log entry 4. -/
opaque shockUnit : Nat → Rat

/-- The size that object 0x000B:00 gives for OCTETS(n), a type whose size is not one number. -/
opaque octetsTypeSize : BitVec 8

/-- The generation of a DOMAIN object whose content the module derives (R284), by index, subindex and
content. -/
opaque generation : Nat → Nat → List Nat → BitVec 32

end Sys2Proof.Config
end

