-- ==== Sys2Proof/Machine/Regs.lean ====
section
/-! DEFINITION. The register space of the module: every register of the register index
(21_address_map.md, R543) under its own name, as its byte offset from core address
0x4000_0000, and one table of rows that gives each register its access code (R8), its reset
value, its writable bits (R9) and the ranges that its chapter states for its fields (R544). -/

namespace Sys2Proof.Machine

/-! ## Register names -/

namespace Reg

/-! ### ANG registers (01_angle_clock.md) -/

/-- ANG_CTL (RW): Loop control. -/
abbrev ANG_CTL : Nat := 0x90000
/-- ANG_STS (RO): State. -/
abbrev ANG_STS : Nat := 0x90004
/-- ANG_NOW (RO): Bits 21:0 present angle. -/
abbrev ANG_NOW : Nat := 0x90008
/-- ANG_REV (RO): Revolution count, wraps at 2^32. -/
abbrev ANG_REV : Nat := 0x9000c
/-- ANG_FREQ (RO): Ticks per fabric clock, unsigned 1.31 fixed point. -/
abbrev ANG_FREQ : Nat := 0x90010
/-- ANG_PERIOD (RO): Last revolution period, ns. -/
abbrev ANG_PERIOD : Nat := 0x90014
/-- ANG_EVT (W1C): Bit 0 LOCK, 1 UNLOCK, 2 HOLD, 3 ACQFAIL, 4 FLUSH, 5 LATE, 6 DRIFTA, 7 DRIFTB. -/
abbrev ANG_EVT : Nat := 0x90018
/-- ANG_IEN (RW): Interrupt enables, bit for bit as ANG_EVT. -/
abbrev ANG_IEN : Nat := 0x9001c
/-- ANG_LATE (RO): Late entries, 16-bit saturating count. -/
abbrev ANG_LATE : Nat := 0x90020
/-- ANG_RESA (RO): Bits 15:0 signed mean error of actuator A, in 1/8 ticks. -/
abbrev ANG_RESA : Nat := 0x90024
/-- ANG_RESB (RO): As ANG_RESA, for actuator B. -/
abbrev ANG_RESB : Nat := 0x90028
/-- ANG_IDXTIME (RO): 64 bits; PTP time at the last pass through 0. -/
abbrev ANG_IDXTIME : Nat := 0x90030
/-- ANG_IDXREV (RO): ANG_REV latched with ANG_IDXTIME. -/
abbrev ANG_IDXREV : Nat := 0x90038
/-- ANG_NOWTIME (RO): 64 bits; PTP time latched by a read of ANG_NOW. -/
abbrev ANG_NOWTIME : Nat := 0x90040
/-- ANG_NOWREV (RO): ANG_REV latched by a read of ANG_NOW. -/
abbrev ANG_NOWREV : Nat := 0x90048
/-- ANG_SKEW0–ANG_SKEW23 (RW): Bits 21:0 skew of surface n, at 0x080 + 4 × n. -/
abbrev ANG_SKEW (i : Nat) : Nat := 0x90080 + 4 * i
/-- ANG_QSTS0–ANG_QSTS7 (RO): Queue of slot n at 0x100 + 0x10 × n; slots A0–A3 are 0–3 and B0–B3 are 4–7. Bits 6:0 entries held, bit 8 FULL. -/
abbrev ANG_QSTS (i : Nat) : Nat := 0x90100 + 16 * i
/-- ANG_QFLUSH0–ANG_QFLUSH7 (WO): Writing 1 to bit 0 flushes the queue of slot n. Its entries follow the rules of R28. No sequencer interrupt is raised, and ANG_EVT.FLUSH is not set (R545). -/
abbrev ANG_QFLUSH (i : Nat) : Nat := 0x90104 + 16 * i
/-- ANG_MARKTIME0–ANG_MARKTIME7 (RO): 64 bits; PTP time of the last MARK in slot n. -/
abbrev ANG_MARKTIME (i : Nat) : Nat := 0x90108 + 16 * i
/-- ANG_QPOST (WO): 64 bits; entry as in R21. Bits 2:0 of the slot select are taken from ANG_QPSEL. Accepted only in TEST mode.. -/
abbrev ANG_QPOST : Nat := 0x90180
/-- ANG_QPSEL (RW): Bits 2:0 target slot; bits 10:8 RO status of the last ANG_QPOST: 0 OK, 1 LATE, 2 ORDER, 3 FULL, 4 NOLOCK, 5 BADACT, 6 BADSURF. -/
abbrev ANG_QPSEL : Nat := 0x90188
/-! ### ZTB registers (02_recording_format.md) -/

/-- ZTB_CTL (RW): Bit 0 EN, which rises under R547; bits 2:1 ZSZ, 0 to 2 under R54, which may be written only while EN = 0. A write with ZSZ = 3 is ignored whole under R544, and ZSZ keeps its previous value. -/
abbrev ZTB_CTL : Nat := 0x180000
/-- ZTB_STS (RO): Bit 0 engine running; bit 1 band tables committed; bit 2 MAPBUSY. -/
abbrev ZTB_STS : Nat := 0x180004
/-- ZTB_EVT (W1C): Bit 0 SLIP, 1 SPAREX, 2 SLPFULL, 3 BTBUSY, 4 BTFAIL (R34, R56), 5 ZTWR, 6 EPOCHX, 7 LAYOUT (R547). -/
abbrev ZTB_EVT : Nat := 0x180008
/-- ZTB_IEN (RW): Interrupt enables, bit for bit as ZTB_EVT. -/
abbrev ZTB_IEN : Nat := 0x18000c
/-- ZTB_NZONE (RW): Bits 19:0 zone count, at most 524,288. -/
abbrev ZTB_NZONE : Nat := 0x180010
/-- ZTB_GEOM (RW): Bits 4:0 NSA, surfaces on actuator A; bits 12:8 NSB, surfaces on actuator B. -/
abbrev ZTB_GEOM : Nat := 0x180014
/-- ZTB_NTER (RW): Bits 19:0 terrace count. -/
abbrev ZTB_NTER : Nat := 0x180018
/-- ZTB_SVO (RW): Bits 15:0 SVLEAD, bits 31:16 SVTRAIL, in ticks. -/
abbrev ZTB_SVO : Nat := 0x18001c
/-- ZTB_SYNC (RW): Sync search parameters. -/
abbrev ZTB_SYNC : Nat := 0x180020
/-- ZTB_TTBASE (RW): Bits 28:2 SRAM offset of the terrace table. -/
abbrev ZTB_TTBASE : Nat := 0x180024
/-- ZTB_SLBASE (RW): Bits 28:3 SRAM offset of the slip pool. -/
abbrev ZTB_SLBASE : Nat := 0x180028
/-- ZTB_SLHEAD (RW): Bits 19:0 next free pool index. -/
abbrev ZTB_SLHEAD : Nat := 0x18002c
/-- ZTB_SLPEND (RO): Bits 19:0 oldest unacknowledged slip entry. -/
abbrev ZTB_SLPEND : Nat := 0x180030
/-- ZTB_SLNPEND (RO): Bits 8:0 number of unacknowledged slip entries. -/
abbrev ZTB_SLNPEND : Nat := 0x180034
/-- ZTB_SLACK (WO): Bits 19:0 index of the slip entry acknowledged. -/
abbrev ZTB_SLACK : Nat := 0x180038
/-- ZTB_BTSEL (RW): Bits 5:0 entry; bits 12:8 surface. -/
abbrev ZTB_BTSEL : Nat := 0x180040
/-- ZTB_BTLOAD (WO): Bit 0 GO: checks and commits under R34. -/
abbrev ZTB_BTLOAD : Nat := 0x180044
/-- ZTB_BTERR (RO): Bits 3:0 failed check 1–6, or 0 for none; bits 9:4 entry; bits 20:16 surface. -/
abbrev ZTB_BTERR : Nat := 0x180048
/-- ZTB_BTW0–ZTB_BTW7 (RW): Word n of the selected entry, at 0x060 + 4 × n. -/
abbrev ZTB_BTW (i : Nat) : Nat := 0x180060 + 4 * i
/-- ZTB_MAPIN (RW): 64 bits; bits 39:0 LBA; bit 63 0 NSID 1, 1 NSID 2. A write starts a translation.. -/
abbrev ZTB_MAPIN : Nat := 0x180080
/-- ZTB_MAPOUT (RO): 64 bits; bits 23:0 track, 33:24 sector, 38:34 surface, 61 ERR, 62 CONV, 63 VALID. -/
abbrev ZTB_MAPOUT : Nat := 0x180088
/-- ZTB_ZCMD (WO): Bits 19:0 zone; bits 23:20 NEWST; bits 27:24 OP: 1 SET_STATE, 2 RESET. -/
abbrev ZTB_ZCMD : Nat := 0x180090
/-- ZTB_ZCMDSTS (RO): Bit 0 BUSY; bits 3:1 RESULT: 0 OK, 1 BADZONE, 2 BADSTATE, 3 INUSE, 4 BADOP, 5 NOTRUN; under R66. -/
abbrev ZTB_ZCMDSTS : Nat := 0x180094
/-- ZTB_CONVCAP (RO): 64 bits; NSID 1 capacity in sectors. -/
abbrev ZTB_CONVCAP : Nat := 0x180098
/-! ### Lane registers (every page) (03_channel_lanes_and_assist.md) -/

/-- LANE_CTL (RW): Bit 0 EN; bit 1 ADAPT; bit 2 WCC, trailing lanes only. -/
abbrev LANE_CTL (n : Nat) : Nat := 0xc0000 + 0x1000 * n
/-- LANE_STS (RO): Bits 1:0 state: 0 IDLE, 1 PREAMBLE, 2 DATA, 3 RECOVER; bit 4 AGC settled. -/
abbrev LANE_STS (n : Nat) : Nat := 0xc0004 + 0x1000 * n
/-- LANE_EVT (W1C): Bit 0 DECFAIL, 1 SYNCMISS, 2 TA, 3 OVR. -/
abbrev LANE_EVT (n : Nat) : Nat := 0xc0008 + 0x1000 * n
/-- LANE_IEN (RW): Interrupt enables, bit for bit as LANE_EVT. -/
abbrev LANE_IEN (n : Nat) : Nat := 0xc000c + 0x1000 * n
/-- LANE_AFE (RW): Front-end settings. -/
abbrev LANE_AFE (n : Nat) : Nat := 0xc0010 + 0x1000 * n
/-- LANE_DET (RW): Bits 7:0 T1 and bits 15:8 T2, signed, in units of 1/64; bit 16 noise prediction enable. -/
abbrev LANE_DET (n : Nat) : Nat := 0xc0014 + 0x1000 * n
/-- LANE_DEC (RW): Decoder settings. -/
abbrev LANE_DEC (n : Nat) : Nat := 0xc0018 + 0x1000 * n
/-- LANE_RES (RO): Result of the last sector, as in R75. -/
abbrev LANE_RES (n : Nat) : Nat := 0xc001c + 0x1000 * n
/-- LANE_SECT (RO): Sectors delivered, wraps at 2^32. -/
abbrev LANE_SECT (n : Nat) : Nat := 0xc0020 + 0x1000 * n
/-- LANE_DFAIL (RO): Sectors with DEC = FAIL, 16-bit saturating. -/
abbrev LANE_DFAIL (n : Nat) : Nat := 0xc0024 + 0x1000 * n
/-- LANE_ITSUM (RO): Sum of IT over delivered sectors, wraps at 2^32. -/
abbrev LANE_ITSUM (n : Nat) : Nat := 0xc0028 + 0x1000 * n
/-- LANE_NCORR (RO): Sum of NCORR, 32-bit saturating. -/
abbrev LANE_NCORR (n : Nat) : Nat := 0xc002c + 0x1000 * n
/-- LANE_EQC0–LANE_EQC9 (RW): At 0x040 + 4 × n: bits 15:0 tap 2n, bits 31:16 tap 2n + 1, signed, in units of 2^−14. -/
abbrev LANE_EQC (n i : Nat) : Nat := 0xc0040 + 0x1000 * n + 4 * i
/-- LANE_WCCG (RW): Trailing lanes only: bits 4:0 adaptation step 2^−(n+6); bit 8 freeze taps. -/
abbrev LANE_WCCG (n : Nat) : Nat := 0xc0080 + 0x1000 * n
/-- LANE_SLHEAD (RO): Bits 3:0 selected head; bit 7 VALID. -/
abbrev LANE_SLHEAD (n : Nat) : Nat := 0xc0200 + 0x1000 * n
/-- LANE_SLEVT (W1C): Bit 0 HBUSY, 1 HBAD, 2 HACT, 3 HSWWG, 4 AMONERR, 5 LSERR (R80). -/
abbrev LANE_SLEVT (n : Nat) : Nat := 0xc0204 + 0x1000 * n
/-- LANE_SLIEN (RW): Interrupt enables, bit for bit as LANE_SLEVT. -/
abbrev LANE_SLIEN (n : Nat) : Nat := 0xc0208 + 0x1000 * n
/-- LANE_APWR (RO): Bits 15:0 latched assist code after clamping; bit 16 assist on. -/
abbrev LANE_APWR (n : Nat) : Nat := 0xc020c + 0x1000 * n
/-- LANE_AMON (RO): Bits 15:0 monitor reading, in code units; bits 23:16 consecutive out-of-tolerance wedges, saturating. -/
abbrev LANE_AMON (n : Nat) : Nat := 0xc0210 + 0x1000 * n
/-- LANE_ARAMP (RW): Bits 3:0 ramp time in 0.25 µs steps. -/
abbrev LANE_ARAMP (n : Nat) : Nat := 0xc0214 + 0x1000 * n
/-- LANE_SLBAND (RO): Bits 5:0 band-table entry programmed by the sequencer. -/
abbrev LANE_SLBAND (n : Nat) : Nat := 0xc0218 + 0x1000 * n
/-- LANE_ACFG (RO): Bits 1:0 ATYPE: 0 none, 1 laser, 2 microwave; bits 11:8 NHEAD; set at SURVEY. -/
abbrev LANE_ACFG (a : Nat) : Nat := 0xc0400 + 0x4000 * a
/-- LANE_HBTBASE (RW): Bits 28:5 SRAM offset of the head-band table. -/
abbrev LANE_HBTBASE (a : Nat) : Nat := 0xc0404 + 0x4000 * a
/-- LANE_ATBP0 (RW): Breakpoints 0–3, one signed byte each from bits 7:0 (10, 25, 40, 55 °C). -/
abbrev LANE_ATBP0 (a : Nat) : Nat := 0xc0408 + 0x4000 * a
/-- LANE_ATBP1 (RW): Breakpoints 4–7, as LANE_ATBP0 (70, 85, 110, 115 °C). -/
abbrev LANE_ATBP1 (a : Nat) : Nat := 0xc040c + 0x4000 * a
/-- LANE_PBLEAD (RW): Bits 21:0 pre-bias lead, in ticks. -/
abbrev LANE_PBLEAD (a : Nat) : Nat := 0xc0410 + 0x4000 * a
/-- LANE_AMTOL (RW): Bits 7:0 PCT, percent; bits 11:8 CNT, wedges. -/
abbrev LANE_AMTOL (a : Nat) : Nat := 0xc0414 + 0x4000 * a
/-- LANE_DBLIM (RW): Bits 7:0 WARN and bits 15:8 STOP, percent of capacity, 0–100. -/
abbrev LANE_DBLIM (a : Nat) : Nat := 0xc0418 + 0x4000 * a
/-- LANE_DBEVT (W1C): Bit n: head n rose through WARN. -/
abbrev LANE_DBEVT (a : Nat) : Nat := 0xc041c + 0x4000 * a
/-- LANE_DBIEN (RW): Interrupt enables, bit for bit as LANE_DBEVT. -/
abbrev LANE_DBIEN (a : Nat) : Nat := 0xc0420 + 0x4000 * a
/-- LANE_DBLVL0–LANE_DBLVL11 (RO): At 0x480 + 4 × n: bucket level of head n, in full-power µs. -/
abbrev LANE_DBLVL (a i : Nat) : Nat := 0xc0480 + 0x4000 * a + 4 * i
/-! ### ZTB write pipeline registers (04_shingled_write_pipeline.md) -/

/-- ZTB_TVCFG (RW): Bits 15:0 IDLE, in µs, 500–65,535; bits 23:16 MAXAGE, in ms, 4–255. -/
abbrev ZTB_TVCFG : Nat := 0x180100
/-- ZTB_VCFG (RW): Bits 11:0 NCMAX; bit 12 ACCREC. -/
abbrev ZTB_VCFG : Nat := 0x180104
/-- ZTB_RETBUD (RO): Bits 15:0 retention budget, 45,056 buffers. -/
abbrev ZTB_RETBUD : Nat := 0x180108
/-- ZTB_RETUSE (RO): Bits 15:0 buffers retained now. -/
abbrev ZTB_RETUSE : Nat := 0x18010c
/-- ZTB_RETPEAK (RW): Bits 15:0 highest ZTB_RETUSE; a write of any value sets it to the present ZTB_RETUSE. -/
abbrev ZTB_RETPEAK : Nat := 0x180110
/-- ZTB_ACTZ (RO): Bits 5:0 active zones; bits 13:8 open zones. -/
abbrev ZTB_ACTZ : Nat := 0x180114
/-- ZTB_WPEVT (W1C): Bit 0 VFAIL, 1 ROLLBACK, 2 SLIPV, 3 TAILV, 4 RELOAD, 5 RLFAIL, 6 RETFULL, 7 UNRVF, 8 OPEN, 9 RCVDONE, 10 WGFAIL, 11 CVFAIL. -/
abbrev ZTB_WPEVT : Nat := 0x180118
/-- ZTB_WPIEN (RW): Interrupt enables, bit for bit as ZTB_WPEVT. -/
abbrev ZTB_WPIEN : Nat := 0x18011c
/-- ZTB_VFCNT (RO): Verify failures, 32-bit saturating. -/
abbrev ZTB_VFCNT : Nat := 0x180120
/-- ZTB_RBCNT (RO): Rollbacks, 32-bit saturating. -/
abbrev ZTB_RBCNT : Nat := 0x180124
/-- ZTB_TVCNT (RO): TAIL_VERIFY operations completed, wraps at 2^32. -/
abbrev ZTB_TVCNT : Nat := 0x180128
/-- ZTB_TRCNT (RO): Tail reloads completed, wraps at 2^32. -/
abbrev ZTB_TRCNT : Nat := 0x18012c
/-- ZTB_OPPEND (RO): Bits 19:0 oldest unacknowledged opened zone; bit 31 VALID. -/
abbrev ZTB_OPPEND : Nat := 0x180130
/-- ZTB_OPACK (WO): Bits 19:0 zone acknowledged under R125. -/
abbrev ZTB_OPACK : Nat := 0x180134
/-- ZTB_RCMD (WO): Bits 19:0 zone; bit 31 GO starts recovery under R126. -/
abbrev ZTB_RCMD : Nat := 0x180138
/-- ZTB_RCSTS (RO): See its field table. -/
abbrev ZTB_RCSTS : Nat := 0x18013c
/-- ZTB_WPSTS (RO): Bit 0 PEND, a mode change is waiting under R118; bits 2:1 mode in effect. -/
abbrev ZTB_WPSTS : Nat := 0x180140
/-! ### TSQ registers (05_track_sequencer.md) -/

/-- TSQ_CTL (RW): Bit 0 RUN; bit 1 COMPAT, under R159; bit 2 FPEN, the builder posts descriptors to this sequencer, under R136. -/
abbrev TSQ_CTL (q : Nat) : Nat := 0xa0000 + 0x10000 * q
/-- TSQ_STS (RO): Bit 0 IDLE, no routine running and all queues empty; bit 1 LOADED; bit 2 COMPAT in effect; bits 12:8 contexts running, one bit each. -/
abbrev TSQ_STS (q : Nat) : Nat := 0xa0004 + 0x10000 * q
/-- TSQ_EVT (W1C): Bit 0 FWCMP, 1 QLEFT (HALT with entries left in the queue), 2 LDDONE, 3 LDFAIL, 4 SEVT. -/
abbrev TSQ_EVT (q : Nat) : Nat := 0xa0008 + 0x10000 * q
/-- TSQ_IEN (RW): Interrupt enables, bit for bit as TSQ_EVT. -/
abbrev TSQ_IEN (q : Nat) : Nat := 0xa000c + 0x10000 * q
/-- TSQ_SEVT (W1C): Bits 13:0: bit n set when class S cause n is taken or recorded. -/
abbrev TSQ_SEVT (q : Nat) : Nat := 0xa0010 + 0x10000 * q
/-- TSQ_SIEN (RW): Interrupt enables, bit for bit as TSQ_SEVT. -/
abbrev TSQ_SIEN (q : Nat) : Nat := 0xa0014 + 0x10000 * q
/-- TSQ_SCNT (RO): Class S interrupts taken, 32-bit saturating. -/
abbrev TSQ_SCNT (q : Nat) : Nat := 0xa0018 + 0x10000 * q
/-- TSQ_PCNT (RO): Preemption exits entered, 32-bit saturating. -/
abbrev TSQ_PCNT (q : Nat) : Nat := 0xa001c + 0x10000 * q
/-- TSQ_OPCNT (RO): Operations completed, wraps at 2^32. -/
abbrev TSQ_OPCNT (q : Nat) : Nat := 0xa0020 + 0x10000 * q
/-- TSQ_PXLIM (RW): Bits 9:0 preemption-exit limit in µs, 1–1,000. -/
abbrev TSQ_PXLIM (q : Nat) : Nat := 0xa0024 + 0x10000 * q
/-- TSQ_OPLIM (RW): Bits 3:0 revolutions per operation before OPTIME, 2–15. -/
abbrev TSQ_OPLIM (q : Nat) : Nat := 0xa0028 + 0x10000 * q
/-- TSQ_UCVER (RO): Bits 31:24 major, 23:16 minor, 15:8 patch, 7:0 build. -/
abbrev TSQ_UCVER (q : Nat) : Nat := 0xa002c + 0x10000 * q
/-- TSQ_FWQ (WO): 64 bits; bits 28:6 descriptor offset; bits 34:32 CTX. A write posts the descriptor.. -/
abbrev TSQ_FWQ (q : Nat) : Nat := 0xa0030 + 0x10000 * q
/-- TSQ_FWSTS (RO): Bits 2:0 status of the last post: 0 OK, 1 FULL, 2 BADCTX, 3 BADALIGN, 4 STOPPED (RUN = 0); the first that applies under R136. -/
abbrev TSQ_FWSTS (q : Nat) : Nat := 0xa0038 + 0x10000 * q
/-- TSQ_FWCQ (RO): Bits 28:6 oldest completed firmware-posted descriptor; bit 31 VALID. A read pops it.. -/
abbrev TSQ_FWCQ (q : Nat) : Nat := 0xa003c + 0x10000 * q
/-- TSQ_PREQ (WO): Bits 4:0 contexts to receive a class P request. -/
abbrev TSQ_PREQ (q : Nat) : Nat := 0xa0040 + 0x10000 * q
/-- TSQ_KILL (WO): Bits 4:0 contexts to receive class S cause KILL. -/
abbrev TSQ_KILL (q : Nat) : Nat := 0xa0044 + 0x10000 * q
/-- TSQ_XSTS0–TSQ_XSTS4 (RO): At 0x100 + 0x10 × n: bits 12:0 PC; bits 18:16 state: 0 IDLE, 1 SEEKWAIT, 2 RUN, 3 PEXIT, 4 RESTORE; bits 24:20 descriptors queued. -/
abbrev TSQ_XSTS (q i : Nat) : Nat := 0xa0100 + 0x10000 * q + 16 * i
/-- TSQ_XDESC0–TSQ_XDESC4 (RO): At 0x104 + 0x10 × n: bits 28:6 offset of the descriptor running. -/
abbrev TSQ_XDESC (q i : Nat) : Nat := 0xa0104 + 0x10000 * q + 16 * i
/-- TSQ_XJRN0–TSQ_XJRN4 (RO): At 0x108 + 0x10 × n: bits 5:0 journal items; bits 16:8 clocks since the last commit point. -/
abbrev TSQ_XJRN (q i : Nat) : Nat := 0xa0108 + 0x10000 * q + 16 * i
/-- TSQ_LDSRC (RW): Bits 28:2 SRAM offset of the image. -/
abbrev TSQ_LDSRC : Nat := 0xa0200
/-- TSQ_LDCMD (WO): Bit 0 LOAD, bit 1 PATCH. -/
abbrev TSQ_LDCMD : Nat := 0xa0204
/-- TSQ_LDSTS (RO): Bit 0 BUSY; bits 3:1 RESULT: 0 OK, 1 SIG, 2 SIZE, 3 BASE, 4 STATE, 5 HDR, 6 CMD; under R158. -/
abbrev TSQ_LDSTS : Nat := 0xa0208
/-- TSQ_XGR (RO): Register g of context n at 0x400 + 0x40 × n + 4 × g; readable only in TEST mode, otherwise reads zero. -/
abbrev TSQ_XGR (q n i : Nat) : Nat := 0xa0400 + 0x10000 * q + 0x40 * n + 4 * i
/-! ### SRV common registers (06_servo_control_engine.md) -/

/-- SRV_CWSEL (RW): Bit 0 ACT: actuator whose inactive bank the window maps. -/
abbrev SRV_CWSEL : Nat := 0xd0000
/-- SRV_SHK0–SRV_SHK5 (RO): At 0x010 + 4 × n: bits 15:0 newest reading of axis n, signed. Axes 0–2 linear x, y, z in 1/1,024 g; axes 3–5 angular rate about x, y, z in 1/16 °/s. -/
abbrev SRV_SHK (i : Nat) : Nat := 0xd0010 + 4 * i
/-- SRV_CTL (RW): See its field table. -/
abbrev SRV_CTL (a : Nat) : Nat := 0xd0100 + 0x100 * a
/-- SRV_STS (RO): See its field table. -/
abbrev SRV_STS (a : Nat) : Nat := 0xd0104 + 0x100 * a
/-- SRV_EVT (W1C): Bit 0 OVR, 1 RETRACT, 2 SWAPDONE, 3 BANKERR, 4 SKDONE, 5 SKFAIL, 6 CTRANGE, 7 MISS, 8 ANCHREJ, 9 INJDONE, 10 CAPDONE, 11 WINBUSY, 12 CCE (correctable coefficient-memory error). -/
abbrev SRV_EVT (a : Nat) : Nat := 0xd0108 + 0x100 * a
/-- SRV_IEN (RW): Interrupt enables, bit for bit as SRV_EVT. -/
abbrev SRV_IEN (a : Nat) : Nat := 0xd010c + 0x100 * a
/-- SRV_BANK (RW): Bit 0 SWAP, write 1 under R183, reads 0; bit 1 PEND, RO; bit 2 CHECK, RO; bits 6:4 ERR, RO, failed check 1–5 or 0; bit 8 VALID, RO, active bank valid; bits 28:16 MACS, RO. -/
abbrev SRV_BANK (a : Nat) : Nat := 0xd0110 + 0x100 * a
/-- SRV_BANKID (RO): BANKID of the active bank. -/
abbrev SRV_BANKID (a : Nat) : Nat := 0xd0114 + 0x100 * a
/-- SRV_OVR (RO): Bits 15:0 COUNT, saturating; bits 17:16 CONSEC; bits 21:20 CAUSE of the last: 0 TIME, 1 NONFINITE, 2 CPAR. -/
abbrev SRV_OVR (a : Nat) : Nat := 0xd0118 + 0x100 * a
/-- SRV_PERIOD (RO): Bits 15:0 last sample interval, ns. -/
abbrev SRV_PERIOD (a : Nat) : Nat := 0xd011c + 0x100 * a
/-- SRV_VMAX (RW): fp32 velocity limit, servo tracks/s. -/
abbrev SRV_VMAX (a : Nat) : Nat := 0xd0120 + 0x100 * a
/-- SRV_AMAX (RW): fp32 acceleration limit, servo tracks/s². -/
abbrev SRV_AMAX (a : Nat) : Nat := 0xd0124 + 0x100 * a
/-- SRV_JMAX (RW): fp32 jerk limit, servo tracks/s³. -/
abbrev SRV_JMAX (a : Nat) : Nat := 0xd0128 + 0x100 * a
/-- SRV_SETL (RW): Bits 7:0 WIN, percent of PITCH; bits 15:8 CNT, samples; bits 31:16 TMO, 0.1 ms. -/
abbrev SRV_SETL (a : Nat) : Nat := 0xd012c + 0x100 * a
/-- SRV_TPBASE (RW): Bits 28:3 SRAM offset of the track-position table. -/
abbrev SRV_TPBASE (a : Nat) : Nat := 0xd0130 + 0x100 * a
/-- SRV_STP (RW): Bits 15:0 servo track pitch, 0.01 nm. -/
abbrev SRV_STP (a : Nat) : Nat := 0xd0134 + 0x100 * a
/-- SRV_MISS (RW): Bits 3:0 MAX, 1–15; bits 11:8 RECOV, 1–15. -/
abbrev SRV_MISS (a : Nat) : Nat := 0xd0138 + 0x100 * a
/-- SRV_ANHOLD (RW): Bits 9:0 hand-over samples, 1–1,023. -/
abbrev SRV_ANHOLD (a : Nat) : Nat := 0xd013c + 0x100 * a
/-- SRV_RETV (RW): fp32 retract velocity, servo tracks/s. -/
abbrev SRV_RETV (a : Nat) : Nat := 0xd0140 + 0x100 * a
/-- SRV_RETI (RW): fp32 retract current limit, A. -/
abbrev SRV_RETI (a : Nat) : Nat := 0xd0144 + 0x100 * a
/-- SRV_POS (RO): I32 anchor position, 1/256 servo track. -/
abbrev SRV_POS (a : Nat) : Nat := 0xd0148 + 0x100 * a
/-- SRV_TGT (RO): I32 profile target, 1/256 servo track. -/
abbrev SRV_TGT (a : Nat) : Nat := 0xd014c + 0x100 * a
/-- SRV_VCMI (RO): fp32 applied VCM command, A. -/
abbrev SRV_VCMI (a : Nat) : Nat := 0xd0150 + 0x100 * a
/-- SRV_PES0–SRV_PES3 (RO): At 0x60 + 4 × k: bits 15:0 e[k] in 0.01 nm, signed, saturating; bits 23:16 percentage of R179, saturating at 255; bit 24 last sample missing. -/
abbrev SRV_PES (a i : Nat) : Nat := 0xd0160 + 0x100 * a + 4 * i
/-- SRV_MAV0–SRV_MAV3 (RO): At 0x70 + 4 × k: fp32 applied milliactuator command of slot k, V. -/
abbrev SRV_MAV (a i : Nat) : Nat := 0xd0170 + 0x100 * a + 4 * i
/-- SRV_MASTK0–SRV_MASTK11 (RW): At 0x80 + 4 × h: bits 15:0 stroke of head h, 0.01 nm. -/
abbrev SRV_MASTK (a i : Nat) : Nat := 0xd0180 + 0x100 * a + 4 * i
/-- SRV_INJCTL (RW): See its field table. -/
abbrev SRV_INJCTL (a : Nat) : Nat := 0xd01c0 + 0x100 * a
/-- SRV_INJAMP (RW): fp32 AMP. -/
abbrev SRV_INJAMP (a : Nat) : Nat := 0xd01c4 + 0x100 * a
/-- SRV_INJF0 (RW): fp32 F0, Hz. -/
abbrev SRV_INJF0 (a : Nat) : Nat := 0xd01c8 + 0x100 * a
/-- SRV_INJF1 (RW): fp32 F1, Hz. -/
abbrev SRV_INJF1 (a : Nat) : Nat := 0xd01cc + 0x100 * a
/-- SRV_INJLEN (RW): LEN, samples. -/
abbrev SRV_INJLEN (a : Nat) : Nat := 0xd01d0 + 0x100 * a
/-- SRV_INJSTS (RO): Bit 0 RUN; bits 3:1 RESULT: 0 OK, 1 MODE, 2 TARGET, 3 FREQ, 4 SPINBUSY, 5 ABORT; bits 31:8 samples injected, saturating. -/
abbrev SRV_INJSTS (a : Nat) : Nat := 0xd01d4 + 0x100 * a
/-- SRV_CAPCTL (RW): See its field table. -/
abbrev SRV_CAPCTL (a : Nat) : Nat := 0xd01e0 + 0x100 * a
/-- SRV_CAPSTS (RO): Bits 16:0 records stored; bit 24 RUN; bit 25 DONE; bit 26 WRAP. -/
abbrev SRV_CAPSTS (a : Nat) : Nat := 0xd01e4 + 0x100 * a
/-- SRV_CAPIDX (RW): Bits 15:0 record index. -/
abbrev SRV_CAPIDX (a : Nat) : Nat := 0xd01e8 + 0x100 * a
/-- SRV_CAPPOST (RW): Bits 15:0 records after the trigger in ring mode. -/
abbrev SRV_CAPPOST (a : Nat) : Nat := 0xd01ec + 0x100 * a
/-- SRV_CAPD0–SRV_CAPD3 (RO): fp32 signal n of record SRV_CAPIDX. -/
abbrev SRV_CAPD (a i : Nat) : Nat := 0xd01f0 + 0x100 * a + 4 * i
/-! ### SPN registers (07_spindle_drive.md) -/

/-- SPN_CTL (RW): Bit 0 EN; bit 1 SRVFB, permits servo-angle commutation under R203. -/
abbrev SPN_CTL : Nat := 0xe0000
/-- SPN_STS (RO): See its field table. -/
abbrev SPN_STS : Nat := 0xe0004
/-- SPN_EVT (W1C): Bit 0 LOS, 1 RACQOK, 2 RACQFAIL, 3 STARTFAIL, 4 DISBRK, 5 SRVLOST, 6 OBSFAIL, 7 STOPPED, 8 ATTGT, 9 SHOLD, 10 TGTREJ, 11 CFGERR, 12 ILIMPK. -/
abbrev SPN_EVT : Nat := 0xe0008
/-- SPN_IEN (RW): Interrupt enables, bit for bit as SPN_EVT. -/
abbrev SPN_IEN : Nat := 0xe000c
/-- SPN_CMD (WO): Bits 1:0 OP: 1 RUN, 2 STOP, 3 COAST. -/
abbrev SPN_CMD : Nat := 0xe0010
/-- SPN_TGT (RW): Bits 13:0 target speed in rpm, 5,400–10,000. -/
abbrev SPN_TGT : Nat := 0xe0014
/-- SPN_SPEED (RO): Bits 19:0 speed estimate, 1/64 rpm; bit 31 REV, backward. -/
abbrev SPN_SPEED : Nat := 0xe0018
/-- SPN_MOT (RW): Bits 3:0 PP, pole pairs 4–8. -/
abbrev SPN_MOT : Nat := 0xe001c
/-- SPN_KE (RW): fp32 back-EMF constant, line-to-line peak V per rad/s. -/
abbrev SPN_KE : Nat := 0xe0020
/-- SPN_RW (RW): fp32 line-to-line winding resistance, Ω. -/
abbrev SPN_RW : Nat := 0xe0024
/-- SPN_SKP (RW): fp32 speed-loop proportional gain, A per rpm. -/
abbrev SPN_SKP : Nat := 0xe0028
/-- SPN_SKI (RW): fp32 speed-loop integral gain, A per rpm·s. -/
abbrev SPN_SKI : Nat := 0xe002c
/-- SPN_CKP (RW): fp32 current-loop proportional gain, duty per A. -/
abbrev SPN_CKP : Nat := 0xe0030
/-- SPN_CKI (RW): fp32 current-loop integral gain, duty per A·s. -/
abbrev SPN_CKI : Nat := 0xe0034
/-- SPN_OBS (RW): Bits 4:0 WIN, degrees, 1–15; bits 12:8 BLANK, degrees, 4–20; bits 19:16 REACQ, crossings, 1–15; bits 27:24 SRVMAX, revolutions, 1–15. -/
abbrev SPN_OBS : Nat := 0xe0038
/-- SPN_COMM (RW): Bits 6:0 ADV, advance in 0.25 electrical degrees, 0–120. -/
abbrev SPN_COMM : Nat := 0xe003c
/-- SPN_START (RW): Bits 7:0 ALIGNT, 10 ms; bits 15:8 ALIGNI, 0.02 A; bits 23:16 OLRATE, 10 rpm/s; bits 31:24 SUMAX, 0.1 s. -/
abbrev SPN_START : Nat := 0xe0040
/-- SPN_BRK (RW): Bits 7:0 DISI, 0.02 A; bits 15:8 REGMIN, 0.01 A; bits 23:16 REGT, 0.1 ms; bits 31:24 HOLDT, 10 ms. -/
abbrev SPN_BRK : Nat := 0xe0044
/-- SPN_MOFF (RO): Bits 21:0 servo angle of electrical zero; bit 31 VALID. -/
abbrev SPN_MOFF : Nat := 0xe0048
/-- SPN_DUTY (RO): Bits 9:0 duty applied, 0.1%; bits 13:12 pattern of R197. -/
abbrev SPN_DUTY : Nat := 0xe004c
/-- SPN_IPH (RO): fp32 measured phase current, A, signed. -/
abbrev SPN_IPH : Nat := 0xe0050
/-- SPN_LOSCNT (RO): Losses of synchronism, 32-bit saturating. -/
abbrev SPN_LOSCNT : Nat := 0xe0054
/-- SPN_RFCNT (RO): Failures counted under R208, 32-bit saturating. -/
abbrev SPN_RFCNT : Nat := 0xe0058
/-- SPN_SUTIME (RO): Bits 15:0 last spin-up time, ms. -/
abbrev SPN_SUTIME : Nat := 0xe005c
/-- SPN_PKCNT (RO): Periods cut at 3.0 A under R194, 32-bit saturating. -/
abbrev SPN_PKCNT : Nat := 0xe0060
/-- WEIR_CTL (RW): Bit 0 RAMPEN. -/
abbrev WEIR_CTL : Nat := 0xf0000
/-- WEIR_STS (RO): Bit 0 GOVREQ; bit 1 BRAKING; bit 2 RAMPACT; bit 3 DISBRK. -/
abbrev WEIR_STS : Nat := 0xf0004
/-- WEIR_WIN (RO): Bits 2:0 winning input of the last sample, code of R216. -/
abbrev WEIR_WIN : Nat := 0xf0008
/-- WEIR_EVT (W1C): Bit 0 RANGE. -/
abbrev WEIR_EVT : Nat := 0xf000c
/-- WEIR_IEN (RW): Interrupt enables, bit for bit as WEIR_EVT. -/
abbrev WEIR_IEN : Nat := 0xf0010
/-- WEIR_OUT (RO): fp32 current command applied, A, signed. -/
abbrev WEIR_OUT : Nat := 0xf0014
/-- WEIR_ILIM (RW): fp32 current limit, A, 0.1–2.0. -/
abbrev WEIR_ILIM : Nat := 0xf0018
/-- WEIR_IINLIM (RW): fp32 12 V input-current limit, A, 0.5–3.0. -/
abbrev WEIR_IINLIM : Nat := 0xf001c
/-- WEIR_VREG (RW): fp32 regeneration voltage limit, V, 12.0–12.9. -/
abbrev WEIR_VREG : Nat := 0xf0020
/-- WEIR_THLIM (RO): fp32 thermal current limit, A. -/
abbrev WEIR_THLIM : Nat := 0xf0024
/-- WEIR_RAMPI0 (RW): fp32 ramp starting current, A, 0–2.0. -/
abbrev WEIR_RAMPI0 : Nat := 0xf0028
/-- WEIR_RAMPR (RW): fp32 ramp rate, A/s, above 0 and at most 100. -/
abbrev WEIR_RAMPR : Nat := 0xf002c
/-- WEIR_KIIN (RW): fp32 input-current loop gain, per s, above 0 and at most 10,000. -/
abbrev WEIR_KIIN : Nat := 0xf0030
/-- WEIR_KV (RW): fp32 voltage loop gain, A per V·s, above 0 and at most 10,000. -/
abbrev WEIR_KV : Nat := 0xf0034
/-- WEIR_V12 (RO): fp32 12 V node voltage, V. -/
abbrev WEIR_V12 : Nat := 0xf0038
/-- WEIR_I12 (RO): fp32 12 V input current, A. -/
abbrev WEIR_I12 : Nat := 0xf003c
/-- WEIR_WCNT0–WEIR_WCNT4 (RO): At 0x040 + 4 × n: samples won by input n, wraps at 2^32. -/
abbrev WEIR_WCNT (i : Nat) : Nat := 0xf0040 + 4 * i
/-! ### NQE registers (08_host_queueing.md) -/

/-- NQE_CTL (RW): Bit 0 EN, run the queue engine; bit 1 FPEN, serve the fast path in hardware, so that all I/O commands pass to firmware when 0. -/
abbrev NQE_CTL : Nat := 0x70000
/-- NQE_STS (RO): See its field table. -/
abbrev NQE_STS : Nat := 0x70004
/-- NQE_EVT (W1C): Bit 0 EXQ, 1 HZFULL, 2 INFLFULL, 3 ASSOCFULL, 4 QPFULL, 5 KATO, 6 PSDONE, 7 DRAINED, 8 ABORT, 9 CRST. -/
abbrev NQE_EVT : Nat := 0x70008
/-- NQE_IEN (RW): Interrupt enables, bit for bit as NQE_EVT. -/
abbrev NQE_IEN : Nat := 0x7000c
/-- NQE_QPUSE (RO): Bits 15:0 I/O queue pairs in use. -/
abbrev NQE_QPUSE : Nat := 0x70010
/-- NQE_ASUSE (RO): Bits 12:0 associations in use. -/
abbrev NQE_ASUSE : Nat := 0x70014
/-- NQE_INFL (RO): Bits 14:0 commands in flight; bits 30:16 peak since power-on. -/
abbrev NQE_INFL : Nat := 0x70018
/-- NQE_HZUSE (RO): Bits 10:0 hazard entries in use; bits 26:16 peak since power-on. -/
abbrev NQE_HZUSE : Nat := 0x7001c
/-- NQE_QCBASE (RWL): Bits 28:8 SRAM offset of the queue contexts under R228. -/
abbrev NQE_QCBASE : Nat := 0x70020
/-- NQE_CSBASE (RWL): Bits 28:7 SRAM offset of the command slot table: 16,384 entries of 128 bytes, each holding the submission entry and the command's state. -/
abbrev NQE_CSBASE : Nat := 0x70024
/-- NQE_EXQ (RO): Bits 13:0 command slot; bits 19:16 reason code of R242; bit 31 VALID. A read pops the entry.. -/
abbrev NQE_EXQ : Nat := 0x70028
/-- NQE_CPLPOST (WO): 64 bits; bits 13:0 command slot; bits 26:16 status; bit 27 DNR; bits 63:32 completion Dword 0. A write posts the completion.. -/
abbrev NQE_CPLPOST : Nat := 0x70030
/-- NQE_PSCUR (RO): Bits 2:0 CUR; bits 6:4 TGT; bit 8 ENTERING; bit 9 EXITING. -/
abbrev NQE_PSCUR : Nat := 0x70038
/-- NQE_FWACT (RW): Bit 0 HOLD, stop fetching and drain under R253; bit 1 DRAINED, RO. A cluster reset leaves HOLD unchanged.. -/
abbrev NQE_FWACT : Nat := 0x7003c
/-- NQE_ARB (RW): Bits 2:0 AB under R229. -/
abbrev NQE_ARB : Nat := 0x70040
/-- NQE_CMDCNT (RO): Completions posted, wraps at 2^32. -/
abbrev NQE_CMDCNT : Nat := 0x70044
/-- NQE_ABCNT (RO): Commands caught by Abort, 32-bit saturating. -/
abbrev NQE_ABCNT : Nat := 0x70048
/-- NQE_ERRCNT (RO): Completions with non-zero status, 32-bit saturating. -/
abbrev NQE_ERRCNT : Nat := 0x7004c
/-! ### NOI registers (09_noile_object_dictionary.md) -/

/-- NOI_CTL (RW): Bit 0 EN: serve Noile; when 0, the engine drops every message. -/
abbrev NOI_CTL : Nat := 0x160000
/-- NOI_STS (RO): Bit 0 RUN; bit 1 FWOK, firmware accepts requests; bits 12:8 sessions in use; bits 23:16 subscriptions in use; bits 30:24 request slots in use. -/
abbrev NOI_STS : Nat := 0x160004
/-- NOI_EVT (W1C): Bit 0 FWREQ, 1 FWQFULL, 2 TAGFAIL, 3 SUBDROP, 4 SESSEND, 5 LATE (a firmware reply arrived after its deadline). -/
abbrev NOI_EVT : Nat := 0x160008
/-- NOI_IEN (RW): Interrupt enables, bit for bit as NOI_EVT. -/
abbrev NOI_IEN : Nat := 0x16000c
/-- NOI_NODE (RO): Bits 19:0 node ID in effect. -/
abbrev NOI_NODE : Nat := 0x160010
/-- NOI_PORT (RO): Bits 15:0 UDP port in effect. -/
abbrev NOI_PORT : Nat := 0x160014
/-- NOI_FWTMO (RW): Bits 9:0 firmware deadline of R281, µs, 100–950. -/
abbrev NOI_FWTMO : Nat := 0x160018
/-- NOI_RETRY (RW): Bits 15:0 retry-after time of BUSY, ms, 1–65,535. -/
abbrev NOI_RETRY : Nat := 0x16001c
/-- NOI_FWQ (RO): Bits 5:0 oldest waiting request slot; bit 31 VALID. A read pops it.. -/
abbrev NOI_FWQ : Nat := 0x160020
/-- NOI_FWRSP (WO): Bits 5:0 slot; bits 23:8 error code, 0 for success. A write sends the reply held in the slot.. -/
abbrev NOI_FWRSP : Nat := 0x160024
/-- NOI_RQBASE (RWL): Bits 28:8 SRAM offset of 64 request slots of 2,560 bytes each. -/
abbrev NOI_RQBASE : Nat := 0x160028
/-- NOI_NTFY (WO): Bits 15:0 index; bits 23:16 subindex: names a firmware-served object that has changed. -/
abbrev NOI_NTFY : Nat := 0x16002c
/-- NOI_RXCNT (RO): Messages accepted, wraps at 2^32. -/
abbrev NOI_RXCNT : Nat := 0x160030
/-- NOI_TXCNT (RO): Messages sent, wraps at 2^32. -/
abbrev NOI_TXCNT : Nat := 0x160034
/-- NOI_TAGFAIL (RO): Session messages dropped under R288, 32-bit saturating. -/
abbrev NOI_TAGFAIL : Nat := 0x160038
/-- NOI_BUSYCNT (RO): BUSY replies sent, 32-bit saturating. -/
abbrev NOI_BUSYCNT : Nat := 0x16003c
/-- NOI_DROPCNT (RO): Messages dropped under R267, R268, R269 and R272, 32-bit saturating. -/
abbrev NOI_DROPCNT : Nat := 0x160040
/-! ### ETH registers (10_network_ports_and_runnels.md) -/

/-- ETH_CTL (RW): Bit 0 EN; bit 1 ANEN; bit 2 MSEC; bits 7:4 FMODE, a MODE of R296; bit 8 LOOP, PCS loopback, TEST mode only. -/
abbrev ETH_CTL (p : Nat) : Nat := 0x50000 + 0x10000 * p
/-- ETH_STS (RO): Bit 0 LINK; bits 4:1 MODE; bits 6:5 FEC: 0 none, 1 BASE-R, 2 RS(528,514), 3 RS(544,514); bit 7 ANDONE; bit 8 FAILED; bit 9 holds its own addresses; bit 10 holds the other port's addresses. -/
abbrev ETH_STS (p : Nat) : Nat := 0x50004 + 0x10000 * p
/-- ETH_EVT (W1C): Bit 0 LINKUP, 1 LINKDN, 2 FALLBK, 3 FOVER, 4 FBACK, 5 BOTHDN, 6 MSPN, 7 MSEXH, 8 TSOVF, 9 PTPERR, 10 ETSERR, 11 FWRX. -/
abbrev ETH_EVT (p : Nat) : Nat := 0x50008 + 0x10000 * p
/-- ETH_IEN (RW): Interrupt enables, bit for bit as ETH_EVT. -/
abbrev ETH_IEN (p : Nat) : Nat := 0x5000c + 0x10000 * p
/-- ETH_ANADV (RW): Bit n: ability of MODE n + 1, for n = 0 to 8; bit 12 request Clause 108 RS-FEC; bit 13 request Clause 74 FEC. -/
abbrev ETH_ANADV (p : Nat) : Nat := 0x50010 + 0x10000 * p
/-- ETH_ANEFF (RO): Effective advertisement under R298. -/
abbrev ETH_ANEFF (p : Nat) : Nat := 0x50014 + 0x10000 * p
/-- ETH_ANLP (RO): Link partner's abilities, as ETH_ANADV. -/
abbrev ETH_ANLP (p : Nat) : Nat := 0x50018 + 0x10000 * p
/-- ETH_MAXFR (RW): Bits 13:0 largest frame, 1,518–9,600 bytes. -/
abbrev ETH_MAXFR (p : Nat) : Nat := 0x5001c + 0x10000 * p
/-- ETH_MACADDR (RO): 64 bits; bits 47:0 MAC address. -/
abbrev ETH_MACADDR (p : Nat) : Nat := 0x50020 + 0x10000 * p
/-- ETH_VLAN (RW): Bits 11:0 VID; 0 untagged. -/
abbrev ETH_VLAN (p : Nat) : Nat := 0x50028 + 0x10000 * p
/-- ETH_PRIOMAP (RW): TC of priority p at bits 3p + 2:3p. -/
abbrev ETH_PRIOMAP (p : Nat) : Nat := 0x5002c + 0x10000 * p
/-- ETH_PFC (RW): Bits 7:0 EN, one bit per priority; bits 23:8 QUANTA. -/
abbrev ETH_PFC (p : Nat) : Nat := 0x50030 + 0x10000 * p
/-- ETH_ETS0 (RW): Percent of TC 0–3, one byte each from bits 7:0. -/
abbrev ETH_ETS0 (p : Nat) : Nat := 0x50034 + 0x10000 * p
/-- ETH_ETS1 (RW): Percent of TC 4–7, as ETH_ETS0. -/
abbrev ETH_ETS1 (p : Nat) : Nat := 0x50038 + 0x10000 * p
/-- ETH_TSA (RW): Bits 7:0: TC n served by strict priority. -/
abbrev ETH_TSA (p : Nat) : Nat := 0x5003c + 0x10000 * p
/-- ETH_FOCFG (RW): Bits 5:0 LOSDLY, 10 µs, 1–35; bit 8 AUTOBACK; bits 23:16 HOLD, s, 1–255. -/
abbrev ETH_FOCFG (p : Nat) : Nat := 0x50040 + 0x10000 * p
/-- ETH_FOCTL (WO): Bit 0 MOVE; bit 1 BACK. -/
abbrev ETH_FOCTL (p : Nat) : Nat := 0x50044 + 0x10000 * p
/-- ETH_RXCNT (RO): Frames received, wraps at 2^32. -/
abbrev ETH_RXCNT (p : Nat) : Nat := 0x50050 + 0x10000 * p
/-- ETH_TXCNT (RO): Frames sent, wraps at 2^32. -/
abbrev ETH_TXCNT (p : Nat) : Nat := 0x50054 + 0x10000 * p
/-- ETH_RXBAD (RO): Frames discarded under R300, 32-bit saturating. -/
abbrev ETH_RXBAD (p : Nat) : Nat := 0x50058 + 0x10000 * p
/-- ETH_RXUNK (RO): Frames dropped under R303, 32-bit saturating. -/
abbrev ETH_RXUNK (p : Nat) : Nat := 0x5005c + 0x10000 * p
/-- ETH_FECCOR (RO): FEC codewords corrected, 32-bit saturating. -/
abbrev ETH_FECCOR (p : Nat) : Nat := 0x50060 + 0x10000 * p
/-- ETH_FECUNC (RO): FEC codewords uncorrectable, 32-bit saturating. -/
abbrev ETH_FECUNC (p : Nat) : Nat := 0x50064 + 0x10000 * p
/-- ETH_PAUSECNT (RO): PAUSE frames discarded, 32-bit saturating. -/
abbrev ETH_PAUSECNT (p : Nat) : Nat := 0x50068 + 0x10000 * p
/-- ETH_TXBAD (RO): Transmit header checks failed under R324, 32-bit saturating. -/
abbrev ETH_TXBAD (p : Nat) : Nat := 0x5006c + 0x10000 * p
/-- ETH_FWRXQ (RO): Bits 16:0 Cistern buffer; bit 31 VALID. A read pops the entry.. -/
abbrev ETH_FWRXQ (p : Nat) : Nat := 0x50070 + 0x10000 * p
/-- ETH_FWTX (WO): Bits 16:0 Cistern buffer; bits 22:20 TC. A write sends the frame.. -/
abbrev ETH_FWTX (p : Nat) : Nat := 0x50074 + 0x10000 * p
/-- ETH_MSCTL (RW): Bits 1:0 SUITE: 0 GCM-AES-128, 1 GCM-AES-256, 2 GCM-AES-XPN-128, 3 GCM-AES-XPN-256; bits 3:2 COFF: 0 none, 1 30 bytes, 2 50 bytes; bits 5:4 TXAN. -/
abbrev ETH_MSCTL (p : Nat) : Nat := 0x50100 + 0x10000 * p
/-- ETH_MSBASE (RW): Bits 28:5 SRAM offset of the SA table. -/
abbrev ETH_MSBASE (p : Nat) : Nat := 0x50104 + 0x10000 * p
/-- ETH_MSLOAD (WO): Bits 8:0 SA entry to take into use. -/
abbrev ETH_MSLOAD (p : Nat) : Nat := 0x50108 + 0x10000 * p
/-- ETH_MSREPLAY (RW): Replay window, frames. -/
abbrev ETH_MSREPLAY (p : Nat) : Nat := 0x5010c + 0x10000 * p
/-- ETH_MSPNTHR (RW): 64 bits; PN threshold of R312. -/
abbrev ETH_MSPNTHR (p : Nat) : Nat := 0x50110 + 0x10000 * p
/-- ETH_MSTXPN (RW): 64 bits; next PN of the transmit SA named by TXAN. -/
abbrev ETH_MSTXPN (p : Nat) : Nat := 0x50118 + 0x10000 * p
/-- ETH_MSNOTAG (RO): Under R313, 32-bit saturating. -/
abbrev ETH_MSNOTAG (p : Nat) : Nat := 0x50120 + 0x10000 * p
/-- ETH_MSNOSA (RO): Under R313, 32-bit saturating. -/
abbrev ETH_MSNOSA (p : Nat) : Nat := 0x50124 + 0x10000 * p
/-- ETH_MSLATE (RO): Under R313, 32-bit saturating. -/
abbrev ETH_MSLATE (p : Nat) : Nat := 0x50128 + 0x10000 * p
/-- ETH_MSBADICV (RO): Under R313, 32-bit saturating. -/
abbrev ETH_MSBADICV (p : Nat) : Nat := 0x5012c + 0x10000 * p
/-- ETH_PTPTIME (RO): 64 bits; PTP time, ns. -/
abbrev ETH_PTPTIME : Nat := 0x50400
/-- ETH_PTPADJ (RW): I32 frequency offset, 2^−16 ppm, ±500 ppm. -/
abbrev ETH_PTPADJ : Nat := 0x50408
/-- ETH_PTPSTEP (WO): 64 bits; I64 step, ns. -/
abbrev ETH_PTPSTEP : Nat := 0x50410
/-- ETH_PTPSTS (RW): Bit 0 SYNCD, written by firmware when the time is disciplined. -/
abbrev ETH_PTPSTS : Nat := 0x50418
/-- ETH_TXTSID (RO): Bits 7:0 TSID; bit 8 port; bit 31 VALID. A read pops the FIFO and latches ETH_TXTS.. -/
abbrev ETH_TXTSID : Nat := 0x50420
/-- ETH_TXTS (RO): 64 bits; egress timestamp latched by ETH_TXTSID. -/
abbrev ETH_TXTS : Nat := 0x50428
/-- RUN_EVT (W1C): Bit r: Runnel r flushed under R324. -/
abbrev RUN_EVT : Nat := 0x40000
/-- RUN_IEN (RW): Interrupt enables, bit for bit as RUN_EVT. -/
abbrev RUN_IEN : Nat := 0x40004
/-- RUN_OVFEVT (W1C): Bit r: Runnel r dropped a frame when full. -/
abbrev RUN_OVFEVT : Nat := 0x40008
/-- RUN_OVFIEN (RW): Interrupt enables, bit for bit as RUN_OVFEVT. -/
abbrev RUN_OVFIEN : Nat := 0x4000c
/-- RUN_WPTR (RO): Bits 14:0 write pointer. -/
abbrev RUN_WPTR (r : Nat) : Nat := 0x40100 + 0x20 * r
/-- RUN_RPTR (RO): Bits 14:0 read pointer. -/
abbrev RUN_RPTR (r : Nat) : Nat := 0x40104 + 0x20 * r
/-- RUN_OCC (RO): Bits 14:0 occupancy; bits 30:16 peak since power-on. -/
abbrev RUN_OCC (r : Nat) : Nat := 0x40108 + 0x20 * r
/-- RUN_XTH (RW): Receive Runnels only: bits 14:0 XOFF and bits 30:16 XON, in free entries. -/
abbrev RUN_XTH (r : Nat) : Nat := 0x4010c + 0x20 * r
/-- RUN_CMD (WO): Bit 0 DROP; bit 1 FLUSH; under R325. -/
abbrev RUN_CMD (r : Nat) : Nat := 0x40110 + 0x20 * r
/-- RUN_OVF (RO): Frames dropped when full, 32-bit saturating. -/
abbrev RUN_OVF (r : Nat) : Nat := 0x40114 + 0x20 * r
/-- RUN_DRCNT (RO): Packets discarded by DROP or by a failover flush, 32-bit saturating. -/
abbrev RUN_DRCNT (r : Nat) : Nat := 0x40118 + 0x20 * r
/-- RUN_RSYNC (RO): Flushes under R324, 32-bit saturating. -/
abbrev RUN_RSYNC (r : Nat) : Nat := 0x4011c + 0x20 * r
/-! ### CIS registers (11_cistern.md) -/

/-- CIS_CTL (RW): Bits 12:0 HYST, in buffers, 64–4,096; a write outside the range is ignored. -/
abbrev CIS_CTL : Nat := 0x30000
/-- CIS_STS (RO): Bit 0 READY under R328; bits 4:1 W1 to W4 in effect. -/
abbrev CIS_STS : Nat := 0x30004
/-- CIS_EVT (W1C): Bit 0 W1, 1 W2, 2 W3, 3 W4, 4 EMPTY, 5 ERR, 6 ERROVF, 7 TAGWR. -/
abbrev CIS_EVT : Nat := 0x30008
/-- CIS_IEN (RW): Interrupt enables, bit for bit as CIS_EVT. -/
abbrev CIS_IEN : Nat := 0x3000c
/-- CIS_FREECNT (RO): Bits 16:0 free buffers. -/
abbrev CIS_FREECNT : Nat := 0x30010
/-- CIS_MINFREE (RW): Bits 16:0 least free count since the last write; a write of any value sets it to the present CIS_FREECNT. -/
abbrev CIS_MINFREE : Nat := 0x30014
/-- CIS_SPECCNT (RO): Bits 16:0 buffers with SPEC set. -/
abbrev CIS_SPECCNT : Nat := 0x30018
/-- CIS_W1–CIS_W4 (RO): Bits 16:0 threshold level of R336, at 0x020 + 4 × (n − 1). -/
abbrev CIS_W (i : Nat) : Nat := 0x30020 + 4 * i
/-- CIS_ALLOC (RO): Read allocates under R339: bits 28:0 SRAM offset; bits 30:29 RESULT: 0 OK, 1 EMPTY, 2 FLOOR, 3 INIT. -/
abbrev CIS_ALLOC : Nat := 0x30030
/-- CIS_ALLOCR (RO): As CIS_ALLOC, admitted while W4 is in effect. -/
abbrev CIS_ALLOCR : Nat := 0x30034
/-- CIS_FREE (WO): Bits 28:0 SRAM offset of the buffer to free. -/
abbrev CIS_FREE : Nat := 0x30038
/-- CIS_GIVE (WO): 64 bits; bits 28:0 SRAM offset; bits 39:32 new owner ID. -/
abbrev CIS_GIVE : Nat := 0x30040
/-- CIS_OPSTS (RO): Bits 2:0 check code of R334 for the last core free or give, 0 for OK. -/
abbrev CIS_OPSTS : Nat := 0x30048
/-- CIS_ERRLOG (RO): 64 bits; a read pops under R335: bits 16:0 buffer index, 0x1_FFFF for a core offset out of range; bits 34:32 check code; bits 47:40 requester; bits 55:48 owner; bit 63 VALID. -/
abbrev CIS_ERRLOG : Nat := 0x30050
/-- CIS_ERROVF (RO): Rejections not logged, 32-bit saturating. -/
abbrev CIS_ERROVF : Nat := 0x30058
/-- CIS_ERRCNT (RO): Rejected gives and frees, 32-bit saturating. -/
abbrev CIS_ERRCNT : Nat := 0x3005c
/-- CIS_EMPTYCNT (RO): EMPTY and FLOOR results under R332, 32-bit saturating. -/
abbrev CIS_EMPTYCNT : Nat := 0x30060
/-- CIS_RXDROP (RO): Packets discarded for want of a buffer, 32-bit saturating. -/
abbrev CIS_RXDROP : Nat := 0x30064
/-- CIS_OWNCNT1–CIS_OWNCNT7 (RO): At 0x080 + 4 × (n − 1): bits 16:0 buffers held by owner n. -/
abbrev CIS_OWNCNT (i : Nat) : Nat := 0x30080 + 4 * i
/-! ### ECC registers (12_sram_ecc_and_caches.md) -/

/-- ECC_CTL (RW): Bit 0 SCRUBEN; bit 1 CEWB. -/
abbrev ECC_CTL : Nat := 0x10000
/-- ECC_STS (RO): Bit 0 FILLDONE; bits 7:4 CHFAIL, one bit per channel; bit 8 scrubber running. -/
abbrev ECC_STS : Nat := 0x10004
/-- ECC_EVT (W1C): Bit 0 CE, 1 UE, 2 POISON, 3 RMWUE, 4 LOGFULL, 5 SCRUBLATE, 6 FILLERR. -/
abbrev ECC_EVT : Nat := 0x10008
/-- ECC_IEN (RW): Interrupt enables, bit for bit as ECC_EVT. -/
abbrev ECC_IEN : Nat := 0x1000c
/-- ECC_CECNT (RO): Corrections, 32-bit saturating. -/
abbrev ECC_CECNT : Nat := 0x10010
/-- ECC_CEOVF (RO): Corrections at offsets not logged, 32-bit saturating. -/
abbrev ECC_CEOVF : Nat := 0x10014
/-- ECC_UECNT (RO): Words found UE, 32-bit saturating. -/
abbrev ECC_UECNT : Nat := 0x10018
/-- ECC_PSNCNT (RO): Reads and narrow writes that found POISON, 32-bit saturating. -/
abbrev ECC_PSNCNT : Nat := 0x1001c
/-- ECC_UEADDR (RO): Last UE or POISON: bits 28:3 SRAM offset; bit 29 kind, 0 UE, 1 POISON; bit 31 VALID. -/
abbrev ECC_UEADDR : Nat := 0x10020
/-- ECC_UESRC (RO): Bits 7:0 requester of the last UE or POISON: 0x00–0x05 cores 0–5, 0x10 scrubber, otherwise the owner ID of R330 + 0x20. -/
abbrev ECC_UESRC : Nat := 0x10024
/-- ECC_FILLTIME (RO): Bits 13:0 fill duration, µs. -/
abbrev ECC_FILLTIME : Nat := 0x10028
/-- ECC_FILLERR (RO): Words not CLEAN at fill read-back, 32-bit saturating. -/
abbrev ECC_FILLERR : Nat := 0x1002c
/-- ECC_SCRUB_LAP (RO): Duration of the last complete lap, µs. -/
abbrev ECC_SCRUB_LAP : Nat := 0x10030
/-- ECC_SCRUB_LIM (RW): Lap alarm limit, µs, 10,000 and above. -/
abbrev ECC_SCRUB_LIM : Nat := 0x10034
/-- ECC_SCRUB_POS (RO): Bits 28:3 next offset to scrub. -/
abbrev ECC_SCRUB_POS : Nat := 0x10038
/-- ECC_SCRUB_LAPS (RO): Laps completed, wraps at 2^32. -/
abbrev ECC_SCRUB_LAPS : Nat := 0x1003c
/-- ECC_INJ (RW): 64 bits; TEST only: bits 28:3 offset; bits 39:32 check-bit flip mask; bits 45:40 data bit; bit 46 flip that data bit; bit 63 GO, reads 1 until used. -/
abbrev ECC_INJ : Nat := 0x10040
/-- ECC_CELCLR (WO): Bit 0: invalidate the log under R349. -/
abbrev ECC_CELCLR : Nat := 0x10048
/-- ECC_CELOG0–ECC_CELOG31 (RO): At 0x100 + 8 × n, 64 bits: bits 28:3 offset; bits 47:32 count; bits 55:48 last syndrome; bit 63 VALID. -/
abbrev ECC_CELOG (i : Nat) : Nat := 0x10100 + 8 * i
/-- CCH_CTL (RW): Bit 0 L2EN; bit 1 BASINEN; bits 13:8 L1IEN, one bit per core; bits 21:16 L1DEN, one bit per core. -/
abbrev CCH_CTL : Nat := 0x20000
/-- CCH_STS (RO): Bit 0 DRAIN; bit 1 INIT; bit 2 L2ON; bit 3 BASINON; bits 11:8 write-back buffer entries. -/
abbrev CCH_STS : Nat := 0x20004
/-- CCH_EVT (W1C): Bit 0 DRAINDONE, 1 L2CE, 2 L2UE, 3 L1PAR, 4 WDOG, 5 NCBUSY. -/
abbrev CCH_EVT : Nat := 0x20008
/-- CCH_IEN (RW): Interrupt enables, bit for bit as CCH_EVT. -/
abbrev CCH_IEN : Nat := 0x2000c
/-- CCH_L2CECNT (RO): L2 and Basin corrections, 32-bit saturating. -/
abbrev CCH_L2CECNT : Nat := 0x20010
/-- CCH_L2UECNT (RO): L2 and Basin uncorrectable errors, 32-bit saturating. -/
abbrev CCH_L2UECNT : Nat := 0x20014
/-- CCH_L1PCNT (RO): L1 parity errors, 32-bit saturating. -/
abbrev CCH_L1PCNT : Nat := 0x20018
/-- CCH_BASINHIT (RO): Lines recalled under R359, wraps at 2^32. -/
abbrev CCH_BASINHIT : Nat := 0x2001c
/-- CCH_NCBASE0–CCH_NCBASE3 (RW): At 0x020 + 8 × n: bits 28:12 window base, SRAM offset. -/
abbrev CCH_NCBASE (i : Nat) : Nat := 0x20020 + 8 * i
/-- CCH_NCSIZE0–CCH_NCSIZE3 (RW): At 0x024 + 8 × n: bits 28:12 window size; 0 off. -/
abbrev CCH_NCSIZE (i : Nat) : Nat := 0x20024 + 8 * i
/-- CCH_RSTVEC (RWL): Bits 31:2 restart address under R363. -/
abbrev CCH_RSTVEC : Nat := 0x20040
/-- CCH_WDCTL (RW): Bits 5:0 EN, one bit per core; bit 8 SCOPE, 0 core, 1 cluster; bits 31:16 TMO, ms, 1–65,535. -/
abbrev CCH_WDCTL : Nat := 0x20044
/-- CCH_WDKICK (WO): Bit 0: write 1 to restart the writing core's count. -/
abbrev CCH_WDKICK : Nat := 0x20048
/-- CCH_WDSTS (RO): Bits 5:0 cores held at the last expiry; bit 8 SCOPE then in effect. -/
abbrev CCH_WDSTS : Nat := 0x2004c
/-- CCH_WDCNT (RO): Watchdog expiries, 32-bit saturating. -/
abbrev CCH_WDCNT : Nat := 0x20050
/-- CCH_LOAD0–CCH_LOAD5 (RO): At 0x060 + 4 × n: bits 7:0 load of core n, percent. -/
abbrev CCH_LOAD (i : Nat) : Nat := 0x20060 + 4 * i
/-- CCH_LOADALL (RO): Bits 7:0 mean load of the six cores, percent. -/
abbrev CCH_LOADALL : Nat := 0x20078
/-! ### CPH registers (13_cipher_lattice.md) -/

/-- CPH_CTL (RW): See its field table. -/
abbrev CPH_CTL : Nat := 0x80000
/-- CPH_STS (RO): Bit 0 READY, self-test done and DRBG instantiated; bits 13:8 clusters in use; bit 16 ENTOK; bit 17 NJREADY, journal scan ended. -/
abbrev CPH_STS : Nat := 0x80004
/-- CPH_EVT (W1C): Bit 0 KDONE, 1 KERR, 2 CNTWARN, 3 EXHAUST, 4 ENTFAIL, 5 JWAIT, 6 JFAIL, 7 KATFAIL, 8 TAGFAIL, 9 FWCMP. -/
abbrev CPH_EVT : Nat := 0x80008
/-- CPH_IEN (RW): Interrupt enables, bit for bit as CPH_EVT. -/
abbrev CPH_IEN : Nat := 0x8000c
/-- CPH_CLOK (RO): 64 bits; bits 39:0, bit n: cluster n passed R393. -/
abbrev CPH_CLOK : Nat := 0x80010
/-- CPH_KMBASE (RWL): Bits 28:1 SRAM offset of the key map under R371. -/
abbrev CPH_KMBASE : Nat := 0x80018
/-- CPH_KNS1 (RW): Bits 11:0 key slot of NSID 1. -/
abbrev CPH_KNS1 : Nat := 0x8001c
/-- CPH_KSEL (RW): Bits 11:0 slot; bits 17:16 USE: 0 AT-REST, 1 MACSEC, 2 SESSION, 3 GENERAL; bit 20 LEN: 0 128-bit, 1 256-bit. -/
abbrev CPH_KSEL : Nat := 0x80040
/-- CPH_KFIX (RW): Fixed field for the next LOAD of an AT-REST slot. -/
abbrev CPH_KFIX : Nat := 0x80044
/-- CPH_KCMD (WO): Bits 2:0 OP: 1 LOAD, 2 DESTROY, 3 RETIRE, acting on the slot in CPH_KSEL. -/
abbrev CPH_KCMD : Nat := 0x80048
/-- CPH_KSTS (RO): Bit 0 BUSY; bits 3:1 RESULT, 0 OK or a code of R382. -/
abbrev CPH_KSTS : Nat := 0x8004c
/-- CPH_KDATA0–CPH_KDATA7 (WOK): Key word n at 0x050 + 4 × n. -/
abbrev CPH_KDATA (i : Nat) : Nat := 0x80050 + 4 * i
/-- CPH_KINFO (RO): Slot in CPH_KSEL: bits 23:0 key check value; bit 24 LOADED; bits 26:25 USE; bit 27 LEN; bit 28 EXH; bit 29 WARN. -/
abbrev CPH_KINFO : Nat := 0x80070
/-- CPH_KCNT (RO): 64 bits; bits 47:0 next counter of the slot in CPH_KSEL. -/
abbrev CPH_KCNT : Nat := 0x80078
/-- CPH_RNG (RO): 64 bits; DRBG output under R379. -/
abbrev CPH_RNG : Nat := 0x80080
/-- CPH_RNGSTS (RO): Bit 0 VALID of the last CPH_RNG read; bit 1 DRBG instantiated; bit 2 DRBG error state. -/
abbrev CPH_RNGSTS : Nat := 0x80088
/-- CPH_ENTFCNT (RO): Health-test failures, 32-bit saturating. -/
abbrev CPH_ENTFCNT : Nat := 0x8008c
/-- CPH_MRSCNT (RO): Mask-generator reseeds, wraps at 2^32. -/
abbrev CPH_MRSCNT : Nat := 0x80090
/-- CPH_NJBASE (RWL): Bits 28:21 NAND offset of the nonce journal. -/
abbrev CPH_NJBASE : Nat := 0x800a0
/-- CPH_NJSTS (RO): Bit 0 SCANBUSY; bit 1 active half; bit 2 COMPACT; bits 31:15 records used in the active half. -/
abbrev CPH_NJSTS : Nat := 0x800a4
/-- CPH_NJPAIRS (RO): Bits 13:0 pairs held, 0–8,192. -/
abbrev CPH_NJPAIRS : Nat := 0x800a8
/-- CPH_NJWCNT (RO): Invocations that waited under R387, 32-bit saturating. -/
abbrev CPH_NJWCNT : Nat := 0x800ac
/-- CPH_NJFAIL (RO): Failed record programs, 32-bit saturating. -/
abbrev CPH_NJFAIL : Nat := 0x800b0
/-- CPH_FWQ (WO): 64 bits; bits 28:6 descriptor offset. A write posts the job.. -/
abbrev CPH_FWQ : Nat := 0x800c0
/-- CPH_FWSTS (RO): Bits 2:0 status of the last post: 0 OK, 1 FULL, 2 BADALIGN. -/
abbrev CPH_FWSTS : Nat := 0x800c8
/-- CPH_FWCQ (RO): Bits 28:6 oldest completed firmware job; bit 31 VALID. A read pops it.. -/
abbrev CPH_FWCQ : Nat := 0x800cc
/-- CPH_INVCNT (RO): Invocations completed, wraps at 2^32. -/
abbrev CPH_INVCNT : Nat := 0x800e0
/-- CPH_TAGFAIL (RO): Sector and GCM tag failures, 32-bit saturating. -/
abbrev CPH_TAGFAIL : Nat := 0x800e4
/-- CPH_CRCFAIL (RO): CRC-64 failures under R373, 32-bit saturating. -/
abbrev CPH_CRCFAIL : Nat := 0x800e8
/-! ### SEC registers (14_trust_and_sluice.md) -/

/-- SEC_STS (RO): Bit 0 BOOTOK; bits 2:1 SLOT, 1 A or 2 B; bit 3 FALLBK; bit 4 NOFW; bit 5 LIMOK; bit 6 UCOK; bit 7 DEFOK; bit 8 NOID; bits 13:12 key that verified the firmware. -/
abbrev SEC_STS : Nat := 0x170000
/-- SEC_LOCK (RW): Bit 0: write 1 to lock every RWL register outside SLU; cleared only by power-on reset; a write of 0 is ignored. -/
abbrev SEC_LOCK : Nat := 0x170004
/-- SEC_EVT (W1C): Bit 0 VDONE, 1 SGDONE, 2 OTPDONE, 3 OTPERR. -/
abbrev SEC_EVT : Nat := 0x170008
/-- SEC_IEN (RW): Interrupt enables, bit for bit as SEC_EVT. -/
abbrev SEC_IEN : Nat := 0x17000c
/-- SEC_FWVER (RO): VERSION of the running firmware. -/
abbrev SEC_FWVER : Nat := 0x170010
/-- SEC_FWSVN (RO): Bits 6:0 SVN of the running firmware. -/
abbrev SEC_FWSVN : Nat := 0x170014
/-- SEC_ARB (RO): Bits 6:0 ARB value. -/
abbrev SEC_ARB : Nat := 0x170018
/-- SEC_ARBADV (WO): Bits 6:0 target value under R403. -/
abbrev SEC_ARBADV : Nat := 0x17001c
/-- SEC_OTPST (RO): Bits 3:0 REVOKE; bits 7:4 KEYHASH programmed; bits 11:8 valid keys under R396. -/
abbrev SEC_OTPST : Nat := 0x170020
/-- SEC_REVCMD (WO): Bits 1:0 key; bit 31 GO. -/
abbrev SEC_REVCMD : Nat := 0x170024
/-- SEC_OTPRES (RO): Bits 2:0 last OTP result: 0 OK, 1 RANGE, 2 RUNKEY, 3 LASTKEY, 4 NOTEMPTY, 5 OTPFAIL; bit 31 BUSY. -/
abbrev SEC_OTPRES : Nat := 0x170028
/-- SEC_KHPROG (WO): Bits 1:0 KEYHASH slot 1–3; bit 31 GO. -/
abbrev SEC_KHPROG : Nat := 0x170030
/-- SEC_KHDATA0–SEC_KHDATA7 (WO): Hash word n at 0x040 + 4 × n, byte 0 in bits 7:0. -/
abbrev SEC_KHDATA (i : Nat) : Nat := 0x170040 + 4 * i
/-- SEC_VSRC (RW): Bits 28:0 SRAM offset of the image to verify. -/
abbrev SEC_VSRC : Nat := 0x170060
/-- SEC_VCMD (WO): Bit 0 GO. -/
abbrev SEC_VCMD : Nat := 0x170064
/-- SEC_VSTS (RO): Bit 0 BUSY; bits 3:1 RESULT: 0 OK, 1 SIG, 2 HDR, 3 SVN; bits 5:4 key; bits 14:8 image SVN. -/
abbrev SEC_VSTS : Nat := 0x170068
/-- SEC_SGSRC (RW): Bits 28:6 SRAM offset of the digest; the signature goes to offset + 64. -/
abbrev SEC_SGSRC : Nat := 0x170070
/-- SEC_SGCMD (WO): Bit 0 GO. -/
abbrev SEC_SGCMD : Nat := 0x170074
/-- SEC_SGSTS (RO): Bit 0 BUSY; bits 2:1 RESULT: 0 OK, 1 NOKEY. -/
abbrev SEC_SGSTS : Nat := 0x170078
/-- SEC_BOOTTIME (RO): Duration of the last BOOT, µs. -/
abbrev SEC_BOOTTIME : Nat := 0x170080
/-- SLU_STS (RO): Bit 0 working shock; bit 1 hard shock; bit 2 supply good; bit 3 overspeed; bits 15:8 write gate latched low, slots A0–B3; bits 23:16 assist latched low. -/
abbrev SLU_STS : Nat := 0x100000
/-- SLU_LOCK (RO): Bit 0: set by hardware under R409; cleared only by power-on reset. -/
abbrev SLU_LOCK : Nat := 0x100004
/-- SLU_EVT (W1C): Bit 0 INH, 1 SHOCK, 2 SUPPLY, 3 PFLT, 4 TGT, 5 DUTY, 6 AOVER, 7 OSPD, 8 LOOSEN, 9 SRC, 10 CLAMP. -/
abbrev SLU_EVT : Nat := 0x100008
/-- SLU_IEN (RW): Interrupt enables, bit for bit as SLU_EVT. -/
abbrev SLU_IEN : Nat := 0x10000c
/-- SLU_WGUARD (RW): Bits 1:0 requested write guard mode of R116; a write of 3 is ignored. -/
abbrev SLU_WGUARD : Nat := 0x100010
/-- SLU_PESLIM (RW): Bits 7:0 write-inhibit limit, percent of PITCH, 5–29, at most SLU_PESHARD; object 0x2202:00. -/
abbrev SLU_PESLIM : Nat := 0x100014
/-- SLU_PESHARD (RW): Bits 7:0 hard limit, percent. -/
abbrev SLU_PESHARD : Nat := 0x100018
/-- SLU_SHKLIM (RW): Bits 15:0 linear, 1/1,024 g; bits 31:16 angular, rad/s²; each at most its SLU_SHKHARD field. -/
abbrev SLU_SHKLIM : Nat := 0x10001c
/-- SLU_SHKHARD (RW): As SLU_SHKLIM. -/
abbrev SLU_SHKHARD : Nat := 0x100020
/-- SLU_SHKHOLD (RW): Bits 15:0 clear time of R413, µs, 10–65,535. -/
abbrev SLU_SHKHOLD : Nat := 0x100024
/-- SLU_VCMMAX0 (RW): fp32 VCM current limit of actuator A, A. -/
abbrev SLU_VCMMAX0 : Nat := 0x100028
/-- SLU_VCMMAX1 (RW): As SLU_VCMMAX0, for actuator B. -/
abbrev SLU_VCMMAX1 : Nat := 0x10002c
/-- SLU_MAVMAX (RW): fp32 milliactuator voltage limit, V. -/
abbrev SLU_MAVMAX : Nat := 0x100030
/-- SLU_SPNMAX (RW): Bits 13:0 spindle speed limit, rpm. -/
abbrev SLU_SPNMAX : Nat := 0x100034
/-- SLU_TXCAP0 (RW): Transmit cap of port 0, Mbit/s. -/
abbrev SLU_TXCAP0 : Nat := 0x100038
/-- SLU_TXCAP1 (RW): Transmit cap of port 1, Mbit/s. -/
abbrev SLU_TXCAP1 : Nat := 0x10003c
/-- SLU_AMONMG (RW): Bits 7:0 assist monitor margin, percent. -/
abbrev SLU_AMONMG : Nat := 0x100040
/-- SLU_INHCNT (RO): Outputs latched low, 32-bit saturating. -/
abbrev SLU_INHCNT : Nat := 0x100044
/-- SLU_CLAMPCNT (RO): Clamped samples, 32-bit saturating. -/
abbrev SLU_CLAMPCNT : Nat := 0x100048
/-- SLU_SRCDROP0 (RO): Port 0 frames dropped under R418, 32-bit saturating. -/
abbrev SLU_SRCDROP0 : Nat := 0x10004c
/-- SLU_SRCDROP1 (RO): As SLU_SRCDROP0, for port 1. -/
abbrev SLU_SRCDROP1 : Nat := 0x100050
/-- SLU_LOOSENCNT (RO): Writes ignored under R410, 32-bit saturating. -/
abbrev SLU_LOOSENCNT : Nat := 0x100054
/-- SLU_WGSTS0–SLU_WGSTS7 (RO): At 0x100 + 4 × n, slot n as in ANG_QSTS: bit c set while cause c of R411 fails. -/
abbrev SLU_WGSTS (i : Nat) : Nat := 0x100100 + 4 * i
/-- SLU_APMAX0–SLU_APMAX23 (RW): At 0x180 + 4 × n: bits 15:0 assist code limit; heads 0–11 of actuator A are n = 0–11, those of B are n = 12–23. -/
abbrev SLU_APMAX (i : Nat) : Nat := 0x100180 + 4 * i
/-- SLU_DBCAP0–SLU_DBCAP23 (RW): At 0x200 + 4 × n: bucket capacity, full-power ms. -/
abbrev SLU_DBCAP (i : Nat) : Nat := 0x100200 + 4 * i
/-- SLU_DBRF0–SLU_DBRF23 (RW): At 0x280 + 4 × n: bits 15:0 refill fraction, 2^−16. -/
abbrev SLU_DBRF (i : Nat) : Nat := 0x100280 + 4 * i
/-! ### SYS registers (15_modes_start_up_and_faults.md) -/

/-- SYS_MODE (RO): Bits 3:0 MODE; bits 11:8 previous mode; bits 19:16 mode to return to from CALIBRATE, TEST or UPDATE. -/
abbrev SYS_MODE : Nat := 0x0
/-- SYS_CTL (RW): Bit 0 SHREQ: write 1 to enter SAFE-HOLD with cause FWREQ; reads 0. -/
abbrev SYS_CTL : Nat := 0x4
/-- SYS_STS (RO): Bit 0 HALF; bit 1 AHOLDA; bit 2 AHOLDB; bit 3 DISA; bit 4 DISB; bit 5 TRANS, a transition is in progress. -/
abbrev SYS_STS : Nat := 0x8
/-- SYS_EVT (W1C): Bit 0 MODE, 1 SHOLD, 2 AHOLD, 3 LANEF, 4 SURVEY, 5 AHERR, 6 MREQDONE. -/
abbrev SYS_EVT : Nat := 0xc
/-- SYS_IEN (RW): Interrupt enables, bit for bit as SYS_EVT. -/
abbrev SYS_IEN : Nat := 0x10
/-- SYS_MREQ (RW): Bits 3:0 REQ; bits 10:8 RES, RO: 0 DONE, 1 PEND, 2 ILLEGAL, 3 NOTREADY, 4 FAILED. -/
abbrev SYS_MREQ : Nat := 0x14
/-- SYS_RSTCAUSE (RO): Bits 2:0 KIND: 0 POWERON, 1 PIN, 2 FULL, 3 SUBSYS, 4 NSSR, 5 POWERLOSS, 6 WATCHDOG; bit 8 a reset restarted FILL. -/
abbrev SYS_RSTCAUSE : Nat := 0x18
/-- SYS_SHCAUSE (RO): Bits 3:0 CAUSE, a code of R440; bit 31 VALID. -/
abbrev SYS_SHCAUSE : Nat := 0x1c
/-- SYS_SHALL (RO): Bit n: SAFE-HOLD cause n seen. -/
abbrev SYS_SHALL : Nat := 0x20
/-- SYS_AHCAUSE (RO): Bits 2:0 cause of actuator A; bits 10:8 cause of actuator B; codes of R439, 0 for none. -/
abbrev SYS_AHCAUSE : Nat := 0x24
/-- SYS_AHCTL (WO): Bit 0 HOLD A; bit 1 HOLD B; bit 8 CLEAR A; bit 9 CLEAR B. -/
abbrev SYS_AHCTL : Nat := 0x28
/-- SYS_LANEFAIL (RO): Bit n: lane of page n (R67) failed. -/
abbrev SYS_LANEFAIL : Nat := 0x2c
/-- SYS_LANECLR (WO): Bit n: return lane n to service under R438. -/
abbrev SYS_LANECLR : Nat := 0x30
/-- SYS_PWRON (RO): Time from power-on reset to the first READY, ms. -/
abbrev SYS_PWRON : Nat := 0x34
/-- SYS_MTIME (RO): 64 bits; PTP time of the last mode change. -/
abbrev SYS_MTIME : Nat := 0x38
/-- SYS_RSTCNT (RO): Resets other than power-on since power-on, 32-bit saturating. -/
abbrev SYS_RSTCNT : Nat := 0x40
/-- SYS_CLKSTS (RO): Bit 0 REFCLK present; bit 1 core clock locked; bit 2 fabric clock locked; bit 3 SRAM clock locked; bit 4 internal oscillator in use. -/
abbrev SYS_CLKSTS : Nat := 0x44
/-- IDN_STS (RO): Bits 1:0 preamp A, bits 3:2 preamp B, bits 5:4 HDA: 0 OK, 1 ABSENT, 2 INVALID, 3 LIMIT; bit 8 BUSY. -/
abbrev IDN_STS : Nat := 0x140000
/-- IDN_EVT (W1C): Bit 0 DONE, 1 PAFAIL, 2 PBFAIL, 3 HDAFAIL, 4 ACDONE. -/
abbrev IDN_EVT : Nat := 0x140004
/-- IDN_IEN (RW): Interrupt enables, bit for bit as IDN_EVT. -/
abbrev IDN_IEN : Nat := 0x140008
/-- IDN_IMBASE (RO): SRAM offset of the survey copies under R426, 80 KiB. -/
abbrev IDN_IMBASE : Nat := 0x14000c
/-- IDN_ACMD (WO): Bits 1:0 target: 0 preamp A, 1 preamp B, 2 HDA; bits 17:2 word address; bit 30 WRITE, accepted only in TEST; bit 31 GO. -/
abbrev IDN_ACMD : Nat := 0x140010
/-- IDN_ADATA (RW): Data word of the last read, or of the next write. -/
abbrev IDN_ADATA : Nat := 0x140014
/-- IDN_ASTS (RO): Bit 0 BUSY; bits 3:1 RESULT: 0 OK, 1 NOACK, 2 RANGE, 3 MODE. -/
abbrev IDN_ASTS : Nat := 0x140018
/-! ### THM registers (16_thermal_and_power.md) -/

/-- THM_CTL (RW): Bits 3:0 FLOOR, under R449. -/
abbrev THM_CTL : Nat := 0x110000
/-- THM_STS (RO): Bit 0 BAD; bit 1 WARN; bit 2 THROT, newest sample above THROT; bit 3 GOV; bits 11:8 STEP. -/
abbrev THM_STS : Nat := 0x110004
/-- THM_EVT (W1C): Bit 0 WARN, 1 THROT, 2 REL (TSTEP fell), 3 HOLD, 4 BAD, 5 BADCLR, 6 STEP, 7 GOV, 8 RANGE. -/
abbrev THM_EVT : Nat := 0x110008
/-- THM_IEN (RW): Interrupt enables, bit for bit as THM_EVT. -/
abbrev THM_IEN : Nat := 0x11000c
/-- THM_TEMP (RO): Bits 15:0 newest sample, signed, 0.125 °C; bit 31 VALID. -/
abbrev THM_TEMP : Nat := 0x110010
/-- THM_TMAX (RW): Bits 15:0 highest sample since the last write; a write of any value sets it to the present THM_TEMP. -/
abbrev THM_TMAX : Nat := 0x110014
/-- THM_THR (RW): Bits 7:0 WARN, 15:8 THROT, 23:16 REL, 31:24 HOLD (RO), each in °C, under R447. -/
abbrev THM_THR : Nat := 0x110018
/-- THM_LADDER (RO): Bits 3:0 STEP; bits 7:4 TSTEP; bits 11:8 GSTEP; bits 15:12 FLOOR. -/
abbrev THM_LADDER : Nat := 0x11001c
/-- THM_CAPS (RO): Bit 0 seek acceleration halved; bit 1 paired read off; bits 7:4 writing slots allowed, 1–8; bits 21:16 clusters allowed; bits 25:24 port rate: 0 full, 1 50,000 Mbit/s, 2 25,000 Mbit/s. -/
abbrev THM_CAPS : Nat := 0x110020
/-- THM_I5 (RO): fp32 5 V input current, 1 ms average, A. -/
abbrev THM_I5 : Nat := 0x110024
/-- THM_I5LIM (RW): fp32 5 V input-current limit, A, 0.5–2.0; a write outside the range is ignored and sets RANGE. -/
abbrev THM_I5LIM : Nat := 0x110028
/-- THM_PIN (RO): fp32 module input power, 1 ms average, W. -/
abbrev THM_PIN : Nat := 0x11002c
/-- THM_STEPCNT (RO): Rises of STEP, 32-bit saturating. -/
abbrev THM_STEPCNT : Nat := 0x110030
/-! ### CAL registers (17_calibration_and_link_test.md) -/

/-- CAL_CMD (WO): Bit 0 GO; bit 1 DEFER. -/
abbrev CAL_CMD : Nat := 0x120000
/-- CAL_STS (RO): Bit 0 BUSY; bits 3:1 PHASE: 0 IDLE, 1 DRAIN, 2 UNLOAD, 3 MEASURE, 4 COMMIT, 5 RETURN; bits 6:4 CMDRES: 0 ACCEPTED, 1 BUSY, 2 MODE, 3 INPROG; bit 8 NOREC; bit 9 RETFAIL. -/
abbrev CAL_STS : Nat := 0x120004
/-- CAL_EVT (W1C): Bit 0 DONE, 1 FAIL, 2 REJECT. -/
abbrev CAL_EVT : Nat := 0x120008
/-- CAL_IEN (RW): Interrupt enables, bit for bit as CAL_EVT. -/
abbrev CAL_IEN : Nat := 0x12000c
/-- CAL_RES (RO): Bits 1:0 RESULT: 0 none, 1 PASS, 2 FAIL; bits 7:4 CODE: 0 none, 1 NOREF, 2 REFRANGE, 3 CHAIN, 4 NVM, 5 ABORT; bits 13:8 failing chains, one bit each. -/
abbrev CAL_RES : Nat := 0x120010
/-- CAL_COUNT (RO): Calibrations completed since power-on, 32-bit saturating. -/
abbrev CAL_COUNT : Nat := 0x120014
/-- CAL_LASTTIME (RO): 64 bits; PTP time of step 6 of R462. -/
abbrev CAL_LASTTIME : Nat := 0x120018
/-- CAL_REF (RO): fp32 last CALREF reading, V. -/
abbrev CAL_REF : Nat := 0x120020
/-- CAL_SEQ (RO): SEQ of the record in effect. -/
abbrev CAL_SEQ : Nat := 0x120024
/-- CAL_GAIN0–CAL_GAIN5 (RO): At 0x040 + 8 × n: fp32 gain of chain n in effect. -/
abbrev CAL_GAIN (i : Nat) : Nat := 0x120040 + 8 * i
/-- CAL_OFS0–CAL_OFS5 (RO): At 0x044 + 8 × n: fp32 offset of chain n in effect. -/
abbrev CAL_OFS (i : Nat) : Nat := 0x120044 + 8 * i
/-- TST_EVT (W1C): Bit n: the test of channel n ended. -/
abbrev TST_EVT : Nat := 0x150000
/-- TST_IEN (RW): Interrupt enables, bit for bit as TST_EVT. -/
abbrev TST_IEN : Nat := 0x150004
/-- TST_CFG (RW): Bits 7:0 TARGET of R466; bits 11:8 PAT of R467; bit 12 CHKONLY, generator off; bit 13 GENONLY, checker off. -/
abbrev TST_CFG (n : Nat) : Nat := 0x150100 + 0x40 * n
/-- TST_CMD (WO): Bit 0 GO; bit 1 STOP. -/
abbrev TST_CMD (n : Nat) : Nat := 0x150104 + 0x40 * n
/-- TST_STS (RO): Bit 0 RUN; bit 1 LOCK; bits 7:4 RESULT: 0 OK, 1 BUSY, 2 MODE, 3 TARGET, 4 PATTERN, 5 INUSE, 6 PREEMPT. -/
abbrev TST_STS (n : Nat) : Nat := 0x150108 + 0x40 * n
/-- TST_DUR (RW): Duration, ms; 0 until STOP. -/
abbrev TST_DUR (n : Nat) : Nat := 0x15010c + 0x40 * n
/-- TST_ERR (RO): Errors under R467, 32-bit saturating. -/
abbrev TST_ERR (n : Nat) : Nat := 0x150110 + 0x40 * n
/-- TST_RATE (RW): Write-lane rate, Mbit/s, 1,000–6,400. -/
abbrev TST_RATE (n : Nat) : Nat := 0x150114 + 0x40 * n
/-- TST_BITS (RO): 64 bits; bits, windows or words checked. -/
abbrev TST_BITS (n : Nat) : Nat := 0x150118 + 0x40 * n
/-- TST_ADDR (RW): SRAM offset, aligned on 64, or NAND offset, aligned on a block. -/
abbrev TST_ADDR (n : Nat) : Nat := 0x150120 + 0x40 * n
/-- TST_LEN (RW): Range length, bytes, a multiple of the alignment. -/
abbrev TST_LEN (n : Nat) : Nat := 0x150124 + 0x40 * n
/-- TST_TONE (RW): Bits 15:0 frequency, 10 kHz; bits 25:16 amplitude, mVpp, 150–800. -/
abbrev TST_TONE (n : Nat) : Nat := 0x150128 + 0x40 * n
/-- TST_FAIL (RO): Offset of the first failing word or block; bit 31 VALID. -/
abbrev TST_FAIL (n : Nat) : Nat := 0x15012c + 0x40 * n
/-! ### EVR registers (18_event_recorder.md) -/

/-- EVR_CTL (RW): Bit 0 PEN, programmable channels enabled; bit 1 MIREN. -/
abbrev EVR_CTL : Nat := 0x130000
/-- EVR_STS (RO): Bit 0 SCANBUSY; bit 1 FULL; bit 2 CLEARING; bit 3 MIRRUN; bit 4 COMMITTING. -/
abbrev EVR_STS : Nat := 0x130004
/-- EVR_EVT (W1C): Bit 0 FULL, 1 STGFULL, 2 CLRDONE, 3 CLRFAIL, 4 MIRFAIL, 5 LOGWR, 6 TORN, 7 NVM. -/
abbrev EVR_EVT : Nat := 0x130008
/-- EVR_IEN (RW): Interrupt enables, bit for bit as EVR_EVT. -/
abbrev EVR_IEN : Nat := 0x13000c
/-- EVR_LOGPOS (RO): Bits 20:0 next free position. -/
abbrev EVR_LOGPOS : Nat := 0x130010
/-- EVR_NEXTSEQ (RO): SEQ of the next record. -/
abbrev EVR_NEXTSEQ : Nat := 0x130014
/-- EVR_STGCNT (RO): Bits 16:0 staged records waiting. -/
abbrev EVR_STGCNT : Nat := 0x130018
/-- EVR_COMMIT (RW): Bits 15:0 AGE, ms, 1–10,000; bits 23:16 BATCH, 1–255. -/
abbrev EVR_COMMIT : Nat := 0x13001c
/-- EVR_STGDROP (RO): Under R474 and R478, 32-bit saturating. -/
abbrev EVR_STGDROP : Nat := 0x130020
/-- EVR_FULLDROP (RO): Under R480, 32-bit saturating. -/
abbrev EVR_FULLDROP : Nat := 0x130024
/-- EVR_TORN (RO): Torn positions under R481, 32-bit saturating. -/
abbrev EVR_TORN : Nat := 0x130028
/-- EVR_SWTRIG (WO): Bits 5:0 channel, under R476. -/
abbrev EVR_SWTRIG : Nat := 0x13002c
/-- EVR_CLRCNT (RO): Clears performed. -/
abbrev EVR_CLRCNT : Nat := 0x130030
/-- EVR_CLRBASE (RWL): Bits 28:7 NAND offset of the clear records, in the journal region. -/
abbrev EVR_CLRBASE : Nat := 0x130034
/-- EVR_CLRSTS (RO): Bits 2:0 last token: 0 OK, 1 SIG, 2 COUNT, 3 IDHASH, 4 BUSY. -/
abbrev EVR_CLRSTS : Nat := 0x130038
/-- EVR_PVFIRST (RWL): Bits 23:0 first conventional track index. -/
abbrev EVR_PVFIRST : Nat := 0x130040
/-- EVR_PVROWS (RWL): Bits 7:0 rows; 0 disables the mirror. -/
abbrev EVR_PVROWS : Nat := 0x130044
/-- EVR_MIRCFG (RW): Bits 15:0 IDLE, ms, 10–65,535. -/
abbrev EVR_MIRCFG : Nat := 0x130048
/-- EVR_MIRPOSA (RO): Records mirrored on actuator A. -/
abbrev EVR_MIRPOSA : Nat := 0x130050
/-- EVR_MIRPOSB (RO): Records mirrored on actuator B. -/
abbrev EVR_MIRPOSB : Nat := 0x130054
/-- EVR_MIRFAIL (RO): Failed mirror sector writes, 32-bit saturating. -/
abbrev EVR_MIRFAIL : Nat := 0x130058
/-- EVR_GGEN (RO): Gauge generation under R489. -/
abbrev EVR_GGEN : Nat := 0x130060
/-- EVR_GCLR (WO): Bits 7:0 gauges to clear. -/
abbrev EVR_GCLR : Nat := 0x130064
/-- EVR_GLO0–EVR_GLO7 (RWL): At 0x080 + 8 × n: I32 LO of gauge n. -/
abbrev EVR_GLO (i : Nat) : Nat := 0x130080 + 8 * i
/-- EVR_GW0–EVR_GW7 (RWL): At 0x084 + 8 × n: U32 WIDTH of gauge n. -/
abbrev EVR_GW (i : Nat) : Nat := 0x130084 + 8 * i
/-- EVR_CHCFGn (RW): Bits 1:0 KIND; bits 20:2 event register offset bits 20:2; bits 25:21 bit number. -/
abbrev EVR_CHCFG (n : Nat) : Nat := 0x131000 + 0x80 * n
/-- EVR_CHCNTn (RO): Records captured, 32-bit saturating. -/
abbrev EVR_CHCNT (n : Nat) : Nat := 0x131004 + 0x80 * n
/-- EVR_CHSUPn (RO): Triggers suppressed under R477, 32-bit saturating. -/
abbrev EVR_CHSUP (n : Nat) : Nat := 0x131008 + 0x80 * n
/-- EVR_CHHOLDn (RW): Bits 15:0 HOLDOFF, µs; bits 31:16 PERIOD, ms, 1–65,535. -/
abbrev EVR_CHHOLD (n : Nat) : Nat := 0x13100c + 0x80 * n
/-- EVR_CHREGn_0–EVR_CHREGn_15 (RW): At +0x40 + 4 × m: bits 20:2 register-space offset from 0x4000_0000; bit 24 WIDE, 64-bit; bit 31 VALID. -/
abbrev EVR_CHREG (n i : Nat) : Nat := 0x131040 + 0x80 * n + 4 * i
/-! ### ZTB archival registers (19_archival_operations.md) -/

/-- ZTB_PTCTL (RW): Bit 0 EN; bits 3:1 RETRY, revolutions, 1–7; bits 15:8 DUTY, percent, 1–100; bits 31:16 IDLE, ms, 10–65,535. The reset value gives EN 0, RETRY 2, DUTY 5% and IDLE 500 ms. A write with RETRY = 0 is ignored.. -/
abbrev ZTB_PTCTL : Nat := 0x180200
/-- ZTB_PTSTS (RO): Bit 0 RUN; bit 1 WAIT, idle or duty not met; bit 2 SKIP; bit 3 LOGOVF. -/
abbrev ZTB_PTSTS : Nat := 0x180204
/-- ZTB_PTPOS (RW): 64 bits; writable while EN = 0: bits 19:0 zone, or bits 23:0 conventional index; bits 47:32 track within the zone; bit 63 CONV. -/
abbrev ZTB_PTPOS : Nat := 0x180208
/-- ZTB_PTCUR (RW): Powered seconds of the lap in progress; writable while EN = 0. -/
abbrev ZTB_PTCUR : Nat := 0x180210
/-- ZTB_PTLAP (RO): Last complete lap, powered seconds. -/
abbrev ZTB_PTLAP : Nat := 0x180214
/-- ZTB_PTLAPS (RO): Laps completed, wraps at 2^32. -/
abbrev ZTB_PTLAPS : Nat := 0x180218
/-- ZTB_PTMARG (RO): MARGINAL sectors, 32-bit saturating. -/
abbrev ZTB_PTMARG : Nat := 0x18021c
/-- ZTB_PTUNR (RO): UNRECOVERED sectors, 32-bit saturating. -/
abbrev ZTB_PTUNR : Nat := 0x180220
/-- ZTB_PTLOG (RO): 64 bits; a read pops under R495: bits 39:0 LBA; bit 40 NSID 2; bits 42:41 class, 1 MARGINAL, 2 UNRECOVERED; bit 63 VALID. -/
abbrev ZTB_PTLOG : Nat := 0x180228
/-- ZTB_AREVT (W1C): Bit 0 LAP, 1 MARG, 2 UNR, 3 RWJRN, 4 RWDONE, 5 RWFAIL. -/
abbrev ZTB_AREVT : Nat := 0x180230
/-- ZTB_AREIEN (RW): Interrupt enables, bit for bit as ZTB_AREVT. -/
abbrev ZTB_AREIEN : Nat := 0x180234
/-- ZTB_RWSRC (RW): Bits 19:0 source zone. -/
abbrev ZTB_RWSRC : Nat := 0x180280
/-- ZTB_RWTGT (RW): Bits 19:0 target zone; bits 31:20 key slot. -/
abbrev ZTB_RWTGT : Nat := 0x180284
/-- ZTB_RWCMD (WO): Bit 0 GO; bit 1 ABORT. -/
abbrev ZTB_RWCMD : Nat := 0x180288
/-- ZTB_RWSTS (RO): Bit 0 BUSY; bits 3:1 PHASE of R498, 5 ABORT; bits 7:4 RESULT of R497 and R500, 0 OK; bits 25:8 OFFSET. -/
abbrev ZTB_RWSTS : Nat := 0x18028c
/-- ZTB_RWACK (WO): Bit 0: the journal record of the present phase is durable. -/
abbrev ZTB_RWACK : Nat := 0x180290
/-- ZTB_RWCNT (RO): Rewraps completed, wraps at 2^32. -/
abbrev ZTB_RWCNT : Nat := 0x180294

end Reg

/-! ## Register rows -/

/-- Access codes of R8. -/
inductive Acc where
  | ro | rw | w1c | wo | wok | rwl
  deriving DecidableEq, Repr

/-- A field range of R544: the field at bit `lo`, `width` bits wide, takes `least` to `most`. -/
structure FieldRange where
  lo : Nat
  width : Nat
  least : Nat
  most : Nat
  deriving DecidableEq, Repr

/-- One row of the register table: the 32-bit words at `base + s1 * i + s2 * j` for `i < n1`
and `j < n2`, with their access code, reset value, writable bits and field ranges. A 64-bit
register is two rows (R7). -/
structure RegRow where
  base : Nat
  s1 : Nat
  n1 : Nat
  s2 : Nat
  n2 : Nat
  acc : Acc
  reset : Nat
  wmask : Nat
  ranges : List FieldRange
  deriving DecidableEq, Repr

/-- The row covers the word at offset `a`. -/
def RegRow.covers (r : RegRow) (a : Nat) : Bool :=
  let d := a - r.base
  let e := d % r.s1
  decide (r.base ≤ a) && decide (d / r.s1 < r.n1) && (e % r.s2 == 0) && decide (e / r.s2 < r.n2)

/-- Rows of SYS. -/
def rowsSYS : List RegRow := [
  ⟨0x0, 0x100000, 1, 4, 1, .ro, 0x0, 0x0, []⟩,
  ⟨0x4, 0x100000, 1, 4, 1, .rw, 0x0, 0x0, []⟩,
  ⟨0x8, 0x100000, 1, 4, 1, .ro, 0x0, 0x0, []⟩,
  ⟨0xc, 0x100000, 1, 4, 1, .w1c, 0x0, 0x7f, []⟩,
  ⟨0x10, 0x100000, 1, 4, 1, .rw, 0x0, 0x7f, []⟩,
  ⟨0x14, 0x100000, 1, 4, 1, .rw, 0x0, 0x0, []⟩,
  ⟨0x18, 0x100000, 1, 4, 1, .ro, 0x0, 0x0, []⟩,
  ⟨0x1c, 0x100000, 1, 4, 1, .ro, 0x0, 0x0, []⟩,
  ⟨0x20, 0x100000, 1, 4, 1, .ro, 0x0, 0x0, []⟩,
  ⟨0x24, 0x100000, 1, 4, 1, .ro, 0x0, 0x0, []⟩,
  ⟨0x28, 0x100000, 1, 4, 1, .wo, 0x0, 0x0, []⟩,
  ⟨0x2c, 0x100000, 1, 4, 1, .ro, 0x0, 0x0, []⟩,
  ⟨0x30, 0x100000, 1, 4, 1, .wo, 0x0, 0x0, []⟩,
  ⟨0x34, 0x100000, 1, 4, 1, .ro, 0x0, 0x0, []⟩,
  ⟨0x38, 0x100000, 1, 8, 1, .ro, 0x0, 0x0, []⟩,
  ⟨0x3c, 0x100000, 1, 8, 1, .ro, 0x0, 0x0, []⟩,
  ⟨0x40, 0x100000, 1, 4, 1, .ro, 0x0, 0x0, []⟩,
  ⟨0x44, 0x100000, 1, 4, 1, .ro, 0x0, 0x0, []⟩]

/-- Rows of ECC. -/
def rowsECC : List RegRow := [
  ⟨0x10000, 0x100000, 1, 4, 1, .rw, 0x3, 0x3, []⟩,
  ⟨0x10004, 0x100000, 1, 4, 1, .ro, 0x0, 0x0, []⟩,
  ⟨0x10008, 0x100000, 1, 4, 1, .w1c, 0x0, 0x7f, []⟩,
  ⟨0x1000c, 0x100000, 1, 4, 1, .rw, 0x0, 0x7f, []⟩,
  ⟨0x10010, 0x100000, 1, 4, 1, .ro, 0x0, 0x0, []⟩,
  ⟨0x10014, 0x100000, 1, 4, 1, .ro, 0x0, 0x0, []⟩,
  ⟨0x10018, 0x100000, 1, 4, 1, .ro, 0x0, 0x0, []⟩,
  ⟨0x1001c, 0x100000, 1, 4, 1, .ro, 0x0, 0x0, []⟩,
  ⟨0x10020, 0x100000, 1, 4, 1, .ro, 0x0, 0x0, []⟩,
  ⟨0x10024, 0x100000, 1, 4, 1, .ro, 0x0, 0x0, []⟩,
  ⟨0x10028, 0x100000, 1, 4, 1, .ro, 0x0, 0x0, []⟩,
  ⟨0x1002c, 0x100000, 1, 4, 1, .ro, 0x0, 0x0, []⟩,
  ⟨0x10030, 0x100000, 1, 4, 1, .ro, 0x0, 0x0, []⟩,
  ⟨0x10034, 0x100000, 1, 4, 1, .rw, 0x3938700, 0xffffffff, [⟨0,32,10000,4294967295⟩]⟩,
  ⟨0x10038, 0x100000, 1, 4, 1, .ro, 0x0, 0x0, []⟩,
  ⟨0x1003c, 0x100000, 1, 4, 1, .ro, 0x0, 0x0, []⟩,
  ⟨0x10040, 0x100000, 1, 8, 1, .rw, 0x0, 0x1ffffff8, []⟩,
  ⟨0x10044, 0x100000, 1, 8, 1, .rw, 0x0, 0x80007fff, []⟩,
  ⟨0x10048, 0x100000, 1, 4, 1, .wo, 0x0, 0x0, []⟩,
  ⟨0x10100, 0x100000, 1, 8, 32, .ro, 0x0, 0x0, []⟩,
  ⟨0x10104, 0x100000, 1, 8, 32, .ro, 0x0, 0x0, []⟩]

/-- Rows of CCH. -/
def rowsCCH : List RegRow := [
  ⟨0x20000, 0x100000, 1, 4, 1, .rw, 0x3f3f03, 0x3f3f03, []⟩,
  ⟨0x20004, 0x100000, 1, 4, 1, .ro, 0x0, 0x0, []⟩,
  ⟨0x20008, 0x100000, 1, 4, 1, .w1c, 0x0, 0x3f, []⟩,
  ⟨0x2000c, 0x100000, 1, 4, 1, .rw, 0x0, 0x3f, []⟩,
  ⟨0x20010, 0x100000, 1, 4, 1, .ro, 0x0, 0x0, []⟩,
  ⟨0x20014, 0x100000, 1, 4, 1, .ro, 0x0, 0x0, []⟩,
  ⟨0x20018, 0x100000, 1, 4, 1, .ro, 0x0, 0x0, []⟩,
  ⟨0x2001c, 0x100000, 1, 4, 1, .ro, 0x0, 0x0, []⟩,
  ⟨0x20020, 0x100000, 1, 8, 4, .rw, 0x0, 0x1ffff000, []⟩,
  ⟨0x20024, 0x100000, 1, 8, 4, .rw, 0x0, 0x1ffff000, []⟩,
  ⟨0x20040, 0x100000, 1, 4, 1, .rwl, 0x0, 0xfffffffc, []⟩,
  ⟨0x20044, 0x100000, 1, 4, 1, .rw, 0xfa0100, 0xffff013f, [⟨16,16,1,65535⟩]⟩,
  ⟨0x20048, 0x100000, 1, 4, 1, .wo, 0x0, 0x0, []⟩,
  ⟨0x2004c, 0x100000, 1, 4, 1, .ro, 0x0, 0x0, []⟩,
  ⟨0x20050, 0x100000, 1, 4, 1, .ro, 0x0, 0x0, []⟩,
  ⟨0x20060, 0x100000, 1, 4, 6, .ro, 0x0, 0x0, []⟩,
  ⟨0x20078, 0x100000, 1, 4, 1, .ro, 0x0, 0x0, []⟩]

/-- Rows of CIS. -/
def rowsCIS : List RegRow := [
  ⟨0x30000, 0x100000, 1, 4, 1, .rw, 0x200, 0x1fff, []⟩,
  ⟨0x30004, 0x100000, 1, 4, 1, .ro, 0x0, 0x0, []⟩,
  ⟨0x30008, 0x100000, 1, 4, 1, .w1c, 0x0, 0xff, []⟩,
  ⟨0x3000c, 0x100000, 1, 4, 1, .rw, 0x0, 0xff, []⟩,
  ⟨0x30010, 0x100000, 1, 4, 1, .ro, 0x0, 0x0, []⟩,
  ⟨0x30014, 0x100000, 1, 4, 1, .rw, 0x0, 0x0, []⟩,
  ⟨0x30018, 0x100000, 1, 4, 1, .ro, 0x0, 0x0, []⟩,
  ⟨0x30020, 0x100000, 1, 4, 1, .ro, 0x5c00, 0x0, []⟩,
  ⟨0x30024, 0x100000, 1, 4, 1, .ro, 0x2e00, 0x0, []⟩,
  ⟨0x30028, 0x100000, 1, 4, 1, .ro, 0x1700, 0x0, []⟩,
  ⟨0x3002c, 0x100000, 1, 4, 1, .ro, 0x400, 0x0, []⟩,
  ⟨0x30030, 0x100000, 1, 4, 1, .ro, 0x0, 0x0, []⟩,
  ⟨0x30034, 0x100000, 1, 4, 1, .ro, 0x0, 0x0, []⟩,
  ⟨0x30038, 0x100000, 1, 4, 1, .wo, 0x0, 0x0, []⟩,
  ⟨0x30040, 0x100000, 1, 8, 1, .wo, 0x0, 0x0, []⟩,
  ⟨0x30044, 0x100000, 1, 8, 1, .wo, 0x0, 0x0, []⟩,
  ⟨0x30048, 0x100000, 1, 4, 1, .ro, 0x0, 0x0, []⟩,
  ⟨0x30050, 0x100000, 1, 8, 1, .ro, 0x0, 0x0, []⟩,
  ⟨0x30054, 0x100000, 1, 8, 1, .ro, 0x0, 0x0, []⟩,
  ⟨0x30058, 0x100000, 1, 4, 1, .ro, 0x0, 0x0, []⟩,
  ⟨0x3005c, 0x100000, 1, 4, 1, .ro, 0x0, 0x0, []⟩,
  ⟨0x30060, 0x100000, 1, 4, 1, .ro, 0x0, 0x0, []⟩,
  ⟨0x30064, 0x100000, 1, 4, 1, .ro, 0x0, 0x0, []⟩,
  ⟨0x30080, 0x100000, 1, 4, 7, .ro, 0x0, 0x0, []⟩]

/-- Rows of RUN. -/
def rowsRUN : List RegRow := [
  ⟨0x40000, 0x100000, 1, 4, 1, .w1c, 0x0, 0xffffffff, []⟩,
  ⟨0x40004, 0x100000, 1, 4, 1, .rw, 0x0, 0xffffffff, []⟩,
  ⟨0x40008, 0x100000, 1, 4, 1, .w1c, 0x0, 0xffffffff, []⟩,
  ⟨0x4000c, 0x100000, 1, 4, 1, .rw, 0x0, 0xffffffff, []⟩,
  ⟨0x40100, 0x20, 32, 4, 1, .ro, 0x0, 0x0, []⟩,
  ⟨0x40104, 0x20, 32, 4, 1, .ro, 0x0, 0x0, []⟩,
  ⟨0x40108, 0x20, 32, 4, 1, .ro, 0x0, 0x0, []⟩,
  ⟨0x4010c, 0x20, 32, 4, 1, .rw, 0x20001000, 0x7fff7fff, []⟩,
  ⟨0x40110, 0x20, 32, 4, 1, .wo, 0x0, 0x0, []⟩,
  ⟨0x40114, 0x20, 32, 4, 1, .ro, 0x0, 0x0, []⟩,
  ⟨0x40118, 0x20, 32, 4, 1, .ro, 0x0, 0x0, []⟩,
  ⟨0x4011c, 0x20, 32, 4, 1, .ro, 0x0, 0x0, []⟩]

/-- Rows of ETH0, part 1. -/
def rowsETH00 : List RegRow := [
  ⟨0x50000, 0x100000, 1, 4, 1, .rw, 0x3, 0x1f7, [⟨4,4,0,9⟩]⟩,
  ⟨0x50004, 0x100000, 1, 4, 1, .ro, 0x0, 0x0, []⟩,
  ⟨0x50008, 0x100000, 1, 4, 1, .w1c, 0x0, 0xfff, []⟩,
  ⟨0x5000c, 0x100000, 1, 4, 1, .rw, 0x0, 0xfff, []⟩,
  ⟨0x50010, 0x100000, 1, 4, 1, .rw, 0x31ff, 0x31ff, []⟩,
  ⟨0x50014, 0x100000, 1, 4, 1, .ro, 0x31ff, 0x0, []⟩,
  ⟨0x50018, 0x100000, 1, 4, 1, .ro, 0x0, 0x0, []⟩,
  ⟨0x5001c, 0x100000, 1, 4, 1, .rw, 0x2400, 0x3fff, [⟨0,14,1518,9600⟩]⟩,
  ⟨0x50020, 0x100000, 1, 4, 1, .ro, (Config.macAddrWord 0 0).toNat, 0x0, []⟩,
  ⟨0x50024, 0x100000, 1, 4, 1, .ro, (Config.macAddrWord 0 1).toNat, 0x0, []⟩,
  ⟨0x50028, 0x100000, 1, 4, 1, .rw, 0x0, 0xfff, []⟩,
  ⟨0x5002c, 0x100000, 1, 4, 1, .rw, 0xfac688, 0xffffff, []⟩,
  ⟨0x50030, 0x100000, 1, 4, 1, .rw, 0xffff08, 0xffffff, []⟩,
  ⟨0x50034, 0x100000, 1, 4, 1, .rw, 0xc0c0c0c, 0xffffffff, []⟩,
  ⟨0x50038, 0x100000, 1, 4, 1, .rw, 0xd0d0d0d, 0xffffffff, []⟩,
  ⟨0x5003c, 0x100000, 1, 4, 1, .rw, 0x0, 0xff, []⟩,
  ⟨0x50040, 0x100000, 1, 4, 1, .rw, 0x5010a, 0xff013f, [⟨0,6,1,35⟩, ⟨16,8,1,255⟩]⟩,
  ⟨0x50044, 0x100000, 1, 4, 1, .wo, 0x0, 0x0, []⟩,
  ⟨0x50050, 0x100000, 1, 4, 1, .ro, 0x0, 0x0, []⟩,
  ⟨0x50054, 0x100000, 1, 4, 1, .ro, 0x0, 0x0, []⟩,
  ⟨0x50058, 0x100000, 1, 4, 1, .ro, 0x0, 0x0, []⟩,
  ⟨0x5005c, 0x100000, 1, 4, 1, .ro, 0x0, 0x0, []⟩,
  ⟨0x50060, 0x100000, 1, 4, 1, .ro, 0x0, 0x0, []⟩,
  ⟨0x50064, 0x100000, 1, 4, 1, .ro, 0x0, 0x0, []⟩,
  ⟨0x50068, 0x100000, 1, 4, 1, .ro, 0x0, 0x0, []⟩,
  ⟨0x5006c, 0x100000, 1, 4, 1, .ro, 0x0, 0x0, []⟩,
  ⟨0x50070, 0x100000, 1, 4, 1, .ro, 0x0, 0x0, []⟩,
  ⟨0x50074, 0x100000, 1, 4, 1, .wo, 0x0, 0x0, []⟩,
  ⟨0x50100, 0x100000, 1, 4, 1, .rw, 0x1, 0x3f, [⟨2,2,0,2⟩]⟩,
  ⟨0x50104, 0x100000, 1, 4, 1, .rw, 0x0, 0x1fffffe0, []⟩,
  ⟨0x50108, 0x100000, 1, 4, 1, .wo, 0x0, 0x0, []⟩,
  ⟨0x5010c, 0x100000, 1, 4, 1, .rw, 0x400, 0xffffffff, []⟩,
  ⟨0x50110, 0x100000, 1, 8, 1, .rw, 0xc0000000, 0xffffffff, []⟩,
  ⟨0x50114, 0x100000, 1, 8, 1, .rw, 0x0, 0xffffffff, []⟩,
  ⟨0x50118, 0x100000, 1, 8, 1, .rw, 0x1, 0xffffffff, []⟩,
  ⟨0x5011c, 0x100000, 1, 8, 1, .rw, 0x0, 0xffffffff, []⟩,
  ⟨0x50120, 0x100000, 1, 4, 1, .ro, 0x0, 0x0, []⟩,
  ⟨0x50124, 0x100000, 1, 4, 1, .ro, 0x0, 0x0, []⟩,
  ⟨0x50128, 0x100000, 1, 4, 1, .ro, 0x0, 0x0, []⟩,
  ⟨0x5012c, 0x100000, 1, 4, 1, .ro, 0x0, 0x0, []⟩]

/-- Rows of ETH0, part 2. -/
def rowsETH01 : List RegRow := [
  ⟨0x50400, 0x100000, 1, 8, 1, .ro, 0x0, 0x0, []⟩,
  ⟨0x50404, 0x100000, 1, 8, 1, .ro, 0x0, 0x0, []⟩,
  ⟨0x50408, 0x100000, 1, 4, 1, .rw, 0x0, 0xffffffff, []⟩,
  ⟨0x50410, 0x100000, 1, 8, 1, .wo, 0x0, 0x0, []⟩,
  ⟨0x50414, 0x100000, 1, 8, 1, .wo, 0x0, 0x0, []⟩,
  ⟨0x50418, 0x100000, 1, 4, 1, .rw, 0x0, 0x1, []⟩,
  ⟨0x50420, 0x100000, 1, 4, 1, .ro, 0x0, 0x0, []⟩,
  ⟨0x50428, 0x100000, 1, 8, 1, .ro, 0x0, 0x0, []⟩,
  ⟨0x5042c, 0x100000, 1, 8, 1, .ro, 0x0, 0x0, []⟩]

/-- Rows of ETH0. -/
def rowsETH0 : List RegRow := rowsETH00 ++ rowsETH01

/-- Rows of ETH1. -/
def rowsETH1 : List RegRow := [
  ⟨0x60000, 0x100000, 1, 4, 1, .rw, 0x3, 0x1f7, [⟨4,4,0,9⟩]⟩,
  ⟨0x60004, 0x100000, 1, 4, 1, .ro, 0x0, 0x0, []⟩,
  ⟨0x60008, 0x100000, 1, 4, 1, .w1c, 0x0, 0xfff, []⟩,
  ⟨0x6000c, 0x100000, 1, 4, 1, .rw, 0x0, 0xfff, []⟩,
  ⟨0x60010, 0x100000, 1, 4, 1, .rw, 0x31ff, 0x31ff, []⟩,
  ⟨0x60014, 0x100000, 1, 4, 1, .ro, 0x31ff, 0x0, []⟩,
  ⟨0x60018, 0x100000, 1, 4, 1, .ro, 0x0, 0x0, []⟩,
  ⟨0x6001c, 0x100000, 1, 4, 1, .rw, 0x2400, 0x3fff, [⟨0,14,1518,9600⟩]⟩,
  ⟨0x60020, 0x100000, 1, 4, 1, .ro, (Config.macAddrWord 1 0).toNat, 0x0, []⟩,
  ⟨0x60024, 0x100000, 1, 4, 1, .ro, (Config.macAddrWord 1 1).toNat, 0x0, []⟩,
  ⟨0x60028, 0x100000, 1, 4, 1, .rw, 0x0, 0xfff, []⟩,
  ⟨0x6002c, 0x100000, 1, 4, 1, .rw, 0xfac688, 0xffffff, []⟩,
  ⟨0x60030, 0x100000, 1, 4, 1, .rw, 0xffff08, 0xffffff, []⟩,
  ⟨0x60034, 0x100000, 1, 4, 1, .rw, 0xc0c0c0c, 0xffffffff, []⟩,
  ⟨0x60038, 0x100000, 1, 4, 1, .rw, 0xd0d0d0d, 0xffffffff, []⟩,
  ⟨0x6003c, 0x100000, 1, 4, 1, .rw, 0x0, 0xff, []⟩,
  ⟨0x60040, 0x100000, 1, 4, 1, .rw, 0x5010a, 0xff013f, [⟨0,6,1,35⟩, ⟨16,8,1,255⟩]⟩,
  ⟨0x60044, 0x100000, 1, 4, 1, .wo, 0x0, 0x0, []⟩,
  ⟨0x60050, 0x100000, 1, 4, 1, .ro, 0x0, 0x0, []⟩,
  ⟨0x60054, 0x100000, 1, 4, 1, .ro, 0x0, 0x0, []⟩,
  ⟨0x60058, 0x100000, 1, 4, 1, .ro, 0x0, 0x0, []⟩,
  ⟨0x6005c, 0x100000, 1, 4, 1, .ro, 0x0, 0x0, []⟩,
  ⟨0x60060, 0x100000, 1, 4, 1, .ro, 0x0, 0x0, []⟩,
  ⟨0x60064, 0x100000, 1, 4, 1, .ro, 0x0, 0x0, []⟩,
  ⟨0x60068, 0x100000, 1, 4, 1, .ro, 0x0, 0x0, []⟩,
  ⟨0x6006c, 0x100000, 1, 4, 1, .ro, 0x0, 0x0, []⟩,
  ⟨0x60070, 0x100000, 1, 4, 1, .ro, 0x0, 0x0, []⟩,
  ⟨0x60074, 0x100000, 1, 4, 1, .wo, 0x0, 0x0, []⟩,
  ⟨0x60100, 0x100000, 1, 4, 1, .rw, 0x1, 0x3f, [⟨2,2,0,2⟩]⟩,
  ⟨0x60104, 0x100000, 1, 4, 1, .rw, 0x0, 0x1fffffe0, []⟩,
  ⟨0x60108, 0x100000, 1, 4, 1, .wo, 0x0, 0x0, []⟩,
  ⟨0x6010c, 0x100000, 1, 4, 1, .rw, 0x400, 0xffffffff, []⟩,
  ⟨0x60110, 0x100000, 1, 8, 1, .rw, 0xc0000000, 0xffffffff, []⟩,
  ⟨0x60114, 0x100000, 1, 8, 1, .rw, 0x0, 0xffffffff, []⟩,
  ⟨0x60118, 0x100000, 1, 8, 1, .rw, 0x1, 0xffffffff, []⟩,
  ⟨0x6011c, 0x100000, 1, 8, 1, .rw, 0x0, 0xffffffff, []⟩,
  ⟨0x60120, 0x100000, 1, 4, 1, .ro, 0x0, 0x0, []⟩,
  ⟨0x60124, 0x100000, 1, 4, 1, .ro, 0x0, 0x0, []⟩,
  ⟨0x60128, 0x100000, 1, 4, 1, .ro, 0x0, 0x0, []⟩,
  ⟨0x6012c, 0x100000, 1, 4, 1, .ro, 0x0, 0x0, []⟩]

/-- Rows of NQE. -/
def rowsNQE : List RegRow := [
  ⟨0x70000, 0x100000, 1, 4, 1, .rw, 0x2, 0x3, []⟩,
  ⟨0x70004, 0x100000, 1, 4, 1, .ro, 0x0, 0x0, []⟩,
  ⟨0x70008, 0x100000, 1, 4, 1, .w1c, 0x0, 0x3ff, []⟩,
  ⟨0x7000c, 0x100000, 1, 4, 1, .rw, 0x0, 0x3ff, []⟩,
  ⟨0x70010, 0x100000, 1, 4, 1, .ro, 0x0, 0x0, []⟩,
  ⟨0x70014, 0x100000, 1, 4, 1, .ro, 0x0, 0x0, []⟩,
  ⟨0x70018, 0x100000, 1, 4, 1, .ro, 0x0, 0x0, []⟩,
  ⟨0x7001c, 0x100000, 1, 4, 1, .ro, 0x0, 0x0, []⟩,
  ⟨0x70020, 0x100000, 1, 4, 1, .rwl, 0x17e00000, 0x1fffff00, []⟩,
  ⟨0x70024, 0x100000, 1, 4, 1, .rwl, 0x0, 0x1fffff80, []⟩,
  ⟨0x70028, 0x100000, 1, 4, 1, .ro, 0x0, 0x0, []⟩,
  ⟨0x70030, 0x100000, 1, 8, 1, .wo, 0x0, 0x0, []⟩,
  ⟨0x70034, 0x100000, 1, 8, 1, .wo, 0x0, 0x0, []⟩,
  ⟨0x70038, 0x100000, 1, 4, 1, .ro, 0x0, 0x0, []⟩,
  ⟨0x7003c, 0x100000, 1, 4, 1, .rw, 0x0, 0x1, []⟩,
  ⟨0x70040, 0x100000, 1, 4, 1, .rw, 0x3, 0x7, []⟩,
  ⟨0x70044, 0x100000, 1, 4, 1, .ro, 0x0, 0x0, []⟩,
  ⟨0x70048, 0x100000, 1, 4, 1, .ro, 0x0, 0x0, []⟩,
  ⟨0x7004c, 0x100000, 1, 4, 1, .ro, 0x0, 0x0, []⟩]

/-- Rows of CPH. -/
def rowsCPH : List RegRow := [
  ⟨0x80000, 0x100000, 1, 4, 1, .rw, 0x2801, 0x3f01, [⟨8,6,1,40⟩]⟩,
  ⟨0x80004, 0x100000, 1, 4, 1, .ro, 0x0, 0x0, []⟩,
  ⟨0x80008, 0x100000, 1, 4, 1, .w1c, 0x0, 0x3ff, []⟩,
  ⟨0x8000c, 0x100000, 1, 4, 1, .rw, 0x0, 0x3ff, []⟩,
  ⟨0x80010, 0x100000, 1, 8, 1, .ro, 0x0, 0x0, []⟩,
  ⟨0x80014, 0x100000, 1, 8, 1, .ro, 0x0, 0x0, []⟩,
  ⟨0x80018, 0x100000, 1, 4, 1, .rwl, 0x0, 0x1ffffffe, []⟩,
  ⟨0x8001c, 0x100000, 1, 4, 1, .rw, 0x0, 0xfff, []⟩,
  ⟨0x80040, 0x100000, 1, 4, 1, .rw, 0x0, 0x130fff, []⟩,
  ⟨0x80044, 0x100000, 1, 4, 1, .rw, 0x0, 0xffffffff, []⟩,
  ⟨0x80048, 0x100000, 1, 4, 1, .wo, 0x0, 0x0, []⟩,
  ⟨0x8004c, 0x100000, 1, 4, 1, .ro, 0x0, 0x0, []⟩,
  ⟨0x80050, 0x100000, 1, 4, 8, .wok, 0x0, 0x0, []⟩,
  ⟨0x80070, 0x100000, 1, 4, 1, .ro, 0x0, 0x0, []⟩,
  ⟨0x80078, 0x100000, 1, 8, 1, .ro, 0x0, 0x0, []⟩,
  ⟨0x8007c, 0x100000, 1, 8, 1, .ro, 0x0, 0x0, []⟩,
  ⟨0x80080, 0x100000, 1, 8, 1, .ro, 0x0, 0x0, []⟩,
  ⟨0x80084, 0x100000, 1, 8, 1, .ro, 0x0, 0x0, []⟩,
  ⟨0x80088, 0x100000, 1, 4, 1, .ro, 0x0, 0x0, []⟩,
  ⟨0x8008c, 0x100000, 1, 4, 1, .ro, 0x0, 0x0, []⟩,
  ⟨0x80090, 0x100000, 1, 4, 1, .ro, 0x0, 0x0, []⟩,
  ⟨0x800a0, 0x100000, 1, 4, 1, .rwl, 0x0, 0x1fe00000, []⟩,
  ⟨0x800a4, 0x100000, 1, 4, 1, .ro, 0x0, 0x0, []⟩,
  ⟨0x800a8, 0x100000, 1, 4, 1, .ro, 0x0, 0x0, []⟩,
  ⟨0x800ac, 0x100000, 1, 4, 1, .ro, 0x0, 0x0, []⟩,
  ⟨0x800b0, 0x100000, 1, 4, 1, .ro, 0x0, 0x0, []⟩,
  ⟨0x800c0, 0x100000, 1, 8, 1, .wo, 0x0, 0x0, []⟩,
  ⟨0x800c4, 0x100000, 1, 8, 1, .wo, 0x0, 0x0, []⟩,
  ⟨0x800c8, 0x100000, 1, 4, 1, .ro, 0x0, 0x0, []⟩,
  ⟨0x800cc, 0x100000, 1, 4, 1, .ro, 0x0, 0x0, []⟩,
  ⟨0x800e0, 0x100000, 1, 4, 1, .ro, 0x0, 0x0, []⟩,
  ⟨0x800e4, 0x100000, 1, 4, 1, .ro, 0x0, 0x0, []⟩,
  ⟨0x800e8, 0x100000, 1, 4, 1, .ro, 0x0, 0x0, []⟩]

/-- Rows of ANG. -/
def rowsANG : List RegRow := [
  ⟨0x90000, 0x100000, 1, 4, 1, .rw, 0x307106b, 0x3ffffff, [⟨20,6,8,63⟩, ⟨17,3,1,7⟩, ⟨13,4,1,15⟩, ⟨8,5,1,31⟩]⟩,
  ⟨0x90004, 0x100000, 1, 4, 1, .ro, 0x0, 0x0, []⟩,
  ⟨0x90008, 0x100000, 1, 4, 1, .ro, 0x0, 0x0, []⟩,
  ⟨0x9000c, 0x100000, 1, 4, 1, .ro, 0x0, 0x0, []⟩,
  ⟨0x90010, 0x100000, 1, 4, 1, .ro, 0x0, 0x0, []⟩,
  ⟨0x90014, 0x100000, 1, 4, 1, .ro, 0x0, 0x0, []⟩,
  ⟨0x90018, 0x100000, 1, 4, 1, .w1c, 0x0, 0xff, []⟩,
  ⟨0x9001c, 0x100000, 1, 4, 1, .rw, 0x0, 0xff, []⟩,
  ⟨0x90020, 0x100000, 1, 4, 1, .ro, 0x0, 0x0, []⟩,
  ⟨0x90024, 0x100000, 1, 4, 1, .ro, 0x0, 0x0, []⟩,
  ⟨0x90028, 0x100000, 1, 4, 1, .ro, 0x0, 0x0, []⟩,
  ⟨0x90030, 0x100000, 1, 8, 1, .ro, 0x0, 0x0, []⟩,
  ⟨0x90034, 0x100000, 1, 8, 1, .ro, 0x0, 0x0, []⟩,
  ⟨0x90038, 0x100000, 1, 4, 1, .ro, 0x0, 0x0, []⟩,
  ⟨0x90040, 0x100000, 1, 8, 1, .ro, 0x0, 0x0, []⟩,
  ⟨0x90044, 0x100000, 1, 8, 1, .ro, 0x0, 0x0, []⟩,
  ⟨0x90048, 0x100000, 1, 4, 1, .ro, 0x0, 0x0, []⟩,
  ⟨0x90080, 0x100000, 1, 4, 24, .rw, 0x0, 0x3fffff, []⟩,
  ⟨0x90100, 0x100000, 1, 16, 8, .ro, 0x0, 0x0, []⟩,
  ⟨0x90104, 0x100000, 1, 16, 8, .wo, 0x0, 0x0, []⟩,
  ⟨0x90108, 0x100000, 1, 16, 8, .ro, 0x0, 0x0, []⟩,
  ⟨0x9010c, 0x100000, 1, 16, 8, .ro, 0x0, 0x0, []⟩,
  ⟨0x90180, 0x100000, 1, 8, 1, .wo, 0x0, 0x0, []⟩,
  ⟨0x90184, 0x100000, 1, 8, 1, .wo, 0x0, 0x0, []⟩,
  ⟨0x90188, 0x100000, 1, 4, 1, .rw, 0x0, 0x7, []⟩]

/-- Rows of TSQA. -/
def rowsTSQA : List RegRow := [
  ⟨0xa0000, 0x100000, 1, 4, 1, .rw, 0x4, 0x7, []⟩,
  ⟨0xa0004, 0x100000, 1, 4, 1, .ro, 0x0, 0x0, []⟩,
  ⟨0xa0008, 0x100000, 1, 4, 1, .w1c, 0x0, 0x1f, []⟩,
  ⟨0xa000c, 0x100000, 1, 4, 1, .rw, 0x0, 0x1f, []⟩,
  ⟨0xa0010, 0x100000, 1, 4, 1, .w1c, 0x0, 0x3fff, []⟩,
  ⟨0xa0014, 0x100000, 1, 4, 1, .rw, 0x0, 0x3fff, []⟩,
  ⟨0xa0018, 0x100000, 1, 4, 1, .ro, 0x0, 0x0, []⟩,
  ⟨0xa001c, 0x100000, 1, 4, 1, .ro, 0x0, 0x0, []⟩,
  ⟨0xa0020, 0x100000, 1, 4, 1, .ro, 0x0, 0x0, []⟩,
  ⟨0xa0024, 0x100000, 1, 4, 1, .rw, 0x64, 0x3ff, [⟨0,10,1,1000⟩]⟩,
  ⟨0xa0028, 0x100000, 1, 4, 1, .rw, 0x4, 0xf, [⟨0,4,2,15⟩]⟩,
  ⟨0xa002c, 0x100000, 1, 4, 1, .ro, 0x0, 0x0, []⟩,
  ⟨0xa0030, 0x100000, 1, 8, 1, .wo, 0x0, 0x0, []⟩,
  ⟨0xa0034, 0x100000, 1, 8, 1, .wo, 0x0, 0x0, []⟩,
  ⟨0xa0038, 0x100000, 1, 4, 1, .ro, 0x0, 0x0, []⟩,
  ⟨0xa003c, 0x100000, 1, 4, 1, .ro, 0x0, 0x0, []⟩,
  ⟨0xa0040, 0x100000, 1, 4, 1, .wo, 0x0, 0x0, []⟩,
  ⟨0xa0044, 0x100000, 1, 4, 1, .wo, 0x0, 0x0, []⟩,
  ⟨0xa0100, 0x100000, 1, 16, 5, .ro, 0x0, 0x0, []⟩,
  ⟨0xa0104, 0x100000, 1, 16, 5, .ro, 0x0, 0x0, []⟩,
  ⟨0xa0108, 0x100000, 1, 16, 5, .ro, 0x0, 0x0, []⟩,
  ⟨0xa0200, 0x100000, 1, 4, 1, .rw, 0x0, 0x1ffffffc, []⟩,
  ⟨0xa0204, 0x100000, 1, 4, 1, .wo, 0x0, 0x0, []⟩,
  ⟨0xa0208, 0x100000, 1, 4, 1, .ro, 0x0, 0x0, []⟩,
  ⟨0xa0400, 0x100000, 1, 4, 80, .ro, 0x0, 0x0, []⟩]

/-- Rows of TSQB. -/
def rowsTSQB : List RegRow := [
  ⟨0xb0000, 0x100000, 1, 4, 1, .rw, 0x4, 0x7, []⟩,
  ⟨0xb0004, 0x100000, 1, 4, 1, .ro, 0x0, 0x0, []⟩,
  ⟨0xb0008, 0x100000, 1, 4, 1, .w1c, 0x0, 0x1f, []⟩,
  ⟨0xb000c, 0x100000, 1, 4, 1, .rw, 0x0, 0x1f, []⟩,
  ⟨0xb0010, 0x100000, 1, 4, 1, .w1c, 0x0, 0x3fff, []⟩,
  ⟨0xb0014, 0x100000, 1, 4, 1, .rw, 0x0, 0x3fff, []⟩,
  ⟨0xb0018, 0x100000, 1, 4, 1, .ro, 0x0, 0x0, []⟩,
  ⟨0xb001c, 0x100000, 1, 4, 1, .ro, 0x0, 0x0, []⟩,
  ⟨0xb0020, 0x100000, 1, 4, 1, .ro, 0x0, 0x0, []⟩,
  ⟨0xb0024, 0x100000, 1, 4, 1, .rw, 0x64, 0x3ff, [⟨0,10,1,1000⟩]⟩,
  ⟨0xb0028, 0x100000, 1, 4, 1, .rw, 0x4, 0xf, [⟨0,4,2,15⟩]⟩,
  ⟨0xb002c, 0x100000, 1, 4, 1, .ro, 0x0, 0x0, []⟩,
  ⟨0xb0030, 0x100000, 1, 8, 1, .wo, 0x0, 0x0, []⟩,
  ⟨0xb0034, 0x100000, 1, 8, 1, .wo, 0x0, 0x0, []⟩,
  ⟨0xb0038, 0x100000, 1, 4, 1, .ro, 0x0, 0x0, []⟩,
  ⟨0xb003c, 0x100000, 1, 4, 1, .ro, 0x0, 0x0, []⟩,
  ⟨0xb0040, 0x100000, 1, 4, 1, .wo, 0x0, 0x0, []⟩,
  ⟨0xb0044, 0x100000, 1, 4, 1, .wo, 0x0, 0x0, []⟩,
  ⟨0xb0100, 0x100000, 1, 16, 5, .ro, 0x0, 0x0, []⟩,
  ⟨0xb0104, 0x100000, 1, 16, 5, .ro, 0x0, 0x0, []⟩,
  ⟨0xb0108, 0x100000, 1, 16, 5, .ro, 0x0, 0x0, []⟩,
  ⟨0xb0400, 0x100000, 1, 4, 80, .ro, 0x0, 0x0, []⟩]

/-- Rows of LANE. -/
def rowsLANE : List RegRow := [
  ⟨0xc0000, 0x1000, 8, 4, 1, .rw, 0x0, 0x3, []⟩,
  ⟨0xc8000, 0x1000, 8, 4, 1, .rw, 0x0, 0x7, []⟩,
  ⟨0xc0004, 0x1000, 16, 4, 1, .ro, 0x0, 0x0, []⟩,
  ⟨0xc0008, 0x1000, 16, 4, 1, .w1c, 0x0, 0xf, []⟩,
  ⟨0xc000c, 0x1000, 16, 4, 1, .rw, 0x0, 0xf, []⟩,
  ⟨0xc0010, 0x1000, 16, 4, 1, .rw, 0xc29150, 0x3ffffff, []⟩,
  ⟨0xc0014, 0x1000, 16, 4, 1, .rw, 0x11020, 0x1ffff, []⟩,
  ⟨0xc0018, 0x1000, 16, 4, 1, .rw, 0xc10c, 0xf31f, []⟩,
  ⟨0xc001c, 0x1000, 16, 4, 1, .ro, 0x0, 0x0, []⟩,
  ⟨0xc0020, 0x1000, 16, 4, 1, .ro, 0x0, 0x0, []⟩,
  ⟨0xc0024, 0x1000, 16, 4, 1, .ro, 0x0, 0x0, []⟩,
  ⟨0xc0028, 0x1000, 16, 4, 1, .ro, 0x0, 0x0, []⟩,
  ⟨0xc002c, 0x1000, 16, 4, 1, .ro, 0x0, 0x0, []⟩,
  ⟨0xc0040, 0x1000, 16, 4, 10, .rw, 0x0, 0xffffffff, []⟩,
  ⟨0xc8080, 0x1000, 8, 4, 1, .rw, 0x0, 0x11f, []⟩,
  ⟨0xc0200, 0x1000, 8, 4, 1, .ro, 0x0, 0x0, []⟩,
  ⟨0xc0204, 0x1000, 8, 4, 1, .w1c, 0x0, 0x3f, []⟩,
  ⟨0xc0208, 0x1000, 8, 4, 1, .rw, 0x0, 0x3f, []⟩,
  ⟨0xc020c, 0x1000, 8, 4, 1, .ro, 0x0, 0x0, []⟩,
  ⟨0xc0210, 0x1000, 8, 4, 1, .ro, 0x0, 0x0, []⟩,
  ⟨0xc0214, 0x1000, 8, 4, 1, .rw, 0x4, 0xf, []⟩,
  ⟨0xc0218, 0x1000, 8, 4, 1, .ro, 0x0, 0x0, []⟩,
  ⟨0xc0400, 0x4000, 2, 4, 1, .ro, 0x0, 0x0, []⟩,
  ⟨0xc0404, 0x4000, 2, 4, 1, .rw, 0x0, 0x1fffffe0, []⟩,
  ⟨0xc0408, 0x4000, 2, 4, 1, .rw, 0x3728190a, 0xffffffff, []⟩,
  ⟨0xc040c, 0x4000, 2, 4, 1, .rw, 0x736e5546, 0xffffffff, []⟩,
  ⟨0xc0410, 0x4000, 2, 4, 1, .rw, 0x3000, 0x3fffff, []⟩,
  ⟨0xc0414, 0x4000, 2, 4, 1, .rw, 0x30f, 0xfff, []⟩,
  ⟨0xc0418, 0x4000, 2, 4, 1, .rw, 0x645a, 0xffff, [⟨0,8,0,100⟩, ⟨8,8,0,100⟩]⟩,
  ⟨0xc041c, 0x4000, 2, 4, 1, .w1c, 0x0, 0xfff, []⟩,
  ⟨0xc0420, 0x4000, 2, 4, 1, .rw, 0x0, 0xfff, []⟩,
  ⟨0xc0480, 0x4000, 2, 4, 12, .ro, 0x0, 0x0, []⟩]

/-- Rows of SRV. -/
def rowsSRV : List RegRow := [
  ⟨0xd0000, 0x100000, 1, 4, 1, .rw, 0x0, 0x1, []⟩,
  ⟨0xd0010, 0x100000, 1, 4, 6, .ro, 0x0, 0x0, []⟩,
  ⟨0xd0100, 0x100, 2, 4, 1, .rw, 0xf00, 0xf31, []⟩,
  ⟨0xd0104, 0x100, 2, 4, 1, .ro, 0x0, 0x0, []⟩,
  ⟨0xd0108, 0x100, 2, 4, 1, .w1c, 0x0, 0x1fff, []⟩,
  ⟨0xd010c, 0x100, 2, 4, 1, .rw, 0x0, 0x1fff, []⟩,
  ⟨0xd0110, 0x100, 2, 4, 1, .rw, 0x0, 0x0, []⟩,
  ⟨0xd0114, 0x100, 2, 4, 1, .ro, 0x0, 0x0, []⟩,
  ⟨0xd0118, 0x100, 2, 4, 1, .ro, 0x0, 0x0, []⟩,
  ⟨0xd011c, 0x100, 2, 4, 1, .ro, 0x0, 0x0, []⟩,
  ⟨0xd0120, 0x100, 2, 4, 1, .rw, 0x0, 0xffffffff, []⟩,
  ⟨0xd0124, 0x100, 2, 4, 1, .rw, 0x0, 0xffffffff, []⟩,
  ⟨0xd0128, 0x100, 2, 4, 1, .rw, 0x0, 0xffffffff, []⟩,
  ⟨0xd012c, 0x100, 2, 4, 1, .rw, 0x12c1008, 0xffffffff, []⟩,
  ⟨0xd0130, 0x100, 2, 4, 1, .rw, 0x0, 0x1ffffff8, []⟩,
  ⟨0xd0134, 0x100, 2, 4, 1, .rw, 0x0, 0xffff, []⟩,
  ⟨0xd0138, 0x100, 2, 4, 1, .rw, 0x402, 0xf0f, [⟨0,4,1,15⟩, ⟨8,4,1,15⟩]⟩,
  ⟨0xd013c, 0x100, 2, 4, 1, .rw, 0x40, 0x3ff, [⟨0,10,1,1023⟩]⟩,
  ⟨0xd0140, 0x100, 2, 4, 1, .rw, 0x0, 0xffffffff, []⟩,
  ⟨0xd0144, 0x100, 2, 4, 1, .rw, 0x0, 0xffffffff, []⟩,
  ⟨0xd0148, 0x100, 2, 4, 1, .ro, 0x0, 0x0, []⟩,
  ⟨0xd014c, 0x100, 2, 4, 1, .ro, 0x0, 0x0, []⟩,
  ⟨0xd0150, 0x100, 2, 4, 1, .ro, 0x0, 0x0, []⟩,
  ⟨0xd0160, 0x100, 2, 4, 4, .ro, 0x0, 0x0, []⟩,
  ⟨0xd0170, 0x100, 2, 4, 4, .ro, 0x0, 0x0, []⟩,
  ⟨0xd0180, 0x100, 2, 4, 12, .rw, 0x0, 0xffff, []⟩,
  ⟨0xd01c0, 0x100, 2, 4, 1, .rw, 0x0, 0xf1ff70, [⟨4,3,0,5⟩, ⟨8,4,0,9⟩]⟩,
  ⟨0xd01c4, 0x100, 2, 4, 1, .rw, 0x0, 0xffffffff, []⟩,
  ⟨0xd01c8, 0x100, 2, 4, 1, .rw, 0x0, 0xffffffff, []⟩,
  ⟨0xd01cc, 0x100, 2, 4, 1, .rw, 0x0, 0xffffffff, []⟩,
  ⟨0xd01d0, 0x100, 2, 4, 1, .rw, 0x0, 0xffffffff, []⟩,
  ⟨0xd01d4, 0x100, 2, 4, 1, .ro, 0x0, 0x0, []⟩,
  ⟨0xd01e0, 0x100, 2, 4, 1, .rw, 0x0, 0x3ffffff, []⟩,
  ⟨0xd01e4, 0x100, 2, 4, 1, .ro, 0x0, 0x0, []⟩,
  ⟨0xd01e8, 0x100, 2, 4, 1, .rw, 0x0, 0xffff, []⟩,
  ⟨0xd01ec, 0x100, 2, 4, 1, .rw, 0x0, 0xffff, []⟩,
  ⟨0xd01f0, 0x100, 2, 4, 4, .ro, 0x0, 0x0, []⟩]

/-- Rows of SPN. -/
def rowsSPN : List RegRow := [
  ⟨0xe0000, 0x100000, 1, 4, 1, .rw, 0x2, 0x3, []⟩,
  ⟨0xe0004, 0x100000, 1, 4, 1, .ro, 0x0, 0x0, []⟩,
  ⟨0xe0008, 0x100000, 1, 4, 1, .w1c, 0x0, 0x1fff, []⟩,
  ⟨0xe000c, 0x100000, 1, 4, 1, .rw, 0x0, 0x1fff, []⟩,
  ⟨0xe0010, 0x100000, 1, 4, 1, .wo, 0x0, 0x0, []⟩,
  ⟨0xe0014, 0x100000, 1, 4, 1, .rw, 0x0, 0x3fff, []⟩,
  ⟨0xe0018, 0x100000, 1, 4, 1, .ro, 0x0, 0x0, []⟩,
  ⟨0xe001c, 0x100000, 1, 4, 1, .rw, 0x0, 0xf, [⟨0,4,4,8⟩]⟩,
  ⟨0xe0020, 0x100000, 1, 4, 1, .rw, 0x0, 0xffffffff, []⟩,
  ⟨0xe0024, 0x100000, 1, 4, 1, .rw, 0x0, 0xffffffff, []⟩,
  ⟨0xe0028, 0x100000, 1, 4, 1, .rw, 0x0, 0xffffffff, []⟩,
  ⟨0xe002c, 0x100000, 1, 4, 1, .rw, 0x0, 0xffffffff, []⟩,
  ⟨0xe0030, 0x100000, 1, 4, 1, .rw, 0x0, 0xffffffff, []⟩,
  ⟨0xe0034, 0x100000, 1, 4, 1, .rw, 0x0, 0xffffffff, []⟩,
  ⟨0xe0038, 0x100000, 1, 4, 1, .rw, 0x80c0805, 0xf0f1f1f, [⟨0,5,1,15⟩, ⟨8,5,4,20⟩, ⟨16,4,1,15⟩, ⟨24,4,1,15⟩]⟩,
  ⟨0xe003c, 0x100000, 1, 4, 1, .rw, 0x0, 0x7f, [⟨0,7,0,120⟩]⟩,
  ⟨0xe0040, 0x100000, 1, 4, 1, .rw, 0xc83c3214, 0xffffffff, []⟩,
  ⟨0xe0044, 0x100000, 1, 4, 1, .rw, 0xa140a4b, 0xffffffff, []⟩,
  ⟨0xe0048, 0x100000, 1, 4, 1, .ro, 0x0, 0x0, []⟩,
  ⟨0xe004c, 0x100000, 1, 4, 1, .ro, 0x0, 0x0, []⟩,
  ⟨0xe0050, 0x100000, 1, 4, 1, .ro, 0x0, 0x0, []⟩,
  ⟨0xe0054, 0x100000, 1, 4, 1, .ro, 0x0, 0x0, []⟩,
  ⟨0xe0058, 0x100000, 1, 4, 1, .ro, 0x0, 0x0, []⟩,
  ⟨0xe005c, 0x100000, 1, 4, 1, .ro, 0x0, 0x0, []⟩,
  ⟨0xe0060, 0x100000, 1, 4, 1, .ro, 0x0, 0x0, []⟩]

/-- Rows of WEIR. -/
def rowsWEIR : List RegRow := [
  ⟨0xf0000, 0x100000, 1, 4, 1, .rw, 0x0, 0x1, []⟩,
  ⟨0xf0004, 0x100000, 1, 4, 1, .ro, 0x0, 0x0, []⟩,
  ⟨0xf0008, 0x100000, 1, 4, 1, .ro, 0x0, 0x0, []⟩,
  ⟨0xf000c, 0x100000, 1, 4, 1, .w1c, 0x0, 0x1, []⟩,
  ⟨0xf0010, 0x100000, 1, 4, 1, .rw, 0x0, 0x1, []⟩,
  ⟨0xf0014, 0x100000, 1, 4, 1, .ro, 0x0, 0x0, []⟩,
  ⟨0xf0018, 0x100000, 1, 4, 1, .rw, 0x40000000, 0xffffffff, []⟩,
  ⟨0xf001c, 0x100000, 1, 4, 1, .rw, 0x40200000, 0xffffffff, []⟩,
  ⟨0xf0020, 0x100000, 1, 4, 1, .rw, 0x414e6666, 0xffffffff, []⟩,
  ⟨0xf0024, 0x100000, 1, 4, 1, .ro, 0x40000000, 0x0, []⟩,
  ⟨0xf0028, 0x100000, 1, 4, 1, .rw, 0x3e99999a, 0xffffffff, []⟩,
  ⟨0xf002c, 0x100000, 1, 4, 1, .rw, 0x3e4ccccd, 0xffffffff, []⟩,
  ⟨0xf0030, 0x100000, 1, 4, 1, .rw, 0x43480000, 0xffffffff, []⟩,
  ⟨0xf0034, 0x100000, 1, 4, 1, .rw, 0x42c80000, 0xffffffff, []⟩,
  ⟨0xf0038, 0x100000, 1, 4, 1, .ro, 0x0, 0x0, []⟩,
  ⟨0xf003c, 0x100000, 1, 4, 1, .ro, 0x0, 0x0, []⟩,
  ⟨0xf0040, 0x100000, 1, 4, 5, .ro, 0x0, 0x0, []⟩]

/-- Rows of SLU. -/
def rowsSLU : List RegRow := [
  ⟨0x100000, 0x100000, 1, 4, 1, .ro, 0x0, 0x0, []⟩,
  ⟨0x100004, 0x100000, 1, 4, 1, .ro, 0x0, 0x0, []⟩,
  ⟨0x100008, 0x100000, 1, 4, 1, .w1c, 0x0, 0x7ff, []⟩,
  ⟨0x10000c, 0x100000, 1, 4, 1, .rw, 0x0, 0x7ff, []⟩,
  ⟨0x100010, 0x100000, 1, 4, 1, .rw, 0x2, 0x3, [⟨0,2,0,2⟩]⟩,
  ⟨0x100014, 0x100000, 1, 4, 1, .rw, 0xc, 0xff, [⟨0,8,5,29⟩]⟩,
  ⟨0x100018, 0x100000, 1, 4, 1, .rw, 0x0, 0xff, []⟩,
  ⟨0x10001c, 0x100000, 1, 4, 1, .rw, 0xc80400, 0xffffffff, []⟩,
  ⟨0x100020, 0x100000, 1, 4, 1, .rw, 0x0, 0xffffffff, []⟩,
  ⟨0x100024, 0x100000, 1, 4, 1, .rw, 0x1f4, 0xffff, [⟨0,16,10,65535⟩]⟩,
  ⟨0x100028, 0x100000, 1, 4, 1, .rw, 0x0, 0xffffffff, []⟩,
  ⟨0x10002c, 0x100000, 1, 4, 1, .rw, 0x0, 0xffffffff, []⟩,
  ⟨0x100030, 0x100000, 1, 4, 1, .rw, 0x0, 0xffffffff, []⟩,
  ⟨0x100034, 0x100000, 1, 4, 1, .rw, 0x0, 0x3fff, []⟩,
  ⟨0x100038, 0x100000, 1, 4, 1, .rw, 0x0, 0xffffffff, []⟩,
  ⟨0x10003c, 0x100000, 1, 4, 1, .rw, 0x0, 0xffffffff, []⟩,
  ⟨0x100040, 0x100000, 1, 4, 1, .rw, 0x0, 0xff, []⟩,
  ⟨0x100044, 0x100000, 1, 4, 1, .ro, 0x0, 0x0, []⟩,
  ⟨0x100048, 0x100000, 1, 4, 1, .ro, 0x0, 0x0, []⟩,
  ⟨0x10004c, 0x100000, 1, 4, 1, .ro, 0x0, 0x0, []⟩,
  ⟨0x100050, 0x100000, 1, 4, 1, .ro, 0x0, 0x0, []⟩,
  ⟨0x100054, 0x100000, 1, 4, 1, .ro, 0x0, 0x0, []⟩,
  ⟨0x100100, 0x100000, 1, 4, 8, .ro, 0x0, 0x0, []⟩,
  ⟨0x100180, 0x100000, 1, 4, 24, .rw, 0x0, 0xffff, []⟩,
  ⟨0x100200, 0x100000, 1, 4, 24, .rw, 0x0, 0xffffffff, []⟩,
  ⟨0x100280, 0x100000, 1, 4, 24, .rw, 0x0, 0xffff, []⟩]

/-- Rows of THM. -/
def rowsTHM : List RegRow := [
  ⟨0x110000, 0x100000, 1, 4, 1, .rw, 0x0, 0xf, []⟩,
  ⟨0x110004, 0x100000, 1, 4, 1, .ro, 0x0, 0x0, []⟩,
  ⟨0x110008, 0x100000, 1, 4, 1, .w1c, 0x0, 0x1ff, []⟩,
  ⟨0x11000c, 0x100000, 1, 4, 1, .rw, 0x0, 0x1ff, []⟩,
  ⟨0x110010, 0x100000, 1, 4, 1, .ro, 0x0, 0x0, []⟩,
  ⟨0x110014, 0x100000, 1, 4, 1, .rw, 0x0, 0x0, []⟩,
  ⟨0x110018, 0x100000, 1, 4, 1, .rw, 0x705f645f, 0xffffff, []⟩,
  ⟨0x11001c, 0x100000, 1, 4, 1, .ro, 0x0, 0x0, []⟩,
  ⟨0x110020, 0x100000, 1, 4, 1, .ro, 0x280080, 0x0, []⟩,
  ⟨0x110024, 0x100000, 1, 4, 1, .ro, 0x0, 0x0, []⟩,
  ⟨0x110028, 0x100000, 1, 4, 1, .rw, 0x40000000, 0xffffffff, []⟩,
  ⟨0x11002c, 0x100000, 1, 4, 1, .ro, 0x0, 0x0, []⟩,
  ⟨0x110030, 0x100000, 1, 4, 1, .ro, 0x0, 0x0, []⟩]

/-- Rows of CAL. -/
def rowsCAL : List RegRow := [
  ⟨0x120000, 0x100000, 1, 4, 1, .wo, 0x0, 0x0, []⟩,
  ⟨0x120004, 0x100000, 1, 4, 1, .ro, 0x0, 0x0, []⟩,
  ⟨0x120008, 0x100000, 1, 4, 1, .w1c, 0x0, 0x7, []⟩,
  ⟨0x12000c, 0x100000, 1, 4, 1, .rw, 0x0, 0x7, []⟩,
  ⟨0x120010, 0x100000, 1, 4, 1, .ro, 0x0, 0x0, []⟩,
  ⟨0x120014, 0x100000, 1, 4, 1, .ro, 0x0, 0x0, []⟩,
  ⟨0x120018, 0x100000, 1, 8, 1, .ro, 0x0, 0x0, []⟩,
  ⟨0x12001c, 0x100000, 1, 8, 1, .ro, 0x0, 0x0, []⟩,
  ⟨0x120020, 0x100000, 1, 4, 1, .ro, 0x0, 0x0, []⟩,
  ⟨0x120024, 0x100000, 1, 4, 1, .ro, 0x0, 0x0, []⟩,
  ⟨0x120040, 0x100000, 1, 4, 1, .ro, (Config.calFactory 0).toNat, 0x0, []⟩,
  ⟨0x120048, 0x100000, 1, 4, 1, .ro, (Config.calFactory 2).toNat, 0x0, []⟩,
  ⟨0x120050, 0x100000, 1, 4, 1, .ro, (Config.calFactory 4).toNat, 0x0, []⟩,
  ⟨0x120058, 0x100000, 1, 4, 1, .ro, (Config.calFactory 6).toNat, 0x0, []⟩,
  ⟨0x120060, 0x100000, 1, 4, 1, .ro, (Config.calFactory 8).toNat, 0x0, []⟩,
  ⟨0x120068, 0x100000, 1, 4, 1, .ro, (Config.calFactory 10).toNat, 0x0, []⟩,
  ⟨0x120044, 0x100000, 1, 4, 1, .ro, (Config.calFactory 1).toNat, 0x0, []⟩,
  ⟨0x12004c, 0x100000, 1, 4, 1, .ro, (Config.calFactory 3).toNat, 0x0, []⟩,
  ⟨0x120054, 0x100000, 1, 4, 1, .ro, (Config.calFactory 5).toNat, 0x0, []⟩,
  ⟨0x12005c, 0x100000, 1, 4, 1, .ro, (Config.calFactory 7).toNat, 0x0, []⟩,
  ⟨0x120064, 0x100000, 1, 4, 1, .ro, (Config.calFactory 9).toNat, 0x0, []⟩,
  ⟨0x12006c, 0x100000, 1, 4, 1, .ro, (Config.calFactory 11).toNat, 0x0, []⟩]

/-- Rows of EVR, part 1. -/
def rowsEVR0 : List RegRow := [
  ⟨0x130000, 0x100000, 1, 4, 1, .rw, 0x3, 0x3, []⟩,
  ⟨0x130004, 0x100000, 1, 4, 1, .ro, 0x0, 0x0, []⟩,
  ⟨0x130008, 0x100000, 1, 4, 1, .w1c, 0x0, 0xff, []⟩,
  ⟨0x13000c, 0x100000, 1, 4, 1, .rw, 0x0, 0xff, []⟩,
  ⟨0x130010, 0x100000, 1, 4, 1, .ro, 0x0, 0x0, []⟩,
  ⟨0x130014, 0x100000, 1, 4, 1, .ro, 0x0, 0x0, []⟩,
  ⟨0x130018, 0x100000, 1, 4, 1, .ro, 0x0, 0x0, []⟩,
  ⟨0x13001c, 0x100000, 1, 4, 1, .rw, 0x400064, 0xffffff, [⟨0,16,1,10000⟩, ⟨16,8,1,255⟩]⟩,
  ⟨0x130020, 0x100000, 1, 4, 1, .ro, 0x0, 0x0, []⟩,
  ⟨0x130024, 0x100000, 1, 4, 1, .ro, 0x0, 0x0, []⟩,
  ⟨0x130028, 0x100000, 1, 4, 1, .ro, 0x0, 0x0, []⟩,
  ⟨0x13002c, 0x100000, 1, 4, 1, .wo, 0x0, 0x0, []⟩,
  ⟨0x130030, 0x100000, 1, 4, 1, .ro, 0x0, 0x0, []⟩,
  ⟨0x130034, 0x100000, 1, 4, 1, .rwl, 0x0, 0x1fffff80, []⟩,
  ⟨0x130038, 0x100000, 1, 4, 1, .ro, 0x0, 0x0, []⟩,
  ⟨0x130040, 0x100000, 1, 4, 1, .rwl, 0x0, 0xffffff, []⟩,
  ⟨0x130044, 0x100000, 1, 4, 1, .rwl, 0x0, 0xff, []⟩,
  ⟨0x130048, 0x100000, 1, 4, 1, .rw, 0x1f4, 0xffff, [⟨0,16,10,65535⟩]⟩,
  ⟨0x130050, 0x100000, 1, 4, 1, .ro, 0x0, 0x0, []⟩,
  ⟨0x130054, 0x100000, 1, 4, 1, .ro, 0x0, 0x0, []⟩,
  ⟨0x130058, 0x100000, 1, 4, 1, .ro, 0x0, 0x0, []⟩,
  ⟨0x130060, 0x100000, 1, 4, 1, .ro, 0x0, 0x0, []⟩,
  ⟨0x130064, 0x100000, 1, 4, 1, .wo, 0x0, 0x0, []⟩,
  ⟨0x130080, 0x100000, 1, 4, 1, .rwl, 0x0, 0xffffffff, []⟩,
  ⟨0x130088, 0x100000, 1, 4, 1, .rwl, 0x0, 0xffffffff, []⟩,
  ⟨0x130090, 0x100000, 1, 4, 1, .rwl, 0xffffff60, 0xffffffff, []⟩,
  ⟨0x130098, 0x100000, 1, 4, 1, .rwl, 0xfffffc00, 0xffffffff, []⟩,
  ⟨0x1300a0, 0x100000, 1, 4, 1, .rwl, 0x0, 0xffffffff, []⟩,
  ⟨0x1300a8, 0x100000, 1, 4, 1, .rwl, 0x0, 0xffffffff, []⟩,
  ⟨0x1300b0, 0x100000, 1, 4, 1, .rwl, 0x0, 0xffffffff, []⟩,
  ⟨0x1300b8, 0x100000, 1, 4, 1, .rwl, 0x0, 0xffffffff, []⟩,
  ⟨0x130084, 0x100000, 1, 4, 1, .rwl, 0x1, 0xffffffff, []⟩,
  ⟨0x13008c, 0x100000, 1, 4, 1, .rwl, 0x1, 0xffffffff, []⟩,
  ⟨0x130094, 0x100000, 1, 4, 1, .rwl, 0x10, 0xffffffff, []⟩,
  ⟨0x13009c, 0x100000, 1, 4, 1, .rwl, 0x20, 0xffffffff, []⟩,
  ⟨0x1300a4, 0x100000, 1, 4, 1, .rwl, 0x2, 0xffffffff, []⟩,
  ⟨0x1300ac, 0x100000, 1, 4, 1, .rwl, 0x3e8, 0xffffffff, []⟩,
  ⟨0x1300b4, 0x100000, 1, 4, 1, .rwl, 0x64, 0xffffffff, []⟩,
  ⟨0x1300bc, 0x100000, 1, 4, 1, .rwl, 0x5c0, 0xffffffff, []⟩,
  ⟨0x131000, 0x80, 16, 4, 1, .ro, 0x0, 0x0, []⟩]

/-- Rows of EVR, part 2. -/
def rowsEVR1 : List RegRow := [
  ⟨0x131800, 0x80, 48, 4, 1, .rw, 0x0, 0x3ffffff, []⟩,
  ⟨0x131004, 0x80, 16, 4, 1, .ro, 0x0, 0x0, []⟩,
  ⟨0x131804, 0x80, 48, 4, 1, .ro, 0x0, 0x0, []⟩,
  ⟨0x131008, 0x80, 16, 4, 1, .ro, 0x0, 0x0, []⟩,
  ⟨0x131808, 0x80, 48, 4, 1, .ro, 0x0, 0x0, []⟩,
  ⟨0x13100c, 0x80, 16, 4, 1, .ro, 0x0, 0x0, []⟩,
  ⟨0x13180c, 0x80, 48, 4, 1, .rw, 0x0, 0xffffffff, []⟩,
  ⟨0x131040, 0x100000, 1, 4, 16, .ro, 0, 0x0, []⟩,
  ⟨0x1310c0, 0x100000, 1, 4, 16, .ro, 0, 0x0, []⟩,
  ⟨0x131140, 0x100000, 1, 4, 16, .ro, 0, 0x0, []⟩,
  ⟨0x1311c0, 0x100000, 1, 4, 16, .ro, 0, 0x0, []⟩,
  ⟨0x131240, 0x100000, 1, 4, 16, .ro, 0, 0x0, []⟩,
  ⟨0x1312c0, 0x100000, 1, 4, 16, .ro, 0, 0x0, []⟩,
  ⟨0x131340, 0x100000, 1, 4, 16, .ro, 0, 0x0, []⟩,
  ⟨0x1313c0, 0x100000, 1, 4, 16, .ro, 0, 0x0, []⟩,
  ⟨0x131440, 0x100000, 1, 4, 16, .ro, 0, 0x0, []⟩,
  ⟨0x1314c0, 0x100000, 1, 4, 16, .ro, 0, 0x0, []⟩,
  ⟨0x131540, 0x100000, 1, 4, 16, .ro, 0, 0x0, []⟩,
  ⟨0x1315c0, 0x100000, 1, 4, 16, .ro, 0, 0x0, []⟩,
  ⟨0x131640, 0x100000, 1, 4, 16, .ro, 0, 0x0, []⟩,
  ⟨0x1316c0, 0x100000, 1, 4, 16, .ro, 0, 0x0, []⟩,
  ⟨0x131740, 0x100000, 1, 4, 16, .ro, 0, 0x0, []⟩,
  ⟨0x1317c0, 0x100000, 1, 4, 16, .ro, 0, 0x0, []⟩,
  ⟨0x131840, 0x80, 48, 4, 16, .rw, 0x0, 0x811ffffc, []⟩]

/-- Rows of EVR. -/
def rowsEVR : List RegRow := rowsEVR0 ++ rowsEVR1

/-- Rows of IDN. -/
def rowsIDN : List RegRow := [
  ⟨0x140000, 0x100000, 1, 4, 1, .ro, 0x0, 0x0, []⟩,
  ⟨0x140004, 0x100000, 1, 4, 1, .w1c, 0x0, 0x1f, []⟩,
  ⟨0x140008, 0x100000, 1, 4, 1, .rw, 0x0, 0x1f, []⟩,
  ⟨0x14000c, 0x100000, 1, 4, 1, .ro, 0x1ffec000, 0x0, []⟩,
  ⟨0x140010, 0x100000, 1, 4, 1, .wo, 0x0, 0x0, []⟩,
  ⟨0x140014, 0x100000, 1, 4, 1, .rw, 0x0, 0xffffffff, []⟩,
  ⟨0x140018, 0x100000, 1, 4, 1, .ro, 0x0, 0x0, []⟩]

/-- Rows of TST. -/
def rowsTST : List RegRow := [
  ⟨0x150000, 0x100000, 1, 4, 1, .w1c, 0x0, 0xff, []⟩,
  ⟨0x150004, 0x100000, 1, 4, 1, .rw, 0x0, 0xff, []⟩,
  ⟨0x150100, 0x40, 8, 4, 1, .rw, 0x0, 0x3fff, []⟩,
  ⟨0x150104, 0x40, 8, 4, 1, .wo, 0x0, 0x0, []⟩,
  ⟨0x150108, 0x40, 8, 4, 1, .ro, 0x0, 0x0, []⟩,
  ⟨0x15010c, 0x40, 8, 4, 1, .rw, 0x0, 0xffffffff, []⟩,
  ⟨0x150110, 0x40, 8, 4, 1, .ro, 0x0, 0x0, []⟩,
  ⟨0x150114, 0x40, 8, 4, 1, .rw, 0x1900, 0xffffffff, [⟨0,32,1000,6400⟩]⟩,
  ⟨0x150118, 0x40, 8, 8, 1, .ro, 0x0, 0x0, []⟩,
  ⟨0x15011c, 0x40, 8, 8, 1, .ro, 0x0, 0x0, []⟩,
  ⟨0x150120, 0x40, 8, 4, 1, .rw, 0x0, 0xffffffff, []⟩,
  ⟨0x150124, 0x40, 8, 4, 1, .rw, 0x0, 0xffffffff, []⟩,
  ⟨0x150128, 0x40, 8, 4, 1, .rw, 0x0, 0x3ffffff, [⟨16,10,150,800⟩]⟩,
  ⟨0x15012c, 0x40, 8, 4, 1, .ro, 0x0, 0x0, []⟩]

/-- Rows of NOI. -/
def rowsNOI : List RegRow := [
  ⟨0x160000, 0x100000, 1, 4, 1, .rw, 0x1, 0x1, []⟩,
  ⟨0x160004, 0x100000, 1, 4, 1, .ro, 0x0, 0x0, []⟩,
  ⟨0x160008, 0x100000, 1, 4, 1, .w1c, 0x0, 0x3f, []⟩,
  ⟨0x16000c, 0x100000, 1, 4, 1, .rw, 0x0, 0x3f, []⟩,
  ⟨0x160010, 0x100000, 1, 4, 1, .ro, 0x0, 0x0, []⟩,
  ⟨0x160014, 0x100000, 1, 4, 1, .ro, 0xc0a9, 0x0, []⟩,
  ⟨0x160018, 0x100000, 1, 4, 1, .rw, 0x3b6, 0x3ff, [⟨0,10,100,950⟩]⟩,
  ⟨0x16001c, 0x100000, 1, 4, 1, .rw, 0xa, 0xffff, [⟨0,16,1,65535⟩]⟩,
  ⟨0x160020, 0x100000, 1, 4, 1, .ro, 0x0, 0x0, []⟩,
  ⟨0x160024, 0x100000, 1, 4, 1, .wo, 0x0, 0x0, []⟩,
  ⟨0x160028, 0x100000, 1, 4, 1, .rwl, 0x0, 0x1fffff00, []⟩,
  ⟨0x16002c, 0x100000, 1, 4, 1, .wo, 0x0, 0x0, []⟩,
  ⟨0x160030, 0x100000, 1, 4, 1, .ro, 0x0, 0x0, []⟩,
  ⟨0x160034, 0x100000, 1, 4, 1, .ro, 0x0, 0x0, []⟩,
  ⟨0x160038, 0x100000, 1, 4, 1, .ro, 0x0, 0x0, []⟩,
  ⟨0x16003c, 0x100000, 1, 4, 1, .ro, 0x0, 0x0, []⟩,
  ⟨0x160040, 0x100000, 1, 4, 1, .ro, 0x0, 0x0, []⟩]

/-- Rows of SEC. -/
def rowsSEC : List RegRow := [
  ⟨0x170000, 0x100000, 1, 4, 1, .ro, 0x0, 0x0, []⟩,
  ⟨0x170004, 0x100000, 1, 4, 1, .rw, 0x0, 0x1, []⟩,
  ⟨0x170008, 0x100000, 1, 4, 1, .w1c, 0x0, 0xf, []⟩,
  ⟨0x17000c, 0x100000, 1, 4, 1, .rw, 0x0, 0xf, []⟩,
  ⟨0x170010, 0x100000, 1, 4, 1, .ro, 0x0, 0x0, []⟩,
  ⟨0x170014, 0x100000, 1, 4, 1, .ro, 0x0, 0x0, []⟩,
  ⟨0x170018, 0x100000, 1, 4, 1, .ro, 0x0, 0x0, []⟩,
  ⟨0x17001c, 0x100000, 1, 4, 1, .wo, 0x0, 0x0, []⟩,
  ⟨0x170020, 0x100000, 1, 4, 1, .ro, 0x0, 0x0, []⟩,
  ⟨0x170024, 0x100000, 1, 4, 1, .wo, 0x0, 0x0, []⟩,
  ⟨0x170028, 0x100000, 1, 4, 1, .ro, 0x0, 0x0, []⟩,
  ⟨0x170030, 0x100000, 1, 4, 1, .wo, 0x0, 0x0, []⟩,
  ⟨0x170040, 0x100000, 1, 4, 8, .wo, 0x0, 0x0, []⟩,
  ⟨0x170060, 0x100000, 1, 4, 1, .rw, 0x0, 0x1fffffff, []⟩,
  ⟨0x170064, 0x100000, 1, 4, 1, .wo, 0x0, 0x0, []⟩,
  ⟨0x170068, 0x100000, 1, 4, 1, .ro, 0x0, 0x0, []⟩,
  ⟨0x170070, 0x100000, 1, 4, 1, .rw, 0x0, 0x1fffffc0, []⟩,
  ⟨0x170074, 0x100000, 1, 4, 1, .wo, 0x0, 0x0, []⟩,
  ⟨0x170078, 0x100000, 1, 4, 1, .ro, 0x0, 0x0, []⟩,
  ⟨0x170080, 0x100000, 1, 4, 1, .ro, 0x0, 0x0, []⟩]

/-- Rows of ZTB, part 1. -/
def rowsZTB0 : List RegRow := [
  ⟨0x180000, 0x100000, 1, 4, 1, .rw, 0x2, 0x7, [⟨1,2,0,2⟩]⟩,
  ⟨0x180004, 0x100000, 1, 4, 1, .ro, 0x0, 0x0, []⟩,
  ⟨0x180008, 0x100000, 1, 4, 1, .w1c, 0x0, 0xff, []⟩,
  ⟨0x18000c, 0x100000, 1, 4, 1, .rw, 0x0, 0xff, []⟩,
  ⟨0x180010, 0x100000, 1, 4, 1, .rw, 0x0, 0xfffff, [⟨0,20,0,524288⟩]⟩,
  ⟨0x180014, 0x100000, 1, 4, 1, .rw, 0x0, 0x1f1f, []⟩,
  ⟨0x180018, 0x100000, 1, 4, 1, .rw, 0x0, 0xfffff, []⟩,
  ⟨0x18001c, 0x100000, 1, 4, 1, .rw, 0x0, 0xffffffff, []⟩,
  ⟨0x180020, 0x100000, 1, 4, 1, .rw, 0x44053, 0xfff77, [⟨16,4,0,8⟩, ⟨8,8,16,128⟩]⟩,
  ⟨0x180024, 0x100000, 1, 4, 1, .rw, 0x0, 0x1ffffffc, []⟩,
  ⟨0x180028, 0x100000, 1, 4, 1, .rw, 0x0, 0x1ffffff8, []⟩,
  ⟨0x18002c, 0x100000, 1, 4, 1, .rw, 0x0, 0xfffff, []⟩,
  ⟨0x180030, 0x100000, 1, 4, 1, .ro, 0x0, 0x0, []⟩,
  ⟨0x180034, 0x100000, 1, 4, 1, .ro, 0x0, 0x0, []⟩,
  ⟨0x180038, 0x100000, 1, 4, 1, .wo, 0x0, 0x0, []⟩,
  ⟨0x180040, 0x100000, 1, 4, 1, .rw, 0x0, 0x1f3f, []⟩,
  ⟨0x180044, 0x100000, 1, 4, 1, .wo, 0x0, 0x0, []⟩,
  ⟨0x180048, 0x100000, 1, 4, 1, .ro, 0x0, 0x0, []⟩,
  ⟨0x180060, 0x100000, 1, 4, 8, .rw, 0x0, 0xffffffff, []⟩,
  ⟨0x180080, 0x100000, 1, 8, 1, .rw, 0x0, 0xffffffff, []⟩,
  ⟨0x180084, 0x100000, 1, 8, 1, .rw, 0x0, 0x800000ff, []⟩,
  ⟨0x180088, 0x100000, 1, 8, 1, .ro, 0x0, 0x0, []⟩,
  ⟨0x18008c, 0x100000, 1, 8, 1, .ro, 0x0, 0x0, []⟩,
  ⟨0x180090, 0x100000, 1, 4, 1, .wo, 0x0, 0x0, []⟩,
  ⟨0x180094, 0x100000, 1, 4, 1, .ro, 0x0, 0x0, []⟩,
  ⟨0x180098, 0x100000, 1, 8, 1, .ro, 0x0, 0x0, []⟩,
  ⟨0x18009c, 0x100000, 1, 8, 1, .ro, 0x0, 0x0, []⟩,
  ⟨0x180100, 0x100000, 1, 4, 1, .rw, 0x1407d0, 0xffffff, [⟨0,16,500,65535⟩, ⟨16,8,4,255⟩]⟩,
  ⟨0x180104, 0x100000, 1, 4, 1, .rw, 0x258, 0x1fff, []⟩,
  ⟨0x180108, 0x100000, 1, 4, 1, .ro, 0xb000, 0x0, []⟩,
  ⟨0x18010c, 0x100000, 1, 4, 1, .ro, 0x0, 0x0, []⟩,
  ⟨0x180110, 0x100000, 1, 4, 1, .rw, 0x0, 0x0, []⟩,
  ⟨0x180114, 0x100000, 1, 4, 1, .ro, 0x0, 0x0, []⟩,
  ⟨0x180118, 0x100000, 1, 4, 1, .w1c, 0x0, 0xfff, []⟩,
  ⟨0x18011c, 0x100000, 1, 4, 1, .rw, 0x0, 0xfff, []⟩,
  ⟨0x180120, 0x100000, 1, 4, 1, .ro, 0x0, 0x0, []⟩,
  ⟨0x180124, 0x100000, 1, 4, 1, .ro, 0x0, 0x0, []⟩,
  ⟨0x180128, 0x100000, 1, 4, 1, .ro, 0x0, 0x0, []⟩,
  ⟨0x18012c, 0x100000, 1, 4, 1, .ro, 0x0, 0x0, []⟩,
  ⟨0x180130, 0x100000, 1, 4, 1, .ro, 0x0, 0x0, []⟩]

/-- Rows of ZTB, part 2. -/
def rowsZTB1 : List RegRow := [
  ⟨0x180134, 0x100000, 1, 4, 1, .wo, 0x0, 0x0, []⟩,
  ⟨0x180138, 0x100000, 1, 4, 1, .wo, 0x0, 0x0, []⟩,
  ⟨0x18013c, 0x100000, 1, 4, 1, .ro, 0x0, 0x0, []⟩,
  ⟨0x180140, 0x100000, 1, 4, 1, .ro, 0x4, 0x0, []⟩,
  ⟨0x180200, 0x100000, 1, 4, 1, .rw, 0x1f40504, 0xffffff0f, [⟨1,3,1,7⟩, ⟨8,8,1,100⟩, ⟨16,16,10,65535⟩]⟩,
  ⟨0x180204, 0x100000, 1, 4, 1, .ro, 0x0, 0x0, []⟩,
  ⟨0x180208, 0x100000, 1, 8, 1, .rw, 0x0, 0xffffff, []⟩,
  ⟨0x18020c, 0x100000, 1, 8, 1, .rw, 0x0, 0x8000ffff, []⟩,
  ⟨0x180210, 0x100000, 1, 4, 1, .rw, 0x0, 0xffffffff, []⟩,
  ⟨0x180214, 0x100000, 1, 4, 1, .ro, 0x0, 0x0, []⟩,
  ⟨0x180218, 0x100000, 1, 4, 1, .ro, 0x0, 0x0, []⟩,
  ⟨0x18021c, 0x100000, 1, 4, 1, .ro, 0x0, 0x0, []⟩,
  ⟨0x180220, 0x100000, 1, 4, 1, .ro, 0x0, 0x0, []⟩,
  ⟨0x180228, 0x100000, 1, 8, 1, .ro, 0x0, 0x0, []⟩,
  ⟨0x18022c, 0x100000, 1, 8, 1, .ro, 0x0, 0x0, []⟩,
  ⟨0x180230, 0x100000, 1, 4, 1, .w1c, 0x0, 0x3f, []⟩,
  ⟨0x180234, 0x100000, 1, 4, 1, .rw, 0x0, 0x3f, []⟩,
  ⟨0x180280, 0x100000, 1, 4, 1, .rw, 0x0, 0xfffff, []⟩,
  ⟨0x180284, 0x100000, 1, 4, 1, .rw, 0x0, 0xffffffff, []⟩,
  ⟨0x180288, 0x100000, 1, 4, 1, .wo, 0x0, 0x0, []⟩,
  ⟨0x18028c, 0x100000, 1, 4, 1, .ro, 0x0, 0x0, []⟩,
  ⟨0x180290, 0x100000, 1, 4, 1, .wo, 0x0, 0x0, []⟩,
  ⟨0x180294, 0x100000, 1, 4, 1, .ro, 0x0, 0x0, []⟩]

/-- Rows of ZTB. -/
def rowsZTB : List RegRow := rowsZTB0 ++ rowsZTB1

/-- The rows of register block `b` (the 25 blocks of R543, 64 KiB each). -/
def blockRows (b : Nat) : List RegRow :=
  match b with
  | 0 => rowsSYS
  | 1 => rowsECC
  | 2 => rowsCCH
  | 3 => rowsCIS
  | 4 => rowsRUN
  | 5 => rowsETH0
  | 6 => rowsETH1
  | 7 => rowsNQE
  | 8 => rowsCPH
  | 9 => rowsANG
  | 10 => rowsTSQA
  | 11 => rowsTSQB
  | 12 => rowsLANE
  | 13 => rowsSRV
  | 14 => rowsSPN
  | 15 => rowsWEIR
  | 16 => rowsSLU
  | 17 => rowsTHM
  | 18 => rowsCAL
  | 19 => rowsEVR
  | 20 => rowsIDN
  | 21 => rowsTST
  | 22 => rowsNOI
  | 23 => rowsSEC
  | 24 => rowsZTB
  | _ => []

/-- The number of register blocks (R543). -/
abbrev numBlocks : Nat := 25

/-- The row that covers the register word at offset `a`, if one does. -/
def regRow (a : Nat) : Option RegRow := (blockRows (a / 0x10000)).find? (fun r => r.covers a)

/-- The register lists of the fixed channels of the event recorder (R475). -/
def evrFixedRegs (ch : Nat) : List Nat :=
  match ch with
  | 0 => [Reg.SEC_STS, Reg.SEC_FWVER, Reg.TSQ_UCVER 0, Reg.SEC_ARB, Reg.SYS_RSTCAUSE, Reg.ECC_FILLTIME, Reg.SEC_BOOTTIME]
  | 1 => [Reg.IDN_STS, Reg.SYS_STS, Reg.LANE_ACFG 0, Reg.LANE_ACFG 1, Reg.SLU_SPNMAX, Reg.SLU_VCMMAX0, Reg.SLU_VCMMAX1]
  | 2 => [Reg.SYS_MODE, Reg.SYS_MREQ, Reg.NQE_PSCUR, Reg.SPN_SPEED, Reg.THM_TEMP]
  | 3 => [Reg.SYS_SHCAUSE, Reg.SYS_SHALL, Reg.SEC_STS, Reg.ECC_STS, Reg.SPN_STS, Reg.THM_TEMP, Reg.SYS_CLKSTS]
  | 4 => [Reg.SYS_AHCAUSE, Reg.SYS_LANEFAIL, Reg.SRV_OVR 0, Reg.SRV_OVR 1, Reg.TSQ_SEVT 0, Reg.TSQ_SEVT 1]
  | 5 => [Reg.SYS_RSTCAUSE, Reg.CCH_WDSTS, Reg.CCH_WDCNT, Reg.SYS_MODE, Reg.NQE_INFL]
  | 6 => [Reg.WEIR_V12, Reg.WEIR_I12, Reg.THM_I5, Reg.SPN_SPEED, Reg.SYS_MODE, Reg.SLU_STS]
  | 7 => [Reg.SLU_STS, Reg.SLU_EVT, Reg.SLU_WGSTS 0, Reg.SLU_WGSTS 1, Reg.SLU_WGSTS 2, Reg.SLU_WGSTS 3, Reg.SLU_WGSTS 4, Reg.SLU_WGSTS 5, Reg.SLU_WGSTS 6, Reg.SLU_WGSTS 7, Reg.SRV_SHK 0, Reg.SRV_SHK 1, Reg.SRV_SHK 2]
  | 8 => [Reg.SPN_STS, Reg.SPN_SPEED, Reg.SPN_LOSCNT, Reg.SPN_RFCNT, Reg.WEIR_WIN, Reg.WEIR_OUT, Reg.ANG_STS]
  | 9 => [Reg.SRV_STS 0, Reg.SRV_OVR 0, Reg.SRV_STS 1, Reg.SRV_OVR 1, Reg.ANG_STS]
  | 10 => [Reg.ECC_UEADDR, Reg.ECC_UESRC, Reg.ECC_UECNT, Reg.CCH_L2UECNT, Reg.CIS_ERRCNT, Reg.CIS_FREECNT]
  | 11 => [Reg.THM_TEMP, Reg.THM_LADDER, Reg.THM_CAPS, Reg.THM_PIN, Reg.THM_I5]
  | 12 => [Reg.ZTB_WPEVT, Reg.ZTB_EVT, Reg.ZTB_VFCNT, Reg.ZTB_RBCNT, Reg.ZTB_SLNPEND, Reg.ZTB_ACTZ]
  | 13 => [Reg.SEC_STS, Reg.SEC_FWVER, Reg.SEC_ARB, Reg.SEC_OTPST, Reg.SEC_OTPRES, Reg.CPH_STS, Reg.NQE_FWACT]
  | 14 => [Reg.CAL_RES, Reg.CAL_REF, Reg.CAL_COUNT, Reg.CAL_SEQ, Reg.CAL_GAIN 2, Reg.CAL_OFS 2]
  | 15 => [Reg.EVR_STS, Reg.EVR_EVT, Reg.EVR_LOGPOS, Reg.EVR_CLRCNT, Reg.EVR_MIRPOSA, Reg.EVR_MIRPOSB]
  | _ => []

/-- The value of EVR_CHREGn_m of a fixed channel: its register with VALID set (R475). -/
def evrFixedWord (ch m : Nat) : Nat :=
  match (evrFixedRegs ch)[m]? with
  | some a => a + 2 ^ 31
  | none => 0

/-- The reset value of the register word at offset `a`. Fixed snapshot channels hold the
lists of R475, and channels 7 and 10 a holdoff of 1 ms. -/
def regReset (a : Nat) : BitVec 32 :=
  if 0x131000 ≤ a ∧ a < 0x131800 then
    let ch := (a - 0x131000) / 0x80
    let o := (a - 0x131000) % 0x80
    if 0x40 ≤ o ∧ o % 4 = 0 then BitVec.ofNat 32 (evrFixedWord ch ((o - 0x40) / 4))
    else if o = 0xC ∧ (ch = 7 ∨ ch = 10) then 1000#32
    else 0#32
  else
    match regRow a with
    | some r => BitVec.ofNat 32 r.reset
    | none => 0#32

end Sys2Proof.Machine
end

