-- ==== Sys2Proof/Machine/Store.lean ====
section
/-! DEFINITION. Sparse storage: a list of (key, value) pairs with rising keys, in which no
entry holds the value that its key has when it is not listed. Registers, SRAM, NAND and the
ownership table of the Cistern are kept in this one form. -/

namespace Sys2Proof.Machine

/-- What key `k` holds: its entry, or the value of an unlisted key. -/
def sget {β : Type} (dflt : Nat → β) : List (Nat × β) → Nat → β
  | [], k => dflt k
  | (a, b) :: l, k => if k = a then b else if k < a then dflt k else sget dflt l k

/-- Store `v` at key `k`, keeping the keys rising and listing no value an unlisted key has. -/
def sput {β : Type} [DecidableEq β] (dflt : Nat → β) : List (Nat × β) → Nat → β → List (Nat × β)
  | [], k, v => if v = dflt k then [] else [(k, v)]
  | (a, b) :: l, k, v =>
    if k < a then (if v = dflt k then (a, b) :: l else (k, v) :: (a, b) :: l)
    else if k = a then (if v = dflt k then l else (k, v) :: l)
    else (a, b) :: sput dflt l k v

/-- The canonical form: rising keys, and no entry equal to what its key holds unlisted. -/
def scanon {β : Type} [DecidableEq β] (dflt : Nat → β) : List (Nat × β) → Bool
  | [] => true
  | (a, b) :: l =>
    decide (b ≠ dflt a) && l.all (fun e => decide (a < e.1)) && scanon dflt l

/-- Change the element at place `i` of a list; a place beyond the end changes nothing. -/
def modAt {α : Type} (l : List α) (i : Nat) (f : α → α) : List α := l.modify i f

end Sys2Proof.Machine
end

