-- ==== Sys2Proof/Machine/State.lean ====
section
/-! DEFINITION. The state of the block: every piece of state that the specification gives the
module, as plain data, and the state after power-on reset. Registers are kept in one canonical
list; what no register shows is kept in one structure per chapter. -/

namespace Sys2Proof.Machine

/-- How a command can fail outside the specification's own behaviour. -/
inductive Fault where
  /-- For a command whose operands are no command's of the module. No meaning raises it: the types of the
  operands carry their widths, and every command runs on every operand. Safe. -/
  | badOperand
  deriving DecidableEq, Repr

/-- Commands the model does not run. -/
inductive Refusal where
  /-- Raised by an arm of `exec` that has no meaning yet, by the command's mnemonic. Safe. -/
  | notModelled (mnemonic : String)
  deriving DecidableEq, Repr

/-! ## Memories -/

/-- The condition of one 72-bit SRAM word against its check bits (R343): correct, one bit in
error (data or check bit), more bits in error, or poisoned. -/
inductive EccCond where
  | clean
  | single
  | multi
  | poison
  deriving DecidableEq, Repr

/-- One word of the SRAM: the 64 data bits as a correction would give them, and the
condition of the stored word (R341, R343). -/
structure SramWord where
  data : DWord
  cond : EccCond
  deriving DecidableEq, Repr

/-! ## Event recorder (chapter 18) -/

/-- A trigger that waits for capture: its channel, its TRIG value, and what R473 latches. -/
structure Trigger where
  chan : Nat
  trig : Nat
  clock : Nat
  time : Nat
  angle : Nat
  mode : Nat
  deriving DecidableEq, Repr

/-- A commit of staged records that is running (R479): the log positions whose data is programmed,
each with the ring place of its record, and the next free position. -/
structure LogCommit where
  placed : List (Nat × Nat)
  next : Nat
  deriving DecidableEq, Repr

/-- One gauge as accumulated inside the recorder (R488). -/
structure Gauge where
  bins : List (Nat × Nat)
  count : Nat
  sum : Int
  min : Option Int
  max : Option Int
  cleared : Nat
  clearPending : Bool
  deriving DecidableEq, Repr

/-- A log clear that is running (R484): the CLEARS value and the position before the clear. -/
structure LogClear where
  count : Nat
  oldPos : Nat
  deriving DecidableEq, Repr

/-- State of the event recorder beyond its registers (R471 to R490): triggers that wait for capture,
the clock of each channel's last recorded trigger, the staging ring (its next place, its records
and the clock of the oldest), whether a commit is due at once, whether the log has been scanned, the commit that runs, the
clear that runs, the mirror's failures and stops and the sector of NSID 1 that it last wrote (its LBA and
bytes), the clock from which the period of each channel of KIND 3 counts, the gauges, and the number of the
millisecond in which they were last published. -/
structure EvrState where
  waiting : List Trigger
  lastRec : List (Nat × Nat)
  stgHead : Nat
  stgCount : Nat
  stgOldest : Nat
  urgent : Bool
  scanned : Bool
  commit : Option LogCommit
  clear : Option LogClear
  mirFailA : Nat
  mirFailB : Nat
  mirStopA : Bool
  mirStopB : Bool
  mirrored : Option (Nat × List Nat)
  periods : List (Nat × Nat)
  gauges : List Gauge
  published : Nat
  deriving DecidableEq, Repr

/-! ## Angle clock (chapter 1) -/

/-- One entry of an angle-event queue (R21): action, argument, global angle, the counter value
at which it fires, and the number under which the sequencer journals it. -/
structure AngEntry where
  action : Nat
  arg : Nat
  angle : Nat
  due : Nat
  ident : Nat
  deriving DecidableEq, Repr

/-- State of the angle clock beyond its registers. `freq` is F in ticks per fabric clock with
all its fractions, `frac` the fraction of a tick below ANG_NOW, `incs` the ticks counted since
reset, `spread` what remains of a phase correction and `spreadLeft` the ticks over which it is
still spread (R546). `acqStart` is `incs` at the entry to ACQUIRE, `lockRun` the consecutive samples
within tolerance, `curValA` and `curValB` whether the present wedge interval holds a valid sample,
`taken` whether it holds one that the loop takes, `emptyRun` the consecutive wedge intervals that have ended
without one (R14),
`wrapClock` the fabric clock of the last pass through 0, and `histA`, `histB` the last valid
samples in 1/8 ticks, newest first (R19). -/
structure AngState where
  freq : Rat
  frac : Rat
  incs : Nat
  spread : Rat
  spreadLeft : Rat
  coarseFreq : Rat
  queues : List (List AngEntry)
  nextIdent : Nat
  acqStart : Nat
  reBased : Bool
  lockRun : Nat
  curValA : Bool
  curValB : Bool
  taken : Bool
  emptyRun : Nat
  wrapClock : Option Nat
  histA : List Int
  histB : List Int
  deriving DecidableEq, Repr

/-! ## Head slots and lanes (chapter 3) -/

/-- What an assist output is doing (R90). -/
inductive Ramp where
  | idle
  | up
  | hold
  | down
  deriving DecidableEq, Repr

/-- One head slot: gates as its queue has asserted them, the assist state, the rule of R80 on
a write gate inside a settle interval, whether a WG_ON has fired whose WG_OFF has not (R79), the settle
interval that runs (its start in counter values and by the clock) and those that have ended (R78, R80), and
the AOVER frame counts of R411. -/
structure Slot where
  wg : Bool
  rg : Bool
  tg : Bool
  hswHold : Bool
  wgFired : Bool
  settling : Bool
  settleFrom : Nat
  settleClock : Nat
  settles : List (Nat × Nat)
  assist : Bool
  assistEn : Bool
  ramp : Ramp
  rampClock : Nat
  aoverHigh : Nat
  aoverLow : Nat
  aoverFail : Bool
  targetOk : Bool
  deriving DecidableEq, Repr

/-- A sector run that a lane has accepted (R80, R548): the sectors still to deliver, the sector
that comes next, the sectors whose results are out, the counter value and the angle at which the
run was started, the counter value at which the lane was stopped, if it was, and what LANE_START took:
the surface, its band entry and track, the angle of the track's bit 0 under the lane's reader, and the
lane's MODE and BUFL. -/
structure LaneRun where
  left : Nat
  sector : Nat
  done : Nat
  startIncs : Nat
  startAngle : Nat
  stop : Option Nat
  surface : Nat
  entry : Nat
  track : Nat
  base : Nat
  mode : Nat
  bufl : Nat
  deriving DecidableEq, Repr

/-- One read-channel lane: the fields that LANE microwords program, the sync half-widths set by
SYNC_OPEN (counter value and half-width, newest first), the run in progress, the changes of its read gate
since the run was started (counter value and level, newest first), the counter value at which it last
missed a result (R438), the equaliser taps in effect (R72), and the taps of a trailing lane's write-coupling
filter (R77). -/
structure Lane where
  mode : Nat
  track : Nat
  first : Nat
  bufl : Nat
  band : Nat
  halves : List (Nat × Option Nat)
  run : Option LaneRun
  gates : List (Nat × Bool)
  missedAt : Option Nat
  taps : List Nat
  wcc : List Nat
  deriving DecidableEq, Repr

/-! ## Track sequencers (chapter 5) -/

/-- One item of a micro-journal with its prior state (R150). -/
inductive JournalItem where
  | arm (ident : Nat)
  | lane (trailing : Bool) (field value : Nat)
  | sres (index : Nat) (prior : Option Word)
  | progP (prior : Nat)
  | progT (prior : Nat)
  | note (prior : Nat)
  deriving DecidableEq, Repr

/-- Execution state of a context: idle, in its routine, or in its preemption exit. -/
inductive CtxPhase where
  | idle
  | run
  | pexit
  deriving DecidableEq, Repr

/-- A descriptor in a context's queue: its SRAM offset and the SEEKs it waits for, taken when
it reaches the head of its queue (R136). -/
structure QueuedDesc where
  offset : Nat
  firmware : Bool
  waitFor : Option Nat
  deriving DecidableEq, Repr

/-- A context of a track sequencer (R132). -/
structure Ctx where
  g : List Word
  z : Bool
  n : Bool
  c : Bool
  stack : List Nat
  journal : List JournalItem
  clocks : Nat
  queue : List QueuedDesc
  desc : Nat
  fw : Bool
  phase : CtxPhase
  pc : Nat
  lastPc : Nat
  waitc : Bool
  wakes : List (Nat × Bool)
  resP : List Word
  resT : List Word
  late : Bool
  ppend : Bool
  ptaken : Bool
  pendS : List Nat
  startRev : Nat
  progP : Nat
  progT : Nat
  note : Nat
  progPC : Nat
  progTC : Nat
  noteC : Nat
  sres : List (Nat × Word)
  maoff : Int
  deriving DecidableEq, Repr

/-- A microcode load or patch that is being checked (R158). -/
structure UcLoad where
  patch : Bool
  source : Nat
  deriving DecidableEq, Repr

/-- One track sequencer: its five contexts, the count of SEEK descriptors that have entered and
left the queue of X4, completed firmware descriptors and UCPAR interrupts of the last second. -/
structure Tsq where
  ctxs : List Ctx
  seeksIn : Nat
  seeksOut : Nat
  svtgt : Nat
  fwcq : List Nat
  ucparClocks : List Nat
  loaded : Bool
  deriving DecidableEq, Repr

/-! ## Zone engine and track-operation builder (chapters 2 and 4) -/

/-- A slip entry that firmware has not acknowledged: its pool index, its zone, and the logical
offset that the slip displaced, which CPTR may reach but not pass (R59). -/
structure PendSlip where
  pool : Nat
  zone : Nat
  offset : Nat
  deriving DecidableEq, Repr

/-- A sector assigned to a fetched write and not yet written, or to be written again after a
rollback: its logical offset and the retained buffer of its data (R99, R112, R121). -/
structure Assigned where
  offset : Nat
  buf : Nat
  deriving DecidableEq, Repr

/-- A written sector that is not yet sealed: its physical index, its buffer while retained,
whether it has been verified (R105), whether it was written under INHIBIT (R119), and when it was written
(R107). -/
structure TailSector where
  phys : Nat
  buf : Option Nat
  verified : Bool
  unguarded : Bool
  written : Nat
  deriving DecidableEq, Repr

/-- What the zone engine keeps of one zone beside its zone-table entry: the assignment end (R99),
the sectors assigned and the written sectors not yet sealed, attempt counts by physical index
(R122), whether CPTR waits for ZTB_OPACK (R125), whether the run in progress was rolled back, so
that its further progress does not count (R121), whether the assignments are to be repaired when
that run ends (R241), the consecutive issues that ended in inhibit (R120), when a write of the zone was last
fetched (R107), and the reloads that have left a sector unclean (R127). -/
structure ZoneWork where
  zone : Nat
  assignEnd : Nat
  queue : List Assigned
  tail : List TailSector
  attempts : List (Nat × Nat)
  waitOpen : Bool
  rolled : Bool
  repair : Bool
  inhibits : Nat
  fetchedAt : Nat
  rereads : Nat
  deriving DecidableEq, Repr

/-- A zone command that waits for tail operations (R66, R129). -/
structure ZoneCommand where
  zone : Nat
  reset : Bool
  newState : Nat
  deriving DecidableEq, Repr

/-- A retained sector of the conventional region: its LBA, its buffer, whether it has been
written and waits for its verify, and how often that has failed (R111). -/
structure ConvSector where
  lba : Nat
  buf : Nat
  written : Bool
  fails : Nat
  deriving DecidableEq, Repr

/-- A zone recovery in progress (R126). -/
structure Recovery where
  zone : Nat
  deriving DecidableEq, Repr

/-- State of the zone engine and builder beyond its registers. Band-table entries are numbers of
256 bits, keyed by 48 * surface + entry (R32, R33). `differs` lists the sectors (surface, track,
sector) whose last read for verification differed from the retained copy (R104), `convInhibits` the
inhibited issues of conventional runs by first LBA, `guardReq` the requested write guard mode
(R118), and `ptlog` the entries of ZTB_PTLOG. Of patrol (R494), `ptDone` is the first sector of its track that
a preempted SCAN has not read, `ptFrom` the clock at which the running SCAN took its head slot, and `ptUsed` a
1 s window with the clocks for which patrol has held one in it. -/
structure ZtbState where
  staged : List (Nat × Nat)
  bands : List (Nat × Nat)
  layoutCheck : Bool
  zcmd : Option ZoneCommand
  mapping : Option (Nat × Bool)
  slpend : List PendSlip
  oppend : List Nat
  zones : List ZoneWork
  recovery : Option Recovery
  conv : List ConvSector
  convInhibits : List (Nat × Nat)
  differs : List (Nat × Nat × Nat)
  guardReq : Nat
  ptlog : List Nat
  ptDone : Nat
  ptFrom : Option Nat
  ptUsed : Nat × Nat
  deriving DecidableEq, Repr

/-! ## Servo control engine (chapter 6) -/

/-- States of one control law: the state-space block, the biquads in direct form II transposed,
the integrator, the last output and whether the transition limiter runs (R169, R185). -/
structure Law where
  x : List Rat
  bq : List (Rat × Rat)
  integ : Rat
  out : Rat
  limiting : Bool
  deriving DecidableEq, Repr

/-- What the engine follows of one slot: the two previous errors, runs of missing and of valid
samples, the run of outputs at the limit, the run of samples that ends an out-of-reach
condition, valid samples still needed after a head change (R175), whether the head has changed since the last
sample, the percentage of R179, and whether the law starts anew at the next sample that is kept (R175, R187). -/
structure SrvSlot where
  ePrev : Rat
  ePrev2 : Rat
  missing : Nat
  valid : Nat
  missed : Bool
  sat : Nat
  reachRun : Nat
  headWait : Nat
  headChanged : Bool
  pct : Rat
  fresh : Bool
  deriving DecidableEq, Repr

/-- A seek profile (R176): the reference it started from, its target, the limits latched at its
start, and the samples since its start. -/
structure Profile where
  pos0 : Rat
  vel0 : Rat
  acc0 : Rat
  target : Rat
  vmax : Rat
  amax : Rat
  jmax : Rat
  n : Nat
  deriving DecidableEq, Repr

/-- The output set of a computed sample that is not yet applied (R161, R163): the commands in fp32
before the Sluice's clamps, the cause of an overrun (0 TIME, 1 NONFINITE, 2 CPAR), and the outputs of the laws
without an injected command (R189). -/
structure OutputSet where
  vcm : Nat
  mav : List Nat
  cause : Option Nat
  lawV : Rat
  lawM : List Rat
  deriving DecidableEq, Repr

/-- A running injection (R189): samples injected and the PRBS register. -/
structure Injector where
  count : Nat
  prbs : Nat
  stop : Bool
  deriving DecidableEq, Repr

/-- Capture state (R190): armed or running, the records written, the decimation counter, and the
records still to store after the trigger of ring mode. -/
structure Capture where
  armed : Bool
  running : Bool
  written : Nat
  decim : Nat
  post : Option Nat
  deriving DecidableEq, Repr

/-- Why an actuator retracts: three overruns in a row (R188), a hold or SAFE-HOLD (R439, R441), the
loss of the servo angle (R205), or an emergency retract (R431, R435). -/
inductive RetractFor where
  | overrun
  | held
  | angleLost
  | emergency
  deriving DecidableEq, Repr

/-- Servo state of one actuator beyond its registers: both banks, the laws, the slots, an anchor
change that waits and the hand-over in progress, the last error of the VCM law, whether the next
sample re-seeds the laws (R184), the profile and its present reference, the samples within the
settle window, output sets not yet applied, outputs of heads no slot has selected any more, the
overrun rule of R187, the retract, injection, capture, SKFAIL events, the shock readings of
the last samples, newest first, the clock at which the last profile ended (R178), and the outputs of the laws
in the set that was applied last (R184). -/
structure Srv where
  bankA : List (Nat × Word)
  bankB : List (Nat × Word)
  law : Law
  ma : List Law
  slots : List SrvSlot
  anchReq : Option Nat
  handover : Option (Rat × Nat)
  vLast : Rat
  reseed : Bool
  profile : Option Profile
  refPos : Rat
  refVel : Rat
  refAcc : Rat
  settleRun : Nat
  pendingOut : List OutputSet
  oldHeadOut : List (Nat × Rat)
  overrunHold : Bool
  retract : Option RetractFor
  injector : Option Injector
  capture : Capture
  capRam : List (Nat × Word)
  skfails : Nat
  shockHist : List (Rat × Rat × Rat)
  profEnd : Nat
  appV : Rat
  appM : List Rat
  deriving DecidableEq, Repr

/-! ## Spindle drive and Weir (chapter 7) -/

/-- What follows when the motor has been braked to a stop and its low sides have been shorted:
PHASE = STOPPED (R213), a start (R206, R209 to R211), or nothing, since the spindle is held (R208). -/
inductive AfterStop where
  | stopped
  | start
  | held
  deriving DecidableEq, Repr

/-- State of the spindle drive and the Weir beyond their registers: consecutive implausible
crossings (R200), the speed estimate in rpm (R199), crossings that MOFF has learned from and MOFF with its fraction
(R202), consecutive good crossings or edges (R203, R206, R209, R210), edges since observation began, the order and interval of
the last comparator edge, hand-over misses of the start (R210), what follows a stop, the clock of the
RUN whose start is not yet at target (R211), the clock at which open loop began while the RAMP
input applies (R216), the counter value of the observer's re-initialisation (R203), the
commutation step (R193), the integrators of the speed loop, the current loop and the two Weir limits
(R217, R218), samples in which the regeneration limit stayed below REGMIN (R215), the injected
demand (R189), samples that IIN won since the governor last looked (R219), the ns from the last crossing to the
last commutation (R198), whether the present PWM period is the second of an alternating pair and whether its
on-state has been ended (R194, R197), whether the last sample demanded braking (R215), whether OBSFAIL has been
counted for the present re-initialisation (R204), the clocks at which PHASE was entered and the last edge came,
and since when the spindle has been synchronised at its target (R208). -/
structure Spn where
  bad : Nat
  est : Rat
  learned : Nat
  moff : Rat
  good : Nat
  edges : Nat
  back : Bool
  interval : Option Nat
  misses : Nat
  after : AfterStop
  runClock : Option Nat
  rampStart : Option Nat
  reinit : Option Nat
  step : Nat
  integ : Rat
  ckInteg : Rat
  limI : Rat
  limV : Rat
  below : Nat
  inject : Rat
  govReq : Nat
  lead : Rat
  alt : Bool
  cut : Bool
  demand : Bool
  obsFailed : Bool
  phaseClock : Nat
  edgeClock : Nat
  goodSince : Option Nat
  deriving DecidableEq, Repr


/-! ## Host queueing (chapter 8) -/

/-- Where a command stands between its fetch and its completion (R226, R242): fetched and not
yet begun (which covers every wait of R246), in media execution or waiting for its completion,
or held by firmware. -/
inductive CmdPhase where
  | fetched
  | media
  | firmware
  deriving DecidableEq, Repr

/-- A command in flight: its slot, queue and identifier, what it asks for, its order and its clock of fetch, the
LBAs or the earlier writes that its completion still waits for, and the buffers of its data. `arg` is the
field of its submission entry that its row needs: the action of a Zone Management Send with Select All as
bit 8, the command that an Abort names, the feature or log of its command, or a Sanitize's Dword 10; `arg2`
is a second one. A read that passed to firmware as an exception keeps the clock of that and the first LBA
that failed (R234). -/
structure HostCmd where
  slot : Nat
  assoc : Nat
  sqid : Nat
  cid : Nat
  opcode : Nat
  nsid : Nat
  slba : Nat
  nlb : Nat
  seq : Nat
  fetched : Nat
  phase : CmdPhase
  left : List Nat
  bufs : List Nat
  arg : Nat
  arg2 : Nat
  dw0 : Nat
  dw1 : Nat
  excAt : Option Nat
  badLba : Option Nat
  deriving DecidableEq, Repr

/-- A completion that the queue engine or firmware posts to a host. -/
structure Completion where
  assoc : Nat
  sqid : Nat
  cid : Nat
  status : Nat
  dnr : Bool
  dw0 : Nat
  dw1 : Nat
  deriving DecidableEq, Repr

/-- A connection of an association: its queue (0 the admin queue), the index of its context in SRAM (R228;
firmware keeps those of admin queues), and how it came. -/
structure Conn where
  queue : Nat
  ctx : Option Nat
  path : ConnectPath
  deriving DecidableEq, Repr

/-- An entry of the Error Information log (R234, R263). -/
structure ErrorInfo where
  sqid : Nat
  cid : Nat
  status : Nat
  lba : Option Nat
  deriving DecidableEq, Repr

/-- An association, one controller (R226): its I/O queues, whether its host has authenticated, the
properties CC.EN, CSTS.RDY, CSTS.SHST, CSTS.CFS, its keep-alive time in seconds (0 disabled) with the clock
at which the timer last started, CC whole, the events that Asynchronous Event Configuration enables, the
queue pairs granted, whether it is of a discovery controller (R224), its connections, whether its host has been
challenged (R225), and its Error Information log, newest entry first. -/
structure Assoc where
  id : Nat
  queues : List Nat
  authed : Bool
  en : Bool
  rdy : Bool
  shst : Nat
  cfs : Bool
  kato : Nat
  kaClock : Nat
  cc : Nat
  aec : Nat
  granted : Nat
  discovery : Bool
  conns : List Conn
  challenged : Bool
  errors : List ErrorInfo
  deriving DecidableEq, Repr

/-- A running Sanitize (R260, R261): the overwrite passes left, the pattern of the next pass, whether it is
inverted between passes, and whether the keys are destroyed and the zones emptied, so that NSID 1 is being
written with zeros. -/
structure Sanitize where
  passes : Nat
  pattern : Nat
  invert : Bool
  erased : Bool
  deriving DecidableEq, Repr

/-! ### Data sent to hosts (R101, R232, R233, R236, R237, R239, R255, R446) -/

/-- A power-state descriptor: maximum power in 0.01 W, whether it is operational, and the entry and exit
latencies in µs. -/
structure PowerState where
  power : Nat
  operational : Bool
  entry : Nat
  exit : Nat
  deriving DecidableEq, Repr

/-- What the specification gives of the Identify Controller data; IOCCSZ is in units of 16 bytes, and the
atomic write units are in sectors less one. -/
structure ControllerData where
  discovery : Bool
  mdts : Nat
  acl : Nat
  aerl : Nat
  kas : Nat
  vwc : Nat
  awun : Nat
  awupf : Nat
  ioccsz : Nat
  fwug : Nat
  slots : Nat
  powers : List PowerState
  deriving DecidableEq, Repr

/-- What it gives of the Identify Namespace data: sizes in sectors, and the data and metadata bytes of each
LBA format. -/
structure NamespaceData where
  nsze : Nat
  ncap : Nat
  nuse : Nat
  formats : List (Nat × Nat)
  protection : Nat
  deriving DecidableEq, Repr

/-- What it gives of the Zoned Namespace data: ZSZE in sectors, ZDES in bytes, MAR and MOR less one, whether a
read may cross zones, whether zone capacity varies, and the recommended limits RRL and FRL. -/
structure ZonedData where
  zsze : Nat
  zdes : Nat
  mar : Nat
  mor : Nat
  crossRead : Bool
  varCap : Bool
  rrl : Nat
  frl : Nat
  deriving DecidableEq, Repr

/-- A zone descriptor with its extension (R239). -/
structure ZoneInfo where
  state : Nat
  extValid : Bool
  cap : Nat
  start : Nat
  wp : Nat
  affinity : Nat
  terrace : Nat
  actuator : Nat
  surface : Nat
  nslip : Nat
  deriving DecidableEq, Repr

/-- An entry of the Discovery Log (R224). -/
structure DiscoveryEntry where
  port : Nat
  transport : Transport
  ipv6 : Bool
  addr : List Nat
  service : Nat
  deriving DecidableEq, Repr

/-- Data that a command sends to its host: the bytes of a sector, Identify data, or a log. -/
inductive HostData where
  | sector (lba : Nat) (bytes : List Nat)
  | controller (d : ControllerData)
  | namespaces (l : List Nat)
  | nvm (d : NamespaceData)
  | zoned (d : ZonedData)
  | zasl (n : Nat)
  | errors (l : List ErrorInfo)
  | smart (kelvin : Nat) (warning : Bool)
  | firmwareSlots (next : Nat)
  | effects (admin io : List Nat)
  | sanitizeStatus (run : Option Sanitize) (failed : Bool) (crypto overwrite : Nat)
  | discovery (l : List DiscoveryEntry)
  | zones (extended : Bool) (l : List ZoneInfo)
  deriving DecidableEq, Repr

/-- Data sent for a command. -/
structure Delivery where
  assoc : Nat
  sqid : Nat
  cid : Nat
  data : HostData
  deriving DecidableEq, Repr

/-- State of the queue engine and of the NVMe subsystem beyond its registers: associations,
commands in flight in order of fetch, the entries of NQE_EXQ, completions posted (oldest first),
the fetch counter, the error-recovery limit in 100 ms, the over-temperature threshold of the
host, the Sanitize that runs, whether the last failed and whether it allowed unrestricted exit, whether
authentication is required (0x1103:02), the pieces of a downloaded image by offset, the
firmware activation in progress as its slot, the slot before it and the command slot of its commit, the controller
resets that wait for the end of a pause (R251) with whether the association closes, the power state that
an entry in progress leads to, whether a new target waits for its entry (R256), the I/O queue whose turn it
is with the commands that it has had (R229), the clock at which a media command was last fetched (R486), and the
data sent to hosts, oldest first. -/
structure NqeState where
  assocs : List Assoc
  cmds : List HostCmd
  exq : List (Nat × Nat)
  posted : List Completion
  nextSeq : Nat
  tler : Nat
  tempThr : Nat
  sanitize : Option Sanitize
  sanFailed : Bool
  sanAuse : Bool
  authReq : Bool
  image : List (Nat × List Nat)
  activating : Option (Nat × Nat × Nat)
  delayed : List (Nat × Bool)
  psEntry : Option Nat
  psWant : Bool
  turn : Option (Nat × Nat × Nat)
  mediaClock : Option Nat
  sent : List Delivery
  deriving DecidableEq, Repr

/-! ## Noile (chapter 9) -/

/-- A requester (R282): a session, or a source address and UDP port; and the Ethernet port on which its
message arrived (R266). -/
structure Requester where
  session : Option Nat
  addr : Nat
  udp : Nat
  port : Nat
  deriving DecidableEq, Repr

/-- A session (R287, R288): its ID, its privilege (0 Observer to 3 Factory), the highest SEQ accepted
and those accepted within the 64 below it, the next SEQ sent, the clock of its last message, and the keys of
the request and the response direction. -/
structure NoiSession where
  id : Nat
  priv : Nat
  high : Nat
  seen : List Nat
  txSeq : Nat
  last : Nat
  keyIn : List Nat
  keyOut : List Nat
  deriving DecidableEq, Repr

/-- A request as the engine keeps it: its requester, the fields of its header but SEQ, and its payload. -/
structure NoiRequest where
  who : Requester
  op : Nat
  flags : Nat
  src : Nat
  reqid : Nat
  index : Nat
  sub : Nat
  type : Nat
  offset : Nat
  len : Nat
  payload : List Nat
  deriving DecidableEq, Repr

/-- A request slot in use (R281, R295): the request, its privilege and clock of arrival, whether
firmware has popped it, and whether its deadline has passed. -/
structure NoiSlot where
  slot : Nat
  req : NoiRequest
  priv : Nat
  arrived : Nat
  popped : Bool
  late : Bool
  deriving DecidableEq, Repr

/-- A message that the module sends: to whom, the operation, flags, destination and source node, REQID,
object with its type, segment offset, SEQ, payload, and the UDP payload that carries it. -/
structure NoiMessage where
  who : Requester
  op : Nat
  flags : Nat
  dst : Nat
  src : Nat
  reqid : Nat
  index : Nat
  sub : Nat
  type : Nat
  offset : Nat
  seq : Nat
  payload : List Nat
  wire : List Nat
  deriving DecidableEq, Repr

/-- An entry of the reply cache (R282): the request, its reply (none while INPROG), and the clock at
which the reply was sent. -/
structure NoiCached where
  req : NoiRequest
  reply : Option NoiMessage
  clock : Nat
  deriving DecidableEq, Repr

/-- A subscription (R290, R291): its handle, requester with its node, record, the value last notified, the
clock of the last NOTIFY, the REQID that awaits an ACK with its clock and resends, and a change to merge. -/
structure NoiSub where
  handle : Nat
  who : Requester
  node : Nat
  record : List Nat
  value : List Nat
  last : Option Nat
  await : Option (Nat × Nat × Nat)
  changed : Bool
  deriving DecidableEq, Repr

/-- A segmented write that is open (R285, R286): its requester, object, TOTAL, data and the clock of
its last segment. -/
structure NoiXfer where
  who : Requester
  index : Nat
  sub : Nat
  total : Nat
  data : List Nat
  clock : Nat
  deriving DecidableEq, Repr

/-- State of the Noile engine and of the objects that firmware serves: sessions, request slots, the
slots that wait in NOI_FWQ, the reply cache, subscriptions, segmented writes, broadcast replies that
wait, messages sent (oldest first), the next REQID of a NOTIFY, the generation and content of
DOMAIN objects, the values of settings that no register holds, and the SPDM responses by requester. -/
structure NoiState where
  sessions : List NoiSession
  slots : List NoiSlot
  fwq : List Nat
  cache : List NoiCached
  subs : List NoiSub
  xfers : List NoiXfer
  broadcast : List NoiMessage
  sent : List NoiMessage
  nextReq : Nat
  domains : List ((Nat × Nat) × (Nat × List Nat))
  values : List ((Nat × Nat) × List Nat)
  spdm : List (Requester × List Nat)
  deriving DecidableEq, Repr

/-! ## Ethernet ports and Runnels (chapter 10) -/

/-- A packet in a Runnel (R322): its bytes, with the FCS of a received frame and without that of one to send,
its priority, the timestamp of its reception, whether it asks for an egress timestamp and under which
identifier, and of a frame to send the frame in clear, as its producer gave it. -/
structure Packet where
  bytes : List Nat
  prio : Nat
  stamp : Nat
  tsreq : Bool
  tsid : Nat
  clear : List Nat
  deriving DecidableEq, Repr

/-- Why a port is failed (R306): its LINK fell, MOVE was written, or a link test has it. -/
inductive PortFail where
  | link
  | move
  | test
  deriving DecidableEq, Repr

/-- A MACsec SA entry in use (R311): SCI, key slot, VALID, SSCI, salt, and the highest accepted PN. -/
structure MacSa where
  entry : Nat
  sci : Nat
  kslot : Nat
  valid : Bool
  ssci : Nat
  salt : Nat
  high : Nat
  deriving DecidableEq, Repr

/-- State of one port beyond its registers: SA entries in use, the next PN of each transmit SA, why it
is failed, what auto-negotiation has resolved (MODE and FEC), failed attempts at that ability, the
clock at which no ability was left, the clock of the last rise of LINK, announcements still to
repeat, priorities paused by PFC with the clock of their end, receive traffic classes that are at
XOFF, buffers of frames for firmware, buffers of firmware's frames that wait for room in their
Runnel, with their traffic class, the clocks of the last announcement and of the last PFC frame that stopped
classes, and of the deficit round robin (R316) the deficit of each class in bytes, the class it is at, and
whether that class has had its quantum. -/
structure EthState where
  sas : List MacSa
  txpn : List Nat
  failed : Option PortFail
  resolved : Nat × Nat
  attempts : Nat
  emptied : Option Nat
  linkClock : Nat
  announces : Nat
  paused : List (Nat × Nat)
  xoff : List Nat
  fwrx : List Nat
  fwtx : List (Nat × Nat)
  announceClock : Nat
  pfcClock : Nat
  deficits : List Nat
  drrAt : Nat
  drrOn : Bool
  deriving DecidableEq, Repr

/-- What a port has sent: a frame with its FCS, a PFC frame with its priorities and quanta, or the announcements
of addresses, a gratuitous ARP for each IPv4-mapped one and else an unsolicited Neighbor Advertisement with the
Override flag (R306). -/
inductive Sent where
  | frame (port : Nat) (bytes : List Nat)
  | pfc (port prios quanta : Nat)
  | announce (port : Nat) (addresses : List (List Nat))
  deriving DecidableEq, Repr

/-- State of the ports and Runnels: the ports, the packets in the 32 Runnels, the timestamp FIFO
(TSID, port, time), the port that holds the addresses of each home
port, and what the ports have sent, oldest first. -/
structure NetState where
  ports : List EthState
  runnels : List (List Packet)
  stamps : List (Nat × Nat × Nat)
  holders : List Nat
  sent : List Sent
  deriving DecidableEq, Repr

/-! ## Cistern (chapter 11) -/

/-- What a requester of an allocation last received (R332): its owner ID, the result (0 a buffer,
1 EMPTY, 2 FLOOR, 3 INIT), and the buffer. -/
structure AllocAnswer where
  owner : Nat
  result : Nat
  index : Nat
  deriving DecidableEq, Repr

/-- A give or free that waits while CIS_STS.READY = 0 (R328, R339): a core's store with its value, or an
engine's operation with its requester, buffer and new owner. -/
inductive CisHeld where
  | coreFree (value : Nat)
  | coreGive (value : Nat)
  | give (requester index owner : Nat)
  | free (requester index : Nat)
  deriving DecidableEq, Repr

/-- State of the Cistern beyond its registers and the tags in SRAM: the ownership table (0 FREE
where it lists nothing), the free stack above the buffers that have not been handed out since the
rebuild, the first of those, the entries of CIS_ERRLOG, the requesters that wait, those that lost a
clock and present their request in the next one, whether the queue engine's standing request is for
read-ahead, the gives and frees that wait for READY, oldest first, and the last answer to a request. -/
structure CisState where
  owners : List (Nat × Nat)
  stack : List Nat
  fresh : Nat
  errlog : List Nat
  waiting : List Nat
  again : List Nat
  ahead : Bool
  held : List CisHeld
  last : Option AllocAnswer
  deriving DecidableEq, Repr

/-! ## SRAM controller and core caches (chapter 12) -/

/-- A cached line: its number (offset / 64), whether it is dirty, and its eight words. -/
structure CacheLine where
  line : Nat
  dirty : Bool
  words : List SramWord
  deriving DecidableEq, Repr

/-- State of the SRAM controller beyond its registers (R345, R350, R351): the clock at which the fill
and the present scrub lap began, whether the lap is late, and the corrected words that wait for
their write-back (R348). -/
structure EccState where
  fillStart : Nat
  lapStart : Nat
  late : Bool
  fixes : List Nat
  deriving DecidableEq, Repr

/-- State of the caches and watchdogs beyond their registers (R353 to R363): the lines of L2, those of
the Basin with the most recently used first, the write-back buffer with the oldest first, whether
L2EN was written 1 during a drain, and the clock at which each core's watchdog count began. -/
structure CchState where
  l2 : List CacheLine
  basin : List CacheLine
  wback : List CacheLine
  again : Bool
  kicks : List Nat
  deriving DecidableEq, Repr

/-! ## Cipher lattice (chapter 13) -/

/-- Bytes in two shares, whose XOR they are (R376). -/
structure Shares where
  one : List Nat
  two : List Nat
  deriving DecidableEq, Repr

/-- A loaded key slot (R380): its key and its GHASH subkey in shares, use, check value, fixed field and counter, and
whether it is being destroyed, with or without a retire record (R383, R384). -/
structure KeySlot where
  slot : Nat
  key : Shares
  sub : Shares
  use : Nat
  kcv : Nat
  fixed : Nat
  counter : Nat
  ending : Option Bool
  deriving DecidableEq, Repr

/-- A cipher job (R371 to R375): its number, its source by priority (R370), its operation and slot
(none takes the key map), the fields of the job descriptor, the clock of its arrival, its cluster
and counter blocks while it runs, whether it waits for the journal, its IV, its status, and whether
its invocation has ended. -/
structure CphJob where
  id : Nat
  source : Nat
  op : Nat
  slot : Option Nat
  src : Nat
  dst : Nat
  len : Nat
  aad : Nat
  aadLen : Nat
  lba : Nat
  nsid : Nat
  zone : Nat
  epoch : Nat
  desc : Option Nat
  arrived : Nat
  key : Nat
  cluster : Option Nat
  blocks : Nat
  journal : Bool
  iv : Nat
  status : Option Nat
  ended : Bool
  deriving DecidableEq, Repr

/-- A pair of the nonce journal (R391). -/
structure NoncePair where
  fixed : Nat
  kcv : Nat
  bound : Nat
  retired : Bool
  deriving DecidableEq, Repr

/-- A journal record to be programmed (R389). -/
structure NonceRecord where
  kind : Nat
  fixed : Nat
  kcv : Nat
  bound : Nat
  deriving DecidableEq, Repr

/-- State of the cipher lattice beyond its registers: loaded key slots, jobs in order of issue, the
next job number, completed firmware jobs, journal pairs, records to program with the oldest first,
the failed attempts at that one, the next record sequence number, the copies that a compaction has
still to write, the generate requests since the last reseed of the DRBG, and the states of the mask generators
of the 40 clusters (R376). -/
structure CphState where
  keys : List KeySlot
  jobs : List CphJob
  nextJob : Nat
  fwcq : List Nat
  pairs : List NoncePair
  records : List NonceRecord
  tries : Nat
  seq : Nat
  generated : Nat
  masks : List Nat
  deriving DecidableEq, Repr

/-! ## Trust and the Sluice (chapter 14) -/

/-- An OTP operation that is running (R397, R403). -/
inductive OtpOp where
  | keyHash (n : Nat) (hash : Nat)
  | revoke (n : Nat)
  | arb (v : Nat)
  deriving DecidableEq, Repr

/-- State of the SEC block beyond its registers: the OTP fields (R395; ARB as its count of set
bits, WRAPKEY is the constant `Config.wrapKey`), the operation, verification and signature
that are running, whether the identity key is held (R404), the key that verified the running
firmware, the chain slot 1 rule of R406, REVOKE as the last boot found it (R397), and the
secure-monitor RAM as BOOT loaded it (R398, R401). -/
structure SecState where
  keyHash : List Nat
  revoke : Nat
  arb : Nat
  otp : Option OtpOp
  verify : Option Nat
  sign : Option Nat
  idKey : Bool
  runKey : Nat
  khData : List Word
  chainWritten : Bool
  inForce : Nat
  monitor : List Nat
  deriving DecidableEq, Repr

/-- State of the Sluice beyond its registers: whether a supply lies outside its window, the level of
each FLT_N pin, the token bucket of each port, its level in bytes at a clock (R418), and the limits block's
values for every head, which SURVEY lowers: assist code, bucket capacity and refill fraction (R409); for
each actuator the clock since which FLT_N counts as low without a break (R439), and the clocks of the last
readings above the working and the hard shock limit (R413). -/
structure SluState where
  v12Bad : Bool
  v5Bad : Bool
  fltLowA : Bool
  fltLowB : Bool
  tokens : List (Rat × Nat)
  headLimits : Nat × Nat × Nat
  fltClock : List Nat
  shockClock : Nat × Nat
  deriving DecidableEq, Repr

/-! ## Modes, start-up and resets (chapter 15) -/

/-- A single identity-memory access of firmware that is running (R426): target, word address,
and whether it writes. -/
structure IdnAccess where
  target : Nat
  addr : Nat
  write : Bool
  deriving DecidableEq, Repr

/-- State of the system control block beyond its registers: which actuators have their heads
loaded, the mode a running request aims at, the mode of the transition step in progress, a
request that replaces it (R423), whether heads are being loaded (R424), which actuators wait
for a load after a hold was released, which actuators were disabled at the SURVEY after
power-on (R429), whether READY has been entered since power-on, whether the cores are held,
the identity-memory access in progress, the servo wedges W and the nominal speed of the HDA, whether a power
loss has been declared (R435), whether RESET_N is low, the clock at which power-on reset was released,
whether the spindle's target is the 5,400 rpm of SLOW (R422), the clock at which BOOT began, the
address at which core 0 starts (R401), the rank of a reset that has not ended (R433: 0 power-on, 1
pin, 2 FULL, 3 SUBSYS), and the clock at which the last load of heads began (R424, R439). -/
structure SysState where
  loadedA : Bool
  loadedB : Bool
  target : Option Nat
  step : Option Nat
  next : Option Nat
  loading : Bool
  offA : Bool
  offB : Bool
  offAtPowerA : Bool
  offAtPowerB : Bool
  everReady : Bool
  coresHeld : Bool
  access : Option IdnAccess
  wedges : Nat
  rpm : Nat
  powerLost : Bool
  resetLow : Bool
  powerOnClock : Nat
  slow : Bool
  bootClock : Nat
  entry : Nat
  resetRank : Option Nat
  loadClock : Nat
  deriving DecidableEq, Repr

/-! ## Temperature and throttling (chapter 16) -/

/-- State of the THM block beyond its registers: consecutive samples at or above the hold threshold
(R448), the clock of the last rise that starts or continues a run of rises, the clock from which
every sample lay below REL (R450), consecutive samples in range while BAD (R454), consecutive quiet
governor intervals, whether the 5 V current exceeded its limit in this interval, and the clock at which the
interval began (R453). -/
structure ThmState where
  hot : Nat
  rise : Option Nat
  below : Option Nat
  good : Nat
  quiet : Nat
  exceeded : Bool
  interval : Nat
  deriving DecidableEq, Repr

/-! ## Calibration and link test (chapter 17) -/

/-- A calibration in progress (R462 to R464): the mode it came from, whether it was deferred, whether
the chains are offline, whether it has a result, and the new trims (words of gain and offset of
chains 0 to 5). -/
structure CalRun where
  origin : Nat
  deferred : Bool
  offline : Bool
  measured : Bool
  trims : List Nat
  deriving DecidableEq, Repr

/-- State of the CAL and TST blocks beyond their registers: the calibration in progress, the copy
that holds the valid record, a request for a mode that is held while one runs, and the clock at
which each test began. -/
structure CalState where
  run : Option CalRun
  copy : Nat
  held : Option Nat
  tests : List Nat
  deriving DecidableEq, Repr

/-! ## Archival operations (chapter 19) -/

/-- How a copy reads a zone: the offset up to which reads have reached the cipher, that up to which
they have come out of it good, the clock since which the sector at the latter has failed (R234), and
the buffers whose jobs run, with their offsets. -/
structure CopyReader where
  next : Nat
  ready : Nat
  failAt : Option Nat
  jobs : List (Nat × Nat)
  deriving DecidableEq, Repr

/-- A rewrap in progress (R498): its zones and key slot, whether its COMMIT has been acknowledged,
whether the reset of its last phase waits, its reader, and the buffers being encrypted. -/
structure RewrapRun where
  src : Nat
  tgt : Nat
  slot : Nat
  committed : Bool
  waiting : Bool
  reader : CopyReader
  encs : List Nat
  deriving DecidableEq, Repr

/-- An entry of the peer stream that runs (R503): its place in the plan, the source's CPTR, the
sectors of one append, its reader, good sectors not yet acknowledged (offset and buffer), the offset up
to which appends have been sent, the sectors acknowledged, appends in flight (offset and length),
whether one append at a time is sent, whether a returned LBA has differed, and whether its Flush is out. -/
structure StreamEntry where
  entry : Nat
  size : Nat
  chunk : Nat
  reader : CopyReader
  held : List (Nat × Nat)
  issued : Nat
  done : Nat
  flying : List (Nat × Nat)
  single : Bool
  mismatch : Bool
  flush : Bool
  deriving DecidableEq, Repr

/-- Whether the peer stream runs (R506): not started, running, paused by PAUSE or ABORT, or paused
by itself until it can resume. -/
inductive StreamMode where
  | off
  | running
  | paused
  | suspended
  deriving DecidableEq, Repr

/-- What the module sends to the peer subsystem (R502, R503): entries by their place in the plan. -/
inductive PeerOp where
  | connect
  | append (entry lba sectors : Nat)
  | flush (entry : Nat)
  | resetZone (entry : Nat)
  deriving DecidableEq, Repr

/-- State of rewrap and peer stream beyond their registers: the rewrap in progress, the state byte
of each plan entry (0 where it lists none), the stream's mode and its running entries, the bytes that
the peer has acknowledged, what the module has sent to it (oldest first), and buffers of copies that
have ended whose cipher jobs still run. -/
structure ArcState where
  rewrap : Option RewrapRun
  states : List Nat
  mode : StreamMode
  entries : List StreamEntry
  bytes : Nat
  sent : List PeerOp
  orphans : List Nat
  deriving DecidableEq, Repr

/-! ## Package, TAP and NAND (chapters 20 and 21) -/

/-- What the TAP executes (R530). -/
inductive TapInstr where
  | bypass
  | idcode
  | sample
  | extest
  | extestPulse
  | extestTrain
  | clamp
  | highz
  | fwload
  deriving DecidableEq, Repr

/-- State of the TAP (R530): the instruction it executes, what the last capture put into the register
that it shifts out, and the boundary register's preloaded and driven values. -/
structure TapState where
  instr : TapInstr
  captured : Nat
  boundary : Nat
  driven : Option Nat
  deriving DecidableEq, Repr

/-- A control channel of one actuator (R518, R522 to R525): the word last sent, the heads, codes and
ramp times last sent, register accesses that wait (bits 17:0 of a REG payload, oldest first), the next
refresh word, consecutive errored words and frames, training words received in a row, whether it
trains and whether that is a retraining, the data of the last preamp word, the wedge interval of each
slot's last monitor reading for R93, and whether the actuator's supplies are off. -/
structure ImoneState where
  sent : Nat
  heads : Nat
  codes : List Nat
  ramps : List Nat
  access : List Nat
  refresh : Nat
  errWords : Nat
  errFrames : Nat
  good : Nat
  training : Bool
  again : Bool
  regData : Nat
  wedge : List Nat
  supplyOff : Bool
  deriving DecidableEq, Repr

/-- A store or erase that waits in the NAND controller (R542): its core, its NAND offset, the 64 bits
of a store, whether an erase succeeds, and when it was posted. -/
structure NandPost where
  core : Nat
  off : Nat
  data : Option DWord
  ok : Bool
  clock : Nat
  deriving DecidableEq, Repr

/-- State of the NAND controller (R542): the stores and erases that wait, the oldest first, and the
cores with a failed store or erase since their last load. -/
structure NandState where
  posts : List NandPost
  failed : List Nat
  deriving DecidableEq, Repr

/-! ## The whole state -/

/-- The state of the block. -/
structure State where
  /-- Commands that wait, oldest first. -/
  pending : List Instr
  /-- How many free values have been drawn: the field of the model that free values are drawn with, not state of the module. -/
  draws : Nat
  /-- Fabric clocks since power-on reset. -/
  clock : Nat
  /-- Fraction of a nanosecond below the PTP time (R317). -/
  ptpFrac : Rat
  /-- What the last read by a core or by firmware, or by the requester of an SRAM access, returned. -/
  busData : Nat
  /-- The last access by a core ended with a bus error, or an SRAM access of an engine with an engine error (R346). -/
  busError : Bool
  /-- Registers, by offset from 0x4000_0000, in canonical form. -/
  regs : List (Nat × Word)
  /-- SRAM words, by word number, in canonical form (R341). -/
  sram : List (Nat × SramWord)
  /-- NAND bytes, by offset, in canonical form (R542). -/
  nand : List Host.Cell
  /-- Event recorder. -/
  evr : EvrState
  /-- Angle clock. -/
  ang : AngState
  /-- The eight head slots, A0 to B3. -/
  slots : List Slot
  /-- The sixteen lanes, P0 to P7 and T0 to T7. -/
  lanes : List Lane
  /-- Duty-bucket level of each head in full-power microseconds, A then B (R94). -/
  dbLevel : List Rat
  /-- Heads at which the builder has stopped writes, A then B (R96). -/
  dbStop : List Bool
  /-- The two track sequencers. -/
  tsq : List Tsq
  /-- Microcode RAM, the same in both sequencers (R158); unlisted words are 0. -/
  microcode : List (Nat × Word)
  /-- A microcode load or patch in progress (R158). -/
  ucLoad : Option UcLoad
  /-- Zone engine and track-operation builder. -/
  ztb : ZtbState
  /-- Queue engine. -/
  nqe : NqeState
  /-- Cistern. -/
  cis : CisState
  /-- Servo engine, one per actuator. -/
  srv : List Srv
  /-- The angular rates of the reading before the newest (R170). -/
  rates : List Int
  /-- Spindle drive and Weir. -/
  spn : Spn
  /-- Trust block. -/
  sec : SecState
  /-- Sluice. -/
  slu : SluState
  /-- Modes and resets. -/
  sys : SysState
  /-- Noile engine. -/
  noi : NoiState
  /-- Ethernet ports and Runnels. -/
  net : NetState
  /-- SRAM controller. -/
  ecc : EccState
  /-- Core caches and watchdogs. -/
  cch : CchState
  /-- Cipher lattice. -/
  cph : CphState
  /-- Temperature and throttling. -/
  thm : ThmState
  /-- Calibration and link test. -/
  cal : CalState
  /-- Rewrap and peer stream. -/
  arc : ArcState
  /-- JTAG test access port. -/
  tap : TapState
  /-- Control channels to the two preamps. -/
  imone : List ImoneState
  /-- NAND controller. -/
  flash : NandState
  deriving DecidableEq, Repr

/-! ## Reset -/

/-- Recorder state after power-on reset. -/
def Gauge.reset : Gauge := ⟨[], 0, 0, none, none, 0, false⟩

/-- Recorder state after power-on reset. -/
def EvrState.reset : EvrState where
  waiting := []
  lastRec := []
  stgHead := 0
  stgCount := 0
  stgOldest := 0
  urgent := false
  scanned := false
  commit := none
  clear := none
  mirFailA := 0
  mirFailB := 0
  mirStopA := false
  mirStopB := false
  mirrored := none
  periods := []
  gauges := List.replicate 8 Gauge.reset
  published := 0

/-- Angle-clock state after power-on reset: the counter stands at 0 in FREE. -/
def AngState.reset : AngState where
  freq := 0
  frac := 0
  incs := 0
  spread := 0
  spreadLeft := 0
  coarseFreq := 0
  queues := List.replicate 8 []
  nextIdent := 0
  acqStart := 0
  reBased := false
  lockRun := 0
  curValA := false
  curValB := false
  taken := false
  emptyRun := 0
  wrapClock := none
  histA := []
  histB := []

/-- A slot after power-on reset: nothing asserted. -/
def Slot.reset : Slot where
  wg := false
  rg := false
  tg := false
  hswHold := false
  wgFired := false
  settling := false
  settleFrom := 0
  settleClock := 0
  settles := []
  assist := false
  assistEn := false
  ramp := .idle
  rampClock := 0
  aoverHigh := 0
  aoverLow := 0
  aoverFail := false
  targetOk := false

/-- A lane after power-on reset. -/
def Lane.reset : Lane where
  mode := 0
  track := 0
  first := 0
  bufl := 0
  band := 0
  halves := []
  run := none
  gates := []
  missedAt := none
  taps := List.replicate 20 0
  wcc := List.replicate 8 0

/-- A context after power-on reset. -/
def Ctx.reset : Ctx where
  g := List.replicate 16 0#32
  z := false
  n := false
  c := false
  stack := []
  journal := []
  clocks := 0
  queue := []
  desc := 0
  fw := false
  phase := .idle
  pc := 0
  lastPc := 0
  waitc := false
  wakes := []
  resP := []
  resT := []
  late := false
  ppend := false
  ptaken := false
  pendS := []
  startRev := 0
  progP := 0
  progT := 0
  note := 0
  progPC := 0
  progTC := 0
  noteC := 0
  sres := []
  maoff := 0

/-- A sequencer after power-on reset. -/
def Tsq.reset : Tsq where
  ctxs := List.replicate 5 Ctx.reset
  seeksIn := 0
  seeksOut := 0
  svtgt := 0
  fwcq := []
  ucparClocks := []
  loaded := false

/-- Zone engine after power-on reset. -/
def ZtbState.reset : ZtbState where
  staged := []
  bands := []
  layoutCheck := false
  zcmd := none
  mapping := none
  slpend := []
  oppend := []
  zones := []
  recovery := none
  conv := []
  convInhibits := []
  differs := []
  guardReq := 2
  ptlog := []
  ptDone := 0
  ptFrom := none
  ptUsed := (0, 0)

/-- Queue engine after power-on reset: no association exists. -/
def NqeState.reset : NqeState where
  assocs := []
  cmds := []
  exq := []
  posted := []
  nextSeq := 0
  tler := 30
  tempThr := 368
  sanitize := none
  sanFailed := false
  sanAuse := false
  authReq := true
  image := []
  activating := none
  delayed := []
  psEntry := none
  psWant := false
  turn := none
  mediaClock := none
  sent := []

/-- Cistern after power-on reset: nothing is free before the pool is rebuilt (R328). -/
def CisState.reset : CisState where
  owners := []
  stack := []
  fresh := 94208
  errlog := []
  waiting := []
  again := []
  ahead := false
  held := []
  last := none

/-- A control law at rest. -/
def Law.reset : Law where
  x := []
  bq := []
  integ := 0
  out := 0
  limiting := false

/-- A slot's servo state after power-on reset. -/
def SrvSlot.reset : SrvSlot where
  ePrev := 0
  ePrev2 := 0
  missing := 0
  valid := 0
  missed := false
  sat := 0
  reachRun := 0
  headWait := 0
  headChanged := false
  pct := 0
  fresh := false

/-- Capture after power-on reset. -/
def Capture.reset : Capture := ⟨false, false, 0, 0, none⟩

/-- Servo state of an actuator after power-on reset: both banks zero. -/
def Srv.reset : Srv where
  bankA := []
  bankB := []
  law := Law.reset
  ma := List.replicate 4 Law.reset
  slots := List.replicate 4 SrvSlot.reset
  anchReq := none
  handover := none
  vLast := 0
  reseed := false
  profile := none
  refPos := 0
  refVel := 0
  refAcc := 0
  settleRun := 0
  pendingOut := []
  oldHeadOut := []
  overrunHold := false
  retract := none
  injector := none
  capture := Capture.reset
  capRam := []
  skfails := 0
  shockHist := []
  profEnd := 0
  appV := 0
  appM := []

/-- Spindle drive after power-on reset: stopped, with every loop at rest. -/
def Spn.reset : Spn where
  bad := 0
  est := 0
  learned := 0
  moff := 0
  good := 0
  edges := 0
  back := false
  interval := none
  misses := 0
  after := .stopped
  runClock := none
  rampStart := none
  reinit := none
  step := 0
  integ := 0
  ckInteg := 0
  limI := 0
  limV := 0
  below := 0
  inject := 0
  govReq := 0
  lead := 0
  alt := false
  cut := false
  demand := false
  obsFailed := false
  phaseClock := 0
  edgeClock := 0
  goodSince := none

/-- Trust block after power-on reset; KEYHASH0 is set at manufacture. -/
def SecState.reset : SecState where
  keyHash := [Config.keyHash0.toNat, 0, 0, 0]
  revoke := 0
  arb := 0
  otp := none
  verify := none
  sign := none
  idKey := false
  runKey := 0
  khData := List.replicate 8 0#32
  chainWritten := false
  inForce := 0
  monitor := []

/-- Sluice after power-on reset. -/
def SluState.reset : SluState where
  v12Bad := false
  v5Bad := false
  fltLowA := false
  fltLowB := false
  tokens := [(65536, 0), (65536, 0)]
  headLimits := (0, 0, 0)
  fltClock := [0, 0]
  shockClock := (0, 0)

/-- Modes after power-on reset. -/
def SysState.reset : SysState where
  loadedA := false
  loadedB := false
  target := none
  step := none
  next := none
  loading := false
  offA := false
  offB := false
  offAtPowerA := false
  offAtPowerB := false
  everReady := false
  coresHeld := true
  access := none
  wedges := 0
  rpm := 0
  powerLost := false
  resetLow := false
  powerOnClock := 0
  slow := false
  bootClock := 0
  entry := 0
  resetRank := some 0
  loadClock := 0

/-- Noile engine after power-on reset. -/
def NoiState.reset : NoiState where
  sessions := []
  slots := []
  fwq := []
  cache := []
  subs := []
  xfers := []
  broadcast := []
  sent := []
  nextReq := 0
  domains := []
  values := []
  spdm := []

/-- A port after power-on reset. -/
def EthState.reset : EthState where
  sas := []
  txpn := [1, 1, 1, 1]
  failed := none
  resolved := (0, 0)
  attempts := 0
  emptied := none
  linkClock := 0
  announces := 0
  paused := []
  xoff := []
  fwrx := []
  fwtx := []
  announceClock := 0
  pfcClock := 0
  deficits := List.replicate 8 0
  drrAt := 0
  drrOn := false

/-- Ports and Runnels after power-on reset: empty. -/
def NetState.reset : NetState where
  ports := [EthState.reset, EthState.reset]
  runnels := List.replicate 32 []
  stamps := []
  holders := [0, 1]
  sent := []

/-- SRAM controller after power-on reset. -/
def EccState.reset : EccState := ⟨0, 0, false, []⟩

/-- Caches after power-on reset: invalid. -/
def CchState.reset : CchState where
  l2 := []
  basin := []
  wback := []
  again := false
  kicks := List.replicate 6 0

/-- Cipher lattice after power-on reset: no slot is loaded (R385). -/
def CphState.reset : CphState where
  keys := []
  jobs := []
  nextJob := 0
  fwcq := []
  pairs := []
  records := []
  tries := 0
  seq := 0
  generated := 0
  masks := List.replicate 40 0

/-- THM block after power-on reset. -/
def ThmState.reset : ThmState := ⟨0, none, none, 0, 0, false, 0⟩

/-- CAL and TST blocks after power-on reset. -/
def CalState.reset : CalState := ⟨none, 0, none, List.replicate 8 0⟩

/-- Rewrap and peer stream after power-on reset. -/
def ArcState.reset : ArcState := ⟨none, [], .off, [], 0, [], []⟩

/-- TAP after power-on reset. -/
def TapState.reset : TapState := ⟨.idcode, 0x1880054B, 0, none⟩

/-- A control channel after power-on reset. -/
def ImoneState.reset : ImoneState where
  sent := 0
  heads := 0xFFFF
  codes := [0, 0, 0, 0]
  ramps := [4, 4, 4, 4]
  access := []
  refresh := 0
  errWords := 0
  errFrames := 0
  good := 0
  training := false
  again := false
  regData := 0
  wedge := [0, 0, 0, 0]
  supplyOff := false

/-- NAND controller after power-on reset. -/
def NandState.reset : NandState := ⟨[], []⟩

/-- The block right after power-on reset (R422, R431, R533). Values that the specification does
not give are named in log entry 3. -/
def State.reset : State where
  pending := []
  draws := 0
  clock := 0
  ptpFrac := 0
  busData := 0
  busError := false
  regs := []
  sram := []
  nand := []
  evr := EvrState.reset
  ang := AngState.reset
  slots := List.replicate 8 Slot.reset
  lanes := List.replicate 16 Lane.reset
  dbLevel := List.replicate 24 0
  dbStop := List.replicate 24 false
  tsq := [Tsq.reset, Tsq.reset]
  microcode := []
  ucLoad := none
  ztb := ZtbState.reset
  nqe := NqeState.reset
  cis := CisState.reset
  srv := [Srv.reset, Srv.reset]
  rates := [0, 0, 0]
  spn := Spn.reset
  sec := SecState.reset
  slu := SluState.reset
  sys := SysState.reset
  noi := NoiState.reset
  net := NetState.reset
  ecc := EccState.reset
  cch := CchState.reset
  cph := CphState.reset
  thm := ThmState.reset
  cal := CalState.reset
  arc := ArcState.reset
  tap := TapState.reset
  imone := [ImoneState.reset, ImoneState.reset]
  flash := NandState.reset

end Sys2Proof.Machine
end

