-- ==== Sys2Proof/Machine/Ops.lean ====
section
/-! DEFINITION. The named operations over registers, memories, counters, event bits, event
recorder triggers, class S causes and the module's mode. Every meaning reads and writes the
state through these. -/

namespace Sys2Proof.Machine

/-! ## Registers -/

/-- The word stored at register offset `a`. -/
def rd (s : State) (a : Nat) : Word := sget regReset s.regs a

/-- Store `v` at register offset `a`. -/
def wr (s : State) (a : Nat) (v : Word) : State := { s with regs := sput regReset s.regs a v }

/-- The field of `w` bits at bit `lo` of register `a`. -/
def getF (s : State) (a lo w : Nat) : Nat := bitsOf (rd s a).toNat lo w

/-- Replace the field of `w` bits at bit `lo` of the number `x`. -/
def putBits (x lo w v : Nat) : Nat :=
  x - bitsOf x lo w * 2 ^ lo + (v % 2 ^ w) * 2 ^ lo

/-- Write the field of `w` bits at bit `lo` of register `a`. -/
def setF (s : State) (a lo w v : Nat) : State :=
  wr s a (BitVec.ofNat 32 (putBits (rd s a).toNat lo w v))

/-- Bit `i` of register `a`. -/
def bit (s : State) (a i : Nat) : Bool := (rd s a).getLsbD i

/-- Write bit `i` of register `a`. -/
def setBit (s : State) (a i : Nat) (b : Bool) : State := setF s a i 1 (if b then 1 else 0)

/-- The number in register `a`. -/
def rdN (s : State) (a : Nat) : Nat := (rd s a).toNat

/-- Write a number to register `a`, modulo 2^32. -/
def wrN (s : State) (a v : Nat) : State := wr s a (BitVec.ofNat 32 v)

/-- The number in the 64-bit register at `a` (R7). -/
def rd64 (s : State) (a : Nat) : Nat := rdN s a + 2 ^ 32 * rdN s (a + 4)

/-- Write the 64-bit register at `a` (R7). -/
def wr64 (s : State) (a v : Nat) : State := wrN (wrN s a v) (a + 4) (v / 2 ^ 32)

/-- A counter of `w` bits that stays at its largest value. -/
def satInc (s : State) (a w : Nat) : State :=
  if rdN s a + 1 < 2 ^ w then wrN s a (rdN s a + 1) else wrN s a (2 ^ w - 1)

/-- Add `k` to a 32-bit counter that stays at its largest value. -/
def satAdd (s : State) (a k : Nat) : State := wrN s a (min (rdN s a + k) (2 ^ 32 - 1))

/-- A counter that wraps at 2^32. -/
def wrapInc (s : State) (a : Nat) : State := wrN s a (rdN s a + 1)

/-- Add `k` to a counter that wraps at 2^32. -/
def wrapAdd (s : State) (a k : Nat) : State := wrN s a (rdN s a + k)

/-! ## Measured registers (R364) -/

/-- CCH_LOAD of core `n`: a percentage, free. -/
def coreLoad (s : State) (n : Nat) : Nat := (Config.measured s.clock (Reg.CCH_LOAD n)).toNat % 101

/-- CCH_LOADALL: the mean of the six (R364). -/
def meanLoad (s : State) : Nat := ((List.range 6).map (coreLoad s)).foldl (· + ·) 0 / 6

/-! ## Plain writes (R8, R9, R544) -/

/-- Replace the bits of `old` that `mask` names by those of `v`. -/
def maskIn (old v mask : Nat) : Nat := Nat.lor (old - Nat.land old mask) (Nat.land v mask)

/-- A register value keeps a field in its range. -/
def rangeOk (v : Nat) (f : FieldRange) : Bool :=
  decide (f.least ≤ bitsOf v f.lo f.width ∧ bitsOf v f.lo f.width ≤ f.most)

/-- A write of `v` to the word at `a` that has no effect but on the register (R8, R9, R544): a W1C
register loses the bits written as 1, a writable one takes its writable bits when every field stays
in its range, and an RWL register only until SLU_LOCK or SEC_LOCK is set. -/
def plainWrite (a v : Nat) (s : State) : State :=
  match regRow a with
  | none => s
  | some r =>
    let n := maskIn (rdN s a) v r.wmask
    let set := if r.ranges.all (rangeOk n) then wrN s a n else s
    match r.acc with
    | .rw => set
    | .rwl => if (rd s Reg.SEC_LOCK).getLsbD 0 || (rd s Reg.SLU_LOCK).getLsbD 0 then s else set
    | .w1c => wrN s a (rdN s a - Nat.land (rdN s a) (Nat.land v r.wmask))
    | .ro => s
    | .wo => s
    | .wok => s

/-! ## Results of accesses -/

/-- A read returns `v`. -/
def answer (v : Nat) (s : State) : State := { s with busData := v, busError := false }

/-- An access that returns nothing completes. -/
def busOk (s : State) : State := { s with busError := false }

/-- An access ends with a bus error (R10). -/
def busFault (s : State) : State := { s with busError := true }

/-! ## Free values -/

/-- Draw a free value of `w` bits; the counter of draws advances. -/
def drawFree (w : Nat) (s : State) : Nat × State :=
  ((Config.freeValue s.draws).toNat % 2 ^ w, { s with draws := s.draws + 1 })

/-! ## SRAM -/

/-- What an unlisted SRAM word holds: zero with correct check bits, as the fill leaves it (R345). -/
def sramDflt (_ : Nat) : SramWord := ⟨0, .clean⟩

/-- SRAM word `i` (bytes 8 i to 8 i + 7). -/
def sramWord (s : State) (i : Nat) : SramWord := sget sramDflt s.sram i

/-- Store SRAM word `i` with its condition. -/
def sramPutWord (s : State) (i : Nat) (w : SramWord) : State :=
  { s with sram := sput sramDflt s.sram i w }

/-- The 64 data bits at SRAM offset `off`, which an engine reads aligned. -/
def sram64 (s : State) (off : Nat) : Nat := (sramWord s (off / 8)).data.toNat

/-- The 32 data bits at SRAM offset `off`, aligned on 4 (little-endian, R6). -/
def sram32 (s : State) (off : Nat) : Nat := sram64 s off / 2 ^ (32 * (off / 4 % 2)) % 2 ^ 32

/-- The 16 data bits at SRAM offset `off`, aligned on 2. -/
def sram16 (s : State) (off : Nat) : Nat := sram64 s off / 2 ^ (16 * (off / 2 % 4)) % 2 ^ 16

/-- The byte at SRAM offset `off`. -/
def sram8 (s : State) (off : Nat) : Nat := sram64 s off / 2 ^ (8 * (off % 8)) % 2 ^ 8

/-- Store 64 bits at SRAM offset `off`, with correct check bits. -/
def sramPut64 (s : State) (off v : Nat) : State :=
  sramPutWord s (off / 8) ⟨BitVec.ofNat 64 v, .clean⟩

/-- Store `w` bits at bit `lo` of the SRAM word that holds `off`, with correct check bits. -/
def sramPutPart (s : State) (off lo w v : Nat) : State :=
  sramPut64 s off (putBits (sram64 s off) lo w v)

/-- Store 32 bits at SRAM offset `off`, aligned on 4. -/
def sramPut32 (s : State) (off v : Nat) : State := sramPutPart s off (32 * (off / 4 % 2)) 32 v

/-- Store 16 bits at SRAM offset `off`, aligned on 2. -/
def sramPut16 (s : State) (off v : Nat) : State := sramPutPart s off (16 * (off / 2 % 4)) 16 v

/-- Store a byte at SRAM offset `off`. -/
def sramPut8 (s : State) (off v : Nat) : State := sramPutPart s off (8 * (off % 8)) 8 v

/-- The `n` bytes from SRAM offset `off` upward. -/
def sramBytes (s : State) (off n : Nat) : List Nat := (List.range n).map (fun i => sram8 s (off + i))

/-- Store bytes from SRAM offset `off` upward. -/
def sramPutBytes (s : State) (off : Nat) : List Nat → State
  | [] => s
  | b :: l => sramPutBytes (sramPut8 s off b) (off + 1) l

/-- The little-endian number that bytes spell. -/
def leNat : List Nat → Nat
  | [] => 0
  | b :: l => b + 256 * leNat l

/-- The big-endian number that bytes spell. -/
def beNat (l : List Nat) : Nat := leNat l.reverse

/-- The `n` little-endian bytes of a number. -/
def leBytes : Nat → Nat → List Nat
  | 0, _ => []
  | n + 1, v => v % 256 :: leBytes n (v / 256)

/-- The `n` big-endian bytes of a number. -/
def beBytes (n v : Nat) : List Nat := (leBytes n v).reverse

/-! ## NAND -/

/-- What an unlisted NAND byte holds: erased, all ones (R542). -/
def nandDflt (_ : Nat) : Byte := 0xFF#8

/-- The byte at NAND offset `off`. -/
def nandByte (s : State) (off : Nat) : Nat := (sget nandDflt s.nand off).toNat

/-- Store a byte at NAND offset `off` as it stands. -/
def nandPutByte (s : State) (off v : Nat) : State :=
  { s with nand := sput nandDflt s.nand off (BitVec.ofNat 8 v) }

/-- Program a byte: each stored bit ANDs into the stored bit (R542). -/
def nandProgByte (s : State) (off v : Nat) : State := nandPutByte s off (Nat.land (nandByte s off) (v % 256))

/-- The `n` bytes from NAND offset `off` upward. -/
def nandBytes (s : State) (off n : Nat) : List Nat := (List.range n).map (fun i => nandByte s (off + i))

/-- Program bytes from NAND offset `off` upward. -/
def nandProg (s : State) (off : Nat) : List Nat → State
  | [] => s
  | b :: l => nandProg (nandProgByte s off b) (off + 1) l

/-- Write bytes to NAND as they stand: a small record that its owner programs anew. -/
def nandWrite (s : State) (off : Nat) : List Nat → State
  | [] => s
  | b :: l => nandWrite (nandPutByte s off b) (off + 1) l

/-- Erase the NAND bytes at `lo` and above, below `hi`. -/
def nandErase (s : State) (lo hi : Nat) : State :=
  { s with nand := s.nand.filter (fun e => decide (e.1 < lo ∨ hi ≤ e.1)) }

/-! ## Time -/

/-- The PTP time, in ns (R317). -/
def ptp (s : State) : Nat := rd64 s Reg.ETH_PTPTIME

/-! ## Modes (R420) -/

namespace Mode
abbrev fill : Nat := 0
abbrev boot : Nat := 1
abbrev survey : Nat := 2
abbrev standby : Nat := 3
abbrev spinning : Nat := 4
abbrev slow : Nat := 5
abbrev ready : Nat := 6
abbrev active : Nat := 7
abbrev calibrate : Nat := 8
abbrev test : Nat := 9
abbrev update : Nat := 10
abbrev safeHold : Nat := 11
end Mode

/-- The major mode, SYS_MODE.MODE. -/
def mode (s : State) : Nat := getF s Reg.SYS_MODE 0 4

/-! ## Event recorder triggers -/

/-- Triggers in order of capture: by fabric clock, and in one clock by channel (R474). -/
def insertTrigger (t : Trigger) : List Trigger → List Trigger
  | [] => [t]
  | u :: l => if u.clock = t.clock ∧ t.chan < u.chan then t :: u :: l else u :: insertTrigger t l

/-- A trigger at this clock is suppressed under R477: a capture of the channel waits, or its
holdoff has not passed since its last recorded trigger. -/
def suppressed (s : State) (ch : Nat) : Bool :=
  s.evr.waiting.any (fun t => t.chan == ch) ||
    match s.evr.lastRec.find? (fun e => e.1 == ch) with
    | some (_, c) => decide (s.clock < c + 1000 * getF s (Reg.EVR_CHHOLD ch) 0 16)
    | none => false

/-- A trigger of channel `ch` with TRIG value `pos` (R472 to R474, R477, R480): it latches the PTP
time, the angle with its state and the clear count, and the mode. -/
def trigger (ch pos : Nat) (s : State) : State :=
  if bit s Reg.EVR_STS 1 then satInc s Reg.EVR_FULLDROP 32
  else if suppressed s ch then satInc s (Reg.EVR_CHSUP ch) 32
  else if 64 ≤ s.evr.waiting.length then satInc s Reg.EVR_STGDROP 32
  else
    let ang := getF s Reg.ANG_NOW 0 22 + 2 ^ 22 * getF s Reg.ANG_STS 0 3
      + 2 ^ 25 * (rdN s Reg.EVR_CLRCNT % 128)
    let t : Trigger := ⟨ch, pos, s.clock, ptp s, ang, mode s⟩
    { s with evr := { s.evr with waiting := insertTrigger t s.evr.waiting } }

/-- The event bits that trigger fixed channels (R475): register, bit, channel, TRIG value. -/
def fixedTriggers : List (Nat × Nat × Nat × Nat) :=
  [ (Reg.IDN_EVT, 0, 1, 0), (Reg.IDN_EVT, 1, 1, 1), (Reg.IDN_EVT, 2, 1, 2), (Reg.IDN_EVT, 3, 1, 3),
    (Reg.SYS_EVT, 2, 4, 0), (Reg.SYS_EVT, 3, 4, 1), (Reg.CCH_EVT, 4, 5, 3),
    (Reg.SLU_EVT, 0, 7, 0), (Reg.SLU_EVT, 1, 7, 1), (Reg.SLU_EVT, 2, 7, 2), (Reg.SLU_EVT, 3, 7, 3),
    (Reg.SLU_EVT, 4, 7, 4), (Reg.SLU_EVT, 7, 7, 5), (Reg.SLU_EVT, 9, 7, 6), (Reg.SLU_EVT, 8, 7, 7),
    (Reg.SPN_EVT, 0, 8, 0), (Reg.SPN_EVT, 2, 8, 1), (Reg.SPN_EVT, 3, 8, 2), (Reg.SPN_EVT, 6, 8, 3),
    (Reg.SPN_EVT, 5, 8, 4), (Reg.SPN_EVT, 9, 8, 5),
    (Reg.SRV_EVT 0, 0, 9, 0), (Reg.SRV_EVT 0, 1, 9, 1), (Reg.SRV_EVT 0, 3, 9, 2),
    (Reg.SRV_EVT 1, 0, 9, 0), (Reg.SRV_EVT 1, 1, 9, 1), (Reg.SRV_EVT 1, 3, 9, 2),
    (Reg.ECC_EVT, 1, 10, 0), (Reg.ECC_EVT, 2, 10, 1), (Reg.ECC_EVT, 6, 10, 2),
    (Reg.CCH_EVT, 2, 10, 3), (Reg.CIS_EVT, 5, 10, 4),
    (Reg.THM_EVT, 6, 11, 0), (Reg.THM_EVT, 3, 11, 1), (Reg.THM_EVT, 4, 11, 2), (Reg.THM_EVT, 5, 11, 3),
    (Reg.THM_EVT, 7, 11, 4),
    (Reg.ZTB_WPEVT, 2, 12, 0), (Reg.ZTB_WPEVT, 5, 12, 1), (Reg.ZTB_WPEVT, 10, 12, 2),
    (Reg.ZTB_WPEVT, 11, 12, 3), (Reg.ZTB_EVT, 1, 12, 4), (Reg.ZTB_EVT, 2, 12, 5), (Reg.ZTB_EVT, 6, 12, 6),
    (Reg.SEC_EVT, 2, 13, 0), (Reg.SEC_EVT, 3, 13, 1), (Reg.NQE_EVT, 7, 13, 2), (Reg.CPH_EVT, 7, 13, 3),
    (Reg.CPH_EVT, 4, 13, 4), (Reg.CPH_EVT, 3, 13, 5),
    (Reg.CAL_EVT, 0, 14, 0), (Reg.CAL_EVT, 1, 14, 1),
    (Reg.EVR_EVT, 4, 15, 3), (Reg.EVR_EVT, 7, 15, 4) ]

/-- The programmable channels, rising, whose KIND 1 names bit `i` of register `a` (R476). -/
def programmedTriggers (s : State) (a i : Nat) : List Nat :=
  s.regs.filterMap fun e =>
    if 0x131800 ≤ e.1 ∧ e.1 < 0x133000 ∧ (e.1 - 0x131000) % 0x80 = 0
        ∧ bitsOf e.2.toNat 0 2 = 1 ∧ bitsOf e.2.toNat 2 19 = a / 4 ∧ bitsOf e.2.toNat 21 5 = i
    then some ((e.1 - 0x131000) / 0x80) else none

/-- Set bit `i` of event register `a`. Every channel that names the bit is triggered, whether
or not the bit was already 1 (R475, R476). -/
def evt (a i : Nat) (s : State) : State :=
  let s := setBit s a i true
  let s := match fixedTriggers.find? (fun e => e.1 == a && e.2.1 == i) with
    | some (_, _, ch, pos) => trigger ch pos s
    | none => s
  if bit s Reg.EVR_CTL 0 then (programmedTriggers s a i).foldl (fun s ch => trigger ch 1 s) s else s

/-- Set the event bit when `c` holds. -/
def evtIf (c : Bool) (a i : Nat) (s : State) : State := if c then evt a i s else s

/-- Enter mode `m`: SYS_MODE keeps the mode left as its previous mode, SYS_MTIME latches the PTP
time, SYS_EVT.MODE is set, and channels 2 and 3 are triggered (R420, R475). -/
def setMode (m : Nat) (s : State) : State :=
  let old := mode s
  if old = m then s else
  let s := setF (setF s Reg.SYS_MODE 8 4 old) Reg.SYS_MODE 0 4 m
  let s := wr64 s Reg.SYS_MTIME (ptp s)
  let s := trigger 2 0 (evt Reg.SYS_EVT 0 s)
  if m = Mode.safeHold then trigger 3 0 s else s

/-! ## Gauges (R488) -/

/-- Gauge `n` takes the sample `v`, in a bin from its LO and WIDTH. -/
def gauge (n : Nat) (v : Int) (s : State) : State :=
  let lo := signedOf 32 (rdN s (Reg.EVR_GLO n))
  let b := min 63 ((v - lo) / (rdN s (Reg.EVR_GW n) : Int)).toNat
  let upd (g : Gauge) : Gauge :=
    let k := ((g.bins.find? fun e => e.1 == b).map Prod.snd).getD 0
    { g with
      bins := (b, k + 1) :: g.bins.filter fun e => e.1 != b
      count := g.count + 1
      sum := g.sum + v
      min := some (match g.min with | some m => if v < m then v else m | none => v)
      max := some (match g.max with | some m => if m < v then v else m | none => v) }
  { s with evr := { s.evr with gauges := modAt s.evr.gauges n upd } }

/-! ## Slots, lanes, contexts and actuators -/

/-- The actuator of slot `n` (0 A, 1 B). -/
def slotAct (n : Nat) : Nat := n / 4

/-- Head slot `n`, A0 to B3. -/
def slotAt (s : State) (n : Nat) : Slot := s.slots.getD n Slot.reset

/-- Change head slot `n`. -/
def modSlot (s : State) (n : Nat) (f : Slot → Slot) : State := { s with slots := modAt s.slots n f }

/-- Lane `n`, P0 to P7 and T0 to T7 (R67). -/
def laneAt (s : State) (n : Nat) : Lane := s.lanes.getD n Lane.reset

/-- Change lane `n`. -/
def modLane (s : State) (n : Nat) (f : Lane → Lane) : State := { s with lanes := modAt s.lanes n f }

/-- The lane number of slot `n`'s primary or trailing lane (R67). -/
def laneOf (n : Nat) (trailing : Bool) : Nat := if trailing then n + 8 else n

/-- Track sequencer `q` (0 TSQA, 1 TSQB). -/
def tsqAt (s : State) (q : Nat) : Tsq := s.tsq.getD q Tsq.reset

/-- Change track sequencer `q`. -/
def modTsq (s : State) (q : Nat) (f : Tsq → Tsq) : State := { s with tsq := modAt s.tsq q f }

/-- Context `x` of sequencer `q`. -/
def ctxAt (s : State) (q x : Nat) : Ctx := (tsqAt s q).ctxs.getD x Ctx.reset

/-- Change context `x` of sequencer `q`. -/
def modCtx (s : State) (q x : Nat) (f : Ctx → Ctx) : State :=
  modTsq s q (fun t => { t with ctxs := modAt t.ctxs x f })

/-- A routine is in progress in the context. -/
def Ctx.busy (c : Ctx) : Bool := c.phase == .run || c.phase == .pexit

/-- Word `k` of the descriptor that context `x` of sequencer `q` runs (R133). -/
def descWord (s : State) (q x k : Nat) : Nat := sram32 s ((ctxAt s q x).desc + 4 * k)

/-- The operation code of the running descriptor (R134). -/
def descOp (s : State) (q x : Nat) : Nat := bitsOf (descWord s q x 0) 0 8

/-- Record class S cause `cause` in TSQ_SEVT of sequencer `q` (R152, R156). -/
def recordS (q cause : Nat) (s : State) : State :=
  evt (Reg.TSQ_EVT q) 4 (evt (Reg.TSQ_SEVT q) cause s)

/-- A class S cause reaches context `x` of sequencer `q`. A context with no routine in progress
records it only; a routine stops at it until CLASS_S_INTERRUPT ends it (R153, R156). -/
def raiseS (q x cause : Nat) (s : State) : State :=
  let c := ctxAt s q x
  if c.busy then
    if cause ∈ c.pendS then s else modCtx s q x (fun c => { c with pendS := c.pendS ++ [cause] })
  else recordS q cause s

/-! ### Class S causes by code (R152) -/
namespace SCause
abbrev inhibit : Nat := 0
abbrev shock : Nat := 1
abbrev syncLoss : Nat := 2
abbrev pfault : Nat := 3
abbrev head : Nat := 4
abbrev illop : Nat := 5
abbrev segovr : Nat := 6
abbrev jovf : Nat := 7
abbrev armerr : Nat := 8
abbrev stack : Nat := 9
abbrev pexit : Nat := 10
abbrev ucpar : Nat := 11
abbrev kill : Nat := 12
abbrev optime : Nat := 13
end SCause

/-- Raise a class S cause in every context of sequencer `q`. -/
def raiseAll (q cause : Nat) (s : State) : State :=
  (List.range 5).foldl (fun s x => raiseS q x cause s) s

/-- The context runs WRITE_RUN or PREBIAS. -/
def writing (s : State) (q x : Nat) : Bool :=
  (ctxAt s q x).busy && (descOp s q x == 3 || descOp s q x == 8)

/-- Heads of actuator `a` are loaded. -/
def loaded (s : State) (a : Nat) : Bool := if a = 0 then s.sys.loadedA else s.sys.loadedB

/-- Record whether the heads of actuator `a` are loaded. -/
def setLoaded (s : State) (a : Nat) (b : Bool) : State :=
  { s with sys := if a = 0 then { s.sys with loadedA := b } else { s.sys with loadedB := b } }

/-- Actuator `a` is disabled (SYS_STS.DISA, DISB). -/
def disabled (s : State) (a : Nat) : Bool := bit s Reg.SYS_STS (3 + a)

/-- Actuator `a` is held (SYS_STS.AHOLDA, AHOLDB). -/
def held (s : State) (a : Nat) : Bool := bit s Reg.SYS_STS (1 + a)

/-! ## Objects that no register holds (chapter 9) -/

/-- Bytes of the DOMAIN object `i`. -/
def domainBytes (s : State) (i : Nat × Nat) : List Nat :=
  ((s.noi.domains.find? fun d => d.1 == i).map fun d => d.2.2).getD []

/-- The value of object `i`, or its default. -/
def objectValue (s : State) (i : Nat × Nat) (dflt : List Nat) : List Nat :=
  ((s.noi.values.find? fun v => v.1 == i).map Prod.snd).getD dflt

/-! ## Copies (chapter 19) -/

/-- Change the state of the copies. -/
def modArc (s : State) (f : ArcState → ArcState) : State := { s with arc := f s.arc }

/-- The stream pauses by itself (R506). -/
def streamSuspend (s : State) : State :=
  modArc s fun a => { a with mode := if a.mode = .running then .suspended else a.mode }

end Sys2Proof.Machine
end

