-- ==== Sys2Proof/Machine/Flags.lean ====
section
/-! DEFINITION. Flag computations: the Z, N and C flags of microwords (R139), the comparisons of
clamped and saturated values, and the interrupt lines that event and enable registers form. -/

namespace Sys2Proof.Machine

/-! ## Microword flags (R139) -/

/-- The flags of a context. -/
structure Flags where
  z : Bool
  n : Bool
  c : Bool
  deriving DecidableEq, Repr

/-- The flags of a context. -/
def Ctx.flags (x : Ctx) : Flags := ⟨x.z, x.n, x.c⟩

/-- A context with its flags replaced. -/
def Ctx.setFlags (x : Ctx) (f : Flags) : Ctx := { x with z := f.z, n := f.n, c := f.c }

/-- Z and N of a result, C kept. -/
def flagsZN (f : Flags) (r : Word) : Flags := ⟨r == 0, r.msb, f.c⟩

/-- Z of a result, N and C kept. -/
def flagsZ (f : Flags) (r : Word) : Flags := ⟨r == 0, f.n, f.c⟩

/-- Z, N and the carry out of bit 31 of a sum. -/
def flagsAdd (a b : Word) : Flags :=
  ⟨a + b == 0, (a + b).msb, decide (2 ^ 32 ≤ a.toNat + b.toNat)⟩

/-- Z, N and the borrow of a difference. -/
def flagsSub (a b : Word) : Flags := ⟨a - b == 0, (a - b).msb, decide (a.toNat < b.toNat)⟩

/-! ## Interrupt lines -/

/-- The interrupt line that an event register and its enable register form: some event bit is
set whose enable bit is set. -/
def irqLine (s : State) (event enable : Nat) : Bool := (rd s event &&& rd s enable) != 0

end Sys2Proof.Machine
end

