-- ==== Sys2Proof/Machine/Crypto.lean ====
section
/-! DEFINITION. The published algorithms that the specification names: SHA-256, RSASSA-PSS
verification (R398), AES (R366), GCM and the CRC-64 of R41, over bytes as natural numbers. They are taken
from their standards (log entry 8). -/

namespace Sys2Proof.Machine.Crypto

/-- The big-endian number that bytes spell. -/
def be (l : List Nat) : Nat := l.foldl (fun a b => a * 256 + b) 0

/-- The `n` big-endian bytes of a number. -/
def toBe : Nat → Nat → List Nat
  | 0, _ => []
  | n + 1, v => v / 256 ^ n % 256 :: toBe n v

/-- Exclusive or of two byte lists, as long as the shorter. -/
def xorBytes (a b : List Nat) : List Nat := List.zipWith Nat.xor a b

/-! ## SHA-256 -/

/-- Rotate a 32-bit word right. -/
def ror (n x : Nat) : Nat := x / 2 ^ n + (x % 2 ^ n) * 2 ^ (32 - n)

/-- Round constants. -/
def shaK : List Nat :=
  [0x428a2f98, 0x71374491, 0xb5c0fbcf, 0xe9b5dba5, 0x3956c25b, 0x59f111f1, 0x923f82a4, 0xab1c5ed5,
   0xd807aa98, 0x12835b01, 0x243185be, 0x550c7dc3, 0x72be5d74, 0x80deb1fe, 0x9bdc06a7, 0xc19bf174,
   0xe49b69c1, 0xefbe4786, 0x0fc19dc6, 0x240ca1cc, 0x2de92c6f, 0x4a7484aa, 0x5cb0a9dc, 0x76f988da]
  ++ [0x983e5152, 0xa831c66d, 0xb00327c8, 0xbf597fc7, 0xc6e00bf3, 0xd5a79147, 0x06ca6351, 0x14292967,
   0x27b70a85, 0x2e1b2138, 0x4d2c6dfc, 0x53380d13, 0x650a7354, 0x766a0abb, 0x81c2c92e, 0x92722c85,
   0xa2bfe8a1, 0xa81a664b, 0xc24b8b70, 0xc76c51a3, 0xd192e819, 0xd6990624, 0xf40e3585, 0x106aa070]
  ++ [0x19a4c116, 0x1e376c08, 0x2748774c, 0x34b0bcb5, 0x391c0cb3, 0x4ed8aa4a, 0x5b9cca4f, 0x682e6ff3,
   0x748f82ee, 0x78a5636f, 0x84c87814, 0x8cc70208, 0x90befffa, 0xa4506ceb, 0xbef9a3f7, 0xc67178f2]

/-- The initial hash value. -/
def shaInit : List Nat :=
  [0x6a09e667, 0xbb67ae85, 0x3c6ef372, 0xa54ff53a, 0x510e527f, 0x9b05688c, 0x1f83d9ab, 0x5be0cd19]

/-- Extend the message schedule, newest word first. -/
def shaSchedule : Nat → List Nat → List Nat
  | 0, w => w
  | k + 1, w =>
    let x := w.getD 14 0
    let y := w.getD 1 0
    let s0 := Nat.xor (Nat.xor (ror 7 x) (ror 18 x)) (x / 8)
    let s1 := Nat.xor (Nat.xor (ror 17 y) (ror 19 y)) (y / 1024)
    shaSchedule k ((w.getD 15 0 + s0 + w.getD 6 0 + s1) % 2 ^ 32 :: w)

/-- One round. -/
def shaRound (h : List Nat) (kw : Nat) : List Nat :=
  match h with
  | [a, b, c, d, e, f, g, i] =>
    let s1 := Nat.xor (Nat.xor (ror 6 e) (ror 11 e)) (ror 25 e)
    let ch := Nat.xor (Nat.land e f) (Nat.land (2 ^ 32 - 1 - e) g)
    let t1 := i + s1 + ch + kw
    let s0 := Nat.xor (Nat.xor (ror 2 a) (ror 13 a)) (ror 22 a)
    let maj := Nat.xor (Nat.xor (Nat.land a b) (Nat.land a c)) (Nat.land b c)
    [(t1 + s0 + maj) % 2 ^ 32, a, b, c, (d + t1) % 2 ^ 32, e, f, g]
  | l => l

/-- The 16 big-endian words of a 64-byte block, newest first. -/
def shaWords : Nat → List Nat → List Nat → List Nat
  | 0, _, acc => acc
  | k + 1, l, acc => shaWords k (l.drop 4) (be (l.take 4) :: acc)

/-- One block. -/
def shaBlock (h : List Nat) (b : List Nat) : List Nat :=
  let w := (shaSchedule 48 (shaWords 16 b [])).reverse
  let r := (List.zipWith (· + ·) shaK w).foldl shaRound h
  List.zipWith (fun x y => (x + y) % 2 ^ 32) h r

/-- All blocks of a padded message. -/
def shaBlocks : Nat → List Nat → List Nat → List Nat
  | 0, _, h => h
  | k + 1, l, h => shaBlocks k (l.drop 64) (shaBlock h (l.take 64))

/-- The padding of a message of `n` bytes. -/
def shaPad (n : Nat) : List Nat := 0x80 :: List.replicate ((119 - n % 64) % 64) 0 ++ toBe 8 (8 * n)

/-- SHA-256 of bytes, as 32 bytes. -/
def sha256 (m : List Nat) : List Nat :=
  let p := m ++ shaPad m.length
  (shaBlocks (p.length / 64) p shaInit).flatMap (toBe 4)

/-! ## RSASSA-PSS (RFC 8017) with SHA-256, MGF1 and a salt of 32 bytes -/

/-- `b` squared `k` times modulo `n`. -/
def sqMod (n : Nat) : Nat → Nat → Nat
  | 0, b => b
  | k + 1, b => sqMod n k (b * b % n)

/-- The public operation with exponent 65,537. -/
def rsaPublic (n s : Nat) : Nat := sqMod n 16 (s % n) * s % n

/-- `k` blocks of MGF1. -/
def mgf1 (seed : List Nat) : Nat → Nat → List Nat
  | 0, _ => []
  | k + 1, i => sha256 (seed ++ toBe 4 i) ++ mgf1 seed k (i + 1)

/-- The signature `sig` (384 bytes) over `msg` verifies under the 3072-bit modulus `n`. -/
def pssVerify (n : Nat) (msg sig : List Nat) : Bool :=
  let s := be sig
  if n ≤ s then false else
  let em := toBe 384 (rsaPublic n s)
  let masked := em.take 351
  let h := (em.drop 351).take 32
  let db := xorBytes masked (mgf1 h 11 0)
  let db := (db.getD 0 0 % 128) :: db.drop 1
  let salt := db.drop 319
  em.getD 383 0 == 0xBC && decide (masked.getD 0 0 < 128)
    && db.take 318 == List.replicate 318 0 && db.getD 318 0 == 1
    && sha256 (List.replicate 8 0 ++ sha256 msg ++ salt) == h

/-! ## AES -/

/-- Multiplication by x in GF(2^8). -/
def xtime (a : Nat) : Nat := if a < 128 then 2 * a else Nat.xor (2 * a - 256) 0x1B

/-- Multiplication in GF(2^8), over the low `k` bits of `b`. -/
def gmul (a : Nat) : Nat → Nat → Nat
  | 0, _ => 0
  | k + 1, b => Nat.xor (if b % 2 = 1 then a else 0) (gmul (xtime a) k (b / 2))

/-- The product of two bytes in GF(2^8). -/
def gfMul (a b : Nat) : Nat := gmul a 8 b

/-- The inverse in GF(2^8), 0 of 0: the 254th power. -/
def gfInv (a : Nat) : Nat :=
  let a2 := gfMul a a
  let a4 := gfMul a2 a2
  let a8 := gfMul a4 a4
  let a16 := gfMul a8 a8
  let a32 := gfMul a16 a16
  let a64 := gfMul a32 a32
  let a128 := gfMul a64 a64
  gfMul (gfMul (gfMul a2 a4) (gfMul a8 a16)) (gfMul (gfMul a32 a64) a128)

/-- Rotate a byte left. -/
def rol8 (n x : Nat) : Nat := x * 2 ^ n % 256 + x * 2 ^ n / 256

/-- The S-box. -/
def sbox (a : Nat) : Nat :=
  let b := gfInv a
  Nat.xor 0x63 (Nat.xor (Nat.xor (Nat.xor b (rol8 1 b)) (Nat.xor (rol8 2 b) (rol8 3 b))) (rol8 4 b))

/-- The next word of the key schedule of `nk` words, from the words so far, newest first. -/
def nextKeyWord (nk i rcon : Nat) (w : List (List Nat)) : List Nat :=
  let t := w.getD 0 []
  let t := if i % nk = 0 then
      match (t.drop 1 ++ t.take 1).map sbox with
      | b :: l => Nat.xor b rcon :: l
      | [] => []
    else if nk = 8 ∧ i % 8 = 4 then t.map sbox else t
  xorBytes (w.getD (nk - 1) []) t

/-- `k` more words of the key schedule. -/
def expandKey (nk : Nat) : Nat → Nat → Nat → List (List Nat) → List (List Nat)
  | 0, _, _, w => w
  | k + 1, i, rcon, w =>
    expandKey nk k (i + 1) (if i % nk = 0 then xtime rcon else rcon) (nextKeyWord nk i rcon w :: w)

/-- Split bytes into words of four. -/
def words4 : Nat → List Nat → List (List Nat)
  | 0, _ => []
  | k + 1, l => l.take 4 :: words4 k (l.drop 4)

/-- The round keys of a 16- or 32-byte key, 16 bytes each. -/
def roundKeys (key : List Nat) : List (List Nat) :=
  let nk := key.length / 4
  let total := 4 * (nk + 7)
  let w := (expandKey nk (total - nk) nk 1 (words4 nk key).reverse).reverse
  let bytes := w.flatMap id
  (List.range (nk + 7)).map fun r => (bytes.drop (16 * r)).take 16

/-- SubBytes and ShiftRows. -/
def subShift (s : List Nat) : List Nat :=
  (List.range 16).map fun i => sbox (s.getD ((i + 4 * (i % 4)) % 16) 0)

/-- One column of MixColumns. -/
def mixColumn (c : List Nat) : List Nat :=
  (List.range 4).map fun i =>
    let a (k : Nat) := c.getD ((i + k) % 4) 0
    Nat.xor (Nat.xor (xtime (a 0)) (Nat.xor (xtime (a 1)) (a 1))) (Nat.xor (a 2) (a 3))

/-- The rounds after the first key addition; the last has no MixColumns. -/
def aesRounds : List (List Nat) → List Nat → List Nat
  | [], s => s
  | [k], s => xorBytes (subShift s) k
  | k :: ks, s => aesRounds ks (xorBytes ((words4 4 (subShift s)).flatMap mixColumn) k)

/-- AES encryption of one block. -/
def aes (key block : List Nat) : List Nat :=
  match roundKeys key with
  | k :: ks => aesRounds ks (xorBytes block k)
  | [] => block

/-! ## GCM -/

/-- Multiplication in GF(2^128), blocks as big-endian numbers; `k` bits of `x` are left. -/
def ghashMul : Nat → Nat → Nat → Nat → Nat
  | 0, _, _, z => z
  | k + 1, x, v, z =>
    ghashMul k x (if v % 2 = 1 then Nat.xor (v / 2) (0xE1 * 2 ^ 120) else v / 2)
      (if x.testBit k then Nat.xor z v else z)

/-- GHASH over `k` blocks of 16 bytes. -/
def ghash (h : Nat) : Nat → List Nat → Nat → Nat
  | 0, _, y => y
  | k + 1, l, y => ghash h k (l.drop 16) (ghashMul 128 (Nat.xor y (be (l.take 16))) h 0)

/-- Fill bytes with zeros to a multiple of 16. -/
def pad16 (l : List Nat) : List Nat := l ++ List.replicate ((16 - l.length % 16) % 16) 0

/-- `k` blocks of the counter stream, from counter `c`. -/
def ctrStream (key iv : List Nat) : Nat → Nat → List Nat
  | 0, _ => []
  | k + 1, c => aes key (iv ++ toBe 4 c) ++ ctrStream key iv k (c + 1)

/-- Encrypt or decrypt under a 12-byte IV. -/
def gcmCrypt (key iv data : List Nat) : List Nat :=
  xorBytes data (ctrStream key iv ((data.length + 15) / 16) 2)

/-- The tag over additional data and ciphertext. -/
def gcmTag (key iv aad cipher : List Nat) : List Nat :=
  let h := be (aes key (List.replicate 16 0))
  let l := pad16 aad ++ pad16 cipher ++ toBe 8 (8 * aad.length) ++ toBe 8 (8 * cipher.length)
  xorBytes (toBe 16 (ghash h (l.length / 16) l 0)) (aes key (iv ++ [0, 0, 0, 1]))

/-! ## CRC-64 (R41) -/

/-- `k` steps of the unreflected CRC-64. -/
def crc64Bits : Nat → Nat → Nat
  | 0, v => v
  | k + 1, v =>
    crc64Bits k (if 2 ^ 63 ≤ v then Nat.xor ((2 * v) % 2 ^ 64) 0x42F0E1EBA9EA3693 else 2 * v)

/-- The CRC-64 of bytes from the initial value `seed`. -/
def crc64 (seed : Nat) (l : List Nat) : Nat :=
  l.foldl (fun v b => crc64Bits 8 (Nat.xor v (b * 2 ^ 56))) seed

end Sys2Proof.Machine.Crypto
end

