-- ==== Sys2Proof/Machine/Keys.lean ====
section
/-! DEFINITION. Key slots of the cipher lattice (R380), the key table (R396), and the verification of
signatures under its keys (R398). -/

namespace Sys2Proof.Machine

/-! ## Key slots -/

/-! ### Uses (R380) -/
namespace KeyUse
abbrev atRest : Nat := 0
abbrev macsec : Nat := 1
abbrev session : Nat := 2
abbrev general : Nat := 3
end KeyUse

/-- The loaded key slot `k`. -/
def keyAt (s : State) (k : Nat) : Option KeySlot := s.cph.keys.find? fun x => x.slot == k

/-- The bytes that two shares hold. -/
def Shares.value (x : Shares) : List Nat := List.zipWith Nat.xor x.one x.two

/-- Both shares XORed with mask bytes; the value stays. -/
def Shares.mask (m : Nat → Nat) (x : Shares) : Shares :=
  ⟨x.one.mapIdx fun i b => Nat.xor b (m i), x.two.mapIdx fun i b => Nat.xor b (m i)⟩

/-- Bytes split into two shares under mask bytes. -/
def Shares.split (m : Nat → Nat) (b : List Nat) : Shares :=
  Shares.mask m ⟨b, List.replicate b.length 0⟩

/-! ## The key table -/

/-- NAND offset of the key table. -/
abbrev keyTableBase : Nat := 0x1A000000

/-- The first 388 bytes of entry `n` of the key table: modulus and exponent. -/
def keyEntry (s : State) (n : Nat) : List Nat := nandBytes s (keyTableBase + 512 * n) 388

/-- KEYHASHn. -/
def keyHash (s : State) (n : Nat) : Nat := s.sec.keyHash.getD n 0

/-- Key `n` is valid (R396) under the REVOKE bits `rev`. -/
def keyValidUnder (rev : Nat) (s : State) (n : Nat) : Bool :=
  keyHash s n != 0 && !rev.testBit n
    && Crypto.be (Crypto.sha256 (keyEntry s n)) == keyHash s n
    && Crypto.be ((keyEntry s n).drop 384) == 65537

/-- Key `n` is valid with every revocation made so far. -/
def keyValid (s : State) (n : Nat) : Bool := keyValidUnder s.sec.revoke s n

/-- The lowest key under which `sig` verifies over `msg`, valid as the last boot found REVOKE (R397). -/
def signingKey (s : State) (msg sig : List Nat) : Option Nat :=
  (List.range 4).find? fun n =>
    keyValidUnder s.sec.inForce s n && Crypto.pssVerify (Crypto.be ((keyEntry s n).take 384)) msg sig

/-! ## Images by byte -/

/-- An image as a function from offsets to bytes. -/
abbrev Image := Nat → Nat

/-- The image at SRAM offset `a`. -/
def sramImage (s : State) (a : Nat) : Image := fun i => sram8 s (a + i)

/-- The image at NAND offset `a`. -/
def nandImage (s : State) (a : Nat) : Image := fun i => nandByte s (a + i)

/-- `n` bytes of an image from offset `o` on. -/
def Image.bytes (g : Image) (o n : Nat) : List Nat := (List.range n).map fun i => g (o + i)

/-- The little-endian number in `n` bytes of an image from offset `o` on. -/
def Image.le (g : Image) (o n : Nat) : Nat := leNat (Image.bytes g o n)

/-- The identity public key: modulus, then the exponent 65,537, big-endian (R483). -/
def identityKeyBytes : List Nat := Crypto.toBe 384 Config.identityModulus.toNat ++ [0, 1, 0, 1]

end Sys2Proof.Machine
end

