-- ==== Sys2Proof/Machine/Operands.lean ====
section
/-! DEFINITION. The value forms that commands and registers carry: check codes, fp32 numbers,
rounding of exact results, and the LBA and angle arithmetic that several chapters share. -/

namespace Sys2Proof.Machine

/-! ## Check codes -/

/-- One step of a reflected CRC with polynomial `poly`. -/
def crcBit (poly v : Nat) : Nat := if v % 2 = 1 then Nat.xor (v / 2) poly else v / 2

/-- Eight steps of a reflected CRC. -/
def crcByte (poly v b : Nat) : Nat :=
  let x := Nat.xor v b
  crcBit poly (crcBit poly (crcBit poly (crcBit poly
    (crcBit poly (crcBit poly (crcBit poly (crcBit poly x)))))))

/-- CRC-32 with the IEEE 802.3 polynomial over bytes (R400, R427, R472). -/
def crc32 (bytes : List Nat) : Nat :=
  Nat.xor (bytes.foldl (crcByte 0xEDB88320) 0xFFFFFFFF) 0xFFFFFFFF

/-! ## fp32 -/

/-- The exponent field of an fp32 word. -/
def fpExp (b : Nat) : Nat := bitsOf b 23 8

/-- The word is an infinity or no number. -/
def fpNonFinite (b : Nat) : Bool := fpExp b == 255

/-- Two to an integer power. -/
def pow2 (e : Int) : Rat :=
  match e with
  | .ofNat n => ((2 ^ n : Nat) : Rat)
  | .negSucc n => 1 / ((2 ^ (n + 1) : Nat) : Rat)

/-- The value of a finite fp32 word; a word that is no finite number has no value, and reads as 0. -/
def fpVal (b : Nat) : Rat :=
  let m := bitsOf b 0 23
  let e := fpExp b
  let a : Rat :=
    if e = 255 then 0
    else if e = 0 then (m : Rat) * pow2 (-149)
    else ((2 ^ 23 + m : Nat) : Rat) * pow2 ((e : Int) - 150)
  if b.testBit 31 then -a else a

/-- The largest `e` with `2 ^ e ≤ q`, for a positive `q`. -/
def ratLog2 (q : Rat) : Int :=
  let e : Int := (Nat.log2 q.num.toNat : Int) - (Nat.log2 q.den : Int)
  if pow2 e ≤ q then e else e - 1

/-- The unit of the last place of the fp32 numbers around a positive `q`. -/
def fpUlpExp (q : Rat) : Int := max (ratLog2 q - 23) (-149)

/-- The fp32 word of the magnitude `k * 2 ^ e`, with `k` at most 2^24 and `e` at least -149. -/
def fpPack (k : Nat) (e : Int) : Nat :=
  if k < 2 ^ 23 then k
  else if k = 2 ^ 24 then ((e + 151).toNat) * 2 ^ 23
  else ((e + 150).toNat) * 2 ^ 23 + (k - 2 ^ 23)

/-- The fp32 word of an exact result. A result that fp32 holds is that word. The specification
states no rounding mode, so a result between two neighbours goes up or down as the opaque
`Config.fpRoundsUp` has it (log entry 6); a magnitude beyond the largest number is an infinity. -/
def fpOf (q : Rat) : Nat :=
  if q = 0 then 0 else
  let neg := decide (q < 0)
  let a := if neg then -q else q
  let e := fpUlpExp a
  let r := a / pow2 e
  let k := r.floor.toNat
  let k := if (k : Rat) = r then k else if Config.fpRoundsUp q then k + 1 else k
  let w := if 105 ≤ e then 0x7F800000 else fpPack k e
  let w := min w 0x7F800000
  if neg then w + 2 ^ 31 else w

/-- The value of the fp32 register at `a`. -/
def rdF (s : State) (a : Nat) : Rat := fpVal (rdN s a)

/-- Write an exact result to the fp32 register at `a`. -/
def wrFp (s : State) (a : Nat) (q : Rat) : State := wrN s a (fpOf q)

/-- Keep `q` between `-m` and `m`. -/
def clampSym (m q : Rat) : Rat := if q > m then m else if q < -m then -m else q

/-- The absolute value of a rational. -/
def ratAbs (q : Rat) : Rat := if q < 0 then -q else q

/-- The nearest integer, halves rounded up. -/
def roundHalfUp (q : Rat) : Int := (q + 1 / 2).floor

/-! ## Angles -/

/-- Ticks per revolution (R11). -/
abbrev ticksPerRev : Nat := 2 ^ 22

/-- The nominal angle of wedge `w` on a drive of `wedges` wedges (R12). -/
def wedgeAngle (wedges w : Nat) : Nat := w * ticksPerRev / wedges

/-- The present angle, ANG_NOW. -/
def angNow (s : State) : Nat := getF s Reg.ANG_NOW 0 22

/-- The skew of surface `n` (R12). -/
def skewOf (s : State) (n : Nat) : Nat := getF s (Reg.ANG_SKEW n) 0 22

/-- Ticks from angle `a` on to angle `b`, modulo one revolution. -/
def angDist (a b : Nat) : Nat := (b + ticksPerRev - a % ticksPerRev) % ticksPerRev

/-- The surface of head `h` of actuator `a` (R81). -/
def surfaceOf (s : State) (a h : Nat) : Nat := if a = 0 then h else getF s Reg.ZTB_GEOM 0 5 + h

/-- The actuator that serves surface `f`. -/
def surfaceAct (s : State) (f : Nat) : Nat := if f < getF s Reg.ZTB_GEOM 0 5 then 0 else 1

/-- The head of surface `f` within its actuator. -/
def surfaceHead (s : State) (f : Nat) : Nat :=
  if f < getF s Reg.ZTB_GEOM 0 5 then f else f - getF s Reg.ZTB_GEOM 0 5

/-- The head that slot `n` has selected, if one is (LANE_SLHEAD). -/
def slotHead (s : State) (n : Nat) : Option Nat :=
  if bit s (Reg.LANE_SLHEAD n) 7 then some (getF s (Reg.LANE_SLHEAD n) 0 4) else none

/-- The surface under slot `n`. -/
def slotSurface (s : State) (n : Nat) : Option Nat :=
  (slotHead s n).map (surfaceOf s (slotAct n))

end Sys2Proof.Machine
end

