-- ==== Sys2Proof/Machine/Images.lean ====
section
/-! DEFINITION. Signed images (chapter 14): their header, their verification, and the firmware of a slot,
which BOOT and UPDATE load. -/

namespace Sys2Proof.Machine

/-! ## Signed images (R398, R399) -/

/-! ### Results of SEC_VSTS -/
namespace ImgRes
abbrev ok : Nat := 0
abbrev sig : Nat := 1
abbrev hdr : Nat := 2
abbrev svn : Nat := 3
end ImgRes

def imgKind (g : Image) : Nat := g 4
def imgSvn (g : Image) : Nat := g 5
def imgLength (g : Image) : Nat := Image.le g 8 4
def imgMonLen (g : Image) : Nat := Image.le g 0x10 4
def imgLoad (g : Image) : Nat := Image.le g 0x14 4
def imgEntry (g : Image) : Nat := Image.le g 0x18 4

/-- Core memory, as SRAM offsets (R541). -/
abbrev coreMemBase : Nat := 0x19600000
abbrev coreMemEnd : Nat := 0x20000000

/-- The header fields that the kind of image governs. -/
def imgKindOk (g : Image) : Bool :=
  match imgKind g with
  | 1 => decide (imgLength g ≤ 32 * 2 ^ 20 ∧ imgMonLen g ≤ 512 * 1024 ∧ imgMonLen g ≤ imgLength g
      ∧ 0x20000000 + coreMemBase ≤ imgLoad g
      ∧ imgLoad g + (imgLength g - imgMonLen g) ≤ 0x20000000 + coreMemEnd)
  | 2 => imgLength g == 65536 && imgMonLen g == 0 && imgLoad g == 0 && imgEntry g == 0
  | 3 => imgLength g == 64 && imgMonLen g == 0 && imgLoad g == 0 && imgEntry g == 0
  | _ => false

/-- Every header field is in its range. -/
def imgHeaderOk (g : Image) : Bool :=
  Image.le g 0 4 == 0x4D495354 && decide (imgSvn g ≤ 64) && Image.le g 6 2 == 0
    && (Image.bytes g 0x1C 36).all (· == 0) && imgKindOk g

/-- The result of verifying an image, with the key: the header is checked first, since it tells where the
signature lies. -/
def imgVerify (s : State) (g : Image) : Nat × Nat :=
  if !imgHeaderOk g then (ImgRes.hdr, 0) else
  let total := 64 + imgLength g
  match signingKey s (Image.bytes g 0 total) (Image.bytes g total 384) with
  | none => (ImgRes.sig, 0)
  | some k => if imgSvn g < s.sec.arb then (ImgRes.svn, k) else (ImgRes.ok, k)

/-- The image verifies and is of kind `k`. -/
def imgGood (s : State) (g : Image) (k : Nat) : Bool := imgKind g == k && (imgVerify s g).1 == 0

/-! ## Firmware slots (R401, R543) -/

/-- Size of a firmware slot in NAND. -/
abbrev fwSlotSize : Nat := 0x04000000

/-- The firmware image of a slot. -/
def fwImage (s : State) (k : Nat) : Image := nandImage s (fwSlotSize * k)

/-- The firmware of slot `k` is copied into secure-monitor RAM and core memory, and starts at its ENTRY
(R401). -/
def loadFirmware (k : Nat) (fallback : Bool) (s : State) : State :=
  let g := fwImage s k
  let mon := imgMonLen g
  let key := (imgVerify s g).2
  let s := { s with
    sec := { s.sec with monitor := Image.bytes g 64 mon, runKey := key }
    sys := { s.sys with entry := imgEntry g } }
  let s := sramPutBytes s (imgLoad g - 0x20000000) (Image.bytes g (64 + mon) (imgLength g - mon))
  let s := wrN (wrN s Reg.SEC_FWVER (Image.le g 0xC 4)) Reg.SEC_FWSVN (imgSvn g)
  setF (setBit (setF s Reg.SEC_STS 1 2 (k + 1)) Reg.SEC_STS 3 fallback) Reg.SEC_STS 12 2 key

end Sys2Proof.Machine
end

