-- ==== Sys2Proof/Machine/Pfc.lean ====
section
/-! DEFINITION. What the ports send, and the PFC frames with which they stop and restart priorities
(R314); the Cistern's threshold W2 uses them too (R336). -/

namespace Sys2Proof.Machine

/-- Change the network state. -/
def modNet (s : State) (f : NetState → NetState) : State := { s with net := f s.net }

/-- Port `p`. -/
def portAt (s : State) (p : Nat) : EthState := s.net.ports.getD p EthState.reset

/-- Change port `p`. -/
def modPort (s : State) (p : Nat) (f : EthState → EthState) : State :=
  modNet s fun n => { n with ports := modAt n.ports p f }

/-- A port sends. -/
def send (x : Sent) (s : State) : State := modNet s fun n => { n with sent := n.sent ++ [x] }

/-- Port `p` is failed. -/
def portFailed (s : State) (p : Nat) : Bool := (portAt s p).failed.isSome

/-- Port `p` has LINK = 1. -/
def linkUp (s : State) (p : Nat) : Bool := bit s (Reg.ETH_STS p) 0

/-- Traffic class of priority `q` on port `p`. -/
def classOf (s : State) (p q : Nat) : Nat := getF s (Reg.ETH_PRIOMAP p) (3 * q) 3

/-- The priorities with PFC that map to one of the classes, as a mask. -/
def pfcPrios (s : State) (p : Nat) (tcs : List Nat) : Nat :=
  ((List.range 8).map fun q =>
    if bit s (Reg.ETH_PFC p) q && tcs.contains (classOf s p q) then 2 ^ q else 0).foldl (· + ·) 0

/-- Port `p` sends a PFC frame for the classes, with the quanta of ETH_PFC or 0. -/
def sendPfc (p : Nat) (tcs : List Nat) (stop : Bool) (s : State) : State :=
  let m := pfcPrios s p tcs
  if m = 0 then s
  else if stop then
    send (.pfc p m (getF s (Reg.ETH_PFC p) 8 16)) (modPort s p fun n => { n with pfcClock := s.clock })
  else send (.pfc p m 0) s

/-- Threshold W2 comes into effect or clears: both ports stop every priority with PFC, or restart those
whose Runnel is not at XOFF (R336). -/
def pfcAll (stop : Bool) (s : State) : State :=
  (List.range 2).foldl (fun s p =>
    sendPfc p (if stop then List.range 8 else (List.range 8).filter fun k => !(portAt s p).xoff.contains k) stop s) s

end Sys2Proof.Machine
end

