-- ==== Sys2Proof/Machine/Ladder.lean ====
section
/-! DEFINITION. The throttle ladder (R449, R451) and what its steps limit: cipher clusters, the port
rate and the spindle current. -/

namespace Sys2Proof.Machine

/-! ## Cipher clusters and the port rate -/

/-- Clusters in use, lowest numbers first (R369). -/
def clustersInUse (s : State) : List Nat :=
  ((List.range 40).filter fun n => (rd64 s Reg.CPH_CLOK).testBit n).take
    (min (getF s Reg.CPH_CTL 8 6) (getF s Reg.THM_CAPS 16 6))

/-- CPH_STS reports the clusters in use. -/
def showClusters (s : State) : State := setF s Reg.CPH_STS 8 6 (clustersInUse s).length

/-- The rate at which port `p`'s bucket fills, in Mbit/s: SLU_TXCAP, below it the ladder's limit. -/
def txRate (s : State) (p : Nat) : Nat :=
  let cap := rdN s (if p = 0 then Reg.SLU_TXCAP0 else Reg.SLU_TXCAP1)
  match getF s Reg.THM_CAPS 24 2 with
  | 0 => cap
  | 1 => min cap 50000
  | _ => min cap 25000

/-- The bytes in port `p`'s bucket now. -/
def tokensNow (s : State) (p : Nat) : Rat :=
  let (x, c) := s.slu.tokens.getD p (0, 0)
  let full : Rat := 65536
  min full (x + (((s.clock - c) * txRate s p : Nat) : Rat) / 8000)

/-- Take stock of both buckets, before the rate changes. -/
def settleTokens (s : State) : State :=
  { s with slu := { s.slu with tokens := (List.range 2).map fun p => (tokensNow s p, s.clock) } }

/-! ## The ladder -/

/-- STEP: the largest of its sources. -/
def ladderStep (s : State) : Nat :=
  let l := rdN s Reg.THM_LADDER
  let m := max (max (bitsOf l 4 4) (bitsOf l 8 4)) (getF s Reg.THM_CTL 0 4)
  let m := if getF s Reg.NQE_PSCUR 0 3 = 1 then max m 6 else m
  if bit s Reg.THM_STS 0 then 15 else m

/-- THM_CAPS at a step. -/
def capsAt (n : Nat) : Nat :=
  (if 1 ≤ n then 1 else 0) + (if 2 ≤ n then 2 else 0)
    + 2 ^ 4 * (if n < 3 then 8 else max 1 (10 - n))
    + 2 ^ 16 * (if n < 10 then 40 else if n = 10 then 32 else 24)
    + 2 ^ 24 * (if n < 12 then 0 else if n = 12 then 1 else 2)

/-- WEIR_THLIM at a step: 2.0, 1.5 or 1.0 A in fp32. -/
def thlimAt (n : Nat) : Nat := if n < 14 then 0x40000000 else if n = 14 then 0x3FC00000 else 0x3F800000

/-- The ladder follows its sources: capacities, registers, and the event of a change (R449, R451). -/
def ladder (s : State) : State :=
  let old := getF s Reg.THM_LADDER 0 4
  let n := ladderStep s
  let s := setF (setF s Reg.THM_LADDER 0 4 n) Reg.THM_LADDER 12 4 (getF s Reg.THM_CTL 0 4)
  let s := setF s Reg.THM_STS 8 4 n
  if n = old then s else
  let s := wrN (settleTokens s) Reg.THM_CAPS (capsAt n)
  let s := showClusters (wrN s Reg.WEIR_THLIM (thlimAt n))
  evt Reg.THM_EVT 6 (if old < n then satInc s Reg.THM_STEPCNT 32 else s)

end Sys2Proof.Machine
end

