-- ==== Sys2Proof/Machine/Links.lean ====
section
/-! DEFINITION. Link tests that run (R466 to R469): their targets, the conditions under which they may
run, and their end when a condition fails. -/

namespace Sys2Proof.Machine

/-! ### TST_STS results -/
namespace TstRes
abbrev ok : Nat := 0
abbrev busy : Nat := 1
abbrev mode : Nat := 2
abbrev target : Nat := 3
abbrev pattern : Nat := 4
abbrev inUse : Nat := 5
abbrev preempt : Nat := 6
end TstRes

/-- Test channel `n` runs. -/
def tstRun (s : State) (n : Nat) : Bool := bit s (Reg.TST_STS n) 0

/-- TARGET of test channel `n`. -/
def tstTarget (s : State) (n : Nat) : Nat := getF s (Reg.TST_CFG n) 0 8

/-- The port of a target. -/
def targetPort (t : Nat) : Option Nat := if t < 8 then some (t / 4) else none

/-- The slot of a target: that of a write lane, or of a read input. -/
def targetSlot (t : Nat) : Option Nat :=
  if 0x10 ≤ t ∧ t < 0x18 then some (t - 0x10)
  else if 0x20 ≤ t ∧ t < 0x30 then some (4 * ((t - 0x20) / 8) + t % 4)
  else none

/-- A test runs on slot `n`. -/
def slotTested (s : State) (n : Nat) : Bool :=
  (List.range 8).any fun c => tstRun s c && targetSlot (tstTarget s c) == some n

/-- Slot `n` is in service: no lane of it has failed (R438), and no link test has it (R468). -/
def inService (s : State) (n : Nat) : Bool :=
  !bit s Reg.SYS_LANEFAIL n && !bit s Reg.SYS_LANEFAIL (n + 8) && !slotTested s n

/-- The slot has no operation and is not the anchor, and another slot of its actuator is in service. -/
def slotSpare (s : State) (n : Nat) : Bool :=
  let a := slotAct n
  let c := ctxAt s a (n % 4)
  !c.busy && c.queue.isEmpty && getF s (Reg.SRV_CTL a) 4 2 != n % 4 &&
    (List.range 4).any fun k => 4 * a + k != n && inService s (4 * a + k)

/-- A mode in which heads may run and tests need spare links. -/
def hotMode (m : Nat) : Bool := m == Mode.ready || m == Mode.active

/-- A mode in which links other than the module's own may be tested. A calibration does not end a
test. -/
def testMode (m : Nat) : Bool :=
  (decide (Mode.standby ≤ m ∧ m ≤ Mode.calibrate)) || m == Mode.test

/-- The conditions of R468 for a test of target `t` hold. -/
def tstHolds (s : State) (t : Nat) : Bool :=
  match targetPort t, targetSlot t with
  | some p, _ => testMode (mode s) && (!hotMode (mode s) || (linkUp s (1 - p) && !portFailed s (1 - p)))
  | none, some n =>
    testMode (mode s) && !disabled s (slotAct n) && !held s (slotAct n)
      && (!hotMode (mode s) || slotSpare s n)
  | none, none =>
    mode s == Mode.test &&
      (t != 0x30 || (getF s Reg.SPN_STS 0 4 == 0 && !loaded s 0 && !loaded s 1))

/-- The test of channel `n` ends with a result, and its target returns to service. A port waits as
after a LINK failure (R308). -/
def tstEnds (n r : Nat) (s : State) : State :=
  let t := tstTarget s n
  let s := setF (setBit s (Reg.TST_STS n) 0 false) (Reg.TST_STS n) 4 4 r
  let s := match targetPort t with
    | some p => modPort s p fun x => { x with failed := if x.failed = some .test then some .link else x.failed }
    | none => s
  evt Reg.TST_EVT n s

/-- A running test whose conditions have stopped holding ends with PREEMPT; what its checker had
counted is not an operand, and free. -/
def tstPreempt (n : Nat) (s : State) : State :=
  let (e, s) := drawFree 32 s
  let (b, s) := drawFree 64 s
  tstEnds n TstRes.preempt (wr64 (wrN s (Reg.TST_ERR n) e) (Reg.TST_BITS n) b)

/-- Every running test keeps its conditions, or ends. -/
def tstSweep (s : State) : State :=
  (List.range 8).foldl (fun s n =>
    if tstRun s n && !tstHolds s (tstTarget s n) then tstPreempt n s else s) s

end Sys2Proof.Machine
end

