-- ==== Sys2Proof/Machine/Format.lean ====
section
/-! DEFINITION. The recording format of chapter 2: band tables, the frame layout of a track, zones
and terraces, slip lists, the zone table, and the conventional region. -/

namespace Sys2Proof.Machine

/-! ## Band-table entries (R33) -/

def btFirst (e : Nat) : Nat := bitsOf e 0 24
def btNtrk (e : Nat) : Nat := bitsOf e 32 24
def btBpr (e : Nat) : Nat := bitsOf e 64 32
def btPre (e : Nat) : Nat := bitsOf e 96 9
def btSpt (e : Nat) : Nat := bitsOf e 112 10
def btCode (e : Nat) : Nat := bitsOf e 126 1
def btKind (e : Nat) : Nat := bitsOf e 127 1
def btTskew (e : Nat) : Nat := bitsOf e 128 8
def btSyncwin (e : Nat) : Nat := bitsOf e 136 8
def btGap (e : Nat) : Nat := bitsOf e 144 8
def btRspre (e : Nat) : Nat := bitsOf e 152 8
def btPitch (e : Nat) : Nat := bitsOf e 160 16
def btEndmin (e : Nat) : Nat := bitsOf e 224 16

/-- What an unlisted band-table entry holds. -/
def btDflt (_ : Nat) : Nat := 0

/-- Entry `n` of the table of surface `f` in the table set `t`. -/
def btEntry (t : List (Nat × Nat)) (f n : Nat) : Nat := sget btDflt t (48 * f + n)

/-- The entries of the table of surface `f`: up to the first with NTRK = 0 (R32). -/
def btTable (t : List (Nat × Nat)) (f : Nat) : List Nat :=
  ((List.range 48).map (btEntry t f)).takeWhile (fun e => btNtrk e != 0)

/-- The committed table of surface `f`. -/
def bandTable (s : State) (f : Nat) : List Nat := btTable s.ztb.bands f

/-- The entry covers track `t`. -/
def btCovers (e t : Nat) : Bool := decide (btFirst e ≤ t ∧ t < btFirst e + btNtrk e)

/-- The committed entry of surface `f` that covers track `t`. -/
def bandOfTrack (s : State) (f t : Nat) : Option Nat := (bandTable s f).find? (fun e => btCovers e t)

/-! ## Radii (R51, R52) -/

/-- The sum of PITCH over the tracks below track `t` of a table. The guard track takes the PITCH of the last
conventional entry (R32). -/
def pitchBefore : List Nat → Nat → Nat
  | [], _ => 0
  | e :: l, t =>
    let last := btKind e == 1 && (l.head?.any fun e' => btKind e' == 0)
    let guard := last && decide (btFirst e + btNtrk e < t)
    min (t - btFirst e) (btNtrk e) * btPitch e + (if guard then btPitch e else 0) + pitchBefore l t

/-- The radius of track `t` of surface `f`, in units of 0.01 nm (R51). -/
def trackRadius (f : Nat) (table : List Nat) (t : Nat) : Int :=
  (Config.trackZeroRadius f : Int) - (pitchBefore table t : Int)

/-- The listed point at or below radius `r` that is nearest to it, if one is. -/
def pointBelow (r : Int) (l : List (Nat × Nat)) : Option (Nat × Nat) :=
  l.foldl (fun b p => if (p.1 : Int) ≤ r ∧ (b.all fun q => decide (q.1 < p.1)) = true then some p else b) none

/-- The listed point at or above radius `r` that is nearest to it, if one is. -/
def pointAbove (r : Int) (l : List (Nat × Nat)) : Option (Nat × Nat) :=
  l.foldl (fun b p => if r ≤ (p.1 : Int) ∧ (b.all fun q => decide (p.1 < q.1)) = true then some p else b) none

/-- The value at radius `r`: linear between listed radii, and that of the nearest one outside them (R51). -/
def atRadius (l : List (Nat × Nat)) (r : Int) : Rat :=
  match pointBelow r l, pointAbove r l with
  | some (x0, y0), some (x1, y1) =>
    if x0 = x1 then (y0 : Rat)
    else (y0 : Rat) + ((y1 : Rat) - (y0 : Rat)) * ((r : Rat) - (x0 : Rat)) / ((x1 : Rat) - (x0 : Rat))
  | some (_, y), none => (y : Rat)
  | none, some (_, y) => (y : Rat)
  | none, none => 0

/-- The trailing-reader offset of surface `f`'s head at track `t`. -/
def readerOffsetAt (f : Nat) (table : List Nat) (t : Nat) : Rat :=
  atRadius (Config.readerOffsets f) (trackRadius f table t)

/-- PITCH differs by at most 4% from an offset (R52). -/
def pitchNear (pitch : Nat) (off : Rat) : Bool :=
  decide (100 * ((pitch : Rat) - off) ≤ 4 * off ∧ 100 * (off - (pitch : Rat)) ≤ 4 * off)

/-- NS, the number of surfaces (R53). -/
def numSurfaces (s : State) : Nat := getF s Reg.ZTB_GEOM 0 5 + getF s Reg.ZTB_GEOM 8 5

/-- W, the servo wedges per revolution, from the HDA identity memory. -/
def wedges (s : State) : Nat := s.sys.wedges

/-! ## Frames on a track (R36 to R38) -/

/-- The bits that `ticks` of a servo field exclude at `bpr` bits per revolution, rounded up (R36). -/
def servoBits (ticks bpr : Nat) : Nat := (ticks * bpr + ticksPerRev - 1) / ticksPerRev

/-- Codeword bits of a band's code (R37). -/
def codewordBits (e : Nat) : Nat := if btCode e = 0 then 37440 else 39520

/-- One frame of a track: its first preamble bit, its codeword fragments (first bit and length), and the
bit after its codeword, after its pad and after its gap, of which a servo field may cut the last two. -/
structure Frame where
  start : Nat
  pieces : List (Nat × Nat)
  codeEnd : Nat
  padEnd : Nat
  gapEnd : Nat
  deriving DecidableEq, Repr

/-- The codeword fragments of a frame. -/
def Frame.frags (f : Frame) : Nat := f.pieces.length

/-- What placing frames needs of a track: servo field exclusions, bits per wedge, and the band. -/
structure TrackShape where
  lead : Nat
  trail : Nat
  perWedge : Nat
  entry : Nat
  deriving DecidableEq, Repr

/-- The shape of tracks of band entry `e` on a drive of `w` wedges. -/
def trackShape (svlead svtrail w e : Nat) : TrackShape :=
  ⟨servoBits svlead (btBpr e), servoBits svtrail (btBpr e), btBpr e / w, e⟩

/-- The first bit of servo field `j`. -/
def TrackShape.lim (t : TrackShape) (j : Nat) : Nat := j * t.perWedge - t.lead

/-- The first data bit after servo field `j`. -/
def TrackShape.after (t : TrackShape) (j : Nat) : Nat := j * t.perWedge + t.trail

/-- The rest of a codeword: `left` bits from bit `cw`, before servo field `j`. The answer is the next
servo field and the fragments (R38). -/
def placeCodeword (t : TrackShape) : Nat → Nat → Nat → Nat → Nat × List (Nat × Nat)
  | 0, cw, left, j => (j, [(cw, left)])
  | fuel + 1, cw, left, j =>
    if cw + left > t.lim j then
      let (j', l) := placeCodeword t fuel (t.after j + btRspre t.entry + 32) (left - (t.lim j - cw)) (j + 1)
      (j', (cw, t.lim j - cw) :: l)
    else (j, [(cw, left)])

/-- The bit after the last fragment. -/
def piecesEnd (l : List (Nat × Nat)) : Nat := (l.getLast?.map fun p => p.1 + p.2).getD 0

/-- The frames of `k` sectors from bit `pos`, before servo field `j` (R38). -/
def placeFrames (t : TrackShape) : Nat → Nat → Nat → List Frame
  | 0, _, _ => []
  | k + 1, pos, j =>
    let fits := decide (pos + btPre t.entry + 32 < t.lim j)
    let pos := if fits then pos else t.after j
    let j := if fits then j else j + 1
    let (j', l) := placeCodeword t 4096 (pos + btPre t.entry + 32) (codewordBits t.entry) j
    let fin := piecesEnd l
    let next := fin + 24 + btGap t.entry
    let frame : Frame := ⟨pos, l, fin, min (fin + 24) (t.lim j'), min next (t.lim j')⟩
    if next > t.lim j' then frame :: placeFrames t k (t.after j') (j' + 1)
    else frame :: placeFrames t k next j'

/-- The frames of a track of the shape (R38): bit positions from the track's start wedge. -/
def trackFrames (t : TrackShape) : List Frame := placeFrames t (btSpt t.entry) t.trail 1

/-- The surface-relative angle of bit `x` of track `t` of band `e` (R38). -/
def bitAngle (w e t x : Nat) : Nat :=
  (wedgeAngle w ((t * btTskew e) % w) + x * ticksPerRev / btBpr e) % ticksPerRev

/-- The shape of tracks of entry `e` under the registers in force. -/
def shapeOf (s : State) (e : Nat) : TrackShape :=
  trackShape (getF s Reg.ZTB_SVO 0 16) (getF s Reg.ZTB_SVO 16 16) (wedges s) e

/-- Frame `k` of a track of entry `e`. -/
def frameOf (s : State) (e k : Nat) : Option Frame := (trackFrames (shapeOf s e))[k]?

/-- The frame-table entry of sector `k` of track `t` of entry `e` (R135): its preamble angle, the
angle of its last pad bit, and its fragments less 1. -/
def frameEntry (s : State) (e t k : Nat) : Nat :=
  match frameOf s e k with
  | some f => bitAngle (wedges s) e t f.start + 2 ^ 32 * bitAngle (wedges s) e t (f.padEnd - 1)
      + 2 ^ 56 * ((f.frags - 1) % 4)
  | none => 0

/-! ## Zones (R53 to R57, R64) -/

/-- ZCAP: sectors of a zone (R54). -/
def zcap (s : State) : Nat := 32768 * 2 ^ getF s Reg.ZTB_CTL 1 2

/-- The spares of a zone (R55). -/
abbrev zoneSpares : Nat := 262

/-- ZTB_NZONE. -/
def numZones (s : State) : Nat := getF s Reg.ZTB_NZONE 0 20

/-- The surface of zone `z` (R54). -/
def zoneSurface (s : State) (z : Nat) : Nat := z % numSurfaces s

/-- The terrace of zone `z` (R54). -/
def zoneTerrace (s : State) (z : Nat) : Nat := z / numSurfaces s

/-- The affinity set of zone `z`: 2 × terrace + actuator (R54). -/
def zoneAffinity (s : State) (z : Nat) : Nat := 2 * zoneTerrace s z + surfaceAct s (zoneSurface s z)

/-- The first track of terrace `t` on surface `f`, from the terrace table (R53). -/
def terraceTrack (s : State) (t f : Nat) : Nat :=
  bitsOf (sram32 s (rdN s Reg.ZTB_TTBASE + 4 * (t * numSurfaces s + f))) 0 24

/-- The first track of zone `z`. -/
def zoneFirstTrack (s : State) (z : Nat) : Nat := terraceTrack s (zoneTerrace s z) (zoneSurface s z)

/-- The track and sector of physical index `p` of a run of sectors that starts at track `t`,
through the entries of a surface (R55). -/
def walkTracks : List Nat → Nat → Nat → Option (Nat × Nat)
  | [], _, _ => none
  | e :: l, t, p =>
    if btCovers e t then
      let here := (btFirst e + btNtrk e - t) * btSpt e
      if p < here then some (t + p / btSpt e, p % btSpt e)
      else walkTracks l (btFirst e + btNtrk e) (p - here)
    else walkTracks l t p

/-- The physical index of sector `k` of track `t` in a run of sectors that starts at track `t0`. -/
def walkBack : List Nat → Nat → Nat → Nat → Option Nat
  | [], _, _, _ => none
  | e :: l, t0, t, k =>
    if btCovers e t0 then
      if t < btFirst e + btNtrk e then
        if t0 ≤ t then some ((t - t0) * btSpt e + k) else none
      else (walkBack l (btFirst e + btNtrk e) t k).map
        (fun p => (btFirst e + btNtrk e - t0) * btSpt e + p)
    else walkBack l t0 t k

/-- The track and sector of physical index `p` of zone `z`. -/
def zonePlace (s : State) (z p : Nat) : Option (Nat × Nat) :=
  walkTracks (bandTable s (zoneSurface s z)) (zoneFirstTrack s z) p

/-- The physical index in zone `z` of sector `k` of track `t`. -/
def zonePhys (s : State) (z t k : Nat) : Option Nat :=
  walkBack (bandTable s (zoneSurface s z)) (zoneFirstTrack s z) t k

/-- The last terrace below `n` whose first track on surface `f` is at or below track `t` (R53). -/
def lastTerrace (s : State) (f t : Nat) : Nat → Option Nat
  | 0 => none
  | n + 1 => if terraceTrack s n f ≤ t then some n else lastTerrace s f t n

/-- The zone that holds track `t` of surface `f` within its extent (R53, R55). -/
def zoneOfTrack (s : State) (f t : Nat) : Option Nat :=
  match lastTerrace s f t (getF s Reg.ZTB_NTER 0 20) with
  | none => none
  | some ter =>
    let z := ter * numSurfaces s + f
    match zonePhys s z t 0 with
    | some p => if p < zcap s + zoneSpares then some z else none
    | none => none

/-! ### The zone table (R64) -/

/-- SRAM offset of the zone table. -/
abbrev zoneTableBase : Nat := 0x17600000

/-- SRAM offset of the entry of zone `z`. -/
def zoneAddr (z : Nat) : Nat := zoneTableBase + 16 * z

/-- Bits 63:0 of the entry of zone `z`. -/
def zoneLow (s : State) (z : Nat) : Nat := sram64 s (zoneAddr z)

/-- Bits 127:64 of the entry of zone `z`. -/
def zoneHigh (s : State) (z : Nat) : Nat := sram64 s (zoneAddr z + 8)

def zCptr (s : State) (z : Nat) : Nat := bitsOf (zoneLow s z) 0 18
/-- The state of zone `z`; every zone on a surface of an actuator that SURVEY disabled is Offline
(R63). -/
def zState (s : State) (z : Nat) : Nat :=
  if disabled s (surfaceAct s (zoneSurface s z)) then 0xF else bitsOf (zoneLow s z) 18 4
def zTailu (s : State) (z : Nat) : Bool := (zoneLow s z).testBit 22
def zRptr (s : State) (z : Nat) : Nat := bitsOf (zoneLow s z) 32 18
def zNslip (s : State) (z : Nat) : Nat := bitsOf (zoneLow s z) 50 9
def zEpoch (s : State) (z : Nat) : Nat := bitsOf (zoneHigh s z) 0 32
def zSliphead (s : State) (z : Nat) : Nat := bitsOf (zoneHigh s z) 32 20

def setCptr (z v : Nat) (s : State) : State := sramPutPart s (zoneAddr z) 0 18 v
def setZState (z v : Nat) (s : State) : State := sramPutPart s (zoneAddr z) 18 4 v
def setTailu (z : Nat) (b : Bool) (s : State) : State := sramPutPart s (zoneAddr z) 22 1 (if b then 1 else 0)
def setRptr (z v : Nat) (s : State) : State := sramPutPart s (zoneAddr z) 32 18 v
def setNslip (z v : Nat) (s : State) : State := sramPutPart s (zoneAddr z) 50 9 v
def setEpoch (z v : Nat) (s : State) : State := sramPutPart s (zoneAddr z + 8) 0 32 v
def setSliphead (z v : Nat) (s : State) : State := sramPutPart s (zoneAddr z + 8) 32 20 v

/-- Zone states by value (R64). -/
def zEmpty : Nat := 1
def zImpOpen : Nat := 2
def zExpOpen : Nat := 3
def zClosed : Nat := 4
def zReadOnly : Nat := 0xD
def zFull : Nat := 0xE
def zOffline : Nat := 0xF

/-- The state value is one of R64. -/
def zStateLegal (v : Nat) : Bool := v ∈ [zEmpty, zImpOpen, zExpOpen, zClosed, zReadOnly, zFull, zOffline]

/-- A zone state that counts as active (R115). -/
def zActive (v : Nat) : Bool := v == zImpOpen || v == zExpOpen || v == zClosed

/-- A zone state that counts as open. -/
def zOpen (v : Nat) : Bool := v == zImpOpen || v == zExpOpen

/-! ### Slip lists (R57, R58) -/

/-- The slip entries from pool index `i` on, at most `fuel` of them. -/
def walkSlips (s : State) : Nat → Nat → List Nat
  | 0, _ => []
  | fuel + 1, i =>
    if i = 0xFFFFF then [] else
      let e := sram64 s (rdN s Reg.ZTB_SLBASE + 8 * i)
      bitsOf e 0 18 :: walkSlips s fuel (bitsOf e 32 20)

/-- The slip list of zone `z`: physical indices, rising. -/
def zoneSlips (s : State) (z : Nat) : List Nat := walkSlips s (zNslip s z) (zSliphead s z)

/-- The pool index of the last slip entry of a list that starts at `i`. -/
def lastSlip (s : State) : Nat → Nat → Nat
  | 0, i => i
  | fuel + 1, i =>
    let e := sram64 s (rdN s Reg.ZTB_SLBASE + 8 * i)
    if bitsOf e 32 20 = 0xFFFFF then i else lastSlip s fuel (bitsOf e 32 20)

/-- The physical index that logical offset `q` maps to under a rising slip list (R57). -/
def slipMap (q : Nat) (slips : List Nat) : Nat := slips.foldl (fun p x => if x ≤ p then p + 1 else p) q

/-- The logical offset that physical index `p` holds under a slip list. -/
def slipUnmap (p : Nat) (slips : List Nat) : Nat := p - (slips.filter (fun x => decide (x < p))).length

/-- The physical index of logical offset `q` of zone `z`. -/
def zoneToPhys (s : State) (z q : Nat) : Nat := slipMap q (zoneSlips s z)

/-- The logical offset of physical index `p` of zone `z`. -/
def zoneToLogical (s : State) (z p : Nat) : Nat := slipUnmap p (zoneSlips s z)

/-! ## The conventional region (R62) -/

/-- The conventional entries: those of surface 0 with KIND = 1, which come first (R34). -/
def convEntries (s : State) : List Nat := (bandTable s 0).takeWhile (fun e => btKind e == 1)

/-- C_k: sectors of conventional entry `e` on all surfaces (R62). -/
def convSectors (ns e : Nat) : Nat := ns * btNtrk e * btSpt e

/-- NSID 1 capacity in sectors, the sum of C_k. -/
def convCapacity (ns : Nat) (l : List Nat) : Nat := (l.map (convSectors ns)).foldl (· + ·) 0

/-- The place of NSID 1 LBA `lba`: surface, track, sector, through the entries of NSID 1. -/
def convPlaceIn (ns : Nat) : List Nat → Nat → Option (Nat × Nat × Nat)
  | [], _ => none
  | e :: l, lba =>
    if lba < convSectors ns e then
      let m := lba / btSpt e
      some (m % ns, btFirst e + m / ns, lba % btSpt e)
    else convPlaceIn ns l (lba - convSectors ns e)

/-- The place of an NSID 1 LBA (R62). The first track is that of surface 0's entry; entries have
equal track counts on every surface, so they start at equal tracks. -/
def convPlace (s : State) (lba : Nat) : Option (Nat × Nat × Nat) :=
  convPlaceIn (numSurfaces s) (convEntries s) lba

/-- The LBA of sector `k` of track `t` of surface `f`, if it lies in NSID 1. -/
def convLbaIn (ns f t k : Nat) : List Nat → Nat → Option Nat
  | [], _ => none
  | e :: l, base =>
    if btCovers e t then some (base + ((t - btFirst e) * ns + f) * btSpt e + k)
    else convLbaIn ns f t k l (base + convSectors ns e)

/-- The NSID 1 LBA of sector `k` of track `t` of surface `f`. -/
def convLba (s : State) (f t k : Nat) : Option Nat :=
  convLbaIn (numSurfaces s) f t k (convEntries s) 0

end Sys2Proof.Machine
end

