-- ==== Sys2Proof/Machine/Codes.lean ====
section
/-! DEFINITION. The content of a physical sector (chapter 2): the LDPC codes C1 and C2 with their
parity-check matrix and encoder (R43), the codeword (R40), and the bits of a frame on the track (R37,
R38). -/

namespace Sys2Proof.Machine

/-! ## The codes (R43) -/

/-- The circulant size Z. -/
abbrev circulant : Nat := 520

/-- Bytes of one block of Z bits. -/
abbrev blockBytes : Nat := 65

/-- Information block columns of both codes. -/
abbrev infoBlocks : Nat := 64

/-- m, the parity block columns of the code: 8 for C1 and 12 for C2. -/
def parityBlocks (code : Nat) : Nat := if code = 0 then 8 else 12

/-- P^s times a block. The first bit sent is the most significant bit of a block, and row `r` of P^s has
its 1 in column `r + s`, so the product is the block rotated left by `s` bits. -/
def rotBlock (s x : Nat) : Nat :=
  x * 2 ^ (s % circulant) % 2 ^ circulant + x / 2 ^ (circulant - s % circulant)

/-- The first `n` blocks of a sequence of bytes; a byte that is not there counts as 0. -/
def blocksOf : Nat → List Nat → List Nat
  | 0, _ => []
  | n + 1, bytes =>
    let b := bytes.take blockBytes
    beNat b * 256 ^ (blockBytes - b.length) :: blocksOf n (bytes.drop blockBytes)

/-- The blocks of a codeword of the code: information, then parity. -/
def wordBlocks (code : Nat) (bytes : List Nat) : List Nat := blocksOf (infoBlocks + parityBlocks code) bytes

/-- The row that information column `j` has its `t`-th nonzero block in. -/
def infoRow (m j t : Nat) : Nat := (j + t * (m / 4)) % m

/-- The shift of that block. -/
def infoShift (m j t : Nat) : Nat := (37 * (j + 1) * (t + 1) + 11 * infoRow m j t) % circulant

/-- What the information blocks add to row `r` of the product. -/
def infoSum (m : Nat) (blocks : List Nat) (r : Nat) : Nat :=
  ((List.range infoBlocks).flatMap fun j => (List.range 4).map fun t =>
    if infoRow m j t = r then rotBlock (infoShift m j t) (blocks.getD j 0) else 0).foldl Nat.xor 0

/-- What the parity blocks add to row `r`: column 64 in rows 0, m/2 and m - 1, and column 64 + k in
rows k - 1 and k. -/
def paritySum (m : Nat) (blocks : List Nat) (r : Nat) : Nat :=
  let p := fun k => blocks.getD (infoBlocks + k) 0
  let first := if r = 0 ∨ r = m - 1 then rotBlock 1 (p 0) else if r = m / 2 then p 0 else 0
  let own := if r = 0 then 0 else p r
  let after := if r + 1 < m then p (r + 1) else 0
  Nat.xor first (Nat.xor own after)

/-- Row `r` of the product of the parity-check matrix and a word. -/
def syndrome (code : Nat) (blocks : List Nat) (r : Nat) : Nat :=
  Nat.xor (infoSum (parityBlocks code) blocks r) (paritySum (parityBlocks code) blocks r)

/-- The word is a codeword: its product with the parity-check matrix is zero. -/
def codewordValid (code : Nat) (bytes : List Nat) : Bool :=
  let blocks := wordBlocks code bytes
  (List.range (parityBlocks code)).all fun r => syndrome code blocks r == 0

/-- The parity blocks from `k` on, each from the row before it: block `k` is `prev`, and row `k` gives
block `k + 1`. -/
def parityChain (m : Nat) (sums : List Nat) (p0 : Nat) : Nat → Nat → Nat → List Nat
  | 0, _, _ => []
  | fuel + 1, k, prev =>
    if m ≤ k then [] else
    let here := Nat.xor (sums.getD k 0) (Nat.xor prev (if k = m / 2 then p0 else 0))
    prev :: parityChain m sums p0 fuel (k + 1) here

/-- The parity blocks of information blocks: block 0 is the sum of all rows' information, and row 0 then
gives block 1. -/
def parityOf (code : Nat) (info : List Nat) : List Nat :=
  let m := parityBlocks code
  let sums := (List.range m).map (infoSum m info)
  let p0 := sums.foldl Nat.xor 0
  p0 :: parityChain m sums p0 m 1 (Nat.xor (sums.getD 0 0) (rotBlock 1 p0))

/-- The codeword of a sector's 4,160 information bytes: they come first, then the parity (R40). -/
def encodeSector (code : Nat) (info : List Nat) : List Nat :=
  info ++ (parityOf code (blocksOf infoBlocks info)).flatMap (beBytes blockBytes)

/-! ## A frame's bits (R37, R38) -/

/-- The sync mark and the resync mark. -/
abbrev syncMark : Nat := 0x5E7A21C9
abbrev resyncMark : Nat := 0xA185DE36

/-- Consecutive bits on a track: `len` of them from bit `at_`, the most significant bit of `value` first. -/
structure TrackBits where
  at_ : Nat
  len : Nat
  value : Nat
  deriving DecidableEq, Repr

/-- `n` bits of 0b1100 repeated, of which the last pattern may be cut short. -/
def pattern (n : Nat) : Nat := (List.range n).foldl (fun v i => 2 * v + (if i % 4 < 2 then 1 else 0)) 0

/-- The bits `from_` to `from_ + n - 1` of a codeword of `len` bits, held as a number. -/
def codeBits (len word from_ n : Nat) : Nat := word / 2 ^ (len - from_ - n) % 2 ^ n

/-- The codeword fragments on the track; each after the first follows its resync field. -/
def fragmentBits (e len word : Nat) : Nat → List (Nat × Nat) → List TrackBits
  | _, [] => []
  | done, (x, n) :: l =>
    let lead : List TrackBits := if done = 0 then [] else
      [⟨x - 32 - btRspre e, btRspre e, pattern (btRspre e)⟩, ⟨x - 32, 32, resyncMark⟩]
    lead ++ ⟨x, n, codeBits len word done n⟩ :: fragmentBits e len word (done + n) l

/-- What is written for a frame of band entry `e` that holds the codeword: preamble, sync mark, the
codeword's fragments with their resync fields, the pad, and while write gate is held the gap. A servo
field truncates the pad or the gap that it falls into. -/
def frameBits (e : Nat) (fr : Frame) (bytes : List Nat) (gated : Bool) : List TrackBits :=
  let len := codewordBits e
  let word := beNat (bytes.take (len / 8))
  let pad := fr.padEnd - fr.codeEnd
  [⟨fr.start, btPre e, pattern (btPre e)⟩, ⟨fr.start + btPre e, 32, syncMark⟩]
    ++ fragmentBits e len word 0 fr.pieces
    ++ [⟨fr.codeEnd, pad, pattern pad⟩]
    ++ if gated then [⟨fr.padEnd, fr.gapEnd - fr.padEnd, pattern (fr.gapEnd - fr.padEnd)⟩] else []

end Sys2Proof.Machine
end

