-- ==== Sys2Proof/Machine/Search.lean ====
section
/-! DEFINITION. Finding a sector (R44 to R49) and what a lane reports of it (R70 to R75): the search of a
window for a mark, the re-search and the offset re-decode, and the limits of the decoder. -/

namespace Sys2Proof.Machine

/-! ## Sync outcomes and decode outcomes (R50, R75) -/

abbrev syncOnTime : Nat := 0
abbrev syncEarly : Nat := 1
abbrev syncLate : Nat := 2
abbrev syncResearch : Nat := 3
abbrev syncRedecode : Nat := 4
abbrev syncMiss : Nat := 5
abbrev decOk : Nat := 0
abbrev decFail : Nat := 1
abbrev decNone : Nat := 2
abbrev decAbort : Nat := 3

/-! ## The search (R44, R45) -/

/-- The 32 hard decisions from `o` bits after the middle of a window of 128 bits on each side. -/
def windowWord (w : BitVec 288) (o : Int) : Nat := w.toNat / 2 ^ (128 - o).toNat % 2 ^ 32

/-- The number of bits that are 1 in the low `n` bits of a number. -/
def bitCount (n v : Nat) : Nat := ((List.range n).filter v.testBit).length

/-- The bits in which the decisions at offset `o` differ from a mark. -/
def markDistance (w : BitVec 288) (mark : Nat) (o : Int) : Nat := bitCount 32 (Nat.xor (windowWord w o) mark)

/-- The offsets from -h to h, the nearest to 0 first and the earlier of two that are equally near. -/
def offsetsByNearness (h : Nat) : List Int :=
  0 :: (List.range h).flatMap fun (i : Nat) => [-((i : Int) + 1), (i : Int) + 1]

/-- Of two candidates (offset and differing bits), the one taken is the one with fewer differing bits;
the first is nearer, or equally near and earlier, and a tie goes to it (R45). -/
def betterMark (a b : Int × Nat) : Int × Nat := if b.2 < a.2 then b else a

/-- The offset of the mark that the lane takes from e - h to e + h, if a candidate differs in at most
`most` bits. -/
def searchMark (w : BitVec 288) (mark h most : Nat) : Option Int :=
  let cands := ((offsetsByNearness h).map fun o => (o, markDistance w mark o)).filter fun c => decide (c.2 ≤ most)
  match cands with
  | [] => none
  | c :: l => some (l.foldl betterMark c).1

/-- The outcome of a mark found in its window (R46). -/
def windowOutcome (o : Int) : Nat := if o = 0 then syncOnTime else if o < 0 then syncEarly else syncLate

/-- What a search accepts: half-widths and differing bits in the window and in the re-search, and the
largest offset of an offset re-decode. -/
structure SearchRule where
  half : Nat
  most : Nat
  rsHalf : Nat
  rsMost : Nat
  redec : Nat
  deriving DecidableEq, Repr

/-- The search rule of ZTB_SYNC with a window of half-width `h`. -/
def searchRule (s : State) (h : Nat) : SearchRule :=
  ⟨h, getF s Reg.ZTB_SYNC 0 3, getF s Reg.ZTB_SYNC 8 8, getF s Reg.ZTB_SYNC 4 3, getF s Reg.ZTB_SYNC 16 4⟩

/-- The offset at which the sync mark is located, with the outcome: in the window, or by re-search
(R47 step 1) where that is made. -/
def locateMark (r : SearchRule) (g : SectorSignal) (research : Bool) : Option (Int × Nat) :=
  match searchMark g.mark syncMark r.half r.most with
  | some o => some (o, windowOutcome o)
  | none =>
    if research then (searchMark g.mark syncMark r.rsHalf r.rsMost).map fun o => (o, syncResearch) else none

/-- The offset of each later fragment, where its resync mark is found (R49). -/
def locateResync (r : SearchRule) (g : SectorSignal) (frags : Nat) : List (Option Int) :=
  (List.range (frags - 1)).map fun i => (g.resync[i]?).bind fun w => searchMark w resyncMark r.half r.most

/-! ## Decoding (R43, R47, R49, R73) -/

/-- The decoder's limits: the code, the iterations of a global iteration (0 acts as 1), and the global
iterations. -/
structure DecoderRule where
  code : Nat
  maxit : Nat
  globals : Nat
  deriving DecidableEq, Repr

/-- The decoder rule of lane `l` for a band entry. -/
def decoderRule (s : State) (l e : Nat) : DecoderRule :=
  ⟨btCode e, max 1 (getF s (Reg.LANE_DEC l) 0 5), getF s (Reg.LANE_DEC l) 8 2 + 1⟩

/-- The attempt with the fragments at these offsets. One that is not made decides nothing. -/
def tryAt (g : SectorSignal) (offs : List Int) : DecodeTry :=
  (g.tries.find? fun t => t.offsets == offs).getD ⟨offs, [], 0, 0, 0⟩

/-- The bytes that an attempt decides. -/
def tryBytes (t : DecodeTry) : List Nat := t.word.map BitVec.toNat

/-- The attempt converges: within the iterations that LANE_DEC allows it decides a valid codeword. -/
def converges (d : DecoderRule) (t : DecodeTry) : Bool :=
  decide (t.gitn < d.globals ∧ t.it ≤ d.maxit * (t.gitn + 1)) && !t.word.isEmpty && codewordValid d.code (tryBytes t)

/-- The offsets of an offset re-decode after 0: +1, -1, +2, -2 and so on. -/
def redecodeOffsets (n : Nat) : List Int := (List.range n).flatMap fun (i : Nat) => [(i : Int) + 1, -((i : Int) + 1)]

/-- The fragment that an offset re-decode varies: the first whose mark was missed. -/
def missedFragment (offs : List (Option Int)) : Option Nat := offs.findIdx? Option.isNone

/-- What a decoder reports of a sector. -/
structure SectorReport where
  sync : Nat
  dec : Nat
  it : Nat
  gitn : Nat
  ncorr : Nat
  ta : Bool
  ovr : Bool
  data : List Nat
  deriving DecidableEq, Repr

/-- The report of an attempt; iterations beyond what the decoder runs are not made. -/
def tryReport (d : DecoderRule) (sync dec : Nat) (t : DecodeTry) : SectorReport :=
  ⟨sync, dec, min t.it (d.maxit * d.globals), min t.gitn (d.globals - 1), min t.ncorr 4095, false, false,
    (tryBytes t).take 4160⟩

/-- The report of a sector in which no codeword was located. -/
def missReport : SectorReport := ⟨syncMiss, decNone, 0, 0, 0, false, false, []⟩

/-- The attempts of an offset re-decode, each with the missed fragment `i` moved. -/
def redecodeTries (r : SearchRule) (g : SectorSignal) (offs : List Int) (i : Nat) : List DecodeTry :=
  (redecodeOffsets r.redec).map fun o => tryAt g (offs.set i o)

/-- The end of a sector's search and decode (R46, R47, R49). Fragments whose marks are missed stand at
their expected positions; where the decode then fails, the missed one's offset is varied. -/
def decodeSector (r : SearchRule) (d : DecoderRule) (g : SectorSignal) (frags : Nat) : SectorReport :=
  let found := locateMark r g true
  let places := (found.map Prod.fst) :: locateResync r g frags
  let offs := places.map fun o => o.getD 0
  let first := tryAt g offs
  let code := (found.map Prod.snd).getD syncRedecode
  if converges d first then tryReport d code decOk first
  else
    match (missedFragment places).bind fun i => (redecodeTries r g offs i).find? (converges d) with
    | some t => tryReport d syncRedecode decOk t
    | none => if found.isSome then tryReport d code decFail first else missReport

/-- The sector as it stands when its time is up (R48, R74): SYNCMISS where no mark was located by then,
else DEC = FAIL with the hard decisions. -/
def cutReport (r : SearchRule) (d : DecoderRule) (g : SectorSignal) (frags : Nat) (searched : Bool) : SectorReport :=
  match locateMark r g searched with
  | some (o, code) =>
    tryReport d code decFail (tryAt g (o :: (locateResync r g frags).map fun o => o.getD 0))
  | none => missReport

/-! ## The front end (R70, R71) -/

/-- The samples of a sector: one per channel bit of its frame, resync fields included. -/
def sectorSamples (e : Nat) (fr : Frame) : Nat :=
  btPre e + 32 + codewordBits e + 24 + (fr.frags - 1) * (btRspre e + 32)

/-- A report with what the front end saw: TA where detection is enabled and the baseline shift exceeds
TATH, OVR where more than 1% of the samples reach a rail. -/
def withFrontEnd (s : State) (l samples : Nat) (g : SectorSignal) (r : SectorReport) : SectorReport :=
  { r with
    ta := bit s (Reg.LANE_AFE l) 17 && decide (getF s (Reg.LANE_AFE l) 18 8 < g.shift.toNat)
    ovr := decide (samples < 100 * g.rails) }

end Sys2Proof.Machine
end

