-- ==== Sys2Proof/Machine/Sluice.lean ====
section
/-! DEFINITION. The Sluice, the hardware output guard: its live conditions (R411), the outputs that
they let through, and the latch (R415). -/

namespace Sys2Proof.Machine

/-- Servo state of actuator `a`. -/
def srvAt (s : State) (a : Nat) : Srv := s.srv.getD a Srv.reset

/-- Change the servo state of actuator `a`. -/
def modSrv (s : State) (a : Nat) (f : Srv → Srv) : State := { s with srv := modAt s.srv a f }

/-- The servo state of slot `n`. -/
def srvSlot (s : State) (n : Nat) : SrvSlot := (srvAt s (slotAct n)).slots.getD (n % 4) SrvSlot.reset

/-- The write guard mode in effect (R118, ZTB_WPSTS bits 2:1). -/
def guardMode (s : State) : Nat := getF s Reg.ZTB_WPSTS 1 2

/-- The write-inhibit and shock-threshold checks apply: INHIBIT or BOTH (R116). -/
def guardInhibits (s : State) : Bool := guardMode s != 1

/-- The index of head `h` of actuator `a` in the Sluice's per-head limits. -/
def headIndex (a h : Nat) : Nat := 12 * a + h

/-- The bucket level of head `h` of actuator `a`, in full-power microseconds. -/
def dbLevel (s : State) (a h : Nat) : Rat := s.dbLevel.getD (headIndex a h) 0

/-- The control channel of actuator `a`. -/
def imoneAt (s : State) (a : Nat) : ImoneState := s.imone.getD a ImoneState.reset

/-- FLT_N of actuator `a`'s preamp is low, or its supplies are off, which counts as that (R518). -/
def fltHeld (s : State) (a : Nat) : Bool :=
  (if a = 0 then s.slu.fltLowA else s.slu.fltLowB) || (imoneAt s a).supplyOff

/-- The Sluice takes FLT_N of actuator `a` as low: it also does so during a retraining (R525). -/
def fltLow (s : State) (a : Nat) : Bool :=
  fltHeld s a || ((imoneAt s a).training && (imoneAt s a).again)

/-- Condition `c` of R411 holds for slot `n`. -/
def sluHolds (s : State) (n c : Nat) : Bool :=
  let a := slotAct n
  match c with
  | 0 => getF s Reg.ANG_STS 0 3 == 3 && bit s (Reg.SRV_STS a) (8 + n % 4)
  | 1 =>
    decide ((srvSlot s n).pct ≤ (getF s Reg.SLU_PESHARD 0 8 : Rat))
      && (!guardInhibits s || decide ((srvSlot s n).pct ≤ (getF s Reg.SLU_PESLIM 0 8 : Rat)))
  | 2 => !bit s Reg.SLU_STS 1 && (!guardInhibits s || !bit s Reg.SLU_STS 0)
  | 3 => bit s Reg.SPN_STS 7 && !bit s Reg.SLU_STS 3
  | 4 => !s.slu.v12Bad && !s.slu.v5Bad
  | 5 => (slotAt s n).targetOk
  | 6 =>
    match slotHead s n with
    | some h => decide (dbLevel s a h < (rdN s (Reg.SLU_DBCAP (headIndex a h)) * 1000 : Nat))
    | none => true
  | 7 => !fltLow s a
  | 8 => !(slotAt s n).aoverFail
  | 9 => mode s == Mode.ready || mode s == Mode.active || mode s == Mode.test
  | _ => bit s Reg.SLU_LOCK 0 && bit s Reg.SEC_STS 5

/-- Conditions that write gate needs. -/
def wgConds : List Nat := [0, 1, 2, 3, 4, 5, 6, 7, 8, 9, 10]

/-- Conditions that assist enable needs. -/
def assistConds : List Nat := [2, 4, 6, 7, 8, 9, 10]

/-- Every write-gate condition of the slot holds (SLUOK of R140). -/
def wgPass (s : State) (n : Nat) : Bool := wgConds.all (sluHolds s n)

/-- Every assist condition of the slot holds. -/
def assistPass (s : State) (n : Nat) : Bool := assistConds.all (sluHolds s n)

/-- SLU_WGSTS of the slot: one bit per failing condition, live. -/
def sluFailing (s : State) (n : Nat) : Nat :=
  (wgConds.map (fun c => if sluHolds s n c then 0 else 2 ^ c)).foldl (· + ·) 0

/-- The Sluice has latched slot `n`'s write gate low. -/
def wgLatched (s : State) (n : Nat) : Bool := bit s Reg.SLU_STS (8 + n)

/-- The Sluice has latched slot `n`'s assist low. -/
def assistLatched (s : State) (n : Nat) : Bool := bit s Reg.SLU_STS (16 + n)

/-- The slot's head lies over a servo field of its surface (R36). DESIGN CHOICE (log entry 12): the field is met at
the leading reader's angle, with no shift by the writer's WDLY. -/
def inServoField (s : State) (n : Nat) : Bool :=
  match slotSurface s n with
  | none => false
  | some f =>
    let w := wedges s
    if w = 0 then false else
    let rel := angDist (skewOf s f) (angNow s)
    let k := rel * w / ticksPerRev
    let near := wedgeAngle w k
    let next := wedgeAngle w (k + 1)
    decide (rel - near < getF s Reg.ZTB_SVO 16 16) || decide (next - rel ≤ getF s Reg.ZTB_SVO 0 16)

/-- The write gate output of slot `n`: asserted by its queue, not latched, every condition of
R411 holding, no settle-interval hold (R80), blanked over servo fields (R142), and low while RESET_N is
low (R534). -/
def wgOut (s : State) (n : Nat) : Bool :=
  !s.sys.resetLow && (slotAt s n).wg && !wgLatched s n && wgPass s n && !(slotAt s n).hswHold && !inServoField s n

/-- The assist enable output of slot `n`, ramps included (R90), low while RESET_N is low (R534). -/
def assistOut (s : State) (n : Nat) : Bool :=
  !s.sys.resetLow && (slotAt s n).assistEn && !assistLatched s n && assistPass s n

/-- Raise a class S cause in the slot's context if it runs WRITE_RUN or PREBIAS (R152). -/
def raiseWriter (n cause : Nat) (s : State) : State :=
  if writing s (slotAct n) (n % 4) then raiseS (slotAct n) (n % 4) cause s else s

/-- Raise a class S cause in every context of actuator `q` that runs WRITE_RUN or PREBIAS. -/
def raiseWriters (q cause : Nat) (s : State) : State :=
  (List.range 5).foldl (fun s x => if writing s q x then raiseS q x cause s else s) s

/-- The class S cause of a latch, chosen from the conditions failing now (R415). -/
def latchCause (s : State) (n : Nat) : State :=
  if !sluHolds s n 7 then raiseAll (slotAct n) SCause.pfault s
  else if !sluHolds s n 2 then raiseWriters (slotAct n) SCause.shock s
  else raiseWriter n SCause.inhibit s

/-- What every latch does beside its status bit (R415). -/
def latchEffects (n : Nat) (s : State) : State :=
  latchCause (satInc (evt Reg.SLU_EVT 0 s) Reg.SLU_INHCNT 32) n

/-- The assist of slot `n` drops at once, without a ramp (R90). -/
def dropAssist (n : Nat) (s : State) : State :=
  setBit (modSlot s n (fun t => { t with assistEn := false, ramp := .idle })) (Reg.LANE_APWR n) 16 false

/-- Latch slot `n`'s write gate low. -/
def latchWg (n : Nat) (s : State) : State :=
  let s := evtIf (!sluHolds s n 5) Reg.SLU_EVT 4 s
  latchEffects n (setBit s Reg.SLU_STS (8 + n) true)

/-- Latch slot `n`'s assist low. -/
def latchAssist (n : Nat) (s : State) : State :=
  latchEffects n (dropAssist n (setBit s Reg.SLU_STS (16 + n) true))

/-- The Sluice latches each output of slot `n` that the queue has asserted and that a failing
condition holds low (R414, R415); a ramp down that is in progress ends at once (R90). -/
def sluApply (n : Nat) (s : State) : State :=
  let s := if (slotAt s n).wg && !wgLatched s n && !wgPass s n then latchWg n s else s
  if assistLatched s n || assistPass s n then s
  else if (slotAt s n).assist then latchAssist n s
  else if (slotAt s n).assistEn then dropAssist n s
  else s

/-- The Sluice acts on every slot. -/
def sluAll (s : State) : State := (List.range 8).foldl (fun s n => sluApply n s) s

/-! ## The target check (R412) -/

/-- The lower edge of the window of zone `z`: the track that holds the physical sector at RPTR, or
the track before it while that sector is sector 0 of its track. -/
def windowEdge (s : State) (z : Nat) : Option Nat :=
  (zonePlace s z (zoneToPhys s z (zRptr s z))).map (fun tk => if tk.2 = 0 then tk.1 - 1 else tk.1)

/-- The target check of slot `n` passes. -/
def targetPasses (s : State) (n : Nat) : Bool :=
  let ln := laneAt s n
  match slotSurface s n with
  | none => false
  | some f =>
    if ln.mode != 3 then false else
    match bandOfTrack s f ln.track with
    | none => false
    | some e =>
      if btKind e = 1 then true else
      match zoneOfTrack s f ln.track with
      | none => false
      | some z =>
        zOpen (zState s z) &&
        match windowEdge s z, zonePlace s z (zcap s + zoneSpares - 1) with
        | some lo, some (hi, _) => decide (lo ≤ ln.track ∧ ln.track ≤ hi)
        | _, _ => false

/-- A change of TRACK, MODE, head or STATE holds the check failed until its evaluation ends. -/
def targetPending (n : Nat) (s : State) : State := modSlot s n (fun t => { t with targetOk := false })

/-- Every slot whose target may lie in zone `z` is held failed after a change of its STATE. -/
def targetPendingZone (z : Nat) (s : State) : State :=
  (List.range 8).foldl (fun s n =>
    match slotSurface s n with
    | some f => if zoneOfTrack s f (laneAt s n).track = some z then sluApply n (targetPending n s) else s
    | none => s) s

/-- The evaluation of slot `n`'s target check ends. -/
def targetCheck (n : Nat) (s : State) : State :=
  sluApply n (modSlot s n (fun t => { t with targetOk := targetPasses s n }))

end Sys2Proof.Machine
end

