-- ==== Sys2Proof/Machine/Motion.lean ====
section
/-! DEFINITION. What other blocks do to the spindle and the actuators: the phases of the spindle drive,
coasting, braking, the loss of the servo angle (chapter 7), and the controlled retract (R188). -/

namespace Sys2Proof.Machine

/-- Change the spindle state that no register shows. -/
def modSpn (s : State) (f : Spn → Spn) : State := { s with spn := f s.spn }

/-! ## Servo readiness and retract (R180, R188) -/

/-- SRVRDY of every slot of actuator `a` falls, and the Sluice acts on it. -/
def clearReady (a : Nat) (s : State) : State := sluAll (setF s (Reg.SRV_STS a) 8 4 0)

/-- Actuator `a` is retracting. -/
def retracting (s : State) (a : Nat) : Bool := (srvAt s a).retract.isSome

/-- An overrun or a retract triggers the end of a capture in ring mode (R190). -/
def captureTriggered (a : Nat) (s : State) : State :=
  let c := (srvAt s a).capture
  if c.running && getF s (Reg.SRV_CAPCTL a) 24 2 == 3 && c.post.isNone then
    modSrv s a fun v => { v with capture := { v.capture with post := some (getF s (Reg.SRV_CAPPOST a) 0 16) } }
  else s

/-- Actuator `a` starts a controlled retract if its heads are loaded; one that has started
continues (R188, R439). Its laws stop, and SRV_CTL.EN reads 0. -/
def startRetract (a : Nat) (why : RetractFor) (s : State) : State :=
  if retracting s a || !loaded s a then s else
  let s := captureTriggered a (modSrv s a fun v =>
    { v with retract := some why, profile := none, handover := none, pendingOut := [] })
  let s := setBit (setBit s (Reg.SRV_STS a) 6 true) (Reg.SRV_STS a) 0 false
  let s := setBit (setF s (Reg.SRV_STS a) 2 4 0) (Reg.SRV_CTL a) 0 false
  clearReady a s

/-! ## Phases of the spindle drive (R201, R202) -/

namespace SpnPhase
abbrev stopped : Nat := 0
abbrev observe : Nat := 1
abbrev brake : Nat := 2
abbrev hold : Nat := 3
abbrev align : Nat := 4
abbrev openLoop : Nat := 5
abbrev run : Nat := 6
abbrev servoComm : Nat := 7
abbrev coast : Nat := 8
abbrev reacq : Nat := 9
abbrev fault : Nat := 10
end SpnPhase

/-- SPN_STS.PHASE. -/
def spnPhase (s : State) : Nat := getF s Reg.SPN_STS 0 4

/-- SPN_STS.SYNC. -/
def spnSync (s : State) : Bool := bit s Reg.SPN_STS 7

/-- SPN_STS.CSRC: commutation from the servo angle. -/
def spnCsrc (s : State) : Bool := bit s Reg.SPN_STS 8

/-- The bridge applies the Weir's output. -/
def spnDriven (p : Nat) : Bool :=
  p == SpnPhase.brake || p == SpnPhase.openLoop || p == SpnPhase.run || p == SpnPhase.servoComm

/-- Set SYNC; the Sluice's SPIN condition follows, and a loss interrupts the time at the target (R208). -/
def setSync (b : Bool) (s : State) : State :=
  sluAll (setBit (modSpn s fun p => { p with goodSince := if b then p.goodSince else none }) Reg.SPN_STS 7 b)

/-- MOFF is not valid (R202). -/
def forgetMoff (s : State) : State :=
  modSpn (setBit s Reg.SPN_MOFF 31 false) fun p => { p with learned := 0 }

/-- Dissipative braking ends (R215). -/
def endDissipative (s : State) : State :=
  modSpn (setBit (setBit s Reg.SPN_STS 10 false) Reg.WEIR_STS 3 false) fun p => { p with below := 0 }

/-- Set PHASE: SYNC is 0 in every phase but RUN, the servo angle commutates in SERVOCOMM alone, and
MOFF is forgotten outside RUN and SERVOCOMM. -/
def setPhase (p : Nat) (s : State) : State :=
  let s := setBit (setF s Reg.SPN_STS 0 4 p) Reg.SPN_STS 8 (p == SpnPhase.servoComm)
  let s := if p = SpnPhase.run ∨ p = SpnPhase.servoComm then s else forgetMoff s
  let s := if spnDriven p then s else endDissipative s
  let s := modSpn s fun n =>
    { n with
      rampStart := if p = SpnPhase.openLoop ∨ p = SpnPhase.run then n.rampStart else none
      phaseClock := s.clock, edgeClock := s.clock }
  tstSweep (if p = SpnPhase.run then s else setSync false s)

/-- COAST: the bridge is tri-stated (R213). -/
def coast (s : State) : State :=
  setPhase SpnPhase.coast (modSpn s fun p => { p with runClock := none, reinit := none })

/-- Brake to a stop, after which `next` follows (R213). -/
def brake (next : AfterStop) (s : State) : State :=
  setPhase SpnPhase.brake (modSpn s fun p => { p with after := next, reinit := none })

/-- STOP: brake to a stop; a start in progress is given up. -/
def brakeStop (next : AfterStop) (s : State) : State :=
  brake next (modSpn s fun p => { p with runClock := none })

/-- The drive brakes to a stop for a mode; while EN = 0 the bridge stays tri-stated (R213). -/
def spinDown (s : State) : State := if bit s Reg.SPN_CTL 0 then brakeStop .stopped s else s

/-- The bridge is tri-stated and the comparators watch the motor (R206). -/
def reacquire (s : State) : State :=
  setPhase SpnPhase.reacq (modSpn s fun p => { p with good := 0, interval := none, reinit := none })

/-! ## Modes and power states (R255, R420) -/

/-- The power state of a mode, if it has one. PS1 is PS0 with the ladder held: it is entered in READY, and
left with it. -/
def modePower (s : State) (m : Nat) : Option Nat :=
  if m = Mode.ready ∨ m = Mode.active then
    some (match s.nqe.psEntry with
      | some 1 => 1
      | some 0 => 0
      | _ => if getF s Reg.NQE_PSCUR 0 3 = 1 then 1 else 0)
  else if m = Mode.spinning then some 2
  else if m = Mode.slow then some 3
  else if m = Mode.standby then some 4
  else none

/-- NQE_PSCUR after a change of mode: an entry ends when its target is reached, an exit in READY. -/
def showPower (s : State) : State :=
  match modePower s (mode s) with
  | none => s
  | some p =>
    let s := setF s Reg.NQE_PSCUR 0 3 p
    let s := if p ≤ 1 then setBit s Reg.NQE_PSCUR 9 false else s
    if s.nqe.psEntry = some p then
      let s := { s with nqe := { s.nqe with psEntry := none } }
      evt Reg.NQE_EVT 6 (setBit s Reg.NQE_PSCUR 8 false)
    else s

/-- Firmware accepts Noile requests (R281): the cores run, outside BOOT and UPDATE. -/
def fwServes (s : State) : Bool :=
  !s.sys.coresHeld && mode s != Mode.fill && mode s != Mode.boot && mode s != Mode.update

/-- NOI_STS shows that the Noile engine runs and that firmware accepts requests. -/
def showServes (s : State) : State :=
  let run := bit s Reg.NOI_CTL 0 && mode s != Mode.fill && mode s != Mode.boot
  setBit (setBit s Reg.NOI_STS 0 run) Reg.NOI_STS 1 (fwServes s)

/-- Enter mode `m`; the ladder follows the power state, link tests and the Sluice's MODE condition the
mode, and the peer stream pauses outside READY (R506). -/
def enterMode (m : Nat) (s : State) : State :=
  let s := sluAll (tstSweep (ladder (showPower (showServes (setMode m s)))))
  if m = Mode.ready ∨ m = Mode.active then s else streamSuspend s

/-- READY and ACTIVE become STANDBY once no actuator is loaded after the servo angle was lost
(R422). -/
def standbyIfUnloaded (s : State) : State :=
  if (mode s = Mode.ready ∨ mode s = Mode.active) ∧ (loaded s 0 || loaded s 1) = false then
    enterMode Mode.standby s
  else s

/-- The unloaded procedure with loaded actuators (R205): SRVLOST, the bridge tri-stated, and every
loaded actuator retracts. -/
def servoAngleLost (s : State) : State :=
  let s := reacquire (evt Reg.SPN_EVT 5 s)
  standbyIfUnloaded (startRetract 1 .angleLost (startRetract 0 .angleLost s))

/-- The angle clock has left LOCKED and HOLDOVER (R202, R205). -/
def spnAngleLost (s : State) : State :=
  if spnCsrc s then servoAngleLost (forgetMoff s) else forgetMoff s

/-! ## Starting (R192, R209, R213) -/

/-- The target speed in rpm: 5,400 in SLOW and on the way to it, else SPN_TGT (R422). -/
def spnTarget (s : State) : Nat := if s.sys.slow then 5400 else getF s Reg.SPN_TGT 0 14

/-- The configuration that a RUN needs (R192). -/
def spnConfigOk (s : State) : Bool :=
  let pp := getF s Reg.SPN_MOT 0 4
  let pos (a : Nat) : Bool := !fpNonFinite (rdN s a) && decide (0 < rdF s a)
  decide (4 ≤ pp ∧ pp ≤ 8) && pos Reg.SPN_KE && pos Reg.SPN_RW && getF s Reg.SPN_TGT 0 14 != 0

/-- A start begins at this clock. -/
def beginStart (s : State) : State :=
  modSpn s fun p => { p with runClock := some s.clock, misses := 0 }

/-- Observation of the motor begins (R209). -/
def observe (s : State) : State :=
  setPhase SpnPhase.observe (modSpn s fun p => { p with good := 0, edges := 0, interval := none })

/-- Drive the motor into one fixed phase pair (R210). -/
def align (s : State) : State :=
  setPhase SpnPhase.align (modSpn s fun p => { p with good := 0, step := 0, est := 0, ckInteg := 0 })

/-- The judgement of R209 of a turning motor: caught forward at 300 rpm or more, else braked and
started. -/
def judge (back : Bool) (speed : Rat) (s : State) : State :=
  if !back && decide (300 ≤ speed) then
    setSync true (setPhase SpnPhase.run (modSpn s fun p => { p with bad := 0, est := speed }))
  else brake .start s

/-- RUN (R207, R213). The answer says whether the module took it. -/
def runCommand (s : State) : Bool × State :=
  if !bit s Reg.SPN_CTL 0 then (false, s)
  else if !spnConfigOk s then (false, evt Reg.SPN_EVT 11 s)
  else
    let p := spnPhase s
    if p = SpnPhase.brake ∨ p = SpnPhase.hold then
      (true, judge (bit s Reg.SPN_STS 9) s.spn.est (beginStart s))
    else if p = SpnPhase.stopped ∨ p = SpnPhase.coast ∨ p = SpnPhase.fault then
      (true, observe (beginStart s))
    else (true, s)

/-- The present speed in rpm (R218). -/
def spnSpeed (s : State) : Rat :=
  if spnCsrc s && rdN s Reg.ANG_PERIOD != 0 then 60000000000 / ((rdN s Reg.ANG_PERIOD : Nat) : Rat)
  else s.spn.est

/-- ATTGT follows the speed and the target (R211): its rise ends the RAMP input and, in
synchronism, gives the start its spin-up time. -/
def updateAttgt (s : State) : State :=
  let t : Rat := ((spnTarget s : Nat) : Rat)
  let at_ := decide (ratAbs (spnSpeed s - t) ≤ t / 1000) && !bit s Reg.SPN_STS 9 && spnTarget s != 0
  let rise := at_ && !bit s Reg.SPN_STS 11
  let s := setBit s Reg.SPN_STS 11 at_
  let s := evtIf rise Reg.SPN_EVT 8 s
  let s := if at_ then modSpn s fun p => { p with rampStart := none } else s
  let s := modSpn s fun p =>
    { p with goodSince := if at_ && spnSync s then some (p.goodSince.getD s.clock) else none }
  match s.spn.runClock with
  | some c =>
    if at_ && spnSync s then
      wrN (modSpn s fun p => { p with runClock := none }) Reg.SPN_SUTIME (min 65535 ((s.clock - c) / 1000000))
    else s
  | none => s

end Sys2Proof.Machine
end

