-- ==== Sys2Proof/Machine/Slots.lean ====
section
/-! DEFINITION. Head slots and lanes (chapter 3): head selection, gates, assist control, the duty
bucket, and the delivery of sector results. -/

namespace Sys2Proof.Machine

/-! ## Sector results (R75, R548) -/

/-- The 32-bit sector result of R75. -/
def resultWord (sync dec it gitn : Nat) (ta hsw : Bool) (ncorr : Nat) : Nat :=
  sync % 8 + 2 ^ 3 * (dec % 4) + 2 ^ 5 * (it % 128) + 2 ^ 12 * (gitn % 4)
    + 2 ^ 14 * (if ta then 1 else 0) + 2 ^ 15 * (if hsw then 1 else 0) + 2 ^ 16 * (ncorr % 4096)

/-- Slot of lane `l`. -/
def laneSlot (l : Nat) : Nat := l % 8

/-- Lane `l` is a trailing lane. -/
def laneTrailing (l : Nat) : Bool := decide (8 ≤ l)

/-- The level at which lane `l` reads: TG for a trailing lane, and RG for a primary lane, which never reads
while its slot's write gate is high (R77, R548). -/
def laneGate (s : State) (l : Nat) : Bool :=
  let t := slotAt s (laneSlot l)
  if laneTrailing l then t.tg else t.rg && !t.wg

/-- A lane's gate has had level `before`; a change of it is noted. -/
def noteGate (l : Nat) (before : Bool) (s : State) : State :=
  if laneGate s l = before then s
  else modLane s l fun n => { n with gates := (s.ang.incs, laneGate s l) :: n.gates }

/-- Send a sector result to the context of the lane's slot. -/
def sendResult (l word : Nat) (s : State) : State :=
  modCtx s (slotAct (laneSlot l)) (laneSlot l % 4) fun c =>
    if laneTrailing l then { c with resT := c.resT ++ [BitVec.ofNat 32 word] }
    else { c with resP := c.resP ++ [BitVec.ofNat 32 word] }

/-- Count a sector result in the lane's registers and events (R75). -/
def countResult (l word : Nat) (ovr : Bool) (s : State) : State :=
  let s := wrapInc (wrN s (Reg.LANE_RES l) word) (Reg.LANE_SECT l)
  let fail := bitsOf word 3 2 == decFail
  let s := if fail then satInc s (Reg.LANE_DFAIL l) 16 else s
  let s := wrapAdd s (Reg.LANE_ITSUM l) (bitsOf word 5 7)
  let s := satAdd s (Reg.LANE_NCORR l) (bitsOf word 16 12)
  let s := evtIf fail (Reg.LANE_EVT l) 0 s
  let s := evtIf (bitsOf word 0 3 == syncMiss) (Reg.LANE_EVT l) 1 s
  let s := evtIf (word.testBit 14) (Reg.LANE_EVT l) 2 s
  evtIf ovr (Reg.LANE_EVT l) 3 s

/-- The lane's run goes on to its next sector; the last sector of the track is followed by its first. -/
def LaneRun.next (r : LaneRun) : Option LaneRun :=
  if r.left ≤ 1 then none
  else
    let k := if r.sector + 1 = btSpt r.entry then 0 else r.sector + 1
    some { r with left := r.left - 1, sector := k, done := r.done + 1 }

/-- Move lane `l` on to the next sector of its run. -/
def advanceLane (l : Nat) (s : State) : State :=
  modLane s l fun n => { n with run := n.run.bind LaneRun.next }

/-- Deliver the result of the sector in progress on lane `l`. -/
def deliver (l word : Nat) (ovr : Bool) (s : State) : State :=
  advanceLane l (sendResult l word (countResult l word ovr s))

/-- SRAM offset of Cistern buffer `b`. -/
def bufAddr (b : Nat) : Nat := 4096 * b

/-- The buffer that the run's buffer list names for the sector in progress (R133, R144). -/
def laneBuffer (s : State) (r : LaneRun) : Nat := sram32 s (r.bufl + 4 * r.done)

/-- The band-table entry under lane `l`: that of its track on the surface of the slot's head. -/
def laneEntry (s : State) (l : Nat) : Option (Nat × Nat) :=
  match slotSurface s (laneSlot l) with
  | none => none
  | some f => (bandOfTrack s f (laneAt s l).track).map fun e => (f, e)

/-- SRAM offset of the head-band entry of head `h` and band entry `b` of actuator `a` (R81). -/
def headBand (s : State) (a h b : Nat) : Nat := rdN s (Reg.LANE_HBTBASE a) + 32 * (48 * h + b)

/-- WDLY and TDLY of a head-band entry, in ticks. -/
def wdly (s : State) (e : Nat) : Int := signedOf 16 (sram16 s (e + 0x10))
def tdly (s : State) (e : Nat) : Int := signedOf 16 (sram16 s (e + 0x12))

/-- The down-track position of the lane's reader, relative to the leading reader (R82). -/
def readerOffset (s : State) (l : Nat) : Int :=
  match slotHead s (laneSlot l), laneTrailing l with
  | some h, true => tdly s (headBand s (slotAct (laneSlot l)) h (laneAt s l).band)
  | _, _ => 0

/-- An angle moved by a signed number of ticks. -/
def angShift (a : Nat) (d : Int) : Nat := (((a : Int) + d) % (ticksPerRev : Int)).toNat

/-- The angle at which bit `x` of the run's track passes the lane. -/
def LaneRun.angle (r : LaneRun) (x : Nat) : Nat := (r.base + x * ticksPerRev / btBpr r.entry) % ticksPerRev

/-- The counter value at which bit `x` of the frame that starts at bit `start` passes the lane. -/
def LaneRun.passes (r : LaneRun) (start x : Nat) : Nat :=
  r.startIncs + angDist r.startAngle (r.angle start) + angDist (r.angle start) (r.angle x)

/-- The frame of the sector in progress. -/
def runFrame (s : State) (r : LaneRun) : Option Frame := frameOf s r.entry r.sector

/-- The counter values at which the first preamble bit and the last pad bit of the sector in
progress pass the lane. -/
def sectorSpan (s : State) (r : LaneRun) : Nat × Nat :=
  match runFrame s r with
  | none => (r.startIncs, r.startIncs)
  | some fr => (r.passes fr.start fr.start, r.passes fr.start (fr.padEnd - 1))

/-- The counter value at which the first preamble bit of the sector after next reaches the lane: the bound
on the search and the decode of the sector in progress (R48, R74). -/
def sectorBound (s : State) (r : LaneRun) : Option Nat :=
  match runFrame s r, frameOf s r.entry ((r.sector + 2) % btSpt r.entry) with
  | some fr, some g =>
    let d := angDist (r.angle fr.start) (r.angle g.start)
    some (r.passes fr.start fr.start + if d = 0 then ticksPerRev else d)
  | _, _ => none

/-- The bound of the sector in progress has passed. -/
def pastBound (s : State) (r : LaneRun) : Bool :=
  match sectorBound s r with
  | some t => decide (t ≤ s.ang.incs)
  | none => false

/-- The level of a read gate at counter value `t`, from its changes, newest first. -/
def gateLevel : List (Nat × Bool) → Nat → Bool
  | [], _ => false
  | (u, b) :: l, t => if u ≤ t then b else gateLevel l t

/-- The read gate was high when the sector's preamble began, and the lane had not been stopped. -/
def sectorSearched (n : Lane) (r : LaneRun) (pre : Nat) : Bool :=
  gateLevel n.gates pre && (match r.stop with | some t => decide (pre < t) | none => true)

/-- The sector was cut short before its pad ended: the gate fell, or the lane was stopped. -/
def sectorCut (n : Lane) (r : LaneRun) (pre pad : Nat) : Bool :=
  n.gates.any (fun g => !g.2 && decide (pre < g.1 ∧ g.1 ≤ pad))
    || (match r.stop with | some t => decide (t ≤ pad) | none => false)

/-- The preamble of a sector of slot `n` began inside a settle interval (R80). -/
def inSettle (s : State) (n pre : Nat) : Bool :=
  let t := slotAt s n
  (t.settling && decide (t.settleFrom ≤ pre)) || t.settles.any fun i => decide (i.1 ≤ pre ∧ pre < i.2)

/-- The sync outcome found so far of a sector that has no result yet: none before its search began, and
after that one of R50, which nothing states (a free value, log entry 4). -/
def syncSoFar (s : State) (l : Nat) (r : LaneRun) : Nat × State :=
  let pre := (sectorSpan s r).1
  if sectorSearched (laneAt s l) r pre && decide (pre ≤ s.ang.incs) then
    let (k, s) := drawFree 8 s
    (k % 6, s)
  else (syncMiss, s)

/-- The remaining sectors of lane `l`'s run end with DEC = ABORT. -/
def abortRest (l : Nat) : Nat → State → State
  | 0, s => s
  | k + 1, s =>
    match (laneAt s l).run with
    | some r =>
      let hsw := inSettle s (laneSlot l) (sectorSpan s r).1
      let (sync, s) := syncSoFar s l r
      abortRest l k (deliver l (resultWord sync decAbort 0 0 false hsw 0) false s)
    | none => s

/-- Lane `l` stops: no later sector of its run is searched, and a sector that has not ended is
cut short (R143, R548). -/
def stopLane (l : Nat) (s : State) : State :=
  modLane s l fun n => { n with run := n.run.map fun r => { r with stop := some (r.stop.getD s.ang.incs) } }

/-- The read gate of lane `l` goes to level `b`. -/
def setReadGate (l : Nat) (b : Bool) (s : State) : State :=
  noteGate l (laneGate s l)
    (modSlot s (laneSlot l) fun t => if laneTrailing l then { t with tg := b } else { t with rg := b })

/-- The lane path puts the IV, TAG and CRC of a sector's metadata (R39) into these tag bytes of
its buffer (R372). -/
def tagMeta (b : Nat) : Nat := 0x17000000 + 64 * b + 0x18

/-- A read lane (MODE 1) stores the 4,096 data bytes in the buffer that its list names, and the
IV, TAG and CRC in the buffer's tag: corrected, or after DEC = FAIL as decided (R74). -/
def storeSector (run : LaneRun) (r : SectorReport) (s : State) : State :=
  if run.mode = 1 ∧ r.dec ≤ decFail then
    let b := laneBuffer s run
    sramPutBytes (sramPutBytes s (bufAddr b) (r.data.take 4096)) (tagMeta b) ((r.data.drop 4096).take 36)
  else s

/-- The EPOCH field of a sector of track `t` of surface `f` (R42). -/
def epochField (s : State) (f t : Nat) : Nat :=
  match zoneOfTrack s f t with
  | some z => 2 ^ 32 * z + zEpoch s z
  | none => 0

/-- The retained copy of a sector: data, IV, TAG and CRC from its buffer, then EPOCH and the 20
reserved bytes (R39). -/
def retainedCopy (s : State) (b f t : Nat) : List Nat :=
  sramBytes s (bufAddr b) 4096 ++ sramBytes s (tagMeta b) 36 ++ leBytes 8 (epochField s f t)
    ++ List.replicate 20 0

/-- The bits of the sector in buffer `b` on track `t` of surface `f`, in a frame of band entry `e` (R37 to
R43): its information bits are those of the retained copy. -/
def writtenSector (s : State) (b f t e : Nat) (fr : Frame) (gated : Bool) : List TrackBits :=
  frameBits e fr (encodeSector (btCode e) (retainedCopy s b f t)) gated

/-- The sector read agrees with what the zone engine compares: on a verify lane (MODE 2) its 33,280
information bits with the retained copy (R104), on a read lane its EPOCH field with that of the zone, which
the clean test of R126 takes. -/
def sectorAgrees (s : State) (run : LaneRun) (r : SectorReport) : Bool :=
  if run.mode = 2 then r.data == retainedCopy s (laneBuffer s run) run.surface run.track
  else (r.data.drop 4132).take 8 == leBytes 8 (epochField s run.surface run.track)

/-- The zone engine keeps the sectors that do not agree. -/
def compareSector (run : LaneRun) (r : SectorReport) (s : State) : State :=
  if run.mode ≠ 1 ∧ run.mode ≠ 2 then s else
  let key := (run.surface, run.track, run.sector)
  let rest := s.ztb.differs.filter fun k => k != key
  let same := sectorAgrees s run r
  { s with ztb := { s.ztb with differs := if same then rest else key :: rest } }

/-! ### Adaptive filters (R72, R77) -/

/-- `k` free values of 16 bits. -/
def drawTaps : Nat → State → List Nat × State
  | 0, s => ([], s)
  | k + 1, s =>
    let (v, s) := drawFree 16 s
    let (l, s) := drawTaps k s
    (v :: l, s)

/-- The equaliser taps that the registers of lane `l` hold. -/
def tapRegs (s : State) (l : Nat) : List Nat :=
  (List.range 20).map fun i => getF s (Reg.LANE_EQC l (i / 2)) (16 * (i % 2)) 16

/-- Show equaliser taps in the lane's registers. -/
def showTaps (l : Nat) (taps : List Nat) (s : State) : State :=
  (List.range 10).foldl (fun s i =>
    wrN s (Reg.LANE_EQC l i) (taps.getD (2 * i) 0 + 2 ^ 16 * taps.getD (2 * i + 1) 0)) s

/-- A sector boundary of lane `l`: taps that firmware has written take effect, and a lane that adapted over
the sector has new ones. What the adaptation gives is free (R72, log entry 4). -/
def tapBoundary (l : Nat) (searched : Bool) (s : State) : State :=
  if bit s (Reg.LANE_CTL l) 1 && searched then
    let (taps, s) := drawTaps 20 s
    modLane (showTaps l taps s) l fun n => { n with taps := taps }
  else modLane s l fun n => { n with taps := tapRegs s l }

/-- The write-coupling filter of a trailing lane adapts while it reads and its slot writes, and holds its
taps otherwise or while they are frozen. What the adaptation gives is free (R77, log entry 4). -/
def couplingBoundary (l : Nat) (searched : Bool) (s : State) : State :=
  if laneTrailing l && bit s (Reg.LANE_CTL l) 2 && !bit s (Reg.LANE_WCCG l) 8 && searched
      && (slotAt s (laneSlot l)).wg then
    let (taps, s) := drawTaps 8 s
    modLane s l fun n => { n with wcc := taps }
  else s

/-- The adaptive filters of lane `l` at the end of a sector. -/
def filterBoundary (l : Nat) (searched : Bool) (s : State) : State := couplingBoundary l searched (tapBoundary l searched s)

/-! ### The end of a sector -/

/-- The half-width in force for the window around bit `x` of the frame that starts at bit `start`: that of
the last SYNC_OPEN that fired before the window opens, or the band default (R22, R44). -/
def halfFor (n : Lane) (r : LaneRun) (start x : Nat) : Nat :=
  let opens := fun h => r.passes start (x - h)
  let set := n.halves.find? fun e => decide (e.1 ≤ opens (e.2.getD (btSyncwin r.entry)))
  (set.bind Prod.snd).getD (btSyncwin r.entry)

/-- What the lane reports of the sector in progress: its search and decode, or, where its time is up, what
stands by then. -/
def laneReport (s : State) (l : Nat) (r : LaneRun) (g : SectorSignal) (timeUp searched : Bool) : SectorReport :=
  match runFrame s r with
  | none => missReport
  | some fr =>
    let rule := searchRule s (halfFor (laneAt s l) r fr.start (fr.start + btPre r.entry))
    let d := decoderRule s l r.entry
    withFrontEnd s l (sectorSamples r.entry fr) g
      (if timeUp then cutReport rule d g fr.frags searched else decodeSector rule d g fr.frags)

/-- Lane `l` ends the sector in progress with a report, under the rules of R548. -/
def sectorEnds (l : Nat) (run : LaneRun) (r : SectorReport) (s : State) : State :=
  let (pre, pad) := sectorSpan s run
  let hsw := inSettle s (laneSlot l) pre
  let searched := sectorSearched (laneAt s l) run pre
  let s' := filterBoundary l searched s
  if !searched then deliver l (resultWord syncMiss decAbort 0 0 false hsw 0) false s'
  else if sectorCut (laneAt s l) run pre pad then
    deliver l (resultWord r.sync decAbort 0 0 r.ta hsw 0) r.ovr s'
  else
    deliver l (resultWord r.sync r.dec r.it r.gitn r.ta hsw r.ncorr) r.ovr
      (compareSector run r (storeSector run r s'))

/-- SECTOR_RESULT: search and decode end. After the bound of R74 they end the sector as it stands then. -/
def sectorResult (l : Nat) (g : SectorSignal) (s : State) : State :=
  match (laneAt s l).run with
  | none => s
  | some r => sectorEnds l r (laneReport s l r g (pastBound s r) false) s

def execSectorResult (lane : Fin 16) (signal : SectorSignal) (s : State) : Host.Outcome State Fault Refusal :=
  .next (sectorResult lane signal s)

/-! ## Slot faults and head selection (R78 to R80) -/

/-- Set bit `b` of the slot's LANE_SLEVT and raise class S cause HEAD in its context. -/
def slotFault (n b : Nat) (s : State) : State :=
  raiseS (slotAct n) (n % 4) SCause.head (evt (Reg.LANE_SLEVT n) b s)

/-- Another slot of the actuator holds head `h`. -/
def headBusy (s : State) (n h : Nat) : Bool :=
  (List.range 4).any fun k =>
    let m := 4 * slotAct n + k
    m != n && slotHead s m == some h

/-- Slot `n` selects head `h`: a settle interval starts, and the Sluice holds the target check
failed until it has been evaluated (R78, R412). -/
def selectHead (n h : Nat) (s : State) : State :=
  let other := slotHead s n != some (h % 16)
  let s := wrN s (Reg.LANE_SLHEAD n) (0x80 + h % 16)
  let runs := (laneAt s n).run.isSome || (laneAt s (n + 8)).run.isSome
  let s := modSlot s n fun t =>
    { t with
      settling := true, settleFrom := s.ang.incs, settleClock := s.clock
      settles := if !runs then [] else if t.settling then (t.settleFrom, s.ang.incs) :: t.settles else t.settles }
  let s := modSrv s (slotAct n) fun v =>
    { v with slots := modAt v.slots (n % 4) fun t => { t with headChanged := t.headChanged || other } }
  sluApply n (targetPending n s)

/-- HEAD_SEL fires with head `h` (R78, R79). Every condition of R79 that holds sets its bit. -/
def headSel (n h : Nat) (s : State) : State :=
  let busy := headBusy s n h
  let bad := decide (getF s (Reg.LANE_ACFG (slotAct n)) 8 4 ≤ h)
  let act := (slotAt s n).wgFired || assistOut s n
  if busy || bad || act then
    let s := evtIf busy (Reg.LANE_SLEVT n) 0 s
    let s := evtIf bad (Reg.LANE_SLEVT n) 1 s
    let s := evtIf act (Reg.LANE_SLEVT n) 2 s
    raiseS (slotAct n) (n % 4) SCause.head s
  else selectHead n h s

/-- The clock stands inside the settle interval of slot `n` (R78). -/
def settlingNow (s : State) (n : Nat) : Bool :=
  (slotAt s n).settling && decide (s.clock < (slotAt s n).settleClock + 300)

/-- HEAD_SETTLE_END: 300 ns after the last accepted HEAD_SEL of the slot the interval is over; before
that, or where none runs, there is nothing to end. -/
def settleEnd (n : Nat) (s : State) : State :=
  if (slotAt s n).settling && !settlingNow s n then
    modSlot s n fun t => { t with settling := false, settles := (t.settleFrom, s.ang.incs) :: t.settles }
  else s

def execHeadSettleEnd (slot : Fin 8) (s : State) : Host.Outcome State Fault Refusal :=
  .next (settleEnd slot s)

/-! ## Gates (R26, R80, R415) -/

/-- WG_ON fires. -/
def wgOn (n : Nat) (s : State) : State :=
  if (slotHead s n).isNone then slotFault n 1 s
  else
    let settling := settlingNow s n
    let s := noteGate n (laneGate s n)
      (modSlot s n fun t => { t with wg := true, wgFired := true, hswHold := t.hswHold || settling })
    let s := if settling then slotFault n 3 s else s
    sluApply n s

/-- The write gate of the slot goes low. -/
def wgDrop (n : Nat) (s : State) : State := noteGate n (laneGate s n) (modSlot s n fun t => { t with wg := false })

/-- WG_OFF fires: it also ends the hold of R80 and clears the Sluice's latch (R415). -/
def wgOff (n : Nat) (s : State) : State :=
  setBit (modSlot (wgDrop n s) n fun t => { t with wgFired := false, hswHold := false }) Reg.SLU_STS (8 + n) false

/-- RG_ON or TG_ON fires. -/
def readGateOn (n : Nat) (trailing : Bool) (s : State) : State :=
  if (slotHead s n).isNone then slotFault n 1 s
  else setReadGate (laneOf n trailing) true s

/-! ## Assist (R86 to R93) -/

/-- Breakpoint `i` of actuator `a`, in degrees (R89). -/
def breakpoint (s : State) (a i : Nat) : Int :=
  signedOf 8 (if i < 4 then getF s (Reg.LANE_ATBP0 a) (8 * i) 8 else getF s (Reg.LANE_ATBP1 a) (8 * (i - 4)) 8)

/-- Assist power code at breakpoint `i`. -/
def atp (s : State) (e i : Nat) : Nat := sram16 s (e + 2 * i)

/-- PAIR of a head-band entry. -/
def pairAllowed (s : State) (e : Nat) : Bool := (sram8 s (e + 0x14)).testBit 0

/-- The interpolation of R87 between breakpoints, for a temperature in degrees. -/
def interpolate (bp : Nat → Int) (p : Nat → Nat) (t : Rat) : Nat → Nat
  | 0 => p 7
  | k + 1 =>
    let i := 6 - k
    if t < (bp (i + 1) : Rat) then
      let f := (t - (bp i : Rat)) / ((bp (i + 1) : Rat) - (bp i : Rat))
      (roundHalfUp ((p i : Rat) + ((p (i + 1) : Rat) - (p i : Rat)) * f)).toNat
    else interpolate bp p t k

/-- The AUTO code of head-band entry `e` of actuator `a` (R87, R89). -/
def autoCode (s : State) (a e : Nat) : Nat :=
  if !bit s Reg.THM_TEMP 31 then atp s e 7
  else
    let t : Rat := ((signedOf 16 (getF s Reg.THM_TEMP 0 16) : Int) : Rat) / 8
    if t < (breakpoint s a 0 : Rat) then atp s e 0 else interpolate (breakpoint s a) (atp s e) t 7

/-- Clamp an assist code to the head's maximum (R416). -/
def clampCode (s : State) (a h code : Nat) : Nat × State :=
  let m := getF s (Reg.SLU_APMAX (headIndex a h)) 0 16
  if m < code then (m, evt Reg.SLU_EVT 10 (satInc s Reg.SLU_CLAMPCNT 32)) else (code, s)

/-- ASSIST_ON fires with argument `arg` (R80, R87, R88, R90). -/
def assistOn (n arg : Nat) (s : State) : State :=
  match slotHead s n with
  | none => slotFault n 1 s
  | some h =>
    let a := slotAct n
    let code := if arg = 0xFFFF then autoCode s a (headBand s a h (getF s (Reg.LANE_SLBAND n) 0 6)) else arg
    let (code, s) := clampCode s a h code
    let s := wrN s (Reg.LANE_APWR n) (code % 2 ^ 16 + 2 ^ 16)
    let s := modSlot s n fun t =>
      { t with assist := true, assistEn := true, ramp := .up, rampClock := s.clock }
    sluApply n s

/-- The ramp of slot `n` has lasted LANE_ARAMP × 0.25 µs. -/
def rampDone (s : State) (n : Nat) : Bool :=
  decide ((slotAt s n).rampClock + 250 * getF s (Reg.LANE_ARAMP n) 0 4 ≤ s.clock)

/-- The end of the assist ramp down lowers the enable output (R90). -/
def rampEnd (n : Nat) (s : State) : State :=
  if (slotAt s n).ramp = .down && rampDone s n then dropAssist n s else s

/-- The slot's assist ramps down from its code. -/
def assistDown (n : Nat) (s : State) : State :=
  let on := (slotAt s n).assistEn
  let s := modSlot s n fun t => { t with assist := false }
  if on then
    let s := modSlot s n fun t => { t with ramp := .down, rampClock := s.clock }
    if getF s (Reg.LANE_ARAMP n) 0 4 = 0 then rampEnd n s else s
  else s

/-- ASSIST_OFF fires: it also clears the Sluice's latch (R415). -/
def assistOff (n : Nat) (s : State) : State := setBit (assistDown n s) Reg.SLU_STS (16 + n) false

def execAssistRampEnd (slot : Fin 8) (s : State) : Host.Outcome State Fault Refusal :=
  .next (rampEnd slot s)

/-- The fraction of its ramp that slot `n` has passed. -/
def rampFraction (s : State) (n : Nat) : Rat :=
  let len := 250 * getF s (Reg.LANE_ARAMP n) 0 4
  if len = 0 then 1 else min 1 (((s.clock - (slotAt s n).rampClock : Nat) : Rat) / (len : Rat))

/-- The code that slot `n`'s preamp is driving, ramps included (R90, R94). -/
def drivenCode (s : State) (n : Nat) : Rat :=
  let code : Rat := (getF s (Reg.LANE_APWR n) 0 16 : Nat)
  if !assistOut s n then 0 else
  match (slotAt s n).ramp with
  | .idle => 0
  | .up => code * rampFraction s n
  | .hold => code
  | .down => code * (1 - rampFraction s n)

/-! ## Duty bucket (R94 to R97) -/

/-- The assist that head `h` of actuator `a` is driven with. -/
def headCode (s : State) (a h : Nat) : Rat :=
  ((List.range 4).map fun k =>
    if slotHead s (4 * a + k) = some h then drivenCode s (4 * a + k) else 0).foldl (· + ·) 0

/-- Capacity of a head's bucket, in full-power microseconds. -/
def dbCap (s : State) (i : Nat) : Rat := ((1000 * rdN s (Reg.SLU_DBCAP i) : Nat) : Rat)

/-- The level of head `h` of actuator `a` after one microsecond (R94). A head whose maximum code
is 0 drives nothing. -/
def dbNext (s : State) (a h : Nat) : Rat :=
  let i := headIndex a h
  let pmax := getF s (Reg.SLU_APMAX i) 0 16
  let up : Rat := if pmax = 0 then 0 else headCode s a h / (pmax : Rat)
  let rf : Rat := ((getF s (Reg.SLU_DBRF i) 0 16 : Nat) : Rat) / 65536
  max 0 (dbLevel s a h + up - rf)

/-- The level of percent `p` of a head's capacity. -/
def dbPercent (s : State) (i p : Nat) : Rat := dbCap s i * (p : Rat) / 100

/-- A slot of actuator `a` drives the write gate of head `h`. -/
def headWriting (s : State) (a h : Nat) : Bool :=
  (List.range 4).any fun k => slotHead s (4 * a + k) == some h && (slotAt s (4 * a + k)).wg

/-- One head's update: level, LANE_DBLVL, the stop of writes, WARN and DUTY (R94, R96, R97). -/
def dbUpdate (a h : Nat) (s : State) : State :=
  let i := headIndex a h
  let old := dbLevel s a h
  let new := dbNext s a h
  let warn := dbPercent s i (getF s (Reg.LANE_DBLIM a) 0 8)
  let wasWriting := headWriting s a h
  let stop := decide (dbPercent s i (getF s (Reg.LANE_DBLIM a) 8 8) ≤ new)
    || (s.dbStop.getD i false && decide (warn ≤ new))
  let s := { s with dbLevel := modAt s.dbLevel i (fun _ => new), dbStop := modAt s.dbStop i fun _ => stop }
  let s := wrN s (Reg.LANE_DBLVL a h) new.floor.toNat
  let s := evtIf (decide (old < warn ∧ warn ≤ new)) (Reg.LANE_DBEVT a) h s
  evtIf (wasWriting && decide (old < dbCap s i ∧ dbCap s i ≤ new)) Reg.SLU_EVT 5 s

/-- DUTY_BUCKET_UPDATE: every microsecond, for every head; the Sluice then acts on DUTY. -/
def dutyBucketUpdate (s : State) : State :=
  sluAll ((List.range 24).foldl (fun s i => dbUpdate (i / 12) (i % 12) s) s)

def execDutyBucketUpdate (s : State) : Host.Outcome State Fault Refusal := .next (dutyBucketUpdate s)

/-! ## Lane start and sync windows (R22, R80) -/

/-- LANE_START can start lane `l` of slot `n` (R80). -/
def laneStartOk (s : State) (n l : Nat) : Bool :=
  match slotSurface s n with
  | none => false
  | some f => bit s (Reg.LANE_CTL l) 0 && (laneAt s l).mode != 0
      && (bandOfTrack s f (laneAt s l).track).isSome

/-- The run of `k` sectors that a LANE_START on lane `l` starts: it takes the lane's fields as they stand
(log entry 12). -/
def startRun (s : State) (l k f e : Nat) : LaneRun :=
  let n := laneAt s l
  ⟨k, n.first, 0, s.ang.incs, angNow s, none, f, e, n.track,
    angShift (bitAngle (wedges s) e n.track 0 + skewOf s f) (readerOffset s l), n.mode, n.bufl⟩

/-- LANE_START fires: bit 15 names the lane, bits 9:0 the sector count. Sectors of an earlier run
that have no result yet end with DEC = ABORT. R22 and R80 name no least count: DESIGN CHOICE (log entry 12),
a count of 0 is accepted and starts no run. -/
def laneStart (n arg : Nat) (s : State) : State :=
  let l := laneOf n (arg.testBit 15)
  if laneStartOk s n l then
    let s := abortRest l 1023 s
    let k := bitsOf arg 0 10
    modLane s l fun t =>
      { t with
        run := if k = 0 then none else (laneEntry s l).map fun fe => startRun s l k fe.1 fe.2
        gates := [(s.ang.incs, laneGate s l)]
        halves := t.halves.take 1 }
  else slotFault n 5 s

/-- SYNC_OPEN fires: the half-width of the named lane, or the band default. -/
def syncOpen (n arg : Nat) (s : State) : State :=
  modLane s (laneOf n (arg.testBit 15)) fun t =>
    let h := if bitsOf arg 0 8 = 0 then none else some (bitsOf arg 0 8)
    { t with halves := (s.ang.incs, h) :: t.halves }

/-! ## The Sluice on events -/

/-- SLUICE_INHIBIT: the Sluice acts on the slot within 5 ns of a failing condition (R414). -/
def execSluiceInhibit (slot : Fin 8) (s : State) : Host.Outcome State Fault Refusal :=
  .next (sluApply slot s)

/-- TARGET_CHECK: the evaluation of the slot's target ends (R412). -/
def execTargetCheck (slot : Fin 8) (s : State) : Host.Outcome State Fault Refusal :=
  .next (targetCheck slot s)

end Sys2Proof.Machine
end

