-- ==== Sys2Proof/Machine/Angle.lean ====
section
/-! DEFINITION. The angle clock (chapter 1): the counter and the PTP time as time passes, the
phase-locked loop, the lock states, and the angle-event queues with the firing of their entries. -/

namespace Sys2Proof.Machine

/-! ## Lock states -/

abbrev angFree : Nat := 0
abbrev angCoarse : Nat := 1
abbrev angAcquire : Nat := 2
abbrev angLocked : Nat := 3
abbrev angHoldover : Nat := 4

/-- ANG_STS.STATE. -/
def angState (s : State) : Nat := getF s Reg.ANG_STS 0 3

/-- Change the angle-clock state that no register shows. -/
def modAng (s : State) (f : AngState → AngState) : State := { s with ang := f s.ang }

/-- Set F, which ANG_FREQ reports as unsigned 1.31 fixed point (R546). -/
def setFreq (f : Rat) (s : State) : State :=
  wrN (modAng s fun a => { a with freq := f }) Reg.ANG_FREQ (f * pow2 31).floor.toNat

/-! ## Queues (R21 to R24) -/

/-- The queue of slot `n`. -/
def queueOf (s : State) (n : Nat) : List AngEntry := s.ang.queues.getD n []

/-- Set the queue of slot `n`, with its ANG_QSTS. -/
def setQueue (n : Nat) (q : List AngEntry) (s : State) : State :=
  wrN (modAng s fun a => { a with queues := modAt a.queues n fun _ => q }) (Reg.ANG_QSTS n)
    (q.length + (if 64 ≤ q.length then 256 else 0))

/-- Classes of actions (R22). -/
inductive ActClass where
  | assert
  | release
  | notify
  deriving DecidableEq, Repr

/-- The class of an action code, if it is listed. -/
def actClass (a : Nat) : Option ActClass :=
  match a with
  | 0x01 => some .assert
  | 0x02 => some .release
  | 0x03 => some .assert
  | 0x04 => some .release
  | 0x05 => some .assert
  | 0x06 => some .release
  | 0x07 => some .assert
  | 0x08 => some .release
  | 0x09 => some .assert
  | 0x0A => some .assert
  | 0x0B => some .assert
  | 0x0C => some .notify
  | 0x0D => some .notify
  | _ => none

/-- The argument of SYNC_OPEN is one of R22. -/
def syncArgOk (arg : Nat) : Bool :=
  let h := bitsOf arg 0 8
  (h == 0 || decide (8 ≤ h ∧ h ≤ 64)) && bitsOf arg 8 7 == 0

/-- An entry's action takes effect for slot `n`; `unlocked` is the status of R28 for Notify. -/
def act (n action arg : Nat) (unlocked : Bool) (s : State) : State :=
  match action with
  | 0x01 => wgOn n s
  | 0x02 => wgOff n s
  | 0x03 => readGateOn n false s
  | 0x04 => setReadGate n false s
  | 0x05 => readGateOn n true s
  | 0x06 => setReadGate (n + 8) false s
  | 0x07 => assistOn n arg s
  | 0x08 => assistOff n s
  | 0x09 => laneStart n arg s
  | 0x0A => syncOpen n arg s
  | 0x0B => headSel n arg s
  | 0x0C => modCtx s (slotAct n) (n % 4) fun c => { c with wakes := c.wakes ++ [(arg, unlocked)] }
  | 0x0D => wr64 s (Reg.ANG_MARKTIME n) (ptp s)
  | _ => s

/-- Fire every entry of a list that is of class Release, or Notify where `notify` is true. -/
def fireAll (n : Nat) (notify : Bool) : List AngEntry → State → State
  | [], s => s
  | e :: l, s =>
    let go := actClass e.action == some .release || (notify && actClass e.action == some .notify)
    fireAll n notify l (if go then act n e.action e.arg true s else s)

/-- Empty the queue of slot `n`: Assert entries are discarded, Release entries fire at once, and
Notify entries fire with status UNLOCKED or are discarded. -/
def drainQueue (n : Nat) (notify : Bool) (s : State) : State :=
  fireAll n notify (queueOf s n) (setQueue n [] s)

/-- The flush of slot `n` (R28): a sector that its lanes have not ended is cut short (R548). -/
def flushSlot (n : Nat) (s : State) : State := stopLane (n + 8) (stopLane n (drainQueue n true s))

/-- The answer to a posting (R22 to R24, R27). -/
inductive PostStatus where
  | ok
  | late
  | order
  | full
  | noLock
  | badAct
  | badSurf
  deriving DecidableEq, Repr

/-- The status code of ANG_QPSEL. -/
def PostStatus.code : PostStatus → Nat
  | .ok => 0
  | .late => 1
  | .order => 2
  | .full => 3
  | .noLock => 4
  | .badAct => 5
  | .badSurf => 6

/-- The ticks from now to angle `a` (R23). -/
def ticksTo (s : State) (a : Nat) : Nat := angDist (angNow s) a

/-- An angle so soon that an entry for it is late (R23). -/
def isLate (s : State) (angle : Nat) : Bool := decide (2 ^ 22 - 2048 ≤ ticksTo s angle)

/-- The global angle of a posting (R21). -/
def globalAngle (s : State) (surf angle : Nat) : Nat :=
  if surf = 31 then angle % ticksPerRev else (angle + skewOf s surf) % ticksPerRev

/-- The order of checks of a posting to slot `n` (R22). -/
def postCheck (s : State) (n action arg surf angle : Nat) : PostStatus :=
  match actClass action with
  | none => .badAct
  | some c =>
    let d := ticksTo s (globalAngle s surf angle)
    if action = 0x0A ∧ syncArgOk arg = false then .badAct
    else if 24 ≤ surf ∧ surf ≤ 30 then .badSurf
    else if angState s = angFree then .noLock
    else if c = .assert ∧ angState s ≠ angLocked ∧ angState s ≠ angHoldover then .noLock
    else if 64 ≤ (queueOf s n).length then .full
    else
      match (queueOf s n).getLast? with
      | some e => if d < ticksTo s e.angle then .order
                  else if isLate s (globalAngle s surf angle) then .late else .ok
      | none => if isLate s (globalAngle s surf angle) then .late else .ok

/-- Post an entry to slot `n` (R21 to R24). The number under which the sequencer may remove the
entry again comes with the status. -/
def postEntry (n action arg surf angle : Nat) (s : State) : PostStatus × Nat × State :=
  let g := globalAngle s surf angle
  let id := s.ang.nextIdent
  match postCheck s n action arg surf angle with
  | .ok =>
    let e : AngEntry := ⟨action, arg, g, s.ang.incs + ticksTo s g, id⟩
    (.ok, id, modAng (setQueue n (queueOf s n ++ [e]) s) fun a => { a with nextIdent := id + 1 })
  | .late =>
    let s := modAng s fun a => { a with nextIdent := id + 1 }
    (.late, id, act n action arg false (evt Reg.ANG_EVT 5 (satInc s Reg.ANG_LATE 16)))
  | st => (st, id, s)

/-! ## Time (R11, R31, R317) -/

/-- `k` nanoseconds of fabric clock pass: the clock, the PTP time, whose offset ETH_PTPADJ gives in
units of 2^-16 parts per million, and the seconds of a patrol lap (R496). -/
def passClocks (k : Nat) (s : State) : State :=
  let adj : Rat := ((signedOf 32 (rdN s Reg.ETH_PTPADJ) : Int) : Rat) / 65536 / 1000000
  let t : Rat := s.ptpFrac + (k : Rat) * (1 + adj)
  let secs := (s.clock + k) / 1000000000 - s.clock / 1000000000
  let s := { s with clock := s.clock + k, ptpFrac := t - (t.floor : Rat) }
  let s := if bit s Reg.ZTB_PTCTL 0 then wrapAdd s Reg.ZTB_PTCUR secs else s
  wr64 s Reg.ETH_PTPTIME (ptp s + t.floor.toNat)

/-- The counter's ticks per fabric clock while a correction is being spread (R546). -/
def spreadRate (s : State) : Rat :=
  let r := s.ang.freq * (1 + s.ang.spread / s.ang.spreadLeft)
  if 0 < r then r else s.ang.freq

/-- The fabric clocks in which the counter advances by `x` ticks and fractions: the correction ends with
the ticks over which it is spread (R546). -/
def angTime (s : State) (x : Rat) : Rat :=
  if s.ang.spreadLeft ≤ 0 then x / s.ang.freq
  else if x ≤ s.ang.spreadLeft then x / spreadRate s
  else s.ang.spreadLeft / spreadRate s + (x - s.ang.spreadLeft) / s.ang.freq

/-- The ticks and fractions by which the counter advances in `k` fabric clocks. -/
def angTicks (s : State) (k : Rat) : Rat :=
  if s.ang.spreadLeft ≤ 0 then k * s.ang.freq
  else
    let t := s.ang.spreadLeft / spreadRate s
    if k ≤ t then k * spreadRate s else s.ang.spreadLeft + (k - t) * s.ang.freq

/-- Of the correction, what `x` ticks have added is spread. -/
def useSpread (x : Rat) (a : AngState) : AngState :=
  let left := a.spreadLeft - min x a.spreadLeft
  { a with spread := if a.spreadLeft = 0 then 0 else a.spread * (left / a.spreadLeft), spreadLeft := left }

/-- ANG_NOW counts through 0 (R11, R31). -/
def onWrap (s : State) : State :=
  let s := wrapInc s Reg.ANG_REV
  let s := wrN (wr64 s Reg.ANG_IDXTIME (ptp s)) Reg.ANG_IDXREV (rdN s Reg.ANG_REV)
  let s := match s.ang.wrapClock with
    | some c => wrN s Reg.ANG_PERIOD (s.clock - c)
    | none => s
  modAng s fun a => { a with wrapClock := some s.clock }

/-- The number of the wedge interval that holds angle `a` (R14). -/
def wedgeInterval (w a : Nat) : Nat := ((a + 1) * w - 1) / ticksPerRev

/-- The boundaries of wedge intervals that are passed set VALA and VALB, and the intervals that end without
a valid sample that the loop takes are counted (R14). -/
def passBoundaries (k : Nat) (s : State) : State :=
  if k = 0 then s else
  let a := k == 1 && s.ang.curValA
  let b := k == 1 && s.ang.curValB
  modAng (setBit (setBit s Reg.ANG_STS 4 a) Reg.ANG_STS 5 b)
    fun g =>
      { g with
        curValA := false
        curValB := false
        taken := false
        emptyRun := if g.taken then k - 1 else g.emptyRun + k }

/-- The counter passes `m` ticks without passing 0. -/
def passWithin (m : Nat) (s : State) : State :=
  let k := if s.ang.freq = 0 then 0 else (angTime s ((m : Rat) - s.ang.frac)).ceil.toNat
  let x := angTicks s (k : Rat)
  let w := wedges s
  let now := angNow s
  let n := if w = 0 then 0 else wedgeInterval w (now + m) - wedgeInterval w now
  let s := passClocks k s
  let s := setF s Reg.ANG_NOW 0 22 (now + m)
  let s := modAng s fun a => useSpread x { a with incs := a.incs + m, frac := max 0 (a.frac + x - (m : Rat)) }
  passBoundaries n s

/-- The counter passes `m` ticks, through 0 where they reach it. -/
def passTicks : Nat → Nat → State → State
  | 0, _, s => s
  | fuel + 1, m, s =>
    let left := ticksPerRev - angNow s
    if m < left then passWithin m s
    else passTicks fuel (m - left) (onWrap (passWithin left s))

/-- The entry of a queue that is due first, and of several the one that was posted first. A re-base (R16) may
step over the angle of the entry at the front, which a later one then overtakes. -/
def firstDue (q : List AngEntry) : Option AngEntry :=
  q.foldl (fun best e =>
    match best with
    | none => some e
    | some b => if e.due < b.due then some e else some b) none

/-- The slot and the entry of its queue that is due first, at or before `t`. -/
def nextDue (s : State) (t : Nat) : Option (Nat × AngEntry) :=
  (List.range 8).foldl (fun best n =>
    match firstDue (queueOf s n) with
    | none => best
    | some e =>
      if t < e.due then best else
      match best with
      | none => some (n, e)
      | some (_, b) => if e.due < b.due then some (n, e) else best) none

/-- Fire entry `e` of slot `n`'s queue. -/
def fireEntry (n : Nat) (e : AngEntry) (s : State) : State :=
  act n e.action e.arg false (setQueue n ((queueOf s n).erase e) s)

/-- The counter runs on to the value `t` of its increments, and every entry that falls due on
the way fires, in order of angle and then of slot (R23, R25). -/
def runTo : Nat → Nat → State → State
  | 0, t, s => passTicks 4 (t - s.ang.incs) s
  | fuel + 1, t, s =>
    match nextDue s t with
    | none => passTicks 4 (t - s.ang.incs) s
    | some (n, e) => runTo fuel t (fireEntry n e (passTicks 4 (e.due - s.ang.incs) s))

/-- The counter runs on to increment `t`; a stopped counter stays (R14). -/
def advanceTo (t : Nat) (s : State) : State :=
  if s.ang.freq = 0 then s else runTo 512 t s

/-- One fabric clock passes: what the block does on an empty queue (log entry 2). -/
def tick (s : State) : State :=
  let x := angTicks s 1
  let m := (s.ang.frac + x).floor.toNat
  if m = 0 ∨ s.ang.freq = 0 then
    modAng (passClocks 1 s) fun a => useSpread x { a with frac := a.frac + x }
  else runTo 512 (s.ang.incs + m) s

/-! ## State changes (R14, R28, R29, R545) -/

/-- Set ANG_STS.STATE; the Sluice's SERVO condition follows (R17). -/
def setAngState (m : Nat) (s : State) : State := sluAll (setF s Reg.ANG_STS 0 3 m)

/-- Every queue is flushed, and every context with a routine in progress takes class S SYNCLOSS
(R28). -/
def flushAll (s : State) : State :=
  let s := evt Reg.ANG_EVT 4 ((List.range 8).foldl (fun s n => flushSlot n s) s)
  (List.range 10).foldl (fun s i =>
    if (ctxAt s (i / 5) (i % 5)).busy then raiseS (i / 5) (i % 5) SCause.syncLoss s else s) s

/-- Enter COARSE from ACQUIRE, LOCKED or HOLDOVER: the counter runs at the crossing rate. -/
def enterCoarse (s : State) : State :=
  let locked := angState s == angLocked || angState s == angHoldover
  let s := setFreq s.ang.coarseFreq (modAng s fun a => { a with spread := 0, spreadLeft := 0 })
  let s := setAngState angCoarse s
  if locked then spnAngleLost (flushAll (evt Reg.ANG_EVT 1 s)) else s

/-- Enter FREE from COARSE: the counter stops, and entries fire under R29. -/
def enterFree (s : State) : State :=
  let s := setAngState angFree (setFreq 0 s)
  let s := modAng s fun a => { a with frac := 0, wrapClock := none }
  (List.range 8).foldl (fun s n => drainQueue n true s) s

/-- Enter LOCKED. -/
def enterLocked (s : State) : State :=
  setAngState angLocked (modAng (evt Reg.ANG_EVT 0 s) fun a => { a with emptyRun := 0 })

/-- ZERO_CROSSINGS_SEEN: crossings for two electrical periods of `period` ns. In COARSE they set
the counter's rate. -/
def zeroCrossings (period : Nat) (s : State) : State :=
  let pp := getF s Reg.SPN_MOT 0 4
  if pp * period = 0 then s else
  let f : Rat := (ticksPerRev : Rat) / ((pp * period : Nat) : Rat)
  let s := modAng s fun a => { a with coarseFreq := f }
  if angState s = angFree then setAngState angCoarse (setFreq f s)
  else if angState s = angCoarse then setFreq f s else s

def execZeroCrossingsSeen (period : Word) (s : State) : Host.Outcome State Fault Refusal :=
  .next (zeroCrossings period.toNat s)

/-- COARSE_TIMEOUT: 20 ms without a zero crossing. -/
def execCoarseTimeout (s : State) : Host.Outcome State Fault Refusal :=
  .next (if angState s = angCoarse then enterFree s else s)

/-- ACQUIRE_ENTRY: in COARSE with heads loaded on either actuator. -/
def acquireEntry (s : State) : State :=
  if angState s = angCoarse ∧ (loaded s 0 || loaded s 1) = true then
    let s := setFreq s.ang.coarseFreq s
    setAngState angAcquire (modAng s fun a =>
      { a with acqStart := a.incs, reBased := false, lockRun := 0 })
  else s

def execAcquireEntry (s : State) : Host.Outcome State Fault Refusal := .next (acquireEntry s)

/-- ACQUIRE_TIMEOUT: the counter has passed two revolutions since the entry to ACQUIRE. -/
def acquireTimeout (s : State) : State :=
  if angState s = angAcquire then
    enterCoarse (evt Reg.ANG_EVT 3 (advanceTo (s.ang.acqStart + 2 ^ 23) s))
  else s

def execAcquireTimeout (s : State) : Host.Outcome State Fault Refusal := .next (acquireTimeout s)

/-- The counter value at which the present wedge interval ends. -/
def intervalEnd (s : State) : Nat :=
  let w := wedges s
  if w = 0 then s.ang.incs
  else s.ang.incs + (wedgeAngle w (wedgeInterval w (angNow s) + 1) - angNow s)

/-- Time passes, wedge interval by wedge interval, until `n` consecutive ones have ended without a valid sample
that the loop takes (R14). -/
def emptyIntervals (n : Nat) : Nat → State → State
  | 0, s => s
  | fuel + 1, s =>
    if n ≤ s.ang.emptyRun then s else emptyIntervals n fuel (advanceTo (intervalEnd s) s)

/-- Enter HOLDOVER. -/
def enterHoldover (s : State) : State := evt Reg.ANG_EVT 2 (setAngState angHoldover s)

/-- HOLD: a wedge interval passes in LOCKED with no valid phase sample. -/
def holdover (s : State) : State :=
  if angState s = angLocked then enterHoldover (emptyIntervals 1 2 s) else s

def execAngHold (s : State) : Host.Outcome State Fault Refusal := .next (holdover s)

/-- HOLDOVER_EXPIRY: HOLDMAX + 1 consecutive wedge intervals without a valid sample. -/
def holdoverExpiry (s : State) : State :=
  let n := getF s Reg.ANG_CTL 17 3 + 1
  if angState s = angHoldover then enterCoarse (emptyIntervals n (n + 1) s) else s

def execHoldoverExpiry (s : State) : Host.Outcome State Fault Refusal := .next (holdoverExpiry s)

/-- Heads unloaded on both actuators (R14). -/
def headsUnloaded (s : State) : State :=
  if (loaded s 0 || loaded s 1) = false ∧ (angState s = angLocked ∨ angState s = angHoldover) then
    enterCoarse s
  else s

def execHeadsUnloaded (s : State) : Host.Outcome State Fault Refusal := .next (headsUnloaded s)

/-- The conditions of R14 that every fabric clock tests: heads loaded or unloaded, and intervals and
revolutions that have passed. -/
def angTest (s : State) : State :=
  if angState s = angCoarse then acquireEntry s
  else if angState s = angAcquire then
    if s.ang.acqStart + 2 ^ 23 ≤ s.ang.incs then enterCoarse (evt Reg.ANG_EVT 3 s) else s
  else if angState s = angLocked ∧ (loaded s 0 || loaded s 1) = true ∧ 1 ≤ s.ang.emptyRun then enterHoldover s
  else if angState s = angHoldover ∧ (loaded s 0 || loaded s 1) = true
      ∧ getF s Reg.ANG_CTL 17 3 < s.ang.emptyRun then enterCoarse s
  else headsUnloaded s

/-! ## Phase samples (R15, R16, R18, R19, R546) -/

/-- The anchor slot of actuator `a`, SRV_CTL.ANCH. -/
def anchorSlot (s : State) (a : Nat) : Nat := 4 * a + getF s (Reg.SRV_CTL a) 4 2

/-- The samples of actuator `a` are excluded under R19. -/
def drifted (s : State) (a : Nat) : Bool := bit s Reg.ANG_STS (6 + a)

/-- Reduce eighths of a tick to the range of R15. -/
def wrapPhase (x : Int) : Int :=
  let m : Int := 2 ^ 25
  let r := x % m
  if r < 2 ^ 24 then r else r - m

/-- The loop takes a valid sample of `e8` eighths of a tick (R546). -/
def loopTakes (e8 : Int) (s : State) : State :=
  let e : Rat := (e8 : Rat) / 8
  let w := wedges s
  let ki := getF s Reg.ANG_CTL 5 3
  let kp := getF s Reg.ANG_CTL 2 3
  let s := setFreq (s.ang.freq * (1 - e * (w : Rat) / pow2 (ki + 30))) s
  modAng s fun a =>
    { a with
      spread := a.spread - e / pow2 (kp + 2)
      spreadLeft := (ticksPerRev : Rat) / (w : Rat) }

/-- ANG_RESA or ANG_RESB after a valid sample, and the drift exclusion (R19). The mean exists
once 64 samples have arrived. -/
def residual (a : Nat) (e8 : Int) (s : State) : State :=
  let h := (e8 :: (if a = 0 then s.ang.histA else s.ang.histB)).take 64
  let s := modAng s fun g => if a = 0 then { g with histA := h } else { g with histB := h }
  if h.length < 64 then s else
  let m := (h.foldl (· + ·) 0) / 64
  let s := wrN s (if a = 0 then Reg.ANG_RESA else Reg.ANG_RESB) (encodeSigned 16 m)
  if (getF s Reg.ANG_CTL 20 6 : Int) * 8 < m.natAbs ∧ drifted s a = false then
    evt Reg.ANG_EVT (6 + a) (setBit s Reg.ANG_STS (6 + a) true)
  else s

/-- The re-base of R16: ANG_NOW steps to angle `g`, and entries keep their angles. -/
def reBase (g : Nat) (s : State) : State :=
  let s := setF s Reg.ANG_NOW 0 22 g
  let s := modAng s fun a => { a with frac := 0, reBased := true, wrapClock := none }
  modAng s fun a =>
    { a with queues := a.queues.map fun q => q.map fun e => { e with due := a.incs + angDist g e.angle } }

/-- What a valid sample that the loop takes does in the present state (R14). -/
def lockStep (e8 : Int) (s : State) : State :=
  let near := decide (e8.natAbs ≤ 8 * getF s Reg.ANG_CTL 8 5)
  let s := modAng s fun a => { a with taken := true, emptyRun := 0 }
  if angState s = angAcquire then
    let s := loopTakes e8 s
    let n := if near then s.ang.lockRun + 1 else 0
    let s := modAng s fun a => { a with lockRun := n }
    if getF s Reg.ANG_CTL 13 4 ≤ n then enterLocked s else s
  else if angState s = angLocked then loopTakes e8 s
  else if near then enterLocked s else s

/-- A sync mark seen by the anchor slot of actuator `a` at `t8` eighths of a tick, on surface `f`,
with wedge number `wedge` decoded. R16 names the first sync mark and no actuator: DESIGN CHOICE (log entry 13), the
mark that re-bases is the first whose sample the loop takes under R18 and R19. -/
def phaseSample (a t8 f wedge : Nat) (s : State) : State :=
  let g := (wedgeAngle (wedges s) wedge + skewOf s f) % ticksPerRev
  let taken := bit s Reg.ANG_CTL a && !drifted s a
  let first := decide (angState s = angAcquire ∧ s.ang.reBased = false ∧ taken = true)
  let s := if first then reBase g s else s
  let e8 := if first then 0 else wrapPhase ((t8 : Int) - 8 * (g : Int))
  if 512 < e8.natAbs then s else
  let s := modAng s fun g => if a = 0 then { g with curValA := true } else { g with curValB := true }
  let s := residual a e8 s
  if taken && !drifted s a then lockStep e8 s else s

/-- PHASE_SAMPLE: a mark detected at `angle8` eighths of a tick brings the counter to its angle. A
mark without a decoded wedge number is no valid sample. -/
def execPhaseSample (a : Fin 2) (angle8 : Fin (2 ^ 25)) (decoded : Bool) (wedge : Fin 1024)
    (s : State) : Host.Outcome State Fault Refusal :=
  .next (
    if angState s < angAcquire ∨ loaded s a = false then s else
    match slotSurface s (anchorSlot s a) with
    | none => s
    | some f =>
      let s := advanceTo (s.ang.incs + ticksTo s (angle8 / 8)) s
      if decoded ∧ wedge.val < wedges s then phaseSample a angle8 f wedge s else s)

/-! ## Commands on the counter and the registers -/

/-- REVOLUTION_WRAP: the counter runs on through 0 (R31). -/
def execRevolutionWrap (s : State) : Host.Outcome State Fault Refusal :=
  .next (if angState s = angFree then s else advanceTo (s.ang.incs + (ticksPerRev - angNow s)) s)

/-- ANG_NOW_READ: the read latches ANG_REV and the PTP time (R31). -/
def angNowRead (s : State) : State :=
  let s := wrN s Reg.ANG_NOWREV (rdN s Reg.ANG_REV)
  answer (angNow s) (wr64 s Reg.ANG_NOWTIME (ptp s))

def execAngNowRead (s : State) : Host.Outcome State Fault Refusal := .next (angNowRead s)

/-- SKEW_WRITE: entries keep their angles (R13); a drift exclusion of the actuator whose anchor
slot has that surface ends (R19). -/
def skewWrite (f v : Nat) (s : State) : State :=
  let s := wrN s (Reg.ANG_SKEW f) (v % 2 ^ 22)
  let s := if slotSurface s (anchorSlot s 0) = some f then setBit s Reg.ANG_STS 6 false else s
  if slotSurface s (anchorSlot s 1) = some f then setBit s Reg.ANG_STS 7 false else s

def execSkewWrite (surface : Fin 24) (value : Word) (s : State) : Host.Outcome State Fault Refusal :=
  .next (skewWrite surface value.toNat s)

/-- ANG_QPOST: accepted only in TEST mode; the status goes to ANG_QPSEL. -/
def angQpost (v : Nat) (s : State) : State :=
  if mode s = Mode.test then
    let s := wr64 s Reg.ANG_QPOST v
    let (st, _, s) := postEntry (getF s Reg.ANG_QPSEL 0 3) (bitsOf v 32 8) (bitsOf v 40 16)
      (bitsOf v 27 5) (bitsOf v 0 22) s
    setF s Reg.ANG_QPSEL 8 3 st.code
  else s

def execAngQpost (entry : DWord) (s : State) : Host.Outcome State Fault Refusal :=
  .next (angQpost entry.toNat s)

/-- ANG_QFLUSH: the flush of one slot, without interrupt or event (R545). -/
def execAngQflush (slot : Fin 8) (value : Word) (s : State) : Host.Outcome State Fault Refusal :=
  .next (if value.getLsbD 0 then flushSlot slot s else s)

/-! ## Entries that fire (R26) -/

/-- Time passes until the entry of slot `n`'s queue that is due first fires, where it is one of
`action`. -/
def fireNext (n action : Nat) (s : State) : State :=
  match firstDue (queueOf s n) with
  | none => s
  | some e => if e.action = action then advanceTo e.due s else s

def execWgOn (slot : Fin 8) (s : State) : Host.Outcome State Fault Refusal := .next (fireNext slot 0x01 s)
def execWgOff (slot : Fin 8) (s : State) : Host.Outcome State Fault Refusal := .next (fireNext slot 0x02 s)
def execRgOn (slot : Fin 8) (s : State) : Host.Outcome State Fault Refusal := .next (fireNext slot 0x03 s)
def execRgOff (slot : Fin 8) (s : State) : Host.Outcome State Fault Refusal := .next (fireNext slot 0x04 s)
def execTgOn (slot : Fin 8) (s : State) : Host.Outcome State Fault Refusal := .next (fireNext slot 0x05 s)
def execTgOff (slot : Fin 8) (s : State) : Host.Outcome State Fault Refusal := .next (fireNext slot 0x06 s)
def execAssistOn (slot : Fin 8) (s : State) : Host.Outcome State Fault Refusal := .next (fireNext slot 0x07 s)
def execAssistOff (slot : Fin 8) (s : State) : Host.Outcome State Fault Refusal := .next (fireNext slot 0x08 s)
def execLaneStart (slot : Fin 8) (s : State) : Host.Outcome State Fault Refusal := .next (fireNext slot 0x09 s)
def execSyncOpen (slot : Fin 8) (s : State) : Host.Outcome State Fault Refusal := .next (fireNext slot 0x0A s)
def execHeadSel (slot : Fin 8) (s : State) : Host.Outcome State Fault Refusal := .next (fireNext slot 0x0B s)
def execSeqWake (slot : Fin 8) (s : State) : Host.Outcome State Fault Refusal := .next (fireNext slot 0x0C s)
def execMarkAction (slot : Fin 8) (s : State) : Host.Outcome State Fault Refusal := .next (fireNext slot 0x0D s)

end Sys2Proof.Machine
end

