-- ==== Sys2Proof/Machine/Cistern.lean ====
section
/-! DEFINITION. The Cistern buffer pool (chapter 11): ownership, the free stack, allocation, giving
and freeing, the thresholds, and the accesses of the cores. -/

namespace Sys2Proof.Machine

/-- Buffers of the pool (R327). -/
abbrev numBuffers : Nat := 94208

/-! ## Owners (R330) -/

namespace Owner
abbrev free : Nat := 0
abbrev media : Nat := 1
abbrev retain : Nat := 2
abbrev netrx : Nat := 3
abbrev nqe : Nat := 4
abbrev cph : Nat := 5
abbrev core : Nat := 6
abbrev port : Nat := 7
end Owner

/-- What an unlisted buffer's owner is. -/
def ownerDflt (_ : Nat) : Nat := Owner.free

/-- The owner of buffer `i`. -/
def ownerOf (s : State) (i : Nat) : Nat := sget ownerDflt s.cis.owners i

/-- Change the Cistern's state. -/
def modCis (s : State) (f : CisState → CisState) : State := { s with cis := f s.cis }

/-- SRAM offset of the tag of buffer `i` (R327). -/
def tagAddr (i : Nat) : Nat := 0x17000000 + 64 * i

/-- SPEC of buffer `i` (R329). -/
def isSpec (s : State) (i : Nat) : Bool := (sram8 s (tagAddr i + 0x0C)).testBit 0

/-- The free count, CIS_FREECNT. -/
def freeCount (s : State) : Nat := getF s Reg.CIS_FREECNT 0 17

/-- CIS_STS.READY. -/
def cisReady (s : State) : Bool := bit s Reg.CIS_STS 0

/-- Threshold W`n + 1` is in effect. -/
def wInEffect (s : State) (n : Nat) : Bool := bit s Reg.CIS_STS (n + 1)

/-! ## Thresholds (R336) -/

/-- Threshold `n` (0 for W1) after a change of the free count. -/
def updateThreshold (n : Nat) (s : State) : State :=
  let level := getF s (Reg.CIS_W n) 0 17
  let c := freeCount s
  if c ≤ level then
    if wInEffect s n then s else evt Reg.CIS_EVT n (setBit s Reg.CIS_STS (n + 1) true)
  else if level + getF s Reg.CIS_CTL 0 13 < c then setBit s Reg.CIS_STS (n + 1) false else s

/-- All thresholds, what they stop in the queue engine (NQE_STS.THROT, WSTOP), and the PFC of W2. -/
def updateThresholds (s : State) : State :=
  let w2 := wInEffect s 1
  let s := (List.range 4).foldl (fun s n => updateThreshold n s) s
  let s := setBit (setBit s Reg.NQE_STS 4 (wInEffect s 1)) Reg.NQE_STS 5 (wInEffect s 2)
  if wInEffect s 1 = w2 then s else pfcAll (wInEffect s 1) s

/-- Set the free count, its least value and the thresholds. -/
def setFreeCount (c : Nat) (s : State) : State :=
  let s := wrN s Reg.CIS_FREECNT c
  let s := if c < getF s Reg.CIS_MINFREE 0 17 then wrN s Reg.CIS_MINFREE c else s
  updateThresholds s

/-- Set the number of buffers of owner `o`; ZTB_RETUSE is that of RETAIN (R338). -/
def setOwnCount (o c : Nat) (s : State) : State :=
  if o = 0 ∨ 8 ≤ o then s else
  let s := wrN s (Reg.CIS_OWNCNT (o - 1)) c
  if o = Owner.retain then
    let s := wrN s Reg.ZTB_RETUSE c
    if getF s Reg.ZTB_RETPEAK 0 16 < c then wrN s Reg.ZTB_RETPEAK c else s
  else s

/-- The number of buffers of owner `o`. -/
def ownCount (s : State) (o : Nat) : Nat := if o = 0 then 0 else getF s (Reg.CIS_OWNCNT (o - 1)) 0 17

/-- Buffer `i` passes to owner `o`: the table, the tag's copy and the counts. -/
def setOwner (i o : Nat) (s : State) : State :=
  let old := ownerOf s i
  let s := modCis s fun c => { c with owners := sput ownerDflt c.owners i o }
  let s := sramPut8 s (tagAddr i + 0x0D) o
  let s := setOwnCount old (ownCount s old - 1) s
  setOwnCount o (ownCount s o + 1) s

/-- Set or clear SPEC of buffer `i`, with CIS_SPECCNT (R338). -/
def setSpec (i : Nat) (b : Bool) (s : State) : State :=
  if isSpec s i = b then s else
  let s := sramPut8 s (tagAddr i + 0x0C) (if b then 1 else 0)
  if b then wrapInc s Reg.CIS_SPECCNT else wrN s Reg.CIS_SPECCNT (rdN s Reg.CIS_SPECCNT - 1)

/-! ## Allocation (R331 to R333) -/

/-- Write zero to every owner byte of a tag and the Cistern's bytes for a new owner (R329). -/
def writeTag (i : Nat) (s : State) : State :=
  let gen := sram16 s (tagAddr i + 0x0E)
  let s := sramPutBytes s (tagAddr i) (List.replicate 12 0)
  let s := sramPutBytes s (tagAddr i + 0x18) (List.replicate 40 0)
  let s := sramPut16 s (tagAddr i + 0x0E) (gen + 1)
  sramPut64 s (tagAddr i + 0x10) (ptp s)

/-- The buffer on top of the free stack, and the Cistern without it. -/
def CisState.pop (c : CisState) : Option (Nat × CisState) :=
  match c.stack with
  | i :: l => some (i, { c with stack := l })
  | [] => if c.fresh < numBuffers then some (c.fresh, { c with fresh := c.fresh + 1 }) else none

/-- Hand out the buffer on top of the stack to owner `o`. -/
def grant (o : Nat) (spec : Bool) (s : State) : Option Nat × State :=
  match s.cis.pop with
  | none => (none, s)
  | some (i, c) =>
    let s := writeTag i { s with cis := c }
    let s := setSpec i spec (setOwner i o s)
    (some i, setFreeCount (freeCount s - 1) s)

/-- EMPTY and FLOOR results that R333 covers are counted, and their requester waits; the receive
parser discards the packet instead. -/
def refused (o : Nat) (s : State) : State :=
  let s := evt Reg.CIS_EVT 4 (satInc s Reg.CIS_EMPTYCNT 32)
  if o = Owner.netrx then satInc s Reg.CIS_RXDROP 32
  else modCis s fun c => { c with waiting := if o ∈ c.waiting then c.waiting else c.waiting ++ [o] }

/-- Record the answer to owner `o`. -/
def answerAlloc (o r i : Nat) (s : State) : State := modCis s fun c => { c with last := some ⟨o, r, i⟩ }

/-- Owner `o` is admitted while W4 is in effect (R336). -/
def admitted (o : Nat) : Bool := o == Owner.media || o == Owner.retain

/-- The request of owner `o`, alone or the winner of its clock (R332). -/
def allocOne (o : Nat) (spec floorOk : Bool) (s : State) : State :=
  if freeCount s = 0 then answerAlloc o 1 0 (refused o s)
  else if wInEffect s 3 && !(admitted o || floorOk) then answerAlloc o 2 0 (refused o s)
  else
    match grant o spec s with
    | (some i, s) => answerAlloc o 0 i s
    | (none, s) => s

/-- The requesters of a clock, by priority (R330): those of `m` and those that lost the clock before. -/
def requesters (s : State) (m : BitVec 8) : List Nat :=
  [1, 2, 3, 4, 5, 6].filter fun o => m.getLsbD o || s.cis.again.contains o

/-- The request of owner `o` is for read-ahead, which only the queue engine's is (R330, R337). -/
def readAhead (s : State) (o : Nat) : Bool := o == Owner.nqe && s.cis.ahead

/-- One clock of allocation (R332, R333). Losers of the last buffer wait as those refused; every other loser
presents its request in the next clock. -/
def allocate (m : BitVec 8) (spec : Bool) (s : State) : State :=
  let s := if m.getLsbD Owner.nqe then modCis s fun c => { c with ahead := spec } else s
  match requesters s m with
  | [] => s
  | o :: losers =>
    if !cisReady s then
      modCis s fun c => { c with again := [], waiting := c.waiting ++ (o :: losers).filter fun x => x ∉ c.waiting }
    else
      let last := decide (freeCount s ≤ 1)
      let s := allocOne o (readAhead s o) false (modCis s fun c => { c with again := [] })
      if last then losers.foldl (fun s l => refused l s) s
      else modCis s fun c => { c with again := losers }

def execAllocation (requests : BitVec 8) (spec : Bool) (s : State) : Host.Outcome State Fault Refusal :=
  .next (allocate requests spec s)

/-- ALLOCATION_RETRY: a waiting requester presents its request again once W4 has cleared, and one that lost
a clock without being counted in the next clock. -/
def allocRetry (o : Nat) (s : State) : State :=
  if cisReady s = true ∧ (o ∈ s.cis.waiting ∧ wInEffect s 3 = false ∨ o ∈ s.cis.again) then
    allocOne o (readAhead s o) false
      (modCis s fun c => { c with waiting := c.waiting.erase o, again := c.again.erase o })
  else s

def execAllocationRetry (owner : Fin 8) (s : State) : Host.Outcome State Fault Refusal :=
  .next (allocRetry owner s)

/-! ## Giving and freeing (R334, R335) -/

/-- The check of R334 that a free, or a give to `new`, of buffer `i` by `req` fails first. -/
def opCheck (s : State) (req i : Nat) (aligned : Bool) (new : Option Nat) : Nat :=
  if numBuffers ≤ i then 1
  else if !aligned then 2
  else if ownerOf s i = Owner.free then 3
  else if ownerOf s i ≠ req then 4
  else match new with
    | some o => if o = 0 ∨ 7 < o then 5 else 0
    | none => 0

/-- Log a rejected operation (R334, R335). -/
def reject (req i code : Nat) (s : State) : State :=
  let owner := if numBuffers ≤ i then 0 else ownerOf s i
  let e := min i 0x1FFFF + 2 ^ 32 * code + 2 ^ 40 * req + 2 ^ 48 * owner + 2 ^ 63
  let s := if s.cis.errlog.length < 16 then modCis s fun c => { c with errlog := c.errlog ++ [e] }
    else evt Reg.CIS_EVT 6 (satInc s Reg.CIS_ERROVF 32)
  evt Reg.CIS_EVT 5 (satInc s Reg.CIS_ERRCNT 32)

/-- Buffer `i` goes to the top of the free stack. -/
def pushFree (i : Nat) (s : State) : State :=
  let s := setOwner i Owner.free (setSpec i false s)
  setFreeCount (freeCount s + 1) (modCis s fun c => { c with stack := i :: c.stack })

/-- A free by `req`. -/
def freeBuf (req i : Nat) (aligned : Bool) (s : State) : Nat × State :=
  match opCheck s req i aligned none with
  | 0 => (0, pushFree i s)
  | code => (code, reject req i code s)

/-- A give by `req` to `o`. -/
def giveBuf (req i o : Nat) (aligned : Bool) (s : State) : Nat × State :=
  match opCheck s req i aligned (some o) with
  | 0 => (0, setOwner i o s)
  | code => (code, reject req i code s)

/-- The buffer index that a core offset names; an offset out of range names none. -/
def offsetIndex (off : Nat) : Nat := if 0x17000000 ≤ off then 0x1FFFF else off / 4096

/-- The end of a core free or give on the bus. -/
def coreOp (r : Nat × State) : State :=
  let s := setF r.2 Reg.CIS_OPSTS 0 3 r.1
  if r.1 = 0 then busOk s else busFault s

/-- Perform a give or free. -/
def performOp (s : State) : CisHeld → State
  | .coreFree v =>
    let off := bitsOf v 0 29
    coreOp (freeBuf Owner.core (offsetIndex off) (off % 4096 == 0) s)
  | .coreGive v =>
    let off := bitsOf v 0 29
    coreOp (giveBuf Owner.core (offsetIndex off) (bitsOf v 32 8) (off % 4096 == 0) (wr64 s Reg.CIS_GIVE v))
  | .give r i o => (giveBuf r i o true s).2
  | .free r i => (freeBuf r i true s).2

/-- A give or free reaches the Cistern, which performs it, or holds it while READY = 0 (R328, R339). -/
def submitOp (h : CisHeld) (s : State) : State :=
  if cisReady s then performOp s h else modCis s fun c => { c with held := c.held ++ [h] }

/-- GIVE: an engine's give. -/
def execCisGiveEngine (requester : Fin 8) (index : BitVec 17) (owner : Byte) (s : State) :
    Host.Outcome State Fault Refusal :=
  .next (submitOp (.give requester index.toNat owner.toNat) s)

/-- FREE: an engine's free. -/
def execCisFreeEngine (requester : Fin 8) (index : BitVec 17) (s : State) :
    Host.Outcome State Fault Refusal :=
  .next (submitOp (.free requester index.toNat) s)

/-- The buffer is named by a track operation that has not completed (R337). -/
def inOperation (s : State) (i : Nat) : Bool :=
  (List.range 10).any fun k =>
    let c := ctxAt s (k / 5) (k % 5)
    c.busy && (List.range (bitsOf (descWord s (k / 5) (k % 5) 2) 10 10
        + bitsOf (descWord s (k / 5) (k % 5) 3) 10 10)).any fun j =>
      sram32 s (descWord s (k / 5) (k % 5) 6 + 4 * j) == i

/-- RECLAIM: while W1 is in effect, one SPEC buffer is freed, the lowest that no running
operation names (R337). -/
def reclaim (s : State) : State :=
  if wInEffect s 0 then
    match (s.cis.owners.map Prod.fst).find? (fun i => isSpec s i && !inOperation s i) with
    | some i => pushFree i s
    | none => s
  else s

def execReclaim (s : State) : Host.Outcome State Fault Refusal := .next (reclaim s)

/-! ## Rebuild (R328) -/

/-- Every tag is zero and correct: the tag region holds what unlisted SRAM words hold. -/
def clearTags (s : State) : State :=
  { s with sram := s.sram.filter fun e =>
      decide (e.1 < 0x17000000 / 8 ∨ (0x17000000 + 64 * numBuffers) / 8 ≤ e.1) }

/-- The pool starts anew: every buffer is free and every count is zero. -/
def clearPool (s : State) : State :=
  let s := modCis (clearTags s) fun c => { c with owners := [], stack := [], fresh := 0 }
  let s := (List.range 7).foldl (fun s n => setOwnCount (n + 1) 0 s) s
  let s := wrN (setBit s Reg.CIS_STS 0 false) Reg.CIS_SPECCNT 0
  updateThresholds (wrN s Reg.CIS_FREECNT numBuffers)

/-- REBUILD: a rebuild that runs ends, and READY rises; the gives and frees that waited for it are performed
in the order of their arrival, and allocations that waited go on waiting for their retry. While READY is 1
none runs (R328). -/
def rebuildEnd (s : State) : State :=
  if bit s Reg.CIS_STS 0 then s else
  s.cis.held.foldl performOp (modCis (setBit (clearPool s) Reg.CIS_STS 0 true) fun c => { c with held := [] })

def execRebuild (s : State) : Host.Outcome State Fault Refusal := .next (rebuildEnd s)

/-! ## Core access (R339) -/

/-- A read of CIS_ALLOC or CIS_ALLOCR. -/
def coreAlloc (floorOk : Bool) (s : State) : State :=
  if !cisReady s then answer (2 ^ 29 * 3) s else
  let wait := s.cis.waiting
  let s := allocOne Owner.core false floorOk s
  let s := modCis s fun c => { c with waiting := wait }
  match s.cis.last with
  | some a => answer (if a.result = 0 then bufAddr a.index else 2 ^ 29 * a.result) s
  | none => s

def execCisAlloc (s : State) : Host.Outcome State Fault Refusal := .next (coreAlloc false s)
def execCisAllocr (s : State) : Host.Outcome State Fault Refusal := .next (coreAlloc true s)

/-- CIS_FREE; while READY = 0 the store is held. -/
def cisFreeWrite (v : Nat) (s : State) : State := submitOp (.coreFree v) s

def execCisFree (value : Word) (s : State) : Host.Outcome State Fault Refusal :=
  .next (cisFreeWrite value.toNat s)

/-- CIS_GIVE; while READY = 0 the store is held. -/
def cisGiveWrite (v : Nat) (s : State) : State := submitOp (.coreGive v) s

def execCisGive (value : DWord) (s : State) : Host.Outcome State Fault Refusal :=
  .next (cisGiveWrite value.toNat s)

/-- ERRLOG_POP: a read of CIS_ERRLOG. -/
def errlogPop (s : State) : State :=
  match s.cis.errlog with
  | e :: l => answer e (modCis s fun c => { c with errlog := l })
  | [] => answer 0 s

def execErrlogPop (s : State) : Host.Outcome State Fault Refusal := .next (errlogPop s)

def execMinfreeWrite (_value : Word) (s : State) : Host.Outcome State Fault Refusal :=
  .next (busOk (wrN s Reg.CIS_MINFREE (freeCount s)))

/-- CIS_CTL_WRITE: a value out of range is ignored and sets an event bit (R544). Chapter 11 gives no
bit of CIS_EVT that meaning, so which of the eight is set is a free value (log entry 11). -/
def cisCtlWrite (v : Nat) (s : State) : State :=
  let h := bitsOf v 0 13
  if 64 ≤ h ∧ h ≤ 4096 then updateThresholds (wrN s Reg.CIS_CTL h)
  else
    let (b, s) := drawFree 3 s
    evt Reg.CIS_EVT b s

def execCisCtlWrite (value : Word) (s : State) : Host.Outcome State Fault Refusal :=
  .next (busOk (cisCtlWrite value.toNat s))

/-! ## Buffers of the engines -/

/-- Free every buffer of a list that `o` owns. -/
def freeAll (o : Nat) : List Nat → State → State
  | [], s => s
  | i :: l, s => freeAll o l (if ownerOf s i = o then (freeBuf o i true s).2 else s)

end Sys2Proof.Machine
end

