-- ==== Sys2Proof/Machine/Host.lean ====
section
/-! DEFINITION. Commands in flight (chapter 8): their slots, hazards and completions, and the
change between READY and ACTIVE that follows them (R421). -/

namespace Sys2Proof.Machine

/-- Change the queue engine's state. -/
def modNqe (s : State) (f : NqeState → NqeState) : State := { s with nqe := f s.nqe }

/-! ## Opcodes and statuses -/

namespace IoOp
abbrev flush : Nat := 0x00
abbrev write : Nat := 0x01
abbrev read : Nat := 0x02
abbrev compare : Nat := 0x05
abbrev writeZeroes : Nat := 0x08
abbrev verify : Nat := 0x0C
abbrev zoneSend : Nat := 0x79
abbrev zoneReceive : Nat := 0x7A
abbrev zoneAppend : Nat := 0x7D
end IoOp

/-! ### Statuses of R263 -/
namespace Status
abbrev success : Nat := 0x000
abbrev invalidOpcode : Nat := 0x001
abbrev invalidField : Nat := 0x002
abbrev abortRequested : Nat := 0x007
abbrev abortedSq : Nat := 0x008
abbrev invalidNamespace : Nat := 0x00B
abbrev sglCount : Nat := 0x00F
abbrev sanitizeFailed : Nat := 0x01C
abbrev sanitizing : Nat := 0x01D
abbrev lbaRange : Nat := 0x080
abbrev abortLimit : Nat := 0x103
abbrev fwSlot : Nat := 0x106
abbrev fwImage : Nat := 0x107
abbrev fwProhibited : Nat := 0x113
abbrev connectBusy : Nat := 0x181
abbrev connectParameters : Nat := 0x182
abbrev connectHost : Nat := 0x184
abbrev authRequired : Nat := 0x191
abbrev zoneBoundary : Nat := 0x1B8
abbrev zoneFull : Nat := 0x1B9
abbrev zoneReadOnly : Nat := 0x1BA
abbrev zoneOffline : Nat := 0x1BB
abbrev zoneInvalidWrite : Nat := 0x1BC
abbrev tooManyActive : Nat := 0x1BD
abbrev zoneTransition : Nat := 0x1BF
abbrev writeFault : Nat := 0x280
abbrev readError : Nat := 0x281
abbrev compareFailure : Nat := 0x285
end Status

/-! ## Command slots -/

/-- The command in slot `k`. -/
def cmdAt (s : State) (k : Nat) : Option HostCmd := s.nqe.cmds.find? fun c => c.slot == k

/-- Change the command in slot `k`. -/
def modCmd (k : Nat) (f : HostCmd → HostCmd) (s : State) : State :=
  modNqe s fun n => { n with cmds := n.cmds.map fun c => if c.slot = k then f c else c }

/-- The command is an I/O command. -/
def HostCmd.io (c : HostCmd) : Bool := c.sqid != 0

/-- A media command (R257); a Flush is one while it has writes to wait for. -/
def HostCmd.media (c : HostCmd) : Bool :=
  c.io && (c.opcode == IoOp.read || c.opcode == IoOp.write || c.opcode == IoOp.writeZeroes
    || c.opcode == IoOp.verify || c.opcode == IoOp.compare || c.opcode == IoOp.zoneAppend
    || c.opcode == IoOp.zoneSend || (c.opcode == IoOp.flush && !c.left.isEmpty))

/-- A command that writes sectors. -/
def HostCmd.writes (c : HostCmd) : Bool :=
  c.io && (c.opcode == IoOp.write || c.opcode == IoOp.writeZeroes || c.opcode == IoOp.zoneAppend)

/-- A command that takes a hazard-table entry (R244). -/
def HostCmd.hazard (c : HostCmd) : Bool :=
  c.io && ((c.nsid == 1 && (c.opcode == IoOp.read || c.opcode == IoOp.write || c.opcode == IoOp.writeZeroes
      || c.opcode == IoOp.verify || c.opcode == IoOp.compare))
    || (c.nsid == 2 && c.opcode == IoOp.zoneSend))

/-- NQE_INFL and NQE_HZUSE follow the commands in flight, with their peaks and full flags. -/
def countCmds (s : State) : State :=
  let n := s.nqe.cmds.length
  let h := (s.nqe.cmds.filter HostCmd.hazard).length
  let s := wrN s Reg.NQE_INFL (n + 2 ^ 16 * max n (getF s Reg.NQE_INFL 16 15))
  let s := wrN s Reg.NQE_HZUSE (h + 2 ^ 16 * max h (getF s Reg.NQE_HZUSE 16 11))
  let s := evtIf (decide (16384 ≤ n) && !bit s Reg.NQE_STS 2) Reg.NQE_EVT 2 s
  let s := evtIf (decide (1024 ≤ h) && !bit s Reg.NQE_STS 3) Reg.NQE_EVT 1 s
  setBit (setBit s Reg.NQE_STS 2 (decide (16384 ≤ n))) Reg.NQE_STS 3 (decide (1024 ≤ h))

/-- A context of either sequencer has an operation queued or running. -/
def opsActive (s : State) : Bool :=
  s.tsq.any fun t => t.ctxs.any fun c => c.busy || !c.queue.isEmpty

/-- READY becomes ACTIVE and ACTIVE READY as R421 has it. -/
def settleActive (s : State) : State :=
  let work := opsActive s || s.nqe.cmds.any HostCmd.media
  if work && mode s == Mode.ready then setMode Mode.active s
  else if !work && mode s == Mode.active then setMode Mode.ready s
  else s

/-- Change association `a`. -/
def modAssoc (a : Nat) (f : Assoc → Assoc) (s : State) : State :=
  modNqe s fun n => { n with assocs := n.assocs.map fun x => if x.id = a then f x else x }

/-- Association `a`. -/
def assocAt (s : State) (a : Nat) : Option Assoc := s.nqe.assocs.find? fun x => x.id == a

/-- The command's host receives data. -/
def sendData (c : HostCmd) (d : HostData) (s : State) : State :=
  modNqe s fun n => { n with sent := n.sent ++ [⟨c.assoc, c.sqid, c.cid, d⟩] }

/-- The Error Information log of association `a` records a status other than success; it keeps 64 entries
(R236, R263). -/
def noteError (a q cid st : Nat) (lba : Option Nat) (s : State) : State :=
  if st = 0 then s
  else modAssoc a (fun x => { x with errors := (⟨q, cid, st, lba⟩ :: x.errors).take 64 }) s

/-- Count a completion (R263). -/
def countCompletion (status : Nat) (s : State) : State :=
  let s := wrapInc s Reg.NQE_CMDCNT
  if status = 0 then s else satInc s Reg.NQE_ERRCNT 32

/-- Post a completion; `lba` is the first LBA of its command that failed. -/
def post (c : Completion) (lba : Option Nat) (s : State) : State :=
  noteError c.assoc c.sqid c.cid c.status lba
    (countCompletion c.status (modNqe s fun n => { n with posted := n.posted ++ [c] }))

/-- Remove the command in slot `k` from the commands in flight. -/
def dropCmd (k : Nat) (s : State) : State :=
  countCmds (modNqe s fun n =>
    { n with cmds := n.cmds.filter fun c => c.slot != k, exq := n.exq.filter fun e => e.1 != k })

/-- A Flush whose writes have all completed completes (R243). -/
def finishFlushes (k : Nat) (s : State) : State :=
  let s := modNqe s fun n =>
    { n with cmds := n.cmds.map fun c =>
        if c.io && c.opcode == IoOp.flush then { c with left := c.left.filter (· != k) } else c }
  s.nqe.cmds.foldl (fun s c =>
    if c.io && c.opcode == IoOp.flush && c.phase == .media && c.left.isEmpty then
      dropCmd c.slot (post ⟨c.assoc, c.sqid, c.cid, 0, false, 0, 0⟩ none s)
    else s) s

/-- The command in slot `k` completes with a status. Buffers of its data that the command holds
outside retention are freed. -/
def complete (k status : Nat) (dnr : Bool) (s : State) : State :=
  match cmdAt s k with
  | none => s
  | some c =>
    let s := post ⟨c.assoc, c.sqid, c.cid, status, dnr, c.dw0, c.dw1⟩ c.badLba s
    let s := gauge 5 (((s.clock - c.fetched) / 1000 : Nat) : Int) s
    let s := freeAll Owner.nqe c.bufs (freeAll Owner.media c.bufs s)
    settleActive (finishFlushes k (dropCmd k s))

/-- Discard a command without a completion (R248). -/
def discard (k : Nat) (s : State) : State := settleActive (finishFlushes k (dropCmd k s))

/-- Hand the command in slot `k` to firmware for reason `r` (R242). -/
def toFirmware (k r : Nat) (s : State) : State :=
  let s := modCmd k (fun c => { c with phase := .firmware }) s
  evt Reg.NQE_EVT 0 (modNqe s fun n => { n with exq := n.exq ++ [(k, r)] })

/-- The command still reads sectors: it is in media execution, or firmware retries its read (R234). -/
def HostCmd.reading (c : HostCmd) : Bool := c.phase == .media || c.excAt.isSome

/-- The read of an LBA fails for reason `r`: the command passes to firmware, which retries the read until the
limit of R234. -/
def readFails (r lba : Nat) (c : HostCmd) (s : State) : State :=
  if c.excAt.isSome then s
  else toFirmware c.slot r (modCmd c.slot (fun c => { c with excAt := some s.clock, badLba := some lba }) s)

/-- The limit of a read's retries, in ns: TLER in units of 100 ms, where 0 stands for 3.0 s. -/
def readLimit (s : State) : Nat := 100000000 * (if s.nqe.tler = 0 then 30 else s.nqe.tler)

/-- A read that still fails when its limit runs out completes with 0x281 (R234). -/
def endRetries (s : State) : State :=
  (s.nqe.cmds.filter fun c => c.phase == .firmware && !c.left.isEmpty
      && (c.excAt.map fun t => decide (t + readLimit s ≤ s.clock)).getD false).foldl
    (fun s c => complete c.slot Status.readError false s) s

/-- Discard every I/O command that has not completed (R441). -/
def discardIo (s : State) : State :=
  (s.nqe.cmds.filter HostCmd.io).foldl (fun s c => discard c.slot s) s

/-! ## Sector jobs of the cipher lattice (R370 to R373) -/

/-- Change the cipher lattice's state. -/
def modCph (s : State) (f : CphState → CphState) : State := { s with cph := f s.cph }

/-- Issue a job: it takes the next number and waits from this clock. -/
def issueJob (j : CphJob) (s : State) : State :=
  modCph s fun c =>
    { c with jobs := c.jobs ++ [{ j with id := c.nextJob, arrived := s.clock }], nextJob := c.nextJob + 1 }

/-- A job with nothing filled in. -/
def CphJob.blank : CphJob where
  id := 0
  source := 0
  op := 0
  slot := none
  src := 0
  dst := 0
  len := 0
  aad := 0
  aadLen := 0
  lba := 0
  nsid := 0
  zone := 0
  epoch := 0
  desc := none
  arrived := 0
  key := 0
  cluster := none
  blocks := 0
  journal := false
  iv := 0
  status := none
  ended := false

/-- An engine issues a sector job (1 SECTOR_ENC, 2 SECTOR_DEC) on buffer `b`, under the key map. -/
def issueSector (op nsid lba zone b : Nat) (s : State) : State :=
  issueJob { CphJob.blank with
    source := 4, op := op, src := 4096 * b, lba := lba, nsid := nsid, zone := zone
    epoch := if nsid = 2 then zEpoch s zone else 0 } s

end Sys2Proof.Machine
end

