-- ==== Sys2Proof/Machine/Copy.lean ====
section
/-! DEFINITION. What rewrap and peer stream (chapter 19) share with the pipeline: the copies'
readers, the failure of a rewrap, and the running entries of the stream. -/

namespace Sys2Proof.Machine

/-! ## Readers -/

/-- A reader that starts at offset 0. -/
def CopyReader.fresh : CopyReader := ⟨0, 0, none, []⟩

/-- The time that a failing sector is retried (R234), in clocks. -/
def retryLimit (s : State) : Nat := if s.nqe.tler = 0 then 3000000000 else s.nqe.tler * 100000000

/-- A read reached the cipher. -/
def CopyReader.take (b : Nat) (r : CopyReader) : CopyReader :=
  { r with next := r.next + 1, jobs := r.jobs ++ [(b, r.next)] }

/-- The sector at offset `k` failed: it is read again, and its first failure is dated. -/
def CopyReader.failed (s : State) (k : Nat) (r : CopyReader) : CopyReader :=
  { r with next := min r.next k, failAt := some (r.failAt.getD s.clock) }

/-- The retries of the failing sector have run out. -/
def CopyReader.expired (s : State) (r : CopyReader) : Bool :=
  match r.failAt with
  | some c => decide (c + retryLimit s ≤ s.clock)
  | none => false

/-! ## Rewrap (R498, R500) -/

/-! ### Results of R497 and R500 -/
namespace RwResult
abbrev ok : Nat := 0
abbrev busy : Nat := 1
abbrev srcState : Nat := 2
abbrev tgtState : Nat := 3
abbrev key : Nat := 4
abbrev active : Nat := 5
abbrev integrity : Nat := 6
abbrev write : Nat := 7
abbrev aborted : Nat := 8
end RwResult

/-- Change the rewrap in progress. -/
def modRewrap (s : State) (f : RewrapRun → RewrapRun) : State :=
  modArc s fun a => { a with rewrap := a.rewrap.map f }

/-- ZTB_RWSTS.PHASE. -/
def rwPhase (s : State) : Nat := getF s Reg.ZTB_RWSTS 1 3

/-- Zone `z` is the target of the rewrap in progress. -/
def rwTarget (s : State) (z : Nat) : Bool :=
  match s.arc.rewrap with
  | some r => r.tgt == z
  | none => false

/-- Enter a phase that is journalled. -/
def rwJournal (p : Nat) (s : State) : State := evt Reg.ZTB_AREVT 3 (setF s Reg.ZTB_RWSTS 1 3 p)

/-- The rewrap fails with a result: phase ABORT journals a reset of the target (R500). -/
def rwFail (r : Nat) (s : State) : State :=
  let l := (s.arc.rewrap.map fun x => x.reader.jobs.map Prod.fst ++ x.encs).getD []
  let s := modArc (modRewrap s fun x => { x with reader := { x.reader with jobs := [] }, encs := [] }) fun a =>
    { a with orphans := a.orphans ++ l }
  rwJournal 5 (setF s Reg.ZTB_RWSTS 4 4 r)

/-- The rewrap fails at source offset `k`. -/
def rwFailAt (r k : Nat) (s : State) : State := rwFail r (setF s Reg.ZTB_RWSTS 8 18 k)

/-- A write of offset `k` of zone `z` failed: it ends a copy into that zone. -/
def rwWriteFails (z k : Nat) (s : State) : State :=
  if rwTarget s z && rwPhase s == 2 then rwFailAt RwResult.write k s else s

/-- CPTR of zone `z` is `c`: OFFSET follows the target's. -/
def rwOffset (z c : Nat) (s : State) : State :=
  if rwTarget s z && rwPhase s == 2 then setF s Reg.ZTB_RWSTS 8 18 c else s

/-- A read of offset `k` of zone `z` serves the copy next. -/
def rwWants (s : State) (z k : Nat) : Bool :=
  match s.arc.rewrap with
  | some r => rwPhase s == 2 && r.src == z && r.reader.next == k && decide (k < zCptr s z)
  | none => false

/-- A source sector of the rewrap failed. -/
def rwReadFails (k : Nat) (s : State) : State :=
  let s := modRewrap s fun r => { r with reader := r.reader.failed s k }
  match s.arc.rewrap with
  | some r => if r.reader.expired s then rwFailAt RwResult.integrity k s else s
  | none => s

/-! ## Peer stream (R503 to R506) -/

/-- The stream plan, object 0x2321:00. -/
def streamPlan (s : State) : List Nat := domainBytes s (0x2321, 0)

/-- Entries in the plan. -/
def planEntries (s : State) : Nat := (streamPlan s).length / 16

/-- The source zone of plan entry `e`, and the start of its peer zone. -/
def planZone (s : State) (e : Nat) : Nat := leNat (((streamPlan s).drop (16 * e)).take 4)
def planPeer (s : State) (e : Nat) : Nat := leNat (((streamPlan s).drop (16 * e + 8)).take 8)

/-- The state byte of plan entry `e`. -/
def entryState (s : State) (e : Nat) : Nat := s.arc.states.getD e 0

/-- Set the state byte of plan entry `e`. -/
def setEntryState (e v : Nat) (s : State) : State :=
  modArc s fun a =>
    { a with states := modAt (a.states ++ List.replicate (planEntries s - a.states.length) 0) e fun _ => v }

/-- Change the running entry `e`. -/
def modEntry (e : Nat) (f : StreamEntry → StreamEntry) (s : State) : State :=
  modArc s fun a => { a with entries := a.entries.map fun x => if x.entry = e then f x else x }

/-- Buffers of an entry are given up: those of running jobs when the job ends. -/
def dropSectors (x : StreamEntry) (s : State) : State :=
  modArc (freeAll Owner.media (x.held.map Prod.snd) s) fun a =>
    { a with orphans := a.orphans ++ x.reader.jobs.map Prod.fst }

/-- A running entry stops with a state byte (R505, R506). -/
def entryStops (x : StreamEntry) (v : Nat) (s : State) : State :=
  setEntryState x.entry v
    (modArc (dropSectors x s) fun a => { a with entries := a.entries.filter fun y => y.entry != x.entry })

/-- The running entry that a read of offset `k` of zone `z` serves next. -/
def streamWants (s : State) (z k : Nat) : Option StreamEntry :=
  if s.arc.mode = .running then
    s.arc.entries.find? fun x => planZone s x.entry == z && x.reader.next == k && decide (k < x.size)
  else none

/-- A source sector of a running entry failed. -/
def streamReadFails (x : StreamEntry) (k : Nat) (s : State) : State :=
  let r := x.reader.failed s k
  if r.expired s then entryStops x 0x12 s else modEntry x.entry (fun y => { y with reader := r }) s

end Sys2Proof.Machine
end

