-- ==== Sys2Proof/Machine/Pipeline.lean ====
section
/-! DEFINITION. The zone engine (chapters 2 and 4): zone states, slips, the pointers RPTR and CPTR,
verification, rollback, retention, and what committed progress of a track operation does. -/

namespace Sys2Proof.Machine

/-- Change the zone engine's state. -/
def modZtb (s : State) (f : ZtbState → ZtbState) : State := { s with ztb := f s.ztb }

/-! ## Zone work -/

/-- What the zone engine keeps of zone `z`; a zone it does not follow has nothing in flight, so
its assignment end is RPTR (R99). -/
def workAt (s : State) (z : Nat) : ZoneWork :=
  (s.ztb.zones.find? fun w => w.zone == z).getD ⟨z, zRptr s z, [], [], [], false, false, false, 0, 0, 0⟩

/-- Change what the zone engine keeps of zone `z`. -/
def modWork (z : Nat) (f : ZoneWork → ZoneWork) (s : State) : State :=
  let w := f (workAt s z)
  modZtb s fun t => { t with zones := w :: t.zones.filter fun x => x.zone != z }

/-- The first LBA of zone `z` in NSID 2 (R54). -/
def zoneStart (s : State) (z : Nat) : Nat := z * zcap s

/-- The zone of an NSID 2 LBA. -/
def zoneOfLba (s : State) (lba : Nat) : Nat := lba / zcap s

/-- The zones on whose sectors a command acts: none for a Flush, the zone named for a Zone Management Send,
the zone written for a write (R240), and every zone that a read or a verify runs through (R237). -/
def cmdZones (s : State) (c : HostCmd) : List Nat :=
  if c.nsid ≠ 2 ∨ c.opcode = IoOp.flush then []
  else
    let z := zoneOfLba s c.slba
    if c.writes || c.opcode == IoOp.zoneSend then [z]
    else (List.range (zoneOfLba s (c.slba + max 1 c.nlb - 1) + 1 - z)).map (z + ·)

/-- The offset of an NSID 2 LBA in its zone. -/
def offsetOfLba (s : State) (lba : Nat) : Nat := lba % zcap s

/-! ## Zone states (R64, R115) -/

/-- Active and open zones of ZTB_ACTZ. -/
def activeZones (s : State) : Nat := getF s Reg.ZTB_ACTZ 0 6
def openZones (s : State) : Nat := getF s Reg.ZTB_ACTZ 8 6

/-- Set the STATE of zone `z`: the counts of ZTB_ACTZ follow, and the Sluice holds the target
check of that zone failed until it is evaluated again (R412). -/
def setZoneState (z v : Nat) (s : State) : State :=
  let old := zState s z
  if old = v then s else
  let n := activeZones s + (if zActive v then 1 else 0) - (if zActive old then 1 else 0)
  let m := openZones s + (if zOpen v then 1 else 0) - (if zOpen old then 1 else 0)
  targetPendingZone z (wrN (setZState z v s) Reg.ZTB_ACTZ (n + 256 * m))

/-- ZTB_OPPEND shows the oldest zone that waits for acknowledgement. -/
def showOppend (s : State) : State :=
  wrN s Reg.ZTB_OPPEND (match s.ztb.oppend with | z :: _ => z + 2 ^ 31 | [] => 0)

/-- Zone `z` takes state `v`. A zone that leaves Empty enters ZTB_OPPEND and holds CPTR at 0 until it is
acknowledged, whatever it leaves Empty for (R125). -/
def enterZoneState (z v : Nat) (s : State) : State :=
  if zState s z = zEmpty ∧ v ≠ zEmpty then
    let s := modWork z (fun w => { w with waitOpen := true }) (setZoneState z v s)
    evt Reg.ZTB_WPEVT 8 (showOppend (modZtb s fun t => { t with oppend := t.oppend ++ [z] }))
  else setZoneState z v s

/-- A write opens zone `z`. -/
def openByWrite (z : Nat) (s : State) : State :=
  if zState s z = zEmpty ∨ zState s z = zClosed then enterZoneState z zImpOpen s else s

/-! ## Slips (R57 to R60) -/

/-- ZTB_SLPEND and ZTB_SLNPEND show the unacknowledged slips. -/
def showSlpend (s : State) : State :=
  let s := wrN s Reg.ZTB_SLPEND (match s.ztb.slpend with | p :: _ => p.pool | [] => 0)
  wrN s Reg.ZTB_SLNPEND s.ztb.slpend.length

/-- The spares or the pool are used up: no slip, the zone becomes Read Only (R60). -/
def slipRefused (z bit : Nat) (s : State) : State :=
  setZoneState z zReadOnly (evt Reg.ZTB_EVT bit s)

/-- Append physical index `p` to the slip list of zone `z` (R57 to R60); the answer says whether
the slip was made. -/
def appendSlip (z p : Nat) (s : State) : Bool × State :=
  let head := getF s Reg.ZTB_SLHEAD 0 20
  if zoneSpares ≤ zNslip s z then (false, slipRefused z 1 s)
  else if head = 0xFFFFF then (false, slipRefused z 2 s)
  else
    let q := zoneToLogical s z p
    let base := rdN s Reg.ZTB_SLBASE
    let n := zNslip s z
    let s := if n = 0 then setSliphead z head s else
      let last := lastSlip s n (zSliphead s z)
      sramPutPart s (base + 8 * last) 32 20 head
    let s := sramPut64 s (base + 8 * head) (p + 2 ^ 32 * 0xFFFFF)
    let s := setNslip z (n + 1) (wrN s Reg.ZTB_SLHEAD (head + 1))
    let s := modZtb s fun t => { t with slpend := t.slpend ++ [⟨head, z, q⟩] }
    (true, evt Reg.ZTB_WPEVT 2 (evt Reg.ZTB_EVT 0 (showSlpend s)))

/-! ## Completion of writes (R117) -/

/-- Commands whose sectors in zone `z` lie wholly below CPTR complete. -/
def completeWrites (z : Nat) (s : State) : State :=
  let limit := zoneStart s z + zCptr s z
  (s.nqe.cmds.filter fun c => c.writes && c.phase == .media && c.nsid == 2
      && decide (zoneStart s z ≤ c.slba ∧ c.slba + c.nlb ≤ limit)).foldl
    (fun s c => complete c.slot Status.success false s) s

/-! ## Sealing and CPTR (R98, R105, R110, R117) -/

/-- A sector is committed: verified, or written under INHIBIT. -/
def TailSector.committed (t : TailSector) : Bool := t.verified || t.unguarded

/-- Seal the sectors of zone `z` that `which` names: their buffers are released and their attempt
counts cleared. -/
def sealSectors (z : Nat) (which : TailSector → Bool) (s : State) : State :=
  let out := (workAt s z).tail.filter which
  let s := modWork z (fun w =>
    { w with
      tail := w.tail.filter fun t => !which t
      attempts := w.attempts.filter fun a => !out.any fun t => t.phys == a.1 }) s
  freeAll Owner.retain (out.filterMap TailSector.buf) s

/-- The offset that CPTR of zone `z` may reach: RPTR, the first sector not committed, the offset
that an unacknowledged slip displaced, and 0 while the opening is not acknowledged. -/
def commitLimit (s : State) (z : Nat) : Nat :=
  let w := workAt s z
  if w.waitOpen then 0 else
  let a := (w.tail.filter fun t => !t.committed).foldl (fun m t => min m (zoneToLogical s z t.phys)) (zRptr s z)
  (s.ztb.slpend.filter fun p => p.zone == z).foldl (fun m p => min m p.offset) a

/-- CPTR of zone `z` moves over the committed sectors. At the zone's capacity the zone is Full
(log entry 20), and its remaining sectors are sealed (R110). -/
def updateCptr (z : Nat) (s : State) : State :=
  let c := commitLimit s z
  if c ≤ zCptr s z then s else
  let s := rwOffset z c (setCptr z c s)
  let s := if c = zcap s ∧ zActive (zState s z) = true then setZoneState z zFull s else s
  let s := if zRptr s z = zcap s then sealSectors z TailSector.committed s else s
  completeWrites z s

/-! ## Failed writes and repair (R241) -/

/-- The offset in zone `z` of a command's first sector. -/
def cmdOffset (s : State) (z : Nat) (c : HostCmd) : Nat := c.slba - zoneStart s z

/-- A command that writes to zone `z`. -/
def writesZone (s : State) (z : Nat) (c : HostCmd) : Bool :=
  c.writes && c.nsid == 2 && zoneOfLba s c.slba == z

/-- The offsets and buffers of a command of `n` sectors at offset `q`. -/
def assignList (q : Nat) (bufs : List Nat) : List Assigned :=
  bufs.mapIdx fun i b => ⟨q + i, b⟩

/-- A later append takes its sectors anew from the assignment end; a later write completes with
0x1BC and its buffers are freed (R241). -/
def reassign (z : Nat) (c : HostCmd) (s : State) : State :=
  if c.opcode = IoOp.zoneAppend then
    let q := (workAt s z).assignEnd
    let lba := zoneStart s z + q
    let s := modWork z (fun w =>
      { w with assignEnd := q + c.nlb, queue := w.queue ++ assignList q c.bufs }) s
    modCmd c.slot (fun c => { c with slba := lba, dw0 := lba % 2 ^ 32, dw1 := lba / 2 ^ 32 }) s
  else complete c.slot Status.zoneInvalidWrite false (freeAll Owner.retain c.bufs s)

/-- Repair the assignments of zone `z` after a write to it ended with sectors unwritten (R241). -/
def repairZone (z : Nat) (s : State) : State :=
  let r := zRptr s z
  let later := s.nqe.cmds.filter fun c =>
    writesZone s z c && c.phase == .media && decide (r ≤ cmdOffset s z c)
  let keep := later.flatMap HostCmd.bufs
  let lost := ((workAt s z).queue.map Assigned.buf).filter fun b => b ∉ keep
  let s := freeAll Owner.retain lost s
  let s := modWork z (fun w => { w with assignEnd := r, queue := [], repair := false }) s
  later.foldl (fun s c => reassign z c s) s

/-- A context runs or holds a write of zone `z`. -/
def zoneWriting (s : State) (z : Nat) : Bool :=
  (List.range 10).any fun i =>
    let q := i / 5
    let x := i % 5
    (ctxAt s q x).busy && descOp s q x == 3 && bitsOf (descWord s q x 5) 0 20 == z
      && (descWord s q x 5).testBit 31

/-- Repair zone `z` at once, or when its running write has ended. -/
def requestRepair (z : Nat) (s : State) : State :=
  if zoneWriting s z then modWork z (fun w => { w with repair := true }) s else repairZone z s

/-- The write that holds offset `q` of zone `z` fails: firmware completes it (R242, reason 5),
and the zone is repaired. -/
def failWrite (z q : Nat) (s : State) : State :=
  let s := (s.nqe.cmds.filter fun c => writesZone s z c && c.phase == .media
      && decide (cmdOffset s z c ≤ q ∧ q < cmdOffset s z c + c.nlb)).foldl
    (fun s c => toFirmware c.slot 5 s) s
  requestRepair z (rwWriteFails z q s)

/-! ## The running operation -/

/-- Fields of the descriptor that context `x` of sequencer `q` runs (R133). -/
def dHead (s : State) (q x : Nat) : Nat := bitsOf (descWord s q x 0) 12 4
def dSurf (s : State) (q x : Nat) : Nat := bitsOf (descWord s q x 0) 16 5
def dBand (s : State) (q x : Nat) : Nat := bitsOf (descWord s q x 0) 21 6
def dTrack (s : State) (q x : Nat) : Nat := bitsOf (descWord s q x 1) 0 24
def dFirst (s : State) (q x : Nat) : Nat := bitsOf (descWord s q x 2) 0 10
def dCount (s : State) (q x : Nat) : Nat := bitsOf (descWord s q x 2) 10 10
def dTfirst (s : State) (q x : Nat) : Nat := bitsOf (descWord s q x 3) 0 10
def dTcount (s : State) (q x : Nat) : Nat := bitsOf (descWord s q x 3) 10 10
def dGuard (s : State) (q x : Nat) : Nat := bitsOf (descWord s q x 3) 20 2
def dWdly (s : State) (q x : Nat) : Int := signedOf 16 (bitsOf (descWord s q x 4) 0 16)
def dTdly (s : State) (q x : Nat) : Int := signedOf 16 (bitsOf (descWord s q x 4) 16 16)
def dZone (s : State) (q x : Nat) : Nat := bitsOf (descWord s q x 5) 0 20
def dZoned (s : State) (q x : Nat) : Bool := (descWord s q x 5).testBit 31
def dBufl (s : State) (q x : Nat) : Nat := descWord s q x 6
def dFtab (s : State) (q x : Nat) : Nat := descWord s q x 7
def dRes (s : State) (q x : Nat) : Nat := descWord s q x 8

/-- The buffer of sector index `i`, primary sectors first. -/
def dBuffer (s : State) (q x i : Nat) : Nat := sram32 s (dBufl s q x + 4 * i)

/-- The result of sector index `i`. -/
def dResult (s : State) (q x i : Nat) : Nat := sram32 s (dRes s q x + 4 * i)

/-- Sectors per track at track `t` of surface `f`. -/
def trackSpt (s : State) (f t : Nat) : Nat := ((bandOfTrack s f t).map btSpt).getD 1

/-- Sectors per track of the band of the operation's track. -/
def dSpt (s : State) (q x : Nat) : Nat := trackSpt s (dSurf s q x) (dTrack s q x)

/-- The sector number of primary or trailing sector index `i`; a run goes on past the last
sector of its track at sector 0. -/
def dSector (s : State) (q x : Nat) (trailing : Bool) (i : Nat) : Nat :=
  ((if trailing then dTfirst s q x else dFirst s q x) + i) % dSpt s q x

/-- The track of the trailing lane: the track before that of the primary lane, but the tail
track itself in TAIL_VERIFY (R106, R108). -/
def dTrailTrack (s : State) (q x : Nat) : Nat :=
  if descOp s q x = 4 then dTrack s q x else dTrack s q x - 1

/-! ## Verification (R102 to R106, R119, R121) -/

/-- A sector result passes R104, apart from the data comparison. -/
def resultPasses (s : State) (r : Nat) : Bool :=
  let sync := bitsOf r 0 3
  (decide (sync ≤ 2) || (bit s Reg.ZTB_VCFG 12 && decide (sync ≤ 4)))
    && bitsOf r 3 2 == decOk && !r.testBit 14 && !r.testBit 15
    && decide (bitsOf r 16 12 ≤ getF s Reg.ZTB_VCFG 0 12)

/-- The highest sector of track `t` whose write gate has completed, by RPTR of zone `z`. -/
def highestWritten (s : State) (z t : Nat) : Option Nat :=
  if zRptr s z = 0 then none else
  match zonePlace s z (zoneToPhys s z (zRptr s z - 1)) with
  | some (u, k) => if u = t then some k else if t < u then some (1023) else none
  | none => none

/-- Sector `k` of track `n` of zone `z` is covered by what is written of track `n + 1` (R102).
Every sector is covered once track `n + 1` has been written in full (R106). -/
def isCovered (s : State) (z n k : Nat) : Bool :=
  let f := zoneSurface s z
  match bandOfTrack s f n, bandOfTrack s f (n + 1), highestWritten s z (n + 1) with
  | some e, some e', some h =>
    if btSpt e' ≤ h + 1 then true else
    match frameOf s e k, frameOf s e' 0, frameOf s e' h with
    | some fr, some f0, some fh =>
      let w := wedges s
      let base := bitAngle w e' (n + 1) f0.start
      let a := angDist base (bitAngle w e n fr.start)
      let b := angDist base (bitAngle w e n (fr.padEnd - 1))
      decide (a ≤ b ∧ b ≤ angDist base (bitAngle w e' (n + 1) (fh.padEnd - 1)))
    | _, _, _ => false
  | _, _, _ => false

/-- The sectors of zone `z` from physical index `p` on lose their place in the tail and are to be
written again from retention (R121, R122). A sector that was written under INHIBIT has no retained copy
(R119) and R121 does not say what is written in its place: DESIGN CHOICE (log entry 21), nothing is queued
for it. -/
def unwrite (z p : Nat) (s : State) : State :=
  let back := (workAt s z).tail.filter fun t => decide (p ≤ t.phys)
  let again := back.filterMap fun t => t.buf.map fun b => (⟨zoneToLogical s z t.phys, b⟩ : Assigned)
  modWork z (fun w =>
    { w with
      tail := w.tail.filter fun t => decide (t.phys < p)
      queue := again ++ w.queue
      rolled := true }) s

/-- Attempts on physical index `p` of zone `z`. -/
def attemptsAt (s : State) (z p : Nat) : Nat :=
  (((workAt s z).attempts.find? fun a => a.1 == p).map Prod.snd).getD 0

/-- Set the attempts on physical index `p` of zone `z`. -/
def setAttempts (z p n : Nat) (s : State) : State :=
  modWork z (fun w =>
    { w with attempts := (if n = 0 then [] else [(p, n)]) ++ w.attempts.filter fun a => a.1 != p }) s

/-- The rollback of zone `z` to physical index `p` (R121 to R123): RPTR falls back, the attempt
count rises, the third failure slips the sector, and the run in progress ends at its next commit
point. CPTR moves backward only on a RESET (R100), so where a TAIL_VERIFY had committed sectors from `p` on
it stays above RPTR, against R98's order: DESIGN CHOICE (log entry 21). -/
def rollback (z p q x : Nat) (s : State) : State :=
  let off := zoneToLogical s z p
  let s := satInc (evt Reg.ZTB_WPEVT 0 s) Reg.ZTB_VFCNT 32
  let s := unwrite z p (setRptr z off s)
  let s := satInc (evt Reg.ZTB_WPEVT 1 s) Reg.ZTB_RBCNT 32
  let n := attemptsAt s z p + 1
  let s := modCtx s q x fun c => if c.busy then { c with ppend := !c.ptaken } else c
  if n < 3 then setAttempts z p n s
  else
    match appendSlip z p s with
    | (true, s) => setAttempts z p 0 s
    | (false, s) => failWrite z off s

/-- A sector of zone `z` has been read for verification by context `x` of sequencer `q`. -/
def verifySector (z p q x : Nat) (passes covered : Bool) (s : State) : State :=
  match (workAt s z).tail.find? fun t => t.phys == p with
  | none => s
  | some t =>
    let last := zRptr s z == zcap s || zState s z == zFull
    if t.unguarded then
      if passes then (if covered then sealSectors z (fun u => u.phys == p) s else s)
      else satInc (evt Reg.ZTB_WPEVT 7 s) Reg.ZTB_VFCNT 32
    else if passes then
      let s := modWork z (fun w =>
        { w with tail := w.tail.map fun u => if u.phys = p then { u with verified := true } else u }) s
      updateCptr z (if covered || last then sealSectors z (fun u => u.phys == p) s else s)
    else if covered || descOp s q x == 4 then rollback z p q x s
    else s

/-- The trailing lane's committed sector index `j` (R103, R106, R108). A sector written under
INHIBIT is judged without the data comparison (R119). -/
def trailDone (q x j : Nat) (s : State) : State :=
  let z := dZone s q x
  let n := dTrailTrack s q x
  let k := dSector s q x true j
  match zonePhys s z n k with
  | none => s
  | some p =>
    let kept := (workAt s z).tail.any fun t => t.phys == p && t.buf.isSome
    let same := !kept || !s.ztb.differs.contains (dSurf s q x, n, k)
    let covered := descOp s q x == 3 && isCovered s z n k
    verifySector z p q x (resultPasses s (dResult s q x (dCount s q x + j)) && same) covered s

/-! ## Writes -/

/-- The write gate of offset `off` of zone `z` has completed: RPTR advances, and the sector is
followed until it is sealed; under INHIBIT it is committed and its buffer released (R98, R112). -/
def zoneWritten (z off guard : Nat) (s : State) : State :=
  let w := workAt s z
  if w.rolled ∨ off ≠ zRptr s z then s else
  let p := zoneToPhys s z off
  let buf := (w.queue.find? fun a => a.offset == off).map Assigned.buf
  let inh := guard == 0
  let t : TailSector := ⟨p, if inh then none else buf, false, inh, s.clock⟩
  let s := modWork z (fun w =>
    { w with queue := w.queue.filter fun a => a.offset != off, tail := w.tail ++ [t], inhibits := 0 }) s
  let s := setRptr z (off + 1) s
  let s := if inh then freeAll Owner.retain buf.toList s else s
  updateCptr z s

/-- The NSID 1 write to which retained buffer `b` belongs. -/
def convOwner (b : Nat) (c : HostCmd) : Bool :=
  c.writes && c.nsid == 1 && c.phase == .media && c.bufs.contains b

/-- The NSID 1 sector `lba` in buffer `b` is committed: it leaves retention, and its command completes where
it was the last. Another write of the same LBA keeps waiting for its own. -/
def convCommitted (lba b : Nat) (s : State) : State :=
  let s := modZtb s fun t => { t with conv := t.conv.filter fun c => c.buf != b }
  let s := freeAll Owner.retain [b] s
  (s.nqe.cmds.filter (convOwner b)).foldl (fun s c =>
    let left := c.left.filter (· != lba)
    let s := modCmd c.slot (fun c => { c with left := left }) s
    if left = [] then complete c.slot Status.success false s else s) s

/-- The NSID 1 sector `lba` is retained in buffer `b`. -/
def convHeld (s : State) (lba b : Nat) : Bool := s.ztb.conv.any fun c => c.lba == lba && c.buf == b

/-- The write gate of the NSID 1 sector in buffer `b` has completed. -/
def convWritten (lba b guard : Nat) (s : State) : State :=
  if !convHeld s lba b then s
  else if guard = 0 then convCommitted lba b s
  else modZtb s fun t =>
    { t with conv := t.conv.map fun c => if c.buf = b then { c with written := true } else c }

/-- The write that owns buffer `b` fails: its sectors leave retention, and firmware completes it. -/
def convGivesUp (b : Nat) (s : State) : State :=
  (s.nqe.cmds.filter (convOwner b)).foldl
    (fun s c =>
      let lost := s.ztb.conv.filter fun k => c.bufs.contains k.buf
      let s := modZtb s fun t => { t with conv := t.conv.filter fun k => !c.bufs.contains k.buf }
      toFirmware c.slot 5 (freeAll Owner.retain (lost.map ConvSector.buf) s)) s

/-- A conventional verify fails at `lba`, in buffer `b`: the run is written again from there, and the third
failure of one sector fails its command (R111). -/
def convFails (lba b last : Nat) (s : State) : State :=
  let n := (((s.ztb.conv.find? fun c => c.buf == b).map ConvSector.fails).getD 0) + 1
  let s := modZtb s fun t =>
    { t with conv := t.conv.map fun c =>
        if c.buf = b then { c with fails := n, written := false }
        else if lba < c.lba ∧ c.lba ≤ last then { c with written := false } else c }
  if n < 3 then s else convGivesUp b (evt Reg.ZTB_WPEVT 11 s)

/-- The logical offset in zone `z` of sector `k` of track `t`: none off the zone and for a slipped sector
(R57). -/
def sectorOffset (s : State) (z t k : Nat) : Option Nat :=
  (zonePhys s z t k).bind fun p =>
    if zoneToPhys s z (zoneToLogical s z p) = p then some (zoneToLogical s z p) else none

/-- The LBA, in its namespace, of sector `k` of track `t` of the operation. -/
def opLba (s : State) (q x t k : Nat) : Option Nat :=
  if dZoned s q x then (sectorOffset s (dZone s q x) t k).map (zoneStart s (dZone s q x) + ·)
  else convLba s (dSurf s q x) t k

/-- A conventional verify read has committed sector index `i`. -/
def convVerified (q x i : Nat) (s : State) : State :=
  let k := dSector s q x false i
  match opLba s q x (dTrack s q x) k with
  | none => s
  | some lba =>
    let b := dBuffer s q x i
    if !(s.ztb.conv.any fun c => c.lba == lba && c.buf == b && c.written) then s else
    if resultPasses s (dResult s q x i) && !s.ztb.differs.contains (dSurf s q x, dTrack s q x, k) then
      convCommitted lba b s
    else convFails lba b (lba - i + dCount s q x - 1) s

/-! ## Reads (R234, R242) -/

/-- A host read waits for the LBA. -/
def wantsRead (nsid lba : Nat) (c : HostCmd) : Bool :=
  c.io && !c.writes && c.reading && c.nsid == nsid && c.left.contains lba
    && c.opcode != IoOp.flush

/-- A sector that no host command waits for serves a copy that reads its zone, or nothing. -/
def copyRead (nsid lba zone b : Nat) (good : Bool) (s : State) : State :=
  let k := offsetOfLba s lba
  if nsid ≠ 2 then s
  else if rwWants s zone k then
    if good then
      issueSector 2 nsid lba zone b (modRewrap s fun r => { r with reader := r.reader.take b })
    else rwReadFails k (freeAll Owner.media [b] s)
  else match streamWants s zone k with
    | some x =>
      if good then
        issueSector 2 nsid lba zone b (modEntry x.entry (fun y => { y with reader := y.reader.take b }) s)
      else streamReadFails x k (freeAll Owner.media [b] s)
    | none => s

/-- A sector has reached buffer `b`: a sector with DEC = FAIL or SYNCMISS passes its commands to
firmware; any other is decrypted in its buffer. -/
def readDone (nsid lba zone b r : Nat) (s : State) : State :=
  let mine := s.nqe.cmds.filter (wantsRead nsid lba)
  let good := bitsOf r 3 2 == decOk
  let s := if good then
      sramPut32 (sramPut64 s (tagAddr b) lba) (tagAddr b + 8) (if nsid = 2 then zone + 2 ^ 31 else 0)
    else s
  if mine.isEmpty then copyRead nsid lba zone b good s
  else if good then
    issueSector 2 nsid lba zone b
      (mine.foldl (fun s c => modCmd c.slot (fun c => { c with bufs := c.bufs ++ [b] }) s) s)
  else mine.foldl (fun s c => readFails 3 lba c s) s

/-- Committed sector index `i` of a read, on the primary or the trailing lane. -/
def readSector (q x : Nat) (trailing : Bool) (i : Nat) (s : State) : State :=
  let t := if trailing then dTrailTrack s q x else dTrack s q x
  let idx := if trailing then dCount s q x + i else i
  match opLba s q x t (dSector s q x trailing i) with
  | none => s
  | some lba =>
    readDone (if dZoned s q x then 2 else 1) lba (dZone s q x) (dBuffer s q x idx) (dResult s q x idx) s

/-! ## Committed progress (R151) -/

/-- Primary sector index `i` has been committed. -/
def primaryDone (q x i : Nat) (s : State) : State :=
  let op := descOp s q x
  if op = 3 then
    match opLba s q x (dTrack s q x) (dSector s q x false i) with
    | none => s
    | some lba =>
      if dZoned s q x then zoneWritten (dZone s q x) (lba - zoneStart s (dZone s q x)) (dGuard s q x) s
      else convWritten lba (dBuffer s q x i) (dGuard s q x) s
  else if op = 1 then
    if (laneAt s (4 * q + x)).mode = 2 then convVerified q x i s else readSector q x false i s
  else if op = 2 then readSector q x false i s
  else s

/-- Trailing sector index `j` has been committed. -/
def trailingDone (q x j : Nat) (s : State) : State :=
  let op := descOp s q x
  if op = 3 ∨ op = 4 then trailDone q x j s
  else if op = 2 then readSector q x true j s
  else s

/-- Apply `f` to `k` indices from `i` on. -/
def forRange (f : Nat → State → State) (i : Nat) : Nat → State → State
  | 0, s => s
  | k + 1, s => forRange f (i + 1) k (f i s)

/-- The engines act on progress that has just been committed: primary sectors `p0` to `p1 - 1` and
trailing sectors `t0` to `t1 - 1`. -/
def progress (q x p0 p1 t0 t1 : Nat) (s : State) : State :=
  forRange (trailingDone q x) t0 (t1 - t0) (forRange (primaryDone q x) p0 (p1 - p0) s)

/-! ## The end of an operation -/

/-- A class S code of the Sluice: INHIBIT or SHOCK (R120). -/
def inhibitStatus (status : Nat) : Bool := status == 0x80 || status == 0x81

/-- A write run of zone `z` has ended; the sixteenth issue in a row that ends in inhibit without
a sector fails its write (R120). -/
def zoneRunEnds (z status done : Nat) (s : State) : State :=
  let w := workAt s z
  let n := if inhibitStatus status && done == 0 && !w.rolled then w.inhibits + 1 else 0
  let s := modWork z (fun w => { w with rolled := false, inhibits := if n < 16 then n else 0 }) s
  let s := if n < 16 then s else failWrite z (zRptr s z) (evt Reg.ZTB_WPEVT 10 s)
  if (workAt s z).repair then repairZone z s else s

/-- A write run in NSID 1, whose first sector is `lba` in buffer `b`, has ended (R120). -/
def convRunEnds (lba b status done : Nat) (s : State) : State :=
  let n := if inhibitStatus status && done == 0
    then (((s.ztb.convInhibits.find? fun e => e.1 == lba).map Prod.snd).getD 0) + 1 else 0
  let rest := s.ztb.convInhibits.filter fun e => e.1 != lba
  let s := modZtb s fun t => { t with convInhibits := if 0 < n ∧ n < 16 then (lba, n) :: rest else rest }
  if n < 16 then s else convGivesUp b (evt Reg.ZTB_WPEVT 10 s)

/-- Clocks of the 1 s window in which patrol's duty is counted: the windows follow one another from power-on
(log entry 72). -/
abbrev dutyWindow : Nat := 1000000000

/-- The clocks of the present window for which patrol has held a head slot (R494). -/
def patrolUsed (s : State) : Nat :=
  (if s.ztb.ptUsed.1 = s.clock / dutyWindow then s.ztb.ptUsed.2 else 0) +
    match s.ztb.ptFrom with
    | some c => s.clock - max c (s.clock / dutyWindow * dutyWindow)
    | none => 0

/-- A SCAN gives its head slot up; one that was preempted leaves its track to be read from sector `k` on
(R494). -/
def scanEnds (k status : Nat) (s : State) : State :=
  setBit (modZtb s fun t =>
    { t with
      ptFrom := none, ptUsed := (s.clock / dutyWindow, patrolUsed s)
      ptDone := if status = 1 then k else t.ptDone }) Reg.ZTB_PTSTS 0 false

/-- What the builder and the zone engine do when an operation has written its completion record. A
TAIL_VERIFY that HALT ends in a preemption has a status of 1, and R108 does not say whether it counts:
DESIGN CHOICE (log entry 21), it does, as every status below 0x80. -/
def operationEnds (q x status done : Nat) (s : State) : State :=
  let op := descOp s q x
  if op = 3 then
    if dZoned s q x then zoneRunEnds (dZone s q x) status done s
    else
      match opLba s q x (dTrack s q x) (dFirst s q x) with
      | some lba => convRunEnds lba (dBuffer s q x 0) status done s
      | none => s
  else if op = 4 then
    let s := modWork (dZone s q x) (fun w => { w with rolled := false }) s
    if status < 0x80 then evt Reg.ZTB_WPEVT 3 (wrapInc s Reg.ZTB_TVCNT) else s
  else if op = 6 then scanEnds (dFirst s q x + done) status s
  else s

end Sys2Proof.Machine
end

