-- ==== Sys2Proof/Machine/Peek.lean ====
section
/-! DEFINITION. What a register word shows without its read having any action: the stored word, or
for registers that show other state, that state. -/

namespace Sys2Proof.Machine

/-- TSQ_STS of sequencer `q`. -/
def tsqSts (s : State) (q : Nat) : Nat :=
  let t := tsqAt s q
  let runs := ((List.range 5).map fun x => if (ctxAt s q x).busy then 2 ^ (8 + x) else 0).foldl (· + ·) 0
  let idle := t.ctxs.all fun c => !c.busy && c.queue.isEmpty
  (if idle then 1 else 0) + (if t.loaded then 2 else 0) + 4 * getF s (Reg.TSQ_CTL q) 1 1 + runs

/-- The state code of TSQ_XSTS. -/
def CtxPhase.code : CtxPhase → Nat
  | .idle => 0
  | .run => 2
  | .pexit => 3

/-- The descriptor at the head of the context's queue waits for SEEKs that have not ended (R136). -/
def seekWaits (s : State) (q x : Nat) : Bool :=
  match (ctxAt s q x).queue with
  | d :: _ => (d.waitFor.map fun n => decide ((tsqAt s q).seeksOut < n)).getD false
  | [] => false

/-- The words of the context registers of sequencer `q` at offset `o` of its page. -/
def tsqPage (s : State) (q o : Nat) : Option Nat :=
  if o = 4 then some (tsqSts s q)
  else if 0x100 ≤ o ∧ o < 0x150 then
    let c := ctxAt s q ((o - 0x100) / 16)
    match o % 16 with
    | 0 => some (c.pc % 2 ^ 13
        + 2 ^ 16 * (if !c.busy && seekWaits s q ((o - 0x100) / 16) then 1 else c.phase.code)
        + 2 ^ 20 * min 31 c.queue.length)
    | 4 => some (if c.busy then c.desc else 0)
    | 8 => some (c.journal.length + 2 ^ 8 * c.clocks)
    | _ => none
  else if 0x400 ≤ o ∧ o < 0x540 then
    let c := ctxAt s q ((o - 0x400) / 0x40)
    some (if mode s = Mode.test then (c.g.getD ((o - 0x400) % 0x40 / 4) 0#32).toNat else 0)
  else none

/-- Where the sector in progress of a run stands: 0 not begun or not searched, 1 its preamble, 2 its data,
3 past its pad. -/
def sectorStage (s : State) (l : Nat) (r : LaneRun) : Nat :=
  match runFrame s r with
  | none => 0
  | some fr =>
    let (pre, pad) := sectorSpan s r
    if s.ang.incs < pre ∨ sectorSearched (laneAt s l) r pre = false then 0
    else if s.ang.incs < r.passes fr.start (fr.start + btPre r.entry) then 1
    else if s.ang.incs ≤ pad then 2
    else 3

/-- LANE_STS of lane `l`. The gain settles on the preamble and holds through the sector (R70), while
LANE_AFE.AGC is set. -/
def laneSts (s : State) (l : Nat) : Nat :=
  let k := ((laneAt s l).run.map (sectorStage s l)).getD 0
  k + (if 2 ≤ k ∧ bit s (Reg.LANE_AFE l) 8 = true then 16 else 0)

/-- The inactive coefficient bank of actuator `a` (R181). -/
def inactiveBank (s : State) (a : Nat) : List (Nat × Word) :=
  if bit s (Reg.SRV_STS a) 1 then (srvAt s a).bankA else (srvAt s a).bankB

/-- What an unlisted coefficient or capture word holds. -/
def zeroDflt (_ : Nat) : Word := 0#32

/-- The capture record that index `i` of actuator `a` names: record 0 is the oldest (R190). -/
def captureWord (s : State) (a i n : Nat) : Nat :=
  let v := srvAt s a
  let start := if 65536 ≤ v.capture.written then v.capture.written % 65536 else 0
  (sget zeroDflt v.capRam (4 * ((start + i) % 65536) + n)).toNat

/-- The band-table entry that ZTB_BTSEL selects, if there is one (R32). -/
def btSelected (s : State) : Option Nat :=
  let e := getF s Reg.ZTB_BTSEL 0 6
  let f := getF s Reg.ZTB_BTSEL 8 5
  if e < 48 ∧ f < 24 then some (48 * f + e) else none

/-- The key slot that CPH_KSEL names, if it is loaded. -/
def selectedKey (s : State) : Option KeySlot :=
  s.cph.keys.find? fun k => k.slot == getF s Reg.CPH_KSEL 0 12

/-- CPH_KINFO of the selected slot (R381, R392). -/
def keyInfo (s : State) : Nat :=
  match selectedKey s with
  | none => 0
  | some k => k.kcv + 2 ^ 24 + 2 ^ 25 * k.use + 2 ^ 27 * (if k.key.one.length = 32 then 1 else 0)
      + 2 ^ 28 * (if 2 ^ 48 ≤ k.counter then 1 else 0) + 2 ^ 29 * (if 2 ^ 47 ≤ k.counter then 1 else 0)

/-- CPH_KCNT of the selected slot. -/
def keyCount (s : State) : Nat := ((selectedKey s).map fun k => k.counter % 2 ^ 48).getD 0

/-- The word `v` at offset `o` of test channel `n`: while the test runs, what its checker has counted
and whether it is locked are free values. -/
def tstShown (s : State) (n o v : Nat) : Nat :=
  if !bit s (Reg.TST_STS n) 0 then v
  else if o = 0x10 ∨ o = 0x18 ∨ o = 0x1C then (Config.freeValue s.draws).toNat % 2 ^ 32
  else if o = 0x08 then putBits v 1 1 ((Config.freeValue s.draws).toNat % 2)
  else v

/-- The word at offset `a` is write-only: a read returns zero (R8). -/
def writeOnly (a : Nat) : Bool := (regRow a).any fun r => r.acc == .wo || r.acc == .wok

/-- The register word at offset `a`, read without any action. -/
def peek (s : State) (a : Nat) : Nat :=
  if 0xA0000 ≤ a ∧ a < 0xC0000 then
    (tsqPage s ((a - 0xA0000) / 0x10000) (a % 0x10000)).getD (rdN s a)
  else if 0x100100 ≤ a ∧ a < 0x100120 then sluFailing s ((a - 0x100100) / 4)
  else if a = Reg.SLU_STS then putBits (rdN s a) 2 1 (if s.slu.v12Bad || s.slu.v5Bad then 0 else 1)
  else if a = Reg.EVR_STGCNT then s.evr.stgCount
  else if 0x20060 ≤ a ∧ a < 0x20078 then coreLoad s ((a - 0x20060) / 4)
  else if a = Reg.CCH_LOADALL then meanLoad s
  else if a ∈ [Reg.CCH_L1PCNT, Reg.ETH_FECCOR 0, Reg.ETH_FECCOR 1, Reg.ETH_FECUNC 0, Reg.ETH_FECUNC 1] then
    (Config.measured s.clock a).toNat
  else if a = Reg.CPH_KINFO then keyInfo s
  else if a = Reg.CPH_KCNT then keyCount s % 2 ^ 32
  else if a = Reg.CPH_KCNT + 4 then keyCount s / 2 ^ 32
  else if 0x80050 ≤ a ∧ a < 0x80070 then 0
  else if 0x150100 ≤ a ∧ a < 0x150300 then tstShown s ((a - 0x150100) / 0x40) (a % 0x40) (rdN s a)
  else if 0xC0000 ≤ a ∧ a < 0xD0000 ∧ a % 0x1000 = 4 then laneSts s ((a - 0xC0000) / 0x1000)
  else if 0x180060 ≤ a ∧ a < 0x180080 then
    match btSelected s with
    | some k => bitsOf (sget btDflt s.ztb.staged k) (8 * (a - 0x180060)) 32
    | none => 0
  else if 0xD8000 ≤ a ∧ a < 0xE0000 then
    (sget zeroDflt (inactiveBank s (getF s Reg.SRV_CWSEL 0 1)) ((a - 0xD8000) / 4)).toNat
  else if 0xD01F0 ≤ a ∧ a < 0xD0200 then captureWord s 0 (getF s (Reg.SRV_CAPIDX 0) 0 16) ((a - 0xD01F0) / 4)
  else if 0xD02F0 ≤ a ∧ a < 0xD0300 then captureWord s 1 (getF s (Reg.SRV_CAPIDX 1) 0 16) ((a - 0xD02F0) / 4)
  else if writeOnly a then 0
  else rdN s a

/-- The word that a read of offset `a` shows where the read itself would act (R473): zero. -/
def popping (a : Nat) : Bool :=
  a ∈ [Reg.NQE_EXQ, Reg.CIS_ALLOC, Reg.CIS_ALLOCR, Reg.CIS_ERRLOG, Reg.CIS_ERRLOG + 4, Reg.TSQ_FWCQ 0,
    Reg.TSQ_FWCQ 1, Reg.NOI_FWQ, Reg.CPH_FWCQ, Reg.CPH_RNG, Reg.CPH_RNG + 4, Reg.ETH_FWRXQ 0,
    Reg.ETH_FWRXQ 1, Reg.ETH_TXTSID, Reg.ZTB_PTLOG, Reg.ZTB_PTLOG + 4]

end Sys2Proof.Machine
end

