-- ==== Sys2Proof/Machine/Recorder.lean ====
section
/-! DEFINITION. The event recorder (chapter 18): capture of snapshot records, the staging ring, the
log in NAND with its clear, the provenance mirror, and the gauges. -/

namespace Sys2Proof.Machine

/-- Change the recorder's state. -/
def modEvr (s : State) (f : EvrState → EvrState) : State := { s with evr := f s.evr }

/-! ## Records (R472, R473, R478) -/

/-- Places of the staging ring. -/
abbrev ringSize : Nat := 104448

/-- SRAM offset of place `i` of the staging ring. -/
def ringAddr (i : Nat) : Nat := 0x18600000 + 160 * i

/-- Log positions. -/
abbrev logSize : Nat := 1677721

/-- NAND offset of log position `p`. -/
def logAddr (p : Nat) : Nat := 0x09000000 + 160 * p

/-- VALID of a record. -/
def recordValid : Nat := 0x9E370C5AD4B128F6

/-- The entries of a channel's register list, up to the first without VALID. -/
def channelRegs (s : State) (ch : Nat) : List Nat :=
  ((List.range 16).map fun m => rdN s (Reg.EVR_CHREG ch m)).takeWhile (·.testBit 31)

/-- What a capture records of one list entry. -/
def captureValue (s : State) (e : Nat) : Nat :=
  let a := 4 * bitsOf e 2 19
  let one (x : Nat) : Nat := if popping x then 0 else peek s x
  if e.testBit 24 then one a + 2 ^ 32 * one (a + 4) else one a

/-- The bytes of a record, without VALID: trigger `t`, sequence number `seq` and captured values. -/
def recordBytes (t : Trigger) (seq : Nat) (vals : List Nat) : List Nat :=
  let head := leBytes 8 t.time ++ leBytes 4 seq ++ leBytes 4 t.angle
    ++ [t.chan, t.mode, vals.length, t.trig]
  let body := (vals ++ List.replicate (16 - vals.length) 0).flatMap (leBytes 8)
  head ++ leBytes 4 (crc32 (head ++ body)) ++ body

/-- The CRC field of record bytes is correct. -/
def recordCrcOk (b : List Nat) : Bool :=
  leNat ((b.drop 20).take 4) == crc32 (b.take 20 ++ (b.drop 24).take 128)

/-- Put a record's bytes at a ring place, with its VALID. -/
def ringPut (i : Nat) (b : List Nat) (s : State) : State :=
  sramPutBytes s (ringAddr i) (b ++ leBytes 8 recordValid)

/-- Stage the record of a trigger. -/
def stage (t : Trigger) (vals : List Nat) (s : State) : State :=
  let i := s.evr.stgHead
  let seq := rdN s Reg.EVR_NEXTSEQ
  let s := wrN (ringPut i (recordBytes t seq vals) s) Reg.EVR_NEXTSEQ (seq + 1)
  let s := satInc s (Reg.EVR_CHCNT t.chan) 32
  modEvr s fun e =>
    { e with
      stgHead := (i + 1) % ringSize
      stgCount := e.stgCount + 1
      stgOldest := if e.stgCount = 0 then t.clock else e.stgOldest
      urgent := e.urgent || decide (3 ≤ t.chan ∧ t.chan ≤ 6)
      lastRec := (t.chan, t.clock) :: e.lastRec.filter fun x => x.1 != t.chan }

/-- Capture the trigger that waits first (R473, R474, R478, R480). -/
def capture (s : State) : State :=
  match s.evr.waiting with
  | [] => s
  | t :: rest =>
    let s := modEvr s fun e => { e with waiting := rest }
    if bit s Reg.EVR_STS 1 then satInc s Reg.EVR_FULLDROP 32
    else if ringSize ≤ s.evr.stgCount then evt Reg.EVR_EVT 1 (satInc s Reg.EVR_STGDROP 32)
    else stage t ((channelRegs s t.chan).map (captureValue s)) s

def execSnapshotCapture (s : State) : Host.Outcome State Fault Refusal := .next (capture s)

/-! ## Programmable channels (R475, R476) -/

/-- A trigger of a programmable channel of kind `k`. -/
def programmed (ch k : Nat) (s : State) : State :=
  if 16 ≤ ch ∧ getF s (Reg.EVR_CHCFG ch) 0 2 = k ∧ bit s Reg.EVR_CTL 0 = true then trigger ch k s else s

/-- SWTRIG: a write of a channel number to EVR_SWTRIG. -/
def execSwtrig (channel : Fin 64) (s : State) : Host.Outcome State Fault Refusal :=
  .next (busOk (programmed channel 2 s))

/-- The period of channel `ch` counts from clock `c`, or not at all. -/
def setPeriod (ch : Nat) (c : Option Nat) (s : State) : State :=
  modEvr s fun e => { e with periods := (c.map fun x => (ch, x)).toList ++ e.periods.filter fun p => p.1 != ch }

/-- The end of the present period of channel `ch` of KIND 3. A PERIOD of 0, which no write sets, never ends. -/
def periodEnd (s : State) (ch : Nat) : Option Nat :=
  let n := getF s (Reg.EVR_CHHOLD ch) 16 16
  if n = 0 then none else (s.evr.periods.find? fun p => p.1 == ch).map fun p => p.2 + 1000000 * n

/-- PERIODIC_TRIGGER: the channel's period passes, and the next begins (R476). -/
def periodic (ch : Nat) (s : State) : State :=
  match periodEnd s ch with
  | some c => if s.clock < c then s else programmed ch 3 (setPeriod ch (some c) s)
  | none => s

def execPeriodicTrigger (channel : Fin 64) (s : State) : Host.Outcome State Fault Refusal :=
  .next (periodic channel s)

/-- A write to EVR_CHCFGn that enables a periodic channel starts its period. -/
def notePeriod (ch old v : Nat) (s : State) : State :=
  if bitsOf v 0 2 ≠ 3 then setPeriod ch none s else if old = 3 then s else setPeriod ch (some s.clock) s

/-- A write to word `w` of channel `ch`'s page: its configuration, its holdoff and period, or its
register list while KIND is 0. -/
def channelWrite (ch w v : Nat) (s : State) : State :=
  let a := Reg.EVR_CHCFG ch + 4 * w
  if ch < 16 then s
  else if w = 0 ∨ w = 3 then
    let s' := plainWrite a v s
    if w = 3 ∧ bitsOf v 16 16 = 0 then s
    else trigger 15 0 (if w = 0 then notePeriod ch (getF s (Reg.EVR_CHCFG ch) 0 2) v s' else s')
  else if 16 ≤ w ∧ getF s (Reg.EVR_CHCFG ch) 0 2 = 0 then plainWrite a v s
  else s

def execChannelConfigWrite (channel : Fin 64) (word : Fin 32) (value : Word) (s : State) :
    Host.Outcome State Fault Refusal :=
  .next (busOk (channelWrite channel word value.toNat s))

/-! ## The log (R479 to R482) -/

/-- The ring place of the `k`-th oldest staged record. -/
def stagedPlace (s : State) (k : Nat) : Nat :=
  (s.evr.stgHead + ringSize - s.evr.stgCount + k) % ringSize

/-- `n` bytes that a failed program leaves: free values. -/
def freeBytes (n : Nat) (s : State) : List Nat :=
  (List.range n).map fun i => (Config.freeValue (s.draws + i)).toNat % 256

/-- Program the first 152 bytes of ring place `i` at log position `p`; a program that fails leaves
a position without VALID. -/
def programData (i p : Nat) (ok : Bool) (s : State) : State :=
  if ok then nandProg s (logAddr p) (sramBytes s (ringAddr i) 152)
  else
    let b := freeBytes 152 s
    evt Reg.EVR_EVT 7 (nandProg { s with draws := s.draws + 152 } (logAddr p) b)

/-- Program the data of staged records `k` on at the next free positions, each again after a failure. -/
def commitData (failed : List Nat) (base : Nat) : Nat → Nat → Nat → Nat → List (Nat × Nat) → State →
    List (Nat × Nat) × Nat × State
  | 0, _, _, p, done, s => (done, p, s)
  | fuel + 1, k, n, p, done, s =>
    if n ≤ k ∨ logSize ≤ p then (done, p, s)
    else
      let i := stagedPlace s k
      if p - base ∈ failed then commitData failed base fuel k n (p + 1) done (programData i p false s)
      else commitData failed base fuel (k + 1) n (p + 1) (done ++ [(p, i)]) (programData i p true s)

/-- The oldest staged record has waited AGE ms. -/
def commitAged (s : State) : Bool := decide (s.evr.stgOldest + 1000000 * getF s Reg.EVR_COMMIT 0 16 ≤ s.clock)

/-- A commit is due: BATCH records wait, the oldest has waited AGE, or a record of channels 3 to 6
has been staged. -/
def commitDue (s : State) : Bool :=
  s.evr.stgCount != 0
    && (s.evr.urgent || commitAged s || decide (getF s Reg.EVR_COMMIT 16 8 ≤ s.evr.stgCount))

/-- Start a commit of the staged records, at most 255. -/
def startCommit (failed : List Nat) (s : State) : State :=
  let p := getF s Reg.EVR_LOGPOS 0 21
  let (placed, next, s) := commitData failed p 1024 0 (min 255 s.evr.stgCount) p [] s
  modEvr (setBit s Reg.EVR_STS 4 true) fun e => { e with commit := some ⟨placed, next⟩, urgent := false }

/-- The recorder may commit: the log has been scanned, nothing runs, it is not full, and no power loss has
been declared (R435). -/
def mayCommit (s : State) : Bool :=
  !s.sys.powerLost && s.evr.scanned && s.evr.commit.isNone && s.evr.clear.isNone && !bit s Reg.EVR_STS 1

def execLogCommit (failed : List Nat) (s : State) : Host.Outcome State Fault Refusal :=
  .next (if mayCommit s && commitDue s then startCommit failed s else s)

/-- Program the VALID fields of the placed records; a record whose VALID fails is programmed again
at the next position. -/
def commitValid (failed : List Nat) : Nat → Nat → List (Nat × Nat) → Nat → State → Nat × State
  | 0, _, _, p, s => (p, s)
  | _ + 1, _, [], p, s => (p, s)
  | fuel + 1, k, (q, i) :: l, p, s =>
    if k ∈ failed then
      let s := evt Reg.EVR_EVT 7 s
      if logSize ≤ p then commitValid failed fuel (k + 1) l p s
      else commitValid failed fuel (k + 1) (l ++ [(p, i)]) (p + 1) (programData i p true s)
    else commitValid failed fuel (k + 1) l p (nandProg s (logAddr q + 152) (leBytes 8 recordValid))

/-- The last position has been programmed: nothing more is committed, and what is staged is
discarded (R480). -/
def logFull (s : State) : State :=
  if getF s Reg.EVR_LOGPOS 0 21 < logSize then s else
  let s := satAdd s Reg.EVR_FULLDROP s.evr.stgCount
  evt Reg.EVR_EVT 0 (modEvr (setBit s Reg.EVR_STS 1 true) fun e => { e with stgCount := 0, urgent := false })

/-- A commit ends. The records still staged count their age from then: DESIGN CHOICE (log entry 71), as the
wait of the oldest is not kept for each. -/
def endCommit (failed : List Nat) (s : State) : State :=
  match s.evr.commit with
  | none => s
  | some c =>
    let (p, s) := commitValid failed 1024 0 c.placed c.next s
    let s := wrN (setBit s Reg.EVR_STS 4 false) Reg.EVR_LOGPOS p
    logFull (modEvr s fun e => { e with
      commit := none
      stgCount := e.stgCount - c.placed.length
      stgOldest := s.clock })

def execLogCommitDone (failed : List Nat) (s : State) : Host.Outcome State Fault Refusal :=
  .next (endCommit failed s)

/-- Commit every staged record at once (R432, R484). -/
def commitAll : Nat → State → State
  | 0, s => s
  | k + 1, s =>
    if s.evr.stgCount = 0 ∨ bit s Reg.EVR_STS 1 = true then s
    else commitAll k (endCommit [] (startCommit [] (endCommit [] s)))

/-- Capture every trigger that waits, at most 64, and commit the staged records. -/
def flushRecords (s : State) : State := commitAll 410 ((List.range 64).foldl (fun s _ => capture s) s)

/-- The bytes of a log position. -/
def logRecord (s : State) (p : Nat) : List Nat := nandBytes s (logAddr p) 160

/-- Log position `p` is fully erased. -/
def logErased (s : State) (p : Nat) : Bool := (logRecord s p).all (· == 255)

/-- A log position holds a record: VALID and CRC are correct (R472). -/
def logHolds (s : State) (p : Nat) : Bool :=
  let b := logRecord s p
  leNat (b.drop 152) == recordValid && recordCrcOk b

/-- The first erased position, by bisection between `lo` and `hi`. -/
def bisect (s : State) : Nat → Nat → Nat → Nat
  | 0, lo, _ => lo
  | fuel + 1, lo, hi =>
    if hi ≤ lo then lo else
      let m := (lo + hi) / 2
      if logErased s m then bisect s fuel lo m else bisect s fuel (m + 1) hi

/-- Torn positions below `p`. -/
def tornBelow (s : State) : Nat → Nat
  | 0 => 0
  | p + 1 => tornBelow s p + (if logHolds s p || logErased s p then 0 else 1)

/-- One above the SEQ of the last record below `p`, 0 without one. -/
def nextSeqAt (s : State) : Nat → Nat
  | 0 => 0
  | p + 1 => if logHolds s p then leNat (((logRecord s p).drop 8).take 4) + 1 else nextSeqAt s p

/-- Give the staged records from the oldest on sequence numbers from `seq`. -/
def renumber : Nat → Nat → Nat → State → State
  | 0, _, _, s => s
  | n + 1, k, seq, s =>
    let i := stagedPlace s k
    let b := sramBytes s (ringAddr i) 152
    let head := b.take 8 ++ leBytes 4 seq ++ (b.drop 12).take 8
    let body := b.drop 24
    renumber n (k + 1) (seq + 1) (ringPut i (head ++ leBytes 4 (crc32 (head ++ body)) ++ body) s)

/-- NAND offset of copy `k` of the clear record (R484). -/
def clearAddr (s : State) (k : Nat) : Nat := 2 ^ 7 * getF s Reg.EVR_CLRBASE 7 22 + 64 * k

/-- The CLEARS count of copy `k` of the clear record, 0 where it is not valid. R484 gives its content and not
its layout: DESIGN CHOICE (log entry 71), CLEARS as U32, its CRC-32, and VALID. -/
def clearRecord (s : State) (k : Nat) : Nat :=
  let b := nandBytes s (clearAddr s k) 16
  if leNat (b.drop 8) = recordValid ∧ leNat ((b.drop 4).take 4) = crc32 (b.take 4) then leNat (b.take 4) else 0

/-- The count of the valid clear record with the higher count. -/
def clearCount (s : State) : Nat := max (clearRecord s 0) (clearRecord s 1)

/-- Position 0 holds the channel 15 record of clear `n`. -/
def clearMarked (s : State) (n : Nat) : Bool :=
  let b := logRecord s 0
  logHolds s 0 && b.getD 16 0 == 15 && leNat ((b.drop 12).take 4) / 2 ^ 25 == n % 128

/-- LOG_SCAN: the recorder finds the end of the log after BOOT (R481, R484). -/
def logScan (s : State) : State :=
  if s.evr.scanned then s else
  let n := clearCount s
  let p := bisect s 22 0 logSize
  let torn := tornBelow s p
  let s := wrN (wrN s Reg.EVR_CLRCNT n) Reg.EVR_LOGPOS p
  let s := evtIf (torn != 0) Reg.EVR_EVT 6 (satAdd s Reg.EVR_TORN torn)
  let seq := nextSeqAt s p
  let s := renumber s.evr.stgCount 0 seq s
  let s := wrN s Reg.EVR_NEXTSEQ (seq + s.evr.stgCount)
  let s := modEvr (setBit s Reg.EVR_STS 0 false) fun e => { e with scanned := true }
  if n ≠ 0 ∧ clearMarked s n = false then
    modEvr (setBit s Reg.EVR_STS 2 true) fun e => { e with clear := some ⟨n, p⟩ }
  else logFull s

def execLogScan (s : State) : Host.Outcome State Fault Refusal := .next (logScan s)

/-! ## Clearing the log (R483, R484) -/

/-- The result of checking a clear token, a code of EVR_CLRSTS. -/
def clearCheck (s : State) (token : List Nat) : Nat :=
  let head := token.take 64
  if s.evr.clear.isSome then 4
  else if (signingKey s head (token.drop 64)).isNone ∨ leNat (head.take 4) ≠ 0x43564C45
      ∨ head.drop 40 ≠ List.replicate 24 0 then 1
  else if leNat ((head.drop 4).take 4) ≠ rdN s Reg.EVR_CLRCNT + 1 then 2
  else if (head.drop 8).take 32 ≠ Crypto.sha256 identityKeyBytes then 3
  else 0

/-- Write the clear record of count `n` to the copy that does not hold the higher count. -/
def writeClearRecord (n : Nat) (s : State) : State :=
  let k := if clearRecord s 1 < clearRecord s 0 then 1 else 0
  let head := leBytes 4 n
  nandWrite s (clearAddr s k) (head ++ leBytes 4 (crc32 head) ++ leBytes 8 recordValid)

/-- LOG_CLEAR: a token written to object 0x7020:00. A token of another length is no token. -/
def logClear (token : List Nat) (s : State) : State :=
  let r := if token.length ≠ 448 then 1 else clearCheck s token
  let s := wrN s Reg.EVR_CLRSTS r
  if r ≠ 0 then s else
  let s := commitAll 410 (endCommit [] s)
  let n := rdN s Reg.EVR_CLRCNT + 1
  let pos := getF s Reg.EVR_LOGPOS 0 21
  let s := wrN (writeClearRecord n s) Reg.EVR_CLRCNT n
  modEvr (setBit s Reg.EVR_STS 2 true) fun e => { e with clear := some ⟨n, pos⟩ }

def execLogClear (token : List Byte) (s : State) : Host.Outcome State Fault Refusal :=
  .next (logClear (token.map BitVec.toNat) s)

/-- CLRDONE: the erase ends; the channel 15 record goes to position 0 (R484 steps 3 to 5). -/
def clearDone (s : State) : State :=
  match s.evr.clear with
  | none => s
  | some c =>
    let s := nandErase s 0x09000000 0x19000000
    let s := wrN s Reg.EVR_LOGPOS c.oldPos
    let ang := getF s Reg.ANG_NOW 0 22 + 2 ^ 22 * getF s Reg.ANG_STS 0 3 + 2 ^ 25 * (c.count % 128)
    let t : Trigger := ⟨15, 2, s.clock, ptp s, ang, mode s⟩
    let seq := rdN s Reg.EVR_NEXTSEQ
    let b := recordBytes t seq ((channelRegs s 15).map (captureValue s))
    let s := wrN (nandProg s (logAddr 0) (b ++ leBytes 8 recordValid)) Reg.EVR_NEXTSEQ (seq + 1)
    let s := satInc (wrN s Reg.EVR_LOGPOS 1) (Reg.EVR_CHCNT 15) 32
    let s := wrN (wrN s Reg.EVR_MIRPOSA 0) Reg.EVR_MIRPOSB 0
    let s := setBit (setBit s Reg.EVR_STS 2 false) Reg.EVR_STS 1 false
    evt Reg.EVR_EVT 2 (modEvr s fun e => { e with clear := none, urgent := e.stgCount != 0 })

def execClrdone (s : State) : Host.Outcome State Fault Refusal := .next (clearDone s)

/-! ## Provenance mirror (R485, R486) -/

/-- Surfaces of actuator `a`. -/
def surfacesOf (s : State) (a : Nat) : Nat := getF s Reg.ZTB_GEOM (8 * a) 5

/-- The entry of NSID 1 that holds the whole provenance range, from index base `i` on, with its own base. -/
def mirrorEntry (ns first rows : Nat) : List Nat → Nat → Option (Nat × Nat)
  | [], _ => none
  | e :: l, i =>
    let n := ns * btNtrk e
    if i ≤ first ∧ first + rows * ns ≤ i + n then some (e, i)
    else mirrorEntry ns first rows l (i + n)

/-- The provenance range: its entry of NSID 1, with the index base of that entry. -/
def mirrorRange (s : State) : Option (Nat × Nat) :=
  mirrorEntry (numSurfaces s) (getF s Reg.EVR_PVFIRST 0 24) (getF s Reg.EVR_PVROWS 0 8) (convEntries s) 0

/-- The mirror range is usable: in one entry, a multiple of NS, and large enough. -/
def mirrorRangeOk (s : State) : Bool :=
  match mirrorRange s with
  | none => false
  | some (e, _) =>
    getF s Reg.EVR_PVFIRST 0 24 % numSurfaces s == 0
      && decide (logSize ≤
        getF s Reg.EVR_PVROWS 0 8 * min (surfacesOf s 0) (surfacesOf s 1) * btSpt e * 25)

/-- The conventional index of track `j` of copy `a` (R485). -/
def mirrorIndex (s : State) (a j : Nat) : Nat :=
  let n := surfacesOf s a
  getF s Reg.EVR_PVFIRST 0 24 + j / n * numSurfaces s + (if a = 0 then j % n else surfacesOf s 0 + j % n)

/-- The LBA of sector `k` of copy `a`. -/
def mirrorLba (s : State) (a k : Nat) : Option Nat :=
  (mirrorRange s).bind fun (e, base) =>
    let i := mirrorIndex s a (k / btSpt e) - base
    convLba s (i % numSurfaces s) (btFirst e + i / numSurfaces s) (k % btSpt e)

/-- The bytes of sector `k` of a copy: 25 records of the log, zeros in slots that hold none, and 96 zeros. -/
def mirrorSector (s : State) (k : Nat) : List Nat :=
  ((List.range 25).flatMap fun i =>
    if 25 * k + i < getF s Reg.EVR_LOGPOS 0 21 then nandBytes s (logAddr (25 * k + i)) 160 else List.replicate 160 0)
    ++ List.replicate 96 0

/-- EVR_MIRPOS of a copy. -/
def mirPos (a : Nat) : Nat := if a = 0 then Reg.EVR_MIRPOSA else Reg.EVR_MIRPOSB

/-- The copy has stopped until the next power-on. -/
def mirStopped (s : State) (a : Nat) : Bool := if a = 0 then s.evr.mirStopA else s.evr.mirStopB

/-- Consecutive failures of the copy. -/
def mirFails (s : State) (a : Nat) : Nat := if a = 0 then s.evr.mirFailA else s.evr.mirFailB

/-- Set a copy's failures and stop. -/
def setMir (a n : Nat) (stop : Bool) (s : State) : State :=
  modEvr s fun e => if a = 0 then { e with mirFailA := n, mirStopA := stop }
    else { e with mirFailB := n, mirStopB := stop }

/-- No host media command has been fetched for `ms` milliseconds (R486, R494). -/
def mediaIdle (s : State) (ms : Nat) : Bool :=
  match s.nqe.mediaClock with
  | some c => decide (c + 1000000 * ms ≤ s.clock)
  | none => true

/-- The mode is READY, or ACTIVE for a SCAN alone, which a mirror write preempts (R494). -/
def mirrorMode (s : State) : Bool :=
  mode s == Mode.ready || (mode s == Mode.active && !(s.nqe.cmds.any HostCmd.media)
    && (List.range 10).all fun i =>
      let c := ctxAt s (i / 5) (i % 5)
      c.queue.isEmpty && (!c.busy || descOp s (i / 5) (i % 5) == 6))

/-- The recorder may mirror to copy `a` (R486). -/
def mayMirror (s : State) (a : Nat) : Bool :=
  mirrorMode s && bit s Reg.EVR_CTL 1 && !disabled s a && !held s a && !mirStopped s a
    && mediaIdle s (getF s Reg.EVR_MIRCFG 0 16) && getF s Reg.EVR_PVROWS 0 8 != 0
    && decide (rdN s (mirPos a) < getF s Reg.EVR_LOGPOS 0 21)

/-- The mirror has work (R494). -/
def mirrorWork (s : State) : Bool := mirrorRangeOk s && (mayMirror s 0 || mayMirror s 1)

/-- A class P request reaches context `x` of sequencer `q`; an idle context discards it (R155). -/
def requestP (q x : Nat) (s : State) : State :=
  modCtx s q x fun c => if c.busy && !c.ptaken then { c with ppend := true } else c

/-- Every SCAN that runs takes a class P request. -/
def preemptScans (s : State) : State :=
  (List.range 10).foldl (fun s i => if descOp s (i / 5) (i % 5) == 6 then requestP (i / 5) (i % 5) s else s) s

/-- The mirror writes the sector of copy `a` that gains records, and the write ends, committed or not. -/
def mirrorWrite (a : Nat) (ok : Bool) (s : State) : State :=
  if !mayMirror s a then s
  else if !mirrorRangeOk s then evt Reg.EVR_EVT 4 s
  else
  let k := rdN s (mirPos a) / 25
  let put := (mirrorLba s a k).map fun l => (l, mirrorSector s k)
  let s := modEvr (preemptScans s) fun e => { e with mirrored := put }
  if ok then
    setMir a 0 false (wrN s (mirPos a) (min (getF s Reg.EVR_LOGPOS 0 21) ((k + 1) * 25)))
  else
    let n := mirFails s a + 1
    let s := satInc s Reg.EVR_MIRFAIL 32
    if n < 3 then setMir a n false s else evt Reg.EVR_EVT 4 (setMir a n true s)

def execMirrorWrite (copy : Fin 2) (committed : Bool) (s : State) : Host.Outcome State Fault Refusal :=
  .next (mirrorWrite copy committed s)

/-! ## Gauges (R488 to R490) -/

/-- The samples that gauges 4, 6 and 7 take every millisecond. -/
def gaugeSamples (s : State) : State :=
  let s := gauge 4 ((meanLoad s : Nat) : Int) s
  let s := (List.range 8).foldl (fun s n =>
    if bit s (Reg.LANE_APWR n) 16 then gauge 6 ((getF s (Reg.LANE_APWR n) 0 16 : Nat) : Int) s else s) s
  gauge 7 ((94208 : Int) - (getF s Reg.CIS_FREECNT 0 17 : Nat)) s

/-- The published bytes of gauge `n`. -/
def gaugeBytes (s : State) (n : Nat) : List Nat :=
  let g := s.evr.gauges.getD n Gauge.reset
  let bin (b : Nat) : Nat := ((g.bins.find? fun e => e.1 == b).map Prod.snd).getD 0
  (List.range 64).flatMap (fun b => leBytes 8 (bin b)) ++ leBytes 8 g.count
    ++ leBytes 8 (encodeSigned 64 g.sum) ++ leBytes 4 (encodeSigned 32 (g.min.getD 0x7FFFFFFF))
    ++ leBytes 4 (encodeSigned 32 (g.max.getD (-0x80000000)))
    ++ leBytes 4 (rdN s (Reg.EVR_GLO n)) ++ leBytes 4 (rdN s (Reg.EVR_GW n)) ++ leBytes 8 g.cleared

/-- Clear the gauges that wait for it, and publish all eight, once in each millisecond. -/
def gaugePublish (s : State) : State :=
  if s.clock / 1000000 ≤ s.evr.published then s else
  let s := modEvr s fun e => { e with published := s.clock / 1000000 }
  let s := wrapInc (gaugeSamples s) Reg.EVR_GGEN
  let now := ptp s
  let s := modEvr s fun e =>
    { e with gauges := e.gauges.map fun g => if g.clearPending then { Gauge.reset with cleared := now } else g }
  let s := (List.range 8).foldl (fun s n => sramPutBytes s (0x195F0000 + 0x400 * n) (gaugeBytes s n)) s
  wrapInc s Reg.EVR_GGEN

def execGaugePublish (s : State) : Host.Outcome State Fault Refusal := .next (gaugePublish s)

/-- Clear the gauges of a mask at the next publish. -/
def gaugeClear (mask : Nat) (s : State) : State :=
  let s := modEvr s fun e =>
    { e with gauges := e.gauges.mapIdx fun i g => if mask.testBit i then { g with clearPending := true } else g }
  trigger 15 1 s

/-- GCLR: a write of a mask to EVR_GCLR. -/
def execGclr (mask : Byte) (s : State) : Host.Outcome State Fault Refusal :=
  .next (busOk (gaugeClear mask.toNat s))

end Sys2Proof.Machine
end

