-- ==== Sys2Proof/Machine/Modes.lean ====
section
/-! DEFINITION. Modes, requests for modes, SAFE-HOLD, actuator holds and failed lanes (chapter 15). -/

namespace Sys2Proof.Machine

/-- Change the system control state. -/
def modSys (s : State) (f : SysState → SysState) : State := { s with sys := f s.sys }

/-! ## Controllers (R248, R249) -/

/-- The operation of context `x` of sequencer `q` reads or writes a sector of the command. -/
def servesCmd (s : State) (q x : Nat) (c : HostCmd) : Bool :=
  (ctxAt s q x).busy && (dZoned s q x == (c.nsid == 2)) && (List.range (dCount s q x + dTcount s q x)).any fun i =>
    let t := decide (dCount s q x ≤ i)
    let tr := if t then dTrailTrack s q x else dTrack s q x
    match opLba s q x tr (dSector s q x t (if t then i - dCount s q x else i)) with
    | some lba => decide (c.slba ≤ lba ∧ lba < c.slba + c.nlb)
    | none => false

/-- Class P requests to every context that serves the command. -/
def preemptCmd (c : HostCmd) (s : State) : State :=
  (List.range 10).foldl (fun s i =>
    if servesCmd s (i / 5) (i % 5) c then requestP (i / 5) (i % 5) s else s) s

/-- The NSID 1 sectors of the command that are not yet written are given up, with their buffers. -/
def dropConv (c : HostCmd) (s : State) : State :=
  let mine (k : ConvSector) : Bool := !k.written && c.bufs.contains k.buf
  let lost := (s.ztb.conv.filter mine).map ConvSector.buf
  freeAll Owner.retain lost (modZtb s fun t => { t with conv := t.conv.filter fun k => !mine k })

/-- A command that ends before its sectors are done gives up its buffers and its unwritten sectors,
and the zone that it writes is repaired (R241). -/
def abandon (c : HostCmd) (s : State) : State :=
  if c.writes && c.phase == .media then
    if c.nsid = 2 then requestRepair (zoneOfLba s c.slba) s else dropConv c s
  else freeAll Owner.nqe c.bufs (freeAll Owner.media c.bufs s)

/-- A command of a reset association stops and is discarded. -/
def discardCmd (c : HostCmd) (s : State) : State := abandon c (discard c.slot (preemptCmd c s))

/-- The controller reset of association `a` (R248). -/
def controllerReset (a : Nat) (s : State) : State :=
  match assocAt s a with
  | none => s
  | some x =>
    let s := wrN s Reg.NQE_QPUSE (rdN s Reg.NQE_QPUSE - x.queues.length)
    let s := modAssoc a (fun y =>
      { y with
        queues := [], conns := y.conns.filter (·.queue == 0), rdy := false, en := false
        cc := y.cc - y.cc % 2 }) s
    evt Reg.NQE_EVT 9 ((s.nqe.cmds.filter fun c => c.assoc == a).foldl (fun s c => discardCmd c s) s)

/-- Association `a` ends: a controller reset, and its connections close. -/
def closeAssoc (a : Nat) (s : State) : State :=
  if (assocAt s a).isNone then s else
  let s := modNqe (controllerReset a s) fun n => { n with assocs := n.assocs.filter fun x => x.id != a }
  wrN s Reg.NQE_ASUSE (rdN s Reg.NQE_ASUSE - 1)

/-- Every association ends. -/
def closeAll (s : State) : State := s.nqe.assocs.foldl (fun s x => closeAssoc x.id s) s

/-! ## Loading and unloading heads (R424) -/

/-- Actuator `a` takes part: enabled and not held. -/
def usable (s : State) (a : Nat) : Bool := !disabled s a && !held s a

/-- A request that loads heads is accepted (R424). -/
def loadReady (s : State) : Bool :=
  (List.range 2).all fun a => !usable s a ||
    (bit s (Reg.SRV_BANK a) 8 && rdN s (Reg.SRV_TPBASE a) != 0 && bit s Reg.ZTB_STS 1)

/-- Drive actuator `a` off its ramp. -/
def driveOff (a : Nat) (s : State) : State :=
  let s : State := { s with sys := { s.sys with loadClock := s.clock } }
  if usable s a then tstSweep (setLoaded s a true) else s

/-- The 450 ms of a load are over (R424, R439). -/
def loadLate (s : State) : Bool := decide (s.sys.loadClock + 450000000 ≤ s.clock)

/-- The heads of actuator `a` are on the ramp again. -/
def park (a : Nat) (s : State) : State :=
  let s := modSrv (setLoaded s a false) a fun v => { v with profile := none, handover := none, pendingOut := [] }
  clearReady a (setF s (Reg.SRV_STS a) 2 4 0)

/-- Unload every actuator. -/
def unloadAll (s : State) : State := park 1 (park 0 s)

/-- The anchor slot of actuator `a` has SRVRDY. -/
def anchorReady (s : State) (a : Nat) : Bool := bit s (Reg.SRV_STS a) (8 + getF s (Reg.SRV_CTL a) 4 2)

/-- The load ends (R424): LOCKED, and every loaded actuator's anchor is ready. -/
def loadEnded (s : State) : Bool :=
  getF s Reg.ANG_STS 0 3 == 3 && (List.range 2).all fun a => !loaded s a || anchorReady s a

/-! ## Requests (R423) -/

/-! ### SYS_MREQ results -/
namespace Mres
abbrev done : Nat := 0
abbrev pend : Nat := 1
abbrev illegal : Nat := 2
abbrev notReady : Nat := 3
abbrev failed : Nat := 4
end Mres

/-- Set SYS_MREQ.RES. -/
def setRes (r : Nat) (s : State) : State := setF s Reg.SYS_MREQ 8 3 r

/-- SYS_STS.TRANS. -/
def setTrans (b : Bool) (s : State) : State := setBit s Reg.SYS_STS 5 b

/-- An entry to a power state that cannot be reached is given up. -/
def dropEntry (s : State) : State :=
  if s.nqe.psEntry.isSome then setBit (modNqe s fun n => { n with psEntry := none }) Reg.NQE_PSCUR 8 false else s

/-- The request ends with a result. -/
def endRequest (r : Nat) (s : State) : State :=
  let s := modSys (if r = Mres.failed then dropEntry s else s) fun y => { y with target := none, step := none }
  evt Reg.SYS_EVT 6 (setTrans false (setRes r s))

/-- The module is in mode `t` for a request: ACTIVE is READY with work. -/
def atMode (s : State) (t : Nat) : Bool := mode s == t || (t == Mode.ready && mode s == Mode.active)

/-- The next mode on the chain of R422 from mode `m` to mode `t`. -/
def nextMode (m t : Nat) : Nat :=
  if m = Mode.standby then Mode.spinning
  else if m = Mode.spinning then t
  else if m = Mode.slow then (if t = Mode.standby then t else Mode.spinning)
  else Mode.spinning

/-- Enter TEST, remembering the mode to return to. -/
def enterTest (s : State) : State :=
  enterMode Mode.test (setF s Reg.SYS_MODE 16 4 (mode s))

/-- Start the step to mode `m` (R422 to R424). -/
def startStep (m : Nat) (s : State) : State :=
  let s := setTrans true (modSys s fun y => { y with step := some m })
  let s := if getF s Reg.CAL_STS 1 3 = 1 then setF s Reg.CAL_STS 1 3 2 else s
  if m = Mode.spinning then
    if mode s = Mode.standby then
      match runCommand s with
      | (true, s) => s
      | (false, s) => endRequest Mres.failed s
    else if mode s = Mode.slow then updateAttgt (modSys s fun y => { y with slow := false })
    else s
  else if m = Mode.slow then updateAttgt (modSys s fun y => { y with slow := true })
  else if m = Mode.standby then spinDown (modSys s fun y => { y with slow := false })
  else if m = Mode.ready then driveOff 1 (driveOff 0 (modSys s fun y => { y with loading := true }))
  else s

/-- Go on toward the request's mode. A request that leaves READY or ACTIVE waits until no track
operation is queued or running. -/
def goOn (s : State) : State :=
  match s.sys.target with
  | none => s
  | some t =>
    if s.sys.step.isSome then s
    else if atMode s t then endRequest Mres.done s
    else if (mode s = Mode.ready ∨ mode s = Mode.active) ∧ opsActive s = true then s
    else if t = Mode.test then endRequest Mres.done (enterTest s)
    else startStep (nextMode (mode s) t) s

/-- A mode between STANDBY and ACTIVE. -/
def runsMode (m : Nat) : Bool := decide (Mode.standby ≤ m ∧ m ≤ Mode.active)

/-- Take a request for mode `t` with none pending (R423). -/
def takeRequest (t : Nat) (s : State) : State :=
  if atMode s t then endRequest Mres.done s
  else if mode s = Mode.test then
    if getF s Reg.SYS_MODE 16 4 = t then endRequest Mres.done (enterMode t s) else setRes Mres.illegal s
  else if !runsMode (mode s) || !(runsMode t || t == Mode.test) then setRes Mres.illegal s
  else if t = Mode.ready ∧ loadReady s = false then setRes Mres.notReady s
  else goOn (setRes Mres.pend (modSys s fun y => { y with target := some t }))

/-- A request for mode `t`: one that is pending is replaced when its transition completes. -/
def requestMode (t : Nat) (s : State) : State :=
  let s := setF s Reg.SYS_MREQ 0 4 t
  if s.sys.step.isSome then modSys s fun y => { y with next := some t }
  else takeRequest t (modSys s fun y => { y with target := none })

/-- A write of `t` to SYS_MREQ: while a calibration runs it is held (R464). -/
def mreqWrite (t : Nat) (s : State) : State :=
  if bit s Reg.CAL_STS 0 then { s with cal := { s.cal with held := some t } } else requestMode t s

def execMreqStandby (s : State) : Host.Outcome State Fault Refusal :=
  .next (busOk (mreqWrite Mode.standby s))
def execMreqSpinning (s : State) : Host.Outcome State Fault Refusal :=
  .next (busOk (mreqWrite Mode.spinning s))
def execMreqSlow (s : State) : Host.Outcome State Fault Refusal :=
  .next (busOk (mreqWrite Mode.slow s))
def execMreqReady (s : State) : Host.Outcome State Fault Refusal :=
  .next (busOk (mreqWrite Mode.ready s))
def execMreqTest (s : State) : Host.Outcome State Fault Refusal :=
  .next (busOk (mreqWrite Mode.test s))

/-- After a step has ended, the request that replaced the running one is taken, or the running
one goes on. -/
def afterStep (s : State) : State :=
  let s := setTrans false (modSys s fun y => { y with step := none })
  match s.sys.next with
  | some t => takeRequest t (modSys s fun y => { y with target := none, next := none })
  | none => goOn s

/-- The mode of power state `p` (R255). -/
def psMode (p : Nat) : Nat :=
  if p ≤ 1 then Mode.ready else if p = 2 then Mode.spinning else if p = 3 then Mode.slow else Mode.standby

/-- The entry to a power state that has begun goes on (R251, R256). One to PS0 or PS1 in READY ends at
once. -/
def entryGoesOn (s : State) : State :=
  match s.nqe.psEntry with
  | none => s
  | some p =>
    if atMode s (psMode p) then ladder (showPower s) else
    let s := requestMode (psMode p) s
    if s.sys.target.isNone && s.sys.next.isNone && !atMode s (psMode p) then dropEntry s else s

/-- A media command waits in PS2 to PS4: the module moves to PS0 (R257). -/
def wakeForMedia (s : State) : State :=
  if s.nqe.cmds.any HostCmd.media && runsMode (mode s) && !atMode s Mode.ready && s.sys.target.isNone
      && !bit s Reg.NQE_PSCUR 8 && !bit s Reg.CAL_STS 0 then
    requestMode Mode.ready (setBit s Reg.NQE_PSCUR 9 true)
  else s

/-- A step failed: the module stays in the last mode it reached. -/
def stepFailed (s : State) : State :=
  let s := modSys s fun y => { y with loading := false }
  match s.sys.next with
  | some _ => afterStep s
  | none => endRequest Mres.failed s

/-- The condition that ends the step to mode `m` holds. -/
def stepReached (s : State) (m : Nat) : Bool :=
  if m = Mode.spinning then
    if mode s = Mode.standby then spnSync s && bit s Reg.SPN_STS 11
    else if mode s = Mode.slow then bit s Reg.SPN_STS 11
    else true
  else if m = Mode.slow then bit s Reg.SPN_STS 11
  else if m = Mode.standby then spnPhase s == SpnPhase.stopped
  else false

/-- TRANSITION_STEP_DONE: the step in progress ends, or fails. The step to READY ends at
LOAD_END. -/
def transitionStepDone (ok : Bool) (s : State) : State :=
  match s.sys.step with
  | none => s
  | some m =>
    if !ok then stepFailed (if m = Mode.ready then unloadAll s else s)
    else if stepReached s m then
      let s := if atMode s Mode.ready then unloadAll s else s
      wakeForMedia (afterStep (enterMode m s))
    else s

/-! ## The pause of a firmware activation (R253) -/

/-- Some operation of a context of either sequencer is in progress. -/
def opRuns (s : State) : Bool := s.tsq.any fun t => t.ctxs.any Ctx.busy

/-- The image of firmware slot `k` takes over in UPDATE. SYS_MODE keeps the mode to return to. -/
def enterUpdate (k : Nat) (s : State) : State :=
  loadFirmware k false (enterMode Mode.update (setF s Reg.SYS_MODE 16 4 (mode s)))

/-- Under HOLD, once no operation is in progress, the module is DRAINED, and an activation goes on in
UPDATE. -/
def drainCheck (s : State) : State :=
  if !bit s Reg.NQE_FWACT 0 || bit s Reg.NQE_FWACT 1 || opRuns s then s else
  let s := evt Reg.NQE_EVT 7 (setBit s Reg.NQE_FWACT 1 true)
  match s.nqe.activating with
  | some (k, _, _) => if runsMode (mode s) then enterUpdate k s else s
  | none => s

/-- The time to the first READY (R425). -/
def firstReady (s : State) : State :=
  if s.sys.everReady then s
  else wrN (modSys s fun y => { y with everReady := true }) Reg.SYS_PWRON
    ((s.clock - s.sys.powerOnClock) / 1000000)

/-- LOAD_END. A load after a released hold ends without a change of mode (R439). -/
def loadEnd (s : State) : State :=
  if loadLate s || !loadEnded s then s
  else if s.sys.loading && s.sys.step == some Mode.ready then
    let s := modSys s fun y => { y with loading := false }
    settleActive (afterStep (firstReady (enterMode Mode.ready s)))
  else modSys s fun y => { y with offA := false, offB := false }

/-- LOAD_TIMEOUT, 450 ms after the load began: every actuator is unloaded and the request fails; a load after a released hold
parks its actuator again (log entry 31). -/
def loadTimeout (s : State) : State :=
  if !loadLate s then s
  else if s.sys.loading then stepFailed (unloadAll s)
  else
    let s := if s.sys.offA then park 0 s else s
    let s := if s.sys.offB then park 1 s else s
    modSys s fun y => { y with offA := false, offB := false }

/-! ## SAFE-HOLD (R440, R441) -/

/-! ### Causes -/
namespace ShCause
abbrev sram : Nat := 1
abbrev noFw : Nat := 2
abbrev limits : Nat := 3
abbrev ucode : Nat := 4
abbrev defaults : Nat := 5
abbrev hdaId : Nat := 6
abbrev noAct : Nat := 7
abbrev spindle : Nat := 8
abbrev thermal : Nat := 9
abbrev clock : Nat := 10
abbrev cipher : Nat := 11
abbrev fwReq : Nat := 12
end ShCause

/-- The spindle coasts under the cause. -/
def causeCoasts (c : Nat) : Bool := c == ShCause.sram || c == ShCause.noFw || c == ShCause.clock

/-- Class S KILL to every context of sequencer `q`. -/
def killAll (q : Nat) (s : State) : State := raiseAll q SCause.kill s

/-- Brake or coast the spindle as the cause has it; one that is stopped stays so. -/
def holdSpindle (c : Nat) (s : State) : State :=
  if causeCoasts c then
    if spnPhase s = SpnPhase.stopped then s else coast s
  else if c = ShCause.spindle then brakeStop .held s
  else if spnPhase s = SpnPhase.stopped ∨ (s.spn.after = .held ∧ spnPhase s = SpnPhase.hold) then s
  else spinDown s

/-- Change the CAL and TST state. -/
def modCal (s : State) (f : CalState → CalState) : State := { s with cal := f s.cal }

/-- A calibration is over: BUSY clears, and a held request is applied (R464). -/
def calOver (s : State) : State :=
  let h := s.cal.held
  let s := setF (modCal s fun c => { c with run := none, held := none }) Reg.CAL_STS 0 4 0
  match h with
  | some t => requestMode t s
  | none => s

/-- Record a calibration's result: PASS, or FAIL with a code and the failing chains (R462). -/
def calResult (code chains : Nat) (s : State) : State :=
  let s := wrN s Reg.CAL_RES ((if code = 0 then 1 else 2) + 2 ^ 4 * code + 2 ^ 8 * chains)
  let s := evt Reg.CAL_EVT (if code = 0 then 0 else 1) s
  modCal s fun c => { c with run := c.run.map fun r => { r with measured := true, offline := false } }

/-- A calibration ends without its measurement or its return: ABORT unless it has a result (R464,
R465). -/
def calAbort (s : State) : State :=
  match s.cal.run with
  | none => s
  | some r => calOver (if r.measured then s else calResult 5 0 s)

/-- Steps 1 to 5 of R441. -/
def enterSafeHold (c : Nat) (s : State) : State :=
  let s := calAbort (evt Reg.SYS_EVT 1 (enterMode Mode.safeHold s))
  let s := dropEntry (if s.sys.target.isSome then endRequest Mres.failed s else s)
  let s := modSys s fun y =>
    { y with next := none, loading := false, offA := false, offB := false, resetRank := none
             coresHeld := y.coresHeld || c == ShCause.sram || c == ShCause.noFw }
  let s := killAll 1 (killAll 0 (showServes s))
  let s := startRetract 1 .held (startRetract 0 .held s)
  let s := holdSpindle c s
  discardIo (modNqe s fun n => { n with assocs := n.assocs.map fun a => { a with cfs := true } })

/-- SAFE-HOLD for cause `c`: SYS_SHALL records it, and SYS_SHCAUSE the first. After a power loss, and
while RESET_N is low, the safe state of R534 stands instead. -/
def safeHold (c : Nat) (s : State) : State :=
  if s.sys.powerLost || s.sys.resetLow then s else
  let s := setBit s Reg.SYS_SHALL c true
  let s := if bit s Reg.SYS_SHCAUSE 31 then s else wrN s Reg.SYS_SHCAUSE (c + 2 ^ 31)
  if mode s = Mode.safeHold then s else enterSafeHold c s

/-- SHREQ: firmware asks for SAFE-HOLD. -/
def execShreq (s : State) : Host.Outcome State Fault Refusal :=
  .next (busOk (safeHold ShCause.fwReq s))

/-- CLOCK_LOSS: the module goes on from its internal oscillator. -/
def clockLoss (refclk : Bool) (gen : Option Nat) (s : State) : State :=
  if refclk = false ∧ gen = none then s else
  let s := if refclk then setBit s Reg.SYS_CLKSTS 0 false else s
  let s := match gen with
    | some g => setBit s Reg.SYS_CLKSTS (1 + g) false
    | none => s
  safeHold ShCause.clock (setBit s Reg.SYS_CLKSTS 4 true)

def execClockLoss (refclk : Bool) (generator : Option (Fin 3)) (s : State) :
    Host.Outcome State Fault Refusal :=
  .next (clockLoss refclk (generator.map Fin.val) s)

/-! ## Actuator holds (R439) -/

/-! ### Causes -/
namespace AhCause
abbrev disabled : Nat := 1
abbrev overrun : Nat := 2
abbrev pfault : Nat := 3
abbrev link : Nat := 4
abbrev seq : Nat := 5
abbrev lanes : Nat := 6
abbrev fwReq : Nat := 7
end AhCause

/-- The actuator of an LBA. -/
def lbaActuator (s : State) (nsid lba : Nat) : Option Nat :=
  if nsid = 2 then some (surfaceAct s (zoneSurface s (zoneOfLba s lba)))
  else (convPlace s lba).map fun p => surfaceAct s p.1

/-- The command needs actuator `a`; a write of NSID 2 needs that of its one zone (R240). -/
def cmdNeeds (s : State) (c : HostCmd) (a : Nat) : Bool :=
  let n := if c.nsid = 2 ∧ c.writes = true then 1 else c.nlb
  (List.range n).any fun i => lbaActuator s c.nsid (c.slba + i) == some a

/-- The status of a command whose actuator is held: 0x280 of one that writes, else 0x281. -/
def heldStatus (c : HostCmd) : Nat := if c.writes then Status.writeFault else Status.readError

/-- The commands in flight that need actuator `a` complete at once. -/
def endHeldCmds (a : Nat) (s : State) : State :=
  (s.nqe.cmds.filter fun c => c.media && c.opcode != IoOp.flush && c.opcode != IoOp.zoneSend && cmdNeeds s c a).foldl
    (fun s c => abandon c (complete c.slot (heldStatus c) false s)) s

/-- Neither actuator is usable: SAFE-HOLD. -/
def checkActuators (s : State) : State :=
  if usable s 0 || usable s 1 then s else safeHold ShCause.noAct s

/-- Hold actuator `a` with a cause. -/
def holdActuator (a cause : Nat) (s : State) : State :=
  if disabled s a || held s a then s else
  let s := setBit (setF s Reg.SYS_AHCAUSE (8 * a) 3 cause) Reg.SYS_STS (1 + a) true
  let s := killAll a (evt Reg.SYS_EVT 2 s)
  let s := tstSweep (clearReady a (setBit (startRetract a .held s) (Reg.SRV_CTL a) 0 false))
  checkActuators (endHeldCmds a s)

def execHoldActuator (a : Fin 2) (s : State) : Host.Outcome State Fault Refusal :=
  .next (busOk (holdActuator a AhCause.fwReq s))

/-- FLT_N of actuator `a` has been low for 10 ms without a break. -/
def fltLong (s : State) (a : Nat) : Bool := fltHeld s a && decide (s.slu.fltClock.getD a 0 + 10000000 ≤ s.clock)

/-- PFAULT_HOLD. -/
def execPfaultHold (a : Fin 2) (s : State) : Host.Outcome State Fault Refusal :=
  .next (if fltLong s a then holdActuator a AhCause.pfault s else s)

/-- The condition of the hold of actuator `a` still holds. -/
def holdPersists (s : State) (a : Nat) : Bool :=
  match getF s Reg.SYS_AHCAUSE (8 * a) 3 with
  | 1 => true
  | 2 => retracting s a
  | 3 => fltHeld s a
  | 4 => decide (16 ≤ (imoneAt s a).errFrames)
  | 6 => (List.range 4).all fun k => !inService s (4 * a + k)
  | _ => false

/-- CLEAR_ACTUATOR: a released actuator is loaded in READY and ACTIVE. -/
def clearActuator (a : Nat) (s : State) : State :=
  if !held s a || holdPersists s a then evt Reg.SYS_EVT 5 s
  else
    let s := setBit (setF s Reg.SYS_AHCAUSE (8 * a) 3 0) Reg.SYS_STS (1 + a) false
    if atMode s Mode.ready then
      let s := modSys s fun y => if a = 0 then { y with offA := true } else { y with offB := true }
      driveOff a s
    else s

def execClearActuator (a : Fin 2) (s : State) : Host.Outcome State Fault Refusal :=
  .next (busOk (clearActuator a s))

/-! ## Failed lanes (R438) -/

/-- The lowest slot of actuator `a` that is in service with a head selected. -/
def nextAnchor (s : State) (a : Nat) : Option Nat :=
  (List.range 4).find? fun k => inService s (4 * a + k) && (slotHead s (4 * a + k)).isSome

/-- Write SRV_CTL.ANCH under R174: it takes effect at the next sample. -/
def writeAnchor (a k : Nat) (s : State) : State :=
  if (slotHead s (4 * a + k)).isNone then evt (Reg.SRV_EVT a) 8 s
  else modSrv s a fun v => { v with anchReq := some k }

/-- Lane `l` fails. -/
def laneFails (l : Nat) (s : State) : State :=
  let n := laneSlot l
  let a := slotAct n
  let s := tstSweep (evt Reg.SYS_EVT 3 (setBit s Reg.SYS_LANEFAIL l true))
  let s := raiseS a (n % 4) SCause.kill s
  let s := if getF s (Reg.SRV_CTL a) 4 2 = n % 4 then
      match nextAnchor s a with
      | some k => writeAnchor a k s
      | none => s
    else s
  if (List.range 4).all (fun k => !inService s (4 * a + k)) then holdActuator a AhCause.lanes s else s

/-- LANECLR: each named lane returns to service while its slot has no operation. -/
def laneClear (mask : Nat) (s : State) : State :=
  (List.range 16).foldl (fun s l =>
    let c := ctxAt s (slotAct (laneSlot l)) (laneSlot l % 4)
    if mask.testBit l && !c.busy && c.queue.isEmpty then
      modLane (setBit s Reg.SYS_LANEFAIL l false) l fun n => { n with missedAt := none }
    else s) s

def execLaneclr (mask : BitVec 16) (s : State) : Host.Outcome State Fault Refusal :=
  .next (busOk (laneClear mask.toNat s))

end Sys2Proof.Machine
end

