-- ==== Sys2Proof/Machine/Seek.lean ====
section
/-! DEFINITION. Servo positions and the start of a seek profile (R164 to R166, R176 to R178), and
the start of a capture (R190). -/

namespace Sys2Proof.Machine

/-- A seek failed: SRV_EVT.SKFAIL, counted for object 0x3003. -/
def seekFails (a : Nat) (s : State) : State :=
  modSrv (evt (Reg.SRV_EVT a) 5 s) a fun v => { v with skfails := v.skfails + 1 }

/-- A position in servo tracks as the engine holds it: a signed 32-bit number of 1/256 servo track (R164). -/
def asPos (q : Rat) : Rat := (signedOf 32 (encodeSigned 32 (roundHalfUp (256 * q))) : Rat) / 256

/-- The servo position of track `t` of surface `f`, in 1/256 servo track (R165). -/
def servoPos (s : State) (f t : Nat) : Option Int :=
  match (bandTable s f).findIdx? (fun e => btCovers e t) with
  | none => none
  | some b =>
    let e := sram64 s (rdN s (Reg.SRV_TPBASE (surfaceAct s f)) + 8 * (48 * f + b))
    let d := t - btFirst ((bandTable s f).getD b 0)
    some (signedOf 32 (bitsOf e 0 32) + ((d * bitsOf e 32 32 / 2 ^ 16 : Nat) : Int))

/-- The value of a limit register, if it starts a profile: finite and not zero. -/
def limitOf (s : State) (r : Nat) : Option Rat :=
  if fpNonFinite (rdN s r) ∨ rdF s r = 0 then none else some (rdF s r)

/-- The throttle ladder's factor on seek acceleration (R451). -/
def seekFactor (s : State) : Rat := if bit s Reg.THM_CAPS 0 then 1 / 2 else 1

/-- Capture starts on its trigger (R190). -/
def captureStarts (a : Nat) (s : State) : State :=
  modSrv (setBit s (Reg.SRV_CAPSTS a) 24 true) a fun v =>
    { v with capture := { v.capture with armed := false, running := true } }

/-- Capture in TRIG mode `m` waits for its trigger. -/
def captureArmed (s : State) (a m : Nat) : Bool :=
  (srvAt s a).capture.armed && getF s (Reg.SRV_CAPCTL a) 24 2 == m

/-- A profile of actuator `a` to the servo position `p` starts; it replaces one that runs, from its
present reference (R176 to R178). -/
def profileStarts (a : Nat) (p : Int) (vm am jm : Rat) (s : State) : State :=
  let k := seekFactor s
  let s := modSrv s a fun v =>
    { v with
      profile := some ⟨v.refPos, v.refVel, v.refAcc, asPos ((p : Rat) / 256), vm, am * k, jm * k, 0⟩
      settleRun := 0 }
  let s := wrN s (Reg.SRV_TGT a) (encodeSigned 32 p)
  let s := setBit (setBit s (Reg.SRV_STS a) 4 true) (Reg.SRV_STS a) 5 false
  clearReady a s

/-- SVGO with SVTGT `v` on actuator `a` (R166, R176). -/
def svgo (a v : Nat) (s : State) : State :=
  let f := bitsOf v 24 5
  let s := if captureArmed s a 2 then captureStarts a s else s
  if f < numSurfaces s ∧ surfaceAct s f = a then
    match servoPos s f (bitsOf v 0 24), limitOf s (Reg.SRV_VMAX a), limitOf s (Reg.SRV_AMAX a),
        limitOf s (Reg.SRV_JMAX a) with
    | some p, some vm, some am, some jm => profileStarts a p vm am jm s
    | _, _, _, _ => seekFails a s
  else seekFails a s

/-- SEEKDONE of R140: the profile has ended and the servo reports settle. -/
def seekDone (s : State) (a : Nat) : Bool := !bit s (Reg.SRV_STS a) 4 && bit s (Reg.SRV_STS a) 5

end Sys2Proof.Machine
end

