-- ==== Sys2Proof/Machine/Sequencer.lean ====
section
/-! DEFINITION. The track sequencers (chapter 5): descriptors, dispatch, commit points and the
micro-journal, interrupts, the microwords, and microcode images. -/

namespace Sys2Proof.Machine

/-! ## Descriptors and queues (R133, R136) -/

/-- The slot of context `x` of sequencer `q`; X4 has none. -/
def ctxSlot (q x : Nat) : Nat := 4 * q + x

/-- TSQ_CTL.RUN. -/
def tsqRun (s : State) (q : Nat) : Bool := bit s (Reg.TSQ_CTL q) 0

/-- TSQ_STS.IDLE. -/
def tsqIdle (s : State) (q : Nat) : Bool := (tsqSts s q).testBit 0

/-- The descriptor asks to wait for the SEEKs before it (AFTSEEK). -/
def afterSeek (s : State) (offset : Nat) : Bool := (sram32 s offset).testBit 27

/-- The descriptor at the head of a queue takes the SEEKs it waits for: those that have entered
the queue of X4 so far. -/
def headReached (q x : Nat) (s : State) : State :=
  let n := (tsqAt s q).seeksIn
  modCtx s q x fun c =>
    match c.queue with
    | d :: l => { c with queue := { d with waitFor := if afterSeek s d.offset then some n else none } :: l }
    | [] => c

/-- A descriptor enters the queue of context `x` of sequencer `q`. A SEEK that enters the queue of X4
preempts a speculative one that runs (R155). -/
def enqueue (q x offset : Nat) (fw : Bool) (s : State) : State :=
  let s := if fw then sramPutPart s offset (32 * (offset / 4 % 2) + 29) 1 1 else s
  let first := (ctxAt s q x).queue.isEmpty
  let seek := decide (x = 4 ∧ bitsOf (sram32 s offset) 0 8 = 7)
  let s := if seek && (ctxAt s q 4).busy && descOp s q 4 == 7 && (descWord s q 4 0).testBit 28 then
      requestP q 4 s else s
  let s := modCtx s q x fun c => { c with queue := c.queue ++ [⟨offset, fw, none⟩] }
  let s := if first then headReached q x s else s
  let s := if seek then modTsq s q fun t => { t with seeksIn := t.seeksIn + 1 } else s
  settleActive s

/-- The queue of the context holds 16 descriptors. -/
def queueFull (s : State) (q x : Nat) : Bool := decide (16 ≤ (ctxAt s q x).queue.length)

/-- The status of a post of `v` to TSQ_FWQ: the first that applies (R136). -/
def fwPostStatus (s : State) (q v : Nat) : Nat :=
  let x := bitsOf v 32 3
  if !tsqRun s q then 4
  else if 4 < x then 2
  else if v ≠ bitsOf v 6 23 * 2 ^ 6 + x * 2 ^ 32 then 3
  else if queueFull s q x then 1
  else 0

/-- FW_POST: a write to TSQ_FWQ. -/
def fwPost (q v : Nat) (s : State) : State :=
  let st := fwPostStatus s q v
  let s := setF (wr64 s (Reg.TSQ_FWQ q) v) (Reg.TSQ_FWSTS q) 0 3 st
  if st = 0 then enqueue q (bitsOf v 32 3) (bitsOf v 6 23 * 2 ^ 6) true s else s

def execFwPost (q : Fin 2) (value : DWord) (s : State) : Host.Outcome State Fault Refusal :=
  .next (busOk (fwPost q value.toNat s))

/-- FWCQ_POP: a read of TSQ_FWCQ. -/
def fwcqPop (q : Nat) (s : State) : State :=
  match (tsqAt s q).fwcq with
  | d :: l => answer (d + 2 ^ 31) (modTsq s q fun t => { t with fwcq := l })
  | [] => answer 0 s

def execFwcqPop (q : Fin 2) (s : State) : Host.Outcome State Fault Refusal := .next (fwcqPop q s)

/-! ## The end of an operation (R153, R154) -/

/-- Write the completion record of the context's descriptor. -/
def writeRecord (q x status : Nat) (plost : Bool) (s : State) : State :=
  let c := ctxAt s q x
  let d := c.desc
  let w := status + (if c.ptaken then 2 ^ 8 else 0) + (if plost then 2 ^ 9 else 0) + 2 ^ 16 * (c.noteC % 2 ^ 16)
  let s := sramPut32 s (d + 48) w
  let s := sramPut32 s (d + 52) (c.progPC % 2 ^ 10 + 2 ^ 16 * (c.progTC % 2 ^ 10))
  let s := sramPut32 s (d + 56) c.lastPc
  sramPut32 s (d + 60) (angNow s)

/-- The lanes of the context's slot lose the sync half-widths of the operation (R22). -/
def clearHalves (q x : Nat) (s : State) : State :=
  if x = 4 then s else
  let clear := fun (l : Lane) => { l with halves := (s.ang.incs, none) :: l.halves }
  modLane (modLane s (ctxSlot q x) clear) (ctxSlot q x + 8) clear

/-- The class S causes that have reached the context are recorded, one that came with its restoration or
with its HALT among them (R156). -/
def recordPending (q x : Nat) (s : State) : State := (ctxAt s q x).pendS.foldl (fun s k => recordS q k s) s

/-- The operation of context `x` of sequencer `q` ends with `status`. -/
def finishOp (q x status : Nat) (plost : Bool) (s : State) : State :=
  let c := ctxAt s q x
  let s := wrapInc (writeRecord q x status plost (recordPending q x s)) (Reg.TSQ_OPCNT q)
  let s := if c.fw then
      evt (Reg.TSQ_EVT q) 0 (modTsq s q fun t => { t with fwcq := t.fwcq ++ [c.desc] }) else s
  let s := if x = 4 ∧ descOp s q x = 7 then modTsq s q fun t => { t with seeksOut := t.seeksOut + 1 } else s
  let s := modCtx (clearHalves q x s) q x fun c =>
    { c with phase := .idle, ppend := false, pendS := [], waitc := false, journal := [], clocks := 0, sres := [] }
  goOn (drainCheck (settleActive (operationEnds q x status c.progPC s)))

/-! ## Dispatch (R134, R136) -/

/-- The operation may run in context `x`, and its descriptor names a context of its column. -/
def opAllowed (op ctx x : Nat) : Bool :=
  if op = 7 then ctx == 4 && x == 4
  else decide (1 ≤ op ∧ op ≤ 8) && decide (ctx < 4) && decide (x < 4)

/-- The context takes the descriptor from the head of its queue. -/
def takeDesc (q x : Nat) (d : QueuedDesc) (s : State) : State :=
  headReached q x (modCtx s q x fun c =>
    { c with
      queue := c.queue.tail, desc := d.offset, fw := d.firmware, ppend := false, ptaken := false
      pendS := [], progP := 0, progT := 0, note := 0, progPC := 0, progTC := 0, noteC := 0, sres := []
      journal := [], clocks := 0, waitc := false })

/-- The context starts its routine. -/
def startRoutine (q x op : Nat) (s : State) : State :=
  modCtx s q x fun c =>
    { c with
      g := (List.replicate 15 0#32) ++ [BitVec.ofNat 32 c.desc]
      z := false, n := false, c := false, stack := [], wakes := [], resP := [], resT := [], late := false
      phase := .run, pc := 2 * op, startRev := rdN s Reg.ANG_REV }

/-- DISPATCH of context `x` of sequencer `q`. -/
def dispatch (q x : Nat) (s : State) : State :=
  match (ctxAt s q x).queue with
  | [] => s
  | d :: _ =>
    if !tsqRun s q || bit s Reg.NQE_FWACT 0 || (ctxAt s q x).busy || seekWaits s q x then s else
    let s := takeDesc q x d s
    let op := descOp s q x
    if opAllowed op (bitsOf (descWord s q x 0) 8 3) x then startRoutine q x op s
    else finishOp q x 0x85 false (recordS q SCause.illop s)

def execDispatch (q : Fin 2) (x : Fin 5) (s : State) : Host.Outcome State Fault Refusal :=
  .next (dispatch q x s)

/-! ## Lane fields (R144) -/

/-- A lane field by number. -/
def laneField (l : Lane) (f : Nat) : Nat :=
  match f with
  | 0 => l.band
  | 1 => l.mode
  | 2 => l.track
  | 3 => l.first
  | _ => l.bufl

/-- A lane with field `f` set. -/
def laneSet (l : Lane) (f v : Nat) : Lane :=
  match f with
  | 0 => { l with band := bitsOf v 0 6 }
  | 1 => { l with mode := bitsOf v 0 2 }
  | 2 => { l with track := bitsOf v 0 24 }
  | 3 => { l with first := bitsOf v 0 10 }
  | _ => { l with bufl := bitsOf v 2 27 * 4 }

/-- Set a field of a lane of slot `n`. BAND of the primary lane is LANE_SLBAND, and a change of its
TRACK or MODE holds the target check failed (R412). -/
def setLaneField (n : Nat) (trailing : Bool) (f v : Nat) (s : State) : State :=
  let s := modLane s (laneOf n trailing) fun l => laneSet l f v
  if trailing then s
  else if f = 0 then setF s (Reg.LANE_SLBAND n) 0 6 v
  else if f = 1 ∨ f = 2 then sluApply n (targetPending n s)
  else s

/-! ## Commit points and the micro-journal (R149 to R151) -/

/-- Item `i` of the result area lies within the progress of the context. -/
def Ctx.reported (c : Ctx) (count i : Nat) : Bool :=
  if i < count then decide (i < c.progP) else decide (i - count < c.progT)

/-- A commit point: results within the progress reach the result area, the journal empties, and
the engines act on the progress. -/
def commitCtx (q x : Nat) (s : State) : State :=
  let c := ctxAt s q x
  let n := dCount s q x
  let m := dTcount s q x
  let out := c.sres.filter fun e => c.reported n e.1
  let s := out.foldl (fun s e => sramPut32 s (dRes s q x + 4 * e.1) e.2.toNat) s
  let s := modCtx s q x fun c =>
    { c with
      sres := c.sres.filter fun e => !c.reported n e.1
      journal := [], clocks := 0, progPC := c.progP, progTC := c.progT, noteC := c.note }
  progress q x (min n c.progPC) (min n c.progP) (min m c.progTC) (min m c.progT) s

/-- The posted result of sector index `i` that is not yet in the result area. -/
def Ctx.result (c : Ctx) (i : Nat) : Option Word := (c.sres.find? fun e => e.1 == i).map Prod.snd

/-- The posted results with that of sector index `i` set or removed. -/
def setResult (l : List (Nat × Word)) (i : Nat) (v : Option Word) : List (Nat × Word) :=
  (v.map fun w => (i, w)).toList ++ l.filter fun e => e.1 != i

/-- Restore one journal item (R153). -/
def restoreItem (q x : Nat) (j : JournalItem) (s : State) : State :=
  let n := ctxSlot q x
  match j with
  | .arm id => setQueue n ((queueOf s n).filter fun e => e.ident != id) s
  | .lane t f v => setLaneField n t f v s
  | .sres i p => modCtx s q x fun c => { c with sres := setResult c.sres i p }
  | .progP p => modCtx s q x fun c => { c with progP := p }
  | .progT p => modCtx s q x fun c => { c with progT := p }
  | .note p => modCtx s q x fun c => { c with note := p }

/-! ## Class S (R152, R153, R156) -/

/-- What a class S interrupt does to the context's slot: Release entries fire, the others are
discarded, the assist of a write that is cancelled ramps down (R92), the Sluice's latches clear (R415), and
MAOFF returns to 0. -/
def endSlot (q x : Nat) (s : State) : State :=
  if x = 4 then s else
  let n := ctxSlot q x
  let cancelled := writing s q x
  let s := drainQueue n false s
  let s := if cancelled && (slotAt s n).assist then assistOff n s else s
  let s := setBit (setBit s Reg.SLU_STS (8 + n) false) Reg.SLU_STS (16 + n) false
  modCtx s q x fun c => { c with maoff := 0 }

/-- CLASS_S_INTERRUPT: the causes that have reached the context end its routine; STATUS carries the
first of them, and TSQ_SEVT records all. -/
def classS (q x : Nat) (s : State) : State :=
  let c := ctxAt s q x
  match c.pendS with
  | [] => s
  | cause :: _ =>
    if !c.busy then s else
    let s := satInc s (Reg.TSQ_SCNT q) 32
    let s := c.journal.foldl (fun s j => restoreItem q x j s) s
    finishOp q x (0x80 + cause) c.ppend (endSlot q x s)

def execClassSInterrupt (q : Fin 2) (x : Fin 5) (s : State) : Host.Outcome State Fault Refusal :=
  .next (classS q x s)

/-- OPTIME: ANG_REV has incremented TSQ_OPLIM times since the dispatch. -/
def optime (q x : Nat) (s : State) : State :=
  let c := ctxAt s q x
  let revs := (rdN s Reg.ANG_REV + 2 ^ 32 - c.startRev) % 2 ^ 32
  if c.busy && decide (getF s (Reg.TSQ_OPLIM q) 0 4 ≤ revs) then raiseS q x SCause.optime s else s

def execOptime (q : Fin 2) (x : Fin 5) (s : State) : Host.Outcome State Fault Refusal :=
  .next (optime q x s)

/-- KILL: a write to TSQ_KILL. -/
def tsqKill (q m : Nat) (s : State) : State :=
  (List.range 5).foldl (fun s x => if m.testBit x then raiseS q x SCause.kill s else s) s

def execTsqKill (q : Fin 2) (mask : BitVec 5) (s : State) : Host.Outcome State Fault Refusal :=
  .next (busOk (tsqKill q mask.toNat s))

/-- UCPAR: a parity error on a microword fetch. The third within one second holds the actuator
(R439). -/
def ucpar (q x : Nat) (s : State) : State :=
  if !(ctxAt s q x).busy then s else
  let recent := ((tsqAt s q).ucparClocks.filter fun t => decide (s.clock - t < 1000000000)) ++ [s.clock]
  let s := modTsq (raiseS q x SCause.ucpar s) q fun t => { t with ucparClocks := recent }
  if 3 ≤ recent.length then holdActuator q AhCause.seq s else s

def execUcpar (q : Fin 2) (x : Fin 5) (s : State) : Host.Outcome State Fault Refusal :=
  .next (ucpar q x s)

/-! ## Class P (R155) -/

/-- PREQ: a write to TSQ_PREQ. -/
def preq (q m : Nat) (s : State) : State :=
  (List.range 5).foldl (fun s x => if m.testBit x then requestP q x s else s) s

def execPreq (q : Fin 2) (mask : BitVec 5) (s : State) : Host.Outcome State Fault Refusal :=
  .next (busOk (preq q mask.toNat s))

/-- The context stands at a commit point with a class P request pending. -/
def exitDue (c : Ctx) : Bool := c.phase == .run && c.ppend && c.clocks == 0 && c.pendS.isEmpty

/-- PREEMPTION_EXIT: the context branches to its preemption exit, which is a commit point. -/
def preemptionExit (q x : Nat) (s : State) : State :=
  if exitDue (ctxAt s q x) then
    let op := descOp s q x
    let s := satInc s (Reg.TSQ_PCNT q) 32
    modCtx s q x fun c =>
      { c with phase := .pexit, ppend := false, ptaken := true, pc := 2 * op + 1, waitc := false, journal := [] }
  else s

def execPreemptionExit (q : Fin 2) (x : Fin 5) (s : State) : Host.Outcome State Fault Refusal :=
  .next (preemptionExit q x s)

/-- PEXIT: the preemption exit has not reached HALT within TSQ_PXLIM. -/
def pexit (q x : Nat) (s : State) : State :=
  if (ctxAt s q x).phase = .pexit then raiseS q x SCause.pexit s else s

def execPexit (q : Fin 2) (x : Fin 5) (s : State) : Host.Outcome State Fault Refusal :=
  .next (pexit q x s)

/-! ## Microwords (R138) -/

def mwOp (w : Nat) : Nat := bitsOf w 26 6
def mwCommit (w : Nat) : Bool := w.testBit 25
def mwClocks (w : Nat) : Nat := bitsOf w 21 4 + 1
def mwA (w : Nat) : Nat := bitsOf w 17 4
def mwB (w : Nat) : Nat := bitsOf w 13 4
def mwR (w : Nat) : Nat := bitsOf w 9 4
def mwAux (w : Nat) : Nat := bitsOf w 0 9
def mwImm (w : Nat) : Nat := bitsOf w 0 17
def mwCond (w : Nat) : Nat := bitsOf w 13 8
def mwTarget (w : Nat) : Nat := bitsOf w 0 13

/-- The operations of R139. -/
def mwListed (op : Nat) : Bool :=
  decide (op ≤ 0x10) || op ∈ [0x14, 0x15, 0x16, 0x18, 0x19, 0x1A, 0x1B, 0x1C, 0x1E, 0x1F]

/-- The microword at an address. -/
def microword (s : State) (pc : Nat) : Nat := (sget zeroDflt s.microcode pc).toNat

/-- How a word ends: with the next word, a branch, a class S cause in place of any effect, HALT,
or the start or continuation of a wait. -/
inductive WordEnd where
  | next
  | goto (pc : Nat)
  | fault (cause : Nat)
  | halt (status : Nat)
  | wait
  | waited
  deriving DecidableEq, Repr

/-- The meaning of an operation: of word `w` in context `x` of sequencer `q`. -/
abbrev WordMeaning := Nat → Nat → Nat → State → WordEnd × State

/-- The word has ended: the next address, and its commit point. -/
def retire (q x w next : Nat) (commit : Bool) (s : State) : State :=
  let s := modCtx s q x fun c =>
    { c with lastPc := c.pc, pc := next % 2 ^ 13, clocks := c.clocks + mwClocks w, waitc := false }
  if commit then commitCtx q x s else s

/-- HALT: its commit point, then the end of the operation (R154). -/
def haltOp (q x w status : Nat) (s : State) : State :=
  let s := retire q x w (ctxAt s q x).pc true s
  let s := evtIf (decide (x ≠ 4) && !(queueOf s (ctxSlot q x)).isEmpty) (Reg.TSQ_EVT q) 1 s
  finishOp q x status false s

/-- A WAITC begins to wait, which is a commit point (R148); a wait that goes on changes nothing. -/
def beginWait (q x w : Nat) (s : State) : State :=
  if (ctxAt s q x).waitc then s
  else modCtx (retire q x w (ctxAt s q x).pc true s) q x fun c => { c with waitc := true }

/-- Carry out a word's end. A word that itself faults has no effect, and R153 does not say whether it counts
as executed: DESIGN CHOICE (log entry 18), the record's PC is the address of the word before it. -/
def endWord (q x w : Nat) (r : WordEnd × State) (s : State) : State :=
  match r.1 with
  | .next => retire q x w ((ctxAt s q x).pc + 1) (mwCommit w) r.2
  | .goto p => retire q x w p (mwCommit w) r.2
  | .fault c => raiseS q x c s
  | .halt st => haltOp q x w st r.2
  | .wait => beginWait q x w r.2
  | .waited => retire q x w ((ctxAt s q x).pc + 1) true r.2

/-- The context executes its next word, whose operation is `op`; a word whose operation is not
listed is an illegal operation whatever `op` is. A word that would end after its segment's last clock is not
executed at all (R149). A context at which a class S cause or the preemption exit is due executes no word. -/
def runWord (op : Nat) (f : WordMeaning) (q x : Nat) (s : State) : State :=
  let c := ctxAt s q x
  if !c.busy || !c.pendS.isEmpty || exitDue c then s else
  let w := microword s c.pc
  if mwListed (mwOp w) && mwOp w != op then s
  else if 256 < c.clocks + mwClocks w then raiseS q x SCause.segovr s
  else if !mwListed (mwOp w) then raiseS q x SCause.illop s
  else endWord q x w (f q x w s) s

/-! ### Registers -/

/-- General register `r` of the context. -/
def greg (s : State) (q x r : Nat) : Word := (ctxAt s q x).g.getD r 0#32

/-- Set general register `r`. -/
def setG (q x r : Nat) (v : Word) (s : State) : State :=
  modCtx s q x fun c => { c with g := modAt c.g r fun _ => v }

/-- Set general register `r` and the flags. -/
def setGF (q x r : Nat) (v : Word) (f : Flags) (s : State) : State :=
  modCtx s q x fun c => { c with g := modAt c.g r fun _ => v }.setFlags f

/-- The flags of the context. -/
def flagsOf (s : State) (q x : Nat) : Flags := (ctxAt s q x).flags

/-- The sign-extended immediate. -/
def immS (w : Nat) : Word := BitVec.ofInt 32 (signedOf 17 (mwImm w))

/-! ### Moves and arithmetic (R139) -/

def wordNop : WordMeaning := fun _ _ w s => (if bitsOf w 0 21 = 0 then .next else .fault SCause.illop, s)

def wordMov : WordMeaning := fun q x w s => (.next, setG q x (mwA w) (greg s q x (mwB w)) s)

def wordMovi : WordMeaning := fun q x w s => (.next, setG q x (mwA w) (BitVec.ofNat 32 (mwImm w)) s)

def wordMovhi : WordMeaning := fun q x w s =>
  if bitsOf (mwImm w) 15 2 ≠ 0 then (.fault SCause.illop, s)
  else (.next, setG q x (mwA w)
    (BitVec.ofNat 32 (bitsOf (greg s q x (mwA w)).toNat 0 17 + 2 ^ 17 * bitsOf (mwImm w) 0 15)) s)

def wordAdd : WordMeaning := fun q x w s =>
  let a := greg s q x (mwB w)
  let b := greg s q x (mwR w)
  (.next, setGF q x (mwA w) (a + b) (flagsAdd a b) s)

def wordSub : WordMeaning := fun q x w s =>
  let a := greg s q x (mwB w)
  let b := greg s q x (mwR w)
  (.next, setGF q x (mwA w) (a - b) (flagsSub a b) s)

def wordAddi : WordMeaning := fun q x w s =>
  let a := greg s q x (mwA w)
  (.next, setGF q x (mwA w) (a + immS w) (flagsAdd a (immS w)) s)

/-- A bitwise operation of GB and GC. -/
def wordLogic (f : Word → Word → Word) : WordMeaning := fun q x w s =>
  let r := f (greg s q x (mwB w)) (greg s q x (mwR w))
  (.next, setGF q x (mwA w) r (flagsZN (flagsOf s q x) r) s)

/-- A shift of GB by AUX bits 4:0. -/
def wordShift (f : Word → Nat → Word) : WordMeaning := fun q x w s =>
  let r := f (greg s q x (mwB w)) (bitsOf (mwAux w) 0 5)
  (.next, setGF q x (mwA w) r (flagsZN (flagsOf s q x) r) s)

def wordAngadd : WordMeaning := fun q x w s =>
  let r := BitVec.ofNat 32 ((greg s q x (mwB w) + greg s q x (mwR w)).toNat % 2 ^ 22)
  (.next, setGF q x (mwA w) r (flagsZ (flagsOf s q x) r) s)

def wordCmp : WordMeaning := fun q x w s =>
  (.next, modCtx s q x fun c => c.setFlags (flagsSub (greg s q x (mwB w)) (greg s q x (mwR w))))

def wordCmpi : WordMeaning := fun q x w s =>
  (.next, modCtx s q x fun c => c.setFlags (flagsSub (greg s q x (mwA w)) (immS w)))

def execNopWord (q : Fin 2) (x : Fin 5) (s : State) : Host.Outcome State Fault Refusal :=
  .next (runWord 0x00 wordNop q x s)
def execMovWord (q : Fin 2) (x : Fin 5) (s : State) : Host.Outcome State Fault Refusal :=
  .next (runWord 0x01 wordMov q x s)
def execMoviWord (q : Fin 2) (x : Fin 5) (s : State) : Host.Outcome State Fault Refusal :=
  .next (runWord 0x02 wordMovi q x s)
def execMovhiWord (q : Fin 2) (x : Fin 5) (s : State) : Host.Outcome State Fault Refusal :=
  .next (runWord 0x03 wordMovhi q x s)
def execAddWord (q : Fin 2) (x : Fin 5) (s : State) : Host.Outcome State Fault Refusal :=
  .next (runWord 0x04 wordAdd q x s)
def execSubWord (q : Fin 2) (x : Fin 5) (s : State) : Host.Outcome State Fault Refusal :=
  .next (runWord 0x05 wordSub q x s)
def execAddiWord (q : Fin 2) (x : Fin 5) (s : State) : Host.Outcome State Fault Refusal :=
  .next (runWord 0x06 wordAddi q x s)
def execAndWord (q : Fin 2) (x : Fin 5) (s : State) : Host.Outcome State Fault Refusal :=
  .next (runWord 0x07 (wordLogic (· &&& ·)) q x s)
def execOrWord (q : Fin 2) (x : Fin 5) (s : State) : Host.Outcome State Fault Refusal :=
  .next (runWord 0x08 (wordLogic (· ||| ·)) q x s)
def execXorWord (q : Fin 2) (x : Fin 5) (s : State) : Host.Outcome State Fault Refusal :=
  .next (runWord 0x09 (wordLogic (· ^^^ ·)) q x s)
def execShliWord (q : Fin 2) (x : Fin 5) (s : State) : Host.Outcome State Fault Refusal :=
  .next (runWord 0x0A (wordShift (· <<< ·)) q x s)
def execShriWord (q : Fin 2) (x : Fin 5) (s : State) : Host.Outcome State Fault Refusal :=
  .next (runWord 0x0B (wordShift (· >>> ·)) q x s)
def execAngaddWord (q : Fin 2) (x : Fin 5) (s : State) : Host.Outcome State Fault Refusal :=
  .next (runWord 0x0C wordAngadd q x s)
def execCmpWord (q : Fin 2) (x : Fin 5) (s : State) : Host.Outcome State Fault Refusal :=
  .next (runWord 0x0D wordCmp q x s)
def execCmpiWord (q : Fin 2) (x : Fin 5) (s : State) : Host.Outcome State Fault Refusal :=
  .next (runWord 0x0E wordCmpi q x s)

/-! ### Special registers (R141) -/

/-- The oldest SEQ_WAKE notification as WAKETAG shows it. -/
def wakeTag (e : Nat × Bool) : Word := BitVec.ofNat 32 (e.1 % 2 ^ 16 + (if e.2 then 2 ^ 16 else 0))

/-- A read of special register `r`: its value and the context after it, or nothing where the
register or the context is not listed. A write-only register reads as 0, as R8 has it. -/
def mfsValue (s : State) (q x r : Nat) : Option (Word × Ctx) :=
  let c := ctxAt s q x
  let ones : Word := 0xFFFFFFFF#32
  match r with
  | 0 => some (BitVec.ofNat 32 (angNow s), c)
  | 1 => if x = 4 then none else
    match c.wakes with
    | e :: l => some (wakeTag e, { c with wakes := l })
    | [] => some (ones, c)
  | 2 => if x = 4 then none else
    match c.resP with
    | e :: l => some (e, { c with resP := l })
    | [] => some (ones, c)
  | 3 => if x = 4 then none else
    match c.resT with
    | e :: l => some (e, { c with resT := l })
    | [] => some (ones, c)
  | 4 | 5 => if x = 4 then some (0#32, c) else none
  | 6 => if x = 4 then none else some (BitVec.ofInt 32 c.maoff, c)
  | 7 => some (BitVec.ofNat 32 (skewOf s (dSurf s q x)), c)
  | 8 => some (BitVec.ofNat 32 x, c)
  | _ => none

def wordMfs : WordMeaning := fun q x w s =>
  match mfsValue s q x (bitsOf (mwImm w) 0 8) with
  | some (v, c) => (.next, setG q x (mwA w) v (modCtx s q x fun _ => c))
  | none => (.fault SCause.illop, s)

/-- MTS. A write to a read-only register that the context may access is ignored, as R8 has it. -/
def wordMts : WordMeaning := fun q x w s =>
  let v := (greg s q x (mwA w)).toNat
  match bitsOf (mwImm w) 0 8 with
  | 0 | 7 | 8 => (.next, s)
  | 1 | 2 | 3 => (if x = 4 then .fault SCause.illop else .next, s)
  | 4 => if x = 4 then (.next, modTsq s q fun t => { t with svtgt := v }) else (.fault SCause.illop, s)
  | 5 =>
    if x = 4 then (.next, if v = 1 then svgo q (tsqAt s q).svtgt s else s) else (.fault SCause.illop, s)
  | 6 => if x = 4 then (.fault SCause.illop, s) else (.next, modCtx s q x fun c => { c with maoff := signedOf 32 v })
  | _ => (.fault SCause.illop, s)

def execMfsWord (q : Fin 2) (x : Fin 5) (s : State) : Host.Outcome State Fault Refusal :=
  .next (runWord 0x0F wordMfs q x s)
def execMtsWord (q : Fin 2) (x : Fin 5) (s : State) : Host.Outcome State Fault Refusal :=
  .next (runWord 0x10 wordMts q x s)

/-! ### Conditions and branches (R140) -/

/-- Condition `k`, if it is listed. SLUOK and ONTRK of X4, which has no slot, are free (log entry 4). -/
def condition (s : State) (q x k : Nat) : Option Bool :=
  let c := ctxAt s q x
  let slot (b : Bool) : Bool := if x = 4 then (Config.freeValue s.draws).getLsbD 0 else b
  match k with
  | 0 => some true
  | 1 => some c.z
  | 2 => some c.n
  | 3 => some c.c
  | 4 => some (!c.wakes.isEmpty)
  | 5 => some (!c.resP.isEmpty)
  | 6 => some (!c.resT.isEmpty)
  | 7 => some (seekDone s q)
  | 8 => some c.ppend
  | 9 => some c.late
  | 10 => some (slot (wgPass s (ctxSlot q x)))
  | 11 => some (slot (decide ((srvSlot s (ctxSlot q x)).pct ≤ (getF s Reg.SLU_PESLIM 0 8 : Rat))))
  | _ => none

/-- COND of a word: bit 7 inverts. -/
def condHolds (s : State) (q x w : Nat) : Option Bool :=
  (condition s q x (bitsOf (mwCond w) 0 7)).map fun b => xor b ((mwCond w).testBit 7)

def wordBr : WordMeaning := fun q x w s =>
  match condHolds s q x w with
  | none => (.fault SCause.illop, s)
  | some true => (.goto (mwTarget w), s)
  | some false => (.next, s)

def wordCall : WordMeaning := fun q x w s =>
  match condHolds s q x w with
  | none => (.fault SCause.illop, s)
  | some false => (.next, s)
  | some true =>
    if 8 ≤ (ctxAt s q x).stack.length then (.fault SCause.stack, s)
    else (.goto (mwTarget w), modCtx s q x fun c => { c with stack := (c.pc + 1) % 2 ^ 13 :: c.stack })

def wordRet : WordMeaning := fun q x w s =>
  if bitsOf w 0 21 ≠ 0 then (.fault SCause.illop, s) else
  match (ctxAt s q x).stack with
  | p :: l => (.goto p, modCtx s q x fun c => { c with stack := l })
  | [] => (.fault SCause.stack, s)

/-- WAITC, legal in COMPAT mode only. -/
def wordWaitc : WordMeaning := fun q x w s =>
  if !bit s (Reg.TSQ_CTL q) 1 || mwTarget w != 0 then (.fault SCause.illop, s) else
  match condHolds s q x w with
  | none => (.fault SCause.illop, s)
  | some true => (.waited, s)
  | some false => (.wait, s)

def execBrWord (q : Fin 2) (x : Fin 5) (s : State) : Host.Outcome State Fault Refusal :=
  .next (runWord 0x14 wordBr q x s)
def execCallWord (q : Fin 2) (x : Fin 5) (s : State) : Host.Outcome State Fault Refusal :=
  .next (runWord 0x15 wordCall q x s)
def execRetWord (q : Fin 2) (x : Fin 5) (s : State) : Host.Outcome State Fault Refusal :=
  .next (runWord 0x16 wordRet q x s)
def execWaitcWord (q : Fin 2) (x : Fin 5) (s : State) : Host.Outcome State Fault Refusal :=
  .next (runWord 0x1F wordWaitc q x s)

/-! ### Visible state (R142 to R146) -/

/-- The journal has room for one more item. -/
def journalRoom (s : State) (q x : Nat) : Bool := decide ((ctxAt s q x).journal.length < 32)

/-- Record a change in the journal. -/
def record (q x : Nat) (j : JournalItem) (s : State) : State :=
  modCtx s q x fun c => { c with journal := j :: c.journal }

/-- The entry of an ARM would be late. -/
def armLate (s : State) (surf angle : Nat) : Bool :=
  (decide (surf < 24) || surf == 31) && isLate s (globalAngle s surf angle)

/-- ARM. Where the journal is full and the post would be refused too, R142 and R150 name one cause each and
not which is raised: DESIGN CHOICE (log entry 18), JOVF. -/
def wordArm : WordMeaning := fun q x w s =>
  if x = 4 then (.fault SCause.illop, s)
  else if !journalRoom s q x then (.fault SCause.jovf, s)
  else
    let angle := bitsOf (greg s q x (mwA w)).toNat 0 22
    let arg := bitsOf (greg s q x (mwB w)).toNat 0 16
    let surf := if (mwAux w).testBit 8 then 31 else bitsOf (greg s q x (mwR w)).toNat 0 5
    let action := bitsOf (mwAux w) 0 8
    if (action = 0x01 ∨ action = 0x07) ∧ armLate s surf angle then (.fault SCause.armerr, s) else
    match postEntry (ctxSlot q x) action arg surf angle s with
    | (.ok, id, t) => (.next, record q x (.arm id) (modCtx t q x fun c => { c with late := false }))
    | (.late, id, t) => (.next, record q x (.arm id) (modCtx t q x fun c => { c with late := true }))
    | _ => (.fault SCause.armerr, s)

/-- GATE forces the outputs of slot `n` that `m` names. -/
def gateSlot (n m : Nat) (s : State) : State :=
  let s := if m.testBit 0 then wgDrop n s else s
  let s := if m.testBit 1 then setReadGate n false s else s
  let s := if m.testBit 2 then setReadGate (n + 8) false s else s
  let s := if m.testBit 3 then assistDown n s else s
  let s := if m.testBit 4 then stopLane n s else s
  if m.testBit 5 then stopLane (n + 8) s else s

def wordGate : WordMeaning := fun q x w s =>
  if x = 4 ∨ bitsOf (mwImm w) 6 11 ≠ 0 then (.fault SCause.illop, s)
  else (.next, gateSlot (ctxSlot q x) (mwImm w) s)

def wordLane : WordMeaning := fun q x w s =>
  let f := bitsOf (mwAux w) 0 8
  let t := (mwAux w).testBit 8
  let v := (greg s q x (mwA w)).toNat
  if x = 4 ∨ 4 < f ∨ (f = 1 ∧ (3 < v ∨ (v = 3 ∧ t = true))) then (.fault SCause.illop, s)
  else if !journalRoom s q x then (.fault SCause.jovf, s)
  else
    let n := ctxSlot q x
    (.next, record q x (.lane t f (laneField (laneAt s (laneOf n t)) f)) (setLaneField n t f v s))

def wordDesc : WordMeaning := fun q x w s =>
  let i := mwImm w
  if i.testBit 16 then
    let n := (greg s q x (bitsOf i 0 4)).toNat
    if dCount s q x + dTcount s q x ≤ n then (.fault SCause.illop, s)
    else
      let a := dFtab s q x + 8 * n + (if i.testBit 4 then 4 else 0)
      (.next, setG q x (mwA w) (BitVec.ofNat 32 (sram32 s a)) s)
  else (.next, setG q x (mwA w) (BitVec.ofNat 32 (descWord s q x (bitsOf i 0 4))) s)

def wordPost : WordMeaning := fun q x w s =>
  let c := ctxAt s q x
  let v := greg s q x (mwA w)
  let i := (greg s q x (mwB w)).toNat
  let k := bitsOf (mwAux w) 0 3
  if 3 < k ∨ (k = 0 ∧ dCount s q x + dTcount s q x ≤ i) then (.fault SCause.illop, s)
  else if !journalRoom s q x then (.fault SCause.jovf, s)
  else match k with
    | 0 => (.next, record q x (.sres i (c.result i)) (modCtx s q x fun c => { c with sres := setResult c.sres i (some v) }))
    | 1 => (.next, record q x (.progP c.progP) (modCtx s q x fun c => { c with progP := v.toNat }))
    | 2 => (.next, record q x (.progT c.progT) (modCtx s q x fun c => { c with progT := v.toNat }))
    | _ => (.next, record q x (.note c.note) (modCtx s q x fun c => { c with note := bitsOf v.toNat 0 16 }))

def wordHalt : WordMeaning := fun _ _ w s =>
  (if (mwImm w).testBit 7 then .fault SCause.illop else .halt (bitsOf (mwImm w) 0 8), s)

def execArmWord (q : Fin 2) (x : Fin 5) (s : State) : Host.Outcome State Fault Refusal :=
  .next (runWord 0x18 wordArm q x s)
def execGateWord (q : Fin 2) (x : Fin 5) (s : State) : Host.Outcome State Fault Refusal :=
  .next (runWord 0x19 wordGate q x s)
def execLaneWord (q : Fin 2) (x : Fin 5) (s : State) : Host.Outcome State Fault Refusal :=
  .next (runWord 0x1A wordLane q x s)
def execDescWord (q : Fin 2) (x : Fin 5) (s : State) : Host.Outcome State Fault Refusal :=
  .next (runWord 0x1B wordDesc q x s)
def execPostWord (q : Fin 2) (x : Fin 5) (s : State) : Host.Outcome State Fault Refusal :=
  .next (runWord 0x1C wordPost q x s)
def execHaltWord (q : Fin 2) (x : Fin 5) (s : State) : Host.Outcome State Fault Refusal :=
  .next (runWord 0x1E wordHalt q x s)

/-! ## Microcode images (R157, R158) -/

/-! ### Results of TSQ_LDSTS -/
namespace LdResult
abbrev ok : Nat := 0
abbrev sig : Nat := 1
abbrev size : Nat := 2
abbrev base : Nat := 3
abbrev state : Nat := 4
abbrev hdr : Nat := 5
abbrev cmd : Nat := 6
end LdResult

/-- RESULT of a load or patch, with LDDONE or LDFAIL. -/
def ldResult (r : Nat) (s : State) : State :=
  let s := setBit (setF s Reg.TSQ_LDSTS 1 3 r) Reg.TSQ_LDSTS 0 false
  evt (Reg.TSQ_EVT 0) (if r = 0 then 2 else 3) { s with ucLoad := none }

/-- A load may start: both sequencers stopped and idle, in BOOT or UPDATE. -/
def ldAllowed (s : State) : Bool :=
  ((List.range 2).all fun q => !tsqRun s q && tsqIdle s q) && (mode s == Mode.boot || mode s == Mode.update)

/-- A write of `v` to TSQ_LDCMD. -/
def ldCommand (v : Nat) (s : State) : State :=
  let load := v.testBit 0
  let patch := v.testBit 1
  if bit s Reg.TSQ_LDSTS 0 || !(load || patch) then s
  else if load && patch then ldResult LdResult.cmd s
  else if !ldAllowed s then ldResult LdResult.state s
  else { setBit s Reg.TSQ_LDSTS 0 true with ucLoad := some ⟨patch, bitsOf (rdN s Reg.TSQ_LDSRC) 2 27 * 4⟩ }

def execLoadImage (s : State) : Host.Outcome State Fault Refusal := .next (busOk (ldCommand 1 s))
def execPatchImage (s : State) : Host.Outcome State Fault Refusal := .next (busOk (ldCommand 2 s))

/-- NWORDS of an image. -/
def imageWords (g : Image) : Nat := Image.le g 0x0A 2

/-- Payload word `i` of an image. -/
def imageWord (g : Image) (i : Nat) : Word := BitVec.ofNat 32 (Image.le g (64 + 4 * i) 4)

/-- The records of a patch payload from word `i` of `n`: first address, count and payload place of
each; nothing where a record runs past the end or past microword 8,191. -/
def patchRecords (g : Image) (n : Nat) : Nat → Nat → Option (List (Nat × Nat × Nat))
  | 0, _ => some []
  | fuel + 1, i =>
    if n ≤ i then some [] else
    let h := (imageWord g i).toNat
    let first := bitsOf h 0 13
    let k := bitsOf h 16 13
    if n < i + 1 + k ∨ 8192 < first + k then none
    else (patchRecords g n fuel (i + 1 + k)).map fun l => (first, k, i + 1) :: l

/-- Copy `k` payload words from place `i` to microwords from `p` on. -/
def copyWords (g : Image) : Nat → Nat → Nat → List (Nat × Word) → List (Nat × Word)
  | 0, _, _, m => m
  | k + 1, p, i, m => copyWords g k (p + 1) (i + 1) (sput zeroDflt m p (imageWord g i))

/-- The check of an image (a patch or a full one): the first failure of R158, or OK. R158 names
TSQ_CTL.COMPAT without a sequencer: DESIGN CHOICE (log entry 18), that of TSQA, where the load is started. -/
def imageCheck (s : State) (g : Image) (patch : Bool) : Nat :=
  let n := imageWords g
  let compat := (g 9).testBit 0
  let total := 64 + 4 * n
  if Image.le g 0 4 ≠ 0x4D515354 ∨ g 8 ≠ (if patch then 1 else 0) ∨ compat ≠ bit s (Reg.TSQ_CTL 0) 1 then
    LdResult.hdr
  else if (if patch then decide (1024 < n) || (patchRecords g n n 0).isNone else decide (8192 < n)) then LdResult.size
  else if patch ∧ Image.le g 12 4 ≠ putBits (rdN s (Reg.TSQ_UCVER 0)) 8 8 0 then LdResult.base
  else if (signingKey s (Image.bytes g 0 total) (Image.bytes g total 384)).isNone then LdResult.sig
  else LdResult.ok

/-- The microcode after a load or patch. -/
def imageApply (s : State) (g : Image) (patch : Bool) : List (Nat × Word) :=
  let n := imageWords g
  if patch then
    ((patchRecords g n n 0).getD []).foldl (fun m r => copyWords g r.2.1 r.1 r.2.2 m) s.microcode
  else copyWords g n 0 0 []

/-- TSQ_UCVER after a load or patch. -/
def imageVersion (s : State) (g : Image) (patch : Bool) : Nat :=
  let v := Image.le g 4 4
  if patch then putBits (rdN s (Reg.TSQ_UCVER 0)) 8 8 (bitsOf v 8 8) else v

/-- A checked image goes into both sequencers. -/
def imageInstall (g : Image) (patch : Bool) (s : State) : State :=
  let v := imageVersion s g patch
  let t := wrN (wrN { s with microcode := imageApply s g patch } (Reg.TSQ_UCVER 0) v) (Reg.TSQ_UCVER 1) v
  { t with tsq := t.tsq.map fun t => { t with loaded := true } }

/-- LDDONE: the check of the image ends. -/
def lddone (s : State) : State :=
  match s.ucLoad with
  | none => s
  | some u =>
    let g := sramImage s u.source
    let r := imageCheck s g u.patch
    if r ≠ 0 then ldResult r s else ldResult 0 (imageInstall g u.patch s)

def execLddone (s : State) : Host.Outcome State Fault Refusal := .next (lddone s)

/-- TSQ_CTL_WRITE: COMPAT is taken only while RUN = 0 and IDLE = 1 (R159). -/
def tsqCtlWrite (q v : Nat) (s : State) : State :=
  let compat := if !tsqRun s q && tsqIdle s q then bitsOf v 1 1 else getF s (Reg.TSQ_CTL q) 1 1
  wrN s (Reg.TSQ_CTL q) (bitsOf v 0 1 + 2 * compat + 4 * bitsOf v 2 1)

def execTsqCtlWrite (q : Fin 2) (value : Word) (s : State) : Host.Outcome State Fault Refusal :=
  .next (busOk (tsqCtlWrite q value.toNat s))

end Sys2Proof.Machine
end

