-- ==== Sys2Proof/Machine/Zones.lean ====
section
/-! DEFINITION. The commands of chapter 2: band tables and their checks, the layout check, zone
commands, slip acknowledgement and the translation of LBAs. -/

namespace Sys2Proof.Machine

/-- ZTB_CTL.EN. -/
def ztbEn (s : State) : Bool := bit s Reg.ZTB_CTL 0

/-! ## Band tables (R32 to R35) -/

/-- The bits of an entry that are not reserved (R33). -/
def btMask : Nat :=
  (2 ^ 24 - 1) + (2 ^ 24 - 1) * 2 ^ 32 + (2 ^ 32 - 1) * 2 ^ 64 + (2 ^ 9 - 1) * 2 ^ 96
    + (2 ^ 10 - 1) * 2 ^ 112 + (2 ^ 50 - 1) * 2 ^ 126 + (2 ^ 16 - 1) * 2 ^ 224

/-- BAND_TABLE_WRITE: a write of word `i` of the selected entry, ignored while EN = 1. -/
def btWrite (i v : Nat) (s : State) : State :=
  if ztbEn s then evt Reg.ZTB_EVT 3 s else
  match btSelected s with
  | none => s
  | some k =>
    let e := Nat.land (putBits (sget btDflt s.ztb.staged k) (32 * i) 32 v) btMask
    modZtb s fun t => { t with staged := sput btDflt t.staged k e }

def execBandTableWrite (word : Fin 8) (value : Word) (s : State) : Host.Outcome State Fault Refusal :=
  .next (busOk (btWrite word value.toNat s))

/-- Check 1 of R34 on entry `n`: ranges, BPR, and FIRSTTRK of entry 0. -/
def btCheck1 (w n e : Nat) : Bool :=
  decide (48 ≤ btRspre e ∧ btRspre e ≤ 128 ∧ 32 ≤ btGap e ∧ btGap e ≤ 128
    ∧ 8 ≤ btSyncwin e ∧ btSyncwin e ≤ 64 ∧ 1 ≤ btSpt e ∧ btSpt e ≤ 1023
    ∧ 96 ≤ btPre e ∧ btPre e ≤ 256 ∧ btPre e % 8 = 0
    ∧ btBpr e ≠ 0 ∧ w ≠ 0 ∧ btBpr e % w = 0 ∧ (n = 0 → btFirst e = 0))

/-- Check 2: at most 6.4 Gbit/s at the nominal speed. -/
def btCheck2 (rpm e : Nat) : Bool := decide (btBpr e * rpm ≤ 6400000000 * 60)

/-- Check 3 on entry `n` of a table: contiguous, with one guard track between the regions. -/
def btCheck3 (t : List Nat) (n : Nat) : Bool :=
  if n = 0 then true else
  let p := t.getD (n - 1) 0
  let e := t.getD n 0
  btFirst e == btFirst p + btNtrk p + (if btKind p = 1 ∧ btKind e = 0 then 1 else 0)

/-- Entry `n` of a table exists and is conventional. -/
def btConv (t : List Nat) (n : Nat) : Bool := decide (n < t.length) && btKind (t.getD n 0) == 1

/-- Check 4 on place `n` of a table against surface 0's table `t0`. -/
def btCheck4 (t0 t : List Nat) (n : Nat) : Bool :=
  let e := t.getD n 0
  let e0 := t0.getD n 0
  (n != 0 || btConv t 0)
    && (!btConv t n || (List.range n).all (btConv t))
    && (btConv t n == btConv t0 n)
    && (!btConv t n || (btNtrk e == btNtrk e0 && btSpt e == btSpt e0 && btBpr e == btBpr e0))

/-- Check 5: at most 4 fragments a frame, and ENDMIN bits unused. -/
def btCheck5 (s : State) (e : Nat) : Bool :=
  let fs := trackFrames (shapeOf s e)
  fs.all (fun f => decide (f.frags ≤ 4))
    && fs.all (fun f => decide (f.padEnd + btEndmin e + (shapeOf s e).lead ≤ btBpr e))

/-- Check 6 on entry `n` of the table of surface `f`: at the first and at the last track of a shingled
band (R52). -/
def btCheck6 (f : Nat) (t : List Nat) (n : Nat) : Bool :=
  let e := t.getD n 0
  btKind e == 1
    || (pitchNear (btPitch e) (readerOffsetAt f t (btFirst e))
      && pitchNear (btPitch e) (readerOffsetAt f t (btFirst e + btNtrk e - 1)))

/-- Check `c` of R34 on entry `n` of surface `f`'s staged table. -/
def btCheck (s : State) (c f n : Nat) : Bool :=
  let t := btTable s.ztb.staged f
  let e := t.getD n 0
  match c with
  | 1 => btCheck1 (wedges s) n e
  | 2 => btCheck2 s.sys.rpm e
  | 3 => btCheck3 t n
  | 4 => btCheck4 (btTable s.ztb.staged 0) t n
  | 5 => btCheck5 s e
  | _ => btCheck6 f t n

/-- The places that check `c` looks at on surface `f`. Check 4 also looks at entry 0 of an empty
table and at the places of surface 0's conventional entries. -/
def btPlaces (s : State) (c f : Nat) : List Nat :=
  let k := (btTable s.ztb.staged f).length
  List.range (if c = 4 then max 1 (max k ((btTable s.ztb.staged 0).takeWhile fun e => btKind e == 1).length) else k)

/-- The first failure in the order of R34: check, surface, entry. -/
def btFailure (s : State) : Option (Nat × Nat × Nat) :=
  [1, 2, 3, 4, 5, 6].findSome? fun c => (List.range (numSurfaces s)).findSome? fun f =>
    ((btPlaces s c f).find? fun n => !btCheck s c f n).map fun n => (c, f, n)

/-- BTLOAD_GO. -/
def btLoad (s : State) : State :=
  if ztbEn s then evt Reg.ZTB_EVT 3 s else
  match btFailure s with
  | some (c, f, n) => evt Reg.ZTB_EVT 4 (wrN s Reg.ZTB_BTERR (c + 2 ^ 4 * n + 2 ^ 16 * f))
  | none =>
    let s := modZtb (wrN s Reg.ZTB_BTERR 0) fun t => { t with bands := t.staged }
    wr64 (setBit s Reg.ZTB_STS 1 true) Reg.ZTB_CONVCAP (convCapacity (numSurfaces s) (convEntries s))

def execBtloadGo (s : State) : Host.Outcome State Fault Refusal := .next (busOk (btLoad s))

/-- NZONE_WRITE (R56). -/
def nzoneWrite (v : Nat) (s : State) : State :=
  if 524288 < bitsOf v 0 20 then evt Reg.ZTB_EVT 4 s else wrN s Reg.ZTB_NZONE (bitsOf v 0 20)

def execNzoneWrite (value : Word) (s : State) : Host.Outcome State Fault Refusal :=
  .next (busOk (nzoneWrite value.toNat s))

/-! ## The zone engine's enable (R547) -/

/-- A write of `v` to ZTB_CTL. A rise of EN starts the layout check; ZSZ may be written only while
EN = 0, and a write with ZSZ = 3 is ignored whole. -/
def ztbCtlWrite (v : Nat) (s : State) : State :=
  if bitsOf v 1 2 = 3 then s
  else if ztbEn s then
    if v.testBit 0 then s else setBit (setBit s Reg.ZTB_CTL 0 false) Reg.ZTB_STS 0 false
  else
    let s := setF s Reg.ZTB_CTL 1 2 (bitsOf v 1 2)
    modZtb s fun t => { t with layoutCheck := v.testBit 0 }

/-- ZONE_ENGINE_ENABLE: a write of 1 to EN. -/
def zoneEngineEnable (s : State) : State :=
  if ztbEn s then s else modZtb s fun t => { t with layoutCheck := true }

def execZoneEngineEnable (s : State) : Host.Outcome State Fault Refusal :=
  .next (busOk (zoneEngineEnable s))

/-- A shingled entry of surface `f` covers track `t`. -/
def shingledTrack (s : State) (f t : Nat) : Bool :=
  match bandOfTrack s f t with
  | some e => btKind e == 0
  | none => false

/-- The zone of terrace `i` on surface `f` fits, with its guard track (R547). -/
def zoneFits (s : State) (i f : Nat) : Bool :=
  let t0 := terraceTrack s i f
  let next := terraceTrack s (i + 1) f
  let more := decide (i + 1 < getF s Reg.ZTB_NTER 0 20)
  match walkTracks (bandTable s f) t0 (zcap s + zoneSpares - 1) with
  | none => false
  | some (t, _) =>
    shingledTrack s f t0 && shingledTrack s f (t + 1) && (!more || decide (t0 < next ∧ t + 1 < next))

/-- The layout check of R547. -/
def layoutOk (s : State) : Bool :=
  let nter := getF s Reg.ZTB_NTER 0 20
  bit s Reg.ZTB_STS 1 && (numZones s == nter * numSurfaces s)
    && (List.range nter).all fun i => (List.range (numSurfaces s)).all fun f => zoneFits s i f

/-- ZTB_ACTZ counts the active and open zones of the zone table. -/
def countZones (s : State) : State :=
  let states := (List.range (numZones s)).map (zState s)
  wrN s Reg.ZTB_ACTZ ((states.filter zActive).length + 256 * (states.filter zOpen).length)

/-- LAYOUT_CHECK_END. -/
def layoutCheckEnd (s : State) : State :=
  if !s.ztb.layoutCheck then s else
  let s := modZtb s fun t => { t with layoutCheck := false }
  if layoutOk s then countZones (setBit (setBit s Reg.ZTB_CTL 0 true) Reg.ZTB_STS 0 true)
  else evt Reg.ZTB_EVT 7 s

def execLayoutCheckEnd (s : State) : Host.Outcome State Fault Refusal := .next (layoutCheckEnd s)

/-! ## Zone commands (R66, R129) -/

/-! ### Results -/
namespace ZcmdResult
abbrev ok : Nat := 0
abbrev badZone : Nat := 1
abbrev badState : Nat := 2
abbrev inUse : Nat := 3
abbrev badOp : Nat := 4
abbrev notRun : Nat := 5
end ZcmdResult

/-- A command on sectors of the zone has been taken up and has not completed; a read or a verify that runs
on into it counts (R237). -/
def zoneInUse (s : State) (z : Nat) : Bool :=
  s.nqe.cmds.any fun c => c.media && c.phase != .fetched && c.opcode != IoOp.zoneSend
    && (cmdZones s c).contains z

/-- The check of R66 that a command fails first. -/
def zcmdCheck (s : State) (z op st : Nat) : Nat :=
  if !ztbEn s then ZcmdResult.notRun
  else if op ≠ 1 ∧ op ≠ 2 then ZcmdResult.badOp
  else if numZones s ≤ z then ZcmdResult.badZone
  else if op = 1 ∧ zStateLegal st = false then ZcmdResult.badState
  else if zoneInUse s z then ZcmdResult.inUse
  else ZcmdResult.ok

/-- SPEC buffers whose tag names zone `z` of NSID 2 are given up (R130). -/
def dropSpec (z : Nat) (s : State) : State :=
  ((s.cis.owners.map Prod.fst).filter fun i => isSpec s i && sram32 s (tagAddr i + 8) == z + 2 ^ 31).foldl
    (fun s i => pushFree i s) s

/-- A zone's retained buffers are released and its attempt counts cleared. -/
def releaseZone (z : Nat) (s : State) : State :=
  let w := workAt s z
  let s := freeAll Owner.retain (w.tail.filterMap TailSector.buf ++ w.queue.map Assigned.buf) s
  modWork z (fun w => ⟨w.zone, 0, [], [], [], false, false, false, 0, 0, 0⟩) s

/-- RESET of zone `z` takes effect. -/
def resetZone (z : Nat) (s : State) : State :=
  let s := dropSpec z (releaseZone z s)
  if zEpoch s z = 0xFFFFFFFF then evt Reg.ZTB_EVT 6 (setZoneState z zOffline s)
  else
    let s := setTailu z false (setRptr z 0 (setCptr z 0 s))
    setZoneState z zEmpty (setEpoch z (zEpoch s z + 1) s)

/-- SET_STATE of zone `z` takes effect; a Full zone's remaining sectors are sealed (R110). -/
def applyState (z st : Nat) (s : State) : State :=
  let s := enterZoneState z st s
  if st = zFull then sealSectors z (fun _ => true) s else s

/-- A context runs or holds operation `op` of zone `z`. -/
def zoneOp (s : State) (z op : Nat) : Bool :=
  (List.range 10).any fun i =>
    let c := ctxAt s (i / 5) (i % 5)
    let hit (d : Nat) : Bool := bitsOf (sram32 s d) 0 8 == op && bitsOf (sram32 s (d + 20)) 0 20 == z
      && (sram32 s (d + 20)).testBit 31
    (c.busy && hit c.desc) || c.queue.any fun d => hit d.offset

/-- What the command waits for has ended: for Full, every written sector is committed, none is left to be
written again, and CPTR has reached RPTR; for RESET, no TAIL_VERIFY or TAIL_RELOAD of the zone remains. -/
def zcmdReady (s : State) (c : ZoneCommand) : Bool :=
  if c.reset then !zoneOp s c.zone 4 && !zoneOp s c.zone 5
  else c.newState != zFull
    || ((workAt s c.zone).tail.all TailSector.committed && (workAt s c.zone).queue.isEmpty
      && zCptr s c.zone == zRptr s c.zone && !zoneOp s c.zone 3 && !zoneOp s c.zone 4)

/-- A zone command takes effect and ends. -/
def zcmdFinish (c : ZoneCommand) (s : State) : State :=
  let s := modZtb s fun t => { t with zcmd := none }
  wrN (if c.reset then resetZone c.zone s else applyState c.zone c.newState s) Reg.ZTB_ZCMDSTS 0

/-- A write to ZTB_ZCMD. -/
def zcmdWrite (z op st : Nat) (s : State) : State :=
  if bit s Reg.ZTB_ZCMDSTS 0 then s else
  let r := zcmdCheck s z op st
  if r ≠ 0 then wrN s Reg.ZTB_ZCMDSTS (2 * r) else
  let c : ZoneCommand := ⟨z, op == 2, st⟩
  if zcmdReady s c then zcmdFinish c s
  else modZtb (wrN s Reg.ZTB_ZCMDSTS 1) fun t => { t with zcmd := some c }

def execSetState (zone : BitVec 20) (state : BitVec 4) (s : State) : Host.Outcome State Fault Refusal :=
  .next (busOk (zcmdWrite zone.toNat 1 state.toNat s))

def execZcmdReset (zone : BitVec 20) (s : State) : Host.Outcome State Fault Refusal :=
  .next (busOk (zcmdWrite zone.toNat 2 0 s))

/-- ZONE_COMMAND_END: the command that waited ends. -/
def zcmdEnd (s : State) : State :=
  match s.ztb.zcmd with
  | none => s
  | some c => if zcmdReady s c then zcmdFinish c s else s

def execZoneCommandEnd (s : State) : Host.Outcome State Fault Refusal := .next (zcmdEnd s)

/-! ## Slips (R59) -/

/-- SLACK: the oldest pending slip is acknowledged; another index is ignored. -/
def slack (i : Nat) (s : State) : State :=
  match s.ztb.slpend with
  | [] => s
  | p :: l =>
    if p.pool = i then updateCptr p.zone (showSlpend (modZtb s fun t => { t with slpend := l })) else s

def execSlack (index : BitVec 20) (s : State) : Host.Outcome State Fault Refusal :=
  .next (busOk (slack index.toNat s))

/-! ## Translation (R57, R58, R62) -/

/-- MAPIN: a translation starts, in place of one that runs. -/
def mapin (v : Nat) (s : State) : State :=
  let s := wr64 s Reg.ZTB_MAPIN (bitsOf v 0 40 + 2 ^ 63 * bitsOf v 63 1)
  let s := setBit (setBit s (Reg.ZTB_MAPOUT + 4) 31 false) Reg.ZTB_STS 2 true
  modZtb s fun t => { t with mapping := some (bitsOf v 0 40, v.testBit 63) }

def execMapin (value : DWord) (s : State) : Host.Outcome State Fault Refusal :=
  .next (busOk (mapin value.toNat s))

/-- Where an LBA lies: surface, track and sector; nothing outside both namespaces and on an
Offline zone. -/
def placeOf (s : State) (lba : Nat) (zoned : Bool) : Option (Nat × Nat × Nat) :=
  if zoned then
    let z := zoneOfLba s lba
    if numZones s ≤ z ∨ zState s z = zOffline then none
    else (zonePlace s z (zoneToPhys s z (offsetOfLba s lba))).map fun p => (zoneSurface s z, p.1, p.2)
  else convPlace s lba

/-- MAP_DONE: the translation ends. Where it ends with ERR the place is a free value (log entry 4). -/
def mapDone (s : State) : State :=
  match s.ztb.mapping with
  | none => s
  | some (lba, zoned) =>
    let s := setBit (modZtb s fun t => { t with mapping := none }) Reg.ZTB_STS 2 false
    let conv := if zoned then 0 else 2 ^ 62
    match placeOf s lba zoned with
    | some (f, t, k) => wr64 s Reg.ZTB_MAPOUT (t + 2 ^ 24 * k + 2 ^ 34 * f + conv + 2 ^ 63)
    | none =>
      let (v, s) := drawFree 39 s
      wr64 s Reg.ZTB_MAPOUT (v + 2 ^ 61 + conv + 2 ^ 63)

def execMapDone (s : State) : Host.Outcome State Fault Refusal := .next (mapDone s)

end Sys2Proof.Machine
end

