-- ==== Sys2Proof/Machine/Builder.lean ====
section
/-! DEFINITION. The track-operation builder (chapter 4): what it issues and when, the write guard mode,
zone recovery, and what each track operation does on its lanes and queue. -/

namespace Sys2Proof.Machine

/-! ## What the builder may issue (R85, R96, R114, R118, R136, R451) -/

/-- The sequencer that serves a plan. -/
def planSeq (s : State) (p : RunPlan) : Nat := surfaceAct s p.surface

/-- The band-table entry of a plan's track and its number. -/
def planBand (s : State) (p : RunPlan) : Option (Nat × Nat) :=
  ((bandTable s p.surface).findIdx? fun e => btCovers e p.track.toNat).map fun b =>
    (b, (bandTable s p.surface).getD b 0)

/-- A request that leaves READY or ACTIVE waits for the running operations (R423). -/
def leaving (s : State) : Bool :=
  match s.sys.target with
  | some t => t != Mode.ready && atMode s Mode.ready
  | none => false

/-- Slots that run WRITE_RUN or PREBIAS. -/
def writingSlots (s : State) : Nat :=
  ((List.range 10).filter fun i => writing s (i / 5) (i % 5)).length

/-- The builder serves the plan's context now: FPEN, room in the queue, the actuator and the slot in
service, a track that a band covers, and no request that waits to leave READY. -/
def planServed (s : State) (p : RunPlan) : Bool :=
  let q := planSeq s p
  bit s (Reg.TSQ_CTL q) 2 && !queueFull s q p.ctx && usable s q && opAllowed p.op p.ctx p.ctx
    && decide (p.surface.val < numSurfaces s) && (p.ctx.val == 4 || inService s (ctxSlot q p.ctx))
    && (p.op.val == 7 || (planBand s p).isSome) && atMode s Mode.ready && !leaving s

/-- The head under a plan may write: its bucket has not stopped writes, and the throttle ladder
allows one more writing slot. -/
def mayWrite (s : State) (p : RunPlan) : Bool :=
  let i := headIndex (planSeq s p) (surfaceHead s p.surface)
  !s.dbStop.getD i false && decide (writingSlots s < getF s Reg.THM_CAPS 4 4)

/-- The retention budget allows the run (R114). The sectors of a run of NSID 1 are among those that
`beginWrite` keeps within 4,528. -/
def budgetOk (s : State) (p : RunPlan) : Bool :=
  decide (getF s Reg.ZTB_RETUSE 0 16 + p.count.toNat ≤ getF s Reg.ZTB_RETBUD 0 16)

/-- The buffer of the data at offset `o` of zone `z` that has not been written. -/
def queuedBuf (s : State) (z o : Nat) : Option Nat :=
  ((workAt s z).queue.find? fun a => a.offset == o).map Assigned.buf

/-- The buffer of an NSID 1 sector that waits for its verify, or, where none of its LBA does, that has not
been written. -/
def convBuf (s : State) (lba : Nat) (written : Bool) : Option Nat :=
  if !written && s.ztb.conv.any (fun c => c.lba == lba && c.written) then none
  else (s.ztb.conv.find? fun c => c.lba == lba && c.written == written).map ConvSector.buf

/-- The first LBA of a plan in NSID 1. -/
def planLba (s : State) (p : RunPlan) : Nat := (convLba s p.surface p.track.toNat p.first.toNat).getD 0

/-- The primary buffers of a WRITE_RUN, or of a conventional verify, from retention; nothing where
a sector is not assigned. -/
def planRetained (s : State) (p : RunPlan) : Option (List Nat) :=
  (List.range p.count.toNat).mapM fun i =>
    if p.zoned then queuedBuf s p.zone.toNat (zRptr s p.zone.toNat + i)
    else convBuf s (planLba s p + i) (p.op.val == 1)

/-- The track of a plan's trailing lane. -/
def planTrail (p : RunPlan) : Nat := if p.op.val = 4 then p.track.toNat else p.track.toNat - 1

/-- Sector `k` of a track of `spt` sectors is among `n` sectors from sector `first` on. -/
def inRun (spt first n k : Nat) : Bool := decide ((k + spt - first % spt) % spt < n)

/-- Every tail sector of the zone that lies on track `t` and that `which` names is among `n` sectors from
sector `first` on. -/
def coversTail (s : State) (z t first n : Nat) (which : TailSector → Bool) : Bool :=
  (workAt s z).tail.all fun u =>
    !which u || match zonePlace s z u.phys with
      | some (v, k) => v != t || inRun (trackSpt s (zoneSurface s z) t) first n k
      | none => true

/-- A tail sector of the zone lies on track `t`. -/
def tailOn (s : State) (z t : Nat) : Bool :=
  (workAt s z).tail.any fun u => (zonePlace s z u.phys).map Prod.fst == some t

/-- The trailing reads of a WRITE_RUN cover every unsealed sector of the track before (R103, R106). There
are none under INHIBIT (R116), in NSID 1 and where no sector of that track is unsealed (R124). -/
def trailPlaced (s : State) (p : RunPlan) : Bool :=
  let z := p.zone.toNat
  if p.zoned && guardMode s != 0 && tailOn s z (planTrail p) then
    coversTail s z (planTrail p) p.tfirst.toNat p.tcount.toNat fun _ => true
  else p.tcount.toNat == 0

/-- A WRITE_RUN continues its zone at RPTR, on one track and over no slip, with every sector
assigned; one of NSID 1 has every sector assigned. A zone with TAILU or a zone command waits; a SET_STATE
to Full lets the rewrite of failed sectors go on (R129). A Closed zone is not open to the Sluice's target
check (R412), and R123 does not say how its rewrite goes on: DESIGN CHOICE (log entry 21), it waits until
the zone is opened again. -/
def writePlaced (s : State) (p : RunPlan) : Bool :=
  let z := p.zone.toNat
  let r := zRptr s z
  let n := p.count.toNat
  decide (0 < n) && (planRetained s p).isSome
    && (match planBand s p with
        | some (_, e) => decide (p.first.toNat + n ≤ btSpt e)
        | none => false)
    && (!p.zoned ||
      (zonePlace s z (zoneToPhys s z r) == some (p.track.toNat, p.first.toNat)
        && zoneToPhys s z (r + n - 1) == zoneToPhys s z r + n - 1
        && zoneSurface s z == p.surface && !zTailu s z && zOpen (zState s z)
        && s.ztb.zcmd.all fun c => c.zone != z || !c.reset))

/-- PAIRED_READ of tracks N and N + 1 (R85): one shingled band with PAIR = 1, one zone, and paired
read not removed. -/
def pairOk (s : State) (p : RunPlan) : Bool :=
  let q := planSeq s p
  match planBand s p with
  | none => false
  | some (b, e) =>
    p.zoned && btKind e == 0 && btCovers e (p.track.toNat - 1) && decide (0 < p.track.toNat)
      && pairAllowed s (headBand s q (surfaceHead s p.surface) b)
      && zoneOfTrack s p.surface p.track.toNat == some p.zone.toNat
      && zoneOfTrack s p.surface (p.track.toNat - 1) == some p.zone.toNat
      && !bit s Reg.THM_CAPS 1

/-- Sector `k` of track `t` of a plan's zone is requested: a host read or a copy waits for it (R85). -/
def requested (s : State) (p : RunPlan) (t k : Nat) : Bool :=
  let z := p.zone.toNat
  match sectorOffset s z t k with
  | none => false
  | some o => s.nqe.cmds.any (wantsRead 2 (zoneStart s z + o)) || rwWants s z o || (streamWants s z o).isSome

/-- One of `n` sectors from sector `first` of track `t` is requested. -/
def requestedOn (s : State) (p : RunPlan) (t first n : Nat) : Bool :=
  (List.range n).any fun i => requested s p t ((first + i) % trackSpt s p.surface t)

/-- The `n` sectors from sector `first` of track `t` of a plan's zone lie below CPTR, as every sector read
for the host or ahead (R101, R130). -/
def readBelow (s : State) (p : RunPlan) (t first n : Nat) : Bool :=
  let z := p.zone.toNat
  (List.range n).all fun i =>
    match zonePhys s z t ((first + i) % trackSpt s p.surface t) with
    | some x => decide (zoneToLogical s z x < zCptr s z)
    | none => false

/-- A plan reads for a conventional verify (log entry 9). -/
def convVerify (p : RunPlan) : Bool := p.op.val == 1 && !p.zoned && p.arg.getLsbD 0

/-- READ_RUN: sectors of a zone below CPTR; a conventional verify is made under VERIFY and BOTH alone, of
sectors that have been written (R111, R116). -/
def readOk (s : State) (p : RunPlan) : Bool :=
  if p.zoned then readBelow s p p.track.toNat p.first.toNat p.count.toNat
  else !convVerify p || (guardMode s != 0 && (planRetained s p).isSome)

/-- PAIRED_READ reads sectors below CPTR, and each of its tracks holds a requested one (R85). -/
def pairedOk (s : State) (p : RunPlan) : Bool :=
  let n := p.track.toNat
  pairOk s p && readBelow s p n p.first.toNat p.count.toNat
    && readBelow s p (n - 1) p.tfirst.toNat p.tcount.toNat
    && requestedOn s p n p.first.toNat p.count.toNat && requestedOn s p (n - 1) p.tfirst.toNat p.tcount.toNat

/-! ### TAIL_VERIFY (R107, R108) -/

/-- The track of the sector below RPTR: the last written track of the zone. -/
def lastTrack (s : State) (z : Nat) : Option Nat :=
  if zRptr s z = 0 then none else (zonePlace s z (zoneToPhys s z (zRptr s z - 1))).map Prod.fst

/-- No write to the zone has been fetched for IDLE µs. -/
def tailIdle (s : State) (z : Nat) : Bool :=
  decide ((workAt s z).fetchedAt + 1000 * getF s Reg.ZTB_TVCFG 0 16 ≤ s.clock)

/-- The oldest unverified sector of the zone was written MAXAGE ms ago. -/
def tailOld (s : State) (z : Nat) : Bool :=
  (workAt s z).tail.any fun t =>
    !t.committed && decide (t.written + 1000000 * getF s Reg.ZTB_TVCFG 16 8 ≤ s.clock)

/-- A SET_STATE to Full of the zone waits for its verification (R129). -/
def fullPends (s : State) (z : Nat) : Bool :=
  s.ztb.zcmd.any fun c => c.zone == z && !c.reset && c.newState == zFull

/-- A TAIL_VERIFY of the zone is due. -/
def tailDue (s : State) (z : Nat) : Bool :=
  guardMode s != 0 && zActive (zState s z) && decide (zCptr s z < zRptr s z) && !zoneOp s z 3
    && (tailIdle s z || tailOld s z || fullPends s z)

/-- A TAIL_VERIFY moves the head one PITCH toward the unwritten side and reads every unverified sector of the
last written track. -/
def tailOk (s : State) (p : RunPlan) : Bool :=
  let z := p.zone.toNat
  p.zoned && tailDue s z && lastTrack s z == some p.track.toNat && zoneSurface s z == p.surface
    && (match planBand s p with
        | some (_, e) => p.target.toNat == btPitch e
        | none => false)
    && coversTail s z p.track.toNat p.tfirst.toNat p.tcount.toNat fun t => !t.committed

/-! ### TAIL_RELOAD (R113, R127) -/

/-- The unsealed sectors of a zone whose retention was lost, by track and sector: the written ones of its
last written track N, and those of track N - 1 that track N does not cover (R113). -/
def unsealed (s : State) (z : Nat) : List (Nat × Nat) :=
  match lastTrack s z with
  | none => []
  | some n =>
    let r := zRptr s z
    ((List.range (min r 2048)).filterMap fun i => zonePlace s z (zoneToPhys s z (r - 1 - i))).filter fun a =>
      a.1 == n || (a.1 + 1 == n && !isCovered s z a.1 a.2)

/-- Those that are not in retention yet. -/
def toReload (s : State) (z : Nat) : List (Nat × Nat) :=
  (unsealed s z).filter fun a =>
    !((workAt s z).tail.any fun t => zonePhys s z a.1 a.2 == some t.phys)

/-- A fetched write waits for the zone's TAIL_RELOAD. -/
def awaitsReload (s : State) (z : Nat) (c : HostCmd) : Bool :=
  c.io && c.phase == .fetched && writesZone s z c

/-- A TAIL_RELOAD reads every unsealed sector of the tracks N and N - 1 in one revolution where the band's
head-band entry has PAIR = 1; else one of the two tracks, as a READ_RUN of it does. -/
def reloadPlaced (s : State) (p : RunPlan) : Bool :=
  let z := p.zone.toNat
  let t := p.track.toNat
  let spt := trackSpt s p.surface t
  let all := toReload s z
  let on := all.filter fun a => a.1 == t
  let before := all.filter fun a => a.1 + 1 == t
  let pair := match planBand s p with
    | some (b, _) => pairAllowed s (headBand s (planSeq s p) (surfaceHead s p.surface) b)
    | none => false
  p.zoned && zTailu s z && zoneSurface s z == p.surface && s.nqe.cmds.any (awaitsReload s z)
    && on.all (fun a => inRun spt p.first.toNat p.count.toNat a.2)
    && (if pair then
          lastTrack s z == some t
            && before.all (fun a => inRun (trackSpt s p.surface (t - 1)) p.tfirst.toNat p.tcount.toNat a.2)
        else p.tcount.toNat == 0 && (!on.isEmpty || all.isEmpty))

/-! ### SCAN (R492, R494) -/

/-- Conventional tracks of all surfaces. -/
def convTracks (s : State) : Nat :=
  ((convEntries s).map fun e => numSurfaces s * btNtrk e).foldl (· + ·) 0

/-- Patrol reads zone `z`. -/
def patrolZone (s : State) (z : Nat) : Bool :=
  zState s z != zEmpty && zState s z != zOffline && decide (0 < zCptr s z)
    && usable s (surfaceAct s (zoneSurface s z))
    && !(bit s Reg.ZTB_RWSTS 0 && (z == getF s Reg.ZTB_RWSRC 0 20 || z == getF s Reg.ZTB_RWTGT 0 20))

/-- The tracks of zone `z` through the one that holds offset CPTR - 1. -/
def patrolTracks (s : State) (z : Nat) : Nat :=
  match zonePlace s z (zoneToPhys s z (zCptr s z - 1)) with
  | some (t, _) => t + 1 - zoneFirstTrack s z
  | none => 0

/-- The surface and the track of conventional index `i` (R62). -/
def convIndexPlace (ns : Nat) : List Nat → Nat → Option (Nat × Nat)
  | [], _ => none
  | e :: l, i =>
    if i < ns * btNtrk e then some (i % ns, btFirst e + i / ns) else convIndexPlace ns l (i - ns * btNtrk e)

/-- The surface and the track that ZTB_PTPOS names. -/
def patrolPlace (s : State) : Option (Nat × Nat) :=
  let p := rd64 s Reg.ZTB_PTPOS
  if p.testBit 63 then convIndexPlace (numSurfaces s) (convEntries s) (bitsOf p 0 24)
  else some (zoneSurface s (bitsOf p 0 20), zoneFirstTrack s (bitsOf p 0 20) + bitsOf p 32 16)

/-- Sector `k` of the patrolled track is the one after the last that patrol reads: the track ends, or the
zone is not committed up to it. -/
def patrolStops (s : State) (p : RunPlan) (k : Nat) : Bool :=
  k == trackSpt s p.surface p.track.toNat || (p.zoned && !readBelow s p p.track.toNat k 1)

/-- A SCAN reads what is left of the track at ZTB_PTPOS, in READY with nothing else to do: no media command
has been fetched for IDLE ms, the mirror has no work, and the duty of this second is not used up. -/
def scanOk (s : State) (p : RunPlan) : Bool :=
  let r := rd64 s Reg.ZTB_PTPOS
  bit s Reg.ZTB_PTCTL 0 && mode s == Mode.ready && mediaIdle s (getF s Reg.ZTB_PTCTL 16 16) && !mirrorWork s
    && decide (patrolUsed s < dutyWindow / 100 * getF s Reg.ZTB_PTCTL 8 8)
    && p.zoned == !r.testBit 63 && patrolPlace s == some (p.surface.val, p.track.toNat)
    && (!p.zoned || (p.zone.toNat == bitsOf r 0 20 && patrolZone s p.zone.toNat
        && readBelow s p p.track.toNat p.first.toNat p.count.toNat))
    && p.first.toNat == s.ztb.ptDone && p.tcount.toNat == 0
    && decide (0 < p.count.toNat ∧ p.first.toNat + p.count.toNat ≤ trackSpt s p.surface p.track.toNat)
    && patrolStops s p (p.first.toNat + p.count.toNat)

/-- What each operation needs beyond `planServed` and the budget. -/
def planOk (s : State) (p : RunPlan) : Bool :=
  match p.op.val with
  | 1 => readOk s p
  | 2 => pairedOk s p
  | 3 => !bit s Reg.ZTB_WPSTS 0 && mayWrite s p && writePlaced s p && trailPlaced s p
  | 4 => tailOk s p
  | 5 => reloadPlaced s p
  | 6 => scanOk s p
  | 8 => mayWrite s p
  | _ => true

/-! ## Building (R82, R133, R135) -/

/-- Word 0 of a plan's descriptor. -/
def planWord0 (s : State) (p : RunPlan) : Nat :=
  p.op.val + 2 ^ 8 * p.ctx.val + 2 ^ 12 * surfaceHead s p.surface + 2 ^ 16 * p.surface.val
    + 2 ^ 21 * ((planBand s p).map Prod.fst).getD 0 + (if p.aftseek then 2 ^ 27 else 0)
    + (if p.spec then 2 ^ 28 else 0)

/-- The head-band entry of a plan. -/
def planHeadBand (s : State) (p : RunPlan) : Nat :=
  headBand s (planSeq s p) (surfaceHead s p.surface) ((planBand s p).map Prod.fst |>.getD 0)

/-- Words 0 to 11 of a plan's descriptor. -/
def planWords (s : State) (p : RunPlan) : List Nat :=
  let h := planHeadBand s p
  [ planWord0 s p, p.track.toNat, p.first.toNat + 2 ^ 10 * p.count.toNat,
    p.tfirst.toNat + 2 ^ 10 * p.tcount.toNat + 2 ^ 20 * guardMode s,
    sram16 s (h + 0x10) + 2 ^ 16 * sram16 s (h + 0x12),
    p.zone.toNat + (if p.zoned then 2 ^ 31 else 0),
    4 * p.bufl.toNat, 8 * p.ftab.toNat, 4 * p.res.toNat, p.tag.toNat, p.target.toNat, p.arg.toNat ]

/-- Store 32-bit words from SRAM offset `a` upward. -/
def putWords (a : Nat) : List Nat → State → State
  | [], s => s
  | w :: l, s => putWords (a + 4) l (sramPut32 s a w)

/-- Store frame-table entries from SRAM offset `a` upward. -/
def putEntries (a : Nat) : List Nat → State → State
  | [], s => s
  | e :: l, s => putEntries (a + 8) l (sramPut64 s a e)

/-- The frame-table entries of `n` sectors from sector `k` of track `t` of surface `f`. -/
def frameTable (s : State) (f t k n : Nat) : List Nat :=
  match bandOfTrack s f t with
  | some e => (List.range n).map fun i => frameEntry s e t ((k + i) % btSpt e)
  | none => List.replicate n 0

/-- The retained buffers of a plan's trailing sectors; a sector that is not retained has none, and
its list entry is 0. -/
def trailBufs (s : State) (p : RunPlan) : List Nat :=
  let spt := trackSpt s p.surface (planTrail p)
  (List.range p.tcount.toNat).map fun j =>
    match zonePhys s p.zone.toNat (planTrail p) ((p.tfirst.toNat + j) % spt) with
    | some i => (((workAt s p.zone.toNat).tail.find? fun t => t.phys == i).bind TailSector.buf).getD 0
    | none => 0

/-- The buffer list of a plan: retained data for writes and verifies, else the buffers chosen. -/
def planBufs (s : State) (p : RunPlan) : List Nat :=
  let own := p.bufs.map BitVec.toNat
  if p.op.val = 3 ∨ convVerify p then ((planRetained s p).getD own).take p.count.toNat ++ trailBufs s p
  else if p.op.val = 4 then trailBufs s p
  else own

/-- Build a plan's descriptor, buffer list and frame table, and post it. -/
def buildPlan (p : RunPlan) (s : State) : State :=
  let q := planSeq s p
  let d := 64 * p.desc.toNat
  let bufs := planBufs s p
  let frames := frameTable s p.surface p.track.toNat p.first.toNat p.count.toNat
    ++ frameTable s p.surface (planTrail p) p.tfirst.toNat p.tcount.toNat
  let words := planWords s p
  let s := putWords (4 * p.bufl.toNat) bufs s
  let s := putEntries (8 * p.ftab.toNat) frames s
  enqueue q p.ctx d false (putWords d words s)

/-- The first zone from `z` on that patrol reads. -/
def nextPatrolZone (s : State) (z : Nat) : Option Nat :=
  ((List.range (numZones s - z)).find? fun i => patrolZone s (z + i)).map (z + ·)

/-- The lap ends (R496), and the next starts at the first conventional track. -/
def lapEnds (s : State) : State :=
  let s := wrN s Reg.ZTB_PTLAP (rdN s Reg.ZTB_PTCUR)
  let s := wrN (wrapInc s Reg.ZTB_PTLAPS) Reg.ZTB_PTCUR 0
  wr64 (evt Reg.ZTB_AREVT 0 s) Reg.ZTB_PTPOS (2 ^ 63)

/-- Patrol goes to the first zone from `z` on that it reads; a zone left out sets SKIP. -/
def patrolTo (z : Nat) (s : State) : State :=
  match nextPatrolZone s z with
  | some y =>
    let s := if y = z then s else setBit s Reg.ZTB_PTSTS 2 true
    wr64 s Reg.ZTB_PTPOS y
  | none => lapEnds (if z < numZones s then setBit s Reg.ZTB_PTSTS 2 true else s)

/-- Patrol goes to the first conventional track from index `i` on whose actuator serves. R492 names zones
alone among what a lap leaves out: DESIGN CHOICE (log entry 72), so does a track that cannot be reached. -/
def patrolConv (i : Nat) (s : State) : State :=
  let reach (k : Nat) : Bool := match convIndexPlace (numSurfaces s) (convEntries s) (i + k) with
    | some (f, _) => usable s (surfaceAct s f)
    | none => false
  match (List.range (convTracks s - i)).find? reach with
  | some k => wr64 (if k = 0 then s else setBit s Reg.ZTB_PTSTS 2 true) Reg.ZTB_PTPOS (i + k + 2 ^ 63)
  | none => patrolTo 0 (if i < convTracks s then setBit s Reg.ZTB_PTSTS 2 true else s)

/-- Patrol leaves a track at ZTB_PTPOS that it does not read any more. -/
def patrolMoves (s : State) : State :=
  let r := rd64 s Reg.ZTB_PTPOS
  if r.testBit 63 then patrolConv (bitsOf r 0 24) s
  else if patrolZone s (bitsOf r 0 20) && decide (bitsOf r 32 16 < patrolTracks s (bitsOf r 0 20)) then s
  else patrolTo (bitsOf r 0 20) (modZtb s fun t => { t with ptDone := 0 })

/-- BUILDER_ISSUE: the builder issues a plan when every rule allows it; a run over the retention
budget waits, with RETFULL. -/
def issue (p : RunPlan) (s : State) : State :=
  let s := if p.op.val == 6 && bit s Reg.ZTB_PTCTL 0 then patrolMoves s else s
  if !planServed s p || !planOk s p then s
  else if p.op.val == 3 && !budgetOk s p then evt Reg.ZTB_WPEVT 6 s
  else buildPlan p s

def execBuilderIssue (plan : RunPlan) (s : State) : Host.Outcome State Fault Refusal :=
  .next (issue plan s)

/-- WRITE_REISSUE: an inhibited run is issued again from its first sector that did not complete, once
the Sluice's conditions on its slot hold again (R120); its target is checked when it is programmed. -/
def reissue (p : RunPlan) (s : State) : State :=
  let n := ctxSlot (planSeq s p) p.ctx
  if p.op.val = 3 ∧ p.ctx.val < 4 ∧ (wgConds.filter (· != 5)).all (sluHolds s n) = true then issue p s else s

def execWriteReissue (plan : RunPlan) (s : State) : Host.Outcome State Fault Refusal :=
  .next (reissue plan s)

/-- TAIL_VERIFY_TRIGGER: a tail verify is issued where one is due (R107). -/
def tailTrigger (p : RunPlan) (s : State) : State := if p.op.val = 4 then issue p s else s

def execTailVerifyTrigger (plan : RunPlan) (s : State) : Host.Outcome State Fault Refusal :=
  .next (tailTrigger plan s)

/-! ## The write guard mode (R116, R118) -/

/-- WGUARD_WRITE: a write to SLU_WGUARD; 3 is ignored. -/
def wguardWrite (v : Nat) (s : State) : State :=
  let m := bitsOf v 0 2
  if m = 3 then s else
  let s := wrN s Reg.SLU_WGUARD m
  setBit (modZtb s fun t => { t with guardReq := m }) Reg.ZTB_WPSTS 0 (m != guardMode s)

def execWguardWrite (value : Word) (s : State) : Host.Outcome State Fault Refusal :=
  .next (busOk (wguardWrite value.toNat s))

/-- A descriptor is a WRITE_RUN, a TAIL_VERIFY or a conventional verify. -/
def guarded (s : State) (d : Nat) : Bool :=
  let op := bitsOf (sram32 s d) 0 8
  op == 3 || op == 4 || (op == 1 && !(sram32 s (d + 20)).testBit 31 && (sram32 s (d + 44)).testBit 0)

/-- Some context holds or runs a guarded operation. -/
def guardedOps (s : State) : Bool :=
  (List.range 10).any fun i =>
    let c := ctxAt s (i / 5) (i % 5)
    (c.busy && guarded s c.desc) || c.queue.any fun d => guarded s d.offset

/-- WGUARD_TAKES_EFFECT. -/
def wguardEffect (s : State) : State :=
  if bit s Reg.ZTB_WPSTS 0 && !guardedOps s then
    sluAll (setF (setBit s Reg.ZTB_WPSTS 0 false) Reg.ZTB_WPSTS 1 2 s.ztb.guardReq)
  else s

def execWguardTakesEffect (s : State) : Host.Outcome State Fault Refusal := .next (wguardEffect s)

/-- OPACK: the oldest opened zone is acknowledged; another number is ignored (R125). -/
def opack (z : Nat) (s : State) : State :=
  match s.ztb.oppend with
  | [] => s
  | y :: l =>
    if y ≠ z then s else
    let s := showOppend (modZtb s fun t => { t with oppend := l })
    updateCptr z (modWork z (fun w => { w with waitOpen := l.contains z }) s)

def execOpack (zone : BitVec 20) (s : State) : Host.Outcome State Fault Refusal :=
  .next (busOk (opack zone.toNat s))

/-- RETPEAK_WRITE. -/
def execRetpeakWrite (_value : Word) (s : State) : Host.Outcome State Fault Refusal :=
  .next (busOk (wrN s Reg.ZTB_RETPEAK (getF s Reg.ZTB_RETUSE 0 16)))

/-! ## Zone recovery (R126) -/

/-- RCMD: a write to ZTB_RCMD. -/
def rcmd (v : Nat) (s : State) : State :=
  let z := bitsOf v 0 20
  if !v.testBit 31 || bit s Reg.ZTB_RCSTS 0 || !ztbEn s then s
  else if numZones s ≤ z then wrN s Reg.ZTB_RCSTS (2 * 1)
  else if zState s z = zOffline ∨ zState s z = zReadOnly then wrN s Reg.ZTB_RCSTS (2 * 2)
  else modZtb (wrN s Reg.ZTB_RCSTS 1) fun t => { t with recovery := some ⟨z⟩ }

def execRcmd (value : Word) (s : State) : Host.Outcome State Fault Refusal :=
  .next (busOk (rcmd value.toNat s))

/-- Physical index `p` is in one of the ranges. -/
def inRanges (l : List (Nat × Nat)) (p : Nat) : Bool := l.any fun r => decide (r.1 ≤ p ∧ p < r.2)

/-- The probe of track `t` reads clean: its first sector that is not in the slip list. -/
def probeClean (s : State) (z : Nat) (clean : List (Nat × Nat)) (t : Nat) : Bool :=
  match (List.range (trackSpt s (zoneSurface s z) t)).findSome? fun k =>
      (sectorOffset s z t k).map fun _ => k with
  | some k => (zonePhys s z t k).any (inRanges clean)
  | none => false

/-- Bisection on probes: the last track from `lo` to `hi` that the probes find written. -/
def lastGood (good : Nat → Bool) : Nat → Nat → Nat → Nat
  | 0, lo, _ => lo
  | n + 1, lo, hi =>
    if hi ≤ lo then lo else
    let mid := (lo + hi + 1) / 2
    if good mid then lastGood good n mid hi else lastGood good n lo (mid - 1)

/-- The last data track of zone `z`. -/
def lastDataTrack (s : State) (z : Nat) : Nat :=
  ((zonePlace s z (zoneToPhys s z (zcap s - 1))).map Prod.fst).getD (zoneFirstTrack s z)

/-- The logical offsets of track `t` of zone `z` below its capacity, in order. -/
def trackOffsets (s : State) (z t : Nat) : List Nat :=
  (List.range (trackSpt s (zoneSurface s z) t)).filterMap fun k =>
    (sectorOffset s z t k).filter fun o => decide (o < zcap s)

/-- The longest run of clean sectors so far, as its length and the offset after its end, from offsets in
order; `n` sectors before the first of them read clean. -/
def longestRun (good : Nat → Bool) : List Nat → Nat → Nat × Nat → Nat × Nat
  | [], _, best => best
  | o :: l, n, best =>
    if good o then longestRun good l (n + 1) (if best.1 < n + 1 then (n + 1, o + 1) else best)
    else longestRun good l 0 best

/-- The offset that a recovery finds: the end of the longest clean run on the last written track and the
one before it. Of runs of one length the first counts: DESIGN CHOICE (log entry 19). -/
def recoveredOffset (s : State) (z : Nat) (clean : List (Nat × Nat)) : Nat :=
  let first := zoneFirstTrack s z
  let lo := lastGood (probeClean s z clean) 32 first (lastDataTrack s z)
  let offs := (if lo = first then [] else trackOffsets s z (lo - 1)) ++ trackOffsets s z lo
  (longestRun (fun o => inRanges clean (zoneToPhys s z o)) offs 0 (0, 0)).2

/-- Recovery ends with the zone in a state, its pointers at `c`. -/
def recovered (z st code c : Nat) (s : State) : State :=
  let s := setTailu z (st == zClosed) (setRptr z c (setCptr z c s))
  let s := modWork z (fun w => { w with assignEnd := c }) s
  evt Reg.ZTB_WPEVT 9 (wrN (setZoneState z st s) Reg.ZTB_RCSTS (2 ^ 14 * c + 2 ^ 4 * code))

/-- RCVDONE: the zone takes the state and pointers that the probes and the reads found. -/
def rcvdone (media : Bool) (clean : List (Nat × Nat)) (s : State) : State :=
  match s.ztb.recovery with
  | none => s
  | some r =>
    let z := r.zone
    let s := modZtb s fun t => { t with recovery := none }
    if media then evt Reg.ZTB_WPEVT 9 (wrN s Reg.ZTB_RCSTS (2 * 3))
    else if !probeClean s z clean (zoneFirstTrack s z) then recovered z zEmpty 0 0 s
    else
      let c := recoveredOffset s z clean
      if c = zcap s then recovered z zFull 2 c s else recovered z zClosed 1 c s

def execRcvdone (media : Bool) (clean : List (BitVec 20 × BitVec 20)) (s : State) :
    Host.Outcome State Fault Refusal :=
  .next (rcvdone media (clean.map fun r => (r.1.toNat, r.2.toNat)) s)

/-! ## Track operations on their slots (R82, R92, R134) -/

/-- Context `x` of sequencer `q` runs operation `op`. -/
def runsOp (s : State) (q x op : Nat) : Bool := (ctxAt s q x).phase == .run && descOp s q x == op

/-- The angle of the first preamble bit of frame-table entry `i`. -/
def ftabStart (s : State) (q x i : Nat) : Nat := bitsOf (sram64 s (dFtab s q x + 8 * i)) 0 22

/-- The angle just after the last pad bit of frame-table entry `i`. -/
def ftabEnd (s : State) (q x i : Nat) : Nat := (bitsOf (sram64 s (dFtab s q x + 8 * i)) 32 22 + 1) % ticksPerRev

/-- An entry that an operation posts: action, argument and surface-relative angle. -/
structure PlanEntry where
  action : Nat
  arg : Nat
  angle : Nat
  deriving DecidableEq, Repr

/-- Entries in order of the angle ahead of now. -/
def insertEntry (s : State) (f : Nat) (e : PlanEntry) : List PlanEntry → List PlanEntry
  | [] => [e]
  | a :: l =>
    if ticksTo s (globalAngle s f e.angle) < ticksTo s (globalAngle s f a.angle) then e :: a :: l
    else a :: insertEntry s f e l

/-- Post entries of surface `f` to the slot; one that the queue does not take raises ARMERR, and so does a
WG_ON or an ASSIST_ON that would be late, which is not posted (R142). -/
def postAll (q x f : Nat) : List PlanEntry → State → State
  | [], s => s
  | e :: l, s =>
    if (e.action = 0x01 ∨ e.action = 0x07) ∧ armLate s f e.angle = true then raiseS q x SCause.armerr s else
    match postEntry (ctxSlot q x) e.action e.arg f e.angle s with
    | (.ok, _, s) => postAll q x f l s
    | (.late, _, s) => postAll q x f l s
    | _ => raiseS q x SCause.armerr s

/-- Post an operation's entries in order of angle. -/
def armOp (q x : Nat) (l : List PlanEntry) (s : State) : State :=
  let f := dSurf s q x
  postAll q x f (l.foldr (insertEntry s f) []) s

/-- Select the operation's head where the slot has another. -/
def selectOpHead (q x : Nat) (s : State) : State :=
  if slotHead s (ctxSlot q x) = some (dHead s q x) then s
  else headSel (ctxSlot q x) (dHead s q x) s

/-- Program a lane of the operation's slot. -/
def programLane (q x : Nat) (trailing : Bool) (mode track first bufl : Nat) (s : State) : State :=
  let n := ctxSlot q x
  let s := setLaneField n trailing 0 (dBand s q x) s
  let s := setLaneField n trailing 1 mode s
  let s := setLaneField n trailing 2 track s
  let s := setLaneField n trailing 3 first s
  setLaneField n trailing 4 bufl s

/-- The entries of a read of `k` sectors on a lane: LANE_START, the read gate on and off. The frame
table names the sectors from entry `i` on, and `d` is added to every angle (R82). -/
def readEntries (s : State) (q x : Nat) (trailing : Bool) (i k : Nat) (d : Int) : List PlanEntry :=
  if k = 0 then [] else
  let start := angShift (ftabStart s q x i) d
  let stop := angShift (ftabEnd s q x (i + k - 1)) d
  if trailing then [⟨0x09, k + 2 ^ 15, start⟩, ⟨0x05, 0, start⟩, ⟨0x06, 0, stop⟩]
  else [⟨0x09, k, start⟩, ⟨0x03, 0, start⟩, ⟨0x04, 0, stop⟩]

/-- Program the primary lane with the operation's sectors. -/
def programPrimary (q x mode : Nat) (s : State) : State :=
  programLane q x false mode (dTrack s q x) (dFirst s q x) (dBufl s q x) s

/-- Program the trailing lane with the operation's sectors. -/
def programTrailing (q x mode : Nat) (s : State) : State :=
  programLane q x true mode (dTrailTrack s q x) (dTfirst s q x) (dBufl s q x + 4 * dCount s q x) s

/-- The entries of the operation's trailing reads. -/
def trailEntries (s : State) (q x : Nat) : List PlanEntry :=
  readEntries s q x true (dCount s q x) (dTcount s q x) (dTdly s q x)

/-- READ_RUN: the primary lane reads the run; a conventional verify compares it (log entry 9). -/
def readRun (q x : Nat) (s : State) : State :=
  if !runsOp s q x 1 then s else
  let verify := !dZoned s q x && (descWord s q x 11).testBit 0
  let s := programPrimary q x (if verify then 2 else 1) (selectOpHead q x s)
  armOp q x (readEntries s q x false 0 (dCount s q x) 0) s

def execReadRun (q : Fin 2) (x : Fin 4) (s : State) : Host.Outcome State Fault Refusal :=
  .next (readRun q x s)

/-- PAIRED_READ: the primary lane reads track N + 1 and the trailing lane track N. -/
def pairedRead (q x : Nat) (s : State) : State :=
  if !runsOp s q x 2 then s else
  let s := programTrailing q x 1 (programPrimary q x 1 (selectOpHead q x s))
  armOp q x (readEntries s q x false 0 (dCount s q x) 0 ++ trailEntries s q x) s

def execPairedRead (q : Fin 2) (x : Fin 4) (s : State) : Host.Outcome State Fault Refusal :=
  .next (pairedRead q x s)

/-- The entries of a write of the run: assist where it is not on, and write gate from the first
preamble bit to the last pad bit, at the writer's position (R82). -/
def writeEntries (s : State) (q x : Nat) : List PlanEntry :=
  if dCount s q x = 0 then [] else
  let start := angShift (ftabStart s q x 0) (dWdly s q x)
  let stop := angShift (ftabEnd s q x (dCount s q x - 1)) (dWdly s q x)
  (if (slotAt s (ctxSlot q x)).assist then [] else [⟨0x07, 0xFFFF, start⟩])
    ++ [⟨0x01, 0, start⟩, ⟨0x02, 0, stop⟩, ⟨0x08, 0, stop⟩]

/-- WRITE_RUN: the primary lane is the write source, and under VERIFY and BOTH the trailing lane
verifies the track before (R103, R106). -/
def writeRun (q x : Nat) (s : State) : State :=
  if !runsOp s q x 3 then s else
  let s := programPrimary q x 3 (selectOpHead q x s)
  let s := if dTcount s q x = 0 then s else programTrailing q x 2 s
  armOp q x (writeEntries s q x ++ trailEntries s q x) s

def execWriteRun (q : Fin 2) (x : Fin 4) (s : State) : Host.Outcome State Fault Refusal :=
  .next (writeRun q x s)

/-- TAIL_VERIFY: the head moves by the milliactuator offset in TARGET, and the trailing lane verifies
the last written track (R108). -/
def tailVerify (q x : Nat) (s : State) : State :=
  if !runsOp s q x 4 then s else
  let off := signedOf 32 (descWord s q x 10)
  let s := modCtx s q x fun c => { c with maoff := off }
  let s := programTrailing q x 2 (selectOpHead q x s)
  armOp q x (trailEntries s q x) s

def execTailVerify (q : Fin 2) (x : Fin 4) (s : State) : Host.Outcome State Fault Refusal :=
  .next (tailVerify q x s)

/-- PREBIAS: ASSIST_ON at the first WG_ON angle less LANE_PBLEAD (R92). -/
def prebias (q x : Nat) (s : State) : State :=
  if !runsOp s q x 8 then s else
  let s := selectOpHead q x s
  let lead : Int := getF s (Reg.LANE_PBLEAD q) 0 22
  armOp q x [⟨0x07, 0xFFFF, angShift (ftabStart s q x 0) (dWdly s q x - lead)⟩] s

def execPrebias (q : Fin 2) (x : Fin 4) (s : State) : Host.Outcome State Fault Refusal :=
  .next (prebias q x s)

/-- SEEK: a profile starts to the track in TARGET on the descriptor's surface. -/
def seekOp (q : Nat) (s : State) : State :=
  if runsOp s q 4 7 then svgo q (bitsOf (descWord s q 4 10) 0 24 + 2 ^ 24 * dSurf s q 4) s else s

def execSeekOp (q : Fin 2) (s : State) : Host.Outcome State Fault Refusal := .next (seekOp q s)

/-! ### TAIL_RELOAD (R127) -/

/-- Track and sector of sector index `i` of a reload, trailing sectors last. -/
def reloadPlace (s : State) (q x i : Nat) : Nat × Nat :=
  if dCount s q x ≤ i then (dTrailTrack s q x, dSector s q x true (i - dCount s q x))
  else (dTrack s q x, dSector s q x false i)

/-- Sector index `i` of a reload reads clean (R126): it passes R104 without the data comparison, and its
EPOCH field is the zone's. -/
def readsClean (s : State) (q x i : Nat) : Bool :=
  let a := reloadPlace s q x i
  resultPasses s (dResult s q x i) && !s.ztb.differs.contains (dSurf s q x, a.1, a.2)

/-- The sector indexes of a reload that hold an unsealed sector. -/
def reloadIndexes (s : State) (q x : Nat) : List Nat :=
  (List.range (dCount s q x + dTcount s q x)).filter fun i => (toReload s (dZone s q x)).contains (reloadPlace s q x i)

/-- The tail sectors that a reload has read clean, with their buffers. -/
def reloaded (s : State) (q x : Nat) : List TailSector :=
  ((reloadIndexes s q x).filter (readsClean s q x)).filterMap fun i =>
    (zonePhys s (dZone s q x) (reloadPlace s q x i).1 (reloadPlace s q x i).2).map fun p =>
      ⟨p, some (dBuffer s q x i), true, false, s.clock⟩

/-- Buffers of the media path pass into retention. -/
def retain (l : List Nat) (s : State) : State :=
  l.foldl (fun s b => if ownerOf s b = Owner.media then setOwner b Owner.retain s else s) s

/-- TAIL_RELOAD starts: the primary lane reads its track and the trailing lane the track before. -/
def reloadStart (q x : Nat) (s : State) : State :=
  let s := programPrimary q x 1 (selectOpHead q x s)
  let s := if dTcount s q x = 0 then s else programTrailing q x 1 s
  armOp q x (readEntries s q x false 0 (dCount s q x) 0 ++ trailEntries s q x) s

/-- The sectors that read clean join the zone's tail, in order, and pass into retention; other buffers of
the operation are freed. -/
def keepReloaded (q x : Nat) (s : State) : State :=
  let z := dZone s q x
  let l := reloaded s q x
  let bufs := l.filterMap TailSector.buf
  let rest := ((List.range (dCount s q x + dTcount s q x)).map (dBuffer s q x)).filter fun b => !bufs.contains b
  let s := freeAll Owner.media rest (retain bufs s)
  modWork z (fun w => { w with tail := w.tail ++ l }) s

/-- The unsealed tail of the zone is in retention again. -/
def reloadOk (z : Nat) (s : State) : State :=
  let s := modWork z (fun w => { w with rereads := 0 }) s
  wrapInc (evt Reg.ZTB_WPEVT 4 (setTailu z false s)) Reg.ZTB_TRCNT

/-- The first fetched write that waits for the reload of zone `z`. -/
def firstWaiting (s : State) (z : Nat) : Option HostCmd :=
  (s.nqe.cmds.filter (awaitsReload s z)).foldl (fun m c =>
    match m with
    | some d => if c.seq < d.seq then some c else m
    | none => some c) none

/-- A tail sector stays unclean: the zone becomes Read Only and the write that waits fails. -/
def reloadFails (z : Nat) (s : State) : State :=
  let s := modWork z (fun w => { w with rereads := 0 }) s
  let s := evt Reg.ZTB_WPEVT 5 (setZoneState z zReadOnly s)
  match firstWaiting s z with
  | some c => toFirmware c.slot 5 s
  | none => s

/-- The results of a TAIL_RELOAD are judged: clean sectors are retained, and an unclean one is read again by
another TAIL_RELOAD at most twice (log entry 19). -/
def reloadFinish (q x : Nat) (s : State) : State :=
  let z := dZone s q x
  let failed := (reloadIndexes s q x).any fun i => !readsClean s q x i
  let s := keepReloaded q x s
  if failed then
    if 2 ≤ (workAt s z).rereads then reloadFails z s
    else modWork z (fun w => { w with rereads := w.rereads + 1 }) s
  else if (toReload s z).isEmpty then reloadOk z s else s

/-- The lanes of context `x` read no more, and its progress counts every sector of its operation. -/
def readsDone (s : State) (q x : Nat) : Bool :=
  let c := ctxAt s q x
  (laneAt s (4 * q + x)).run.isNone && (laneAt s (4 * q + x + 8)).run.isNone
    && decide (dCount s q x ≤ c.progPC ∧ dTcount s q x ≤ c.progTC)

/-- TAIL_RELOAD: a step of the reload of a zone's tail. -/
def tailReload (q x : Nat) (step : ReloadStep) (s : State) : State :=
  if !runsOp s q x 5 then s else
  match step with
  | .start => reloadStart q x s
  | .finish => if readsDone s q x && zTailu s (dZone s q x) then reloadFinish q x s else s

def execTailReload (q : Fin 2) (x : Fin 4) (step : ReloadStep) (s : State) : Host.Outcome State Fault Refusal :=
  .next (tailReload q x step s)

/-! ### SCAN (R492 to R496) -/

/-- A scan takes its head slot and reads its track. -/
def scanStart (q x : Nat) (s : State) : State :=
  let s := modZtb s fun t => { t with ptFrom := some s.clock }
  let s := programPrimary q x 1 (selectOpHead q x s)
  setBit (armOp q x (readEntries s q x false 0 (dCount s q x) 0) s) Reg.ZTB_PTSTS 0 true

/-- The class of a sector's result (R493): 0 CLEAN, 1 MARGINAL, 2 UNRECOVERED. -/
def scanClass (s : State) (r : Nat) (recovered : Bool) (job : Nat) : Nat :=
  if job ≠ 0 then 2
  else if bitsOf r 0 3 ≤ 2 ∧ bitsOf r 3 2 = decOk ∧ r.testBit 14 = false
      ∧ bitsOf r 16 12 ≤ getF s Reg.ZTB_VCFG 0 12 then 0
  else if recovered then 1 else 2

/-- Log a sector of class `c` (R495). -/
def ptlogPut (lba : Nat) (zoned : Bool) (c : Nat) (s : State) : State :=
  if 16 ≤ s.ztb.ptlog.length then setBit s Reg.ZTB_PTSTS 3 true
  else modZtb s fun t =>
    { t with ptlog := t.ptlog ++ [lba + (if zoned then 2 ^ 40 else 0) + 2 ^ 41 * c + 2 ^ 63] }

/-- The result of sector index `i` of a scan is known. -/
def scanSector (q x i : Nat) (recovered : Bool) (job : Nat) (s : State) : State :=
  if dCount s q x ≤ i then s else
  let c := scanClass s (dResult s q x i) recovered job
  let lba := (opLba s q x (dTrack s q x) (dSector s q x false i)).getD 0
  let s := freeAll Owner.media [dBuffer s q x i] s
  if c = 0 then s
  else
    let s := satInc s (if c = 1 then Reg.ZTB_PTMARG else Reg.ZTB_PTUNR) 32
    ptlogPut lba (dZoned s q x) c (evt Reg.ZTB_AREVT c s)

/-- A scanned track ends: ZTB_PTPOS moves to the next track of the lap (R492). -/
def scanFinish (s : State) : State :=
  let s := modZtb s fun t => { t with ptDone := 0 }
  let p := rd64 s Reg.ZTB_PTPOS
  if p.testBit 63 then
    patrolConv (bitsOf p 0 24 + 1) s
  else
    let z := bitsOf p 0 20
    let t := bitsOf p 32 16 + 1
    if t < patrolTracks s z then wr64 s Reg.ZTB_PTPOS (z + 2 ^ 32 * t) else patrolTo (z + 1) s

/-- SCAN: a step of the patrol of one track. -/
def scanOp (q x : Nat) (step : ScanStep) (s : State) : State :=
  if !runsOp s q x 6 then s else
  match step with
  | .start => scanStart q x s
  | .sector i r j => scanSector q x i r j s
  | .finish => if readsDone s q x then scanFinish s else s

def execScanOp (q : Fin 2) (x : Fin 4) (step : ScanStep) (s : State) : Host.Outcome State Fault Refusal :=
  .next (scanOp q x step s)

end Sys2Proof.Machine
end

