-- ==== Sys2Proof/Machine/Archival.lean ====
section
/-! DEFINITION. The commands of chapter 19: the patrol log, zone rewrap and the peer stream. -/

namespace Sys2Proof.Machine

/-! ## Patrol log (R495) -/

/-- PTLOG_POP: the oldest entry, 0 where there is none. -/
def ptlogPop (s : State) : State :=
  match s.ztb.ptlog with
  | [] => answer 0 s
  | e :: l => answer e (modZtb s fun t => { t with ptlog := l })

def execPtlogPop (s : State) : Host.Outcome State Fault Refusal := .next (ptlogPop s)

/-! ## Rewrap (R497 to R500) -/

/-- The slot is a loaded AT-REST slot whose counter is not used up. -/
def rwKeyOk (s : State) (k : Nat) : Bool :=
  match keyAt s k with
  | some x => x.use == KeyUse.atRest && x.ending.isNone && decide (x.counter < 2 ^ 48)
  | none => false

/-- The check of R497 that a request fails first. A zone that does not exist is in no state. -/
def rwCheck (s : State) (src tgt slot : Nat) : Nat :=
  let st := zState s src
  if s.arc.rewrap.isSome then RwResult.busy
  else if numZones s ≤ src ∨ (st ≠ zFull ∧ st ≠ zReadOnly) then RwResult.srcState
  else if numZones s ≤ tgt ∨ tgt = src ∨ zState s tgt ≠ zEmpty then RwResult.tgtState
  else if !rwKeyOk s slot then RwResult.key
  else if 32 ≤ activeZones s then RwResult.active
  else RwResult.ok

/-- REWRAP_GO. -/
def rewrapGo (s : State) : State :=
  let src := getF s Reg.ZTB_RWSRC 0 20
  let tgt := getF s Reg.ZTB_RWTGT 0 20
  let slot := getF s Reg.ZTB_RWTGT 20 12
  let r := rwCheck s src tgt slot
  if r ≠ 0 then setF s Reg.ZTB_RWSTS 4 4 r else
  let s := modArc s fun a => { a with rewrap := some ⟨src, tgt, slot, false, false, .fresh, []⟩ }
  rwJournal 1 (wrN s Reg.ZTB_RWSTS 1)

def execRewrapGo (s : State) : Host.Outcome State Fault Refusal := .next (busOk (rewrapGo s))

/-- A rewrap is aborted unless its COMMIT has been acknowledged or it has failed already. -/
def rewrapAbort (s : State) : State :=
  match s.arc.rewrap with
  | some r => if r.committed || rwPhase s == 5 then s else rwFail RwResult.aborted s
  | none => s

def execRewrapAbort (s : State) : Host.Outcome State Fault Refusal := .next (busOk (rewrapAbort s))

/-- Nothing of zone `z` is in flight. -/
def zoneQuiet (s : State) (z : Nat) : Bool :=
  !zoneInUse s z && !zoneOp s z 3 && !zoneOp s z 4 && !zoneOp s z 5

/-- The rewrap is over. -/
def rwEnds (s : State) : State :=
  setF (setBit (modArc s fun a => { a with rewrap := none }) Reg.ZTB_RWSTS 0 false) Reg.ZTB_RWSTS 1 3 0

/-- The reset that ends a rewrap takes effect once its zone has nothing in flight. -/
def rwSettle (s : State) : State :=
  match s.arc.rewrap with
  | none => s
  | some r =>
    if !r.waiting then s
    else if r.committed then
      if zoneQuiet s r.src then
        evt Reg.ZTB_AREVT 4 (wrapInc (setF (rwEnds (resetZone r.src s)) Reg.ZTB_RWSTS 4 4 0) Reg.ZTB_RWCNT)
      else s
    else if zoneQuiet s r.tgt then evt Reg.ZTB_AREVT 5 (rwEnds (resetZone r.tgt s))
    else s

/-- The target is reserved under its key, and the copy begins. -/
def rwReserve (r : RewrapRun) (s : State) : State :=
  let s := enterZoneState r.tgt zImpOpen s
  let s := sramPut16 s (2 * getF s Reg.CPH_KMBASE 1 28 + 2 * r.tgt) r.slot
  setF s Reg.ZTB_RWSTS 1 3 2

/-- RWACK: the journal record of the present phase is durable. -/
def rwAck (s : State) : State :=
  match s.arc.rewrap with
  | none => s
  | some r =>
    match rwPhase s with
    | 1 => rwReserve r s
    | 3 => rwJournal 4 (modRewrap s fun r => { r with committed := true })
    | 4 => rwSettle (modRewrap s fun r => { r with waiting := true })
    | 5 => rwSettle (modRewrap s fun r => { r with waiting := true })
    | _ => s

def execRwack (s : State) : Host.Outcome State Fault Refusal := .next (busOk (rwAck s))

/-- COPY_END: the target's CPTR has reached the source's. -/
def copyEnd (s : State) : State :=
  match s.arc.rewrap with
  | none => s
  | some r =>
    if rwPhase s == 2 && zCptr s r.tgt == zCptr s r.src then rwJournal 3 (applyState r.tgt zFull s) else s

def execCopyEnd (s : State) : Host.Outcome State Fault Refusal := .next (copyEnd s)

/-! ## Peer stream (R502 to R506) -/

/-- Send to the peer. -/
def peerSend (o : PeerOp) (s : State) : State := modArc s fun a => { a with sent := a.sent ++ [o] }

/-- The mode serves the stream: PS2 to PS4 lie outside READY. -/
def streamMode (s : State) : Bool := mode s == Mode.ready || mode s == Mode.active

/-- Appends that the entry may have in flight. -/
def StreamEntry.room (x : StreamEntry) : Nat := if x.single then 1 else 4

/-- The length of the entry's next append, if its sectors are ready and there is room for it. -/
def StreamEntry.append (x : StreamEntry) : Option Nat :=
  let n := min x.chunk (x.size - x.issued)
  if 0 < n ∧ x.flying.length < x.room ∧ x.issued + n ≤ x.reader.ready then some n else none

/-- Send the appends of an entry that may go out. -/
def sendAppends : Nat → StreamEntry → State → StreamEntry × State
  | 0, x, s => (x, s)
  | fuel + 1, x, s =>
    match x.append with
    | some n =>
      sendAppends fuel { x with issued := x.issued + n, flying := x.flying ++ [(x.issued, n)] }
        (peerSend (.append x.entry (planPeer s x.entry + x.issued) n) s)
    | none => (x, s)

/-- Entry `x` goes on: its appends, and its Flush after the last has completed. A source zone that
the host has changed fails it. -/
def entryGoes (x : StreamEntry) (s : State) : State :=
  if s.arc.mode ≠ .running then s
  else if zCptr s (planZone s x.entry) ≠ x.size then entryStops x 0x12 s
  else
    let (x, s) := sendAppends 4 x s
    if x.issued = x.size ∧ x.flying = [] ∧ x.flush = false then
      modEntry x.entry (fun _ => { x with flush := true }) (peerSend (.flush x.entry) s)
    else modEntry x.entry (fun _ => x) s

/-- Every running entry goes on. -/
def streamGoes (s : State) : State := s.arc.entries.foldl (fun s x => entryGoes x s) s

/-- The entry starts again at offset 0, after a reset of its peer zone. -/
def entryRestarts (x : StreamEntry) (s : State) : State :=
  let s := peerSend (.resetZone x.entry) (dropSectors x s)
  modEntry x.entry (fun _ =>
    { x with reader := .fresh, held := [], issued := 0, done := 0, flying := [], flush := false }) s

/-- The stream runs, and its running entries start again. -/
def streamResume (s : State) : State :=
  let s := peerSend .connect (modArc s fun a => { a with mode := .running })
  streamGoes (s.arc.entries.foldl (fun s x => entryRestarts x s) s)

/-- A stream that paused by itself resumes. -/
def streamSettle (s : State) : State :=
  if s.arc.mode = .suspended ∧ streamMode s = true then streamResume s else s

/-- STREAM_START. Outside READY the stream waits for it. -/
def streamStart (s : State) : State :=
  if s.arc.mode = .running then s
  else streamSettle (modArc s fun a => { a with mode := .suspended })

def execStreamStart (s : State) : Host.Outcome State Fault Refusal := .next (streamStart s)

/-- STREAM_PAUSE: appends in flight end, and no others are sent. -/
def streamPause (s : State) : State :=
  modArc s fun a => { a with mode := if a.mode = .off then .off else .paused }

def execStreamPause (s : State) : Host.Outcome State Fault Refusal := .next (streamPause s)

/-- STREAM_ABORT: running entries become PENDING. -/
def streamAbort (s : State) : State :=
  s.arc.entries.foldl (fun s x => entryStops x 0 s) (streamPause s)

def execStreamAbort (s : State) : Host.Outcome State Fault Refusal := .next (streamAbort s)

/-- Entries at once: object 0x2323:01, 24 by default. -/
def streamWidth (s : State) : Nat := leNat (objectValue s (0x2323, 1) [24])

/-- Check 2 of R503 on the source of plan entry `e`. -/
def streamSource (s : State) (e : Nat) : Bool :=
  let z := planZone s e
  decide (z < numZones s) && (zState s z == zFull || zState s z == zReadOnly)

/-- STREAM_ENTRY_START: the next PENDING entry in plan order. -/
def streamEntryStart (peerEmpty : Bool) (capacity zasl : Nat) (s : State) : State :=
  if s.arc.mode ≠ .running ∨ streamWidth s ≤ s.arc.entries.length then s else
  match (List.range (planEntries s)).find? fun e => entryState s e == 0 with
  | none => s
  | some e =>
    let size := zCptr s (planZone s e)
    if !peerEmpty || decide (capacity < size) then setEntryState e 0x11 s
    else if !streamSource s e then setEntryState e 0x10 s
    else
      let x : StreamEntry := ⟨e, size, min 512 zasl, .fresh, [], 0, 0, [], false, false, false⟩
      entryGoes x (modArc (setEntryState e 1 s) fun a => { a with entries := a.entries ++ [x] })

def execStreamEntryStart (peerEmpty : Bool) (capacity : DWord) (zasl : Word) (s : State) :
    Host.Outcome State Fault Refusal :=
  .next (streamEntryStart peerEmpty capacity.toNat zasl.toNat s)

/-- An append of `n` sectors at offset `o` has been acknowledged. -/
def appendDone (x : StreamEntry) (o n : Nat) (s : State) : State :=
  let mine := x.held.filter fun h => decide (o ≤ h.1 ∧ h.1 < o + n)
  let x := { x with
    held := x.held.filter fun h => !decide (o ≤ h.1 ∧ h.1 < o + n)
    flying := x.flying.filter fun f => f.1 != o
    done := x.done + n }
  let s := freeAll Owner.media (mine.map Prod.snd) (modEntry x.entry (fun _ => x) s)
  entryGoes x (modArc s fun a => { a with bytes := a.bytes + 4096 * n })

/-- A returned LBA differs: the first time the entry starts again with one append at a time. -/
def appendMisplaced (x : StreamEntry) (s : State) : State :=
  if x.mismatch then entryStops x 0x14 s
  else entryRestarts { x with single := true, mismatch := true } s

/-- PEER_COMPLETION. -/
def peerCompletion (e : Nat) (flush : Bool) (o status lba : Nat) (s : State) : State :=
  match s.arc.entries.find? fun x => x.entry == e with
  | none => s
  | some x =>
    if flush then
      if !x.flush then s else entryStops x (if status = 0 then 2 else 0x13) s
    else match x.flying.find? fun f => f.1 == o with
      | none => s
      | some (_, n) =>
        if status ≠ 0 then entryStops x 0x13 s
        else if lba ≠ planPeer s e + o then appendMisplaced x s
        else appendDone x o n s

def execPeerCompletion (entry : Fin 524288) (flush : Bool) (offset : BitVec 18) (status : BitVec 15)
    (lba : DWord) (s : State) : Host.Outcome State Fault Refusal :=
  .next (peerCompletion entry flush offset.toNat status.toNat lba.toNat s)

/-! ## Sector jobs of the copies -/

/-- A source sector of the rewrap at offset `k` is good: it is encrypted under the target's key. -/
def rwSectorGood (r : RewrapRun) (b k : Nat) (s : State) : State :=
  if r.reader.ready ≠ k then freeAll Owner.media [b] s else
  let lba := zoneStart s r.tgt + k
  let s := sramPut32 (sramPut64 s (tagAddr b) lba) (tagAddr b + 8) (r.tgt + 2 ^ 31)
  let s := modRewrap s fun x =>
    { x with reader := { x.reader with ready := k + 1, failAt := none }, encs := x.encs ++ [b] }
  issueSector 1 2 lba r.tgt b s

/-- A sector of the rewrap is encrypted: it is retained and assigned to the target (R99, R112). -/
def rwAssign (r : RewrapRun) (b : Nat) (s : State) : State :=
  let s := modRewrap (setOwner b Owner.retain s) fun x => { x with encs := x.encs.filter (· != b) }
  modWork r.tgt (fun w =>
    { w with assignEnd := w.assignEnd + 1, queue := w.queue ++ [⟨w.assignEnd, b⟩] }) s

/-- The decryption of a source sector of the rewrap ends. -/
def rwDecEnds (r : RewrapRun) (b k : Nat) (ok : Bool) (s : State) : State :=
  let s := modRewrap s fun x => { x with reader := { x.reader with jobs := x.reader.jobs.filter fun j => j.1 != b } }
  if ok then rwSectorGood r b k s else rwReadFails k (freeAll Owner.media [b] s)

/-- The decryption of a source sector of a stream entry ends. -/
def streamDecEnds (x : StreamEntry) (b k : Nat) (ok : Bool) (s : State) : State :=
  let x := { x with reader := { x.reader with jobs := x.reader.jobs.filter fun j => j.1 != b } }
  let s := modEntry x.entry (fun _ => x) s
  if !ok then streamReadFails x k (freeAll Owner.media [b] s)
  else if x.reader.ready ≠ k then freeAll Owner.media [b] s
  else
    let x := { x with reader := { x.reader with ready := k + 1, failAt := none }, held := x.held ++ [(k, b)] }
    entryGoes x (modEntry x.entry (fun _ => x) s)

/-- The copy, of the two kinds, whose job on buffer `b` ends. -/
def copyOf (s : State) (b : Nat) : Option (StreamEntry × Nat) :=
  s.arc.entries.findSome? fun x => (x.reader.jobs.find? fun j => j.1 == b).map fun j => (x, j.2)

/-- A sector job (`op` 1 SECTOR_ENC, 2 SECTOR_DEC) of buffer `b` that serves no host command ends. -/
def copyJobEnds (b op : Nat) (ok : Bool) (s : State) : State :=
  if s.arc.orphans.contains b then
    freeAll Owner.media [b] (modArc s fun a => { a with orphans := a.orphans.erase b })
  else match s.arc.rewrap, copyOf s b with
    | some r, y =>
      match r.reader.jobs.find? fun j => j.1 == b with
      | some (_, k) => if op = 2 then rwDecEnds r b k ok s else s
      | none =>
        if op == 1 && r.encs.contains b then
          if ok then rwAssign r b s
          else rwFailAt RwResult.write (workAt s r.tgt).assignEnd
            (freeAll Owner.media [b] (modRewrap s fun x => { x with encs := x.encs.filter (· != b) }))
        else match y with
          | some (x, k) => streamDecEnds x b k ok s
          | none => s
    | none, some (x, k) => streamDecEnds x b k ok s
    | none, none => s

end Sys2Proof.Machine
end

