-- ==== Sys2Proof/Machine/Frames.lean ====
section
/-! DEFINITION. What the bytes of an Ethernet frame say: its tags and EtherType, the packet in it with the
checksums that R323 asks for, the service that it belongs to (R303, R304), and its MACsec protection (R310).
The layouts are those of IEEE 802.3, 802.1Q, 802.1AE, IPv4, IPv6, UDP, TCP and RoCE v2, which the
specification names and does not print (PRESUMED, log entry 70). A frame is given from its destination address
on; `c` stands for a frame in clear without its FCS. -/

namespace Sys2Proof.Machine

/-! ## The MAC header -/

/-- EtherType at byte `i` of a frame. -/
def etherType (b : List Nat) (i : Nat) : Nat := beNat ((b.drop i).take 2)

/-- The VID of a tagged frame, and the place of the EtherType behind its tag. -/
def frameVid (b : List Nat) : Option Nat :=
  if etherType b 12 = 0x8100 then some (beNat ((b.drop 14).take 2) % 4096) else none

def typePlace (b : List Nat) : Nat := if (frameVid b).isSome then 16 else 12

/-- The priority of a frame in clear (R304): the PCP of its tag, else bits 5:3 of the DSCP of an IPv4
or IPv6 packet; a frame with neither has priority 0. -/
def framePrio (b : List Nat) : Nat :=
  if (frameVid b).isSome then b.getD 14 0 / 32
  else if etherType b 12 = 0x0800 then b.getD 15 0 / 32
  else if etherType b 12 = 0x86DD then b.getD 14 0 % 16 / 2
  else 0

/-- A PAUSE frame of Annex 31B. -/
def isPause (b : List Nat) : Bool := etherType b 12 == 0x8808 && etherType b 14 == 1

/-- An EAPOL frame. -/
def isEapol (b : List Nat) : Bool := etherType b (typePlace b) == 0x888E

/-- The FCS at the end of a received frame is right. -/
def fcsOk (b : List Nat) : Bool := leNat (b.drop (b.length - 4)) == crc32 (b.take (b.length - 4))

/-- A frame with the FCS that the MAC appends. -/
def withFcs (b : List Nat) : List Nat := b ++ leBytes 4 (crc32 b)

/-! ## The packet in a frame -/

/-- An IPv4 address as IPv4-mapped IPv6. -/
def mapped (a : List Nat) : List Nat := List.replicate 10 0 ++ [0xFF, 0xFF] ++ a

/-- An IP packet: its protocol, its addresses as IPv6, its header, what it carries, and whether it is a
fragment. -/
structure IpPacket where
  proto : Nat
  src : List Nat
  dst : List Nat
  header : List Nat
  body : List Nat
  fragment : Bool
  v4 : Bool
  deriving DecidableEq, Repr

/-- The IP packet in a frame in clear, if it carries one. -/
def ipPacket (c : List Nat) : Option IpPacket :=
  let p := c.drop (typePlace c + 2)
  if etherType c (typePlace c) = 0x0800 then
    let h := 4 * (p.getD 0 0 % 16)
    some ⟨p.getD 9 0, mapped ((p.drop 12).take 4), mapped ((p.drop 16).take 4), p.take h,
      (p.take (beNat ((p.drop 2).take 2))).drop h, beNat ((p.drop 6).take 2) % 2 ^ 14 != 0, true⟩
  else if etherType c (typePlace c) = 0x86DD then
    some ⟨p.getD 6 0, (p.drop 8).take 16, (p.drop 24).take 16, p.take 40,
      (p.drop 40).take (beNat ((p.drop 4).take 2)), p.getD 6 0 == 44, false⟩
  else none

/-- The 16-bit words of bytes, the last one padded with a zero, added up. -/
def wordSum : List Nat → Nat
  | a :: b :: l => 256 * a + b + wordSum l
  | [a] => 256 * a
  | [] => 0

/-- Bytes that hold their own Internet checksum add up to all ones. -/
def sumOk (l : List Nat) : Bool := wordSum l != 0 && wordSum l % 0xFFFF == 0

/-- The pseudo-header of a packet's checksum. -/
def pseudoHeader (i : IpPacket) : List Nat :=
  (if i.v4 then i.src.drop 12 ++ i.dst.drop 12 else i.src ++ i.dst) ++ beBytes 4 i.body.length ++ [0, 0, 0, i.proto]

/-- Destination and source port of a UDP datagram or a TCP segment. -/
def destPort (i : IpPacket) : Nat := beNat ((i.body.drop 2).take 2)
def sourcePort (i : IpPacket) : Nat := beNat (i.body.take 2)

/-- The bytes that the ICRC of RoCE v2 covers: with ones in place of the fields that may change on the way. -/
def icrcBytes (i : IpPacket) : List Nat :=
  let h := if i.v4 then ((i.header.set 1 0xFF).set 8 0xFF).set 10 0xFF |>.set 11 0xFF
    else (((i.header.set 0 0x6F).set 1 0xFF).set 2 0xFF).set 3 0xFF |>.set 7 0xFF
  let u := ((i.body.take (i.body.length - 4)).set 6 0xFF).set 7 0xFF |>.set 12 0xFF
  List.replicate 8 0xFF ++ h ++ u

/-- The ICRC of a RoCE v2 datagram is right. -/
def icrcOk (i : IpPacket) : Bool := leNat (i.body.drop (i.body.length - 4)) == crc32 (icrcBytes i)

/-- Every checksum of R323 over a packet is right: IP, UDP and TCP, and the ICRC. A UDP checksum of zero is
none. A fragment has no checksum of its own beyond that of its header. -/
def packetOk (i : IpPacket) : Bool :=
  (!i.v4 || sumOk i.header) && (i.fragment ||
    (if i.proto = 6 then sumOk (pseudoHeader i ++ i.body)
    else if i.proto = 17 then
      (beNat ((i.body.drop 6).take 2) == 0 || sumOk (pseudoHeader i ++ i.body)) && (destPort i != 4791 || icrcOk i)
    else true))

/-! ## Services (R303) -/

/-- A service that the receive parser steers by. -/
inductive NetService where
  | rdma
  | tcp
  | noile
  | ptp
  | firmware
  | other
  deriving DecidableEq, Repr

/-- The service of an IP packet; `noile` is the UDP port of object 0x1020:01. -/
def packetService (noile : Nat) (i : IpPacket) : NetService :=
  if i.proto = 17 then
    if destPort i = 4791 then .rdma
    else if destPort i = noile then .noile
    else if destPort i = 319 ∨ destPort i = 320 then .ptp
    else .other
  else if i.proto = 6 then
    if destPort i ∈ [4420, 8009] ∨ sourcePort i ∈ [4420, 8009] then .tcp else .other
  else if i.proto = (if i.v4 then 1 else 58) then .firmware
  else .other

/-- The service of a frame in clear. -/
def frameService (noile : Nat) (c : List Nat) : NetService :=
  match ipPacket c with
  | some i => packetService noile i
  | none =>
    if etherType c (typePlace c) ∈ [0x0806, 0x888E] then .firmware
    else if etherType c (typePlace c) = 0x88F7 then .ptp
    else .other

/-! ## MACsec (R310, IEEE 802.1AE) -/

/-- A SecTAG: secure channel, association number, the PN that it carries, its short length, whether the data is
encrypted, and where the secured data begins. -/
structure SecTag where
  sci : Nat
  an : Nat
  pn : Nat
  short : Nat
  encrypted : Bool
  place : Nat
  deriving DecidableEq, Repr

/-- The SecTAG of a frame. Without an SCI it takes the SCI from the source MAC address and 0x0001. -/
def secTag (b : List Nat) : Option SecTag :=
  if etherType b 12 = 0x88E5 then
    let tci := b.getD 14 0
    some ⟨if tci.testBit 5 then beNat ((b.drop 20).take 8) else beNat ((b.drop 6).take 6) * 2 ^ 16 + 1,
      tci % 4, beNat ((b.drop 16).take 4), b.getD 15 0 % 64, tci.testBit 3, if tci.testBit 5 then 28 else 20⟩
  else none

/-- What the cipher suite needs of an SA: the key, whether the PN is extended, SSCI and salt, and the bytes of
the data that stay in clear. -/
structure SecParams where
  key : List Nat
  xpn : Bool
  ssci : Nat
  salt : List Nat
  offset : Nat
  deriving DecidableEq, Repr

/-- The IV of a frame: SCI and PN, or with extended PNs the SSCI and the PN with the salt (R370). -/
def secIv (k : SecParams) (sci pn : Nat) : List Nat :=
  if k.xpn then Crypto.xorBytes (beBytes 4 k.ssci ++ beBytes 8 pn) k.salt else beBytes 8 sci ++ beBytes 4 pn

/-- The secured data and the ICV of a frame without its FCS. -/
def secData (b : List Nat) (t : SecTag) : List Nat × List Nat :=
  let d := b.drop t.place
  let n := if t.short = 0 then d.length - 16 else t.short
  (d.take n, (d.drop n).take 16)

/-- The bytes of the data that are authenticated and not encrypted. -/
def clearBytes (k : SecParams) (t : SecTag) (d : List Nat) : Nat := if t.encrypted then k.offset else d.length

/-- The ICV of a frame passes under PN `pn`. -/
def icvOk (k : SecParams) (b : List Nat) (t : SecTag) (pn : Nat) : Bool :=
  let d := (secData b t).1
  let n := clearBytes k t d
  Crypto.gcmTag k.key (secIv k t.sci pn) (b.take t.place ++ d.take n) (d.drop n) == (secData b t).2

/-- The frame in clear: without the SecTAG, its data decrypted. -/
def unsecured (k : SecParams) (b : List Nat) (t : SecTag) (pn : Nat) : List Nat :=
  let d := (secData b t).1
  let n := clearBytes k t d
  b.take 12 ++ d.take n ++ Crypto.gcmCrypt k.key (secIv k t.sci pn) (d.drop n)

/-- The frame in clear `c` protected under association number `an` and PN `pn`, with the SCI in its SecTAG. -/
def secured (k : SecParams) (sci an pn : Nat) (c : List Nat) : List Nat :=
  let d := c.drop 12
  let short := if d.length < 48 then d.length else 0
  let head := c.take 12 ++ [0x88, 0xE5, 0x2C + an, short] ++ beBytes 4 pn ++ beBytes 8 sci ++ d.take k.offset
  let cipher := Crypto.gcmCrypt k.key (secIv k sci pn) (d.drop k.offset)
  head ++ cipher ++ Crypto.gcmTag k.key (secIv k sci pn) head cipher

/-- The extended PN of a frame that carries its low half, given the highest PN accepted so far. -/
def recoverPn (high low : Nat) : Nat :=
  let h := high / 2 ^ 32
  if low < high % 2 ^ 32 ∧ low < 2 ^ 31 ∧ 2 ^ 31 ≤ high % 2 ^ 32 then (h + 1) * 2 ^ 32 + low else h * 2 ^ 32 + low

end Sys2Proof.Machine
end

