-- ==== Sys2Proof/Machine/Control.lean ====
section
/-! DEFINITION. The arithmetic of the servo engine (R169, R182 to R185): coefficient banks, the
state-space block, biquads, integrator, clamp and transition limiter, and the checks of a bank. -/

namespace Sys2Proof.Machine

/-- A coefficient bank: its words by number. -/
abbrev Bank := List (Nat × Word)

/-- Word `i` of a bank. -/
def bankWord (b : Bank) (i : Nat) : Nat := (sget zeroDflt b i).toNat

/-- The fp32 value of word `i` of a bank. -/
def coef (b : Bank) (i : Nat) : Rat := fpVal (bankWord b i)

/-! ## The layout of a bank (R182) -/

def bankNv (b : Bank) : Nat := bitsOf (bankWord b 0) 0 6
def bankNm (b : Bank) : Nat := bitsOf (bankWord b 0) 8 5
def bankNbqv (b : Bank) : Nat := bitsOf (bankWord b 0) 16 5
def bankNbqm (b : Bank) : Nat := bitsOf (bankWord b 0) 24 4
def bankNff (b : Bank) : Nat := bitsOf (bankWord b 1) 0 6

/-- M, the multiply-accumulate count. -/
def bankMacs (b : Bank) : Nat :=
  bankNv b ^ 2 + 4 * bankNv b + 11 + 5 * bankNbqv b + 3 * bankNff b
    + 4 * (bankNm b ^ 2 + 2 * bankNm b + 4 + 5 * bankNbqm b)

/-- The words of a bank that are fp32 and in use. -/
def bankUsed (b : Bank) : List Nat :=
  let range (lo n : Nat) : List Nat := (List.range n).map (lo + ·)
  let nv := bankNv b
  let nm := bankNm b
  range 4 17 ++ range 0x40 (nv * nv + 3 * nv + nv + 3)
    ++ (List.range (bankNbqv b)).flatMap (fun i => range (0x800 + 8 * i) 5)
    ++ (List.range 3).flatMap (fun a => range (0x880 + 32 * a) (bankNff b))
    ++ (List.range 4).flatMap fun k =>
      range (0x1000 + 0x400 * k) (nm * nm + 2 * nm + 1)
        ++ (List.range (bankNbqm b)).flatMap fun i => range (0x1380 + 0x400 * k + 8 * i) 5

/-- The first check of R183 that a bank fails for actuator `a`, or 0. -/
def bankCheck (s : State) (a : Nat) (b : Bank) : Nat :=
  let vcm := fpVal (rdN s (if a = 0 then Reg.SLU_VCMMAX0 else Reg.SLU_VCMMAX1))
  if 40 < bankNv b ∨ 24 < bankNm b ∨ 16 < bankNbqv b ∨ 8 < bankNbqm b ∨ 32 < bankNff b then 1
  else if 4096 < bankMacs b then 2
  else if (bankUsed b).any fun i => fpNonFinite (bankWord b i) then 3
  else if !decide (coef b 5 < coef b 4 ∧ coef b 7 ≤ coef b 6 ∧ 0 < coef b 0x0A ∧ 0 < coef b 0x0C
      ∧ 0 < coef b 0x0D) then 4
  else if !decide (ratAbs (coef b 5) ≤ vcm ∧ ratAbs (coef b 4) ≤ vcm ∧ coef b 0x0C ≤ rdF s Reg.SLU_MAVMAX) then 5
  else 0

/-! ## Waveforms (R189) -/

/-- Pi, to 20 digits. -/
def piApprox : Rat := 314159265358979323846 / 100000000000000000000

/-- ln 2, to 20 digits. -/
def lnTwo : Rat := 69314718055994530942 / 100000000000000000000

/-- A series in Horner's form: 1 + f k * (1 + f (k + 1) * (1 + …)), of `n` terms. -/
def hornerFrom (f : Nat → Rat) : Nat → Nat → Rat
  | 0, _ => 1
  | n + 1, k => 1 + f k * hornerFrom f n (k + 1)

/-- The sine of an angle in turns. -/
def sineSeries (x : Rat) : Rat :=
  let y := x - (roundHalfUp x : Rat)
  let y := if 1 / 4 < y then 1 / 2 - y else if y < -1 / 4 then -1 / 2 - y else y
  let t := 2 * piApprox * y
  t * hornerFrom (fun k => -(t * t) / ((2 * k * (2 * k + 1) : Nat) : Rat)) 12 1

/-- The sine as the injector forms it: within 2^-24 of the series (log entry 4). -/
def sineOf (x : Rat) : Rat := sineSeries x + clampSym (1 / 2 ^ 24) (Config.sineError x)

/-- e to the power `x`, for a small `x`. -/
def expSmall (x : Rat) : Rat := hornerFrom (fun k => x / (k : Rat)) 16 1

/-- 2 to an integer power. -/
def twoPow (k : Int) : Rat := if 0 ≤ k then (2 : Rat) ^ k.toNat else 1 / (2 : Rat) ^ (-k).toNat

/-- e to the power `x`. -/
def expSeries (x : Rat) : Rat :=
  let k := roundHalfUp (x / lnTwo)
  twoPow k * expSmall (x - (k : Rat) * lnTwo)

/-- The natural logarithm of a number above 0: halved or doubled to within 3/2 of 1, at most `n` times. -/
def lnSeries : Nat → Rat → Rat
  | 0, _ => 0
  | n + 1, x =>
    if 3 / 2 < x then lnTwo + lnSeries n (x / 2)
    else if x < 3 / 4 then lnSeries n (2 * x) - lnTwo
    else
      let z := (x - 1) / (x + 1)
      2 * z * (((List.range 14).map fun k => (z * z) ^ k / ((2 * k + 1 : Nat) : Rat)).foldl (· + ·) 0)

/-- The phase in turns of a logarithmic sweep: the integral to time `t` of the frequency
F0 × (F1 / F0)^(t / len). -/
def logPhase (f0 f1 len t : Rat) : Rat :=
  if f0 ≤ 0 ∨ f1 ≤ 0 ∨ len = 0 then Config.logSweep f0 f1 len t
  else if f0 = f1 then f0 * t
  else
    let c := lnSeries 300 (f1 / f0)
    f0 * len * (expSeries (c * t / len) - 1) / c + clampSym (1 / 2 ^ 24) (Config.sweepError f0 f1 len t)

/-! ## One law (R169, R184, R185) -/

/-- A result in the fp32 of the engine (log entry 6). -/
def fpRound (q : Rat) : Rat := fpVal (fpOf q)

/-- A result that fp32 holds as a finite number. -/
def fpFits (q : Rat) : Bool := !fpNonFinite (fpOf q)

/-- What a law takes from its bank: number of states and inputs, the places of its matrices and
biquads, the number of biquads, output and integrator limits, gains and transition slew. -/
structure LawParams where
  n : Nat
  inputs : Nat
  mats : Nat
  bqs : Nat
  nbq : Nat
  lo : Rat
  hi : Rat
  ilo : Rat
  ihi : Rat
  ki : Rat
  kaw : Rat
  slew : Rat

/-- The VCM law of a bank. -/
def vcmParams (b : Bank) : LawParams where
  n := bankNv b
  inputs := 3
  mats := 0x40
  bqs := 0x800
  nbq := bankNbqv b
  lo := coef b 5
  hi := coef b 4
  ilo := coef b 7
  ihi := coef b 6
  ki := coef b 8
  kaw := coef b 9
  slew := coef b 0x0A

/-- The milliactuator law of slot `k` of a bank. -/
def maParams (b : Bank) (k : Nat) : LawParams where
  n := bankNm b
  inputs := 1
  mats := 0x1000 + 0x400 * k
  bqs := 0x1380 + 0x400 * k
  nbq := bankNbqm b
  lo := -coef b 0x0C
  hi := coef b 0x0C
  ilo := -coef b 0x0E
  ihi := coef b 0x0E
  ki := coef b 0x0F
  kaw := coef b 0x10
  slew := coef b 0x0D

/-- The sum of `f 0` to `f (n - 1)`. -/
def sumOf (n : Nat) (f : Nat → Rat) : Rat := ((List.range n).map f).foldl (· + ·) 0

/-- A list cut or padded to `n` elements (R184). -/
def resize {α : Type} (z : α) (n : Nat) (l : List α) : List α := (List.range n).map fun i => l.getD i z

/-- The state-space block: its output and its next states. -/
def stateSpace (b : Bank) (p : LawParams) (x v : List Rat) : Rat × List Rat :=
  let at_ := fun (l : List Rat) i => l.getD i 0
  let bm := p.mats + p.n * p.n
  let cm := bm + p.n * p.inputs
  let y := sumOf p.n (fun j => coef b (cm + j) * at_ x j)
    + sumOf p.inputs fun j => coef b (cm + p.n + j) * at_ v j
  (y, (List.range p.n).map fun i =>
    sumOf p.n (fun j => coef b (p.mats + i * p.n + j) * at_ x j)
      + sumOf p.inputs fun j => coef b (bm + i * p.inputs + j) * at_ v j)

/-- One biquad in direct form II transposed. -/
def biquad (b : Bank) (i : Nat) (st : Rat × Rat) (u : Rat) : Rat × (Rat × Rat) :=
  let y := coef b i * u + st.1
  (y, (coef b (i + 1) * u - coef b (i + 3) * y + st.2, coef b (i + 2) * u - coef b (i + 4) * y))

/-- The cascade of biquads from section `i` on. -/
def biquads (b : Bank) (base : Nat) : Nat → List (Rat × Rat) → Rat → Rat × List (Rat × Rat)
  | _, [], u => (u, [])
  | i, st :: l, u =>
    let (y, st') := biquad b (base + 8 * i) st u
    let (z, l') := biquads b base (i + 1) l y
    (z, st' :: l')

/-- Keep `q` from `lo` to `hi`. -/
def clampRat (lo hi q : Rat) : Rat := if q < lo then lo else if hi < q then hi else q

/-- The transition limiter (R185): the output, and whether it goes on. -/
def limiter (slew : Rat) (l : Law) (start : Bool) (tgt : Rat) : Rat × Bool :=
  if !(l.limiting || start) then (tgt, false)
  else if ratAbs (tgt - l.out) ≤ slew then (tgt, false)
  else (l.out + clampSym slew (tgt - l.out), true)

/-- One step of a law on inputs `v` with feed-forward `ff`; `reseed` at the boundary of a swap. -/
def lawStep (b : Bank) (p : LawParams) (reseed : Bool) (ff : Rat) (v : List Rat) (l : Law) : Law :=
  let (y, x) := stateSpace b p (resize 0 p.n l.x) v
  let (y, bq) := biquads b p.bqs 0 (resize (0, 0) p.nbq l.bq) y
  let iv := if reseed then clampRat p.ilo p.ihi (l.out - y - ff) else l.integ
  let uu := y + iv + ff
  let tgt := clampRat p.lo p.hi uu
  let (out, on) := limiter p.slew l (reseed && tgt != l.out) tgt
  { x := x.map fpRound
    bq := bq.map fun e => (fpRound e.1, fpRound e.2)
    integ := fpRound (clampRat p.ilo p.ihi (iv + p.ki * v.getD 0 0 + p.kaw * (tgt - uu)))
    out := fpRound out
    limiting := on }

/-- A law that does not run, at the boundary of a swap: its states carry over, its integrator is re-seeded for
an output of 0, and its output is held at 0 (R172, R184). -/
def lawIdle (b : Bank) (p : LawParams) (reseed : Bool) (v : List Rat) (l : Law) : Law :=
  if !reseed then { l with out := 0, limiting := false } else
  let x := resize 0 p.n l.x
  let bq := resize (0, 0) p.nbq l.bq
  let (y, _) := biquads b p.bqs 0 bq (stateSpace b p x v).1
  { x := x, bq := bq, integ := fpRound (clampRat p.ilo p.ihi (-y)), out := 0, limiting := false }

/-- Every output and state of a law step on these inputs is finite (R187). -/
def lawFinite (b : Bank) (p : LawParams) (ff : Rat) (v : List Rat) (l : Law) : Bool :=
  let (y, x) := stateSpace b p (resize 0 p.n l.x) v
  let (z, bq) := biquads b p.bqs 0 (resize (0, 0) p.nbq l.bq) y
  x.all fpFits && bq.all (fun e => fpFits e.1 && fpFits e.2) && fpFits (z + ff)

/-- The shock feed-forward filter, over the readings at this and earlier samples, newest first. -/
def shockFir (b : Bank) (hist : List (Rat × Rat × Rat)) : Rat :=
  sumOf (bankNff b) fun t =>
    let r := hist.getD t (0, 0, 0)
    coef b (0x880 + t) * r.1 + coef b (0x8A0 + t) * r.2.1 + coef b (0x8C0 + t) * r.2.2

end Sys2Proof.Machine
end

