-- ==== Sys2Proof/Machine/Servo.lean ====
section
/-! DEFINITION. The servo control engine (chapter 6): samples, errors, readiness, anchors, banks,
injection, capture, retract, and the shock readings (R413). -/

namespace Sys2Proof.Machine

/-- The active bank of actuator `a`. -/
def activeBank (s : State) (a : Nat) : Bank :=
  if bit s (Reg.SRV_STS a) 1 then (srvAt s a).bankB else (srvAt s a).bankA

/-- Laws run: SRV_CTL.EN. -/
def srvEn (s : State) (a : Nat) : Bool := bit s (Reg.SRV_CTL a) 0

/-- The anchor slot's number within its actuator. -/
def anchorOf (s : State) (a : Nat) : Nat := getF s (Reg.SRV_CTL a) 4 2

/-- SRV_MISS.RECOV. -/
def recov (s : State) (a : Nat) : Nat := getF s (Reg.SRV_MISS a) 8 4

/-- Change what the engine follows of slot `k` of actuator `a`. -/
def modSlotSrv (s : State) (a k : Nat) (f : SrvSlot → SrvSlot) : State :=
  modSrv s a fun v => { v with slots := modAt v.slots k f }

/-- Slot `k` of actuator `a`, as the engine follows it. -/
def slotSrv (s : State) (a k : Nat) : SrvSlot := (srvAt s a).slots.getD k SrvSlot.reset

/-- A quotient that the specification leaves open where the divisor is 0 (log entry 4). -/
def divOpen (s : State) (x y : Rat) : Rat := if y = 0 then Config.freeRat s.draws else x / y

/-- The servo track pitch in units of 0.01 nm. -/
def servoPitch (s : State) (a : Nat) : Rat := ((getF s (Reg.SRV_STP a) 0 16 : Nat) : Rat)

/-- PITCH of the band under slot `n`, in units of 0.01 nm; open where its track lies in no band. -/
def slotPitch (s : State) (n : Nat) : Rat :=
  match laneEntry s n with
  | some (_, e) => ((btPitch e : Nat) : Rat)
  | none => Config.freeRat s.draws

/-! ## SRVRDY (R180) -/

/-- The conditions of R180 on slot `k` of actuator `a`. -/
def slotReady (s : State) (a k : Nat) : Bool :=
  let v := srvAt s a
  let t := slotSrv s a k
  srvEn s a && bit s (Reg.SRV_BANK a) 8 && !bit s (Reg.SRV_STS a) 4 && bit s (Reg.SRV_STS a) 5
    && !t.missed && !bit s (Reg.SRV_STS a) (12 + k) && t.headWait == 0 && !v.overrunHold
    && v.injector.isNone && v.retract.isNone

/-- SRVRDY of every slot of actuator `a`; the Sluice acts on it. -/
def updateReady (a : Nat) (s : State) : State :=
  sluAll ((List.range 4).foldl (fun s k => setBit s (Reg.SRV_STS a) (8 + k) (slotReady s a k)) s)

/-! ## Injection (R189) -/

/-- Samples per second of actuator `a`: one per servo sample, or W per revolution unloaded. -/
def sampleRate (s : State) (a : Nat) : Rat :=
  if loaded s a then 1000000000 / ((getF s (Reg.SRV_PERIOD a) 0 16 : Nat) : Rat)
  else ((wedges s * 1000000000 : Nat) : Rat) / ((rdN s Reg.ANG_PERIOD : Nat) : Rat)

/-- The feedback tap of a PRBS order. -/
def prbsTap (order : Nat) : Nat :=
  match order with
  | 7 => 6
  | 9 => 5
  | 11 => 9
  | 15 => 14
  | 23 => 18
  | _ => 28

/-- The next PRBS register. -/
def prbsNext (order r : Nat) : Nat :=
  let b := (r.testBit (order - 1)).xor (r.testBit (prbsTap order - 1))
  (2 * r + (if b then 1 else 0)) % 2 ^ order

/-- Target and signal of the injector of actuator `a`. -/
def injTarget (s : State) (a : Nat) : Nat := getF s (Reg.SRV_INJCTL a) 8 4
def injSignal (s : State) (a : Nat) : Nat := getF s (Reg.SRV_INJCTL a) 4 3
def injLen (s : State) (a : Nat) : Nat := rdN s (Reg.SRV_INJLEN a)

/-- The injected signal at this sample, in the unit of its target. -/
def injValue (s : State) (a : Nat) (j : Injector) : Rat :=
  let amp := rdF s (Reg.SRV_INJAMP a)
  let t : Rat := divOpen s (j.count : Rat) (sampleRate s a)
  let len : Rat := divOpen s (injLen s a : Rat) (sampleRate s a)
  let f0 := rdF s (Reg.SRV_INJF0 a)
  let f1 := rdF s (Reg.SRV_INJF1 a)
  let sin (x : Rat) : Rat := amp * clampSym 1 (sineOf x)
  match injSignal s a with
  | 1 => sin (f0 * t)
  | 2 => sin (f0 * t + divOpen s ((f1 - f0) * t * t) (2 * len))
  | 3 => sin (logPhase f0 f1 len t)
  | 4 => if j.prbs.testBit (getF s (Reg.SRV_INJCTL a) 12 5 - 1) then amp else -amp
  | 5 => amp
  | _ => 0

/-- What is injected at target `t` now. -/
def injectedAt (s : State) (a t : Nat) : Rat :=
  match (srvAt s a).injector with
  | some j => if injTarget s a = t then injValue s a j else 0
  | none => 0

/-- The injection ends with RESULT `r`. -/
def injEnds (a r : Nat) (s : State) : State :=
  let s := modSrv s a fun v => { v with injector := none }
  let s := if injTarget s a = 9 then modSpn s fun p => { p with inject := 0 } else s
  let s := setBit (setBit s (Reg.SRV_INJCTL a) 0 false) (Reg.SRV_STS a) 7 false
  let s := setF (setBit s (Reg.SRV_INJSTS a) 0 false) (Reg.SRV_INJSTS a) 1 3 r
  updateReady a (evt (Reg.SRV_EVT a) 9 s)

/-- The start of a sample: an injection that is over ends. -/
def injCheck (a : Nat) (s : State) : State :=
  match (srvAt s a).injector with
  | none => s
  | some j =>
    if mode s ≠ Mode.test then injEnds a 5 s
    else if j.stop || (injLen s a != 0 && decide (injLen s a ≤ j.count)) then injEnds a 0 s
    else s

/-- The end of a sample: the injector moves on, and drives the spindle's demand where it is its
target. -/
def injNext (a : Nat) (s : State) : State :=
  match (srvAt s a).injector with
  | none => s
  | some j =>
    let v := injValue s a j
    let s := if injTarget s a = 9 then modSpn s fun p => { p with inject := v } else s
    let hold := getF s (Reg.SRV_INJCTL a) 20 4 + 1
    let r := if (j.count + 1) % hold = 0 then prbsNext (getF s (Reg.SRV_INJCTL a) 12 5) j.prbs else j.prbs
    let s := modSrv s a fun v => { v with injector := some { j with count := j.count + 1, prbs := r } }
    setF s (Reg.SRV_INJSTS a) 8 24 (min (j.count + 1) (2 ^ 24 - 1))

/-- The reason to refuse a start, or 0 (R189). -/
def injRefusal (s : State) (a : Nat) : Nat :=
  let t := injTarget s a
  let half := sampleRate s a / 2
  let slot := if 1 ≤ t ∧ t ≤ 4 then some (t - 1) else if 5 ≤ t ∧ t ≤ 8 then some (t - 5) else none
  if mode s ≠ Mode.test then 1
  else if 9 < t || (slot.any fun k => (slotHead s (4 * a + k)).isNone) || (!loaded s a && t != 9) then 2
  else if half < rdF s (Reg.SRV_INJF0 a) ∨ half < rdF s (Reg.SRV_INJF1 a) then 3
  else if t = 9 ∧ ((srvAt s (1 - a)).injector.isSome && injTarget s (1 - a) == 9) = true then 4
  else 0

/-- INJECTION_GO: a write of `v` with GO to SRV_INJCTL; one that runs is left alone. The PRBS starts
from a free register (log entry 4). -/
def injGo (a v : Nat) (s : State) : State :=
  if (srvAt s a).injector.isSome then s else
  let s := plainWrite (Reg.SRV_INJCTL a) (putBits (putBits v 0 1 0) 1 1 0) s
  let r := injRefusal s a
  let s := setF s (Reg.SRV_INJSTS a) 1 3 r
  if r ≠ 0 then s else
  let (p, s) := drawFree 31 s
  let s := setBit (setBit s (Reg.SRV_INJCTL a) 0 true) (Reg.SRV_STS a) 7 true
  let s := wrN s (Reg.SRV_INJSTS a) 1
  let s := modSrv s a fun v => { v with injector := some ⟨0, p, false⟩ }
  updateReady a (if captureArmed s a 1 then captureStarts a s else s)

def execInjectionGo (a : Fin 2) (value : Word) (s : State) : Host.Outcome State Fault Refusal :=
  .next (busOk (injGo a value.toNat s))

/-- INJECTION_STOP: the injector stops at the next sample. -/
def injStop (a : Nat) (s : State) : State :=
  modSrv s a fun v => { v with injector := v.injector.map fun j => { j with stop := true } }

def execInjectionStop (a : Fin 2) (s : State) : Host.Outcome State Fault Refusal :=
  .next (busOk (injStop a s))

/-! ## Capture (R190) -/

/-- Capture stops. -/
def captureEnds (a : Nat) (s : State) : State :=
  let s := modSrv s a fun v => { v with capture := { v.capture with armed := false, running := false, post := none } }
  let s := setBit (setBit s (Reg.SRV_CAPSTS a) 24 false) (Reg.SRV_CAPSTS a) 25 true
  evt (Reg.SRV_EVT a) 10 (setBit s (Reg.SRV_CAPCTL a) 26 false)

/-- Store one record of four signals. -/
def captureStore (a : Nat) (f : Nat → Rat) (s : State) : State :=
  let c := (srvAt s a).capture
  let ctl := rdN s (Reg.SRV_CAPCTL a)
  let place := 4 * (c.written % 65536)
  let put (m : List (Nat × Word)) (n : Nat) : List (Nat × Word) :=
    sput zeroDflt m (place + n) (BitVec.ofNat 32 (fpOf (f (bitsOf ctl (5 * n) 5))))
  let s := modSrv s a fun v =>
    { v with
      capRam := [0, 1, 2, 3].foldl put v.capRam
      capture := { v.capture with written := c.written + 1, post := c.post.map (· - 1) } }
  let s := setF s (Reg.SRV_CAPSTS a) 0 17 (min (c.written + 1) 65536)
  if 65536 < c.written + 1 then setBit s (Reg.SRV_CAPSTS a) 26 true else s

/-- Capture's part of a sample, with signal `f` by code. -/
def captureSample (a : Nat) (f : Nat → Rat) (s : State) : State :=
  let c := (srvAt s a).capture
  if !c.running then s
  else if c.post = some 0 then captureEnds a s
  else if 0 < c.decim then modSrv s a fun v => { v with capture := { v.capture with decim := c.decim - 1 } }
  else
    let s := modSrv s a fun v =>
      { v with capture := { v.capture with decim := getF s (Reg.SRV_CAPCTL a) 20 4 } }
    let s := captureStore a f s
    let ring := getF s (Reg.SRV_CAPCTL a) 24 2 == 3
    if (!ring && decide (65536 ≤ c.written + 1)) || c.post == some 1 then captureEnds a s else s

/-- CAPTURE_GO: a write of `v` with GO to SRV_CAPCTL; ignored while capture runs. -/
def captureGo (a v : Nat) (s : State) : State :=
  if bit s (Reg.SRV_CAPCTL a) 26 then s else
  let s := setBit (plainWrite (Reg.SRV_CAPCTL a) v s) (Reg.SRV_CAPCTL a) 26 true
  let s := wrN s (Reg.SRV_CAPSTS a) 0
  let s := modSrv s a fun v => { v with capture := ⟨true, false, 0, 0, none⟩ }
  let t := getF s (Reg.SRV_CAPCTL a) 24 2
  if t = 0 ∨ t = 3 then captureStarts a s else s

def execCaptureGo (a : Fin 2) (value : Word) (s : State) : Host.Outcome State Fault Refusal :=
  .next (busOk (captureGo a value.toNat s))

/-- CAPTURE_STOP: a write of GO = 0. -/
def captureStop (a : Nat) (s : State) : State :=
  if bit s (Reg.SRV_CAPCTL a) 26 then captureEnds a s else s

def execCaptureStop (a : Fin 2) (s : State) : Host.Outcome State Fault Refusal :=
  .next (busOk (captureStop a s))

/-- CAPD3_READ. -/
def capd3Read (a : Nat) (s : State) : State :=
  let i := getF s (Reg.SRV_CAPIDX a) 0 16
  setF (answer (captureWord s a i 3) s) (Reg.SRV_CAPIDX a) 0 16 (i + 1)

def execCapd3Read (a : Fin 2) (s : State) : Host.Outcome State Fault Refusal := .next (capd3Read a s)

/-! ## Banks (R181, R183, R186) -/

/-- The inactive bank becomes active. -/
def bankActivate (a : Nat) (s : State) : State :=
  let s := setBit s (Reg.SRV_STS a) 1 (!bit s (Reg.SRV_STS a) 1)
  let s := setBit (setBit s (Reg.SRV_BANK a) 1 false) (Reg.SRV_BANK a) 8 true
  evt (Reg.SRV_EVT a) 2 (wrN s (Reg.SRV_BANKID a) (bankWord (activeBank s a) 2))

/-- SWAP: a check of the inactive bank starts; during one, or with a swap pending, WINBUSY. -/
def bankSwap (a : Nat) (s : State) : State :=
  if bit s (Reg.SRV_BANK a) 1 || bit s (Reg.SRV_BANK a) 2 then evt (Reg.SRV_EVT a) 11 s
  else setBit s (Reg.SRV_BANK a) 2 true

def execBankSwap (a : Fin 2) (s : State) : Host.Outcome State Fault Refusal := .next (busOk (bankSwap a s))

/-- BANK_CHECK_END. -/
def bankCheckEnd (a : Nat) (s : State) : State :=
  if !bit s (Reg.SRV_BANK a) 2 then s else
  let b := inactiveBank s a
  let r := bankCheck s a b
  let s := setF (setBit s (Reg.SRV_BANK a) 2 false) (Reg.SRV_BANK a) 4 3 r
  if r ≠ 0 then evt (Reg.SRV_EVT a) 3 s else
  let s := setF s (Reg.SRV_BANK a) 16 13 (bankMacs b)
  if srvEn s a then setBit s (Reg.SRV_BANK a) 1 true else bankActivate a s

def execBankCheckEnd (a : Fin 2) (s : State) : Host.Outcome State Fault Refusal :=
  .next (bankCheckEnd a s)

/-- COEFFICIENT_WINDOW_WRITE: a write to the inactive bank of the actuator in SRV_CWSEL. -/
def windowWrite (i : Nat) (w : Word) (s : State) : State :=
  let a := getF s Reg.SRV_CWSEL 0 1
  if bit s (Reg.SRV_BANK a) 1 || bit s (Reg.SRV_BANK a) 2 then evt (Reg.SRV_EVT a) 11 s
  else if bit s (Reg.SRV_STS a) 1 then modSrv s a fun v => { v with bankA := sput zeroDflt v.bankA i w }
  else modSrv s a fun v => { v with bankB := sput zeroDflt v.bankB i w }

def execCoefficientWindowWrite (word : Fin 8192) (value : Word) (s : State) :
    Host.Outcome State Fault Refusal :=
  .next (busOk (windowWrite word value s))

/-- SRV_EN_WRITE: a write of EN. Without a valid bank a 1 is ignored, and while the actuator retracts
EN stays 0 (R181, R188). -/
def srvEnWrite (a : Nat) (en : Bool) (s : State) : State :=
  if en then
    if !bit s (Reg.SRV_BANK a) 8 then evt (Reg.SRV_EVT a) 3 s
    else if retracting s a then s
    else updateReady a (setBit (setBit s (Reg.SRV_CTL a) 0 true) (Reg.SRV_STS a) 0 true)
  else updateReady a (setBit (setBit s (Reg.SRV_CTL a) 0 false) (Reg.SRV_STS a) 0 false)

def execSrvEnWrite (a : Fin 2) (en : Bool) (s : State) : Host.Outcome State Fault Refusal :=
  .next (busOk (srvEnWrite a en s))

/-- ANCH_WRITE: a write of SRV_CTL.ANCH. -/
def execAnchWrite (a : Fin 2) (slot : Fin 4) (s : State) : Host.Outcome State Fault Refusal :=
  .next (busOk (writeAnchor a slot s))

/-! ## Shock (R170, R413) -/

/-- Angular acceleration about the spindle axis in units of 100/16 degrees per second squared times
1,000: the difference of the two newest angular rates. -/
def spinDiff (s : State) : Int := signedOf 16 (getF s (Reg.SRV_SHK 5) 0 16) - s.rates.getD 2 0

/-- The shock quantities exceed a limit register of SLU_SHKLIM's form: a linear axis in 1/1,024 g,
or the angular acceleration in rad/s^2, where pi is taken to 20 digits, which decides every case. -/
def shockOver (s : State) (limit : Nat) : Bool :=
  let lin := (List.range 3).any fun i =>
    decide ((bitsOf limit 0 16 : Int) < (signedOf 16 (getF s (Reg.SRV_SHK i) 0 16)).natAbs)
  let rad : Rat := ((spinDiff s).natAbs : Rat) * 100000 * (314159265358979323846 / 100000000000000000000) / (16 * 180)
  lin || decide (((bitsOf limit 16 16 : Nat) : Rat) < rad)

/-- SHOCK_READING: a reading of the six axes; the conditions are evaluated. -/
def shockReading (l : List Nat) (s : State) : State :=
  let old := [3, 4, 5].map fun i => signedOf 16 (getF s (Reg.SRV_SHK i) 0 16)
  let s := (List.range 6).foldl (fun s i => wrN s (Reg.SRV_SHK i) (l.getD i 0)) { s with rates := old }
  let soft := shockOver s (rdN s Reg.SLU_SHKLIM)
  let hard := shockOver s (rdN s Reg.SLU_SHKHARD)
  let rise := (soft && !bit s Reg.SLU_STS 0) || (hard && !bit s Reg.SLU_STS 1)
  let s := if soft then setBit s Reg.SLU_STS 0 true else s
  let s := if hard then setBit s Reg.SLU_STS 1 true else s
  let last := (if soft then s.clock else s.slu.shockClock.1, if hard then s.clock else s.slu.shockClock.2)
  let s : State := { s with slu := { s.slu with shockClock := last } }
  sluAll (evtIf rise Reg.SLU_EVT 1 s)

def execShockReading (x y z rx ry rz : BitVec 16) (s : State) : Host.Outcome State Fault Refusal :=
  .next (shockReading [x.toNat, y.toNat, z.toNat, rx.toNat, ry.toNat, rz.toNat] s)

/-- SHOCK_CLEAR: the quantities have stayed at or below the limit for SLU_SHKHOLD. -/
def shockClear (hard : Bool) (s : State) : State :=
  let limit := rdN s (if hard then Reg.SLU_SHKHARD else Reg.SLU_SHKLIM)
  let last := if hard then s.slu.shockClock.2 else s.slu.shockClock.1
  if shockOver s limit || decide (s.clock < last + 1000 * getF s Reg.SLU_SHKHOLD 0 16) then s
  else sluAll (setBit s Reg.SLU_STS (if hard then 1 else 0) false)

def execShockClear (hard : Bool) (s : State) : Host.Outcome State Fault Refusal :=
  .next (shockClear hard s)

/-- The shock inputs of the feed-forward filter now. -/
def shockNow (s : State) : Rat × Rat × Rat :=
  let v (i : Nat) : Rat := ((signedOf 16 (getF s (Reg.SRV_SHK i) 0 16) : Int) : Rat)
  (v 0 * Config.shockUnit 0, v 1 * Config.shockUnit 1, ((spinDiff s : Int) : Rat) * Config.shockUnit 2)

/-! ## The boundary of a sample (R174, R175, R177, R184) -/

/-- A pending swap takes effect. -/
def swapBoundary (a : Nat) (s : State) : State :=
  if bit s (Reg.SRV_BANK a) 1 then modSrv (bankActivate a s) a fun v => { v with reseed := true } else s

/-- A slot whose head has changed waits for RECOV valid samples, and its law starts anew at the next sample
that is kept (R175, R187). -/
def headBoundary (a k : Nat) (s : State) : State :=
  if !(slotSrv s a k).headChanged then s else
  let n := recov s a
  modSlotSrv s a k fun t => { t with headChanged := false, headWait := n, sat := 0, valid := 0, fresh := true }

/-- The milliactuator law of slot `k` as the sample finds it: at zero with 0 V out for a new head. -/
def maLaw (s : State) (a k : Nat) : Law :=
  if (slotSrv s a k).fresh then Law.reset else (srvAt s a).ma.getD k Law.reset

/-- The laws of new heads have started: the outputs of the previous heads are left to ramp down. -/
def freshen (a : Nat) (s : State) : State :=
  modSrv s a fun v =>
    { v with
      ma := (List.range 4).map (maLaw s a)
      oldHeadOut := (((List.range 4).filter fun k => (slotSrv s a k).fresh).map fun k =>
          (k, (v.ma.getD k Law.reset).out)).filter (fun e => e.2 != 0) ++ v.oldHeadOut
      slots := v.slots.map fun t => { t with fresh := false } }

/-- Outputs of heads that no slot has selected any more move to 0 V by VSLEW. -/
def rampOld (a : Nat) (s : State) : State :=
  let slew := coef (activeBank s a) 0x0D
  modSrv s a fun v =>
    { v with oldHeadOut := v.oldHeadOut.filterMap fun e =>
        if ratAbs e.2 ≤ slew ∨ slew ≤ 0 then none
        else some (e.1, if 0 < e.2 then e.2 - slew else e.2 + slew) }

/-- The profile's parameters. -/
def Profile.params (p : Profile) : List Rat := [p.pos0, p.vel0, p.acc0, p.target, p.vmax, p.amax, p.jmax]

/-- Keep `q` within `d` of `c`. -/
def nearTo (c d q : Rat) : Rat := clampRat (c - d) (c + d) q

/-- The reference of the profile after an interval of `dt` seconds: a free curve, held to the profile's
limits and to what they let it move from the present reference, so that position, velocity and acceleration
have no step (R176, R177; log entry 4). -/
def profileNext (v : Srv) (p : Profile) (dt : Rat) : Rat × Rat × Rat :=
  let (x, u, w) := Config.profileAt p.params (p.n + 1)
  let vm := max (ratAbs p.vmax) (ratAbs v.refVel)
  let am := max (ratAbs p.amax) (ratAbs v.refAcc)
  (asPos (nearTo v.refPos (vm * dt) x), nearTo v.refVel (am * dt) (clampSym (ratAbs p.vmax) u),
    nearTo v.refAcc (ratAbs p.jmax * dt) (clampSym (ratAbs p.amax) w))

/-- The reference of the profile at this sample; a profile ends when it reaches the target with zero velocity
and zero acceleration (R176, R178). -/
def profileStep (a : Nat) (s : State) : State :=
  match (srvAt s a).profile with
  | none => s
  | some p =>
    let r := profileNext (srvAt s a) p (((getF s (Reg.SRV_PERIOD a) 0 16 : Nat) : Rat) / 1000000000)
    let ends := decide (r = (p.target, 0, 0))
    let s := modSrv s a fun v =>
      { v with
        profile := if ends then none else some { p with n := p.n + 1 }
        refPos := r.1, refVel := r.2.1, refAcc := r.2.2
        settleRun := if ends then 0 else v.settleRun
        profEnd := if ends then s.clock else v.profEnd }
    if ends then setBit s (Reg.SRV_STS a) 4 false else s

/-! ## Errors (R167, R168) -/

/-- The reference of slot `k`'s milliactuator law, in servo tracks; open where the slot has no head
or its track lies in no band. -/
def maReference (s : State) (a k : Nat) : Rat :=
  let n := 4 * a + k
  let off := divOpen s ((ctxAt s a k).maoff : Rat) (servoPitch s a)
  match (slotSurface s n).bind fun f => servoPos s f (laneAt s n).track with
  | some p => asPos ((p : Rat) / 256 + off)
  | none => Config.freeRat s.draws

/-- A position in servo tracks. -/
def posOf (w : Word) : Rat := (signedOf 32 w.toNat : Rat) / 256

/-- The error of slot `k` at this sample, from its position or by prediction. -/
def slotError (s : State) (a k : Nat) (p : Option Word) : Rat :=
  let t := slotSrv s a k
  match p with
  | some w => posOf w - maReference s a k
  | none => 2 * t.ePrev - t.ePrev2

/-- Where slot `k` is, in servo tracks. -/
def slotPos (s : State) (a k : Nat) (p : Option Word) : Rat :=
  match p with
  | some w => posOf w
  | none => maReference s a k + slotError s a k p

/-- The engine's error of slot `k` in the VCM law, against the profile's reference. -/
def vcmError (s : State) (a k : Nat) (p : Option Word) : Rat := slotPos s a k p - (srvAt s a).refPos

/-- A hand-over starts with `h0` (R174). -/
def handoverStarts (a : Nat) (h0 : Rat) (s : State) : State :=
  setBit (modSrv s a fun v => { v with handover := some (h0, 0) }) (Reg.SRV_STS a) 3 true

/-- An anchor change that was asked for takes effect, and a head change of the anchor hands over
from the previous head. -/
def anchorBoundary (a : Nat) (changed : Bool) (p : Nat → Option Word) (s : State) : State :=
  let old := anchorOf s a
  match (srvAt s a).anchReq with
  | some k =>
    let s := tstSweep (setF (modSrv s a fun v => { v with anchReq := none }) (Reg.SRV_CTL a) 4 2 k)
    handoverStarts a (vcmError s a k (p k) - vcmError s a old (p old)) s
  | none => if changed then handoverStarts a (vcmError s a old (p old) - (srvAt s a).vLast) s else s

/-- The hand-over offset of this sample, and the next sample's. -/
def handoverStep (a : Nat) (s : State) : Rat × State :=
  match (srvAt s a).handover with
  | none => (0, s)
  | some (h0, j) =>
    let n := getF s (Reg.SRV_ANHOLD a) 0 10
    if n ≤ j then (0, setBit (modSrv s a fun v => { v with handover := none }) (Reg.SRV_STS a) 3 false)
    else (h0 * (1 - (j : Rat) / (n : Rat)), modSrv s a fun v => { v with handover := some (h0, j + 1) })

/-! ## What follows a sample (R168, R173, R178, R179) -/

/-- Missing and valid samples of slot `k`. -/
def countMissing (a k : Nat) (valid : Bool) (s : State) : State :=
  let t := slotSrv s a k
  let max := getF s (Reg.SRV_MISS a) 0 4
  let s := setBit s (Reg.SRV_PES a k) 24 (!valid)
  if valid then
    modSlotSrv s a k fun t =>
      { t with
        missing := 0, valid := t.valid + 1, headWait := t.headWait - 1
        missed := t.missed && decide (t.valid + 1 < recov s a) }
  else
    let s := evtIf (!t.missed && decide (max ≤ t.missing + 1)) (Reg.SRV_EVT a) 7 s
    modSlotSrv s a k fun t =>
      { t with
        missing := t.missing + 1, valid := 0, missed := t.missed || decide (max ≤ t.missing + 1)
        headWait := if t.headWait = 0 then 0 else recov s a }

/-- The percentage of R179. -/
def percentOf (s : State) (a k : Nat) (e ePrev : Rat) : Rat :=
  divOpen s (100 * max (ratAbs e) (ratAbs (2 * e - ePrev)) * servoPitch s a) (slotPitch s (4 * a + k))

/-- Slot `k`'s error is beyond its reach. -/
def beyondReach (s : State) (a k : Nat) (e : Rat) : Bool :=
  let stroke : Rat := match slotHead s (4 * a + k) with
    | some h => ((getF s (Reg.SRV_MASTK a h) 0 16 : Nat) : Rat)
    | none => 0
  decide (min (2 * slotPitch s (4 * a + k)) stroke < ratAbs e * servoPitch s a)

/-- Slot `k`'s error is within the write-inhibit limit, in percent of the PITCH of its band. -/
def withinLimit (s : State) (a k : Nat) (e : Rat) : Bool :=
  decide (divOpen s (100 * ratAbs e * servoPitch s a) (slotPitch s (4 * a + k)) ≤ ((getF s Reg.SLU_PESLIM 0 8 : Nat) : Rat))

/-- The reach condition of slot `k` (R173). -/
def reachStep (a k : Nat) (e : Rat) (sat : Bool) (s : State) : State :=
  let t := slotSrv s a k
  let n := if sat then t.sat + 1 else 0
  let out := bit s (Reg.SRV_STS a) (12 + k)
  let bad := beyondReach s a k e || decide (16 ≤ n)
  let good := withinLimit s a k e && !sat
  let run := if good then t.reachRun + 1 else 0
  let s := modSlotSrv s a k fun t => { t with sat := n, reachRun := run }
  let s := setBit s (Reg.SRV_STS a) (16 + k) sat
  if bad then evtIf (!out) (Reg.SRV_EVT a) 6 (setBit s (Reg.SRV_STS a) (12 + k) true)
  else if out && decide (recov s a ≤ run) then setBit s (Reg.SRV_STS a) (12 + k) false
  else s

/-- The signed 16-bit value nearest to `q` that does not pass the range. -/
def sat16 (q : Rat) : Nat :=
  let i := roundHalfUp q
  encodeSigned 16 (if i < -32768 then -32768 else if 32767 < i then 32767 else i)

/-- Slot `k` after a sample: its error, percentage and SRV_PES. -/
def slotAfter (a k : Nat) (e : Rat) (valid sat : Bool) (s : State) : State :=
  let pct := percentOf s a k e (slotSrv s a k).ePrev
  let s := countMissing a k valid s
  let s := modSlotSrv s a k fun t => { t with ePrev2 := t.ePrev, ePrev := e, pct := pct }
  let s := setF s (Reg.SRV_PES a k) 0 16 (sat16 (e * servoPitch s a))
  let s := setF s (Reg.SRV_PES a k) 16 8 (min 255 pct.floor.toNat)
  reachStep a k e sat s

/-- Settling after a profile (R178). -/
def settleStep (a : Nat) (e : Rat) (s : State) : State :=
  if bit s (Reg.SRV_STS a) 4 then s else
  let win := ((getF s (Reg.SRV_SETL a) 0 8 : Nat) : Rat) / 100 * slotPitch s (4 * a + anchorOf s a)
  let run := if ratAbs e * servoPitch s a ≤ win then (srvAt s a).settleRun + 1 else 0
  let s := modSrv s a fun v => { v with settleRun := run }
  if getF s (Reg.SRV_SETL a) 8 8 ≤ run ∧ bit s (Reg.SRV_STS a) 5 = false then
    evt (Reg.SRV_EVT a) 4 (setBit s (Reg.SRV_STS a) 5 true)
  else s

/-- SRV_SETL.TMO has passed since the end of the profile. -/
def settleOver (s : State) (a : Nat) : Bool :=
  decide ((srvAt s a).profEnd + 100000 * getF s (Reg.SRV_SETL a) 16 16 ≤ s.clock)

/-- SKFAIL: SETTLED has not become 1 in time. -/
def skfail (a : Nat) (s : State) : State :=
  if !bit s (Reg.SRV_STS a) 4 && !bit s (Reg.SRV_STS a) 5 && settleOver s a then seekFails a s else s

def execSkfail (a : Fin 2) (s : State) : Host.Outcome State Fault Refusal := .next (skfail a s)

/-! ## The computation (R169, R187) -/

/-- What a sample's laws are computed from. -/
structure SampleIn where
  v0 : Rat
  off : Rat
  xc : Rat
  ff : Rat
  e : List Rat

/-- The offload term. -/
def offload (s : State) (a : Nat) : Rat :=
  if !bit s (Reg.SRV_CTL a) 10 then 0 else
  sumOf 4 fun k =>
    if (ctxAt s a k).maoff = 0 then coef (activeBank s a) (0x11 + k) * (maLaw s a k).out else 0

/-- The cross-actuator term; a stopped actuator gives 0. -/
def cross (s : State) (a : Nat) : Rat :=
  if bit s (Reg.SRV_CTL a) 11 && srvEn s (1 - a) then rdF s (Reg.SRV_VCMI (1 - a)) else 0

/-- Feed-forward of shock and of the profile's acceleration. -/
def feedForward (s : State) (a : Nat) : Rat :=
  let b := activeBank s a
  let v := srvAt s a
  (if bit s (Reg.SRV_CTL a) 9 then shockFir b v.shockHist else 0) + coef b 0x0B * v.refAcc

/-- Slot `k`'s milliactuator law runs: a head is selected, and CTEN = 1 or it is the anchor. -/
def maRuns (s : State) (a k : Nat) : Bool :=
  (slotHead s (4 * a + k)).isSome && (bit s (Reg.SRV_CTL a) 8 || k == anchorOf s a)

/-- The VCM law as the sample finds it; the boundary of a swap takes the output that is applied (R184). -/
def vcmLaw (s : State) (a : Nat) : Law :=
  let v := srvAt s a
  if v.reseed then { v.law with out := v.appV } else v.law

/-- Slot `k`'s milliactuator law as the sample finds it, likewise. -/
def maBase (s : State) (a k : Nat) : Law :=
  let v := srvAt s a
  if v.reseed && !(slotSrv s a k).fresh then { maLaw s a k with out := v.appM.getD k 0 } else maLaw s a k

/-- The VCM law after the sample. -/
def vcmNext (s : State) (a : Nat) (i : SampleIn) : Law :=
  lawStep (activeBank s a) (vcmParams (activeBank s a)) (srvAt s a).reseed i.ff [i.v0, i.off, i.xc] (vcmLaw s a)

/-- Slot `k`'s milliactuator law after the sample. A law that does not run holds its output at 0 V. -/
def maNext (s : State) (a : Nat) (i : SampleIn) (k : Nat) : Law :=
  let b := activeBank s a
  let r := (srvAt s a).reseed
  if maRuns s a k then lawStep b (maParams b k) r 0 [i.e.getD k 0] (maBase s a k)
  else lawIdle b (maParams b k) r [i.e.getD k 0] (maBase s a k)

/-- Every output and state of the sample is finite. -/
def sampleFinite (s : State) (a : Nat) (i : SampleIn) : Bool :=
  let b := activeBank s a
  let whole (l : Law) : Bool := fpFits l.integ && fpFits l.out
  lawFinite b (vcmParams b) i.ff [i.v0, i.off, i.xc] (vcmLaw s a) && whole (vcmNext s a i)
    && (List.range 4).all fun k => !maRuns s a k ||
      (lawFinite b (maParams b k) 0 [i.e.getD k 0] (maBase s a k) && whole (maNext s a i k))

/-- The cause of an overrun of the sample, if it is one (R187). -/
def overrunCause (s : State) (a wait cce : Nat) (cpar : Bool) (i : SampleIn) : Option Nat :=
  let clocks := (bankMacs (activeBank s a) + 3) / 4 + 48 + 20 * cce
  if 6000 < wait + clocks then some 0
  else if cpar then some 2
  else if !sampleFinite s a i then some 1
  else none

/-- The sample's results are kept, its output set waits for its instant, and the outputs of previous heads
ramp down. -/
def keepResults (a : Nat) (i : SampleIn) (s : State) : State :=
  let v := vcmNext s a i
  let m := (List.range 4).map (maNext s a i)
  let set : OutputSet :=
    ⟨fpOf (v.out + injectedAt s a 0), m.mapIdx fun k l => fpOf (l.out + injectedAt s a (1 + k)), none,
      v.out, m.map Law.out⟩
  let s := modSrv (rampOld a (freshen a s)) a fun t =>
    { t with law := v, ma := m, reseed := false, pendingOut := t.pendingOut ++ [set] }
  setBit s (Reg.SRV_STS a) 2 (v.limiting || m.any Law.limiting)

/-- The computation of a sample. An overrun discards its results. -/
def compute (a wait cce : Nat) (cpar : Bool) (i : SampleIn) (s : State) : State :=
  match overrunCause s a wait cce cpar i with
  | some c => modSrv s a fun t => { t with pendingOut := t.pendingOut ++ [⟨0, [], some c, 0, []⟩] }
  | none => keepResults a i s

/-- The signal of a capture code (R190). Commands are those of the laws while they run, and else those that
drive the actuator. -/
def captureSignal (s : State) (a : Nat) (i : SampleIn) (code : Nat) : Rat :=
  let v := srvAt s a
  let laws := srvEn s a && !retracting s a
  let nm : Rat := servoPitch s a / 100
  let k := anchorOf s a
  let e (k : Nat) : Rat := i.e.getD k 0
  let ma (k : Nat) : Rat := if laws then (v.ma.getD k Law.reset).out else rdF s (Reg.SRV_MAV a k)
  match code with
  | 0 => e k * nm
  | 1 => e 0 * nm
  | 2 => e 1 * nm
  | 3 => e 2 * nm
  | 4 => e 3 * nm
  | 5 => if laws then v.law.out else rdF s (Reg.SRV_VCMI a)
  | 6 => ma 0
  | 7 => ma 1
  | 8 => ma 2
  | 9 => ma 3
  | 10 => v.law.integ
  | 11 => match v.injector with
    | some j => injValue s a j
    | none => 0
  | 12 => (v.shockHist.getD 0 (0, 0, 0)).1
  | 13 => (v.shockHist.getD 0 (0, 0, 0)).2.1
  | 14 => (v.shockHist.getD 0 (0, 0, 0)).2.2
  | 15 => v.refPos - (signedOf 32 (rdN s (Reg.SRV_TGT a)) : Rat) / 256
  | 16 => i.off
  | 17 => rdF s Reg.WEIR_OUT
  | 18 => (2 * e k - (slotSrv s a k).ePrev2) * nm
  | 19 => i.xc
  | _ => 0

/-! ## The trigger of a sample -/

/-- Every milliactuator output whose head no slot has selected, and that of a new head, is at 0 V
(R171, R175). -/
def idleOutputs (a : Nat) (s : State) : State :=
  let off (k : Nat) : Bool := (slotHead s (4 * a + k)).isNone || (slotSrv s a k).fresh
  let s' := rampOld a (freshen a s)
  let s' := modSrv s' a fun v =>
    { v with
      ma := v.ma.mapIdx fun k l => if off k then { l with out := 0, limiting := false } else l
      appM := v.appM.mapIdx fun k q => if off k then 0 else q }
  (List.range 4).foldl (fun t k => if off k then wrN t (Reg.SRV_MAV a k) 0 else t) s'

/-- The current of a retract: it follows the back-EMF of the VCM, which is not given, within SRV_RETI
(R188; log entry 4). -/
def retractCurrent (s : State) (a : Nat) : Rat :=
  clampSym (ratAbs (rdF s (Reg.SRV_RETI a))) (Config.freeRat s.draws)

/-- A command clamped to a Sluice limit, counted when the clamp acts. -/
def sluClamp (limit w : Nat) (s : State) : Nat × State :=
  let m := fpVal limit
  if fpNonFinite w ∨ m < ratAbs (fpVal w) then
    (fpOf (if w.testBit 31 then -m else m), evt Reg.SLU_EVT 10 (satInc s Reg.SLU_CLAMPCNT 32))
  else (w, s)

/-- Drive actuator `a` with a VCM command and four milliactuator commands, each within its Sluice limit
(R171, R416). -/
def driveOutputs (a vcm : Nat) (mav : List Nat) (s : State) : State :=
  let (v, s) := sluClamp (rdN s (if a = 0 then Reg.SLU_VCMMAX0 else Reg.SLU_VCMMAX1)) vcm s
  let s := wrN s (Reg.SRV_VCMI a) v
  (List.range 4).foldl (fun s k =>
    let (m, s) := sluClamp (rdN s Reg.SLU_MAVMAX) (mav.getD k 0) s
    wrN s (Reg.SRV_MAV a k) m) s

/-- The outputs of a sample while the actuator retracts: the milliactuators' ramp to 0 V. -/
def retractOutputs (a : Nat) (s : State) : State :=
  let slew := coef (activeBank s a) 0x0D
  let s := idleOutputs a s
  let s := modSrv s a fun v =>
    { v with ma := v.ma.map fun l => { l with out := if slew ≤ 0 then 0 else l.out - clampSym slew l.out } }
  let outs := (List.range 4).map fun k => ((srvAt s a).ma.getD k Law.reset).out
  let i := retractCurrent s a
  let s := modSrv { s with draws := s.draws + 1 } a fun v => { v with appM := outs }
  driveOutputs a (fpOf i) (outs.map fpOf) s

/-- The outputs of a sample: the laws are computed while they run. -/
def sampleOutputs (a wait cce : Nat) (cpar : Bool) (i : SampleIn) (s : State) : State :=
  if retracting s a then retractOutputs a s
  else if srvEn s a then compute a wait cce cpar i s
  else idleOutputs a s

/-- A sample with the heads loaded. Errors, missing samples and percentages are those of every sample
(R167, R168, R179); the reference moves and the anchor settles while the laws run. -/
def loadedSample (a wait cce : Nat) (cpar : Bool) (p : Nat → Option Word) (s : State) : State :=
  let laws := srvEn s a && !retracting s a
  let changed := (slotSrv s a (anchorOf s a)).headChanged
  let s := swapBoundary a s
  let s := (List.range 4).foldl (fun s k => headBoundary a k s) s
  let s := if laws then profileStep a s else s
  let s := anchorBoundary a changed p s
  let k := anchorOf s a
  let tracks (j : Nat) : Rat := divOpen s (100 * injectedAt s a (5 + j)) (servoPitch s a)
  let e := (List.range 4).map fun j =>
    slotError s a j (p j) + (if injTarget s a = 5 + j then tracks j else 0)
  let v := vcmError s a k (p k) + (if injTarget s a = 5 + k then tracks k else 0)
  let (h, s) := handoverStep a s
  let i : SampleIn := ⟨v - h, offload s a, cross s a, feedForward s a, e⟩
  let s := sampleOutputs a wait cce cpar i s
  let s := wrN (modSrv s a fun t => { t with vLast := v }) (Reg.SRV_POS a)
    (encodeSigned 32 (roundHalfUp (256 * slotPos s a k (p k))))
  let vmax := coef (activeBank s a) 0x0C
  let s := (List.range 4).foldl (fun s j =>
    let sat := decide (vmax ≤ ratAbs ((srvAt s a).ma.getD j Law.reset).out)
    slotAfter a j (e.getD j 0) (p j).isSome sat s) s
  let s := if laws then settleStep a v s else s
  let s := gauge a (slotSrv s a k).pct.floor s
  captureSample a (captureSignal s a i) s

/-- The shock readings at this sample join those of earlier ones (R170). -/
def shockSample (a : Nat) (s : State) : State :=
  modSrv s a fun v => { v with shockHist := (shockNow s :: v.shockHist).take 32 }

/-- SERVO_SAMPLE: the trigger of a sample. Unloaded, only injection and capture run (R189). -/
def servoSample (a dt wait cce : Nat) (cpar : Bool) (p : Nat → Option Word) (s : State) : State :=
  let s := shockSample a (injCheck a s)
  let s :=
    if !loaded s a then captureSample a (captureSignal s a ⟨0, 0, 0, 0, []⟩) s
    else
      loadedSample a wait cce cpar p
        (evtIf (decide (0 < cce)) (Reg.SRV_EVT a) 12 (wrN s (Reg.SRV_PERIOD a) dt))
  updateReady a (injNext a s)

def execServoSample (a : Fin 2) (dt : BitVec 16) (wait : BitVec 16) (p0 p1 p2 p3 : Option Word)
    (cce : Fin 8) (cpar : Bool) (s : State) : Host.Outcome State Fault Refusal :=
  .next (servoSample a dt.toNat wait.toNat cce cpar (fun k => ([p0, p1, p2, p3].getD k none)) s)

/-! ## Output instants (R161, R171, R187, R416) -/

/-- The outputs of a set change together. -/
def applySet (a : Nat) (o : OutputSet) (s : State) : State :=
  let s := driveOutputs a o.vcm o.mav s
  setF (modSrv s a fun t => { t with overrunHold := false, appV := o.lawV, appM := o.lawM }) (Reg.SRV_OVR a) 16 2 0

/-- The sample of an output instant was an overrun; the third in a row starts a retract (R188). -/
def overrun (a cause : Nat) (s : State) : State :=
  let n := getF s (Reg.SRV_OVR a) 16 2 + 1
  let c := getF s (Reg.SRV_OVR a) 0 16
  let s := setF (setF (setF s (Reg.SRV_OVR a) 0 16 (min 65535 (c + 1))) (Reg.SRV_OVR a) 16 2 n) (Reg.SRV_OVR a) 20 2 cause
  let s := evt (Reg.SRV_EVT a) 0 (modSrv s a fun t => { t with overrunHold := true })
  let s := captureTriggered a s
  if 3 ≤ n then startRetract a .overrun (evt (Reg.SRV_EVT a) 1 s) else s

/-- OUTPUT_APPLY: the output instant of the oldest sample. -/
def outputApply (a : Nat) (s : State) : State :=
  match (srvAt s a).pendingOut with
  | [] => s
  | o :: l =>
    let s := modSrv s a fun t => { t with pendingOut := l }
    updateReady a (match o.cause with
      | some c => overrun a c s
      | none => applySet a o s)

def execOutputApply (a : Fin 2) (s : State) : Host.Outcome State Fault Refusal :=
  .next (outputApply a s)

/-! ## The end of a retract (R188) -/

/-- RETRACT_END: the actuator rests on its ramp. After overruns it is held; READY and ACTIVE end
once the servo angle was lost and no actuator is loaded (R422). -/
def retractEnd (a : Nat) (s : State) : State :=
  match (srvAt s a).retract with
  | none => s
  | some why =>
    let s := modSrv s a fun v => { v with retract := none, overrunHold := false }
    let s := park a (setBit s (Reg.SRV_STS a) 6 false)
    if why = .overrun then holdActuator a AhCause.overrun s
    else if why = .angleLost then standbyIfUnloaded s
    else s

def execRetractEnd (a : Fin 2) (s : State) : Host.Outcome State Fault Refusal :=
  .next (retractEnd a s)

end Sys2Proof.Machine
end

