-- ==== Sys2Proof/Machine/Cipher.lean ====
section
/-! DEFINITION. The cipher lattice (chapter 13): jobs and invocations, sector and GCM operations, key
slots, the nonce journal, and the DRBG. -/

namespace Sys2Proof.Machine

/-! ## Statuses (R375) -/

namespace CphStatus
abbrev ok : Nat := 0
abbrev tagFail : Nat := 1
abbrev crcFail : Nat := 2
abbrev noKey : Nat := 3
abbrev badUse : Nat := 4
abbrev exhausted : Nat := 5
abbrev noRes : Nat := 6
abbrev badDesc : Nat := 7
abbrev memErr : Nat := 8
end CphStatus

/-! ## Jobs -/

/-- Job number `n`. -/
def jobAt (s : State) (n : Nat) : Option CphJob := s.cph.jobs.find? fun j => j.id == n

/-- Change job number `n`. -/
def modJob (n : Nat) (f : CphJob → CphJob) (s : State) : State :=
  modCph s fun c => { c with jobs := c.jobs.map fun j => if j.id = n then f j else j }

/-- The job ends its work with a status; it completes at the end of its invocation. -/
def setStatus (n st : Nat) (s : State) : State := modJob n (fun j => { j with status := some st }) s

/-- Change the loaded key slot `k`. -/
def modKey (k : Nat) (f : KeySlot → KeySlot) (s : State) : State :=
  modCph s fun c => { c with keys := c.keys.map fun x => if x.slot = k then f x else x }

/-- An invocation of the job runs. -/
def CphJob.running (j : CphJob) : Bool := j.cluster.isSome && !j.ended

/-- The job waits for a cluster. -/
def CphJob.waiting (j : CphJob) : Bool := j.cluster.isNone && j.status.isNone && !j.ended

/-- A sector job. -/
def CphJob.sector (j : CphJob) : Bool := j.op == 1 || j.op == 2

/-- A job that encrypts. -/
def CphJob.encrypts (j : CphJob) : Bool := j.op == 1 || j.op == 3

/-- Counter blocks of a job (R368). -/
def CphJob.size (j : CphJob) : Nat := if j.sector then 257 else (j.len + 15) / 16

/-! ## Firmware jobs (R374) -/

/-- Word `k` of a job descriptor. -/
def jobWord (s : State) (d k : Nat) : Nat := sram32 s (d + 4 * k)

/-- The job that the descriptor at SRAM offset `d` asks for. -/
def parseJob (s : State) (d : Nat) : CphJob :=
  let w := jobWord s d
  { CphJob.blank with
    source := 5
    op := bitsOf (w 0) 0 8
    slot := if (w 0).testBit 20 && (bitsOf (w 0) 0 8 == 1 || bitsOf (w 0) 0 8 == 2) then none
      else some (bitsOf (w 0) 8 12)
    src := bitsOf (w 1) 0 29
    dst := bitsOf (w 2) 0 29
    len := bitsOf (w 3) 0 17
    aadLen := bitsOf (w 4) 0 11
    aad := bitsOf (w 5) 0 29
    lba := w 6 + 2 ^ 32 * w 7
    nsid := w 8
    zone := bitsOf (w 9) 0 20
    epoch := w 10
    desc := some d
    iv := beNat (sramBytes s (d + 52) 12) }

/-- Reserved bits of the descriptor are zero. -/
def reservedZero (s : State) (d : Nat) : Bool :=
  let w := jobWord s d
  decide (w 0 < 2 ^ 21 ∧ w 1 < 2 ^ 29 ∧ w 2 < 2 ^ 29 ∧ w 3 < 2 ^ 17 ∧ w 4 < 2 ^ 11 ∧ w 5 < 2 ^ 29
    ∧ w 9 < 2 ^ 20 ∧ w 11 = 0 ∧ w 12 < 2 ^ 8)

/-- The descriptor keeps every rule of R374. -/
def descOk (s : State) (d : Nat) : Bool :=
  let j := parseJob s d
  reservedZero s d &&
  if j.sector then
    decide (j.src % 4096 = 0 ∧ j.src < 4096 * numBuffers ∧ j.dst = 0 ∧ j.len = 0 ∧ (j.nsid = 1 ∨ j.nsid = 2))
  else (j.op == 3 || j.op == 4) && decide (j.len ≤ 65536 ∧ j.aadLen ≤ 1024)

/-- Firmware jobs that wait in the queue. -/
def firmwareJobs (s : State) : Nat := (s.cph.jobs.filter fun j => j.source == 5 && j.waiting).length

/-- CIPHER_JOB_POST: a write of `v` to CPH_FWQ. -/
def postJob (v : Nat) (s : State) : State :=
  let d := 64 * bitsOf v 6 23
  let s := wr64 s Reg.CPH_FWQ v
  if v % 64 ≠ 0 then wrN s Reg.CPH_FWSTS 2
  else if 64 ≤ firmwareJobs s then wrN s Reg.CPH_FWSTS 1
  else
    issueJob { parseJob s d with status := if descOk s d then none else some CphStatus.badDesc }
      (wrN s Reg.CPH_FWSTS 0)

def execCipherJobPost (value : DWord) (s : State) : Host.Outcome State Fault Refusal :=
  .next (busOk (postJob value.toNat s))

/-- CPH_FWCQ_POP: a read of CPH_FWCQ. -/
def cphFwcqPop (s : State) : State :=
  match s.cph.fwcq with
  | d :: l => answer (d + 2 ^ 31) (modCph s fun c => { c with fwcq := l })
  | [] => answer 0 s

def execCphFwcqPop (s : State) : Host.Outcome State Fault Refusal := .next (cphFwcqPop s)

/-! ## The nonce journal (R386 to R391) -/

/-- The journal pair of a fixed field and check value. -/
def pairAt (s : State) (fixed kcv : Nat) : Option NoncePair :=
  s.cph.pairs.find? fun p => p.fixed == fixed && p.kcv == kcv && !p.retired

/-- The durable bound of a pair, 0 if it is new. -/
def pairBound (s : State) (fixed kcv : Nat) : Nat := ((pairAt s fixed kcv).map NoncePair.bound).getD 0

/-- CPH_NJPAIRS follows the pairs held. -/
def showPairs (s : State) : State := wrN s Reg.CPH_NJPAIRS s.cph.pairs.length

/-- Start writing a journal record, unless the same one is being written. -/
def startRecord (r : NonceRecord) (s : State) : State :=
  if r ∈ s.cph.records then s else modCph s fun c => { c with records := c.records ++ [r] }

/-- Start writing the upper bound `b` for a pair. -/
def reserve (fixed kcv b : Nat) (s : State) : State :=
  if b ≤ pairBound s fixed kcv then s else startRecord ⟨1, fixed, kcv, b⟩ s

/-- The upper bound of the block that holds counter `c` (R387). -/
def blockBound (c : Nat) : Nat := (c / 2 ^ 20 + 1) * 2 ^ 20

/-- Half `h` of the journal begins at this NAND offset. -/
def halfBase (s : State) (h : Nat) : Nat := 2 ^ 21 * getF s Reg.CPH_NJBASE 21 8 + 2 ^ 21 * h

/-- The active half and the records used in it. -/
def activeHalf (s : State) : Nat := getF s Reg.CPH_NJSTS 1 1
def usedRecords (s : State) : Nat := getF s Reg.CPH_NJSTS 15 17

/-- A compaction is due or runs. -/
def compacting (s : State) : Bool := bit s Reg.CPH_NJSTS 2

/-- VALID of a journal record. -/
abbrev nonceValid : Nat := 0x5AA5C33C0FF09669

/-- Bytes 0x00 to 0x17 of a record. -/
def nonceBytes (seq : Nat) (r : NonceRecord) : List Nat :=
  let b := leBytes 4 seq ++ leBytes 4 r.fixed ++ leBytes 3 r.kcv ++ [r.kind] ++ leBytes 8 r.bound
  b ++ leBytes 4 (crc32 b)

/-- Program a record at place `i` of half `h`, its VALID last. -/
def programRecord (h i : Nat) (r : NonceRecord) (s : State) : State :=
  let a := halfBase s h + 32 * i
  let s := nandProg s a (nonceBytes s.cph.seq r)
  modCph (nandProg s (a + 24) (leBytes 8 nonceValid)) fun c => { c with seq := c.seq + 1 }

/-- The pairs after a record is durable: its bound never falls. -/
def addRecord (r : NonceRecord) (l : List NoncePair) : List NoncePair :=
  if r.kind = 2 then
    l.map fun p => if p.fixed = r.fixed ∧ p.kcv = r.kcv then { p with retired := true } else p
  else if l.any fun p => p.fixed == r.fixed && p.kcv == r.kcv && !p.retired then
    l.map fun p =>
      if p.fixed = r.fixed ∧ p.kcv = r.kcv ∧ p.retired = false then { p with bound := max p.bound r.bound } else p
  else l ++ [⟨r.fixed, r.kcv, r.bound, false⟩]

/-- The job waits for the bound of a pair. -/
def waitsFor (s : State) (r : NonceRecord) (j : CphJob) : Bool :=
  j.journal && j.waiting && match keyAt s j.key with
    | some k => k.fixed == r.fixed && k.kcv == r.kcv
    | none => false

/-- The next place of the active half is used; a full half starts a compaction (R390). -/
def usePlace (s : State) : State :=
  let n := usedRecords s + 1
  let s := setF s Reg.CPH_NJSTS 15 17 n
  if 65536 ≤ n then setBit s Reg.CPH_NJSTS 2 true else s

/-- A record is durable: the invocations that wait for it may start. -/
def recordDurable (r : NonceRecord) (s : State) : State :=
  let s := usePlace (programRecord (activeHalf s) (usedRecords s) r s)
  let s := modCph s fun c => { c with pairs := addRecord r c.pairs, records := c.records.drop 1, tries := 0 }
  showPairs (modCph s fun c =>
    { c with jobs := c.jobs.map fun j => if waitsFor s r j then { j with journal := false } else j })

/-- A program of a record failed: it is tried again at the next place, three times in all. -/
def recordFailed (r : NonceRecord) (s : State) : State :=
  let b := freeBytes 24 s
  let s := nandProg { s with draws := s.draws + 24 } (halfBase s (activeHalf s) + 32 * usedRecords s) b
  let s := satInc (usePlace s) Reg.CPH_NJFAIL 32
  if s.cph.tries < 2 then modCph s fun c => { c with tries := c.tries + 1 }
  else
    let s := evt Reg.CPH_EVT 6 (modCph s fun c => { c with records := c.records.drop 1, tries := 0 })
    modCph s fun c =>
      { c with jobs := c.jobs.map fun j => if waitsFor s r j then { j with status := some CphStatus.noRes } else j }

/-- JOURNAL_RECORD_DURABLE: the oldest record's program ends. During a compaction records wait. -/
def journalRecord (ok : Bool) (s : State) : State :=
  match s.cph.records with
  | [] => s
  | r :: _ => if compacting s then s else if ok then recordDurable r s else recordFailed r s

def execJournalRecordDurable (ok : Bool) (s : State) : Host.Outcome State Fault Refusal :=
  .next (journalRecord ok s)

/-- Program compacted copies from place `i` of half `h` on. -/
def programCopies (h : Nat) : Nat → List NoncePair → State → State
  | _, [], s => s
  | i, p :: l, s => programCopies h (i + 1) l (programRecord h i ⟨3, p.fixed, p.kcv, p.bound⟩ s)

/-- COMPACTION: the pairs that are not retired are copied into the other half, which becomes active,
and the old half is erased. -/
def compact (s : State) : State :=
  if !compacting s then s else
  let old := activeHalf s
  let new := 1 - old
  let s := nandErase s (halfBase s new) (halfBase s new + 2 ^ 21)
  let keep := s.cph.pairs.filter fun p => !p.retired
  let s := programCopies new 0 keep s
  let s := setF (setF s Reg.CPH_NJSTS 1 1 new) Reg.CPH_NJSTS 15 17 keep.length
  let s := nandErase s (halfBase s old) (halfBase s old + 2 ^ 21)
  showPairs (setBit (modCph s fun c => { c with pairs := keep }) Reg.CPH_NJSTS 2 false)

def execCompaction (s : State) : Host.Outcome State Fault Refusal := .next (compact s)

/-- The record at place `i` of the journal, both halves in line, if it exists: its SEQ and content. -/
def readNonce (s : State) (i : Nat) : Option (Nat × NonceRecord) :=
  let b := nandBytes s (halfBase s 0 + 32 * i) 32
  if leNat (b.drop 24) = nonceValid ∧ leNat ((b.drop 20).take 4) = crc32 (b.take 20) then
    some (leNat (b.take 4), ⟨b.getD 11 0, leNat ((b.drop 4).take 4), leNat ((b.drop 8).take 3),
      leNat ((b.drop 12).take 8)⟩)
  else none

/-- The journal places that hold some byte that is not erased, rising. -/
def usedPlaces (s : State) : List Nat :=
  ((s.nand.filter fun e => decide (halfBase s 0 ≤ e.1 ∧ e.1 < halfBase s 0 + 2 ^ 22)).map
    fun e => (e.1 - halfBase s 0) / 32).eraseDups

/-- The pairs that the records of a scan give: retired pairs are dropped. -/
def scanPairs (l : List NonceRecord) : List NoncePair :=
  let out := l.filter fun r => r.kind == 2
  ((l.filter fun r => r.kind != 2 && !out.any fun x => x.fixed == r.fixed && x.kcv == r.kcv).foldl
    (fun p r => addRecord r p) []).take 8192

/-- JOURNAL_SCAN_END: the BOOT scan of both halves ends. The half with the highest SEQ is active. -/
def journalScan (s : State) : State :=
  if !bit s Reg.CPH_NJSTS 0 then s else
  let places := usedPlaces s
  let recs := places.filterMap fun i => (readNonce s i).map fun r => (i, r)
  let top := recs.foldl (fun (m : Nat × Nat) r => if m.2 ≤ r.2.1 then (r.1, r.2.1 + 1) else m) (0, 0)
  let h := top.1 / 65536
  let used := (places.filter fun i => decide (i / 65536 = h)).foldl (fun m i => max m (i % 65536 + 1)) 0
  let s := setF (setF s Reg.CPH_NJSTS 1 1 h) Reg.CPH_NJSTS 15 17 used
  let s := setBit (setBit s Reg.CPH_NJSTS 0 false) Reg.CPH_NJSTS 2 (decide (65536 ≤ used))
  let s := modCph s fun c => { c with pairs := scanPairs (recs.map fun r => r.2.2), seq := top.2 }
  setBit (showPairs s) Reg.CPH_STS 17 true

def execJournalScanEnd (s : State) : Host.Outcome State Fault Refusal := .next (journalScan s)

/-! ## Starting invocations (R369 to R371, R386 to R388, R392) -/

/-- The invocations that cluster `c` holds. -/
def clusterJobs (s : State) (c : Nat) : List CphJob :=
  s.cph.jobs.filter fun j => j.running && j.cluster == some c

/-- Blocks outstanding in cluster `c`. -/
def clusterLoad (s : State) (c : Nat) : Nat := ((clusterJobs s c).map CphJob.blocks).foldl (· + ·) 0

/-- The cluster in use with room and the fewest blocks outstanding, the lowest number first (R370). -/
def pickCluster (s : State) : Option Nat :=
  ((clustersInUse s).filter fun c => decide ((clusterJobs s c).length < 4)).foldl
    (fun b c => match b with
      | none => some c
      | some d => if clusterLoad s c < clusterLoad s d then some c else b) none

/-- The waiting job that is served next (R370): one that has waited 20 µs before all that arrived
after it, else the lowest source, and within it the oldest. -/
def pickJob (s : State) : Option CphJob :=
  let l := s.cph.jobs.filter fun j => j.waiting && !j.journal
  match l.find? fun j => decide (j.arrived + 20000 ≤ s.clock) with
  | some j => some j
  | none => [1, 2, 3, 4, 5].findSome? fun p => l.find? fun j => j.source == p

/-- The slot of a job, or MEMERR where the key map cannot be read (R371). -/
def jobSlot (s : State) (j : CphJob) : Option Nat :=
  match j.slot with
  | some k => some k
  | none =>
    if j.nsid = 1 then some (getF s Reg.CPH_KNS1 0 12) else
    let a := 2 * getF s Reg.CPH_KMBASE 1 28 + 2 * j.zone
    let c := (sramWord s (a / 8)).cond
    if c = .multi ∨ c = .poison then none else some (bitsOf (sram16 s a) 0 12)

/-- The use of the slot admits the job. -/
def useAdmits (k : KeySlot) (j : CphJob) : Bool :=
  if j.sector then k.use == KeyUse.atRest else k.use == KeyUse.atRest || k.use == KeyUse.general

/-- Key slot `k` is brought into cluster `c` (R376): its shares are re-randomised with bits of the cluster's mask
generator and written back. -/
def refreshSlot (k c : Nat) (s : State) : State :=
  let g := s.cph.masks.getD c 0
  let m (i : Nat) : Nat := (Config.maskByte g i).toNat
  let s := modKey k (fun x => { x with key := x.key.mask m, sub := x.sub.mask fun i => m (32 + i) }) s
  modCph s fun x => { x with masks := x.masks.set c (Config.maskNext g) }

/-- The job enters a cluster with its key slot. -/
def enterCluster (n k c : Nat) (s : State) : State :=
  refreshSlot k c (modJob n (fun j => { j with cluster := some c, blocks := j.size }) s)

/-- The job waits until the bound of its block is durable (R387). -/
def waitJournal (n : Nat) (k : KeySlot) (s : State) : State :=
  let s := modJob n (fun j => { j with journal := true }) s
  reserve k.fixed k.kcv (blockBound k.counter) (satInc (evt Reg.CPH_EVT 5 s) Reg.CPH_NJWCNT 32)

/-- An encrypting job takes the slot's counter (R388), which may start the next reservation and set
the warnings of R392. -/
def takeCounter (n : Nat) (k : KeySlot) (s : State) : State :=
  let c := k.counter + 1
  let s := modKey k.slot (fun x => { x with counter := c }) s
  let s := modJob n (fun j => { j with iv := k.fixed * 2 ^ 64 + k.counter }) s
  let s := if c % 2 ^ 20 = 2 ^ 19 then reserve k.fixed k.kcv (blockBound c + 2 ^ 20) s else s
  evtIf (c == 2 ^ 48) Reg.CPH_EVT 3 (evtIf (c == 2 ^ 47) Reg.CPH_EVT 2 s)

/-- A job with a loaded key starts in cluster `c`. The IV of an encryption under a GENERAL slot is
not given (log entry 4). -/
def startKeyed (j : CphJob) (k : KeySlot) (c : Nat) (s : State) : State :=
  let s := modJob j.id (fun x => { x with key := k.slot }) s
  if !j.encrypts then enterCluster j.id k.slot c s
  else if k.use ≠ KeyUse.atRest then
    let (v, s) := drawFree 48 s
    let (w, s) := drawFree 48 s
    enterCluster j.id k.slot c (modJob j.id (fun x => { x with iv := v + 2 ^ 48 * w }) s)
  else if 2 ^ 48 ≤ k.counter then setStatus j.id CphStatus.exhausted s
  else if pairBound s k.fixed k.kcv < blockBound k.counter then waitJournal j.id k s
  else enterCluster j.id k.slot c (takeCounter j.id k s)

/-- A job starts in cluster `c`, or ends with a status. -/
def startJob (j : CphJob) (c : Nat) (s : State) : State :=
  match jobSlot s j with
  | none => setStatus j.id CphStatus.memErr s
  | some n =>
    match keyAt s n with
    | none => setStatus j.id CphStatus.noKey s
    | some k =>
      if k.ending.isSome then setStatus j.id CphStatus.noKey s
      else if !useAdmits k j then setStatus j.id CphStatus.badUse s
      else startKeyed j k c s

/-- The lattice serves invocations: EN is set, and no known-answer test occupies its lanes. -/
def latticeServes (s : State) : Bool := bit s Reg.CPH_CTL 0 && !bit s Reg.CPH_CTL 16

/-- INVOCATION_START: the next waiting invocation is assigned to a cluster. -/
def invocationStart (s : State) : State :=
  if !latticeServes s then s else
  match pickJob s, pickCluster s with
  | some j, some c => startJob j c s
  | _, _ => s

def execInvocationStart (s : State) : Host.Outcome State Fault Refusal := .next (invocationStart s)

/-! ## Sector and GCM operations (R41, R372 to R374) -/

/-- The job runs operation `op` and has no status yet. -/
def jobRuns (s : State) (n op : Nat) : Option CphJob :=
  (jobAt s n).filter fun j => j.running && j.op == op && j.status.isNone

/-- Every SRAM word that holds a byte of the range can be read (R346). -/
def readable (s : State) (off n : Nat) : Bool :=
  n == 0 || (List.range ((off % 8 + n + 7) / 8)).all fun i =>
    let c := (sramWord s (off / 8 + i)).cond
    c == .clean || c == .single

/-- The key of a job. -/
def jobKey (s : State) (j : CphJob) : List Nat := ((keyAt s j.key).map fun k => k.key.value).getD []

/-- The EPOCH of a sector job (R42). -/
def jobEpoch (j : CphJob) : Nat := if j.nsid = 2 then 2 ^ 32 * j.zone + j.epoch else 0

/-- The additional authenticated data of a sector (R41). -/
def sectorAad (j : CphJob) : List Nat := leBytes 4 j.nsid ++ leBytes 8 j.lba ++ leBytes 8 (jobEpoch j)

/-- The IV of a job as bytes (R386). -/
def jobIv (j : CphJob) : List Nat := beBytes 12 j.iv

/-- SECTOR_ENC. -/
def sectorEnc (n : Nat) (s : State) : State :=
  match jobRuns s n 1 with
  | none => s
  | some j =>
    if !readable s j.src 4096 then setStatus n CphStatus.memErr s else
    let data := sramBytes s j.src 4096
    let plain := data ++ leBytes 8 (Crypto.crc64 j.lba data)
    let cipher := Crypto.gcmCrypt (jobKey s j) (jobIv j) plain
    let tag := Crypto.gcmTag (jobKey s j) (jobIv j) (sectorAad j) cipher
    let s := sramPutBytes s j.src (cipher.take 4096)
    let s := sramPutBytes s (tagMeta (j.src / 4096)) (jobIv j ++ tag ++ cipher.drop 4096)
    setStatus n CphStatus.ok s

def execSectorEnc (job : Nat) (s : State) : Host.Outcome State Fault Refusal := .next (sectorEnc job s)

/-- A tag failure is counted (R373). -/
def tagFails (s : State) : State := evt Reg.CPH_EVT 8 (satInc s Reg.CPH_TAGFAIL 32)

/-- SECTOR_DEC. Data that fails is replaced by zeros. -/
def sectorDec (n : Nat) (s : State) : State :=
  match jobRuns s n 2 with
  | none => s
  | some j =>
    let m := tagMeta (j.src / 4096)
    if !(readable s j.src 4096 && readable s m 36) then setStatus n CphStatus.memErr s else
    let iv := sramBytes s m 12
    let tag := sramBytes s (m + 12) 16
    let cipher := sramBytes s j.src 4096 ++ sramBytes s (m + 28) 8
    let zeros := List.replicate 4096 0
    let s := modJob n (fun j => { j with iv := beNat iv }) s
    if Crypto.gcmTag (jobKey s j) iv (sectorAad j) cipher != tag then
      setStatus n CphStatus.tagFail (tagFails (sramPutBytes s j.src zeros))
    else
      let plain := Crypto.gcmCrypt (jobKey s j) iv cipher
      if leNat (plain.drop 4096) ≠ Crypto.crc64 j.lba (plain.take 4096) then
        setStatus n CphStatus.crcFail (satInc (sramPutBytes s j.src zeros) Reg.CPH_CRCFAIL 32)
      else setStatus n CphStatus.ok (sramPutBytes s j.src (plain.take 4096))

def execSectorDec (job : Nat) (s : State) : Host.Outcome State Fault Refusal := .next (sectorDec job s)

/-- GCM_ENC. -/
def gcmEnc (n : Nat) (s : State) : State :=
  match jobRuns s n 3 with
  | none => s
  | some j =>
    if !(readable s j.src j.len && readable s j.aad j.aadLen) then setStatus n CphStatus.memErr s else
    let cipher := Crypto.gcmCrypt (jobKey s j) (jobIv j) (sramBytes s j.src j.len)
    let tag := Crypto.gcmTag (jobKey s j) (jobIv j) (sramBytes s j.aad j.aadLen) cipher
    setStatus n CphStatus.ok (sramPutBytes s j.dst (cipher ++ tag))

def execGcmEnc (job : Nat) (s : State) : Host.Outcome State Fault Refusal := .next (gcmEnc job s)

/-- GCM_DEC. -/
def gcmDec (n : Nat) (s : State) : State :=
  match jobRuns s n 4 with
  | none => s
  | some j =>
    if !(readable s j.src (j.len + 16) && readable s j.aad j.aadLen) then setStatus n CphStatus.memErr s else
    let cipher := sramBytes s j.src j.len
    let tag := Crypto.gcmTag (jobKey s j) (jobIv j) (sramBytes s j.aad j.aadLen) cipher
    if tag != sramBytes s (j.src + j.len) 16 then
      setStatus n CphStatus.tagFail (tagFails (sramPutBytes s j.dst (List.replicate j.len 0)))
    else setStatus n CphStatus.ok (sramPutBytes s j.dst (Crypto.gcmCrypt (jobKey s j) (jobIv j) cipher))

def execGcmDec (job : Nat) (s : State) : Host.Outcome State Fault Refusal := .next (gcmDec job s)

/-! ## Ending invocations (R368, R370) -/

/-- The data of an LBA goes to the host of a Read, from buffer `b`. -/
def sendSector (b lba : Nat) (c : HostCmd) (s : State) : State :=
  if c.opcode = IoOp.read then sendData c (.sector lba (sramBytes s (4096 * b) 4096)) s else s

/-- A read sector's data is good: commands that waited for this LBA alone complete, but for those that
firmware completes. -/
def sectorReady (b lba : Nat) (s : State) : State :=
  (s.nqe.cmds.filter fun c => c.reading && c.bufs.contains b && !c.writes).foldl (fun s c =>
    let left := c.left.filter (· != lba)
    let s := modCmd c.slot (fun c => { c with left := left }) (sendSector b lba c s)
    if left = [] ∧ c.phase = .media then complete c.slot Status.success false s else s) s

/-- A sector job of an engine reports to its issuer. A read that fails goes to firmware for reason 4,
a write for reason 5 with its zone repaired (R242). -/
def sectorReport (j : CphJob) (s : State) : State :=
  let b := j.src / 4096
  let mine := s.nqe.cmds.filter fun c => c.reading && c.bufs.contains b
  if mine.isEmpty then copyJobEnds b j.op (j.status == some CphStatus.ok) s
  else if j.op = 2 then
    if j.status = some CphStatus.ok then sectorReady b j.lba s
    else mine.foldl (fun s c => readFails 4 j.lba c s) s
  else if j.status = some CphStatus.ok then s
  else mine.foldl (fun s c => abandon c (toFirmware c.slot 5 s)) s

/-- A firmware job completes into its descriptor and CPH_FWCQ. -/
def firmwareReport (j : CphJob) (d : Nat) (s : State) : State :=
  let s := sramPut8 s (d + 48) (j.status.getD 0)
  let s := if j.op = 4 then s else sramPutBytes s (d + 52) (jobIv j)
  evt Reg.CPH_EVT 9 (modCph s fun c => { c with fwcq := c.fwcq ++ [d] })

/-- A job's result goes to its source. -/
def deliverJob (j : CphJob) (s : State) : State :=
  let s := modCph s fun c => { c with jobs := c.jobs.filter fun x => x.id != j.id }
  match j.desc with
  | some d => firmwareReport j d s
  | none => sectorReport j s

/-- Results of one source go out in the order in which it issued its jobs. -/
def deliverJobs (source : Nat) : Nat → State → State
  | 0, s => s
  | fuel + 1, s =>
    match s.cph.jobs.find? fun j => j.source == source with
    | some j => if j.ended then deliverJobs source fuel (deliverJob j s) else s
    | none => s

/-- INVOCATION_END: the job's last output and tag are out. -/
def invocationEnd (n : Nat) (s : State) : State :=
  match jobAt s n with
  | none => s
  | some j =>
    if j.status.isNone || j.ended then s else
    let s := wrapInc (modJob n (fun j => { j with cluster := none, ended := true }) s) Reg.CPH_INVCNT
    deliverJobs j.source s.cph.jobs.length s

def execInvocationEnd (job : Nat) (s : State) : Host.Outcome State Fault Refusal :=
  .next (invocationEnd job s)

/-! ## Key commands (R380 to R385) -/

/-! ### CPH_KSTS results (R382) -/
namespace KeyResult
abbrev ok : Nat := 0
abbrev loaded : Nat := 1
abbrev notLoaded : Nat := 2
abbrev ffDup : Nat := 3
abbrev jFull : Nat := 4
abbrev scan : Nat := 5
abbrev busy : Nat := 7
end KeyResult

/-- The slot, use and key length in CPH_KSEL. -/
def selSlot (s : State) : Nat := getF s Reg.CPH_KSEL 0 12
def selUse (s : State) : Nat := getF s Reg.CPH_KSEL 16 2
def selLong (s : State) : Bool := bit s Reg.CPH_KSEL 20

/-- A key command of CPH_KCMD runs. -/
def keyBusy (s : State) : Bool := bit s Reg.CPH_KSTS 0

/-- Report a key command's result. -/
def keyResult (r : Nat) (s : State) : State :=
  let s := setF s Reg.CPH_KSTS 1 3 r
  evtIf (r != 0) Reg.CPH_EVT 1 s

/-- The key in CPH_KDATA. -/
def keyData (s : State) : List Nat :=
  (List.range (if selLong s then 8 else 4)).flatMap fun i => leBytes 4 (rdN s (Reg.CPH_KDATA i))

/-- The check value of a key (R381). -/
def checkValue (key : List Nat) : Nat := beNat ((Crypto.aes key (List.replicate 16 1)).take 3)

/-- The check that LOAD fails first. -/
def loadCheck (s : State) : Nat :=
  let kcv := checkValue (keyData s)
  let fixed := rdN s Reg.CPH_KFIX
  if keyBusy s then KeyResult.busy
  else if (keyAt s (selSlot s)).isSome then KeyResult.loaded
  else if selUse s ≠ KeyUse.atRest then KeyResult.ok
  else if s.cph.keys.any fun k => k.use == KeyUse.atRest && k.fixed == fixed then KeyResult.ffDup
  else if (pairAt s fixed kcv).isNone && decide (8192 ≤ s.cph.pairs.length) then KeyResult.jFull
  else if !bit s Reg.CPH_STS 17 then KeyResult.scan
  else KeyResult.ok

/-- Zero CPH_KDATA0 to CPH_KDATA7. -/
def clearKeyData (s : State) : State := (List.range 8).foldl (fun s i => wrN s (Reg.CPH_KDATA i) 0) s

/-- A new pair is held from the LOAD on, with bound 0 until its first record is durable. -/
def holdPair (fixed kcv : Nat) (s : State) : State :=
  if (pairAt s fixed kcv).isSome then s
  else showPairs (modCph s fun c => { c with pairs := c.pairs ++ [⟨fixed, kcv, 0, false⟩] })

/-- The GHASH subkey H of a key (R380). -/
def subkey (key : List Nat) : List Nat := Crypto.aes key (List.replicate 16 0)

/-- A new slot's shares: the mask bytes that split the key and H are free values. -/
def newShares (key : List Nat) (s : State) : Shares × Shares × State :=
  let m (i : Nat) : Nat := (Config.freeValue (s.draws + i)).toNat % 256
  (Shares.split m key, Shares.split (fun i => m (32 + i)) (subkey key), { s with draws := s.draws + 48 })

/-- KEY_LOAD: LOAD of the slot in CPH_KSEL. -/
def keyLoad (s : State) : State :=
  let r := loadCheck s
  if r ≠ KeyResult.ok then keyResult r s else
  let key := keyData s
  let kcv := checkValue key
  let rest := selUse s == KeyUse.atRest
  let fixed := if rest then rdN s Reg.CPH_KFIX else 0
  let count := if rest then pairBound s fixed kcv else 0
  let (one, two, s) := newShares key s
  let k : KeySlot := ⟨selSlot s, one, two, selUse s, kcv, fixed, count, none⟩
  let s := modCph s fun c => { c with keys := c.keys ++ [k] }
  let s := if rest then reserve fixed kcv (blockBound count) (holdPair fixed kcv s) else s
  keyResult KeyResult.ok (clearKeyData s)

def execKeyLoad (s : State) : Host.Outcome State Fault Refusal := .next (busOk (keyLoad s))

/-- DESTROY of the slot in CPH_KSEL, or RETIRE of it with a retire record. -/
def keyEnd (retire : Bool) (s : State) : State :=
  if keyBusy s then keyResult KeyResult.busy s
  else if (keyAt s (selSlot s)).isNone then keyResult KeyResult.notLoaded s
  else
    let s := modKey (selSlot s) (fun k => { k with ending := some retire }) s
    keyResult KeyResult.ok (setBit s Reg.CPH_KSTS 0 true)

def execKeyDestroy (s : State) : Host.Outcome State Fault Refusal := .next (busOk (keyEnd false s))
def execKeyRetire (s : State) : Host.Outcome State Fault Refusal := .next (busOk (keyEnd true s))

/-- A slot becomes not loaded; a retired pair gets its retire record. -/
def dropKey (k : KeySlot) (retire : Bool) (s : State) : State :=
  let s := modCph s fun c => { c with keys := c.keys.filter fun x => x.slot != k.slot }
  if retire && k.use == KeyUse.atRest then startRecord ⟨2, k.fixed, k.kcv, 0⟩ s else s

/-- KDONE: the key command that waited completes once no invocation runs on its slot. -/
def keyDone (s : State) : State :=
  match s.cph.keys.find? fun k => k.ending.isSome with
  | none => s
  | some k =>
    if s.cph.jobs.any fun j => j.running && j.key == k.slot then s
    else evt Reg.CPH_EVT 0 (setBit (dropKey k (k.ending.getD false) s) Reg.CPH_KSTS 0 false)

def execKdone (s : State) : Host.Outcome State Fault Refusal := .next (keyDone s)

/-- Every AT-REST slot is destroyed and its pair retired (R384). -/
def destroyAtRest (s : State) : State :=
  (s.cph.keys.filter fun k => k.use == KeyUse.atRest).foldl (fun s k => dropKey k true s) s

/-! ## Randomness (R376 to R379) -/

/-- The DRBG serves requests. -/
def drbgOk (s : State) : Bool := bit s Reg.CPH_RNGSTS 1 && !bit s Reg.CPH_RNGSTS 2

/-- A generate request of the DRBG; it reseeds itself after every 2^20 of them (R378). -/
def drbgGenerate (s : State) : State :=
  modCph s fun c => { c with generated := (c.generated + 1) % 2 ^ 20 }

/-- 256 bits of DRBG output, which are free values. -/
def drawSeed (s : State) : Nat × State :=
  (List.range 4).foldl (fun r _ =>
    let (v, s) := drawFree 64 r.2
    (2 ^ 64 * r.1 + v, s)) (0, s)

/-- Every mask generator takes a seed. -/
def reseedMasks (s : State) : State :=
  (List.range 40).foldl (fun s c =>
    let (v, s) := drawSeed s
    modCph s fun x => { x with masks := x.masks.set c v }) s

/-- MASK_RESEED: every 65,536 core clocks. A generator that gets no seed goes on from its own state. -/
def maskReseed (s : State) : State :=
  if drbgOk s then reseedMasks (drbgGenerate (wrapInc s Reg.CPH_MRSCNT)) else evt Reg.CPH_EVT 4 s

def execMaskReseed (s : State) : Host.Outcome State Fault Refusal := .next (maskReseed s)

/-- ENTFAIL: a health test fails. -/
def entropyFails (s : State) : State :=
  let s := setBit (setBit s Reg.CPH_RNGSTS 2 true) Reg.CPH_RNGSTS 0 false
  evt Reg.CPH_EVT 4 (satInc (setBit s Reg.CPH_STS 16 false) Reg.CPH_ENTFCNT 32)

def execEntfail (s : State) : Host.Outcome State Fault Refusal := .next (entropyFails s)

/-- RNG_READ: a 64-bit read of CPH_RNG. What the DRBG gives is a free value. -/
def rngRead (s : State) : State :=
  if drbgOk s then
    let (v, s) := drawFree 64 (drbgGenerate (setBit s Reg.CPH_RNGSTS 0 true))
    answer v s
  else answer 0 (setBit s Reg.CPH_RNGSTS 0 false)

def execRngRead (s : State) : Host.Outcome State Fault Refusal := .next (rngRead s)

/-! ## Self-test (R393, R394) -/

/-- The known-answer tests end: the clusters that passed may be used. In BOOT the DRBG is
instantiated with them (R401). -/
def katEnds (pass : Nat) (drbg : Bool) (s : State) : State :=
  let s := showClusters (wr64 s Reg.CPH_CLOK pass)
  let s := evtIf (pass != 2 ^ 40 - 1) Reg.CPH_EVT 7 s
  if mode s = Mode.boot then
    let s := setBit (setBit s Reg.CPH_RNGSTS 1 drbg) Reg.CPH_STS 16 drbg
    setBit s Reg.CPH_STS 0 drbg
  else if pass = 0 then safeHold ShCause.cipher s
  else s

/-- A write of CPH_CTL. A KAT bit of 1 starts the known-answer test in TEST while no invocation waits or runs,
until the test ends it reads 1. While one waits or runs that write is ignored, and outside TEST its KAT bit is
(R393, R394). -/
def cphCtlWrite (v : Nat) (s : State) : State :=
  let asked := v.testBit 16 && mode s == Mode.test
  let starts := asked && s.cph.jobs.isEmpty
  if asked && !starts then s else
  let runs := bit s Reg.CPH_CTL 16 || starts
  showClusters (setBit (plainWrite Reg.CPH_CTL v s) Reg.CPH_CTL 16 runs)

/-- KAT: the tests of BOOT end, or in TEST those that a write of CPH_CTL.KAT has started. -/
def kat (pass : Nat) (drbg : Bool) (s : State) : State :=
  if mode s = Mode.boot then katEnds pass drbg s
  else if mode s = Mode.test ∧ bit s Reg.CPH_CTL 16 = true then katEnds pass drbg (setBit s Reg.CPH_CTL 16 false)
  else s

def execKat (pass : BitVec 40) (drbg : Bool) (s : State) : Host.Outcome State Fault Refusal :=
  .next (kat pass.toNat drbg s)

/-- The lattice after a reset that clears it (R385): no key and no job. Its registers follow the reset. -/
def clearLattice (s : State) : State := { s with cph := { CphState.reset with nextJob := s.cph.nextJob } }

end Sys2Proof.Machine
end

