-- ==== Sys2Proof/Machine/Memory.lean ====
section
/-! DEFINITION. The SRAM controller and the caches of the cores (chapter 12): accesses by class, the
log of corrections, the scrubber, error injection, L2, the Basin and its write-back buffer. -/

namespace Sys2Proof.Machine

/-- Change the SRAM controller's state. -/
def modEcc (s : State) (f : EccState → EccState) : State := { s with ecc := f s.ecc }

/-- Change the caches' state. -/
def modCch (s : State) (f : CchState → CchState) : State := { s with cch := f s.cch }

/-- Words of the SRAM. -/
abbrev sramWords : Nat := 2 ^ 26

/-! ## Corrections and failures (R346, R349) -/

/-- Entry `n` of the log of corrections is valid and names word `i`. -/
def celogNames (s : State) (i n : Nat) : Bool :=
  (rd64 s (Reg.ECC_CELOG n)).testBit 63 && bitsOf (rd64 s (Reg.ECC_CELOG n)) 3 26 == i

/-- Bits set among the low `k` bits of `v`. -/
def popCount (v : Nat) : Nat → Nat
  | 0 => 0
  | k + 1 => (if v.testBit k then 1 else 0) + popCount v k

/-- The channel of SRAM word `i`, and its word address there (R341). -/
def sramChannel (i : Nat) : Nat := i / 8 % 4
def channelWord (i : Nat) : Nat := i / 32 * 8 + i % 8

/-- A syndrome of a single-bit error: a column of the code, which the specification does not give and which is
of odd weight (R343). -/
def columnOf (v : Nat) : Nat := if popCount v 8 % 2 = 1 then v else Nat.xor v 1

/-- The value of an entry for word `i`. -/
def celogValue (i count syndrome : Nat) : Nat :=
  8 * i + 2 ^ 32 * count + 2 ^ 48 * syndrome + 2 ^ 63

/-- A correction at word `i` is counted and logged. -/
def logCorrection (i : Nat) (s : State) : State :=
  let (syn, s) := drawFree 8 s
  let syn := columnOf syn
  let s := evt Reg.ECC_EVT 0 (satInc s Reg.ECC_CECNT 32)
  match (List.range 32).find? (celogNames s i) with
  | some n =>
    let count := min 65535 (bitsOf (rd64 s (Reg.ECC_CELOG n)) 32 16 + 1)
    wr64 s (Reg.ECC_CELOG n) (celogValue i count syn)
  | none =>
    match (List.range 32).find? fun n => !(rd64 s (Reg.ECC_CELOG n)).testBit 63 with
    | some n => wr64 s (Reg.ECC_CELOG n) (celogValue i 1 syn)
    | none => satInc (evtIf (rdN s Reg.ECC_CEOVF == 0) Reg.ECC_EVT 4 s) Reg.ECC_CEOVF 32

/-- CELCLR: a write of 1 invalidates every entry. -/
def celClear (v : Nat) (s : State) : State :=
  if v.testBit 0 then
    (List.range 32).foldl (fun s n =>
      wr64 s (Reg.ECC_CELOG n) (putBits (rd64 s (Reg.ECC_CELOG n)) 63 1 0)) s
  else s

def execCelclr (value : Word) (s : State) : Host.Outcome State Fault Refusal :=
  .next (busOk (celClear value.toNat s))

/-- ECC_UEADDR and ECC_UESRC name word `i` and requester `r`; kind 0 is UE and 1 POISON. -/
def latchUe (r i kind : Nat) (s : State) : State :=
  wrN (wrN s Reg.ECC_UEADDR (8 * i + 2 ^ 29 * kind + 2 ^ 31)) Reg.ECC_UESRC r

/-- Poison word `i` (R344). -/
def poison (i : Nat) (s : State) : State := sramPutWord s i { sramWord s i with cond := .poison }

/-- A word is found UE by requester `r`. -/
def foundUe (r i : Nat) (s : State) : State :=
  evt Reg.ECC_EVT 1 (latchUe r i 0 (satInc (poison i s) Reg.ECC_UECNT 32))

/-- A word is found poisoned by requester `r`. -/
def foundPoison (r i : Nat) (s : State) : State :=
  evt Reg.ECC_EVT 2 (latchUe r i 1 (satInc s Reg.ECC_PSNCNT 32))

/-- A corrected word waits for its write-back (R348). -/
def queueFix (i : Nat) (s : State) : State :=
  if bit s Reg.ECC_CTL 1 && !s.ecc.fixes.contains i then modEcc s fun e => { e with fixes := e.fixes ++ [i] }
  else s

/-- The controller reads word `i` for requester `r`: its data, or none on an error. -/
def ctlRead (r i : Nat) (s : State) : Option Nat × State :=
  let w := sramWord s i
  match w.cond with
  | .clean => (some w.data.toNat, s)
  | .single => (some w.data.toNat, queueFix i (logCorrection i s))
  | .multi => (none, foundUe r i s)
  | .poison => (none, foundPoison r i s)

/-! ## Writes and injection (R344, R347, R352) -/

/-- The flip that ECC_INJ has armed for word `i`: the check-bit mask and the data bit. -/
def armedFlip (s : State) (i : Nat) : Option (Nat × Option Nat) :=
  let v := rd64 s Reg.ECC_INJ
  if v.testBit 63 && bitsOf v 3 26 == i then
    some (bitsOf v 32 8, if v.testBit 46 then some (bitsOf v 40 6) else none)
  else none

/-- A word of data `v` with flipped bits (R343, R352). One flipped bit is corrected; two are UE; all
eight check bits alone are the poison syndrome. From three flips on, the class depends on columns
that the specification does not give: an odd number gives UE or a wrong correction, an even number
UE, POISON, or with a data bit CLEAN, chosen by a free value. -/
def flipped (v mask : Nat) (dataBit : Option Nat) (s : State) : SramWord × State :=
  let n := popCount mask 8 + (if dataBit.isSome then 1 else 0)
  let bad := match dataBit with
    | some d => Nat.xor v (2 ^ d)
    | none => v
  let w (x : Nat) (c : EccCond) : SramWord := ⟨BitVec.ofNat 64 x, c⟩
  if n = 0 then (w v .clean, s)
  else if n = 1 then (w v .single, s)
  else if n = 2 then (w v .multi, s)
  else if mask = 0xFF ∧ dataBit = none then (w v .poison, s)
  else
    let (f, s) := drawFree 8 s
    if n % 2 = 1 then
      if f % 2 = 0 then (w bad .multi, s)
      else (w (if f / 2 % 2 = 0 then Nat.xor bad (2 ^ (f / 4)) else bad) .single, s)
    else if dataBit = none then (w v .multi, s)
    else (w bad (if f % 4 = 0 then .clean else if f % 4 = 1 then .poison else .multi), s)

/-- The controller writes 64 bits to word `i`. -/
def ctlWrite (i v : Nat) (s : State) : State :=
  let s := modEcc s fun e => { e with fixes := e.fixes.erase i }
  match armedFlip s i with
  | none => sramPutWord s i ⟨BitVec.ofNat 64 v, .clean⟩
  | some (mask, d) =>
    let (w, s) := flipped v mask d s
    sramPutWord (wr64 s Reg.ECC_INJ (putBits (rd64 s Reg.ECC_INJ) 63 1 0)) i w

/-- The bytes of `v` that `mask` names over those of `old`. -/
def mergeBytes (old v mask : Nat) : Nat :=
  (List.range 8).foldl (fun x k => if mask.testBit k then putBits x (8 * k) 8 (bitsOf v (8 * k) 8) else x) old

/-- A narrow write of requester `r` to word `i`; the answer says whether it was performed. -/
def ctlNarrow (r i v mask : Nat) (s : State) : Bool × State :=
  let w := sramWord s i
  let merged := mergeBytes w.data.toNat v mask
  match w.cond with
  | .clean => (true, ctlWrite i merged s)
  | .single => (true, ctlWrite i merged (logCorrection i s))
  | .multi => (false, evt Reg.ECC_EVT 3 (foundUe r i s))
  | .poison => (false, foundPoison r i s)

/-- ECC_INJ: a 64-bit write, in TEST alone. -/
def eccInj (v : Nat) (s : State) : State :=
  if mode s = Mode.test then
    wr64 s Reg.ECC_INJ (bitsOf v 3 26 * 2 ^ 3 + bitsOf v 32 15 * 2 ^ 32 + bitsOf v 63 1 * 2 ^ 63)
  else s

def execEccInj (value : DWord) (s : State) : Host.Outcome State Fault Refusal :=
  .next (busOk (eccInj value.toNat s))

/-- CE_WRITEBACK: the oldest corrected word is written back. -/
def ceWriteback (s : State) : State :=
  match s.ecc.fixes with
  | [] => s
  | i :: l =>
    let s := modEcc s fun e => { e with fixes := l }
    if (sramWord s i).cond = .single then ctlWrite i (sramWord s i).data.toNat s else s

def execCeWriteback (s : State) : Host.Outcome State Fault Refusal := .next (ceWriteback s)

/-! ## Caches (R353 to R359) -/

/-- Line `l` may be cached: it lies in core memory, outside the uncached windows. -/
def cacheable (s : State) (l : Nat) : Bool :=
  let x := 64 * l
  decide (0x19600000 ≤ x ∧ x < 0x20000000) &&
  (List.range 4).all fun n =>
    let b := getF s (Reg.CCH_NCBASE n) 12 17 * 4096
    let z := getF s (Reg.CCH_NCSIZE n) 12 17 * 4096
    !decide (b ≤ x ∧ x < b + z)

/-- CCH_STS bits. -/
def draining (s : State) : Bool := bit s Reg.CCH_STS 0
def l2On (s : State) : Bool := bit s Reg.CCH_STS 2
def basinOn (s : State) : Bool := bit s Reg.CCH_STS 3

/-- CCH_STS shows the entries of the write-back buffer. -/
def showWback (s : State) : State := setF s Reg.CCH_STS 8 4 s.cch.wback.length

/-- Write a line to the SRAM: its bad words poisoned, its good ones normally (R362). -/
def writeLine (c : CacheLine) (s : State) : State :=
  (List.range 8).foldl (fun s k =>
    let w := c.words.getD k ⟨0, .clean⟩
    if w.cond = .multi ∨ w.cond = .poison then poison (8 * c.line + k) s
    else ctlWrite (8 * c.line + k) w.data.toNat s) s

/-- Line `c` enters the write-back buffer if it is dirty; none if the buffer is full. -/
def toWback (c : CacheLine) (s : State) : Option State :=
  if !c.dirty then some s
  else if 8 ≤ s.cch.wback.length then none
  else some (showWback (modCch s fun h => { h with wback := h.wback ++ [c] }))

/-- Line `c`, evicted from L2, enters the Basin, whose least recently used line makes room. -/
def evict (c : CacheLine) (s : State) : Option State :=
  if !basinOn s then toWback c s
  else
    match s.cch.basin.drop 31 with
    | [] => some (modCch s fun h => { h with basin := c :: h.basin })
    | old :: _ => (toWback old s).map fun s => modCch s fun h => { h with basin := c :: h.basin.take 31 }

/-- The lines of L2 in the set of line `l`. -/
def l2Set (s : State) (l : Nat) : List CacheLine := s.cch.l2.filter fun c => c.line % 4096 == l % 4096

/-- Line `c` takes a place in L2; in a full set the line in way `way` is evicted for it. None where
the eviction has to wait. -/
def l2Take (c : CacheLine) (way : Nat) (s : State) : Option State :=
  let set := l2Set s c.line
  if set.length < 16 then some (modCch s fun h => { h with l2 := c :: h.l2 })
  else
    match set[way]? with
    | none => none
    | some v =>
      (evict v s).map fun s =>
        modCch s fun h => { h with l2 := c :: h.l2.filter fun x => x.line != v.line }

/-- Read the eight words of line `l` from the SRAM for core `r`. A word that fails is kept as bad. -/
def readLine (r l : Nat) : Nat → State → List SramWord × State
  | 0, s => ([], s)
  | k + 1, s =>
    let (ws, s) := readLine r l k s
    match ctlRead r (8 * l + k) s with
    | (some v, s) => (ws ++ [⟨BitVec.ofNat 64 v, .clean⟩], s)
    | (none, s) => (ws ++ [⟨0, .poison⟩], s)

/-- The line that a miss of core `r` brings, recalled from the Basin or the write-back buffer, or
read from the SRAM (R359). -/
def missLine (r l : Nat) (s : State) : CacheLine × State :=
  match s.cch.basin.find? fun c => c.line == l with
  | some c => (c, wrapInc (modCch s fun h => { h with basin := h.basin.filter fun x => x.line != l }) Reg.CCH_BASINHIT)
  | none =>
    match s.cch.wback.find? fun c => c.line == l with
    | some c =>
      (c, wrapInc (showWback (modCch s fun h =>
        { h with wback := h.wback.filter fun x => x.line != l })) Reg.CCH_BASINHIT)
    | none =>
      let (ws, s) := readLine r l 8 s
      (⟨l, false, ws⟩, s)

/-- An L2 miss of core `r` on line `l`; none where it has to wait. -/
def l2Fill (r l way : Nat) (s : State) : Option State :=
  let (c, t) := missLine r l s
  l2Take c way t

/-- L2 serves line `l`: it is on, no drain runs, and the line may be cached. -/
def l2Serves (s : State) (l : Nat) : Bool := l2On s && !draining s && cacheable s l

/-- Line `l` is in L2. -/
def l2Line (s : State) (l : Nat) : Option CacheLine := s.cch.l2.find? fun c => c.line == l

/-- L2_MISS. -/
def l2Miss (r l way : Nat) (s : State) : State :=
  if l2Serves s l && (l2Line s l).isNone then (l2Fill r l way s).getD s else s

def execL2Miss (core : Fin 6) (line : BitVec 23) (way : Fin 16) (s : State) :
    Host.Outcome State Fault Refusal := .next (l2Miss core line.toNat way s)

/-- WRITEBACK_ISSUE: the oldest line of the write-back buffer goes to the SRAM. -/
def writebackIssue (s : State) : State :=
  match s.cch.wback with
  | [] => s
  | c :: l => showWback (writeLine c (modCch s fun h => { h with wback := l }))

def execWritebackIssue (s : State) : Host.Outcome State Fault Refusal := .next (writebackIssue s)

/-! ## Accesses (R346, R347, R354, R362) -/

/-- An engine's or core's access ends: with data, or with an error. -/
def endRead (r : Option Nat × State) : State :=
  match r.1 with
  | some v => answer v r.2
  | none => busFault r.2

def endWrite (r : Bool × State) : State := if r.1 then busOk r.2 else busFault r.2

/-- Change word `k` of line `l` in L2. -/
def setL2Word (l k : Nat) (w : SramWord) (dirty : Bool) (s : State) : State :=
  modCch s fun h => { h with l2 := h.l2.map fun c =>
    if c.line = l then { c with dirty := c.dirty || dirty, words := modAt c.words k fun _ => w } else c }

/-- Word `k` of line `l` in L2, corrected or found bad (R362). -/
def l2Word (l k : Nat) (s : State) : Option Nat × State :=
  match l2Line s l with
  | none => (none, s)
  | some c =>
    let w := c.words.getD k ⟨0, .clean⟩
    match w.cond with
    | .clean => (some w.data.toNat, s)
    | .single =>
      (some w.data.toNat, evt Reg.CCH_EVT 1 (satInc (setL2Word l k { w with cond := .clean } false s) Reg.CCH_L2CECNT 32))
    | .multi => (none, evt Reg.CCH_EVT 2 (satInc s Reg.CCH_L2UECNT 32))
    | .poison => (none, s)

/-- A clean line whose word `k` has an uncorrectable error of its own is read again from the SRAM. -/
def l2Refresh (r l k : Nat) (s : State) : State :=
  match l2Line s l with
  | none => s
  | some c =>
    if !c.dirty && (c.words.getD k ⟨0, .clean⟩).cond == .multi then
      let s := satInc (modCch s fun h => { h with l2 := h.l2.filter fun x => x.line != l }) Reg.CCH_L2UECNT 32
      let (ws, s) := readLine r l 8 s
      modCch s fun h => { h with l2 := ⟨l, false, ws⟩ :: h.l2 }
    else s

/-- Run `f` on L2 with word `i` in it; where its line must be fetched and the fetch waits, or while
a drain holds the caches, the access waits. -/
def throughL2 (r i way : Nat) (f : State → State) (s : State) : State :=
  let l := i / 8
  if draining s then s
  else match (if (l2Line s l).isSome then some s else l2Fill r l way s) with
    | some s => f (l2Refresh r l (i % 8) s)
    | none => s

/-- Requester `r` is a core whose access to word `i` goes through the caches. -/
def cached (s : State) (r i : Nat) : Bool :=
  decide (r < 6) && cacheable s (i / 8) && (l2On s || draining s)

/-- SRAM_READ. -/
def sramRead (r i way : Nat) (s : State) : State :=
  if cached s r i then throughL2 r i way (fun s => endRead (l2Word (i / 8) (i % 8) s)) s
  else endRead (ctlRead r i s)

def execSramRead (requester : Byte) (word : BitVec 26) (way : Fin 16) (s : State) :
    Host.Outcome State Fault Refusal := .next (sramRead requester.toNat word.toNat way s)

/-- A core write of bytes `mask` of word `i` touches bytes that the Cistern owns (R329). -/
def touchesTag (i mask : Nat) : Bool :=
  decide (0x17000000 ≤ 8 * i ∧ 8 * i < 0x17000000 + 64 * numBuffers) &&
    (i % 8 == 1 && decide (16 ≤ mask) || i % 8 == 2 && mask != 0)

/-- A core write of word `i` falls in the zone table, which the zone engine owns (R65). -/
def touchesZones (s : State) (i : Nat) : Bool :=
  ztbEn s && decide (zoneTableBase ≤ 8 * i ∧ 8 * i < zoneTableBase + 0x800000)

/-- A write by `r` of the bytes `mask` of word `i`. -/
def storeWord (r i v mask way : Nat) (s : State) : State :=
  if decide (r < 6) && touchesTag i mask then busFault (evt Reg.CIS_EVT 7 s)
  else if decide (r < 6) && touchesZones s i then busFault (evt Reg.ZTB_EVT 5 s)
  else if cached s r i then
    throughL2 r i way (fun s =>
      if mask = 0xFF then busOk (setL2Word (i / 8) (i % 8) ⟨BitVec.ofNat 64 v, .clean⟩ true s)
      else match l2Word (i / 8) (i % 8) s with
        | (some old, s) =>
          busOk (setL2Word (i / 8) (i % 8) ⟨BitVec.ofNat 64 (mergeBytes old v mask), .clean⟩ true s)
        | (none, s) => busFault s) s
  else if mask = 0xFF then busOk (ctlWrite i v s)
  else endWrite (ctlNarrow r i v mask s)

/-- SRAM_WRITE. -/
def execSramWrite (requester : Byte) (word : BitVec 26) (data : DWord) (way : Fin 16) (s : State) :
    Host.Outcome State Fault Refusal :=
  .next (storeWord requester.toNat word.toNat data.toNat 0xFF way s)

/-- NARROW_WRITE. A mask that names every byte is a full write; one that names none writes nothing. -/
def execNarrowWrite (requester : Byte) (word : BitVec 26) (data : DWord) (mask : Byte) (way : Fin 16)
    (s : State) : Host.Outcome State Fault Refusal :=
  .next (storeWord requester.toNat word.toNat data.toNat mask.toNat way s)

/-! ## Scrubber (R350, R351) -/

/-- The scrubber runs once the fill has ended. -/
def showScrub (s : State) : State := setBit s Reg.ECC_STS 8 (bit s Reg.ECC_CTL 0 && bit s Reg.ECC_STS 0)

/-- A lap ends. -/
def scrubLap (s : State) : State :=
  let s := wrapInc (wrN s Reg.ECC_SCRUB_LAP ((s.clock - s.ecc.lapStart) / 1000)) Reg.ECC_SCRUB_LAPS
  modEcc s fun e => { e with lapStart := s.clock, late := false }

/-- SCRUB_READ. -/
def scrubRead (s : State) : State :=
  if !bit s Reg.ECC_STS 8 then s else
  let i := getF s Reg.ECC_SCRUB_POS 3 26
  let s := (ctlRead 0x10 i s).2
  let s := wrN s Reg.ECC_SCRUB_POS (8 * ((i + 1) % sramWords))
  if i + 1 = sramWords then scrubLap s else s

def execScrubRead (s : State) : Host.Outcome State Fault Refusal := .next (scrubRead s)

/-- SCRUBLATE: the lap has run longer than ECC_SCRUB_LIM. -/
def scrubLate (s : State) : State :=
  if bit s Reg.ECC_STS 8 && !s.ecc.late
      && decide (1000 * rdN s Reg.ECC_SCRUB_LIM < s.clock - s.ecc.lapStart) then
    modEcc (evt Reg.ECC_EVT 5 s) fun e => { e with late := true }
  else s

def execScrublate (s : State) : Host.Outcome State Fault Refusal := .next (scrubLate s)

/-- SCRUBEN_WRITE: a write of ECC_CTL. -/
def execScrubenWrite (value : Word) (s : State) : Host.Outcome State Fault Refusal :=
  .next (busOk (showScrub (plainWrite Reg.ECC_CTL value.toNat s)))

/-! ## Turning caches on and off (R355, R361) -/

/-- The L2 is on and empty, with the Basin as BASINEN sets it. -/
def turnOn (s : State) : State :=
  setBit (setBit s Reg.CCH_STS 2 true) Reg.CCH_STS 3 (bit s Reg.CCH_CTL 1)

/-- L2EN_CLEAR: a drain starts. -/
def l2enClear (s : State) : State :=
  let s := setBit s Reg.CCH_CTL 0 false
  if draining s then modCch s fun h => { h with again := false }
  else if l2On s then setBit s Reg.CCH_STS 0 true
  else s

def execL2enClear (s : State) : Host.Outcome State Fault Refusal := .next (busOk (l2enClear s))

/-- Write back every dirty line of a list. -/
def writeDirty (l : List CacheLine) (s : State) : State :=
  (l.filter CacheLine.dirty).foldl (fun s c => writeLine c s) s

/-- DRAINDONE: the last write-back of the drain completes. -/
def drainDone (s : State) : State :=
  if !draining s then s else
  let s := writeDirty s.cch.l2 (writeDirty s.cch.basin (writeDirty s.cch.wback s))
  let again := s.cch.again
  let s := showWback (modCch s fun h => { h with l2 := [], basin := [], wback := [], again := false })
  let s := setBit (setBit (setBit s Reg.CCH_STS 0 false) Reg.CCH_STS 2 false) Reg.CCH_STS 3 false
  let s := evt Reg.CCH_EVT 0 s
  if again then turnOn s else s

def execDraindone (s : State) : Host.Outcome State Fault Refusal := .next (drainDone s)

/-- L2EN_SET: at once, or when the drain ends. -/
def l2enSet (s : State) : State :=
  let s := setBit s Reg.CCH_CTL 0 true
  if draining s then modCch s fun h => { h with again := true }
  else if l2On s then s
  else turnOn s

def execL2enSet (s : State) : Host.Outcome State Fault Refusal := .next (busOk (l2enSet s))

/-- BASINEN_CLEAR: the Basin's dirty lines are written back, and it is turned off. During a drain
the drain does so. -/
def basinenClear (s : State) : State :=
  let s := setBit s Reg.CCH_CTL 1 false
  if draining s || !basinOn s then s else
  setBit (modCch (writeDirty s.cch.basin s) fun h => { h with basin := [] }) Reg.CCH_STS 3 false

def execBasinenClear (s : State) : Host.Outcome State Fault Refusal := .next (busOk (basinenClear s))

/-- NC_WINDOW_WRITE. -/
def ncWrite (n : Nat) (size : Bool) (v : Nat) (s : State) : State :=
  if l2On s || draining s then evt Reg.CCH_EVT 5 s
  else plainWrite (if size then Reg.CCH_NCSIZE n else Reg.CCH_NCBASE n) v s

def execNcWindowWrite (index : Fin 4) (size : Bool) (value : Word) (s : State) :
    Host.Outcome State Fault Refusal := .next (busOk (ncWrite index size value.toNat s))

/-- Every cache is invalidated and L2 and the Basin are as CCH_CTL sets them (R360). -/
def invalidateCaches (s : State) : State :=
  let s := modCch s fun h => { h with l2 := [], basin := [], wback := [], again := false }
  let s := showWback (setBit (setBit s Reg.CCH_STS 0 false) Reg.CCH_STS 3 false)
  let s := setBit s Reg.CCH_STS 2 false
  if bit s Reg.CCH_CTL 0 then turnOn s else s

/-- WDKICK: a write of 1 restarts the core's count. -/
def wdKick (c v : Nat) (s : State) : State :=
  if v.testBit 0 then modCch s fun h => { h with kicks := modAt h.kicks c fun _ => s.clock } else s

def execWdkick (core : Fin 6) (value : Word) (s : State) : Host.Outcome State Fault Refusal :=
  .next (busOk (wdKick core value.toNat s))

end Sys2Proof.Machine
end

