-- ==== Sys2Proof/Machine/Network.lean ====
section
/-! DEFINITION. The Ethernet ports and the Runnels (chapter 10): link and failover, reception and
transmission, PFC, MACsec admission, and PTP. -/

namespace Sys2Proof.Machine

/-! ## State -/

/-- The port that holds the addresses whose home is port `h`. -/
def holderOf (s : State) (h : Nat) : Nat := s.net.holders.getD h h

/-- ETH_STS of both ports follows who holds which addresses (R305). -/
def showPorts (s : State) : State :=
  (List.range 2).foldl (fun s p =>
    let own := linkUp s p && !portFailed s p
    let s := setBit s (Reg.ETH_STS p) 8 (portFailed s p)
    let s := setBit s (Reg.ETH_STS p) 9 (own && holderOf s p == p)
    setBit s (Reg.ETH_STS p) 10 (own && holderOf s (1 - p) == p)) s

/-! ## Runnels (R320 to R322) -/

/-- Runnel of a port, direction (true to transmit) and traffic class. -/
def runnelOf (p : Nat) (tx : Bool) (tc : Nat) : Nat := 16 * p + (if tx then 8 else 0) + tc

/-- The packets in Runnel `r`. -/
def runnelAt (s : State) (r : Nat) : List Packet := s.net.runnels.getD r []

/-- Entries of a packet. -/
def Packet.entries (k : Packet) : Nat := 1 + (k.bytes.length + 15) / 16

/-- Occupancy of Runnel `r`. -/
def occupancy (s : State) (r : Nat) : Nat :=
  (getF s (Reg.RUN_WPTR r) 0 15 + 2 ^ 15 - getF s (Reg.RUN_RPTR r) 0 15) % 2 ^ 15

/-- Entries of a Runnel. -/
abbrev runnelSize : Nat := 16384

/-- RUN_OCC follows the pointers, with the peak. -/
def showOcc (r : Nat) (s : State) : State :=
  let o := occupancy s r
  wrN s (Reg.RUN_OCC r) (o + 2 ^ 16 * max o (getF s (Reg.RUN_OCC r) 16 15))

/-- Publish a packet in Runnel `r`. -/
def publish (r : Nat) (k : Packet) (s : State) : State :=
  let s := modNet s fun n => { n with runnels := modAt n.runnels r fun l => l ++ [k] }
  showOcc r (wrN s (Reg.RUN_WPTR r) ((getF s (Reg.RUN_WPTR r) 0 15 + k.entries) % 2 ^ 15))

/-- A packet of this many bytes finds room in Runnel `r`. -/
def hasRoom (s : State) (r bytes : Nat) : Bool := decide (occupancy s r + 1 + (bytes + 15) / 16 ≤ runnelSize)

/-- RUN_RPTR moves past the packet at the front of Runnel `r`. -/
def pastPacket (r : Nat) (s : State) : State :=
  match runnelAt s r with
  | [] => s
  | k :: l =>
    let s := modNet s fun n => { n with runnels := modAt n.runnels r fun _ => l }
    showOcc r (wrN s (Reg.RUN_RPTR r) ((getF s (Reg.RUN_RPTR r) 0 15 + k.entries) % 2 ^ 15))

/-- RUN_RPTR is set to RUN_WPTR. -/
def emptyRunnel (r : Nat) (s : State) : State :=
  let s := modNet s fun n => { n with runnels := modAt n.runnels r fun _ => [] }
  showOcc r (wrN s (Reg.RUN_RPTR r) (getF s (Reg.RUN_WPTR r) 0 15))

/-- DROP (R324). -/
def dropPacket (r : Nat) (s : State) : State :=
  if runnelAt s r = [] then s else satInc (pastPacket r s) (Reg.RUN_DRCNT r) 32

/-- FLUSH (R324). -/
def flushRunnel (r : Nat) (s : State) : State :=
  evt Reg.RUN_EVT r (satInc (emptyRunnel r s) (Reg.RUN_RSYNC r) 32)

/-! ## PFC (R314, R315, R336) -/

/-- The classes that port `p` has stopped: those at XOFF, and all while W2 is in effect (R336). -/
def stopped (s : State) (p : Nat) : List Nat := if wInEffect s 1 then List.range 8 else (portAt s p).xoff

/-- The PFC state of the receive Runnel of class `tc` after a change of its occupancy. -/
def updatePfc (p tc : Nat) (s : State) : State :=
  let r := runnelOf p false tc
  let free := runnelSize - occupancy s r
  let off := (portAt s p).xoff.contains tc
  if !off && decide (free ≤ getF s (Reg.RUN_XTH r) 0 15) then
    sendPfc p [tc] true (modPort s p fun n => { n with xoff := n.xoff ++ [tc] })
  else if off && decide (getF s (Reg.RUN_XTH r) 16 15 ≤ free) then
    let s := modPort s p fun n => { n with xoff := n.xoff.filter (· != tc) }
    if wInEffect s 1 then s else sendPfc p [tc] false s
  else s

/-- The link speed of a port type, in Mbit/s (R296). -/
def modeSpeed (m : Nat) : Nat :=
  if m = 0 then 0 else if m ≤ 6 then 100000 else if m = 7 then 50000 else if m = 8 then 25000 else 10000

/-- The time of `q` quanta of 512 bit times on port `p`, in ns. -/
def quantaNs (s : State) (p q : Nat) : Nat :=
  let v := modeSpeed (getF s (Reg.ETH_STS p) 1 4)
  if v = 0 then 0 else (512 * 1000 * q + v - 1) / v

/-- PFC_RESEND: half the quanta time has passed since the last frame, while classes stay stopped. -/
def pfcResend (p : Nat) (s : State) : State :=
  if 2 * s.clock < 2 * (portAt s p).pfcClock + quantaNs s p (getF s (Reg.ETH_PFC p) 8 16) then s else
  match stopped s p with
  | [] => s
  | l => sendPfc p l true s

def execPfcResend (port : Fin 2) (s : State) : Host.Outcome State Fault Refusal := .next (pfcResend port s)

/-- PFC_FRAME: each priority that the frame names is paused for its time from now. -/
def pfcFrame (p m t : Nat) (s : State) : State :=
  (List.range 8).foldl (fun s q =>
    if m.testBit q then
      let n := bitsOf t (16 * q) 16
      modPort s p fun x =>
        let rest := x.paused.filter fun e => e.1 != q
        { x with paused := if n = 0 then rest else rest ++ [(q, s.clock + quantaNs s p n)] }
    else s) s

def execPfcFrame (port : Fin 2) (prios : Byte) (times : BitVec 128) (s : State) :
    Host.Outcome State Fault Refusal := .next (pfcFrame port prios.toNat times.toNat s)

/-- PFC_PAUSE_END: the timer of a priority expires. -/
def pfcPauseEnd (p q : Nat) (s : State) : State :=
  modPort s p fun x => { x with paused := x.paused.filter fun e => !(e.1 == q && decide (e.2 ≤ s.clock)) }

def execPfcPauseEnd (port : Fin 2) (prio : Fin 8) (s : State) : Host.Outcome State Fault Refusal :=
  .next (pfcPauseEnd port prio s)

/-- Class `tc` of port `p` is paused. -/
def classPaused (s : State) (p tc : Nat) : Bool := (portAt s p).paused.any fun e => classOf s p e.1 == tc

/-! ## Failover (R306 to R309) -/

/-- The entries of the address table, object 0x1003:00 (R302). -/
def addressTable (s : State) : List (List Nat) :=
  let b := domainBytes s (0x1003, 0)
  (List.range (b.length / 20)).map fun i => (b.drop (20 * i)).take 20

/-- The addresses that port `p` has taken: those of the other port where it holds them, else its own. -/
def takenAddresses (s : State) (p : Nat) : List (List Nat) :=
  let home := if holderOf s (1 - p) = p then 1 - p else p
  ((addressTable s).filter fun e => e.getD 17 0 == home).map fun e => e.take 16

/-- Port `p` announces the addresses that it has taken, and will twice more. -/
def announce (p : Nat) (s : State) : State :=
  send (.announce p (takenAddresses s p)) (modPort s p fun n => { n with announces := 2, announceClock := s.clock })

/-- The survivor `o` takes every address that port `p` holds; the peer stream pauses (R506). -/
def takeOver (p o : Nat) (s : State) : State :=
  let s := (List.range 8).foldl (fun s tc =>
    let r := runnelOf p true tc
    emptyRunnel r (satAdd s (Reg.RUN_DRCNT r) (runnelAt s r).length)) s
  let waiting := (portAt s p).fwtx
  let s := modPort (modPort s p fun n => { n with fwtx := [] }) o fun n => { n with fwtx := n.fwtx ++ waiting }
  let s := modNet s fun n => { n with holders := n.holders.map fun h => if h = p then o else h }
  announce o (evt (Reg.ETH_EVT o) 3 (streamSuspend s))

/-- Port `p` fails. -/
def failPort (p : Nat) (why : PortFail) (s : State) : State :=
  if portFailed s p then s else
  let s := modPort s p fun n => { n with failed := some why, announces := 0 }
  let o := 1 - p
  let s := if portFailed s o then evt (Reg.ETH_EVT 1) 5 (evt (Reg.ETH_EVT 0) 5 s)
    else if linkUp s o then takeOver p o s
    else s
  tstSweep (showPorts s)

/-- Port `p` returns to service: it holds its own addresses again (R308). -/
def returnPort (p : Nat) (s : State) : State :=
  let s := modPort s p fun n => { n with failed := none }
  let s := modNet s fun n => { n with holders := modAt n.holders p fun _ => p }
  showPorts (announce p (evt (Reg.ETH_EVT p) 4 s))

/-- MOVE: firmware fails the port. -/
def execPortMove (port : Fin 2) (s : State) : Host.Outcome State Fault Refusal :=
  .next (busOk (failPort port .move s))

/-- BACK: a port that failed through MOVE returns; one whose LINK has fallen meanwhile waits for it. -/
def portBack (p : Nat) (s : State) : State :=
  if (portAt s p).failed != some .move then s
  else if linkUp s p then returnPort p s
  else modPort s p fun n => { n with failed := some .link }

def execPortBack (port : Fin 2) (s : State) : Host.Outcome State Fault Refusal := .next (busOk (portBack port s))

/-- FBACK: LINK has stayed 1 for HOLD seconds with AUTOBACK set. -/
def fback (p : Nat) (s : State) : State :=
  if (portAt s p).failed == some .link && linkUp s p && bit s (Reg.ETH_FOCFG p) 8
      && decide ((portAt s p).linkClock + 1000000000 * getF s (Reg.ETH_FOCFG p) 16 8 ≤ s.clock) then
    returnPort p s
  else s

def execFback (port : Fin 2) (s : State) : Host.Outcome State Fault Refusal := .next (fback port s)

/-- ANNOUNCE_REPEAT, 100 ms after the last announcement. -/
def announceRepeat (p : Nat) (s : State) : State :=
  if (portAt s p).announces = 0 ∨ s.clock < (portAt s p).announceClock + 100000000 then s
  else send (.announce p (takenAddresses s p)) (modPort s p fun n =>
    { n with announces := n.announces - 1, announceClock := s.clock })

def execAnnounceRepeat (port : Fin 2) (s : State) : Host.Outcome State Fault Refusal :=
  .next (announceRepeat port s)

/-! ## Link (R296 to R299) -/

/-- The priority order of Clause 73 among the port types, highest first (log entry 40). -/
def typeOrder : List Nat := [5, 6, 3, 4, 2, 1, 7, 8, 9]

/-- The FEC that a type runs, from both sides' requests (R296, R297). -/
def fecOf (m ours theirs : Nat) : Nat :=
  if m = 1 ∨ m = 2 then 2
  else if 3 ≤ m ∧ m ≤ 7 then 3
  else if m = 8 ∧ (ours.testBit 12 ∨ theirs.testBit 12) then 2
  else if ours.testBit 13 ∨ theirs.testBit 13 then 1
  else 0

/-- The abilities that the port still advertises. -/
def abilities (s : State) (p : Nat) : Nat := getF s (Reg.ETH_ANEFF p) 0 9

/-- Training or alignment failed at ability `m` (R298). -/
def trainFails (p m : Nat) (s : State) : State :=
  if (portAt s p).attempts < 2 then modPort s p fun n => { n with attempts := n.attempts + 1 }
  else
    let s := evt (Reg.ETH_EVT p) 2 (setBit s (Reg.ETH_ANEFF p) (m - 1) false)
    modPort s p fun n => { n with attempts := 0, emptied := if abilities s p = 0 then some s.clock else n.emptied }

/-- AUTO_NEGOTIATION: the port resolves the highest common ability and trains. -/
def autoNegotiate (p partner : Nat) (ok : Bool) (s : State) : State :=
  if !bit s (Reg.ETH_CTL p) 0 || !bit s (Reg.ETH_CTL p) 1 || linkUp s p then s else
  let s := wrN s (Reg.ETH_ANLP p) partner
  let ours := rdN s (Reg.ETH_ANEFF p)
  match typeOrder.find? fun m => ours.testBit (m - 1) && partner.testBit (m - 1) with
  | none => s
  | some m =>
    if ok then
      setBit (modPort s p fun n => { n with resolved := (m, fecOf m ours partner), attempts := 0 }) (Reg.ETH_STS p) 7 true
    else trainFails p m s

def execAutoNegotiation (port : Fin 2) (partner : BitVec 14) (trained : Bool) (s : State) :
    Host.Outcome State Fault Refusal := .next (autoNegotiate port partner.toNat trained s)

/-- ANEFF_RELOAD: no ability has been left for 1 s. -/
def aneffReload (p : Nat) (s : State) : State :=
  match (portAt s p).emptied with
  | some c =>
    if c + 1000000000 ≤ s.clock then
      wr (modPort s p fun n => { n with emptied := none }) (Reg.ETH_ANEFF p) (rd s (Reg.ETH_ANADV p))
    else s
  | none => s

def execAneffReload (port : Fin 2) (s : State) : Host.Outcome State Fault Refusal := .next (aneffReload port s)

/-- ANADV_WRITE. -/
def anadvWrite (p v : Nat) (s : State) : State :=
  let s := plainWrite (Reg.ETH_ANADV p) v s
  wr (modPort s p fun n => { n with attempts := 0, emptied := none }) (Reg.ETH_ANEFF p) (rd s (Reg.ETH_ANADV p))

def execAnadvWrite (port : Fin 2) (value : Word) (s : State) : Host.Outcome State Fault Refusal :=
  .next (busOk (anadvWrite port value.toNat s))

/-- The type and FEC that the port runs: as resolved, or FMODE without auto-negotiation. -/
def portType (s : State) (p : Nat) : Nat × Nat :=
  if bit s (Reg.ETH_CTL p) 1 then (portAt s p).resolved
  else
    let m := getF s (Reg.ETH_CTL p) 4 4
    if m ≤ 9 then (m, fecOf m 0 0) else (0, 0)

/-- LINKUP: the port is aligned on every lane of its type. If the other port is failed, this one
carries the addresses of both (R307). -/
def linkRises (p : Nat) (s : State) : State :=
  let (m, f) := portType s p
  if linkUp s p || m == 0 || !bit s (Reg.ETH_CTL p) 0 then s else
  let s := setF (setF (setBit s (Reg.ETH_STS p) 0 true) (Reg.ETH_STS p) 1 4 m) (Reg.ETH_STS p) 5 2 f
  let s := evt (Reg.ETH_EVT p) 0 (modPort s p fun n => { n with linkClock := s.clock, attempts := 0 })
  if portFailed s (1 - p) && (portAt s p).failed != some .move && (portAt s p).failed != some .test then
    let s := modPort s p fun n => { n with failed := none }
    let s := modNet s fun n => { n with holders := modAt n.holders p fun _ => p }
    showPorts (takeOver (1 - p) p s)
  else showPorts s

def execLinkup (port : Fin 2) (s : State) : Host.Outcome State Fault Refusal := .next (linkRises port s)

/-- LINKDN: loss of alignment has lasted LOSDLY. -/
def linkFalls (p : Nat) (s : State) : State :=
  if !linkUp s p then s else
  let s := setF (setF (setBit s (Reg.ETH_STS p) 0 false) (Reg.ETH_STS p) 1 4 0) (Reg.ETH_STS p) 5 3 0
  let s := evt (Reg.ETH_EVT p) 1 (modPort s p fun n => { n with resolved := (0, 0) })
  tstSweep (showPorts (failPort p .link s))

def execLinkdn (port : Fin 2) (s : State) : Host.Outcome State Fault Refusal := .next (linkFalls port s)

/-! ## Frames -/

/-! ## MACsec (R310 to R313) -/

/-- MACsec is in force on port `p`. -/
def msec (s : State) (p : Nat) : Bool := bit s (Reg.ETH_CTL p) 2

/-- Entry `n` of the SA table in SRAM. -/
def saEntry (s : State) (p n : Nat) : MacSa :=
  let a := 32 * getF s (Reg.ETH_MSBASE p) 5 24 + 32 * n
  ⟨n, sram64 s a, sram16 s (a + 8), (sram8 s (a + 10)).testBit 0, sram32 s (a + 12),
    leNat (sramBytes s (a + 16) 12), 0⟩

/-- MSLOAD: an SA entry is taken into use. -/
def msLoad (p v : Nat) (s : State) : State :=
  let n := bitsOf v 0 9
  if 260 ≤ n then s
  else modPort s p fun x => { x with sas := saEntry s p n :: x.sas.filter fun e => e.entry != n }

def execMsload (port : Fin 2) (value : Word) (s : State) : Host.Outcome State Fault Refusal :=
  .next (busOk (msLoad port value.toNat s))

/-- An extended packet number suite. -/
def xpn (s : State) (p : Nat) : Bool := bit s (Reg.ETH_MSCTL p) 1

/-- The confidentiality offset. -/
def coff (s : State) (p : Nat) : Nat :=
  match getF s (Reg.ETH_MSCTL p) 2 2 with
  | 1 => 30
  | 2 => 50
  | _ => 0

/-- What protects the frames of an SA, if its key slot is loaded for MACsec and no command ends it. -/
def secParams (s : State) (p : Nat) (e : MacSa) : Option SecParams :=
  (keyAt s e.kslot).bind fun k =>
    if k.use = KeyUse.macsec ∧ k.ending.isNone then some ⟨k.key.value, xpn s p, e.ssci, leBytes 12 e.salt, coff s p⟩
    else none

/-- The cipher lattice can take an invocation: it serves them, and a cluster has room (R370). -/
def latticeTakes (s : State) : Bool := latticeServes s && (pickCluster s).isSome

/-- One invocation under key slot `k` runs to its end (R368, R376). -/
def invoke (k : Nat) (s : State) : State :=
  match pickCluster s with
  | some c => wrapInc (refreshSlot k c s) Reg.CPH_INVCNT
  | none => s

/-- The receive SA of a secure channel and association number. -/
def rxSa (s : State) (p : Nat) (t : SecTag) : Option MacSa :=
  (portAt s p).sas.find? fun e => decide (e.entry < 256) && e.valid && e.sci == t.sci && e.entry % 4 == t.an

/-- The PN of a received frame: its high half, with extended PNs, follows the highest one accepted. -/
def rxPn (s : State) (p : Nat) (e : MacSa) (t : SecTag) : Nat := if xpn s p then recoverPn e.high t.pn else t.pn

/-- The SecTAG and the receive SA of a received frame `b`, in force and with its FCS taken off. -/
def rxSec (s : State) (p : Nat) (b : List Nat) : Option (SecTag × MacSa) :=
  if !msec s p || isEapol b then none
  else (secTag b).bind fun t => (rxSa s p t).map fun e => (t, e)

/-- A received frame, with its FCS, in clear. One that has no SA is read as it stands. -/
def rxClear (s : State) (p : Nat) (b : List Nat) : List Nat :=
  let b := b.take (b.length - 4)
  match rxSec s p b with
  | none => b
  | some (t, e) => ((secParams s p e).map fun k => unsecured k b t (rxPn s p e t)).getD b

/-- What MACsec makes of a received frame without its FCS: the counter that a dropped one takes, or the SA whose
highest PN an accepted one may raise (R313). A frame whose key slot cannot serve it fails its ICV. -/
def msAdmit (s : State) (p : Nat) (b : List Nat) : Sum Nat (Option (MacSa × Nat)) :=
  if !msec s p || isEapol b then .inr none
  else match secTag b with
    | none => .inl (Reg.ETH_MSNOTAG p)
    | some t =>
      match rxSa s p t with
      | none => .inl (Reg.ETH_MSNOSA p)
      | some e =>
        let pn := rxPn s p e t
        if pn < e.high - rdN s (Reg.ETH_MSREPLAY p) then .inl (Reg.ETH_MSLATE p)
        else if ((secParams s p e).map fun k => icvOk k b t pn).getD false then .inr (some (e, pn))
        else .inl (Reg.ETH_MSBADICV p)

/-- An accepted PN raises the highest of its SA. -/
def raisePn (p : Nat) (x : Option (MacSa × Nat)) (s : State) : State :=
  match x with
  | none => s
  | some (e, pn) =>
    modPort s p fun n =>
      { n with sas := n.sas.map fun y => if y.entry = e.entry then { y with high := max y.high pn } else y }

/-- The association number of the transmit SA. -/
def txAn (s : State) (p : Nat) : Nat := getF s (Reg.ETH_MSCTL p) 4 2

/-- The next PN of the transmit SA. -/
def nextPn (s : State) (p : Nat) : Nat := (portAt s p).txpn.getD (txAn s p) 1

/-- ETH_MSTXPN shows the next PN of the SA that TXAN names. -/
def showTxpn (p : Nat) (s : State) : State := wr64 s (Reg.ETH_MSTXPN p) (nextPn s p)

/-- MSTXPN_WRITE. -/
def msTxpnWrite (p v : Nat) (s : State) : State :=
  showTxpn p (modPort s p fun n => { n with txpn := modAt n.txpn (txAn s p) fun _ => v })

def execMstxpnWrite (port : Fin 2) (value : DWord) (s : State) : Host.Outcome State Fault Refusal :=
  .next (busOk (msTxpnWrite port value.toNat s))

/-- The transmit SA can protect a frame: it is in use, and its PN is not exhausted (R312). -/
def txSaOk (s : State) (p : Nat) : Bool :=
  let pn := nextPn s p
  (portAt s p).sas.any (fun e => e.entry == 256 + txAn s p && e.valid)
    && pn != 0 && (xpn s p || decide (pn < 2 ^ 32))

/-- A frame takes the next PN. -/
def takePn (p : Nat) (s : State) : State :=
  let pn := nextPn s p
  let s := modPort s p fun n => { n with txpn := modAt n.txpn (txAn s p) fun v => (v + 1) % 2 ^ 64 }
  evtIf (pn == rd64 s (Reg.ETH_MSPNTHR p)) (Reg.ETH_EVT p) 6 (showTxpn p s)

/-! ## Reception (R300, R304, R322) -/

/-- FRAME_RECEIVE (R300, R304, R314, R322). -/
def frameReceive (p : Nat) (b : List Nat) (faulty : Bool) (s : State) : State :=
  if !bit s (Reg.ETH_CTL p) 0 || !linkUp s p then s
  else if faulty || decide (b.length < 64 ∨ getF s (Reg.ETH_MAXFR p) 0 14 < b.length) then
    satInc s (Reg.ETH_RXBAD p) 32
  else if isPause b then satInc s (Reg.ETH_PAUSECNT p) 32
  else
    let s := wrapInc s (Reg.ETH_RXCNT p)
    let c := rxClear s p b
    if (frameVid c).isSome && frameVid c != some (getF s (Reg.ETH_VLAN p) 0 12) then s
    else
      let tc := classOf s p (framePrio c)
      let r := runnelOf p false tc
      if !hasRoom s r b.length then evt Reg.RUN_OVFEVT r (satInc s (Reg.RUN_OVF r) 32)
      else updatePfc p tc (publish r ⟨b, framePrio c, ptp s, false, 0, []⟩ s)

def execFrameReceive (port : Fin 2) (data : List Byte) (faulty : Bool) (s : State) :
    Host.Outcome State Fault Refusal :=
  .next (frameReceive port (data.map BitVec.toNat) faulty s)

/-! ## Consumption (R303, R323, R324) -/

/-- The octets of port `p`'s MAC address. -/
def macOf (s : State) (p : Nat) : List Nat := beBytes 6 (rd64 s (Reg.ETH_MACADDR p) % 2 ^ 48)

/-- The link-local address of port `p`, by modified EUI-64 (R301). -/
def linkLocal (s : State) (p : Nat) : List Nat :=
  let m := macOf s p
  [0xFE, 0x80, 0, 0, 0, 0, 0, 0, Nat.xor (m.getD 0 0) 2] ++ (m.drop 1).take 2 ++ [0xFF, 0xFE] ++ m.drop 3

/-- The table entries whose addresses port `p` holds. -/
def heldEntries (s : State) (p : Nat) : List (List Nat) :=
  (addressTable s).filter fun e => holderOf s (e.getD 17 0) == p

/-- The entry of an address that port `p` holds. -/
def heldEntry (s : State) (p : Nat) (a : List Nat) : Option (List Nat) :=
  (heldEntries s p).find? fun e => e.take 16 == a

/-- The SVC bit of a service. -/
def svcBit : NetService → Option Nat
  | .rdma => some 0
  | .tcp => some 1
  | .noile => some 2
  | .ptp => some 3
  | .firmware => none
  | .other => none

/-- The port takes a packet of this service to its destination, if it has one. -/
def serves (s : State) (p : Nat) (v : NetService) (i : Option IpPacket) : Bool :=
  match v with
  | .other => false
  | .firmware => true
  | v =>
    match i.map IpPacket.dst with
    | none => v == .ptp
    | some a =>
      match heldEntry s p a with
      | some e => match svcBit v with
        | some k => (e.getD 18 0).testBit k
        | none => false
      | none => a == linkLocal s p && v != .ptp

/-- A frame for firmware, in clear `c`, goes to one Cistern buffer as its header entry and its bytes (R303). -/
def toFirmwareRx (p : Nat) (k : Packet) (c : List Nat) (s : State) : State :=
  let b := withFcs c
  if 4080 < b.length then satInc s (Reg.ETH_RXUNK p) 32
  else
    let s := allocOne Owner.netrx false false s
    match s.cis.last with
    | some a =>
      if a.result = 0 then
        let header := leBytes 2 b.length ++ [k.prio] ++ List.replicate 5 0 ++ leBytes 8 k.stamp
        let s := sramPutBytes s (4096 * a.index) (header ++ b)
        evt (Reg.ETH_EVT p) 11 (modPort s p fun n => { n with fwrx := n.fwrx ++ [a.index] })
      else s
    | none => s

/-- The service of a frame in clear on this module, whose Noile port is that of object 0x1020:01. -/
def serviceOf (s : State) (c : List Nat) : NetService := frameService (getF s Reg.NOI_PORT 0 16) c

/-- A packet that has passed every check, in clear `c`, goes to its consumer. What its transport makes of it are
commands of their own. -/
def steer (p : Nat) (k : Packet) (c : List Nat) (s : State) : State :=
  if !serves s p (serviceOf s c) (ipPacket c) then satInc s (Reg.ETH_RXUNK p) 32
  else if serviceOf s c = .firmware ∨ serviceOf s c = .ptp then toFirmwareRx p k c s
  else s

/-- A received frame waits in its Runnel for the cipher lattice (R370). -/
def waitsForLattice (s : State) (p : Nat) (b : List Nat) : Bool :=
  (rxSec s p (b.take (b.length - 4))).isSome && !latticeTakes s

/-- The lattice's work on a received frame. -/
def invokeRx (p : Nat) (b : List Nat) (s : State) : State :=
  match rxSec s p (b.take (b.length - 4)) with
  | some (_, e) => invoke e.kslot s
  | none => s

/-- A packet whose header entry passes is checked: the FCS, MACsec, the checksums and the digests (R313, R323). -/
def checkPacket (p r : Nat) (k : Packet) (intact digests : Bool) (s : State) : State :=
  let b := k.bytes.take (k.bytes.length - 4)
  if !intact || !fcsOk k.bytes then dropPacket r s
  else match msAdmit s p b with
    | .inl counter => dropPacket r (satInc (invokeRx p k.bytes s) counter 32)
    | .inr x =>
      let c := rxClear s p k.bytes
      let s := raisePn p x (invokeRx p k.bytes s)
      if !((ipPacket c).all packetOk && (digests || serviceOf s c != .tcp)) then dropPacket r s
      else steer p k c (pastPacket r s)

/-- PACKET_CONSUME of a receive Runnel. -/
def packetConsume (p tc : Nat) (header intact digests : Bool) (s : State) : State :=
  let r := runnelOf p false tc
  match runnelAt s r with
  | [] => s
  | k :: _ =>
    let n := k.bytes.length
    if !header || decide (n < 64 ∨ getF s (Reg.ETH_MAXFR p) 0 14 < n) then updatePfc p tc (flushRunnel r s)
    else if waitsForLattice s p k.bytes then s
    else updatePfc p tc (checkPacket p r k intact digests s)

def execPacketConsume (port : Fin 2) (tc : Fin 8) (header intact digests : Bool) (s : State) :
    Host.Outcome State Fault Refusal := .next (packetConsume port tc header intact digests s)

/-- FWRXQ_POP: the frame's buffer passes to CORE. -/
def fwrxPop (p : Nat) (s : State) : State :=
  match (portAt s p).fwrx with
  | [] => answer 0 s
  | b :: l =>
    let s := (giveBuf Owner.netrx b Owner.core true s).2
    answer (b + 2 ^ 31) (modPort s p fun n => { n with fwrx := l })

def execFwrxqPop (port : Fin 2) (s : State) : Host.Outcome State Fault Refusal := .next (fwrxPop port s)

/-! ## Transmission (R303, R304, R312, R316, R318, R418) -/

/-- Insert the VLAN tag (R304). -/
def withTag (s : State) (p prio : Nat) (c : List Nat) : List Nat :=
  let v := getF s (Reg.ETH_VLAN p) 0 12
  if v = 0 then c
  else c.take 12 ++ [0x81, 0x00] ++ beBytes 2 (prio * 2 ^ 13 + v) ++ c.drop 12

/-- The SCI of port `p`'s transmit secure channel (R310). -/
def txSci (s : State) (p : Nat) : Nat := beNat (macOf s p) * 2 ^ 16 + 1

/-- What protects the frames of the transmit SA. -/
def txParams (s : State) (p : Nat) : Option (MacSa × SecParams) :=
  ((portAt s p).sas.find? fun e => e.entry == 256 + txAn s p && e.valid).bind fun e =>
    (secParams s p e).map fun k => (e, k)

/-- Port `p` applies MACsec to the frame in clear `c` (R310). -/
def protects (s : State) (p : Nat) (c : List Nat) : Bool := msec s p && !isEapol c

/-- The frame as it enters its Runnel: tagged, and protected under the next PN where MACsec asks for it; none
where the SA protects no more frames or has no key (R312). -/
def wireFrame (s : State) (p prio : Nat) (c : List Nat) : Option (List Nat) :=
  let b := withTag s p prio c
  if !protects s p c then some b
  else if !txSaOk s p then none
  else (txParams s p).map fun x => secured x.2 (txSci s p) (txAn s p) (nextPn s p) b

/-- A frame that was protected takes the next PN; one that could not be is discarded, and MSEXH is set where the
SA is at its end. -/
def countProtected (p : Nat) (c : List Nat) (s : State) : State :=
  if !protects s p c then s
  else if !txSaOk s p then evt (Reg.ETH_EVT p) 7 s
  else match txParams s p with
    | some (e, _) => takePn p (invoke e.kslot s)
    | none => s

/-- Firmware's frame in buffer `b` enters its Runnel if there is room and the lattice takes it, and the buffer is
freed (R303, R312, R323). -/
def enterFrame (p b tc : Nat) (s : State) : Option State :=
  let a := 4096 * b
  let r := runnelOf p true tc
  let prio := ((List.range 8).find? fun q => classOf s p q == tc).getD 0
  let c := sramBytes s (a + 16) (sram16 s a)
  if protects s p c && !latticeTakes s then none
  else match wireFrame s p prio c with
    | none => some (freeBuf Owner.port b true (countProtected p c s)).2
    | some w =>
      if !hasRoom s r w.length then none else
      let k : Packet := ⟨w, prio, 0, (sram8 s (a + 2)).testBit 0, sram8 s (a + 3), c⟩
      some (freeBuf Owner.port b true (publish r k (countProtected p c s))).2

/-- Frames of firmware that wait for room enter their Runnels, oldest first. -/
def enterWaiting (p : Nat) (s : State) : State :=
  (portAt s p).fwtx.foldl (fun s e =>
    match enterFrame p e.1 e.2 s with
    | some t => modPort t p fun n => { n with fwtx := n.fwtx.erase e }
    | none => s) s

/-- FWTX: the buffer passes from CORE to PORT, and its frame is sent. -/
def fwTx (p v : Nat) (s : State) : State :=
  let b := bitsOf v 0 17
  match giveBuf Owner.core b Owner.port true s with
  | (0, s) => busOk (enterWaiting p (modPort s p fun n => { n with fwtx := n.fwtx ++ [(b, bitsOf v 20 3)] }))
  | (_, s) => busFault s

def execFwtx (port : Fin 2) (value : Word) (s : State) : Host.Outcome State Fault Refusal :=
  .next (fwTx port value.toNat s)

/-- Take `n` bytes from port `p`'s bucket. -/
def takeTokens (p n : Nat) (s : State) : State :=
  let s := settleTokens s
  { s with slu := { s.slu with tokens := modAt s.slu.tokens p fun e => (e.1 - (n : Rat), e.2) } }

/-- A source address that port `p` may send from. -/
def ownAddress (s : State) (p : Nat) (a : List Nat) : Bool := (heldEntry s p a).isSome || a == linkLocal s p

/-- The source check of R418 on a frame in clear. -/
def sourceOk (s : State) (p : Nat) (b : List Nat) : Bool :=
  let i := typePlace b + 2
  (b.drop 6).take 6 == macOf s p &&
  match etherType b (i - 2) with
  | 0x0800 => ownAddress s p (mapped ((b.drop (i + 12)).take 4))
  | 0x86DD => ownAddress s p ((b.drop (i + 8)).take 16)
  | 0x0806 => (heldEntry s p (mapped ((b.drop (i + 14)).take 4))).isSome
  | _ => true

/-- The egress timestamp of a frame (R318). -/
def egressStamp (p : Nat) (k : Packet) (s : State) : State :=
  if !k.tsreq then s
  else if 16 ≤ s.net.stamps.length then evt (Reg.ETH_EVT p) 8 s
  else modNet s fun n => { n with stamps := n.stamps ++ [(k.tsid, p, ptp s)] }

/-- Port `p` sends the frame of packet `k`, with its FCS. -/
def sendFrame (p : Nat) (k : Packet) (s : State) : State :=
  egressStamp p k (wrapInc (send (.frame p (withFcs k.bytes)) s) (Reg.ETH_TXCNT p))

/-- Class `tc` may be served. -/
def classReady (s : State) (p tc : Nat) : Bool := runnelAt s (runnelOf p true tc) != [] && !classPaused s p tc

/-! ### Deficit round robin (R316) -/

/-- The percentage of class `tc`. -/
def etsPercent (s : State) (p tc : Nat) : Nat :=
  bitsOf (rdN s (if tc < 4 then Reg.ETH_ETS0 p else Reg.ETH_ETS1 p)) (8 * (tc % 4)) 8

/-- Bytes that a visit adds to a class's deficit for each percent. DESIGN CHOICE (log entry 42): R316 gives the
weights and not the quantum. -/
abbrev drrBytes : Nat := 128

/-- Bytes of the frame at the front of class `tc`, with its FCS. -/
def frontBytes (s : State) (p tc : Nat) : Nat :=
  match runnelAt s (runnelOf p true tc) with
  | k :: _ => k.bytes.length + 4
  | [] => 0

/-- The round robin from class `c` on, with deficits `d`; `on` says whether the visit of `c` has added its
quantum: the class that it serves, and the deficits then. Paused and empty classes are skipped, and an empty
one keeps no deficit. -/
def drrFrom (s : State) (p : Nat) : Nat → List Nat → Nat → Bool → Option (Nat × List Nat)
  | 0, _, _, _ => none
  | k + 1, d, c, on =>
    if bit s (Reg.ETH_TSA p) c || !classReady s p c then
      drrFrom s p k (if runnelAt s (runnelOf p true c) = [] then d.set c 0 else d) ((c + 1) % 8) false
    else
      let d := if on then d else d.set c (d.getD c 0 + drrBytes * etsPercent s p c)
      if frontBytes s p c ≤ d.getD c 0 then some (c, d) else drrFrom s p k d ((c + 1) % 8) false

/-- The class that the round robin of port `p` serves next, and the deficits then. -/
def drrNext (s : State) (p : Nat) : Option (Nat × List Nat) :=
  drrFrom s p 1024 (portAt s p).deficits (portAt s p).drrAt (portAt s p).drrOn

/-- The round robin has served class `tc`. -/
def drrServed (p tc : Nat) (s : State) : State :=
  match drrNext s p with
  | some (c, d) =>
    if c = tc ∧ bit s (Reg.ETH_TSA p) tc = false then
      modPort s p fun n => { n with deficits := d.set c (d.getD c 0 - frontBytes s p c), drrAt := c, drrOn := true }
    else s
  | none => s

/-- The scheduler may serve class `tc`: a strict class before every other, the higher first, then the class of
the round robin (R316). Where only classes of 0 percent are ready, any of them. -/
def mayServe (s : State) (p tc : Nat) : Bool :=
  let strict := bit s (Reg.ETH_TSA p) tc
  !s.sys.resetLow && classReady s p tc
    && ((List.range 8).all fun o => !(bit s (Reg.ETH_TSA p) o && classReady s p o) || (strict && decide (o ≤ tc)))
    && (strict || ((drrNext s p).map fun x => x.1 == tc).getD true)

/-- FRAME_TRANSMIT. -/
def frameTransmit (p tc : Nat) (s : State) : State :=
  let r := runnelOf p true tc
  if !bit s (Reg.ETH_CTL p) 0 || !linkUp s p || !mayServe s p tc then s else
  match runnelAt s r with
  | [] => s
  | k :: _ =>
    let n := k.bytes.length
    if n < 60 ∨ getF s (Reg.ETH_MAXFR p) 0 14 < n + 4 then
      enterWaiting p (satInc (flushRunnel r s) (Reg.ETH_TXBAD p) 32)
    else if !sourceOk s p k.clear then
      enterWaiting p (evt Reg.SLU_EVT 9 (satInc (pastPacket r s) (if p = 0 then Reg.SLU_SRCDROP0 else Reg.SLU_SRCDROP1) 32))
    else if tokensNow s p < ((n + 4 : Nat) : Rat) then s
    else enterWaiting p (sendFrame p k (pastPacket r (takeTokens p (n + 4) (drrServed p tc s))))

def execFrameTransmit (port : Fin 2) (tc : Fin 8) (s : State) : Host.Outcome State Fault Refusal :=
  .next (frameTransmit port tc s)

/-- TXTSID_POP: a read of ETH_TXTSID pops the FIFO and latches ETH_TXTS. -/
def txtsidPop (s : State) : State :=
  match s.net.stamps with
  | [] => answer 0 s
  | (id, p, t) :: l =>
    answer (id + 2 ^ 8 * p + 2 ^ 31) (wr64 (modNet s fun n => { n with stamps := l }) Reg.ETH_TXTS t)

def execTxtsidPop (s : State) : Host.Outcome State Fault Refusal := .next (txtsidPop s)

/-! ## Core commands (R316, R317, R325) -/

/-- A core's RUN_CMD is taken for Runnel `r`. -/
def runCmdOk (s : State) (r : Nat) : Bool := !bit s (Reg.ETH_CTL (r / 16)) 0 || mode s == Mode.test

/-- PFC and waiting frames follow a change of Runnel `r`. -/
def afterRunnel (r : Nat) (s : State) : State :=
  if r % 16 < 8 then updatePfc (r / 16) (r % 8) s else enterWaiting (r / 16) s

/-- DROP and FLUSH_RUNNEL: a core write of RUN_CMD. -/
def runCmd (r : Nat) (flush : Bool) (s : State) : State :=
  if runCmdOk s r then afterRunnel r (if flush then flushRunnel r s else dropPacket r s) else s

def execRunDrop (runnel : Fin 32) (s : State) : Host.Outcome State Fault Refusal :=
  .next (busOk (runCmd runnel false s))
def execFlushRunnel (runnel : Fin 32) (s : State) : Host.Outcome State Fault Refusal :=
  .next (busOk (runCmd runnel true s))

/-- PORT_DISABLE: a write of 0 to ETH_CTL.EN. -/
def portDisable (p : Nat) (s : State) : State :=
  (List.range 16).foldl (fun s r => afterRunnel (16 * p + r) (emptyRunnel (16 * p + r) s))
    (setBit s (Reg.ETH_CTL p) 0 false)

def execPortDisable (port : Fin 2) (s : State) : Host.Outcome State Fault Refusal :=
  .next (busOk (portDisable port s))

/-- The percentages of the round-robin classes sum to 100. -/
def etsOk (ets0 ets1 tsa : Nat) : Bool :=
  let rr := (List.range 8).filter fun k => !tsa.testBit k
  rr == [] || (rr.map fun k => bitsOf (if k < 4 then ets0 else ets1) (8 * (k % 4)) 8).foldl (· + ·) 0 == 100

/-- ETS_WRITE. -/
def etsWrite (p k v : Nat) (s : State) : State :=
  let e0 := if k = 0 then v else rdN s (Reg.ETH_ETS0 p)
  let e1 := if k = 1 then v else rdN s (Reg.ETH_ETS1 p)
  let t := if k = 2 then v % 256 else rdN s (Reg.ETH_TSA p)
  if etsOk e0 e1 t then
    wrN (wrN (wrN s (Reg.ETH_ETS0 p) e0) (Reg.ETH_ETS1 p) e1) (Reg.ETH_TSA p) t
  else evt (Reg.ETH_EVT p) 10 s

def execEtsWrite (port : Fin 2) (reg : Fin 3) (value : Word) (s : State) : Host.Outcome State Fault Refusal :=
  .next (busOk (etsWrite port reg value.toNat s))

/-- PTPSTEP: a signed step of the PTP time. -/
def ptpStep (v : Nat) (s : State) : State :=
  let t : Int := (ptp s : Int) + signedOf 64 v
  let s := wr64 s Reg.ETH_PTPSTEP v
  if t < 0 then evt (Reg.ETH_EVT 0) 9 s else wr64 s Reg.ETH_PTPTIME t.toNat

def execPtpstep (value : DWord) (s : State) : Host.Outcome State Fault Refusal :=
  .next (busOk (ptpStep value.toNat s))

end Sys2Proof.Machine
end

