-- ==== Sys2Proof/Machine/Thermal.lean ====
section
/-! DEFINITION. The die sensor, its thresholds, and the thermal and governor steps of the throttle
ladder (chapter 16). -/

namespace Sys2Proof.Machine

/-- Change the THM block's state. -/
def modThm (s : State) (f : ThmState → ThmState) : State := { s with thm := f s.thm }

/-- TSTEP and GSTEP. -/
def tstep (s : State) : Nat := getF s Reg.THM_LADDER 4 4
def gstep (s : State) : Nat := getF s Reg.THM_LADDER 8 4

/-- Set TSTEP or GSTEP; the ladder follows. -/
def setTstep (n : Nat) (s : State) : State := ladder (setF s Reg.THM_LADDER 4 4 n)
def setGstep (n : Nat) (s : State) : State :=
  ladder (setBit (setF s Reg.THM_LADDER 8 4 n) Reg.THM_STS 3 (decide (0 < n)))

/-- A threshold of THM_THR in 0.125 °C. -/
def thrAt (s : State) (lo : Nat) : Int := 8 * (getF s Reg.THM_THR lo 8 : Int)

/-- The newest sample, in 0.125 °C. -/
def newest (s : State) : Int := signedOf 16 (getF s Reg.THM_TEMP 0 16)

/-- The sensor is broken (THM_STS.BAD). -/
def sensorBad (s : State) : Bool := bit s Reg.THM_STS 0

/-- WARN and THROT follow a sample (R447). -/
def compareSample (v : Int) (s : State) : State :=
  let warn := decide (thrAt s 0 < v)
  let throt := decide (thrAt s 8 < v)
  let s := setBit (evtIf (warn && !bit s Reg.THM_STS 1) Reg.THM_EVT 0 s) Reg.THM_STS 1 warn
  setBit (evtIf (throt && !bit s Reg.THM_STS 2) Reg.THM_EVT 1 s) Reg.THM_STS 2 throt

/-- TSTEP rises by one, up to 15. -/
def raiseTstep (s : State) : State := if tstep s < 15 then setTstep (tstep s + 1) s else s

/-- The thermal step after a sample (R450): `above` says whether the sample before lay above THROT. -/
def thermalStep (above : Bool) (v : Int) (s : State) : State :=
  if thrAt s 8 < v then
    let s := modThm s fun t => { t with below := none }
    if above then s else raiseTstep (modThm s fun t => { t with rise := some s.clock })
  else if thrAt s 16 ≤ v then modThm s fun t => { t with rise := none, below := none }
  else modThm s fun t => { t with rise := none, below := some (t.below.getD s.clock) }

/-- The hold test (R448). -/
def holdTest (v : Int) (s : State) : State :=
  if v < 8 * 112 then modThm s fun t => { t with hot := 0 }
  else
    let s := modThm s fun t => { t with hot := t.hot + 1 }
    if 2 ≤ s.thm.hot ∧ mode s ≠ Mode.safeHold then safeHold ShCause.thermal (evt Reg.THM_EVT 3 s) else s

/-- An out-of-range sample (R454). -/
def brokenSample (s : State) : State :=
  let s := modThm s fun t => { t with good := 0, hot := 0, rise := none, below := none }
  let s := setBit s Reg.THM_TEMP 31 false
  if sensorBad s then s else ladder (evt Reg.THM_EVT 4 (setBit s Reg.THM_STS 0 true))

/-- A sample in range while BAD = 1: the thousandth in a row clears it. -/
def badSample (s : State) : State :=
  let s := modThm s fun t => { t with good := t.good + 1 }
  if s.thm.good < 1000 then s
  else
    let s := evt Reg.THM_EVT 5 (setBit (setBit s Reg.THM_STS 0 false) Reg.THM_TEMP 31 true)
    setTstep 15 (modThm s fun t => { t with good := 0, hot := 0, rise := none, below := none })

/-- A sample in range. -/
def goodSample (v : Int) (s : State) : State :=
  let above := bit s Reg.THM_STS 2
  let first := !bit s Reg.THM_TEMP 31 && !sensorBad s
  let s := setF s Reg.THM_TEMP 0 16 (encodeSigned 16 v)
  let s := if first || decide (signedOf 16 (getF s Reg.THM_TMAX 0 16) < v) then
    wrN s Reg.THM_TMAX (encodeSigned 16 v) else s
  let s := compareSample v s
  if sensorBad s then badSample s
  else holdTest v (thermalStep above v (setBit s Reg.THM_TEMP 31 true))

/-- The measurement chains are offline for a calibration (R462). -/
def chainsOffline (s : State) : Bool := (s.cal.run.map CalRun.offline).getD false

/-- A sample lies in the sensor's range (R445). -/
def inRange (v : Int) : Bool := decide (-320 ≤ v ∧ v ≤ 1200)

/-- TEMPERATURE_SAMPLE. While the chains are offline the ladder acts on the last sample (R444). -/
def temperatureSample (v : Option Int) (i5 pin : Nat) (s : State) : State :=
  let s := if chainsOffline s then s else wrN (wrN s Reg.THM_I5 i5) Reg.THM_PIN pin
  let s := if rdF s Reg.THM_I5LIM < rdF s Reg.THM_I5 then modThm s fun t => { t with exceeded := true } else s
  if chainsOffline s then (if bit s Reg.THM_TEMP 31 then goodSample (newest s) s else s)
  else match v.filter inRange with
    | none => brokenSample s
    | some x => goodSample x s

def execTemperatureSample (sample : Option (BitVec 16)) (i5 pin : Word) (s : State) :
    Host.Outcome State Fault Refusal :=
  .next (temperatureSample (sample.map fun v => signedOf 16 v.toNat) i5.toNat pin.toNat s)

/-- TSTEP_RISE: 250 ms have passed since the last rise and the newest sample lies above THROT. -/
def tstepRise (s : State) : State :=
  match s.thm.rise with
  | some c =>
    if !sensorBad s && bit s Reg.THM_STS 2 && decide (c + 250000000 ≤ s.clock) then
      raiseTstep (modThm s fun t => { t with rise := some (c + 250000000) })
    else s
  | none => s

def execTstepRise (s : State) : Host.Outcome State Fault Refusal := .next (tstepRise s)

/-- TSTEP_FALL: every sample of 2 s lay below REL. -/
def tstepFall (s : State) : State :=
  match s.thm.below with
  | some c =>
    if !sensorBad s && decide (0 < tstep s ∧ c + 2000000000 ≤ s.clock) then
      evt Reg.THM_EVT 2 (setTstep (tstep s - 1) (modThm s fun t => { t with below := some (c + 2000000000) }))
    else s
  | none => s

def execTstepFall (s : State) : Host.Outcome State Fault Refusal := .next (tstepFall s)

/-- GOVERNOR_INTERVAL: the end of a 250 ms interval, counted from power-on reset (R453). -/
def governorInterval (s : State) : State :=
  if s.clock < s.thm.interval + 250000000 then s else
  let exceeded := decide (100 ≤ s.spn.govReq) || s.thm.exceeded
  let s := modThm (modSpn s fun n => { n with govReq := 0 }) fun t =>
    { t with exceeded := false, interval := t.interval + 250000000 }
  if exceeded then
    let s := modThm s fun t => { t with quiet := 0 }
    if gstep s < 13 then evt Reg.THM_EVT 7 (setGstep (gstep s + 1) s) else s
  else if s.thm.quiet < 7 then modThm s fun t => { t with quiet := t.quiet + 1 }
  else setGstep (gstep s - 1) (modThm s fun t => { t with quiet := 0 })

def execGovernorInterval (s : State) : Host.Outcome State Fault Refusal := .next (governorInterval s)

/-- THR_WRITE (R447). -/
def thrWrite (v : Nat) (s : State) : State :=
  let w := bitsOf v 0 8
  let t := bitsOf v 8 8
  let r := bitsOf v 16 8
  if 60 ≤ w ∧ w ≤ 100 ∧ w ≤ t ∧ 70 ≤ t ∧ t ≤ 100 ∧ 50 ≤ r ∧ r < t then setF s Reg.THM_THR 0 24 v
  else evt Reg.THM_EVT 8 s

def execThrWrite (value : Word) (s : State) : Host.Outcome State Fault Refusal :=
  .next (busOk (thrWrite value.toNat s))

/-- FLOOR_WRITE. -/
def execFloorWrite (value : Word) (s : State) : Host.Outcome State Fault Refusal :=
  .next (busOk (ladder (plainWrite Reg.THM_CTL value.toNat s)))

/-- I5LIM_WRITE. -/
def i5limWrite (v : Nat) (s : State) : State :=
  if !fpNonFinite v && decide (1 / 2 ≤ fpVal v ∧ fpVal v ≤ 2) then wrN s Reg.THM_I5LIM v
  else evt Reg.THM_EVT 8 s

def execI5limWrite (value : Word) (s : State) : Host.Outcome State Fault Refusal :=
  .next (busOk (i5limWrite value.toNat s))

def execTmaxWrite (_value : Word) (s : State) : Host.Outcome State Fault Refusal :=
  .next (busOk (wrN s Reg.THM_TMAX (getF s Reg.THM_TEMP 0 16)))

end Sys2Proof.Machine
end

