-- ==== Sys2Proof/Machine/Calibration.lean ====
section
/-! DEFINITION. Calibration and link test (chapter 17). -/

namespace Sys2Proof.Machine

/-! ## The calibration record (R460) -/

/-- NAND offset of copy `k` of the calibration record. -/
def calCopy (k : Nat) : Nat := 0x08080000 + 0x100 * k

/-- VALID of a record. -/
abbrev calValid : Nat := 0x3C96A55AE1870F1E

/-- Bytes 0x00 to 0x3B of a record. -/
def calBytes (seq : Nat) (trims : List Nat) : List Nat :=
  let b := leBytes 4 seq ++ leBytes 4 0 ++ (trims.flatMap (leBytes 4))
  b ++ leBytes 4 (crc32 b)

/-- Copy `k` is valid. -/
def calCopyOk (s : State) (k : Nat) : Bool :=
  let b := nandBytes s (calCopy k) 256
  leNat (b.drop 0xF8) == calValid && leNat ((b.drop 0x38).take 4) == crc32 (b.take 0x38)

/-- SEQ of copy `k`. -/
def calSeq (s : State) (k : Nat) : Nat := leNat (nandBytes s (calCopy k) 4)

/-- Take trims into effect. -/
def setTrims (trims : List Nat) (s : State) : State :=
  (List.range 6).foldl (fun s n =>
    wrN (wrN s (Reg.CAL_GAIN n) (trims.getD (2 * n) 0)) (Reg.CAL_OFS n) (trims.getD (2 * n + 1) 0)) s

/-- BOOT: the valid copy with the higher SEQ, or the factory trims. -/
def calBoot (s : State) : State :=
  let ok := (List.range 2).filter (calCopyOk s)
  match ok with
  | [] => setBit s Reg.CAL_STS 8 true
  | k :: l =>
    let k := l.foldl (fun k j => if calSeq s k < calSeq s j then j else k) k
    let trims := (List.range 12).map fun i => leNat (nandBytes s (calCopy k + 8 + 4 * i) 4)
    let s := setTrims trims (wrN s Reg.CAL_SEQ (calSeq s k))
    modCal s fun c => { c with copy := k }

/-! ## Running a calibration (R461 to R465) -/

/-! ### CAL_STS results and phases -/
namespace CalRes
abbrev accepted : Nat := 0
abbrev busy : Nat := 1
abbrev mode : Nat := 2
abbrev inProg : Nat := 3
end CalRes

/-- The answer to a write of CAL_CMD.GO. -/
def calCheck (s : State) (deferred : Bool) : Nat :=
  if bit s Reg.CAL_STS 0 then CalRes.inProg
  else if mode s = Mode.standby ∨ mode s = Mode.spinning ∨ mode s = Mode.ready ∨ mode s = Mode.active then
    if bit s Reg.SYS_STS 5 then CalRes.busy
    else if (mode s = Mode.ready ∨ mode s = Mode.active) ∧ deferred = false then CalRes.busy
    else CalRes.accepted
  else CalRes.mode

/-- CAL_STS.PHASE. -/
def setCalPhase (p : Nat) (s : State) : State := setF s Reg.CAL_STS 1 3 p
def calPhase (s : State) : Nat := getF s Reg.CAL_STS 1 3

/-- Step 1 of R462: CALIBRATE, with the spindle coasting and the chains offline. -/
def calEnter (s : State) : State :=
  let s := modCal s fun c => { c with run := c.run.map fun r => { r with origin := mode s, offline := true } }
  coast (enterMode Mode.calibrate (setCalPhase 3 s))

/-- A write of GO. -/
def calGo (deferred : Bool) (s : State) : State :=
  let r := calCheck s deferred
  let s := setF s Reg.CAL_STS 4 3 r
  if r ≠ CalRes.accepted then evt Reg.CAL_EVT 2 s else
  let hot := hotMode (mode s)
  let s := modCal s fun c => { c with run := some ⟨mode s, hot, false, false, []⟩ }
  let s := setBit (setBit s Reg.CAL_STS 0 true) Reg.CAL_STS 9 false
  if hot then requestMode Mode.spinning (setCalPhase 1 s) else calEnter s

def execCalibrate (s : State) : Host.Outcome State Fault Refusal := .next (busOk (calGo false s))
def execCalibrateDeferred (s : State) : Host.Outcome State Fault Refusal := .next (busOk (calGo true s))

/-- Return from CALIBRATE and, after a deferred calibration, to READY. -/
def calReturn (s : State) : State :=
  match s.cal.run with
  | none => s
  | some r =>
    if mode s = Mode.calibrate then
      if calPhase s = 5 ∧ (r.origin = Mode.standby ∨ bit s Reg.SPN_STS 11 = true) then
        let s := enterMode r.origin s
        if r.deferred then requestMode Mode.ready s else calOver s
      else s
    else s

/-- What a deferred calibration does next after a step toward SPINNING or READY (R464). -/
def calFollow (s : State) : State :=
  match s.cal.run with
  | none => s
  | some r =>
    if mode s = Mode.calibrate then calReturn s
    else if s.sys.target.isSome || !r.deferred then s
    else if calPhase s = 5 then
      if atMode s Mode.ready then calOver s else calOver (setBit s Reg.CAL_STS 9 true)
    else if mode s = Mode.spinning then calEnter s
    else calAbort (setBit s Reg.CAL_STS 9 true)

def execTransitionStepDone (ok : Bool) (s : State) : Host.Outcome State Fault Refusal :=
  .next (calFollow (transitionStepDone ok s))

def execLoadEnd (s : State) : Host.Outcome State Fault Refusal := .next (calFollow (loadEnd s))

def execLoadTimeout (s : State) : Host.Outcome State Fault Refusal := .next (calFollow (loadTimeout s))

/-- Step 6 of R462: the result, the count and the time. -/
def calDone (code chains : Nat) (s : State) : State :=
  let s := satInc (calResult code chains s) Reg.CAL_COUNT 32
  calReturn (setCalPhase 5 (wr64 s Reg.CAL_LASTTIME (ptp s)))

/-- A chain that is calibrated: those of a disabled actuator are skipped (R458). -/
def chainUsed (s : State) (n : Nat) : Bool := !(n == 3 && disabled s 0 || n == 4 && disabled s 1)

/-- A chain's gain and offset lie in their ranges (R463). -/
def trimOk (gain ofs : Nat) : Bool :=
  !fpNonFinite gain && !fpNonFinite ofs &&
    decide (95 / 100 ≤ fpVal gain ∧ fpVal gain ≤ 105 / 100 ∧ ratAbs (fpVal ofs) ≤ 2 / 100)

/-- The code of a measurement: missing reference, reference out of range, or a failing chain. -/
def calCode (ref : Nat) (bad : Nat) : Nat :=
  if fpNonFinite ref then 2
  else if fpVal ref < 1 / 10 then 1
  else if fpVal ref < 12375 / 10000 ∨ 12625 / 10000 < fpVal ref then 2
  else if bad ≠ 0 then 3 else 0

/-- CHAINS_ONLINE: steps 2 to 4 of R462. -/
def chainsOnline (ref trims : Nat) (s : State) : State :=
  match s.cal.run with
  | none => s
  | some r =>
    if !r.offline then s else
    let w (i : Nat) : Nat := bitsOf trims (32 * i) 32
    let failing (n : Nat) : Bool := chainUsed s n && !trimOk (w (2 * n)) (w (2 * n + 1))
    let bad := ((List.range 6).map fun n => if failing n then 2 ^ n else 0).foldl (· + ·) 0
    let code := calCode ref bad
    let new := (List.range 12).map fun i =>
      if chainUsed s (i / 2) then w i
      else rdN s (if i % 2 = 0 then Reg.CAL_GAIN (i / 2) else Reg.CAL_OFS (i / 2))
    let s := modCal (wrN s Reg.CAL_REF ref) fun c =>
      { c with run := some { r with offline := false, trims := new } }
    let s := if r.origin = Mode.spinning then updateAttgt (runCommand s).2 else s
    if code = 0 then setCalPhase 4 s else calDone code (if code = 3 then bad else 0) s

def execChainsOnline (ref : Word) (trims : BitVec 384) (s : State) : Host.Outcome State Fault Refusal :=
  .next (chainsOnline ref.toNat trims.toNat s)

/-- CAL_RECORD_DURABLE: step 5 of R462. A program that fails leaves its bytes free, without VALID. -/
def calDurable (ok : Bool) (s : State) : State :=
  match s.cal.run with
  | none => s
  | some r =>
    if calPhase s ≠ 4 then s else
    let k := 1 - s.cal.copy
    let s := nandErase s (calCopy k) (calCopy k + 256)
    if ok then
      let seq := rdN s Reg.CAL_SEQ + 1
      let s := nandWrite s (calCopy k) (calBytes (seq % 2 ^ 32) r.trims)
      let s := nandWrite s (calCopy k + 0x3C) (List.replicate 188 0)
      let s := nandWrite s (calCopy k + 0xF8) (leBytes 8 calValid)
      let s := setTrims r.trims (wrN (setBit s Reg.CAL_STS 8 false) Reg.CAL_SEQ seq)
      calDone 0 0 (modCal s fun c => { c with copy := k })
    else
      let b := freeBytes 60 s
      calDone 4 0 (nandWrite { s with draws := s.draws + 60 } (calCopy k) b)

def execCalRecordDurable (ok : Bool) (s : State) : Host.Outcome State Fault Refusal := .next (calDurable ok s)

/-! ## Link test (R466 to R469) -/

/-- The port type of a port's test: that of its link, or FMODE without one (R467). -/
def tstPortType (s : State) (p : Nat) : Nat :=
  if linkUp s p then getF s (Reg.ETH_STS p) 1 4 else getF s (Reg.ETH_CTL p) 4 4

/-- Lanes of a port type. -/
def typeLanes (m : Nat) : Nat := if m = 0 ∨ 9 < m then 0 else if m ≤ 2 then 4 else if m ≤ 4 then 2 else 1

/-- The target exists, and is not on a disabled or held actuator. A NAND range lies in the spare
region. -/
def targetOk (s : State) (n : Nat) : Bool :=
  let t := tstTarget s n
  match targetPort t, targetSlot t with
  | some p, _ => decide (t % 4 < typeLanes (tstPortType s p))
  | none, some k => !disabled s (slotAct k) && !held s (slotAct k)
  | none, none =>
    t == 0x30 || decide (0x40 ≤ t ∧ t < 0x44) ||
      (t == 0x50 && decide (0x1A100000 ≤ rdN s (Reg.TST_ADDR n)
        ∧ rdN s (Reg.TST_ADDR n) + rdN s (Reg.TST_LEN n) ≤ 2 ^ 29))

/-- The pattern is listed for the target (R466, R467). -/
def patternOk (s : State) (n : Nat) : Bool :=
  let t := tstTarget s n
  let p := getF s (Reg.TST_CFG n) 8 4
  if t < 8 then p == 4 || p == 5 || (p == 2 && decide (3 ≤ tstPortType s (t / 4) ∧ tstPortType s (t / 4) ≤ 7))
  else if (0x10 ≤ t ∧ t < 0x18) ∨ t = 0x30 then p == 1 || p == 3 || p == 4
  else if 0x20 ≤ t ∧ t < 0x30 then p == 6
  else if t = 0x50 then p == 8
  else p == 7 || p == 4

/-- Another running channel has the target. -/
def targetInUse (s : State) (n : Nat) : Bool :=
  (List.range 8).any fun c => c != n && tstRun s c && tstTarget s c == tstTarget s n

/-- The mode admits the test at all. -/
def modeAdmits (s : State) (t : Nat) : Bool :=
  if t < 0x30 then testMode (mode s) && mode s != Mode.calibrate else mode s == Mode.test

/-- The first reason for which a channel refuses GO. -/
def tstCheck (s : State) (n : Nat) : Nat :=
  if tstRun s n then TstRes.busy
  else if !targetOk s n then TstRes.target
  else if !patternOk s n then TstRes.pattern
  else if targetInUse s n then TstRes.inUse
  else if !modeAdmits s (tstTarget s n) then TstRes.mode
  else if !tstHolds s (tstTarget s n) then TstRes.busy
  else TstRes.ok

/-- What the tested range of the SRAM holds is not given: free values. -/
def scramble (c a : Nat) : Nat → State → State
  | 0, s => s
  | k + 1, s =>
    let s := scramble c a k s
    if (a / 8 + k) / 8 % 4 = c then
      let (v, s) := drawFree 64 s
      sramPutWord s (a / 8 + k) ⟨BitVec.ofNat 64 v, .clean⟩
    else s

/-- What the tested range of the NAND holds is not given: free values. -/
def scrambleNand (a : Nat) : Nat → State → State
  | 0, s => s
  | k + 1, s =>
    let s := scrambleNand a k s
    let (v, s) := drawFree 8 s
    nandPutByte s (a + k) v

/-- A memory test destroys what its range held. -/
def tstDestroys (n : Nat) (s : State) : State :=
  let t := tstTarget s n
  let a := rdN s (Reg.TST_ADDR n)
  let len := rdN s (Reg.TST_LEN n)
  if 0x40 ≤ t ∧ t < 0x44 then scramble (t - 0x40) (a % 2 ^ 29) (len / 8) s
  else if t = 0x50 then scrambleNand a len s
  else s

/-- TST_GO. -/
def tstGo (n : Nat) (s : State) : State :=
  let r := tstCheck s n
  if r = TstRes.busy ∧ tstRun s n = true then s
  else if r ≠ TstRes.ok then setF s (Reg.TST_STS n) 4 4 r
  else
    let s := wrN (wr64 (wrN (wrN s (Reg.TST_STS n) 1) (Reg.TST_ERR n) 0) (Reg.TST_BITS n) 0) (Reg.TST_FAIL n) 0
    let s := modCal s fun c => { c with tests := modAt c.tests n fun _ => s.clock }
    let s := tstDestroys n s
    match targetPort (tstTarget s n) with
    | some p => failPort p .test s
    | none => s

def execTstGo (channel : Fin 8) (s : State) : Host.Outcome State Fault Refusal := .next (busOk (tstGo channel s))

/-- A checker that locks: that of every pattern of bits. -/
def locks (p : Nat) : Bool := decide (p ≤ 5)

/-- The counts of a test that ends: nothing while its checker is off, or before it has locked. -/
def tstCounts (n e b f : Nat) (lock : Bool) (s : State) : State :=
  let on := !bit s (Reg.TST_CFG n) 13 && (lock || !locks (getF s (Reg.TST_CFG n) 8 4))
  if on then
    let s := setBit s (Reg.TST_STS n) 1 (lock && locks (getF s (Reg.TST_CFG n) 8 4))
    wrN (wr64 (wrN s (Reg.TST_ERR n) e) (Reg.TST_BITS n) b) (Reg.TST_FAIL n) f
  else s

/-- TST_STOP: it ends a test with TST_DUR = 0. -/
def tstStop (n e b f : Nat) (lock : Bool) (s : State) : State :=
  if tstRun s n ∧ rdN s (Reg.TST_DUR n) = 0 then tstEnds n TstRes.ok (tstCounts n e b f lock s) else s

def execTstStop (channel : Fin 8) (errors : Word) (bits : DWord) (fail : Word) (lock : Bool) (s : State) :
    Host.Outcome State Fault Refusal :=
  .next (busOk (tstStop channel errors.toNat bits.toNat fail.toNat lock s))

/-- TEST_DURATION_END: TST_DUR ms have passed since GO. -/
def tstExpires (n e b f : Nat) (lock : Bool) (s : State) : State :=
  let d := rdN s (Reg.TST_DUR n)
  if tstRun s n ∧ d ≠ 0 ∧ s.cal.tests.getD n 0 + 1000000 * d ≤ s.clock then
    tstEnds n TstRes.ok (tstCounts n e b f lock s)
  else s

def execTestDurationEnd (channel : Fin 8) (errors : Word) (bits : DWord) (fail : Word) (lock : Bool)
    (s : State) : Host.Outcome State Fault Refusal :=
  .next (tstExpires channel errors.toNat bits.toNat fail.toNat lock s)

end Sys2Proof.Machine
end

