-- ==== Sys2Proof/Machine/Imone.lean ====
section
/-! DEFINITION. Faults and words of the Imone links: sector deadlines of the lanes (R74, R438), the
supplies' comparators and FLT_N (R411), and the control channels (R522 to R526). -/

namespace Sys2Proof.Machine

/-! ## Sector deadlines (R74, R438) -/

/-- A lane delivers nothing for a sector: the second time within one revolution it fails (R438). -/
def laneMisses (l : Nat) (s : State) : State :=
  match (laneAt s l).missedAt with
  | some t =>
    let s := advanceLane l (modLane s l fun n => { n with missedAt := some s.ang.incs })
    if s.ang.incs < t + 2 ^ 22 ∧ bit s Reg.SYS_LANEFAIL l = false then laneFails l s else s
  | none => advanceLane l (modLane s l fun n => { n with missedAt := some s.ang.incs })

/-- SECTOR_DEADLINE: the first preamble bit of the sector after next has reached the lane, and the sector in
progress ends as it stands: SYNCMISS where no sync mark was located, else DEC = FAIL with the hard
decisions. Before that instant nothing ends. -/
def sectorDeadline (l : Nat) (g : SectorSignal) (searched dead : Bool) (s : State) : State :=
  match (laneAt s l).run with
  | none => s
  | some r =>
    if !pastBound s r then s
    else if dead then laneMisses l s
    else sectorEnds l r (laneReport s l r g true searched) s

def execSectorDeadline (lane : Fin 16) (signal : SectorSignal) (searched dead : Bool) (s : State) :
    Host.Outcome State Fault Refusal := .next (sectorDeadline lane signal searched dead s)

/-! ## Supplies and FLT_N (R411, R414) -/

/-- Change the Sluice's state. -/
def modSlu (s : State) (f : SluState → SluState) : State := { s with slu := f s.slu }

/-- A supply leaves its window. -/
def supplyOut (v5 : Bool) (s : State) : State :=
  sluAll (evt Reg.SLU_EVT 2 (modSlu s fun x => if v5 then { x with v5Bad := true } else { x with v12Bad := true }))

def execSupplyExcursion (v5 : Bool) (s : State) : Host.Outcome State Fault Refusal := .next (supplyOut v5 s)

/-- A supply is back in its window: the condition holds again, and no latch clears (R415). -/
def supplyBack (v5 : Bool) (s : State) : State :=
  modSlu s fun x => if v5 then { x with v5Bad := false } else { x with v12Bad := false }

def execSupplyReturn (v5 : Bool) (s : State) : Host.Outcome State Fault Refusal := .next (supplyBack v5 s)

/-- Condition PFAULT of actuator `a` begins to fail: every context of the actuator takes PFAULT. -/
def pfaultBegins (a : Nat) (s : State) : State := raiseAll a SCause.pfault (sluAll (evt Reg.SLU_EVT 3 s))

/-- FLT_N of actuator `a` begins to count as low, unless it does already. -/
def stampFlt (a : Nat) (s : State) : State :=
  if fltHeld s a then s else modSlu s fun x => { x with fltClock := modAt x.fltClock a fun _ => s.clock }

/-- The level of FLT_N of actuator `a`. -/
def setFlt (a : Nat) (low : Bool) (s : State) : State :=
  modSlu (if low then stampFlt a s else s) fun x =>
    if a = 0 then { x with fltLowA := low } else { x with fltLowB := low }

/-- FLT_N_FALL. -/
def fltFalls (a : Nat) (s : State) : State :=
  if fltLow s a then setFlt a true s else pfaultBegins a (setFlt a true s)

def execFltNFall (a : Fin 2) (s : State) : Host.Outcome State Fault Refusal := .next (fltFalls a s)

/-- FLT_N_RISE. -/
def execFltNRise (a : Fin 2) (s : State) : Host.Outcome State Fault Refusal := .next (setFlt a false s)

/-- Change the control channel of actuator `a`. -/
def modImone (s : State) (a : Nat) (f : ImoneState → ImoneState) : State :=
  { s with imone := modAt s.imone a f }

/-- PREAMP_SUPPLY_LIMIT: both supplies of the actuator switch off (R518). -/
def supplyLimit (a : Nat) (s : State) : State :=
  let off := modImone (stampFlt a s) a fun x => { x with supplyOff := true }
  if fltLow s a then off else pfaultBegins a off

def execPreampSupplyLimit (a : Fin 2) (s : State) : Host.Outcome State Fault Refusal :=
  .next (supplyLimit a s)

/-! ## Words (R522 to R525) -/

/-- One step of CRC-4 with polynomial x^4 + x + 1. -/
def crc4Step (r : Nat) (b : Bool) : Nat :=
  let t := 2 * r % 16
  if r.testBit 3 != b then Nat.xor t 3 else t

/-- CRC-4 of bits 31:4 of a word, most significant bit first. -/
def crc4 (w : Nat) : Nat := (List.range 28).foldl (fun r i => crc4Step r (w.testBit (31 - i))) 15

/-- The training word. -/
abbrev trainingWord : Nat := 0x00FFFF00

/-- The heads of slots 3 to 0 of actuator `a`, 4 bits each, 0xF for none. -/
def headWord (s : State) (a : Nat) : Nat :=
  ((List.range 4).map fun k => ((slotHead s (4 * a + k)).getD 15 % 16) * 2 ^ (4 * k)).foldl (· + ·) 0

/-- Write permission of slot `n`. -/
def writePermit (s : State) (n : Nat) : Bool := wgPass s n && !wgLatched s n && !assistLatched s n

/-- Assist permission of slot `n`. -/
def assistPermit (s : State) (n : Nat) : Bool := assistPass s n && !assistLatched s n

/-- Bits 31:24 of the word of actuator `a`. -/
def permits (s : State) (a : Nat) : Nat :=
  ((List.range 4).map fun k =>
    (if writePermit s (4 * a + k) then 2 ^ (28 + k) else 0)
      + (if assistPermit s (4 * a + k) then 2 ^ (24 + k) else 0)).foldl (· + ·) 0

/-- The latched assist code of slot `n`. -/
def latchedCode (s : State) (n : Nat) : Nat := getF s (Reg.LANE_APWR n) 0 16

/-- The first of four slots that `p` names. -/
def firstSlot (p : Nat → Bool) : Option Nat := (List.range 4).find? p

/-- A HEAD word's type and payload. -/
def headPayload (s : State) (a : Nat) : Nat := 2 ^ 4 * headWord s a

/-- An ASSIST word's type and payload for slot `k` of actuator `a`. -/
def assistPayload (s : State) (a k : Nat) : Nat :=
  2 ^ 22 + 2 ^ 20 * k + 2 ^ 4 * latchedCode s (4 * a + k)

/-- The refresh word's type and payload. -/
def refreshPayload (s : State) (a : Nat) : Nat :=
  let r := (imoneAt s a).refresh
  if r = 0 then headPayload s a else assistPayload s a (r - 1)

/-- The type and payload of actuator `a`'s next word, in the order of R523, and the channel after it. -/
def chooseWord (s : State) (a : Nat) : Nat × ImoneState :=
  let x := imoneAt s a
  if headWord s a ≠ x.heads then (headPayload s a, { x with heads := headWord s a })
  else match firstSlot fun k => latchedCode s (4 * a + k) != x.codes.getD k 0 with
  | some k => (assistPayload s a k, { x with codes := modAt x.codes k fun _ => latchedCode s (4 * a + k) })
  | none =>
    match x.access, firstSlot fun k => getF s (Reg.LANE_ARAMP (4 * a + k)) 0 4 != x.ramps.getD k 0 with
    | p :: l, _ => (2 * 2 ^ 22 + 2 ^ 4 * p, { x with access := l })
    | [], some k =>
      let v := getF s (Reg.LANE_ARAMP (4 * a + k)) 0 4
      (2 * 2 ^ 22 + 2 ^ 4 * (2 ^ 17 + 2 ^ 10 * (0x44 + k) + 4 * v), { x with ramps := modAt x.ramps k fun _ => v })
    | [], none => (refreshPayload s a, { x with refresh := (x.refresh + 1) % 5 })

/-- CONTROL_WORD: one frame's word. -/
def controlWord (a : Nat) (s : State) : State :=
  if (imoneAt s a).training then modImone s a fun x => { x with sent := trainingWord }
  else
    let (p, x) := chooseWord s a
    let w := permits s a + p
    modImone s a fun _ => { x with sent := w + crc4 w }

def execControlWord (a : Fin 2) (s : State) : Host.Outcome State Fault Refusal := .next (controlWord a s)

/-! ### Preamp words -/

/-- MON of slot `k` in a preamp word. -/
def monOf (w k : Nat) : Nat := bitsOf w (12 + 5 * k) 5

/-- The monitor reading of slot `n`: nothing while its assist is off. -/
def amonOf (s : State) (n mon : Nat) : Nat :=
  if assistOut s n then latchedCode s n * (mon + 16) / 32 else 0

/-- The reading of slot `n` exceeds the selected head's limit by more than the margin. -/
def amonHigh (s : State) (n v : Nat) : Bool :=
  match slotHead s n with
  | some h => assistOut s n && decide (getF s (Reg.SLU_APMAX (headIndex (slotAct n) h)) 0 16
      * (100 + getF s Reg.SLU_AMONMG 0 8) < 100 * v)
  | none => false

/-- Condition AOVER follows the second of two consecutive frames (R411). -/
def aoverFrame (n v : Nat) (s : State) : State :=
  let t := slotAt s n
  let hi := amonHigh s n v
  let up := if hi then t.aoverHigh + 1 else 0
  let dn := if hi then 0 else t.aoverLow + 1
  let fail := if 2 ≤ up then true else if 2 ≤ dn then false else t.aoverFail
  let s := modSlot s n fun t => { t with aoverHigh := min up 2, aoverLow := min dn 2, aoverFail := fail }
  sluApply n (evtIf (fail && !t.aoverFail) Reg.SLU_EVT 6 s)

/-- The reading lies outside the tolerance of R93. -/
def amonOff (s : State) (n v : Nat) : Bool :=
  let c := latchedCode s n
  decide (getF s (Reg.LANE_AMTOL (slotAct n)) 0 8 * c < 100 * ((v - c) + (c - v)))

/-- The wedge interval that the counter stands in. -/
def wedgeNow (s : State) : Nat := s.ang.incs * wedges s / ticksPerRev

/-- The first reading of a wedge interval counts for R93; the count ends with the assist. What CNT = 0 means
is not stated: DESIGN CHOICE (log entry 12), AMONERR is then never set. -/
def amonWedge (n v : Nat) (s : State) : State :=
  let a := slotAct n
  let old := getF s (Reg.LANE_AMON n) 16 8
  if !assistOut s n then setF s (Reg.LANE_AMON n) 16 8 0
  else if (imoneAt s a).wedge.getD (n % 4) 0 = wedgeNow s then s
  else
    let new := if amonOff s n v then min 255 (old + 1) else 0
    let s := modImone s a fun x => { x with wedge := modAt x.wedge (n % 4) fun _ => wedgeNow s }
    let lim := getF s (Reg.LANE_AMTOL a) 8 4
    evtIf (decide (0 < lim ∧ lim ≤ new)) (Reg.LANE_SLEVT n) 4 (setF s (Reg.LANE_AMON n) 16 8 new)

/-- The monitor reading of slot `n`. -/
def monitor (n mon : Nat) (s : State) : State :=
  let v := amonOf s n mon
  amonWedge n v (aoverFrame n v (setF s (Reg.LANE_AMON n) 0 16 v))

/-- A frame in error: sixteen in a row hold the actuator (R439). -/
def frameError (a : Nat) (s : State) : State :=
  let s := modImone s a fun x => { x with errFrames := x.errFrames + 1 }
  if (imoneAt s a).errFrames = 16 then holdActuator a AhCause.link s else s

/-- A retraining starts (R525): the Sluice takes FLT_N as low. -/
def retrain (a : Nat) (s : State) : State :=
  let t := modImone s a fun x => { x with training := true, again := true, good := 0, errWords := 0 }
  if fltLow s a then t else pfaultBegins a t

/-- A word whose CRC fails; the eighth in a row starts a retraining. -/
def wordError (a : Nat) (s : State) : State :=
  let s := (List.range 4).foldl (fun s k =>
    modSlot s (4 * a + k) fun t => { t with aoverHigh := 0, aoverLow := 0 }) s
  let s := frameError a (modImone s a fun x => { x with errWords := x.errWords + 1 })
  if (imoneAt s a).errWords = 8 then retrain a s else s

/-- Training has succeeded. -/
def trained (a : Nat) (s : State) : State :=
  modImone s a fun x =>
    { x with training := false, again := false, good := 0, errWords := 0, errFrames := 0 }

/-- A word received while training: the fourth training word in a row ends it, and each frame of a
retraining before that is in error. -/
def trainWord (a w : Nat) (s : State) : State :=
  let n := if w = trainingWord then (imoneAt s a).good + 1 else 0
  let s := modImone s a fun x => { x with good := n }
  if 4 ≤ n then trained a s
  else if (imoneAt s a).again then frameError a s else s

/-- A good word: its readings and data. -/
def goodWord (a w : Nat) (s : State) : State :=
  let s := modImone s a fun x => { x with errWords := 0, errFrames := 0, regData := bitsOf w 4 8 }
  (List.range 4).foldl (fun s k => monitor (4 * a + k) (monOf w k) s) s

/-- PREAMP_WORD. Outside training, the training word is neither decoded nor in error. -/
def preampWord (a w : Nat) (s : State) : State :=
  if (imoneAt s a).training then trainWord a w s
  else if w = trainingWord then s
  else if crc4 w = w % 16 then goodWord a w s
  else wordError a s

def execPreampWord (a : Fin 2) (word : Word) (s : State) : Host.Outcome State Fault Refusal :=
  .next (preampWord a word.toNat s)

/-- LINK_TRAINING: at the start of SURVEY, or in a training that goes on, the module sends 64 training
words. -/
def linkTraining (a : Nat) (answered : Bool) (s : State) : State :=
  if mode s ≠ Mode.survey ∧ (imoneAt s a).training = false then s else
  let s := modImone s a fun x => { x with training := true, good := 0, sent := trainingWord }
  if answered then trained a s else s

def execLinkTraining (a : Fin 2) (answered : Bool) (s : State) : Host.Outcome State Fault Refusal :=
  .next (linkTraining a answered s)

end Sys2Proof.Machine
end

