-- ==== Sys2Proof/Machine/Tap.lean ====
section
/-! DEFINITION. The test access port (R530): its instructions, the boundary register and FWLOAD. -/

namespace Sys2Proof.Machine

/-- Change the TAP's state. -/
def modTap (s : State) (f : TapState → TapState) : State := { s with tap := f s.tap }

/-- The TAP executes BYPASS: the bypass register captures 0. -/
def tapBypass (s : State) : State :=
  modTap s fun t => { t with instr := .bypass, captured := 0, driven := none }

def execBypass (s : State) : Host.Outcome State Fault Refusal := .next (tapBypass s)

/-- IDCODE: version 1, part 0x8800. -/
def tapIdcode (s : State) : State :=
  modTap s fun t => { t with instr := .idcode, captured := 0x1880054B, driven := none }

def execIdcode (s : State) : Host.Outcome State Fault Refusal := .next (tapIdcode s)

/-- The single-ended balls of R519, in the order of its table: write gates and assist enables of slots A0
to B3, FLT_N of both preamps, HDA_SCL, HDA_SDA and RESET_N. -/
def tapPins (s : State) (scl sda : Bool) : Nat :=
  let l := ((List.range 8).map (wgOut s)) ++ ((List.range 8).map (assistOut s))
    ++ [!s.slu.fltLowA, !s.slu.fltLowB, scl, sda, !s.sys.resetLow]
  l.foldr (fun b v => 2 * v + if b then 1 else 0) 0

/-- SAMPLE_PRELOAD: the balls are captured, and the boundary register is loaded. -/
def tapSample (scl sda : Bool) (load : Nat) (s : State) : State :=
  modTap s fun t => { t with instr := .sample, captured := tapPins s scl sda, boundary := load, driven := none }

def execSamplePreload (scl sda : Bool) (load : BitVec 21) (s : State) : Host.Outcome State Fault Refusal :=
  .next (tapSample scl sda load.toNat s)

/-- An instruction that drives outputs, accepted only while RESET_N is low; at any other time the TAP
executes BYPASS in its place. -/
def tapDrive (i : TapInstr) (s : State) : State :=
  if s.sys.resetLow then modTap s fun t =>
      { t with instr := i, captured := if i = .clamp then 0 else t.boundary, driven := some t.boundary }
  else tapBypass s

def execExtest (s : State) : Host.Outcome State Fault Refusal := .next (tapDrive .extest s)
def execExtestPulse (s : State) : Host.Outcome State Fault Refusal := .next (tapDrive .extestPulse s)
def execExtestTrain (s : State) : Host.Outcome State Fault Refusal := .next (tapDrive .extestTrain s)
def execClamp (s : State) : Host.Outcome State Fault Refusal := .next (tapDrive .clamp s)

/-- HIGHZ: the outputs are in high impedance, and BYPASS is between TDI and TDO. -/
def tapHighz (s : State) : State :=
  modTap s fun t => { t with instr := .highz, captured := 0, driven := none }

def execHighz (s : State) : Host.Outcome State Fault Refusal := .next (tapHighz s)

/-- The TAP after RESET_N has risen: an instruction that drives outputs gives way to BYPASS. -/
def tapRelease (s : State) : State := if s.tap.driven.isSome then tapBypass s else s

/-- FWLOAD is accepted: SAFE-HOLD with cause NOFW. -/
def fwloadOk (s : State) : Bool :=
  mode s == Mode.safeHold && getF s Reg.SYS_SHCAUSE 0 4 == ShCause.noFw

/-- FWLOAD: a firmware slot is erased and written. What lies beyond the slot is not written. -/
def fwload (slot : Nat) (image : List Nat) (s : State) : State :=
  if !fwloadOk s then tapBypass s else
  let a := fwSlotSize * slot
  let s := modTap s fun t => { t with instr := .fwload, driven := none }
  nandProg (nandErase s a (a + fwSlotSize)) a (image.take fwSlotSize)

def execFwload (slot : Fin 2) (image : List Byte) (s : State) : Host.Outcome State Fault Refusal :=
  .next (fwload slot (image.map BitVec.toNat) s)

end Sys2Proof.Machine
end

