-- ==== Sys2Proof/Machine/Trust.lean ====
section
/-! DEFINITION. The SEC block (chapter 14): OTP operations, verification of signed images and signing,
and the Sluice's limits under firmware's writes (R410). -/

namespace Sys2Proof.Machine

/-- Change the SEC block's state. -/
def modSec (s : State) (f : SecState → SecState) : State := { s with sec := f s.sec }

/-! ## OTP (R395 to R397, R403) -/

/-! ### Results of SEC_OTPRES -/
namespace OtpRes
abbrev ok : Nat := 0
abbrev range : Nat := 1
abbrev runKey : Nat := 2
abbrev lastKey : Nat := 3
abbrev notEmpty : Nat := 4
abbrev otpFail : Nat := 5
end OtpRes

/-- SEC_OTPST and SEC_ARB show the OTP. -/
def showOtp (s : State) : State :=
  let four (p : Nat → Bool) : Nat := ((List.range 4).map fun n => if p n then 2 ^ n else 0).foldl (· + ·) 0
  let s := wrN s Reg.SEC_OTPST (s.sec.revoke % 16 + 2 ^ 4 * four (fun n => keyHash s n != 0)
    + 2 ^ 8 * four (keyValid s))
  wrN s Reg.SEC_ARB s.sec.arb

/-- An OTP operation is refused. -/
def otpRefuse (r : Nat) (s : State) : State := evt Reg.SEC_EVT 3 (setF s Reg.SEC_OTPRES 0 3 r)

/-- Start an OTP operation, or refuse it; one that runs goes on, and the request is ignored. -/
def otpStart (r : Nat) (op : OtpOp) (s : State) : State :=
  if s.sec.otp.isSome then s
  else if r ≠ 0 then otpRefuse r s
  else setBit (modSec s fun x => { x with otp := some op }) Reg.SEC_OTPRES 31 true

/-- The hash in SEC_KHDATA. -/
def khHash (s : State) : Nat := beNat (s.sec.khData.flatMap fun w => leBytes 4 w.toNat)

/-- KHPROG: GO to SEC_KHPROG. Slot 0 is no drive-maker slot. -/
def khProg (n : Nat) (s : State) : State :=
  otpStart (if n = 0 then OtpRes.range else if keyHash s n ≠ 0 then OtpRes.notEmpty else 0)
    (.keyHash n (khHash s)) s

def execKhprog (slot : Fin 4) (s : State) : Host.Outcome State Fault Refusal := .next (busOk (khProg slot s))

/-- Key `n` is the only valid key. -/
def lastKey (s : State) (n : Nat) : Bool :=
  keyValid s n && (List.range 4).all fun k => k == n || !keyValid s k

/-- REVCMD: GO to SEC_REVCMD. -/
def revCmd (n : Nat) (s : State) : State :=
  otpStart (if s.sec.runKey = n ∧ bit s Reg.SEC_STS 0 = true then OtpRes.runKey
      else if lastKey s n then OtpRes.lastKey else 0) (.revoke n) s

def execRevcmd (key : Fin 4) (s : State) : Host.Outcome State Fault Refusal := .next (busOk (revCmd key s))

/-- ARBADV: a write of `v` to SEC_ARBADV. -/
def arbAdv (v : Nat) (s : State) : State :=
  otpStart (if s.sec.arb < v ∧ v ≤ 64 ∧ v ≤ getF s Reg.SEC_FWSVN 0 7 then 0 else OtpRes.range) (.arb v) s

def execArbadv (value : BitVec 7) (s : State) : Host.Outcome State Fault Refusal :=
  .next (busOk (arbAdv value.toNat s))

/-- An OTP operation has programmed its bits. -/
def otpDo (op : OtpOp) (s : State) : State :=
  modSec s fun x => match op with
    | .keyHash n h => { x with keyHash := modAt x.keyHash n fun _ => h }
    | .revoke n => { x with revoke := Nat.lor x.revoke (2 ^ n) }
    | .arb v => { x with arb := max x.arb v }

/-- A free hash of 256 bits. -/
def drawHash (s : State) : Nat × State :=
  let (a, s) := drawFree 64 s
  let (b, s) := drawFree 64 s
  let (c, s) := drawFree 64 s
  let (d, s) := drawFree 64 s
  (a + 2 ^ 64 * b + 2 ^ 128 * c + 2 ^ 192 * d, s)

/-- A KEYHASH field of which only the bits of `v` were programmed: neither all-zero nor the whole hash
(R434), so where `v` would give either, the hash's lowest set bit alone. -/
def partHash (h v : Nat) : Nat :=
  let p := Nat.land h v
  if p = 0 ∨ p = h then h - Nat.land h (h - 1) else p

/-- An OTP operation has programmed some of its bits (R434): which ones is free. -/
def otpPart (op : OtpOp) (s : State) : State :=
  match op with
  | .keyHash n h =>
    let (v, s) := drawHash s
    modSec s fun x => { x with keyHash := modAt x.keyHash n fun _ => partHash h v }
  | .revoke n =>
    let (v, s) := drawFree 1 s
    modSec s fun x => { x with revoke := Nat.lor x.revoke (v * 2 ^ n) }
  | .arb v =>
    let (k, s) := drawFree 7 s
    modSec s fun x => { x with arb := x.arb + k % (v - x.arb + 1) }

/-- OTPDONE: the operation completes, or fails with part of its bits set. -/
def otpDone (ok : Bool) (s : State) : State :=
  match s.sec.otp with
  | none => s
  | some op =>
    let s := if ok then otpDo op s else otpPart op s
    let s := modSec s fun x => { x with otp := none }
    let s := wrN (showOtp s) Reg.SEC_OTPRES (if ok then OtpRes.ok else OtpRes.otpFail)
    if ok then evt Reg.SEC_EVT 2 s else evt Reg.SEC_EVT 3 s

def execOtpdone (ok : Bool) (s : State) : Host.Outcome State Fault Refusal := .next (otpDone ok s)

/-! ## Verification (R398, R399) -/

/-- A verification or a signing runs. -/
def secBusy (s : State) : Bool := s.sec.verify.isSome || s.sec.sign.isSome

/-- VCMD: GO to SEC_VCMD. -/
def vCmd (s : State) : State :=
  if secBusy s then s
  else wrN (modSec s fun x => { x with verify := some (getF s Reg.SEC_VSRC 0 29) }) Reg.SEC_VSTS 1

def execVcmd (s : State) : Host.Outcome State Fault Refusal := .next (busOk (vCmd s))

/-- VDONE: the verification ends. -/
def vDone (s : State) : State :=
  match s.sec.verify with
  | none => s
  | some a =>
    let g := sramImage s a
    let (r, k) := imgVerify s g
    let s := modSec s fun x => { x with verify := none }
    evt Reg.SEC_EVT 0 (wrN s Reg.SEC_VSTS (2 * r + 2 ^ 4 * k + 2 ^ 8 * (imgSvn g % 128)))

def execVdone (s : State) : Host.Outcome State Fault Refusal := .next (vDone s)

/-! ## Signing (R404, R405) -/

/-- SGCMD: GO to SEC_SGCMD. -/
def sgCmd (s : State) : State :=
  if secBusy s then s
  else wrN (modSec s fun x => { x with sign := some (64 * getF s Reg.SEC_SGSRC 6 23) }) Reg.SEC_SGSTS 1

def execSgcmd (s : State) : Host.Outcome State Fault Refusal := .next (busOk (sgCmd s))

/-- SGDONE: the signature is written, or there is no key. The private key, and so the signature, is
not given: its bytes are free. -/
def sgDone (s : State) : State :=
  match s.sec.sign with
  | none => s
  | some a =>
    let s := modSec s fun x => { x with sign := none }
    let s := if s.sec.idKey then
        let b := freeBytes 384 s
        wrN (sramPutBytes { s with draws := s.draws + 384 } (a + 64) b) Reg.SEC_SGSTS 0
      else wrN s Reg.SEC_SGSTS 2
    evt Reg.SEC_EVT 1 s

def execSgdone (s : State) : Host.Outcome State Fault Refusal := .next (sgDone s)

/-- SEC_LOCK: a write of 1 locks every RWL register outside SLU. -/
def execSecLock (s : State) : Host.Outcome State Fault Refusal :=
  .next (busOk (setBit s Reg.SEC_LOCK 0 true))

/-! ## Limits (R410) -/

/-- SLU_LOCK. -/
def sluLocked (s : State) : Bool := bit s Reg.SLU_LOCK 0

/-- A locked-limit register that holds one integer, with its width. -/
def limitWidth (a : Nat) : Option Nat :=
  if a = Reg.SLU_PESHARD ∨ a = Reg.SLU_AMONMG then some 8
  else if a = Reg.SLU_SPNMAX then some 14
  else if a = Reg.SLU_TXCAP0 ∨ a = Reg.SLU_TXCAP1 then some 32
  else if 0x100180 ≤ a ∧ a < 0x1001E0 ∧ a % 4 = 0 then some 16
  else if 0x100200 ≤ a ∧ a < 0x100260 ∧ a % 4 = 0 then some 32
  else if 0x100280 ≤ a ∧ a < 0x1002E0 ∧ a % 4 = 0 then some 16
  else none

/-- A locked-limit register in fp32. -/
def limitFloat (a : Nat) : Bool :=
  a == Reg.SLU_VCMMAX0 || a == Reg.SLU_VCMMAX1 || a == Reg.SLU_MAVMAX

/-- A write that would loosen a limit. -/
def loosen (s : State) : State := evt Reg.SLU_EVT 8 (satInc s Reg.SLU_LOOSENCNT 32)

/-- The working limits come down to the hard limits. -/
def lowerWorking (s : State) : State :=
  let s := if getF s Reg.SLU_PESHARD 0 8 < getF s Reg.SLU_PESLIM 0 8 then
    wrN s Reg.SLU_PESLIM (getF s Reg.SLU_PESHARD 0 8) else s
  let s := setF s Reg.SLU_SHKLIM 0 16 (min (getF s Reg.SLU_SHKLIM 0 16) (getF s Reg.SLU_SHKHARD 0 16))
  setF s Reg.SLU_SHKLIM 16 16 (min (getF s Reg.SLU_SHKLIM 16 16) (getF s Reg.SLU_SHKHARD 16 16))

/-- A write of `v` to an integer limit of `w` bits. -/
def limitInt (a w v : Nat) (s : State) : State :=
  let v := v % 2 ^ w
  if rdN s a < v then loosen s
  else lowerWorking (wrN (settleTokens s) a v)

/-- A write of `v` to an fp32 limit: one that is not finite, or not above zero, loosens. -/
def limitFp (a v : Nat) (s : State) : State :=
  if v = rdN s a then s
  else if fpNonFinite v || decide (fpVal v ≤ 0) || decide (fpVal (rdN s a) < fpVal v) then loosen s
  else wrN s a v

/-- A write of `v` to SLU_SHKHARD, judged field by field. -/
def limitShock (v : Nat) (s : State) : State :=
  let low (lo : Nat) : Nat := min (getF s Reg.SLU_SHKHARD lo 16) (bitsOf v lo 16)
  let up := decide (getF s Reg.SLU_SHKHARD 0 16 < bitsOf v 0 16 ∨ getF s Reg.SLU_SHKHARD 16 16 < bitsOf v 16 16)
  let s := wrN s Reg.SLU_SHKHARD (low 0 + 2 ^ 16 * low 16)
  lowerWorking (if up then loosen s else s)

/-- LIMIT_WRITE: a write of `v` to the locked limit at register offset `a`. Before SLU_LOCK it is
ignored. -/
def limitWrite (a v : Nat) (s : State) : State :=
  if !sluLocked s then s
  else if a = Reg.SLU_SHKHARD then limitShock v s
  else if limitFloat a then limitFp a v s
  else match limitWidth a with
    | some w => limitInt a w v s
    | none => s

def execLimitWrite (offset : BitVec 10) (value : Word) (s : State) : Host.Outcome State Fault Refusal :=
  .next (busOk (limitWrite (0x100000 + offset.toNat) value.toNat s))

/-- A write of `v` to SLU_PESLIM. -/
def peslimWrite (v : Nat) (s : State) : State :=
  let n := bitsOf v 0 8
  if 5 ≤ n ∧ n ≤ 29 ∧ n ≤ getF s Reg.SLU_PESHARD 0 8 then wrN s Reg.SLU_PESLIM n else s

/-- A write of `v` to SLU_SHKLIM. -/
def shklimWrite (v : Nat) (s : State) : State :=
  if bitsOf v 0 16 ≤ getF s Reg.SLU_SHKHARD 0 16 ∧ bitsOf v 16 16 ≤ getF s Reg.SLU_SHKHARD 16 16 then
    wrN s Reg.SLU_SHKLIM v else s

/-- WORKING_LIMIT_WRITE. -/
def workingWrite (shock : Bool) (v : Nat) (s : State) : State :=
  if !sluLocked s then s else if shock then shklimWrite v s else peslimWrite v s

def execWorkingLimitWrite (shock : Bool) (value : Word) (s : State) : Host.Outcome State Fault Refusal :=
  .next (busOk (workingWrite shock value.toNat s))

end Sys2Proof.Machine
end

