-- ==== Sys2Proof/Machine/StartUp.lean ====
section
/-! DEFINITION. Start-up: the end of FILL, the boot ROM's steps (chapter 14), SURVEY and the identity
memories (chapter 15). -/

namespace Sys2Proof.Machine

/-! ## FILL and the entry to BOOT -/

/-- BOOT begins: the cores are held, the boot ROM reads the OTP, the nonce journal is scanned, and the
clock generators are locked. -/
def enterBoot (s : State) : State :=
  let s := modSys (enterMode Mode.boot s) fun y => { y with coresHeld := true, bootClock := s.clock }
  let s := showOtp (modSec s fun x => { x with inForce := x.revoke })
  let s := setBit (setBit s Reg.CPH_NJSTS 0 true) Reg.CPH_STS 17 false
  setF (modEvr s fun e => { e with scanned := false }) Reg.SYS_CLKSTS 0 4 15

/-- FILL_END: every word holds zero; a word that reads back wrong is counted, and a channel with a word
that cannot be read fails, and is one of those counted (R345). -/
def fillEnd (bad failed : Nat) (s : State) : State :=
  if mode s ≠ Mode.fill ∨ s.sys.resetLow = true then s else
  let bad := max bad (popCount failed 4)
  let s := wrN { s with sram := [] } Reg.ECC_FILLTIME (((s.clock - s.ecc.fillStart) / 1000) % 2 ^ 14)
  let s := setF (setBit s Reg.ECC_STS 0 true) Reg.ECC_STS 4 4 failed
  let s := evtIf (bad != 0) Reg.ECC_EVT 6 (satAdd s Reg.ECC_FILLERR bad)
  let s := showScrub (modEcc s fun e => { e with lapStart := s.clock, late := false })
  if failed = 0 then enterBoot s else safeHold ShCause.sram s

def execFillEnd (bad : Word) (failed : BitVec 4) (s : State) : Host.Outcome State Fault Refusal :=
  .next (fillEnd bad.toNat failed.toNat s)

/-! ## BOOT (R400 to R402) -/

/-- NAND offset of the microcode and configuration region. -/
abbrev configBase : Nat := 0x08000000

/-- The limits block. -/
def limitsImage (s : State) : Image := nandImage s configBase

/-- Copy `k` of the boot-slot record. -/
def slotRecord (s : State) (k : Nat) : List Nat := nandBytes s (configBase + 0x10000 + 0x40 * k) 64

/-- VALID of a boot-slot record. -/
abbrev slotValid : Nat := 0x6C3A95E11E59A3C6

/-- Copy `k` of the boot-slot record is valid. -/
def slotRecordOk (s : State) (k : Nat) : Bool :=
  let b := slotRecord s k
  leNat (b.drop 0x38) == slotValid && leNat ((b.drop 8).take 4) == crc32 (b.take 8)
    && (b.getD 0 0 == 1 || b.getD 0 0 == 2)

/-- SEQ of copy `k` of the boot-slot record. -/
def slotSeq (s : State) (k : Nat) : Nat := leNat (((slotRecord s k).drop 4).take 4)

/-- The firmware slot that the boot-slot record names: 0 slot A, 1 slot B. -/
def namedSlot (s : State) : Nat :=
  let named (k : Nat) : Nat := (slotRecord s k).getD 0 0 - 1
  if slotRecordOk s 0 && (!slotRecordOk s 1 || decide (slotSeq s 1 ≤ slotSeq s 0)) then named 0
  else if slotRecordOk s 1 then named 1
  else 0

/-- The slot to boot from, and whether it is the other slot than the named one. -/
def bootSlot (s : State) : Option (Nat × Bool) :=
  let k := namedSlot s
  if imgGood s (fwImage s k) 1 then some (k, false)
  else if imgGood s (fwImage s (1 - k)) 1 then some (1 - k, true)
  else none

/-- Every payload field of the limits block is in its range, and every other payload byte is zero
(R409). -/
def limitsOk (g : Image) : Bool :=
  let f (o n : Nat) : Nat := Image.le g (64 + o) n
  let r (o n lo hi : Nat) : Bool := decide (lo ≤ f o n ∧ f o n ≤ hi)
  let fp (o hi : Nat) : Bool := !fpNonFinite (f o 4) && decide (0 < fpVal (f o 4) ∧ fpVal (f o 4) ≤ (hi : Rat))
  r 0 1 1 30 && r 2 2 1 65535 && r 4 2 1 65535 && fp 8 2 && fp 0xC 25 && r 0x10 2 5400 10500
    && r 0x12 2 1 0xFFFE && decide (1 ≤ f 0x14 4) && r 0x18 2 1 65535 && r 0x1C 4 1 100000 && r 0x20 1 1 100
    && ([1, 6, 7, 0x1A, 0x1B] ++ (List.range 31).map (0x21 + ·)).all fun o => f o 1 == 0

/-- The Sluice loads the global limits; those of the heads wait for SURVEY. -/
def loadLimits (g : Image) (s : State) : State :=
  let f (o n : Nat) : Nat := Image.le g (64 + o) n
  let s := settleTokens s
  let s := wrN (wrN s Reg.SLU_PESHARD (f 0 1)) Reg.SLU_SHKHARD (f 2 2 + 2 ^ 16 * f 4 2)
  let s := wrN (wrN (wrN s Reg.SLU_VCMMAX0 (f 8 4)) Reg.SLU_VCMMAX1 (f 8 4)) Reg.SLU_MAVMAX (f 0xC 4)
  let s := wrN (wrN (wrN s Reg.SLU_SPNMAX (f 0x10 2)) Reg.SLU_TXCAP0 (f 0x1C 4)) Reg.SLU_TXCAP1 (f 0x1C 4)
  modSlu (wrN s Reg.SLU_AMONMG (f 0x20 1)) fun x => { x with headLimits := (f 0x12 2, f 0x14 4, f 0x18 2) }

/-- Step 2: the limits block is verified, and loaded while SLU_LOCK = 0 (R409). -/
def bootLimits (s : State) : State :=
  let g := limitsImage s
  let ok := imgGood s g 3 && limitsOk g
  let s := setBit s Reg.SEC_STS 5 ok
  sluAll (if ok && !sluLocked s then loadLimits g s else s)

/-- Step 4: the microcode image, and a patch if one is present. -/
def bootMicrocode (s : State) : State :=
  let g := nandImage s (configBase + 0x20000)
  let p := nandImage s (configBase + 0x40000)
  if imageCheck s g false ≠ 0 then setBit s Reg.SEC_STS 6 false else
  let s := imageInstall g false s
  if Image.le p 0 4 ≠ 0x4D515354 then setBit s Reg.SEC_STS 6 true
  else if imageCheck s p true ≠ 0 then setBit s Reg.SEC_STS 6 false
  else setBit (imageInstall p true s) Reg.SEC_STS 6 true

/-- The bank that 32 KiB of an image spell from offset `o` on. -/
def imageBank (g : Image) (o : Nat) : List (Nat × Word) :=
  (List.range 8192).filterMap fun i =>
    let w := BitVec.ofNat 32 (Image.le g (o + 4 * i) 4)
    if w = 0 then none else some (i, w)

/-- A bank goes into the inactive bank of actuator `a`, which is checked and swapped in (R183). -/
def bootBank (g : Image) (a : Nat) (s : State) : State :=
  let b := imageBank g (64 + 32768 * a)
  let s := modSrv s a fun v => if bit s (Reg.SRV_STS a) 1 then { v with bankA := b } else { v with bankB := b }
  bankCheckEnd a (setBit s (Reg.SRV_BANK a) 2 true)

/-- Step 5: the control-engine defaults. -/
def bootDefaults (s : State) : State :=
  let g := nandImage s (configBase + 0x60000)
  if !imgGood s g 2 then setBit s Reg.SEC_STS 7 false else
  let s := bootBank g 1 (bootBank g 0 s)
  setBit s Reg.SEC_STS 7 (getF s (Reg.SRV_BANK 0) 4 3 == 0 && getF s (Reg.SRV_BANK 1) 4 3 == 0)

/-- The causes of R440 that BOOT has found, in the order of its steps. -/
def bootCauses (s : State) : List Nat :=
  (if bit s Reg.SEC_STS 5 then [] else [ShCause.limits]) ++ (if bit s Reg.SEC_STS 6 then [] else [ShCause.ucode])
    ++ (if bit s Reg.SEC_STS 7 then [] else [ShCause.defaults])
    ++ (if rd64 s Reg.CPH_CLOK = 0 ∨ drbgOk s = false then [ShCause.cipher] else [])

/-- Steps 4 to 7: the rest of BOOT, and the release of core 0 in SURVEY. -/
def bootRest (identity : Bool) (s : State) : State :=
  let s := calBoot (bootDefaults (bootMicrocode s))
  let s := setBit (modSec s fun x => { x with idKey := identity }) Reg.SEC_STS 8 (!identity)
  let s := wrN (trigger 0 0 s) Reg.SEC_BOOTTIME ((s.clock - s.sys.bootClock) / 1000)
  let s := modSys (setBit s Reg.SEC_STS 0 true) fun y => { y with coresHeld := false }
  let s := setBit (enterMode Mode.survey s) Reg.IDN_STS 8 true
  (bootCauses s).foldl (fun s c => safeHold c s) s

/-- BOOT_END: both firmware slots failing ends BOOT at once; else step 6 has ended with the scan of the
nonce journal. -/
def bootEnd (identity : Bool) (s : State) : State :=
  if mode s ≠ Mode.boot ∨ s.sys.resetLow = true then s else
  match bootSlot s with
  | none => safeHold ShCause.noFw (setBit (bootLimits s) Reg.SEC_STS 4 true)
  | some (k, fallback) =>
    if bit s Reg.CPH_NJSTS 0 then s else bootRest identity (loadFirmware k fallback (bootLimits s))

def execBootEnd (identity : Bool) (s : State) : Host.Outcome State Fault Refusal := .next (bootEnd identity s)

/-! ## SURVEY (R426 to R429) -/

/-! ### Findings of IDN_STS -/
namespace Idn
abbrev ok : Nat := 0
abbrev absent : Nat := 1
abbrev invalid : Nat := 2
abbrev limit : Nat := 3
end Idn

/-- A field of an identity memory. -/
def idnField (b : List Nat) (o n : Nat) : Nat := leNat ((b.drop o).take n)

/-- LEN is in its range, and the CRC of the bytes before it is right. -/
def idnCrcOk (b : List Nat) (len most : Nat) : Bool :=
  decide (256 ≤ len ∧ len ≤ most) && len % 4 == 0 && decide (len + 4 ≤ b.length)
    && idnField b len 4 == crc32 (b.take len)

/-- A preamp's memory has the right header and CRC. -/
def preampValid (b : List Nat) : Bool :=
  idnField b 0 4 == 0x50494D31 && idnField b 4 2 == 1 && idnCrcOk b (idnField b 6 2) 8188

def preampType (b : List Nat) : Nat := idnField b 8 1
def preampHeads (b : List Nat) : Nat := idnField b 9 1
def preampApmax (b : List Nat) (h : Nat) : Nat := idnField b (0x10 + 16 * h) 2
def preampRf (b : List Nat) (h : Nat) : Nat := idnField b (0x12 + 16 * h) 2
def preampDbcap (b : List Nat) (h : Nat) : Nat := idnField b (0x14 + 16 * h) 4

/-- The HDA memory has the right header and CRC. -/
def hdaValid (b : List Nat) : Bool :=
  idnField b 0 4 == 0x48444931 && idnField b 4 2 == 1 && idnCrcOk b (idnField b 8 4) 16380

/-- Surfaces of actuator `a`. -/
def hdaSurfaces (b : List Nat) (a : Nat) : Nat := idnField b (0x0C + a) 1
def hdaWedges (b : List Nat) : Nat := idnField b 0x0E 2
def hdaRpm (b : List Nat) : Nat := idnField b 0x10 2
def hdaSpnlim (b : List Nat) : Nat := idnField b 0x12 2
def hdaVcmmax (b : List Nat) (a : Nat) : Nat := idnField b (0x18 + 4 * a) 4

/-- The HDA lies within the limits of R3 and R428. -/
def hdaInLimits (b : List Nat) : Bool :=
  let w := hdaWedges b
  let pos (x : Nat) : Bool := !fpNonFinite x && decide (0 < fpVal x)
  ((List.range 2).all fun a => decide (1 ≤ hdaSurfaces b a ∧ hdaSurfaces b a ≤ 12) && pos (hdaVcmmax b a))
    && decide (256 ≤ w ∧ w ≤ 1024) && w % 128 == 0 && decide (5400 ≤ hdaRpm b ∧ hdaRpm b ≤ 10000)
    && decide (4 ≤ idnField b 0x14 1 ∧ idnField b 0x14 1 ≤ 8)
    && decide (idnField b 0x20 8 ≤ 128000000000000) && decide (idnField b 0x2C 1 ≤ 48)
    && decide (hdaSpnlim b ≤ 10500)

/-- The finding on the HDA memory. -/
def hdaFinding : Option (List Nat) → Nat
  | none => Idn.absent
  | some b => if !hdaValid b then Idn.invalid else if hdaInLimits b then Idn.ok else Idn.limit

/-- A preamp's values lie within limits; its heads are those of the HDA's actuator, where that is known. -/
def preampInLimits (b : List Nat) (heads : Option Nat) : Bool :=
  (preampType b == 1 || preampType b == 2) && (heads.isNone || heads == some (preampHeads b))
    && (List.range (min 12 (preampHeads b))).all fun h =>
      preampApmax b h != 0 && preampRf b h != 0 && preampDbcap b h != 0

/-- The finding on a preamp's memory. -/
def preampFinding (heads : Option Nat) : Option (List Nat) → Nat
  | none => Idn.absent
  | some b => if !preampValid b then Idn.invalid else if preampInLimits b heads then Idn.ok else Idn.limit

/-- SRAM offset of the copies: IDN_IMBASE. -/
def idnBase (s : State) : Nat := rdN s Reg.IDN_IMBASE

/-- Copy what was read of a memory into SRAM, at most `most` bytes. -/
def idnCopy (o most : Nat) (b : Option (List Nat)) (s : State) : State :=
  sramPutBytes s (idnBase s + o) ((b.getD []).take most)

/-- The findings on preamp A, preamp B and the HDA. -/
def findings (pa pb hda : Option (List Nat)) : Nat × Nat × Nat :=
  let f := hdaFinding hda
  let n (a : Nat) : Option Nat := if f = Idn.ok then hda.map fun b => hdaSurfaces b a else none
  (preampFinding (n 0) pa, preampFinding (n 1) pb, f)

/-- IDN_STS and IDN_EVT report the findings. -/
def showFindings (f : Nat × Nat × Nat) (s : State) : State :=
  let s := wrN s Reg.IDN_STS (f.1 + 4 * f.2.1 + 16 * f.2.2)
  evtIf (f.2.2 != 0) Reg.IDN_EVT 3 (evtIf (f.2.1 != 0) Reg.IDN_EVT 2 (evtIf (f.1 != 0) Reg.IDN_EVT 1 s))

/-- Actuator `a` is enabled, or disabled with its lanes off (R69, R429). -/
def surveyActuator (a : Nat) (off : Bool) (s : State) : State :=
  let s := setBit s Reg.SYS_STS (3 + a) off
  if !off then s else
  let s := evt Reg.SYS_EVT 2 (setF s Reg.SYS_AHCAUSE (8 * a) 3 AhCause.disabled)
  (List.range 4).foldl (fun s k =>
    setBit (setBit s (Reg.LANE_CTL (4 * a + k)) 0 false) (Reg.LANE_CTL (4 * a + k + 8)) 0 false) s

/-- Lower the fp32 limit at `a` to `v`. -/
def lowerFloat (a v : Nat) (s : State) : State := if fpVal v < fpVal (rdN s a) then wrN s a v else s

/-- The limits of head `h` of actuator `a`: the global values on the first SURVEY, lowered to the
preamp's where it lists the head. -/
def lowerHead (locked : Bool) (a : Nat) (b : List Nat) (s : State) (h : Nat) : State :=
  let i := headIndex a h
  let s := if locked then s else
    wrN (wrN (wrN s (Reg.SLU_APMAX i) s.slu.headLimits.1) (Reg.SLU_DBCAP i) s.slu.headLimits.2.1)
      (Reg.SLU_DBRF i) s.slu.headLimits.2.2
  if preampHeads b ≤ h then s else
  let low (r v : Nat) (s : State) : State := wrN s r (min (rdN s r) v)
  low (Reg.SLU_DBRF i) (preampRf b h)
    (low (Reg.SLU_DBCAP i) (preampDbcap b h) (low (Reg.SLU_APMAX i) (preampApmax b h) s))

/-- The limits of an enabled actuator's heads, and LANE_ACFG (R86). -/
def surveyHeads (locked : Bool) (a : Nat) (b : List Nat) (s : State) : State :=
  let s := (List.range 12).foldl (lowerHead locked a b) s
  wrN s (Reg.LANE_ACFG a) (preampType b + 2 ^ 8 * preampHeads b)

/-- The Sluice's limits are lowered and locked (R409). -/
def lockLimits (pa pb : Option (List Nat)) (hda : List Nat) (s : State) : State :=
  let locked := sluLocked s
  let s := lowerFloat Reg.SLU_VCMMAX1 (hdaVcmmax hda 1) (lowerFloat Reg.SLU_VCMMAX0 (hdaVcmmax hda 0) s)
  let s := if locked then s else wrN s Reg.SLU_SPNMAX (min (rdN s Reg.SLU_SPNMAX) (hdaSpnlim hda))
  let s := if disabled s 0 then s else surveyHeads locked 0 (pa.getD []) s
  let s := if disabled s 1 then s else surveyHeads locked 1 (pb.getD []) s
  sluAll (setBit (lowerWorking s) Reg.SLU_LOCK 0 true)

/-- SURVEY ends without SAFE-HOLD. -/
def surveyOk (pa pb : Option (List Nat)) (hda : List Nat) (s : State) : State :=
  let s := lockLimits pa pb hda s
  let s := wrN s Reg.ZTB_SVO (idnField hda 0x28 4)
  let s := modSys s fun y => { y with wedges := hdaWedges hda, rpm := hdaRpm hda, resetRank := none }
  let s := evt Reg.SYS_EVT 4 (evt Reg.IDN_EVT 0 s)
  entryGoesOn (enterMode (if spnSync s then Mode.spinning else Mode.standby) s)

/-- SURVEY_END. An actuator that was disabled at the SURVEY after power-on is disabled again. -/
def surveyEnd (pa pb hda : Option (List Nat)) (s : State) : State :=
  if mode s ≠ Mode.survey ∨ s.sys.resetLow = true then s else
  let s := idnCopy 0x4000 65536 hda (idnCopy 0x2000 8192 pb (idnCopy 0 8192 pa s))
  let f := findings pa pb hda
  let s := showFindings f s
  let offA := f.1 != 0 || (sluLocked s && s.sys.offAtPowerA)
  let offB := f.2.1 != 0 || (sluLocked s && s.sys.offAtPowerB)
  let s := if sluLocked s then s else modSys s fun y => { y with offAtPowerA := offA, offAtPowerB := offB }
  let s := if f.2.2 = 0 then s else safeHold ShCause.hdaId s
  let s := setBit (surveyActuator 1 offB (surveyActuator 0 offA s)) Reg.SYS_STS 0 (offA || offB)
  if offA && offB then safeHold ShCause.noAct s
  else if f.2.2 ≠ 0 then s
  else surveyOk pa pb (hda.getD []) s

def execSurveyEnd (preampA preampB hda : Option (List Byte)) (s : State) : Host.Outcome State Fault Refusal :=
  let n (b : Option (List Byte)) : Option (List Nat) := b.map fun l => l.map BitVec.toNat
  .next (surveyEnd (n preampA) (n preampB) (n hda) s)

/-! ## Single accesses (R426) -/

/-! ### Results of IDN_ASTS -/
namespace IdnRes
abbrev ok : Nat := 0
abbrev noAck : Nat := 1
abbrev range : Nat := 2
abbrev mode : Nat := 3
end IdnRes

/-- An access ends with a result. -/
def idnEnds (r : Nat) (s : State) : State := evt Reg.IDN_EVT 4 (wrN s Reg.IDN_ASTS (2 * r))

/-- Words of a memory: 8 KiB of a preamp's, 64 KiB of the HDA's. -/
def idnWords (t : Nat) : Nat := if t = 2 then 16384 else 2048

/-- A REG payload (R522): a write of `v` to preamp register `r`, or a read of it. -/
def regPayload (write : Bool) (r v : Nat) : Nat := (if write then 2 ^ 17 else 0) + 2 ^ 10 * r + 4 * (v % 256)

/-- An access to word `w` of preamp `a`'s memory goes out as words of its control channel (R526): the
two bytes of the address, then the four of the data. -/
def preampAccess (a w : Nat) (write : Bool) (s : State) : State :=
  let data := (List.range 4).map fun k =>
    regPayload write 0x42 (if write then bitsOf (rdN s Reg.IDN_ADATA) (8 * k) 8 else 0)
  modImone s a fun x =>
    { x with access := x.access ++ [regPayload true 0x40 (4 * w), regPayload true 0x41 (4 * w / 256)] ++ data }

/-- A write of `v` to IDN_ACMD. -/
def idnCommand (v : Nat) (s : State) : State :=
  let t := bitsOf v 0 2
  let w := bitsOf v 2 16
  if !v.testBit 31 || bit s Reg.IDN_ASTS 0 || mode s == Mode.survey then s
  else if t = 3 ∨ idnWords t ≤ w then idnEnds IdnRes.range s
  else if v.testBit 30 ∧ mode s ≠ Mode.test then idnEnds IdnRes.mode s
  else
    let s := modSys (wrN s Reg.IDN_ASTS 1) fun y => { y with access := some ⟨t, w, v.testBit 30⟩ }
    if t = 2 then s else preampAccess t w (v.testBit 30) s

def execIdnAcmd (value : Word) (s : State) : Host.Outcome State Fault Refusal :=
  .next (busOk (idnCommand value.toNat s))

/-- ACDONE: the access ends; a read brings a word. -/
def idnDone (data : Option Nat) (s : State) : State :=
  match s.sys.access with
  | none => s
  | some x =>
    let s := modSys s fun y => { y with access := none }
    match data with
    | none => idnEnds IdnRes.noAck s
    | some d => idnEnds IdnRes.ok (if x.write then s else wrN s Reg.IDN_ADATA d)

def execAcdone (data : Option Word) (s : State) : Host.Outcome State Fault Refusal :=
  .next (idnDone (data.map BitVec.toNat) s)

end Sys2Proof.Machine
end

