-- ==== Sys2Proof/Machine/Resets.lean ====
section
/-! DEFINITION. Resets and power loss (R430 to R436): what each leaves, and how it runs. -/

namespace Sys2Proof.Machine

/-! ### Kinds of SYS_RSTCAUSE -/
namespace RstKind
abbrev powerOn : Nat := 0
abbrev pin : Nat := 1
abbrev full : Nat := 2
abbrev subsys : Nat := 3
abbrev nssr : Nat := 4
abbrev powerLoss : Nat := 5
abbrev watchdog : Nat := 6
end RstKind

/-! ### Ranks (R433) -/
namespace RstRank
abbrev powerOn : Nat := 0
abbrev pin : Nat := 1
abbrev full : Nat := 2
abbrev subsys : Nat := 3
end RstRank

/-! ## Registers across a reset -/

/-- A word of a locked limit or of SLU_LOCK, SLU_WGUARD. -/
def sluKept (a : Nat) : Bool :=
  [Reg.SLU_LOCK, Reg.SLU_WGUARD, Reg.SLU_PESHARD, Reg.SLU_SHKHARD, Reg.SLU_VCMMAX0, Reg.SLU_VCMMAX1,
    Reg.SLU_MAVMAX, Reg.SLU_SPNMAX, Reg.SLU_TXCAP0, Reg.SLU_TXCAP1, Reg.SLU_AMONMG].contains a
    || decide (0x100180 ≤ a ∧ a < 0x1002E0)

/-- A word that a reset other than power-on keeps: the Sluice's lock and limits, SEC_LOCK and what it
locks, the PTP time, the counts since power-on, and the duty levels. -/
def pinKept (s : State) (a : Nat) : Bool :=
  sluKept a || [Reg.SEC_LOCK, Reg.ETH_PTPTIME, Reg.ETH_PTPTIME + 4, Reg.SYS_RSTCNT, Reg.SYS_PWRON,
      Reg.CAL_COUNT, Reg.CAL_RES].contains a
    || decide (Reg.LANE_DBLVL 0 0 ≤ a ∧ a < Reg.LANE_DBLVL 0 12)
    || decide (Reg.LANE_DBLVL 1 0 ≤ a ∧ a < Reg.LANE_DBLVL 1 12)
    || ((bit s Reg.SEC_LOCK 0 || bit s Reg.SLU_LOCK 0) && ((regRow a).map RegRow.acc == some .rwl))

/-- The bits of the word at `a` that a pin or FULL reset keeps; peaks stay. -/
def pinMask (s : State) (a : Nat) : Nat :=
  if pinKept s a then 0xFFFFFFFF
  else if a = Reg.NQE_INFL then 0x7FFF0000
  else if a = Reg.NQE_HZUSE then 0x07FF0000
  else if 0x40108 ≤ a ∧ a < 0x40508 ∧ a % 0x20 = 8 then 0x7FFF0000
  else 0

/-- The bits of the word at `a` that a SUBSYS reset keeps: those of a pin reset, the zone engine but
for ZTB_PTCTL, the spindle drive, the Sluice, the ports, the gauges and the power state. -/
def subMask (s : State) (a : Nat) : Nat :=
  if a = Reg.ZTB_PTCTL then 0
  else if decide (0x180000 ≤ a ∧ a < 0x190000) || decide (0xE0000 ≤ a ∧ a < 0x110000)
      || decide (0x40000 ≤ a ∧ a < 0x70000) || decide (0x130080 ≤ a ∧ a < 0x1300C0)
      || a == Reg.NQE_PSCUR || a == Reg.SYS_MODE then 0xFFFFFFFF
  else pinMask s a

/-- The registers after a reset that keeps the bits of `mask`. -/
def regsAfter (mask : Nat → Nat) (s : State) : List (Nat × Word) :=
  s.regs.filterMap fun e =>
    let v := BitVec.ofNat 32 (maskIn (regReset e.1).toNat e.2.toNat (mask e.1))
    if v = regReset e.1 then none else some (e.1, v)

/-! ## What every reset leaves -/

/-- An OTP operation that a reset cuts short has programmed some of its bits (R434). -/
def otpCut (s : State) : State :=
  match s.sec.otp with
  | none => s
  | some op => modSec (otpPart op s) fun x => { x with otp := none }

/-- What no reset changes of the SEC block: the OTP and chain slot 1. -/
def secKept (s : State) : SecState :=
  { SecState.reset with
    keyHash := s.sec.keyHash, revoke := s.sec.revoke, arb := s.sec.arb, chainWritten := s.sec.chainWritten }

/-- What no reset changes of the subsystem: completions and data already sent, a Sanitize and its journalled
progress (R261), and the objects that no register holds. -/
def nqeKept (s : State) : NqeState :=
  { NqeState.reset with
    posted := s.nqe.posted, mediaClock := s.nqe.mediaClock, sent := s.nqe.sent, sanitize := s.nqe.sanitize, sanFailed := s.nqe.sanFailed
    sanAuse := s.nqe.sanAuse, authReq := s.nqe.authReq }

/-- What no reset changes of the Noile engine: messages already sent and the objects that no register
holds. -/
def noiKept (s : State) : NoiState :=
  { NoiState.reset with
    sent := s.noi.sent, domains := s.noi.domains, values := s.noi.values, nextReq := s.noi.nextReq }

/-- What no reset changes of the copies: the plan's journalled states (R503). A running stream pauses
(R506). -/
def arcKept (s : State) : ArcState :=
  { ArcState.reset with
    states := s.arc.states
    mode := if s.arc.mode = .running then .suspended else s.arc.mode
    entries := s.arc.entries.map fun x => { x with reader := CopyReader.fresh, held := [], flying := [], flush := false }
    bytes := s.arc.bytes
    sent := s.arc.sent }

/-- What only a power-on reset changes of the recorder: a copy of the mirror that has stopped (R486). -/
def evrKept (s : State) : EvrState :=
  { EvrState.reset with mirStopA := s.evr.mirStopA, mirStopB := s.evr.mirStopB }

/-- SYS_RSTCAUSE and SYS_RSTCNT report a reset. -/
def showReset (kind : Nat) (s : State) : State := satInc (wrN s Reg.SYS_RSTCAUSE kind) Reg.SYS_RSTCNT 32

/-- NQE_STS shows a Sanitize that goes on after the reset (R261). -/
def showSanitize (s : State) : State := setBit s Reg.NQE_STS 6 s.nqe.sanitize.isSome

/-- The node ID and UDP port in effect are those of objects 0x1020:02 and 0x1020:01. -/
def showNode (s : State) : State :=
  wrN (wrN s Reg.NOI_NODE (leNat (objectValue s (0x1020, 2) []))) Reg.NOI_PORT
    (leNat (objectValue s (0x1020, 1) (leBytes 2 49321)))

/-- SKFAIL events are counted since power-on (object 0x3003). -/
def srvKept (s : State) : List Srv := s.srv.map fun v => { Srv.reset with skfails := v.skfails }

/-- FILL starts, or starts again. -/
def startFill (s : State) : State := modEcc s fun e => { e with fillStart := s.clock }

/-! ## Power-on reset (R533) -/

/-- POWER_ON_RESET: everything but the NAND, the OTP and what no register holds starts afresh. -/
def powerOn (s : State) : State :=
  let s := otpCut s
  let t : State := { State.reset with
    pending := s.pending, draws := s.draws, nand := s.nand, sec := secKept s
    nqe := nqeKept s, noi := noiKept s, arc := arcKept s
    net := { NetState.reset with sent := s.net.sent }
    slu := { SluState.reset with fltLowA := s.slu.fltLowA, fltLowB := s.slu.fltLowB, fltClock := s.slu.fltClock }
    sys := { SysState.reset with resetLow := s.sys.resetLow } }
  wrN (showNode (showSanitize t)) Reg.SYS_RSTCAUSE (if s.sys.powerLost then RstKind.powerLoss else RstKind.powerOn)

def execPowerOnReset (s : State) : Host.Outcome State Fault Refusal := .next (powerOn s)

/-! ## Pin reset (R431, R532) -/

/-- The spindle after a pin or FULL reset: it coasts unless it stood still. -/
def coastFrom (old s : State) : State :=
  if spnPhase old = SpnPhase.stopped then s
  else coast (modSpn s fun p => { p with est := old.spn.est })

/-- The state that a pin or FULL reset leaves, in FILL. SLU_WGUARD keeps its value (R410) and ZTB_WPSTS does
not (R431); R118 does not say which mode is then in effect: DESIGN CHOICE (log entry 73), mode 2 of ZTB_WPSTS
with PEND = 0, until SLU_WGUARD is written again. -/
def pinState (kind rank : Nat) (s : State) : State :=
  let s := otpCut s
  let t : State := { State.reset with
    pending := s.pending, draws := s.draws, clock := s.clock, ptpFrac := s.ptpFrac
    regs := regsAfter (pinMask s) s, srv := srvKept s, nand := s.nand, dbLevel := s.dbLevel, dbStop := s.dbStop
    sec := secKept s, slu := s.slu, nqe := nqeKept s, noi := noiKept s, arc := arcKept s, tap := s.tap
    evr := evrKept s
    thm := { ThmState.reset with interval := s.thm.interval }
    net := { NetState.reset with sent := s.net.sent }
    sys := { SysState.reset with
      offAtPowerA := s.sys.offAtPowerA, offAtPowerB := s.sys.offAtPowerB, everReady := s.sys.everReady
      powerOnClock := s.sys.powerOnClock, resetRank := some rank } }
  let t := lowerWorking (wrN (showNode (showSanitize t)) Reg.SYS_MODE (2 ^ 8 * mode s))
  let t := wr64 (setF t Reg.SYS_STS 3 2 (getF s Reg.SYS_STS 3 2)) Reg.SYS_MTIME (ptp s)
  startFill (sluAll (trigger 2 0 (evt Reg.SYS_EVT 0 (showReset kind (coastFrom s t)))))

/-- Restart FILL (R345). -/
def restartFill (s : State) : State := startFill (setBit s Reg.SYS_RSTCAUSE 8 true)

/-- A reset of a rank does not outrank the one that runs. -/
def outranked (s : State) (rank : Nat) : Bool :=
  match s.sys.resetRank with
  | some r => decide (r ≤ rank)
  | none => false

/-- A reset that is outranked restarts FILL or BOOT, and is ignored otherwise; else `f` runs (R433). -/
def ranked (rank : Nat) (f : State → State) (s : State) : State :=
  if outranked s rank then
    if mode s = Mode.fill then restartFill s
    else if mode s = Mode.boot then enterBoot s
    else s
  else f s

/-- The emergency retract of every loaded actuator (R435). -/
def emergencyRetract (s : State) : State := startRetract 1 .emergency (startRetract 0 .emergency s)

/-- The spindle bridge is tri-stated. -/
def bridgeOff (s : State) : State := if spnPhase s = SpnPhase.stopped then s else coast s

/-- RESET_N_LOW: the safe state of R534 holds until RESET_N rises. A SURVEY is given up. -/
def resetFalls (s : State) : State :=
  if s.sys.resetLow then s else
  let s := modSys s fun y =>
    { y with
      resetLow := true, coresHeld := true
      resetRank := if mode s = Mode.survey then none else y.resetRank }
  let s := killAll 1 (killAll 0 s)
  sluAll (bridgeOff (emergencyRetract s))

def execResetNLow (s : State) : Host.Outcome State Fault Refusal := .next (resetFalls s)

/-- PIN_RESET: RESET_N rises, and the reset runs. After a power loss only a power-on reset follows
(R436). -/
def pinReset (s : State) : State :=
  if !s.sys.resetLow then s else
  let s := tapRelease (modSys s fun y => { y with resetLow := false })
  if s.sys.powerLost then s
  else ranked RstRank.pin (fun s => trigger 5 0 (pinState RstKind.pin RstRank.pin s)) s

def execPinReset (s : State) : Host.Outcome State Fault Refusal := .next (pinReset s)

/-! ## FULL and SUBSYS resets (R432) -/

/-- A running operation ends at its last commit point, PREEMPTED. -/
def stopOp (q x : Nat) (s : State) : State :=
  let c := ctxAt s q x
  if !c.busy then s else
  let s := c.journal.foldl (fun s j => restoreItem q x j s) s
  finishOp q x 1 false (endSlot q x (modCtx s q x fun c => { c with ptaken := true }))

/-- Every track operation ends, and queued descriptors are dropped. -/
def stopOps (s : State) : State :=
  (List.range 10).foldl (fun s i =>
    modCtx (stopOp (i / 5) (i % 5) s) (i / 5) (i % 5) fun c => { c with queue := [] }) s

/-- Steps 2 to 4: every association ends, every operation ends, the staged records are committed, and
every actuator is unloaded. -/
def drainForReset (kind pos : Nat) (s : State) : State :=
  let s := modSys s fun y => { y with target := none, step := none, next := none, loading := false }
  let s := stopOps (closeAll s)
  let s := flushRecords (trigger 5 pos (wrN s Reg.SYS_RSTCAUSE kind))
  headsUnloaded (unloadAll s)

/-- A module reset can start. -/
def mayReset (s : State) : Bool := !s.sys.resetLow && !s.sys.powerLost

/-- FULL_RESET. -/
def fullReset (s : State) : State :=
  if !mayReset s then s
  else ranked RstRank.full (fun s => pinState RstKind.full RstRank.full (drainForReset RstKind.full 1 s)) s

def execFullReset (s : State) : Host.Outcome State Fault Refusal := .next (fullReset s)

/-- A zone whose retention is discarded: unsealed sectors set TAILU (R128). -/
def dropRetention (w : ZoneWork) (s : State) : State :=
  let s := if w.tail.isEmpty then s else setTailu w.zone true s
  modWork w.zone (fun w =>
    { w with
      assignEnd := zRptr s w.zone, queue := [], tail := [], attempts := [], rolled := false, repair := false
      inhibits := 0 }) s

/-- The zone engine across a SUBSYS reset. -/
def ztbAfter (s : State) : State :=
  let s := s.ztb.zones.foldl (fun s w => dropRetention w s) s
  let s := if s.ztb.recovery.isSome then setBit s Reg.ZTB_RCSTS 0 false else s
  let s := if s.arc.rewrap.isSome then rwEnds s else s
  modZtb s fun t =>
    { t with
      zones := t.zones.filter fun w => w.waitOpen
      recovery := none, mapping := none, conv := [], convInhibits := [], differs := [] }

/-- The state that a SUBSYS reset leaves before it enters BOOT. -/
def subsysState (s : State) : State :=
  let s := otpCut (ztbAfter s)
  let t : State := { s with
    regs := regsAfter (subMask s) s, busError := false, evr := { evrKept s with gauges := s.evr.gauges }
    ang := AngState.reset, slots := State.reset.slots, lanes := State.reset.lanes, tsq := State.reset.tsq
    microcode := [], ucLoad := none
    nqe := { nqeKept s with psEntry := s.nqe.psEntry, psWant := s.nqe.psWant }, srv := srvKept s, rates := State.reset.rates
    sec := secKept s, noi := noiKept s, thm := { ThmState.reset with interval := s.thm.interval }, cal := CalState.reset, arc := arcKept s
    imone := State.reset.imone, cis := CisState.reset
    sys := { SysState.reset with
      offAtPowerA := s.sys.offAtPowerA, offAtPowerB := s.sys.offAtPowerB, everReady := s.sys.everReady
      powerOnClock := s.sys.powerOnClock, wedges := s.sys.wedges, rpm := s.sys.rpm
      resetRank := some RstRank.subsys } }
  let t := setBit (setF t Reg.SYS_STS 3 2 (getF s Reg.SYS_STS 3 2)) Reg.SYS_STS 0 (bit s Reg.SYS_STS 0)
  let t := setF (wrN t Reg.ECC_STS 1) Reg.ECC_STS 4 4 (getF s Reg.ECC_STS 4 4)
  showScrub (showNode (showSanitize (clearLattice (invalidateCaches (clearPool t)))))

/-- SUBSYS_RESET, and NSSR as kind `kind` (R250). -/
def subsysReset (kind : Nat) (s : State) : State :=
  if !mayReset s then s
  else ranked RstRank.subsys (fun s =>
    enterBoot (sluAll (lowerWorking (showReset kind (subsysState (drainForReset kind 2 s)))))) s

def execSubsysReset (s : State) : Host.Outcome State Fault Refusal :=
  .next (subsysReset RstKind.subsys s)

/-! ## Core watchdog reset (R363) -/

/-- The watchdog of core `c` has expired. -/
def wdExpired (s : State) (c : Nat) : Bool :=
  bit s Reg.CCH_WDCTL c && !s.sys.coresHeld
    && decide (s.cch.kicks.getD c 0 + 1000000 * getF s Reg.CCH_WDCTL 16 16 ≤ s.clock)

/-- WATCHDOG_RESET: the core, or all six, restart. -/
def watchdogReset (c : Nat) (s : State) : State :=
  if !wdExpired s c then s else
  let all := bit s Reg.CCH_WDCTL 8
  let s := wrN s Reg.CCH_WDSTS (if all then 0x3F + 2 ^ 8 else 2 ^ c)
  let s := satInc (satInc s Reg.CCH_WDCNT 32) Reg.SYS_RSTCNT 32
  let s := modCch s fun h =>
    { h with kicks := if all then h.kicks.map fun _ => s.clock else modAt h.kicks c fun _ => s.clock }
  evt Reg.CCH_EVT 4 (wrN s Reg.SYS_RSTCAUSE RstKind.watchdog)

def execWatchdogReset (core : Fin 6) (s : State) : Host.Outcome State Fault Refusal :=
  .next (watchdogReset core s)

/-! ## Power loss (R435) -/

/-- The power-loss record goes to the next free log position, ahead of the staged records, which are
lost (R482). -/
def lossRecord (s : State) : State :=
  let s := endCommit [] s
  let s := modEvr s fun e => { e with waiting := [], stgCount := 0 }
  flushRecords (trigger 6 0 s)

/-- POWER_LOSS. -/
def powerLoss (s : State) : State :=
  if s.sys.powerLost ∨ (s.slu.v12Bad || s.slu.v5Bad) = false then s else
  let s := calAbort s
  let s := lossRecord (killAll 1 (killAll 0 s))
  let s := bridgeOff (emergencyRetract s)
  let s := modImone (modImone s 0 fun x => { x with supplyOff := true }) 1 fun x => { x with supplyOff := true }
  sluAll (modSys s fun y => { y with powerLost := true })

def execPowerLoss (s : State) : Host.Outcome State Fault Refusal := .next (powerLoss s)

end Sys2Proof.Machine
end

