-- ==== Sys2Proof/Machine/Fetch.lean ====
section
/-! DEFINITION. The fetch of a host command (R226 to R231): its submission entry, the checks that it fails
at once, and where it goes (R242). -/

namespace Sys2Proof.Machine

/-! ## Submission entries -/

/-- `n` bytes of a submission entry from byte `o` on. -/
def sqe (e o n : Nat) : Nat := bitsOf e (8 * o) (8 * n)

/-! ### Admin and Fabrics opcodes -/
namespace AdminOp
abbrev deleteSq : Nat := 0x00
abbrev getLog : Nat := 0x02
abbrev identify : Nat := 0x06
abbrev abort : Nat := 0x08
abbrev setFeatures : Nat := 0x09
abbrev getFeatures : Nat := 0x0A
abbrev asyncEvent : Nat := 0x0C
abbrev commit : Nat := 0x10
abbrev download : Nat := 0x11
abbrev keepAlive : Nat := 0x18
abbrev fabrics : Nat := 0x7F
abbrev sanitize : Nat := 0x84
end AdminOp

/-! ### Fabrics command types -/
namespace FcType
abbrev propertySet : Nat := 0x00
abbrev propertyGet : Nat := 0x04
abbrev authSend : Nat := 0x05
abbrev authReceive : Nat := 0x06
abbrev disconnect : Nat := 0x08
end FcType

/-- The opcode moves or names LBAs of a namespace. -/
def ioHasLbas (op : Nat) : Bool :=
  op == IoOp.read || op == IoOp.write || op == IoOp.compare || op == IoOp.writeZeroes || op == IoOp.verify
    || op == IoOp.zoneAppend

/-- The command carries host data. -/
def ioHasData (op : Nat) : Bool :=
  op == IoOp.read || op == IoOp.write || op == IoOp.compare || op == IoOp.zoneAppend

/-- The opcode belongs to the Zoned Namespace command set alone. -/
def ioZoned (op : Nat) : Bool := op == IoOp.zoneSend || op == IoOp.zoneReceive || op == IoOp.zoneAppend

/-- A write of association `a` that a Flush of namespace `ns` waits for. -/
def flushCovers (a ns : Nat) (c : HostCmd) : Bool :=
  c.writes && c.assoc == a && (ns == 0xFFFFFFFF || c.nsid == ns)

/-- The command that a submission entry spells. The LBA of a Zone Append names its zone alone (R240). -/
def entryCmd (s : State) (slot a q e : Nat) : HostCmd :=
  let op := sqe e 0 1
  let io := decide (q ≠ 0) && op != AdminOp.fabrics
  let ns := sqe e 4 4
  { slot := slot, assoc := a, sqid := q, cid := sqe e 2 2, opcode := op, nsid := ns
    slba := if io && op == IoOp.zoneAppend then sqe e 40 8 / zcap s * zcap s else if io then sqe e 40 8 else 0
    nlb := if io && ioHasLbas op then sqe e 48 2 + 1 else 0
    seq := s.nqe.nextSeq, fetched := s.clock, phase := .fetched
    left := if io && op == IoOp.flush then (s.nqe.cmds.filter (flushCovers a ns)).map HostCmd.slot else []
    bufs := []
    arg := if op = AdminOp.fabrics then sqe e 4 1 else if io then sqe e 52 4 else sqe e 40 4
    arg2 := if op = AdminOp.fabrics then sqe e 44 12 else if io && op == IoOp.zoneReceive then sqe e 48 4
      else sqe e 44 4
    dw0 := 0, dw1 := 0, excAt := none, badLba := none }

/-! ## The checks of a fetched command (R223, R225, R235, R236, R242, R261, R262) -/

/-- A Fabrics command. -/
def HostCmd.fabrics (c : HostCmd) : Bool := c.opcode == AdminOp.fabrics

/-- An I/O command of a namespace. -/
def HostCmd.nvm (c : HostCmd) : Bool := c.io && !c.fabrics

/-- The I/O opcodes of R236. -/
def ioOpcodes : List Nat :=
  [IoOp.flush, IoOp.write, IoOp.read, IoOp.compare, IoOp.writeZeroes, IoOp.verify, IoOp.zoneSend,
    IoOp.zoneReceive, IoOp.zoneAppend]

/-- The admin opcodes of R236. -/
def adminOpcodes : List Nat :=
  [AdminOp.deleteSq, AdminOp.getLog, AdminOp.identify, AdminOp.abort, AdminOp.setFeatures,
    AdminOp.getFeatures, AdminOp.asyncEvent, AdminOp.commit, AdminOp.download, AdminOp.keepAlive,
    AdminOp.sanitize]

/-- The opcode is one of R236. -/
def opcodeKnown (c : HostCmd) : Bool :=
  if c.fabrics then
    [FcType.propertySet, FcType.propertyGet, FcType.authSend, FcType.authReceive, FcType.disconnect].contains c.arg
  else if c.io then ioOpcodes.contains c.opcode && !(c.nsid == 1 && ioZoned c.opcode)
  else adminOpcodes.contains c.opcode

/-- The namespace of an I/O command exists; only a Flush covers both. -/
def nsidOk (c : HostCmd) : Bool :=
  !c.nvm || c.nsid == 1 || c.nsid == 2 || (c.opcode == IoOp.flush && c.nsid == 0xFFFFFFFF)

/-- The command is served while Sanitize runs (R261). -/
def sanitizeAllows (c : HostCmd) : Bool :=
  c.fabrics || (!c.io && ([AdminOp.identify, AdminOp.abort, AdminOp.asyncEvent, AdminOp.keepAlive,
      AdminOp.getFeatures].contains c.opcode
    || (c.opcode == AdminOp.getLog && [1, 2, 0x81].contains (c.arg % 256))))

/-- The action of a Zone Management Send: 1 Close, 2 Finish, 3 Open, 4 Reset. -/
def HostCmd.action (c : HostCmd) : Nat := c.arg % 256

/-- Select All of a Zone Management Send. -/
def HostCmd.selectAll (c : HostCmd) : Bool := c.arg.testBit 8

/-- The bytes that a command transfers, by the length fields of its entry `e` in NVMe. -/
def transferLength (c : HostCmd) (e : Nat) : Nat :=
  if c.fabrics then (if c.arg = FcType.authSend ∨ c.arg = FcType.authReceive then sqe e 44 4 else 0)
  else if c.io then
    if ioHasData c.opcode then 4096 * c.nlb
    else if c.opcode = IoOp.zoneReceive then 4 * (sqe e 48 4 + 1)
    else 0
  else if c.opcode = AdminOp.getLog then 4 * (sqe e 42 2 + 2 ^ 16 * sqe e 44 2 + 1)
  else if c.opcode = AdminOp.download then 4 * (sqe e 40 4 + 1)
  else if c.opcode = AdminOp.identify then 4096
  else 0

/-- The fields that R223 and R238 check: at most 2 MiB, and a supported action. -/
def fieldsOk (c : HostCmd) (e : Nat) : Bool :=
  decide (transferLength c e ≤ 2097152)
    && !(c.nvm && c.opcode == IoOp.zoneSend && !decide (1 ≤ c.action ∧ c.action ≤ 4))

/-- The type of the data descriptor in an entry. -/
def descriptorType (e : Nat) : Nat := sqe e 39 1 / 16

/-- Descriptors of the entry's Last Segment, at most 16 (R223). -/
def descriptorsOk (c : HostCmd) (e : Nat) : Bool :=
  transferLength c e == 0 || descriptorType e != 3 || decide (sqe e 32 4 / 16 ≤ 16)

/-- The descriptor types of a transport (R222): Keyed Data Block and Last Segment, or Transport Data Block; and,
on both, in-capsule data of at most 4,096 bytes. -/
def descriptorKnown (t : Transport) (c : HostCmd) (e : Nat) : Bool :=
  let n := descriptorType e
  transferLength c e == 0 || (n == 0 && decide (transferLength c e ≤ 4096)) || match t with
    | .rdma => n == 4 || n == 3
    | .tcp => n == 5

/-- The connection that serves queue `q` of an association. -/
def Assoc.conn (x : Assoc) (q : Nat) : Option Conn := x.conns.find? fun k => k.queue == q

/-- The transport of the command's queue serves its data descriptor. -/
def transportOk (x : Assoc) (c : HostCmd) (e : Nat) : Bool :=
  ((x.conn c.sqid).map fun k => descriptorKnown k.path.transport c e).getD true

/-- SGL Descriptor Type Invalid: the NVMe status of a descriptor of another type. PRESUMED (log entry 22). -/
abbrev sglType : Nat := 0x011

/-- Sectors of namespace `ns` (R232). -/
def nsSize (s : State) (ns : Nat) : Nat :=
  if ns = 1 then rd64 s Reg.ZTB_CONVCAP else numZones s * zcap s

/-- The LBAs lie in the namespace; a write of NSID 2 starts in it, and R240 checks where it ends. -/
def rangeIn (s : State) (c : HostCmd) : Bool :=
  if !c.nvm || c.opcode == IoOp.flush then true
  else if c.opcode = IoOp.zoneSend then c.selectAll || decide (c.slba < nsSize s 2)
  else if c.nsid = 2 ∧ c.writes = true then decide (c.slba < nsSize s 2)
  else decide (c.slba + max 1 c.nlb ≤ nsSize s c.nsid)

/-- The status of a command that R235 or R439 ends without media access: its sectors lie on a disabled or a
held actuator, or in an Offline zone. -/
def placeStatus (s : State) (c : HostCmd) : Option Nat :=
  if !c.nvm || !ioHasLbas c.opcode then none
  else if (List.range 2).any fun a => (held s a || (c.nsid == 1 && disabled s a)) && cmdNeeds s c a then
    some (heldStatus c)
  else if (cmdZones s c).any fun z => zState s z == zOffline then some Status.zoneOffline
  else none

/-- Commands of the same controller with the opcode. -/
def outstanding (s : State) (c : HostCmd) (op : Nat) : Nat :=
  (s.nqe.cmds.filter fun d => !d.io && d.assoc == c.assoc && d.opcode == op && d.slot != c.slot).length

/-- AERL exceeded: the NVMe status of a ninth Asynchronous Event Request. PRESUMED (log entry 22). -/
abbrev asyncLimit : Nat := 0x105

/-- The status with which a fetched command completes at once. -/
def fetchStatus (s : State) (x : Assoc) (c : HostCmd) (e : Nat) : Option Nat :=
  if s.nqe.authReq && !x.authed && !(c.fabrics && (c.arg == FcType.authSend || c.arg == FcType.authReceive)) then
    some Status.authRequired
  else if !opcodeKnown c then some Status.invalidOpcode
  else if !nsidOk c then some Status.invalidNamespace
  else if s.nqe.sanitize.isSome && !sanitizeAllows c then some Status.sanitizing
  else if s.nqe.sanFailed && c.media then some Status.sanitizeFailed
  else if !fieldsOk c e then some Status.invalidField
  else if !descriptorsOk c e then some Status.sglCount
  else if !transportOk x c e then some sglType
  else if !rangeIn s c then some Status.lbaRange
  else if c.opcode == AdminOp.abort && !c.io && decide (4 ≤ outstanding s c AdminOp.abort) then
    some Status.abortLimit
  else if c.opcode == AdminOp.asyncEvent && !c.io && decide (8 ≤ outstanding s c AdminOp.asyncEvent) then
    some asyncLimit
  else placeStatus s c

/-! ## Fetch -/

/-- A Delete I/O Submission Queue of the queue is in flight. -/
def deleting (s : State) (a q : Nat) : Bool :=
  s.nqe.cmds.any fun c => !c.io && c.assoc == a && c.opcode == AdminOp.deleteSq && c.phase == .firmware
    && c.arg % 65536 == q

/-- The cores serve host commands: they run, and the queue engine is enabled and does not hold fetching. -/
def hostServed (s : State) : Bool :=
  bit s Reg.NQE_CTL 0 && !bit s Reg.NQE_FWACT 0 && !s.sys.coresHeld && !s.sys.powerLost
    && mode s != Mode.fill && mode s != Mode.boot && mode s != Mode.update

/-- I/O commands are fetched in this mode (R420). -/
def ioServed (s : State) : Bool := mode s != Mode.test && mode s != Mode.safeHold

/-! ### Round robin (R229, R231, R336) -/

/-- The I/O submission queues, in the order of the round robin: by association, then in the order of their
Connects. -/
def ioQueues (s : State) : List (Nat × Nat) :=
  s.nqe.assocs.flatMap fun x => x.queues.map fun q => (x.id, q)

/-- Commands of an I/O queue in one turn: 2^AB, or one while W2 is in effect. -/
def turnLength (s : State) : Nat := if wInEffect s 1 then 1 else 2 ^ getF s Reg.NQE_ARB 0 3

/-- The queues from the one after `q` on, `q` the last. -/
def turnOrder (s : State) (q : Nat × Nat) : List (Nat × Nat) :=
  let l := ioQueues s
  let k := l.idxOf q + 1
  l.drop k ++ l.take k

/-- The first queue of a list that has a command to fetch: `q`, or one of `others`. -/
def nextTurn (others : List (Nat × Nat)) (q : Nat × Nat) (l : List (Nat × Nat)) : Option (Nat × Nat) :=
  l.find? fun x => x == q || others.contains x

/-- The round robin is at I/O queue `q`, in its turn or with a new one: a turn ends when the queue has no
command to fetch, or has had its commands. -/
def atTurn (s : State) (others : List (Nat × Nat)) (q : Nat × Nat) : Bool :=
  match s.nqe.turn with
  | some (b, p, n) =>
    if (b, p) = q ∧ n < turnLength s then true
    else (!others.contains (b, p) || decide (turnLength s ≤ n)) && nextTurn others q (turnOrder s (b, p)) == some q
  | none => nextTurn others q (ioQueues s) == some q

/-- The queue of a command is served now: admin queues come before I/O queues. -/
def inTurn (s : State) (others : List (Nat × Nat)) (c : HostCmd) : Bool :=
  c.sqid == 0 || (!(others.any fun q => q.2 == 0) && atTurn s others (c.assoc, c.sqid))

/-- The turn of the queue of a fetched I/O command goes on. -/
def takeTurn (c : HostCmd) (s : State) : State :=
  if c.sqid = 0 then s else
  let n := match s.nqe.turn with
    | some (b, p, n) => if (b, p) = (c.assoc, c.sqid) ∧ n < turnLength s then n + 1 else 1
    | none => 1
  modNqe s fun q => { q with turn := some (c.assoc, c.sqid, n) }

/-- The head of the queue may be fetched (R231, R244, R336). -/
def mayFetch (s : State) (x : Assoc) (c : HostCmd) : Bool :=
  hostServed s && (c.sqid == 0 || (x.queues.contains c.sqid && ioServed s && !deleting s x.id c.sqid))
    && (cmdAt s c.slot).isNone && decide (s.nqe.cmds.length < 16384)
    && !(c.hazard && decide (1024 ≤ (s.nqe.cmds.filter HostCmd.hazard).length))
    && !(c.writes && wInEffect s 2)

/-- A fetched media command preempts a SCAN, and a write the TAIL_VERIFY of its zone (R109, R494). -/
def preemptFor (c : HostCmd) (s : State) : State :=
  if !c.media then s else
  (List.range 10).foldl (fun s i =>
    let q := i / 5
    let x := i % 5
    let tail := c.writes && c.nsid == 2 && descOp s q x == 4 && dZone s q x == zoneOfLba s c.slba
    if descOp s q x == 6 || tail then requestP q x s else s) s

/-- Store a submission entry in its slot of the command slot table. -/
def putEntry (slot e : Nat) (s : State) : State :=
  (List.range 8).foldl (fun s i => sramPut64 s (rdN s Reg.NQE_CSBASE + 128 * slot + 8 * i) (sqe e (8 * i) 8)) s

/-- The 256 bytes of queue context `i` in SRAM (R228), whose content the specification does not give: free
values, new ones whenever the context is written. -/
def putContext (i : Nat) (s : State) : State :=
  (List.range 32).foldl (fun s j =>
    let (v, s) := drawFree 64 s
    sramPut64 s (rdN s Reg.NQE_QCBASE + 256 * i + 8 * j) v) s

/-- A fetch changes the context of its I/O queue. -/
def touchContext (x : Assoc) (c : HostCmd) (s : State) : State :=
  match (x.conn c.sqid).bind Conn.ctx with
  | some i => putContext i s
  | none => s

/-- The zone engine notes the fetch of a write of its zone (R107). -/
def noteWrite (c : HostCmd) (s : State) : State :=
  if c.nvm && c.writes && c.nsid == 2 then
    modWork (zoneOfLba s c.slba) (fun w => { w with fetchedAt := s.clock }) s
  else s

/-- A command that has passed its checks goes to firmware, or stays with the queue engine. -/
def routeCmd (c : HostCmd) (s : State) : State :=
  let s := noteWrite c s
  let s := if !c.nvm then toFirmware c.slot 1 s
    else if bit s Reg.NQE_CTL 1 then s
    else toFirmware c.slot 2 s
  wakeForMedia (settleActive (preemptFor c s))

/-- COMMAND_FETCH: the head of queue `q` of association `a` is entry `e`. -/
def fetchCmd (a q slot e : Nat) (others : List (Nat × Nat)) (s : State) : State :=
  match assocAt s a with
  | none => s
  | some x =>
    let c := entryCmd s slot a q e
    if !(mayFetch s x c && inTurn s others c) then s else
    let s := touchContext x c (takeTurn c s)
    let s := putEntry slot e (modNqe s fun n =>
      { n with
        cmds := n.cmds ++ [c], nextSeq := n.nextSeq + 1
        mediaClock := if c.media then some s.clock else n.mediaClock })
    let s := countCmds s
    match fetchStatus s x c e with
    | some st => complete slot st false s
    | none => routeCmd c s

def execCommandFetch (assoc sqid : BitVec 16) (slot : Fin 16384) (entry : BitVec 512)
    (others : List (BitVec 16 × BitVec 16)) (s : State) : Host.Outcome State Fault Refusal :=
  .next (fetchCmd assoc.toNat sqid.toNat slot entry.toNat (others.map fun q => (q.1.toNat, q.2.toNat)) s)

end Sys2Proof.Machine
end

