-- ==== Sys2Proof/Machine/Admin.lean ====
section
/-! DEFINITION. Fabrics and admin commands (R225 to R230, R236, R246 to R251): connections, properties,
features, Abort, queue deletion and controller resets. -/

namespace Sys2Proof.Machine

/-! ## Commands that firmware serves -/

/-- `f` serves the command in slot `k`, if firmware holds it and it is of opcode `op`. -/
def served (op k : Nat) (f : HostCmd → State → State) (s : State) : State :=
  match cmdAt s k with
  | some c => if c.phase = .firmware ∧ c.opcode = op then f c s else s
  | none => s

/-- `f` serves the Fabrics command of type `t` in slot `k`. -/
def servedFabrics (t k : Nat) (f : HostCmd → State → State) (s : State) : State :=
  served AdminOp.fabrics k (fun c s => if c.arg = t then f c s else s) s

/-- `f` serves the admin command of opcode `op` in slot `k`. -/
def servedAdmin (op k : Nat) (f : HostCmd → State → State) (s : State) : State :=
  served op k (fun c s => if c.io then s else f c s) s

/-- The command completes with success. -/
def succeed (k : Nat) (s : State) : State := complete k Status.success false s

/-- The command completes with success and `v` in Dwords 0 and 1. -/
def succeedWith (k v : Nat) (s : State) : State :=
  succeed k (modCmd k (fun c => { c with dw0 := v % 2 ^ 32, dw1 := v / 2 ^ 32 % 2 ^ 32 }) s)

/-- The command completes with a status. -/
def fail (k st : Nat) (s : State) : State := complete k st false s

/-! ## Connect (R225 to R227) -/

/-- The zero-terminated strings of an allow list; `cur` is the string so far, reversed. -/
def nqnList : List Nat → List Nat → List (List Nat)
  | [], cur => if cur = [] then [] else [cur.reverse]
  | 0 :: l, cur => if cur = [] then nqnList l [] else cur.reverse :: nqnList l []
  | b :: l, cur => nqnList l (b :: cur)

/-- The host may connect: the allow list 0x1103:01 is empty or holds it. -/
def hostAllowed (s : State) (host : Nat) : Bool :=
  let l := nqnList (domainBytes s (0x1103, 1)) []
  l.isEmpty || l.contains ((leBytes 223 host).takeWhile (· != 0))

/-- Seconds of a Keep Alive Timeout in ms (R230). -/
def katoSeconds (ms : Nat) : Nat := (ms + 999) / 1000

/-- Post the answer to a Connect, which takes no command slot. The controller ID in Dword 0 is free. -/
def connectAnswer (a q cid st : Nat) (s : State) : State :=
  if st = 0 then
    let (v, s) := drawFree 16 s
    post ⟨a, q, cid, 0, false, v, 0⟩ none s
  else post ⟨a, q, cid, st, false, 0, 0⟩ none s

/-! ### Paths (R222, R224, R226, R301, R302) -/

/-- The octets of the address that a path goes to. -/
def pathOctets (p : ConnectPath) : List Nat := beBytes 16 p.addr.toNat

/-- The octets are those of an IPv4-mapped address. -/
def mappedIpv4 (a : List Nat) : Bool := a.take 12 == List.replicate 10 0 ++ [0xFF, 0xFF]

/-- The service port of the NVMe or the discovery service (R222). -/
def servicePort : Transport → Bool → Nat
  | .tcp, true => 8009
  | _, _ => 4420

/-- The service of the address table that carries a transport. -/
def pathService : Transport → NetService
  | .rdma => .rdma
  | .tcp => .tcp

/-- A connection can come by the path: to an address that its port holds, with the transport's service, or for
discovery to the port's link-local address; and to the right service port. -/
def pathOpen (s : State) (p : ConnectPath) : Bool :=
  let open_ := match heldEntry s p.port (pathOctets p) with
    | some e => (((svcBit (pathService p.transport)).map fun b => (e.getD 18 0).testBit b).getD false)
    | none => p.discovery && (pathOctets p) == linkLocal s p.port
  open_ && p.service.toNat == servicePort p.transport p.discovery

/-- The most entries of an admin queue and of an I/O queue. -/
def queueEntries (q : Nat) : Nat := if q = 0 then 128 else 4096

/-- A connection as it comes up: digests exist on TCP alone, each as the host asks. -/
def newConn (q : Nat) (ctx : Option Nat) (p : ConnectPath) : Conn :=
  let tcp := p.transport == .tcp
  ⟨q, ctx, { p with hdgst := tcp && p.hdgst, ddgst := tcp && p.ddgst }⟩

/-- The lowest queue context that no connection uses. -/
def freeContext (s : State) : Nat :=
  let used := s.nqe.assocs.flatMap fun x => x.conns.filterMap Conn.ctx
  ((List.range (used.length + 1)).find? fun i => !used.contains i).getD 0

/-- A new association. -/
def newAssoc (a kato : Nat) (p : ConnectPath) (s : State) : Assoc where
  id := a
  queues := []
  authed := false
  en := false
  rdy := false
  shst := 0
  cfs := mode s == Mode.safeHold
  kato := katoSeconds kato
  kaClock := s.clock
  cc := 0
  aec := 0
  granted := 1024
  discovery := p.discovery
  conns := [newConn 0 none p]
  challenged := false
  errors := []

/-- Connect of an admin queue. -/
def connectAdmin (a cid kato : Nat) (p : ConnectPath) (s : State) : State :=
  if (assocAt s a).isSome then s
  else if 4096 ≤ s.nqe.assocs.length then
    connectAnswer a 0 cid Status.connectBusy (evt Reg.NQE_EVT 3 s)
  else
    let s := modNqe s fun n => { n with assocs := n.assocs ++ [newAssoc a kato p s] }
    connectAnswer a 0 cid 0 (wrN s Reg.NQE_ASUSE s.nqe.assocs.length)

/-- Connect of I/O queue `q`; a discovery controller has none. -/
def connectIo (x : Assoc) (q cid : Nat) (p : ConnectPath) (s : State) : State :=
  if x.queues.contains q then s
  else if x.discovery || p.discovery then connectAnswer x.id q cid Status.connectParameters s
  else if 32768 ≤ getF s Reg.NQE_QPUSE 0 16 then
    connectAnswer x.id q cid Status.connectBusy (evt Reg.NQE_EVT 4 s)
  else if 1024 ≤ x.queues.length then connectAnswer x.id q cid Status.connectBusy s
  else
    let i := freeContext s
    let s := modAssoc x.id (fun y =>
      { y with queues := y.queues ++ [q], conns := y.conns ++ [newConn q (some i) p] }) (putContext i s)
    connectAnswer x.id q cid 0 (wrN s Reg.NQE_QPUSE (rdN s Reg.NQE_QPUSE + 1))

/-- CONNECT. A queue larger than R226 allows fails with the NVMe status of invalid Connect parameters (log
entry 22). -/
def connect (a q cid host kato : Nat) (p : ConnectPath) (s : State) : State :=
  if !(hostServed s && pathOpen s p) then s
  else if !hostAllowed s host then connectAnswer a q cid Status.connectHost s
  else if queueEntries q ≤ p.sqsize.toNat then connectAnswer a q cid Status.connectParameters s
  else if q = 0 then connectAdmin a cid kato p s
  else match assocAt s a with
    | some x => connectIo x q cid p s
    | none => s

def execConnect (assoc qid cid : BitVec 16) (host : BitVec 1784) (kato : Word) (path : ConnectPath)
    (s : State) : Host.Outcome State Fault Refusal :=
  .next (connect assoc.toNat qid.toNat cid.toNat host.toNat kato.toNat path s)

/-! ## Controller resets (R248 to R251) -/

/-- A controller reset, or the end of association `a`; during a pause it waits for its end. -/
def resetAssoc (a : Nat) (close : Bool) (s : State) : State :=
  if (assocAt s a).isNone then s
  else if bit s Reg.NQE_FWACT 0 then modNqe s fun n => { n with delayed := n.delayed ++ [(a, close)] }
  else if close then closeAssoc a s
  else controllerReset a s

def execControllerReset (assoc : BitVec 16) (s : State) : Host.Outcome State Fault Refusal :=
  .next (resetAssoc assoc.toNat false s)

def execConnectionLoss (assoc : BitVec 16) (s : State) : Host.Outcome State Fault Refusal :=
  .next (resetAssoc assoc.toNat true s)

/-- KEEP_ALIVE_EXPIRY: no Keep Alive has come for KATO. -/
def keepAliveExpires (a : Nat) (s : State) : State :=
  match assocAt s a with
  | none => s
  | some x =>
    if x.kato = 0 ∨ s.clock < x.kaClock + 1000000000 * x.kato then s
    else resetAssoc a true (evt Reg.NQE_EVT 5 s)

def execKeepAliveExpiry (assoc : BitVec 16) (s : State) : Host.Outcome State Fault Refusal :=
  .next (keepAliveExpires assoc.toNat s)

/-- NSSR: only a controller can request the reset (R433). -/
def nssr (a : Nat) (s : State) : State :=
  if (assocAt s a).isNone then s else subsysReset RstKind.nssr s

def execNssr (assoc : BitVec 16) (s : State) : Host.Outcome State Fault Refusal := .next (nssr assoc.toNat s)

/-! ## Properties (R226, R229, R248, R250) -/

namespace Cprop
abbrev cap : Nat := 0x00
abbrev cc : Nat := 0x14
abbrev csts : Nat := 0x1C
abbrev nssr : Nat := 0x20
end Cprop

/-- Replace bits of a free value. -/
def setBits (v : Nat) : List (Nat × Nat × Nat) → Nat
  | [] => v
  | (lo, w, x) :: l => setBits (putBits v lo w x) l

/-- PROPERTY_GET. Of CAP, the specification gives MQES, AMS, TO and MPSMIN; the rest, VS and every other
property are free values. -/
def propertyGet (k : Nat) (c : HostCmd) (s : State) : State :=
  let x := assocAt s c.assoc
  let b (p : Assoc → Bool) : Nat := if (x.map p).getD false then 1 else 0
  let o := bitsOf c.arg2 0 32
  if o = Cprop.cc then succeedWith k ((x.map Assoc.cc).getD 0) s
  else
    let (v, s) := drawFree 64 s
    if o = Cprop.cap then
      succeedWith k (setBits v [(0, 16, 4095), (17, 2, 0), (24, 8, 1), (48, 4, 0)]) s
    else if o = Cprop.csts then
      succeedWith k (setBits (v % 2 ^ 32)
        [(0, 1, b Assoc.rdy), (1, 1, b Assoc.cfs), (2, 2, (x.map Assoc.shst).getD 0)]) s
    else succeedWith k v s

def execPropertyGet (slot : Fin 16384) (s : State) : Host.Outcome State Fault Refusal :=
  .next (servedFabrics FcType.propertyGet slot (propertyGet slot) s)

/-- A write of `v` to CC. -/
def ccWrite (k a v : Nat) (s : State) : State :=
  let was := ((assocAt s a).map Assoc.en).getD false
  let s := succeed k (modAssoc a (fun x => { x with cc := v }) s)
  if bitsOf v 14 2 ≠ 0 then resetAssoc a false (modAssoc a (fun x => { x with shst := 2 }) s)
  else if v.testBit 0 ∧ was = false then
    modAssoc a (fun x => { x with en := true, rdy := true, shst := 0 }) s
  else if v.testBit 0 = false ∧ was = true then resetAssoc a false s
  else s

/-- PROPERTY_SET. -/
def propertySet (k : Nat) (c : HostCmd) (s : State) : State :=
  let o := bitsOf c.arg2 0 32
  let v := bitsOf c.arg2 32 32
  if o = Cprop.cc then ccWrite k c.assoc v s
  else if o = Cprop.nssr then
    let s := succeed k s
    if v = 0x4E564D65 then nssr c.assoc s else s
  else fail k Status.invalidField s

def execPropertySet (slot : Fin 16384) (s : State) : Host.Outcome State Fault Refusal :=
  .next (servedFabrics FcType.propertySet slot (propertySet slot) s)

/-- I/O queue `q` of association `a` is deleted; its commands are discarded. -/
def dropQueue (a q : Nat) (s : State) : State :=
  let s := (s.nqe.cmds.filter fun c => c.assoc == a && c.sqid == q).foldl (fun s c => discardCmd c s) s
  match assocAt s a with
  | some x =>
    if x.queues.contains q then
      wrN (modAssoc a (fun x =>
        { x with queues := x.queues.filter (· != q), conns := x.conns.filter (·.queue != q) }) s) Reg.NQE_QPUSE
        (rdN s Reg.NQE_QPUSE - 1)
    else s
  | none => s

/-- DISCONNECT: of the admin queue it resets the controller and closes the association. -/
def disconnect (k : Nat) (c : HostCmd) (s : State) : State :=
  let s := succeed k s
  if c.sqid = 0 then resetAssoc c.assoc true s else dropQueue c.assoc c.sqid s

def execDisconnect (slot : Fin 16384) (s : State) : Host.Outcome State Fault Refusal :=
  .next (servedFabrics FcType.disconnect slot (disconnect slot) s)

/-! ## Authentication (R225) -/

/-- What a DH-HMAC-CHAP message does to its association: an offer with SHA-256 and ffdhe3072 is challenged, and
no other; a reply that verifies ends the exchange. -/
def authStep (m : AuthMessage) (x : Assoc) : Assoc :=
  match m with
  | .negotiate hashes groups =>
    { x with challenged := hashes.contains .sha256 && groups.contains .ffdhe3072 }
  | .reply verifies => { x with challenged := false, authed := x.authed || (x.challenged && verifies) }
  | .other => x

/-- AUTHENTICATION_SEND. -/
def authSend (k : Nat) (m : AuthMessage) (c : HostCmd) (s : State) : State :=
  succeed k (modAssoc c.assoc (authStep m) s)

def execAuthenticationSend (slot : Fin 16384) (message : AuthMessage) (s : State) :
    Host.Outcome State Fault Refusal :=
  .next (servedFabrics FcType.authSend slot (authSend slot message) s)

def execAuthenticationReceive (slot : Fin 16384) (s : State) : Host.Outcome State Fault Refusal :=
  .next (servedFabrics FcType.authReceive slot (fun _ s => succeed slot s) s)

/-! ## Identify (R222, R232, R237, R255, R455) -/

/-- The power states: the maximum power of R455 and the latencies of R255. -/
def powerStates : List PowerState :=
  [⟨3200, true, 0, 0⟩, ⟨2400, true, 1000, 1000⟩, ⟨1400, true, 350000, 450000⟩,
    ⟨950, true, 4000000, 5000000⟩, ⟨210, false, 12000000, 20000000⟩]

/-- The Identify Controller data. -/
def controllerData (discovery : Bool) : ControllerData where
  discovery := discovery
  mdts := 9
  acl := 3
  aerl := 7
  kas := 10
  vwc := 0
  awun := 0
  awupf := 0
  ioccsz := (64 + 4096) / 16
  fwug := 1
  slots := 2
  powers := powerStates

/-- The Identify Namespace data of namespace `ns`. -/
def namespaceData (s : State) (ns : Nat) : NamespaceData where
  nsze := nsSize s ns
  ncap := nsSize s ns
  nuse := nsSize s ns
  formats := [(4096, 0)]
  protection := 0

/-- The Zoned Namespace data of NSID 2. -/
def zonedData (s : State) : ZonedData where
  zsze := zcap s
  zdes := 64
  mar := 31
  mor := 31
  crossRead := true
  varCap := false
  rrl := 0
  frl := 0

/-- The data of an Identify by its CNS, Command Set Identifier and namespace; other data has no content in
the specification. -/
def identifyData (s : State) (discovery : Bool) (cns csi ns : Nat) : Option HostData :=
  if cns = 0 then some (.nvm (namespaceData s ns))
  else if cns = 1 then some (.controller (controllerData discovery))
  else if cns = 2 then some (.namespaces ([1, 2].filter fun n => decide (ns < n)))
  else if cns = 5 ∧ csi = 2 then some (.zoned (zonedData s))
  else if cns = 6 ∧ csi = 2 then some (.zasl 9)
  else none

/-- The Identify names a namespace that does not exist, or one of the other command set. -/
def identifyBadNs (cns csi ns : Nat) : Bool :=
  (cns == 0 && ns != 1 && ns != 2) || (cns == 5 && csi == 2 && ns != 2)

/-- Send data to the host of a command, if there is any. -/
def deliverSome (c : HostCmd) (d : Option HostData) (s : State) : State :=
  match d with
  | some d => sendData c d s
  | none => s

/-- The command came over a discovery controller (R224). -/
def onDiscovery (s : State) (c : HostCmd) : Bool := ((assocAt s c.assoc).map Assoc.discovery).getD false

/-- IDENTIFY. -/
def identify (k : Nat) (c : HostCmd) (s : State) : State :=
  let cns := c.arg % 256
  let csi := bitsOf c.arg2 24 8
  if identifyBadNs cns csi c.nsid then fail k Status.invalidNamespace s
  else succeed k (deliverSome c (identifyData s (onDiscovery s c) cns csi c.nsid) s)

def execIdentify (slot : Fin 16384) (s : State) : Host.Outcome State Fault Refusal :=
  .next (servedAdmin AdminOp.identify slot (identify slot) s)

/-! ## Logs (R224, R236, R260, R446) -/

/-- The composite temperature: the die reading to the nearest kelvin (R446). -/
def compositeTemp (s : State) : Nat := ((125 * signedOf 16 (getF s Reg.THM_TEMP 0 16) + 273650) / 1000).toNat

/-- The temperature bit of Critical Warning. -/
def tempWarning (s : State) : Bool := decide (s.nqe.tempThr < compositeTemp s) || bit s Reg.THM_STS 0

/-- The first address of a family that is configured on port `p` with a transport's service. -/
def configured (s : State) (p : Nat) (t : Transport) (ipv6 : Bool) : Option (List Nat) :=
  ((addressTable s).find? fun e => e.getD 17 0 == p && mappedIpv4 (e.take 16) != ipv6
    && ((svcBit (pathService t)).map fun b => (e.getD 18 0).testBit b).getD false).map (·.take 16)

/-- The Discovery Log: one entry for each port, transport and address family that is configured. -/
def discoveryLog (s : State) : List DiscoveryEntry :=
  [0, 1].flatMap fun p => [Transport.rdma, Transport.tcp].flatMap fun t => [false, true].filterMap fun v =>
    (configured s p t v).map fun a => ⟨p, t, v, a, servicePort t false⟩

/-- The log of an identifier: Error Information, SMART / Health Information, Firmware Slot Information,
Commands Supported and Effects, Sanitize Status, and on a discovery controller Discovery. -/
def logData (s : State) (c : HostCmd) (page : Nat) : Option HostData :=
  if page = 1 then some (.errors (((assocAt s c.assoc).map Assoc.errors).getD []))
  else if page = 2 then some (.smart (compositeTemp s) (tempWarning s))
  else if page = 3 then some (.firmwareSlots (namedSlot s + 1))
  else if page = 5 then some (.effects adminOpcodes ioOpcodes)
  else if page = 0x81 then some (.sanitizeStatus s.nqe.sanitize s.nqe.sanFailed 180 15480)
  else if page = 0x70 ∧ onDiscovery s c = true then some (.discovery (discoveryLog s))
  else none

/-- GET_LOG_PAGE. -/
def getLogPage (k : Nat) (c : HostCmd) (s : State) : State :=
  match logData s c (c.arg % 256) with
  | some d => succeed k (sendData c d s)
  | none => fail k Status.invalidField s

def execGetLogPage (slot : Fin 16384) (s : State) : Host.Outcome State Fault Refusal :=
  .next (servedAdmin AdminOp.getLog slot (getLogPage slot) s)

/-! ## Features (R227, R229, R230, R234, R256, R446) -/

namespace Feature
abbrev arbitration : Nat := 0x01
abbrev power : Nat := 0x02
abbrev temperature : Nat := 0x04
abbrev errorRecovery : Nat := 0x05
abbrev queues : Nat := 0x07
abbrev asyncEvents : Nat := 0x0B
abbrev keepAlive : Nat := 0x0F
end Feature

/-- `f` serves the Set Features of feature `i` in slot `k`, with its Dword 11. -/
def setFeature (i k : Nat) (f : HostCmd → Nat → State → State) (s : State) : State :=
  servedAdmin AdminOp.setFeatures k (fun c s => if c.arg % 256 = i then f c c.arg2 s else s) s

def execArbitration (slot : Fin 16384) (s : State) : Host.Outcome State Fault Refusal :=
  .next (setFeature Feature.arbitration slot (fun _ v s => succeed slot (setF s Reg.NQE_ARB 0 3 (bitsOf v 0 3))) s)

/-- POWER_MANAGEMENT: the target of the subsystem; its entry is an event of its own. -/
def powerManagement (k v : Nat) (s : State) : State :=
  let p := bitsOf v 0 5
  if 4 < p then fail k Status.invalidField s
  else succeed k (modNqe (setF s Reg.NQE_PSCUR 4 3 p) fun n => { n with psWant := true })

def execPowerManagement (slot : Fin 16384) (s : State) : Host.Outcome State Fault Refusal :=
  .next (setFeature Feature.power slot (fun _ v s => powerManagement slot v s) s)

/-- TEMPERATURE_THRESHOLD: the module has the over-temperature threshold of the composite temperature. -/
def temperatureThreshold (k v : Nat) (s : State) : State :=
  if bitsOf v 20 2 ≠ 0 then fail k Status.invalidField s
  else succeed k (modNqe s fun n => { n with tempThr := bitsOf v 0 16 })

def execTemperatureThreshold (slot : Fin 16384) (s : State) : Host.Outcome State Fault Refusal :=
  .next (setFeature Feature.temperature slot (fun _ v s => temperatureThreshold slot v s) s)

def execErrorRecovery (slot : Fin 16384) (s : State) : Host.Outcome State Fault Refusal :=
  .next (setFeature Feature.errorRecovery slot (fun _ v s =>
    succeed slot (modNqe s fun n => { n with tler := bitsOf v 0 16 })) s)

/-- Dword 0 of a grant of `g` queue pairs. -/
def grantWord (g : Nat) : Nat := (g - 1) + 2 ^ 16 * (g - 1)

/-- NUMBER_OF_QUEUES grants at most 1,024 pairs. -/
def numberOfQueues (k : Nat) (c : HostCmd) (v : Nat) (s : State) : State :=
  let g := min 1024 (min (bitsOf v 0 16) (bitsOf v 16 16) + 1)
  succeedWith k (grantWord g) (modAssoc c.assoc (fun x => { x with granted := g }) s)

def execNumberOfQueues (slot : Fin 16384) (s : State) : Host.Outcome State Fault Refusal :=
  .next (setFeature Feature.queues slot (numberOfQueues slot) s)

def execAsynchronousEventConfiguration (slot : Fin 16384) (s : State) : Host.Outcome State Fault Refusal :=
  .next (setFeature Feature.asyncEvents slot (fun c v s =>
    succeed slot (modAssoc c.assoc (fun x => { x with aec := v }) s)) s)

def execKeepAliveTimer (slot : Fin 16384) (s : State) : Host.Outcome State Fault Refusal :=
  .next (setFeature Feature.keepAlive slot (fun c v s =>
    succeed slot (modAssoc c.assoc (fun x => { x with kato := katoSeconds v, kaClock := s.clock }) s)) s)

/-- The value of feature `i` for association `x`. -/
def featureValue (s : State) (x : Assoc) (i : Nat) : Option Nat :=
  if i = Feature.arbitration then some (getF s Reg.NQE_ARB 0 3)
  else if i = Feature.power then some (getF s Reg.NQE_PSCUR 4 3)
  else if i = Feature.temperature then some s.nqe.tempThr
  else if i = Feature.errorRecovery then some s.nqe.tler
  else if i = Feature.queues then some (grantWord x.granted)
  else if i = Feature.asyncEvents then some x.aec
  else if i = Feature.keepAlive then some (1000 * x.kato)
  else none

/-- GET_FEATURES. -/
def getFeatures (k : Nat) (c : HostCmd) (s : State) : State :=
  match (assocAt s c.assoc).bind fun x => featureValue s x (c.arg % 256) with
  | some v => succeedWith k v s
  | none => fail k Status.invalidField s

def execGetFeatures (slot : Fin 16384) (s : State) : Host.Outcome State Fault Refusal :=
  .next (servedAdmin AdminOp.getFeatures slot (getFeatures slot) s)

/-! ## Events and Keep Alive -/

/-- ASYNCHRONOUS_EVENT_REQUEST: it completes when an event is reported. -/
def asyncEventRequest (k : Nat) (event : Option Nat) (s : State) : State :=
  match event with
  | some v => succeedWith k v s
  | none => s

def execAsynchronousEventRequest (slot : Fin 16384) (event : Option Word) (s : State) :
    Host.Outcome State Fault Refusal :=
  .next (servedAdmin AdminOp.asyncEvent slot
    (fun _ s => asyncEventRequest slot (event.map BitVec.toNat) s) s)

/-- KEEP_ALIVE restarts the timer. -/
def execKeepAlive (slot : Fin 16384) (s : State) : Host.Outcome State Fault Refusal :=
  .next (servedAdmin AdminOp.keepAlive slot (fun c s =>
    succeed slot (modAssoc c.assoc (fun x => { x with kaClock := s.clock }) s)) s)

/-! ## Abort (R246, R247) -/

/-- The write gate of the first sector of write `c` has come in context `i / 5`, `i % 5`: a WRITE_RUN has
reached it, by its committed progress (R151). -/
def gateRuns (s : State) (c : HostCmd) (i : Nat) : Bool :=
  let q := i / 5
  let x := i % 5
  let t := ctxAt s q x
  t.busy && descOp s q x == 3 && (dZoned s q x == (c.nsid == 2)) &&
    (List.range (dCount s q x)).any fun k =>
      opLba s q x (dTrack s q x) (dSector s q x false k) == some c.slba
        && (c.nsid == 2 || c.bufs.head? == some (dBuffer s q x k))
        && (decide (k < t.progPC) || (k == t.progPC && (slotAt s (ctxSlot q x)).wg))

/-- The write gate of the first sector of a write has come. -/
def gateCame (s : State) (c : HostCmd) : Bool :=
  let done := if c.nsid = 2 then decide (offsetOfLba s c.slba < zRptr s (zoneOfLba s c.slba))
    else !(s.ztb.conv.any fun k => c.bufs.head? == some k.buf && !k.written && k.fails == 0)
  done || (List.range 10).any (gateRuns s c)

/-- The command is inside its window of R246. -/
def catchable (s : State) (c : HostCmd) : Bool :=
  if c.phase = .fetched then true
  else if !c.nvm then false
  else if c.writes then c.phase == .media && !gateCame s c
  else if c.opcode = IoOp.flush then !c.left.isEmpty
  else c.opcode == IoOp.read || c.opcode == IoOp.verify || c.opcode == IoOp.compare

/-- A command is caught: it completes with a status, and what it holds is given up (R241). -/
def catchCmd (c : HostCmd) (st : Nat) (s : State) : State :=
  abandon c (complete c.slot st false (preemptCmd c s))

/-- ABORT. Dword 0 is 0 where the command was caught, 1 where not. -/
def abort (k : Nat) (c : HostCmd) (s : State) : State :=
  match s.nqe.cmds.find? fun d => d.assoc == c.assoc && d.sqid == c.arg % 65536 && d.cid == c.arg / 65536
      && d.slot != k with
  | some d =>
    if catchable s d then
      let s := evt Reg.NQE_EVT 8 (satInc (catchCmd d Status.abortRequested s) Reg.NQE_ABCNT 32)
      succeedWith k 0 s
    else succeedWith k 1 s
  | none => succeedWith k 1 s

def execNvmAbort (slot : Fin 16384) (s : State) : Host.Outcome State Fault Refusal :=
  .next (servedAdmin AdminOp.abort slot (abort slot) s)

/-- The NVMe status of a queue that does not exist. PRESUMED (log entry 22). -/
abbrev invalidQueue : Nat := 0x101

/-- DELETE_IO_SUBMISSION_QUEUE: it catches what it can, and completes when the rest has completed. -/
def deleteQueue (k : Nat) (c : HostCmd) (s : State) : State :=
  let q := c.arg % 65536
  if !(((assocAt s c.assoc).map fun x => x.queues.contains q).getD false) then fail k invalidQueue s
  else
    let mine (d : HostCmd) : Bool := d.assoc == c.assoc && d.sqid == q
    let s := (s.nqe.cmds.filter mine).foldl (fun s d =>
      if catchable s d then catchCmd d Status.abortedSq s else s) s
    if s.nqe.cmds.any mine then s else succeed k (dropQueue c.assoc q s)

def execDeleteIoSubmissionQueue (slot : Fin 16384) (s : State) : Host.Outcome State Fault Refusal :=
  .next (servedAdmin AdminOp.deleteSq slot (deleteQueue slot) s)

/-! ## Firmware's completions (R242) -/

/-- CPLPOST: a write to NQE_CPLPOST. -/
def cplpost (v : Nat) (s : State) : State :=
  let k := bitsOf v 0 14
  let s := wr64 s Reg.NQE_CPLPOST v
  match cmdAt s k with
  | some c =>
    if c.phase = .firmware then
      complete k (bitsOf v 16 11) (v.testBit 27) (modCmd k (fun c => { c with dw0 := bitsOf v 32 32 }) s)
    else evt Reg.NQE_EVT 0 s
  | none => evt Reg.NQE_EVT 0 s

def execCplpost (value : DWord) (s : State) : Host.Outcome State Fault Refusal :=
  .next (busOk (cplpost value.toNat s))

/-- EXQ_POP: a read of NQE_EXQ. -/
def exqPop (s : State) : State :=
  match s.nqe.exq with
  | (k, r) :: l => answer (k + 2 ^ 16 * r + 2 ^ 31) (modNqe s fun n => { n with exq := l })
  | [] => answer 0 s

def execExqPop (s : State) : Host.Outcome State Fault Refusal := .next (exqPop s)

end Sys2Proof.Machine
end

