-- ==== Sys2Proof/Machine/Nand.lean ====
section
/-! DEFINITION. Core accesses to the NAND window and its erase alias (21_address_map.md, R542): loads
that wait, posted stores and erases, and the programming of pages. -/

namespace Sys2Proof.Machine

/-- Bytes of an access. -/
def accessBytes : AccessSize → Nat
  | .byte => 1
  | .half => 2
  | .word => 4
  | .double => 8

/-- An access is of 64 bits and aligned to its size. -/
def alignedDouble (off : Nat) (size : AccessSize) : Bool := size == .double && off % 8 == 0

/-- The first bytes of a NAND page (2 KiB) and block (128 KiB). -/
abbrev pageSize : Nat := 2048
abbrev blockSize : Nat := 131072

/-- Change the state of the NAND controller. -/
def modFlash (s : State) (f : NandState → NandState) : State := { s with flash := f s.flash }

/-- The ranges at `lo` and above, below `hi`, and at `a` and above, below `b`, share a byte. -/
def overlaps (lo hi a b : Nat) : Bool := decide (lo < b ∧ a < hi)

/-- The range touches the event log (R479). -/
def touchesLog (lo hi : Nat) : Bool := overlaps lo hi 0x09000000 0x19000000

/-- The range touches the event log, the nonce journal or the wrapped identity key (R542). -/
def nandRefuses (s : State) (lo hi : Nat) : Bool :=
  let j := rdN s Reg.CPH_NJBASE
  touchesLog lo hi || overlaps lo hi j (j + 0x400000) || overlaps lo hi 0x1A000800 0x1A001000

/-- A refused store or erase: a bus error, and EVR_EVT.LOGWR for the event log. -/
def nandRefused (lo hi : Nat) (s : State) : State :=
  busFault (evtIf (touchesLog lo hi) Reg.EVR_EVT 5 s)

/-- A store or erase of core `c` has failed. -/
def nandFails (c : Nat) (s : State) : State :=
  modFlash s fun f => { f with failed := if c ∈ f.failed then f.failed else f.failed ++ [c] }

/-- Program the bytes `b` at `off`; a program that fails leaves free values among the bits it could
clear. -/
def nandProgram (ok : Bool) (c off : Nat) (b : List Nat) (s : State) : State :=
  if ok then nandProg s off b
  else nandFails c (nandProg { s with draws := s.draws + b.length } off (freeBytes b.length s))

/-- Carry out a waiting store, whose page's program succeeds or not, or a waiting erase. -/
def nandDo (ok : Bool) (s : State) (p : NandPost) : State :=
  match p.data with
  | some d => nandProgram ok p.core p.off (leBytes 8 d.toNat) s
  | none =>
    let lo := p.off / blockSize * blockSize
    let s := nandErase s lo (lo + blockSize)
    if p.ok then s else nandProgram false p.core lo (List.replicate blockSize 0) s

/-- The posts that wait once the erases at their front are carried out. -/
def afterErases : List NandPost → List NandPost
  | [] => []
  | p :: l => if p.data.isNone then afterErases l else p :: l

/-- The erases at the front of the posts are carried out: no store waits before them. -/
def runErases (s : State) : State :=
  let l := s.flash.posts
  let rest := afterErases l
  modFlash ((l.take (l.length - rest.length)).foldl (nandDo true) s) fun f => { f with posts := rest }

/-- Post a store or erase. -/
def nandPost (p : NandPost) (s : State) : State :=
  runErases (modFlash s fun f => { f with posts := f.posts ++ [p] })

/-- The posts that a load of core `c` waits for: all up to the core's last. -/
def loadWaits (s : State) (c : Nat) : List NandPost :=
  (s.flash.posts.reverse.dropWhile fun p => p.core != c).reverse

/-- NAND_LOAD: the load waits for the earlier stores and erases of its core, and returns the stored
bytes, or a bus error if one of them failed since the core's previous load. -/
def nandLoad (c off : Nat) (size : AccessSize) (ok : Bool) (s : State) : State :=
  let n := accessBytes size
  if 0x20000000 < off + n then busFault s else
  let w := loadWaits s c
  let s := runErases (modFlash (w.foldl (nandDo ok) s) fun f => { f with posts := f.posts.drop w.length })
  let bad := decide (c ∈ s.flash.failed)
  let s := modFlash s fun f => { f with failed := f.failed.filter (· != c) }
  if bad then busFault s else answer (leNat (nandBytes s off n)) s

def execNandLoad (core : Fin 6) (off : BitVec 29) (size : AccessSize) (ok : Bool) (s : State) :
    Host.Outcome State Fault Refusal :=
  .next (nandLoad core off.toNat size ok s)

/-- NAND_STORE. -/
def nandStore (c off : Nat) (size : AccessSize) (d : DWord) (s : State) : State :=
  if !alignedDouble off size then busFault s
  else if nandRefuses s off (off + 8) then nandRefused off (off + 8) s
  else busOk (nandPost ⟨c, off, some d, true, s.clock⟩ s)

def execNandStore (core : Fin 6) (off : BitVec 29) (size : AccessSize) (data : DWord) (s : State) :
    Host.Outcome State Fault Refusal :=
  .next (nandStore core off.toNat size data s)

/-- NAND_ERASE: the block that holds `off`. -/
def nandEraseBlock (c off : Nat) (size : AccessSize) (ok : Bool) (s : State) : State :=
  let lo := off / blockSize * blockSize
  if !alignedDouble off size then busFault s
  else if nandRefuses s lo (lo + blockSize) then nandRefused lo (lo + blockSize) s
  else busOk (nandPost ⟨c, off, none, ok, s.clock⟩ s)

def execNandErase (core : Fin 6) (off : BitVec 29) (size : AccessSize) (ok : Bool) (s : State) :
    Host.Outcome State Fault Refusal :=
  .next (nandEraseBlock core off.toNat size ok s)

/-- The waiting stores of page `k` that no waiting erase of its block comes before. -/
def pagePosts (s : State) (k : Nat) : List NandPost :=
  (s.flash.posts.takeWhile fun p => p.data.isSome || p.off / blockSize != k * pageSize / blockSize).filter
    fun p => p.data.isSome && p.off / pageSize == k

/-- The page is due: its last 8 bytes are stored, or 1 ms has passed since its last store. -/
def pageDue (s : State) (k : Nat) (l : List NandPost) : Bool :=
  !l.isEmpty && (l.any (fun p => p.off == k * pageSize + (pageSize - 8))
    || l.all fun p => decide (p.clock + 1000000 ≤ s.clock))

/-- PAGE_PROGRAM. -/
def pageProgram (k : Nat) (ok : Bool) (s : State) : State :=
  let l := pagePosts s k
  if s.sys.powerLost || !pageDue s k l then s
  else runErases (modFlash (l.foldl (nandDo ok) s) fun f => { f with posts := l.foldl List.erase f.posts })

def execPageProgram (page : Fin 262144) (ok : Bool) (s : State) : Host.Outcome State Fault Refusal :=
  .next (pageProgram page ok s)

end Sys2Proof.Machine
end

