-- ==== Sys2Proof/Machine/Upkeep.lean ====
section
/-! DEFINITION. Firmware update, power-state entry and Sanitize (R251 to R262). -/

namespace Sys2Proof.Machine

/-! ## Firmware Image Download (R252) -/

/-- The image downloaded: the latest piece that covers a byte. A byte of no piece is as in erased NAND. -/
def staged (s : State) : Image := fun i =>
  match s.nqe.image.find? fun p => decide (p.1 ≤ i ∧ i < p.1 + p.2.length) with
  | some p => p.2.getD (i - p.1) 0xFF
  | none => 0xFF

/-- Bytes that the pieces reach to. -/
def stagedLength (s : State) : Nat := (s.nqe.image.map fun p => p.1 + p.2.length).foldl max 0

/-- FIRMWARE_IMAGE_DOWNLOAD of units of 4 KiB, at most 2 MiB at once (R223). -/
def imageDownload (k : Nat) (data : List Nat) (c : HostCmd) (s : State) : State :=
  let n := 4 * (c.arg + 1)
  let o := 4 * c.arg2
  if n % 4096 ≠ 0 ∨ o % 4096 ≠ 0 ∨ 2 ^ 21 < n then fail k Status.invalidField s
  else if data.length ≠ n then s
  else succeed k (modNqe s fun q => { q with image := (o, data) :: q.image })

def execFirmwareImageDownload (slot : Fin 16384) (data : List Byte) (s : State) :
    Host.Outcome State Fault Refusal :=
  .next (servedAdmin AdminOp.download slot (imageDownload slot (data.map BitVec.toNat)) s)

/-! ## Firmware Commit (R252, R400) -/

/-- The status of a commit of image `g` to firmware slot number `n`. -/
def commitStatus (s : State) (g : Image) (n : Nat) : Nat :=
  if n ≠ 1 ∧ n ≠ 2 then Status.fwSlot
  else
    let r := (imgVerify s g).1
    if r = ImgRes.sig ∨ r = ImgRes.hdr ∨ imgKind g ≠ 1 then Status.fwImage
    else if r = ImgRes.svn then Status.fwProhibited
    else Status.success

/-- The downloaded image goes into firmware slot number `n`. -/
def writeSlot (n : Nat) (s : State) : State :=
  let a := fwSlotSize * (n - 1)
  let bytes := Image.bytes (staged s) 0 (min (stagedLength s) fwSlotSize)
  modNqe (nandProg (nandErase s a (a + fwSlotSize)) a bytes) fun q => { q with image := [] }

/-- The copy of the boot-slot record that is written next, and its SEQ. -/
def nextRecord (s : State) : Nat × Nat :=
  if slotRecordOk s 0 && (!slotRecordOk s 1 || decide (slotSeq s 1 ≤ slotSeq s 0)) then (1, slotSeq s 0 + 1)
  else if slotRecordOk s 1 then (0, slotSeq s 1 + 1)
  else (0, 1)

/-- The boot-slot record names firmware slot number `n`. -/
def nameSlot (n : Nat) (s : State) : State :=
  let (copy, seq) := nextRecord s
  let head := [n, 0, 0, 0] ++ leBytes 4 seq
  nandWrite s (configBase + 0x10000 + 0x40 * copy)
    (head ++ leBytes 4 (crc32 head) ++ List.replicate 44 0 ++ leBytes 8 slotValid)

/-- `f` serves the Firmware Commit of action `act` in slot `k`, with its firmware slot number. -/
def committed (act k : Nat) (f : HostCmd → Nat → State → State) (s : State) : State :=
  servedAdmin AdminOp.commit k (fun c s =>
    if bitsOf c.arg 3 3 = act then f c (bitsOf c.arg 0 3) s else s) s

/-- COMMIT_ACTION_1: the downloaded image is checked and written, and boots next. -/
def commitOne (k n : Nat) (s : State) : State :=
  let r := commitStatus s (staged s) n
  if r ≠ 0 then fail k r s else succeed k (nameSlot n (writeSlot n s))

def execCommitAction1 (slot : Fin 16384) (s : State) : Host.Outcome State Fault Refusal :=
  .next (committed 1 slot (fun _ n s => commitOne slot n s) s)

/-- COMMIT_ACTION_2: the image of the slot boots next. -/
def commitTwo (k n : Nat) (s : State) : State :=
  let r := commitStatus s (fwImage s (n - 1)) n
  if r ≠ 0 then fail k r s else succeed k (nameSlot n s)

def execCommitAction2 (slot : Fin 16384) (s : State) : Host.Outcome State Fault Refusal :=
  .next (committed 2 slot (fun _ n s => commitTwo slot n s) s)

/-! ## Activation without reset (R253, R254) -/

/-- HOLD is written with 1: fetching stops, and operations in progress receive class P requests. -/
def holdFetch (s : State) : State :=
  if bit s Reg.NQE_FWACT 0 then s else
  let s := setBit (setF s Reg.NQE_FWACT 0 2 1) Reg.NQE_STS 1 true
  drainCheck ((List.range 10).foldl (fun s i => requestP (i / 5) (i % 5) s) s)

/-- Fetching resumes, and the controller resets of the pause take effect (R251). -/
def resumeFetch (s : State) : State :=
  let s := setBit (setF s Reg.NQE_FWACT 0 2 0) Reg.NQE_STS 1 false
  let l := s.nqe.delayed
  let s := l.foldl (fun s d => if d.2 then closeAssoc d.1 s else controllerReset d.1 s)
    (modNqe s fun n => { n with delayed := [] })
  wakeForMedia (settleActive s)

/-- UPDATE ends in the mode that it came from. -/
def leaveUpdate (s : State) : State :=
  if mode s = Mode.update then enterMode (getF s Reg.SYS_MODE 16 4) s else s

/-- HOLD is written with 0: an activation that has entered UPDATE has succeeded, and its slot boots
next. One that was still draining is given up. -/
def releaseFetch (s : State) : State :=
  if !bit s Reg.NQE_FWACT 0 then s else
  let a := s.nqe.activating
  let up := mode s == Mode.update
  let s := leaveUpdate (modNqe s fun n => { n with activating := none })
  let s := match a with
    | some (n, _, k) => if up then succeed k (nameSlot (n + 1) s) else s
    | none => s
  resumeFetch s

def execFwactHold (hold : Bool) (s : State) : Host.Outcome State Fault Refusal :=
  .next (busOk (if hold then holdFetch s else releaseFetch s))

/-- An activation can begin: no entry to a power state and no change of mode is in progress. -/
def mayActivate (s : State) : Bool :=
  s.nqe.psEntry.isNone && s.sys.step.isNone && s.sys.target.isNone && runsMode (mode s)
    && !bit s Reg.NQE_FWACT 0

/-- COMMIT_ACTION_3: the image is checked, written if it was downloaded, and activated. -/
def commitThree (k n : Nat) (s : State) : State :=
  if !mayActivate s then s else
  let new := !s.nqe.image.isEmpty
  let r := commitStatus s (if new then staged s else fwImage s (n - 1)) n
  if r ≠ 0 then fail k r s else
  let s := if new then writeSlot n s else s
  holdFetch (modNqe s fun q => { q with activating := some (n - 1, getF s Reg.SEC_STS 1 2 - 1, k) })

def execCommitAction3 (slot : Fin 16384) (s : State) : Host.Outcome State Fault Refusal :=
  .next (committed 3 slot (fun _ n s => commitThree slot n s) s)

/-- ACTIVATION_FALLBACK: the previous image takes over again, and the commit fails. -/
def fallback (s : State) : State :=
  match s.nqe.activating with
  | some (_, old, k) =>
    if mode s ≠ Mode.update then s else
    let s := leaveUpdate (loadFirmware old false (modNqe s fun n => { n with activating := none }))
    resumeFetch (fail k Status.fwImage s)
  | none => s

def execActivationFallback (s : State) : Host.Outcome State Fault Refusal := .next (fallback s)

/-! ## Power-state entry (R256) -/

/-- POWER_STATE_ENTRY: the entry to the target begins when no media command is in flight. -/
def powerEntry (s : State) : State :=
  if !s.nqe.psWant || s.nqe.psEntry.isSome || s.nqe.sanitize.isSome || s.nqe.cmds.any HostCmd.media
      || !runsMode (mode s) || bit s Reg.CAL_STS 0 then s
  else
    let p := getF s Reg.NQE_PSCUR 4 3
    let s := modNqe s fun n => { n with psWant := false, psEntry := some p }
    let s := setBit s Reg.NQE_PSCUR 8 true
    entryGoesOn (if p ≤ 1 ∧ atMode s Mode.ready = false then setBit s Reg.NQE_PSCUR 9 true else s)

def execPowerStateEntry (s : State) : Host.Outcome State Fault Refusal := .next (powerEntry s)

/-! ## Sanitize (R259 to R262) -/

namespace SanAct
abbrev exitFailure : Nat := 1
abbrev blockErase : Nat := 2
abbrev overwrite : Nat := 3
abbrev cryptoErase : Nat := 4
end SanAct

/-- Change the Sanitize that runs. -/
def modSan (s : State) (f : Sanitize → Sanitize) : State :=
  modNqe s fun n => { n with sanitize := n.sanitize.map f }

/-- Steps 1 and 2 of Crypto Erase: every at-rest key is destroyed, and every zone emptied. -/
def eraseSteps (s : State) : State :=
  let s := (List.range (numZones s)).foldl (fun s z => resetZone z s) (destroyAtRest s)
  modSan s fun x => { x with erased := true }

/-- A Sanitize with no pass left goes on to the erase steps once the module is in READY. -/
def sanGoes (s : State) : State :=
  match s.nqe.sanitize with
  | some x => if x.passes = 0 ∧ x.erased = false ∧ atMode s Mode.ready = true then eraseSteps s else s
  | none => s

/-- The commands in flight that Sanitize does not allow fail (R261). -/
def sanEndCmds (s : State) : State :=
  (s.nqe.cmds.filter fun c => !sanitizeAllows c).foldl (fun s c => catchCmd c Status.sanitizing s) s

/-- A Sanitize starts: its command completes, other work stops, and the module moves to PS0. -/
def sanStart (k : Nat) (x : Sanitize) (ause : Bool) (s : State) : State :=
  let s := succeed k s
  let s := modNqe s fun n => { n with sanitize := some x, sanAuse := ause }
  let s := sanEndCmds (setBit s Reg.NQE_STS 6 true)
  let s := setBit (streamAbort (rewrapAbort s)) Reg.ZTB_PTCTL 0 false
  let s := if runsMode (mode s) && !atMode s Mode.ready then
      requestMode Mode.ready (setBit s Reg.NQE_PSCUR 9 true) else s
  sanGoes s

/-- The present step of the Sanitize failed. -/
def sanFails (s : State) : State :=
  setBit (modNqe s fun n => { n with sanitize := none, sanFailed := true }) Reg.NQE_STS 6 false

/-- The present step of the Sanitize ended: a pass of an overwrite, or the zeros of NSID 1. -/
def sanNext (s : State) : State :=
  match s.nqe.sanitize with
  | none => s
  | some x =>
    if atMode s Mode.ready = false then s
    else if 0 < x.passes then
      sanGoes (modSan s fun x =>
        { x with passes := x.passes - 1, pattern := if x.invert then 2 ^ 32 - 1 - x.pattern else x.pattern })
    else if x.erased then
      setBit (modNqe s fun n => { n with sanitize := none, sanFailed := false }) Reg.NQE_STS 6 false
    else sanGoes s

/-- A step of the Sanitize that runs has ended or failed. -/
def sanStep (ok : Bool) (s : State) : State :=
  if s.nqe.sanitize.isNone then s else if ok then sanNext s else sanFails s

/-- `f` serves the Sanitize of action `act` in slot `k`. -/
def sanitized (act k : Nat) (f : HostCmd → State → State) (s : State) : State :=
  servedAdmin AdminOp.sanitize k (fun c s => if bitsOf c.arg 0 3 = act then f c s else s) s

/-- EXIT_FAILURE_MODE: only under Allow Unrestricted Sanitize Exit. -/
def exitFailure (k : Nat) (s : State) : State :=
  if s.nqe.sanFailed && !s.nqe.sanAuse then fail k Status.sanitizeFailed s
  else succeed k (modNqe s fun n => { n with sanFailed := false })

def execExitFailureMode (slot : Fin 16384) (s : State) : Host.Outcome State Fault Refusal :=
  .next (sanitized SanAct.exitFailure slot (fun _ s => exitFailure slot s) s)

def execBlockErase (slot : Fin 16384) (s : State) : Host.Outcome State Fault Refusal :=
  .next (sanitized SanAct.blockErase slot (fun _ s => fail slot Status.invalidField s) s)

/-- CRYPTO_ERASE. -/
def cryptoErase (k : Nat) (done : Option Bool) (s : State) : State :=
  match done with
  | none => sanitized SanAct.cryptoErase k (fun c s => sanStart k ⟨0, 0, false, false⟩ (c.arg.testBit 3) s) s
  | some ok => sanStep ok s

def execCryptoErase (slot : Fin 16384) (done : Option Bool) (s : State) : Host.Outcome State Fault Refusal :=
  .next (cryptoErase slot done s)

/-- Passes of an Overwrite: 1 to 16, where 0 stands for 16. -/
def overwritePasses (arg : Nat) : Nat := if bitsOf arg 4 4 = 0 then 16 else bitsOf arg 4 4

/-- OVERWRITE. -/
def overwrite (k : Nat) (done : Option Bool) (s : State) : State :=
  match done with
  | none => sanitized SanAct.overwrite k (fun c s =>
      sanStart k ⟨overwritePasses c.arg, c.arg2, c.arg.testBit 8, false⟩ (c.arg.testBit 3) s) s
  | some ok => sanStep ok s

def execOverwrite (slot : Fin 16384) (done : Option Bool) (s : State) : Host.Outcome State Fault Refusal :=
  .next (overwrite slot done s)

end Sys2Proof.Machine
end

