-- ==== Sys2Proof/Machine/Objects.lean ====
section
/-! DEFINITION. The object dictionary (R273 to R276, R280, R292 to R294): every Noile object with its type,
access and privilege, its value, and what a write of it does. -/

namespace Sys2Proof.Machine

/-! ## Types, access and privilege (R273, R276, R277) -/

/-! ### Type codes -/
namespace NoiType
abbrev bool : Nat := 0x01
abbrev u8 : Nat := 0x02
abbrev u16 : Nat := 0x03
abbrev u32 : Nat := 0x04
abbrev u64 : Nat := 0x05
abbrev i16 : Nat := 0x06
abbrev i32 : Nat := 0x07
abbrev i64 : Nat := 0x08
abbrev f32 : Nat := 0x09
abbrev time64 : Nat := 0x0A
abbrev octets : Nat := 0x0B
abbrev string : Nat := 0x0C
abbrev domain : Nat := 0x0D
end NoiType

/-- The size in bytes of a fixed-size type. -/
def typeSize (t : Nat) : Nat := [0, 1, 1, 2, 4, 8, 2, 4, 8, 4, 8, 0, 0, 0].getD t 0

/-- Access codes. -/
inductive NoiAcc where
  | const
  | ro
  | rw
  | wo
  | rwm
  deriving DecidableEq, Repr

/-! ### Privilege levels -/
namespace Priv
abbrev observer : Nat := 0
abbrev operator : Nat := 1
abbrev custodian : Nat := 2
abbrev factory : Nat := 3
end Priv

/-- An object: its type, its size (the most bytes of a STRING or DOMAIN), its access, the least privilege,
and, where a register is its content, the bytes that it holds; such an object of access CONST or RO is
served in hardware (R280). -/
structure NoiObj where
  index : Nat
  sub : Nat
  type : Nat
  size : Nat
  acc : NoiAcc
  priv : Nat
  hw : Option (State → List Nat)

/-- A read-only object that shows `w` bits at bit `lo` of register `a`. -/
def regObj (i j t a lo w : Nat) : NoiObj :=
  ⟨i, j, t, typeSize t, .ro, Priv.observer, some fun s => leBytes (typeSize t) (getF s a lo w)⟩

/-- A read-only object that shows a 64-bit register. -/
def reg64Obj (i j t a : Nat) : NoiObj :=
  ⟨i, j, t, 8, .ro, Priv.observer, some fun s => leBytes 8 (rd64 s a)⟩

/-- An object that firmware serves. -/
def fwObj (i j t size : Nat) (acc : NoiAcc) (priv : Nat) : NoiObj := ⟨i, j, t, size, acc, priv, none⟩

/-! ## The objects of the chapters -/

/-- Type definitions (R293). -/
def typeObjs : List NoiObj :=
  (List.range 13).map fun k =>
    ⟨k + 1, 0, NoiType.u8, 1, .const, Priv.observer, some fun _ =>
      [if k + 1 = NoiType.octets then Config.octetsTypeSize.toNat else typeSize (k + 1)]⟩

/-- Identity, module and modes. -/
def moduleObjs : List NoiObj :=
  [ regObj 0x0110 0 NoiType.u8 Reg.SYS_MODE 0 4
  , fwObj 0x0111 0 NoiType.u8 1 .rw Priv.custodian
  , fwObj 0x0112 0 NoiType.u8 1 .wo Priv.custodian
  , regObj 0x0113 0 NoiType.u8 Reg.SYS_RSTCAUSE 0 3
  , regObj 0x0114 0 NoiType.u8 Reg.SYS_SHCAUSE 0 4
  , regObj 0x0115 0 NoiType.u32 Reg.SYS_PWRON 0 32
  , regObj 0x0116 1 NoiType.u8 Reg.SYS_AHCAUSE 0 3
  , regObj 0x0116 2 NoiType.u8 Reg.SYS_AHCAUSE 8 3
  , fwObj 0x0180 1 NoiType.octets 16 .wo Priv.observer
  , fwObj 0x0180 2 NoiType.u8 1 .wo Priv.observer
  , fwObj 0x0181 0 NoiType.u8 1 .ro Priv.observer ]
  ++ (List.range 255).map fun n => fwObj 0x0181 (n + 1) NoiType.octets 16 .ro Priv.operator

/-- Network: the ports. -/
def portObjs (p : Nat) : List NoiObj :=
  [ ⟨0x1000, p + 1, NoiType.octets, 6, .const, Priv.observer,
      some fun s => beBytes 6 (rd64 s (Reg.ETH_MACADDR p) % 2 ^ 48)⟩
  , fwObj 0x1001 (p + 1) NoiType.u16 2 .rw Priv.custodian
  , regObj 0x1002 (p + 1) NoiType.u32 (Reg.ETH_STS p) 0 32
  , fwObj 0x1004 (p + 1) NoiType.u32 4 .rw Priv.custodian
  , fwObj 0x1005 (p + 1) NoiType.bool 1 .rw Priv.custodian
  , fwObj 0x1006 (p + 1) NoiType.u8 1 .rw Priv.custodian ]

/-- Network: addresses, time, the protocol and the host queues. -/
def networkObjs : List NoiObj :=
  portObjs 0 ++ portObjs 1 ++
  [ fwObj 0x1003 0 NoiType.domain 320 .rw Priv.custodian
  , reg64Obj 0x1007 0 NoiType.time64 Reg.ETH_PTPTIME
  , fwObj 0x1020 1 NoiType.u16 2 .rw Priv.custodian
  , fwObj 0x1020 2 NoiType.u32 4 .rw Priv.custodian
  , fwObj 0x1020 3 NoiType.u8 1 .rw Priv.custodian
  , fwObj 0x1020 4 NoiType.u16 2 .rw Priv.custodian
  , fwObj 0x1021 0 NoiType.domain 1088 .rw Priv.custodian
  , regObj 0x1022 1 NoiType.u32 Reg.NOI_RXCNT 0 32
  , regObj 0x1022 2 NoiType.u32 Reg.NOI_TXCNT 0 32
  , regObj 0x1022 3 NoiType.u32 Reg.NOI_TAGFAIL 0 32
  , regObj 0x1022 4 NoiType.u32 Reg.NOI_BUSYCNT 0 32
  , regObj 0x1022 5 NoiType.u32 Reg.NOI_DROPCNT 0 32 ] ++
  [ regObj 0x1100 1 NoiType.u16 Reg.NQE_ASUSE 0 16
  , regObj 0x1100 2 NoiType.u16 Reg.NQE_QPUSE 0 16
  , regObj 0x1101 0 NoiType.u16 Reg.NQE_INFL 0 15
  , regObj 0x1102 0 NoiType.u8 Reg.NQE_PSCUR 0 3
  , fwObj 0x1103 1 NoiType.domain (2 ^ 32) .rw Priv.custodian
  , fwObj 0x1103 2 NoiType.bool 1 .rw Priv.custodian ]

/-- Media, zones and write guard. -/
def mediaObjs : List NoiObj :=
  [ fwObj 0x2201 0 NoiType.u8 1 .rw Priv.custodian
  , fwObj 0x2202 0 NoiType.u8 1 .rw Priv.custodian
  , fwObj 0x2203 1 NoiType.u16 2 .rw Priv.operator
  , fwObj 0x2203 2 NoiType.u8 1 .rw Priv.operator
  , regObj 0x2210 1 NoiType.u32 Reg.ZTB_RETUSE 0 32
  , regObj 0x2210 2 NoiType.u32 Reg.ZTB_RETPEAK 0 32
  , regObj 0x2211 1 NoiType.u32 Reg.ZTB_VFCNT 0 32
  , regObj 0x2211 2 NoiType.u32 Reg.ZTB_RBCNT 0 32
  , regObj 0x2211 3 NoiType.u32 Reg.ZTB_TVCNT 0 32
  , regObj 0x2211 4 NoiType.u32 Reg.ZTB_TRCNT 0 32 ] ++
  [ fwObj 0x2300 1 NoiType.u32 4 .rw Priv.operator
  , regObj 0x2300 2 NoiType.u32 Reg.ZTB_PTLAP 0 32
  , regObj 0x2300 3 NoiType.u32 Reg.ZTB_PTLAPS 0 32
  , regObj 0x2300 4 NoiType.u32 Reg.ZTB_PTMARG 0 32
  , regObj 0x2300 5 NoiType.u32 Reg.ZTB_PTUNR 0 32
  , fwObj 0x2310 0 NoiType.octets 12 .wo Priv.custodian
  , regObj 0x2310 1 NoiType.u32 Reg.ZTB_RWSTS 0 32
  , fwObj 0x2320 1 NoiType.octets 18 .rw Priv.custodian
  , fwObj 0x2320 2 NoiType.string 223 .rw Priv.custodian
  , fwObj 0x2320 3 NoiType.string 223 .rw Priv.custodian
  , fwObj 0x2320 4 NoiType.octets 32 .wo Priv.custodian
  , fwObj 0x2321 0 NoiType.domain (2 ^ 23) .rwm Priv.custodian
  , fwObj 0x2322 0 NoiType.domain (2 ^ 19) .ro Priv.observer
  , fwObj 0x2323 0 NoiType.u8 1 .wo Priv.custodian
  , fwObj 0x2323 1 NoiType.u8 1 .rw Priv.custodian
  , fwObj 0x2324 1 NoiType.u32 4 .ro Priv.observer
  , fwObj 0x2324 2 NoiType.u64 8 .ro Priv.observer ]

/-- Servo and motion, spindle, thermal and power. -/
def driveObjs : List NoiObj :=
  ((List.range 2).flatMap fun a =>
    [ regObj 0x3001 (a + 1) NoiType.u32 (Reg.SRV_OVR a) 0 16
    , regObj 0x3002 (a + 1) NoiType.u32 (Reg.SRV_BANKID a) 0 32
    , fwObj 0x3003 (a + 1) NoiType.u32 4 .ro Priv.observer
    , fwObj 0x3100 (a + 1) NoiType.domain (2 ^ 20) .ro Priv.operator ]) ++
  [ regObj 0x4001 0 NoiType.u32 Reg.SPN_SPEED 0 20
  , regObj 0x4002 0 NoiType.u8 Reg.SPN_STS 0 4
  , regObj 0x4003 0 NoiType.u32 Reg.SPN_LOSCNT 0 32
  , regObj 0x4004 0 NoiType.u32 Reg.SPN_RFCNT 0 32
  , regObj 0x4005 0 NoiType.u32 Reg.SPN_SUTIME 0 16
  , regObj 0x4010 0 NoiType.u8 Reg.WEIR_WIN 0 3 ] ++
  ((List.range 5).map fun n => regObj 0x4011 (n + 1) NoiType.u32 (Reg.WEIR_WCNT n) 0 32) ++
  [ regObj 0x5001 0 NoiType.i16 Reg.THM_TEMP 0 16
  , regObj 0x5002 0 NoiType.u8 Reg.THM_LADDER 0 4
  , fwObj 0x5003 0 NoiType.u8 1 .rw Priv.operator
  , regObj 0x5004 0 NoiType.i16 Reg.THM_TMAX 0 16
  , regObj 0x5005 0 NoiType.f32 Reg.THM_PIN 0 32
  , fwObj 0x5006 0 NoiType.f32 4 .rw Priv.custodian
  , regObj 0x5007 0 NoiType.bool Reg.THM_STS 0 1 ]

/-- Security and attestation. -/
def securityObjs : List NoiObj :=
  [ regObj 0x6001 0 NoiType.u8 Reg.SEC_STS 1 2
  , regObj 0x6001 1 NoiType.u32 Reg.SEC_FWVER 0 32
  , regObj 0x6002 0 NoiType.u8 Reg.SEC_OTPST 0 8
  , fwObj 0x6002 1 NoiType.octets 32 .wo Priv.factory
  , fwObj 0x6002 2 NoiType.octets 32 .wo Priv.factory
  , fwObj 0x6002 3 NoiType.octets 32 .wo Priv.factory
  , regObj 0x6003 0 NoiType.u8 Reg.SEC_ARB 0 7
  , fwObj 0x6004 0 NoiType.u8 1 .wo Priv.factory
  , fwObj 0x6100 1 NoiType.domain 4096 .wo Priv.observer
  , fwObj 0x6100 2 NoiType.domain 4096 .ro Priv.observer
  , fwObj 0x6101 0 NoiType.domain 8192 .rw Priv.factory
  , fwObj 0x6110 1 NoiType.domain 16384 .rw Priv.custodian
  , regObj 0x6200 0 NoiType.u32 Reg.SLU_STS 0 32
  , regObj 0x6200 1 NoiType.u32 Reg.SLU_INHCNT 0 32 ]

/-- Event recorder, calibration and test, firmware and microcode. -/
def recorderObjs : List NoiObj :=
  [ regObj 0x7001 0 NoiType.u32 Reg.EVR_LOGPOS 0 32
  , regObj 0x7002 0 NoiType.u32 Reg.EVR_NEXTSEQ 0 32
  , regObj 0x7003 0 NoiType.bool Reg.EVR_STS 1 1
  , regObj 0x7004 1 NoiType.u32 Reg.EVR_STGDROP 0 32
  , regObj 0x7004 2 NoiType.u32 Reg.EVR_FULLDROP 0 32
  , regObj 0x7004 3 NoiType.u32 Reg.EVR_TORN 0 32
  , regObj 0x7004 4 NoiType.u32 Reg.EVR_MIRFAIL 0 32
  , regObj 0x7005 0 NoiType.u32 Reg.EVR_CLRCNT 0 32
  , fwObj 0x7020 0 NoiType.domain 448 .wo Priv.custodian
  , regObj 0x7030 1 NoiType.u32 Reg.EVR_MIRPOSA 0 32
  , regObj 0x7030 2 NoiType.u32 Reg.EVR_MIRPOSB 0 32
  , fwObj 0x7101 0 NoiType.u8 1 .wo Priv.custodian ] ++
  ((List.range 65).map fun k => fwObj 0x7010 (k + 1) NoiType.domain 4194240 .ro Priv.observer) ++
  ((List.range 8).map fun n => fwObj 0x7100 (n + 1) NoiType.domain 0x228 .ro Priv.operator) ++
  [ fwObj 0x8000 0 NoiType.u8 1 .rwm Priv.operator
  , regObj 0x8001 0 NoiType.u8 Reg.CAL_RES 0 2
  , regObj 0x8002 0 NoiType.u32 Reg.CAL_COUNT 0 32
  , reg64Obj 0x8003 0 NoiType.time64 Reg.CAL_LASTTIME ] ++
  ((List.range 8).flatMap fun n =>
    [ regObj 0x8100 (n + 1) NoiType.u32 (Reg.TST_STS n) 0 32
    , regObj 0x8101 (n + 1) NoiType.u32 (Reg.TST_ERR n) 0 32 ]) ++
  [ regObj 0x9010 0 NoiType.u32 (Reg.TSQ_UCVER 0) 0 32 ]

/-- The object dictionary. -/
def objects : List NoiObj :=
  typeObjs ++ moduleObjs ++ networkObjs ++ mediaObjs ++ driveObjs ++ securityObjs ++ recorderObjs

/-- Object `i`:`j`. -/
def objectAt (i j : Nat) : Option NoiObj := objects.find? fun o => o.index == i && o.sub == j

/-- The engine serves the object itself (R280). -/
def NoiObj.inHardware (o : NoiObj) : Bool := o.hw.isSome && (o.acc == .const || o.acc == .ro)

/-! ## DOMAIN objects (R275, R284) -/

/-- The committed records of log slice `k` (object 0x7010), from position 26,214 × (k − 1). -/
def logSlice (s : State) (k : Nat) : List Nat :=
  let p := 26214 * (k - 1)
  nandBytes s (logAddr p) (160 * (min 26214 (getF s Reg.EVR_LOGPOS 0 21 - p)))

/-- The capture RAM of actuator `a` in logical order (object 0x3100). -/
def captureBytes (s : State) (a : Nat) : List Nat :=
  (List.range (getF s (Reg.SRV_CAPSTS a) 0 17)).flatMap fun i =>
    (List.range 4).flatMap fun k => leBytes 4 (captureWord s a i k)

/-- The SPDM response for a requester (R407). -/
def sameRequester (p q : Requester) : Bool :=
  if p.session.isSome || q.session.isSome then p.session == q.session else p.addr == q.addr && p.udp == q.udp

/-- The content of DOMAIN object `i`:`j`, as requester `who` reads it. -/
def domainContent (s : State) (who : Requester) (i j : Nat) : List Nat :=
  match i with
  | 0x3100 => captureBytes s (j - 1)
  | 0x6100 => ((s.noi.spdm.find? fun p => sameRequester p.1 who).map Prod.snd).getD []
  | 0x7010 => logSlice s j
  | 0x7100 => gaugeBytes s (j - 1)
  | 0x2322 => (List.range (planEntries s)).map (entryState s)
  | _ => domainBytes s (i, j)

/-- The content of a DOMAIN object is derived, and no segmented write sets it. -/
def domainDerived (i : Nat) : Bool :=
  i == 0x3100 || i == 0x6100 || i == 0x7010 || i == 0x7100 || i == 0x2322

/-- The generation of a DOMAIN object, never 0. That of a gauge is EVR_GGEN (R489); that of other derived
content is free. -/
def domainGen (s : State) (who : Requester) (i j : Nat) : Nat :=
  if i = 0x7100 then max 1 (rdN s Reg.EVR_GGEN)
  else if domainDerived i then 1 + (Config.generation i j (domainContent s who i j)).toNat % (2 ^ 32 - 1)
  else ((s.noi.domains.find? fun d => d.1 == (i, j)).map fun d => d.2.1).getD 1

/-- Change the Noile engine's state. -/
def modNoi (s : State) (f : NoiState → NoiState) : State := { s with noi := f s.noi }

/-- Set the content of a DOMAIN object; its generation changes. -/
def setDomain (i j : Nat) (bytes : List Nat) (s : State) : State :=
  let old := ((s.noi.domains.find? fun d => d.1 == (i, j)).map fun d => d.2.1).getD 1
  let gen := if old + 1 < 2 ^ 32 then old + 1 else 1
  modNoi s fun n => { n with domains := ((i, j), (gen, bytes)) :: n.domains.filter fun d => d.1 != (i, j) }

/-- Set the value of an object that no register holds. -/
def setObjectValue (i j : Nat) (bytes : List Nat) (s : State) : State :=
  modNoi s fun n => { n with values := ((i, j), bytes) :: n.values.filter fun v => v.1 != (i, j) }

/-! ## Values that firmware serves -/

/-- The record of subscription `h`, zero if unused. -/
def subRecord (s : State) (h : Nat) : List Nat :=
  ((s.noi.subs.find? fun x => x.handle == h).map NoiSub.record).getD (List.replicate 16 0)

/-- The value of a firmware-served object that is no DOMAIN. -/
def fwValue (s : State) (i j : Nat) : List Nat :=
  match i with
  | 0x0111 => objectValue s (i, j) [3]
  | 0x0181 => if j = 0 then [s.noi.subs.length] else subRecord s j
  | 0x1001 => leBytes 2 (getF s (Reg.ETH_ANADV (j - 1)) 0 16)
  | 0x1004 => leBytes 4 (rdN s (Reg.ETH_FOCFG (j - 1)))
  | 0x1005 => [getF s (Reg.ETH_CTL (j - 1)) 2 1]
  | 0x1006 => [getF s (Reg.ETH_PFC (j - 1)) 0 8]
  | 0x1020 => match j with
    | 1 => leBytes 2 (rdN s Reg.NOI_PORT)
    | 2 => leBytes 4 (rdN s Reg.NOI_NODE)
    | 3 => objectValue s (i, j) [3]
    | _ => objectValue s (i, j) (leBytes 2 600)
  | 0x1103 => [if s.nqe.authReq then 1 else 0]
  | 0x2201 => [getF s Reg.ZTB_WPSTS 1 2]
  | 0x2202 => [getF s Reg.SLU_PESLIM 0 8]
  | 0x2203 => if j = 1 then leBytes 2 (getF s Reg.ZTB_TVCFG 0 16) else [getF s Reg.ZTB_TVCFG 16 8]
  | 0x2300 => leBytes 4 (rdN s Reg.ZTB_PTCTL)
  | 0x2320 => objectValue s (i, j) (if j = 1 then List.replicate 18 0 else [])
  | 0x2323 => [streamWidth s]
  | 0x2324 =>
    if j = 1 then leBytes 4 ((List.range (planEntries s)).filter fun e => entryState s e == 2).length
    else leBytes 8 s.arc.bytes
  | 0x3003 => leBytes 4 ((s.srv.getD (j - 1) Srv.reset).skfails)
  | 0x5003 => [getF s Reg.THM_CTL 0 4]
  | 0x5006 => leBytes 4 (rdN s Reg.THM_I5LIM)
  | 0x8000 => objectValue s (i, j) [0]
  | _ => []

/-- The value of object `o`, as requester `who` reads it; of a DOMAIN its length and generation. -/
def NoiObj.value (o : NoiObj) (s : State) (who : Requester) : List Nat :=
  match o.hw with
  | some f => f s
  | none =>
    if o.type = NoiType.domain then
      leBytes 4 (domainContent s who o.index o.sub).length ++ leBytes 4 (domainGen s who o.index o.sub)
    else fwValue s o.index o.sub

/-! ## Ranges of written values (R274) -/

/-- A register takes the value `n` whole. -/
def regTakes (a n : Nat) : Bool :=
  match regRow a with
  | some r => r.ranges.all (rangeOk n) && n == Nat.land n r.wmask
  | none => false

/-- The record of a subscription is well formed (R290). -/
def subRecordOk (b : List Nat) : Bool :=
  let kind := b.getD 3 0
  let least := leNat ((b.drop 4).take 2)
  let period := leNat ((b.drop 6).take 2)
  decide (1 ≤ least) && (b.drop 8).all (· == 0)
    && ((kind == 0 && period == 0) || (kind == 1 && decide (least ≤ period)))

/-- The value written is in the object's range. -/
def valueOk (s : State) (who : Requester) (i j : Nat) (b : List Nat) : Bool :=
  let v := leNat b
  let within (lo hi : Nat) : Bool := decide (lo ≤ v ∧ v ≤ hi)
  match i with
  | 0x0111 => [3, 4, 5, 6, 9].contains v
  | 0x0112 => v == 1 || v == 2
  | 0x0180 =>
    if j = 1 then subRecordOk b
    else s.noi.subs.any fun x => x.handle == v && sameRequester x.who who
  | 0x1001 => regTakes (Reg.ETH_ANADV (j - 1)) v
  | 0x1004 => regTakes (Reg.ETH_FOCFG (j - 1)) v
  | 0x1005 => within 0 1
  | 0x1020 => match j with
    | 1 => within 1024 65535
    | 2 => within 0 0xFFFFE
    | 3 => within 1 3
    | _ => within 10 65535
  | 0x1103 => within 0 1
  | 0x2201 => within 0 2
  | 0x2202 => within 5 29 && decide (v ≤ getF s Reg.SLU_PESHARD 0 8)
  | 0x2203 => if j = 1 then within 500 65535 else within 4 255
  | 0x2300 => regTakes Reg.ZTB_PTCTL v
  | 0x2310 => decide (leNat (b.take 4) < 2 ^ 20 ∧ leNat ((b.drop 4).take 4) < 2 ^ 20
      ∧ leNat ((b.drop 8).take 2) < 2 ^ 12) && (b.drop 10).all (· == 0)
  | 0x2323 => if j = 0 then within 1 3 else within 1 32
  | 0x5003 => within 0 15
  | 0x5006 => !fpNonFinite v && decide (1 / 2 ≤ fpVal v ∧ fpVal v ≤ 2)
  | 0x6004 => within 0 3
  | 0x8000 => within 0 1
  | _ => true

/-! ## Contents of segmented writes (R285) -/

/-- Pieces of `n` bytes. -/
def pieces (n : Nat) (b : List Nat) : List (List Nat) :=
  (List.range (b.length / n)).map fun i => (b.drop (n * i)).take n

/-- The certificates that lie one after another in DER: tag 0x30 with a length of two bytes. -/
def derSplit : Nat → List Nat → Option (List (List Nat))
  | _, [] => some []
  | 0, _ => none
  | fuel + 1, b =>
    let n := 4 + 256 * b.getD 2 0 + b.getD 3 0
    if b.getD 0 0 = 0x30 ∧ b.getD 1 0 = 0x82 ∧ n ≤ b.length then
      (derSplit fuel (b.drop n)).map (b.take n :: ·)
    else none

/-- An entry of the address table is well formed (R302). -/
def addressOk (e : List Nat) : Bool :=
  decide (e.getD 16 0 ≤ 128 ∧ e.getD 17 0 ≤ 1 ∧ e.getD 18 0 < 16) && e.getD 19 0 == 0

/-- The content of a whole segmented write is in the object's range. -/
def contentOk (s : State) (i : Nat) (b : List Nat) : Bool :=
  match i with
  | 0x1003 => b.length % 20 == 0 && (pieces 20 b).all addressOk
  | 0x1021 => b.length % 17 == 0 && (pieces 17 b).all fun e => decide (e.getD 16 0 ≤ 128)
  | 0x1103 => (b.isEmpty || b.getLast? == some 0) && (nqnList b []).all fun n => decide (n.length ≤ 223)
  | 0x2321 => b.length % 16 == 0 && (pieces 16 b).all fun e => ((e.drop 4).take 4).all (· == 0)
  | 0x6110 => match derSplit 8 b with
    | some _ => true
    | none => false
  | 0x7020 => clearCheck s b == 0
  | _ => true

/-- The content is applied. -/
def contentApply (i j : Nat) (b : List Nat) (s : State) : State :=
  match i with
  | 0x2321 => modArc (setDomain i j b s) fun a => { a with states := [] }
  | 0x6101 => { setDomain i j b s with sec := { s.sec with chainWritten := true } }
  | 0x7020 => logClear b s
  | _ => setDomain i j b s

/-! ## Writes -/

/-! ### Error codes (R279) -/
namespace NoiErr
abbrev noObj : Nat := 0x1
abbrev noSub : Nat := 0x2
abbrev access : Nat := 0x3
abbrev priv : Nat := 0x4
abbrev mode : Nat := 0x5
abbrev type : Nat := 0x6
abbrev length : Nat := 0x7
abbrev range : Nat := 0x8
abbrev busy : Nat := 0x9
abbrev locked : Nat := 0xA
abbrev changed : Nat := 0xB
abbrev seq : Nat := 0xC
abbrev full : Nat := 0xD
abbrev internal : Nat := 0xE
abbrev reused : Nat := 0xF
end NoiErr

/-- An OTP request of an object: BUSY while one runs, and INTERNAL where it is refused. -/
def otpObject (f : State → State) (s : State) : Nat × State :=
  if s.sec.otp.isSome then (NoiErr.busy, s)
  else
    let t := f s
    (if t.sec.otp.isSome then 0 else NoiErr.internal, t)

/-- The hash that a write of KEYHASH brings, in SEC_KHDATA. -/
def loadKhData (b : List Nat) (s : State) : State :=
  modSec s fun x => { x with khData := (pieces 4 b).map fun w => BitVec.ofNat 32 (leNat w) }

/-- A write of calibration request `v` (R461). -/
def calObject (v : Nat) (s : State) : Nat × State :=
  let s := calGo (v.testBit 0) (setObjectValue 0x8000 0 [v] s)
  match getF s Reg.CAL_STS 4 3 with
  | 0 => (0, s)
  | 2 => (NoiErr.mode, s)
  | _ => (NoiErr.busy, s)

/-- A rewrap request: its registers, then GO (R497). -/
def rewrapObject (b : List Nat) (s : State) : Nat × State :=
  let s := setF s Reg.ZTB_RWSRC 0 20 (leNat (b.take 4))
  let s := wrN s Reg.ZTB_RWTGT (leNat ((b.drop 4).take 4) + 2 ^ 20 * leNat ((b.drop 8).take 2))
  let was := s.arc.rewrap.isSome
  let s := rewrapGo s
  (if was then NoiErr.busy else if s.arc.rewrap.isSome then 0 else NoiErr.range, s)

/-- What a WRITE does: an error code, 0 for success, and the state. -/
def objectWrite (i j : Nat) (b : List Nat) (s : State) : Nat × State :=
  let v := leNat b
  match i with
  | 0x0111 => (0, mreqWrite v (setObjectValue i j b s))
  | 0x1001 => (0, anadvWrite (j - 1) v s)
  | 0x1004 => (0, wrN s (Reg.ETH_FOCFG (j - 1)) v)
  | 0x1005 => (0, setF s (Reg.ETH_CTL (j - 1)) 2 1 v)
  | 0x1006 => (0, setF s (Reg.ETH_PFC (j - 1)) 0 8 v)
  | 0x1103 => (0, modNqe s fun n => { n with authReq := v != 0 })
  | 0x2201 => (0, if s.ztb.guardReq = v then s else wguardWrite v s)
  | 0x2202 => (0, peslimWrite v s)
  | 0x2203 => (0, if j = 1 then setF s Reg.ZTB_TVCFG 0 16 v else setF s Reg.ZTB_TVCFG 16 8 v)
  | 0x2300 => (0, wrN s Reg.ZTB_PTCTL v)
  | 0x2310 => rewrapObject b s
  | 0x2323 =>
    if j = 1 then (0, setObjectValue i j b s)
    else (0, if v = 1 then streamStart s else if v = 2 then streamPause s else streamAbort s)
  | 0x5003 => (0, ladder (setF s Reg.THM_CTL 0 4 v))
  | 0x5006 => (0, i5limWrite v s)
  | 0x6002 => otpObject (fun s => khProg j (loadKhData b s)) s
  | 0x6004 => otpObject (revCmd v) s
  | 0x7101 => (0, gaugeClear v s)
  | 0x8000 => calObject v s
  | _ => (0, setObjectValue i j b s)

/-- A READ would return the value written, so that the ACK may go out (R283). -/
def writeSettled (s : State) (i : Nat) (b : List Nat) : Bool :=
  i != 0x2201 || (getF s Reg.ZTB_WPSTS 1 2 == leNat b && !bit s Reg.ZTB_WPSTS 0)

/-- What a WRITE does after its ACK: the port and the node ID change, or a reset runs (R294, R432). -/
def objectAfter (i j : Nat) (b : List Nat) (s : State) : State :=
  let v := leNat b
  match i with
  | 0x0112 => if v = 2 then fullReset s else subsysReset RstKind.subsys s
  | 0x1020 => if j ≤ 2 then showNode s else s
  | _ => s

end Sys2Proof.Machine
end

