-- ==== Sys2Proof/Machine/Noile.lean ====
section
/-! DEFINITION. The Noile engine (chapter 9): messages and their checks, the service of requests by the
engine and by firmware, the reply cache, segmented transfers, sessions and subscriptions. -/

namespace Sys2Proof.Machine

/-! ### Operations (R271) -/
namespace NoiOp
abbrev read : Nat := 0x01
abbrev write : Nat := 0x02
abbrev readSeg : Nat := 0x03
abbrev writeSeg : Nat := 0x04
abbrev notify : Nat := 0x05
abbrev ack : Nat := 0x06
abbrev err : Nat := 0x07
end NoiOp

/-! ### FLAGS (R270) -/
namespace NoiFlag
abbrev sess : Nat := 1
abbrev resp : Nat := 2
abbrev first : Nat := 4
abbrev last : Nat := 8
abbrev inprog : Nat := 16
end NoiFlag

/-- The broadcast node ID (R268). -/
abbrev broadcastNode : Nat := 0xFFFFF

/-- NOI_STS shows the sessions, subscriptions and request slots in use. -/
def showNoi (s : State) : State :=
  let s := setF s Reg.NOI_STS 8 5 s.noi.sessions.length
  setF (setF s Reg.NOI_STS 16 8 s.noi.subs.length) Reg.NOI_STS 24 7 s.noi.slots.length

/-! ## Sessions (R287, R288) -/

/-- Session `n`. -/
def sessionAt (s : State) (n : Nat) : Option NoiSession := s.noi.sessions.find? fun x => x.id == n

/-- Session `n` ends, with its subscriptions and its segmented writes. -/
def endSession (n : Nat) (s : State) : State :=
  if (sessionAt s n).isNone then s else
  let s := modNoi s fun x =>
    { x with
      sessions := x.sessions.filter fun y => y.id != n
      subs := x.subs.filter fun y => y.who.session != some n
      xfers := x.xfers.filter fun y => y.who.session != some n }
  evt Reg.NOI_EVT 4 (showNoi s)

/-- The session takes a message of this SEQ: above every SEQ accepted, or within the 64 below the highest
and not accepted before. -/
def NoiSession.takes (x : NoiSession) (seq : Nat) : Bool :=
  decide (1 ≤ seq) && (decide (x.high < seq) || (decide (x.high ≤ seq + 64) && !x.seen.contains seq))

/-- The session has accepted a message of this SEQ. -/
def acceptSeq (n seq : Nat) (s : State) : State :=
  let s := modNoi s fun x => { x with sessions := x.sessions.map fun y =>
    if y.id = n then
      let high := max y.high seq
      { y with high := high, seen := (seq :: y.seen).filter fun q => decide (high ≤ q + 64), last := s.clock }
    else y }
  if 2 ^ 48 ≤ seq then endSession n s else s

/-- The next SEQ of a session, which is used up; outside sessions it is 0. -/
def takeSeq (who : Requester) (s : State) : Nat × State :=
  match who.session.bind (sessionAt s) with
  | none => (0, s)
  | some x =>
    let s := modNoi s fun n => { n with sessions := n.sessions.map fun y =>
      if y.id = x.id then { y with txSeq := y.txSeq + 1 } else y }
    (x.txSeq, if 2 ^ 48 ≤ x.txSeq then endSession x.id s else s)

/-! ## Sending (R266, R279) -/

/-- The Ethernet port on which a reply leaves: that of the request, or the other if it has failed. -/
def replyPort (s : State) (p : Nat) : Nat := if portFailed s p then 1 - p else p

/-- The header of a message (R270). -/
def NoiMessage.header (m : NoiMessage) : List Nat :=
  [1, m.op, m.flags, 0] ++ leBytes 4 m.dst ++ leBytes 4 m.src ++ leBytes 4 m.reqid ++ leBytes 2 m.index
    ++ [m.sub, m.type] ++ leBytes 4 m.offset ++ leBytes 2 m.payload.length ++ [0, 0]
    ++ leBytes 4 (m.who.session.getD 0) ++ leBytes 8 m.seq

/-- The nonce of a session message: the SESSION and SEQ fields of its header (R287). -/
def sessionNonce (header : List Nat) : List Nat := (header.drop 0x1C).take 12

/-- The UDP payload of a message, encrypted and with its tag under the key of its session. -/
def NoiMessage.encode (m : NoiMessage) (key : Option (List Nat)) : List Nat :=
  let h := m.header
  match key with
  | none => h ++ m.payload
  | some k =>
    let cipher := Crypto.gcmCrypt k (sessionNonce h) m.payload
    h ++ cipher ++ Crypto.gcmTag k (sessionNonce h) h cipher

/-- Send a message. -/
def sendNoi (m : NoiMessage) (s : State) : State :=
  let key := (m.who.session.bind (sessionAt s)).map NoiSession.keyOut
  let (seq, s) := takeSeq m.who s
  let m := { m with seq := seq, who := { m.who with port := replyPort s m.who.port } }
  let m := { m with wire := m.encode key }
  wrapInc (modNoi s fun n => { n with sent := n.sent ++ [m] }) Reg.NOI_TXCNT

/-- SESS of a message to a requester. -/
def sessFlag (who : Requester) : Nat := if who.session.isSome then NoiFlag.sess else 0

/-- A reply to a request. -/
def replyMessage (s : State) (r : NoiRequest) (op flags : Nat) (payload : List Nat) : NoiMessage where
  who := r.who
  op := op
  flags := sessFlag r.who + NoiFlag.resp + flags
  dst := r.src
  src := getF s Reg.NOI_NODE 0 20
  reqid := r.reqid
  index := r.index
  sub := r.sub
  type := r.type
  offset := r.offset
  seq := 0
  payload := payload
  wire := []

/-- An ERR reply. Only BUSY carries a retry-after time. -/
def errMessage (s : State) (r : NoiRequest) (code flags : Nat) : NoiMessage :=
  replyMessage s r NoiOp.err flags
    (leBytes 4 code ++ leBytes 4 (if code = NoiErr.busy then getF s Reg.NOI_RETRY 0 16 else 0))

/-- Send ERR BUSY, with INPROG or without. -/
def sendBusy (inprog : Bool) (r : NoiRequest) (s : State) : State :=
  sendNoi (errMessage s r NoiErr.busy (if inprog then NoiFlag.inprog else 0)) (satInc s Reg.NOI_BUSYCNT 32)

/-- The reply to a request that was served: `code` is 0 for success. -/
def servedReply (s : State) (r : NoiRequest) (code : Nat) (payload : List Nat) : NoiMessage :=
  if code ≠ 0 then errMessage s r code 0
  else if r.op = NoiOp.read then replyMessage s r NoiOp.read 0 payload
  else if r.op = NoiOp.readSeg then
    let whole := (domainContent s r.who r.index r.sub).length
    let last := decide (whole ≤ r.offset + (payload.length - 4))
    replyMessage s r NoiOp.readSeg (if last then NoiFlag.last else 0) payload
  else replyMessage s r NoiOp.ack 0 payload

/-! ## The reply cache (R282) -/

/-- The request is that of the cache entry, apart from SEQ and the way it came. -/
def sameRequest (p q : NoiRequest) : Bool :=
  { p with who := q.who } == q && sameRequester p.who q.who

/-- Entries of a requester after the 16 newest REQIDs of it leave the cache. -/
def trimCache (who : Requester) : Nat → List NoiCached → List NoiCached
  | _, [] => []
  | n, c :: l =>
    if !sameRequester c.req.who who then c :: trimCache who n l
    else match n with
      | 0 => trimCache who 0 l
      | k + 1 => c :: trimCache who k l

/-- Keep a reply, newest first; none while the request is in progress. -/
def remember (r : NoiRequest) (reply : Option NoiMessage) (s : State) : State :=
  modNoi s fun n =>
    let rest := n.cache.filter fun c => !(sameRequester c.req.who r.who && c.req.reqid == r.reqid)
    { n with cache := trimCache r.who 16 (⟨r, reply, s.clock⟩ :: rest) }

/-- Send a reply and keep it. -/
def answerWith (r : NoiRequest) (m : NoiMessage) (s : State) : State := sendNoi m (remember r (some m) s)

/-- Refuse a request with an error code. A BUSY reply is not kept: the request is to be sent again. -/
def refuse (r : NoiRequest) (code : Nat) (s : State) : State :=
  if code = NoiErr.busy then sendBusy false r s else answerWith r (errMessage s r code 0) s

/-- REPLY_CACHE_EXPIRY: replies sent 2 s ago leave the cache. -/
def cacheExpiry (s : State) : State :=
  modNoi s fun n =>
    { n with cache := n.cache.filter fun c => c.reply.isNone || decide (s.clock < c.clock + 2000000000) }

def execReplyCacheExpiry (s : State) : Host.Outcome State Fault Refusal := .next (cacheExpiry s)

/-! ## The checks of R278 -/

/-- The flag of the request. -/
def NoiRequest.has (r : NoiRequest) (f : Nat) : Bool := Nat.land r.flags f != 0

/-- The request writes. -/
def NoiRequest.isWrite (r : NoiRequest) : Bool := r.op == NoiOp.write || r.op == NoiOp.writeSeg

/-- The request is of segments. -/
def NoiRequest.segmented (r : NoiRequest) : Bool := r.op == NoiOp.readSeg || r.op == NoiOp.writeSeg

/-- The data of a WRITE_SEG: the first segment begins with TOTAL. -/
def segData (r : NoiRequest) : List Nat := if r.has NoiFlag.first then r.payload.drop 4 else r.payload

/-- The segmented write that is open on an object. -/
def xferAt (s : State) (i j : Nat) : Option NoiXfer := s.noi.xfers.find? fun x => x.index == i && x.sub == j

/-- TOTAL, and the data received before this segment. -/
def segSoFar (s : State) (r : NoiRequest) : Nat × List Nat :=
  if r.has NoiFlag.first then (leNat (r.payload.take 4), [])
  else match xferAt s r.index r.sub with
    | some x => (x.total, x.data)
    | none => (0, [])

/-- An RWM object may be written in this mode. -/
def rwmOpen (s : State) (i : Nat) : Bool :=
  if i = 0x8000 then
    mode s == Mode.standby || mode s == Mode.spinning || mode s == Mode.ready || mode s == Mode.active
  else s.arc.mode != .running

/-- Check 5: access and mode. -/
def accessCheck (s : State) (o : NoiObj) (r : NoiRequest) : Nat :=
  if r.isWrite then
    if o.acc == .const || o.acc == .ro || (o.index == 0x6101 && s.sec.chainWritten) then NoiErr.access
    else if o.acc == .rwm && !rwmOpen s o.index then NoiErr.mode
    else 0
  else if o.acc == .wo then NoiErr.access else 0

/-- The length that a WRITE_SEG must have (R285). A segment may not run past TOTAL. -/
def segLengthOk (s : State) (o : NoiObj) (r : NoiRequest) : Bool :=
  let first := r.has NoiFlag.first
  let (total, data) := segSoFar s r
  let n := data.length + (segData r).length
  decide ((segData r).length ≤ 1024) && (!first || decide (4 ≤ r.payload.length ∧ total ≤ o.size))
    && (!(first && o.index == 0x7020) || total == 448)
    && (first || r.offset != data.length || (if r.has NoiFlag.last then n == total else decide (n ≤ total)))
    && (!first || (if r.has NoiFlag.last then n == total else decide (n ≤ total)))

/-- Check 6: type and length. -/
def typeCheck (s : State) (o : NoiObj) (r : NoiRequest) : Nat :=
  let domain := o.type == NoiType.domain
  if r.type ≠ o.type ∨ (r.segmented = true ∧ domain = false) ∨ (r.op = NoiOp.write ∧ domain = true) then
    NoiErr.type
  else if r.op = NoiOp.read then (if r.len = 0 then 0 else NoiErr.length)
  else if r.op = NoiOp.write then
    if o.type = NoiType.string then (if r.len ≤ o.size then 0 else NoiErr.length)
    else if r.len = o.size then 0 else NoiErr.length
  else if r.op = NoiOp.readSeg then (if 1 ≤ r.len ∧ r.len ≤ 1024 then 0 else NoiErr.length)
  else if segLengthOk s o r then 0 else NoiErr.length

/-- Check 7: the rules of segments. -/
def segCheck (s : State) (r : NoiRequest) : Nat :=
  if r.op = NoiOp.readSeg then
    let g := leNat (r.payload.take 4)
    if g ≠ 0 ∧ g ≠ domainGen s r.who r.index r.sub then NoiErr.changed else 0
  else if r.op = NoiOp.writeSeg then
    match xferAt s r.index r.sub with
    | some x =>
      if !sameRequester x.who r.who then NoiErr.locked
      else if r.offset ≠ (if r.has NoiFlag.first then 0 else x.data.length) then NoiErr.seq
      else 0
    | none => if r.has NoiFlag.first ∧ r.offset = 0 then 0 else NoiErr.seq
  else 0

/-- Check 8: the range. -/
def rangeCheck (s : State) (o : NoiObj) (r : NoiRequest) : Nat :=
  let ok := if r.op = NoiOp.readSeg then decide (r.offset ≤ (domainContent s r.who r.index r.sub).length)
    else if r.op = NoiOp.writeSeg then
      !r.has NoiFlag.last || contentOk s r.index ((segSoFar s r).2 ++ segData r)
    else if r.op = NoiOp.write then
      !(o.type == NoiType.f32 && fpNonFinite (leNat r.payload)) && valueOk s r.who r.index r.sub r.payload
    else true
  if ok then 0 else NoiErr.range

/-- The first failure of checks 4 to 8. -/
def objectCheck (s : State) (o : NoiObj) (priv : Nat) (r : NoiRequest) : Nat :=
  if priv < o.priv then NoiErr.priv
  else if accessCheck s o r ≠ 0 then accessCheck s o r
  else if typeCheck s o r ≠ 0 then typeCheck s o r
  else if segCheck s r ≠ 0 then segCheck s r
  else rangeCheck s o r

/-- The index belongs to the drive maker: firmware answers it whole (R292). -/
def makerIndex (i : Nat) : Bool := decide (0xF000 ≤ i)

/-- The first failure of checks 3 to 8, 0 where there is none. -/
def noiCheck (s : State) (priv : Nat) (r : NoiRequest) : Nat :=
  if makerIndex r.index then 0 else
  match objectAt r.index r.sub with
  | some o => objectCheck s o priv r
  | none => if objects.any fun o => o.index == r.index then NoiErr.noSub else NoiErr.noObj

/-! ## Receiving (R265 to R272, R277, R281, R282, R288) -/

/-- A field of a datagram. -/
def hdr (b : List Nat) (o n : Nat) : Nat := leNat ((b.drop o).take n)

/-- Bytes that follow the header before the tag: a READ_SEG carries GEN, and its LEN is the length asked
for. -/
def payloadLength (b : List Nat) : Nat := if hdr b 1 1 = NoiOp.readSeg then 4 else hdr b 0x18 2

/-- The message is well formed (R272). -/
def wellFormed (b : List Nat) : Bool :=
  let sess := (hdr b 2 1).testBit 0
  let op := hdr b 1 1
  decide (40 ≤ b.length) && hdr b 0 1 == 1
    && b.length == 40 + payloadLength b + (if sess then 16 else 0) && decide (hdr b 0x18 2 ≤ 1176)
    && decide (hdr b 2 1 < 32) && hdr b 3 1 == 0 && decide (hdr b 4 4 < 2 ^ 20 ∧ hdr b 8 4 < 2 ^ 20)
    && hdr b 0x1A 2 == 0 && (sess || (hdr b 0x1C 4 == 0 && hdr b 0x20 8 == 0))
    && [NoiOp.read, NoiOp.write, NoiOp.readSeg, NoiOp.writeSeg, NoiOp.ack].contains op
    && (op == NoiOp.readSeg || op == NoiOp.writeSeg || hdr b 0x14 4 == 0)

/-- The request in a well-formed datagram. -/
def requestOf (who : Requester) (b : List Nat) : NoiRequest where
  who := who
  op := hdr b 1 1
  flags := hdr b 2 1
  src := hdr b 8 4
  reqid := hdr b 0x0C 4
  index := hdr b 0x10 2
  sub := hdr b 0x12 1
  type := hdr b 0x13 1
  offset := hdr b 0x14 4
  len := hdr b 0x18 2
  payload := (b.drop 40).take (payloadLength b)

/-- The source address is IPv4. -/
def ipv4 (a : Nat) : Bool := a / 2 ^ 32 == 0xFFFF

/-- Object 0x1020:03 lets the family of the address carry Noile. -/
def familyOk (s : State) (a : Nat) : Bool := ((fwValue s 0x1020 3).getD 0 0).testBit (if ipv4 a then 0 else 1)

/-- The address lies in the operator address list. -/
def operatorAddress (s : State) (a : Nat) : Bool :=
  (pieces 17 (domainBytes s (0x1021, 0))).any fun e =>
    a / 2 ^ (128 - e.getD 16 0) == beNat (e.take 16) / 2 ^ (128 - e.getD 16 0)

/-- The privilege of a message (R277). -/
def messagePriv (s : State) (who : Requester) : Nat :=
  match who.session.bind (sessionAt s) with
  | some x => x.priv
  | none => if operatorAddress s who.addr then Priv.operator else Priv.observer

/-- A message is dropped and counted in NOI_DROPCNT. -/
def dropNoi (s : State) : State := satInc s Reg.NOI_DROPCNT 32

/-- SRAM offset of a request slot. -/
def slotAddr (s : State) (k : Nat) : Nat := rdN s Reg.NOI_RQBASE + 2560 * k

/-- The request is passed to firmware through a free slot. -/
def passToFirmware (r : NoiRequest) (priv : Nat) (bytes : List Nat) (s : State) : State :=
  match (List.range 64).find? fun k => s.noi.slots.all fun x => x.slot != k with
  | none => sendBusy false r (evt Reg.NOI_EVT 1 s)
  | some k =>
    let s := sramPutBytes s (slotAddr s k) bytes
    evt Reg.NOI_EVT 0 (showNoi (modNoi s fun n =>
      { n with slots := n.slots ++ [⟨k, r, priv, s.clock, false, false⟩], fwq := n.fwq ++ [k] }))

/-- The object is one that the engine serves. -/
def hardwareServed (r : NoiRequest) : Bool :=
  match objectAt r.index r.sub with
  | some o => o.inHardware
  | none => false

/-- The service of a request that has passed its checks. In SAFE-HOLD with the cores held firmware answers
nothing; in UPDATE, and while the cluster restarts, it is busy (R281, R402). -/
def serve (r : NoiRequest) (priv : Nat) (bytes : List Nat) (s : State) : State :=
  if hardwareServed r then
    let v := ((objectAt r.index r.sub).map fun o => o.value s r.who).getD []
    answerWith r (replyMessage s r NoiOp.read 0 v) s
  else if s.sys.coresHeld && mode s == Mode.safeHold then refuse r NoiErr.internal s
  else if !fwServes s then sendBusy false r s
  else passToFirmware r priv bytes s

/-- A request that is in a slot and has had no answer yet. -/
def pendingSlot (s : State) (r : NoiRequest) : Option NoiSlot :=
  s.noi.slots.find? fun x => !x.late && sameRequester x.req.who r.who && x.req.reqid == r.reqid

/-- Take a request: a repeated one gets its cached reply, and takes effect once. One that repeats a request
still in its slot waits for that answer. -/
def takeNoi (r : NoiRequest) (priv : Nat) (bytes : List Nat) (s : State) : State :=
  match s.noi.cache.find? fun c => sameRequester c.req.who r.who && c.req.reqid == r.reqid with
  | some c =>
    if !sameRequest r c.req then sendNoi (errMessage s r NoiErr.reused 0) s
    else match c.reply with
      | some m => sendNoi { m with who := r.who } s
      | none => sendBusy true r s
  | none =>
    match pendingSlot s r with
    | some x => if sameRequest r x.req then s else sendNoi (errMessage s r NoiErr.reused 0) s
    | none =>
      let e := noiCheck s priv r
      if e ≠ 0 then refuse r e s else serve r priv bytes s

/-- A broadcast READ: its reply waits. -/
def takeBroadcast (r : NoiRequest) (priv : Nat) (s : State) : State :=
  let e := noiCheck s priv r
  let v := ((objectAt r.index r.sub).map fun o => o.value s r.who).getD []
  let m := if e ≠ 0 then errMessage s r e 0 else replyMessage s r NoiOp.read 0 v
  modNoi s fun n => { n with broadcast := n.broadcast ++ [m] }

/-- An ACK ends the wait of the NOTIFY that it names, or is dropped. -/
def takeAck (r : NoiRequest) (s : State) : State :=
  let hit (x : NoiSub) : Bool := sameRequester x.who r.who && (x.await.map Prod.fst) == some r.reqid
  if s.noi.subs.any hit then
    wrapInc (modNoi s fun n =>
      { n with subs := n.subs.map fun x => if hit x then { x with await := none } else x }) Reg.NOI_RXCNT
  else dropNoi s

/-- A message whose session and tag stand, or that has none. -/
def accepted (r : NoiRequest) (priv : Nat) (broadcast : Bool) (bytes : List Nat) (s : State) : State :=
  if r.op = NoiOp.ack then takeAck r s
  else
    let s := wrapInc s Reg.NOI_RXCNT
    if broadcast then takeBroadcast r priv s else takeNoi r priv bytes s

/-- A session message is dropped (R288). -/
def tagDrop (s : State) : State := evt Reg.NOI_EVT 2 (satInc s Reg.NOI_TAGFAIL 32)

/-- The requester of a datagram. -/
def datagramFrom (d : NoiDatagram) (b : List Nat) : Requester :=
  ⟨if (hdr b 2 1).testBit 0 then some (hdr b 0x1C 4) else none, d.addr.toNat, d.udp.toNat, d.port⟩

/-- The tag of a session message passes under the session's key (R287). -/
def tagPasses (x : NoiSession) (b : List Nat) : Bool :=
  let h := b.take 40
  let n := b.length - 56
  Crypto.gcmTag x.keyIn (sessionNonce h) h ((b.drop 40).take n) == b.drop (40 + n)

/-- A session message with its payload in plaintext. -/
def openMessage (x : NoiSession) (b : List Nat) : List Nat :=
  let n := b.length - 56
  b.take 40 ++ Crypto.gcmCrypt x.keyIn (sessionNonce b) ((b.drop 40).take n) ++ b.drop (40 + n)

/-- NOILE_MESSAGE. -/
def receiveNoi (d : NoiDatagram) (s : State) : State :=
  let b := d.bytes.map BitVec.toNat
  if !bit s Reg.NOI_CTL 0 || mode s == Mode.fill || mode s == Mode.boot || !familyOk s d.addr.toNat then s
  else if d.fragmented || decide (1232 < b.length) || !wellFormed b then dropNoi s
  else
    let who := datagramFrom d b
    let r := requestOf who b
    let broadcast := hdr b 4 4 == broadcastNode
    if !broadcast && hdr b 4 4 != getF s Reg.NOI_NODE 0 20 then dropNoi s
    else if broadcast && (r.op != NoiOp.read || who.session.isSome) then dropNoi s
    else match who.session with
      | none => accepted r (messagePriv s who) broadcast b s
      | some n =>
        match sessionAt s n with
        | none => tagDrop s
        | some x =>
          if !tagPasses x b || !x.takes (hdr b 0x20 8) then tagDrop s
          else
            let p := openMessage x b
            accepted (requestOf who p) x.priv broadcast p (acceptSeq n (hdr b 0x20 8) s)

def execNoileMessage (datagram : NoiDatagram) (s : State) : Host.Outcome State Fault Refusal :=
  .next (receiveNoi datagram s)

/-- ACK: a message of operation ACK. -/
def receiveAck (d : NoiDatagram) (s : State) : State :=
  if hdr (d.bytes.map BitVec.toNat) 1 1 = NoiOp.ack then receiveNoi d s else s

def execNoiAck (datagram : NoiDatagram) (s : State) : Host.Outcome State Fault Refusal :=
  .next (receiveAck datagram s)

/-- BROADCAST_REPLY: a waiting reply goes out. -/
def broadcastReply (k : Nat) (s : State) : State :=
  match s.noi.broadcast[k]? with
  | some m => sendNoi m (modNoi s fun n => { n with broadcast := n.broadcast.eraseIdx k })
  | none => s

def execBroadcastReply (reply : Nat) (s : State) : Host.Outcome State Fault Refusal :=
  .next (broadcastReply reply s)

/-! ## Request slots (R281, R295) -/

/-- Request slot `k` in use. -/
def noiSlot (s : State) (k : Nat) : Option NoiSlot := s.noi.slots.find? fun x => x.slot == k

/-- Request slot `k` is free again. -/
def freeNoiSlot (k : Nat) (s : State) : State :=
  showNoi (modNoi s fun n =>
    { n with slots := n.slots.filter fun x => x.slot != k, fwq := n.fwq.filter (· != k) })

/-- FWQ_POP: a read of NOI_FWQ. -/
def fwqPop (s : State) : State :=
  match s.noi.fwq with
  | [] => answer 0 s
  | k :: l => answer (k + 2 ^ 31) (modNoi s fun n =>
      { n with fwq := l, slots := n.slots.map fun x => if x.slot = k then { x with popped := true } else x })

def execFwqPop (s : State) : Host.Outcome State Fault Refusal := .next (fwqPop s)

/-- FW_DEADLINE of slot `k`: NOI_FWTMO has passed since the request arrived. -/
def fwDeadline (k : Nat) (s : State) : State :=
  match noiSlot s k with
  | none => s
  | some x =>
    if x.late || decide (s.clock < x.arrived + 1000 * getF s Reg.NOI_FWTMO 0 10) then s
    else if x.popped then
      let s := modNoi s fun n =>
        { n with slots := n.slots.map fun y => if y.slot = k then { y with late := true } else y }
      sendBusy true x.req (remember x.req none s)
    else sendBusy false x.req (freeNoiSlot k s)

def execFwDeadline (slot : Fin 64) (s : State) : Host.Outcome State Fault Refusal :=
  .next (fwDeadline slot s)

/-- The reply payload in a slot. -/
def slotPayload (s : State) (k : Nat) : List Nat :=
  sramBytes s (slotAddr s k + 1282) (sram16 s (slotAddr s k + 1280))

/-- Firmware posts the reply of slot `k` with an error code: it is sent, or after the deadline cached. A
BUSY reply in time is not kept. -/
def fwReply (k code : Nat) (s : State) : State :=
  match noiSlot s k with
  | none => s
  | some x =>
    if !x.popped then s else
    let m := servedReply s x.req code (slotPayload s k)
    let s := freeNoiSlot k s
    if x.late then evt Reg.NOI_EVT 5 (remember x.req (some m) s)
    else if code = NoiErr.busy then sendBusy false x.req s
    else answerWith x.req m s

/-- FWRSP: a write to NOI_FWRSP. -/
def execFwrsp (value : Word) (s : State) : Host.Outcome State Fault Refusal :=
  .next (busOk (fwReply (bitsOf value.toNat 0 6) (bitsOf value.toNat 8 16) s))

/-- Firmware writes a reply into slot `k` and posts it. -/
def fwAnswer (k code : Nat) (payload : List Nat) (s : State) : State :=
  let a := slotAddr s k
  fwReply k code (sramPutBytes (sramPut16 s (a + 1280) payload.length) (a + 1282) payload)

/-- `f` serves the popped request in slot `k`, if `p` holds of it. A request that no longer passes its
checks gets the error; a drive-maker object that firmware does not serve NOOBJ (R292). -/
def fwServe (p : NoiRequest → Bool) (k : Nat) (f : NoiSlot → State → State) (s : State) : State :=
  match noiSlot s k with
  | none => s
  | some x =>
    if !x.popped || !p x.req || !fwServes s then s
    else if makerIndex x.req.index then fwAnswer k NoiErr.noObj [] s
    else
      let e := noiCheck s x.priv x.req
      if e ≠ 0 then fwAnswer k e [] s else f x s

/-! ## READ and WRITE (R283) -/

/-- Capture runs on the actuator whose capture object is read (R191). -/
def captureBusy (s : State) (r : NoiRequest) : Bool :=
  r.index == 0x3100 && bit s (Reg.SRV_CAPCTL (r.sub - 1)) 26

/-- NOILE_READ: firmware returns the value of an object. -/
def fwRead (k : Nat) (x : NoiSlot) (s : State) : State :=
  if captureBusy s x.req then fwAnswer k NoiErr.busy [] s
  else fwAnswer k 0 (((objectAt x.req.index x.req.sub).map fun o => o.value s x.req.who).getD []) s

def execNoileRead (slot : Fin 64) (s : State) : Host.Outcome State Fault Refusal :=
  .next (fwServe (fun r => r.op == NoiOp.read) slot (fwRead slot) s)

/-- The object is Subscribe or Unsubscribe. -/
def subscribes (r : NoiRequest) : Bool := r.index == 0x0180

/-- NOILE_WRITE: firmware writes an object. Its ACK waits until a READ would return the value. -/
def fwWrite (k : Nat) (x : NoiSlot) (s : State) : State :=
  let r := x.req
  let (code, s) := objectWrite r.index r.sub r.payload s
  if code ≠ 0 then fwAnswer k code [] s
  else if writeSettled s r.index r.payload then
    objectAfter r.index r.sub r.payload (fwAnswer k 0 [] s)
  else s

def execNoileWrite (slot : Fin 64) (s : State) : Host.Outcome State Fault Refusal :=
  .next (fwServe (fun r => r.op == NoiOp.write && !subscribes r) slot (fwWrite slot) s)

/-! ## Segments (R284 to R286) -/

/-- READ_SEG: the generation, and at most LEN bytes from OFFSET. -/
def fwReadSeg (k : Nat) (x : NoiSlot) (s : State) : State :=
  let r := x.req
  if captureBusy s r then fwAnswer k NoiErr.busy [] s
  else
    let b := domainContent s r.who r.index r.sub
    fwAnswer k 0 (leBytes 4 (domainGen s r.who r.index r.sub) ++ (b.drop r.offset).take r.len) s

def execReadSeg (slot : Fin 64) (s : State) : Host.Outcome State Fault Refusal :=
  .next (fwServe (fun r => r.op == NoiOp.readSeg) slot (fwReadSeg slot) s)

/-- The segmented write of an object is over. -/
def closeXfer (i j : Nat) (s : State) : State :=
  modNoi s fun n => { n with xfers := n.xfers.filter fun x => !(x.index == i && x.sub == j) }

/-- A segment that is not the last joins its transfer. -/
def keepSegment (r : NoiRequest) (s : State) : State :=
  let (total, data) := segSoFar s r
  modNoi (closeXfer r.index r.sub s) fun n =>
    { n with xfers := n.xfers ++ [⟨r.who, r.index, r.sub, total, data ++ segData r, s.clock⟩] }

/-- The whole content of a segmented write, with its last segment. -/
def wholeContent (s : State) (r : NoiRequest) : List Nat := (segSoFar s r).2 ++ segData r

/-- The last segment of an object that takes more than its content: an SPDM request, the address table. -/
def ownRow (r : NoiRequest) : Bool := r.has NoiFlag.last && (r.index == 0x6100 || r.index == 0x1003)

/-- WRITE_SEG: a segment joins, or the last one applies the whole content. -/
def fwWriteSeg (k : Nat) (x : NoiSlot) (s : State) : State :=
  let r := x.req
  if r.has NoiFlag.last then
    let b := wholeContent s r
    fwAnswer k 0 [] (contentApply r.index r.sub b (closeXfer r.index r.sub s))
  else fwAnswer k 0 [] (keepSegment r s)

def execWriteSeg (slot : Fin 64) (s : State) : Host.Outcome State Fault Refusal :=
  .next (fwServe (fun r => r.op == NoiOp.writeSeg && !ownRow r) slot (fwWriteSeg slot) s)

/-- SEGMENT_TIMEOUT: a transfer with no segment for 2 s is given up. -/
def segmentTimeout (i j : Nat) (s : State) : State :=
  match xferAt s i j with
  | some x => if x.clock + 2000000000 ≤ s.clock then closeXfer i j s else s
  | none => s

def execSegmentTimeout (index : BitVec 16) (sub : Byte) (s : State) : Host.Outcome State Fault Refusal :=
  .next (segmentTimeout index.toNat sub.toNat s)

/-- The whole write of the request in a slot is that of object `i`. -/
def lastOf (i : Nat) (r : NoiRequest) : Bool := r.op == NoiOp.writeSeg && r.has NoiFlag.last && r.index == i

/-- The connections of an association on addresses that the table does not hold close; its end follows that of
its admin connection (R302). A link-local address is in no table. -/
def closeRemoved (old new : List (List Nat)) (x : Assoc) (s : State) : State :=
  let gone (c : Conn) : Bool := old.contains (pathOctets c.path) && !new.contains (pathOctets c.path)
  if x.conns.any fun c => c.queue == 0 && gone c then resetAssoc x.id true s
  else (x.conns.filter gone).foldl (fun s c => dropQueue x.id c.queue s) s

/-- ADDRESS_TABLE_WRITE: the table is applied whole, and connections on addresses that it removes
close (R302). -/
def tableWrite (k : Nat) (x : NoiSlot) (s : State) : State :=
  let r := x.req
  let old := (addressTable s).map (·.take 16)
  let s := contentApply r.index r.sub (wholeContent s r) (closeXfer r.index r.sub s)
  let new := (addressTable s).map (·.take 16)
  let s := s.nqe.assocs.foldl (fun s x => closeRemoved old new x s) s
  fwAnswer k 0 [] s

def execAddressTableWrite (slot : Fin 64) (s : State) : Host.Outcome State Fault Refusal :=
  .next (fwServe (lastOf 0x1003) slot (tableWrite slot) s)

/-! ## SPDM (R407, R408, R289) -/

/-- The privilege of a session whose requester's chain has this root. -/
def rootPriv (s : State) (root : Nat) (cert : List Nat) : Nat :=
  if (List.range 4).any fun n => keyValid s n && keyHash s n == root then Priv.factory
  else if ((derSplit 8 (domainBytes s (0x6110, 1))).getD []).contains cert then Priv.custodian
  else Priv.observer

/-- A session forms. -/
def formSession (f : SpdmSession) (s : State) : State :=
  let priv := rootPriv s f.rootKey.toNat (f.rootCert.map BitVec.toNat)
  showNoi (modNoi s fun n =>
    { n with sessions := n.sessions ++
        [⟨f.id.toNat, priv, 0, [], 1, s.clock, beBytes 32 f.requestKey.toNat, beBytes 32 f.responseKey.toNat⟩] })

/-- SPDM_REQUEST: the response becomes readable at 0x6100:02 for the same requester. A session request
beyond 16 fails with FULL. -/
def spdm (k : Nat) (response : List Nat) (formed : Option SpdmSession) (ended : Bool) (x : NoiSlot)
    (s : State) : State :=
  let r := x.req
  let s := closeXfer r.index r.sub s
  if formed.isSome && (decide (16 ≤ s.noi.sessions.length)
      || (formed.any fun f => (sessionAt s f.id.toNat).isSome)) then fwAnswer k NoiErr.full [] s
  else
    let s := modNoi s fun n =>
      { n with spdm := (r.who, response.take 4096) :: n.spdm.filter fun p => !sameRequester p.1 r.who }
    let s := match formed with
      | some f => formSession f s
      | none => s
    let s := fwAnswer k 0 [] s
    match r.who.session with
    | some n => if ended then endSession n s else s
    | none => s

def execSpdmRequest (slot : Fin 64) (response : List Byte) (formed : Option SpdmSession) (ended : Bool)
    (s : State) : Host.Outcome State Fault Refusal :=
  .next (fwServe (lastOf 0x6100) slot (spdm slot (response.map BitVec.toNat) formed ended) s)

/-- SESSION_IDLE: no message has come in the session for the time of object 0x1020:04. -/
def sessionIdle (n : Nat) (s : State) : State :=
  match sessionAt s n with
  | some x => if x.last + 1000000000 * leNat (fwValue s 0x1020 4) ≤ s.clock then endSession n s else s
  | none => s

def execSessionIdle (session : Word) (s : State) : Host.Outcome State Fault Refusal :=
  .next (sessionIdle session.toNat s)

/-! ## Subscriptions (R290, R291) -/

/-- The object, KIND, MININT and PERIOD of a record. -/
def subIndex (b : List Nat) : Nat := leNat (b.take 2)
def subSub (b : List Nat) : Nat := b.getD 2 0
def subKind (b : List Nat) : Nat := b.getD 3 0
def subLeast (b : List Nat) : Nat := leNat ((b.drop 4).take 2)
def subPeriod (b : List Nat) : Nat := leNat ((b.drop 6).take 2)

/-- The object of a subscription. -/
def NoiSub.object (x : NoiSub) : Option NoiObj := objectAt (subIndex x.record) (subSub x.record)

/-- The value of the object of a subscription. -/
def NoiSub.now (x : NoiSub) (s : State) : List Nat := (x.object.map fun o => o.value s x.who).getD []

/-- The failure of a subscription to an object. -/
def subCheck (s : State) (priv : Nat) (b : List Nat) : Nat :=
  match objectAt (subIndex b) (subSub b) with
  | none => if objects.any fun o => o.index == subIndex b then NoiErr.noSub else NoiErr.noObj
  | some o =>
    if priv < o.priv then NoiErr.priv
    else if o.acc == .wo || o.type == NoiType.domain then NoiErr.access
    else if 255 ≤ s.noi.subs.length then NoiErr.full
    else 0

/-- SUBSCRIBE: the ACK carries the handle, the lowest that is free. -/
def subscribe (k : Nat) (x : NoiSlot) (s : State) : State :=
  let r := x.req
  let e := subCheck s x.priv r.payload
  if e ≠ 0 then fwAnswer k e [] s else
  let h := (((List.range 255).find? fun i => s.noi.subs.all fun y => y.handle != i + 1).getD 0) + 1
  let sub : NoiSub := ⟨h, r.who, r.src, r.payload, [], none, none, false⟩
  let sub := { sub with value := sub.now s, last := if subKind r.payload = 1 then some s.clock else none }
  fwAnswer k 0 [h] (showNoi (modNoi s fun n => { n with subs := n.subs ++ [sub] }))

def execSubscribe (slot : Fin 64) (s : State) : Host.Outcome State Fault Refusal :=
  .next (fwServe (fun r => r.op == NoiOp.write && subscribes r && r.sub == 1) slot (subscribe slot) s)

/-- A subscription ends. -/
def dropSub (h : Nat) (s : State) : State :=
  showNoi (modNoi s fun n => { n with subs := n.subs.filter fun x => x.handle != h })

/-- UNSUBSCRIBE. -/
def unsubscribe (k : Nat) (x : NoiSlot) (s : State) : State :=
  fwAnswer k 0 [] (dropSub (leNat x.req.payload) s)

def execUnsubscribe (slot : Fin 64) (s : State) : Host.Outcome State Fault Refusal :=
  .next (fwServe (fun r => r.op == NoiOp.write && subscribes r && r.sub == 2) slot (unsubscribe slot) s)

/-- Change subscription `h`. -/
def modSub (h : Nat) (f : NoiSub → NoiSub) (s : State) : State :=
  modNoi s fun n => { n with subs := n.subs.map fun x => if x.handle = h then f x else x }

/-- Subscription `h`. -/
def subAt (s : State) (h : Nat) : Option NoiSub := s.noi.subs.find? fun x => x.handle == h

/-- The engine sends messages: it is enabled, outside FILL and BOOT. -/
def noiRuns (s : State) : Bool := bit s Reg.NOI_CTL 0 && mode s != Mode.fill && mode s != Mode.boot

/-- The NOTIFY of subscription `x` with a REQID. -/
def notifyMessage (s : State) (x : NoiSub) (reqid : Nat) : NoiMessage where
  who := x.who
  op := NoiOp.notify
  flags := sessFlag x.who
  dst := x.node
  src := getF s Reg.NOI_NODE 0 20
  reqid := reqid
  index := subIndex x.record
  sub := subSub x.record
  type := (x.object.map NoiObj.type).getD 0
  offset := 0
  seq := 0
  payload := x.value
  wire := []

/-- A NOTIFY is due: a periodic interval has passed, or the value differs from the one last notified. -/
def notifyDue (s : State) (x : NoiSub) : Bool :=
  let since (ms : Nat) : Bool := match x.last with
    | some c => decide (c + 1000000 * ms ≤ s.clock)
    | none => true
  let hw := (x.object.map NoiObj.inHardware).getD false
  x.await.isNone && since (subLeast x.record) &&
    (if subKind x.record = 1 then since (subPeriod x.record)
     else (hw || x.changed) && x.now s != x.value)

/-- NOTIFY of subscription `h`. -/
def notify (h : Nat) (s : State) : State :=
  match subAt s h with
  | none => s
  | some x =>
    if !noiRuns s || !notifyDue s x then s else
    let id := s.noi.nextReq
    let x := { x with value := x.now s, last := some s.clock, await := some (id, s.clock, 0), changed := false }
    let s := modNoi (modSub h (fun _ => x) s) fun n => { n with nextReq := (id + 1) % 2 ^ 32 }
    sendNoi (notifyMessage s x id) s

def execNotify (handle : Byte) (s : State) : Host.Outcome State Fault Refusal := .next (notify handle.toNat s)

/-- NOTIFY_RESEND: 100 ms have passed without an ACK; after three resends the subscription is
deleted. -/
def notifyResend (h : Nat) (s : State) : State :=
  match subAt s h with
  | none => s
  | some x =>
    match x.await with
    | none => s
    | some (id, c, n) =>
      if !noiRuns s || decide (s.clock < c + 100000000) then s
      else if 3 ≤ n then evt Reg.NOI_EVT 3 (dropSub h s)
      else sendNoi (notifyMessage s x id) (modSub h (fun y => { y with await := some (id, s.clock, n + 1) }) s)

def execNotifyResend (handle : Byte) (s : State) : Host.Outcome State Fault Refusal :=
  .next (notifyResend handle.toNat s)

/-- One subscription under NTFY: marked changed when the object firmware names is its own and the
value differs from the one last notified. -/
def NoiSub.ntfy (v : Nat) (s : State) (x : NoiSub) : NoiSub :=
  if subIndex x.record = bitsOf v 0 16 ∧ subSub x.record = bitsOf v 16 8 then
    { x with changed := x.changed || x.now s != x.value } else x

/-- NTFY: firmware names an object that has changed; its value is compared with the ones last
notified. -/
def ntfy (v : Nat) (s : State) : State :=
  modNoi s fun n => { n with subs := n.subs.map (NoiSub.ntfy v s) }

def execNtfy (value : Word) (s : State) : Host.Outcome State Fault Refusal :=
  .next (busOk (ntfy value.toNat s))

end Sys2Proof.Machine
end

