-- ==== Sys2Proof/Machine/Spindle.lean ====
section
/-! DEFINITION. The spindle drive and the Weir (chapter 7): crossings, loss and return of
synchronism, starts, commands and the arbiter of the current command. -/

namespace Sys2Proof.Machine

/-! ## Failures (R208, R211) -/

/-- SPN_STS.FAILS. -/
def spnFails (s : State) : Nat := getF s Reg.SPN_STS 14 2

/-- Count a failure. The third brakes and holds the spindle and enters SAFE-HOLD; the answer says
whether it was the third. -/
def countFail (s : State) : Bool × State :=
  let n := min 3 (spnFails s + 1)
  let s := satInc (setF s Reg.SPN_STS 14 2 n) Reg.SPN_RFCNT 32
  if n < 3 then (false, s)
  else
    let s := evt Reg.SPN_EVT 9 (setBit s Reg.SPN_CTL 0 false)
    (true, safeHold ShCause.spindle (brakeStop .held s))

/-- Brake to a stop and start again. -/
def restart (s : State) : State := brake .start (beginStart s)

/-- Count a failure; below three, brake and start again. -/
def failAndRestart (s : State) : State :=
  match countFail s with
  | (true, s) => s
  | (false, s) => restart s

/-- A start fails (R211). -/
def startFails (s : State) : State := failAndRestart (evt Reg.SPN_EVT 3 s)

/-- A request's step fails with the start it waits for (R423). -/
def failStart (s : State) : State :=
  let s := startFails s
  if s.sys.step = some Mode.spinning ∧ mode s = Mode.standby then stepFailed s else s

/-! ## Loss of synchronism (R200, R203, R205, R206) -/

/-- The angle clock is LOCKED or in HOLDOVER. -/
def angleHeld (s : State) : Bool := angState s == angLocked || angState s == angHoldover

/-- The pole pairs. -/
def polePairs (s : State) : Nat := getF s Reg.SPN_MOT 0 4

/-- The servo-derived electrical angle, in units of 2^22 per electrical period (R202). -/
def servoAngle (s : State) : Nat :=
  polePairs s * (angNow s + ticksPerRev - getF s Reg.SPN_MOFF 0 22) % ticksPerRev

/-- The commutation step of the servo-derived angle. -/
def servoStep (s : State) : Nat := servoAngle s * 6 / ticksPerRev

/-- The ns of one electrical period at a speed in rpm; open at speed 0 (log entry 4). -/
def elecPeriod (s : State) (v : Rat) : Rat :=
  if v * (polePairs s : Rat) = 0 then Config.freeRat s.draws else 60000000000 / (v * (polePairs s : Rat))

/-- Commutation from the servo angle (R203 steps 1 and 2): the observer takes its speed from ANG_PERIOD and
its phase from the servo-derived angle, by which the last crossing lies 30 degrees before the last
commutation. -/
def servoCommutate (s : State) : State :=
  let per := rdN s Reg.ANG_PERIOD
  let v := if per = 0 then s.spn.est else 60000000000 / ((per : Nat) : Rat)
  let s := modSpn s fun p =>
    { p with
      bad := 0, good := 0, est := v, reinit := some s.ang.incs, obsFailed := false
      step := servoStep s, lead := elecPeriod s v / 12 }
  setPhase SpnPhase.servoComm s

/-- SPINNING becomes STANDBY when synchronism is lost with heads unloaded (R422). -/
def spinningLost (s : State) : State :=
  if mode s = Mode.spinning then
    let s := enterMode Mode.standby s
    if s.sys.target.isSome then stepFailed s else s
  else s

/-- Loss of synchronism is declared. -/
def lossOfSync (s : State) : State :=
  let s := setSync false (modSpn s fun p => { p with bad := 0 })
  let s := satInc (evt Reg.SPN_EVT 0 s) Reg.SPN_LOSCNT 32
  if angleHeld s && bit s Reg.SPN_MOFF 31 && bit s Reg.SPN_CTL 1 then servoCommutate s
  else if loaded s 0 || loaded s 1 then servoAngleLost s
  else spinningLost (reacquire s)

/-- Count a crossing as implausible or not (R199, R200). -/
def judgeCrossing (bad : Bool) (s : State) : State :=
  let n := if bad then s.spn.bad + 1 else 0
  let s := modSpn s fun p => { p with bad := n }
  if n < 3 then s else lossOfSync s

/-! ## Crossings (R198, R199, R202, R203, R210) -/

/-- The speed of an interval of `dt` ns between crossings, in rpm (R199). -/
def crossingSpeed (s : State) (dt : Rat) : Rat := 10000000000 / ((polePairs s : Rat) * dt)

/-- Set the time from the last crossing to the last commutation. -/
def setLead (q : Rat) (s : State) : State := modSpn s fun p => { p with lead := q }

/-- Report a speed estimate in SPN_SPEED, with the direction. -/
def showSpeed (v : Rat) (back : Bool) (s : State) : State :=
  let s := setBit (modSpn s fun p => { p with est := v }) Reg.SPN_STS 9 back
  wrN s Reg.SPN_SPEED (min (2 ^ 20 - 1) (v * 64).floor.toNat + (if back then 2 ^ 31 else 0))

/-- The commanded speed of open loop at this clock, in rpm: it rises by OLRATE (R210). -/
def openSpeed (s : State) (clock : Nat) : Rat :=
  match s.spn.rampStart with
  | some c => ((10 * getF s Reg.SPN_START 16 8 * (clock - c) : Nat) : Rat) / 1000000000
  | none => 0

/-- The speed estimate that times the observer: before the first crossing of an open loop its commanded
speed. -/
def presentSpeed (s : State) : Rat :=
  if spnPhase s = SpnPhase.openLoop ∧ s.spn.est = 0 then openSpeed s s.clock else s.spn.est

/-- The electrical period on the present estimate. -/
def presentPeriod (s : State) : Rat := elecPeriod s (presentSpeed s)

/-- The back-EMF of a sample pair: the on-state sample against half the bus voltage, less the off-state
sample against ground (R196). -/
def backEmf (p : BemfPair) : Rat := fpVal p.on.toNat - fpVal p.bus.toNat / 2 - fpVal p.off.toNat

/-- The instant, in ns since the last commutation, at which the line through two samples of different signs
crosses zero (R198). -/
def crossingInstant (p q : BemfPair) : Option Rat :=
  let a := backEmf p
  let b := backEmf q
  let t : Rat := (p.at_.toNat : Rat)
  let u : Rat := (q.at_.toNat : Rat)
  if (a < 0 ∧ 0 ≤ b) ∨ (0 ≤ a ∧ b < 0) then some (t + (u - t) * a / (a - b)) else none

/-- The samples lie where the observer watches: after BLANK degrees of demagnetisation, and before the sector
ends (R198). -/
def watched (s : State) (p q : BemfPair) : Bool :=
  let per := presentPeriod s
  decide (per * ((getF s Reg.SPN_OBS 8 5 : Nat) : Rat) / 360 ≤ (p.at_.toNat : Rat)
    ∧ p.at_.toNat < q.at_.toNat ∧ (q.at_.toNat : Rat) ≤ per / 6)

/-- The test of R199 on the window: a crossing `t` ns into its sector lies more than 15 degrees outside it. The
expected crossing lies 30 degrees into the sector. -/
def outsideWindow (s : State) (t : Rat) : Bool :=
  let per := presentPeriod s
  decide (((getF s Reg.SPN_OBS 0 5 + 15 : Nat) : Rat) * per < 360 * ratAbs (t - per / 12))

/-- The time from a crossing, `t` ns into its sector, to the next commutation: 30 degrees less ADV at the
estimate while the observer commutates (R193), else the rest of the sector. -/
def commDelay (s : State) (t : Rat) : Rat :=
  if spnPhase s = SpnPhase.run then
    (30 - ((getF s Reg.SPN_COMM 0 7 : Nat) : Rat) / 4) * presentPeriod s / 360
  else presentPeriod s / 6 - t

/-! ### PWM (R195 to R197) -/

/-- The PWM period in ns. -/
abbrev pwmNs : Nat := 25000

/-- SPN_DUTY as a fraction, and its pattern. -/
def dutyNow (s : State) : Rat := ((getF s Reg.SPN_DUTY 0 10 : Nat) : Rat) / 1000
def patternNow (s : State) : Nat := getF s Reg.SPN_DUTY 12 2

/-- The high side's on-state in a period of duty `d`, from and to, in ns after the period's start. Of a pair
of alternating periods, on-states that join are right-aligned first, and off-states that join left-aligned
first. -/
def onState (pattern : Nat) (d : Rat) (second : Bool) : Rat × Rat :=
  let t : Rat := (pwmNs : Rat)
  let left := (0, d * t)
  let right := ((1 - d) * t, t)
  match pattern with
  | 0 => ((1 - d) * t / 2, (1 + d) * t / 2)
  | 1 => left
  | 2 => if second then left else right
  | _ => if second then right else left

/-- The length of the on-state span and of an off-state span of a pattern. -/
def onSpan (pattern : Nat) (d : Rat) : Rat :=
  (if 2 ≤ pattern then 2 * d else d) * (pwmNs : Rat)
def offSpan (pattern : Nat) (d : Rat) : Rat :=
  (if pattern = 0 then (1 - d) / 2 else if pattern = 3 then 2 * (1 - d) else 1 - d) * (pwmNs : Rat)

/-- A span holds a quiet window: 1.5 µs after 0.5 µs of settling (R196). -/
def quietIn (span : Rat) : Bool := decide (2000 ≤ span)

/-- The observer takes sample pairs: the period has a quiet window of each state. At duty 0 both driven legs
are off, and no sample is taken. -/
def sampling (s : State) : Bool :=
  dutyNow s != 0 && quietIn (onSpan (patternNow s) (dutyNow s)) && quietIn (offSpan (patternNow s) (dutyNow s))

/-- A sample pair is taken in this period: in an alternating pattern one in two periods. -/
def pairNow (s : State) : Bool := sampling s && (decide (patternNow s < 2) || s.spn.alt)

/-- Learn MOFF from a crossing in commutation step `k` (R202): the angle that the crossing, 30 degrees into its
sector, implies for electrical zero, and 1/64 of the difference to it. -/
def learnMoff (s : State) : State :=
  if spnPhase s ≠ SpnPhase.run ∨ spnSync s = false ∨ angState s ≠ angLocked then s else
  let per : Rat := (ticksPerRev : Rat) / ((getF s Reg.SPN_MOT 0 4 : Nat) : Rat)
  let implied : Rat := ((angNow s : Nat) : Rat) - (((2 * s.spn.step + 1 : Nat)) : Rat) * per / 12
  let d := implied - s.spn.moff
  let d := d - per * (((d / per + 1 / 2).floor : Int) : Rat)
  let m := s.spn.moff + d / 64
  let m := m - (ticksPerRev : Rat) * (((m / (ticksPerRev : Rat)).floor : Int) : Rat)
  let n := s.spn.learned + 1
  let s := modSpn s fun p => { p with moff := m, learned := n }
  wrN s Reg.SPN_MOFF (m.floor.toNat + (if 64 ≤ n ∨ bit s Reg.SPN_MOFF 31 = true then 2 ^ 31 else 0))

/-- A good crossing in SERVOCOMM: REACQ of them in a row return commutation to the observer. -/
def reacquired (s : State) : State :=
  let n := s.spn.good + 1
  let s := modSpn s fun p => { p with good := n }
  if getF s Reg.SPN_OBS 16 4 ≤ n then setPhase SpnPhase.run s else s

/-- A crossing in OPENLOOP: at 300 rpm, six good ones in a row hand over (R210). -/
def handOver (bad : Bool) (s : State) : State :=
  let n := if bad then 0 else s.spn.good + 1
  let s := modSpn s fun p => { p with good := n }
  if 6 ≤ n ∧ 300 ≤ openSpeed s s.clock then
    setSync true (setPhase SpnPhase.run (modSpn s fun p => { p with bad := 0 }))
  else s

/-- A crossing `t` ns into its sector. Gauge 3 samples each crossing in synchronism. -/
def crossingAt (t : Rat) (s : State) : State :=
  let v := crossingSpeed s (s.spn.lead + t)
  let old := presentSpeed s
  let far := outsideWindow s t
  let bad := far || decide (old * 2 / 100 < ratAbs (v - old))
  let ph := spnPhase s
  let s := showSpeed v (bit s Reg.SPN_STS 9) s
  let s := setLead (commDelay s t) s
  let s := if spnSync s then
      gauge 3 ((getF s Reg.SPN_SPEED 0 20 : Nat) - (64 * getF s Reg.SPN_TGT 0 14 : Nat) : Int) s else s
  let s := if ph = SpnPhase.run then learnMoff (judgeCrossing bad s)
    else if ph = SpnPhase.servoComm then
      judgeCrossing bad (if bad then modSpn s fun p => { p with good := 0 } else reacquired s)
    else if ph = SpnPhase.openLoop then handOver far s
    else s
  updateAttgt s

/-- The bridge commutates, and the observer watches its floating phase. -/
def commutating (s : State) : Bool :=
  spnPhase s == SpnPhase.openLoop || spnPhase s == SpnPhase.run || spnPhase s == SpnPhase.servoComm

/-- BEMF_CROSSING: two consecutive samples in the watched part of the sector, whose signs differ. -/
def bemfCrossing (p q : BemfPair) (s : State) : State :=
  match crossingInstant p q with
  | some t =>
    if commutating s && sampling s && watched s p q && decide (0 < (polePairs s : Rat) * (s.spn.lead + t)) then
      crossingAt t s
    else s
  | none => s

def execBemfCrossing (first second : BemfPair) (s : State) : Host.Outcome State Fault Refusal :=
  .next (bemfCrossing first second s)

/-- The bridge advances one commutation step, or takes the step of the servo-derived angle where that
commutates (R193, R203). -/
def commutate (s : State) : State :=
  if spnPhase s = SpnPhase.servoComm then modSpn s fun p => { p with step := servoStep s }
  else if spnPhase s = SpnPhase.openLoop ∨ spnPhase s = SpnPhase.run then
    modSpn s fun p => { p with step := (p.step + 1) % 6 }
  else s

/-- MISSED_CROSSING: a sector ends with no crossing, and the drive commutates at the expected instant (R198).
The servo angle commutates by itself. -/
def missedCrossing (s : State) : State :=
  let ph := spnPhase s
  let s := if commutating s then
      setLead (s.spn.lead + presentPeriod s / 12 + commDelay s (presentPeriod s / 12)) s else s
  let s := if ph = SpnPhase.servoComm then s else commutate s
  if ph = SpnPhase.run ∨ ph = SpnPhase.servoComm then
    judgeCrossing true (modSpn s fun p => { p with good := 0 })
  else if ph = SpnPhase.openLoop then modSpn s fun p => { p with good := 0 }
  else s

def execMissedCrossing (s : State) : Host.Outcome State Fault Refusal := .next (missedCrossing s)

def execCommutate (s : State) : Host.Outcome State Fault Refusal := .next (commutate s)

/-- OBSFAIL: SRVMAX revolutions pass after the re-initialisation without a return; it is counted once for each
(R204). -/
def obsFail (s : State) : State :=
  match s.spn.reinit with
  | some r =>
    if s.spn.obsFailed then s else
    let s := advanceTo (r + 2 ^ 22 * getF s Reg.SPN_OBS 24 4) s
    if spnCsrc s then
      (countFail (evt Reg.SPN_EVT 6 (modSpn s fun p => { p with obsFailed := true }))).2
    else s
  | none => s

def execObsfail (s : State) : Host.Outcome State Fault Refusal := .next (obsFail s)

/-- RACQOK: one revolution after the re-initialisation, with commutation from the observer
(R203 step 5). -/
def racqOk (s : State) : State :=
  match s.spn.reinit with
  | some r =>
    if spnPhase s = SpnPhase.run ∧ spnSync s = false then
      let s := advanceTo (r + 2 ^ 22) s
      if spnPhase s = SpnPhase.run then
        updateAttgt (evt Reg.SPN_EVT 1 (setSync true (modSpn s fun p => { p with reinit := none })))
      else s
    else s
  | none => s

def execRacqok (s : State) : Host.Outcome State Fault Refusal := .next (racqOk s)

/-! ## Comparator edges (R206, R209, R417) -/

/-- The Sluice's own measurement of speed `v` (R417). -/
def sluSpeed (v : Rat) (s : State) : State :=
  let lim : Rat := ((getF s Reg.SLU_SPNMAX 0 14 : Nat) : Rat)
  if lim < v then
    sluAll (evt Reg.SLU_EVT 7 (setBit s Reg.SLU_STS 3 true))
  else if v < lim * 99 / 100 then sluAll (setBit s Reg.SLU_STS 3 false)
  else s

/-- The edge continues the run: same order, interval within 2%, position within 15 degrees. -/
def edgeConsistent (s : State) (back : Bool) (dt pos : Nat) : Bool :=
  match s.spn.interval with
  | none => false
  | some i =>
    back == s.spn.back && decide ((if i ≤ dt then dt - i else i - dt) * 100 ≤ 2 * i) && decide (pos ≤ 1500)

/-- Six consistent edges reacquire the motor (R206). The judgement proceeds as a RUN (R207), whose start begins
with it. -/
def reacqEdge (back : Bool) (v : Rat) (s : State) : State :=
  if 6 ≤ s.spn.good then judge back v (beginStart (evt Reg.SPN_EVT 1 s)) else s

/-- COMPARATOR_EDGE: `dt` ns after the previous edge. -/
def comparatorEdge (back : Bool) (dt pos : Nat) (s : State) : State :=
  if getF s Reg.SPN_MOT 0 4 * dt = 0 then s else
  let v := crossingSpeed s dt
  let s := sluSpeed v s
  let ph := spnPhase s
  if ph = SpnPhase.observe ∨ ph = SpnPhase.reacq ∨ ph = SpnPhase.brake ∨ ph = SpnPhase.coast then
    let good := if edgeConsistent s back dt pos then s.spn.good + 1 else 0
    let s := modSpn s fun p =>
      { p with good := good, edges := p.edges + 1, back := back, interval := some dt, edgeClock := s.clock }
    let s := showSpeed v back s
    updateAttgt (if ph = SpnPhase.reacq then reacqEdge back v s else s)
  else s

def execComparatorEdge (back : Bool) (dt : Word) (position : BitVec 16) (s : State) :
    Host.Outcome State Fault Refusal :=
  .next (comparatorEdge back dt.toNat position.toNat s)

/-- `ns` have passed since PHASE was entered. -/
def phaseOver (s : State) (ns : Rat) : Bool := decide ((s.spn.phaseClock : Rat) + ns ≤ (s.clock : Rat))

/-- RACQFAIL: sixteen electrical periods pass in REACQ (R206). -/
def racqFail (s : State) : State :=
  if spnPhase s = SpnPhase.reacq ∧ phaseOver s (16 * elecPeriod s s.spn.est) = true then
    failAndRestart (evt Reg.SPN_EVT 2 s)
  else s

def execRacqfail (s : State) : Host.Outcome State Fault Refusal := .next (racqFail s)

/-! ## Starts (R209 to R211) -/

/-- OBSERVE_END: the judgement of R209. -/
def observeEnd (s : State) : State :=
  if spnPhase s ≠ SpnPhase.observe then s
  else if s.spn.edges = 0 then (if phaseOver s 20000000 then align s else s)
  else if 12 ≤ s.spn.good then judge s.spn.back s.spn.est s
  else brake .start s

def execObserveEnd (s : State) : Host.Outcome State Fault Refusal := .next (observeEnd s)

/-- ALIGN_END: after ALIGNT open-loop commutation begins. -/
def alignEnd (s : State) : State :=
  if spnPhase s = SpnPhase.align ∧ phaseOver s ((10000000 * getF s Reg.SPN_START 0 8 : Nat) : Rat) = true then
    modSpn (setPhase SpnPhase.openLoop s) fun p => { p with good := 0, rampStart := some s.clock, lead := 0 }
  else s

def execAlignEnd (s : State) : Host.Outcome State Fault Refusal := .next (alignEnd s)

/-- HANDOVER_TIMEOUT: 1 s after 300 rpm without a hand-over. -/
def handoverTimeout (s : State) : State :=
  if spnPhase s ≠ SpnPhase.openLoop ∨ s.clock < 1000000000 ∨ openSpeed s (s.clock - 1000000000) < 300 then s
  else if 1 ≤ s.spn.misses then failStart s
  else brake .start (modSpn s fun p => { p with misses := p.misses + 1 })

def execHandoverTimeout (s : State) : Host.Outcome State Fault Refusal := .next (handoverTimeout s)

/-- STARTFAIL: SUMAX passes after the RUN without synchronism at SPN_TGT. -/
def startfail (s : State) : State :=
  match s.spn.runClock with
  | some c => if c + 100000000 * getF s Reg.SPN_START 24 8 ≤ s.clock then failStart s else s
  | none => s

def execStartfail (s : State) : Host.Outcome State Fault Refusal := .next (startfail s)

/-- FAILS_CLEAR: 60 s synchronised at the target. -/
def failsClear (s : State) : State :=
  match s.spn.goodSince with
  | some c =>
    if spnSync s && bit s Reg.SPN_STS 11 && decide (c + 60000000000 ≤ s.clock) then setF s Reg.SPN_STS 14 2 0 else s
  | none => s

def execFailsClear (s : State) : Host.Outcome State Fault Refusal := .next (failsClear s)

/-! ## Commands (R213) -/

/-- RUN, STOP and COAST by their code in SPN_CMD; while EN = 0 a write is ignored. -/
def spnCommand (op : Nat) (s : State) : State :=
  match op with
  | 1 => updateAttgt (runCommand s).2
  | 2 => if bit s Reg.SPN_CTL 0 then brakeStop .stopped s else s
  | 3 => if bit s Reg.SPN_CTL 0 then coast s else s
  | _ => s

def execSpnRun (s : State) : Host.Outcome State Fault Refusal := .next (busOk (spnCommand 1 s))
def execSpnStop (s : State) : Host.Outcome State Fault Refusal := .next (busOk (spnCommand 2 s))
def execSpnCoast (s : State) : Host.Outcome State Fault Refusal := .next (busOk (spnCommand 3 s))

/-- BRAKE_QUIET: no edge for 20 ms, so the motor stands still. -/
def brakeQuiet (s : State) : State :=
  if spnPhase s = SpnPhase.brake ∧ s.spn.edgeClock + 20000000 ≤ s.clock then
    updateAttgt (showSpeed 0 false (setPhase SpnPhase.hold s))
  else s

def execBrakeQuiet (s : State) : Host.Outcome State Fault Refusal := .next (brakeQuiet s)

/-- STOPPED: the end of HOLDT. A start goes on with alignment, and a held spindle stays held. -/
def holdEnd (s : State) : State :=
  if spnPhase s ≠ SpnPhase.hold ∨ phaseOver s ((10000000 * getF s Reg.SPN_BRK 24 8 : Nat) : Rat) = false then s
  else match s.spn.after with
    | .stopped => evt Reg.SPN_EVT 7 (setPhase SpnPhase.stopped s)
    | .start => align s
    | .held => s

def execSpnStopped (s : State) : Host.Outcome State Fault Refusal := .next (holdEnd s)

/-- TGT_WRITE: 5,400 to 10,000 rpm. -/
def tgtWrite (v : Nat) (s : State) : State :=
  let w := bitsOf v 0 14
  if 5400 ≤ w ∧ w ≤ 10000 then updateAttgt (wrN s Reg.SPN_TGT w) else evt Reg.SPN_EVT 10 s

def execTgtWrite (value : Word) (s : State) : Host.Outcome State Fault Refusal :=
  .next (busOk (tgtWrite value.toNat s))

/-! ## The Weir (R215 to R220) -/

/-- DISBRK: while braking is demanded, the regeneration limit has stayed below REGMIN for REGT (R215). -/
def dissipate (s : State) : State :=
  if s.spn.demand && !bit s Reg.SPN_STS 10 && decide (4 * getF s Reg.SPN_BRK 16 8 ≤ s.spn.below) then
    evt Reg.SPN_EVT 4 (setBit (setBit s Reg.SPN_STS 10 true) Reg.WEIR_STS 3 true)
  else s

def execDisbrk (s : State) : Host.Outcome State Fault Refusal := .next (dissipate s)

/-- The PWM period in seconds. -/
def pwmPeriod : Rat := 1 / 40000

/-- Keep `x` between 0 and `m`. -/
def clampPos (m x : Rat) : Rat := if x < 0 then 0 else if m < x then m else x

/-- The candidate of least value; on a tie the lowest code, which stands first. -/
def leastOf : List (Nat × Rat) → Nat × Rat
  | [] => (0, 0)
  | [c] => c
  | c :: l =>
    let d := leastOf l
    if c.2 ≤ d.2 then c else d

/-- The bridge may drive: SPN_CTL.EN, and the braking of a spindle that is held (R208, R213). -/
def bridgeOn (s : State) : Bool := bit s Reg.SPN_CTL 0 || s.spn.after == .held

/-- The bridge applies the Weir's output now. -/
def weirApplied (s : State) : Bool := spnDriven (spnPhase s) && bridgeOn s

/-- The demand of the speed loop and any injection, before its clamp (R216, R218); while braking to
a stop the demand is full braking (log entry 33), and while the bridge does not apply the Weir's output the
speed loop demands nothing (log entry 34). -/
def speedDemand (s : State) : Rat :=
  if !weirApplied s then s.spn.inject
  else if spnPhase s = SpnPhase.brake then -(rdF s Reg.WEIR_ILIM)
  else
    rdF s Reg.SPN_SKP * (((spnTarget s : Nat) : Rat) - spnSpeed s) + s.spn.integ + s.spn.inject

/-- The candidates of a demand `d` (R217). -/
def candidates (s : State) (d limI limV : Rat) : List (Nat × Rat) :=
  let th := rdF s Reg.WEIR_THLIM
  if 0 ≤ d then
    let ramp := match s.spn.rampStart with
      | some c =>
        if bit s Reg.WEIR_CTL 0 then
          [(4, rdF s Reg.WEIR_RAMPI0 + rdF s Reg.WEIR_RAMPR * (((s.clock - c : Nat)) : Rat) / 1000000000)]
        else []
      | none => []
    [(0, d), (1, th), (2, limI)] ++ ramp
  else if bit s Reg.SPN_STS 10 then
    [(0, -d), (1, th), (3, ((2 * getF s Reg.SPN_BRK 0 8 : Nat) : Rat) / 100)]
  else [(0, -d), (1, th), (3, limV)]

/-- The duty that the bridge applies for a demanded duty, and the pattern (R197). -/
def pwmDuty (d : Rat) : Rat × Nat :=
  if d ≤ 0 then (0, 0)
  else
    let d := if d < 4 / 100 then 4 / 100 else if 96 / 100 < d then 96 / 100 else d
    (d, if d < 8 / 100 then 2 else if d ≤ 84 / 100 then 0 else if d ≤ 92 / 100 then 1 else 3)

/-- Motoring is forced to zero duty: overspeed (R417), or limits that are not locked (R409). -/
def motoringOff (s : State) : Bool :=
  bit s Reg.SLU_STS 3 || !bit s Reg.SLU_LOCK 0 || !bit s Reg.SEC_STS 5

/-- The current loop's duty for a current command `cmd` at phase current `i` (R194, R197). -/
def applyDuty (cmd i : Rat) (s : State) : State :=
  let e := ratAbs cmd - ratAbs i
  let g := s.spn.ckInteg + rdF s Reg.SPN_CKI * e * pwmPeriod
  let d := if 0 < cmd ∧ motoringOff s = true then 0 else rdF s Reg.SPN_CKP * e + g
  let (d, p) := pwmDuty d
  let s := modSpn s fun n => { n with ckInteg := g }
  setF (setF (setF s Reg.SPN_DUTY 0 10 (d * 1000).floor.toNat) Reg.SPN_DUTY 12 2 p) Reg.SPN_STS 12 2 p

/-- The Weir computes one output (R217 to R219). The integrator of the speed loop moves while the bridge applies
the output and SPEED wins. -/
def weirOutput (s : State) : State :=
  let ilim := rdF s Reg.WEIR_ILIM
  let d := clampSym ilim (speedDemand s)
  let limI := clampPos ilim (s.spn.limI + rdF s Reg.WEIR_KIIN * (rdF s Reg.WEIR_IINLIM - rdF s Reg.WEIR_I12) * pwmPeriod)
  let limV := clampPos ilim (s.spn.limV + rdF s Reg.WEIR_KV * (rdF s Reg.WEIR_VREG - rdF s Reg.WEIR_V12) * pwmPeriod)
  let s := if 0 ≤ d then endDissipative s else s
  let cands := candidates s d limI limV
  let (win, least) := leastOf cands
  let out := if 0 ≤ d then least else -least
  let low := decide (d < 0) && decide (limV < ((getF s Reg.SPN_BRK 8 8 : Nat) : Rat) / 100)
  let err := ((spnTarget s : Nat) : Rat) - spnSpeed s
  let s := modSpn s fun n =>
    { n with
      limI := limI
      limV := limV
      below := if low then n.below + 1 else 0
      demand := decide (d < 0)
      integ := if win = 0 ∧ weirApplied s = true ∧ spnPhase s ≠ SpnPhase.brake then n.integ + rdF s Reg.SPN_SKI * err * pwmPeriod else n.integ
      govReq := if win = 2 then n.govReq + 1 else n.govReq }
  let s := wrapInc (wrN (wrFp s Reg.WEIR_OUT out) Reg.WEIR_WIN win) (Reg.WEIR_WCNT win)
  let s := setBit (setBit s Reg.WEIR_STS 0 (win == 2)) Reg.WEIR_STS 1 (decide (out < 0))
  setBit s Reg.WEIR_STS 2 (cands.any fun c => c.1 == 4)

/-- The duty of the period that starts: for the Weir's output while the bridge applies it, for ALIGNI in ALIGN,
and otherwise none. -/
def periodDuty (i : Rat) (s : State) : State :=
  if weirApplied s then applyDuty (rdF s Reg.WEIR_OUT) i s
  else if spnPhase s = SpnPhase.align ∧ bridgeOn s = true then
    applyDuty (((2 * getF s Reg.SPN_START 8 8 : Nat) : Rat) / 100) i s
  else setF (wrN s Reg.SPN_DUTY 0) Reg.SPN_STS 12 2 0

/-- A PWM period begins: its on-state is whole, and in an alternating pattern it is the other of its pair. -/
def newPeriod (s : State) : State :=
  modSpn s fun p => { p with cut := false, alt := decide (2 ≤ patternNow s) && !p.alt }

/-- WEIR_SAMPLE: the start of a PWM period. The Weir computes in every one (R216). -/
def weirSample (v12 i12 iph : Nat) (s : State) : State :=
  let s := wrN (wrN (wrN s Reg.WEIR_V12 v12) Reg.WEIR_I12 i12) Reg.SPN_IPH iph
  newPeriod (periodDuty (fpVal iph) (weirOutput s))

def execWeirSample (v12 i12 iph : Word) (s : State) : Host.Outcome State Fault Refusal :=
  .next (weirSample v12.toNat i12.toNat iph.toNat s)

/-- ILIMPK: a phase current reaches 3.0 A, and the on-state of this period ends; each period is counted once
(R194). -/
def ilimpk (s : State) : State :=
  if getF s Reg.SPN_DUTY 0 10 = 0 ∨ s.spn.cut = true then s
  else evt Reg.SPN_EVT 12 (satInc (modSpn s fun p => { p with cut := true }) Reg.SPN_PKCNT 32)

def execIlimpk (s : State) : Host.Outcome State Fault Refusal := .next (ilimpk s)

/-! ## The bridge (R193, R206, R213, R215) -/

/-- What a leg of the bridge does: both switches off, PWM of the high side, the low side on, or PWM of the low
side. -/
inductive Leg where
  | off
  | pwm
  | low
  | lowPwm
  deriving DecidableEq, Repr

/-- The phases driven high and held low in a commutation step; the third floats. R193 gives no order of the
phases: DESIGN CHOICE (log entry 35). -/
def stepPhases (k : Nat) : Nat × Nat :=
  match k % 6 with
  | 0 => (0, 1)
  | 1 => (0, 2)
  | 2 => (1, 2)
  | 3 => (1, 0)
  | 4 => (2, 0)
  | _ => (2, 1)

/-- The floating phase of a commutation step. -/
def floatingPhase (k : Nat) : Nat := 3 - (stepPhases k).1 - (stepPhases k).2

/-- The bridge's three legs: low sides shorted in HOLD, all low sides modulated in dissipative braking, one
phase driven high and one held low while it commutates or aligns, and else tri-stated. After a current peak
the driven leg rests low to the end of its period. -/
def bridgeLegs (s : State) : List Leg :=
  if !bridgeOn s then List.replicate 3 .off
  else if spnPhase s = SpnPhase.hold then List.replicate 3 .low
  else if bit s Reg.SPN_STS 10 then List.replicate 3 .lowPwm
  else if (spnDriven (spnPhase s) || spnPhase s == SpnPhase.align) && getF s Reg.SPN_DUTY 0 10 != 0 then
    let (h, l) := stepPhases s.spn.step
    (List.range 3).map fun k => if k = h then (if s.spn.cut then .low else .pwm) else if k = l then .low else .off
  else List.replicate 3 .off

/-- The registers of R220 with their ranges: offset, least, most, and whether the least is excluded. -/
def weirLimits : List (Nat × Rat × Rat × Bool) :=
  [(Reg.WEIR_ILIM, fpVal 0x3DCCCCCD, 2, false), (Reg.WEIR_IINLIM, 1 / 2, 3, false),
   (Reg.WEIR_VREG, 12, fpVal 0x414E6666, false), (Reg.WEIR_RAMPI0, 0, 2, false),
   (Reg.WEIR_RAMPR, 0, 100, true), (Reg.WEIR_KIIN, 0, 10000, true), (Reg.WEIR_KV, 0, 10000, true)]

/-- A write to a Weir limit or gain (R220). -/
def weirWrite (k v : Nat) (s : State) : State :=
  match weirLimits[k]? with
  | none => s
  | some (a, lo, hi, ex) =>
    let x := fpVal v
    if !fpNonFinite v && decide (lo ≤ x) && decide (x ≤ hi) && !(ex && decide (x = lo)) then wrN s a v
    else evt Reg.WEIR_EVT 0 s

def execWeirLimitWrite (reg : Fin 7) (value : Word) (s : State) : Host.Outcome State Fault Refusal :=
  .next (busOk (weirWrite reg value.toNat s))

end Sys2Proof.Machine
end

