-- ==== Sys2Proof/Machine/Bus.lean ====
section
/-! DEFINITION. REGISTER_WRITE: a core write to the register space (R7 to R10, R540, R544), one
definition per register block. A register that has an effect of its own takes it through the same
operation as the command that is named for it. -/

namespace Sys2Proof.Machine

/-- Apply `f` when `c` holds. -/
def whenDo (c : Bool) (f : State → State) (s : State) : State := if c then f s else s

/-- Keep bits `lo` on, `w` wide, of register `a` in a value to be written. -/
def keepField (s : State) (a lo w v : Nat) : Nat := putBits v lo w (getF s a lo w)

/-- SYS: SHREQ, a mode request, the actuator holds and the lanes. -/
def writeSys (a v : Nat) (s : State) : State :=
  if a = Reg.SYS_CTL then whenDo (v.testBit 0) (safeHold ShCause.fwReq) s
  else if a = Reg.SYS_MREQ then mreqWrite (bitsOf v 0 4) s
  else if a = Reg.SYS_AHCTL then
    let s := whenDo (v.testBit 0) (holdActuator 0 AhCause.fwReq) s
    let s := whenDo (v.testBit 1) (holdActuator 1 AhCause.fwReq) s
    whenDo (v.testBit 9) (clearActuator 1) (whenDo (v.testBit 8) (clearActuator 0) s)
  else if a = Reg.SYS_LANECLR then laneClear (bitsOf v 0 16) s
  else plainWrite a v s

/-- ECC: the scrubber and the correctable-error log. -/
def writeEcc (a v : Nat) (s : State) : State :=
  if a = Reg.ECC_CTL then showScrub (plainWrite a v s)
  else if a = Reg.ECC_CELCLR then celClear v s
  else plainWrite a v s

/-- CCH_CTL: the L1 enables, then L2EN, then BASINEN, which turns the Basin on when the L2 is on. -/
def cchCtlWrite (v : Nat) (s : State) : State :=
  let s := plainWrite Reg.CCH_CTL v s
  let s := if v.testBit 0 then l2enSet s else l2enClear s
  if !v.testBit 1 then basinenClear s
  else if l2On s && !draining s then setBit s Reg.CCH_STS 3 true
  else s

/-- CCH_WDCTL: a core's watchdog that comes to run starts its count (R363). -/
def wdCtlWrite (v : Nat) (s : State) : State :=
  let old := getF s Reg.CCH_WDCTL 0 6
  let s := plainWrite Reg.CCH_WDCTL v s
  let start := fun c k => if !old.testBit c && bit s Reg.CCH_WDCTL c then s.clock else k
  modCch s fun h => { h with kicks := h.kicks.mapIdx start }

/-- CCH: the caches, the uncached windows and the watchdog of the writing core `c`. -/
def writeCch (c a v : Nat) (s : State) : State :=
  if a = Reg.CCH_CTL then cchCtlWrite v s
  else if Reg.CCH_NCBASE 0 ≤ a ∧ a < Reg.CCH_RSTVEC then
    ncWrite ((a - Reg.CCH_NCBASE 0) / 8) ((a - Reg.CCH_NCBASE 0) % 8 == 4) v s
  else if a = Reg.CCH_WDCTL then wdCtlWrite v s
  else if a = Reg.CCH_WDKICK then wdKick c v s
  else plainWrite a v s

/-- CIS. -/
def writeCis (a v : Nat) (s : State) : State :=
  if a = Reg.CIS_CTL then cisCtlWrite v s
  else if a = Reg.CIS_MINFREE then wrN s Reg.CIS_MINFREE (freeCount s)
  else if a = Reg.CIS_FREE then cisFreeWrite v s
  else plainWrite a v s

/-- RUN. -/
def writeRunnel (a v : Nat) (s : State) : State :=
  let r := (a - 0x40100) / 0x20
  if 0x40100 ≤ a ∧ r < 32 ∧ a % 0x20 = 0x10 then
    if v.testBit 1 then runCmd r true s else whenDo (v.testBit 0) (runCmd r false) s
  else if 0x40100 ≤ a ∧ r < 32 ∧ a % 0x20 = 0xC then afterRunnel r (plainWrite a v s)
  else plainWrite a v s

/-- ETH_CTL of port `p`: LOOP changes in TEST alone, and a write of 0 to EN flushes the Runnels. -/
def ethCtlWrite (p v : Nat) (s : State) : State :=
  let a := Reg.ETH_CTL p
  let v := if mode s = Mode.test then v else keepField s a 8 1 v
  if 9 < bitsOf v 4 4 then s
  else
    let s := plainWrite a v s
    whenDo (!v.testBit 0) (portDisable p) s

/-- ETH_PTPADJ: a frequency offset within ±500 ppm. -/
def ptpAdjWrite (v : Nat) (s : State) : State :=
  let x := signedOf 32 v
  if -(500 * 65536) ≤ x ∧ x ≤ 500 * 65536 then wrN s Reg.ETH_PTPADJ v else s

/-- ETH0 and ETH1. -/
def writeEth (p a v : Nat) (s : State) : State :=
  if a = Reg.ETH_CTL p then ethCtlWrite p v s
  else if a = Reg.ETH_ANADV p then anadvWrite p v s
  else if a = Reg.ETH_ETS0 p then etsWrite p 0 v s
  else if a = Reg.ETH_ETS1 p then etsWrite p 1 v s
  else if a = Reg.ETH_TSA p then etsWrite p 2 v s
  else if a = Reg.ETH_FOCTL p then
    whenDo (v.testBit 1) (portBack p) (whenDo (v.testBit 0) (failPort p .move) s)
  else if a = Reg.ETH_FWTX p then fwTx p v s
  else if a = Reg.ETH_MSCTL p then showTxpn p (plainWrite a v s)
  else if a = Reg.ETH_MSLOAD p then msLoad p v s
  else if a = Reg.ETH_PTPADJ then ptpAdjWrite v s
  else plainWrite a v s

/-- NQE. -/
def writeNqe (a v : Nat) (s : State) : State :=
  if a = Reg.NQE_CTL then setBit (plainWrite a v s) Reg.NQE_STS 0 (v.testBit 0)
  else if a = Reg.NQE_FWACT then if v.testBit 0 then holdFetch s else releaseFetch s
  else plainWrite a v s

/-- CPH. -/
def writeCph (a v : Nat) (s : State) : State :=
  if a = Reg.CPH_CTL then cphCtlWrite v s
  else if a = Reg.CPH_KCMD then
    match bitsOf v 0 3 with
    | 1 => keyLoad s
    | 2 => keyEnd false s
    | 3 => keyEnd true s
    | _ => s
  else if Reg.CPH_KDATA 0 ≤ a ∧ a < Reg.CPH_KDATA 8 then wrN s a v
  else plainWrite a v s

/-- ANG. -/
def writeAng (a v : Nat) (s : State) : State :=
  if Reg.ANG_SKEW 0 ≤ a ∧ a < Reg.ANG_SKEW 24 then skewWrite ((a - Reg.ANG_SKEW 0) / 4) v s
  else if 0x90100 ≤ a ∧ a < 0x90180 ∧ a % 16 = 4 then whenDo (v.testBit 0) (flushSlot ((a - 0x90100) / 16)) s
  else plainWrite a v s

/-- TSQA and TSQB. -/
def writeTsq (q a v : Nat) (s : State) : State :=
  if a = Reg.TSQ_CTL q then tsqCtlWrite q v s
  else if a = Reg.TSQ_PREQ q then preq q (bitsOf v 0 5) s
  else if a = Reg.TSQ_KILL q then tsqKill q (bitsOf v 0 5) s
  else if a = Reg.TSQ_LDCMD then ldCommand v s
  else plainWrite a v s

/-- LANE_PBLEAD lies from 2^22 / W to 2 × 2^22 / W ticks (R92, R544). -/
def pbLeadOk (s : State) (v : Nat) : Bool :=
  decide (ticksPerRev ≤ bitsOf v 0 22 * wedges s ∧ bitsOf v 0 22 * wedges s ≤ 2 * ticksPerRev)

/-- LANE: the lanes of a disabled actuator take no write of LANE_CTL (R69). -/
def writeLane (a v : Nat) (s : State) : State :=
  let l := (a - 0xC0000) / 0x1000
  if a % 0x1000 = 0 ∧ disabled s (l % 8 / 4) = true then s
  else if l < 8 ∧ a = Reg.LANE_PBLEAD (l / 4) ∧ pbLeadOk s v = false then s
  else plainWrite a v s

/-- SRV_CTL of actuator `k`: the enables, then ANCH where it changes, then EN. -/
def srvCtlWrite (k v : Nat) (s : State) : State :=
  let a := Reg.SRV_CTL k
  let s := plainWrite a (keepField s a 0 6 v) s
  let n := bitsOf v 4 2
  let s := if n = getF s a 4 2 ∧ (slotHead s (4 * k + n)).isSome then modSrv s k fun x => { x with anchReq := none }
    else writeAnchor k n s
  srvEnWrite k (v.testBit 0) s

/-- SRV_INJCTL: GO starts the injector and STOP stops it. ORDER takes its set of R189, and its reset
value where the signal is not the PRBS, whose parameter it is (DESIGN CHOICE, log entry 11). -/
def injCtlWrite (k v : Nat) (s : State) : State :=
  let orders := if bitsOf v 4 3 = 4 then [7, 9, 11, 15, 23, 31] else [0, 7, 9, 11, 15, 23, 31]
  if bitsOf v 12 5 ∉ orders ∨ 5 < bitsOf v 4 3 ∨ 9 < bitsOf v 8 4 then s
  else
    let s := if v.testBit 0 then injGo k v s else plainWrite (Reg.SRV_INJCTL k) v s
    whenDo (v.testBit 1) (injStop k) s

/-- SRV_CAPCTL: GO arms capture, and a write of GO = 0 stops it. The four signal codes lie from 0 to 19
(R190, R544). -/
def capCtlWrite (k v : Nat) (s : State) : State :=
  if 19 < bitsOf v 0 5 ∨ 19 < bitsOf v 5 5 ∨ 19 < bitsOf v 10 5 ∨ 19 < bitsOf v 15 5 then s
  else if v.testBit 26 then captureGo k v s else plainWrite (Reg.SRV_CAPCTL k) v (captureStop k s)

/-- SRV. -/
def writeSrv (a v : Nat) (s : State) : State :=
  let k := (a - 0xD0100) / 0x100
  if 0xD8000 ≤ a then windowWrite ((a - 0xD8000) / 4) (BitVec.ofNat 32 v) s
  else if a < 0xD0100 ∨ 2 ≤ k then plainWrite a v s
  else if a = Reg.SRV_CTL k then srvCtlWrite k v s
  else if a = Reg.SRV_BANK k then whenDo (v.testBit 0) (bankSwap k) s
  else if a = Reg.SRV_INJCTL k then injCtlWrite k v s
  else if a = Reg.SRV_CAPCTL k then capCtlWrite k v s
  else plainWrite a v s

/-- SPN: with EN = 0 the bridge is tri-stated (R213). -/
def writeSpn (a v : Nat) (s : State) : State :=
  if a = Reg.SPN_CTL then
    let on := bit s Reg.SPN_CTL 0
    whenDo (on && !v.testBit 0) coast (plainWrite a v s)
  else if a = Reg.SPN_CMD then spnCommand (bitsOf v 0 2) s
  else if a = Reg.SPN_TGT then tgtWrite v s
  else plainWrite a v s

/-- WEIR. -/
def writeWeir (a v : Nat) (s : State) : State :=
  match weirLimits.findIdx? fun e => e.1 == a with
  | some k => weirWrite k v s
  | none => plainWrite a v s

/-- SLU. -/
def writeSlu (a v : Nat) (s : State) : State :=
  if a = Reg.SLU_WGUARD then wguardWrite v s
  else if a = Reg.SLU_PESLIM then workingWrite false v s
  else if a = Reg.SLU_SHKLIM then workingWrite true v s
  else if a = Reg.SLU_SHKHARD ∨ limitFloat a = true ∨ (limitWidth a).isSome = true then limitWrite a v s
  else plainWrite a v s

/-- THM. -/
def writeThm (a v : Nat) (s : State) : State :=
  if a = Reg.THM_CTL then ladder (plainWrite a v s)
  else if a = Reg.THM_TMAX then wrN s Reg.THM_TMAX (getF s Reg.THM_TEMP 0 16)
  else if a = Reg.THM_THR then thrWrite v s
  else if a = Reg.THM_I5LIM then i5limWrite v s
  else plainWrite a v s

/-- CAL: a command without GO has no effect. -/
def writeCal (a v : Nat) (s : State) : State :=
  if a = Reg.CAL_CMD then whenDo (v.testBit 0) (calGo (v.testBit 1)) s else plainWrite a v s

/-- EVR_GLO and EVR_GW: a write clears the gauge, and a WIDTH of 0 is ignored (R490). -/
def gaugeWrite (a v : Nat) (s : State) : State :=
  let locked := (rd s Reg.SEC_LOCK).getLsbD 0 || (rd s Reg.SLU_LOCK).getLsbD 0
  if locked || (a % 8 == 4 && v == 0) then s
  else gaugeClear (2 ^ ((a - 0x130080) / 8)) (plainWrite a v s)

/-- EVR. -/
def writeEvr (a v : Nat) (s : State) : State :=
  if a = Reg.EVR_SWTRIG then programmed (bitsOf v 0 6) 2 s
  else if a = Reg.EVR_GCLR then gaugeClear (bitsOf v 0 8) s
  else if 0x130080 ≤ a ∧ a < 0x1300C0 then gaugeWrite a v s
  else if 0x131000 ≤ a ∧ a < 0x133000 then channelWrite ((a - 0x131000) / 0x80) (a % 0x80 / 4) v s
  else plainWrite a v s

/-- IDN. -/
def writeIdn (a v : Nat) (s : State) : State :=
  if a = Reg.IDN_ACMD then idnCommand v s else plainWrite a v s

/-- TST_CMD of channel `n`: what a stopped test has counted comes as free values. -/
def tstCmdWrite (n v : Nat) (s : State) : State :=
  let s := whenDo (v.testBit 0) (tstGo n) s
  if v.testBit 1 then
    let (e, s) := drawFree 32 s
    let (b, s) := drawFree 64 s
    let (f, s) := drawFree 32 s
    let (k, s) := drawFree 1 s
    tstStop n e b f (k == 1) s
  else s

/-- TST: the configuration of a channel stays while its test runs. -/
def writeTst (a v : Nat) (s : State) : State :=
  let n := (a - 0x150100) / 0x40
  if a < 0x150100 ∨ 8 ≤ n then plainWrite a v s
  else if a = Reg.TST_CFG n then whenDo (!tstRun s n) (plainWrite a v) s
  else if a = Reg.TST_CMD n then tstCmdWrite n v s
  else plainWrite a v s

/-- NOI. -/
def writeNoi (a v : Nat) (s : State) : State :=
  if a = Reg.NOI_CTL then showServes (plainWrite a v s)
  else if a = Reg.NOI_FWRSP then fwReply (bitsOf v 0 6) (bitsOf v 8 16) s
  else if a = Reg.NOI_NTFY then ntfy v s
  else plainWrite a v s

/-- SEC. -/
def writeSec (a v : Nat) (s : State) : State :=
  if a = Reg.SEC_LOCK then whenDo (v.testBit 0) (fun s => setBit s Reg.SEC_LOCK 0 true) s
  else if a = Reg.SEC_ARBADV then arbAdv (bitsOf v 0 7) s
  else if a = Reg.SEC_REVCMD then whenDo (v.testBit 31) (revCmd (bitsOf v 0 2)) s
  else if a = Reg.SEC_KHPROG then whenDo (v.testBit 31) (khProg (bitsOf v 0 2)) s
  else if Reg.SEC_KHDATA 0 ≤ a ∧ a < Reg.SEC_KHDATA 8 then
    modSec s fun x => { x with khData := modAt x.khData ((a - Reg.SEC_KHDATA 0) / 4) fun _ => BitVec.ofNat 32 v }
  else if a = Reg.SEC_VCMD then whenDo (v.testBit 0) vCmd s
  else if a = Reg.SEC_SGCMD then whenDo (v.testBit 0) sgCmd s
  else plainWrite a v s

/-- The patrol position and lap time are writable while patrol is off. -/
def patrolHeld (s : State) (a : Nat) : Bool :=
  (a == Reg.ZTB_PTPOS || a == Reg.ZTB_PTPOS + 4 || a == Reg.ZTB_PTCUR) && bit s Reg.ZTB_PTCTL 0

/-- ZTB, the zone engine and the write pipeline. -/
def writeZtb (a v : Nat) (s : State) : State :=
  if a = Reg.ZTB_CTL then ztbCtlWrite v s
  else if a = Reg.ZTB_NZONE then nzoneWrite v s
  else if a = Reg.ZTB_SLACK then slack (bitsOf v 0 20) s
  else if a = Reg.ZTB_BTLOAD then
    if bit s Reg.ZTB_CTL 0 then evt Reg.ZTB_EVT 3 s else whenDo (v.testBit 0) btLoad s
  else if Reg.ZTB_BTW 0 ≤ a ∧ a < Reg.ZTB_BTW 8 then btWrite ((a - Reg.ZTB_BTW 0) / 4) v s
  else if a = Reg.ZTB_ZCMD then zcmdWrite (bitsOf v 0 20) (bitsOf v 24 4) (bitsOf v 20 4) s
  else if a = Reg.ZTB_RETPEAK then wrN s Reg.ZTB_RETPEAK (getF s Reg.ZTB_RETUSE 0 16)
  else if a = Reg.ZTB_OPACK then opack (bitsOf v 0 20) s
  else if a = Reg.ZTB_RCMD then rcmd v s
  else if a = Reg.ZTB_RWCMD then whenDo (v.testBit 1) rewrapAbort (whenDo (v.testBit 0) rewrapGo s)
  else if a = Reg.ZTB_RWACK then whenDo (v.testBit 0) rwAck s
  else if patrolHeld s a then s
  else plainWrite a v s

/-- What a 64-bit write does to a 64-bit register whose write acts (R7). -/
def wideOp (a : Nat) : Option (Nat → State → State) :=
  match a with
  | 0x10040 => some eccInj
  | 0x30040 => some cisGiveWrite
  | 0x50118 => some (msTxpnWrite 0)
  | 0x60118 => some (msTxpnWrite 1)
  | 0x50410 => some ptpStep
  | 0x70030 => some cplpost
  | 0x800C0 => some postJob
  | 0x90180 => some angQpost
  | 0xA0030 => some (fwPost 0)
  | 0xB0030 => some (fwPost 1)
  | 0x180080 => some mapin
  | _ => none

/-- A 32-bit write to one half of such a register writes that half alone (R7): the other half stands as
it was written last, and the register acts on its 64 bits as they then are (DESIGN CHOICE, log entry 11). -/
def halfWrite (a : Nat) (high : Bool) (v : Nat) (f : Nat → State → State) (s : State) : State :=
  f (if high then rdN s a + 2 ^ 32 * v else v + 2 ^ 32 * rdN s (a + 4)) s

/-- A 32-bit write of core `c` to a register whose 32 bits stand alone. -/
def writeBlock (c a v : Nat) (s : State) : State :=
  match a / 0x10000 with
  | 0 => writeSys a v s
  | 1 => writeEcc a v s
  | 2 => writeCch c a v s
  | 3 => writeCis a v s
  | 4 => writeRunnel a v s
  | 5 => writeEth 0 a v s
  | 6 => writeEth 1 a v s
  | 7 => writeNqe a v s
  | 8 => writeCph a v s
  | 9 => writeAng a v s
  | 10 => writeTsq 0 a v s
  | 11 => writeTsq 1 a v s
  | 12 => writeLane a v s
  | 13 => writeSrv a v s
  | 14 => writeSpn a v s
  | 15 => writeWeir a v s
  | 16 => writeSlu a v s
  | 17 => writeThm a v s
  | 18 => writeCal a v s
  | 19 => writeEvr a v s
  | 20 => writeIdn a v s
  | 21 => writeTst a v s
  | 22 => writeNoi a v s
  | 23 => writeSec a v s
  | 24 => writeZtb a v s
  | _ => s

/-- A 32-bit write of core `c` at offset `a`. -/
def writeWord (c a v : Nat) (s : State) : State :=
  match wideOp a with
  | some f => halfWrite a false v f s
  | none =>
    match if a % 8 = 4 then wideOp (a - 4) else none with
    | some f => halfWrite (a - 4) true v f s
    | none => writeBlock c a v s

/-- A 64-bit write: atomic where a 64-bit register lies, and else two 32-bit writes (R7). -/
def writeDouble (c a v : Nat) (s : State) : State :=
  match wideOp a with
  | some f => f v s
  | none => writeWord c (a + 4) (v / 2 ^ 32) (writeWord c a (v % 2 ^ 32) s)

/-- REGISTER_WRITE. An access outside the 25 blocks, of 8 or 16 bits, or not aligned to its size ends
with a bus error (R10, R540). -/
def registerWrite (c a : Nat) (size : AccessSize) (v : Nat) (s : State) : State :=
  if numBlocks * 0x10000 ≤ a then busFault s
  else match size with
    | .byte => busFault s
    | .half => busFault s
    | .word => if a % 4 = 0 then writeWord c a (v % 2 ^ 32) (busOk s) else busFault s
    | .double => if a % 8 = 0 then writeDouble c a v (busOk s) else busFault s

def execRegisterWrite (core : Fin 6) (off : BitVec 29) (size : AccessSize) (value : DWord) (s : State) :
    Host.Outcome State Fault Refusal :=
  .next (registerWrite core off.toNat size value.toNat s)

end Sys2Proof.Machine
end

