-- ==== Sys2Proof/Machine/Io.lean ====
section
/-! DEFINITION. I/O commands (R232 to R245): reads, writes, Flush and the zone management commands, from
their waits to the engines that serve them. -/

namespace Sys2Proof.Machine

/-! ## Waiting (R238, R244, R257, R420) -/

/-- LBAs of two commands overlap. -/
def lbasMeet (c d : HostCmd) : Bool :=
  c.nsid == d.nsid && decide (c.slba < d.slba + d.nlb ∧ d.slba < c.slba + c.nlb)

/-- The Zone Management Send `d` acts on a zone that `c` touches. -/
def zoneSendMeets (s : State) (c d : HostCmd) : Bool :=
  d.opcode == IoOp.zoneSend && d.nsid == 2 && c.nsid == 2
    && (d.selectAll || (cmdZones s c).contains (zoneOfLba s d.slba))

/-- An earlier command of the same queue holds a hazard-table entry that `c` overlaps, or an earlier Zone
Management Send acts on a zone of `c`. -/
def mustWait (s : State) (c : HostCmd) : Bool :=
  s.nqe.cmds.any fun d => decide (d.seq < c.seq) && d.nvm &&
    ((d.assoc == c.assoc && d.sqid == c.sqid && d.hazard && c.nsid == 1 && lbasMeet c d) || zoneSendMeets s c d)

/-- The queue engine goes on with the commands that it has fetched. -/
def engineRuns (s : State) : Bool := bit s Reg.NQE_CTL 0 && !bit s Reg.NQE_FWACT 0

/-- `f` begins the I/O command of opcode `op` in slot `k`, which waits for nothing but what `f` looks
at. -/
def begun (op k : Nat) (f : HostCmd → State → State) (s : State) : State :=
  match cmdAt s k with
  | some c =>
    if c.phase = .fetched ∧ c.nvm = true ∧ c.opcode = op ∧ engineRuns s = true ∧ mustWait s c = false then f c s
    else s
  | none => s

/-- `f` begins a media command: it also waits for READY, and ends at once where it cannot reach its
sectors. -/
def begunMedia (op k : Nat) (f : HostCmd → State → State) (s : State) : State :=
  begun op k (fun c s =>
    match placeStatus s c with
    | some st => fail k st s
    | none => if atMode s Mode.ready then f c s else s) s

/-- The command enters media execution. -/
def startMedia (k : Nat) (f : HostCmd → HostCmd) (s : State) : State :=
  modCmd k (fun c => { f c with phase := .media }) s

/-! ## Read and Verify (R101, R130, R233, R337) -/

/-- The LBA is read from the medium: in NSID 2 below CPTR of its zone alone. -/
def onMedium (s : State) (nsid lba : Nat) : Bool :=
  nsid == 1 || decide (offsetOfLba s lba < zCptr s (zoneOfLba s lba))

/-- The LBA and namespace in the tag of SPEC buffer `b` are those. -/
def specHolds (s : State) (nsid lba b : Nat) : Bool :=
  isSpec s b && sram64 s (tagAddr b) == lba
    && sram32 s (tagAddr b + 8) == if nsid = 2 then zoneOfLba s lba + 2 ^ 31 else 0

/-- The SPEC buffer that holds the LBA. -/
def specBuffer (s : State) (nsid lba : Nat) : Option Nat :=
  (s.cis.owners.map Prod.fst).find? (specHolds s nsid lba)

/-- The command claims the SPEC buffer of an LBA, whose sector is then decrypted. -/
def claimSpec (k nsid : Nat) (s : State) (lba : Nat) : State :=
  match specBuffer s nsid lba with
  | some b =>
    let s := modCmd k (fun c => { c with bufs := c.bufs ++ [b] }) (setSpec b false s)
    issueSector 2 nsid lba (if nsid = 2 then zoneOfLba s lba else 0) b s
  | none => s

/-- A read of the zone waits behind the reset that ends its rewrap (R499). -/
def resetPends (s : State) (z : Nat) : Bool :=
  match s.arc.rewrap with
  | some r => r.waiting && r.committed && r.src == z
  | none => false

/-- The host of a Read receives 4,096 zero bytes for each of the LBAs. -/
def sendZeros (c : HostCmd) (lbas : List Nat) (s : State) : State :=
  if c.opcode = IoOp.read then lbas.foldl (fun s l => sendData c (.sector l (List.replicate 4096 0)) s) s else s

/-- A read begins: sectors that reach the medium wait for it; the others are zero. -/
def beginRead (k : Nat) (c : HostCmd) (s : State) : State :=
  if (cmdZones s c).any (resetPends s) then s else
  let all := (List.range c.nlb).map (c.slba + ·)
  let left := all.filter (onMedium s c.nsid)
  let s := sendZeros c (all.filter fun l => !onMedium s c.nsid l) s
  let s := startMedia k (fun c => { c with left := left }) s
  if left = [] then succeed k s else left.foldl (claimSpec k c.nsid) s

def execNvmRead (slot : Fin 16384) (s : State) : Host.Outcome State Fault Refusal :=
  .next (begunMedia IoOp.read slot (beginRead slot) s)

def execNvmVerify (slot : Fin 16384) (s : State) : Host.Outcome State Fault Refusal :=
  .next (begunMedia IoOp.verify slot (beginRead slot) s)

/-- COMPARE is served by firmware, once its waits end. -/
def execNvmCompare (slot : Fin 16384) (s : State) : Host.Outcome State Fault Refusal :=
  .next (begunMedia IoOp.compare slot (fun _ s => toFirmware slot 2 s) s)

/-! ## Writes (R99, R112, R127, R240, R499) -/

/-- The first check of R240 that a write of `n` sectors at offset `o` of zone `z` fails. -/
def writeStatus (s : State) (c : HostCmd) (z : Nat) : Option Nat :=
  let st := zState s z
  let q := (workAt s z).assignEnd
  let append := c.opcode == IoOp.zoneAppend
  let o := if append then q else offsetOfLba s c.slba
  if st = zOffline then some Status.zoneOffline
  else if st = zReadOnly ∨ rwTarget s z = true then some Status.zoneReadOnly
  else if st = zFull then some Status.zoneFull
  else if zcap s < o + c.nlb then some Status.zoneBoundary
  else if !append ∧ o ≠ q then some Status.zoneInvalidWrite
  else if st = zEmpty ∧ 32 ≤ activeZones s then some Status.tooManyActive
  else none

/-- The buffer holds a sector that is assigned or not yet sealed. -/
def inRetention (s : State) (b : Nat) : Bool :=
  s.ztb.zones.any (fun w => w.queue.any (fun a => a.buf == b) || w.tail.any fun t => t.buf == some b)
    || s.ztb.conv.any fun k => k.buf == b

/-- The buffers are those of the command's sectors: received from the network, or of a Write Zeroes taken
for retention. -/
def bufsOk (s : State) (c : HostCmd) (bufs : List Nat) : Bool :=
  bufs.length == c.nlb && bufs.Nodup && bufs.all fun b =>
    if c.opcode = IoOp.writeZeroes then ownerOf s b == Owner.retain && !inRetention s b
    else ownerOf s b == Owner.netrx

/-- Buffer `b` holds 4,096 zero bytes. -/
def zeroBuf (s : State) (b : Nat) : State :=
  { s with sram := s.sram.filter fun e => decide (e.1 < 512 * b ∨ 512 * (b + 1) ≤ e.1) }

/-- The zone engine takes the buffer of LBA `lba`, and its data goes through the cipher. -/
def takeSector (nsid lba b : Nat) (zeros : Bool) (s : State) : State :=
  let z := if nsid = 2 then zoneOfLba s lba else 0
  let s := if zeros then zeroBuf s b else (giveBuf Owner.netrx b Owner.retain true s).2
  let s := sramPut32 (sramPut64 s (tagAddr b) lba) (tagAddr b + 8) (if nsid = 2 then z + 2 ^ 31 else 0)
  issueSector 1 nsid lba z b s

/-- The sectors of a command from LBA `lba` on. -/
def takeSectors (nsid : Nat) (zeros : Bool) : Nat → List Nat → State → State
  | _, [], s => s
  | lba, b :: l, s => takeSectors nsid zeros (lba + 1) l (takeSector nsid lba b zeros s)

/-- SPEC buffers of NSID 1 LBAs that the command writes are freed (R130). -/
def dropSpecOf (c : HostCmd) (s : State) : State :=
  ((s.cis.owners.map Prod.fst).filter fun b => isSpec s b && sram32 s (tagAddr b + 8) == 0
      && decide (c.slba ≤ sram64 s (tagAddr b) ∧ sram64 s (tagAddr b) < c.slba + c.nlb)).foldl
    (fun s b => pushFree b s) s

/-- A write of NSID 1 begins. -/
def beginConv (k : Nat) (c : HostCmd) (bufs : List Nat) (s : State) : State :=
  let s := dropSpecOf c s
  let s := modZtb s fun t =>
    { t with conv := t.conv ++ bufs.mapIdx fun i b => ⟨c.slba + i, b, false, 0⟩ }
  let s := startMedia k (fun c => { c with bufs := bufs, left := (List.range c.nlb).map (c.slba + ·) }) s
  takeSectors 1 (c.opcode == IoOp.writeZeroes) c.slba bufs s

/-- A write of zone `z` begins: its sectors are assigned from the assignment end on. -/
def beginZoned (k : Nat) (c : HostCmd) (z : Nat) (bufs : List Nat) (s : State) : State :=
  let q := (workAt s z).assignEnd
  let lba := zoneStart s z + q
  let s := openByWrite z s
  let s := modWork z (fun w => { w with assignEnd := q + c.nlb, queue := w.queue ++ assignList q bufs }) s
  let append := c.opcode == IoOp.zoneAppend
  let s := startMedia k (fun c =>
    { c with
      slba := lba, bufs := bufs
      dw0 := if append then lba % 2 ^ 32 else 0
      dw1 := if append then lba / 2 ^ 32 else 0 }) s
  takeSectors 2 (c.opcode == IoOp.writeZeroes) lba bufs s

/-- A write ends with a status before it begins; its buffers are given up. -/
def refuseWrite (k st : Nat) (bufs : List Nat) (s : State) : State :=
  fail k st (freeAll Owner.netrx (bufs.filter fun b => ownerOf s b == Owner.netrx) s)

/-- Retained NSID 1 sectors stay within 4,528 with the command's (R114). -/
def convRoom (s : State) (c : HostCmd) : Bool := decide (s.ztb.conv.length + c.nlb ≤ 4528)

/-- A write begins, once a TAIL_RELOAD or a repair of its zone that it waits for is done; a write of NSID 1
that would retain too many sectors waits. -/
def beginWrite (k : Nat) (bufs : List Nat) (c : HostCmd) (s : State) : State :=
  if c.nsid = 1 then (if bufsOk s c bufs && convRoom s c then beginConv k c bufs s else s)
  else
    let z := zoneOfLba s c.slba
    if (workAt s z).repair then s else
    match writeStatus s c z with
    | some st => refuseWrite k st bufs s
    | none => if zTailu s z || !bufsOk s c bufs then s else beginZoned k c z bufs s

def execNvmWrite (slot : Fin 16384) (bufs : List (Fin 94208)) (s : State) : Host.Outcome State Fault Refusal :=
  .next (begunMedia IoOp.write slot (beginWrite slot (bufs.map Fin.val)) s)

def execWriteZeroes (slot : Fin 16384) (bufs : List (Fin 94208)) (s : State) :
    Host.Outcome State Fault Refusal :=
  .next (begunMedia IoOp.writeZeroes slot (beginWrite slot (bufs.map Fin.val)) s)

def execZoneAppend (slot : Fin 16384) (bufs : List (Fin 94208)) (s : State) :
    Host.Outcome State Fault Refusal :=
  .next (begunMedia IoOp.zoneAppend slot (beginWrite slot (bufs.map Fin.val)) s)

/-! ## Flush (R243) -/

/-- FLUSH completes when the writes that it covers have completed. -/
def beginFlush (k : Nat) (c : HostCmd) (s : State) : State :=
  if c.left = [] then succeed k s else startMedia k id s

def execNvmFlush (slot : Fin 16384) (s : State) : Host.Outcome State Fault Refusal :=
  .next (begun IoOp.flush slot (beginFlush slot) s)

/-! ## Zone management (R115, R238, R239) -/

namespace ZAct
abbrev close : Nat := 1
abbrev finish : Nat := 2
abbrev openZ : Nat := 3
abbrev reset : Nat := 4
end ZAct

/-- The action changes a zone in this state (the Zoned Namespace Command Set). -/
def actsOn (act st : Nat) : Bool :=
  match act with
  | 1 => st == zImpOpen || st == zExpOpen
  | 2 => st == zEmpty || zActive st
  | 3 => st == zEmpty || st == zImpOpen || st == zClosed
  | _ => zActive st || st == zFull

/-- A zone that the action leaves as it is, with success. -/
def actSettled (act st : Nat) : Bool :=
  match act with
  | 1 => st == zClosed
  | 2 => st == zFull
  | 3 => st == zExpOpen
  | _ => st == zEmpty

/-- Select All acts on these: Open on Closed zones, Finish on active ones, the others as alone. -/
def allActsOn (act st : Nat) : Bool := actsOn act st && !(act == ZAct.openZ && st != zClosed)
  && !(act == ZAct.finish && st == zEmpty)

/-- No command fetched before `c` is in flight to zone `z`. -/
def zoneIdle (s : State) (c : HostCmd) (z : Nat) : Bool :=
  !zoneInUse s z && !(s.nqe.cmds.any fun d => decide (d.seq < c.seq) && d.nvm && d.media && d.nsid == 2
    && d.opcode != IoOp.flush && ((cmdZones s d).contains z || (d.opcode == IoOp.zoneSend && d.selectAll)))

/-- The action of zone `z` goes to the zone engine. -/
def zoneAct (act z : Nat) (s : State) : State :=
  match act with
  | 1 => zcmdWrite z 1 zClosed s
  | 2 => zcmdWrite z 1 zFull s
  | 3 => zcmdWrite z 1 zExpOpen s
  | _ => zcmdWrite z 2 0 s

/-- The action goes to the zones of the list, one after the other, until one of them has to wait. -/
def zoneActs (c : HostCmd) : List Nat → State → State
  | [], s => s
  | z :: l, s =>
    if !zoneIdle s c z || bit s Reg.ZTB_ZCMDSTS 0 then s
    else
      let s := zoneAct c.action z s
      if actSettled c.action (zState s z) then zoneActs c l s else s

/-- The status of an action on one zone that it does not change. -/
def actStatus (s : State) (c : HostCmd) (z : Nat) : Option Nat :=
  let st := zState s z
  if rwTarget s z then some Status.zoneReadOnly
  else if actSettled c.action st then some Status.success
  else if !actsOn c.action st then some Status.zoneTransition
  else if c.action = ZAct.openZ ∧ st = zEmpty ∧ 32 ≤ activeZones s then some Status.tooManyActive
  else none

/-- The zones that the command has still to change. -/
def zonesLeft (s : State) (c : HostCmd) : List Nat :=
  if c.selectAll then
    (List.range (numZones s)).filter fun z => allActsOn c.action (zState s z) && !rwTarget s z
  else
    let z := zoneOfLba s c.slba
    if actsOn c.action (zState s z) then [z] else []

/-- A Zone Management Send acts, and completes when every zone has changed. -/
def zoneSend (k : Nat) (c : HostCmd) (s : State) : State :=
  match if c.selectAll then none else actStatus s c (zoneOfLba s c.slba) with
  | some st => fail k st s
  | none =>
    let s := zoneActs c (zonesLeft s c) s
    if zonesLeft s c = [] then succeed k s
    else if bit s Reg.ZTB_ZCMDSTS 0 then startMedia k id s
    else s

/-- `f` serves the Zone Management Send of action `act` in slot `k`, in its first or a later turn. -/
def zoneSends (act k : Nat) (s : State) : State :=
  match cmdAt s k with
  | some c =>
    if c.nvm = true ∧ c.opcode = IoOp.zoneSend ∧ c.action = act ∧ c.phase ≠ .firmware ∧ engineRuns s = true
        ∧ atMode s Mode.ready = true then zoneSend k c s
    else s
  | none => s

def execOpenZone (slot : Fin 16384) (s : State) : Host.Outcome State Fault Refusal :=
  .next (zoneSends ZAct.openZ slot s)

def execCloseZone (slot : Fin 16384) (s : State) : Host.Outcome State Fault Refusal :=
  .next (zoneSends ZAct.close slot s)

def execFinishZone (slot : Fin 16384) (s : State) : Host.Outcome State Fault Refusal :=
  .next (zoneSends ZAct.finish slot s)

def execZoneReset (slot : Fin 16384) (s : State) : Host.Outcome State Fault Refusal :=
  .next (zoneSends ZAct.reset slot s)

/-- The descriptor of zone `z` with its extension; its write pointer is CPTR (R101, R239). -/
def zoneInfo (s : State) (z : Nat) : ZoneInfo where
  state := zState s z
  extValid := true
  cap := zcap s
  start := zoneStart s z
  wp := zoneStart s z + zCptr s z
  affinity := zoneAffinity s z
  terrace := zoneTerrace s z
  actuator := surfaceAct s (zoneSurface s z)
  surface := zoneSurface s z
  nslip := zNslip s z

/-- The zone states that a reporting option of the Zoned Namespace Command Set selects. -/
def reported (option st : Nat) : Bool :=
  match option with
  | 0 => true
  | 1 => st == zEmpty
  | 2 => st == zImpOpen
  | 3 => st == zExpOpen
  | 4 => st == zClosed
  | 5 => st == zFull
  | 6 => st == zReadOnly
  | 7 => st == zOffline
  | _ => false

/-- The report of a Zone Management Receive: descriptors of 64 bytes after a header of 64, with 64 more of
extension each in an extended report, as many as the transfer holds. -/
def zoneReport (s : State) (c : HostCmd) : HostData :=
  let extended := c.action == 1
  let room := (4 * (c.arg2 + 1) - 64) / (if extended then 128 else 64)
  let first := zoneOfLba s c.slba
  let zones := ((List.range (numZones s - first)).map (first + ·)).filter fun z =>
    reported (bitsOf c.arg 8 8) (zState s z)
  .zones extended ((zones.take room).map (zoneInfo s))

/-- ZONE_MANAGEMENT_RECEIVE passes to firmware, and in a second turn firmware sends the report. -/
def zoneReceive (k : Nat) (s : State) : State :=
  match cmdAt s k with
  | some c =>
    if c.phase = .firmware then
      if c.nvm = true ∧ c.opcode = IoOp.zoneReceive then succeed k (sendData c (zoneReport s c) s) else s
    else begun IoOp.zoneReceive k (fun _ s => toFirmware k 2 s) s
  | none => s

def execZoneManagementReceive (slot : Fin 16384) (s : State) : Host.Outcome State Fault Refusal :=
  .next (zoneReceive slot s)

end Sys2Proof.Machine
end

