-- ==== Sys2Proof/Machine/Dispatch.lean ====
section
/-! DEFINITION. The dispatch of a command to its meaning, one arm per command of the table. -/

namespace Sys2Proof.Machine

/-- The effect of a command on everything but the queue. -/
def exec (i : Instr) (s : State) : Host.Outcome State Fault Refusal :=
  match i with
  | .zeroCrossingsSeen period => Sys2Proof.Machine.execZeroCrossingsSeen period s
  | .coarseTimeout => Sys2Proof.Machine.execCoarseTimeout s
  | .acquireEntry => Sys2Proof.Machine.execAcquireEntry s
  | .phaseSample a angle8 decoded wedge => Sys2Proof.Machine.execPhaseSample a angle8 decoded wedge s
  | .acquireTimeout => Sys2Proof.Machine.execAcquireTimeout s
  | .angHold => Sys2Proof.Machine.execAngHold s
  | .holdoverExpiry => Sys2Proof.Machine.execHoldoverExpiry s
  | .headsUnloaded => Sys2Proof.Machine.execHeadsUnloaded s
  | .revolutionWrap => Sys2Proof.Machine.execRevolutionWrap s
  | .angNowRead => Sys2Proof.Machine.execAngNowRead s
  | .skewWrite surface value => Sys2Proof.Machine.execSkewWrite surface value s
  | .angQpost entry => Sys2Proof.Machine.execAngQpost entry s
  | .angQflush slot value => Sys2Proof.Machine.execAngQflush slot value s
  | .wgOn slot => Sys2Proof.Machine.execWgOn slot s
  | .wgOff slot => Sys2Proof.Machine.execWgOff slot s
  | .rgOn slot => Sys2Proof.Machine.execRgOn slot s
  | .rgOff slot => Sys2Proof.Machine.execRgOff slot s
  | .tgOn slot => Sys2Proof.Machine.execTgOn slot s
  | .tgOff slot => Sys2Proof.Machine.execTgOff slot s
  | .assistOn slot => Sys2Proof.Machine.execAssistOn slot s
  | .assistOff slot => Sys2Proof.Machine.execAssistOff slot s
  | .laneStart slot => Sys2Proof.Machine.execLaneStart slot s
  | .syncOpen slot => Sys2Proof.Machine.execSyncOpen slot s
  | .headSel slot => Sys2Proof.Machine.execHeadSel slot s
  | .seqWake slot => Sys2Proof.Machine.execSeqWake slot s
  | .markAction slot => Sys2Proof.Machine.execMarkAction slot s
  | .headSettleEnd slot => Sys2Proof.Machine.execHeadSettleEnd slot s
  | .btloadGo => Sys2Proof.Machine.execBtloadGo s
  | .bandTableWrite word value => Sys2Proof.Machine.execBandTableWrite word value s
  | .nzoneWrite value => Sys2Proof.Machine.execNzoneWrite value s
  | .zoneEngineEnable => Sys2Proof.Machine.execZoneEngineEnable s
  | .layoutCheckEnd => Sys2Proof.Machine.execLayoutCheckEnd s
  | .setState zone state => Sys2Proof.Machine.execSetState zone state s
  | .zcmdReset zone => Sys2Proof.Machine.execZcmdReset zone s
  | .zoneCommandEnd => Sys2Proof.Machine.execZoneCommandEnd s
  | .slack index => Sys2Proof.Machine.execSlack index s
  | .mapin value => Sys2Proof.Machine.execMapin value s
  | .mapDone => Sys2Proof.Machine.execMapDone s
  | .sectorResult lane signal => Sys2Proof.Machine.execSectorResult lane signal s
  | .sectorDeadline lane signal searched dead => Sys2Proof.Machine.execSectorDeadline lane signal searched dead s
  | .assistRampEnd slot => Sys2Proof.Machine.execAssistRampEnd slot s
  | .preampWord a word => Sys2Proof.Machine.execPreampWord a word s
  | .controlWord a => Sys2Proof.Machine.execControlWord a s
  | .linkTraining a answered => Sys2Proof.Machine.execLinkTraining a answered s
  | .dutyBucketUpdate => Sys2Proof.Machine.execDutyBucketUpdate s
  | .builderIssue plan => Sys2Proof.Machine.execBuilderIssue plan s
  | .tailVerifyTrigger plan => Sys2Proof.Machine.execTailVerifyTrigger plan s
  | .writeReissue plan => Sys2Proof.Machine.execWriteReissue plan s
  | .wguardWrite value => Sys2Proof.Machine.execWguardWrite value s
  | .wguardTakesEffect => Sys2Proof.Machine.execWguardTakesEffect s
  | .opack zone => Sys2Proof.Machine.execOpack zone s
  | .rcmd value => Sys2Proof.Machine.execRcmd value s
  | .rcvdone media clean => Sys2Proof.Machine.execRcvdone media clean s
  | .retpeakWrite value => Sys2Proof.Machine.execRetpeakWrite value s
  | .readRun q x => Sys2Proof.Machine.execReadRun q x s
  | .pairedRead q x => Sys2Proof.Machine.execPairedRead q x s
  | .writeRun q x => Sys2Proof.Machine.execWriteRun q x s
  | .tailVerify q x => Sys2Proof.Machine.execTailVerify q x s
  | .tailReload q x step => Sys2Proof.Machine.execTailReload q x step s
  | .scanOp q x step => Sys2Proof.Machine.execScanOp q x step s
  | .seekOp q => Sys2Proof.Machine.execSeekOp q s
  | .prebias q x => Sys2Proof.Machine.execPrebias q x s
  | .fwPost q value => Sys2Proof.Machine.execFwPost q value s
  | .dispatch q x => Sys2Proof.Machine.execDispatch q x s
  | .nopWord q x => Sys2Proof.Machine.execNopWord q x s
  | .movWord q x => Sys2Proof.Machine.execMovWord q x s
  | .moviWord q x => Sys2Proof.Machine.execMoviWord q x s
  | .movhiWord q x => Sys2Proof.Machine.execMovhiWord q x s
  | .addWord q x => Sys2Proof.Machine.execAddWord q x s
  | .subWord q x => Sys2Proof.Machine.execSubWord q x s
  | .addiWord q x => Sys2Proof.Machine.execAddiWord q x s
  | .andWord q x => Sys2Proof.Machine.execAndWord q x s
  | .orWord q x => Sys2Proof.Machine.execOrWord q x s
  | .xorWord q x => Sys2Proof.Machine.execXorWord q x s
  | .shliWord q x => Sys2Proof.Machine.execShliWord q x s
  | .shriWord q x => Sys2Proof.Machine.execShriWord q x s
  | .angaddWord q x => Sys2Proof.Machine.execAngaddWord q x s
  | .cmpWord q x => Sys2Proof.Machine.execCmpWord q x s
  | .cmpiWord q x => Sys2Proof.Machine.execCmpiWord q x s
  | .mfsWord q x => Sys2Proof.Machine.execMfsWord q x s
  | .mtsWord q x => Sys2Proof.Machine.execMtsWord q x s
  | .brWord q x => Sys2Proof.Machine.execBrWord q x s
  | .callWord q x => Sys2Proof.Machine.execCallWord q x s
  | .retWord q x => Sys2Proof.Machine.execRetWord q x s
  | .armWord q x => Sys2Proof.Machine.execArmWord q x s
  | .gateWord q x => Sys2Proof.Machine.execGateWord q x s
  | .laneWord q x => Sys2Proof.Machine.execLaneWord q x s
  | .descWord q x => Sys2Proof.Machine.execDescWord q x s
  | .postWord q x => Sys2Proof.Machine.execPostWord q x s
  | .haltWord q x => Sys2Proof.Machine.execHaltWord q x s
  | .waitcWord q x => Sys2Proof.Machine.execWaitcWord q x s
  | .classSInterrupt q x => Sys2Proof.Machine.execClassSInterrupt q x s
  | .optime q x => Sys2Proof.Machine.execOptime q x s
  | .preq q mask => Sys2Proof.Machine.execPreq q mask s
  | .preemptionExit q x => Sys2Proof.Machine.execPreemptionExit q x s
  | .pexit q x => Sys2Proof.Machine.execPexit q x s
  | .tsqKill q mask => Sys2Proof.Machine.execTsqKill q mask s
  | .ucpar q x => Sys2Proof.Machine.execUcpar q x s
  | .loadImage => Sys2Proof.Machine.execLoadImage s
  | .patchImage => Sys2Proof.Machine.execPatchImage s
  | .lddone => Sys2Proof.Machine.execLddone s
  | .tsqCtlWrite q value => Sys2Proof.Machine.execTsqCtlWrite q value s
  | .fwcqPop q => Sys2Proof.Machine.execFwcqPop q s
  | .servoSample a dt wait p0 p1 p2 p3 cce cpar => Sys2Proof.Machine.execServoSample a dt wait p0 p1 p2 p3 cce cpar s
  | .outputApply a => Sys2Proof.Machine.execOutputApply a s
  | .retractEnd a => Sys2Proof.Machine.execRetractEnd a s
  | .shockReading x y z rx ry rz => Sys2Proof.Machine.execShockReading x y z rx ry rz s
  | .shockClear hard => Sys2Proof.Machine.execShockClear hard s
  | .skfail a => Sys2Proof.Machine.execSkfail a s
  | .anchWrite a slot => Sys2Proof.Machine.execAnchWrite a slot s
  | .srvEnWrite a en => Sys2Proof.Machine.execSrvEnWrite a en s
  | .bankSwap a => Sys2Proof.Machine.execBankSwap a s
  | .bankCheckEnd a => Sys2Proof.Machine.execBankCheckEnd a s
  | .coefficientWindowWrite word value => Sys2Proof.Machine.execCoefficientWindowWrite word value s
  | .injectionGo a value => Sys2Proof.Machine.execInjectionGo a value s
  | .injectionStop a => Sys2Proof.Machine.execInjectionStop a s
  | .captureGo a value => Sys2Proof.Machine.execCaptureGo a value s
  | .captureStop a => Sys2Proof.Machine.execCaptureStop a s
  | .capd3Read a => Sys2Proof.Machine.execCapd3Read a s
  | .bemfCrossing first second => Sys2Proof.Machine.execBemfCrossing first second s
  | .missedCrossing => Sys2Proof.Machine.execMissedCrossing s
  | .commutate => Sys2Proof.Machine.execCommutate s
  | .obsfail => Sys2Proof.Machine.execObsfail s
  | .racqok => Sys2Proof.Machine.execRacqok s
  | .comparatorEdge back dt position => Sys2Proof.Machine.execComparatorEdge back dt position s
  | .racqfail => Sys2Proof.Machine.execRacqfail s
  | .observeEnd => Sys2Proof.Machine.execObserveEnd s
  | .alignEnd => Sys2Proof.Machine.execAlignEnd s
  | .handoverTimeout => Sys2Proof.Machine.execHandoverTimeout s
  | .startfail => Sys2Proof.Machine.execStartfail s
  | .failsClear => Sys2Proof.Machine.execFailsClear s
  | .spnRun => Sys2Proof.Machine.execSpnRun s
  | .spnStop => Sys2Proof.Machine.execSpnStop s
  | .spnCoast => Sys2Proof.Machine.execSpnCoast s
  | .brakeQuiet => Sys2Proof.Machine.execBrakeQuiet s
  | .spnStopped => Sys2Proof.Machine.execSpnStopped s
  | .tgtWrite value => Sys2Proof.Machine.execTgtWrite value s
  | .disbrk => Sys2Proof.Machine.execDisbrk s
  | .weirSample v12 i12 iph => Sys2Proof.Machine.execWeirSample v12 i12 iph s
  | .ilimpk => Sys2Proof.Machine.execIlimpk s
  | .weirLimitWrite reg value => Sys2Proof.Machine.execWeirLimitWrite reg value s
  | .commandFetch assoc sqid slot entry others => Sys2Proof.Machine.execCommandFetch assoc sqid slot entry others s
  | .connect assoc qid cid host kato path => Sys2Proof.Machine.execConnect assoc qid cid host kato path s
  | .propertyGet slot => Sys2Proof.Machine.execPropertyGet slot s
  | .propertySet slot => Sys2Proof.Machine.execPropertySet slot s
  | .disconnect slot => Sys2Proof.Machine.execDisconnect slot s
  | .authenticationSend slot message => Sys2Proof.Machine.execAuthenticationSend slot message s
  | .authenticationReceive slot => Sys2Proof.Machine.execAuthenticationReceive slot s
  | .identify slot => Sys2Proof.Machine.execIdentify slot s
  | .getLogPage slot => Sys2Proof.Machine.execGetLogPage slot s
  | .arbitration slot => Sys2Proof.Machine.execArbitration slot s
  | .powerManagement slot => Sys2Proof.Machine.execPowerManagement slot s
  | .temperatureThreshold slot => Sys2Proof.Machine.execTemperatureThreshold slot s
  | .errorRecovery slot => Sys2Proof.Machine.execErrorRecovery slot s
  | .numberOfQueues slot => Sys2Proof.Machine.execNumberOfQueues slot s
  | .asynchronousEventConfiguration slot => Sys2Proof.Machine.execAsynchronousEventConfiguration slot s
  | .keepAliveTimer slot => Sys2Proof.Machine.execKeepAliveTimer slot s
  | .getFeatures slot => Sys2Proof.Machine.execGetFeatures slot s
  | .nvmAbort slot => Sys2Proof.Machine.execNvmAbort slot s
  | .asynchronousEventRequest slot event => Sys2Proof.Machine.execAsynchronousEventRequest slot event s
  | .keepAlive slot => Sys2Proof.Machine.execKeepAlive slot s
  | .keepAliveExpiry assoc => Sys2Proof.Machine.execKeepAliveExpiry assoc s
  | .firmwareImageDownload slot data => Sys2Proof.Machine.execFirmwareImageDownload slot data s
  | .commitAction1 slot => Sys2Proof.Machine.execCommitAction1 slot s
  | .commitAction2 slot => Sys2Proof.Machine.execCommitAction2 slot s
  | .commitAction3 slot => Sys2Proof.Machine.execCommitAction3 slot s
  | .activationFallback => Sys2Proof.Machine.execActivationFallback s
  | .fwactHold hold => Sys2Proof.Machine.execFwactHold hold s
  | .exitFailureMode slot => Sys2Proof.Machine.execExitFailureMode slot s
  | .cryptoErase slot done => Sys2Proof.Machine.execCryptoErase slot done s
  | .overwrite slot done => Sys2Proof.Machine.execOverwrite slot done s
  | .blockErase slot => Sys2Proof.Machine.execBlockErase slot s
  | .nvmRead slot => Sys2Proof.Machine.execNvmRead slot s
  | .nvmWrite slot bufs => Sys2Proof.Machine.execNvmWrite slot bufs s
  | .writeZeroes slot bufs => Sys2Proof.Machine.execWriteZeroes slot bufs s
  | .nvmVerify slot => Sys2Proof.Machine.execNvmVerify slot s
  | .nvmFlush slot => Sys2Proof.Machine.execNvmFlush slot s
  | .nvmCompare slot => Sys2Proof.Machine.execNvmCompare slot s
  | .zoneAppend slot bufs => Sys2Proof.Machine.execZoneAppend slot bufs s
  | .openZone slot => Sys2Proof.Machine.execOpenZone slot s
  | .closeZone slot => Sys2Proof.Machine.execCloseZone slot s
  | .finishZone slot => Sys2Proof.Machine.execFinishZone slot s
  | .zoneReset slot => Sys2Proof.Machine.execZoneReset slot s
  | .zoneManagementReceive slot => Sys2Proof.Machine.execZoneManagementReceive slot s
  | .deleteIoSubmissionQueue slot => Sys2Proof.Machine.execDeleteIoSubmissionQueue slot s
  | .controllerReset assoc => Sys2Proof.Machine.execControllerReset assoc s
  | .connectionLoss assoc => Sys2Proof.Machine.execConnectionLoss assoc s
  | .nssr assoc => Sys2Proof.Machine.execNssr assoc s
  | .cplpost value => Sys2Proof.Machine.execCplpost value s
  | .exqPop => Sys2Proof.Machine.execExqPop s
  | .powerStateEntry => Sys2Proof.Machine.execPowerStateEntry s
  | .noileMessage datagram => Sys2Proof.Machine.execNoileMessage datagram s
  | .noileRead slot => Sys2Proof.Machine.execNoileRead slot s
  | .noileWrite slot => Sys2Proof.Machine.execNoileWrite slot s
  | .readSeg slot => Sys2Proof.Machine.execReadSeg slot s
  | .writeSeg slot => Sys2Proof.Machine.execWriteSeg slot s
  | .noiAck datagram => Sys2Proof.Machine.execNoiAck datagram s
  | .fwDeadline slot => Sys2Proof.Machine.execFwDeadline slot s
  | .fwqPop => Sys2Proof.Machine.execFwqPop s
  | .fwrsp value => Sys2Proof.Machine.execFwrsp value s
  | .broadcastReply reply => Sys2Proof.Machine.execBroadcastReply reply s
  | .replyCacheExpiry => Sys2Proof.Machine.execReplyCacheExpiry s
  | .segmentTimeout index sub => Sys2Proof.Machine.execSegmentTimeout index sub s
  | .sessionIdle session => Sys2Proof.Machine.execSessionIdle session s
  | .subscribe slot => Sys2Proof.Machine.execSubscribe slot s
  | .unsubscribe slot => Sys2Proof.Machine.execUnsubscribe slot s
  | .notify handle => Sys2Proof.Machine.execNotify handle s
  | .notifyResend handle => Sys2Proof.Machine.execNotifyResend handle s
  | .ntfy value => Sys2Proof.Machine.execNtfy value s
  | .spdmRequest slot response formed ended => Sys2Proof.Machine.execSpdmRequest slot response formed ended s
  | .autoNegotiation port partner trained => Sys2Proof.Machine.execAutoNegotiation port partner trained s
  | .aneffReload port => Sys2Proof.Machine.execAneffReload port s
  | .anadvWrite port value => Sys2Proof.Machine.execAnadvWrite port value s
  | .linkup port => Sys2Proof.Machine.execLinkup port s
  | .linkdn port => Sys2Proof.Machine.execLinkdn port s
  | .announceRepeat port => Sys2Proof.Machine.execAnnounceRepeat port s
  | .portMove port => Sys2Proof.Machine.execPortMove port s
  | .portBack port => Sys2Proof.Machine.execPortBack port s
  | .fback port => Sys2Proof.Machine.execFback port s
  | .frameReceive port data faulty => Sys2Proof.Machine.execFrameReceive port data faulty s
  | .pfcFrame port prios times => Sys2Proof.Machine.execPfcFrame port prios times s
  | .pfcPauseEnd port prio => Sys2Proof.Machine.execPfcPauseEnd port prio s
  | .pfcResend port => Sys2Proof.Machine.execPfcResend port s
  | .packetConsume port tc header intact digests => Sys2Proof.Machine.execPacketConsume port tc header intact digests s
  | .frameTransmit port tc => Sys2Proof.Machine.execFrameTransmit port tc s
  | .runDrop runnel => Sys2Proof.Machine.execRunDrop runnel s
  | .flushRunnel runnel => Sys2Proof.Machine.execFlushRunnel runnel s
  | .portDisable port => Sys2Proof.Machine.execPortDisable port s
  | .etsWrite port reg value => Sys2Proof.Machine.execEtsWrite port reg value s
  | .msload port value => Sys2Proof.Machine.execMsload port value s
  | .mstxpnWrite port value => Sys2Proof.Machine.execMstxpnWrite port value s
  | .ptpstep value => Sys2Proof.Machine.execPtpstep value s
  | .txtsidPop => Sys2Proof.Machine.execTxtsidPop s
  | .fwtx port value => Sys2Proof.Machine.execFwtx port value s
  | .fwrxqPop port => Sys2Proof.Machine.execFwrxqPop port s
  | .addressTableWrite slot => Sys2Proof.Machine.execAddressTableWrite slot s
  | .allocation requests spec => Sys2Proof.Machine.execAllocation requests spec s
  | .cisGiveEngine requester index owner => Sys2Proof.Machine.execCisGiveEngine requester index owner s
  | .cisFreeEngine requester index => Sys2Proof.Machine.execCisFreeEngine requester index s
  | .allocationRetry owner => Sys2Proof.Machine.execAllocationRetry owner s
  | .reclaim => Sys2Proof.Machine.execReclaim s
  | .rebuild => Sys2Proof.Machine.execRebuild s
  | .cisAlloc => Sys2Proof.Machine.execCisAlloc s
  | .cisAllocr => Sys2Proof.Machine.execCisAllocr s
  | .cisFree value => Sys2Proof.Machine.execCisFree value s
  | .cisGive value => Sys2Proof.Machine.execCisGive value s
  | .errlogPop => Sys2Proof.Machine.execErrlogPop s
  | .minfreeWrite value => Sys2Proof.Machine.execMinfreeWrite value s
  | .cisCtlWrite value => Sys2Proof.Machine.execCisCtlWrite value s
  | .sramRead requester word way => Sys2Proof.Machine.execSramRead requester word way s
  | .sramWrite requester word data way => Sys2Proof.Machine.execSramWrite requester word data way s
  | .narrowWrite requester word data mask way => Sys2Proof.Machine.execNarrowWrite requester word data mask way s
  | .ceWriteback => Sys2Proof.Machine.execCeWriteback s
  | .fillEnd bad failed => Sys2Proof.Machine.execFillEnd bad failed s
  | .scrubRead => Sys2Proof.Machine.execScrubRead s
  | .scrublate => Sys2Proof.Machine.execScrublate s
  | .scrubenWrite value => Sys2Proof.Machine.execScrubenWrite value s
  | .eccInj value => Sys2Proof.Machine.execEccInj value s
  | .celclr value => Sys2Proof.Machine.execCelclr value s
  | .l2Miss core line way => Sys2Proof.Machine.execL2Miss core line way s
  | .writebackIssue => Sys2Proof.Machine.execWritebackIssue s
  | .l2enClear => Sys2Proof.Machine.execL2enClear s
  | .draindone => Sys2Proof.Machine.execDraindone s
  | .l2enSet => Sys2Proof.Machine.execL2enSet s
  | .basinenClear => Sys2Proof.Machine.execBasinenClear s
  | .ncWindowWrite index size value => Sys2Proof.Machine.execNcWindowWrite index size value s
  | .wdkick core value => Sys2Proof.Machine.execWdkick core value s
  | .watchdogReset core => Sys2Proof.Machine.execWatchdogReset core s
  | .cipherJobPost value => Sys2Proof.Machine.execCipherJobPost value s
  | .sectorEnc job => Sys2Proof.Machine.execSectorEnc job s
  | .sectorDec job => Sys2Proof.Machine.execSectorDec job s
  | .gcmEnc job => Sys2Proof.Machine.execGcmEnc job s
  | .gcmDec job => Sys2Proof.Machine.execGcmDec job s
  | .invocationStart => Sys2Proof.Machine.execInvocationStart s
  | .invocationEnd job => Sys2Proof.Machine.execInvocationEnd job s
  | .cphFwcqPop => Sys2Proof.Machine.execCphFwcqPop s
  | .keyLoad => Sys2Proof.Machine.execKeyLoad s
  | .keyDestroy => Sys2Proof.Machine.execKeyDestroy s
  | .keyRetire => Sys2Proof.Machine.execKeyRetire s
  | .kdone => Sys2Proof.Machine.execKdone s
  | .journalRecordDurable ok => Sys2Proof.Machine.execJournalRecordDurable ok s
  | .compaction => Sys2Proof.Machine.execCompaction s
  | .journalScanEnd => Sys2Proof.Machine.execJournalScanEnd s
  | .maskReseed => Sys2Proof.Machine.execMaskReseed s
  | .entfail => Sys2Proof.Machine.execEntfail s
  | .rngRead => Sys2Proof.Machine.execRngRead s
  | .kat pass drbg => Sys2Proof.Machine.execKat pass drbg s
  | .khprog slot => Sys2Proof.Machine.execKhprog slot s
  | .revcmd key => Sys2Proof.Machine.execRevcmd key s
  | .otpdone ok => Sys2Proof.Machine.execOtpdone ok s
  | .arbadv value => Sys2Proof.Machine.execArbadv value s
  | .vcmd => Sys2Proof.Machine.execVcmd s
  | .vdone => Sys2Proof.Machine.execVdone s
  | .sgcmd => Sys2Proof.Machine.execSgcmd s
  | .sgdone => Sys2Proof.Machine.execSgdone s
  | .secLock => Sys2Proof.Machine.execSecLock s
  | .bootEnd identity => Sys2Proof.Machine.execBootEnd identity s
  | .sluiceInhibit slot => Sys2Proof.Machine.execSluiceInhibit slot s
  | .targetCheck slot => Sys2Proof.Machine.execTargetCheck slot s
  | .limitWrite offset value => Sys2Proof.Machine.execLimitWrite offset value s
  | .workingLimitWrite shock value => Sys2Proof.Machine.execWorkingLimitWrite shock value s
  | .supplyExcursion v5 => Sys2Proof.Machine.execSupplyExcursion v5 s
  | .fltNFall a => Sys2Proof.Machine.execFltNFall a s
  | .pfaultHold a => Sys2Proof.Machine.execPfaultHold a s
  | .mreqStandby => Sys2Proof.Machine.execMreqStandby s
  | .mreqSpinning => Sys2Proof.Machine.execMreqSpinning s
  | .mreqSlow => Sys2Proof.Machine.execMreqSlow s
  | .mreqReady => Sys2Proof.Machine.execMreqReady s
  | .mreqTest => Sys2Proof.Machine.execMreqTest s
  | .transitionStepDone ok => Sys2Proof.Machine.execTransitionStepDone ok s
  | .loadEnd => Sys2Proof.Machine.execLoadEnd s
  | .loadTimeout => Sys2Proof.Machine.execLoadTimeout s
  | .surveyEnd preampA preampB hda => Sys2Proof.Machine.execSurveyEnd preampA preampB hda s
  | .idnAcmd value => Sys2Proof.Machine.execIdnAcmd value s
  | .acdone data => Sys2Proof.Machine.execAcdone data s
  | .powerOnReset => Sys2Proof.Machine.execPowerOnReset s
  | .resetNLow => Sys2Proof.Machine.execResetNLow s
  | .pinReset => Sys2Proof.Machine.execPinReset s
  | .fullReset => Sys2Proof.Machine.execFullReset s
  | .subsysReset => Sys2Proof.Machine.execSubsysReset s
  | .powerLoss => Sys2Proof.Machine.execPowerLoss s
  | .laneclr mask => Sys2Proof.Machine.execLaneclr mask s
  | .holdActuator a => Sys2Proof.Machine.execHoldActuator a s
  | .clearActuator a => Sys2Proof.Machine.execClearActuator a s
  | .shreq => Sys2Proof.Machine.execShreq s
  | .clockLoss refclk generator => Sys2Proof.Machine.execClockLoss refclk generator s
  | .temperatureSample sample i5 pin => Sys2Proof.Machine.execTemperatureSample sample i5 pin s
  | .tstepRise => Sys2Proof.Machine.execTstepRise s
  | .tstepFall => Sys2Proof.Machine.execTstepFall s
  | .governorInterval => Sys2Proof.Machine.execGovernorInterval s
  | .thrWrite value => Sys2Proof.Machine.execThrWrite value s
  | .floorWrite value => Sys2Proof.Machine.execFloorWrite value s
  | .i5limWrite value => Sys2Proof.Machine.execI5limWrite value s
  | .tmaxWrite value => Sys2Proof.Machine.execTmaxWrite value s
  | .calibrate => Sys2Proof.Machine.execCalibrate s
  | .calibrateDeferred => Sys2Proof.Machine.execCalibrateDeferred s
  | .chainsOnline ref trims => Sys2Proof.Machine.execChainsOnline ref trims s
  | .calRecordDurable ok => Sys2Proof.Machine.execCalRecordDurable ok s
  | .tstGo channel => Sys2Proof.Machine.execTstGo channel s
  | .tstStop channel errors bits fail lock => Sys2Proof.Machine.execTstStop channel errors bits fail lock s
  | .testDurationEnd channel errors bits fail lock => Sys2Proof.Machine.execTestDurationEnd channel errors bits fail lock s
  | .snapshotCapture => Sys2Proof.Machine.execSnapshotCapture s
  | .swtrig channel => Sys2Proof.Machine.execSwtrig channel s
  | .periodicTrigger channel => Sys2Proof.Machine.execPeriodicTrigger channel s
  | .channelConfigWrite channel word value => Sys2Proof.Machine.execChannelConfigWrite channel word value s
  | .logCommit failed => Sys2Proof.Machine.execLogCommit failed s
  | .logCommitDone failed => Sys2Proof.Machine.execLogCommitDone failed s
  | .logScan => Sys2Proof.Machine.execLogScan s
  | .logClear token => Sys2Proof.Machine.execLogClear token s
  | .clrdone => Sys2Proof.Machine.execClrdone s
  | .mirrorWrite copy committed => Sys2Proof.Machine.execMirrorWrite copy committed s
  | .gaugePublish => Sys2Proof.Machine.execGaugePublish s
  | .gclr mask => Sys2Proof.Machine.execGclr mask s
  | .ptlogPop => Sys2Proof.Machine.execPtlogPop s
  | .rewrapGo => Sys2Proof.Machine.execRewrapGo s
  | .rewrapAbort => Sys2Proof.Machine.execRewrapAbort s
  | .rwack => Sys2Proof.Machine.execRwack s
  | .copyEnd => Sys2Proof.Machine.execCopyEnd s
  | .streamStart => Sys2Proof.Machine.execStreamStart s
  | .streamPause => Sys2Proof.Machine.execStreamPause s
  | .streamAbort => Sys2Proof.Machine.execStreamAbort s
  | .streamEntryStart peerEmpty capacity zasl => Sys2Proof.Machine.execStreamEntryStart peerEmpty capacity zasl s
  | .peerCompletion entry flush offset status lba => Sys2Proof.Machine.execPeerCompletion entry flush offset status lba s
  | .extest => Sys2Proof.Machine.execExtest s
  | .extestPulse => Sys2Proof.Machine.execExtestPulse s
  | .extestTrain => Sys2Proof.Machine.execExtestTrain s
  | .bypass => Sys2Proof.Machine.execBypass s
  | .idcode => Sys2Proof.Machine.execIdcode s
  | .samplePreload scl sda load => Sys2Proof.Machine.execSamplePreload scl sda load s
  | .clamp => Sys2Proof.Machine.execClamp s
  | .highz => Sys2Proof.Machine.execHighz s
  | .fwload slot image => Sys2Proof.Machine.execFwload slot image s
  | .preampSupplyLimit a => Sys2Proof.Machine.execPreampSupplyLimit a s
  | .nandLoad core off size ok => Sys2Proof.Machine.execNandLoad core off size ok s
  | .nandStore core off size data => Sys2Proof.Machine.execNandStore core off size data s
  | .nandErase core off size ok => Sys2Proof.Machine.execNandErase core off size ok s
  | .pageProgram page ok => Sys2Proof.Machine.execPageProgram page ok s
  | .registerWrite core off size value => Sys2Proof.Machine.execRegisterWrite core off size value s
  | .fltNRise a => Sys2Proof.Machine.execFltNRise a s
  | .supplyReturn v5 => Sys2Proof.Machine.execSupplyReturn v5 s

end Sys2Proof.Machine
end

