-- ==== Sys2Proof/Machine/Idle.lean ====
section
/-! DEFINITION. What the block does while no command waits. -/

namespace Sys2Proof.Machine

/-- One fabric clock passes, the angle clock tests its conditions (R14), and copies that have waited for a
condition of the module go on; reads whose retries have run out of time complete (R234). -/
def idle (s : State) : State := endRetries (streamSettle (rwSettle (angTest (tick s))))

end Sys2Proof.Machine
end

