-- ==== Sys2Proof/Machine/Changes.lean ====
section
/-! DEFINITION. Which fields of State a command may change: the frame of every command. -/

namespace Sys2Proof.Machine

/-- The fields of State but the queue. -/
inductive Field where
  | draws | clock | ptpFrac | busData | busError | regs | sram | nand | evr | ang | slots | lanes
  | dbLevel | dbStop | tsq | microcode | ucLoad | ztb | nqe | cis | srv | rates | spn | sec | slu | sys
  | noi | net | ecc | cch | cph | thm | cal | arc | tap | imone | flash
  deriving DecidableEq, Repr

/-- The place of a field among State's fields. -/
def Field.index : Field → Nat
  | .draws => 0
  | .clock => 1
  | .ptpFrac => 2
  | .busData => 3
  | .busError => 4
  | .regs => 5
  | .sram => 6
  | .nand => 7
  | .evr => 8
  | .ang => 9
  | .slots => 10
  | .lanes => 11
  | .dbLevel => 12
  | .dbStop => 13
  | .tsq => 14
  | .microcode => 15
  | .ucLoad => 16
  | .ztb => 17
  | .nqe => 18
  | .cis => 19
  | .srv => 20
  | .rates => 21
  | .spn => 22
  | .sec => 23
  | .slu => 24
  | .sys => 25
  | .noi => 26
  | .net => 27
  | .ecc => 28
  | .cch => 29
  | .cph => 30
  | .thm => 31
  | .cal => 32
  | .arc => 33
  | .tap => 34
  | .imone => 35
  | .flash => 36

/-- The field is in `t` as it is in `s`. -/
def Field.same (f : Field) (s t : State) : Prop :=
  match f with
  | .draws => t.draws = s.draws
  | .clock => t.clock = s.clock
  | .ptpFrac => t.ptpFrac = s.ptpFrac
  | .busData => t.busData = s.busData
  | .busError => t.busError = s.busError
  | .regs => t.regs = s.regs
  | .sram => t.sram = s.sram
  | .nand => t.nand = s.nand
  | .evr => t.evr = s.evr
  | .ang => t.ang = s.ang
  | .slots => t.slots = s.slots
  | .lanes => t.lanes = s.lanes
  | .dbLevel => t.dbLevel = s.dbLevel
  | .dbStop => t.dbStop = s.dbStop
  | .tsq => t.tsq = s.tsq
  | .microcode => t.microcode = s.microcode
  | .ucLoad => t.ucLoad = s.ucLoad
  | .ztb => t.ztb = s.ztb
  | .nqe => t.nqe = s.nqe
  | .cis => t.cis = s.cis
  | .srv => t.srv = s.srv
  | .rates => t.rates = s.rates
  | .spn => t.spn = s.spn
  | .sec => t.sec = s.sec
  | .slu => t.slu = s.slu
  | .sys => t.sys = s.sys
  | .noi => t.noi = s.noi
  | .net => t.net = s.net
  | .ecc => t.ecc = s.ecc
  | .cch => t.cch = s.cch
  | .cph => t.cph = s.cph
  | .thm => t.thm = s.thm
  | .cal => t.cal = s.cal
  | .arc => t.arc = s.arc
  | .tap => t.tap = s.tap
  | .imone => t.imone = s.imone
  | .flash => t.flash = s.flash

/-- The fields that a command may change. A command that does not list `sram` stores to no byte of the
SRAM, one that does not list `nand` to none of the NAND, and one that does not list `regs` writes no
register. -/
def changes : Instr → List Field
  | .streamPause =>
    [.arc]
  | .controlWord .. | .linkTraining .. =>
    [.imone]
  | .announceRepeat .. | .pfcFrame .. | .pfcPauseEnd .. | .pfcResend .. =>
    [.net]
  | .replyCacheExpiry | .segmentTimeout .. =>
    [.noi]
  | .skewWrite .. | .failsClear =>
    [.regs]
  | .headSettleEnd .. =>
    [.slots]
  | .fltNRise .. | .supplyReturn .. =>
    [.slu]
  | .commutate =>
    [.spn]
  | .extest | .extestPulse | .extestTrain | .bypass | .idcode | .samplePreload .. | .clamp | .highz =>
    [.tap]
  | .wdkick .. =>
    [.busError, .cch]
  | .msload .. =>
    [.busError, .net]
  | .ntfy .. =>
    [.busError, .noi]
  | .retpeakWrite .. | .tsqCtlWrite .. | .minfreeWrite .. | .scrubenWrite .. | .eccInj .. | .celclr ..
  | .secLock | .workingLimitWrite .. | .tmaxWrite .. =>
    [.busError, .regs]
  | .injectionStop .. =>
    [.busError, .srv]
  | .preq .. =>
    [.busError, .tsq]
  | .zoneEngineEnable =>
    [.busError, .ztb]
  | .fwload .. =>
    [.nand, .tap]
  | .journalScanEnd =>
    [.regs, .cph]
  | .bankCheckEnd .. | .disbrk | .entfail | .periodicTrigger .. =>
    [.regs, .evr]
  | .aneffReload .. =>
    [.regs, .net]
  | .assistRampEnd .. =>
    [.regs, .slots]
  | .weirSample .. =>
    [.regs, .spn]
  | .preemptionExit .. =>
    [.regs, .tsq]
  | .sectorEnc .. | .gcmEnc .. =>
    [.sram, .cph]
  | .errlogPop =>
    [.busData, .busError, .cis]
  | .cphFwcqPop =>
    [.busData, .busError, .cph]
  | .fwqPop =>
    [.busData, .busError, .noi]
  | .exqPop =>
    [.busData, .busError, .nqe]
  | .angNowRead | .capd3Read .. =>
    [.busData, .busError, .regs]
  | .fwcqPop .. =>
    [.busData, .busError, .tsq]
  | .ptlogPop =>
    [.busData, .busError, .ztb]
  | .l2enClear | .l2enSet =>
    [.busError, .regs, .cch]
  | .cipherJobPost .. =>
    [.busError, .regs, .cph]
  | .nzoneWrite .. | .bankSwap .. | .weirLimitWrite .. | .etsWrite .. | .ptpstep .. | .ncWindowWrite ..
  | .thrWrite .. | .i5limWrite .. | .swtrig .. | .channelConfigWrite .. | .gclr .. =>
    [.busError, .regs, .evr]
  | .laneclr .. =>
    [.busError, .regs, .lanes]
  | .anadvWrite .. | .mstxpnWrite .. =>
    [.busError, .regs, .net]
  | .vcmd | .sgcmd =>
    [.busError, .regs, .sec]
  | .captureGo .. =>
    [.busError, .regs, .srv]
  | .mapin .. | .wguardWrite .. | .rcmd .. =>
    [.busError, .regs, .ztb]
  | .pageProgram .. =>
    [.draws, .nand, .flash]
  | .mapDone =>
    [.draws, .regs, .ztb]
  | .watchdogReset .. =>
    [.regs, .evr, .cch]
  | .kdone =>
    [.regs, .evr, .cph]
  | .scrublate =>
    [.regs, .evr, .ecc]
  | .autoNegotiation .. | .fback .. | .frameReceive .. | .testDurationEnd .. =>
    [.regs, .evr, .net]
  | .fwDeadline .. | .broadcastReply .. | .sessionIdle .. | .notify .. | .notifyResend .. =>
    [.regs, .evr, .noi]
  | .vdone =>
    [.regs, .evr, .sec]
  | .ilimpk =>
    [.regs, .evr, .spn]
  | .skfail .. =>
    [.regs, .evr, .srv]
  | .acdone .. =>
    [.regs, .evr, .sys]
  | .optime .. | .pexit .. | .mirrorWrite .. =>
    [.regs, .evr, .tsq]
  | .layoutCheckEnd =>
    [.regs, .evr, .ztb]
  | .compaction =>
    [.regs, .nand, .cph]
  | .clrdone =>
    [.regs, .nand, .evr]
  | .snapshotCapture | .logScan | .gaugePublish =>
    [.regs, .sram, .evr]
  | .txtsidPop =>
    [.busData, .busError, .regs, .net]
  | .rewrapGo | .rewrapAbort =>
    [.busError, .regs, .evr, .arc]
  | .keyDestroy | .keyRetire =>
    [.busError, .regs, .evr, .cph]
  | .portBack .. | .tstStop .. =>
    [.busError, .regs, .evr, .net]
  | .fwrsp .. =>
    [.busError, .regs, .evr, .noi]
  | .khprog .. | .revcmd .. | .arbadv .. =>
    [.busError, .regs, .evr, .sec]
  | .limitWrite .. | .floorWrite .. =>
    [.busError, .regs, .evr, .slu]
  | .tgtWrite .. =>
    [.busError, .regs, .evr, .spn]
  | .anchWrite .. | .coefficientWindowWrite .. | .captureStop .. =>
    [.busError, .regs, .evr, .srv]
  | .tsqKill .. =>
    [.busError, .regs, .evr, .tsq]
  | .loadImage | .patchImage =>
    [.busError, .regs, .evr, .ucLoad]
  | .btloadGo | .bandTableWrite .. =>
    [.busError, .regs, .evr, .ztb]
  | .invocationStart | .maskReseed =>
    [.draws, .regs, .evr, .cph]
  | .otpdone .. =>
    [.draws, .regs, .evr, .sec]
  | .logCommit .. | .logCommitDone .. | .logClear .. =>
    [.draws, .regs, .nand, .evr]
  | .ceWriteback =>
    [.draws, .regs, .sram, .ecc]
  | .linkup .. =>
    [.regs, .evr, .net, .arc]
  | .wguardTakesEffect | .shockClear .. | .sluiceInhibit .. | .targetCheck .. =>
    [.regs, .evr, .slots, .tsq]
  | .tstepRise | .tstepFall =>
    [.regs, .evr, .slu, .thm]
  | .sectorDec .. | .gcmDec .. =>
    [.regs, .sram, .evr, .cph]
  | .noileMessage .. | .noileRead .. | .readSeg .. | .noiAck .. | .subscribe .. | .unsubscribe ..
  | .spdmRequest .. =>
    [.regs, .sram, .evr, .noi]
  | .srvEnWrite .. =>
    [.busError, .regs, .evr, .slots, .tsq]
  | .idnAcmd .. =>
    [.busError, .regs, .evr, .sys, .imone]
  | .fwPost .. =>
    [.busError, .regs, .sram, .evr, .tsq]
  | .nandLoad .. =>
    [.draws, .busData, .busError, .nand, .flash]
  | .rngRead =>
    [.draws, .busData, .busError, .regs, .cph]
  | .keyLoad =>
    [.draws, .busError, .regs, .evr, .cph]
  | .cisCtlWrite .. =>
    [.draws, .busError, .regs, .evr, .net]
  | .linkdn .. =>
    [.draws, .regs, .evr, .net, .arc]
  | .journalRecordDurable .. =>
    [.draws, .regs, .nand, .evr, .cph]
  | .writebackIssue =>
    [.draws, .regs, .sram, .ecc, .cch]
  | .scrubRead =>
    [.draws, .regs, .sram, .evr, .ecc]
  | .connect .. =>
    [.draws, .regs, .sram, .evr, .nqe]
  | .sgdone =>
    [.draws, .regs, .sram, .evr, .sec]
  | .zeroCrossingsSeen .. | .acquireEntry =>
    [.regs, .evr, .ang, .slots, .tsq]
  | .supplyExcursion .. | .fltNFall .. =>
    [.regs, .evr, .slots, .tsq, .slu]
  | .seekOp .. | .outputApply .. =>
    [.regs, .evr, .slots, .tsq, .srv]
  | .governorInterval =>
    [.regs, .evr, .spn, .slu, .thm]
  | .lddone =>
    [.regs, .evr, .tsq, .microcode, .ucLoad]
  | .allocation .. | .allocationRetry .. | .reclaim =>
    [.regs, .sram, .evr, .cis, .net]
  | .builderIssue .. | .tailVerifyTrigger .. | .writeReissue .. =>
    [.regs, .sram, .evr, .tsq, .ztb]
  | .cisGiveEngine .. | .cisFreeEngine .. | .rebuild | .cisFree .. | .cisGive .. =>
    [.busError, .regs, .sram, .evr, .cis, .net]
  | .portMove .. =>
    [.draws, .busError, .regs, .evr, .net, .arc]
  | .clearActuator .. =>
    [.draws, .busError, .regs, .evr, .sys, .net]
  | .nandStore .. | .nandErase .. =>
    [.draws, .busError, .regs, .nand, .evr, .flash]
  | .basinenClear =>
    [.draws, .busError, .regs, .sram, .ecc, .cch]
  | .l2Miss .. | .draindone =>
    [.draws, .regs, .sram, .evr, .ecc, .cch]
  | .dutyBucketUpdate =>
    [.regs, .evr, .slots, .dbLevel, .dbStop, .tsq]
  | .shockReading .. =>
    [.regs, .evr, .slots, .tsq, .rates, .slu]
  | .preampSupplyLimit .. =>
    [.regs, .evr, .slots, .tsq, .slu, .imone]
  | .streamStart | .streamAbort | .streamEntryStart .. | .peerCompletion .. =>
    [.regs, .sram, .evr, .cis, .net, .arc]
  | .packetConsume .. =>
    [.regs, .sram, .evr, .cis, .net, .cph]
  | .authenticationSend .. | .authenticationReceive .. | .identify .. | .getLogPage ..
  | .arbitration .. | .powerManagement .. | .temperatureThreshold .. | .errorRecovery ..
  | .numberOfQueues .. | .asynchronousEventConfiguration .. | .keepAliveTimer .. | .getFeatures ..
  | .asynchronousEventRequest .. | .keepAlive .. | .firmwareImageDownload .. | .exitFailureMode ..
  | .blockErase .. | .nvmFlush .. | .nvmCompare .. | .zoneManagementReceive .. =>
    [.regs, .sram, .evr, .nqe, .cis, .net]
  | .rcvdone .. =>
    [.regs, .sram, .evr, .slots, .tsq, .ztb]
  | .fwrxqPop .. | .cisAlloc | .cisAllocr =>
    [.busData, .busError, .regs, .sram, .evr, .cis, .net]
  | .runDrop .. | .flushRunnel .. | .portDisable .. | .fwtx .. =>
    [.busError, .regs, .sram, .evr, .cis, .net, .cph]
  | .cplpost .. =>
    [.busError, .regs, .sram, .evr, .nqe, .cis, .net]
  | .injectionGo .. =>
    [.draws, .busError, .regs, .evr, .slots, .tsq, .srv]
  | .sramWrite .. | .narrowWrite .. =>
    [.draws, .busError, .regs, .sram, .evr, .ecc, .cch]
  | .comparatorEdge .. | .observeEnd | .alignEnd | .brakeQuiet | .spnStopped =>
    [.draws, .regs, .evr, .slots, .tsq, .spn, .net]
  | .sectorResult .. =>
    [.draws, .regs, .sram, .evr, .lanes, .tsq, .ztb]
  | .propertyGet .. =>
    [.draws, .regs, .sram, .evr, .nqe, .cis, .net]
  | .frameTransmit .. =>
    [.regs, .sram, .evr, .cis, .slu, .net, .cph]
  | .nvmRead .. | .nvmVerify .. =>
    [.regs, .sram, .evr, .nqe, .cis, .net, .cph]
  | .commitAction1 .. | .commitAction2 .. =>
    [.regs, .sram, .nand, .evr, .nqe, .cis, .net]
  | .sramRead .. =>
    [.draws, .busData, .busError, .regs, .sram, .evr, .ecc, .cch]
  | .spnRun | .spnStop | .spnCoast =>
    [.draws, .busError, .regs, .evr, .slots, .tsq, .spn, .net]
  | .coarseTimeout | .angQpost .. | .angQflush .. | .readRun .. | .pairedRead .. | .writeRun ..
  | .tailVerify .. | .prebias .. =>
    [.draws, .regs, .evr, .ang, .slots, .lanes, .tsq, .srv]
  | .servoSample .. =>
    [.draws, .regs, .evr, .slots, .tsq, .srv, .spn, .net]
  | .writeSeg .. =>
    [.draws, .regs, .sram, .nand, .evr, .sec, .noi, .arc]
  | .zoneCommandEnd | .copyEnd =>
    [.regs, .sram, .evr, .slots, .tsq, .ztb, .cis, .net]
  | .disconnect .. | .nvmAbort .. | .keepAliveExpiry .. | .deleteIoSubmissionQueue ..
  | .controllerReset .. | .connectionLoss .. =>
    [.regs, .sram, .evr, .tsq, .ztb, .nqe, .cis, .net]
  | .setState .. | .zcmdReset .. =>
    [.busError, .regs, .sram, .evr, .slots, .tsq, .ztb, .cis, .net]
  | .tstGo .. =>
    [.draws, .busError, .regs, .sram, .nand, .evr, .net, .cal, .arc]
  | .resetNLow =>
    [.draws, .regs, .evr, .slots, .tsq, .srv, .spn, .sys, .net]
  | .openZone .. | .closeZone .. | .finishZone .. | .zoneReset .. =>
    [.regs, .sram, .evr, .slots, .tsq, .ztb, .nqe, .cis, .net]
  | .invocationEnd .. =>
    [.regs, .sram, .evr, .ztb, .nqe, .cis, .net, .cph, .arc]
  | .rwack =>
    [.busError, .regs, .sram, .evr, .slots, .tsq, .ztb, .cis, .net, .arc]
  | .slack .. | .opack .. =>
    [.busError, .regs, .sram, .evr, .slots, .tsq, .ztb, .nqe, .cis, .net]
  | .phaseSample .. | .angHold | .revolutionWrap | .wgOn .. | .wgOff .. | .rgOn .. | .rgOff ..
  | .tgOn .. | .tgOff .. | .assistOn .. | .assistOff .. | .laneStart .. | .syncOpen .. | .headSel ..
  | .seqWake .. | .markAction .. =>
    [.draws, .clock, .ptpFrac, .regs, .evr, .ang, .slots, .lanes, .tsq, .srv]
  | .nvmWrite .. | .writeZeroes .. | .zoneAppend .. =>
    [.regs, .sram, .evr, .slots, .tsq, .ztb, .nqe, .cis, .net, .cph]
  | .racqok =>
    [.draws, .clock, .ptpFrac, .regs, .evr, .ang, .slots, .lanes, .tsq, .srv, .spn]
  | .powerStateEntry =>
    [.draws, .regs, .evr, .slots, .tsq, .nqe, .spn, .slu, .sys, .net, .arc]
  | .loadEnd | .chainsOnline .. =>
    [.draws, .regs, .evr, .slots, .tsq, .nqe, .spn, .slu, .sys, .net, .cal, .arc]
  | .bemfCrossing .. | .missedCrossing =>
    [.draws, .regs, .evr, .slots, .tsq, .nqe, .srv, .spn, .slu, .sys, .net, .arc]
  | .scanOp .. =>
    [.draws, .regs, .sram, .evr, .ang, .slots, .lanes, .tsq, .ztb, .cis, .srv, .net]
  | .mreqStandby | .mreqSpinning | .mreqSlow | .mreqReady | .mreqTest | .calibrate | .calibrateDeferred =>
    [.draws, .busError, .regs, .evr, .slots, .tsq, .nqe, .spn, .slu, .sys, .net, .cal, .arc]
  | .headsUnloaded =>
    [.draws, .regs, .evr, .ang, .slots, .lanes, .tsq, .nqe, .srv, .spn, .slu, .net, .arc]
  | .racqfail | .handoverTimeout | .startfail | .kat .. | .transitionStepDone .. | .loadTimeout
  | .clockLoss .. =>
    [.draws, .regs, .evr, .slots, .tsq, .nqe, .srv, .spn, .slu, .sys, .net, .cal, .arc]
  | .calRecordDurable .. =>
    [.draws, .regs, .nand, .evr, .slots, .tsq, .nqe, .spn, .slu, .sys, .net, .cal, .arc]
  | .tailReload .. =>
    [.draws, .regs, .sram, .evr, .ang, .slots, .lanes, .tsq, .ztb, .nqe, .cis, .srv, .net]
  | .addressTableWrite .. =>
    [.draws, .regs, .sram, .nand, .evr, .tsq, .ztb, .nqe, .cis, .sec, .noi, .net, .arc]
  | .shreq =>
    [.draws, .busError, .regs, .evr, .slots, .tsq, .nqe, .srv, .spn, .slu, .sys, .net, .cal, .arc]
  | .temperatureSample .. =>
    [.draws, .regs, .evr, .slots, .tsq, .nqe, .srv, .spn, .slu, .sys, .net, .thm, .cal, .arc]
  | .surveyEnd .. =>
    [.draws, .regs, .sram, .evr, .slots, .tsq, .nqe, .srv, .spn, .slu, .sys, .net, .cal, .arc]
  | .commandFetch .. =>
    [.draws, .regs, .sram, .evr, .slots, .tsq, .ztb, .nqe, .cis, .spn, .slu, .sys, .net, .arc]
  | .commitAction3 .. =>
    [.draws, .regs, .sram, .nand, .evr, .slots, .tsq, .nqe, .cis, .sec, .slu, .sys, .net, .arc]
  | .acquireTimeout | .holdoverExpiry =>
    [.draws, .clock, .ptpFrac, .regs, .evr, .ang, .slots, .lanes, .tsq, .nqe, .srv, .spn, .slu, .net,
    .arc]
  | .activationFallback =>
    [.draws, .regs, .sram, .evr, .slots, .tsq, .ztb, .nqe, .cis, .spn, .sec, .slu, .sys, .net, .arc]
  | .cryptoErase .. | .overwrite .. =>
    [.draws, .regs, .sram, .evr, .slots, .tsq, .ztb, .nqe, .cis, .spn, .slu, .sys, .net, .cph, .arc]
  | .dispatch .. =>
    [.draws, .regs, .sram, .evr, .slots, .lanes, .tsq, .ztb, .nqe, .cis, .spn, .sec, .slu, .sys, .net,
    .arc]
  | .bootEnd .. =>
    [.draws, .regs, .sram, .evr, .slots, .tsq, .microcode, .nqe, .srv, .spn, .sec, .slu, .sys, .net,
    .cal, .arc]
  | .fillEnd .. =>
    [.draws, .regs, .sram, .evr, .slots, .tsq, .nqe, .srv, .spn, .sec, .slu, .sys, .net, .ecc, .cal,
    .arc]
  | .ucpar .. | .retractEnd .. | .pfaultHold .. =>
    [.draws, .regs, .sram, .evr, .slots, .tsq, .ztb, .nqe, .cis, .srv, .spn, .slu, .sys, .net, .cal,
    .arc]
  | .powerLoss =>
    [.draws, .regs, .sram, .nand, .evr, .slots, .tsq, .nqe, .srv, .spn, .slu, .sys, .net, .cal, .arc,
    .imone]
  | .holdActuator .. =>
    [.draws, .busError, .regs, .sram, .evr, .slots, .tsq, .ztb, .nqe, .cis, .srv, .spn, .slu, .sys,
    .net, .cal, .arc]
  | .fwactHold .. =>
    [.draws, .busError, .regs, .sram, .nand, .evr, .slots, .tsq, .ztb, .nqe, .cis, .spn, .sec, .slu,
    .sys, .net, .arc]
  | .obsfail =>
    [.draws, .clock, .ptpFrac, .regs, .evr, .ang, .slots, .lanes, .tsq, .nqe, .srv, .spn, .slu, .sys,
    .net, .cal, .arc]
  | .nopWord .. | .movWord .. | .moviWord .. | .movhiWord .. | .addWord .. | .subWord .. | .addiWord ..
  | .andWord .. | .orWord .. | .xorWord .. | .shliWord .. | .shriWord .. | .angaddWord .. | .cmpWord ..
  | .cmpiWord .. | .mfsWord .. | .brWord .. | .callWord .. | .retWord .. | .gateWord .. | .laneWord ..
  | .descWord .. | .postWord .. | .haltWord .. | .waitcWord .. =>
    [.draws, .regs, .sram, .evr, .slots, .lanes, .tsq, .ztb, .nqe, .cis, .spn, .sec, .slu, .sys, .net,
    .cph, .arc]
  | .sectorDeadline .. =>
    [.draws, .regs, .sram, .evr, .slots, .lanes, .tsq, .ztb, .nqe, .cis, .srv, .spn, .slu, .sys, .net,
    .cal, .arc]
  | .preampWord .. =>
    [.draws, .regs, .sram, .evr, .slots, .tsq, .ztb, .nqe, .cis, .srv, .spn, .slu, .sys, .net, .cal,
    .arc, .imone]
  | .classSInterrupt .. =>
    [.draws, .regs, .sram, .evr, .ang, .slots, .lanes, .tsq, .ztb, .nqe, .cis, .srv, .spn, .sec, .slu,
    .sys, .net, .arc]
  | .mtsWord .. =>
    [.draws, .regs, .sram, .evr, .slots, .lanes, .tsq, .ztb, .nqe, .cis, .srv, .spn, .sec, .slu, .sys,
    .net, .cph, .arc]
  | .armWord .. =>
    [.draws, .regs, .sram, .evr, .ang, .slots, .lanes, .tsq, .ztb, .nqe, .cis, .srv, .spn, .sec, .slu,
    .sys, .net, .cph, .arc]
  | .registerWrite .. =>
    [.draws, .busError, .regs, .sram, .nand, .evr, .ang, .slots, .lanes, .tsq, .ucLoad, .ztb, .nqe,
    .cis, .srv, .spn, .sec, .slu, .sys, .noi, .net, .ecc, .cch, .cph, .cal, .arc, .imone]
  | .propertySet .. | .nssr .. | .noileWrite .. | .powerOnReset | .pinReset | .fullReset | .subsysReset =>
    [.draws, .clock, .ptpFrac, .busData, .busError, .regs, .sram, .nand, .evr, .ang, .slots, .lanes,
    .dbLevel, .dbStop, .tsq, .microcode, .ucLoad, .ztb, .nqe, .cis, .srv, .rates, .spn, .sec, .slu,
    .sys, .noi, .net, .ecc, .cch, .cph, .thm, .cal, .arc, .tap, .imone, .flash]

end Sys2Proof.Machine
end

