-- ==== Sys2Proof/Safety.lean ====
section
/-! DEFINITION. What a safe state of the block is: the canonical forms of its stores, and as many of
each numbered unit as the module has. -/

namespace Sys2Proof.Machine

/-- The SRAM, the NAND and the registers are in canonical form. -/
def Memory.wf (s : State) : Bool :=
  scanon regReset s.regs && scanon sramDflt s.sram && scanon nandDflt s.nand

/-- A context has its sixteen general registers (R132). -/
def Ctx.sized (c : Ctx) : Bool := c.g.length == 16

/-- A sequencer has its five contexts (R132). -/
def Tsq.sized (t : Tsq) : Bool := t.ctxs.length == 5 && t.ctxs.all Ctx.sized

/-- A servo engine has its four slots and their milliactuator laws. -/
def Srv.sized (v : Srv) : Bool := v.slots.length == 4 && v.ma.length == 4

/-- The ports and the Runnels. -/
def NetState.sized (n : NetState) : Bool := n.ports.length == 2 && n.runnels.length == 32

/-- The eight angle-event queues. -/
def AngState.sized (a : AngState) : Bool := a.queues.length == 8

/-- There are as many of each numbered unit as the module has: eight head slots, sixteen lanes, 24 heads,
two sequencers, two servo engines, two preamplifier links, two ports, 32 Runnels and eight angle-event
queues. -/
def State.sized (s : State) : Bool :=
  s.slots.length == 8 && s.lanes.length == 16 && s.dbLevel.length == 24 && s.dbStop.length == 24
    && s.tsq.length == 2 && s.tsq.all Tsq.sized && s.srv.length == 2 && s.srv.all Srv.sized
    && s.imone.length == 2 && s.net.sized && s.ang.sized

/-- The stores are canonical and every numbered unit is there. -/
def State.wf (s : State) : Bool := Memory.wf s && s.sized

/-- The command runs on `s`, and the state it leaves has the property `P`. -/
def Completes (c : Instr) (s : State) (P : State → Prop) : Prop :=
  ∃ t, exec c s = .next t ∧ P t

end Sys2Proof.Machine
end

