-- ==== Sys2Proof/Machine/Terms.lean ====
section
/-! DEFINITION. Terms that the statements use: situations of the module that several statements assume, and
frames of its registers and contexts. -/

namespace Sys2Proof.Machine

/-- Every register but those at the offsets `l` reads in `t` as in `s`. -/
def OnlyRegs (l : List Nat) (s t : State) : Prop := ∀ b, b ∉ l → rd t b = rd s b

/-- Every register but those at the offsets `l` and those of the event recorder, which counts its own
triggers, reads in `t` as in `s`. -/
def OnlyRegsEvr (l : List Nat) (s t : State) : Prop := ∀ b, b ∉ l → b / 0x10000 ≠ 19 → rd t b = rd s b

/-- Every angle-event queue is empty. -/
abbrev QueuesEmpty (s : State) : Prop := ∀ k < 8, queueOf s k = []

/-- Entry `e` stands alone in the queue of slot `n`, the other queues are empty, and the counter, which runs,
has reached the entry's angle. -/
abbrev FiresNow (s : State) (n : Nat) (e : AngEntry) : Prop :=
  s.ang.freq ≠ 0 ∧ e.due ≤ s.ang.incs ∧ ∀ k < 8, queueOf s k = if k = n then [e] else []

/-- Context `x` of sequencer `q` executes microword `w` of operation `op` next: it runs, no class S cause and no
preemption exit is due, and the segment has room for the word (R138, R149). -/
abbrev WordRuns (s : State) (q x w op : Nat) : Prop :=
  (ctxAt s q x).busy = true ∧ (ctxAt s q x).pendS = [] ∧ exitDue (ctxAt s q x) = false
    ∧ microword s (ctxAt s q x).pc = w ∧ mwOp w = op ∧ (ctxAt s q x).clocks + mwClocks w ≤ 256

/-- The word `w` has taken effect in state `u`, which has `P` and goes on at `next`; the step then carries out
the word's commit point, if it has one. -/
def WordEnds (q x : Nat) (commit : Bool) (w next : Nat) (s t : State) (P : State → Prop) : Prop :=
  ∃ u, t = (if commit then commitCtx q x u else u) ∧ (ctxAt u q x).pc = next % 2 ^ 13
    ∧ (ctxAt u q x).lastPc = (ctxAt s q x).pc ∧ (ctxAt u q x).clocks = (ctxAt s q x).clocks + mwClocks w ∧ P u

/-- Every part of the state but the sequencers, and every other context, is in `t` as in `s`. -/
def OnlyCtx (q x : Nat) (s t : State) : Prop :=
  (∀ f : Field, f ≠ .tsq → f.same s t) ∧ ∀ r y, r ≠ q ∨ y ≠ x → ctxAt t r y = ctxAt s r y

/-- The word changes no general register but `r`, and of the flags leaves what `f` says. -/
def WordSets (q x r : Nat) (v : Word) (f : Flags) (s u : State) : Prop :=
  greg u q x r = v ∧ (∀ k : Fin 16, k.val ≠ r → greg u q x k = greg s q x k) ∧ (ctxAt u q x).flags = f
    ∧ OnlyCtx q x s u

/-- Operation `op` runs in context `x` of sequencer `q`, and the slot of the context already has its head. -/
abbrev OpStands (s : State) (q x op : Nat) : Prop :=
  runsOp s q x op = true ∧ slotHead s (ctxSlot q x) = some (dHead s q x)

/-- A lane holds MODE, TRACK, FIRST and the buffer list that an operation programs (R144). -/
def LaneHolds (l : Lane) (mode track first bufl : Nat) : Prop :=
  l.mode = mode ∧ l.track = track % 2 ^ 24 ∧ l.first = first % 2 ^ 10 ∧ l.bufl = bitsOf bufl 2 27 * 4

/-- Firmware serves the admin command `c` of opcode `op` in slot `k` (R242). -/
abbrev FirmwareHas (s : State) (k op : Nat) (c : HostCmd) : Prop :=
  cmdAt s k = some c ∧ c.phase = .firmware ∧ c.opcode = op ∧ c.sqid = 0

/-- Firmware serves the Fabrics command `c` of type `ty` in slot `k`. -/
abbrev FabricsHas (s : State) (k ty : Nat) (c : HostCmd) : Prop :=
  cmdAt s k = some c ∧ c.phase = .firmware ∧ c.opcode = AdminOp.fabrics ∧ c.arg = ty

/-- The queue engine holds the I/O command `c` of opcode `op` in slot `k`, which waits for nothing (R244). -/
abbrev EngineHas (s : State) (k op : Nat) (c : HostCmd) : Prop :=
  cmdAt s k = some c ∧ c.phase = .fetched ∧ c.nvm = true ∧ c.opcode = op ∧ engineRuns s = true
    ∧ mustWait s c = false

/-- The next completion posted is that of command `c` with status `st` and the Dwords `d0` and `d1`, and its
slot is free. -/
abbrev Answered (c : HostCmd) (st d0 d1 : Nat) (s t : State) : Prop :=
  s.nqe.posted ++ [⟨c.assoc, c.sqid, c.cid, st, false, d0, d1⟩] <+: t.nqe.posted ∧ cmdAt t c.slot = none

/-- The request that datagram `d` carries. -/
abbrev datagramRequest (d : NoiDatagram) : NoiRequest :=
  requestOf (datagramFrom d (d.bytes.map BitVec.toNat)) (d.bytes.map BitVec.toNat)

/-- Datagram `d` brings a well-formed message to the engine, which takes it (R265 to R272). -/
abbrev NoileArrives (s : State) (d : NoiDatagram) : Prop :=
  bit s Reg.NOI_CTL 0 = true ∧ mode s ≠ Mode.fill ∧ mode s ≠ Mode.boot ∧ familyOk s d.addr.toNat = true
    ∧ d.fragmented = false ∧ d.bytes.length ≤ 1232 ∧ wellFormed (d.bytes.map BitVec.toNat) = true

/-- The message outside sessions is to this node alone, and repeats no other. -/
abbrev NoileNew (s : State) (d : NoiDatagram) : Prop :=
  NoileArrives s d ∧ hdr (d.bytes.map BitVec.toNat) 4 4 = getF s Reg.NOI_NODE 0 20
    ∧ hdr (d.bytes.map BitVec.toNat) 4 4 ≠ broadcastNode ∧ (datagramRequest d).who.session = none
    ∧ (datagramRequest d).op ≠ NoiOp.ack
    ∧ (s.noi.cache.any fun c => sameRequester c.req.who (datagramRequest d).who
        && c.req.reqid == (datagramRequest d).reqid) = false
    ∧ pendingSlot s (datagramRequest d) = none

/-- Firmware has popped the request of slot `k`, which passes its checks, and answers it in time (R281). -/
abbrev NoileServed (s : State) (k : Nat) (x : NoiSlot) : Prop :=
  noiSlot s k = some x ∧ x.popped = true ∧ x.late = false ∧ fwServes s = true
    ∧ makerIndex x.req.index = false ∧ noiCheck s x.priv x.req = 0

/-- A step between modes belongs to a request, and in SAFE-HOLD no request, no step and no calibration is in
progress (R422, R441). -/
abbrev ModeQuiet (s : State) : Prop :=
  (s.sys.step.isSome = true → s.sys.target.isSome = true)
    ∧ (mode s = Mode.safeHold → s.sys.target = none ∧ s.sys.step = none ∧ s.sys.next = none ∧ s.cal.run = none)

/-- The command is one of the resets by which the module leaves SAFE-HOLD (R442). -/
abbrev EndsSafeHold (c : Instr) : Prop :=
  c = .powerOnReset ∨ c = .pinReset ∨ c = .fullReset ∨ c = .subsysReset ∨ ∃ a, c = .nssr a

/-- The value of the object of a request, as its requester reads it. -/
abbrev valueOf (s : State) (r : NoiRequest) : List Nat :=
  ((objectAt r.index r.sub).map fun o => o.value s r.who).getD []

/-- One message is sent, and it has the property `P`. -/
def SendsNoi (s t : State) (P : NoiMessage → Prop) : Prop := ∃ m, t.noi.sent = s.noi.sent ++ [m] ∧ P m

end Sys2Proof.Machine
end

