-- ==== Sys2Proof/Certificates/Slice0/Obligations.lean ====
section
/-! DEFINITION. The statements about the model. The general ones come first; then one for each group of commands,
which says of every command of the group that it completes and what the state then holds. -/

open Sys2Proof Sys2Proof.Machine

/-- A step of a state with a command at the front of its queue is exec of that command on the state with the
rest of the queue. The queue is the model's (log entry 1). -/
def Obligations.StepRunsFrontCommand : Prop :=
  ∀ (c : Instr) (rest : List Instr) (s : State), s.pending = c :: rest →
    step s = exec c { s with pending := rest }

/-- A step on an empty queue completes and leaves the queue empty; where the angle counter is stopped, one
fabric clock has passed. This is the model's choice (log entry 2). -/
def Obligations.EmptyQueuePassesTime : Prop :=
  ∀ (s : State), s.pending = [] →
    step s = .next (idle s) ∧ (idle s).pending = [] ∧ (s.ang.freq = 0 → (idle s).clock = s.clock + 1)

/-- After reset the stores are canonical and every unit is there, the queue is empty, every register reads
as its reset value, SRAM and NAND list nothing, the module is in FILL, and no request or calibration is
in progress. The values that the registers' tables do not give are the model's (log entries 3 and 63). -/
def Obligations.ResetIsWellFormed : Prop :=
  State.reset.wf = true ∧ State.reset.pending = [] ∧ State.reset.sram = [] ∧ State.reset.nand = []
    ∧ (∀ a, rd State.reset a = regReset a) ∧ mode State.reset = Mode.fill ∧ ModeQuiet State.reset

/-- From a state whose registers, SRAM and NAND are in canonical form and that has as many of each unit as
the module has, every step that completes leads to such a state. -/
def Obligations.StepKeepsWellFormed : Prop :=
  ∀ (s t : State), s.wf = true → step s = .next t → t.wf = true

/-- Every command completes in every state. It leaves the queue as it is, and every part of the state that
is not among its changes: the registers, the memories, the engines and the pins of all other parts are
as before. -/
def Obligations.CommandsChangeOnlyTheirState : Prop :=
  ∀ (c : Instr) (s : State), ∃ t, exec c s = .next t ∧ t.pending = s.pending ∧ ∀ f : Field, f ∉ changes c → f.same s t

/-- A programmed bit of REVOKE never returns to 0, and ARB's count of programmed bits never falls, whatever
step is taken, resets and failed operations among them. -/
def Obligations.FusesOnlyGrow : Prop :=
  ∀ (s t : State), step s = .next t →
    s.sec.arb ≤ t.sec.arb ∧ ∀ n, s.sec.revoke.testBit n = true → t.sec.revoke.testBit n = true

/-- After a power loss every step but one whose command is a power-on reset leaves the power loss standing. -/
def Obligations.PowerLossEndsOnlyInPowerOnReset : Prop :=
  ∀ (s t : State), s.sys.powerLost = true → s.pending.head? ≠ some .powerOnReset → step s = .next t →
    t.sys.powerLost = true

/-- In a state in which a step between modes belongs to a request, and SAFE-HOLD has no request, step or
calibration in progress, every step keeps that; and in SAFE-HOLD every step but a power-on, pin, FULL or
SUBSYS reset stays in SAFE-HOLD. That every reset takes its whole effect in one step is the model's (log
entry 51). -/
def Obligations.SafeHoldEndsOnlyByReset : Prop :=
  ∀ (s t : State), ModeQuiet s → step s = .next t →
    ModeQuiet t ∧ (mode s = Mode.safeHold → (∀ c, s.pending.head? = some c → ¬ EndsSafeHold c) → mode t = Mode.safeHold)

/-- Crossings take FREE to COARSE at the crossing rate; the timeout takes COARSE to FREE with the counter
stopped; loaded heads take COARSE to ACQUIRE; two revolutions without lock take ACQUIRE back to COARSE
with ACQ_FAIL; a wedge interval without a sample takes LOCKED to HOLDOVER with its event; the end of
HOLDOVER goes to COARSE; unloaded heads take LOCKED and HOLDOVER to COARSE with the loss and the flush
shown. Where the rules leave a point open it has the model's choice of log entries 7 and 13. -/
def Obligations.AngleClockStates : Prop :=
  ∀ (s : State), s.wf = true →
    (∀ (period : Word), angState s = angFree → getF s Reg.SPN_MOT 0 4 * period.toNat ≠ 0 →
      Completes (.zeroCrossingsSeen period) s fun t => angState t = angCoarse
        ∧ t.ang.freq = (ticksPerRev : Rat) / ((getF s Reg.SPN_MOT 0 4 * period.toNat : Nat) : Rat))
    ∧ (angState s = angCoarse →
      Completes .coarseTimeout s fun t => angState t = angFree ∧ t.ang.freq = 0)
    ∧ (angState s = angCoarse → (loaded s 0 || loaded s 1) = true →
      Completes .acquireEntry s fun t => angState t = angAcquire ∧ t.ang.freq = s.ang.coarseFreq ∧ t.ang.acqStart = s.ang.incs)
    ∧ (angState s = angAcquire →
      Completes .acquireTimeout s fun t => angState t = angCoarse ∧ bit t Reg.ANG_EVT 3 = true)
    ∧ (angState s = angLocked →
      Completes .angHold s fun t => angState t = angHoldover ∧ bit t Reg.ANG_EVT 2 = true)
    ∧ (angState s = angHoldover →
      Completes .holdoverExpiry s fun t => angState t = angCoarse)
    ∧ (angState s = angLocked ∨ angState s = angHoldover → (loaded s 0 || loaded s 1) = false →
      Completes .headsUnloaded s fun t => angState t = angCoarse ∧ bit t Reg.ANG_EVT 1 = true ∧ bit t Reg.ANG_EVT 4 = true)

/-- When the counter has reached the angle of the one entry that waits, its action takes effect on the
slot's gates, assist, lanes, head or context, or latches the time, and the entry leaves its queue. Where
the rules leave a point open it has the model's choice of log entries 7, 13 and 14. -/
def Obligations.AngleEntriesFire : Prop :=
  ∀ (s : State) (n : Fin 8) (e : AngEntry), s.wf = true → FiresNow s n e →
    (e.action = 0x01 → (slotHead s n).isSome = true →
      Completes (.wgOn n) s fun t => (slotAt t n).wg = true ∧ queueOf t n = [])
    ∧ (e.action = 0x02 →
      Completes (.wgOff n) s fun t => (slotAt t n).wg = false ∧ wgLatched t n = false ∧ queueOf t n = [])
    ∧ (e.action = 0x03 → (slotHead s n).isSome = true →
      Completes (.rgOn n) s fun t => (slotAt t n).rg = true ∧ queueOf t n = [])
    ∧ (e.action = 0x04 →
      Completes (.rgOff n) s fun t => (slotAt t n).rg = false ∧ queueOf t n = [])
    ∧ (e.action = 0x05 → (slotHead s n).isSome = true →
      Completes (.tgOn n) s fun t => (slotAt t n).tg = true ∧ queueOf t n = [])
    ∧ (e.action = 0x06 →
      Completes (.tgOff n) s fun t => (slotAt t n).tg = false ∧ queueOf t n = [])
    ∧ (e.action = 0x07 → (slotHead s n).isSome = true →
      Completes (.assistOn n) s fun t => (slotAt t n).assist = true ∧ queueOf t n = [])
    ∧ (e.action = 0x08 →
      Completes (.assistOff n) s fun t => (slotAt t n).assist = false ∧ assistLatched t n = false ∧ queueOf t n = [])
    ∧ (e.action = 0x09 → laneStartOk s n (laneOf n (e.arg.testBit 15)) = true →
      Completes (.laneStart n) s fun t => (laneAt t (laneOf n (e.arg.testBit 15))).run.map LaneRun.left
          = (if bitsOf e.arg 0 10 = 0 then none else some (bitsOf e.arg 0 10)) ∧ queueOf t n = [])
    ∧ (e.action = 0x0A →
      Completes (.syncOpen n) s fun t => (laneAt t (laneOf n (e.arg.testBit 15))).halves.head?
          = some (t.ang.incs, if bitsOf e.arg 0 8 = 0 then none else some (bitsOf e.arg 0 8)) ∧ queueOf t n = [])
    ∧ (e.action = 0x0B → headBusy s n e.arg = false → e.arg < getF s (Reg.LANE_ACFG (slotAct n)) 8 4 → (slotAt s n).wgFired = false → (slotAt s n).assistEn = false →
      Completes (.headSel n) s fun t => rdN t (Reg.LANE_SLHEAD n) = 0x80 + e.arg ∧ (slotAt t n).settling = true ∧ queueOf t n = [])
    ∧ (e.action = 0x0C →
      Completes (.seqWake n) s fun t => (ctxAt t (slotAct n) (n % 4)).wakes = (ctxAt s (slotAct n) (n % 4)).wakes ++ [(e.arg, false)]
          ∧ queueOf t n = [])
    ∧ (e.action = 0x0D →
      Completes (.markAction n) s fun t => rd64 t (Reg.ANG_MARKTIME n) = ptp t ∧ queueOf t n = [])

/-- A wrap of the counter counts ANG_REV; a read of ANG_NOW latches the revolution and the PTP time and
changes no other register; a write of ANG_SKEW stores 22 bits; a posting in TEST that passes the checks
joins its queue; a flush of one slot empties its queue only; the first good sample in ACQUIRE puts the
counter at its wedge's angle. Where the rules leave a point open it has the model's choice of log
entries 13 and 14. -/
def Obligations.AngleCounterCommands : Prop :=
  ∀ (s : State), s.wf = true →
    (angState s ≠ angFree → s.ang.freq ≠ 0 → QueuesEmpty s →
      Completes .revolutionWrap s fun t => angNow t = 0 ∧ rdN t Reg.ANG_REV = (rdN s Reg.ANG_REV + 1) % 2 ^ 32 ∧ rdN t Reg.ANG_IDXREV = rdN t Reg.ANG_REV)
    ∧ (Completes .angNowRead s fun t => t.busData = angNow s ∧ rdN t Reg.ANG_NOWREV = rdN s Reg.ANG_REV ∧ rd64 t Reg.ANG_NOWTIME = ptp s
        ∧ OnlyRegs [Reg.ANG_NOWREV, Reg.ANG_NOWTIME, Reg.ANG_NOWTIME + 4] s t)
    ∧ (∀ (f : Fin 24) (v : Word),
      Completes (.skewWrite f v) s fun t => rdN t (Reg.ANG_SKEW f) = v.toNat % 2 ^ 22 ∧ OnlyRegs [Reg.ANG_SKEW f, Reg.ANG_STS] s t)
    ∧ (∀ (v : DWord), mode s = Mode.test → postCheck s (getF s Reg.ANG_QPSEL 0 3) (bitsOf v.toNat 32 8) (bitsOf v.toNat 40 16) (bitsOf v.toNat 27 5)
        (bitsOf v.toNat 0 22) = .ok →
      Completes (.angQpost v) s fun t => getF t Reg.ANG_QPSEL 8 3 = 0 ∧ (queueOf t (getF s Reg.ANG_QPSEL 0 3)).length = (queueOf s (getF s Reg.ANG_QPSEL 0 3)).length + 1
        ∧ ∃ e ∈ queueOf t (getF s Reg.ANG_QPSEL 0 3), e.action = bitsOf v.toNat 32 8 ∧ e.arg = bitsOf v.toNat 40 16
          ∧ e.angle = globalAngle s (bitsOf v.toNat 27 5) (bitsOf v.toNat 0 22))
    ∧ (∀ (v : DWord) (st : PostStatus), mode s = Mode.test → st ≠ .ok → st ≠ .late → postCheck s (getF s Reg.ANG_QPSEL 0 3) (bitsOf v.toNat 32 8) (bitsOf v.toNat 40 16) (bitsOf v.toNat 27 5)
        (bitsOf v.toNat 0 22) = st →
      Completes (.angQpost v) s fun t => getF t Reg.ANG_QPSEL 8 3 = st.code ∧ OnlyRegs [Reg.ANG_QPSEL, Reg.ANG_QPOST, Reg.ANG_QPOST + 4] s t ∧ t.ang = s.ang)
    ∧ (∀ (n : Fin 8) (v : Word), v.getLsbD 0 = true →
      Completes (.angQflush n v) s fun t => queueOf t n = [] ∧ ∀ k : Fin 8, k ≠ n → queueOf t k = queueOf s k)
    ∧ (∀ (a : Fin 2) (x : Fin (2 ^ 25)) (w : Fin 1024) (f : Nat), angState s = angAcquire → s.ang.reBased = false → QueuesEmpty s → loaded s a = true → slotSurface s (anchorSlot s a) = some f → bit s Reg.ANG_CTL a = true → drifted s a = false → w.val < wedges s →
      Completes (.phaseSample a x true w) s fun t => angNow t = (wedgeAngle (wedges s) w + skewOf s f) % ticksPerRev ∧ t.ang.reBased = true)

/-- A sector whose preamble began under the read gate and whose pad ended before the gate fell gives its
lane's result word of R75, with what the search, the decode and the front end report within the bound of
R74, or as it stands once the bound has passed, and moves the run to its next sector; one whose gate was
low gives DEC = ABORT; a lane that delivers nothing by the bound records the miss; a settle interval
ends 300 ns after the head selection; an assist ramp that has lasted its time ends with the enable
output low. Where the rules leave a point open it has the model's choice of log entries 4, 7 and 12. -/
def Obligations.LanesDeliverResults : Prop :=
  ∀ (s : State), s.wf = true →
    (∀ (l : Fin 16) (r : LaneRun) (g : SectorSignal), (laneAt s l).run = some r → sectorSearched (laneAt s l) r (sectorSpan s r).1 = true → sectorCut (laneAt s l) r (sectorSpan s r).1 (sectorSpan s r).2 = false →
      Completes (.sectorResult l g) s fun t => rdN t (Reg.LANE_RES l) = resultWord (laneReport s l r g (pastBound s r) false).sync (laneReport s l r g (pastBound s r) false).dec (laneReport s l r g (pastBound s r) false).it (laneReport s l r g (pastBound s r) false).gitn (laneReport s l r g (pastBound s r) false).ta
            (inSettle s (laneSlot l) (sectorSpan s r).1) (laneReport s l r g (pastBound s r) false).ncorr
        ∧ rdN t (Reg.LANE_SECT l) = (rdN s (Reg.LANE_SECT l) + 1) % 2 ^ 32 ∧ (laneAt t l).run = r.next)
    ∧ (∀ (l : Fin 16) (r : LaneRun) (g : SectorSignal), (laneAt s l).run = some r → sectorSearched (laneAt s l) r (sectorSpan s r).1 = false →
      Completes (.sectorResult l g) s fun t => rdN t (Reg.LANE_RES l) = resultWord syncMiss decAbort 0 0 false (inSettle s (laneSlot l) (sectorSpan s r).1) 0
        ∧ (laneAt t l).run = r.next ∧ t.sram = s.sram)
    ∧ (∀ (l : Fin 16) (r : LaneRun) (g : SectorSignal) (searched : Bool), (laneAt s l).run = some r → sectorSearched (laneAt s l) r (sectorSpan s r).1 = true → sectorCut (laneAt s l) r (sectorSpan s r).1 (sectorSpan s r).2 = false → pastBound s r = true →
      Completes (.sectorDeadline l g searched false) s fun t => rdN t (Reg.LANE_RES l) = resultWord (laneReport s l r g true searched).sync (laneReport s l r g true searched).dec (laneReport s l r g true searched).it (laneReport s l r g true searched).gitn (laneReport s l r g true searched).ta
            (inSettle s (laneSlot l) (sectorSpan s r).1) (laneReport s l r g true searched).ncorr
        ∧ rdN t (Reg.LANE_SECT l) = (rdN s (Reg.LANE_SECT l) + 1) % 2 ^ 32 ∧ (laneAt t l).run = r.next)
    ∧ (∀ (l : Fin 16) (r : LaneRun) (g : SectorSignal) (searched : Bool), (laneAt s l).run = some r → (laneAt s l).missedAt = none → pastBound s r = true →
      Completes (.sectorDeadline l g searched true) s fun t => (laneAt t l).missedAt = some s.ang.incs ∧ (laneAt t l).run = r.next ∧ OnlyRegs [] s t)
    ∧ (∀ (n : Fin 8), (slotAt s n).settling = true → (slotAt s n).settleClock + 300 ≤ s.clock →
      Completes (.headSettleEnd n) s fun t => (slotAt t n).settling = false ∧ (slotAt t n).settles = ((slotAt s n).settleFrom, s.ang.incs) :: (slotAt s n).settles
        ∧ OnlyRegs [] s t ∧ ∀ m : Fin 8, m ≠ n → slotAt t m = slotAt s m)
    ∧ (∀ (n : Fin 8), (slotAt s n).ramp = .down → (slotAt s n).rampClock + 250 * getF s (Reg.LANE_ARAMP n) 0 4 ≤ s.clock →
      Completes (.assistRampEnd n) s fun t => (slotAt t n).assistEn = false ∧ (slotAt t n).ramp = .idle ∧ bit t (Reg.LANE_APWR n) 16 = false
        ∧ OnlyRegs [Reg.LANE_APWR n] s t)
    ∧ (Completes .dutyBucketUpdate s fun t => ∀ (a : Fin 2) (h : Fin 12), dbLevel t a h = dbNext s a h)

/-- Training sends training words and ends with the answer; outside training a frame's word carries
permissions, type, payload and CRC in the order of R523; a word received with a good CRC clears the
error counts and leaves its data; a bad one counts; four training words in a row end a training. Where
the rules leave a point open it has the model's choice of log entries 12 and 61. -/
def Obligations.PreampLinksCarryWords : Prop :=
  ∀ (s : State) (a : Fin 2), s.wf = true →
    (mode s = Mode.survey ∨ (imoneAt s a).training = true →
      Completes (.linkTraining a true) s fun t => (imoneAt t a).training = false ∧ (imoneAt t a).sent = trainingWord ∧ OnlyRegs [] s t)
    ∧ (mode s = Mode.survey ∨ (imoneAt s a).training = true →
      Completes (.linkTraining a false) s fun t => (imoneAt t a).training = true ∧ (imoneAt t a).sent = trainingWord ∧ OnlyRegs [] s t)
    ∧ ((imoneAt s a).training = true →
      Completes (.controlWord a) s fun t => (imoneAt t a).sent = trainingWord ∧ OnlyRegs [] s t)
    ∧ ((imoneAt s a).training = false →
      Completes (.controlWord a) s fun t => (imoneAt t a).sent = permits s a + (chooseWord s a).1 + crc4 (permits s a + (chooseWord s a).1) ∧ OnlyRegs [] s t)
    ∧ (∀ (w : Word), (imoneAt s a).training = false → w.toNat ≠ trainingWord → crc4 w.toNat = w.toNat % 16 →
      Completes (.preampWord a w) s fun t => (imoneAt t a).errWords = 0 ∧ (imoneAt t a).errFrames = 0 ∧ (imoneAt t a).regData = bitsOf w.toNat 4 8)
    ∧ (∀ (w : Word), (imoneAt s a).training = false → w.toNat ≠ trainingWord → crc4 w.toNat ≠ w.toNat % 16 → (imoneAt s a).errWords < 7 → (imoneAt s a).errFrames < 15 →
      Completes (.preampWord a w) s fun t => (imoneAt t a).errWords = (imoneAt s a).errWords + 1 ∧ (imoneAt t a).errFrames = (imoneAt s a).errFrames + 1 ∧ OnlyRegs [] s t)
    ∧ (∀ (w : Word), (imoneAt s a).training = true → w.toNat = trainingWord → (imoneAt s a).good = 3 →
      Completes (.preampWord a w) s fun t => (imoneAt t a).training = false ∧ (imoneAt t a).again = false ∧ OnlyRegs [] s t)

/-- A write gate that is asserted while a condition of R411 fails is latched low with SLU_EVT.LATCH; the end
of a target check stores its outcome; supplies, FLT_N and the preamps' supply limits set and clear their
conditions. Where the rules leave a point open it has the model's choice of log entry 15. -/
def Obligations.SluiceActsOnConditions : Prop :=
  ∀ (s : State), s.wf = true →
    (∀ (n : Fin 8), (slotAt s n).wg = true → wgLatched s n = false → wgPass s n = false →
      Completes (.sluiceInhibit n) s fun t => wgLatched t n = true ∧ wgOut t n = false ∧ bit t Reg.SLU_EVT 0 = true)
    ∧ (∀ (n : Fin 8),
      Completes (.targetCheck n) s fun t => (slotAt t n).targetOk = targetPasses s n)
    ∧ (∀ (v5 : Bool),
      Completes (.supplyExcursion v5) s fun t => (if v5 then t.slu.v5Bad else t.slu.v12Bad) = true ∧ bit t Reg.SLU_EVT 2 = true)
    ∧ (∀ (v5 : Bool),
      Completes (.supplyReturn v5) s fun t => (if v5 then t.slu.v5Bad else t.slu.v12Bad) = false ∧ OnlyRegs [] s t)
    ∧ (∀ (a : Fin 2), fltLow s a = false →
      Completes (.fltNFall a) s fun t => fltLow t a = true ∧ bit t Reg.SLU_EVT 3 = true)
    ∧ (∀ (a : Fin 2), (imoneAt s a).supplyOff = false → ((imoneAt s a).training && (imoneAt s a).again) = false →
      Completes (.fltNRise a) s fun t => fltLow t a = false ∧ OnlyRegs [] s t)
    ∧ (∀ (a : Fin 2),
      Completes (.preampSupplyLimit a) s fun t => (imoneAt t a).supplyOff = true ∧ fltLow t a = true)

/-- Band tables are staged, checked in the order of R34 and loaded only while the zone engine is disabled; a
failed check names check, entry and surface in ZTB_BTERR and loads nothing; ZTB_NZONE takes at most
524,288; the enable waits for the layout check, which raises EN and READY or reports a layout error.
Where the rules leave a point open it has the model's choice of log entry 16. -/
def Obligations.BandTablesLoad : Prop :=
  ∀ (s : State), s.wf = true →
    (ztbEn s = false → btFailure s = none →
      Completes .btloadGo s fun t => t.ztb.bands = s.ztb.staged ∧ bit t Reg.ZTB_STS 1 = true ∧ rdN t Reg.ZTB_BTERR = 0
        ∧ rd64 t Reg.ZTB_CONVCAP = convCapacity (numSurfaces t) (convEntries t) % 2 ^ 64)
    ∧ (∀ (c f n : Nat), ztbEn s = false → btFailure s = some (c, f, n) →
      Completes .btloadGo s fun t => t.ztb.bands = s.ztb.bands ∧ rdN t Reg.ZTB_BTERR = (c + 2 ^ 4 * n + 2 ^ 16 * f) % 2 ^ 32 ∧ bit t Reg.ZTB_EVT 4 = true)
    ∧ (ztbEn s = true →
      Completes .btloadGo s fun t => t.ztb.bands = s.ztb.bands ∧ bit t Reg.ZTB_EVT 3 = true)
    ∧ (∀ (i : Fin 8) (v : Word) (k : Nat), ztbEn s = false → btSelected s = some k → scanon btDflt s.ztb.staged = true →
      Completes (.bandTableWrite i v) s fun t => sget btDflt t.ztb.staged k = Nat.land (putBits (sget btDflt s.ztb.staged k) (32 * i) 32 v.toNat) btMask
        ∧ OnlyRegs [] s t)
    ∧ (∀ (v : Word), bitsOf v.toNat 0 20 ≤ 524288 →
      Completes (.nzoneWrite v) s fun t => rdN t Reg.ZTB_NZONE = bitsOf v.toNat 0 20 ∧ OnlyRegs [Reg.ZTB_NZONE] s t)
    ∧ (∀ (v : Word), 524288 < bitsOf v.toNat 0 20 →
      Completes (.nzoneWrite v) s fun t => rdN t Reg.ZTB_NZONE = rdN s Reg.ZTB_NZONE ∧ bit t Reg.ZTB_EVT 4 = true)
    ∧ (ztbEn s = false →
      Completes .zoneEngineEnable s fun t => t.ztb.layoutCheck = true ∧ ztbEn t = false ∧ OnlyRegs [] s t)
    ∧ (s.ztb.layoutCheck = true → layoutOk s = true →
      Completes .layoutCheckEnd s fun t => ztbEn t = true ∧ bit t Reg.ZTB_STS 0 = true ∧ t.ztb.layoutCheck = false)
    ∧ (s.ztb.layoutCheck = true → layoutOk s = false →
      Completes .layoutCheckEnd s fun t => ztbEn t = ztbEn s ∧ bit t Reg.ZTB_EVT 7 = true ∧ t.ztb.layoutCheck = false)

/-- A zone command that passes the checks of R66 and waits for nothing sets the zone's entry and ends with
result OK; one that fails a check reports its code and changes no zone; RESET empties the zone and
counts its EPOCH; the acknowledgement of the oldest slip removes it; a translation starts and ends with
its place. Where the rules leave a point open it has the model's choice of log entry 16. -/
def Obligations.ZoneCommandsRun : Prop :=
  ∀ (s : State), s.wf = true →
    (∀ (z : BitVec 20) (st : BitVec 4), bit s Reg.ZTB_ZCMDSTS 0 = false → zcmdCheck s z.toNat 1 st.toNat = 0 → zcmdReady s ⟨z.toNat, false, st.toNat⟩ = true → st.toNat ≠ zFull → disabled s (surfaceAct s (zoneSurface s z.toNat)) = false →
      Completes (.setState z st) s fun t => zState t z.toNat = st.toNat ∧ rdN t Reg.ZTB_ZCMDSTS = 0)
    ∧ (∀ (z : BitVec 20) (st : BitVec 4), bit s Reg.ZTB_ZCMDSTS 0 = false → zcmdCheck s z.toNat 1 st.toNat ≠ 0 →
      Completes (.setState z st) s fun t => rdN t Reg.ZTB_ZCMDSTS = 2 * zcmdCheck s z.toNat 1 st.toNat ∧ OnlyRegs [Reg.ZTB_ZCMDSTS] s t ∧ t.sram = s.sram)
    ∧ (∀ (z : BitVec 20), bit s Reg.ZTB_ZCMDSTS 0 = false → zcmdCheck s z.toNat 2 0 = 0 → zcmdReady s ⟨z.toNat, true, 0⟩ = true → zEpoch (dropSpec z.toNat (releaseZone z.toNat s)) z.toNat ≠ 0xFFFFFFFF → disabled s (surfaceAct s (zoneSurface s z.toNat)) = false →
      Completes (.zcmdReset z) s fun t => zCptr t z.toNat = 0 ∧ zRptr t z.toNat = 0 ∧ zTailu t z.toNat = false ∧ zState t z.toNat = zEmpty
        ∧ zEpoch t z.toNat = zEpoch (dropSpec z.toNat (releaseZone z.toNat s)) z.toNat + 1 ∧ rdN t Reg.ZTB_ZCMDSTS = 0)
    ∧ (∀ (c : ZoneCommand), s.ztb.zcmd = some c → zcmdReady s c = true →
      Completes .zoneCommandEnd s fun t => t.ztb.zcmd = none ∧ rdN t Reg.ZTB_ZCMDSTS = 0)
    ∧ (∀ (i : BitVec 20) (p : PendSlip) (l : List PendSlip), s.ztb.slpend = p :: l → p.pool = i.toNat →
      Completes (.slack i) s fun t => rdN t Reg.ZTB_SLNPEND = l.length % 2 ^ 32)
    ∧ (∀ (v : DWord),
      Completes (.mapin v) s fun t => bit t Reg.ZTB_STS 2 = true ∧ bit t (Reg.ZTB_MAPOUT + 4) 31 = false ∧ t.ztb.mapping = some (bitsOf v.toNat 0 40, v.toNat.testBit 63)
        ∧ OnlyRegs [Reg.ZTB_MAPIN, Reg.ZTB_MAPIN + 4, Reg.ZTB_MAPOUT + 4, Reg.ZTB_STS] s t)
    ∧ (∀ (lba : Nat) (zoned : Bool) (f u n : Nat), s.ztb.mapping = some (lba, zoned) → placeOf s lba zoned = some (f, u, n) →
      Completes .mapDone s fun t => rd64 t Reg.ZTB_MAPOUT = (u + 2 ^ 24 * n + 2 ^ 34 * f + (if zoned then 0 else 2 ^ 62) + 2 ^ 63) % 2 ^ 64
        ∧ bit t Reg.ZTB_STS 2 = false ∧ t.ztb.mapping = none)
    ∧ (∀ (lba : Nat) (zoned : Bool), s.ztb.mapping = some (lba, zoned) → placeOf s lba zoned = none →
      Completes .mapDone s fun t => bit t (Reg.ZTB_MAPOUT + 4) 29 = true ∧ bit t (Reg.ZTB_MAPOUT + 4) 31 = true ∧ bit t Reg.ZTB_STS 2 = false)

/-- A plan that the rules let the builder serve enters its context's queue as its descriptor; a write over
the retention budget waits with RETFULL; so does a tail verify's plan that the rules allow; an inhibited
write is issued again when the slot's conditions hold. Where the rules leave a point open it has the
model's choice of log entries 9, 17 and 72. -/
def Obligations.BuilderIssuesPlans : Prop :=
  ∀ (s : State), s.wf = true →
    (∀ (p : RunPlan), planServed s p = true → planOk s p = true → (p.op.val = 6 → bit s Reg.ZTB_PTCTL 0 = true → patrolMoves s = s) → (p.op.val = 3 → budgetOk s p = true) →
      Completes (.builderIssue p) s fun t => (ctxAt t (planSeq s p) p.ctx).queue.map QueuedDesc.offset
            = (ctxAt s (planSeq s p) p.ctx).queue.map QueuedDesc.offset ++ [64 * p.desc.toNat])
    ∧ (∀ (p : RunPlan), planServed s p = true → planOk s p = true → p.op.val = 3 → budgetOk s p = false →
      Completes (.builderIssue p) s fun t => bit t Reg.ZTB_WPEVT 6 = true ∧ t.tsq = s.tsq ∧ t.sram = s.sram)
    ∧ (∀ (p : RunPlan), planServed s p = true → planOk s p = true → p.op.val = 4 →
      Completes (.tailVerifyTrigger p) s fun t => (ctxAt t (planSeq s p) p.ctx).queue.map QueuedDesc.offset
            = (ctxAt s (planSeq s p) p.ctx).queue.map QueuedDesc.offset ++ [64 * p.desc.toNat])
    ∧ (∀ (p : RunPlan), planServed s p = true → planOk s p = true → p.op.val = 3 → p.ctx.val < 4 → budgetOk s p = true → ((wgConds.filter (· != 5)).all (sluHolds s (ctxSlot (planSeq s p) p.ctx))) = true →
      Completes (.writeReissue p) s fun t => (ctxAt t (planSeq s p) p.ctx).queue.map QueuedDesc.offset
            = (ctxAt s (planSeq s p) p.ctx).queue.map QueuedDesc.offset ++ [64 * p.desc.toNat])

/-- A new write guard mode waits, with WPSTS.PEND, until no guarded operation runs and then takes effect;
the acknowledgement of the oldest opened zone shows the next; a recovery starts on a zone that exists
and ends with the zone's pointers and result; ZTB_RETPEAK takes the present use. Where the rules leave a
point open it has the model's choice of log entries 19, 20, 21 and 72. -/
def Obligations.ZoneEngineCommands : Prop :=
  ∀ (s : State), s.wf = true →
    (∀ (v : Word), bitsOf v.toNat 0 2 ≠ 3 →
      Completes (.wguardWrite v) s fun t => rdN t Reg.SLU_WGUARD = bitsOf v.toNat 0 2 ∧ t.ztb.guardReq = bitsOf v.toNat 0 2
        ∧ bit t Reg.ZTB_WPSTS 0 = (bitsOf v.toNat 0 2 != guardMode s) ∧ OnlyRegs [Reg.SLU_WGUARD, Reg.ZTB_WPSTS] s t)
    ∧ (∀ (v : Word), bitsOf v.toNat 0 2 = 3 →
      Completes (.wguardWrite v) s fun t => OnlyRegs [] s t ∧ t.ztb = s.ztb)
    ∧ (bit s Reg.ZTB_WPSTS 0 = true → guardedOps s = false →
      Completes .wguardTakesEffect s fun t => guardMode t = s.ztb.guardReq % 4 ∧ bit t Reg.ZTB_WPSTS 0 = false)
    ∧ (∀ (z : BitVec 20) (l : List Nat), s.ztb.oppend = z.toNat :: l →
      Completes (.opack z) s fun t => rdN t Reg.ZTB_OPPEND = (match l with | y :: _ => (y + 2 ^ 31) % 2 ^ 32 | [] => 0))
    ∧ (∀ (v : Word), v.toNat.testBit 31 = true → bit s Reg.ZTB_RCSTS 0 = false → ztbEn s = true → bitsOf v.toNat 0 20 < numZones s → zState s (bitsOf v.toNat 0 20) ≠ zOffline → zState s (bitsOf v.toNat 0 20) ≠ zReadOnly →
      Completes (.rcmd v) s fun t => rdN t Reg.ZTB_RCSTS = 1 ∧ t.ztb.recovery = some ⟨bitsOf v.toNat 0 20⟩ ∧ OnlyRegs [Reg.ZTB_RCSTS] s t)
    ∧ (∀ (v : Word), v.toNat.testBit 31 = true → bit s Reg.ZTB_RCSTS 0 = false → ztbEn s = true → numZones s ≤ bitsOf v.toNat 0 20 →
      Completes (.rcmd v) s fun t => rdN t Reg.ZTB_RCSTS = 2 ∧ t.ztb.recovery = s.ztb.recovery ∧ OnlyRegs [Reg.ZTB_RCSTS] s t)
    ∧ (∀ (media : Bool) (clean : List (BitVec 20 × BitVec 20)) (r : Recovery), s.ztb.recovery = some r → media = true →
      Completes (.rcvdone media clean) s fun t => rdN t Reg.ZTB_RCSTS = 6 ∧ t.ztb.recovery = none ∧ bit t Reg.ZTB_WPEVT 9 = true ∧ t.sram = s.sram)
    ∧ (∀ (media : Bool) (clean : List (BitVec 20 × BitVec 20)) (r : Recovery), s.ztb.recovery = some r → media = false → probeClean s r.zone (clean.map fun c => (c.1.toNat, c.2.toNat)) (zoneFirstTrack s r.zone) = false →
      Completes (.rcvdone media clean) s fun t => zCptr t r.zone = 0 ∧ zRptr t r.zone = 0 ∧ zTailu t r.zone = false ∧ t.ztb.recovery = none ∧ rdN t Reg.ZTB_RCSTS = 0
        ∧ bit t Reg.ZTB_WPEVT 9 = true)
    ∧ (∀ (media : Bool) (clean : List (BitVec 20 × BitVec 20)) (r : Recovery), s.ztb.recovery = some r → media = false → probeClean s r.zone (clean.map fun c => (c.1.toNat, c.2.toNat)) (zoneFirstTrack s r.zone) = true →
      Completes (.rcvdone media clean) s fun t => zCptr t r.zone = recoveredOffset s r.zone (clean.map fun c => (c.1.toNat, c.2.toNat)) % 2 ^ 18
        ∧ zRptr t r.zone = recoveredOffset s r.zone (clean.map fun c => (c.1.toNat, c.2.toNat)) % 2 ^ 18
        ∧ (recoveredOffset s r.zone (clean.map fun c => (c.1.toNat, c.2.toNat)) < zcap s → zTailu t r.zone = true)
        ∧ t.ztb.recovery = none ∧ bit t Reg.ZTB_WPEVT 9 = true)
    ∧ (∀ (v : Word),
      Completes (.retpeakWrite v) s fun t => rdN t Reg.ZTB_RETPEAK = getF s Reg.ZTB_RETUSE 0 16 ∧ OnlyRegs [Reg.ZTB_RETPEAK] s t)

/-- A read, a paired read, a write, a verify, a reload and a scan put the mode, track, first sector and
buffer list of their descriptor into the lanes that they use; a tail verify sets the milliactuator
offset; a reload clears TAILU or reports the unclean sector; a seek starts its profile; a prebias posts
its assist. Where the rules leave a point open it has the model's choice of log entries 12 and 18. -/
def Obligations.OperationsProgramLanes : Prop :=
  ∀ (s : State) (q : Fin 2) (x : Fin 4), s.wf = true →
    (OpStands s q x 1 →
      Completes (.readRun q x) s fun t => LaneHolds (laneAt t (ctxSlot q x)) (if !dZoned s q x && (descWord s q x 11).testBit 0 then 2 else 1) (dTrack s q x) (dFirst s q x) (dBufl s q x))
    ∧ (OpStands s q x 2 →
      Completes (.pairedRead q x) s fun t => LaneHolds (laneAt t (ctxSlot q x)) 1 (dTrack s q x) (dFirst s q x) (dBufl s q x)
        ∧ LaneHolds (laneAt t (ctxSlot q x + 8)) 1 (dTrailTrack s q x) (dTfirst s q x) (dBufl s q x + 4 * dCount s q x))
    ∧ (OpStands s q x 3 →
      Completes (.writeRun q x) s fun t => LaneHolds (laneAt t (ctxSlot q x)) 3 (dTrack s q x) (dFirst s q x) (dBufl s q x)
        ∧ (0 < dTcount s q x → LaneHolds (laneAt t (ctxSlot q x + 8)) 2 (dTrailTrack s q x) (dTfirst s q x) (dBufl s q x + 4 * dCount s q x)))
    ∧ (OpStands s q x 4 →
      Completes (.tailVerify q x) s fun t => LaneHolds (laneAt t (ctxSlot q x + 8)) 2 (dTrailTrack s q x) (dTfirst s q x) (dBufl s q x + 4 * dCount s q x)
        ∧ (ctxAt t q x).maoff = signedOf 32 (descWord s q x 10))
    ∧ (OpStands s q x 5 →
      Completes (.tailReload q x .start) s fun t => LaneHolds (laneAt t (ctxSlot q x)) 1 (dTrack s q x) (dFirst s q x) (dBufl s q x)
        ∧ (0 < dTcount s q x → LaneHolds (laneAt t (ctxSlot q x + 8)) 1 (dTrailTrack s q x) (dTfirst s q x) (dBufl s q x + 4 * dCount s q x)))
    ∧ (OpStands s q x 5 → readsDone s q x = true → zTailu s (dZone s q x) = true → (reloadIndexes s q x).any (fun i => !readsClean s q x i) = false → (toReload (keepReloaded q x s) (dZone s q x)).isEmpty = true →
      Completes (.tailReload q x .finish) s fun t => bit t Reg.ZTB_WPEVT 4 = true ∧ rdN t Reg.ZTB_TRCNT = (rdN s Reg.ZTB_TRCNT + 1) % 2 ^ 32
        ∧ zTailu t (dZone s q x) = false)
    ∧ (OpStands s q x 5 → readsDone s q x = true → zTailu s (dZone s q x) = true → (reloadIndexes s q x).any (fun i => !readsClean s q x i) = true → (workAt s (dZone s q x)).rereads < 2 →
      Completes (.tailReload q x .finish) s fun t => (workAt t (dZone s q x)).rereads = (workAt s (dZone s q x)).rereads + 1 ∧ zTailu t (dZone s q x) = true)
    ∧ (OpStands s q x 5 → readsDone s q x = true → zTailu s (dZone s q x) = true → (reloadIndexes s q x).any (fun i => !readsClean s q x i) = true → 2 ≤ (workAt s (dZone s q x)).rereads → disabled s (surfaceAct s (zoneSurface s (dZone s q x))) = false →
      Completes (.tailReload q x .finish) s fun t => bit t Reg.ZTB_WPEVT 5 = true ∧ zState t (dZone s q x) = zReadOnly)
    ∧ (OpStands s q x 6 →
      Completes (.scanOp q x .start) s fun t => LaneHolds (laneAt t (ctxSlot q x)) 1 (dTrack s q x) (dFirst s q x) (dBufl s q x) ∧ bit t Reg.ZTB_PTSTS 0 = true ∧ t.ztb.ptFrom = some s.clock)
    ∧ (∀ (i : Fin 1024) (re : Bool) (j : Fin 3) (c : Nat), OpStands s q x 6 → i.val < dCount s q x → c ≠ 0 → scanClass s (dResult s q x i) re j = c →
      Completes (.scanOp q x (.sector i re j)) s fun t => bit t Reg.ZTB_AREVT c = true
        ∧ rdN t (if c = 1 then Reg.ZTB_PTMARG else Reg.ZTB_PTUNR) = min (rdN s (if c = 1 then Reg.ZTB_PTMARG else Reg.ZTB_PTUNR) + 1) (2 ^ 32 - 1))
    ∧ (OpStands s q x 6 → readsDone s q x = true →
      Completes (.scanOp q x .finish) s fun t => t.ztb.ptDone = 0
        ∧ ((rd64 s Reg.ZTB_PTPOS).testBit 63 = false →
          bitsOf (rd64 s Reg.ZTB_PTPOS) 32 16 + 1 < patrolTracks s (bitsOf (rd64 s Reg.ZTB_PTPOS) 0 20) →
          rd64 t Reg.ZTB_PTPOS = bitsOf (rd64 s Reg.ZTB_PTPOS) 0 20
            + 2 ^ 32 * (bitsOf (rd64 s Reg.ZTB_PTPOS) 32 16 + 1)))
    ∧ (OpStands s q x 8 → postCheck s (ctxSlot q x) 0x07 0xFFFF (dSurf s q x)
        (angShift (ftabStart s q x 0) (dWdly s q x - (getF s (Reg.LANE_PBLEAD q) 0 22 : Int))) = .ok →
      Completes (.prebias q x) s fun t => (queueOf t (ctxSlot q x)).map AngEntry.action = (queueOf s (ctxSlot q x)).map AngEntry.action ++ [0x07])
    ∧ (∀ (p : Int) (vm am jm : Rat), runsOp s q 4 7 = true → dSurf s q 4 < numSurfaces s → surfaceAct s (dSurf s q 4) = q.val → servoPos s (dSurf s q 4) (bitsOf (descWord s q 4 10) 0 24) = some p → limitOf s (Reg.SRV_VMAX q) = some vm → limitOf s (Reg.SRV_AMAX q) = some am → limitOf s (Reg.SRV_JMAX q) = some jm →
      Completes (.seekOp q) s fun t => rdN t (Reg.SRV_TGT q) = encodeSigned 32 p ∧ bit t (Reg.SRV_STS q) 4 = true ∧ bit t (Reg.SRV_STS q) 5 = false)

/-- The next word of a running context writes its result and the flags R139 gives it, no other general
register, no other context and nothing outside the sequencers; the context goes on at the next address,
at a commit point if the word has its mark. Where the rules leave a point open it has the model's choice
of log entry 18. -/
def Obligations.MicrowordArithmetic : Prop :=
  ∀ (s : State) (q : Fin 2) (x : Fin 5), s.wf = true →
    (∀ (w : Nat), WordRuns s q x w 0x00 → bitsOf w 0 21 = 0 →
      Completes (.nopWord q x) s fun t => WordEnds q x (mwCommit w) w ((ctxAt s q x).pc + 1) s t fun u => (∀ k : Fin 16, greg u q x k = greg s q x k) ∧ (ctxAt u q x).flags = flagsOf s q x ∧ OnlyCtx q x s u)
    ∧ (∀ (w : Nat), WordRuns s q x w 0x01 →
      Completes (.movWord q x) s fun t => WordEnds q x (mwCommit w) w ((ctxAt s q x).pc + 1) s t fun u => WordSets q x (mwA w) ((greg s q x (mwB w))) (flagsOf s q x) s u)
    ∧ (∀ (w : Nat), WordRuns s q x w 0x02 →
      Completes (.moviWord q x) s fun t => WordEnds q x (mwCommit w) w ((ctxAt s q x).pc + 1) s t fun u => WordSets q x (mwA w) (BitVec.ofNat 32 (mwImm w)) (flagsOf s q x) s u)
    ∧ (∀ (w : Nat), WordRuns s q x w 0x03 → bitsOf (mwImm w) 15 2 = 0 →
      Completes (.movhiWord q x) s fun t => WordEnds q x (mwCommit w) w ((ctxAt s q x).pc + 1) s t fun u => WordSets q x (mwA w) (BitVec.ofNat 32 (bitsOf (greg s q x (mwA w)).toNat 0 17 + 2 ^ 17 * bitsOf (mwImm w) 0 15)) (flagsOf s q x) s u)
    ∧ (∀ (w : Nat), WordRuns s q x w 0x04 →
      Completes (.addWord q x) s fun t => WordEnds q x (mwCommit w) w ((ctxAt s q x).pc + 1) s t fun u => WordSets q x (mwA w) ((greg s q x (mwB w)) + (greg s q x (mwR w))) (flagsAdd (greg s q x (mwB w)) (greg s q x (mwR w))) s u)
    ∧ (∀ (w : Nat), WordRuns s q x w 0x05 →
      Completes (.subWord q x) s fun t => WordEnds q x (mwCommit w) w ((ctxAt s q x).pc + 1) s t fun u => WordSets q x (mwA w) ((greg s q x (mwB w)) - (greg s q x (mwR w))) (flagsSub (greg s q x (mwB w)) (greg s q x (mwR w))) s u)
    ∧ (∀ (w : Nat), WordRuns s q x w 0x06 →
      Completes (.addiWord q x) s fun t => WordEnds q x (mwCommit w) w ((ctxAt s q x).pc + 1) s t fun u => WordSets q x (mwA w) ((greg s q x (mwA w)) + immS w) (flagsAdd (greg s q x (mwA w)) (immS w)) s u)
    ∧ (∀ (w : Nat), WordRuns s q x w 0x07 →
      Completes (.andWord q x) s fun t => WordEnds q x (mwCommit w) w ((ctxAt s q x).pc + 1) s t fun u => WordSets q x (mwA w) ((greg s q x (mwB w)) &&& (greg s q x (mwR w))) (flagsZN (flagsOf s q x) ((greg s q x (mwB w)) &&& (greg s q x (mwR w)))) s u)
    ∧ (∀ (w : Nat), WordRuns s q x w 0x08 →
      Completes (.orWord q x) s fun t => WordEnds q x (mwCommit w) w ((ctxAt s q x).pc + 1) s t fun u => WordSets q x (mwA w) ((greg s q x (mwB w)) ||| (greg s q x (mwR w))) (flagsZN (flagsOf s q x) ((greg s q x (mwB w)) ||| (greg s q x (mwR w)))) s u)
    ∧ (∀ (w : Nat), WordRuns s q x w 0x09 →
      Completes (.xorWord q x) s fun t => WordEnds q x (mwCommit w) w ((ctxAt s q x).pc + 1) s t fun u => WordSets q x (mwA w) ((greg s q x (mwB w)) ^^^ (greg s q x (mwR w))) (flagsZN (flagsOf s q x) ((greg s q x (mwB w)) ^^^ (greg s q x (mwR w)))) s u)
    ∧ (∀ (w : Nat), WordRuns s q x w 0x0A →
      Completes (.shliWord q x) s fun t => WordEnds q x (mwCommit w) w ((ctxAt s q x).pc + 1) s t fun u => WordSets q x (mwA w) ((greg s q x (mwB w)) <<< bitsOf (mwAux w) 0 5) (flagsZN (flagsOf s q x) ((greg s q x (mwB w)) <<< bitsOf (mwAux w) 0 5)) s u)
    ∧ (∀ (w : Nat), WordRuns s q x w 0x0B →
      Completes (.shriWord q x) s fun t => WordEnds q x (mwCommit w) w ((ctxAt s q x).pc + 1) s t fun u => WordSets q x (mwA w) ((greg s q x (mwB w)) >>> bitsOf (mwAux w) 0 5) (flagsZN (flagsOf s q x) ((greg s q x (mwB w)) >>> bitsOf (mwAux w) 0 5)) s u)
    ∧ (∀ (w : Nat), WordRuns s q x w 0x0C →
      Completes (.angaddWord q x) s fun t => WordEnds q x (mwCommit w) w ((ctxAt s q x).pc + 1) s t fun u => WordSets q x (mwA w) (BitVec.ofNat 32 (((greg s q x (mwB w)) + (greg s q x (mwR w))).toNat % 2 ^ 22)) (flagsZ (flagsOf s q x) (BitVec.ofNat 32 (((greg s q x (mwB w)) + (greg s q x (mwR w))).toNat % 2 ^ 22))) s u)
    ∧ (∀ (w : Nat), WordRuns s q x w 0x0D →
      Completes (.cmpWord q x) s fun t => WordEnds q x (mwCommit w) w ((ctxAt s q x).pc + 1) s t fun u => (∀ k : Fin 16, greg u q x k = greg s q x k) ∧ (ctxAt u q x).flags = flagsSub (greg s q x (mwB w)) (greg s q x (mwR w)) ∧ OnlyCtx q x s u)
    ∧ (∀ (w : Nat), WordRuns s q x w 0x0E →
      Completes (.cmpiWord q x) s fun t => WordEnds q x (mwCommit w) w ((ctxAt s q x).pc + 1) s t fun u => (∀ k : Fin 16, greg u q x k = greg s q x k) ∧ (ctxAt u q x).flags = flagsSub (greg s q x (mwA w)) (immS w) ∧ OnlyCtx q x s u)

/-- Special registers are read and written as R141 has them; a branch is taken where its condition holds; a
call pushes the next address and a return pops it; a WAITC goes on where its condition holds and waits
where it does not; HALT ends the operation; a word whose operation is not listed raises ILLOP and one
that overruns its segment SEGOVR. Where the rules leave a point open it has the model's choice of log
entry 18. -/
def Obligations.MicrowordControl : Prop :=
  ∀ (s : State) (q : Fin 2) (x : Fin 5), s.wf = true →
    (∀ (w : Nat) (v : Word), WordRuns s q x w 0x0F → mfsValue s q x (bitsOf (mwImm w) 0 8) = some (v, ctxAt s q x) →
      Completes (.mfsWord q x) s fun t => WordEnds q x (mwCommit w) w ((ctxAt s q x).pc + 1) s t fun u => WordSets q x (mwA w) v (flagsOf s q x) s u)
    ∧ (∀ (w : Nat) (e : Nat × Bool) (l : List (Nat × Bool)), WordRuns s q x w 0x0F → x.val < 4 → bitsOf (mwImm w) 0 8 = 1 → (ctxAt s q x).wakes = e :: l →
      Completes (.mfsWord q x) s fun t => WordEnds q x (mwCommit w) w ((ctxAt s q x).pc + 1) s t fun u => greg u q x (mwA w) = wakeTag e ∧ (ctxAt u q x).wakes = l ∧ OnlyCtx q x s u)
    ∧ (∀ (w : Nat), WordRuns s q x w 0x10 → x.val < 4 → bitsOf (mwImm w) 0 8 = 6 →
      Completes (.mtsWord q x) s fun t => WordEnds q x (mwCommit w) w ((ctxAt s q x).pc + 1) s t fun u => (ctxAt u q x).maoff = signedOf 32 (greg s q x (mwA w)).toNat ∧ OnlyCtx q x s u)
    ∧ (∀ (w : Nat), WordRuns s q x w 0x10 → x.val = 4 → bitsOf (mwImm w) 0 8 = 4 →
      Completes (.mtsWord q x) s fun t => WordEnds q x (mwCommit w) w ((ctxAt s q x).pc + 1) s t fun u => (tsqAt u q).svtgt = (greg s q x (mwA w)).toNat ∧ OnlyCtx q x s u)
    ∧ (∀ (w : Nat) (b : Bool), WordRuns s q x w 0x14 → condHolds s q x w = some b →
      Completes (.brWord q x) s fun t => WordEnds q x (mwCommit w) w (if b then mwTarget w else (ctxAt s q x).pc + 1) s t fun u => OnlyCtx q x s u)
    ∧ (∀ (w : Nat), WordRuns s q x w 0x15 → condHolds s q x w = some true → (ctxAt s q x).stack.length < 8 →
      Completes (.callWord q x) s fun t => WordEnds q x (mwCommit w) w (mwTarget w) s t fun u => (ctxAt u q x).stack = ((ctxAt s q x).pc + 1) % 2 ^ 13 :: (ctxAt s q x).stack ∧ OnlyCtx q x s u)
    ∧ (∀ (w : Nat), WordRuns s q x w 0x15 → condHolds s q x w = some false →
      Completes (.callWord q x) s fun t => WordEnds q x (mwCommit w) w ((ctxAt s q x).pc + 1) s t fun u => (ctxAt u q x).stack = (ctxAt s q x).stack ∧ OnlyCtx q x s u)
    ∧ (∀ (w : Nat) (p : Nat) (l : List Nat), WordRuns s q x w 0x16 → bitsOf w 0 21 = 0 → (ctxAt s q x).stack = p :: l →
      Completes (.retWord q x) s fun t => WordEnds q x (mwCommit w) w p s t fun u => (ctxAt u q x).stack = l ∧ OnlyCtx q x s u)
    ∧ (∀ (w : Nat), WordRuns s q x w 0x1F → bit s (Reg.TSQ_CTL q) 1 = true → mwTarget w = 0 → condHolds s q x w = some true →
      Completes (.waitcWord q x) s fun t => ∃ u, t = commitCtx q x u ∧ (ctxAt u q x).pc = ((ctxAt s q x).pc + 1) % 2 ^ 13 ∧ OnlyCtx q x s u)
    ∧ (∀ (w : Nat), WordRuns s q x w 0x1F → bit s (Reg.TSQ_CTL q) 1 = true → mwTarget w = 0 → condHolds s q x w = some false →
      Completes (.waitcWord q x) s fun t => (ctxAt t q x).waitc = true)
    ∧ (∀ (w : Nat), WordRuns s q x w 0x1E → (mwImm w).testBit 7 = false →
      Completes (.haltWord q x) s fun t => (ctxAt t q x).phase = .idle ∧ rdN t (Reg.TSQ_OPCNT q) = (rdN s (Reg.TSQ_OPCNT q) + 1) % 2 ^ 32)
    ∧ ((ctxAt s q x).busy = true → (ctxAt s q x).pendS = [] → exitDue (ctxAt s q x) = false → mwListed (mwOp (microword s (ctxAt s q x).pc)) = false →
      Completes (.nopWord q x) s fun t => (ctxAt t q x).pendS = [SCause.illop] ∧ OnlyCtx q x s t)
    ∧ (∀ (w : Nat), (ctxAt s q x).busy = true → (ctxAt s q x).pendS = [] → exitDue (ctxAt s q x) = false → microword s (ctxAt s q x).pc = w → mwOp w = 0 → 256 < (ctxAt s q x).clocks + mwClocks w →
      Completes (.nopWord q x) s fun t => (ctxAt t q x).pendS = [SCause.segovr] ∧ OnlyCtx q x s t)

/-- ARM posts its entry to the slot's queue and journals it; GATE drops the gates and assist it names; LANE
programs a lane field and journals the old value; DESC reads descriptor words and frame-table entries;
POST sets results, progress and the note, and journals what they were. Where the rules leave a point
open it has the model's choice of log entry 18. -/
def Obligations.MicrowordsActOnTheSlot : Prop :=
  ∀ (s : State) (q : Fin 2) (x : Fin 5), s.wf = true →
    (∀ (w : Nat) (i : Nat) (v : State), WordRuns s q x w 0x18 → x.val < 4 → (ctxAt s q x).journal.length < 32 → postEntry (ctxSlot q x) (bitsOf (mwAux w) 0 8) (bitsOf (greg s q x (mwB w)).toNat 0 16) (if (mwAux w).testBit 8 then 31 else bitsOf (greg s q x (mwR w)).toNat 0 5) (bitsOf (greg s q x (mwA w)).toNat 0 22) s = (.ok, i, v) →
      Completes (.armWord q x) s fun t => WordEnds q x (mwCommit w) w ((ctxAt s q x).pc + 1) s t fun u => (ctxAt u q x).journal = .arm i :: (ctxAt s q x).journal ∧ (ctxAt u q x).late = false ∧ u.ang = v.ang
        ∧ u.regs = v.regs)
    ∧ (∀ (w : Nat), WordRuns s q x w 0x19 → x.val < 4 → bitsOf (mwImm w) 6 11 = 0 →
      Completes (.gateWord q x) s fun t => WordEnds q x (mwCommit w) w ((ctxAt s q x).pc + 1) s t fun u => ((mwImm w).testBit 0 = true → (slotAt u (ctxSlot q x)).wg = false)
        ∧ ((mwImm w).testBit 1 = true → (slotAt u (ctxSlot q x)).rg = false) ∧ ((mwImm w).testBit 2 = true → (slotAt u (ctxSlot q x)).tg = false)
        ∧ ((mwImm w).testBit 3 = true → (slotAt u (ctxSlot q x)).assist = false))
    ∧ (∀ (w : Nat), WordRuns s q x w 0x1A → x.val < 4 → (ctxAt s q x).journal.length < 32 → bitsOf (mwAux w) 0 8 ≤ 4 → (bitsOf (mwAux w) 0 8 = 1 → (greg s q x (mwA w)).toNat < 3) →
      Completes (.laneWord q x) s fun t => WordEnds q x (mwCommit w) w ((ctxAt s q x).pc + 1) s t fun u => laneAt u (laneOf (ctxSlot q x) ((mwAux w).testBit 8)) = laneSet (laneAt s (laneOf (ctxSlot q x) ((mwAux w).testBit 8))) (bitsOf (mwAux w) 0 8) (greg s q x (mwA w)).toNat
        ∧ (ctxAt u q x).journal
          = .lane ((mwAux w).testBit 8) (bitsOf (mwAux w) 0 8) (laneField (laneAt s (laneOf (ctxSlot q x) ((mwAux w).testBit 8))) (bitsOf (mwAux w) 0 8)) :: (ctxAt s q x).journal)
    ∧ (∀ (w : Nat), WordRuns s q x w 0x1B → (mwImm w).testBit 16 = false →
      Completes (.descWord q x) s fun t => WordEnds q x (mwCommit w) w ((ctxAt s q x).pc + 1) s t fun u => WordSets q x (mwA w) (BitVec.ofNat 32 (descWord s q x (bitsOf (mwImm w) 0 4))) (flagsOf s q x) s u)
    ∧ (∀ (w : Nat), WordRuns s q x w 0x1B → (mwImm w).testBit 16 = true → (greg s q x (bitsOf (mwImm w) 0 4)).toNat < dCount s q x + dTcount s q x →
      Completes (.descWord q x) s fun t => WordEnds q x (mwCommit w) w ((ctxAt s q x).pc + 1) s t fun u => WordSets q x (mwA w) (BitVec.ofNat 32 (sram32 s (dFtab s q x + 8 * (greg s q x (bitsOf (mwImm w) 0 4)).toNat + (if (mwImm w).testBit 4 then 4 else 0)))) (flagsOf s q x) s u)
    ∧ (∀ (w : Nat), WordRuns s q x w 0x1C → (ctxAt s q x).journal.length < 32 → bitsOf (mwAux w) 0 3 = 0 → (greg s q x (mwB w)).toNat < dCount s q x + dTcount s q x →
      Completes (.postWord q x) s fun t => WordEnds q x (mwCommit w) w ((ctxAt s q x).pc + 1) s t fun u => (ctxAt u q x).result (greg s q x (mwB w)).toNat = some (greg s q x (mwA w)) ∧ OnlyCtx q x s u
        ∧ (ctxAt u q x).journal = .sres (greg s q x (mwB w)).toNat ((ctxAt s q x).result (greg s q x (mwB w)).toNat) :: (ctxAt s q x).journal)
    ∧ (∀ (w : Nat), WordRuns s q x w 0x1C → (ctxAt s q x).journal.length < 32 → bitsOf (mwAux w) 0 3 = 1 →
      Completes (.postWord q x) s fun t => WordEnds q x (mwCommit w) w ((ctxAt s q x).pc + 1) s t fun u => (ctxAt u q x).progP = (greg s q x (mwA w)).toNat ∧ (ctxAt u q x).journal = .progP (ctxAt s q x).progP :: (ctxAt s q x).journal ∧ OnlyCtx q x s u)
    ∧ (∀ (w : Nat), WordRuns s q x w 0x1C → (ctxAt s q x).journal.length < 32 → bitsOf (mwAux w) 0 3 = 2 →
      Completes (.postWord q x) s fun t => WordEnds q x (mwCommit w) w ((ctxAt s q x).pc + 1) s t fun u => (ctxAt u q x).progT = (greg s q x (mwA w)).toNat ∧ (ctxAt u q x).journal = .progT (ctxAt s q x).progT :: (ctxAt s q x).journal ∧ OnlyCtx q x s u)
    ∧ (∀ (w : Nat), WordRuns s q x w 0x1C → (ctxAt s q x).journal.length < 32 → bitsOf (mwAux w) 0 3 = 3 →
      Completes (.postWord q x) s fun t => WordEnds q x (mwCommit w) w ((ctxAt s q x).pc + 1) s t fun u => (ctxAt u q x).note = bitsOf (greg s q x (mwA w)).toNat 0 16 ∧ (ctxAt u q x).journal = .note (ctxAt s q x).note :: (ctxAt s q x).journal
        ∧ OnlyCtx q x s u)

/-- A cause that reaches a running context stands in it; CLASS_S_INTERRUPT ends the operation, which
TSQ_SCNT and TSQ_OPCNT count; the limits of time and of the preemption exit, a kill and a parity error
raise their causes; a preemption request is taken at a commit point, where the context branches to its
exit. Where the rules leave a point open it has the model's choice of log entry 18. -/
def Obligations.ContextsAreInterrupted : Prop :=
  ∀ (s : State) (q : Fin 2) (x : Fin 5), s.wf = true →
    (∀ (e : Nat) (l : List Nat), (ctxAt s q x).busy = true → (ctxAt s q x).pendS = e :: l →
      Completes (.classSInterrupt q x) s fun t => (ctxAt t q x).phase = .idle ∧ rdN t (Reg.TSQ_SCNT q) = min (rdN s (Reg.TSQ_SCNT q) + 1) (2 ^ 32 - 1)
        ∧ rdN t (Reg.TSQ_OPCNT q) = (rdN s (Reg.TSQ_OPCNT q) + 1) % 2 ^ 32)
    ∧ ((ctxAt s q x).busy = true → getF s (Reg.TSQ_OPLIM q) 0 4 ≤ (rdN s Reg.ANG_REV + 2 ^ 32 - (ctxAt s q x).startRev) % 2 ^ 32 →
      Completes (.optime q x) s fun t => SCause.optime ∈ (ctxAt t q x).pendS ∧ OnlyCtx q x s t)
    ∧ ((ctxAt s q x).phase = .pexit →
      Completes (.pexit q x) s fun t => SCause.pexit ∈ (ctxAt t q x).pendS ∧ OnlyCtx q x s t)
    ∧ (∀ (m : BitVec 5),
      Completes (.tsqKill q m) s fun t => ∀ y : Fin 5, (ctxAt s q y).busy = true → m.toNat.testBit y = true → SCause.kill ∈ (ctxAt t q y).pendS)
    ∧ ((ctxAt s q x).busy = true → ((tsqAt s q).ucparClocks.filter fun u => decide (s.clock - u < 1000000000)).length < 2 →
      Completes (.ucpar q x) s fun t => SCause.ucpar ∈ (ctxAt t q x).pendS
        ∧ (tsqAt t q).ucparClocks = ((tsqAt s q).ucparClocks.filter fun u => decide (s.clock - u < 1000000000)) ++ [s.clock] ∧ OnlyRegs [] s t)
    ∧ ((ctxAt s q x).busy = true → disabled s q = false → 2 ≤ ((tsqAt s q).ucparClocks.filter fun u => decide (s.clock - u < 1000000000)).length →
      Completes (.ucpar q x) s fun t => held t q = true)
    ∧ (∀ (m : BitVec 5),
      Completes (.preq q m) s fun t => (∀ y : Fin 5, (ctxAt s q y).busy = true → (ctxAt s q y).ptaken = false → m.toNat.testBit y = true → (ctxAt t q y).ppend = true)
        ∧ OnlyRegs [] s t)
    ∧ (exitDue (ctxAt s q x) = true →
      Completes (.preemptionExit q x) s fun t => (ctxAt t q x).phase = .pexit ∧ (ctxAt t q x).ppend = false ∧ (ctxAt t q x).ptaken = true ∧ (ctxAt t q x).pc = 2 * descOp s q x + 1
        ∧ rdN t (Reg.TSQ_PCNT q) = min (rdN s (Reg.TSQ_PCNT q) + 1) (2 ^ 32 - 1) ∧ OnlyRegs [Reg.TSQ_PCNT q] s t)

/-- A post to TSQ_FWQ that no rule of R136 turns away enters the queue of its context, and TSQ_FWSTS shows
the status in every case; a context with no routine takes the descriptor at the head of its queue and
starts at its vector; a read of TSQ_FWCQ pops the oldest completion; TSQ_CTL takes COMPAT only while
stopped and idle. Where the rules leave a point open it has the model's choice of log entry 18. -/
def Obligations.DescriptorsAreDispatched : Prop :=
  ∀ (s : State) (q : Fin 2) (x : Fin 5), s.wf = true →
    (∀ (v : DWord), fwPostStatus s q v.toNat = 0 →
      Completes (.fwPost q v) s fun t => getF t (Reg.TSQ_FWSTS q) 0 3 = 0
        ∧ (ctxAt t q (bitsOf v.toNat 32 3)).queue.map QueuedDesc.offset
            = (ctxAt s q (bitsOf v.toNat 32 3)).queue.map QueuedDesc.offset ++ [bitsOf v.toNat 6 23 * 2 ^ 6])
    ∧ (∀ (v : DWord), fwPostStatus s q v.toNat ≠ 0 →
      Completes (.fwPost q v) s fun t => getF t (Reg.TSQ_FWSTS q) 0 3 = fwPostStatus s q v.toNat ∧ rd64 t (Reg.TSQ_FWQ q) = v.toNat
        ∧ OnlyRegs [Reg.TSQ_FWSTS q, Reg.TSQ_FWQ q, Reg.TSQ_FWQ q + 4] s t ∧ t.tsq = s.tsq)
    ∧ (∀ (d : QueuedDesc) (l : List QueuedDesc), (ctxAt s q x).queue = d :: l → tsqRun s q = true → bit s Reg.NQE_FWACT 0 = false → (ctxAt s q x).busy = false → seekWaits s q x = false → opAllowed (bitsOf (sram32 s d.offset) 0 8) (bitsOf (sram32 s d.offset) 8 3) x = true →
      Completes (.dispatch q x) s fun t => (ctxAt t q x).phase = .run ∧ (ctxAt t q x).pc = 2 * bitsOf (sram32 s d.offset) 0 8 ∧ (ctxAt t q x).desc = d.offset
        ∧ (ctxAt t q x).queue.map QueuedDesc.offset = l.map QueuedDesc.offset ∧ greg t q x 15 = BitVec.ofNat 32 d.offset
        ∧ (ctxAt t q x).startRev = rdN s Reg.ANG_REV ∧ OnlyRegs [] s t)
    ∧ ((ctxAt s q x).queue = [] →
      Completes (.dispatch q x) s fun t => t = s)
    ∧ (∀ (d : Nat) (l : List Nat), (tsqAt s q).fwcq = d :: l →
      Completes (.fwcqPop q) s fun t => t.busData = d + 2 ^ 31 ∧ (tsqAt t q).fwcq = l ∧ OnlyRegs [] s t)
    ∧ ((tsqAt s q).fwcq = [] →
      Completes (.fwcqPop q) s fun t => t.busData = 0 ∧ t.tsq = s.tsq ∧ OnlyRegs [] s t)
    ∧ (∀ (v : Word), tsqRun s q = false → tsqIdle s q = true →
      Completes (.tsqCtlWrite q v) s fun t => rdN t (Reg.TSQ_CTL q) = bitsOf v.toNat 0 1 + 2 * bitsOf v.toNat 1 1 + 4 * bitsOf v.toNat 2 1 ∧ OnlyRegs [Reg.TSQ_CTL q] s t)
    ∧ (∀ (v : Word), tsqRun s q = true →
      Completes (.tsqCtlWrite q v) s fun t => rdN t (Reg.TSQ_CTL q) = bitsOf v.toNat 0 1 + 2 * getF s (Reg.TSQ_CTL q) 1 1 + 4 * bitsOf v.toNat 2 1 ∧ OnlyRegs [Reg.TSQ_CTL q] s t)

/-- A load or patch starts only while both sequencers are stopped and idle in BOOT or UPDATE, and reports
STATE otherwise; the end of the check installs a good image in both sequencers with its version, and
reports the first failure of any other without a change of the microcode. Where the rules leave a point
open it has the model's choice of log entry 18. -/
def Obligations.MicrocodeLoads : Prop :=
  ∀ (s : State), s.wf = true →
    (bit s Reg.TSQ_LDSTS 0 = false → ldAllowed s = true →
      Completes .loadImage s fun t => t.ucLoad = some ⟨false, bitsOf (rdN s Reg.TSQ_LDSRC) 2 27 * 4⟩ ∧ bit t Reg.TSQ_LDSTS 0 = true ∧ OnlyRegs [Reg.TSQ_LDSTS] s t
        ∧ t.microcode = s.microcode)
    ∧ (bit s Reg.TSQ_LDSTS 0 = false → ldAllowed s = false →
      Completes .loadImage s fun t => getF t Reg.TSQ_LDSTS 1 3 = LdResult.state ∧ bit t (Reg.TSQ_EVT 0) 3 = true ∧ t.ucLoad = none ∧ t.microcode = s.microcode)
    ∧ (bit s Reg.TSQ_LDSTS 0 = false → ldAllowed s = true →
      Completes .patchImage s fun t => t.ucLoad = some ⟨true, bitsOf (rdN s Reg.TSQ_LDSRC) 2 27 * 4⟩ ∧ bit t Reg.TSQ_LDSTS 0 = true ∧ OnlyRegs [Reg.TSQ_LDSTS] s t
        ∧ t.microcode = s.microcode)
    ∧ (bit s Reg.TSQ_LDSTS 0 = false → ldAllowed s = false →
      Completes .patchImage s fun t => getF t Reg.TSQ_LDSTS 1 3 = LdResult.state ∧ bit t (Reg.TSQ_EVT 0) 3 = true ∧ t.ucLoad = none ∧ t.microcode = s.microcode)
    ∧ (∀ (u : UcLoad), s.ucLoad = some u →
      Completes .lddone s fun t => getF t Reg.TSQ_LDSTS 1 3 = imageCheck s (sramImage s u.source) u.patch ∧ bit t Reg.TSQ_LDSTS 0 = false ∧ t.ucLoad = none
        ∧ bit t (Reg.TSQ_EVT 0) (if imageCheck s (sramImage s u.source) u.patch = 0 then 2 else 3) = true
        ∧ t.microcode = (if imageCheck s (sramImage s u.source) u.patch = 0 then imageApply s (sramImage s u.source) u.patch else s.microcode)
        ∧ (∀ q : Fin 2, rdN t (Reg.TSQ_UCVER q)
            = if imageCheck s (sramImage s u.source) u.patch = 0 then imageVersion s (sramImage s u.source) u.patch % 2 ^ 32 else rdN s (Reg.TSQ_UCVER q))
        ∧ OnlyRegsEvr [Reg.TSQ_LDSTS, Reg.TSQ_EVT 0, Reg.TSQ_UCVER 0, Reg.TSQ_UCVER 1] s t)

/-- A sample of a loaded actuator whose laws run reports its interval, the anchor's position and which slots
had no sample; in a retract it draws the open current; unloaded it leaves the laws, and so it does while
they do not run; an output set is applied at its instant, and an overrun is counted; a retract ends with
the heads parked. Where the rules leave a point open it has the model's choice of log entries 4, 6, 36
and 37. -/
def Obligations.ServoSamplesAndOutputs : Prop :=
  ∀ (s : State) (a : Fin 2), s.wf = true →
    (∀ (dt wait : BitVec 16) (p0 p1 p2 p3 : Option Word) (cce : Fin 8) (cpar : Bool), loaded s a = true → retracting s a = false → srvEn s a = true →
      Completes (.servoSample a dt wait p0 p1 p2 p3 cce cpar) s fun t => rdN t (Reg.SRV_PERIOD a) = dt.toNat
        ∧ (∀ w, [p0, p1, p2, p3].getD (anchorOf s a) none = some w → (srvAt s a).anchReq = none → rd t (Reg.SRV_POS a) = w)
        ∧ ∀ k : Fin 4, bit t (Reg.SRV_PES a k) 24 = ([p0, p1, p2, p3].getD k none).isNone)
    ∧ (∀ (dt wait : BitVec 16) (p0 p1 p2 p3 : Option Word) (cce : Fin 8) (cpar : Bool), loaded s a = true → retracting s a = true →
      Completes (.servoSample a dt wait p0 p1 p2 p3 cce cpar) s fun t => rdN t (Reg.SRV_PERIOD a) = dt.toNat ∧ s.draws < t.draws ∧ retracting t a = true ∧ (srvAt t a).pendingOut = (srvAt s a).pendingOut)
    ∧ (∀ (dt wait : BitVec 16) (p0 p1 p2 p3 : Option Word) (cce : Fin 8) (cpar : Bool), loaded s a = true → retracting s a = false → srvEn s a = false →
      Completes (.servoSample a dt wait p0 p1 p2 p3 cce cpar) s fun t => rdN t (Reg.SRV_PERIOD a) = dt.toNat ∧ (srvAt t a).pendingOut = (srvAt s a).pendingOut
        ∧ ∀ k : Fin 4, bit t (Reg.SRV_PES a k) 24 = ([p0, p1, p2, p3].getD k none).isNone)
    ∧ (∀ (dt wait : BitVec 16) (p0 p1 p2 p3 : Option Word) (cce : Fin 8) (cpar : Bool), loaded s a = false →
      Completes (.servoSample a dt wait p0 p1 p2 p3 cce cpar) s fun t => rdN t (Reg.SRV_PERIOD a) = rdN s (Reg.SRV_PERIOD a) ∧ (srvAt t a).law = (srvAt s a).law ∧ (srvAt t a).pendingOut = (srvAt s a).pendingOut)
    ∧ (∀ (o : OutputSet) (l : List OutputSet), (srvAt s a).pendingOut = o :: l → o.cause = none → fpNonFinite o.vcm = false → ratAbs (fpVal o.vcm) ≤ fpVal (rdN s (if a.val = 0 then Reg.SLU_VCMMAX0 else Reg.SLU_VCMMAX1)) →
      Completes (.outputApply a) s fun t => (srvAt t a).pendingOut = l ∧ rdN t (Reg.SRV_VCMI a) = o.vcm % 2 ^ 32 ∧ getF t (Reg.SRV_OVR a) 16 2 = 0
        ∧ (srvAt t a).overrunHold = false ∧ (srvAt t a).appV = o.lawV ∧ (srvAt t a).appM = o.lawM)
    ∧ (∀ (o : OutputSet) (l : List OutputSet) (c : Nat), (srvAt s a).pendingOut = o :: l → o.cause = some c → getF s (Reg.SRV_OVR a) 16 2 < 2 →
      Completes (.outputApply a) s fun t => (srvAt t a).pendingOut = l ∧ getF t (Reg.SRV_OVR a) 16 2 = getF s (Reg.SRV_OVR a) 16 2 + 1
        ∧ getF t (Reg.SRV_OVR a) 0 16 = min 65535 (getF s (Reg.SRV_OVR a) 0 16 + 1) ∧ getF t (Reg.SRV_OVR a) 20 2 = c % 4
        ∧ bit t (Reg.SRV_EVT a) 0 = true ∧ (srvAt t a).overrunHold = true)
    ∧ (∀ (o : OutputSet) (l : List OutputSet) (c : Nat), (srvAt s a).pendingOut = o :: l → o.cause = some c → getF s (Reg.SRV_OVR a) 16 2 = 2 → loaded s a = true → retracting s a = false →
      Completes (.outputApply a) s fun t => retracting t a = true ∧ bit t (Reg.SRV_EVT a) 1 = true ∧ bit t (Reg.SRV_CTL a) 0 = false)
    ∧ (∀ (why : RetractFor), (srvAt s a).retract = some why →
      Completes (.retractEnd a) s fun t => retracting t a = false ∧ loaded t a = false)

/-- EN needs a valid bank and no retract; an anchor change waits for the next sample or is refused for a
slot without a head; a swap starts one check, whose end activates the bank, leaves it pending or reports
its failure; the window writes the inactive bank; injection and capture start and stop as their
registers have it; a missed settle is a seek failure. Where the rules leave a point open it has the
model's choice of log entries 36 and 37. -/
def Obligations.ServoCommands : Prop :=
  ∀ (s : State) (a : Fin 2), s.wf = true →
    (bit s (Reg.SRV_BANK a) 8 = true → retracting s a = false →
      Completes (.srvEnWrite a true) s fun t => bit t (Reg.SRV_CTL a) 0 = true ∧ bit t (Reg.SRV_STS a) 0 = true)
    ∧ (bit s (Reg.SRV_BANK a) 8 = false →
      Completes (.srvEnWrite a true) s fun t => bit t (Reg.SRV_CTL a) 0 = bit s (Reg.SRV_CTL a) 0 ∧ bit t (Reg.SRV_EVT a) 3 = true ∧ OnlyRegsEvr [Reg.SRV_EVT a] s t)
    ∧ (Completes (.srvEnWrite a false) s fun t => bit t (Reg.SRV_CTL a) 0 = false ∧ bit t (Reg.SRV_STS a) 0 = false)
    ∧ (∀ (n : Fin 4), (slotHead s (4 * a + n)).isSome = true →
      Completes (.anchWrite a n) s fun t => (srvAt t a).anchReq = some n.val ∧ OnlyRegs [] s t)
    ∧ (∀ (n : Fin 4), slotHead s (4 * a + n) = none →
      Completes (.anchWrite a n) s fun t => (srvAt t a).anchReq = (srvAt s a).anchReq ∧ bit t (Reg.SRV_EVT a) 8 = true ∧ OnlyRegsEvr [Reg.SRV_EVT a] s t)
    ∧ (bit s (Reg.SRV_BANK a) 1 = false → bit s (Reg.SRV_BANK a) 2 = false →
      Completes (.bankSwap a) s fun t => bit t (Reg.SRV_BANK a) 2 = true ∧ OnlyRegs [Reg.SRV_BANK a] s t)
    ∧ (bit s (Reg.SRV_BANK a) 1 = true ∨ bit s (Reg.SRV_BANK a) 2 = true →
      Completes (.bankSwap a) s fun t => bit t (Reg.SRV_EVT a) 11 = true ∧ OnlyRegsEvr [Reg.SRV_EVT a] s t)
    ∧ (bit s (Reg.SRV_BANK a) 2 = true → bankCheck s a (inactiveBank s a) ≠ 0 →
      Completes (.bankCheckEnd a) s fun t => getF t (Reg.SRV_BANK a) 4 3 = bankCheck s a (inactiveBank s a) ∧ bit t (Reg.SRV_BANK a) 2 = false ∧ bit t (Reg.SRV_EVT a) 3 = true
        ∧ bit t (Reg.SRV_STS a) 1 = bit s (Reg.SRV_STS a) 1)
    ∧ (bit s (Reg.SRV_BANK a) 2 = true → bankCheck s a (inactiveBank s a) = 0 → srvEn s a = false →
      Completes (.bankCheckEnd a) s fun t => bit t (Reg.SRV_STS a) 1 = !bit s (Reg.SRV_STS a) 1 ∧ bit t (Reg.SRV_BANK a) 8 = true ∧ bit t (Reg.SRV_BANK a) 2 = false
        ∧ rdN t (Reg.SRV_BANKID a) = bankWord (inactiveBank s a) 2 ∧ bit t (Reg.SRV_EVT a) 2 = true)
    ∧ (bit s (Reg.SRV_BANK a) 2 = true → bankCheck s a (inactiveBank s a) = 0 → srvEn s a = true →
      Completes (.bankCheckEnd a) s fun t => bit t (Reg.SRV_STS a) 1 = bit s (Reg.SRV_STS a) 1 ∧ bit t (Reg.SRV_BANK a) 1 = true ∧ bit t (Reg.SRV_BANK a) 2 = false
        ∧ OnlyRegs [Reg.SRV_BANK a] s t)
    ∧ (∀ (i : Fin 8192) (w : Word), bit s (Reg.SRV_BANK (getF s Reg.SRV_CWSEL 0 1)) 1 = false → bit s (Reg.SRV_BANK (getF s Reg.SRV_CWSEL 0 1)) 2 = false → scanon zeroDflt (inactiveBank s (getF s Reg.SRV_CWSEL 0 1)) = true →
      Completes (.coefficientWindowWrite i w) s fun t => sget zeroDflt (inactiveBank t (getF s Reg.SRV_CWSEL 0 1)) i = w ∧ OnlyRegs [] s t
        ∧ activeBank t (getF s Reg.SRV_CWSEL 0 1) = activeBank s (getF s Reg.SRV_CWSEL 0 1))
    ∧ (∀ (v : Word), (srvAt s a).injector = none → injRefusal (plainWrite (Reg.SRV_INJCTL a) (putBits (putBits v.toNat 0 1 0) 1 1 0) s) a ≠ 0 →
      Completes (.injectionGo a v) s fun t => getF t (Reg.SRV_INJSTS a) 1 3 = injRefusal (plainWrite (Reg.SRV_INJCTL a) (putBits (putBits v.toNat 0 1 0) 1 1 0) s) a ∧ (srvAt t a).injector = none)
    ∧ (∀ (v : Word), (srvAt s a).injector = none → injRefusal (plainWrite (Reg.SRV_INJCTL a) (putBits (putBits v.toNat 0 1 0) 1 1 0) s) a = 0 →
      Completes (.injectionGo a v) s fun t => ((srvAt t a).injector.map Injector.count) = some 0 ∧ bit t (Reg.SRV_STS a) 7 = true ∧ bit t (Reg.SRV_INJCTL a) 0 = true
        ∧ rdN t (Reg.SRV_INJSTS a) = 1 ∧ t.draws = s.draws + 1)
    ∧ (Completes (.injectionStop a) s fun t => (srvAt t a).injector = ((srvAt s a).injector.map fun j => { j with stop := true }) ∧ OnlyRegs [] s t)
    ∧ (∀ (v : Word), bit s (Reg.SRV_CAPCTL a) 26 = false →
      Completes (.captureGo a v) s fun t => bit t (Reg.SRV_CAPCTL a) 26 = true ∧ getF t (Reg.SRV_CAPSTS a) 0 17 = 0 ∧ (srvAt t a).capture.written = 0
        ∧ (srvAt t a).capture.running = decide (bitsOf v.toNat 24 2 = 0 ∨ bitsOf v.toNat 24 2 = 3))
    ∧ (bit s (Reg.SRV_CAPCTL a) 26 = true →
      Completes (.captureStop a) s fun t => bit t (Reg.SRV_CAPCTL a) 26 = false ∧ bit t (Reg.SRV_CAPSTS a) 25 = true ∧ bit t (Reg.SRV_CAPSTS a) 24 = false
        ∧ bit t (Reg.SRV_EVT a) 10 = true ∧ (srvAt t a).capture.running = false
        ∧ OnlyRegsEvr [Reg.SRV_CAPCTL a, Reg.SRV_CAPSTS a, Reg.SRV_EVT a] s t)
    ∧ (Completes (.capd3Read a) s fun t => t.busData = captureWord s a (getF s (Reg.SRV_CAPIDX a) 0 16) 3
        ∧ getF t (Reg.SRV_CAPIDX a) 0 16 = (getF s (Reg.SRV_CAPIDX a) 0 16 + 1) % 65536 ∧ OnlyRegs [Reg.SRV_CAPIDX a] s t)
    ∧ (bit s (Reg.SRV_STS a) 4 = false → bit s (Reg.SRV_STS a) 5 = false → settleOver s a = true →
      Completes (.skfail a) s fun t => bit t (Reg.SRV_EVT a) 5 = true ∧ (srvAt t a).skfails = (srvAt s a).skfails + 1 ∧ OnlyRegsEvr [Reg.SRV_EVT a] s t)

/-- A reading of the six axes is shown in the SRV_SHK registers; a reading beyond a limit sets its bit of
SLU_STS with SLU_EVT.SHOCK at the rise; the bit clears once the quantities have stayed within the limit.
Where the rules leave a point open it has the model's choice of log entries 5, 15 and 37. -/
def Obligations.ShockReadings : Prop :=
  ∀ (s : State), s.wf = true →
    (∀ (x y z rx ry rz : BitVec 16),
      Completes (.shockReading x y z rx ry rz) s fun t => rdN t (Reg.SRV_SHK 0) = x.toNat ∧ rdN t (Reg.SRV_SHK 1) = y.toNat ∧ rdN t (Reg.SRV_SHK 2) = z.toNat
        ∧ rdN t (Reg.SRV_SHK 3) = rx.toNat ∧ rdN t (Reg.SRV_SHK 4) = ry.toNat ∧ rdN t (Reg.SRV_SHK 5) = rz.toNat
        ∧ (shockOver t (rdN s Reg.SLU_SHKLIM) = true → bit t Reg.SLU_STS 0 = true)
        ∧ (shockOver t (rdN s Reg.SLU_SHKHARD) = true → bit t Reg.SLU_STS 1 = true))
    ∧ (∀ (x y z rx ry rz : BitVec 16), bit s Reg.SLU_STS 0 = false → bitsOf (rdN s Reg.SLU_SHKLIM) 0 16 < (signedOf 16 x.toNat).natAbs →
      Completes (.shockReading x y z rx ry rz) s fun t => bit t Reg.SLU_EVT 1 = true)
    ∧ (shockOver s (rdN s Reg.SLU_SHKHARD) = false →
      Completes (.shockClear true) s fun t => bit t Reg.SLU_STS 1 = false)
    ∧ (shockOver s (rdN s Reg.SLU_SHKLIM) = false →
      Completes (.shockClear false) s fun t => bit t Reg.SLU_STS 0 = false)

/-- A crossing gives SPN_SPEED; three implausible or missing crossings in a row in RUN are a loss of
synchronism, which leads to commutation from the servo angle or to REACQ; a comparator edge gives the
Sluice its own speed; six consistent edges in REACQ at 300 rpm forward catch the motor, and a
reacquisition that takes too long counts as a failure, the third of which stops the spindle. Where the
rules leave a point open it has the model's choice of log entries 4, 33, 34 and 35. -/
def Obligations.SpindleFollowsCrossings : Prop :=
  ∀ (s : State), s.wf = true →
    (∀ (p q : BemfPair) (x : Rat), crossingInstant p q = some x → commutating s = true → sampling s = true → watched s p q = true → 0 < (polePairs s : Rat) * (s.spn.lead + x) →
      Completes (.bemfCrossing p q) s fun t => rdN t Reg.SPN_SPEED = min (2 ^ 20 - 1) (crossingSpeed s (s.spn.lead + x) * 64).floor.toNat
            + if bit s Reg.SPN_STS 9 then 2 ^ 31 else 0)
    ∧ (∀ (p q : BemfPair) (x : Rat), crossingInstant p q = some x → commutating s = true → sampling s = true → watched s p q = true → 0 < (polePairs s : Rat) * (s.spn.lead + x) → spnPhase s = SpnPhase.run → s.spn.bad = 2 → outsideWindow s x = true ∨ s.spn.est * 2 / 100 < ratAbs (crossingSpeed s (s.spn.lead + x) - s.spn.est) → angleHeld s = true → bit s Reg.SPN_MOFF 31 = true → bit s Reg.SPN_CTL 1 = true → spnSync s = false →
      Completes (.bemfCrossing p q) s fun t => bit t Reg.SPN_EVT 0 = true ∧ rdN t Reg.SPN_LOSCNT = min (rdN s Reg.SPN_LOSCNT + 1) (2 ^ 32 - 1) ∧ spnSync t = false ∧ spnPhase t = SpnPhase.servoComm ∧ spnCsrc t = true
        ∧ t.spn.step = servoStep s)
    ∧ (∀ (p q : BemfPair) (x : Rat), crossingInstant p q = some x → commutating s = true → sampling s = true → watched s p q = true → 0 < (polePairs s : Rat) * (s.spn.lead + x) → spnPhase s = SpnPhase.run → s.spn.bad = 2 → outsideWindow s x = true ∨ s.spn.est * 2 / 100 < ratAbs (crossingSpeed s (s.spn.lead + x) - s.spn.est) → angleHeld s = false → loaded s 0 = false → loaded s 1 = false →
      Completes (.bemfCrossing p q) s fun t => bit t Reg.SPN_EVT 0 = true ∧ rdN t Reg.SPN_LOSCNT = min (rdN s Reg.SPN_LOSCNT + 1) (2 ^ 32 - 1) ∧ spnSync t = false ∧ spnPhase t = SpnPhase.reacq)
    ∧ (spnPhase s = SpnPhase.run → s.spn.bad = 2 →
      Completes .missedCrossing s fun t => bit t Reg.SPN_EVT 0 = true ∧ rdN t Reg.SPN_LOSCNT = min (rdN s Reg.SPN_LOSCNT + 1) (2 ^ 32 - 1) ∧ spnSync t = false)
    ∧ (spnPhase s = SpnPhase.run ∨ spnPhase s = SpnPhase.servoComm → s.spn.bad < 2 →
      Completes .missedCrossing s fun t => t.spn.bad = s.spn.bad + 1 ∧ t.spn.good = 0 ∧ t.spn.step = (if spnPhase s = SpnPhase.run then (s.spn.step + 1) % 6 else s.spn.step)
        ∧ OnlyRegs [] s t)
    ∧ (spnPhase s = SpnPhase.openLoop →
      Completes .missedCrossing s fun t => t.spn.bad = s.spn.bad ∧ t.spn.good = 0 ∧ t.spn.step = (s.spn.step + 1) % 6 ∧ OnlyRegs [] s t)
    ∧ (spnPhase s = SpnPhase.openLoop ∨ spnPhase s = SpnPhase.run →
      Completes .commutate s fun t => t.spn.step = (s.spn.step + 1) % 6 ∧ OnlyRegs [] s t)
    ∧ (spnPhase s = SpnPhase.servoComm →
      Completes .commutate s fun t => t.spn.step = servoStep s ∧ OnlyRegs [] s t)
    ∧ (∀ (r : Nat), s.spn.reinit = some r → s.spn.obsFailed = false → spnCsrc s = true → spnFails s < 2 → QueuesEmpty s →
      Completes .obsfail s fun t => bit t Reg.SPN_EVT 6 = true ∧ spnFails t = spnFails s + 1 ∧ rdN t Reg.SPN_RFCNT = min (rdN s Reg.SPN_RFCNT + 1) (2 ^ 32 - 1))
    ∧ (∀ (r : Nat), s.spn.reinit = some r → spnPhase s = SpnPhase.run → spnSync s = false → QueuesEmpty s →
      Completes .racqok s fun t => spnSync t = true ∧ bit t Reg.SPN_EVT 1 = true ∧ t.spn.reinit = none)
    ∧ (∀ (back : Bool) (dt : Word) (pos : BitVec 16), getF s Reg.SPN_MOT 0 4 * dt.toNat ≠ 0 → spnPhase s = SpnPhase.observe ∨ spnPhase s = SpnPhase.reacq ∨ spnPhase s = SpnPhase.brake ∨ spnPhase s = SpnPhase.coast →
      Completes (.comparatorEdge back dt pos) s fun t => t.spn.edges = s.spn.edges + 1 ∧ t.spn.back = back ∧ t.spn.interval = some dt.toNat
        ∧ rdN t Reg.SPN_SPEED = min (2 ^ 20 - 1) (640000000000 / (getF s Reg.SPN_MOT 0 4 * dt.toNat)) + (if back then 2 ^ 31 else 0))
    ∧ (∀ (back : Bool) (dt : Word) (pos : BitVec 16), getF s Reg.SPN_MOT 0 4 * dt.toNat ≠ 0 → getF s Reg.SLU_SPNMAX 0 14 * getF s Reg.SPN_MOT 0 4 * dt.toNat < 10000000000 →
      Completes (.comparatorEdge back dt pos) s fun t => bit t Reg.SLU_STS 3 = true ∧ bit t Reg.SLU_EVT 7 = true)
    ∧ (∀ (back : Bool) (dt : Word) (pos : BitVec 16), getF s Reg.SPN_MOT 0 4 * dt.toNat ≠ 0 → 10000000000 * 100 < getF s Reg.SLU_SPNMAX 0 14 * 99 * getF s Reg.SPN_MOT 0 4 * dt.toNat →
      Completes (.comparatorEdge back dt pos) s fun t => bit t Reg.SLU_STS 3 = false)
    ∧ (∀ (dt : Word) (pos : BitVec 16) (i : Nat), spnPhase s = SpnPhase.reacq → 5 ≤ s.spn.good → s.spn.interval = some i → s.spn.back = false → 100 * (if i ≤ dt.toNat then dt.toNat - i else i - dt.toNat) ≤ 2 * i → pos.toNat ≤ 1500 → getF s Reg.SPN_MOT 0 4 * dt.toNat ≠ 0 → 300 * (getF s Reg.SPN_MOT 0 4 * dt.toNat) ≤ 10000000000 →
      Completes (.comparatorEdge false dt pos) s fun t => spnPhase t = SpnPhase.run ∧ spnSync t = true ∧ bit t Reg.SPN_EVT 1 = true)
    ∧ (spnPhase s = SpnPhase.reacq → phaseOver s (16 * elecPeriod s s.spn.est) = true → spnFails s < 2 →
      Completes .racqfail s fun t => bit t Reg.SPN_EVT 2 = true ∧ spnFails t = spnFails s + 1 ∧ rdN t Reg.SPN_RFCNT = min (rdN s Reg.SPN_RFCNT + 1) (2 ^ 32 - 1) ∧ spnPhase t = SpnPhase.brake ∧ t.spn.after = .start)
    ∧ (spnPhase s = SpnPhase.reacq → phaseOver s (16 * elecPeriod s s.spn.est) = true → 2 ≤ spnFails s →
      Completes .racqfail s fun t => bit t Reg.SPN_EVT 2 = true ∧ spnFails t = 3 ∧ rdN t Reg.SPN_RFCNT = min (rdN s Reg.SPN_RFCNT + 1) (2 ^ 32 - 1) ∧ bit t Reg.SPN_EVT 9 = true ∧ bit t Reg.SPN_CTL 0 = false)

/-- RUN with a good configuration observes the motor; what was observed decides between alignment, a catch
and braking; open-loop commutation follows alignment; a start that takes too long is a failure; STOP
brakes, then holds, then stops; COAST lets the motor turn; the target is taken from 5,400 to 10,000 rpm.
Where the rules leave a point open it has the model's choice of log entries 33 and 35. -/
def Obligations.SpindleStartsAndStops : Prop :=
  ∀ (s : State), s.wf = true →
    (spnPhase s = SpnPhase.observe → s.spn.edges = 0 → phaseOver s 20000000 = true →
      Completes .observeEnd s fun t => spnPhase t = SpnPhase.align ∧ t.spn.step = 0)
    ∧ (spnPhase s = SpnPhase.observe → s.spn.edges ≠ 0 → 12 ≤ s.spn.good → s.spn.back = false → 300 ≤ s.spn.est →
      Completes .observeEnd s fun t => spnPhase t = SpnPhase.run ∧ spnSync t = true)
    ∧ (spnPhase s = SpnPhase.observe → s.spn.edges ≠ 0 → s.spn.good < 12 ∨ s.spn.back = true ∨ s.spn.est < 300 →
      Completes .observeEnd s fun t => spnPhase t = SpnPhase.brake ∧ t.spn.after = .start)
    ∧ (spnPhase s = SpnPhase.align → s.spn.phaseClock + 10000000 * getF s Reg.SPN_START 0 8 ≤ s.clock →
      Completes .alignEnd s fun t => spnPhase t = SpnPhase.openLoop ∧ t.spn.good = 0 ∧ t.spn.rampStart = some s.clock)
    ∧ (spnPhase s = SpnPhase.openLoop → 1000000000 ≤ s.clock → 300 ≤ openSpeed s (s.clock - 1000000000) → s.spn.misses = 0 →
      Completes .handoverTimeout s fun t => spnPhase t = SpnPhase.brake ∧ t.spn.after = .start ∧ t.spn.misses = 1 ∧ spnFails t = spnFails s)
    ∧ (spnPhase s = SpnPhase.openLoop → 1000000000 ≤ s.clock → 300 ≤ openSpeed s (s.clock - 1000000000) → 1 ≤ s.spn.misses → spnFails s < 2 → s.sys.step = none →
      Completes .handoverTimeout s fun t => bit t Reg.SPN_EVT 3 = true ∧ spnFails t = spnFails s + 1 ∧ rdN t Reg.SPN_RFCNT = min (rdN s Reg.SPN_RFCNT + 1) (2 ^ 32 - 1) ∧ spnPhase t = SpnPhase.brake)
    ∧ (∀ (c : Nat), s.spn.runClock = some c → c + 100000000 * getF s Reg.SPN_START 24 8 ≤ s.clock → spnFails s < 2 → s.sys.step = none →
      Completes .startfail s fun t => bit t Reg.SPN_EVT 3 = true ∧ spnFails t = spnFails s + 1 ∧ rdN t Reg.SPN_RFCNT = min (rdN s Reg.SPN_RFCNT + 1) (2 ^ 32 - 1) ∧ spnPhase t = SpnPhase.brake)
    ∧ (s.spn.runClock = none →
      Completes .startfail s fun t => t = s)
    ∧ (∀ (c : Nat), s.spn.goodSince = some c → c + 60000000000 ≤ s.clock → spnSync s = true → bit s Reg.SPN_STS 11 = true →
      Completes .failsClear s fun t => spnFails t = 0 ∧ OnlyRegs [Reg.SPN_STS] s t)
    ∧ (bit s Reg.SPN_CTL 0 = true → spnConfigOk s = true → spnPhase s = SpnPhase.stopped ∨ spnPhase s = SpnPhase.coast ∨ spnPhase s = SpnPhase.fault → spnSync s = false →
      Completes .spnRun s fun t => spnPhase t = SpnPhase.observe ∧ t.spn.edges = 0 ∧ t.spn.runClock = some s.clock)
    ∧ (bit s Reg.SPN_CTL 0 = true → spnConfigOk s = false →
      Completes .spnRun s fun t => bit t Reg.SPN_EVT 11 = true ∧ spnPhase t = spnPhase s)
    ∧ (bit s Reg.SPN_CTL 0 = true →
      Completes .spnStop s fun t => spnPhase t = SpnPhase.brake ∧ t.spn.after = .stopped ∧ t.spn.runClock = none)
    ∧ (bit s Reg.SPN_CTL 0 = true →
      Completes .spnCoast s fun t => spnPhase t = SpnPhase.coast ∧ t.spn.runClock = none)
    ∧ (bit s Reg.SPN_CTL 0 = false →
      Completes .spnStop s fun t => t.spn = s.spn ∧ OnlyRegs [] s t)
    ∧ (bit s Reg.SPN_CTL 0 = false →
      Completes .spnCoast s fun t => t.spn = s.spn ∧ OnlyRegs [] s t)
    ∧ (spnPhase s = SpnPhase.brake → s.spn.edgeClock + 20000000 ≤ s.clock →
      Completes .brakeQuiet s fun t => spnPhase t = SpnPhase.hold ∧ rdN t Reg.SPN_SPEED = 0)
    ∧ (spnPhase s = SpnPhase.hold → s.spn.phaseClock + 10000000 * getF s Reg.SPN_BRK 24 8 ≤ s.clock → s.spn.after = .stopped →
      Completes .spnStopped s fun t => spnPhase t = SpnPhase.stopped ∧ bit t Reg.SPN_EVT 7 = true)
    ∧ (spnPhase s = SpnPhase.hold → s.spn.phaseClock + 10000000 * getF s Reg.SPN_BRK 24 8 ≤ s.clock → s.spn.after = .start →
      Completes .spnStopped s fun t => spnPhase t = SpnPhase.align)
    ∧ (∀ (v : Word), 5400 ≤ bitsOf v.toNat 0 14 → bitsOf v.toNat 0 14 ≤ 10000 →
      Completes (.tgtWrite v) s fun t => rdN t Reg.SPN_TGT = bitsOf v.toNat 0 14)
    ∧ (∀ (v : Word), bitsOf v.toNat 0 14 < 5400 ∨ 10000 < bitsOf v.toNat 0 14 →
      Completes (.tgtWrite v) s fun t => rdN t Reg.SPN_TGT = rdN s Reg.SPN_TGT ∧ bit t Reg.SPN_EVT 10 = true)

/-- A sample shows the supply voltage and the currents; one candidate wins, and WEIR_WIN, its counter and
bit 0 of WEIR_STS show which; while the bridge is not driven it applies no duty outside ALIGN.
Dissipative braking begins after its time. A write beyond a register's range is refused. Where the rules
leave a point open it has the model's choice of log entries 34 and 35. -/
def Obligations.WeirArbitratesCurrent : Prop :=
  ∀ (s : State), s.wf = true →
    (∀ (v12 i12 iph : Word),
      Completes (.weirSample v12 i12 iph) s fun t => rdN t Reg.WEIR_V12 = v12.toNat ∧ rdN t Reg.WEIR_I12 = i12.toNat ∧ rdN t Reg.SPN_IPH = iph.toNat
        ∧ rdN t Reg.WEIR_WIN ≤ 4 ∧ bit t Reg.WEIR_STS 0 = (rdN t Reg.WEIR_WIN == 2)
        ∧ rdN t (Reg.WEIR_WCNT (rdN t Reg.WEIR_WIN)) = (rdN s (Reg.WEIR_WCNT (rdN t Reg.WEIR_WIN)) + 1) % 2 ^ 32
        ∧ ∀ w : Fin 5, w.val ≠ rdN t Reg.WEIR_WIN → rdN t (Reg.WEIR_WCNT w) = rdN s (Reg.WEIR_WCNT w))
    ∧ (∀ (v12 i12 iph : Word), spnDriven (spnPhase s) = false → spnPhase s ≠ SpnPhase.align →
      Completes (.weirSample v12 i12 iph) s fun t => rdN t Reg.WEIR_V12 = v12.toNat ∧ rdN t Reg.WEIR_I12 = i12.toNat ∧ rdN t Reg.SPN_IPH = iph.toNat ∧ rdN t Reg.SPN_DUTY = 0 ∧ getF t Reg.SPN_STS 12 2 = 0)
    ∧ (getF s Reg.SPN_DUTY 0 10 ≠ 0 → s.spn.cut = false →
      Completes .ilimpk s fun t => rdN t Reg.SPN_PKCNT = min (rdN s Reg.SPN_PKCNT + 1) (2 ^ 32 - 1) ∧ bit t Reg.SPN_EVT 12 = true ∧ t.spn.cut = true ∧ OnlyRegsEvr [Reg.SPN_PKCNT, Reg.SPN_EVT] s t)
    ∧ (getF s Reg.SPN_DUTY 0 10 = 0 ∨ s.spn.cut = true →
      Completes .ilimpk s fun t => t = s)
    ∧ (s.spn.demand = true → bit s Reg.SPN_STS 10 = false → 4 * getF s Reg.SPN_BRK 16 8 ≤ s.spn.below →
      Completes .disbrk s fun t => bit t Reg.SPN_STS 10 = true ∧ bit t Reg.WEIR_STS 3 = true ∧ bit t Reg.SPN_EVT 4 = true ∧ OnlyRegsEvr [Reg.SPN_STS, Reg.WEIR_STS, Reg.SPN_EVT] s t)
    ∧ (s.spn.demand = false ∨ s.spn.below < 4 * getF s Reg.SPN_BRK 16 8 →
      Completes .disbrk s fun t => t = s)
    ∧ (∀ (v : Word), fpNonFinite v.toNat = false → fpVal 0x3DCCCCCD ≤ fpVal v.toNat → fpVal v.toNat ≤ 2 →
      Completes (.weirLimitWrite 0 v) s fun t => rdN t Reg.WEIR_ILIM = v.toNat ∧ OnlyRegs [Reg.WEIR_ILIM] s t)
    ∧ (∀ (v : Word), fpNonFinite v.toNat = true ∨ fpVal v.toNat < fpVal 0x3DCCCCCD ∨ 2 < fpVal v.toNat →
      Completes (.weirLimitWrite 0 v) s fun t => bit t Reg.WEIR_EVT 0 = true ∧ OnlyRegsEvr [Reg.WEIR_EVT] s t)
    ∧ (∀ (v : Word), fpNonFinite v.toNat = false → 1 / 2 ≤ fpVal v.toNat → fpVal v.toNat ≤ 3 →
      Completes (.weirLimitWrite 1 v) s fun t => rdN t Reg.WEIR_IINLIM = v.toNat ∧ OnlyRegs [Reg.WEIR_IINLIM] s t)
    ∧ (∀ (v : Word), fpNonFinite v.toNat = true ∨ fpVal v.toNat < 1 / 2 ∨ 3 < fpVal v.toNat →
      Completes (.weirLimitWrite 1 v) s fun t => bit t Reg.WEIR_EVT 0 = true ∧ OnlyRegsEvr [Reg.WEIR_EVT] s t)
    ∧ (∀ (v : Word), fpNonFinite v.toNat = false → 12 ≤ fpVal v.toNat → fpVal v.toNat ≤ fpVal 0x414E6666 →
      Completes (.weirLimitWrite 2 v) s fun t => rdN t Reg.WEIR_VREG = v.toNat ∧ OnlyRegs [Reg.WEIR_VREG] s t)
    ∧ (∀ (v : Word), fpNonFinite v.toNat = true ∨ fpVal v.toNat < 12 ∨ fpVal 0x414E6666 < fpVal v.toNat →
      Completes (.weirLimitWrite 2 v) s fun t => bit t Reg.WEIR_EVT 0 = true ∧ OnlyRegsEvr [Reg.WEIR_EVT] s t)
    ∧ (∀ (v : Word), fpNonFinite v.toNat = false → 0 ≤ fpVal v.toNat → fpVal v.toNat ≤ 2 →
      Completes (.weirLimitWrite 3 v) s fun t => rdN t Reg.WEIR_RAMPI0 = v.toNat ∧ OnlyRegs [Reg.WEIR_RAMPI0] s t)
    ∧ (∀ (v : Word), fpNonFinite v.toNat = true ∨ fpVal v.toNat < 0 ∨ 2 < fpVal v.toNat →
      Completes (.weirLimitWrite 3 v) s fun t => bit t Reg.WEIR_EVT 0 = true ∧ OnlyRegsEvr [Reg.WEIR_EVT] s t)
    ∧ (∀ (v : Word), fpNonFinite v.toNat = false → 0 < fpVal v.toNat → fpVal v.toNat ≤ 100 →
      Completes (.weirLimitWrite 4 v) s fun t => rdN t Reg.WEIR_RAMPR = v.toNat ∧ OnlyRegs [Reg.WEIR_RAMPR] s t)
    ∧ (∀ (v : Word), fpNonFinite v.toNat = true ∨ fpVal v.toNat ≤ 0 ∨ 100 < fpVal v.toNat →
      Completes (.weirLimitWrite 4 v) s fun t => bit t Reg.WEIR_EVT 0 = true ∧ OnlyRegsEvr [Reg.WEIR_EVT] s t)
    ∧ (∀ (v : Word), fpNonFinite v.toNat = false → 0 < fpVal v.toNat → fpVal v.toNat ≤ 10000 →
      Completes (.weirLimitWrite 5 v) s fun t => rdN t Reg.WEIR_KIIN = v.toNat ∧ OnlyRegs [Reg.WEIR_KIIN] s t)
    ∧ (∀ (v : Word), fpNonFinite v.toNat = true ∨ fpVal v.toNat ≤ 0 ∨ 10000 < fpVal v.toNat →
      Completes (.weirLimitWrite 5 v) s fun t => bit t Reg.WEIR_EVT 0 = true ∧ OnlyRegsEvr [Reg.WEIR_EVT] s t)
    ∧ (∀ (v : Word), fpNonFinite v.toNat = false → 0 < fpVal v.toNat → fpVal v.toNat ≤ 10000 →
      Completes (.weirLimitWrite 6 v) s fun t => rdN t Reg.WEIR_KV = v.toNat ∧ OnlyRegs [Reg.WEIR_KV] s t)
    ∧ (∀ (v : Word), fpNonFinite v.toNat = true ∨ fpVal v.toNat ≤ 0 ∨ 10000 < fpVal v.toNat →
      Completes (.weirLimitWrite 6 v) s fun t => bit t Reg.WEIR_EVT 0 = true ∧ OnlyRegsEvr [Reg.WEIR_EVT] s t)

/-- A fetched command that a check fails completes at once with that status, and any other goes to firmware
or the queue engine; Connect creates an association or a queue or answers why not; properties are read
and written; a disconnect, a lost connection, an expired Keep Alive Timer or a reset ends what it says.
Where the rules leave a point open it has the model's choice of log entries 22, 23, 24 and 25. -/
def Obligations.HostsConnectAndReset : Prop :=
  ∀ (s : State), s.wf = true →
    (∀ (a q : BitVec 16) (k : Fin 16384) (e : BitVec 512) (others : List (BitVec 16 × BitVec 16)) (x : Assoc) (st : Nat), assocAt s a.toNat = some x → mayFetch s x (entryCmd s k a.toNat q.toNat e.toNat) = true → inTurn s (others.map fun y => (y.1.toNat, y.2.toNat)) (entryCmd s k a.toNat q.toNat e.toNat) = true → fetchStatus s x (entryCmd s k a.toNat q.toNat e.toNat) e.toNat = some st →
      Completes (.commandFetch a q k e others) s fun t => s.nqe.posted ++ [⟨a.toNat, q.toNat, sqe e.toNat 2 2, st, false, 0, 0⟩] <+: t.nqe.posted ∧ cmdAt t k = none
        ∧ t.nqe.nextSeq = s.nqe.nextSeq + 1)
    ∧ (∀ (a q : BitVec 16) (k : Fin 16384) (e : BitVec 512) (others : List (BitVec 16 × BitVec 16)) (x : Assoc), assocAt s a.toNat = some x → mayFetch s x (entryCmd s k a.toNat q.toNat e.toNat) = true → inTurn s (others.map fun y => (y.1.toNat, y.2.toNat)) (entryCmd s k a.toNat q.toNat e.toNat) = true → fetchStatus s x (entryCmd s k a.toNat q.toNat e.toNat) e.toNat = none → (entryCmd s k a.toNat q.toNat e.toNat).nvm = false →
      Completes (.commandFetch a q k e others) s fun t => s.nqe.exq ++ [(k.val, 1)] <+: t.nqe.exq ∧ (cmdAt t k).map HostCmd.phase = some .firmware
        ∧ bit t Reg.NQE_EVT 0 = true)
    ∧ (∀ (a q : BitVec 16) (k : Fin 16384) (e : BitVec 512) (others : List (BitVec 16 × BitVec 16)) (x : Assoc), assocAt s a.toNat = some x → mayFetch s x (entryCmd s k a.toNat q.toNat e.toNat) = true → inTurn s (others.map fun y => (y.1.toNat, y.2.toNat)) (entryCmd s k a.toNat q.toNat e.toNat) = true → fetchStatus s x (entryCmd s k a.toNat q.toNat e.toNat) e.toNat = none → (entryCmd s k a.toNat q.toNat e.toNat).nvm = true →
      Completes (.commandFetch a q k e others) s fun t => (bit s Reg.NQE_CTL 1 = true → (cmdAt t k).map HostCmd.phase = some .fetched)
        ∧ (bit s Reg.NQE_CTL 1 = false → s.nqe.exq ++ [(k.val, 2)] <+: t.nqe.exq))
    ∧ (∀ (a q cid : BitVec 16) (host : BitVec 1784) (kato : Word) (p : ConnectPath), hostServed s = true → pathOpen s p = true → hostAllowed s host.toNat = true → p.sqsize.toNat < queueEntries q.toNat → q.toNat = 0 → assocAt s a.toNat = none → s.nqe.assocs.length < 4096 →
      Completes (.connect a q cid host kato p) s fun t => t.nqe.posted.length = s.nqe.posted.length + 1
        ∧ (t.nqe.posted.getLast?.map fun p => (p.assoc, p.sqid, p.cid, p.status)) = some (a.toNat, 0, cid.toNat, 0)
        ∧ ((assocAt t a.toNat).map fun y => (y.queues, y.authed, y.kato, y.kaClock)) = some ([], false, (kato.toNat + 999) / 1000, s.clock)
        ∧ rdN t Reg.NQE_ASUSE = t.nqe.assocs.length)
    ∧ (∀ (a q cid : BitVec 16) (host : BitVec 1784) (kato : Word) (p : ConnectPath) (x : Assoc), hostServed s = true → pathOpen s p = true → hostAllowed s host.toNat = true → p.sqsize.toNat < queueEntries q.toNat → q.toNat ≠ 0 → assocAt s a.toNat = some x → x.queues.contains q.toNat = false → x.discovery = false → p.discovery = false → getF s Reg.NQE_QPUSE 0 16 < 32768 → x.queues.length < 1024 →
      Completes (.connect a q cid host kato p) s fun t => t.nqe.posted.length = s.nqe.posted.length + 1
        ∧ (t.nqe.posted.getLast?.map fun p => (p.assoc, p.sqid, p.cid, p.status)) = some (a.toNat, q.toNat, cid.toNat, 0)
        ∧ (assocAt t a.toNat).map Assoc.queues = some (x.queues ++ [q.toNat])
        ∧ (assocAt t a.toNat).map (fun y => y.conns.length) = some (x.conns.length + 1) ∧ getF t Reg.NQE_QPUSE 0 16 = getF s Reg.NQE_QPUSE 0 16 + 1)
    ∧ (∀ (a q cid : BitVec 16) (host : BitVec 1784) (kato : Word) (p : ConnectPath), hostServed s = true → pathOpen s p = true → hostAllowed s host.toNat = false →
      Completes (.connect a q cid host kato p) s fun t => t.nqe.posted.length = s.nqe.posted.length + 1
        ∧ (t.nqe.posted.getLast?.map fun p => (p.assoc, p.sqid, p.cid, p.status)) = some (a.toNat, q.toNat, cid.toNat, Status.connectHost) ∧ (t.nqe.assocs.map Assoc.queues) = s.nqe.assocs.map Assoc.queues)
    ∧ (∀ (a q cid : BitVec 16) (host : BitVec 1784) (kato : Word) (p : ConnectPath), hostServed s = true → pathOpen s p = true → hostAllowed s host.toNat = true → queueEntries q.toNat ≤ p.sqsize.toNat →
      Completes (.connect a q cid host kato p) s fun t => t.nqe.posted.length = s.nqe.posted.length + 1
        ∧ (t.nqe.posted.getLast?.map fun p => (p.assoc, p.sqid, p.cid, p.status)) = some (a.toNat, q.toNat, cid.toNat, Status.connectParameters) ∧ (t.nqe.assocs.map Assoc.queues) = s.nqe.assocs.map Assoc.queues)
    ∧ (∀ (k : Fin 16384) (c : HostCmd) (x : Assoc), FabricsHas s k FcType.propertyGet c → assocAt s c.assoc = some x → bitsOf c.arg2 0 32 = Cprop.cc →
      Completes (.propertyGet k) s fun t => Answered c 0 (x.cc % 2 ^ 32) (x.cc / 2 ^ 32 % 2 ^ 32) s t)
    ∧ (∀ (k : Fin 16384) (c : HostCmd) (x : Assoc), FabricsHas s k FcType.propertyGet c → assocAt s c.assoc = some x → bitsOf c.arg2 0 32 = Cprop.csts →
      Completes (.propertyGet k) s fun t => (∃ v d, Answered c 0 v d s t ∧ v.testBit 0 = x.rdy ∧ v.testBit 1 = x.cfs ∧ bitsOf v 2 2 = x.shst % 4))
    ∧ (∀ (k : Fin 16384) (c : HostCmd) (x : Assoc), FabricsHas s k FcType.propertyGet c → assocAt s c.assoc = some x → bitsOf c.arg2 0 32 = Cprop.cap →
      Completes (.propertyGet k) s fun t => (∃ v d, Answered c 0 v d s t ∧ bitsOf v 0 16 = 4095 ∧ bitsOf v 17 2 = 0 ∧ bitsOf v 24 8 = 1 ∧ bitsOf d 16 4 = 0))
    ∧ (∀ (k : Fin 16384) (c : HostCmd) (x : Assoc), FabricsHas s k FcType.propertySet c → assocAt s c.assoc = some x → x.en = false → bitsOf c.arg2 0 32 = Cprop.cc → c.arg2.testBit 32 = true → bitsOf c.arg2 46 2 = 0 →
      Completes (.propertySet k) s fun t => Answered c 0 c.dw0 c.dw1 s t ∧ (assocAt t c.assoc).map Assoc.en = some true ∧ (assocAt t c.assoc).map Assoc.rdy = some true
        ∧ (assocAt t c.assoc).map Assoc.cc = some (bitsOf c.arg2 32 32))
    ∧ (∀ (k : Fin 16384) (c : HostCmd) (x : Assoc), FabricsHas s k FcType.propertySet c → assocAt s c.assoc = some x → x.en = true → bitsOf c.arg2 0 32 = Cprop.cc → c.arg2.testBit 32 = false → bitsOf c.arg2 46 2 = 0 → bit s Reg.NQE_FWACT 0 = false →
      Completes (.propertySet k) s fun t => Answered c 0 c.dw0 c.dw1 s t ∧ (assocAt t c.assoc).map Assoc.en = some false ∧ (assocAt t c.assoc).map Assoc.rdy = some false
        ∧ (assocAt t c.assoc).map Assoc.queues = some [])
    ∧ (∀ (k : Fin 16384) (c : HostCmd) (x : Assoc), FabricsHas s k FcType.propertySet c → assocAt s c.assoc = some x → bitsOf c.arg2 0 32 ≠ Cprop.cc → bitsOf c.arg2 0 32 ≠ Cprop.nssr →
      Completes (.propertySet k) s fun t => Answered c Status.invalidField c.dw0 c.dw1 s t)
    ∧ (∀ (k : Fin 16384) (c : HostCmd) (x : Assoc), FabricsHas s k FcType.disconnect c → assocAt s c.assoc = some x → c.sqid ≠ 0 → x.queues.contains c.sqid = true →
      Completes (.disconnect k) s fun t => Answered c 0 c.dw0 c.dw1 s t ∧ (assocAt t c.assoc).map Assoc.queues = some (x.queues.filter fun q => q != c.sqid)
        ∧ rdN t Reg.NQE_QPUSE = rdN s Reg.NQE_QPUSE - 1)
    ∧ (∀ (k : Fin 16384) (c : HostCmd) (x : Assoc), FabricsHas s k FcType.disconnect c → assocAt s c.assoc = some x → c.sqid = 0 → bit s Reg.NQE_FWACT 0 = false →
      Completes (.disconnect k) s fun t => Answered c 0 c.dw0 c.dw1 s t ∧ assocAt t c.assoc = none)
    ∧ (∀ (k : Fin 16384) (c : HostCmd) (x : Assoc) (hs : List AuthHash) (gs : List AuthGroup), FabricsHas s k FcType.authSend c → assocAt s c.assoc = some x →
      Completes (.authenticationSend k (.negotiate hs gs)) s fun t => Answered c 0 c.dw0 c.dw1 s t
        ∧ (assocAt t c.assoc).map (fun y => (y.challenged, y.authed)) = some (hs.contains .sha256 && gs.contains .ffdhe3072, x.authed))
    ∧ (∀ (k : Fin 16384) (c : HostCmd) (x : Assoc) (ok : Bool), FabricsHas s k FcType.authSend c → assocAt s c.assoc = some x →
      Completes (.authenticationSend k (.reply ok)) s fun t => Answered c 0 c.dw0 c.dw1 s t
        ∧ (assocAt t c.assoc).map (fun y => (y.challenged, y.authed)) = some (false, x.authed || (x.challenged && ok)))
    ∧ (∀ (k : Fin 16384) (c : HostCmd) (x : Assoc), FabricsHas s k FcType.authSend c → assocAt s c.assoc = some x →
      Completes (.authenticationSend k .other) s fun t => Answered c 0 c.dw0 c.dw1 s t
        ∧ (assocAt t c.assoc).map (fun y => (y.challenged, y.authed)) = some (x.challenged, x.authed))
    ∧ (∀ (k : Fin 16384) (c : HostCmd), FabricsHas s k FcType.authReceive c →
      Completes (.authenticationReceive k) s fun t => Answered c 0 c.dw0 c.dw1 s t)
    ∧ (∀ (a : BitVec 16) (x : Assoc), assocAt s a.toNat = some x → bit s Reg.NQE_FWACT 0 = false →
      Completes (.controllerReset a) s fun t => (assocAt t a.toNat).map (fun y => (y.queues, y.en, y.rdy)) = some ([], false, false)
        ∧ rdN t Reg.NQE_QPUSE = rdN s Reg.NQE_QPUSE - x.queues.length ∧ (t.nqe.cmds.all fun c => c.assoc != a.toNat) = true
        ∧ bit t Reg.NQE_EVT 9 = true)
    ∧ (∀ (a : BitVec 16) (x : Assoc), assocAt s a.toNat = some x → bit s Reg.NQE_FWACT 0 = true →
      Completes (.controllerReset a) s fun t => t.nqe.delayed = s.nqe.delayed ++ [(a.toNat, false)] ∧ t.nqe.cmds = s.nqe.cmds ∧ OnlyRegs [] s t)
    ∧ (∀ (a : BitVec 16) (x : Assoc), assocAt s a.toNat = some x → bit s Reg.NQE_FWACT 0 = false →
      Completes (.connectionLoss a) s fun t => assocAt t a.toNat = none ∧ rdN t Reg.NQE_ASUSE = rdN s Reg.NQE_ASUSE - 1 ∧ (t.nqe.cmds.all fun c => c.assoc != a.toNat) = true)
    ∧ (∀ (a : BitVec 16) (x : Assoc), assocAt s a.toNat = some x → bit s Reg.NQE_FWACT 0 = false → x.kato ≠ 0 → x.kaClock + 1000000000 * x.kato ≤ s.clock →
      Completes (.keepAliveExpiry a) s fun t => assocAt t a.toNat = none ∧ rdN t Reg.NQE_ASUSE = rdN s Reg.NQE_ASUSE - 1 ∧ (t.nqe.cmds.all fun c => c.assoc != a.toNat) = true ∧ bit t Reg.NQE_EVT 5 = true)
    ∧ (∀ (a : BitVec 16) (x : Assoc), assocAt s a.toNat = some x → x.kato = 0 ∨ s.clock < x.kaClock + 1000000000 * x.kato →
      Completes (.keepAliveExpiry a) s fun t => t = s)
    ∧ (∀ (k : Fin 16384) (c : HostCmd) (x : Assoc), FirmwareHas s k AdminOp.keepAlive c → assocAt s c.assoc = some x →
      Completes (.keepAlive k) s fun t => Answered c 0 c.dw0 c.dw1 s t ∧ (assocAt t c.assoc).map Assoc.kaClock = some s.clock)
    ∧ (∀ (a : BitVec 16) (x : Assoc), assocAt s a.toNat = some x → mayReset s = true → s.sys.resetRank = none →
      Completes (.nssr a) s fun t => mode t = Mode.boot ∧ getF t Reg.SYS_RSTCAUSE 0 3 = RstKind.nssr ∧ t.nqe.assocs = [])

/-- Identify and a log page of the controller send their data and complete with success; each feature takes
the value that the spec gives it and Get Features returns it; a power state above 4 and another
threshold's selector are invalid; an Asynchronous Event Request waits for an event; the entry to the
wanted power state begins when no media command is in flight. Where the rules leave a point open it has
the model's choice of log entries 4, 22, 25 and 28. -/
def Obligations.FeaturesAreSetAndRead : Prop :=
  ∀ (s : State), s.wf = true →
    (∀ (k : Fin 16384) (c : HostCmd), FirmwareHas s k AdminOp.identify c → c.arg % 256 = 0 → c.nsid = 1 ∨ c.nsid = 2 →
      Completes (.identify k) s fun t => Answered c 0 c.dw0 c.dw1 s t
        ∧ t.nqe.sent = s.nqe.sent ++ [⟨c.assoc, c.sqid, c.cid, .nvm (namespaceData s c.nsid)⟩])
    ∧ (∀ (k : Fin 16384) (c : HostCmd), FirmwareHas s k AdminOp.identify c → c.arg % 256 = 1 →
      Completes (.identify k) s fun t => Answered c 0 c.dw0 c.dw1 s t
        ∧ t.nqe.sent = s.nqe.sent ++ [⟨c.assoc, c.sqid, c.cid, .controller (controllerData (onDiscovery s c))⟩])
    ∧ (∀ (k : Fin 16384) (c : HostCmd), FirmwareHas s k AdminOp.identify c → c.arg % 256 = 2 →
      Completes (.identify k) s fun t => Answered c 0 c.dw0 c.dw1 s t
        ∧ t.nqe.sent = s.nqe.sent ++ [⟨c.assoc, c.sqid, c.cid, .namespaces ([1, 2].filter fun n => decide (c.nsid < n))⟩])
    ∧ (∀ (k : Fin 16384) (c : HostCmd), FirmwareHas s k AdminOp.identify c → c.arg % 256 = 5 → bitsOf c.arg2 24 8 = 2 → c.nsid = 2 →
      Completes (.identify k) s fun t => Answered c 0 c.dw0 c.dw1 s t
        ∧ t.nqe.sent = s.nqe.sent ++ [⟨c.assoc, c.sqid, c.cid, .zoned (zonedData s)⟩])
    ∧ (∀ (k : Fin 16384) (c : HostCmd), FirmwareHas s k AdminOp.identify c → identifyBadNs (c.arg % 256) (bitsOf c.arg2 24 8) c.nsid = true →
      Completes (.identify k) s fun t => Answered c Status.invalidNamespace c.dw0 c.dw1 s t ∧ t.nqe.sent = s.nqe.sent)
    ∧ (∀ (k : Fin 16384) (c : HostCmd) (d : HostData), FirmwareHas s k AdminOp.getLog c → logData s c (c.arg % 256) = some d →
      Completes (.getLogPage k) s fun t => Answered c 0 c.dw0 c.dw1 s t
        ∧ t.nqe.sent = s.nqe.sent ++ [⟨c.assoc, c.sqid, c.cid, d⟩])
    ∧ (∀ (k : Fin 16384) (c : HostCmd), FirmwareHas s k AdminOp.getLog c → logData s c (c.arg % 256) = none →
      Completes (.getLogPage k) s fun t => Answered c Status.invalidField c.dw0 c.dw1 s t ∧ t.nqe.sent = s.nqe.sent)
    ∧ (∀ (k : Fin 16384) (c : HostCmd), FirmwareHas s k AdminOp.setFeatures c → c.arg % 256 = Feature.arbitration →
      Completes (.arbitration k) s fun t => Answered c 0 c.dw0 c.dw1 s t ∧ getF t Reg.NQE_ARB 0 3 = bitsOf c.arg2 0 3)
    ∧ (∀ (k : Fin 16384) (c : HostCmd), FirmwareHas s k AdminOp.setFeatures c → c.arg % 256 = Feature.power → bitsOf c.arg2 0 5 ≤ 4 →
      Completes (.powerManagement k) s fun t => Answered c 0 c.dw0 c.dw1 s t ∧ getF t Reg.NQE_PSCUR 4 3 = bitsOf c.arg2 0 5 ∧ t.nqe.psWant = true)
    ∧ (∀ (k : Fin 16384) (c : HostCmd), FirmwareHas s k AdminOp.setFeatures c → c.arg % 256 = Feature.power → 4 < bitsOf c.arg2 0 5 →
      Completes (.powerManagement k) s fun t => Answered c Status.invalidField c.dw0 c.dw1 s t ∧ t.nqe.psWant = s.nqe.psWant ∧ rdN t Reg.NQE_PSCUR = rdN s Reg.NQE_PSCUR)
    ∧ (∀ (k : Fin 16384) (c : HostCmd), FirmwareHas s k AdminOp.setFeatures c → c.arg % 256 = Feature.temperature → bitsOf c.arg2 20 2 = 0 →
      Completes (.temperatureThreshold k) s fun t => Answered c 0 c.dw0 c.dw1 s t ∧ t.nqe.tempThr = bitsOf c.arg2 0 16)
    ∧ (∀ (k : Fin 16384) (c : HostCmd), FirmwareHas s k AdminOp.setFeatures c → c.arg % 256 = Feature.temperature → bitsOf c.arg2 20 2 ≠ 0 →
      Completes (.temperatureThreshold k) s fun t => Answered c Status.invalidField c.dw0 c.dw1 s t ∧ t.nqe.tempThr = s.nqe.tempThr)
    ∧ (∀ (k : Fin 16384) (c : HostCmd), FirmwareHas s k AdminOp.setFeatures c → c.arg % 256 = Feature.errorRecovery →
      Completes (.errorRecovery k) s fun t => Answered c 0 c.dw0 c.dw1 s t ∧ t.nqe.tler = bitsOf c.arg2 0 16)
    ∧ (∀ (k : Fin 16384) (c : HostCmd) (x : Assoc), FirmwareHas s k AdminOp.setFeatures c → c.arg % 256 = Feature.queues → assocAt s c.assoc = some x →
      Completes (.numberOfQueues k) s fun t => Answered c 0 ((min 1024 (min (bitsOf c.arg2 0 16) (bitsOf c.arg2 16 16) + 1) - 1) + 2 ^ 16 * (min 1024 (min (bitsOf c.arg2 0 16) (bitsOf c.arg2 16 16) + 1) - 1)) 0 s t ∧ (assocAt t c.assoc).map Assoc.granted = some (min 1024 (min (bitsOf c.arg2 0 16) (bitsOf c.arg2 16 16) + 1)))
    ∧ (∀ (k : Fin 16384) (c : HostCmd) (x : Assoc), FirmwareHas s k AdminOp.setFeatures c → c.arg % 256 = Feature.asyncEvents → assocAt s c.assoc = some x →
      Completes (.asynchronousEventConfiguration k) s fun t => Answered c 0 c.dw0 c.dw1 s t ∧ (assocAt t c.assoc).map Assoc.aec = some c.arg2)
    ∧ (∀ (k : Fin 16384) (c : HostCmd) (x : Assoc), FirmwareHas s k AdminOp.setFeatures c → c.arg % 256 = Feature.keepAlive → assocAt s c.assoc = some x →
      Completes (.keepAliveTimer k) s fun t => Answered c 0 c.dw0 c.dw1 s t ∧ (assocAt t c.assoc).map (fun y => (y.kato, y.kaClock)) = some ((c.arg2 + 999) / 1000, s.clock))
    ∧ (∀ (k : Fin 16384) (c : HostCmd) (x : Assoc), FirmwareHas s k AdminOp.getFeatures c → assocAt s c.assoc = some x → c.arg % 256 = Feature.arbitration →
      Completes (.getFeatures k) s fun t => Answered c 0 ((getF s Reg.NQE_ARB 0 3) % 2 ^ 32) ((getF s Reg.NQE_ARB 0 3) / 2 ^ 32 % 2 ^ 32) s t)
    ∧ (∀ (k : Fin 16384) (c : HostCmd) (x : Assoc), FirmwareHas s k AdminOp.getFeatures c → assocAt s c.assoc = some x → c.arg % 256 = Feature.power →
      Completes (.getFeatures k) s fun t => Answered c 0 ((getF s Reg.NQE_PSCUR 4 3) % 2 ^ 32) ((getF s Reg.NQE_PSCUR 4 3) / 2 ^ 32 % 2 ^ 32) s t)
    ∧ (∀ (k : Fin 16384) (c : HostCmd) (x : Assoc), FirmwareHas s k AdminOp.getFeatures c → assocAt s c.assoc = some x → c.arg % 256 = Feature.temperature →
      Completes (.getFeatures k) s fun t => Answered c 0 ((s.nqe.tempThr) % 2 ^ 32) ((s.nqe.tempThr) / 2 ^ 32 % 2 ^ 32) s t)
    ∧ (∀ (k : Fin 16384) (c : HostCmd) (x : Assoc), FirmwareHas s k AdminOp.getFeatures c → assocAt s c.assoc = some x → c.arg % 256 = Feature.errorRecovery →
      Completes (.getFeatures k) s fun t => Answered c 0 ((s.nqe.tler) % 2 ^ 32) ((s.nqe.tler) / 2 ^ 32 % 2 ^ 32) s t)
    ∧ (∀ (k : Fin 16384) (c : HostCmd) (x : Assoc), FirmwareHas s k AdminOp.getFeatures c → assocAt s c.assoc = some x → c.arg % 256 = Feature.keepAlive →
      Completes (.getFeatures k) s fun t => Answered c 0 ((1000 * x.kato) % 2 ^ 32) ((1000 * x.kato) / 2 ^ 32 % 2 ^ 32) s t)
    ∧ (∀ (k : Fin 16384) (c : HostCmd) (x : Assoc), FirmwareHas s k AdminOp.getFeatures c → assocAt s c.assoc = some x → c.arg % 256 = Feature.asyncEvents →
      Completes (.getFeatures k) s fun t => Answered c 0 ((x.aec) % 2 ^ 32) ((x.aec) / 2 ^ 32 % 2 ^ 32) s t)
    ∧ (∀ (k : Fin 16384) (c : HostCmd), FirmwareHas s k AdminOp.asyncEvent c →
      Completes (.asynchronousEventRequest k none) s fun t => t = s)
    ∧ (∀ (k : Fin 16384) (c : HostCmd) (v : Word), FirmwareHas s k AdminOp.asyncEvent c →
      Completes (.asynchronousEventRequest k (some v)) s fun t => Answered c 0 v.toNat 0 s t)
    ∧ (s.nqe.psWant = true → s.nqe.psEntry = none → s.nqe.sanitize = none → s.nqe.cmds.any HostCmd.media = false → runsMode (mode s) = true → bit s Reg.CAL_STS 0 = false →
      Completes .powerStateEntry s fun t => t.nqe.psWant = false ∧ (t.nqe.psEntry = some (getF s Reg.NQE_PSCUR 4 3) → bit t Reg.NQE_PSCUR 8 = true)
        ∧ (t.nqe.psEntry = none ∨ t.nqe.psEntry = some (getF s Reg.NQE_PSCUR 4 3)))
    ∧ (s.nqe.psWant = false ∨ s.nqe.cmds.any HostCmd.media = true →
      Completes .powerStateEntry s fun t => t = s)

/-- Abort catches what is inside its window; a deleted queue's commands are caught and the command waits for
the rest; downloaded pieces are kept, a commit checks the image and the slot, and an activation holds
fetching; Sanitize runs its passes and its erase; firmware completes the commands it holds and pops the
exception queue. Where the rules leave a point open it has the model's choice of log entries 22, 25, 29
and 30. -/
def Obligations.AbortsImagesAndSanitize : Prop :=
  ∀ (s : State), s.wf = true →
    (∀ (k : Fin 16384) (c : HostCmd) (d : HostCmd), FirmwareHas s k AdminOp.abort c → (s.nqe.cmds.find? fun e => e.assoc == c.assoc && e.sqid == c.arg % 65536 && e.cid == c.arg / 65536 && e.slot != k.val) = some d → catchable s d = true →
      Completes (.nvmAbort k) s fun t => ⟨d.assoc, d.sqid, d.cid, Status.abortRequested, false, d.dw0, d.dw1⟩ ∈ t.nqe.posted ∧ ⟨c.assoc, c.sqid, c.cid, 0, false, 0, 0⟩ ∈ t.nqe.posted
        ∧ rdN t Reg.NQE_ABCNT = min (rdN s Reg.NQE_ABCNT + 1) (2 ^ 32 - 1) ∧ bit t Reg.NQE_EVT 8 = true)
    ∧ (∀ (k : Fin 16384) (c : HostCmd) (d : HostCmd), FirmwareHas s k AdminOp.abort c → (s.nqe.cmds.find? fun e => e.assoc == c.assoc && e.sqid == c.arg % 65536 && e.cid == c.arg / 65536 && e.slot != k.val) = some d → catchable s d = false →
      Completes (.nvmAbort k) s fun t => Answered c 0 1 0 s t ∧ d ∈ t.nqe.cmds)
    ∧ (∀ (k : Fin 16384) (c : HostCmd), FirmwareHas s k AdminOp.abort c → (s.nqe.cmds.any fun e => e.assoc == c.assoc && e.sqid == c.arg % 65536 && e.cid == c.arg / 65536 && e.slot != k.val) = false →
      Completes (.nvmAbort k) s fun t => Answered c 0 1 0 s t)
    ∧ (∀ (k : Fin 16384) (c : HostCmd) (x : Assoc), FirmwareHas s k AdminOp.deleteSq c → assocAt s c.assoc = some x → x.queues.contains (c.arg % 65536) = true → (s.nqe.cmds.any fun e => e.assoc == c.assoc && e.sqid == c.arg % 65536) = false →
      Completes (.deleteIoSubmissionQueue k) s fun t => Answered c 0 c.dw0 c.dw1 s t ∧ (assocAt t c.assoc).map Assoc.queues = some (x.queues.filter fun q => q != c.arg % 65536))
    ∧ (∀ (k : Fin 16384) (c : HostCmd) (x : Assoc) (d : HostCmd), FirmwareHas s k AdminOp.deleteSq c → assocAt s c.assoc = some x → x.queues.contains (c.arg % 65536) = true → d.assoc = c.assoc → d.sqid = c.arg % 65536 → d.sqid ≠ 0 → s.nqe.cmds = [c, d] → catchable s d = false →
      Completes (.deleteIoSubmissionQueue k) s fun t => cmdAt t k = some c ∧ d ∈ t.nqe.cmds)
    ∧ (∀ (k : Fin 16384) (c : HostCmd) (x : Assoc), FirmwareHas s k AdminOp.deleteSq c → assocAt s c.assoc = some x → x.queues.contains (c.arg % 65536) = false →
      Completes (.deleteIoSubmissionQueue k) s fun t => Answered c 0x101 c.dw0 c.dw1 s t ∧ t.nqe.assocs.map Assoc.queues = s.nqe.assocs.map Assoc.queues)
    ∧ (∀ (k : Fin 16384) (c : HostCmd) (data : List Byte), FirmwareHas s k AdminOp.download c → 4 * (c.arg + 1) % 4096 = 0 → 4 * c.arg2 % 4096 = 0 → 4 * (c.arg + 1) ≤ 2 ^ 21 → data.length = 4 * (c.arg + 1) →
      Completes (.firmwareImageDownload k data) s fun t => Answered c 0 c.dw0 c.dw1 s t ∧ t.nqe.image = (4 * c.arg2, data.map BitVec.toNat) :: s.nqe.image)
    ∧ (∀ (k : Fin 16384) (c : HostCmd) (data : List Byte), FirmwareHas s k AdminOp.download c → 4 * (c.arg + 1) % 4096 ≠ 0 ∨ 4 * c.arg2 % 4096 ≠ 0 ∨ 2 ^ 21 < 4 * (c.arg + 1) →
      Completes (.firmwareImageDownload k data) s fun t => Answered c Status.invalidField c.dw0 c.dw1 s t ∧ t.nqe.image = s.nqe.image)
    ∧ (∀ (k : Fin 16384) (c : HostCmd), FirmwareHas s k AdminOp.commit c → bitsOf c.arg 3 3 = 1 →
      Completes (.commitAction1 k) s fun t => Answered c (commitStatus s (staged s) (bitsOf c.arg 0 3)) c.dw0 c.dw1 s t
        ∧ (commitStatus s (staged s) (bitsOf c.arg 0 3) ≠ 0 → t.nand = s.nand) ∧ (commitStatus s (staged s) (bitsOf c.arg 0 3) = 0 → t.nqe.image = []))
    ∧ (∀ (k : Fin 16384) (c : HostCmd), FirmwareHas s k AdminOp.commit c → bitsOf c.arg 3 3 = 2 →
      Completes (.commitAction2 k) s fun t => Answered c (commitStatus s (fwImage s (bitsOf c.arg 0 3 - 1)) (bitsOf c.arg 0 3)) c.dw0 c.dw1 s t ∧ (commitStatus s (fwImage s (bitsOf c.arg 0 3 - 1)) (bitsOf c.arg 0 3) ≠ 0 → t.nand = s.nand))
    ∧ (∀ (k : Fin 16384) (c : HostCmd), FirmwareHas s k AdminOp.commit c → bitsOf c.arg 3 3 = 3 → mayActivate s = true →
      Completes (.commitAction3 k) s fun t => if commitStatus s (if s.nqe.image.isEmpty then fwImage s (bitsOf c.arg 0 3 - 1) else staged s) (bitsOf c.arg 0 3) = 0 then bit t Reg.NQE_FWACT 0 = true ∧ bit t Reg.NQE_STS 1 = true
          ∧ t.nqe.activating = some (bitsOf c.arg 0 3 - 1, getF s Reg.SEC_STS 1 2 - 1, k.val)
        else Answered c (commitStatus s (if s.nqe.image.isEmpty then fwImage s (bitsOf c.arg 0 3 - 1) else staged s) (bitsOf c.arg 0 3)) c.dw0 c.dw1 s t)
    ∧ (∀ (n old k : Nat) (c : HostCmd), s.nqe.activating = some (n, old, k) → cmdAt s k = some c → mode s = Mode.update →
      Completes .activationFallback s fun t => Answered c Status.fwImage c.dw0 c.dw1 s t ∧ t.nqe.activating = none ∧ bit t Reg.NQE_FWACT 0 = false)
    ∧ (bit s Reg.NQE_FWACT 0 = false → s.nqe.activating = none →
      Completes (.fwactHold true) s fun t => bit t Reg.NQE_FWACT 0 = true ∧ bit t Reg.NQE_STS 1 = true
        ∧ (opRuns s = false → bit t Reg.NQE_FWACT 1 = true ∧ bit t Reg.NQE_EVT 7 = true))
    ∧ (bit s Reg.NQE_FWACT 0 = true → s.nqe.activating = none →
      Completes (.fwactHold false) s fun t => getF t Reg.NQE_FWACT 0 2 = 0 ∧ bit t Reg.NQE_STS 1 = false ∧ t.nqe.delayed = [])
    ∧ (∀ (k : Fin 16384) (c : HostCmd), FirmwareHas s k AdminOp.sanitize c → bitsOf c.arg 0 3 = SanAct.exitFailure → s.nqe.sanFailed = false ∨ s.nqe.sanAuse = true →
      Completes (.exitFailureMode k) s fun t => Answered c 0 c.dw0 c.dw1 s t ∧ t.nqe.sanFailed = false)
    ∧ (∀ (k : Fin 16384) (c : HostCmd), FirmwareHas s k AdminOp.sanitize c → bitsOf c.arg 0 3 = SanAct.exitFailure → s.nqe.sanFailed = true → s.nqe.sanAuse = false →
      Completes (.exitFailureMode k) s fun t => Answered c Status.sanitizeFailed c.dw0 c.dw1 s t ∧ t.nqe.sanFailed = true)
    ∧ (∀ (k : Fin 16384) (c : HostCmd), FirmwareHas s k AdminOp.sanitize c → bitsOf c.arg 0 3 = SanAct.blockErase →
      Completes (.blockErase k) s fun t => Answered c Status.invalidField c.dw0 c.dw1 s t ∧ t.nqe.sanitize = s.nqe.sanitize)
    ∧ (∀ (k : Fin 16384) (c : HostCmd), FirmwareHas s k AdminOp.sanitize c → bitsOf c.arg 0 3 = SanAct.cryptoErase →
      Completes (.cryptoErase k none) s fun t => Answered c 0 c.dw0 c.dw1 s t ∧ (t.nqe.sanitize.map fun x => (x.passes, x.invert)) = some (0, false) ∧ bit t Reg.NQE_STS 6 = true
        ∧ t.nqe.sanAuse = c.arg.testBit 3 ∧ bit t Reg.ZTB_PTCTL 0 = false)
    ∧ (∀ (k : Fin 16384) (c : HostCmd), FirmwareHas s k AdminOp.sanitize c → bitsOf c.arg 0 3 = SanAct.overwrite →
      Completes (.overwrite k none) s fun t => Answered c 0 c.dw0 c.dw1 s t ∧ (t.nqe.sanitize.map fun x => (x.passes, x.pattern, x.invert))
            = some (if bitsOf c.arg 4 4 = 0 then 16 else bitsOf c.arg 4 4, c.arg2, c.arg.testBit 8) ∧ bit t Reg.NQE_STS 6 = true)
    ∧ (∀ (k : Fin 16384) (x : Sanitize), s.nqe.sanitize = some x →
      Completes (.cryptoErase k (some false)) s fun t => t.nqe.sanitize = none ∧ t.nqe.sanFailed = true ∧ bit t Reg.NQE_STS 6 = false)
    ∧ (∀ (k : Fin 16384) (x : Sanitize), s.nqe.sanitize = some x → atMode s Mode.ready = true → x.passes = 0 → x.erased = true →
      Completes (.cryptoErase k (some true)) s fun t => t.nqe.sanitize = none ∧ t.nqe.sanFailed = false ∧ bit t Reg.NQE_STS 6 = false)
    ∧ (∀ (k : Fin 16384) (x : Sanitize), s.nqe.sanitize = some x →
      Completes (.overwrite k (some false)) s fun t => t.nqe.sanitize = none ∧ t.nqe.sanFailed = true ∧ bit t Reg.NQE_STS 6 = false)
    ∧ (∀ (k : Fin 16384) (x : Sanitize), s.nqe.sanitize = some x → atMode s Mode.ready = true → x.passes = 0 → x.erased = true →
      Completes (.overwrite k (some true)) s fun t => t.nqe.sanitize = none ∧ t.nqe.sanFailed = false ∧ bit t Reg.NQE_STS 6 = false)
    ∧ (∀ (k : Fin 16384) (x : Sanitize), s.nqe.sanitize = some x → atMode s Mode.ready = true → 0 < x.passes →
      Completes (.overwrite k (some true)) s fun t => (t.nqe.sanitize.map fun y => (y.passes, y.pattern)) = some (x.passes - 1, if x.invert then 2 ^ 32 - 1 - x.pattern else x.pattern))
    ∧ (∀ (v : DWord) (c : HostCmd), cmdAt s (bitsOf v.toNat 0 14) = some c → c.phase = .firmware →
      Completes (.cplpost v) s fun t => s.nqe.posted ++ [⟨c.assoc, c.sqid, c.cid, bitsOf v.toNat 16 11, v.toNat.testBit 27, bitsOf v.toNat 32 32, c.dw1⟩] <+: t.nqe.posted
        ∧ cmdAt t c.slot = none)
    ∧ (∀ (v : DWord), cmdAt s (bitsOf v.toNat 0 14) = none →
      Completes (.cplpost v) s fun t => t.nqe = s.nqe ∧ bit t Reg.NQE_EVT 0 = true)
    ∧ (∀ (e : Nat × Nat) (l : List (Nat × Nat)), s.nqe.exq = e :: l →
      Completes .exqPop s fun t => t.busData = e.1 + 2 ^ 16 * e.2 + 2 ^ 31 ∧ t.nqe.exq = l ∧ OnlyRegs [] s t)
    ∧ (s.nqe.exq = [] →
      Completes .exqPop s fun t => t.busData = 0 ∧ t.nqe = s.nqe ∧ OnlyRegs [] s t)

/-- A read or verify begins in READY and waits for the sectors that reach the medium; a write of the
assignment end takes its buffers and assigns its sectors; a write that R240 refuses completes with the
status of its first failed check; Flush waits for earlier writes; Compare and Zone Management Receive go
to firmware; a zone action that changes nothing completes as R238 says. Where the rules leave a point
open it has the model's choice of log entries 22, 25, 26 and 27. -/
def Obligations.IoCommandsBegin : Prop :=
  ∀ (s : State) (n : Fin 16384) (c : HostCmd), s.wf = true →
    (EngineHas s n IoOp.read c → c.nsid = 1 → c.nlb ≠ 0 → placeStatus s c = none → atMode s Mode.ready = true →
      Completes (.nvmRead n) s fun t => ((cmdAt t n).map fun d => (d.phase, d.left)) = some (.media, (List.range c.nlb).map (c.slba + ·)))
    ∧ (EngineHas s n IoOp.verify c → c.nsid = 1 → c.nlb ≠ 0 → placeStatus s c = none → atMode s Mode.ready = true →
      Completes (.nvmVerify n) s fun t => ((cmdAt t n).map fun d => (d.phase, d.left)) = some (.media, (List.range c.nlb).map (c.slba + ·)))
    ∧ (EngineHas s n IoOp.read c → c.nsid = 2 → ((List.range c.nlb).all fun i => !onMedium s 2 (c.slba + i)) = true → (cmdZones s c).any (resetPends s) = false → placeStatus s c = none → atMode s Mode.ready = true →
      Completes (.nvmRead n) s fun t => Answered c 0 c.dw0 c.dw1 s t)
    ∧ (∀ (st : Nat), EngineHas s n IoOp.read c → placeStatus s c = some st →
      Completes (.nvmRead n) s fun t => Answered c st c.dw0 c.dw1 s t)
    ∧ (∀ (st : Nat), EngineHas s n IoOp.verify c → placeStatus s c = some st →
      Completes (.nvmVerify n) s fun t => Answered c st c.dw0 c.dw1 s t)
    ∧ (∀ (st : Nat), EngineHas s n IoOp.compare c → placeStatus s c = some st →
      Completes (.nvmCompare n) s fun t => Answered c st c.dw0 c.dw1 s t)
    ∧ (EngineHas s n IoOp.compare c → placeStatus s c = none → atMode s Mode.ready = true →
      Completes (.nvmCompare n) s fun t => s.nqe.exq ++ [(n.val, 2)] <+: t.nqe.exq ∧ (cmdAt t n).map HostCmd.phase = some .firmware)
    ∧ (EngineHas s n IoOp.zoneReceive c →
      Completes (.zoneManagementReceive n) s fun t => s.nqe.exq ++ [(n.val, 2)] <+: t.nqe.exq ∧ (cmdAt t n).map HostCmd.phase = some .firmware)
    ∧ (cmdAt s n = some c → c.phase = .firmware → c.nvm = true → c.opcode = IoOp.zoneReceive →
      Completes (.zoneManagementReceive n) s fun t => Answered c 0 c.dw0 c.dw1 s t ∧ t.nqe.sent = s.nqe.sent ++ [⟨c.assoc, c.sqid, c.cid, zoneReport s c⟩])
    ∧ (∀ (bufs : List (Fin 94208)), EngineHas s n IoOp.write c → c.nsid = 2 → (workAt s (zoneOfLba s c.slba)).repair = false → writeStatus s c (zoneOfLba s c.slba) = none → zTailu s (zoneOfLba s c.slba) = false → bufsOk s c (bufs.map Fin.val) = true → placeStatus s c = none → atMode s Mode.ready = true →
      Completes (.nvmWrite n bufs) s fun t => ((cmdAt t n).map fun d => (d.phase, d.slba, d.bufs)) = some (.media, zoneStart s (zoneOfLba s c.slba) + (workAt s (zoneOfLba s c.slba)).assignEnd, bufs.map Fin.val)
        ∧ (workAt t (zoneOfLba s c.slba)).assignEnd = (workAt s (zoneOfLba s c.slba)).assignEnd + c.nlb
        ∧ t.cph.jobs.length = s.cph.jobs.length + c.nlb)
    ∧ (∀ (bufs : List (Fin 94208)) (st : Nat), EngineHas s n IoOp.write c → c.nsid = 2 → (workAt s (zoneOfLba s c.slba)).repair = false → writeStatus s c (zoneOfLba s c.slba) = some st → placeStatus s c = none → atMode s Mode.ready = true →
      Completes (.nvmWrite n bufs) s fun t => Answered c st c.dw0 c.dw1 s t)
    ∧ (∀ (bufs : List (Fin 94208)), EngineHas s n IoOp.write c → c.nsid = 1 → bufsOk s c (bufs.map Fin.val) = true → placeStatus s c = none → atMode s Mode.ready = true →
      Completes (.nvmWrite n bufs) s fun t => ((cmdAt t n).map fun d => (d.phase, d.left, d.bufs)) = some (.media, (List.range c.nlb).map (c.slba + ·), bufs.map Fin.val)
        ∧ t.cph.jobs.length = s.cph.jobs.length + c.nlb)
    ∧ (∀ (bufs : List (Fin 94208)), EngineHas s n IoOp.zoneAppend c → c.nsid = 2 → (workAt s (zoneOfLba s c.slba)).repair = false → writeStatus s c (zoneOfLba s c.slba) = none → zTailu s (zoneOfLba s c.slba) = false → bufsOk s c (bufs.map Fin.val) = true → placeStatus s c = none → atMode s Mode.ready = true →
      Completes (.zoneAppend n bufs) s fun t => ((cmdAt t n).map fun d => (d.phase, d.slba, d.bufs)) = some (.media, zoneStart s (zoneOfLba s c.slba) + (workAt s (zoneOfLba s c.slba)).assignEnd, bufs.map Fin.val)
        ∧ (workAt t (zoneOfLba s c.slba)).assignEnd = (workAt s (zoneOfLba s c.slba)).assignEnd + c.nlb
        ∧ t.cph.jobs.length = s.cph.jobs.length + c.nlb)
    ∧ (∀ (bufs : List (Fin 94208)) (st : Nat), EngineHas s n IoOp.zoneAppend c → c.nsid = 2 → (workAt s (zoneOfLba s c.slba)).repair = false → writeStatus s c (zoneOfLba s c.slba) = some st → placeStatus s c = none → atMode s Mode.ready = true →
      Completes (.zoneAppend n bufs) s fun t => Answered c st c.dw0 c.dw1 s t)
    ∧ (∀ (bufs : List (Fin 94208)), EngineHas s n IoOp.writeZeroes c → c.nsid = 2 → (workAt s (zoneOfLba s c.slba)).repair = false → writeStatus s c (zoneOfLba s c.slba) = none → zTailu s (zoneOfLba s c.slba) = false → bufsOk s c (bufs.map Fin.val) = true → placeStatus s c = none → atMode s Mode.ready = true →
      Completes (.writeZeroes n bufs) s fun t => ((cmdAt t n).map fun d => (d.phase, d.slba, d.bufs)) = some (.media, zoneStart s (zoneOfLba s c.slba) + (workAt s (zoneOfLba s c.slba)).assignEnd, bufs.map Fin.val)
        ∧ (workAt t (zoneOfLba s c.slba)).assignEnd = (workAt s (zoneOfLba s c.slba)).assignEnd + c.nlb
        ∧ t.cph.jobs.length = s.cph.jobs.length + c.nlb)
    ∧ (∀ (bufs : List (Fin 94208)) (st : Nat), EngineHas s n IoOp.writeZeroes c → c.nsid = 2 → (workAt s (zoneOfLba s c.slba)).repair = false → writeStatus s c (zoneOfLba s c.slba) = some st → placeStatus s c = none → atMode s Mode.ready = true →
      Completes (.writeZeroes n bufs) s fun t => Answered c st c.dw0 c.dw1 s t)
    ∧ (∀ (bufs : List (Fin 94208)), EngineHas s n IoOp.writeZeroes c → c.nsid = 1 → bufsOk s c (bufs.map Fin.val) = true → placeStatus s c = none → atMode s Mode.ready = true →
      Completes (.writeZeroes n bufs) s fun t => ((cmdAt t n).map fun d => (d.phase, d.left, d.bufs)) = some (.media, (List.range c.nlb).map (c.slba + ·), bufs.map Fin.val)
        ∧ t.cph.jobs.length = s.cph.jobs.length + c.nlb)
    ∧ (EngineHas s n IoOp.flush c → c.left = [] →
      Completes (.nvmFlush n) s fun t => Answered c 0 c.dw0 c.dw1 s t)
    ∧ (EngineHas s n IoOp.flush c → c.left ≠ [] →
      Completes (.nvmFlush n) s fun t => cmdAt t n = some { c with phase := .media })
    ∧ (∀ (st : Nat), cmdAt s n = some c ∧ c.nvm = true ∧ c.opcode = IoOp.zoneSend ∧ c.phase ≠ .firmware ∧ engineRuns s = true ∧ atMode s Mode.ready = true → c.action = ZAct.openZ → c.selectAll = false → actStatus s c (zoneOfLba s c.slba) = some st →
      Completes (.openZone n) s fun t => Answered c st c.dw0 c.dw1 s t)
    ∧ (∀ (st : Nat), cmdAt s n = some c ∧ c.nvm = true ∧ c.opcode = IoOp.zoneSend ∧ c.phase ≠ .firmware ∧ engineRuns s = true ∧ atMode s Mode.ready = true → c.action = ZAct.openZ → c.selectAll = false → actStatus s c (zoneOfLba s c.slba) = some st →
      Completes (.openZone n) s fun t => Answered c st c.dw0 c.dw1 s t)
    ∧ (cmdAt s n = some c ∧ c.nvm = true ∧ c.opcode = IoOp.zoneSend ∧ c.phase ≠ .firmware ∧ engineRuns s = true ∧ atMode s Mode.ready = true → c.action = ZAct.openZ → c.selectAll = false → actStatus s c (zoneOfLba s c.slba) = none → bit s Reg.ZTB_ZCMDSTS 0 = false → zoneIdle s c (zoneOfLba s c.slba) = true → ztbEn s = true → (zoneOfLba s c.slba) < numZones s →
      Completes (.openZone n) s fun t => Answered c 0 c.dw0 c.dw1 s t ∧ zState t (zoneOfLba s c.slba) = zExpOpen)
    ∧ (∀ (st : Nat), cmdAt s n = some c ∧ c.nvm = true ∧ c.opcode = IoOp.zoneSend ∧ c.phase ≠ .firmware ∧ engineRuns s = true ∧ atMode s Mode.ready = true → c.action = ZAct.close → c.selectAll = false → actStatus s c (zoneOfLba s c.slba) = some st →
      Completes (.closeZone n) s fun t => Answered c st c.dw0 c.dw1 s t)
    ∧ (∀ (st : Nat), cmdAt s n = some c ∧ c.nvm = true ∧ c.opcode = IoOp.zoneSend ∧ c.phase ≠ .firmware ∧ engineRuns s = true ∧ atMode s Mode.ready = true → c.action = ZAct.close → c.selectAll = false → actStatus s c (zoneOfLba s c.slba) = some st →
      Completes (.closeZone n) s fun t => Answered c st c.dw0 c.dw1 s t)
    ∧ (cmdAt s n = some c ∧ c.nvm = true ∧ c.opcode = IoOp.zoneSend ∧ c.phase ≠ .firmware ∧ engineRuns s = true ∧ atMode s Mode.ready = true → c.action = ZAct.close → c.selectAll = false → actStatus s c (zoneOfLba s c.slba) = none → bit s Reg.ZTB_ZCMDSTS 0 = false → zoneIdle s c (zoneOfLba s c.slba) = true → ztbEn s = true → (zoneOfLba s c.slba) < numZones s →
      Completes (.closeZone n) s fun t => Answered c 0 c.dw0 c.dw1 s t ∧ zState t (zoneOfLba s c.slba) = zClosed)
    ∧ (∀ (st : Nat), cmdAt s n = some c ∧ c.nvm = true ∧ c.opcode = IoOp.zoneSend ∧ c.phase ≠ .firmware ∧ engineRuns s = true ∧ atMode s Mode.ready = true → c.action = ZAct.finish → c.selectAll = false → actStatus s c (zoneOfLba s c.slba) = some st →
      Completes (.finishZone n) s fun t => Answered c st c.dw0 c.dw1 s t)
    ∧ (∀ (st : Nat), cmdAt s n = some c ∧ c.nvm = true ∧ c.opcode = IoOp.zoneSend ∧ c.phase ≠ .firmware ∧ engineRuns s = true ∧ atMode s Mode.ready = true → c.action = ZAct.finish → c.selectAll = false → actStatus s c (zoneOfLba s c.slba) = some st →
      Completes (.finishZone n) s fun t => Answered c st c.dw0 c.dw1 s t)
    ∧ (cmdAt s n = some c ∧ c.nvm = true ∧ c.opcode = IoOp.zoneSend ∧ c.phase ≠ .firmware ∧ engineRuns s = true ∧ atMode s Mode.ready = true → c.action = ZAct.finish → c.selectAll = false → actStatus s c (zoneOfLba s c.slba) = none → bit s Reg.ZTB_ZCMDSTS 0 = false → zoneIdle s c (zoneOfLba s c.slba) = true → ztbEn s = true → (zoneOfLba s c.slba) < numZones s → (workAt s (zoneOfLba s c.slba)).tail.all TailSector.committed = true → (workAt s (zoneOfLba s c.slba)).queue.isEmpty = true → zCptr s (zoneOfLba s c.slba) = zRptr s (zoneOfLba s c.slba) → zoneOp s (zoneOfLba s c.slba) 3 = false → zoneOp s (zoneOfLba s c.slba) 4 = false →
      Completes (.finishZone n) s fun t => Answered c 0 c.dw0 c.dw1 s t ∧ zState t (zoneOfLba s c.slba) = zFull)
    ∧ (∀ (st : Nat), cmdAt s n = some c ∧ c.nvm = true ∧ c.opcode = IoOp.zoneSend ∧ c.phase ≠ .firmware ∧ engineRuns s = true ∧ atMode s Mode.ready = true → c.action = ZAct.reset → c.selectAll = false → actStatus s c (zoneOfLba s c.slba) = some st →
      Completes (.zoneReset n) s fun t => Answered c st c.dw0 c.dw1 s t)
    ∧ (∀ (st : Nat), cmdAt s n = some c ∧ c.nvm = true ∧ c.opcode = IoOp.zoneSend ∧ c.phase ≠ .firmware ∧ engineRuns s = true ∧ atMode s Mode.ready = true → c.action = ZAct.reset → c.selectAll = false → actStatus s c (zoneOfLba s c.slba) = some st →
      Completes (.zoneReset n) s fun t => Answered c st c.dw0 c.dw1 s t)
    ∧ (cmdAt s n = some c ∧ c.nvm = true ∧ c.opcode = IoOp.zoneSend ∧ c.phase ≠ .firmware ∧ engineRuns s = true ∧ atMode s Mode.ready = true → c.action = ZAct.reset → c.selectAll = false → actStatus s c (zoneOfLba s c.slba) = none → bit s Reg.ZTB_ZCMDSTS 0 = false → zoneIdle s c (zoneOfLba s c.slba) = true → ztbEn s = true → (zoneOfLba s c.slba) < numZones s → zEpoch s (zoneOfLba s c.slba) ≠ 0xFFFFFFFF → zoneOp s (zoneOfLba s c.slba) 4 = false → zoneOp s (zoneOfLba s c.slba) 5 = false →
      Completes (.zoneReset n) s fun t => Answered c 0 c.dw0 c.dw1 s t ∧ zState t (zoneOfLba s c.slba) = zEmpty)

/-- A malformed message is dropped and counted; a session message that no session takes is dropped as R288
says; a READ of a hardware object is answered at once; a request that fails a check gets that error;
another goes to firmware through a slot; a broadcast READ waits for its reply; an ACK ends the wait of
its NOTIFY; firmware pops requests, is late after NOI_FWTMO, and posts replies. Where the rules leave a
point open it has the model's choice of log entries 5 and 38. -/
def Obligations.NoileMessagesArrive : Prop :=
  ∀ (s : State), s.wf = true →
    (∀ (d : NoiDatagram), bit s Reg.NOI_CTL 0 = true → mode s ≠ Mode.fill → mode s ≠ Mode.boot → familyOk s d.addr.toNat = true → d.fragmented = true ∨ 1232 < d.bytes.length ∨ wellFormed (d.bytes.map BitVec.toNat) = false →
      Completes (.noileMessage d) s fun t => rdN t Reg.NOI_DROPCNT = min (rdN s Reg.NOI_DROPCNT + 1) (2 ^ 32 - 1) ∧ t.noi = s.noi ∧ OnlyRegs [Reg.NOI_DROPCNT] s t)
    ∧ (∀ (d : NoiDatagram), NoileNew s d → noiCheck s (messagePriv s (datagramRequest d).who) (datagramRequest d) = 0 → hardwareServed (datagramRequest d) = true →
      Completes (.noileMessage d) s fun t => rdN t Reg.NOI_RXCNT = (rdN s Reg.NOI_RXCNT + 1) % 2 ^ 32
        ∧ SendsNoi s t fun m => m.op = NoiOp.read ∧ m.payload = valueOf s (datagramRequest d) ∧ m.reqid = (datagramRequest d).reqid ∧ m.dst = (datagramRequest d).src ∧ m.index = (datagramRequest d).index)
    ∧ (∀ (d : NoiDatagram), NoileNew s d → noiCheck s (messagePriv s (datagramRequest d).who) (datagramRequest d) ≠ 0 →
      Completes (.noileMessage d) s fun t => rdN t Reg.NOI_RXCNT = (rdN s Reg.NOI_RXCNT + 1) % 2 ^ 32
        ∧ SendsNoi s t fun m => m.op = NoiOp.err ∧ m.payload.take 4 = leBytes 4 (noiCheck s (messagePriv s (datagramRequest d).who) (datagramRequest d)) ∧ m.reqid = (datagramRequest d).reqid)
    ∧ (∀ (d : NoiDatagram) (n : Nat), NoileNew s d → noiCheck s (messagePriv s (datagramRequest d).who) (datagramRequest d) = 0 → hardwareServed (datagramRequest d) = false → fwServes s = true → ((List.range 64).find? fun i => s.noi.slots.all fun y => y.slot != i) = some n →
      Completes (.noileMessage d) s fun t => rdN t Reg.NOI_RXCNT = (rdN s Reg.NOI_RXCNT + 1) % 2 ^ 32 ∧ bit t Reg.NOI_EVT 0 = true
        ∧ (t.noi.slots.map fun y => (y.slot, y.req)) = (s.noi.slots.map fun y => (y.slot, y.req)) ++ [(n, (datagramRequest d))] ∧ t.noi.fwq = s.noi.fwq ++ [n])
    ∧ (∀ (d : NoiDatagram) (n : Nat), NoileArrives s d → hdr (d.bytes.map BitVec.toNat) 4 4 = getF s Reg.NOI_NODE 0 20 → (datagramRequest d).who.session = some n → hdr (d.bytes.map BitVec.toNat) 4 4 ≠ broadcastNode → (sessionAt s n).all (fun x => !tagPasses x (d.bytes.map BitVec.toNat)) = true →
      Completes (.noileMessage d) s fun t => rdN t Reg.NOI_TAGFAIL = min (rdN s Reg.NOI_TAGFAIL + 1) (2 ^ 32 - 1) ∧ bit t Reg.NOI_EVT 2 = true ∧ t.noi = s.noi)
    ∧ (∀ (d : NoiDatagram), NoileArrives s d → hdr (d.bytes.map BitVec.toNat) 4 4 = broadcastNode → (datagramRequest d).who.session = none → (datagramRequest d).op = NoiOp.read → noiCheck s (messagePriv s (datagramRequest d).who) (datagramRequest d) = 0 →
      Completes (.noileMessage d) s fun t => rdN t Reg.NOI_RXCNT = (rdN s Reg.NOI_RXCNT + 1) % 2 ^ 32 ∧ t.noi.sent = s.noi.sent ∧ (t.noi.broadcast.map fun m => (m.op, m.payload)) = (s.noi.broadcast.map fun m => (m.op, m.payload)) ++ [(NoiOp.read, valueOf s (datagramRequest d))])
    ∧ (∀ (d : NoiDatagram), NoileArrives s d → hdr (d.bytes.map BitVec.toNat) 4 4 = getF s Reg.NOI_NODE 0 20 → hdr (d.bytes.map BitVec.toNat) 4 4 ≠ broadcastNode → (datagramRequest d).who.session = none → (datagramRequest d).op = NoiOp.ack → (s.noi.subs.any fun y => sameRequester y.who (datagramRequest d).who && y.await.map Prod.fst == some (datagramRequest d).reqid) = true →
      Completes (.noiAck d) s fun t => rdN t Reg.NOI_RXCNT = (rdN s Reg.NOI_RXCNT + 1) % 2 ^ 32 ∧ (t.noi.subs.map fun y => y.await) = s.noi.subs.map fun y => if sameRequester y.who (datagramRequest d).who && y.await.map Prod.fst == some (datagramRequest d).reqid then none else y.await)
    ∧ (∀ (d : NoiDatagram), NoileArrives s d → hdr (d.bytes.map BitVec.toNat) 4 4 = getF s Reg.NOI_NODE 0 20 → hdr (d.bytes.map BitVec.toNat) 4 4 ≠ broadcastNode → (datagramRequest d).who.session = none → (datagramRequest d).op = NoiOp.ack → (s.noi.subs.any fun y => sameRequester y.who (datagramRequest d).who && y.await.map Prod.fst == some (datagramRequest d).reqid) = false →
      Completes (.noiAck d) s fun t => rdN t Reg.NOI_DROPCNT = min (rdN s Reg.NOI_DROPCNT + 1) (2 ^ 32 - 1) ∧ t.noi = s.noi ∧ OnlyRegs [Reg.NOI_DROPCNT] s t)
    ∧ (∀ (d : NoiDatagram), hdr (d.bytes.map BitVec.toNat) 1 1 ≠ NoiOp.ack →
      Completes (.noiAck d) s fun t => t = s)
    ∧ (∀ (n : Nat) (r : NoiMessage), s.noi.broadcast[n]? = some r →
      Completes (.broadcastReply n) s fun t => t.noi.broadcast = s.noi.broadcast.eraseIdx n ∧ SendsNoi s t fun m => m.op = r.op ∧ m.payload = r.payload ∧ m.reqid = r.reqid ∧ m.dst = r.dst)
    ∧ (Completes .replyCacheExpiry s fun t => t.noi.cache = s.noi.cache.filter (fun c => c.reply.isNone || decide (s.clock < c.clock + 2000000000)) ∧ OnlyRegs [] s t)
    ∧ (∀ (n : Nat) (l : List Nat), s.noi.fwq = n :: l →
      Completes .fwqPop s fun t => t.busData = n + 2 ^ 31 ∧ t.noi.fwq = l ∧ ((noiSlot t n).all NoiSlot.popped) = true ∧ OnlyRegs [] s t)
    ∧ (s.noi.fwq = [] →
      Completes .fwqPop s fun t => t.busData = 0 ∧ t.noi = s.noi ∧ OnlyRegs [] s t)
    ∧ (∀ (n : Fin 64) (x : NoiSlot), noiSlot s n = some x → x.late = false → x.arrived + 1000 * getF s Reg.NOI_FWTMO 0 10 ≤ s.clock → x.popped = true →
      Completes (.fwDeadline n) s fun t => ((noiSlot t n).map NoiSlot.late) = some true ∧ rdN t Reg.NOI_BUSYCNT = min (rdN s Reg.NOI_BUSYCNT + 1) (2 ^ 32 - 1)
        ∧ SendsNoi s t fun m => m.op = NoiOp.err ∧ m.payload.take 4 = leBytes 4 NoiErr.busy ∧ m.reqid = x.req.reqid ∧ bitsOf m.flags 4 1 = 1)
    ∧ (∀ (n : Fin 64) (x : NoiSlot), noiSlot s n = some x → x.late = false → x.arrived + 1000 * getF s Reg.NOI_FWTMO 0 10 ≤ s.clock → x.popped = false →
      Completes (.fwDeadline n) s fun t => noiSlot t n = none ∧ rdN t Reg.NOI_BUSYCNT = min (rdN s Reg.NOI_BUSYCNT + 1) (2 ^ 32 - 1)
        ∧ SendsNoi s t fun m => m.op = NoiOp.err ∧ m.payload.take 4 = leBytes 4 NoiErr.busy ∧ m.reqid = x.req.reqid ∧ bitsOf m.flags 4 1 = 0)
    ∧ (∀ (v : Word) (x : NoiSlot), noiSlot s (bitsOf v.toNat 0 6) = some x → x.popped = true → x.late = false → bitsOf v.toNat 8 16 ≠ 0 →
      Completes (.fwrsp v) s fun t => noiSlot t (bitsOf v.toNat 0 6) = none
        ∧ SendsNoi s t fun m => m.op = NoiOp.err ∧ m.payload.take 4 = leBytes 4 (bitsOf v.toNat 8 16) ∧ m.reqid = x.req.reqid ∧ m.index = x.req.index)
    ∧ (∀ (v : Word) (x : NoiSlot), noiSlot s (bitsOf v.toNat 0 6) = some x → x.popped = true → x.late = true →
      Completes (.fwrsp v) s fun t => noiSlot t (bitsOf v.toNat 0 6) = none ∧ t.noi.sent = s.noi.sent ∧ bit t Reg.NOI_EVT 5 = true)

/-- A READ returns the value; a WRITE takes effect before its ACK; segments are returned with the generation
and joined to their transfer, and the last applies the whole content; a subscription takes the lowest
handle, is notified when due, resent three times and then deleted; a transfer or session that is idle
too long ends; an SPDM response becomes readable and a session forms. Where the rules leave a point open
it has the model's choice of log entries 38 and 39. -/
def Obligations.NoileObjectsAreServed : Prop :=
  ∀ (s : State), s.wf = true →
    (∀ (n : Fin 64) (x : NoiSlot), NoileServed s n x → x.req.op = NoiOp.read → (valueOf s x.req).all (fun b => decide (b < 256)) = true → (valueOf s x.req).length < 65536 →
      Completes (.noileRead n) s fun t => noiSlot t n = none
        ∧ SendsNoi s t fun m => m.op = NoiOp.read ∧ m.payload = valueOf s x.req ∧ m.reqid = x.req.reqid ∧ m.dst = x.req.src)
    ∧ (∀ (n : Fin 64) (x : NoiSlot), noiSlot s n = some x → x.popped = true → x.late = false → fwServes s = true → makerIndex x.req.index = false → noiCheck s x.priv x.req ≠ 0 → x.req.op = NoiOp.read →
      Completes (.noileRead n) s fun t => noiSlot t n = none
        ∧ SendsNoi s t fun m => m.op = NoiOp.err ∧ m.payload.take 4 = leBytes 4 (noiCheck s x.priv x.req))
    ∧ (∀ (n : Fin 64) (x : NoiSlot), NoileServed s n x → x.req.op = NoiOp.write → x.req.index = 0x2203 → x.req.sub = 1 →
      Completes (.noileWrite n) s fun t => noiSlot t n = none ∧ getF t Reg.ZTB_TVCFG 0 16 = leNat x.req.payload
        ∧ SendsNoi s t fun m => m.op = NoiOp.ack ∧ m.reqid = x.req.reqid ∧ m.dst = x.req.src)
    ∧ (∀ (n : Fin 64) (x : NoiSlot), NoileServed s n x → x.req.op = NoiOp.write → x.req.index = 0x2323 → x.req.sub = 1 →
      Completes (.noileWrite n) s fun t => noiSlot t n = none ∧ objectValue t (x.req.index, x.req.sub) [] = x.req.payload
        ∧ SendsNoi s t fun m => m.op = NoiOp.ack ∧ m.reqid = x.req.reqid ∧ m.dst = x.req.src)
    ∧ (∀ (n : Fin 64) (x : NoiSlot), NoileServed s n x → x.req.op = NoiOp.readSeg → captureBusy s x.req = false → (domainContent s x.req.who x.req.index x.req.sub).all (fun b => decide (b < 256)) = true →
      Completes (.readSeg n) s fun t => noiSlot t n = none
        ∧ SendsNoi s t fun m => m.op = NoiOp.readSeg ∧ m.offset = x.req.offset ∧ m.payload = leBytes 4 (domainGen s x.req.who x.req.index x.req.sub) ++ ((domainContent s x.req.who x.req.index x.req.sub).drop x.req.offset).take x.req.len)
    ∧ (∀ (n : Fin 64) (x : NoiSlot), NoileServed s n x → x.req.op = NoiOp.writeSeg → x.req.has NoiFlag.last = false →
      Completes (.writeSeg n) s fun t => (xferAt t x.req.index x.req.sub).map (fun y => (y.total, y.data)) = some ((segSoFar s x.req).1, (segSoFar s x.req).2 ++ segData x.req)
        ∧ SendsNoi s t fun m => m.op = NoiOp.ack ∧ m.reqid = x.req.reqid ∧ m.dst = x.req.src)
    ∧ (∀ (n : Fin 64) (x : NoiSlot), NoileServed s n x → x.req.op = NoiOp.writeSeg → x.req.has NoiFlag.last = true → x.req.index = 0x1021 ∨ x.req.index = 0x1103 →
      Completes (.writeSeg n) s fun t => domainBytes t (x.req.index, x.req.sub) = wholeContent s x.req ∧ xferAt t x.req.index x.req.sub = none
        ∧ SendsNoi s t fun m => m.op = NoiOp.ack ∧ m.reqid = x.req.reqid ∧ m.dst = x.req.src)
    ∧ (∀ (i : BitVec 16) (j : Byte) (x : NoiXfer), xferAt s i.toNat j.toNat = some x → x.clock + 2000000000 ≤ s.clock →
      Completes (.segmentTimeout i j) s fun t => xferAt t i.toNat j.toNat = none ∧ OnlyRegs [] s t)
    ∧ (∀ (i : BitVec 16) (j : Byte) (x : NoiXfer), xferAt s i.toNat j.toNat = some x → s.clock < x.clock + 2000000000 →
      Completes (.segmentTimeout i j) s fun t => t = s)
    ∧ (∀ (n : Word) (x : NoiSession), sessionAt s n.toNat = some x → x.last + 1000000000 * leNat (fwValue s 0x1020 4) ≤ s.clock →
      Completes (.sessionIdle n) s fun t => sessionAt t n.toNat = none ∧ bit t Reg.NOI_EVT 4 = true ∧ (t.noi.subs.all fun y => y.who.session != some n.toNat) = true)
    ∧ (∀ (n : Word) (x : NoiSession), sessionAt s n.toNat = some x → s.clock < x.last + 1000000000 * leNat (fwValue s 0x1020 4) →
      Completes (.sessionIdle n) s fun t => t = s)
    ∧ (∀ (n : Fin 64) (x : NoiSlot) (i : Nat), NoileServed s n x → x.req.op = NoiOp.write → x.req.index = 0x0180 → x.req.sub = 1 → subCheck s x.priv x.req.payload = 0 → ((List.range 255).find? fun j => s.noi.subs.all fun y => y.handle != j + 1) = some i →
      Completes (.subscribe n) s fun t => (t.noi.subs.map fun y => (y.handle, y.record)) = (s.noi.subs.map fun y => (y.handle, y.record)) ++ [(i + 1, x.req.payload)]
        ∧ SendsNoi s t fun m => m.op = NoiOp.ack ∧ m.reqid = x.req.reqid ∧ m.dst = x.req.src ∧ m.payload = [i + 1])
    ∧ (∀ (n : Fin 64) (x : NoiSlot), NoileServed s n x → x.req.op = NoiOp.write → x.req.index = 0x0180 → x.req.sub = 2 →
      Completes (.unsubscribe n) s fun t => subAt t (leNat x.req.payload) = none
        ∧ SendsNoi s t fun m => m.op = NoiOp.ack ∧ m.reqid = x.req.reqid ∧ m.dst = x.req.src)
    ∧ (∀ (h : Byte) (x : NoiSub), subAt s h.toNat = some x → noiRuns s = true → notifyDue s x = true →
      Completes (.notify h) s fun t => t.noi.nextReq = (s.noi.nextReq + 1) % 2 ^ 32 ∧ (subAt t h.toNat).map (fun y => (y.value, y.last, y.await)) = some (x.now s, some s.clock, some (s.noi.nextReq, s.clock, 0))
        ∧ SendsNoi s t fun m => m.op = NoiOp.notify ∧ m.reqid = s.noi.nextReq ∧ m.payload = x.now s ∧ m.dst = x.node)
    ∧ (∀ (h : Byte) (x : NoiSub), subAt s h.toNat = some x → noiRuns s = false ∨ notifyDue s x = false →
      Completes (.notify h) s fun t => t = s)
    ∧ (∀ (h : Byte) (x : NoiSub) (i q c : Nat), subAt s h.toNat = some x → x.await = some (i, q, c) → noiRuns s = true → q + 100000000 ≤ s.clock → c < 3 →
      Completes (.notifyResend h) s fun t => (subAt t h.toNat).map NoiSub.await = some (some (i, s.clock, c + 1))
        ∧ SendsNoi s t fun m => m.op = NoiOp.notify ∧ m.reqid = i ∧ m.payload = x.value)
    ∧ (∀ (h : Byte) (x : NoiSub) (i q c : Nat), subAt s h.toNat = some x → x.await = some (i, q, c) → noiRuns s = true → q + 100000000 ≤ s.clock → 3 ≤ c →
      Completes (.notifyResend h) s fun t => subAt t h.toNat = none ∧ bit t Reg.NOI_EVT 3 = true ∧ t.noi.sent = s.noi.sent)
    ∧ (∀ (v : Word) (h : Nat) (x : NoiSub), subAt s h = some x →
      Completes (.ntfy v) s fun t => (subAt t h).map (fun y => (y.value, y.changed)) = some (x.value, x.changed || (subIndex x.record == bitsOf v.toNat 0 16 && subSub x.record == bitsOf v.toNat 16 8 && x.now s != x.value))
        ∧ OnlyRegs [] s t)
    ∧ (∀ (n : Fin 64) (x : NoiSlot) (response : List Byte) (ended : Bool), NoileServed s n x → lastOf 0x6100 x.req = true → x.req.who.session = none →
      Completes (.spdmRequest n response none ended) s fun t => t.noi.spdm.head? = some (x.req.who, (response.map BitVec.toNat).take 4096)
        ∧ SendsNoi s t fun m => m.op = NoiOp.ack ∧ m.reqid = x.req.reqid ∧ m.dst = x.req.src)
    ∧ (∀ (n : Fin 64) (x : NoiSlot) (response : List Byte) (ended : Bool) (f : SpdmSession), NoileServed s n x → lastOf 0x6100 x.req = true → x.req.who.session = none → s.noi.sessions.length < 16 → sessionAt s f.id.toNat = none →
      Completes (.spdmRequest n response (some f) ended) s fun t => (sessionAt t f.id.toNat).map (fun y => (y.priv, y.high, y.txSeq, y.keyIn, y.keyOut)) = some (rootPriv s f.rootKey.toNat (f.rootCert.map BitVec.toNat), 0, 1, beBytes 32 f.requestKey.toNat, beBytes 32 f.responseKey.toNat)
        ∧ SendsNoi s t fun m => m.op = NoiOp.ack ∧ m.reqid = x.req.reqid ∧ m.dst = x.req.src)
    ∧ (∀ (n : Fin 64) (x : NoiSlot), NoileServed s n x → lastOf 0x1003 x.req = true →
      Completes (.addressTableWrite n) s fun t => domainBytes t (0x1003, x.req.sub) = wholeContent s x.req
        ∧ SendsNoi s t fun m => m.op = NoiOp.ack ∧ m.reqid = x.req.reqid ∧ m.dst = x.req.src)

/-- The port resolves the highest common ability, and gives one up after three failures; a link that rises
shows its type, and one that falls fails its port, whose addresses the survivor takes and announces
three times; the port returns by BACK or after HOLD; MACsec SAs and packet numbers are loaded; a PTP
step moves the time and never below zero. Where the rules leave a point open it has the model's choice
of log entries 5, 40, 41 and 43. -/
def Obligations.PortsFollowTheirLinks : Prop :=
  ∀ (s : State) (p : Fin 2), s.wf = true →
    (∀ (partner : BitVec 14) (m : Nat), bit s (Reg.ETH_CTL p) 0 = true → bit s (Reg.ETH_CTL p) 1 = true → linkUp s p = false → typeOrder.find? (fun m => (rdN s (Reg.ETH_ANEFF p)).testBit (m - 1) && partner.toNat.testBit (m - 1)) = some m →
      Completes (.autoNegotiation p partner true) s fun t => rdN t (Reg.ETH_ANLP p) = partner.toNat ∧ (portAt t p).resolved.1 = m ∧ (portAt t p).attempts = 0 ∧ bit t (Reg.ETH_STS p) 7 = true
        ∧ OnlyRegs [Reg.ETH_ANLP p, Reg.ETH_STS p] s t)
    ∧ (∀ (partner : BitVec 14) (m : Nat), bit s (Reg.ETH_CTL p) 0 = true → bit s (Reg.ETH_CTL p) 1 = true → linkUp s p = false → typeOrder.find? (fun m => (rdN s (Reg.ETH_ANEFF p)).testBit (m - 1) && partner.toNat.testBit (m - 1)) = some m → (portAt s p).attempts < 2 →
      Completes (.autoNegotiation p partner false) s fun t => rdN t (Reg.ETH_ANLP p) = partner.toNat ∧ (portAt t p).attempts = (portAt s p).attempts + 1 ∧ OnlyRegs [Reg.ETH_ANLP p] s t)
    ∧ (∀ (partner : BitVec 14) (m : Nat), bit s (Reg.ETH_CTL p) 0 = true → bit s (Reg.ETH_CTL p) 1 = true → linkUp s p = false → typeOrder.find? (fun m => (rdN s (Reg.ETH_ANEFF p)).testBit (m - 1) && partner.toNat.testBit (m - 1)) = some m → 2 ≤ (portAt s p).attempts →
      Completes (.autoNegotiation p partner false) s fun t => rdN t (Reg.ETH_ANLP p) = partner.toNat ∧ (portAt t p).attempts = 0 ∧ bit t (Reg.ETH_ANEFF p) (m - 1) = false ∧ bit t (Reg.ETH_EVT p) 2 = true)
    ∧ (∀ (c : Nat), (portAt s p).emptied = some c → c + 1000000000 ≤ s.clock →
      Completes (.aneffReload p) s fun t => rd t (Reg.ETH_ANEFF p) = rd s (Reg.ETH_ANADV p) ∧ (portAt t p).emptied = none ∧ OnlyRegs [Reg.ETH_ANEFF p] s t)
    ∧ ((portAt s p).emptied = none →
      Completes (.aneffReload p) s fun t => t = s)
    ∧ (∀ (v : Word),
      Completes (.anadvWrite p v) s fun t => rd t (Reg.ETH_ANEFF p) = rd t (Reg.ETH_ANADV p) ∧ (portAt t p).attempts = 0
        ∧ OnlyRegs [Reg.ETH_ANADV p, Reg.ETH_ANEFF p] s t)
    ∧ (∀ (m f : Nat), bit s (Reg.ETH_CTL p) 0 = true → linkUp s p = false → portType s p = (m, f) → m ≠ 0 → m ≤ 9 → f ≤ 3 → portFailed s (1 - p) = false →
      Completes (.linkup p) s fun t => bit t (Reg.ETH_STS p) 0 = true ∧ getF t (Reg.ETH_STS p) 1 4 = m ∧ getF t (Reg.ETH_STS p) 5 2 = f ∧ bit t (Reg.ETH_EVT p) 0 = true
        ∧ (portAt t p).linkClock = s.clock)
    ∧ (∀ (m f : Nat), bit s (Reg.ETH_CTL p) 0 = true → linkUp s p = false → portType s p = (m, f) → m ≠ 0 → m ≤ 9 → f ≤ 3 → portFailed s (1 - p) = true → (portAt s p).failed = none →
      Completes (.linkup p) s fun t => bit t (Reg.ETH_STS p) 0 = true ∧ getF t (Reg.ETH_STS p) 1 4 = m ∧ getF t (Reg.ETH_STS p) 5 2 = f ∧ bit t (Reg.ETH_EVT p) 0 = true
        ∧ (portAt t p).linkClock = s.clock ∧ portFailed t p = false ∧ bit t (Reg.ETH_EVT p) 3 = true ∧ Sent.announce p (takenAddresses t p) ∈ t.net.sent)
    ∧ (linkUp s p = true → portFailed s p = false →
      Completes (.linkdn p) s fun t => bit t (Reg.ETH_STS p) 0 = false ∧ getF t (Reg.ETH_STS p) 1 4 = 0 ∧ bit t (Reg.ETH_EVT p) 1 = true ∧ (portAt t p).failed = some .link)
    ∧ (linkUp s p = false →
      Completes (.linkdn p) s fun t => t = s)
    ∧ (portFailed s p = false → portFailed s (1 - p.val) = false → linkUp s (1 - p.val) = true →
      Completes (.portMove p) s fun t => (portAt t p).failed = some .move ∧ bit t (Reg.ETH_EVT (1 - p.val)) 3 = true ∧ (∀ h : Fin 2, holderOf s h = p.val → h.val < s.net.holders.length → holderOf t h = (1 - p.val))
        ∧ Sent.announce (1 - p.val) (takenAddresses t (1 - p.val)) ∈ t.net.sent ∧ (portAt t (1 - p.val)).announces = 2)
    ∧ (portFailed s p = false → portFailed s (1 - p.val) = true →
      Completes (.portMove p) s fun t => (portAt t p).failed = some .move ∧ bit t (Reg.ETH_EVT 0) 5 = true ∧ bit t (Reg.ETH_EVT 1) 5 = true)
    ∧ ((portAt s p).failed = some .move → linkUp s p = true →
      Completes (.portBack p) s fun t => (portAt t p).failed = none ∧ bit t (Reg.ETH_EVT p) 4 = true ∧ t.net.sent = s.net.sent ++ [.announce p (takenAddresses t p)] ∧ (portAt t p).announces = 2)
    ∧ ((portAt s p).failed = some .move → linkUp s p = false →
      Completes (.portBack p) s fun t => (portAt t p).failed = some .link)
    ∧ ((portAt s p).failed = some .link → linkUp s p = true → bit s (Reg.ETH_FOCFG p) 8 = true → (portAt s p).linkClock + 1000000000 * getF s (Reg.ETH_FOCFG p) 16 8 ≤ s.clock →
      Completes (.fback p) s fun t => (portAt t p).failed = none ∧ bit t (Reg.ETH_EVT p) 4 = true ∧ t.net.sent = s.net.sent ++ [.announce p (takenAddresses t p)] ∧ (portAt t p).announces = 2)
    ∧ ((portAt s p).failed ≠ some .link ∨ linkUp s p = false ∨ s.clock < (portAt s p).linkClock + 1000000000 * getF s (Reg.ETH_FOCFG p) 16 8 →
      Completes (.fback p) s fun t => t = s)
    ∧ (∀ (n : Nat), (portAt s p).announces = n + 1 → (portAt s p).announceClock + 100000000 ≤ s.clock →
      Completes (.announceRepeat p) s fun t => t.net.sent = s.net.sent ++ [.announce p (takenAddresses t p)] ∧ (portAt t p).announces = n ∧ OnlyRegs [] s t)
    ∧ ((portAt s p).announces = 0 ∨ s.clock < (portAt s p).announceClock + 100000000 →
      Completes (.announceRepeat p) s fun t => t = s)
    ∧ ((portAt s p).fwtx = [] →
      Completes (.portDisable p) s fun t => bit t (Reg.ETH_CTL p) 0 = false ∧ ∀ r : Fin 16, runnelAt t (16 * p + r) = [])
    ∧ (∀ (r : Fin 3) (v : Word), etsOk (if r.val = 0 then v.toNat else rdN s (Reg.ETH_ETS0 p)) (if r.val = 1 then v.toNat else rdN s (Reg.ETH_ETS1 p)) (if r.val = 2 then v.toNat % 256 else rdN s (Reg.ETH_TSA p)) = true →
      Completes (.etsWrite p r v) s fun t => rdN t (Reg.ETH_ETS0 p) = (if r.val = 0 then v.toNat else rdN s (Reg.ETH_ETS0 p)) ∧ rdN t (Reg.ETH_ETS1 p) = (if r.val = 1 then v.toNat else rdN s (Reg.ETH_ETS1 p)) ∧ rdN t (Reg.ETH_TSA p) = (if r.val = 2 then v.toNat % 256 else rdN s (Reg.ETH_TSA p)))
    ∧ (∀ (r : Fin 3) (v : Word), etsOk (if r.val = 0 then v.toNat else rdN s (Reg.ETH_ETS0 p)) (if r.val = 1 then v.toNat else rdN s (Reg.ETH_ETS1 p)) (if r.val = 2 then v.toNat % 256 else rdN s (Reg.ETH_TSA p)) = false →
      Completes (.etsWrite p r v) s fun t => bit t (Reg.ETH_EVT p) 10 = true ∧ OnlyRegsEvr [Reg.ETH_EVT p] s t)
    ∧ (∀ (v : Word), bitsOf v.toNat 0 9 < 260 →
      Completes (.msload p v) s fun t => (portAt t p).sas.head? = some (saEntry s p (bitsOf v.toNat 0 9)) ∧ OnlyRegs [] s t)
    ∧ (∀ (v : Word), 260 ≤ bitsOf v.toNat 0 9 →
      Completes (.msload p v) s fun t => t.net = s.net ∧ OnlyRegs [] s t)
    ∧ (∀ (v : DWord), txAn s p < (portAt s p).txpn.length →
      Completes (.mstxpnWrite p v) s fun t => nextPn t p = v.toNat ∧ rd64 t (Reg.ETH_MSTXPN p) = v.toNat)
    ∧ (∀ (v : DWord), 0 ≤ ((ptp s : Int) + signedOf 64 v.toNat) →
      Completes (.ptpstep v) s fun t => rd64 t Reg.ETH_PTPTIME = ((ptp s : Int) + signedOf 64 v.toNat).toNat % 2 ^ 64)
    ∧ (∀ (v : DWord), ((ptp s : Int) + signedOf 64 v.toNat) < 0 →
      Completes (.ptpstep v) s fun t => bit t (Reg.ETH_EVT 0) 9 = true ∧ rd64 t Reg.ETH_PTPTIME = rd64 s Reg.ETH_PTPTIME)
    ∧ (∀ (i q w : Nat) (l : List (Nat × Nat × Nat)), s.net.stamps = (i, q, w) :: l →
      Completes .txtsidPop s fun t => t.busData = i + 2 ^ 8 * q + 2 ^ 31 ∧ rd64 t Reg.ETH_TXTS = w % 2 ^ 64 ∧ t.net.stamps = l)
    ∧ (s.net.stamps = [] →
      Completes .txtsidPop s fun t => t.busData = 0 ∧ t.net = s.net ∧ OnlyRegs [] s t)

/-- A received frame is counted, dropped or published in the Runnel of its class with its priority and time;
a consumed packet is dropped, flushed, counted or handed to firmware; a frame is sent with its tag, FCS
and source check; PFC pauses and restarts priorities; firmware pushes and pops frames, drops packets and
flushes Runnels. Where the rules leave a point open it has the model's choice of log entries 41, 42 and
70. -/
def Obligations.FramesCrossTheRunnels : Prop :=
  ∀ (s : State) (p : Fin 2), s.wf = true →
    (∀ (b : List Byte) (faulty : Bool), bit s (Reg.ETH_CTL p) 0 = false ∨ linkUp s p = false →
      Completes (.frameReceive p b faulty) s fun t => t = s)
    ∧ (∀ (b : List Byte) (faulty : Bool), bit s (Reg.ETH_CTL p) 0 = true → linkUp s p = true → faulty = true ∨ b.length < 64 ∨ getF s (Reg.ETH_MAXFR p) 0 14 < b.length →
      Completes (.frameReceive p b faulty) s fun t => rdN t (Reg.ETH_RXBAD p) = min (rdN s (Reg.ETH_RXBAD p) + 1) (2 ^ 32 - 1) ∧ t.net = s.net ∧ OnlyRegs [Reg.ETH_RXBAD p] s t)
    ∧ (∀ (b : List Byte) (faulty : Bool), bit s (Reg.ETH_CTL p) 0 = true → linkUp s p = true → faulty = false → 64 ≤ b.length → b.length ≤ getF s (Reg.ETH_MAXFR p) 0 14 → isPause (b.map BitVec.toNat) = true →
      Completes (.frameReceive p b faulty) s fun t => rdN t (Reg.ETH_PAUSECNT p) = min (rdN s (Reg.ETH_PAUSECNT p) + 1) (2 ^ 32 - 1) ∧ t.net = s.net)
    ∧ (∀ (b : List Byte) (faulty : Bool), bit s (Reg.ETH_CTL p) 0 = true → linkUp s p = true → faulty = false → 64 ≤ b.length → b.length ≤ getF s (Reg.ETH_MAXFR p) 0 14 → isPause (b.map BitVec.toNat) = false → ((frameVid (rxClear s p (b.map BitVec.toNat))).isSome && (frameVid (rxClear s p (b.map BitVec.toNat))) != some (getF s (Reg.ETH_VLAN p) 0 12)) = true →
      Completes (.frameReceive p b faulty) s fun t => rdN t (Reg.ETH_RXCNT p) = (rdN s (Reg.ETH_RXCNT p) + 1) % 2 ^ 32 ∧ t.net = s.net ∧ OnlyRegs [Reg.ETH_RXCNT p] s t)
    ∧ (∀ (b : List Byte) (faulty : Bool), bit s (Reg.ETH_CTL p) 0 = true → linkUp s p = true → faulty = false → 64 ≤ b.length → b.length ≤ getF s (Reg.ETH_MAXFR p) 0 14 → isPause (b.map BitVec.toNat) = false → ((frameVid (rxClear s p (b.map BitVec.toNat))).isSome && (frameVid (rxClear s p (b.map BitVec.toNat))) != some (getF s (Reg.ETH_VLAN p) 0 12)) = false → hasRoom s (runnelOf p false (classOf s p (framePrio (rxClear s p (b.map BitVec.toNat))))) b.length = false →
      Completes (.frameReceive p b faulty) s fun t => rdN t (Reg.RUN_OVF (runnelOf p false (classOf s p (framePrio (rxClear s p (b.map BitVec.toNat)))))) = min (rdN s (Reg.RUN_OVF (runnelOf p false (classOf s p (framePrio (rxClear s p (b.map BitVec.toNat)))))) + 1) (2 ^ 32 - 1) ∧ bit t Reg.RUN_OVFEVT (runnelOf p false (classOf s p (framePrio (rxClear s p (b.map BitVec.toNat))))) = true ∧ t.net = s.net)
    ∧ (∀ (b : List Byte) (faulty : Bool), bit s (Reg.ETH_CTL p) 0 = true → linkUp s p = true → faulty = false → 64 ≤ b.length → b.length ≤ getF s (Reg.ETH_MAXFR p) 0 14 → isPause (b.map BitVec.toNat) = false → ((frameVid (rxClear s p (b.map BitVec.toNat))).isSome && (frameVid (rxClear s p (b.map BitVec.toNat))) != some (getF s (Reg.ETH_VLAN p) 0 12)) = false → hasRoom s (runnelOf p false (classOf s p (framePrio (rxClear s p (b.map BitVec.toNat))))) b.length = true →
      Completes (.frameReceive p b faulty) s fun t => rdN t (Reg.ETH_RXCNT p) = (rdN s (Reg.ETH_RXCNT p) + 1) % 2 ^ 32
        ∧ runnelAt t (runnelOf p false (classOf s p (framePrio (rxClear s p (b.map BitVec.toNat))))) = runnelAt s (runnelOf p false (classOf s p (framePrio (rxClear s p (b.map BitVec.toNat))))) ++ [⟨(b.map BitVec.toNat), (framePrio (rxClear s p (b.map BitVec.toNat))), ptp s, false, 0, []⟩]
        ∧ getF t (Reg.RUN_WPTR (runnelOf p false (classOf s p (framePrio (rxClear s p (b.map BitVec.toNat)))))) 0 15 = (getF s (Reg.RUN_WPTR (runnelOf p false (classOf s p (framePrio (rxClear s p (b.map BitVec.toNat)))))) 0 15 + 1 + (b.length + 15) / 16) % 2 ^ 15)
    ∧ (∀ (m : Byte) (times : BitVec 128),
      Completes (.pfcFrame p m times) s fun t => (∀ q : Fin 8, (portAt t p).paused.find? (fun e => e.1 == q.val)
          = if m.toNat.testBit q then (if bitsOf times.toNat (16 * q) 16 = 0 then none else some (q.val, s.clock + quantaNs s p (bitsOf times.toNat (16 * q) 16)))
            else (portAt s p).paused.find? fun e => e.1 == q.val) ∧ OnlyRegs [] s t)
    ∧ (∀ (q : Fin 8),
      Completes (.pfcPauseEnd p q) s fun t => (portAt t p).paused = (portAt s p).paused.filter (fun e => !(e.1 == q.val && decide (e.2 ≤ s.clock))) ∧ OnlyRegs [] s t)
    ∧ (2 * (portAt s p).pfcClock + quantaNs s p (getF s (Reg.ETH_PFC p) 8 16) ≤ 2 * s.clock → stopped s p ≠ [] → pfcPrios s p (stopped s p) ≠ 0 →
      Completes (.pfcResend p) s fun t => t.net.sent = s.net.sent ++ [.pfc p (pfcPrios s p (stopped s p)) (getF s (Reg.ETH_PFC p) 8 16)]
        ∧ (portAt t p).pfcClock = s.clock ∧ OnlyRegs [] s t)
    ∧ (stopped s p = [] →
      Completes (.pfcResend p) s fun t => t = s)
    ∧ (∀ (tc : Fin 8) (header intact digests : Bool), runnelAt s (runnelOf p false tc) = [] →
      Completes (.packetConsume p tc header intact digests) s fun t => t = s)
    ∧ (∀ (tc : Fin 8) (header intact digests : Bool) (x : Packet) (l : List Packet), runnelAt s (runnelOf p false tc) = x :: l → header = false ∨ x.bytes.length < 64 →
      Completes (.packetConsume p tc header intact digests) s fun t => runnelAt t (runnelOf p false tc) = [] ∧ occupancy t (runnelOf p false tc) = 0 ∧ rdN t (Reg.RUN_RSYNC (runnelOf p false tc)) = min (rdN s (Reg.RUN_RSYNC (runnelOf p false tc)) + 1) (2 ^ 32 - 1)
        ∧ bit t Reg.RUN_EVT (runnelOf p false tc) = true)
    ∧ (∀ (tc : Fin 8) (header intact digests : Bool) (x : Packet) (l : List Packet), runnelAt s (runnelOf p false tc) = x :: l → header = true → 64 ≤ x.bytes.length → x.bytes.length ≤ getF s (Reg.ETH_MAXFR p) 0 14 → waitsForLattice s p x.bytes = false → intact = false ∨ fcsOk x.bytes = false →
      Completes (.packetConsume p tc header intact digests) s fun t => runnelAt t (runnelOf p false tc) = l ∧ rdN t (Reg.RUN_DRCNT (runnelOf p false tc)) = min (rdN s (Reg.RUN_DRCNT (runnelOf p false tc)) + 1) (2 ^ 32 - 1))
    ∧ (∀ (tc : Fin 8) (header intact digests : Bool) (x : Packet) (l : List Packet) (c : Nat), runnelAt s (runnelOf p false tc) = x :: l → header = true → 64 ≤ x.bytes.length → x.bytes.length ≤ getF s (Reg.ETH_MAXFR p) 0 14 → intact = true → fcsOk x.bytes = true → waitsForLattice s p x.bytes = false → msAdmit s p (x.bytes.take (x.bytes.length - 4)) = .inl c →
      Completes (.packetConsume p tc header intact digests) s fun t => runnelAt t (runnelOf p false tc) = l ∧ rdN t (Reg.RUN_DRCNT (runnelOf p false tc)) = min (rdN s (Reg.RUN_DRCNT (runnelOf p false tc)) + 1) (2 ^ 32 - 1)
        ∧ rdN t c = min (rdN s c + 1) (2 ^ 32 - 1))
    ∧ (∀ (tc : Fin 8) (header intact digests : Bool) (x : Packet) (l : List Packet), runnelAt s (runnelOf p false tc) = x :: l → header = true → 64 ≤ x.bytes.length → x.bytes.length ≤ getF s (Reg.ETH_MAXFR p) 0 14 → intact = true → fcsOk x.bytes = true → msec s p = false → (ipPacket (x.bytes.take (x.bytes.length - 4))).all packetOk = false ∨ (digests = false ∧ serviceOf s (x.bytes.take (x.bytes.length - 4)) = .tcp) →
      Completes (.packetConsume p tc header intact digests) s fun t => runnelAt t (runnelOf p false tc) = l ∧ rdN t (Reg.RUN_DRCNT (runnelOf p false tc)) = min (rdN s (Reg.RUN_DRCNT (runnelOf p false tc)) + 1) (2 ^ 32 - 1))
    ∧ (∀ (tc : Fin 8) (header intact digests : Bool) (x : Packet) (l : List Packet), runnelAt s (runnelOf p false tc) = x :: l → header = true → 64 ≤ x.bytes.length → x.bytes.length ≤ getF s (Reg.ETH_MAXFR p) 0 14 → intact = true → fcsOk x.bytes = true → msec s p = false → (ipPacket (x.bytes.take (x.bytes.length - 4))).all packetOk = true → digests = true ∨ serviceOf s (x.bytes.take (x.bytes.length - 4)) ≠ .tcp → serves s p (serviceOf s (x.bytes.take (x.bytes.length - 4))) (ipPacket (x.bytes.take (x.bytes.length - 4))) = false →
      Completes (.packetConsume p tc header intact digests) s fun t => runnelAt t (runnelOf p false tc) = l ∧ rdN t (Reg.ETH_RXUNK p) = min (rdN s (Reg.ETH_RXUNK p) + 1) (2 ^ 32 - 1) ∧ t.cis = s.cis)
    ∧ (∀ (tc : Fin 8) (header intact digests : Bool) (x : Packet) (l : List Packet) (n : Nat) (c : CisState), runnelAt s (runnelOf p false tc) = x :: l → header = true → 64 ≤ x.bytes.length → x.bytes.length ≤ getF s (Reg.ETH_MAXFR p) 0 14 → intact = true → fcsOk x.bytes = true → msec s p = false → (ipPacket (x.bytes.take (x.bytes.length - 4))).all packetOk = true → digests = true ∨ serviceOf s (x.bytes.take (x.bytes.length - 4)) ≠ .tcp → serviceOf s (x.bytes.take (x.bytes.length - 4)) = .firmware → x.bytes.length ≤ 4080 → freeCount s ≠ 0 → wInEffect s 3 = false → s.cis.pop = some (n, c) →
      Completes (.packetConsume p tc header intact digests) s fun t => runnelAt t (runnelOf p false tc) = l ∧ (portAt t p).fwrx = (portAt s p).fwrx ++ [n] ∧ bit t (Reg.ETH_EVT p) 11 = true
        ∧ ownerOf t n = Owner.netrx)
    ∧ (∀ (tc : Fin 8), bit s (Reg.ETH_CTL p) 0 = false ∨ linkUp s p = false →
      Completes (.frameTransmit p tc) s fun t => t = s)
    ∧ (∀ (tc : Fin 8) (x : Packet) (l : List Packet), bit s (Reg.ETH_CTL p) 0 = true → linkUp s p = true → mayServe s p tc = true → runnelAt s (runnelOf p true tc) = x :: l → (portAt s p).fwtx = [] → x.bytes.length < 60 ∨ getF s (Reg.ETH_MAXFR p) 0 14 < x.bytes.length + 4 →
      Completes (.frameTransmit p tc) s fun t => runnelAt t (runnelOf p true tc) = [] ∧ rdN t (Reg.ETH_TXBAD p) = min (rdN s (Reg.ETH_TXBAD p) + 1) (2 ^ 32 - 1) ∧ t.net.sent = s.net.sent)
    ∧ (∀ (tc : Fin 8) (x : Packet) (l : List Packet), bit s (Reg.ETH_CTL p) 0 = true → linkUp s p = true → mayServe s p tc = true → runnelAt s (runnelOf p true tc) = x :: l → (portAt s p).fwtx = [] → 60 ≤ x.bytes.length → x.bytes.length + 4 ≤ getF s (Reg.ETH_MAXFR p) 0 14 → sourceOk s p x.clear = false →
      Completes (.frameTransmit p tc) s fun t => runnelAt t (runnelOf p true tc) = l ∧ rdN t (if p.val = 0 then Reg.SLU_SRCDROP0 else Reg.SLU_SRCDROP1) = min (rdN s (if p.val = 0 then Reg.SLU_SRCDROP0 else Reg.SLU_SRCDROP1) + 1) (2 ^ 32 - 1)
        ∧ bit t Reg.SLU_EVT 9 = true ∧ t.net.sent = s.net.sent)
    ∧ (∀ (tc : Fin 8) (x : Packet) (l : List Packet), bit s (Reg.ETH_CTL p) 0 = true → linkUp s p = true → mayServe s p tc = true → runnelAt s (runnelOf p true tc) = x :: l → (portAt s p).fwtx = [] → 60 ≤ x.bytes.length → x.bytes.length + 4 ≤ getF s (Reg.ETH_MAXFR p) 0 14 → sourceOk s p x.clear = true → ((x.bytes.length + 4 : Nat) : Rat) ≤ tokensNow s p →
      Completes (.frameTransmit p tc) s fun t => runnelAt t (runnelOf p true tc) = l ∧ t.net.sent = s.net.sent ++ [.frame p (withFcs x.bytes)]
        ∧ rdN t (Reg.ETH_TXCNT p) = (rdN s (Reg.ETH_TXCNT p) + 1) % 2 ^ 32)
    ∧ (∀ (r : Fin 32) (x : Packet) (l : List Packet), runCmdOk s r = true → runnelAt s r = x :: l → (portAt s (r / 16)).fwtx = [] →
      Completes (.runDrop r) s fun t => runnelAt t r = l ∧ rdN t (Reg.RUN_DRCNT r) = min (rdN s (Reg.RUN_DRCNT r) + 1) (2 ^ 32 - 1))
    ∧ (∀ (r : Fin 32), runCmdOk s r = true → (portAt s (r / 16)).fwtx = [] →
      Completes (.flushRunnel r) s fun t => runnelAt t r = [] ∧ occupancy t r = 0 ∧ rdN t (Reg.RUN_RSYNC r) = min (rdN s (Reg.RUN_RSYNC r) + 1) (2 ^ 32 - 1) ∧ bit t Reg.RUN_EVT r = true)
    ∧ (∀ (r : Fin 32), runCmdOk s r = false →
      Completes (.runDrop r) s fun t => t.net = s.net ∧ OnlyRegs [] s t)
    ∧ (∀ (r : Fin 32), runCmdOk s r = false →
      Completes (.flushRunnel r) s fun t => t.net = s.net ∧ OnlyRegs [] s t)
    ∧ (∀ (v : Word) (w : List Nat), (bitsOf v.toNat 0 17) < 94208 → ownerOf s (bitsOf v.toNat 0 17) = Owner.core → (portAt s p).fwtx = [] → protects s p (sramBytes s (4096 * (bitsOf v.toNat 0 17) + 16) (sram16 s (4096 * (bitsOf v.toNat 0 17)))) = false ∨ latticeTakes s = true → wireFrame s p (((List.range 8).find? fun q => classOf s p q == bitsOf v.toNat 20 3).getD 0) (sramBytes s (4096 * (bitsOf v.toNat 0 17) + 16) (sram16 s (4096 * (bitsOf v.toNat 0 17)))) = some w → hasRoom s (runnelOf p true (bitsOf v.toNat 20 3)) w.length = true →
      Completes (.fwtx p v) s fun t => t.busError = false ∧ ownerOf t (bitsOf v.toNat 0 17) = Owner.free ∧ (runnelAt t (runnelOf p true (bitsOf v.toNat 20 3))).length = (runnelAt s (runnelOf p true (bitsOf v.toNat 20 3))).length + 1)
    ∧ (∀ (v : Word), ownerOf s (bitsOf v.toNat 0 17) ≠ Owner.core →
      Completes (.fwtx p v) s fun t => t.busError = true ∧ t.net = s.net ∧ rdN t Reg.CIS_ERRCNT = min (rdN s Reg.CIS_ERRCNT + 1) (2 ^ 32 - 1))
    ∧ (∀ (n : Nat) (l : List Nat), (portAt s p).fwrx = n :: l → n < 94208 → ownerOf s n = Owner.netrx →
      Completes (.fwrxqPop p) s fun t => t.busData = n + 2 ^ 31 ∧ (portAt t p).fwrx = l ∧ ownerOf t n = Owner.core)
    ∧ ((portAt s p).fwrx = [] →
      Completes (.fwrxqPop p) s fun t => t.busData = 0 ∧ t.net = s.net ∧ OnlyRegs [] s t)

/-- The winner of a clock gets the buffer on top of the stack with a fresh owner, an empty pool refuses it
and it waits; a give or free that a check of R334 fails is logged and counted, and any other changes the
owner; a core's access answers on the bus; the rebuild frees every buffer. Where the rules leave a point
open it has the model's choice of log entry 46. -/
def Obligations.BuffersAreGivenAndFreed : Prop :=
  ∀ (s : State), s.wf = true →
    (∀ (m : BitVec 8) (spec : Bool) (o : Nat) (l : List Nat) (i : Nat) (c : CisState), requesters s m = o :: l → cisReady s = true → 1 < freeCount s → wInEffect s 3 = false → s.cis.pop = some (i, c) → ownerOf s i = Owner.free →
      Completes (.allocation m spec) s fun t => t.cis.last = some ⟨o, 0, i⟩ ∧ ownerOf t i = o ∧ freeCount t = freeCount s - 1 ∧ sram16 t (tagAddr i + 14) = (sram16 s (tagAddr i + 14) + 1) % 2 ^ 16
        ∧ isSpec t i = (o == Owner.nqe && if m.getLsbD Owner.nqe then spec else s.cis.ahead) ∧ t.cis.again = l)
    ∧ (∀ (m : BitVec 8) (spec : Bool) (o : Nat) (l : List Nat), requesters s m = o :: l → cisReady s = true → freeCount s = 0 → rdN s Reg.CIS_EMPTYCNT < 2 ^ 32 - 8 →
      Completes (.allocation m spec) s fun t => t.cis.last = some ⟨o, 1, 0⟩ ∧ bit t Reg.CIS_EVT 4 = true ∧ rdN s Reg.CIS_EMPTYCNT < rdN t Reg.CIS_EMPTYCNT
        ∧ (o ≠ Owner.netrx → o ∈ t.cis.waiting))
    ∧ (∀ (m : BitVec 8) (spec : Bool) (o : Nat) (l : List Nat), requesters s m = o :: l → cisReady s = false →
      Completes (.allocation m spec) s fun t => t.cis.waiting = s.cis.waiting ++ (o :: l).filter (fun x => !s.cis.waiting.contains x) ∧ t.cis.again = [] ∧ OnlyRegs [] s t)
    ∧ (∀ (o : Fin 8) (i : Nat) (c : CisState), cisReady s = true → s.cis.waiting.contains o.val = true ∨ s.cis.again.contains o.val = true → 1 < freeCount s → wInEffect s 3 = false → s.cis.pop = some (i, c) → ownerOf s i = Owner.free →
      Completes (.allocationRetry o) s fun t => t.cis.last = some ⟨o.val, 0, i⟩ ∧ ownerOf t i = o.val ∧ freeCount t = freeCount s - 1 ∧ sram16 t (tagAddr i + 14) = (sram16 s (tagAddr i + 14) + 1) % 2 ^ 16 ∧ t.cis.waiting = s.cis.waiting.erase o.val ∧ t.cis.again = s.cis.again.erase o.val)
    ∧ (∀ (o : Fin 8), cisReady s = false ∨ ((wInEffect s 3 = true ∨ s.cis.waiting.contains o.val = false) ∧ s.cis.again.contains o.val = false) →
      Completes (.allocationRetry o) s fun t => t = s)
    ∧ (∀ (r : Fin 8) (i : BitVec 17) (o : Byte), cisReady s = true → opCheck s r i.toNat true (some o.toNat) = 0 →
      Completes (.cisGiveEngine r i o) s fun t => ownerOf t i.toNat = o.toNat)
    ∧ (∀ (r : Fin 8) (i : BitVec 17) (o : Byte), cisReady s = true → opCheck s r i.toNat true (some o.toNat) ≠ 0 →
      Completes (.cisGiveEngine r i o) s fun t => rdN t Reg.CIS_ERRCNT = min (rdN s Reg.CIS_ERRCNT + 1) (2 ^ 32 - 1) ∧ bit t Reg.CIS_EVT 5 = true ∧ t.cis.owners = s.cis.owners)
    ∧ (∀ (r : Fin 8) (i : BitVec 17) (o : Byte), cisReady s = false →
      Completes (.cisGiveEngine r i o) s fun t => t.cis.held = s.cis.held ++ [.give r i.toNat o.toNat] ∧ t.cis.owners = s.cis.owners ∧ OnlyRegs [] s t)
    ∧ (∀ (r : Fin 8) (i : BitVec 17), cisReady s = true → opCheck s r i.toNat true none = 0 → freeCount s < 94208 →
      Completes (.cisFreeEngine r i) s fun t => ownerOf t i.toNat = Owner.free ∧ t.cis.stack = i.toNat :: s.cis.stack ∧ freeCount t = freeCount s + 1 ∧ isSpec t i.toNat = false)
    ∧ (∀ (r : Fin 8) (i : BitVec 17), cisReady s = true → opCheck s r i.toNat true none ≠ 0 →
      Completes (.cisFreeEngine r i) s fun t => rdN t Reg.CIS_ERRCNT = min (rdN s Reg.CIS_ERRCNT + 1) (2 ^ 32 - 1) ∧ bit t Reg.CIS_EVT 5 = true ∧ t.cis.owners = s.cis.owners ∧ t.cis.stack = s.cis.stack)
    ∧ (∀ (r : Fin 8) (i : BitVec 17), cisReady s = false →
      Completes (.cisFreeEngine r i) s fun t => t.cis.held = s.cis.held ++ [.free r i.toNat] ∧ t.cis.owners = s.cis.owners ∧ OnlyRegs [] s t)
    ∧ (∀ (i : Nat), wInEffect s 0 = true → ((s.cis.owners.map Prod.fst).find? fun j => isSpec s j && !inOperation s j) = some i →
      Completes .reclaim s fun t => ownerOf t i = Owner.free ∧ isSpec t i = false ∧ t.cis.stack = i :: s.cis.stack)
    ∧ (wInEffect s 0 = false →
      Completes .reclaim s fun t => t = s)
    ∧ (cisReady s = false →
      Completes .rebuild s fun t => cisReady t = true ∧ t.cis.held = [])
    ∧ (cisReady s = false → s.cis.held = [] →
      Completes .rebuild s fun t => freeCount t = numBuffers ∧ t.cis.owners = [] ∧ t.cis.stack = [] ∧ t.cis.fresh = 0
        ∧ ∀ i < numBuffers, ownerOf t i = Owner.free ∧ isSpec t i = false)
    ∧ (cisReady s = true →
      Completes .rebuild s fun t => t = s)
    ∧ (∀ (i : Nat) (c : CisState), cisReady s = true → 1 < freeCount s → wInEffect s 3 = false → s.cis.pop = some (i, c) → ownerOf s i = Owner.free →
      Completes .cisAlloc s fun t => t.busData = bufAddr i ∧ t.busError = false ∧ ownerOf t i = Owner.core ∧ t.cis.waiting = s.cis.waiting)
    ∧ (cisReady s = true → freeCount s ≠ 0 → wInEffect s 3 = true →
      Completes .cisAlloc s fun t => t.busData = 2 ^ 29 * 2 ∧ t.cis.owners = s.cis.owners)
    ∧ (∀ (i : Nat) (c : CisState), cisReady s = true → 1 < freeCount s → s.cis.pop = some (i, c) → ownerOf s i = Owner.free →
      Completes .cisAllocr s fun t => t.busData = bufAddr i ∧ t.busError = false ∧ ownerOf t i = Owner.core ∧ t.cis.waiting = s.cis.waiting)
    ∧ (cisReady s = true → freeCount s = 0 →
      Completes .cisAlloc s fun t => t.busData = 2 ^ 29 * 1 ∧ t.cis.owners = s.cis.owners ∧ t.cis.waiting = s.cis.waiting)
    ∧ (cisReady s = false →
      Completes .cisAlloc s fun t => t.busData = 2 ^ 29 * 3 ∧ t.cis = s.cis)
    ∧ (cisReady s = true → freeCount s = 0 →
      Completes .cisAllocr s fun t => t.busData = 2 ^ 29 * 1 ∧ t.cis.owners = s.cis.owners ∧ t.cis.waiting = s.cis.waiting)
    ∧ (cisReady s = false →
      Completes .cisAllocr s fun t => t.busData = 2 ^ 29 * 3 ∧ t.cis = s.cis)
    ∧ (∀ (v : Word), cisReady s = true → (bitsOf v.toNat 0 29) < 0x17000000 → opCheck s Owner.core ((bitsOf v.toNat 0 29) / 4096) ((bitsOf v.toNat 0 29) % 4096 == 0) none = 0 →
      Completes (.cisFree v) s fun t => getF t Reg.CIS_OPSTS 0 3 = 0 ∧ t.busError = false ∧ ownerOf t ((bitsOf v.toNat 0 29) / 4096) = Owner.free ∧ t.cis.stack = ((bitsOf v.toNat 0 29) / 4096) :: s.cis.stack)
    ∧ (∀ (v : Word), cisReady s = true → (bitsOf v.toNat 0 29) < 0x17000000 → opCheck s Owner.core ((bitsOf v.toNat 0 29) / 4096) ((bitsOf v.toNat 0 29) % 4096 == 0) none ≠ 0 →
      Completes (.cisFree v) s fun t => getF t Reg.CIS_OPSTS 0 3 = opCheck s Owner.core ((bitsOf v.toNat 0 29) / 4096) ((bitsOf v.toNat 0 29) % 4096 == 0) none ∧ t.busError = true
        ∧ rdN t Reg.CIS_ERRCNT = min (rdN s Reg.CIS_ERRCNT + 1) (2 ^ 32 - 1) ∧ bit t Reg.CIS_EVT 5 = true ∧ t.cis.owners = s.cis.owners)
    ∧ (∀ (v : DWord), cisReady s = true → (bitsOf v.toNat 0 29) < 0x17000000 → opCheck s Owner.core ((bitsOf v.toNat 0 29) / 4096) ((bitsOf v.toNat 0 29) % 4096 == 0) (some (bitsOf v.toNat 32 8)) = 0 →
      Completes (.cisGive v) s fun t => getF t Reg.CIS_OPSTS 0 3 = 0 ∧ t.busError = false ∧ ownerOf t ((bitsOf v.toNat 0 29) / 4096) = bitsOf v.toNat 32 8)
    ∧ (∀ (v : DWord), cisReady s = true → (bitsOf v.toNat 0 29) < 0x17000000 → opCheck s Owner.core ((bitsOf v.toNat 0 29) / 4096) ((bitsOf v.toNat 0 29) % 4096 == 0) (some (bitsOf v.toNat 32 8)) ≠ 0 →
      Completes (.cisGive v) s fun t => getF t Reg.CIS_OPSTS 0 3 = opCheck s Owner.core ((bitsOf v.toNat 0 29) / 4096) ((bitsOf v.toNat 0 29) % 4096 == 0) (some (bitsOf v.toNat 32 8)) ∧ t.busError = true
        ∧ rdN t Reg.CIS_ERRCNT = min (rdN s Reg.CIS_ERRCNT + 1) (2 ^ 32 - 1) ∧ bit t Reg.CIS_EVT 5 = true ∧ t.cis.owners = s.cis.owners)
    ∧ (∀ (v : Word), cisReady s = false →
      Completes (.cisFree v) s fun t => t.cis.held = s.cis.held ++ [.coreFree v.toNat] ∧ t.cis.owners = s.cis.owners ∧ OnlyRegs [] s t)
    ∧ (∀ (v : DWord), cisReady s = false →
      Completes (.cisGive v) s fun t => t.cis.held = s.cis.held ++ [.coreGive v.toNat] ∧ t.cis.owners = s.cis.owners ∧ OnlyRegs [] s t)
    ∧ (∀ (e : Nat) (l : List Nat), s.cis.errlog = e :: l →
      Completes .errlogPop s fun t => t.busData = e ∧ t.cis.errlog = l ∧ OnlyRegs [] s t)
    ∧ (s.cis.errlog = [] →
      Completes .errlogPop s fun t => t.busData = 0 ∧ t.cis = s.cis)
    ∧ (∀ (v : Word),
      Completes (.minfreeWrite v) s fun t => rdN t Reg.CIS_MINFREE = freeCount s ∧ OnlyRegs [Reg.CIS_MINFREE] s t)
    ∧ (∀ (v : Word), 64 ≤ bitsOf v.toNat 0 13 → bitsOf v.toNat 0 13 ≤ 4096 →
      Completes (.cisCtlWrite v) s fun t => rdN t Reg.CIS_CTL = bitsOf v.toNat 0 13)
    ∧ (∀ (v : Word), bitsOf v.toNat 0 13 < 64 ∨ 4096 < bitsOf v.toNat 0 13 →
      Completes (.cisCtlWrite v) s fun t => t.cis = s.cis ∧ (∃ b : Fin 8, bit t Reg.CIS_EVT b = true) ∧ OnlyRegsEvr [Reg.CIS_EVT] s t)

/-- A read of a clean word returns it, of one with a single wrong bit the corrected word, counted, and of an
uncorrectable or poisoned one an error; a full write makes the word clean, a narrow one merges its
bytes; the scrubber goes word by word; an injection is taken in TEST alone; FILL ends in BOOT or in
SAFE-HOLD. Where the rules leave a point open it has the model's choice of log entry 44. -/
def Obligations.WordsAreReadWrittenAndScrubbed : Prop :=
  ∀ (s : State), s.wf = true →
    (∀ (r : Byte) (i : BitVec 26) (w : Fin 16), cached s r.toNat i.toNat = false → (sramWord s i.toNat).cond = .clean →
      Completes (.sramRead r i w) s fun t => t.busData = (sramWord s i.toNat).data.toNat ∧ t.busError = false ∧ t.sram = s.sram ∧ OnlyRegs [] s t)
    ∧ (∀ (r : Byte) (i : BitVec 26) (w : Fin 16), cached s r.toNat i.toNat = false → (sramWord s i.toNat).cond = .single →
      Completes (.sramRead r i w) s fun t => t.busData = (sramWord s i.toNat).data.toNat ∧ t.busError = false ∧ t.sram = s.sram ∧ rdN t Reg.ECC_CECNT = min (rdN s Reg.ECC_CECNT + 1) (2 ^ 32 - 1) ∧ bit t Reg.ECC_EVT 0 = true)
    ∧ (∀ (r : Byte) (i : BitVec 26) (w : Fin 16), cached s r.toNat i.toNat = false → (sramWord s i.toNat).cond = .multi →
      Completes (.sramRead r i w) s fun t => t.busError = true ∧ (sramWord t i.toNat).cond = .poison ∧ rdN t Reg.ECC_UECNT = min (rdN s Reg.ECC_UECNT + 1) (2 ^ 32 - 1)
        ∧ bit t Reg.ECC_EVT 1 = true ∧ rdN t Reg.ECC_UEADDR = 8 * i.toNat + 2 ^ 31 ∧ rdN t Reg.ECC_UESRC = r.toNat)
    ∧ (∀ (r : Byte) (i : BitVec 26) (w : Fin 16), cached s r.toNat i.toNat = false → (sramWord s i.toNat).cond = .poison →
      Completes (.sramRead r i w) s fun t => t.busError = true ∧ t.sram = s.sram ∧ rdN t Reg.ECC_PSNCNT = min (rdN s Reg.ECC_PSNCNT + 1) (2 ^ 32 - 1)
        ∧ bit t Reg.ECC_EVT 2 = true ∧ rdN t Reg.ECC_UEADDR = 8 * i.toNat + 2 ^ 29 + 2 ^ 31 ∧ rdN t Reg.ECC_UESRC = r.toNat)
    ∧ (∀ (r : Byte) (i : BitVec 26) (w : Fin 16) (c : CacheLine), cached s r.toNat i.toNat = true → draining s = false → l2Line s (i.toNat / 8) = some c → (c.words.getD (i.toNat % 8) ⟨0, .clean⟩).cond = .clean →
      Completes (.sramRead r i w) s fun t => t.busData = ((c.words.getD (i.toNat % 8) ⟨0, .clean⟩).data).toNat ∧ t.busError = false ∧ t.sram = s.sram ∧ OnlyRegs [] s t)
    ∧ (∀ (r : Byte) (i : BitVec 26) (d : DWord) (w : Fin 16), cached s r.toNat i.toNat = false → 6 ≤ r.toNat → armedFlip s i.toNat = none →
      Completes (.sramWrite r i d w) s fun t => t.busError = false ∧ sramWord t i.toNat = ⟨d, .clean⟩ ∧ (∀ j, j ≠ i.toNat → sramWord t j = sramWord s j) ∧ OnlyRegs [] s t)
    ∧ (∀ (r : Byte) (i : BitVec 26) (d : DWord) (w : Fin 16), r.toNat < 6 → touchesTag i.toNat 0xFF = true →
      Completes (.sramWrite r i d w) s fun t => t.busError = true ∧ bit t Reg.CIS_EVT 7 = true ∧ t.sram = s.sram ∧ OnlyRegsEvr [Reg.CIS_EVT] s t)
    ∧ (∀ (r : Byte) (i : BitVec 26) (d : DWord) (w : Fin 16), r.toNat < 6 → touchesTag i.toNat 0xFF = false → touchesZones s i.toNat = true →
      Completes (.sramWrite r i d w) s fun t => t.busError = true ∧ bit t Reg.ZTB_EVT 5 = true ∧ t.sram = s.sram)
    ∧ (∀ (r : Byte) (i : BitVec 26) (d : DWord) (w : Fin 16) (c : CacheLine), cached s r.toNat i.toNat = true → draining s = false → touchesTag i.toNat 0xFF = false → touchesZones s i.toNat = false → l2Line s (i.toNat / 8) = some c → c.words.length = 8 → (c.words.getD (i.toNat % 8) ⟨0, .clean⟩).cond = .clean →
      Completes (.sramWrite r i d w) s fun t => t.busError = false ∧ (l2Line t (i.toNat / 8)).map (fun y => (y.dirty, y.words[i.toNat % 8]?)) = some (true, some ⟨d, .clean⟩) ∧ t.sram = s.sram)
    ∧ (∀ (r : Byte) (i : BitVec 26) (d : DWord) (m : Byte) (w : Fin 16), cached s r.toNat i.toNat = false → 6 ≤ r.toNat → m.toNat ≠ 0xFF → armedFlip s i.toNat = none → (sramWord s i.toNat).cond = .clean →
      Completes (.narrowWrite r i d m w) s fun t => t.busError = false ∧ sramWord t i.toNat = ⟨BitVec.ofNat 64 (mergeBytes (sramWord s i.toNat).data.toNat d.toNat m.toNat), .clean⟩ ∧ OnlyRegs [] s t)
    ∧ (∀ (r : Byte) (i : BitVec 26) (d : DWord) (m : Byte) (w : Fin 16), cached s r.toNat i.toNat = false → 6 ≤ r.toNat → m.toNat ≠ 0xFF → (sramWord s i.toNat).cond = .multi →
      Completes (.narrowWrite r i d m w) s fun t => t.busError = true ∧ bit t Reg.ECC_EVT 3 = true ∧ (sramWord t i.toNat).cond = .poison)
    ∧ (∀ (r : Byte) (i : BitVec 26) (d : DWord) (m : Byte) (w : Fin 16), cached s r.toNat i.toNat = false → 6 ≤ r.toNat → m.toNat ≠ 0xFF → (sramWord s i.toNat).cond = .poison →
      Completes (.narrowWrite r i d m w) s fun t => t.busError = true ∧ t.sram = s.sram)
    ∧ (∀ (i : Nat) (l : List Nat), s.ecc.fixes = i :: l → (l.contains i) = false → (sramWord s i).cond = .single → armedFlip s i = none →
      Completes .ceWriteback s fun t => t.ecc.fixes = l ∧ sramWord t i = ⟨(sramWord s i).data, .clean⟩ ∧ OnlyRegs [] s t)
    ∧ (s.ecc.fixes = [] →
      Completes .ceWriteback s fun t => t = s)
    ∧ (∀ (bad : Word) (failed : BitVec 4), mode s = Mode.fill → s.sys.resetLow = false → failed.toNat = 0 →
      Completes (.fillEnd bad failed) s fun t => t.sram = [] ∧ bit t Reg.ECC_STS 0 = true ∧ mode t = Mode.boot ∧ rdN t Reg.ECC_FILLERR = min (rdN s Reg.ECC_FILLERR + bad.toNat) (2 ^ 32 - 1))
    ∧ (∀ (bad : Word) (failed : BitVec 4), mode s = Mode.fill → s.sys.resetLow = false → s.sys.powerLost = false → failed.toNat ≠ 0 →
      Completes (.fillEnd bad failed) s fun t => getF t Reg.ECC_STS 4 4 = failed.toNat ∧ mode t = Mode.safeHold ∧ bit t Reg.SYS_SHALL ShCause.sram = true)
    ∧ (∀ (bad : Word) (failed : BitVec 4), mode s ≠ Mode.fill →
      Completes (.fillEnd bad failed) s fun t => t = s)
    ∧ (bit s Reg.ECC_STS 8 = true →
      Completes .scrubRead s fun t => rdN t Reg.ECC_SCRUB_POS = 8 * (((getF s Reg.ECC_SCRUB_POS 3 26) + 1) % 2 ^ 26))
    ∧ (bit s Reg.ECC_STS 8 = true → (getF s Reg.ECC_SCRUB_POS 3 26) = 2 ^ 26 - 1 →
      Completes .scrubRead s fun t => rdN t Reg.ECC_SCRUB_LAPS = (rdN s Reg.ECC_SCRUB_LAPS + 1) % 2 ^ 32 ∧ rdN t Reg.ECC_SCRUB_LAP = (s.clock - s.ecc.lapStart) / 1000 % 2 ^ 32)
    ∧ (bit s Reg.ECC_STS 8 = false →
      Completes .scrubRead s fun t => t = s)
    ∧ (bit s Reg.ECC_STS 8 = true → s.ecc.late = false → 1000 * rdN s Reg.ECC_SCRUB_LIM < s.clock - s.ecc.lapStart →
      Completes .scrublate s fun t => bit t Reg.ECC_EVT 5 = true ∧ t.ecc.late = true ∧ OnlyRegsEvr [Reg.ECC_EVT] s t)
    ∧ (∀ (v : Word),
      Completes (.scrubenWrite v) s fun t => bit t Reg.ECC_STS 8 = (v.toNat.testBit 0 && bit s Reg.ECC_STS 0) ∧ bit t Reg.ECC_CTL 1 = v.toNat.testBit 1 ∧ OnlyRegs [Reg.ECC_CTL, Reg.ECC_STS] s t)
    ∧ (∀ (v : DWord), mode s = Mode.test →
      Completes (.eccInj v) s fun t => rd64 t Reg.ECC_INJ = bitsOf v.toNat 3 26 * 2 ^ 3 + bitsOf v.toNat 32 15 * 2 ^ 32 + bitsOf v.toNat 63 1 * 2 ^ 63)
    ∧ (∀ (v : DWord), mode s ≠ Mode.test →
      Completes (.eccInj v) s fun t => OnlyRegs [] s t ∧ t.sram = s.sram)
    ∧ (∀ (v : Word), v.toNat.testBit 0 = true →
      Completes (.celclr v) s fun t => ∀ n : Fin 32, (rd64 t (Reg.ECC_CELOG n)).testBit 63 = false)
    ∧ (∀ (v : Word), v.toNat.testBit 0 = false →
      Completes (.celclr v) s fun t => OnlyRegs [] s t)

/-- A miss of a set with a free way brings its line into L2 from the Basin, or from the SRAM where neither
the Basin nor the write-back buffer holds it; the oldest write-back goes to the SRAM; turning L2 off
begins a drain, whose end leaves no line in L2, the Basin and the write-back buffer; the windows are
written only with L2 off; an expired watchdog is counted, and CCH_WDSTS names its core, or all six.
Where the rules leave a point open it has the model's choice of log entry 45. -/
def Obligations.CachesAndWatchdogs : Prop :=
  ∀ (s : State), s.wf = true →
    (∀ (r : Fin 6) (l : BitVec 23) (w : Fin 16) (c : CacheLine), l2Serves s l.toNat = true → l2Line s l.toNat = none → (l2Set s l.toNat).length < 16 → s.cch.basin.find? (fun y => y.line == l.toNat) = some c →
      Completes (.l2Miss r l w) s fun t => l2Line t l.toNat = some c ∧ rdN t Reg.CCH_BASINHIT = (rdN s Reg.CCH_BASINHIT + 1) % 2 ^ 32 ∧ t.sram = s.sram
        ∧ (t.cch.basin.all fun y => y.line != l.toNat) = true)
    ∧ (∀ (r : Fin 6) (l : BitVec 23) (w : Fin 16), l2Serves s l.toNat = true → l2Line s l.toNat = none → (l2Set s l.toNat).length < 16 → (s.cch.basin.any fun y => y.line == l.toNat) = false → (s.cch.wback.any fun y => y.line == l.toNat) = false → ((List.range 8).all fun j => (sramWord s (8 * l.toNat + j)).cond == .clean) = true →
      Completes (.l2Miss r l w) s fun t => (l2Line t l.toNat).map (fun y => (y.dirty, y.words.map SramWord.data)) = some (false, (List.range 8).map fun j => (sramWord s (8 * l.toNat + j)).data) ∧ t.sram = s.sram)
    ∧ (∀ (r : Fin 6) (l : BitVec 23) (w : Fin 16), l2Serves s l.toNat = false ∨ (l2Line s l.toNat).isSome = true →
      Completes (.l2Miss r l w) s fun t => t = s)
    ∧ (∀ (c : CacheLine) (l : List CacheLine), s.cch.wback = c :: l → (c.words.all fun y => y.cond == .clean) = true → bit s (Reg.ECC_INJ + 4) 31 = false →
      Completes .writebackIssue s fun t => t.cch.wback = l ∧ getF t Reg.CCH_STS 8 4 = l.length % 16 ∧ ∀ j : Fin 8, sramWord t (8 * c.line + j) = c.words.getD j ⟨0, .clean⟩)
    ∧ (s.cch.wback = [] →
      Completes .writebackIssue s fun t => t = s)
    ∧ (l2On s = true → draining s = false →
      Completes .l2enClear s fun t => bit t Reg.CCH_CTL 0 = false ∧ draining t = true ∧ OnlyRegs [Reg.CCH_CTL, Reg.CCH_STS] s t)
    ∧ (l2On s = false → draining s = false →
      Completes .l2enSet s fun t => bit t Reg.CCH_CTL 0 = true ∧ l2On t = true ∧ basinOn t = bit s Reg.CCH_CTL 1 ∧ t.cch = s.cch)
    ∧ (draining s = true →
      Completes .l2enSet s fun t => t.cch.again = true ∧ bit t Reg.CCH_CTL 0 = true ∧ OnlyRegs [Reg.CCH_CTL] s t)
    ∧ (draining s = true →
      Completes .draindone s fun t => draining t = false ∧ l2On t = s.cch.again ∧ t.cch.l2 = [] ∧ t.cch.basin = [] ∧ t.cch.wback = [] ∧ bit t Reg.CCH_EVT 0 = true)
    ∧ (draining s = false →
      Completes .draindone s fun t => t = s)
    ∧ (draining s = false → basinOn s = true →
      Completes .basinenClear s fun t => bit t Reg.CCH_CTL 1 = false ∧ basinOn t = false ∧ t.cch.basin = [])
    ∧ (∀ (n : Fin 4) (size : Bool) (v : Word), l2On s = false → draining s = false →
      Completes (.ncWindowWrite n size v) s fun t => getF t (if size then Reg.CCH_NCSIZE n else Reg.CCH_NCBASE n) 12 17 = bitsOf v.toNat 12 17 ∧ OnlyRegs [(if size then Reg.CCH_NCSIZE n else Reg.CCH_NCBASE n)] s t)
    ∧ (∀ (n : Fin 4) (size : Bool) (v : Word), l2On s = true ∨ draining s = true →
      Completes (.ncWindowWrite n size v) s fun t => bit t Reg.CCH_EVT 5 = true ∧ OnlyRegsEvr [Reg.CCH_EVT] s t)
    ∧ (∀ (c : Fin 6) (v : Word), v.toNat.testBit 0 = true →
      Completes (.wdkick c v) s fun t => (t.cch.kicks[c.val]?).all (fun x => x == s.clock) = true ∧ OnlyRegs [] s t)
    ∧ (∀ (c : Fin 6) (v : Word), v.toNat.testBit 0 = false →
      Completes (.wdkick c v) s fun t => t.cch = s.cch ∧ OnlyRegs [] s t)
    ∧ (∀ (c : Fin 6), wdExpired s c = true →
      Completes (.watchdogReset c) s fun t => getF t Reg.SYS_RSTCAUSE 0 3 = RstKind.watchdog ∧ bit t Reg.CCH_EVT 4 = true ∧ rdN t Reg.CCH_WDCNT = min (rdN s Reg.CCH_WDCNT + 1) (2 ^ 32 - 1)
        ∧ rdN t Reg.CCH_WDSTS = (if bit s Reg.CCH_WDCTL 8 then 0x13F else 2 ^ c.val))
    ∧ (∀ (c : Fin 6), wdExpired s c = false →
      Completes (.watchdogReset c) s fun t => t = s)

/-- A posted descriptor becomes a job, or CPH_FWSTS says why not; the next waiting job starts in a cluster
or ends with the status of the first rule it breaks; each operation encrypts or decrypts with AES-GCM
and reports a failed tag or CRC; the end of an invocation delivers its result; a mask reseed is counted,
an entropy failure stops the DRBG, a read of CPH_RNG draws only from a sound DRBG, and the known-answer
tests show the clusters that pass. Where the rules leave a point open it has the model's choice of log
entries 4, 8, 47 and 69. -/
def Obligations.CipherJobsRun : Prop :=
  ∀ (s : State), s.wf = true →
    (∀ (v : DWord), v.toNat % 64 = 0 → v.toNat < 2 ^ 29 → firmwareJobs s < 64 →
      Completes (.cipherJobPost v) s fun t => getF t Reg.CPH_FWSTS 0 2 = 0 ∧ t.cph.nextJob = s.cph.nextJob + 1 ∧ (t.cph.jobs.getLast?.map fun j => (j.id, j.desc, j.status, j.arrived))
          = some (s.cph.nextJob, some v.toNat, if descOk s v.toNat then none else some CphStatus.badDesc, s.clock))
    ∧ (∀ (v : DWord), v.toNat % 64 ≠ 0 →
      Completes (.cipherJobPost v) s fun t => getF t Reg.CPH_FWSTS 0 2 = 2 ∧ t.cph = s.cph)
    ∧ (∀ (v : DWord), v.toNat % 64 = 0 → 64 ≤ firmwareJobs s →
      Completes (.cipherJobPost v) s fun t => getF t Reg.CPH_FWSTS 0 2 = 1 ∧ t.cph = s.cph)
    ∧ (∀ (j : CphJob) (c : Nat) (n : Nat), bit s Reg.CPH_CTL 0 = true → pickJob s = some j → pickCluster s = some c → jobSlot s j = some n → keyAt s n = none →
      Completes .invocationStart s fun t => (jobAt t j.id).map CphJob.status = some (some CphStatus.noKey) ∧ OnlyRegs [] s t)
    ∧ (∀ (j : CphJob) (c : Nat) (n : Nat) (x : KeySlot), bit s Reg.CPH_CTL 0 = true → pickJob s = some j → pickCluster s = some c → jobSlot s j = some n → keyAt s n = some x → x.ending = none → useAdmits x j = false →
      Completes .invocationStart s fun t => (jobAt t j.id).map CphJob.status = some (some CphStatus.badUse) ∧ OnlyRegs [] s t)
    ∧ (∀ (j : CphJob) (c : Nat) (n : Nat) (x : KeySlot), bit s Reg.CPH_CTL 0 = true → pickJob s = some j → pickCluster s = some c → jobSlot s j = some n → keyAt s n = some x → x.ending = none → useAdmits x j = true → j.encrypts = true → x.use = KeyUse.atRest → 2 ^ 48 ≤ x.counter →
      Completes .invocationStart s fun t => (jobAt t j.id).map CphJob.status = some (some CphStatus.exhausted) ∧ OnlyRegs [] s t)
    ∧ (∀ (j : CphJob) (c : Nat) (n : Nat) (x : KeySlot), bit s Reg.CPH_CTL 0 = true → pickJob s = some j → pickCluster s = some c → jobSlot s j = some n → keyAt s n = some x → x.ending = none → useAdmits x j = true → j.encrypts = false →
      Completes .invocationStart s fun t => (jobAt t j.id).map (fun y => (y.cluster, y.status, y.key)) = some (some c, none, x.slot) ∧ OnlyRegs [] s t)
    ∧ (∀ (j : CphJob) (c : Nat) (n : Nat) (x : KeySlot), bit s Reg.CPH_CTL 0 = true → pickJob s = some j → pickCluster s = some c → jobSlot s j = some n → keyAt s n = some x → x.slot = n → x.ending = none → useAdmits x j = true → j.encrypts = true → x.use = KeyUse.atRest → x.counter < 2 ^ 48 → blockBound x.counter ≤ pairBound s x.fixed x.kcv →
      Completes .invocationStart s fun t => (jobAt t j.id).map (fun y => (y.cluster, y.iv)) = some (some c, x.fixed * 2 ^ 64 + x.counter) ∧ (keyAt t x.slot).map KeySlot.counter = some (x.counter + 1))
    ∧ (∀ (j : CphJob) (c : Nat) (n : Nat) (x : KeySlot), bit s Reg.CPH_CTL 0 = true → pickJob s = some j → pickCluster s = some c → jobSlot s j = some n → keyAt s n = some x → x.ending = none → useAdmits x j = true → j.encrypts = true → x.use = KeyUse.atRest → x.counter < 2 ^ 48 → pairBound s x.fixed x.kcv < blockBound x.counter →
      Completes .invocationStart s fun t => (jobAt t j.id).map (fun y => (y.cluster, y.journal)) = some (none, true) ∧ rdN t Reg.CPH_NJWCNT = min (rdN s Reg.CPH_NJWCNT + 1) (2 ^ 32 - 1)
        ∧ bit t Reg.CPH_EVT 5 = true)
    ∧ (bit s Reg.CPH_CTL 0 = false →
      Completes .invocationStart s fun t => t = s)
    ∧ (∀ (n : Nat) (j : CphJob), jobRuns s n 1 = some j → readable s j.src 4096 = false →
      Completes (.sectorEnc n) s fun t => (jobAt t n).map CphJob.status = some (some CphStatus.memErr) ∧ t.sram = s.sram ∧ OnlyRegs [] s t)
    ∧ (∀ (n : Nat) (j : CphJob), jobRuns s n 2 = some j → readable s j.src 4096 = false →
      Completes (.sectorDec n) s fun t => (jobAt t n).map CphJob.status = some (some CphStatus.memErr) ∧ t.sram = s.sram ∧ OnlyRegs [] s t)
    ∧ (∀ (n : Nat) (j : CphJob), jobRuns s n 1 = some j → readable s j.src 4096 = true → j.src % 4096 = 0 → j.src < 4096 * numBuffers →
      Completes (.sectorEnc n) s fun t => (jobAt t n).map CphJob.status = some (some CphStatus.ok)
        ∧ sramBytes t j.src 4096 = (Crypto.gcmCrypt (jobKey s j) (jobIv j) (sramBytes s j.src 4096 ++ leBytes 8 (Crypto.crc64 j.lba (sramBytes s j.src 4096)))).take 4096 ∧ OnlyRegs [] s t)
    ∧ (∀ (n : Nat) (j : CphJob), jobRuns s n 2 = some j → readable s j.src 4096 = true → readable s (tagMeta (j.src / 4096)) 36 = true → j.src % 4096 = 0 → j.src < 4096 * numBuffers →
      Completes (.sectorDec n) s fun t => (¬ Crypto.gcmTag (jobKey s j) (sramBytes s (tagMeta (j.src / 4096)) 12) (sectorAad j) (sramBytes s j.src 4096 ++ sramBytes s (tagMeta (j.src / 4096) + 28) 8) = sramBytes s (tagMeta (j.src / 4096) + 12) 16 →
          (jobAt t n).map CphJob.status = some (some CphStatus.tagFail) ∧ rdN t Reg.CPH_TAGFAIL = min (rdN s Reg.CPH_TAGFAIL + 1) (2 ^ 32 - 1) ∧ bit t Reg.CPH_EVT 8 = true ∧ sramBytes t j.src 4096 = List.replicate 4096 0)
        ∧ (Crypto.gcmTag (jobKey s j) (sramBytes s (tagMeta (j.src / 4096)) 12) (sectorAad j) (sramBytes s j.src 4096 ++ sramBytes s (tagMeta (j.src / 4096) + 28) 8) = sramBytes s (tagMeta (j.src / 4096) + 12) 16 → (jobAt t n).map CphJob.status = some (some CphStatus.ok) ∨ (jobAt t n).map CphJob.status = some (some CphStatus.crcFail)))
    ∧ (∀ (n : Nat) (j : CphJob), jobRuns s n 3 = some j → readable s j.src j.len = true → readable s j.aad j.aadLen = true →
      Completes (.gcmEnc n) s fun t => (jobAt t n).map CphJob.status = some (some CphStatus.ok)
        ∧ sramBytes t j.dst j.len = Crypto.gcmCrypt (jobKey s j) (jobIv j) (sramBytes s j.src j.len) ∧ OnlyRegs [] s t)
    ∧ (∀ (n : Nat) (j : CphJob), jobRuns s n 4 = some j → readable s j.src (j.len + 16) = true → readable s j.aad j.aadLen = true →
      Completes (.gcmDec n) s fun t => (Crypto.gcmTag (jobKey s j) (jobIv j) (sramBytes s j.aad j.aadLen) (sramBytes s j.src j.len) = sramBytes s (j.src + j.len) 16 → (jobAt t n).map CphJob.status = some (some CphStatus.ok) ∧ sramBytes t j.dst j.len = Crypto.gcmCrypt (jobKey s j) (jobIv j) (sramBytes s j.src j.len))
        ∧ (¬ Crypto.gcmTag (jobKey s j) (jobIv j) (sramBytes s j.aad j.aadLen) (sramBytes s j.src j.len) = sramBytes s (j.src + j.len) 16 → (jobAt t n).map CphJob.status = some (some CphStatus.tagFail) ∧ sramBytes t j.dst j.len = List.replicate j.len 0 ∧ rdN t Reg.CPH_TAGFAIL = min (rdN s Reg.CPH_TAGFAIL + 1) (2 ^ 32 - 1)))
    ∧ (∀ (n : Nat) (j : CphJob), jobRuns s n 4 = some j → readable s j.src (j.len + 16) = false →
      Completes (.gcmDec n) s fun t => (jobAt t n).map CphJob.status = some (some CphStatus.memErr) ∧ t.sram = s.sram)
    ∧ (∀ (n d st : Nat) (j : CphJob), s.cph.jobs = [j] → j.id = n → j.source = 5 → j.desc = some d → j.status = some st → j.ended = false →
      Completes (.invocationEnd n) s fun t => rdN t Reg.CPH_INVCNT = (rdN s Reg.CPH_INVCNT + 1) % 2 ^ 32 ∧ jobAt t n = none ∧ t.cph.fwcq = s.cph.fwcq ++ [d] ∧ bit t Reg.CPH_EVT 9 = true ∧ sram8 t (d + 48) = st % 256)
    ∧ (∀ (n : Nat) (j : CphJob), jobAt s n = some j → j.status = none →
      Completes (.invocationEnd n) s fun t => t = s)
    ∧ (∀ (d : Nat) (l : List Nat), s.cph.fwcq = d :: l →
      Completes .cphFwcqPop s fun t => t.busData = d + 2 ^ 31 ∧ t.cph.fwcq = l ∧ OnlyRegs [] s t)
    ∧ (s.cph.fwcq = [] →
      Completes .cphFwcqPop s fun t => t.busData = 0 ∧ t.cph = s.cph)
    ∧ (drbgOk s = true →
      Completes .maskReseed s fun t => rdN t Reg.CPH_MRSCNT = (rdN s Reg.CPH_MRSCNT + 1) % 2 ^ 32 ∧ t.cph.generated = (s.cph.generated + 1) % 2 ^ 20)
    ∧ (drbgOk s = false →
      Completes .maskReseed s fun t => bit t Reg.CPH_EVT 4 = true ∧ t.cph = s.cph ∧ OnlyRegsEvr [Reg.CPH_EVT] s t)
    ∧ (Completes .entfail s fun t => drbgOk t = false ∧ bit t Reg.CPH_RNGSTS 2 = true ∧ bit t Reg.CPH_RNGSTS 0 = false ∧ bit t Reg.CPH_STS 16 = false ∧ bit t Reg.CPH_EVT 4 = true
        ∧ rdN t Reg.CPH_ENTFCNT = min (rdN s Reg.CPH_ENTFCNT + 1) (2 ^ 32 - 1))
    ∧ (drbgOk s = true →
      Completes .rngRead s fun t => bit t Reg.CPH_RNGSTS 0 = true ∧ t.draws = s.draws + 1 ∧ t.busError = false ∧ OnlyRegs [Reg.CPH_RNGSTS] s t)
    ∧ (drbgOk s = false →
      Completes .rngRead s fun t => bit t Reg.CPH_RNGSTS 0 = false ∧ t.busData = 0 ∧ OnlyRegs [Reg.CPH_RNGSTS] s t)
    ∧ (∀ (pass : BitVec 40) (drbg : Bool), mode s = Mode.boot →
      Completes (.kat pass drbg) s fun t => rd64 t Reg.CPH_CLOK = pass.toNat ∧ bit t Reg.CPH_RNGSTS 1 = drbg ∧ (pass.toNat ≠ 2 ^ 40 - 1 → bit t Reg.CPH_EVT 7 = true))
    ∧ (∀ (pass : BitVec 40) (drbg : Bool), mode s = Mode.test → bit s Reg.CPH_CTL 16 = true → pass.toNat ≠ 0 →
      Completes (.kat pass drbg) s fun t => rd64 t Reg.CPH_CLOK = pass.toNat ∧ rd t Reg.CPH_RNGSTS = rd s Reg.CPH_RNGSTS ∧ bit t Reg.CPH_CTL 16 = false)
    ∧ (∀ (pass : BitVec 40) (drbg : Bool), mode s ≠ Mode.boot → mode s ≠ Mode.test ∨ bit s Reg.CPH_CTL 16 = false →
      Completes (.kat pass drbg) s fun t => t = s)

/-- LOAD puts the key of CPH_KDATA into its slot, clears CPH_KDATA and holds the pair of an AT-REST key, or
reports the first check that fails; DESTROY and RETIRE end when no invocation runs on the slot; a record
becomes durable or is tried again, a full half is compacted into the other, and the scan of BOOT gives
the pairs. Where the rules leave a point open it has the model's choice of log entries 4, 48 and 69. -/
def Obligations.KeysAndNonces : Prop :=
  ∀ (s : State), s.wf = true →
    (loadCheck s ≠ 0 →
      Completes .keyLoad s fun t => getF t Reg.CPH_KSTS 1 3 = loadCheck s ∧ bit t Reg.CPH_EVT 1 = true ∧ t.cph = s.cph)
    ∧ (loadCheck s = 0 →
      Completes .keyLoad s fun t => getF t Reg.CPH_KSTS 1 3 = 0 ∧ (keyAt t (selSlot s)).map (fun y => (y.key.value, y.use, y.kcv, y.fixed)) = some (keyData s, selUse s, checkValue (keyData s), if selUse s = KeyUse.atRest then rdN s Reg.CPH_KFIX else 0)
        ∧ (∀ i : Fin 8, rdN t (Reg.CPH_KDATA i) = 0) ∧ (selUse s = KeyUse.atRest → (pairAt t (rdN s Reg.CPH_KFIX) (checkValue (keyData s))).isSome = true))
    ∧ (∀ (x : KeySlot), keyBusy s = false → keyAt s (selSlot s) = some x →
      Completes .keyDestroy s fun t => (keyAt t (selSlot s)).map KeySlot.ending = some (some false) ∧ bit t Reg.CPH_KSTS 0 = true ∧ getF t Reg.CPH_KSTS 1 3 = 0 ∧ OnlyRegs [Reg.CPH_KSTS] s t)
    ∧ (keyBusy s = false → keyAt s (selSlot s) = none →
      Completes .keyDestroy s fun t => getF t Reg.CPH_KSTS 1 3 = KeyResult.notLoaded ∧ bit t Reg.CPH_EVT 1 = true ∧ t.cph = s.cph)
    ∧ (∀ (x : KeySlot), keyBusy s = false → keyAt s (selSlot s) = some x →
      Completes .keyRetire s fun t => (keyAt t (selSlot s)).map KeySlot.ending = some (some true) ∧ bit t Reg.CPH_KSTS 0 = true ∧ getF t Reg.CPH_KSTS 1 3 = 0 ∧ OnlyRegs [Reg.CPH_KSTS] s t)
    ∧ (keyBusy s = false → keyAt s (selSlot s) = none →
      Completes .keyRetire s fun t => getF t Reg.CPH_KSTS 1 3 = KeyResult.notLoaded ∧ bit t Reg.CPH_EVT 1 = true ∧ t.cph = s.cph)
    ∧ (∀ (x : KeySlot), (s.cph.keys.find? fun y => y.ending.isSome) = some x → (s.cph.jobs.any fun j => j.running && j.key == x.slot) = false →
      Completes .kdone s fun t => keyAt t x.slot = none ∧ bit t Reg.CPH_KSTS 0 = false ∧ bit t Reg.CPH_EVT 0 = true
        ∧ (x.ending = some true → x.use = KeyUse.atRest → (t.cph.records.contains ⟨2, x.fixed, x.kcv, 0⟩) = true))
    ∧ ((s.cph.keys.any fun y => y.ending.isSome) = false →
      Completes .kdone s fun t => t = s)
    ∧ (∀ (r : NonceRecord) (l : List NonceRecord), s.cph.records = r :: l → compacting s = false → getF s Reg.CPH_NJSTS 15 17 < 65536 →
      Completes (.journalRecordDurable true) s fun t => t.cph.records = l ∧ t.cph.pairs = addRecord r s.cph.pairs ∧ t.cph.seq = s.cph.seq + 1 ∧ getF t Reg.CPH_NJSTS 15 17 = getF s Reg.CPH_NJSTS 15 17 + 1
        ∧ t.cph.jobs = s.cph.jobs.map fun j => if waitsFor s r j then { j with journal := false } else j)
    ∧ (∀ (r : NonceRecord) (l : List NonceRecord), s.cph.records = r :: l → compacting s = false → s.cph.tries < 2 →
      Completes (.journalRecordDurable false) s fun t => t.cph.records = s.cph.records ∧ t.cph.tries = s.cph.tries + 1 ∧ t.cph.pairs = s.cph.pairs ∧ rdN t Reg.CPH_NJFAIL = min (rdN s Reg.CPH_NJFAIL + 1) (2 ^ 32 - 1))
    ∧ (∀ (r : NonceRecord) (l : List NonceRecord), s.cph.records = r :: l → compacting s = false → 2 ≤ s.cph.tries →
      Completes (.journalRecordDurable false) s fun t => t.cph.records = l ∧ bit t Reg.CPH_EVT 6 = true ∧ t.cph.pairs = s.cph.pairs
        ∧ t.cph.jobs = s.cph.jobs.map fun j => if waitsFor s r j then { j with status := some CphStatus.noRes } else j)
    ∧ (∀ (ok : Bool), s.cph.records = [] ∨ compacting s = true →
      Completes (.journalRecordDurable ok) s fun t => t = s)
    ∧ (compacting s = true →
      Completes .compaction s fun t => compacting t = false ∧ getF t Reg.CPH_NJSTS 1 1 = 1 - getF s Reg.CPH_NJSTS 1 1 ∧ t.cph.pairs = s.cph.pairs.filter (fun p => !p.retired)
        ∧ getF t Reg.CPH_NJSTS 15 17 = (s.cph.pairs.filter fun p => !p.retired).length % 2 ^ 17)
    ∧ (compacting s = false →
      Completes .compaction s fun t => t = s)
    ∧ (bit s Reg.CPH_NJSTS 0 = true →
      Completes .journalScanEnd s fun t => bit t Reg.CPH_NJSTS 0 = false ∧ bit t Reg.CPH_STS 17 = true ∧ t.cph.pairs = scanPairs ((usedPlaces s).filterMap fun i => (readNonce s i).map Prod.snd)
        ∧ t.nand = s.nand)
    ∧ (bit s Reg.CPH_NJSTS 0 = false →
      Completes .journalScanEnd s fun t => t = s)

/-- An OTP operation starts, or is refused with the reason; when it ends it has set its bits and never
cleared one; a verification and a signing run one at a time and report their result; a write to a locked
limit lowers it, or leaves it and is counted where it would loosen it. Where the rules leave a point
open it has the model's choice of log entries 49 and 50. -/
def Obligations.TrustIsKept : Prop :=
  ∀ (s : State), s.wf = true →
    (∀ (n : Fin 4), s.sec.otp = none → n.val ≠ 0 → keyHash s n = 0 →
      Completes (.khprog n) s fun t => t.sec.otp = some (.keyHash n (khHash s)) ∧ bit t Reg.SEC_OTPRES 31 = true ∧ t.sec.keyHash = s.sec.keyHash ∧ t.sec.revoke = s.sec.revoke ∧ t.sec.arb = s.sec.arb
        ∧ OnlyRegs [Reg.SEC_OTPRES] s t)
    ∧ (∀ (n : Fin 4), s.sec.otp = none → n.val ≠ 0 → keyHash s n ≠ 0 →
      Completes (.khprog n) s fun t => getF t Reg.SEC_OTPRES 0 3 = OtpRes.notEmpty ∧ bit t Reg.SEC_EVT 3 = true ∧ t.sec = s.sec ∧ OnlyRegsEvr [Reg.SEC_OTPRES, Reg.SEC_EVT] s t)
    ∧ (s.sec.otp = none →
      Completes (.khprog 0) s fun t => getF t Reg.SEC_OTPRES 0 3 = OtpRes.range ∧ bit t Reg.SEC_EVT 3 = true ∧ t.sec = s.sec ∧ OnlyRegsEvr [Reg.SEC_OTPRES, Reg.SEC_EVT] s t)
    ∧ (∀ (n : Fin 4), s.sec.otp = none → s.sec.runKey ≠ n.val ∨ bit s Reg.SEC_STS 0 = false → lastKey s n = false →
      Completes (.revcmd n) s fun t => t.sec.otp = some (.revoke n) ∧ bit t Reg.SEC_OTPRES 31 = true ∧ t.sec.keyHash = s.sec.keyHash ∧ t.sec.revoke = s.sec.revoke ∧ t.sec.arb = s.sec.arb
        ∧ OnlyRegs [Reg.SEC_OTPRES] s t)
    ∧ (∀ (n : Fin 4), s.sec.otp = none → s.sec.runKey = n.val → bit s Reg.SEC_STS 0 = true →
      Completes (.revcmd n) s fun t => getF t Reg.SEC_OTPRES 0 3 = OtpRes.runKey ∧ bit t Reg.SEC_EVT 3 = true ∧ t.sec = s.sec ∧ OnlyRegsEvr [Reg.SEC_OTPRES, Reg.SEC_EVT] s t)
    ∧ (∀ (v : BitVec 7), s.sec.otp = none → s.sec.arb < v.toNat → v.toNat ≤ 64 → v.toNat ≤ getF s Reg.SEC_FWSVN 0 7 →
      Completes (.arbadv v) s fun t => t.sec.otp = some (.arb v.toNat) ∧ bit t Reg.SEC_OTPRES 31 = true ∧ t.sec.keyHash = s.sec.keyHash ∧ t.sec.revoke = s.sec.revoke ∧ t.sec.arb = s.sec.arb
        ∧ OnlyRegs [Reg.SEC_OTPRES] s t)
    ∧ (∀ (v : BitVec 7), s.sec.otp = none → v.toNat ≤ s.sec.arb ∨ 64 < v.toNat ∨ getF s Reg.SEC_FWSVN 0 7 < v.toNat →
      Completes (.arbadv v) s fun t => getF t Reg.SEC_OTPRES 0 3 = OtpRes.range ∧ bit t Reg.SEC_EVT 3 = true ∧ t.sec = s.sec ∧ OnlyRegsEvr [Reg.SEC_OTPRES, Reg.SEC_EVT] s t)
    ∧ (∀ (v : BitVec 7) (op : OtpOp), s.sec.otp = some op →
      Completes (.arbadv v) s fun t => t.sec = s.sec ∧ OnlyRegs [] s t)
    ∧ (∀ (n h : Nat), s.sec.otp = some (.keyHash n h) → n < s.sec.keyHash.length →
      Completes (.otpdone true) s fun t => keyHash t n = h ∧ t.sec.otp = none ∧ getF t Reg.SEC_OTPRES 0 3 = 0 ∧ bit t Reg.SEC_OTPRES 31 = false ∧ bit t Reg.SEC_EVT 2 = true)
    ∧ (∀ (n : Nat), s.sec.otp = some (.revoke n) →
      Completes (.otpdone true) s fun t => t.sec.revoke = Nat.lor s.sec.revoke (2 ^ n) ∧ t.sec.otp = none ∧ getF t Reg.SEC_OTPRES 0 3 = 0 ∧ bit t Reg.SEC_OTPRES 31 = false ∧ bit t Reg.SEC_EVT 2 = true)
    ∧ (∀ (h : Nat), s.sec.otp = some (.arb h) →
      Completes (.otpdone true) s fun t => t.sec.arb = max s.sec.arb h ∧ getF t Reg.SEC_ARB 0 7 = max s.sec.arb h % 128 ∧ t.sec.otp = none ∧ getF t Reg.SEC_OTPRES 0 3 = 0 ∧ bit t Reg.SEC_OTPRES 31 = false ∧ bit t Reg.SEC_EVT 2 = true)
    ∧ (∀ (op : OtpOp), s.sec.otp = some op →
      Completes (.otpdone false) s fun t => t.sec.otp = none ∧ getF t Reg.SEC_OTPRES 0 3 = OtpRes.otpFail ∧ bit t Reg.SEC_OTPRES 31 = false ∧ bit t Reg.SEC_EVT 3 = true
        ∧ s.sec.arb ≤ t.sec.arb ∧ (∀ n : Fin 4, s.sec.revoke.testBit n = true → t.sec.revoke.testBit n = true))
    ∧ (∀ (ok : Bool), s.sec.otp = none →
      Completes (.otpdone ok) s fun t => t = s)
    ∧ (secBusy s = false →
      Completes .vcmd s fun t => t.sec.verify = some (getF s Reg.SEC_VSRC 0 29) ∧ rdN t Reg.SEC_VSTS = 1 ∧ OnlyRegs [Reg.SEC_VSTS] s t)
    ∧ (secBusy s = false →
      Completes .sgcmd s fun t => t.sec.sign = some (64 * getF s Reg.SEC_SGSRC 6 23) ∧ rdN t Reg.SEC_SGSTS = 1 ∧ OnlyRegs [Reg.SEC_SGSTS] s t)
    ∧ (secBusy s = true →
      Completes .vcmd s fun t => t.sec = s.sec ∧ OnlyRegs [] s t)
    ∧ (secBusy s = true →
      Completes .sgcmd s fun t => t.sec = s.sec ∧ OnlyRegs [] s t)
    ∧ (∀ (a : Nat), s.sec.verify = some a →
      Completes .vdone s fun t => t.sec.verify = none ∧ bit t Reg.SEC_VSTS 0 = false ∧ getF t Reg.SEC_VSTS 1 2 = (imgVerify s (sramImage s a)).1 ∧ bit t Reg.SEC_EVT 0 = true
        ∧ getF t Reg.SEC_VSTS 8 7 = imgSvn (sramImage s a) % 128 ∧ t.sram = s.sram ∧ OnlyRegsEvr [Reg.SEC_VSTS, Reg.SEC_EVT] s t)
    ∧ (∀ (a : Nat), s.sec.sign = some a →
      Completes .sgdone s fun t => t.sec.sign = none ∧ rdN t Reg.SEC_SGSTS = (if s.sec.idKey then 0 else 2) ∧ bit t Reg.SEC_EVT 1 = true ∧ t.draws = s.draws + (if s.sec.idKey then 384 else 0)
        ∧ (s.sec.idKey = false → t.sram = s.sram) ∧ OnlyRegsEvr [Reg.SEC_SGSTS, Reg.SEC_EVT] s t)
    ∧ (Completes .secLock s fun t => bit t Reg.SEC_LOCK 0 = true ∧ OnlyRegs [Reg.SEC_LOCK] s t)
    ∧ (∀ (o : BitVec 10) (v : Word) (w : Nat), sluLocked s = true → limitFloat (0x100000 + o.toNat) = false → (0x100000 + o.toNat) ≠ Reg.SLU_SHKHARD → limitWidth (0x100000 + o.toNat) = some w → v.toNat % 2 ^ w ≤ rdN s (0x100000 + o.toNat) →
      Completes (.limitWrite o v) s fun t => rdN t (0x100000 + o.toNat) = v.toNat % 2 ^ w ∧ rdN t Reg.SLU_LOOSENCNT = rdN s Reg.SLU_LOOSENCNT)
    ∧ (∀ (o : BitVec 10) (v : Word) (w : Nat), sluLocked s = true → limitFloat (0x100000 + o.toNat) = false → (0x100000 + o.toNat) ≠ Reg.SLU_SHKHARD → limitWidth (0x100000 + o.toNat) = some w → rdN s (0x100000 + o.toNat) < v.toNat % 2 ^ w →
      Completes (.limitWrite o v) s fun t => rdN t (0x100000 + o.toNat) = rdN s (0x100000 + o.toNat) ∧ rdN t Reg.SLU_LOOSENCNT = min (rdN s Reg.SLU_LOOSENCNT + 1) (2 ^ 32 - 1) ∧ bit t Reg.SLU_EVT 8 = true)
    ∧ (∀ (o : BitVec 10) (v : Word), sluLocked s = true → limitFloat (0x100000 + o.toNat) = true → v.toNat ≠ rdN s (0x100000 + o.toNat) → fpNonFinite v.toNat = false → 0 < fpVal v.toNat → fpVal v.toNat ≤ fpVal (rdN s (0x100000 + o.toNat)) →
      Completes (.limitWrite o v) s fun t => rdN t (0x100000 + o.toNat) = v.toNat ∧ OnlyRegs [(0x100000 + o.toNat)] s t)
    ∧ (∀ (o : BitVec 10) (v : Word), sluLocked s = true → limitFloat (0x100000 + o.toNat) = true → v.toNat ≠ rdN s (0x100000 + o.toNat) → fpNonFinite v.toNat = true ∨ fpVal v.toNat ≤ 0 ∨ fpVal (rdN s (0x100000 + o.toNat)) < fpVal v.toNat →
      Completes (.limitWrite o v) s fun t => rdN t (0x100000 + o.toNat) = rdN s (0x100000 + o.toNat) ∧ bit t Reg.SLU_EVT 8 = true ∧ rdN t Reg.SLU_LOOSENCNT = min (rdN s Reg.SLU_LOOSENCNT + 1) (2 ^ 32 - 1))
    ∧ (∀ (o : BitVec 10) (v : Word), sluLocked s = false →
      Completes (.limitWrite o v) s fun t => OnlyRegs [] s t)
    ∧ (∀ (v : Word), sluLocked s = true → 5 ≤ bitsOf v.toNat 0 8 → bitsOf v.toNat 0 8 ≤ 29 → bitsOf v.toNat 0 8 ≤ getF s Reg.SLU_PESHARD 0 8 →
      Completes (.workingLimitWrite false v) s fun t => getF t Reg.SLU_PESLIM 0 8 = bitsOf v.toNat 0 8 ∧ OnlyRegs [Reg.SLU_PESLIM] s t)
    ∧ (∀ (v : Word), sluLocked s = true → bitsOf v.toNat 0 8 < 5 ∨ 29 < bitsOf v.toNat 0 8 ∨ getF s Reg.SLU_PESHARD 0 8 < bitsOf v.toNat 0 8 →
      Completes (.workingLimitWrite false v) s fun t => OnlyRegs [] s t)
    ∧ (∀ (v : Word), sluLocked s = true → bitsOf v.toNat 0 16 ≤ getF s Reg.SLU_SHKHARD 0 16 → bitsOf v.toNat 16 16 ≤ getF s Reg.SLU_SHKHARD 16 16 →
      Completes (.workingLimitWrite true v) s fun t => rdN t Reg.SLU_SHKLIM = v.toNat ∧ OnlyRegs [Reg.SLU_SHKLIM] s t)

/-- BOOT ends in SURVEY with the firmware of a good slot, or in SAFE-HOLD; SURVEY reports its findings,
disables an actuator without identity and locks the limits; an identity access starts or is refused with
the reason, and ends with its word or without an acknowledgement; a request for a mode is done, refused
or pending, its steps end or fail, and a load ends in READY. Where the rules leave a point open it has
the model's choice of log entries 5, 31, 32, 52 and 53. -/
def Obligations.StartUpAndRequests : Prop :=
  ∀ (s : State), s.wf = true →
    (∀ (identity : Bool), mode s = Mode.boot → s.sys.resetLow = false → s.sys.powerLost = false →
      Completes (.bootEnd identity) s fun t => (bootSlot s = none → bit t Reg.SEC_STS 4 = true ∧ bit t Reg.SYS_SHALL ShCause.noFw = true ∧ mode t = Mode.safeHold)
        ∧ (bootSlot s ≠ none → bit s Reg.CPH_NJSTS 0 = false → s.sys.powerLost = false → bit t Reg.SEC_STS 0 = true ∧ (mode t = Mode.survey ∨ mode t = Mode.safeHold) ∧ bit t Reg.SEC_STS 8 = !identity))
    ∧ (∀ (identity : Bool), mode s ≠ Mode.boot →
      Completes (.bootEnd identity) s fun t => t = s)
    ∧ (∀ (pa pb hda : Option (List Byte)), mode s = Mode.survey → s.sys.resetLow = false → s.sys.powerLost = false →
      Completes (.surveyEnd pa pb hda) s fun t => getF t Reg.IDN_STS 0 2 = (findings (pa.map fun l => l.map BitVec.toNat) (pb.map fun l => l.map BitVec.toNat) (hda.map fun l => l.map BitVec.toNat)).1 ∧ getF t Reg.IDN_STS 2 2 = (findings (pa.map fun l => l.map BitVec.toNat) (pb.map fun l => l.map BitVec.toNat) (hda.map fun l => l.map BitVec.toNat)).2.1 ∧ getF t Reg.IDN_STS 4 2 = (findings (pa.map fun l => l.map BitVec.toNat) (pb.map fun l => l.map BitVec.toNat) (hda.map fun l => l.map BitVec.toNat)).2.2)
    ∧ (∀ (pa pb hda : Option (List Byte)), mode s = Mode.survey → s.sys.resetLow = false → s.sys.powerLost = false → (findings (pa.map fun l => l.map BitVec.toNat) (pb.map fun l => l.map BitVec.toNat) (hda.map fun l => l.map BitVec.toNat)).1 ≠ 0 →
      Completes (.surveyEnd pa pb hda) s fun t => disabled t 0 = true)
    ∧ (∀ (pa pb hda : Option (List Byte)), mode s = Mode.survey → s.sys.resetLow = false → s.sys.powerLost = false → (findings (pa.map fun l => l.map BitVec.toNat) (pb.map fun l => l.map BitVec.toNat) (hda.map fun l => l.map BitVec.toNat)).2.1 ≠ 0 →
      Completes (.surveyEnd pa pb hda) s fun t => disabled t 1 = true)
    ∧ (∀ (pa pb hda : Option (List Byte)), mode s = Mode.survey → s.sys.resetLow = false → s.sys.powerLost = false → (findings (pa.map fun l => l.map BitVec.toNat) (pb.map fun l => l.map BitVec.toNat) (hda.map fun l => l.map BitVec.toNat)).2.2 ≠ 0 →
      Completes (.surveyEnd pa pb hda) s fun t => bit t Reg.SYS_SHALL ShCause.hdaId = true)
    ∧ (∀ (pa pb hda : Option (List Byte)), mode s = Mode.survey → s.sys.resetLow = false → s.sys.powerLost = false → (findings (pa.map fun l => l.map BitVec.toNat) (pb.map fun l => l.map BitVec.toNat) (hda.map fun l => l.map BitVec.toNat)).1 ≠ 0 → (findings (pa.map fun l => l.map BitVec.toNat) (pb.map fun l => l.map BitVec.toNat) (hda.map fun l => l.map BitVec.toNat)).2.1 ≠ 0 →
      Completes (.surveyEnd pa pb hda) s fun t => bit t Reg.SYS_SHALL ShCause.noAct = true ∧ mode t = Mode.safeHold)
    ∧ (∀ (pa pb hda : Option (List Byte)), mode s = Mode.survey → s.sys.resetLow = false → s.sys.powerLost = false → (findings (pa.map fun l => l.map BitVec.toNat) (pb.map fun l => l.map BitVec.toNat) (hda.map fun l => l.map BitVec.toNat)).1 = 0 ∨ (findings (pa.map fun l => l.map BitVec.toNat) (pb.map fun l => l.map BitVec.toNat) (hda.map fun l => l.map BitVec.toNat)).2.1 = 0 → (findings (pa.map fun l => l.map BitVec.toNat) (pb.map fun l => l.map BitVec.toNat) (hda.map fun l => l.map BitVec.toNat)).2.2 = 0 → s.sys.offAtPowerA = false → s.sys.offAtPowerB = false →
      Completes (.surveyEnd pa pb hda) s fun t => sluLocked t = true ∧ mode t ≠ Mode.survey ∧ bit t Reg.SYS_EVT 4 = true)
    ∧ (∀ (pa pb hda : Option (List Byte)), mode s ≠ Mode.survey →
      Completes (.surveyEnd pa pb hda) s fun t => t = s)
    ∧ (∀ (v : Word), v.toNat.testBit 31 = true → bit s Reg.IDN_ASTS 0 = false → mode s ≠ Mode.survey → (bitsOf v.toNat 0 2) ≠ 3 → (bitsOf v.toNat 2 16) < idnWords (bitsOf v.toNat 0 2) → v.toNat.testBit 30 = false ∨ mode s = Mode.test →
      Completes (.idnAcmd v) s fun t => t.sys.access = some ⟨(bitsOf v.toNat 0 2), (bitsOf v.toNat 2 16), v.toNat.testBit 30⟩ ∧ rdN t Reg.IDN_ASTS = 1)
    ∧ (∀ (v : Word), v.toNat.testBit 31 = true → bit s Reg.IDN_ASTS 0 = false → mode s ≠ Mode.survey → (bitsOf v.toNat 0 2) = 3 ∨ idnWords (bitsOf v.toNat 0 2) ≤ (bitsOf v.toNat 2 16) →
      Completes (.idnAcmd v) s fun t => rdN t Reg.IDN_ASTS = 2 * IdnRes.range ∧ bit t Reg.IDN_EVT 4 = true ∧ t.sys = s.sys ∧ t.imone = s.imone)
    ∧ (∀ (v : Word), v.toNat.testBit 31 = true → bit s Reg.IDN_ASTS 0 = false → mode s ≠ Mode.survey → (bitsOf v.toNat 0 2) ≠ 3 → (bitsOf v.toNat 2 16) < idnWords (bitsOf v.toNat 0 2) → v.toNat.testBit 30 = true → mode s ≠ Mode.test →
      Completes (.idnAcmd v) s fun t => rdN t Reg.IDN_ASTS = 2 * IdnRes.mode ∧ bit t Reg.IDN_EVT 4 = true ∧ t.sys = s.sys)
    ∧ (∀ (d : Word) (x : IdnAccess), s.sys.access = some x →
      Completes (.acdone (some d)) s fun t => t.sys.access = none ∧ rdN t Reg.IDN_ASTS = 0 ∧ rdN t Reg.IDN_ADATA = (if x.write then rdN s Reg.IDN_ADATA else d.toNat) ∧ bit t Reg.IDN_EVT 4 = true)
    ∧ (∀ (x : IdnAccess), s.sys.access = some x →
      Completes (.acdone none) s fun t => t.sys.access = none ∧ rdN t Reg.IDN_ASTS = 2 * IdnRes.noAck ∧ bit t Reg.IDN_EVT 4 = true)
    ∧ (bit s Reg.CAL_STS 0 = false → s.sys.step = none → atMode s Mode.standby = true →
      Completes .mreqStandby s fun t => getF t Reg.SYS_MREQ 0 4 = Mode.standby ∧ getF t Reg.SYS_MREQ 8 3 = Mres.done ∧ bit t Reg.SYS_EVT 6 = true ∧ mode t = mode s ∧ t.sys.target = none)
    ∧ (∀ (i : Nat), bit s Reg.CAL_STS 0 = false → s.sys.step = some i →
      Completes .mreqStandby s fun t => t.sys.next = some Mode.standby ∧ t.sys.target = s.sys.target ∧ OnlyRegs [Reg.SYS_MREQ] s t)
    ∧ (bit s Reg.CAL_STS 0 = true →
      Completes .mreqStandby s fun t => t.cal.held = some Mode.standby ∧ OnlyRegs [] s t)
    ∧ (bit s Reg.CAL_STS 0 = false → s.sys.step = none → mode s ≠ Mode.test → runsMode (mode s) = false →
      Completes .mreqStandby s fun t => getF t Reg.SYS_MREQ 0 4 = Mode.standby ∧ getF t Reg.SYS_MREQ 8 3 = Mres.illegal ∧ mode t = mode s ∧ t.sys.target = none)
    ∧ (bit s Reg.CAL_STS 0 = false → s.sys.step = none → atMode s Mode.spinning = true →
      Completes .mreqSpinning s fun t => getF t Reg.SYS_MREQ 0 4 = Mode.spinning ∧ getF t Reg.SYS_MREQ 8 3 = Mres.done ∧ bit t Reg.SYS_EVT 6 = true ∧ mode t = mode s ∧ t.sys.target = none)
    ∧ (∀ (i : Nat), bit s Reg.CAL_STS 0 = false → s.sys.step = some i →
      Completes .mreqSpinning s fun t => t.sys.next = some Mode.spinning ∧ t.sys.target = s.sys.target ∧ OnlyRegs [Reg.SYS_MREQ] s t)
    ∧ (bit s Reg.CAL_STS 0 = true →
      Completes .mreqSpinning s fun t => t.cal.held = some Mode.spinning ∧ OnlyRegs [] s t)
    ∧ (bit s Reg.CAL_STS 0 = false → s.sys.step = none → mode s ≠ Mode.test → runsMode (mode s) = false →
      Completes .mreqSpinning s fun t => getF t Reg.SYS_MREQ 0 4 = Mode.spinning ∧ getF t Reg.SYS_MREQ 8 3 = Mres.illegal ∧ mode t = mode s ∧ t.sys.target = none)
    ∧ (bit s Reg.CAL_STS 0 = false → s.sys.step = none → atMode s Mode.slow = true →
      Completes .mreqSlow s fun t => getF t Reg.SYS_MREQ 0 4 = Mode.slow ∧ getF t Reg.SYS_MREQ 8 3 = Mres.done ∧ bit t Reg.SYS_EVT 6 = true ∧ mode t = mode s ∧ t.sys.target = none)
    ∧ (∀ (i : Nat), bit s Reg.CAL_STS 0 = false → s.sys.step = some i →
      Completes .mreqSlow s fun t => t.sys.next = some Mode.slow ∧ t.sys.target = s.sys.target ∧ OnlyRegs [Reg.SYS_MREQ] s t)
    ∧ (bit s Reg.CAL_STS 0 = true →
      Completes .mreqSlow s fun t => t.cal.held = some Mode.slow ∧ OnlyRegs [] s t)
    ∧ (bit s Reg.CAL_STS 0 = false → s.sys.step = none → mode s ≠ Mode.test → runsMode (mode s) = false →
      Completes .mreqSlow s fun t => getF t Reg.SYS_MREQ 0 4 = Mode.slow ∧ getF t Reg.SYS_MREQ 8 3 = Mres.illegal ∧ mode t = mode s ∧ t.sys.target = none)
    ∧ (bit s Reg.CAL_STS 0 = false → s.sys.step = none → atMode s Mode.ready = true →
      Completes .mreqReady s fun t => getF t Reg.SYS_MREQ 0 4 = Mode.ready ∧ getF t Reg.SYS_MREQ 8 3 = Mres.done ∧ bit t Reg.SYS_EVT 6 = true ∧ mode t = mode s ∧ t.sys.target = none)
    ∧ (∀ (i : Nat), bit s Reg.CAL_STS 0 = false → s.sys.step = some i →
      Completes .mreqReady s fun t => t.sys.next = some Mode.ready ∧ t.sys.target = s.sys.target ∧ OnlyRegs [Reg.SYS_MREQ] s t)
    ∧ (bit s Reg.CAL_STS 0 = true →
      Completes .mreqReady s fun t => t.cal.held = some Mode.ready ∧ OnlyRegs [] s t)
    ∧ (bit s Reg.CAL_STS 0 = false → s.sys.step = none → mode s ≠ Mode.test → runsMode (mode s) = false →
      Completes .mreqReady s fun t => getF t Reg.SYS_MREQ 0 4 = Mode.ready ∧ getF t Reg.SYS_MREQ 8 3 = Mres.illegal ∧ mode t = mode s ∧ t.sys.target = none)
    ∧ (bit s Reg.CAL_STS 0 = false → s.sys.step = none → atMode s Mode.test = true →
      Completes .mreqTest s fun t => getF t Reg.SYS_MREQ 0 4 = Mode.test ∧ getF t Reg.SYS_MREQ 8 3 = Mres.done ∧ bit t Reg.SYS_EVT 6 = true ∧ mode t = mode s ∧ t.sys.target = none)
    ∧ (∀ (i : Nat), bit s Reg.CAL_STS 0 = false → s.sys.step = some i →
      Completes .mreqTest s fun t => t.sys.next = some Mode.test ∧ t.sys.target = s.sys.target ∧ OnlyRegs [Reg.SYS_MREQ] s t)
    ∧ (bit s Reg.CAL_STS 0 = true →
      Completes .mreqTest s fun t => t.cal.held = some Mode.test ∧ OnlyRegs [] s t)
    ∧ (bit s Reg.CAL_STS 0 = false → s.sys.step = none → mode s = Mode.standby → bit s Reg.SPN_CTL 0 = true → spnConfigOk s = true → spnPhase s = SpnPhase.stopped →
      Completes .mreqSpinning s fun t => getF t Reg.SYS_MREQ 8 3 = Mres.pend ∧ t.sys.target = some Mode.spinning ∧ t.sys.step = some Mode.spinning ∧ bit t Reg.SYS_STS 5 = true ∧ spnPhase t = SpnPhase.observe)
    ∧ (bit s Reg.CAL_STS 0 = false → s.sys.step = none → runsMode (mode s) = true → opsActive s = false →
      Completes .mreqTest s fun t => mode t = Mode.test ∧ getF t Reg.SYS_MODE 16 4 = mode s ∧ getF t Reg.SYS_MREQ 8 3 = Mres.done)
    ∧ (bit s Reg.CAL_STS 0 = false → s.sys.step = none → runsMode (mode s) = true → atMode s Mode.ready = false → loadReady s = false →
      Completes .mreqReady s fun t => getF t Reg.SYS_MREQ 8 3 = Mres.notReady ∧ mode t = mode s ∧ t.sys.target = none)
    ∧ (∀ (m : Nat), s.cal.run = none → s.sys.step = some m → s.sys.next = none →
      Completes (.transitionStepDone false) s fun t => getF t Reg.SYS_MREQ 8 3 = Mres.failed ∧ bit t Reg.SYS_EVT 6 = true ∧ t.sys.step = none ∧ t.sys.target = none ∧ mode t = mode s ∧ bit t Reg.SYS_STS 5 = false)
    ∧ (∀ (m : Nat), s.cal.run = none → s.sys.step = some m → s.sys.target = some m → s.sys.next = none → m = Mode.spinning ∨ m = Mode.slow ∨ m = Mode.standby → stepReached s m = true → atMode s Mode.ready = false → (s.nqe.cmds.any HostCmd.media) = false →
      Completes (.transitionStepDone true) s fun t => mode t = m ∧ t.sys.step = none ∧ t.sys.target = none ∧ getF t Reg.SYS_MREQ 8 3 = Mres.done)
    ∧ (∀ (ok : Bool), s.cal.run = none → s.sys.step = none →
      Completes (.transitionStepDone ok) s fun t => t = s)
    ∧ (s.cal.run = none → loadEnded s = false →
      Completes .loadEnd s fun t => t = s)
    ∧ (s.cal.run = none → loadEnded s = true → s.sys.loading = true → s.sys.step = some Mode.ready → s.sys.target = some Mode.ready → s.sys.next = none →
      Completes .loadEnd s fun t => (mode t = Mode.ready ∨ mode t = Mode.active) ∧ t.sys.loading = false ∧ t.sys.everReady = true ∧ t.sys.step = none ∧ getF t Reg.SYS_MREQ 8 3 = Mres.done)
    ∧ (s.cal.run = none → loadEnded s = true → s.sys.loading = false →
      Completes .loadEnd s fun t => t.sys.offA = false ∧ t.sys.offB = false ∧ OnlyRegs [] s t)
    ∧ (s.cal.run = none → s.sys.loadClock + 450000000 ≤ s.clock → s.sys.loading = true → s.sys.next = none →
      Completes .loadTimeout s fun t => loaded t 0 = false ∧ loaded t 1 = false ∧ t.sys.loading = false ∧ getF t Reg.SYS_MREQ 8 3 = Mres.failed ∧ mode t = mode s)
    ∧ (s.cal.run = none → s.sys.loadClock + 450000000 ≤ s.clock → s.sys.loading = false →
      Completes .loadTimeout s fun t => (s.sys.offA = true → loaded t 0 = false) ∧ (s.sys.offB = true → loaded t 1 = false) ∧ t.sys.offA = false ∧ t.sys.offB = false)

/-- A power-on reset leaves every register at its reset value but those named, with the NAND, the OTP, and
the machine in FILL; a pin and a FULL reset keep the limits and their locks and end in FILL; a SUBSYS
reset keeps them too and ends in BOOT; each of the three is counted, with its cause; a reset that does
not outrank a running one is not run; RESET_N low and a power loss retract the heads and let the spindle
coast. Where the rules leave a point open it has the model's choice of log entries 5, 51 and 73. -/
def Obligations.ResetsRun : Prop :=
  ∀ (s : State), s.wf = true →
    (Completes .powerOnReset s fun t => OnlyRegs [Reg.SYS_RSTCAUSE, Reg.NQE_STS, Reg.NOI_NODE, Reg.NOI_PORT] State.reset t ∧ mode t = Mode.fill ∧ rdN t Reg.SYS_RSTCAUSE = (if s.sys.powerLost then RstKind.powerLoss else RstKind.powerOn)
        ∧ t.sram = [] ∧ t.nand = s.nand ∧ t.nqe.cmds = [] ∧ t.nqe.assocs = [] ∧ t.sys.coresHeld = State.reset.sys.coresHeld)
    ∧ (s.sec.otp = none →
      Completes .powerOnReset s fun t => t.sec.keyHash = s.sec.keyHash ∧ t.sec.revoke = s.sec.revoke ∧ t.sec.arb = s.sec.arb ∧ t.sec.chainWritten = s.sec.chainWritten)
    ∧ (∀ (n : Fin 24), s.sys.resetLow = true → s.sys.powerLost = false → s.sys.resetRank = none →
      Completes .pinReset s fun t => mode t = Mode.fill ∧ getF t Reg.SYS_MODE 8 4 = mode s ∧ getF t Reg.SYS_RSTCAUSE 0 8 = RstKind.pin ∧ rdN t Reg.SYS_RSTCNT = min (rdN s Reg.SYS_RSTCNT + 1) (2 ^ 32 - 1) ∧ bit t Reg.SYS_EVT 0 = true
        ∧ t.nqe.cmds = [] ∧ t.nqe.assocs = [] ∧ t.tsq = State.reset.tsq ∧ t.sec.otp = none
        ∧ t.sram = [] ∧ t.sys.coresHeld = State.reset.sys.coresHeld ∧ t.sys.resetLow = false ∧ (spnPhase s ≠ SpnPhase.stopped → spnPhase t = SpnPhase.coast)
        ∧ rdN t Reg.SLU_LOCK = rdN s Reg.SLU_LOCK ∧ rdN t Reg.SLU_PESHARD = rdN s Reg.SLU_PESHARD ∧ rdN t (Reg.SLU_APMAX n) = rdN s (Reg.SLU_APMAX n) ∧ rdN t Reg.SEC_LOCK = rdN s Reg.SEC_LOCK)
    ∧ (s.sys.resetLow = false →
      Completes .pinReset s fun t => t = s)
    ∧ (s.sys.resetLow = true → s.sys.powerLost = true →
      Completes .pinReset s fun t => t.sys.resetLow = false ∧ t.regs = s.regs ∧ t.nqe = s.nqe)
    ∧ (∀ (n : Fin 24), s.sys.resetLow = false → s.sys.powerLost = false → s.sys.resetRank = none →
      Completes .fullReset s fun t => mode t = Mode.fill ∧ getF t Reg.SYS_RSTCAUSE 0 8 = RstKind.full ∧ rdN t Reg.SYS_RSTCNT = min (rdN s Reg.SYS_RSTCNT + 1) (2 ^ 32 - 1) ∧ bit t Reg.SYS_EVT 0 = true
        ∧ t.nqe.cmds = [] ∧ t.nqe.assocs = [] ∧ t.tsq = State.reset.tsq ∧ t.sec.otp = none
        ∧ t.sram = [] ∧ loaded t 0 = false ∧ loaded t 1 = false ∧ rdN t Reg.SLU_LOCK = rdN s Reg.SLU_LOCK ∧ rdN t Reg.SLU_PESHARD = rdN s Reg.SLU_PESHARD ∧ rdN t (Reg.SLU_APMAX n) = rdN s (Reg.SLU_APMAX n) ∧ rdN t Reg.SEC_LOCK = rdN s Reg.SEC_LOCK)
    ∧ (∀ (n : Fin 24), s.sys.resetLow = false → s.sys.powerLost = false → s.sys.resetRank = none →
      Completes .subsysReset s fun t => mode t = Mode.boot ∧ getF t Reg.SYS_RSTCAUSE 0 8 = RstKind.subsys ∧ rdN t Reg.SYS_RSTCNT = min (rdN s Reg.SYS_RSTCNT + 1) (2 ^ 32 - 1)
        ∧ t.nqe.cmds = [] ∧ t.nqe.assocs = [] ∧ t.sec.otp = none
        ∧ t.sys.coresHeld = true ∧ loaded t 0 = false ∧ loaded t 1 = false ∧ bit t Reg.CPH_NJSTS 0 = true ∧ rdN t Reg.SLU_LOCK = rdN s Reg.SLU_LOCK ∧ rdN t Reg.SLU_PESHARD = rdN s Reg.SLU_PESHARD ∧ rdN t (Reg.SLU_APMAX n) = rdN s (Reg.SLU_APMAX n) ∧ rdN t Reg.SEC_LOCK = rdN s Reg.SEC_LOCK)
    ∧ (s.sys.resetLow = true ∨ s.sys.powerLost = true →
      Completes .fullReset s fun t => t = s)
    ∧ (∀ (r : Nat), s.sys.resetLow = false → s.sys.powerLost = false → s.sys.resetRank = some r → r ≤ RstRank.full → mode s ≠ Mode.fill → mode s ≠ Mode.boot →
      Completes .fullReset s fun t => t = s)
    ∧ (s.sys.resetLow = true ∨ s.sys.powerLost = true →
      Completes .subsysReset s fun t => t = s)
    ∧ (∀ (r : Nat), s.sys.resetLow = false → s.sys.powerLost = false → s.sys.resetRank = some r → r ≤ RstRank.subsys → mode s ≠ Mode.fill → mode s ≠ Mode.boot →
      Completes .subsysReset s fun t => t = s)
    ∧ (s.sys.resetLow = false →
      Completes .resetNLow s fun t => t.sys.resetLow = true ∧ t.sys.coresHeld = true ∧ (∀ a : Fin 2, loaded s a = true → retracting t a = true) ∧ (spnPhase s ≠ SpnPhase.stopped → spnPhase t = SpnPhase.coast)
        ∧ (∀ n : Fin 8, wgOut t n = false ∧ assistOut t n = false) ∧ t.nand = s.nand ∧ t.sram = s.sram)
    ∧ (s.sys.resetLow = true →
      Completes .resetNLow s fun t => t = s)
    ∧ (s.sys.powerLost = false → s.slu.v12Bad = true ∨ s.slu.v5Bad = true → s.imone.length = 2 →
      Completes .powerLoss s fun t => t.sys.powerLost = true ∧ (∀ a : Fin 2, loaded s a = true → retracting t a = true) ∧ (spnPhase s ≠ SpnPhase.stopped → spnPhase t = SpnPhase.coast)
        ∧ (∀ n : Fin 8, wgPass t n = false ∧ assistPass t n = false) ∧ t.cal.run = none)
    ∧ (s.sys.powerLost = true ∨ (s.slu.v12Bad = false ∧ s.slu.v5Bad = false) →
      Completes .powerLoss s fun t => t = s)

/-- SAFE-HOLD records its cause, fails a pending request, retracts the heads and stops the spindle; an
actuator's hold records its cause, turns its laws off and retracts it, and brings SAFE-HOLD where the
other cannot be used; the hold is cleared only when its condition is gone, and a lane returns to service
only while its slot is idle. Where the rules leave a point open it has the model's choice of log entries
7 and 32. -/
def Obligations.ModulesAreHeld : Prop :=
  ∀ (s : State), s.wf = true →
    (s.sys.resetLow = false → s.sys.powerLost = false → s.sys.step = none → mode s ≠ Mode.safeHold →
      Completes .shreq s fun t => mode t = Mode.safeHold ∧ bit t Reg.SYS_SHALL ShCause.fwReq = true ∧ t.sys.target = none ∧ t.sys.step = none ∧ t.sys.loading = false
        ∧ (∀ a : Fin 2, loaded s a = true → retracting t a = true) ∧ (bit s Reg.SYS_SHCAUSE 31 = false → rdN t Reg.SYS_SHCAUSE = ShCause.fwReq + 2 ^ 31)
        ∧ (bit s Reg.SPN_CTL 0 = true → spnPhase s ≠ SpnPhase.stopped → spnPhase s ≠ SpnPhase.hold → spnPhase t = SpnPhase.brake))
    ∧ (s.sys.resetLow = false → s.sys.powerLost = false → mode s = Mode.safeHold →
      Completes .shreq s fun t => bit t Reg.SYS_SHALL ShCause.fwReq = true ∧ OnlyRegs [Reg.SYS_SHALL, Reg.SYS_SHCAUSE] s t ∧ t.sys = s.sys)
    ∧ (∀ (r : Bool) (g : Option (Fin 3)), s.sys.resetLow = false → s.sys.powerLost = false → s.sys.step = none → mode s ≠ Mode.safeHold → r = true ∨ g ≠ none →
      Completes (.clockLoss r g) s fun t => mode t = Mode.safeHold ∧ bit t Reg.SYS_SHALL ShCause.clock = true ∧ t.sys.target = none ∧ t.sys.step = none ∧ t.sys.loading = false
        ∧ (∀ a : Fin 2, loaded s a = true → retracting t a = true) ∧ (bit s Reg.SYS_SHCAUSE 31 = false → rdN t Reg.SYS_SHCAUSE = ShCause.clock + 2 ^ 31)
        ∧ bit t Reg.SYS_CLKSTS 4 = true ∧ (r = true → bit t Reg.SYS_CLKSTS 0 = false) ∧ (∀ x, g = some x → bit t Reg.SYS_CLKSTS (1 + x.val) = false))
    ∧ (Completes (.clockLoss false none) s fun t => t = s)
    ∧ (∀ (a : Fin 2), disabled s a = false → held s a = false →
      Completes (.holdActuator a) s fun t => getF t Reg.SYS_AHCAUSE (8 * a) 3 = AhCause.fwReq ∧ held t a = true ∧ bit t (Reg.SRV_CTL a) 0 = false ∧ (loaded s a = true → retracting t a = true) ∧ bit t Reg.SYS_EVT 2 = true
        ∧ ((usable s (1 - a.val) = false ∧ s.sys.resetLow = false ∧ s.sys.powerLost = false) → mode t = Mode.safeHold))
    ∧ (∀ (a : Fin 2), disabled s a = true ∨ held s a = true →
      Completes (.holdActuator a) s fun t => OnlyRegs [] s t ∧ t.sys = s.sys)
    ∧ (∀ (a : Fin 2), disabled s a = false → held s a = false → fltHeld s a = true → s.slu.fltClock.getD a 0 + 10000000 ≤ s.clock →
      Completes (.pfaultHold a) s fun t => getF t Reg.SYS_AHCAUSE (8 * a) 3 = AhCause.pfault ∧ held t a = true ∧ bit t (Reg.SRV_CTL a) 0 = false ∧ (loaded s a = true → retracting t a = true) ∧ bit t Reg.SYS_EVT 2 = true
        ∧ ((usable s (1 - a.val) = false ∧ s.sys.resetLow = false ∧ s.sys.powerLost = false) → mode t = Mode.safeHold))
    ∧ (∀ (a : Fin 2), fltHeld s a = false ∨ s.clock < s.slu.fltClock.getD a 0 + 10000000 ∨ disabled s a = true ∨ held s a = true →
      Completes (.pfaultHold a) s fun t => t = s)
    ∧ (∀ (a : Fin 2), held s a = true → holdPersists s a = false →
      Completes (.clearActuator a) s fun t => held t a = false ∧ getF t Reg.SYS_AHCAUSE (8 * a) 3 = 0 ∧ loaded t a = (loaded s a || atMode s Mode.ready && !disabled s a))
    ∧ (∀ (a : Fin 2), held s a = false ∨ holdPersists s a = true →
      Completes (.clearActuator a) s fun t => bit t Reg.SYS_EVT 5 = true ∧ t.sys = s.sys ∧ OnlyRegsEvr [Reg.SYS_EVT] s t)
    ∧ (∀ (m : BitVec 16),
      Completes (.laneclr m) s fun t => ∀ l : Fin 16, bit t Reg.SYS_LANEFAIL l = (bit s Reg.SYS_LANEFAIL l && !(m.toNat.testBit l && !(ctxAt s (slotAct (laneSlot l)) (laneSlot l % 4)).busy && (ctxAt s (slotAct (laneSlot l)) (laneSlot l % 4)).queue.isEmpty)))
    ∧ (∀ (m : BitVec 16),
      Completes (.laneclr m) s fun t => OnlyRegs [Reg.SYS_LANEFAIL] s t ∧ t.tsq = s.tsq)

/-- A sample in range is stored, moves the peak and is compared with the thresholds; two samples in a row at
the hold temperature bring SAFE-HOLD; a sample out of range marks the sensor broken; TSTEP rises and
falls after their times, and GSTEP follows the governor's intervals; a threshold write out of range is
refused. Where the rules leave a point open it has the model's choice of log entries 5 and 54. -/
def Obligations.TemperatureIsFollowed : Prop :=
  ∀ (s : State), s.wf = true →
    (∀ (v : BitVec 16) (i5 pin : Word), chainsOffline s = false → inRange (signedOf 16 v.toNat) = true →
      Completes (.temperatureSample (some v) i5 pin) s fun t => rdN t Reg.THM_I5 = i5.toNat ∧ rdN t Reg.THM_PIN = pin.toNat ∧ getF t Reg.THM_TEMP 0 16 = v.toNat
        ∧ signedOf 16 (getF t Reg.THM_TMAX 0 16) = max (signedOf 16 v.toNat) (if bit s Reg.THM_TEMP 31 = false ∧ sensorBad s = false then (signedOf 16 v.toNat) else signedOf 16 (getF s Reg.THM_TMAX 0 16))
        ∧ bit t Reg.THM_STS 1 = decide (thrAt s 0 < (signedOf 16 v.toNat)) ∧ bit t Reg.THM_STS 2 = decide (thrAt s 8 < (signedOf 16 v.toNat)))
    ∧ (∀ (v : BitVec 16) (i5 pin : Word), chainsOffline s = false → inRange (signedOf 16 v.toNat) = true → sensorBad s = false →
      Completes (.temperatureSample (some v) i5 pin) s fun t => bit t Reg.THM_TEMP 31 = true ∧ (((signedOf 16 v.toNat) < 8 * 112 ∨ s.thm.hot = 0) → mode t = mode s ∧ t.thm.hot = (if (signedOf 16 v.toNat) < 8 * 112 then 0 else 1)))
    ∧ (∀ (v : BitVec 16) (i5 pin : Word), chainsOffline s = false → inRange (signedOf 16 v.toNat) = true → sensorBad s = false → 1 ≤ s.thm.hot → 8 * 112 ≤ (signedOf 16 v.toNat) → mode s ≠ Mode.safeHold → s.sys.resetLow = false → s.sys.powerLost = false →
      Completes (.temperatureSample (some v) i5 pin) s fun t => bit t Reg.THM_EVT 3 = true ∧ bit t Reg.SYS_SHALL ShCause.thermal = true ∧ mode t = Mode.safeHold)
    ∧ (∀ (v : BitVec 16) (i5 pin : Word), chainsOffline s = false → inRange (signedOf 16 v.toNat) = true → sensorBad s = false →
      Completes (.temperatureSample (some v) i5 pin) s fun t => tstep t = (if thrAt s 8 < (signedOf 16 v.toNat) ∧ bit s Reg.THM_STS 2 = false ∧ tstep s < 15 then tstep s + 1 else tstep s)
        ∧ (t.thm.rise.isSome = (decide (thrAt s 8 < (signedOf 16 v.toNat)) && (bit s Reg.THM_STS 2 == false || s.thm.rise.isSome)))
        ∧ (t.thm.below = if (signedOf 16 v.toNat) < thrAt s 16 ∧ (signedOf 16 v.toNat) ≤ thrAt s 8 then some (s.thm.below.getD s.clock) else none))
    ∧ (∀ (v : BitVec 16) (i5 pin : Word), chainsOffline s = false → inRange (signedOf 16 v.toNat) = true → sensorBad s = true → s.thm.good < 999 →
      Completes (.temperatureSample (some v) i5 pin) s fun t => sensorBad t = true ∧ t.thm.good = s.thm.good + 1 ∧ tstep t = tstep s)
    ∧ (∀ (v : BitVec 16) (i5 pin : Word), chainsOffline s = false → inRange (signedOf 16 v.toNat) = true → sensorBad s = true → s.thm.good = 999 →
      Completes (.temperatureSample (some v) i5 pin) s fun t => sensorBad t = false ∧ t.thm.good = 0 ∧ tstep t = 15 ∧ bit t Reg.THM_TEMP 31 = true ∧ bit t Reg.THM_EVT 5 = true)
    ∧ (∀ (v : Option (BitVec 16)) (i5 pin : Word), chainsOffline s = false → (v.filter fun x => inRange (signedOf 16 x.toNat)) = none →
      Completes (.temperatureSample v i5 pin) s fun t => sensorBad t = true ∧ bit t Reg.THM_TEMP 31 = false ∧ t.thm.good = 0 ∧ t.thm.hot = 0 ∧ rdN t Reg.THM_I5 = i5.toNat ∧ (sensorBad s = false → bit t Reg.THM_EVT 4 = true) ∧ mode t = mode s)
    ∧ (∀ (v : Option (BitVec 16)) (i5 pin : Word), chainsOffline s = true →
      Completes (.temperatureSample v i5 pin) s fun t => rdN t Reg.THM_I5 = rdN s Reg.THM_I5 ∧ rdN t Reg.THM_PIN = rdN s Reg.THM_PIN ∧ getF t Reg.THM_TEMP 0 16 = getF s Reg.THM_TEMP 0 16)
    ∧ (∀ (c : Nat), s.thm.rise = some c → sensorBad s = false → bit s Reg.THM_STS 2 = true → c + 250000000 ≤ s.clock →
      Completes .tstepRise s fun t => tstep t = min 15 (tstep s + 1) ∧ t.thm.rise = some (c + 250000000))
    ∧ (∀ (c : Nat), s.thm.rise = some c → s.clock < c + 250000000 →
      Completes .tstepRise s fun t => t = s)
    ∧ (∀ (c : Nat), s.thm.below = some c → sensorBad s = false → 0 < tstep s → c + 2000000000 ≤ s.clock →
      Completes .tstepFall s fun t => tstep t = tstep s - 1 ∧ t.thm.below = some (c + 2000000000) ∧ bit t Reg.THM_EVT 2 = true)
    ∧ (∀ (c : Nat), s.thm.below = some c → tstep s = 0 ∨ s.clock < c + 2000000000 →
      Completes .tstepFall s fun t => t = s)
    ∧ (s.thm.interval + 250000000 ≤ s.clock → (100 ≤ s.spn.govReq ∨ s.thm.exceeded = true) → gstep s < 13 →
      Completes .governorInterval s fun t => gstep t = min 13 (gstep s + 1) ∧ t.thm.quiet = 0 ∧ t.thm.exceeded = false ∧ t.spn.govReq = 0 ∧ bit t Reg.THM_STS 3 = true ∧ bit t Reg.THM_EVT 7 = true)
    ∧ (s.thm.interval + 250000000 ≤ s.clock → (100 ≤ s.spn.govReq ∨ s.thm.exceeded = true) → 13 ≤ gstep s →
      Completes .governorInterval s fun t => gstep t = gstep s ∧ t.thm.quiet = 0 ∧ OnlyRegs [] s t)
    ∧ (s.thm.interval + 250000000 ≤ s.clock → s.spn.govReq < 100 → s.thm.exceeded = false → s.thm.quiet < 7 →
      Completes .governorInterval s fun t => t.thm.quiet = s.thm.quiet + 1 ∧ gstep t = gstep s ∧ OnlyRegs [] s t)
    ∧ (s.thm.interval + 250000000 ≤ s.clock → s.spn.govReq < 100 → s.thm.exceeded = false → 7 ≤ s.thm.quiet →
      Completes .governorInterval s fun t => t.thm.quiet = 0 ∧ gstep t = gstep s - 1 ∧ bit t Reg.THM_STS 3 = decide (1 < gstep s))
    ∧ (∀ (v : Word), (60 ≤ bitsOf v.toNat 0 8 ∧ bitsOf v.toNat 0 8 ≤ 100 ∧ bitsOf v.toNat 0 8 ≤ bitsOf v.toNat 8 8 ∧ 70 ≤ bitsOf v.toNat 8 8 ∧ bitsOf v.toNat 8 8 ≤ 100 ∧ 50 ≤ bitsOf v.toNat 16 8 ∧ bitsOf v.toNat 16 8 < bitsOf v.toNat 8 8) →
      Completes (.thrWrite v) s fun t => getF t Reg.THM_THR 0 24 = bitsOf v.toNat 0 24 ∧ OnlyRegs [Reg.THM_THR] s t ∧ t.busError = false)
    ∧ (∀ (v : Word), ¬ (60 ≤ bitsOf v.toNat 0 8 ∧ bitsOf v.toNat 0 8 ≤ 100 ∧ bitsOf v.toNat 0 8 ≤ bitsOf v.toNat 8 8 ∧ 70 ≤ bitsOf v.toNat 8 8 ∧ bitsOf v.toNat 8 8 ≤ 100 ∧ 50 ≤ bitsOf v.toNat 16 8 ∧ bitsOf v.toNat 16 8 < bitsOf v.toNat 8 8) →
      Completes (.thrWrite v) s fun t => bit t Reg.THM_EVT 8 = true ∧ OnlyRegsEvr [Reg.THM_EVT] s t)
    ∧ (∀ (v : Word),
      Completes (.floorWrite v) s fun t => getF t Reg.THM_CTL 0 4 = bitsOf v.toNat 0 4 ∧ getF t Reg.THM_LADDER 12 4 = bitsOf v.toNat 0 4 ∧ getF t Reg.THM_LADDER 0 4 = ladderStep t
        ∧ (ladderStep t ≠ getF s Reg.THM_LADDER 0 4 → rdN t Reg.THM_CAPS = capsAt (ladderStep t) ∧ rdN t Reg.WEIR_THLIM = thlimAt (ladderStep t) ∧ bit t Reg.THM_EVT 6 = true))
    ∧ (∀ (v : Word), (fpNonFinite v.toNat = false ∧ 1 / 2 ≤ fpVal v.toNat ∧ fpVal v.toNat ≤ 2) →
      Completes (.i5limWrite v) s fun t => rdN t Reg.THM_I5LIM = v.toNat ∧ OnlyRegs [Reg.THM_I5LIM] s t)
    ∧ (∀ (v : Word), ¬ (fpNonFinite v.toNat = false ∧ 1 / 2 ≤ fpVal v.toNat ∧ fpVal v.toNat ≤ 2) →
      Completes (.i5limWrite v) s fun t => bit t Reg.THM_EVT 8 = true ∧ OnlyRegsEvr [Reg.THM_EVT] s t)
    ∧ (∀ (v : Word),
      Completes (.tmaxWrite v) s fun t => rdN t Reg.THM_TMAX = getF s Reg.THM_TEMP 0 16 ∧ OnlyRegs [Reg.THM_TMAX] s t)

/-- A trigger that is not suppressed waits in clock and channel order; a capture stages its record with the
next sequence number; a programmable channel triggers as its kind has it and its page is written as its
kind allows; gauges are published whole between two counts of the generation, and cleared at a publish.
Where the rules leave a point open it has the model's choice of log entries 5 and 7. -/
def Obligations.RecordsAreCaptured : Prop :=
  ∀ (s : State), s.wf = true →
    (∀ (r : Trigger) (l : List Trigger), s.evr.waiting = r :: l → bit s Reg.EVR_STS 1 = false → s.evr.stgCount < ringSize → r.chan < 64 →
      Completes .snapshotCapture s fun t => t.evr.stgCount = s.evr.stgCount + 1 ∧ rdN t Reg.EVR_NEXTSEQ = (rdN s Reg.EVR_NEXTSEQ + 1) % 2 ^ 32 ∧ t.evr.stgHead = (s.evr.stgHead + 1) % ringSize ∧ t.evr.waiting = l
        ∧ rdN t (Reg.EVR_CHCNT r.chan) = min (rdN s (Reg.EVR_CHCNT r.chan) + 1) (2 ^ 32 - 1) ∧ t.evr.urgent = (s.evr.urgent || decide (3 ≤ r.chan ∧ r.chan ≤ 6)) ∧ OnlyRegs [Reg.EVR_NEXTSEQ, Reg.EVR_CHCNT r.chan] s t)
    ∧ (∀ (r : Trigger) (l : List Trigger), s.evr.waiting = r :: l → bit s Reg.EVR_STS 1 = false → s.evr.stgCount < ringSize → s.evr.stgHead < ringSize → r.chan < 256 → r.mode < 256 → r.trig < 256 →
      Completes .snapshotCapture s fun t => sramBytes t (ringAddr s.evr.stgHead) 160 = recordBytes r (rdN s Reg.EVR_NEXTSEQ) ((channelRegs s r.chan).map (captureValue s)) ++ leBytes 8 recordValid)
    ∧ (∀ (r : Trigger) (l : List Trigger), s.evr.waiting = r :: l → bit s Reg.EVR_STS 1 = false → ringSize ≤ s.evr.stgCount →
      Completes .snapshotCapture s fun t => rdN t Reg.EVR_STGDROP = min (rdN s Reg.EVR_STGDROP + 1) (2 ^ 32 - 1) ∧ bit t Reg.EVR_EVT 1 = true ∧ t.evr.stgCount = s.evr.stgCount ∧ t.sram = s.sram)
    ∧ (∀ (r : Trigger) (l : List Trigger), s.evr.waiting = r :: l → bit s Reg.EVR_STS 1 = true →
      Completes .snapshotCapture s fun t => rdN t Reg.EVR_FULLDROP = min (rdN s Reg.EVR_FULLDROP + 1) (2 ^ 32 - 1) ∧ t.evr.waiting = l ∧ t.sram = s.sram ∧ OnlyRegs [Reg.EVR_FULLDROP] s t)
    ∧ (s.evr.waiting = [] →
      Completes .snapshotCapture s fun t => t = s)
    ∧ (∀ (c : Fin 64), 16 ≤ c.val → getF s (Reg.EVR_CHCFG c) 0 2 = 2 → bit s Reg.EVR_CTL 0 = true → bit s Reg.EVR_STS 1 = false → suppressed s c = false → s.evr.waiting.length < 64 →
      Completes (.swtrig c) s fun t => t.evr.waiting = insertTrigger ⟨c, 2, s.clock, ptp s, getF s Reg.ANG_NOW 0 22 + 2 ^ 22 * getF s Reg.ANG_STS 0 3 + 2 ^ 25 * (rdN s Reg.EVR_CLRCNT % 128), mode s⟩ s.evr.waiting ∧ OnlyRegs [] s t)
    ∧ (∀ (c : Fin 64), 16 ≤ c.val → getF s (Reg.EVR_CHCFG c) 0 2 = 2 → bit s Reg.EVR_CTL 0 = true → bit s Reg.EVR_STS 1 = false → suppressed s c = true →
      Completes (.swtrig c) s fun t => rdN t (Reg.EVR_CHSUP c) = min (rdN s (Reg.EVR_CHSUP c) + 1) (2 ^ 32 - 1) ∧ t.evr = s.evr ∧ OnlyRegs [Reg.EVR_CHSUP c] s t)
    ∧ (∀ (c : Fin 64), c.val < 16 ∨ getF s (Reg.EVR_CHCFG c) 0 2 ≠ 2 ∨ bit s Reg.EVR_CTL 0 = false →
      Completes (.swtrig c) s fun t => t.evr = s.evr ∧ OnlyRegs [] s t)
    ∧ (∀ (c : Fin 64) (d : Nat), 16 ≤ c.val → getF s (Reg.EVR_CHCFG c) 0 2 = 3 → bit s Reg.EVR_CTL 0 = true → periodEnd s c = some d → d ≤ s.clock → bit s Reg.EVR_STS 1 = false → suppressed s c = false → s.evr.waiting.length < 64 →
      Completes (.periodicTrigger c) s fun t => t.evr.waiting = insertTrigger ⟨c, 3, s.clock, ptp s, getF s Reg.ANG_NOW 0 22 + 2 ^ 22 * getF s Reg.ANG_STS 0 3 + 2 ^ 25 * (rdN s Reg.EVR_CLRCNT % 128), mode s⟩ s.evr.waiting ∧ OnlyRegs [] s t)
    ∧ (∀ (c : Fin 64) (d : Nat), 16 ≤ c.val → getF s (Reg.EVR_CHCFG c) 0 2 = 3 → bit s Reg.EVR_CTL 0 = true → periodEnd s c = some d → d ≤ s.clock → bit s Reg.EVR_STS 1 = false → suppressed s c = true →
      Completes (.periodicTrigger c) s fun t => rdN t (Reg.EVR_CHSUP c) = min (rdN s (Reg.EVR_CHSUP c) + 1) (2 ^ 32 - 1) ∧ t.evr = { s.evr with periods := (c.val, d) :: s.evr.periods.filter fun p => p.1 != c.val } ∧ OnlyRegs [Reg.EVR_CHSUP c] s t)
    ∧ (∀ (c : Fin 64) (d : Nat), c.val < 16 ∨ getF s (Reg.EVR_CHCFG c) 0 2 ≠ 3 ∨ bit s Reg.EVR_CTL 0 = false → periodEnd s c = some d → d ≤ s.clock →
      Completes (.periodicTrigger c) s fun t => t.evr = { s.evr with periods := (c.val, d) :: s.evr.periods.filter fun p => p.1 != c.val } ∧ OnlyRegs [] s t)
    ∧ (∀ (c : Fin 64) (d : Nat), periodEnd s c = some d → s.clock < d →
      Completes (.periodicTrigger c) s fun t => t = s)
    ∧ (∀ (c : Fin 64), periodEnd s c = none →
      Completes (.periodicTrigger c) s fun t => t = s)
    ∧ (∀ (c : Fin 64) (v : Word), 16 ≤ c.val →
      Completes (.channelConfigWrite c 0 v) s fun t => getF t (Reg.EVR_CHCFG c) 0 26 = bitsOf v.toNat 0 2 + 2 ^ 2 * bitsOf v.toNat 2 24 ∧ OnlyRegsEvr [] s t)
    ∧ (∀ (c : Fin 64) (v : Word), 16 ≤ c.val → bitsOf v.toNat 16 16 ≠ 0 →
      Completes (.channelConfigWrite c 3 v) s fun t => rdN t (Reg.EVR_CHHOLD c) = v.toNat ∧ OnlyRegsEvr [] s t)
    ∧ (∀ (c : Fin 64) (m : Fin 16) (v : Word), 16 ≤ c.val → getF s (Reg.EVR_CHCFG c) 0 2 = 0 →
      Completes (.channelConfigWrite c (16 + m.castLE (by decide)) v) s fun t => getF t (Reg.EVR_CHREG c m) 2 19 = bitsOf v.toNat 2 19 ∧ bit t (Reg.EVR_CHREG c m) 24 = v.toNat.testBit 24 ∧ bit t (Reg.EVR_CHREG c m) 31 = v.toNat.testBit 31 ∧ t.evr = s.evr ∧ OnlyRegs [Reg.EVR_CHREG c m] s t)
    ∧ (∀ (c : Fin 64) (m : Fin 16) (v : Word), 16 ≤ c.val → getF s (Reg.EVR_CHCFG c) 0 2 ≠ 0 →
      Completes (.channelConfigWrite c (16 + m.castLE (by decide)) v) s fun t => t.evr = s.evr ∧ OnlyRegs [] s t)
    ∧ (∀ (c : Fin 64) (w : Fin 32) (v : Word), c.val < 16 →
      Completes (.channelConfigWrite c w v) s fun t => t.evr = s.evr ∧ OnlyRegs [] s t)
    ∧ (s.evr.published < s.clock / 1000000 →
      Completes .gaugePublish s fun t => rdN t Reg.EVR_GGEN = (rdN s Reg.EVR_GGEN + 2) % 2 ^ 32 ∧ (∀ n : Fin 8, sramBytes t (0x195F0000 + 0x400 * n) 552 = gaugeBytes t n) ∧ (t.evr.gauges.all fun x => !x.clearPending) = true ∧ OnlyRegs [Reg.EVR_GGEN] s t)
    ∧ (∀ (n : Fin 8), s.evr.published < s.clock / 1000000 → (s.evr.gauges.getD n Gauge.reset).clearPending = true →
      Completes .gaugePublish s fun t => t.evr.gauges.getD n Gauge.reset = { Gauge.reset with cleared := ptp s })
    ∧ (s.clock / 1000000 ≤ s.evr.published →
      Completes .gaugePublish s fun t => t = s)
    ∧ (∀ (m : Byte),
      Completes (.gclr m) s fun t => (∀ n : Fin 8, (t.evr.gauges.getD n Gauge.reset).clearPending = ((s.evr.gauges.getD n Gauge.reset).clearPending || m.toNat.testBit n)) ∧ OnlyRegsEvr [] s t ∧ t.sram = s.sram)

/-- A due commit programs the staged records at the next positions, and its end makes them valid and moves
the log's end; the scan finds the end by bisection; a clear needs its token and ends with the record of
channel 15 at position 0; a mirror write moves its position on, and three failures in a row stop the
copy. Where the rules leave a point open it has the model's choice of log entries 57 and 71. -/
def Obligations.TheLogIsKept : Prop :=
  ∀ (s : State), s.wf = true →
    (mayCommit s = true → commitDue s = true → getF s Reg.EVR_LOGPOS 0 21 + 255 ≤ logSize → logErased s (getF s Reg.EVR_LOGPOS 0 21) = true →
      Completes (.logCommit []) s fun t => (t.evr.commit.map fun c => (c.placed.length, c.next)) = some (min 255 s.evr.stgCount, getF s Reg.EVR_LOGPOS 0 21 + min 255 s.evr.stgCount) ∧ bit t Reg.EVR_STS 4 = true ∧ t.evr.urgent = false
        ∧ nandBytes t (logAddr (getF s Reg.EVR_LOGPOS 0 21)) 152 = sramBytes s (ringAddr (stagedPlace s 0)) 152 ∧ OnlyRegs [Reg.EVR_STS] s t)
    ∧ (∀ (f : List Nat), mayCommit s = false ∨ commitDue s = false →
      Completes (.logCommit f) s fun t => t = s)
    ∧ (∀ (q i p : Nat), s.evr.commit = some ⟨[(q, i)], p⟩ → p < logSize → q < logSize → (nandBytes s (logAddr q + 152) 8).all (· == 255) = true →
      Completes (.logCommitDone []) s fun t => t.evr.commit = none ∧ bit t Reg.EVR_STS 4 = false ∧ getF t Reg.EVR_LOGPOS 0 21 = p ∧ t.evr.stgCount = s.evr.stgCount - 1 ∧ leNat (nandBytes t (logAddr q + 152) 8) = recordValid
        ∧ bit t Reg.EVR_STS 1 = bit s Reg.EVR_STS 1 ∧ OnlyRegs [Reg.EVR_STS, Reg.EVR_LOGPOS] s t)
    ∧ (∀ (l : List (Nat × Nat)) (p : Nat), s.evr.commit = some ⟨l, p⟩ → logSize ≤ p → p < 2 ^ 21 →
      Completes (.logCommitDone []) s fun t => t.evr.commit = none ∧ bit t Reg.EVR_STS 1 = true ∧ t.evr.stgCount = 0 ∧ bit t Reg.EVR_EVT 0 = true)
    ∧ (∀ (q i p : Nat), s.evr.commit = some ⟨[(q, i)], p⟩ → p + 1 < logSize → logErased s p = true →
      Completes (.logCommitDone [0]) s fun t => t.evr.commit = none ∧ getF t Reg.EVR_LOGPOS 0 21 = p + 1 ∧ bit t Reg.EVR_EVT 7 = true ∧ leNat (nandBytes t (logAddr p + 152) 8) = recordValid ∧ nandBytes t (logAddr p) 152 = sramBytes s (ringAddr i) 152)
    ∧ (∀ (f : List Nat), s.evr.commit = none →
      Completes (.logCommitDone f) s fun t => t = s)
    ∧ (s.evr.scanned = false → clearCount s = 0 → (bisect s 22 0 logSize) < logSize →
      Completes .logScan s fun t => getF t Reg.EVR_LOGPOS 0 21 = (bisect s 22 0 logSize) ∧ rdN t Reg.EVR_CLRCNT = clearCount s % 2 ^ 32 ∧ t.evr.scanned = true ∧ bit t Reg.EVR_STS 0 = false ∧ rdN t Reg.EVR_NEXTSEQ = (nextSeqAt s (bisect s 22 0 logSize) + s.evr.stgCount) % 2 ^ 32
        ∧ rdN t Reg.EVR_TORN = min (rdN s Reg.EVR_TORN + tornBelow s (bisect s 22 0 logSize)) (2 ^ 32 - 1) ∧ (tornBelow s (bisect s 22 0 logSize) ≠ 0 → bit t Reg.EVR_EVT 6 = true))
    ∧ (s.evr.scanned = false → clearCount s ≠ 0 → clearMarked s (clearCount s) = false →
      Completes .logScan s fun t => t.evr.clear = some ⟨clearCount s, (bisect s 22 0 logSize)⟩ ∧ bit t Reg.EVR_STS 2 = true ∧ t.evr.scanned = true)
    ∧ (s.evr.scanned = true →
      Completes .logScan s fun t => t = s)
    ∧ (∀ (token : List Byte), token.length ≠ 448 →
      Completes (.logClear token) s fun t => rdN t Reg.EVR_CLRSTS = 1 ∧ t.evr = s.evr ∧ t.nand = s.nand ∧ OnlyRegs [Reg.EVR_CLRSTS] s t)
    ∧ (∀ (token : List Byte), token.length = 448 →
      Completes (.logClear token) s fun t => rdN t Reg.EVR_CLRSTS = clearCheck s (token.map BitVec.toNat) ∧ (if clearCheck s (token.map BitVec.toNat) = 0 then bit t Reg.EVR_STS 2 = true ∧ rdN t Reg.EVR_CLRCNT = (rdN s Reg.EVR_CLRCNT + 1) % 2 ^ 32 ∧ (t.evr.clear.map fun c => c.count) = some (rdN s Reg.EVR_CLRCNT + 1) else t.evr = s.evr ∧ t.nand = s.nand ∧ OnlyRegs [Reg.EVR_CLRSTS] s t))
    ∧ (∀ (c : LogClear), s.evr.clear = some c →
      Completes .clrdone s fun t => getF t Reg.EVR_LOGPOS 0 21 = 1 ∧ logHolds t 0 = true ∧ (logRecord t 0).getD 16 0 = 15 ∧ leNat (((logRecord t 0).drop 8).take 4) = rdN s Reg.EVR_NEXTSEQ ∧ rdN t Reg.EVR_NEXTSEQ = (rdN s Reg.EVR_NEXTSEQ + 1) % 2 ^ 32 ∧ t.evr.clear = none
        ∧ rdN t Reg.EVR_MIRPOSA = 0 ∧ rdN t Reg.EVR_MIRPOSB = 0 ∧ bit t Reg.EVR_STS 2 = false ∧ bit t Reg.EVR_STS 1 = false ∧ bit t Reg.EVR_EVT 2 = true)
    ∧ (∀ (c : LogClear) (p : Nat), s.evr.clear = some c → 1 ≤ p → p < logSize →
      Completes .clrdone s fun t => logErased t p = true)
    ∧ (s.evr.clear = none →
      Completes .clrdone s fun t => t = s)
    ∧ (∀ (a : Fin 2), mayMirror s a = true → mirrorRangeOk s = true →
      Completes (.mirrorWrite a true) s fun t => rdN t (mirPos a) = min (getF s Reg.EVR_LOGPOS 0 21) ((rdN s (mirPos a) / 25 + 1) * 25) ∧ mirFails t a = 0 ∧ OnlyRegs [mirPos a] s t)
    ∧ (∀ (a : Fin 2), mayMirror s a = true → mirrorRangeOk s = true → mirFails s a < 2 →
      Completes (.mirrorWrite a false) s fun t => rdN t Reg.EVR_MIRFAIL = min (rdN s Reg.EVR_MIRFAIL + 1) (2 ^ 32 - 1) ∧ mirFails t a = mirFails s a + 1 ∧ mirStopped t a = false ∧ rdN t (mirPos a) = rdN s (mirPos a) ∧ OnlyRegs [Reg.EVR_MIRFAIL] s t)
    ∧ (∀ (a : Fin 2), mayMirror s a = true → mirrorRangeOk s = true → 2 ≤ mirFails s a →
      Completes (.mirrorWrite a false) s fun t => mirStopped t a = true ∧ bit t Reg.EVR_EVT 4 = true ∧ rdN t (mirPos a) = rdN s (mirPos a))
    ∧ (∀ (a : Fin 2) (ok : Bool), mayMirror s a = true → mirrorRangeOk s = false →
      Completes (.mirrorWrite a ok) s fun t => bit t Reg.EVR_EVT 4 = true ∧ OnlyRegsEvr [] s t ∧ rdN t (mirPos a) = rdN s (mirPos a))
    ∧ (∀ (a : Fin 2) (ok : Bool), mayMirror s a = false →
      Completes (.mirrorWrite a ok) s fun t => t = s)

/-- A pop answers the oldest entry of the patrol log; a rewrap starts when the checks pass and reports the
first that fails; each acknowledgement moves it from its request to the copy, from the copy's end to its
commit, and the reset of its source, or of its target after an abort, ends it. Where the rules leave a
point open it has the model's choice of log entry 59. -/
def Obligations.ZonesAreRewrapped : Prop :=
  ∀ (s : State), s.wf = true →
    (∀ (e : Nat) (l : List Nat), s.ztb.ptlog = e :: l →
      Completes .ptlogPop s fun t => t.busData = e ∧ t.busError = false ∧ t.ztb = { s.ztb with ptlog := l } ∧ OnlyRegs [] s t)
    ∧ (s.ztb.ptlog = [] →
      Completes .ptlogPop s fun t => t.busData = 0 ∧ t.busError = false ∧ t.ztb = s.ztb ∧ OnlyRegs [] s t)
    ∧ ((rwCheck s (getF s Reg.ZTB_RWSRC 0 20) (getF s Reg.ZTB_RWTGT 0 20) (getF s Reg.ZTB_RWTGT 20 12)) = 0 →
      Completes .rewrapGo s fun t => t.arc.rewrap = some ⟨getF s Reg.ZTB_RWSRC 0 20, getF s Reg.ZTB_RWTGT 0 20, getF s Reg.ZTB_RWTGT 20 12, false, false, .fresh, []⟩ ∧ bit t Reg.ZTB_RWSTS 0 = true ∧ rwPhase t = 1 ∧ getF t Reg.ZTB_RWSTS 4 4 = 0 ∧ bit t Reg.ZTB_AREVT 3 = true ∧ t.sram = s.sram)
    ∧ ((rwCheck s (getF s Reg.ZTB_RWSRC 0 20) (getF s Reg.ZTB_RWTGT 0 20) (getF s Reg.ZTB_RWTGT 20 12)) ≠ 0 →
      Completes .rewrapGo s fun t => getF t Reg.ZTB_RWSTS 4 4 = (rwCheck s (getF s Reg.ZTB_RWSRC 0 20) (getF s Reg.ZTB_RWTGT 0 20) (getF s Reg.ZTB_RWTGT 20 12)) ∧ t.arc = s.arc ∧ t.sram = s.sram ∧ OnlyRegs [Reg.ZTB_RWSTS] s t)
    ∧ (∀ (r : RewrapRun), s.arc.rewrap = some r → r.committed = false → rwPhase s ≠ 5 →
      Completes .rewrapAbort s fun t => rwPhase t = 5 ∧ getF t Reg.ZTB_RWSTS 4 4 = RwResult.aborted ∧ bit t Reg.ZTB_AREVT 3 = true ∧ t.arc.rewrap.isSome = true)
    ∧ (∀ (r : RewrapRun), s.arc.rewrap = some r → r.committed = true ∨ rwPhase s = 5 →
      Completes .rewrapAbort s fun t => t.arc = s.arc ∧ OnlyRegs [] s t)
    ∧ (s.arc.rewrap = none →
      Completes .rewrapAbort s fun t => t.arc = s.arc ∧ OnlyRegs [] s t)
    ∧ (∀ (r : RewrapRun), s.arc.rewrap = some r → rwPhase s = 1 → disabled s (surfaceAct s (zoneSurface s r.tgt)) = false → r.tgt < 1000 → getF s Reg.CPH_KMBASE 1 28 = 0x2000000 →
      Completes .rwack s fun t => rwPhase t = 2 ∧ zState t r.tgt = zImpOpen ∧ t.arc = s.arc)
    ∧ (∀ (r : RewrapRun), s.arc.rewrap = some r → rwPhase s = 3 →
      Completes .rwack s fun t => rwPhase t = 4 ∧ (t.arc.rewrap.map RewrapRun.committed) = some true ∧ bit t Reg.ZTB_AREVT 3 = true)
    ∧ (∀ (r : RewrapRun), s.arc.rewrap = some r → rwPhase s = 4 → r.committed = true → zoneQuiet s r.src = true → disabled s (surfaceAct s (zoneSurface s r.src)) = false → zEpoch (dropSpec r.src (releaseZone r.src s)) r.src ≠ 0xFFFFFFFF →
      Completes .rwack s fun t => t.arc.rewrap = none ∧ bit t Reg.ZTB_RWSTS 0 = false ∧ rwPhase t = 0 ∧ getF t Reg.ZTB_RWSTS 4 4 = 0 ∧ zCptr t r.src = 0 ∧ zState t r.src = zEmpty ∧ bit t Reg.ZTB_AREVT 4 = true ∧ rdN t Reg.ZTB_RWCNT = (rdN s Reg.ZTB_RWCNT + 1) % 2 ^ 32)
    ∧ (∀ (r : RewrapRun), s.arc.rewrap = some r → rwPhase s = 5 → r.committed = false → zoneQuiet s r.tgt = true → disabled s (surfaceAct s (zoneSurface s r.tgt)) = false → zEpoch (dropSpec r.tgt (releaseZone r.tgt s)) r.tgt ≠ 0xFFFFFFFF →
      Completes .rwack s fun t => t.arc.rewrap = none ∧ bit t Reg.ZTB_RWSTS 0 = false ∧ rwPhase t = 0 ∧ zCptr t r.tgt = 0 ∧ zState t r.tgt = zEmpty ∧ bit t Reg.ZTB_AREVT 5 = true)
    ∧ (∀ (r : RewrapRun), s.arc.rewrap = some r → rwPhase s = 4 → r.committed = true → zoneQuiet s r.src = false →
      Completes .rwack s fun t => t.arc.rewrap = some { r with waiting := true } ∧ OnlyRegs [] s t)
    ∧ (s.arc.rewrap = none ∨ rwPhase s = 2 →
      Completes .rwack s fun t => t.arc = s.arc ∧ OnlyRegs [] s t)
    ∧ (∀ (r : RewrapRun), s.arc.rewrap = some r → rwPhase s = 2 → zCptr s r.tgt = zCptr s r.src → disabled s (surfaceAct s (zoneSurface s r.tgt)) = false →
      Completes .copyEnd s fun t => rwPhase t = 3 ∧ bit t Reg.ZTB_AREVT 3 = true ∧ zState t r.tgt = zFull ∧ t.arc = s.arc)
    ∧ (∀ (r : RewrapRun), s.arc.rewrap = some r → rwPhase s ≠ 2 ∨ zCptr s r.tgt ≠ zCptr s r.src →
      Completes .copyEnd s fun t => t = s)
    ∧ (s.arc.rewrap = none →
      Completes .copyEnd s fun t => t = s)

/-- A start connects and runs the stream, a pause stops its appends and an abort makes its running entries
pending; the next pending entry starts when the peer zone and its source are right, and is marked with
the reason otherwise; an append that completes frees its buffers and lets the next go out, and the Flush
that completes ends the entry. Where the rules leave a point open it has the model's choice of log entry
60. -/
def Obligations.ZonesAreStreamed : Prop :=
  ∀ (s : State), s.wf = true →
    (s.arc.mode ≠ .running → streamMode s = true → s.arc.entries = [] →
      Completes .streamStart s fun t => t.arc.mode = .running ∧ t.arc.sent = s.arc.sent ++ [.connect] ∧ OnlyRegs [] s t)
    ∧ (s.arc.mode ≠ .running → streamMode s = false →
      Completes .streamStart s fun t => t.arc.mode = .suspended ∧ t.arc.sent = s.arc.sent ∧ OnlyRegs [] s t)
    ∧ (s.arc.mode = .running →
      Completes .streamStart s fun t => t = s)
    ∧ (Completes .streamPause s fun t => t = { s with arc := { s.arc with mode := if s.arc.mode = .off then .off else .paused } })
    ∧ (∀ (x : StreamEntry), s.arc.entries = [x] → s.arc.mode = .running → x.held = [] → x.entry < s.arc.states.length →
      Completes .streamAbort s fun t => t.arc.entries = [] ∧ t.arc.mode = .paused ∧ entryState t x.entry = 0)
    ∧ (s.arc.entries = [] → s.arc.mode = .off →
      Completes .streamAbort s fun t => t.arc.entries = [] ∧ t.arc.mode = s.arc.mode ∧ t.arc.states = s.arc.states ∧ OnlyRegs [] s t)
    ∧ (∀ (e : Nat) (peer : Bool) (cap : DWord) (zasl : Word), s.arc.mode = .running → s.arc.entries.length < streamWidth s → ((List.range (planEntries s)).find? fun i => entryState s i == 0) = some e → peer = true → zCptr s (planZone s e) ≤ cap.toNat → streamSource s e = true → s.arc.entries = [] → e < s.arc.states.length → 0 < zCptr s (planZone s e) →
      Completes (.streamEntryStart peer cap zasl) s fun t => entryState t e = 1 ∧ (t.arc.entries.map StreamEntry.entry) = (s.arc.entries.map StreamEntry.entry) ++ [e] ∧ t.arc.sent = s.arc.sent ∧ OnlyRegs [] s t)
    ∧ (∀ (e : Nat) (peer : Bool) (cap : DWord) (zasl : Word), s.arc.mode = .running → s.arc.entries.length < streamWidth s → ((List.range (planEntries s)).find? fun i => entryState s i == 0) = some e → peer = false ∨ cap.toNat < zCptr s (planZone s e) → e < s.arc.states.length →
      Completes (.streamEntryStart peer cap zasl) s fun t => entryState t e = 0x11 ∧ t.arc.entries = s.arc.entries ∧ t.arc.sent = s.arc.sent ∧ OnlyRegs [] s t)
    ∧ (∀ (e : Nat) (peer : Bool) (cap : DWord) (zasl : Word), s.arc.mode = .running → s.arc.entries.length < streamWidth s → ((List.range (planEntries s)).find? fun i => entryState s i == 0) = some e → peer = true → zCptr s (planZone s e) ≤ cap.toNat → streamSource s e = false → e < s.arc.states.length →
      Completes (.streamEntryStart peer cap zasl) s fun t => entryState t e = 0x10 ∧ t.arc.entries = s.arc.entries ∧ t.arc.sent = s.arc.sent ∧ OnlyRegs [] s t)
    ∧ (∀ (peer : Bool) (cap : DWord) (zasl : Word), s.arc.mode ≠ .running ∨ streamWidth s ≤ s.arc.entries.length →
      Completes (.streamEntryStart peer cap zasl) s fun t => t = s)
    ∧ (∀ (x : StreamEntry) (e : Fin 524288) (lba : DWord), s.arc.entries = [x] → x.entry = e.val → s.arc.mode = .running → planZone s e = 7 → zCptr s 7 = x.size → x.flying = [(4, 4)] → lba.toNat = planPeer s e + 4 → x.held = [] → x.reader.ready = x.issued → x.issued < x.size → 0 < x.chunk → x.flush = false →
      Completes (.peerCompletion e false 4 0 lba) s fun t => t.arc.bytes = s.arc.bytes + 4096 * 4 ∧ (t.arc.entries.map fun y => (y.done, y.flying)) = [(x.done + 4, [])] ∧ t.arc.sent = s.arc.sent ∧ OnlyRegs [] s t)
    ∧ (∀ (x : StreamEntry) (e : Fin 524288) (lba : DWord), s.arc.entries = [x] → x.entry = e.val → s.arc.mode = .running → planZone s e = 7 → zCptr s 7 = x.size → x.flying = [(4, 4)] → lba.toNat = planPeer s e + 4 → x.held = [] → x.issued = x.size → x.flush = false →
      Completes (.peerCompletion e false 4 0 lba) s fun t => (t.arc.entries.map fun y => (y.done, y.flush)) = [(x.done + 4, true)] ∧ t.arc.sent = s.arc.sent ++ [.flush x.entry])
    ∧ (∀ (x : StreamEntry) (e : Fin 524288) (o : BitVec 18) (status : BitVec 15) (lba : DWord), s.arc.entries = [x] → x.entry = e.val → s.arc.mode = .running → planZone s e = 7 → zCptr s 7 = x.size → x.flying = [(o.toNat, 4)] → status.toNat ≠ 0 → x.held = [] → x.entry < s.arc.states.length →
      Completes (.peerCompletion e false o status lba) s fun t => entryState t x.entry = 0x13 ∧ t.arc.entries = [] ∧ OnlyRegs [] s t)
    ∧ (∀ (x : StreamEntry) (e : Fin 524288) (o : BitVec 18) (lba : DWord), s.arc.entries = [x] → x.entry = e.val → s.arc.mode = .running → planZone s e = 7 → zCptr s 7 = x.size → x.flying = [(o.toNat, 4)] → lba.toNat ≠ planPeer s e + o.toNat → x.mismatch = false → x.held = [] →
      Completes (.peerCompletion e false o 0 lba) s fun t => (t.arc.entries.map fun y => (y.single, y.mismatch, y.issued, y.done)) = [(true, true, 0, 0)] ∧ t.arc.sent = s.arc.sent ++ [.resetZone x.entry])
    ∧ (∀ (x : StreamEntry) (e : Fin 524288) (o : BitVec 18) (lba : DWord), s.arc.entries = [x] → x.entry = e.val → s.arc.mode = .running → planZone s e = 7 → zCptr s 7 = x.size → x.flying = [(o.toNat, 4)] → lba.toNat ≠ planPeer s e + o.toNat → x.mismatch = true → x.held = [] → x.entry < s.arc.states.length →
      Completes (.peerCompletion e false o 0 lba) s fun t => entryState t x.entry = 0x14 ∧ t.arc.entries = [])
    ∧ (∀ (x : StreamEntry) (e : Fin 524288) (o : BitVec 18) (status : BitVec 15) (lba : DWord), s.arc.entries = [x] → x.entry = e.val → s.arc.mode = .running → planZone s e = 7 → zCptr s 7 = x.size → x.flush = true → x.held = [] → x.entry < s.arc.states.length →
      Completes (.peerCompletion e true o status lba) s fun t => entryState t x.entry = (if status.toNat = 0 then 2 else 0x13) ∧ t.arc.entries = [] ∧ OnlyRegs [] s t)
    ∧ (∀ (e : Fin 524288) (f : Bool) (o : BitVec 18) (status : BitVec 15) (lba : DWord), (s.arc.entries.find? fun y => y.entry == e.val) = none →
      Completes (.peerCompletion e f o status lba) s fun t => t = s)

/-- A write of GO is accepted or refused with the reason; a calibration in STANDBY takes the chains offline
in CALIBRATE, a deferred one in READY or ACTIVE first asks for SPINNING; the chains' measurement ends
with PASS, or FAIL and the code; new trims take effect once their record is durable, and the module
returns to where it was. Where the rules leave a point open it has the model's choice of log entry 55. -/
def Obligations.CalibrationsRun : Prop :=
  ∀ (s : State), s.wf = true →
    (calCheck s false ≠ CalRes.accepted →
      Completes .calibrate s fun t => getF t Reg.CAL_STS 4 3 = calCheck s false ∧ bit t Reg.CAL_EVT 2 = true ∧ mode t = mode s ∧ t.cal = s.cal ∧ t.sys = s.sys ∧ OnlyRegsEvr [Reg.CAL_STS, Reg.CAL_EVT] s t)
    ∧ (calCheck s false = CalRes.accepted → hotMode (mode s) = false →
      Completes .calibrate s fun t => mode t = Mode.calibrate ∧ bit t Reg.CAL_STS 0 = true ∧ getF t Reg.CAL_STS 1 3 = 3 ∧ getF t Reg.CAL_STS 4 3 = CalRes.accepted ∧ t.cal.run = some ⟨mode s, false, true, false, []⟩ ∧ spnPhase t = SpnPhase.coast)
    ∧ (calCheck s true = CalRes.accepted → hotMode (mode s) = false →
      Completes .calibrateDeferred s fun t => mode t = Mode.calibrate ∧ bit t Reg.CAL_STS 0 = true ∧ getF t Reg.CAL_STS 1 3 = 3 ∧ getF t Reg.CAL_STS 4 3 = CalRes.accepted ∧ t.cal.run = some ⟨mode s, false, true, false, []⟩ ∧ spnPhase t = SpnPhase.coast)
    ∧ (calCheck s true ≠ CalRes.accepted →
      Completes .calibrateDeferred s fun t => getF t Reg.CAL_STS 4 3 = calCheck s true ∧ bit t Reg.CAL_EVT 2 = true ∧ mode t = mode s ∧ t.cal = s.cal ∧ t.sys = s.sys ∧ OnlyRegsEvr [Reg.CAL_STS, Reg.CAL_EVT] s t)
    ∧ (calCheck s true = CalRes.accepted → hotMode (mode s) = true → s.sys.step = none →
      Completes .calibrateDeferred s fun t => (t.cal.run.map fun r => (r.origin, r.deferred)) = some (mode s, true) ∧ bit t Reg.CAL_STS 0 = true ∧ (getF t Reg.CAL_STS 1 3 = 1 ∨ getF t Reg.CAL_STS 1 3 = 2) ∧ t.sys.target = some Mode.spinning ∧ getF t Reg.SYS_MREQ 0 4 = Mode.spinning ∧ mode t = mode s)
    ∧ (∀ (r : CalRun) (ref : Word) (trims : BitVec 384), s.cal.run = some r → r.offline = true → mode s = Mode.calibrate → fpNonFinite ref.toNat = false → 12375 / 10000 ≤ fpVal ref.toNat ∧ fpVal ref.toNat ≤ 12625 / 10000 → (∀ n : Fin 6, chainUsed s n = true → trimOk (bitsOf trims.toNat (64 * n.val) 32) (bitsOf trims.toNat (64 * n.val + 32) 32) = true) →
      Completes (.chainsOnline ref trims) s fun t => rdN t Reg.CAL_REF = ref.toNat ∧ getF t Reg.CAL_STS 1 3 = 4 ∧ (t.cal.run.map fun x => (x.offline, x.trims.length)) = some (false, 12) ∧ mode t = Mode.calibrate ∧ rdN t Reg.CAL_RES = rdN s Reg.CAL_RES)
    ∧ (∀ (r : CalRun) (ref : Word) (trims : BitVec 384), s.cal.run = some r → r.offline = true → mode s = Mode.calibrate → s.cal.held = none → r.origin = Mode.standby → r.deferred = false → fpNonFinite ref.toNat = false → fpVal ref.toNat < 1 / 10 →
      Completes (.chainsOnline ref trims) s fun t => rdN t Reg.CAL_RES = 2 + 2 ^ 4 * 1 ∧ bit t Reg.CAL_EVT 1 = true ∧ rdN t Reg.CAL_COUNT = min (rdN s Reg.CAL_COUNT + 1) (2 ^ 32 - 1) ∧ rd64 t Reg.CAL_LASTTIME = ptp s ∧ (r.origin = Mode.standby → r.deferred = false → mode t = Mode.standby ∧ t.cal.run = none ∧ bit t Reg.CAL_STS 0 = false) ∧ rdN t Reg.CAL_REF = ref.toNat)
    ∧ (∀ (r : CalRun) (ref : Word) (trims : BitVec 384), s.cal.run = some r → r.offline = true → mode s = Mode.calibrate → s.cal.held = none → r.origin = Mode.standby → r.deferred = false → fpNonFinite ref.toNat = true ∨ (1 / 10 ≤ fpVal ref.toNat ∧ (fpVal ref.toNat < 12375 / 10000 ∨ 12625 / 10000 < fpVal ref.toNat)) →
      Completes (.chainsOnline ref trims) s fun t => rdN t Reg.CAL_RES = 2 + 2 ^ 4 * 2 ∧ bit t Reg.CAL_EVT 1 = true ∧ rdN t Reg.CAL_COUNT = min (rdN s Reg.CAL_COUNT + 1) (2 ^ 32 - 1) ∧ rd64 t Reg.CAL_LASTTIME = ptp s ∧ (r.origin = Mode.standby → r.deferred = false → mode t = Mode.standby ∧ t.cal.run = none ∧ bit t Reg.CAL_STS 0 = false) ∧ rdN t Reg.CAL_REF = ref.toNat)
    ∧ (∀ (r : CalRun) (ref : Word) (trims : BitVec 384), s.cal.run = some r → r.offline = true → mode s = Mode.calibrate → s.cal.held = none → fpNonFinite ref.toNat = false → 12375 / 10000 ≤ fpVal ref.toNat ∧ fpVal ref.toNat ≤ 12625 / 10000 → (∃ n : Fin 6, chainUsed s n = true ∧ trimOk (bitsOf trims.toNat (64 * n.val) 32) (bitsOf trims.toNat (64 * n.val + 32) 32) = false) →
      Completes (.chainsOnline ref trims) s fun t => bitsOf (rdN t Reg.CAL_RES) 0 8 = 2 + 2 ^ 4 * 3 ∧ (∀ n : Fin 6, bit t Reg.CAL_RES (8 + n) = (chainUsed s n && !trimOk (bitsOf trims.toNat (64 * n.val) 32) (bitsOf trims.toNat (64 * n.val + 32) 32))))
    ∧ (∀ (ref : Word) (trims : BitVec 384), s.cal.run = none →
      Completes (.chainsOnline ref trims) s fun t => t = s)
    ∧ (∀ (r : CalRun), s.cal.run = some r → calPhase s = 4 → mode s = Mode.calibrate → s.cal.held = none →
      Completes (.calRecordDurable true) s fun t => rdN t Reg.CAL_RES = 1 ∧ bit t Reg.CAL_EVT 0 = true ∧ bit t Reg.CAL_STS 8 = false ∧ t.cal.copy = 1 - s.cal.copy ∧ rdN t Reg.CAL_SEQ = (rdN s Reg.CAL_SEQ + 1) % 2 ^ 32 ∧ rdN t Reg.CAL_COUNT = min (rdN s Reg.CAL_COUNT + 1) (2 ^ 32 - 1)
        ∧ (∀ n : Fin 6, rdN t (Reg.CAL_GAIN n) = (r.trims.getD (2 * n.val) 0) % 2 ^ 32 ∧ rdN t (Reg.CAL_OFS n) = (r.trims.getD (2 * n.val + 1) 0) % 2 ^ 32))
    ∧ (∀ (r : CalRun), s.cal.run = some r → calPhase s = 4 → mode s = Mode.calibrate → s.cal.held = none → s.cal.copy ≤ 1 → r.trims.length = 12 →
      Completes (.calRecordDurable true) s fun t => calCopyOk t (1 - s.cal.copy) = true ∧ calSeq t (1 - s.cal.copy) = (rdN s Reg.CAL_SEQ + 1) % 2 ^ 32)
    ∧ (∀ (r : CalRun) (ok : Bool), s.cal.run = some r → calPhase s = 4 → mode s = Mode.calibrate → s.cal.held = none → r.origin = Mode.standby → r.deferred = false →
      Completes (.calRecordDurable ok) s fun t => mode t = Mode.standby ∧ t.cal.run = none ∧ bit t Reg.CAL_STS 0 = false ∧ rdN t Reg.CAL_RES = (if ok then 1 else 2 + 2 ^ 4 * 4) ∧ rd64 t Reg.CAL_LASTTIME = ptp s)
    ∧ (∀ (r : CalRun), s.cal.run = some r → calPhase s = 4 → mode s = Mode.calibrate → s.cal.held = none →
      Completes (.calRecordDurable false) s fun t => (∀ n : Fin 6, rdN t (Reg.CAL_GAIN n) = rdN s (Reg.CAL_GAIN n) ∧ rdN t (Reg.CAL_OFS n) = rdN s (Reg.CAL_OFS n)) ∧ rdN t Reg.CAL_SEQ = rdN s Reg.CAL_SEQ ∧ t.cal.copy = s.cal.copy ∧ bit t Reg.CAL_EVT 1 = true)
    ∧ (∀ (ok : Bool), s.cal.run = none ∨ calPhase s ≠ 4 →
      Completes (.calRecordDurable ok) s fun t => t = s)

/-- A test starts with its counts at zero when its checks pass, and reports the first that fails; it ends at
its stop or after its duration, with the counts where it is locked. Where the rules leave a point open
it has the model's choice of log entries 5 and 56. -/
def Obligations.LinkTestsRun : Prop :=
  ∀ (s : State) (n : Fin 8), s.wf = true →
    (tstCheck s n = TstRes.ok → targetPort (tstTarget s n) = none →
      Completes (.tstGo n) s fun t => tstRun t n = true ∧ rdN t (Reg.TST_STS n) = 1 ∧ rdN t (Reg.TST_ERR n) = 0 ∧ rd64 t (Reg.TST_BITS n) = 0 ∧ rdN t (Reg.TST_FAIL n) = 0 ∧ t.cal = { s.cal with tests := modAt s.cal.tests n fun _ => s.clock } ∧ OnlyRegs [Reg.TST_STS n, Reg.TST_ERR n, Reg.TST_BITS n, Reg.TST_BITS n + 4, Reg.TST_FAIL n] s t)
    ∧ (∀ (p : Nat), tstCheck s n = TstRes.ok → targetPort (tstTarget s n) = some p →
      Completes (.tstGo n) s fun t => tstRun t n = true ∧ rdN t (Reg.TST_STS n) = 1 ∧ rdN t (Reg.TST_ERR n) = 0 ∧ rd64 t (Reg.TST_BITS n) = 0 ∧ rdN t (Reg.TST_FAIL n) = 0 ∧ t.cal = { s.cal with tests := modAt s.cal.tests n fun _ => s.clock } ∧ portFailed t p = true)
    ∧ (tstRun s n = false → tstCheck s n ≠ TstRes.ok →
      Completes (.tstGo n) s fun t => getF t (Reg.TST_STS n) 4 4 = tstCheck s n ∧ tstRun t n = false ∧ OnlyRegs [Reg.TST_STS n] s t ∧ t.sram = s.sram ∧ t.nand = s.nand)
    ∧ (tstRun s n = true →
      Completes (.tstGo n) s fun t => OnlyRegs [] s t ∧ t.cal = s.cal ∧ t.sram = s.sram ∧ t.nand = s.nand)
    ∧ (∀ (e : Word) (b : DWord) (f : Word) (lock : Bool), tstRun s n = true → rdN s (Reg.TST_DUR n) = 0 → (bit s (Reg.TST_CFG n) 13 = false ∧ (lock = true ∨ locks (getF s (Reg.TST_CFG n) 8 4) = false)) →
      Completes (.tstStop n e b f lock) s fun t => tstRun t n = false ∧ getF t (Reg.TST_STS n) 4 4 = TstRes.ok ∧ bit t Reg.TST_EVT n = true ∧ (targetPort (tstTarget s n) = none → OnlyRegsEvr [Reg.TST_STS n, Reg.TST_ERR n, Reg.TST_BITS n, Reg.TST_BITS n + 4, Reg.TST_FAIL n, Reg.TST_EVT] s t)
        ∧ rdN t (Reg.TST_ERR n) = e.toNat ∧ rd64 t (Reg.TST_BITS n) = b.toNat ∧ rdN t (Reg.TST_FAIL n) = f.toNat)
    ∧ (∀ (e : Word) (b : DWord) (f : Word) (lock : Bool), tstRun s n = true → rdN s (Reg.TST_DUR n) = 0 → ¬ (bit s (Reg.TST_CFG n) 13 = false ∧ (lock = true ∨ locks (getF s (Reg.TST_CFG n) 8 4) = false)) →
      Completes (.tstStop n e b f lock) s fun t => tstRun t n = false ∧ getF t (Reg.TST_STS n) 4 4 = TstRes.ok ∧ bit t Reg.TST_EVT n = true ∧ (targetPort (tstTarget s n) = none → OnlyRegsEvr [Reg.TST_STS n, Reg.TST_ERR n, Reg.TST_BITS n, Reg.TST_BITS n + 4, Reg.TST_FAIL n, Reg.TST_EVT] s t)
        ∧ rdN t (Reg.TST_ERR n) = rdN s (Reg.TST_ERR n) ∧ rd64 t (Reg.TST_BITS n) = rd64 s (Reg.TST_BITS n) ∧ rdN t (Reg.TST_FAIL n) = rdN s (Reg.TST_FAIL n))
    ∧ (∀ (e : Word) (b : DWord) (f : Word) (lock : Bool), tstRun s n = true → rdN s (Reg.TST_DUR n) ≠ 0 → s.cal.tests.getD n 0 + 1000000 * rdN s (Reg.TST_DUR n) ≤ s.clock → (bit s (Reg.TST_CFG n) 13 = false ∧ (lock = true ∨ locks (getF s (Reg.TST_CFG n) 8 4) = false)) →
      Completes (.testDurationEnd n e b f lock) s fun t => tstRun t n = false ∧ getF t (Reg.TST_STS n) 4 4 = TstRes.ok ∧ bit t Reg.TST_EVT n = true ∧ (targetPort (tstTarget s n) = none → OnlyRegsEvr [Reg.TST_STS n, Reg.TST_ERR n, Reg.TST_BITS n, Reg.TST_BITS n + 4, Reg.TST_FAIL n, Reg.TST_EVT] s t)
        ∧ rdN t (Reg.TST_ERR n) = e.toNat ∧ rd64 t (Reg.TST_BITS n) = b.toNat ∧ rdN t (Reg.TST_FAIL n) = f.toNat)
    ∧ (∀ (e : Word) (b : DWord) (f : Word) (lock : Bool), tstRun s n = true → rdN s (Reg.TST_DUR n) ≠ 0 → s.cal.tests.getD n 0 + 1000000 * rdN s (Reg.TST_DUR n) ≤ s.clock → ¬ (bit s (Reg.TST_CFG n) 13 = false ∧ (lock = true ∨ locks (getF s (Reg.TST_CFG n) 8 4) = false)) →
      Completes (.testDurationEnd n e b f lock) s fun t => tstRun t n = false ∧ getF t (Reg.TST_STS n) 4 4 = TstRes.ok ∧ bit t Reg.TST_EVT n = true ∧ (targetPort (tstTarget s n) = none → OnlyRegsEvr [Reg.TST_STS n, Reg.TST_ERR n, Reg.TST_BITS n, Reg.TST_BITS n + 4, Reg.TST_FAIL n, Reg.TST_EVT] s t)
        ∧ rdN t (Reg.TST_ERR n) = rdN s (Reg.TST_ERR n) ∧ rd64 t (Reg.TST_BITS n) = rd64 s (Reg.TST_BITS n) ∧ rdN t (Reg.TST_FAIL n) = rdN s (Reg.TST_FAIL n))
    ∧ (∀ (e : Word) (b : DWord) (f : Word) (lock : Bool), tstRun s n = false ∨ rdN s (Reg.TST_DUR n) ≠ 0 →
      Completes (.tstStop n e b f lock) s fun t => OnlyRegs [] s t ∧ t.cal = s.cal)
    ∧ (∀ (e : Word) (b : DWord) (f : Word) (lock : Bool), tstRun s n = false ∨ rdN s (Reg.TST_DUR n) = 0 →
      Completes (.testDurationEnd n e b f lock) s fun t => t = s)

/-- Each TAP instruction selects its register and captures what it captures; one that drives outputs is
accepted only while RESET_N is low, and FWLOAD only in SAFE-HOLD with cause NOFW, where it writes the
firmware slot; otherwise the TAP executes BYPASS. No instruction but FWLOAD changes anything else. Where
the rules leave a point open it has the model's choice of log entry 62. -/
def Obligations.TapInstructionsRun : Prop :=
  ∀ (s : State), s.wf = true →
    (Completes .bypass s fun t => t = { s with tap := { s.tap with instr := .bypass, captured := 0, driven := none } })
    ∧ (Completes .idcode s fun t => t = { s with tap := { s.tap with instr := .idcode, captured := 0x1880054B, driven := none } })
    ∧ (Completes .highz s fun t => t = { s with tap := { s.tap with instr := .highz, captured := 0, driven := none } })
    ∧ (∀ (scl sda : Bool) (load : BitVec 21),
      Completes (.samplePreload scl sda load) s fun t => t = { s with tap := { s.tap with instr := .sample, captured := tapPins s scl sda, boundary := load.toNat, driven := none } })
    ∧ (∀ (scl sda : Bool) (load : BitVec 21),
      Completes (.samplePreload scl sda load) s fun t => (∀ n : Fin 8, t.tap.captured.testBit n = wgOut s n ∧ t.tap.captured.testBit (8 + n) = assistOut s n) ∧ t.tap.captured.testBit 18 = scl ∧ t.tap.captured.testBit 19 = sda ∧ t.tap.captured.testBit 20 = !s.sys.resetLow)
    ∧ (s.sys.resetLow = true →
      Completes .extest s fun t => t = { s with tap := { s.tap with instr := .extest, captured := s.tap.boundary, driven := some s.tap.boundary } })
    ∧ (s.sys.resetLow = false →
      Completes .extest s fun t => t = { s with tap := { s.tap with instr := .bypass, captured := 0, driven := none } })
    ∧ (s.sys.resetLow = true →
      Completes .extestPulse s fun t => t = { s with tap := { s.tap with instr := .extestPulse, captured := s.tap.boundary, driven := some s.tap.boundary } })
    ∧ (s.sys.resetLow = false →
      Completes .extestPulse s fun t => t = { s with tap := { s.tap with instr := .bypass, captured := 0, driven := none } })
    ∧ (s.sys.resetLow = true →
      Completes .extestTrain s fun t => t = { s with tap := { s.tap with instr := .extestTrain, captured := s.tap.boundary, driven := some s.tap.boundary } })
    ∧ (s.sys.resetLow = false →
      Completes .extestTrain s fun t => t = { s with tap := { s.tap with instr := .bypass, captured := 0, driven := none } })
    ∧ (s.sys.resetLow = true →
      Completes .clamp s fun t => t = { s with tap := { s.tap with instr := .clamp, captured := 0, driven := some s.tap.boundary } })
    ∧ (s.sys.resetLow = false →
      Completes .clamp s fun t => t = { s with tap := { s.tap with instr := .bypass, captured := 0, driven := none } })
    ∧ (∀ (m : Fin 2) (image : List Byte) (i : Nat), fwloadOk s = true → i < fwSlotSize →
      Completes (.fwload m image) s fun t => nandByte t (fwSlotSize * m + i) = (image.getD i 255).toNat)
    ∧ (∀ (m : Fin 2) (image : List Byte), fwloadOk s = true →
      Completes (.fwload m image) s fun t => t.tap.instr = .fwload ∧ t.tap.driven = none ∧ OnlyRegs [] s t ∧ t.sram = s.sram ∧ t.sys = s.sys)
    ∧ (∀ (m : Fin 2) (image : List Byte) (a : Nat), fwloadOk s = true → a < fwSlotSize * m ∨ fwSlotSize * (m.val + 1) ≤ a →
      Completes (.fwload m image) s fun t => nandByte t a = nandByte s a)
    ∧ (∀ (m : Fin 2) (image : List Byte), fwloadOk s = false →
      Completes (.fwload m image) s fun t => t = { s with tap := { s.tap with instr := .bypass, captured := 0, driven := none } })

/-- A store and an erase of the right size, outside the protected ranges, are posted; a load carries out the
posts it waits for and answers the bytes, or a bus error after a failure; a due page is programmed; an
erase sets every bit of its block and of no other. Where the rules leave a point open it has the model's
choice of log entries 58 and 63. -/
def Obligations.FlashIsReadAndWritten : Prop :=
  ∀ (s : State) (c : Fin 6), s.wf = true →
    (∀ (off : BitVec 29) (size : AccessSize) (ok : Bool), off.toNat + accessBytes size ≤ 0x20000000 → s.flash.posts = [] → c.val ∉ s.flash.failed →
      Completes (.nandLoad c off size ok) s fun t => t.busData = leNat (nandBytes s off.toNat (accessBytes size)) ∧ t.busError = false ∧ t.nand = s.nand ∧ t.flash = s.flash ∧ OnlyRegs [] s t)
    ∧ (∀ (off : BitVec 29) (size : AccessSize) (ok : Bool), off.toNat + accessBytes size ≤ 0x20000000 → s.flash.posts = [] → c.val ∈ s.flash.failed →
      Completes (.nandLoad c off size ok) s fun t => t.busError = true ∧ t.nand = s.nand ∧ t.flash.failed = s.flash.failed.filter (· != c.val) ∧ OnlyRegs [] s t)
    ∧ (∀ (off : BitVec 29) (size : AccessSize) (ok : Bool), 0x20000000 < off.toNat + accessBytes size →
      Completes (.nandLoad c off size ok) s fun t => t.busError = true ∧ t.nand = s.nand ∧ t.flash = s.flash ∧ OnlyRegs [] s t)
    ∧ (∀ (off : BitVec 29) (d : DWord) (clk : Nat), off.toNat % 8 = 0 → s.flash.posts = [⟨c.val, off.toNat, some d, true, clk⟩] → c.val ∉ s.flash.failed → (nandBytes s off.toNat 8).all (· == 255) = true →
      Completes (.nandLoad c off .double true) s fun t => t.busData = d.toNat ∧ t.busError = false ∧ t.flash.posts = [] ∧ nandBytes t off.toNat 8 = leBytes 8 d.toNat ∧ OnlyRegs [] s t)
    ∧ (∀ (off : BitVec 29) (d : DWord) (clk : Nat), off.toNat % 8 = 0 → s.flash.posts = [⟨c.val, off.toNat, some d, true, clk⟩] →
      Completes (.nandLoad c off .double false) s fun t => t.busError = true ∧ t.flash.posts = [] ∧ c.val ∉ t.flash.failed ∧ OnlyRegs [] s t)
    ∧ (∀ (off : BitVec 29) (size : AccessSize) (d : DWord), alignedDouble off.toNat size = true → nandRefuses s off.toNat (off.toNat + 8) = false → s.flash.posts = [] →
      Completes (.nandStore c off size d) s fun t => t.flash.posts = s.flash.posts ++ [⟨c.val, off.toNat, some d, true, s.clock⟩] ∧ t.busError = false ∧ t.nand = s.nand ∧ OnlyRegs [] s t)
    ∧ (∀ (off : BitVec 29) (size : AccessSize) (d : DWord), alignedDouble off.toNat size = true → nandRefuses s off.toNat (off.toNat + 8) = true →
      Completes (.nandStore c off size d) s fun t => t.busError = true ∧ t.nand = s.nand ∧ t.flash = s.flash ∧ (touchesLog off.toNat (off.toNat + 8) = true → bit t Reg.EVR_EVT 5 = true) ∧ OnlyRegsEvr [] s t)
    ∧ (∀ (off : BitVec 29) (size : AccessSize) (d : DWord), alignedDouble off.toNat size = false →
      Completes (.nandStore c off size d) s fun t => t.busError = true ∧ t.nand = s.nand ∧ t.flash = s.flash ∧ OnlyRegs [] s t)
    ∧ (∀ (off : BitVec 29) (size : AccessSize), alignedDouble off.toNat size = true → nandRefuses s (off.toNat / blockSize * blockSize) ((off.toNat / blockSize * blockSize) + blockSize) = false → s.flash.posts = [] →
      Completes (.nandErase c off size true) s fun t => t.busError = false ∧ t.flash = s.flash ∧ (∀ i, i < blockSize → nandByte t ((off.toNat / blockSize * blockSize) + i) = 255) ∧ (∀ a, a < (off.toNat / blockSize * blockSize) ∨ (off.toNat / blockSize * blockSize) + blockSize ≤ a → nandByte t a = nandByte s a) ∧ OnlyRegs [] s t)
    ∧ (∀ (off : BitVec 29) (size : AccessSize) (ok : Bool), alignedDouble off.toNat size = false ∨ nandRefuses s (off.toNat / blockSize * blockSize) ((off.toNat / blockSize * blockSize) + blockSize) = true →
      Completes (.nandErase c off size ok) s fun t => t.busError = true ∧ t.nand = s.nand ∧ t.flash = s.flash ∧ OnlyRegsEvr [] s t)
    ∧ (∀ (page : Fin 262144) (d : DWord) (clk : Nat), s.sys.powerLost = false → s.flash.posts = [⟨c.val, page.val * pageSize + 2040, some d, true, clk⟩] → (nandBytes s (page.val * pageSize + 2040) 8).all (· == 255) = true →
      Completes (.pageProgram page true) s fun t => t.flash.posts = [] ∧ nandBytes t (page.val * pageSize + 2040) 8 = leBytes 8 d.toNat ∧ t.flash.failed = s.flash.failed ∧ OnlyRegs [] s t)
    ∧ (∀ (page : Fin 262144) (d : DWord) (clk : Nat), s.sys.powerLost = false → s.flash.posts = [⟨c.val, page.val * pageSize, some d, true, clk⟩] → clk + 1000000 ≤ s.clock →
      Completes (.pageProgram page false) s fun t => t.flash.posts = [] ∧ c.val ∈ t.flash.failed ∧ OnlyRegs [] s t)
    ∧ (∀ (page : Fin 262144) (ok : Bool), s.sys.powerLost = true ∨ pageDue s page (pagePosts s page) = false →
      Completes (.pageProgram page ok) s fun t => t = s)

/-- A write outside the 25 blocks, of 8 or 16 bits, or not aligned ends with a bus error and changes
nothing; a write-1-to-clear register loses the bits written as 1; a plain writable register takes its
writable bits; a read-only register and a place without a register ignore a write; and a write to each
register named here that has a command of its own is that command. Where the rules leave a point open it
has the model's choice of log entries 10 and 11. -/
def Obligations.BusWritesReachRegisters : Prop :=
  ∀ (s : State) (c : Fin 6) (v : DWord), s.wf = true →
    (∀ (off : BitVec 29) (size : AccessSize), 0x190000 ≤ off.toNat ∨ size = .byte ∨ size = .half ∨ (size = .word ∧ off.toNat % 4 ≠ 0) ∨ (size = .double ∧ off.toNat % 8 ≠ 0) →
      Completes (.registerWrite c off size v) s fun t => t = { s with busError := true })
    ∧ (∀ (off : BitVec 29) (m : Nat), off.toNat ∈ [Reg.SYS_EVT, Reg.ECC_EVT, Reg.CCH_EVT, Reg.CIS_EVT, Reg.NQE_EVT, Reg.CPH_EVT, Reg.ANG_EVT, Reg.SPN_EVT, Reg.SLU_EVT, Reg.THM_EVT, Reg.CAL_EVT, Reg.EVR_EVT, Reg.IDN_EVT, Reg.TST_EVT, Reg.NOI_EVT, Reg.SEC_EVT, Reg.ZTB_EVT, Reg.ZTB_WPEVT, Reg.ZTB_AREVT] → ((regRow off.toNat).map fun r => r.wmask) = some m →
      Completes (.registerWrite c off .word v) s fun t => (∀ i : Fin 32, bit t off.toNat i = (bit s off.toNat i && !(v.toNat.testBit i && m.testBit i))) ∧ t.busError = false ∧ OnlyRegs [off.toNat] s t)
    ∧ (∀ (off : BitVec 29) (m : Nat), off.toNat ∈ [Reg.ECC_IEN, Reg.CCH_IEN, Reg.CIS_IEN, Reg.NQE_IEN, Reg.CPH_IEN, Reg.ANG_IEN, Reg.SPN_IEN, Reg.SLU_IEN, Reg.THM_IEN, Reg.CAL_IEN, Reg.EVR_IEN, Reg.IDN_IEN, Reg.TST_IEN, Reg.SEC_IEN, Reg.ZTB_IEN, Reg.ZTB_AREIEN] → ((regRow off.toNat).map fun r => r.wmask) = some m →
      Completes (.registerWrite c off .word v) s fun t => rdN t off.toNat = maskIn (rdN s off.toNat) (v.toNat % 2 ^ 32) m ∧ t.busError = false ∧ OnlyRegs [off.toNat] s t)
    ∧ (∀ (off : BitVec 29), off.toNat ∈ [Reg.SYS_STS, Reg.ANG_NOW, Reg.ANG_REV, Reg.ZTB_CONVCAP, Reg.NQE_INFL, Reg.SPN_SPEED, Reg.THM_TEMP, Reg.THM_LADDER, Reg.EVR_LOGPOS, Reg.EVR_NEXTSEQ, Reg.CAL_RES, Reg.SEC_ARB, Reg.SLU_STS, Reg.ECC_UECNT, Reg.CIS_FREECNT, Reg.ZTB_RWSTS] →
      Completes (.registerWrite c off .word v) s fun t => t = busOk s)
    ∧ (∀ (off : BitVec 29), off.toNat < 0x190000 → off.toNat % 4 = 0 → regRow off.toNat = none → off.toNat / 0x10000 ≠ 4 → off.toNat / 0x10000 ≠ 9 → off.toNat / 0x10000 ≠ 13 → off.toNat / 0x10000 ≠ 19 → off.toNat / 0x10000 ≠ 21 → off.toNat / 0x10000 ≠ 15 →
      Completes (.registerWrite c off .word v) s fun t => t = busOk s)
    ∧ (Completes (.registerWrite c (BitVec.ofNat 29 (Reg.SYS_CTL)) .word 1) s fun t => exec (.shreq) s = .next t)
    ∧ (Completes (.registerWrite c (BitVec.ofNat 29 (Reg.SYS_MREQ)) .word (BitVec.ofNat 64 Mode.standby)) s fun t => exec (.mreqStandby) s = .next t)
    ∧ (Completes (.registerWrite c (BitVec.ofNat 29 (Reg.SYS_MREQ)) .word (BitVec.ofNat 64 Mode.spinning)) s fun t => exec (.mreqSpinning) s = .next t)
    ∧ (Completes (.registerWrite c (BitVec.ofNat 29 (Reg.SYS_MREQ)) .word (BitVec.ofNat 64 Mode.slow)) s fun t => exec (.mreqSlow) s = .next t)
    ∧ (Completes (.registerWrite c (BitVec.ofNat 29 (Reg.SYS_MREQ)) .word (BitVec.ofNat 64 Mode.ready)) s fun t => exec (.mreqReady) s = .next t)
    ∧ (Completes (.registerWrite c (BitVec.ofNat 29 (Reg.SYS_MREQ)) .word (BitVec.ofNat 64 Mode.test)) s fun t => exec (.mreqTest) s = .next t)
    ∧ (Completes (.registerWrite c (BitVec.ofNat 29 (Reg.SYS_AHCTL)) .word 1) s fun t => exec (.holdActuator 0) s = .next t)
    ∧ (Completes (.registerWrite c (BitVec.ofNat 29 (Reg.SYS_AHCTL)) .word 0x200) s fun t => exec (.clearActuator 1) s = .next t)
    ∧ (Completes (.registerWrite c (BitVec.ofNat 29 (Reg.SYS_LANECLR)) .word v) s fun t => exec (.laneclr (v.setWidth 16)) s = .next t)
    ∧ (Completes (.registerWrite c (BitVec.ofNat 29 (Reg.CAL_CMD)) .word 1) s fun t => exec (.calibrate) s = .next t)
    ∧ (Completes (.registerWrite c (BitVec.ofNat 29 (Reg.CAL_CMD)) .word 3) s fun t => exec (.calibrateDeferred) s = .next t)
    ∧ (Completes (.registerWrite c (BitVec.ofNat 29 (Reg.EVR_SWTRIG)) .word v) s fun t => exec (.swtrig (Fin.ofNat 64 v.toNat)) s = .next t)
    ∧ (Completes (.registerWrite c (BitVec.ofNat 29 (Reg.EVR_GCLR)) .word v) s fun t => exec (.gclr (v.setWidth 8)) s = .next t)
    ∧ (Completes (.registerWrite c (BitVec.ofNat 29 (Reg.THM_THR)) .word v) s fun t => exec (.thrWrite (v.setWidth 32)) s = .next t)
    ∧ (Completes (.registerWrite c (BitVec.ofNat 29 (Reg.THM_CTL)) .word v) s fun t => exec (.floorWrite (v.setWidth 32)) s = .next t)
    ∧ (Completes (.registerWrite c (BitVec.ofNat 29 (Reg.THM_I5LIM)) .word v) s fun t => exec (.i5limWrite (v.setWidth 32)) s = .next t)
    ∧ (∀ (n : Fin 8),
      Completes (.registerWrite c (BitVec.ofNat 29 (Reg.TST_CMD n)) .word 1) s fun t => exec (.tstGo n) s = .next t)
    ∧ (Completes (.registerWrite c (BitVec.ofNat 29 (Reg.ZTB_RWCMD)) .word 1) s fun t => exec (.rewrapGo) s = .next t)
    ∧ (Completes (.registerWrite c (BitVec.ofNat 29 (Reg.ZTB_RWCMD)) .word 2) s fun t => exec (.rewrapAbort) s = .next t)
    ∧ (Completes (.registerWrite c (BitVec.ofNat 29 (Reg.ZTB_RWACK)) .word 1) s fun t => exec (.rwack) s = .next t)
    ∧ (Completes (.registerWrite c (BitVec.ofNat 29 (Reg.ZTB_BTLOAD)) .word 1) s fun t => exec (.btloadGo) s = .next t)
    ∧ (Completes (.registerWrite c (BitVec.ofNat 29 (Reg.SEC_VCMD)) .word 1) s fun t => exec (.vcmd) s = .next t)
    ∧ (Completes (.registerWrite c (BitVec.ofNat 29 (Reg.SEC_SGCMD)) .word 1) s fun t => exec (.sgcmd) s = .next t)
    ∧ (Completes (.registerWrite c (BitVec.ofNat 29 (Reg.SEC_LOCK)) .word 1) s fun t => exec (.secLock) s = .next t)
    ∧ (Completes (.registerWrite c (BitVec.ofNat 29 (Reg.SEC_ARBADV)) .word v) s fun t => exec (.arbadv (v.setWidth 7)) s = .next t)
    ∧ (Completes (.registerWrite c (BitVec.ofNat 29 (Reg.IDN_ACMD)) .word v) s fun t => exec (.idnAcmd (v.setWidth 32)) s = .next t)
    ∧ (Completes (.registerWrite c (BitVec.ofNat 29 (Reg.NQE_FWACT)) .word 1) s fun t => exec (.fwactHold true) s = .next t)
    ∧ (Completes (.registerWrite c (BitVec.ofNat 29 (Reg.NQE_FWACT)) .word 0) s fun t => exec (.fwactHold false) s = .next t)
    ∧ (Completes (.registerWrite c (BitVec.ofNat 29 Reg.ZTB_MAPIN) .double v) s fun t => exec (.mapin v) s = .next t)
    ∧ (Completes (.registerWrite c (BitVec.ofNat 29 (Reg.SLU_PESLIM)) .word v) s fun t => exec (.workingLimitWrite false (v.setWidth 32)) s = .next t)
    ∧ (∀ (off : BitVec 29), off.toNat < 0x190000 → off.toNat % 8 = 0 → wideOp off.toNat = none →
      Completes (.registerWrite c off .double v) s fun t => ∃ u, exec (.registerWrite c off .word v) s = .next u ∧ exec (.registerWrite c (off + 4) .word (v >>> 32)) u = .next t)

/-- After a power-on reset every level of the duty buckets is zero, and LANE_DBLVL reads zero of every head;
every other reset leaves the levels, what LANE_DBLVL reads, and the stop that their counting holds as
they were. -/
def Obligations.DutyLevelsOutliveResets : Prop :=
  ∀ (s : State), s.wf = true →
    (Completes .powerOnReset s fun t => (∀ i : Fin 24, t.dbLevel.getD i 1 = 0) ∧ ∀ a : Fin 2, ∀ h : Fin 12, rd t (Reg.LANE_DBLVL a h) = 0)
    ∧ (Completes .pinReset s fun t => t.dbLevel = s.dbLevel ∧ t.dbStop = s.dbStop ∧ ∀ a : Fin 2, ∀ h : Fin 12, rd t (Reg.LANE_DBLVL a h) = rd s (Reg.LANE_DBLVL a h))
    ∧ (Completes .fullReset s fun t => t.dbLevel = s.dbLevel ∧ t.dbStop = s.dbStop ∧ ∀ a : Fin 2, ∀ h : Fin 12, rd t (Reg.LANE_DBLVL a h) = rd s (Reg.LANE_DBLVL a h))
    ∧ (Completes .subsysReset s fun t => t.dbLevel = s.dbLevel ∧ t.dbStop = s.dbStop ∧ ∀ a : Fin 2, ∀ h : Fin 12, rd t (Reg.LANE_DBLVL a h) = rd s (Reg.LANE_DBLVL a h))
    ∧ (∀ (a : BitVec 16),
      Completes (.nssr a) s fun t => t.dbLevel = s.dbLevel ∧ t.dbStop = s.dbStop ∧ ∀ a : Fin 2, ∀ h : Fin 12, rd t (Reg.LANE_DBLVL a h) = rd s (Reg.LANE_DBLVL a h))
    ∧ (∀ (a : BitVec 16),
      Completes (.controllerReset a) s fun t => t.dbLevel = s.dbLevel ∧ t.dbStop = s.dbStop ∧ ∀ a : Fin 2, ∀ h : Fin 12, rd t (Reg.LANE_DBLVL a h) = rd s (Reg.LANE_DBLVL a h))
    ∧ (∀ (c : Fin 6),
      Completes (.watchdogReset c) s fun t => t.dbLevel = s.dbLevel ∧ t.dbStop = s.dbStop ∧ ∀ a : Fin 2, ∀ h : Fin 12, rd t (Reg.LANE_DBLVL a h) = rd s (Reg.LANE_DBLVL a h))

/-- In TEST a write of 1 to CPH_CTL.KAT while no invocation waits or runs starts the test, which ends with
CPH_CLOK showing the clusters that pass. While one waits or runs the write changes nothing. -/
def Obligations.LatticeIsTestedAtRest : Prop :=
  ∀ (s : State), s.wf = true → mode s = Mode.test →
    (∀ (c : Fin 6) (v : DWord), v.toNat.testBit 16 = true → s.cph.jobs = [] →
      Completes (.registerWrite c (BitVec.ofNat 29 Reg.CPH_CTL) .word v) s fun t => bit t Reg.CPH_CTL 16 = true ∧ OnlyRegs [Reg.CPH_CTL, Reg.CPH_STS] s t)
    ∧ (∀ (pass : BitVec 40) (drbg : Bool), bit s Reg.CPH_CTL 16 = true → pass.toNat ≠ 0 →
      Completes (.kat pass drbg) s fun t => rd64 t Reg.CPH_CLOK = pass.toNat ∧ bit t Reg.CPH_CTL 16 = false)
    ∧ (∀ (c : Fin 6) (v : DWord), v.toNat.testBit 16 = true → s.cph.jobs ≠ [] →
      Completes (.registerWrite c (BitVec.ofNat 29 Reg.CPH_CTL) .word v) s fun t => t = busOk s)
end

