-- ==== Sys2Proof/Laws/Store.lean ====
section
/-! SUPPORT. Laws of the sparse stores: a read after a write, and that every operation on a store keeps
its canonical form. -/

set_option Elab.async false

namespace Sys2Proof.Machine

variable {β : Type} {dflt : Nat → β}

/-- Every key of a store lies at `k` or above. -/
def sabove (l : List (Nat × β)) (k : Nat) : Prop := ∀ e ∈ l, k ≤ e.1

theorem scanon_cons [DecidableEq β] {a : Nat} {b : β} {l : List (Nat × β)} :
    scanon dflt ((a, b) :: l) = true ↔ b ≠ dflt a ∧ sabove l (a + 1) ∧ scanon dflt l = true := by
  simp only [scanon, sabove, Bool.and_eq_true, decide_eq_true_eq, List.all_eq_true, and_assoc]
  exact Iff.rfl

/-- A read of a key below every listed one finds the unlisted value. -/
theorem sget_below {l : List (Nat × β)} {k : Nat} (h : sabove l (k + 1)) : sget dflt l k = dflt k := by
  cases l with
  | nil => rfl
  | cons e l =>
    have := h e (by simp)
    simp [sget, show k ≠ e.1 by omega, show k < e.1 by omega]

theorem sput_above [DecidableEq β] {l : List (Nat × β)} {k j : Nat} {v : β} (h : sabove l j) (hk : j ≤ k) :
    sabove (sput dflt l k v) j := by
  induction l with
  | nil => intro e he; unfold sput at he; split at he <;> simp_all
  | cons x l ih =>
    have hx := h x (by simp)
    have hl : sabove l j := fun e he => h e (by simp [he])
    unfold sput
    split
    · split
      · exact h
      · intro e he
        rcases List.mem_cons.1 he with rfl | he
        · exact hk
        · exact h e he
    · split
      · split
        · exact hl
        · intro e he
          rcases List.mem_cons.1 he with rfl | he
          · exact hk
          · exact hl e he
      · intro e he
        rcases List.mem_cons.1 he with rfl | he
        · exact hx
        · exact ih hl e he

/-- A write keeps the canonical form. -/
theorem scanon_sput [DecidableEq β] {l : List (Nat × β)} (k : Nat) (v : β) (h : scanon dflt l = true) :
    scanon dflt (sput dflt l k v) = true := by
  induction l with
  | nil => unfold sput; split <;> simp_all [scanon]
  | cons x l ih =>
    obtain ⟨a, b⟩ := x
    obtain ⟨hb, hab, hl⟩ := scanon_cons.1 h
    unfold sput
    split
    · rename_i hka
      split
      · exact h
      · rename_i hv
        refine scanon_cons.2 ⟨hv, fun e he => ?_, h⟩
        rcases List.mem_cons.1 he with rfl | he
        · exact hka
        · have := hab e he; omega
    · split
      · rename_i hka
        split
        · exact hl
        · rename_i hv
          exact scanon_cons.2 ⟨hv, hka ▸ hab, hl⟩
      · exact scanon_cons.2 ⟨hb, sput_above hab (by omega), ih hl⟩

/-- Dropping entries keeps the canonical form. -/
theorem scanon_filter [DecidableEq β] {l : List (Nat × β)} (p : Nat × β → Bool) (h : scanon dflt l = true) :
    scanon dflt (l.filter p) = true := by
  induction l with
  | nil => simpa
  | cons x l ih =>
    obtain ⟨a, b⟩ := x
    obtain ⟨hb, hab, hl⟩ := scanon_cons.1 h
    rw [List.filter_cons]
    split
    · exact scanon_cons.2 ⟨hb, fun e he => hab e ((List.mem_filter.1 he).1), ih hl⟩
    · exact ih hl

/-- Changing or dropping entries at their keys keeps the canonical form, if no unlisted value comes in. -/
theorem scanon_filterMap [DecidableEq β] {l : List (Nat × β)} (f : Nat × β → Option (Nat × β))
    (hf : ∀ e x, f e = some x → x.1 = e.1 ∧ x.2 ≠ dflt e.1) (h : scanon dflt l = true) :
    scanon dflt (l.filterMap f) = true := by
  induction l with
  | nil => simpa
  | cons x l ih =>
    obtain ⟨a, b⟩ := x
    obtain ⟨hb, hab, hl⟩ := scanon_cons.1 h
    rw [List.filterMap_cons]
    split
    · exact ih hl
    · rename_i y hy
      obtain ⟨h1, h2⟩ := hf _ _ hy
      obtain ⟨c, d⟩ := y
      simp only at h1 h2
      subst h1
      refine scanon_cons.2 ⟨h2, fun e he => ?_, ih hl⟩
      obtain ⟨z, hz, hze⟩ := List.mem_filterMap.1 he
      rw [(hf _ _ hze).1]
      exact hab z hz

/-- A read of the key just written finds the value written. -/
theorem sget_sput_same [DecidableEq β] {l : List (Nat × β)} (k : Nat) (v : β) (h : scanon dflt l = true) :
    sget dflt (sput dflt l k v) k = v := by
  induction l with
  | nil => unfold sput; split <;> simp_all [sget]
  | cons x l ih =>
    obtain ⟨a, b⟩ := x
    obtain ⟨hb, hab, hl⟩ := scanon_cons.1 h
    unfold sput
    split
    · split
      · simp_all [sget, show k ≠ a by omega]
      · simp [sget]
    · split
      · rename_i hka
        subst hka
        split
        · rename_i hv
          rw [sget_below hab, hv]
        · simp [sget]
      · rename_i h1 h2
        simp [sget, h2, h1, ih hl]

/-- A write leaves every other key as it was. -/
theorem sget_sput_ne [DecidableEq β] {l : List (Nat × β)} {k j : Nat} (v : β) (hne : j ≠ k) (h : scanon dflt l = true) :
    sget dflt (sput dflt l k v) j = sget dflt l j := by
  induction l with
  | nil => unfold sput; split <;> simp_all [sget]
  | cons x l ih =>
    obtain ⟨a, b⟩ := x
    obtain ⟨hb, hab, hl⟩ := scanon_cons.1 h
    unfold sput
    split
    · split
      · rfl
      · rename_i hka hv
        by_cases hj : j < k
        · simp [sget, hne, hj, show j ≠ a by omega, show j < a by omega]
        · simp [sget, hne, hj]
    · split
      · rename_i hka
        subst hka
        split
        · by_cases hj : j < k
          · rw [sget_below (fun e he => by have := hab e he; omega)]
            simp [sget, hne, hj]
          · simp [sget, hne, hj]
        · simp [sget, hne]
      · simp only [sget]
        split
        · rfl
        · split
          · rfl
          · exact ih hl

end Sys2Proof.Machine
end

