-- ==== Sys2Proof/Laws/Keeps.lean ====
section
/-! SUPPORT. What every operation of the machine keeps: the queue of waiting commands, and the canonical
form of the registers, the SRAM and the NAND. Each operation has one lemma, which carries the fact from
the state before it to the state after it. -/

set_option Elab.async false

namespace Sys2Proof.Machine

/-- ARB does not fall from `a` to `b`, and no REVOKE bit is cleared (R395). -/
structure OtpGrows (a b : SecState) : Prop where
  arb : a.arb ≤ b.arb
  revoke : ∀ k, a.revoke.testBit k = true → b.revoke.testBit k = true

theorem otpGrows_refl (a : SecState) : OtpGrows a a := ⟨Nat.le_refl _, fun _ h => h⟩

theorem OtpGrows.trans {a b c : SecState} (h : OtpGrows a b) (k : OtpGrows b c) : OtpGrows a c :=
  ⟨Nat.le_trans h.arb k.arb, fun i x => k.revoke i (h.revoke i x)⟩

/-- The fields of the mask `a` are among those of `m`. -/
def Within (a m : Nat) : Prop := a ||| m = m

theorem within_refl (m : Nat) : Within m m := Nat.or_self m

theorem within_trans {a b m : Nat} (h : a ||| b = b) (k : Within b m) : Within a m := by
  unfold Within at *
  rw [← k, ← Nat.or_assoc, h]

/-- Bit `i` of a mask that `m` holds. -/
theorem within_bit {b m : Nat} (i : Nat) (h : b.testBit i = true) (k : Within b m) : m.testBit i = true := by
  unfold Within at k
  rw [← k, Nat.testBit_or, h, Bool.true_or]

/-- From `s` to `t` the queue is the same, the OTP's ARB and REVOKE only grow, the stores
of `t` are canonical if those of `s` are, there are as many of each numbered unit, and no field of State
changes whose bit in the mask `m` is clear. -/
structure Keeps (m : Nat) (s t : State) : Prop where
  queue : t.pending = s.pending
  canon : Memory.wf s = true → Memory.wf t = true
  otp : OtpGrows s.sec t.sec
  fit : s.sized = true → t.sized = true
  frame : ∀ f : Field, m.testBit f.index = false → f.same s t

theorem Field.same_refl (f : Field) (s : State) : f.same s s := by
  cases f <;> rfl

theorem Field.same_trans {f : Field} {r s t : State} (h : f.same r s) (k : f.same s t) : f.same r t := by
  cases f <;> exact Eq.trans k h

theorem keeps_refl (m : Nat) (s : State) : Keeps m s s :=
  ⟨rfl, id, otpGrows_refl _, id, fun f _ => f.same_refl s⟩

theorem Keeps.trans {m : Nat} {r s t : State} (h : Keeps m r s) (k : Keeps m s t) : Keeps m r t :=
  ⟨k.queue.trans h.queue, fun w => k.canon (h.canon w), h.otp.trans k.otp, fun w => k.fit (h.fit w),
    fun f x => Field.same_trans (h.frame f x) (k.frame f x)⟩

/-- The numbered units as they were. -/
theorem sized_same {s t : State} (h1 : t.slots = s.slots) (h2 : t.lanes = s.lanes) (h3 : t.dbLevel = s.dbLevel)
    (h4 : t.dbStop = s.dbStop) (h5 : t.tsq = s.tsq) (h6 : t.srv = s.srv) (h7 : t.imone = s.imone)
    (h8 : t.net = s.net) (h9 : t.ang = s.ang) : s.sized = true → t.sized = true := by
  unfold State.sized
  rw [h1, h2, h3, h4, h5, h6, h7, h8, h9]
  exact id

theorem wf_iff {s : State} : Memory.wf s = true ↔
    scanon regReset s.regs = true ∧ scanon sramDflt s.sram = true ∧ scanon nandDflt s.nand = true := by
  simp [Memory.wf, and_assoc]

/-- A state with the same queue and stores. -/
theorem keeps_same {μ : Nat} {r s t : State} (h : Keeps μ r s) (hp : t.pending = s.pending) (hr : t.regs = s.regs)
    (hm : t.sram = s.sram) (hn : t.nand = s.nand) (ho : OtpGrows s.sec t.sec)
    (hz : s.sized = true → t.sized = true) (hf : ∀ f : Field, μ.testBit f.index = false → f.same s t) : Keeps μ r t :=
  ⟨hp.trans h.queue, fun w => by
    have := wf_iff.1 (h.canon w)
    rw [wf_iff, hr, hm, hn]
    exact this, h.otp.trans ho, fun w => hz (h.fit w), fun f x => Field.same_trans (h.frame f x) (hf f x)⟩

/-- A field that may change, or has not changed. -/
theorem masked {μ i : Nat} {p : Prop} (h : μ.testBit i = true ∨ p) (k : μ.testBit i = false) : p := by
  rcases h with h | h
  · rw [h] at k; cases k
  · exact h

/-- A change of the one field `i`, which the mask holds, leaves the fields outside the mask. -/
theorem same_but {μ b : Nat} {f : Field} {s t : State} (i : Nat) (hm : Within b μ)
    (hf : f.index ≠ i → f.same s t) (x : μ.testBit f.index = false) (hb : b.testBit i = true := by rfl) :
    f.same s t :=
  hf fun e => by
    rw [e, within_bit i hb hm] at x
    cases x

/-- A state that differs from `t` in no store and not in the queue. -/
theorem keeps_mk {μ : Nat} {s0 t : State}
    (draws : Nat) (clock : Nat) (ptpFrac : Rat) (busData : Nat) (busError : Bool) (evr : EvrState)
    (microcode : List (Nat × Word)) (ucLoad : Option UcLoad) (ztb : ZtbState) (nqe : NqeState)
    (cis : CisState) (rates : List Int) (spn : Spn) (slu : SluState) (sys : SysState)
    (noi : NoiState) (ecc : EccState) (cch : CchState) (cph : CphState) (thm : ThmState)
    (cal : CalState) (arc : ArcState) (tap : TapState) (flash : NandState)
    (hk : Keeps μ s0 t)
    (h : (μ.testBit 0 = true ∨ draws = t.draws) ∧ (μ.testBit 1 = true ∨ clock = t.clock)
      ∧ (μ.testBit 2 = true ∨ ptpFrac = t.ptpFrac) ∧ (μ.testBit 3 = true ∨ busData = t.busData)
      ∧ (μ.testBit 4 = true ∨ busError = t.busError) ∧ (μ.testBit 8 = true ∨ evr = t.evr)
      ∧ (μ.testBit 15 = true ∨ microcode = t.microcode) ∧ (μ.testBit 16 = true ∨ ucLoad = t.ucLoad)
      ∧ (μ.testBit 17 = true ∨ ztb = t.ztb) ∧ (μ.testBit 18 = true ∨ nqe = t.nqe)
      ∧ (μ.testBit 19 = true ∨ cis = t.cis) ∧ (μ.testBit 21 = true ∨ rates = t.rates)
      ∧ (μ.testBit 22 = true ∨ spn = t.spn) ∧ (μ.testBit 24 = true ∨ slu = t.slu)
      ∧ (μ.testBit 25 = true ∨ sys = t.sys) ∧ (μ.testBit 26 = true ∨ noi = t.noi)
      ∧ (μ.testBit 28 = true ∨ ecc = t.ecc) ∧ (μ.testBit 29 = true ∨ cch = t.cch)
      ∧ (μ.testBit 30 = true ∨ cph = t.cph) ∧ (μ.testBit 31 = true ∨ thm = t.thm)
      ∧ (μ.testBit 32 = true ∨ cal = t.cal) ∧ (μ.testBit 33 = true ∨ arc = t.arc)
      ∧ (μ.testBit 34 = true ∨ tap = t.tap) ∧ (μ.testBit 36 = true ∨ flash = t.flash)) :
    Keeps μ s0 (State.mk t.pending
      draws clock ptpFrac busData busError t.regs t.sram t.nand evr t.ang t.slots t.lanes t.dbLevel
      t.dbStop t.tsq microcode ucLoad ztb nqe cis t.srv rates spn t.sec slu sys noi t.net ecc cch
      cph thm cal arc tap t.imone flash) := by
  refine keeps_same hk rfl rfl rfl rfl (otpGrows_refl _) id fun f x => ?_
  obtain ⟨h0, h1, h2, h3, h4, h5, h6, h7, h8, h9, h10, h11, h12,
    h13, h14, h15, h16, h17, h18, h19, h20, h21, h22, h23⟩ := h
  cases f <;> first
    | rfl
    | exact masked h0 x
    | exact masked h1 x
    | exact masked h2 x
    | exact masked h3 x
    | exact masked h4 x
    | exact masked h5 x
    | exact masked h6 x
    | exact masked h7 x
    | exact masked h8 x
    | exact masked h9 x
    | exact masked h10 x
    | exact masked h11 x
    | exact masked h12 x
    | exact masked h13 x
    | exact masked h14 x
    | exact masked h15 x
    | exact masked h16 x
    | exact masked h17 x
    | exact masked h18 x
    | exact masked h19 x
    | exact masked h20 x
    | exact masked h21 x
    | exact masked h22 x
    | exact masked h23 x

/-- The same with a change of the SEC block's state that takes nothing back from ARB and REVOKE. -/
theorem keeps_mk_sec {μ : Nat} {s0 t : State}
    (draws : Nat) (clock : Nat) (ptpFrac : Rat) (busData : Nat) (busError : Bool) (evr : EvrState)
    (microcode : List (Nat × Word)) (ucLoad : Option UcLoad) (ztb : ZtbState) (nqe : NqeState)
    (cis : CisState) (rates : List Int) (spn : Spn) (slu : SluState) (sys : SysState)
    (noi : NoiState) (ecc : EccState) (cch : CchState) (cph : CphState) (thm : ThmState)
    (cal : CalState) (arc : ArcState) (tap : TapState) (flash : NandState) (sec : SecState)
    (hk : Keeps μ s0 t) (ho : OtpGrows t.sec sec)
    (h : (μ.testBit 0 = true ∨ draws = t.draws) ∧ (μ.testBit 1 = true ∨ clock = t.clock)
      ∧ (μ.testBit 2 = true ∨ ptpFrac = t.ptpFrac) ∧ (μ.testBit 3 = true ∨ busData = t.busData)
      ∧ (μ.testBit 4 = true ∨ busError = t.busError) ∧ (μ.testBit 8 = true ∨ evr = t.evr)
      ∧ (μ.testBit 15 = true ∨ microcode = t.microcode) ∧ (μ.testBit 16 = true ∨ ucLoad = t.ucLoad)
      ∧ (μ.testBit 17 = true ∨ ztb = t.ztb) ∧ (μ.testBit 18 = true ∨ nqe = t.nqe)
      ∧ (μ.testBit 19 = true ∨ cis = t.cis) ∧ (μ.testBit 21 = true ∨ rates = t.rates)
      ∧ (μ.testBit 22 = true ∨ spn = t.spn) ∧ (μ.testBit 23 = true ∨ sec = t.sec)
      ∧ (μ.testBit 24 = true ∨ slu = t.slu) ∧ (μ.testBit 25 = true ∨ sys = t.sys)
      ∧ (μ.testBit 26 = true ∨ noi = t.noi) ∧ (μ.testBit 28 = true ∨ ecc = t.ecc)
      ∧ (μ.testBit 29 = true ∨ cch = t.cch) ∧ (μ.testBit 30 = true ∨ cph = t.cph)
      ∧ (μ.testBit 31 = true ∨ thm = t.thm) ∧ (μ.testBit 32 = true ∨ cal = t.cal)
      ∧ (μ.testBit 33 = true ∨ arc = t.arc) ∧ (μ.testBit 34 = true ∨ tap = t.tap)
      ∧ (μ.testBit 36 = true ∨ flash = t.flash)) :
    Keeps μ s0 (State.mk t.pending
      draws clock ptpFrac busData busError t.regs t.sram t.nand evr t.ang t.slots t.lanes t.dbLevel
      t.dbStop t.tsq microcode ucLoad ztb nqe cis t.srv rates spn sec slu sys noi t.net ecc cch cph
      thm cal arc tap t.imone flash) := by
  refine keeps_same hk rfl rfl rfl rfl ho id fun f x => ?_
  obtain ⟨h0, h1, h2, h3, h4, h5, h6, h7, h8, h9, h10, h11, h12,
    h13, h14, h15, h16, h17, h18, h19, h20, h21, h22, h23, h24⟩ := h
  cases f <;> first
    | rfl
    | exact masked h0 x
    | exact masked h1 x
    | exact masked h2 x
    | exact masked h3 x
    | exact masked h4 x
    | exact masked h5 x
    | exact masked h6 x
    | exact masked h7 x
    | exact masked h8 x
    | exact masked h9 x
    | exact masked h10 x
    | exact masked h11 x
    | exact masked h12 x
    | exact masked h13 x
    | exact masked h14 x
    | exact masked h15 x
    | exact masked h16 x
    | exact masked h17 x
    | exact masked h18 x
    | exact masked h19 x
    | exact masked h20 x
    | exact masked h21 x
    | exact masked h22 x
    | exact masked h23 x
    | exact masked h24 x

/-- The state of a pair. -/
theorem keeps_snd {α : Type} {μ : Nat} {s0 s : State} {a : α} {p : α × State} (e : p = (a, s)) (hk : Keeps μ s0 p.2) :
    Keeps μ s0 s := by
  subst e
  exact hk

/-- The state of a triple. -/
theorem keeps_thd {α γ : Type} {μ : Nat} {s0 s : State} {a : α} {b : γ} {p : α × γ × State} (e : p = (a, b, s))
    (hk : Keeps μ s0 p.2.2) : Keeps μ s0 s := by
  subst e
  exact hk

/-- SRAM words are dropped: they read as the fill left them. -/
theorem keeps_sram_filter {μ : Nat} {s0 s : State} (p : Nat × SramWord → Bool) (hk : Keeps μ s0 s)
    (hm : Within 0x40 μ := by exact within_trans rfl (by assumption)) :
    Keeps μ s0 { s with sram := s.sram.filter p } :=
  ⟨hk.queue, fun w => by
    have := wf_iff.1 (hk.canon w)
    exact wf_iff.2 ⟨this.1, scanon_filter p this.2.1, this.2.2⟩, hk.otp, fun w => hk.fit w,
    fun f x => Field.same_trans (hk.frame f x) (same_but 6 hm (by cases f <;> simp [Field.index, Field.same]) x)⟩

/-- Other stores: canonical registers, and an SRAM as it was or as the fill leaves it. -/
theorem keeps_new {μ : Nat} {r s t : State} (hk : Keeps μ r s) (hp : t.pending = s.pending)
    (hr : scanon regReset s.regs = true → scanon regReset t.regs = true)
    (hm : t.sram = s.sram ∨ t.sram = []) (hn : t.nand = s.nand) (ho : OtpGrows s.sec t.sec)
    (hz : s.sized = true → t.sized = true) (hf : ∀ f : Field, μ.testBit f.index = false → f.same s t) :
    Keeps μ r t :=
  ⟨hp.trans hk.queue, fun w => by
    have := wf_iff.1 (hk.canon w)
    refine wf_iff.2 ⟨hr this.1, ?_, hn ▸ this.2.2⟩
    rcases hm with e | e
    · exact e ▸ this.2.1
    · rw [e]; rfl, hk.otp.trans ho, fun w => hz (hk.fit w),
    fun f x => Field.same_trans (hk.frame f x) (hf f x)⟩

/-- The mask of every field leaves nothing to show. -/
theorem full_mask {μ : Nat} {s t : State} (hm : Within 0x1fffffffff μ) (f : Field)
    (x : μ.testBit f.index = false) : f.same s t := by
  rw [within_bit f.index (by cases f <;> rfl) hm] at x
  cases x

/-- A choice between operations. -/
theorem keeps_ite {μ : Nat} {c : Prop} [Decidable c] {s0 s t : State} (h : Keeps μ s0 s) (k : Keeps μ s0 t) :
    Keeps μ s0 (if c then s else t) := by
  split
  · exact h
  · exact k

theorem modAt_length {α : Type} (l : List α) (i : Nat) (f : α → α) : (modAt l i f).length = l.length := by
  simp [modAt]

theorem modAt_all {α : Type} {l : List α} {p : α → Bool} (i : Nat) {f : α → α} (hf : ∀ x, p x = true → p (f x) = true)
    (h : l.all p = true) : (modAt l i f).all p = true := by
  induction l generalizing i with
  | nil => simp [modAt]
  | cons a l ih =>
    simp only [List.all_cons, Bool.and_eq_true] at h
    cases i with
    | zero => simp [modAt, hf a h.1, h.2]
    | succ i => simpa [modAt, h.1] using ih i h.2

theorem sized_iff {s : State} : s.sized = true ↔ s.slots.length = 8 ∧ s.lanes.length = 16
    ∧ s.dbLevel.length = 24 ∧ s.dbStop.length = 24 ∧ s.tsq.length = 2 ∧ s.tsq.all Tsq.sized = true
    ∧ s.srv.length = 2 ∧ s.srv.all Srv.sized = true ∧ s.imone.length = 2 ∧ s.net.sized = true
    ∧ s.ang.sized = true := by
  simp only [State.sized, Bool.and_eq_true, beq_iff_eq, and_assoc]

/-- A change of one field, `i`, that the mask holds. -/
theorem keeps_units {μ b : Nat} {s0 s t : State} (i : Nat) (hk : Keeps μ s0 s) (hz : s.sized = true → t.sized = true)
    (hm : Within b μ) (hb : b.testBit i = true := by rfl)
    (hf : ∀ f : Field, f.index ≠ i → f.same s t := by intro f; cases f <;> first | (intro h; exact absurd rfl h) | (intro _; rfl))
    (hp : t.pending = s.pending := by rfl) (hr : t.regs = s.regs := by rfl)
    (hs : t.sram = s.sram := by rfl) (hn : t.nand = s.nand := by rfl) (ho : t.sec = s.sec := by rfl) : Keeps μ s0 t :=
  keeps_same hk hp hr hs hn (ho ▸ otpGrows_refl _) hz fun f x => hf f fun e => by
    rw [e, within_bit i hb hm] at x
    cases x

/-- A fold of operations. -/
theorem keeps_foldl {α : Type} {μ : Nat} {s0 : State} {f : State → α → State} {l : List α} {s : State}
    (hf : ∀ t a, Keeps μ s0 t → Keeps μ s0 (f t a)) (h : Keeps μ s0 s) : Keeps μ s0 (l.foldl f s) := by
  induction l generalizing s with
  | nil => exact h
  | cons a l ih => exact ih (hf s a h)

theorem wr_keeps {μ : Nat} {s0 : State} (s : State) (a : Nat) (v : Word) (h : Keeps μ s0 s)
    (hm : Within 0x20 μ := by exact within_trans rfl (by assumption)) : Keeps μ s0 (wr s a v) :=
  ⟨h.queue, fun w => by
    have := wf_iff.1 (h.canon w)
    exact wf_iff.2 ⟨scanon_sput a v this.1, this.2.1, this.2.2⟩, h.otp, fun w => h.fit w,
    fun f x => Field.same_trans (h.frame f x) (same_but 5 hm (by cases f <;> simp [Field.index, Field.same, wr]) x)⟩

theorem sramPutWord_keeps {μ : Nat} {s0 : State} (s : State) (i : Nat) (v : SramWord) (h : Keeps μ s0 s)
    (hm : Within 0x40 μ := by exact within_trans rfl (by assumption)) : Keeps μ s0 (sramPutWord s i v) :=
  ⟨h.queue, fun w => by
    have := wf_iff.1 (h.canon w)
    exact wf_iff.2 ⟨this.1, scanon_sput i v this.2.1, this.2.2⟩, h.otp, fun w => h.fit w,
    fun f x => Field.same_trans (h.frame f x) (same_but 6 hm (by cases f <;> simp [Field.index, Field.same, sramPutWord]) x)⟩

theorem nandPutByte_keeps {μ : Nat} {s0 : State} (s : State) (off v : Nat) (h : Keeps μ s0 s)
    (hm : Within 0x80 μ := by exact within_trans rfl (by assumption)) : Keeps μ s0 (nandPutByte s off v) :=
  ⟨h.queue, fun w => by
    have := wf_iff.1 (h.canon w)
    exact wf_iff.2 ⟨this.1, this.2.1, scanon_sput off _ this.2.2⟩, h.otp, fun w => h.fit w,
    fun f x => Field.same_trans (h.frame f x) (same_but 7 hm (by cases f <;> simp [Field.index, Field.same, nandPutByte]) x)⟩

theorem nandErase_keeps {μ : Nat} {s0 : State} (s : State) (lo hi : Nat) (h : Keeps μ s0 s)
    (hm : Within 0x80 μ := by exact within_trans rfl (by assumption)) : Keeps μ s0 (nandErase s lo hi) :=
  ⟨h.queue, fun w => by
    have := wf_iff.1 (h.canon w)
    exact wf_iff.2 ⟨this.1, this.2.1, scanon_filter _ this.2.2⟩, h.otp, fun w => h.fit w,
    fun f x => Field.same_trans (h.frame f x) (same_but 7 hm (by cases f <;> simp [Field.index, Field.same, nandErase]) x)⟩

end Sys2Proof.Machine
end

