-- ==== Sys2Proof/Laws/KeepsOps.lean ====
section
/-! SUPPORT. The operations of Ops.lean keep the queue and the canonical stores. -/

set_option Elab.async false

namespace Sys2Proof.Machine

theorem setF_keeps {μ : Nat} {s0 : State} (s : State) (a lo w v : Nat)  (hk : Keeps μ s0 s) (hm : Within 0x20 μ := by exact within_trans rfl (by assumption)) : Keeps μ s0 (setF s a lo w v) := by
  unfold setF
  try dsimp only
  repeat' first
    | with_reducible assumption
    | exact within_trans rfl hm
    | with_reducible apply wr_keeps

theorem setBit_keeps {μ : Nat} {s0 : State} (s : State) (a i : Nat) (b : Bool)  (hk : Keeps μ s0 s) (hm : Within 0x20 μ := by exact within_trans rfl (by assumption)) : Keeps μ s0 (setBit s a i b) := by
  unfold setBit
  try dsimp only
  repeat' first
    | with_reducible assumption
    | exact within_trans rfl hm
    | with_reducible apply setF_keeps
    | with_reducible apply keeps_ite
    | split

theorem wrN_keeps {μ : Nat} {s0 : State} (s : State) (a v : Nat)  (hk : Keeps μ s0 s) (hm : Within 0x20 μ := by exact within_trans rfl (by assumption)) : Keeps μ s0 (wrN s a v) := by
  unfold wrN
  try dsimp only
  repeat' first
    | with_reducible assumption
    | exact within_trans rfl hm
    | with_reducible apply wr_keeps

theorem wr64_keeps {μ : Nat} {s0 : State} (s : State) (a v : Nat)  (hk : Keeps μ s0 s) (hm : Within 0x20 μ := by exact within_trans rfl (by assumption)) : Keeps μ s0 (wr64 s a v) := by
  unfold wr64
  try dsimp only
  repeat' first
    | with_reducible assumption
    | exact within_trans rfl hm
    | with_reducible apply wrN_keeps

theorem satInc_keeps {μ : Nat} {s0 : State} (s : State) (a w : Nat)  (hk : Keeps μ s0 s) (hm : Within 0x20 μ := by exact within_trans rfl (by assumption)) : Keeps μ s0 (satInc s a w) := by
  unfold satInc
  try dsimp only
  repeat' first
    | with_reducible assumption
    | exact within_trans rfl hm
    | with_reducible apply wrN_keeps
    | with_reducible apply keeps_ite
    | split

theorem satAdd_keeps {μ : Nat} {s0 : State} (s : State) (a k : Nat)  (hk : Keeps μ s0 s) (hm : Within 0x20 μ := by exact within_trans rfl (by assumption)) : Keeps μ s0 (satAdd s a k) := by
  unfold satAdd
  try dsimp only
  repeat' first
    | with_reducible assumption
    | exact within_trans rfl hm
    | with_reducible apply wrN_keeps

theorem wrapInc_keeps {μ : Nat} {s0 : State} (s : State) (a : Nat)  (hk : Keeps μ s0 s) (hm : Within 0x20 μ := by exact within_trans rfl (by assumption)) : Keeps μ s0 (wrapInc s a) := by
  unfold wrapInc
  try dsimp only
  repeat' first
    | with_reducible assumption
    | exact within_trans rfl hm
    | with_reducible apply wrN_keeps

theorem wrapAdd_keeps {μ : Nat} {s0 : State} (s : State) (a k : Nat)  (hk : Keeps μ s0 s) (hm : Within 0x20 μ := by exact within_trans rfl (by assumption)) : Keeps μ s0 (wrapAdd s a k) := by
  unfold wrapAdd
  try dsimp only
  repeat' first
    | with_reducible assumption
    | exact within_trans rfl hm
    | with_reducible apply wrN_keeps

theorem plainWrite_keeps {μ : Nat} {s0 : State} (a v : Nat) (s : State)  (hk : Keeps μ s0 s) (hm : Within 0x20 μ := by exact within_trans rfl (by assumption)) : Keeps μ s0 (plainWrite a v s) := by
  unfold plainWrite
  try dsimp only
  repeat' first
    | with_reducible assumption
    | exact within_trans rfl hm
    | with_reducible apply wrN_keeps
    | with_reducible apply keeps_ite
    | split
    | with_reducible apply keeps_mk
    | with_reducible apply And.intro
    | exact Or.inl (within_bit _ rfl hm)
    | exact Or.inr rfl

theorem answer_keeps {μ : Nat} {s0 : State} (v : Nat) (s : State)  (hk : Keeps μ s0 s) (hm : Within 0x18 μ := by exact within_trans rfl (by assumption)) : Keeps μ s0 (answer v s) := by
  unfold answer
  try dsimp only
  repeat' first
    | with_reducible assumption
    | exact within_trans rfl hm
    | with_reducible apply keeps_mk
    | with_reducible apply And.intro
    | exact Or.inl (within_bit _ rfl hm)
    | exact Or.inr rfl

theorem busOk_keeps {μ : Nat} {s0 : State} (s : State)  (hk : Keeps μ s0 s) (hm : Within 0x10 μ := by exact within_trans rfl (by assumption)) : Keeps μ s0 (busOk s) := by
  unfold busOk
  try dsimp only
  repeat' first
    | with_reducible assumption
    | exact within_trans rfl hm
    | with_reducible apply keeps_mk
    | with_reducible apply And.intro
    | exact Or.inl (within_bit _ rfl hm)
    | exact Or.inr rfl

theorem busFault_keeps {μ : Nat} {s0 : State} (s : State)  (hk : Keeps μ s0 s) (hm : Within 0x10 μ := by exact within_trans rfl (by assumption)) : Keeps μ s0 (busFault s) := by
  unfold busFault
  try dsimp only
  repeat' first
    | with_reducible assumption
    | exact within_trans rfl hm
    | with_reducible apply keeps_mk
    | with_reducible apply And.intro
    | exact Or.inl (within_bit _ rfl hm)
    | exact Or.inr rfl

theorem drawFree_keeps {μ : Nat} {s0 : State} (w : Nat) (s : State)  (hk : Keeps μ s0 s) (hm : Within 0x1 μ := by exact within_trans rfl (by assumption)) : Keeps μ s0 (drawFree w s).2 := by
  unfold drawFree
  try dsimp only
  repeat' first
    | with_reducible assumption
    | exact within_trans rfl hm
    | with_reducible apply keeps_mk
    | with_reducible apply And.intro
    | exact Or.inl (within_bit _ rfl hm)
    | exact Or.inr rfl

theorem sramPut64_keeps {μ : Nat} {s0 : State} (s : State) (off v : Nat)  (hk : Keeps μ s0 s) (hm : Within 0x40 μ := by exact within_trans rfl (by assumption)) : Keeps μ s0 (sramPut64 s off v) := by
  unfold sramPut64
  try dsimp only
  repeat' first
    | with_reducible assumption
    | exact within_trans rfl hm
    | with_reducible apply sramPutWord_keeps

theorem sramPutPart_keeps {μ : Nat} {s0 : State} (s : State) (off lo w v : Nat)  (hk : Keeps μ s0 s) (hm : Within 0x40 μ := by exact within_trans rfl (by assumption)) : Keeps μ s0 (sramPutPart s off lo w v) := by
  unfold sramPutPart
  try dsimp only
  repeat' first
    | with_reducible assumption
    | exact within_trans rfl hm
    | with_reducible apply sramPut64_keeps

theorem sramPut32_keeps {μ : Nat} {s0 : State} (s : State) (off v : Nat)  (hk : Keeps μ s0 s) (hm : Within 0x40 μ := by exact within_trans rfl (by assumption)) : Keeps μ s0 (sramPut32 s off v) := by
  unfold sramPut32
  try dsimp only
  repeat' first
    | with_reducible assumption
    | exact within_trans rfl hm
    | with_reducible apply sramPutPart_keeps

theorem sramPut16_keeps {μ : Nat} {s0 : State} (s : State) (off v : Nat)  (hk : Keeps μ s0 s) (hm : Within 0x40 μ := by exact within_trans rfl (by assumption)) : Keeps μ s0 (sramPut16 s off v) := by
  unfold sramPut16
  try dsimp only
  repeat' first
    | with_reducible assumption
    | exact within_trans rfl hm
    | with_reducible apply sramPutPart_keeps

theorem sramPut8_keeps {μ : Nat} {s0 : State} (s : State) (off v : Nat)  (hk : Keeps μ s0 s) (hm : Within 0x40 μ := by exact within_trans rfl (by assumption)) : Keeps μ s0 (sramPut8 s off v) := by
  unfold sramPut8
  try dsimp only
  repeat' first
    | with_reducible assumption
    | exact within_trans rfl hm
    | with_reducible apply sramPutPart_keeps

theorem sramPutBytes_keeps {μ : Nat} {s0 : State} (s : State) (off : Nat) (x0 : List Nat) (hk : Keeps μ s0 s) (hm : Within 0x40 μ := by exact within_trans rfl (by assumption)) : Keeps μ s0 (sramPutBytes s off x0) := by
  induction x0 generalizing s off with
  | nil =>
    unfold sramPutBytes
    try dsimp only
    repeat' first
      | with_reducible assumption
      | exact within_trans rfl hm
      | with_reducible apply ih
      | with_reducible apply sramPut8_keeps
      | split
  | cons a l ih =>
    unfold sramPutBytes
    try dsimp only
    repeat' first
      | with_reducible assumption
      | exact within_trans rfl hm
      | with_reducible apply ih
      | with_reducible apply sramPut8_keeps
      | split

theorem nandProgByte_keeps {μ : Nat} {s0 : State} (s : State) (off v : Nat)  (hk : Keeps μ s0 s) (hm : Within 0x80 μ := by exact within_trans rfl (by assumption)) : Keeps μ s0 (nandProgByte s off v) := by
  unfold nandProgByte
  try dsimp only
  repeat' first
    | with_reducible assumption
    | exact within_trans rfl hm
    | with_reducible apply nandPutByte_keeps

theorem nandProg_keeps {μ : Nat} {s0 : State} (s : State) (off : Nat) (x0 : List Nat) (hk : Keeps μ s0 s) (hm : Within 0x80 μ := by exact within_trans rfl (by assumption)) : Keeps μ s0 (nandProg s off x0) := by
  induction x0 generalizing s off with
  | nil =>
    unfold nandProg
    try dsimp only
    repeat' first
      | with_reducible assumption
      | exact within_trans rfl hm
      | with_reducible apply ih
      | with_reducible apply nandProgByte_keeps
      | split
  | cons a l ih =>
    unfold nandProg
    try dsimp only
    repeat' first
      | with_reducible assumption
      | exact within_trans rfl hm
      | with_reducible apply ih
      | with_reducible apply nandProgByte_keeps
      | split

theorem nandWrite_keeps {μ : Nat} {s0 : State} (s : State) (off : Nat) (x0 : List Nat) (hk : Keeps μ s0 s) (hm : Within 0x80 μ := by exact within_trans rfl (by assumption)) : Keeps μ s0 (nandWrite s off x0) := by
  induction x0 generalizing s off with
  | nil =>
    unfold nandWrite
    try dsimp only
    repeat' first
      | with_reducible assumption
      | exact within_trans rfl hm
      | with_reducible apply ih
      | with_reducible apply nandPutByte_keeps
      | split
  | cons a l ih =>
    unfold nandWrite
    try dsimp only
    repeat' first
      | with_reducible assumption
      | exact within_trans rfl hm
      | with_reducible apply ih
      | with_reducible apply nandPutByte_keeps
      | split

theorem trigger_keeps {μ : Nat} {s0 : State} (ch pos : Nat) (s : State)  (hk : Keeps μ s0 s) (hm : Within 0x120 μ := by exact within_trans rfl (by assumption)) : Keeps μ s0 (trigger ch pos s) := by
  unfold trigger
  try dsimp only
  repeat' first
    | with_reducible assumption
    | exact within_trans rfl hm
    | with_reducible apply satInc_keeps
    | with_reducible apply keeps_ite
    | split
    | with_reducible apply keeps_mk
    | with_reducible apply And.intro
    | exact Or.inl (within_bit _ rfl hm)
    | exact Or.inr rfl

theorem evt_keeps {μ : Nat} {s0 : State} (a i : Nat) (s : State)  (hk : Keeps μ s0 s) (hm : Within 0x120 μ := by exact within_trans rfl (by assumption)) : Keeps μ s0 (evt a i s) := by
  unfold evt
  try dsimp only
  repeat' first
    | (with_reducible apply keeps_foldl; intro s _ hk)
    | with_reducible assumption
    | exact within_trans rfl hm
    | with_reducible apply setBit_keeps
    | with_reducible apply trigger_keeps
    | with_reducible apply keeps_ite
    | split
    | (intro)
    | with_reducible apply keeps_mk
    | with_reducible apply And.intro
    | exact Or.inl (within_bit _ rfl hm)
    | exact Or.inr rfl

theorem evtIf_keeps {μ : Nat} {s0 : State} (c : Bool) (a i : Nat) (s : State)  (hk : Keeps μ s0 s) (hm : Within 0x120 μ := by exact within_trans rfl (by assumption)) : Keeps μ s0 (evtIf c a i s) := by
  unfold evtIf
  try dsimp only
  repeat' first
    | with_reducible assumption
    | exact within_trans rfl hm
    | with_reducible apply evt_keeps
    | with_reducible apply keeps_ite
    | split

theorem setMode_keeps {μ : Nat} {s0 : State} (m : Nat) (s : State)  (hk : Keeps μ s0 s) (hm : Within 0x120 μ := by exact within_trans rfl (by assumption)) : Keeps μ s0 (setMode m s) := by
  unfold setMode
  try dsimp only
  repeat' first
    | with_reducible assumption
    | exact within_trans rfl hm
    | with_reducible apply setF_keeps
    | with_reducible apply wr64_keeps
    | with_reducible apply trigger_keeps
    | with_reducible apply evt_keeps
    | with_reducible apply keeps_ite
    | split

theorem gauge_keeps {μ : Nat} {s0 : State} (n : Nat) (v : Int) (s : State)  (hk : Keeps μ s0 s) (hm : Within 0x100 μ := by exact within_trans rfl (by assumption)) : Keeps μ s0 (gauge n v s) := by
  unfold gauge
  try dsimp only
  repeat' first
    | with_reducible assumption
    | exact within_trans rfl hm
    | with_reducible apply keeps_ite
    | split
    | (intro)
    | with_reducible apply keeps_mk
    | with_reducible apply And.intro
    | exact Or.inl (within_bit _ rfl hm)
    | exact Or.inr rfl

theorem modSlot_keeps {μ : Nat} {s0 : State} (s : State) (n : Nat) (f : Slot → Slot) (hk : Keeps μ s0 s) 
    (hm : Within 0x400 μ := by exact within_trans rfl (by assumption)) :
    Keeps μ s0 (modSlot s n f) :=
  keeps_units 10 hk (hm := hm) (hz := fun h => by
    simp only [sized_iff] at h ⊢
    simpa [modSlot, modAt_length] using h)

theorem modLane_keeps {μ : Nat} {s0 : State} (s : State) (n : Nat) (f : Lane → Lane) (hk : Keeps μ s0 s) 
    (hm : Within 0x800 μ := by exact within_trans rfl (by assumption)) :
    Keeps μ s0 (modLane s n f) :=
  keeps_units 11 hk (hm := hm) (hz := fun h => by
    simp only [sized_iff] at h ⊢
    simpa [modLane, modAt_length] using h)

theorem modTsq_keeps {μ : Nat} {s0 : State} (s : State) (q : Nat) (f : Tsq → Tsq) (hk : Keeps μ s0 s)
    (hf : ∀ t, t.sized = true → (f t).sized = true) 
    (hm : Within 0x4000 μ := by exact within_trans rfl (by assumption)) : Keeps μ s0 (modTsq s q f) :=
  keeps_units 14 hk (hm := hm) (hz := fun h => by
    simp only [sized_iff] at h ⊢
    obtain ⟨h1, h2, h3, h4, h5, h6, h7⟩ := h
    exact ⟨h1, h2, h3, h4, by simpa [modTsq, modAt_length] using h5, modAt_all q hf h6, h7⟩)

theorem modCtx_keeps {μ : Nat} {s0 : State} (s : State) (q x : Nat) (f : Ctx → Ctx) (hk : Keeps μ s0 s)
    (hf : ∀ c, c.sized = true → (f c).sized = true) 
    (hm : Within 0x4000 μ := by exact within_trans rfl (by assumption)) : Keeps μ s0 (modCtx s q x f) :=
  modTsq_keeps _ _ _ hk fun t h => by
    simp only [Tsq.sized, Bool.and_eq_true, beq_iff_eq] at h ⊢
    exact ⟨by simpa [modAt_length] using h.1, modAt_all x hf h.2⟩

theorem recordS_keeps {μ : Nat} {s0 : State} (q cause : Nat) (s : State)  (hk : Keeps μ s0 s) (hm : Within 0x120 μ := by exact within_trans rfl (by assumption)) : Keeps μ s0 (recordS q cause s) := by
  unfold recordS
  try dsimp only
  repeat' first
    | with_reducible assumption
    | exact within_trans rfl hm
    | with_reducible apply evt_keeps

theorem raiseS_keeps {μ : Nat} {s0 : State} (q x cause : Nat) (s : State)  (hk : Keeps μ s0 s) (hm : Within 0x4120 μ := by exact within_trans rfl (by assumption)) : Keeps μ s0 (raiseS q x cause s) := by
  unfold raiseS
  try dsimp only
  repeat' first
    | with_reducible assumption
    | exact within_trans rfl hm
    | with_reducible apply modCtx_keeps
    | with_reducible apply recordS_keeps
    | with_reducible apply keeps_ite
    | split
    | exact fun _ h => h
    | exact fun _ h => by simpa [Tsq.sized, Ctx.sized, Srv.sized, NetState.sized, AngState.sized, modAt_length, modAt_all] using h
    | (intro)
    | with_reducible apply keeps_mk
    | with_reducible apply And.intro
    | exact Or.inl (within_bit _ rfl hm)
    | exact Or.inr rfl
    | assumption

theorem raiseAll_keeps {μ : Nat} {s0 : State} (q cause : Nat) (s : State)  (hk : Keeps μ s0 s) (hm : Within 0x4120 μ := by exact within_trans rfl (by assumption)) : Keeps μ s0 (raiseAll q cause s) := by
  unfold raiseAll
  try dsimp only
  repeat' first
    | (with_reducible apply keeps_foldl; intro s _ hk)
    | with_reducible assumption
    | exact within_trans rfl hm
    | with_reducible apply raiseS_keeps
    | (intro)

theorem setLoaded_keeps {μ : Nat} {s0 : State} (s : State) (a : Nat) (b : Bool)  (hk : Keeps μ s0 s) (hm : Within 0x2000000 μ := by exact within_trans rfl (by assumption)) : Keeps μ s0 (setLoaded s a b) := by
  unfold setLoaded
  try dsimp only
  repeat' first
    | with_reducible assumption
    | exact within_trans rfl hm
    | with_reducible apply keeps_ite
    | split
    | with_reducible apply keeps_mk
    | with_reducible apply And.intro
    | exact Or.inl (within_bit _ rfl hm)
    | exact Or.inr rfl

theorem modArc_keeps {μ : Nat} {s0 : State} (s : State) (f : ArcState → ArcState)  (hk : Keeps μ s0 s) (hm : Within 0x200000000 μ := by exact within_trans rfl (by assumption)) : Keeps μ s0 (modArc s f) := by
  unfold modArc
  try dsimp only
  repeat' first
    | with_reducible assumption
    | exact within_trans rfl hm
    | with_reducible apply keeps_mk
    | with_reducible apply And.intro
    | exact Or.inl (within_bit _ rfl hm)
    | exact Or.inr rfl

theorem streamSuspend_keeps {μ : Nat} {s0 : State} (s : State)  (hk : Keeps μ s0 s) (hm : Within 0x200000000 μ := by exact within_trans rfl (by assumption)) : Keeps μ s0 (streamSuspend s) := by
  unfold streamSuspend
  try dsimp only
  repeat' first
    | with_reducible assumption
    | exact within_trans rfl hm
    | with_reducible apply modArc_keeps
    | with_reducible apply keeps_ite
    | split
    | (intro)
    | with_reducible apply keeps_mk
    | with_reducible apply And.intro
    | exact Or.inl (within_bit _ rfl hm)
    | exact Or.inr rfl

end Sys2Proof.Machine
end

