-- ==== Sys2Proof/Laws/KeepsOperands.lean ====
section
/-! SUPPORT. The operations of Operands.lean keep the queue and the canonical stores. -/

set_option Elab.async false

namespace Sys2Proof.Machine

theorem wrFp_keeps {μ : Nat} {s0 : State} (s : State) (a : Nat) (q : Rat)  (hk : Keeps μ s0 s) (hm : Within 0x20 μ := by exact within_trans rfl (by assumption)) : Keeps μ s0 (wrFp s a q) := by
  unfold wrFp
  try dsimp only
  repeat' first
    | with_reducible assumption
    | exact within_trans rfl hm
    | with_reducible apply wrN_keeps

end Sys2Proof.Machine
end

