-- ==== Sys2Proof/Laws/KeepsImages.lean ====
section
/-! SUPPORT. The operations of Images.lean keep the queue and the canonical stores. -/

set_option Elab.async false

namespace Sys2Proof.Machine

theorem loadFirmware_keeps {μ : Nat} {s0 : State} (k : Nat) (fallback : Bool) (s : State)  (hk : Keeps μ s0 s) (hm : Within 0x2800060 μ := by exact within_trans rfl (by assumption)) : Keeps μ s0 (loadFirmware k fallback s) := by
  unfold loadFirmware
  try dsimp only
  repeat' first
    | with_reducible assumption
    | exact within_trans rfl hm
    | with_reducible apply setF_keeps
    | with_reducible apply setBit_keeps
    | with_reducible apply wrN_keeps
    | with_reducible apply sramPutBytes_keeps
    | with_reducible apply keeps_mk
    | with_reducible apply And.intro
    | exact Or.inl (within_bit _ rfl hm)
    | exact Or.inr rfl
    | exact OtpGrows.mk (Nat.le_refl _) (fun _ h => h)
    | with_reducible apply keeps_mk_sec

end Sys2Proof.Machine
end

