-- ==== Sys2Proof/Laws/KeepsPfc.lean ====
section
/-! SUPPORT. The operations of Pfc.lean keep the queue and the canonical stores. -/

set_option Elab.async false

namespace Sys2Proof.Machine

theorem modNet_keeps {μ : Nat} {s0 : State} (s : State) (f : NetState → NetState) (hk : Keeps μ s0 s)
    (hf : ∀ n, n.sized = true → (f n).sized = true) 
    (hm : Within 0x8000000 μ := by exact within_trans rfl (by assumption)) : Keeps μ s0 (modNet s f) :=
  keeps_units 27 hk (hm := hm) (hz := fun h => by
    simp only [sized_iff] at h ⊢
    obtain ⟨h1, h2, h3, h4, h5, h6, h7, h8, h9, ha, hb⟩ := h
    exact ⟨h1, h2, h3, h4, h5, h6, h7, h8, h9, hf _ ha, hb⟩)

theorem modPort_keeps {μ : Nat} {s0 : State} (s : State) (p : Nat) (f : EthState → EthState)  (hk : Keeps μ s0 s) (hm : Within 0x8000000 μ := by exact within_trans rfl (by assumption)) : Keeps μ s0 (modPort s p f) := by
  unfold modPort
  try dsimp only
  repeat' first
    | with_reducible assumption
    | exact within_trans rfl hm
    | with_reducible apply modNet_keeps
    | exact fun _ h => h
    | exact fun _ h => by simpa [Tsq.sized, Ctx.sized, Srv.sized, NetState.sized, AngState.sized, modAt_length, modAt_all] using h
    | (intro)
    | with_reducible apply keeps_mk
    | with_reducible apply And.intro
    | exact Or.inl (within_bit _ rfl hm)
    | exact Or.inr rfl
    | assumption

theorem send_keeps {μ : Nat} {s0 : State} (x : Sent) (s : State)  (hk : Keeps μ s0 s) (hm : Within 0x8000000 μ := by exact within_trans rfl (by assumption)) : Keeps μ s0 (send x s) := by
  unfold send
  try dsimp only
  repeat' first
    | with_reducible assumption
    | exact within_trans rfl hm
    | with_reducible apply modNet_keeps
    | exact fun _ h => h
    | exact fun _ h => by simpa [Tsq.sized, Ctx.sized, Srv.sized, NetState.sized, AngState.sized, modAt_length, modAt_all] using h
    | (intro)
    | with_reducible apply keeps_mk
    | with_reducible apply And.intro
    | exact Or.inl (within_bit _ rfl hm)
    | exact Or.inr rfl
    | assumption

theorem sendPfc_keeps {μ : Nat} {s0 : State} (p : Nat) (tcs : List Nat) (stop : Bool) (s : State)  (hk : Keeps μ s0 s) (hm : Within 0x8000000 μ := by exact within_trans rfl (by assumption)) : Keeps μ s0 (sendPfc p tcs stop s) := by
  unfold sendPfc
  try dsimp only
  repeat' first
    | with_reducible assumption
    | exact within_trans rfl hm
    | with_reducible apply modPort_keeps
    | with_reducible apply send_keeps
    | with_reducible apply keeps_ite
    | split
    | (intro)
    | with_reducible apply keeps_mk
    | with_reducible apply And.intro
    | exact Or.inl (within_bit _ rfl hm)
    | exact Or.inr rfl

theorem pfcAll_keeps {μ : Nat} {s0 : State} (stop : Bool) (s : State)  (hk : Keeps μ s0 s) (hm : Within 0x8000000 μ := by exact within_trans rfl (by assumption)) : Keeps μ s0 (pfcAll stop s) := by
  unfold pfcAll
  try dsimp only
  repeat' first
    | (with_reducible apply keeps_foldl; intro s _ hk)
    | with_reducible assumption
    | exact within_trans rfl hm
    | with_reducible apply sendPfc_keeps
    | with_reducible apply keeps_ite
    | split
    | (intro)

end Sys2Proof.Machine
end

