-- ==== Sys2Proof/Laws/KeepsLadder.lean ====
section
/-! SUPPORT. The operations of Ladder.lean keep the queue and the canonical stores. -/

set_option Elab.async false

namespace Sys2Proof.Machine

theorem showClusters_keeps {μ : Nat} {s0 : State} (s : State)  (hk : Keeps μ s0 s) (hm : Within 0x20 μ := by exact within_trans rfl (by assumption)) : Keeps μ s0 (showClusters s) := by
  unfold showClusters
  try dsimp only
  repeat' first
    | with_reducible assumption
    | exact within_trans rfl hm
    | with_reducible apply setF_keeps

theorem settleTokens_keeps {μ : Nat} {s0 : State} (s : State)  (hk : Keeps μ s0 s) (hm : Within 0x1000000 μ := by exact within_trans rfl (by assumption)) : Keeps μ s0 (settleTokens s) := by
  unfold settleTokens
  try dsimp only
  repeat' first
    | with_reducible assumption
    | exact within_trans rfl hm
    | (intro)
    | with_reducible apply keeps_mk
    | with_reducible apply And.intro
    | exact Or.inl (within_bit _ rfl hm)
    | exact Or.inr rfl

theorem ladder_keeps {μ : Nat} {s0 : State} (s : State)  (hk : Keeps μ s0 s) (hm : Within 0x1000120 μ := by exact within_trans rfl (by assumption)) : Keeps μ s0 (ladder s) := by
  unfold ladder
  try dsimp only
  repeat' first
    | with_reducible assumption
    | exact within_trans rfl hm
    | with_reducible apply setF_keeps
    | with_reducible apply wrN_keeps
    | with_reducible apply satInc_keeps
    | with_reducible apply evt_keeps
    | with_reducible apply showClusters_keeps
    | with_reducible apply settleTokens_keeps
    | with_reducible apply keeps_ite
    | split

end Sys2Proof.Machine
end

