-- ==== Sys2Proof/Laws/KeepsLinks.lean ====
section
/-! SUPPORT. The operations of Links.lean keep the queue and the canonical stores. -/

set_option Elab.async false

namespace Sys2Proof.Machine

theorem tstEnds_keeps {μ : Nat} {s0 : State} (n r : Nat) (s : State)  (hk : Keeps μ s0 s) (hm : Within 0x8000120 μ := by exact within_trans rfl (by assumption)) : Keeps μ s0 (tstEnds n r s) := by
  unfold tstEnds
  try dsimp only
  repeat' first
    | with_reducible assumption
    | exact within_trans rfl hm
    | with_reducible apply setF_keeps
    | with_reducible apply setBit_keeps
    | with_reducible apply evt_keeps
    | with_reducible apply modPort_keeps
    | with_reducible apply keeps_ite
    | split
    | (intro)
    | with_reducible apply keeps_mk
    | with_reducible apply And.intro
    | exact Or.inl (within_bit _ rfl hm)
    | exact Or.inr rfl

theorem tstPreempt_keeps {μ : Nat} {s0 : State} (n : Nat) (s : State)  (hk : Keeps μ s0 s) (hm : Within 0x8000121 μ := by exact within_trans rfl (by assumption)) : Keeps μ s0 (tstPreempt n s) := by
  unfold tstPreempt
  try dsimp only
  repeat' first
    | with_reducible assumption
    | exact within_trans rfl hm
    | with_reducible apply wrN_keeps
    | with_reducible apply wr64_keeps
    | with_reducible apply drawFree_keeps
    | with_reducible apply tstEnds_keeps
    | split
    | refine keeps_snd (by with_reducible assumption) ?_

theorem tstSweep_keeps {μ : Nat} {s0 : State} (s : State)  (hk : Keeps μ s0 s) (hm : Within 0x8000121 μ := by exact within_trans rfl (by assumption)) : Keeps μ s0 (tstSweep s) := by
  unfold tstSweep
  try dsimp only
  repeat' first
    | (with_reducible apply keeps_foldl; intro s _ hk)
    | with_reducible assumption
    | exact within_trans rfl hm
    | with_reducible apply tstPreempt_keeps
    | with_reducible apply keeps_ite
    | split
    | (intro)

end Sys2Proof.Machine
end

