-- ==== Sys2Proof/Laws/KeepsFormat.lean ====
section
/-! SUPPORT. The operations of Format.lean keep the queue and the canonical stores. -/

set_option Elab.async false

namespace Sys2Proof.Machine

theorem setCptr_keeps {μ : Nat} {s0 : State} (z v : Nat) (s : State)  (hk : Keeps μ s0 s) (hm : Within 0x40 μ := by exact within_trans rfl (by assumption)) : Keeps μ s0 (setCptr z v s) := by
  unfold setCptr
  try dsimp only
  repeat' first
    | with_reducible assumption
    | exact within_trans rfl hm
    | with_reducible apply sramPutPart_keeps

theorem setZState_keeps {μ : Nat} {s0 : State} (z v : Nat) (s : State)  (hk : Keeps μ s0 s) (hm : Within 0x40 μ := by exact within_trans rfl (by assumption)) : Keeps μ s0 (setZState z v s) := by
  unfold setZState
  try dsimp only
  repeat' first
    | with_reducible assumption
    | exact within_trans rfl hm
    | with_reducible apply sramPutPart_keeps

theorem setTailu_keeps {μ : Nat} {s0 : State} (z : Nat) (b : Bool) (s : State)  (hk : Keeps μ s0 s) (hm : Within 0x40 μ := by exact within_trans rfl (by assumption)) : Keeps μ s0 (setTailu z b s) := by
  unfold setTailu
  try dsimp only
  repeat' first
    | with_reducible assumption
    | exact within_trans rfl hm
    | with_reducible apply sramPutPart_keeps
    | with_reducible apply keeps_ite
    | split

theorem setRptr_keeps {μ : Nat} {s0 : State} (z v : Nat) (s : State)  (hk : Keeps μ s0 s) (hm : Within 0x40 μ := by exact within_trans rfl (by assumption)) : Keeps μ s0 (setRptr z v s) := by
  unfold setRptr
  try dsimp only
  repeat' first
    | with_reducible assumption
    | exact within_trans rfl hm
    | with_reducible apply sramPutPart_keeps

theorem setNslip_keeps {μ : Nat} {s0 : State} (z v : Nat) (s : State)  (hk : Keeps μ s0 s) (hm : Within 0x40 μ := by exact within_trans rfl (by assumption)) : Keeps μ s0 (setNslip z v s) := by
  unfold setNslip
  try dsimp only
  repeat' first
    | with_reducible assumption
    | exact within_trans rfl hm
    | with_reducible apply sramPutPart_keeps

theorem setEpoch_keeps {μ : Nat} {s0 : State} (z v : Nat) (s : State)  (hk : Keeps μ s0 s) (hm : Within 0x40 μ := by exact within_trans rfl (by assumption)) : Keeps μ s0 (setEpoch z v s) := by
  unfold setEpoch
  try dsimp only
  repeat' first
    | with_reducible assumption
    | exact within_trans rfl hm
    | with_reducible apply sramPutPart_keeps

theorem setSliphead_keeps {μ : Nat} {s0 : State} (z v : Nat) (s : State)  (hk : Keeps μ s0 s) (hm : Within 0x40 μ := by exact within_trans rfl (by assumption)) : Keeps μ s0 (setSliphead z v s) := by
  unfold setSliphead
  try dsimp only
  repeat' first
    | with_reducible assumption
    | exact within_trans rfl hm
    | with_reducible apply sramPutPart_keeps

end Sys2Proof.Machine
end

