-- ==== Sys2Proof/Laws/KeepsSluice.lean ====
section
/-! SUPPORT. The operations of Sluice.lean keep the queue and the canonical stores. -/

set_option Elab.async false

namespace Sys2Proof.Machine

theorem modSrv_keeps {μ : Nat} {s0 : State} (s : State) (a : Nat) (f : Srv → Srv) (hk : Keeps μ s0 s)
    (hf : ∀ v, v.sized = true → (f v).sized = true) 
    (hm : Within 0x100000 μ := by exact within_trans rfl (by assumption)) : Keeps μ s0 (modSrv s a f) :=
  keeps_units 20 hk (hm := hm) (hz := fun h => by
    simp only [sized_iff] at h ⊢
    obtain ⟨h1, h2, h3, h4, h5, h6, h7, h8, h9⟩ := h
    exact ⟨h1, h2, h3, h4, h5, h6, by simpa [modSrv, modAt_length] using h7, modAt_all a hf h8, h9⟩)

theorem raiseWriter_keeps {μ : Nat} {s0 : State} (n cause : Nat) (s : State)  (hk : Keeps μ s0 s) (hm : Within 0x4120 μ := by exact within_trans rfl (by assumption)) : Keeps μ s0 (raiseWriter n cause s) := by
  unfold raiseWriter
  try dsimp only
  repeat' first
    | with_reducible assumption
    | exact within_trans rfl hm
    | with_reducible apply raiseS_keeps
    | with_reducible apply keeps_ite
    | split

theorem raiseWriters_keeps {μ : Nat} {s0 : State} (q cause : Nat) (s : State)  (hk : Keeps μ s0 s) (hm : Within 0x4120 μ := by exact within_trans rfl (by assumption)) : Keeps μ s0 (raiseWriters q cause s) := by
  unfold raiseWriters
  try dsimp only
  repeat' first
    | (with_reducible apply keeps_foldl; intro s _ hk)
    | with_reducible assumption
    | exact within_trans rfl hm
    | with_reducible apply raiseS_keeps
    | with_reducible apply keeps_ite
    | split
    | (intro)

theorem latchCause_keeps {μ : Nat} {s0 : State} (s : State) (n : Nat)  (hk : Keeps μ s0 s) (hm : Within 0x4120 μ := by exact within_trans rfl (by assumption)) : Keeps μ s0 (latchCause s n) := by
  unfold latchCause
  try dsimp only
  repeat' first
    | with_reducible assumption
    | exact within_trans rfl hm
    | with_reducible apply raiseAll_keeps
    | with_reducible apply raiseWriter_keeps
    | with_reducible apply raiseWriters_keeps
    | with_reducible apply keeps_ite
    | split

theorem latchEffects_keeps {μ : Nat} {s0 : State} (n : Nat) (s : State)  (hk : Keeps μ s0 s) (hm : Within 0x4120 μ := by exact within_trans rfl (by assumption)) : Keeps μ s0 (latchEffects n s) := by
  unfold latchEffects
  try dsimp only
  repeat' first
    | with_reducible assumption
    | exact within_trans rfl hm
    | with_reducible apply satInc_keeps
    | with_reducible apply evt_keeps
    | with_reducible apply latchCause_keeps

theorem dropAssist_keeps {μ : Nat} {s0 : State} (n : Nat) (s : State)  (hk : Keeps μ s0 s) (hm : Within 0x420 μ := by exact within_trans rfl (by assumption)) : Keeps μ s0 (dropAssist n s) := by
  unfold dropAssist
  try dsimp only
  repeat' first
    | with_reducible assumption
    | exact within_trans rfl hm
    | with_reducible apply setBit_keeps
    | with_reducible apply modSlot_keeps
    | (intro)
    | with_reducible apply keeps_mk
    | with_reducible apply And.intro
    | exact Or.inl (within_bit _ rfl hm)
    | exact Or.inr rfl

theorem latchWg_keeps {μ : Nat} {s0 : State} (n : Nat) (s : State)  (hk : Keeps μ s0 s) (hm : Within 0x4120 μ := by exact within_trans rfl (by assumption)) : Keeps μ s0 (latchWg n s) := by
  unfold latchWg
  try dsimp only
  repeat' first
    | with_reducible assumption
    | exact within_trans rfl hm
    | with_reducible apply setBit_keeps
    | with_reducible apply evtIf_keeps
    | with_reducible apply latchEffects_keeps

theorem latchAssist_keeps {μ : Nat} {s0 : State} (n : Nat) (s : State)  (hk : Keeps μ s0 s) (hm : Within 0x4520 μ := by exact within_trans rfl (by assumption)) : Keeps μ s0 (latchAssist n s) := by
  unfold latchAssist
  try dsimp only
  repeat' first
    | with_reducible assumption
    | exact within_trans rfl hm
    | with_reducible apply setBit_keeps
    | with_reducible apply latchEffects_keeps
    | with_reducible apply dropAssist_keeps

theorem sluApply_keeps {μ : Nat} {s0 : State} (n : Nat) (s : State)  (hk : Keeps μ s0 s) (hm : Within 0x4520 μ := by exact within_trans rfl (by assumption)) : Keeps μ s0 (sluApply n s) := by
  unfold sluApply
  try dsimp only
  repeat' first
    | with_reducible assumption
    | exact within_trans rfl hm
    | with_reducible apply dropAssist_keeps
    | with_reducible apply latchWg_keeps
    | with_reducible apply latchAssist_keeps
    | with_reducible apply keeps_ite
    | split

theorem sluAll_keeps {μ : Nat} {s0 : State} (s : State)  (hk : Keeps μ s0 s) (hm : Within 0x4520 μ := by exact within_trans rfl (by assumption)) : Keeps μ s0 (sluAll s) := by
  unfold sluAll
  try dsimp only
  repeat' first
    | (with_reducible apply keeps_foldl; intro s _ hk)
    | with_reducible assumption
    | exact within_trans rfl hm
    | with_reducible apply sluApply_keeps
    | (intro)

theorem targetPending_keeps {μ : Nat} {s0 : State} (n : Nat) (s : State)  (hk : Keeps μ s0 s) (hm : Within 0x400 μ := by exact within_trans rfl (by assumption)) : Keeps μ s0 (targetPending n s) := by
  unfold targetPending
  try dsimp only
  repeat' first
    | with_reducible assumption
    | exact within_trans rfl hm
    | with_reducible apply modSlot_keeps
    | (intro)
    | with_reducible apply keeps_mk
    | with_reducible apply And.intro
    | exact Or.inl (within_bit _ rfl hm)
    | exact Or.inr rfl

theorem targetPendingZone_keeps {μ : Nat} {s0 : State} (z : Nat) (s : State)  (hk : Keeps μ s0 s) (hm : Within 0x4520 μ := by exact within_trans rfl (by assumption)) : Keeps μ s0 (targetPendingZone z s) := by
  unfold targetPendingZone
  try dsimp only
  repeat' first
    | (with_reducible apply keeps_foldl; intro s _ hk)
    | with_reducible assumption
    | exact within_trans rfl hm
    | with_reducible apply sluApply_keeps
    | with_reducible apply targetPending_keeps
    | with_reducible apply keeps_ite
    | split
    | (intro)
    | with_reducible apply keeps_mk
    | with_reducible apply And.intro
    | exact Or.inl (within_bit _ rfl hm)
    | exact Or.inr rfl

theorem targetCheck_keeps {μ : Nat} {s0 : State} (n : Nat) (s : State)  (hk : Keeps μ s0 s) (hm : Within 0x4520 μ := by exact within_trans rfl (by assumption)) : Keeps μ s0 (targetCheck n s) := by
  unfold targetCheck
  try dsimp only
  repeat' first
    | with_reducible assumption
    | exact within_trans rfl hm
    | with_reducible apply modSlot_keeps
    | with_reducible apply sluApply_keeps
    | (intro)
    | with_reducible apply keeps_mk
    | with_reducible apply And.intro
    | exact Or.inl (within_bit _ rfl hm)
    | exact Or.inr rfl

end Sys2Proof.Machine
end

