-- ==== Sys2Proof/Laws/KeepsMotion.lean ====
section
/-! SUPPORT. The operations of Motion.lean keep the queue and the canonical stores. -/

set_option Elab.async false

namespace Sys2Proof.Machine

theorem modSpn_keeps {μ : Nat} {s0 : State} (s : State) (f : Spn → Spn)  (hk : Keeps μ s0 s) (hm : Within 0x400000 μ := by exact within_trans rfl (by assumption)) : Keeps μ s0 (modSpn s f) := by
  unfold modSpn
  try dsimp only
  repeat' first
    | with_reducible assumption
    | exact within_trans rfl hm
    | with_reducible apply keeps_mk
    | with_reducible apply And.intro
    | exact Or.inl (within_bit _ rfl hm)
    | exact Or.inr rfl

theorem clearReady_keeps {μ : Nat} {s0 : State} (a : Nat) (s : State)  (hk : Keeps μ s0 s) (hm : Within 0x4520 μ := by exact within_trans rfl (by assumption)) : Keeps μ s0 (clearReady a s) := by
  unfold clearReady
  try dsimp only
  repeat' first
    | with_reducible assumption
    | exact within_trans rfl hm
    | with_reducible apply setF_keeps
    | with_reducible apply sluAll_keeps

theorem captureTriggered_keeps {μ : Nat} {s0 : State} (a : Nat) (s : State)  (hk : Keeps μ s0 s) (hm : Within 0x100000 μ := by exact within_trans rfl (by assumption)) : Keeps μ s0 (captureTriggered a s) := by
  unfold captureTriggered
  try dsimp only
  repeat' first
    | with_reducible assumption
    | exact within_trans rfl hm
    | with_reducible apply modSrv_keeps
    | with_reducible apply keeps_ite
    | split
    | exact fun _ h => h
    | exact fun _ h => by simpa [Tsq.sized, Ctx.sized, Srv.sized, NetState.sized, AngState.sized, modAt_length, modAt_all] using h
    | (intro)
    | with_reducible apply keeps_mk
    | with_reducible apply And.intro
    | exact Or.inl (within_bit _ rfl hm)
    | exact Or.inr rfl
    | assumption

theorem startRetract_keeps {μ : Nat} {s0 : State} (a : Nat) (why : RetractFor) (s : State)  (hk : Keeps μ s0 s) (hm : Within 0x104520 μ := by exact within_trans rfl (by assumption)) : Keeps μ s0 (startRetract a why s) := by
  unfold startRetract
  try dsimp only
  repeat' first
    | with_reducible assumption
    | exact within_trans rfl hm
    | with_reducible apply setF_keeps
    | with_reducible apply setBit_keeps
    | with_reducible apply modSrv_keeps
    | with_reducible apply clearReady_keeps
    | with_reducible apply captureTriggered_keeps
    | with_reducible apply keeps_ite
    | split
    | exact fun _ h => h
    | exact fun _ h => by simpa [Tsq.sized, Ctx.sized, Srv.sized, NetState.sized, AngState.sized, modAt_length, modAt_all] using h
    | (intro)
    | with_reducible apply keeps_mk
    | with_reducible apply And.intro
    | exact Or.inl (within_bit _ rfl hm)
    | exact Or.inr rfl
    | assumption

theorem setSync_keeps {μ : Nat} {s0 : State} (b : Bool) (s : State)  (hk : Keeps μ s0 s) (hm : Within 0x404520 μ := by exact within_trans rfl (by assumption)) : Keeps μ s0 (setSync b s) := by
  unfold setSync
  try dsimp only
  repeat' first
    | with_reducible assumption
    | exact within_trans rfl hm
    | with_reducible apply setBit_keeps
    | with_reducible apply sluAll_keeps
    | with_reducible apply modSpn_keeps
    | with_reducible apply keeps_ite
    | split
    | (intro)
    | with_reducible apply keeps_mk
    | with_reducible apply And.intro
    | exact Or.inl (within_bit _ rfl hm)
    | exact Or.inr rfl

theorem forgetMoff_keeps {μ : Nat} {s0 : State} (s : State)  (hk : Keeps μ s0 s) (hm : Within 0x400020 μ := by exact within_trans rfl (by assumption)) : Keeps μ s0 (forgetMoff s) := by
  unfold forgetMoff
  try dsimp only
  repeat' first
    | with_reducible assumption
    | exact within_trans rfl hm
    | with_reducible apply setBit_keeps
    | with_reducible apply modSpn_keeps
    | (intro)
    | with_reducible apply keeps_mk
    | with_reducible apply And.intro
    | exact Or.inl (within_bit _ rfl hm)
    | exact Or.inr rfl

theorem endDissipative_keeps {μ : Nat} {s0 : State} (s : State)  (hk : Keeps μ s0 s) (hm : Within 0x400020 μ := by exact within_trans rfl (by assumption)) : Keeps μ s0 (endDissipative s) := by
  unfold endDissipative
  try dsimp only
  repeat' first
    | with_reducible assumption
    | exact within_trans rfl hm
    | with_reducible apply setBit_keeps
    | with_reducible apply modSpn_keeps
    | (intro)
    | with_reducible apply keeps_mk
    | with_reducible apply And.intro
    | exact Or.inl (within_bit _ rfl hm)
    | exact Or.inr rfl

theorem setPhase_keeps {μ : Nat} {s0 : State} (p : Nat) (s : State)  (hk : Keeps μ s0 s) (hm : Within 0x8404521 μ := by exact within_trans rfl (by assumption)) : Keeps μ s0 (setPhase p s) := by
  unfold setPhase
  try dsimp only
  repeat' first
    | with_reducible assumption
    | exact within_trans rfl hm
    | with_reducible apply setF_keeps
    | with_reducible apply setBit_keeps
    | with_reducible apply tstSweep_keeps
    | with_reducible apply modSpn_keeps
    | with_reducible apply setSync_keeps
    | with_reducible apply forgetMoff_keeps
    | with_reducible apply endDissipative_keeps
    | with_reducible apply keeps_ite
    | split
    | (intro)
    | with_reducible apply keeps_mk
    | with_reducible apply And.intro
    | exact Or.inl (within_bit _ rfl hm)
    | exact Or.inr rfl

theorem coast_keeps {μ : Nat} {s0 : State} (s : State)  (hk : Keeps μ s0 s) (hm : Within 0x8404521 μ := by exact within_trans rfl (by assumption)) : Keeps μ s0 (coast s) := by
  unfold coast
  try dsimp only
  repeat' first
    | with_reducible assumption
    | exact within_trans rfl hm
    | with_reducible apply modSpn_keeps
    | with_reducible apply setPhase_keeps
    | (intro)
    | with_reducible apply keeps_mk
    | with_reducible apply And.intro
    | exact Or.inl (within_bit _ rfl hm)
    | exact Or.inr rfl

theorem brake_keeps {μ : Nat} {s0 : State} (next : AfterStop) (s : State)  (hk : Keeps μ s0 s) (hm : Within 0x8404521 μ := by exact within_trans rfl (by assumption)) : Keeps μ s0 (brake next s) := by
  unfold brake
  try dsimp only
  repeat' first
    | with_reducible assumption
    | exact within_trans rfl hm
    | with_reducible apply modSpn_keeps
    | with_reducible apply setPhase_keeps
    | (intro)
    | with_reducible apply keeps_mk
    | with_reducible apply And.intro
    | exact Or.inl (within_bit _ rfl hm)
    | exact Or.inr rfl

theorem brakeStop_keeps {μ : Nat} {s0 : State} (next : AfterStop) (s : State)  (hk : Keeps μ s0 s) (hm : Within 0x8404521 μ := by exact within_trans rfl (by assumption)) : Keeps μ s0 (brakeStop next s) := by
  unfold brakeStop
  try dsimp only
  repeat' first
    | with_reducible assumption
    | exact within_trans rfl hm
    | with_reducible apply modSpn_keeps
    | with_reducible apply brake_keeps
    | (intro)
    | with_reducible apply keeps_mk
    | with_reducible apply And.intro
    | exact Or.inl (within_bit _ rfl hm)
    | exact Or.inr rfl

theorem spinDown_keeps {μ : Nat} {s0 : State} (s : State)  (hk : Keeps μ s0 s) (hm : Within 0x8404521 μ := by exact within_trans rfl (by assumption)) : Keeps μ s0 (spinDown s) := by
  unfold spinDown
  try dsimp only
  repeat' first
    | with_reducible assumption
    | exact within_trans rfl hm
    | with_reducible apply brakeStop_keeps
    | with_reducible apply keeps_ite
    | split

theorem reacquire_keeps {μ : Nat} {s0 : State} (s : State)  (hk : Keeps μ s0 s) (hm : Within 0x8404521 μ := by exact within_trans rfl (by assumption)) : Keeps μ s0 (reacquire s) := by
  unfold reacquire
  try dsimp only
  repeat' first
    | with_reducible assumption
    | exact within_trans rfl hm
    | with_reducible apply modSpn_keeps
    | with_reducible apply setPhase_keeps
    | (intro)
    | with_reducible apply keeps_mk
    | with_reducible apply And.intro
    | exact Or.inl (within_bit _ rfl hm)
    | exact Or.inr rfl

theorem showPower_keeps {μ : Nat} {s0 : State} (s : State)  (hk : Keeps μ s0 s) (hm : Within 0x40120 μ := by exact within_trans rfl (by assumption)) : Keeps μ s0 (showPower s) := by
  unfold showPower
  try dsimp only
  repeat' first
    | with_reducible assumption
    | exact within_trans rfl hm
    | with_reducible apply setF_keeps
    | with_reducible apply setBit_keeps
    | with_reducible apply evt_keeps
    | with_reducible apply keeps_ite
    | split
    | with_reducible apply keeps_mk
    | with_reducible apply And.intro
    | exact Or.inl (within_bit _ rfl hm)
    | exact Or.inr rfl

theorem showServes_keeps {μ : Nat} {s0 : State} (s : State)  (hk : Keeps μ s0 s) (hm : Within 0x20 μ := by exact within_trans rfl (by assumption)) : Keeps μ s0 (showServes s) := by
  unfold showServes
  try dsimp only
  repeat' first
    | with_reducible assumption
    | exact within_trans rfl hm
    | with_reducible apply setBit_keeps

theorem enterMode_keeps {μ : Nat} {s0 : State} (m : Nat) (s : State)  (hk : Keeps μ s0 s) (hm : Within 0x209044521 μ := by exact within_trans rfl (by assumption)) : Keeps μ s0 (enterMode m s) := by
  unfold enterMode
  try dsimp only
  repeat' first
    | with_reducible assumption
    | exact within_trans rfl hm
    | with_reducible apply setMode_keeps
    | with_reducible apply streamSuspend_keeps
    | with_reducible apply sluAll_keeps
    | with_reducible apply ladder_keeps
    | with_reducible apply tstSweep_keeps
    | with_reducible apply showPower_keeps
    | with_reducible apply showServes_keeps
    | with_reducible apply keeps_ite
    | split

theorem standbyIfUnloaded_keeps {μ : Nat} {s0 : State} (s : State)  (hk : Keeps μ s0 s) (hm : Within 0x209044521 μ := by exact within_trans rfl (by assumption)) : Keeps μ s0 (standbyIfUnloaded s) := by
  unfold standbyIfUnloaded
  try dsimp only
  repeat' first
    | with_reducible assumption
    | exact within_trans rfl hm
    | with_reducible apply enterMode_keeps
    | with_reducible apply keeps_ite
    | split

theorem servoAngleLost_keeps {μ : Nat} {s0 : State} (s : State)  (hk : Keeps μ s0 s) (hm : Within 0x209544521 μ := by exact within_trans rfl (by assumption)) : Keeps μ s0 (servoAngleLost s) := by
  unfold servoAngleLost
  try dsimp only
  repeat' first
    | with_reducible assumption
    | exact within_trans rfl hm
    | with_reducible apply evt_keeps
    | with_reducible apply startRetract_keeps
    | with_reducible apply reacquire_keeps
    | with_reducible apply standbyIfUnloaded_keeps

theorem spnAngleLost_keeps {μ : Nat} {s0 : State} (s : State)  (hk : Keeps μ s0 s) (hm : Within 0x209544521 μ := by exact within_trans rfl (by assumption)) : Keeps μ s0 (spnAngleLost s) := by
  unfold spnAngleLost
  try dsimp only
  repeat' first
    | with_reducible assumption
    | exact within_trans rfl hm
    | with_reducible apply forgetMoff_keeps
    | with_reducible apply servoAngleLost_keeps
    | with_reducible apply keeps_ite
    | split

theorem beginStart_keeps {μ : Nat} {s0 : State} (s : State)  (hk : Keeps μ s0 s) (hm : Within 0x400000 μ := by exact within_trans rfl (by assumption)) : Keeps μ s0 (beginStart s) := by
  unfold beginStart
  try dsimp only
  repeat' first
    | with_reducible assumption
    | exact within_trans rfl hm
    | with_reducible apply modSpn_keeps
    | (intro)
    | with_reducible apply keeps_mk
    | with_reducible apply And.intro
    | exact Or.inl (within_bit _ rfl hm)
    | exact Or.inr rfl

theorem observe_keeps {μ : Nat} {s0 : State} (s : State)  (hk : Keeps μ s0 s) (hm : Within 0x8404521 μ := by exact within_trans rfl (by assumption)) : Keeps μ s0 (observe s) := by
  unfold observe
  try dsimp only
  repeat' first
    | with_reducible assumption
    | exact within_trans rfl hm
    | with_reducible apply modSpn_keeps
    | with_reducible apply setPhase_keeps
    | (intro)
    | with_reducible apply keeps_mk
    | with_reducible apply And.intro
    | exact Or.inl (within_bit _ rfl hm)
    | exact Or.inr rfl

theorem align_keeps {μ : Nat} {s0 : State} (s : State)  (hk : Keeps μ s0 s) (hm : Within 0x8404521 μ := by exact within_trans rfl (by assumption)) : Keeps μ s0 (align s) := by
  unfold align
  try dsimp only
  repeat' first
    | with_reducible assumption
    | exact within_trans rfl hm
    | with_reducible apply modSpn_keeps
    | with_reducible apply setPhase_keeps
    | (intro)
    | with_reducible apply keeps_mk
    | with_reducible apply And.intro
    | exact Or.inl (within_bit _ rfl hm)
    | exact Or.inr rfl

theorem judge_keeps {μ : Nat} {s0 : State} (back : Bool) (speed : Rat) (s : State)  (hk : Keeps μ s0 s) (hm : Within 0x8404521 μ := by exact within_trans rfl (by assumption)) : Keeps μ s0 (judge back speed s) := by
  unfold judge
  try dsimp only
  repeat' first
    | with_reducible assumption
    | exact within_trans rfl hm
    | with_reducible apply modSpn_keeps
    | with_reducible apply setSync_keeps
    | with_reducible apply setPhase_keeps
    | with_reducible apply brake_keeps
    | with_reducible apply keeps_ite
    | split
    | (intro)
    | with_reducible apply keeps_mk
    | with_reducible apply And.intro
    | exact Or.inl (within_bit _ rfl hm)
    | exact Or.inr rfl

theorem runCommand_keeps {μ : Nat} {s0 : State} (s : State)  (hk : Keeps μ s0 s) (hm : Within 0x8404521 μ := by exact within_trans rfl (by assumption)) : Keeps μ s0 (runCommand s).2 := by
  unfold runCommand
  try dsimp only
  repeat' first
    | with_reducible assumption
    | exact within_trans rfl hm
    | with_reducible apply evt_keeps
    | with_reducible apply beginStart_keeps
    | with_reducible apply observe_keeps
    | with_reducible apply judge_keeps
    | with_reducible apply keeps_ite
    | split

theorem updateAttgt_keeps {μ : Nat} {s0 : State} (s : State)  (hk : Keeps μ s0 s) (hm : Within 0x400120 μ := by exact within_trans rfl (by assumption)) : Keeps μ s0 (updateAttgt s) := by
  unfold updateAttgt
  try dsimp only
  repeat' first
    | with_reducible assumption
    | exact within_trans rfl hm
    | with_reducible apply setBit_keeps
    | with_reducible apply wrN_keeps
    | with_reducible apply evtIf_keeps
    | with_reducible apply modSpn_keeps
    | with_reducible apply keeps_ite
    | split
    | (intro)
    | with_reducible apply keeps_mk
    | with_reducible apply And.intro
    | exact Or.inl (within_bit _ rfl hm)
    | exact Or.inr rfl

end Sys2Proof.Machine
end

