-- ==== Sys2Proof/Laws/KeepsSlots.lean ====
section
/-! SUPPORT. The operations of Slots.lean keep the queue and the canonical stores. -/

set_option Elab.async false

namespace Sys2Proof.Machine

theorem noteGate_keeps {μ : Nat} {s0 : State} (l : Nat) (before : Bool) (s : State)  (hk : Keeps μ s0 s) (hm : Within 0x800 μ := by exact within_trans rfl (by assumption)) : Keeps μ s0 (noteGate l before s) := by
  unfold noteGate
  try dsimp only
  repeat' first
    | with_reducible assumption
    | exact within_trans rfl hm
    | with_reducible apply modLane_keeps
    | with_reducible apply keeps_ite
    | split
    | (intro)
    | with_reducible apply keeps_mk
    | with_reducible apply And.intro
    | exact Or.inl (within_bit _ rfl hm)
    | exact Or.inr rfl

theorem sendResult_keeps {μ : Nat} {s0 : State} (l word : Nat) (s : State)  (hk : Keeps μ s0 s) (hm : Within 0x4000 μ := by exact within_trans rfl (by assumption)) : Keeps μ s0 (sendResult l word s) := by
  unfold sendResult
  try dsimp only
  repeat' first
    | with_reducible assumption
    | exact within_trans rfl hm
    | with_reducible apply modCtx_keeps
    | with_reducible apply keeps_ite
    | split
    | exact fun _ h => h
    | exact fun _ h => by simpa [Tsq.sized, Ctx.sized, Srv.sized, NetState.sized, AngState.sized, modAt_length, modAt_all] using h
    | (intro)
    | with_reducible apply keeps_mk
    | with_reducible apply And.intro
    | exact Or.inl (within_bit _ rfl hm)
    | exact Or.inr rfl
    | assumption

theorem countResult_keeps {μ : Nat} {s0 : State} (l word : Nat) (ovr : Bool) (s : State)  (hk : Keeps μ s0 s) (hm : Within 0x120 μ := by exact within_trans rfl (by assumption)) : Keeps μ s0 (countResult l word ovr s) := by
  unfold countResult
  try dsimp only
  repeat' first
    | with_reducible assumption
    | exact within_trans rfl hm
    | with_reducible apply wrN_keeps
    | with_reducible apply satInc_keeps
    | with_reducible apply satAdd_keeps
    | with_reducible apply wrapInc_keeps
    | with_reducible apply wrapAdd_keeps
    | with_reducible apply evtIf_keeps
    | with_reducible apply keeps_ite
    | split

theorem advanceLane_keeps {μ : Nat} {s0 : State} (l : Nat) (s : State)  (hk : Keeps μ s0 s) (hm : Within 0x800 μ := by exact within_trans rfl (by assumption)) : Keeps μ s0 (advanceLane l s) := by
  unfold advanceLane
  try dsimp only
  repeat' first
    | with_reducible assumption
    | exact within_trans rfl hm
    | with_reducible apply modLane_keeps
    | (intro)
    | with_reducible apply keeps_mk
    | with_reducible apply And.intro
    | exact Or.inl (within_bit _ rfl hm)
    | exact Or.inr rfl

theorem deliver_keeps {μ : Nat} {s0 : State} (l word : Nat) (ovr : Bool) (s : State)  (hk : Keeps μ s0 s) (hm : Within 0x4920 μ := by exact within_trans rfl (by assumption)) : Keeps μ s0 (deliver l word ovr s) := by
  unfold deliver
  try dsimp only
  repeat' first
    | with_reducible assumption
    | exact within_trans rfl hm
    | with_reducible apply sendResult_keeps
    | with_reducible apply countResult_keeps
    | with_reducible apply advanceLane_keeps

theorem syncSoFar_keeps {μ : Nat} {s0 : State} (s : State) (l : Nat) (r : LaneRun)  (hk : Keeps μ s0 s) (hm : Within 0x1 μ := by exact within_trans rfl (by assumption)) : Keeps μ s0 (syncSoFar s l r).2 := by
  unfold syncSoFar
  try dsimp only
  repeat' first
    | with_reducible assumption
    | exact within_trans rfl hm
    | with_reducible apply drawFree_keeps
    | with_reducible apply keeps_ite
    | split
    | refine keeps_snd (by with_reducible assumption) ?_

theorem abortRest_keeps {μ : Nat} {s0 : State} (l : Nat) (x0 : Nat) (s : State) (hk : Keeps μ s0 s) (hm : Within 0x4921 μ := by exact within_trans rfl (by assumption)) : Keeps μ s0 (abortRest l x0 s) := by
  induction x0 generalizing s l with
  | zero =>
    unfold abortRest
    try dsimp only
    repeat' first
      | with_reducible assumption
      | exact within_trans rfl hm
      | with_reducible apply ih
      | with_reducible apply deliver_keeps
      | with_reducible apply syncSoFar_keeps
      | split
      | refine keeps_snd (by with_reducible assumption) ?_
      | with_reducible apply keeps_mk
      | with_reducible apply And.intro
      | exact Or.inl (within_bit _ rfl hm)
      | exact Or.inr rfl
  | succ k ih =>
    unfold abortRest
    try dsimp only
    repeat' first
      | with_reducible assumption
      | exact within_trans rfl hm
      | with_reducible apply ih
      | with_reducible apply deliver_keeps
      | with_reducible apply syncSoFar_keeps
      | split
      | refine keeps_snd (by with_reducible assumption) ?_
      | with_reducible apply keeps_mk
      | with_reducible apply And.intro
      | exact Or.inl (within_bit _ rfl hm)
      | exact Or.inr rfl

theorem stopLane_keeps {μ : Nat} {s0 : State} (l : Nat) (s : State)  (hk : Keeps μ s0 s) (hm : Within 0x800 μ := by exact within_trans rfl (by assumption)) : Keeps μ s0 (stopLane l s) := by
  unfold stopLane
  try dsimp only
  repeat' first
    | with_reducible assumption
    | exact within_trans rfl hm
    | with_reducible apply modLane_keeps
    | (intro)
    | with_reducible apply keeps_mk
    | with_reducible apply And.intro
    | exact Or.inl (within_bit _ rfl hm)
    | exact Or.inr rfl

theorem setReadGate_keeps {μ : Nat} {s0 : State} (l : Nat) (b : Bool) (s : State)  (hk : Keeps μ s0 s) (hm : Within 0xc00 μ := by exact within_trans rfl (by assumption)) : Keeps μ s0 (setReadGate l b s) := by
  unfold setReadGate
  try dsimp only
  repeat' first
    | with_reducible assumption
    | exact within_trans rfl hm
    | with_reducible apply modSlot_keeps
    | with_reducible apply noteGate_keeps
    | with_reducible apply keeps_ite
    | split
    | (intro)
    | with_reducible apply keeps_mk
    | with_reducible apply And.intro
    | exact Or.inl (within_bit _ rfl hm)
    | exact Or.inr rfl

theorem storeSector_keeps {μ : Nat} {s0 : State} (run : LaneRun) (r : SectorReport) (s : State)  (hk : Keeps μ s0 s) (hm : Within 0x40 μ := by exact within_trans rfl (by assumption)) : Keeps μ s0 (storeSector run r s) := by
  unfold storeSector
  try dsimp only
  repeat' first
    | with_reducible assumption
    | exact within_trans rfl hm
    | with_reducible apply sramPutBytes_keeps
    | with_reducible apply keeps_ite
    | split

theorem compareSector_keeps {μ : Nat} {s0 : State} (run : LaneRun) (r : SectorReport) (s : State)  (hk : Keeps μ s0 s) (hm : Within 0x20000 μ := by exact within_trans rfl (by assumption)) : Keeps μ s0 (compareSector run r s) := by
  unfold compareSector
  try dsimp only
  repeat' first
    | with_reducible assumption
    | exact within_trans rfl hm
    | with_reducible apply keeps_ite
    | split
    | (intro)
    | with_reducible apply keeps_mk
    | with_reducible apply And.intro
    | exact Or.inl (within_bit _ rfl hm)
    | exact Or.inr rfl

theorem drawTaps_keeps {μ : Nat} {s0 : State}  (x0 : Nat) (s : State) (hk : Keeps μ s0 s) (hm : Within 0x1 μ := by exact within_trans rfl (by assumption)) : Keeps μ s0 (drawTaps x0 s).2 := by
  induction x0 generalizing s with
  | zero =>
    unfold drawTaps
    try dsimp only
    repeat' first
      | with_reducible assumption
      | exact within_trans rfl hm
      | with_reducible apply ih
      | with_reducible apply drawFree_keeps
      | split
      | refine keeps_snd (by with_reducible assumption) ?_
  | succ k ih =>
    unfold drawTaps
    try dsimp only
    repeat' first
      | with_reducible assumption
      | exact within_trans rfl hm
      | with_reducible apply ih
      | with_reducible apply drawFree_keeps
      | split
      | refine keeps_snd (by with_reducible assumption) ?_

theorem showTaps_keeps {μ : Nat} {s0 : State} (l : Nat) (taps : List Nat) (s : State)  (hk : Keeps μ s0 s) (hm : Within 0x20 μ := by exact within_trans rfl (by assumption)) : Keeps μ s0 (showTaps l taps s) := by
  unfold showTaps
  try dsimp only
  repeat' first
    | (with_reducible apply keeps_foldl; intro s _ hk)
    | with_reducible assumption
    | exact within_trans rfl hm
    | with_reducible apply wrN_keeps
    | (intro)

theorem tapBoundary_keeps {μ : Nat} {s0 : State} (l : Nat) (searched : Bool) (s : State)  (hk : Keeps μ s0 s) (hm : Within 0x821 μ := by exact within_trans rfl (by assumption)) : Keeps μ s0 (tapBoundary l searched s) := by
  unfold tapBoundary
  try dsimp only
  repeat' first
    | with_reducible assumption
    | exact within_trans rfl hm
    | with_reducible apply modLane_keeps
    | with_reducible apply drawTaps_keeps
    | with_reducible apply showTaps_keeps
    | with_reducible apply keeps_ite
    | split
    | refine keeps_snd (by with_reducible assumption) ?_
    | (intro)
    | with_reducible apply keeps_mk
    | with_reducible apply And.intro
    | exact Or.inl (within_bit _ rfl hm)
    | exact Or.inr rfl

theorem couplingBoundary_keeps {μ : Nat} {s0 : State} (l : Nat) (searched : Bool) (s : State)  (hk : Keeps μ s0 s) (hm : Within 0x801 μ := by exact within_trans rfl (by assumption)) : Keeps μ s0 (couplingBoundary l searched s) := by
  unfold couplingBoundary
  try dsimp only
  repeat' first
    | with_reducible assumption
    | exact within_trans rfl hm
    | with_reducible apply modLane_keeps
    | with_reducible apply drawTaps_keeps
    | with_reducible apply keeps_ite
    | split
    | refine keeps_snd (by with_reducible assumption) ?_
    | (intro)
    | with_reducible apply keeps_mk
    | with_reducible apply And.intro
    | exact Or.inl (within_bit _ rfl hm)
    | exact Or.inr rfl

theorem filterBoundary_keeps {μ : Nat} {s0 : State} (l : Nat) (searched : Bool) (s : State)  (hk : Keeps μ s0 s) (hm : Within 0x821 μ := by exact within_trans rfl (by assumption)) : Keeps μ s0 (filterBoundary l searched s) := by
  unfold filterBoundary
  try dsimp only
  repeat' first
    | with_reducible assumption
    | exact within_trans rfl hm
    | with_reducible apply tapBoundary_keeps
    | with_reducible apply couplingBoundary_keeps

theorem sectorEnds_keeps {μ : Nat} {s0 : State} (l : Nat) (run : LaneRun) (r : SectorReport) (s : State)  (hk : Keeps μ s0 s) (hm : Within 0x24961 μ := by exact within_trans rfl (by assumption)) : Keeps μ s0 (sectorEnds l run r s) := by
  unfold sectorEnds
  try dsimp only
  repeat' first
    | with_reducible assumption
    | exact within_trans rfl hm
    | with_reducible apply deliver_keeps
    | with_reducible apply storeSector_keeps
    | with_reducible apply compareSector_keeps
    | with_reducible apply filterBoundary_keeps
    | with_reducible apply keeps_ite
    | split

theorem sectorResult_keeps {μ : Nat} {s0 : State} (l : Nat) (g : SectorSignal) (s : State)  (hk : Keeps μ s0 s) (hm : Within 0x24961 μ := by exact within_trans rfl (by assumption)) : Keeps μ s0 (sectorResult l g s) := by
  unfold sectorResult
  try dsimp only
  repeat' first
    | with_reducible assumption
    | exact within_trans rfl hm
    | with_reducible apply sectorEnds_keeps
    | split
    | with_reducible apply keeps_mk
    | with_reducible apply And.intro
    | exact Or.inl (within_bit _ rfl hm)
    | exact Or.inr rfl

theorem slotFault_keeps {μ : Nat} {s0 : State} (n b : Nat) (s : State)  (hk : Keeps μ s0 s) (hm : Within 0x4120 μ := by exact within_trans rfl (by assumption)) : Keeps μ s0 (slotFault n b s) := by
  unfold slotFault
  try dsimp only
  repeat' first
    | with_reducible assumption
    | exact within_trans rfl hm
    | with_reducible apply evt_keeps
    | with_reducible apply raiseS_keeps

theorem selectHead_keeps {μ : Nat} {s0 : State} (n h : Nat) (s : State)  (hk : Keeps μ s0 s) (hm : Within 0x104520 μ := by exact within_trans rfl (by assumption)) : Keeps μ s0 (selectHead n h s) := by
  unfold selectHead
  try dsimp only
  repeat' first
    | with_reducible assumption
    | exact within_trans rfl hm
    | with_reducible apply wrN_keeps
    | with_reducible apply modSlot_keeps
    | with_reducible apply modSrv_keeps
    | with_reducible apply sluApply_keeps
    | with_reducible apply targetPending_keeps
    | with_reducible apply keeps_ite
    | split
    | exact fun _ h => h
    | exact fun _ h => by simpa [Tsq.sized, Ctx.sized, Srv.sized, NetState.sized, AngState.sized, modAt_length, modAt_all] using h
    | (intro)
    | with_reducible apply keeps_mk
    | with_reducible apply And.intro
    | exact Or.inl (within_bit _ rfl hm)
    | exact Or.inr rfl
    | assumption

theorem headSel_keeps {μ : Nat} {s0 : State} (n h : Nat) (s : State)  (hk : Keeps μ s0 s) (hm : Within 0x104520 μ := by exact within_trans rfl (by assumption)) : Keeps μ s0 (headSel n h s) := by
  unfold headSel
  try dsimp only
  repeat' first
    | with_reducible assumption
    | exact within_trans rfl hm
    | with_reducible apply evtIf_keeps
    | with_reducible apply raiseS_keeps
    | with_reducible apply selectHead_keeps
    | with_reducible apply keeps_ite
    | split

theorem settleEnd_keeps {μ : Nat} {s0 : State} (n : Nat) (s : State)  (hk : Keeps μ s0 s) (hm : Within 0x400 μ := by exact within_trans rfl (by assumption)) : Keeps μ s0 (settleEnd n s) := by
  unfold settleEnd
  try dsimp only
  repeat' first
    | with_reducible assumption
    | exact within_trans rfl hm
    | with_reducible apply modSlot_keeps
    | with_reducible apply keeps_ite
    | split
    | (intro)
    | with_reducible apply keeps_mk
    | with_reducible apply And.intro
    | exact Or.inl (within_bit _ rfl hm)
    | exact Or.inr rfl

theorem wgOn_keeps {μ : Nat} {s0 : State} (n : Nat) (s : State)  (hk : Keeps μ s0 s) (hm : Within 0x4d20 μ := by exact within_trans rfl (by assumption)) : Keeps μ s0 (wgOn n s) := by
  unfold wgOn
  try dsimp only
  repeat' first
    | with_reducible assumption
    | exact within_trans rfl hm
    | with_reducible apply modSlot_keeps
    | with_reducible apply sluApply_keeps
    | with_reducible apply noteGate_keeps
    | with_reducible apply slotFault_keeps
    | with_reducible apply keeps_ite
    | split
    | (intro)
    | with_reducible apply keeps_mk
    | with_reducible apply And.intro
    | exact Or.inl (within_bit _ rfl hm)
    | exact Or.inr rfl

theorem wgDrop_keeps {μ : Nat} {s0 : State} (n : Nat) (s : State)  (hk : Keeps μ s0 s) (hm : Within 0xc00 μ := by exact within_trans rfl (by assumption)) : Keeps μ s0 (wgDrop n s) := by
  unfold wgDrop
  try dsimp only
  repeat' first
    | with_reducible assumption
    | exact within_trans rfl hm
    | with_reducible apply modSlot_keeps
    | with_reducible apply noteGate_keeps
    | (intro)
    | with_reducible apply keeps_mk
    | with_reducible apply And.intro
    | exact Or.inl (within_bit _ rfl hm)
    | exact Or.inr rfl

theorem wgOff_keeps {μ : Nat} {s0 : State} (n : Nat) (s : State)  (hk : Keeps μ s0 s) (hm : Within 0xc20 μ := by exact within_trans rfl (by assumption)) : Keeps μ s0 (wgOff n s) := by
  unfold wgOff
  try dsimp only
  repeat' first
    | with_reducible assumption
    | exact within_trans rfl hm
    | with_reducible apply setBit_keeps
    | with_reducible apply modSlot_keeps
    | with_reducible apply wgDrop_keeps
    | (intro)
    | with_reducible apply keeps_mk
    | with_reducible apply And.intro
    | exact Or.inl (within_bit _ rfl hm)
    | exact Or.inr rfl

theorem readGateOn_keeps {μ : Nat} {s0 : State} (n : Nat) (trailing : Bool) (s : State)  (hk : Keeps μ s0 s) (hm : Within 0x4d20 μ := by exact within_trans rfl (by assumption)) : Keeps μ s0 (readGateOn n trailing s) := by
  unfold readGateOn
  try dsimp only
  repeat' first
    | with_reducible assumption
    | exact within_trans rfl hm
    | with_reducible apply setReadGate_keeps
    | with_reducible apply slotFault_keeps
    | with_reducible apply keeps_ite
    | split

theorem clampCode_keeps {μ : Nat} {s0 : State} (s : State) (a h code : Nat)  (hk : Keeps μ s0 s) (hm : Within 0x120 μ := by exact within_trans rfl (by assumption)) : Keeps μ s0 (clampCode s a h code).2 := by
  unfold clampCode
  try dsimp only
  repeat' first
    | with_reducible assumption
    | exact within_trans rfl hm
    | with_reducible apply satInc_keeps
    | with_reducible apply evt_keeps
    | with_reducible apply keeps_ite
    | split

theorem assistOn_keeps {μ : Nat} {s0 : State} (n arg : Nat) (s : State)  (hk : Keeps μ s0 s) (hm : Within 0x4520 μ := by exact within_trans rfl (by assumption)) : Keeps μ s0 (assistOn n arg s) := by
  unfold assistOn
  try dsimp only
  repeat' first
    | with_reducible assumption
    | exact within_trans rfl hm
    | with_reducible apply wrN_keeps
    | with_reducible apply modSlot_keeps
    | with_reducible apply sluApply_keeps
    | with_reducible apply slotFault_keeps
    | with_reducible apply clampCode_keeps
    | with_reducible apply keeps_ite
    | split
    | refine keeps_snd (by with_reducible assumption) ?_
    | (intro)
    | with_reducible apply keeps_mk
    | with_reducible apply And.intro
    | exact Or.inl (within_bit _ rfl hm)
    | exact Or.inr rfl

theorem rampEnd_keeps {μ : Nat} {s0 : State} (n : Nat) (s : State)  (hk : Keeps μ s0 s) (hm : Within 0x420 μ := by exact within_trans rfl (by assumption)) : Keeps μ s0 (rampEnd n s) := by
  unfold rampEnd
  try dsimp only
  repeat' first
    | with_reducible assumption
    | exact within_trans rfl hm
    | with_reducible apply dropAssist_keeps
    | with_reducible apply keeps_ite
    | split

theorem assistDown_keeps {μ : Nat} {s0 : State} (n : Nat) (s : State)  (hk : Keeps μ s0 s) (hm : Within 0x420 μ := by exact within_trans rfl (by assumption)) : Keeps μ s0 (assistDown n s) := by
  unfold assistDown
  try dsimp only
  repeat' first
    | with_reducible assumption
    | exact within_trans rfl hm
    | with_reducible apply modSlot_keeps
    | with_reducible apply rampEnd_keeps
    | with_reducible apply keeps_ite
    | split
    | (intro)
    | with_reducible apply keeps_mk
    | with_reducible apply And.intro
    | exact Or.inl (within_bit _ rfl hm)
    | exact Or.inr rfl

theorem assistOff_keeps {μ : Nat} {s0 : State} (n : Nat) (s : State)  (hk : Keeps μ s0 s) (hm : Within 0x420 μ := by exact within_trans rfl (by assumption)) : Keeps μ s0 (assistOff n s) := by
  unfold assistOff
  try dsimp only
  repeat' first
    | with_reducible assumption
    | exact within_trans rfl hm
    | with_reducible apply setBit_keeps
    | with_reducible apply assistDown_keeps

theorem dbUpdate_keeps {μ : Nat} {s0 : State} (a h : Nat) (s : State) (hk : Keeps μ s0 s) 
    (hm : Within 0x3120 μ := by exact within_trans rfl (by assumption)) : Keeps μ s0 (dbUpdate a h s) := by
  unfold dbUpdate
  dsimp only
  refine evtIf_keeps _ _ _ _ (evtIf_keeps _ _ _ _ (wrN_keeps _ _ _ (keeps_same hk rfl rfl rfl rfl
    (otpGrows_refl _) (fun h => ?_) fun f x => ?_)))
  · simp only [sized_iff] at h ⊢
    simpa [modAt_length] using h
  · cases f <;> first
      | rfl
      | (rw [show Field.index _ = _ from rfl, within_bit _ rfl hm] at x; cases x)

theorem dutyBucketUpdate_keeps {μ : Nat} {s0 : State} (s : State)  (hk : Keeps μ s0 s) (hm : Within 0x7520 μ := by exact within_trans rfl (by assumption)) : Keeps μ s0 (dutyBucketUpdate s) := by
  unfold dutyBucketUpdate
  try dsimp only
  repeat' first
    | (with_reducible apply keeps_foldl; intro s _ hk)
    | with_reducible assumption
    | exact within_trans rfl hm
    | with_reducible apply sluAll_keeps
    | with_reducible apply dbUpdate_keeps
    | (intro)

theorem laneStart_keeps {μ : Nat} {s0 : State} (n arg : Nat) (s : State)  (hk : Keeps μ s0 s) (hm : Within 0x4921 μ := by exact within_trans rfl (by assumption)) : Keeps μ s0 (laneStart n arg s) := by
  unfold laneStart
  try dsimp only
  repeat' first
    | with_reducible assumption
    | exact within_trans rfl hm
    | with_reducible apply modLane_keeps
    | with_reducible apply abortRest_keeps
    | with_reducible apply slotFault_keeps
    | with_reducible apply keeps_ite
    | split
    | (intro)
    | with_reducible apply keeps_mk
    | with_reducible apply And.intro
    | exact Or.inl (within_bit _ rfl hm)
    | exact Or.inr rfl

theorem syncOpen_keeps {μ : Nat} {s0 : State} (n arg : Nat) (s : State)  (hk : Keeps μ s0 s) (hm : Within 0x800 μ := by exact within_trans rfl (by assumption)) : Keeps μ s0 (syncOpen n arg s) := by
  unfold syncOpen
  try dsimp only
  repeat' first
    | with_reducible assumption
    | exact within_trans rfl hm
    | with_reducible apply modLane_keeps
    | with_reducible apply keeps_ite
    | split
    | (intro)
    | with_reducible apply keeps_mk
    | with_reducible apply And.intro
    | exact Or.inl (within_bit _ rfl hm)
    | exact Or.inr rfl

end Sys2Proof.Machine
end

