-- ==== Sys2Proof/Laws/KeepsAngle.lean ====
section
/-! SUPPORT. The operations of Angle.lean keep the queue and the canonical stores. -/

set_option Elab.async false

namespace Sys2Proof.Machine

theorem modAng_keeps {μ : Nat} {s0 : State} (s : State) (f : AngState → AngState) (hk : Keeps μ s0 s)
    (hf : ∀ a, a.sized = true → (f a).sized = true) 
    (hm : Within 0x200 μ := by exact within_trans rfl (by assumption)) : Keeps μ s0 (modAng s f) :=
  keeps_units 9 hk (hm := hm) (hz := fun h => by
    simp only [sized_iff] at h ⊢
    obtain ⟨h1, h2, h3, h4, h5, h6, h7, h8, h9, ha, hb⟩ := h
    exact ⟨h1, h2, h3, h4, h5, h6, h7, h8, h9, ha, hf _ hb⟩)

theorem setFreq_keeps {μ : Nat} {s0 : State} (f : Rat) (s : State)  (hk : Keeps μ s0 s) (hm : Within 0x220 μ := by exact within_trans rfl (by assumption)) : Keeps μ s0 (setFreq f s) := by
  unfold setFreq
  try dsimp only
  repeat' first
    | with_reducible assumption
    | exact within_trans rfl hm
    | with_reducible apply wrN_keeps
    | with_reducible apply modAng_keeps
    | exact fun _ h => h
    | exact fun _ h => by simpa [Tsq.sized, Ctx.sized, Srv.sized, NetState.sized, AngState.sized, modAt_length, modAt_all] using h
    | (intro)
    | with_reducible apply keeps_mk
    | with_reducible apply And.intro
    | exact Or.inl (within_bit _ rfl hm)
    | exact Or.inr rfl
    | assumption

theorem setQueue_keeps {μ : Nat} {s0 : State} (n : Nat) (q : List AngEntry) (s : State)  (hk : Keeps μ s0 s) (hm : Within 0x220 μ := by exact within_trans rfl (by assumption)) : Keeps μ s0 (setQueue n q s) := by
  unfold setQueue
  try dsimp only
  repeat' first
    | with_reducible assumption
    | exact within_trans rfl hm
    | with_reducible apply wrN_keeps
    | with_reducible apply modAng_keeps
    | with_reducible apply keeps_ite
    | split
    | exact fun _ h => h
    | exact fun _ h => by simpa [Tsq.sized, Ctx.sized, Srv.sized, NetState.sized, AngState.sized, modAt_length, modAt_all] using h
    | (intro)
    | with_reducible apply keeps_mk
    | with_reducible apply And.intro
    | exact Or.inl (within_bit _ rfl hm)
    | exact Or.inr rfl
    | assumption

theorem act_keeps {μ : Nat} {s0 : State} (n action arg : Nat) (unlocked : Bool) (s : State)  (hk : Keeps μ s0 s) (hm : Within 0x104d21 μ := by exact within_trans rfl (by assumption)) : Keeps μ s0 (act n action arg unlocked s) := by
  unfold act
  try dsimp only
  repeat' first
    | with_reducible assumption
    | exact within_trans rfl hm
    | with_reducible apply wr64_keeps
    | with_reducible apply modCtx_keeps
    | with_reducible apply setReadGate_keeps
    | with_reducible apply headSel_keeps
    | with_reducible apply wgOn_keeps
    | with_reducible apply wgOff_keeps
    | with_reducible apply readGateOn_keeps
    | with_reducible apply assistOn_keeps
    | with_reducible apply assistOff_keeps
    | with_reducible apply laneStart_keeps
    | with_reducible apply syncOpen_keeps
    | split
    | exact fun _ h => h
    | exact fun _ h => by simpa [Tsq.sized, Ctx.sized, Srv.sized, NetState.sized, AngState.sized, modAt_length, modAt_all] using h
    | (intro)
    | with_reducible apply keeps_mk
    | with_reducible apply And.intro
    | exact Or.inl (within_bit _ rfl hm)
    | exact Or.inr rfl
    | assumption

theorem fireAll_keeps {μ : Nat} {s0 : State} (n : Nat) (notify : Bool) (x0 : List AngEntry) (s : State) (hk : Keeps μ s0 s) (hm : Within 0x104d21 μ := by exact within_trans rfl (by assumption)) : Keeps μ s0 (fireAll n notify x0 s) := by
  induction x0 generalizing s n notify with
  | nil =>
    unfold fireAll
    try dsimp only
    repeat' first
      | with_reducible assumption
      | exact within_trans rfl hm
      | with_reducible apply ih
      | with_reducible apply act_keeps
      | with_reducible apply keeps_ite
      | split
  | cons a l ih =>
    unfold fireAll
    try dsimp only
    repeat' first
      | with_reducible assumption
      | exact within_trans rfl hm
      | with_reducible apply ih
      | with_reducible apply act_keeps
      | with_reducible apply keeps_ite
      | split

theorem drainQueue_keeps {μ : Nat} {s0 : State} (n : Nat) (notify : Bool) (s : State)  (hk : Keeps μ s0 s) (hm : Within 0x104f21 μ := by exact within_trans rfl (by assumption)) : Keeps μ s0 (drainQueue n notify s) := by
  unfold drainQueue
  try dsimp only
  repeat' first
    | with_reducible assumption
    | exact within_trans rfl hm
    | with_reducible apply setQueue_keeps
    | with_reducible apply fireAll_keeps

theorem flushSlot_keeps {μ : Nat} {s0 : State} (n : Nat) (s : State)  (hk : Keeps μ s0 s) (hm : Within 0x104f21 μ := by exact within_trans rfl (by assumption)) : Keeps μ s0 (flushSlot n s) := by
  unfold flushSlot
  try dsimp only
  repeat' first
    | with_reducible assumption
    | exact within_trans rfl hm
    | with_reducible apply stopLane_keeps
    | with_reducible apply drainQueue_keeps

theorem postEntry_keeps {μ : Nat} {s0 : State} (n action arg surf angle : Nat) (s : State)  (hk : Keeps μ s0 s) (hm : Within 0x104f21 μ := by exact within_trans rfl (by assumption)) : Keeps μ s0 (postEntry n action arg surf angle s).2.2 := by
  unfold postEntry
  try dsimp only
  repeat' first
    | with_reducible assumption
    | exact within_trans rfl hm
    | with_reducible apply satInc_keeps
    | with_reducible apply evt_keeps
    | with_reducible apply modAng_keeps
    | with_reducible apply setQueue_keeps
    | with_reducible apply act_keeps
    | split
    | exact fun _ h => h
    | exact fun _ h => by simpa [Tsq.sized, Ctx.sized, Srv.sized, NetState.sized, AngState.sized, modAt_length, modAt_all] using h
    | (intro)
    | with_reducible apply keeps_mk
    | with_reducible apply And.intro
    | exact Or.inl (within_bit _ rfl hm)
    | exact Or.inr rfl
    | assumption

theorem passClocks_keeps {μ : Nat} {s0 : State} (k : Nat) (s : State)  (hk : Keeps μ s0 s) (hm : Within 0x26 μ := by exact within_trans rfl (by assumption)) : Keeps μ s0 (passClocks k s) := by
  unfold passClocks
  try dsimp only
  repeat' first
    | with_reducible assumption
    | exact within_trans rfl hm
    | with_reducible apply wr64_keeps
    | with_reducible apply wrapAdd_keeps
    | with_reducible apply keeps_ite
    | split
    | with_reducible apply keeps_mk
    | with_reducible apply And.intro
    | exact Or.inl (within_bit _ rfl hm)
    | exact Or.inr rfl

theorem onWrap_keeps {μ : Nat} {s0 : State} (s : State)  (hk : Keeps μ s0 s) (hm : Within 0x220 μ := by exact within_trans rfl (by assumption)) : Keeps μ s0 (onWrap s) := by
  unfold onWrap
  try dsimp only
  repeat' first
    | with_reducible assumption
    | exact within_trans rfl hm
    | with_reducible apply wrN_keeps
    | with_reducible apply wr64_keeps
    | with_reducible apply wrapInc_keeps
    | with_reducible apply modAng_keeps
    | split
    | exact fun _ h => h
    | exact fun _ h => by simpa [Tsq.sized, Ctx.sized, Srv.sized, NetState.sized, AngState.sized, modAt_length, modAt_all] using h
    | (intro)
    | with_reducible apply keeps_mk
    | with_reducible apply And.intro
    | exact Or.inl (within_bit _ rfl hm)
    | exact Or.inr rfl
    | assumption

theorem passBoundaries_keeps {μ : Nat} {s0 : State} (k : Nat) (s : State)  (hk : Keeps μ s0 s) (hm : Within 0x220 μ := by exact within_trans rfl (by assumption)) : Keeps μ s0 (passBoundaries k s) := by
  unfold passBoundaries
  try dsimp only
  repeat' first
    | with_reducible assumption
    | exact within_trans rfl hm
    | with_reducible apply setBit_keeps
    | with_reducible apply modAng_keeps
    | with_reducible apply keeps_ite
    | split
    | exact fun _ h => h
    | exact fun _ h => by simpa [Tsq.sized, Ctx.sized, Srv.sized, NetState.sized, AngState.sized, modAt_length, modAt_all] using h
    | (intro)
    | with_reducible apply keeps_mk
    | with_reducible apply And.intro
    | exact Or.inl (within_bit _ rfl hm)
    | exact Or.inr rfl
    | assumption

theorem passWithin_keeps {μ : Nat} {s0 : State} (m : Nat) (s : State)  (hk : Keeps μ s0 s) (hm : Within 0x226 μ := by exact within_trans rfl (by assumption)) : Keeps μ s0 (passWithin m s) := by
  unfold passWithin
  try dsimp only
  repeat' first
    | with_reducible assumption
    | exact within_trans rfl hm
    | with_reducible apply setF_keeps
    | with_reducible apply modAng_keeps
    | with_reducible apply passClocks_keeps
    | with_reducible apply passBoundaries_keeps
    | with_reducible apply keeps_ite
    | split
    | exact fun _ h => h
    | exact fun _ h => by simpa [Tsq.sized, Ctx.sized, Srv.sized, NetState.sized, AngState.sized, modAt_length, modAt_all] using h
    | (intro)
    | with_reducible apply keeps_mk
    | with_reducible apply And.intro
    | exact Or.inl (within_bit _ rfl hm)
    | exact Or.inr rfl
    | assumption

theorem passTicks_keeps {μ : Nat} {s0 : State}  (x0 : Nat) (x1 : Nat) (s : State) (hk : Keeps μ s0 s) (hm : Within 0x226 μ := by exact within_trans rfl (by assumption)) : Keeps μ s0 (passTicks x0 x1 s) := by
  induction x0 generalizing x1 s with
  | zero =>
    unfold passTicks
    try dsimp only
    repeat' first
      | with_reducible assumption
      | exact within_trans rfl hm
      | with_reducible apply ih
      | with_reducible apply onWrap_keeps
      | with_reducible apply passWithin_keeps
      | with_reducible apply keeps_ite
      | split
  | succ k ih =>
    unfold passTicks
    try dsimp only
    repeat' first
      | with_reducible assumption
      | exact within_trans rfl hm
      | with_reducible apply ih
      | with_reducible apply onWrap_keeps
      | with_reducible apply passWithin_keeps
      | with_reducible apply keeps_ite
      | split

theorem fireEntry_keeps {μ : Nat} {s0 : State} (n : Nat) (e : AngEntry) (s : State)  (hk : Keeps μ s0 s) (hm : Within 0x104f21 μ := by exact within_trans rfl (by assumption)) : Keeps μ s0 (fireEntry n e s) := by
  unfold fireEntry
  try dsimp only
  repeat' first
    | with_reducible assumption
    | exact within_trans rfl hm
    | with_reducible apply setQueue_keeps
    | with_reducible apply act_keeps

theorem runTo_keeps {μ : Nat} {s0 : State}  (x0 : Nat) (x1 : Nat) (s : State) (hk : Keeps μ s0 s) (hm : Within 0x104f27 μ := by exact within_trans rfl (by assumption)) : Keeps μ s0 (runTo x0 x1 s) := by
  induction x0 generalizing x1 s with
  | zero =>
    unfold runTo
    try dsimp only
    repeat' first
      | with_reducible assumption
      | exact within_trans rfl hm
      | with_reducible apply ih
      | with_reducible apply passTicks_keeps
      | with_reducible apply fireEntry_keeps
      | split
      | with_reducible apply keeps_mk
      | with_reducible apply And.intro
      | exact Or.inl (within_bit _ rfl hm)
      | exact Or.inr rfl
  | succ k ih =>
    unfold runTo
    try dsimp only
    repeat' first
      | with_reducible assumption
      | exact within_trans rfl hm
      | with_reducible apply ih
      | with_reducible apply passTicks_keeps
      | with_reducible apply fireEntry_keeps
      | split
      | with_reducible apply keeps_mk
      | with_reducible apply And.intro
      | exact Or.inl (within_bit _ rfl hm)
      | exact Or.inr rfl

theorem advanceTo_keeps {μ : Nat} {s0 : State} (t : Nat) (s : State)  (hk : Keeps μ s0 s) (hm : Within 0x104f27 μ := by exact within_trans rfl (by assumption)) : Keeps μ s0 (advanceTo t s) := by
  unfold advanceTo
  try dsimp only
  repeat' first
    | with_reducible assumption
    | exact within_trans rfl hm
    | with_reducible apply runTo_keeps
    | with_reducible apply keeps_ite
    | split

theorem tick_keeps {μ : Nat} {s0 : State} (s : State)  (hk : Keeps μ s0 s) (hm : Within 0x104f27 μ := by exact within_trans rfl (by assumption)) : Keeps μ s0 (tick s) := by
  unfold tick
  try dsimp only
  repeat' first
    | with_reducible assumption
    | exact within_trans rfl hm
    | with_reducible apply modAng_keeps
    | with_reducible apply passClocks_keeps
    | with_reducible apply runTo_keeps
    | with_reducible apply keeps_ite
    | split
    | exact fun _ h => h
    | exact fun _ h => by simpa [Tsq.sized, Ctx.sized, Srv.sized, NetState.sized, AngState.sized, modAt_length, modAt_all] using h
    | (intro)
    | with_reducible apply keeps_mk
    | with_reducible apply And.intro
    | exact Or.inl (within_bit _ rfl hm)
    | exact Or.inr rfl
    | assumption

theorem setAngState_keeps {μ : Nat} {s0 : State} (m : Nat) (s : State)  (hk : Keeps μ s0 s) (hm : Within 0x4520 μ := by exact within_trans rfl (by assumption)) : Keeps μ s0 (setAngState m s) := by
  unfold setAngState
  try dsimp only
  repeat' first
    | with_reducible assumption
    | exact within_trans rfl hm
    | with_reducible apply setF_keeps
    | with_reducible apply sluAll_keeps

theorem flushAll_keeps {μ : Nat} {s0 : State} (s : State)  (hk : Keeps μ s0 s) (hm : Within 0x104f21 μ := by exact within_trans rfl (by assumption)) : Keeps μ s0 (flushAll s) := by
  unfold flushAll
  try dsimp only
  repeat' first
    | (with_reducible apply keeps_foldl; intro s _ hk)
    | with_reducible assumption
    | exact within_trans rfl hm
    | with_reducible apply evt_keeps
    | with_reducible apply raiseS_keeps
    | with_reducible apply flushSlot_keeps
    | with_reducible apply keeps_ite
    | split
    | (intro)

theorem enterCoarse_keeps {μ : Nat} {s0 : State} (s : State)  (hk : Keeps μ s0 s) (hm : Within 0x209544f21 μ := by exact within_trans rfl (by assumption)) : Keeps μ s0 (enterCoarse s) := by
  unfold enterCoarse
  try dsimp only
  repeat' first
    | with_reducible assumption
    | exact within_trans rfl hm
    | with_reducible apply evt_keeps
    | with_reducible apply spnAngleLost_keeps
    | with_reducible apply modAng_keeps
    | with_reducible apply setFreq_keeps
    | with_reducible apply setAngState_keeps
    | with_reducible apply flushAll_keeps
    | with_reducible apply keeps_ite
    | split
    | exact fun _ h => h
    | exact fun _ h => by simpa [Tsq.sized, Ctx.sized, Srv.sized, NetState.sized, AngState.sized, modAt_length, modAt_all] using h
    | (intro)
    | with_reducible apply keeps_mk
    | with_reducible apply And.intro
    | exact Or.inl (within_bit _ rfl hm)
    | exact Or.inr rfl
    | assumption

theorem enterFree_keeps {μ : Nat} {s0 : State} (s : State)  (hk : Keeps μ s0 s) (hm : Within 0x104f21 μ := by exact within_trans rfl (by assumption)) : Keeps μ s0 (enterFree s) := by
  unfold enterFree
  try dsimp only
  repeat' first
    | (with_reducible apply keeps_foldl; intro s _ hk)
    | with_reducible assumption
    | exact within_trans rfl hm
    | with_reducible apply modAng_keeps
    | with_reducible apply setFreq_keeps
    | with_reducible apply drainQueue_keeps
    | with_reducible apply setAngState_keeps
    | exact fun _ h => h
    | exact fun _ h => by simpa [Tsq.sized, Ctx.sized, Srv.sized, NetState.sized, AngState.sized, modAt_length, modAt_all] using h
    | (intro)
    | with_reducible apply keeps_mk
    | with_reducible apply And.intro
    | exact Or.inl (within_bit _ rfl hm)
    | exact Or.inr rfl
    | assumption

theorem enterLocked_keeps {μ : Nat} {s0 : State} (s : State)  (hk : Keeps μ s0 s) (hm : Within 0x4720 μ := by exact within_trans rfl (by assumption)) : Keeps μ s0 (enterLocked s) := by
  unfold enterLocked
  try dsimp only
  repeat' first
    | with_reducible assumption
    | exact within_trans rfl hm
    | with_reducible apply evt_keeps
    | with_reducible apply modAng_keeps
    | with_reducible apply setAngState_keeps
    | exact fun _ h => h
    | exact fun _ h => by simpa [Tsq.sized, Ctx.sized, Srv.sized, NetState.sized, AngState.sized, modAt_length, modAt_all] using h
    | (intro)
    | with_reducible apply keeps_mk
    | with_reducible apply And.intro
    | exact Or.inl (within_bit _ rfl hm)
    | exact Or.inr rfl
    | assumption

theorem zeroCrossings_keeps {μ : Nat} {s0 : State} (period : Nat) (s : State)  (hk : Keeps μ s0 s) (hm : Within 0x4720 μ := by exact within_trans rfl (by assumption)) : Keeps μ s0 (zeroCrossings period s) := by
  unfold zeroCrossings
  try dsimp only
  repeat' first
    | with_reducible assumption
    | exact within_trans rfl hm
    | with_reducible apply modAng_keeps
    | with_reducible apply setFreq_keeps
    | with_reducible apply setAngState_keeps
    | with_reducible apply keeps_ite
    | split
    | exact fun _ h => h
    | exact fun _ h => by simpa [Tsq.sized, Ctx.sized, Srv.sized, NetState.sized, AngState.sized, modAt_length, modAt_all] using h
    | (intro)
    | with_reducible apply keeps_mk
    | with_reducible apply And.intro
    | exact Or.inl (within_bit _ rfl hm)
    | exact Or.inr rfl
    | assumption

theorem acquireEntry_keeps {μ : Nat} {s0 : State} (s : State)  (hk : Keeps μ s0 s) (hm : Within 0x4720 μ := by exact within_trans rfl (by assumption)) : Keeps μ s0 (acquireEntry s) := by
  unfold acquireEntry
  try dsimp only
  repeat' first
    | with_reducible assumption
    | exact within_trans rfl hm
    | with_reducible apply modAng_keeps
    | with_reducible apply setFreq_keeps
    | with_reducible apply setAngState_keeps
    | with_reducible apply keeps_ite
    | split
    | exact fun _ h => h
    | exact fun _ h => by simpa [Tsq.sized, Ctx.sized, Srv.sized, NetState.sized, AngState.sized, modAt_length, modAt_all] using h
    | (intro)
    | with_reducible apply keeps_mk
    | with_reducible apply And.intro
    | exact Or.inl (within_bit _ rfl hm)
    | exact Or.inr rfl
    | assumption

theorem acquireTimeout_keeps {μ : Nat} {s0 : State} (s : State)  (hk : Keeps μ s0 s) (hm : Within 0x209544f27 μ := by exact within_trans rfl (by assumption)) : Keeps μ s0 (acquireTimeout s) := by
  unfold acquireTimeout
  try dsimp only
  repeat' first
    | with_reducible assumption
    | exact within_trans rfl hm
    | with_reducible apply evt_keeps
    | with_reducible apply advanceTo_keeps
    | with_reducible apply enterCoarse_keeps
    | with_reducible apply keeps_ite
    | split

theorem emptyIntervals_keeps {μ : Nat} {s0 : State} (n : Nat) (x0 : Nat) (s : State) (hk : Keeps μ s0 s) (hm : Within 0x104f27 μ := by exact within_trans rfl (by assumption)) : Keeps μ s0 (emptyIntervals n x0 s) := by
  induction x0 generalizing s n with
  | zero =>
    unfold emptyIntervals
    try dsimp only
    repeat' first
      | with_reducible assumption
      | exact within_trans rfl hm
      | with_reducible apply ih
      | with_reducible apply advanceTo_keeps
      | with_reducible apply keeps_ite
      | split
  | succ k ih =>
    unfold emptyIntervals
    try dsimp only
    repeat' first
      | with_reducible assumption
      | exact within_trans rfl hm
      | with_reducible apply ih
      | with_reducible apply advanceTo_keeps
      | with_reducible apply keeps_ite
      | split

theorem enterHoldover_keeps {μ : Nat} {s0 : State} (s : State)  (hk : Keeps μ s0 s) (hm : Within 0x4520 μ := by exact within_trans rfl (by assumption)) : Keeps μ s0 (enterHoldover s) := by
  unfold enterHoldover
  try dsimp only
  repeat' first
    | with_reducible assumption
    | exact within_trans rfl hm
    | with_reducible apply evt_keeps
    | with_reducible apply setAngState_keeps

theorem holdover_keeps {μ : Nat} {s0 : State} (s : State)  (hk : Keeps μ s0 s) (hm : Within 0x104f27 μ := by exact within_trans rfl (by assumption)) : Keeps μ s0 (holdover s) := by
  unfold holdover
  try dsimp only
  repeat' first
    | with_reducible assumption
    | exact within_trans rfl hm
    | with_reducible apply emptyIntervals_keeps
    | with_reducible apply enterHoldover_keeps
    | with_reducible apply keeps_ite
    | split

theorem holdoverExpiry_keeps {μ : Nat} {s0 : State} (s : State)  (hk : Keeps μ s0 s) (hm : Within 0x209544f27 μ := by exact within_trans rfl (by assumption)) : Keeps μ s0 (holdoverExpiry s) := by
  unfold holdoverExpiry
  try dsimp only
  repeat' first
    | with_reducible assumption
    | exact within_trans rfl hm
    | with_reducible apply enterCoarse_keeps
    | with_reducible apply emptyIntervals_keeps
    | with_reducible apply keeps_ite
    | split

theorem headsUnloaded_keeps {μ : Nat} {s0 : State} (s : State)  (hk : Keeps μ s0 s) (hm : Within 0x209544f21 μ := by exact within_trans rfl (by assumption)) : Keeps μ s0 (headsUnloaded s) := by
  unfold headsUnloaded
  try dsimp only
  repeat' first
    | with_reducible assumption
    | exact within_trans rfl hm
    | with_reducible apply enterCoarse_keeps
    | with_reducible apply keeps_ite
    | split

theorem angTest_keeps {μ : Nat} {s0 : State} (s : State)  (hk : Keeps μ s0 s) (hm : Within 0x209544f21 μ := by exact within_trans rfl (by assumption)) : Keeps μ s0 (angTest s) := by
  unfold angTest
  try dsimp only
  repeat' first
    | with_reducible assumption
    | exact within_trans rfl hm
    | with_reducible apply evt_keeps
    | with_reducible apply enterCoarse_keeps
    | with_reducible apply acquireEntry_keeps
    | with_reducible apply enterHoldover_keeps
    | with_reducible apply headsUnloaded_keeps
    | with_reducible apply keeps_ite
    | split

theorem loopTakes_keeps {μ : Nat} {s0 : State} (e8 : Int) (s : State)  (hk : Keeps μ s0 s) (hm : Within 0x220 μ := by exact within_trans rfl (by assumption)) : Keeps μ s0 (loopTakes e8 s) := by
  unfold loopTakes
  try dsimp only
  repeat' first
    | with_reducible assumption
    | exact within_trans rfl hm
    | with_reducible apply modAng_keeps
    | with_reducible apply setFreq_keeps
    | exact fun _ h => h
    | exact fun _ h => by simpa [Tsq.sized, Ctx.sized, Srv.sized, NetState.sized, AngState.sized, modAt_length, modAt_all] using h
    | (intro)
    | with_reducible apply keeps_mk
    | with_reducible apply And.intro
    | exact Or.inl (within_bit _ rfl hm)
    | exact Or.inr rfl
    | assumption

theorem residual_keeps {μ : Nat} {s0 : State} (a : Nat) (e8 : Int) (s : State)  (hk : Keeps μ s0 s) (hm : Within 0x320 μ := by exact within_trans rfl (by assumption)) : Keeps μ s0 (residual a e8 s) := by
  unfold residual
  try dsimp only
  repeat' first
    | (with_reducible apply keeps_foldl; intro s _ hk)
    | with_reducible assumption
    | exact within_trans rfl hm
    | with_reducible apply setBit_keeps
    | with_reducible apply wrN_keeps
    | with_reducible apply evt_keeps
    | with_reducible apply modAng_keeps
    | with_reducible apply keeps_ite
    | split
    | exact fun _ h => h
    | exact fun _ h => by simpa [Tsq.sized, Ctx.sized, Srv.sized, NetState.sized, AngState.sized, modAt_length, modAt_all] using h
    | (intro)
    | with_reducible apply keeps_mk
    | with_reducible apply And.intro
    | exact Or.inl (within_bit _ rfl hm)
    | exact Or.inr rfl
    | assumption

theorem reBase_keeps {μ : Nat} {s0 : State} (g : Nat) (s : State)  (hk : Keeps μ s0 s) (hm : Within 0x220 μ := by exact within_trans rfl (by assumption)) : Keeps μ s0 (reBase g s) := by
  unfold reBase
  try dsimp only
  repeat' first
    | with_reducible assumption
    | exact within_trans rfl hm
    | with_reducible apply setF_keeps
    | with_reducible apply modAng_keeps
    | exact fun _ h => h
    | exact fun _ h => by simpa [Tsq.sized, Ctx.sized, Srv.sized, NetState.sized, AngState.sized, modAt_length, modAt_all] using h
    | (intro)
    | with_reducible apply keeps_mk
    | with_reducible apply And.intro
    | exact Or.inl (within_bit _ rfl hm)
    | exact Or.inr rfl
    | assumption

theorem lockStep_keeps {μ : Nat} {s0 : State} (e8 : Int) (s : State)  (hk : Keeps μ s0 s) (hm : Within 0x4720 μ := by exact within_trans rfl (by assumption)) : Keeps μ s0 (lockStep e8 s) := by
  unfold lockStep
  try dsimp only
  repeat' first
    | with_reducible assumption
    | exact within_trans rfl hm
    | with_reducible apply modAng_keeps
    | with_reducible apply enterLocked_keeps
    | with_reducible apply loopTakes_keeps
    | with_reducible apply keeps_ite
    | split
    | exact fun _ h => h
    | exact fun _ h => by simpa [Tsq.sized, Ctx.sized, Srv.sized, NetState.sized, AngState.sized, modAt_length, modAt_all] using h
    | (intro)
    | with_reducible apply keeps_mk
    | with_reducible apply And.intro
    | exact Or.inl (within_bit _ rfl hm)
    | exact Or.inr rfl
    | assumption

theorem phaseSample_keeps {μ : Nat} {s0 : State} (a t8 f wedge : Nat) (s : State)  (hk : Keeps μ s0 s) (hm : Within 0x4720 μ := by exact within_trans rfl (by assumption)) : Keeps μ s0 (phaseSample a t8 f wedge s) := by
  unfold phaseSample
  try dsimp only
  repeat' first
    | with_reducible assumption
    | exact within_trans rfl hm
    | with_reducible apply modAng_keeps
    | with_reducible apply residual_keeps
    | with_reducible apply reBase_keeps
    | with_reducible apply lockStep_keeps
    | with_reducible apply keeps_ite
    | split
    | exact fun _ h => h
    | exact fun _ h => by simpa [Tsq.sized, Ctx.sized, Srv.sized, NetState.sized, AngState.sized, modAt_length, modAt_all] using h
    | (intro)
    | with_reducible apply keeps_mk
    | with_reducible apply And.intro
    | exact Or.inl (within_bit _ rfl hm)
    | exact Or.inr rfl
    | assumption

theorem angNowRead_keeps {μ : Nat} {s0 : State} (s : State)  (hk : Keeps μ s0 s) (hm : Within 0x38 μ := by exact within_trans rfl (by assumption)) : Keeps μ s0 (angNowRead s) := by
  unfold angNowRead
  try dsimp only
  repeat' first
    | with_reducible assumption
    | exact within_trans rfl hm
    | with_reducible apply wrN_keeps
    | with_reducible apply wr64_keeps
    | with_reducible apply answer_keeps

theorem skewWrite_keeps {μ : Nat} {s0 : State} (f v : Nat) (s : State)  (hk : Keeps μ s0 s) (hm : Within 0x20 μ := by exact within_trans rfl (by assumption)) : Keeps μ s0 (skewWrite f v s) := by
  unfold skewWrite
  try dsimp only
  repeat' first
    | with_reducible assumption
    | exact within_trans rfl hm
    | with_reducible apply setBit_keeps
    | with_reducible apply wrN_keeps
    | with_reducible apply keeps_ite
    | split

theorem angQpost_keeps {μ : Nat} {s0 : State} (v : Nat) (s : State)  (hk : Keeps μ s0 s) (hm : Within 0x104f21 μ := by exact within_trans rfl (by assumption)) : Keeps μ s0 (angQpost v s) := by
  unfold angQpost
  try dsimp only
  repeat' first
    | with_reducible assumption
    | exact within_trans rfl hm
    | with_reducible apply setF_keeps
    | with_reducible apply wr64_keeps
    | with_reducible apply postEntry_keeps
    | with_reducible apply keeps_ite
    | split
    | refine keeps_thd (by with_reducible assumption) ?_

theorem fireNext_keeps {μ : Nat} {s0 : State} (n action : Nat) (s : State)  (hk : Keeps μ s0 s) (hm : Within 0x104f27 μ := by exact within_trans rfl (by assumption)) : Keeps μ s0 (fireNext n action s) := by
  unfold fireNext
  try dsimp only
  repeat' first
    | with_reducible assumption
    | exact within_trans rfl hm
    | with_reducible apply advanceTo_keeps
    | with_reducible apply keeps_ite
    | split
    | with_reducible apply keeps_mk
    | with_reducible apply And.intro
    | exact Or.inl (within_bit _ rfl hm)
    | exact Or.inr rfl

end Sys2Proof.Machine
end

