-- ==== Sys2Proof/Laws/KeepsCistern.lean ====
section
/-! SUPPORT. The operations of Cistern.lean keep the queue and the canonical stores. -/

set_option Elab.async false

namespace Sys2Proof.Machine

theorem modCis_keeps {μ : Nat} {s0 : State} (s : State) (f : CisState → CisState)  (hk : Keeps μ s0 s) (hm : Within 0x80000 μ := by exact within_trans rfl (by assumption)) : Keeps μ s0 (modCis s f) := by
  unfold modCis
  try dsimp only
  repeat' first
    | with_reducible assumption
    | exact within_trans rfl hm
    | with_reducible apply keeps_mk
    | with_reducible apply And.intro
    | exact Or.inl (within_bit _ rfl hm)
    | exact Or.inr rfl

theorem updateThreshold_keeps {μ : Nat} {s0 : State} (n : Nat) (s : State)  (hk : Keeps μ s0 s) (hm : Within 0x120 μ := by exact within_trans rfl (by assumption)) : Keeps μ s0 (updateThreshold n s) := by
  unfold updateThreshold
  try dsimp only
  repeat' first
    | with_reducible assumption
    | exact within_trans rfl hm
    | with_reducible apply setBit_keeps
    | with_reducible apply evt_keeps
    | with_reducible apply keeps_ite
    | split

theorem updateThresholds_keeps {μ : Nat} {s0 : State} (s : State)  (hk : Keeps μ s0 s) (hm : Within 0x8000120 μ := by exact within_trans rfl (by assumption)) : Keeps μ s0 (updateThresholds s) := by
  unfold updateThresholds
  try dsimp only
  repeat' first
    | (with_reducible apply keeps_foldl; intro s _ hk)
    | with_reducible assumption
    | exact within_trans rfl hm
    | with_reducible apply setBit_keeps
    | with_reducible apply pfcAll_keeps
    | with_reducible apply updateThreshold_keeps
    | with_reducible apply keeps_ite
    | split
    | (intro)

theorem setFreeCount_keeps {μ : Nat} {s0 : State} (c : Nat) (s : State)  (hk : Keeps μ s0 s) (hm : Within 0x8000120 μ := by exact within_trans rfl (by assumption)) : Keeps μ s0 (setFreeCount c s) := by
  unfold setFreeCount
  try dsimp only
  repeat' first
    | with_reducible assumption
    | exact within_trans rfl hm
    | with_reducible apply wrN_keeps
    | with_reducible apply updateThresholds_keeps
    | with_reducible apply keeps_ite
    | split

theorem setOwnCount_keeps {μ : Nat} {s0 : State} (o c : Nat) (s : State)  (hk : Keeps μ s0 s) (hm : Within 0x20 μ := by exact within_trans rfl (by assumption)) : Keeps μ s0 (setOwnCount o c s) := by
  unfold setOwnCount
  try dsimp only
  repeat' first
    | with_reducible assumption
    | exact within_trans rfl hm
    | with_reducible apply wrN_keeps
    | with_reducible apply keeps_ite
    | split

theorem setOwner_keeps {μ : Nat} {s0 : State} (i o : Nat) (s : State)  (hk : Keeps μ s0 s) (hm : Within 0x80060 μ := by exact within_trans rfl (by assumption)) : Keeps μ s0 (setOwner i o s) := by
  unfold setOwner
  try dsimp only
  repeat' first
    | with_reducible assumption
    | exact within_trans rfl hm
    | with_reducible apply sramPut8_keeps
    | with_reducible apply modCis_keeps
    | with_reducible apply setOwnCount_keeps
    | (intro)
    | with_reducible apply keeps_mk
    | with_reducible apply And.intro
    | exact Or.inl (within_bit _ rfl hm)
    | exact Or.inr rfl

theorem setSpec_keeps {μ : Nat} {s0 : State} (i : Nat) (b : Bool) (s : State)  (hk : Keeps μ s0 s) (hm : Within 0x60 μ := by exact within_trans rfl (by assumption)) : Keeps μ s0 (setSpec i b s) := by
  unfold setSpec
  try dsimp only
  repeat' first
    | with_reducible assumption
    | exact within_trans rfl hm
    | with_reducible apply wrN_keeps
    | with_reducible apply wrapInc_keeps
    | with_reducible apply sramPut8_keeps
    | with_reducible apply keeps_ite
    | split

theorem writeTag_keeps {μ : Nat} {s0 : State} (i : Nat) (s : State)  (hk : Keeps μ s0 s) (hm : Within 0x40 μ := by exact within_trans rfl (by assumption)) : Keeps μ s0 (writeTag i s) := by
  unfold writeTag
  try dsimp only
  repeat' first
    | with_reducible assumption
    | exact within_trans rfl hm
    | with_reducible apply sramPut64_keeps
    | with_reducible apply sramPut16_keeps
    | with_reducible apply sramPutBytes_keeps

theorem grant_keeps {μ : Nat} {s0 : State} (o : Nat) (spec : Bool) (s : State)  (hk : Keeps μ s0 s) (hm : Within 0x8080160 μ := by exact within_trans rfl (by assumption)) : Keeps μ s0 (grant o spec s).2 := by
  unfold grant
  try dsimp only
  repeat' first
    | with_reducible assumption
    | exact within_trans rfl hm
    | with_reducible apply setFreeCount_keeps
    | with_reducible apply setOwner_keeps
    | with_reducible apply setSpec_keeps
    | with_reducible apply writeTag_keeps
    | split
    | with_reducible apply keeps_mk
    | with_reducible apply And.intro
    | exact Or.inl (within_bit _ rfl hm)
    | exact Or.inr rfl

theorem refused_keeps {μ : Nat} {s0 : State} (o : Nat) (s : State)  (hk : Keeps μ s0 s) (hm : Within 0x80120 μ := by exact within_trans rfl (by assumption)) : Keeps μ s0 (refused o s) := by
  unfold refused
  try dsimp only
  repeat' first
    | with_reducible assumption
    | exact within_trans rfl hm
    | with_reducible apply satInc_keeps
    | with_reducible apply evt_keeps
    | with_reducible apply modCis_keeps
    | with_reducible apply keeps_ite
    | split
    | (intro)
    | with_reducible apply keeps_mk
    | with_reducible apply And.intro
    | exact Or.inl (within_bit _ rfl hm)
    | exact Or.inr rfl

theorem answerAlloc_keeps {μ : Nat} {s0 : State} (o r i : Nat) (s : State)  (hk : Keeps μ s0 s) (hm : Within 0x80000 μ := by exact within_trans rfl (by assumption)) : Keeps μ s0 (answerAlloc o r i s) := by
  unfold answerAlloc
  try dsimp only
  repeat' first
    | with_reducible assumption
    | exact within_trans rfl hm
    | with_reducible apply modCis_keeps
    | (intro)
    | with_reducible apply keeps_mk
    | with_reducible apply And.intro
    | exact Or.inl (within_bit _ rfl hm)
    | exact Or.inr rfl

theorem allocOne_keeps {μ : Nat} {s0 : State} (o : Nat) (spec floorOk : Bool) (s : State)  (hk : Keeps μ s0 s) (hm : Within 0x8080160 μ := by exact within_trans rfl (by assumption)) : Keeps μ s0 (allocOne o spec floorOk s) := by
  unfold allocOne
  try dsimp only
  repeat' first
    | with_reducible assumption
    | exact within_trans rfl hm
    | with_reducible apply grant_keeps
    | with_reducible apply refused_keeps
    | with_reducible apply answerAlloc_keeps
    | with_reducible apply keeps_ite
    | split
    | refine keeps_snd (by with_reducible assumption) ?_
    | with_reducible apply keeps_mk
    | with_reducible apply And.intro
    | exact Or.inl (within_bit _ rfl hm)
    | exact Or.inr rfl

theorem allocate_keeps {μ : Nat} {s0 : State} (m : BitVec 8) (spec : Bool) (s : State)  (hk : Keeps μ s0 s) (hm : Within 0x8080160 μ := by exact within_trans rfl (by assumption)) : Keeps μ s0 (allocate m spec s) := by
  unfold allocate
  try dsimp only
  repeat' first
    | (with_reducible apply keeps_foldl; intro s _ hk)
    | with_reducible assumption
    | exact within_trans rfl hm
    | with_reducible apply modCis_keeps
    | with_reducible apply refused_keeps
    | with_reducible apply allocOne_keeps
    | with_reducible apply keeps_ite
    | split
    | (intro)
    | with_reducible apply keeps_mk
    | with_reducible apply And.intro
    | exact Or.inl (within_bit _ rfl hm)
    | exact Or.inr rfl

theorem allocRetry_keeps {μ : Nat} {s0 : State} (o : Nat) (s : State)  (hk : Keeps μ s0 s) (hm : Within 0x8080160 μ := by exact within_trans rfl (by assumption)) : Keeps μ s0 (allocRetry o s) := by
  unfold allocRetry
  try dsimp only
  repeat' first
    | with_reducible assumption
    | exact within_trans rfl hm
    | with_reducible apply modCis_keeps
    | with_reducible apply allocOne_keeps
    | with_reducible apply keeps_ite
    | split
    | (intro)
    | with_reducible apply keeps_mk
    | with_reducible apply And.intro
    | exact Or.inl (within_bit _ rfl hm)
    | exact Or.inr rfl

theorem reject_keeps {μ : Nat} {s0 : State} (req i code : Nat) (s : State)  (hk : Keeps μ s0 s) (hm : Within 0x80120 μ := by exact within_trans rfl (by assumption)) : Keeps μ s0 (reject req i code s) := by
  unfold reject
  try dsimp only
  repeat' first
    | with_reducible assumption
    | exact within_trans rfl hm
    | with_reducible apply satInc_keeps
    | with_reducible apply evt_keeps
    | with_reducible apply modCis_keeps
    | with_reducible apply keeps_ite
    | split
    | (intro)
    | with_reducible apply keeps_mk
    | with_reducible apply And.intro
    | exact Or.inl (within_bit _ rfl hm)
    | exact Or.inr rfl

theorem pushFree_keeps {μ : Nat} {s0 : State} (i : Nat) (s : State)  (hk : Keeps μ s0 s) (hm : Within 0x8080160 μ := by exact within_trans rfl (by assumption)) : Keeps μ s0 (pushFree i s) := by
  unfold pushFree
  try dsimp only
  repeat' first
    | with_reducible assumption
    | exact within_trans rfl hm
    | with_reducible apply modCis_keeps
    | with_reducible apply setFreeCount_keeps
    | with_reducible apply setOwner_keeps
    | with_reducible apply setSpec_keeps
    | (intro)
    | with_reducible apply keeps_mk
    | with_reducible apply And.intro
    | exact Or.inl (within_bit _ rfl hm)
    | exact Or.inr rfl

theorem freeBuf_keeps {μ : Nat} {s0 : State} (req i : Nat) (aligned : Bool) (s : State)  (hk : Keeps μ s0 s) (hm : Within 0x8080160 μ := by exact within_trans rfl (by assumption)) : Keeps μ s0 (freeBuf req i aligned s).2 := by
  unfold freeBuf
  try dsimp only
  repeat' first
    | with_reducible assumption
    | exact within_trans rfl hm
    | with_reducible apply reject_keeps
    | with_reducible apply pushFree_keeps
    | split
    | with_reducible apply keeps_mk
    | with_reducible apply And.intro
    | exact Or.inl (within_bit _ rfl hm)
    | exact Or.inr rfl

theorem giveBuf_keeps {μ : Nat} {s0 : State} (req i o : Nat) (aligned : Bool) (s : State)  (hk : Keeps μ s0 s) (hm : Within 0x80160 μ := by exact within_trans rfl (by assumption)) : Keeps μ s0 (giveBuf req i o aligned s).2 := by
  unfold giveBuf
  try dsimp only
  repeat' first
    | with_reducible assumption
    | exact within_trans rfl hm
    | with_reducible apply setOwner_keeps
    | with_reducible apply reject_keeps
    | split
    | with_reducible apply keeps_mk
    | with_reducible apply And.intro
    | exact Or.inl (within_bit _ rfl hm)
    | exact Or.inr rfl

theorem coreOp_keeps {μ : Nat} {s0 : State} (r : Nat × State) (hk : Keeps μ s0 r.2) 
    (hm : Within 0x30 μ := by exact within_trans rfl (by assumption)) : Keeps μ s0 (coreOp r) := by
  unfold coreOp
  dsimp only
  split
  · exact busOk_keeps _ (setF_keeps _ _ _ _ _ hk)
  · exact busFault_keeps _ (setF_keeps _ _ _ _ _ hk)

theorem performOp_keeps {μ : Nat} {s0 : State} (s : State) (x0 : CisHeld) (hk : Keeps μ s0 s) (hm : Within 0x8080170 μ := by exact within_trans rfl (by assumption)) : Keeps μ s0 (performOp s x0) := by
  cases x0 <;> unfold performOp <;> try dsimp only
  all_goals
    repeat' first
      | with_reducible assumption
      | exact within_trans rfl hm
      | with_reducible apply wr64_keeps
      | with_reducible apply freeBuf_keeps
      | with_reducible apply giveBuf_keeps
      | with_reducible apply coreOp_keeps
      | split
      | refine keeps_snd (by with_reducible assumption) ?_

theorem submitOp_keeps {μ : Nat} {s0 : State} (h : CisHeld) (s : State)  (hk : Keeps μ s0 s) (hm : Within 0x8080170 μ := by exact within_trans rfl (by assumption)) : Keeps μ s0 (submitOp h s) := by
  unfold submitOp
  try dsimp only
  repeat' first
    | with_reducible assumption
    | exact within_trans rfl hm
    | with_reducible apply modCis_keeps
    | with_reducible apply performOp_keeps
    | with_reducible apply keeps_ite
    | split
    | (intro)
    | with_reducible apply keeps_mk
    | with_reducible apply And.intro
    | exact Or.inl (within_bit _ rfl hm)
    | exact Or.inr rfl

theorem reclaim_keeps {μ : Nat} {s0 : State} (s : State)  (hk : Keeps μ s0 s) (hm : Within 0x8080160 μ := by exact within_trans rfl (by assumption)) : Keeps μ s0 (reclaim s) := by
  unfold reclaim
  try dsimp only
  repeat' first
    | with_reducible assumption
    | exact within_trans rfl hm
    | with_reducible apply pushFree_keeps
    | with_reducible apply keeps_ite
    | split
    | (intro)
    | with_reducible apply keeps_mk
    | with_reducible apply And.intro
    | exact Or.inl (within_bit _ rfl hm)
    | exact Or.inr rfl

theorem clearTags_keeps {μ : Nat} {s0 : State} (s : State) (hk : Keeps μ s0 s) 
    (hm : Within 0x40 μ := by exact within_trans rfl (by assumption)) : Keeps μ s0 (clearTags s) :=
  keeps_sram_filter _ hk

theorem clearPool_keeps {μ : Nat} {s0 : State} (s : State)  (hk : Keeps μ s0 s) (hm : Within 0x8080160 μ := by exact within_trans rfl (by assumption)) : Keeps μ s0 (clearPool s) := by
  unfold clearPool
  try dsimp only
  repeat' first
    | (with_reducible apply keeps_foldl; intro s _ hk)
    | with_reducible assumption
    | exact within_trans rfl hm
    | with_reducible apply setBit_keeps
    | with_reducible apply wrN_keeps
    | with_reducible apply modCis_keeps
    | with_reducible apply updateThresholds_keeps
    | with_reducible apply setOwnCount_keeps
    | with_reducible apply clearTags_keeps
    | (intro)
    | with_reducible apply keeps_mk
    | with_reducible apply And.intro
    | exact Or.inl (within_bit _ rfl hm)
    | exact Or.inr rfl

theorem rebuildEnd_keeps {μ : Nat} {s0 : State} (s : State)  (hk : Keeps μ s0 s) (hm : Within 0x8080170 μ := by exact within_trans rfl (by assumption)) : Keeps μ s0 (rebuildEnd s) := by
  unfold rebuildEnd
  try dsimp only
  repeat' first
    | (with_reducible apply keeps_foldl; intro s _ hk)
    | with_reducible assumption
    | exact within_trans rfl hm
    | with_reducible apply setBit_keeps
    | with_reducible apply modCis_keeps
    | with_reducible apply performOp_keeps
    | with_reducible apply clearPool_keeps
    | with_reducible apply keeps_ite
    | split
    | (intro)
    | with_reducible apply keeps_mk
    | with_reducible apply And.intro
    | exact Or.inl (within_bit _ rfl hm)
    | exact Or.inr rfl

theorem coreAlloc_keeps {μ : Nat} {s0 : State} (floorOk : Bool) (s : State)  (hk : Keeps μ s0 s) (hm : Within 0x8080178 μ := by exact within_trans rfl (by assumption)) : Keeps μ s0 (coreAlloc floorOk s) := by
  unfold coreAlloc
  try dsimp only
  repeat' first
    | with_reducible assumption
    | exact within_trans rfl hm
    | with_reducible apply answer_keeps
    | with_reducible apply modCis_keeps
    | with_reducible apply allocOne_keeps
    | with_reducible apply keeps_ite
    | split
    | (intro)
    | with_reducible apply keeps_mk
    | with_reducible apply And.intro
    | exact Or.inl (within_bit _ rfl hm)
    | exact Or.inr rfl

theorem cisFreeWrite_keeps {μ : Nat} {s0 : State} (v : Nat) (s : State)  (hk : Keeps μ s0 s) (hm : Within 0x8080170 μ := by exact within_trans rfl (by assumption)) : Keeps μ s0 (cisFreeWrite v s) := by
  unfold cisFreeWrite
  try dsimp only
  repeat' first
    | with_reducible assumption
    | exact within_trans rfl hm
    | with_reducible apply submitOp_keeps

theorem cisGiveWrite_keeps {μ : Nat} {s0 : State} (v : Nat) (s : State)  (hk : Keeps μ s0 s) (hm : Within 0x8080170 μ := by exact within_trans rfl (by assumption)) : Keeps μ s0 (cisGiveWrite v s) := by
  unfold cisGiveWrite
  try dsimp only
  repeat' first
    | with_reducible assumption
    | exact within_trans rfl hm
    | with_reducible apply submitOp_keeps

theorem errlogPop_keeps {μ : Nat} {s0 : State} (s : State)  (hk : Keeps μ s0 s) (hm : Within 0x80018 μ := by exact within_trans rfl (by assumption)) : Keeps μ s0 (errlogPop s) := by
  unfold errlogPop
  try dsimp only
  repeat' first
    | with_reducible assumption
    | exact within_trans rfl hm
    | with_reducible apply answer_keeps
    | with_reducible apply modCis_keeps
    | split
    | (intro)
    | with_reducible apply keeps_mk
    | with_reducible apply And.intro
    | exact Or.inl (within_bit _ rfl hm)
    | exact Or.inr rfl

theorem cisCtlWrite_keeps {μ : Nat} {s0 : State} (v : Nat) (s : State)  (hk : Keeps μ s0 s) (hm : Within 0x8000121 μ := by exact within_trans rfl (by assumption)) : Keeps μ s0 (cisCtlWrite v s) := by
  unfold cisCtlWrite
  try dsimp only
  repeat' first
    | with_reducible assumption
    | exact within_trans rfl hm
    | with_reducible apply wrN_keeps
    | with_reducible apply drawFree_keeps
    | with_reducible apply evt_keeps
    | with_reducible apply updateThresholds_keeps
    | with_reducible apply keeps_ite
    | split
    | refine keeps_snd (by with_reducible assumption) ?_

theorem freeAll_keeps {μ : Nat} {s0 : State} (o : Nat) (x0 : List Nat) (s : State) (hk : Keeps μ s0 s) (hm : Within 0x8080160 μ := by exact within_trans rfl (by assumption)) : Keeps μ s0 (freeAll o x0 s) := by
  induction x0 generalizing s o with
  | nil =>
    unfold freeAll
    try dsimp only
    repeat' first
      | with_reducible assumption
      | exact within_trans rfl hm
      | with_reducible apply ih
      | with_reducible apply freeBuf_keeps
      | with_reducible apply keeps_ite
      | split
      | refine keeps_snd (by with_reducible assumption) ?_
  | cons a l ih =>
    unfold freeAll
    try dsimp only
    repeat' first
      | with_reducible assumption
      | exact within_trans rfl hm
      | with_reducible apply ih
      | with_reducible apply freeBuf_keeps
      | with_reducible apply keeps_ite
      | split
      | refine keeps_snd (by with_reducible assumption) ?_

end Sys2Proof.Machine
end

