-- ==== Sys2Proof/Laws/KeepsHost.lean ====
section
/-! SUPPORT. The operations of Host.lean keep the queue and the canonical stores. -/

set_option Elab.async false

namespace Sys2Proof.Machine

theorem modNqe_keeps {μ : Nat} {s0 : State} (s : State) (f : NqeState → NqeState)  (hk : Keeps μ s0 s) (hm : Within 0x40000 μ := by exact within_trans rfl (by assumption)) : Keeps μ s0 (modNqe s f) := by
  unfold modNqe
  try dsimp only
  repeat' first
    | with_reducible assumption
    | exact within_trans rfl hm
    | with_reducible apply keeps_mk
    | with_reducible apply And.intro
    | exact Or.inl (within_bit _ rfl hm)
    | exact Or.inr rfl

theorem modCmd_keeps {μ : Nat} {s0 : State} (k : Nat) (f : HostCmd → HostCmd) (s : State)  (hk : Keeps μ s0 s) (hm : Within 0x40000 μ := by exact within_trans rfl (by assumption)) : Keeps μ s0 (modCmd k f s) := by
  unfold modCmd
  try dsimp only
  repeat' first
    | with_reducible assumption
    | exact within_trans rfl hm
    | with_reducible apply modNqe_keeps
    | with_reducible apply keeps_ite
    | split
    | (intro)
    | with_reducible apply keeps_mk
    | with_reducible apply And.intro
    | exact Or.inl (within_bit _ rfl hm)
    | exact Or.inr rfl

theorem countCmds_keeps {μ : Nat} {s0 : State} (s : State)  (hk : Keeps μ s0 s) (hm : Within 0x120 μ := by exact within_trans rfl (by assumption)) : Keeps μ s0 (countCmds s) := by
  unfold countCmds
  try dsimp only
  repeat' first
    | with_reducible assumption
    | exact within_trans rfl hm
    | with_reducible apply setBit_keeps
    | with_reducible apply wrN_keeps
    | with_reducible apply evtIf_keeps

theorem settleActive_keeps {μ : Nat} {s0 : State} (s : State)  (hk : Keeps μ s0 s) (hm : Within 0x120 μ := by exact within_trans rfl (by assumption)) : Keeps μ s0 (settleActive s) := by
  unfold settleActive
  try dsimp only
  repeat' first
    | with_reducible assumption
    | exact within_trans rfl hm
    | with_reducible apply setMode_keeps
    | with_reducible apply keeps_ite
    | split

theorem modAssoc_keeps {μ : Nat} {s0 : State} (a : Nat) (f : Assoc → Assoc) (s : State)  (hk : Keeps μ s0 s) (hm : Within 0x40000 μ := by exact within_trans rfl (by assumption)) : Keeps μ s0 (modAssoc a f s) := by
  unfold modAssoc
  try dsimp only
  repeat' first
    | with_reducible assumption
    | exact within_trans rfl hm
    | with_reducible apply modNqe_keeps
    | with_reducible apply keeps_ite
    | split
    | (intro)
    | with_reducible apply keeps_mk
    | with_reducible apply And.intro
    | exact Or.inl (within_bit _ rfl hm)
    | exact Or.inr rfl

theorem sendData_keeps {μ : Nat} {s0 : State} (c : HostCmd) (d : HostData) (s : State)  (hk : Keeps μ s0 s) (hm : Within 0x40000 μ := by exact within_trans rfl (by assumption)) : Keeps μ s0 (sendData c d s) := by
  unfold sendData
  try dsimp only
  repeat' first
    | with_reducible assumption
    | exact within_trans rfl hm
    | with_reducible apply modNqe_keeps
    | (intro)
    | with_reducible apply keeps_mk
    | with_reducible apply And.intro
    | exact Or.inl (within_bit _ rfl hm)
    | exact Or.inr rfl

theorem noteError_keeps {μ : Nat} {s0 : State} (a q cid st : Nat) (lba : Option Nat) (s : State)  (hk : Keeps μ s0 s) (hm : Within 0x40000 μ := by exact within_trans rfl (by assumption)) : Keeps μ s0 (noteError a q cid st lba s) := by
  unfold noteError
  try dsimp only
  repeat' first
    | with_reducible assumption
    | exact within_trans rfl hm
    | with_reducible apply modAssoc_keeps
    | with_reducible apply keeps_ite
    | split
    | (intro)
    | with_reducible apply keeps_mk
    | with_reducible apply And.intro
    | exact Or.inl (within_bit _ rfl hm)
    | exact Or.inr rfl

theorem countCompletion_keeps {μ : Nat} {s0 : State} (status : Nat) (s : State)  (hk : Keeps μ s0 s) (hm : Within 0x20 μ := by exact within_trans rfl (by assumption)) : Keeps μ s0 (countCompletion status s) := by
  unfold countCompletion
  try dsimp only
  repeat' first
    | with_reducible assumption
    | exact within_trans rfl hm
    | with_reducible apply satInc_keeps
    | with_reducible apply wrapInc_keeps
    | with_reducible apply keeps_ite
    | split

theorem post_keeps {μ : Nat} {s0 : State} (c : Completion) (lba : Option Nat) (s : State)  (hk : Keeps μ s0 s) (hm : Within 0x40020 μ := by exact within_trans rfl (by assumption)) : Keeps μ s0 (post c lba s) := by
  unfold post
  try dsimp only
  repeat' first
    | with_reducible assumption
    | exact within_trans rfl hm
    | with_reducible apply modNqe_keeps
    | with_reducible apply noteError_keeps
    | with_reducible apply countCompletion_keeps
    | (intro)
    | with_reducible apply keeps_mk
    | with_reducible apply And.intro
    | exact Or.inl (within_bit _ rfl hm)
    | exact Or.inr rfl

theorem dropCmd_keeps {μ : Nat} {s0 : State} (k : Nat) (s : State)  (hk : Keeps μ s0 s) (hm : Within 0x40120 μ := by exact within_trans rfl (by assumption)) : Keeps μ s0 (dropCmd k s) := by
  unfold dropCmd
  try dsimp only
  repeat' first
    | with_reducible assumption
    | exact within_trans rfl hm
    | with_reducible apply modNqe_keeps
    | with_reducible apply countCmds_keeps
    | (intro)
    | with_reducible apply keeps_mk
    | with_reducible apply And.intro
    | exact Or.inl (within_bit _ rfl hm)
    | exact Or.inr rfl

theorem finishFlushes_keeps {μ : Nat} {s0 : State} (k : Nat) (s : State)  (hk : Keeps μ s0 s) (hm : Within 0x40120 μ := by exact within_trans rfl (by assumption)) : Keeps μ s0 (finishFlushes k s) := by
  unfold finishFlushes
  try dsimp only
  repeat' first
    | (with_reducible apply keeps_foldl; intro s _ hk)
    | with_reducible assumption
    | exact within_trans rfl hm
    | with_reducible apply modNqe_keeps
    | with_reducible apply post_keeps
    | with_reducible apply dropCmd_keeps
    | with_reducible apply keeps_ite
    | split
    | (intro)
    | with_reducible apply keeps_mk
    | with_reducible apply And.intro
    | exact Or.inl (within_bit _ rfl hm)
    | exact Or.inr rfl

theorem complete_keeps {μ : Nat} {s0 : State} (k status : Nat) (dnr : Bool) (s : State)  (hk : Keeps μ s0 s) (hm : Within 0x80c0160 μ := by exact within_trans rfl (by assumption)) : Keeps μ s0 (complete k status dnr s) := by
  unfold complete
  try dsimp only
  repeat' first
    | with_reducible assumption
    | exact within_trans rfl hm
    | with_reducible apply gauge_keeps
    | with_reducible apply freeAll_keeps
    | with_reducible apply settleActive_keeps
    | with_reducible apply post_keeps
    | with_reducible apply dropCmd_keeps
    | with_reducible apply finishFlushes_keeps
    | split
    | with_reducible apply keeps_mk
    | with_reducible apply And.intro
    | exact Or.inl (within_bit _ rfl hm)
    | exact Or.inr rfl

theorem discard_keeps {μ : Nat} {s0 : State} (k : Nat) (s : State)  (hk : Keeps μ s0 s) (hm : Within 0x40120 μ := by exact within_trans rfl (by assumption)) : Keeps μ s0 (discard k s) := by
  unfold discard
  try dsimp only
  repeat' first
    | with_reducible assumption
    | exact within_trans rfl hm
    | with_reducible apply settleActive_keeps
    | with_reducible apply dropCmd_keeps
    | with_reducible apply finishFlushes_keeps

theorem toFirmware_keeps {μ : Nat} {s0 : State} (k r : Nat) (s : State)  (hk : Keeps μ s0 s) (hm : Within 0x40120 μ := by exact within_trans rfl (by assumption)) : Keeps μ s0 (toFirmware k r s) := by
  unfold toFirmware
  try dsimp only
  repeat' first
    | with_reducible assumption
    | exact within_trans rfl hm
    | with_reducible apply evt_keeps
    | with_reducible apply modNqe_keeps
    | with_reducible apply modCmd_keeps
    | (intro)
    | with_reducible apply keeps_mk
    | with_reducible apply And.intro
    | exact Or.inl (within_bit _ rfl hm)
    | exact Or.inr rfl

theorem readFails_keeps {μ : Nat} {s0 : State} (r lba : Nat) (c : HostCmd) (s : State)  (hk : Keeps μ s0 s) (hm : Within 0x40120 μ := by exact within_trans rfl (by assumption)) : Keeps μ s0 (readFails r lba c s) := by
  unfold readFails
  try dsimp only
  repeat' first
    | with_reducible assumption
    | exact within_trans rfl hm
    | with_reducible apply modCmd_keeps
    | with_reducible apply toFirmware_keeps
    | with_reducible apply keeps_ite
    | split
    | (intro)
    | with_reducible apply keeps_mk
    | with_reducible apply And.intro
    | exact Or.inl (within_bit _ rfl hm)
    | exact Or.inr rfl

theorem endRetries_keeps {μ : Nat} {s0 : State} (s : State)  (hk : Keeps μ s0 s) (hm : Within 0x80c0160 μ := by exact within_trans rfl (by assumption)) : Keeps μ s0 (endRetries s) := by
  unfold endRetries
  try dsimp only
  repeat' first
    | (with_reducible apply keeps_foldl; intro s _ hk)
    | with_reducible assumption
    | exact within_trans rfl hm
    | with_reducible apply complete_keeps
    | (intro)

theorem discardIo_keeps {μ : Nat} {s0 : State} (s : State)  (hk : Keeps μ s0 s) (hm : Within 0x40120 μ := by exact within_trans rfl (by assumption)) : Keeps μ s0 (discardIo s) := by
  unfold discardIo
  try dsimp only
  repeat' first
    | (with_reducible apply keeps_foldl; intro s _ hk)
    | with_reducible assumption
    | exact within_trans rfl hm
    | with_reducible apply discard_keeps
    | (intro)

theorem modCph_keeps {μ : Nat} {s0 : State} (s : State) (f : CphState → CphState)  (hk : Keeps μ s0 s) (hm : Within 0x40000000 μ := by exact within_trans rfl (by assumption)) : Keeps μ s0 (modCph s f) := by
  unfold modCph
  try dsimp only
  repeat' first
    | with_reducible assumption
    | exact within_trans rfl hm
    | with_reducible apply keeps_mk
    | with_reducible apply And.intro
    | exact Or.inl (within_bit _ rfl hm)
    | exact Or.inr rfl

theorem issueJob_keeps {μ : Nat} {s0 : State} (j : CphJob) (s : State)  (hk : Keeps μ s0 s) (hm : Within 0x40000000 μ := by exact within_trans rfl (by assumption)) : Keeps μ s0 (issueJob j s) := by
  unfold issueJob
  try dsimp only
  repeat' first
    | with_reducible assumption
    | exact within_trans rfl hm
    | with_reducible apply modCph_keeps
    | (intro)
    | with_reducible apply keeps_mk
    | with_reducible apply And.intro
    | exact Or.inl (within_bit _ rfl hm)
    | exact Or.inr rfl

theorem issueSector_keeps {μ : Nat} {s0 : State} (op nsid lba zone b : Nat) (s : State)  (hk : Keeps μ s0 s) (hm : Within 0x40000000 μ := by exact within_trans rfl (by assumption)) : Keeps μ s0 (issueSector op nsid lba zone b s) := by
  unfold issueSector
  try dsimp only
  repeat' first
    | with_reducible assumption
    | exact within_trans rfl hm
    | with_reducible apply issueJob_keeps
    | with_reducible apply keeps_ite
    | split
    | with_reducible apply keeps_mk
    | with_reducible apply And.intro
    | exact Or.inl (within_bit _ rfl hm)
    | exact Or.inr rfl

end Sys2Proof.Machine
end

