-- ==== Sys2Proof/Laws/KeepsCopy.lean ====
section
/-! SUPPORT. The operations of Copy.lean keep the queue and the canonical stores. -/

set_option Elab.async false

namespace Sys2Proof.Machine

theorem modRewrap_keeps {μ : Nat} {s0 : State} (s : State) (f : RewrapRun → RewrapRun)  (hk : Keeps μ s0 s) (hm : Within 0x200000000 μ := by exact within_trans rfl (by assumption)) : Keeps μ s0 (modRewrap s f) := by
  unfold modRewrap
  try dsimp only
  repeat' first
    | with_reducible assumption
    | exact within_trans rfl hm
    | with_reducible apply modArc_keeps
    | (intro)
    | with_reducible apply keeps_mk
    | with_reducible apply And.intro
    | exact Or.inl (within_bit _ rfl hm)
    | exact Or.inr rfl

theorem rwJournal_keeps {μ : Nat} {s0 : State} (p : Nat) (s : State)  (hk : Keeps μ s0 s) (hm : Within 0x120 μ := by exact within_trans rfl (by assumption)) : Keeps μ s0 (rwJournal p s) := by
  unfold rwJournal
  try dsimp only
  repeat' first
    | with_reducible assumption
    | exact within_trans rfl hm
    | with_reducible apply setF_keeps
    | with_reducible apply evt_keeps

theorem rwFail_keeps {μ : Nat} {s0 : State} (r : Nat) (s : State)  (hk : Keeps μ s0 s) (hm : Within 0x200000120 μ := by exact within_trans rfl (by assumption)) : Keeps μ s0 (rwFail r s) := by
  unfold rwFail
  try dsimp only
  repeat' first
    | with_reducible assumption
    | exact within_trans rfl hm
    | with_reducible apply setF_keeps
    | with_reducible apply modArc_keeps
    | with_reducible apply modRewrap_keeps
    | with_reducible apply rwJournal_keeps
    | (intro)
    | with_reducible apply keeps_mk
    | with_reducible apply And.intro
    | exact Or.inl (within_bit _ rfl hm)
    | exact Or.inr rfl

theorem rwFailAt_keeps {μ : Nat} {s0 : State} (r k : Nat) (s : State)  (hk : Keeps μ s0 s) (hm : Within 0x200000120 μ := by exact within_trans rfl (by assumption)) : Keeps μ s0 (rwFailAt r k s) := by
  unfold rwFailAt
  try dsimp only
  repeat' first
    | with_reducible assumption
    | exact within_trans rfl hm
    | with_reducible apply setF_keeps
    | with_reducible apply rwFail_keeps

theorem rwWriteFails_keeps {μ : Nat} {s0 : State} (z k : Nat) (s : State)  (hk : Keeps μ s0 s) (hm : Within 0x200000120 μ := by exact within_trans rfl (by assumption)) : Keeps μ s0 (rwWriteFails z k s) := by
  unfold rwWriteFails
  try dsimp only
  repeat' first
    | with_reducible assumption
    | exact within_trans rfl hm
    | with_reducible apply rwFailAt_keeps
    | with_reducible apply keeps_ite
    | split

theorem rwOffset_keeps {μ : Nat} {s0 : State} (z c : Nat) (s : State)  (hk : Keeps μ s0 s) (hm : Within 0x20 μ := by exact within_trans rfl (by assumption)) : Keeps μ s0 (rwOffset z c s) := by
  unfold rwOffset
  try dsimp only
  repeat' first
    | with_reducible assumption
    | exact within_trans rfl hm
    | with_reducible apply setF_keeps
    | with_reducible apply keeps_ite
    | split

theorem rwReadFails_keeps {μ : Nat} {s0 : State} (k : Nat) (s : State)  (hk : Keeps μ s0 s) (hm : Within 0x200000120 μ := by exact within_trans rfl (by assumption)) : Keeps μ s0 (rwReadFails k s) := by
  unfold rwReadFails
  try dsimp only
  repeat' first
    | with_reducible assumption
    | exact within_trans rfl hm
    | with_reducible apply modRewrap_keeps
    | with_reducible apply rwFailAt_keeps
    | with_reducible apply keeps_ite
    | split
    | (intro)
    | with_reducible apply keeps_mk
    | with_reducible apply And.intro
    | exact Or.inl (within_bit _ rfl hm)
    | exact Or.inr rfl

theorem setEntryState_keeps {μ : Nat} {s0 : State} (e v : Nat) (s : State)  (hk : Keeps μ s0 s) (hm : Within 0x200000000 μ := by exact within_trans rfl (by assumption)) : Keeps μ s0 (setEntryState e v s) := by
  unfold setEntryState
  try dsimp only
  repeat' first
    | with_reducible assumption
    | exact within_trans rfl hm
    | with_reducible apply modArc_keeps
    | (intro)
    | with_reducible apply keeps_mk
    | with_reducible apply And.intro
    | exact Or.inl (within_bit _ rfl hm)
    | exact Or.inr rfl

theorem modEntry_keeps {μ : Nat} {s0 : State} (e : Nat) (f : StreamEntry → StreamEntry) (s : State)  (hk : Keeps μ s0 s) (hm : Within 0x200000000 μ := by exact within_trans rfl (by assumption)) : Keeps μ s0 (modEntry e f s) := by
  unfold modEntry
  try dsimp only
  repeat' first
    | with_reducible assumption
    | exact within_trans rfl hm
    | with_reducible apply modArc_keeps
    | with_reducible apply keeps_ite
    | split
    | (intro)
    | with_reducible apply keeps_mk
    | with_reducible apply And.intro
    | exact Or.inl (within_bit _ rfl hm)
    | exact Or.inr rfl

theorem dropSectors_keeps {μ : Nat} {s0 : State} (x : StreamEntry) (s : State)  (hk : Keeps μ s0 s) (hm : Within 0x208080160 μ := by exact within_trans rfl (by assumption)) : Keeps μ s0 (dropSectors x s) := by
  unfold dropSectors
  try dsimp only
  repeat' first
    | with_reducible assumption
    | exact within_trans rfl hm
    | with_reducible apply modArc_keeps
    | with_reducible apply freeAll_keeps
    | (intro)
    | with_reducible apply keeps_mk
    | with_reducible apply And.intro
    | exact Or.inl (within_bit _ rfl hm)
    | exact Or.inr rfl

theorem entryStops_keeps {μ : Nat} {s0 : State} (x : StreamEntry) (v : Nat) (s : State)  (hk : Keeps μ s0 s) (hm : Within 0x208080160 μ := by exact within_trans rfl (by assumption)) : Keeps μ s0 (entryStops x v s) := by
  unfold entryStops
  try dsimp only
  repeat' first
    | with_reducible assumption
    | exact within_trans rfl hm
    | with_reducible apply modArc_keeps
    | with_reducible apply setEntryState_keeps
    | with_reducible apply dropSectors_keeps
    | (intro)
    | with_reducible apply keeps_mk
    | with_reducible apply And.intro
    | exact Or.inl (within_bit _ rfl hm)
    | exact Or.inr rfl

theorem streamReadFails_keeps {μ : Nat} {s0 : State} (x : StreamEntry) (k : Nat) (s : State)  (hk : Keeps μ s0 s) (hm : Within 0x208080160 μ := by exact within_trans rfl (by assumption)) : Keeps μ s0 (streamReadFails x k s) := by
  unfold streamReadFails
  try dsimp only
  repeat' first
    | with_reducible assumption
    | exact within_trans rfl hm
    | with_reducible apply modEntry_keeps
    | with_reducible apply entryStops_keeps
    | with_reducible apply keeps_ite
    | split
    | (intro)
    | with_reducible apply keeps_mk
    | with_reducible apply And.intro
    | exact Or.inl (within_bit _ rfl hm)
    | exact Or.inr rfl

end Sys2Proof.Machine
end

