-- ==== Sys2Proof/Laws/KeepsPipeline.lean ====
section
/-! SUPPORT. The operations of Pipeline.lean keep the queue and the canonical stores. -/

set_option Elab.async false

namespace Sys2Proof.Machine

theorem modZtb_keeps {μ : Nat} {s0 : State} (s : State) (f : ZtbState → ZtbState)  (hk : Keeps μ s0 s) (hm : Within 0x20000 μ := by exact within_trans rfl (by assumption)) : Keeps μ s0 (modZtb s f) := by
  unfold modZtb
  try dsimp only
  repeat' first
    | with_reducible assumption
    | exact within_trans rfl hm
    | with_reducible apply keeps_mk
    | with_reducible apply And.intro
    | exact Or.inl (within_bit _ rfl hm)
    | exact Or.inr rfl

theorem modWork_keeps {μ : Nat} {s0 : State} (z : Nat) (f : ZoneWork → ZoneWork) (s : State)  (hk : Keeps μ s0 s) (hm : Within 0x20000 μ := by exact within_trans rfl (by assumption)) : Keeps μ s0 (modWork z f s) := by
  unfold modWork
  try dsimp only
  repeat' first
    | with_reducible assumption
    | exact within_trans rfl hm
    | with_reducible apply modZtb_keeps
    | (intro)
    | with_reducible apply keeps_mk
    | with_reducible apply And.intro
    | exact Or.inl (within_bit _ rfl hm)
    | exact Or.inr rfl

theorem setZoneState_keeps {μ : Nat} {s0 : State} (z v : Nat) (s : State)  (hk : Keeps μ s0 s) (hm : Within 0x4560 μ := by exact within_trans rfl (by assumption)) : Keeps μ s0 (setZoneState z v s) := by
  unfold setZoneState
  try dsimp only
  repeat' first
    | with_reducible assumption
    | exact within_trans rfl hm
    | with_reducible apply wrN_keeps
    | with_reducible apply setZState_keeps
    | with_reducible apply targetPendingZone_keeps
    | with_reducible apply keeps_ite
    | split

theorem showOppend_keeps {μ : Nat} {s0 : State} (s : State)  (hk : Keeps μ s0 s) (hm : Within 0x20 μ := by exact within_trans rfl (by assumption)) : Keeps μ s0 (showOppend s) := by
  unfold showOppend
  try dsimp only
  repeat' first
    | with_reducible assumption
    | exact within_trans rfl hm
    | with_reducible apply wrN_keeps
    | split
    | with_reducible apply keeps_mk
    | with_reducible apply And.intro
    | exact Or.inl (within_bit _ rfl hm)
    | exact Or.inr rfl

theorem enterZoneState_keeps {μ : Nat} {s0 : State} (z v : Nat) (s : State)  (hk : Keeps μ s0 s) (hm : Within 0x24560 μ := by exact within_trans rfl (by assumption)) : Keeps μ s0 (enterZoneState z v s) := by
  unfold enterZoneState
  try dsimp only
  repeat' first
    | with_reducible assumption
    | exact within_trans rfl hm
    | with_reducible apply evt_keeps
    | with_reducible apply modZtb_keeps
    | with_reducible apply modWork_keeps
    | with_reducible apply setZoneState_keeps
    | with_reducible apply showOppend_keeps
    | with_reducible apply keeps_ite
    | split
    | (intro)
    | with_reducible apply keeps_mk
    | with_reducible apply And.intro
    | exact Or.inl (within_bit _ rfl hm)
    | exact Or.inr rfl

theorem openByWrite_keeps {μ : Nat} {s0 : State} (z : Nat) (s : State)  (hk : Keeps μ s0 s) (hm : Within 0x24560 μ := by exact within_trans rfl (by assumption)) : Keeps μ s0 (openByWrite z s) := by
  unfold openByWrite
  try dsimp only
  repeat' first
    | with_reducible assumption
    | exact within_trans rfl hm
    | with_reducible apply enterZoneState_keeps
    | with_reducible apply keeps_ite
    | split

theorem showSlpend_keeps {μ : Nat} {s0 : State} (s : State)  (hk : Keeps μ s0 s) (hm : Within 0x20 μ := by exact within_trans rfl (by assumption)) : Keeps μ s0 (showSlpend s) := by
  unfold showSlpend
  try dsimp only
  repeat' first
    | with_reducible assumption
    | exact within_trans rfl hm
    | with_reducible apply wrN_keeps
    | split
    | with_reducible apply keeps_mk
    | with_reducible apply And.intro
    | exact Or.inl (within_bit _ rfl hm)
    | exact Or.inr rfl

theorem slipRefused_keeps {μ : Nat} {s0 : State} (z bit : Nat) (s : State)  (hk : Keeps μ s0 s) (hm : Within 0x4560 μ := by exact within_trans rfl (by assumption)) : Keeps μ s0 (slipRefused z bit s) := by
  unfold slipRefused
  try dsimp only
  repeat' first
    | with_reducible assumption
    | exact within_trans rfl hm
    | with_reducible apply evt_keeps
    | with_reducible apply setZoneState_keeps

theorem appendSlip_keeps {μ : Nat} {s0 : State} (z p : Nat) (s : State)  (hk : Keeps μ s0 s) (hm : Within 0x24560 μ := by exact within_trans rfl (by assumption)) : Keeps μ s0 (appendSlip z p s).2 := by
  unfold appendSlip
  try dsimp only
  repeat' first
    | with_reducible assumption
    | exact within_trans rfl hm
    | with_reducible apply wrN_keeps
    | with_reducible apply sramPut64_keeps
    | with_reducible apply sramPutPart_keeps
    | with_reducible apply evt_keeps
    | with_reducible apply setNslip_keeps
    | with_reducible apply setSliphead_keeps
    | with_reducible apply modZtb_keeps
    | with_reducible apply showSlpend_keeps
    | with_reducible apply slipRefused_keeps
    | with_reducible apply keeps_ite
    | split
    | (intro)
    | with_reducible apply keeps_mk
    | with_reducible apply And.intro
    | exact Or.inl (within_bit _ rfl hm)
    | exact Or.inr rfl

theorem completeWrites_keeps {μ : Nat} {s0 : State} (z : Nat) (s : State)  (hk : Keeps μ s0 s) (hm : Within 0x80c0160 μ := by exact within_trans rfl (by assumption)) : Keeps μ s0 (completeWrites z s) := by
  unfold completeWrites
  try dsimp only
  repeat' first
    | (with_reducible apply keeps_foldl; intro s _ hk)
    | with_reducible assumption
    | exact within_trans rfl hm
    | with_reducible apply complete_keeps
    | (intro)

theorem sealSectors_keeps {μ : Nat} {s0 : State} (z : Nat) (which : TailSector → Bool) (s : State)  (hk : Keeps μ s0 s) (hm : Within 0x80a0160 μ := by exact within_trans rfl (by assumption)) : Keeps μ s0 (sealSectors z which s) := by
  unfold sealSectors
  try dsimp only
  repeat' first
    | with_reducible assumption
    | exact within_trans rfl hm
    | with_reducible apply freeAll_keeps
    | with_reducible apply modWork_keeps
    | (intro)
    | with_reducible apply keeps_mk
    | with_reducible apply And.intro
    | exact Or.inl (within_bit _ rfl hm)
    | exact Or.inr rfl

theorem updateCptr_keeps {μ : Nat} {s0 : State} (z : Nat) (s : State)  (hk : Keeps μ s0 s) (hm : Within 0x80e4560 μ := by exact within_trans rfl (by assumption)) : Keeps μ s0 (updateCptr z s) := by
  unfold updateCptr
  try dsimp only
  repeat' first
    | with_reducible assumption
    | exact within_trans rfl hm
    | with_reducible apply setCptr_keeps
    | with_reducible apply rwOffset_keeps
    | with_reducible apply setZoneState_keeps
    | with_reducible apply completeWrites_keeps
    | with_reducible apply sealSectors_keeps
    | with_reducible apply keeps_ite
    | split

theorem reassign_keeps {μ : Nat} {s0 : State} (z : Nat) (c : HostCmd) (s : State)  (hk : Keeps μ s0 s) (hm : Within 0x80e0160 μ := by exact within_trans rfl (by assumption)) : Keeps μ s0 (reassign z c s) := by
  unfold reassign
  try dsimp only
  repeat' first
    | with_reducible assumption
    | exact within_trans rfl hm
    | with_reducible apply freeAll_keeps
    | with_reducible apply modCmd_keeps
    | with_reducible apply complete_keeps
    | with_reducible apply modWork_keeps
    | with_reducible apply keeps_ite
    | split
    | (intro)
    | with_reducible apply keeps_mk
    | with_reducible apply And.intro
    | exact Or.inl (within_bit _ rfl hm)
    | exact Or.inr rfl

theorem repairZone_keeps {μ : Nat} {s0 : State} (z : Nat) (s : State)  (hk : Keeps μ s0 s) (hm : Within 0x80e0160 μ := by exact within_trans rfl (by assumption)) : Keeps μ s0 (repairZone z s) := by
  unfold repairZone
  try dsimp only
  repeat' first
    | (with_reducible apply keeps_foldl; intro s _ hk)
    | with_reducible assumption
    | exact within_trans rfl hm
    | with_reducible apply freeAll_keeps
    | with_reducible apply modWork_keeps
    | with_reducible apply reassign_keeps
    | (intro)
    | with_reducible apply keeps_mk
    | with_reducible apply And.intro
    | exact Or.inl (within_bit _ rfl hm)
    | exact Or.inr rfl

theorem requestRepair_keeps {μ : Nat} {s0 : State} (z : Nat) (s : State)  (hk : Keeps μ s0 s) (hm : Within 0x80e0160 μ := by exact within_trans rfl (by assumption)) : Keeps μ s0 (requestRepair z s) := by
  unfold requestRepair
  try dsimp only
  repeat' first
    | with_reducible assumption
    | exact within_trans rfl hm
    | with_reducible apply modWork_keeps
    | with_reducible apply repairZone_keeps
    | with_reducible apply keeps_ite
    | split
    | (intro)
    | with_reducible apply keeps_mk
    | with_reducible apply And.intro
    | exact Or.inl (within_bit _ rfl hm)
    | exact Or.inr rfl

theorem failWrite_keeps {μ : Nat} {s0 : State} (z q : Nat) (s : State)  (hk : Keeps μ s0 s) (hm : Within 0x2080e0160 μ := by exact within_trans rfl (by assumption)) : Keeps μ s0 (failWrite z q s) := by
  unfold failWrite
  try dsimp only
  repeat' first
    | (with_reducible apply keeps_foldl; intro s _ hk)
    | with_reducible assumption
    | exact within_trans rfl hm
    | with_reducible apply toFirmware_keeps
    | with_reducible apply rwWriteFails_keeps
    | with_reducible apply requestRepair_keeps
    | (intro)

theorem unwrite_keeps {μ : Nat} {s0 : State} (z p : Nat) (s : State)  (hk : Keeps μ s0 s) (hm : Within 0x20000 μ := by exact within_trans rfl (by assumption)) : Keeps μ s0 (unwrite z p s) := by
  unfold unwrite
  try dsimp only
  repeat' first
    | with_reducible assumption
    | exact within_trans rfl hm
    | with_reducible apply modWork_keeps
    | (intro)
    | with_reducible apply keeps_mk
    | with_reducible apply And.intro
    | exact Or.inl (within_bit _ rfl hm)
    | exact Or.inr rfl

theorem setAttempts_keeps {μ : Nat} {s0 : State} (z p n : Nat) (s : State)  (hk : Keeps μ s0 s) (hm : Within 0x20000 μ := by exact within_trans rfl (by assumption)) : Keeps μ s0 (setAttempts z p n s) := by
  unfold setAttempts
  try dsimp only
  repeat' first
    | with_reducible assumption
    | exact within_trans rfl hm
    | with_reducible apply modWork_keeps
    | with_reducible apply keeps_ite
    | split
    | (intro)
    | with_reducible apply keeps_mk
    | with_reducible apply And.intro
    | exact Or.inl (within_bit _ rfl hm)
    | exact Or.inr rfl

theorem rollback_keeps {μ : Nat} {s0 : State} (z p q x : Nat) (s : State)  (hk : Keeps μ s0 s) (hm : Within 0x2080e4560 μ := by exact within_trans rfl (by assumption)) : Keeps μ s0 (rollback z p q x s) := by
  unfold rollback
  try dsimp only
  repeat' first
    | with_reducible assumption
    | exact within_trans rfl hm
    | with_reducible apply satInc_keeps
    | with_reducible apply evt_keeps
    | with_reducible apply modCtx_keeps
    | with_reducible apply setRptr_keeps
    | with_reducible apply appendSlip_keeps
    | with_reducible apply failWrite_keeps
    | with_reducible apply unwrite_keeps
    | with_reducible apply setAttempts_keeps
    | with_reducible apply keeps_ite
    | split
    | refine keeps_snd (by with_reducible assumption) ?_
    | exact fun _ h => h
    | exact fun _ h => by simpa [Tsq.sized, Ctx.sized, Srv.sized, NetState.sized, AngState.sized, modAt_length, modAt_all] using h
    | (intro)
    | with_reducible apply keeps_mk
    | with_reducible apply And.intro
    | exact Or.inl (within_bit _ rfl hm)
    | exact Or.inr rfl
    | assumption

theorem verifySector_keeps {μ : Nat} {s0 : State} (z p q x : Nat) (passes covered : Bool) (s : State)  (hk : Keeps μ s0 s) (hm : Within 0x2080e4560 μ := by exact within_trans rfl (by assumption)) : Keeps μ s0 (verifySector z p q x passes covered s) := by
  unfold verifySector
  try dsimp only
  repeat' first
    | with_reducible assumption
    | exact within_trans rfl hm
    | with_reducible apply satInc_keeps
    | with_reducible apply evt_keeps
    | with_reducible apply modWork_keeps
    | with_reducible apply sealSectors_keeps
    | with_reducible apply updateCptr_keeps
    | with_reducible apply rollback_keeps
    | with_reducible apply keeps_ite
    | split
    | (intro)
    | with_reducible apply keeps_mk
    | with_reducible apply And.intro
    | exact Or.inl (within_bit _ rfl hm)
    | exact Or.inr rfl

theorem trailDone_keeps {μ : Nat} {s0 : State} (q x j : Nat) (s : State)  (hk : Keeps μ s0 s) (hm : Within 0x2080e4560 μ := by exact within_trans rfl (by assumption)) : Keeps μ s0 (trailDone q x j s) := by
  unfold trailDone
  try dsimp only
  repeat' first
    | with_reducible assumption
    | exact within_trans rfl hm
    | with_reducible apply verifySector_keeps
    | split
    | (intro)
    | with_reducible apply keeps_mk
    | with_reducible apply And.intro
    | exact Or.inl (within_bit _ rfl hm)
    | exact Or.inr rfl

theorem zoneWritten_keeps {μ : Nat} {s0 : State} (z off guard : Nat) (s : State)  (hk : Keeps μ s0 s) (hm : Within 0x80e4560 μ := by exact within_trans rfl (by assumption)) : Keeps μ s0 (zoneWritten z off guard s) := by
  unfold zoneWritten
  try dsimp only
  repeat' first
    | with_reducible assumption
    | exact within_trans rfl hm
    | with_reducible apply setRptr_keeps
    | with_reducible apply freeAll_keeps
    | with_reducible apply modWork_keeps
    | with_reducible apply updateCptr_keeps
    | with_reducible apply keeps_ite
    | split
    | (intro)
    | with_reducible apply keeps_mk
    | with_reducible apply And.intro
    | exact Or.inl (within_bit _ rfl hm)
    | exact Or.inr rfl

theorem convCommitted_keeps {μ : Nat} {s0 : State} (lba b : Nat) (s : State)  (hk : Keeps μ s0 s) (hm : Within 0x80e0160 μ := by exact within_trans rfl (by assumption)) : Keeps μ s0 (convCommitted lba b s) := by
  unfold convCommitted
  try dsimp only
  repeat' first
    | (with_reducible apply keeps_foldl; intro s _ hk)
    | with_reducible assumption
    | exact within_trans rfl hm
    | with_reducible apply freeAll_keeps
    | with_reducible apply modCmd_keeps
    | with_reducible apply complete_keeps
    | with_reducible apply modZtb_keeps
    | with_reducible apply keeps_ite
    | split
    | (intro)
    | with_reducible apply keeps_mk
    | with_reducible apply And.intro
    | exact Or.inl (within_bit _ rfl hm)
    | exact Or.inr rfl

theorem convWritten_keeps {μ : Nat} {s0 : State} (lba b guard : Nat) (s : State)  (hk : Keeps μ s0 s) (hm : Within 0x80e0160 μ := by exact within_trans rfl (by assumption)) : Keeps μ s0 (convWritten lba b guard s) := by
  unfold convWritten
  try dsimp only
  repeat' first
    | with_reducible assumption
    | exact within_trans rfl hm
    | with_reducible apply modZtb_keeps
    | with_reducible apply convCommitted_keeps
    | with_reducible apply keeps_ite
    | split
    | (intro)
    | with_reducible apply keeps_mk
    | with_reducible apply And.intro
    | exact Or.inl (within_bit _ rfl hm)
    | exact Or.inr rfl

theorem convGivesUp_keeps {μ : Nat} {s0 : State} (b : Nat) (s : State)  (hk : Keeps μ s0 s) (hm : Within 0x80e0160 μ := by exact within_trans rfl (by assumption)) : Keeps μ s0 (convGivesUp b s) := by
  unfold convGivesUp
  try dsimp only
  repeat' first
    | (with_reducible apply keeps_foldl; intro s _ hk)
    | with_reducible assumption
    | exact within_trans rfl hm
    | with_reducible apply freeAll_keeps
    | with_reducible apply toFirmware_keeps
    | with_reducible apply modZtb_keeps
    | (intro)
    | with_reducible apply keeps_mk
    | with_reducible apply And.intro
    | exact Or.inl (within_bit _ rfl hm)
    | exact Or.inr rfl

theorem convFails_keeps {μ : Nat} {s0 : State} (lba b last : Nat) (s : State)  (hk : Keeps μ s0 s) (hm : Within 0x80e0160 μ := by exact within_trans rfl (by assumption)) : Keeps μ s0 (convFails lba b last s) := by
  unfold convFails
  try dsimp only
  repeat' first
    | with_reducible assumption
    | exact within_trans rfl hm
    | with_reducible apply evt_keeps
    | with_reducible apply modZtb_keeps
    | with_reducible apply convGivesUp_keeps
    | with_reducible apply keeps_ite
    | split
    | (intro)
    | with_reducible apply keeps_mk
    | with_reducible apply And.intro
    | exact Or.inl (within_bit _ rfl hm)
    | exact Or.inr rfl

theorem convVerified_keeps {μ : Nat} {s0 : State} (q x i : Nat) (s : State)  (hk : Keeps μ s0 s) (hm : Within 0x80e0160 μ := by exact within_trans rfl (by assumption)) : Keeps μ s0 (convVerified q x i s) := by
  unfold convVerified
  try dsimp only
  repeat' first
    | with_reducible assumption
    | exact within_trans rfl hm
    | with_reducible apply convCommitted_keeps
    | with_reducible apply convFails_keeps
    | with_reducible apply keeps_ite
    | split
    | (intro)
    | with_reducible apply keeps_mk
    | with_reducible apply And.intro
    | exact Or.inl (within_bit _ rfl hm)
    | exact Or.inr rfl

theorem copyRead_keeps {μ : Nat} {s0 : State} (nsid lba zone b : Nat) (good : Bool) (s : State)  (hk : Keeps μ s0 s) (hm : Within 0x248080160 μ := by exact within_trans rfl (by assumption)) : Keeps μ s0 (copyRead nsid lba zone b good s) := by
  unfold copyRead
  try dsimp only
  repeat' first
    | with_reducible assumption
    | exact within_trans rfl hm
    | with_reducible apply freeAll_keeps
    | with_reducible apply issueSector_keeps
    | with_reducible apply modRewrap_keeps
    | with_reducible apply rwReadFails_keeps
    | with_reducible apply modEntry_keeps
    | with_reducible apply streamReadFails_keeps
    | with_reducible apply keeps_ite
    | split
    | (intro)
    | with_reducible apply keeps_mk
    | with_reducible apply And.intro
    | exact Or.inl (within_bit _ rfl hm)
    | exact Or.inr rfl

theorem readDone_keeps {μ : Nat} {s0 : State} (nsid lba zone b r : Nat) (s : State)  (hk : Keeps μ s0 s) (hm : Within 0x2480c0160 μ := by exact within_trans rfl (by assumption)) : Keeps μ s0 (readDone nsid lba zone b r s) := by
  unfold readDone
  try dsimp only
  repeat' first
    | (with_reducible apply keeps_foldl; intro s _ hk)
    | with_reducible assumption
    | exact within_trans rfl hm
    | with_reducible apply sramPut64_keeps
    | with_reducible apply sramPut32_keeps
    | with_reducible apply modCmd_keeps
    | with_reducible apply readFails_keeps
    | with_reducible apply issueSector_keeps
    | with_reducible apply copyRead_keeps
    | with_reducible apply keeps_ite
    | split
    | (intro)
    | with_reducible apply keeps_mk
    | with_reducible apply And.intro
    | exact Or.inl (within_bit _ rfl hm)
    | exact Or.inr rfl

theorem readSector_keeps {μ : Nat} {s0 : State} (q x : Nat) (trailing : Bool) (i : Nat) (s : State)  (hk : Keeps μ s0 s) (hm : Within 0x2480c0160 μ := by exact within_trans rfl (by assumption)) : Keeps μ s0 (readSector q x trailing i s) := by
  unfold readSector
  try dsimp only
  repeat' first
    | with_reducible assumption
    | exact within_trans rfl hm
    | with_reducible apply readDone_keeps
    | with_reducible apply keeps_ite
    | split
    | with_reducible apply keeps_mk
    | with_reducible apply And.intro
    | exact Or.inl (within_bit _ rfl hm)
    | exact Or.inr rfl

theorem primaryDone_keeps {μ : Nat} {s0 : State} (q x i : Nat) (s : State)  (hk : Keeps μ s0 s) (hm : Within 0x2480e4560 μ := by exact within_trans rfl (by assumption)) : Keeps μ s0 (primaryDone q x i s) := by
  unfold primaryDone
  try dsimp only
  repeat' first
    | with_reducible assumption
    | exact within_trans rfl hm
    | with_reducible apply zoneWritten_keeps
    | with_reducible apply convWritten_keeps
    | with_reducible apply convVerified_keeps
    | with_reducible apply readSector_keeps
    | with_reducible apply keeps_ite
    | split
    | with_reducible apply keeps_mk
    | with_reducible apply And.intro
    | exact Or.inl (within_bit _ rfl hm)
    | exact Or.inr rfl

theorem trailingDone_keeps {μ : Nat} {s0 : State} (q x j : Nat) (s : State)  (hk : Keeps μ s0 s) (hm : Within 0x2480e4560 μ := by exact within_trans rfl (by assumption)) : Keeps μ s0 (trailingDone q x j s) := by
  unfold trailingDone
  try dsimp only
  repeat' first
    | with_reducible assumption
    | exact within_trans rfl hm
    | with_reducible apply trailDone_keeps
    | with_reducible apply readSector_keeps
    | with_reducible apply keeps_ite
    | split

theorem forRange_keeps {μ : Nat} {s0 : State} (f : Nat → State → State) (i k : Nat) (s : State)
    (hf : ∀ j t, Keeps μ s0 t → Keeps μ s0 (f j t)) (hk : Keeps μ s0 s) : Keeps μ s0 (forRange f i k s) := by
  induction k generalizing i s with
  | zero => exact hk
  | succ k ih => exact ih _ _ (hf i s hk)

theorem progress_keeps {μ : Nat} {s0 : State} (q x p0 p1 t0 t1 : Nat) (s : State) (hk : Keeps μ s0 s) 
    (hm : Within 0x2480e4560 μ := by exact within_trans rfl (by assumption)) :
    Keeps μ s0 (progress q x p0 p1 t0 t1 s) :=
  forRange_keeps _ _ _ _ (fun _ _ h => trailingDone_keeps _ _ _ _ h)
    (forRange_keeps _ _ _ _ (fun _ _ h => primaryDone_keeps _ _ _ _ h) hk)

theorem zoneRunEnds_keeps {μ : Nat} {s0 : State} (z status done : Nat) (s : State)  (hk : Keeps μ s0 s) (hm : Within 0x2080e0160 μ := by exact within_trans rfl (by assumption)) : Keeps μ s0 (zoneRunEnds z status done s) := by
  unfold zoneRunEnds
  try dsimp only
  repeat' first
    | with_reducible assumption
    | exact within_trans rfl hm
    | with_reducible apply evt_keeps
    | with_reducible apply modWork_keeps
    | with_reducible apply repairZone_keeps
    | with_reducible apply failWrite_keeps
    | with_reducible apply keeps_ite
    | split
    | (intro)
    | with_reducible apply keeps_mk
    | with_reducible apply And.intro
    | exact Or.inl (within_bit _ rfl hm)
    | exact Or.inr rfl

theorem convRunEnds_keeps {μ : Nat} {s0 : State} (lba b status done : Nat) (s : State)  (hk : Keeps μ s0 s) (hm : Within 0x80e0160 μ := by exact within_trans rfl (by assumption)) : Keeps μ s0 (convRunEnds lba b status done s) := by
  unfold convRunEnds
  try dsimp only
  repeat' first
    | with_reducible assumption
    | exact within_trans rfl hm
    | with_reducible apply evt_keeps
    | with_reducible apply modZtb_keeps
    | with_reducible apply convGivesUp_keeps
    | with_reducible apply keeps_ite
    | split
    | (intro)
    | with_reducible apply keeps_mk
    | with_reducible apply And.intro
    | exact Or.inl (within_bit _ rfl hm)
    | exact Or.inr rfl

theorem scanEnds_keeps {μ : Nat} {s0 : State} (k status : Nat) (s : State)  (hk : Keeps μ s0 s) (hm : Within 0x20020 μ := by exact within_trans rfl (by assumption)) : Keeps μ s0 (scanEnds k status s) := by
  unfold scanEnds
  try dsimp only
  repeat' first
    | with_reducible assumption
    | exact within_trans rfl hm
    | with_reducible apply setBit_keeps
    | with_reducible apply modZtb_keeps
    | with_reducible apply keeps_ite
    | split
    | (intro)
    | with_reducible apply keeps_mk
    | with_reducible apply And.intro
    | exact Or.inl (within_bit _ rfl hm)
    | exact Or.inr rfl

theorem operationEnds_keeps {μ : Nat} {s0 : State} (q x status done : Nat) (s : State)  (hk : Keeps μ s0 s) (hm : Within 0x2080e0160 μ := by exact within_trans rfl (by assumption)) : Keeps μ s0 (operationEnds q x status done s) := by
  unfold operationEnds
  try dsimp only
  repeat' first
    | with_reducible assumption
    | exact within_trans rfl hm
    | with_reducible apply wrapInc_keeps
    | with_reducible apply evt_keeps
    | with_reducible apply modWork_keeps
    | with_reducible apply zoneRunEnds_keeps
    | with_reducible apply convRunEnds_keeps
    | with_reducible apply scanEnds_keeps
    | with_reducible apply keeps_ite
    | split
    | (intro)
    | with_reducible apply keeps_mk
    | with_reducible apply And.intro
    | exact Or.inl (within_bit _ rfl hm)
    | exact Or.inr rfl

end Sys2Proof.Machine
end

