-- ==== Sys2Proof/Laws/KeepsRecorder.lean ====
section
/-! SUPPORT. The operations of Recorder.lean keep the queue and the canonical stores. -/

set_option Elab.async false

namespace Sys2Proof.Machine

theorem modEvr_keeps {μ : Nat} {s0 : State} (s : State) (f : EvrState → EvrState)  (hk : Keeps μ s0 s) (hm : Within 0x100 μ := by exact within_trans rfl (by assumption)) : Keeps μ s0 (modEvr s f) := by
  unfold modEvr
  try dsimp only
  repeat' first
    | with_reducible assumption
    | exact within_trans rfl hm
    | with_reducible apply keeps_mk
    | with_reducible apply And.intro
    | exact Or.inl (within_bit _ rfl hm)
    | exact Or.inr rfl

theorem ringPut_keeps {μ : Nat} {s0 : State} (i : Nat) (b : List Nat) (s : State)  (hk : Keeps μ s0 s) (hm : Within 0x40 μ := by exact within_trans rfl (by assumption)) : Keeps μ s0 (ringPut i b s) := by
  unfold ringPut
  try dsimp only
  repeat' first
    | with_reducible assumption
    | exact within_trans rfl hm
    | with_reducible apply sramPutBytes_keeps

theorem stage_keeps {μ : Nat} {s0 : State} (t : Trigger) (vals : List Nat) (s : State)  (hk : Keeps μ s0 s) (hm : Within 0x160 μ := by exact within_trans rfl (by assumption)) : Keeps μ s0 (stage t vals s) := by
  unfold stage
  try dsimp only
  repeat' first
    | with_reducible assumption
    | exact within_trans rfl hm
    | with_reducible apply wrN_keeps
    | with_reducible apply satInc_keeps
    | with_reducible apply modEvr_keeps
    | with_reducible apply ringPut_keeps
    | with_reducible apply keeps_ite
    | split
    | (intro)
    | with_reducible apply keeps_mk
    | with_reducible apply And.intro
    | exact Or.inl (within_bit _ rfl hm)
    | exact Or.inr rfl

theorem capture_keeps {μ : Nat} {s0 : State} (s : State)  (hk : Keeps μ s0 s) (hm : Within 0x160 μ := by exact within_trans rfl (by assumption)) : Keeps μ s0 (capture s) := by
  unfold capture
  try dsimp only
  repeat' first
    | with_reducible assumption
    | exact within_trans rfl hm
    | with_reducible apply satInc_keeps
    | with_reducible apply evt_keeps
    | with_reducible apply modEvr_keeps
    | with_reducible apply stage_keeps
    | with_reducible apply keeps_ite
    | split
    | (intro)
    | with_reducible apply keeps_mk
    | with_reducible apply And.intro
    | exact Or.inl (within_bit _ rfl hm)
    | exact Or.inr rfl

theorem programmed_keeps {μ : Nat} {s0 : State} (ch k : Nat) (s : State)  (hk : Keeps μ s0 s) (hm : Within 0x120 μ := by exact within_trans rfl (by assumption)) : Keeps μ s0 (programmed ch k s) := by
  unfold programmed
  try dsimp only
  repeat' first
    | with_reducible assumption
    | exact within_trans rfl hm
    | with_reducible apply trigger_keeps
    | with_reducible apply keeps_ite
    | split

theorem setPeriod_keeps {μ : Nat} {s0 : State} (ch : Nat) (c : Option Nat) (s : State)  (hk : Keeps μ s0 s) (hm : Within 0x100 μ := by exact within_trans rfl (by assumption)) : Keeps μ s0 (setPeriod ch c s) := by
  unfold setPeriod
  try dsimp only
  repeat' first
    | with_reducible assumption
    | exact within_trans rfl hm
    | with_reducible apply modEvr_keeps
    | (intro)
    | with_reducible apply keeps_mk
    | with_reducible apply And.intro
    | exact Or.inl (within_bit _ rfl hm)
    | exact Or.inr rfl

theorem periodic_keeps {μ : Nat} {s0 : State} (ch : Nat) (s : State)  (hk : Keeps μ s0 s) (hm : Within 0x120 μ := by exact within_trans rfl (by assumption)) : Keeps μ s0 (periodic ch s) := by
  unfold periodic
  try dsimp only
  repeat' first
    | with_reducible assumption
    | exact within_trans rfl hm
    | with_reducible apply programmed_keeps
    | with_reducible apply setPeriod_keeps
    | with_reducible apply keeps_ite
    | split
    | with_reducible apply keeps_mk
    | with_reducible apply And.intro
    | exact Or.inl (within_bit _ rfl hm)
    | exact Or.inr rfl

theorem notePeriod_keeps {μ : Nat} {s0 : State} (ch old v : Nat) (s : State)  (hk : Keeps μ s0 s) (hm : Within 0x100 μ := by exact within_trans rfl (by assumption)) : Keeps μ s0 (notePeriod ch old v s) := by
  unfold notePeriod
  try dsimp only
  repeat' first
    | with_reducible assumption
    | exact within_trans rfl hm
    | with_reducible apply setPeriod_keeps
    | with_reducible apply keeps_ite
    | split

theorem channelWrite_keeps {μ : Nat} {s0 : State} (ch w v : Nat) (s : State)  (hk : Keeps μ s0 s) (hm : Within 0x120 μ := by exact within_trans rfl (by assumption)) : Keeps μ s0 (channelWrite ch w v s) := by
  unfold channelWrite
  try dsimp only
  repeat' first
    | with_reducible assumption
    | exact within_trans rfl hm
    | with_reducible apply plainWrite_keeps
    | with_reducible apply trigger_keeps
    | with_reducible apply notePeriod_keeps
    | with_reducible apply keeps_ite
    | split

theorem programData_keeps {μ : Nat} {s0 : State} (i p : Nat) (ok : Bool) (s : State)  (hk : Keeps μ s0 s) (hm : Within 0x1a1 μ := by exact within_trans rfl (by assumption)) : Keeps μ s0 (programData i p ok s) := by
  unfold programData
  try dsimp only
  repeat' first
    | with_reducible assumption
    | exact within_trans rfl hm
    | with_reducible apply nandProg_keeps
    | with_reducible apply evt_keeps
    | with_reducible apply keeps_ite
    | split
    | with_reducible apply keeps_mk
    | with_reducible apply And.intro
    | exact Or.inl (within_bit _ rfl hm)
    | exact Or.inr rfl

theorem commitData_keeps {μ : Nat} {s0 : State} (failed : List Nat) (base : Nat) (x0 : Nat) (x1 : Nat) (x2 : Nat) (x3 : Nat) (x4 : List (Nat × Nat)) (s : State) (hk : Keeps μ s0 s) (hm : Within 0x1a1 μ := by exact within_trans rfl (by assumption)) : Keeps μ s0 (commitData failed base x0 x1 x2 x3 x4 s).2.2 := by
  induction x0 generalizing x1 x2 x3 x4 s failed base with
  | zero =>
    unfold commitData
    try dsimp only
    repeat' first
      | with_reducible assumption
      | exact within_trans rfl hm
      | with_reducible apply ih
      | with_reducible apply programData_keeps
      | with_reducible apply keeps_ite
      | split
  | succ k ih =>
    unfold commitData
    try dsimp only
    repeat' first
      | with_reducible assumption
      | exact within_trans rfl hm
      | with_reducible apply ih
      | with_reducible apply programData_keeps
      | with_reducible apply keeps_ite
      | split

theorem startCommit_keeps {μ : Nat} {s0 : State} (failed : List Nat) (s : State) (hk : Keeps μ s0 s) 
    (hm : Within 0x1a1 μ := by exact within_trans rfl (by assumption)) :
    Keeps μ s0 (startCommit failed s) := by
  unfold startCommit
  dsimp only
  have h := commitData_keeps failed (getF s Reg.EVR_LOGPOS 0 21) 1024 0 (min 255 s.evr.stgCount)
    (getF s Reg.EVR_LOGPOS 0 21) [] s hk
  generalize commitData failed (getF s Reg.EVR_LOGPOS 0 21) 1024 0 (min 255 s.evr.stgCount)
    (getF s Reg.EVR_LOGPOS 0 21) [] s = r at h ⊢
  exact modEvr_keeps _ _ (setBit_keeps _ _ _ _ h)

theorem commitValid_keeps {μ : Nat} {s0 : State} (failed : List Nat) (fuel k : Nat) (l : List (Nat × Nat)) (p : Nat)
    (s : State) (hk : Keeps μ s0 s) 
    (hm : Within 0x1a1 μ := by exact within_trans rfl (by assumption)) : Keeps μ s0 (commitValid failed fuel k l p s).2 := by
  induction fuel generalizing k l p s with
  | zero => exact hk
  | succ f ih =>
    cases l with
    | nil => exact hk
    | cons x l =>
      obtain ⟨q, i⟩ := x
      simp only [commitValid]
      split
      · split
        · exact ih _ _ _ _ (evt_keeps _ _ _ hk)
        · exact ih _ _ _ _ (programData_keeps _ _ _ _ (evt_keeps _ _ _ hk))
      · exact ih _ _ _ _ (nandProg_keeps _ _ _ hk)

theorem logFull_keeps {μ : Nat} {s0 : State} (s : State)  (hk : Keeps μ s0 s) (hm : Within 0x120 μ := by exact within_trans rfl (by assumption)) : Keeps μ s0 (logFull s) := by
  unfold logFull
  try dsimp only
  repeat' first
    | with_reducible assumption
    | exact within_trans rfl hm
    | with_reducible apply setBit_keeps
    | with_reducible apply satAdd_keeps
    | with_reducible apply evt_keeps
    | with_reducible apply modEvr_keeps
    | with_reducible apply keeps_ite
    | split
    | (intro)
    | with_reducible apply keeps_mk
    | with_reducible apply And.intro
    | exact Or.inl (within_bit _ rfl hm)
    | exact Or.inr rfl

theorem endCommit_keeps {μ : Nat} {s0 : State} (failed : List Nat) (s : State)  (hk : Keeps μ s0 s) (hm : Within 0x1a1 μ := by exact within_trans rfl (by assumption)) : Keeps μ s0 (endCommit failed s) := by
  unfold endCommit
  try dsimp only
  repeat' first
    | with_reducible assumption
    | exact within_trans rfl hm
    | with_reducible apply setBit_keeps
    | with_reducible apply wrN_keeps
    | with_reducible apply modEvr_keeps
    | with_reducible apply commitValid_keeps
    | with_reducible apply logFull_keeps
    | split
    | refine keeps_snd (by with_reducible assumption) ?_
    | (intro)
    | with_reducible apply keeps_mk
    | with_reducible apply And.intro
    | exact Or.inl (within_bit _ rfl hm)
    | exact Or.inr rfl

theorem commitAll_keeps {μ : Nat} {s0 : State}  (x0 : Nat) (s : State) (hk : Keeps μ s0 s) (hm : Within 0x1a1 μ := by exact within_trans rfl (by assumption)) : Keeps μ s0 (commitAll x0 s) := by
  induction x0 generalizing s with
  | zero =>
    unfold commitAll
    try dsimp only
    repeat' first
      | with_reducible assumption
      | exact within_trans rfl hm
      | with_reducible apply ih
      | with_reducible apply startCommit_keeps
      | with_reducible apply endCommit_keeps
      | with_reducible apply keeps_ite
      | split
  | succ k ih =>
    unfold commitAll
    try dsimp only
    repeat' first
      | with_reducible assumption
      | exact within_trans rfl hm
      | with_reducible apply ih
      | with_reducible apply startCommit_keeps
      | with_reducible apply endCommit_keeps
      | with_reducible apply keeps_ite
      | split

theorem flushRecords_keeps {μ : Nat} {s0 : State} (s : State)  (hk : Keeps μ s0 s) (hm : Within 0x1e1 μ := by exact within_trans rfl (by assumption)) : Keeps μ s0 (flushRecords s) := by
  unfold flushRecords
  try dsimp only
  repeat' first
    | (with_reducible apply keeps_foldl; intro s _ hk)
    | with_reducible assumption
    | exact within_trans rfl hm
    | with_reducible apply capture_keeps
    | with_reducible apply commitAll_keeps
    | (intro)

theorem renumber_keeps {μ : Nat} {s0 : State}  (x0 : Nat) (x1 : Nat) (x2 : Nat) (s : State) (hk : Keeps μ s0 s) (hm : Within 0x40 μ := by exact within_trans rfl (by assumption)) : Keeps μ s0 (renumber x0 x1 x2 s) := by
  induction x0 generalizing x1 x2 s with
  | zero =>
    unfold renumber
    try dsimp only
    repeat' first
      | with_reducible assumption
      | exact within_trans rfl hm
      | with_reducible apply ih
      | with_reducible apply ringPut_keeps
      | split
  | succ k ih =>
    unfold renumber
    try dsimp only
    repeat' first
      | with_reducible assumption
      | exact within_trans rfl hm
      | with_reducible apply ih
      | with_reducible apply ringPut_keeps
      | split

theorem logScan_keeps {μ : Nat} {s0 : State} (s : State)  (hk : Keeps μ s0 s) (hm : Within 0x160 μ := by exact within_trans rfl (by assumption)) : Keeps μ s0 (logScan s) := by
  unfold logScan
  try dsimp only
  repeat' first
    | with_reducible assumption
    | exact within_trans rfl hm
    | with_reducible apply setBit_keeps
    | with_reducible apply wrN_keeps
    | with_reducible apply satAdd_keeps
    | with_reducible apply evtIf_keeps
    | with_reducible apply modEvr_keeps
    | with_reducible apply logFull_keeps
    | with_reducible apply renumber_keeps
    | with_reducible apply keeps_ite
    | split
    | (intro)
    | with_reducible apply keeps_mk
    | with_reducible apply And.intro
    | exact Or.inl (within_bit _ rfl hm)
    | exact Or.inr rfl

theorem writeClearRecord_keeps {μ : Nat} {s0 : State} (n : Nat) (s : State)  (hk : Keeps μ s0 s) (hm : Within 0x80 μ := by exact within_trans rfl (by assumption)) : Keeps μ s0 (writeClearRecord n s) := by
  unfold writeClearRecord
  try dsimp only
  repeat' first
    | with_reducible assumption
    | exact within_trans rfl hm
    | with_reducible apply nandWrite_keeps
    | with_reducible apply keeps_ite
    | split

theorem logClear_keeps {μ : Nat} {s0 : State} (token : List Nat) (s : State)  (hk : Keeps μ s0 s) (hm : Within 0x1a1 μ := by exact within_trans rfl (by assumption)) : Keeps μ s0 (logClear token s) := by
  unfold logClear
  try dsimp only
  repeat' first
    | with_reducible assumption
    | exact within_trans rfl hm
    | with_reducible apply setBit_keeps
    | with_reducible apply wrN_keeps
    | with_reducible apply modEvr_keeps
    | with_reducible apply endCommit_keeps
    | with_reducible apply commitAll_keeps
    | with_reducible apply writeClearRecord_keeps
    | with_reducible apply keeps_ite
    | split
    | (intro)
    | with_reducible apply keeps_mk
    | with_reducible apply And.intro
    | exact Or.inl (within_bit _ rfl hm)
    | exact Or.inr rfl

theorem clearDone_keeps {μ : Nat} {s0 : State} (s : State)  (hk : Keeps μ s0 s) (hm : Within 0x1a0 μ := by exact within_trans rfl (by assumption)) : Keeps μ s0 (clearDone s) := by
  unfold clearDone
  try dsimp only
  repeat' first
    | with_reducible assumption
    | exact within_trans rfl hm
    | with_reducible apply setBit_keeps
    | with_reducible apply wrN_keeps
    | with_reducible apply satInc_keeps
    | with_reducible apply nandProg_keeps
    | with_reducible apply nandErase_keeps
    | with_reducible apply evt_keeps
    | with_reducible apply modEvr_keeps
    | split
    | (intro)
    | with_reducible apply keeps_mk
    | with_reducible apply And.intro
    | exact Or.inl (within_bit _ rfl hm)
    | exact Or.inr rfl

theorem setMir_keeps {μ : Nat} {s0 : State} (a n : Nat) (stop : Bool) (s : State)  (hk : Keeps μ s0 s) (hm : Within 0x100 μ := by exact within_trans rfl (by assumption)) : Keeps μ s0 (setMir a n stop s) := by
  unfold setMir
  try dsimp only
  repeat' first
    | with_reducible assumption
    | exact within_trans rfl hm
    | with_reducible apply modEvr_keeps
    | with_reducible apply keeps_ite
    | split
    | (intro)
    | with_reducible apply keeps_mk
    | with_reducible apply And.intro
    | exact Or.inl (within_bit _ rfl hm)
    | exact Or.inr rfl

theorem requestP_keeps {μ : Nat} {s0 : State} (q x : Nat) (s : State)  (hk : Keeps μ s0 s) (hm : Within 0x4000 μ := by exact within_trans rfl (by assumption)) : Keeps μ s0 (requestP q x s) := by
  unfold requestP
  try dsimp only
  repeat' first
    | with_reducible assumption
    | exact within_trans rfl hm
    | with_reducible apply modCtx_keeps
    | with_reducible apply keeps_ite
    | split
    | exact fun _ h => h
    | exact fun _ h => by simpa [Tsq.sized, Ctx.sized, Srv.sized, NetState.sized, AngState.sized, modAt_length, modAt_all] using h
    | (intro)
    | with_reducible apply keeps_mk
    | with_reducible apply And.intro
    | exact Or.inl (within_bit _ rfl hm)
    | exact Or.inr rfl
    | assumption

theorem preemptScans_keeps {μ : Nat} {s0 : State} (s : State)  (hk : Keeps μ s0 s) (hm : Within 0x4000 μ := by exact within_trans rfl (by assumption)) : Keeps μ s0 (preemptScans s) := by
  unfold preemptScans
  try dsimp only
  repeat' first
    | (with_reducible apply keeps_foldl; intro s _ hk)
    | with_reducible assumption
    | exact within_trans rfl hm
    | with_reducible apply requestP_keeps
    | with_reducible apply keeps_ite
    | split
    | (intro)

theorem mirrorWrite_keeps {μ : Nat} {s0 : State} (a : Nat) (ok : Bool) (s : State)  (hk : Keeps μ s0 s) (hm : Within 0x4120 μ := by exact within_trans rfl (by assumption)) : Keeps μ s0 (mirrorWrite a ok s) := by
  unfold mirrorWrite
  try dsimp only
  repeat' first
    | with_reducible assumption
    | exact within_trans rfl hm
    | with_reducible apply wrN_keeps
    | with_reducible apply satInc_keeps
    | with_reducible apply evt_keeps
    | with_reducible apply modEvr_keeps
    | with_reducible apply setMir_keeps
    | with_reducible apply preemptScans_keeps
    | with_reducible apply keeps_ite
    | split
    | (intro)
    | with_reducible apply keeps_mk
    | with_reducible apply And.intro
    | exact Or.inl (within_bit _ rfl hm)
    | exact Or.inr rfl

theorem gaugeSamples_keeps {μ : Nat} {s0 : State} (s : State)  (hk : Keeps μ s0 s) (hm : Within 0x100 μ := by exact within_trans rfl (by assumption)) : Keeps μ s0 (gaugeSamples s) := by
  unfold gaugeSamples
  try dsimp only
  repeat' first
    | (with_reducible apply keeps_foldl; intro s _ hk)
    | with_reducible assumption
    | exact within_trans rfl hm
    | with_reducible apply gauge_keeps
    | with_reducible apply keeps_ite
    | split
    | (intro)

theorem gaugePublish_keeps {μ : Nat} {s0 : State} (s : State)  (hk : Keeps μ s0 s) (hm : Within 0x160 μ := by exact within_trans rfl (by assumption)) : Keeps μ s0 (gaugePublish s) := by
  unfold gaugePublish
  try dsimp only
  repeat' first
    | (with_reducible apply keeps_foldl; intro s _ hk)
    | with_reducible assumption
    | exact within_trans rfl hm
    | with_reducible apply wrapInc_keeps
    | with_reducible apply sramPutBytes_keeps
    | with_reducible apply modEvr_keeps
    | with_reducible apply gaugeSamples_keeps
    | with_reducible apply keeps_ite
    | split
    | (intro)
    | with_reducible apply keeps_mk
    | with_reducible apply And.intro
    | exact Or.inl (within_bit _ rfl hm)
    | exact Or.inr rfl

theorem gaugeClear_keeps {μ : Nat} {s0 : State} (mask : Nat) (s : State)  (hk : Keeps μ s0 s) (hm : Within 0x120 μ := by exact within_trans rfl (by assumption)) : Keeps μ s0 (gaugeClear mask s) := by
  unfold gaugeClear
  try dsimp only
  repeat' first
    | with_reducible assumption
    | exact within_trans rfl hm
    | with_reducible apply trigger_keeps
    | with_reducible apply modEvr_keeps
    | with_reducible apply keeps_ite
    | split
    | (intro)
    | with_reducible apply keeps_mk
    | with_reducible apply And.intro
    | exact Or.inl (within_bit _ rfl hm)
    | exact Or.inr rfl

end Sys2Proof.Machine
end

