-- ==== Sys2Proof/Laws/KeepsModes.lean ====
section
/-! SUPPORT. The operations of Modes.lean keep the queue and the canonical stores. -/

set_option Elab.async false

namespace Sys2Proof.Machine

theorem modSys_keeps {μ : Nat} {s0 : State} (s : State) (f : SysState → SysState)  (hk : Keeps μ s0 s) (hm : Within 0x2000000 μ := by exact within_trans rfl (by assumption)) : Keeps μ s0 (modSys s f) := by
  unfold modSys
  try dsimp only
  repeat' first
    | with_reducible assumption
    | exact within_trans rfl hm
    | with_reducible apply keeps_mk
    | with_reducible apply And.intro
    | exact Or.inl (within_bit _ rfl hm)
    | exact Or.inr rfl

theorem preemptCmd_keeps {μ : Nat} {s0 : State} (c : HostCmd) (s : State)  (hk : Keeps μ s0 s) (hm : Within 0x4000 μ := by exact within_trans rfl (by assumption)) : Keeps μ s0 (preemptCmd c s) := by
  unfold preemptCmd
  try dsimp only
  repeat' first
    | (with_reducible apply keeps_foldl; intro s _ hk)
    | with_reducible assumption
    | exact within_trans rfl hm
    | with_reducible apply requestP_keeps
    | with_reducible apply keeps_ite
    | split
    | (intro)

theorem dropConv_keeps {μ : Nat} {s0 : State} (c : HostCmd) (s : State)  (hk : Keeps μ s0 s) (hm : Within 0x80a0160 μ := by exact within_trans rfl (by assumption)) : Keeps μ s0 (dropConv c s) := by
  unfold dropConv
  try dsimp only
  repeat' first
    | with_reducible assumption
    | exact within_trans rfl hm
    | with_reducible apply freeAll_keeps
    | with_reducible apply modZtb_keeps
    | (intro)
    | with_reducible apply keeps_mk
    | with_reducible apply And.intro
    | exact Or.inl (within_bit _ rfl hm)
    | exact Or.inr rfl

theorem abandon_keeps {μ : Nat} {s0 : State} (c : HostCmd) (s : State)  (hk : Keeps μ s0 s) (hm : Within 0x80e0160 μ := by exact within_trans rfl (by assumption)) : Keeps μ s0 (abandon c s) := by
  unfold abandon
  try dsimp only
  repeat' first
    | with_reducible assumption
    | exact within_trans rfl hm
    | with_reducible apply freeAll_keeps
    | with_reducible apply requestRepair_keeps
    | with_reducible apply dropConv_keeps
    | with_reducible apply keeps_ite
    | split

theorem discardCmd_keeps {μ : Nat} {s0 : State} (c : HostCmd) (s : State)  (hk : Keeps μ s0 s) (hm : Within 0x80e4160 μ := by exact within_trans rfl (by assumption)) : Keeps μ s0 (discardCmd c s) := by
  unfold discardCmd
  try dsimp only
  repeat' first
    | with_reducible assumption
    | exact within_trans rfl hm
    | with_reducible apply discard_keeps
    | with_reducible apply preemptCmd_keeps
    | with_reducible apply abandon_keeps

theorem controllerReset_keeps {μ : Nat} {s0 : State} (a : Nat) (s : State)  (hk : Keeps μ s0 s) (hm : Within 0x80e4160 μ := by exact within_trans rfl (by assumption)) : Keeps μ s0 (controllerReset a s) := by
  unfold controllerReset
  try dsimp only
  repeat' first
    | (with_reducible apply keeps_foldl; intro s _ hk)
    | with_reducible assumption
    | exact within_trans rfl hm
    | with_reducible apply wrN_keeps
    | with_reducible apply evt_keeps
    | with_reducible apply modAssoc_keeps
    | with_reducible apply discardCmd_keeps
    | split
    | (intro)
    | with_reducible apply keeps_mk
    | with_reducible apply And.intro
    | exact Or.inl (within_bit _ rfl hm)
    | exact Or.inr rfl

theorem closeAssoc_keeps {μ : Nat} {s0 : State} (a : Nat) (s : State)  (hk : Keeps μ s0 s) (hm : Within 0x80e4160 μ := by exact within_trans rfl (by assumption)) : Keeps μ s0 (closeAssoc a s) := by
  unfold closeAssoc
  try dsimp only
  repeat' first
    | with_reducible assumption
    | exact within_trans rfl hm
    | with_reducible apply wrN_keeps
    | with_reducible apply modNqe_keeps
    | with_reducible apply controllerReset_keeps
    | with_reducible apply keeps_ite
    | split
    | (intro)
    | with_reducible apply keeps_mk
    | with_reducible apply And.intro
    | exact Or.inl (within_bit _ rfl hm)
    | exact Or.inr rfl

theorem closeAll_keeps {μ : Nat} {s0 : State} (s : State)  (hk : Keeps μ s0 s) (hm : Within 0x80e4160 μ := by exact within_trans rfl (by assumption)) : Keeps μ s0 (closeAll s) := by
  unfold closeAll
  try dsimp only
  repeat' first
    | (with_reducible apply keeps_foldl; intro s _ hk)
    | with_reducible assumption
    | exact within_trans rfl hm
    | with_reducible apply closeAssoc_keeps
    | (intro)

theorem driveOff_keeps {μ : Nat} {s0 : State} (a : Nat) (s : State)  (hk : Keeps μ s0 s) (hm : Within 0xa000121 μ := by exact within_trans rfl (by assumption)) : Keeps μ s0 (driveOff a s) := by
  unfold driveOff
  try dsimp only
  repeat' first
    | with_reducible assumption
    | exact within_trans rfl hm
    | with_reducible apply setLoaded_keeps
    | with_reducible apply tstSweep_keeps
    | with_reducible apply keeps_ite
    | split
    | with_reducible apply keeps_mk
    | with_reducible apply And.intro
    | exact Or.inl (within_bit _ rfl hm)
    | exact Or.inr rfl

theorem park_keeps {μ : Nat} {s0 : State} (a : Nat) (s : State)  (hk : Keeps μ s0 s) (hm : Within 0x2104520 μ := by exact within_trans rfl (by assumption)) : Keeps μ s0 (park a s) := by
  unfold park
  try dsimp only
  repeat' first
    | with_reducible assumption
    | exact within_trans rfl hm
    | with_reducible apply setF_keeps
    | with_reducible apply setLoaded_keeps
    | with_reducible apply modSrv_keeps
    | with_reducible apply clearReady_keeps
    | exact fun _ h => h
    | exact fun _ h => by simpa [Tsq.sized, Ctx.sized, Srv.sized, NetState.sized, AngState.sized, modAt_length, modAt_all] using h
    | (intro)
    | with_reducible apply keeps_mk
    | with_reducible apply And.intro
    | exact Or.inl (within_bit _ rfl hm)
    | exact Or.inr rfl
    | assumption

theorem unloadAll_keeps {μ : Nat} {s0 : State} (s : State)  (hk : Keeps μ s0 s) (hm : Within 0x2104520 μ := by exact within_trans rfl (by assumption)) : Keeps μ s0 (unloadAll s) := by
  unfold unloadAll
  try dsimp only
  repeat' first
    | with_reducible assumption
    | exact within_trans rfl hm
    | with_reducible apply park_keeps

theorem setRes_keeps {μ : Nat} {s0 : State} (r : Nat) (s : State)  (hk : Keeps μ s0 s) (hm : Within 0x20 μ := by exact within_trans rfl (by assumption)) : Keeps μ s0 (setRes r s) := by
  unfold setRes
  try dsimp only
  repeat' first
    | with_reducible assumption
    | exact within_trans rfl hm
    | with_reducible apply setF_keeps

theorem setTrans_keeps {μ : Nat} {s0 : State} (b : Bool) (s : State)  (hk : Keeps μ s0 s) (hm : Within 0x20 μ := by exact within_trans rfl (by assumption)) : Keeps μ s0 (setTrans b s) := by
  unfold setTrans
  try dsimp only
  repeat' first
    | with_reducible assumption
    | exact within_trans rfl hm
    | with_reducible apply setBit_keeps

theorem dropEntry_keeps {μ : Nat} {s0 : State} (s : State)  (hk : Keeps μ s0 s) (hm : Within 0x40020 μ := by exact within_trans rfl (by assumption)) : Keeps μ s0 (dropEntry s) := by
  unfold dropEntry
  try dsimp only
  repeat' first
    | with_reducible assumption
    | exact within_trans rfl hm
    | with_reducible apply setBit_keeps
    | with_reducible apply modNqe_keeps
    | with_reducible apply keeps_ite
    | split
    | (intro)
    | with_reducible apply keeps_mk
    | with_reducible apply And.intro
    | exact Or.inl (within_bit _ rfl hm)
    | exact Or.inr rfl

theorem endRequest_keeps {μ : Nat} {s0 : State} (r : Nat) (s : State)  (hk : Keeps μ s0 s) (hm : Within 0x2040120 μ := by exact within_trans rfl (by assumption)) : Keeps μ s0 (endRequest r s) := by
  unfold endRequest
  try dsimp only
  repeat' first
    | with_reducible assumption
    | exact within_trans rfl hm
    | with_reducible apply evt_keeps
    | with_reducible apply modSys_keeps
    | with_reducible apply setRes_keeps
    | with_reducible apply setTrans_keeps
    | with_reducible apply dropEntry_keeps
    | with_reducible apply keeps_ite
    | split
    | (intro)
    | with_reducible apply keeps_mk
    | with_reducible apply And.intro
    | exact Or.inl (within_bit _ rfl hm)
    | exact Or.inr rfl

theorem enterTest_keeps {μ : Nat} {s0 : State} (s : State)  (hk : Keeps μ s0 s) (hm : Within 0x209044521 μ := by exact within_trans rfl (by assumption)) : Keeps μ s0 (enterTest s) := by
  unfold enterTest
  try dsimp only
  repeat' first
    | with_reducible assumption
    | exact within_trans rfl hm
    | with_reducible apply setF_keeps
    | with_reducible apply enterMode_keeps

theorem startStep_keeps {μ : Nat} {s0 : State} (m : Nat) (s : State)  (hk : Keeps μ s0 s) (hm : Within 0xa444521 μ := by exact within_trans rfl (by assumption)) : Keeps μ s0 (startStep m s) := by
  unfold startStep
  try dsimp only
  repeat' first
    | with_reducible assumption
    | exact within_trans rfl hm
    | with_reducible apply setF_keeps
    | with_reducible apply spinDown_keeps
    | with_reducible apply runCommand_keeps
    | with_reducible apply updateAttgt_keeps
    | with_reducible apply modSys_keeps
    | with_reducible apply driveOff_keeps
    | with_reducible apply setTrans_keeps
    | with_reducible apply endRequest_keeps
    | with_reducible apply keeps_ite
    | split
    | refine keeps_snd (by with_reducible assumption) ?_
    | (intro)
    | with_reducible apply keeps_mk
    | with_reducible apply And.intro
    | exact Or.inl (within_bit _ rfl hm)
    | exact Or.inr rfl

theorem goOn_keeps {μ : Nat} {s0 : State} (s : State)  (hk : Keeps μ s0 s) (hm : Within 0x20b444521 μ := by exact within_trans rfl (by assumption)) : Keeps μ s0 (goOn s) := by
  unfold goOn
  try dsimp only
  repeat' first
    | with_reducible assumption
    | exact within_trans rfl hm
    | with_reducible apply endRequest_keeps
    | with_reducible apply enterTest_keeps
    | with_reducible apply startStep_keeps
    | with_reducible apply keeps_ite
    | split
    | with_reducible apply keeps_mk
    | with_reducible apply And.intro
    | exact Or.inl (within_bit _ rfl hm)
    | exact Or.inr rfl

theorem takeRequest_keeps {μ : Nat} {s0 : State} (t : Nat) (s : State)  (hk : Keeps μ s0 s) (hm : Within 0x20b444521 μ := by exact within_trans rfl (by assumption)) : Keeps μ s0 (takeRequest t s) := by
  unfold takeRequest
  try dsimp only
  repeat' first
    | with_reducible assumption
    | exact within_trans rfl hm
    | with_reducible apply enterMode_keeps
    | with_reducible apply modSys_keeps
    | with_reducible apply setRes_keeps
    | with_reducible apply endRequest_keeps
    | with_reducible apply goOn_keeps
    | with_reducible apply keeps_ite
    | split
    | (intro)
    | with_reducible apply keeps_mk
    | with_reducible apply And.intro
    | exact Or.inl (within_bit _ rfl hm)
    | exact Or.inr rfl

theorem requestMode_keeps {μ : Nat} {s0 : State} (t : Nat) (s : State)  (hk : Keeps μ s0 s) (hm : Within 0x20b444521 μ := by exact within_trans rfl (by assumption)) : Keeps μ s0 (requestMode t s) := by
  unfold requestMode
  try dsimp only
  repeat' first
    | with_reducible assumption
    | exact within_trans rfl hm
    | with_reducible apply setF_keeps
    | with_reducible apply modSys_keeps
    | with_reducible apply takeRequest_keeps
    | with_reducible apply keeps_ite
    | split
    | (intro)
    | with_reducible apply keeps_mk
    | with_reducible apply And.intro
    | exact Or.inl (within_bit _ rfl hm)
    | exact Or.inr rfl

theorem mreqWrite_keeps {μ : Nat} {s0 : State} (t : Nat) (s : State)  (hk : Keeps μ s0 s) (hm : Within 0x30b444521 μ := by exact within_trans rfl (by assumption)) : Keeps μ s0 (mreqWrite t s) := by
  unfold mreqWrite
  try dsimp only
  repeat' first
    | with_reducible assumption
    | exact within_trans rfl hm
    | with_reducible apply requestMode_keeps
    | with_reducible apply keeps_ite
    | split
    | with_reducible apply keeps_mk
    | with_reducible apply And.intro
    | exact Or.inl (within_bit _ rfl hm)
    | exact Or.inr rfl

theorem afterStep_keeps {μ : Nat} {s0 : State} (s : State)  (hk : Keeps μ s0 s) (hm : Within 0x20b444521 μ := by exact within_trans rfl (by assumption)) : Keeps μ s0 (afterStep s) := by
  unfold afterStep
  try dsimp only
  repeat' first
    | with_reducible assumption
    | exact within_trans rfl hm
    | with_reducible apply modSys_keeps
    | with_reducible apply setTrans_keeps
    | with_reducible apply goOn_keeps
    | with_reducible apply takeRequest_keeps
    | split
    | (intro)
    | with_reducible apply keeps_mk
    | with_reducible apply And.intro
    | exact Or.inl (within_bit _ rfl hm)
    | exact Or.inr rfl

theorem entryGoesOn_keeps {μ : Nat} {s0 : State} (s : State)  (hk : Keeps μ s0 s) (hm : Within 0x20b444521 μ := by exact within_trans rfl (by assumption)) : Keeps μ s0 (entryGoesOn s) := by
  unfold entryGoesOn
  try dsimp only
  repeat' first
    | with_reducible assumption
    | exact within_trans rfl hm
    | with_reducible apply ladder_keeps
    | with_reducible apply showPower_keeps
    | with_reducible apply dropEntry_keeps
    | with_reducible apply requestMode_keeps
    | with_reducible apply keeps_ite
    | split
    | with_reducible apply keeps_mk
    | with_reducible apply And.intro
    | exact Or.inl (within_bit _ rfl hm)
    | exact Or.inr rfl

theorem wakeForMedia_keeps {μ : Nat} {s0 : State} (s : State)  (hk : Keeps μ s0 s) (hm : Within 0x20b444521 μ := by exact within_trans rfl (by assumption)) : Keeps μ s0 (wakeForMedia s) := by
  unfold wakeForMedia
  try dsimp only
  repeat' first
    | with_reducible assumption
    | exact within_trans rfl hm
    | with_reducible apply setBit_keeps
    | with_reducible apply requestMode_keeps
    | with_reducible apply keeps_ite
    | split

theorem stepFailed_keeps {μ : Nat} {s0 : State} (s : State)  (hk : Keeps μ s0 s) (hm : Within 0x20b444521 μ := by exact within_trans rfl (by assumption)) : Keeps μ s0 (stepFailed s) := by
  unfold stepFailed
  try dsimp only
  repeat' first
    | with_reducible assumption
    | exact within_trans rfl hm
    | with_reducible apply modSys_keeps
    | with_reducible apply endRequest_keeps
    | with_reducible apply afterStep_keeps
    | split
    | (intro)
    | with_reducible apply keeps_mk
    | with_reducible apply And.intro
    | exact Or.inl (within_bit _ rfl hm)
    | exact Or.inr rfl

theorem transitionStepDone_keeps {μ : Nat} {s0 : State} (ok : Bool) (s : State)  (hk : Keeps μ s0 s) (hm : Within 0x20b544521 μ := by exact within_trans rfl (by assumption)) : Keeps μ s0 (transitionStepDone ok s) := by
  unfold transitionStepDone
  try dsimp only
  repeat' first
    | with_reducible assumption
    | exact within_trans rfl hm
    | with_reducible apply enterMode_keeps
    | with_reducible apply unloadAll_keeps
    | with_reducible apply afterStep_keeps
    | with_reducible apply wakeForMedia_keeps
    | with_reducible apply stepFailed_keeps
    | with_reducible apply keeps_ite
    | split
    | with_reducible apply keeps_mk
    | with_reducible apply And.intro
    | exact Or.inl (within_bit _ rfl hm)
    | exact Or.inr rfl

theorem enterUpdate_keeps {μ : Nat} {s0 : State} (k : Nat) (s : State)  (hk : Keeps μ s0 s) (hm : Within 0x20b844561 μ := by exact within_trans rfl (by assumption)) : Keeps μ s0 (enterUpdate k s) := by
  unfold enterUpdate
  try dsimp only
  repeat' first
    | with_reducible assumption
    | exact within_trans rfl hm
    | with_reducible apply setF_keeps
    | with_reducible apply enterMode_keeps
    | with_reducible apply loadFirmware_keeps

theorem drainCheck_keeps {μ : Nat} {s0 : State} (s : State)  (hk : Keeps μ s0 s) (hm : Within 0x20b844561 μ := by exact within_trans rfl (by assumption)) : Keeps μ s0 (drainCheck s) := by
  unfold drainCheck
  try dsimp only
  repeat' first
    | with_reducible assumption
    | exact within_trans rfl hm
    | with_reducible apply setBit_keeps
    | with_reducible apply evt_keeps
    | with_reducible apply enterUpdate_keeps
    | with_reducible apply keeps_ite
    | split
    | with_reducible apply keeps_mk
    | with_reducible apply And.intro
    | exact Or.inl (within_bit _ rfl hm)
    | exact Or.inr rfl

theorem firstReady_keeps {μ : Nat} {s0 : State} (s : State)  (hk : Keeps μ s0 s) (hm : Within 0x2000020 μ := by exact within_trans rfl (by assumption)) : Keeps μ s0 (firstReady s) := by
  unfold firstReady
  try dsimp only
  repeat' first
    | with_reducible assumption
    | exact within_trans rfl hm
    | with_reducible apply wrN_keeps
    | with_reducible apply modSys_keeps
    | with_reducible apply keeps_ite
    | split
    | (intro)
    | with_reducible apply keeps_mk
    | with_reducible apply And.intro
    | exact Or.inl (within_bit _ rfl hm)
    | exact Or.inr rfl

theorem loadEnd_keeps {μ : Nat} {s0 : State} (s : State)  (hk : Keeps μ s0 s) (hm : Within 0x20b444521 μ := by exact within_trans rfl (by assumption)) : Keeps μ s0 (loadEnd s) := by
  unfold loadEnd
  try dsimp only
  repeat' first
    | with_reducible assumption
    | exact within_trans rfl hm
    | with_reducible apply enterMode_keeps
    | with_reducible apply settleActive_keeps
    | with_reducible apply modSys_keeps
    | with_reducible apply afterStep_keeps
    | with_reducible apply firstReady_keeps
    | with_reducible apply keeps_ite
    | split
    | (intro)
    | with_reducible apply keeps_mk
    | with_reducible apply And.intro
    | exact Or.inl (within_bit _ rfl hm)
    | exact Or.inr rfl

theorem loadTimeout_keeps {μ : Nat} {s0 : State} (s : State)  (hk : Keeps μ s0 s) (hm : Within 0x20b544521 μ := by exact within_trans rfl (by assumption)) : Keeps μ s0 (loadTimeout s) := by
  unfold loadTimeout
  try dsimp only
  repeat' first
    | with_reducible assumption
    | exact within_trans rfl hm
    | with_reducible apply modSys_keeps
    | with_reducible apply park_keeps
    | with_reducible apply unloadAll_keeps
    | with_reducible apply stepFailed_keeps
    | with_reducible apply keeps_ite
    | split
    | (intro)
    | with_reducible apply keeps_mk
    | with_reducible apply And.intro
    | exact Or.inl (within_bit _ rfl hm)
    | exact Or.inr rfl

theorem killAll_keeps {μ : Nat} {s0 : State} (q : Nat) (s : State)  (hk : Keeps μ s0 s) (hm : Within 0x4120 μ := by exact within_trans rfl (by assumption)) : Keeps μ s0 (killAll q s) := by
  unfold killAll
  try dsimp only
  repeat' first
    | with_reducible assumption
    | exact within_trans rfl hm
    | with_reducible apply raiseAll_keeps

theorem holdSpindle_keeps {μ : Nat} {s0 : State} (c : Nat) (s : State)  (hk : Keeps μ s0 s) (hm : Within 0x8404521 μ := by exact within_trans rfl (by assumption)) : Keeps μ s0 (holdSpindle c s) := by
  unfold holdSpindle
  try dsimp only
  repeat' first
    | with_reducible assumption
    | exact within_trans rfl hm
    | with_reducible apply coast_keeps
    | with_reducible apply brakeStop_keeps
    | with_reducible apply spinDown_keeps
    | with_reducible apply keeps_ite
    | split

theorem modCal_keeps {μ : Nat} {s0 : State} (s : State) (f : CalState → CalState)  (hk : Keeps μ s0 s) (hm : Within 0x100000000 μ := by exact within_trans rfl (by assumption)) : Keeps μ s0 (modCal s f) := by
  unfold modCal
  try dsimp only
  repeat' first
    | with_reducible assumption
    | exact within_trans rfl hm
    | with_reducible apply keeps_mk
    | with_reducible apply And.intro
    | exact Or.inl (within_bit _ rfl hm)
    | exact Or.inr rfl

theorem calOver_keeps {μ : Nat} {s0 : State} (s : State)  (hk : Keeps μ s0 s) (hm : Within 0x30b444521 μ := by exact within_trans rfl (by assumption)) : Keeps μ s0 (calOver s) := by
  unfold calOver
  try dsimp only
  repeat' first
    | with_reducible assumption
    | exact within_trans rfl hm
    | with_reducible apply setF_keeps
    | with_reducible apply requestMode_keeps
    | with_reducible apply modCal_keeps
    | split
    | (intro)
    | with_reducible apply keeps_mk
    | with_reducible apply And.intro
    | exact Or.inl (within_bit _ rfl hm)
    | exact Or.inr rfl

theorem calResult_keeps {μ : Nat} {s0 : State} (code chains : Nat) (s : State)  (hk : Keeps μ s0 s) (hm : Within 0x100000120 μ := by exact within_trans rfl (by assumption)) : Keeps μ s0 (calResult code chains s) := by
  unfold calResult
  try dsimp only
  repeat' first
    | with_reducible assumption
    | exact within_trans rfl hm
    | with_reducible apply wrN_keeps
    | with_reducible apply evt_keeps
    | with_reducible apply modCal_keeps
    | with_reducible apply keeps_ite
    | split
    | (intro)
    | with_reducible apply keeps_mk
    | with_reducible apply And.intro
    | exact Or.inl (within_bit _ rfl hm)
    | exact Or.inr rfl

theorem calAbort_keeps {μ : Nat} {s0 : State} (s : State)  (hk : Keeps μ s0 s) (hm : Within 0x30b444521 μ := by exact within_trans rfl (by assumption)) : Keeps μ s0 (calAbort s) := by
  unfold calAbort
  try dsimp only
  repeat' first
    | with_reducible assumption
    | exact within_trans rfl hm
    | with_reducible apply calOver_keeps
    | with_reducible apply calResult_keeps
    | with_reducible apply keeps_ite
    | split
    | with_reducible apply keeps_mk
    | with_reducible apply And.intro
    | exact Or.inl (within_bit _ rfl hm)
    | exact Or.inr rfl

theorem enterSafeHold_keeps {μ : Nat} {s0 : State} (c : Nat) (s : State)  (hk : Keeps μ s0 s) (hm : Within 0x30b544521 μ := by exact within_trans rfl (by assumption)) : Keeps μ s0 (enterSafeHold c s) := by
  unfold enterSafeHold
  try dsimp only
  repeat' first
    | with_reducible assumption
    | exact within_trans rfl hm
    | with_reducible apply evt_keeps
    | with_reducible apply startRetract_keeps
    | with_reducible apply showServes_keeps
    | with_reducible apply enterMode_keeps
    | with_reducible apply modNqe_keeps
    | with_reducible apply discardIo_keeps
    | with_reducible apply modSys_keeps
    | with_reducible apply dropEntry_keeps
    | with_reducible apply endRequest_keeps
    | with_reducible apply killAll_keeps
    | with_reducible apply holdSpindle_keeps
    | with_reducible apply calAbort_keeps
    | with_reducible apply keeps_ite
    | split
    | (intro)
    | with_reducible apply keeps_mk
    | with_reducible apply And.intro
    | exact Or.inl (within_bit _ rfl hm)
    | exact Or.inr rfl

theorem safeHold_keeps {μ : Nat} {s0 : State} (c : Nat) (s : State)  (hk : Keeps μ s0 s) (hm : Within 0x30b544521 μ := by exact within_trans rfl (by assumption)) : Keeps μ s0 (safeHold c s) := by
  unfold safeHold
  try dsimp only
  repeat' first
    | with_reducible assumption
    | exact within_trans rfl hm
    | with_reducible apply setBit_keeps
    | with_reducible apply wrN_keeps
    | with_reducible apply enterSafeHold_keeps
    | with_reducible apply keeps_ite
    | split

theorem clockLoss_keeps {μ : Nat} {s0 : State} (refclk : Bool) (gen : Option Nat) (s : State)  (hk : Keeps μ s0 s) (hm : Within 0x30b544521 μ := by exact within_trans rfl (by assumption)) : Keeps μ s0 (clockLoss refclk gen s) := by
  unfold clockLoss
  try dsimp only
  repeat' first
    | with_reducible assumption
    | exact within_trans rfl hm
    | with_reducible apply setBit_keeps
    | with_reducible apply safeHold_keeps
    | with_reducible apply keeps_ite
    | split
    | with_reducible apply keeps_mk
    | with_reducible apply And.intro
    | exact Or.inl (within_bit _ rfl hm)
    | exact Or.inr rfl

theorem endHeldCmds_keeps {μ : Nat} {s0 : State} (a : Nat) (s : State)  (hk : Keeps μ s0 s) (hm : Within 0x80e0160 μ := by exact within_trans rfl (by assumption)) : Keeps μ s0 (endHeldCmds a s) := by
  unfold endHeldCmds
  try dsimp only
  repeat' first
    | (with_reducible apply keeps_foldl; intro s _ hk)
    | with_reducible assumption
    | exact within_trans rfl hm
    | with_reducible apply complete_keeps
    | with_reducible apply abandon_keeps
    | (intro)

theorem checkActuators_keeps {μ : Nat} {s0 : State} (s : State)  (hk : Keeps μ s0 s) (hm : Within 0x30b544521 μ := by exact within_trans rfl (by assumption)) : Keeps μ s0 (checkActuators s) := by
  unfold checkActuators
  try dsimp only
  repeat' first
    | with_reducible assumption
    | exact within_trans rfl hm
    | with_reducible apply safeHold_keeps
    | with_reducible apply keeps_ite
    | split

theorem holdActuator_keeps {μ : Nat} {s0 : State} (a cause : Nat) (s : State)  (hk : Keeps μ s0 s) (hm : Within 0x30b5e4561 μ := by exact within_trans rfl (by assumption)) : Keeps μ s0 (holdActuator a cause s) := by
  unfold holdActuator
  try dsimp only
  repeat' first
    | with_reducible assumption
    | exact within_trans rfl hm
    | with_reducible apply setF_keeps
    | with_reducible apply setBit_keeps
    | with_reducible apply evt_keeps
    | with_reducible apply tstSweep_keeps
    | with_reducible apply clearReady_keeps
    | with_reducible apply startRetract_keeps
    | with_reducible apply killAll_keeps
    | with_reducible apply endHeldCmds_keeps
    | with_reducible apply checkActuators_keeps
    | with_reducible apply keeps_ite
    | split

theorem clearActuator_keeps {μ : Nat} {s0 : State} (a : Nat) (s : State)  (hk : Keeps μ s0 s) (hm : Within 0xa000121 μ := by exact within_trans rfl (by assumption)) : Keeps μ s0 (clearActuator a s) := by
  unfold clearActuator
  try dsimp only
  repeat' first
    | with_reducible assumption
    | exact within_trans rfl hm
    | with_reducible apply setF_keeps
    | with_reducible apply setBit_keeps
    | with_reducible apply evt_keeps
    | with_reducible apply modSys_keeps
    | with_reducible apply driveOff_keeps
    | with_reducible apply keeps_ite
    | split
    | (intro)
    | with_reducible apply keeps_mk
    | with_reducible apply And.intro
    | exact Or.inl (within_bit _ rfl hm)
    | exact Or.inr rfl

theorem writeAnchor_keeps {μ : Nat} {s0 : State} (a k : Nat) (s : State)  (hk : Keeps μ s0 s) (hm : Within 0x100120 μ := by exact within_trans rfl (by assumption)) : Keeps μ s0 (writeAnchor a k s) := by
  unfold writeAnchor
  try dsimp only
  repeat' first
    | with_reducible assumption
    | exact within_trans rfl hm
    | with_reducible apply evt_keeps
    | with_reducible apply modSrv_keeps
    | with_reducible apply keeps_ite
    | split
    | exact fun _ h => h
    | exact fun _ h => by simpa [Tsq.sized, Ctx.sized, Srv.sized, NetState.sized, AngState.sized, modAt_length, modAt_all] using h
    | (intro)
    | with_reducible apply keeps_mk
    | with_reducible apply And.intro
    | exact Or.inl (within_bit _ rfl hm)
    | exact Or.inr rfl
    | assumption

theorem laneFails_keeps {μ : Nat} {s0 : State} (l : Nat) (s : State)  (hk : Keeps μ s0 s) (hm : Within 0x30b5e4561 μ := by exact within_trans rfl (by assumption)) : Keeps μ s0 (laneFails l s) := by
  unfold laneFails
  try dsimp only
  repeat' first
    | with_reducible assumption
    | exact within_trans rfl hm
    | with_reducible apply setBit_keeps
    | with_reducible apply evt_keeps
    | with_reducible apply raiseS_keeps
    | with_reducible apply tstSweep_keeps
    | with_reducible apply holdActuator_keeps
    | with_reducible apply writeAnchor_keeps
    | with_reducible apply keeps_ite
    | split
    | (intro)
    | with_reducible apply keeps_mk
    | with_reducible apply And.intro
    | exact Or.inl (within_bit _ rfl hm)
    | exact Or.inr rfl

theorem laneClear_keeps {μ : Nat} {s0 : State} (mask : Nat) (s : State)  (hk : Keeps μ s0 s) (hm : Within 0x820 μ := by exact within_trans rfl (by assumption)) : Keeps μ s0 (laneClear mask s) := by
  unfold laneClear
  try dsimp only
  repeat' first
    | (with_reducible apply keeps_foldl; intro s _ hk)
    | with_reducible assumption
    | exact within_trans rfl hm
    | with_reducible apply setBit_keeps
    | with_reducible apply modLane_keeps
    | with_reducible apply keeps_ite
    | split
    | (intro)
    | with_reducible apply keeps_mk
    | with_reducible apply And.intro
    | exact Or.inl (within_bit _ rfl hm)
    | exact Or.inr rfl

end Sys2Proof.Machine
end

