-- ==== Sys2Proof/Laws/KeepsSeek.lean ====
section
/-! SUPPORT. The operations of Seek.lean keep the queue and the canonical stores. -/

set_option Elab.async false

namespace Sys2Proof.Machine

theorem seekFails_keeps {μ : Nat} {s0 : State} (a : Nat) (s : State)  (hk : Keeps μ s0 s) (hm : Within 0x100120 μ := by exact within_trans rfl (by assumption)) : Keeps μ s0 (seekFails a s) := by
  unfold seekFails
  try dsimp only
  repeat' first
    | with_reducible assumption
    | exact within_trans rfl hm
    | with_reducible apply evt_keeps
    | with_reducible apply modSrv_keeps
    | exact fun _ h => h
    | exact fun _ h => by simpa [Tsq.sized, Ctx.sized, Srv.sized, NetState.sized, AngState.sized, modAt_length, modAt_all] using h
    | (intro)
    | with_reducible apply keeps_mk
    | with_reducible apply And.intro
    | exact Or.inl (within_bit _ rfl hm)
    | exact Or.inr rfl
    | assumption

theorem captureStarts_keeps {μ : Nat} {s0 : State} (a : Nat) (s : State)  (hk : Keeps μ s0 s) (hm : Within 0x100020 μ := by exact within_trans rfl (by assumption)) : Keeps μ s0 (captureStarts a s) := by
  unfold captureStarts
  try dsimp only
  repeat' first
    | with_reducible assumption
    | exact within_trans rfl hm
    | with_reducible apply setBit_keeps
    | with_reducible apply modSrv_keeps
    | exact fun _ h => h
    | exact fun _ h => by simpa [Tsq.sized, Ctx.sized, Srv.sized, NetState.sized, AngState.sized, modAt_length, modAt_all] using h
    | (intro)
    | with_reducible apply keeps_mk
    | with_reducible apply And.intro
    | exact Or.inl (within_bit _ rfl hm)
    | exact Or.inr rfl
    | assumption

theorem profileStarts_keeps {μ : Nat} {s0 : State} (a : Nat) (p : Int) (vm am jm : Rat) (s : State)  (hk : Keeps μ s0 s) (hm : Within 0x104520 μ := by exact within_trans rfl (by assumption)) : Keeps μ s0 (profileStarts a p vm am jm s) := by
  unfold profileStarts
  try dsimp only
  repeat' first
    | with_reducible assumption
    | exact within_trans rfl hm
    | with_reducible apply setBit_keeps
    | with_reducible apply wrN_keeps
    | with_reducible apply modSrv_keeps
    | with_reducible apply clearReady_keeps
    | exact fun _ h => h
    | exact fun _ h => by simpa [Tsq.sized, Ctx.sized, Srv.sized, NetState.sized, AngState.sized, modAt_length, modAt_all] using h
    | (intro)
    | with_reducible apply keeps_mk
    | with_reducible apply And.intro
    | exact Or.inl (within_bit _ rfl hm)
    | exact Or.inr rfl
    | assumption

theorem svgo_keeps {μ : Nat} {s0 : State} (a v : Nat) (s : State)  (hk : Keeps μ s0 s) (hm : Within 0x104520 μ := by exact within_trans rfl (by assumption)) : Keeps μ s0 (svgo a v s) := by
  unfold svgo
  try dsimp only
  repeat' first
    | with_reducible assumption
    | exact within_trans rfl hm
    | with_reducible apply seekFails_keeps
    | with_reducible apply captureStarts_keeps
    | with_reducible apply profileStarts_keeps
    | with_reducible apply keeps_ite
    | split
    | with_reducible apply keeps_mk
    | with_reducible apply And.intro
    | exact Or.inl (within_bit _ rfl hm)
    | exact Or.inr rfl

end Sys2Proof.Machine
end

