-- ==== Sys2Proof/Laws/KeepsSequencer.lean ====
section
/-! SUPPORT. The operations of Sequencer.lean keep the queue and the canonical stores. -/

set_option Elab.async false

namespace Sys2Proof.Machine

theorem headReached_keeps {μ : Nat} {s0 : State} (q x : Nat) (s : State)  (hk : Keeps μ s0 s) (hm : Within 0x4000 μ := by exact within_trans rfl (by assumption)) : Keeps μ s0 (headReached q x s) := by
  unfold headReached
  try dsimp only
  repeat' first
    | with_reducible assumption
    | exact within_trans rfl hm
    | with_reducible apply modCtx_keeps
    | with_reducible apply keeps_ite
    | split
    | exact fun _ h => h
    | exact fun _ h => by simpa [Tsq.sized, Ctx.sized, Srv.sized, NetState.sized, AngState.sized, modAt_length, modAt_all] using h
    | (intro)
    | with_reducible apply keeps_mk
    | with_reducible apply And.intro
    | exact Or.inl (within_bit _ rfl hm)
    | exact Or.inr rfl
    | assumption

theorem enqueue_keeps {μ : Nat} {s0 : State} (q x offset : Nat) (fw : Bool) (s : State)  (hk : Keeps μ s0 s) (hm : Within 0x4160 μ := by exact within_trans rfl (by assumption)) : Keeps μ s0 (enqueue q x offset fw s) := by
  unfold enqueue
  try dsimp only
  repeat' first
    | with_reducible assumption
    | exact within_trans rfl hm
    | with_reducible apply sramPutPart_keeps
    | with_reducible apply modTsq_keeps
    | with_reducible apply modCtx_keeps
    | with_reducible apply settleActive_keeps
    | with_reducible apply requestP_keeps
    | with_reducible apply headReached_keeps
    | with_reducible apply keeps_ite
    | split
    | exact fun _ h => h
    | exact fun _ h => by simpa [Tsq.sized, Ctx.sized, Srv.sized, NetState.sized, AngState.sized, modAt_length, modAt_all] using h
    | (intro)
    | with_reducible apply keeps_mk
    | with_reducible apply And.intro
    | exact Or.inl (within_bit _ rfl hm)
    | exact Or.inr rfl
    | assumption

theorem fwPost_keeps {μ : Nat} {s0 : State} (q v : Nat) (s : State)  (hk : Keeps μ s0 s) (hm : Within 0x4160 μ := by exact within_trans rfl (by assumption)) : Keeps μ s0 (fwPost q v s) := by
  unfold fwPost
  try dsimp only
  repeat' first
    | with_reducible assumption
    | exact within_trans rfl hm
    | with_reducible apply setF_keeps
    | with_reducible apply wr64_keeps
    | with_reducible apply enqueue_keeps
    | with_reducible apply keeps_ite
    | split

theorem fwcqPop_keeps {μ : Nat} {s0 : State} (q : Nat) (s : State)  (hk : Keeps μ s0 s) (hm : Within 0x4018 μ := by exact within_trans rfl (by assumption)) : Keeps μ s0 (fwcqPop q s) := by
  unfold fwcqPop
  try dsimp only
  repeat' first
    | with_reducible assumption
    | exact within_trans rfl hm
    | with_reducible apply answer_keeps
    | with_reducible apply modTsq_keeps
    | split
    | exact fun _ h => h
    | exact fun _ h => by simpa [Tsq.sized, Ctx.sized, Srv.sized, NetState.sized, AngState.sized, modAt_length, modAt_all] using h
    | (intro)
    | with_reducible apply keeps_mk
    | with_reducible apply And.intro
    | exact Or.inl (within_bit _ rfl hm)
    | exact Or.inr rfl
    | assumption

theorem writeRecord_keeps {μ : Nat} {s0 : State} (q x status : Nat) (plost : Bool) (s : State)  (hk : Keeps μ s0 s) (hm : Within 0x40 μ := by exact within_trans rfl (by assumption)) : Keeps μ s0 (writeRecord q x status plost s) := by
  unfold writeRecord
  try dsimp only
  repeat' first
    | with_reducible assumption
    | exact within_trans rfl hm
    | with_reducible apply sramPut32_keeps
    | with_reducible apply keeps_ite
    | split

theorem clearHalves_keeps {μ : Nat} {s0 : State} (q x : Nat) (s : State)  (hk : Keeps μ s0 s) (hm : Within 0x800 μ := by exact within_trans rfl (by assumption)) : Keeps μ s0 (clearHalves q x s) := by
  unfold clearHalves
  try dsimp only
  repeat' first
    | with_reducible assumption
    | exact within_trans rfl hm
    | with_reducible apply modLane_keeps
    | with_reducible apply keeps_ite
    | split
    | (intro)
    | with_reducible apply keeps_mk
    | with_reducible apply And.intro
    | exact Or.inl (within_bit _ rfl hm)
    | exact Or.inr rfl

theorem recordPending_keeps {μ : Nat} {s0 : State} (q x : Nat) (s : State)  (hk : Keeps μ s0 s) (hm : Within 0x120 μ := by exact within_trans rfl (by assumption)) : Keeps μ s0 (recordPending q x s) := by
  unfold recordPending
  try dsimp only
  repeat' first
    | (with_reducible apply keeps_foldl; intro s _ hk)
    | with_reducible assumption
    | exact within_trans rfl hm
    | with_reducible apply recordS_keeps
    | (intro)

theorem finishOp_keeps {μ : Nat} {s0 : State} (q x status : Nat) (plost : Bool) (s : State)  (hk : Keeps μ s0 s) (hm : Within 0x20bce4d61 μ := by exact within_trans rfl (by assumption)) : Keeps μ s0 (finishOp q x status plost s) := by
  unfold finishOp
  try dsimp only
  repeat' first
    | with_reducible assumption
    | exact within_trans rfl hm
    | with_reducible apply wrapInc_keeps
    | with_reducible apply evt_keeps
    | with_reducible apply modTsq_keeps
    | with_reducible apply modCtx_keeps
    | with_reducible apply settleActive_keeps
    | with_reducible apply operationEnds_keeps
    | with_reducible apply goOn_keeps
    | with_reducible apply drainCheck_keeps
    | with_reducible apply writeRecord_keeps
    | with_reducible apply clearHalves_keeps
    | with_reducible apply recordPending_keeps
    | with_reducible apply keeps_ite
    | split
    | exact fun _ h => h
    | exact fun _ h => by simpa [Tsq.sized, Ctx.sized, Srv.sized, NetState.sized, AngState.sized, modAt_length, modAt_all] using h
    | (intro)
    | with_reducible apply keeps_mk
    | with_reducible apply And.intro
    | exact Or.inl (within_bit _ rfl hm)
    | exact Or.inr rfl
    | assumption

theorem takeDesc_keeps {μ : Nat} {s0 : State} (q x : Nat) (d : QueuedDesc) (s : State)  (hk : Keeps μ s0 s) (hm : Within 0x4000 μ := by exact within_trans rfl (by assumption)) : Keeps μ s0 (takeDesc q x d s) := by
  unfold takeDesc
  try dsimp only
  repeat' first
    | with_reducible assumption
    | exact within_trans rfl hm
    | with_reducible apply modCtx_keeps
    | with_reducible apply headReached_keeps
    | exact fun _ h => h
    | exact fun _ h => by simpa [Tsq.sized, Ctx.sized, Srv.sized, NetState.sized, AngState.sized, modAt_length, modAt_all] using h
    | (intro)
    | with_reducible apply keeps_mk
    | with_reducible apply And.intro
    | exact Or.inl (within_bit _ rfl hm)
    | exact Or.inr rfl
    | assumption

theorem startRoutine_keeps {μ : Nat} {s0 : State} (q x op : Nat) (s : State)  (hk : Keeps μ s0 s) (hm : Within 0x4000 μ := by exact within_trans rfl (by assumption)) : Keeps μ s0 (startRoutine q x op s) := by
  unfold startRoutine
  try dsimp only
  repeat' first
    | with_reducible assumption
    | exact within_trans rfl hm
    | with_reducible apply modCtx_keeps
    | exact fun _ h => h
    | exact fun _ h => by simpa [Tsq.sized, Ctx.sized, Srv.sized, NetState.sized, AngState.sized, modAt_length, modAt_all] using h
    | (intro)
    | with_reducible apply keeps_mk
    | with_reducible apply And.intro
    | exact Or.inl (within_bit _ rfl hm)
    | exact Or.inr rfl
    | assumption

theorem dispatch_keeps {μ : Nat} {s0 : State} (q x : Nat) (s : State)  (hk : Keeps μ s0 s) (hm : Within 0x20bce4d61 μ := by exact within_trans rfl (by assumption)) : Keeps μ s0 (dispatch q x s) := by
  unfold dispatch
  try dsimp only
  repeat' first
    | with_reducible assumption
    | exact within_trans rfl hm
    | with_reducible apply recordS_keeps
    | with_reducible apply finishOp_keeps
    | with_reducible apply takeDesc_keeps
    | with_reducible apply startRoutine_keeps
    | with_reducible apply keeps_ite
    | split
    | with_reducible apply keeps_mk
    | with_reducible apply And.intro
    | exact Or.inl (within_bit _ rfl hm)
    | exact Or.inr rfl

theorem setLaneField_keeps {μ : Nat} {s0 : State} (n : Nat) (trailing : Bool) (f v : Nat) (s : State)  (hk : Keeps μ s0 s) (hm : Within 0x4d20 μ := by exact within_trans rfl (by assumption)) : Keeps μ s0 (setLaneField n trailing f v s) := by
  unfold setLaneField
  try dsimp only
  repeat' first
    | with_reducible assumption
    | exact within_trans rfl hm
    | with_reducible apply setF_keeps
    | with_reducible apply modLane_keeps
    | with_reducible apply sluApply_keeps
    | with_reducible apply targetPending_keeps
    | with_reducible apply keeps_ite
    | split
    | (intro)

theorem commitCtx_keeps {μ : Nat} {s0 : State} (q x : Nat) (s : State)  (hk : Keeps μ s0 s) (hm : Within 0x2480e4560 μ := by exact within_trans rfl (by assumption)) : Keeps μ s0 (commitCtx q x s) := by
  unfold commitCtx
  try dsimp only
  repeat' first
    | (with_reducible apply keeps_foldl; intro s _ hk)
    | with_reducible assumption
    | exact within_trans rfl hm
    | with_reducible apply sramPut32_keeps
    | with_reducible apply modCtx_keeps
    | with_reducible apply progress_keeps
    | exact fun _ h => h
    | exact fun _ h => by simpa [Tsq.sized, Ctx.sized, Srv.sized, NetState.sized, AngState.sized, modAt_length, modAt_all] using h
    | (intro)
    | with_reducible apply keeps_mk
    | with_reducible apply And.intro
    | exact Or.inl (within_bit _ rfl hm)
    | exact Or.inr rfl
    | assumption

theorem restoreItem_keeps {μ : Nat} {s0 : State} (q x : Nat) (j : JournalItem) (s : State)  (hk : Keeps μ s0 s) (hm : Within 0x4f20 μ := by exact within_trans rfl (by assumption)) : Keeps μ s0 (restoreItem q x j s) := by
  unfold restoreItem
  try dsimp only
  repeat' first
    | with_reducible assumption
    | exact within_trans rfl hm
    | with_reducible apply modCtx_keeps
    | with_reducible apply setQueue_keeps
    | with_reducible apply setLaneField_keeps
    | split
    | exact fun _ h => h
    | exact fun _ h => by simpa [Tsq.sized, Ctx.sized, Srv.sized, NetState.sized, AngState.sized, modAt_length, modAt_all] using h
    | (intro)
    | with_reducible apply keeps_mk
    | with_reducible apply And.intro
    | exact Or.inl (within_bit _ rfl hm)
    | exact Or.inr rfl
    | assumption

theorem endSlot_keeps {μ : Nat} {s0 : State} (q x : Nat) (s : State)  (hk : Keeps μ s0 s) (hm : Within 0x104f21 μ := by exact within_trans rfl (by assumption)) : Keeps μ s0 (endSlot q x s) := by
  unfold endSlot
  try dsimp only
  repeat' first
    | with_reducible assumption
    | exact within_trans rfl hm
    | with_reducible apply setBit_keeps
    | with_reducible apply modCtx_keeps
    | with_reducible apply assistOff_keeps
    | with_reducible apply drainQueue_keeps
    | with_reducible apply keeps_ite
    | split
    | exact fun _ h => h
    | exact fun _ h => by simpa [Tsq.sized, Ctx.sized, Srv.sized, NetState.sized, AngState.sized, modAt_length, modAt_all] using h
    | (intro)
    | with_reducible apply keeps_mk
    | with_reducible apply And.intro
    | exact Or.inl (within_bit _ rfl hm)
    | exact Or.inr rfl
    | assumption

theorem classS_keeps {μ : Nat} {s0 : State} (q x : Nat) (s : State)  (hk : Keeps μ s0 s) (hm : Within 0x20bde4f61 μ := by exact within_trans rfl (by assumption)) : Keeps μ s0 (classS q x s) := by
  unfold classS
  try dsimp only
  repeat' first
    | (with_reducible apply keeps_foldl; intro s _ hk)
    | with_reducible assumption
    | exact within_trans rfl hm
    | with_reducible apply satInc_keeps
    | with_reducible apply finishOp_keeps
    | with_reducible apply restoreItem_keeps
    | with_reducible apply endSlot_keeps
    | with_reducible apply keeps_ite
    | split
    | (intro)
    | with_reducible apply keeps_mk
    | with_reducible apply And.intro
    | exact Or.inl (within_bit _ rfl hm)
    | exact Or.inr rfl

theorem optime_keeps {μ : Nat} {s0 : State} (q x : Nat) (s : State)  (hk : Keeps μ s0 s) (hm : Within 0x4120 μ := by exact within_trans rfl (by assumption)) : Keeps μ s0 (optime q x s) := by
  unfold optime
  try dsimp only
  repeat' first
    | with_reducible assumption
    | exact within_trans rfl hm
    | with_reducible apply raiseS_keeps
    | with_reducible apply keeps_ite
    | split

theorem tsqKill_keeps {μ : Nat} {s0 : State} (q m : Nat) (s : State)  (hk : Keeps μ s0 s) (hm : Within 0x4120 μ := by exact within_trans rfl (by assumption)) : Keeps μ s0 (tsqKill q m s) := by
  unfold tsqKill
  try dsimp only
  repeat' first
    | (with_reducible apply keeps_foldl; intro s _ hk)
    | with_reducible assumption
    | exact within_trans rfl hm
    | with_reducible apply raiseS_keeps
    | with_reducible apply keeps_ite
    | split
    | (intro)

theorem ucpar_keeps {μ : Nat} {s0 : State} (q x : Nat) (s : State)  (hk : Keeps μ s0 s) (hm : Within 0x30b5e4561 μ := by exact within_trans rfl (by assumption)) : Keeps μ s0 (ucpar q x s) := by
  unfold ucpar
  try dsimp only
  repeat' first
    | with_reducible assumption
    | exact within_trans rfl hm
    | with_reducible apply modTsq_keeps
    | with_reducible apply raiseS_keeps
    | with_reducible apply holdActuator_keeps
    | with_reducible apply keeps_ite
    | split
    | exact fun _ h => h
    | exact fun _ h => by simpa [Tsq.sized, Ctx.sized, Srv.sized, NetState.sized, AngState.sized, modAt_length, modAt_all] using h
    | (intro)
    | with_reducible apply keeps_mk
    | with_reducible apply And.intro
    | exact Or.inl (within_bit _ rfl hm)
    | exact Or.inr rfl
    | assumption

theorem preq_keeps {μ : Nat} {s0 : State} (q m : Nat) (s : State)  (hk : Keeps μ s0 s) (hm : Within 0x4000 μ := by exact within_trans rfl (by assumption)) : Keeps μ s0 (preq q m s) := by
  unfold preq
  try dsimp only
  repeat' first
    | (with_reducible apply keeps_foldl; intro s _ hk)
    | with_reducible assumption
    | exact within_trans rfl hm
    | with_reducible apply requestP_keeps
    | with_reducible apply keeps_ite
    | split
    | (intro)

theorem preemptionExit_keeps {μ : Nat} {s0 : State} (q x : Nat) (s : State)  (hk : Keeps μ s0 s) (hm : Within 0x4020 μ := by exact within_trans rfl (by assumption)) : Keeps μ s0 (preemptionExit q x s) := by
  unfold preemptionExit
  try dsimp only
  repeat' first
    | with_reducible assumption
    | exact within_trans rfl hm
    | with_reducible apply satInc_keeps
    | with_reducible apply modCtx_keeps
    | with_reducible apply keeps_ite
    | split
    | exact fun _ h => h
    | exact fun _ h => by simpa [Tsq.sized, Ctx.sized, Srv.sized, NetState.sized, AngState.sized, modAt_length, modAt_all] using h
    | (intro)
    | with_reducible apply keeps_mk
    | with_reducible apply And.intro
    | exact Or.inl (within_bit _ rfl hm)
    | exact Or.inr rfl
    | assumption

theorem pexit_keeps {μ : Nat} {s0 : State} (q x : Nat) (s : State)  (hk : Keeps μ s0 s) (hm : Within 0x4120 μ := by exact within_trans rfl (by assumption)) : Keeps μ s0 (pexit q x s) := by
  unfold pexit
  try dsimp only
  repeat' first
    | with_reducible assumption
    | exact within_trans rfl hm
    | with_reducible apply raiseS_keeps
    | with_reducible apply keeps_ite
    | split

theorem retire_keeps {μ : Nat} {s0 : State} (q x w next : Nat) (commit : Bool) (s : State)  (hk : Keeps μ s0 s) (hm : Within 0x2480e4560 μ := by exact within_trans rfl (by assumption)) : Keeps μ s0 (retire q x w next commit s) := by
  unfold retire
  try dsimp only
  repeat' first
    | with_reducible assumption
    | exact within_trans rfl hm
    | with_reducible apply modCtx_keeps
    | with_reducible apply commitCtx_keeps
    | with_reducible apply keeps_ite
    | split
    | exact fun _ h => h
    | exact fun _ h => by simpa [Tsq.sized, Ctx.sized, Srv.sized, NetState.sized, AngState.sized, modAt_length, modAt_all] using h
    | (intro)
    | with_reducible apply keeps_mk
    | with_reducible apply And.intro
    | exact Or.inl (within_bit _ rfl hm)
    | exact Or.inr rfl
    | assumption

theorem haltOp_keeps {μ : Nat} {s0 : State} (q x w status : Nat) (s : State)  (hk : Keeps μ s0 s) (hm : Within 0x24bce4d61 μ := by exact within_trans rfl (by assumption)) : Keeps μ s0 (haltOp q x w status s) := by
  unfold haltOp
  try dsimp only
  repeat' first
    | with_reducible assumption
    | exact within_trans rfl hm
    | with_reducible apply evtIf_keeps
    | with_reducible apply finishOp_keeps
    | with_reducible apply retire_keeps

theorem beginWait_keeps {μ : Nat} {s0 : State} (q x w : Nat) (s : State)  (hk : Keeps μ s0 s) (hm : Within 0x2480e4560 μ := by exact within_trans rfl (by assumption)) : Keeps μ s0 (beginWait q x w s) := by
  unfold beginWait
  try dsimp only
  repeat' first
    | with_reducible assumption
    | exact within_trans rfl hm
    | with_reducible apply modCtx_keeps
    | with_reducible apply retire_keeps
    | with_reducible apply keeps_ite
    | split
    | exact fun _ h => h
    | exact fun _ h => by simpa [Tsq.sized, Ctx.sized, Srv.sized, NetState.sized, AngState.sized, modAt_length, modAt_all] using h
    | (intro)
    | with_reducible apply keeps_mk
    | with_reducible apply And.intro
    | exact Or.inl (within_bit _ rfl hm)
    | exact Or.inr rfl
    | assumption

theorem endWord_keeps {μ : Nat} {s0 : State} (q x w : Nat) (r : WordEnd × State) (s : State) (hr : Keeps μ s0 r.2)
    (hk : Keeps μ s0 s) 
    (hm : Within 0x24bce4d61 μ := by exact within_trans rfl (by assumption)) : Keeps μ s0 (endWord q x w r s) := by
  unfold endWord
  split
  · exact retire_keeps _ _ _ _ _ _ hr
  · exact retire_keeps _ _ _ _ _ _ hr
  · exact raiseS_keeps _ _ _ _ hk
  · exact haltOp_keeps _ _ _ _ _ hr
  · exact beginWait_keeps _ _ _ _ hr
  · exact retire_keeps _ _ _ _ _ _ hr

theorem runWord_keeps {μ : Nat} {s0 : State} (op : Nat) (f : WordMeaning) (q x : Nat) (s : State)
    (hf : ∀ w, Keeps μ s0 (f q x w s).2) (hk : Keeps μ s0 s) 
    (hm : Within 0x24bce4d61 μ := by exact within_trans rfl (by assumption)) : Keeps μ s0 (runWord op f q x s) := by
  unfold runWord
  dsimp only
  split
  · exact hk
  · split
    · exact hk
    · split
      · exact raiseS_keeps _ _ _ _ hk
      · split
        · exact raiseS_keeps _ _ _ _ hk
        · exact endWord_keeps _ _ _ _ _ (hf _) hk

theorem setG_keeps {μ : Nat} {s0 : State} (q x r : Nat) (v : Word) (s : State)  (hk : Keeps μ s0 s) (hm : Within 0x4000 μ := by exact within_trans rfl (by assumption)) : Keeps μ s0 (setG q x r v s) := by
  unfold setG
  try dsimp only
  repeat' first
    | with_reducible assumption
    | exact within_trans rfl hm
    | with_reducible apply modCtx_keeps
    | exact fun _ h => h
    | exact fun _ h => by simpa [Tsq.sized, Ctx.sized, Srv.sized, NetState.sized, AngState.sized, modAt_length, modAt_all] using h
    | (intro)
    | with_reducible apply keeps_mk
    | with_reducible apply And.intro
    | exact Or.inl (within_bit _ rfl hm)
    | exact Or.inr rfl
    | assumption

theorem setGF_keeps {μ : Nat} {s0 : State} (q x r : Nat) (v : Word) (f : Flags) (s : State) (hk : Keeps μ s0 s) 
    (hm : Within 0x4000 μ := by exact within_trans rfl (by assumption)) :
    Keeps μ s0 (setGF q x r v f s) :=
  modCtx_keeps _ _ _ _ hk fun c h => by
    simpa [Ctx.sized, Ctx.setFlags, modAt_length] using h

theorem wordNop_keeps {μ : Nat} {s0 : State}  (q x w : Nat) (s : State) (hk : Keeps μ s0 s) (_hm : Within 0x0 μ := by exact within_trans rfl (by assumption)) : Keeps μ s0 (wordNop  q x w s).2 := by
  unfold wordNop
  try dsimp only
  repeat' first
    | with_reducible assumption
    | exact within_trans rfl hm
    | with_reducible apply keeps_ite
    | split
    | (intro)

theorem wordMov_keeps {μ : Nat} {s0 : State}  (q x w : Nat) (s : State) (hk : Keeps μ s0 s) (hm : Within 0x4000 μ := by exact within_trans rfl (by assumption)) : Keeps μ s0 (wordMov  q x w s).2 := by
  unfold wordMov
  try dsimp only
  repeat' first
    | with_reducible assumption
    | exact within_trans rfl hm
    | with_reducible apply setG_keeps
    | (intro)

theorem wordMovi_keeps {μ : Nat} {s0 : State}  (q x w : Nat) (s : State) (hk : Keeps μ s0 s) (hm : Within 0x4000 μ := by exact within_trans rfl (by assumption)) : Keeps μ s0 (wordMovi  q x w s).2 := by
  unfold wordMovi
  try dsimp only
  repeat' first
    | with_reducible assumption
    | exact within_trans rfl hm
    | with_reducible apply setG_keeps
    | (intro)

theorem wordMovhi_keeps {μ : Nat} {s0 : State}  (q x w : Nat) (s : State) (hk : Keeps μ s0 s) (hm : Within 0x4000 μ := by exact within_trans rfl (by assumption)) : Keeps μ s0 (wordMovhi  q x w s).2 := by
  unfold wordMovhi
  try dsimp only
  repeat' first
    | with_reducible assumption
    | exact within_trans rfl hm
    | with_reducible apply setG_keeps
    | with_reducible apply keeps_ite
    | split
    | (intro)

theorem wordAdd_keeps {μ : Nat} {s0 : State}  (q x w : Nat) (s : State) (hk : Keeps μ s0 s) (hm : Within 0x4000 μ := by exact within_trans rfl (by assumption)) : Keeps μ s0 (wordAdd  q x w s).2 := by
  unfold wordAdd
  try dsimp only
  repeat' first
    | with_reducible assumption
    | exact within_trans rfl hm
    | with_reducible apply setGF_keeps
    | (intro)

theorem wordSub_keeps {μ : Nat} {s0 : State}  (q x w : Nat) (s : State) (hk : Keeps μ s0 s) (hm : Within 0x4000 μ := by exact within_trans rfl (by assumption)) : Keeps μ s0 (wordSub  q x w s).2 := by
  unfold wordSub
  try dsimp only
  repeat' first
    | with_reducible assumption
    | exact within_trans rfl hm
    | with_reducible apply setGF_keeps
    | (intro)

theorem wordAddi_keeps {μ : Nat} {s0 : State}  (q x w : Nat) (s : State) (hk : Keeps μ s0 s) (hm : Within 0x4000 μ := by exact within_trans rfl (by assumption)) : Keeps μ s0 (wordAddi  q x w s).2 := by
  unfold wordAddi
  try dsimp only
  repeat' first
    | with_reducible assumption
    | exact within_trans rfl hm
    | with_reducible apply setGF_keeps
    | (intro)

theorem wordLogic_keeps {μ : Nat} {s0 : State} (f : Word → Word → Word) (q x w : Nat) (s : State) (hk : Keeps μ s0 s) (hm : Within 0x4000 μ := by exact within_trans rfl (by assumption)) : Keeps μ s0 (wordLogic f q x w s).2 := by
  unfold wordLogic
  try dsimp only
  repeat' first
    | with_reducible assumption
    | exact within_trans rfl hm
    | with_reducible apply setGF_keeps
    | (intro)

theorem wordShift_keeps {μ : Nat} {s0 : State} (f : Word → Nat → Word) (q x w : Nat) (s : State) (hk : Keeps μ s0 s) (hm : Within 0x4000 μ := by exact within_trans rfl (by assumption)) : Keeps μ s0 (wordShift f q x w s).2 := by
  unfold wordShift
  try dsimp only
  repeat' first
    | with_reducible assumption
    | exact within_trans rfl hm
    | with_reducible apply setGF_keeps
    | (intro)

theorem wordAngadd_keeps {μ : Nat} {s0 : State}  (q x w : Nat) (s : State) (hk : Keeps μ s0 s) (hm : Within 0x4000 μ := by exact within_trans rfl (by assumption)) : Keeps μ s0 (wordAngadd  q x w s).2 := by
  unfold wordAngadd
  try dsimp only
  repeat' first
    | with_reducible assumption
    | exact within_trans rfl hm
    | with_reducible apply setGF_keeps
    | (intro)

theorem wordCmp_keeps {μ : Nat} {s0 : State}  (q x w : Nat) (s : State) (hk : Keeps μ s0 s) (hm : Within 0x4000 μ := by exact within_trans rfl (by assumption)) : Keeps μ s0 (wordCmp  q x w s).2 := by
  unfold wordCmp
  try dsimp only
  repeat' first
    | with_reducible assumption
    | exact within_trans rfl hm
    | with_reducible apply modCtx_keeps
    | exact fun _ h => h
    | exact fun _ h => by simpa [Tsq.sized, Ctx.sized, Srv.sized, NetState.sized, AngState.sized, modAt_length, modAt_all] using h
    | (intro)
    | assumption

theorem wordCmpi_keeps {μ : Nat} {s0 : State}  (q x w : Nat) (s : State) (hk : Keeps μ s0 s) (hm : Within 0x4000 μ := by exact within_trans rfl (by assumption)) : Keeps μ s0 (wordCmpi  q x w s).2 := by
  unfold wordCmpi
  try dsimp only
  repeat' first
    | with_reducible assumption
    | exact within_trans rfl hm
    | with_reducible apply modCtx_keeps
    | exact fun _ h => h
    | exact fun _ h => by simpa [Tsq.sized, Ctx.sized, Srv.sized, NetState.sized, AngState.sized, modAt_length, modAt_all] using h
    | (intro)
    | assumption

/-- In a sized state every context is sized. -/
theorem ctxAt_sized {s : State} (h : s.sized = true) (q x : Nat) : (ctxAt s q x).sized = true := by
  have h6 := (sized_iff.1 h).2.2.2.2.2.1
  have ht : (tsqAt s q).sized = true := by
    unfold tsqAt
    rw [List.getD_eq_getElem?_getD]
    cases e : s.tsq[q]? with
    | none => rfl
    | some t => exact List.all_eq_true.1 h6 _ (List.mem_of_getElem? e)
  unfold ctxAt
  rw [List.getD_eq_getElem?_getD]
  cases e : (tsqAt s q).ctxs[x]? with
  | none => rfl
  | some c =>
    simp only [Tsq.sized, Bool.and_eq_true] at ht
    exact List.all_eq_true.1 ht.2 _ (List.mem_of_getElem? e)

theorem mfsValue_sized {s : State} {q x r : Nat} {v : Word} {c : Ctx} (h : s.sized = true)
    (e : mfsValue s q x r = some (v, c)) : c.sized = true := by
  have hc := ctxAt_sized h q x
  unfold mfsValue at e
  dsimp only at e
  repeat' split at e
  all_goals simp only [Option.some.injEq, Prod.mk.injEq, reduceCtorEq] at e
  all_goals
    obtain ⟨_, rfl⟩ := e
    exact hc

theorem wordMfs_keeps {μ : Nat} {s0 : State} (q x w : Nat) (s : State) (hk : Keeps μ s0 s) 
    (hm : Within 0x4000 μ := by exact within_trans rfl (by assumption)) :
    Keeps μ s0 (wordMfs q x w s).2 := by
  unfold wordMfs
  split
  · rename_i v c e
    refine setG_keeps _ _ _ _ _ (keeps_units 14 hk (hm := hm) (hz := fun h => ?_))
    have hc := mfsValue_sized h e
    exact (modCtx_keeps (μ := 0x4000) s q x (fun _ => c) (keeps_refl _ s) (fun _ _ => hc) (within_refl _)).fit h
  · exact hk

theorem wordMts_keeps {μ : Nat} {s0 : State}  (q x w : Nat) (s : State) (hk : Keeps μ s0 s) (hm : Within 0x104520 μ := by exact within_trans rfl (by assumption)) : Keeps μ s0 (wordMts  q x w s).2 := by
  unfold wordMts
  try dsimp only
  repeat' first
    | with_reducible assumption
    | exact within_trans rfl hm
    | with_reducible apply modTsq_keeps
    | with_reducible apply modCtx_keeps
    | with_reducible apply svgo_keeps
    | with_reducible apply keeps_ite
    | split
    | exact fun _ h => h
    | exact fun _ h => by simpa [Tsq.sized, Ctx.sized, Srv.sized, NetState.sized, AngState.sized, modAt_length, modAt_all] using h
    | (intro)
    | with_reducible apply keeps_mk
    | with_reducible apply And.intro
    | exact Or.inl (within_bit _ rfl hm)
    | exact Or.inr rfl
    | assumption

theorem wordBr_keeps {μ : Nat} {s0 : State}  (q x w : Nat) (s : State) (hk : Keeps μ s0 s) (_hm : Within 0x0 μ := by exact within_trans rfl (by assumption)) : Keeps μ s0 (wordBr  q x w s).2 := by
  unfold wordBr
  try dsimp only
  repeat' first
    | with_reducible assumption
    | exact within_trans rfl hm
    | split
    | (intro)
    | with_reducible apply keeps_mk
    | with_reducible apply And.intro
    | exact Or.inl (within_bit _ rfl hm)
    | exact Or.inr rfl

theorem wordCall_keeps {μ : Nat} {s0 : State}  (q x w : Nat) (s : State) (hk : Keeps μ s0 s) (hm : Within 0x4000 μ := by exact within_trans rfl (by assumption)) : Keeps μ s0 (wordCall  q x w s).2 := by
  unfold wordCall
  try dsimp only
  repeat' first
    | with_reducible assumption
    | exact within_trans rfl hm
    | with_reducible apply modCtx_keeps
    | with_reducible apply keeps_ite
    | split
    | exact fun _ h => h
    | exact fun _ h => by simpa [Tsq.sized, Ctx.sized, Srv.sized, NetState.sized, AngState.sized, modAt_length, modAt_all] using h
    | (intro)
    | with_reducible apply keeps_mk
    | with_reducible apply And.intro
    | exact Or.inl (within_bit _ rfl hm)
    | exact Or.inr rfl
    | assumption

theorem wordRet_keeps {μ : Nat} {s0 : State}  (q x w : Nat) (s : State) (hk : Keeps μ s0 s) (hm : Within 0x4000 μ := by exact within_trans rfl (by assumption)) : Keeps μ s0 (wordRet  q x w s).2 := by
  unfold wordRet
  try dsimp only
  repeat' first
    | with_reducible assumption
    | exact within_trans rfl hm
    | with_reducible apply modCtx_keeps
    | with_reducible apply keeps_ite
    | split
    | exact fun _ h => h
    | exact fun _ h => by simpa [Tsq.sized, Ctx.sized, Srv.sized, NetState.sized, AngState.sized, modAt_length, modAt_all] using h
    | (intro)
    | with_reducible apply keeps_mk
    | with_reducible apply And.intro
    | exact Or.inl (within_bit _ rfl hm)
    | exact Or.inr rfl
    | assumption

theorem wordWaitc_keeps {μ : Nat} {s0 : State}  (q x w : Nat) (s : State) (hk : Keeps μ s0 s) (_hm : Within 0x0 μ := by exact within_trans rfl (by assumption)) : Keeps μ s0 (wordWaitc  q x w s).2 := by
  unfold wordWaitc
  try dsimp only
  repeat' first
    | with_reducible assumption
    | exact within_trans rfl hm
    | with_reducible apply keeps_ite
    | split
    | (intro)
    | with_reducible apply keeps_mk
    | with_reducible apply And.intro
    | exact Or.inl (within_bit _ rfl hm)
    | exact Or.inr rfl

theorem record_keeps {μ : Nat} {s0 : State} (q x : Nat) (j : JournalItem) (s : State)  (hk : Keeps μ s0 s) (hm : Within 0x4000 μ := by exact within_trans rfl (by assumption)) : Keeps μ s0 (record q x j s) := by
  unfold record
  try dsimp only
  repeat' first
    | with_reducible assumption
    | exact within_trans rfl hm
    | with_reducible apply modCtx_keeps
    | exact fun _ h => h
    | exact fun _ h => by simpa [Tsq.sized, Ctx.sized, Srv.sized, NetState.sized, AngState.sized, modAt_length, modAt_all] using h
    | (intro)
    | with_reducible apply keeps_mk
    | with_reducible apply And.intro
    | exact Or.inl (within_bit _ rfl hm)
    | exact Or.inr rfl
    | assumption

theorem wordArm_keeps {μ : Nat} {s0 : State}  (q x w : Nat) (s : State) (hk : Keeps μ s0 s) (hm : Within 0x104f21 μ := by exact within_trans rfl (by assumption)) : Keeps μ s0 (wordArm  q x w s).2 := by
  unfold wordArm
  try dsimp only
  repeat' first
    | with_reducible assumption
    | exact within_trans rfl hm
    | with_reducible apply modCtx_keeps
    | with_reducible apply postEntry_keeps
    | with_reducible apply record_keeps
    | with_reducible apply keeps_ite
    | split
    | refine keeps_thd (by with_reducible assumption) ?_
    | exact fun _ h => h
    | exact fun _ h => by simpa [Tsq.sized, Ctx.sized, Srv.sized, NetState.sized, AngState.sized, modAt_length, modAt_all] using h
    | (intro)
    | with_reducible apply keeps_mk
    | with_reducible apply And.intro
    | exact Or.inl (within_bit _ rfl hm)
    | exact Or.inr rfl
    | assumption

theorem gateSlot_keeps {μ : Nat} {s0 : State} (n m : Nat) (s : State)  (hk : Keeps μ s0 s) (hm : Within 0xc20 μ := by exact within_trans rfl (by assumption)) : Keeps μ s0 (gateSlot n m s) := by
  unfold gateSlot
  try dsimp only
  repeat' first
    | with_reducible assumption
    | exact within_trans rfl hm
    | with_reducible apply stopLane_keeps
    | with_reducible apply setReadGate_keeps
    | with_reducible apply wgDrop_keeps
    | with_reducible apply assistDown_keeps
    | with_reducible apply keeps_ite
    | split

theorem wordGate_keeps {μ : Nat} {s0 : State}  (q x w : Nat) (s : State) (hk : Keeps μ s0 s) (hm : Within 0xc20 μ := by exact within_trans rfl (by assumption)) : Keeps μ s0 (wordGate  q x w s).2 := by
  unfold wordGate
  try dsimp only
  repeat' first
    | with_reducible assumption
    | exact within_trans rfl hm
    | with_reducible apply gateSlot_keeps
    | with_reducible apply keeps_ite
    | split
    | (intro)

theorem wordLane_keeps {μ : Nat} {s0 : State}  (q x w : Nat) (s : State) (hk : Keeps μ s0 s) (hm : Within 0x4d20 μ := by exact within_trans rfl (by assumption)) : Keeps μ s0 (wordLane  q x w s).2 := by
  unfold wordLane
  try dsimp only
  repeat' first
    | with_reducible assumption
    | exact within_trans rfl hm
    | with_reducible apply setLaneField_keeps
    | with_reducible apply record_keeps
    | with_reducible apply keeps_ite
    | split
    | (intro)

theorem wordDesc_keeps {μ : Nat} {s0 : State}  (q x w : Nat) (s : State) (hk : Keeps μ s0 s) (hm : Within 0x4000 μ := by exact within_trans rfl (by assumption)) : Keeps μ s0 (wordDesc  q x w s).2 := by
  unfold wordDesc
  try dsimp only
  repeat' first
    | with_reducible assumption
    | exact within_trans rfl hm
    | with_reducible apply setG_keeps
    | with_reducible apply keeps_ite
    | split
    | (intro)

theorem wordPost_keeps {μ : Nat} {s0 : State}  (q x w : Nat) (s : State) (hk : Keeps μ s0 s) (hm : Within 0x4000 μ := by exact within_trans rfl (by assumption)) : Keeps μ s0 (wordPost  q x w s).2 := by
  unfold wordPost
  try dsimp only
  repeat' first
    | with_reducible assumption
    | exact within_trans rfl hm
    | with_reducible apply modCtx_keeps
    | with_reducible apply record_keeps
    | with_reducible apply keeps_ite
    | split
    | exact fun _ h => h
    | exact fun _ h => by simpa [Tsq.sized, Ctx.sized, Srv.sized, NetState.sized, AngState.sized, modAt_length, modAt_all] using h
    | (intro)
    | with_reducible apply keeps_mk
    | with_reducible apply And.intro
    | exact Or.inl (within_bit _ rfl hm)
    | exact Or.inr rfl
    | assumption

theorem wordHalt_keeps {μ : Nat} {s0 : State}  (q x w : Nat) (s : State) (hk : Keeps μ s0 s) (_hm : Within 0x0 μ := by exact within_trans rfl (by assumption)) : Keeps μ s0 (wordHalt  q x w s).2 := by
  unfold wordHalt
  try dsimp only
  repeat' first
    | with_reducible assumption
    | exact within_trans rfl hm
    | with_reducible apply keeps_ite
    | split
    | (intro)

theorem ldResult_keeps {μ : Nat} {s0 : State} (r : Nat) (s : State)  (hk : Keeps μ s0 s) (hm : Within 0x10120 μ := by exact within_trans rfl (by assumption)) : Keeps μ s0 (ldResult r s) := by
  unfold ldResult
  try dsimp only
  repeat' first
    | with_reducible assumption
    | exact within_trans rfl hm
    | with_reducible apply setF_keeps
    | with_reducible apply setBit_keeps
    | with_reducible apply evt_keeps
    | with_reducible apply keeps_ite
    | split
    | with_reducible apply keeps_mk
    | with_reducible apply And.intro
    | exact Or.inl (within_bit _ rfl hm)
    | exact Or.inr rfl

theorem ldCommand_keeps {μ : Nat} {s0 : State} (v : Nat) (s : State)  (hk : Keeps μ s0 s) (hm : Within 0x10120 μ := by exact within_trans rfl (by assumption)) : Keeps μ s0 (ldCommand v s) := by
  unfold ldCommand
  try dsimp only
  repeat' first
    | with_reducible assumption
    | exact within_trans rfl hm
    | with_reducible apply setBit_keeps
    | with_reducible apply ldResult_keeps
    | with_reducible apply keeps_ite
    | split
    | with_reducible apply keeps_mk
    | with_reducible apply And.intro
    | exact Or.inl (within_bit _ rfl hm)
    | exact Or.inr rfl

theorem loadedAll_keeps {μ : Nat} {s0 : State} (s : State) (hk : Keeps μ s0 s)
    (hm : Within 0x4000 μ := by exact within_trans rfl (by assumption)) :
    Keeps μ s0 { s with tsq := s.tsq.map fun t => { t with loaded := true } } :=
  keeps_units 14 hk (hm := hm) (hz := fun h => by
    simp only [sized_iff] at h ⊢
    obtain ⟨h1, h2, h3, h4, h5, h6, h7⟩ := h
    refine ⟨h1, h2, h3, h4, by simpa using h5, ?_, h7⟩
    simpa [Tsq.sized] using h6)

theorem imageInstall_keeps {μ : Nat} {s0 : State} (g : Image) (patch : Bool) (s : State) (hk : Keeps μ s0 s) 
    (hm : Within 0xc020 μ := by exact within_trans rfl (by assumption)) :
    Keeps μ s0 (imageInstall g patch s) := by
  unfold imageInstall
  dsimp only
  refine loadedAll_keeps _ (wrN_keeps _ _ _ (wrN_keeps _ _ _ ?_))
  with_reducible apply keeps_mk
  · exact hk
  · repeat' first
      | exact Or.inl (within_bit _ rfl hm)
      | exact Or.inr rfl
      | with_reducible apply And.intro

theorem lddone_keeps {μ : Nat} {s0 : State} (s : State)  (hk : Keeps μ s0 s) (hm : Within 0x1c120 μ := by exact within_trans rfl (by assumption)) : Keeps μ s0 (lddone s) := by
  unfold lddone
  try dsimp only
  repeat' first
    | with_reducible assumption
    | exact within_trans rfl hm
    | with_reducible apply ldResult_keeps
    | with_reducible apply imageInstall_keeps
    | with_reducible apply keeps_ite
    | split
    | with_reducible apply keeps_mk
    | with_reducible apply And.intro
    | exact Or.inl (within_bit _ rfl hm)
    | exact Or.inr rfl

theorem tsqCtlWrite_keeps {μ : Nat} {s0 : State} (q v : Nat) (s : State)  (hk : Keeps μ s0 s) (hm : Within 0x20 μ := by exact within_trans rfl (by assumption)) : Keeps μ s0 (tsqCtlWrite q v s) := by
  unfold tsqCtlWrite
  try dsimp only
  repeat' first
    | with_reducible assumption
    | exact within_trans rfl hm
    | with_reducible apply wrN_keeps
    | with_reducible apply keeps_ite
    | split

end Sys2Proof.Machine
end

