-- ==== Sys2Proof/Laws/KeepsZones.lean ====
section
/-! SUPPORT. The operations of Zones.lean keep the queue and the canonical stores. -/

set_option Elab.async false

namespace Sys2Proof.Machine

theorem btWrite_keeps {μ : Nat} {s0 : State} (i v : Nat) (s : State)  (hk : Keeps μ s0 s) (hm : Within 0x20120 μ := by exact within_trans rfl (by assumption)) : Keeps μ s0 (btWrite i v s) := by
  unfold btWrite
  try dsimp only
  repeat' first
    | with_reducible assumption
    | exact within_trans rfl hm
    | with_reducible apply evt_keeps
    | with_reducible apply modZtb_keeps
    | with_reducible apply keeps_ite
    | split
    | (intro)
    | with_reducible apply keeps_mk
    | with_reducible apply And.intro
    | exact Or.inl (within_bit _ rfl hm)
    | exact Or.inr rfl

theorem btLoad_keeps {μ : Nat} {s0 : State} (s : State)  (hk : Keeps μ s0 s) (hm : Within 0x20120 μ := by exact within_trans rfl (by assumption)) : Keeps μ s0 (btLoad s) := by
  unfold btLoad
  try dsimp only
  repeat' first
    | with_reducible assumption
    | exact within_trans rfl hm
    | with_reducible apply setBit_keeps
    | with_reducible apply wrN_keeps
    | with_reducible apply wr64_keeps
    | with_reducible apply evt_keeps
    | with_reducible apply modZtb_keeps
    | with_reducible apply keeps_ite
    | split
    | (intro)
    | with_reducible apply keeps_mk
    | with_reducible apply And.intro
    | exact Or.inl (within_bit _ rfl hm)
    | exact Or.inr rfl

theorem nzoneWrite_keeps {μ : Nat} {s0 : State} (v : Nat) (s : State)  (hk : Keeps μ s0 s) (hm : Within 0x120 μ := by exact within_trans rfl (by assumption)) : Keeps μ s0 (nzoneWrite v s) := by
  unfold nzoneWrite
  try dsimp only
  repeat' first
    | with_reducible assumption
    | exact within_trans rfl hm
    | with_reducible apply wrN_keeps
    | with_reducible apply evt_keeps
    | with_reducible apply keeps_ite
    | split

theorem ztbCtlWrite_keeps {μ : Nat} {s0 : State} (v : Nat) (s : State)  (hk : Keeps μ s0 s) (hm : Within 0x20020 μ := by exact within_trans rfl (by assumption)) : Keeps μ s0 (ztbCtlWrite v s) := by
  unfold ztbCtlWrite
  try dsimp only
  repeat' first
    | with_reducible assumption
    | exact within_trans rfl hm
    | with_reducible apply setF_keeps
    | with_reducible apply setBit_keeps
    | with_reducible apply modZtb_keeps
    | with_reducible apply keeps_ite
    | split
    | (intro)
    | with_reducible apply keeps_mk
    | with_reducible apply And.intro
    | exact Or.inl (within_bit _ rfl hm)
    | exact Or.inr rfl

theorem zoneEngineEnable_keeps {μ : Nat} {s0 : State} (s : State)  (hk : Keeps μ s0 s) (hm : Within 0x20000 μ := by exact within_trans rfl (by assumption)) : Keeps μ s0 (zoneEngineEnable s) := by
  unfold zoneEngineEnable
  try dsimp only
  repeat' first
    | with_reducible assumption
    | exact within_trans rfl hm
    | with_reducible apply modZtb_keeps
    | with_reducible apply keeps_ite
    | split
    | (intro)
    | with_reducible apply keeps_mk
    | with_reducible apply And.intro
    | exact Or.inl (within_bit _ rfl hm)
    | exact Or.inr rfl

theorem countZones_keeps {μ : Nat} {s0 : State} (s : State)  (hk : Keeps μ s0 s) (hm : Within 0x20 μ := by exact within_trans rfl (by assumption)) : Keeps μ s0 (countZones s) := by
  unfold countZones
  try dsimp only
  repeat' first
    | with_reducible assumption
    | exact within_trans rfl hm
    | with_reducible apply wrN_keeps

theorem layoutCheckEnd_keeps {μ : Nat} {s0 : State} (s : State)  (hk : Keeps μ s0 s) (hm : Within 0x20120 μ := by exact within_trans rfl (by assumption)) : Keeps μ s0 (layoutCheckEnd s) := by
  unfold layoutCheckEnd
  try dsimp only
  repeat' first
    | with_reducible assumption
    | exact within_trans rfl hm
    | with_reducible apply setBit_keeps
    | with_reducible apply evt_keeps
    | with_reducible apply modZtb_keeps
    | with_reducible apply countZones_keeps
    | with_reducible apply keeps_ite
    | split
    | (intro)
    | with_reducible apply keeps_mk
    | with_reducible apply And.intro
    | exact Or.inl (within_bit _ rfl hm)
    | exact Or.inr rfl

theorem dropSpec_keeps {μ : Nat} {s0 : State} (z : Nat) (s : State)  (hk : Keeps μ s0 s) (hm : Within 0x8080160 μ := by exact within_trans rfl (by assumption)) : Keeps μ s0 (dropSpec z s) := by
  unfold dropSpec
  try dsimp only
  repeat' first
    | (with_reducible apply keeps_foldl; intro s _ hk)
    | with_reducible assumption
    | exact within_trans rfl hm
    | with_reducible apply pushFree_keeps
    | (intro)

theorem releaseZone_keeps {μ : Nat} {s0 : State} (z : Nat) (s : State)  (hk : Keeps μ s0 s) (hm : Within 0x80a0160 μ := by exact within_trans rfl (by assumption)) : Keeps μ s0 (releaseZone z s) := by
  unfold releaseZone
  try dsimp only
  repeat' first
    | with_reducible assumption
    | exact within_trans rfl hm
    | with_reducible apply freeAll_keeps
    | with_reducible apply modWork_keeps
    | (intro)

theorem resetZone_keeps {μ : Nat} {s0 : State} (z : Nat) (s : State)  (hk : Keeps μ s0 s) (hm : Within 0x80a4560 μ := by exact within_trans rfl (by assumption)) : Keeps μ s0 (resetZone z s) := by
  unfold resetZone
  try dsimp only
  repeat' first
    | with_reducible assumption
    | exact within_trans rfl hm
    | with_reducible apply evt_keeps
    | with_reducible apply setCptr_keeps
    | with_reducible apply setTailu_keeps
    | with_reducible apply setRptr_keeps
    | with_reducible apply setEpoch_keeps
    | with_reducible apply setZoneState_keeps
    | with_reducible apply dropSpec_keeps
    | with_reducible apply releaseZone_keeps
    | with_reducible apply keeps_ite
    | split

theorem applyState_keeps {μ : Nat} {s0 : State} (z st : Nat) (s : State)  (hk : Keeps μ s0 s) (hm : Within 0x80a4560 μ := by exact within_trans rfl (by assumption)) : Keeps μ s0 (applyState z st s) := by
  unfold applyState
  try dsimp only
  repeat' first
    | with_reducible assumption
    | exact within_trans rfl hm
    | with_reducible apply enterZoneState_keeps
    | with_reducible apply sealSectors_keeps
    | with_reducible apply keeps_ite
    | split
    | (intro)

theorem zcmdFinish_keeps {μ : Nat} {s0 : State} (c : ZoneCommand) (s : State)  (hk : Keeps μ s0 s) (hm : Within 0x80a4560 μ := by exact within_trans rfl (by assumption)) : Keeps μ s0 (zcmdFinish c s) := by
  unfold zcmdFinish
  try dsimp only
  repeat' first
    | with_reducible assumption
    | exact within_trans rfl hm
    | with_reducible apply wrN_keeps
    | with_reducible apply modZtb_keeps
    | with_reducible apply resetZone_keeps
    | with_reducible apply applyState_keeps
    | with_reducible apply keeps_ite
    | split
    | (intro)
    | with_reducible apply keeps_mk
    | with_reducible apply And.intro
    | exact Or.inl (within_bit _ rfl hm)
    | exact Or.inr rfl

theorem zcmdWrite_keeps {μ : Nat} {s0 : State} (z op st : Nat) (s : State)  (hk : Keeps μ s0 s) (hm : Within 0x80a4560 μ := by exact within_trans rfl (by assumption)) : Keeps μ s0 (zcmdWrite z op st s) := by
  unfold zcmdWrite
  try dsimp only
  repeat' first
    | with_reducible assumption
    | exact within_trans rfl hm
    | with_reducible apply wrN_keeps
    | with_reducible apply modZtb_keeps
    | with_reducible apply zcmdFinish_keeps
    | with_reducible apply keeps_ite
    | split
    | (intro)
    | with_reducible apply keeps_mk
    | with_reducible apply And.intro
    | exact Or.inl (within_bit _ rfl hm)
    | exact Or.inr rfl

theorem zcmdEnd_keeps {μ : Nat} {s0 : State} (s : State)  (hk : Keeps μ s0 s) (hm : Within 0x80a4560 μ := by exact within_trans rfl (by assumption)) : Keeps μ s0 (zcmdEnd s) := by
  unfold zcmdEnd
  try dsimp only
  repeat' first
    | with_reducible assumption
    | exact within_trans rfl hm
    | with_reducible apply zcmdFinish_keeps
    | with_reducible apply keeps_ite
    | split
    | with_reducible apply keeps_mk
    | with_reducible apply And.intro
    | exact Or.inl (within_bit _ rfl hm)
    | exact Or.inr rfl

theorem slack_keeps {μ : Nat} {s0 : State} (i : Nat) (s : State)  (hk : Keeps μ s0 s) (hm : Within 0x80e4560 μ := by exact within_trans rfl (by assumption)) : Keeps μ s0 (slack i s) := by
  unfold slack
  try dsimp only
  repeat' first
    | with_reducible assumption
    | exact within_trans rfl hm
    | with_reducible apply modZtb_keeps
    | with_reducible apply showSlpend_keeps
    | with_reducible apply updateCptr_keeps
    | with_reducible apply keeps_ite
    | split
    | (intro)
    | with_reducible apply keeps_mk
    | with_reducible apply And.intro
    | exact Or.inl (within_bit _ rfl hm)
    | exact Or.inr rfl

theorem mapin_keeps {μ : Nat} {s0 : State} (v : Nat) (s : State)  (hk : Keeps μ s0 s) (hm : Within 0x20020 μ := by exact within_trans rfl (by assumption)) : Keeps μ s0 (mapin v s) := by
  unfold mapin
  try dsimp only
  repeat' first
    | with_reducible assumption
    | exact within_trans rfl hm
    | with_reducible apply setBit_keeps
    | with_reducible apply wr64_keeps
    | with_reducible apply modZtb_keeps
    | (intro)
    | with_reducible apply keeps_mk
    | with_reducible apply And.intro
    | exact Or.inl (within_bit _ rfl hm)
    | exact Or.inr rfl

theorem mapDone_keeps {μ : Nat} {s0 : State} (s : State)  (hk : Keeps μ s0 s) (hm : Within 0x20021 μ := by exact within_trans rfl (by assumption)) : Keeps μ s0 (mapDone s) := by
  unfold mapDone
  try dsimp only
  repeat' first
    | with_reducible assumption
    | exact within_trans rfl hm
    | with_reducible apply setBit_keeps
    | with_reducible apply wr64_keeps
    | with_reducible apply drawFree_keeps
    | with_reducible apply modZtb_keeps
    | with_reducible apply keeps_ite
    | split
    | refine keeps_snd (by with_reducible assumption) ?_
    | (intro)
    | with_reducible apply keeps_mk
    | with_reducible apply And.intro
    | exact Or.inl (within_bit _ rfl hm)
    | exact Or.inr rfl

end Sys2Proof.Machine
end

