-- ==== Sys2Proof/Laws/KeepsBuilder.lean ====
section
/-! SUPPORT. The operations of Builder.lean keep the queue and the canonical stores. -/

set_option Elab.async false

namespace Sys2Proof.Machine

theorem putWords_keeps {μ : Nat} {s0 : State} (a : Nat) (x0 : List Nat) (s : State) (hk : Keeps μ s0 s) (hm : Within 0x40 μ := by exact within_trans rfl (by assumption)) : Keeps μ s0 (putWords a x0 s) := by
  induction x0 generalizing s a with
  | nil =>
    unfold putWords
    try dsimp only
    repeat' first
      | with_reducible assumption
      | exact within_trans rfl hm
      | with_reducible apply ih
      | with_reducible apply sramPut32_keeps
      | split
  | cons a l ih =>
    unfold putWords
    try dsimp only
    repeat' first
      | with_reducible assumption
      | exact within_trans rfl hm
      | with_reducible apply ih
      | with_reducible apply sramPut32_keeps
      | split

theorem putEntries_keeps {μ : Nat} {s0 : State} (a : Nat) (x0 : List Nat) (s : State) (hk : Keeps μ s0 s) (hm : Within 0x40 μ := by exact within_trans rfl (by assumption)) : Keeps μ s0 (putEntries a x0 s) := by
  induction x0 generalizing s a with
  | nil =>
    unfold putEntries
    try dsimp only
    repeat' first
      | with_reducible assumption
      | exact within_trans rfl hm
      | with_reducible apply ih
      | with_reducible apply sramPut64_keeps
      | split
  | cons a l ih =>
    unfold putEntries
    try dsimp only
    repeat' first
      | with_reducible assumption
      | exact within_trans rfl hm
      | with_reducible apply ih
      | with_reducible apply sramPut64_keeps
      | split

theorem buildPlan_keeps {μ : Nat} {s0 : State} (p : RunPlan) (s : State)  (hk : Keeps μ s0 s) (hm : Within 0x4160 μ := by exact within_trans rfl (by assumption)) : Keeps μ s0 (buildPlan p s) := by
  unfold buildPlan
  try dsimp only
  repeat' first
    | with_reducible assumption
    | exact within_trans rfl hm
    | with_reducible apply enqueue_keeps
    | with_reducible apply putWords_keeps
    | with_reducible apply putEntries_keeps

theorem lapEnds_keeps {μ : Nat} {s0 : State} (s : State)  (hk : Keeps μ s0 s) (hm : Within 0x120 μ := by exact within_trans rfl (by assumption)) : Keeps μ s0 (lapEnds s) := by
  unfold lapEnds
  try dsimp only
  repeat' first
    | with_reducible assumption
    | exact within_trans rfl hm
    | with_reducible apply wrN_keeps
    | with_reducible apply wr64_keeps
    | with_reducible apply wrapInc_keeps
    | with_reducible apply evt_keeps

theorem patrolTo_keeps {μ : Nat} {s0 : State} (z : Nat) (s : State)  (hk : Keeps μ s0 s) (hm : Within 0x120 μ := by exact within_trans rfl (by assumption)) : Keeps μ s0 (patrolTo z s) := by
  unfold patrolTo
  try dsimp only
  repeat' first
    | with_reducible assumption
    | exact within_trans rfl hm
    | with_reducible apply setBit_keeps
    | with_reducible apply wr64_keeps
    | with_reducible apply lapEnds_keeps
    | with_reducible apply keeps_ite
    | split
    | with_reducible apply keeps_mk
    | with_reducible apply And.intro
    | exact Or.inl (within_bit _ rfl hm)
    | exact Or.inr rfl

theorem patrolConv_keeps {μ : Nat} {s0 : State} (i : Nat) (s : State)  (hk : Keeps μ s0 s) (hm : Within 0x120 μ := by exact within_trans rfl (by assumption)) : Keeps μ s0 (patrolConv i s) := by
  unfold patrolConv
  try dsimp only
  repeat' first
    | with_reducible assumption
    | exact within_trans rfl hm
    | with_reducible apply setBit_keeps
    | with_reducible apply wr64_keeps
    | with_reducible apply patrolTo_keeps
    | with_reducible apply keeps_ite
    | split
    | with_reducible apply keeps_mk
    | with_reducible apply And.intro
    | exact Or.inl (within_bit _ rfl hm)
    | exact Or.inr rfl

theorem patrolMoves_keeps {μ : Nat} {s0 : State} (s : State)  (hk : Keeps μ s0 s) (hm : Within 0x20120 μ := by exact within_trans rfl (by assumption)) : Keeps μ s0 (patrolMoves s) := by
  unfold patrolMoves
  try dsimp only
  repeat' first
    | with_reducible assumption
    | exact within_trans rfl hm
    | with_reducible apply modZtb_keeps
    | with_reducible apply patrolTo_keeps
    | with_reducible apply patrolConv_keeps
    | with_reducible apply keeps_ite
    | split
    | (intro)
    | with_reducible apply keeps_mk
    | with_reducible apply And.intro
    | exact Or.inl (within_bit _ rfl hm)
    | exact Or.inr rfl

theorem issue_keeps {μ : Nat} {s0 : State} (p : RunPlan) (s : State)  (hk : Keeps μ s0 s) (hm : Within 0x24160 μ := by exact within_trans rfl (by assumption)) : Keeps μ s0 (issue p s) := by
  unfold issue
  try dsimp only
  repeat' first
    | with_reducible assumption
    | exact within_trans rfl hm
    | with_reducible apply evt_keeps
    | with_reducible apply buildPlan_keeps
    | with_reducible apply patrolMoves_keeps
    | with_reducible apply keeps_ite
    | split

theorem reissue_keeps {μ : Nat} {s0 : State} (p : RunPlan) (s : State)  (hk : Keeps μ s0 s) (hm : Within 0x24160 μ := by exact within_trans rfl (by assumption)) : Keeps μ s0 (reissue p s) := by
  unfold reissue
  try dsimp only
  repeat' first
    | with_reducible assumption
    | exact within_trans rfl hm
    | with_reducible apply issue_keeps
    | with_reducible apply keeps_ite
    | split

theorem tailTrigger_keeps {μ : Nat} {s0 : State} (p : RunPlan) (s : State)  (hk : Keeps μ s0 s) (hm : Within 0x24160 μ := by exact within_trans rfl (by assumption)) : Keeps μ s0 (tailTrigger p s) := by
  unfold tailTrigger
  try dsimp only
  repeat' first
    | with_reducible assumption
    | exact within_trans rfl hm
    | with_reducible apply issue_keeps
    | with_reducible apply keeps_ite
    | split

theorem wguardWrite_keeps {μ : Nat} {s0 : State} (v : Nat) (s : State)  (hk : Keeps μ s0 s) (hm : Within 0x20020 μ := by exact within_trans rfl (by assumption)) : Keeps μ s0 (wguardWrite v s) := by
  unfold wguardWrite
  try dsimp only
  repeat' first
    | with_reducible assumption
    | exact within_trans rfl hm
    | with_reducible apply setBit_keeps
    | with_reducible apply wrN_keeps
    | with_reducible apply modZtb_keeps
    | with_reducible apply keeps_ite
    | split
    | (intro)
    | with_reducible apply keeps_mk
    | with_reducible apply And.intro
    | exact Or.inl (within_bit _ rfl hm)
    | exact Or.inr rfl

theorem wguardEffect_keeps {μ : Nat} {s0 : State} (s : State)  (hk : Keeps μ s0 s) (hm : Within 0x4520 μ := by exact within_trans rfl (by assumption)) : Keeps μ s0 (wguardEffect s) := by
  unfold wguardEffect
  try dsimp only
  repeat' first
    | with_reducible assumption
    | exact within_trans rfl hm
    | with_reducible apply setF_keeps
    | with_reducible apply setBit_keeps
    | with_reducible apply sluAll_keeps
    | with_reducible apply keeps_ite
    | split

theorem opack_keeps {μ : Nat} {s0 : State} (z : Nat) (s : State)  (hk : Keeps μ s0 s) (hm : Within 0x80e4560 μ := by exact within_trans rfl (by assumption)) : Keeps μ s0 (opack z s) := by
  unfold opack
  try dsimp only
  repeat' first
    | with_reducible assumption
    | exact within_trans rfl hm
    | with_reducible apply modZtb_keeps
    | with_reducible apply modWork_keeps
    | with_reducible apply showOppend_keeps
    | with_reducible apply updateCptr_keeps
    | with_reducible apply keeps_ite
    | split
    | (intro)
    | with_reducible apply keeps_mk
    | with_reducible apply And.intro
    | exact Or.inl (within_bit _ rfl hm)
    | exact Or.inr rfl

theorem rcmd_keeps {μ : Nat} {s0 : State} (v : Nat) (s : State)  (hk : Keeps μ s0 s) (hm : Within 0x20020 μ := by exact within_trans rfl (by assumption)) : Keeps μ s0 (rcmd v s) := by
  unfold rcmd
  try dsimp only
  repeat' first
    | with_reducible assumption
    | exact within_trans rfl hm
    | with_reducible apply wrN_keeps
    | with_reducible apply modZtb_keeps
    | with_reducible apply keeps_ite
    | split
    | (intro)
    | with_reducible apply keeps_mk
    | with_reducible apply And.intro
    | exact Or.inl (within_bit _ rfl hm)
    | exact Or.inr rfl

theorem recovered_keeps {μ : Nat} {s0 : State} (z st code c : Nat) (s : State)  (hk : Keeps μ s0 s) (hm : Within 0x24560 μ := by exact within_trans rfl (by assumption)) : Keeps μ s0 (recovered z st code c s) := by
  unfold recovered
  try dsimp only
  repeat' first
    | with_reducible assumption
    | exact within_trans rfl hm
    | with_reducible apply wrN_keeps
    | with_reducible apply evt_keeps
    | with_reducible apply setCptr_keeps
    | with_reducible apply setTailu_keeps
    | with_reducible apply setRptr_keeps
    | with_reducible apply modWork_keeps
    | with_reducible apply setZoneState_keeps
    | (intro)
    | with_reducible apply keeps_mk
    | with_reducible apply And.intro
    | exact Or.inl (within_bit _ rfl hm)
    | exact Or.inr rfl

theorem rcvdone_keeps {μ : Nat} {s0 : State} (media : Bool) (clean : List (Nat × Nat)) (s : State)  (hk : Keeps μ s0 s) (hm : Within 0x24560 μ := by exact within_trans rfl (by assumption)) : Keeps μ s0 (rcvdone media clean s) := by
  unfold rcvdone
  try dsimp only
  repeat' first
    | with_reducible assumption
    | exact within_trans rfl hm
    | with_reducible apply wrN_keeps
    | with_reducible apply evt_keeps
    | with_reducible apply modZtb_keeps
    | with_reducible apply recovered_keeps
    | with_reducible apply keeps_ite
    | split
    | (intro)
    | with_reducible apply keeps_mk
    | with_reducible apply And.intro
    | exact Or.inl (within_bit _ rfl hm)
    | exact Or.inr rfl

theorem postAll_keeps {μ : Nat} {s0 : State} (q x f : Nat) (x0 : List PlanEntry) (s : State) (hk : Keeps μ s0 s) (hm : Within 0x104f21 μ := by exact within_trans rfl (by assumption)) : Keeps μ s0 (postAll q x f x0 s) := by
  induction x0 generalizing s q x f with
  | nil =>
    unfold postAll
    try dsimp only
    repeat' first
      | with_reducible assumption
      | exact within_trans rfl hm
      | with_reducible apply ih
      | with_reducible apply raiseS_keeps
      | with_reducible apply postEntry_keeps
      | with_reducible apply keeps_ite
      | split
      | refine keeps_thd (by with_reducible assumption) ?_
      | with_reducible apply keeps_mk
      | with_reducible apply And.intro
      | exact Or.inl (within_bit _ rfl hm)
      | exact Or.inr rfl
  | cons a l ih =>
    unfold postAll
    try dsimp only
    repeat' first
      | with_reducible assumption
      | exact within_trans rfl hm
      | with_reducible apply ih
      | with_reducible apply raiseS_keeps
      | with_reducible apply postEntry_keeps
      | with_reducible apply keeps_ite
      | split
      | refine keeps_thd (by with_reducible assumption) ?_
      | with_reducible apply keeps_mk
      | with_reducible apply And.intro
      | exact Or.inl (within_bit _ rfl hm)
      | exact Or.inr rfl

theorem armOp_keeps {μ : Nat} {s0 : State} (q x : Nat) (l : List PlanEntry) (s : State)  (hk : Keeps μ s0 s) (hm : Within 0x104f21 μ := by exact within_trans rfl (by assumption)) : Keeps μ s0 (armOp q x l s) := by
  unfold armOp
  try dsimp only
  repeat' first
    | with_reducible assumption
    | exact within_trans rfl hm
    | with_reducible apply postAll_keeps

theorem selectOpHead_keeps {μ : Nat} {s0 : State} (q x : Nat) (s : State)  (hk : Keeps μ s0 s) (hm : Within 0x104520 μ := by exact within_trans rfl (by assumption)) : Keeps μ s0 (selectOpHead q x s) := by
  unfold selectOpHead
  try dsimp only
  repeat' first
    | with_reducible assumption
    | exact within_trans rfl hm
    | with_reducible apply headSel_keeps
    | with_reducible apply keeps_ite
    | split

theorem programLane_keeps {μ : Nat} {s0 : State} (q x : Nat) (trailing : Bool) (mode track first bufl : Nat) (s : State)  (hk : Keeps μ s0 s) (hm : Within 0x4d20 μ := by exact within_trans rfl (by assumption)) : Keeps μ s0 (programLane q x trailing mode track first bufl s) := by
  unfold programLane
  try dsimp only
  repeat' first
    | with_reducible assumption
    | exact within_trans rfl hm
    | with_reducible apply setLaneField_keeps

theorem programPrimary_keeps {μ : Nat} {s0 : State} (q x mode : Nat) (s : State)  (hk : Keeps μ s0 s) (hm : Within 0x4d20 μ := by exact within_trans rfl (by assumption)) : Keeps μ s0 (programPrimary q x mode s) := by
  unfold programPrimary
  try dsimp only
  repeat' first
    | with_reducible assumption
    | exact within_trans rfl hm
    | with_reducible apply programLane_keeps

theorem programTrailing_keeps {μ : Nat} {s0 : State} (q x mode : Nat) (s : State)  (hk : Keeps μ s0 s) (hm : Within 0x4d20 μ := by exact within_trans rfl (by assumption)) : Keeps μ s0 (programTrailing q x mode s) := by
  unfold programTrailing
  try dsimp only
  repeat' first
    | with_reducible assumption
    | exact within_trans rfl hm
    | with_reducible apply programLane_keeps

theorem readRun_keeps {μ : Nat} {s0 : State} (q x : Nat) (s : State)  (hk : Keeps μ s0 s) (hm : Within 0x104f21 μ := by exact within_trans rfl (by assumption)) : Keeps μ s0 (readRun q x s) := by
  unfold readRun
  try dsimp only
  repeat' first
    | with_reducible assumption
    | exact within_trans rfl hm
    | with_reducible apply armOp_keeps
    | with_reducible apply selectOpHead_keeps
    | with_reducible apply programPrimary_keeps
    | with_reducible apply keeps_ite
    | split

theorem pairedRead_keeps {μ : Nat} {s0 : State} (q x : Nat) (s : State)  (hk : Keeps μ s0 s) (hm : Within 0x104f21 μ := by exact within_trans rfl (by assumption)) : Keeps μ s0 (pairedRead q x s) := by
  unfold pairedRead
  try dsimp only
  repeat' first
    | with_reducible assumption
    | exact within_trans rfl hm
    | with_reducible apply armOp_keeps
    | with_reducible apply selectOpHead_keeps
    | with_reducible apply programPrimary_keeps
    | with_reducible apply programTrailing_keeps
    | with_reducible apply keeps_ite
    | split

theorem writeRun_keeps {μ : Nat} {s0 : State} (q x : Nat) (s : State)  (hk : Keeps μ s0 s) (hm : Within 0x104f21 μ := by exact within_trans rfl (by assumption)) : Keeps μ s0 (writeRun q x s) := by
  unfold writeRun
  try dsimp only
  repeat' first
    | with_reducible assumption
    | exact within_trans rfl hm
    | with_reducible apply armOp_keeps
    | with_reducible apply selectOpHead_keeps
    | with_reducible apply programPrimary_keeps
    | with_reducible apply programTrailing_keeps
    | with_reducible apply keeps_ite
    | split

theorem tailVerify_keeps {μ : Nat} {s0 : State} (q x : Nat) (s : State)  (hk : Keeps μ s0 s) (hm : Within 0x104f21 μ := by exact within_trans rfl (by assumption)) : Keeps μ s0 (tailVerify q x s) := by
  unfold tailVerify
  try dsimp only
  repeat' first
    | with_reducible assumption
    | exact within_trans rfl hm
    | with_reducible apply modCtx_keeps
    | with_reducible apply armOp_keeps
    | with_reducible apply selectOpHead_keeps
    | with_reducible apply programTrailing_keeps
    | with_reducible apply keeps_ite
    | split
    | exact fun _ h => h
    | exact fun _ h => by simpa [Tsq.sized, Ctx.sized, Srv.sized, NetState.sized, AngState.sized, modAt_length, modAt_all] using h
    | (intro)
    | with_reducible apply keeps_mk
    | with_reducible apply And.intro
    | exact Or.inl (within_bit _ rfl hm)
    | exact Or.inr rfl
    | assumption

theorem prebias_keeps {μ : Nat} {s0 : State} (q x : Nat) (s : State)  (hk : Keeps μ s0 s) (hm : Within 0x104f21 μ := by exact within_trans rfl (by assumption)) : Keeps μ s0 (prebias q x s) := by
  unfold prebias
  try dsimp only
  repeat' first
    | with_reducible assumption
    | exact within_trans rfl hm
    | with_reducible apply armOp_keeps
    | with_reducible apply selectOpHead_keeps
    | with_reducible apply keeps_ite
    | split

theorem seekOp_keeps {μ : Nat} {s0 : State} (q : Nat) (s : State)  (hk : Keeps μ s0 s) (hm : Within 0x104520 μ := by exact within_trans rfl (by assumption)) : Keeps μ s0 (seekOp q s) := by
  unfold seekOp
  try dsimp only
  repeat' first
    | with_reducible assumption
    | exact within_trans rfl hm
    | with_reducible apply svgo_keeps
    | with_reducible apply keeps_ite
    | split

theorem retain_keeps {μ : Nat} {s0 : State} (l : List Nat) (s : State)  (hk : Keeps μ s0 s) (hm : Within 0x80060 μ := by exact within_trans rfl (by assumption)) : Keeps μ s0 (retain l s) := by
  unfold retain
  try dsimp only
  repeat' first
    | (with_reducible apply keeps_foldl; intro s _ hk)
    | with_reducible assumption
    | exact within_trans rfl hm
    | with_reducible apply setOwner_keeps
    | with_reducible apply keeps_ite
    | split
    | (intro)

theorem reloadStart_keeps {μ : Nat} {s0 : State} (q x : Nat) (s : State)  (hk : Keeps μ s0 s) (hm : Within 0x104f21 μ := by exact within_trans rfl (by assumption)) : Keeps μ s0 (reloadStart q x s) := by
  unfold reloadStart
  try dsimp only
  repeat' first
    | with_reducible assumption
    | exact within_trans rfl hm
    | with_reducible apply armOp_keeps
    | with_reducible apply selectOpHead_keeps
    | with_reducible apply programPrimary_keeps
    | with_reducible apply programTrailing_keeps
    | with_reducible apply keeps_ite
    | split

theorem keepReloaded_keeps {μ : Nat} {s0 : State} (q x : Nat) (s : State)  (hk : Keeps μ s0 s) (hm : Within 0x80a0160 μ := by exact within_trans rfl (by assumption)) : Keeps μ s0 (keepReloaded q x s) := by
  unfold keepReloaded
  try dsimp only
  repeat' first
    | with_reducible assumption
    | exact within_trans rfl hm
    | with_reducible apply freeAll_keeps
    | with_reducible apply modWork_keeps
    | with_reducible apply retain_keeps
    | (intro)
    | with_reducible apply keeps_mk
    | with_reducible apply And.intro
    | exact Or.inl (within_bit _ rfl hm)
    | exact Or.inr rfl

theorem reloadOk_keeps {μ : Nat} {s0 : State} (z : Nat) (s : State)  (hk : Keeps μ s0 s) (hm : Within 0x20160 μ := by exact within_trans rfl (by assumption)) : Keeps μ s0 (reloadOk z s) := by
  unfold reloadOk
  try dsimp only
  repeat' first
    | with_reducible assumption
    | exact within_trans rfl hm
    | with_reducible apply wrapInc_keeps
    | with_reducible apply evt_keeps
    | with_reducible apply setTailu_keeps
    | with_reducible apply modWork_keeps
    | (intro)
    | with_reducible apply keeps_mk
    | with_reducible apply And.intro
    | exact Or.inl (within_bit _ rfl hm)
    | exact Or.inr rfl

theorem reloadFails_keeps {μ : Nat} {s0 : State} (z : Nat) (s : State)  (hk : Keeps μ s0 s) (hm : Within 0x64560 μ := by exact within_trans rfl (by assumption)) : Keeps μ s0 (reloadFails z s) := by
  unfold reloadFails
  try dsimp only
  repeat' first
    | with_reducible assumption
    | exact within_trans rfl hm
    | with_reducible apply evt_keeps
    | with_reducible apply toFirmware_keeps
    | with_reducible apply modWork_keeps
    | with_reducible apply setZoneState_keeps
    | split
    | (intro)
    | with_reducible apply keeps_mk
    | with_reducible apply And.intro
    | exact Or.inl (within_bit _ rfl hm)
    | exact Or.inr rfl

theorem reloadFinish_keeps {μ : Nat} {s0 : State} (q x : Nat) (s : State)  (hk : Keeps μ s0 s) (hm : Within 0x80e4560 μ := by exact within_trans rfl (by assumption)) : Keeps μ s0 (reloadFinish q x s) := by
  unfold reloadFinish
  try dsimp only
  repeat' first
    | with_reducible assumption
    | exact within_trans rfl hm
    | with_reducible apply modWork_keeps
    | with_reducible apply keepReloaded_keeps
    | with_reducible apply reloadOk_keeps
    | with_reducible apply reloadFails_keeps
    | with_reducible apply keeps_ite
    | split
    | (intro)
    | with_reducible apply keeps_mk
    | with_reducible apply And.intro
    | exact Or.inl (within_bit _ rfl hm)
    | exact Or.inr rfl

theorem tailReload_keeps {μ : Nat} {s0 : State} (q x : Nat) (step : ReloadStep) (s : State)  (hk : Keeps μ s0 s) (hm : Within 0x81e4f61 μ := by exact within_trans rfl (by assumption)) : Keeps μ s0 (tailReload q x step s) := by
  unfold tailReload
  try dsimp only
  repeat' first
    | with_reducible assumption
    | exact within_trans rfl hm
    | with_reducible apply reloadStart_keeps
    | with_reducible apply reloadFinish_keeps
    | with_reducible apply keeps_ite
    | split
    | with_reducible apply keeps_mk
    | with_reducible apply And.intro
    | exact Or.inl (within_bit _ rfl hm)
    | exact Or.inr rfl

theorem scanStart_keeps {μ : Nat} {s0 : State} (q x : Nat) (s : State)  (hk : Keeps μ s0 s) (hm : Within 0x124f21 μ := by exact within_trans rfl (by assumption)) : Keeps μ s0 (scanStart q x s) := by
  unfold scanStart
  try dsimp only
  repeat' first
    | with_reducible assumption
    | exact within_trans rfl hm
    | with_reducible apply setBit_keeps
    | with_reducible apply modZtb_keeps
    | with_reducible apply armOp_keeps
    | with_reducible apply selectOpHead_keeps
    | with_reducible apply programPrimary_keeps
    | (intro)
    | with_reducible apply keeps_mk
    | with_reducible apply And.intro
    | exact Or.inl (within_bit _ rfl hm)
    | exact Or.inr rfl

theorem ptlogPut_keeps {μ : Nat} {s0 : State} (lba : Nat) (zoned : Bool) (c : Nat) (s : State)  (hk : Keeps μ s0 s) (hm : Within 0x20020 μ := by exact within_trans rfl (by assumption)) : Keeps μ s0 (ptlogPut lba zoned c s) := by
  unfold ptlogPut
  try dsimp only
  repeat' first
    | with_reducible assumption
    | exact within_trans rfl hm
    | with_reducible apply setBit_keeps
    | with_reducible apply modZtb_keeps
    | with_reducible apply keeps_ite
    | split
    | (intro)
    | with_reducible apply keeps_mk
    | with_reducible apply And.intro
    | exact Or.inl (within_bit _ rfl hm)
    | exact Or.inr rfl

theorem scanSector_keeps {μ : Nat} {s0 : State} (q x i : Nat) (recovered : Bool) (job : Nat) (s : State)  (hk : Keeps μ s0 s) (hm : Within 0x80a0160 μ := by exact within_trans rfl (by assumption)) : Keeps μ s0 (scanSector q x i recovered job s) := by
  unfold scanSector
  try dsimp only
  repeat' first
    | with_reducible assumption
    | exact within_trans rfl hm
    | with_reducible apply satInc_keeps
    | with_reducible apply evt_keeps
    | with_reducible apply freeAll_keeps
    | with_reducible apply ptlogPut_keeps
    | with_reducible apply keeps_ite
    | split

theorem scanFinish_keeps {μ : Nat} {s0 : State} (s : State)  (hk : Keeps μ s0 s) (hm : Within 0x20120 μ := by exact within_trans rfl (by assumption)) : Keeps μ s0 (scanFinish s) := by
  unfold scanFinish
  try dsimp only
  repeat' first
    | with_reducible assumption
    | exact within_trans rfl hm
    | with_reducible apply wr64_keeps
    | with_reducible apply modZtb_keeps
    | with_reducible apply patrolTo_keeps
    | with_reducible apply patrolConv_keeps
    | with_reducible apply keeps_ite
    | split
    | (intro)
    | with_reducible apply keeps_mk
    | with_reducible apply And.intro
    | exact Or.inl (within_bit _ rfl hm)
    | exact Or.inr rfl

theorem scanOp_keeps {μ : Nat} {s0 : State} (q x : Nat) (step : ScanStep) (s : State)  (hk : Keeps μ s0 s) (hm : Within 0x81a4f61 μ := by exact within_trans rfl (by assumption)) : Keeps μ s0 (scanOp q x step s) := by
  unfold scanOp
  try dsimp only
  repeat' first
    | with_reducible assumption
    | exact within_trans rfl hm
    | with_reducible apply scanStart_keeps
    | with_reducible apply scanSector_keeps
    | with_reducible apply scanFinish_keeps
    | with_reducible apply keeps_ite
    | split
    | with_reducible apply keeps_mk
    | with_reducible apply And.intro
    | exact Or.inl (within_bit _ rfl hm)
    | exact Or.inr rfl

end Sys2Proof.Machine
end

