-- ==== Sys2Proof/Laws/KeepsArchival.lean ====
section
/-! SUPPORT. The operations of Archival.lean keep the queue and the canonical stores. -/

set_option Elab.async false

namespace Sys2Proof.Machine

theorem ptlogPop_keeps {μ : Nat} {s0 : State} (s : State)  (hk : Keeps μ s0 s) (hm : Within 0x20018 μ := by exact within_trans rfl (by assumption)) : Keeps μ s0 (ptlogPop s) := by
  unfold ptlogPop
  try dsimp only
  repeat' first
    | with_reducible assumption
    | exact within_trans rfl hm
    | with_reducible apply answer_keeps
    | with_reducible apply modZtb_keeps
    | split
    | (intro)
    | with_reducible apply keeps_mk
    | with_reducible apply And.intro
    | exact Or.inl (within_bit _ rfl hm)
    | exact Or.inr rfl

theorem rewrapGo_keeps {μ : Nat} {s0 : State} (s : State)  (hk : Keeps μ s0 s) (hm : Within 0x200000120 μ := by exact within_trans rfl (by assumption)) : Keeps μ s0 (rewrapGo s) := by
  unfold rewrapGo
  try dsimp only
  repeat' first
    | with_reducible assumption
    | exact within_trans rfl hm
    | with_reducible apply setF_keeps
    | with_reducible apply wrN_keeps
    | with_reducible apply modArc_keeps
    | with_reducible apply rwJournal_keeps
    | with_reducible apply keeps_ite
    | split
    | (intro)
    | with_reducible apply keeps_mk
    | with_reducible apply And.intro
    | exact Or.inl (within_bit _ rfl hm)
    | exact Or.inr rfl

theorem rewrapAbort_keeps {μ : Nat} {s0 : State} (s : State)  (hk : Keeps μ s0 s) (hm : Within 0x200000120 μ := by exact within_trans rfl (by assumption)) : Keeps μ s0 (rewrapAbort s) := by
  unfold rewrapAbort
  try dsimp only
  repeat' first
    | with_reducible assumption
    | exact within_trans rfl hm
    | with_reducible apply rwFail_keeps
    | with_reducible apply keeps_ite
    | split
    | with_reducible apply keeps_mk
    | with_reducible apply And.intro
    | exact Or.inl (within_bit _ rfl hm)
    | exact Or.inr rfl

theorem rwEnds_keeps {μ : Nat} {s0 : State} (s : State)  (hk : Keeps μ s0 s) (hm : Within 0x200000020 μ := by exact within_trans rfl (by assumption)) : Keeps μ s0 (rwEnds s) := by
  unfold rwEnds
  try dsimp only
  repeat' first
    | with_reducible assumption
    | exact within_trans rfl hm
    | with_reducible apply setF_keeps
    | with_reducible apply setBit_keeps
    | with_reducible apply modArc_keeps
    | (intro)
    | with_reducible apply keeps_mk
    | with_reducible apply And.intro
    | exact Or.inl (within_bit _ rfl hm)
    | exact Or.inr rfl

theorem rwSettle_keeps {μ : Nat} {s0 : State} (s : State)  (hk : Keeps μ s0 s) (hm : Within 0x2080a4560 μ := by exact within_trans rfl (by assumption)) : Keeps μ s0 (rwSettle s) := by
  unfold rwSettle
  try dsimp only
  repeat' first
    | with_reducible assumption
    | exact within_trans rfl hm
    | with_reducible apply setF_keeps
    | with_reducible apply wrapInc_keeps
    | with_reducible apply evt_keeps
    | with_reducible apply resetZone_keeps
    | with_reducible apply rwEnds_keeps
    | with_reducible apply keeps_ite
    | split
    | with_reducible apply keeps_mk
    | with_reducible apply And.intro
    | exact Or.inl (within_bit _ rfl hm)
    | exact Or.inr rfl

theorem rwReserve_keeps {μ : Nat} {s0 : State} (r : RewrapRun) (s : State)  (hk : Keeps μ s0 s) (hm : Within 0x24560 μ := by exact within_trans rfl (by assumption)) : Keeps μ s0 (rwReserve r s) := by
  unfold rwReserve
  try dsimp only
  repeat' first
    | with_reducible assumption
    | exact within_trans rfl hm
    | with_reducible apply setF_keeps
    | with_reducible apply sramPut16_keeps
    | with_reducible apply enterZoneState_keeps

theorem rwAck_keeps {μ : Nat} {s0 : State} (s : State)  (hk : Keeps μ s0 s) (hm : Within 0x2080a4560 μ := by exact within_trans rfl (by assumption)) : Keeps μ s0 (rwAck s) := by
  unfold rwAck
  try dsimp only
  repeat' first
    | with_reducible assumption
    | exact within_trans rfl hm
    | with_reducible apply modRewrap_keeps
    | with_reducible apply rwJournal_keeps
    | with_reducible apply rwSettle_keeps
    | with_reducible apply rwReserve_keeps
    | split
    | (intro)
    | with_reducible apply keeps_mk
    | with_reducible apply And.intro
    | exact Or.inl (within_bit _ rfl hm)
    | exact Or.inr rfl

theorem copyEnd_keeps {μ : Nat} {s0 : State} (s : State)  (hk : Keeps μ s0 s) (hm : Within 0x80a4560 μ := by exact within_trans rfl (by assumption)) : Keeps μ s0 (copyEnd s) := by
  unfold copyEnd
  try dsimp only
  repeat' first
    | with_reducible assumption
    | exact within_trans rfl hm
    | with_reducible apply rwJournal_keeps
    | with_reducible apply applyState_keeps
    | with_reducible apply keeps_ite
    | split
    | with_reducible apply keeps_mk
    | with_reducible apply And.intro
    | exact Or.inl (within_bit _ rfl hm)
    | exact Or.inr rfl

theorem peerSend_keeps {μ : Nat} {s0 : State} (o : PeerOp) (s : State)  (hk : Keeps μ s0 s) (hm : Within 0x200000000 μ := by exact within_trans rfl (by assumption)) : Keeps μ s0 (peerSend o s) := by
  unfold peerSend
  try dsimp only
  repeat' first
    | with_reducible assumption
    | exact within_trans rfl hm
    | with_reducible apply modArc_keeps
    | (intro)
    | with_reducible apply keeps_mk
    | with_reducible apply And.intro
    | exact Or.inl (within_bit _ rfl hm)
    | exact Or.inr rfl

theorem sendAppends_keeps {μ : Nat} {s0 : State}  (x0 : Nat) (x1 : StreamEntry) (s : State) (hk : Keeps μ s0 s) (hm : Within 0x200000000 μ := by exact within_trans rfl (by assumption)) : Keeps μ s0 (sendAppends x0 x1 s).2 := by
  induction x0 generalizing x1 s with
  | zero =>
    unfold sendAppends
    try dsimp only
    repeat' first
      | with_reducible assumption
      | exact within_trans rfl hm
      | with_reducible apply ih
      | with_reducible apply peerSend_keeps
      | split
      | with_reducible apply keeps_mk
      | with_reducible apply And.intro
      | exact Or.inl (within_bit _ rfl hm)
      | exact Or.inr rfl
  | succ k ih =>
    unfold sendAppends
    try dsimp only
    repeat' first
      | with_reducible assumption
      | exact within_trans rfl hm
      | with_reducible apply ih
      | with_reducible apply peerSend_keeps
      | split
      | with_reducible apply keeps_mk
      | with_reducible apply And.intro
      | exact Or.inl (within_bit _ rfl hm)
      | exact Or.inr rfl

theorem entryGoes_keeps {μ : Nat} {s0 : State} (x : StreamEntry) (s : State)  (hk : Keeps μ s0 s) (hm : Within 0x208080160 μ := by exact within_trans rfl (by assumption)) : Keeps μ s0 (entryGoes x s) := by
  unfold entryGoes
  try dsimp only
  repeat' first
    | with_reducible assumption
    | exact within_trans rfl hm
    | with_reducible apply modEntry_keeps
    | with_reducible apply entryStops_keeps
    | with_reducible apply peerSend_keeps
    | with_reducible apply sendAppends_keeps
    | with_reducible apply keeps_ite
    | split
    | refine keeps_snd (by with_reducible assumption) ?_
    | (intro)
    | with_reducible apply keeps_mk
    | with_reducible apply And.intro
    | exact Or.inl (within_bit _ rfl hm)
    | exact Or.inr rfl

theorem streamGoes_keeps {μ : Nat} {s0 : State} (s : State)  (hk : Keeps μ s0 s) (hm : Within 0x208080160 μ := by exact within_trans rfl (by assumption)) : Keeps μ s0 (streamGoes s) := by
  unfold streamGoes
  try dsimp only
  repeat' first
    | (with_reducible apply keeps_foldl; intro s _ hk)
    | with_reducible assumption
    | exact within_trans rfl hm
    | with_reducible apply entryGoes_keeps
    | (intro)

theorem entryRestarts_keeps {μ : Nat} {s0 : State} (x : StreamEntry) (s : State)  (hk : Keeps μ s0 s) (hm : Within 0x208080160 μ := by exact within_trans rfl (by assumption)) : Keeps μ s0 (entryRestarts x s) := by
  unfold entryRestarts
  try dsimp only
  repeat' first
    | with_reducible assumption
    | exact within_trans rfl hm
    | with_reducible apply modEntry_keeps
    | with_reducible apply dropSectors_keeps
    | with_reducible apply peerSend_keeps
    | (intro)
    | with_reducible apply keeps_mk
    | with_reducible apply And.intro
    | exact Or.inl (within_bit _ rfl hm)
    | exact Or.inr rfl

theorem streamResume_keeps {μ : Nat} {s0 : State} (s : State)  (hk : Keeps μ s0 s) (hm : Within 0x208080160 μ := by exact within_trans rfl (by assumption)) : Keeps μ s0 (streamResume s) := by
  unfold streamResume
  try dsimp only
  repeat' first
    | (with_reducible apply keeps_foldl; intro s _ hk)
    | with_reducible assumption
    | exact within_trans rfl hm
    | with_reducible apply modArc_keeps
    | with_reducible apply peerSend_keeps
    | with_reducible apply streamGoes_keeps
    | with_reducible apply entryRestarts_keeps
    | (intro)
    | with_reducible apply keeps_mk
    | with_reducible apply And.intro
    | exact Or.inl (within_bit _ rfl hm)
    | exact Or.inr rfl

theorem streamSettle_keeps {μ : Nat} {s0 : State} (s : State)  (hk : Keeps μ s0 s) (hm : Within 0x208080160 μ := by exact within_trans rfl (by assumption)) : Keeps μ s0 (streamSettle s) := by
  unfold streamSettle
  try dsimp only
  repeat' first
    | with_reducible assumption
    | exact within_trans rfl hm
    | with_reducible apply streamResume_keeps
    | with_reducible apply keeps_ite
    | split

theorem streamStart_keeps {μ : Nat} {s0 : State} (s : State)  (hk : Keeps μ s0 s) (hm : Within 0x208080160 μ := by exact within_trans rfl (by assumption)) : Keeps μ s0 (streamStart s) := by
  unfold streamStart
  try dsimp only
  repeat' first
    | with_reducible assumption
    | exact within_trans rfl hm
    | with_reducible apply modArc_keeps
    | with_reducible apply streamSettle_keeps
    | with_reducible apply keeps_ite
    | split
    | (intro)
    | with_reducible apply keeps_mk
    | with_reducible apply And.intro
    | exact Or.inl (within_bit _ rfl hm)
    | exact Or.inr rfl

theorem streamPause_keeps {μ : Nat} {s0 : State} (s : State)  (hk : Keeps μ s0 s) (hm : Within 0x200000000 μ := by exact within_trans rfl (by assumption)) : Keeps μ s0 (streamPause s) := by
  unfold streamPause
  try dsimp only
  repeat' first
    | with_reducible assumption
    | exact within_trans rfl hm
    | with_reducible apply modArc_keeps
    | with_reducible apply keeps_ite
    | split
    | (intro)
    | with_reducible apply keeps_mk
    | with_reducible apply And.intro
    | exact Or.inl (within_bit _ rfl hm)
    | exact Or.inr rfl

theorem streamAbort_keeps {μ : Nat} {s0 : State} (s : State)  (hk : Keeps μ s0 s) (hm : Within 0x208080160 μ := by exact within_trans rfl (by assumption)) : Keeps μ s0 (streamAbort s) := by
  unfold streamAbort
  try dsimp only
  repeat' first
    | (with_reducible apply keeps_foldl; intro s _ hk)
    | with_reducible assumption
    | exact within_trans rfl hm
    | with_reducible apply entryStops_keeps
    | with_reducible apply streamPause_keeps
    | (intro)

theorem streamEntryStart_keeps {μ : Nat} {s0 : State} (peerEmpty : Bool) (capacity zasl : Nat) (s : State)  (hk : Keeps μ s0 s) (hm : Within 0x208080160 μ := by exact within_trans rfl (by assumption)) : Keeps μ s0 (streamEntryStart peerEmpty capacity zasl s) := by
  unfold streamEntryStart
  try dsimp only
  repeat' first
    | with_reducible assumption
    | exact within_trans rfl hm
    | with_reducible apply modArc_keeps
    | with_reducible apply setEntryState_keeps
    | with_reducible apply entryGoes_keeps
    | with_reducible apply keeps_ite
    | split
    | (intro)
    | with_reducible apply keeps_mk
    | with_reducible apply And.intro
    | exact Or.inl (within_bit _ rfl hm)
    | exact Or.inr rfl

theorem appendDone_keeps {μ : Nat} {s0 : State} (x : StreamEntry) (o n : Nat) (s : State)  (hk : Keeps μ s0 s) (hm : Within 0x208080160 μ := by exact within_trans rfl (by assumption)) : Keeps μ s0 (appendDone x o n s) := by
  unfold appendDone
  try dsimp only
  repeat' first
    | with_reducible assumption
    | exact within_trans rfl hm
    | with_reducible apply modArc_keeps
    | with_reducible apply freeAll_keeps
    | with_reducible apply modEntry_keeps
    | with_reducible apply entryGoes_keeps
    | (intro)
    | with_reducible apply keeps_mk
    | with_reducible apply And.intro
    | exact Or.inl (within_bit _ rfl hm)
    | exact Or.inr rfl

theorem appendMisplaced_keeps {μ : Nat} {s0 : State} (x : StreamEntry) (s : State)  (hk : Keeps μ s0 s) (hm : Within 0x208080160 μ := by exact within_trans rfl (by assumption)) : Keeps μ s0 (appendMisplaced x s) := by
  unfold appendMisplaced
  try dsimp only
  repeat' first
    | with_reducible assumption
    | exact within_trans rfl hm
    | with_reducible apply entryStops_keeps
    | with_reducible apply entryRestarts_keeps
    | with_reducible apply keeps_ite
    | split
    | with_reducible apply keeps_mk
    | with_reducible apply And.intro
    | exact Or.inl (within_bit _ rfl hm)
    | exact Or.inr rfl

theorem peerCompletion_keeps {μ : Nat} {s0 : State} (e : Nat) (flush : Bool) (o status lba : Nat) (s : State)  (hk : Keeps μ s0 s) (hm : Within 0x208080160 μ := by exact within_trans rfl (by assumption)) : Keeps μ s0 (peerCompletion e flush o status lba s) := by
  unfold peerCompletion
  try dsimp only
  repeat' first
    | with_reducible assumption
    | exact within_trans rfl hm
    | with_reducible apply entryStops_keeps
    | with_reducible apply appendDone_keeps
    | with_reducible apply appendMisplaced_keeps
    | with_reducible apply keeps_ite
    | split
    | (intro)
    | with_reducible apply keeps_mk
    | with_reducible apply And.intro
    | exact Or.inl (within_bit _ rfl hm)
    | exact Or.inr rfl

theorem rwSectorGood_keeps {μ : Nat} {s0 : State} (r : RewrapRun) (b k : Nat) (s : State)  (hk : Keeps μ s0 s) (hm : Within 0x248080160 μ := by exact within_trans rfl (by assumption)) : Keeps μ s0 (rwSectorGood r b k s) := by
  unfold rwSectorGood
  try dsimp only
  repeat' first
    | with_reducible assumption
    | exact within_trans rfl hm
    | with_reducible apply sramPut64_keeps
    | with_reducible apply sramPut32_keeps
    | with_reducible apply freeAll_keeps
    | with_reducible apply issueSector_keeps
    | with_reducible apply modRewrap_keeps
    | with_reducible apply keeps_ite
    | split
    | (intro)
    | with_reducible apply keeps_mk
    | with_reducible apply And.intro
    | exact Or.inl (within_bit _ rfl hm)
    | exact Or.inr rfl

theorem rwAssign_keeps {μ : Nat} {s0 : State} (r : RewrapRun) (b : Nat) (s : State)  (hk : Keeps μ s0 s) (hm : Within 0x2000a0060 μ := by exact within_trans rfl (by assumption)) : Keeps μ s0 (rwAssign r b s) := by
  unfold rwAssign
  try dsimp only
  repeat' first
    | with_reducible assumption
    | exact within_trans rfl hm
    | with_reducible apply setOwner_keeps
    | with_reducible apply modRewrap_keeps
    | with_reducible apply modWork_keeps
    | (intro)
    | with_reducible apply keeps_mk
    | with_reducible apply And.intro
    | exact Or.inl (within_bit _ rfl hm)
    | exact Or.inr rfl

theorem rwDecEnds_keeps {μ : Nat} {s0 : State} (r : RewrapRun) (b k : Nat) (ok : Bool) (s : State)  (hk : Keeps μ s0 s) (hm : Within 0x248080160 μ := by exact within_trans rfl (by assumption)) : Keeps μ s0 (rwDecEnds r b k ok s) := by
  unfold rwDecEnds
  try dsimp only
  repeat' first
    | with_reducible assumption
    | exact within_trans rfl hm
    | with_reducible apply freeAll_keeps
    | with_reducible apply modRewrap_keeps
    | with_reducible apply rwReadFails_keeps
    | with_reducible apply rwSectorGood_keeps
    | with_reducible apply keeps_ite
    | split
    | (intro)
    | with_reducible apply keeps_mk
    | with_reducible apply And.intro
    | exact Or.inl (within_bit _ rfl hm)
    | exact Or.inr rfl

theorem streamDecEnds_keeps {μ : Nat} {s0 : State} (x : StreamEntry) (b k : Nat) (ok : Bool) (s : State)  (hk : Keeps μ s0 s) (hm : Within 0x208080160 μ := by exact within_trans rfl (by assumption)) : Keeps μ s0 (streamDecEnds x b k ok s) := by
  unfold streamDecEnds
  try dsimp only
  repeat' first
    | with_reducible assumption
    | exact within_trans rfl hm
    | with_reducible apply freeAll_keeps
    | with_reducible apply modEntry_keeps
    | with_reducible apply streamReadFails_keeps
    | with_reducible apply entryGoes_keeps
    | with_reducible apply keeps_ite
    | split
    | (intro)
    | with_reducible apply keeps_mk
    | with_reducible apply And.intro
    | exact Or.inl (within_bit _ rfl hm)
    | exact Or.inr rfl

theorem copyJobEnds_keeps {μ : Nat} {s0 : State} (b op : Nat) (ok : Bool) (s : State)  (hk : Keeps μ s0 s) (hm : Within 0x2480a0160 μ := by exact within_trans rfl (by assumption)) : Keeps μ s0 (copyJobEnds b op ok s) := by
  unfold copyJobEnds
  try dsimp only
  repeat' first
    | with_reducible assumption
    | exact within_trans rfl hm
    | with_reducible apply modArc_keeps
    | with_reducible apply freeAll_keeps
    | with_reducible apply modRewrap_keeps
    | with_reducible apply rwFailAt_keeps
    | with_reducible apply rwAssign_keeps
    | with_reducible apply rwDecEnds_keeps
    | with_reducible apply streamDecEnds_keeps
    | with_reducible apply keeps_ite
    | split
    | (intro)
    | with_reducible apply keeps_mk
    | with_reducible apply And.intro
    | exact Or.inl (within_bit _ rfl hm)
    | exact Or.inr rfl

end Sys2Proof.Machine
end

