-- ==== Sys2Proof/Laws/KeepsServo.lean ====
section
/-! SUPPORT. The operations of Servo.lean keep the queue and the canonical stores. -/

set_option Elab.async false

namespace Sys2Proof.Machine

theorem modSlotSrv_keeps {μ : Nat} {s0 : State} (s : State) (a k : Nat) (f : SrvSlot → SrvSlot)  (hk : Keeps μ s0 s) (hm : Within 0x100000 μ := by exact within_trans rfl (by assumption)) : Keeps μ s0 (modSlotSrv s a k f) := by
  unfold modSlotSrv
  try dsimp only
  repeat' first
    | with_reducible assumption
    | exact within_trans rfl hm
    | with_reducible apply modSrv_keeps
    | exact fun _ h => h
    | exact fun _ h => by simpa [Tsq.sized, Ctx.sized, Srv.sized, NetState.sized, AngState.sized, modAt_length, modAt_all] using h
    | (intro)
    | with_reducible apply keeps_mk
    | with_reducible apply And.intro
    | exact Or.inl (within_bit _ rfl hm)
    | exact Or.inr rfl
    | assumption

theorem updateReady_keeps {μ : Nat} {s0 : State} (a : Nat) (s : State)  (hk : Keeps μ s0 s) (hm : Within 0x4520 μ := by exact within_trans rfl (by assumption)) : Keeps μ s0 (updateReady a s) := by
  unfold updateReady
  try dsimp only
  repeat' first
    | (with_reducible apply keeps_foldl; intro s _ hk)
    | with_reducible assumption
    | exact within_trans rfl hm
    | with_reducible apply setBit_keeps
    | with_reducible apply sluAll_keeps
    | (intro)

theorem injEnds_keeps {μ : Nat} {s0 : State} (a r : Nat) (s : State)  (hk : Keeps μ s0 s) (hm : Within 0x504520 μ := by exact within_trans rfl (by assumption)) : Keeps μ s0 (injEnds a r s) := by
  unfold injEnds
  try dsimp only
  repeat' first
    | with_reducible assumption
    | exact within_trans rfl hm
    | with_reducible apply setF_keeps
    | with_reducible apply setBit_keeps
    | with_reducible apply evt_keeps
    | with_reducible apply modSrv_keeps
    | with_reducible apply modSpn_keeps
    | with_reducible apply updateReady_keeps
    | with_reducible apply keeps_ite
    | split
    | exact fun _ h => h
    | exact fun _ h => by simpa [Tsq.sized, Ctx.sized, Srv.sized, NetState.sized, AngState.sized, modAt_length, modAt_all] using h
    | (intro)
    | with_reducible apply keeps_mk
    | with_reducible apply And.intro
    | exact Or.inl (within_bit _ rfl hm)
    | exact Or.inr rfl
    | assumption

theorem injCheck_keeps {μ : Nat} {s0 : State} (a : Nat) (s : State)  (hk : Keeps μ s0 s) (hm : Within 0x504520 μ := by exact within_trans rfl (by assumption)) : Keeps μ s0 (injCheck a s) := by
  unfold injCheck
  try dsimp only
  repeat' first
    | with_reducible assumption
    | exact within_trans rfl hm
    | with_reducible apply injEnds_keeps
    | with_reducible apply keeps_ite
    | split
    | with_reducible apply keeps_mk
    | with_reducible apply And.intro
    | exact Or.inl (within_bit _ rfl hm)
    | exact Or.inr rfl

theorem injNext_keeps {μ : Nat} {s0 : State} (a : Nat) (s : State)  (hk : Keeps μ s0 s) (hm : Within 0x500020 μ := by exact within_trans rfl (by assumption)) : Keeps μ s0 (injNext a s) := by
  unfold injNext
  try dsimp only
  repeat' first
    | with_reducible assumption
    | exact within_trans rfl hm
    | with_reducible apply setF_keeps
    | with_reducible apply modSrv_keeps
    | with_reducible apply modSpn_keeps
    | with_reducible apply keeps_ite
    | split
    | exact fun _ h => h
    | exact fun _ h => by simpa [Tsq.sized, Ctx.sized, Srv.sized, NetState.sized, AngState.sized, modAt_length, modAt_all] using h
    | (intro)
    | with_reducible apply keeps_mk
    | with_reducible apply And.intro
    | exact Or.inl (within_bit _ rfl hm)
    | exact Or.inr rfl
    | assumption

theorem injGo_keeps {μ : Nat} {s0 : State} (a v : Nat) (s : State)  (hk : Keeps μ s0 s) (hm : Within 0x104521 μ := by exact within_trans rfl (by assumption)) : Keeps μ s0 (injGo a v s) := by
  unfold injGo
  try dsimp only
  repeat' first
    | with_reducible assumption
    | exact within_trans rfl hm
    | with_reducible apply setF_keeps
    | with_reducible apply setBit_keeps
    | with_reducible apply wrN_keeps
    | with_reducible apply plainWrite_keeps
    | with_reducible apply drawFree_keeps
    | with_reducible apply modSrv_keeps
    | with_reducible apply captureStarts_keeps
    | with_reducible apply updateReady_keeps
    | with_reducible apply keeps_ite
    | split
    | refine keeps_snd (by with_reducible assumption) ?_
    | exact fun _ h => h
    | exact fun _ h => by simpa [Tsq.sized, Ctx.sized, Srv.sized, NetState.sized, AngState.sized, modAt_length, modAt_all] using h
    | (intro)
    | with_reducible apply keeps_mk
    | with_reducible apply And.intro
    | exact Or.inl (within_bit _ rfl hm)
    | exact Or.inr rfl
    | assumption

theorem injStop_keeps {μ : Nat} {s0 : State} (a : Nat) (s : State)  (hk : Keeps μ s0 s) (hm : Within 0x100000 μ := by exact within_trans rfl (by assumption)) : Keeps μ s0 (injStop a s) := by
  unfold injStop
  try dsimp only
  repeat' first
    | with_reducible assumption
    | exact within_trans rfl hm
    | with_reducible apply modSrv_keeps
    | exact fun _ h => h
    | exact fun _ h => by simpa [Tsq.sized, Ctx.sized, Srv.sized, NetState.sized, AngState.sized, modAt_length, modAt_all] using h
    | (intro)
    | with_reducible apply keeps_mk
    | with_reducible apply And.intro
    | exact Or.inl (within_bit _ rfl hm)
    | exact Or.inr rfl
    | assumption

theorem captureEnds_keeps {μ : Nat} {s0 : State} (a : Nat) (s : State)  (hk : Keeps μ s0 s) (hm : Within 0x100120 μ := by exact within_trans rfl (by assumption)) : Keeps μ s0 (captureEnds a s) := by
  unfold captureEnds
  try dsimp only
  repeat' first
    | with_reducible assumption
    | exact within_trans rfl hm
    | with_reducible apply setBit_keeps
    | with_reducible apply evt_keeps
    | with_reducible apply modSrv_keeps
    | exact fun _ h => h
    | exact fun _ h => by simpa [Tsq.sized, Ctx.sized, Srv.sized, NetState.sized, AngState.sized, modAt_length, modAt_all] using h
    | (intro)
    | with_reducible apply keeps_mk
    | with_reducible apply And.intro
    | exact Or.inl (within_bit _ rfl hm)
    | exact Or.inr rfl
    | assumption

theorem captureStore_keeps {μ : Nat} {s0 : State} (a : Nat) (f : Nat → Rat) (s : State)  (hk : Keeps μ s0 s) (hm : Within 0x100020 μ := by exact within_trans rfl (by assumption)) : Keeps μ s0 (captureStore a f s) := by
  unfold captureStore
  try dsimp only
  repeat' first
    | (with_reducible apply keeps_foldl; intro s _ hk)
    | with_reducible assumption
    | exact within_trans rfl hm
    | with_reducible apply setF_keeps
    | with_reducible apply setBit_keeps
    | with_reducible apply modSrv_keeps
    | with_reducible apply keeps_ite
    | split
    | exact fun _ h => h
    | exact fun _ h => by simpa [Tsq.sized, Ctx.sized, Srv.sized, NetState.sized, AngState.sized, modAt_length, modAt_all] using h
    | (intro)
    | with_reducible apply keeps_mk
    | with_reducible apply And.intro
    | exact Or.inl (within_bit _ rfl hm)
    | exact Or.inr rfl
    | assumption

theorem captureSample_keeps {μ : Nat} {s0 : State} (a : Nat) (f : Nat → Rat) (s : State)  (hk : Keeps μ s0 s) (hm : Within 0x100120 μ := by exact within_trans rfl (by assumption)) : Keeps μ s0 (captureSample a f s) := by
  unfold captureSample
  try dsimp only
  repeat' first
    | with_reducible assumption
    | exact within_trans rfl hm
    | with_reducible apply modSrv_keeps
    | with_reducible apply captureEnds_keeps
    | with_reducible apply captureStore_keeps
    | with_reducible apply keeps_ite
    | split
    | exact fun _ h => h
    | exact fun _ h => by simpa [Tsq.sized, Ctx.sized, Srv.sized, NetState.sized, AngState.sized, modAt_length, modAt_all] using h
    | (intro)
    | with_reducible apply keeps_mk
    | with_reducible apply And.intro
    | exact Or.inl (within_bit _ rfl hm)
    | exact Or.inr rfl
    | assumption

theorem captureGo_keeps {μ : Nat} {s0 : State} (a v : Nat) (s : State)  (hk : Keeps μ s0 s) (hm : Within 0x100020 μ := by exact within_trans rfl (by assumption)) : Keeps μ s0 (captureGo a v s) := by
  unfold captureGo
  try dsimp only
  repeat' first
    | with_reducible assumption
    | exact within_trans rfl hm
    | with_reducible apply setBit_keeps
    | with_reducible apply wrN_keeps
    | with_reducible apply plainWrite_keeps
    | with_reducible apply modSrv_keeps
    | with_reducible apply captureStarts_keeps
    | with_reducible apply keeps_ite
    | split
    | exact fun _ h => h
    | exact fun _ h => by simpa [Tsq.sized, Ctx.sized, Srv.sized, NetState.sized, AngState.sized, modAt_length, modAt_all] using h
    | (intro)
    | with_reducible apply keeps_mk
    | with_reducible apply And.intro
    | exact Or.inl (within_bit _ rfl hm)
    | exact Or.inr rfl
    | assumption

theorem captureStop_keeps {μ : Nat} {s0 : State} (a : Nat) (s : State)  (hk : Keeps μ s0 s) (hm : Within 0x100120 μ := by exact within_trans rfl (by assumption)) : Keeps μ s0 (captureStop a s) := by
  unfold captureStop
  try dsimp only
  repeat' first
    | with_reducible assumption
    | exact within_trans rfl hm
    | with_reducible apply captureEnds_keeps
    | with_reducible apply keeps_ite
    | split

theorem capd3Read_keeps {μ : Nat} {s0 : State} (a : Nat) (s : State)  (hk : Keeps μ s0 s) (hm : Within 0x38 μ := by exact within_trans rfl (by assumption)) : Keeps μ s0 (capd3Read a s) := by
  unfold capd3Read
  try dsimp only
  repeat' first
    | with_reducible assumption
    | exact within_trans rfl hm
    | with_reducible apply setF_keeps
    | with_reducible apply answer_keeps

theorem bankActivate_keeps {μ : Nat} {s0 : State} (a : Nat) (s : State)  (hk : Keeps μ s0 s) (hm : Within 0x120 μ := by exact within_trans rfl (by assumption)) : Keeps μ s0 (bankActivate a s) := by
  unfold bankActivate
  try dsimp only
  repeat' first
    | with_reducible assumption
    | exact within_trans rfl hm
    | with_reducible apply setBit_keeps
    | with_reducible apply wrN_keeps
    | with_reducible apply evt_keeps

theorem bankSwap_keeps {μ : Nat} {s0 : State} (a : Nat) (s : State)  (hk : Keeps μ s0 s) (hm : Within 0x120 μ := by exact within_trans rfl (by assumption)) : Keeps μ s0 (bankSwap a s) := by
  unfold bankSwap
  try dsimp only
  repeat' first
    | with_reducible assumption
    | exact within_trans rfl hm
    | with_reducible apply setBit_keeps
    | with_reducible apply evt_keeps
    | with_reducible apply keeps_ite
    | split

theorem bankCheckEnd_keeps {μ : Nat} {s0 : State} (a : Nat) (s : State)  (hk : Keeps μ s0 s) (hm : Within 0x120 μ := by exact within_trans rfl (by assumption)) : Keeps μ s0 (bankCheckEnd a s) := by
  unfold bankCheckEnd
  try dsimp only
  repeat' first
    | with_reducible assumption
    | exact within_trans rfl hm
    | with_reducible apply setF_keeps
    | with_reducible apply setBit_keeps
    | with_reducible apply evt_keeps
    | with_reducible apply bankActivate_keeps
    | with_reducible apply keeps_ite
    | split

theorem windowWrite_keeps {μ : Nat} {s0 : State} (i : Nat) (w : Word) (s : State)  (hk : Keeps μ s0 s) (hm : Within 0x100120 μ := by exact within_trans rfl (by assumption)) : Keeps μ s0 (windowWrite i w s) := by
  unfold windowWrite
  try dsimp only
  repeat' first
    | with_reducible assumption
    | exact within_trans rfl hm
    | with_reducible apply evt_keeps
    | with_reducible apply modSrv_keeps
    | with_reducible apply keeps_ite
    | split
    | exact fun _ h => h
    | exact fun _ h => by simpa [Tsq.sized, Ctx.sized, Srv.sized, NetState.sized, AngState.sized, modAt_length, modAt_all] using h
    | (intro)
    | with_reducible apply keeps_mk
    | with_reducible apply And.intro
    | exact Or.inl (within_bit _ rfl hm)
    | exact Or.inr rfl
    | assumption

theorem srvEnWrite_keeps {μ : Nat} {s0 : State} (a : Nat) (en : Bool) (s : State)  (hk : Keeps μ s0 s) (hm : Within 0x4520 μ := by exact within_trans rfl (by assumption)) : Keeps μ s0 (srvEnWrite a en s) := by
  unfold srvEnWrite
  try dsimp only
  repeat' first
    | with_reducible assumption
    | exact within_trans rfl hm
    | with_reducible apply setBit_keeps
    | with_reducible apply evt_keeps
    | with_reducible apply updateReady_keeps
    | with_reducible apply keeps_ite
    | split

theorem shockReading_keeps {μ : Nat} {s0 : State} (l : List Nat) (s : State)  (hk : Keeps μ s0 s) (hm : Within 0x1204520 μ := by exact within_trans rfl (by assumption)) : Keeps μ s0 (shockReading l s) := by
  unfold shockReading
  try dsimp only
  repeat' first
    | (with_reducible apply keeps_foldl; intro s _ hk)
    | with_reducible assumption
    | exact within_trans rfl hm
    | with_reducible apply setBit_keeps
    | with_reducible apply wrN_keeps
    | with_reducible apply evtIf_keeps
    | with_reducible apply sluAll_keeps
    | with_reducible apply keeps_ite
    | split
    | (intro)
    | with_reducible apply keeps_mk
    | with_reducible apply And.intro
    | exact Or.inl (within_bit _ rfl hm)
    | exact Or.inr rfl

theorem shockClear_keeps {μ : Nat} {s0 : State} (hard : Bool) (s : State)  (hk : Keeps μ s0 s) (hm : Within 0x4520 μ := by exact within_trans rfl (by assumption)) : Keeps μ s0 (shockClear hard s) := by
  unfold shockClear
  try dsimp only
  repeat' first
    | with_reducible assumption
    | exact within_trans rfl hm
    | with_reducible apply setBit_keeps
    | with_reducible apply sluAll_keeps
    | with_reducible apply keeps_ite
    | split

theorem swapBoundary_keeps {μ : Nat} {s0 : State} (a : Nat) (s : State)  (hk : Keeps μ s0 s) (hm : Within 0x100120 μ := by exact within_trans rfl (by assumption)) : Keeps μ s0 (swapBoundary a s) := by
  unfold swapBoundary
  try dsimp only
  repeat' first
    | with_reducible assumption
    | exact within_trans rfl hm
    | with_reducible apply modSrv_keeps
    | with_reducible apply bankActivate_keeps
    | with_reducible apply keeps_ite
    | split
    | exact fun _ h => h
    | exact fun _ h => by simpa [Tsq.sized, Ctx.sized, Srv.sized, NetState.sized, AngState.sized, modAt_length, modAt_all] using h
    | (intro)
    | with_reducible apply keeps_mk
    | with_reducible apply And.intro
    | exact Or.inl (within_bit _ rfl hm)
    | exact Or.inr rfl
    | assumption

theorem headBoundary_keeps {μ : Nat} {s0 : State} (a k : Nat) (s : State)  (hk : Keeps μ s0 s) (hm : Within 0x100000 μ := by exact within_trans rfl (by assumption)) : Keeps μ s0 (headBoundary a k s) := by
  unfold headBoundary
  try dsimp only
  repeat' first
    | with_reducible assumption
    | exact within_trans rfl hm
    | with_reducible apply modSlotSrv_keeps
    | with_reducible apply keeps_ite
    | split
    | (intro)
    | with_reducible apply keeps_mk
    | with_reducible apply And.intro
    | exact Or.inl (within_bit _ rfl hm)
    | exact Or.inr rfl

theorem freshen_keeps {μ : Nat} {s0 : State} (a : Nat) (s : State) (hk : Keeps μ s0 s) 
    (hm : Within 0x100000 μ := by exact within_trans rfl (by assumption)) :
    Keeps μ s0 (freshen a s) :=
  modSrv_keeps _ _ _ hk fun v h => by simp [Srv.sized] at h ⊢; omega

theorem rampOld_keeps {μ : Nat} {s0 : State} (a : Nat) (s : State)  (hk : Keeps μ s0 s) (hm : Within 0x100000 μ := by exact within_trans rfl (by assumption)) : Keeps μ s0 (rampOld a s) := by
  unfold rampOld
  try dsimp only
  repeat' first
    | with_reducible assumption
    | exact within_trans rfl hm
    | with_reducible apply modSrv_keeps
    | with_reducible apply keeps_ite
    | split
    | exact fun _ h => h
    | exact fun _ h => by simpa [Tsq.sized, Ctx.sized, Srv.sized, NetState.sized, AngState.sized, modAt_length, modAt_all] using h
    | (intro)
    | with_reducible apply keeps_mk
    | with_reducible apply And.intro
    | exact Or.inl (within_bit _ rfl hm)
    | exact Or.inr rfl
    | assumption

theorem profileStep_keeps {μ : Nat} {s0 : State} (a : Nat) (s : State)  (hk : Keeps μ s0 s) (hm : Within 0x100020 μ := by exact within_trans rfl (by assumption)) : Keeps μ s0 (profileStep a s) := by
  unfold profileStep
  try dsimp only
  repeat' first
    | with_reducible assumption
    | exact within_trans rfl hm
    | with_reducible apply setBit_keeps
    | with_reducible apply modSrv_keeps
    | with_reducible apply keeps_ite
    | split
    | exact fun _ h => h
    | exact fun _ h => by simpa [Tsq.sized, Ctx.sized, Srv.sized, NetState.sized, AngState.sized, modAt_length, modAt_all] using h
    | (intro)
    | with_reducible apply keeps_mk
    | with_reducible apply And.intro
    | exact Or.inl (within_bit _ rfl hm)
    | exact Or.inr rfl
    | assumption

theorem handoverStarts_keeps {μ : Nat} {s0 : State} (a : Nat) (h0 : Rat) (s : State)  (hk : Keeps μ s0 s) (hm : Within 0x100020 μ := by exact within_trans rfl (by assumption)) : Keeps μ s0 (handoverStarts a h0 s) := by
  unfold handoverStarts
  try dsimp only
  repeat' first
    | with_reducible assumption
    | exact within_trans rfl hm
    | with_reducible apply setBit_keeps
    | with_reducible apply modSrv_keeps
    | exact fun _ h => h
    | exact fun _ h => by simpa [Tsq.sized, Ctx.sized, Srv.sized, NetState.sized, AngState.sized, modAt_length, modAt_all] using h
    | (intro)
    | with_reducible apply keeps_mk
    | with_reducible apply And.intro
    | exact Or.inl (within_bit _ rfl hm)
    | exact Or.inr rfl
    | assumption

theorem anchorBoundary_keeps {μ : Nat} {s0 : State} (a : Nat) (changed : Bool) (p : Nat → Option Word) (s : State)  (hk : Keeps μ s0 s) (hm : Within 0x8100121 μ := by exact within_trans rfl (by assumption)) : Keeps μ s0 (anchorBoundary a changed p s) := by
  unfold anchorBoundary
  try dsimp only
  repeat' first
    | with_reducible assumption
    | exact within_trans rfl hm
    | with_reducible apply setF_keeps
    | with_reducible apply modSrv_keeps
    | with_reducible apply tstSweep_keeps
    | with_reducible apply handoverStarts_keeps
    | with_reducible apply keeps_ite
    | split
    | exact fun _ h => h
    | exact fun _ h => by simpa [Tsq.sized, Ctx.sized, Srv.sized, NetState.sized, AngState.sized, modAt_length, modAt_all] using h
    | (intro)
    | with_reducible apply keeps_mk
    | with_reducible apply And.intro
    | exact Or.inl (within_bit _ rfl hm)
    | exact Or.inr rfl
    | assumption

theorem handoverStep_keeps {μ : Nat} {s0 : State} (a : Nat) (s : State)  (hk : Keeps μ s0 s) (hm : Within 0x100020 μ := by exact within_trans rfl (by assumption)) : Keeps μ s0 (handoverStep a s).2 := by
  unfold handoverStep
  try dsimp only
  repeat' first
    | with_reducible assumption
    | exact within_trans rfl hm
    | with_reducible apply setBit_keeps
    | with_reducible apply modSrv_keeps
    | with_reducible apply keeps_ite
    | split
    | exact fun _ h => h
    | exact fun _ h => by simpa [Tsq.sized, Ctx.sized, Srv.sized, NetState.sized, AngState.sized, modAt_length, modAt_all] using h
    | (intro)
    | with_reducible apply keeps_mk
    | with_reducible apply And.intro
    | exact Or.inl (within_bit _ rfl hm)
    | exact Or.inr rfl
    | assumption

theorem countMissing_keeps {μ : Nat} {s0 : State} (a k : Nat) (valid : Bool) (s : State)  (hk : Keeps μ s0 s) (hm : Within 0x100120 μ := by exact within_trans rfl (by assumption)) : Keeps μ s0 (countMissing a k valid s) := by
  unfold countMissing
  try dsimp only
  repeat' first
    | with_reducible assumption
    | exact within_trans rfl hm
    | with_reducible apply setBit_keeps
    | with_reducible apply evtIf_keeps
    | with_reducible apply modSlotSrv_keeps
    | with_reducible apply keeps_ite
    | split
    | (intro)
    | with_reducible apply keeps_mk
    | with_reducible apply And.intro
    | exact Or.inl (within_bit _ rfl hm)
    | exact Or.inr rfl

theorem reachStep_keeps {μ : Nat} {s0 : State} (a k : Nat) (e : Rat) (sat : Bool) (s : State)  (hk : Keeps μ s0 s) (hm : Within 0x100120 μ := by exact within_trans rfl (by assumption)) : Keeps μ s0 (reachStep a k e sat s) := by
  unfold reachStep
  try dsimp only
  repeat' first
    | with_reducible assumption
    | exact within_trans rfl hm
    | with_reducible apply setBit_keeps
    | with_reducible apply evtIf_keeps
    | with_reducible apply modSlotSrv_keeps
    | with_reducible apply keeps_ite
    | split
    | (intro)
    | with_reducible apply keeps_mk
    | with_reducible apply And.intro
    | exact Or.inl (within_bit _ rfl hm)
    | exact Or.inr rfl

theorem slotAfter_keeps {μ : Nat} {s0 : State} (a k : Nat) (e : Rat) (valid sat : Bool) (s : State)  (hk : Keeps μ s0 s) (hm : Within 0x100120 μ := by exact within_trans rfl (by assumption)) : Keeps μ s0 (slotAfter a k e valid sat s) := by
  unfold slotAfter
  try dsimp only
  repeat' first
    | with_reducible assumption
    | exact within_trans rfl hm
    | with_reducible apply setF_keeps
    | with_reducible apply modSlotSrv_keeps
    | with_reducible apply countMissing_keeps
    | with_reducible apply reachStep_keeps
    | (intro)
    | with_reducible apply keeps_mk
    | with_reducible apply And.intro
    | exact Or.inl (within_bit _ rfl hm)
    | exact Or.inr rfl

theorem settleStep_keeps {μ : Nat} {s0 : State} (a : Nat) (e : Rat) (s : State)  (hk : Keeps μ s0 s) (hm : Within 0x100120 μ := by exact within_trans rfl (by assumption)) : Keeps μ s0 (settleStep a e s) := by
  unfold settleStep
  try dsimp only
  repeat' first
    | with_reducible assumption
    | exact within_trans rfl hm
    | with_reducible apply setBit_keeps
    | with_reducible apply evt_keeps
    | with_reducible apply modSrv_keeps
    | with_reducible apply keeps_ite
    | split
    | exact fun _ h => h
    | exact fun _ h => by simpa [Tsq.sized, Ctx.sized, Srv.sized, NetState.sized, AngState.sized, modAt_length, modAt_all] using h
    | (intro)
    | with_reducible apply keeps_mk
    | with_reducible apply And.intro
    | exact Or.inl (within_bit _ rfl hm)
    | exact Or.inr rfl
    | assumption

theorem skfail_keeps {μ : Nat} {s0 : State} (a : Nat) (s : State)  (hk : Keeps μ s0 s) (hm : Within 0x100120 μ := by exact within_trans rfl (by assumption)) : Keeps μ s0 (skfail a s) := by
  unfold skfail
  try dsimp only
  repeat' first
    | with_reducible assumption
    | exact within_trans rfl hm
    | with_reducible apply seekFails_keeps
    | with_reducible apply keeps_ite
    | split

theorem keepResults_keeps {μ : Nat} {s0 : State} (a : Nat) (i : SampleIn) (s : State) (hk : Keeps μ s0 s) 
    (hm : Within 0x100020 μ := by exact within_trans rfl (by assumption)) :
    Keeps μ s0 (keepResults a i s) := by
  unfold keepResults
  exact setBit_keeps _ _ _ _ (modSrv_keeps _ _ _ (rampOld_keeps _ _ (freshen_keeps _ _ hk))
    fun v h => by simp [Srv.sized] at h ⊢; omega)

theorem compute_keeps {μ : Nat} {s0 : State} (a wait cce : Nat) (cpar : Bool) (i : SampleIn) (s : State)  (hk : Keeps μ s0 s) (hm : Within 0x100020 μ := by exact within_trans rfl (by assumption)) : Keeps μ s0 (compute a wait cce cpar i s) := by
  unfold compute
  try dsimp only
  repeat' first
    | with_reducible assumption
    | exact within_trans rfl hm
    | with_reducible apply modSrv_keeps
    | with_reducible apply keepResults_keeps
    | split
    | exact fun _ h => h
    | exact fun _ h => by simpa [Tsq.sized, Ctx.sized, Srv.sized, NetState.sized, AngState.sized, modAt_length, modAt_all] using h
    | (intro)
    | with_reducible apply keeps_mk
    | with_reducible apply And.intro
    | exact Or.inl (within_bit _ rfl hm)
    | exact Or.inr rfl
    | assumption

theorem idleOutputs_keeps {μ : Nat} {s0 : State} (a : Nat) (s : State)  (hk : Keeps μ s0 s) (hm : Within 0x100020 μ := by exact within_trans rfl (by assumption)) : Keeps μ s0 (idleOutputs a s) := by
  unfold idleOutputs
  try dsimp only
  repeat' first
    | (with_reducible apply keeps_foldl; intro s _ hk)
    | with_reducible assumption
    | exact within_trans rfl hm
    | with_reducible apply wrN_keeps
    | with_reducible apply modSrv_keeps
    | with_reducible apply freshen_keeps
    | with_reducible apply rampOld_keeps
    | with_reducible apply keeps_ite
    | split
    | exact fun _ h => h
    | exact fun _ h => by simpa [Tsq.sized, Ctx.sized, Srv.sized, NetState.sized, AngState.sized, modAt_length, modAt_all] using h
    | (intro)
    | with_reducible apply keeps_mk
    | with_reducible apply And.intro
    | exact Or.inl (within_bit _ rfl hm)
    | exact Or.inr rfl
    | assumption

theorem sluClamp_keeps {μ : Nat} {s0 : State} (limit w : Nat) (s : State)  (hk : Keeps μ s0 s) (hm : Within 0x120 μ := by exact within_trans rfl (by assumption)) : Keeps μ s0 (sluClamp limit w s).2 := by
  unfold sluClamp
  try dsimp only
  repeat' first
    | with_reducible assumption
    | exact within_trans rfl hm
    | with_reducible apply satInc_keeps
    | with_reducible apply evt_keeps
    | with_reducible apply keeps_ite
    | split

theorem driveOutputs_keeps {μ : Nat} {s0 : State} (a vcm : Nat) (mav : List Nat) (s : State)  (hk : Keeps μ s0 s) (hm : Within 0x120 μ := by exact within_trans rfl (by assumption)) : Keeps μ s0 (driveOutputs a vcm mav s) := by
  unfold driveOutputs
  try dsimp only
  repeat' first
    | (with_reducible apply keeps_foldl; intro s _ hk)
    | with_reducible assumption
    | exact within_trans rfl hm
    | with_reducible apply wrN_keeps
    | with_reducible apply sluClamp_keeps
    | with_reducible apply keeps_ite
    | split
    | refine keeps_snd (by with_reducible assumption) ?_
    | (intro)

theorem retractOutputs_keeps {μ : Nat} {s0 : State} (a : Nat) (s : State)  (hk : Keeps μ s0 s) (hm : Within 0x100121 μ := by exact within_trans rfl (by assumption)) : Keeps μ s0 (retractOutputs a s) := by
  unfold retractOutputs
  try dsimp only
  repeat' first
    | with_reducible assumption
    | exact within_trans rfl hm
    | with_reducible apply modSrv_keeps
    | with_reducible apply idleOutputs_keeps
    | with_reducible apply driveOutputs_keeps
    | with_reducible apply keeps_ite
    | split
    | exact fun _ h => h
    | exact fun _ h => by simpa [Tsq.sized, Ctx.sized, Srv.sized, NetState.sized, AngState.sized, modAt_length, modAt_all] using h
    | (intro)
    | with_reducible apply keeps_mk
    | with_reducible apply And.intro
    | exact Or.inl (within_bit _ rfl hm)
    | exact Or.inr rfl
    | assumption

theorem sampleOutputs_keeps {μ : Nat} {s0 : State} (a wait cce : Nat) (cpar : Bool) (i : SampleIn) (s : State)  (hk : Keeps μ s0 s) (hm : Within 0x100121 μ := by exact within_trans rfl (by assumption)) : Keeps μ s0 (sampleOutputs a wait cce cpar i s) := by
  unfold sampleOutputs
  try dsimp only
  repeat' first
    | with_reducible assumption
    | exact within_trans rfl hm
    | with_reducible apply compute_keeps
    | with_reducible apply idleOutputs_keeps
    | with_reducible apply retractOutputs_keeps
    | with_reducible apply keeps_ite
    | split

theorem loadedSample_keeps {μ : Nat} {s0 : State} (a wait cce : Nat) (cpar : Bool) (p : Nat → Option Word) (s : State)  (hk : Keeps μ s0 s) (hm : Within 0x8100121 μ := by exact within_trans rfl (by assumption)) : Keeps μ s0 (loadedSample a wait cce cpar p s) := by
  unfold loadedSample
  try dsimp only
  repeat' first
    | (with_reducible apply keeps_foldl; intro s _ hk)
    | with_reducible assumption
    | exact within_trans rfl hm
    | with_reducible apply wrN_keeps
    | with_reducible apply gauge_keeps
    | with_reducible apply modSrv_keeps
    | with_reducible apply captureSample_keeps
    | with_reducible apply swapBoundary_keeps
    | with_reducible apply headBoundary_keeps
    | with_reducible apply profileStep_keeps
    | with_reducible apply anchorBoundary_keeps
    | with_reducible apply handoverStep_keeps
    | with_reducible apply slotAfter_keeps
    | with_reducible apply settleStep_keeps
    | with_reducible apply sampleOutputs_keeps
    | with_reducible apply keeps_ite
    | split
    | refine keeps_snd (by with_reducible assumption) ?_
    | exact fun _ h => h
    | exact fun _ h => by simpa [Tsq.sized, Ctx.sized, Srv.sized, NetState.sized, AngState.sized, modAt_length, modAt_all] using h
    | (intro)
    | with_reducible apply keeps_mk
    | with_reducible apply And.intro
    | exact Or.inl (within_bit _ rfl hm)
    | exact Or.inr rfl
    | assumption

theorem shockSample_keeps {μ : Nat} {s0 : State} (a : Nat) (s : State)  (hk : Keeps μ s0 s) (hm : Within 0x100000 μ := by exact within_trans rfl (by assumption)) : Keeps μ s0 (shockSample a s) := by
  unfold shockSample
  try dsimp only
  repeat' first
    | with_reducible assumption
    | exact within_trans rfl hm
    | with_reducible apply modSrv_keeps
    | exact fun _ h => h
    | exact fun _ h => by simpa [Tsq.sized, Ctx.sized, Srv.sized, NetState.sized, AngState.sized, modAt_length, modAt_all] using h
    | (intro)
    | with_reducible apply keeps_mk
    | with_reducible apply And.intro
    | exact Or.inl (within_bit _ rfl hm)
    | exact Or.inr rfl
    | assumption

theorem servoSample_keeps {μ : Nat} {s0 : State} (a dt wait cce : Nat) (cpar : Bool) (p : Nat → Option Word) (s : State)  (hk : Keeps μ s0 s) (hm : Within 0x8504521 μ := by exact within_trans rfl (by assumption)) : Keeps μ s0 (servoSample a dt wait cce cpar p s) := by
  unfold servoSample
  try dsimp only
  repeat' first
    | with_reducible assumption
    | exact within_trans rfl hm
    | with_reducible apply wrN_keeps
    | with_reducible apply evtIf_keeps
    | with_reducible apply updateReady_keeps
    | with_reducible apply injCheck_keeps
    | with_reducible apply injNext_keeps
    | with_reducible apply captureSample_keeps
    | with_reducible apply loadedSample_keeps
    | with_reducible apply shockSample_keeps
    | with_reducible apply keeps_ite
    | split

theorem applySet_keeps {μ : Nat} {s0 : State} (a : Nat) (o : OutputSet) (s : State)  (hk : Keeps μ s0 s) (hm : Within 0x100120 μ := by exact within_trans rfl (by assumption)) : Keeps μ s0 (applySet a o s) := by
  unfold applySet
  try dsimp only
  repeat' first
    | with_reducible assumption
    | exact within_trans rfl hm
    | with_reducible apply setF_keeps
    | with_reducible apply modSrv_keeps
    | with_reducible apply driveOutputs_keeps
    | exact fun _ h => h
    | exact fun _ h => by simpa [Tsq.sized, Ctx.sized, Srv.sized, NetState.sized, AngState.sized, modAt_length, modAt_all] using h
    | (intro)
    | with_reducible apply keeps_mk
    | with_reducible apply And.intro
    | exact Or.inl (within_bit _ rfl hm)
    | exact Or.inr rfl
    | assumption

theorem overrun_keeps {μ : Nat} {s0 : State} (a cause : Nat) (s : State)  (hk : Keeps μ s0 s) (hm : Within 0x104520 μ := by exact within_trans rfl (by assumption)) : Keeps μ s0 (overrun a cause s) := by
  unfold overrun
  try dsimp only
  repeat' first
    | with_reducible assumption
    | exact within_trans rfl hm
    | with_reducible apply setF_keeps
    | with_reducible apply evt_keeps
    | with_reducible apply modSrv_keeps
    | with_reducible apply captureTriggered_keeps
    | with_reducible apply startRetract_keeps
    | with_reducible apply keeps_ite
    | split
    | exact fun _ h => h
    | exact fun _ h => by simpa [Tsq.sized, Ctx.sized, Srv.sized, NetState.sized, AngState.sized, modAt_length, modAt_all] using h
    | (intro)
    | with_reducible apply keeps_mk
    | with_reducible apply And.intro
    | exact Or.inl (within_bit _ rfl hm)
    | exact Or.inr rfl
    | assumption

theorem outputApply_keeps {μ : Nat} {s0 : State} (a : Nat) (s : State)  (hk : Keeps μ s0 s) (hm : Within 0x104520 μ := by exact within_trans rfl (by assumption)) : Keeps μ s0 (outputApply a s) := by
  unfold outputApply
  try dsimp only
  repeat' first
    | with_reducible assumption
    | exact within_trans rfl hm
    | with_reducible apply modSrv_keeps
    | with_reducible apply updateReady_keeps
    | with_reducible apply applySet_keeps
    | with_reducible apply overrun_keeps
    | split
    | exact fun _ h => h
    | exact fun _ h => by simpa [Tsq.sized, Ctx.sized, Srv.sized, NetState.sized, AngState.sized, modAt_length, modAt_all] using h
    | (intro)
    | with_reducible apply keeps_mk
    | with_reducible apply And.intro
    | exact Or.inl (within_bit _ rfl hm)
    | exact Or.inr rfl
    | assumption

theorem retractEnd_keeps {μ : Nat} {s0 : State} (a : Nat) (s : State)  (hk : Keeps μ s0 s) (hm : Within 0x30b5e4561 μ := by exact within_trans rfl (by assumption)) : Keeps μ s0 (retractEnd a s) := by
  unfold retractEnd
  try dsimp only
  repeat' first
    | with_reducible assumption
    | exact within_trans rfl hm
    | with_reducible apply setBit_keeps
    | with_reducible apply modSrv_keeps
    | with_reducible apply standbyIfUnloaded_keeps
    | with_reducible apply park_keeps
    | with_reducible apply holdActuator_keeps
    | with_reducible apply keeps_ite
    | split
    | exact fun _ h => h
    | exact fun _ h => by simpa [Tsq.sized, Ctx.sized, Srv.sized, NetState.sized, AngState.sized, modAt_length, modAt_all] using h
    | (intro)
    | with_reducible apply keeps_mk
    | with_reducible apply And.intro
    | exact Or.inl (within_bit _ rfl hm)
    | exact Or.inr rfl
    | assumption

end Sys2Proof.Machine
end

