-- ==== Sys2Proof/Laws/KeepsCipher.lean ====
section
/-! SUPPORT. The operations of Cipher.lean keep the queue and the canonical stores. -/

set_option Elab.async false

namespace Sys2Proof.Machine

theorem modJob_keeps {μ : Nat} {s0 : State} (n : Nat) (f : CphJob → CphJob) (s : State)  (hk : Keeps μ s0 s) (hm : Within 0x40000000 μ := by exact within_trans rfl (by assumption)) : Keeps μ s0 (modJob n f s) := by
  unfold modJob
  try dsimp only
  repeat' first
    | with_reducible assumption
    | exact within_trans rfl hm
    | with_reducible apply modCph_keeps
    | with_reducible apply keeps_ite
    | split
    | (intro)
    | with_reducible apply keeps_mk
    | with_reducible apply And.intro
    | exact Or.inl (within_bit _ rfl hm)
    | exact Or.inr rfl

theorem setStatus_keeps {μ : Nat} {s0 : State} (n st : Nat) (s : State)  (hk : Keeps μ s0 s) (hm : Within 0x40000000 μ := by exact within_trans rfl (by assumption)) : Keeps μ s0 (setStatus n st s) := by
  unfold setStatus
  try dsimp only
  repeat' first
    | with_reducible assumption
    | exact within_trans rfl hm
    | with_reducible apply modJob_keeps
    | (intro)
    | with_reducible apply keeps_mk
    | with_reducible apply And.intro
    | exact Or.inl (within_bit _ rfl hm)
    | exact Or.inr rfl

theorem modKey_keeps {μ : Nat} {s0 : State} (k : Nat) (f : KeySlot → KeySlot) (s : State)  (hk : Keeps μ s0 s) (hm : Within 0x40000000 μ := by exact within_trans rfl (by assumption)) : Keeps μ s0 (modKey k f s) := by
  unfold modKey
  try dsimp only
  repeat' first
    | with_reducible assumption
    | exact within_trans rfl hm
    | with_reducible apply modCph_keeps
    | with_reducible apply keeps_ite
    | split
    | (intro)
    | with_reducible apply keeps_mk
    | with_reducible apply And.intro
    | exact Or.inl (within_bit _ rfl hm)
    | exact Or.inr rfl

theorem postJob_keeps {μ : Nat} {s0 : State} (v : Nat) (s : State)  (hk : Keeps μ s0 s) (hm : Within 0x40000020 μ := by exact within_trans rfl (by assumption)) : Keeps μ s0 (postJob v s) := by
  unfold postJob
  try dsimp only
  repeat' first
    | with_reducible assumption
    | exact within_trans rfl hm
    | with_reducible apply wrN_keeps
    | with_reducible apply wr64_keeps
    | with_reducible apply issueJob_keeps
    | with_reducible apply keeps_ite
    | split
    | with_reducible apply keeps_mk
    | with_reducible apply And.intro
    | exact Or.inl (within_bit _ rfl hm)
    | exact Or.inr rfl

theorem cphFwcqPop_keeps {μ : Nat} {s0 : State} (s : State)  (hk : Keeps μ s0 s) (hm : Within 0x40000018 μ := by exact within_trans rfl (by assumption)) : Keeps μ s0 (cphFwcqPop s) := by
  unfold cphFwcqPop
  try dsimp only
  repeat' first
    | with_reducible assumption
    | exact within_trans rfl hm
    | with_reducible apply answer_keeps
    | with_reducible apply modCph_keeps
    | split
    | (intro)
    | with_reducible apply keeps_mk
    | with_reducible apply And.intro
    | exact Or.inl (within_bit _ rfl hm)
    | exact Or.inr rfl

theorem showPairs_keeps {μ : Nat} {s0 : State} (s : State)  (hk : Keeps μ s0 s) (hm : Within 0x20 μ := by exact within_trans rfl (by assumption)) : Keeps μ s0 (showPairs s) := by
  unfold showPairs
  try dsimp only
  repeat' first
    | with_reducible assumption
    | exact within_trans rfl hm
    | with_reducible apply wrN_keeps

theorem startRecord_keeps {μ : Nat} {s0 : State} (r : NonceRecord) (s : State)  (hk : Keeps μ s0 s) (hm : Within 0x40000000 μ := by exact within_trans rfl (by assumption)) : Keeps μ s0 (startRecord r s) := by
  unfold startRecord
  try dsimp only
  repeat' first
    | with_reducible assumption
    | exact within_trans rfl hm
    | with_reducible apply modCph_keeps
    | with_reducible apply keeps_ite
    | split
    | (intro)
    | with_reducible apply keeps_mk
    | with_reducible apply And.intro
    | exact Or.inl (within_bit _ rfl hm)
    | exact Or.inr rfl

theorem reserve_keeps {μ : Nat} {s0 : State} (fixed kcv b : Nat) (s : State)  (hk : Keeps μ s0 s) (hm : Within 0x40000000 μ := by exact within_trans rfl (by assumption)) : Keeps μ s0 (reserve fixed kcv b s) := by
  unfold reserve
  try dsimp only
  repeat' first
    | with_reducible assumption
    | exact within_trans rfl hm
    | with_reducible apply startRecord_keeps
    | with_reducible apply keeps_ite
    | split

theorem programRecord_keeps {μ : Nat} {s0 : State} (h i : Nat) (r : NonceRecord) (s : State)  (hk : Keeps μ s0 s) (hm : Within 0x40000080 μ := by exact within_trans rfl (by assumption)) : Keeps μ s0 (programRecord h i r s) := by
  unfold programRecord
  try dsimp only
  repeat' first
    | with_reducible assumption
    | exact within_trans rfl hm
    | with_reducible apply nandProg_keeps
    | with_reducible apply modCph_keeps
    | (intro)
    | with_reducible apply keeps_mk
    | with_reducible apply And.intro
    | exact Or.inl (within_bit _ rfl hm)
    | exact Or.inr rfl

theorem usePlace_keeps {μ : Nat} {s0 : State} (s : State)  (hk : Keeps μ s0 s) (hm : Within 0x20 μ := by exact within_trans rfl (by assumption)) : Keeps μ s0 (usePlace s) := by
  unfold usePlace
  try dsimp only
  repeat' first
    | with_reducible assumption
    | exact within_trans rfl hm
    | with_reducible apply setF_keeps
    | with_reducible apply setBit_keeps
    | with_reducible apply keeps_ite
    | split

theorem recordDurable_keeps {μ : Nat} {s0 : State} (r : NonceRecord) (s : State)  (hk : Keeps μ s0 s) (hm : Within 0x400000a0 μ := by exact within_trans rfl (by assumption)) : Keeps μ s0 (recordDurable r s) := by
  unfold recordDurable
  try dsimp only
  repeat' first
    | with_reducible assumption
    | exact within_trans rfl hm
    | with_reducible apply modCph_keeps
    | with_reducible apply showPairs_keeps
    | with_reducible apply programRecord_keeps
    | with_reducible apply usePlace_keeps
    | with_reducible apply keeps_ite
    | split
    | (intro)
    | with_reducible apply keeps_mk
    | with_reducible apply And.intro
    | exact Or.inl (within_bit _ rfl hm)
    | exact Or.inr rfl

theorem recordFailed_keeps {μ : Nat} {s0 : State} (r : NonceRecord) (s : State)  (hk : Keeps μ s0 s) (hm : Within 0x400001a1 μ := by exact within_trans rfl (by assumption)) : Keeps μ s0 (recordFailed r s) := by
  unfold recordFailed
  try dsimp only
  repeat' first
    | with_reducible assumption
    | exact within_trans rfl hm
    | with_reducible apply satInc_keeps
    | with_reducible apply nandProg_keeps
    | with_reducible apply evt_keeps
    | with_reducible apply modCph_keeps
    | with_reducible apply usePlace_keeps
    | with_reducible apply keeps_ite
    | split
    | (intro)
    | with_reducible apply keeps_mk
    | with_reducible apply And.intro
    | exact Or.inl (within_bit _ rfl hm)
    | exact Or.inr rfl

theorem journalRecord_keeps {μ : Nat} {s0 : State} (ok : Bool) (s : State)  (hk : Keeps μ s0 s) (hm : Within 0x400001a1 μ := by exact within_trans rfl (by assumption)) : Keeps μ s0 (journalRecord ok s) := by
  unfold journalRecord
  try dsimp only
  repeat' first
    | with_reducible assumption
    | exact within_trans rfl hm
    | with_reducible apply recordDurable_keeps
    | with_reducible apply recordFailed_keeps
    | with_reducible apply keeps_ite
    | split
    | with_reducible apply keeps_mk
    | with_reducible apply And.intro
    | exact Or.inl (within_bit _ rfl hm)
    | exact Or.inr rfl

theorem programCopies_keeps {μ : Nat} {s0 : State} (h : Nat) (x0 : Nat) (x1 : List NoncePair) (s : State) (hk : Keeps μ s0 s) (hm : Within 0x40000080 μ := by exact within_trans rfl (by assumption)) : Keeps μ s0 (programCopies h x0 x1 s) := by
  induction x1 generalizing x0 s h with
  | nil =>
    unfold programCopies
    try dsimp only
    repeat' first
      | with_reducible assumption
      | exact within_trans rfl hm
      | with_reducible apply ih
      | with_reducible apply programRecord_keeps
      | split
  | cons a l ih =>
    unfold programCopies
    try dsimp only
    repeat' first
      | with_reducible assumption
      | exact within_trans rfl hm
      | with_reducible apply ih
      | with_reducible apply programRecord_keeps
      | split

theorem compact_keeps {μ : Nat} {s0 : State} (s : State)  (hk : Keeps μ s0 s) (hm : Within 0x400000a0 μ := by exact within_trans rfl (by assumption)) : Keeps μ s0 (compact s) := by
  unfold compact
  try dsimp only
  repeat' first
    | with_reducible assumption
    | exact within_trans rfl hm
    | with_reducible apply setF_keeps
    | with_reducible apply setBit_keeps
    | with_reducible apply nandErase_keeps
    | with_reducible apply modCph_keeps
    | with_reducible apply showPairs_keeps
    | with_reducible apply programCopies_keeps
    | with_reducible apply keeps_ite
    | split
    | (intro)
    | with_reducible apply keeps_mk
    | with_reducible apply And.intro
    | exact Or.inl (within_bit _ rfl hm)
    | exact Or.inr rfl

theorem journalScan_keeps {μ : Nat} {s0 : State} (s : State)  (hk : Keeps μ s0 s) (hm : Within 0x40000020 μ := by exact within_trans rfl (by assumption)) : Keeps μ s0 (journalScan s) := by
  unfold journalScan
  try dsimp only
  repeat' first
    | (with_reducible apply keeps_foldl; intro s _ hk)
    | with_reducible assumption
    | exact within_trans rfl hm
    | with_reducible apply setF_keeps
    | with_reducible apply setBit_keeps
    | with_reducible apply modCph_keeps
    | with_reducible apply showPairs_keeps
    | with_reducible apply keeps_ite
    | split
    | (intro)
    | with_reducible apply keeps_mk
    | with_reducible apply And.intro
    | exact Or.inl (within_bit _ rfl hm)
    | exact Or.inr rfl

theorem refreshSlot_keeps {μ : Nat} {s0 : State} (k c : Nat) (s : State)  (hk : Keeps μ s0 s) (hm : Within 0x40000000 μ := by exact within_trans rfl (by assumption)) : Keeps μ s0 (refreshSlot k c s) := by
  unfold refreshSlot
  try dsimp only
  repeat' first
    | with_reducible assumption
    | exact within_trans rfl hm
    | with_reducible apply modCph_keeps
    | with_reducible apply modKey_keeps
    | (intro)
    | with_reducible apply keeps_mk
    | with_reducible apply And.intro
    | exact Or.inl (within_bit _ rfl hm)
    | exact Or.inr rfl

theorem enterCluster_keeps {μ : Nat} {s0 : State} (n k c : Nat) (s : State)  (hk : Keeps μ s0 s) (hm : Within 0x40000000 μ := by exact within_trans rfl (by assumption)) : Keeps μ s0 (enterCluster n k c s) := by
  unfold enterCluster
  try dsimp only
  repeat' first
    | with_reducible assumption
    | exact within_trans rfl hm
    | with_reducible apply modJob_keeps
    | with_reducible apply refreshSlot_keeps
    | (intro)
    | with_reducible apply keeps_mk
    | with_reducible apply And.intro
    | exact Or.inl (within_bit _ rfl hm)
    | exact Or.inr rfl

theorem waitJournal_keeps {μ : Nat} {s0 : State} (n : Nat) (k : KeySlot) (s : State)  (hk : Keeps μ s0 s) (hm : Within 0x40000120 μ := by exact within_trans rfl (by assumption)) : Keeps μ s0 (waitJournal n k s) := by
  unfold waitJournal
  try dsimp only
  repeat' first
    | with_reducible assumption
    | exact within_trans rfl hm
    | with_reducible apply satInc_keeps
    | with_reducible apply evt_keeps
    | with_reducible apply modJob_keeps
    | with_reducible apply reserve_keeps
    | (intro)
    | with_reducible apply keeps_mk
    | with_reducible apply And.intro
    | exact Or.inl (within_bit _ rfl hm)
    | exact Or.inr rfl

theorem takeCounter_keeps {μ : Nat} {s0 : State} (n : Nat) (k : KeySlot) (s : State)  (hk : Keeps μ s0 s) (hm : Within 0x40000120 μ := by exact within_trans rfl (by assumption)) : Keeps μ s0 (takeCounter n k s) := by
  unfold takeCounter
  try dsimp only
  repeat' first
    | with_reducible assumption
    | exact within_trans rfl hm
    | with_reducible apply evtIf_keeps
    | with_reducible apply modJob_keeps
    | with_reducible apply modKey_keeps
    | with_reducible apply reserve_keeps
    | with_reducible apply keeps_ite
    | split
    | (intro)
    | with_reducible apply keeps_mk
    | with_reducible apply And.intro
    | exact Or.inl (within_bit _ rfl hm)
    | exact Or.inr rfl

theorem startKeyed_keeps {μ : Nat} {s0 : State} (j : CphJob) (k : KeySlot) (c : Nat) (s : State)  (hk : Keeps μ s0 s) (hm : Within 0x40000121 μ := by exact within_trans rfl (by assumption)) : Keeps μ s0 (startKeyed j k c s) := by
  unfold startKeyed
  try dsimp only
  repeat' first
    | with_reducible assumption
    | exact within_trans rfl hm
    | with_reducible apply drawFree_keeps
    | with_reducible apply modJob_keeps
    | with_reducible apply setStatus_keeps
    | with_reducible apply enterCluster_keeps
    | with_reducible apply waitJournal_keeps
    | with_reducible apply takeCounter_keeps
    | with_reducible apply keeps_ite
    | split
    | refine keeps_snd (by with_reducible assumption) ?_
    | (intro)
    | with_reducible apply keeps_mk
    | with_reducible apply And.intro
    | exact Or.inl (within_bit _ rfl hm)
    | exact Or.inr rfl

theorem startJob_keeps {μ : Nat} {s0 : State} (j : CphJob) (c : Nat) (s : State)  (hk : Keeps μ s0 s) (hm : Within 0x40000121 μ := by exact within_trans rfl (by assumption)) : Keeps μ s0 (startJob j c s) := by
  unfold startJob
  try dsimp only
  repeat' first
    | with_reducible assumption
    | exact within_trans rfl hm
    | with_reducible apply setStatus_keeps
    | with_reducible apply startKeyed_keeps
    | with_reducible apply keeps_ite
    | split
    | with_reducible apply keeps_mk
    | with_reducible apply And.intro
    | exact Or.inl (within_bit _ rfl hm)
    | exact Or.inr rfl

theorem invocationStart_keeps {μ : Nat} {s0 : State} (s : State)  (hk : Keeps μ s0 s) (hm : Within 0x40000121 μ := by exact within_trans rfl (by assumption)) : Keeps μ s0 (invocationStart s) := by
  unfold invocationStart
  try dsimp only
  repeat' first
    | with_reducible assumption
    | exact within_trans rfl hm
    | with_reducible apply startJob_keeps
    | with_reducible apply keeps_ite
    | split
    | with_reducible apply keeps_mk
    | with_reducible apply And.intro
    | exact Or.inl (within_bit _ rfl hm)
    | exact Or.inr rfl

theorem sectorEnc_keeps {μ : Nat} {s0 : State} (n : Nat) (s : State)  (hk : Keeps μ s0 s) (hm : Within 0x40000040 μ := by exact within_trans rfl (by assumption)) : Keeps μ s0 (sectorEnc n s) := by
  unfold sectorEnc
  try dsimp only
  repeat' first
    | with_reducible assumption
    | exact within_trans rfl hm
    | with_reducible apply sramPutBytes_keeps
    | with_reducible apply setStatus_keeps
    | with_reducible apply keeps_ite
    | split
    | with_reducible apply keeps_mk
    | with_reducible apply And.intro
    | exact Or.inl (within_bit _ rfl hm)
    | exact Or.inr rfl

theorem tagFails_keeps {μ : Nat} {s0 : State} (s : State)  (hk : Keeps μ s0 s) (hm : Within 0x120 μ := by exact within_trans rfl (by assumption)) : Keeps μ s0 (tagFails s) := by
  unfold tagFails
  try dsimp only
  repeat' first
    | with_reducible assumption
    | exact within_trans rfl hm
    | with_reducible apply satInc_keeps
    | with_reducible apply evt_keeps

theorem sectorDec_keeps {μ : Nat} {s0 : State} (n : Nat) (s : State)  (hk : Keeps μ s0 s) (hm : Within 0x40000160 μ := by exact within_trans rfl (by assumption)) : Keeps μ s0 (sectorDec n s) := by
  unfold sectorDec
  try dsimp only
  repeat' first
    | with_reducible assumption
    | exact within_trans rfl hm
    | with_reducible apply satInc_keeps
    | with_reducible apply sramPutBytes_keeps
    | with_reducible apply modJob_keeps
    | with_reducible apply setStatus_keeps
    | with_reducible apply tagFails_keeps
    | with_reducible apply keeps_ite
    | split
    | (intro)
    | with_reducible apply keeps_mk
    | with_reducible apply And.intro
    | exact Or.inl (within_bit _ rfl hm)
    | exact Or.inr rfl

theorem gcmEnc_keeps {μ : Nat} {s0 : State} (n : Nat) (s : State)  (hk : Keeps μ s0 s) (hm : Within 0x40000040 μ := by exact within_trans rfl (by assumption)) : Keeps μ s0 (gcmEnc n s) := by
  unfold gcmEnc
  try dsimp only
  repeat' first
    | with_reducible assumption
    | exact within_trans rfl hm
    | with_reducible apply sramPutBytes_keeps
    | with_reducible apply setStatus_keeps
    | with_reducible apply keeps_ite
    | split
    | with_reducible apply keeps_mk
    | with_reducible apply And.intro
    | exact Or.inl (within_bit _ rfl hm)
    | exact Or.inr rfl

theorem gcmDec_keeps {μ : Nat} {s0 : State} (n : Nat) (s : State)  (hk : Keeps μ s0 s) (hm : Within 0x40000160 μ := by exact within_trans rfl (by assumption)) : Keeps μ s0 (gcmDec n s) := by
  unfold gcmDec
  try dsimp only
  repeat' first
    | with_reducible assumption
    | exact within_trans rfl hm
    | with_reducible apply sramPutBytes_keeps
    | with_reducible apply setStatus_keeps
    | with_reducible apply tagFails_keeps
    | with_reducible apply keeps_ite
    | split
    | with_reducible apply keeps_mk
    | with_reducible apply And.intro
    | exact Or.inl (within_bit _ rfl hm)
    | exact Or.inr rfl

theorem sendSector_keeps {μ : Nat} {s0 : State} (b lba : Nat) (c : HostCmd) (s : State)  (hk : Keeps μ s0 s) (hm : Within 0x40000 μ := by exact within_trans rfl (by assumption)) : Keeps μ s0 (sendSector b lba c s) := by
  unfold sendSector
  try dsimp only
  repeat' first
    | with_reducible assumption
    | exact within_trans rfl hm
    | with_reducible apply sendData_keeps
    | with_reducible apply keeps_ite
    | split

theorem sectorReady_keeps {μ : Nat} {s0 : State} (b lba : Nat) (s : State)  (hk : Keeps μ s0 s) (hm : Within 0x80c0160 μ := by exact within_trans rfl (by assumption)) : Keeps μ s0 (sectorReady b lba s) := by
  unfold sectorReady
  try dsimp only
  repeat' first
    | (with_reducible apply keeps_foldl; intro s _ hk)
    | with_reducible assumption
    | exact within_trans rfl hm
    | with_reducible apply modCmd_keeps
    | with_reducible apply complete_keeps
    | with_reducible apply sendSector_keeps
    | with_reducible apply keeps_ite
    | split
    | (intro)
    | with_reducible apply keeps_mk
    | with_reducible apply And.intro
    | exact Or.inl (within_bit _ rfl hm)
    | exact Or.inr rfl

theorem sectorReport_keeps {μ : Nat} {s0 : State} (j : CphJob) (s : State)  (hk : Keeps μ s0 s) (hm : Within 0x2480e0160 μ := by exact within_trans rfl (by assumption)) : Keeps μ s0 (sectorReport j s) := by
  unfold sectorReport
  try dsimp only
  repeat' first
    | (with_reducible apply keeps_foldl; intro s _ hk)
    | with_reducible assumption
    | exact within_trans rfl hm
    | with_reducible apply toFirmware_keeps
    | with_reducible apply readFails_keeps
    | with_reducible apply abandon_keeps
    | with_reducible apply copyJobEnds_keeps
    | with_reducible apply sectorReady_keeps
    | with_reducible apply keeps_ite
    | split
    | (intro)

theorem firmwareReport_keeps {μ : Nat} {s0 : State} (j : CphJob) (d : Nat) (s : State)  (hk : Keeps μ s0 s) (hm : Within 0x40000160 μ := by exact within_trans rfl (by assumption)) : Keeps μ s0 (firmwareReport j d s) := by
  unfold firmwareReport
  try dsimp only
  repeat' first
    | with_reducible assumption
    | exact within_trans rfl hm
    | with_reducible apply sramPut8_keeps
    | with_reducible apply sramPutBytes_keeps
    | with_reducible apply evt_keeps
    | with_reducible apply modCph_keeps
    | with_reducible apply keeps_ite
    | split
    | (intro)
    | with_reducible apply keeps_mk
    | with_reducible apply And.intro
    | exact Or.inl (within_bit _ rfl hm)
    | exact Or.inr rfl

theorem deliverJob_keeps {μ : Nat} {s0 : State} (j : CphJob) (s : State)  (hk : Keeps μ s0 s) (hm : Within 0x2480e0160 μ := by exact within_trans rfl (by assumption)) : Keeps μ s0 (deliverJob j s) := by
  unfold deliverJob
  try dsimp only
  repeat' first
    | with_reducible assumption
    | exact within_trans rfl hm
    | with_reducible apply modCph_keeps
    | with_reducible apply sectorReport_keeps
    | with_reducible apply firmwareReport_keeps
    | split
    | (intro)
    | with_reducible apply keeps_mk
    | with_reducible apply And.intro
    | exact Or.inl (within_bit _ rfl hm)
    | exact Or.inr rfl

theorem deliverJobs_keeps {μ : Nat} {s0 : State} (source : Nat) (x0 : Nat) (s : State) (hk : Keeps μ s0 s) (hm : Within 0x2480e0160 μ := by exact within_trans rfl (by assumption)) : Keeps μ s0 (deliverJobs source x0 s) := by
  induction x0 generalizing s source with
  | zero =>
    unfold deliverJobs
    try dsimp only
    repeat' first
      | with_reducible assumption
      | exact within_trans rfl hm
      | with_reducible apply ih
      | with_reducible apply deliverJob_keeps
      | with_reducible apply keeps_ite
      | split
      | (intro)
      | with_reducible apply keeps_mk
      | with_reducible apply And.intro
      | exact Or.inl (within_bit _ rfl hm)
      | exact Or.inr rfl
  | succ k ih =>
    unfold deliverJobs
    try dsimp only
    repeat' first
      | with_reducible assumption
      | exact within_trans rfl hm
      | with_reducible apply ih
      | with_reducible apply deliverJob_keeps
      | with_reducible apply keeps_ite
      | split
      | (intro)
      | with_reducible apply keeps_mk
      | with_reducible apply And.intro
      | exact Or.inl (within_bit _ rfl hm)
      | exact Or.inr rfl

theorem invocationEnd_keeps {μ : Nat} {s0 : State} (n : Nat) (s : State)  (hk : Keeps μ s0 s) (hm : Within 0x2480e0160 μ := by exact within_trans rfl (by assumption)) : Keeps μ s0 (invocationEnd n s) := by
  unfold invocationEnd
  try dsimp only
  repeat' first
    | with_reducible assumption
    | exact within_trans rfl hm
    | with_reducible apply wrapInc_keeps
    | with_reducible apply modJob_keeps
    | with_reducible apply deliverJobs_keeps
    | with_reducible apply keeps_ite
    | split
    | (intro)
    | with_reducible apply keeps_mk
    | with_reducible apply And.intro
    | exact Or.inl (within_bit _ rfl hm)
    | exact Or.inr rfl

theorem keyResult_keeps {μ : Nat} {s0 : State} (r : Nat) (s : State)  (hk : Keeps μ s0 s) (hm : Within 0x120 μ := by exact within_trans rfl (by assumption)) : Keeps μ s0 (keyResult r s) := by
  unfold keyResult
  try dsimp only
  repeat' first
    | with_reducible assumption
    | exact within_trans rfl hm
    | with_reducible apply setF_keeps
    | with_reducible apply evtIf_keeps

theorem clearKeyData_keeps {μ : Nat} {s0 : State} (s : State)  (hk : Keeps μ s0 s) (hm : Within 0x20 μ := by exact within_trans rfl (by assumption)) : Keeps μ s0 (clearKeyData s) := by
  unfold clearKeyData
  try dsimp only
  repeat' first
    | (with_reducible apply keeps_foldl; intro s _ hk)
    | with_reducible assumption
    | exact within_trans rfl hm
    | with_reducible apply wrN_keeps
    | (intro)

theorem holdPair_keeps {μ : Nat} {s0 : State} (fixed kcv : Nat) (s : State)  (hk : Keeps μ s0 s) (hm : Within 0x40000020 μ := by exact within_trans rfl (by assumption)) : Keeps μ s0 (holdPair fixed kcv s) := by
  unfold holdPair
  try dsimp only
  repeat' first
    | with_reducible assumption
    | exact within_trans rfl hm
    | with_reducible apply modCph_keeps
    | with_reducible apply showPairs_keeps
    | with_reducible apply keeps_ite
    | split
    | (intro)
    | with_reducible apply keeps_mk
    | with_reducible apply And.intro
    | exact Or.inl (within_bit _ rfl hm)
    | exact Or.inr rfl

theorem newShares_keeps {μ : Nat} {s0 : State} (key : List Nat) (s : State)  (hk : Keeps μ s0 s) (hm : Within 0x1 μ := by exact within_trans rfl (by assumption)) : Keeps μ s0 (newShares key s).2.2 := by
  unfold newShares
  try dsimp only
  repeat' first
    | with_reducible assumption
    | exact within_trans rfl hm
    | (intro)
    | with_reducible apply keeps_mk
    | with_reducible apply And.intro
    | exact Or.inl (within_bit _ rfl hm)
    | exact Or.inr rfl

theorem keyLoad_keeps {μ : Nat} {s0 : State} (s : State)  (hk : Keeps μ s0 s) (hm : Within 0x40000121 μ := by exact within_trans rfl (by assumption)) : Keeps μ s0 (keyLoad s) := by
  unfold keyLoad
  try dsimp only
  repeat' first
    | with_reducible assumption
    | exact within_trans rfl hm
    | with_reducible apply modCph_keeps
    | with_reducible apply reserve_keeps
    | with_reducible apply keyResult_keeps
    | with_reducible apply clearKeyData_keeps
    | with_reducible apply holdPair_keeps
    | with_reducible apply newShares_keeps
    | with_reducible apply keeps_ite
    | split
    | refine keeps_thd (by with_reducible assumption) ?_
    | (intro)
    | with_reducible apply keeps_mk
    | with_reducible apply And.intro
    | exact Or.inl (within_bit _ rfl hm)
    | exact Or.inr rfl

theorem keyEnd_keeps {μ : Nat} {s0 : State} (retire : Bool) (s : State)  (hk : Keeps μ s0 s) (hm : Within 0x40000120 μ := by exact within_trans rfl (by assumption)) : Keeps μ s0 (keyEnd retire s) := by
  unfold keyEnd
  try dsimp only
  repeat' first
    | with_reducible assumption
    | exact within_trans rfl hm
    | with_reducible apply setBit_keeps
    | with_reducible apply modKey_keeps
    | with_reducible apply keyResult_keeps
    | with_reducible apply keeps_ite
    | split
    | (intro)
    | with_reducible apply keeps_mk
    | with_reducible apply And.intro
    | exact Or.inl (within_bit _ rfl hm)
    | exact Or.inr rfl

theorem dropKey_keeps {μ : Nat} {s0 : State} (k : KeySlot) (retire : Bool) (s : State)  (hk : Keeps μ s0 s) (hm : Within 0x40000000 μ := by exact within_trans rfl (by assumption)) : Keeps μ s0 (dropKey k retire s) := by
  unfold dropKey
  try dsimp only
  repeat' first
    | with_reducible assumption
    | exact within_trans rfl hm
    | with_reducible apply modCph_keeps
    | with_reducible apply startRecord_keeps
    | with_reducible apply keeps_ite
    | split
    | (intro)
    | with_reducible apply keeps_mk
    | with_reducible apply And.intro
    | exact Or.inl (within_bit _ rfl hm)
    | exact Or.inr rfl

theorem keyDone_keeps {μ : Nat} {s0 : State} (s : State)  (hk : Keeps μ s0 s) (hm : Within 0x40000120 μ := by exact within_trans rfl (by assumption)) : Keeps μ s0 (keyDone s) := by
  unfold keyDone
  try dsimp only
  repeat' first
    | with_reducible assumption
    | exact within_trans rfl hm
    | with_reducible apply setBit_keeps
    | with_reducible apply evt_keeps
    | with_reducible apply dropKey_keeps
    | with_reducible apply keeps_ite
    | split
    | (intro)
    | with_reducible apply keeps_mk
    | with_reducible apply And.intro
    | exact Or.inl (within_bit _ rfl hm)
    | exact Or.inr rfl

theorem destroyAtRest_keeps {μ : Nat} {s0 : State} (s : State)  (hk : Keeps μ s0 s) (hm : Within 0x40000000 μ := by exact within_trans rfl (by assumption)) : Keeps μ s0 (destroyAtRest s) := by
  unfold destroyAtRest
  try dsimp only
  repeat' first
    | (with_reducible apply keeps_foldl; intro s _ hk)
    | with_reducible assumption
    | exact within_trans rfl hm
    | with_reducible apply dropKey_keeps
    | (intro)

theorem drbgGenerate_keeps {μ : Nat} {s0 : State} (s : State)  (hk : Keeps μ s0 s) (hm : Within 0x40000000 μ := by exact within_trans rfl (by assumption)) : Keeps μ s0 (drbgGenerate s) := by
  unfold drbgGenerate
  try dsimp only
  repeat' first
    | with_reducible assumption
    | exact within_trans rfl hm
    | with_reducible apply modCph_keeps
    | (intro)
    | with_reducible apply keeps_mk
    | with_reducible apply And.intro
    | exact Or.inl (within_bit _ rfl hm)
    | exact Or.inr rfl

theorem drawSeed_keeps {μ : Nat} {s0 : State} (s : State) (hk : Keeps μ s0 s) 
    (hm : Within 0x1 μ := by exact within_trans rfl (by assumption)) : Keeps μ s0 (drawSeed s).2 := by
  unfold drawSeed
  have go : ∀ (l : List Nat) (r : Nat × State), Keeps μ s0 r.2 →
      Keeps μ s0 (l.foldl (fun r _ => let (v, s) := drawFree 64 r.2; (2 ^ 64 * r.1 + v, s)) r).2 := by
    intro l
    induction l with
    | nil => exact fun _ h => h
    | cons _ _ ih => exact fun r h => ih _ (drawFree_keeps 64 _ h)
  exact go _ _ hk

theorem reseedMasks_keeps {μ : Nat} {s0 : State} (s : State)  (hk : Keeps μ s0 s) (hm : Within 0x40000001 μ := by exact within_trans rfl (by assumption)) : Keeps μ s0 (reseedMasks s) := by
  unfold reseedMasks
  try dsimp only
  repeat' first
    | (with_reducible apply keeps_foldl; intro s _ hk)
    | with_reducible assumption
    | exact within_trans rfl hm
    | with_reducible apply modCph_keeps
    | with_reducible apply drawSeed_keeps
    | split
    | refine keeps_snd (by with_reducible assumption) ?_
    | (intro)
    | with_reducible apply keeps_mk
    | with_reducible apply And.intro
    | exact Or.inl (within_bit _ rfl hm)
    | exact Or.inr rfl

theorem maskReseed_keeps {μ : Nat} {s0 : State} (s : State)  (hk : Keeps μ s0 s) (hm : Within 0x40000121 μ := by exact within_trans rfl (by assumption)) : Keeps μ s0 (maskReseed s) := by
  unfold maskReseed
  try dsimp only
  repeat' first
    | with_reducible assumption
    | exact within_trans rfl hm
    | with_reducible apply wrapInc_keeps
    | with_reducible apply evt_keeps
    | with_reducible apply drbgGenerate_keeps
    | with_reducible apply reseedMasks_keeps
    | with_reducible apply keeps_ite
    | split

theorem entropyFails_keeps {μ : Nat} {s0 : State} (s : State)  (hk : Keeps μ s0 s) (hm : Within 0x120 μ := by exact within_trans rfl (by assumption)) : Keeps μ s0 (entropyFails s) := by
  unfold entropyFails
  try dsimp only
  repeat' first
    | with_reducible assumption
    | exact within_trans rfl hm
    | with_reducible apply setBit_keeps
    | with_reducible apply satInc_keeps
    | with_reducible apply evt_keeps

theorem rngRead_keeps {μ : Nat} {s0 : State} (s : State)  (hk : Keeps μ s0 s) (hm : Within 0x40000039 μ := by exact within_trans rfl (by assumption)) : Keeps μ s0 (rngRead s) := by
  unfold rngRead
  try dsimp only
  repeat' first
    | with_reducible assumption
    | exact within_trans rfl hm
    | with_reducible apply setBit_keeps
    | with_reducible apply answer_keeps
    | with_reducible apply drawFree_keeps
    | with_reducible apply drbgGenerate_keeps
    | with_reducible apply keeps_ite
    | split
    | refine keeps_snd (by with_reducible assumption) ?_

theorem katEnds_keeps {μ : Nat} {s0 : State} (pass : Nat) (drbg : Bool) (s : State)  (hk : Keeps μ s0 s) (hm : Within 0x30b544521 μ := by exact within_trans rfl (by assumption)) : Keeps μ s0 (katEnds pass drbg s) := by
  unfold katEnds
  try dsimp only
  repeat' first
    | with_reducible assumption
    | exact within_trans rfl hm
    | with_reducible apply setBit_keeps
    | with_reducible apply wr64_keeps
    | with_reducible apply evtIf_keeps
    | with_reducible apply showClusters_keeps
    | with_reducible apply safeHold_keeps
    | with_reducible apply keeps_ite
    | split

theorem cphCtlWrite_keeps {μ : Nat} {s0 : State} (v : Nat) (s : State)  (hk : Keeps μ s0 s) (hm : Within 0x20 μ := by exact within_trans rfl (by assumption)) : Keeps μ s0 (cphCtlWrite v s) := by
  unfold cphCtlWrite
  try dsimp only
  repeat' first
    | with_reducible assumption
    | exact within_trans rfl hm
    | with_reducible apply setBit_keeps
    | with_reducible apply plainWrite_keeps
    | with_reducible apply showClusters_keeps
    | split

theorem kat_keeps {μ : Nat} {s0 : State} (pass : Nat) (drbg : Bool) (s : State)  (hk : Keeps μ s0 s) (hm : Within 0x30b544521 μ := by exact within_trans rfl (by assumption)) : Keeps μ s0 (kat pass drbg s) := by
  unfold kat
  try dsimp only
  repeat' first
    | with_reducible assumption
    | exact within_trans rfl hm
    | with_reducible apply setBit_keeps
    | with_reducible apply katEnds_keeps
    | with_reducible apply keeps_ite
    | split

theorem clearLattice_keeps {μ : Nat} {s0 : State} (s : State)  (hk : Keeps μ s0 s) (hm : Within 0x40000000 μ := by exact within_trans rfl (by assumption)) : Keeps μ s0 (clearLattice s) := by
  unfold clearLattice
  try dsimp only
  repeat' first
    | with_reducible assumption
    | exact within_trans rfl hm
    | with_reducible apply keeps_mk
    | with_reducible apply And.intro
    | exact Or.inl (within_bit _ rfl hm)
    | exact Or.inr rfl

end Sys2Proof.Machine
end

