-- ==== Sys2Proof/Laws/KeepsMemory.lean ====
section
/-! SUPPORT. The operations of Memory.lean keep the queue and the canonical stores. -/

set_option Elab.async false

namespace Sys2Proof.Machine

theorem modEcc_keeps {μ : Nat} {s0 : State} (s : State) (f : EccState → EccState)  (hk : Keeps μ s0 s) (hm : Within 0x10000000 μ := by exact within_trans rfl (by assumption)) : Keeps μ s0 (modEcc s f) := by
  unfold modEcc
  try dsimp only
  repeat' first
    | with_reducible assumption
    | exact within_trans rfl hm
    | with_reducible apply keeps_mk
    | with_reducible apply And.intro
    | exact Or.inl (within_bit _ rfl hm)
    | exact Or.inr rfl

theorem modCch_keeps {μ : Nat} {s0 : State} (s : State) (f : CchState → CchState)  (hk : Keeps μ s0 s) (hm : Within 0x20000000 μ := by exact within_trans rfl (by assumption)) : Keeps μ s0 (modCch s f) := by
  unfold modCch
  try dsimp only
  repeat' first
    | with_reducible assumption
    | exact within_trans rfl hm
    | with_reducible apply keeps_mk
    | with_reducible apply And.intro
    | exact Or.inl (within_bit _ rfl hm)
    | exact Or.inr rfl

theorem logCorrection_keeps {μ : Nat} {s0 : State} (i : Nat) (s : State)  (hk : Keeps μ s0 s) (hm : Within 0x121 μ := by exact within_trans rfl (by assumption)) : Keeps μ s0 (logCorrection i s) := by
  unfold logCorrection
  try dsimp only
  repeat' first
    | with_reducible assumption
    | exact within_trans rfl hm
    | with_reducible apply wr64_keeps
    | with_reducible apply satInc_keeps
    | with_reducible apply drawFree_keeps
    | with_reducible apply evt_keeps
    | with_reducible apply evtIf_keeps
    | split
    | refine keeps_snd (by with_reducible assumption) ?_
    | (intro)
    | with_reducible apply keeps_mk
    | with_reducible apply And.intro
    | exact Or.inl (within_bit _ rfl hm)
    | exact Or.inr rfl

theorem celClear_keeps {μ : Nat} {s0 : State} (v : Nat) (s : State)  (hk : Keeps μ s0 s) (hm : Within 0x20 μ := by exact within_trans rfl (by assumption)) : Keeps μ s0 (celClear v s) := by
  unfold celClear
  try dsimp only
  repeat' first
    | (with_reducible apply keeps_foldl; intro s _ hk)
    | with_reducible assumption
    | exact within_trans rfl hm
    | with_reducible apply wr64_keeps
    | with_reducible apply keeps_ite
    | split
    | (intro)

theorem latchUe_keeps {μ : Nat} {s0 : State} (r i kind : Nat) (s : State)  (hk : Keeps μ s0 s) (hm : Within 0x20 μ := by exact within_trans rfl (by assumption)) : Keeps μ s0 (latchUe r i kind s) := by
  unfold latchUe
  try dsimp only
  repeat' first
    | with_reducible assumption
    | exact within_trans rfl hm
    | with_reducible apply wrN_keeps

theorem poison_keeps {μ : Nat} {s0 : State} (i : Nat) (s : State)  (hk : Keeps μ s0 s) (hm : Within 0x40 μ := by exact within_trans rfl (by assumption)) : Keeps μ s0 (poison i s) := by
  unfold poison
  try dsimp only
  repeat' first
    | with_reducible assumption
    | exact within_trans rfl hm
    | with_reducible apply sramPutWord_keeps
    | with_reducible apply keeps_mk
    | with_reducible apply And.intro
    | exact Or.inl (within_bit _ rfl hm)
    | exact Or.inr rfl

theorem foundUe_keeps {μ : Nat} {s0 : State} (r i : Nat) (s : State)  (hk : Keeps μ s0 s) (hm : Within 0x160 μ := by exact within_trans rfl (by assumption)) : Keeps μ s0 (foundUe r i s) := by
  unfold foundUe
  try dsimp only
  repeat' first
    | with_reducible assumption
    | exact within_trans rfl hm
    | with_reducible apply satInc_keeps
    | with_reducible apply evt_keeps
    | with_reducible apply latchUe_keeps
    | with_reducible apply poison_keeps

theorem foundPoison_keeps {μ : Nat} {s0 : State} (r i : Nat) (s : State)  (hk : Keeps μ s0 s) (hm : Within 0x120 μ := by exact within_trans rfl (by assumption)) : Keeps μ s0 (foundPoison r i s) := by
  unfold foundPoison
  try dsimp only
  repeat' first
    | with_reducible assumption
    | exact within_trans rfl hm
    | with_reducible apply satInc_keeps
    | with_reducible apply evt_keeps
    | with_reducible apply latchUe_keeps

theorem queueFix_keeps {μ : Nat} {s0 : State} (i : Nat) (s : State)  (hk : Keeps μ s0 s) (hm : Within 0x10000000 μ := by exact within_trans rfl (by assumption)) : Keeps μ s0 (queueFix i s) := by
  unfold queueFix
  try dsimp only
  repeat' first
    | with_reducible assumption
    | exact within_trans rfl hm
    | with_reducible apply modEcc_keeps
    | with_reducible apply keeps_ite
    | split
    | (intro)
    | with_reducible apply keeps_mk
    | with_reducible apply And.intro
    | exact Or.inl (within_bit _ rfl hm)
    | exact Or.inr rfl

theorem ctlRead_keeps {μ : Nat} {s0 : State} (r i : Nat) (s : State)  (hk : Keeps μ s0 s) (hm : Within 0x10000161 μ := by exact within_trans rfl (by assumption)) : Keeps μ s0 (ctlRead r i s).2 := by
  unfold ctlRead
  try dsimp only
  repeat' first
    | with_reducible assumption
    | exact within_trans rfl hm
    | with_reducible apply logCorrection_keeps
    | with_reducible apply foundUe_keeps
    | with_reducible apply foundPoison_keeps
    | with_reducible apply queueFix_keeps
    | split
    | with_reducible apply keeps_mk
    | with_reducible apply And.intro
    | exact Or.inl (within_bit _ rfl hm)
    | exact Or.inr rfl

theorem flipped_keeps {μ : Nat} {s0 : State} (v mask : Nat) (dataBit : Option Nat) (s : State)  (hk : Keeps μ s0 s) (hm : Within 0x1 μ := by exact within_trans rfl (by assumption)) : Keeps μ s0 (flipped v mask dataBit s).2 := by
  unfold flipped
  try dsimp only
  repeat' first
    | with_reducible assumption
    | exact within_trans rfl hm
    | with_reducible apply drawFree_keeps
    | with_reducible apply keeps_ite
    | split
    | refine keeps_snd (by with_reducible assumption) ?_
    | with_reducible apply keeps_mk
    | with_reducible apply And.intro
    | exact Or.inl (within_bit _ rfl hm)
    | exact Or.inr rfl

theorem ctlWrite_keeps {μ : Nat} {s0 : State} (i v : Nat) (s : State)  (hk : Keeps μ s0 s) (hm : Within 0x10000061 μ := by exact within_trans rfl (by assumption)) : Keeps μ s0 (ctlWrite i v s) := by
  unfold ctlWrite
  try dsimp only
  repeat' first
    | with_reducible assumption
    | exact within_trans rfl hm
    | with_reducible apply wr64_keeps
    | with_reducible apply sramPutWord_keeps
    | with_reducible apply modEcc_keeps
    | with_reducible apply flipped_keeps
    | split
    | refine keeps_snd (by with_reducible assumption) ?_
    | (intro)
    | with_reducible apply keeps_mk
    | with_reducible apply And.intro
    | exact Or.inl (within_bit _ rfl hm)
    | exact Or.inr rfl

theorem ctlNarrow_keeps {μ : Nat} {s0 : State} (r i v mask : Nat) (s : State)  (hk : Keeps μ s0 s) (hm : Within 0x10000161 μ := by exact within_trans rfl (by assumption)) : Keeps μ s0 (ctlNarrow r i v mask s).2 := by
  unfold ctlNarrow
  try dsimp only
  repeat' first
    | with_reducible assumption
    | exact within_trans rfl hm
    | with_reducible apply evt_keeps
    | with_reducible apply logCorrection_keeps
    | with_reducible apply foundUe_keeps
    | with_reducible apply foundPoison_keeps
    | with_reducible apply ctlWrite_keeps
    | split
    | with_reducible apply keeps_mk
    | with_reducible apply And.intro
    | exact Or.inl (within_bit _ rfl hm)
    | exact Or.inr rfl

theorem eccInj_keeps {μ : Nat} {s0 : State} (v : Nat) (s : State)  (hk : Keeps μ s0 s) (hm : Within 0x20 μ := by exact within_trans rfl (by assumption)) : Keeps μ s0 (eccInj v s) := by
  unfold eccInj
  try dsimp only
  repeat' first
    | with_reducible assumption
    | exact within_trans rfl hm
    | with_reducible apply wr64_keeps
    | with_reducible apply keeps_ite
    | split

theorem ceWriteback_keeps {μ : Nat} {s0 : State} (s : State)  (hk : Keeps μ s0 s) (hm : Within 0x10000061 μ := by exact within_trans rfl (by assumption)) : Keeps μ s0 (ceWriteback s) := by
  unfold ceWriteback
  try dsimp only
  repeat' first
    | with_reducible assumption
    | exact within_trans rfl hm
    | with_reducible apply modEcc_keeps
    | with_reducible apply ctlWrite_keeps
    | with_reducible apply keeps_ite
    | split
    | (intro)
    | with_reducible apply keeps_mk
    | with_reducible apply And.intro
    | exact Or.inl (within_bit _ rfl hm)
    | exact Or.inr rfl

theorem showWback_keeps {μ : Nat} {s0 : State} (s : State)  (hk : Keeps μ s0 s) (hm : Within 0x20 μ := by exact within_trans rfl (by assumption)) : Keeps μ s0 (showWback s) := by
  unfold showWback
  try dsimp only
  repeat' first
    | with_reducible assumption
    | exact within_trans rfl hm
    | with_reducible apply setF_keeps

theorem writeLine_keeps {μ : Nat} {s0 : State} (c : CacheLine) (s : State)  (hk : Keeps μ s0 s) (hm : Within 0x10000061 μ := by exact within_trans rfl (by assumption)) : Keeps μ s0 (writeLine c s) := by
  unfold writeLine
  try dsimp only
  repeat' first
    | (with_reducible apply keeps_foldl; intro s _ hk)
    | with_reducible assumption
    | exact within_trans rfl hm
    | with_reducible apply poison_keeps
    | with_reducible apply ctlWrite_keeps
    | with_reducible apply keeps_ite
    | split
    | (intro)

theorem toWback_keeps {μ : Nat} {s0 t : State} (c : CacheLine) (s : State) (hk : Keeps μ s0 s)
    (e : toWback c s = some t) 
    (hm : Within 0x20000020 μ := by exact within_trans rfl (by assumption)) : Keeps μ s0 t := by
  unfold toWback at e
  split at e
  · simp_all
  · split at e
    · simp at e
    · simp only [Option.some.injEq] at e
      subst e
      exact showWback_keeps _ (modCch_keeps _ _ hk)

theorem evict_keeps {μ : Nat} {s0 t : State} (c : CacheLine) (s : State) (hk : Keeps μ s0 s)
    (e : evict c s = some t) 
    (hm : Within 0x20000020 μ := by exact within_trans rfl (by assumption)) : Keeps μ s0 t := by
  unfold evict at e
  split at e
  · exact toWback_keeps _ _ hk e
  · split at e
    · simp only [Option.some.injEq] at e
      subst e
      exact modCch_keeps _ _ hk
    · obtain ⟨u, hu, e⟩ := Option.map_eq_some_iff.1 e
      subst e
      exact modCch_keeps _ _ (toWback_keeps _ _ hk hu)

theorem l2Take_keeps {μ : Nat} {s0 t : State} (c : CacheLine) (way : Nat) (s : State) (hk : Keeps μ s0 s)
    (e : l2Take c way s = some t) 
    (hm : Within 0x20000020 μ := by exact within_trans rfl (by assumption)) : Keeps μ s0 t := by
  unfold l2Take at e
  dsimp only at e
  split at e
  · simp only [Option.some.injEq] at e
    subst e
    exact modCch_keeps _ _ hk
  · split at e
    · simp at e
    · obtain ⟨u, hu, e⟩ := Option.map_eq_some_iff.1 e
      subst e
      exact modCch_keeps _ _ (evict_keeps _ _ hk hu)

theorem readLine_keeps {μ : Nat} {s0 : State} (r l : Nat) (x0 : Nat) (s : State) (hk : Keeps μ s0 s) (hm : Within 0x10000161 μ := by exact within_trans rfl (by assumption)) : Keeps μ s0 (readLine r l x0 s).2 := by
  induction x0 generalizing s r l with
  | zero =>
    unfold readLine
    try dsimp only
    repeat' first
      | with_reducible assumption
      | exact within_trans rfl hm
      | with_reducible apply ih
      | with_reducible apply ctlRead_keeps
      | split
      | refine keeps_snd (by with_reducible assumption) ?_
      | with_reducible apply keeps_mk
      | with_reducible apply And.intro
      | exact Or.inl (within_bit _ rfl hm)
      | exact Or.inr rfl
  | succ k ih =>
    unfold readLine
    try dsimp only
    repeat' first
      | with_reducible assumption
      | exact within_trans rfl hm
      | with_reducible apply ih
      | with_reducible apply ctlRead_keeps
      | split
      | refine keeps_snd (by with_reducible assumption) ?_
      | with_reducible apply keeps_mk
      | with_reducible apply And.intro
      | exact Or.inl (within_bit _ rfl hm)
      | exact Or.inr rfl

theorem missLine_keeps {μ : Nat} {s0 : State} (r l : Nat) (s : State)  (hk : Keeps μ s0 s) (hm : Within 0x30000161 μ := by exact within_trans rfl (by assumption)) : Keeps μ s0 (missLine r l s).2 := by
  unfold missLine
  try dsimp only
  repeat' first
    | with_reducible assumption
    | exact within_trans rfl hm
    | with_reducible apply wrapInc_keeps
    | with_reducible apply modCch_keeps
    | with_reducible apply showWback_keeps
    | with_reducible apply readLine_keeps
    | split
    | refine keeps_snd (by with_reducible assumption) ?_
    | (intro)
    | with_reducible apply keeps_mk
    | with_reducible apply And.intro
    | exact Or.inl (within_bit _ rfl hm)
    | exact Or.inr rfl

theorem l2Fill_keeps {μ : Nat} {s0 t : State} (r l way : Nat) (s : State) (hk : Keeps μ s0 s)
    (e : l2Fill r l way s = some t) 
    (hm : Within 0x30000161 μ := by exact within_trans rfl (by assumption)) : Keeps μ s0 t := by
  unfold l2Fill at e
  have h := missLine_keeps r l s hk
  generalize missLine r l s = p at e h
  exact l2Take_keeps _ _ _ h e

/-- A line is filled, or the state stays. -/
theorem l2Fill_getD_keeps {μ : Nat} {s0 : State} (r l way : Nat) (s : State) (hk : Keeps μ s0 s)
    (hm : Within 0x30000161 μ := by exact within_trans rfl (by assumption)) :
    Keeps μ s0 ((l2Fill r l way s).getD s) := by
  cases e : l2Fill r l way s with
  | none => exact hk
  | some t => exact l2Fill_keeps _ _ _ _ hk e

theorem l2Miss_keeps {μ : Nat} {s0 : State} (r l way : Nat) (s : State) (hk : Keeps μ s0 s) 
    (hm : Within 0x30000161 μ := by exact within_trans rfl (by assumption)) :
    Keeps μ s0 (l2Miss r l way s) := by
  unfold l2Miss
  split
  · exact l2Fill_getD_keeps _ _ _ _ hk
  · exact hk

theorem writebackIssue_keeps {μ : Nat} {s0 : State} (s : State)  (hk : Keeps μ s0 s) (hm : Within 0x30000061 μ := by exact within_trans rfl (by assumption)) : Keeps μ s0 (writebackIssue s) := by
  unfold writebackIssue
  try dsimp only
  repeat' first
    | with_reducible assumption
    | exact within_trans rfl hm
    | with_reducible apply modCch_keeps
    | with_reducible apply showWback_keeps
    | with_reducible apply writeLine_keeps
    | split
    | (intro)
    | with_reducible apply keeps_mk
    | with_reducible apply And.intro
    | exact Or.inl (within_bit _ rfl hm)
    | exact Or.inr rfl

theorem endRead_keeps {μ : Nat} {s0 : State} (r : Option Nat × State) (hk : Keeps μ s0 r.2) 
    (hm : Within 0x18 μ := by exact within_trans rfl (by assumption)) : Keeps μ s0 (endRead r) := by
  unfold endRead
  split
  · exact answer_keeps _ _ hk
  · exact busFault_keeps _ hk

theorem endWrite_keeps {μ : Nat} {s0 : State} (r : Bool × State) (hk : Keeps μ s0 r.2) 
    (hm : Within 0x10 μ := by exact within_trans rfl (by assumption)) : Keeps μ s0 (endWrite r) := by
  unfold endWrite
  split
  · exact busOk_keeps _ hk
  · exact busFault_keeps _ hk

theorem setL2Word_keeps {μ : Nat} {s0 : State} (l k : Nat) (w : SramWord) (dirty : Bool) (s : State)  (hk : Keeps μ s0 s) (hm : Within 0x20000000 μ := by exact within_trans rfl (by assumption)) : Keeps μ s0 (setL2Word l k w dirty s) := by
  unfold setL2Word
  try dsimp only
  repeat' first
    | with_reducible assumption
    | exact within_trans rfl hm
    | with_reducible apply modCch_keeps
    | with_reducible apply keeps_ite
    | split
    | (intro)
    | with_reducible apply keeps_mk
    | with_reducible apply And.intro
    | exact Or.inl (within_bit _ rfl hm)
    | exact Or.inr rfl

theorem l2Word_keeps {μ : Nat} {s0 : State} (l k : Nat) (s : State)  (hk : Keeps μ s0 s) (hm : Within 0x20000120 μ := by exact within_trans rfl (by assumption)) : Keeps μ s0 (l2Word l k s).2 := by
  unfold l2Word
  try dsimp only
  repeat' first
    | with_reducible assumption
    | exact within_trans rfl hm
    | with_reducible apply satInc_keeps
    | with_reducible apply evt_keeps
    | with_reducible apply setL2Word_keeps
    | split
    | with_reducible apply keeps_mk
    | with_reducible apply And.intro
    | exact Or.inl (within_bit _ rfl hm)
    | exact Or.inr rfl

theorem l2Refresh_keeps {μ : Nat} {s0 : State} (r l k : Nat) (s : State)  (hk : Keeps μ s0 s) (hm : Within 0x30000161 μ := by exact within_trans rfl (by assumption)) : Keeps μ s0 (l2Refresh r l k s) := by
  unfold l2Refresh
  try dsimp only
  repeat' first
    | with_reducible assumption
    | exact within_trans rfl hm
    | with_reducible apply satInc_keeps
    | with_reducible apply modCch_keeps
    | with_reducible apply readLine_keeps
    | with_reducible apply keeps_ite
    | split
    | refine keeps_snd (by with_reducible assumption) ?_
    | (intro)
    | with_reducible apply keeps_mk
    | with_reducible apply And.intro
    | exact Or.inl (within_bit _ rfl hm)
    | exact Or.inr rfl

theorem throughL2_keeps {μ : Nat} {s0 : State} (r i way : Nat) (f : State → State) (s : State)
    (hf : ∀ t, Keeps μ s0 t → Keeps μ s0 (f t)) (hk : Keeps μ s0 s) 
    (hm : Within 0x30000161 μ := by exact within_trans rfl (by assumption)) : Keeps μ s0 (throughL2 r i way f s) := by
  unfold throughL2
  dsimp only
  split
  · exact hk
  · split
    · rename_i t e
      refine hf _ (l2Refresh_keeps _ _ _ _ ?_)
      split at e
      · simp only [Option.some.injEq] at e
        exact e ▸ hk
      · exact l2Fill_keeps _ _ _ _ hk e
    · exact hk

theorem sramRead_keeps {μ : Nat} {s0 : State} (r i way : Nat) (s : State)  (hk : Keeps μ s0 s) (hm : Within 0x30000179 μ := by exact within_trans rfl (by assumption)) : Keeps μ s0 (sramRead r i way s) := by
  unfold sramRead
  try dsimp only
  repeat' first
    | with_reducible assumption
    | exact within_trans rfl hm
    | with_reducible apply ctlRead_keeps
    | with_reducible apply endRead_keeps
    | with_reducible apply l2Word_keeps
    | with_reducible apply throughL2_keeps
    | with_reducible apply keeps_ite
    | split
    | refine keeps_snd (by with_reducible assumption) ?_
    | (intro)

theorem storeWord_keeps {μ : Nat} {s0 : State} (r i v mask way : Nat) (s : State)  (hk : Keeps μ s0 s) (hm : Within 0x30000171 μ := by exact within_trans rfl (by assumption)) : Keeps μ s0 (storeWord r i v mask way s) := by
  unfold storeWord
  try dsimp only
  repeat' first
    | with_reducible assumption
    | exact within_trans rfl hm
    | with_reducible apply busOk_keeps
    | with_reducible apply busFault_keeps
    | with_reducible apply evt_keeps
    | with_reducible apply ctlWrite_keeps
    | with_reducible apply ctlNarrow_keeps
    | with_reducible apply endWrite_keeps
    | with_reducible apply setL2Word_keeps
    | with_reducible apply l2Word_keeps
    | with_reducible apply throughL2_keeps
    | with_reducible apply keeps_ite
    | split
    | refine keeps_snd (by with_reducible assumption) ?_
    | (intro)
    | with_reducible apply keeps_mk
    | with_reducible apply And.intro
    | exact Or.inl (within_bit _ rfl hm)
    | exact Or.inr rfl

theorem showScrub_keeps {μ : Nat} {s0 : State} (s : State)  (hk : Keeps μ s0 s) (hm : Within 0x20 μ := by exact within_trans rfl (by assumption)) : Keeps μ s0 (showScrub s) := by
  unfold showScrub
  try dsimp only
  repeat' first
    | with_reducible assumption
    | exact within_trans rfl hm
    | with_reducible apply setBit_keeps

theorem scrubLap_keeps {μ : Nat} {s0 : State} (s : State)  (hk : Keeps μ s0 s) (hm : Within 0x10000020 μ := by exact within_trans rfl (by assumption)) : Keeps μ s0 (scrubLap s) := by
  unfold scrubLap
  try dsimp only
  repeat' first
    | with_reducible assumption
    | exact within_trans rfl hm
    | with_reducible apply wrN_keeps
    | with_reducible apply wrapInc_keeps
    | with_reducible apply modEcc_keeps
    | (intro)
    | with_reducible apply keeps_mk
    | with_reducible apply And.intro
    | exact Or.inl (within_bit _ rfl hm)
    | exact Or.inr rfl

theorem scrubRead_keeps {μ : Nat} {s0 : State} (s : State)  (hk : Keeps μ s0 s) (hm : Within 0x10000161 μ := by exact within_trans rfl (by assumption)) : Keeps μ s0 (scrubRead s) := by
  unfold scrubRead
  try dsimp only
  repeat' first
    | with_reducible assumption
    | exact within_trans rfl hm
    | with_reducible apply wrN_keeps
    | with_reducible apply ctlRead_keeps
    | with_reducible apply scrubLap_keeps
    | with_reducible apply keeps_ite
    | split
    | refine keeps_snd (by with_reducible assumption) ?_

theorem scrubLate_keeps {μ : Nat} {s0 : State} (s : State)  (hk : Keeps μ s0 s) (hm : Within 0x10000120 μ := by exact within_trans rfl (by assumption)) : Keeps μ s0 (scrubLate s) := by
  unfold scrubLate
  try dsimp only
  repeat' first
    | with_reducible assumption
    | exact within_trans rfl hm
    | with_reducible apply evt_keeps
    | with_reducible apply modEcc_keeps
    | with_reducible apply keeps_ite
    | split
    | (intro)
    | with_reducible apply keeps_mk
    | with_reducible apply And.intro
    | exact Or.inl (within_bit _ rfl hm)
    | exact Or.inr rfl

theorem turnOn_keeps {μ : Nat} {s0 : State} (s : State)  (hk : Keeps μ s0 s) (hm : Within 0x20 μ := by exact within_trans rfl (by assumption)) : Keeps μ s0 (turnOn s) := by
  unfold turnOn
  try dsimp only
  repeat' first
    | with_reducible assumption
    | exact within_trans rfl hm
    | with_reducible apply setBit_keeps

theorem l2enClear_keeps {μ : Nat} {s0 : State} (s : State)  (hk : Keeps μ s0 s) (hm : Within 0x20000020 μ := by exact within_trans rfl (by assumption)) : Keeps μ s0 (l2enClear s) := by
  unfold l2enClear
  try dsimp only
  repeat' first
    | with_reducible assumption
    | exact within_trans rfl hm
    | with_reducible apply setBit_keeps
    | with_reducible apply modCch_keeps
    | with_reducible apply keeps_ite
    | split
    | (intro)
    | with_reducible apply keeps_mk
    | with_reducible apply And.intro
    | exact Or.inl (within_bit _ rfl hm)
    | exact Or.inr rfl

theorem writeDirty_keeps {μ : Nat} {s0 : State} (l : List CacheLine) (s : State)  (hk : Keeps μ s0 s) (hm : Within 0x10000061 μ := by exact within_trans rfl (by assumption)) : Keeps μ s0 (writeDirty l s) := by
  unfold writeDirty
  try dsimp only
  repeat' first
    | (with_reducible apply keeps_foldl; intro s _ hk)
    | with_reducible assumption
    | exact within_trans rfl hm
    | with_reducible apply writeLine_keeps
    | (intro)

theorem drainDone_keeps {μ : Nat} {s0 : State} (s : State)  (hk : Keeps μ s0 s) (hm : Within 0x30000161 μ := by exact within_trans rfl (by assumption)) : Keeps μ s0 (drainDone s) := by
  unfold drainDone
  try dsimp only
  repeat' first
    | with_reducible assumption
    | exact within_trans rfl hm
    | with_reducible apply setBit_keeps
    | with_reducible apply evt_keeps
    | with_reducible apply modCch_keeps
    | with_reducible apply showWback_keeps
    | with_reducible apply turnOn_keeps
    | with_reducible apply writeDirty_keeps
    | with_reducible apply keeps_ite
    | split
    | (intro)
    | with_reducible apply keeps_mk
    | with_reducible apply And.intro
    | exact Or.inl (within_bit _ rfl hm)
    | exact Or.inr rfl

theorem l2enSet_keeps {μ : Nat} {s0 : State} (s : State)  (hk : Keeps μ s0 s) (hm : Within 0x20000020 μ := by exact within_trans rfl (by assumption)) : Keeps μ s0 (l2enSet s) := by
  unfold l2enSet
  try dsimp only
  repeat' first
    | with_reducible assumption
    | exact within_trans rfl hm
    | with_reducible apply setBit_keeps
    | with_reducible apply modCch_keeps
    | with_reducible apply turnOn_keeps
    | with_reducible apply keeps_ite
    | split
    | (intro)
    | with_reducible apply keeps_mk
    | with_reducible apply And.intro
    | exact Or.inl (within_bit _ rfl hm)
    | exact Or.inr rfl

theorem basinenClear_keeps {μ : Nat} {s0 : State} (s : State)  (hk : Keeps μ s0 s) (hm : Within 0x30000061 μ := by exact within_trans rfl (by assumption)) : Keeps μ s0 (basinenClear s) := by
  unfold basinenClear
  try dsimp only
  repeat' first
    | with_reducible assumption
    | exact within_trans rfl hm
    | with_reducible apply setBit_keeps
    | with_reducible apply modCch_keeps
    | with_reducible apply writeDirty_keeps
    | with_reducible apply keeps_ite
    | split
    | (intro)
    | with_reducible apply keeps_mk
    | with_reducible apply And.intro
    | exact Or.inl (within_bit _ rfl hm)
    | exact Or.inr rfl

theorem ncWrite_keeps {μ : Nat} {s0 : State} (n : Nat) (size : Bool) (v : Nat) (s : State)  (hk : Keeps μ s0 s) (hm : Within 0x120 μ := by exact within_trans rfl (by assumption)) : Keeps μ s0 (ncWrite n size v s) := by
  unfold ncWrite
  try dsimp only
  repeat' first
    | with_reducible assumption
    | exact within_trans rfl hm
    | with_reducible apply plainWrite_keeps
    | with_reducible apply evt_keeps
    | with_reducible apply keeps_ite
    | split

theorem invalidateCaches_keeps {μ : Nat} {s0 : State} (s : State)  (hk : Keeps μ s0 s) (hm : Within 0x20000020 μ := by exact within_trans rfl (by assumption)) : Keeps μ s0 (invalidateCaches s) := by
  unfold invalidateCaches
  try dsimp only
  repeat' first
    | with_reducible assumption
    | exact within_trans rfl hm
    | with_reducible apply setBit_keeps
    | with_reducible apply modCch_keeps
    | with_reducible apply showWback_keeps
    | with_reducible apply turnOn_keeps
    | with_reducible apply keeps_ite
    | split
    | (intro)
    | with_reducible apply keeps_mk
    | with_reducible apply And.intro
    | exact Or.inl (within_bit _ rfl hm)
    | exact Or.inr rfl

theorem wdKick_keeps {μ : Nat} {s0 : State} (c v : Nat) (s : State)  (hk : Keeps μ s0 s) (hm : Within 0x20000000 μ := by exact within_trans rfl (by assumption)) : Keeps μ s0 (wdKick c v s) := by
  unfold wdKick
  try dsimp only
  repeat' first
    | with_reducible assumption
    | exact within_trans rfl hm
    | with_reducible apply modCch_keeps
    | with_reducible apply keeps_ite
    | split
    | (intro)
    | with_reducible apply keeps_mk
    | with_reducible apply And.intro
    | exact Or.inl (within_bit _ rfl hm)
    | exact Or.inr rfl

end Sys2Proof.Machine
end

