-- ==== Sys2Proof/Laws/KeepsNetwork.lean ====
section
/-! SUPPORT. The operations of Network.lean keep the queue and the canonical stores. -/

set_option Elab.async false

namespace Sys2Proof.Machine

theorem showPorts_keeps {μ : Nat} {s0 : State} (s : State)  (hk : Keeps μ s0 s) (hm : Within 0x20 μ := by exact within_trans rfl (by assumption)) : Keeps μ s0 (showPorts s) := by
  unfold showPorts
  try dsimp only
  repeat' first
    | (with_reducible apply keeps_foldl; intro s _ hk)
    | with_reducible assumption
    | exact within_trans rfl hm
    | with_reducible apply setBit_keeps
    | (intro)

theorem showOcc_keeps {μ : Nat} {s0 : State} (r : Nat) (s : State)  (hk : Keeps μ s0 s) (hm : Within 0x20 μ := by exact within_trans rfl (by assumption)) : Keeps μ s0 (showOcc r s) := by
  unfold showOcc
  try dsimp only
  repeat' first
    | with_reducible assumption
    | exact within_trans rfl hm
    | with_reducible apply wrN_keeps

theorem publish_keeps {μ : Nat} {s0 : State} (r : Nat) (k : Packet) (s : State)  (hk : Keeps μ s0 s) (hm : Within 0x8000020 μ := by exact within_trans rfl (by assumption)) : Keeps μ s0 (publish r k s) := by
  unfold publish
  try dsimp only
  repeat' first
    | with_reducible assumption
    | exact within_trans rfl hm
    | with_reducible apply wrN_keeps
    | with_reducible apply modNet_keeps
    | with_reducible apply showOcc_keeps
    | exact fun _ h => h
    | exact fun _ h => by simpa [Tsq.sized, Ctx.sized, Srv.sized, NetState.sized, AngState.sized, modAt_length, modAt_all] using h
    | (intro)
    | with_reducible apply keeps_mk
    | with_reducible apply And.intro
    | exact Or.inl (within_bit _ rfl hm)
    | exact Or.inr rfl
    | assumption

theorem pastPacket_keeps {μ : Nat} {s0 : State} (r : Nat) (s : State)  (hk : Keeps μ s0 s) (hm : Within 0x8000020 μ := by exact within_trans rfl (by assumption)) : Keeps μ s0 (pastPacket r s) := by
  unfold pastPacket
  try dsimp only
  repeat' first
    | with_reducible assumption
    | exact within_trans rfl hm
    | with_reducible apply wrN_keeps
    | with_reducible apply modNet_keeps
    | with_reducible apply showOcc_keeps
    | split
    | exact fun _ h => h
    | exact fun _ h => by simpa [Tsq.sized, Ctx.sized, Srv.sized, NetState.sized, AngState.sized, modAt_length, modAt_all] using h
    | (intro)
    | with_reducible apply keeps_mk
    | with_reducible apply And.intro
    | exact Or.inl (within_bit _ rfl hm)
    | exact Or.inr rfl
    | assumption

theorem emptyRunnel_keeps {μ : Nat} {s0 : State} (r : Nat) (s : State)  (hk : Keeps μ s0 s) (hm : Within 0x8000020 μ := by exact within_trans rfl (by assumption)) : Keeps μ s0 (emptyRunnel r s) := by
  unfold emptyRunnel
  try dsimp only
  repeat' first
    | with_reducible assumption
    | exact within_trans rfl hm
    | with_reducible apply wrN_keeps
    | with_reducible apply modNet_keeps
    | with_reducible apply showOcc_keeps
    | exact fun _ h => h
    | exact fun _ h => by simpa [Tsq.sized, Ctx.sized, Srv.sized, NetState.sized, AngState.sized, modAt_length, modAt_all] using h
    | (intro)
    | with_reducible apply keeps_mk
    | with_reducible apply And.intro
    | exact Or.inl (within_bit _ rfl hm)
    | exact Or.inr rfl
    | assumption

theorem dropPacket_keeps {μ : Nat} {s0 : State} (r : Nat) (s : State)  (hk : Keeps μ s0 s) (hm : Within 0x8000020 μ := by exact within_trans rfl (by assumption)) : Keeps μ s0 (dropPacket r s) := by
  unfold dropPacket
  try dsimp only
  repeat' first
    | with_reducible assumption
    | exact within_trans rfl hm
    | with_reducible apply satInc_keeps
    | with_reducible apply pastPacket_keeps
    | with_reducible apply keeps_ite
    | split

theorem flushRunnel_keeps {μ : Nat} {s0 : State} (r : Nat) (s : State)  (hk : Keeps μ s0 s) (hm : Within 0x8000120 μ := by exact within_trans rfl (by assumption)) : Keeps μ s0 (flushRunnel r s) := by
  unfold flushRunnel
  try dsimp only
  repeat' first
    | with_reducible assumption
    | exact within_trans rfl hm
    | with_reducible apply satInc_keeps
    | with_reducible apply evt_keeps
    | with_reducible apply emptyRunnel_keeps

theorem updatePfc_keeps {μ : Nat} {s0 : State} (p tc : Nat) (s : State)  (hk : Keeps μ s0 s) (hm : Within 0x8000000 μ := by exact within_trans rfl (by assumption)) : Keeps μ s0 (updatePfc p tc s) := by
  unfold updatePfc
  try dsimp only
  repeat' first
    | with_reducible assumption
    | exact within_trans rfl hm
    | with_reducible apply modPort_keeps
    | with_reducible apply sendPfc_keeps
    | with_reducible apply keeps_ite
    | split
    | (intro)
    | with_reducible apply keeps_mk
    | with_reducible apply And.intro
    | exact Or.inl (within_bit _ rfl hm)
    | exact Or.inr rfl

theorem pfcResend_keeps {μ : Nat} {s0 : State} (p : Nat) (s : State)  (hk : Keeps μ s0 s) (hm : Within 0x8000000 μ := by exact within_trans rfl (by assumption)) : Keeps μ s0 (pfcResend p s) := by
  unfold pfcResend
  try dsimp only
  repeat' first
    | with_reducible assumption
    | exact within_trans rfl hm
    | with_reducible apply sendPfc_keeps
    | with_reducible apply keeps_ite
    | split
    | with_reducible apply keeps_mk
    | with_reducible apply And.intro
    | exact Or.inl (within_bit _ rfl hm)
    | exact Or.inr rfl

theorem pfcFrame_keeps {μ : Nat} {s0 : State} (p m t : Nat) (s : State)  (hk : Keeps μ s0 s) (hm : Within 0x8000000 μ := by exact within_trans rfl (by assumption)) : Keeps μ s0 (pfcFrame p m t s) := by
  unfold pfcFrame
  try dsimp only
  repeat' first
    | (with_reducible apply keeps_foldl; intro s _ hk)
    | with_reducible assumption
    | exact within_trans rfl hm
    | with_reducible apply modPort_keeps
    | with_reducible apply keeps_ite
    | split
    | (intro)
    | with_reducible apply keeps_mk
    | with_reducible apply And.intro
    | exact Or.inl (within_bit _ rfl hm)
    | exact Or.inr rfl

theorem pfcPauseEnd_keeps {μ : Nat} {s0 : State} (p q : Nat) (s : State)  (hk : Keeps μ s0 s) (hm : Within 0x8000000 μ := by exact within_trans rfl (by assumption)) : Keeps μ s0 (pfcPauseEnd p q s) := by
  unfold pfcPauseEnd
  try dsimp only
  repeat' first
    | with_reducible assumption
    | exact within_trans rfl hm
    | with_reducible apply modPort_keeps
    | (intro)
    | with_reducible apply keeps_mk
    | with_reducible apply And.intro
    | exact Or.inl (within_bit _ rfl hm)
    | exact Or.inr rfl

theorem announce_keeps {μ : Nat} {s0 : State} (p : Nat) (s : State)  (hk : Keeps μ s0 s) (hm : Within 0x8000000 μ := by exact within_trans rfl (by assumption)) : Keeps μ s0 (announce p s) := by
  unfold announce
  try dsimp only
  repeat' first
    | with_reducible assumption
    | exact within_trans rfl hm
    | with_reducible apply modPort_keeps
    | with_reducible apply send_keeps
    | (intro)
    | with_reducible apply keeps_mk
    | with_reducible apply And.intro
    | exact Or.inl (within_bit _ rfl hm)
    | exact Or.inr rfl

theorem takeOver_keeps {μ : Nat} {s0 : State} (p o : Nat) (s : State)  (hk : Keeps μ s0 s) (hm : Within 0x208000120 μ := by exact within_trans rfl (by assumption)) : Keeps μ s0 (takeOver p o s) := by
  unfold takeOver
  try dsimp only
  repeat' first
    | (with_reducible apply keeps_foldl; intro s _ hk)
    | with_reducible assumption
    | exact within_trans rfl hm
    | with_reducible apply satAdd_keeps
    | with_reducible apply evt_keeps
    | with_reducible apply streamSuspend_keeps
    | with_reducible apply modNet_keeps
    | with_reducible apply modPort_keeps
    | with_reducible apply emptyRunnel_keeps
    | with_reducible apply announce_keeps
    | with_reducible apply keeps_ite
    | split
    | exact fun _ h => h
    | exact fun _ h => by simpa [Tsq.sized, Ctx.sized, Srv.sized, NetState.sized, AngState.sized, modAt_length, modAt_all] using h
    | (intro)
    | with_reducible apply keeps_mk
    | with_reducible apply And.intro
    | exact Or.inl (within_bit _ rfl hm)
    | exact Or.inr rfl
    | assumption

theorem failPort_keeps {μ : Nat} {s0 : State} (p : Nat) (why : PortFail) (s : State)  (hk : Keeps μ s0 s) (hm : Within 0x208000121 μ := by exact within_trans rfl (by assumption)) : Keeps μ s0 (failPort p why s) := by
  unfold failPort
  try dsimp only
  repeat' first
    | with_reducible assumption
    | exact within_trans rfl hm
    | with_reducible apply evt_keeps
    | with_reducible apply modPort_keeps
    | with_reducible apply tstSweep_keeps
    | with_reducible apply showPorts_keeps
    | with_reducible apply takeOver_keeps
    | with_reducible apply keeps_ite
    | split
    | (intro)
    | with_reducible apply keeps_mk
    | with_reducible apply And.intro
    | exact Or.inl (within_bit _ rfl hm)
    | exact Or.inr rfl

theorem returnPort_keeps {μ : Nat} {s0 : State} (p : Nat) (s : State)  (hk : Keeps μ s0 s) (hm : Within 0x8000120 μ := by exact within_trans rfl (by assumption)) : Keeps μ s0 (returnPort p s) := by
  unfold returnPort
  try dsimp only
  repeat' first
    | with_reducible assumption
    | exact within_trans rfl hm
    | with_reducible apply evt_keeps
    | with_reducible apply modNet_keeps
    | with_reducible apply modPort_keeps
    | with_reducible apply showPorts_keeps
    | with_reducible apply announce_keeps
    | exact fun _ h => h
    | exact fun _ h => by simpa [Tsq.sized, Ctx.sized, Srv.sized, NetState.sized, AngState.sized, modAt_length, modAt_all] using h
    | (intro)
    | with_reducible apply keeps_mk
    | with_reducible apply And.intro
    | exact Or.inl (within_bit _ rfl hm)
    | exact Or.inr rfl
    | assumption

theorem portBack_keeps {μ : Nat} {s0 : State} (p : Nat) (s : State)  (hk : Keeps μ s0 s) (hm : Within 0x8000120 μ := by exact within_trans rfl (by assumption)) : Keeps μ s0 (portBack p s) := by
  unfold portBack
  try dsimp only
  repeat' first
    | with_reducible assumption
    | exact within_trans rfl hm
    | with_reducible apply modPort_keeps
    | with_reducible apply returnPort_keeps
    | with_reducible apply keeps_ite
    | split
    | (intro)
    | with_reducible apply keeps_mk
    | with_reducible apply And.intro
    | exact Or.inl (within_bit _ rfl hm)
    | exact Or.inr rfl

theorem fback_keeps {μ : Nat} {s0 : State} (p : Nat) (s : State)  (hk : Keeps μ s0 s) (hm : Within 0x8000120 μ := by exact within_trans rfl (by assumption)) : Keeps μ s0 (fback p s) := by
  unfold fback
  try dsimp only
  repeat' first
    | with_reducible assumption
    | exact within_trans rfl hm
    | with_reducible apply returnPort_keeps
    | with_reducible apply keeps_ite
    | split

theorem announceRepeat_keeps {μ : Nat} {s0 : State} (p : Nat) (s : State)  (hk : Keeps μ s0 s) (hm : Within 0x8000000 μ := by exact within_trans rfl (by assumption)) : Keeps μ s0 (announceRepeat p s) := by
  unfold announceRepeat
  try dsimp only
  repeat' first
    | with_reducible assumption
    | exact within_trans rfl hm
    | with_reducible apply modPort_keeps
    | with_reducible apply send_keeps
    | with_reducible apply keeps_ite
    | split
    | (intro)
    | with_reducible apply keeps_mk
    | with_reducible apply And.intro
    | exact Or.inl (within_bit _ rfl hm)
    | exact Or.inr rfl

theorem trainFails_keeps {μ : Nat} {s0 : State} (p m : Nat) (s : State)  (hk : Keeps μ s0 s) (hm : Within 0x8000120 μ := by exact within_trans rfl (by assumption)) : Keeps μ s0 (trainFails p m s) := by
  unfold trainFails
  try dsimp only
  repeat' first
    | with_reducible assumption
    | exact within_trans rfl hm
    | with_reducible apply setBit_keeps
    | with_reducible apply evt_keeps
    | with_reducible apply modPort_keeps
    | with_reducible apply keeps_ite
    | split
    | (intro)
    | with_reducible apply keeps_mk
    | with_reducible apply And.intro
    | exact Or.inl (within_bit _ rfl hm)
    | exact Or.inr rfl

theorem autoNegotiate_keeps {μ : Nat} {s0 : State} (p partner : Nat) (ok : Bool) (s : State)  (hk : Keeps μ s0 s) (hm : Within 0x8000120 μ := by exact within_trans rfl (by assumption)) : Keeps μ s0 (autoNegotiate p partner ok s) := by
  unfold autoNegotiate
  try dsimp only
  repeat' first
    | with_reducible assumption
    | exact within_trans rfl hm
    | with_reducible apply setBit_keeps
    | with_reducible apply wrN_keeps
    | with_reducible apply modPort_keeps
    | with_reducible apply trainFails_keeps
    | with_reducible apply keeps_ite
    | split
    | (intro)
    | with_reducible apply keeps_mk
    | with_reducible apply And.intro
    | exact Or.inl (within_bit _ rfl hm)
    | exact Or.inr rfl

theorem aneffReload_keeps {μ : Nat} {s0 : State} (p : Nat) (s : State)  (hk : Keeps μ s0 s) (hm : Within 0x8000020 μ := by exact within_trans rfl (by assumption)) : Keeps μ s0 (aneffReload p s) := by
  unfold aneffReload
  try dsimp only
  repeat' first
    | with_reducible assumption
    | exact within_trans rfl hm
    | with_reducible apply wr_keeps
    | with_reducible apply modPort_keeps
    | with_reducible apply keeps_ite
    | split
    | (intro)
    | with_reducible apply keeps_mk
    | with_reducible apply And.intro
    | exact Or.inl (within_bit _ rfl hm)
    | exact Or.inr rfl

theorem anadvWrite_keeps {μ : Nat} {s0 : State} (p v : Nat) (s : State)  (hk : Keeps μ s0 s) (hm : Within 0x8000020 μ := by exact within_trans rfl (by assumption)) : Keeps μ s0 (anadvWrite p v s) := by
  unfold anadvWrite
  try dsimp only
  repeat' first
    | with_reducible assumption
    | exact within_trans rfl hm
    | with_reducible apply wr_keeps
    | with_reducible apply plainWrite_keeps
    | with_reducible apply modPort_keeps
    | (intro)
    | with_reducible apply keeps_mk
    | with_reducible apply And.intro
    | exact Or.inl (within_bit _ rfl hm)
    | exact Or.inr rfl

theorem linkRises_keeps {μ : Nat} {s0 : State} (p : Nat) (s : State)  (hk : Keeps μ s0 s) (hm : Within 0x208000120 μ := by exact within_trans rfl (by assumption)) : Keeps μ s0 (linkRises p s) := by
  unfold linkRises
  try dsimp only
  repeat' first
    | with_reducible assumption
    | exact within_trans rfl hm
    | with_reducible apply setF_keeps
    | with_reducible apply setBit_keeps
    | with_reducible apply evt_keeps
    | with_reducible apply modNet_keeps
    | with_reducible apply modPort_keeps
    | with_reducible apply showPorts_keeps
    | with_reducible apply takeOver_keeps
    | with_reducible apply keeps_ite
    | split
    | exact fun _ h => h
    | exact fun _ h => by simpa [Tsq.sized, Ctx.sized, Srv.sized, NetState.sized, AngState.sized, modAt_length, modAt_all] using h
    | (intro)
    | with_reducible apply keeps_mk
    | with_reducible apply And.intro
    | exact Or.inl (within_bit _ rfl hm)
    | exact Or.inr rfl
    | assumption

theorem linkFalls_keeps {μ : Nat} {s0 : State} (p : Nat) (s : State)  (hk : Keeps μ s0 s) (hm : Within 0x208000121 μ := by exact within_trans rfl (by assumption)) : Keeps μ s0 (linkFalls p s) := by
  unfold linkFalls
  try dsimp only
  repeat' first
    | with_reducible assumption
    | exact within_trans rfl hm
    | with_reducible apply setF_keeps
    | with_reducible apply setBit_keeps
    | with_reducible apply evt_keeps
    | with_reducible apply modPort_keeps
    | with_reducible apply tstSweep_keeps
    | with_reducible apply showPorts_keeps
    | with_reducible apply failPort_keeps
    | with_reducible apply keeps_ite
    | split
    | (intro)
    | with_reducible apply keeps_mk
    | with_reducible apply And.intro
    | exact Or.inl (within_bit _ rfl hm)
    | exact Or.inr rfl

theorem msLoad_keeps {μ : Nat} {s0 : State} (p v : Nat) (s : State)  (hk : Keeps μ s0 s) (hm : Within 0x8000000 μ := by exact within_trans rfl (by assumption)) : Keeps μ s0 (msLoad p v s) := by
  unfold msLoad
  try dsimp only
  repeat' first
    | with_reducible assumption
    | exact within_trans rfl hm
    | with_reducible apply modPort_keeps
    | with_reducible apply keeps_ite
    | split
    | (intro)
    | with_reducible apply keeps_mk
    | with_reducible apply And.intro
    | exact Or.inl (within_bit _ rfl hm)
    | exact Or.inr rfl

theorem invoke_keeps {μ : Nat} {s0 : State} (k : Nat) (s : State)  (hk : Keeps μ s0 s) (hm : Within 0x40000020 μ := by exact within_trans rfl (by assumption)) : Keeps μ s0 (invoke k s) := by
  unfold invoke
  try dsimp only
  repeat' first
    | with_reducible assumption
    | exact within_trans rfl hm
    | with_reducible apply wrapInc_keeps
    | with_reducible apply refreshSlot_keeps
    | split
    | with_reducible apply keeps_mk
    | with_reducible apply And.intro
    | exact Or.inl (within_bit _ rfl hm)
    | exact Or.inr rfl

theorem raisePn_keeps {μ : Nat} {s0 : State} (p : Nat) (x : Option (MacSa × Nat)) (s : State)  (hk : Keeps μ s0 s) (hm : Within 0x8000000 μ := by exact within_trans rfl (by assumption)) : Keeps μ s0 (raisePn p x s) := by
  unfold raisePn
  try dsimp only
  repeat' first
    | with_reducible assumption
    | exact within_trans rfl hm
    | with_reducible apply modPort_keeps
    | with_reducible apply keeps_ite
    | split
    | (intro)
    | with_reducible apply keeps_mk
    | with_reducible apply And.intro
    | exact Or.inl (within_bit _ rfl hm)
    | exact Or.inr rfl

theorem showTxpn_keeps {μ : Nat} {s0 : State} (p : Nat) (s : State)  (hk : Keeps μ s0 s) (hm : Within 0x20 μ := by exact within_trans rfl (by assumption)) : Keeps μ s0 (showTxpn p s) := by
  unfold showTxpn
  try dsimp only
  repeat' first
    | with_reducible assumption
    | exact within_trans rfl hm
    | with_reducible apply wr64_keeps

theorem msTxpnWrite_keeps {μ : Nat} {s0 : State} (p v : Nat) (s : State)  (hk : Keeps μ s0 s) (hm : Within 0x8000020 μ := by exact within_trans rfl (by assumption)) : Keeps μ s0 (msTxpnWrite p v s) := by
  unfold msTxpnWrite
  try dsimp only
  repeat' first
    | with_reducible assumption
    | exact within_trans rfl hm
    | with_reducible apply modPort_keeps
    | with_reducible apply showTxpn_keeps
    | (intro)
    | with_reducible apply keeps_mk
    | with_reducible apply And.intro
    | exact Or.inl (within_bit _ rfl hm)
    | exact Or.inr rfl

theorem takePn_keeps {μ : Nat} {s0 : State} (p : Nat) (s : State)  (hk : Keeps μ s0 s) (hm : Within 0x8000120 μ := by exact within_trans rfl (by assumption)) : Keeps μ s0 (takePn p s) := by
  unfold takePn
  try dsimp only
  repeat' first
    | with_reducible assumption
    | exact within_trans rfl hm
    | with_reducible apply evtIf_keeps
    | with_reducible apply modPort_keeps
    | with_reducible apply showTxpn_keeps
    | (intro)
    | with_reducible apply keeps_mk
    | with_reducible apply And.intro
    | exact Or.inl (within_bit _ rfl hm)
    | exact Or.inr rfl

theorem frameReceive_keeps {μ : Nat} {s0 : State} (p : Nat) (b : List Nat) (faulty : Bool) (s : State)  (hk : Keeps μ s0 s) (hm : Within 0x8000120 μ := by exact within_trans rfl (by assumption)) : Keeps μ s0 (frameReceive p b faulty s) := by
  unfold frameReceive
  try dsimp only
  repeat' first
    | with_reducible assumption
    | exact within_trans rfl hm
    | with_reducible apply satInc_keeps
    | with_reducible apply wrapInc_keeps
    | with_reducible apply evt_keeps
    | with_reducible apply publish_keeps
    | with_reducible apply updatePfc_keeps
    | with_reducible apply keeps_ite
    | split

theorem toFirmwareRx_keeps {μ : Nat} {s0 : State} (p : Nat) (k : Packet) (c : List Nat) (s : State)  (hk : Keeps μ s0 s) (hm : Within 0x8080160 μ := by exact within_trans rfl (by assumption)) : Keeps μ s0 (toFirmwareRx p k c s) := by
  unfold toFirmwareRx
  try dsimp only
  repeat' first
    | with_reducible assumption
    | exact within_trans rfl hm
    | with_reducible apply satInc_keeps
    | with_reducible apply sramPutBytes_keeps
    | with_reducible apply evt_keeps
    | with_reducible apply modPort_keeps
    | with_reducible apply allocOne_keeps
    | with_reducible apply keeps_ite
    | split
    | (intro)
    | with_reducible apply keeps_mk
    | with_reducible apply And.intro
    | exact Or.inl (within_bit _ rfl hm)
    | exact Or.inr rfl

theorem steer_keeps {μ : Nat} {s0 : State} (p : Nat) (k : Packet) (c : List Nat) (s : State)  (hk : Keeps μ s0 s) (hm : Within 0x8080160 μ := by exact within_trans rfl (by assumption)) : Keeps μ s0 (steer p k c s) := by
  unfold steer
  try dsimp only
  repeat' first
    | with_reducible assumption
    | exact within_trans rfl hm
    | with_reducible apply satInc_keeps
    | with_reducible apply toFirmwareRx_keeps
    | with_reducible apply keeps_ite
    | split

theorem invokeRx_keeps {μ : Nat} {s0 : State} (p : Nat) (b : List Nat) (s : State)  (hk : Keeps μ s0 s) (hm : Within 0x40000020 μ := by exact within_trans rfl (by assumption)) : Keeps μ s0 (invokeRx p b s) := by
  unfold invokeRx
  try dsimp only
  repeat' first
    | with_reducible assumption
    | exact within_trans rfl hm
    | with_reducible apply invoke_keeps
    | split
    | with_reducible apply keeps_mk
    | with_reducible apply And.intro
    | exact Or.inl (within_bit _ rfl hm)
    | exact Or.inr rfl

theorem checkPacket_keeps {μ : Nat} {s0 : State} (p r : Nat) (k : Packet) (intact digests : Bool) (s : State)  (hk : Keeps μ s0 s) (hm : Within 0x48080160 μ := by exact within_trans rfl (by assumption)) : Keeps μ s0 (checkPacket p r k intact digests s) := by
  unfold checkPacket
  try dsimp only
  repeat' first
    | with_reducible assumption
    | exact within_trans rfl hm
    | with_reducible apply satInc_keeps
    | with_reducible apply pastPacket_keeps
    | with_reducible apply dropPacket_keeps
    | with_reducible apply raisePn_keeps
    | with_reducible apply steer_keeps
    | with_reducible apply invokeRx_keeps
    | with_reducible apply keeps_ite
    | split
    | with_reducible apply keeps_mk
    | with_reducible apply And.intro
    | exact Or.inl (within_bit _ rfl hm)
    | exact Or.inr rfl

theorem packetConsume_keeps {μ : Nat} {s0 : State} (p tc : Nat) (header intact digests : Bool) (s : State)  (hk : Keeps μ s0 s) (hm : Within 0x48080160 μ := by exact within_trans rfl (by assumption)) : Keeps μ s0 (packetConsume p tc header intact digests s) := by
  unfold packetConsume
  try dsimp only
  repeat' first
    | with_reducible assumption
    | exact within_trans rfl hm
    | with_reducible apply flushRunnel_keeps
    | with_reducible apply updatePfc_keeps
    | with_reducible apply checkPacket_keeps
    | with_reducible apply keeps_ite
    | split
    | with_reducible apply keeps_mk
    | with_reducible apply And.intro
    | exact Or.inl (within_bit _ rfl hm)
    | exact Or.inr rfl

theorem fwrxPop_keeps {μ : Nat} {s0 : State} (p : Nat) (s : State)  (hk : Keeps μ s0 s) (hm : Within 0x8080178 μ := by exact within_trans rfl (by assumption)) : Keeps μ s0 (fwrxPop p s) := by
  unfold fwrxPop
  try dsimp only
  repeat' first
    | with_reducible assumption
    | exact within_trans rfl hm
    | with_reducible apply answer_keeps
    | with_reducible apply modPort_keeps
    | with_reducible apply giveBuf_keeps
    | split
    | refine keeps_snd (by with_reducible assumption) ?_
    | (intro)
    | with_reducible apply keeps_mk
    | with_reducible apply And.intro
    | exact Or.inl (within_bit _ rfl hm)
    | exact Or.inr rfl

theorem countProtected_keeps {μ : Nat} {s0 : State} (p : Nat) (c : List Nat) (s : State)  (hk : Keeps μ s0 s) (hm : Within 0x48000120 μ := by exact within_trans rfl (by assumption)) : Keeps μ s0 (countProtected p c s) := by
  unfold countProtected
  try dsimp only
  repeat' first
    | with_reducible assumption
    | exact within_trans rfl hm
    | with_reducible apply evt_keeps
    | with_reducible apply invoke_keeps
    | with_reducible apply takePn_keeps
    | with_reducible apply keeps_ite
    | split
    | with_reducible apply keeps_mk
    | with_reducible apply And.intro
    | exact Or.inl (within_bit _ rfl hm)
    | exact Or.inr rfl

theorem enterFrame_keeps {μ : Nat} {s0 t : State} (p b tc : Nat) (s : State) (hk : Keeps μ s0 s)
    (e : enterFrame p b tc s = some t) 
    (hm : Within 0x48080160 μ := by exact within_trans rfl (by assumption)) : Keeps μ s0 t := by
  unfold enterFrame at e
  dsimp only at e
  split at e
  · cases e
  · split at e
    · cases e
      exact freeBuf_keeps _ _ _ _ (countProtected_keeps _ _ _ hk)
    · split at e
      · cases e
      · cases e
        exact freeBuf_keeps _ _ _ _ (publish_keeps _ _ _ (countProtected_keeps _ _ _ hk))

theorem enterWaiting_keeps {μ : Nat} {s0 : State} (p : Nat) (s : State) (hk : Keeps μ s0 s) 
    (hm : Within 0x48080160 μ := by exact within_trans rfl (by assumption)) :
    Keeps μ s0 (enterWaiting p s) := by
  unfold enterWaiting
  refine keeps_foldl (fun t e h => ?_) hk
  split
  · rename_i u hu
    exact modPort_keeps _ _ _ (enterFrame_keeps _ _ _ _ h hu)
  · exact h

theorem fwTx_keeps {μ : Nat} {s0 : State} (p v : Nat) (s : State)  (hk : Keeps μ s0 s) (hm : Within 0x48080170 μ := by exact within_trans rfl (by assumption)) : Keeps μ s0 (fwTx p v s) := by
  unfold fwTx
  try dsimp only
  repeat' first
    | with_reducible assumption
    | exact within_trans rfl hm
    | with_reducible apply busOk_keeps
    | with_reducible apply busFault_keeps
    | with_reducible apply modPort_keeps
    | with_reducible apply giveBuf_keeps
    | with_reducible apply enterWaiting_keeps
    | split
    | refine keeps_snd (by with_reducible assumption) ?_
    | (intro)
    | with_reducible apply keeps_mk
    | with_reducible apply And.intro
    | exact Or.inl (within_bit _ rfl hm)
    | exact Or.inr rfl

theorem takeTokens_keeps {μ : Nat} {s0 : State} (p n : Nat) (s : State)  (hk : Keeps μ s0 s) (hm : Within 0x1000000 μ := by exact within_trans rfl (by assumption)) : Keeps μ s0 (takeTokens p n s) := by
  unfold takeTokens
  try dsimp only
  repeat' first
    | with_reducible assumption
    | exact within_trans rfl hm
    | with_reducible apply settleTokens_keeps
    | (intro)
    | with_reducible apply keeps_mk
    | with_reducible apply And.intro
    | exact Or.inl (within_bit _ rfl hm)
    | exact Or.inr rfl

theorem egressStamp_keeps {μ : Nat} {s0 : State} (p : Nat) (k : Packet) (s : State)  (hk : Keeps μ s0 s) (hm : Within 0x8000120 μ := by exact within_trans rfl (by assumption)) : Keeps μ s0 (egressStamp p k s) := by
  unfold egressStamp
  try dsimp only
  repeat' first
    | with_reducible assumption
    | exact within_trans rfl hm
    | with_reducible apply evt_keeps
    | with_reducible apply modNet_keeps
    | with_reducible apply keeps_ite
    | split
    | exact fun _ h => h
    | exact fun _ h => by simpa [Tsq.sized, Ctx.sized, Srv.sized, NetState.sized, AngState.sized, modAt_length, modAt_all] using h
    | (intro)
    | with_reducible apply keeps_mk
    | with_reducible apply And.intro
    | exact Or.inl (within_bit _ rfl hm)
    | exact Or.inr rfl
    | assumption

theorem sendFrame_keeps {μ : Nat} {s0 : State} (p : Nat) (k : Packet) (s : State)  (hk : Keeps μ s0 s) (hm : Within 0x8000120 μ := by exact within_trans rfl (by assumption)) : Keeps μ s0 (sendFrame p k s) := by
  unfold sendFrame
  try dsimp only
  repeat' first
    | with_reducible assumption
    | exact within_trans rfl hm
    | with_reducible apply wrapInc_keeps
    | with_reducible apply send_keeps
    | with_reducible apply egressStamp_keeps

theorem drrServed_keeps {μ : Nat} {s0 : State} (p tc : Nat) (s : State)  (hk : Keeps μ s0 s) (hm : Within 0x8000000 μ := by exact within_trans rfl (by assumption)) : Keeps μ s0 (drrServed p tc s) := by
  unfold drrServed
  try dsimp only
  repeat' first
    | with_reducible assumption
    | exact within_trans rfl hm
    | with_reducible apply modPort_keeps
    | with_reducible apply keeps_ite
    | split
    | (intro)
    | with_reducible apply keeps_mk
    | with_reducible apply And.intro
    | exact Or.inl (within_bit _ rfl hm)
    | exact Or.inr rfl

theorem frameTransmit_keeps {μ : Nat} {s0 : State} (p tc : Nat) (s : State)  (hk : Keeps μ s0 s) (hm : Within 0x49080160 μ := by exact within_trans rfl (by assumption)) : Keeps μ s0 (frameTransmit p tc s) := by
  unfold frameTransmit
  try dsimp only
  repeat' first
    | with_reducible assumption
    | exact within_trans rfl hm
    | with_reducible apply satInc_keeps
    | with_reducible apply evt_keeps
    | with_reducible apply pastPacket_keeps
    | with_reducible apply flushRunnel_keeps
    | with_reducible apply enterWaiting_keeps
    | with_reducible apply takeTokens_keeps
    | with_reducible apply sendFrame_keeps
    | with_reducible apply drrServed_keeps
    | with_reducible apply keeps_ite
    | split
    | with_reducible apply keeps_mk
    | with_reducible apply And.intro
    | exact Or.inl (within_bit _ rfl hm)
    | exact Or.inr rfl

theorem txtsidPop_keeps {μ : Nat} {s0 : State} (s : State)  (hk : Keeps μ s0 s) (hm : Within 0x8000038 μ := by exact within_trans rfl (by assumption)) : Keeps μ s0 (txtsidPop s) := by
  unfold txtsidPop
  try dsimp only
  repeat' first
    | with_reducible assumption
    | exact within_trans rfl hm
    | with_reducible apply wr64_keeps
    | with_reducible apply answer_keeps
    | with_reducible apply modNet_keeps
    | split
    | exact fun _ h => h
    | exact fun _ h => by simpa [Tsq.sized, Ctx.sized, Srv.sized, NetState.sized, AngState.sized, modAt_length, modAt_all] using h
    | (intro)
    | with_reducible apply keeps_mk
    | with_reducible apply And.intro
    | exact Or.inl (within_bit _ rfl hm)
    | exact Or.inr rfl
    | assumption

theorem afterRunnel_keeps {μ : Nat} {s0 : State} (r : Nat) (s : State)  (hk : Keeps μ s0 s) (hm : Within 0x48080160 μ := by exact within_trans rfl (by assumption)) : Keeps μ s0 (afterRunnel r s) := by
  unfold afterRunnel
  try dsimp only
  repeat' first
    | with_reducible assumption
    | exact within_trans rfl hm
    | with_reducible apply updatePfc_keeps
    | with_reducible apply enterWaiting_keeps
    | with_reducible apply keeps_ite
    | split

theorem runCmd_keeps {μ : Nat} {s0 : State} (r : Nat) (flush : Bool) (s : State)  (hk : Keeps μ s0 s) (hm : Within 0x48080160 μ := by exact within_trans rfl (by assumption)) : Keeps μ s0 (runCmd r flush s) := by
  unfold runCmd
  try dsimp only
  repeat' first
    | with_reducible assumption
    | exact within_trans rfl hm
    | with_reducible apply dropPacket_keeps
    | with_reducible apply flushRunnel_keeps
    | with_reducible apply afterRunnel_keeps
    | with_reducible apply keeps_ite
    | split

theorem portDisable_keeps {μ : Nat} {s0 : State} (p : Nat) (s : State)  (hk : Keeps μ s0 s) (hm : Within 0x48080160 μ := by exact within_trans rfl (by assumption)) : Keeps μ s0 (portDisable p s) := by
  unfold portDisable
  try dsimp only
  repeat' first
    | (with_reducible apply keeps_foldl; intro s _ hk)
    | with_reducible assumption
    | exact within_trans rfl hm
    | with_reducible apply setBit_keeps
    | with_reducible apply emptyRunnel_keeps
    | with_reducible apply afterRunnel_keeps
    | (intro)

theorem etsWrite_keeps {μ : Nat} {s0 : State} (p k v : Nat) (s : State)  (hk : Keeps μ s0 s) (hm : Within 0x120 μ := by exact within_trans rfl (by assumption)) : Keeps μ s0 (etsWrite p k v s) := by
  unfold etsWrite
  try dsimp only
  repeat' first
    | with_reducible assumption
    | exact within_trans rfl hm
    | with_reducible apply wrN_keeps
    | with_reducible apply evt_keeps
    | with_reducible apply keeps_ite
    | split

theorem ptpStep_keeps {μ : Nat} {s0 : State} (v : Nat) (s : State)  (hk : Keeps μ s0 s) (hm : Within 0x120 μ := by exact within_trans rfl (by assumption)) : Keeps μ s0 (ptpStep v s) := by
  unfold ptpStep
  try dsimp only
  repeat' first
    | with_reducible assumption
    | exact within_trans rfl hm
    | with_reducible apply wr64_keeps
    | with_reducible apply evt_keeps
    | with_reducible apply keeps_ite
    | split

end Sys2Proof.Machine
end

