-- ==== Sys2Proof/Laws/KeepsThermal.lean ====
section
/-! SUPPORT. The operations of Thermal.lean keep the queue and the canonical stores. -/

set_option Elab.async false

namespace Sys2Proof.Machine

theorem modThm_keeps {μ : Nat} {s0 : State} (s : State) (f : ThmState → ThmState)  (hk : Keeps μ s0 s) (hm : Within 0x80000000 μ := by exact within_trans rfl (by assumption)) : Keeps μ s0 (modThm s f) := by
  unfold modThm
  try dsimp only
  repeat' first
    | with_reducible assumption
    | exact within_trans rfl hm
    | with_reducible apply keeps_mk
    | with_reducible apply And.intro
    | exact Or.inl (within_bit _ rfl hm)
    | exact Or.inr rfl

theorem setTstep_keeps {μ : Nat} {s0 : State} (n : Nat) (s : State)  (hk : Keeps μ s0 s) (hm : Within 0x1000120 μ := by exact within_trans rfl (by assumption)) : Keeps μ s0 (setTstep n s) := by
  unfold setTstep
  try dsimp only
  repeat' first
    | with_reducible assumption
    | exact within_trans rfl hm
    | with_reducible apply setF_keeps
    | with_reducible apply ladder_keeps

theorem setGstep_keeps {μ : Nat} {s0 : State} (n : Nat) (s : State)  (hk : Keeps μ s0 s) (hm : Within 0x1000120 μ := by exact within_trans rfl (by assumption)) : Keeps μ s0 (setGstep n s) := by
  unfold setGstep
  try dsimp only
  repeat' first
    | with_reducible assumption
    | exact within_trans rfl hm
    | with_reducible apply setF_keeps
    | with_reducible apply setBit_keeps
    | with_reducible apply ladder_keeps

theorem compareSample_keeps {μ : Nat} {s0 : State} (v : Int) (s : State)  (hk : Keeps μ s0 s) (hm : Within 0x120 μ := by exact within_trans rfl (by assumption)) : Keeps μ s0 (compareSample v s) := by
  unfold compareSample
  try dsimp only
  repeat' first
    | with_reducible assumption
    | exact within_trans rfl hm
    | with_reducible apply setBit_keeps
    | with_reducible apply evtIf_keeps

theorem raiseTstep_keeps {μ : Nat} {s0 : State} (s : State)  (hk : Keeps μ s0 s) (hm : Within 0x1000120 μ := by exact within_trans rfl (by assumption)) : Keeps μ s0 (raiseTstep s) := by
  unfold raiseTstep
  try dsimp only
  repeat' first
    | with_reducible assumption
    | exact within_trans rfl hm
    | with_reducible apply setTstep_keeps
    | with_reducible apply keeps_ite
    | split

theorem thermalStep_keeps {μ : Nat} {s0 : State} (above : Bool) (v : Int) (s : State)  (hk : Keeps μ s0 s) (hm : Within 0x81000120 μ := by exact within_trans rfl (by assumption)) : Keeps μ s0 (thermalStep above v s) := by
  unfold thermalStep
  try dsimp only
  repeat' first
    | with_reducible assumption
    | exact within_trans rfl hm
    | with_reducible apply modThm_keeps
    | with_reducible apply raiseTstep_keeps
    | with_reducible apply keeps_ite
    | split
    | (intro)
    | with_reducible apply keeps_mk
    | with_reducible apply And.intro
    | exact Or.inl (within_bit _ rfl hm)
    | exact Or.inr rfl

theorem holdTest_keeps {μ : Nat} {s0 : State} (v : Int) (s : State)  (hk : Keeps μ s0 s) (hm : Within 0x38b544521 μ := by exact within_trans rfl (by assumption)) : Keeps μ s0 (holdTest v s) := by
  unfold holdTest
  try dsimp only
  repeat' first
    | with_reducible assumption
    | exact within_trans rfl hm
    | with_reducible apply evt_keeps
    | with_reducible apply safeHold_keeps
    | with_reducible apply modThm_keeps
    | with_reducible apply keeps_ite
    | split
    | (intro)
    | with_reducible apply keeps_mk
    | with_reducible apply And.intro
    | exact Or.inl (within_bit _ rfl hm)
    | exact Or.inr rfl

theorem brokenSample_keeps {μ : Nat} {s0 : State} (s : State)  (hk : Keeps μ s0 s) (hm : Within 0x81000120 μ := by exact within_trans rfl (by assumption)) : Keeps μ s0 (brokenSample s) := by
  unfold brokenSample
  try dsimp only
  repeat' first
    | with_reducible assumption
    | exact within_trans rfl hm
    | with_reducible apply setBit_keeps
    | with_reducible apply evt_keeps
    | with_reducible apply ladder_keeps
    | with_reducible apply modThm_keeps
    | with_reducible apply keeps_ite
    | split
    | (intro)
    | with_reducible apply keeps_mk
    | with_reducible apply And.intro
    | exact Or.inl (within_bit _ rfl hm)
    | exact Or.inr rfl

theorem badSample_keeps {μ : Nat} {s0 : State} (s : State)  (hk : Keeps μ s0 s) (hm : Within 0x81000120 μ := by exact within_trans rfl (by assumption)) : Keeps μ s0 (badSample s) := by
  unfold badSample
  try dsimp only
  repeat' first
    | with_reducible assumption
    | exact within_trans rfl hm
    | with_reducible apply setBit_keeps
    | with_reducible apply evt_keeps
    | with_reducible apply modThm_keeps
    | with_reducible apply setTstep_keeps
    | with_reducible apply keeps_ite
    | split
    | (intro)
    | with_reducible apply keeps_mk
    | with_reducible apply And.intro
    | exact Or.inl (within_bit _ rfl hm)
    | exact Or.inr rfl

theorem goodSample_keeps {μ : Nat} {s0 : State} (v : Int) (s : State)  (hk : Keeps μ s0 s) (hm : Within 0x38b544521 μ := by exact within_trans rfl (by assumption)) : Keeps μ s0 (goodSample v s) := by
  unfold goodSample
  try dsimp only
  repeat' first
    | with_reducible assumption
    | exact within_trans rfl hm
    | with_reducible apply setF_keeps
    | with_reducible apply setBit_keeps
    | with_reducible apply wrN_keeps
    | with_reducible apply compareSample_keeps
    | with_reducible apply thermalStep_keeps
    | with_reducible apply holdTest_keeps
    | with_reducible apply badSample_keeps
    | with_reducible apply keeps_ite
    | split

theorem temperatureSample_keeps {μ : Nat} {s0 : State} (v : Option Int) (i5 pin : Nat) (s : State)  (hk : Keeps μ s0 s) (hm : Within 0x38b544521 μ := by exact within_trans rfl (by assumption)) : Keeps μ s0 (temperatureSample v i5 pin s) := by
  unfold temperatureSample
  try dsimp only
  repeat' first
    | with_reducible assumption
    | exact within_trans rfl hm
    | with_reducible apply wrN_keeps
    | with_reducible apply modThm_keeps
    | with_reducible apply brokenSample_keeps
    | with_reducible apply goodSample_keeps
    | with_reducible apply keeps_ite
    | split
    | (intro)
    | with_reducible apply keeps_mk
    | with_reducible apply And.intro
    | exact Or.inl (within_bit _ rfl hm)
    | exact Or.inr rfl

theorem tstepRise_keeps {μ : Nat} {s0 : State} (s : State)  (hk : Keeps μ s0 s) (hm : Within 0x81000120 μ := by exact within_trans rfl (by assumption)) : Keeps μ s0 (tstepRise s) := by
  unfold tstepRise
  try dsimp only
  repeat' first
    | with_reducible assumption
    | exact within_trans rfl hm
    | with_reducible apply modThm_keeps
    | with_reducible apply raiseTstep_keeps
    | with_reducible apply keeps_ite
    | split
    | (intro)
    | with_reducible apply keeps_mk
    | with_reducible apply And.intro
    | exact Or.inl (within_bit _ rfl hm)
    | exact Or.inr rfl

theorem tstepFall_keeps {μ : Nat} {s0 : State} (s : State)  (hk : Keeps μ s0 s) (hm : Within 0x81000120 μ := by exact within_trans rfl (by assumption)) : Keeps μ s0 (tstepFall s) := by
  unfold tstepFall
  try dsimp only
  repeat' first
    | with_reducible assumption
    | exact within_trans rfl hm
    | with_reducible apply evt_keeps
    | with_reducible apply modThm_keeps
    | with_reducible apply setTstep_keeps
    | with_reducible apply keeps_ite
    | split
    | (intro)
    | with_reducible apply keeps_mk
    | with_reducible apply And.intro
    | exact Or.inl (within_bit _ rfl hm)
    | exact Or.inr rfl

theorem governorInterval_keeps {μ : Nat} {s0 : State} (s : State)  (hk : Keeps μ s0 s) (hm : Within 0x81400120 μ := by exact within_trans rfl (by assumption)) : Keeps μ s0 (governorInterval s) := by
  unfold governorInterval
  try dsimp only
  repeat' first
    | with_reducible assumption
    | exact within_trans rfl hm
    | with_reducible apply evt_keeps
    | with_reducible apply modSpn_keeps
    | with_reducible apply modThm_keeps
    | with_reducible apply setGstep_keeps
    | with_reducible apply keeps_ite
    | split
    | (intro)
    | with_reducible apply keeps_mk
    | with_reducible apply And.intro
    | exact Or.inl (within_bit _ rfl hm)
    | exact Or.inr rfl

theorem thrWrite_keeps {μ : Nat} {s0 : State} (v : Nat) (s : State)  (hk : Keeps μ s0 s) (hm : Within 0x120 μ := by exact within_trans rfl (by assumption)) : Keeps μ s0 (thrWrite v s) := by
  unfold thrWrite
  try dsimp only
  repeat' first
    | with_reducible assumption
    | exact within_trans rfl hm
    | with_reducible apply setF_keeps
    | with_reducible apply evt_keeps
    | with_reducible apply keeps_ite
    | split

theorem i5limWrite_keeps {μ : Nat} {s0 : State} (v : Nat) (s : State)  (hk : Keeps μ s0 s) (hm : Within 0x120 μ := by exact within_trans rfl (by assumption)) : Keeps μ s0 (i5limWrite v s) := by
  unfold i5limWrite
  try dsimp only
  repeat' first
    | with_reducible assumption
    | exact within_trans rfl hm
    | with_reducible apply wrN_keeps
    | with_reducible apply evt_keeps
    | with_reducible apply keeps_ite
    | split

end Sys2Proof.Machine
end

