-- ==== Sys2Proof/Laws/KeepsCalibration.lean ====
section
/-! SUPPORT. The operations of Calibration.lean keep the queue and the canonical stores. -/

set_option Elab.async false

namespace Sys2Proof.Machine

theorem setTrims_keeps {μ : Nat} {s0 : State} (trims : List Nat) (s : State)  (hk : Keeps μ s0 s) (hm : Within 0x20 μ := by exact within_trans rfl (by assumption)) : Keeps μ s0 (setTrims trims s) := by
  unfold setTrims
  try dsimp only
  repeat' first
    | (with_reducible apply keeps_foldl; intro s _ hk)
    | with_reducible assumption
    | exact within_trans rfl hm
    | with_reducible apply wrN_keeps
    | (intro)

theorem calBoot_keeps {μ : Nat} {s0 : State} (s : State)  (hk : Keeps μ s0 s) (hm : Within 0x100000020 μ := by exact within_trans rfl (by assumption)) : Keeps μ s0 (calBoot s) := by
  unfold calBoot
  try dsimp only
  repeat' first
    | (with_reducible apply keeps_foldl; intro s _ hk)
    | with_reducible assumption
    | exact within_trans rfl hm
    | with_reducible apply setBit_keeps
    | with_reducible apply wrN_keeps
    | with_reducible apply modCal_keeps
    | with_reducible apply setTrims_keeps
    | with_reducible apply keeps_ite
    | split
    | (intro)
    | with_reducible apply keeps_mk
    | with_reducible apply And.intro
    | exact Or.inl (within_bit _ rfl hm)
    | exact Or.inr rfl

theorem setCalPhase_keeps {μ : Nat} {s0 : State} (p : Nat) (s : State)  (hk : Keeps μ s0 s) (hm : Within 0x20 μ := by exact within_trans rfl (by assumption)) : Keeps μ s0 (setCalPhase p s) := by
  unfold setCalPhase
  try dsimp only
  repeat' first
    | with_reducible assumption
    | exact within_trans rfl hm
    | with_reducible apply setF_keeps

theorem calEnter_keeps {μ : Nat} {s0 : State} (s : State)  (hk : Keeps μ s0 s) (hm : Within 0x309444521 μ := by exact within_trans rfl (by assumption)) : Keeps μ s0 (calEnter s) := by
  unfold calEnter
  try dsimp only
  repeat' first
    | with_reducible assumption
    | exact within_trans rfl hm
    | with_reducible apply coast_keeps
    | with_reducible apply enterMode_keeps
    | with_reducible apply modCal_keeps
    | with_reducible apply setCalPhase_keeps
    | (intro)
    | with_reducible apply keeps_mk
    | with_reducible apply And.intro
    | exact Or.inl (within_bit _ rfl hm)
    | exact Or.inr rfl

theorem calGo_keeps {μ : Nat} {s0 : State} (deferred : Bool) (s : State)  (hk : Keeps μ s0 s) (hm : Within 0x30b444521 μ := by exact within_trans rfl (by assumption)) : Keeps μ s0 (calGo deferred s) := by
  unfold calGo
  try dsimp only
  repeat' first
    | with_reducible assumption
    | exact within_trans rfl hm
    | with_reducible apply setF_keeps
    | with_reducible apply setBit_keeps
    | with_reducible apply evt_keeps
    | with_reducible apply requestMode_keeps
    | with_reducible apply modCal_keeps
    | with_reducible apply setCalPhase_keeps
    | with_reducible apply calEnter_keeps
    | with_reducible apply keeps_ite
    | split
    | (intro)
    | with_reducible apply keeps_mk
    | with_reducible apply And.intro
    | exact Or.inl (within_bit _ rfl hm)
    | exact Or.inr rfl

theorem calReturn_keeps {μ : Nat} {s0 : State} (s : State)  (hk : Keeps μ s0 s) (hm : Within 0x30b444521 μ := by exact within_trans rfl (by assumption)) : Keeps μ s0 (calReturn s) := by
  unfold calReturn
  try dsimp only
  repeat' first
    | with_reducible assumption
    | exact within_trans rfl hm
    | with_reducible apply enterMode_keeps
    | with_reducible apply requestMode_keeps
    | with_reducible apply calOver_keeps
    | with_reducible apply keeps_ite
    | split
    | with_reducible apply keeps_mk
    | with_reducible apply And.intro
    | exact Or.inl (within_bit _ rfl hm)
    | exact Or.inr rfl

theorem calFollow_keeps {μ : Nat} {s0 : State} (s : State)  (hk : Keeps μ s0 s) (hm : Within 0x30b444521 μ := by exact within_trans rfl (by assumption)) : Keeps μ s0 (calFollow s) := by
  unfold calFollow
  try dsimp only
  repeat' first
    | with_reducible assumption
    | exact within_trans rfl hm
    | with_reducible apply setBit_keeps
    | with_reducible apply calOver_keeps
    | with_reducible apply calAbort_keeps
    | with_reducible apply calEnter_keeps
    | with_reducible apply calReturn_keeps
    | with_reducible apply keeps_ite
    | split
    | with_reducible apply keeps_mk
    | with_reducible apply And.intro
    | exact Or.inl (within_bit _ rfl hm)
    | exact Or.inr rfl

theorem calDone_keeps {μ : Nat} {s0 : State} (code chains : Nat) (s : State)  (hk : Keeps μ s0 s) (hm : Within 0x30b444521 μ := by exact within_trans rfl (by assumption)) : Keeps μ s0 (calDone code chains s) := by
  unfold calDone
  try dsimp only
  repeat' first
    | with_reducible assumption
    | exact within_trans rfl hm
    | with_reducible apply wr64_keeps
    | with_reducible apply satInc_keeps
    | with_reducible apply calResult_keeps
    | with_reducible apply setCalPhase_keeps
    | with_reducible apply calReturn_keeps

theorem chainsOnline_keeps {μ : Nat} {s0 : State} (ref trims : Nat) (s : State)  (hk : Keeps μ s0 s) (hm : Within 0x30b444521 μ := by exact within_trans rfl (by assumption)) : Keeps μ s0 (chainsOnline ref trims s) := by
  unfold chainsOnline
  try dsimp only
  repeat' first
    | (with_reducible apply keeps_foldl; intro s _ hk)
    | with_reducible assumption
    | exact within_trans rfl hm
    | with_reducible apply wrN_keeps
    | with_reducible apply runCommand_keeps
    | with_reducible apply updateAttgt_keeps
    | with_reducible apply modCal_keeps
    | with_reducible apply setCalPhase_keeps
    | with_reducible apply calDone_keeps
    | with_reducible apply keeps_ite
    | split
    | refine keeps_snd (by with_reducible assumption) ?_
    | (intro)
    | with_reducible apply keeps_mk
    | with_reducible apply And.intro
    | exact Or.inl (within_bit _ rfl hm)
    | exact Or.inr rfl

theorem calDurable_keeps {μ : Nat} {s0 : State} (ok : Bool) (s : State)  (hk : Keeps μ s0 s) (hm : Within 0x30b4445a1 μ := by exact within_trans rfl (by assumption)) : Keeps μ s0 (calDurable ok s) := by
  unfold calDurable
  try dsimp only
  repeat' first
    | with_reducible assumption
    | exact within_trans rfl hm
    | with_reducible apply setBit_keeps
    | with_reducible apply wrN_keeps
    | with_reducible apply nandWrite_keeps
    | with_reducible apply nandErase_keeps
    | with_reducible apply modCal_keeps
    | with_reducible apply setTrims_keeps
    | with_reducible apply calDone_keeps
    | with_reducible apply keeps_ite
    | split
    | (intro)
    | with_reducible apply keeps_mk
    | with_reducible apply And.intro
    | exact Or.inl (within_bit _ rfl hm)
    | exact Or.inr rfl

theorem scramble_keeps {μ : Nat} {s0 : State} (c a : Nat) (x0 : Nat) (s : State) (hk : Keeps μ s0 s) (hm : Within 0x41 μ := by exact within_trans rfl (by assumption)) : Keeps μ s0 (scramble c a x0 s) := by
  induction x0 generalizing s c a with
  | zero =>
    unfold scramble
    try dsimp only
    repeat' first
      | with_reducible assumption
      | exact within_trans rfl hm
      | with_reducible apply ih
      | with_reducible apply drawFree_keeps
      | with_reducible apply sramPutWord_keeps
      | with_reducible apply keeps_ite
      | split
      | refine keeps_snd (by with_reducible assumption) ?_
  | succ k ih =>
    unfold scramble
    try dsimp only
    repeat' first
      | with_reducible assumption
      | exact within_trans rfl hm
      | with_reducible apply ih
      | with_reducible apply drawFree_keeps
      | with_reducible apply sramPutWord_keeps
      | with_reducible apply keeps_ite
      | split
      | refine keeps_snd (by with_reducible assumption) ?_

theorem scrambleNand_keeps {μ : Nat} {s0 : State} (a : Nat) (x0 : Nat) (s : State) (hk : Keeps μ s0 s) (hm : Within 0x81 μ := by exact within_trans rfl (by assumption)) : Keeps μ s0 (scrambleNand a x0 s) := by
  induction x0 generalizing s a with
  | zero =>
    unfold scrambleNand
    try dsimp only
    repeat' first
      | with_reducible assumption
      | exact within_trans rfl hm
      | with_reducible apply ih
      | with_reducible apply drawFree_keeps
      | with_reducible apply nandPutByte_keeps
      | split
      | refine keeps_snd (by with_reducible assumption) ?_
  | succ k ih =>
    unfold scrambleNand
    try dsimp only
    repeat' first
      | with_reducible assumption
      | exact within_trans rfl hm
      | with_reducible apply ih
      | with_reducible apply drawFree_keeps
      | with_reducible apply nandPutByte_keeps
      | split
      | refine keeps_snd (by with_reducible assumption) ?_

theorem tstDestroys_keeps {μ : Nat} {s0 : State} (n : Nat) (s : State)  (hk : Keeps μ s0 s) (hm : Within 0xc1 μ := by exact within_trans rfl (by assumption)) : Keeps μ s0 (tstDestroys n s) := by
  unfold tstDestroys
  try dsimp only
  repeat' first
    | with_reducible assumption
    | exact within_trans rfl hm
    | with_reducible apply scramble_keeps
    | with_reducible apply scrambleNand_keeps
    | with_reducible apply keeps_ite
    | split

theorem tstGo_keeps {μ : Nat} {s0 : State} (n : Nat) (s : State)  (hk : Keeps μ s0 s) (hm : Within 0x3080001e1 μ := by exact within_trans rfl (by assumption)) : Keeps μ s0 (tstGo n s) := by
  unfold tstGo
  try dsimp only
  repeat' first
    | with_reducible assumption
    | exact within_trans rfl hm
    | with_reducible apply setF_keeps
    | with_reducible apply wrN_keeps
    | with_reducible apply wr64_keeps
    | with_reducible apply modCal_keeps
    | with_reducible apply failPort_keeps
    | with_reducible apply tstDestroys_keeps
    | with_reducible apply keeps_ite
    | split
    | (intro)
    | with_reducible apply keeps_mk
    | with_reducible apply And.intro
    | exact Or.inl (within_bit _ rfl hm)
    | exact Or.inr rfl

theorem tstCounts_keeps {μ : Nat} {s0 : State} (n e b f : Nat) (lock : Bool) (s : State)  (hk : Keeps μ s0 s) (hm : Within 0x20 μ := by exact within_trans rfl (by assumption)) : Keeps μ s0 (tstCounts n e b f lock s) := by
  unfold tstCounts
  try dsimp only
  repeat' first
    | with_reducible assumption
    | exact within_trans rfl hm
    | with_reducible apply setBit_keeps
    | with_reducible apply wrN_keeps
    | with_reducible apply wr64_keeps
    | with_reducible apply keeps_ite
    | split

theorem tstStop_keeps {μ : Nat} {s0 : State} (n e b f : Nat) (lock : Bool) (s : State)  (hk : Keeps μ s0 s) (hm : Within 0x8000120 μ := by exact within_trans rfl (by assumption)) : Keeps μ s0 (tstStop n e b f lock s) := by
  unfold tstStop
  try dsimp only
  repeat' first
    | with_reducible assumption
    | exact within_trans rfl hm
    | with_reducible apply tstEnds_keeps
    | with_reducible apply tstCounts_keeps
    | with_reducible apply keeps_ite
    | split

theorem tstExpires_keeps {μ : Nat} {s0 : State} (n e b f : Nat) (lock : Bool) (s : State)  (hk : Keeps μ s0 s) (hm : Within 0x8000120 μ := by exact within_trans rfl (by assumption)) : Keeps μ s0 (tstExpires n e b f lock s) := by
  unfold tstExpires
  try dsimp only
  repeat' first
    | with_reducible assumption
    | exact within_trans rfl hm
    | with_reducible apply tstEnds_keeps
    | with_reducible apply tstCounts_keeps
    | with_reducible apply keeps_ite
    | split

end Sys2Proof.Machine
end

