-- ==== Sys2Proof/Laws/KeepsImone.lean ====
section
/-! SUPPORT. The operations of Imone.lean keep the queue and the canonical stores. -/

set_option Elab.async false

namespace Sys2Proof.Machine

theorem laneMisses_keeps {μ : Nat} {s0 : State} (l : Nat) (s : State)  (hk : Keeps μ s0 s) (hm : Within 0x30b5e4d61 μ := by exact within_trans rfl (by assumption)) : Keeps μ s0 (laneMisses l s) := by
  unfold laneMisses
  try dsimp only
  repeat' first
    | with_reducible assumption
    | exact within_trans rfl hm
    | with_reducible apply modLane_keeps
    | with_reducible apply advanceLane_keeps
    | with_reducible apply laneFails_keeps
    | with_reducible apply keeps_ite
    | split
    | (intro)
    | with_reducible apply keeps_mk
    | with_reducible apply And.intro
    | exact Or.inl (within_bit _ rfl hm)
    | exact Or.inr rfl

theorem sectorDeadline_keeps {μ : Nat} {s0 : State} (l : Nat) (g : SectorSignal) (searched dead : Bool) (s : State)  (hk : Keeps μ s0 s) (hm : Within 0x30b5e4d61 μ := by exact within_trans rfl (by assumption)) : Keeps μ s0 (sectorDeadline l g searched dead s) := by
  unfold sectorDeadline
  try dsimp only
  repeat' first
    | with_reducible assumption
    | exact within_trans rfl hm
    | with_reducible apply sectorEnds_keeps
    | with_reducible apply laneMisses_keeps
    | with_reducible apply keeps_ite
    | split
    | with_reducible apply keeps_mk
    | with_reducible apply And.intro
    | exact Or.inl (within_bit _ rfl hm)
    | exact Or.inr rfl

theorem modSlu_keeps {μ : Nat} {s0 : State} (s : State) (f : SluState → SluState)  (hk : Keeps μ s0 s) (hm : Within 0x1000000 μ := by exact within_trans rfl (by assumption)) : Keeps μ s0 (modSlu s f) := by
  unfold modSlu
  try dsimp only
  repeat' first
    | with_reducible assumption
    | exact within_trans rfl hm
    | with_reducible apply keeps_mk
    | with_reducible apply And.intro
    | exact Or.inl (within_bit _ rfl hm)
    | exact Or.inr rfl

theorem supplyOut_keeps {μ : Nat} {s0 : State} (v5 : Bool) (s : State)  (hk : Keeps μ s0 s) (hm : Within 0x1004520 μ := by exact within_trans rfl (by assumption)) : Keeps μ s0 (supplyOut v5 s) := by
  unfold supplyOut
  try dsimp only
  repeat' first
    | with_reducible assumption
    | exact within_trans rfl hm
    | with_reducible apply evt_keeps
    | with_reducible apply sluAll_keeps
    | with_reducible apply modSlu_keeps
    | with_reducible apply keeps_ite
    | split
    | (intro)
    | with_reducible apply keeps_mk
    | with_reducible apply And.intro
    | exact Or.inl (within_bit _ rfl hm)
    | exact Or.inr rfl

theorem supplyBack_keeps {μ : Nat} {s0 : State} (v5 : Bool) (s : State)  (hk : Keeps μ s0 s) (hm : Within 0x1000000 μ := by exact within_trans rfl (by assumption)) : Keeps μ s0 (supplyBack v5 s) := by
  unfold supplyBack
  try dsimp only
  repeat' first
    | with_reducible assumption
    | exact within_trans rfl hm
    | with_reducible apply modSlu_keeps
    | with_reducible apply keeps_ite
    | split
    | (intro)
    | with_reducible apply keeps_mk
    | with_reducible apply And.intro
    | exact Or.inl (within_bit _ rfl hm)
    | exact Or.inr rfl

theorem pfaultBegins_keeps {μ : Nat} {s0 : State} (a : Nat) (s : State)  (hk : Keeps μ s0 s) (hm : Within 0x4520 μ := by exact within_trans rfl (by assumption)) : Keeps μ s0 (pfaultBegins a s) := by
  unfold pfaultBegins
  try dsimp only
  repeat' first
    | with_reducible assumption
    | exact within_trans rfl hm
    | with_reducible apply evt_keeps
    | with_reducible apply raiseAll_keeps
    | with_reducible apply sluAll_keeps

theorem stampFlt_keeps {μ : Nat} {s0 : State} (a : Nat) (s : State)  (hk : Keeps μ s0 s) (hm : Within 0x1000000 μ := by exact within_trans rfl (by assumption)) : Keeps μ s0 (stampFlt a s) := by
  unfold stampFlt
  try dsimp only
  repeat' first
    | with_reducible assumption
    | exact within_trans rfl hm
    | with_reducible apply modSlu_keeps
    | with_reducible apply keeps_ite
    | split
    | (intro)
    | with_reducible apply keeps_mk
    | with_reducible apply And.intro
    | exact Or.inl (within_bit _ rfl hm)
    | exact Or.inr rfl

theorem setFlt_keeps {μ : Nat} {s0 : State} (a : Nat) (low : Bool) (s : State)  (hk : Keeps μ s0 s) (hm : Within 0x1000000 μ := by exact within_trans rfl (by assumption)) : Keeps μ s0 (setFlt a low s) := by
  unfold setFlt
  try dsimp only
  repeat' first
    | with_reducible assumption
    | exact within_trans rfl hm
    | with_reducible apply modSlu_keeps
    | with_reducible apply stampFlt_keeps
    | with_reducible apply keeps_ite
    | split
    | (intro)
    | with_reducible apply keeps_mk
    | with_reducible apply And.intro
    | exact Or.inl (within_bit _ rfl hm)
    | exact Or.inr rfl

theorem fltFalls_keeps {μ : Nat} {s0 : State} (a : Nat) (s : State)  (hk : Keeps μ s0 s) (hm : Within 0x1004520 μ := by exact within_trans rfl (by assumption)) : Keeps μ s0 (fltFalls a s) := by
  unfold fltFalls
  try dsimp only
  repeat' first
    | with_reducible assumption
    | exact within_trans rfl hm
    | with_reducible apply pfaultBegins_keeps
    | with_reducible apply setFlt_keeps
    | with_reducible apply keeps_ite
    | split

theorem modImone_keeps {μ : Nat} {s0 : State} (s : State) (a : Nat) (f : ImoneState → ImoneState) (hk : Keeps μ s0 s) 
    (hm : Within 0x800000000 μ := by exact within_trans rfl (by assumption)) :
    Keeps μ s0 (modImone s a f) :=
  keeps_units 35 hk (hm := hm) (hz := fun h => by
    simp only [sized_iff] at h ⊢
    simpa [modImone, modAt_length] using h)

theorem supplyLimit_keeps {μ : Nat} {s0 : State} (a : Nat) (s : State)  (hk : Keeps μ s0 s) (hm : Within 0x801004520 μ := by exact within_trans rfl (by assumption)) : Keeps μ s0 (supplyLimit a s) := by
  unfold supplyLimit
  try dsimp only
  repeat' first
    | with_reducible assumption
    | exact within_trans rfl hm
    | with_reducible apply pfaultBegins_keeps
    | with_reducible apply stampFlt_keeps
    | with_reducible apply modImone_keeps
    | with_reducible apply keeps_ite
    | split
    | (intro)
    | with_reducible apply keeps_mk
    | with_reducible apply And.intro
    | exact Or.inl (within_bit _ rfl hm)
    | exact Or.inr rfl

theorem controlWord_keeps {μ : Nat} {s0 : State} (a : Nat) (s : State)  (hk : Keeps μ s0 s) (hm : Within 0x800000000 μ := by exact within_trans rfl (by assumption)) : Keeps μ s0 (controlWord a s) := by
  unfold controlWord
  try dsimp only
  repeat' first
    | with_reducible assumption
    | exact within_trans rfl hm
    | with_reducible apply modImone_keeps
    | with_reducible apply keeps_ite
    | split
    | (intro)
    | with_reducible apply keeps_mk
    | with_reducible apply And.intro
    | exact Or.inl (within_bit _ rfl hm)
    | exact Or.inr rfl

theorem aoverFrame_keeps {μ : Nat} {s0 : State} (n v : Nat) (s : State)  (hk : Keeps μ s0 s) (hm : Within 0x4520 μ := by exact within_trans rfl (by assumption)) : Keeps μ s0 (aoverFrame n v s) := by
  unfold aoverFrame
  try dsimp only
  repeat' first
    | with_reducible assumption
    | exact within_trans rfl hm
    | with_reducible apply evtIf_keeps
    | with_reducible apply modSlot_keeps
    | with_reducible apply sluApply_keeps
    | with_reducible apply keeps_ite
    | split
    | (intro)
    | with_reducible apply keeps_mk
    | with_reducible apply And.intro
    | exact Or.inl (within_bit _ rfl hm)
    | exact Or.inr rfl

theorem amonWedge_keeps {μ : Nat} {s0 : State} (n v : Nat) (s : State)  (hk : Keeps μ s0 s) (hm : Within 0x800000120 μ := by exact within_trans rfl (by assumption)) : Keeps μ s0 (amonWedge n v s) := by
  unfold amonWedge
  try dsimp only
  repeat' first
    | with_reducible assumption
    | exact within_trans rfl hm
    | with_reducible apply setF_keeps
    | with_reducible apply evtIf_keeps
    | with_reducible apply modImone_keeps
    | with_reducible apply keeps_ite
    | split
    | (intro)
    | with_reducible apply keeps_mk
    | with_reducible apply And.intro
    | exact Or.inl (within_bit _ rfl hm)
    | exact Or.inr rfl

theorem monitor_keeps {μ : Nat} {s0 : State} (n mon : Nat) (s : State)  (hk : Keeps μ s0 s) (hm : Within 0x800004520 μ := by exact within_trans rfl (by assumption)) : Keeps μ s0 (monitor n mon s) := by
  unfold monitor
  try dsimp only
  repeat' first
    | with_reducible assumption
    | exact within_trans rfl hm
    | with_reducible apply setF_keeps
    | with_reducible apply aoverFrame_keeps
    | with_reducible apply amonWedge_keeps

theorem frameError_keeps {μ : Nat} {s0 : State} (a : Nat) (s : State)  (hk : Keeps μ s0 s) (hm : Within 0xb0b5e4561 μ := by exact within_trans rfl (by assumption)) : Keeps μ s0 (frameError a s) := by
  unfold frameError
  try dsimp only
  repeat' first
    | with_reducible assumption
    | exact within_trans rfl hm
    | with_reducible apply holdActuator_keeps
    | with_reducible apply modImone_keeps
    | with_reducible apply keeps_ite
    | split
    | (intro)
    | with_reducible apply keeps_mk
    | with_reducible apply And.intro
    | exact Or.inl (within_bit _ rfl hm)
    | exact Or.inr rfl

theorem retrain_keeps {μ : Nat} {s0 : State} (a : Nat) (s : State)  (hk : Keeps μ s0 s) (hm : Within 0x800004520 μ := by exact within_trans rfl (by assumption)) : Keeps μ s0 (retrain a s) := by
  unfold retrain
  try dsimp only
  repeat' first
    | with_reducible assumption
    | exact within_trans rfl hm
    | with_reducible apply pfaultBegins_keeps
    | with_reducible apply modImone_keeps
    | with_reducible apply keeps_ite
    | split
    | (intro)
    | with_reducible apply keeps_mk
    | with_reducible apply And.intro
    | exact Or.inl (within_bit _ rfl hm)
    | exact Or.inr rfl

theorem wordError_keeps {μ : Nat} {s0 : State} (a : Nat) (s : State)  (hk : Keeps μ s0 s) (hm : Within 0xb0b5e4561 μ := by exact within_trans rfl (by assumption)) : Keeps μ s0 (wordError a s) := by
  unfold wordError
  try dsimp only
  repeat' first
    | (with_reducible apply keeps_foldl; intro s _ hk)
    | with_reducible assumption
    | exact within_trans rfl hm
    | with_reducible apply modSlot_keeps
    | with_reducible apply modImone_keeps
    | with_reducible apply frameError_keeps
    | with_reducible apply retrain_keeps
    | with_reducible apply keeps_ite
    | split
    | (intro)
    | with_reducible apply keeps_mk
    | with_reducible apply And.intro
    | exact Or.inl (within_bit _ rfl hm)
    | exact Or.inr rfl

theorem trained_keeps {μ : Nat} {s0 : State} (a : Nat) (s : State)  (hk : Keeps μ s0 s) (hm : Within 0x800000000 μ := by exact within_trans rfl (by assumption)) : Keeps μ s0 (trained a s) := by
  unfold trained
  try dsimp only
  repeat' first
    | with_reducible assumption
    | exact within_trans rfl hm
    | with_reducible apply modImone_keeps
    | (intro)
    | with_reducible apply keeps_mk
    | with_reducible apply And.intro
    | exact Or.inl (within_bit _ rfl hm)
    | exact Or.inr rfl

theorem trainWord_keeps {μ : Nat} {s0 : State} (a w : Nat) (s : State)  (hk : Keeps μ s0 s) (hm : Within 0xb0b5e4561 μ := by exact within_trans rfl (by assumption)) : Keeps μ s0 (trainWord a w s) := by
  unfold trainWord
  try dsimp only
  repeat' first
    | with_reducible assumption
    | exact within_trans rfl hm
    | with_reducible apply modImone_keeps
    | with_reducible apply frameError_keeps
    | with_reducible apply trained_keeps
    | with_reducible apply keeps_ite
    | split
    | (intro)
    | with_reducible apply keeps_mk
    | with_reducible apply And.intro
    | exact Or.inl (within_bit _ rfl hm)
    | exact Or.inr rfl

theorem goodWord_keeps {μ : Nat} {s0 : State} (a w : Nat) (s : State)  (hk : Keeps μ s0 s) (hm : Within 0x800004520 μ := by exact within_trans rfl (by assumption)) : Keeps μ s0 (goodWord a w s) := by
  unfold goodWord
  try dsimp only
  repeat' first
    | (with_reducible apply keeps_foldl; intro s _ hk)
    | with_reducible assumption
    | exact within_trans rfl hm
    | with_reducible apply modImone_keeps
    | with_reducible apply monitor_keeps
    | (intro)
    | with_reducible apply keeps_mk
    | with_reducible apply And.intro
    | exact Or.inl (within_bit _ rfl hm)
    | exact Or.inr rfl

theorem preampWord_keeps {μ : Nat} {s0 : State} (a w : Nat) (s : State)  (hk : Keeps μ s0 s) (hm : Within 0xb0b5e4561 μ := by exact within_trans rfl (by assumption)) : Keeps μ s0 (preampWord a w s) := by
  unfold preampWord
  try dsimp only
  repeat' first
    | with_reducible assumption
    | exact within_trans rfl hm
    | with_reducible apply wordError_keeps
    | with_reducible apply trainWord_keeps
    | with_reducible apply goodWord_keeps
    | with_reducible apply keeps_ite
    | split

theorem linkTraining_keeps {μ : Nat} {s0 : State} (a : Nat) (answered : Bool) (s : State)  (hk : Keeps μ s0 s) (hm : Within 0x800000000 μ := by exact within_trans rfl (by assumption)) : Keeps μ s0 (linkTraining a answered s) := by
  unfold linkTraining
  try dsimp only
  repeat' first
    | with_reducible assumption
    | exact within_trans rfl hm
    | with_reducible apply modImone_keeps
    | with_reducible apply trained_keeps
    | with_reducible apply keeps_ite
    | split
    | (intro)
    | with_reducible apply keeps_mk
    | with_reducible apply And.intro
    | exact Or.inl (within_bit _ rfl hm)
    | exact Or.inr rfl

end Sys2Proof.Machine
end

