-- ==== Sys2Proof/Laws/KeepsTap.lean ====
section
/-! SUPPORT. The operations of Tap.lean keep the queue and the canonical stores. -/

set_option Elab.async false

namespace Sys2Proof.Machine

theorem modTap_keeps {μ : Nat} {s0 : State} (s : State) (f : TapState → TapState)  (hk : Keeps μ s0 s) (hm : Within 0x400000000 μ := by exact within_trans rfl (by assumption)) : Keeps μ s0 (modTap s f) := by
  unfold modTap
  try dsimp only
  repeat' first
    | with_reducible assumption
    | exact within_trans rfl hm
    | with_reducible apply keeps_mk
    | with_reducible apply And.intro
    | exact Or.inl (within_bit _ rfl hm)
    | exact Or.inr rfl

theorem tapBypass_keeps {μ : Nat} {s0 : State} (s : State)  (hk : Keeps μ s0 s) (hm : Within 0x400000000 μ := by exact within_trans rfl (by assumption)) : Keeps μ s0 (tapBypass s) := by
  unfold tapBypass
  try dsimp only
  repeat' first
    | with_reducible assumption
    | exact within_trans rfl hm
    | with_reducible apply modTap_keeps
    | (intro)
    | with_reducible apply keeps_mk
    | with_reducible apply And.intro
    | exact Or.inl (within_bit _ rfl hm)
    | exact Or.inr rfl

theorem tapIdcode_keeps {μ : Nat} {s0 : State} (s : State)  (hk : Keeps μ s0 s) (hm : Within 0x400000000 μ := by exact within_trans rfl (by assumption)) : Keeps μ s0 (tapIdcode s) := by
  unfold tapIdcode
  try dsimp only
  repeat' first
    | with_reducible assumption
    | exact within_trans rfl hm
    | with_reducible apply modTap_keeps
    | (intro)
    | with_reducible apply keeps_mk
    | with_reducible apply And.intro
    | exact Or.inl (within_bit _ rfl hm)
    | exact Or.inr rfl

theorem tapSample_keeps {μ : Nat} {s0 : State} (scl sda : Bool) (load : Nat) (s : State)  (hk : Keeps μ s0 s) (hm : Within 0x400000000 μ := by exact within_trans rfl (by assumption)) : Keeps μ s0 (tapSample scl sda load s) := by
  unfold tapSample
  try dsimp only
  repeat' first
    | with_reducible assumption
    | exact within_trans rfl hm
    | with_reducible apply modTap_keeps
    | (intro)
    | with_reducible apply keeps_mk
    | with_reducible apply And.intro
    | exact Or.inl (within_bit _ rfl hm)
    | exact Or.inr rfl

theorem tapDrive_keeps {μ : Nat} {s0 : State} (i : TapInstr) (s : State)  (hk : Keeps μ s0 s) (hm : Within 0x400000000 μ := by exact within_trans rfl (by assumption)) : Keeps μ s0 (tapDrive i s) := by
  unfold tapDrive
  try dsimp only
  repeat' first
    | with_reducible assumption
    | exact within_trans rfl hm
    | with_reducible apply modTap_keeps
    | with_reducible apply tapBypass_keeps
    | with_reducible apply keeps_ite
    | split
    | (intro)
    | with_reducible apply keeps_mk
    | with_reducible apply And.intro
    | exact Or.inl (within_bit _ rfl hm)
    | exact Or.inr rfl

theorem tapHighz_keeps {μ : Nat} {s0 : State} (s : State)  (hk : Keeps μ s0 s) (hm : Within 0x400000000 μ := by exact within_trans rfl (by assumption)) : Keeps μ s0 (tapHighz s) := by
  unfold tapHighz
  try dsimp only
  repeat' first
    | with_reducible assumption
    | exact within_trans rfl hm
    | with_reducible apply modTap_keeps
    | (intro)
    | with_reducible apply keeps_mk
    | with_reducible apply And.intro
    | exact Or.inl (within_bit _ rfl hm)
    | exact Or.inr rfl

theorem tapRelease_keeps {μ : Nat} {s0 : State} (s : State)  (hk : Keeps μ s0 s) (hm : Within 0x400000000 μ := by exact within_trans rfl (by assumption)) : Keeps μ s0 (tapRelease s) := by
  unfold tapRelease
  try dsimp only
  repeat' first
    | with_reducible assumption
    | exact within_trans rfl hm
    | with_reducible apply tapBypass_keeps
    | with_reducible apply keeps_ite
    | split

theorem fwload_keeps {μ : Nat} {s0 : State} (slot : Nat) (image : List Nat) (s : State)  (hk : Keeps μ s0 s) (hm : Within 0x400000080 μ := by exact within_trans rfl (by assumption)) : Keeps μ s0 (fwload slot image s) := by
  unfold fwload
  try dsimp only
  repeat' first
    | with_reducible assumption
    | exact within_trans rfl hm
    | with_reducible apply nandProg_keeps
    | with_reducible apply nandErase_keeps
    | with_reducible apply modTap_keeps
    | with_reducible apply tapBypass_keeps
    | with_reducible apply keeps_ite
    | split
    | (intro)
    | with_reducible apply keeps_mk
    | with_reducible apply And.intro
    | exact Or.inl (within_bit _ rfl hm)
    | exact Or.inr rfl

end Sys2Proof.Machine
end

