-- ==== Sys2Proof/Laws/KeepsTrust.lean ====
section
/-! SUPPORT. The operations of Trust.lean keep the queue and the canonical stores. -/

set_option Elab.async false

namespace Sys2Proof.Machine

theorem modSec_keeps {μ : Nat} {s0 : State} (s : State) (f : SecState → SecState) (hk : Keeps μ s0 s)
    (h : ∀ x, OtpGrows x (f x)) 
    (hm : Within 0x800000 μ := by exact within_trans rfl (by assumption)) : Keeps μ s0 (modSec s f) :=
  keeps_same hk rfl rfl rfl rfl (h _) id fun f x => same_but 23 hm (by cases f <;> simp [Field.index, Field.same, modSec]) x

theorem showOtp_keeps {μ : Nat} {s0 : State} (s : State)  (hk : Keeps μ s0 s) (hm : Within 0x20 μ := by exact within_trans rfl (by assumption)) : Keeps μ s0 (showOtp s) := by
  unfold showOtp
  try dsimp only
  repeat' first
    | (with_reducible apply keeps_foldl; intro s _ hk)
    | with_reducible assumption
    | exact within_trans rfl hm
    | with_reducible apply wrN_keeps
    | with_reducible apply keeps_ite
    | split
    | (intro)

theorem otpRefuse_keeps {μ : Nat} {s0 : State} (r : Nat) (s : State)  (hk : Keeps μ s0 s) (hm : Within 0x120 μ := by exact within_trans rfl (by assumption)) : Keeps μ s0 (otpRefuse r s) := by
  unfold otpRefuse
  try dsimp only
  repeat' first
    | with_reducible assumption
    | exact within_trans rfl hm
    | with_reducible apply setF_keeps
    | with_reducible apply evt_keeps

theorem otpStart_keeps {μ : Nat} {s0 : State} (r : Nat) (op : OtpOp) (s : State)  (hk : Keeps μ s0 s) (hm : Within 0x800120 μ := by exact within_trans rfl (by assumption)) : Keeps μ s0 (otpStart r op s) := by
  unfold otpStart
  try dsimp only
  repeat' first
    | with_reducible assumption
    | exact within_trans rfl hm
    | with_reducible apply setBit_keeps
    | with_reducible apply modSec_keeps
    | with_reducible apply otpRefuse_keeps
    | with_reducible apply keeps_ite
    | split
    | exact fun _ => OtpGrows.mk (Nat.le_refl _) (fun _ h => h)
    | (intro)
    | with_reducible apply keeps_mk
    | with_reducible apply And.intro
    | exact Or.inl (within_bit _ rfl hm)
    | exact Or.inr rfl

theorem khProg_keeps {μ : Nat} {s0 : State} (n : Nat) (s : State)  (hk : Keeps μ s0 s) (hm : Within 0x800120 μ := by exact within_trans rfl (by assumption)) : Keeps μ s0 (khProg n s) := by
  unfold khProg
  try dsimp only
  repeat' first
    | with_reducible assumption
    | exact within_trans rfl hm
    | with_reducible apply otpStart_keeps
    | with_reducible apply keeps_ite
    | split

theorem revCmd_keeps {μ : Nat} {s0 : State} (n : Nat) (s : State)  (hk : Keeps μ s0 s) (hm : Within 0x800120 μ := by exact within_trans rfl (by assumption)) : Keeps μ s0 (revCmd n s) := by
  unfold revCmd
  try dsimp only
  repeat' first
    | with_reducible assumption
    | exact within_trans rfl hm
    | with_reducible apply otpStart_keeps
    | with_reducible apply keeps_ite
    | split

theorem arbAdv_keeps {μ : Nat} {s0 : State} (v : Nat) (s : State)  (hk : Keeps μ s0 s) (hm : Within 0x800120 μ := by exact within_trans rfl (by assumption)) : Keeps μ s0 (arbAdv v s) := by
  unfold arbAdv
  try dsimp only
  repeat' first
    | with_reducible assumption
    | exact within_trans rfl hm
    | with_reducible apply otpStart_keeps
    | with_reducible apply keeps_ite
    | split

theorem otpDo_keeps {μ : Nat} {s0 : State} (op : OtpOp) (s : State) (hk : Keeps μ s0 s) 
    (hm : Within 0x800000 μ := by exact within_trans rfl (by assumption)) : Keeps μ s0 (otpDo op s) := by
  refine modSec_keeps _ _ hk (fun x => ?_)
  cases op with
  | keyHash n h => exact ⟨Nat.le_refl _, fun _ h => h⟩
  | revoke n => exact ⟨Nat.le_refl _, fun k h => by
      show (x.revoke ||| 2 ^ n).testBit k = true
      rw [Nat.testBit_or, h, Bool.true_or]⟩
  | arb v => exact ⟨Nat.le_max_left _ _, fun _ h => h⟩

theorem drawHash_keeps {μ : Nat} {s0 : State} (s : State)  (hk : Keeps μ s0 s) (hm : Within 0x1 μ := by exact within_trans rfl (by assumption)) : Keeps μ s0 (drawHash s).2 := by
  unfold drawHash
  try dsimp only
  repeat' first
    | with_reducible assumption
    | exact within_trans rfl hm
    | with_reducible apply drawFree_keeps
    | split
    | refine keeps_snd (by with_reducible assumption) ?_

theorem otpPart_keeps {μ : Nat} {s0 : State} (op : OtpOp) (s : State) (hk : Keeps μ s0 s) 
    (hm : Within 0x800001 μ := by exact within_trans rfl (by assumption)) : Keeps μ s0 (otpPart op s) := by
  cases op with
  | keyHash n h =>
    unfold otpPart
    dsimp only
    refine modSec_keeps _ _ ?_ ?_
    · exact drawHash_keeps _ hk
    · exact fun x => ⟨Nat.le_refl _, fun _ h => h⟩
  | revoke n =>
    unfold otpPart
    dsimp only
    refine modSec_keeps _ _ ?_ ?_
    · exact drawFree_keeps _ _ hk
    · refine fun x => ⟨Nat.le_refl _, fun k h => ?_⟩
      show (x.revoke ||| _).testBit k = true
      rw [Nat.testBit_or, h, Bool.true_or]
  | arb v =>
    unfold otpPart
    dsimp only
    refine modSec_keeps _ _ ?_ ?_
    · exact drawFree_keeps _ _ hk
    · exact fun x => ⟨Nat.le_add_right _ _, fun _ h => h⟩

theorem otpDone_keeps {μ : Nat} {s0 : State} (ok : Bool) (s : State)  (hk : Keeps μ s0 s) (hm : Within 0x800121 μ := by exact within_trans rfl (by assumption)) : Keeps μ s0 (otpDone ok s) := by
  unfold otpDone
  try dsimp only
  repeat' first
    | with_reducible assumption
    | exact within_trans rfl hm
    | with_reducible apply wrN_keeps
    | with_reducible apply evt_keeps
    | with_reducible apply modSec_keeps
    | with_reducible apply showOtp_keeps
    | with_reducible apply otpDo_keeps
    | with_reducible apply otpPart_keeps
    | with_reducible apply keeps_ite
    | split
    | exact fun _ => OtpGrows.mk (Nat.le_refl _) (fun _ h => h)
    | (intro)
    | with_reducible apply keeps_mk
    | with_reducible apply And.intro
    | exact Or.inl (within_bit _ rfl hm)
    | exact Or.inr rfl

theorem vCmd_keeps {μ : Nat} {s0 : State} (s : State)  (hk : Keeps μ s0 s) (hm : Within 0x800020 μ := by exact within_trans rfl (by assumption)) : Keeps μ s0 (vCmd s) := by
  unfold vCmd
  try dsimp only
  repeat' first
    | with_reducible assumption
    | exact within_trans rfl hm
    | with_reducible apply wrN_keeps
    | with_reducible apply modSec_keeps
    | with_reducible apply keeps_ite
    | split
    | exact fun _ => OtpGrows.mk (Nat.le_refl _) (fun _ h => h)
    | (intro)
    | with_reducible apply keeps_mk
    | with_reducible apply And.intro
    | exact Or.inl (within_bit _ rfl hm)
    | exact Or.inr rfl

theorem vDone_keeps {μ : Nat} {s0 : State} (s : State)  (hk : Keeps μ s0 s) (hm : Within 0x800120 μ := by exact within_trans rfl (by assumption)) : Keeps μ s0 (vDone s) := by
  unfold vDone
  try dsimp only
  repeat' first
    | with_reducible assumption
    | exact within_trans rfl hm
    | with_reducible apply wrN_keeps
    | with_reducible apply evt_keeps
    | with_reducible apply modSec_keeps
    | split
    | exact fun _ => OtpGrows.mk (Nat.le_refl _) (fun _ h => h)
    | (intro)
    | with_reducible apply keeps_mk
    | with_reducible apply And.intro
    | exact Or.inl (within_bit _ rfl hm)
    | exact Or.inr rfl

theorem sgCmd_keeps {μ : Nat} {s0 : State} (s : State)  (hk : Keeps μ s0 s) (hm : Within 0x800020 μ := by exact within_trans rfl (by assumption)) : Keeps μ s0 (sgCmd s) := by
  unfold sgCmd
  try dsimp only
  repeat' first
    | with_reducible assumption
    | exact within_trans rfl hm
    | with_reducible apply wrN_keeps
    | with_reducible apply modSec_keeps
    | with_reducible apply keeps_ite
    | split
    | exact fun _ => OtpGrows.mk (Nat.le_refl _) (fun _ h => h)
    | (intro)
    | with_reducible apply keeps_mk
    | with_reducible apply And.intro
    | exact Or.inl (within_bit _ rfl hm)
    | exact Or.inr rfl

theorem sgDone_keeps {μ : Nat} {s0 : State} (s : State)  (hk : Keeps μ s0 s) (hm : Within 0x800161 μ := by exact within_trans rfl (by assumption)) : Keeps μ s0 (sgDone s) := by
  unfold sgDone
  try dsimp only
  repeat' first
    | with_reducible assumption
    | exact within_trans rfl hm
    | with_reducible apply wrN_keeps
    | with_reducible apply sramPutBytes_keeps
    | with_reducible apply evt_keeps
    | with_reducible apply modSec_keeps
    | with_reducible apply keeps_ite
    | split
    | exact fun _ => OtpGrows.mk (Nat.le_refl _) (fun _ h => h)
    | (intro)
    | with_reducible apply keeps_mk
    | with_reducible apply And.intro
    | exact Or.inl (within_bit _ rfl hm)
    | exact Or.inr rfl

theorem loosen_keeps {μ : Nat} {s0 : State} (s : State)  (hk : Keeps μ s0 s) (hm : Within 0x120 μ := by exact within_trans rfl (by assumption)) : Keeps μ s0 (loosen s) := by
  unfold loosen
  try dsimp only
  repeat' first
    | with_reducible assumption
    | exact within_trans rfl hm
    | with_reducible apply satInc_keeps
    | with_reducible apply evt_keeps

theorem lowerWorking_keeps {μ : Nat} {s0 : State} (s : State)  (hk : Keeps μ s0 s) (hm : Within 0x20 μ := by exact within_trans rfl (by assumption)) : Keeps μ s0 (lowerWorking s) := by
  unfold lowerWorking
  try dsimp only
  repeat' first
    | with_reducible assumption
    | exact within_trans rfl hm
    | with_reducible apply setF_keeps
    | with_reducible apply wrN_keeps
    | with_reducible apply keeps_ite
    | split

theorem limitInt_keeps {μ : Nat} {s0 : State} (a w v : Nat) (s : State)  (hk : Keeps μ s0 s) (hm : Within 0x1000120 μ := by exact within_trans rfl (by assumption)) : Keeps μ s0 (limitInt a w v s) := by
  unfold limitInt
  try dsimp only
  repeat' first
    | with_reducible assumption
    | exact within_trans rfl hm
    | with_reducible apply wrN_keeps
    | with_reducible apply settleTokens_keeps
    | with_reducible apply loosen_keeps
    | with_reducible apply lowerWorking_keeps
    | with_reducible apply keeps_ite
    | split

theorem limitFp_keeps {μ : Nat} {s0 : State} (a v : Nat) (s : State)  (hk : Keeps μ s0 s) (hm : Within 0x120 μ := by exact within_trans rfl (by assumption)) : Keeps μ s0 (limitFp a v s) := by
  unfold limitFp
  try dsimp only
  repeat' first
    | with_reducible assumption
    | exact within_trans rfl hm
    | with_reducible apply wrN_keeps
    | with_reducible apply loosen_keeps
    | with_reducible apply keeps_ite
    | split

theorem limitShock_keeps {μ : Nat} {s0 : State} (v : Nat) (s : State)  (hk : Keeps μ s0 s) (hm : Within 0x120 μ := by exact within_trans rfl (by assumption)) : Keeps μ s0 (limitShock v s) := by
  unfold limitShock
  try dsimp only
  repeat' first
    | with_reducible assumption
    | exact within_trans rfl hm
    | with_reducible apply wrN_keeps
    | with_reducible apply loosen_keeps
    | with_reducible apply lowerWorking_keeps
    | with_reducible apply keeps_ite
    | split

theorem limitWrite_keeps {μ : Nat} {s0 : State} (a v : Nat) (s : State)  (hk : Keeps μ s0 s) (hm : Within 0x1000120 μ := by exact within_trans rfl (by assumption)) : Keeps μ s0 (limitWrite a v s) := by
  unfold limitWrite
  try dsimp only
  repeat' first
    | with_reducible assumption
    | exact within_trans rfl hm
    | with_reducible apply limitInt_keeps
    | with_reducible apply limitFp_keeps
    | with_reducible apply limitShock_keeps
    | with_reducible apply keeps_ite
    | split
    | with_reducible apply keeps_mk
    | with_reducible apply And.intro
    | exact Or.inl (within_bit _ rfl hm)
    | exact Or.inr rfl

theorem peslimWrite_keeps {μ : Nat} {s0 : State} (v : Nat) (s : State)  (hk : Keeps μ s0 s) (hm : Within 0x20 μ := by exact within_trans rfl (by assumption)) : Keeps μ s0 (peslimWrite v s) := by
  unfold peslimWrite
  try dsimp only
  repeat' first
    | with_reducible assumption
    | exact within_trans rfl hm
    | with_reducible apply wrN_keeps
    | with_reducible apply keeps_ite
    | split

theorem shklimWrite_keeps {μ : Nat} {s0 : State} (v : Nat) (s : State)  (hk : Keeps μ s0 s) (hm : Within 0x20 μ := by exact within_trans rfl (by assumption)) : Keeps μ s0 (shklimWrite v s) := by
  unfold shklimWrite
  try dsimp only
  repeat' first
    | with_reducible assumption
    | exact within_trans rfl hm
    | with_reducible apply wrN_keeps
    | with_reducible apply keeps_ite
    | split

theorem workingWrite_keeps {μ : Nat} {s0 : State} (shock : Bool) (v : Nat) (s : State)  (hk : Keeps μ s0 s) (hm : Within 0x20 μ := by exact within_trans rfl (by assumption)) : Keeps μ s0 (workingWrite shock v s) := by
  unfold workingWrite
  try dsimp only
  repeat' first
    | with_reducible assumption
    | exact within_trans rfl hm
    | with_reducible apply peslimWrite_keeps
    | with_reducible apply shklimWrite_keeps
    | with_reducible apply keeps_ite
    | split

end Sys2Proof.Machine
end

