-- ==== Sys2Proof/Laws/KeepsStartUp.lean ====
section
/-! SUPPORT. The operations of StartUp.lean keep the queue and the canonical stores. -/

set_option Elab.async false

namespace Sys2Proof.Machine

theorem enterBoot_keeps {μ : Nat} {s0 : State} (s : State)  (hk : Keeps μ s0 s) (hm : Within 0x20b844521 μ := by exact within_trans rfl (by assumption)) : Keeps μ s0 (enterBoot s) := by
  unfold enterBoot
  try dsimp only
  repeat' first
    | with_reducible assumption
    | exact within_trans rfl hm
    | with_reducible apply setF_keeps
    | with_reducible apply setBit_keeps
    | with_reducible apply enterMode_keeps
    | with_reducible apply modEvr_keeps
    | with_reducible apply modSys_keeps
    | with_reducible apply modSec_keeps
    | with_reducible apply showOtp_keeps
    | exact fun _ => OtpGrows.mk (Nat.le_refl _) (fun _ h => h)
    | (intro)
    | with_reducible apply keeps_mk
    | with_reducible apply And.intro
    | exact Or.inl (within_bit _ rfl hm)
    | exact Or.inr rfl

theorem fillEnd_keeps {μ : Nat} {s0 : State} (bad failed : Nat) (s : State) (hk : Keeps μ s0 s) 
    (hm : Within 0x31bd44561 μ := by exact within_trans rfl (by assumption)) :
    Keeps μ s0 (fillEnd bad failed s) := by
  unfold fillEnd
  dsimp only
  split
  · exact hk
  · have h : Keeps μ s0 { s with sram := [] } := keeps_new hk rfl id (Or.inr rfl) rfl (otpGrows_refl _) id
      fun f x => same_but 6 (within_trans (a := 0x40) rfl hm) (by cases f <;> simp [Field.index, Field.same]) x
    split
    · exact enterBoot_keeps _ (showScrub_keeps _ (modEcc_keeps _ _ (evtIf_keeps _ _ _ _ (satAdd_keeps _ _ _
        (setF_keeps _ _ _ _ _ (setBit_keeps _ _ _ _ (wrN_keeps _ _ _ h)))))))
    · exact safeHold_keeps _ _ (showScrub_keeps _ (modEcc_keeps _ _ (evtIf_keeps _ _ _ _ (satAdd_keeps _ _ _
        (setF_keeps _ _ _ _ _ (setBit_keeps _ _ _ _ (wrN_keeps _ _ _ h)))))))

theorem loadLimits_keeps {μ : Nat} {s0 : State} (g : Image) (s : State)  (hk : Keeps μ s0 s) (hm : Within 0x1000020 μ := by exact within_trans rfl (by assumption)) : Keeps μ s0 (loadLimits g s) := by
  unfold loadLimits
  try dsimp only
  repeat' first
    | with_reducible assumption
    | exact within_trans rfl hm
    | with_reducible apply wrN_keeps
    | with_reducible apply settleTokens_keeps
    | with_reducible apply modSlu_keeps
    | (intro)
    | with_reducible apply keeps_mk
    | with_reducible apply And.intro
    | exact Or.inl (within_bit _ rfl hm)
    | exact Or.inr rfl

theorem bootLimits_keeps {μ : Nat} {s0 : State} (s : State)  (hk : Keeps μ s0 s) (hm : Within 0x1004520 μ := by exact within_trans rfl (by assumption)) : Keeps μ s0 (bootLimits s) := by
  unfold bootLimits
  try dsimp only
  repeat' first
    | with_reducible assumption
    | exact within_trans rfl hm
    | with_reducible apply setBit_keeps
    | with_reducible apply sluAll_keeps
    | with_reducible apply loadLimits_keeps
    | with_reducible apply keeps_ite
    | split

theorem bootMicrocode_keeps {μ : Nat} {s0 : State} (s : State)  (hk : Keeps μ s0 s) (hm : Within 0xc020 μ := by exact within_trans rfl (by assumption)) : Keeps μ s0 (bootMicrocode s) := by
  unfold bootMicrocode
  try dsimp only
  repeat' first
    | with_reducible assumption
    | exact within_trans rfl hm
    | with_reducible apply setBit_keeps
    | with_reducible apply imageInstall_keeps
    | with_reducible apply keeps_ite
    | split

theorem setBankA_sized {v : Srv} (b : List (Nat × Word)) (h : v.sized = true) : ({ v with bankA := b } : Srv).sized = true := h

theorem setBankB_sized {v : Srv} (b : List (Nat × Word)) (h : v.sized = true) : ({ v with bankB := b } : Srv).sized = true := h

theorem bootBank_keeps {μ : Nat} {s0 : State} (g : Image) (a : Nat) (s : State) (hk : Keeps μ s0 s) 
    (hm : Within 0x100120 μ := by exact within_trans rfl (by assumption)) :
    Keeps μ s0 (bootBank g a s) := by
  unfold bootBank
  dsimp only
  refine bankCheckEnd_keeps _ _ (setBit_keeps _ _ _ _ (modSrv_keeps _ _ _ hk fun v h => ?_))
  split
  · exact setBankA_sized _ h
  · exact setBankB_sized _ h

theorem bootDefaults_keeps {μ : Nat} {s0 : State} (s : State)  (hk : Keeps μ s0 s) (hm : Within 0x100120 μ := by exact within_trans rfl (by assumption)) : Keeps μ s0 (bootDefaults s) := by
  unfold bootDefaults
  try dsimp only
  repeat' first
    | with_reducible assumption
    | exact within_trans rfl hm
    | with_reducible apply setBit_keeps
    | with_reducible apply bootBank_keeps
    | with_reducible apply keeps_ite
    | split

theorem bootRest_keeps {μ : Nat} {s0 : State} (identity : Bool) (s : State)  (hk : Keeps μ s0 s) (hm : Within 0x30bd4c521 μ := by exact within_trans rfl (by assumption)) : Keeps μ s0 (bootRest identity s) := by
  unfold bootRest
  try dsimp only
  repeat' first
    | (with_reducible apply keeps_foldl; intro s _ hk)
    | with_reducible assumption
    | exact within_trans rfl hm
    | with_reducible apply setBit_keeps
    | with_reducible apply wrN_keeps
    | with_reducible apply trigger_keeps
    | with_reducible apply enterMode_keeps
    | with_reducible apply modSys_keeps
    | with_reducible apply safeHold_keeps
    | with_reducible apply modSec_keeps
    | with_reducible apply calBoot_keeps
    | with_reducible apply bootMicrocode_keeps
    | with_reducible apply bootDefaults_keeps
    | exact fun _ => OtpGrows.mk (Nat.le_refl _) (fun _ h => h)
    | (intro)
    | with_reducible apply keeps_mk
    | with_reducible apply And.intro
    | exact Or.inl (within_bit _ rfl hm)
    | exact Or.inr rfl

theorem bootEnd_keeps {μ : Nat} {s0 : State} (identity : Bool) (s : State)  (hk : Keeps μ s0 s) (hm : Within 0x30bd4c561 μ := by exact within_trans rfl (by assumption)) : Keeps μ s0 (bootEnd identity s) := by
  unfold bootEnd
  try dsimp only
  repeat' first
    | with_reducible assumption
    | exact within_trans rfl hm
    | with_reducible apply setBit_keeps
    | with_reducible apply loadFirmware_keeps
    | with_reducible apply safeHold_keeps
    | with_reducible apply bootLimits_keeps
    | with_reducible apply bootRest_keeps
    | with_reducible apply keeps_ite
    | split
    | with_reducible apply keeps_mk
    | with_reducible apply And.intro
    | exact Or.inl (within_bit _ rfl hm)
    | exact Or.inr rfl

theorem idnCopy_keeps {μ : Nat} {s0 : State} (o most : Nat) (b : Option (List Nat)) (s : State)  (hk : Keeps μ s0 s) (hm : Within 0x40 μ := by exact within_trans rfl (by assumption)) : Keeps μ s0 (idnCopy o most b s) := by
  unfold idnCopy
  try dsimp only
  repeat' first
    | with_reducible assumption
    | exact within_trans rfl hm
    | with_reducible apply sramPutBytes_keeps

theorem showFindings_keeps {μ : Nat} {s0 : State} (f : Nat × Nat × Nat) (s : State)  (hk : Keeps μ s0 s) (hm : Within 0x120 μ := by exact within_trans rfl (by assumption)) : Keeps μ s0 (showFindings f s) := by
  unfold showFindings
  try dsimp only
  repeat' first
    | with_reducible assumption
    | exact within_trans rfl hm
    | with_reducible apply wrN_keeps
    | with_reducible apply evtIf_keeps

theorem surveyActuator_keeps {μ : Nat} {s0 : State} (a : Nat) (off : Bool) (s : State)  (hk : Keeps μ s0 s) (hm : Within 0x120 μ := by exact within_trans rfl (by assumption)) : Keeps μ s0 (surveyActuator a off s) := by
  unfold surveyActuator
  try dsimp only
  repeat' first
    | (with_reducible apply keeps_foldl; intro s _ hk)
    | with_reducible assumption
    | exact within_trans rfl hm
    | with_reducible apply setF_keeps
    | with_reducible apply setBit_keeps
    | with_reducible apply evt_keeps
    | with_reducible apply keeps_ite
    | split
    | (intro)

theorem lowerFloat_keeps {μ : Nat} {s0 : State} (a v : Nat) (s : State)  (hk : Keeps μ s0 s) (hm : Within 0x20 μ := by exact within_trans rfl (by assumption)) : Keeps μ s0 (lowerFloat a v s) := by
  unfold lowerFloat
  try dsimp only
  repeat' first
    | with_reducible assumption
    | exact within_trans rfl hm
    | with_reducible apply wrN_keeps
    | with_reducible apply keeps_ite
    | split

theorem lowerHead_keeps {μ : Nat} {s0 : State} (locked : Bool) (a : Nat) (b : List Nat) (s : State) (h : Nat)  (hk : Keeps μ s0 s) (hm : Within 0x20 μ := by exact within_trans rfl (by assumption)) : Keeps μ s0 (lowerHead locked a b s h) := by
  unfold lowerHead
  try dsimp only
  repeat' first
    | with_reducible assumption
    | exact within_trans rfl hm
    | with_reducible apply wrN_keeps
    | with_reducible apply keeps_ite
    | split

theorem surveyHeads_keeps {μ : Nat} {s0 : State} (locked : Bool) (a : Nat) (b : List Nat) (s : State)  (hk : Keeps μ s0 s) (hm : Within 0x20 μ := by exact within_trans rfl (by assumption)) : Keeps μ s0 (surveyHeads locked a b s) := by
  unfold surveyHeads
  try dsimp only
  repeat' first
    | (with_reducible apply keeps_foldl; intro s _ hk)
    | with_reducible assumption
    | exact within_trans rfl hm
    | with_reducible apply wrN_keeps
    | with_reducible apply lowerHead_keeps

theorem lockLimits_keeps {μ : Nat} {s0 : State} (pa pb : Option (List Nat)) (hda : List Nat) (s : State)  (hk : Keeps μ s0 s) (hm : Within 0x4520 μ := by exact within_trans rfl (by assumption)) : Keeps μ s0 (lockLimits pa pb hda s) := by
  unfold lockLimits
  try dsimp only
  repeat' first
    | with_reducible assumption
    | exact within_trans rfl hm
    | with_reducible apply setBit_keeps
    | with_reducible apply wrN_keeps
    | with_reducible apply sluAll_keeps
    | with_reducible apply lowerWorking_keeps
    | with_reducible apply lowerFloat_keeps
    | with_reducible apply surveyHeads_keeps
    | with_reducible apply keeps_ite
    | split

theorem surveyOk_keeps {μ : Nat} {s0 : State} (pa pb : Option (List Nat)) (hda : List Nat) (s : State)  (hk : Keeps μ s0 s) (hm : Within 0x20b444521 μ := by exact within_trans rfl (by assumption)) : Keeps μ s0 (surveyOk pa pb hda s) := by
  unfold surveyOk
  try dsimp only
  repeat' first
    | with_reducible assumption
    | exact within_trans rfl hm
    | with_reducible apply wrN_keeps
    | with_reducible apply evt_keeps
    | with_reducible apply enterMode_keeps
    | with_reducible apply modSys_keeps
    | with_reducible apply entryGoesOn_keeps
    | with_reducible apply lockLimits_keeps
    | with_reducible apply keeps_ite
    | split
    | (intro)
    | with_reducible apply keeps_mk
    | with_reducible apply And.intro
    | exact Or.inl (within_bit _ rfl hm)
    | exact Or.inr rfl

theorem surveyEnd_keeps {μ : Nat} {s0 : State} (pa pb hda : Option (List Nat)) (s : State)  (hk : Keeps μ s0 s) (hm : Within 0x30b544561 μ := by exact within_trans rfl (by assumption)) : Keeps μ s0 (surveyEnd pa pb hda s) := by
  unfold surveyEnd
  try dsimp only
  repeat' first
    | with_reducible assumption
    | exact within_trans rfl hm
    | with_reducible apply setBit_keeps
    | with_reducible apply modSys_keeps
    | with_reducible apply safeHold_keeps
    | with_reducible apply idnCopy_keeps
    | with_reducible apply showFindings_keeps
    | with_reducible apply surveyActuator_keeps
    | with_reducible apply surveyOk_keeps
    | with_reducible apply keeps_ite
    | split
    | (intro)
    | with_reducible apply keeps_mk
    | with_reducible apply And.intro
    | exact Or.inl (within_bit _ rfl hm)
    | exact Or.inr rfl

theorem idnEnds_keeps {μ : Nat} {s0 : State} (r : Nat) (s : State)  (hk : Keeps μ s0 s) (hm : Within 0x120 μ := by exact within_trans rfl (by assumption)) : Keeps μ s0 (idnEnds r s) := by
  unfold idnEnds
  try dsimp only
  repeat' first
    | with_reducible assumption
    | exact within_trans rfl hm
    | with_reducible apply wrN_keeps
    | with_reducible apply evt_keeps

theorem preampAccess_keeps {μ : Nat} {s0 : State} (a w : Nat) (write : Bool) (s : State)  (hk : Keeps μ s0 s) (hm : Within 0x800000000 μ := by exact within_trans rfl (by assumption)) : Keeps μ s0 (preampAccess a w write s) := by
  unfold preampAccess
  try dsimp only
  repeat' first
    | with_reducible assumption
    | exact within_trans rfl hm
    | with_reducible apply modImone_keeps
    | with_reducible apply keeps_ite
    | split
    | (intro)
    | with_reducible apply keeps_mk
    | with_reducible apply And.intro
    | exact Or.inl (within_bit _ rfl hm)
    | exact Or.inr rfl

theorem idnCommand_keeps {μ : Nat} {s0 : State} (v : Nat) (s : State)  (hk : Keeps μ s0 s) (hm : Within 0x802000120 μ := by exact within_trans rfl (by assumption)) : Keeps μ s0 (idnCommand v s) := by
  unfold idnCommand
  try dsimp only
  repeat' first
    | with_reducible assumption
    | exact within_trans rfl hm
    | with_reducible apply wrN_keeps
    | with_reducible apply modSys_keeps
    | with_reducible apply idnEnds_keeps
    | with_reducible apply preampAccess_keeps
    | with_reducible apply keeps_ite
    | split
    | (intro)
    | with_reducible apply keeps_mk
    | with_reducible apply And.intro
    | exact Or.inl (within_bit _ rfl hm)
    | exact Or.inr rfl

theorem idnDone_keeps {μ : Nat} {s0 : State} (data : Option Nat) (s : State)  (hk : Keeps μ s0 s) (hm : Within 0x2000120 μ := by exact within_trans rfl (by assumption)) : Keeps μ s0 (idnDone data s) := by
  unfold idnDone
  try dsimp only
  repeat' first
    | with_reducible assumption
    | exact within_trans rfl hm
    | with_reducible apply wrN_keeps
    | with_reducible apply modSys_keeps
    | with_reducible apply idnEnds_keeps
    | with_reducible apply keeps_ite
    | split
    | (intro)
    | with_reducible apply keeps_mk
    | with_reducible apply And.intro
    | exact Or.inl (within_bit _ rfl hm)
    | exact Or.inr rfl

end Sys2Proof.Machine
end

