-- ==== Sys2Proof/Laws/KeepsResets.lean ====
section
/-! SUPPORT. The operations of Resets.lean keep the queue and the canonical stores. -/

set_option Elab.async false

namespace Sys2Proof.Machine

theorem otpCut_keeps {μ : Nat} {s0 : State} (s : State)  (hk : Keeps μ s0 s) (hm : Within 0x800001 μ := by exact within_trans rfl (by assumption)) : Keeps μ s0 (otpCut s) := by
  unfold otpCut
  try dsimp only
  repeat' first
    | with_reducible assumption
    | exact within_trans rfl hm
    | with_reducible apply modSec_keeps
    | with_reducible apply otpPart_keeps
    | split
    | exact fun _ => OtpGrows.mk (Nat.le_refl _) (fun _ h => h)
    | (intro)
    | with_reducible apply keeps_mk
    | with_reducible apply And.intro
    | exact Or.inl (within_bit _ rfl hm)
    | exact Or.inr rfl

theorem showReset_keeps {μ : Nat} {s0 : State} (kind : Nat) (s : State)  (hk : Keeps μ s0 s) (hm : Within 0x20 μ := by exact within_trans rfl (by assumption)) : Keeps μ s0 (showReset kind s) := by
  unfold showReset
  try dsimp only
  repeat' first
    | with_reducible assumption
    | exact within_trans rfl hm
    | with_reducible apply wrN_keeps
    | with_reducible apply satInc_keeps

theorem showSanitize_keeps {μ : Nat} {s0 : State} (s : State)  (hk : Keeps μ s0 s) (hm : Within 0x20 μ := by exact within_trans rfl (by assumption)) : Keeps μ s0 (showSanitize s) := by
  unfold showSanitize
  try dsimp only
  repeat' first
    | with_reducible assumption
    | exact within_trans rfl hm
    | with_reducible apply setBit_keeps

theorem showNode_keeps {μ : Nat} {s0 : State} (s : State)  (hk : Keeps μ s0 s) (hm : Within 0x20 μ := by exact within_trans rfl (by assumption)) : Keeps μ s0 (showNode s) := by
  unfold showNode
  try dsimp only
  repeat' first
    | with_reducible assumption
    | exact within_trans rfl hm
    | with_reducible apply wrN_keeps

theorem startFill_keeps {μ : Nat} {s0 : State} (s : State)  (hk : Keeps μ s0 s) (hm : Within 0x10000000 μ := by exact within_trans rfl (by assumption)) : Keeps μ s0 (startFill s) := by
  unfold startFill
  try dsimp only
  repeat' first
    | with_reducible assumption
    | exact within_trans rfl hm
    | with_reducible apply modEcc_keeps
    | (intro)
    | with_reducible apply keeps_mk
    | with_reducible apply And.intro
    | exact Or.inl (within_bit _ rfl hm)
    | exact Or.inr rfl

theorem powerOn_keeps {μ : Nat} {s0 : State} (s : State) (hk : Keeps μ s0 s) 
    (hm : Within 0x1fffffffff μ := by exact within_trans rfl (by assumption)) : Keeps μ s0 (powerOn s) := by
  unfold powerOn
  exact wrN_keeps _ _ _ (showNode_keeps _ (showSanitize_keeps _
    (keeps_new (otpCut_keeps _ hk) rfl (fun _ => rfl) (Or.inr rfl) rfl ⟨Nat.le_refl _, fun _ h => h⟩ (fun _ => rfl)
      (full_mask hm))))

theorem coastFrom_keeps {μ : Nat} {s0 : State} (old s : State)  (hk : Keeps μ s0 s) (hm : Within 0x8404521 μ := by exact within_trans rfl (by assumption)) : Keeps μ s0 (coastFrom old s) := by
  unfold coastFrom
  try dsimp only
  repeat' first
    | with_reducible assumption
    | exact within_trans rfl hm
    | with_reducible apply modSpn_keeps
    | with_reducible apply coast_keeps
    | with_reducible apply keeps_ite
    | split
    | (intro)
    | with_reducible apply keeps_mk
    | with_reducible apply And.intro
    | exact Or.inl (within_bit _ rfl hm)
    | exact Or.inr rfl

/-- The numbered units that a reset leaves. -/
theorem sized_fresh {s t : State} (h1 : t.slots.length = 8) (h2 : t.lanes.length = 16)
    (h3 : t.dbLevel = s.dbLevel) (h4 : t.dbStop = s.dbStop) (h5 : t.tsq = State.reset.tsq)
    (h6 : t.srv = srvKept s) (h7 : t.imone.length = 2) (h8 : t.net.sized = true) (h9 : t.ang.sized = true)
    (h : s.sized = true) : t.sized = true := by
  rw [sized_iff] at h ⊢
  obtain ⟨_, _, k3, k4, _, _, k7, _⟩ := h
  refine ⟨h1, h2, h3 ▸ k3, h4 ▸ k4, h5 ▸ rfl, h5 ▸ rfl, ?_, ?_, h7, h8, h9⟩
  · rw [h6]
    simpa [srvKept] using k7
  · rw [h6]
    simp [srvKept, Srv.sized, Srv.reset]

theorem scanon_regsAfter {mask : Nat → Nat} {s : State} (h : scanon regReset s.regs = true) :
    scanon regReset (regsAfter mask s) = true := by
  refine scanon_filterMap _ (fun e x hx => ?_) h
  dsimp only at hx
  split at hx
  · simp at hx
  · rename_i hv
    simp only [Option.some.injEq] at hx
    subst hx
    exact ⟨rfl, hv⟩

theorem pinState_keeps {μ : Nat} {s0 : State} (kind rank : Nat) (s : State) (hk : Keeps μ s0 s) 
    (hm : Within 0x1fffffffff μ := by exact within_trans rfl (by assumption)) :
    Keeps μ s0 (pinState kind rank s) := by
  unfold pinState
  dsimp only
  refine startFill_keeps _ (sluAll_keeps _ (trigger_keeps _ _ _ (evt_keeps _ _ _ (showReset_keeps _ _
    (coastFrom_keeps _ _ (wr64_keeps _ _ _ (setF_keeps _ _ _ _ _ (lowerWorking_keeps _ (wrN_keeps _ _ _
      (showNode_keeps _ (showSanitize_keeps _ ?_)))))))))))
  exact keeps_new (otpCut_keeps _ hk) rfl scanon_regsAfter (Or.inr rfl) rfl ⟨Nat.le_refl _, fun _ h => h⟩
    (sized_fresh rfl rfl rfl rfl rfl rfl rfl rfl rfl) (full_mask hm)

theorem restartFill_keeps {μ : Nat} {s0 : State} (s : State)  (hk : Keeps μ s0 s) (hm : Within 0x10000020 μ := by exact within_trans rfl (by assumption)) : Keeps μ s0 (restartFill s) := by
  unfold restartFill
  try dsimp only
  repeat' first
    | with_reducible assumption
    | exact within_trans rfl hm
    | with_reducible apply setBit_keeps
    | with_reducible apply startFill_keeps

theorem ranked_keeps {μ : Nat} {s0 : State} (rank : Nat) (f : State → State) (s : State)
    (hf : ∀ t, Keeps μ s0 t → Keeps μ s0 (f t)) (hk : Keeps μ s0 s) 
    (hm : Within 0x21b844521 μ := by exact within_trans rfl (by assumption)) : Keeps μ s0 (ranked rank f s) := by
  unfold ranked
  split
  · split
    · exact restartFill_keeps _ hk
    · split
      · exact enterBoot_keeps _ hk
      · exact hk
  · exact hf _ hk

theorem emergencyRetract_keeps {μ : Nat} {s0 : State} (s : State)  (hk : Keeps μ s0 s) (hm : Within 0x104520 μ := by exact within_trans rfl (by assumption)) : Keeps μ s0 (emergencyRetract s) := by
  unfold emergencyRetract
  try dsimp only
  repeat' first
    | with_reducible assumption
    | exact within_trans rfl hm
    | with_reducible apply startRetract_keeps

theorem bridgeOff_keeps {μ : Nat} {s0 : State} (s : State)  (hk : Keeps μ s0 s) (hm : Within 0x8404521 μ := by exact within_trans rfl (by assumption)) : Keeps μ s0 (bridgeOff s) := by
  unfold bridgeOff
  try dsimp only
  repeat' first
    | with_reducible assumption
    | exact within_trans rfl hm
    | with_reducible apply coast_keeps
    | with_reducible apply keeps_ite
    | split

theorem resetFalls_keeps {μ : Nat} {s0 : State} (s : State)  (hk : Keeps μ s0 s) (hm : Within 0xa504521 μ := by exact within_trans rfl (by assumption)) : Keeps μ s0 (resetFalls s) := by
  unfold resetFalls
  try dsimp only
  repeat' first
    | with_reducible assumption
    | exact within_trans rfl hm
    | with_reducible apply sluAll_keeps
    | with_reducible apply modSys_keeps
    | with_reducible apply killAll_keeps
    | with_reducible apply emergencyRetract_keeps
    | with_reducible apply bridgeOff_keeps
    | with_reducible apply keeps_ite
    | split
    | (intro)
    | with_reducible apply keeps_mk
    | with_reducible apply And.intro
    | exact Or.inl (within_bit _ rfl hm)
    | exact Or.inr rfl

theorem pinReset_keeps {μ : Nat} {s0 : State} (s : State)  (hk : Keeps μ s0 s) (hm : Within 0x1fffffffff μ := by exact within_trans rfl (by assumption)) : Keeps μ s0 (pinReset s) := by
  unfold pinReset
  try dsimp only
  repeat' first
    | with_reducible assumption
    | exact within_trans rfl hm
    | with_reducible apply trigger_keeps
    | with_reducible apply modSys_keeps
    | with_reducible apply tapRelease_keeps
    | with_reducible apply pinState_keeps
    | with_reducible apply ranked_keeps
    | with_reducible apply keeps_ite
    | split
    | (intro)
    | with_reducible apply keeps_mk
    | with_reducible apply And.intro
    | exact Or.inl (within_bit _ rfl hm)
    | exact Or.inr rfl

theorem stopOp_keeps {μ : Nat} {s0 : State} (q x : Nat) (s : State)  (hk : Keeps μ s0 s) (hm : Within 0x20bde4f61 μ := by exact within_trans rfl (by assumption)) : Keeps μ s0 (stopOp q x s) := by
  unfold stopOp
  try dsimp only
  repeat' first
    | (with_reducible apply keeps_foldl; intro s _ hk)
    | with_reducible assumption
    | exact within_trans rfl hm
    | with_reducible apply modCtx_keeps
    | with_reducible apply finishOp_keeps
    | with_reducible apply restoreItem_keeps
    | with_reducible apply endSlot_keeps
    | with_reducible apply keeps_ite
    | split
    | exact fun _ h => h
    | exact fun _ h => by simpa [Tsq.sized, Ctx.sized, Srv.sized, NetState.sized, AngState.sized, modAt_length, modAt_all] using h
    | (intro)
    | with_reducible apply keeps_mk
    | with_reducible apply And.intro
    | exact Or.inl (within_bit _ rfl hm)
    | exact Or.inr rfl
    | assumption

theorem stopOps_keeps {μ : Nat} {s0 : State} (s : State)  (hk : Keeps μ s0 s) (hm : Within 0x20bde4f61 μ := by exact within_trans rfl (by assumption)) : Keeps μ s0 (stopOps s) := by
  unfold stopOps
  try dsimp only
  repeat' first
    | (with_reducible apply keeps_foldl; intro s _ hk)
    | with_reducible assumption
    | exact within_trans rfl hm
    | with_reducible apply modCtx_keeps
    | with_reducible apply stopOp_keeps
    | exact fun _ h => h
    | exact fun _ h => by simpa [Tsq.sized, Ctx.sized, Srv.sized, NetState.sized, AngState.sized, modAt_length, modAt_all] using h
    | (intro)
    | with_reducible apply keeps_mk
    | with_reducible apply And.intro
    | exact Or.inl (within_bit _ rfl hm)
    | exact Or.inr rfl
    | assumption

theorem drainForReset_keeps {μ : Nat} {s0 : State} (kind pos : Nat) (s : State)  (hk : Keeps μ s0 s) (hm : Within 0x20bde4fe1 μ := by exact within_trans rfl (by assumption)) : Keeps μ s0 (drainForReset kind pos s) := by
  unfold drainForReset
  try dsimp only
  repeat' first
    | with_reducible assumption
    | exact within_trans rfl hm
    | with_reducible apply wrN_keeps
    | with_reducible apply trigger_keeps
    | with_reducible apply headsUnloaded_keeps
    | with_reducible apply flushRecords_keeps
    | with_reducible apply modSys_keeps
    | with_reducible apply closeAll_keeps
    | with_reducible apply unloadAll_keeps
    | with_reducible apply stopOps_keeps
    | (intro)
    | with_reducible apply keeps_mk
    | with_reducible apply And.intro
    | exact Or.inl (within_bit _ rfl hm)
    | exact Or.inr rfl

theorem fullReset_keeps {μ : Nat} {s0 : State} (s : State)  (hk : Keeps μ s0 s) (hm : Within 0x1fffffffff μ := by exact within_trans rfl (by assumption)) : Keeps μ s0 (fullReset s) := by
  unfold fullReset
  try dsimp only
  repeat' first
    | with_reducible assumption
    | exact within_trans rfl hm
    | with_reducible apply pinState_keeps
    | with_reducible apply ranked_keeps
    | with_reducible apply drainForReset_keeps
    | with_reducible apply keeps_ite
    | split
    | (intro)

theorem dropRetention_keeps {μ : Nat} {s0 : State} (w : ZoneWork) (s : State)  (hk : Keeps μ s0 s) (hm : Within 0x20040 μ := by exact within_trans rfl (by assumption)) : Keeps μ s0 (dropRetention w s) := by
  unfold dropRetention
  try dsimp only
  repeat' first
    | with_reducible assumption
    | exact within_trans rfl hm
    | with_reducible apply setTailu_keeps
    | with_reducible apply modWork_keeps
    | with_reducible apply keeps_ite
    | split
    | (intro)
    | with_reducible apply keeps_mk
    | with_reducible apply And.intro
    | exact Or.inl (within_bit _ rfl hm)
    | exact Or.inr rfl

theorem ztbAfter_keeps {μ : Nat} {s0 : State} (s : State)  (hk : Keeps μ s0 s) (hm : Within 0x200020060 μ := by exact within_trans rfl (by assumption)) : Keeps μ s0 (ztbAfter s) := by
  unfold ztbAfter
  try dsimp only
  repeat' first
    | (with_reducible apply keeps_foldl; intro s _ hk)
    | with_reducible assumption
    | exact within_trans rfl hm
    | with_reducible apply setBit_keeps
    | with_reducible apply modZtb_keeps
    | with_reducible apply rwEnds_keeps
    | with_reducible apply dropRetention_keeps
    | with_reducible apply keeps_ite
    | split
    | (intro)
    | with_reducible apply keeps_mk
    | with_reducible apply And.intro
    | exact Or.inl (within_bit _ rfl hm)
    | exact Or.inr rfl

theorem subsysState_keeps {μ : Nat} {s0 : State} (s : State) (hk : Keeps μ s0 s) 
    (hm : Within 0x1fffffffff μ := by exact within_trans rfl (by assumption)) : Keeps μ s0 (subsysState s) := by
  unfold subsysState
  dsimp only
  refine showScrub_keeps _ (showNode_keeps _ (showSanitize_keeps _ (clearLattice_keeps _
    (invalidateCaches_keeps _ (clearPool_keeps _ (setF_keeps _ _ _ _ _ (wrN_keeps _ _ _
      (setBit_keeps _ _ _ _ (setF_keeps _ _ _ _ _ ?_)))))))))
  exact keeps_new (otpCut_keeps _ (ztbAfter_keeps _ hk)) rfl scanon_regsAfter (Or.inl rfl) rfl ⟨Nat.le_refl _, fun _ h => h⟩
    (fun w => sized_fresh (s := otpCut (ztbAfter s)) rfl rfl rfl rfl rfl rfl rfl (sized_iff.1 w).2.2.2.2.2.2.2.2.2.1 rfl w)
    (full_mask hm)

theorem subsysReset_keeps {μ : Nat} {s0 : State} (kind : Nat) (s : State)  (hk : Keeps μ s0 s) (hm : Within 0x1fffffffff μ := by exact within_trans rfl (by assumption)) : Keeps μ s0 (subsysReset kind s) := by
  unfold subsysReset
  try dsimp only
  repeat' first
    | with_reducible assumption
    | exact within_trans rfl hm
    | with_reducible apply sluAll_keeps
    | with_reducible apply lowerWorking_keeps
    | with_reducible apply enterBoot_keeps
    | with_reducible apply showReset_keeps
    | with_reducible apply ranked_keeps
    | with_reducible apply drainForReset_keeps
    | with_reducible apply subsysState_keeps
    | with_reducible apply keeps_ite
    | split
    | (intro)

theorem watchdogReset_keeps {μ : Nat} {s0 : State} (c : Nat) (s : State)  (hk : Keeps μ s0 s) (hm : Within 0x20000120 μ := by exact within_trans rfl (by assumption)) : Keeps μ s0 (watchdogReset c s) := by
  unfold watchdogReset
  try dsimp only
  repeat' first
    | with_reducible assumption
    | exact within_trans rfl hm
    | with_reducible apply wrN_keeps
    | with_reducible apply satInc_keeps
    | with_reducible apply evt_keeps
    | with_reducible apply modCch_keeps
    | with_reducible apply keeps_ite
    | split
    | (intro)
    | with_reducible apply keeps_mk
    | with_reducible apply And.intro
    | exact Or.inl (within_bit _ rfl hm)
    | exact Or.inr rfl

theorem lossRecord_keeps {μ : Nat} {s0 : State} (s : State)  (hk : Keeps μ s0 s) (hm : Within 0x1e1 μ := by exact within_trans rfl (by assumption)) : Keeps μ s0 (lossRecord s) := by
  unfold lossRecord
  try dsimp only
  repeat' first
    | with_reducible assumption
    | exact within_trans rfl hm
    | with_reducible apply trigger_keeps
    | with_reducible apply modEvr_keeps
    | with_reducible apply endCommit_keeps
    | with_reducible apply flushRecords_keeps
    | (intro)
    | with_reducible apply keeps_mk
    | with_reducible apply And.intro
    | exact Or.inl (within_bit _ rfl hm)
    | exact Or.inr rfl

theorem powerLoss_keeps {μ : Nat} {s0 : State} (s : State)  (hk : Keeps μ s0 s) (hm : Within 0xb0b5445e1 μ := by exact within_trans rfl (by assumption)) : Keeps μ s0 (powerLoss s) := by
  unfold powerLoss
  try dsimp only
  repeat' first
    | with_reducible assumption
    | exact within_trans rfl hm
    | with_reducible apply sluAll_keeps
    | with_reducible apply modSys_keeps
    | with_reducible apply killAll_keeps
    | with_reducible apply calAbort_keeps
    | with_reducible apply modImone_keeps
    | with_reducible apply emergencyRetract_keeps
    | with_reducible apply bridgeOff_keeps
    | with_reducible apply lossRecord_keeps
    | with_reducible apply keeps_ite
    | split
    | (intro)
    | with_reducible apply keeps_mk
    | with_reducible apply And.intro
    | exact Or.inl (within_bit _ rfl hm)
    | exact Or.inr rfl

end Sys2Proof.Machine
end

