-- ==== Sys2Proof/Laws/KeepsFetch.lean ====
section
/-! SUPPORT. The operations of Fetch.lean keep the queue and the canonical stores. -/

set_option Elab.async false

namespace Sys2Proof.Machine

theorem takeTurn_keeps {μ : Nat} {s0 : State} (c : HostCmd) (s : State)  (hk : Keeps μ s0 s) (hm : Within 0x40000 μ := by exact within_trans rfl (by assumption)) : Keeps μ s0 (takeTurn c s) := by
  unfold takeTurn
  try dsimp only
  repeat' first
    | with_reducible assumption
    | exact within_trans rfl hm
    | with_reducible apply modNqe_keeps
    | with_reducible apply keeps_ite
    | split
    | (intro)
    | with_reducible apply keeps_mk
    | with_reducible apply And.intro
    | exact Or.inl (within_bit _ rfl hm)
    | exact Or.inr rfl

theorem preemptFor_keeps {μ : Nat} {s0 : State} (c : HostCmd) (s : State)  (hk : Keeps μ s0 s) (hm : Within 0x4000 μ := by exact within_trans rfl (by assumption)) : Keeps μ s0 (preemptFor c s) := by
  unfold preemptFor
  try dsimp only
  repeat' first
    | (with_reducible apply keeps_foldl; intro s _ hk)
    | with_reducible assumption
    | exact within_trans rfl hm
    | with_reducible apply requestP_keeps
    | with_reducible apply keeps_ite
    | split
    | (intro)

theorem putEntry_keeps {μ : Nat} {s0 : State} (slot e : Nat) (s : State)  (hk : Keeps μ s0 s) (hm : Within 0x40 μ := by exact within_trans rfl (by assumption)) : Keeps μ s0 (putEntry slot e s) := by
  unfold putEntry
  try dsimp only
  repeat' first
    | (with_reducible apply keeps_foldl; intro s _ hk)
    | with_reducible assumption
    | exact within_trans rfl hm
    | with_reducible apply sramPut64_keeps
    | (intro)

theorem putContext_keeps {μ : Nat} {s0 : State} (i : Nat) (s : State)  (hk : Keeps μ s0 s) (hm : Within 0x41 μ := by exact within_trans rfl (by assumption)) : Keeps μ s0 (putContext i s) := by
  unfold putContext
  try dsimp only
  repeat' first
    | (with_reducible apply keeps_foldl; intro s _ hk)
    | with_reducible assumption
    | exact within_trans rfl hm
    | with_reducible apply drawFree_keeps
    | with_reducible apply sramPut64_keeps
    | split
    | refine keeps_snd (by with_reducible assumption) ?_
    | (intro)

theorem touchContext_keeps {μ : Nat} {s0 : State} (x : Assoc) (c : HostCmd) (s : State)  (hk : Keeps μ s0 s) (hm : Within 0x41 μ := by exact within_trans rfl (by assumption)) : Keeps μ s0 (touchContext x c s) := by
  unfold touchContext
  try dsimp only
  repeat' first
    | with_reducible assumption
    | exact within_trans rfl hm
    | with_reducible apply putContext_keeps
    | split
    | with_reducible apply keeps_mk
    | with_reducible apply And.intro
    | exact Or.inl (within_bit _ rfl hm)
    | exact Or.inr rfl

theorem noteWrite_keeps {μ : Nat} {s0 : State} (c : HostCmd) (s : State)  (hk : Keeps μ s0 s) (hm : Within 0x20000 μ := by exact within_trans rfl (by assumption)) : Keeps μ s0 (noteWrite c s) := by
  unfold noteWrite
  try dsimp only
  repeat' first
    | with_reducible assumption
    | exact within_trans rfl hm
    | with_reducible apply modWork_keeps
    | with_reducible apply keeps_ite
    | split
    | (intro)
    | with_reducible apply keeps_mk
    | with_reducible apply And.intro
    | exact Or.inl (within_bit _ rfl hm)
    | exact Or.inr rfl

theorem routeCmd_keeps {μ : Nat} {s0 : State} (c : HostCmd) (s : State)  (hk : Keeps μ s0 s) (hm : Within 0x20b464521 μ := by exact within_trans rfl (by assumption)) : Keeps μ s0 (routeCmd c s) := by
  unfold routeCmd
  try dsimp only
  repeat' first
    | with_reducible assumption
    | exact within_trans rfl hm
    | with_reducible apply settleActive_keeps
    | with_reducible apply toFirmware_keeps
    | with_reducible apply wakeForMedia_keeps
    | with_reducible apply preemptFor_keeps
    | with_reducible apply noteWrite_keeps
    | with_reducible apply keeps_ite
    | split

theorem fetchCmd_keeps {μ : Nat} {s0 : State} (a q slot e : Nat) (others : List (Nat × Nat)) (s : State)  (hk : Keeps μ s0 s) (hm : Within 0x20b4e4561 μ := by exact within_trans rfl (by assumption)) : Keeps μ s0 (fetchCmd a q slot e others s) := by
  unfold fetchCmd
  try dsimp only
  repeat' first
    | with_reducible assumption
    | exact within_trans rfl hm
    | with_reducible apply modNqe_keeps
    | with_reducible apply countCmds_keeps
    | with_reducible apply complete_keeps
    | with_reducible apply takeTurn_keeps
    | with_reducible apply putEntry_keeps
    | with_reducible apply touchContext_keeps
    | with_reducible apply routeCmd_keeps
    | with_reducible apply keeps_ite
    | split
    | (intro)
    | with_reducible apply keeps_mk
    | with_reducible apply And.intro
    | exact Or.inl (within_bit _ rfl hm)
    | exact Or.inr rfl

end Sys2Proof.Machine
end

