-- ==== Sys2Proof/Laws/KeepsAdmin.lean ====
section
/-! SUPPORT. The operations of Admin.lean keep the queue and the canonical stores. -/

set_option Elab.async false

namespace Sys2Proof.Machine

theorem served_keeps {μ : Nat} {s0 : State} (op k : Nat) (f : HostCmd → State → State) (s : State)  (h_f : ∀ y0 t, Keeps μ s0 t → Keeps μ s0 (f y0 t)) (hk : Keeps μ s0 s) (_hm : Within 0x0 μ := by exact within_trans rfl (by assumption)) : Keeps μ s0 (served op k f s) := by
  unfold served
  try dsimp only
  repeat' first
    | with_reducible assumption
    | exact within_trans rfl hm
    | with_reducible apply h_f
    | with_reducible apply keeps_ite
    | split
    | with_reducible apply keeps_mk
    | with_reducible apply And.intro
    | exact Or.inl (within_bit _ rfl hm)
    | exact Or.inr rfl

theorem servedFabrics_keeps {μ : Nat} {s0 : State} (t k : Nat) (f : HostCmd → State → State) (s : State)  (h_f : ∀ y0 t, Keeps μ s0 t → Keeps μ s0 (f y0 t)) (hk : Keeps μ s0 s) (hm : Within 0x0 μ := by exact within_trans rfl (by assumption)) : Keeps μ s0 (servedFabrics t k f s) := by
  unfold servedFabrics
  try dsimp only
  repeat' first
    | with_reducible assumption
    | exact within_trans rfl hm
    | with_reducible apply h_f
    | with_reducible apply served_keeps
    | with_reducible apply keeps_ite
    | split
    | (intro)

theorem servedAdmin_keeps {μ : Nat} {s0 : State} (op k : Nat) (f : HostCmd → State → State) (s : State)  (h_f : ∀ y0 t, Keeps μ s0 t → Keeps μ s0 (f y0 t)) (hk : Keeps μ s0 s) (hm : Within 0x0 μ := by exact within_trans rfl (by assumption)) : Keeps μ s0 (servedAdmin op k f s) := by
  unfold servedAdmin
  try dsimp only
  repeat' first
    | with_reducible assumption
    | exact within_trans rfl hm
    | with_reducible apply h_f
    | with_reducible apply served_keeps
    | with_reducible apply keeps_ite
    | split
    | (intro)

theorem succeed_keeps {μ : Nat} {s0 : State} (k : Nat) (s : State)  (hk : Keeps μ s0 s) (hm : Within 0x80c0160 μ := by exact within_trans rfl (by assumption)) : Keeps μ s0 (succeed k s) := by
  unfold succeed
  try dsimp only
  repeat' first
    | with_reducible assumption
    | exact within_trans rfl hm
    | with_reducible apply complete_keeps

theorem succeedWith_keeps {μ : Nat} {s0 : State} (k v : Nat) (s : State)  (hk : Keeps μ s0 s) (hm : Within 0x80c0160 μ := by exact within_trans rfl (by assumption)) : Keeps μ s0 (succeedWith k v s) := by
  unfold succeedWith
  try dsimp only
  repeat' first
    | with_reducible assumption
    | exact within_trans rfl hm
    | with_reducible apply modCmd_keeps
    | with_reducible apply succeed_keeps
    | (intro)
    | with_reducible apply keeps_mk
    | with_reducible apply And.intro
    | exact Or.inl (within_bit _ rfl hm)
    | exact Or.inr rfl

theorem fail_keeps {μ : Nat} {s0 : State} (k st : Nat) (s : State)  (hk : Keeps μ s0 s) (hm : Within 0x80c0160 μ := by exact within_trans rfl (by assumption)) : Keeps μ s0 (fail k st s) := by
  unfold fail
  try dsimp only
  repeat' first
    | with_reducible assumption
    | exact within_trans rfl hm
    | with_reducible apply complete_keeps

theorem connectAnswer_keeps {μ : Nat} {s0 : State} (a q cid st : Nat) (s : State)  (hk : Keeps μ s0 s) (hm : Within 0x40021 μ := by exact within_trans rfl (by assumption)) : Keeps μ s0 (connectAnswer a q cid st s) := by
  unfold connectAnswer
  try dsimp only
  repeat' first
    | with_reducible assumption
    | exact within_trans rfl hm
    | with_reducible apply drawFree_keeps
    | with_reducible apply post_keeps
    | with_reducible apply keeps_ite
    | split
    | refine keeps_snd (by with_reducible assumption) ?_

theorem connectAdmin_keeps {μ : Nat} {s0 : State} (a cid kato : Nat) (p : ConnectPath) (s : State)  (hk : Keeps μ s0 s) (hm : Within 0x40121 μ := by exact within_trans rfl (by assumption)) : Keeps μ s0 (connectAdmin a cid kato p s) := by
  unfold connectAdmin
  try dsimp only
  repeat' first
    | with_reducible assumption
    | exact within_trans rfl hm
    | with_reducible apply wrN_keeps
    | with_reducible apply evt_keeps
    | with_reducible apply modNqe_keeps
    | with_reducible apply connectAnswer_keeps
    | with_reducible apply keeps_ite
    | split
    | (intro)
    | with_reducible apply keeps_mk
    | with_reducible apply And.intro
    | exact Or.inl (within_bit _ rfl hm)
    | exact Or.inr rfl

theorem connectIo_keeps {μ : Nat} {s0 : State} (x : Assoc) (q cid : Nat) (p : ConnectPath) (s : State)  (hk : Keeps μ s0 s) (hm : Within 0x40161 μ := by exact within_trans rfl (by assumption)) : Keeps μ s0 (connectIo x q cid p s) := by
  unfold connectIo
  try dsimp only
  repeat' first
    | with_reducible assumption
    | exact within_trans rfl hm
    | with_reducible apply wrN_keeps
    | with_reducible apply evt_keeps
    | with_reducible apply modAssoc_keeps
    | with_reducible apply putContext_keeps
    | with_reducible apply connectAnswer_keeps
    | with_reducible apply keeps_ite
    | split
    | (intro)
    | with_reducible apply keeps_mk
    | with_reducible apply And.intro
    | exact Or.inl (within_bit _ rfl hm)
    | exact Or.inr rfl

theorem connect_keeps {μ : Nat} {s0 : State} (a q cid host kato : Nat) (p : ConnectPath) (s : State)  (hk : Keeps μ s0 s) (hm : Within 0x40161 μ := by exact within_trans rfl (by assumption)) : Keeps μ s0 (connect a q cid host kato p s) := by
  unfold connect
  try dsimp only
  repeat' first
    | with_reducible assumption
    | exact within_trans rfl hm
    | with_reducible apply connectAnswer_keeps
    | with_reducible apply connectAdmin_keeps
    | with_reducible apply connectIo_keeps
    | with_reducible apply keeps_ite
    | split
    | with_reducible apply keeps_mk
    | with_reducible apply And.intro
    | exact Or.inl (within_bit _ rfl hm)
    | exact Or.inr rfl

theorem resetAssoc_keeps {μ : Nat} {s0 : State} (a : Nat) (close : Bool) (s : State)  (hk : Keeps μ s0 s) (hm : Within 0x80e4160 μ := by exact within_trans rfl (by assumption)) : Keeps μ s0 (resetAssoc a close s) := by
  unfold resetAssoc
  try dsimp only
  repeat' first
    | with_reducible assumption
    | exact within_trans rfl hm
    | with_reducible apply modNqe_keeps
    | with_reducible apply controllerReset_keeps
    | with_reducible apply closeAssoc_keeps
    | with_reducible apply keeps_ite
    | split
    | (intro)
    | with_reducible apply keeps_mk
    | with_reducible apply And.intro
    | exact Or.inl (within_bit _ rfl hm)
    | exact Or.inr rfl

theorem keepAliveExpires_keeps {μ : Nat} {s0 : State} (a : Nat) (s : State)  (hk : Keeps μ s0 s) (hm : Within 0x80e4160 μ := by exact within_trans rfl (by assumption)) : Keeps μ s0 (keepAliveExpires a s) := by
  unfold keepAliveExpires
  try dsimp only
  repeat' first
    | with_reducible assumption
    | exact within_trans rfl hm
    | with_reducible apply evt_keeps
    | with_reducible apply resetAssoc_keeps
    | with_reducible apply keeps_ite
    | split
    | with_reducible apply keeps_mk
    | with_reducible apply And.intro
    | exact Or.inl (within_bit _ rfl hm)
    | exact Or.inr rfl

theorem nssr_keeps {μ : Nat} {s0 : State} (a : Nat) (s : State)  (hk : Keeps μ s0 s) (hm : Within 0x1fffffffff μ := by exact within_trans rfl (by assumption)) : Keeps μ s0 (nssr a s) := by
  unfold nssr
  try dsimp only
  repeat' first
    | with_reducible assumption
    | exact within_trans rfl hm
    | with_reducible apply subsysReset_keeps
    | with_reducible apply keeps_ite
    | split

theorem propertyGet_keeps {μ : Nat} {s0 : State} (k : Nat) (c : HostCmd) (s : State)  (hk : Keeps μ s0 s) (hm : Within 0x80c0161 μ := by exact within_trans rfl (by assumption)) : Keeps μ s0 (propertyGet k c s) := by
  unfold propertyGet
  try dsimp only
  repeat' first
    | with_reducible assumption
    | exact within_trans rfl hm
    | with_reducible apply drawFree_keeps
    | with_reducible apply succeedWith_keeps
    | with_reducible apply keeps_ite
    | split
    | refine keeps_snd (by with_reducible assumption) ?_

theorem ccWrite_keeps {μ : Nat} {s0 : State} (k a v : Nat) (s : State)  (hk : Keeps μ s0 s) (hm : Within 0x80e4160 μ := by exact within_trans rfl (by assumption)) : Keeps μ s0 (ccWrite k a v s) := by
  unfold ccWrite
  try dsimp only
  repeat' first
    | with_reducible assumption
    | exact within_trans rfl hm
    | with_reducible apply modAssoc_keeps
    | with_reducible apply succeed_keeps
    | with_reducible apply resetAssoc_keeps
    | with_reducible apply keeps_ite
    | split
    | (intro)
    | with_reducible apply keeps_mk
    | with_reducible apply And.intro
    | exact Or.inl (within_bit _ rfl hm)
    | exact Or.inr rfl

theorem propertySet_keeps {μ : Nat} {s0 : State} (k : Nat) (c : HostCmd) (s : State)  (hk : Keeps μ s0 s) (hm : Within 0x1fffffffff μ := by exact within_trans rfl (by assumption)) : Keeps μ s0 (propertySet k c s) := by
  unfold propertySet
  try dsimp only
  repeat' first
    | with_reducible assumption
    | exact within_trans rfl hm
    | with_reducible apply succeed_keeps
    | with_reducible apply fail_keeps
    | with_reducible apply nssr_keeps
    | with_reducible apply ccWrite_keeps
    | with_reducible apply keeps_ite
    | split

theorem dropQueue_keeps {μ : Nat} {s0 : State} (a q : Nat) (s : State)  (hk : Keeps μ s0 s) (hm : Within 0x80e4160 μ := by exact within_trans rfl (by assumption)) : Keeps μ s0 (dropQueue a q s) := by
  unfold dropQueue
  try dsimp only
  repeat' first
    | (with_reducible apply keeps_foldl; intro s _ hk)
    | with_reducible assumption
    | exact within_trans rfl hm
    | with_reducible apply wrN_keeps
    | with_reducible apply modAssoc_keeps
    | with_reducible apply discardCmd_keeps
    | with_reducible apply keeps_ite
    | split
    | (intro)
    | with_reducible apply keeps_mk
    | with_reducible apply And.intro
    | exact Or.inl (within_bit _ rfl hm)
    | exact Or.inr rfl

theorem disconnect_keeps {μ : Nat} {s0 : State} (k : Nat) (c : HostCmd) (s : State)  (hk : Keeps μ s0 s) (hm : Within 0x80e4160 μ := by exact within_trans rfl (by assumption)) : Keeps μ s0 (disconnect k c s) := by
  unfold disconnect
  try dsimp only
  repeat' first
    | with_reducible assumption
    | exact within_trans rfl hm
    | with_reducible apply succeed_keeps
    | with_reducible apply resetAssoc_keeps
    | with_reducible apply dropQueue_keeps
    | with_reducible apply keeps_ite
    | split

theorem authSend_keeps {μ : Nat} {s0 : State} (k : Nat) (m : AuthMessage) (c : HostCmd) (s : State)  (hk : Keeps μ s0 s) (hm : Within 0x80c0160 μ := by exact within_trans rfl (by assumption)) : Keeps μ s0 (authSend k m c s) := by
  unfold authSend
  try dsimp only
  repeat' first
    | with_reducible assumption
    | exact within_trans rfl hm
    | with_reducible apply modAssoc_keeps
    | with_reducible apply succeed_keeps

theorem deliverSome_keeps {μ : Nat} {s0 : State} (c : HostCmd) (d : Option HostData) (s : State)  (hk : Keeps μ s0 s) (hm : Within 0x40000 μ := by exact within_trans rfl (by assumption)) : Keeps μ s0 (deliverSome c d s) := by
  unfold deliverSome
  try dsimp only
  repeat' first
    | with_reducible assumption
    | exact within_trans rfl hm
    | with_reducible apply sendData_keeps
    | split
    | with_reducible apply keeps_mk
    | with_reducible apply And.intro
    | exact Or.inl (within_bit _ rfl hm)
    | exact Or.inr rfl

theorem identify_keeps {μ : Nat} {s0 : State} (k : Nat) (c : HostCmd) (s : State)  (hk : Keeps μ s0 s) (hm : Within 0x80c0160 μ := by exact within_trans rfl (by assumption)) : Keeps μ s0 (identify k c s) := by
  unfold identify
  try dsimp only
  repeat' first
    | with_reducible assumption
    | exact within_trans rfl hm
    | with_reducible apply succeed_keeps
    | with_reducible apply fail_keeps
    | with_reducible apply deliverSome_keeps
    | with_reducible apply keeps_ite
    | split

theorem getLogPage_keeps {μ : Nat} {s0 : State} (k : Nat) (c : HostCmd) (s : State)  (hk : Keeps μ s0 s) (hm : Within 0x80c0160 μ := by exact within_trans rfl (by assumption)) : Keeps μ s0 (getLogPage k c s) := by
  unfold getLogPage
  try dsimp only
  repeat' first
    | with_reducible assumption
    | exact within_trans rfl hm
    | with_reducible apply sendData_keeps
    | with_reducible apply succeed_keeps
    | with_reducible apply fail_keeps
    | split
    | with_reducible apply keeps_mk
    | with_reducible apply And.intro
    | exact Or.inl (within_bit _ rfl hm)
    | exact Or.inr rfl

theorem setFeature_keeps {μ : Nat} {s0 : State} (i k : Nat) (f : HostCmd → Nat → State → State) (s : State)  (h_f : ∀ y0 y1 t, Keeps μ s0 t → Keeps μ s0 (f y0 y1 t)) (hk : Keeps μ s0 s) (hm : Within 0x0 μ := by exact within_trans rfl (by assumption)) : Keeps μ s0 (setFeature i k f s) := by
  unfold setFeature
  try dsimp only
  repeat' first
    | with_reducible assumption
    | exact within_trans rfl hm
    | with_reducible apply h_f
    | with_reducible apply servedAdmin_keeps
    | with_reducible apply keeps_ite
    | split
    | (intro)

theorem powerManagement_keeps {μ : Nat} {s0 : State} (k v : Nat) (s : State)  (hk : Keeps μ s0 s) (hm : Within 0x80c0160 μ := by exact within_trans rfl (by assumption)) : Keeps μ s0 (powerManagement k v s) := by
  unfold powerManagement
  try dsimp only
  repeat' first
    | with_reducible assumption
    | exact within_trans rfl hm
    | with_reducible apply setF_keeps
    | with_reducible apply modNqe_keeps
    | with_reducible apply succeed_keeps
    | with_reducible apply fail_keeps
    | with_reducible apply keeps_ite
    | split
    | (intro)
    | with_reducible apply keeps_mk
    | with_reducible apply And.intro
    | exact Or.inl (within_bit _ rfl hm)
    | exact Or.inr rfl

theorem temperatureThreshold_keeps {μ : Nat} {s0 : State} (k v : Nat) (s : State)  (hk : Keeps μ s0 s) (hm : Within 0x80c0160 μ := by exact within_trans rfl (by assumption)) : Keeps μ s0 (temperatureThreshold k v s) := by
  unfold temperatureThreshold
  try dsimp only
  repeat' first
    | with_reducible assumption
    | exact within_trans rfl hm
    | with_reducible apply modNqe_keeps
    | with_reducible apply succeed_keeps
    | with_reducible apply fail_keeps
    | with_reducible apply keeps_ite
    | split
    | (intro)
    | with_reducible apply keeps_mk
    | with_reducible apply And.intro
    | exact Or.inl (within_bit _ rfl hm)
    | exact Or.inr rfl

theorem numberOfQueues_keeps {μ : Nat} {s0 : State} (k : Nat) (c : HostCmd) (v : Nat) (s : State)  (hk : Keeps μ s0 s) (hm : Within 0x80c0160 μ := by exact within_trans rfl (by assumption)) : Keeps μ s0 (numberOfQueues k c v s) := by
  unfold numberOfQueues
  try dsimp only
  repeat' first
    | with_reducible assumption
    | exact within_trans rfl hm
    | with_reducible apply modAssoc_keeps
    | with_reducible apply succeedWith_keeps
    | (intro)
    | with_reducible apply keeps_mk
    | with_reducible apply And.intro
    | exact Or.inl (within_bit _ rfl hm)
    | exact Or.inr rfl

theorem getFeatures_keeps {μ : Nat} {s0 : State} (k : Nat) (c : HostCmd) (s : State)  (hk : Keeps μ s0 s) (hm : Within 0x80c0160 μ := by exact within_trans rfl (by assumption)) : Keeps μ s0 (getFeatures k c s) := by
  unfold getFeatures
  try dsimp only
  repeat' first
    | with_reducible assumption
    | exact within_trans rfl hm
    | with_reducible apply succeedWith_keeps
    | with_reducible apply fail_keeps
    | split
    | (intro)
    | with_reducible apply keeps_mk
    | with_reducible apply And.intro
    | exact Or.inl (within_bit _ rfl hm)
    | exact Or.inr rfl

theorem asyncEventRequest_keeps {μ : Nat} {s0 : State} (k : Nat) (event : Option Nat) (s : State)  (hk : Keeps μ s0 s) (hm : Within 0x80c0160 μ := by exact within_trans rfl (by assumption)) : Keeps μ s0 (asyncEventRequest k event s) := by
  unfold asyncEventRequest
  try dsimp only
  repeat' first
    | with_reducible assumption
    | exact within_trans rfl hm
    | with_reducible apply succeedWith_keeps
    | split
    | with_reducible apply keeps_mk
    | with_reducible apply And.intro
    | exact Or.inl (within_bit _ rfl hm)
    | exact Or.inr rfl

theorem catchCmd_keeps {μ : Nat} {s0 : State} (c : HostCmd) (st : Nat) (s : State)  (hk : Keeps μ s0 s) (hm : Within 0x80e4160 μ := by exact within_trans rfl (by assumption)) : Keeps μ s0 (catchCmd c st s) := by
  unfold catchCmd
  try dsimp only
  repeat' first
    | with_reducible assumption
    | exact within_trans rfl hm
    | with_reducible apply complete_keeps
    | with_reducible apply preemptCmd_keeps
    | with_reducible apply abandon_keeps

theorem abort_keeps {μ : Nat} {s0 : State} (k : Nat) (c : HostCmd) (s : State)  (hk : Keeps μ s0 s) (hm : Within 0x80e4160 μ := by exact within_trans rfl (by assumption)) : Keeps μ s0 (abort k c s) := by
  unfold abort
  try dsimp only
  repeat' first
    | with_reducible assumption
    | exact within_trans rfl hm
    | with_reducible apply satInc_keeps
    | with_reducible apply evt_keeps
    | with_reducible apply succeedWith_keeps
    | with_reducible apply catchCmd_keeps
    | with_reducible apply keeps_ite
    | split
    | (intro)
    | with_reducible apply keeps_mk
    | with_reducible apply And.intro
    | exact Or.inl (within_bit _ rfl hm)
    | exact Or.inr rfl

theorem deleteQueue_keeps {μ : Nat} {s0 : State} (k : Nat) (c : HostCmd) (s : State)  (hk : Keeps μ s0 s) (hm : Within 0x80e4160 μ := by exact within_trans rfl (by assumption)) : Keeps μ s0 (deleteQueue k c s) := by
  unfold deleteQueue
  try dsimp only
  repeat' first
    | (with_reducible apply keeps_foldl; intro s _ hk)
    | with_reducible assumption
    | exact within_trans rfl hm
    | with_reducible apply succeed_keeps
    | with_reducible apply fail_keeps
    | with_reducible apply dropQueue_keeps
    | with_reducible apply catchCmd_keeps
    | with_reducible apply keeps_ite
    | split
    | (intro)

theorem cplpost_keeps {μ : Nat} {s0 : State} (v : Nat) (s : State)  (hk : Keeps μ s0 s) (hm : Within 0x80c0160 μ := by exact within_trans rfl (by assumption)) : Keeps μ s0 (cplpost v s) := by
  unfold cplpost
  try dsimp only
  repeat' first
    | with_reducible assumption
    | exact within_trans rfl hm
    | with_reducible apply wr64_keeps
    | with_reducible apply evt_keeps
    | with_reducible apply modCmd_keeps
    | with_reducible apply complete_keeps
    | with_reducible apply keeps_ite
    | split
    | (intro)
    | with_reducible apply keeps_mk
    | with_reducible apply And.intro
    | exact Or.inl (within_bit _ rfl hm)
    | exact Or.inr rfl

theorem exqPop_keeps {μ : Nat} {s0 : State} (s : State)  (hk : Keeps μ s0 s) (hm : Within 0x40018 μ := by exact within_trans rfl (by assumption)) : Keeps μ s0 (exqPop s) := by
  unfold exqPop
  try dsimp only
  repeat' first
    | with_reducible assumption
    | exact within_trans rfl hm
    | with_reducible apply answer_keeps
    | with_reducible apply modNqe_keeps
    | split
    | (intro)
    | with_reducible apply keeps_mk
    | with_reducible apply And.intro
    | exact Or.inl (within_bit _ rfl hm)
    | exact Or.inr rfl

end Sys2Proof.Machine
end

