-- ==== Sys2Proof/Laws/KeepsNand.lean ====
section
/-! SUPPORT. The operations of Nand.lean keep the queue and the canonical stores. -/

set_option Elab.async false

namespace Sys2Proof.Machine

theorem modFlash_keeps {μ : Nat} {s0 : State} (s : State) (f : NandState → NandState)  (hk : Keeps μ s0 s) (hm : Within 0x1000000000 μ := by exact within_trans rfl (by assumption)) : Keeps μ s0 (modFlash s f) := by
  unfold modFlash
  try dsimp only
  repeat' first
    | with_reducible assumption
    | exact within_trans rfl hm
    | with_reducible apply keeps_mk
    | with_reducible apply And.intro
    | exact Or.inl (within_bit _ rfl hm)
    | exact Or.inr rfl

theorem nandRefused_keeps {μ : Nat} {s0 : State} (lo hi : Nat) (s : State)  (hk : Keeps μ s0 s) (hm : Within 0x130 μ := by exact within_trans rfl (by assumption)) : Keeps μ s0 (nandRefused lo hi s) := by
  unfold nandRefused
  try dsimp only
  repeat' first
    | with_reducible assumption
    | exact within_trans rfl hm
    | with_reducible apply busFault_keeps
    | with_reducible apply evtIf_keeps

theorem nandFails_keeps {μ : Nat} {s0 : State} (c : Nat) (s : State)  (hk : Keeps μ s0 s) (hm : Within 0x1000000000 μ := by exact within_trans rfl (by assumption)) : Keeps μ s0 (nandFails c s) := by
  unfold nandFails
  try dsimp only
  repeat' first
    | with_reducible assumption
    | exact within_trans rfl hm
    | with_reducible apply modFlash_keeps
    | with_reducible apply keeps_ite
    | split
    | (intro)
    | with_reducible apply keeps_mk
    | with_reducible apply And.intro
    | exact Or.inl (within_bit _ rfl hm)
    | exact Or.inr rfl

theorem nandProgram_keeps {μ : Nat} {s0 : State} (ok : Bool) (c off : Nat) (b : List Nat) (s : State)  (hk : Keeps μ s0 s) (hm : Within 0x1000000081 μ := by exact within_trans rfl (by assumption)) : Keeps μ s0 (nandProgram ok c off b s) := by
  unfold nandProgram
  try dsimp only
  repeat' first
    | with_reducible assumption
    | exact within_trans rfl hm
    | with_reducible apply nandProg_keeps
    | with_reducible apply nandFails_keeps
    | with_reducible apply keeps_ite
    | split
    | with_reducible apply keeps_mk
    | with_reducible apply And.intro
    | exact Or.inl (within_bit _ rfl hm)
    | exact Or.inr rfl

theorem nandDo_keeps {μ : Nat} {s0 : State} (ok : Bool) (s : State) (p : NandPost)  (hk : Keeps μ s0 s) (hm : Within 0x1000000081 μ := by exact within_trans rfl (by assumption)) : Keeps μ s0 (nandDo ok s p) := by
  unfold nandDo
  try dsimp only
  repeat' first
    | with_reducible assumption
    | exact within_trans rfl hm
    | with_reducible apply nandErase_keeps
    | with_reducible apply nandProgram_keeps
    | with_reducible apply keeps_ite
    | split
    | with_reducible apply keeps_mk
    | with_reducible apply And.intro
    | exact Or.inl (within_bit _ rfl hm)
    | exact Or.inr rfl

theorem runErases_keeps {μ : Nat} {s0 : State} (s : State)  (hk : Keeps μ s0 s) (hm : Within 0x1000000081 μ := by exact within_trans rfl (by assumption)) : Keeps μ s0 (runErases s) := by
  unfold runErases
  try dsimp only
  repeat' first
    | (with_reducible apply keeps_foldl; intro s _ hk)
    | with_reducible assumption
    | exact within_trans rfl hm
    | with_reducible apply modFlash_keeps
    | with_reducible apply nandDo_keeps
    | (intro)
    | with_reducible apply keeps_mk
    | with_reducible apply And.intro
    | exact Or.inl (within_bit _ rfl hm)
    | exact Or.inr rfl

theorem nandPost_keeps {μ : Nat} {s0 : State} (p : NandPost) (s : State)  (hk : Keeps μ s0 s) (hm : Within 0x1000000081 μ := by exact within_trans rfl (by assumption)) : Keeps μ s0 (nandPost p s) := by
  unfold nandPost
  try dsimp only
  repeat' first
    | with_reducible assumption
    | exact within_trans rfl hm
    | with_reducible apply modFlash_keeps
    | with_reducible apply runErases_keeps
    | (intro)
    | with_reducible apply keeps_mk
    | with_reducible apply And.intro
    | exact Or.inl (within_bit _ rfl hm)
    | exact Or.inr rfl

theorem nandLoad_keeps {μ : Nat} {s0 : State} (c off : Nat) (size : AccessSize) (ok : Bool) (s : State)  (hk : Keeps μ s0 s) (hm : Within 0x1000000099 μ := by exact within_trans rfl (by assumption)) : Keeps μ s0 (nandLoad c off size ok s) := by
  unfold nandLoad
  try dsimp only
  repeat' first
    | (with_reducible apply keeps_foldl; intro s _ hk)
    | with_reducible assumption
    | exact within_trans rfl hm
    | with_reducible apply answer_keeps
    | with_reducible apply busFault_keeps
    | with_reducible apply modFlash_keeps
    | with_reducible apply nandDo_keeps
    | with_reducible apply runErases_keeps
    | with_reducible apply keeps_ite
    | split
    | (intro)
    | with_reducible apply keeps_mk
    | with_reducible apply And.intro
    | exact Or.inl (within_bit _ rfl hm)
    | exact Or.inr rfl

theorem nandStore_keeps {μ : Nat} {s0 : State} (c off : Nat) (size : AccessSize) (d : DWord) (s : State)  (hk : Keeps μ s0 s) (hm : Within 0x10000001b1 μ := by exact within_trans rfl (by assumption)) : Keeps μ s0 (nandStore c off size d s) := by
  unfold nandStore
  try dsimp only
  repeat' first
    | with_reducible assumption
    | exact within_trans rfl hm
    | with_reducible apply busOk_keeps
    | with_reducible apply busFault_keeps
    | with_reducible apply nandRefused_keeps
    | with_reducible apply nandPost_keeps
    | with_reducible apply keeps_ite
    | split

theorem nandEraseBlock_keeps {μ : Nat} {s0 : State} (c off : Nat) (size : AccessSize) (ok : Bool) (s : State)  (hk : Keeps μ s0 s) (hm : Within 0x10000001b1 μ := by exact within_trans rfl (by assumption)) : Keeps μ s0 (nandEraseBlock c off size ok s) := by
  unfold nandEraseBlock
  try dsimp only
  repeat' first
    | with_reducible assumption
    | exact within_trans rfl hm
    | with_reducible apply busOk_keeps
    | with_reducible apply busFault_keeps
    | with_reducible apply nandRefused_keeps
    | with_reducible apply nandPost_keeps
    | with_reducible apply keeps_ite
    | split

theorem pageProgram_keeps {μ : Nat} {s0 : State} (k : Nat) (ok : Bool) (s : State)  (hk : Keeps μ s0 s) (hm : Within 0x1000000081 μ := by exact within_trans rfl (by assumption)) : Keeps μ s0 (pageProgram k ok s) := by
  unfold pageProgram
  try dsimp only
  repeat' first
    | (with_reducible apply keeps_foldl; intro s _ hk)
    | with_reducible assumption
    | exact within_trans rfl hm
    | with_reducible apply modFlash_keeps
    | with_reducible apply nandDo_keeps
    | with_reducible apply runErases_keeps
    | with_reducible apply keeps_ite
    | split
    | (intro)
    | with_reducible apply keeps_mk
    | with_reducible apply And.intro
    | exact Or.inl (within_bit _ rfl hm)
    | exact Or.inr rfl

end Sys2Proof.Machine
end

