-- ==== Sys2Proof/Laws/KeepsUpkeep.lean ====
section
/-! SUPPORT. The operations of Upkeep.lean keep the queue and the canonical stores. -/

set_option Elab.async false

namespace Sys2Proof.Machine

theorem imageDownload_keeps {μ : Nat} {s0 : State} (k : Nat) (data : List Nat) (c : HostCmd) (s : State)  (hk : Keeps μ s0 s) (hm : Within 0x80c0160 μ := by exact within_trans rfl (by assumption)) : Keeps μ s0 (imageDownload k data c s) := by
  unfold imageDownload
  try dsimp only
  repeat' first
    | with_reducible assumption
    | exact within_trans rfl hm
    | with_reducible apply modNqe_keeps
    | with_reducible apply succeed_keeps
    | with_reducible apply fail_keeps
    | with_reducible apply keeps_ite
    | split
    | (intro)
    | with_reducible apply keeps_mk
    | with_reducible apply And.intro
    | exact Or.inl (within_bit _ rfl hm)
    | exact Or.inr rfl

theorem writeSlot_keeps {μ : Nat} {s0 : State} (n : Nat) (s : State)  (hk : Keeps μ s0 s) (hm : Within 0x40080 μ := by exact within_trans rfl (by assumption)) : Keeps μ s0 (writeSlot n s) := by
  unfold writeSlot
  try dsimp only
  repeat' first
    | with_reducible assumption
    | exact within_trans rfl hm
    | with_reducible apply nandProg_keeps
    | with_reducible apply nandErase_keeps
    | with_reducible apply modNqe_keeps
    | (intro)
    | with_reducible apply keeps_mk
    | with_reducible apply And.intro
    | exact Or.inl (within_bit _ rfl hm)
    | exact Or.inr rfl

theorem nameSlot_keeps {μ : Nat} {s0 : State} (n : Nat) (s : State)  (hk : Keeps μ s0 s) (hm : Within 0x80 μ := by exact within_trans rfl (by assumption)) : Keeps μ s0 (nameSlot n s) := by
  unfold nameSlot
  try dsimp only
  repeat' first
    | with_reducible assumption
    | exact within_trans rfl hm
    | with_reducible apply nandWrite_keeps
    | split

theorem committed_keeps {μ : Nat} {s0 : State} (act k : Nat) (f : HostCmd → Nat → State → State) (s : State)  (h_f : ∀ y0 y1 t, Keeps μ s0 t → Keeps μ s0 (f y0 y1 t)) (hk : Keeps μ s0 s) (hm : Within 0x0 μ := by exact within_trans rfl (by assumption)) : Keeps μ s0 (committed act k f s) := by
  unfold committed
  try dsimp only
  repeat' first
    | with_reducible assumption
    | exact within_trans rfl hm
    | with_reducible apply h_f
    | with_reducible apply servedAdmin_keeps
    | with_reducible apply keeps_ite
    | split
    | (intro)

theorem commitOne_keeps {μ : Nat} {s0 : State} (k n : Nat) (s : State)  (hk : Keeps μ s0 s) (hm : Within 0x80c01e0 μ := by exact within_trans rfl (by assumption)) : Keeps μ s0 (commitOne k n s) := by
  unfold commitOne
  try dsimp only
  repeat' first
    | with_reducible assumption
    | exact within_trans rfl hm
    | with_reducible apply succeed_keeps
    | with_reducible apply fail_keeps
    | with_reducible apply writeSlot_keeps
    | with_reducible apply nameSlot_keeps
    | with_reducible apply keeps_ite
    | split

theorem commitTwo_keeps {μ : Nat} {s0 : State} (k n : Nat) (s : State)  (hk : Keeps μ s0 s) (hm : Within 0x80c01e0 μ := by exact within_trans rfl (by assumption)) : Keeps μ s0 (commitTwo k n s) := by
  unfold commitTwo
  try dsimp only
  repeat' first
    | with_reducible assumption
    | exact within_trans rfl hm
    | with_reducible apply succeed_keeps
    | with_reducible apply fail_keeps
    | with_reducible apply nameSlot_keeps
    | with_reducible apply keeps_ite
    | split

theorem holdFetch_keeps {μ : Nat} {s0 : State} (s : State)  (hk : Keeps μ s0 s) (hm : Within 0x20b844561 μ := by exact within_trans rfl (by assumption)) : Keeps μ s0 (holdFetch s) := by
  unfold holdFetch
  try dsimp only
  repeat' first
    | (with_reducible apply keeps_foldl; intro s _ hk)
    | with_reducible assumption
    | exact within_trans rfl hm
    | with_reducible apply setF_keeps
    | with_reducible apply setBit_keeps
    | with_reducible apply requestP_keeps
    | with_reducible apply drainCheck_keeps
    | with_reducible apply keeps_ite
    | split
    | (intro)

theorem resumeFetch_keeps {μ : Nat} {s0 : State} (s : State)  (hk : Keeps μ s0 s) (hm : Within 0x20b4e4561 μ := by exact within_trans rfl (by assumption)) : Keeps μ s0 (resumeFetch s) := by
  unfold resumeFetch
  try dsimp only
  repeat' first
    | (with_reducible apply keeps_foldl; intro s _ hk)
    | with_reducible assumption
    | exact within_trans rfl hm
    | with_reducible apply setF_keeps
    | with_reducible apply setBit_keeps
    | with_reducible apply modNqe_keeps
    | with_reducible apply settleActive_keeps
    | with_reducible apply controllerReset_keeps
    | with_reducible apply closeAssoc_keeps
    | with_reducible apply wakeForMedia_keeps
    | with_reducible apply keeps_ite
    | split
    | (intro)
    | with_reducible apply keeps_mk
    | with_reducible apply And.intro
    | exact Or.inl (within_bit _ rfl hm)
    | exact Or.inr rfl

theorem leaveUpdate_keeps {μ : Nat} {s0 : State} (s : State)  (hk : Keeps μ s0 s) (hm : Within 0x209044521 μ := by exact within_trans rfl (by assumption)) : Keeps μ s0 (leaveUpdate s) := by
  unfold leaveUpdate
  try dsimp only
  repeat' first
    | with_reducible assumption
    | exact within_trans rfl hm
    | with_reducible apply enterMode_keeps
    | with_reducible apply keeps_ite
    | split

theorem releaseFetch_keeps {μ : Nat} {s0 : State} (s : State)  (hk : Keeps μ s0 s) (hm : Within 0x20b4e45e1 μ := by exact within_trans rfl (by assumption)) : Keeps μ s0 (releaseFetch s) := by
  unfold releaseFetch
  try dsimp only
  repeat' first
    | with_reducible assumption
    | exact within_trans rfl hm
    | with_reducible apply modNqe_keeps
    | with_reducible apply succeed_keeps
    | with_reducible apply nameSlot_keeps
    | with_reducible apply resumeFetch_keeps
    | with_reducible apply leaveUpdate_keeps
    | with_reducible apply keeps_ite
    | split
    | (intro)
    | with_reducible apply keeps_mk
    | with_reducible apply And.intro
    | exact Or.inl (within_bit _ rfl hm)
    | exact Or.inr rfl

theorem commitThree_keeps {μ : Nat} {s0 : State} (k n : Nat) (s : State)  (hk : Keeps μ s0 s) (hm : Within 0x20b8c45e1 μ := by exact within_trans rfl (by assumption)) : Keeps μ s0 (commitThree k n s) := by
  unfold commitThree
  try dsimp only
  repeat' first
    | with_reducible assumption
    | exact within_trans rfl hm
    | with_reducible apply modNqe_keeps
    | with_reducible apply fail_keeps
    | with_reducible apply writeSlot_keeps
    | with_reducible apply holdFetch_keeps
    | with_reducible apply keeps_ite
    | split
    | (intro)
    | with_reducible apply keeps_mk
    | with_reducible apply And.intro
    | exact Or.inl (within_bit _ rfl hm)
    | exact Or.inr rfl

theorem fallback_keeps {μ : Nat} {s0 : State} (s : State)  (hk : Keeps μ s0 s) (hm : Within 0x20bce4561 μ := by exact within_trans rfl (by assumption)) : Keeps μ s0 (fallback s) := by
  unfold fallback
  try dsimp only
  repeat' first
    | with_reducible assumption
    | exact within_trans rfl hm
    | with_reducible apply modNqe_keeps
    | with_reducible apply loadFirmware_keeps
    | with_reducible apply fail_keeps
    | with_reducible apply resumeFetch_keeps
    | with_reducible apply leaveUpdate_keeps
    | with_reducible apply keeps_ite
    | split
    | (intro)
    | with_reducible apply keeps_mk
    | with_reducible apply And.intro
    | exact Or.inl (within_bit _ rfl hm)
    | exact Or.inr rfl

theorem powerEntry_keeps {μ : Nat} {s0 : State} (s : State)  (hk : Keeps μ s0 s) (hm : Within 0x20b444521 μ := by exact within_trans rfl (by assumption)) : Keeps μ s0 (powerEntry s) := by
  unfold powerEntry
  try dsimp only
  repeat' first
    | with_reducible assumption
    | exact within_trans rfl hm
    | with_reducible apply setBit_keeps
    | with_reducible apply modNqe_keeps
    | with_reducible apply entryGoesOn_keeps
    | with_reducible apply keeps_ite
    | split
    | (intro)
    | with_reducible apply keeps_mk
    | with_reducible apply And.intro
    | exact Or.inl (within_bit _ rfl hm)
    | exact Or.inr rfl

theorem modSan_keeps {μ : Nat} {s0 : State} (s : State) (f : Sanitize → Sanitize)  (hk : Keeps μ s0 s) (hm : Within 0x40000 μ := by exact within_trans rfl (by assumption)) : Keeps μ s0 (modSan s f) := by
  unfold modSan
  try dsimp only
  repeat' first
    | with_reducible assumption
    | exact within_trans rfl hm
    | with_reducible apply modNqe_keeps
    | (intro)
    | with_reducible apply keeps_mk
    | with_reducible apply And.intro
    | exact Or.inl (within_bit _ rfl hm)
    | exact Or.inr rfl

theorem eraseSteps_keeps {μ : Nat} {s0 : State} (s : State)  (hk : Keeps μ s0 s) (hm : Within 0x480e4560 μ := by exact within_trans rfl (by assumption)) : Keeps μ s0 (eraseSteps s) := by
  unfold eraseSteps
  try dsimp only
  repeat' first
    | (with_reducible apply keeps_foldl; intro s _ hk)
    | with_reducible assumption
    | exact within_trans rfl hm
    | with_reducible apply resetZone_keeps
    | with_reducible apply destroyAtRest_keeps
    | with_reducible apply modSan_keeps
    | (intro)
    | with_reducible apply keeps_mk
    | with_reducible apply And.intro
    | exact Or.inl (within_bit _ rfl hm)
    | exact Or.inr rfl

theorem sanGoes_keeps {μ : Nat} {s0 : State} (s : State)  (hk : Keeps μ s0 s) (hm : Within 0x480e4560 μ := by exact within_trans rfl (by assumption)) : Keeps μ s0 (sanGoes s) := by
  unfold sanGoes
  try dsimp only
  repeat' first
    | with_reducible assumption
    | exact within_trans rfl hm
    | with_reducible apply eraseSteps_keeps
    | with_reducible apply keeps_ite
    | split
    | with_reducible apply keeps_mk
    | with_reducible apply And.intro
    | exact Or.inl (within_bit _ rfl hm)
    | exact Or.inr rfl

theorem sanEndCmds_keeps {μ : Nat} {s0 : State} (s : State)  (hk : Keeps μ s0 s) (hm : Within 0x80e4160 μ := by exact within_trans rfl (by assumption)) : Keeps μ s0 (sanEndCmds s) := by
  unfold sanEndCmds
  try dsimp only
  repeat' first
    | (with_reducible apply keeps_foldl; intro s _ hk)
    | with_reducible assumption
    | exact within_trans rfl hm
    | with_reducible apply catchCmd_keeps
    | (intro)

theorem sanStart_keeps {μ : Nat} {s0 : State} (k : Nat) (x : Sanitize) (ause : Bool) (s : State)  (hk : Keeps μ s0 s) (hm : Within 0x24b4e4561 μ := by exact within_trans rfl (by assumption)) : Keeps μ s0 (sanStart k x ause s) := by
  unfold sanStart
  try dsimp only
  repeat' first
    | with_reducible assumption
    | exact within_trans rfl hm
    | with_reducible apply setBit_keeps
    | with_reducible apply modNqe_keeps
    | with_reducible apply requestMode_keeps
    | with_reducible apply rewrapAbort_keeps
    | with_reducible apply streamAbort_keeps
    | with_reducible apply succeed_keeps
    | with_reducible apply sanGoes_keeps
    | with_reducible apply sanEndCmds_keeps
    | with_reducible apply keeps_ite
    | split
    | (intro)
    | with_reducible apply keeps_mk
    | with_reducible apply And.intro
    | exact Or.inl (within_bit _ rfl hm)
    | exact Or.inr rfl

theorem sanFails_keeps {μ : Nat} {s0 : State} (s : State)  (hk : Keeps μ s0 s) (hm : Within 0x40020 μ := by exact within_trans rfl (by assumption)) : Keeps μ s0 (sanFails s) := by
  unfold sanFails
  try dsimp only
  repeat' first
    | with_reducible assumption
    | exact within_trans rfl hm
    | with_reducible apply setBit_keeps
    | with_reducible apply modNqe_keeps
    | (intro)
    | with_reducible apply keeps_mk
    | with_reducible apply And.intro
    | exact Or.inl (within_bit _ rfl hm)
    | exact Or.inr rfl

theorem sanNext_keeps {μ : Nat} {s0 : State} (s : State)  (hk : Keeps μ s0 s) (hm : Within 0x480e4560 μ := by exact within_trans rfl (by assumption)) : Keeps μ s0 (sanNext s) := by
  unfold sanNext
  try dsimp only
  repeat' first
    | with_reducible assumption
    | exact within_trans rfl hm
    | with_reducible apply setBit_keeps
    | with_reducible apply modNqe_keeps
    | with_reducible apply modSan_keeps
    | with_reducible apply sanGoes_keeps
    | with_reducible apply keeps_ite
    | split
    | (intro)
    | with_reducible apply keeps_mk
    | with_reducible apply And.intro
    | exact Or.inl (within_bit _ rfl hm)
    | exact Or.inr rfl

theorem sanStep_keeps {μ : Nat} {s0 : State} (ok : Bool) (s : State)  (hk : Keeps μ s0 s) (hm : Within 0x480e4560 μ := by exact within_trans rfl (by assumption)) : Keeps μ s0 (sanStep ok s) := by
  unfold sanStep
  try dsimp only
  repeat' first
    | with_reducible assumption
    | exact within_trans rfl hm
    | with_reducible apply sanFails_keeps
    | with_reducible apply sanNext_keeps
    | with_reducible apply keeps_ite
    | split

theorem sanitized_keeps {μ : Nat} {s0 : State} (act k : Nat) (f : HostCmd → State → State) (s : State)  (h_f : ∀ y0 t, Keeps μ s0 t → Keeps μ s0 (f y0 t)) (hk : Keeps μ s0 s) (hm : Within 0x0 μ := by exact within_trans rfl (by assumption)) : Keeps μ s0 (sanitized act k f s) := by
  unfold sanitized
  try dsimp only
  repeat' first
    | with_reducible assumption
    | exact within_trans rfl hm
    | with_reducible apply h_f
    | with_reducible apply servedAdmin_keeps
    | with_reducible apply keeps_ite
    | split
    | (intro)

theorem exitFailure_keeps {μ : Nat} {s0 : State} (k : Nat) (s : State)  (hk : Keeps μ s0 s) (hm : Within 0x80c0160 μ := by exact within_trans rfl (by assumption)) : Keeps μ s0 (exitFailure k s) := by
  unfold exitFailure
  try dsimp only
  repeat' first
    | with_reducible assumption
    | exact within_trans rfl hm
    | with_reducible apply modNqe_keeps
    | with_reducible apply succeed_keeps
    | with_reducible apply fail_keeps
    | with_reducible apply keeps_ite
    | split
    | (intro)
    | with_reducible apply keeps_mk
    | with_reducible apply And.intro
    | exact Or.inl (within_bit _ rfl hm)
    | exact Or.inr rfl

theorem cryptoErase_keeps {μ : Nat} {s0 : State} (k : Nat) (done : Option Bool) (s : State)  (hk : Keeps μ s0 s) (hm : Within 0x24b4e4561 μ := by exact within_trans rfl (by assumption)) : Keeps μ s0 (cryptoErase k done s) := by
  unfold cryptoErase
  try dsimp only
  repeat' first
    | with_reducible assumption
    | exact within_trans rfl hm
    | with_reducible apply sanStart_keeps
    | with_reducible apply sanStep_keeps
    | with_reducible apply sanitized_keeps
    | split
    | (intro)
    | with_reducible apply keeps_mk
    | with_reducible apply And.intro
    | exact Or.inl (within_bit _ rfl hm)
    | exact Or.inr rfl

theorem overwrite_keeps {μ : Nat} {s0 : State} (k : Nat) (done : Option Bool) (s : State)  (hk : Keeps μ s0 s) (hm : Within 0x24b4e4561 μ := by exact within_trans rfl (by assumption)) : Keeps μ s0 (overwrite k done s) := by
  unfold overwrite
  try dsimp only
  repeat' first
    | with_reducible assumption
    | exact within_trans rfl hm
    | with_reducible apply sanStart_keeps
    | with_reducible apply sanStep_keeps
    | with_reducible apply sanitized_keeps
    | split
    | (intro)
    | with_reducible apply keeps_mk
    | with_reducible apply And.intro
    | exact Or.inl (within_bit _ rfl hm)
    | exact Or.inr rfl

end Sys2Proof.Machine
end

