-- ==== Sys2Proof/Laws/KeepsObjects.lean ====
section
/-! SUPPORT. The operations of Objects.lean keep the queue and the canonical stores. -/

set_option Elab.async false

namespace Sys2Proof.Machine

theorem modNoi_keeps {μ : Nat} {s0 : State} (s : State) (f : NoiState → NoiState)  (hk : Keeps μ s0 s) (hm : Within 0x4000000 μ := by exact within_trans rfl (by assumption)) : Keeps μ s0 (modNoi s f) := by
  unfold modNoi
  try dsimp only
  repeat' first
    | with_reducible assumption
    | exact within_trans rfl hm
    | with_reducible apply keeps_mk
    | with_reducible apply And.intro
    | exact Or.inl (within_bit _ rfl hm)
    | exact Or.inr rfl

theorem setDomain_keeps {μ : Nat} {s0 : State} (i j : Nat) (bytes : List Nat) (s : State)  (hk : Keeps μ s0 s) (hm : Within 0x4000000 μ := by exact within_trans rfl (by assumption)) : Keeps μ s0 (setDomain i j bytes s) := by
  unfold setDomain
  try dsimp only
  repeat' first
    | with_reducible assumption
    | exact within_trans rfl hm
    | with_reducible apply modNoi_keeps
    | with_reducible apply keeps_ite
    | split
    | (intro)
    | with_reducible apply keeps_mk
    | with_reducible apply And.intro
    | exact Or.inl (within_bit _ rfl hm)
    | exact Or.inr rfl

theorem setObjectValue_keeps {μ : Nat} {s0 : State} (i j : Nat) (bytes : List Nat) (s : State)  (hk : Keeps μ s0 s) (hm : Within 0x4000000 μ := by exact within_trans rfl (by assumption)) : Keeps μ s0 (setObjectValue i j bytes s) := by
  unfold setObjectValue
  try dsimp only
  repeat' first
    | with_reducible assumption
    | exact within_trans rfl hm
    | with_reducible apply modNoi_keeps
    | (intro)
    | with_reducible apply keeps_mk
    | with_reducible apply And.intro
    | exact Or.inl (within_bit _ rfl hm)
    | exact Or.inr rfl

theorem contentApply_keeps {μ : Nat} {s0 : State} (i j : Nat) (b : List Nat) (s : State)  (hk : Keeps μ s0 s) (hm : Within 0x2048001a1 μ := by exact within_trans rfl (by assumption)) : Keeps μ s0 (contentApply i j b s) := by
  unfold contentApply
  try dsimp only
  repeat' first
    | with_reducible assumption
    | exact within_trans rfl hm
    | with_reducible apply modArc_keeps
    | with_reducible apply logClear_keeps
    | with_reducible apply setDomain_keeps
    | split
    | (intro)
    | with_reducible apply keeps_mk
    | with_reducible apply And.intro
    | exact Or.inl (within_bit _ rfl hm)
    | exact Or.inr rfl
    | exact OtpGrows.mk (Nat.le_refl _) (fun _ h => h)
    | with_reducible apply keeps_mk_sec

theorem otpObject_keeps {μ : Nat} {s0 : State} (f : State → State) (s : State)  (h_f : ∀  t, Keeps μ s0 t → Keeps μ s0 (f  t)) (hk : Keeps μ s0 s) (_hm : Within 0x0 μ := by exact within_trans rfl (by assumption)) : Keeps μ s0 (otpObject f s).2 := by
  unfold otpObject
  try dsimp only
  repeat' first
    | with_reducible assumption
    | exact within_trans rfl hm
    | with_reducible apply h_f
    | with_reducible apply keeps_ite
    | split

theorem loadKhData_keeps {μ : Nat} {s0 : State} (b : List Nat) (s : State)  (hk : Keeps μ s0 s) (hm : Within 0x800000 μ := by exact within_trans rfl (by assumption)) : Keeps μ s0 (loadKhData b s) := by
  unfold loadKhData
  try dsimp only
  repeat' first
    | with_reducible assumption
    | exact within_trans rfl hm
    | with_reducible apply modSec_keeps
    | exact fun _ => OtpGrows.mk (Nat.le_refl _) (fun _ h => h)
    | (intro)
    | with_reducible apply keeps_mk
    | with_reducible apply And.intro
    | exact Or.inl (within_bit _ rfl hm)
    | exact Or.inr rfl

theorem calObject_keeps {μ : Nat} {s0 : State} (v : Nat) (s : State)  (hk : Keeps μ s0 s) (hm : Within 0x30f444521 μ := by exact within_trans rfl (by assumption)) : Keeps μ s0 (calObject v s).2 := by
  unfold calObject
  try dsimp only
  repeat' first
    | with_reducible assumption
    | exact within_trans rfl hm
    | with_reducible apply calGo_keeps
    | with_reducible apply setObjectValue_keeps
    | split
    | with_reducible apply keeps_mk
    | with_reducible apply And.intro
    | exact Or.inl (within_bit _ rfl hm)
    | exact Or.inr rfl

theorem rewrapObject_keeps {μ : Nat} {s0 : State} (b : List Nat) (s : State)  (hk : Keeps μ s0 s) (hm : Within 0x200000120 μ := by exact within_trans rfl (by assumption)) : Keeps μ s0 (rewrapObject b s).2 := by
  unfold rewrapObject
  try dsimp only
  repeat' first
    | with_reducible assumption
    | exact within_trans rfl hm
    | with_reducible apply setF_keeps
    | with_reducible apply wrN_keeps
    | with_reducible apply rewrapGo_keeps
    | with_reducible apply keeps_ite
    | split

theorem objectWrite_keeps {μ : Nat} {s0 : State} (i j : Nat) (b : List Nat) (s : State)  (hk : Keeps μ s0 s) (hm : Within 0x30fce4561 μ := by exact within_trans rfl (by assumption)) : Keeps μ s0 (objectWrite i j b s).2 := by
  unfold objectWrite
  try dsimp only
  repeat' first
    | with_reducible assumption
    | exact within_trans rfl hm
    | with_reducible apply setF_keeps
    | with_reducible apply wrN_keeps
    | with_reducible apply ladder_keeps
    | with_reducible apply modNqe_keeps
    | with_reducible apply gaugeClear_keeps
    | with_reducible apply mreqWrite_keeps
    | with_reducible apply khProg_keeps
    | with_reducible apply revCmd_keeps
    | with_reducible apply peslimWrite_keeps
    | with_reducible apply wguardWrite_keeps
    | with_reducible apply streamStart_keeps
    | with_reducible apply streamPause_keeps
    | with_reducible apply streamAbort_keeps
    | with_reducible apply anadvWrite_keeps
    | with_reducible apply i5limWrite_keeps
    | with_reducible apply setObjectValue_keeps
    | with_reducible apply otpObject_keeps
    | with_reducible apply loadKhData_keeps
    | with_reducible apply calObject_keeps
    | with_reducible apply rewrapObject_keeps
    | with_reducible apply keeps_ite
    | split
    | refine keeps_snd (by with_reducible assumption) ?_
    | (intro)
    | with_reducible apply keeps_mk
    | with_reducible apply And.intro
    | exact Or.inl (within_bit _ rfl hm)
    | exact Or.inr rfl

theorem objectAfter_keeps {μ : Nat} {s0 : State} (i j : Nat) (b : List Nat) (s : State)  (hk : Keeps μ s0 s) (hm : Within 0x1fffffffff μ := by exact within_trans rfl (by assumption)) : Keeps μ s0 (objectAfter i j b s) := by
  unfold objectAfter
  try dsimp only
  repeat' first
    | with_reducible assumption
    | exact within_trans rfl hm
    | with_reducible apply showNode_keeps
    | with_reducible apply fullReset_keeps
    | with_reducible apply subsysReset_keeps
    | with_reducible apply keeps_ite
    | split
    | with_reducible apply keeps_mk
    | with_reducible apply And.intro
    | exact Or.inl (within_bit _ rfl hm)
    | exact Or.inr rfl

end Sys2Proof.Machine
end

