-- ==== Sys2Proof/Laws/KeepsNoile.lean ====
section
/-! SUPPORT. The operations of Noile.lean keep the queue and the canonical stores. -/

set_option Elab.async false

namespace Sys2Proof.Machine

theorem showNoi_keeps {μ : Nat} {s0 : State} (s : State)  (hk : Keeps μ s0 s) (hm : Within 0x20 μ := by exact within_trans rfl (by assumption)) : Keeps μ s0 (showNoi s) := by
  unfold showNoi
  try dsimp only
  repeat' first
    | with_reducible assumption
    | exact within_trans rfl hm
    | with_reducible apply setF_keeps

theorem endSession_keeps {μ : Nat} {s0 : State} (n : Nat) (s : State)  (hk : Keeps μ s0 s) (hm : Within 0x4000120 μ := by exact within_trans rfl (by assumption)) : Keeps μ s0 (endSession n s) := by
  unfold endSession
  try dsimp only
  repeat' first
    | with_reducible assumption
    | exact within_trans rfl hm
    | with_reducible apply evt_keeps
    | with_reducible apply modNoi_keeps
    | with_reducible apply showNoi_keeps
    | with_reducible apply keeps_ite
    | split
    | (intro)
    | with_reducible apply keeps_mk
    | with_reducible apply And.intro
    | exact Or.inl (within_bit _ rfl hm)
    | exact Or.inr rfl

theorem acceptSeq_keeps {μ : Nat} {s0 : State} (n seq : Nat) (s : State)  (hk : Keeps μ s0 s) (hm : Within 0x4000120 μ := by exact within_trans rfl (by assumption)) : Keeps μ s0 (acceptSeq n seq s) := by
  unfold acceptSeq
  try dsimp only
  repeat' first
    | with_reducible assumption
    | exact within_trans rfl hm
    | with_reducible apply modNoi_keeps
    | with_reducible apply endSession_keeps
    | with_reducible apply keeps_ite
    | split
    | (intro)
    | with_reducible apply keeps_mk
    | with_reducible apply And.intro
    | exact Or.inl (within_bit _ rfl hm)
    | exact Or.inr rfl

theorem takeSeq_keeps {μ : Nat} {s0 : State} (who : Requester) (s : State)  (hk : Keeps μ s0 s) (hm : Within 0x4000120 μ := by exact within_trans rfl (by assumption)) : Keeps μ s0 (takeSeq who s).2 := by
  unfold takeSeq
  try dsimp only
  repeat' first
    | with_reducible assumption
    | exact within_trans rfl hm
    | with_reducible apply modNoi_keeps
    | with_reducible apply endSession_keeps
    | with_reducible apply keeps_ite
    | split
    | (intro)
    | with_reducible apply keeps_mk
    | with_reducible apply And.intro
    | exact Or.inl (within_bit _ rfl hm)
    | exact Or.inr rfl

theorem sendNoi_keeps {μ : Nat} {s0 : State} (m : NoiMessage) (s : State)  (hk : Keeps μ s0 s) (hm : Within 0x4000120 μ := by exact within_trans rfl (by assumption)) : Keeps μ s0 (sendNoi m s) := by
  unfold sendNoi
  try dsimp only
  repeat' first
    | with_reducible assumption
    | exact within_trans rfl hm
    | with_reducible apply wrapInc_keeps
    | with_reducible apply modNoi_keeps
    | with_reducible apply takeSeq_keeps
    | split
    | refine keeps_snd (by with_reducible assumption) ?_
    | (intro)
    | with_reducible apply keeps_mk
    | with_reducible apply And.intro
    | exact Or.inl (within_bit _ rfl hm)
    | exact Or.inr rfl

theorem sendBusy_keeps {μ : Nat} {s0 : State} (inprog : Bool) (r : NoiRequest) (s : State)  (hk : Keeps μ s0 s) (hm : Within 0x4000120 μ := by exact within_trans rfl (by assumption)) : Keeps μ s0 (sendBusy inprog r s) := by
  unfold sendBusy
  try dsimp only
  repeat' first
    | with_reducible assumption
    | exact within_trans rfl hm
    | with_reducible apply satInc_keeps
    | with_reducible apply sendNoi_keeps
    | with_reducible apply keeps_ite
    | split

theorem remember_keeps {μ : Nat} {s0 : State} (r : NoiRequest) (reply : Option NoiMessage) (s : State)  (hk : Keeps μ s0 s) (hm : Within 0x4000000 μ := by exact within_trans rfl (by assumption)) : Keeps μ s0 (remember r reply s) := by
  unfold remember
  try dsimp only
  repeat' first
    | with_reducible assumption
    | exact within_trans rfl hm
    | with_reducible apply modNoi_keeps
    | (intro)
    | with_reducible apply keeps_mk
    | with_reducible apply And.intro
    | exact Or.inl (within_bit _ rfl hm)
    | exact Or.inr rfl

theorem answerWith_keeps {μ : Nat} {s0 : State} (r : NoiRequest) (m : NoiMessage) (s : State)  (hk : Keeps μ s0 s) (hm : Within 0x4000120 μ := by exact within_trans rfl (by assumption)) : Keeps μ s0 (answerWith r m s) := by
  unfold answerWith
  try dsimp only
  repeat' first
    | with_reducible assumption
    | exact within_trans rfl hm
    | with_reducible apply sendNoi_keeps
    | with_reducible apply remember_keeps

theorem refuse_keeps {μ : Nat} {s0 : State} (r : NoiRequest) (code : Nat) (s : State)  (hk : Keeps μ s0 s) (hm : Within 0x4000120 μ := by exact within_trans rfl (by assumption)) : Keeps μ s0 (refuse r code s) := by
  unfold refuse
  try dsimp only
  repeat' first
    | with_reducible assumption
    | exact within_trans rfl hm
    | with_reducible apply sendBusy_keeps
    | with_reducible apply answerWith_keeps
    | with_reducible apply keeps_ite
    | split

theorem cacheExpiry_keeps {μ : Nat} {s0 : State} (s : State)  (hk : Keeps μ s0 s) (hm : Within 0x4000000 μ := by exact within_trans rfl (by assumption)) : Keeps μ s0 (cacheExpiry s) := by
  unfold cacheExpiry
  try dsimp only
  repeat' first
    | with_reducible assumption
    | exact within_trans rfl hm
    | with_reducible apply modNoi_keeps
    | split
    | (intro)
    | with_reducible apply keeps_mk
    | with_reducible apply And.intro
    | exact Or.inl (within_bit _ rfl hm)
    | exact Or.inr rfl

theorem dropNoi_keeps {μ : Nat} {s0 : State} (s : State)  (hk : Keeps μ s0 s) (hm : Within 0x20 μ := by exact within_trans rfl (by assumption)) : Keeps μ s0 (dropNoi s) := by
  unfold dropNoi
  try dsimp only
  repeat' first
    | with_reducible assumption
    | exact within_trans rfl hm
    | with_reducible apply satInc_keeps

theorem passToFirmware_keeps {μ : Nat} {s0 : State} (r : NoiRequest) (priv : Nat) (bytes : List Nat) (s : State)  (hk : Keeps μ s0 s) (hm : Within 0x4000160 μ := by exact within_trans rfl (by assumption)) : Keeps μ s0 (passToFirmware r priv bytes s) := by
  unfold passToFirmware
  try dsimp only
  repeat' first
    | with_reducible assumption
    | exact within_trans rfl hm
    | with_reducible apply sramPutBytes_keeps
    | with_reducible apply evt_keeps
    | with_reducible apply modNoi_keeps
    | with_reducible apply showNoi_keeps
    | with_reducible apply sendBusy_keeps
    | split
    | (intro)
    | with_reducible apply keeps_mk
    | with_reducible apply And.intro
    | exact Or.inl (within_bit _ rfl hm)
    | exact Or.inr rfl

theorem serve_keeps {μ : Nat} {s0 : State} (r : NoiRequest) (priv : Nat) (bytes : List Nat) (s : State)  (hk : Keeps μ s0 s) (hm : Within 0x4000160 μ := by exact within_trans rfl (by assumption)) : Keeps μ s0 (serve r priv bytes s) := by
  unfold serve
  try dsimp only
  repeat' first
    | with_reducible assumption
    | exact within_trans rfl hm
    | with_reducible apply sendBusy_keeps
    | with_reducible apply answerWith_keeps
    | with_reducible apply refuse_keeps
    | with_reducible apply passToFirmware_keeps
    | with_reducible apply keeps_ite
    | split
    | (intro)

theorem takeNoi_keeps {μ : Nat} {s0 : State} (r : NoiRequest) (priv : Nat) (bytes : List Nat) (s : State)  (hk : Keeps μ s0 s) (hm : Within 0x4000160 μ := by exact within_trans rfl (by assumption)) : Keeps μ s0 (takeNoi r priv bytes s) := by
  unfold takeNoi
  try dsimp only
  repeat' first
    | with_reducible assumption
    | exact within_trans rfl hm
    | with_reducible apply sendNoi_keeps
    | with_reducible apply sendBusy_keeps
    | with_reducible apply refuse_keeps
    | with_reducible apply serve_keeps
    | with_reducible apply keeps_ite
    | split
    | (intro)
    | with_reducible apply keeps_mk
    | with_reducible apply And.intro
    | exact Or.inl (within_bit _ rfl hm)
    | exact Or.inr rfl

theorem takeBroadcast_keeps {μ : Nat} {s0 : State} (r : NoiRequest) (priv : Nat) (s : State)  (hk : Keeps μ s0 s) (hm : Within 0x4000000 μ := by exact within_trans rfl (by assumption)) : Keeps μ s0 (takeBroadcast r priv s) := by
  unfold takeBroadcast
  try dsimp only
  repeat' first
    | with_reducible assumption
    | exact within_trans rfl hm
    | with_reducible apply modNoi_keeps
    | with_reducible apply keeps_ite
    | split
    | (intro)
    | with_reducible apply keeps_mk
    | with_reducible apply And.intro
    | exact Or.inl (within_bit _ rfl hm)
    | exact Or.inr rfl

theorem takeAck_keeps {μ : Nat} {s0 : State} (r : NoiRequest) (s : State)  (hk : Keeps μ s0 s) (hm : Within 0x4000020 μ := by exact within_trans rfl (by assumption)) : Keeps μ s0 (takeAck r s) := by
  unfold takeAck
  try dsimp only
  repeat' first
    | with_reducible assumption
    | exact within_trans rfl hm
    | with_reducible apply wrapInc_keeps
    | with_reducible apply modNoi_keeps
    | with_reducible apply dropNoi_keeps
    | with_reducible apply keeps_ite
    | split
    | (intro)
    | with_reducible apply keeps_mk
    | with_reducible apply And.intro
    | exact Or.inl (within_bit _ rfl hm)
    | exact Or.inr rfl

theorem accepted_keeps {μ : Nat} {s0 : State} (r : NoiRequest) (priv : Nat) (broadcast : Bool) (bytes : List Nat) (s : State)  (hk : Keeps μ s0 s) (hm : Within 0x4000160 μ := by exact within_trans rfl (by assumption)) : Keeps μ s0 (accepted r priv broadcast bytes s) := by
  unfold accepted
  try dsimp only
  repeat' first
    | with_reducible assumption
    | exact within_trans rfl hm
    | with_reducible apply wrapInc_keeps
    | with_reducible apply takeNoi_keeps
    | with_reducible apply takeBroadcast_keeps
    | with_reducible apply takeAck_keeps
    | with_reducible apply keeps_ite
    | split

theorem tagDrop_keeps {μ : Nat} {s0 : State} (s : State)  (hk : Keeps μ s0 s) (hm : Within 0x120 μ := by exact within_trans rfl (by assumption)) : Keeps μ s0 (tagDrop s) := by
  unfold tagDrop
  try dsimp only
  repeat' first
    | with_reducible assumption
    | exact within_trans rfl hm
    | with_reducible apply satInc_keeps
    | with_reducible apply evt_keeps

theorem receiveNoi_keeps {μ : Nat} {s0 : State} (d : NoiDatagram) (s : State)  (hk : Keeps μ s0 s) (hm : Within 0x4000160 μ := by exact within_trans rfl (by assumption)) : Keeps μ s0 (receiveNoi d s) := by
  unfold receiveNoi
  try dsimp only
  repeat' first
    | with_reducible assumption
    | exact within_trans rfl hm
    | with_reducible apply acceptSeq_keeps
    | with_reducible apply dropNoi_keeps
    | with_reducible apply accepted_keeps
    | with_reducible apply tagDrop_keeps
    | with_reducible apply keeps_ite
    | split
    | with_reducible apply keeps_mk
    | with_reducible apply And.intro
    | exact Or.inl (within_bit _ rfl hm)
    | exact Or.inr rfl

theorem receiveAck_keeps {μ : Nat} {s0 : State} (d : NoiDatagram) (s : State)  (hk : Keeps μ s0 s) (hm : Within 0x4000160 μ := by exact within_trans rfl (by assumption)) : Keeps μ s0 (receiveAck d s) := by
  unfold receiveAck
  try dsimp only
  repeat' first
    | with_reducible assumption
    | exact within_trans rfl hm
    | with_reducible apply receiveNoi_keeps
    | with_reducible apply keeps_ite
    | split

theorem broadcastReply_keeps {μ : Nat} {s0 : State} (k : Nat) (s : State)  (hk : Keeps μ s0 s) (hm : Within 0x4000120 μ := by exact within_trans rfl (by assumption)) : Keeps μ s0 (broadcastReply k s) := by
  unfold broadcastReply
  try dsimp only
  repeat' first
    | with_reducible assumption
    | exact within_trans rfl hm
    | with_reducible apply modNoi_keeps
    | with_reducible apply sendNoi_keeps
    | split
    | (intro)
    | with_reducible apply keeps_mk
    | with_reducible apply And.intro
    | exact Or.inl (within_bit _ rfl hm)
    | exact Or.inr rfl

theorem freeNoiSlot_keeps {μ : Nat} {s0 : State} (k : Nat) (s : State)  (hk : Keeps μ s0 s) (hm : Within 0x4000020 μ := by exact within_trans rfl (by assumption)) : Keeps μ s0 (freeNoiSlot k s) := by
  unfold freeNoiSlot
  try dsimp only
  repeat' first
    | with_reducible assumption
    | exact within_trans rfl hm
    | with_reducible apply modNoi_keeps
    | with_reducible apply showNoi_keeps
    | (intro)
    | with_reducible apply keeps_mk
    | with_reducible apply And.intro
    | exact Or.inl (within_bit _ rfl hm)
    | exact Or.inr rfl

theorem fwqPop_keeps {μ : Nat} {s0 : State} (s : State)  (hk : Keeps μ s0 s) (hm : Within 0x4000018 μ := by exact within_trans rfl (by assumption)) : Keeps μ s0 (fwqPop s) := by
  unfold fwqPop
  try dsimp only
  repeat' first
    | with_reducible assumption
    | exact within_trans rfl hm
    | with_reducible apply answer_keeps
    | with_reducible apply modNoi_keeps
    | with_reducible apply keeps_ite
    | split
    | (intro)
    | with_reducible apply keeps_mk
    | with_reducible apply And.intro
    | exact Or.inl (within_bit _ rfl hm)
    | exact Or.inr rfl

theorem fwDeadline_keeps {μ : Nat} {s0 : State} (k : Nat) (s : State)  (hk : Keeps μ s0 s) (hm : Within 0x4000120 μ := by exact within_trans rfl (by assumption)) : Keeps μ s0 (fwDeadline k s) := by
  unfold fwDeadline
  try dsimp only
  repeat' first
    | with_reducible assumption
    | exact within_trans rfl hm
    | with_reducible apply modNoi_keeps
    | with_reducible apply sendBusy_keeps
    | with_reducible apply remember_keeps
    | with_reducible apply freeNoiSlot_keeps
    | with_reducible apply keeps_ite
    | split
    | (intro)
    | with_reducible apply keeps_mk
    | with_reducible apply And.intro
    | exact Or.inl (within_bit _ rfl hm)
    | exact Or.inr rfl

theorem fwReply_keeps {μ : Nat} {s0 : State} (k code : Nat) (s : State)  (hk : Keeps μ s0 s) (hm : Within 0x4000120 μ := by exact within_trans rfl (by assumption)) : Keeps μ s0 (fwReply k code s) := by
  unfold fwReply
  try dsimp only
  repeat' first
    | with_reducible assumption
    | exact within_trans rfl hm
    | with_reducible apply evt_keeps
    | with_reducible apply sendBusy_keeps
    | with_reducible apply remember_keeps
    | with_reducible apply answerWith_keeps
    | with_reducible apply freeNoiSlot_keeps
    | with_reducible apply keeps_ite
    | split
    | with_reducible apply keeps_mk
    | with_reducible apply And.intro
    | exact Or.inl (within_bit _ rfl hm)
    | exact Or.inr rfl

theorem fwAnswer_keeps {μ : Nat} {s0 : State} (k code : Nat) (payload : List Nat) (s : State)  (hk : Keeps μ s0 s) (hm : Within 0x4000160 μ := by exact within_trans rfl (by assumption)) : Keeps μ s0 (fwAnswer k code payload s) := by
  unfold fwAnswer
  try dsimp only
  repeat' first
    | with_reducible assumption
    | exact within_trans rfl hm
    | with_reducible apply sramPut16_keeps
    | with_reducible apply sramPutBytes_keeps
    | with_reducible apply fwReply_keeps

theorem fwServe_keeps {μ : Nat} {s0 : State} (p : NoiRequest → Bool) (k : Nat) (f : NoiSlot → State → State) (s : State)  (h_f : ∀ y0 t, Keeps μ s0 t → Keeps μ s0 (f y0 t)) (hk : Keeps μ s0 s) (hm : Within 0x4000160 μ := by exact within_trans rfl (by assumption)) : Keeps μ s0 (fwServe p k f s) := by
  unfold fwServe
  try dsimp only
  repeat' first
    | with_reducible assumption
    | exact within_trans rfl hm
    | with_reducible apply h_f
    | with_reducible apply fwAnswer_keeps
    | with_reducible apply keeps_ite
    | split
    | with_reducible apply keeps_mk
    | with_reducible apply And.intro
    | exact Or.inl (within_bit _ rfl hm)
    | exact Or.inr rfl

theorem fwRead_keeps {μ : Nat} {s0 : State} (k : Nat) (x : NoiSlot) (s : State)  (hk : Keeps μ s0 s) (hm : Within 0x4000160 μ := by exact within_trans rfl (by assumption)) : Keeps μ s0 (fwRead k x s) := by
  unfold fwRead
  try dsimp only
  repeat' first
    | with_reducible assumption
    | exact within_trans rfl hm
    | with_reducible apply fwAnswer_keeps
    | with_reducible apply keeps_ite
    | split
    | (intro)

theorem fwWrite_keeps {μ : Nat} {s0 : State} (k : Nat) (x : NoiSlot) (s : State)  (hk : Keeps μ s0 s) (hm : Within 0x1fffffffff μ := by exact within_trans rfl (by assumption)) : Keeps μ s0 (fwWrite k x s) := by
  unfold fwWrite
  try dsimp only
  repeat' first
    | with_reducible assumption
    | exact within_trans rfl hm
    | with_reducible apply objectWrite_keeps
    | with_reducible apply objectAfter_keeps
    | with_reducible apply fwAnswer_keeps
    | with_reducible apply keeps_ite
    | split
    | refine keeps_snd (by with_reducible assumption) ?_

theorem fwReadSeg_keeps {μ : Nat} {s0 : State} (k : Nat) (x : NoiSlot) (s : State)  (hk : Keeps μ s0 s) (hm : Within 0x4000160 μ := by exact within_trans rfl (by assumption)) : Keeps μ s0 (fwReadSeg k x s) := by
  unfold fwReadSeg
  try dsimp only
  repeat' first
    | with_reducible assumption
    | exact within_trans rfl hm
    | with_reducible apply fwAnswer_keeps
    | with_reducible apply keeps_ite
    | split

theorem closeXfer_keeps {μ : Nat} {s0 : State} (i j : Nat) (s : State)  (hk : Keeps μ s0 s) (hm : Within 0x4000000 μ := by exact within_trans rfl (by assumption)) : Keeps μ s0 (closeXfer i j s) := by
  unfold closeXfer
  try dsimp only
  repeat' first
    | with_reducible assumption
    | exact within_trans rfl hm
    | with_reducible apply modNoi_keeps
    | (intro)
    | with_reducible apply keeps_mk
    | with_reducible apply And.intro
    | exact Or.inl (within_bit _ rfl hm)
    | exact Or.inr rfl

theorem keepSegment_keeps {μ : Nat} {s0 : State} (r : NoiRequest) (s : State)  (hk : Keeps μ s0 s) (hm : Within 0x4000000 μ := by exact within_trans rfl (by assumption)) : Keeps μ s0 (keepSegment r s) := by
  unfold keepSegment
  try dsimp only
  repeat' first
    | with_reducible assumption
    | exact within_trans rfl hm
    | with_reducible apply modNoi_keeps
    | with_reducible apply closeXfer_keeps
    | split
    | (intro)
    | with_reducible apply keeps_mk
    | with_reducible apply And.intro
    | exact Or.inl (within_bit _ rfl hm)
    | exact Or.inr rfl

theorem fwWriteSeg_keeps {μ : Nat} {s0 : State} (k : Nat) (x : NoiSlot) (s : State)  (hk : Keeps μ s0 s) (hm : Within 0x2048001e1 μ := by exact within_trans rfl (by assumption)) : Keeps μ s0 (fwWriteSeg k x s) := by
  unfold fwWriteSeg
  try dsimp only
  repeat' first
    | with_reducible assumption
    | exact within_trans rfl hm
    | with_reducible apply contentApply_keeps
    | with_reducible apply fwAnswer_keeps
    | with_reducible apply closeXfer_keeps
    | with_reducible apply keepSegment_keeps
    | with_reducible apply keeps_ite
    | split

theorem segmentTimeout_keeps {μ : Nat} {s0 : State} (i j : Nat) (s : State)  (hk : Keeps μ s0 s) (hm : Within 0x4000000 μ := by exact within_trans rfl (by assumption)) : Keeps μ s0 (segmentTimeout i j s) := by
  unfold segmentTimeout
  try dsimp only
  repeat' first
    | with_reducible assumption
    | exact within_trans rfl hm
    | with_reducible apply closeXfer_keeps
    | with_reducible apply keeps_ite
    | split
    | with_reducible apply keeps_mk
    | with_reducible apply And.intro
    | exact Or.inl (within_bit _ rfl hm)
    | exact Or.inr rfl

theorem closeRemoved_keeps {μ : Nat} {s0 : State} (old new : List (List Nat)) (x : Assoc) (s : State)  (hk : Keeps μ s0 s) (hm : Within 0x80e4160 μ := by exact within_trans rfl (by assumption)) : Keeps μ s0 (closeRemoved old new x s) := by
  unfold closeRemoved
  try dsimp only
  repeat' first
    | (with_reducible apply keeps_foldl; intro s _ hk)
    | with_reducible assumption
    | exact within_trans rfl hm
    | with_reducible apply resetAssoc_keeps
    | with_reducible apply dropQueue_keeps
    | with_reducible apply keeps_ite
    | split
    | (intro)

theorem tableWrite_keeps {μ : Nat} {s0 : State} (k : Nat) (x : NoiSlot) (s : State)  (hk : Keeps μ s0 s) (hm : Within 0x20c8e41e1 μ := by exact within_trans rfl (by assumption)) : Keeps μ s0 (tableWrite k x s) := by
  unfold tableWrite
  try dsimp only
  repeat' first
    | (with_reducible apply keeps_foldl; intro s _ hk)
    | with_reducible assumption
    | exact within_trans rfl hm
    | with_reducible apply contentApply_keeps
    | with_reducible apply fwAnswer_keeps
    | with_reducible apply closeXfer_keeps
    | with_reducible apply closeRemoved_keeps
    | (intro)

theorem formSession_keeps {μ : Nat} {s0 : State} (f : SpdmSession) (s : State)  (hk : Keeps μ s0 s) (hm : Within 0x4000020 μ := by exact within_trans rfl (by assumption)) : Keeps μ s0 (formSession f s) := by
  unfold formSession
  try dsimp only
  repeat' first
    | with_reducible assumption
    | exact within_trans rfl hm
    | with_reducible apply modNoi_keeps
    | with_reducible apply showNoi_keeps
    | (intro)
    | with_reducible apply keeps_mk
    | with_reducible apply And.intro
    | exact Or.inl (within_bit _ rfl hm)
    | exact Or.inr rfl

theorem spdm_keeps {μ : Nat} {s0 : State} (k : Nat) (response : List Nat) (formed : Option SpdmSession) (ended : Bool) (x : NoiSlot) (s : State)  (hk : Keeps μ s0 s) (hm : Within 0x4000160 μ := by exact within_trans rfl (by assumption)) : Keeps μ s0 (spdm k response formed ended x s) := by
  unfold spdm
  try dsimp only
  repeat' first
    | with_reducible assumption
    | exact within_trans rfl hm
    | with_reducible apply modNoi_keeps
    | with_reducible apply endSession_keeps
    | with_reducible apply fwAnswer_keeps
    | with_reducible apply closeXfer_keeps
    | with_reducible apply formSession_keeps
    | with_reducible apply keeps_ite
    | split
    | (intro)
    | with_reducible apply keeps_mk
    | with_reducible apply And.intro
    | exact Or.inl (within_bit _ rfl hm)
    | exact Or.inr rfl

theorem sessionIdle_keeps {μ : Nat} {s0 : State} (n : Nat) (s : State)  (hk : Keeps μ s0 s) (hm : Within 0x4000120 μ := by exact within_trans rfl (by assumption)) : Keeps μ s0 (sessionIdle n s) := by
  unfold sessionIdle
  try dsimp only
  repeat' first
    | with_reducible assumption
    | exact within_trans rfl hm
    | with_reducible apply endSession_keeps
    | with_reducible apply keeps_ite
    | split
    | with_reducible apply keeps_mk
    | with_reducible apply And.intro
    | exact Or.inl (within_bit _ rfl hm)
    | exact Or.inr rfl

theorem subscribe_keeps {μ : Nat} {s0 : State} (k : Nat) (x : NoiSlot) (s : State)  (hk : Keeps μ s0 s) (hm : Within 0x4000160 μ := by exact within_trans rfl (by assumption)) : Keeps μ s0 (subscribe k x s) := by
  unfold subscribe
  try dsimp only
  repeat' first
    | with_reducible assumption
    | exact within_trans rfl hm
    | with_reducible apply modNoi_keeps
    | with_reducible apply showNoi_keeps
    | with_reducible apply fwAnswer_keeps
    | with_reducible apply keeps_ite
    | split
    | (intro)
    | with_reducible apply keeps_mk
    | with_reducible apply And.intro
    | exact Or.inl (within_bit _ rfl hm)
    | exact Or.inr rfl

theorem dropSub_keeps {μ : Nat} {s0 : State} (h : Nat) (s : State)  (hk : Keeps μ s0 s) (hm : Within 0x4000020 μ := by exact within_trans rfl (by assumption)) : Keeps μ s0 (dropSub h s) := by
  unfold dropSub
  try dsimp only
  repeat' first
    | with_reducible assumption
    | exact within_trans rfl hm
    | with_reducible apply modNoi_keeps
    | with_reducible apply showNoi_keeps
    | (intro)
    | with_reducible apply keeps_mk
    | with_reducible apply And.intro
    | exact Or.inl (within_bit _ rfl hm)
    | exact Or.inr rfl

theorem unsubscribe_keeps {μ : Nat} {s0 : State} (k : Nat) (x : NoiSlot) (s : State)  (hk : Keeps μ s0 s) (hm : Within 0x4000160 μ := by exact within_trans rfl (by assumption)) : Keeps μ s0 (unsubscribe k x s) := by
  unfold unsubscribe
  try dsimp only
  repeat' first
    | with_reducible assumption
    | exact within_trans rfl hm
    | with_reducible apply fwAnswer_keeps
    | with_reducible apply dropSub_keeps

theorem modSub_keeps {μ : Nat} {s0 : State} (h : Nat) (f : NoiSub → NoiSub) (s : State)  (hk : Keeps μ s0 s) (hm : Within 0x4000000 μ := by exact within_trans rfl (by assumption)) : Keeps μ s0 (modSub h f s) := by
  unfold modSub
  try dsimp only
  repeat' first
    | with_reducible assumption
    | exact within_trans rfl hm
    | with_reducible apply modNoi_keeps
    | with_reducible apply keeps_ite
    | split
    | (intro)
    | with_reducible apply keeps_mk
    | with_reducible apply And.intro
    | exact Or.inl (within_bit _ rfl hm)
    | exact Or.inr rfl

theorem notify_keeps {μ : Nat} {s0 : State} (h : Nat) (s : State)  (hk : Keeps μ s0 s) (hm : Within 0x4000120 μ := by exact within_trans rfl (by assumption)) : Keeps μ s0 (notify h s) := by
  unfold notify
  try dsimp only
  repeat' first
    | with_reducible assumption
    | exact within_trans rfl hm
    | with_reducible apply modNoi_keeps
    | with_reducible apply sendNoi_keeps
    | with_reducible apply modSub_keeps
    | with_reducible apply keeps_ite
    | split
    | (intro)
    | with_reducible apply keeps_mk
    | with_reducible apply And.intro
    | exact Or.inl (within_bit _ rfl hm)
    | exact Or.inr rfl

theorem notifyResend_keeps {μ : Nat} {s0 : State} (h : Nat) (s : State)  (hk : Keeps μ s0 s) (hm : Within 0x4000120 μ := by exact within_trans rfl (by assumption)) : Keeps μ s0 (notifyResend h s) := by
  unfold notifyResend
  try dsimp only
  repeat' first
    | with_reducible assumption
    | exact within_trans rfl hm
    | with_reducible apply evt_keeps
    | with_reducible apply sendNoi_keeps
    | with_reducible apply dropSub_keeps
    | with_reducible apply modSub_keeps
    | with_reducible apply keeps_ite
    | split
    | (intro)
    | with_reducible apply keeps_mk
    | with_reducible apply And.intro
    | exact Or.inl (within_bit _ rfl hm)
    | exact Or.inr rfl

theorem ntfy_keeps {μ : Nat} {s0 : State} (v : Nat) (s : State)  (hk : Keeps μ s0 s) (hm : Within 0x4000000 μ := by exact within_trans rfl (by assumption)) : Keeps μ s0 (ntfy v s) := by
  unfold ntfy
  try dsimp only
  repeat' first
    | with_reducible assumption
    | exact within_trans rfl hm
    | with_reducible apply modNoi_keeps
    | (intro)
    | with_reducible apply keeps_mk
    | with_reducible apply And.intro
    | exact Or.inl (within_bit _ rfl hm)
    | exact Or.inr rfl

end Sys2Proof.Machine
end

