-- ==== Sys2Proof/Laws/KeepsSpindle.lean ====
section
/-! SUPPORT. The operations of Spindle.lean keep the queue and the canonical stores. -/

set_option Elab.async false

namespace Sys2Proof.Machine

theorem countFail_keeps {μ : Nat} {s0 : State} (s : State)  (hk : Keeps μ s0 s) (hm : Within 0x30b544521 μ := by exact within_trans rfl (by assumption)) : Keeps μ s0 (countFail s).2 := by
  unfold countFail
  try dsimp only
  repeat' first
    | with_reducible assumption
    | exact within_trans rfl hm
    | with_reducible apply setF_keeps
    | with_reducible apply setBit_keeps
    | with_reducible apply satInc_keeps
    | with_reducible apply evt_keeps
    | with_reducible apply brakeStop_keeps
    | with_reducible apply safeHold_keeps
    | with_reducible apply keeps_ite
    | split

theorem restart_keeps {μ : Nat} {s0 : State} (s : State)  (hk : Keeps μ s0 s) (hm : Within 0x8404521 μ := by exact within_trans rfl (by assumption)) : Keeps μ s0 (restart s) := by
  unfold restart
  try dsimp only
  repeat' first
    | with_reducible assumption
    | exact within_trans rfl hm
    | with_reducible apply brake_keeps
    | with_reducible apply beginStart_keeps

theorem failAndRestart_keeps {μ : Nat} {s0 : State} (s : State)  (hk : Keeps μ s0 s) (hm : Within 0x30b544521 μ := by exact within_trans rfl (by assumption)) : Keeps μ s0 (failAndRestart s) := by
  unfold failAndRestart
  try dsimp only
  repeat' first
    | with_reducible assumption
    | exact within_trans rfl hm
    | with_reducible apply countFail_keeps
    | with_reducible apply restart_keeps
    | split
    | refine keeps_snd (by with_reducible assumption) ?_
    | with_reducible apply keeps_mk
    | with_reducible apply And.intro
    | exact Or.inl (within_bit _ rfl hm)
    | exact Or.inr rfl

theorem startFails_keeps {μ : Nat} {s0 : State} (s : State)  (hk : Keeps μ s0 s) (hm : Within 0x30b544521 μ := by exact within_trans rfl (by assumption)) : Keeps μ s0 (startFails s) := by
  unfold startFails
  try dsimp only
  repeat' first
    | with_reducible assumption
    | exact within_trans rfl hm
    | with_reducible apply evt_keeps
    | with_reducible apply failAndRestart_keeps

theorem failStart_keeps {μ : Nat} {s0 : State} (s : State)  (hk : Keeps μ s0 s) (hm : Within 0x30b544521 μ := by exact within_trans rfl (by assumption)) : Keeps μ s0 (failStart s) := by
  unfold failStart
  try dsimp only
  repeat' first
    | with_reducible assumption
    | exact within_trans rfl hm
    | with_reducible apply stepFailed_keeps
    | with_reducible apply startFails_keeps
    | with_reducible apply keeps_ite
    | split

theorem servoCommutate_keeps {μ : Nat} {s0 : State} (s : State)  (hk : Keeps μ s0 s) (hm : Within 0x8404521 μ := by exact within_trans rfl (by assumption)) : Keeps μ s0 (servoCommutate s) := by
  unfold servoCommutate
  try dsimp only
  repeat' first
    | with_reducible assumption
    | exact within_trans rfl hm
    | with_reducible apply modSpn_keeps
    | with_reducible apply setPhase_keeps
    | with_reducible apply keeps_ite
    | split
    | (intro)
    | with_reducible apply keeps_mk
    | with_reducible apply And.intro
    | exact Or.inl (within_bit _ rfl hm)
    | exact Or.inr rfl

theorem spinningLost_keeps {μ : Nat} {s0 : State} (s : State)  (hk : Keeps μ s0 s) (hm : Within 0x20b444521 μ := by exact within_trans rfl (by assumption)) : Keeps μ s0 (spinningLost s) := by
  unfold spinningLost
  try dsimp only
  repeat' first
    | with_reducible assumption
    | exact within_trans rfl hm
    | with_reducible apply enterMode_keeps
    | with_reducible apply stepFailed_keeps
    | with_reducible apply keeps_ite
    | split

theorem lossOfSync_keeps {μ : Nat} {s0 : State} (s : State)  (hk : Keeps μ s0 s) (hm : Within 0x20b544521 μ := by exact within_trans rfl (by assumption)) : Keeps μ s0 (lossOfSync s) := by
  unfold lossOfSync
  try dsimp only
  repeat' first
    | with_reducible assumption
    | exact within_trans rfl hm
    | with_reducible apply satInc_keeps
    | with_reducible apply evt_keeps
    | with_reducible apply modSpn_keeps
    | with_reducible apply setSync_keeps
    | with_reducible apply reacquire_keeps
    | with_reducible apply servoAngleLost_keeps
    | with_reducible apply servoCommutate_keeps
    | with_reducible apply spinningLost_keeps
    | with_reducible apply keeps_ite
    | split
    | (intro)
    | with_reducible apply keeps_mk
    | with_reducible apply And.intro
    | exact Or.inl (within_bit _ rfl hm)
    | exact Or.inr rfl

theorem judgeCrossing_keeps {μ : Nat} {s0 : State} (bad : Bool) (s : State)  (hk : Keeps μ s0 s) (hm : Within 0x20b544521 μ := by exact within_trans rfl (by assumption)) : Keeps μ s0 (judgeCrossing bad s) := by
  unfold judgeCrossing
  try dsimp only
  repeat' first
    | with_reducible assumption
    | exact within_trans rfl hm
    | with_reducible apply modSpn_keeps
    | with_reducible apply lossOfSync_keeps
    | with_reducible apply keeps_ite
    | split
    | (intro)
    | with_reducible apply keeps_mk
    | with_reducible apply And.intro
    | exact Or.inl (within_bit _ rfl hm)
    | exact Or.inr rfl

theorem setLead_keeps {μ : Nat} {s0 : State} (q : Rat) (s : State)  (hk : Keeps μ s0 s) (hm : Within 0x400000 μ := by exact within_trans rfl (by assumption)) : Keeps μ s0 (setLead q s) := by
  unfold setLead
  try dsimp only
  repeat' first
    | with_reducible assumption
    | exact within_trans rfl hm
    | with_reducible apply modSpn_keeps
    | (intro)
    | with_reducible apply keeps_mk
    | with_reducible apply And.intro
    | exact Or.inl (within_bit _ rfl hm)
    | exact Or.inr rfl

theorem showSpeed_keeps {μ : Nat} {s0 : State} (v : Rat) (back : Bool) (s : State)  (hk : Keeps μ s0 s) (hm : Within 0x400020 μ := by exact within_trans rfl (by assumption)) : Keeps μ s0 (showSpeed v back s) := by
  unfold showSpeed
  try dsimp only
  repeat' first
    | with_reducible assumption
    | exact within_trans rfl hm
    | with_reducible apply setBit_keeps
    | with_reducible apply wrN_keeps
    | with_reducible apply modSpn_keeps
    | with_reducible apply keeps_ite
    | split
    | (intro)
    | with_reducible apply keeps_mk
    | with_reducible apply And.intro
    | exact Or.inl (within_bit _ rfl hm)
    | exact Or.inr rfl

theorem learnMoff_keeps {μ : Nat} {s0 : State} (s : State)  (hk : Keeps μ s0 s) (hm : Within 0x400020 μ := by exact within_trans rfl (by assumption)) : Keeps μ s0 (learnMoff s) := by
  unfold learnMoff
  try dsimp only
  repeat' first
    | with_reducible assumption
    | exact within_trans rfl hm
    | with_reducible apply wrN_keeps
    | with_reducible apply modSpn_keeps
    | with_reducible apply keeps_ite
    | split
    | (intro)
    | with_reducible apply keeps_mk
    | with_reducible apply And.intro
    | exact Or.inl (within_bit _ rfl hm)
    | exact Or.inr rfl

theorem reacquired_keeps {μ : Nat} {s0 : State} (s : State)  (hk : Keeps μ s0 s) (hm : Within 0x8404521 μ := by exact within_trans rfl (by assumption)) : Keeps μ s0 (reacquired s) := by
  unfold reacquired
  try dsimp only
  repeat' first
    | with_reducible assumption
    | exact within_trans rfl hm
    | with_reducible apply modSpn_keeps
    | with_reducible apply setPhase_keeps
    | with_reducible apply keeps_ite
    | split
    | (intro)
    | with_reducible apply keeps_mk
    | with_reducible apply And.intro
    | exact Or.inl (within_bit _ rfl hm)
    | exact Or.inr rfl

theorem handOver_keeps {μ : Nat} {s0 : State} (bad : Bool) (s : State)  (hk : Keeps μ s0 s) (hm : Within 0x8404521 μ := by exact within_trans rfl (by assumption)) : Keeps μ s0 (handOver bad s) := by
  unfold handOver
  try dsimp only
  repeat' first
    | with_reducible assumption
    | exact within_trans rfl hm
    | with_reducible apply modSpn_keeps
    | with_reducible apply setSync_keeps
    | with_reducible apply setPhase_keeps
    | with_reducible apply keeps_ite
    | split
    | (intro)
    | with_reducible apply keeps_mk
    | with_reducible apply And.intro
    | exact Or.inl (within_bit _ rfl hm)
    | exact Or.inr rfl

theorem crossingAt_keeps {μ : Nat} {s0 : State} (t : Rat) (s : State)  (hk : Keeps μ s0 s) (hm : Within 0x20b544521 μ := by exact within_trans rfl (by assumption)) : Keeps μ s0 (crossingAt t s) := by
  unfold crossingAt
  try dsimp only
  repeat' first
    | with_reducible assumption
    | exact within_trans rfl hm
    | with_reducible apply gauge_keeps
    | with_reducible apply modSpn_keeps
    | with_reducible apply updateAttgt_keeps
    | with_reducible apply judgeCrossing_keeps
    | with_reducible apply setLead_keeps
    | with_reducible apply showSpeed_keeps
    | with_reducible apply learnMoff_keeps
    | with_reducible apply reacquired_keeps
    | with_reducible apply handOver_keeps
    | with_reducible apply keeps_ite
    | split
    | (intro)
    | with_reducible apply keeps_mk
    | with_reducible apply And.intro
    | exact Or.inl (within_bit _ rfl hm)
    | exact Or.inr rfl

theorem bemfCrossing_keeps {μ : Nat} {s0 : State} (p q : BemfPair) (s : State)  (hk : Keeps μ s0 s) (hm : Within 0x20b544521 μ := by exact within_trans rfl (by assumption)) : Keeps μ s0 (bemfCrossing p q s) := by
  unfold bemfCrossing
  try dsimp only
  repeat' first
    | with_reducible assumption
    | exact within_trans rfl hm
    | with_reducible apply crossingAt_keeps
    | with_reducible apply keeps_ite
    | split
    | with_reducible apply keeps_mk
    | with_reducible apply And.intro
    | exact Or.inl (within_bit _ rfl hm)
    | exact Or.inr rfl

theorem commutate_keeps {μ : Nat} {s0 : State} (s : State)  (hk : Keeps μ s0 s) (hm : Within 0x400000 μ := by exact within_trans rfl (by assumption)) : Keeps μ s0 (commutate s) := by
  unfold commutate
  try dsimp only
  repeat' first
    | with_reducible assumption
    | exact within_trans rfl hm
    | with_reducible apply modSpn_keeps
    | with_reducible apply keeps_ite
    | split
    | (intro)
    | with_reducible apply keeps_mk
    | with_reducible apply And.intro
    | exact Or.inl (within_bit _ rfl hm)
    | exact Or.inr rfl

theorem missedCrossing_keeps {μ : Nat} {s0 : State} (s : State)  (hk : Keeps μ s0 s) (hm : Within 0x20b544521 μ := by exact within_trans rfl (by assumption)) : Keeps μ s0 (missedCrossing s) := by
  unfold missedCrossing
  try dsimp only
  repeat' first
    | with_reducible assumption
    | exact within_trans rfl hm
    | with_reducible apply modSpn_keeps
    | with_reducible apply judgeCrossing_keeps
    | with_reducible apply setLead_keeps
    | with_reducible apply commutate_keeps
    | with_reducible apply keeps_ite
    | split
    | (intro)
    | with_reducible apply keeps_mk
    | with_reducible apply And.intro
    | exact Or.inl (within_bit _ rfl hm)
    | exact Or.inr rfl

theorem obsFail_keeps {μ : Nat} {s0 : State} (s : State)  (hk : Keeps μ s0 s) (hm : Within 0x30b544f27 μ := by exact within_trans rfl (by assumption)) : Keeps μ s0 (obsFail s) := by
  unfold obsFail
  try dsimp only
  repeat' first
    | with_reducible assumption
    | exact within_trans rfl hm
    | with_reducible apply evt_keeps
    | with_reducible apply modSpn_keeps
    | with_reducible apply advanceTo_keeps
    | with_reducible apply countFail_keeps
    | with_reducible apply keeps_ite
    | split
    | refine keeps_snd (by with_reducible assumption) ?_
    | (intro)
    | with_reducible apply keeps_mk
    | with_reducible apply And.intro
    | exact Or.inl (within_bit _ rfl hm)
    | exact Or.inr rfl

theorem racqOk_keeps {μ : Nat} {s0 : State} (s : State)  (hk : Keeps μ s0 s) (hm : Within 0x504f27 μ := by exact within_trans rfl (by assumption)) : Keeps μ s0 (racqOk s) := by
  unfold racqOk
  try dsimp only
  repeat' first
    | with_reducible assumption
    | exact within_trans rfl hm
    | with_reducible apply evt_keeps
    | with_reducible apply modSpn_keeps
    | with_reducible apply setSync_keeps
    | with_reducible apply updateAttgt_keeps
    | with_reducible apply advanceTo_keeps
    | with_reducible apply keeps_ite
    | split
    | (intro)
    | with_reducible apply keeps_mk
    | with_reducible apply And.intro
    | exact Or.inl (within_bit _ rfl hm)
    | exact Or.inr rfl

theorem sluSpeed_keeps {μ : Nat} {s0 : State} (v : Rat) (s : State)  (hk : Keeps μ s0 s) (hm : Within 0x4520 μ := by exact within_trans rfl (by assumption)) : Keeps μ s0 (sluSpeed v s) := by
  unfold sluSpeed
  try dsimp only
  repeat' first
    | with_reducible assumption
    | exact within_trans rfl hm
    | with_reducible apply setBit_keeps
    | with_reducible apply evt_keeps
    | with_reducible apply sluAll_keeps
    | with_reducible apply keeps_ite
    | split

theorem reacqEdge_keeps {μ : Nat} {s0 : State} (back : Bool) (v : Rat) (s : State)  (hk : Keeps μ s0 s) (hm : Within 0x8404521 μ := by exact within_trans rfl (by assumption)) : Keeps μ s0 (reacqEdge back v s) := by
  unfold reacqEdge
  try dsimp only
  repeat' first
    | with_reducible assumption
    | exact within_trans rfl hm
    | with_reducible apply evt_keeps
    | with_reducible apply beginStart_keeps
    | with_reducible apply judge_keeps
    | with_reducible apply keeps_ite
    | split

theorem comparatorEdge_keeps {μ : Nat} {s0 : State} (back : Bool) (dt pos : Nat) (s : State)  (hk : Keeps μ s0 s) (hm : Within 0x8404521 μ := by exact within_trans rfl (by assumption)) : Keeps μ s0 (comparatorEdge back dt pos s) := by
  unfold comparatorEdge
  try dsimp only
  repeat' first
    | with_reducible assumption
    | exact within_trans rfl hm
    | with_reducible apply modSpn_keeps
    | with_reducible apply updateAttgt_keeps
    | with_reducible apply showSpeed_keeps
    | with_reducible apply sluSpeed_keeps
    | with_reducible apply reacqEdge_keeps
    | with_reducible apply keeps_ite
    | split
    | (intro)
    | with_reducible apply keeps_mk
    | with_reducible apply And.intro
    | exact Or.inl (within_bit _ rfl hm)
    | exact Or.inr rfl

theorem racqFail_keeps {μ : Nat} {s0 : State} (s : State)  (hk : Keeps μ s0 s) (hm : Within 0x30b544521 μ := by exact within_trans rfl (by assumption)) : Keeps μ s0 (racqFail s) := by
  unfold racqFail
  try dsimp only
  repeat' first
    | with_reducible assumption
    | exact within_trans rfl hm
    | with_reducible apply evt_keeps
    | with_reducible apply failAndRestart_keeps
    | with_reducible apply keeps_ite
    | split

theorem observeEnd_keeps {μ : Nat} {s0 : State} (s : State)  (hk : Keeps μ s0 s) (hm : Within 0x8404521 μ := by exact within_trans rfl (by assumption)) : Keeps μ s0 (observeEnd s) := by
  unfold observeEnd
  try dsimp only
  repeat' first
    | with_reducible assumption
    | exact within_trans rfl hm
    | with_reducible apply brake_keeps
    | with_reducible apply align_keeps
    | with_reducible apply judge_keeps
    | with_reducible apply keeps_ite
    | split

theorem alignEnd_keeps {μ : Nat} {s0 : State} (s : State)  (hk : Keeps μ s0 s) (hm : Within 0x8404521 μ := by exact within_trans rfl (by assumption)) : Keeps μ s0 (alignEnd s) := by
  unfold alignEnd
  try dsimp only
  repeat' first
    | with_reducible assumption
    | exact within_trans rfl hm
    | with_reducible apply modSpn_keeps
    | with_reducible apply setPhase_keeps
    | with_reducible apply keeps_ite
    | split
    | (intro)
    | with_reducible apply keeps_mk
    | with_reducible apply And.intro
    | exact Or.inl (within_bit _ rfl hm)
    | exact Or.inr rfl

theorem handoverTimeout_keeps {μ : Nat} {s0 : State} (s : State)  (hk : Keeps μ s0 s) (hm : Within 0x30b544521 μ := by exact within_trans rfl (by assumption)) : Keeps μ s0 (handoverTimeout s) := by
  unfold handoverTimeout
  try dsimp only
  repeat' first
    | with_reducible assumption
    | exact within_trans rfl hm
    | with_reducible apply modSpn_keeps
    | with_reducible apply brake_keeps
    | with_reducible apply failStart_keeps
    | with_reducible apply keeps_ite
    | split
    | (intro)
    | with_reducible apply keeps_mk
    | with_reducible apply And.intro
    | exact Or.inl (within_bit _ rfl hm)
    | exact Or.inr rfl

theorem startfail_keeps {μ : Nat} {s0 : State} (s : State)  (hk : Keeps μ s0 s) (hm : Within 0x30b544521 μ := by exact within_trans rfl (by assumption)) : Keeps μ s0 (startfail s) := by
  unfold startfail
  try dsimp only
  repeat' first
    | with_reducible assumption
    | exact within_trans rfl hm
    | with_reducible apply failStart_keeps
    | with_reducible apply keeps_ite
    | split
    | with_reducible apply keeps_mk
    | with_reducible apply And.intro
    | exact Or.inl (within_bit _ rfl hm)
    | exact Or.inr rfl

theorem failsClear_keeps {μ : Nat} {s0 : State} (s : State)  (hk : Keeps μ s0 s) (hm : Within 0x20 μ := by exact within_trans rfl (by assumption)) : Keeps μ s0 (failsClear s) := by
  unfold failsClear
  try dsimp only
  repeat' first
    | with_reducible assumption
    | exact within_trans rfl hm
    | with_reducible apply setF_keeps
    | with_reducible apply keeps_ite
    | split
    | with_reducible apply keeps_mk
    | with_reducible apply And.intro
    | exact Or.inl (within_bit _ rfl hm)
    | exact Or.inr rfl

theorem spnCommand_keeps {μ : Nat} {s0 : State} (op : Nat) (s : State)  (hk : Keeps μ s0 s) (hm : Within 0x8404521 μ := by exact within_trans rfl (by assumption)) : Keeps μ s0 (spnCommand op s) := by
  unfold spnCommand
  try dsimp only
  repeat' first
    | with_reducible assumption
    | exact within_trans rfl hm
    | with_reducible apply coast_keeps
    | with_reducible apply brakeStop_keeps
    | with_reducible apply runCommand_keeps
    | with_reducible apply updateAttgt_keeps
    | with_reducible apply keeps_ite
    | split
    | refine keeps_snd (by with_reducible assumption) ?_
    | with_reducible apply keeps_mk
    | with_reducible apply And.intro
    | exact Or.inl (within_bit _ rfl hm)
    | exact Or.inr rfl

theorem brakeQuiet_keeps {μ : Nat} {s0 : State} (s : State)  (hk : Keeps μ s0 s) (hm : Within 0x8404521 μ := by exact within_trans rfl (by assumption)) : Keeps μ s0 (brakeQuiet s) := by
  unfold brakeQuiet
  try dsimp only
  repeat' first
    | with_reducible assumption
    | exact within_trans rfl hm
    | with_reducible apply setPhase_keeps
    | with_reducible apply updateAttgt_keeps
    | with_reducible apply showSpeed_keeps
    | with_reducible apply keeps_ite
    | split

theorem holdEnd_keeps {μ : Nat} {s0 : State} (s : State)  (hk : Keeps μ s0 s) (hm : Within 0x8404521 μ := by exact within_trans rfl (by assumption)) : Keeps μ s0 (holdEnd s) := by
  unfold holdEnd
  try dsimp only
  repeat' first
    | with_reducible assumption
    | exact within_trans rfl hm
    | with_reducible apply evt_keeps
    | with_reducible apply setPhase_keeps
    | with_reducible apply align_keeps
    | with_reducible apply keeps_ite
    | split
    | with_reducible apply keeps_mk
    | with_reducible apply And.intro
    | exact Or.inl (within_bit _ rfl hm)
    | exact Or.inr rfl

theorem tgtWrite_keeps {μ : Nat} {s0 : State} (v : Nat) (s : State)  (hk : Keeps μ s0 s) (hm : Within 0x400120 μ := by exact within_trans rfl (by assumption)) : Keeps μ s0 (tgtWrite v s) := by
  unfold tgtWrite
  try dsimp only
  repeat' first
    | with_reducible assumption
    | exact within_trans rfl hm
    | with_reducible apply wrN_keeps
    | with_reducible apply evt_keeps
    | with_reducible apply updateAttgt_keeps
    | with_reducible apply keeps_ite
    | split

theorem dissipate_keeps {μ : Nat} {s0 : State} (s : State)  (hk : Keeps μ s0 s) (hm : Within 0x120 μ := by exact within_trans rfl (by assumption)) : Keeps μ s0 (dissipate s) := by
  unfold dissipate
  try dsimp only
  repeat' first
    | with_reducible assumption
    | exact within_trans rfl hm
    | with_reducible apply setBit_keeps
    | with_reducible apply evt_keeps
    | with_reducible apply keeps_ite
    | split

theorem applyDuty_keeps {μ : Nat} {s0 : State} (cmd i : Rat) (s : State)  (hk : Keeps μ s0 s) (hm : Within 0x400020 μ := by exact within_trans rfl (by assumption)) : Keeps μ s0 (applyDuty cmd i s) := by
  unfold applyDuty
  try dsimp only
  repeat' first
    | with_reducible assumption
    | exact within_trans rfl hm
    | with_reducible apply setF_keeps
    | with_reducible apply modSpn_keeps
    | with_reducible apply keeps_ite
    | split
    | (intro)
    | with_reducible apply keeps_mk
    | with_reducible apply And.intro
    | exact Or.inl (within_bit _ rfl hm)
    | exact Or.inr rfl

theorem weirOutput_keeps {μ : Nat} {s0 : State} (s : State)  (hk : Keeps μ s0 s) (hm : Within 0x400020 μ := by exact within_trans rfl (by assumption)) : Keeps μ s0 (weirOutput s) := by
  unfold weirOutput
  try dsimp only
  repeat' first
    | with_reducible assumption
    | exact within_trans rfl hm
    | with_reducible apply setBit_keeps
    | with_reducible apply wrN_keeps
    | with_reducible apply wrapInc_keeps
    | with_reducible apply wrFp_keeps
    | with_reducible apply modSpn_keeps
    | with_reducible apply endDissipative_keeps
    | with_reducible apply keeps_ite
    | split
    | (intro)
    | with_reducible apply keeps_mk
    | with_reducible apply And.intro
    | exact Or.inl (within_bit _ rfl hm)
    | exact Or.inr rfl

theorem periodDuty_keeps {μ : Nat} {s0 : State} (i : Rat) (s : State)  (hk : Keeps μ s0 s) (hm : Within 0x400020 μ := by exact within_trans rfl (by assumption)) : Keeps μ s0 (periodDuty i s) := by
  unfold periodDuty
  try dsimp only
  repeat' first
    | with_reducible assumption
    | exact within_trans rfl hm
    | with_reducible apply setF_keeps
    | with_reducible apply wrN_keeps
    | with_reducible apply applyDuty_keeps
    | with_reducible apply keeps_ite
    | split

theorem newPeriod_keeps {μ : Nat} {s0 : State} (s : State)  (hk : Keeps μ s0 s) (hm : Within 0x400000 μ := by exact within_trans rfl (by assumption)) : Keeps μ s0 (newPeriod s) := by
  unfold newPeriod
  try dsimp only
  repeat' first
    | with_reducible assumption
    | exact within_trans rfl hm
    | with_reducible apply modSpn_keeps
    | (intro)
    | with_reducible apply keeps_mk
    | with_reducible apply And.intro
    | exact Or.inl (within_bit _ rfl hm)
    | exact Or.inr rfl

theorem weirSample_keeps {μ : Nat} {s0 : State} (v12 i12 iph : Nat) (s : State)  (hk : Keeps μ s0 s) (hm : Within 0x400020 μ := by exact within_trans rfl (by assumption)) : Keeps μ s0 (weirSample v12 i12 iph s) := by
  unfold weirSample
  try dsimp only
  repeat' first
    | with_reducible assumption
    | exact within_trans rfl hm
    | with_reducible apply wrN_keeps
    | with_reducible apply weirOutput_keeps
    | with_reducible apply periodDuty_keeps
    | with_reducible apply newPeriod_keeps

theorem ilimpk_keeps {μ : Nat} {s0 : State} (s : State)  (hk : Keeps μ s0 s) (hm : Within 0x400120 μ := by exact within_trans rfl (by assumption)) : Keeps μ s0 (ilimpk s) := by
  unfold ilimpk
  try dsimp only
  repeat' first
    | with_reducible assumption
    | exact within_trans rfl hm
    | with_reducible apply satInc_keeps
    | with_reducible apply evt_keeps
    | with_reducible apply modSpn_keeps
    | with_reducible apply keeps_ite
    | split
    | (intro)
    | with_reducible apply keeps_mk
    | with_reducible apply And.intro
    | exact Or.inl (within_bit _ rfl hm)
    | exact Or.inr rfl

theorem weirWrite_keeps {μ : Nat} {s0 : State} (k v : Nat) (s : State)  (hk : Keeps μ s0 s) (hm : Within 0x120 μ := by exact within_trans rfl (by assumption)) : Keeps μ s0 (weirWrite k v s) := by
  unfold weirWrite
  try dsimp only
  repeat' first
    | with_reducible assumption
    | exact within_trans rfl hm
    | with_reducible apply wrN_keeps
    | with_reducible apply evt_keeps
    | with_reducible apply keeps_ite
    | split
    | with_reducible apply keeps_mk
    | with_reducible apply And.intro
    | exact Or.inl (within_bit _ rfl hm)
    | exact Or.inr rfl

end Sys2Proof.Machine
end

