-- ==== Sys2Proof/Laws/KeepsBus.lean ====
section
/-! SUPPORT. The operations of Bus.lean keep the queue and the canonical stores. -/

set_option Elab.async false

namespace Sys2Proof.Machine

theorem whenDo_keeps {μ : Nat} {s0 : State} (c : Bool) (f : State → State) (s : State)  (h_f : ∀  t, Keeps μ s0 t → Keeps μ s0 (f  t)) (hk : Keeps μ s0 s) (_hm : Within 0x0 μ := by exact within_trans rfl (by assumption)) : Keeps μ s0 (whenDo c f s) := by
  unfold whenDo
  try dsimp only
  repeat' first
    | with_reducible assumption
    | exact within_trans rfl hm
    | with_reducible apply h_f
    | with_reducible apply keeps_ite
    | split

theorem writeSys_keeps {μ : Nat} {s0 : State} (a v : Nat) (s : State)  (hk : Keeps μ s0 s) (hm : Within 0x30b5e4d61 μ := by exact within_trans rfl (by assumption)) : Keeps μ s0 (writeSys a v s) := by
  unfold writeSys
  try dsimp only
  repeat' first
    | with_reducible assumption
    | exact within_trans rfl hm
    | with_reducible apply plainWrite_keeps
    | with_reducible apply mreqWrite_keeps
    | with_reducible apply safeHold_keeps
    | with_reducible apply holdActuator_keeps
    | with_reducible apply clearActuator_keeps
    | with_reducible apply laneClear_keeps
    | with_reducible apply whenDo_keeps
    | with_reducible apply keeps_ite
    | split
    | (intro)

theorem writeEcc_keeps {μ : Nat} {s0 : State} (a v : Nat) (s : State)  (hk : Keeps μ s0 s) (hm : Within 0x20 μ := by exact within_trans rfl (by assumption)) : Keeps μ s0 (writeEcc a v s) := by
  unfold writeEcc
  try dsimp only
  repeat' first
    | with_reducible assumption
    | exact within_trans rfl hm
    | with_reducible apply plainWrite_keeps
    | with_reducible apply celClear_keeps
    | with_reducible apply showScrub_keeps
    | with_reducible apply keeps_ite
    | split

theorem cchCtlWrite_keeps {μ : Nat} {s0 : State} (v : Nat) (s : State)  (hk : Keeps μ s0 s) (hm : Within 0x30000061 μ := by exact within_trans rfl (by assumption)) : Keeps μ s0 (cchCtlWrite v s) := by
  unfold cchCtlWrite
  try dsimp only
  repeat' first
    | with_reducible assumption
    | exact within_trans rfl hm
    | with_reducible apply setBit_keeps
    | with_reducible apply plainWrite_keeps
    | with_reducible apply l2enClear_keeps
    | with_reducible apply l2enSet_keeps
    | with_reducible apply basinenClear_keeps
    | with_reducible apply keeps_ite
    | split

theorem wdCtlWrite_keeps {μ : Nat} {s0 : State} (v : Nat) (s : State)  (hk : Keeps μ s0 s) (hm : Within 0x20000020 μ := by exact within_trans rfl (by assumption)) : Keeps μ s0 (wdCtlWrite v s) := by
  unfold wdCtlWrite
  try dsimp only
  repeat' first
    | with_reducible assumption
    | exact within_trans rfl hm
    | with_reducible apply plainWrite_keeps
    | with_reducible apply modCch_keeps
    | with_reducible apply keeps_ite
    | split
    | (intro)
    | with_reducible apply keeps_mk
    | with_reducible apply And.intro
    | exact Or.inl (within_bit _ rfl hm)
    | exact Or.inr rfl

theorem writeCch_keeps {μ : Nat} {s0 : State} (c a v : Nat) (s : State)  (hk : Keeps μ s0 s) (hm : Within 0x30000161 μ := by exact within_trans rfl (by assumption)) : Keeps μ s0 (writeCch c a v s) := by
  unfold writeCch
  try dsimp only
  repeat' first
    | with_reducible assumption
    | exact within_trans rfl hm
    | with_reducible apply plainWrite_keeps
    | with_reducible apply ncWrite_keeps
    | with_reducible apply wdKick_keeps
    | with_reducible apply cchCtlWrite_keeps
    | with_reducible apply wdCtlWrite_keeps
    | with_reducible apply keeps_ite
    | split

theorem writeCis_keeps {μ : Nat} {s0 : State} (a v : Nat) (s : State)  (hk : Keeps μ s0 s) (hm : Within 0x8080171 μ := by exact within_trans rfl (by assumption)) : Keeps μ s0 (writeCis a v s) := by
  unfold writeCis
  try dsimp only
  repeat' first
    | with_reducible assumption
    | exact within_trans rfl hm
    | with_reducible apply wrN_keeps
    | with_reducible apply plainWrite_keeps
    | with_reducible apply cisFreeWrite_keeps
    | with_reducible apply cisCtlWrite_keeps
    | with_reducible apply keeps_ite
    | split

theorem writeRunnel_keeps {μ : Nat} {s0 : State} (a v : Nat) (s : State)  (hk : Keeps μ s0 s) (hm : Within 0x48080160 μ := by exact within_trans rfl (by assumption)) : Keeps μ s0 (writeRunnel a v s) := by
  unfold writeRunnel
  try dsimp only
  repeat' first
    | with_reducible assumption
    | exact within_trans rfl hm
    | with_reducible apply plainWrite_keeps
    | with_reducible apply afterRunnel_keeps
    | with_reducible apply runCmd_keeps
    | with_reducible apply whenDo_keeps
    | with_reducible apply keeps_ite
    | split
    | (intro)

theorem ethCtlWrite_keeps {μ : Nat} {s0 : State} (p v : Nat) (s : State)  (hk : Keeps μ s0 s) (hm : Within 0x48080160 μ := by exact within_trans rfl (by assumption)) : Keeps μ s0 (ethCtlWrite p v s) := by
  unfold ethCtlWrite
  try dsimp only
  repeat' first
    | with_reducible assumption
    | exact within_trans rfl hm
    | with_reducible apply plainWrite_keeps
    | with_reducible apply portDisable_keeps
    | with_reducible apply whenDo_keeps
    | with_reducible apply keeps_ite
    | split
    | (intro)

theorem ptpAdjWrite_keeps {μ : Nat} {s0 : State} (v : Nat) (s : State)  (hk : Keeps μ s0 s) (hm : Within 0x20 μ := by exact within_trans rfl (by assumption)) : Keeps μ s0 (ptpAdjWrite v s) := by
  unfold ptpAdjWrite
  try dsimp only
  repeat' first
    | with_reducible assumption
    | exact within_trans rfl hm
    | with_reducible apply wrN_keeps
    | with_reducible apply keeps_ite
    | split

theorem writeEth_keeps {μ : Nat} {s0 : State} (p a v : Nat) (s : State)  (hk : Keeps μ s0 s) (hm : Within 0x248080171 μ := by exact within_trans rfl (by assumption)) : Keeps μ s0 (writeEth p a v s) := by
  unfold writeEth
  try dsimp only
  repeat' first
    | with_reducible assumption
    | exact within_trans rfl hm
    | with_reducible apply plainWrite_keeps
    | with_reducible apply failPort_keeps
    | with_reducible apply portBack_keeps
    | with_reducible apply anadvWrite_keeps
    | with_reducible apply msLoad_keeps
    | with_reducible apply showTxpn_keeps
    | with_reducible apply fwTx_keeps
    | with_reducible apply etsWrite_keeps
    | with_reducible apply whenDo_keeps
    | with_reducible apply ethCtlWrite_keeps
    | with_reducible apply ptpAdjWrite_keeps
    | with_reducible apply keeps_ite
    | split
    | (intro)

theorem writeNqe_keeps {μ : Nat} {s0 : State} (a v : Nat) (s : State)  (hk : Keeps μ s0 s) (hm : Within 0x20bce45e1 μ := by exact within_trans rfl (by assumption)) : Keeps μ s0 (writeNqe a v s) := by
  unfold writeNqe
  try dsimp only
  repeat' first
    | with_reducible assumption
    | exact within_trans rfl hm
    | with_reducible apply setBit_keeps
    | with_reducible apply plainWrite_keeps
    | with_reducible apply holdFetch_keeps
    | with_reducible apply releaseFetch_keeps
    | with_reducible apply keeps_ite
    | split

theorem writeCph_keeps {μ : Nat} {s0 : State} (a v : Nat) (s : State)  (hk : Keeps μ s0 s) (hm : Within 0x40000121 μ := by exact within_trans rfl (by assumption)) : Keeps μ s0 (writeCph a v s) := by
  unfold writeCph
  try dsimp only
  repeat' first
    | with_reducible assumption
    | exact within_trans rfl hm
    | with_reducible apply wrN_keeps
    | with_reducible apply plainWrite_keeps
    | with_reducible apply keyLoad_keeps
    | with_reducible apply keyEnd_keeps
    | with_reducible apply cphCtlWrite_keeps
    | with_reducible apply keeps_ite
    | split
    | with_reducible apply keeps_mk
    | with_reducible apply And.intro
    | exact Or.inl (within_bit _ rfl hm)
    | exact Or.inr rfl

theorem writeAng_keeps {μ : Nat} {s0 : State} (a v : Nat) (s : State)  (hk : Keeps μ s0 s) (hm : Within 0x104f21 μ := by exact within_trans rfl (by assumption)) : Keeps μ s0 (writeAng a v s) := by
  unfold writeAng
  try dsimp only
  repeat' first
    | with_reducible assumption
    | exact within_trans rfl hm
    | with_reducible apply plainWrite_keeps
    | with_reducible apply flushSlot_keeps
    | with_reducible apply skewWrite_keeps
    | with_reducible apply whenDo_keeps
    | with_reducible apply keeps_ite
    | split
    | (intro)

theorem writeTsq_keeps {μ : Nat} {s0 : State} (q a v : Nat) (s : State)  (hk : Keeps μ s0 s) (hm : Within 0x14120 μ := by exact within_trans rfl (by assumption)) : Keeps μ s0 (writeTsq q a v s) := by
  unfold writeTsq
  try dsimp only
  repeat' first
    | with_reducible assumption
    | exact within_trans rfl hm
    | with_reducible apply plainWrite_keeps
    | with_reducible apply tsqKill_keeps
    | with_reducible apply preq_keeps
    | with_reducible apply ldCommand_keeps
    | with_reducible apply tsqCtlWrite_keeps
    | with_reducible apply keeps_ite
    | split

theorem writeLane_keeps {μ : Nat} {s0 : State} (a v : Nat) (s : State)  (hk : Keeps μ s0 s) (hm : Within 0x20 μ := by exact within_trans rfl (by assumption)) : Keeps μ s0 (writeLane a v s) := by
  unfold writeLane
  try dsimp only
  repeat' first
    | with_reducible assumption
    | exact within_trans rfl hm
    | with_reducible apply plainWrite_keeps
    | with_reducible apply keeps_ite
    | split

theorem srvCtlWrite_keeps {μ : Nat} {s0 : State} (k v : Nat) (s : State)  (hk : Keeps μ s0 s) (hm : Within 0x104520 μ := by exact within_trans rfl (by assumption)) : Keeps μ s0 (srvCtlWrite k v s) := by
  unfold srvCtlWrite
  try dsimp only
  repeat' first
    | with_reducible assumption
    | exact within_trans rfl hm
    | with_reducible apply plainWrite_keeps
    | with_reducible apply modSrv_keeps
    | with_reducible apply writeAnchor_keeps
    | with_reducible apply srvEnWrite_keeps
    | with_reducible apply keeps_ite
    | split
    | exact fun _ h => h
    | exact fun _ h => by simpa [Tsq.sized, Ctx.sized, Srv.sized, NetState.sized, AngState.sized, modAt_length, modAt_all] using h
    | (intro)
    | with_reducible apply keeps_mk
    | with_reducible apply And.intro
    | exact Or.inl (within_bit _ rfl hm)
    | exact Or.inr rfl
    | assumption

theorem injCtlWrite_keeps {μ : Nat} {s0 : State} (k v : Nat) (s : State)  (hk : Keeps μ s0 s) (hm : Within 0x104521 μ := by exact within_trans rfl (by assumption)) : Keeps μ s0 (injCtlWrite k v s) := by
  unfold injCtlWrite
  try dsimp only
  repeat' first
    | with_reducible assumption
    | exact within_trans rfl hm
    | with_reducible apply plainWrite_keeps
    | with_reducible apply injGo_keeps
    | with_reducible apply injStop_keeps
    | with_reducible apply whenDo_keeps
    | with_reducible apply keeps_ite
    | split
    | (intro)

theorem capCtlWrite_keeps {μ : Nat} {s0 : State} (k v : Nat) (s : State)  (hk : Keeps μ s0 s) (hm : Within 0x100120 μ := by exact within_trans rfl (by assumption)) : Keeps μ s0 (capCtlWrite k v s) := by
  unfold capCtlWrite
  try dsimp only
  repeat' first
    | with_reducible assumption
    | exact within_trans rfl hm
    | with_reducible apply plainWrite_keeps
    | with_reducible apply captureGo_keeps
    | with_reducible apply captureStop_keeps
    | with_reducible apply keeps_ite
    | split

theorem writeSrv_keeps {μ : Nat} {s0 : State} (a v : Nat) (s : State)  (hk : Keeps μ s0 s) (hm : Within 0x104521 μ := by exact within_trans rfl (by assumption)) : Keeps μ s0 (writeSrv a v s) := by
  unfold writeSrv
  try dsimp only
  repeat' first
    | with_reducible assumption
    | exact within_trans rfl hm
    | with_reducible apply plainWrite_keeps
    | with_reducible apply bankSwap_keeps
    | with_reducible apply windowWrite_keeps
    | with_reducible apply whenDo_keeps
    | with_reducible apply srvCtlWrite_keeps
    | with_reducible apply injCtlWrite_keeps
    | with_reducible apply capCtlWrite_keeps
    | with_reducible apply keeps_ite
    | split
    | (intro)

theorem writeSpn_keeps {μ : Nat} {s0 : State} (a v : Nat) (s : State)  (hk : Keeps μ s0 s) (hm : Within 0x8404521 μ := by exact within_trans rfl (by assumption)) : Keeps μ s0 (writeSpn a v s) := by
  unfold writeSpn
  try dsimp only
  repeat' first
    | with_reducible assumption
    | exact within_trans rfl hm
    | with_reducible apply plainWrite_keeps
    | with_reducible apply coast_keeps
    | with_reducible apply spnCommand_keeps
    | with_reducible apply tgtWrite_keeps
    | with_reducible apply whenDo_keeps
    | with_reducible apply keeps_ite
    | split
    | (intro)

theorem writeWeir_keeps {μ : Nat} {s0 : State} (a v : Nat) (s : State)  (hk : Keeps μ s0 s) (hm : Within 0x120 μ := by exact within_trans rfl (by assumption)) : Keeps μ s0 (writeWeir a v s) := by
  unfold writeWeir
  try dsimp only
  repeat' first
    | with_reducible assumption
    | exact within_trans rfl hm
    | with_reducible apply plainWrite_keeps
    | with_reducible apply weirWrite_keeps
    | split
    | (intro)
    | with_reducible apply keeps_mk
    | with_reducible apply And.intro
    | exact Or.inl (within_bit _ rfl hm)
    | exact Or.inr rfl

theorem writeSlu_keeps {μ : Nat} {s0 : State} (a v : Nat) (s : State)  (hk : Keeps μ s0 s) (hm : Within 0x1020120 μ := by exact within_trans rfl (by assumption)) : Keeps μ s0 (writeSlu a v s) := by
  unfold writeSlu
  try dsimp only
  repeat' first
    | with_reducible assumption
    | exact within_trans rfl hm
    | with_reducible apply plainWrite_keeps
    | with_reducible apply limitWrite_keeps
    | with_reducible apply workingWrite_keeps
    | with_reducible apply wguardWrite_keeps
    | with_reducible apply keeps_ite
    | split

theorem writeThm_keeps {μ : Nat} {s0 : State} (a v : Nat) (s : State)  (hk : Keeps μ s0 s) (hm : Within 0x1000120 μ := by exact within_trans rfl (by assumption)) : Keeps μ s0 (writeThm a v s) := by
  unfold writeThm
  try dsimp only
  repeat' first
    | with_reducible assumption
    | exact within_trans rfl hm
    | with_reducible apply wrN_keeps
    | with_reducible apply plainWrite_keeps
    | with_reducible apply ladder_keeps
    | with_reducible apply thrWrite_keeps
    | with_reducible apply i5limWrite_keeps
    | with_reducible apply keeps_ite
    | split

theorem writeCal_keeps {μ : Nat} {s0 : State} (a v : Nat) (s : State)  (hk : Keeps μ s0 s) (hm : Within 0x30b444521 μ := by exact within_trans rfl (by assumption)) : Keeps μ s0 (writeCal a v s) := by
  unfold writeCal
  try dsimp only
  repeat' first
    | with_reducible assumption
    | exact within_trans rfl hm
    | with_reducible apply plainWrite_keeps
    | with_reducible apply calGo_keeps
    | with_reducible apply whenDo_keeps
    | with_reducible apply keeps_ite
    | split
    | (intro)

theorem gaugeWrite_keeps {μ : Nat} {s0 : State} (a v : Nat) (s : State)  (hk : Keeps μ s0 s) (hm : Within 0x120 μ := by exact within_trans rfl (by assumption)) : Keeps μ s0 (gaugeWrite a v s) := by
  unfold gaugeWrite
  try dsimp only
  repeat' first
    | with_reducible assumption
    | exact within_trans rfl hm
    | with_reducible apply plainWrite_keeps
    | with_reducible apply gaugeClear_keeps
    | with_reducible apply keeps_ite
    | split

theorem writeEvr_keeps {μ : Nat} {s0 : State} (a v : Nat) (s : State)  (hk : Keeps μ s0 s) (hm : Within 0x120 μ := by exact within_trans rfl (by assumption)) : Keeps μ s0 (writeEvr a v s) := by
  unfold writeEvr
  try dsimp only
  repeat' first
    | with_reducible assumption
    | exact within_trans rfl hm
    | with_reducible apply plainWrite_keeps
    | with_reducible apply programmed_keeps
    | with_reducible apply channelWrite_keeps
    | with_reducible apply gaugeClear_keeps
    | with_reducible apply gaugeWrite_keeps
    | with_reducible apply keeps_ite
    | split

theorem writeIdn_keeps {μ : Nat} {s0 : State} (a v : Nat) (s : State)  (hk : Keeps μ s0 s) (hm : Within 0x802000120 μ := by exact within_trans rfl (by assumption)) : Keeps μ s0 (writeIdn a v s) := by
  unfold writeIdn
  try dsimp only
  repeat' first
    | with_reducible assumption
    | exact within_trans rfl hm
    | with_reducible apply plainWrite_keeps
    | with_reducible apply idnCommand_keeps
    | with_reducible apply keeps_ite
    | split

theorem tstCmdWrite_keeps {μ : Nat} {s0 : State} (n v : Nat) (s : State)  (hk : Keeps μ s0 s) (hm : Within 0x3080001e1 μ := by exact within_trans rfl (by assumption)) : Keeps μ s0 (tstCmdWrite n v s) := by
  unfold tstCmdWrite
  try dsimp only
  repeat' first
    | with_reducible assumption
    | exact within_trans rfl hm
    | with_reducible apply drawFree_keeps
    | with_reducible apply tstGo_keeps
    | with_reducible apply tstStop_keeps
    | with_reducible apply whenDo_keeps
    | with_reducible apply keeps_ite
    | split
    | refine keeps_snd (by with_reducible assumption) ?_
    | (intro)

theorem writeTst_keeps {μ : Nat} {s0 : State} (a v : Nat) (s : State)  (hk : Keeps μ s0 s) (hm : Within 0x3080001e1 μ := by exact within_trans rfl (by assumption)) : Keeps μ s0 (writeTst a v s) := by
  unfold writeTst
  try dsimp only
  repeat' first
    | with_reducible assumption
    | exact within_trans rfl hm
    | with_reducible apply plainWrite_keeps
    | with_reducible apply whenDo_keeps
    | with_reducible apply tstCmdWrite_keeps
    | with_reducible apply keeps_ite
    | split
    | (intro)

theorem writeNoi_keeps {μ : Nat} {s0 : State} (a v : Nat) (s : State)  (hk : Keeps μ s0 s) (hm : Within 0x4000120 μ := by exact within_trans rfl (by assumption)) : Keeps μ s0 (writeNoi a v s) := by
  unfold writeNoi
  try dsimp only
  repeat' first
    | with_reducible assumption
    | exact within_trans rfl hm
    | with_reducible apply plainWrite_keeps
    | with_reducible apply showServes_keeps
    | with_reducible apply fwReply_keeps
    | with_reducible apply ntfy_keeps
    | with_reducible apply keeps_ite
    | split

theorem writeSec_keeps {μ : Nat} {s0 : State} (a v : Nat) (s : State)  (hk : Keeps μ s0 s) (hm : Within 0x800120 μ := by exact within_trans rfl (by assumption)) : Keeps μ s0 (writeSec a v s) := by
  unfold writeSec
  try dsimp only
  repeat' first
    | with_reducible assumption
    | exact within_trans rfl hm
    | with_reducible apply setBit_keeps
    | with_reducible apply plainWrite_keeps
    | with_reducible apply modSec_keeps
    | with_reducible apply khProg_keeps
    | with_reducible apply revCmd_keeps
    | with_reducible apply arbAdv_keeps
    | with_reducible apply vCmd_keeps
    | with_reducible apply sgCmd_keeps
    | with_reducible apply whenDo_keeps
    | with_reducible apply keeps_ite
    | split
    | exact fun _ => OtpGrows.mk (Nat.le_refl _) (fun _ h => h)
    | (intro)
    | with_reducible apply keeps_mk
    | with_reducible apply And.intro
    | exact Or.inl (within_bit _ rfl hm)
    | exact Or.inr rfl

theorem writeZtb_keeps {μ : Nat} {s0 : State} (a v : Nat) (s : State)  (hk : Keeps μ s0 s) (hm : Within 0x2080e4560 μ := by exact within_trans rfl (by assumption)) : Keeps μ s0 (writeZtb a v s) := by
  unfold writeZtb
  try dsimp only
  repeat' first
    | with_reducible assumption
    | exact within_trans rfl hm
    | with_reducible apply wrN_keeps
    | with_reducible apply plainWrite_keeps
    | with_reducible apply evt_keeps
    | with_reducible apply btWrite_keeps
    | with_reducible apply btLoad_keeps
    | with_reducible apply nzoneWrite_keeps
    | with_reducible apply ztbCtlWrite_keeps
    | with_reducible apply zcmdWrite_keeps
    | with_reducible apply slack_keeps
    | with_reducible apply opack_keeps
    | with_reducible apply rcmd_keeps
    | with_reducible apply rewrapGo_keeps
    | with_reducible apply rewrapAbort_keeps
    | with_reducible apply rwAck_keeps
    | with_reducible apply whenDo_keeps
    | with_reducible apply keeps_ite
    | split
    | (intro)

theorem halfWrite_keeps {μ : Nat} {s0 : State} (a : Nat) (high : Bool) (v : Nat) (f : Nat → State → State) (s : State)  (h_f : ∀ y0 t, Keeps μ s0 t → Keeps μ s0 (f y0 t)) (hk : Keeps μ s0 s) (_hm : Within 0x0 μ := by exact within_trans rfl (by assumption)) : Keeps μ s0 (halfWrite a high v f s) := by
  unfold halfWrite
  try dsimp only
  repeat' first
    | with_reducible assumption
    | exact within_trans rfl hm
    | with_reducible apply h_f
    | with_reducible apply keeps_ite
    | split

theorem writeBlock_keeps {μ : Nat} {s0 : State} (c a v : Nat) (s : State) (hk : Keeps μ s0 s) 
    (hm : Within 0xb7fdf4ff1 μ := by exact within_trans rfl (by assumption)) :
    Keeps μ s0 (writeBlock c a v s) := by
  unfold writeBlock
  split
  · exact writeSys_keeps _ _ _ hk
  · exact writeEcc_keeps _ _ _ hk
  · exact writeCch_keeps _ _ _ _ hk
  · exact writeCis_keeps _ _ _ hk
  · exact writeRunnel_keeps _ _ _ hk
  · exact writeEth_keeps _ _ _ _ hk
  · exact writeEth_keeps _ _ _ _ hk
  · exact writeNqe_keeps _ _ _ hk
  · exact writeCph_keeps _ _ _ hk
  · exact writeAng_keeps _ _ _ hk
  · exact writeTsq_keeps _ _ _ _ hk
  · exact writeTsq_keeps _ _ _ _ hk
  · exact writeLane_keeps _ _ _ hk
  · exact writeSrv_keeps _ _ _ hk
  · exact writeSpn_keeps _ _ _ hk
  · exact writeWeir_keeps _ _ _ hk
  · exact writeSlu_keeps _ _ _ hk
  · exact writeThm_keeps _ _ _ hk
  · exact writeCal_keeps _ _ _ hk
  · exact writeEvr_keeps _ _ _ hk
  · exact writeIdn_keeps _ _ _ hk
  · exact writeTst_keeps _ _ _ hk
  · exact writeNoi_keeps _ _ _ hk
  · exact writeSec_keeps _ _ _ hk
  · exact writeZtb_keeps _ _ _ hk
  · exact hk

/-- A 64-bit register write keeps what it starts from. -/
theorem wideOp_keeps {μ : Nat} {s0 : State} {a : Nat} {f : Nat → State → State} (e : wideOp a = some f) (v : Nat)
    (s : State) (hk : Keeps μ s0 s) (hm : Within 0xb7fdf4ff1 μ := by exact within_trans rfl (by assumption)) : Keeps μ s0 (f v s) := by
  unfold wideOp at e
  split at e <;> simp only [Option.some.injEq, reduceCtorEq] at e <;> subst e
  · exact eccInj_keeps _ _ hk
  · exact cisGiveWrite_keeps _ _ hk
  · exact msTxpnWrite_keeps _ _ _ hk
  · exact msTxpnWrite_keeps _ _ _ hk
  · exact ptpStep_keeps _ _ hk
  · exact cplpost_keeps _ _ hk
  · exact postJob_keeps _ _ hk
  · exact angQpost_keeps _ _ hk
  · exact fwPost_keeps _ _ _ hk
  · exact fwPost_keeps _ _ _ hk
  · exact mapin_keeps _ _ hk

theorem writeWord_keeps {μ : Nat} {s0 : State} (c a v : Nat) (s : State) (hk : Keeps μ s0 s) 
    (hm : Within 0xb7fdf4ff1 μ := by exact within_trans rfl (by assumption)) :
    Keeps μ s0 (writeWord c a v s) := by
  unfold writeWord
  split
  · rename_i f e
    exact halfWrite_keeps _ _ _ _ _ (fun _ _ h => wideOp_keeps e _ _ h) hk
  · split
    · rename_i f e
      split at e
      · exact halfWrite_keeps _ _ _ _ _ (fun _ _ h => wideOp_keeps e _ _ h) hk
      · simp at e
    · exact writeBlock_keeps _ _ _ _ hk

theorem writeDouble_keeps {μ : Nat} {s0 : State} (c a v : Nat) (s : State) (hk : Keeps μ s0 s) 
    (hm : Within 0xb7fdf4ff1 μ := by exact within_trans rfl (by assumption)) :
    Keeps μ s0 (writeDouble c a v s) := by
  unfold writeDouble
  split
  · rename_i f e
    exact wideOp_keeps e _ _ hk
  · exact writeWord_keeps _ _ _ _ (writeWord_keeps _ _ _ _ hk)

theorem registerWrite_keeps {μ : Nat} {s0 : State} (c a : Nat) (size : AccessSize) (v : Nat) (s : State)  (hk : Keeps μ s0 s) (hm : Within 0xb7fdf4ff1 μ := by exact within_trans rfl (by assumption)) : Keeps μ s0 (registerWrite c a size v s) := by
  unfold registerWrite
  try dsimp only
  repeat' first
    | with_reducible assumption
    | exact within_trans rfl hm
    | with_reducible apply busOk_keeps
    | with_reducible apply busFault_keeps
    | with_reducible apply writeWord_keeps
    | with_reducible apply writeDouble_keeps
    | with_reducible apply keeps_ite
    | split
    | with_reducible apply keeps_mk
    | with_reducible apply And.intro
    | exact Or.inl (within_bit _ rfl hm)
    | exact Or.inr rfl

end Sys2Proof.Machine
end

