-- ==== Sys2Proof/Laws/KeepsIdle.lean ====
section
/-! SUPPORT. The operations of Idle.lean keep the queue and the canonical stores. -/

set_option Elab.async false

namespace Sys2Proof.Machine

theorem idle_keeps {μ : Nat} {s0 : State} (s : State)  (hk : Keeps μ s0 s) (hm : Within 0x2095e4f67 μ := by exact within_trans rfl (by assumption)) : Keeps μ s0 (idle s) := by
  unfold idle
  try dsimp only
  repeat' first
    | with_reducible assumption
    | exact within_trans rfl hm
    | with_reducible apply tick_keeps
    | with_reducible apply angTest_keeps
    | with_reducible apply endRetries_keeps
    | with_reducible apply rwSettle_keeps
    | with_reducible apply streamSettle_keeps

end Sys2Proof.Machine
end

