-- ==== Sys2Proof/Laws/KeepsIo.lean ====
section
/-! SUPPORT. The operations of Io.lean keep the queue and the canonical stores. -/

set_option Elab.async false

namespace Sys2Proof.Machine

theorem begun_keeps {μ : Nat} {s0 : State} (op k : Nat) (f : HostCmd → State → State) (s : State)  (h_f : ∀ y0 t, Keeps μ s0 t → Keeps μ s0 (f y0 t)) (hk : Keeps μ s0 s) (_hm : Within 0x0 μ := by exact within_trans rfl (by assumption)) : Keeps μ s0 (begun op k f s) := by
  unfold begun
  try dsimp only
  repeat' first
    | with_reducible assumption
    | exact within_trans rfl hm
    | with_reducible apply h_f
    | with_reducible apply keeps_ite
    | split
    | with_reducible apply keeps_mk
    | with_reducible apply And.intro
    | exact Or.inl (within_bit _ rfl hm)
    | exact Or.inr rfl

theorem begunMedia_keeps {μ : Nat} {s0 : State} (op k : Nat) (f : HostCmd → State → State) (s : State)
    (h_f : ∀ y0 t, Keeps μ s0 t → Keeps μ s0 (f y0 t)) (hk : Keeps μ s0 s) 
    (hm : Within 0x80c0160 μ := by exact within_trans rfl (by assumption)) : Keeps μ s0 (begunMedia op k f s) := by
  refine begun_keeps op k _ s (fun c t h => ?_) hk
  split
  · exact fail_keeps _ _ _ h
  · split
    · exact h_f _ _ h
    · exact h

theorem startMedia_keeps {μ : Nat} {s0 : State} (k : Nat) (f : HostCmd → HostCmd) (s : State)  (hk : Keeps μ s0 s) (hm : Within 0x40000 μ := by exact within_trans rfl (by assumption)) : Keeps μ s0 (startMedia k f s) := by
  unfold startMedia
  try dsimp only
  repeat' first
    | with_reducible assumption
    | exact within_trans rfl hm
    | with_reducible apply modCmd_keeps
    | (intro)
    | with_reducible apply keeps_mk
    | with_reducible apply And.intro
    | exact Or.inl (within_bit _ rfl hm)
    | exact Or.inr rfl

theorem claimSpec_keeps {μ : Nat} {s0 : State} (k nsid : Nat) (s : State) (lba : Nat)  (hk : Keeps μ s0 s) (hm : Within 0x40040060 μ := by exact within_trans rfl (by assumption)) : Keeps μ s0 (claimSpec k nsid s lba) := by
  unfold claimSpec
  try dsimp only
  repeat' first
    | with_reducible assumption
    | exact within_trans rfl hm
    | with_reducible apply setSpec_keeps
    | with_reducible apply modCmd_keeps
    | with_reducible apply issueSector_keeps
    | with_reducible apply keeps_ite
    | split
    | (intro)
    | with_reducible apply keeps_mk
    | with_reducible apply And.intro
    | exact Or.inl (within_bit _ rfl hm)
    | exact Or.inr rfl

theorem sendZeros_keeps {μ : Nat} {s0 : State} (c : HostCmd) (lbas : List Nat) (s : State)  (hk : Keeps μ s0 s) (hm : Within 0x40000 μ := by exact within_trans rfl (by assumption)) : Keeps μ s0 (sendZeros c lbas s) := by
  unfold sendZeros
  try dsimp only
  repeat' first
    | (with_reducible apply keeps_foldl; intro s _ hk)
    | with_reducible assumption
    | exact within_trans rfl hm
    | with_reducible apply sendData_keeps
    | with_reducible apply keeps_ite
    | split
    | (intro)

theorem beginRead_keeps {μ : Nat} {s0 : State} (k : Nat) (c : HostCmd) (s : State)  (hk : Keeps μ s0 s) (hm : Within 0x480c0160 μ := by exact within_trans rfl (by assumption)) : Keeps μ s0 (beginRead k c s) := by
  unfold beginRead
  try dsimp only
  repeat' first
    | (with_reducible apply keeps_foldl; intro s _ hk)
    | with_reducible assumption
    | exact within_trans rfl hm
    | with_reducible apply succeed_keeps
    | with_reducible apply startMedia_keeps
    | with_reducible apply claimSpec_keeps
    | with_reducible apply sendZeros_keeps
    | with_reducible apply keeps_ite
    | split
    | (intro)
    | with_reducible apply keeps_mk
    | with_reducible apply And.intro
    | exact Or.inl (within_bit _ rfl hm)
    | exact Or.inr rfl

theorem zeroBuf_keeps {μ : Nat} {s0 : State} (s : State) (b : Nat) (hk : Keeps μ s0 s) 
    (hm : Within 0x40 μ := by exact within_trans rfl (by assumption)) : Keeps μ s0 (zeroBuf s b) :=
  keeps_sram_filter _ hk

theorem takeSector_keeps {μ : Nat} {s0 : State} (nsid lba b : Nat) (zeros : Bool) (s : State)  (hk : Keeps μ s0 s) (hm : Within 0x40080160 μ := by exact within_trans rfl (by assumption)) : Keeps μ s0 (takeSector nsid lba b zeros s) := by
  unfold takeSector
  try dsimp only
  repeat' first
    | with_reducible assumption
    | exact within_trans rfl hm
    | with_reducible apply sramPut64_keeps
    | with_reducible apply sramPut32_keeps
    | with_reducible apply giveBuf_keeps
    | with_reducible apply issueSector_keeps
    | with_reducible apply zeroBuf_keeps
    | with_reducible apply keeps_ite
    | split
    | refine keeps_snd (by with_reducible assumption) ?_

theorem takeSectors_keeps {μ : Nat} {s0 : State} (nsid : Nat) (zeros : Bool) (x0 : Nat) (x1 : List Nat) (s : State) (hk : Keeps μ s0 s) (hm : Within 0x40080160 μ := by exact within_trans rfl (by assumption)) : Keeps μ s0 (takeSectors nsid zeros x0 x1 s) := by
  induction x1 generalizing x0 s nsid zeros with
  | nil =>
    unfold takeSectors
    try dsimp only
    repeat' first
      | with_reducible assumption
      | exact within_trans rfl hm
      | with_reducible apply ih
      | with_reducible apply takeSector_keeps
      | split
  | cons a l ih =>
    unfold takeSectors
    try dsimp only
    repeat' first
      | with_reducible assumption
      | exact within_trans rfl hm
      | with_reducible apply ih
      | with_reducible apply takeSector_keeps
      | split

theorem dropSpecOf_keeps {μ : Nat} {s0 : State} (c : HostCmd) (s : State)  (hk : Keeps μ s0 s) (hm : Within 0x8080160 μ := by exact within_trans rfl (by assumption)) : Keeps μ s0 (dropSpecOf c s) := by
  unfold dropSpecOf
  try dsimp only
  repeat' first
    | (with_reducible apply keeps_foldl; intro s _ hk)
    | with_reducible assumption
    | exact within_trans rfl hm
    | with_reducible apply pushFree_keeps
    | (intro)

theorem beginConv_keeps {μ : Nat} {s0 : State} (k : Nat) (c : HostCmd) (bufs : List Nat) (s : State)  (hk : Keeps μ s0 s) (hm : Within 0x480e0160 μ := by exact within_trans rfl (by assumption)) : Keeps μ s0 (beginConv k c bufs s) := by
  unfold beginConv
  try dsimp only
  repeat' first
    | with_reducible assumption
    | exact within_trans rfl hm
    | with_reducible apply modZtb_keeps
    | with_reducible apply startMedia_keeps
    | with_reducible apply takeSectors_keeps
    | with_reducible apply dropSpecOf_keeps
    | (intro)
    | with_reducible apply keeps_mk
    | with_reducible apply And.intro
    | exact Or.inl (within_bit _ rfl hm)
    | exact Or.inr rfl

theorem beginZoned_keeps {μ : Nat} {s0 : State} (k : Nat) (c : HostCmd) (z : Nat) (bufs : List Nat) (s : State)  (hk : Keeps μ s0 s) (hm : Within 0x400e4560 μ := by exact within_trans rfl (by assumption)) : Keeps μ s0 (beginZoned k c z bufs s) := by
  unfold beginZoned
  try dsimp only
  repeat' first
    | with_reducible assumption
    | exact within_trans rfl hm
    | with_reducible apply modWork_keeps
    | with_reducible apply openByWrite_keeps
    | with_reducible apply startMedia_keeps
    | with_reducible apply takeSectors_keeps
    | with_reducible apply keeps_ite
    | split
    | (intro)
    | with_reducible apply keeps_mk
    | with_reducible apply And.intro
    | exact Or.inl (within_bit _ rfl hm)
    | exact Or.inr rfl

theorem refuseWrite_keeps {μ : Nat} {s0 : State} (k st : Nat) (bufs : List Nat) (s : State)  (hk : Keeps μ s0 s) (hm : Within 0x80c0160 μ := by exact within_trans rfl (by assumption)) : Keeps μ s0 (refuseWrite k st bufs s) := by
  unfold refuseWrite
  try dsimp only
  repeat' first
    | with_reducible assumption
    | exact within_trans rfl hm
    | with_reducible apply freeAll_keeps
    | with_reducible apply fail_keeps
    | (intro)

theorem beginWrite_keeps {μ : Nat} {s0 : State} (k : Nat) (bufs : List Nat) (c : HostCmd) (s : State)  (hk : Keeps μ s0 s) (hm : Within 0x480e4560 μ := by exact within_trans rfl (by assumption)) : Keeps μ s0 (beginWrite k bufs c s) := by
  unfold beginWrite
  try dsimp only
  repeat' first
    | with_reducible assumption
    | exact within_trans rfl hm
    | with_reducible apply beginConv_keeps
    | with_reducible apply beginZoned_keeps
    | with_reducible apply refuseWrite_keeps
    | with_reducible apply keeps_ite
    | split
    | with_reducible apply keeps_mk
    | with_reducible apply And.intro
    | exact Or.inl (within_bit _ rfl hm)
    | exact Or.inr rfl

theorem beginFlush_keeps {μ : Nat} {s0 : State} (k : Nat) (c : HostCmd) (s : State)  (hk : Keeps μ s0 s) (hm : Within 0x80c0160 μ := by exact within_trans rfl (by assumption)) : Keeps μ s0 (beginFlush k c s) := by
  unfold beginFlush
  try dsimp only
  repeat' first
    | with_reducible assumption
    | exact within_trans rfl hm
    | with_reducible apply succeed_keeps
    | with_reducible apply startMedia_keeps
    | with_reducible apply keeps_ite
    | split

theorem zoneAct_keeps {μ : Nat} {s0 : State} (act z : Nat) (s : State)  (hk : Keeps μ s0 s) (hm : Within 0x80a4560 μ := by exact within_trans rfl (by assumption)) : Keeps μ s0 (zoneAct act z s) := by
  unfold zoneAct
  try dsimp only
  repeat' first
    | with_reducible assumption
    | exact within_trans rfl hm
    | with_reducible apply zcmdWrite_keeps
    | split
    | with_reducible apply keeps_mk
    | with_reducible apply And.intro
    | exact Or.inl (within_bit _ rfl hm)
    | exact Or.inr rfl

theorem zoneActs_keeps {μ : Nat} {s0 : State} (c : HostCmd) (x0 : List Nat) (s : State) (hk : Keeps μ s0 s) (hm : Within 0x80a4560 μ := by exact within_trans rfl (by assumption)) : Keeps μ s0 (zoneActs c x0 s) := by
  induction x0 generalizing s c with
  | nil =>
    unfold zoneActs
    try dsimp only
    repeat' first
      | with_reducible assumption
      | exact within_trans rfl hm
      | with_reducible apply ih
      | with_reducible apply zoneAct_keeps
      | with_reducible apply keeps_ite
      | split
  | cons a l ih =>
    unfold zoneActs
    try dsimp only
    repeat' first
      | with_reducible assumption
      | exact within_trans rfl hm
      | with_reducible apply ih
      | with_reducible apply zoneAct_keeps
      | with_reducible apply keeps_ite
      | split

theorem zoneSend_keeps {μ : Nat} {s0 : State} (k : Nat) (c : HostCmd) (s : State)  (hk : Keeps μ s0 s) (hm : Within 0x80e4560 μ := by exact within_trans rfl (by assumption)) : Keeps μ s0 (zoneSend k c s) := by
  unfold zoneSend
  try dsimp only
  repeat' first
    | with_reducible assumption
    | exact within_trans rfl hm
    | with_reducible apply succeed_keeps
    | with_reducible apply fail_keeps
    | with_reducible apply startMedia_keeps
    | with_reducible apply zoneActs_keeps
    | with_reducible apply keeps_ite
    | split
    | with_reducible apply keeps_mk
    | with_reducible apply And.intro
    | exact Or.inl (within_bit _ rfl hm)
    | exact Or.inr rfl

theorem zoneSends_keeps {μ : Nat} {s0 : State} (act k : Nat) (s : State)  (hk : Keeps μ s0 s) (hm : Within 0x80e4560 μ := by exact within_trans rfl (by assumption)) : Keeps μ s0 (zoneSends act k s) := by
  unfold zoneSends
  try dsimp only
  repeat' first
    | with_reducible assumption
    | exact within_trans rfl hm
    | with_reducible apply zoneSend_keeps
    | with_reducible apply keeps_ite
    | split
    | with_reducible apply keeps_mk
    | with_reducible apply And.intro
    | exact Or.inl (within_bit _ rfl hm)
    | exact Or.inr rfl

theorem zoneReceive_keeps {μ : Nat} {s0 : State} (k : Nat) (s : State)  (hk : Keeps μ s0 s) (hm : Within 0x80c0160 μ := by exact within_trans rfl (by assumption)) : Keeps μ s0 (zoneReceive k s) := by
  unfold zoneReceive
  try dsimp only
  repeat' first
    | with_reducible assumption
    | exact within_trans rfl hm
    | with_reducible apply sendData_keeps
    | with_reducible apply toFirmware_keeps
    | with_reducible apply succeed_keeps
    | with_reducible apply begun_keeps
    | with_reducible apply keeps_ite
    | split
    | (intro)
    | with_reducible apply keeps_mk
    | with_reducible apply And.intro
    | exact Or.inl (within_bit _ rfl hm)
    | exact Or.inr rfl

end Sys2Proof.Machine
end

