-- ==== Sys2Proof/Laws/Registers.lean ====
section
/-! SUPPORT. Laws of the registers: what a register reads after a write of a register, of a field, of a
bit, and after an event bit is set. Each asks that the registers be canonical (`regsOk`), and every
operation on registers keeps that. -/

set_option Elab.async false

namespace Sys2Proof.Machine

/-- The registers are in canonical form. -/
def regsOk (s : State) : Prop := scanon regReset s.regs = true

theorem regsOk_wr {s : State} {a : Nat} {v : Word} (h : regsOk s) : regsOk (wr s a v) := scanon_sput a v h

theorem regsOk_of_regs {s t : State} (e : t.regs = s.regs) (h : regsOk s) : regsOk t := by
  unfold regsOk
  rw [e]
  exact h

/-- A register after a write of a register. -/
theorem rd_wr {s : State} {a b : Nat} {v : Word} (h : regsOk s) :
    rd (wr s a v) b = if b = a then v else rd s b := by
  split
  · rename_i e
    subst e
    exact sget_sput_same _ _ h
  · rename_i e
    exact sget_sput_ne _ e h

theorem rd_wr_same {s : State} {a : Nat} {v : Word} (h : regsOk s) : rd (wr s a v) a = v := by
  simp [rd_wr h]

theorem rd_wr_ne {s : State} {a b : Nat} {v : Word} (h : regsOk s) (e : b ≠ a) :
    rd (wr s a v) b = rd s b := by
  simp [rd_wr h, e]

/-! ## Fields -/

theorem bitsOf_lt (v lo w : Nat) : bitsOf v lo w < 2 ^ w := Nat.mod_lt _ (Nat.two_pow_pos w)

theorem testBit_bitsOf (v lo w i : Nat) : (bitsOf v lo w).testBit i = (decide (i < w) && v.testBit (lo + i)) := by
  unfold bitsOf
  rw [Nat.testBit_mod_two_pow, Nat.testBit_div_two_pow, Nat.add_comm]

/-- A field is what its bits are. -/
theorem bitsOf_ext {u v lo w : Nat} (h : ∀ i, i < w → u.testBit (lo + i) = v.testBit (lo + i)) :
    bitsOf u lo w = bitsOf v lo w := by
  refine Nat.eq_of_testBit_eq fun i => ?_
  rw [testBit_bitsOf, testBit_bitsOf]
  by_cases hi : i < w
  · rw [h i hi]
  · simp [hi]

/-- The bits above `lo + w`, the new field and the bits below `lo`. -/
theorem putBits_eq (x lo w v : Nat) :
    putBits x lo w v = x / 2 ^ (lo + w) * 2 ^ (lo + w) + (v % 2 ^ w) * 2 ^ lo + x % 2 ^ lo := by
  have e : x = x / 2 ^ (lo + w) * 2 ^ (lo + w) + bitsOf x lo w * 2 ^ lo + x % 2 ^ lo := by
    have h1 := Nat.div_add_mod x (2 ^ lo)
    have h2 := Nat.div_add_mod (x / 2 ^ lo) (2 ^ w)
    rw [Nat.div_div_eq_div_mul, ← Nat.pow_add] at h2
    unfold bitsOf
    rw [Nat.pow_add, ← Nat.mul_assoc, Nat.mul_right_comm, ← Nat.add_mul, Nat.mul_comm (_ / _) (2 ^ w), ← Nat.pow_add, h2,
      Nat.mul_comm, h1]
  unfold putBits
  omega

theorem testBit_putBits (x lo w v i : Nat) :
    (putBits x lo w v).testBit i = if lo ≤ i ∧ i < lo + w then v.testBit (i - lo) else x.testBit i := by
  have hr := Nat.mod_lt x (Nat.two_pow_pos lo)
  have hv := Nat.mod_lt v (Nat.two_pow_pos w)
  have hlow : (v % 2 ^ w) * 2 ^ lo + x % 2 ^ lo < 2 ^ (lo + w) := by
    rw [Nat.pow_add, Nat.mul_comm (2 ^ lo)]
    calc v % 2 ^ w * 2 ^ lo + x % 2 ^ lo < v % 2 ^ w * 2 ^ lo + 2 ^ lo := by omega
      _ = (v % 2 ^ w + 1) * 2 ^ lo := by rw [Nat.add_mul, Nat.one_mul]
      _ ≤ 2 ^ w * 2 ^ lo := Nat.mul_le_mul_right _ hv
  rw [putBits_eq, Nat.add_assoc, Nat.mul_comm (x / _), Nat.testBit_two_pow_mul_add _ hlow,
    Nat.mul_comm (v % _), Nat.testBit_two_pow_mul_add _ hr]
  by_cases h1 : i < lo + w
  · rw [if_pos h1]
    by_cases h2 : i < lo
    · rw [if_pos h2, if_neg (by omega), Nat.testBit_mod_two_pow]
      simp [h2]
    · rw [if_neg h2, if_pos ⟨by omega, h1⟩, Nat.testBit_mod_two_pow]
      simp [show i - lo < w by omega]
  · rw [if_neg h1, if_neg (by omega), Nat.testBit_div_two_pow]
    congr 1
    omega

/-- A field of a register after another field of it is written, or the same. -/
theorem bitsOf_putBits_same (x lo w v : Nat) : bitsOf (putBits x lo w v) lo w = v % 2 ^ w := by
  refine Nat.eq_of_testBit_eq fun i => ?_
  rw [testBit_bitsOf, testBit_putBits, Nat.testBit_mod_two_pow]
  by_cases hi : i < w
  · rw [if_pos ⟨by omega, by omega⟩]
    simp
  · simp [hi]

theorem bitsOf_putBits_apart {x lo w v lo' w' : Nat} (h : lo' + w' ≤ lo ∨ lo + w ≤ lo') :
    bitsOf (putBits x lo w v) lo' w' = bitsOf x lo' w' := by
  refine bitsOf_ext fun i hi => ?_
  rw [testBit_putBits, if_neg (by omega)]

theorem putBits_lt {x lo w v n : Nat} (hx : x < 2 ^ n) (hw : lo + w ≤ n) : putBits x lo w v < 2 ^ n := by
  refine Nat.lt_pow_two_of_testBit _ fun i hi => ?_
  rw [testBit_putBits, if_neg (by omega)]
  exact Nat.testBit_lt_two_pow (Nat.lt_of_lt_of_le hx (Nat.pow_le_pow_right (by omega) hi))

theorem toNat_putBits (x : Word) {lo w : Nat} (v : Nat) (hw : lo + w ≤ 32) :
    (BitVec.ofNat 32 (putBits x.toNat lo w v)).toNat = putBits x.toNat lo w v := by
  rw [BitVec.toNat_ofNat]
  exact Nat.mod_eq_of_lt (putBits_lt x.isLt hw)

theorem regsOk_setF {s : State} {a lo w v : Nat} (h : regsOk s) : regsOk (setF s a lo w v) := regsOk_wr h

theorem regsOk_wrN {s : State} {a v : Nat} (h : regsOk s) : regsOk (wrN s a v) := regsOk_wr h

theorem regsOk_setBit {s : State} {a i : Nat} {b : Bool} (h : regsOk s) : regsOk (setBit s a i b) := regsOk_wr h

theorem regsOk_wr64 {s : State} {a v : Nat} (h : regsOk s) : regsOk (wr64 s a v) := regsOk_wrN (regsOk_wrN h)

theorem rd_wrN {s : State} {a b v : Nat} (h : regsOk s) :
    rd (wrN s a v) b = if b = a then BitVec.ofNat 32 v else rd s b := rd_wr h

theorem rd_setF_ne {s : State} {a b lo w v : Nat} (h : regsOk s) (e : b ≠ a) : rd (setF s a lo w v) b = rd s b :=
  rd_wr_ne h e

theorem rd_setBit_ne {s : State} {a b i : Nat} {x : Bool} (h : regsOk s) (e : b ≠ a) :
    rd (setBit s a i x) b = rd s b := rd_wr_ne h e

theorem getF_setF_same {s : State} {a lo w v : Nat} (h : regsOk s) (hw : lo + w ≤ 32) :
    getF (setF s a lo w v) a lo w = v % 2 ^ w := by
  unfold getF setF
  rw [rd_wr_same h, toNat_putBits _ _ hw, bitsOf_putBits_same]

theorem getF_setF_apart {s : State} {a lo w v lo' w' : Nat} (h : regsOk s) (hw : lo + w ≤ 32)
    (hd : lo' + w' ≤ lo ∨ lo + w ≤ lo') : getF (setF s a lo w v) a lo' w' = getF s a lo' w' := by
  unfold getF setF
  rw [rd_wr_same h, toNat_putBits _ _ hw, bitsOf_putBits_apart hd]

theorem getF_setF_ne {s : State} {a b lo w v lo' w' : Nat} (h : regsOk s) (e : b ≠ a) :
    getF (setF s a lo w v) b lo' w' = getF s b lo' w' := by
  unfold getF
  rw [rd_setF_ne h e]

/-- A bit after a field of the register is written. -/
theorem bit_setF {s : State} {a lo w v i : Nat} (h : regsOk s) (hw : lo + w ≤ 32) :
    bit (setF s a lo w v) a i = if lo ≤ i ∧ i < lo + w then v.testBit (i - lo) else bit s a i := by
  unfold bit setF
  rw [rd_wr_same h, ← BitVec.testBit_toNat, toNat_putBits _ _ hw, testBit_putBits]
  rfl

theorem bit_setF_ne {s : State} {a b lo w v i : Nat} (h : regsOk s) (e : b ≠ a) :
    bit (setF s a lo w v) b i = bit s b i := by
  unfold bit
  rw [rd_setF_ne h e]

theorem bit_setBit_same {s : State} {a i : Nat} {b : Bool} (h : regsOk s) (hi : i < 32) :
    bit (setBit s a i b) a i = b := by
  unfold setBit
  rw [bit_setF h (by omega), if_pos ⟨Nat.le_refl _, by omega⟩]
  cases b <;> simp

theorem bit_setBit_other {s : State} {a i j : Nat} {b : Bool} (h : regsOk s) (hi : i < 32) (e : j ≠ i) :
    bit (setBit s a i b) a j = bit s a j := by
  unfold setBit
  rw [bit_setF h (by omega), if_neg (by omega)]

theorem bit_setBit_ne {s : State} {a c i j : Nat} {b : Bool} (h : regsOk s) (e : c ≠ a) :
    bit (setBit s a i b) c j = bit s c j := bit_setF_ne h e

/-- A field after a bit of the register outside it is written. -/
theorem getF_setBit_apart {s : State} {a i lo w : Nat} {b : Bool} (h : regsOk s) (hi : i < 32)
    (hd : i < lo ∨ lo + w ≤ i) : getF (setBit s a i b) a lo w = getF s a lo w :=
  getF_setF_apart h (by omega) (by omega)

theorem getF_setBit_ne {s : State} {a c i lo w : Nat} {b : Bool} (h : regsOk s) (e : c ≠ a) :
    getF (setBit s a i b) c lo w = getF s c lo w := getF_setF_ne h e

/-! ## Triggers and event bits -/

/-- A counter of the event recorder that a trigger may step: FULLDROP, STGDROP or a CHSUP. -/
def recorderCounter (a : Nat) : Prop :=
  a = Reg.EVR_FULLDROP ∨ a = Reg.EVR_STGDROP ∨ (0x131000 ≤ a ∧ a < 0x133000)

theorem regsOk_satInc {s : State} {a w : Nat} (h : regsOk s) : regsOk (satInc s a w) := by
  unfold satInc
  split <;> exact regsOk_wrN h

theorem rd_satInc_ne {s : State} {a b w : Nat} (h : regsOk s) (e : b ≠ a) : rd (satInc s a w) b = rd s b := by
  unfold satInc
  split <;> exact rd_wr_ne h e

theorem regsOk_trigger {s : State} {ch pos : Nat} (h : regsOk s) : regsOk (trigger ch pos s) := by
  unfold trigger
  split
  · exact regsOk_satInc h
  · split
    · exact regsOk_satInc h
    · split
      · exact regsOk_satInc h
      · exact h

/-- A trigger of a channel steps no register but the recorder's counters. -/
theorem rd_trigger {s : State} {ch pos b : Nat} (h : regsOk s) (hc : ch < 64) (hb : ¬recorderCounter b) :
    rd (trigger ch pos s) b = rd s b := by
  simp only [recorderCounter, Reg.EVR_FULLDROP, Reg.EVR_STGDROP] at hb
  unfold trigger
  split
  · exact rd_satInc_ne h (by simp only [Reg.EVR_FULLDROP]; omega)
  · split
    · exact rd_satInc_ne h (by simp only [Reg.EVR_CHSUP]; omega)
    · split
      · exact rd_satInc_ne h (by simp only [Reg.EVR_STGDROP]; omega)
      · rfl

theorem fixedTriggers_chan {a i x y c p : Nat}
    (h : fixedTriggers.find? (fun e => e.1 == a && e.2.1 == i) = some (x, y, c, p)) : c < 64 := by
  have hall : ∀ e ∈ fixedTriggers, e.2.2.1 < 64 := by decide
  exact hall _ (List.mem_of_find?_eq_some h)

theorem programmedTriggers_chan {s : State} {a i c : Nat} (h : c ∈ programmedTriggers s a i) : c < 64 := by
  unfold programmedTriggers at h
  rw [List.mem_filterMap] at h
  obtain ⟨e, _, he⟩ := h
  split at he
  · rename_i hc
    simp only [Option.some.injEq] at he
    omega
  · simp at he

theorem regsOk_triggers {l : List Nat} {s : State} (h : regsOk s) :
    regsOk (l.foldl (fun s ch => trigger ch 1 s) s) := by
  induction l generalizing s with
  | nil => exact h
  | cons c l ih => exact ih (regsOk_trigger h)

theorem rd_triggers {l : List Nat} {s : State} {b : Nat} (h : regsOk s) (hl : ∀ c ∈ l, c < 64)
    (hb : ¬recorderCounter b) : rd (l.foldl (fun s ch => trigger ch 1 s) s) b = rd s b := by
  induction l generalizing s with
  | nil => rfl
  | cons c l ih =>
    rw [List.foldl_cons, ih (regsOk_trigger h) (fun d hd => hl d (by simp [hd])), rd_trigger h (hl c (by simp)) hb]

theorem regsOk_evt {s : State} {a i : Nat} (h : regsOk s) : regsOk (evt a i s) := by
  unfold evt
  dsimp only
  split
  · split
    · exact regsOk_triggers (regsOk_trigger (regsOk_setBit h))
    · exact regsOk_trigger (regsOk_setBit h)
  · split
    · exact regsOk_triggers (regsOk_setBit h)
    · exact regsOk_setBit h

/-- An event bit is set, and but for the recorder's counters that is all the registers show. -/
theorem rd_evt {s : State} {a i b : Nat} (h : regsOk s) (hb : ¬recorderCounter b) :
    rd (evt a i s) b = rd (setBit s a i true) b := by
  unfold evt
  dsimp only
  split
  · rename_i e
    split
    · rw [rd_triggers (regsOk_trigger (regsOk_setBit h)) (fun c => programmedTriggers_chan) hb,
        rd_trigger (regsOk_setBit h) (fixedTriggers_chan e) hb]
    · rw [rd_trigger (regsOk_setBit h) (fixedTriggers_chan e) hb]
  · split
    · rw [rd_triggers (regsOk_setBit h) (fun c => programmedTriggers_chan) hb]
    · rfl

theorem bit_evt_same {s : State} {a i : Nat} (h : regsOk s) (hb : ¬recorderCounter a) (hi : i < 32) :
    bit (evt a i s) a i = true := by
  unfold bit
  rw [rd_evt h hb]
  exact bit_setBit_same h hi

theorem rd_evt_ne {s : State} {a i b : Nat} (h : regsOk s) (hb : ¬recorderCounter b) (e : b ≠ a) :
    rd (evt a i s) b = rd s b := by
  rw [rd_evt h hb, rd_setBit_ne h e]

theorem bit_evt_ne {s : State} {a i b j : Nat} (h : regsOk s) (hb : ¬recorderCounter b) (e : b ≠ a) :
    bit (evt a i s) b j = bit s b j := by
  unfold bit
  rw [rd_evt_ne h hb e]

theorem bit_evt_other {s : State} {a i j : Nat} (h : regsOk s) (hb : ¬recorderCounter a) (hi : i < 32) (e : j ≠ i) :
    bit (evt a i s) a j = bit s a j := by
  unfold bit
  rw [rd_evt h hb]
  exact bit_setBit_other h hi e

theorem getF_evt_ne {s : State} {a i b lo w : Nat} (h : regsOk s) (hb : ¬recorderCounter b) (e : b ≠ a) :
    getF (evt a i s) b lo w = getF s b lo w := by
  unfold getF
  rw [rd_evt_ne h hb e]

theorem regsOk_evtIf {s : State} {c : Bool} {a i : Nat} (h : regsOk s) : regsOk (evtIf c a i s) := by
  unfold evtIf
  split
  · exact regsOk_evt h
  · exact h

theorem rd_evtIf_ne {s : State} {c : Bool} {a i b : Nat} (h : regsOk s) (hb : ¬recorderCounter b) (e : b ≠ a) :
    rd (evtIf c a i s) b = rd s b := by
  unfold evtIf
  split
  · exact rd_evt_ne h hb e
  · rfl

theorem bit_evtIf_same {s : State} {c : Bool} {a i : Nat} (h : regsOk s) (hb : ¬recorderCounter a) (hi : i < 32) :
    bit (evtIf c a i s) a i = (c || bit s a i) := by
  unfold evtIf
  split
  · rename_i hc
    simp [hc, bit_evt_same h hb hi]
  · rename_i hc
    simp at hc
    simp [hc]

end Sys2Proof.Machine
end

