-- ==== Sys2Proof/Laws/State.lean ====
section
/-! SUPPORT. What each update of one part of State leaves as it was: one law per field and update, and
what the registers read after an update of something else. -/

namespace Sys2Proof.Machine

@[simp] theorem wr_pending (s : State) (a : Nat) (v : Word) : (wr s a v).pending = s.pending := rfl
@[simp] theorem wr_draws (s : State) (a : Nat) (v : Word) : (wr s a v).draws = s.draws := rfl
@[simp] theorem wr_clock (s : State) (a : Nat) (v : Word) : (wr s a v).clock = s.clock := rfl
@[simp] theorem wr_ptpFrac (s : State) (a : Nat) (v : Word) : (wr s a v).ptpFrac = s.ptpFrac := rfl
@[simp] theorem wr_busData (s : State) (a : Nat) (v : Word) : (wr s a v).busData = s.busData := rfl
@[simp] theorem wr_busError (s : State) (a : Nat) (v : Word) : (wr s a v).busError = s.busError := rfl
@[simp] theorem wr_sram (s : State) (a : Nat) (v : Word) : (wr s a v).sram = s.sram := rfl
@[simp] theorem wr_nand (s : State) (a : Nat) (v : Word) : (wr s a v).nand = s.nand := rfl
@[simp] theorem wr_evr (s : State) (a : Nat) (v : Word) : (wr s a v).evr = s.evr := rfl
@[simp] theorem wr_ang (s : State) (a : Nat) (v : Word) : (wr s a v).ang = s.ang := rfl
@[simp] theorem wr_slots (s : State) (a : Nat) (v : Word) : (wr s a v).slots = s.slots := rfl
@[simp] theorem wr_lanes (s : State) (a : Nat) (v : Word) : (wr s a v).lanes = s.lanes := rfl
@[simp] theorem wr_dbLevel (s : State) (a : Nat) (v : Word) : (wr s a v).dbLevel = s.dbLevel := rfl
@[simp] theorem wr_dbStop (s : State) (a : Nat) (v : Word) : (wr s a v).dbStop = s.dbStop := rfl
@[simp] theorem wr_tsq (s : State) (a : Nat) (v : Word) : (wr s a v).tsq = s.tsq := rfl
@[simp] theorem wr_microcode (s : State) (a : Nat) (v : Word) : (wr s a v).microcode = s.microcode := rfl
@[simp] theorem wr_ucLoad (s : State) (a : Nat) (v : Word) : (wr s a v).ucLoad = s.ucLoad := rfl
@[simp] theorem wr_ztb (s : State) (a : Nat) (v : Word) : (wr s a v).ztb = s.ztb := rfl
@[simp] theorem wr_nqe (s : State) (a : Nat) (v : Word) : (wr s a v).nqe = s.nqe := rfl
@[simp] theorem wr_cis (s : State) (a : Nat) (v : Word) : (wr s a v).cis = s.cis := rfl
@[simp] theorem wr_srv (s : State) (a : Nat) (v : Word) : (wr s a v).srv = s.srv := rfl
@[simp] theorem wr_rates (s : State) (a : Nat) (v : Word) : (wr s a v).rates = s.rates := rfl
@[simp] theorem wr_spn (s : State) (a : Nat) (v : Word) : (wr s a v).spn = s.spn := rfl
@[simp] theorem wr_sec (s : State) (a : Nat) (v : Word) : (wr s a v).sec = s.sec := rfl
@[simp] theorem wr_slu (s : State) (a : Nat) (v : Word) : (wr s a v).slu = s.slu := rfl
@[simp] theorem wr_sys (s : State) (a : Nat) (v : Word) : (wr s a v).sys = s.sys := rfl
@[simp] theorem wr_noi (s : State) (a : Nat) (v : Word) : (wr s a v).noi = s.noi := rfl
@[simp] theorem wr_net (s : State) (a : Nat) (v : Word) : (wr s a v).net = s.net := rfl
@[simp] theorem wr_ecc (s : State) (a : Nat) (v : Word) : (wr s a v).ecc = s.ecc := rfl
@[simp] theorem wr_cch (s : State) (a : Nat) (v : Word) : (wr s a v).cch = s.cch := rfl
@[simp] theorem wr_cph (s : State) (a : Nat) (v : Word) : (wr s a v).cph = s.cph := rfl
@[simp] theorem wr_thm (s : State) (a : Nat) (v : Word) : (wr s a v).thm = s.thm := rfl
@[simp] theorem wr_cal (s : State) (a : Nat) (v : Word) : (wr s a v).cal = s.cal := rfl
@[simp] theorem wr_arc (s : State) (a : Nat) (v : Word) : (wr s a v).arc = s.arc := rfl
@[simp] theorem wr_tap (s : State) (a : Nat) (v : Word) : (wr s a v).tap = s.tap := rfl
@[simp] theorem wr_imone (s : State) (a : Nat) (v : Word) : (wr s a v).imone = s.imone := rfl
@[simp] theorem wr_flash (s : State) (a : Nat) (v : Word) : (wr s a v).flash = s.flash := rfl

@[simp] theorem wrN_pending (s : State) (a v : Nat) : (wrN s a v).pending = s.pending := rfl
@[simp] theorem wrN_draws (s : State) (a v : Nat) : (wrN s a v).draws = s.draws := rfl
@[simp] theorem wrN_clock (s : State) (a v : Nat) : (wrN s a v).clock = s.clock := rfl
@[simp] theorem wrN_ptpFrac (s : State) (a v : Nat) : (wrN s a v).ptpFrac = s.ptpFrac := rfl
@[simp] theorem wrN_busData (s : State) (a v : Nat) : (wrN s a v).busData = s.busData := rfl
@[simp] theorem wrN_busError (s : State) (a v : Nat) : (wrN s a v).busError = s.busError := rfl
@[simp] theorem wrN_sram (s : State) (a v : Nat) : (wrN s a v).sram = s.sram := rfl
@[simp] theorem wrN_nand (s : State) (a v : Nat) : (wrN s a v).nand = s.nand := rfl
@[simp] theorem wrN_evr (s : State) (a v : Nat) : (wrN s a v).evr = s.evr := rfl
@[simp] theorem wrN_ang (s : State) (a v : Nat) : (wrN s a v).ang = s.ang := rfl
@[simp] theorem wrN_slots (s : State) (a v : Nat) : (wrN s a v).slots = s.slots := rfl
@[simp] theorem wrN_lanes (s : State) (a v : Nat) : (wrN s a v).lanes = s.lanes := rfl
@[simp] theorem wrN_dbLevel (s : State) (a v : Nat) : (wrN s a v).dbLevel = s.dbLevel := rfl
@[simp] theorem wrN_dbStop (s : State) (a v : Nat) : (wrN s a v).dbStop = s.dbStop := rfl
@[simp] theorem wrN_tsq (s : State) (a v : Nat) : (wrN s a v).tsq = s.tsq := rfl
@[simp] theorem wrN_microcode (s : State) (a v : Nat) : (wrN s a v).microcode = s.microcode := rfl
@[simp] theorem wrN_ucLoad (s : State) (a v : Nat) : (wrN s a v).ucLoad = s.ucLoad := rfl
@[simp] theorem wrN_ztb (s : State) (a v : Nat) : (wrN s a v).ztb = s.ztb := rfl
@[simp] theorem wrN_nqe (s : State) (a v : Nat) : (wrN s a v).nqe = s.nqe := rfl
@[simp] theorem wrN_cis (s : State) (a v : Nat) : (wrN s a v).cis = s.cis := rfl
@[simp] theorem wrN_srv (s : State) (a v : Nat) : (wrN s a v).srv = s.srv := rfl
@[simp] theorem wrN_rates (s : State) (a v : Nat) : (wrN s a v).rates = s.rates := rfl
@[simp] theorem wrN_spn (s : State) (a v : Nat) : (wrN s a v).spn = s.spn := rfl
@[simp] theorem wrN_sec (s : State) (a v : Nat) : (wrN s a v).sec = s.sec := rfl
@[simp] theorem wrN_slu (s : State) (a v : Nat) : (wrN s a v).slu = s.slu := rfl
@[simp] theorem wrN_sys (s : State) (a v : Nat) : (wrN s a v).sys = s.sys := rfl
@[simp] theorem wrN_noi (s : State) (a v : Nat) : (wrN s a v).noi = s.noi := rfl
@[simp] theorem wrN_net (s : State) (a v : Nat) : (wrN s a v).net = s.net := rfl
@[simp] theorem wrN_ecc (s : State) (a v : Nat) : (wrN s a v).ecc = s.ecc := rfl
@[simp] theorem wrN_cch (s : State) (a v : Nat) : (wrN s a v).cch = s.cch := rfl
@[simp] theorem wrN_cph (s : State) (a v : Nat) : (wrN s a v).cph = s.cph := rfl
@[simp] theorem wrN_thm (s : State) (a v : Nat) : (wrN s a v).thm = s.thm := rfl
@[simp] theorem wrN_cal (s : State) (a v : Nat) : (wrN s a v).cal = s.cal := rfl
@[simp] theorem wrN_arc (s : State) (a v : Nat) : (wrN s a v).arc = s.arc := rfl
@[simp] theorem wrN_tap (s : State) (a v : Nat) : (wrN s a v).tap = s.tap := rfl
@[simp] theorem wrN_imone (s : State) (a v : Nat) : (wrN s a v).imone = s.imone := rfl
@[simp] theorem wrN_flash (s : State) (a v : Nat) : (wrN s a v).flash = s.flash := rfl

@[simp] theorem setF_pending (s : State) (a lo w v : Nat) : (setF s a lo w v).pending = s.pending := rfl
@[simp] theorem setF_draws (s : State) (a lo w v : Nat) : (setF s a lo w v).draws = s.draws := rfl
@[simp] theorem setF_clock (s : State) (a lo w v : Nat) : (setF s a lo w v).clock = s.clock := rfl
@[simp] theorem setF_ptpFrac (s : State) (a lo w v : Nat) : (setF s a lo w v).ptpFrac = s.ptpFrac := rfl
@[simp] theorem setF_busData (s : State) (a lo w v : Nat) : (setF s a lo w v).busData = s.busData := rfl
@[simp] theorem setF_busError (s : State) (a lo w v : Nat) : (setF s a lo w v).busError = s.busError := rfl
@[simp] theorem setF_sram (s : State) (a lo w v : Nat) : (setF s a lo w v).sram = s.sram := rfl
@[simp] theorem setF_nand (s : State) (a lo w v : Nat) : (setF s a lo w v).nand = s.nand := rfl
@[simp] theorem setF_evr (s : State) (a lo w v : Nat) : (setF s a lo w v).evr = s.evr := rfl
@[simp] theorem setF_ang (s : State) (a lo w v : Nat) : (setF s a lo w v).ang = s.ang := rfl
@[simp] theorem setF_slots (s : State) (a lo w v : Nat) : (setF s a lo w v).slots = s.slots := rfl
@[simp] theorem setF_lanes (s : State) (a lo w v : Nat) : (setF s a lo w v).lanes = s.lanes := rfl
@[simp] theorem setF_dbLevel (s : State) (a lo w v : Nat) : (setF s a lo w v).dbLevel = s.dbLevel := rfl
@[simp] theorem setF_dbStop (s : State) (a lo w v : Nat) : (setF s a lo w v).dbStop = s.dbStop := rfl
@[simp] theorem setF_tsq (s : State) (a lo w v : Nat) : (setF s a lo w v).tsq = s.tsq := rfl
@[simp] theorem setF_microcode (s : State) (a lo w v : Nat) : (setF s a lo w v).microcode = s.microcode := rfl
@[simp] theorem setF_ucLoad (s : State) (a lo w v : Nat) : (setF s a lo w v).ucLoad = s.ucLoad := rfl
@[simp] theorem setF_ztb (s : State) (a lo w v : Nat) : (setF s a lo w v).ztb = s.ztb := rfl
@[simp] theorem setF_nqe (s : State) (a lo w v : Nat) : (setF s a lo w v).nqe = s.nqe := rfl
@[simp] theorem setF_cis (s : State) (a lo w v : Nat) : (setF s a lo w v).cis = s.cis := rfl
@[simp] theorem setF_srv (s : State) (a lo w v : Nat) : (setF s a lo w v).srv = s.srv := rfl
@[simp] theorem setF_rates (s : State) (a lo w v : Nat) : (setF s a lo w v).rates = s.rates := rfl
@[simp] theorem setF_spn (s : State) (a lo w v : Nat) : (setF s a lo w v).spn = s.spn := rfl
@[simp] theorem setF_sec (s : State) (a lo w v : Nat) : (setF s a lo w v).sec = s.sec := rfl
@[simp] theorem setF_slu (s : State) (a lo w v : Nat) : (setF s a lo w v).slu = s.slu := rfl
@[simp] theorem setF_sys (s : State) (a lo w v : Nat) : (setF s a lo w v).sys = s.sys := rfl
@[simp] theorem setF_noi (s : State) (a lo w v : Nat) : (setF s a lo w v).noi = s.noi := rfl
@[simp] theorem setF_net (s : State) (a lo w v : Nat) : (setF s a lo w v).net = s.net := rfl
@[simp] theorem setF_ecc (s : State) (a lo w v : Nat) : (setF s a lo w v).ecc = s.ecc := rfl
@[simp] theorem setF_cch (s : State) (a lo w v : Nat) : (setF s a lo w v).cch = s.cch := rfl
@[simp] theorem setF_cph (s : State) (a lo w v : Nat) : (setF s a lo w v).cph = s.cph := rfl
@[simp] theorem setF_thm (s : State) (a lo w v : Nat) : (setF s a lo w v).thm = s.thm := rfl
@[simp] theorem setF_cal (s : State) (a lo w v : Nat) : (setF s a lo w v).cal = s.cal := rfl
@[simp] theorem setF_arc (s : State) (a lo w v : Nat) : (setF s a lo w v).arc = s.arc := rfl
@[simp] theorem setF_tap (s : State) (a lo w v : Nat) : (setF s a lo w v).tap = s.tap := rfl
@[simp] theorem setF_imone (s : State) (a lo w v : Nat) : (setF s a lo w v).imone = s.imone := rfl
@[simp] theorem setF_flash (s : State) (a lo w v : Nat) : (setF s a lo w v).flash = s.flash := rfl

@[simp] theorem setBit_pending (s : State) (a i : Nat) (b : Bool) : (setBit s a i b).pending = s.pending := rfl
@[simp] theorem setBit_draws (s : State) (a i : Nat) (b : Bool) : (setBit s a i b).draws = s.draws := rfl
@[simp] theorem setBit_clock (s : State) (a i : Nat) (b : Bool) : (setBit s a i b).clock = s.clock := rfl
@[simp] theorem setBit_ptpFrac (s : State) (a i : Nat) (b : Bool) : (setBit s a i b).ptpFrac = s.ptpFrac := rfl
@[simp] theorem setBit_busData (s : State) (a i : Nat) (b : Bool) : (setBit s a i b).busData = s.busData := rfl
@[simp] theorem setBit_busError (s : State) (a i : Nat) (b : Bool) : (setBit s a i b).busError = s.busError := rfl
@[simp] theorem setBit_sram (s : State) (a i : Nat) (b : Bool) : (setBit s a i b).sram = s.sram := rfl
@[simp] theorem setBit_nand (s : State) (a i : Nat) (b : Bool) : (setBit s a i b).nand = s.nand := rfl
@[simp] theorem setBit_evr (s : State) (a i : Nat) (b : Bool) : (setBit s a i b).evr = s.evr := rfl
@[simp] theorem setBit_ang (s : State) (a i : Nat) (b : Bool) : (setBit s a i b).ang = s.ang := rfl
@[simp] theorem setBit_slots (s : State) (a i : Nat) (b : Bool) : (setBit s a i b).slots = s.slots := rfl
@[simp] theorem setBit_lanes (s : State) (a i : Nat) (b : Bool) : (setBit s a i b).lanes = s.lanes := rfl
@[simp] theorem setBit_dbLevel (s : State) (a i : Nat) (b : Bool) : (setBit s a i b).dbLevel = s.dbLevel := rfl
@[simp] theorem setBit_dbStop (s : State) (a i : Nat) (b : Bool) : (setBit s a i b).dbStop = s.dbStop := rfl
@[simp] theorem setBit_tsq (s : State) (a i : Nat) (b : Bool) : (setBit s a i b).tsq = s.tsq := rfl
@[simp] theorem setBit_microcode (s : State) (a i : Nat) (b : Bool) : (setBit s a i b).microcode = s.microcode := rfl
@[simp] theorem setBit_ucLoad (s : State) (a i : Nat) (b : Bool) : (setBit s a i b).ucLoad = s.ucLoad := rfl
@[simp] theorem setBit_ztb (s : State) (a i : Nat) (b : Bool) : (setBit s a i b).ztb = s.ztb := rfl
@[simp] theorem setBit_nqe (s : State) (a i : Nat) (b : Bool) : (setBit s a i b).nqe = s.nqe := rfl
@[simp] theorem setBit_cis (s : State) (a i : Nat) (b : Bool) : (setBit s a i b).cis = s.cis := rfl
@[simp] theorem setBit_srv (s : State) (a i : Nat) (b : Bool) : (setBit s a i b).srv = s.srv := rfl
@[simp] theorem setBit_rates (s : State) (a i : Nat) (b : Bool) : (setBit s a i b).rates = s.rates := rfl
@[simp] theorem setBit_spn (s : State) (a i : Nat) (b : Bool) : (setBit s a i b).spn = s.spn := rfl
@[simp] theorem setBit_sec (s : State) (a i : Nat) (b : Bool) : (setBit s a i b).sec = s.sec := rfl
@[simp] theorem setBit_slu (s : State) (a i : Nat) (b : Bool) : (setBit s a i b).slu = s.slu := rfl
@[simp] theorem setBit_sys (s : State) (a i : Nat) (b : Bool) : (setBit s a i b).sys = s.sys := rfl
@[simp] theorem setBit_noi (s : State) (a i : Nat) (b : Bool) : (setBit s a i b).noi = s.noi := rfl
@[simp] theorem setBit_net (s : State) (a i : Nat) (b : Bool) : (setBit s a i b).net = s.net := rfl
@[simp] theorem setBit_ecc (s : State) (a i : Nat) (b : Bool) : (setBit s a i b).ecc = s.ecc := rfl
@[simp] theorem setBit_cch (s : State) (a i : Nat) (b : Bool) : (setBit s a i b).cch = s.cch := rfl
@[simp] theorem setBit_cph (s : State) (a i : Nat) (b : Bool) : (setBit s a i b).cph = s.cph := rfl
@[simp] theorem setBit_thm (s : State) (a i : Nat) (b : Bool) : (setBit s a i b).thm = s.thm := rfl
@[simp] theorem setBit_cal (s : State) (a i : Nat) (b : Bool) : (setBit s a i b).cal = s.cal := rfl
@[simp] theorem setBit_arc (s : State) (a i : Nat) (b : Bool) : (setBit s a i b).arc = s.arc := rfl
@[simp] theorem setBit_tap (s : State) (a i : Nat) (b : Bool) : (setBit s a i b).tap = s.tap := rfl
@[simp] theorem setBit_imone (s : State) (a i : Nat) (b : Bool) : (setBit s a i b).imone = s.imone := rfl
@[simp] theorem setBit_flash (s : State) (a i : Nat) (b : Bool) : (setBit s a i b).flash = s.flash := rfl

@[simp] theorem wr64_pending (s : State) (a v : Nat) : (wr64 s a v).pending = s.pending := rfl
@[simp] theorem wr64_draws (s : State) (a v : Nat) : (wr64 s a v).draws = s.draws := rfl
@[simp] theorem wr64_clock (s : State) (a v : Nat) : (wr64 s a v).clock = s.clock := rfl
@[simp] theorem wr64_ptpFrac (s : State) (a v : Nat) : (wr64 s a v).ptpFrac = s.ptpFrac := rfl
@[simp] theorem wr64_busData (s : State) (a v : Nat) : (wr64 s a v).busData = s.busData := rfl
@[simp] theorem wr64_busError (s : State) (a v : Nat) : (wr64 s a v).busError = s.busError := rfl
@[simp] theorem wr64_sram (s : State) (a v : Nat) : (wr64 s a v).sram = s.sram := rfl
@[simp] theorem wr64_nand (s : State) (a v : Nat) : (wr64 s a v).nand = s.nand := rfl
@[simp] theorem wr64_evr (s : State) (a v : Nat) : (wr64 s a v).evr = s.evr := rfl
@[simp] theorem wr64_ang (s : State) (a v : Nat) : (wr64 s a v).ang = s.ang := rfl
@[simp] theorem wr64_slots (s : State) (a v : Nat) : (wr64 s a v).slots = s.slots := rfl
@[simp] theorem wr64_lanes (s : State) (a v : Nat) : (wr64 s a v).lanes = s.lanes := rfl
@[simp] theorem wr64_dbLevel (s : State) (a v : Nat) : (wr64 s a v).dbLevel = s.dbLevel := rfl
@[simp] theorem wr64_dbStop (s : State) (a v : Nat) : (wr64 s a v).dbStop = s.dbStop := rfl
@[simp] theorem wr64_tsq (s : State) (a v : Nat) : (wr64 s a v).tsq = s.tsq := rfl
@[simp] theorem wr64_microcode (s : State) (a v : Nat) : (wr64 s a v).microcode = s.microcode := rfl
@[simp] theorem wr64_ucLoad (s : State) (a v : Nat) : (wr64 s a v).ucLoad = s.ucLoad := rfl
@[simp] theorem wr64_ztb (s : State) (a v : Nat) : (wr64 s a v).ztb = s.ztb := rfl
@[simp] theorem wr64_nqe (s : State) (a v : Nat) : (wr64 s a v).nqe = s.nqe := rfl
@[simp] theorem wr64_cis (s : State) (a v : Nat) : (wr64 s a v).cis = s.cis := rfl
@[simp] theorem wr64_srv (s : State) (a v : Nat) : (wr64 s a v).srv = s.srv := rfl
@[simp] theorem wr64_rates (s : State) (a v : Nat) : (wr64 s a v).rates = s.rates := rfl
@[simp] theorem wr64_spn (s : State) (a v : Nat) : (wr64 s a v).spn = s.spn := rfl
@[simp] theorem wr64_sec (s : State) (a v : Nat) : (wr64 s a v).sec = s.sec := rfl
@[simp] theorem wr64_slu (s : State) (a v : Nat) : (wr64 s a v).slu = s.slu := rfl
@[simp] theorem wr64_sys (s : State) (a v : Nat) : (wr64 s a v).sys = s.sys := rfl
@[simp] theorem wr64_noi (s : State) (a v : Nat) : (wr64 s a v).noi = s.noi := rfl
@[simp] theorem wr64_net (s : State) (a v : Nat) : (wr64 s a v).net = s.net := rfl
@[simp] theorem wr64_ecc (s : State) (a v : Nat) : (wr64 s a v).ecc = s.ecc := rfl
@[simp] theorem wr64_cch (s : State) (a v : Nat) : (wr64 s a v).cch = s.cch := rfl
@[simp] theorem wr64_cph (s : State) (a v : Nat) : (wr64 s a v).cph = s.cph := rfl
@[simp] theorem wr64_thm (s : State) (a v : Nat) : (wr64 s a v).thm = s.thm := rfl
@[simp] theorem wr64_cal (s : State) (a v : Nat) : (wr64 s a v).cal = s.cal := rfl
@[simp] theorem wr64_arc (s : State) (a v : Nat) : (wr64 s a v).arc = s.arc := rfl
@[simp] theorem wr64_tap (s : State) (a v : Nat) : (wr64 s a v).tap = s.tap := rfl
@[simp] theorem wr64_imone (s : State) (a v : Nat) : (wr64 s a v).imone = s.imone := rfl
@[simp] theorem wr64_flash (s : State) (a v : Nat) : (wr64 s a v).flash = s.flash := rfl

@[simp] theorem sramPutWord_pending (s : State) (i : Nat) (w : SramWord) : (sramPutWord s i w).pending = s.pending := rfl
@[simp] theorem sramPutWord_draws (s : State) (i : Nat) (w : SramWord) : (sramPutWord s i w).draws = s.draws := rfl
@[simp] theorem sramPutWord_clock (s : State) (i : Nat) (w : SramWord) : (sramPutWord s i w).clock = s.clock := rfl
@[simp] theorem sramPutWord_ptpFrac (s : State) (i : Nat) (w : SramWord) : (sramPutWord s i w).ptpFrac = s.ptpFrac := rfl
@[simp] theorem sramPutWord_busData (s : State) (i : Nat) (w : SramWord) : (sramPutWord s i w).busData = s.busData := rfl
@[simp] theorem sramPutWord_busError (s : State) (i : Nat) (w : SramWord) : (sramPutWord s i w).busError = s.busError := rfl
@[simp] theorem sramPutWord_regs (s : State) (i : Nat) (w : SramWord) : (sramPutWord s i w).regs = s.regs := rfl
@[simp] theorem sramPutWord_nand (s : State) (i : Nat) (w : SramWord) : (sramPutWord s i w).nand = s.nand := rfl
@[simp] theorem sramPutWord_evr (s : State) (i : Nat) (w : SramWord) : (sramPutWord s i w).evr = s.evr := rfl
@[simp] theorem sramPutWord_ang (s : State) (i : Nat) (w : SramWord) : (sramPutWord s i w).ang = s.ang := rfl
@[simp] theorem sramPutWord_slots (s : State) (i : Nat) (w : SramWord) : (sramPutWord s i w).slots = s.slots := rfl
@[simp] theorem sramPutWord_lanes (s : State) (i : Nat) (w : SramWord) : (sramPutWord s i w).lanes = s.lanes := rfl
@[simp] theorem sramPutWord_dbLevel (s : State) (i : Nat) (w : SramWord) : (sramPutWord s i w).dbLevel = s.dbLevel := rfl
@[simp] theorem sramPutWord_dbStop (s : State) (i : Nat) (w : SramWord) : (sramPutWord s i w).dbStop = s.dbStop := rfl
@[simp] theorem sramPutWord_tsq (s : State) (i : Nat) (w : SramWord) : (sramPutWord s i w).tsq = s.tsq := rfl
@[simp] theorem sramPutWord_microcode (s : State) (i : Nat) (w : SramWord) : (sramPutWord s i w).microcode = s.microcode := rfl
@[simp] theorem sramPutWord_ucLoad (s : State) (i : Nat) (w : SramWord) : (sramPutWord s i w).ucLoad = s.ucLoad := rfl
@[simp] theorem sramPutWord_ztb (s : State) (i : Nat) (w : SramWord) : (sramPutWord s i w).ztb = s.ztb := rfl
@[simp] theorem sramPutWord_nqe (s : State) (i : Nat) (w : SramWord) : (sramPutWord s i w).nqe = s.nqe := rfl
@[simp] theorem sramPutWord_cis (s : State) (i : Nat) (w : SramWord) : (sramPutWord s i w).cis = s.cis := rfl
@[simp] theorem sramPutWord_srv (s : State) (i : Nat) (w : SramWord) : (sramPutWord s i w).srv = s.srv := rfl
@[simp] theorem sramPutWord_rates (s : State) (i : Nat) (w : SramWord) : (sramPutWord s i w).rates = s.rates := rfl
@[simp] theorem sramPutWord_spn (s : State) (i : Nat) (w : SramWord) : (sramPutWord s i w).spn = s.spn := rfl
@[simp] theorem sramPutWord_sec (s : State) (i : Nat) (w : SramWord) : (sramPutWord s i w).sec = s.sec := rfl
@[simp] theorem sramPutWord_slu (s : State) (i : Nat) (w : SramWord) : (sramPutWord s i w).slu = s.slu := rfl
@[simp] theorem sramPutWord_sys (s : State) (i : Nat) (w : SramWord) : (sramPutWord s i w).sys = s.sys := rfl
@[simp] theorem sramPutWord_noi (s : State) (i : Nat) (w : SramWord) : (sramPutWord s i w).noi = s.noi := rfl
@[simp] theorem sramPutWord_net (s : State) (i : Nat) (w : SramWord) : (sramPutWord s i w).net = s.net := rfl
@[simp] theorem sramPutWord_ecc (s : State) (i : Nat) (w : SramWord) : (sramPutWord s i w).ecc = s.ecc := rfl
@[simp] theorem sramPutWord_cch (s : State) (i : Nat) (w : SramWord) : (sramPutWord s i w).cch = s.cch := rfl
@[simp] theorem sramPutWord_cph (s : State) (i : Nat) (w : SramWord) : (sramPutWord s i w).cph = s.cph := rfl
@[simp] theorem sramPutWord_thm (s : State) (i : Nat) (w : SramWord) : (sramPutWord s i w).thm = s.thm := rfl
@[simp] theorem sramPutWord_cal (s : State) (i : Nat) (w : SramWord) : (sramPutWord s i w).cal = s.cal := rfl
@[simp] theorem sramPutWord_arc (s : State) (i : Nat) (w : SramWord) : (sramPutWord s i w).arc = s.arc := rfl
@[simp] theorem sramPutWord_tap (s : State) (i : Nat) (w : SramWord) : (sramPutWord s i w).tap = s.tap := rfl
@[simp] theorem sramPutWord_imone (s : State) (i : Nat) (w : SramWord) : (sramPutWord s i w).imone = s.imone := rfl
@[simp] theorem sramPutWord_flash (s : State) (i : Nat) (w : SramWord) : (sramPutWord s i w).flash = s.flash := rfl
@[simp] theorem rd_sramPutWord (s : State) (i : Nat) (w : SramWord) (r : Nat) : rd (sramPutWord s i w) r = rd s r := rfl
@[simp] theorem rdN_sramPutWord (s : State) (i : Nat) (w : SramWord) (r : Nat) : rdN (sramPutWord s i w) r = rdN s r := rfl
@[simp] theorem getF_sramPutWord (s : State) (i : Nat) (w : SramWord) (r p k : Nat) : getF (sramPutWord s i w) r p k = getF s r p k := rfl
@[simp] theorem bit_sramPutWord (s : State) (i : Nat) (w : SramWord) (r k : Nat) : bit (sramPutWord s i w) r k = bit s r k := rfl
@[simp] theorem rd64_sramPutWord (s : State) (i : Nat) (w : SramWord) (r : Nat) : rd64 (sramPutWord s i w) r = rd64 s r := rfl
theorem regsOk_sramPutWord {s : State} (i : Nat) (w : SramWord) (h : regsOk s) : regsOk (sramPutWord s i w) := h

@[simp] theorem nandPutByte_pending (s : State) (off v : Nat) : (nandPutByte s off v).pending = s.pending := rfl
@[simp] theorem nandPutByte_draws (s : State) (off v : Nat) : (nandPutByte s off v).draws = s.draws := rfl
@[simp] theorem nandPutByte_clock (s : State) (off v : Nat) : (nandPutByte s off v).clock = s.clock := rfl
@[simp] theorem nandPutByte_ptpFrac (s : State) (off v : Nat) : (nandPutByte s off v).ptpFrac = s.ptpFrac := rfl
@[simp] theorem nandPutByte_busData (s : State) (off v : Nat) : (nandPutByte s off v).busData = s.busData := rfl
@[simp] theorem nandPutByte_busError (s : State) (off v : Nat) : (nandPutByte s off v).busError = s.busError := rfl
@[simp] theorem nandPutByte_regs (s : State) (off v : Nat) : (nandPutByte s off v).regs = s.regs := rfl
@[simp] theorem nandPutByte_sram (s : State) (off v : Nat) : (nandPutByte s off v).sram = s.sram := rfl
@[simp] theorem nandPutByte_evr (s : State) (off v : Nat) : (nandPutByte s off v).evr = s.evr := rfl
@[simp] theorem nandPutByte_ang (s : State) (off v : Nat) : (nandPutByte s off v).ang = s.ang := rfl
@[simp] theorem nandPutByte_slots (s : State) (off v : Nat) : (nandPutByte s off v).slots = s.slots := rfl
@[simp] theorem nandPutByte_lanes (s : State) (off v : Nat) : (nandPutByte s off v).lanes = s.lanes := rfl
@[simp] theorem nandPutByte_dbLevel (s : State) (off v : Nat) : (nandPutByte s off v).dbLevel = s.dbLevel := rfl
@[simp] theorem nandPutByte_dbStop (s : State) (off v : Nat) : (nandPutByte s off v).dbStop = s.dbStop := rfl
@[simp] theorem nandPutByte_tsq (s : State) (off v : Nat) : (nandPutByte s off v).tsq = s.tsq := rfl
@[simp] theorem nandPutByte_microcode (s : State) (off v : Nat) : (nandPutByte s off v).microcode = s.microcode := rfl
@[simp] theorem nandPutByte_ucLoad (s : State) (off v : Nat) : (nandPutByte s off v).ucLoad = s.ucLoad := rfl
@[simp] theorem nandPutByte_ztb (s : State) (off v : Nat) : (nandPutByte s off v).ztb = s.ztb := rfl
@[simp] theorem nandPutByte_nqe (s : State) (off v : Nat) : (nandPutByte s off v).nqe = s.nqe := rfl
@[simp] theorem nandPutByte_cis (s : State) (off v : Nat) : (nandPutByte s off v).cis = s.cis := rfl
@[simp] theorem nandPutByte_srv (s : State) (off v : Nat) : (nandPutByte s off v).srv = s.srv := rfl
@[simp] theorem nandPutByte_rates (s : State) (off v : Nat) : (nandPutByte s off v).rates = s.rates := rfl
@[simp] theorem nandPutByte_spn (s : State) (off v : Nat) : (nandPutByte s off v).spn = s.spn := rfl
@[simp] theorem nandPutByte_sec (s : State) (off v : Nat) : (nandPutByte s off v).sec = s.sec := rfl
@[simp] theorem nandPutByte_slu (s : State) (off v : Nat) : (nandPutByte s off v).slu = s.slu := rfl
@[simp] theorem nandPutByte_sys (s : State) (off v : Nat) : (nandPutByte s off v).sys = s.sys := rfl
@[simp] theorem nandPutByte_noi (s : State) (off v : Nat) : (nandPutByte s off v).noi = s.noi := rfl
@[simp] theorem nandPutByte_net (s : State) (off v : Nat) : (nandPutByte s off v).net = s.net := rfl
@[simp] theorem nandPutByte_ecc (s : State) (off v : Nat) : (nandPutByte s off v).ecc = s.ecc := rfl
@[simp] theorem nandPutByte_cch (s : State) (off v : Nat) : (nandPutByte s off v).cch = s.cch := rfl
@[simp] theorem nandPutByte_cph (s : State) (off v : Nat) : (nandPutByte s off v).cph = s.cph := rfl
@[simp] theorem nandPutByte_thm (s : State) (off v : Nat) : (nandPutByte s off v).thm = s.thm := rfl
@[simp] theorem nandPutByte_cal (s : State) (off v : Nat) : (nandPutByte s off v).cal = s.cal := rfl
@[simp] theorem nandPutByte_arc (s : State) (off v : Nat) : (nandPutByte s off v).arc = s.arc := rfl
@[simp] theorem nandPutByte_tap (s : State) (off v : Nat) : (nandPutByte s off v).tap = s.tap := rfl
@[simp] theorem nandPutByte_imone (s : State) (off v : Nat) : (nandPutByte s off v).imone = s.imone := rfl
@[simp] theorem nandPutByte_flash (s : State) (off v : Nat) : (nandPutByte s off v).flash = s.flash := rfl
@[simp] theorem rd_nandPutByte (s : State) (off v : Nat) (r : Nat) : rd (nandPutByte s off v) r = rd s r := rfl
@[simp] theorem rdN_nandPutByte (s : State) (off v : Nat) (r : Nat) : rdN (nandPutByte s off v) r = rdN s r := rfl
@[simp] theorem getF_nandPutByte (s : State) (off v : Nat) (r p k : Nat) : getF (nandPutByte s off v) r p k = getF s r p k := rfl
@[simp] theorem bit_nandPutByte (s : State) (off v : Nat) (r k : Nat) : bit (nandPutByte s off v) r k = bit s r k := rfl
@[simp] theorem rd64_nandPutByte (s : State) (off v : Nat) (r : Nat) : rd64 (nandPutByte s off v) r = rd64 s r := rfl
theorem regsOk_nandPutByte {s : State} (off v : Nat) (h : regsOk s) : regsOk (nandPutByte s off v) := h

@[simp] theorem answer_pending (s : State) (v : Nat) : (answer v s).pending = s.pending := rfl
@[simp] theorem answer_draws (s : State) (v : Nat) : (answer v s).draws = s.draws := rfl
@[simp] theorem answer_clock (s : State) (v : Nat) : (answer v s).clock = s.clock := rfl
@[simp] theorem answer_ptpFrac (s : State) (v : Nat) : (answer v s).ptpFrac = s.ptpFrac := rfl
@[simp] theorem answer_regs (s : State) (v : Nat) : (answer v s).regs = s.regs := rfl
@[simp] theorem answer_sram (s : State) (v : Nat) : (answer v s).sram = s.sram := rfl
@[simp] theorem answer_nand (s : State) (v : Nat) : (answer v s).nand = s.nand := rfl
@[simp] theorem answer_evr (s : State) (v : Nat) : (answer v s).evr = s.evr := rfl
@[simp] theorem answer_ang (s : State) (v : Nat) : (answer v s).ang = s.ang := rfl
@[simp] theorem answer_slots (s : State) (v : Nat) : (answer v s).slots = s.slots := rfl
@[simp] theorem answer_lanes (s : State) (v : Nat) : (answer v s).lanes = s.lanes := rfl
@[simp] theorem answer_dbLevel (s : State) (v : Nat) : (answer v s).dbLevel = s.dbLevel := rfl
@[simp] theorem answer_dbStop (s : State) (v : Nat) : (answer v s).dbStop = s.dbStop := rfl
@[simp] theorem answer_tsq (s : State) (v : Nat) : (answer v s).tsq = s.tsq := rfl
@[simp] theorem answer_microcode (s : State) (v : Nat) : (answer v s).microcode = s.microcode := rfl
@[simp] theorem answer_ucLoad (s : State) (v : Nat) : (answer v s).ucLoad = s.ucLoad := rfl
@[simp] theorem answer_ztb (s : State) (v : Nat) : (answer v s).ztb = s.ztb := rfl
@[simp] theorem answer_nqe (s : State) (v : Nat) : (answer v s).nqe = s.nqe := rfl
@[simp] theorem answer_cis (s : State) (v : Nat) : (answer v s).cis = s.cis := rfl
@[simp] theorem answer_srv (s : State) (v : Nat) : (answer v s).srv = s.srv := rfl
@[simp] theorem answer_rates (s : State) (v : Nat) : (answer v s).rates = s.rates := rfl
@[simp] theorem answer_spn (s : State) (v : Nat) : (answer v s).spn = s.spn := rfl
@[simp] theorem answer_sec (s : State) (v : Nat) : (answer v s).sec = s.sec := rfl
@[simp] theorem answer_slu (s : State) (v : Nat) : (answer v s).slu = s.slu := rfl
@[simp] theorem answer_sys (s : State) (v : Nat) : (answer v s).sys = s.sys := rfl
@[simp] theorem answer_noi (s : State) (v : Nat) : (answer v s).noi = s.noi := rfl
@[simp] theorem answer_net (s : State) (v : Nat) : (answer v s).net = s.net := rfl
@[simp] theorem answer_ecc (s : State) (v : Nat) : (answer v s).ecc = s.ecc := rfl
@[simp] theorem answer_cch (s : State) (v : Nat) : (answer v s).cch = s.cch := rfl
@[simp] theorem answer_cph (s : State) (v : Nat) : (answer v s).cph = s.cph := rfl
@[simp] theorem answer_thm (s : State) (v : Nat) : (answer v s).thm = s.thm := rfl
@[simp] theorem answer_cal (s : State) (v : Nat) : (answer v s).cal = s.cal := rfl
@[simp] theorem answer_arc (s : State) (v : Nat) : (answer v s).arc = s.arc := rfl
@[simp] theorem answer_tap (s : State) (v : Nat) : (answer v s).tap = s.tap := rfl
@[simp] theorem answer_imone (s : State) (v : Nat) : (answer v s).imone = s.imone := rfl
@[simp] theorem answer_flash (s : State) (v : Nat) : (answer v s).flash = s.flash := rfl
@[simp] theorem rd_answer (s : State) (v : Nat) (r : Nat) : rd (answer v s) r = rd s r := rfl
@[simp] theorem rdN_answer (s : State) (v : Nat) (r : Nat) : rdN (answer v s) r = rdN s r := rfl
@[simp] theorem getF_answer (s : State) (v : Nat) (r p k : Nat) : getF (answer v s) r p k = getF s r p k := rfl
@[simp] theorem bit_answer (s : State) (v : Nat) (r k : Nat) : bit (answer v s) r k = bit s r k := rfl
@[simp] theorem rd64_answer (s : State) (v : Nat) (r : Nat) : rd64 (answer v s) r = rd64 s r := rfl
theorem regsOk_answer {s : State} (v : Nat) (h : regsOk s) : regsOk (answer v s) := h

@[simp] theorem busOk_pending (s : State) : (busOk s).pending = s.pending := rfl
@[simp] theorem busOk_draws (s : State) : (busOk s).draws = s.draws := rfl
@[simp] theorem busOk_clock (s : State) : (busOk s).clock = s.clock := rfl
@[simp] theorem busOk_ptpFrac (s : State) : (busOk s).ptpFrac = s.ptpFrac := rfl
@[simp] theorem busOk_busData (s : State) : (busOk s).busData = s.busData := rfl
@[simp] theorem busOk_regs (s : State) : (busOk s).regs = s.regs := rfl
@[simp] theorem busOk_sram (s : State) : (busOk s).sram = s.sram := rfl
@[simp] theorem busOk_nand (s : State) : (busOk s).nand = s.nand := rfl
@[simp] theorem busOk_evr (s : State) : (busOk s).evr = s.evr := rfl
@[simp] theorem busOk_ang (s : State) : (busOk s).ang = s.ang := rfl
@[simp] theorem busOk_slots (s : State) : (busOk s).slots = s.slots := rfl
@[simp] theorem busOk_lanes (s : State) : (busOk s).lanes = s.lanes := rfl
@[simp] theorem busOk_dbLevel (s : State) : (busOk s).dbLevel = s.dbLevel := rfl
@[simp] theorem busOk_dbStop (s : State) : (busOk s).dbStop = s.dbStop := rfl
@[simp] theorem busOk_tsq (s : State) : (busOk s).tsq = s.tsq := rfl
@[simp] theorem busOk_microcode (s : State) : (busOk s).microcode = s.microcode := rfl
@[simp] theorem busOk_ucLoad (s : State) : (busOk s).ucLoad = s.ucLoad := rfl
@[simp] theorem busOk_ztb (s : State) : (busOk s).ztb = s.ztb := rfl
@[simp] theorem busOk_nqe (s : State) : (busOk s).nqe = s.nqe := rfl
@[simp] theorem busOk_cis (s : State) : (busOk s).cis = s.cis := rfl
@[simp] theorem busOk_srv (s : State) : (busOk s).srv = s.srv := rfl
@[simp] theorem busOk_rates (s : State) : (busOk s).rates = s.rates := rfl
@[simp] theorem busOk_spn (s : State) : (busOk s).spn = s.spn := rfl
@[simp] theorem busOk_sec (s : State) : (busOk s).sec = s.sec := rfl
@[simp] theorem busOk_slu (s : State) : (busOk s).slu = s.slu := rfl
@[simp] theorem busOk_sys (s : State) : (busOk s).sys = s.sys := rfl
@[simp] theorem busOk_noi (s : State) : (busOk s).noi = s.noi := rfl
@[simp] theorem busOk_net (s : State) : (busOk s).net = s.net := rfl
@[simp] theorem busOk_ecc (s : State) : (busOk s).ecc = s.ecc := rfl
@[simp] theorem busOk_cch (s : State) : (busOk s).cch = s.cch := rfl
@[simp] theorem busOk_cph (s : State) : (busOk s).cph = s.cph := rfl
@[simp] theorem busOk_thm (s : State) : (busOk s).thm = s.thm := rfl
@[simp] theorem busOk_cal (s : State) : (busOk s).cal = s.cal := rfl
@[simp] theorem busOk_arc (s : State) : (busOk s).arc = s.arc := rfl
@[simp] theorem busOk_tap (s : State) : (busOk s).tap = s.tap := rfl
@[simp] theorem busOk_imone (s : State) : (busOk s).imone = s.imone := rfl
@[simp] theorem busOk_flash (s : State) : (busOk s).flash = s.flash := rfl
@[simp] theorem rd_busOk (s : State) (r : Nat) : rd (busOk s) r = rd s r := rfl
@[simp] theorem rdN_busOk (s : State) (r : Nat) : rdN (busOk s) r = rdN s r := rfl
@[simp] theorem getF_busOk (s : State) (r p k : Nat) : getF (busOk s) r p k = getF s r p k := rfl
@[simp] theorem bit_busOk (s : State) (r k : Nat) : bit (busOk s) r k = bit s r k := rfl
@[simp] theorem rd64_busOk (s : State) (r : Nat) : rd64 (busOk s) r = rd64 s r := rfl
theorem regsOk_busOk {s : State} (h : regsOk s) : regsOk (busOk s) := h

@[simp] theorem busFault_pending (s : State) : (busFault s).pending = s.pending := rfl
@[simp] theorem busFault_draws (s : State) : (busFault s).draws = s.draws := rfl
@[simp] theorem busFault_clock (s : State) : (busFault s).clock = s.clock := rfl
@[simp] theorem busFault_ptpFrac (s : State) : (busFault s).ptpFrac = s.ptpFrac := rfl
@[simp] theorem busFault_busData (s : State) : (busFault s).busData = s.busData := rfl
@[simp] theorem busFault_regs (s : State) : (busFault s).regs = s.regs := rfl
@[simp] theorem busFault_sram (s : State) : (busFault s).sram = s.sram := rfl
@[simp] theorem busFault_nand (s : State) : (busFault s).nand = s.nand := rfl
@[simp] theorem busFault_evr (s : State) : (busFault s).evr = s.evr := rfl
@[simp] theorem busFault_ang (s : State) : (busFault s).ang = s.ang := rfl
@[simp] theorem busFault_slots (s : State) : (busFault s).slots = s.slots := rfl
@[simp] theorem busFault_lanes (s : State) : (busFault s).lanes = s.lanes := rfl
@[simp] theorem busFault_dbLevel (s : State) : (busFault s).dbLevel = s.dbLevel := rfl
@[simp] theorem busFault_dbStop (s : State) : (busFault s).dbStop = s.dbStop := rfl
@[simp] theorem busFault_tsq (s : State) : (busFault s).tsq = s.tsq := rfl
@[simp] theorem busFault_microcode (s : State) : (busFault s).microcode = s.microcode := rfl
@[simp] theorem busFault_ucLoad (s : State) : (busFault s).ucLoad = s.ucLoad := rfl
@[simp] theorem busFault_ztb (s : State) : (busFault s).ztb = s.ztb := rfl
@[simp] theorem busFault_nqe (s : State) : (busFault s).nqe = s.nqe := rfl
@[simp] theorem busFault_cis (s : State) : (busFault s).cis = s.cis := rfl
@[simp] theorem busFault_srv (s : State) : (busFault s).srv = s.srv := rfl
@[simp] theorem busFault_rates (s : State) : (busFault s).rates = s.rates := rfl
@[simp] theorem busFault_spn (s : State) : (busFault s).spn = s.spn := rfl
@[simp] theorem busFault_sec (s : State) : (busFault s).sec = s.sec := rfl
@[simp] theorem busFault_slu (s : State) : (busFault s).slu = s.slu := rfl
@[simp] theorem busFault_sys (s : State) : (busFault s).sys = s.sys := rfl
@[simp] theorem busFault_noi (s : State) : (busFault s).noi = s.noi := rfl
@[simp] theorem busFault_net (s : State) : (busFault s).net = s.net := rfl
@[simp] theorem busFault_ecc (s : State) : (busFault s).ecc = s.ecc := rfl
@[simp] theorem busFault_cch (s : State) : (busFault s).cch = s.cch := rfl
@[simp] theorem busFault_cph (s : State) : (busFault s).cph = s.cph := rfl
@[simp] theorem busFault_thm (s : State) : (busFault s).thm = s.thm := rfl
@[simp] theorem busFault_cal (s : State) : (busFault s).cal = s.cal := rfl
@[simp] theorem busFault_arc (s : State) : (busFault s).arc = s.arc := rfl
@[simp] theorem busFault_tap (s : State) : (busFault s).tap = s.tap := rfl
@[simp] theorem busFault_imone (s : State) : (busFault s).imone = s.imone := rfl
@[simp] theorem busFault_flash (s : State) : (busFault s).flash = s.flash := rfl
@[simp] theorem rd_busFault (s : State) (r : Nat) : rd (busFault s) r = rd s r := rfl
@[simp] theorem rdN_busFault (s : State) (r : Nat) : rdN (busFault s) r = rdN s r := rfl
@[simp] theorem getF_busFault (s : State) (r p k : Nat) : getF (busFault s) r p k = getF s r p k := rfl
@[simp] theorem bit_busFault (s : State) (r k : Nat) : bit (busFault s) r k = bit s r k := rfl
@[simp] theorem rd64_busFault (s : State) (r : Nat) : rd64 (busFault s) r = rd64 s r := rfl
theorem regsOk_busFault {s : State} (h : regsOk s) : regsOk (busFault s) := h

@[simp] theorem modAng_pending (s : State) (f : AngState → AngState) : (modAng s f).pending = s.pending := rfl
@[simp] theorem modAng_draws (s : State) (f : AngState → AngState) : (modAng s f).draws = s.draws := rfl
@[simp] theorem modAng_clock (s : State) (f : AngState → AngState) : (modAng s f).clock = s.clock := rfl
@[simp] theorem modAng_ptpFrac (s : State) (f : AngState → AngState) : (modAng s f).ptpFrac = s.ptpFrac := rfl
@[simp] theorem modAng_busData (s : State) (f : AngState → AngState) : (modAng s f).busData = s.busData := rfl
@[simp] theorem modAng_busError (s : State) (f : AngState → AngState) : (modAng s f).busError = s.busError := rfl
@[simp] theorem modAng_regs (s : State) (f : AngState → AngState) : (modAng s f).regs = s.regs := rfl
@[simp] theorem modAng_sram (s : State) (f : AngState → AngState) : (modAng s f).sram = s.sram := rfl
@[simp] theorem modAng_nand (s : State) (f : AngState → AngState) : (modAng s f).nand = s.nand := rfl
@[simp] theorem modAng_evr (s : State) (f : AngState → AngState) : (modAng s f).evr = s.evr := rfl
@[simp] theorem modAng_slots (s : State) (f : AngState → AngState) : (modAng s f).slots = s.slots := rfl
@[simp] theorem modAng_lanes (s : State) (f : AngState → AngState) : (modAng s f).lanes = s.lanes := rfl
@[simp] theorem modAng_dbLevel (s : State) (f : AngState → AngState) : (modAng s f).dbLevel = s.dbLevel := rfl
@[simp] theorem modAng_dbStop (s : State) (f : AngState → AngState) : (modAng s f).dbStop = s.dbStop := rfl
@[simp] theorem modAng_tsq (s : State) (f : AngState → AngState) : (modAng s f).tsq = s.tsq := rfl
@[simp] theorem modAng_microcode (s : State) (f : AngState → AngState) : (modAng s f).microcode = s.microcode := rfl
@[simp] theorem modAng_ucLoad (s : State) (f : AngState → AngState) : (modAng s f).ucLoad = s.ucLoad := rfl
@[simp] theorem modAng_ztb (s : State) (f : AngState → AngState) : (modAng s f).ztb = s.ztb := rfl
@[simp] theorem modAng_nqe (s : State) (f : AngState → AngState) : (modAng s f).nqe = s.nqe := rfl
@[simp] theorem modAng_cis (s : State) (f : AngState → AngState) : (modAng s f).cis = s.cis := rfl
@[simp] theorem modAng_srv (s : State) (f : AngState → AngState) : (modAng s f).srv = s.srv := rfl
@[simp] theorem modAng_rates (s : State) (f : AngState → AngState) : (modAng s f).rates = s.rates := rfl
@[simp] theorem modAng_spn (s : State) (f : AngState → AngState) : (modAng s f).spn = s.spn := rfl
@[simp] theorem modAng_sec (s : State) (f : AngState → AngState) : (modAng s f).sec = s.sec := rfl
@[simp] theorem modAng_slu (s : State) (f : AngState → AngState) : (modAng s f).slu = s.slu := rfl
@[simp] theorem modAng_sys (s : State) (f : AngState → AngState) : (modAng s f).sys = s.sys := rfl
@[simp] theorem modAng_noi (s : State) (f : AngState → AngState) : (modAng s f).noi = s.noi := rfl
@[simp] theorem modAng_net (s : State) (f : AngState → AngState) : (modAng s f).net = s.net := rfl
@[simp] theorem modAng_ecc (s : State) (f : AngState → AngState) : (modAng s f).ecc = s.ecc := rfl
@[simp] theorem modAng_cch (s : State) (f : AngState → AngState) : (modAng s f).cch = s.cch := rfl
@[simp] theorem modAng_cph (s : State) (f : AngState → AngState) : (modAng s f).cph = s.cph := rfl
@[simp] theorem modAng_thm (s : State) (f : AngState → AngState) : (modAng s f).thm = s.thm := rfl
@[simp] theorem modAng_cal (s : State) (f : AngState → AngState) : (modAng s f).cal = s.cal := rfl
@[simp] theorem modAng_arc (s : State) (f : AngState → AngState) : (modAng s f).arc = s.arc := rfl
@[simp] theorem modAng_tap (s : State) (f : AngState → AngState) : (modAng s f).tap = s.tap := rfl
@[simp] theorem modAng_imone (s : State) (f : AngState → AngState) : (modAng s f).imone = s.imone := rfl
@[simp] theorem modAng_flash (s : State) (f : AngState → AngState) : (modAng s f).flash = s.flash := rfl
@[simp] theorem modAng_ang (s : State) (f : AngState → AngState) : (modAng s f).ang = f s.ang := rfl
@[simp] theorem rd_modAng (s : State) (f : AngState → AngState) (r : Nat) : rd (modAng s f) r = rd s r := rfl
@[simp] theorem rdN_modAng (s : State) (f : AngState → AngState) (r : Nat) : rdN (modAng s f) r = rdN s r := rfl
@[simp] theorem getF_modAng (s : State) (f : AngState → AngState) (r p k : Nat) : getF (modAng s f) r p k = getF s r p k := rfl
@[simp] theorem bit_modAng (s : State) (f : AngState → AngState) (r k : Nat) : bit (modAng s f) r k = bit s r k := rfl
@[simp] theorem rd64_modAng (s : State) (f : AngState → AngState) (r : Nat) : rd64 (modAng s f) r = rd64 s r := rfl
theorem regsOk_modAng {s : State} (f : AngState → AngState) (h : regsOk s) : regsOk (modAng s f) := h

@[simp] theorem modCis_pending (s : State) (f : CisState → CisState) : (modCis s f).pending = s.pending := rfl
@[simp] theorem modCis_draws (s : State) (f : CisState → CisState) : (modCis s f).draws = s.draws := rfl
@[simp] theorem modCis_clock (s : State) (f : CisState → CisState) : (modCis s f).clock = s.clock := rfl
@[simp] theorem modCis_ptpFrac (s : State) (f : CisState → CisState) : (modCis s f).ptpFrac = s.ptpFrac := rfl
@[simp] theorem modCis_busData (s : State) (f : CisState → CisState) : (modCis s f).busData = s.busData := rfl
@[simp] theorem modCis_busError (s : State) (f : CisState → CisState) : (modCis s f).busError = s.busError := rfl
@[simp] theorem modCis_regs (s : State) (f : CisState → CisState) : (modCis s f).regs = s.regs := rfl
@[simp] theorem modCis_sram (s : State) (f : CisState → CisState) : (modCis s f).sram = s.sram := rfl
@[simp] theorem modCis_nand (s : State) (f : CisState → CisState) : (modCis s f).nand = s.nand := rfl
@[simp] theorem modCis_evr (s : State) (f : CisState → CisState) : (modCis s f).evr = s.evr := rfl
@[simp] theorem modCis_ang (s : State) (f : CisState → CisState) : (modCis s f).ang = s.ang := rfl
@[simp] theorem modCis_slots (s : State) (f : CisState → CisState) : (modCis s f).slots = s.slots := rfl
@[simp] theorem modCis_lanes (s : State) (f : CisState → CisState) : (modCis s f).lanes = s.lanes := rfl
@[simp] theorem modCis_dbLevel (s : State) (f : CisState → CisState) : (modCis s f).dbLevel = s.dbLevel := rfl
@[simp] theorem modCis_dbStop (s : State) (f : CisState → CisState) : (modCis s f).dbStop = s.dbStop := rfl
@[simp] theorem modCis_tsq (s : State) (f : CisState → CisState) : (modCis s f).tsq = s.tsq := rfl
@[simp] theorem modCis_microcode (s : State) (f : CisState → CisState) : (modCis s f).microcode = s.microcode := rfl
@[simp] theorem modCis_ucLoad (s : State) (f : CisState → CisState) : (modCis s f).ucLoad = s.ucLoad := rfl
@[simp] theorem modCis_ztb (s : State) (f : CisState → CisState) : (modCis s f).ztb = s.ztb := rfl
@[simp] theorem modCis_nqe (s : State) (f : CisState → CisState) : (modCis s f).nqe = s.nqe := rfl
@[simp] theorem modCis_srv (s : State) (f : CisState → CisState) : (modCis s f).srv = s.srv := rfl
@[simp] theorem modCis_rates (s : State) (f : CisState → CisState) : (modCis s f).rates = s.rates := rfl
@[simp] theorem modCis_spn (s : State) (f : CisState → CisState) : (modCis s f).spn = s.spn := rfl
@[simp] theorem modCis_sec (s : State) (f : CisState → CisState) : (modCis s f).sec = s.sec := rfl
@[simp] theorem modCis_slu (s : State) (f : CisState → CisState) : (modCis s f).slu = s.slu := rfl
@[simp] theorem modCis_sys (s : State) (f : CisState → CisState) : (modCis s f).sys = s.sys := rfl
@[simp] theorem modCis_noi (s : State) (f : CisState → CisState) : (modCis s f).noi = s.noi := rfl
@[simp] theorem modCis_net (s : State) (f : CisState → CisState) : (modCis s f).net = s.net := rfl
@[simp] theorem modCis_ecc (s : State) (f : CisState → CisState) : (modCis s f).ecc = s.ecc := rfl
@[simp] theorem modCis_cch (s : State) (f : CisState → CisState) : (modCis s f).cch = s.cch := rfl
@[simp] theorem modCis_cph (s : State) (f : CisState → CisState) : (modCis s f).cph = s.cph := rfl
@[simp] theorem modCis_thm (s : State) (f : CisState → CisState) : (modCis s f).thm = s.thm := rfl
@[simp] theorem modCis_cal (s : State) (f : CisState → CisState) : (modCis s f).cal = s.cal := rfl
@[simp] theorem modCis_arc (s : State) (f : CisState → CisState) : (modCis s f).arc = s.arc := rfl
@[simp] theorem modCis_tap (s : State) (f : CisState → CisState) : (modCis s f).tap = s.tap := rfl
@[simp] theorem modCis_imone (s : State) (f : CisState → CisState) : (modCis s f).imone = s.imone := rfl
@[simp] theorem modCis_flash (s : State) (f : CisState → CisState) : (modCis s f).flash = s.flash := rfl
@[simp] theorem modCis_cis (s : State) (f : CisState → CisState) : (modCis s f).cis = f s.cis := rfl
@[simp] theorem rd_modCis (s : State) (f : CisState → CisState) (r : Nat) : rd (modCis s f) r = rd s r := rfl
@[simp] theorem rdN_modCis (s : State) (f : CisState → CisState) (r : Nat) : rdN (modCis s f) r = rdN s r := rfl
@[simp] theorem getF_modCis (s : State) (f : CisState → CisState) (r p k : Nat) : getF (modCis s f) r p k = getF s r p k := rfl
@[simp] theorem bit_modCis (s : State) (f : CisState → CisState) (r k : Nat) : bit (modCis s f) r k = bit s r k := rfl
@[simp] theorem rd64_modCis (s : State) (f : CisState → CisState) (r : Nat) : rd64 (modCis s f) r = rd64 s r := rfl
theorem regsOk_modCis {s : State} (f : CisState → CisState) (h : regsOk s) : regsOk (modCis s f) := h

@[simp] theorem modNqe_pending (s : State) (f : NqeState → NqeState) : (modNqe s f).pending = s.pending := rfl
@[simp] theorem modNqe_draws (s : State) (f : NqeState → NqeState) : (modNqe s f).draws = s.draws := rfl
@[simp] theorem modNqe_clock (s : State) (f : NqeState → NqeState) : (modNqe s f).clock = s.clock := rfl
@[simp] theorem modNqe_ptpFrac (s : State) (f : NqeState → NqeState) : (modNqe s f).ptpFrac = s.ptpFrac := rfl
@[simp] theorem modNqe_busData (s : State) (f : NqeState → NqeState) : (modNqe s f).busData = s.busData := rfl
@[simp] theorem modNqe_busError (s : State) (f : NqeState → NqeState) : (modNqe s f).busError = s.busError := rfl
@[simp] theorem modNqe_regs (s : State) (f : NqeState → NqeState) : (modNqe s f).regs = s.regs := rfl
@[simp] theorem modNqe_sram (s : State) (f : NqeState → NqeState) : (modNqe s f).sram = s.sram := rfl
@[simp] theorem modNqe_nand (s : State) (f : NqeState → NqeState) : (modNqe s f).nand = s.nand := rfl
@[simp] theorem modNqe_evr (s : State) (f : NqeState → NqeState) : (modNqe s f).evr = s.evr := rfl
@[simp] theorem modNqe_ang (s : State) (f : NqeState → NqeState) : (modNqe s f).ang = s.ang := rfl
@[simp] theorem modNqe_slots (s : State) (f : NqeState → NqeState) : (modNqe s f).slots = s.slots := rfl
@[simp] theorem modNqe_lanes (s : State) (f : NqeState → NqeState) : (modNqe s f).lanes = s.lanes := rfl
@[simp] theorem modNqe_dbLevel (s : State) (f : NqeState → NqeState) : (modNqe s f).dbLevel = s.dbLevel := rfl
@[simp] theorem modNqe_dbStop (s : State) (f : NqeState → NqeState) : (modNqe s f).dbStop = s.dbStop := rfl
@[simp] theorem modNqe_tsq (s : State) (f : NqeState → NqeState) : (modNqe s f).tsq = s.tsq := rfl
@[simp] theorem modNqe_microcode (s : State) (f : NqeState → NqeState) : (modNqe s f).microcode = s.microcode := rfl
@[simp] theorem modNqe_ucLoad (s : State) (f : NqeState → NqeState) : (modNqe s f).ucLoad = s.ucLoad := rfl
@[simp] theorem modNqe_ztb (s : State) (f : NqeState → NqeState) : (modNqe s f).ztb = s.ztb := rfl
@[simp] theorem modNqe_cis (s : State) (f : NqeState → NqeState) : (modNqe s f).cis = s.cis := rfl
@[simp] theorem modNqe_srv (s : State) (f : NqeState → NqeState) : (modNqe s f).srv = s.srv := rfl
@[simp] theorem modNqe_rates (s : State) (f : NqeState → NqeState) : (modNqe s f).rates = s.rates := rfl
@[simp] theorem modNqe_spn (s : State) (f : NqeState → NqeState) : (modNqe s f).spn = s.spn := rfl
@[simp] theorem modNqe_sec (s : State) (f : NqeState → NqeState) : (modNqe s f).sec = s.sec := rfl
@[simp] theorem modNqe_slu (s : State) (f : NqeState → NqeState) : (modNqe s f).slu = s.slu := rfl
@[simp] theorem modNqe_sys (s : State) (f : NqeState → NqeState) : (modNqe s f).sys = s.sys := rfl
@[simp] theorem modNqe_noi (s : State) (f : NqeState → NqeState) : (modNqe s f).noi = s.noi := rfl
@[simp] theorem modNqe_net (s : State) (f : NqeState → NqeState) : (modNqe s f).net = s.net := rfl
@[simp] theorem modNqe_ecc (s : State) (f : NqeState → NqeState) : (modNqe s f).ecc = s.ecc := rfl
@[simp] theorem modNqe_cch (s : State) (f : NqeState → NqeState) : (modNqe s f).cch = s.cch := rfl
@[simp] theorem modNqe_cph (s : State) (f : NqeState → NqeState) : (modNqe s f).cph = s.cph := rfl
@[simp] theorem modNqe_thm (s : State) (f : NqeState → NqeState) : (modNqe s f).thm = s.thm := rfl
@[simp] theorem modNqe_cal (s : State) (f : NqeState → NqeState) : (modNqe s f).cal = s.cal := rfl
@[simp] theorem modNqe_arc (s : State) (f : NqeState → NqeState) : (modNqe s f).arc = s.arc := rfl
@[simp] theorem modNqe_tap (s : State) (f : NqeState → NqeState) : (modNqe s f).tap = s.tap := rfl
@[simp] theorem modNqe_imone (s : State) (f : NqeState → NqeState) : (modNqe s f).imone = s.imone := rfl
@[simp] theorem modNqe_flash (s : State) (f : NqeState → NqeState) : (modNqe s f).flash = s.flash := rfl
@[simp] theorem modNqe_nqe (s : State) (f : NqeState → NqeState) : (modNqe s f).nqe = f s.nqe := rfl
@[simp] theorem rd_modNqe (s : State) (f : NqeState → NqeState) (r : Nat) : rd (modNqe s f) r = rd s r := rfl
@[simp] theorem rdN_modNqe (s : State) (f : NqeState → NqeState) (r : Nat) : rdN (modNqe s f) r = rdN s r := rfl
@[simp] theorem getF_modNqe (s : State) (f : NqeState → NqeState) (r p k : Nat) : getF (modNqe s f) r p k = getF s r p k := rfl
@[simp] theorem bit_modNqe (s : State) (f : NqeState → NqeState) (r k : Nat) : bit (modNqe s f) r k = bit s r k := rfl
@[simp] theorem rd64_modNqe (s : State) (f : NqeState → NqeState) (r : Nat) : rd64 (modNqe s f) r = rd64 s r := rfl
theorem regsOk_modNqe {s : State} (f : NqeState → NqeState) (h : regsOk s) : regsOk (modNqe s f) := h

@[simp] theorem modCph_pending (s : State) (f : CphState → CphState) : (modCph s f).pending = s.pending := rfl
@[simp] theorem modCph_draws (s : State) (f : CphState → CphState) : (modCph s f).draws = s.draws := rfl
@[simp] theorem modCph_clock (s : State) (f : CphState → CphState) : (modCph s f).clock = s.clock := rfl
@[simp] theorem modCph_ptpFrac (s : State) (f : CphState → CphState) : (modCph s f).ptpFrac = s.ptpFrac := rfl
@[simp] theorem modCph_busData (s : State) (f : CphState → CphState) : (modCph s f).busData = s.busData := rfl
@[simp] theorem modCph_busError (s : State) (f : CphState → CphState) : (modCph s f).busError = s.busError := rfl
@[simp] theorem modCph_regs (s : State) (f : CphState → CphState) : (modCph s f).regs = s.regs := rfl
@[simp] theorem modCph_sram (s : State) (f : CphState → CphState) : (modCph s f).sram = s.sram := rfl
@[simp] theorem modCph_nand (s : State) (f : CphState → CphState) : (modCph s f).nand = s.nand := rfl
@[simp] theorem modCph_evr (s : State) (f : CphState → CphState) : (modCph s f).evr = s.evr := rfl
@[simp] theorem modCph_ang (s : State) (f : CphState → CphState) : (modCph s f).ang = s.ang := rfl
@[simp] theorem modCph_slots (s : State) (f : CphState → CphState) : (modCph s f).slots = s.slots := rfl
@[simp] theorem modCph_lanes (s : State) (f : CphState → CphState) : (modCph s f).lanes = s.lanes := rfl
@[simp] theorem modCph_dbLevel (s : State) (f : CphState → CphState) : (modCph s f).dbLevel = s.dbLevel := rfl
@[simp] theorem modCph_dbStop (s : State) (f : CphState → CphState) : (modCph s f).dbStop = s.dbStop := rfl
@[simp] theorem modCph_tsq (s : State) (f : CphState → CphState) : (modCph s f).tsq = s.tsq := rfl
@[simp] theorem modCph_microcode (s : State) (f : CphState → CphState) : (modCph s f).microcode = s.microcode := rfl
@[simp] theorem modCph_ucLoad (s : State) (f : CphState → CphState) : (modCph s f).ucLoad = s.ucLoad := rfl
@[simp] theorem modCph_ztb (s : State) (f : CphState → CphState) : (modCph s f).ztb = s.ztb := rfl
@[simp] theorem modCph_nqe (s : State) (f : CphState → CphState) : (modCph s f).nqe = s.nqe := rfl
@[simp] theorem modCph_cis (s : State) (f : CphState → CphState) : (modCph s f).cis = s.cis := rfl
@[simp] theorem modCph_srv (s : State) (f : CphState → CphState) : (modCph s f).srv = s.srv := rfl
@[simp] theorem modCph_rates (s : State) (f : CphState → CphState) : (modCph s f).rates = s.rates := rfl
@[simp] theorem modCph_spn (s : State) (f : CphState → CphState) : (modCph s f).spn = s.spn := rfl
@[simp] theorem modCph_sec (s : State) (f : CphState → CphState) : (modCph s f).sec = s.sec := rfl
@[simp] theorem modCph_slu (s : State) (f : CphState → CphState) : (modCph s f).slu = s.slu := rfl
@[simp] theorem modCph_sys (s : State) (f : CphState → CphState) : (modCph s f).sys = s.sys := rfl
@[simp] theorem modCph_noi (s : State) (f : CphState → CphState) : (modCph s f).noi = s.noi := rfl
@[simp] theorem modCph_net (s : State) (f : CphState → CphState) : (modCph s f).net = s.net := rfl
@[simp] theorem modCph_ecc (s : State) (f : CphState → CphState) : (modCph s f).ecc = s.ecc := rfl
@[simp] theorem modCph_cch (s : State) (f : CphState → CphState) : (modCph s f).cch = s.cch := rfl
@[simp] theorem modCph_thm (s : State) (f : CphState → CphState) : (modCph s f).thm = s.thm := rfl
@[simp] theorem modCph_cal (s : State) (f : CphState → CphState) : (modCph s f).cal = s.cal := rfl
@[simp] theorem modCph_arc (s : State) (f : CphState → CphState) : (modCph s f).arc = s.arc := rfl
@[simp] theorem modCph_tap (s : State) (f : CphState → CphState) : (modCph s f).tap = s.tap := rfl
@[simp] theorem modCph_imone (s : State) (f : CphState → CphState) : (modCph s f).imone = s.imone := rfl
@[simp] theorem modCph_flash (s : State) (f : CphState → CphState) : (modCph s f).flash = s.flash := rfl
@[simp] theorem modCph_cph (s : State) (f : CphState → CphState) : (modCph s f).cph = f s.cph := rfl
@[simp] theorem rd_modCph (s : State) (f : CphState → CphState) (r : Nat) : rd (modCph s f) r = rd s r := rfl
@[simp] theorem rdN_modCph (s : State) (f : CphState → CphState) (r : Nat) : rdN (modCph s f) r = rdN s r := rfl
@[simp] theorem getF_modCph (s : State) (f : CphState → CphState) (r p k : Nat) : getF (modCph s f) r p k = getF s r p k := rfl
@[simp] theorem bit_modCph (s : State) (f : CphState → CphState) (r k : Nat) : bit (modCph s f) r k = bit s r k := rfl
@[simp] theorem rd64_modCph (s : State) (f : CphState → CphState) (r : Nat) : rd64 (modCph s f) r = rd64 s r := rfl
theorem regsOk_modCph {s : State} (f : CphState → CphState) (h : regsOk s) : regsOk (modCph s f) := h

@[simp] theorem modSlu_pending (s : State) (f : SluState → SluState) : (modSlu s f).pending = s.pending := rfl
@[simp] theorem modSlu_draws (s : State) (f : SluState → SluState) : (modSlu s f).draws = s.draws := rfl
@[simp] theorem modSlu_clock (s : State) (f : SluState → SluState) : (modSlu s f).clock = s.clock := rfl
@[simp] theorem modSlu_ptpFrac (s : State) (f : SluState → SluState) : (modSlu s f).ptpFrac = s.ptpFrac := rfl
@[simp] theorem modSlu_busData (s : State) (f : SluState → SluState) : (modSlu s f).busData = s.busData := rfl
@[simp] theorem modSlu_busError (s : State) (f : SluState → SluState) : (modSlu s f).busError = s.busError := rfl
@[simp] theorem modSlu_regs (s : State) (f : SluState → SluState) : (modSlu s f).regs = s.regs := rfl
@[simp] theorem modSlu_sram (s : State) (f : SluState → SluState) : (modSlu s f).sram = s.sram := rfl
@[simp] theorem modSlu_nand (s : State) (f : SluState → SluState) : (modSlu s f).nand = s.nand := rfl
@[simp] theorem modSlu_evr (s : State) (f : SluState → SluState) : (modSlu s f).evr = s.evr := rfl
@[simp] theorem modSlu_ang (s : State) (f : SluState → SluState) : (modSlu s f).ang = s.ang := rfl
@[simp] theorem modSlu_slots (s : State) (f : SluState → SluState) : (modSlu s f).slots = s.slots := rfl
@[simp] theorem modSlu_lanes (s : State) (f : SluState → SluState) : (modSlu s f).lanes = s.lanes := rfl
@[simp] theorem modSlu_dbLevel (s : State) (f : SluState → SluState) : (modSlu s f).dbLevel = s.dbLevel := rfl
@[simp] theorem modSlu_dbStop (s : State) (f : SluState → SluState) : (modSlu s f).dbStop = s.dbStop := rfl
@[simp] theorem modSlu_tsq (s : State) (f : SluState → SluState) : (modSlu s f).tsq = s.tsq := rfl
@[simp] theorem modSlu_microcode (s : State) (f : SluState → SluState) : (modSlu s f).microcode = s.microcode := rfl
@[simp] theorem modSlu_ucLoad (s : State) (f : SluState → SluState) : (modSlu s f).ucLoad = s.ucLoad := rfl
@[simp] theorem modSlu_ztb (s : State) (f : SluState → SluState) : (modSlu s f).ztb = s.ztb := rfl
@[simp] theorem modSlu_nqe (s : State) (f : SluState → SluState) : (modSlu s f).nqe = s.nqe := rfl
@[simp] theorem modSlu_cis (s : State) (f : SluState → SluState) : (modSlu s f).cis = s.cis := rfl
@[simp] theorem modSlu_srv (s : State) (f : SluState → SluState) : (modSlu s f).srv = s.srv := rfl
@[simp] theorem modSlu_rates (s : State) (f : SluState → SluState) : (modSlu s f).rates = s.rates := rfl
@[simp] theorem modSlu_spn (s : State) (f : SluState → SluState) : (modSlu s f).spn = s.spn := rfl
@[simp] theorem modSlu_sec (s : State) (f : SluState → SluState) : (modSlu s f).sec = s.sec := rfl
@[simp] theorem modSlu_sys (s : State) (f : SluState → SluState) : (modSlu s f).sys = s.sys := rfl
@[simp] theorem modSlu_noi (s : State) (f : SluState → SluState) : (modSlu s f).noi = s.noi := rfl
@[simp] theorem modSlu_net (s : State) (f : SluState → SluState) : (modSlu s f).net = s.net := rfl
@[simp] theorem modSlu_ecc (s : State) (f : SluState → SluState) : (modSlu s f).ecc = s.ecc := rfl
@[simp] theorem modSlu_cch (s : State) (f : SluState → SluState) : (modSlu s f).cch = s.cch := rfl
@[simp] theorem modSlu_cph (s : State) (f : SluState → SluState) : (modSlu s f).cph = s.cph := rfl
@[simp] theorem modSlu_thm (s : State) (f : SluState → SluState) : (modSlu s f).thm = s.thm := rfl
@[simp] theorem modSlu_cal (s : State) (f : SluState → SluState) : (modSlu s f).cal = s.cal := rfl
@[simp] theorem modSlu_arc (s : State) (f : SluState → SluState) : (modSlu s f).arc = s.arc := rfl
@[simp] theorem modSlu_tap (s : State) (f : SluState → SluState) : (modSlu s f).tap = s.tap := rfl
@[simp] theorem modSlu_imone (s : State) (f : SluState → SluState) : (modSlu s f).imone = s.imone := rfl
@[simp] theorem modSlu_flash (s : State) (f : SluState → SluState) : (modSlu s f).flash = s.flash := rfl
@[simp] theorem modSlu_slu (s : State) (f : SluState → SluState) : (modSlu s f).slu = f s.slu := rfl
@[simp] theorem rd_modSlu (s : State) (f : SluState → SluState) (r : Nat) : rd (modSlu s f) r = rd s r := rfl
@[simp] theorem rdN_modSlu (s : State) (f : SluState → SluState) (r : Nat) : rdN (modSlu s f) r = rdN s r := rfl
@[simp] theorem getF_modSlu (s : State) (f : SluState → SluState) (r p k : Nat) : getF (modSlu s f) r p k = getF s r p k := rfl
@[simp] theorem bit_modSlu (s : State) (f : SluState → SluState) (r k : Nat) : bit (modSlu s f) r k = bit s r k := rfl
@[simp] theorem rd64_modSlu (s : State) (f : SluState → SluState) (r : Nat) : rd64 (modSlu s f) r = rd64 s r := rfl
theorem regsOk_modSlu {s : State} (f : SluState → SluState) (h : regsOk s) : regsOk (modSlu s f) := h

@[simp] theorem modEcc_pending (s : State) (f : EccState → EccState) : (modEcc s f).pending = s.pending := rfl
@[simp] theorem modEcc_draws (s : State) (f : EccState → EccState) : (modEcc s f).draws = s.draws := rfl
@[simp] theorem modEcc_clock (s : State) (f : EccState → EccState) : (modEcc s f).clock = s.clock := rfl
@[simp] theorem modEcc_ptpFrac (s : State) (f : EccState → EccState) : (modEcc s f).ptpFrac = s.ptpFrac := rfl
@[simp] theorem modEcc_busData (s : State) (f : EccState → EccState) : (modEcc s f).busData = s.busData := rfl
@[simp] theorem modEcc_busError (s : State) (f : EccState → EccState) : (modEcc s f).busError = s.busError := rfl
@[simp] theorem modEcc_regs (s : State) (f : EccState → EccState) : (modEcc s f).regs = s.regs := rfl
@[simp] theorem modEcc_sram (s : State) (f : EccState → EccState) : (modEcc s f).sram = s.sram := rfl
@[simp] theorem modEcc_nand (s : State) (f : EccState → EccState) : (modEcc s f).nand = s.nand := rfl
@[simp] theorem modEcc_evr (s : State) (f : EccState → EccState) : (modEcc s f).evr = s.evr := rfl
@[simp] theorem modEcc_ang (s : State) (f : EccState → EccState) : (modEcc s f).ang = s.ang := rfl
@[simp] theorem modEcc_slots (s : State) (f : EccState → EccState) : (modEcc s f).slots = s.slots := rfl
@[simp] theorem modEcc_lanes (s : State) (f : EccState → EccState) : (modEcc s f).lanes = s.lanes := rfl
@[simp] theorem modEcc_dbLevel (s : State) (f : EccState → EccState) : (modEcc s f).dbLevel = s.dbLevel := rfl
@[simp] theorem modEcc_dbStop (s : State) (f : EccState → EccState) : (modEcc s f).dbStop = s.dbStop := rfl
@[simp] theorem modEcc_tsq (s : State) (f : EccState → EccState) : (modEcc s f).tsq = s.tsq := rfl
@[simp] theorem modEcc_microcode (s : State) (f : EccState → EccState) : (modEcc s f).microcode = s.microcode := rfl
@[simp] theorem modEcc_ucLoad (s : State) (f : EccState → EccState) : (modEcc s f).ucLoad = s.ucLoad := rfl
@[simp] theorem modEcc_ztb (s : State) (f : EccState → EccState) : (modEcc s f).ztb = s.ztb := rfl
@[simp] theorem modEcc_nqe (s : State) (f : EccState → EccState) : (modEcc s f).nqe = s.nqe := rfl
@[simp] theorem modEcc_cis (s : State) (f : EccState → EccState) : (modEcc s f).cis = s.cis := rfl
@[simp] theorem modEcc_srv (s : State) (f : EccState → EccState) : (modEcc s f).srv = s.srv := rfl
@[simp] theorem modEcc_rates (s : State) (f : EccState → EccState) : (modEcc s f).rates = s.rates := rfl
@[simp] theorem modEcc_spn (s : State) (f : EccState → EccState) : (modEcc s f).spn = s.spn := rfl
@[simp] theorem modEcc_sec (s : State) (f : EccState → EccState) : (modEcc s f).sec = s.sec := rfl
@[simp] theorem modEcc_slu (s : State) (f : EccState → EccState) : (modEcc s f).slu = s.slu := rfl
@[simp] theorem modEcc_sys (s : State) (f : EccState → EccState) : (modEcc s f).sys = s.sys := rfl
@[simp] theorem modEcc_noi (s : State) (f : EccState → EccState) : (modEcc s f).noi = s.noi := rfl
@[simp] theorem modEcc_net (s : State) (f : EccState → EccState) : (modEcc s f).net = s.net := rfl
@[simp] theorem modEcc_cch (s : State) (f : EccState → EccState) : (modEcc s f).cch = s.cch := rfl
@[simp] theorem modEcc_cph (s : State) (f : EccState → EccState) : (modEcc s f).cph = s.cph := rfl
@[simp] theorem modEcc_thm (s : State) (f : EccState → EccState) : (modEcc s f).thm = s.thm := rfl
@[simp] theorem modEcc_cal (s : State) (f : EccState → EccState) : (modEcc s f).cal = s.cal := rfl
@[simp] theorem modEcc_arc (s : State) (f : EccState → EccState) : (modEcc s f).arc = s.arc := rfl
@[simp] theorem modEcc_tap (s : State) (f : EccState → EccState) : (modEcc s f).tap = s.tap := rfl
@[simp] theorem modEcc_imone (s : State) (f : EccState → EccState) : (modEcc s f).imone = s.imone := rfl
@[simp] theorem modEcc_flash (s : State) (f : EccState → EccState) : (modEcc s f).flash = s.flash := rfl
@[simp] theorem modEcc_ecc (s : State) (f : EccState → EccState) : (modEcc s f).ecc = f s.ecc := rfl
@[simp] theorem rd_modEcc (s : State) (f : EccState → EccState) (r : Nat) : rd (modEcc s f) r = rd s r := rfl
@[simp] theorem rdN_modEcc (s : State) (f : EccState → EccState) (r : Nat) : rdN (modEcc s f) r = rdN s r := rfl
@[simp] theorem getF_modEcc (s : State) (f : EccState → EccState) (r p k : Nat) : getF (modEcc s f) r p k = getF s r p k := rfl
@[simp] theorem bit_modEcc (s : State) (f : EccState → EccState) (r k : Nat) : bit (modEcc s f) r k = bit s r k := rfl
@[simp] theorem rd64_modEcc (s : State) (f : EccState → EccState) (r : Nat) : rd64 (modEcc s f) r = rd64 s r := rfl
theorem regsOk_modEcc {s : State} (f : EccState → EccState) (h : regsOk s) : regsOk (modEcc s f) := h

@[simp] theorem modCch_pending (s : State) (f : CchState → CchState) : (modCch s f).pending = s.pending := rfl
@[simp] theorem modCch_draws (s : State) (f : CchState → CchState) : (modCch s f).draws = s.draws := rfl
@[simp] theorem modCch_clock (s : State) (f : CchState → CchState) : (modCch s f).clock = s.clock := rfl
@[simp] theorem modCch_ptpFrac (s : State) (f : CchState → CchState) : (modCch s f).ptpFrac = s.ptpFrac := rfl
@[simp] theorem modCch_busData (s : State) (f : CchState → CchState) : (modCch s f).busData = s.busData := rfl
@[simp] theorem modCch_busError (s : State) (f : CchState → CchState) : (modCch s f).busError = s.busError := rfl
@[simp] theorem modCch_regs (s : State) (f : CchState → CchState) : (modCch s f).regs = s.regs := rfl
@[simp] theorem modCch_sram (s : State) (f : CchState → CchState) : (modCch s f).sram = s.sram := rfl
@[simp] theorem modCch_nand (s : State) (f : CchState → CchState) : (modCch s f).nand = s.nand := rfl
@[simp] theorem modCch_evr (s : State) (f : CchState → CchState) : (modCch s f).evr = s.evr := rfl
@[simp] theorem modCch_ang (s : State) (f : CchState → CchState) : (modCch s f).ang = s.ang := rfl
@[simp] theorem modCch_slots (s : State) (f : CchState → CchState) : (modCch s f).slots = s.slots := rfl
@[simp] theorem modCch_lanes (s : State) (f : CchState → CchState) : (modCch s f).lanes = s.lanes := rfl
@[simp] theorem modCch_dbLevel (s : State) (f : CchState → CchState) : (modCch s f).dbLevel = s.dbLevel := rfl
@[simp] theorem modCch_dbStop (s : State) (f : CchState → CchState) : (modCch s f).dbStop = s.dbStop := rfl
@[simp] theorem modCch_tsq (s : State) (f : CchState → CchState) : (modCch s f).tsq = s.tsq := rfl
@[simp] theorem modCch_microcode (s : State) (f : CchState → CchState) : (modCch s f).microcode = s.microcode := rfl
@[simp] theorem modCch_ucLoad (s : State) (f : CchState → CchState) : (modCch s f).ucLoad = s.ucLoad := rfl
@[simp] theorem modCch_ztb (s : State) (f : CchState → CchState) : (modCch s f).ztb = s.ztb := rfl
@[simp] theorem modCch_nqe (s : State) (f : CchState → CchState) : (modCch s f).nqe = s.nqe := rfl
@[simp] theorem modCch_cis (s : State) (f : CchState → CchState) : (modCch s f).cis = s.cis := rfl
@[simp] theorem modCch_srv (s : State) (f : CchState → CchState) : (modCch s f).srv = s.srv := rfl
@[simp] theorem modCch_rates (s : State) (f : CchState → CchState) : (modCch s f).rates = s.rates := rfl
@[simp] theorem modCch_spn (s : State) (f : CchState → CchState) : (modCch s f).spn = s.spn := rfl
@[simp] theorem modCch_sec (s : State) (f : CchState → CchState) : (modCch s f).sec = s.sec := rfl
@[simp] theorem modCch_slu (s : State) (f : CchState → CchState) : (modCch s f).slu = s.slu := rfl
@[simp] theorem modCch_sys (s : State) (f : CchState → CchState) : (modCch s f).sys = s.sys := rfl
@[simp] theorem modCch_noi (s : State) (f : CchState → CchState) : (modCch s f).noi = s.noi := rfl
@[simp] theorem modCch_net (s : State) (f : CchState → CchState) : (modCch s f).net = s.net := rfl
@[simp] theorem modCch_ecc (s : State) (f : CchState → CchState) : (modCch s f).ecc = s.ecc := rfl
@[simp] theorem modCch_cph (s : State) (f : CchState → CchState) : (modCch s f).cph = s.cph := rfl
@[simp] theorem modCch_thm (s : State) (f : CchState → CchState) : (modCch s f).thm = s.thm := rfl
@[simp] theorem modCch_cal (s : State) (f : CchState → CchState) : (modCch s f).cal = s.cal := rfl
@[simp] theorem modCch_arc (s : State) (f : CchState → CchState) : (modCch s f).arc = s.arc := rfl
@[simp] theorem modCch_tap (s : State) (f : CchState → CchState) : (modCch s f).tap = s.tap := rfl
@[simp] theorem modCch_imone (s : State) (f : CchState → CchState) : (modCch s f).imone = s.imone := rfl
@[simp] theorem modCch_flash (s : State) (f : CchState → CchState) : (modCch s f).flash = s.flash := rfl
@[simp] theorem modCch_cch (s : State) (f : CchState → CchState) : (modCch s f).cch = f s.cch := rfl
@[simp] theorem rd_modCch (s : State) (f : CchState → CchState) (r : Nat) : rd (modCch s f) r = rd s r := rfl
@[simp] theorem rdN_modCch (s : State) (f : CchState → CchState) (r : Nat) : rdN (modCch s f) r = rdN s r := rfl
@[simp] theorem getF_modCch (s : State) (f : CchState → CchState) (r p k : Nat) : getF (modCch s f) r p k = getF s r p k := rfl
@[simp] theorem bit_modCch (s : State) (f : CchState → CchState) (r k : Nat) : bit (modCch s f) r k = bit s r k := rfl
@[simp] theorem rd64_modCch (s : State) (f : CchState → CchState) (r : Nat) : rd64 (modCch s f) r = rd64 s r := rfl
theorem regsOk_modCch {s : State} (f : CchState → CchState) (h : regsOk s) : regsOk (modCch s f) := h

@[simp] theorem modSys_pending (s : State) (f : SysState → SysState) : (modSys s f).pending = s.pending := rfl
@[simp] theorem modSys_draws (s : State) (f : SysState → SysState) : (modSys s f).draws = s.draws := rfl
@[simp] theorem modSys_clock (s : State) (f : SysState → SysState) : (modSys s f).clock = s.clock := rfl
@[simp] theorem modSys_ptpFrac (s : State) (f : SysState → SysState) : (modSys s f).ptpFrac = s.ptpFrac := rfl
@[simp] theorem modSys_busData (s : State) (f : SysState → SysState) : (modSys s f).busData = s.busData := rfl
@[simp] theorem modSys_busError (s : State) (f : SysState → SysState) : (modSys s f).busError = s.busError := rfl
@[simp] theorem modSys_regs (s : State) (f : SysState → SysState) : (modSys s f).regs = s.regs := rfl
@[simp] theorem modSys_sram (s : State) (f : SysState → SysState) : (modSys s f).sram = s.sram := rfl
@[simp] theorem modSys_nand (s : State) (f : SysState → SysState) : (modSys s f).nand = s.nand := rfl
@[simp] theorem modSys_evr (s : State) (f : SysState → SysState) : (modSys s f).evr = s.evr := rfl
@[simp] theorem modSys_ang (s : State) (f : SysState → SysState) : (modSys s f).ang = s.ang := rfl
@[simp] theorem modSys_slots (s : State) (f : SysState → SysState) : (modSys s f).slots = s.slots := rfl
@[simp] theorem modSys_lanes (s : State) (f : SysState → SysState) : (modSys s f).lanes = s.lanes := rfl
@[simp] theorem modSys_dbLevel (s : State) (f : SysState → SysState) : (modSys s f).dbLevel = s.dbLevel := rfl
@[simp] theorem modSys_dbStop (s : State) (f : SysState → SysState) : (modSys s f).dbStop = s.dbStop := rfl
@[simp] theorem modSys_tsq (s : State) (f : SysState → SysState) : (modSys s f).tsq = s.tsq := rfl
@[simp] theorem modSys_microcode (s : State) (f : SysState → SysState) : (modSys s f).microcode = s.microcode := rfl
@[simp] theorem modSys_ucLoad (s : State) (f : SysState → SysState) : (modSys s f).ucLoad = s.ucLoad := rfl
@[simp] theorem modSys_ztb (s : State) (f : SysState → SysState) : (modSys s f).ztb = s.ztb := rfl
@[simp] theorem modSys_nqe (s : State) (f : SysState → SysState) : (modSys s f).nqe = s.nqe := rfl
@[simp] theorem modSys_cis (s : State) (f : SysState → SysState) : (modSys s f).cis = s.cis := rfl
@[simp] theorem modSys_srv (s : State) (f : SysState → SysState) : (modSys s f).srv = s.srv := rfl
@[simp] theorem modSys_rates (s : State) (f : SysState → SysState) : (modSys s f).rates = s.rates := rfl
@[simp] theorem modSys_spn (s : State) (f : SysState → SysState) : (modSys s f).spn = s.spn := rfl
@[simp] theorem modSys_sec (s : State) (f : SysState → SysState) : (modSys s f).sec = s.sec := rfl
@[simp] theorem modSys_slu (s : State) (f : SysState → SysState) : (modSys s f).slu = s.slu := rfl
@[simp] theorem modSys_noi (s : State) (f : SysState → SysState) : (modSys s f).noi = s.noi := rfl
@[simp] theorem modSys_net (s : State) (f : SysState → SysState) : (modSys s f).net = s.net := rfl
@[simp] theorem modSys_ecc (s : State) (f : SysState → SysState) : (modSys s f).ecc = s.ecc := rfl
@[simp] theorem modSys_cch (s : State) (f : SysState → SysState) : (modSys s f).cch = s.cch := rfl
@[simp] theorem modSys_cph (s : State) (f : SysState → SysState) : (modSys s f).cph = s.cph := rfl
@[simp] theorem modSys_thm (s : State) (f : SysState → SysState) : (modSys s f).thm = s.thm := rfl
@[simp] theorem modSys_cal (s : State) (f : SysState → SysState) : (modSys s f).cal = s.cal := rfl
@[simp] theorem modSys_arc (s : State) (f : SysState → SysState) : (modSys s f).arc = s.arc := rfl
@[simp] theorem modSys_tap (s : State) (f : SysState → SysState) : (modSys s f).tap = s.tap := rfl
@[simp] theorem modSys_imone (s : State) (f : SysState → SysState) : (modSys s f).imone = s.imone := rfl
@[simp] theorem modSys_flash (s : State) (f : SysState → SysState) : (modSys s f).flash = s.flash := rfl
@[simp] theorem modSys_sys (s : State) (f : SysState → SysState) : (modSys s f).sys = f s.sys := rfl
@[simp] theorem rd_modSys (s : State) (f : SysState → SysState) (r : Nat) : rd (modSys s f) r = rd s r := rfl
@[simp] theorem rdN_modSys (s : State) (f : SysState → SysState) (r : Nat) : rdN (modSys s f) r = rdN s r := rfl
@[simp] theorem getF_modSys (s : State) (f : SysState → SysState) (r p k : Nat) : getF (modSys s f) r p k = getF s r p k := rfl
@[simp] theorem bit_modSys (s : State) (f : SysState → SysState) (r k : Nat) : bit (modSys s f) r k = bit s r k := rfl
@[simp] theorem rd64_modSys (s : State) (f : SysState → SysState) (r : Nat) : rd64 (modSys s f) r = rd64 s r := rfl
theorem regsOk_modSys {s : State} (f : SysState → SysState) (h : regsOk s) : regsOk (modSys s f) := h

@[simp] theorem modCal_pending (s : State) (f : CalState → CalState) : (modCal s f).pending = s.pending := rfl
@[simp] theorem modCal_draws (s : State) (f : CalState → CalState) : (modCal s f).draws = s.draws := rfl
@[simp] theorem modCal_clock (s : State) (f : CalState → CalState) : (modCal s f).clock = s.clock := rfl
@[simp] theorem modCal_ptpFrac (s : State) (f : CalState → CalState) : (modCal s f).ptpFrac = s.ptpFrac := rfl
@[simp] theorem modCal_busData (s : State) (f : CalState → CalState) : (modCal s f).busData = s.busData := rfl
@[simp] theorem modCal_busError (s : State) (f : CalState → CalState) : (modCal s f).busError = s.busError := rfl
@[simp] theorem modCal_regs (s : State) (f : CalState → CalState) : (modCal s f).regs = s.regs := rfl
@[simp] theorem modCal_sram (s : State) (f : CalState → CalState) : (modCal s f).sram = s.sram := rfl
@[simp] theorem modCal_nand (s : State) (f : CalState → CalState) : (modCal s f).nand = s.nand := rfl
@[simp] theorem modCal_evr (s : State) (f : CalState → CalState) : (modCal s f).evr = s.evr := rfl
@[simp] theorem modCal_ang (s : State) (f : CalState → CalState) : (modCal s f).ang = s.ang := rfl
@[simp] theorem modCal_slots (s : State) (f : CalState → CalState) : (modCal s f).slots = s.slots := rfl
@[simp] theorem modCal_lanes (s : State) (f : CalState → CalState) : (modCal s f).lanes = s.lanes := rfl
@[simp] theorem modCal_dbLevel (s : State) (f : CalState → CalState) : (modCal s f).dbLevel = s.dbLevel := rfl
@[simp] theorem modCal_dbStop (s : State) (f : CalState → CalState) : (modCal s f).dbStop = s.dbStop := rfl
@[simp] theorem modCal_tsq (s : State) (f : CalState → CalState) : (modCal s f).tsq = s.tsq := rfl
@[simp] theorem modCal_microcode (s : State) (f : CalState → CalState) : (modCal s f).microcode = s.microcode := rfl
@[simp] theorem modCal_ucLoad (s : State) (f : CalState → CalState) : (modCal s f).ucLoad = s.ucLoad := rfl
@[simp] theorem modCal_ztb (s : State) (f : CalState → CalState) : (modCal s f).ztb = s.ztb := rfl
@[simp] theorem modCal_nqe (s : State) (f : CalState → CalState) : (modCal s f).nqe = s.nqe := rfl
@[simp] theorem modCal_cis (s : State) (f : CalState → CalState) : (modCal s f).cis = s.cis := rfl
@[simp] theorem modCal_srv (s : State) (f : CalState → CalState) : (modCal s f).srv = s.srv := rfl
@[simp] theorem modCal_rates (s : State) (f : CalState → CalState) : (modCal s f).rates = s.rates := rfl
@[simp] theorem modCal_spn (s : State) (f : CalState → CalState) : (modCal s f).spn = s.spn := rfl
@[simp] theorem modCal_sec (s : State) (f : CalState → CalState) : (modCal s f).sec = s.sec := rfl
@[simp] theorem modCal_slu (s : State) (f : CalState → CalState) : (modCal s f).slu = s.slu := rfl
@[simp] theorem modCal_sys (s : State) (f : CalState → CalState) : (modCal s f).sys = s.sys := rfl
@[simp] theorem modCal_noi (s : State) (f : CalState → CalState) : (modCal s f).noi = s.noi := rfl
@[simp] theorem modCal_net (s : State) (f : CalState → CalState) : (modCal s f).net = s.net := rfl
@[simp] theorem modCal_ecc (s : State) (f : CalState → CalState) : (modCal s f).ecc = s.ecc := rfl
@[simp] theorem modCal_cch (s : State) (f : CalState → CalState) : (modCal s f).cch = s.cch := rfl
@[simp] theorem modCal_cph (s : State) (f : CalState → CalState) : (modCal s f).cph = s.cph := rfl
@[simp] theorem modCal_thm (s : State) (f : CalState → CalState) : (modCal s f).thm = s.thm := rfl
@[simp] theorem modCal_arc (s : State) (f : CalState → CalState) : (modCal s f).arc = s.arc := rfl
@[simp] theorem modCal_tap (s : State) (f : CalState → CalState) : (modCal s f).tap = s.tap := rfl
@[simp] theorem modCal_imone (s : State) (f : CalState → CalState) : (modCal s f).imone = s.imone := rfl
@[simp] theorem modCal_flash (s : State) (f : CalState → CalState) : (modCal s f).flash = s.flash := rfl
@[simp] theorem modCal_cal (s : State) (f : CalState → CalState) : (modCal s f).cal = f s.cal := rfl
@[simp] theorem rd_modCal (s : State) (f : CalState → CalState) (r : Nat) : rd (modCal s f) r = rd s r := rfl
@[simp] theorem rdN_modCal (s : State) (f : CalState → CalState) (r : Nat) : rdN (modCal s f) r = rdN s r := rfl
@[simp] theorem getF_modCal (s : State) (f : CalState → CalState) (r p k : Nat) : getF (modCal s f) r p k = getF s r p k := rfl
@[simp] theorem bit_modCal (s : State) (f : CalState → CalState) (r k : Nat) : bit (modCal s f) r k = bit s r k := rfl
@[simp] theorem rd64_modCal (s : State) (f : CalState → CalState) (r : Nat) : rd64 (modCal s f) r = rd64 s r := rfl
theorem regsOk_modCal {s : State} (f : CalState → CalState) (h : regsOk s) : regsOk (modCal s f) := h

@[simp] theorem modSpn_pending (s : State) (f : Spn → Spn) : (modSpn s f).pending = s.pending := rfl
@[simp] theorem modSpn_draws (s : State) (f : Spn → Spn) : (modSpn s f).draws = s.draws := rfl
@[simp] theorem modSpn_clock (s : State) (f : Spn → Spn) : (modSpn s f).clock = s.clock := rfl
@[simp] theorem modSpn_ptpFrac (s : State) (f : Spn → Spn) : (modSpn s f).ptpFrac = s.ptpFrac := rfl
@[simp] theorem modSpn_busData (s : State) (f : Spn → Spn) : (modSpn s f).busData = s.busData := rfl
@[simp] theorem modSpn_busError (s : State) (f : Spn → Spn) : (modSpn s f).busError = s.busError := rfl
@[simp] theorem modSpn_regs (s : State) (f : Spn → Spn) : (modSpn s f).regs = s.regs := rfl
@[simp] theorem modSpn_sram (s : State) (f : Spn → Spn) : (modSpn s f).sram = s.sram := rfl
@[simp] theorem modSpn_nand (s : State) (f : Spn → Spn) : (modSpn s f).nand = s.nand := rfl
@[simp] theorem modSpn_evr (s : State) (f : Spn → Spn) : (modSpn s f).evr = s.evr := rfl
@[simp] theorem modSpn_ang (s : State) (f : Spn → Spn) : (modSpn s f).ang = s.ang := rfl
@[simp] theorem modSpn_slots (s : State) (f : Spn → Spn) : (modSpn s f).slots = s.slots := rfl
@[simp] theorem modSpn_lanes (s : State) (f : Spn → Spn) : (modSpn s f).lanes = s.lanes := rfl
@[simp] theorem modSpn_dbLevel (s : State) (f : Spn → Spn) : (modSpn s f).dbLevel = s.dbLevel := rfl
@[simp] theorem modSpn_dbStop (s : State) (f : Spn → Spn) : (modSpn s f).dbStop = s.dbStop := rfl
@[simp] theorem modSpn_tsq (s : State) (f : Spn → Spn) : (modSpn s f).tsq = s.tsq := rfl
@[simp] theorem modSpn_microcode (s : State) (f : Spn → Spn) : (modSpn s f).microcode = s.microcode := rfl
@[simp] theorem modSpn_ucLoad (s : State) (f : Spn → Spn) : (modSpn s f).ucLoad = s.ucLoad := rfl
@[simp] theorem modSpn_ztb (s : State) (f : Spn → Spn) : (modSpn s f).ztb = s.ztb := rfl
@[simp] theorem modSpn_nqe (s : State) (f : Spn → Spn) : (modSpn s f).nqe = s.nqe := rfl
@[simp] theorem modSpn_cis (s : State) (f : Spn → Spn) : (modSpn s f).cis = s.cis := rfl
@[simp] theorem modSpn_srv (s : State) (f : Spn → Spn) : (modSpn s f).srv = s.srv := rfl
@[simp] theorem modSpn_rates (s : State) (f : Spn → Spn) : (modSpn s f).rates = s.rates := rfl
@[simp] theorem modSpn_sec (s : State) (f : Spn → Spn) : (modSpn s f).sec = s.sec := rfl
@[simp] theorem modSpn_slu (s : State) (f : Spn → Spn) : (modSpn s f).slu = s.slu := rfl
@[simp] theorem modSpn_sys (s : State) (f : Spn → Spn) : (modSpn s f).sys = s.sys := rfl
@[simp] theorem modSpn_noi (s : State) (f : Spn → Spn) : (modSpn s f).noi = s.noi := rfl
@[simp] theorem modSpn_net (s : State) (f : Spn → Spn) : (modSpn s f).net = s.net := rfl
@[simp] theorem modSpn_ecc (s : State) (f : Spn → Spn) : (modSpn s f).ecc = s.ecc := rfl
@[simp] theorem modSpn_cch (s : State) (f : Spn → Spn) : (modSpn s f).cch = s.cch := rfl
@[simp] theorem modSpn_cph (s : State) (f : Spn → Spn) : (modSpn s f).cph = s.cph := rfl
@[simp] theorem modSpn_thm (s : State) (f : Spn → Spn) : (modSpn s f).thm = s.thm := rfl
@[simp] theorem modSpn_cal (s : State) (f : Spn → Spn) : (modSpn s f).cal = s.cal := rfl
@[simp] theorem modSpn_arc (s : State) (f : Spn → Spn) : (modSpn s f).arc = s.arc := rfl
@[simp] theorem modSpn_tap (s : State) (f : Spn → Spn) : (modSpn s f).tap = s.tap := rfl
@[simp] theorem modSpn_imone (s : State) (f : Spn → Spn) : (modSpn s f).imone = s.imone := rfl
@[simp] theorem modSpn_flash (s : State) (f : Spn → Spn) : (modSpn s f).flash = s.flash := rfl
@[simp] theorem modSpn_spn (s : State) (f : Spn → Spn) : (modSpn s f).spn = f s.spn := rfl
@[simp] theorem rd_modSpn (s : State) (f : Spn → Spn) (r : Nat) : rd (modSpn s f) r = rd s r := rfl
@[simp] theorem rdN_modSpn (s : State) (f : Spn → Spn) (r : Nat) : rdN (modSpn s f) r = rdN s r := rfl
@[simp] theorem getF_modSpn (s : State) (f : Spn → Spn) (r p k : Nat) : getF (modSpn s f) r p k = getF s r p k := rfl
@[simp] theorem bit_modSpn (s : State) (f : Spn → Spn) (r k : Nat) : bit (modSpn s f) r k = bit s r k := rfl
@[simp] theorem rd64_modSpn (s : State) (f : Spn → Spn) (r : Nat) : rd64 (modSpn s f) r = rd64 s r := rfl
theorem regsOk_modSpn {s : State} (f : Spn → Spn) (h : regsOk s) : regsOk (modSpn s f) := h

@[simp] theorem modFlash_pending (s : State) (f : NandState → NandState) : (modFlash s f).pending = s.pending := rfl
@[simp] theorem modFlash_draws (s : State) (f : NandState → NandState) : (modFlash s f).draws = s.draws := rfl
@[simp] theorem modFlash_clock (s : State) (f : NandState → NandState) : (modFlash s f).clock = s.clock := rfl
@[simp] theorem modFlash_ptpFrac (s : State) (f : NandState → NandState) : (modFlash s f).ptpFrac = s.ptpFrac := rfl
@[simp] theorem modFlash_busData (s : State) (f : NandState → NandState) : (modFlash s f).busData = s.busData := rfl
@[simp] theorem modFlash_busError (s : State) (f : NandState → NandState) : (modFlash s f).busError = s.busError := rfl
@[simp] theorem modFlash_regs (s : State) (f : NandState → NandState) : (modFlash s f).regs = s.regs := rfl
@[simp] theorem modFlash_sram (s : State) (f : NandState → NandState) : (modFlash s f).sram = s.sram := rfl
@[simp] theorem modFlash_nand (s : State) (f : NandState → NandState) : (modFlash s f).nand = s.nand := rfl
@[simp] theorem modFlash_evr (s : State) (f : NandState → NandState) : (modFlash s f).evr = s.evr := rfl
@[simp] theorem modFlash_ang (s : State) (f : NandState → NandState) : (modFlash s f).ang = s.ang := rfl
@[simp] theorem modFlash_slots (s : State) (f : NandState → NandState) : (modFlash s f).slots = s.slots := rfl
@[simp] theorem modFlash_lanes (s : State) (f : NandState → NandState) : (modFlash s f).lanes = s.lanes := rfl
@[simp] theorem modFlash_dbLevel (s : State) (f : NandState → NandState) : (modFlash s f).dbLevel = s.dbLevel := rfl
@[simp] theorem modFlash_dbStop (s : State) (f : NandState → NandState) : (modFlash s f).dbStop = s.dbStop := rfl
@[simp] theorem modFlash_tsq (s : State) (f : NandState → NandState) : (modFlash s f).tsq = s.tsq := rfl
@[simp] theorem modFlash_microcode (s : State) (f : NandState → NandState) : (modFlash s f).microcode = s.microcode := rfl
@[simp] theorem modFlash_ucLoad (s : State) (f : NandState → NandState) : (modFlash s f).ucLoad = s.ucLoad := rfl
@[simp] theorem modFlash_ztb (s : State) (f : NandState → NandState) : (modFlash s f).ztb = s.ztb := rfl
@[simp] theorem modFlash_nqe (s : State) (f : NandState → NandState) : (modFlash s f).nqe = s.nqe := rfl
@[simp] theorem modFlash_cis (s : State) (f : NandState → NandState) : (modFlash s f).cis = s.cis := rfl
@[simp] theorem modFlash_srv (s : State) (f : NandState → NandState) : (modFlash s f).srv = s.srv := rfl
@[simp] theorem modFlash_rates (s : State) (f : NandState → NandState) : (modFlash s f).rates = s.rates := rfl
@[simp] theorem modFlash_spn (s : State) (f : NandState → NandState) : (modFlash s f).spn = s.spn := rfl
@[simp] theorem modFlash_sec (s : State) (f : NandState → NandState) : (modFlash s f).sec = s.sec := rfl
@[simp] theorem modFlash_slu (s : State) (f : NandState → NandState) : (modFlash s f).slu = s.slu := rfl
@[simp] theorem modFlash_sys (s : State) (f : NandState → NandState) : (modFlash s f).sys = s.sys := rfl
@[simp] theorem modFlash_noi (s : State) (f : NandState → NandState) : (modFlash s f).noi = s.noi := rfl
@[simp] theorem modFlash_net (s : State) (f : NandState → NandState) : (modFlash s f).net = s.net := rfl
@[simp] theorem modFlash_ecc (s : State) (f : NandState → NandState) : (modFlash s f).ecc = s.ecc := rfl
@[simp] theorem modFlash_cch (s : State) (f : NandState → NandState) : (modFlash s f).cch = s.cch := rfl
@[simp] theorem modFlash_cph (s : State) (f : NandState → NandState) : (modFlash s f).cph = s.cph := rfl
@[simp] theorem modFlash_thm (s : State) (f : NandState → NandState) : (modFlash s f).thm = s.thm := rfl
@[simp] theorem modFlash_cal (s : State) (f : NandState → NandState) : (modFlash s f).cal = s.cal := rfl
@[simp] theorem modFlash_arc (s : State) (f : NandState → NandState) : (modFlash s f).arc = s.arc := rfl
@[simp] theorem modFlash_tap (s : State) (f : NandState → NandState) : (modFlash s f).tap = s.tap := rfl
@[simp] theorem modFlash_imone (s : State) (f : NandState → NandState) : (modFlash s f).imone = s.imone := rfl
@[simp] theorem modFlash_flash (s : State) (f : NandState → NandState) : (modFlash s f).flash = f s.flash := rfl
@[simp] theorem rd_modFlash (s : State) (f : NandState → NandState) (r : Nat) : rd (modFlash s f) r = rd s r := rfl
@[simp] theorem rdN_modFlash (s : State) (f : NandState → NandState) (r : Nat) : rdN (modFlash s f) r = rdN s r := rfl
@[simp] theorem getF_modFlash (s : State) (f : NandState → NandState) (r p k : Nat) : getF (modFlash s f) r p k = getF s r p k := rfl
@[simp] theorem bit_modFlash (s : State) (f : NandState → NandState) (r k : Nat) : bit (modFlash s f) r k = bit s r k := rfl
@[simp] theorem rd64_modFlash (s : State) (f : NandState → NandState) (r : Nat) : rd64 (modFlash s f) r = rd64 s r := rfl
theorem regsOk_modFlash {s : State} (f : NandState → NandState) (h : regsOk s) : regsOk (modFlash s f) := h

@[simp] theorem modNoi_pending (s : State) (f : NoiState → NoiState) : (modNoi s f).pending = s.pending := rfl
@[simp] theorem modNoi_draws (s : State) (f : NoiState → NoiState) : (modNoi s f).draws = s.draws := rfl
@[simp] theorem modNoi_clock (s : State) (f : NoiState → NoiState) : (modNoi s f).clock = s.clock := rfl
@[simp] theorem modNoi_ptpFrac (s : State) (f : NoiState → NoiState) : (modNoi s f).ptpFrac = s.ptpFrac := rfl
@[simp] theorem modNoi_busData (s : State) (f : NoiState → NoiState) : (modNoi s f).busData = s.busData := rfl
@[simp] theorem modNoi_busError (s : State) (f : NoiState → NoiState) : (modNoi s f).busError = s.busError := rfl
@[simp] theorem modNoi_regs (s : State) (f : NoiState → NoiState) : (modNoi s f).regs = s.regs := rfl
@[simp] theorem modNoi_sram (s : State) (f : NoiState → NoiState) : (modNoi s f).sram = s.sram := rfl
@[simp] theorem modNoi_nand (s : State) (f : NoiState → NoiState) : (modNoi s f).nand = s.nand := rfl
@[simp] theorem modNoi_evr (s : State) (f : NoiState → NoiState) : (modNoi s f).evr = s.evr := rfl
@[simp] theorem modNoi_ang (s : State) (f : NoiState → NoiState) : (modNoi s f).ang = s.ang := rfl
@[simp] theorem modNoi_slots (s : State) (f : NoiState → NoiState) : (modNoi s f).slots = s.slots := rfl
@[simp] theorem modNoi_lanes (s : State) (f : NoiState → NoiState) : (modNoi s f).lanes = s.lanes := rfl
@[simp] theorem modNoi_dbLevel (s : State) (f : NoiState → NoiState) : (modNoi s f).dbLevel = s.dbLevel := rfl
@[simp] theorem modNoi_dbStop (s : State) (f : NoiState → NoiState) : (modNoi s f).dbStop = s.dbStop := rfl
@[simp] theorem modNoi_tsq (s : State) (f : NoiState → NoiState) : (modNoi s f).tsq = s.tsq := rfl
@[simp] theorem modNoi_microcode (s : State) (f : NoiState → NoiState) : (modNoi s f).microcode = s.microcode := rfl
@[simp] theorem modNoi_ucLoad (s : State) (f : NoiState → NoiState) : (modNoi s f).ucLoad = s.ucLoad := rfl
@[simp] theorem modNoi_ztb (s : State) (f : NoiState → NoiState) : (modNoi s f).ztb = s.ztb := rfl
@[simp] theorem modNoi_nqe (s : State) (f : NoiState → NoiState) : (modNoi s f).nqe = s.nqe := rfl
@[simp] theorem modNoi_cis (s : State) (f : NoiState → NoiState) : (modNoi s f).cis = s.cis := rfl
@[simp] theorem modNoi_srv (s : State) (f : NoiState → NoiState) : (modNoi s f).srv = s.srv := rfl
@[simp] theorem modNoi_rates (s : State) (f : NoiState → NoiState) : (modNoi s f).rates = s.rates := rfl
@[simp] theorem modNoi_spn (s : State) (f : NoiState → NoiState) : (modNoi s f).spn = s.spn := rfl
@[simp] theorem modNoi_sec (s : State) (f : NoiState → NoiState) : (modNoi s f).sec = s.sec := rfl
@[simp] theorem modNoi_slu (s : State) (f : NoiState → NoiState) : (modNoi s f).slu = s.slu := rfl
@[simp] theorem modNoi_sys (s : State) (f : NoiState → NoiState) : (modNoi s f).sys = s.sys := rfl
@[simp] theorem modNoi_net (s : State) (f : NoiState → NoiState) : (modNoi s f).net = s.net := rfl
@[simp] theorem modNoi_ecc (s : State) (f : NoiState → NoiState) : (modNoi s f).ecc = s.ecc := rfl
@[simp] theorem modNoi_cch (s : State) (f : NoiState → NoiState) : (modNoi s f).cch = s.cch := rfl
@[simp] theorem modNoi_cph (s : State) (f : NoiState → NoiState) : (modNoi s f).cph = s.cph := rfl
@[simp] theorem modNoi_thm (s : State) (f : NoiState → NoiState) : (modNoi s f).thm = s.thm := rfl
@[simp] theorem modNoi_cal (s : State) (f : NoiState → NoiState) : (modNoi s f).cal = s.cal := rfl
@[simp] theorem modNoi_arc (s : State) (f : NoiState → NoiState) : (modNoi s f).arc = s.arc := rfl
@[simp] theorem modNoi_tap (s : State) (f : NoiState → NoiState) : (modNoi s f).tap = s.tap := rfl
@[simp] theorem modNoi_imone (s : State) (f : NoiState → NoiState) : (modNoi s f).imone = s.imone := rfl
@[simp] theorem modNoi_flash (s : State) (f : NoiState → NoiState) : (modNoi s f).flash = s.flash := rfl
@[simp] theorem modNoi_noi (s : State) (f : NoiState → NoiState) : (modNoi s f).noi = f s.noi := rfl
@[simp] theorem rd_modNoi (s : State) (f : NoiState → NoiState) (r : Nat) : rd (modNoi s f) r = rd s r := rfl
@[simp] theorem rdN_modNoi (s : State) (f : NoiState → NoiState) (r : Nat) : rdN (modNoi s f) r = rdN s r := rfl
@[simp] theorem getF_modNoi (s : State) (f : NoiState → NoiState) (r p k : Nat) : getF (modNoi s f) r p k = getF s r p k := rfl
@[simp] theorem bit_modNoi (s : State) (f : NoiState → NoiState) (r k : Nat) : bit (modNoi s f) r k = bit s r k := rfl
@[simp] theorem rd64_modNoi (s : State) (f : NoiState → NoiState) (r : Nat) : rd64 (modNoi s f) r = rd64 s r := rfl
theorem regsOk_modNoi {s : State} (f : NoiState → NoiState) (h : regsOk s) : regsOk (modNoi s f) := h

@[simp] theorem modArc_pending (s : State) (f : ArcState → ArcState) : (modArc s f).pending = s.pending := rfl
@[simp] theorem modArc_draws (s : State) (f : ArcState → ArcState) : (modArc s f).draws = s.draws := rfl
@[simp] theorem modArc_clock (s : State) (f : ArcState → ArcState) : (modArc s f).clock = s.clock := rfl
@[simp] theorem modArc_ptpFrac (s : State) (f : ArcState → ArcState) : (modArc s f).ptpFrac = s.ptpFrac := rfl
@[simp] theorem modArc_busData (s : State) (f : ArcState → ArcState) : (modArc s f).busData = s.busData := rfl
@[simp] theorem modArc_busError (s : State) (f : ArcState → ArcState) : (modArc s f).busError = s.busError := rfl
@[simp] theorem modArc_regs (s : State) (f : ArcState → ArcState) : (modArc s f).regs = s.regs := rfl
@[simp] theorem modArc_sram (s : State) (f : ArcState → ArcState) : (modArc s f).sram = s.sram := rfl
@[simp] theorem modArc_nand (s : State) (f : ArcState → ArcState) : (modArc s f).nand = s.nand := rfl
@[simp] theorem modArc_evr (s : State) (f : ArcState → ArcState) : (modArc s f).evr = s.evr := rfl
@[simp] theorem modArc_ang (s : State) (f : ArcState → ArcState) : (modArc s f).ang = s.ang := rfl
@[simp] theorem modArc_slots (s : State) (f : ArcState → ArcState) : (modArc s f).slots = s.slots := rfl
@[simp] theorem modArc_lanes (s : State) (f : ArcState → ArcState) : (modArc s f).lanes = s.lanes := rfl
@[simp] theorem modArc_dbLevel (s : State) (f : ArcState → ArcState) : (modArc s f).dbLevel = s.dbLevel := rfl
@[simp] theorem modArc_dbStop (s : State) (f : ArcState → ArcState) : (modArc s f).dbStop = s.dbStop := rfl
@[simp] theorem modArc_tsq (s : State) (f : ArcState → ArcState) : (modArc s f).tsq = s.tsq := rfl
@[simp] theorem modArc_microcode (s : State) (f : ArcState → ArcState) : (modArc s f).microcode = s.microcode := rfl
@[simp] theorem modArc_ucLoad (s : State) (f : ArcState → ArcState) : (modArc s f).ucLoad = s.ucLoad := rfl
@[simp] theorem modArc_ztb (s : State) (f : ArcState → ArcState) : (modArc s f).ztb = s.ztb := rfl
@[simp] theorem modArc_nqe (s : State) (f : ArcState → ArcState) : (modArc s f).nqe = s.nqe := rfl
@[simp] theorem modArc_cis (s : State) (f : ArcState → ArcState) : (modArc s f).cis = s.cis := rfl
@[simp] theorem modArc_srv (s : State) (f : ArcState → ArcState) : (modArc s f).srv = s.srv := rfl
@[simp] theorem modArc_rates (s : State) (f : ArcState → ArcState) : (modArc s f).rates = s.rates := rfl
@[simp] theorem modArc_spn (s : State) (f : ArcState → ArcState) : (modArc s f).spn = s.spn := rfl
@[simp] theorem modArc_sec (s : State) (f : ArcState → ArcState) : (modArc s f).sec = s.sec := rfl
@[simp] theorem modArc_slu (s : State) (f : ArcState → ArcState) : (modArc s f).slu = s.slu := rfl
@[simp] theorem modArc_sys (s : State) (f : ArcState → ArcState) : (modArc s f).sys = s.sys := rfl
@[simp] theorem modArc_noi (s : State) (f : ArcState → ArcState) : (modArc s f).noi = s.noi := rfl
@[simp] theorem modArc_net (s : State) (f : ArcState → ArcState) : (modArc s f).net = s.net := rfl
@[simp] theorem modArc_ecc (s : State) (f : ArcState → ArcState) : (modArc s f).ecc = s.ecc := rfl
@[simp] theorem modArc_cch (s : State) (f : ArcState → ArcState) : (modArc s f).cch = s.cch := rfl
@[simp] theorem modArc_cph (s : State) (f : ArcState → ArcState) : (modArc s f).cph = s.cph := rfl
@[simp] theorem modArc_thm (s : State) (f : ArcState → ArcState) : (modArc s f).thm = s.thm := rfl
@[simp] theorem modArc_cal (s : State) (f : ArcState → ArcState) : (modArc s f).cal = s.cal := rfl
@[simp] theorem modArc_tap (s : State) (f : ArcState → ArcState) : (modArc s f).tap = s.tap := rfl
@[simp] theorem modArc_imone (s : State) (f : ArcState → ArcState) : (modArc s f).imone = s.imone := rfl
@[simp] theorem modArc_flash (s : State) (f : ArcState → ArcState) : (modArc s f).flash = s.flash := rfl
@[simp] theorem modArc_arc (s : State) (f : ArcState → ArcState) : (modArc s f).arc = f s.arc := rfl
@[simp] theorem rd_modArc (s : State) (f : ArcState → ArcState) (r : Nat) : rd (modArc s f) r = rd s r := rfl
@[simp] theorem rdN_modArc (s : State) (f : ArcState → ArcState) (r : Nat) : rdN (modArc s f) r = rdN s r := rfl
@[simp] theorem getF_modArc (s : State) (f : ArcState → ArcState) (r p k : Nat) : getF (modArc s f) r p k = getF s r p k := rfl
@[simp] theorem bit_modArc (s : State) (f : ArcState → ArcState) (r k : Nat) : bit (modArc s f) r k = bit s r k := rfl
@[simp] theorem rd64_modArc (s : State) (f : ArcState → ArcState) (r : Nat) : rd64 (modArc s f) r = rd64 s r := rfl
theorem regsOk_modArc {s : State} (f : ArcState → ArcState) (h : regsOk s) : regsOk (modArc s f) := h

@[simp] theorem modNet_pending (s : State) (f : NetState → NetState) : (modNet s f).pending = s.pending := rfl
@[simp] theorem modNet_draws (s : State) (f : NetState → NetState) : (modNet s f).draws = s.draws := rfl
@[simp] theorem modNet_clock (s : State) (f : NetState → NetState) : (modNet s f).clock = s.clock := rfl
@[simp] theorem modNet_ptpFrac (s : State) (f : NetState → NetState) : (modNet s f).ptpFrac = s.ptpFrac := rfl
@[simp] theorem modNet_busData (s : State) (f : NetState → NetState) : (modNet s f).busData = s.busData := rfl
@[simp] theorem modNet_busError (s : State) (f : NetState → NetState) : (modNet s f).busError = s.busError := rfl
@[simp] theorem modNet_regs (s : State) (f : NetState → NetState) : (modNet s f).regs = s.regs := rfl
@[simp] theorem modNet_sram (s : State) (f : NetState → NetState) : (modNet s f).sram = s.sram := rfl
@[simp] theorem modNet_nand (s : State) (f : NetState → NetState) : (modNet s f).nand = s.nand := rfl
@[simp] theorem modNet_evr (s : State) (f : NetState → NetState) : (modNet s f).evr = s.evr := rfl
@[simp] theorem modNet_ang (s : State) (f : NetState → NetState) : (modNet s f).ang = s.ang := rfl
@[simp] theorem modNet_slots (s : State) (f : NetState → NetState) : (modNet s f).slots = s.slots := rfl
@[simp] theorem modNet_lanes (s : State) (f : NetState → NetState) : (modNet s f).lanes = s.lanes := rfl
@[simp] theorem modNet_dbLevel (s : State) (f : NetState → NetState) : (modNet s f).dbLevel = s.dbLevel := rfl
@[simp] theorem modNet_dbStop (s : State) (f : NetState → NetState) : (modNet s f).dbStop = s.dbStop := rfl
@[simp] theorem modNet_tsq (s : State) (f : NetState → NetState) : (modNet s f).tsq = s.tsq := rfl
@[simp] theorem modNet_microcode (s : State) (f : NetState → NetState) : (modNet s f).microcode = s.microcode := rfl
@[simp] theorem modNet_ucLoad (s : State) (f : NetState → NetState) : (modNet s f).ucLoad = s.ucLoad := rfl
@[simp] theorem modNet_ztb (s : State) (f : NetState → NetState) : (modNet s f).ztb = s.ztb := rfl
@[simp] theorem modNet_nqe (s : State) (f : NetState → NetState) : (modNet s f).nqe = s.nqe := rfl
@[simp] theorem modNet_cis (s : State) (f : NetState → NetState) : (modNet s f).cis = s.cis := rfl
@[simp] theorem modNet_srv (s : State) (f : NetState → NetState) : (modNet s f).srv = s.srv := rfl
@[simp] theorem modNet_rates (s : State) (f : NetState → NetState) : (modNet s f).rates = s.rates := rfl
@[simp] theorem modNet_spn (s : State) (f : NetState → NetState) : (modNet s f).spn = s.spn := rfl
@[simp] theorem modNet_sec (s : State) (f : NetState → NetState) : (modNet s f).sec = s.sec := rfl
@[simp] theorem modNet_slu (s : State) (f : NetState → NetState) : (modNet s f).slu = s.slu := rfl
@[simp] theorem modNet_sys (s : State) (f : NetState → NetState) : (modNet s f).sys = s.sys := rfl
@[simp] theorem modNet_noi (s : State) (f : NetState → NetState) : (modNet s f).noi = s.noi := rfl
@[simp] theorem modNet_ecc (s : State) (f : NetState → NetState) : (modNet s f).ecc = s.ecc := rfl
@[simp] theorem modNet_cch (s : State) (f : NetState → NetState) : (modNet s f).cch = s.cch := rfl
@[simp] theorem modNet_cph (s : State) (f : NetState → NetState) : (modNet s f).cph = s.cph := rfl
@[simp] theorem modNet_thm (s : State) (f : NetState → NetState) : (modNet s f).thm = s.thm := rfl
@[simp] theorem modNet_cal (s : State) (f : NetState → NetState) : (modNet s f).cal = s.cal := rfl
@[simp] theorem modNet_arc (s : State) (f : NetState → NetState) : (modNet s f).arc = s.arc := rfl
@[simp] theorem modNet_tap (s : State) (f : NetState → NetState) : (modNet s f).tap = s.tap := rfl
@[simp] theorem modNet_imone (s : State) (f : NetState → NetState) : (modNet s f).imone = s.imone := rfl
@[simp] theorem modNet_flash (s : State) (f : NetState → NetState) : (modNet s f).flash = s.flash := rfl
@[simp] theorem modNet_net (s : State) (f : NetState → NetState) : (modNet s f).net = f s.net := rfl
@[simp] theorem rd_modNet (s : State) (f : NetState → NetState) (r : Nat) : rd (modNet s f) r = rd s r := rfl
@[simp] theorem rdN_modNet (s : State) (f : NetState → NetState) (r : Nat) : rdN (modNet s f) r = rdN s r := rfl
@[simp] theorem getF_modNet (s : State) (f : NetState → NetState) (r p k : Nat) : getF (modNet s f) r p k = getF s r p k := rfl
@[simp] theorem bit_modNet (s : State) (f : NetState → NetState) (r k : Nat) : bit (modNet s f) r k = bit s r k := rfl
@[simp] theorem rd64_modNet (s : State) (f : NetState → NetState) (r : Nat) : rd64 (modNet s f) r = rd64 s r := rfl
theorem regsOk_modNet {s : State} (f : NetState → NetState) (h : regsOk s) : regsOk (modNet s f) := h

@[simp] theorem modZtb_pending (s : State) (f : ZtbState → ZtbState) : (modZtb s f).pending = s.pending := rfl
@[simp] theorem modZtb_draws (s : State) (f : ZtbState → ZtbState) : (modZtb s f).draws = s.draws := rfl
@[simp] theorem modZtb_clock (s : State) (f : ZtbState → ZtbState) : (modZtb s f).clock = s.clock := rfl
@[simp] theorem modZtb_ptpFrac (s : State) (f : ZtbState → ZtbState) : (modZtb s f).ptpFrac = s.ptpFrac := rfl
@[simp] theorem modZtb_busData (s : State) (f : ZtbState → ZtbState) : (modZtb s f).busData = s.busData := rfl
@[simp] theorem modZtb_busError (s : State) (f : ZtbState → ZtbState) : (modZtb s f).busError = s.busError := rfl
@[simp] theorem modZtb_regs (s : State) (f : ZtbState → ZtbState) : (modZtb s f).regs = s.regs := rfl
@[simp] theorem modZtb_sram (s : State) (f : ZtbState → ZtbState) : (modZtb s f).sram = s.sram := rfl
@[simp] theorem modZtb_nand (s : State) (f : ZtbState → ZtbState) : (modZtb s f).nand = s.nand := rfl
@[simp] theorem modZtb_evr (s : State) (f : ZtbState → ZtbState) : (modZtb s f).evr = s.evr := rfl
@[simp] theorem modZtb_ang (s : State) (f : ZtbState → ZtbState) : (modZtb s f).ang = s.ang := rfl
@[simp] theorem modZtb_slots (s : State) (f : ZtbState → ZtbState) : (modZtb s f).slots = s.slots := rfl
@[simp] theorem modZtb_lanes (s : State) (f : ZtbState → ZtbState) : (modZtb s f).lanes = s.lanes := rfl
@[simp] theorem modZtb_dbLevel (s : State) (f : ZtbState → ZtbState) : (modZtb s f).dbLevel = s.dbLevel := rfl
@[simp] theorem modZtb_dbStop (s : State) (f : ZtbState → ZtbState) : (modZtb s f).dbStop = s.dbStop := rfl
@[simp] theorem modZtb_tsq (s : State) (f : ZtbState → ZtbState) : (modZtb s f).tsq = s.tsq := rfl
@[simp] theorem modZtb_microcode (s : State) (f : ZtbState → ZtbState) : (modZtb s f).microcode = s.microcode := rfl
@[simp] theorem modZtb_ucLoad (s : State) (f : ZtbState → ZtbState) : (modZtb s f).ucLoad = s.ucLoad := rfl
@[simp] theorem modZtb_nqe (s : State) (f : ZtbState → ZtbState) : (modZtb s f).nqe = s.nqe := rfl
@[simp] theorem modZtb_cis (s : State) (f : ZtbState → ZtbState) : (modZtb s f).cis = s.cis := rfl
@[simp] theorem modZtb_srv (s : State) (f : ZtbState → ZtbState) : (modZtb s f).srv = s.srv := rfl
@[simp] theorem modZtb_rates (s : State) (f : ZtbState → ZtbState) : (modZtb s f).rates = s.rates := rfl
@[simp] theorem modZtb_spn (s : State) (f : ZtbState → ZtbState) : (modZtb s f).spn = s.spn := rfl
@[simp] theorem modZtb_sec (s : State) (f : ZtbState → ZtbState) : (modZtb s f).sec = s.sec := rfl
@[simp] theorem modZtb_slu (s : State) (f : ZtbState → ZtbState) : (modZtb s f).slu = s.slu := rfl
@[simp] theorem modZtb_sys (s : State) (f : ZtbState → ZtbState) : (modZtb s f).sys = s.sys := rfl
@[simp] theorem modZtb_noi (s : State) (f : ZtbState → ZtbState) : (modZtb s f).noi = s.noi := rfl
@[simp] theorem modZtb_net (s : State) (f : ZtbState → ZtbState) : (modZtb s f).net = s.net := rfl
@[simp] theorem modZtb_ecc (s : State) (f : ZtbState → ZtbState) : (modZtb s f).ecc = s.ecc := rfl
@[simp] theorem modZtb_cch (s : State) (f : ZtbState → ZtbState) : (modZtb s f).cch = s.cch := rfl
@[simp] theorem modZtb_cph (s : State) (f : ZtbState → ZtbState) : (modZtb s f).cph = s.cph := rfl
@[simp] theorem modZtb_thm (s : State) (f : ZtbState → ZtbState) : (modZtb s f).thm = s.thm := rfl
@[simp] theorem modZtb_cal (s : State) (f : ZtbState → ZtbState) : (modZtb s f).cal = s.cal := rfl
@[simp] theorem modZtb_arc (s : State) (f : ZtbState → ZtbState) : (modZtb s f).arc = s.arc := rfl
@[simp] theorem modZtb_tap (s : State) (f : ZtbState → ZtbState) : (modZtb s f).tap = s.tap := rfl
@[simp] theorem modZtb_imone (s : State) (f : ZtbState → ZtbState) : (modZtb s f).imone = s.imone := rfl
@[simp] theorem modZtb_flash (s : State) (f : ZtbState → ZtbState) : (modZtb s f).flash = s.flash := rfl
@[simp] theorem modZtb_ztb (s : State) (f : ZtbState → ZtbState) : (modZtb s f).ztb = f s.ztb := rfl
@[simp] theorem rd_modZtb (s : State) (f : ZtbState → ZtbState) (r : Nat) : rd (modZtb s f) r = rd s r := rfl
@[simp] theorem rdN_modZtb (s : State) (f : ZtbState → ZtbState) (r : Nat) : rdN (modZtb s f) r = rdN s r := rfl
@[simp] theorem getF_modZtb (s : State) (f : ZtbState → ZtbState) (r p k : Nat) : getF (modZtb s f) r p k = getF s r p k := rfl
@[simp] theorem bit_modZtb (s : State) (f : ZtbState → ZtbState) (r k : Nat) : bit (modZtb s f) r k = bit s r k := rfl
@[simp] theorem rd64_modZtb (s : State) (f : ZtbState → ZtbState) (r : Nat) : rd64 (modZtb s f) r = rd64 s r := rfl
theorem regsOk_modZtb {s : State} (f : ZtbState → ZtbState) (h : regsOk s) : regsOk (modZtb s f) := h

@[simp] theorem modEvr_pending (s : State) (f : EvrState → EvrState) : (modEvr s f).pending = s.pending := rfl
@[simp] theorem modEvr_draws (s : State) (f : EvrState → EvrState) : (modEvr s f).draws = s.draws := rfl
@[simp] theorem modEvr_clock (s : State) (f : EvrState → EvrState) : (modEvr s f).clock = s.clock := rfl
@[simp] theorem modEvr_ptpFrac (s : State) (f : EvrState → EvrState) : (modEvr s f).ptpFrac = s.ptpFrac := rfl
@[simp] theorem modEvr_busData (s : State) (f : EvrState → EvrState) : (modEvr s f).busData = s.busData := rfl
@[simp] theorem modEvr_busError (s : State) (f : EvrState → EvrState) : (modEvr s f).busError = s.busError := rfl
@[simp] theorem modEvr_regs (s : State) (f : EvrState → EvrState) : (modEvr s f).regs = s.regs := rfl
@[simp] theorem modEvr_sram (s : State) (f : EvrState → EvrState) : (modEvr s f).sram = s.sram := rfl
@[simp] theorem modEvr_nand (s : State) (f : EvrState → EvrState) : (modEvr s f).nand = s.nand := rfl
@[simp] theorem modEvr_ang (s : State) (f : EvrState → EvrState) : (modEvr s f).ang = s.ang := rfl
@[simp] theorem modEvr_slots (s : State) (f : EvrState → EvrState) : (modEvr s f).slots = s.slots := rfl
@[simp] theorem modEvr_lanes (s : State) (f : EvrState → EvrState) : (modEvr s f).lanes = s.lanes := rfl
@[simp] theorem modEvr_dbLevel (s : State) (f : EvrState → EvrState) : (modEvr s f).dbLevel = s.dbLevel := rfl
@[simp] theorem modEvr_dbStop (s : State) (f : EvrState → EvrState) : (modEvr s f).dbStop = s.dbStop := rfl
@[simp] theorem modEvr_tsq (s : State) (f : EvrState → EvrState) : (modEvr s f).tsq = s.tsq := rfl
@[simp] theorem modEvr_microcode (s : State) (f : EvrState → EvrState) : (modEvr s f).microcode = s.microcode := rfl
@[simp] theorem modEvr_ucLoad (s : State) (f : EvrState → EvrState) : (modEvr s f).ucLoad = s.ucLoad := rfl
@[simp] theorem modEvr_ztb (s : State) (f : EvrState → EvrState) : (modEvr s f).ztb = s.ztb := rfl
@[simp] theorem modEvr_nqe (s : State) (f : EvrState → EvrState) : (modEvr s f).nqe = s.nqe := rfl
@[simp] theorem modEvr_cis (s : State) (f : EvrState → EvrState) : (modEvr s f).cis = s.cis := rfl
@[simp] theorem modEvr_srv (s : State) (f : EvrState → EvrState) : (modEvr s f).srv = s.srv := rfl
@[simp] theorem modEvr_rates (s : State) (f : EvrState → EvrState) : (modEvr s f).rates = s.rates := rfl
@[simp] theorem modEvr_spn (s : State) (f : EvrState → EvrState) : (modEvr s f).spn = s.spn := rfl
@[simp] theorem modEvr_sec (s : State) (f : EvrState → EvrState) : (modEvr s f).sec = s.sec := rfl
@[simp] theorem modEvr_slu (s : State) (f : EvrState → EvrState) : (modEvr s f).slu = s.slu := rfl
@[simp] theorem modEvr_sys (s : State) (f : EvrState → EvrState) : (modEvr s f).sys = s.sys := rfl
@[simp] theorem modEvr_noi (s : State) (f : EvrState → EvrState) : (modEvr s f).noi = s.noi := rfl
@[simp] theorem modEvr_net (s : State) (f : EvrState → EvrState) : (modEvr s f).net = s.net := rfl
@[simp] theorem modEvr_ecc (s : State) (f : EvrState → EvrState) : (modEvr s f).ecc = s.ecc := rfl
@[simp] theorem modEvr_cch (s : State) (f : EvrState → EvrState) : (modEvr s f).cch = s.cch := rfl
@[simp] theorem modEvr_cph (s : State) (f : EvrState → EvrState) : (modEvr s f).cph = s.cph := rfl
@[simp] theorem modEvr_thm (s : State) (f : EvrState → EvrState) : (modEvr s f).thm = s.thm := rfl
@[simp] theorem modEvr_cal (s : State) (f : EvrState → EvrState) : (modEvr s f).cal = s.cal := rfl
@[simp] theorem modEvr_arc (s : State) (f : EvrState → EvrState) : (modEvr s f).arc = s.arc := rfl
@[simp] theorem modEvr_tap (s : State) (f : EvrState → EvrState) : (modEvr s f).tap = s.tap := rfl
@[simp] theorem modEvr_imone (s : State) (f : EvrState → EvrState) : (modEvr s f).imone = s.imone := rfl
@[simp] theorem modEvr_flash (s : State) (f : EvrState → EvrState) : (modEvr s f).flash = s.flash := rfl
@[simp] theorem modEvr_evr (s : State) (f : EvrState → EvrState) : (modEvr s f).evr = f s.evr := rfl
@[simp] theorem rd_modEvr (s : State) (f : EvrState → EvrState) (r : Nat) : rd (modEvr s f) r = rd s r := rfl
@[simp] theorem rdN_modEvr (s : State) (f : EvrState → EvrState) (r : Nat) : rdN (modEvr s f) r = rdN s r := rfl
@[simp] theorem getF_modEvr (s : State) (f : EvrState → EvrState) (r p k : Nat) : getF (modEvr s f) r p k = getF s r p k := rfl
@[simp] theorem bit_modEvr (s : State) (f : EvrState → EvrState) (r k : Nat) : bit (modEvr s f) r k = bit s r k := rfl
@[simp] theorem rd64_modEvr (s : State) (f : EvrState → EvrState) (r : Nat) : rd64 (modEvr s f) r = rd64 s r := rfl
theorem regsOk_modEvr {s : State} (f : EvrState → EvrState) (h : regsOk s) : regsOk (modEvr s f) := h

@[simp] theorem modTap_pending (s : State) (f : TapState → TapState) : (modTap s f).pending = s.pending := rfl
@[simp] theorem modTap_draws (s : State) (f : TapState → TapState) : (modTap s f).draws = s.draws := rfl
@[simp] theorem modTap_clock (s : State) (f : TapState → TapState) : (modTap s f).clock = s.clock := rfl
@[simp] theorem modTap_ptpFrac (s : State) (f : TapState → TapState) : (modTap s f).ptpFrac = s.ptpFrac := rfl
@[simp] theorem modTap_busData (s : State) (f : TapState → TapState) : (modTap s f).busData = s.busData := rfl
@[simp] theorem modTap_busError (s : State) (f : TapState → TapState) : (modTap s f).busError = s.busError := rfl
@[simp] theorem modTap_regs (s : State) (f : TapState → TapState) : (modTap s f).regs = s.regs := rfl
@[simp] theorem modTap_sram (s : State) (f : TapState → TapState) : (modTap s f).sram = s.sram := rfl
@[simp] theorem modTap_nand (s : State) (f : TapState → TapState) : (modTap s f).nand = s.nand := rfl
@[simp] theorem modTap_evr (s : State) (f : TapState → TapState) : (modTap s f).evr = s.evr := rfl
@[simp] theorem modTap_ang (s : State) (f : TapState → TapState) : (modTap s f).ang = s.ang := rfl
@[simp] theorem modTap_slots (s : State) (f : TapState → TapState) : (modTap s f).slots = s.slots := rfl
@[simp] theorem modTap_lanes (s : State) (f : TapState → TapState) : (modTap s f).lanes = s.lanes := rfl
@[simp] theorem modTap_dbLevel (s : State) (f : TapState → TapState) : (modTap s f).dbLevel = s.dbLevel := rfl
@[simp] theorem modTap_dbStop (s : State) (f : TapState → TapState) : (modTap s f).dbStop = s.dbStop := rfl
@[simp] theorem modTap_tsq (s : State) (f : TapState → TapState) : (modTap s f).tsq = s.tsq := rfl
@[simp] theorem modTap_microcode (s : State) (f : TapState → TapState) : (modTap s f).microcode = s.microcode := rfl
@[simp] theorem modTap_ucLoad (s : State) (f : TapState → TapState) : (modTap s f).ucLoad = s.ucLoad := rfl
@[simp] theorem modTap_ztb (s : State) (f : TapState → TapState) : (modTap s f).ztb = s.ztb := rfl
@[simp] theorem modTap_nqe (s : State) (f : TapState → TapState) : (modTap s f).nqe = s.nqe := rfl
@[simp] theorem modTap_cis (s : State) (f : TapState → TapState) : (modTap s f).cis = s.cis := rfl
@[simp] theorem modTap_srv (s : State) (f : TapState → TapState) : (modTap s f).srv = s.srv := rfl
@[simp] theorem modTap_rates (s : State) (f : TapState → TapState) : (modTap s f).rates = s.rates := rfl
@[simp] theorem modTap_spn (s : State) (f : TapState → TapState) : (modTap s f).spn = s.spn := rfl
@[simp] theorem modTap_sec (s : State) (f : TapState → TapState) : (modTap s f).sec = s.sec := rfl
@[simp] theorem modTap_slu (s : State) (f : TapState → TapState) : (modTap s f).slu = s.slu := rfl
@[simp] theorem modTap_sys (s : State) (f : TapState → TapState) : (modTap s f).sys = s.sys := rfl
@[simp] theorem modTap_noi (s : State) (f : TapState → TapState) : (modTap s f).noi = s.noi := rfl
@[simp] theorem modTap_net (s : State) (f : TapState → TapState) : (modTap s f).net = s.net := rfl
@[simp] theorem modTap_ecc (s : State) (f : TapState → TapState) : (modTap s f).ecc = s.ecc := rfl
@[simp] theorem modTap_cch (s : State) (f : TapState → TapState) : (modTap s f).cch = s.cch := rfl
@[simp] theorem modTap_cph (s : State) (f : TapState → TapState) : (modTap s f).cph = s.cph := rfl
@[simp] theorem modTap_thm (s : State) (f : TapState → TapState) : (modTap s f).thm = s.thm := rfl
@[simp] theorem modTap_cal (s : State) (f : TapState → TapState) : (modTap s f).cal = s.cal := rfl
@[simp] theorem modTap_arc (s : State) (f : TapState → TapState) : (modTap s f).arc = s.arc := rfl
@[simp] theorem modTap_imone (s : State) (f : TapState → TapState) : (modTap s f).imone = s.imone := rfl
@[simp] theorem modTap_flash (s : State) (f : TapState → TapState) : (modTap s f).flash = s.flash := rfl
@[simp] theorem modTap_tap (s : State) (f : TapState → TapState) : (modTap s f).tap = f s.tap := rfl
@[simp] theorem rd_modTap (s : State) (f : TapState → TapState) (r : Nat) : rd (modTap s f) r = rd s r := rfl
@[simp] theorem rdN_modTap (s : State) (f : TapState → TapState) (r : Nat) : rdN (modTap s f) r = rdN s r := rfl
@[simp] theorem getF_modTap (s : State) (f : TapState → TapState) (r p k : Nat) : getF (modTap s f) r p k = getF s r p k := rfl
@[simp] theorem bit_modTap (s : State) (f : TapState → TapState) (r k : Nat) : bit (modTap s f) r k = bit s r k := rfl
@[simp] theorem rd64_modTap (s : State) (f : TapState → TapState) (r : Nat) : rd64 (modTap s f) r = rd64 s r := rfl
theorem regsOk_modTap {s : State} (f : TapState → TapState) (h : regsOk s) : regsOk (modTap s f) := h

@[simp] theorem modThm_pending (s : State) (f : ThmState → ThmState) : (modThm s f).pending = s.pending := rfl
@[simp] theorem modThm_draws (s : State) (f : ThmState → ThmState) : (modThm s f).draws = s.draws := rfl
@[simp] theorem modThm_clock (s : State) (f : ThmState → ThmState) : (modThm s f).clock = s.clock := rfl
@[simp] theorem modThm_ptpFrac (s : State) (f : ThmState → ThmState) : (modThm s f).ptpFrac = s.ptpFrac := rfl
@[simp] theorem modThm_busData (s : State) (f : ThmState → ThmState) : (modThm s f).busData = s.busData := rfl
@[simp] theorem modThm_busError (s : State) (f : ThmState → ThmState) : (modThm s f).busError = s.busError := rfl
@[simp] theorem modThm_regs (s : State) (f : ThmState → ThmState) : (modThm s f).regs = s.regs := rfl
@[simp] theorem modThm_sram (s : State) (f : ThmState → ThmState) : (modThm s f).sram = s.sram := rfl
@[simp] theorem modThm_nand (s : State) (f : ThmState → ThmState) : (modThm s f).nand = s.nand := rfl
@[simp] theorem modThm_evr (s : State) (f : ThmState → ThmState) : (modThm s f).evr = s.evr := rfl
@[simp] theorem modThm_ang (s : State) (f : ThmState → ThmState) : (modThm s f).ang = s.ang := rfl
@[simp] theorem modThm_slots (s : State) (f : ThmState → ThmState) : (modThm s f).slots = s.slots := rfl
@[simp] theorem modThm_lanes (s : State) (f : ThmState → ThmState) : (modThm s f).lanes = s.lanes := rfl
@[simp] theorem modThm_dbLevel (s : State) (f : ThmState → ThmState) : (modThm s f).dbLevel = s.dbLevel := rfl
@[simp] theorem modThm_dbStop (s : State) (f : ThmState → ThmState) : (modThm s f).dbStop = s.dbStop := rfl
@[simp] theorem modThm_tsq (s : State) (f : ThmState → ThmState) : (modThm s f).tsq = s.tsq := rfl
@[simp] theorem modThm_microcode (s : State) (f : ThmState → ThmState) : (modThm s f).microcode = s.microcode := rfl
@[simp] theorem modThm_ucLoad (s : State) (f : ThmState → ThmState) : (modThm s f).ucLoad = s.ucLoad := rfl
@[simp] theorem modThm_ztb (s : State) (f : ThmState → ThmState) : (modThm s f).ztb = s.ztb := rfl
@[simp] theorem modThm_nqe (s : State) (f : ThmState → ThmState) : (modThm s f).nqe = s.nqe := rfl
@[simp] theorem modThm_cis (s : State) (f : ThmState → ThmState) : (modThm s f).cis = s.cis := rfl
@[simp] theorem modThm_srv (s : State) (f : ThmState → ThmState) : (modThm s f).srv = s.srv := rfl
@[simp] theorem modThm_rates (s : State) (f : ThmState → ThmState) : (modThm s f).rates = s.rates := rfl
@[simp] theorem modThm_spn (s : State) (f : ThmState → ThmState) : (modThm s f).spn = s.spn := rfl
@[simp] theorem modThm_sec (s : State) (f : ThmState → ThmState) : (modThm s f).sec = s.sec := rfl
@[simp] theorem modThm_slu (s : State) (f : ThmState → ThmState) : (modThm s f).slu = s.slu := rfl
@[simp] theorem modThm_sys (s : State) (f : ThmState → ThmState) : (modThm s f).sys = s.sys := rfl
@[simp] theorem modThm_noi (s : State) (f : ThmState → ThmState) : (modThm s f).noi = s.noi := rfl
@[simp] theorem modThm_net (s : State) (f : ThmState → ThmState) : (modThm s f).net = s.net := rfl
@[simp] theorem modThm_ecc (s : State) (f : ThmState → ThmState) : (modThm s f).ecc = s.ecc := rfl
@[simp] theorem modThm_cch (s : State) (f : ThmState → ThmState) : (modThm s f).cch = s.cch := rfl
@[simp] theorem modThm_cph (s : State) (f : ThmState → ThmState) : (modThm s f).cph = s.cph := rfl
@[simp] theorem modThm_cal (s : State) (f : ThmState → ThmState) : (modThm s f).cal = s.cal := rfl
@[simp] theorem modThm_arc (s : State) (f : ThmState → ThmState) : (modThm s f).arc = s.arc := rfl
@[simp] theorem modThm_tap (s : State) (f : ThmState → ThmState) : (modThm s f).tap = s.tap := rfl
@[simp] theorem modThm_imone (s : State) (f : ThmState → ThmState) : (modThm s f).imone = s.imone := rfl
@[simp] theorem modThm_flash (s : State) (f : ThmState → ThmState) : (modThm s f).flash = s.flash := rfl
@[simp] theorem modThm_thm (s : State) (f : ThmState → ThmState) : (modThm s f).thm = f s.thm := rfl
@[simp] theorem rd_modThm (s : State) (f : ThmState → ThmState) (r : Nat) : rd (modThm s f) r = rd s r := rfl
@[simp] theorem rdN_modThm (s : State) (f : ThmState → ThmState) (r : Nat) : rdN (modThm s f) r = rdN s r := rfl
@[simp] theorem getF_modThm (s : State) (f : ThmState → ThmState) (r p k : Nat) : getF (modThm s f) r p k = getF s r p k := rfl
@[simp] theorem bit_modThm (s : State) (f : ThmState → ThmState) (r k : Nat) : bit (modThm s f) r k = bit s r k := rfl
@[simp] theorem rd64_modThm (s : State) (f : ThmState → ThmState) (r : Nat) : rd64 (modThm s f) r = rd64 s r := rfl
theorem regsOk_modThm {s : State} (f : ThmState → ThmState) (h : regsOk s) : regsOk (modThm s f) := h

@[simp] theorem modSec_pending (s : State) (f : SecState → SecState) : (modSec s f).pending = s.pending := rfl
@[simp] theorem modSec_draws (s : State) (f : SecState → SecState) : (modSec s f).draws = s.draws := rfl
@[simp] theorem modSec_clock (s : State) (f : SecState → SecState) : (modSec s f).clock = s.clock := rfl
@[simp] theorem modSec_ptpFrac (s : State) (f : SecState → SecState) : (modSec s f).ptpFrac = s.ptpFrac := rfl
@[simp] theorem modSec_busData (s : State) (f : SecState → SecState) : (modSec s f).busData = s.busData := rfl
@[simp] theorem modSec_busError (s : State) (f : SecState → SecState) : (modSec s f).busError = s.busError := rfl
@[simp] theorem modSec_regs (s : State) (f : SecState → SecState) : (modSec s f).regs = s.regs := rfl
@[simp] theorem modSec_sram (s : State) (f : SecState → SecState) : (modSec s f).sram = s.sram := rfl
@[simp] theorem modSec_nand (s : State) (f : SecState → SecState) : (modSec s f).nand = s.nand := rfl
@[simp] theorem modSec_evr (s : State) (f : SecState → SecState) : (modSec s f).evr = s.evr := rfl
@[simp] theorem modSec_ang (s : State) (f : SecState → SecState) : (modSec s f).ang = s.ang := rfl
@[simp] theorem modSec_slots (s : State) (f : SecState → SecState) : (modSec s f).slots = s.slots := rfl
@[simp] theorem modSec_lanes (s : State) (f : SecState → SecState) : (modSec s f).lanes = s.lanes := rfl
@[simp] theorem modSec_dbLevel (s : State) (f : SecState → SecState) : (modSec s f).dbLevel = s.dbLevel := rfl
@[simp] theorem modSec_dbStop (s : State) (f : SecState → SecState) : (modSec s f).dbStop = s.dbStop := rfl
@[simp] theorem modSec_tsq (s : State) (f : SecState → SecState) : (modSec s f).tsq = s.tsq := rfl
@[simp] theorem modSec_microcode (s : State) (f : SecState → SecState) : (modSec s f).microcode = s.microcode := rfl
@[simp] theorem modSec_ucLoad (s : State) (f : SecState → SecState) : (modSec s f).ucLoad = s.ucLoad := rfl
@[simp] theorem modSec_ztb (s : State) (f : SecState → SecState) : (modSec s f).ztb = s.ztb := rfl
@[simp] theorem modSec_nqe (s : State) (f : SecState → SecState) : (modSec s f).nqe = s.nqe := rfl
@[simp] theorem modSec_cis (s : State) (f : SecState → SecState) : (modSec s f).cis = s.cis := rfl
@[simp] theorem modSec_srv (s : State) (f : SecState → SecState) : (modSec s f).srv = s.srv := rfl
@[simp] theorem modSec_rates (s : State) (f : SecState → SecState) : (modSec s f).rates = s.rates := rfl
@[simp] theorem modSec_spn (s : State) (f : SecState → SecState) : (modSec s f).spn = s.spn := rfl
@[simp] theorem modSec_slu (s : State) (f : SecState → SecState) : (modSec s f).slu = s.slu := rfl
@[simp] theorem modSec_sys (s : State) (f : SecState → SecState) : (modSec s f).sys = s.sys := rfl
@[simp] theorem modSec_noi (s : State) (f : SecState → SecState) : (modSec s f).noi = s.noi := rfl
@[simp] theorem modSec_net (s : State) (f : SecState → SecState) : (modSec s f).net = s.net := rfl
@[simp] theorem modSec_ecc (s : State) (f : SecState → SecState) : (modSec s f).ecc = s.ecc := rfl
@[simp] theorem modSec_cch (s : State) (f : SecState → SecState) : (modSec s f).cch = s.cch := rfl
@[simp] theorem modSec_cph (s : State) (f : SecState → SecState) : (modSec s f).cph = s.cph := rfl
@[simp] theorem modSec_thm (s : State) (f : SecState → SecState) : (modSec s f).thm = s.thm := rfl
@[simp] theorem modSec_cal (s : State) (f : SecState → SecState) : (modSec s f).cal = s.cal := rfl
@[simp] theorem modSec_arc (s : State) (f : SecState → SecState) : (modSec s f).arc = s.arc := rfl
@[simp] theorem modSec_tap (s : State) (f : SecState → SecState) : (modSec s f).tap = s.tap := rfl
@[simp] theorem modSec_imone (s : State) (f : SecState → SecState) : (modSec s f).imone = s.imone := rfl
@[simp] theorem modSec_flash (s : State) (f : SecState → SecState) : (modSec s f).flash = s.flash := rfl
@[simp] theorem modSec_sec (s : State) (f : SecState → SecState) : (modSec s f).sec = f s.sec := rfl
@[simp] theorem rd_modSec (s : State) (f : SecState → SecState) (r : Nat) : rd (modSec s f) r = rd s r := rfl
@[simp] theorem rdN_modSec (s : State) (f : SecState → SecState) (r : Nat) : rdN (modSec s f) r = rdN s r := rfl
@[simp] theorem getF_modSec (s : State) (f : SecState → SecState) (r p k : Nat) : getF (modSec s f) r p k = getF s r p k := rfl
@[simp] theorem bit_modSec (s : State) (f : SecState → SecState) (r k : Nat) : bit (modSec s f) r k = bit s r k := rfl
@[simp] theorem rd64_modSec (s : State) (f : SecState → SecState) (r : Nat) : rd64 (modSec s f) r = rd64 s r := rfl
theorem regsOk_modSec {s : State} (f : SecState → SecState) (h : regsOk s) : regsOk (modSec s f) := h

@[simp] theorem modSlot_pending (s : State) (n : Nat) (f : Slot → Slot) : (modSlot s n f).pending = s.pending := rfl
@[simp] theorem modSlot_draws (s : State) (n : Nat) (f : Slot → Slot) : (modSlot s n f).draws = s.draws := rfl
@[simp] theorem modSlot_clock (s : State) (n : Nat) (f : Slot → Slot) : (modSlot s n f).clock = s.clock := rfl
@[simp] theorem modSlot_ptpFrac (s : State) (n : Nat) (f : Slot → Slot) : (modSlot s n f).ptpFrac = s.ptpFrac := rfl
@[simp] theorem modSlot_busData (s : State) (n : Nat) (f : Slot → Slot) : (modSlot s n f).busData = s.busData := rfl
@[simp] theorem modSlot_busError (s : State) (n : Nat) (f : Slot → Slot) : (modSlot s n f).busError = s.busError := rfl
@[simp] theorem modSlot_regs (s : State) (n : Nat) (f : Slot → Slot) : (modSlot s n f).regs = s.regs := rfl
@[simp] theorem modSlot_sram (s : State) (n : Nat) (f : Slot → Slot) : (modSlot s n f).sram = s.sram := rfl
@[simp] theorem modSlot_nand (s : State) (n : Nat) (f : Slot → Slot) : (modSlot s n f).nand = s.nand := rfl
@[simp] theorem modSlot_evr (s : State) (n : Nat) (f : Slot → Slot) : (modSlot s n f).evr = s.evr := rfl
@[simp] theorem modSlot_ang (s : State) (n : Nat) (f : Slot → Slot) : (modSlot s n f).ang = s.ang := rfl
@[simp] theorem modSlot_lanes (s : State) (n : Nat) (f : Slot → Slot) : (modSlot s n f).lanes = s.lanes := rfl
@[simp] theorem modSlot_dbLevel (s : State) (n : Nat) (f : Slot → Slot) : (modSlot s n f).dbLevel = s.dbLevel := rfl
@[simp] theorem modSlot_dbStop (s : State) (n : Nat) (f : Slot → Slot) : (modSlot s n f).dbStop = s.dbStop := rfl
@[simp] theorem modSlot_tsq (s : State) (n : Nat) (f : Slot → Slot) : (modSlot s n f).tsq = s.tsq := rfl
@[simp] theorem modSlot_microcode (s : State) (n : Nat) (f : Slot → Slot) : (modSlot s n f).microcode = s.microcode := rfl
@[simp] theorem modSlot_ucLoad (s : State) (n : Nat) (f : Slot → Slot) : (modSlot s n f).ucLoad = s.ucLoad := rfl
@[simp] theorem modSlot_ztb (s : State) (n : Nat) (f : Slot → Slot) : (modSlot s n f).ztb = s.ztb := rfl
@[simp] theorem modSlot_nqe (s : State) (n : Nat) (f : Slot → Slot) : (modSlot s n f).nqe = s.nqe := rfl
@[simp] theorem modSlot_cis (s : State) (n : Nat) (f : Slot → Slot) : (modSlot s n f).cis = s.cis := rfl
@[simp] theorem modSlot_srv (s : State) (n : Nat) (f : Slot → Slot) : (modSlot s n f).srv = s.srv := rfl
@[simp] theorem modSlot_rates (s : State) (n : Nat) (f : Slot → Slot) : (modSlot s n f).rates = s.rates := rfl
@[simp] theorem modSlot_spn (s : State) (n : Nat) (f : Slot → Slot) : (modSlot s n f).spn = s.spn := rfl
@[simp] theorem modSlot_sec (s : State) (n : Nat) (f : Slot → Slot) : (modSlot s n f).sec = s.sec := rfl
@[simp] theorem modSlot_slu (s : State) (n : Nat) (f : Slot → Slot) : (modSlot s n f).slu = s.slu := rfl
@[simp] theorem modSlot_sys (s : State) (n : Nat) (f : Slot → Slot) : (modSlot s n f).sys = s.sys := rfl
@[simp] theorem modSlot_noi (s : State) (n : Nat) (f : Slot → Slot) : (modSlot s n f).noi = s.noi := rfl
@[simp] theorem modSlot_net (s : State) (n : Nat) (f : Slot → Slot) : (modSlot s n f).net = s.net := rfl
@[simp] theorem modSlot_ecc (s : State) (n : Nat) (f : Slot → Slot) : (modSlot s n f).ecc = s.ecc := rfl
@[simp] theorem modSlot_cch (s : State) (n : Nat) (f : Slot → Slot) : (modSlot s n f).cch = s.cch := rfl
@[simp] theorem modSlot_cph (s : State) (n : Nat) (f : Slot → Slot) : (modSlot s n f).cph = s.cph := rfl
@[simp] theorem modSlot_thm (s : State) (n : Nat) (f : Slot → Slot) : (modSlot s n f).thm = s.thm := rfl
@[simp] theorem modSlot_cal (s : State) (n : Nat) (f : Slot → Slot) : (modSlot s n f).cal = s.cal := rfl
@[simp] theorem modSlot_arc (s : State) (n : Nat) (f : Slot → Slot) : (modSlot s n f).arc = s.arc := rfl
@[simp] theorem modSlot_tap (s : State) (n : Nat) (f : Slot → Slot) : (modSlot s n f).tap = s.tap := rfl
@[simp] theorem modSlot_imone (s : State) (n : Nat) (f : Slot → Slot) : (modSlot s n f).imone = s.imone := rfl
@[simp] theorem modSlot_flash (s : State) (n : Nat) (f : Slot → Slot) : (modSlot s n f).flash = s.flash := rfl
@[simp] theorem modSlot_slots (s : State) (n : Nat) (f : Slot → Slot) : (modSlot s n f).slots = modAt s.slots n f := rfl
@[simp] theorem rd_modSlot (s : State) (n : Nat) (f : Slot → Slot) (r : Nat) : rd (modSlot s n f) r = rd s r := rfl
@[simp] theorem rdN_modSlot (s : State) (n : Nat) (f : Slot → Slot) (r : Nat) : rdN (modSlot s n f) r = rdN s r := rfl
@[simp] theorem getF_modSlot (s : State) (n : Nat) (f : Slot → Slot) (r p k : Nat) : getF (modSlot s n f) r p k = getF s r p k := rfl
@[simp] theorem bit_modSlot (s : State) (n : Nat) (f : Slot → Slot) (r k : Nat) : bit (modSlot s n f) r k = bit s r k := rfl
@[simp] theorem rd64_modSlot (s : State) (n : Nat) (f : Slot → Slot) (r : Nat) : rd64 (modSlot s n f) r = rd64 s r := rfl
theorem regsOk_modSlot {s : State} (n : Nat) (f : Slot → Slot) (h : regsOk s) : regsOk (modSlot s n f) := h

@[simp] theorem modLane_pending (s : State) (n : Nat) (f : Lane → Lane) : (modLane s n f).pending = s.pending := rfl
@[simp] theorem modLane_draws (s : State) (n : Nat) (f : Lane → Lane) : (modLane s n f).draws = s.draws := rfl
@[simp] theorem modLane_clock (s : State) (n : Nat) (f : Lane → Lane) : (modLane s n f).clock = s.clock := rfl
@[simp] theorem modLane_ptpFrac (s : State) (n : Nat) (f : Lane → Lane) : (modLane s n f).ptpFrac = s.ptpFrac := rfl
@[simp] theorem modLane_busData (s : State) (n : Nat) (f : Lane → Lane) : (modLane s n f).busData = s.busData := rfl
@[simp] theorem modLane_busError (s : State) (n : Nat) (f : Lane → Lane) : (modLane s n f).busError = s.busError := rfl
@[simp] theorem modLane_regs (s : State) (n : Nat) (f : Lane → Lane) : (modLane s n f).regs = s.regs := rfl
@[simp] theorem modLane_sram (s : State) (n : Nat) (f : Lane → Lane) : (modLane s n f).sram = s.sram := rfl
@[simp] theorem modLane_nand (s : State) (n : Nat) (f : Lane → Lane) : (modLane s n f).nand = s.nand := rfl
@[simp] theorem modLane_evr (s : State) (n : Nat) (f : Lane → Lane) : (modLane s n f).evr = s.evr := rfl
@[simp] theorem modLane_ang (s : State) (n : Nat) (f : Lane → Lane) : (modLane s n f).ang = s.ang := rfl
@[simp] theorem modLane_slots (s : State) (n : Nat) (f : Lane → Lane) : (modLane s n f).slots = s.slots := rfl
@[simp] theorem modLane_dbLevel (s : State) (n : Nat) (f : Lane → Lane) : (modLane s n f).dbLevel = s.dbLevel := rfl
@[simp] theorem modLane_dbStop (s : State) (n : Nat) (f : Lane → Lane) : (modLane s n f).dbStop = s.dbStop := rfl
@[simp] theorem modLane_tsq (s : State) (n : Nat) (f : Lane → Lane) : (modLane s n f).tsq = s.tsq := rfl
@[simp] theorem modLane_microcode (s : State) (n : Nat) (f : Lane → Lane) : (modLane s n f).microcode = s.microcode := rfl
@[simp] theorem modLane_ucLoad (s : State) (n : Nat) (f : Lane → Lane) : (modLane s n f).ucLoad = s.ucLoad := rfl
@[simp] theorem modLane_ztb (s : State) (n : Nat) (f : Lane → Lane) : (modLane s n f).ztb = s.ztb := rfl
@[simp] theorem modLane_nqe (s : State) (n : Nat) (f : Lane → Lane) : (modLane s n f).nqe = s.nqe := rfl
@[simp] theorem modLane_cis (s : State) (n : Nat) (f : Lane → Lane) : (modLane s n f).cis = s.cis := rfl
@[simp] theorem modLane_srv (s : State) (n : Nat) (f : Lane → Lane) : (modLane s n f).srv = s.srv := rfl
@[simp] theorem modLane_rates (s : State) (n : Nat) (f : Lane → Lane) : (modLane s n f).rates = s.rates := rfl
@[simp] theorem modLane_spn (s : State) (n : Nat) (f : Lane → Lane) : (modLane s n f).spn = s.spn := rfl
@[simp] theorem modLane_sec (s : State) (n : Nat) (f : Lane → Lane) : (modLane s n f).sec = s.sec := rfl
@[simp] theorem modLane_slu (s : State) (n : Nat) (f : Lane → Lane) : (modLane s n f).slu = s.slu := rfl
@[simp] theorem modLane_sys (s : State) (n : Nat) (f : Lane → Lane) : (modLane s n f).sys = s.sys := rfl
@[simp] theorem modLane_noi (s : State) (n : Nat) (f : Lane → Lane) : (modLane s n f).noi = s.noi := rfl
@[simp] theorem modLane_net (s : State) (n : Nat) (f : Lane → Lane) : (modLane s n f).net = s.net := rfl
@[simp] theorem modLane_ecc (s : State) (n : Nat) (f : Lane → Lane) : (modLane s n f).ecc = s.ecc := rfl
@[simp] theorem modLane_cch (s : State) (n : Nat) (f : Lane → Lane) : (modLane s n f).cch = s.cch := rfl
@[simp] theorem modLane_cph (s : State) (n : Nat) (f : Lane → Lane) : (modLane s n f).cph = s.cph := rfl
@[simp] theorem modLane_thm (s : State) (n : Nat) (f : Lane → Lane) : (modLane s n f).thm = s.thm := rfl
@[simp] theorem modLane_cal (s : State) (n : Nat) (f : Lane → Lane) : (modLane s n f).cal = s.cal := rfl
@[simp] theorem modLane_arc (s : State) (n : Nat) (f : Lane → Lane) : (modLane s n f).arc = s.arc := rfl
@[simp] theorem modLane_tap (s : State) (n : Nat) (f : Lane → Lane) : (modLane s n f).tap = s.tap := rfl
@[simp] theorem modLane_imone (s : State) (n : Nat) (f : Lane → Lane) : (modLane s n f).imone = s.imone := rfl
@[simp] theorem modLane_flash (s : State) (n : Nat) (f : Lane → Lane) : (modLane s n f).flash = s.flash := rfl
@[simp] theorem modLane_lanes (s : State) (n : Nat) (f : Lane → Lane) : (modLane s n f).lanes = modAt s.lanes n f := rfl
@[simp] theorem rd_modLane (s : State) (n : Nat) (f : Lane → Lane) (r : Nat) : rd (modLane s n f) r = rd s r := rfl
@[simp] theorem rdN_modLane (s : State) (n : Nat) (f : Lane → Lane) (r : Nat) : rdN (modLane s n f) r = rdN s r := rfl
@[simp] theorem getF_modLane (s : State) (n : Nat) (f : Lane → Lane) (r p k : Nat) : getF (modLane s n f) r p k = getF s r p k := rfl
@[simp] theorem bit_modLane (s : State) (n : Nat) (f : Lane → Lane) (r k : Nat) : bit (modLane s n f) r k = bit s r k := rfl
@[simp] theorem rd64_modLane (s : State) (n : Nat) (f : Lane → Lane) (r : Nat) : rd64 (modLane s n f) r = rd64 s r := rfl
theorem regsOk_modLane {s : State} (n : Nat) (f : Lane → Lane) (h : regsOk s) : regsOk (modLane s n f) := h

@[simp] theorem modTsq_pending (s : State) (n : Nat) (f : Tsq → Tsq) : (modTsq s n f).pending = s.pending := rfl
@[simp] theorem modTsq_draws (s : State) (n : Nat) (f : Tsq → Tsq) : (modTsq s n f).draws = s.draws := rfl
@[simp] theorem modTsq_clock (s : State) (n : Nat) (f : Tsq → Tsq) : (modTsq s n f).clock = s.clock := rfl
@[simp] theorem modTsq_ptpFrac (s : State) (n : Nat) (f : Tsq → Tsq) : (modTsq s n f).ptpFrac = s.ptpFrac := rfl
@[simp] theorem modTsq_busData (s : State) (n : Nat) (f : Tsq → Tsq) : (modTsq s n f).busData = s.busData := rfl
@[simp] theorem modTsq_busError (s : State) (n : Nat) (f : Tsq → Tsq) : (modTsq s n f).busError = s.busError := rfl
@[simp] theorem modTsq_regs (s : State) (n : Nat) (f : Tsq → Tsq) : (modTsq s n f).regs = s.regs := rfl
@[simp] theorem modTsq_sram (s : State) (n : Nat) (f : Tsq → Tsq) : (modTsq s n f).sram = s.sram := rfl
@[simp] theorem modTsq_nand (s : State) (n : Nat) (f : Tsq → Tsq) : (modTsq s n f).nand = s.nand := rfl
@[simp] theorem modTsq_evr (s : State) (n : Nat) (f : Tsq → Tsq) : (modTsq s n f).evr = s.evr := rfl
@[simp] theorem modTsq_ang (s : State) (n : Nat) (f : Tsq → Tsq) : (modTsq s n f).ang = s.ang := rfl
@[simp] theorem modTsq_slots (s : State) (n : Nat) (f : Tsq → Tsq) : (modTsq s n f).slots = s.slots := rfl
@[simp] theorem modTsq_lanes (s : State) (n : Nat) (f : Tsq → Tsq) : (modTsq s n f).lanes = s.lanes := rfl
@[simp] theorem modTsq_dbLevel (s : State) (n : Nat) (f : Tsq → Tsq) : (modTsq s n f).dbLevel = s.dbLevel := rfl
@[simp] theorem modTsq_dbStop (s : State) (n : Nat) (f : Tsq → Tsq) : (modTsq s n f).dbStop = s.dbStop := rfl
@[simp] theorem modTsq_microcode (s : State) (n : Nat) (f : Tsq → Tsq) : (modTsq s n f).microcode = s.microcode := rfl
@[simp] theorem modTsq_ucLoad (s : State) (n : Nat) (f : Tsq → Tsq) : (modTsq s n f).ucLoad = s.ucLoad := rfl
@[simp] theorem modTsq_ztb (s : State) (n : Nat) (f : Tsq → Tsq) : (modTsq s n f).ztb = s.ztb := rfl
@[simp] theorem modTsq_nqe (s : State) (n : Nat) (f : Tsq → Tsq) : (modTsq s n f).nqe = s.nqe := rfl
@[simp] theorem modTsq_cis (s : State) (n : Nat) (f : Tsq → Tsq) : (modTsq s n f).cis = s.cis := rfl
@[simp] theorem modTsq_srv (s : State) (n : Nat) (f : Tsq → Tsq) : (modTsq s n f).srv = s.srv := rfl
@[simp] theorem modTsq_rates (s : State) (n : Nat) (f : Tsq → Tsq) : (modTsq s n f).rates = s.rates := rfl
@[simp] theorem modTsq_spn (s : State) (n : Nat) (f : Tsq → Tsq) : (modTsq s n f).spn = s.spn := rfl
@[simp] theorem modTsq_sec (s : State) (n : Nat) (f : Tsq → Tsq) : (modTsq s n f).sec = s.sec := rfl
@[simp] theorem modTsq_slu (s : State) (n : Nat) (f : Tsq → Tsq) : (modTsq s n f).slu = s.slu := rfl
@[simp] theorem modTsq_sys (s : State) (n : Nat) (f : Tsq → Tsq) : (modTsq s n f).sys = s.sys := rfl
@[simp] theorem modTsq_noi (s : State) (n : Nat) (f : Tsq → Tsq) : (modTsq s n f).noi = s.noi := rfl
@[simp] theorem modTsq_net (s : State) (n : Nat) (f : Tsq → Tsq) : (modTsq s n f).net = s.net := rfl
@[simp] theorem modTsq_ecc (s : State) (n : Nat) (f : Tsq → Tsq) : (modTsq s n f).ecc = s.ecc := rfl
@[simp] theorem modTsq_cch (s : State) (n : Nat) (f : Tsq → Tsq) : (modTsq s n f).cch = s.cch := rfl
@[simp] theorem modTsq_cph (s : State) (n : Nat) (f : Tsq → Tsq) : (modTsq s n f).cph = s.cph := rfl
@[simp] theorem modTsq_thm (s : State) (n : Nat) (f : Tsq → Tsq) : (modTsq s n f).thm = s.thm := rfl
@[simp] theorem modTsq_cal (s : State) (n : Nat) (f : Tsq → Tsq) : (modTsq s n f).cal = s.cal := rfl
@[simp] theorem modTsq_arc (s : State) (n : Nat) (f : Tsq → Tsq) : (modTsq s n f).arc = s.arc := rfl
@[simp] theorem modTsq_tap (s : State) (n : Nat) (f : Tsq → Tsq) : (modTsq s n f).tap = s.tap := rfl
@[simp] theorem modTsq_imone (s : State) (n : Nat) (f : Tsq → Tsq) : (modTsq s n f).imone = s.imone := rfl
@[simp] theorem modTsq_flash (s : State) (n : Nat) (f : Tsq → Tsq) : (modTsq s n f).flash = s.flash := rfl
@[simp] theorem modTsq_tsq (s : State) (n : Nat) (f : Tsq → Tsq) : (modTsq s n f).tsq = modAt s.tsq n f := rfl
@[simp] theorem rd_modTsq (s : State) (n : Nat) (f : Tsq → Tsq) (r : Nat) : rd (modTsq s n f) r = rd s r := rfl
@[simp] theorem rdN_modTsq (s : State) (n : Nat) (f : Tsq → Tsq) (r : Nat) : rdN (modTsq s n f) r = rdN s r := rfl
@[simp] theorem getF_modTsq (s : State) (n : Nat) (f : Tsq → Tsq) (r p k : Nat) : getF (modTsq s n f) r p k = getF s r p k := rfl
@[simp] theorem bit_modTsq (s : State) (n : Nat) (f : Tsq → Tsq) (r k : Nat) : bit (modTsq s n f) r k = bit s r k := rfl
@[simp] theorem rd64_modTsq (s : State) (n : Nat) (f : Tsq → Tsq) (r : Nat) : rd64 (modTsq s n f) r = rd64 s r := rfl
theorem regsOk_modTsq {s : State} (n : Nat) (f : Tsq → Tsq) (h : regsOk s) : regsOk (modTsq s n f) := h

@[simp] theorem modSrv_pending (s : State) (n : Nat) (f : Srv → Srv) : (modSrv s n f).pending = s.pending := rfl
@[simp] theorem modSrv_draws (s : State) (n : Nat) (f : Srv → Srv) : (modSrv s n f).draws = s.draws := rfl
@[simp] theorem modSrv_clock (s : State) (n : Nat) (f : Srv → Srv) : (modSrv s n f).clock = s.clock := rfl
@[simp] theorem modSrv_ptpFrac (s : State) (n : Nat) (f : Srv → Srv) : (modSrv s n f).ptpFrac = s.ptpFrac := rfl
@[simp] theorem modSrv_busData (s : State) (n : Nat) (f : Srv → Srv) : (modSrv s n f).busData = s.busData := rfl
@[simp] theorem modSrv_busError (s : State) (n : Nat) (f : Srv → Srv) : (modSrv s n f).busError = s.busError := rfl
@[simp] theorem modSrv_regs (s : State) (n : Nat) (f : Srv → Srv) : (modSrv s n f).regs = s.regs := rfl
@[simp] theorem modSrv_sram (s : State) (n : Nat) (f : Srv → Srv) : (modSrv s n f).sram = s.sram := rfl
@[simp] theorem modSrv_nand (s : State) (n : Nat) (f : Srv → Srv) : (modSrv s n f).nand = s.nand := rfl
@[simp] theorem modSrv_evr (s : State) (n : Nat) (f : Srv → Srv) : (modSrv s n f).evr = s.evr := rfl
@[simp] theorem modSrv_ang (s : State) (n : Nat) (f : Srv → Srv) : (modSrv s n f).ang = s.ang := rfl
@[simp] theorem modSrv_slots (s : State) (n : Nat) (f : Srv → Srv) : (modSrv s n f).slots = s.slots := rfl
@[simp] theorem modSrv_lanes (s : State) (n : Nat) (f : Srv → Srv) : (modSrv s n f).lanes = s.lanes := rfl
@[simp] theorem modSrv_dbLevel (s : State) (n : Nat) (f : Srv → Srv) : (modSrv s n f).dbLevel = s.dbLevel := rfl
@[simp] theorem modSrv_dbStop (s : State) (n : Nat) (f : Srv → Srv) : (modSrv s n f).dbStop = s.dbStop := rfl
@[simp] theorem modSrv_tsq (s : State) (n : Nat) (f : Srv → Srv) : (modSrv s n f).tsq = s.tsq := rfl
@[simp] theorem modSrv_microcode (s : State) (n : Nat) (f : Srv → Srv) : (modSrv s n f).microcode = s.microcode := rfl
@[simp] theorem modSrv_ucLoad (s : State) (n : Nat) (f : Srv → Srv) : (modSrv s n f).ucLoad = s.ucLoad := rfl
@[simp] theorem modSrv_ztb (s : State) (n : Nat) (f : Srv → Srv) : (modSrv s n f).ztb = s.ztb := rfl
@[simp] theorem modSrv_nqe (s : State) (n : Nat) (f : Srv → Srv) : (modSrv s n f).nqe = s.nqe := rfl
@[simp] theorem modSrv_cis (s : State) (n : Nat) (f : Srv → Srv) : (modSrv s n f).cis = s.cis := rfl
@[simp] theorem modSrv_rates (s : State) (n : Nat) (f : Srv → Srv) : (modSrv s n f).rates = s.rates := rfl
@[simp] theorem modSrv_spn (s : State) (n : Nat) (f : Srv → Srv) : (modSrv s n f).spn = s.spn := rfl
@[simp] theorem modSrv_sec (s : State) (n : Nat) (f : Srv → Srv) : (modSrv s n f).sec = s.sec := rfl
@[simp] theorem modSrv_slu (s : State) (n : Nat) (f : Srv → Srv) : (modSrv s n f).slu = s.slu := rfl
@[simp] theorem modSrv_sys (s : State) (n : Nat) (f : Srv → Srv) : (modSrv s n f).sys = s.sys := rfl
@[simp] theorem modSrv_noi (s : State) (n : Nat) (f : Srv → Srv) : (modSrv s n f).noi = s.noi := rfl
@[simp] theorem modSrv_net (s : State) (n : Nat) (f : Srv → Srv) : (modSrv s n f).net = s.net := rfl
@[simp] theorem modSrv_ecc (s : State) (n : Nat) (f : Srv → Srv) : (modSrv s n f).ecc = s.ecc := rfl
@[simp] theorem modSrv_cch (s : State) (n : Nat) (f : Srv → Srv) : (modSrv s n f).cch = s.cch := rfl
@[simp] theorem modSrv_cph (s : State) (n : Nat) (f : Srv → Srv) : (modSrv s n f).cph = s.cph := rfl
@[simp] theorem modSrv_thm (s : State) (n : Nat) (f : Srv → Srv) : (modSrv s n f).thm = s.thm := rfl
@[simp] theorem modSrv_cal (s : State) (n : Nat) (f : Srv → Srv) : (modSrv s n f).cal = s.cal := rfl
@[simp] theorem modSrv_arc (s : State) (n : Nat) (f : Srv → Srv) : (modSrv s n f).arc = s.arc := rfl
@[simp] theorem modSrv_tap (s : State) (n : Nat) (f : Srv → Srv) : (modSrv s n f).tap = s.tap := rfl
@[simp] theorem modSrv_imone (s : State) (n : Nat) (f : Srv → Srv) : (modSrv s n f).imone = s.imone := rfl
@[simp] theorem modSrv_flash (s : State) (n : Nat) (f : Srv → Srv) : (modSrv s n f).flash = s.flash := rfl
@[simp] theorem modSrv_srv (s : State) (n : Nat) (f : Srv → Srv) : (modSrv s n f).srv = modAt s.srv n f := rfl
@[simp] theorem rd_modSrv (s : State) (n : Nat) (f : Srv → Srv) (r : Nat) : rd (modSrv s n f) r = rd s r := rfl
@[simp] theorem rdN_modSrv (s : State) (n : Nat) (f : Srv → Srv) (r : Nat) : rdN (modSrv s n f) r = rdN s r := rfl
@[simp] theorem getF_modSrv (s : State) (n : Nat) (f : Srv → Srv) (r p k : Nat) : getF (modSrv s n f) r p k = getF s r p k := rfl
@[simp] theorem bit_modSrv (s : State) (n : Nat) (f : Srv → Srv) (r k : Nat) : bit (modSrv s n f) r k = bit s r k := rfl
@[simp] theorem rd64_modSrv (s : State) (n : Nat) (f : Srv → Srv) (r : Nat) : rd64 (modSrv s n f) r = rd64 s r := rfl
theorem regsOk_modSrv {s : State} (n : Nat) (f : Srv → Srv) (h : regsOk s) : regsOk (modSrv s n f) := h

@[simp] theorem modImone_pending (s : State) (n : Nat) (f : ImoneState → ImoneState) : (modImone s n f).pending = s.pending := rfl
@[simp] theorem modImone_draws (s : State) (n : Nat) (f : ImoneState → ImoneState) : (modImone s n f).draws = s.draws := rfl
@[simp] theorem modImone_clock (s : State) (n : Nat) (f : ImoneState → ImoneState) : (modImone s n f).clock = s.clock := rfl
@[simp] theorem modImone_ptpFrac (s : State) (n : Nat) (f : ImoneState → ImoneState) : (modImone s n f).ptpFrac = s.ptpFrac := rfl
@[simp] theorem modImone_busData (s : State) (n : Nat) (f : ImoneState → ImoneState) : (modImone s n f).busData = s.busData := rfl
@[simp] theorem modImone_busError (s : State) (n : Nat) (f : ImoneState → ImoneState) : (modImone s n f).busError = s.busError := rfl
@[simp] theorem modImone_regs (s : State) (n : Nat) (f : ImoneState → ImoneState) : (modImone s n f).regs = s.regs := rfl
@[simp] theorem modImone_sram (s : State) (n : Nat) (f : ImoneState → ImoneState) : (modImone s n f).sram = s.sram := rfl
@[simp] theorem modImone_nand (s : State) (n : Nat) (f : ImoneState → ImoneState) : (modImone s n f).nand = s.nand := rfl
@[simp] theorem modImone_evr (s : State) (n : Nat) (f : ImoneState → ImoneState) : (modImone s n f).evr = s.evr := rfl
@[simp] theorem modImone_ang (s : State) (n : Nat) (f : ImoneState → ImoneState) : (modImone s n f).ang = s.ang := rfl
@[simp] theorem modImone_slots (s : State) (n : Nat) (f : ImoneState → ImoneState) : (modImone s n f).slots = s.slots := rfl
@[simp] theorem modImone_lanes (s : State) (n : Nat) (f : ImoneState → ImoneState) : (modImone s n f).lanes = s.lanes := rfl
@[simp] theorem modImone_dbLevel (s : State) (n : Nat) (f : ImoneState → ImoneState) : (modImone s n f).dbLevel = s.dbLevel := rfl
@[simp] theorem modImone_dbStop (s : State) (n : Nat) (f : ImoneState → ImoneState) : (modImone s n f).dbStop = s.dbStop := rfl
@[simp] theorem modImone_tsq (s : State) (n : Nat) (f : ImoneState → ImoneState) : (modImone s n f).tsq = s.tsq := rfl
@[simp] theorem modImone_microcode (s : State) (n : Nat) (f : ImoneState → ImoneState) : (modImone s n f).microcode = s.microcode := rfl
@[simp] theorem modImone_ucLoad (s : State) (n : Nat) (f : ImoneState → ImoneState) : (modImone s n f).ucLoad = s.ucLoad := rfl
@[simp] theorem modImone_ztb (s : State) (n : Nat) (f : ImoneState → ImoneState) : (modImone s n f).ztb = s.ztb := rfl
@[simp] theorem modImone_nqe (s : State) (n : Nat) (f : ImoneState → ImoneState) : (modImone s n f).nqe = s.nqe := rfl
@[simp] theorem modImone_cis (s : State) (n : Nat) (f : ImoneState → ImoneState) : (modImone s n f).cis = s.cis := rfl
@[simp] theorem modImone_srv (s : State) (n : Nat) (f : ImoneState → ImoneState) : (modImone s n f).srv = s.srv := rfl
@[simp] theorem modImone_rates (s : State) (n : Nat) (f : ImoneState → ImoneState) : (modImone s n f).rates = s.rates := rfl
@[simp] theorem modImone_spn (s : State) (n : Nat) (f : ImoneState → ImoneState) : (modImone s n f).spn = s.spn := rfl
@[simp] theorem modImone_sec (s : State) (n : Nat) (f : ImoneState → ImoneState) : (modImone s n f).sec = s.sec := rfl
@[simp] theorem modImone_slu (s : State) (n : Nat) (f : ImoneState → ImoneState) : (modImone s n f).slu = s.slu := rfl
@[simp] theorem modImone_sys (s : State) (n : Nat) (f : ImoneState → ImoneState) : (modImone s n f).sys = s.sys := rfl
@[simp] theorem modImone_noi (s : State) (n : Nat) (f : ImoneState → ImoneState) : (modImone s n f).noi = s.noi := rfl
@[simp] theorem modImone_net (s : State) (n : Nat) (f : ImoneState → ImoneState) : (modImone s n f).net = s.net := rfl
@[simp] theorem modImone_ecc (s : State) (n : Nat) (f : ImoneState → ImoneState) : (modImone s n f).ecc = s.ecc := rfl
@[simp] theorem modImone_cch (s : State) (n : Nat) (f : ImoneState → ImoneState) : (modImone s n f).cch = s.cch := rfl
@[simp] theorem modImone_cph (s : State) (n : Nat) (f : ImoneState → ImoneState) : (modImone s n f).cph = s.cph := rfl
@[simp] theorem modImone_thm (s : State) (n : Nat) (f : ImoneState → ImoneState) : (modImone s n f).thm = s.thm := rfl
@[simp] theorem modImone_cal (s : State) (n : Nat) (f : ImoneState → ImoneState) : (modImone s n f).cal = s.cal := rfl
@[simp] theorem modImone_arc (s : State) (n : Nat) (f : ImoneState → ImoneState) : (modImone s n f).arc = s.arc := rfl
@[simp] theorem modImone_tap (s : State) (n : Nat) (f : ImoneState → ImoneState) : (modImone s n f).tap = s.tap := rfl
@[simp] theorem modImone_flash (s : State) (n : Nat) (f : ImoneState → ImoneState) : (modImone s n f).flash = s.flash := rfl
@[simp] theorem modImone_imone (s : State) (n : Nat) (f : ImoneState → ImoneState) : (modImone s n f).imone = modAt s.imone n f := rfl
@[simp] theorem rd_modImone (s : State) (n : Nat) (f : ImoneState → ImoneState) (r : Nat) : rd (modImone s n f) r = rd s r := rfl
@[simp] theorem rdN_modImone (s : State) (n : Nat) (f : ImoneState → ImoneState) (r : Nat) : rdN (modImone s n f) r = rdN s r := rfl
@[simp] theorem getF_modImone (s : State) (n : Nat) (f : ImoneState → ImoneState) (r p k : Nat) : getF (modImone s n f) r p k = getF s r p k := rfl
@[simp] theorem bit_modImone (s : State) (n : Nat) (f : ImoneState → ImoneState) (r k : Nat) : bit (modImone s n f) r k = bit s r k := rfl
@[simp] theorem rd64_modImone (s : State) (n : Nat) (f : ImoneState → ImoneState) (r : Nat) : rd64 (modImone s n f) r = rd64 s r := rfl
theorem regsOk_modImone {s : State} (n : Nat) (f : ImoneState → ImoneState) (h : regsOk s) : regsOk (modImone s n f) := h

@[simp] theorem modCtx_pending (s : State) (q x : Nat) (f : Ctx → Ctx) : (modCtx s q x f).pending = s.pending := rfl
@[simp] theorem modCtx_draws (s : State) (q x : Nat) (f : Ctx → Ctx) : (modCtx s q x f).draws = s.draws := rfl
@[simp] theorem modCtx_clock (s : State) (q x : Nat) (f : Ctx → Ctx) : (modCtx s q x f).clock = s.clock := rfl
@[simp] theorem modCtx_ptpFrac (s : State) (q x : Nat) (f : Ctx → Ctx) : (modCtx s q x f).ptpFrac = s.ptpFrac := rfl
@[simp] theorem modCtx_busData (s : State) (q x : Nat) (f : Ctx → Ctx) : (modCtx s q x f).busData = s.busData := rfl
@[simp] theorem modCtx_busError (s : State) (q x : Nat) (f : Ctx → Ctx) : (modCtx s q x f).busError = s.busError := rfl
@[simp] theorem modCtx_regs (s : State) (q x : Nat) (f : Ctx → Ctx) : (modCtx s q x f).regs = s.regs := rfl
@[simp] theorem modCtx_sram (s : State) (q x : Nat) (f : Ctx → Ctx) : (modCtx s q x f).sram = s.sram := rfl
@[simp] theorem modCtx_nand (s : State) (q x : Nat) (f : Ctx → Ctx) : (modCtx s q x f).nand = s.nand := rfl
@[simp] theorem modCtx_evr (s : State) (q x : Nat) (f : Ctx → Ctx) : (modCtx s q x f).evr = s.evr := rfl
@[simp] theorem modCtx_ang (s : State) (q x : Nat) (f : Ctx → Ctx) : (modCtx s q x f).ang = s.ang := rfl
@[simp] theorem modCtx_slots (s : State) (q x : Nat) (f : Ctx → Ctx) : (modCtx s q x f).slots = s.slots := rfl
@[simp] theorem modCtx_lanes (s : State) (q x : Nat) (f : Ctx → Ctx) : (modCtx s q x f).lanes = s.lanes := rfl
@[simp] theorem modCtx_dbLevel (s : State) (q x : Nat) (f : Ctx → Ctx) : (modCtx s q x f).dbLevel = s.dbLevel := rfl
@[simp] theorem modCtx_dbStop (s : State) (q x : Nat) (f : Ctx → Ctx) : (modCtx s q x f).dbStop = s.dbStop := rfl
@[simp] theorem modCtx_microcode (s : State) (q x : Nat) (f : Ctx → Ctx) : (modCtx s q x f).microcode = s.microcode := rfl
@[simp] theorem modCtx_ucLoad (s : State) (q x : Nat) (f : Ctx → Ctx) : (modCtx s q x f).ucLoad = s.ucLoad := rfl
@[simp] theorem modCtx_ztb (s : State) (q x : Nat) (f : Ctx → Ctx) : (modCtx s q x f).ztb = s.ztb := rfl
@[simp] theorem modCtx_nqe (s : State) (q x : Nat) (f : Ctx → Ctx) : (modCtx s q x f).nqe = s.nqe := rfl
@[simp] theorem modCtx_cis (s : State) (q x : Nat) (f : Ctx → Ctx) : (modCtx s q x f).cis = s.cis := rfl
@[simp] theorem modCtx_srv (s : State) (q x : Nat) (f : Ctx → Ctx) : (modCtx s q x f).srv = s.srv := rfl
@[simp] theorem modCtx_rates (s : State) (q x : Nat) (f : Ctx → Ctx) : (modCtx s q x f).rates = s.rates := rfl
@[simp] theorem modCtx_spn (s : State) (q x : Nat) (f : Ctx → Ctx) : (modCtx s q x f).spn = s.spn := rfl
@[simp] theorem modCtx_sec (s : State) (q x : Nat) (f : Ctx → Ctx) : (modCtx s q x f).sec = s.sec := rfl
@[simp] theorem modCtx_slu (s : State) (q x : Nat) (f : Ctx → Ctx) : (modCtx s q x f).slu = s.slu := rfl
@[simp] theorem modCtx_sys (s : State) (q x : Nat) (f : Ctx → Ctx) : (modCtx s q x f).sys = s.sys := rfl
@[simp] theorem modCtx_noi (s : State) (q x : Nat) (f : Ctx → Ctx) : (modCtx s q x f).noi = s.noi := rfl
@[simp] theorem modCtx_net (s : State) (q x : Nat) (f : Ctx → Ctx) : (modCtx s q x f).net = s.net := rfl
@[simp] theorem modCtx_ecc (s : State) (q x : Nat) (f : Ctx → Ctx) : (modCtx s q x f).ecc = s.ecc := rfl
@[simp] theorem modCtx_cch (s : State) (q x : Nat) (f : Ctx → Ctx) : (modCtx s q x f).cch = s.cch := rfl
@[simp] theorem modCtx_cph (s : State) (q x : Nat) (f : Ctx → Ctx) : (modCtx s q x f).cph = s.cph := rfl
@[simp] theorem modCtx_thm (s : State) (q x : Nat) (f : Ctx → Ctx) : (modCtx s q x f).thm = s.thm := rfl
@[simp] theorem modCtx_cal (s : State) (q x : Nat) (f : Ctx → Ctx) : (modCtx s q x f).cal = s.cal := rfl
@[simp] theorem modCtx_arc (s : State) (q x : Nat) (f : Ctx → Ctx) : (modCtx s q x f).arc = s.arc := rfl
@[simp] theorem modCtx_tap (s : State) (q x : Nat) (f : Ctx → Ctx) : (modCtx s q x f).tap = s.tap := rfl
@[simp] theorem modCtx_imone (s : State) (q x : Nat) (f : Ctx → Ctx) : (modCtx s q x f).imone = s.imone := rfl
@[simp] theorem modCtx_flash (s : State) (q x : Nat) (f : Ctx → Ctx) : (modCtx s q x f).flash = s.flash := rfl
@[simp] theorem rd_modCtx (s : State) (q x : Nat) (f : Ctx → Ctx) (r : Nat) : rd (modCtx s q x f) r = rd s r := rfl
@[simp] theorem rdN_modCtx (s : State) (q x : Nat) (f : Ctx → Ctx) (r : Nat) : rdN (modCtx s q x f) r = rdN s r := rfl
@[simp] theorem getF_modCtx (s : State) (q x : Nat) (f : Ctx → Ctx) (r p k : Nat) : getF (modCtx s q x f) r p k = getF s r p k := rfl
@[simp] theorem bit_modCtx (s : State) (q x : Nat) (f : Ctx → Ctx) (r k : Nat) : bit (modCtx s q x f) r k = bit s r k := rfl
@[simp] theorem rd64_modCtx (s : State) (q x : Nat) (f : Ctx → Ctx) (r : Nat) : rd64 (modCtx s q x f) r = rd64 s r := rfl
theorem regsOk_modCtx {s : State} (q x : Nat) (f : Ctx → Ctx) (h : regsOk s) : regsOk (modCtx s q x f) := h

/-- What `trigger` leaves. -/
theorem trigger_frame (s : State) (ch pos : Nat) (f : Field) (h : Nat.testBit 0x120 f.index = false) : f.same s (trigger ch pos s) :=
  (trigger_keeps ch pos s (keeps_refl 0x120 s) (within_refl _)).frame f h
@[simp] theorem trigger_pending (s : State) (ch pos : Nat) : (trigger ch pos s).pending = s.pending :=
  (trigger_keeps ch pos s (keeps_refl 0x120 s) (within_refl _)).queue
@[simp] theorem trigger_draws (s : State) (ch pos : Nat) : (trigger ch pos s).draws = s.draws := trigger_frame s ch pos .draws rfl
@[simp] theorem trigger_clock (s : State) (ch pos : Nat) : (trigger ch pos s).clock = s.clock := trigger_frame s ch pos .clock rfl
@[simp] theorem trigger_ptpFrac (s : State) (ch pos : Nat) : (trigger ch pos s).ptpFrac = s.ptpFrac := trigger_frame s ch pos .ptpFrac rfl
@[simp] theorem trigger_busData (s : State) (ch pos : Nat) : (trigger ch pos s).busData = s.busData := trigger_frame s ch pos .busData rfl
@[simp] theorem trigger_busError (s : State) (ch pos : Nat) : (trigger ch pos s).busError = s.busError := trigger_frame s ch pos .busError rfl
@[simp] theorem trigger_sram (s : State) (ch pos : Nat) : (trigger ch pos s).sram = s.sram := trigger_frame s ch pos .sram rfl
@[simp] theorem trigger_nand (s : State) (ch pos : Nat) : (trigger ch pos s).nand = s.nand := trigger_frame s ch pos .nand rfl
@[simp] theorem trigger_ang (s : State) (ch pos : Nat) : (trigger ch pos s).ang = s.ang := trigger_frame s ch pos .ang rfl
@[simp] theorem trigger_slots (s : State) (ch pos : Nat) : (trigger ch pos s).slots = s.slots := trigger_frame s ch pos .slots rfl
@[simp] theorem trigger_lanes (s : State) (ch pos : Nat) : (trigger ch pos s).lanes = s.lanes := trigger_frame s ch pos .lanes rfl
@[simp] theorem trigger_dbLevel (s : State) (ch pos : Nat) : (trigger ch pos s).dbLevel = s.dbLevel := trigger_frame s ch pos .dbLevel rfl
@[simp] theorem trigger_dbStop (s : State) (ch pos : Nat) : (trigger ch pos s).dbStop = s.dbStop := trigger_frame s ch pos .dbStop rfl
@[simp] theorem trigger_tsq (s : State) (ch pos : Nat) : (trigger ch pos s).tsq = s.tsq := trigger_frame s ch pos .tsq rfl
@[simp] theorem trigger_microcode (s : State) (ch pos : Nat) : (trigger ch pos s).microcode = s.microcode := trigger_frame s ch pos .microcode rfl
@[simp] theorem trigger_ucLoad (s : State) (ch pos : Nat) : (trigger ch pos s).ucLoad = s.ucLoad := trigger_frame s ch pos .ucLoad rfl
@[simp] theorem trigger_ztb (s : State) (ch pos : Nat) : (trigger ch pos s).ztb = s.ztb := trigger_frame s ch pos .ztb rfl
@[simp] theorem trigger_nqe (s : State) (ch pos : Nat) : (trigger ch pos s).nqe = s.nqe := trigger_frame s ch pos .nqe rfl
@[simp] theorem trigger_cis (s : State) (ch pos : Nat) : (trigger ch pos s).cis = s.cis := trigger_frame s ch pos .cis rfl
@[simp] theorem trigger_srv (s : State) (ch pos : Nat) : (trigger ch pos s).srv = s.srv := trigger_frame s ch pos .srv rfl
@[simp] theorem trigger_rates (s : State) (ch pos : Nat) : (trigger ch pos s).rates = s.rates := trigger_frame s ch pos .rates rfl
@[simp] theorem trigger_spn (s : State) (ch pos : Nat) : (trigger ch pos s).spn = s.spn := trigger_frame s ch pos .spn rfl
@[simp] theorem trigger_sec (s : State) (ch pos : Nat) : (trigger ch pos s).sec = s.sec := trigger_frame s ch pos .sec rfl
@[simp] theorem trigger_slu (s : State) (ch pos : Nat) : (trigger ch pos s).slu = s.slu := trigger_frame s ch pos .slu rfl
@[simp] theorem trigger_sys (s : State) (ch pos : Nat) : (trigger ch pos s).sys = s.sys := trigger_frame s ch pos .sys rfl
@[simp] theorem trigger_noi (s : State) (ch pos : Nat) : (trigger ch pos s).noi = s.noi := trigger_frame s ch pos .noi rfl
@[simp] theorem trigger_net (s : State) (ch pos : Nat) : (trigger ch pos s).net = s.net := trigger_frame s ch pos .net rfl
@[simp] theorem trigger_ecc (s : State) (ch pos : Nat) : (trigger ch pos s).ecc = s.ecc := trigger_frame s ch pos .ecc rfl
@[simp] theorem trigger_cch (s : State) (ch pos : Nat) : (trigger ch pos s).cch = s.cch := trigger_frame s ch pos .cch rfl
@[simp] theorem trigger_cph (s : State) (ch pos : Nat) : (trigger ch pos s).cph = s.cph := trigger_frame s ch pos .cph rfl
@[simp] theorem trigger_thm (s : State) (ch pos : Nat) : (trigger ch pos s).thm = s.thm := trigger_frame s ch pos .thm rfl
@[simp] theorem trigger_cal (s : State) (ch pos : Nat) : (trigger ch pos s).cal = s.cal := trigger_frame s ch pos .cal rfl
@[simp] theorem trigger_arc (s : State) (ch pos : Nat) : (trigger ch pos s).arc = s.arc := trigger_frame s ch pos .arc rfl
@[simp] theorem trigger_tap (s : State) (ch pos : Nat) : (trigger ch pos s).tap = s.tap := trigger_frame s ch pos .tap rfl
@[simp] theorem trigger_imone (s : State) (ch pos : Nat) : (trigger ch pos s).imone = s.imone := trigger_frame s ch pos .imone rfl
@[simp] theorem trigger_flash (s : State) (ch pos : Nat) : (trigger ch pos s).flash = s.flash := trigger_frame s ch pos .flash rfl

/-- What `evt` leaves. -/
theorem evt_frame (s : State) (a i : Nat) (f : Field) (h : Nat.testBit 0x120 f.index = false) : f.same s (evt a i s) :=
  (evt_keeps a i s (keeps_refl 0x120 s) (within_refl _)).frame f h
@[simp] theorem evt_pending (s : State) (a i : Nat) : (evt a i s).pending = s.pending :=
  (evt_keeps a i s (keeps_refl 0x120 s) (within_refl _)).queue
@[simp] theorem evt_draws (s : State) (a i : Nat) : (evt a i s).draws = s.draws := evt_frame s a i .draws rfl
@[simp] theorem evt_clock (s : State) (a i : Nat) : (evt a i s).clock = s.clock := evt_frame s a i .clock rfl
@[simp] theorem evt_ptpFrac (s : State) (a i : Nat) : (evt a i s).ptpFrac = s.ptpFrac := evt_frame s a i .ptpFrac rfl
@[simp] theorem evt_busData (s : State) (a i : Nat) : (evt a i s).busData = s.busData := evt_frame s a i .busData rfl
@[simp] theorem evt_busError (s : State) (a i : Nat) : (evt a i s).busError = s.busError := evt_frame s a i .busError rfl
@[simp] theorem evt_sram (s : State) (a i : Nat) : (evt a i s).sram = s.sram := evt_frame s a i .sram rfl
@[simp] theorem evt_nand (s : State) (a i : Nat) : (evt a i s).nand = s.nand := evt_frame s a i .nand rfl
@[simp] theorem evt_ang (s : State) (a i : Nat) : (evt a i s).ang = s.ang := evt_frame s a i .ang rfl
@[simp] theorem evt_slots (s : State) (a i : Nat) : (evt a i s).slots = s.slots := evt_frame s a i .slots rfl
@[simp] theorem evt_lanes (s : State) (a i : Nat) : (evt a i s).lanes = s.lanes := evt_frame s a i .lanes rfl
@[simp] theorem evt_dbLevel (s : State) (a i : Nat) : (evt a i s).dbLevel = s.dbLevel := evt_frame s a i .dbLevel rfl
@[simp] theorem evt_dbStop (s : State) (a i : Nat) : (evt a i s).dbStop = s.dbStop := evt_frame s a i .dbStop rfl
@[simp] theorem evt_tsq (s : State) (a i : Nat) : (evt a i s).tsq = s.tsq := evt_frame s a i .tsq rfl
@[simp] theorem evt_microcode (s : State) (a i : Nat) : (evt a i s).microcode = s.microcode := evt_frame s a i .microcode rfl
@[simp] theorem evt_ucLoad (s : State) (a i : Nat) : (evt a i s).ucLoad = s.ucLoad := evt_frame s a i .ucLoad rfl
@[simp] theorem evt_ztb (s : State) (a i : Nat) : (evt a i s).ztb = s.ztb := evt_frame s a i .ztb rfl
@[simp] theorem evt_nqe (s : State) (a i : Nat) : (evt a i s).nqe = s.nqe := evt_frame s a i .nqe rfl
@[simp] theorem evt_cis (s : State) (a i : Nat) : (evt a i s).cis = s.cis := evt_frame s a i .cis rfl
@[simp] theorem evt_srv (s : State) (a i : Nat) : (evt a i s).srv = s.srv := evt_frame s a i .srv rfl
@[simp] theorem evt_rates (s : State) (a i : Nat) : (evt a i s).rates = s.rates := evt_frame s a i .rates rfl
@[simp] theorem evt_spn (s : State) (a i : Nat) : (evt a i s).spn = s.spn := evt_frame s a i .spn rfl
@[simp] theorem evt_sec (s : State) (a i : Nat) : (evt a i s).sec = s.sec := evt_frame s a i .sec rfl
@[simp] theorem evt_slu (s : State) (a i : Nat) : (evt a i s).slu = s.slu := evt_frame s a i .slu rfl
@[simp] theorem evt_sys (s : State) (a i : Nat) : (evt a i s).sys = s.sys := evt_frame s a i .sys rfl
@[simp] theorem evt_noi (s : State) (a i : Nat) : (evt a i s).noi = s.noi := evt_frame s a i .noi rfl
@[simp] theorem evt_net (s : State) (a i : Nat) : (evt a i s).net = s.net := evt_frame s a i .net rfl
@[simp] theorem evt_ecc (s : State) (a i : Nat) : (evt a i s).ecc = s.ecc := evt_frame s a i .ecc rfl
@[simp] theorem evt_cch (s : State) (a i : Nat) : (evt a i s).cch = s.cch := evt_frame s a i .cch rfl
@[simp] theorem evt_cph (s : State) (a i : Nat) : (evt a i s).cph = s.cph := evt_frame s a i .cph rfl
@[simp] theorem evt_thm (s : State) (a i : Nat) : (evt a i s).thm = s.thm := evt_frame s a i .thm rfl
@[simp] theorem evt_cal (s : State) (a i : Nat) : (evt a i s).cal = s.cal := evt_frame s a i .cal rfl
@[simp] theorem evt_arc (s : State) (a i : Nat) : (evt a i s).arc = s.arc := evt_frame s a i .arc rfl
@[simp] theorem evt_tap (s : State) (a i : Nat) : (evt a i s).tap = s.tap := evt_frame s a i .tap rfl
@[simp] theorem evt_imone (s : State) (a i : Nat) : (evt a i s).imone = s.imone := evt_frame s a i .imone rfl
@[simp] theorem evt_flash (s : State) (a i : Nat) : (evt a i s).flash = s.flash := evt_frame s a i .flash rfl

/-- What `evtIf` leaves. -/
theorem evtIf_frame (s : State) (c : Bool) (a i : Nat) (f : Field) (h : Nat.testBit 0x120 f.index = false) : f.same s (evtIf c a i s) :=
  (evtIf_keeps c a i s (keeps_refl 0x120 s) (within_refl _)).frame f h
@[simp] theorem evtIf_pending (s : State) (c : Bool) (a i : Nat) : (evtIf c a i s).pending = s.pending :=
  (evtIf_keeps c a i s (keeps_refl 0x120 s) (within_refl _)).queue
@[simp] theorem evtIf_draws (s : State) (c : Bool) (a i : Nat) : (evtIf c a i s).draws = s.draws := evtIf_frame s c a i .draws rfl
@[simp] theorem evtIf_clock (s : State) (c : Bool) (a i : Nat) : (evtIf c a i s).clock = s.clock := evtIf_frame s c a i .clock rfl
@[simp] theorem evtIf_ptpFrac (s : State) (c : Bool) (a i : Nat) : (evtIf c a i s).ptpFrac = s.ptpFrac := evtIf_frame s c a i .ptpFrac rfl
@[simp] theorem evtIf_busData (s : State) (c : Bool) (a i : Nat) : (evtIf c a i s).busData = s.busData := evtIf_frame s c a i .busData rfl
@[simp] theorem evtIf_busError (s : State) (c : Bool) (a i : Nat) : (evtIf c a i s).busError = s.busError := evtIf_frame s c a i .busError rfl
@[simp] theorem evtIf_sram (s : State) (c : Bool) (a i : Nat) : (evtIf c a i s).sram = s.sram := evtIf_frame s c a i .sram rfl
@[simp] theorem evtIf_nand (s : State) (c : Bool) (a i : Nat) : (evtIf c a i s).nand = s.nand := evtIf_frame s c a i .nand rfl
@[simp] theorem evtIf_ang (s : State) (c : Bool) (a i : Nat) : (evtIf c a i s).ang = s.ang := evtIf_frame s c a i .ang rfl
@[simp] theorem evtIf_slots (s : State) (c : Bool) (a i : Nat) : (evtIf c a i s).slots = s.slots := evtIf_frame s c a i .slots rfl
@[simp] theorem evtIf_lanes (s : State) (c : Bool) (a i : Nat) : (evtIf c a i s).lanes = s.lanes := evtIf_frame s c a i .lanes rfl
@[simp] theorem evtIf_dbLevel (s : State) (c : Bool) (a i : Nat) : (evtIf c a i s).dbLevel = s.dbLevel := evtIf_frame s c a i .dbLevel rfl
@[simp] theorem evtIf_dbStop (s : State) (c : Bool) (a i : Nat) : (evtIf c a i s).dbStop = s.dbStop := evtIf_frame s c a i .dbStop rfl
@[simp] theorem evtIf_tsq (s : State) (c : Bool) (a i : Nat) : (evtIf c a i s).tsq = s.tsq := evtIf_frame s c a i .tsq rfl
@[simp] theorem evtIf_microcode (s : State) (c : Bool) (a i : Nat) : (evtIf c a i s).microcode = s.microcode := evtIf_frame s c a i .microcode rfl
@[simp] theorem evtIf_ucLoad (s : State) (c : Bool) (a i : Nat) : (evtIf c a i s).ucLoad = s.ucLoad := evtIf_frame s c a i .ucLoad rfl
@[simp] theorem evtIf_ztb (s : State) (c : Bool) (a i : Nat) : (evtIf c a i s).ztb = s.ztb := evtIf_frame s c a i .ztb rfl
@[simp] theorem evtIf_nqe (s : State) (c : Bool) (a i : Nat) : (evtIf c a i s).nqe = s.nqe := evtIf_frame s c a i .nqe rfl
@[simp] theorem evtIf_cis (s : State) (c : Bool) (a i : Nat) : (evtIf c a i s).cis = s.cis := evtIf_frame s c a i .cis rfl
@[simp] theorem evtIf_srv (s : State) (c : Bool) (a i : Nat) : (evtIf c a i s).srv = s.srv := evtIf_frame s c a i .srv rfl
@[simp] theorem evtIf_rates (s : State) (c : Bool) (a i : Nat) : (evtIf c a i s).rates = s.rates := evtIf_frame s c a i .rates rfl
@[simp] theorem evtIf_spn (s : State) (c : Bool) (a i : Nat) : (evtIf c a i s).spn = s.spn := evtIf_frame s c a i .spn rfl
@[simp] theorem evtIf_sec (s : State) (c : Bool) (a i : Nat) : (evtIf c a i s).sec = s.sec := evtIf_frame s c a i .sec rfl
@[simp] theorem evtIf_slu (s : State) (c : Bool) (a i : Nat) : (evtIf c a i s).slu = s.slu := evtIf_frame s c a i .slu rfl
@[simp] theorem evtIf_sys (s : State) (c : Bool) (a i : Nat) : (evtIf c a i s).sys = s.sys := evtIf_frame s c a i .sys rfl
@[simp] theorem evtIf_noi (s : State) (c : Bool) (a i : Nat) : (evtIf c a i s).noi = s.noi := evtIf_frame s c a i .noi rfl
@[simp] theorem evtIf_net (s : State) (c : Bool) (a i : Nat) : (evtIf c a i s).net = s.net := evtIf_frame s c a i .net rfl
@[simp] theorem evtIf_ecc (s : State) (c : Bool) (a i : Nat) : (evtIf c a i s).ecc = s.ecc := evtIf_frame s c a i .ecc rfl
@[simp] theorem evtIf_cch (s : State) (c : Bool) (a i : Nat) : (evtIf c a i s).cch = s.cch := evtIf_frame s c a i .cch rfl
@[simp] theorem evtIf_cph (s : State) (c : Bool) (a i : Nat) : (evtIf c a i s).cph = s.cph := evtIf_frame s c a i .cph rfl
@[simp] theorem evtIf_thm (s : State) (c : Bool) (a i : Nat) : (evtIf c a i s).thm = s.thm := evtIf_frame s c a i .thm rfl
@[simp] theorem evtIf_cal (s : State) (c : Bool) (a i : Nat) : (evtIf c a i s).cal = s.cal := evtIf_frame s c a i .cal rfl
@[simp] theorem evtIf_arc (s : State) (c : Bool) (a i : Nat) : (evtIf c a i s).arc = s.arc := evtIf_frame s c a i .arc rfl
@[simp] theorem evtIf_tap (s : State) (c : Bool) (a i : Nat) : (evtIf c a i s).tap = s.tap := evtIf_frame s c a i .tap rfl
@[simp] theorem evtIf_imone (s : State) (c : Bool) (a i : Nat) : (evtIf c a i s).imone = s.imone := evtIf_frame s c a i .imone rfl
@[simp] theorem evtIf_flash (s : State) (c : Bool) (a i : Nat) : (evtIf c a i s).flash = s.flash := evtIf_frame s c a i .flash rfl

/-- What `satInc` leaves. -/
theorem satInc_frame (s : State) (a w : Nat) (f : Field) (h : Nat.testBit 0x20 f.index = false) : f.same s (satInc s a w) :=
  (satInc_keeps s a w (keeps_refl 0x20 s) (within_refl _)).frame f h
@[simp] theorem satInc_pending (s : State) (a w : Nat) : (satInc s a w).pending = s.pending :=
  (satInc_keeps s a w (keeps_refl 0x20 s) (within_refl _)).queue
@[simp] theorem satInc_draws (s : State) (a w : Nat) : (satInc s a w).draws = s.draws := satInc_frame s a w .draws rfl
@[simp] theorem satInc_clock (s : State) (a w : Nat) : (satInc s a w).clock = s.clock := satInc_frame s a w .clock rfl
@[simp] theorem satInc_ptpFrac (s : State) (a w : Nat) : (satInc s a w).ptpFrac = s.ptpFrac := satInc_frame s a w .ptpFrac rfl
@[simp] theorem satInc_busData (s : State) (a w : Nat) : (satInc s a w).busData = s.busData := satInc_frame s a w .busData rfl
@[simp] theorem satInc_busError (s : State) (a w : Nat) : (satInc s a w).busError = s.busError := satInc_frame s a w .busError rfl
@[simp] theorem satInc_sram (s : State) (a w : Nat) : (satInc s a w).sram = s.sram := satInc_frame s a w .sram rfl
@[simp] theorem satInc_nand (s : State) (a w : Nat) : (satInc s a w).nand = s.nand := satInc_frame s a w .nand rfl
@[simp] theorem satInc_evr (s : State) (a w : Nat) : (satInc s a w).evr = s.evr := satInc_frame s a w .evr rfl
@[simp] theorem satInc_ang (s : State) (a w : Nat) : (satInc s a w).ang = s.ang := satInc_frame s a w .ang rfl
@[simp] theorem satInc_slots (s : State) (a w : Nat) : (satInc s a w).slots = s.slots := satInc_frame s a w .slots rfl
@[simp] theorem satInc_lanes (s : State) (a w : Nat) : (satInc s a w).lanes = s.lanes := satInc_frame s a w .lanes rfl
@[simp] theorem satInc_dbLevel (s : State) (a w : Nat) : (satInc s a w).dbLevel = s.dbLevel := satInc_frame s a w .dbLevel rfl
@[simp] theorem satInc_dbStop (s : State) (a w : Nat) : (satInc s a w).dbStop = s.dbStop := satInc_frame s a w .dbStop rfl
@[simp] theorem satInc_tsq (s : State) (a w : Nat) : (satInc s a w).tsq = s.tsq := satInc_frame s a w .tsq rfl
@[simp] theorem satInc_microcode (s : State) (a w : Nat) : (satInc s a w).microcode = s.microcode := satInc_frame s a w .microcode rfl
@[simp] theorem satInc_ucLoad (s : State) (a w : Nat) : (satInc s a w).ucLoad = s.ucLoad := satInc_frame s a w .ucLoad rfl
@[simp] theorem satInc_ztb (s : State) (a w : Nat) : (satInc s a w).ztb = s.ztb := satInc_frame s a w .ztb rfl
@[simp] theorem satInc_nqe (s : State) (a w : Nat) : (satInc s a w).nqe = s.nqe := satInc_frame s a w .nqe rfl
@[simp] theorem satInc_cis (s : State) (a w : Nat) : (satInc s a w).cis = s.cis := satInc_frame s a w .cis rfl
@[simp] theorem satInc_srv (s : State) (a w : Nat) : (satInc s a w).srv = s.srv := satInc_frame s a w .srv rfl
@[simp] theorem satInc_rates (s : State) (a w : Nat) : (satInc s a w).rates = s.rates := satInc_frame s a w .rates rfl
@[simp] theorem satInc_spn (s : State) (a w : Nat) : (satInc s a w).spn = s.spn := satInc_frame s a w .spn rfl
@[simp] theorem satInc_sec (s : State) (a w : Nat) : (satInc s a w).sec = s.sec := satInc_frame s a w .sec rfl
@[simp] theorem satInc_slu (s : State) (a w : Nat) : (satInc s a w).slu = s.slu := satInc_frame s a w .slu rfl
@[simp] theorem satInc_sys (s : State) (a w : Nat) : (satInc s a w).sys = s.sys := satInc_frame s a w .sys rfl
@[simp] theorem satInc_noi (s : State) (a w : Nat) : (satInc s a w).noi = s.noi := satInc_frame s a w .noi rfl
@[simp] theorem satInc_net (s : State) (a w : Nat) : (satInc s a w).net = s.net := satInc_frame s a w .net rfl
@[simp] theorem satInc_ecc (s : State) (a w : Nat) : (satInc s a w).ecc = s.ecc := satInc_frame s a w .ecc rfl
@[simp] theorem satInc_cch (s : State) (a w : Nat) : (satInc s a w).cch = s.cch := satInc_frame s a w .cch rfl
@[simp] theorem satInc_cph (s : State) (a w : Nat) : (satInc s a w).cph = s.cph := satInc_frame s a w .cph rfl
@[simp] theorem satInc_thm (s : State) (a w : Nat) : (satInc s a w).thm = s.thm := satInc_frame s a w .thm rfl
@[simp] theorem satInc_cal (s : State) (a w : Nat) : (satInc s a w).cal = s.cal := satInc_frame s a w .cal rfl
@[simp] theorem satInc_arc (s : State) (a w : Nat) : (satInc s a w).arc = s.arc := satInc_frame s a w .arc rfl
@[simp] theorem satInc_tap (s : State) (a w : Nat) : (satInc s a w).tap = s.tap := satInc_frame s a w .tap rfl
@[simp] theorem satInc_imone (s : State) (a w : Nat) : (satInc s a w).imone = s.imone := satInc_frame s a w .imone rfl
@[simp] theorem satInc_flash (s : State) (a w : Nat) : (satInc s a w).flash = s.flash := satInc_frame s a w .flash rfl

/-- What `satAdd` leaves. -/
theorem satAdd_frame (s : State) (a k : Nat) (f : Field) (h : Nat.testBit 0x20 f.index = false) : f.same s (satAdd s a k) :=
  (satAdd_keeps s a k (keeps_refl 0x20 s) (within_refl _)).frame f h
@[simp] theorem satAdd_pending (s : State) (a k : Nat) : (satAdd s a k).pending = s.pending :=
  (satAdd_keeps s a k (keeps_refl 0x20 s) (within_refl _)).queue
@[simp] theorem satAdd_draws (s : State) (a k : Nat) : (satAdd s a k).draws = s.draws := satAdd_frame s a k .draws rfl
@[simp] theorem satAdd_clock (s : State) (a k : Nat) : (satAdd s a k).clock = s.clock := satAdd_frame s a k .clock rfl
@[simp] theorem satAdd_ptpFrac (s : State) (a k : Nat) : (satAdd s a k).ptpFrac = s.ptpFrac := satAdd_frame s a k .ptpFrac rfl
@[simp] theorem satAdd_busData (s : State) (a k : Nat) : (satAdd s a k).busData = s.busData := satAdd_frame s a k .busData rfl
@[simp] theorem satAdd_busError (s : State) (a k : Nat) : (satAdd s a k).busError = s.busError := satAdd_frame s a k .busError rfl
@[simp] theorem satAdd_sram (s : State) (a k : Nat) : (satAdd s a k).sram = s.sram := satAdd_frame s a k .sram rfl
@[simp] theorem satAdd_nand (s : State) (a k : Nat) : (satAdd s a k).nand = s.nand := satAdd_frame s a k .nand rfl
@[simp] theorem satAdd_evr (s : State) (a k : Nat) : (satAdd s a k).evr = s.evr := satAdd_frame s a k .evr rfl
@[simp] theorem satAdd_ang (s : State) (a k : Nat) : (satAdd s a k).ang = s.ang := satAdd_frame s a k .ang rfl
@[simp] theorem satAdd_slots (s : State) (a k : Nat) : (satAdd s a k).slots = s.slots := satAdd_frame s a k .slots rfl
@[simp] theorem satAdd_lanes (s : State) (a k : Nat) : (satAdd s a k).lanes = s.lanes := satAdd_frame s a k .lanes rfl
@[simp] theorem satAdd_dbLevel (s : State) (a k : Nat) : (satAdd s a k).dbLevel = s.dbLevel := satAdd_frame s a k .dbLevel rfl
@[simp] theorem satAdd_dbStop (s : State) (a k : Nat) : (satAdd s a k).dbStop = s.dbStop := satAdd_frame s a k .dbStop rfl
@[simp] theorem satAdd_tsq (s : State) (a k : Nat) : (satAdd s a k).tsq = s.tsq := satAdd_frame s a k .tsq rfl
@[simp] theorem satAdd_microcode (s : State) (a k : Nat) : (satAdd s a k).microcode = s.microcode := satAdd_frame s a k .microcode rfl
@[simp] theorem satAdd_ucLoad (s : State) (a k : Nat) : (satAdd s a k).ucLoad = s.ucLoad := satAdd_frame s a k .ucLoad rfl
@[simp] theorem satAdd_ztb (s : State) (a k : Nat) : (satAdd s a k).ztb = s.ztb := satAdd_frame s a k .ztb rfl
@[simp] theorem satAdd_nqe (s : State) (a k : Nat) : (satAdd s a k).nqe = s.nqe := satAdd_frame s a k .nqe rfl
@[simp] theorem satAdd_cis (s : State) (a k : Nat) : (satAdd s a k).cis = s.cis := satAdd_frame s a k .cis rfl
@[simp] theorem satAdd_srv (s : State) (a k : Nat) : (satAdd s a k).srv = s.srv := satAdd_frame s a k .srv rfl
@[simp] theorem satAdd_rates (s : State) (a k : Nat) : (satAdd s a k).rates = s.rates := satAdd_frame s a k .rates rfl
@[simp] theorem satAdd_spn (s : State) (a k : Nat) : (satAdd s a k).spn = s.spn := satAdd_frame s a k .spn rfl
@[simp] theorem satAdd_sec (s : State) (a k : Nat) : (satAdd s a k).sec = s.sec := satAdd_frame s a k .sec rfl
@[simp] theorem satAdd_slu (s : State) (a k : Nat) : (satAdd s a k).slu = s.slu := satAdd_frame s a k .slu rfl
@[simp] theorem satAdd_sys (s : State) (a k : Nat) : (satAdd s a k).sys = s.sys := satAdd_frame s a k .sys rfl
@[simp] theorem satAdd_noi (s : State) (a k : Nat) : (satAdd s a k).noi = s.noi := satAdd_frame s a k .noi rfl
@[simp] theorem satAdd_net (s : State) (a k : Nat) : (satAdd s a k).net = s.net := satAdd_frame s a k .net rfl
@[simp] theorem satAdd_ecc (s : State) (a k : Nat) : (satAdd s a k).ecc = s.ecc := satAdd_frame s a k .ecc rfl
@[simp] theorem satAdd_cch (s : State) (a k : Nat) : (satAdd s a k).cch = s.cch := satAdd_frame s a k .cch rfl
@[simp] theorem satAdd_cph (s : State) (a k : Nat) : (satAdd s a k).cph = s.cph := satAdd_frame s a k .cph rfl
@[simp] theorem satAdd_thm (s : State) (a k : Nat) : (satAdd s a k).thm = s.thm := satAdd_frame s a k .thm rfl
@[simp] theorem satAdd_cal (s : State) (a k : Nat) : (satAdd s a k).cal = s.cal := satAdd_frame s a k .cal rfl
@[simp] theorem satAdd_arc (s : State) (a k : Nat) : (satAdd s a k).arc = s.arc := satAdd_frame s a k .arc rfl
@[simp] theorem satAdd_tap (s : State) (a k : Nat) : (satAdd s a k).tap = s.tap := satAdd_frame s a k .tap rfl
@[simp] theorem satAdd_imone (s : State) (a k : Nat) : (satAdd s a k).imone = s.imone := satAdd_frame s a k .imone rfl
@[simp] theorem satAdd_flash (s : State) (a k : Nat) : (satAdd s a k).flash = s.flash := satAdd_frame s a k .flash rfl

/-- What `wrapInc` leaves. -/
theorem wrapInc_frame (s : State) (a : Nat) (f : Field) (h : Nat.testBit 0x20 f.index = false) : f.same s (wrapInc s a) :=
  (wrapInc_keeps s a (keeps_refl 0x20 s) (within_refl _)).frame f h
@[simp] theorem wrapInc_pending (s : State) (a : Nat) : (wrapInc s a).pending = s.pending :=
  (wrapInc_keeps s a (keeps_refl 0x20 s) (within_refl _)).queue
@[simp] theorem wrapInc_draws (s : State) (a : Nat) : (wrapInc s a).draws = s.draws := wrapInc_frame s a .draws rfl
@[simp] theorem wrapInc_clock (s : State) (a : Nat) : (wrapInc s a).clock = s.clock := wrapInc_frame s a .clock rfl
@[simp] theorem wrapInc_ptpFrac (s : State) (a : Nat) : (wrapInc s a).ptpFrac = s.ptpFrac := wrapInc_frame s a .ptpFrac rfl
@[simp] theorem wrapInc_busData (s : State) (a : Nat) : (wrapInc s a).busData = s.busData := wrapInc_frame s a .busData rfl
@[simp] theorem wrapInc_busError (s : State) (a : Nat) : (wrapInc s a).busError = s.busError := wrapInc_frame s a .busError rfl
@[simp] theorem wrapInc_sram (s : State) (a : Nat) : (wrapInc s a).sram = s.sram := wrapInc_frame s a .sram rfl
@[simp] theorem wrapInc_nand (s : State) (a : Nat) : (wrapInc s a).nand = s.nand := wrapInc_frame s a .nand rfl
@[simp] theorem wrapInc_evr (s : State) (a : Nat) : (wrapInc s a).evr = s.evr := wrapInc_frame s a .evr rfl
@[simp] theorem wrapInc_ang (s : State) (a : Nat) : (wrapInc s a).ang = s.ang := wrapInc_frame s a .ang rfl
@[simp] theorem wrapInc_slots (s : State) (a : Nat) : (wrapInc s a).slots = s.slots := wrapInc_frame s a .slots rfl
@[simp] theorem wrapInc_lanes (s : State) (a : Nat) : (wrapInc s a).lanes = s.lanes := wrapInc_frame s a .lanes rfl
@[simp] theorem wrapInc_dbLevel (s : State) (a : Nat) : (wrapInc s a).dbLevel = s.dbLevel := wrapInc_frame s a .dbLevel rfl
@[simp] theorem wrapInc_dbStop (s : State) (a : Nat) : (wrapInc s a).dbStop = s.dbStop := wrapInc_frame s a .dbStop rfl
@[simp] theorem wrapInc_tsq (s : State) (a : Nat) : (wrapInc s a).tsq = s.tsq := wrapInc_frame s a .tsq rfl
@[simp] theorem wrapInc_microcode (s : State) (a : Nat) : (wrapInc s a).microcode = s.microcode := wrapInc_frame s a .microcode rfl
@[simp] theorem wrapInc_ucLoad (s : State) (a : Nat) : (wrapInc s a).ucLoad = s.ucLoad := wrapInc_frame s a .ucLoad rfl
@[simp] theorem wrapInc_ztb (s : State) (a : Nat) : (wrapInc s a).ztb = s.ztb := wrapInc_frame s a .ztb rfl
@[simp] theorem wrapInc_nqe (s : State) (a : Nat) : (wrapInc s a).nqe = s.nqe := wrapInc_frame s a .nqe rfl
@[simp] theorem wrapInc_cis (s : State) (a : Nat) : (wrapInc s a).cis = s.cis := wrapInc_frame s a .cis rfl
@[simp] theorem wrapInc_srv (s : State) (a : Nat) : (wrapInc s a).srv = s.srv := wrapInc_frame s a .srv rfl
@[simp] theorem wrapInc_rates (s : State) (a : Nat) : (wrapInc s a).rates = s.rates := wrapInc_frame s a .rates rfl
@[simp] theorem wrapInc_spn (s : State) (a : Nat) : (wrapInc s a).spn = s.spn := wrapInc_frame s a .spn rfl
@[simp] theorem wrapInc_sec (s : State) (a : Nat) : (wrapInc s a).sec = s.sec := wrapInc_frame s a .sec rfl
@[simp] theorem wrapInc_slu (s : State) (a : Nat) : (wrapInc s a).slu = s.slu := wrapInc_frame s a .slu rfl
@[simp] theorem wrapInc_sys (s : State) (a : Nat) : (wrapInc s a).sys = s.sys := wrapInc_frame s a .sys rfl
@[simp] theorem wrapInc_noi (s : State) (a : Nat) : (wrapInc s a).noi = s.noi := wrapInc_frame s a .noi rfl
@[simp] theorem wrapInc_net (s : State) (a : Nat) : (wrapInc s a).net = s.net := wrapInc_frame s a .net rfl
@[simp] theorem wrapInc_ecc (s : State) (a : Nat) : (wrapInc s a).ecc = s.ecc := wrapInc_frame s a .ecc rfl
@[simp] theorem wrapInc_cch (s : State) (a : Nat) : (wrapInc s a).cch = s.cch := wrapInc_frame s a .cch rfl
@[simp] theorem wrapInc_cph (s : State) (a : Nat) : (wrapInc s a).cph = s.cph := wrapInc_frame s a .cph rfl
@[simp] theorem wrapInc_thm (s : State) (a : Nat) : (wrapInc s a).thm = s.thm := wrapInc_frame s a .thm rfl
@[simp] theorem wrapInc_cal (s : State) (a : Nat) : (wrapInc s a).cal = s.cal := wrapInc_frame s a .cal rfl
@[simp] theorem wrapInc_arc (s : State) (a : Nat) : (wrapInc s a).arc = s.arc := wrapInc_frame s a .arc rfl
@[simp] theorem wrapInc_tap (s : State) (a : Nat) : (wrapInc s a).tap = s.tap := wrapInc_frame s a .tap rfl
@[simp] theorem wrapInc_imone (s : State) (a : Nat) : (wrapInc s a).imone = s.imone := wrapInc_frame s a .imone rfl
@[simp] theorem wrapInc_flash (s : State) (a : Nat) : (wrapInc s a).flash = s.flash := wrapInc_frame s a .flash rfl

end Sys2Proof.Machine
end

