-- ==== Sys2Proof/Laws/Sluice.lean ====
section
/-! SUPPORT. Register frames: what an operation shows in the registers, as the registers that it may write
(`RegFrame`), with the frame of the Sluice's action on the slots. -/

set_option Elab.async false

namespace Sys2Proof.Machine

/-- `t` has canonical registers, and shows every register outside `T` as `s` does. -/
structure RegFrame (T : Nat → Prop) (s t : State) : Prop where
  ok : regsOk t
  rd : ∀ b, ¬T b → Machine.rd t b = Machine.rd s b

theorem regFrame_refl {T : Nat → Prop} {s : State} (h : regsOk s) : RegFrame T s s := ⟨h, fun _ _ => rfl⟩

theorem RegFrame.mono {T U : Nat → Prop} {s t : State} (h : RegFrame T s t) (k : ∀ b, T b → U b) : RegFrame U s t :=
  ⟨h.ok, fun b hb => h.rd b fun x => hb (k b x)⟩

theorem RegFrame.trans {T : Nat → Prop} {r s t : State} (h : RegFrame T r s) (k : RegFrame T s t) : RegFrame T r t :=
  ⟨k.ok, fun b hb => (k.rd b hb).trans (h.rd b hb)⟩

/-- An update that leaves the registers. -/
theorem RegFrame.regs {T : Nat → Prop} {s t u : State} (h : RegFrame T s t) (e : u.regs = t.regs) : RegFrame T s u :=
  ⟨regsOk_of_regs e h.ok, fun b hb => by
    rw [← h.rd b hb]
    unfold Machine.rd
    rw [e]⟩

theorem RegFrame.wr {T : Nat → Prop} {s t : State} {a : Nat} {v : Word} (h : RegFrame T s t) (ha : T a) :
    RegFrame T s (Machine.wr t a v) :=
  ⟨regsOk_wr h.ok, fun b hb => by
    rw [rd_wr_ne h.ok (by rintro rfl; exact hb ha), h.rd b hb]⟩

theorem RegFrame.evt {T : Nat → Prop} {s t : State} {a i : Nat} (h : RegFrame T s t) (ha : T a)
    (hr : ∀ b, recorderCounter b → T b) : RegFrame T s (Machine.evt a i t) :=
  ⟨regsOk_evt h.ok, fun b hb => by
    rw [rd_evt_ne h.ok (fun e => hb (hr b e)) (by rintro rfl; exact hb ha), h.rd b hb]⟩

theorem RegFrame.evtIf {T : Nat → Prop} {s t : State} {c : Bool} {a i : Nat} (h : RegFrame T s t) (ha : T a)
    (hr : ∀ b, recorderCounter b → T b) : RegFrame T s (Machine.evtIf c a i t) := by
  unfold Machine.evtIf
  split
  · exact h.evt ha hr
  · exact h

theorem RegFrame.trigger {T : Nat → Prop} {s t : State} {ch pos : Nat} (h : RegFrame T s t) (hc : ch < 64)
    (hr : ∀ b, recorderCounter b → T b) : RegFrame T s (Machine.trigger ch pos t) :=
  ⟨regsOk_trigger h.ok, fun b hb => by
    rw [rd_trigger h.ok hc (fun e => hb (hr b e)), h.rd b hb]⟩

theorem RegFrame.satInc {T : Nat → Prop} {s t : State} {a w : Nat} (h : RegFrame T s t) (ha : T a) :
    RegFrame T s (Machine.satInc t a w) := by
  unfold Machine.satInc
  split <;> exact h.wr ha

theorem RegFrame.wr64 {T : Nat → Prop} {s t : State} {a v : Nat} (h : RegFrame T s t) (ha : T a) (hb : T (a + 4)) :
    RegFrame T s (Machine.wr64 t a v) := (h.wr ha).wr hb

theorem RegFrame.ite {T : Nat → Prop} {c : Prop} [Decidable c] {s t u : State} (h : RegFrame T s t)
    (k : RegFrame T s u) : RegFrame T s (if c then t else u) := by
  split
  · exact h
  · exact k

theorem RegFrame.foldl {α : Type} {T : Nat → Prop} {s : State} {f : State → α → State} {l : List α} {t : State}
    (hf : ∀ u a, a ∈ l → RegFrame T s u → RegFrame T s (f u a)) (h : RegFrame T s t) : RegFrame T s (l.foldl f t) := by
  induction l generalizing t with
  | nil => exact h
  | cons a l ih =>
    exact ih (fun u b hb hu => hf u b (by simp [hb]) hu) (hf t a (by simp) h)

theorem RegFrame.getF {T : Nat → Prop} {s t : State} (h : RegFrame T s t) {b : Nat} (hb : ¬T b) (lo w : Nat) :
    Machine.getF t b lo w = Machine.getF s b lo w := by
  unfold Machine.getF
  rw [h.rd b hb]

theorem RegFrame.bit {T : Nat → Prop} {s t : State} (h : RegFrame T s t) {b : Nat} (hb : ¬T b) (i : Nat) :
    Machine.bit t b i = Machine.bit s b i := by
  unfold Machine.bit
  rw [h.rd b hb]

/-! ## The Sluice's action -/

/-- A register that the Sluice's action on a slot may write: SLU_EVT, SLU_STS, SLU_INHCNT, the slot's
LANE_APWR, TSQ_EVT, TSQ_SEVT, and the recorder's counters. -/
def sluTouches (a : Nat) : Prop :=
  recorderCounter a ∨ a = Reg.SLU_EVT ∨ a = Reg.SLU_STS ∨ a = Reg.SLU_INHCNT
    ∨ (∃ q, q < 2 ∧ (a = Reg.TSQ_EVT q ∨ a = Reg.TSQ_SEVT q)) ∨ (∃ n, n < 8 ∧ a = Reg.LANE_APWR n)

theorem slu_rec (b : Nat) (h : recorderCounter b) : sluTouches b := Or.inl h
theorem slu_evt : sluTouches Reg.SLU_EVT := .inr (.inl rfl)
theorem slu_sts : sluTouches Reg.SLU_STS := .inr (.inr (.inl rfl))
theorem slu_inhcnt : sluTouches Reg.SLU_INHCNT := .inr (.inr (.inr (.inl rfl)))
theorem slu_tsqEvt {q : Nat} (h : q < 2) : sluTouches (Reg.TSQ_EVT q) := .inr (.inr (.inr (.inr (.inl ⟨q, h, .inl rfl⟩))))
theorem slu_tsqSevt {q : Nat} (h : q < 2) : sluTouches (Reg.TSQ_SEVT q) := .inr (.inr (.inr (.inr (.inl ⟨q, h, .inr rfl⟩))))
theorem slu_apwr {n : Nat} (h : n < 8) : sluTouches (Reg.LANE_APWR n) := .inr (.inr (.inr (.inr (.inr ⟨n, h, rfl⟩))))

/-- What the Sluice's action leaves in the registers. -/
abbrev SluFrame (s t : State) : Prop := RegFrame sluTouches s t

theorem raiseS_slu {s t : State} {q x c : Nat} (hq : q < 2) (h : SluFrame s t) : SluFrame s (raiseS q x c t) := by
  unfold raiseS
  dsimp only
  split
  · split
    · exact h
    · exact h.regs rfl
  · exact (h.evt (slu_tsqSevt hq) slu_rec).evt (slu_tsqEvt hq) slu_rec

theorem slotAct_lt {n : Nat} (hn : n < 8) : slotAct n < 2 := by
  unfold slotAct
  omega

theorem latchCause_slu {s t : State} {n : Nat} (hn : n < 8) (h : SluFrame s t) : SluFrame s (latchCause t n) := by
  unfold latchCause
  split
  · exact RegFrame.foldl (fun u x _ hu => raiseS_slu (slotAct_lt hn) hu) h
  · split
    · exact RegFrame.foldl (fun u x _ hu => RegFrame.ite (raiseS_slu (slotAct_lt hn) hu) hu) h
    · exact RegFrame.ite (raiseS_slu (slotAct_lt hn) h) h

theorem latchEffects_slu {s t : State} {n : Nat} (hn : n < 8) (h : SluFrame s t) : SluFrame s (latchEffects n t) :=
  latchCause_slu hn ((h.evt slu_evt slu_rec).satInc slu_inhcnt)

theorem dropAssist_slu {s t : State} {n : Nat} (hn : n < 8) (h : SluFrame s t) : SluFrame s (dropAssist n t) :=
  (h.regs (u := modSlot t n _) rfl).wr (slu_apwr hn)

theorem sluApply_slu {s t : State} {n : Nat} (hn : n < 8) (h : SluFrame s t) : SluFrame s (sluApply n t) := by
  have h1 : SluFrame s (if (slotAt t n).wg && !wgLatched t n && !wgPass t n then latchWg n t else t) :=
    RegFrame.ite (latchEffects_slu hn ((h.evtIf slu_evt slu_rec).wr slu_sts)) h
  unfold sluApply
  dsimp only
  generalize (if (slotAt t n).wg && !wgLatched t n && !wgPass t n then latchWg n t else t) = u at h1
  exact RegFrame.ite h1 (RegFrame.ite (latchEffects_slu hn (dropAssist_slu hn (h1.wr slu_sts)))
    (RegFrame.ite (dropAssist_slu hn h1) h1))

/-- The Sluice acts on a slot. -/
theorem sluApply_frame {s : State} {n : Nat} (hn : n < 8) (h : regsOk s) : SluFrame s (sluApply n s) :=
  sluApply_slu hn (regFrame_refl h)

theorem sluAll_slu {s t : State} (h : SluFrame s t) : SluFrame s (sluAll t) :=
  RegFrame.foldl (fun _ n hn hu => sluApply_slu (by simpa using hn) hu) h

/-- The Sluice acts on every slot. -/
theorem sluAll_frame {s : State} (h : regsOk s) : SluFrame s (sluAll s) := sluAll_slu (regFrame_refl h)

/-- A register of none of the Sluice's, the lanes', the sequencers' and the recorder's blocks. -/
theorem sluTouches_block {a : Nat} (h : sluTouches a) : a / 0x10000 ∈ [10, 11, 12, 16, 19] := by
  simp only [sluTouches, recorderCounter, Reg.EVR_FULLDROP, Reg.EVR_STGDROP, Reg.SLU_EVT, Reg.SLU_STS,
    Reg.SLU_INHCNT, Reg.TSQ_EVT, Reg.TSQ_SEVT, Reg.LANE_APWR] at h
  simp only [List.mem_cons, List.not_mem_nil, or_false]
  rcases h with h1 | h1 | h1 | h1 | ⟨q, hq, h1⟩ | ⟨n, hn, h1⟩ <;> omega

theorem not_slu {a : Nat} (h : a / 0x10000 ∉ [10, 11, 12, 16, 19] := by decide) : ¬sluTouches a :=
  fun k => h (sluTouches_block k)

end Sys2Proof.Machine
end

