-- ==== Sys2Proof/Laws/StayBase.lean ====
section
/-! SUPPORT. Operations that leave some registers, those outside `T`: the shared steps of the lemmas of
Laws/Stay<Name>.lean. -/

set_option Elab.async false

namespace Sys2Proof.Machine

variable {T : Nat → Prop} {s0 : State}

theorem wr_st (s : State) (a : Nat) (v : Word) (hk : RegFrame T s0 s) (h : T a) : RegFrame T s0 (wr s a v) := hk.wr h

theorem wrN_st (s : State) (a v : Nat) (hk : RegFrame T s0 s) (h : T a) : RegFrame T s0 (wrN s a v) := hk.wr h

theorem setF_st (s : State) (a lo w v : Nat) (hk : RegFrame T s0 s) (h : T a) : RegFrame T s0 (setF s a lo w v) := hk.wr h

theorem setBit_st (s : State) (a i : Nat) (b : Bool) (hk : RegFrame T s0 s) (h : T a) :
    RegFrame T s0 (setBit s a i b) := hk.wr h

theorem wr64_st (s : State) (a v : Nat) (hk : RegFrame T s0 s) (h : T a) (h4 : T (a + 4)) :
    RegFrame T s0 (wr64 s a v) := hk.wr64 h h4

theorem satInc_st (s : State) (a w : Nat) (hk : RegFrame T s0 s) (h : T a) : RegFrame T s0 (satInc s a w) := hk.satInc h

theorem satAdd_st (s : State) (a n : Nat) (hk : RegFrame T s0 s) (h : T a) : RegFrame T s0 (satAdd s a n) := hk.wr h

theorem wrapInc_st (s : State) (a : Nat) (hk : RegFrame T s0 s) (h : T a) : RegFrame T s0 (wrapInc s a) := hk.wr h

theorem wrapAdd_st (s : State) (a n : Nat) (hk : RegFrame T s0 s) (h : T a) : RegFrame T s0 (wrapAdd s a n) := hk.wr h

theorem wrFp_st (s : State) (a : Nat) (q : Rat) (hk : RegFrame T s0 s) (h : T a) : RegFrame T s0 (wrFp s a q) := hk.wr h

theorem evt_st (a i : Nat) (s : State) (hk : RegFrame T s0 s) (h : T a)
    (hr : ∀ b, recorderCounter b → T b) : RegFrame T s0 (evt a i s) := hk.evt h hr

theorem evtIf_st (c : Bool) (a i : Nat) (s : State) (hk : RegFrame T s0 s) (h : T a)
    (hr : ∀ b, recorderCounter b → T b) : RegFrame T s0 (evtIf c a i s) := hk.evtIf h hr

theorem trigger_st (ch pos : Nat) (s : State) (hk : RegFrame T s0 s) (hc : ch < 64)
    (hr : ∀ b, recorderCounter b → T b) : RegFrame T s0 (trigger ch pos s) := hk.trigger hc hr

theorem stay_snd {α : Type} {s : State} {a : α} {p : α × State} (e : p = (a, s)) (hk : RegFrame T s0 p.2) : RegFrame T s0 s := by
  subst e
  exact hk

theorem stay_thd {α γ : Type} {s : State} {a : α} {b : γ} {p : α × γ × State} (e : p = (a, b, s))
    (hk : RegFrame T s0 p.2.2) : RegFrame T s0 s := by
  subst e
  exact hk

/-- A state with the registers of `t`. -/
theorem regs_mk {t : State} {p : List Instr} {d c : Nat} {pf : Rat} {bd : Nat} {be : Bool} {sr : List (Nat × SramWord)}
    {na : List Host.Cell} {ev : EvrState} {an : AngState} {sl : List Slot} {la : List Lane} {dl : List Rat}
    {ds : List Bool} {ts : List Tsq} {mc : List (Nat × Word)} {ul : Option UcLoad} {zt : ZtbState} {nq : NqeState}
    {ci : CisState} {sv : List Srv} {ra : List Int} {sp : Spn} {se : SecState} {su : SluState} {sy : SysState}
    {no : NoiState} {ne : NetState} {ec : EccState} {cc : CchState} {cp : CphState} {th : ThmState} {ca : CalState}
    {ar : ArcState} {ta : TapState} {im : List ImoneState} {fl : NandState} (hk : RegFrame T s0 t) :
    RegFrame T s0 (State.mk p d c pf bd be t.regs sr na ev an sl la dl ds ts mc ul zt nq ci sv ra sp se su sy no ne ec cc cp th
      ca ar ta im fl) := hk.regs rfl

end Sys2Proof.Machine
end

