-- ==== Sys2Proof/Laws/StayAngSts.lean ====
section
/-! SUPPORT. Operations that leave ANG_STS. -/

set_option linter.unusedSimpArgs false

set_option Elab.async false

namespace Sys2Proof.Machine

/-- A register that these operations may write. -/
abbrev OffAngSts (b : Nat) : Prop := b ≠ Reg.ANG_STS

theorem offAngSts_rec (b : Nat) (h : recorderCounter b) : OffAngSts b := by
  simp only [recorderCounter, Reg.EVR_FULLDROP, Reg.EVR_STGDROP] at h
  simp only [OffAngSts, Reg.ANG_STS]
  omega

theorem drawFree_rsAngSts {s0 : State} (w : Nat) (s : State)  (hk : RegFrame OffAngSts s0 s) : RegFrame OffAngSts s0 (drawFree w s).2 := by
  refine RegFrame.regs hk ?_
  have hk := keeps_refl 0x1 s
  have hm := within_refl 0x1
  exact (by first | rfl | exact (drawFree_keeps (hk := hk) (hm := hm) ..).frame .regs rfl | exact (drawFree_keeps (hk := hk) ..).frame .regs rfl)

theorem modSlot_rsAngSts {s0 : State} (s : State) (n : Nat) (f : Slot → Slot)  (hk : RegFrame OffAngSts s0 s) : RegFrame OffAngSts s0 (modSlot s n f) := by
  refine RegFrame.regs hk ?_
  have hk := keeps_refl 0x400 s
  have hm := within_refl 0x400
  exact (by first | rfl | exact (modSlot_keeps (hk := hk) (hm := hm) ..).frame .regs rfl | exact (modSlot_keeps (hk := hk) ..).frame .regs rfl)

theorem modLane_rsAngSts {s0 : State} (s : State) (n : Nat) (f : Lane → Lane)  (hk : RegFrame OffAngSts s0 s) : RegFrame OffAngSts s0 (modLane s n f) := by
  refine RegFrame.regs hk ?_
  have hk := keeps_refl 0x800 s
  have hm := within_refl 0x800
  exact (by first | rfl | exact (modLane_keeps (hk := hk) (hm := hm) ..).frame .regs rfl | exact (modLane_keeps (hk := hk) ..).frame .regs rfl)

theorem modCtx_rsAngSts {s0 : State} (s : State) (q x : Nat) (f : Ctx → Ctx)  (hk : RegFrame OffAngSts s0 s) : RegFrame OffAngSts s0 (modCtx s q x f) := by
  refine RegFrame.regs hk ?_
  have hk := keeps_refl 0x4000 s
  have hm := within_refl 0x4000
  exact (by first | rfl | exact (modCtx_keeps (hk := hk) (hm := hm) ..).frame .regs rfl | exact (modCtx_keeps (hk := hk) ..).frame .regs rfl)

theorem streamSuspend_rsAngSts {s0 : State} (s : State)  (hk : RegFrame OffAngSts s0 s) : RegFrame OffAngSts s0 (streamSuspend s) := by
  refine RegFrame.regs hk ?_
  have hk := keeps_refl 0x200000000 s
  have hm := within_refl 0x200000000
  exact (by first | rfl | exact (streamSuspend_keeps (hk := hk) (hm := hm) ..).frame .regs rfl | exact (streamSuspend_keeps (hk := hk) ..).frame .regs rfl)

theorem modSrv_rsAngSts {s0 : State} (s : State) (a : Nat) (f : Srv → Srv)  (hk : RegFrame OffAngSts s0 s) : RegFrame OffAngSts s0 (modSrv s a f) := by
  refine RegFrame.regs hk ?_
  have hk := keeps_refl 0x100000 s
  have hm := within_refl 0x100000
  exact (by first | rfl | exact (modSrv_keeps (hk := hk) (hm := hm) ..).frame .regs rfl | exact (modSrv_keeps (hk := hk) ..).frame .regs rfl)

theorem targetPending_rsAngSts {s0 : State} (n : Nat) (s : State)  (hk : RegFrame OffAngSts s0 s) : RegFrame OffAngSts s0 (targetPending n s) := by
  refine RegFrame.regs hk ?_
  have hk := keeps_refl 0x400 s
  have hm := within_refl 0x400
  exact (by first | rfl | exact (targetPending_keeps (hk := hk) (hm := hm) ..).frame .regs rfl | exact (targetPending_keeps (hk := hk) ..).frame .regs rfl)

theorem noteGate_rsAngSts {s0 : State} (l : Nat) (before : Bool) (s : State)  (hk : RegFrame OffAngSts s0 s) : RegFrame OffAngSts s0 (noteGate l before s) := by
  refine RegFrame.regs hk ?_
  have hk := keeps_refl 0x800 s
  have hm := within_refl 0x800
  exact (by first | rfl | exact (noteGate_keeps (hk := hk) (hm := hm) ..).frame .regs rfl | exact (noteGate_keeps (hk := hk) ..).frame .regs rfl)

theorem sendResult_rsAngSts {s0 : State} (l word : Nat) (s : State)  (hk : RegFrame OffAngSts s0 s) : RegFrame OffAngSts s0 (sendResult l word s) := by
  refine RegFrame.regs hk ?_
  have hk := keeps_refl 0x4000 s
  have hm := within_refl 0x4000
  exact (by first | rfl | exact (sendResult_keeps (hk := hk) (hm := hm) ..).frame .regs rfl | exact (sendResult_keeps (hk := hk) ..).frame .regs rfl)

theorem advanceLane_rsAngSts {s0 : State} (l : Nat) (s : State)  (hk : RegFrame OffAngSts s0 s) : RegFrame OffAngSts s0 (advanceLane l s) := by
  refine RegFrame.regs hk ?_
  have hk := keeps_refl 0x800 s
  have hm := within_refl 0x800
  exact (by first | rfl | exact (advanceLane_keeps (hk := hk) (hm := hm) ..).frame .regs rfl | exact (advanceLane_keeps (hk := hk) ..).frame .regs rfl)

theorem syncSoFar_rsAngSts {s0 : State} (s : State) (l : Nat) (r : LaneRun)  (hk : RegFrame OffAngSts s0 s) : RegFrame OffAngSts s0 (syncSoFar s l r).2 := by
  refine RegFrame.regs hk ?_
  have hk := keeps_refl 0x1 s
  have hm := within_refl 0x1
  exact (by first | rfl | exact (syncSoFar_keeps (hk := hk) (hm := hm) ..).frame .regs rfl | exact (syncSoFar_keeps (hk := hk) ..).frame .regs rfl)

theorem stopLane_rsAngSts {s0 : State} (l : Nat) (s : State)  (hk : RegFrame OffAngSts s0 s) : RegFrame OffAngSts s0 (stopLane l s) := by
  refine RegFrame.regs hk ?_
  have hk := keeps_refl 0x800 s
  have hm := within_refl 0x800
  exact (by first | rfl | exact (stopLane_keeps (hk := hk) (hm := hm) ..).frame .regs rfl | exact (stopLane_keeps (hk := hk) ..).frame .regs rfl)

theorem setReadGate_rsAngSts {s0 : State} (l : Nat) (b : Bool) (s : State)  (hk : RegFrame OffAngSts s0 s) : RegFrame OffAngSts s0 (setReadGate l b s) := by
  refine RegFrame.regs hk ?_
  have hk := keeps_refl 0xc00 s
  have hm := within_refl 0xc00
  exact (by first | rfl | exact (setReadGate_keeps (hk := hk) (hm := hm) ..).frame .regs rfl | exact (setReadGate_keeps (hk := hk) ..).frame .regs rfl)

theorem wgDrop_rsAngSts {s0 : State} (n : Nat) (s : State)  (hk : RegFrame OffAngSts s0 s) : RegFrame OffAngSts s0 (wgDrop n s) := by
  refine RegFrame.regs hk ?_
  have hk := keeps_refl 0xc00 s
  have hm := within_refl 0xc00
  exact (by first | rfl | exact (wgDrop_keeps (hk := hk) (hm := hm) ..).frame .regs rfl | exact (wgDrop_keeps (hk := hk) ..).frame .regs rfl)

theorem syncOpen_rsAngSts {s0 : State} (n arg : Nat) (s : State)  (hk : RegFrame OffAngSts s0 s) : RegFrame OffAngSts s0 (syncOpen n arg s) := by
  refine RegFrame.regs hk ?_
  have hk := keeps_refl 0x800 s
  have hm := within_refl 0x800
  exact (by first | rfl | exact (syncOpen_keeps (hk := hk) (hm := hm) ..).frame .regs rfl | exact (syncOpen_keeps (hk := hk) ..).frame .regs rfl)

theorem modPort_rsAngSts {s0 : State} (s : State) (p : Nat) (f : EthState → EthState)  (hk : RegFrame OffAngSts s0 s) : RegFrame OffAngSts s0 (modPort s p f) := by
  refine RegFrame.regs hk ?_
  have hk := keeps_refl 0x8000000 s
  have hm := within_refl 0x8000000
  exact (by first | rfl | exact (modPort_keeps (hk := hk) (hm := hm) ..).frame .regs rfl | exact (modPort_keeps (hk := hk) ..).frame .regs rfl)

theorem settleTokens_rsAngSts {s0 : State} (s : State)  (hk : RegFrame OffAngSts s0 s) : RegFrame OffAngSts s0 (settleTokens s) := by
  refine RegFrame.regs hk ?_
  have hk := keeps_refl 0x1000000 s
  have hm := within_refl 0x1000000
  exact (by first | rfl | exact (settleTokens_keeps (hk := hk) (hm := hm) ..).frame .regs rfl | exact (settleTokens_keeps (hk := hk) ..).frame .regs rfl)

theorem modSpn_rsAngSts {s0 : State} (s : State) (f : Spn → Spn)  (hk : RegFrame OffAngSts s0 s) : RegFrame OffAngSts s0 (modSpn s f) := by
  refine RegFrame.regs hk ?_
  have hk := keeps_refl 0x400000 s
  have hm := within_refl 0x400000
  exact (by first | rfl | exact (modSpn_keeps (hk := hk) (hm := hm) ..).frame .regs rfl | exact (modSpn_keeps (hk := hk) ..).frame .regs rfl)

theorem captureTriggered_rsAngSts {s0 : State} (a : Nat) (s : State)  (hk : RegFrame OffAngSts s0 s) : RegFrame OffAngSts s0 (captureTriggered a s) := by
  refine RegFrame.regs hk ?_
  have hk := keeps_refl 0x100000 s
  have hm := within_refl 0x100000
  exact (by first | rfl | exact (captureTriggered_keeps (hk := hk) (hm := hm) ..).frame .regs rfl | exact (captureTriggered_keeps (hk := hk) ..).frame .regs rfl)

theorem modAng_rsAngSts {s0 : State} (s : State) (f : AngState → AngState)  (hk : RegFrame OffAngSts s0 s) : RegFrame OffAngSts s0 (modAng s f) := by
  refine RegFrame.regs hk ?_
  have hk := keeps_refl 0x200 s
  have hm := within_refl 0x200
  exact (by first | rfl | exact (modAng_keeps (hk := hk) (hm := hm) ..).frame .regs rfl | exact (modAng_keeps (hk := hk) ..).frame .regs rfl)

theorem setMode_stayAngSts {s0 : State} (m : Nat) (s : State)  (hk : RegFrame OffAngSts s0 s) : RegFrame OffAngSts s0 (setMode m s) := by
  unfold setMode
  try dsimp only
  repeat' first
    | with_reducible assumption
    | with_reducible apply setF_st
    | with_reducible apply wr64_st
    | with_reducible apply trigger_st
    | with_reducible apply evt_st
    | with_reducible apply RegFrame.ite
    | split
    | exact offAngSts_rec
    | (simp only [OffAngSts, Reg.ANG_STS, Reg.SYS_EVT, Reg.SYS_MODE, Reg.SYS_MTIME]; omega)
    | omega

theorem recordS_stayAngSts {s0 : State} (q cause : Nat) (s : State)  (hk : RegFrame OffAngSts s0 s) : RegFrame OffAngSts s0 (recordS q cause s) := by
  unfold recordS
  try dsimp only
  repeat' first
    | with_reducible assumption
    | with_reducible apply evt_st
    | exact offAngSts_rec
    | (simp only [OffAngSts, Reg.ANG_STS, Reg.TSQ_EVT, Reg.TSQ_SEVT]; omega)
    | omega

theorem raiseS_stayAngSts {s0 : State} (q x cause : Nat) (s : State)  (hk : RegFrame OffAngSts s0 s) : RegFrame OffAngSts s0 (raiseS q x cause s) := by
  unfold raiseS
  try dsimp only
  repeat' first
    | with_reducible assumption
    | with_reducible apply modCtx_rsAngSts
    | with_reducible apply recordS_stayAngSts
    | with_reducible apply RegFrame.ite
    | split
    | exact offAngSts_rec
    | assumption
    | omega
    | (intro)
    | with_reducible apply regs_mk

theorem raiseAll_stayAngSts {s0 : State} (q cause : Nat) (s : State)  (hk : RegFrame OffAngSts s0 s) : RegFrame OffAngSts s0 (raiseAll q cause s) := by
  unfold raiseAll
  try dsimp only
  repeat' first
    | (refine RegFrame.foldl ?_ ?_; intro s _ _ hk)
    | with_reducible assumption
    | with_reducible apply raiseS_stayAngSts
    | exact offAngSts_rec
    | assumption
    | omega
    | (intro)

theorem raiseWriter_stayAngSts {s0 : State} (n cause : Nat) (s : State)  (hk : RegFrame OffAngSts s0 s) : RegFrame OffAngSts s0 (raiseWriter n cause s) := by
  unfold raiseWriter
  try dsimp only
  repeat' first
    | with_reducible assumption
    | with_reducible apply raiseS_stayAngSts
    | with_reducible apply RegFrame.ite
    | split
    | exact offAngSts_rec
    | assumption
    | omega

theorem raiseWriters_stayAngSts {s0 : State} (q cause : Nat) (s : State)  (hk : RegFrame OffAngSts s0 s) : RegFrame OffAngSts s0 (raiseWriters q cause s) := by
  unfold raiseWriters
  try dsimp only
  repeat' first
    | (refine RegFrame.foldl ?_ ?_; intro s _ _ hk)
    | with_reducible assumption
    | with_reducible apply raiseS_stayAngSts
    | with_reducible apply RegFrame.ite
    | split
    | exact offAngSts_rec
    | assumption
    | omega
    | (intro)

theorem latchCause_stayAngSts {s0 : State} (s : State) (n : Nat)  (hk : RegFrame OffAngSts s0 s) : RegFrame OffAngSts s0 (latchCause s n) := by
  unfold latchCause
  try dsimp only
  repeat' first
    | with_reducible assumption
    | with_reducible apply raiseAll_stayAngSts
    | with_reducible apply raiseWriter_stayAngSts
    | with_reducible apply raiseWriters_stayAngSts
    | with_reducible apply RegFrame.ite
    | split
    | exact offAngSts_rec
    | assumption
    | omega

theorem latchEffects_stayAngSts {s0 : State} (n : Nat) (s : State)  (hk : RegFrame OffAngSts s0 s) : RegFrame OffAngSts s0 (latchEffects n s) := by
  unfold latchEffects
  try dsimp only
  repeat' first
    | with_reducible assumption
    | with_reducible apply satInc_st
    | with_reducible apply evt_st
    | with_reducible apply latchCause_stayAngSts
    | exact offAngSts_rec
    | (simp only [OffAngSts, Reg.ANG_STS, Reg.SLU_EVT, Reg.SLU_INHCNT]; omega)
    | omega

theorem dropAssist_stayAngSts {s0 : State} (n : Nat) (s : State)  (hk : RegFrame OffAngSts s0 s) : RegFrame OffAngSts s0 (dropAssist n s) := by
  unfold dropAssist
  try dsimp only
  repeat' first
    | with_reducible assumption
    | with_reducible apply setBit_st
    | with_reducible apply modSlot_rsAngSts
    | exact offAngSts_rec
    | (simp only [OffAngSts, Reg.ANG_STS, Reg.LANE_APWR]; omega)
    | omega
    | (intro)
    | with_reducible apply regs_mk

theorem latchWg_stayAngSts {s0 : State} (n : Nat) (s : State)  (hk : RegFrame OffAngSts s0 s) : RegFrame OffAngSts s0 (latchWg n s) := by
  unfold latchWg
  try dsimp only
  repeat' first
    | with_reducible assumption
    | with_reducible apply setBit_st
    | with_reducible apply evtIf_st
    | with_reducible apply latchEffects_stayAngSts
    | exact offAngSts_rec
    | (simp only [OffAngSts, Reg.ANG_STS, Reg.SLU_EVT, Reg.SLU_STS]; omega)
    | omega

theorem latchAssist_stayAngSts {s0 : State} (n : Nat) (s : State)  (hk : RegFrame OffAngSts s0 s) : RegFrame OffAngSts s0 (latchAssist n s) := by
  unfold latchAssist
  try dsimp only
  repeat' first
    | with_reducible assumption
    | with_reducible apply setBit_st
    | with_reducible apply latchEffects_stayAngSts
    | with_reducible apply dropAssist_stayAngSts
    | exact offAngSts_rec
    | (simp only [OffAngSts, Reg.ANG_STS, Reg.SLU_STS]; omega)
    | omega

theorem sluApply_stayAngSts {s0 : State} (n : Nat) (s : State)  (hk : RegFrame OffAngSts s0 s) : RegFrame OffAngSts s0 (sluApply n s) := by
  unfold sluApply
  try dsimp only
  repeat' first
    | with_reducible assumption
    | with_reducible apply dropAssist_stayAngSts
    | with_reducible apply latchWg_stayAngSts
    | with_reducible apply latchAssist_stayAngSts
    | with_reducible apply RegFrame.ite
    | split
    | exact offAngSts_rec
    | assumption
    | omega

theorem sluAll_stayAngSts {s0 : State} (s : State)  (hk : RegFrame OffAngSts s0 s) : RegFrame OffAngSts s0 (sluAll s) := by
  unfold sluAll
  try dsimp only
  repeat' first
    | (refine RegFrame.foldl ?_ ?_; intro s _ _ hk)
    | with_reducible assumption
    | with_reducible apply sluApply_stayAngSts
    | exact offAngSts_rec
    | assumption
    | omega
    | (intro)

theorem countResult_stayAngSts {s0 : State} (l word : Nat) (ovr : Bool) (s : State)  (hk : RegFrame OffAngSts s0 s) : RegFrame OffAngSts s0 (countResult l word ovr s) := by
  unfold countResult
  try dsimp only
  repeat' first
    | with_reducible assumption
    | with_reducible apply wrN_st
    | with_reducible apply satInc_st
    | with_reducible apply satAdd_st
    | with_reducible apply wrapInc_st
    | with_reducible apply wrapAdd_st
    | with_reducible apply evtIf_st
    | with_reducible apply RegFrame.ite
    | split
    | exact offAngSts_rec
    | (simp only [OffAngSts, Reg.ANG_STS, Reg.LANE_DFAIL, Reg.LANE_EVT, Reg.LANE_ITSUM, Reg.LANE_NCORR, Reg.LANE_RES, Reg.LANE_SECT]; omega)
    | omega

theorem deliver_stayAngSts {s0 : State} (l word : Nat) (ovr : Bool) (s : State)  (hk : RegFrame OffAngSts s0 s) : RegFrame OffAngSts s0 (deliver l word ovr s) := by
  unfold deliver
  try dsimp only
  repeat' first
    | with_reducible assumption
    | with_reducible apply sendResult_rsAngSts
    | with_reducible apply countResult_stayAngSts
    | with_reducible apply advanceLane_rsAngSts
    | exact offAngSts_rec
    | assumption
    | omega

theorem abortRest_stayAngSts {s0 : State} (l : Nat) (x0 : Nat) (s : State) (hk : RegFrame OffAngSts s0 s) : RegFrame OffAngSts s0 (abortRest l x0 s) := by
  induction x0 generalizing s l with
  | zero =>
    unfold abortRest
    try dsimp only
    repeat' first
      | with_reducible assumption
      | with_reducible apply ih
      | with_reducible apply deliver_stayAngSts
      | with_reducible apply syncSoFar_rsAngSts
      | split
      | refine stay_snd (by with_reducible assumption) ?_
      | exact offAngSts_rec
      | assumption
      | omega
      | with_reducible apply regs_mk
  | succ k ih =>
    unfold abortRest
    try dsimp only
    repeat' first
      | with_reducible assumption
      | with_reducible apply ih
      | with_reducible apply deliver_stayAngSts
      | with_reducible apply syncSoFar_rsAngSts
      | split
      | refine stay_snd (by with_reducible assumption) ?_
      | exact offAngSts_rec
      | assumption
      | omega
      | with_reducible apply regs_mk

theorem slotFault_stayAngSts {s0 : State} (n b : Nat) (s : State)  (hk : RegFrame OffAngSts s0 s) : RegFrame OffAngSts s0 (slotFault n b s) := by
  unfold slotFault
  try dsimp only
  repeat' first
    | with_reducible assumption
    | with_reducible apply evt_st
    | with_reducible apply raiseS_stayAngSts
    | exact offAngSts_rec
    | (simp only [OffAngSts, Reg.ANG_STS, Reg.LANE_SLEVT]; omega)
    | omega

theorem selectHead_stayAngSts {s0 : State} (n h : Nat) (s : State)  (hk : RegFrame OffAngSts s0 s) : RegFrame OffAngSts s0 (selectHead n h s) := by
  unfold selectHead
  try dsimp only
  repeat' first
    | with_reducible assumption
    | with_reducible apply wrN_st
    | with_reducible apply modSlot_rsAngSts
    | with_reducible apply modSrv_rsAngSts
    | with_reducible apply sluApply_stayAngSts
    | with_reducible apply targetPending_rsAngSts
    | with_reducible apply RegFrame.ite
    | split
    | exact offAngSts_rec
    | (simp only [OffAngSts, Reg.ANG_STS, Reg.LANE_SLHEAD]; omega)
    | omega
    | (intro)
    | with_reducible apply regs_mk

theorem headSel_stayAngSts {s0 : State} (n h : Nat) (s : State)  (hk : RegFrame OffAngSts s0 s) : RegFrame OffAngSts s0 (headSel n h s) := by
  unfold headSel
  try dsimp only
  repeat' first
    | with_reducible assumption
    | with_reducible apply evtIf_st
    | with_reducible apply raiseS_stayAngSts
    | with_reducible apply selectHead_stayAngSts
    | with_reducible apply RegFrame.ite
    | split
    | exact offAngSts_rec
    | (simp only [OffAngSts, Reg.ANG_STS, Reg.LANE_ACFG, Reg.LANE_SLEVT]; omega)
    | omega

theorem wgOn_stayAngSts {s0 : State} (n : Nat) (s : State)  (hk : RegFrame OffAngSts s0 s) : RegFrame OffAngSts s0 (wgOn n s) := by
  unfold wgOn
  try dsimp only
  repeat' first
    | with_reducible assumption
    | with_reducible apply modSlot_rsAngSts
    | with_reducible apply sluApply_stayAngSts
    | with_reducible apply noteGate_rsAngSts
    | with_reducible apply slotFault_stayAngSts
    | with_reducible apply RegFrame.ite
    | split
    | exact offAngSts_rec
    | assumption
    | omega
    | (intro)
    | with_reducible apply regs_mk

theorem wgOff_stayAngSts {s0 : State} (n : Nat) (s : State)  (hk : RegFrame OffAngSts s0 s) : RegFrame OffAngSts s0 (wgOff n s) := by
  unfold wgOff
  try dsimp only
  repeat' first
    | with_reducible assumption
    | with_reducible apply setBit_st
    | with_reducible apply modSlot_rsAngSts
    | with_reducible apply wgDrop_rsAngSts
    | exact offAngSts_rec
    | (simp only [OffAngSts, Reg.ANG_STS, Reg.SLU_STS]; omega)
    | omega
    | (intro)
    | with_reducible apply regs_mk

theorem readGateOn_stayAngSts {s0 : State} (n : Nat) (trailing : Bool) (s : State)  (hk : RegFrame OffAngSts s0 s) : RegFrame OffAngSts s0 (readGateOn n trailing s) := by
  unfold readGateOn
  try dsimp only
  repeat' first
    | with_reducible assumption
    | with_reducible apply setReadGate_rsAngSts
    | with_reducible apply slotFault_stayAngSts
    | with_reducible apply RegFrame.ite
    | split
    | exact offAngSts_rec
    | assumption
    | omega

theorem clampCode_stayAngSts {s0 : State} (s : State) (a h code : Nat)  (hk : RegFrame OffAngSts s0 s) : RegFrame OffAngSts s0 (clampCode s a h code).2 := by
  unfold clampCode
  try dsimp only
  repeat' first
    | with_reducible assumption
    | with_reducible apply satInc_st
    | with_reducible apply evt_st
    | with_reducible apply RegFrame.ite
    | split
    | exact offAngSts_rec
    | (simp only [OffAngSts, Reg.ANG_STS, Reg.SLU_APMAX, Reg.SLU_CLAMPCNT, Reg.SLU_EVT]; omega)
    | omega

theorem assistOn_stayAngSts {s0 : State} (n arg : Nat) (s : State)  (hk : RegFrame OffAngSts s0 s) : RegFrame OffAngSts s0 (assistOn n arg s) := by
  unfold assistOn
  try dsimp only
  repeat' first
    | with_reducible assumption
    | with_reducible apply wrN_st
    | with_reducible apply modSlot_rsAngSts
    | with_reducible apply sluApply_stayAngSts
    | with_reducible apply slotFault_stayAngSts
    | with_reducible apply clampCode_stayAngSts
    | with_reducible apply RegFrame.ite
    | split
    | refine stay_snd (by with_reducible assumption) ?_
    | exact offAngSts_rec
    | (simp only [OffAngSts, Reg.ANG_STS, Reg.LANE_APWR, Reg.LANE_SLBAND]; omega)
    | omega
    | (intro)
    | with_reducible apply regs_mk

theorem rampEnd_stayAngSts {s0 : State} (n : Nat) (s : State)  (hk : RegFrame OffAngSts s0 s) : RegFrame OffAngSts s0 (rampEnd n s) := by
  unfold rampEnd
  try dsimp only
  repeat' first
    | with_reducible assumption
    | with_reducible apply dropAssist_stayAngSts
    | with_reducible apply RegFrame.ite
    | split
    | exact offAngSts_rec
    | assumption
    | omega

theorem assistDown_stayAngSts {s0 : State} (n : Nat) (s : State)  (hk : RegFrame OffAngSts s0 s) : RegFrame OffAngSts s0 (assistDown n s) := by
  unfold assistDown
  try dsimp only
  repeat' first
    | with_reducible assumption
    | with_reducible apply modSlot_rsAngSts
    | with_reducible apply rampEnd_stayAngSts
    | with_reducible apply RegFrame.ite
    | split
    | exact offAngSts_rec
    | (simp only [OffAngSts, Reg.ANG_STS, Reg.LANE_ARAMP]; omega)
    | omega
    | (intro)
    | with_reducible apply regs_mk

theorem assistOff_stayAngSts {s0 : State} (n : Nat) (s : State)  (hk : RegFrame OffAngSts s0 s) : RegFrame OffAngSts s0 (assistOff n s) := by
  unfold assistOff
  try dsimp only
  repeat' first
    | with_reducible assumption
    | with_reducible apply setBit_st
    | with_reducible apply assistDown_stayAngSts
    | exact offAngSts_rec
    | (simp only [OffAngSts, Reg.ANG_STS, Reg.SLU_STS]; omega)
    | omega

theorem laneStart_stayAngSts {s0 : State} (n arg : Nat) (s : State)  (hk : RegFrame OffAngSts s0 s) : RegFrame OffAngSts s0 (laneStart n arg s) := by
  unfold laneStart
  try dsimp only
  repeat' first
    | with_reducible assumption
    | with_reducible apply modLane_rsAngSts
    | with_reducible apply abortRest_stayAngSts
    | with_reducible apply slotFault_stayAngSts
    | with_reducible apply RegFrame.ite
    | split
    | exact offAngSts_rec
    | assumption
    | omega
    | (intro)
    | with_reducible apply regs_mk

theorem showClusters_stayAngSts {s0 : State} (s : State)  (hk : RegFrame OffAngSts s0 s) : RegFrame OffAngSts s0 (showClusters s) := by
  unfold showClusters
  try dsimp only
  repeat' first
    | with_reducible assumption
    | with_reducible apply setF_st
    | exact offAngSts_rec
    | (simp only [OffAngSts, Reg.ANG_STS, Reg.CPH_STS]; omega)
    | omega

theorem ladder_stayAngSts {s0 : State} (s : State)  (hk : RegFrame OffAngSts s0 s) : RegFrame OffAngSts s0 (ladder s) := by
  unfold ladder
  try dsimp only
  repeat' first
    | with_reducible assumption
    | with_reducible apply setF_st
    | with_reducible apply wrN_st
    | with_reducible apply satInc_st
    | with_reducible apply evt_st
    | with_reducible apply showClusters_stayAngSts
    | with_reducible apply settleTokens_rsAngSts
    | with_reducible apply RegFrame.ite
    | split
    | exact offAngSts_rec
    | (simp only [OffAngSts, Reg.ANG_STS, Reg.THM_CAPS, Reg.THM_CTL, Reg.THM_EVT, Reg.THM_LADDER, Reg.THM_STEPCNT, Reg.THM_STS, Reg.WEIR_THLIM]; omega)
    | omega

theorem tstEnds_stayAngSts {s0 : State} (n r : Nat) (s : State)  (hk : RegFrame OffAngSts s0 s) : RegFrame OffAngSts s0 (tstEnds n r s) := by
  unfold tstEnds
  try dsimp only
  repeat' first
    | with_reducible assumption
    | with_reducible apply setF_st
    | with_reducible apply setBit_st
    | with_reducible apply evt_st
    | with_reducible apply modPort_rsAngSts
    | with_reducible apply RegFrame.ite
    | split
    | exact offAngSts_rec
    | (simp only [OffAngSts, Reg.ANG_STS, Reg.TST_EVT, Reg.TST_STS]; omega)
    | omega
    | (intro)
    | with_reducible apply regs_mk

theorem tstPreempt_stayAngSts {s0 : State} (n : Nat) (s : State)  (hk : RegFrame OffAngSts s0 s) : RegFrame OffAngSts s0 (tstPreempt n s) := by
  unfold tstPreempt
  try dsimp only
  repeat' first
    | with_reducible assumption
    | with_reducible apply wrN_st
    | with_reducible apply wr64_st
    | with_reducible apply drawFree_rsAngSts
    | with_reducible apply tstEnds_stayAngSts
    | split
    | refine stay_snd (by with_reducible assumption) ?_
    | exact offAngSts_rec
    | (simp only [OffAngSts, Reg.ANG_STS, Reg.TST_BITS, Reg.TST_ERR]; omega)
    | omega

theorem tstSweep_stayAngSts {s0 : State} (s : State)  (hk : RegFrame OffAngSts s0 s) : RegFrame OffAngSts s0 (tstSweep s) := by
  unfold tstSweep
  try dsimp only
  repeat' first
    | (refine RegFrame.foldl ?_ ?_; intro s _ _ hk)
    | with_reducible assumption
    | with_reducible apply tstPreempt_stayAngSts
    | with_reducible apply RegFrame.ite
    | split
    | exact offAngSts_rec
    | assumption
    | omega
    | (intro)

theorem clearReady_stayAngSts {s0 : State} (a : Nat) (s : State)  (hk : RegFrame OffAngSts s0 s) : RegFrame OffAngSts s0 (clearReady a s) := by
  unfold clearReady
  try dsimp only
  repeat' first
    | with_reducible assumption
    | with_reducible apply setF_st
    | with_reducible apply sluAll_stayAngSts
    | exact offAngSts_rec
    | (simp only [OffAngSts, Reg.ANG_STS, Reg.SRV_STS]; omega)
    | omega

theorem startRetract_stayAngSts {s0 : State} (a : Nat) (why : RetractFor) (s : State)  (hk : RegFrame OffAngSts s0 s) : RegFrame OffAngSts s0 (startRetract a why s) := by
  unfold startRetract
  try dsimp only
  repeat' first
    | with_reducible assumption
    | with_reducible apply setF_st
    | with_reducible apply setBit_st
    | with_reducible apply modSrv_rsAngSts
    | with_reducible apply clearReady_stayAngSts
    | with_reducible apply captureTriggered_rsAngSts
    | with_reducible apply RegFrame.ite
    | split
    | exact offAngSts_rec
    | (simp only [OffAngSts, Reg.ANG_STS, Reg.SRV_CTL, Reg.SRV_STS]; omega)
    | omega
    | (intro)
    | with_reducible apply regs_mk

theorem setSync_stayAngSts {s0 : State} (b : Bool) (s : State)  (hk : RegFrame OffAngSts s0 s) : RegFrame OffAngSts s0 (setSync b s) := by
  unfold setSync
  try dsimp only
  repeat' first
    | with_reducible assumption
    | with_reducible apply setBit_st
    | with_reducible apply sluAll_stayAngSts
    | with_reducible apply modSpn_rsAngSts
    | with_reducible apply RegFrame.ite
    | split
    | exact offAngSts_rec
    | (simp only [OffAngSts, Reg.ANG_STS, Reg.SPN_STS]; omega)
    | omega
    | (intro)
    | with_reducible apply regs_mk

theorem forgetMoff_stayAngSts {s0 : State} (s : State)  (hk : RegFrame OffAngSts s0 s) : RegFrame OffAngSts s0 (forgetMoff s) := by
  unfold forgetMoff
  try dsimp only
  repeat' first
    | with_reducible assumption
    | with_reducible apply setBit_st
    | with_reducible apply modSpn_rsAngSts
    | exact offAngSts_rec
    | (simp only [OffAngSts, Reg.ANG_STS, Reg.SPN_MOFF]; omega)
    | omega
    | (intro)
    | with_reducible apply regs_mk

theorem endDissipative_stayAngSts {s0 : State} (s : State)  (hk : RegFrame OffAngSts s0 s) : RegFrame OffAngSts s0 (endDissipative s) := by
  unfold endDissipative
  try dsimp only
  repeat' first
    | with_reducible assumption
    | with_reducible apply setBit_st
    | with_reducible apply modSpn_rsAngSts
    | exact offAngSts_rec
    | (simp only [OffAngSts, Reg.ANG_STS, Reg.SPN_STS, Reg.WEIR_STS]; omega)
    | omega
    | (intro)
    | with_reducible apply regs_mk

theorem setPhase_stayAngSts {s0 : State} (p : Nat) (s : State)  (hk : RegFrame OffAngSts s0 s) : RegFrame OffAngSts s0 (setPhase p s) := by
  unfold setPhase
  try dsimp only
  repeat' first
    | with_reducible assumption
    | with_reducible apply setF_st
    | with_reducible apply setBit_st
    | with_reducible apply tstSweep_stayAngSts
    | with_reducible apply modSpn_rsAngSts
    | with_reducible apply setSync_stayAngSts
    | with_reducible apply forgetMoff_stayAngSts
    | with_reducible apply endDissipative_stayAngSts
    | with_reducible apply RegFrame.ite
    | split
    | exact offAngSts_rec
    | (simp only [OffAngSts, Reg.ANG_STS, Reg.SPN_STS]; omega)
    | omega
    | (intro)
    | with_reducible apply regs_mk

theorem reacquire_stayAngSts {s0 : State} (s : State)  (hk : RegFrame OffAngSts s0 s) : RegFrame OffAngSts s0 (reacquire s) := by
  unfold reacquire
  try dsimp only
  repeat' first
    | with_reducible assumption
    | with_reducible apply modSpn_rsAngSts
    | with_reducible apply setPhase_stayAngSts
    | exact offAngSts_rec
    | assumption
    | omega
    | (intro)
    | with_reducible apply regs_mk

theorem showPower_stayAngSts {s0 : State} (s : State)  (hk : RegFrame OffAngSts s0 s) : RegFrame OffAngSts s0 (showPower s) := by
  unfold showPower
  try dsimp only
  repeat' first
    | with_reducible assumption
    | with_reducible apply setF_st
    | with_reducible apply setBit_st
    | with_reducible apply evt_st
    | with_reducible apply RegFrame.ite
    | split
    | exact offAngSts_rec
    | (simp only [OffAngSts, Reg.ANG_STS, Reg.NQE_EVT, Reg.NQE_PSCUR]; omega)
    | omega
    | with_reducible apply regs_mk

theorem showServes_stayAngSts {s0 : State} (s : State)  (hk : RegFrame OffAngSts s0 s) : RegFrame OffAngSts s0 (showServes s) := by
  unfold showServes
  try dsimp only
  repeat' first
    | with_reducible assumption
    | with_reducible apply setBit_st
    | exact offAngSts_rec
    | (simp only [OffAngSts, Reg.ANG_STS, Reg.NOI_CTL, Reg.NOI_STS]; omega)
    | omega

theorem enterMode_stayAngSts {s0 : State} (m : Nat) (s : State)  (hk : RegFrame OffAngSts s0 s) : RegFrame OffAngSts s0 (enterMode m s) := by
  unfold enterMode
  try dsimp only
  repeat' first
    | with_reducible assumption
    | with_reducible apply setMode_stayAngSts
    | with_reducible apply streamSuspend_rsAngSts
    | with_reducible apply sluAll_stayAngSts
    | with_reducible apply ladder_stayAngSts
    | with_reducible apply tstSweep_stayAngSts
    | with_reducible apply showPower_stayAngSts
    | with_reducible apply showServes_stayAngSts
    | with_reducible apply RegFrame.ite
    | split
    | exact offAngSts_rec
    | assumption
    | omega

theorem standbyIfUnloaded_stayAngSts {s0 : State} (s : State)  (hk : RegFrame OffAngSts s0 s) : RegFrame OffAngSts s0 (standbyIfUnloaded s) := by
  unfold standbyIfUnloaded
  try dsimp only
  repeat' first
    | with_reducible assumption
    | with_reducible apply enterMode_stayAngSts
    | with_reducible apply RegFrame.ite
    | split
    | exact offAngSts_rec
    | assumption
    | omega

theorem servoAngleLost_stayAngSts {s0 : State} (s : State)  (hk : RegFrame OffAngSts s0 s) : RegFrame OffAngSts s0 (servoAngleLost s) := by
  unfold servoAngleLost
  try dsimp only
  repeat' first
    | with_reducible assumption
    | with_reducible apply evt_st
    | with_reducible apply startRetract_stayAngSts
    | with_reducible apply reacquire_stayAngSts
    | with_reducible apply standbyIfUnloaded_stayAngSts
    | exact offAngSts_rec
    | (simp only [OffAngSts, Reg.ANG_STS, Reg.SPN_EVT]; omega)
    | omega

theorem spnAngleLost_stayAngSts {s0 : State} (s : State)  (hk : RegFrame OffAngSts s0 s) : RegFrame OffAngSts s0 (spnAngleLost s) := by
  unfold spnAngleLost
  try dsimp only
  repeat' first
    | with_reducible assumption
    | with_reducible apply forgetMoff_stayAngSts
    | with_reducible apply servoAngleLost_stayAngSts
    | with_reducible apply RegFrame.ite
    | split
    | exact offAngSts_rec
    | assumption
    | omega

theorem setQueue_stayAngSts {s0 : State} (n : Nat) (q : List AngEntry) (s : State)  (hk : RegFrame OffAngSts s0 s) : RegFrame OffAngSts s0 (setQueue n q s) := by
  unfold setQueue
  try dsimp only
  repeat' first
    | with_reducible assumption
    | with_reducible apply wrN_st
    | with_reducible apply modAng_rsAngSts
    | with_reducible apply RegFrame.ite
    | split
    | exact offAngSts_rec
    | (simp only [OffAngSts, Reg.ANG_QSTS, Reg.ANG_STS]; omega)
    | omega
    | (intro)
    | with_reducible apply regs_mk

theorem act_stayAngSts {s0 : State} (n action arg : Nat) (unlocked : Bool) (s : State)  (hk : RegFrame OffAngSts s0 s) : RegFrame OffAngSts s0 (act n action arg unlocked s) := by
  unfold act
  try dsimp only
  repeat' first
    | with_reducible assumption
    | with_reducible apply wr64_st
    | with_reducible apply modCtx_rsAngSts
    | with_reducible apply setReadGate_rsAngSts
    | with_reducible apply headSel_stayAngSts
    | with_reducible apply wgOn_stayAngSts
    | with_reducible apply wgOff_stayAngSts
    | with_reducible apply readGateOn_stayAngSts
    | with_reducible apply assistOn_stayAngSts
    | with_reducible apply assistOff_stayAngSts
    | with_reducible apply laneStart_stayAngSts
    | with_reducible apply syncOpen_rsAngSts
    | split
    | exact offAngSts_rec
    | (simp only [OffAngSts, Reg.ANG_MARKTIME, Reg.ANG_STS]; omega)
    | omega
    | (intro)
    | with_reducible apply regs_mk

theorem fireAll_stayAngSts {s0 : State} (n : Nat) (notify : Bool) (x0 : List AngEntry) (s : State) (hk : RegFrame OffAngSts s0 s) : RegFrame OffAngSts s0 (fireAll n notify x0 s) := by
  induction x0 generalizing s n notify with
  | nil =>
    unfold fireAll
    try dsimp only
    repeat' first
      | with_reducible assumption
      | with_reducible apply ih
      | with_reducible apply act_stayAngSts
      | with_reducible apply RegFrame.ite
      | split
      | exact offAngSts_rec
      | assumption
      | omega
  | cons a l ih =>
    unfold fireAll
    try dsimp only
    repeat' first
      | with_reducible assumption
      | with_reducible apply ih
      | with_reducible apply act_stayAngSts
      | with_reducible apply RegFrame.ite
      | split
      | exact offAngSts_rec
      | assumption
      | omega

theorem drainQueue_stayAngSts {s0 : State} (n : Nat) (notify : Bool) (s : State)  (hk : RegFrame OffAngSts s0 s) : RegFrame OffAngSts s0 (drainQueue n notify s) := by
  unfold drainQueue
  try dsimp only
  repeat' first
    | with_reducible assumption
    | with_reducible apply setQueue_stayAngSts
    | with_reducible apply fireAll_stayAngSts
    | exact offAngSts_rec
    | assumption
    | omega

theorem flushSlot_stayAngSts {s0 : State} (n : Nat) (s : State)  (hk : RegFrame OffAngSts s0 s) : RegFrame OffAngSts s0 (flushSlot n s) := by
  unfold flushSlot
  try dsimp only
  repeat' first
    | with_reducible assumption
    | with_reducible apply stopLane_rsAngSts
    | with_reducible apply drainQueue_stayAngSts
    | exact offAngSts_rec
    | assumption
    | omega

theorem flushAll_stayAngSts {s0 : State} (s : State)  (hk : RegFrame OffAngSts s0 s) : RegFrame OffAngSts s0 (flushAll s) := by
  unfold flushAll
  try dsimp only
  repeat' first
    | (refine RegFrame.foldl ?_ ?_; intro s _ _ hk)
    | with_reducible assumption
    | with_reducible apply evt_st
    | with_reducible apply raiseS_stayAngSts
    | with_reducible apply flushSlot_stayAngSts
    | with_reducible apply RegFrame.ite
    | split
    | exact offAngSts_rec
    | (simp only [OffAngSts, Reg.ANG_EVT, Reg.ANG_STS]; omega)
    | omega
    | (intro)

end Sys2Proof.Machine
end

