-- ==== Sys2Proof/Laws/Units.lean ====
section
/-! SUPPORT. What a numbered unit (a slot, a lane, a context, a servo engine, a port) is after an update of
one of its kind, and what the Sluice leaves of a slot. -/

set_option Elab.async false

namespace Sys2Proof.Machine

/-! ## Places of a list -/

theorem getD_modAt_same {α : Type} {l : List α} {i : Nat} {f : α → α} {d : α} (h : i < l.length) :
    (modAt l i f).getD i d = f (l.getD i d) := by
  unfold modAt
  rw [List.getD_eq_getElem?_getD, List.getD_eq_getElem?_getD, List.getElem?_modify_eq, List.getElem?_eq_getElem h]
  rfl

theorem getD_modAt_ne {α : Type} {l : List α} {i j : Nat} {f : α → α} {d : α} (h : j ≠ i) :
    (modAt l i f).getD j d = l.getD j d := by
  unfold modAt
  rw [List.getD_eq_getElem?_getD, List.getD_eq_getElem?_getD, List.getElem?_modify_ne]
  exact fun e => h e.symm

/-! ## Units -/

theorem slotAt_modSlot_same {s : State} {n : Nat} {f : Slot → Slot} (h : n < s.slots.length) :
    slotAt (modSlot s n f) n = f (slotAt s n) := getD_modAt_same h

theorem slotAt_modSlot_ne {s : State} {n m : Nat} {f : Slot → Slot} (h : m ≠ n) :
    slotAt (modSlot s n f) m = slotAt s m := getD_modAt_ne h

theorem laneAt_modLane_same {s : State} {n : Nat} {f : Lane → Lane} (h : n < s.lanes.length) :
    laneAt (modLane s n f) n = f (laneAt s n) := getD_modAt_same h

theorem laneAt_modLane_ne {s : State} {n m : Nat} {f : Lane → Lane} (h : m ≠ n) :
    laneAt (modLane s n f) m = laneAt s m := getD_modAt_ne h

theorem tsqAt_modTsq_same {s : State} {n : Nat} {f : Tsq → Tsq} (h : n < s.tsq.length) :
    tsqAt (modTsq s n f) n = f (tsqAt s n) := getD_modAt_same h

theorem tsqAt_modTsq_ne {s : State} {n m : Nat} {f : Tsq → Tsq} (h : m ≠ n) :
    tsqAt (modTsq s n f) m = tsqAt s m := getD_modAt_ne h

theorem ctxAt_modCtx_same {s : State} {q x : Nat} {f : Ctx → Ctx} (hq : q < s.tsq.length)
    (hx : x < (tsqAt s q).ctxs.length) : ctxAt (modCtx s q x f) q x = f (ctxAt s q x) := by
  unfold ctxAt modCtx
  rw [tsqAt_modTsq_same hq]
  exact getD_modAt_same hx

theorem ctxAt_modCtx_ne {s : State} {q x r y : Nat} {f : Ctx → Ctx} (hq : q < s.tsq.length)
    (h : r ≠ q ∨ y ≠ x) : ctxAt (modCtx s q x f) r y = ctxAt s r y := by
  unfold ctxAt modCtx
  by_cases e : r = q
  · subst e
    rw [tsqAt_modTsq_same hq]
    exact getD_modAt_ne (by rcases h with h | h; exact absurd rfl h; exact h)
  · rw [tsqAt_modTsq_ne e]

theorem srvAt_modSrv_same {s : State} {a : Nat} {f : Srv → Srv} (h : a < s.srv.length) :
    srvAt (modSrv s a f) a = f (srvAt s a) := getD_modAt_same h

theorem srvAt_modSrv_ne {s : State} {a b : Nat} {f : Srv → Srv} (h : b ≠ a) :
    srvAt (modSrv s a f) b = srvAt s b := getD_modAt_ne h

/-! ## Sizes -/

theorem sized_slots {s : State} (h : s.sized = true) : s.slots.length = 8 := (sized_iff.1 h).1
theorem sized_lanes {s : State} (h : s.sized = true) : s.lanes.length = 16 := (sized_iff.1 h).2.1
theorem sized_tsq {s : State} (h : s.sized = true) : s.tsq.length = 2 := (sized_iff.1 h).2.2.2.2.1
theorem sized_srv {s : State} (h : s.sized = true) : s.srv.length = 2 := (sized_iff.1 h).2.2.2.2.2.2.1
theorem sized_imone {s : State} (h : s.sized = true) : s.imone.length = 2 := (sized_iff.1 h).2.2.2.2.2.2.2.2.1

theorem sized_ports {s : State} (h : s.sized = true) : s.net.ports.length = 2 := by
  have := (sized_iff.1 h).2.2.2.2.2.2.2.2.2.1
  simp only [NetState.sized, Bool.and_eq_true, beq_iff_eq] at this
  exact this.1

theorem sized_runnels {s : State} (h : s.sized = true) : s.net.runnels.length = 32 := by
  have := (sized_iff.1 h).2.2.2.2.2.2.2.2.2.1
  simp only [NetState.sized, Bool.and_eq_true, beq_iff_eq] at this
  exact this.2

theorem sized_queues {s : State} (h : s.sized = true) : s.ang.queues.length = 8 := by
  have := (sized_iff.1 h).2.2.2.2.2.2.2.2.2.2
  simpa only [AngState.sized, beq_iff_eq] using this

theorem sized_ctxs {s : State} (h : s.sized = true) {q : Nat} (hq : q < 2) : (tsqAt s q).ctxs.length = 5 := by
  have h6 := (sized_iff.1 h).2.2.2.2.2.1
  have hl := sized_tsq h
  unfold tsqAt
  rw [List.getD_eq_getElem?_getD, List.getElem?_eq_getElem (by omega)]
  have := List.all_eq_true.1 h6 _ (List.getElem_mem (by omega : q < s.tsq.length))
  simp only [Tsq.sized, Bool.and_eq_true, beq_iff_eq] at this
  exact this.1

/-! ## The Sluice on a slot -/

/-- Slots that differ at most in the assist enable output and its ramp. -/
def SlotKept (a b : Slot) : Prop := ∃ e r, b = { a with assistEn := e, ramp := r }

theorem slotKept_refl (a : Slot) : SlotKept a a := ⟨_, _, rfl⟩

theorem SlotKept.trans {a b c : Slot} (h : SlotKept a b) (k : SlotKept b c) : SlotKept a c := by
  obtain ⟨_, _, rfl⟩ := h
  obtain ⟨_, _, rfl⟩ := k
  exact ⟨_, _, rfl⟩

theorem latchEffects_slots (n : Nat) (s : State) : (latchEffects n s).slots = s.slots :=
  (latchEffects_keeps n s (keeps_refl _ s) (within_refl _)).frame .slots rfl

theorem slotAt_of_slots {s t : State} (h : t.slots = s.slots) (m : Nat) : slotAt t m = slotAt s m := by
  unfold slotAt
  rw [h]

theorem dropAssist_slot (n m : Nat) (s : State) : SlotKept (slotAt s m) (slotAt (dropAssist n s) m) := by
  by_cases e : m = n
  · subst e
    by_cases hm : m < s.slots.length
    · exact ⟨false, .idle, slotAt_modSlot_same (s := s) hm⟩
    · refine ⟨(slotAt s m).assistEn, (slotAt s m).ramp, ?_⟩
      show (modAt s.slots m _).getD m Slot.reset = (s.slots.getD m Slot.reset)
      rw [List.getD_eq_getElem?_getD, List.getD_eq_getElem?_getD, List.getElem?_eq_none (by simp [modAt]; omega),
        List.getElem?_eq_none (by omega)]
  · exact ⟨_, _, slotAt_modSlot_ne (s := s) e⟩

theorem latchWg_slots (n : Nat) (s : State) : (latchWg n s).slots = s.slots :=
  (latchWg_keeps n s (keeps_refl _ s) (within_refl _)).frame .slots rfl

theorem latchAssist_slot (n m : Nat) (s : State) : SlotKept (slotAt s m) (slotAt (latchAssist n s) m) := by
  have h := dropAssist_slot n m (setBit s Reg.SLU_STS (16 + n) true)
  rw [slotAt_of_slots (s := s) (t := setBit s Reg.SLU_STS (16 + n) true) rfl] at h
  unfold latchAssist
  rw [slotAt_of_slots (latchEffects_slots _ _)]
  exact h

/-- The Sluice leaves a slot as it is, but for the assist enable output. -/
theorem sluApply_slot (n m : Nat) (s : State) : SlotKept (slotAt s m) (slotAt (sluApply n s) m) := by
  have h1 : slotAt (if (slotAt s n).wg && !wgLatched s n && !wgPass s n then latchWg n s else s) m = slotAt s m := by
    split
    · exact slotAt_of_slots (latchWg_slots _ _) m
    · rfl
  unfold sluApply
  dsimp only
  generalize (if (slotAt s n).wg && !wgLatched s n && !wgPass s n then latchWg n s else s) = u at h1
  rw [← h1]
  split
  · exact slotKept_refl _
  · split
    · exact latchAssist_slot n m u
    · split
      · exact dropAssist_slot n m u
      · exact slotKept_refl _

theorem sluAll_slot (m : Nat) (s : State) : SlotKept (slotAt s m) (slotAt (sluAll s) m) := by
  have : ∀ (l : List Nat) (u : State), SlotKept (slotAt u m) (slotAt (l.foldl (fun s n => sluApply n s) u) m) := by
    intro l
    induction l with
    | nil => intro u; exact slotKept_refl _
    | cons a l ih => intro u; exact (sluApply_slot a m u).trans (ih _)
  exact this _ s

end Sys2Proof.Machine
end

