-- ==== Sys2Proof/Machine/Read.lean ====
section
/-! DEFINITION. A core's read of the register space (R7, R8, R10, R540): what it returns, and the read
action of the registers that have one. The opcode table lists the reads that act as commands of their
own; no row of it is a plain read, so no command calls `registerRead` (log entry 11). -/

namespace Sys2Proof.Machine

/-- The read action of the 32-bit register at `a`, if it has one: a pop, an allocation or a latch. -/
def wordReadAction (a : Nat) : Option (State → State) :=
  match a with
  | 0x30030 => some (coreAlloc false)
  | 0x30034 => some (coreAlloc true)
  | 0x90008 => some angNowRead
  | 0xD01FC => some (capd3Read 0)
  | 0xD02FC => some (capd3Read 1)
  | _ =>
    if a = Reg.TSQ_FWCQ 0 then some (fwcqPop 0)
    else if a = Reg.TSQ_FWCQ 1 then some (fwcqPop 1)
    else if a = Reg.NQE_EXQ then some exqPop
    else if a = Reg.NOI_FWQ then some fwqPop
    else if a = Reg.CPH_FWCQ then some cphFwcqPop
    else if a = Reg.ETH_FWRXQ 0 then some (fwrxPop 0)
    else if a = Reg.ETH_FWRXQ 1 then some (fwrxPop 1)
    else if a = Reg.ETH_TXTSID then some txtsidPop
    else none

/-- The read action of the 64-bit register at `a`, if it has one. -/
def wideReadAction (a : Nat) : Option (State → State) :=
  if a = Reg.CIS_ERRLOG then some errlogPop
  else if a = Reg.CPH_RNG then some rngRead
  else if a = Reg.ZTB_PTLOG then some ptlogPop
  else none

/-- A 32-bit read of one half of a 64-bit register whose read acts: the read acts, and returns that half
alone (R7). -/
def halfRead (high : Bool) (f : State → State) (s : State) : State :=
  let t := f s
  answer (if high then t.busData / 2 ^ 32 else t.busData % 2 ^ 32) t

/-- A 32-bit read of offset `a`. -/
def readWord (a : Nat) (s : State) : State :=
  match wordReadAction a with
  | some f => f s
  | none =>
    match wideReadAction a with
    | some f => halfRead false f s
    | none =>
      match if a % 8 = 4 then wideReadAction (a - 4) else none with
      | some f => halfRead true f s
      | none => answer (peek s a) s

/-- A 64-bit read: atomic where a 64-bit register lies, and else two 32-bit reads (R7). -/
def readDouble (a : Nat) (s : State) : State :=
  match wideReadAction a with
  | some f => f s
  | none =>
    let t := readWord a s
    let u := readWord (a + 4) t
    answer (t.busData + 2 ^ 32 * u.busData) u

/-- A read of the register space at offset `a`. Outside the 25 blocks, of 8 or 16 bits, or not aligned
to its size it ends with a bus error (R10, R540). -/
def registerRead (a : Nat) (size : AccessSize) (s : State) : State :=
  if numBlocks * 0x10000 ≤ a then busFault s
  else match size with
    | .byte => busFault s
    | .half => busFault s
    | .word => if a % 4 = 0 then readWord a s else busFault s
    | .double => if a % 8 = 0 then readDouble a s else busFault s

end Sys2Proof.Machine
end

