-- ==== Sys2Proof/WellFormed.lean ====
section
/-! DEFINITION. Which commands are well formed. Operands carry the widths that the specification
gives them in their types; what remains is the length of an operand that is a list. -/

namespace Sys2Proof

/-- A decode attempt decides the bytes of a codeword of C1 or C2 (R43), and a sector has at most 4
codeword fragments (R34). -/
def SectorSignal.wellFormed (g : SectorSignal) : Bool :=
  g.tries.all (fun t => (t.word.length == 4680 || t.word.length == 4940) && decide (t.offsets.length ≤ 4))
    && decide (g.resync.length ≤ 3)

def Instr.WellFormed : Instr → Bool
  | .sectorResult _ signal => signal.wellFormed
  | .sectorDeadline _ signal _ _ => signal.wellFormed
  | _ => true

end Sys2Proof
end

