-- ==== Sys2Proof/Tests/Slice0.lean ====
section
/-! SUPPORT. Tests of the model: the checks refuse ill-formed operands, single steps give what the rules give, and
for every statement that has hypotheses a state and operands meet them together, one of each clause. -/

set_option Elab.async false
set_option linter.unusedVariables false

namespace Sys2Proof.Tests

open Sys2Proof Sys2Proof.Machine

/-! ## Ill-formed operands -/

/-- A decode attempt without the bytes of a codeword is ill formed (R43). -/
theorem test_ill_formed_sector :
    (Instr.sectorResult 0 ⟨0, [], [⟨[0], [1, 2], 3, 0, 0⟩], 0, 0⟩).WellFormed = false := by decide

/-! ## The worked examples of the specification, and the vectors of the standards that it names -/

/-- Chapter 1: on surface 13, with a skew of 4,180,000, the angle 8,392 is the global angle 4,188,392, which is 38,392
ticks ahead of 4,150,000 and not late. -/
theorem test_angle_of_posting :
    let s := setF (wrN State.reset (Reg.ANG_SKEW 13) 4180000) Reg.ANG_NOW 0 22 4150000
    globalAngle s 13 8392 = 4188392 ∧ ticksTo s 4188392 = 38392 ∧ isLate s 4188392 = false := by decide +kernel

/-- A write of ANG_SKEW keeps 22 bits (R16). -/
theorem test_skew_write :
    (match exec (.skewWrite 13 0xFFFFFFFF) State.reset with
      | .next t => rdN t (Reg.ANG_SKEW 13)
      | _ => 0) = 0x3FFFFF := by decide +kernel

/-- Chapter 2: the first frames of track 1,812 of surface 0 begin at bits 2,868, 40,556 and 82,544, the second in two
fragments. -/
theorem test_first_frames :
    let e := 1800 + 2 ^ 32 * 100 + 2 ^ 64 * (66732 * 512) + 2 ^ 96 * 128 + 2 ^ 112 * 3 + 2 ^ 128 * 24 + 2 ^ 144 * 64
      + 2 ^ 152 * 96
    ((trackFrames (trackShape 160 352 512 e)).map fun f => (f.start, f.frags)).take 2 = [(2868, 1), (40556, 2)]
      ∧ ((trackFrames (trackShape 160 352 512 e)).map Frame.start)[2]? = some 82544
      ∧ bitAngle 512 e 1812 2996 = 3932527 := by decide +kernel

/-- Chapter 3: at 61.5 degrees, between 4,200 at 55 and 4,020 at 70 degrees, the assist code is 4,122. -/
theorem test_assist_code :
    interpolate (fun i => 55 + 15 * (i : Int)) (fun i => if i = 0 then 4200 else 4020) (123 / 2) 7 = 4122 := by
  decide +kernel

/-- FIPS 180-4, the hash of the string abc. -/
theorem test_sha256_abc :
    Crypto.sha256 [0x61, 0x62, 0x63] = Crypto.toBe 32 0xba7816bf8f01cfea414140de5dae2223b00361a396177a9cb410ff61f20015ad := by
  decide +kernel

/-- FIPS 197, the example of a key of 256 bits. -/
theorem test_aes_256 :
    Crypto.aes (List.range 32) ((List.range 16).map (· * 17)) = Crypto.toBe 16 0x8ea2b7ca516745bfeafc49904b496089 := by decide +kernel

/-- The second test case of the GCM specification. -/
theorem test_gcm :
    Crypto.gcmCrypt (List.replicate 16 0) (List.replicate 12 0) (List.replicate 16 0)
      = Crypto.toBe 16 0x0388dace60b6a392f328c2b971b2fe78
    ∧ Crypto.gcmTag (List.replicate 16 0) (List.replicate 12 0) [] (Crypto.toBe 16 0x0388dace60b6a392f328c2b971b2fe78)
      = Crypto.toBe 16 0xab6e47d42cec13bdf53a67b21257bddf := by decide +kernel

/-- IEEE 802.3: the CRC-32 of the digits 1 to 9 has the check value 0xCBF43926. -/
theorem test_crc32 : crc32 [0x31, 0x32, 0x33, 0x34, 0x35, 0x36, 0x37, 0x38, 0x39] = 0xCBF43926 := by decide +kernel

/-- A mark three bits after its place is found LATE by a window of half-width 8, and not by one of 2 (R44, R46). -/
theorem test_late_mark :
    searchMark (BitVec.ofNat 288 (syncMark * 2 ^ 125)) syncMark 8 0 = some 3 ∧ windowOutcome 3 = syncLate
      ∧ searchMark (BitVec.ofNat 288 (syncMark * 2 ^ 125)) syncMark 2 0 = none := by decide +kernel

/-- A sector encoded in C1 is a codeword of it, and none once a bit has changed (R43). -/
theorem test_codeword :
    let w := encodeSector 0 ((List.range 4160).map (· % 251))
    codewordValid 0 w = true ∧ codewordValid 0 (w.set 4159 7) = false := by decide +kernel

/-- A read outside the 25 blocks of the register space is a bus error (R10). -/
theorem test_read_outside_blocks : (registerRead 0x190000 .word State.reset).busError = true := by decide +kernel

/-! ## Witnesses of the general statements -/

theorem witness_step_runs_front_command : { State.reset with pending := [.bypass] }.pending = .bypass :: [] := rfl

theorem witness_empty_queue : State.reset.pending = [] ∧ State.reset.ang.freq = 0 := by decide +kernel

theorem witness_step_keeps_well_formed :
    let s := { State.reset with pending := [.bypass] }
    s.wf = true ∧ ∃ t, step s = .next t := ⟨by decide +kernel, _, rfl⟩

theorem witness_fuses_only_grow : ∃ t, step State.reset = .next t := ⟨_, rfl⟩

theorem witness_power_loss :
    let s := { State.reset with sys := { State.reset.sys with powerLost := true }, pending := [.bypass] }
    s.sys.powerLost = true ∧ s.pending.head? ≠ some .powerOnReset ∧ ∃ t, step s = .next t :=
  ⟨by decide +kernel, by decide +kernel, _, rfl⟩

theorem witness_safe_hold :
    let s := { setF State.reset Reg.SYS_MODE 0 4 Mode.safeHold with pending := [.bypass] }
    ModeQuiet s ∧ mode s = Mode.safeHold ∧ (∀ c, s.pending.head? = some c → ¬ EndsSafeHold c) ∧ ∃ t, step s = .next t :=
  ⟨by decide +kernel, by decide +kernel, fun c h => by cases h; simp, _, rfl⟩

/-! ## Witnesses of the statements about groups of commands -/

/-- A host command. -/
def cmd0 (slot sqid opcode nsid slba nlb : Nat) (ph : CmdPhase) (arg arg2 : Nat) : HostCmd :=
  ⟨slot, 3, sqid, 55 + slot, opcode, nsid, slba, nlb, 1, 0, ph, [], [], arg, arg2, 0, 0, none, none⟩
/-- Association 3 with its queues. -/
def asc0 (queues : List Nat) (en : Bool) : Assoc := ⟨3, queues, false, en, en, 0, false, 0, 0, 0, 0, 1024, false, [], false, []⟩
/-- The queue engine holds the commands `l` of association 3, and no other. -/
def withCmds (s : State) (l : List HostCmd) (queues : List Nat) : State :=
  modNqe s fun n => { n with cmds := l, assocs := [asc0 queues true], exq := [], sanitize := none, sanFailed := false, authReq := false }
/-- The cores serve host commands in STANDBY. -/
def serving (s : State) : State :=
  let s := setBit (setF (setBit s Reg.NQE_CTL 0 true) Reg.NQE_FWACT 0 2 0) Reg.NQE_CTL 1 true
  let s := setF (setF s Reg.SYS_MODE 0 4 Mode.standby) Reg.SYS_STS 0 5 0
  { s with sys := { s.sys with coresHeld := false, powerLost := false, resetLow := false, resetRank := none, target := none, step := none, next := none, loadedA := false, loadedB := false } }
/-- A Noile request of operation `op` on object `i`:`j` to node `node`. -/
def noiReq (op flags node reqid i j ty off : Nat) (payload : List Nat) : List Byte :=
  (([1, op, flags, 0] ++ leBytes 4 node ++ leBytes 4 7 ++ leBytes 4 reqid ++ leBytes 2 i ++ [j, ty] ++ leBytes 4 off
    ++ leBytes 2 payload.length ++ [0, 0] ++ leBytes 4 0 ++ leBytes 8 0 ++ payload).map (BitVec.ofNat 8 ·))
/-- The engine runs in STANDBY with nothing in progress. -/
def noiUp (s : State) : State :=
  let s := setBit (wrN (serving s) Reg.NOI_NODE 12) Reg.NOI_CTL 0 true
  { s with noi := { s.noi with sessions := [], slots := [], fwq := [], cache := [], subs := [], xfers := [], broadcast := [], domains := [], values := [], spdm := [], nextReq := s.noi.nextReq % 100 } }
/-- A popped request in slot 3. -/
def slot3 (op flags i j ty off : Nat) (payload : List Nat) : NoiSlot :=
  ⟨3, ⟨⟨none, 0xFFFF0A000001, 4000, 0⟩, op, flags, 7, 99, i, j, ty, off, payload.length, payload⟩, 3, 0, true, false⟩
/-- Job `n` of firmware, of operation `op`, with key 1, in cluster 0. -/
def job0 (n op src dst len aad aadLen : Nat) : CphJob :=
  { CphJob.blank with id := n, source := 5, op := op, slot := some 1, src := src, dst := dst, len := len, aad := aad, aadLen := aadLen, nsid := 1, lba := 9, key := 1, cluster := some 0, blocks := 2, iv := 77 }
/-- Key slot `k` holds a key of use `use`. -/
def key0 (k use counter : Nat) : KeySlot := ⟨k, ⟨(List.range 16).map (· + 3), List.replicate 16 0⟩, ⟨List.replicate 16 9, List.replicate 16 0⟩, use, 5, 6, counter, none⟩
/-- The memory of a preamp with two heads. -/
def preamp0 : List Byte :=
  let b := leBytes 4 0x50494D31 ++ leBytes 2 1 ++ leBytes 2 256 ++ [1, 2] ++ List.replicate 6 0
    ++ (List.replicate 2 (leBytes 2 100 ++ leBytes 2 90 ++ leBytes 4 1000 ++ List.replicate 8 0)).flatten
  let b := b ++ List.replicate (256 - b.length) 0
  (b ++ leBytes 4 0x83146e47).map (BitVec.ofNat 8 ·)
/-- The memory of an HDA with two surfaces on each actuator. -/
def hda0 : List Byte :=
  let b := leBytes 4 0x48444931 ++ leBytes 4 1 ++ leBytes 4 256 ++ [2, 2] ++ leBytes 2 512 ++ leBytes 2 7200 ++ leBytes 2 9000
    ++ leBytes 4 4 ++ leBytes 4 0x3F800000 ++ leBytes 4 0x3F000000 ++ leBytes 8 4096 ++ leBytes 4 77 ++ leBytes 4 2
  let b := b ++ List.replicate (256 - b.length) 0
  (b ++ leBytes 4 0x7b364247).map (BitVec.ofNat 8 ·)
/-- The CRC of bytes, with its value looked at byte by byte. -/
def crcGo : Nat → List Nat → Nat
  | v, [] => v
  | v, b :: l => if v = 0 then crcGo (crcByte 0xEDB88320 0 b) l else crcGo (crcByte 0xEDB88320 v b) l
theorem crc32_eq (l : List Nat) : crc32 l = Nat.xor (crcGo 0xFFFFFFFF l) 0xFFFFFFFF := by
  have h : ∀ (l : List Nat) (v : Nat), crcGo v l = l.foldl (crcByte 0xEDB88320) v := by
    intro l
    induction l with
    | nil => intro v; rfl
    | cons b l ih => intro v; simp only [crcGo, List.foldl_cons]; split <;> simp_all
  rw [h]; rfl
/-- A context that runs. -/
def place0 (s0 : State) (q x : Nat) : State := modCtx s0 q x (fun c => { c with phase := .run, pendS := [], ppend := false, waitc := false })

/-- Hypotheses of AngleClockStates hold together, of one clause after another. -/
theorem witness_angle_clock_states :
    (
    let k : Nat := 0
    let s0 : State := State.reset
    let s0 : State := s0
    let period : Word := BitVec.ofNat 32 (1000+k)
    let s : State := setF (setF s0 Reg.SPN_MOT 0 4 6) Reg.ANG_STS 0 3 0
    (s.wf = true) ∧ (angState s = angFree) ∧ (getF s Reg.SPN_MOT 0 4 * period.toNat ≠ 0))
    ∧ (
    let k : Nat := 0
    let s0 : State := State.reset
    let s0 : State := s0
    let s : State := setF (s0) Reg.ANG_STS 0 3 1
    (s.wf = true) ∧ (angState s = angCoarse))
    ∧ (
    let k : Nat := 0
    let s0 : State := State.reset
    let s0 : State := s0
    let s : State := setF ({ s0 with sys := { s0.sys with loadedA := true } }) Reg.ANG_STS 0 3 1
    (s.wf = true) ∧ (angState s = angCoarse) ∧ ((loaded s 0 || loaded s 1) = true))
    ∧ (
    let k : Nat := 0
    let s0 : State := State.reset
    let s0 : State := s0
    let s : State := setF (s0) Reg.ANG_STS 0 3 2
    (s.wf = true) ∧ (angState s = angAcquire))
    ∧ (
    let k : Nat := 0
    let s0 : State := State.reset
    let s0 : State := s0
    let s : State := setF (s0) Reg.ANG_STS 0 3 3
    (s.wf = true) ∧ (angState s = angLocked))
    ∧ (
    let k : Nat := 0
    let s0 : State := State.reset
    let s0 : State := s0
    let s : State := setF (s0) Reg.ANG_STS 0 3 4
    (s.wf = true) ∧ (angState s = angHoldover))
    ∧ (
    let k : Nat := 0
    let s0 : State := State.reset
    let s0 : State := s0
    let s : State := setF ({ s0 with sys := { s0.sys with loadedA := false, loadedB := false } }) Reg.ANG_STS 0 3 (3+k%2)
    (s.wf = true) ∧ (angState s = angLocked ∨ angState s = angHoldover) ∧ ((loaded s 0 || loaded s 1) = false)) := by
  repeat refine And.intro (by decide +kernel) ?_
  decide +kernel

/-- Hypotheses of AngleEntriesFire hold together, of one clause after another. -/
theorem witness_angle_entries_fire :
    (
    let k : Nat := 0
    let s0 : State := State.reset
    let n : Fin 8 := Fin.ofNat 8 k
    let e : AngEntry := ⟨0,(k*7+1),500+k,900+k,3⟩
    let e : AngEntry := { e with action := 0x01 }
    let s0 : State := setF { s0 with ang := { s0.ang with incs := 1000+k, freq := 1/250, spread := 0, queues := (List.range 8).map fun j => if j = n.val then [e] else [] } } (Reg.ANG_NOW) 0 22 (1000+k)
    let s : State := let s0 : State := setF s0 (Reg.LANE_SLHEAD n) 7 1 1; { s0 with ang := { s0.ang with queues := (List.range 8).map fun j => if j = n.val then [e] else [] } }
    (s.wf = true) ∧ (FiresNow s n e) ∧ (e.action = 0x01) ∧ ((slotHead s n).isSome = true))
    ∧ (
    let k : Nat := 0
    let s0 : State := State.reset
    let n : Fin 8 := Fin.ofNat 8 k
    let e : AngEntry := ⟨0,(k*7+1),500+k,900+k,3⟩
    let e : AngEntry := { e with action := 0x02 }
    let s0 : State := setF { s0 with ang := { s0.ang with incs := 1000+k, freq := 1/250, spread := 0, queues := (List.range 8).map fun j => if j = n.val then [e] else [] } } (Reg.ANG_NOW) 0 22 (1000+k)
    let s : State := let s0 : State := s0; { s0 with ang := { s0.ang with queues := (List.range 8).map fun j => if j = n.val then [e] else [] } }
    (s.wf = true) ∧ (FiresNow s n e) ∧ (e.action = 0x02))
    ∧ (
    let k : Nat := 0
    let s0 : State := State.reset
    let n : Fin 8 := Fin.ofNat 8 k
    let e : AngEntry := ⟨0,(k*7+1),500+k,900+k,3⟩
    let e : AngEntry := { e with action := 0x03 }
    let s0 : State := setF { s0 with ang := { s0.ang with incs := 1000+k, freq := 1/250, spread := 0, queues := (List.range 8).map fun j => if j = n.val then [e] else [] } } (Reg.ANG_NOW) 0 22 (1000+k)
    let s : State := let s0 : State := setF s0 (Reg.LANE_SLHEAD n) 7 1 1; { s0 with ang := { s0.ang with queues := (List.range 8).map fun j => if j = n.val then [e] else [] } }
    (s.wf = true) ∧ (FiresNow s n e) ∧ (e.action = 0x03) ∧ ((slotHead s n).isSome = true))
    ∧ (
    let k : Nat := 0
    let s0 : State := State.reset
    let n : Fin 8 := Fin.ofNat 8 k
    let e : AngEntry := ⟨0,(k*7+1),500+k,900+k,3⟩
    let e : AngEntry := { e with action := 0x04 }
    let s0 : State := setF { s0 with ang := { s0.ang with incs := 1000+k, freq := 1/250, spread := 0, queues := (List.range 8).map fun j => if j = n.val then [e] else [] } } (Reg.ANG_NOW) 0 22 (1000+k)
    let s : State := let s0 : State := s0; { s0 with ang := { s0.ang with queues := (List.range 8).map fun j => if j = n.val then [e] else [] } }
    (s.wf = true) ∧ (FiresNow s n e) ∧ (e.action = 0x04))
    ∧ (
    let k : Nat := 0
    let s0 : State := State.reset
    let n : Fin 8 := Fin.ofNat 8 k
    let e : AngEntry := ⟨0,(k*7+1),500+k,900+k,3⟩
    let e : AngEntry := { e with action := 0x05 }
    let s0 : State := setF { s0 with ang := { s0.ang with incs := 1000+k, freq := 1/250, spread := 0, queues := (List.range 8).map fun j => if j = n.val then [e] else [] } } (Reg.ANG_NOW) 0 22 (1000+k)
    let s : State := let s0 : State := setF s0 (Reg.LANE_SLHEAD n) 7 1 1; { s0 with ang := { s0.ang with queues := (List.range 8).map fun j => if j = n.val then [e] else [] } }
    (s.wf = true) ∧ (FiresNow s n e) ∧ (e.action = 0x05) ∧ ((slotHead s n).isSome = true))
    ∧ (
    let k : Nat := 0
    let s0 : State := State.reset
    let n : Fin 8 := Fin.ofNat 8 k
    let e : AngEntry := ⟨0,(k*7+1),500+k,900+k,3⟩
    let e : AngEntry := { e with action := 0x06 }
    let s0 : State := setF { s0 with ang := { s0.ang with incs := 1000+k, freq := 1/250, spread := 0, queues := (List.range 8).map fun j => if j = n.val then [e] else [] } } (Reg.ANG_NOW) 0 22 (1000+k)
    let s : State := let s0 : State := s0; { s0 with ang := { s0.ang with queues := (List.range 8).map fun j => if j = n.val then [e] else [] } }
    (s.wf = true) ∧ (FiresNow s n e) ∧ (e.action = 0x06))
    ∧ (
    let k : Nat := 0
    let s0 : State := State.reset
    let n : Fin 8 := Fin.ofNat 8 k
    let e : AngEntry := ⟨0,(k*7+1),500+k,900+k,3⟩
    let e : AngEntry := { e with action := 0x07 }
    let s0 : State := setF { s0 with ang := { s0.ang with incs := 1000+k, freq := 1/250, spread := 0, queues := (List.range 8).map fun j => if j = n.val then [e] else [] } } (Reg.ANG_NOW) 0 22 (1000+k)
    let s : State := let s0 : State := setF s0 (Reg.LANE_SLHEAD n) 7 1 1; { s0 with ang := { s0.ang with queues := (List.range 8).map fun j => if j = n.val then [e] else [] } }
    (s.wf = true) ∧ (FiresNow s n e) ∧ (e.action = 0x07) ∧ ((slotHead s n).isSome = true))
    ∧ (
    let k : Nat := 0
    let s0 : State := State.reset
    let n : Fin 8 := Fin.ofNat 8 k
    let e : AngEntry := ⟨0,(k*7+1),500+k,900+k,3⟩
    let e : AngEntry := { e with action := 0x08 }
    let s0 : State := setF { s0 with ang := { s0.ang with incs := 1000+k, freq := 1/250, spread := 0, queues := (List.range 8).map fun j => if j = n.val then [e] else [] } } (Reg.ANG_NOW) 0 22 (1000+k)
    let s : State := let s0 : State := s0; { s0 with ang := { s0.ang with queues := (List.range 8).map fun j => if j = n.val then [e] else [] } }
    (s.wf = true) ∧ (FiresNow s n e) ∧ (e.action = 0x08))
    ∧ (
    let k : Nat := 0
    let s0 : State := State.reset
    let n : Fin 8 := Fin.ofNat 8 k
    let e : AngEntry := ⟨0,(k*7+1),500+k,900+k,3⟩
    let e : AngEntry := { e with action := 0x09, arg := (k*7+1) }
    let s0 : State := setF { s0 with ang := { s0.ang with incs := 1000+k, freq := 1/250, spread := 0, queues := (List.range 8).map fun j => if j = n.val then [e] else [] } } (Reg.ANG_NOW) 0 22 (1000+k)
    let s : State := let s0 : State := let l := laneOf n (e.arg.testBit 15); let s0 := wrN (setF s0 (Reg.LANE_SLHEAD n) 0 8 0x80) (Reg.LANE_CTL l) 1; let s0 := modLane s0 l fun x => { x with mode := 1, track := 0 }; { s0 with ztb := { s0.ztb with bands := (List.range 24).map fun j => (48*j, 2^256-1 - (2^24 - 1))} }; { s0 with ang := { s0.ang with queues := (List.range 8).map fun j => if j = n.val then [e] else [] } }
    (s.wf = true) ∧ (FiresNow s n e) ∧ (e.action = 0x09) ∧ (laneStartOk s n (laneOf n (e.arg.testBit 15)) = true))
    ∧ (
    let k : Nat := 0
    let s0 : State := State.reset
    let n : Fin 8 := Fin.ofNat 8 k
    let e : AngEntry := ⟨0,(k*7+1),500+k,900+k,3⟩
    let e : AngEntry := { e with action := 0x0A }
    let s0 : State := setF { s0 with ang := { s0.ang with incs := 1000+k, freq := 1/250, spread := 0, queues := (List.range 8).map fun j => if j = n.val then [e] else [] } } (Reg.ANG_NOW) 0 22 (1000+k)
    let s : State := let s0 : State := s0; { s0 with ang := { s0.ang with queues := (List.range 8).map fun j => if j = n.val then [e] else [] } }
    (s.wf = true) ∧ (FiresNow s n e) ∧ (e.action = 0x0A))
    ∧ (
    let k : Nat := 0
    let s0 : State := State.reset
    let n : Fin 8 := Fin.ofNat 8 k
    let e : AngEntry := ⟨0,(k*7+1),500+k,900+k,3⟩
    let e : AngEntry := { e with action := 0x0B, arg := (k%14) }
    let s0 : State := setF { s0 with ang := { s0.ang with incs := 1000+k, freq := 1/250, spread := 0, queues := (List.range 8).map fun j => if j = n.val then [e] else [] } } (Reg.ANG_NOW) 0 22 (1000+k)
    let s : State := let s0 : State := let s0 := modSlot ((List.range 8).foldl (fun u j => wrN u (Reg.LANE_SLHEAD j) 0) s0) n fun x => { x with wgFired := false, wg := false, assistEn := false }; setF s0 (Reg.LANE_ACFG (slotAct n)) 8 4 15; { s0 with ang := { s0.ang with queues := (List.range 8).map fun j => if j = n.val then [e] else [] } }
    (s.wf = true) ∧ (FiresNow s n e) ∧ (e.action = 0x0B) ∧ (headBusy s n e.arg = false) ∧ (e.arg < getF s (Reg.LANE_ACFG (slotAct n)) 8 4) ∧ ((slotAt s n).wgFired = false) ∧ ((slotAt s n).assistEn = false))
    ∧ (
    let k : Nat := 0
    let s0 : State := State.reset
    let n : Fin 8 := Fin.ofNat 8 k
    let e : AngEntry := ⟨0,(k*7+1),500+k,900+k,3⟩
    let e : AngEntry := { e with action := 0x0C }
    let s0 : State := setF { s0 with ang := { s0.ang with incs := 1000+k, freq := 1/250, spread := 0, queues := (List.range 8).map fun j => if j = n.val then [e] else [] } } (Reg.ANG_NOW) 0 22 (1000+k)
    let s : State := let s0 : State := s0; { s0 with ang := { s0.ang with queues := (List.range 8).map fun j => if j = n.val then [e] else [] } }
    (s.wf = true) ∧ (FiresNow s n e) ∧ (e.action = 0x0C))
    ∧ (
    let k : Nat := 0
    let s0 : State := State.reset
    let n : Fin 8 := Fin.ofNat 8 k
    let e : AngEntry := ⟨0,(k*7+1),500+k,900+k,3⟩
    let e : AngEntry := { e with action := 0x0D }
    let s0 : State := setF { s0 with ang := { s0.ang with incs := 1000+k, freq := 1/250, spread := 0, queues := (List.range 8).map fun j => if j = n.val then [e] else [] } } (Reg.ANG_NOW) 0 22 (1000+k)
    let s : State := let s0 : State := s0; { s0 with ang := { s0.ang with queues := (List.range 8).map fun j => if j = n.val then [e] else [] } }
    (s.wf = true) ∧ (FiresNow s n e) ∧ (e.action = 0x0D)) := by
  repeat refine And.intro (by decide +kernel) ?_
  decide +kernel

/-- Hypotheses of AngleCounterCommands hold together, of one clause after another. -/
theorem witness_angle_counter_commands :
    (
    let k : Nat := 0
    let s0 : State := State.reset
    let s0 : State := s0
    let s : State := setF { s0 with ang := { s0.ang with freq := 1/100, spread := 0, queues := List.replicate 8 [] } } Reg.ANG_STS 0 3 (1 + k % 4)
    (s.wf = true) ∧ (angState s ≠ angFree) ∧ (s.ang.freq ≠ 0) ∧ (QueuesEmpty s))
    ∧ (
    let k : Nat := 0
    let s0 : State := State.reset
    let s0 : State := s0
    let s : State := s0
    (s.wf = true))
    ∧ (
    let k : Nat := 0
    let s0 : State := State.reset
    let s0 : State := s0
    let v : DWord := BitVec.ofNat 64 (2^32*1 + 2^40*k + 2^27*31 + 100000+k)
    let s : State := setF (setF (setF { s0 with ang := { s0.ang with queues := List.replicate 8 [] } } Reg.SYS_MODE 0 4 Mode.test) Reg.ANG_STS 0 3 3) Reg.ANG_NOW 0 22 0
    (s.wf = true) ∧ (mode s = Mode.test) ∧ (postCheck s (getF s Reg.ANG_QPSEL 0 3) (bitsOf v.toNat 32 8) (bitsOf v.toNat 40 16) (bitsOf v.toNat 27 5) (bitsOf v.toNat 0 22) = .ok))
    ∧ (
    let k : Nat := 0
    let s0 : State := State.reset
    let s0 : State := s0
    let v : DWord := BitVec.ofNat 64 (2^32*(14+k) + 2^27*31 + 100000+k)
    let st : PostStatus := .badAct
    let s : State := setF (setF (setF { s0 with ang := { s0.ang with queues := List.replicate 8 [] } } Reg.SYS_MODE 0 4 Mode.test) Reg.ANG_STS 0 3 3) Reg.ANG_NOW 0 22 0
    (s.wf = true) ∧ (mode s = Mode.test) ∧ (st ≠ .ok) ∧ (st ≠ .late) ∧ (postCheck s (getF s Reg.ANG_QPSEL 0 3) (bitsOf v.toNat 32 8) (bitsOf v.toNat 40 16) (bitsOf v.toNat 27 5) (bitsOf v.toNat 0 22) = st))
    ∧ (
    let k : Nat := 0
    let s0 : State := State.reset
    let s0 : State := s0
    let n : Fin 8 := Fin.ofNat 8 k
    let v : Word := BitVec.ofNat 32 (2*k+1)
    let s : State := s0
    (s.wf = true) ∧ (v.getLsbD 0 = true))
    ∧ (
    let k : Nat := 0
    let s0 : State := State.reset
    let s0 : State := s0
    let a : Fin 2 := Fin.ofNat 2 k
    let x : Fin (2 ^ 25) := Fin.ofNat _ (k*1000003)
    let w : Fin 1024 := Fin.ofNat 1024 (k*3)
    let f : Nat := if k % 2 = 0 then 3 else 15
    let s : State := let s0 : State := { s0 with ang := { s0.ang with reBased := false, queues := List.replicate 8 [] }, sys := { s0.sys with loadedA := true, loadedB := true, wedges := 400 + k } }; let s0 := setF (setBit (setBit s0 Reg.ANG_CTL a true) Reg.ANG_STS (6+a) false) Reg.ANG_STS 0 3 2; setF (setF (setF s0 Reg.ZTB_GEOM 0 5 12) (Reg.SRV_CTL a) 4 2 1) (Reg.LANE_SLHEAD (4*a+1)) 0 8 0x83
    (s.wf = true) ∧ (angState s = angAcquire) ∧ (s.ang.reBased = false) ∧ (QueuesEmpty s) ∧ (loaded s a = true) ∧ (slotSurface s (anchorSlot s a) = some f) ∧ (bit s Reg.ANG_CTL a = true) ∧ (drifted s a = false) ∧ (w.val < wedges s)) := by
  repeat refine And.intro (by decide +kernel) ?_
  decide +kernel

/-- Hypotheses of LanesDeliverResults hold together, of one clause after another. -/
theorem witness_lanes_deliver_results :
    (
    let k : Nat := 0
    let s0 : State := State.reset
    let s0 : State := s0
    let l : Fin 16 := Fin.ofNat 16 k
    let r : LaneRun := ⟨3, 1, 0, 100, 0, none, 0, 1800 + 2 ^ 32 * 100 + 2 ^ 64 * (66732 * 512) + 2 ^ 96 * 128 + 2 ^ 112 * 3 + 2 ^ 128 * 24 + 2 ^ 144 * 64 + 2 ^ 152 * 96, 1812, 0, 1, 0⟩
    let g : SectorSignal := ⟨BitVec.ofNat 288 (k * 2^130), [], [], k, BitVec.ofNat 8 k⟩
    let s : State := modLane (wrN { s0 with sys := { s0.sys with wedges := 512 }, ang := { s0.ang with incs := 100 + k * 2^20 } } Reg.ZTB_SVO (160 + 2^16 * 352)) l fun _ => { mode := 1, track := 0, first := 0, bufl := 0, band := 0, halves := [], run := some r, gates := [(0, true)], missedAt := none, taps := [], wcc := [] }
    (s.wf = true) ∧ ((laneAt s l).run = some r) ∧ (sectorSearched (laneAt s l) r (sectorSpan s r).1 = true) ∧ (sectorCut (laneAt s l) r (sectorSpan s r).1 (sectorSpan s r).2 = false))
    ∧ (
    let k : Nat := 0
    let s0 : State := State.reset
    let s0 : State := s0
    let l : Fin 16 := Fin.ofNat 16 k
    let r : LaneRun := ⟨3, 1, 0, 100, 0, none, 0, 1800 + 2 ^ 32 * 100 + 2 ^ 64 * (66732 * 512) + 2 ^ 96 * 128 + 2 ^ 112 * 3 + 2 ^ 128 * 24 + 2 ^ 144 * 64 + 2 ^ 152 * 96, 1812, 0, 1, 0⟩
    let g : SectorSignal := ⟨BitVec.ofNat 288 (k * 2^130), [], [], k, BitVec.ofNat 8 k⟩
    let s : State := modLane (wrN { s0 with sys := { s0.sys with wedges := 512 }, ang := { s0.ang with incs := 100 } } Reg.ZTB_SVO (160 + 2^16 * 352)) l fun _ => { ({ mode := 1, track := 0, first := 0, bufl := 0, band := 0, halves := [], run := some r, gates := [(0, true)], missedAt := none, taps := [], wcc := [] } : Lane) with gates := [] }
    (s.wf = true) ∧ ((laneAt s l).run = some r) ∧ (sectorSearched (laneAt s l) r (sectorSpan s r).1 = false))
    ∧ (
    let k : Nat := 0
    let s0 : State := State.reset
    let s0 : State := s0
    let l : Fin 16 := Fin.ofNat 16 k
    let r : LaneRun := ⟨3, 1, 0, 100, 0, none, 0, 1800 + 2 ^ 32 * 100 + 2 ^ 64 * (66732 * 512) + 2 ^ 96 * 128 + 2 ^ 112 * 3 + 2 ^ 128 * 24 + 2 ^ 144 * 64 + 2 ^ 152 * 96, 1812, 0, 1, 0⟩
    let g : SectorSignal := ⟨BitVec.ofNat 288 (k * 2^130), [], [], k, BitVec.ofNat 8 k⟩
    let searched : Bool := k%2==0
    let s : State := modLane (wrN { s0 with sys := { s0.sys with wedges := 512 }, ang := { s0.ang with incs := 100 + 2^24 } } Reg.ZTB_SVO (160 + 2^16 * 352)) l fun _ => { mode := 1, track := 0, first := 0, bufl := 0, band := 0, halves := [], run := some r, gates := [(0, true)], missedAt := none, taps := [], wcc := [] }
    (s.wf = true) ∧ ((laneAt s l).run = some r) ∧ (sectorSearched (laneAt s l) r (sectorSpan s r).1 = true) ∧ (sectorCut (laneAt s l) r (sectorSpan s r).1 (sectorSpan s r).2 = false) ∧ (pastBound s r = true))
    ∧ (
    let k : Nat := 0
    let s0 : State := State.reset
    let s0 : State := s0
    let l : Fin 16 := Fin.ofNat 16 k
    let r : LaneRun := ⟨3, 1, 0, 100, 0, none, 0, 1800 + 2 ^ 32 * 100 + 2 ^ 64 * (66732 * 512) + 2 ^ 96 * 128 + 2 ^ 112 * 3 + 2 ^ 128 * 24 + 2 ^ 144 * 64 + 2 ^ 152 * 96, 1812, 0, 1, 0⟩
    let g : SectorSignal := ⟨BitVec.ofNat 288 (k * 2^130), [], [], k, BitVec.ofNat 8 k⟩
    let searched : Bool := k%2==0
    let s : State := modLane (wrN { s0 with sys := { s0.sys with wedges := 512 }, ang := { s0.ang with incs := 100 + 2^24 } } Reg.ZTB_SVO (160 + 2^16 * 352)) l fun _ => { mode := 1, track := 0, first := 0, bufl := 0, band := 0, halves := [], run := some r, gates := [(0, true)], missedAt := none, taps := [], wcc := [] }
    (s.wf = true) ∧ ((laneAt s l).run = some r) ∧ ((laneAt s l).missedAt = none) ∧ (pastBound s r = true))
    ∧ (
    let k : Nat := 0
    let s0 : State := State.reset
    let s0 : State := s0
    let n : Fin 8 := Fin.ofNat 8 k
    let s : State := modSlot { s0 with clock := 1000 + k } n fun x => { x with settling := true, settleClock := 700 }
    (s.wf = true) ∧ ((slotAt s n).settling = true) ∧ ((slotAt s n).settleClock + 300 ≤ s.clock))
    ∧ (
    let k : Nat := 0
    let s0 : State := State.reset
    let s0 : State := s0
    let n : Fin 8 := Fin.ofNat 8 k
    let s : State := modSlot { s0 with clock := 9000 } n fun x => { x with ramp := .down, rampClock := k }
    (s.wf = true) ∧ ((slotAt s n).ramp = .down) ∧ ((slotAt s n).rampClock + 250 * getF s (Reg.LANE_ARAMP n) 0 4 ≤ s.clock))
    ∧ (
    let k : Nat := 0
    let s0 : State := State.reset
    let s0 : State := s0
    let s : State := s0
    (s.wf = true)) := by
  repeat refine And.intro (by decide +kernel) ?_
  decide +kernel

/-- Hypotheses of PreampLinksCarryWords hold together, of one clause after another. -/
theorem witness_preamp_links_carry_words :
    (
    let k : Nat := 0
    let s0 : State := State.reset
    let a : Fin 2 := Fin.ofNat 2 k
    let s0 : State := s0
    let s : State := setF s0 Reg.SYS_MODE 0 4 Mode.survey
    (s.wf = true) ∧ (mode s = Mode.survey ∨ (imoneAt s a).training = true))
    ∧ (
    let k : Nat := 0
    let s0 : State := State.reset
    let a : Fin 2 := Fin.ofNat 2 k
    let s0 : State := s0
    let s : State := setF s0 Reg.SYS_MODE 0 4 Mode.survey
    (s.wf = true) ∧ (mode s = Mode.survey ∨ (imoneAt s a).training = true))
    ∧ (
    let k : Nat := 0
    let s0 : State := State.reset
    let a : Fin 2 := Fin.ofNat 2 k
    let s0 : State := s0
    let s : State := { s0 with imone := modAt s0.imone a fun x => { x with training := true } }
    (s.wf = true) ∧ ((imoneAt s a).training = true))
    ∧ (
    let k : Nat := 0
    let s0 : State := State.reset
    let a : Fin 2 := Fin.ofNat 2 k
    let s0 : State := s0
    let s : State := { s0 with imone := modAt s0.imone a fun x => { x with training := false } }
    (s.wf = true) ∧ ((imoneAt s a).training = false))
    ∧ (
    let k : Nat := 0
    let s0 : State := State.reset
    let a : Fin 2 := Fin.ofNat 2 k
    let s0 : State := s0
    let w : Word := let v := (k*123456789+5) % 2^28; BitVec.ofNat 32 (16*v + crc4 (16*v))
    let s : State := { s0 with imone := modAt s0.imone a fun x => { x with training := false } }
    (s.wf = true) ∧ ((imoneAt s a).training = false) ∧ (w.toNat ≠ trainingWord) ∧ (crc4 w.toNat = w.toNat % 16))
    ∧ (
    let k : Nat := 0
    let s0 : State := State.reset
    let a : Fin 2 := Fin.ofNat 2 k
    let s0 : State := s0
    let w : Word := let v := (k*123456789+5) % 2^28; BitVec.ofNat 32 (16*v + (crc4 (16*v)+1)%16)
    let s : State := { s0 with imone := modAt s0.imone a fun x => { x with training := false, errWords := k % 7, errFrames := k % 15 } }
    (s.wf = true) ∧ ((imoneAt s a).training = false) ∧ (w.toNat ≠ trainingWord) ∧ (crc4 w.toNat ≠ w.toNat % 16) ∧ ((imoneAt s a).errWords < 7) ∧ ((imoneAt s a).errFrames < 15))
    ∧ (
    let k : Nat := 0
    let s0 : State := State.reset
    let a : Fin 2 := Fin.ofNat 2 k
    let s0 : State := s0
    let w : Word := 0x00FFFF00
    let s : State := { s0 with imone := modAt s0.imone a fun x => { x with training := true, good := 3 } }
    (s.wf = true) ∧ ((imoneAt s a).training = true) ∧ (w.toNat = trainingWord) ∧ ((imoneAt s a).good = 3)) := by
  repeat refine And.intro (by decide +kernel) ?_
  decide +kernel

/-- Hypotheses of SluiceActsOnConditions hold together, of one clause after another. -/
theorem witness_sluice_acts_on_conditions :
    (
    let k : Nat := 0
    let s0 : State := State.reset
    let s0 : State := s0
    let n : Fin 8 := Fin.ofNat 8 k
    let s : State := setBit (modSlot (setF s0 Reg.SYS_MODE 0 4 3) n fun x => { x with wg := true }) Reg.SLU_STS (8+n) false
    (s.wf = true) ∧ ((slotAt s n).wg = true) ∧ (wgLatched s n = false) ∧ (wgPass s n = false))
    ∧ (
    let k : Nat := 0
    let s0 : State := State.reset
    let s0 : State := s0
    let n : Fin 8 := Fin.ofNat 8 k
    let s : State := s0
    (s.wf = true))
    ∧ (
    let k : Nat := 0
    let s0 : State := State.reset
    let s0 : State := s0
    let a : Fin 2 := Fin.ofNat 2 k
    let s : State := { s0 with slu := { s0.slu with fltLowA := false, fltLowB := false }, imone := s0.imone.map fun x => { x with supplyOff := false, training := false } }
    (s.wf = true) ∧ (fltLow s a = false))
    ∧ (
    let k : Nat := 0
    let s0 : State := State.reset
    let s0 : State := s0
    let a : Fin 2 := Fin.ofNat 2 k
    let s : State := { s0 with imone := s0.imone.map fun x => { x with supplyOff := false, training := false } }
    (s.wf = true) ∧ ((imoneAt s a).supplyOff = false) ∧ (((imoneAt s a).training && (imoneAt s a).again) = false)) := by
  repeat refine And.intro (by decide +kernel) ?_
  decide +kernel

/-- Hypotheses of BandTablesLoad hold together, of one clause after another. -/
theorem witness_band_tables_load :
    (
    let k : Nat := 0
    let s0 : State := State.reset
    let s0 : State := s0
    let s : State := wrN (setBit s0 Reg.ZTB_CTL 0 false) Reg.ZTB_GEOM 0
    (s.wf = true) ∧ (ztbEn s = false) ∧ (btFailure s = none))
    ∧ (
    let k : Nat := 0
    let s0 : State := State.reset
    let s0 : State := s0
    let c : Nat := 4
    let f : Nat := 0
    let n : Nat := 0
    let s : State := let s0 := wrN (setBit s0 Reg.ZTB_CTL 0 false) Reg.ZTB_GEOM 3; { s0 with ztb := { s0.ztb with staged := [] } }
    (s.wf = true) ∧ (ztbEn s = false) ∧ (btFailure s = some (c, f, n)))
    ∧ (
    let k : Nat := 0
    let s0 : State := State.reset
    let s0 : State := s0
    let s : State := setBit s0 Reg.ZTB_CTL 0 true
    (s.wf = true) ∧ (ztbEn s = true))
    ∧ (
    let k : Nat := 0
    let s0 : State := State.reset
    let s0 : State := s0
    let i : Fin 8 := Fin.ofNat 8 k
    let v : Word := BitVec.ofNat 32 (k*123457+9)
    let k : Nat := (btSelected (wrN s0 Reg.ZTB_BTSEL (i*256))).getD 0
    let s : State := let s0 := wrN (setBit s0 Reg.ZTB_CTL 0 false) Reg.ZTB_BTSEL (i*256); { s0 with ztb := { s0.ztb with staged := [] } }
    (s.wf = true) ∧ (ztbEn s = false) ∧ (btSelected s = some k) ∧ (scanon btDflt s.ztb.staged = true))
    ∧ (
    let k : Nat := 0
    let s0 : State := State.reset
    let s0 : State := s0
    let v : Word := BitVec.ofNat 32 (k*13000)
    let s : State := s0
    (s.wf = true) ∧ (bitsOf v.toNat 0 20 ≤ 524288))
    ∧ (
    let k : Nat := 0
    let s0 : State := State.reset
    let s0 : State := s0
    let v : Word := BitVec.ofNat 32 (524289 + k)
    let s : State := s0
    (s.wf = true) ∧ (524288 < bitsOf v.toNat 0 20))
    ∧ (
    let k : Nat := 0
    let s0 : State := State.reset
    let s0 : State := s0
    let s : State := setBit s0 Reg.ZTB_CTL 0 false
    (s.wf = true) ∧ (ztbEn s = false))
    ∧ (
    let k : Nat := 0
    let s0 : State := State.reset
    let s0 : State := s0
    let s : State := let s0 := wrN (wrN (setBit (wrN s0 Reg.ZTB_GEOM 0x0000) Reg.ZTB_STS 1 true) Reg.ZTB_NTER 0) Reg.ZTB_NZONE 0; { s0 with ztb := { s0.ztb with layoutCheck := true } }
    (s.wf = true) ∧ (s.ztb.layoutCheck = true) ∧ (layoutOk s = true))
    ∧ (
    let k : Nat := 0
    let s0 : State := State.reset
    let s0 : State := s0
    let s : State := let s0 := setBit s0 Reg.ZTB_STS 1 false; { s0 with ztb := { s0.ztb with layoutCheck := true } }
    (s.wf = true) ∧ (s.ztb.layoutCheck = true) ∧ (layoutOk s = false)) := by
  repeat refine And.intro (by decide +kernel) ?_
  decide +kernel

/-- Hypotheses of ZoneCommandsRun hold together, of one clause after another. -/
theorem witness_zone_commands_run :
    (
    let k : Nat := 0
    let s0 : State := State.reset
    let s0 : State := s0
    let z : BitVec 20 := BitVec.ofNat 20 (k*3)
    let st : BitVec 4 := BitVec.ofNat 4 (1 + k % 4)
    let s : State := let s0 := (setF (setBit (wrN (wrN s0 Reg.ZTB_ZCMDSTS 0) Reg.ZTB_NZONE 1000) Reg.ZTB_CTL 0 true) Reg.SYS_STS 3 2 0); { s0 with nqe := { s0.nqe with cmds := [] }, ztb := { s0.ztb with zones := [], zcmd := none }, cis := CisState.reset, tsq := s0.tsq.map fun q => { q with ctxs := q.ctxs.map fun c => { c with phase := .idle, queue := [] } } }
    (s.wf = true) ∧ (bit s Reg.ZTB_ZCMDSTS 0 = false) ∧ (zcmdCheck s z.toNat 1 st.toNat = 0) ∧ (zcmdReady s ⟨z.toNat, false, st.toNat⟩ = true) ∧ (st.toNat ≠ zFull) ∧ (disabled s (surfaceAct s (zoneSurface s z.toNat)) = false))
    ∧ (
    let k : Nat := 0
    let s0 : State := State.reset
    let s0 : State := s0
    let z : BitVec 20 := BitVec.ofNat 20 (k*3+3)
    let st : BitVec 4 := BitVec.ofNat 4 k
    let s : State := wrN (wrN s0 Reg.ZTB_ZCMDSTS 0) Reg.ZTB_NZONE 3
    (s.wf = true) ∧ (bit s Reg.ZTB_ZCMDSTS 0 = false) ∧ (zcmdCheck s z.toNat 1 st.toNat ≠ 0))
    ∧ (
    let k : Nat := 0
    let s0 : State := State.reset
    let s0 : State := s0
    let z : BitVec 20 := BitVec.ofNat 20 (k*3)
    let s : State := let s0 := (setF (setBit (wrN (wrN s0 Reg.ZTB_ZCMDSTS 0) Reg.ZTB_NZONE 1000) Reg.ZTB_CTL 0 true) Reg.SYS_STS 3 2 0); { s0 with nqe := { s0.nqe with cmds := [] }, ztb := { s0.ztb with zones := [], zcmd := none }, cis := CisState.reset, tsq := s0.tsq.map fun q => { q with ctxs := q.ctxs.map fun c => { c with phase := .idle, queue := [] } } }
    (s.wf = true) ∧ (bit s Reg.ZTB_ZCMDSTS 0 = false) ∧ (zcmdCheck s z.toNat 2 0 = 0) ∧ (zcmdReady s ⟨z.toNat, true, 0⟩ = true) ∧ (zEpoch (dropSpec z.toNat (releaseZone z.toNat s)) z.toNat ≠ 0xFFFFFFFF) ∧ (disabled s (surfaceAct s (zoneSurface s z.toNat)) = false))
    ∧ (
    let k : Nat := 0
    let s0 : State := State.reset
    let s0 : State := s0
    let c : ZoneCommand := ⟨k, k%2==0, 1⟩
    let s : State := let s0 := (let s0 := (setF (setBit (wrN (wrN s0 Reg.ZTB_ZCMDSTS 0) Reg.ZTB_NZONE 1000) Reg.ZTB_CTL 0 true) Reg.SYS_STS 3 2 0); { s0 with nqe := { s0.nqe with cmds := [] }, ztb := { s0.ztb with zones := [], zcmd := none }, cis := CisState.reset, tsq := s0.tsq.map fun q => { q with ctxs := q.ctxs.map fun c => { c with phase := .idle, queue := [] } } } : State); { s0 with ztb := { s0.ztb with zcmd := some c } }
    (s.wf = true) ∧ (s.ztb.zcmd = some c) ∧ (zcmdReady s c = true))
    ∧ (
    let k : Nat := 0
    let s0 : State := State.reset
    let s0 : State := s0
    let i : BitVec 20 := BitVec.ofNat 20 k
    let p : PendSlip := ⟨k, 2*k, k⟩
    let l : List PendSlip := List.replicate (k%5) ⟨1,2,3⟩
    let s : State := { s0 with ztb := { s0.ztb with slpend := p :: l } }
    (s.wf = true) ∧ (s.ztb.slpend = p :: l) ∧ (p.pool = i.toNat))
    ∧ (
    let k : Nat := 0
    let s0 : State := State.reset
    let s0 : State := s0
    let v : DWord := BitVec.ofNat 64 (k*2^60 + 12345*k)
    let s : State := s0
    (s.wf = true))
    ∧ (
    let k : Nat := 0
    let s0 : State := State.reset
    let s0 : State := s0
    let lba : Nat := k
    let zoned : Bool := false
    let f : Nat := (let s0 := wrN s0 Reg.ZTB_GEOM 3; let s1 : State := { s0 with ztb := { s0.ztb with bands := [(0, 0 + 2^32*1000 + 2^64*2000 + 2^112*10 + 2^127)] } }; ((placeOf s1 k false).getD (0,0,0)).1)
    let u : Nat := (let s0 := wrN s0 Reg.ZTB_GEOM 3; let s1 : State := { s0 with ztb := { s0.ztb with bands := [(0, 0 + 2^32*1000 + 2^64*2000 + 2^112*10 + 2^127)] } }; ((placeOf s1 k false).getD (0,0,0)).2.1)
    let n : Nat := (let s0 := wrN s0 Reg.ZTB_GEOM 3; let s1 : State := { s0 with ztb := { s0.ztb with bands := [(0, 0 + 2^32*1000 + 2^64*2000 + 2^112*10 + 2^127)] } }; ((placeOf s1 k false).getD (0,0,0)).2.2)
    let s : State := let s0 := wrN s0 Reg.ZTB_GEOM 3; { s0 with ztb := { s0.ztb with mapping := some (lba, zoned), bands := [(0, 0 + 2^32*1000 + 2^64*2000 + 2^112*10 + 2^127)] } }
    (s.wf = true) ∧ (s.ztb.mapping = some (lba, zoned)) ∧ (placeOf s lba zoned = some (f, u, n)))
    ∧ (
    let k : Nat := 0
    let s0 : State := State.reset
    let s0 : State := s0
    let lba : Nat := k
    let zoned : Bool := false
    let s : State := { s0 with ztb := { s0.ztb with mapping := some (lba, zoned), bands := [] } }
    (s.wf = true) ∧ (s.ztb.mapping = some (lba, zoned)) ∧ (placeOf s lba zoned = none)) := by
  repeat refine And.intro (by decide +kernel) ?_
  decide +kernel

/-- Hypotheses of BuilderIssuesPlans hold together, of one clause after another. -/
theorem witness_builder_issues_plans :
    (
    let k : Nat := 0
    let s0 : State := State.reset
    let s0 : State := s0
    let p : RunPlan := { op := 1, ctx := Fin.ofNat 5 (k%4), surface := 0, track := 3, first := 0, count := 0, tfirst := 0, tcount := 0, zone := 0, zoned := false, aftseek := false, spec := false, bufl := 100, ftab := 200, res := 300, desc := 40, tag := 5, target := 6, arg := 0, bufs := [] }
    let s : State := let s0 := wrN (wrN s0 Reg.SYS_LANEFAIL 0) Reg.ZTB_GEOM 3; let s0 := setF (setF (setBit s0 (Reg.TSQ_CTL 0) 2 true) Reg.SYS_STS 0 6 0) Reg.SYS_MODE 0 4 Mode.ready; let s0 := (List.range 8).foldl (fun u i => wrN (wrN u (Reg.TST_CFG i) 0) (Reg.TST_STS i) 0) s0; let s0 := wrN s0 Reg.THM_CAPS 0x80; { s0 with sys := { s0.sys with target := none, step := none }, tsq := s0.tsq.map (fun t => { t with ctxs := t.ctxs.map fun c => { c with phase := .idle, queue := [] } }), dbStop := List.replicate 24 false, ztb := { s0.ztb with zones := [⟨0,2,[],[],[],false,false,false,0,0,0⟩], zcmd := none, bands := [(0, 0 + 2^32*1000 + 2^64*2000 + 2^112*10 + 2^127)] } }
    (s.wf = true) ∧ (planServed s p = true) ∧ (planOk s p = true) ∧ (p.op.val = 6 → bit s Reg.ZTB_PTCTL 0 = true → patrolMoves s = s) ∧ (p.op.val = 3 → budgetOk s p = true))
    ∧ (
    let k : Nat := 0
    let s0 : State := State.reset
    let s0 : State := s0
    let p : RunPlan := { op := 3, ctx := Fin.ofNat 5 (k%4), surface := 0, track := 3, first := 0, count := 1, tfirst := 0, tcount := 0, zone := 0, zoned := false, aftseek := false, spec := false, bufl := 100, ftab := 200, res := 300, desc := 40, tag := 5, target := 6, arg := 0, bufs := [] }
    let s : State := let s0 : State := (let s0 := wrN (wrN s0 Reg.SYS_LANEFAIL 0) Reg.ZTB_GEOM 3; let s0 := setF (setF (setBit s0 (Reg.TSQ_CTL 0) 2 true) Reg.SYS_STS 0 6 0) Reg.SYS_MODE 0 4 Mode.ready; let s0 := (List.range 8).foldl (fun u i => wrN (wrN u (Reg.TST_CFG i) 0) (Reg.TST_STS i) 0) s0; let s0 := wrN s0 Reg.THM_CAPS 0x80; { s0 with sys := { s0.sys with target := none, step := none }, tsq := s0.tsq.map (fun t => { t with ctxs := t.ctxs.map fun c => { c with phase := .idle, queue := [] } }), dbStop := List.replicate 24 false, ztb := { s0.ztb with zones := [⟨0,2,[],[],[],false,false,false,0,0,0⟩], zcmd := none, bands := [(0, 0 + 2^32*1000 + 2^64*2000 + 2^112*10 + 2^127)] } }); { (wrN (wrN (setF s0 Reg.ZTB_WPSTS 0 1 0) Reg.ZTB_RETUSE 60000) Reg.ZTB_RETBUD 100) with ztb := { s0.ztb with conv := [⟨90, 5, false, 0⟩] } }
    (s.wf = true) ∧ (planServed s p = true) ∧ (planOk s p = true) ∧ (p.op.val = 3) ∧ (budgetOk s p = false))
    ∧ (
    let k : Nat := 0
    let s0 : State := State.reset
    let s0 : State := s0
    let p : RunPlan := { op := 4, ctx := Fin.ofNat 5 (k%4), surface := 0, track := 1001, first := 0, count := 0, tfirst := 0, tcount := 0, zone := 0, zoned := true, aftseek := false, spec := false, bufl := 100, ftab := 200, res := 300, desc := 40, tag := 5, target := 6, arg := 0, bufs := [] }
    let s : State := let s0 : State := (let s0 := wrN (wrN s0 Reg.SYS_LANEFAIL 0) Reg.ZTB_GEOM 3; let s0 := setF (setF (setBit s0 (Reg.TSQ_CTL 0) 2 true) Reg.SYS_STS 0 6 0) Reg.SYS_MODE 0 4 Mode.ready; let s0 := (List.range 8).foldl (fun u i => wrN (wrN u (Reg.TST_CFG i) 0) (Reg.TST_STS i) 0) s0; let s0 := wrN s0 Reg.THM_CAPS 0x80; { s0 with sys := { s0.sys with target := none, step := none }, tsq := s0.tsq.map (fun t => { t with ctxs := t.ctxs.map fun c => { c with phase := .idle, queue := [] } }), dbStop := List.replicate 24 false, ztb := { s0.ztb with zones := [⟨0,2,[],[],[],false,false,false,0,0,0⟩], zcmd := none, bands := [(0, 0 + 2^32*1000 + 2^64*2000 + 2^112*10 + 2^127)] } }); let s0 := { s0 with ztb := { s0.ztb with bands := s0.ztb.bands ++ [(1, 1001 + 2^32*1000 + 2^64*2000 + 2^112*10 + 2^160*6)] } }; let s0 := wrN (wrN s0 Reg.ZTB_TTBASE 0x8000) Reg.ZTB_CTL 1; let s0 := sramPut64 (sramPut64 (sramPut32 s0 0x8000 1001) (zoneAddr 0) 0) (zoneAddr 0 + 8) 0; let s0 := setF (wrN s0 Reg.ZTB_TVCFG 0) Reg.ZTB_WPSTS 1 2 1; setCptr 0 1 (setRptr 0 5 (setZState 0 zImpOpen s0))
    (s.wf = true) ∧ (planServed s p = true) ∧ (planOk s p = true) ∧ (p.op.val = 4))
    ∧ (
    let k : Nat := 0
    let s0 : State := State.reset
    let s0 : State := s0
    let p : RunPlan := { op := 3, ctx := Fin.ofNat 5 (k%4), surface := 0, track := 3, first := 0, count := 1, tfirst := 0, tcount := 0, zone := 0, zoned := false, aftseek := false, spec := false, bufl := 100, ftab := 200, res := 300, desc := 40, tag := 5, target := 6, arg := 0, bufs := [] }
    let s : State := let s0 : State := (let s0 := wrN (wrN s0 Reg.SYS_LANEFAIL 0) Reg.ZTB_GEOM 3; let s0 := setF (setF (setBit s0 (Reg.TSQ_CTL 0) 2 true) Reg.SYS_STS 0 6 0) Reg.SYS_MODE 0 4 Mode.ready; let s0 := (List.range 8).foldl (fun u i => wrN (wrN u (Reg.TST_CFG i) 0) (Reg.TST_STS i) 0) s0; let s0 := wrN s0 Reg.THM_CAPS 0x80; { s0 with sys := { s0.sys with target := none, step := none }, tsq := s0.tsq.map (fun t => { t with ctxs := t.ctxs.map fun c => { c with phase := .idle, queue := [] } }), dbStop := List.replicate 24 false, ztb := { s0.ztb with zones := [⟨0,2,[],[],[],false,false,false,0,0,0⟩], zcmd := none, bands := [(0, 0 + 2^32*1000 + 2^64*2000 + 2^112*10 + 2^127)] } }); let s0 := { (wrN (wrN (setF s0 Reg.ZTB_WPSTS 0 1 0) Reg.ZTB_RETUSE 0) Reg.ZTB_RETBUD 100) with ztb := { s0.ztb with conv := [⟨90, 5, false, 0⟩] }, slu := { s0.slu with v12Bad := false, v5Bad := false, fltLowA := false }, srv := s0.srv.map fun v => { v with slots := v.slots.map fun x => { x with pct := 0 } }, slots := s0.slots.map fun x => { x with aoverFail := false }, dbLevel := List.replicate 24 0, imone := s0.imone.map fun x => { x with training := false, supplyOff := false } }; let s0 := setBit (setF s0 Reg.ANG_STS 0 3 3) (Reg.SRV_STS 0) (8+k%4) true; let s0 := wrN (wrN s0 Reg.SLU_STS 0) Reg.SPN_STS 128; let s0 := setBit (setBit s0 Reg.SLU_LOCK 0 true) Reg.SEC_STS 5 true; wrN (wrN s0 (Reg.LANE_SLHEAD (k%4)) 0) Reg.SLU_PESLIM 10
    (s.wf = true) ∧ (planServed s p = true) ∧ (planOk s p = true) ∧ (p.op.val = 3) ∧ (p.ctx.val < 4) ∧ (budgetOk s p = true) ∧ (((wgConds.filter (· != 5)).all (sluHolds s (ctxSlot (planSeq s p) p.ctx))) = true)) := by
  repeat refine And.intro (by decide +kernel) ?_
  decide +kernel

/-- Hypotheses of ZoneEngineCommands hold together, of one clause after another. -/
theorem witness_zone_engine_commands :
    (
    let k : Nat := 0
    let s0 : State := State.reset
    let s0 : State := s0
    let v : Word := BitVec.ofNat 32 (4*k + k%3)
    let s : State := s0
    (s.wf = true) ∧ (bitsOf v.toNat 0 2 ≠ 3))
    ∧ (
    let k : Nat := 0
    let s0 : State := State.reset
    let s0 : State := s0
    let v : Word := BitVec.ofNat 32 (4*k + 3)
    let s : State := s0
    (s.wf = true) ∧ (bitsOf v.toNat 0 2 = 3))
    ∧ (
    let k : Nat := 0
    let s0 : State := State.reset
    let s0 : State := s0
    let s : State := let s0 := setBit s0 Reg.ZTB_WPSTS 0 true; { s0 with tsq := s0.tsq.map (fun t => { t with ctxs := t.ctxs.map fun c => { c with phase := .idle, queue := [] } }) }
    (s.wf = true) ∧ (bit s Reg.ZTB_WPSTS 0 = true) ∧ (guardedOps s = false))
    ∧ (
    let k : Nat := 0
    let s0 : State := State.reset
    let s0 : State := s0
    let z : BitVec 20 := BitVec.ofNat 20 k
    let l : List Nat := if k%2=0 then [] else [k]
    let s : State := { s0 with ztb := { s0.ztb with oppend := z.toNat :: l } }
    (s.wf = true) ∧ (s.ztb.oppend = z.toNat :: l))
    ∧ (
    let k : Nat := 0
    let s0 : State := State.reset
    let s0 : State := s0
    let v : Word := BitVec.ofNat 32 (2^31+k)
    let s : State := setZState k 1 (setF (setBit (wrN (wrN s0 Reg.ZTB_RCSTS 0) Reg.ZTB_NZONE 100) Reg.ZTB_CTL 0 true) Reg.SYS_STS 3 2 0)
    (s.wf = true) ∧ (v.toNat.testBit 31 = true) ∧ (bit s Reg.ZTB_RCSTS 0 = false) ∧ (ztbEn s = true) ∧ (bitsOf v.toNat 0 20 < numZones s) ∧ (zState s (bitsOf v.toNat 0 20) ≠ zOffline) ∧ (zState s (bitsOf v.toNat 0 20) ≠ zReadOnly))
    ∧ (
    let k : Nat := 0
    let s0 : State := State.reset
    let s0 : State := s0
    let v : Word := BitVec.ofNat 32 (2^31+100+k)
    let s : State := setBit (wrN (wrN s0 Reg.ZTB_RCSTS 0) Reg.ZTB_NZONE 100) Reg.ZTB_CTL 0 true
    (s.wf = true) ∧ (v.toNat.testBit 31 = true) ∧ (bit s Reg.ZTB_RCSTS 0 = false) ∧ (ztbEn s = true) ∧ (numZones s ≤ bitsOf v.toNat 0 20))
    ∧ (
    let k : Nat := 0
    let s0 : State := State.reset
    let s0 : State := s0
    let media : Bool := true
    let clean : List (BitVec 20 × BitVec 20) := []
    let r : Recovery := ⟨0⟩
    let s : State := let s0 : State := (let s0 := wrN (wrN s0 Reg.SYS_LANEFAIL 0) Reg.ZTB_GEOM 3; let s0 := setF (setF (setBit s0 (Reg.TSQ_CTL 0) 2 true) Reg.SYS_STS 0 6 0) Reg.SYS_MODE 0 4 Mode.ready; let s0 := (List.range 8).foldl (fun u i => wrN (wrN u (Reg.TST_CFG i) 0) (Reg.TST_STS i) 0) s0; let s0 := wrN s0 Reg.THM_CAPS 0x80; { s0 with sys := { s0.sys with target := none, step := none }, tsq := s0.tsq.map (fun t => { t with ctxs := t.ctxs.map fun c => { c with phase := .idle, queue := [] } }), dbStop := List.replicate 24 false, ztb := { s0.ztb with zones := [⟨0,2,[],[],[],false,false,false,0,0,0⟩], zcmd := none, bands := [(0, 0 + 2^32*1000 + 2^64*2000 + 2^112*10 + 2^127)] } }); let r : Recovery := { r with zone := 0 }; let s0 := { s0 with ztb := { s0.ztb with bands := s0.ztb.bands ++ [(1, 1001 + 2^32*1000 + 2^64*2000 + 2^112*10 + 2^160*6)] } }; let s0 := wrN (wrN s0 Reg.ZTB_TTBASE 0x8000) Reg.ZTB_CTL 1; let s0 := sramPut64 (sramPut64 (sramPut32 s0 0x8000 1001) (zoneAddr 0) 0) (zoneAddr 0 + 8) 0; { s0 with ztb := { s0.ztb with recovery := some r } }
    (s.wf = true) ∧ (s.ztb.recovery = some r) ∧ (media = true))
    ∧ (
    let k : Nat := 0
    let s0 : State := State.reset
    let s0 : State := s0
    let media : Bool := false
    let clean : List (BitVec 20 × BitVec 20) := []
    let r : Recovery := ⟨0⟩
    let s : State := let s0 : State := (let s0 := wrN (wrN s0 Reg.SYS_LANEFAIL 0) Reg.ZTB_GEOM 3; let s0 := setF (setF (setBit s0 (Reg.TSQ_CTL 0) 2 true) Reg.SYS_STS 0 6 0) Reg.SYS_MODE 0 4 Mode.ready; let s0 := (List.range 8).foldl (fun u i => wrN (wrN u (Reg.TST_CFG i) 0) (Reg.TST_STS i) 0) s0; let s0 := wrN s0 Reg.THM_CAPS 0x80; { s0 with sys := { s0.sys with target := none, step := none }, tsq := s0.tsq.map (fun t => { t with ctxs := t.ctxs.map fun c => { c with phase := .idle, queue := [] } }), dbStop := List.replicate 24 false, ztb := { s0.ztb with zones := [⟨0,2,[],[],[],false,false,false,0,0,0⟩], zcmd := none, bands := [(0, 0 + 2^32*1000 + 2^64*2000 + 2^112*10 + 2^127)] } }); let r : Recovery := { r with zone := 0 }; let s0 := { s0 with ztb := { s0.ztb with bands := s0.ztb.bands ++ [(1, 1001 + 2^32*1000 + 2^64*2000 + 2^112*10 + 2^160*6)] } }; let s0 := wrN (wrN s0 Reg.ZTB_TTBASE 0x8000) Reg.ZTB_CTL 1; let s0 := sramPut64 (sramPut64 (sramPut32 s0 0x8000 1001) (zoneAddr 0) 0) (zoneAddr 0 + 8) 0; { s0 with ztb := { s0.ztb with recovery := some r } }
    (s.wf = true) ∧ (s.ztb.recovery = some r) ∧ (media = false) ∧ (probeClean s r.zone (clean.map fun c => (c.1.toNat, c.2.toNat)) (zoneFirstTrack s r.zone) = false))
    ∧ (
    let k : Nat := 0
    let s0 : State := State.reset
    let s0 : State := s0
    let media : Bool := false
    let clean : List (BitVec 20 × BitVec 20) := [(0, BitVec.ofNat 20 (1 + k*9001))]
    let r : Recovery := ⟨0⟩
    let s : State := let s0 : State := (let s0 := wrN (wrN s0 Reg.SYS_LANEFAIL 0) Reg.ZTB_GEOM 3; let s0 := setF (setF (setBit s0 (Reg.TSQ_CTL 0) 2 true) Reg.SYS_STS 0 6 0) Reg.SYS_MODE 0 4 Mode.ready; let s0 := (List.range 8).foldl (fun u i => wrN (wrN u (Reg.TST_CFG i) 0) (Reg.TST_STS i) 0) s0; let s0 := wrN s0 Reg.THM_CAPS 0x80; { s0 with sys := { s0.sys with target := none, step := none }, tsq := s0.tsq.map (fun t => { t with ctxs := t.ctxs.map fun c => { c with phase := .idle, queue := [] } }), dbStop := List.replicate 24 false, ztb := { s0.ztb with zones := [⟨0,2,[],[],[],false,false,false,0,0,0⟩], zcmd := none, bands := [(0, 0 + 2^32*1000 + 2^64*2000 + 2^112*10 + 2^127)] } }); let r : Recovery := { r with zone := 0 }; let s0 := { s0 with ztb := { s0.ztb with bands := s0.ztb.bands ++ [(1, 1001 + 2^32*1000 + 2^64*2000 + 2^112*10 + 2^160*6)] } }; let s0 := wrN (wrN s0 Reg.ZTB_TTBASE 0x8000) Reg.ZTB_CTL 1; let s0 := sramPut64 (sramPut64 (sramPut32 s0 0x8000 1001) (zoneAddr 0) 0) (zoneAddr 0 + 8) 0; { s0 with ztb := { s0.ztb with recovery := some r } }
    (s.wf = true) ∧ (s.ztb.recovery = some r) ∧ (media = false) ∧ (probeClean s r.zone (clean.map fun c => (c.1.toNat, c.2.toNat)) (zoneFirstTrack s r.zone) = true))
    ∧ (
    let k : Nat := 0
    let s0 : State := State.reset
    let s0 : State := s0
    let v : Word := BitVec.ofNat 32 k
    let s : State := s0
    (s.wf = true)) := by
  repeat refine And.intro (by decide +kernel) ?_
  decide +kernel

/-- Hypotheses of OperationsProgramLanes hold together, of one clause after another. -/
theorem witness_operations_program_lanes :
    (
    let k : Nat := 0
    let s0 : State := State.reset
    let q : Fin 2 := Fin.ofNat 2 k
    let x : Fin 4 := Fin.ofNat 4 k
    let s0 : State := s0
    let s : State := let s0 := modCtx s0 q x (fun c => { c with phase := .run, desc := 64*40, pendS := [], queue := [], progP := 0 }); let s0 := setF (setF s0 (Reg.LANE_SLHEAD (ctxSlot q x)) 0 4 3) (Reg.LANE_SLHEAD (ctxSlot q x)) 7 1 1; let s0 := sramPut32 (sramPut32 (sramPut32 (sramPut32 (sramPut32 s0 (64*40) (1+2^12*3+2^16*2)) (64*40+4) (1000+k)) (64*40+8) (3+2^10*2)) (64*40+12) (5+2^10*1)) (64*40+24) (4*(k+77)); s0
    (s.wf = true) ∧ (OpStands s q x 1))
    ∧ (
    let k : Nat := 0
    let s0 : State := State.reset
    let q : Fin 2 := Fin.ofNat 2 k
    let x : Fin 4 := Fin.ofNat 4 k
    let s0 : State := s0
    let s : State := let s0 := modCtx s0 q x (fun c => { c with phase := .run, desc := 64*40, pendS := [], queue := [], progP := 0 }); let s0 := setF (setF s0 (Reg.LANE_SLHEAD (ctxSlot q x)) 0 4 3) (Reg.LANE_SLHEAD (ctxSlot q x)) 7 1 1; let s0 := sramPut32 (sramPut32 (sramPut32 (sramPut32 (sramPut32 s0 (64*40) (2+2^12*3+2^16*2)) (64*40+4) (1000+k)) (64*40+8) (3+2^10*2)) (64*40+12) (5+2^10*1)) (64*40+24) (4*(k+77)); s0
    (s.wf = true) ∧ (OpStands s q x 2))
    ∧ (
    let k : Nat := 0
    let s0 : State := State.reset
    let q : Fin 2 := Fin.ofNat 2 k
    let x : Fin 4 := Fin.ofNat 4 k
    let s0 : State := s0
    let s : State := let s0 := modCtx s0 q x (fun c => { c with phase := .run, desc := 64*40, pendS := [], queue := [], progP := 0 }); let s0 := setF (setF s0 (Reg.LANE_SLHEAD (ctxSlot q x)) 0 4 3) (Reg.LANE_SLHEAD (ctxSlot q x)) 7 1 1; let s0 := sramPut32 (sramPut32 (sramPut32 (sramPut32 (sramPut32 s0 (64*40) (3+2^12*3+2^16*2)) (64*40+4) (1000+k)) (64*40+8) (3+2^10*2)) (64*40+12) (5+2^10*1)) (64*40+24) (4*(k+77)); s0
    (s.wf = true) ∧ (OpStands s q x 3))
    ∧ (
    let k : Nat := 0
    let s0 : State := State.reset
    let q : Fin 2 := Fin.ofNat 2 k
    let x : Fin 4 := Fin.ofNat 4 k
    let s0 : State := s0
    let s : State := let s0 := modCtx s0 q x (fun c => { c with phase := .run, desc := 64*40, pendS := [], queue := [], progP := 0 }); let s0 := setF (setF s0 (Reg.LANE_SLHEAD (ctxSlot q x)) 0 4 3) (Reg.LANE_SLHEAD (ctxSlot q x)) 7 1 1; let s0 := sramPut32 (sramPut32 (sramPut32 (sramPut32 (sramPut32 s0 (64*40) (4+2^12*3+2^16*2)) (64*40+4) (1000+k)) (64*40+8) (3+2^10*2)) (64*40+12) (5+2^10*1)) (64*40+24) (4*(k+77)); s0
    (s.wf = true) ∧ (OpStands s q x 4))
    ∧ (
    let k : Nat := 0
    let s0 : State := State.reset
    let q : Fin 2 := Fin.ofNat 2 k
    let x : Fin 4 := Fin.ofNat 4 k
    let s0 : State := s0
    let s : State := let s0 := modCtx s0 q x (fun c => { c with phase := .run, desc := 64*40, pendS := [], queue := [], progP := 0 }); let s0 := setF (setF s0 (Reg.LANE_SLHEAD (ctxSlot q x)) 0 4 3) (Reg.LANE_SLHEAD (ctxSlot q x)) 7 1 1; let s0 := sramPut32 (sramPut32 (sramPut32 (sramPut32 (sramPut32 s0 (64*40) (5+2^12*3+2^16*2)) (64*40+4) (1000+k)) (64*40+8) (3+2^10*2)) (64*40+12) (5+2^10*1)) (64*40+24) (4*(k+77)); s0
    (s.wf = true) ∧ (OpStands s q x 5))
    ∧ (
    let k : Nat := 0
    let s0 : State := State.reset
    let q : Fin 2 := Fin.ofNat 2 k
    let x : Fin 4 := Fin.ofNat 4 k
    let s0 : State := s0
    let s : State := let s0 := modCtx s0 q x (fun c => { c with phase := .run, desc := 64*40, pendS := [], queue := [], progP := 0 }); let s0 := setF (setF s0 (Reg.LANE_SLHEAD (ctxSlot q x)) 0 4 3) (Reg.LANE_SLHEAD (ctxSlot q x)) 7 1 1; let s0 := sramPut32 (sramPut32 (sramPut32 (sramPut32 (sramPut32 s0 (64*40) (5+2^12*3+2^16*2)) (64*40+4) (1000+k)) (64*40+8) (3+2^10*2)) (64*40+12) (5+2^10*1)) (64*40+24) (4*(k+77)); let s0 := setTailu (k+3) true (sramPut32 s0 (64*40+20) (k+3+2^31)); let s0 : State := setRptr (k+3) 0 s0; { (modCtx s0 q x fun c => { c with progPC := 2, progTC := 1 }) with lanes := s0.lanes.map fun l => { l with run := none } }
    (s.wf = true) ∧ (OpStands s q x 5) ∧ (readsDone s q x = true) ∧ (zTailu s (dZone s q x) = true) ∧ ((reloadIndexes s q x).any (fun i => !readsClean s q x i) = false) ∧ ((toReload (keepReloaded q x s) (dZone s q x)).isEmpty = true))
    ∧ (
    let k : Nat := 0
    let s0 : State := State.reset
    let q : Fin 2 := Fin.ofNat 2 k
    let x : Fin 4 := Fin.ofNat 4 k
    let s0 : State := s0
    let s : State := let s0 := modCtx s0 q x (fun c => { c with phase := .run, desc := 64*40, pendS := [], queue := [], progP := 0 }); let s0 := setF (setF s0 (Reg.LANE_SLHEAD (ctxSlot q x)) 0 4 3) (Reg.LANE_SLHEAD (ctxSlot q x)) 7 1 1; let s0 := sramPut32 (sramPut32 (sramPut32 (sramPut32 (sramPut32 s0 (64*40) (5+2^12*3+2^16*2)) (64*40+4) (1000+k)) (64*40+8) (3+2^10*2)) (64*40+12) (5+2^10*1)) (64*40+24) (4*(k+77)); let s0 := setTailu (k+3) true (sramPut32 s0 (64*40+20) (k+3+2^31)); let s0 : State := let s0 : State := (let s0 := wrN (wrN s0 Reg.SYS_LANEFAIL 0) Reg.ZTB_GEOM 3; let s0 := setF (setF (setBit s0 (Reg.TSQ_CTL 0) 2 true) Reg.SYS_STS 0 6 0) Reg.SYS_MODE 0 4 Mode.ready; let s0 := (List.range 8).foldl (fun u i => wrN (wrN u (Reg.TST_CFG i) 0) (Reg.TST_STS i) 0) s0; let s0 := wrN s0 Reg.THM_CAPS 0x80; { s0 with sys := { s0.sys with target := none, step := none }, tsq := s0.tsq.map (fun t => { t with ctxs := t.ctxs.map fun c => { c with phase := .idle, queue := [] } }), dbStop := List.replicate 24 false, ztb := { s0.ztb with zones := [⟨0,2,[],[],[],false,false,false,0,0,0⟩], zcmd := none, bands := [(0, 0 + 2^32*1000 + 2^64*2000 + 2^112*10 + 2^127)] } }); let s0 : State := { s0 with ztb := { s0.ztb with bands := [(0, 1001+k-5 + 2^32*1000 + 2^64*2000 + 2^112*10 + 2^160*6)] } }; let z := k+3; let s0 := wrN (wrN (wrN s0 Reg.ZTB_GEOM 1) Reg.ZTB_TTBASE 0x8000) Reg.ZTB_CTL 1; let s0 := sramPut64 (sramPut64 (sramPut32 s0 (0x8000+4*z) (1000+k)) (zoneAddr z) 0) (zoneAddr z + 8) 0; let s0 := setTailu z true s0; let s0 := sramPut32 (sramPut32 s0 (64*40+32) 0xA000) 0xA000 5; let s0 := setZState z zClosed (setRptr z 4 s0); let s0 := modCtx s0 q x (fun c => { c with phase := .run, desc := 64*40, pendS := [], queue := [], progP := 0 }); { s0 with ztb := { s0.ztb with zones := [⟨z,4,[],[],[],false,false,false,0,0,1⟩] } }; { (modCtx s0 q x fun c => { c with progPC := 2, progTC := 1 }) with lanes := s0.lanes.map fun l => { l with run := none } }
    (s.wf = true) ∧ (OpStands s q x 5) ∧ (readsDone s q x = true) ∧ (zTailu s (dZone s q x) = true) ∧ ((reloadIndexes s q x).any (fun i => !readsClean s q x i) = true) ∧ ((workAt s (dZone s q x)).rereads < 2))
    ∧ (
    let k : Nat := 0
    let s0 : State := State.reset
    let q : Fin 2 := Fin.ofNat 2 k
    let x : Fin 4 := Fin.ofNat 4 k
    let s0 : State := s0
    let s : State := let s0 := modCtx s0 q x (fun c => { c with phase := .run, desc := 64*40, pendS := [], queue := [], progP := 0 }); let s0 := setF (setF s0 (Reg.LANE_SLHEAD (ctxSlot q x)) 0 4 3) (Reg.LANE_SLHEAD (ctxSlot q x)) 7 1 1; let s0 := sramPut32 (sramPut32 (sramPut32 (sramPut32 (sramPut32 s0 (64*40) (5+2^12*3+2^16*2)) (64*40+4) (1000+k)) (64*40+8) (3+2^10*2)) (64*40+12) (5+2^10*1)) (64*40+24) (4*(k+77)); let s0 := setTailu (k+3) true (sramPut32 s0 (64*40+20) (k+3+2^31)); let s0 : State := let s0 : State := (let s0 := wrN (wrN s0 Reg.SYS_LANEFAIL 0) Reg.ZTB_GEOM 3; let s0 := setF (setF (setBit s0 (Reg.TSQ_CTL 0) 2 true) Reg.SYS_STS 0 6 0) Reg.SYS_MODE 0 4 Mode.ready; let s0 := (List.range 8).foldl (fun u i => wrN (wrN u (Reg.TST_CFG i) 0) (Reg.TST_STS i) 0) s0; let s0 := wrN s0 Reg.THM_CAPS 0x80; { s0 with sys := { s0.sys with target := none, step := none }, tsq := s0.tsq.map (fun t => { t with ctxs := t.ctxs.map fun c => { c with phase := .idle, queue := [] } }), dbStop := List.replicate 24 false, ztb := { s0.ztb with zones := [⟨0,2,[],[],[],false,false,false,0,0,0⟩], zcmd := none, bands := [(0, 0 + 2^32*1000 + 2^64*2000 + 2^112*10 + 2^127)] } }); let s0 : State := { s0 with ztb := { s0.ztb with bands := [(0, 1001+k-5 + 2^32*1000 + 2^64*2000 + 2^112*10 + 2^160*6)] } }; let z := k+3; let s0 := wrN (wrN (wrN s0 Reg.ZTB_GEOM 1) Reg.ZTB_TTBASE 0x8000) Reg.ZTB_CTL 1; let s0 := sramPut64 (sramPut64 (sramPut32 s0 (0x8000+4*z) (1000+k)) (zoneAddr z) 0) (zoneAddr z + 8) 0; let s0 := setTailu z true s0; let s0 := sramPut32 (sramPut32 s0 (64*40+32) 0xA000) 0xA000 5; let s0 := setZState z zClosed (setRptr z 4 s0); let s0 := modCtx s0 q x (fun c => { c with phase := .run, desc := 64*40, pendS := [], queue := [], progP := 0 }); { s0 with ztb := { s0.ztb with zones := [⟨z,4,[],[],[],false,false,false,0,0,2⟩] } }; { (modCtx s0 q x fun c => { c with progPC := 2, progTC := 1 }) with lanes := s0.lanes.map fun l => { l with run := none } }
    (s.wf = true) ∧ (OpStands s q x 5) ∧ (readsDone s q x = true) ∧ (zTailu s (dZone s q x) = true) ∧ ((reloadIndexes s q x).any (fun i => !readsClean s q x i) = true) ∧ (2 ≤ (workAt s (dZone s q x)).rereads) ∧ (disabled s (surfaceAct s (zoneSurface s (dZone s q x))) = false))
    ∧ (
    let k : Nat := 0
    let s0 : State := State.reset
    let q : Fin 2 := Fin.ofNat 2 k
    let x : Fin 4 := Fin.ofNat 4 k
    let s0 : State := s0
    let s : State := let s0 := modCtx s0 q x (fun c => { c with phase := .run, desc := 64*40, pendS := [], queue := [], progP := 0 }); let s0 := setF (setF s0 (Reg.LANE_SLHEAD (ctxSlot q x)) 0 4 3) (Reg.LANE_SLHEAD (ctxSlot q x)) 7 1 1; let s0 := sramPut32 (sramPut32 (sramPut32 (sramPut32 (sramPut32 s0 (64*40) (6+2^12*3+2^16*2)) (64*40+4) (1000+k)) (64*40+8) (3+2^10*2)) (64*40+12) (5+2^10*1)) (64*40+24) (4*(k+77)); s0
    (s.wf = true) ∧ (OpStands s q x 6))
    ∧ (
    let k : Nat := 0
    let s0 : State := State.reset
    let q : Fin 2 := Fin.ofNat 2 k
    let x : Fin 4 := Fin.ofNat 4 k
    let s0 : State := s0
    let i : Fin 1024 := 0
    let re : Bool := k%2==0
    let j : Fin 3 := Fin.ofNat 3 k
    let c : Nat := if k%3 ≠ 0 then 2 else if k%2==0 then 1 else 2
    let s : State := let s0 := modCtx s0 q x (fun c => { c with phase := .run, desc := 64*40, pendS := [], queue := [], progP := 0 }); let s0 := setF (setF s0 (Reg.LANE_SLHEAD (ctxSlot q x)) 0 4 3) (Reg.LANE_SLHEAD (ctxSlot q x)) 7 1 1; let s0 := sramPut32 (sramPut32 (sramPut32 (sramPut32 (sramPut32 s0 (64*40) (6+2^12*3+2^16*2)) (64*40+4) (1000+k)) (64*40+8) (3+2^10*2)) (64*40+12) (5+2^10*1)) (64*40+24) (4*(k+77)); sramPut32 (sramPut32 s0 (64*40+32) 0) 0 5
    (s.wf = true) ∧ (OpStands s q x 6) ∧ (i.val < dCount s q x) ∧ (c ≠ 0) ∧ (scanClass s (dResult s q x i) re j = c))
    ∧ (
    let k : Nat := 0
    let s0 : State := State.reset
    let q : Fin 2 := Fin.ofNat 2 k
    let x : Fin 4 := Fin.ofNat 4 k
    let s0 : State := s0
    let s : State := let s0 := modCtx s0 q x (fun c => { c with phase := .run, desc := 64*40, pendS := [], queue := [], progP := 0 }); let s0 := setF (setF s0 (Reg.LANE_SLHEAD (ctxSlot q x)) 0 4 3) (Reg.LANE_SLHEAD (ctxSlot q x)) 7 1 1; let s0 := sramPut32 (sramPut32 (sramPut32 (sramPut32 (sramPut32 s0 (64*40) (6+2^12*3+2^16*2)) (64*40+4) (1000+k)) (64*40+8) (3+2^10*2)) (64*40+12) (5+2^10*1)) (64*40+24) (4*(k+77)); { (modCtx s0 q x fun c => { c with progPC := 2, progTC := 1 }) with lanes := s0.lanes.map fun l => { l with run := none } }
    (s.wf = true) ∧ (OpStands s q x 6) ∧ (readsDone s q x = true))
    ∧ (
    let k : Nat := 0
    let s0 : State := State.reset
    let q : Fin 2 := Fin.ofNat 2 k
    let x : Fin 4 := Fin.ofNat 4 k
    let s0 : State := s0
    let s : State := let s0 := setF { s0 with ang := { s0.ang with queues := List.replicate 8 [] } } Reg.ANG_STS 0 3 3; let s0 := setF (setF (wrN s0 (Reg.LANE_PBLEAD q) 0) Reg.ANG_NOW 0 22 0) (Reg.ANG_SKEW 2) 0 22 500; let s0 := sramPut64 (sramPut64 s0 (8*2000) 100000) (64*40+24) (8*2000*2^32); let s0 := sramPut32 s0 (64*40+16) 0; let s0 := modCtx s0 q x (fun c => { c with phase := .run, desc := 64*40, pendS := [], queue := [], progP := 0 }); let s0 := setF (setF s0 (Reg.LANE_SLHEAD (ctxSlot q x)) 0 4 3) (Reg.LANE_SLHEAD (ctxSlot q x)) 7 1 1; let s0 := sramPut32 (sramPut32 (sramPut32 (sramPut32 (sramPut32 s0 (64*40) (8+2^12*3+2^16*2)) (64*40+4) (1000+k)) (64*40+8) (3+2^10*2)) (64*40+12) (5+2^10*1)) (64*40+24) (4*(k+77)); sramPut32 s0 (64*40+28) (8*2000)
    (s.wf = true) ∧ (OpStands s q x 8) ∧ (postCheck s (ctxSlot q x) 0x07 0xFFFF (dSurf s q x) (angShift (ftabStart s q x 0) (dWdly s q x - (getF s (Reg.LANE_PBLEAD q) 0 22 : Int))) = .ok))
    ∧ (
    let k : Nat := 0
    let s0 : State := State.reset
    let q : Fin 2 := Fin.ofNat 2 k
    let x : Fin 4 := Fin.ofNat 4 k
    let s0 : State := s0
    let p : Int := 500+5
    let vm : Rat := 1
    let am : Rat := 1
    let jm : Rat := 1
    let s : State := let f := q.val; let s0 := wrN s0 Reg.ZTB_GEOM 0x101; let s0 := modCtx s0 q 4 (fun c => { c with phase := .run, desc := 64*40 }); let s0 := sramPut32 (sramPut32 s0 (64*40) (7+2^16*f)) (64*40+40) 5; let s0 := wrN (wrN (wrN s0 (Reg.SRV_VMAX q) 0x3f800000) (Reg.SRV_AMAX q) 0x3f800000) (Reg.SRV_JMAX q) 0x3f800000; let s0 := wrN s0 (Reg.SRV_TPBASE q) 0x8000; let s0 := sramPut64 s0 (0x8000+8*48*f) (500+2^32*65536); { s0 with ztb := { s0.ztb with bands := [(48*f, 0 + 2^32*1000 + 2^64*2000 + 2^112*10 + 2^127)] } }
    (s.wf = true) ∧ (runsOp s q 4 7 = true) ∧ (dSurf s q 4 < numSurfaces s) ∧ (surfaceAct s (dSurf s q 4) = q.val) ∧ (servoPos s (dSurf s q 4) (bitsOf (descWord s q 4 10) 0 24) = some p) ∧ (limitOf s (Reg.SRV_VMAX q) = some vm) ∧ (limitOf s (Reg.SRV_AMAX q) = some am) ∧ (limitOf s (Reg.SRV_JMAX q) = some jm)) := by
  repeat refine And.intro (by decide +kernel) ?_
  decide +kernel

/-- Hypotheses of MicrowordArithmetic hold together, of one clause after another. -/
theorem witness_microword_arithmetic :
    (
    let k : Nat := 0
    let s0 : State := State.reset
    let q : Fin 2 := Fin.ofNat 2 k
    let x : Fin 5 := Fin.ofNat 5 k
    let s0 : State := s0
    let w : Nat := (2^26*0x00 + 2^21*(k%16) + (0))
    let s : State := let s0 := modCtx s0 q x (fun c => { c with phase := .run, pendS := [], ppend := false, clocks := k, pc := k*11, waitc := false }); { s0 with microcode := [(k*11, BitVec.ofNat 32 w)] }
    (s.wf = true) ∧ (WordRuns s q x w 0x00) ∧ (bitsOf w 0 21 = 0))
    ∧ (
    let k : Nat := 0
    let s0 : State := State.reset
    let q : Fin 2 := Fin.ofNat 2 k
    let x : Fin 5 := Fin.ofNat 5 k
    let s0 : State := s0
    let w : Nat := (2^26*0x01 + 2^21*(k%16) + ((2^17*(k%16)+2^13*(k*3%16)+2^9*(k*5%16)+k%32)))
    let s : State := let s0 := modCtx s0 q x (fun c => { c with phase := .run, pendS := [], ppend := false, clocks := k, pc := k*11, waitc := false }); { s0 with microcode := [(k*11, BitVec.ofNat 32 w)] }
    (s.wf = true) ∧ (WordRuns s q x w 0x01))
    ∧ (
    let k : Nat := 0
    let s0 : State := State.reset
    let q : Fin 2 := Fin.ofNat 2 k
    let x : Fin 5 := Fin.ofNat 5 k
    let s0 : State := s0
    let w : Nat := (2^26*0x02 + 2^21*(k%16) + (2^17*(k%16)+k*3001))
    let s : State := let s0 := modCtx s0 q x (fun c => { c with phase := .run, pendS := [], ppend := false, clocks := k, pc := k*11, waitc := false }); { s0 with microcode := [(k*11, BitVec.ofNat 32 w)] }
    (s.wf = true) ∧ (WordRuns s q x w 0x02))
    ∧ (
    let k : Nat := 0
    let s0 : State := State.reset
    let q : Fin 2 := Fin.ofNat 2 k
    let x : Fin 5 := Fin.ofNat 5 k
    let s0 : State := s0
    let w : Nat := (2^26*0x03 + 2^21*(k%16) + (2^17*(k%16)+k*801))
    let s : State := let s0 := modCtx s0 q x (fun c => { c with phase := .run, pendS := [], ppend := false, clocks := k, pc := k*11, waitc := false }); { s0 with microcode := [(k*11, BitVec.ofNat 32 w)] }
    (s.wf = true) ∧ (WordRuns s q x w 0x03) ∧ (bitsOf (mwImm w) 15 2 = 0))
    ∧ (
    let k : Nat := 0
    let s0 : State := State.reset
    let q : Fin 2 := Fin.ofNat 2 k
    let x : Fin 5 := Fin.ofNat 5 k
    let s0 : State := s0
    let w : Nat := (2^26*0x04 + 2^21*(k%16) + ((2^17*(k%16)+2^13*(k*3%16)+2^9*(k*5%16)+k%32)))
    let s : State := let s0 := modCtx s0 q x (fun c => { c with phase := .run, pendS := [], ppend := false, clocks := k, pc := k*11, waitc := false }); { s0 with microcode := [(k*11, BitVec.ofNat 32 w)] }
    (s.wf = true) ∧ (WordRuns s q x w 0x04))
    ∧ (
    let k : Nat := 0
    let s0 : State := State.reset
    let q : Fin 2 := Fin.ofNat 2 k
    let x : Fin 5 := Fin.ofNat 5 k
    let s0 : State := s0
    let w : Nat := (2^26*0x05 + 2^21*(k%16) + ((2^17*(k%16)+2^13*(k*3%16)+2^9*(k*5%16)+k%32)))
    let s : State := let s0 := modCtx s0 q x (fun c => { c with phase := .run, pendS := [], ppend := false, clocks := k, pc := k*11, waitc := false }); { s0 with microcode := [(k*11, BitVec.ofNat 32 w)] }
    (s.wf = true) ∧ (WordRuns s q x w 0x05))
    ∧ (
    let k : Nat := 0
    let s0 : State := State.reset
    let q : Fin 2 := Fin.ofNat 2 k
    let x : Fin 5 := Fin.ofNat 5 k
    let s0 : State := s0
    let w : Nat := (2^26*0x06 + 2^21*(k%16) + (2^17*(k%16)+k*3001))
    let s : State := let s0 := modCtx s0 q x (fun c => { c with phase := .run, pendS := [], ppend := false, clocks := k, pc := k*11, waitc := false }); { s0 with microcode := [(k*11, BitVec.ofNat 32 w)] }
    (s.wf = true) ∧ (WordRuns s q x w 0x06))
    ∧ (
    let k : Nat := 0
    let s0 : State := State.reset
    let q : Fin 2 := Fin.ofNat 2 k
    let x : Fin 5 := Fin.ofNat 5 k
    let s0 : State := s0
    let w : Nat := (2^26*0x07 + 2^21*(k%16) + ((2^17*(k%16)+2^13*(k*3%16)+2^9*(k*5%16)+k%32)))
    let s : State := let s0 := modCtx s0 q x (fun c => { c with phase := .run, pendS := [], ppend := false, clocks := k, pc := k*11, waitc := false }); { s0 with microcode := [(k*11, BitVec.ofNat 32 w)] }
    (s.wf = true) ∧ (WordRuns s q x w 0x07))
    ∧ (
    let k : Nat := 0
    let s0 : State := State.reset
    let q : Fin 2 := Fin.ofNat 2 k
    let x : Fin 5 := Fin.ofNat 5 k
    let s0 : State := s0
    let w : Nat := (2^26*0x08 + 2^21*(k%16) + ((2^17*(k%16)+2^13*(k*3%16)+2^9*(k*5%16)+k%32)))
    let s : State := let s0 := modCtx s0 q x (fun c => { c with phase := .run, pendS := [], ppend := false, clocks := k, pc := k*11, waitc := false }); { s0 with microcode := [(k*11, BitVec.ofNat 32 w)] }
    (s.wf = true) ∧ (WordRuns s q x w 0x08))
    ∧ (
    let k : Nat := 0
    let s0 : State := State.reset
    let q : Fin 2 := Fin.ofNat 2 k
    let x : Fin 5 := Fin.ofNat 5 k
    let s0 : State := s0
    let w : Nat := (2^26*0x09 + 2^21*(k%16) + ((2^17*(k%16)+2^13*(k*3%16)+2^9*(k*5%16)+k%32)))
    let s : State := let s0 := modCtx s0 q x (fun c => { c with phase := .run, pendS := [], ppend := false, clocks := k, pc := k*11, waitc := false }); { s0 with microcode := [(k*11, BitVec.ofNat 32 w)] }
    (s.wf = true) ∧ (WordRuns s q x w 0x09))
    ∧ (
    let k : Nat := 0
    let s0 : State := State.reset
    let q : Fin 2 := Fin.ofNat 2 k
    let x : Fin 5 := Fin.ofNat 5 k
    let s0 : State := s0
    let w : Nat := (2^26*0x0A + 2^21*(k%16) + ((2^17*(k%16)+2^13*(k*3%16)+2^9*(k*5%16)+k%32)))
    let s : State := let s0 := modCtx s0 q x (fun c => { c with phase := .run, pendS := [], ppend := false, clocks := k, pc := k*11, waitc := false }); { s0 with microcode := [(k*11, BitVec.ofNat 32 w)] }
    (s.wf = true) ∧ (WordRuns s q x w 0x0A))
    ∧ (
    let k : Nat := 0
    let s0 : State := State.reset
    let q : Fin 2 := Fin.ofNat 2 k
    let x : Fin 5 := Fin.ofNat 5 k
    let s0 : State := s0
    let w : Nat := (2^26*0x0B + 2^21*(k%16) + ((2^17*(k%16)+2^13*(k*3%16)+2^9*(k*5%16)+k%32)))
    let s : State := let s0 := modCtx s0 q x (fun c => { c with phase := .run, pendS := [], ppend := false, clocks := k, pc := k*11, waitc := false }); { s0 with microcode := [(k*11, BitVec.ofNat 32 w)] }
    (s.wf = true) ∧ (WordRuns s q x w 0x0B))
    ∧ (
    let k : Nat := 0
    let s0 : State := State.reset
    let q : Fin 2 := Fin.ofNat 2 k
    let x : Fin 5 := Fin.ofNat 5 k
    let s0 : State := s0
    let w : Nat := (2^26*0x0C + 2^21*(k%16) + ((2^17*(k%16)+2^13*(k*3%16)+2^9*(k*5%16)+k%32)))
    let s : State := let s0 := modCtx s0 q x (fun c => { c with phase := .run, pendS := [], ppend := false, clocks := k, pc := k*11, waitc := false }); { s0 with microcode := [(k*11, BitVec.ofNat 32 w)] }
    (s.wf = true) ∧ (WordRuns s q x w 0x0C))
    ∧ (
    let k : Nat := 0
    let s0 : State := State.reset
    let q : Fin 2 := Fin.ofNat 2 k
    let x : Fin 5 := Fin.ofNat 5 k
    let s0 : State := s0
    let w : Nat := (2^26*0x0D + 2^21*(k%16) + ((2^17*(k%16)+2^13*(k*3%16)+2^9*(k*5%16)+k%32)))
    let s : State := let s0 := modCtx s0 q x (fun c => { c with phase := .run, pendS := [], ppend := false, clocks := k, pc := k*11, waitc := false }); { s0 with microcode := [(k*11, BitVec.ofNat 32 w)] }
    (s.wf = true) ∧ (WordRuns s q x w 0x0D))
    ∧ (
    let k : Nat := 0
    let s0 : State := State.reset
    let q : Fin 2 := Fin.ofNat 2 k
    let x : Fin 5 := Fin.ofNat 5 k
    let s0 : State := s0
    let w : Nat := (2^26*0x0E + 2^21*(k%16) + (2^17*(k%16)+k*3001))
    let s : State := let s0 := modCtx s0 q x (fun c => { c with phase := .run, pendS := [], ppend := false, clocks := k, pc := k*11, waitc := false }); { s0 with microcode := [(k*11, BitVec.ofNat 32 w)] }
    (s.wf = true) ∧ (WordRuns s q x w 0x0E)) := by
  repeat refine And.intro (by decide +kernel) ?_
  decide +kernel

/-- Hypotheses of MicrowordControl hold together, of one clause after another. -/
theorem witness_microword_control :
    (
    let k : Nat := 0
    let s0 : State := State.reset
    let q : Fin 2 := Fin.ofNat 2 k
    let x : Fin 5 := Fin.ofNat 5 k
    let s0 : State := s0
    let w : Nat := (2^26*0x0F + 2^21*(k%16) + (2^17*(k%16) + [0,7,8,0,8][k%5]!))
    let v : Word := (mfsValue (place0 s0 q x) q x (bitsOf (mwImm w) 0 8)).getD (0,Ctx.reset) |>.1
    let s : State := let s0 := modCtx s0 q x (fun c => { c with phase := .run, pendS := [], ppend := false, clocks := k, pc := k*11, waitc := false }); { s0 with microcode := [(k*11, BitVec.ofNat 32 w)] }
    (s.wf = true) ∧ (WordRuns s q x w 0x0F) ∧ (mfsValue s q x (bitsOf (mwImm w) 0 8) = some (v, ctxAt s q x)))
    ∧ (
    let k : Nat := 0
    let s0 : State := State.reset
    let q : Fin 2 := Fin.ofNat 2 k
    let x : Fin 5 := Fin.ofNat 5 k
    let s0 : State := s0
    let w : Nat := (2^26*0x0F + 2^21*(k%16) + (2^17*(k%16) + 1))
    let e : Nat × Bool := (k*3,k%2==0)
    let l : List (Nat × Bool) := [(1,true)]
    let s : State := let s0 := modCtx s0 q x (fun c => { c with phase := .run, pendS := [], ppend := false, clocks := k, pc := k*11, waitc := false, wakes := e :: l }); { s0 with microcode := [(k*11, BitVec.ofNat 32 w)] }
    (s.wf = true) ∧ (WordRuns s q x w 0x0F) ∧ (x.val < 4) ∧ (bitsOf (mwImm w) 0 8 = 1) ∧ ((ctxAt s q x).wakes = e :: l))
    ∧ (
    let k : Nat := 0
    let s0 : State := State.reset
    let q : Fin 2 := Fin.ofNat 2 k
    let x : Fin 5 := Fin.ofNat 5 k
    let s0 : State := s0
    let w : Nat := (2^26*0x10 + 2^21*(k%16) + (2^17*(k%16) + 6))
    let s : State := let s0 := modCtx s0 q x (fun c => { c with phase := .run, pendS := [], ppend := false, clocks := k, pc := k*11, waitc := false }); { s0 with microcode := [(k*11, BitVec.ofNat 32 w)] }
    (s.wf = true) ∧ (WordRuns s q x w 0x10) ∧ (x.val < 4) ∧ (bitsOf (mwImm w) 0 8 = 6))
    ∧ (
    let k : Nat := 4
    let s0 : State := State.reset
    let q : Fin 2 := Fin.ofNat 2 k
    let x : Fin 5 := Fin.ofNat 5 k
    let s0 : State := s0
    let w : Nat := (2^26*0x10 + 2^21*(k%16) + (2^17*(k%16) + 4))
    let s : State := let s0 := modCtx s0 q x (fun c => { c with phase := .run, pendS := [], ppend := false, clocks := k, pc := k*11, waitc := false }); { s0 with microcode := [(k*11, BitVec.ofNat 32 w)] }
    (s.wf = true) ∧ (WordRuns s q x w 0x10) ∧ (x.val = 4) ∧ (bitsOf (mwImm w) 0 8 = 4))
    ∧ (
    let k : Nat := 0
    let s0 : State := State.reset
    let q : Fin 2 := Fin.ofNat 2 k
    let x : Fin 5 := Fin.ofNat 5 k
    let s0 : State := s0
    let w : Nat := (2^26*0x14 + 2^21*(k%16) + (2^13*[0,128+0,1,129,4,5,6,8,9][k%9]! + k*17))
    let b : Bool := (condHolds (place0 s0 q x) q x w).getD false
    let s : State := let s0 := modCtx s0 q x (fun c => { c with phase := .run, pendS := [], ppend := false, clocks := k, pc := k*11, waitc := false }); { s0 with microcode := [(k*11, BitVec.ofNat 32 w)] }
    (s.wf = true) ∧ (WordRuns s q x w 0x14) ∧ (condHolds s q x w = some b))
    ∧ (
    let k : Nat := 0
    let s0 : State := State.reset
    let q : Fin 2 := Fin.ofNat 2 k
    let x : Fin 5 := Fin.ofNat 5 k
    let s0 : State := s0
    let w : Nat := (2^26*0x15 + 2^21*(k%16) + (k*17))
    let s : State := let s0 := modCtx s0 q x (fun c => { c with phase := .run, pendS := [], ppend := false, clocks := k, pc := k*11, waitc := false, stack := List.replicate (k%8) 5 }); { s0 with microcode := [(k*11, BitVec.ofNat 32 w)] }
    (s.wf = true) ∧ (WordRuns s q x w 0x15) ∧ (condHolds s q x w = some true) ∧ ((ctxAt s q x).stack.length < 8))
    ∧ (
    let k : Nat := 0
    let s0 : State := State.reset
    let q : Fin 2 := Fin.ofNat 2 k
    let x : Fin 5 := Fin.ofNat 5 k
    let s0 : State := s0
    let w : Nat := (2^26*0x15 + 2^21*(k%16) + (2^13*128+k*17))
    let s : State := let s0 := modCtx s0 q x (fun c => { c with phase := .run, pendS := [], ppend := false, clocks := k, pc := k*11, waitc := false }); { s0 with microcode := [(k*11, BitVec.ofNat 32 w)] }
    (s.wf = true) ∧ (WordRuns s q x w 0x15) ∧ (condHolds s q x w = some false))
    ∧ (
    let k : Nat := 0
    let s0 : State := State.reset
    let q : Fin 2 := Fin.ofNat 2 k
    let x : Fin 5 := Fin.ofNat 5 k
    let s0 : State := s0
    let w : Nat := (2^26*0x16 + 2^21*(k%16) + (0))
    let p : Nat := k*5
    let l : List Nat := [1,2]
    let s : State := let s0 := modCtx s0 q x (fun c => { c with phase := .run, pendS := [], ppend := false, clocks := k, pc := k*11, waitc := false, stack := p :: l }); { s0 with microcode := [(k*11, BitVec.ofNat 32 w)] }
    (s.wf = true) ∧ (WordRuns s q x w 0x16) ∧ (bitsOf w 0 21 = 0) ∧ ((ctxAt s q x).stack = p :: l))
    ∧ (
    let k : Nat := 0
    let s0 : State := State.reset
    let q : Fin 2 := Fin.ofNat 2 k
    let x : Fin 5 := Fin.ofNat 5 k
    let s0 : State := s0
    let w : Nat := (2^26*0x1F + 2^21*(k%16) + (0))
    let s : State := let s0 := setBit s0 (Reg.TSQ_CTL q) 1 true; let s0 := modCtx s0 q x (fun c => { c with phase := .run, pendS := [], ppend := false, clocks := k, pc := k*11, waitc := false }); { s0 with microcode := [(k*11, BitVec.ofNat 32 w)] }
    (s.wf = true) ∧ (WordRuns s q x w 0x1F) ∧ (bit s (Reg.TSQ_CTL q) 1 = true) ∧ (mwTarget w = 0) ∧ (condHolds s q x w = some true))
    ∧ (
    let k : Nat := 0
    let s0 : State := State.reset
    let q : Fin 2 := Fin.ofNat 2 k
    let x : Fin 5 := Fin.ofNat 5 k
    let s0 : State := s0
    let w : Nat := (2^26*0x1F + 2^21*(k%16) + (2^13*128))
    let s : State := let s0 := setBit s0 (Reg.TSQ_CTL q) 1 true; let s0 := modCtx s0 q x (fun c => { c with phase := .run, pendS := [], ppend := false, clocks := k, pc := k*11, waitc := false }); { s0 with microcode := [(k*11, BitVec.ofNat 32 w)] }
    (s.wf = true) ∧ (WordRuns s q x w 0x1F) ∧ (bit s (Reg.TSQ_CTL q) 1 = true) ∧ (mwTarget w = 0) ∧ (condHolds s q x w = some false))
    ∧ (
    let k : Nat := 0
    let s0 : State := State.reset
    let q : Fin 2 := Fin.ofNat 2 k
    let x : Fin 5 := Fin.ofNat 5 k
    let s0 : State := s0
    let w : Nat := (2^26*0x1E + 2^21*(k%16) + (k%128))
    let s : State := let s0 := modCtx s0 q x (fun c => { c with phase := .run, pendS := [], ppend := false, clocks := k, pc := k*11, waitc := false }); { s0 with microcode := [(k*11, BitVec.ofNat 32 w)] }
    (s.wf = true) ∧ (WordRuns s q x w 0x1E) ∧ ((mwImm w).testBit 7 = false))
    ∧ (
    let k : Nat := 0
    let s0 : State := State.reset
    let q : Fin 2 := Fin.ofNat 2 k
    let x : Fin 5 := Fin.ofNat 5 k
    let s0 : State := s0
    let s : State := let w := 2^26*0x11; let s0 := modCtx s0 q x (fun c => { c with phase := .run, pendS := [], ppend := false, clocks := k, pc := k*11, waitc := false }); { s0 with microcode := [(k*11, BitVec.ofNat 32 w)] }
    (s.wf = true) ∧ ((ctxAt s q x).busy = true) ∧ ((ctxAt s q x).pendS = []) ∧ (exitDue (ctxAt s q x) = false) ∧ (mwListed (mwOp (microword s (ctxAt s q x).pc)) = false))
    ∧ (
    let k : Nat := 0
    let s0 : State := State.reset
    let q : Fin 2 := Fin.ofNat 2 k
    let x : Fin 5 := Fin.ofNat 5 k
    let s0 : State := s0
    let w : Nat := 0
    let s : State := let s0 := modCtx s0 q x (fun c => { c with phase := .run, pendS := [], ppend := false,  pc := k*11, waitc := false, clocks := 256 }); { s0 with microcode := [(k*11, BitVec.ofNat 32 w)] }
    (s.wf = true) ∧ ((ctxAt s q x).busy = true) ∧ ((ctxAt s q x).pendS = []) ∧ (exitDue (ctxAt s q x) = false) ∧ (microword s (ctxAt s q x).pc = w) ∧ (mwOp w = 0) ∧ (256 < (ctxAt s q x).clocks + mwClocks w)) := by
  repeat refine And.intro (by decide +kernel) ?_
  decide +kernel

/-- Hypotheses of MicrowordsActOnTheSlot hold together, of one clause after another. -/
theorem witness_microwords_act_on_the_slot :
    (
    let k : Nat := 0
    let s0 : State := { State.reset with sec := { State.reset.sec with keyHash := [0, 0, 0, 0] } }
    let q : Fin 2 := Fin.ofNat 2 k
    let x : Fin 5 := Fin.ofNat 5 k
    let s0 : State := s0
    let w : Nat := (2^26*0x18 + 2^21*(k%16) + (2^17*2+2^13*3+256+[1,3,5,7,12,13][k%6]!))
    let i : Nat := s0.ang.nextIdent
    let v : State := (let s0 := setF (setF { s0 with ang := { s0.ang with queues := List.replicate 8 [] } } Reg.ANG_STS 0 3 3) Reg.ANG_NOW 0 22 0; let s0 := setG q x 2 (BitVec.ofNat 32 (1000*k+5)) s0; (postEntry (ctxSlot q x) ([1,3,5,7,12,13][k%6]!) (bitsOf (greg s0 q x 3).toNat 0 16) 31 (1000*k+5) (let s0 := modCtx s0 q x (fun c => { c with phase := .run, pendS := [], ppend := false, clocks := k, pc := k*11, waitc := false, journal := [] }); { s0 with microcode := [(k*11, BitVec.ofNat 32 w)] } : State)).2.2)
    let s : State := let s0 := setF (setF { s0 with ang := { s0.ang with queues := List.replicate 8 [] } } Reg.ANG_STS 0 3 3) Reg.ANG_NOW 0 22 0; let s0 := setG q x 2 (BitVec.ofNat 32 (1000*k+5)) s0; let s0 := modCtx s0 q x (fun c => { c with phase := .run, pendS := [], ppend := false, clocks := k, pc := k*11, waitc := false, journal := [] }); { s0 with microcode := [(k*11, BitVec.ofNat 32 w)] }
    (s.wf = true) ∧ (WordRuns s q x w 0x18) ∧ (x.val < 4) ∧ ((ctxAt s q x).journal.length < 32) ∧ (postEntry (ctxSlot q x) (bitsOf (mwAux w) 0 8) (bitsOf (greg s q x (mwB w)).toNat 0 16) (if (mwAux w).testBit 8 then 31 else bitsOf (greg s q x (mwR w)).toNat 0 5) (bitsOf (greg s q x (mwA w)).toNat 0 22) s = (.ok, i, v)))
    ∧ (
    let k : Nat := 0
    let s0 : State := State.reset
    let q : Fin 2 := Fin.ofNat 2 k
    let x : Fin 5 := Fin.ofNat 5 k
    let s0 : State := s0
    let w : Nat := (2^26*0x19 + 2^21*(k%16) + (k%64))
    let s : State := let s0 := modCtx s0 q x (fun c => { c with phase := .run, pendS := [], ppend := false, clocks := k, pc := k*11, waitc := false }); { s0 with microcode := [(k*11, BitVec.ofNat 32 w)] }
    (s.wf = true) ∧ (WordRuns s q x w 0x19) ∧ (x.val < 4) ∧ (bitsOf (mwImm w) 6 11 = 0))
    ∧ (
    let k : Nat := 0
    let s0 : State := State.reset
    let q : Fin 2 := Fin.ofNat 2 k
    let x : Fin 5 := Fin.ofNat 5 k
    let s0 : State := s0
    let w : Nat := (2^26*0x1A + 2^21*(k%16) + (2^17*2+[0,1,2,3,4][k%5]!+256*(k%2)))
    let s : State := let s0 := setG q x 2 (BitVec.ofNat 32 (if k%5=1 then k%3 else k*10001)) s0; let s0 := modCtx s0 q x (fun c => { c with phase := .run, pendS := [], ppend := false, clocks := k, pc := k*11, waitc := false, journal := [] }); { s0 with microcode := [(k*11, BitVec.ofNat 32 w)] }
    (s.wf = true) ∧ (WordRuns s q x w 0x1A) ∧ (x.val < 4) ∧ ((ctxAt s q x).journal.length < 32) ∧ (bitsOf (mwAux w) 0 8 ≤ 4) ∧ (bitsOf (mwAux w) 0 8 = 1 → (greg s q x (mwA w)).toNat < 3))
    ∧ (
    let k : Nat := 0
    let s0 : State := State.reset
    let q : Fin 2 := Fin.ofNat 2 k
    let x : Fin 5 := Fin.ofNat 5 k
    let s0 : State := s0
    let w : Nat := (2^26*0x1B + 2^21*(k%16) + (2^17*(k%16)+k%16))
    let s : State := let s0 := modCtx s0 q x (fun c => { c with phase := .run, pendS := [], ppend := false, clocks := k, pc := k*11, waitc := false }); { s0 with microcode := [(k*11, BitVec.ofNat 32 w)] }
    (s.wf = true) ∧ (WordRuns s q x w 0x1B) ∧ ((mwImm w).testBit 16 = false))
    ∧ (
    let k : Nat := 0
    let s0 : State := State.reset
    let q : Fin 2 := Fin.ofNat 2 k
    let x : Fin 5 := Fin.ofNat 5 k
    let s0 : State := s0
    let w : Nat := (2^26*0x1B + 2^21*(k%16) + (2^17*(k%16)+2^16+3+16*(k%2)))
    let s : State := let s0 := setG q x 3 (BitVec.ofNat 32 (k%7)) s0; let s0 := sramPut64 s0 (8*(k+8)+8) (2^10*7); let s0 := modCtx s0 q x (fun c => { c with phase := .run, pendS := [], ppend := false, clocks := k, pc := k*11, waitc := false, desc := 8*(k+8) }); { s0 with microcode := [(k*11, BitVec.ofNat 32 w)] }
    (s.wf = true) ∧ (WordRuns s q x w 0x1B) ∧ ((mwImm w).testBit 16 = true) ∧ ((greg s q x (bitsOf (mwImm w) 0 4)).toNat < dCount s q x + dTcount s q x))
    ∧ (
    let k : Nat := 0
    let s0 : State := State.reset
    let q : Fin 2 := Fin.ofNat 2 k
    let x : Fin 5 := Fin.ofNat 5 k
    let s0 : State := s0
    let w : Nat := (2^26*0x1C + 2^21*(k%16) + (2^17*(k%3)+2^13*3))
    let s : State := let s0 := setG q x 3 (BitVec.ofNat 32 (k%7)) s0; let s0 := sramPut64 s0 (8*(k+8)+8) (2^10*7); let s0 := modCtx s0 q x (fun c => { c with phase := .run, pendS := [], ppend := false, clocks := k, pc := k*11, waitc := false, desc := 8*(k+8), journal := [] }); { s0 with microcode := [(k*11, BitVec.ofNat 32 w)] }
    (s.wf = true) ∧ (WordRuns s q x w 0x1C) ∧ ((ctxAt s q x).journal.length < 32) ∧ (bitsOf (mwAux w) 0 3 = 0) ∧ ((greg s q x (mwB w)).toNat < dCount s q x + dTcount s q x))
    ∧ (
    let k : Nat := 0
    let s0 : State := State.reset
    let q : Fin 2 := Fin.ofNat 2 k
    let x : Fin 5 := Fin.ofNat 5 k
    let s0 : State := s0
    let w : Nat := (2^26*0x1C + 2^21*(k%16) + (2^17*(k%16)+1))
    let s : State := let s0 := modCtx s0 q x (fun c => { c with phase := .run, pendS := [], ppend := false, clocks := k, pc := k*11, waitc := false, journal := [] }); { s0 with microcode := [(k*11, BitVec.ofNat 32 w)] }
    (s.wf = true) ∧ (WordRuns s q x w 0x1C) ∧ ((ctxAt s q x).journal.length < 32) ∧ (bitsOf (mwAux w) 0 3 = 1))
    ∧ (
    let k : Nat := 0
    let s0 : State := State.reset
    let q : Fin 2 := Fin.ofNat 2 k
    let x : Fin 5 := Fin.ofNat 5 k
    let s0 : State := s0
    let w : Nat := (2^26*0x1C + 2^21*(k%16) + (2^17*(k%16)+2))
    let s : State := let s0 := modCtx s0 q x (fun c => { c with phase := .run, pendS := [], ppend := false, clocks := k, pc := k*11, waitc := false, journal := [] }); { s0 with microcode := [(k*11, BitVec.ofNat 32 w)] }
    (s.wf = true) ∧ (WordRuns s q x w 0x1C) ∧ ((ctxAt s q x).journal.length < 32) ∧ (bitsOf (mwAux w) 0 3 = 2))
    ∧ (
    let k : Nat := 0
    let s0 : State := State.reset
    let q : Fin 2 := Fin.ofNat 2 k
    let x : Fin 5 := Fin.ofNat 5 k
    let s0 : State := s0
    let w : Nat := (2^26*0x1C + 2^21*(k%16) + (2^17*(k%16)+3))
    let s : State := let s0 := modCtx s0 q x (fun c => { c with phase := .run, pendS := [], ppend := false, clocks := k, pc := k*11, waitc := false, journal := [] }); { s0 with microcode := [(k*11, BitVec.ofNat 32 w)] }
    (s.wf = true) ∧ (WordRuns s q x w 0x1C) ∧ ((ctxAt s q x).journal.length < 32) ∧ (bitsOf (mwAux w) 0 3 = 3)) := by
  repeat refine And.intro (by decide +kernel) ?_
  decide +kernel

/-- Hypotheses of ContextsAreInterrupted hold together, of one clause after another. -/
theorem witness_contexts_are_interrupted :
    (
    let k : Nat := 0
    let s0 : State := State.reset
    let q : Fin 2 := Fin.ofNat 2 k
    let x : Fin 5 := Fin.ofNat 5 k
    let s0 : State := s0
    let e : Nat := k%14
    let l : List Nat := []
    let s : State := modCtx s0 q x (fun c => { c with phase := .run, pendS := e :: l })
    (s.wf = true) ∧ ((ctxAt s q x).busy = true) ∧ ((ctxAt s q x).pendS = e :: l))
    ∧ (
    let k : Nat := 0
    let s0 : State := State.reset
    let q : Fin 2 := Fin.ofNat 2 k
    let x : Fin 5 := Fin.ofNat 5 k
    let s0 : State := s0
    let s : State := let s0 := wrN s0 (Reg.TSQ_OPLIM q) 2; let s0 := wrN s0 Reg.ANG_REV (100+k); modCtx s0 q x (fun c => { c with phase := .run, startRev := 50 })
    (s.wf = true) ∧ ((ctxAt s q x).busy = true) ∧ (getF s (Reg.TSQ_OPLIM q) 0 4 ≤ (rdN s Reg.ANG_REV + 2 ^ 32 - (ctxAt s q x).startRev) % 2 ^ 32))
    ∧ (
    let k : Nat := 0
    let s0 : State := State.reset
    let q : Fin 2 := Fin.ofNat 2 k
    let x : Fin 5 := Fin.ofNat 5 k
    let s0 : State := s0
    let s : State := modCtx s0 q x (fun c => { c with phase := .pexit })
    (s.wf = true) ∧ ((ctxAt s q x).phase = .pexit))
    ∧ (
    let k : Nat := 0
    let s0 : State := State.reset
    let q : Fin 2 := Fin.ofNat 2 k
    let x : Fin 5 := Fin.ofNat 5 k
    let s0 : State := s0
    let m : BitVec 5 := BitVec.ofNat 5 (k+1)
    let s : State := s0
    (s.wf = true))
    ∧ (
    let k : Nat := 0
    let s0 : State := State.reset
    let q : Fin 2 := Fin.ofNat 2 k
    let x : Fin 5 := Fin.ofNat 5 k
    let s0 : State := s0
    let s : State := let s0 := modCtx s0 q x (fun c => { c with phase := .run }); modTsq s0 q fun t => { t with ucparClocks := [k] }
    (s.wf = true) ∧ ((ctxAt s q x).busy = true) ∧ (((tsqAt s q).ucparClocks.filter fun u => decide (s.clock - u < 1000000000)).length < 2))
    ∧ (
    let k : Nat := 0
    let s0 : State := State.reset
    let q : Fin 2 := Fin.ofNat 2 k
    let x : Fin 5 := Fin.ofNat 5 k
    let s0 : State := s0
    let s : State := let s0 := modCtx s0 q x (fun c => { c with phase := .run }); let s0 := setF s0 Reg.SYS_STS 0 6 0; modTsq s0 q fun t => { t with ucparClocks := [s0.clock, s0.clock] }
    (s.wf = true) ∧ ((ctxAt s q x).busy = true) ∧ (disabled s q = false) ∧ (2 ≤ ((tsqAt s q).ucparClocks.filter fun u => decide (s.clock - u < 1000000000)).length))
    ∧ (
    let k : Nat := 0
    let s0 : State := State.reset
    let q : Fin 2 := Fin.ofNat 2 k
    let x : Fin 5 := Fin.ofNat 5 k
    let s0 : State := s0
    let s : State := modCtx s0 q x (fun c => { c with phase := .run, ppend := true, clocks := 0, pendS := [] })
    (s.wf = true) ∧ (exitDue (ctxAt s q x) = true)) := by
  repeat refine And.intro (by decide +kernel) ?_
  decide +kernel

/-- Hypotheses of DescriptorsAreDispatched hold together, of one clause after another. -/
theorem witness_descriptors_are_dispatched :
    (
    let k : Nat := 0
    let s0 : State := State.reset
    let q : Fin 2 := Fin.ofNat 2 k
    let x : Fin 5 := Fin.ofNat 5 k
    let s0 : State := s0
    let v : DWord := BitVec.ofNat 64 (64*(k+3) + 2^32*(k%5))
    let s : State := let s0 := setBit s0 (Reg.TSQ_CTL q) 0 true; { s0 with tsq := s0.tsq.map fun t => { t with ctxs := t.ctxs.map fun c => { c with queue := c.queue.take 3 } } }
    (s.wf = true) ∧ (fwPostStatus s q v.toNat = 0))
    ∧ (
    let k : Nat := 0
    let s0 : State := State.reset
    let q : Fin 2 := Fin.ofNat 2 k
    let x : Fin 5 := Fin.ofNat 5 k
    let s0 : State := s0
    let v : DWord := BitVec.ofNat 64 (64*(k+3) + 2^32*(5+k%3))
    let s : State := setBit s0 (Reg.TSQ_CTL q) 0 (k%2==0)
    (s.wf = true) ∧ (fwPostStatus s q v.toNat ≠ 0))
    ∧ (
    let k : Nat := 0
    let s0 : State := State.reset
    let q : Fin 2 := Fin.ofNat 2 k
    let x : Fin 5 := Fin.ofNat 5 k
    let s0 : State := s0
    let d : QueuedDesc := ⟨64*(k+40), k%2==0, none⟩
    let l : List QueuedDesc := [⟨64*90, false, none⟩]
    let s : State := let s0 := setBit (setBit s0 (Reg.TSQ_CTL q) 0 true) Reg.NQE_FWACT 0 false; let s0 := sramPut32 s0 d.offset (if x.val = 4 then 7+1024 else 1+256*x); modCtx s0 q x (fun c => { c with phase := .idle, queue := d :: l })
    (s.wf = true) ∧ ((ctxAt s q x).queue = d :: l) ∧ (tsqRun s q = true) ∧ (bit s Reg.NQE_FWACT 0 = false) ∧ ((ctxAt s q x).busy = false) ∧ (seekWaits s q x = false) ∧ (opAllowed (bitsOf (sram32 s d.offset) 0 8) (bitsOf (sram32 s d.offset) 8 3) x = true))
    ∧ (
    let k : Nat := 0
    let s0 : State := State.reset
    let q : Fin 2 := Fin.ofNat 2 k
    let x : Fin 5 := Fin.ofNat 5 k
    let s0 : State := s0
    let s : State := modCtx s0 q x (fun c => { c with queue := [] })
    (s.wf = true) ∧ ((ctxAt s q x).queue = []))
    ∧ (
    let k : Nat := 0
    let s0 : State := State.reset
    let q : Fin 2 := Fin.ofNat 2 k
    let x : Fin 5 := Fin.ofNat 5 k
    let s0 : State := s0
    let d : Nat := 64*k
    let l : List Nat := [3]
    let s : State := modTsq s0 q fun t => { t with fwcq := d :: l }
    (s.wf = true) ∧ ((tsqAt s q).fwcq = d :: l))
    ∧ (
    let k : Nat := 0
    let s0 : State := State.reset
    let q : Fin 2 := Fin.ofNat 2 k
    let x : Fin 5 := Fin.ofNat 5 k
    let s0 : State := s0
    let s : State := modTsq s0 q fun t => { t with fwcq := [] }
    (s.wf = true) ∧ ((tsqAt s q).fwcq = []))
    ∧ (
    let k : Nat := 0
    let s0 : State := State.reset
    let q : Fin 2 := Fin.ofNat 2 k
    let x : Fin 5 := Fin.ofNat 5 k
    let s0 : State := s0
    let v : Word := BitVec.ofNat 32 k
    let s : State := let s0 := setBit s0 (Reg.TSQ_CTL q) 0 false; { s0 with tsq := s0.tsq.map fun t => { t with ctxs := t.ctxs.map fun c => { c with phase := .idle, queue := [] } } }
    (s.wf = true) ∧ (tsqRun s q = false) ∧ (tsqIdle s q = true))
    ∧ (
    let k : Nat := 0
    let s0 : State := State.reset
    let q : Fin 2 := Fin.ofNat 2 k
    let x : Fin 5 := Fin.ofNat 5 k
    let s0 : State := s0
    let v : Word := BitVec.ofNat 32 k
    let s : State := setBit s0 (Reg.TSQ_CTL q) 0 true
    (s.wf = true) ∧ (tsqRun s q = true)) := by
  repeat refine And.intro (by decide +kernel) ?_
  decide +kernel

/-- Hypotheses of MicrocodeLoads hold together, of one clause after another. -/
theorem witness_microcode_loads :
    (
    let k : Nat := 0
    let s0 : State := State.reset
    let s0 : State := s0
    let s : State := let s0 := setF (setBit (setBit s0 (Reg.TSQ_CTL 0) 0 false) (Reg.TSQ_CTL 1) 0 false) Reg.SYS_MODE 0 4 1; let s0 := setBit s0 Reg.TSQ_LDSTS 0 false; { s0 with tsq := s0.tsq.map fun t => { t with ctxs := t.ctxs.map fun c => { c with phase := .idle, queue := [] } } }
    (s.wf = true) ∧ (bit s Reg.TSQ_LDSTS 0 = false) ∧ (ldAllowed s = true))
    ∧ (
    let k : Nat := 0
    let s0 : State := State.reset
    let s0 : State := s0
    let s : State := setF (setBit s0 Reg.TSQ_LDSTS 0 false) Reg.SYS_MODE 0 4 3
    (s.wf = true) ∧ (bit s Reg.TSQ_LDSTS 0 = false) ∧ (ldAllowed s = false))
    ∧ (
    let k : Nat := 0
    let s0 : State := State.reset
    let s0 : State := s0
    let s : State := let s0 := setF (setBit (setBit s0 (Reg.TSQ_CTL 0) 0 false) (Reg.TSQ_CTL 1) 0 false) Reg.SYS_MODE 0 4 1; let s0 := setBit s0 Reg.TSQ_LDSTS 0 false; { s0 with tsq := s0.tsq.map fun t => { t with ctxs := t.ctxs.map fun c => { c with phase := .idle, queue := [] } } }
    (s.wf = true) ∧ (bit s Reg.TSQ_LDSTS 0 = false) ∧ (ldAllowed s = true))
    ∧ (
    let k : Nat := 0
    let s0 : State := State.reset
    let s0 : State := s0
    let s : State := setF (setBit s0 Reg.TSQ_LDSTS 0 false) Reg.SYS_MODE 0 4 3
    (s.wf = true) ∧ (bit s Reg.TSQ_LDSTS 0 = false) ∧ (ldAllowed s = false))
    ∧ (
    let k : Nat := 0
    let s0 : State := State.reset
    let s0 : State := s0
    let u : UcLoad := ⟨k%2==0, 64*k⟩
    let s : State := { s0 with ucLoad := some u }
    (s.wf = true) ∧ (s.ucLoad = some u)) := by
  repeat refine And.intro (by decide +kernel) ?_
  decide +kernel

/-- Hypotheses of ServoSamplesAndOutputs hold together, of one clause after another. -/
theorem witness_servo_samples_and_outputs :
    (
    let k : Nat := 0
    let s0 : State := State.reset
    let a : Fin 2 := Fin.ofNat 2 k
    let s0 : State := s0
    let dt : BitVec 16 := BitVec.ofNat 16 (20000+k)
    let wait : BitVec 16 := BitVec.ofNat 16 (k*400)
    let p0 : Option Word := if k%2=0 then some (BitVec.ofNat 32 (k*1234567)) else none
    let p1 : Option Word := if k%3=0 then none else some (BitVec.ofNat 32 (2^32-k*77))
    let p2 : Option Word := none
    let p3 : Option Word := some 5#32
    let cce : Fin 8 := Fin.ofNat 8 k
    let cpar : Bool := k%4==1
    let s : State := let s0 := setBit s0 (Reg.SRV_CTL a) 0 true; let s0 : State := { s0 with sys := { s0.sys with loadedA := true, loadedB := true } }; modSrv s0 a fun v => { v with retract := none, injector := none, anchReq := none, law := Law.reset, ma := List.replicate 4 Law.reset, bankA := [], bankB := [], profile := none }
    (s.wf = true) ∧ (loaded s a = true) ∧ (retracting s a = false) ∧ (srvEn s a = true))
    ∧ (
    let k : Nat := 0
    let s0 : State := State.reset
    let a : Fin 2 := Fin.ofNat 2 k
    let s0 : State := s0
    let dt : BitVec 16 := BitVec.ofNat 16 (20000+k)
    let wait : BitVec 16 := BitVec.ofNat 16 (k*400)
    let p0 : Option Word := if k%2=0 then some (BitVec.ofNat 32 (k*1234567)) else none
    let p1 : Option Word := if k%3=0 then none else some (BitVec.ofNat 32 (2^32-k*77))
    let p2 : Option Word := none
    let p3 : Option Word := some 5#32
    let cce : Fin 8 := Fin.ofNat 8 k
    let cpar : Bool := k%4==1
    let s : State := let s0 : State := { s0 with sys := { s0.sys with loadedA := true, loadedB := true } }; modSrv s0 a fun v => { v with retract := some .overrun, injector := none }
    (s.wf = true) ∧ (loaded s a = true) ∧ (retracting s a = true))
    ∧ (
    let k : Nat := 0
    let s0 : State := State.reset
    let a : Fin 2 := Fin.ofNat 2 k
    let s0 : State := s0
    let dt : BitVec 16 := BitVec.ofNat 16 (20000+k)
    let wait : BitVec 16 := BitVec.ofNat 16 (k*400)
    let p0 : Option Word := if k%2=0 then some (BitVec.ofNat 32 (k*1234567)) else none
    let p1 : Option Word := if k%3=0 then none else some (BitVec.ofNat 32 (2^32-k*77))
    let p2 : Option Word := none
    let p3 : Option Word := some 5#32
    let cce : Fin 8 := Fin.ofNat 8 k
    let cpar : Bool := k%4==1
    let s : State := let s0 := setBit s0 (Reg.SRV_CTL a) 0 false; let s0 : State := { s0 with sys := { s0.sys with loadedA := true, loadedB := true } }; modSrv s0 a fun v => { v with retract := none, injector := none }
    (s.wf = true) ∧ (loaded s a = true) ∧ (retracting s a = false) ∧ (srvEn s a = false))
    ∧ (
    let k : Nat := 0
    let s0 : State := State.reset
    let a : Fin 2 := Fin.ofNat 2 k
    let s0 : State := s0
    let dt : BitVec 16 := BitVec.ofNat 16 (20000+k)
    let wait : BitVec 16 := BitVec.ofNat 16 (k*400)
    let p0 : Option Word := if k%2=0 then some (BitVec.ofNat 32 (k*1234567)) else none
    let p1 : Option Word := if k%3=0 then none else some (BitVec.ofNat 32 (2^32-k*77))
    let p2 : Option Word := none
    let p3 : Option Word := some 5#32
    let cce : Fin 8 := Fin.ofNat 8 k
    let cpar : Bool := k%4==1
    let s : State := { s0 with sys := { s0.sys with loadedA := false, loadedB := false } }
    (s.wf = true) ∧ (loaded s a = false))
    ∧ (
    let k : Nat := 0
    let s0 : State := State.reset
    let a : Fin 2 := Fin.ofNat 2 k
    let s0 : State := s0
    let o : OutputSet := ⟨0x3F000000 + 2^31*(k%2), [0, 0x7F800000], none, 3, []⟩
    let l : List OutputSet := [⟨1, [], none, 0, []⟩]
    let s : State := let s0 := wrN (wrN s0 Reg.SLU_VCMMAX0 0x40000000) Reg.SLU_VCMMAX1 0x40000000; let s0 : State := s0; modSrv s0 a fun v => { v with pendingOut := o :: l }
    (s.wf = true) ∧ ((srvAt s a).pendingOut = o :: l) ∧ (o.cause = none) ∧ (fpNonFinite o.vcm = false) ∧ (ratAbs (fpVal o.vcm) ≤ fpVal (rdN s (if a.val = 0 then Reg.SLU_VCMMAX0 else Reg.SLU_VCMMAX1))))
    ∧ (
    let k : Nat := 0
    let s0 : State := State.reset
    let a : Fin 2 := Fin.ofNat 2 k
    let s0 : State := s0
    let o : OutputSet := ⟨0, [], some (k%3), 0, []⟩
    let l : List OutputSet := [⟨1, [], none, 0, []⟩]
    let c : Nat := k%3
    let s : State := let s0 := wrN s0 (Reg.SRV_OVR a) (k*3001 % 65536 + 65536*(k%2)); let s0 : State := s0; modSrv s0 a fun v => { v with pendingOut := o :: l }
    (s.wf = true) ∧ ((srvAt s a).pendingOut = o :: l) ∧ (o.cause = some c) ∧ (getF s (Reg.SRV_OVR a) 16 2 < 2))
    ∧ (
    let k : Nat := 0
    let s0 : State := State.reset
    let a : Fin 2 := Fin.ofNat 2 k
    let s0 : State := s0
    let o : OutputSet := ⟨0, [], some (k%3), 0, []⟩
    let l : List OutputSet := [⟨1, [], none, 0, []⟩]
    let c : Nat := k%3
    let s : State := let s0 := wrN s0 (Reg.SRV_OVR a) (k*3001 % 65536 + 65536*2); let s0 : State := { s0 with sys := { s0.sys with loadedA := true, loadedB := true } }; modSrv s0 a fun v => { v with pendingOut := o :: l, retract := none }
    (s.wf = true) ∧ ((srvAt s a).pendingOut = o :: l) ∧ (o.cause = some c) ∧ (getF s (Reg.SRV_OVR a) 16 2 = 2) ∧ (loaded s a = true) ∧ (retracting s a = false))
    ∧ (
    let k : Nat := 0
    let s0 : State := State.reset
    let a : Fin 2 := Fin.ofNat 2 k
    let s0 : State := s0
    let why : RetractFor := if k%4=0 then RetractFor.overrun else if k%4=1 then .held else if k%4=2 then .angleLost else .emergency
    let s : State := let s0 : State := { s0 with sys := { s0.sys with loadedA := true, loadedB := true } }; modSrv s0 a fun v => { v with retract := some why }
    (s.wf = true) ∧ ((srvAt s a).retract = some why)) := by
  repeat refine And.intro (by decide +kernel) ?_
  decide +kernel

/-- Hypotheses of ServoCommands hold together, of one clause after another. -/
theorem witness_servo_commands :
    (
    let k : Nat := 0
    let s0 : State := State.reset
    let a : Fin 2 := Fin.ofNat 2 k
    let s0 : State := s0
    let s : State := let s0 : State := setBit s0 (Reg.SRV_BANK a) 8 true; modSrv s0 a fun v => { v with retract := none }
    (s.wf = true) ∧ (bit s (Reg.SRV_BANK a) 8 = true) ∧ (retracting s a = false))
    ∧ (
    let k : Nat := 0
    let s0 : State := State.reset
    let a : Fin 2 := Fin.ofNat 2 k
    let s0 : State := s0
    let s : State := setBit s0 (Reg.SRV_BANK a) 8 false
    (s.wf = true) ∧ (bit s (Reg.SRV_BANK a) 8 = false))
    ∧ (
    let k : Nat := 0
    let s0 : State := State.reset
    let a : Fin 2 := Fin.ofNat 2 k
    let s0 : State := s0
    let s : State := s0
    (s.wf = true))
    ∧ (
    let k : Nat := 0
    let s0 : State := State.reset
    let a : Fin 2 := Fin.ofNat 2 k
    let s0 : State := s0
    let n : Fin 4 := Fin.ofNat 4 k
    let s : State := wrN s0 (Reg.LANE_SLHEAD (4*a+n)) 0x83
    (s.wf = true) ∧ ((slotHead s (4 * a + n)).isSome = true))
    ∧ (
    let k : Nat := 0
    let s0 : State := State.reset
    let a : Fin 2 := Fin.ofNat 2 k
    let s0 : State := s0
    let n : Fin 4 := Fin.ofNat 4 k
    let s : State := wrN s0 (Reg.LANE_SLHEAD (4*a+n)) 0
    (s.wf = true) ∧ (slotHead s (4 * a + n) = none))
    ∧ (
    let k : Nat := 0
    let s0 : State := State.reset
    let a : Fin 2 := Fin.ofNat 2 k
    let s0 : State := s0
    let s : State := wrN s0 (Reg.SRV_BANK a) (256*(k%2))
    (s.wf = true) ∧ (bit s (Reg.SRV_BANK a) 1 = false) ∧ (bit s (Reg.SRV_BANK a) 2 = false))
    ∧ (
    let k : Nat := 0
    let s0 : State := State.reset
    let a : Fin 2 := Fin.ofNat 2 k
    let s0 : State := s0
    let s : State := wrN s0 (Reg.SRV_BANK a) (2*(1+k%3))
    (s.wf = true) ∧ (bit s (Reg.SRV_BANK a) 1 = true ∨ bit s (Reg.SRV_BANK a) 2 = true))
    ∧ (
    let k : Nat := 0
    let s0 : State := State.reset
    let a : Fin 2 := Fin.ofNat 2 k
    let s0 : State := s0
    let s : State := let s0 : State := setBit s0 (Reg.SRV_BANK a) 2 true; modSrv s0 a fun v => { v with bankA := [], bankB := [] }
    (s.wf = true) ∧ (bit s (Reg.SRV_BANK a) 2 = true) ∧ (bankCheck s a (inactiveBank s a) ≠ 0))
    ∧ (
    let k : Nat := 0
    let s0 : State := State.reset
    let a : Fin 2 := Fin.ofNat 2 k
    let s0 : State := s0
    let s : State := let s0 := wrN s0 Reg.SLU_MAVMAX 0x42000000; let s0 : State := setBit (setBit (wrN (wrN s0 Reg.SLU_VCMMAX0 0x40000000) Reg.SLU_VCMMAX1 0x40000000) (Reg.SRV_BANK a) 2 true) (Reg.SRV_CTL a) 0 false; modSrv s0 a fun v => { v with bankA := [(4, 0x3F800000#32), (5, 0xBF800000#32), (10, 0x3F800000#32), (12, 0x3F800000#32), (13, 0x3F800000#32)], bankB := [(4, 0x3F800000#32), (5, 0xBF800000#32), (10, 0x3F800000#32), (12, 0x3F800000#32), (13, 0x3F800000#32)] }
    (s.wf = true) ∧ (bit s (Reg.SRV_BANK a) 2 = true) ∧ (bankCheck s a (inactiveBank s a) = 0) ∧ (srvEn s a = false))
    ∧ (
    let k : Nat := 0
    let s0 : State := State.reset
    let a : Fin 2 := Fin.ofNat 2 k
    let s0 : State := s0
    let s : State := let s0 := wrN s0 Reg.SLU_MAVMAX 0x42000000; let s0 : State := setBit (setBit (wrN (wrN s0 Reg.SLU_VCMMAX0 0x40000000) Reg.SLU_VCMMAX1 0x40000000) (Reg.SRV_BANK a) 2 true) (Reg.SRV_CTL a) 0 true; modSrv s0 a fun v => { v with bankA := [(4, 0x3F800000#32), (5, 0xBF800000#32), (10, 0x3F800000#32), (12, 0x3F800000#32), (13, 0x3F800000#32)], bankB := [(4, 0x3F800000#32), (5, 0xBF800000#32), (10, 0x3F800000#32), (12, 0x3F800000#32), (13, 0x3F800000#32)] }
    (s.wf = true) ∧ (bit s (Reg.SRV_BANK a) 2 = true) ∧ (bankCheck s a (inactiveBank s a) = 0) ∧ (srvEn s a = true))
    ∧ (
    let k : Nat := 0
    let s0 : State := State.reset
    let a : Fin 2 := Fin.ofNat 2 k
    let s0 : State := s0
    let i : Fin 8192 := Fin.ofNat 8192 (k*11)
    let w : Word := BitVec.ofNat 32 (k*99)
    let s : State := let s0 := wrN (wrN (wrN s0 Reg.SRV_CWSEL (k%2)) (Reg.SRV_BANK 0) 0) (Reg.SRV_BANK 1) 0; { s0 with srv := s0.srv.map fun v => { v with bankA := [], bankB := [] } }
    (s.wf = true) ∧ (bit s (Reg.SRV_BANK (getF s Reg.SRV_CWSEL 0 1)) 1 = false) ∧ (bit s (Reg.SRV_BANK (getF s Reg.SRV_CWSEL 0 1)) 2 = false) ∧ (scanon zeroDflt (inactiveBank s (getF s Reg.SRV_CWSEL 0 1)) = true))
    ∧ (
    let k : Nat := 0
    let s0 : State := State.reset
    let a : Fin 2 := Fin.ofNat 2 k
    let s0 : State := s0
    let v : Word := BitVec.ofNat 32 (k*16)
    let s : State := let s0 : State := setF s0 Reg.SYS_MODE 0 4 3; modSrv s0 a fun v => { v with injector := none }
    (s.wf = true) ∧ ((srvAt s a).injector = none) ∧ (injRefusal (plainWrite (Reg.SRV_INJCTL a) (putBits (putBits v.toNat 0 1 0) 1 1 0) s) a ≠ 0))
    ∧ (
    let k : Nat := 0
    let s0 : State := State.reset
    let a : Fin 2 := Fin.ofNat 2 k
    let s0 : State := s0
    let v : Word := BitVec.ofNat 32 (16*(k%6)+1)
    let s : State := let s0 := wrN (wrN (wrN s0 (Reg.SRV_INJF0 a) 0) (Reg.SRV_INJF1 a) 0) (Reg.SRV_PERIOD a) 1000; let s0 := setF (wrN s0 (Reg.SRV_INJCTL a) 0) Reg.SYS_MODE 0 4 Mode.test; let s0 : State := { s0 with sys := { s0.sys with loadedA := true, loadedB := true } }; modSrv s0 a fun v => { v with injector := none }
    (s.wf = true) ∧ ((srvAt s a).injector = none) ∧ (injRefusal (plainWrite (Reg.SRV_INJCTL a) (putBits (putBits v.toNat 0 1 0) 1 1 0) s) a = 0))
    ∧ (
    let k : Nat := 0
    let s0 : State := State.reset
    let a : Fin 2 := Fin.ofNat 2 k
    let s0 : State := s0
    let v : Word := BitVec.ofNat 32 (2^26+2^24*k+2^20*(k%16)+k*33%2^20)
    let s : State := wrN s0 (Reg.SRV_CAPCTL a) 0
    (s.wf = true) ∧ (bit s (Reg.SRV_CAPCTL a) 26 = false))
    ∧ (
    let k : Nat := 0
    let s0 : State := State.reset
    let a : Fin 2 := Fin.ofNat 2 k
    let s0 : State := s0
    let s : State := setBit s0 (Reg.SRV_CAPCTL a) 26 true
    (s.wf = true) ∧ (bit s (Reg.SRV_CAPCTL a) 26 = true))
    ∧ (
    let k : Nat := 0
    let s0 : State := State.reset
    let a : Fin 2 := Fin.ofNat 2 k
    let s0 : State := s0
    let s : State := let s0 : State := setF (wrN s0 (Reg.SRV_SETL a) 0) (Reg.SRV_STS a) 4 2 0; modSrv s0 a fun v => { v with profEnd := 0 }
    (s.wf = true) ∧ (bit s (Reg.SRV_STS a) 4 = false) ∧ (bit s (Reg.SRV_STS a) 5 = false) ∧ (settleOver s a = true)) := by
  repeat refine And.intro (by decide +kernel) ?_
  decide +kernel

/-- Hypotheses of ShockReadings hold together, of one clause after another. -/
theorem witness_shock_readings :
    (
    let k : Nat := 0
    let s0 : State := State.reset
    let s0 : State := s0
    let x : BitVec 16 := BitVec.ofNat 16 (k*111)
    let y : BitVec 16 := BitVec.ofNat 16 (k*3333)
    let z : BitVec 16 := BitVec.ofNat 16 (k*5)
    let rx : BitVec 16 := BitVec.ofNat 16 (k*7777)
    let ry : BitVec 16 := BitVec.ofNat 16 (k*9)
    let rz : BitVec 16 := BitVec.ofNat 16 (k*20011)
    let s : State := s0
    (s.wf = true))
    ∧ (
    let k : Nat := 0
    let s0 : State := State.reset
    let s0 : State := s0
    let x : BitVec 16 := BitVec.ofNat 16 (65000+k)
    let y : BitVec 16 := BitVec.ofNat 16 (k*3333)
    let z : BitVec 16 := BitVec.ofNat 16 (k*5)
    let rx : BitVec 16 := BitVec.ofNat 16 (k*7777)
    let ry : BitVec 16 := BitVec.ofNat 16 (k*9)
    let rz : BitVec 16 := BitVec.ofNat 16 (k*20011)
    let s : State := wrN (setBit s0 Reg.SLU_STS 0 false) Reg.SLU_SHKLIM 50
    (s.wf = true) ∧ (bit s Reg.SLU_STS 0 = false) ∧ (bitsOf (rdN s Reg.SLU_SHKLIM) 0 16 < (signedOf 16 x.toNat).natAbs))
    ∧ (
    let k : Nat := 0
    let s0 : State := State.reset
    let s0 : State := s0
    let s : State := let s0 := (List.range 6).foldl (fun u i => wrN u (Reg.SRV_SHK i) 0) { s0 with rates := [0,0,0] }; wrN s0 Reg.SLU_SHKHARD 0xFFFFFFFF
    (s.wf = true) ∧ (shockOver s (rdN s Reg.SLU_SHKHARD) = false))
    ∧ (
    let k : Nat := 0
    let s0 : State := State.reset
    let s0 : State := s0
    let s : State := let s0 := (List.range 6).foldl (fun u i => wrN u (Reg.SRV_SHK i) 0) { s0 with rates := [0,0,0] }; wrN s0 Reg.SLU_SHKLIM 0xFFFFFFFF
    (s.wf = true) ∧ (shockOver s (rdN s Reg.SLU_SHKLIM) = false)) := by
  repeat refine And.intro (by decide +kernel) ?_
  decide +kernel

/-- Hypotheses of SpindleFollowsCrossings hold together, of one clause after another. -/
theorem witness_spindle_follows_crossings :
    (
    let k : Nat := 0
    let s0 : State := State.reset
    let s0 : State := s0
    let p : BemfPair := ⟨50000, 0x40C00000#32, 0x3F800000#32, 0x41400000#32⟩
    let q : BemfPair := ⟨75000, 0x41100000#32, 0x3F800000#32, 0x41400000#32⟩
    let x : Rat := 50000 + 25000 * (-1) / (-1 - 2)
    let s : State := let s0 := wrN s0 Reg.SPN_MOT (4 + k % 5); let s0 := wrN (wrN s0 Reg.SPN_OBS 0) Reg.SPN_DUTY 500; let s0 : State := if k%2=0 then setF (s0) Reg.SPN_STS 0 4 SpnPhase.run else setF (s0) Reg.SPN_STS 0 4 SpnPhase.openLoop; modSpn s0 fun p => { p with est := 7200, lead := 100000+k, bad := 2 }
    (s.wf = true) ∧ (crossingInstant p q = some x) ∧ (commutating s = true) ∧ (sampling s = true) ∧ (watched s p q = true) ∧ (0 < (polePairs s : Rat) * (s.spn.lead + x)))
    ∧ (
    let k : Nat := 0
    let s0 : State := State.reset
    let s0 : State := s0
    let p : BemfPair := ⟨50000, 0x40C00000#32, 0x3F800000#32, 0x41400000#32⟩
    let q : BemfPair := ⟨75000, 0x41100000#32, 0x3F800000#32, 0x41400000#32⟩
    let x : Rat := 50000 + 25000 * (-1) / (-1 - 2)
    let s : State := let s0 := wrN s0 Reg.SPN_MOT (4 + k % 5); let s0 := wrN (wrN s0 Reg.SPN_OBS 0) Reg.SPN_DUTY 500; let s0 := setBit (setBit s0 Reg.SPN_CTL 1 true) Reg.SPN_MOFF 31 true; let s0 := setBit s0 Reg.SPN_STS 7 false; let s0 := wrN s0 Reg.ANG_STS (if k%2=0 then angLocked else angHoldover); let s0 : State := setF (s0) Reg.SPN_STS 0 4 SpnPhase.run; modSpn s0 fun p => { p with est := 7200, lead := 4000000+k, bad := 2 }
    (s.wf = true) ∧ (crossingInstant p q = some x) ∧ (commutating s = true) ∧ (sampling s = true) ∧ (watched s p q = true) ∧ (0 < (polePairs s : Rat) * (s.spn.lead + x)) ∧ (spnPhase s = SpnPhase.run) ∧ (s.spn.bad = 2) ∧ (outsideWindow s x = true ∨ s.spn.est * 2 / 100 < ratAbs (crossingSpeed s (s.spn.lead + x) - s.spn.est)) ∧ (angleHeld s = true) ∧ (bit s Reg.SPN_MOFF 31 = true) ∧ (bit s Reg.SPN_CTL 1 = true) ∧ (spnSync s = false))
    ∧ (
    let k : Nat := 0
    let s0 : State := State.reset
    let s0 : State := s0
    let p : BemfPair := ⟨50000, 0x40C00000#32, 0x3F800000#32, 0x41400000#32⟩
    let q : BemfPair := ⟨75000, 0x41100000#32, 0x3F800000#32, 0x41400000#32⟩
    let x : Rat := 50000 + 25000 * (-1) / (-1 - 2)
    let s : State := let s0 := wrN s0 Reg.SPN_MOT (4 + k % 5); let s0 := wrN (wrN s0 Reg.SPN_OBS 0) Reg.SPN_DUTY 500; let s0 := { s0 with sys := { s0.sys with loadedA := false, loadedB := false } }; let s0 := wrN s0 Reg.ANG_STS 0; let s0 : State := setF (s0) Reg.SPN_STS 0 4 SpnPhase.run; modSpn s0 fun p => { p with est := 7200, lead := 4000000+k, bad := 2 }
    (s.wf = true) ∧ (crossingInstant p q = some x) ∧ (commutating s = true) ∧ (sampling s = true) ∧ (watched s p q = true) ∧ (0 < (polePairs s : Rat) * (s.spn.lead + x)) ∧ (spnPhase s = SpnPhase.run) ∧ (s.spn.bad = 2) ∧ (outsideWindow s x = true ∨ s.spn.est * 2 / 100 < ratAbs (crossingSpeed s (s.spn.lead + x) - s.spn.est)) ∧ (angleHeld s = false) ∧ (loaded s 0 = false) ∧ (loaded s 1 = false))
    ∧ (
    let k : Nat := 0
    let s0 : State := State.reset
    let s0 : State := s0
    let s : State := let s0 := wrN s0 Reg.SPN_MOT (4 + k % 5); let s0 : State := setF (s0) Reg.SPN_STS 0 4 SpnPhase.run; modSpn s0 fun p => { p with bad := 2, est := 7200 }
    (s.wf = true) ∧ (spnPhase s = SpnPhase.run) ∧ (s.spn.bad = 2))
    ∧ (
    let k : Nat := 0
    let s0 : State := State.reset
    let s0 : State := s0
    let s : State := let s0 := wrN s0 Reg.SPN_MOT (4 + k % 5); let s0 : State := if k%3=0 then setF (s0) Reg.SPN_STS 0 4 SpnPhase.run else setF (s0) Reg.SPN_STS 0 4 SpnPhase.servoComm; modSpn s0 fun p => { p with bad := k%2, est := 7200 }
    (s.wf = true) ∧ (spnPhase s = SpnPhase.run ∨ spnPhase s = SpnPhase.servoComm) ∧ (s.spn.bad < 2))
    ∧ (
    let k : Nat := 0
    let s0 : State := State.reset
    let s0 : State := s0
    let s : State := let s0 := wrN s0 Reg.SPN_MOT (4 + k % 5); let s0 : State := setF (s0) Reg.SPN_STS 0 4 SpnPhase.openLoop; modSpn s0 fun p => { p with bad := k%2, est := 7200 }
    (s.wf = true) ∧ (spnPhase s = SpnPhase.openLoop))
    ∧ (
    let k : Nat := 0
    let s0 : State := State.reset
    let s0 : State := s0
    let s : State := setF s0 Reg.SPN_STS 0 4 (5+k%2)
    (s.wf = true) ∧ (spnPhase s = SpnPhase.openLoop ∨ spnPhase s = SpnPhase.run))
    ∧ (
    let k : Nat := 0
    let s0 : State := State.reset
    let s0 : State := s0
    let s : State := setF (s0) Reg.SPN_STS 0 4 SpnPhase.servoComm
    (s.wf = true) ∧ (spnPhase s = SpnPhase.servoComm))
    ∧ (
    let k : Nat := 0
    let s0 : State := State.reset
    let s0 : State := s0
    let r : Nat := k*100
    let s : State := let s0 : State := { s0 with ang := { s0.ang with queues := List.replicate 8 [], freq := 1/250, incs := 0 } }; let s0 := setF s0 Reg.SPN_STS 14 2 (k%2); let s0 : State := setBit (setF (s0) Reg.SPN_STS 0 4 SpnPhase.servoComm) Reg.SPN_STS 8 true; modSpn s0 fun p => { p with reinit := some r, obsFailed := false }
    (s.wf = true) ∧ (s.spn.reinit = some r) ∧ (s.spn.obsFailed = false) ∧ (spnCsrc s = true) ∧ (spnFails s < 2) ∧ (QueuesEmpty s))
    ∧ (
    let k : Nat := 0
    let s0 : State := State.reset
    let s0 : State := s0
    let r : Nat := k*100
    let s : State := let s0 : State := { s0 with ang := { s0.ang with queues := List.replicate 8 [], freq := 1/250, incs := 0 } }; let s0 := setBit s0 Reg.SPN_STS 7 false; let s0 : State := setF (s0) Reg.SPN_STS 0 4 SpnPhase.run; modSpn s0 fun p => { p with reinit := some r }
    (s.wf = true) ∧ (s.spn.reinit = some r) ∧ (spnPhase s = SpnPhase.run) ∧ (spnSync s = false) ∧ (QueuesEmpty s))
    ∧ (
    let k : Nat := 0
    let s0 : State := State.reset
    let s0 : State := s0
    let back : Bool := k%2==0
    let dt : Word := BitVec.ofNat 32 (100000*(k+3))
    let pos : BitVec 16 := BitVec.ofNat 16 (k*60)
    let s : State := let s0 := wrN s0 Reg.SPN_MOT (4 + k % 5); setF s0 Reg.SPN_STS 0 4 (if k%4=0 then 1 else if k%4=1 then 9 else if k%4=2 then 2 else 8)
    (s.wf = true) ∧ (getF s Reg.SPN_MOT 0 4 * dt.toNat ≠ 0) ∧ (spnPhase s = SpnPhase.observe ∨ spnPhase s = SpnPhase.reacq ∨ spnPhase s = SpnPhase.brake ∨ spnPhase s = SpnPhase.coast))
    ∧ (
    let k : Nat := 0
    let s0 : State := State.reset
    let s0 : State := s0
    let back : Bool := k%2==0
    let dt : Word := BitVec.ofNat 32 (100000*(k+3))
    let pos : BitVec 16 := BitVec.ofNat 16 (k*60)
    let s : State := let s0 := wrN s0 Reg.SPN_MOT (4 + k % 5); wrN s0 Reg.SLU_SPNMAX 10
    (s.wf = true) ∧ (getF s Reg.SPN_MOT 0 4 * dt.toNat ≠ 0) ∧ (getF s Reg.SLU_SPNMAX 0 14 * getF s Reg.SPN_MOT 0 4 * dt.toNat < 10000000000))
    ∧ (
    let k : Nat := 0
    let s0 : State := State.reset
    let s0 : State := s0
    let back : Bool := k%2==0
    let dt : Word := BitVec.ofNat 32 (100000*(k+3))
    let pos : BitVec 16 := BitVec.ofNat 16 (k*60)
    let s : State := let s0 := wrN s0 Reg.SPN_MOT (4 + k % 5); wrN s0 Reg.SLU_SPNMAX 16383
    (s.wf = true) ∧ (getF s Reg.SPN_MOT 0 4 * dt.toNat ≠ 0) ∧ (10000000000 * 100 < getF s Reg.SLU_SPNMAX 0 14 * 99 * getF s Reg.SPN_MOT 0 4 * dt.toNat))
    ∧ (
    let k : Nat := 0
    let s0 : State := State.reset
    let s0 : State := s0
    let dt : Word := BitVec.ofNat 32 (10000*(k+3))
    let pos : BitVec 16 := BitVec.ofNat 16 (k*30)
    let i : Nat := 10000*(k+3)+k
    let s : State := let s0 := wrN s0 Reg.SPN_MOT (4 + k % 5); let s0 : State := setF (s0) Reg.SPN_STS 0 4 SpnPhase.reacq; modSpn s0 fun p => { p with good := 5, back := false, interval := some i }
    (s.wf = true) ∧ (spnPhase s = SpnPhase.reacq) ∧ (5 ≤ s.spn.good) ∧ (s.spn.interval = some i) ∧ (s.spn.back = false) ∧ (100 * (if i ≤ dt.toNat then dt.toNat - i else i - dt.toNat) ≤ 2 * i) ∧ (pos.toNat ≤ 1500) ∧ (getF s Reg.SPN_MOT 0 4 * dt.toNat ≠ 0) ∧ (300 * (getF s Reg.SPN_MOT 0 4 * dt.toNat) ≤ 10000000000))
    ∧ (
    let k : Nat := 0
    let s0 : State := State.reset
    let s0 : State := s0
    let s : State := let s0 := wrN s0 Reg.SPN_MOT (4 + k % 5); let s0 : State := { s0 with clock := 10^12 + s0.clock }; let s0 : State := setF (setF (s0) Reg.SPN_STS 0 4 SpnPhase.reacq) Reg.SPN_STS 14 2 (k%2); modSpn s0 fun p => { p with est := 7200, phaseClock := 5 }
    (s.wf = true) ∧ (spnPhase s = SpnPhase.reacq) ∧ (phaseOver s (16 * elecPeriod s s.spn.est) = true) ∧ (spnFails s < 2))
    ∧ (
    let k : Nat := 0
    let s0 : State := State.reset
    let s0 : State := s0
    let s : State := let s0 := wrN s0 Reg.SPN_MOT (4 + k % 5); let s0 : State := { s0 with clock := 10^12 + s0.clock }; let s0 : State := setF (setF (s0) Reg.SPN_STS 0 4 SpnPhase.reacq) Reg.SPN_STS 14 2 (2+k%2); modSpn s0 fun p => { p with est := 7200, phaseClock := 5 }
    (s.wf = true) ∧ (spnPhase s = SpnPhase.reacq) ∧ (phaseOver s (16 * elecPeriod s s.spn.est) = true) ∧ (2 ≤ spnFails s)) := by
  repeat refine And.intro (by decide +kernel) ?_
  decide +kernel

/-- Hypotheses of SpindleStartsAndStops hold together, of one clause after another. -/
theorem witness_spindle_starts_and_stops :
    (
    let k : Nat := 0
    let s0 : State := State.reset
    let s0 : State := s0
    let s : State := let s0 : State := { s0 with clock := 10^12 + s0.clock }; let s0 : State := setF (s0) Reg.SPN_STS 0 4 SpnPhase.observe; modSpn s0 fun p => { p with edges := 0, phaseClock := 0 }
    (s.wf = true) ∧ (spnPhase s = SpnPhase.observe) ∧ (s.spn.edges = 0) ∧ (phaseOver s 20000000 = true))
    ∧ (
    let k : Nat := 0
    let s0 : State := State.reset
    let s0 : State := s0
    let s : State := let s0 : State := setF (s0) Reg.SPN_STS 0 4 SpnPhase.observe; modSpn s0 fun p => { p with edges := 14+k, good := 12+k, back := false, est := 300+k }
    (s.wf = true) ∧ (spnPhase s = SpnPhase.observe) ∧ (s.spn.edges ≠ 0) ∧ (12 ≤ s.spn.good) ∧ (s.spn.back = false) ∧ (300 ≤ s.spn.est))
    ∧ (
    let k : Nat := 0
    let s0 : State := State.reset
    let s0 : State := s0
    let s : State := let s0 : State := setF (s0) Reg.SPN_STS 0 4 SpnPhase.observe; modSpn s0 fun p => { p with edges := 14+k, good := 12-k%3, back := k%3=0, est := 300 }
    (s.wf = true) ∧ (spnPhase s = SpnPhase.observe) ∧ (s.spn.edges ≠ 0) ∧ (s.spn.good < 12 ∨ s.spn.back = true ∨ s.spn.est < 300))
    ∧ (
    let k : Nat := 0
    let s0 : State := State.reset
    let s0 : State := s0
    let s : State := let s0 : State := { s0 with clock := 10^12 + s0.clock }; let s0 : State := setF (s0) Reg.SPN_STS 0 4 SpnPhase.align; modSpn s0 fun p => { p with phaseClock := 0 }
    (s.wf = true) ∧ (spnPhase s = SpnPhase.align) ∧ (s.spn.phaseClock + 10000000 * getF s Reg.SPN_START 0 8 ≤ s.clock))
    ∧ (
    let k : Nat := 0
    let s0 : State := State.reset
    let s0 : State := s0
    let s : State := let s0 : State := { s0 with clock := 10^12 + s0.clock }; let s0 : State := setF (setF (s0) Reg.SPN_STS 0 4 SpnPhase.openLoop) Reg.SPN_START 16 8 40; modSpn s0 fun p => { p with misses := 0, rampStart := some 3 }
    (s.wf = true) ∧ (spnPhase s = SpnPhase.openLoop) ∧ (1000000000 ≤ s.clock) ∧ (300 ≤ openSpeed s (s.clock - 1000000000)) ∧ (s.spn.misses = 0))
    ∧ (
    let k : Nat := 0
    let s0 : State := State.reset
    let s0 : State := s0
    let s : State := let s0 := { s0 with sys := { s0.sys with step := none } }; let s0 : State := { s0 with clock := 10^12 + s0.clock }; let s0 : State := setF (setF (setF (s0) Reg.SPN_STS 0 4 SpnPhase.openLoop) Reg.SPN_STS 14 2 (k%2)) Reg.SPN_START 16 8 40; modSpn s0 fun p => { p with misses := 1, rampStart := some 3 }
    (s.wf = true) ∧ (spnPhase s = SpnPhase.openLoop) ∧ (1000000000 ≤ s.clock) ∧ (300 ≤ openSpeed s (s.clock - 1000000000)) ∧ (1 ≤ s.spn.misses) ∧ (spnFails s < 2) ∧ (s.sys.step = none))
    ∧ (
    let k : Nat := 0
    let s0 : State := State.reset
    let s0 : State := s0
    let c : Nat := 3
    let s : State := let s0 : State := { s0 with clock := 10^12 + s0.clock }; let s0 := { s0 with sys := { s0.sys with step := none } }; let s0 : State := setF (s0) Reg.SPN_STS 14 2 (k%2); modSpn s0 fun p => { p with runClock := some c }
    (s.wf = true) ∧ (s.spn.runClock = some c) ∧ (c + 100000000 * getF s Reg.SPN_START 24 8 ≤ s.clock) ∧ (spnFails s < 2) ∧ (s.sys.step = none))
    ∧ (
    let k : Nat := 0
    let s0 : State := State.reset
    let s0 : State := s0
    let s : State := let s0 : State := s0; modSpn s0 fun p => { p with runClock := none }
    (s.wf = true) ∧ (s.spn.runClock = none))
    ∧ (
    let k : Nat := 0
    let s0 : State := State.reset
    let s0 : State := s0
    let c : Nat := k
    let s : State := let s0 : State := { s0 with clock := 10^12 + s0.clock }; let s0 : State := setBit (setBit s0 Reg.SPN_STS 7 true) Reg.SPN_STS 11 true; modSpn s0 fun p => { p with goodSince := some c }
    (s.wf = true) ∧ (s.spn.goodSince = some c) ∧ (c + 60000000000 ≤ s.clock) ∧ (spnSync s = true) ∧ (bit s Reg.SPN_STS 11 = true))
    ∧ (
    let k : Nat := 0
    let s0 : State := State.reset
    let s0 : State := s0
    let s : State := let s0 := setBit (wrN (wrN (wrN (wrN s0 Reg.SPN_MOT (4+k%5)) Reg.SPN_KE 0x3C000000) Reg.SPN_RW 0x40000000) Reg.SPN_TGT (5400+k)) Reg.SPN_CTL 0 true; let s0 := setBit s0 Reg.SPN_STS 7 false; setF s0 Reg.SPN_STS 0 4 (if k%3=0 then 0 else 8+2*(k%2))
    (s.wf = true) ∧ (bit s Reg.SPN_CTL 0 = true) ∧ (spnConfigOk s = true) ∧ (spnPhase s = SpnPhase.stopped ∨ spnPhase s = SpnPhase.coast ∨ spnPhase s = SpnPhase.fault) ∧ (spnSync s = false))
    ∧ (
    let k : Nat := 0
    let s0 : State := State.reset
    let s0 : State := s0
    let s : State := wrN (setBit s0 Reg.SPN_CTL 0 true) Reg.SPN_TGT 0
    (s.wf = true) ∧ (bit s Reg.SPN_CTL 0 = true) ∧ (spnConfigOk s = false))
    ∧ (
    let k : Nat := 0
    let s0 : State := State.reset
    let s0 : State := s0
    let s : State := setBit s0 Reg.SPN_CTL 0 true
    (s.wf = true) ∧ (bit s Reg.SPN_CTL 0 = true))
    ∧ (
    let k : Nat := 0
    let s0 : State := State.reset
    let s0 : State := s0
    let s : State := setBit s0 Reg.SPN_CTL 0 true
    (s.wf = true) ∧ (bit s Reg.SPN_CTL 0 = true))
    ∧ (
    let k : Nat := 0
    let s0 : State := State.reset
    let s0 : State := s0
    let s : State := setBit s0 Reg.SPN_CTL 0 false
    (s.wf = true) ∧ (bit s Reg.SPN_CTL 0 = false))
    ∧ (
    let k : Nat := 0
    let s0 : State := State.reset
    let s0 : State := s0
    let s : State := setBit s0 Reg.SPN_CTL 0 false
    (s.wf = true) ∧ (bit s Reg.SPN_CTL 0 = false))
    ∧ (
    let k : Nat := 0
    let s0 : State := State.reset
    let s0 : State := s0
    let s : State := let s0 : State := { s0 with clock := 10^12 + s0.clock }; let s0 : State := setF (s0) Reg.SPN_STS 0 4 SpnPhase.brake; modSpn s0 fun p => { p with edgeClock := k }
    (s.wf = true) ∧ (spnPhase s = SpnPhase.brake) ∧ (s.spn.edgeClock + 20000000 ≤ s.clock))
    ∧ (
    let k : Nat := 0
    let s0 : State := State.reset
    let s0 : State := s0
    let s : State := let s0 : State := { s0 with clock := 10^12 + s0.clock }; let s0 : State := setF (s0) Reg.SPN_STS 0 4 SpnPhase.hold; modSpn s0 fun p => { p with after := .stopped, phaseClock := k }
    (s.wf = true) ∧ (spnPhase s = SpnPhase.hold) ∧ (s.spn.phaseClock + 10000000 * getF s Reg.SPN_BRK 24 8 ≤ s.clock) ∧ (s.spn.after = .stopped))
    ∧ (
    let k : Nat := 0
    let s0 : State := State.reset
    let s0 : State := s0
    let s : State := let s0 : State := { s0 with clock := 10^12 + s0.clock }; let s0 : State := setF (s0) Reg.SPN_STS 0 4 SpnPhase.hold; modSpn s0 fun p => { p with after := .start, phaseClock := k }
    (s.wf = true) ∧ (spnPhase s = SpnPhase.hold) ∧ (s.spn.phaseClock + 10000000 * getF s Reg.SPN_BRK 24 8 ≤ s.clock) ∧ (s.spn.after = .start))
    ∧ (
    let k : Nat := 0
    let s0 : State := State.reset
    let s0 : State := s0
    let v : Word := BitVec.ofNat 32 (5400+k*117+2^14*k)
    let s : State := s0
    (s.wf = true) ∧ (5400 ≤ bitsOf v.toNat 0 14) ∧ (bitsOf v.toNat 0 14 ≤ 10000))
    ∧ (
    let k : Nat := 0
    let s0 : State := State.reset
    let s0 : State := s0
    let v : Word := BitVec.ofNat 32 (if k%2=0 then 5399-k else 10001+k)
    let s : State := s0
    (s.wf = true) ∧ (bitsOf v.toNat 0 14 < 5400 ∨ 10000 < bitsOf v.toNat 0 14)) := by
  repeat refine And.intro (by decide +kernel) ?_
  decide +kernel

/-- Hypotheses of WeirArbitratesCurrent hold together, of one clause after another. -/
theorem witness_weir_arbitrates_current :
    (
    let k : Nat := 0
    let s0 : State := State.reset
    let s0 : State := s0
    let v12 : Word := 0x41400000#32
    let i12 : Word := BitVec.ofNat 32 (0x3F000000+k*65536)
    let iph : Word := BitVec.ofNat 32 (0x3F000000+k*4096)
    let s : State := setF s0 Reg.SPN_STS 0 4 (k%11)
    (s.wf = true))
    ∧ (
    let k : Nat := 0
    let s0 : State := State.reset
    let s0 : State := s0
    let v12 : Word := 0x41400000#32
    let i12 : Word := BitVec.ofNat 32 (0x3F000000+k*65536)
    let iph : Word := BitVec.ofNat 32 (0x3F000000+k*4096)
    let s : State := setF s0 Reg.SPN_STS 0 4 (if k%4=0 then 0 else 7+k%3+1)
    (s.wf = true) ∧ (spnDriven (spnPhase s) = false) ∧ (spnPhase s ≠ SpnPhase.align))
    ∧ (
    let k : Nat := 0
    let s0 : State := State.reset
    let s0 : State := s0
    let s : State := let s0 : State := wrN s0 Reg.SPN_DUTY (k+1); modSpn s0 fun p => { p with cut := false }
    (s.wf = true) ∧ (getF s Reg.SPN_DUTY 0 10 ≠ 0) ∧ (s.spn.cut = false))
    ∧ (
    let k : Nat := 0
    let s0 : State := State.reset
    let s0 : State := s0
    let s : State := let s0 : State := s0; modSpn s0 fun p => { p with cut := true }
    (s.wf = true) ∧ (getF s Reg.SPN_DUTY 0 10 = 0 ∨ s.spn.cut = true))
    ∧ (
    let k : Nat := 0
    let s0 : State := State.reset
    let s0 : State := s0
    let s : State := let s0 : State := setBit s0 Reg.SPN_STS 10 false; modSpn s0 fun p => { p with below := 1020+k, demand := true }
    (s.wf = true) ∧ (s.spn.demand = true) ∧ (bit s Reg.SPN_STS 10 = false) ∧ (4 * getF s Reg.SPN_BRK 16 8 ≤ s.spn.below))
    ∧ (
    let k : Nat := 0
    let s0 : State := State.reset
    let s0 : State := s0
    let s : State := let s0 : State := s0; modSpn s0 fun p => { p with demand := false }
    (s.wf = true) ∧ (s.spn.demand = false ∨ s.spn.below < 4 * getF s Reg.SPN_BRK 16 8))
    ∧ (
    let k : Nat := 0
    let s0 : State := State.reset
    let s0 : State := s0
    let v : Word := BitVec.ofNat 32 (0x3F800000+k*4096)
    let s : State := s0
    (s.wf = true) ∧ (fpNonFinite v.toNat = false) ∧ (fpVal 0x3DCCCCCD ≤ fpVal v.toNat) ∧ (fpVal v.toNat ≤ 2))
    ∧ (
    let k : Nat := 0
    let s0 : State := State.reset
    let s0 : State := s0
    let v : Word := if k%3=0 then 0x7FC00000#32 else if k%3=1 then 0xBF800000#32 else 0x47000000#32
    let s : State := s0
    (s.wf = true) ∧ (fpNonFinite v.toNat = true ∨ fpVal v.toNat < fpVal 0x3DCCCCCD ∨ 2 < fpVal v.toNat))
    ∧ (
    let k : Nat := 0
    let s0 : State := State.reset
    let s0 : State := s0
    let v : Word := BitVec.ofNat 32 (0x3F800000+k*4096)
    let s : State := s0
    (s.wf = true) ∧ (fpNonFinite v.toNat = false) ∧ (1 / 2 ≤ fpVal v.toNat) ∧ (fpVal v.toNat ≤ 3))
    ∧ (
    let k : Nat := 0
    let s0 : State := State.reset
    let s0 : State := s0
    let v : Word := if k%3=0 then 0x7FC00000#32 else if k%3=1 then 0xBF800000#32 else 0x47000000#32
    let s : State := s0
    (s.wf = true) ∧ (fpNonFinite v.toNat = true ∨ fpVal v.toNat < 1 / 2 ∨ 3 < fpVal v.toNat))
    ∧ (
    let k : Nat := 0
    let s0 : State := State.reset
    let s0 : State := s0
    let v : Word := 0x41440000#32
    let s : State := s0
    (s.wf = true) ∧ (fpNonFinite v.toNat = false) ∧ (12 ≤ fpVal v.toNat) ∧ (fpVal v.toNat ≤ fpVal 0x414E6666))
    ∧ (
    let k : Nat := 0
    let s0 : State := State.reset
    let s0 : State := s0
    let v : Word := if k%3=0 then 0x7FC00000#32 else if k%3=1 then 0xBF800000#32 else 0x47000000#32
    let s : State := s0
    (s.wf = true) ∧ (fpNonFinite v.toNat = true ∨ fpVal v.toNat < 12 ∨ fpVal 0x414E6666 < fpVal v.toNat))
    ∧ (
    let k : Nat := 0
    let s0 : State := State.reset
    let s0 : State := s0
    let v : Word := BitVec.ofNat 32 (0x3F800000+k*4096)
    let s : State := s0
    (s.wf = true) ∧ (fpNonFinite v.toNat = false) ∧ (0 ≤ fpVal v.toNat) ∧ (fpVal v.toNat ≤ 2))
    ∧ (
    let k : Nat := 0
    let s0 : State := State.reset
    let s0 : State := s0
    let v : Word := if k%3=0 then 0x7FC00000#32 else if k%3=1 then 0xBF800000#32 else 0x47000000#32
    let s : State := s0
    (s.wf = true) ∧ (fpNonFinite v.toNat = true ∨ fpVal v.toNat < 0 ∨ 2 < fpVal v.toNat))
    ∧ (
    let k : Nat := 0
    let s0 : State := State.reset
    let s0 : State := s0
    let v : Word := BitVec.ofNat 32 (0x3F800000+k*4096)
    let s : State := s0
    (s.wf = true) ∧ (fpNonFinite v.toNat = false) ∧ (0 < fpVal v.toNat) ∧ (fpVal v.toNat ≤ 100))
    ∧ (
    let k : Nat := 0
    let s0 : State := State.reset
    let s0 : State := s0
    let v : Word := if k%3=0 then 0x7FC00000#32 else if k%3=1 then 0xBF800000#32 else 0x47000000#32
    let s : State := s0
    (s.wf = true) ∧ (fpNonFinite v.toNat = true ∨ fpVal v.toNat ≤ 0 ∨ 100 < fpVal v.toNat))
    ∧ (
    let k : Nat := 0
    let s0 : State := State.reset
    let s0 : State := s0
    let v : Word := BitVec.ofNat 32 (0x3F800000+k*4096)
    let s : State := s0
    (s.wf = true) ∧ (fpNonFinite v.toNat = false) ∧ (0 < fpVal v.toNat) ∧ (fpVal v.toNat ≤ 10000))
    ∧ (
    let k : Nat := 0
    let s0 : State := State.reset
    let s0 : State := s0
    let v : Word := if k%3=0 then 0x7FC00000#32 else if k%3=1 then 0xBF800000#32 else 0x47000000#32
    let s : State := s0
    (s.wf = true) ∧ (fpNonFinite v.toNat = true ∨ fpVal v.toNat ≤ 0 ∨ 10000 < fpVal v.toNat))
    ∧ (
    let k : Nat := 0
    let s0 : State := State.reset
    let s0 : State := s0
    let v : Word := BitVec.ofNat 32 (0x3F800000+k*4096)
    let s : State := s0
    (s.wf = true) ∧ (fpNonFinite v.toNat = false) ∧ (0 < fpVal v.toNat) ∧ (fpVal v.toNat ≤ 10000))
    ∧ (
    let k : Nat := 0
    let s0 : State := State.reset
    let s0 : State := s0
    let v : Word := if k%3=0 then 0x7FC00000#32 else if k%3=1 then 0xBF800000#32 else 0x47000000#32
    let s : State := s0
    (s.wf = true) ∧ (fpNonFinite v.toNat = true ∨ fpVal v.toNat ≤ 0 ∨ 10000 < fpVal v.toNat)) := by
  repeat refine And.intro (by decide +kernel) ?_
  decide +kernel

/-- Hypotheses of HostsConnectAndReset hold together, of one clause after another. -/
theorem witness_hosts_connect_and_reset :
    (
    let k : Nat := 0
    let s0 : State := State.reset
    let s0 : State := s0
    let a : BitVec 16 := 3#16
    let q : BitVec 16 := BitVec.ofNat 16 (k%2)
    let k : Fin 16384 := Fin.ofNat 16384 (5+k)
    let e : BitVec 512 := BitVec.ofNat 512 (0xFE + 2^16*k)
    let others : List (BitVec 16 × BitVec 16) := []
    let x : Assoc := asc0 [1, 5] true
    let st : Nat := 1
    let s : State := modNqe (withCmds (serving s0) [] [1, 5]) fun n => { n with turn := none }
    (s.wf = true) ∧ (assocAt s a.toNat = some x) ∧ (mayFetch s x (entryCmd s k a.toNat q.toNat e.toNat) = true) ∧ (inTurn s (others.map fun y => (y.1.toNat, y.2.toNat)) (entryCmd s k a.toNat q.toNat e.toNat) = true) ∧ (fetchStatus s x (entryCmd s k a.toNat q.toNat e.toNat) e.toNat = some st))
    ∧ (
    let k : Nat := 0
    let s0 : State := State.reset
    let s0 : State := s0
    let a : BitVec 16 := 3#16
    let q : BitVec 16 := 0#16
    let k : Fin 16384 := Fin.ofNat 16384 (5+k)
    let e : BitVec 512 := BitVec.ofNat 512 (6+2^16*k)
    let others : List (BitVec 16 × BitVec 16) := []
    let x : Assoc := asc0 [1, 5] true
    let s : State := modNqe (withCmds (serving s0) [] [1, 5]) fun n => { n with turn := none }
    (s.wf = true) ∧ (assocAt s a.toNat = some x) ∧ (mayFetch s x (entryCmd s k a.toNat q.toNat e.toNat) = true) ∧ (inTurn s (others.map fun y => (y.1.toNat, y.2.toNat)) (entryCmd s k a.toNat q.toNat e.toNat) = true) ∧ (fetchStatus s x (entryCmd s k a.toNat q.toNat e.toNat) e.toNat = none) ∧ ((entryCmd s k a.toNat q.toNat e.toNat).nvm = false))
    ∧ (
    let k : Nat := 0
    let s0 : State := State.reset
    let s0 : State := s0
    let a : BitVec 16 := 3#16
    let q : BitVec 16 := 1#16
    let k : Fin 16384 := Fin.ofNat 16384 (5+k)
    let e : BitVec 512 := BitVec.ofNat 512 (2 + 2^16*k + 2^32 + 2^320*(k*3) + 2^384*(k%9))
    let others : List (BitVec 16 × BitVec 16) := []
    let x : Assoc := asc0 [1, 5] true
    let s : State := let s0 := wr64 (setBit (withCmds (serving s0) [] [1, 5]) Reg.NQE_CTL 1 (k%2==0)) Reg.ZTB_CONVCAP (2^30); modNqe (setF s0 Reg.SYS_STS 0 6 0) fun n => { n with turn := none }
    (s.wf = true) ∧ (assocAt s a.toNat = some x) ∧ (mayFetch s x (entryCmd s k a.toNat q.toNat e.toNat) = true) ∧ (inTurn s (others.map fun y => (y.1.toNat, y.2.toNat)) (entryCmd s k a.toNat q.toNat e.toNat) = true) ∧ (fetchStatus s x (entryCmd s k a.toNat q.toNat e.toNat) e.toNat = none) ∧ ((entryCmd s k a.toNat q.toNat e.toNat).nvm = true))
    ∧ (
    let k : Nat := 0
    let s0 : State := State.reset
    let s0 : State := s0
    let a : BitVec 16 := BitVec.ofNat 16 (4+k)
    let q : BitVec 16 := 0#16
    let cid : BitVec 16 := BitVec.ofNat 16 (k*7)
    let host : BitVec 1784 := BitVec.ofNat 1784 (k+65)
    let kato : Word := BitVec.ofNat 32 (k*1001)
    let p : ConnectPath := ⟨0, if k%2=0 then .rdma else .tcp, 5#128, 4420#16, false, 31#16, true, false⟩
    let s : State := modNqe (serving (setBit (setBit { s0 with noi := { s0.noi with domains := [((0x1003, 0), 0, List.replicate 15 0 ++ [5, 64, 0, 3, 0])] } } (Reg.ETH_STS 0) 0 true) (Reg.ETH_CTL 0) 0 true)) fun n => { n with cmds := [], assocs := [asc0 [1, 5] true] }
    (s.wf = true) ∧ (hostServed s = true) ∧ (pathOpen s p = true) ∧ (hostAllowed s host.toNat = true) ∧ (p.sqsize.toNat < queueEntries q.toNat) ∧ (q.toNat = 0) ∧ (assocAt s a.toNat = none) ∧ (s.nqe.assocs.length < 4096))
    ∧ (
    let k : Nat := 0
    let s0 : State := State.reset
    let s0 : State := s0
    let a : BitVec 16 := 3#16
    let q : BitVec 16 := BitVec.ofNat 16 (6+k)
    let cid : BitVec 16 := BitVec.ofNat 16 (k*7)
    let host : BitVec 1784 := BitVec.ofNat 1784 (k+65)
    let kato : Word := BitVec.ofNat 32 (k*1001)
    let p : ConnectPath := ⟨0, if k%2=0 then .rdma else .tcp, 5#128, 4420#16, false, 31#16, true, false⟩
    let x : Assoc := asc0 [1, 5] true
    let s : State := wrN (modNqe (serving (setBit (setBit { s0 with noi := { s0.noi with domains := [((0x1003, 0), 0, List.replicate 15 0 ++ [5, 64, 0, 3, 0])] } } (Reg.ETH_STS 0) 0 true) (Reg.ETH_CTL 0) 0 true)) fun n => { n with cmds := [], assocs := [asc0 [1, 5] true] }) Reg.NQE_QPUSE (k*2)
    (s.wf = true) ∧ (hostServed s = true) ∧ (pathOpen s p = true) ∧ (hostAllowed s host.toNat = true) ∧ (p.sqsize.toNat < queueEntries q.toNat) ∧ (q.toNat ≠ 0) ∧ (assocAt s a.toNat = some x) ∧ (x.queues.contains q.toNat = false) ∧ (x.discovery = false) ∧ (p.discovery = false) ∧ (getF s Reg.NQE_QPUSE 0 16 < 32768) ∧ (x.queues.length < 1024))
    ∧ (
    let k : Nat := 0
    let s0 : State := State.reset
    let s0 : State := s0
    let a : BitVec 16 := 3#16
    let q : BitVec 16 := BitVec.ofNat 16 (6+k)
    let cid : BitVec 16 := BitVec.ofNat 16 (k*7)
    let host : BitVec 1784 := BitVec.ofNat 1784 (k+65)
    let kato : Word := BitVec.ofNat 32 (k*1001)
    let p : ConnectPath := ⟨0, if k%2=0 then .rdma else .tcp, 5#128, 4420#16, false, 31#16, true, false⟩
    let s : State := modNqe (serving (setBit (setBit { s0 with noi := { s0.noi with domains := [((0x1103, 1), 0, [66, 67, 0]), ((0x1003, 0), 0, List.replicate 15 0 ++ [5, 64, 0, 3, 0])] } } (Reg.ETH_STS 0) 0 true) (Reg.ETH_CTL 0) 0 true)) fun n => { n with cmds := [], assocs := [asc0 [1, 5] true] }
    (s.wf = true) ∧ (hostServed s = true) ∧ (pathOpen s p = true) ∧ (hostAllowed s host.toNat = false))
    ∧ (
    let k : Nat := 0
    let s0 : State := State.reset
    let s0 : State := s0
    let a : BitVec 16 := 3#16
    let q : BitVec 16 := BitVec.ofNat 16 (k%3*6)
    let cid : BitVec 16 := BitVec.ofNat 16 (k*7)
    let host : BitVec 1784 := BitVec.ofNat 1784 (k+65)
    let kato : Word := BitVec.ofNat 32 (k*1001)
    let p : ConnectPath := ⟨0, if k%2=0 then .rdma else .tcp, 5#128, 4420#16, false, BitVec.ofNat 16 (4096+k), true, false⟩
    let s : State := modNqe (serving (setBit (setBit { s0 with noi := { s0.noi with domains := [((0x1003, 0), 0, List.replicate 15 0 ++ [5, 64, 0, 3, 0])] } } (Reg.ETH_STS 0) 0 true) (Reg.ETH_CTL 0) 0 true)) fun n => { n with cmds := [], assocs := [asc0 [1, 5] true] }
    (s.wf = true) ∧ (hostServed s = true) ∧ (pathOpen s p = true) ∧ (hostAllowed s host.toNat = true) ∧ (queueEntries q.toNat ≤ p.sqsize.toNat))
    ∧ (
    let k : Nat := 0
    let s0 : State := State.reset
    let s0 : State := s0
    let k : Fin 16384 := Fin.ofNat 16384 (k % 7)
    let c : HostCmd := cmd0 (k % 7) (0) (AdminOp.fabrics) (0) (0) (0) .firmware (FcType.propertyGet) (Cprop.cc + 2^40*k)
    let x : Assoc := asc0 [1, 5] true
    let s : State := withCmds (serving s0) [c] [1, 5]
    (s.wf = true) ∧ (FabricsHas s k FcType.propertyGet c) ∧ (assocAt s c.assoc = some x) ∧ (bitsOf c.arg2 0 32 = Cprop.cc))
    ∧ (
    let k : Nat := 0
    let s0 : State := State.reset
    let s0 : State := s0
    let k : Fin 16384 := Fin.ofNat 16384 (k % 7)
    let c : HostCmd := cmd0 (k % 7) (0) (AdminOp.fabrics) (0) (0) (0) .firmware (FcType.propertyGet) (Cprop.csts)
    let x : Assoc := asc0 [1, 5] true
    let s : State := withCmds (serving s0) [c] [1, 5]
    (s.wf = true) ∧ (FabricsHas s k FcType.propertyGet c) ∧ (assocAt s c.assoc = some x) ∧ (bitsOf c.arg2 0 32 = Cprop.csts))
    ∧ (
    let k : Nat := 0
    let s0 : State := State.reset
    let s0 : State := s0
    let k : Fin 16384 := Fin.ofNat 16384 (k % 7)
    let c : HostCmd := cmd0 (k % 7) (0) (AdminOp.fabrics) (0) (0) (0) .firmware (FcType.propertyGet) (0)
    let x : Assoc := asc0 [1, 5] true
    let s : State := withCmds (serving s0) [c] [1, 5]
    (s.wf = true) ∧ (FabricsHas s k FcType.propertyGet c) ∧ (assocAt s c.assoc = some x) ∧ (bitsOf c.arg2 0 32 = Cprop.cap))
    ∧ (
    let k : Nat := 0
    let s0 : State := State.reset
    let s0 : State := s0
    let k : Fin 16384 := Fin.ofNat 16384 (k % 7)
    let c : HostCmd := cmd0 (k % 7) (0) (AdminOp.fabrics) (0) (0) (0) .firmware (FcType.propertySet) (Cprop.cc + 2^32*(1+4*k))
    let x : Assoc := { asc0 [1, 5] true with en := false }
    let s : State := modAssoc 3 (fun y => { y with en := false }) (withCmds (serving s0) [c] [1, 5])
    (s.wf = true) ∧ (FabricsHas s k FcType.propertySet c) ∧ (assocAt s c.assoc = some x) ∧ (x.en = false) ∧ (bitsOf c.arg2 0 32 = Cprop.cc) ∧ (c.arg2.testBit 32 = true) ∧ (bitsOf c.arg2 46 2 = 0))
    ∧ (
    let k : Nat := 0
    let s0 : State := State.reset
    let s0 : State := s0
    let k : Fin 16384 := Fin.ofNat 16384 (k % 7)
    let c : HostCmd := cmd0 (k % 7) (0) (AdminOp.fabrics) (0) (0) (0) .firmware (FcType.propertySet) (Cprop.cc + 2^32*(4*k))
    let x : Assoc := asc0 [1, 5] true
    let s : State := withCmds (serving s0) [c] [1, 5]
    (s.wf = true) ∧ (FabricsHas s k FcType.propertySet c) ∧ (assocAt s c.assoc = some x) ∧ (x.en = true) ∧ (bitsOf c.arg2 0 32 = Cprop.cc) ∧ (c.arg2.testBit 32 = false) ∧ (bitsOf c.arg2 46 2 = 0) ∧ (bit s Reg.NQE_FWACT 0 = false))
    ∧ (
    let k : Nat := 0
    let s0 : State := State.reset
    let s0 : State := s0
    let k : Fin 16384 := Fin.ofNat 16384 (k % 7)
    let c : HostCmd := cmd0 (k % 7) (0) (AdminOp.fabrics) (0) (0) (0) .firmware (FcType.propertySet) (0x24)
    let x : Assoc := asc0 [1, 5] true
    let s : State := withCmds (serving s0) [c] [1, 5]
    (s.wf = true) ∧ (FabricsHas s k FcType.propertySet c) ∧ (assocAt s c.assoc = some x) ∧ (bitsOf c.arg2 0 32 ≠ Cprop.cc) ∧ (bitsOf c.arg2 0 32 ≠ Cprop.nssr))
    ∧ (
    let k : Nat := 0
    let s0 : State := State.reset
    let s0 : State := s0
    let k : Fin 16384 := Fin.ofNat 16384 (k % 7)
    let c : HostCmd := cmd0 (k % 7) (1) (AdminOp.fabrics) (0) (0) (0) .firmware (FcType.disconnect) (0)
    let x : Assoc := asc0 [1, 5] true
    let s : State := wrN (withCmds (serving s0) [c] [1, 5]) Reg.NQE_QPUSE (k*2+1)
    (s.wf = true) ∧ (FabricsHas s k FcType.disconnect c) ∧ (assocAt s c.assoc = some x) ∧ (c.sqid ≠ 0) ∧ (x.queues.contains c.sqid = true))
    ∧ (
    let k : Nat := 0
    let s0 : State := State.reset
    let s0 : State := s0
    let k : Fin 16384 := Fin.ofNat 16384 (k % 7)
    let c : HostCmd := cmd0 (k % 7) (0) (AdminOp.fabrics) (0) (0) (0) .firmware (FcType.disconnect) (0)
    let x : Assoc := asc0 [1, 5] true
    let s : State := withCmds (serving s0) [c] [1, 5]
    (s.wf = true) ∧ (FabricsHas s k FcType.disconnect c) ∧ (assocAt s c.assoc = some x) ∧ (c.sqid = 0) ∧ (bit s Reg.NQE_FWACT 0 = false))
    ∧ (
    let k : Nat := 0
    let s0 : State := State.reset
    let s0 : State := s0
    let k : Fin 16384 := Fin.ofNat 16384 (k % 7)
    let c : HostCmd := cmd0 (k % 7) (0) (AdminOp.fabrics) (0) (0) (0) .firmware (FcType.authSend) (0)
    let x : Assoc := asc0 [1, 5] true
    let hs : List AuthHash := [.sha384, .sha256].take (k%3)
    let gs : List AuthGroup := [.ffdhe3072]
    let s : State := withCmds (serving s0) [c] [1, 5]
    (s.wf = true) ∧ (FabricsHas s k FcType.authSend c) ∧ (assocAt s c.assoc = some x))
    ∧ (
    let k : Nat := 0
    let s0 : State := State.reset
    let s0 : State := s0
    let k : Fin 16384 := Fin.ofNat 16384 (k % 7)
    let c : HostCmd := cmd0 (k % 7) (0) (AdminOp.fabrics) (0) (0) (0) .firmware (FcType.authSend) (0)
    let x : Assoc := asc0 [1, 5] true
    let ok : Bool := k%2==0
    let s : State := withCmds (serving s0) [c] [1, 5]
    (s.wf = true) ∧ (FabricsHas s k FcType.authSend c) ∧ (assocAt s c.assoc = some x))
    ∧ (
    let k : Nat := 0
    let s0 : State := State.reset
    let s0 : State := s0
    let k : Fin 16384 := Fin.ofNat 16384 (k % 7)
    let c : HostCmd := cmd0 (k % 7) (0) (AdminOp.fabrics) (0) (0) (0) .firmware (FcType.authSend) (0)
    let x : Assoc := asc0 [1, 5] true
    let s : State := withCmds (serving s0) [c] [1, 5]
    (s.wf = true) ∧ (FabricsHas s k FcType.authSend c) ∧ (assocAt s c.assoc = some x))
    ∧ (
    let k : Nat := 0
    let s0 : State := State.reset
    let s0 : State := s0
    let k : Fin 16384 := Fin.ofNat 16384 (k % 7)
    let c : HostCmd := cmd0 (k % 7) (0) (AdminOp.fabrics) (0) (0) (0) .firmware (FcType.authReceive) (0)
    let s : State := withCmds (serving s0) [c] [1, 5]
    (s.wf = true) ∧ (FabricsHas s k FcType.authReceive c))
    ∧ (
    let k : Nat := 0
    let s0 : State := State.reset
    let s0 : State := s0
    let a : BitVec 16 := 3#16
    let x : Assoc := asc0 [1, 5] true
    let s : State := wrN (withCmds (serving s0) [cmd0 1 0 6 0 0 0 .firmware 0 0, cmd0 2 1 2 1 77 3 .media 0 0, { cmd0 3 5 1 1 7 2 .media 0 0 with assoc := 4 }] [1, 5]) Reg.NQE_QPUSE (k+2)
    (s.wf = true) ∧ (assocAt s a.toNat = some x) ∧ (bit s Reg.NQE_FWACT 0 = false))
    ∧ (
    let k : Nat := 0
    let s0 : State := State.reset
    let s0 : State := s0
    let a : BitVec 16 := 3#16
    let x : Assoc := asc0 [1, 5] true
    let s : State := setBit (withCmds (serving s0) [cmd0 1 0 6 0 0 0 .firmware 0 0, cmd0 2 1 2 1 77 3 .media 0 0, { cmd0 3 5 1 1 7 2 .media 0 0 with assoc := 4 }] [1, 5]) Reg.NQE_FWACT 0 true
    (s.wf = true) ∧ (assocAt s a.toNat = some x) ∧ (bit s Reg.NQE_FWACT 0 = true))
    ∧ (
    let k : Nat := 0
    let s0 : State := State.reset
    let s0 : State := s0
    let a : BitVec 16 := 3#16
    let x : Assoc := asc0 [1, 5] true
    let s : State := wrN (withCmds (serving s0) [cmd0 1 0 6 0 0 0 .firmware 0 0, cmd0 2 1 2 1 77 3 .media 0 0, { cmd0 3 5 1 1 7 2 .media 0 0 with assoc := 4 }] [1, 5]) Reg.NQE_ASUSE (k+2)
    (s.wf = true) ∧ (assocAt s a.toNat = some x) ∧ (bit s Reg.NQE_FWACT 0 = false))
    ∧ (
    let k : Nat := 0
    let s0 : State := State.reset
    let s0 : State := s0
    let a : BitVec 16 := 3#16
    let x : Assoc := { asc0 [1, 5] true with kato := 1 }
    let s : State := let s0 := wrN (withCmds (serving s0) [cmd0 1 0 6 0 0 0 .firmware 0 0, cmd0 2 1 2 1 77 3 .media 0 0, { cmd0 3 5 1 1 7 2 .media 0 0 with assoc := 4 }] [1, 5]) Reg.NQE_ASUSE (k+2); modAssoc 3 (fun y => { y with kato := 1 }) { s0 with clock := 1000000000+k }
    (s.wf = true) ∧ (assocAt s a.toNat = some x) ∧ (bit s Reg.NQE_FWACT 0 = false) ∧ (x.kato ≠ 0) ∧ (x.kaClock + 1000000000 * x.kato ≤ s.clock))
    ∧ (
    let k : Nat := 0
    let s0 : State := State.reset
    let s0 : State := s0
    let a : BitVec 16 := 3#16
    let x : Assoc := asc0 [1, 5] true
    let s : State := withCmds (serving s0) [cmd0 1 0 6 0 0 0 .firmware 0 0, cmd0 2 1 2 1 77 3 .media 0 0, { cmd0 3 5 1 1 7 2 .media 0 0 with assoc := 4 }] [1, 5]
    (s.wf = true) ∧ (assocAt s a.toNat = some x) ∧ (x.kato = 0 ∨ s.clock < x.kaClock + 1000000000 * x.kato))
    ∧ (
    let k : Nat := 0
    let s0 : State := State.reset
    let s0 : State := s0
    let k : Fin 16384 := Fin.ofNat 16384 (k % 7)
    let c : HostCmd := cmd0 (k % 7) (0) (AdminOp.keepAlive) (0) (0) (0) .firmware (0) (0)
    let x : Assoc := asc0 [1, 5] true
    let s : State := withCmds (serving s0) [c] [1, 5]
    (s.wf = true) ∧ (FirmwareHas s k AdminOp.keepAlive c) ∧ (assocAt s c.assoc = some x))
    ∧ (
    let k : Nat := 0
    let s0 : State := State.reset
    let s0 : State := s0
    let a : BitVec 16 := 3#16
    let x : Assoc := asc0 [1, 5] true
    let s : State := withCmds (serving s0) [cmd0 1 0 6 0 0 0 .firmware 0 0, cmd0 2 1 2 1 77 3 .media 0 0, { cmd0 3 5 1 1 7 2 .media 0 0 with assoc := 4 }] [1, 5]
    (s.wf = true) ∧ (assocAt s a.toNat = some x) ∧ (mayReset s = true) ∧ (s.sys.resetRank = none)) := by
  repeat refine And.intro (by decide +kernel) ?_
  decide +kernel

/-- Hypotheses of FeaturesAreSetAndRead hold together, of one clause after another. -/
theorem witness_features_are_set_and_read :
    (
    let k : Nat := 0
    let s0 : State := State.reset
    let s0 : State := s0
    let k : Fin 16384 := Fin.ofNat 16384 (k % 7)
    let c : HostCmd := cmd0 (k % 7) (0) (AdminOp.identify) (1+k%2) (0) (0) .firmware (256*k) (0)
    let s : State := withCmds (serving s0) [c] [1, 5]
    (s.wf = true) ∧ (FirmwareHas s k AdminOp.identify c) ∧ (c.arg % 256 = 0) ∧ (c.nsid = 1 ∨ c.nsid = 2))
    ∧ (
    let k : Nat := 0
    let s0 : State := State.reset
    let s0 : State := s0
    let k : Fin 16384 := Fin.ofNat 16384 (k % 7)
    let c : HostCmd := cmd0 (k % 7) (0) (AdminOp.identify) (0) (0) (0) .firmware (1+256*k) (0)
    let s : State := withCmds (serving s0) [c] [1, 5]
    (s.wf = true) ∧ (FirmwareHas s k AdminOp.identify c) ∧ (c.arg % 256 = 1))
    ∧ (
    let k : Nat := 0
    let s0 : State := State.reset
    let s0 : State := s0
    let k : Fin 16384 := Fin.ofNat 16384 (k % 7)
    let c : HostCmd := cmd0 (k % 7) (0) (AdminOp.identify) (k%3) (0) (0) .firmware (2+256*k) (0)
    let s : State := withCmds (serving s0) [c] [1, 5]
    (s.wf = true) ∧ (FirmwareHas s k AdminOp.identify c) ∧ (c.arg % 256 = 2))
    ∧ (
    let k : Nat := 0
    let s0 : State := State.reset
    let s0 : State := s0
    let k : Fin 16384 := Fin.ofNat 16384 (k % 7)
    let c : HostCmd := cmd0 (k % 7) (0) (AdminOp.identify) (2) (0) (0) .firmware (5) (2^25)
    let s : State := withCmds (serving s0) [c] [1, 5]
    (s.wf = true) ∧ (FirmwareHas s k AdminOp.identify c) ∧ (c.arg % 256 = 5) ∧ (bitsOf c.arg2 24 8 = 2) ∧ (c.nsid = 2))
    ∧ (
    let k : Nat := 0
    let s0 : State := State.reset
    let s0 : State := s0
    let k : Fin 16384 := Fin.ofNat 16384 (k % 7)
    let c : HostCmd := cmd0 (k % 7) (0) (AdminOp.identify) (3+k) (0) (0) .firmware (0) (0)
    let s : State := withCmds (serving s0) [c] [1, 5]
    (s.wf = true) ∧ (FirmwareHas s k AdminOp.identify c) ∧ (identifyBadNs (c.arg % 256) (bitsOf c.arg2 24 8) c.nsid = true))
    ∧ (
    let k : Nat := 0
    let s0 : State := State.reset
    let s0 : State := s0
    let k : Fin 16384 := Fin.ofNat 16384 (k % 7)
    let c : HostCmd := cmd0 (k % 7) (0) (AdminOp.getLog) (0) (0) (0) .firmware (k%3+1) (0)
    let d : HostData := ((logData (withCmds (serving s0) [c] [1, 5]) c (c.arg % 256))).getD (.zasl 0)
    let s : State := withCmds (serving s0) [c] [1, 5]
    (s.wf = true) ∧ (FirmwareHas s k AdminOp.getLog c) ∧ (logData s c (c.arg % 256) = some d))
    ∧ (
    let k : Nat := 0
    let s0 : State := State.reset
    let s0 : State := s0
    let k : Fin 16384 := Fin.ofNat 16384 (k % 7)
    let c : HostCmd := cmd0 (k % 7) (0) (AdminOp.getLog) (0) (0) (0) .firmware (if k%2=0 then 0x70 else 0x82) (0)
    let s : State := withCmds (serving s0) [c] [1, 5]
    (s.wf = true) ∧ (FirmwareHas s k AdminOp.getLog c) ∧ (logData s c (c.arg % 256) = none))
    ∧ (
    let k : Nat := 0
    let s0 : State := State.reset
    let s0 : State := s0
    let k : Fin 16384 := Fin.ofNat 16384 (k % 7)
    let c : HostCmd := cmd0 (k % 7) (0) (AdminOp.setFeatures) (0) (0) (0) .firmware (Feature.arbitration + 2^10*k) (k*3)
    let s : State := withCmds (serving s0) [c] [1, 5]
    (s.wf = true) ∧ (FirmwareHas s k AdminOp.setFeatures c) ∧ (c.arg % 256 = Feature.arbitration))
    ∧ (
    let k : Nat := 0
    let s0 : State := State.reset
    let s0 : State := s0
    let k : Fin 16384 := Fin.ofNat 16384 (k % 7)
    let c : HostCmd := cmd0 (k % 7) (0) (AdminOp.setFeatures) (0) (0) (0) .firmware (Feature.power + 2^10*k) (k%5+32)
    let s : State := withCmds (serving s0) [c] [1, 5]
    (s.wf = true) ∧ (FirmwareHas s k AdminOp.setFeatures c) ∧ (c.arg % 256 = Feature.power) ∧ (bitsOf c.arg2 0 5 ≤ 4))
    ∧ (
    let k : Nat := 0
    let s0 : State := State.reset
    let s0 : State := s0
    let k : Fin 16384 := Fin.ofNat 16384 (k % 7)
    let c : HostCmd := cmd0 (k % 7) (0) (AdminOp.setFeatures) (0) (0) (0) .firmware (Feature.power + 2^10*k) (k%5+5)
    let s : State := withCmds (serving s0) [c] [1, 5]
    (s.wf = true) ∧ (FirmwareHas s k AdminOp.setFeatures c) ∧ (c.arg % 256 = Feature.power) ∧ (4 < bitsOf c.arg2 0 5))
    ∧ (
    let k : Nat := 0
    let s0 : State := State.reset
    let s0 : State := s0
    let k : Fin 16384 := Fin.ofNat 16384 (k % 7)
    let c : HostCmd := cmd0 (k % 7) (0) (AdminOp.setFeatures) (0) (0) (0) .firmware (Feature.temperature + 2^10*k) (k*331)
    let s : State := withCmds (serving s0) [c] [1, 5]
    (s.wf = true) ∧ (FirmwareHas s k AdminOp.setFeatures c) ∧ (c.arg % 256 = Feature.temperature) ∧ (bitsOf c.arg2 20 2 = 0))
    ∧ (
    let k : Nat := 0
    let s0 : State := State.reset
    let s0 : State := s0
    let k : Fin 16384 := Fin.ofNat 16384 (k % 7)
    let c : HostCmd := cmd0 (k % 7) (0) (AdminOp.setFeatures) (0) (0) (0) .firmware (Feature.temperature + 2^10*k) (2^20*(1+k%3))
    let s : State := withCmds (serving s0) [c] [1, 5]
    (s.wf = true) ∧ (FirmwareHas s k AdminOp.setFeatures c) ∧ (c.arg % 256 = Feature.temperature) ∧ (bitsOf c.arg2 20 2 ≠ 0))
    ∧ (
    let k : Nat := 0
    let s0 : State := State.reset
    let s0 : State := s0
    let k : Fin 16384 := Fin.ofNat 16384 (k % 7)
    let c : HostCmd := cmd0 (k % 7) (0) (AdminOp.setFeatures) (0) (0) (0) .firmware (Feature.errorRecovery + 2^10*k) (k*777+2^16)
    let s : State := withCmds (serving s0) [c] [1, 5]
    (s.wf = true) ∧ (FirmwareHas s k AdminOp.setFeatures c) ∧ (c.arg % 256 = Feature.errorRecovery))
    ∧ (
    let k : Nat := 0
    let s0 : State := State.reset
    let s0 : State := s0
    let k : Fin 16384 := Fin.ofNat 16384 (k % 7)
    let c : HostCmd := cmd0 (k % 7) (0) (AdminOp.setFeatures) (0) (0) (0) .firmware (Feature.queues + 2^10*k) (k*77+2^16*(k*40))
    let x : Assoc := asc0 [1, 5] true
    let s : State := withCmds (serving s0) [c] [1, 5]
    (s.wf = true) ∧ (FirmwareHas s k AdminOp.setFeatures c) ∧ (c.arg % 256 = Feature.queues) ∧ (assocAt s c.assoc = some x))
    ∧ (
    let k : Nat := 0
    let s0 : State := State.reset
    let s0 : State := s0
    let k : Fin 16384 := Fin.ofNat 16384 (k % 7)
    let c : HostCmd := cmd0 (k % 7) (0) (AdminOp.setFeatures) (0) (0) (0) .firmware (Feature.asyncEvents + 2^10*k) (k*7)
    let x : Assoc := asc0 [1, 5] true
    let s : State := withCmds (serving s0) [c] [1, 5]
    (s.wf = true) ∧ (FirmwareHas s k AdminOp.setFeatures c) ∧ (c.arg % 256 = Feature.asyncEvents) ∧ (assocAt s c.assoc = some x))
    ∧ (
    let k : Nat := 0
    let s0 : State := State.reset
    let s0 : State := s0
    let k : Fin 16384 := Fin.ofNat 16384 (k % 7)
    let c : HostCmd := cmd0 (k % 7) (0) (AdminOp.setFeatures) (0) (0) (0) .firmware (Feature.keepAlive + 2^10*k) (k*700)
    let x : Assoc := asc0 [1, 5] true
    let s : State := withCmds (serving s0) [c] [1, 5]
    (s.wf = true) ∧ (FirmwareHas s k AdminOp.setFeatures c) ∧ (c.arg % 256 = Feature.keepAlive) ∧ (assocAt s c.assoc = some x))
    ∧ (
    let k : Nat := 0
    let s0 : State := State.reset
    let s0 : State := s0
    let k : Fin 16384 := Fin.ofNat 16384 (k % 7)
    let c : HostCmd := cmd0 (k % 7) (0) (AdminOp.getFeatures) (0) (0) (0) .firmware (Feature.arbitration) (0)
    let x : Assoc := asc0 [1, 5] true
    let s : State := withCmds (serving s0) [c] [1, 5]
    (s.wf = true) ∧ (FirmwareHas s k AdminOp.getFeatures c) ∧ (assocAt s c.assoc = some x) ∧ (c.arg % 256 = Feature.arbitration))
    ∧ (
    let k : Nat := 0
    let s0 : State := State.reset
    let s0 : State := s0
    let k : Fin 16384 := Fin.ofNat 16384 (k % 7)
    let c : HostCmd := cmd0 (k % 7) (0) (AdminOp.getFeatures) (0) (0) (0) .firmware (Feature.power) (0)
    let x : Assoc := asc0 [1, 5] true
    let s : State := withCmds (serving s0) [c] [1, 5]
    (s.wf = true) ∧ (FirmwareHas s k AdminOp.getFeatures c) ∧ (assocAt s c.assoc = some x) ∧ (c.arg % 256 = Feature.power))
    ∧ (
    let k : Nat := 0
    let s0 : State := State.reset
    let s0 : State := s0
    let k : Fin 16384 := Fin.ofNat 16384 (k % 7)
    let c : HostCmd := cmd0 (k % 7) (0) (AdminOp.getFeatures) (0) (0) (0) .firmware (Feature.temperature) (0)
    let x : Assoc := asc0 [1, 5] true
    let s : State := withCmds (serving s0) [c] [1, 5]
    (s.wf = true) ∧ (FirmwareHas s k AdminOp.getFeatures c) ∧ (assocAt s c.assoc = some x) ∧ (c.arg % 256 = Feature.temperature))
    ∧ (
    let k : Nat := 0
    let s0 : State := State.reset
    let s0 : State := s0
    let k : Fin 16384 := Fin.ofNat 16384 (k % 7)
    let c : HostCmd := cmd0 (k % 7) (0) (AdminOp.getFeatures) (0) (0) (0) .firmware (Feature.errorRecovery) (0)
    let x : Assoc := asc0 [1, 5] true
    let s : State := withCmds (serving s0) [c] [1, 5]
    (s.wf = true) ∧ (FirmwareHas s k AdminOp.getFeatures c) ∧ (assocAt s c.assoc = some x) ∧ (c.arg % 256 = Feature.errorRecovery))
    ∧ (
    let k : Nat := 0
    let s0 : State := State.reset
    let s0 : State := s0
    let k : Fin 16384 := Fin.ofNat 16384 (k % 7)
    let c : HostCmd := cmd0 (k % 7) (0) (AdminOp.getFeatures) (0) (0) (0) .firmware (Feature.keepAlive) (0)
    let x : Assoc := asc0 [1, 5] true
    let s : State := withCmds (serving s0) [c] [1, 5]
    (s.wf = true) ∧ (FirmwareHas s k AdminOp.getFeatures c) ∧ (assocAt s c.assoc = some x) ∧ (c.arg % 256 = Feature.keepAlive))
    ∧ (
    let k : Nat := 0
    let s0 : State := State.reset
    let s0 : State := s0
    let k : Fin 16384 := Fin.ofNat 16384 (k % 7)
    let c : HostCmd := cmd0 (k % 7) (0) (AdminOp.getFeatures) (0) (0) (0) .firmware (Feature.asyncEvents) (0)
    let x : Assoc := asc0 [1, 5] true
    let s : State := withCmds (serving s0) [c] [1, 5]
    (s.wf = true) ∧ (FirmwareHas s k AdminOp.getFeatures c) ∧ (assocAt s c.assoc = some x) ∧ (c.arg % 256 = Feature.asyncEvents))
    ∧ (
    let k : Nat := 0
    let s0 : State := State.reset
    let s0 : State := s0
    let k : Fin 16384 := Fin.ofNat 16384 (k % 7)
    let c : HostCmd := cmd0 (k % 7) (0) (AdminOp.asyncEvent) (0) (0) (0) .firmware (0) (0)
    let s : State := withCmds (serving s0) [c] [1, 5]
    (s.wf = true) ∧ (FirmwareHas s k AdminOp.asyncEvent c))
    ∧ (
    let k : Nat := 0
    let s0 : State := State.reset
    let s0 : State := s0
    let k : Fin 16384 := Fin.ofNat 16384 (k % 7)
    let c : HostCmd := cmd0 (k % 7) (0) (AdminOp.asyncEvent) (0) (0) (0) .firmware (0) (0)
    let v : Word := BitVec.ofNat 32 (k*0x10101)
    let s : State := withCmds (serving s0) [c] [1, 5]
    (s.wf = true) ∧ (FirmwareHas s k AdminOp.asyncEvent c))
    ∧ (
    let k : Nat := 0
    let s0 : State := State.reset
    let s0 : State := s0
    let s : State := let s0 := setF (setBit (modNqe (withCmds (serving s0) [] [1, 5]) fun n => { n with psWant := true, psEntry := none }) Reg.CAL_STS 0 false) Reg.NQE_PSCUR 4 3 (k%5); s0
    (s.wf = true) ∧ (s.nqe.psWant = true) ∧ (s.nqe.psEntry = none) ∧ (s.nqe.sanitize = none) ∧ (s.nqe.cmds.any HostCmd.media = false) ∧ (runsMode (mode s) = true) ∧ (bit s Reg.CAL_STS 0 = false))
    ∧ (
    let k : Nat := 0
    let s0 : State := State.reset
    let s0 : State := s0
    let s : State := modNqe s0 fun n => { n with psWant := false }
    (s.wf = true) ∧ (s.nqe.psWant = false ∨ s.nqe.cmds.any HostCmd.media = true)) := by
  repeat refine And.intro (by decide +kernel) ?_
  decide +kernel

/-- Hypotheses of AbortsImagesAndSanitize hold together, of one clause after another. -/
theorem witness_aborts_images_and_sanitize :
    (
    let k : Nat := 0
    let s0 : State := State.reset
    let s0 : State := s0
    let k : Fin 16384 := Fin.ofNat 16384 (k % 7)
    let c : HostCmd := cmd0 (k % 7) (0) (AdminOp.abort) (0) (0) (0) .firmware (1 + 2^16*64) (0)
    let d : HostCmd := cmd0 9 1 1 1 77 3 .fetched 0 0
    let s : State := modNqe (withCmds (serving s0) [c, d] [1, 5]) fun n => { n with posted := [] }
    (s.wf = true) ∧ (FirmwareHas s k AdminOp.abort c) ∧ ((s.nqe.cmds.find? fun e => e.assoc == c.assoc && e.sqid == c.arg % 65536 && e.cid == c.arg / 65536 && e.slot != k.val) = some d) ∧ (catchable s d = true))
    ∧ (
    let k : Nat := 0
    let s0 : State := State.reset
    let s0 : State := s0
    let k : Fin 16384 := Fin.ofNat 16384 (k % 7)
    let c : HostCmd := cmd0 (k % 7) (0) (AdminOp.abort) (0) (0) (0) .firmware (1 + 2^16*64) (0)
    let d : HostCmd := cmd0 9 1 1 1 77 3 .firmware 0 0
    let s : State := withCmds (serving s0) [c, d] [1, 5]
    (s.wf = true) ∧ (FirmwareHas s k AdminOp.abort c) ∧ ((s.nqe.cmds.find? fun e => e.assoc == c.assoc && e.sqid == c.arg % 65536 && e.cid == c.arg / 65536 && e.slot != k.val) = some d) ∧ (catchable s d = false))
    ∧ (
    let k : Nat := 0
    let s0 : State := State.reset
    let s0 : State := s0
    let k : Fin 16384 := Fin.ofNat 16384 (k % 7)
    let c : HostCmd := cmd0 (k % 7) (0) (AdminOp.abort) (0) (0) (0) .firmware (1 + 2^16*64) (0)
    let s : State := withCmds (serving s0) [c] [1, 5]
    (s.wf = true) ∧ (FirmwareHas s k AdminOp.abort c) ∧ ((s.nqe.cmds.any fun e => e.assoc == c.assoc && e.sqid == c.arg % 65536 && e.cid == c.arg / 65536 && e.slot != k.val) = false))
    ∧ (
    let k : Nat := 0
    let s0 : State := State.reset
    let s0 : State := s0
    let k : Fin 16384 := Fin.ofNat 16384 (k % 7)
    let c : HostCmd := cmd0 (k % 7) (0) (AdminOp.deleteSq) (0) (0) (0) .firmware (1+4*(k%2)) (0)
    let x : Assoc := asc0 [1, 5] true
    let s : State := withCmds (serving s0) [c] [1, 5]
    (s.wf = true) ∧ (FirmwareHas s k AdminOp.deleteSq c) ∧ (assocAt s c.assoc = some x) ∧ (x.queues.contains (c.arg % 65536) = true) ∧ ((s.nqe.cmds.any fun e => e.assoc == c.assoc && e.sqid == c.arg % 65536) = false))
    ∧ (
    let k : Nat := 0
    let s0 : State := State.reset
    let s0 : State := s0
    let k : Fin 16384 := Fin.ofNat 16384 (k % 7)
    let c : HostCmd := cmd0 (k % 7) (0) (AdminOp.deleteSq) (0) (0) (0) .firmware (1) (0)
    let x : Assoc := asc0 [1, 5] true
    let d : HostCmd := cmd0 9 1 1 1 77 3 .firmware 0 0
    let s : State := withCmds (serving s0) [c, d] [1, 5]
    (s.wf = true) ∧ (FirmwareHas s k AdminOp.deleteSq c) ∧ (assocAt s c.assoc = some x) ∧ (x.queues.contains (c.arg % 65536) = true) ∧ (d.assoc = c.assoc) ∧ (d.sqid = c.arg % 65536) ∧ (d.sqid ≠ 0) ∧ (s.nqe.cmds = [c, d]) ∧ (catchable s d = false))
    ∧ (
    let k : Nat := 0
    let s0 : State := State.reset
    let s0 : State := s0
    let k : Fin 16384 := Fin.ofNat 16384 (k % 7)
    let c : HostCmd := cmd0 (k % 7) (0) (AdminOp.deleteSq) (0) (0) (0) .firmware (7) (0)
    let x : Assoc := asc0 [1, 5] true
    let s : State := withCmds (serving s0) [c] [1, 5]
    (s.wf = true) ∧ (FirmwareHas s k AdminOp.deleteSq c) ∧ (assocAt s c.assoc = some x) ∧ (x.queues.contains (c.arg % 65536) = false))
    ∧ (
    let k : Nat := 0
    let s0 : State := State.reset
    let s0 : State := s0
    let k : Fin 16384 := Fin.ofNat 16384 (k % 7)
    let c : HostCmd := cmd0 (k % 7) (0) (AdminOp.download) (0) (0) (0) .firmware (1023) (1024*k)
    let data : List Byte := List.replicate 4096 (BitVec.ofNat 8 k)
    let s : State := withCmds (serving s0) [c] [1, 5]
    (s.wf = true) ∧ (FirmwareHas s k AdminOp.download c) ∧ (4 * (c.arg + 1) % 4096 = 0) ∧ (4 * c.arg2 % 4096 = 0) ∧ (4 * (c.arg + 1) ≤ 2 ^ 21) ∧ (data.length = 4 * (c.arg + 1)))
    ∧ (
    let k : Nat := 0
    let s0 : State := State.reset
    let s0 : State := s0
    let k : Fin 16384 := Fin.ofNat 16384 (k % 7)
    let c : HostCmd := cmd0 (k % 7) (0) (AdminOp.download) (0) (0) (0) .firmware (1023) (1024*k+1)
    let data : List Byte := []
    let s : State := withCmds (serving s0) [c] [1, 5]
    (s.wf = true) ∧ (FirmwareHas s k AdminOp.download c) ∧ (4 * (c.arg + 1) % 4096 ≠ 0 ∨ 4 * c.arg2 % 4096 ≠ 0 ∨ 2 ^ 21 < 4 * (c.arg + 1)))
    ∧ (
    let k : Nat := 0
    let s0 : State := State.reset
    let s0 : State := s0
    let k : Fin 16384 := Fin.ofNat 16384 (k % 7)
    let c : HostCmd := cmd0 (k % 7) (0) (AdminOp.commit) (0) (0) (0) .firmware (8*1 + k%4) (0)
    let s : State := withCmds (serving s0) [c] [1, 5]
    (s.wf = true) ∧ (FirmwareHas s k AdminOp.commit c) ∧ (bitsOf c.arg 3 3 = 1))
    ∧ (
    let k : Nat := 0
    let s0 : State := State.reset
    let s0 : State := s0
    let k : Fin 16384 := Fin.ofNat 16384 (k % 7)
    let c : HostCmd := cmd0 (k % 7) (0) (AdminOp.commit) (0) (0) (0) .firmware (8*2 + k%4) (0)
    let s : State := withCmds (serving s0) [c] [1, 5]
    (s.wf = true) ∧ (FirmwareHas s k AdminOp.commit c) ∧ (bitsOf c.arg 3 3 = 2))
    ∧ (
    let k : Nat := 0
    let s0 : State := State.reset
    let s0 : State := s0
    let k : Fin 16384 := Fin.ofNat 16384 (k % 7)
    let c : HostCmd := cmd0 (k % 7) (0) (AdminOp.commit) (0) (0) (0) .firmware (8*3 + k%4) (0)
    let s : State := let s0 : State := withCmds (serving s0) [c] [1, 5]; setF (modNqe s0 fun n => { n with psEntry := none }) Reg.SYS_MODE 0 4 Mode.standby
    (s.wf = true) ∧ (FirmwareHas s k AdminOp.commit c) ∧ (bitsOf c.arg 3 3 = 3) ∧ (mayActivate s = true))
    ∧ (
    let k : Nat := 0
    let s0 : State := State.reset
    let s0 : State := s0
    let n : Nat := k%2
    let old : Nat := 1-k%2
    let k : Nat := 4
    let c : HostCmd := cmd0 4 0 16 0 0 0 .firmware 24 0
    let s : State := let s0 : State := { withCmds (serving s0) [c] [] with nand := (List.range 64).map (fun i => (i, 0#8)) ++ (List.range 64).map fun i => (0x04000000 + i, 0#8) }; setF (setF (modNqe s0 fun m => { m with activating := some (n, old, k), delayed := [] }) Reg.SYS_MODE 0 4 Mode.update) Reg.SYS_MODE 16 4 Mode.standby
    (s.wf = true) ∧ (s.nqe.activating = some (n, old, k)) ∧ (cmdAt s k = some c) ∧ (mode s = Mode.update))
    ∧ (
    let k : Nat := 0
    let s0 : State := State.reset
    let s0 : State := s0
    let s : State := modNqe (serving { s0 with tsq := if k%2=0 then State.reset.tsq else s0.tsq }) fun n => { n with activating := none }
    (s.wf = true) ∧ (bit s Reg.NQE_FWACT 0 = false) ∧ (s.nqe.activating = none))
    ∧ (
    let k : Nat := 0
    let s0 : State := State.reset
    let s0 : State := s0
    let s : State := let s0 := modNqe (serving s0) fun n => { n with activating := none }; setBit s0 Reg.NQE_FWACT 0 true
    (s.wf = true) ∧ (bit s Reg.NQE_FWACT 0 = true) ∧ (s.nqe.activating = none))
    ∧ (
    let k : Nat := 0
    let s0 : State := State.reset
    let s0 : State := s0
    let k : Fin 16384 := Fin.ofNat 16384 (k % 7)
    let c : HostCmd := cmd0 (k % 7) (0) (AdminOp.sanitize) (0) (0) (0) .firmware (1 + 0) (0x12345678)
    let s : State := modNqe (withCmds (serving s0) [c] [1, 5]) fun n => { n with sanFailed := true, sanAuse := true }
    (s.wf = true) ∧ (FirmwareHas s k AdminOp.sanitize c) ∧ (bitsOf c.arg 0 3 = SanAct.exitFailure) ∧ (s.nqe.sanFailed = false ∨ s.nqe.sanAuse = true))
    ∧ (
    let k : Nat := 0
    let s0 : State := State.reset
    let s0 : State := s0
    let k : Fin 16384 := Fin.ofNat 16384 (k % 7)
    let c : HostCmd := cmd0 (k % 7) (0) (AdminOp.sanitize) (0) (0) (0) .firmware (1 + 0) (0x12345678)
    let s : State := modNqe (withCmds (serving s0) [c] [1, 5]) fun n => { n with sanFailed := true, sanAuse := false }
    (s.wf = true) ∧ (FirmwareHas s k AdminOp.sanitize c) ∧ (bitsOf c.arg 0 3 = SanAct.exitFailure) ∧ (s.nqe.sanFailed = true) ∧ (s.nqe.sanAuse = false))
    ∧ (
    let k : Nat := 0
    let s0 : State := State.reset
    let s0 : State := s0
    let k : Fin 16384 := Fin.ofNat 16384 (k % 7)
    let c : HostCmd := cmd0 (k % 7) (0) (AdminOp.sanitize) (0) (0) (0) .firmware (2 + 0) (0x12345678)
    let s : State := withCmds (serving s0) [c] [1, 5]
    (s.wf = true) ∧ (FirmwareHas s k AdminOp.sanitize c) ∧ (bitsOf c.arg 0 3 = SanAct.blockErase))
    ∧ (
    let k : Nat := 0
    let s0 : State := State.reset
    let s0 : State := s0
    let k : Fin 16384 := Fin.ofNat 16384 (k % 7)
    let c : HostCmd := cmd0 (k % 7) (0) (AdminOp.sanitize) (0) (0) (0) .firmware (4 + 8*(k%2)) (0x12345678)
    let s : State := let s0 : State := withCmds (serving s0) [c] [1, 5]; wrN s0 Reg.ZTB_NZONE 3
    (s.wf = true) ∧ (FirmwareHas s k AdminOp.sanitize c) ∧ (bitsOf c.arg 0 3 = SanAct.cryptoErase))
    ∧ (
    let k : Nat := 0
    let s0 : State := State.reset
    let s0 : State := s0
    let k : Fin 16384 := Fin.ofNat 16384 (k % 7)
    let c : HostCmd := cmd0 (k % 7) (0) (AdminOp.sanitize) (0) (0) (0) .firmware (3 + 16*(k%16)+256*(k%2)) (0x12345678)
    let s : State := let s0 : State := withCmds (serving s0) [c] [1, 5]; wrN s0 Reg.ZTB_NZONE 3
    (s.wf = true) ∧ (FirmwareHas s k AdminOp.sanitize c) ∧ (bitsOf c.arg 0 3 = SanAct.overwrite))
    ∧ (
    let k : Nat := 0
    let s0 : State := State.reset
    let s0 : State := s0
    let k : Fin 16384 := 0
    let x : Sanitize := ⟨k%3, 7, k%2==0, k%4==1⟩
    let s : State := setF (modNqe (wrN s0 Reg.ZTB_NZONE 3) fun n => { n with sanitize := some x }) Reg.SYS_MODE 0 4 5
    (s.wf = true) ∧ (s.nqe.sanitize = some x))
    ∧ (
    let k : Nat := 0
    let s0 : State := State.reset
    let s0 : State := s0
    let k : Fin 16384 := 0
    let x : Sanitize := ⟨0, 7, k%2==0, true⟩
    let s : State := setF (modNqe (wrN s0 Reg.ZTB_NZONE 3) fun n => { n with sanitize := some x }) Reg.SYS_MODE 0 4 Mode.ready
    (s.wf = true) ∧ (s.nqe.sanitize = some x) ∧ (atMode s Mode.ready = true) ∧ (x.passes = 0) ∧ (x.erased = true))
    ∧ (
    let k : Nat := 0
    let s0 : State := State.reset
    let s0 : State := s0
    let k : Fin 16384 := 0
    let x : Sanitize := ⟨k%3, 7, k%2==0, k%4==1⟩
    let s : State := setF (modNqe (wrN s0 Reg.ZTB_NZONE 3) fun n => { n with sanitize := some x }) Reg.SYS_MODE 0 4 5
    (s.wf = true) ∧ (s.nqe.sanitize = some x))
    ∧ (
    let k : Nat := 0
    let s0 : State := State.reset
    let s0 : State := s0
    let k : Fin 16384 := 0
    let x : Sanitize := ⟨0, 7, k%2==0, true⟩
    let s : State := setF (modNqe (wrN s0 Reg.ZTB_NZONE 3) fun n => { n with sanitize := some x }) Reg.SYS_MODE 0 4 Mode.ready
    (s.wf = true) ∧ (s.nqe.sanitize = some x) ∧ (atMode s Mode.ready = true) ∧ (x.passes = 0) ∧ (x.erased = true))
    ∧ (
    let k : Nat := 0
    let s0 : State := State.reset
    let s0 : State := s0
    let k : Fin 16384 := 0
    let x : Sanitize := ⟨k%3+1, 7*k, k%2==0, false⟩
    let s : State := setF (modNqe (wrN s0 Reg.ZTB_NZONE 3) fun n => { n with sanitize := some x }) Reg.SYS_MODE 0 4 Mode.ready
    (s.wf = true) ∧ (s.nqe.sanitize = some x) ∧ (atMode s Mode.ready = true) ∧ (0 < x.passes))
    ∧ (
    let k : Nat := 0
    let s0 : State := State.reset
    let s0 : State := s0
    let v : DWord := BitVec.ofNat 64 (5 + 2^16*(k*3) + 2^27*(k%2) + 2^32*(k*17))
    let c : HostCmd := cmd0 5 1 2 1 0 1 .firmware 0 0
    let s : State := withCmds (serving s0) [c] [1]
    (s.wf = true) ∧ (cmdAt s (bitsOf v.toNat 0 14) = some c) ∧ (c.phase = .firmware))
    ∧ (
    let k : Nat := 0
    let s0 : State := State.reset
    let s0 : State := s0
    let v : DWord := BitVec.ofNat 64 (k*99)
    let s : State := withCmds s0 [] [1]
    (s.wf = true) ∧ (cmdAt s (bitsOf v.toNat 0 14) = none))
    ∧ (
    let k : Nat := 0
    let s0 : State := State.reset
    let s0 : State := s0
    let e : Nat × Nat := (k, 1+k%5)
    let l : List (Nat × Nat) := [(3, 2)]
    let s : State := modNqe s0 fun n => { n with exq := e :: l }
    (s.wf = true) ∧ (s.nqe.exq = e :: l))
    ∧ (
    let k : Nat := 0
    let s0 : State := State.reset
    let s0 : State := s0
    let s : State := modNqe s0 fun n => { n with exq := [] }
    (s.wf = true) ∧ (s.nqe.exq = [])) := by
  repeat refine And.intro (by decide +kernel) ?_
  decide +kernel

/-- Hypotheses of IoCommandsBegin hold together, of one clause after another. -/
theorem witness_io_commands_begin :
    (
    let k : Nat := 0
    let s0 : State := State.reset
    let n : Fin 16384 := Fin.ofNat 16384 (k % 7)
    let c : HostCmd := cmd0 (k % 7) 1 2 1 (k*5) (1 + k % 4) .fetched 0 0
    let s0 : State := s0
    let c : HostCmd := { c with opcode := IoOp.read }
    let s : State := let c := { c with opcode := IoOp.read }; setF (setF (withCmds (serving s0) [c] [1]) Reg.SYS_MODE 0 4 Mode.ready) Reg.SYS_STS 0 6 0
    (s.wf = true) ∧ (EngineHas s n IoOp.read c) ∧ (c.nsid = 1) ∧ (c.nlb ≠ 0) ∧ (placeStatus s c = none) ∧ (atMode s Mode.ready = true))
    ∧ (
    let k : Nat := 0
    let s0 : State := State.reset
    let n : Fin 16384 := Fin.ofNat 16384 (k % 7)
    let c : HostCmd := cmd0 (k % 7) 1 2 1 (k*5) (1 + k % 4) .fetched 0 0
    let s0 : State := s0
    let c : HostCmd := { c with opcode := IoOp.verify }
    let s : State := let c := { c with opcode := IoOp.verify }; setF (setF (withCmds (serving s0) [c] [1]) Reg.SYS_MODE 0 4 Mode.ready) Reg.SYS_STS 0 6 0
    (s.wf = true) ∧ (EngineHas s n IoOp.verify c) ∧ (c.nsid = 1) ∧ (c.nlb ≠ 0) ∧ (placeStatus s c = none) ∧ (atMode s Mode.ready = true))
    ∧ (
    let k : Nat := 0
    let s0 : State := State.reset
    let n : Fin 16384 := Fin.ofNat 16384 (k % 7)
    let c : HostCmd := cmd0 (k % 7) 1 2 1 (k*5) (1 + k % 4) .fetched 0 0
    let s0 : State := s0
    let c : HostCmd := { c with nsid := 2 }
    let s : State := let c := { c with nsid := 2 }; wrN (setF (setF (withCmds (serving s0) [c] [1]) Reg.SYS_MODE 0 4 Mode.ready) Reg.SYS_STS 0 6 0) Reg.ZTB_NZONE 16
    (s.wf = true) ∧ (EngineHas s n IoOp.read c) ∧ (c.nsid = 2) ∧ (((List.range c.nlb).all fun i => !onMedium s 2 (c.slba + i)) = true) ∧ ((cmdZones s c).any (resetPends s) = false) ∧ (placeStatus s c = none) ∧ (atMode s Mode.ready = true))
    ∧ (
    let k : Nat := 0
    let s0 : State := State.reset
    let n : Fin 16384 := Fin.ofNat 16384 (k % 7)
    let c : HostCmd := cmd0 (k % 7) 1 2 1 (k*5) (1 + k % 4) .fetched 0 0
    let s0 : State := s0
    let c : HostCmd := { c with opcode := IoOp.read, nsid := 2 }
    let st : Nat := Status.zoneOffline
    let s : State := let c := { c with opcode := IoOp.read, nsid := 2 }; setZoneState 0 zOffline (wrN (setF (setF (withCmds (serving s0) [c] [1]) Reg.SYS_MODE 0 4 Mode.ready) Reg.SYS_STS 0 6 0) Reg.ZTB_NZONE 16)
    (s.wf = true) ∧ (EngineHas s n IoOp.read c) ∧ (placeStatus s c = some st))
    ∧ (
    let k : Nat := 0
    let s0 : State := State.reset
    let n : Fin 16384 := Fin.ofNat 16384 (k % 7)
    let c : HostCmd := cmd0 (k % 7) 1 2 1 (k*5) (1 + k % 4) .fetched 0 0
    let s0 : State := s0
    let c : HostCmd := { c with opcode := IoOp.verify, nsid := 2 }
    let st : Nat := Status.zoneOffline
    let s : State := let c := { c with opcode := IoOp.verify, nsid := 2 }; setZoneState 0 zOffline (wrN (setF (setF (withCmds (serving s0) [c] [1]) Reg.SYS_MODE 0 4 Mode.ready) Reg.SYS_STS 0 6 0) Reg.ZTB_NZONE 16)
    (s.wf = true) ∧ (EngineHas s n IoOp.verify c) ∧ (placeStatus s c = some st))
    ∧ (
    let k : Nat := 0
    let s0 : State := State.reset
    let n : Fin 16384 := Fin.ofNat 16384 (k % 7)
    let c : HostCmd := cmd0 (k % 7) 1 2 1 (k*5) (1 + k % 4) .fetched 0 0
    let s0 : State := s0
    let c : HostCmd := { c with opcode := IoOp.compare, nsid := 2 }
    let st : Nat := Status.zoneOffline
    let s : State := let c := { c with opcode := IoOp.compare, nsid := 2 }; setZoneState 0 zOffline (wrN (setF (setF (withCmds (serving s0) [c] [1]) Reg.SYS_MODE 0 4 Mode.ready) Reg.SYS_STS 0 6 0) Reg.ZTB_NZONE 16)
    (s.wf = true) ∧ (EngineHas s n IoOp.compare c) ∧ (placeStatus s c = some st))
    ∧ (
    let k : Nat := 0
    let s0 : State := State.reset
    let n : Fin 16384 := Fin.ofNat 16384 (k % 7)
    let c : HostCmd := cmd0 (k % 7) 1 2 1 (k*5) (1 + k % 4) .fetched 0 0
    let s0 : State := s0
    let c : HostCmd := { c with opcode := IoOp.compare }
    let s : State := let c := { c with opcode := IoOp.compare }; setF (setF (withCmds (serving s0) [c] [1]) Reg.SYS_MODE 0 4 Mode.ready) Reg.SYS_STS 0 6 0
    (s.wf = true) ∧ (EngineHas s n IoOp.compare c) ∧ (placeStatus s c = none) ∧ (atMode s Mode.ready = true))
    ∧ (
    let k : Nat := 0
    let s0 : State := State.reset
    let n : Fin 16384 := Fin.ofNat 16384 (k % 7)
    let c : HostCmd := cmd0 (k % 7) 1 2 1 (k*5) (1 + k % 4) .fetched 0 0
    let s0 : State := s0
    let c : HostCmd := { c with opcode := IoOp.zoneReceive, nsid := 2 }
    let s : State := let c := { c with opcode := IoOp.zoneReceive, nsid := 2 }; setF (setF (withCmds (serving s0) [c] [1]) Reg.SYS_MODE 0 4 Mode.ready) Reg.SYS_STS 0 6 0
    (s.wf = true) ∧ (EngineHas s n IoOp.zoneReceive c))
    ∧ (
    let k : Nat := 0
    let s0 : State := State.reset
    let n : Fin 16384 := Fin.ofNat 16384 (k % 7)
    let c : HostCmd := cmd0 (k % 7) 1 2 1 (k*5) (1 + k % 4) .fetched 0 0
    let s0 : State := s0
    let c : HostCmd := { c with opcode := IoOp.zoneReceive, nsid := 2, phase := .firmware, slba := 0, arg := k%2, arg2 := 200 }
    let s : State := let c := { c with opcode := IoOp.zoneReceive, nsid := 2, phase := .firmware, slba := 0, arg := k%2, arg2 := 200 }; wrN (setF (setF (withCmds (serving s0) [c] [1]) Reg.SYS_MODE 0 4 Mode.ready) Reg.SYS_STS 0 6 0) Reg.ZTB_NZONE 3
    (s.wf = true) ∧ (cmdAt s n = some c) ∧ (c.phase = .firmware) ∧ (c.nvm = true) ∧ (c.opcode = IoOp.zoneReceive))
    ∧ (
    let k : Nat := 0
    let s0 : State := State.reset
    let n : Fin 16384 := Fin.ofNat 16384 (k % 7)
    let c : HostCmd := cmd0 (k % 7) 1 2 1 (k*5) (1 + k % 4) .fetched 0 0
    let s0 : State := s0
    let c : HostCmd := { c with opcode := IoOp.write, nsid := 2, slba := 0 }
    let bufs : List (Fin 94208) := (List.range c.nlb).map fun i => Fin.ofNat 94208 (40 + i)
    let s : State := let c := { c with opcode := IoOp.write, nsid := 2, slba := 0 }; let s0 : State := wrN (modZtb (setF (setF (withCmds (serving s0) [c] [1]) Reg.SYS_MODE 0 4 Mode.ready) Reg.SYS_STS 0 6 0) fun z => { z with zones := [], conv := [] }) Reg.ZTB_NZONE 16; let s0 := { s0 with cis := { s0.cis with owners := [] } }; let s0 := bufs.foldl (fun u b => { u with cis := { u.cis with owners := sput ownerDflt u.cis.owners b.val Owner.netrx } }) s0; s0
    (s.wf = true) ∧ (EngineHas s n IoOp.write c) ∧ (c.nsid = 2) ∧ ((workAt s (zoneOfLba s c.slba)).repair = false) ∧ (writeStatus s c (zoneOfLba s c.slba) = none) ∧ (zTailu s (zoneOfLba s c.slba) = false) ∧ (bufsOk s c (bufs.map Fin.val) = true) ∧ (placeStatus s c = none) ∧ (atMode s Mode.ready = true))
    ∧ (
    let k : Nat := 0
    let s0 : State := State.reset
    let n : Fin 16384 := Fin.ofNat 16384 (k % 7)
    let c : HostCmd := cmd0 (k % 7) 1 2 1 (k*5) (1 + k % 4) .fetched 0 0
    let s0 : State := s0
    let c : HostCmd := { c with opcode := IoOp.write, nsid := 2, slba := 0 }
    let bufs : List (Fin 94208) := (List.range c.nlb).map fun i => Fin.ofNat 94208 (40 + i)
    let st : Nat := Status.zoneFull
    let s : State := let c := { c with opcode := IoOp.write, nsid := 2, slba := 0 }; let s0 : State := wrN (modZtb (setF (setF (withCmds (serving s0) [c] [1]) Reg.SYS_MODE 0 4 Mode.ready) Reg.SYS_STS 0 6 0) fun z => { z with zones := [], conv := [] }) Reg.ZTB_NZONE 16; setZoneState 0 zFull s0
    (s.wf = true) ∧ (EngineHas s n IoOp.write c) ∧ (c.nsid = 2) ∧ ((workAt s (zoneOfLba s c.slba)).repair = false) ∧ (writeStatus s c (zoneOfLba s c.slba) = some st) ∧ (placeStatus s c = none) ∧ (atMode s Mode.ready = true))
    ∧ (
    let k : Nat := 0
    let s0 : State := State.reset
    let n : Fin 16384 := Fin.ofNat 16384 (k % 7)
    let c : HostCmd := cmd0 (k % 7) 1 2 1 (k*5) (1 + k % 4) .fetched 0 0
    let s0 : State := s0
    let c : HostCmd := { c with opcode := IoOp.write, nsid := 1 }
    let bufs : List (Fin 94208) := (List.range c.nlb).map fun i => Fin.ofNat 94208 (40 + i)
    let s : State := let c := { c with opcode := IoOp.write, nsid := 1 }; let s0 : State := wrN (modZtb (setF (setF (withCmds (serving s0) [c] [1]) Reg.SYS_MODE 0 4 Mode.ready) Reg.SYS_STS 0 6 0) fun z => { z with zones := [], conv := [] }) Reg.ZTB_NZONE 16; let s0 := { s0 with cis := { s0.cis with owners := [] } }; let s0 := bufs.foldl (fun u b => { u with cis := { u.cis with owners := sput ownerDflt u.cis.owners b.val Owner.netrx } }) s0; s0
    (s.wf = true) ∧ (EngineHas s n IoOp.write c) ∧ (c.nsid = 1) ∧ (bufsOk s c (bufs.map Fin.val) = true) ∧ (placeStatus s c = none) ∧ (atMode s Mode.ready = true))
    ∧ (
    let k : Nat := 0
    let s0 : State := State.reset
    let n : Fin 16384 := Fin.ofNat 16384 (k % 7)
    let c : HostCmd := cmd0 (k % 7) 1 2 1 (k*5) (1 + k % 4) .fetched 0 0
    let s0 : State := s0
    let c : HostCmd := { c with opcode := IoOp.zoneAppend, nsid := 2, slba := 0 }
    let bufs : List (Fin 94208) := (List.range c.nlb).map fun i => Fin.ofNat 94208 (40 + i)
    let s : State := let c := { c with opcode := IoOp.zoneAppend, nsid := 2, slba := 0 }; let s0 : State := wrN (modZtb (setF (setF (withCmds (serving s0) [c] [1]) Reg.SYS_MODE 0 4 Mode.ready) Reg.SYS_STS 0 6 0) fun z => { z with zones := [], conv := [] }) Reg.ZTB_NZONE 16; let s0 := { s0 with cis := { s0.cis with owners := [] } }; let s0 := bufs.foldl (fun u b => { u with cis := { u.cis with owners := sput ownerDflt u.cis.owners b.val Owner.netrx } }) s0; s0
    (s.wf = true) ∧ (EngineHas s n IoOp.zoneAppend c) ∧ (c.nsid = 2) ∧ ((workAt s (zoneOfLba s c.slba)).repair = false) ∧ (writeStatus s c (zoneOfLba s c.slba) = none) ∧ (zTailu s (zoneOfLba s c.slba) = false) ∧ (bufsOk s c (bufs.map Fin.val) = true) ∧ (placeStatus s c = none) ∧ (atMode s Mode.ready = true))
    ∧ (
    let k : Nat := 0
    let s0 : State := State.reset
    let n : Fin 16384 := Fin.ofNat 16384 (k % 7)
    let c : HostCmd := cmd0 (k % 7) 1 2 1 (k*5) (1 + k % 4) .fetched 0 0
    let s0 : State := s0
    let c : HostCmd := { c with opcode := IoOp.zoneAppend, nsid := 2, slba := 0 }
    let bufs : List (Fin 94208) := (List.range c.nlb).map fun i => Fin.ofNat 94208 (40 + i)
    let st : Nat := Status.zoneFull
    let s : State := let c := { c with opcode := IoOp.zoneAppend, nsid := 2, slba := 0 }; let s0 : State := wrN (modZtb (setF (setF (withCmds (serving s0) [c] [1]) Reg.SYS_MODE 0 4 Mode.ready) Reg.SYS_STS 0 6 0) fun z => { z with zones := [], conv := [] }) Reg.ZTB_NZONE 16; setZoneState 0 zFull s0
    (s.wf = true) ∧ (EngineHas s n IoOp.zoneAppend c) ∧ (c.nsid = 2) ∧ ((workAt s (zoneOfLba s c.slba)).repair = false) ∧ (writeStatus s c (zoneOfLba s c.slba) = some st) ∧ (placeStatus s c = none) ∧ (atMode s Mode.ready = true))
    ∧ (
    let k : Nat := 0
    let s0 : State := State.reset
    let n : Fin 16384 := Fin.ofNat 16384 (k % 7)
    let c : HostCmd := cmd0 (k % 7) 1 2 1 (k*5) (1 + k % 4) .fetched 0 0
    let s0 : State := s0
    let c : HostCmd := { c with opcode := IoOp.writeZeroes, nsid := 2, slba := 0 }
    let bufs : List (Fin 94208) := (List.range c.nlb).map fun i => Fin.ofNat 94208 (40 + i)
    let s : State := let c := { c with opcode := IoOp.writeZeroes, nsid := 2, slba := 0 }; let s0 : State := wrN (modZtb (setF (setF (withCmds (serving s0) [c] [1]) Reg.SYS_MODE 0 4 Mode.ready) Reg.SYS_STS 0 6 0) fun z => { z with zones := [], conv := [] }) Reg.ZTB_NZONE 16; let s0 := { s0 with cis := { s0.cis with owners := [] } }; let s0 := bufs.foldl (fun u b => { u with cis := { u.cis with owners := sput ownerDflt u.cis.owners b.val Owner.retain } }) s0; s0
    (s.wf = true) ∧ (EngineHas s n IoOp.writeZeroes c) ∧ (c.nsid = 2) ∧ ((workAt s (zoneOfLba s c.slba)).repair = false) ∧ (writeStatus s c (zoneOfLba s c.slba) = none) ∧ (zTailu s (zoneOfLba s c.slba) = false) ∧ (bufsOk s c (bufs.map Fin.val) = true) ∧ (placeStatus s c = none) ∧ (atMode s Mode.ready = true))
    ∧ (
    let k : Nat := 0
    let s0 : State := State.reset
    let n : Fin 16384 := Fin.ofNat 16384 (k % 7)
    let c : HostCmd := cmd0 (k % 7) 1 2 1 (k*5) (1 + k % 4) .fetched 0 0
    let s0 : State := s0
    let c : HostCmd := { c with opcode := IoOp.writeZeroes, nsid := 2, slba := 0 }
    let bufs : List (Fin 94208) := (List.range c.nlb).map fun i => Fin.ofNat 94208 (40 + i)
    let st : Nat := Status.zoneFull
    let s : State := let c := { c with opcode := IoOp.writeZeroes, nsid := 2, slba := 0 }; let s0 : State := wrN (modZtb (setF (setF (withCmds (serving s0) [c] [1]) Reg.SYS_MODE 0 4 Mode.ready) Reg.SYS_STS 0 6 0) fun z => { z with zones := [], conv := [] }) Reg.ZTB_NZONE 16; setZoneState 0 zFull s0
    (s.wf = true) ∧ (EngineHas s n IoOp.writeZeroes c) ∧ (c.nsid = 2) ∧ ((workAt s (zoneOfLba s c.slba)).repair = false) ∧ (writeStatus s c (zoneOfLba s c.slba) = some st) ∧ (placeStatus s c = none) ∧ (atMode s Mode.ready = true))
    ∧ (
    let k : Nat := 0
    let s0 : State := State.reset
    let n : Fin 16384 := Fin.ofNat 16384 (k % 7)
    let c : HostCmd := cmd0 (k % 7) 1 2 1 (k*5) (1 + k % 4) .fetched 0 0
    let s0 : State := s0
    let c : HostCmd := { c with opcode := IoOp.writeZeroes, nsid := 1 }
    let bufs : List (Fin 94208) := (List.range c.nlb).map fun i => Fin.ofNat 94208 (40 + i)
    let s : State := let c := { c with opcode := IoOp.writeZeroes, nsid := 1 }; let s0 : State := wrN (modZtb (setF (setF (withCmds (serving s0) [c] [1]) Reg.SYS_MODE 0 4 Mode.ready) Reg.SYS_STS 0 6 0) fun z => { z with zones := [], conv := [] }) Reg.ZTB_NZONE 16; let s0 := { s0 with cis := { s0.cis with owners := [] } }; let s0 := bufs.foldl (fun u b => { u with cis := { u.cis with owners := sput ownerDflt u.cis.owners b.val Owner.retain } }) s0; s0
    (s.wf = true) ∧ (EngineHas s n IoOp.writeZeroes c) ∧ (c.nsid = 1) ∧ (bufsOk s c (bufs.map Fin.val) = true) ∧ (placeStatus s c = none) ∧ (atMode s Mode.ready = true))
    ∧ (
    let k : Nat := 0
    let s0 : State := State.reset
    let n : Fin 16384 := Fin.ofNat 16384 (k % 7)
    let c : HostCmd := cmd0 (k % 7) 1 2 1 (k*5) (1 + k % 4) .fetched 0 0
    let s0 : State := s0
    let c : HostCmd := { c with opcode := IoOp.flush }
    let s : State := let c := { c with opcode := IoOp.flush }; setF (setF (withCmds (serving s0) [c] [1]) Reg.SYS_MODE 0 4 Mode.ready) Reg.SYS_STS 0 6 0
    (s.wf = true) ∧ (EngineHas s n IoOp.flush c) ∧ (c.left = []))
    ∧ (
    let k : Nat := 0
    let s0 : State := State.reset
    let n : Fin 16384 := Fin.ofNat 16384 (k % 7)
    let c : HostCmd := cmd0 (k % 7) 1 2 1 (k*5) (1 + k % 4) .fetched 0 0
    let s0 : State := s0
    let c : HostCmd := { c with opcode := IoOp.flush, left := [9] }
    let s : State := let c := { c with opcode := IoOp.flush, left := [9] }; setF (setF (withCmds (serving s0) [c] [1]) Reg.SYS_MODE 0 4 Mode.ready) Reg.SYS_STS 0 6 0
    (s.wf = true) ∧ (EngineHas s n IoOp.flush c) ∧ (c.left ≠ []))
    ∧ (
    let k : Nat := 0
    let s0 : State := State.reset
    let n : Fin 16384 := Fin.ofNat 16384 (k % 7)
    let c : HostCmd := cmd0 (k % 7) 1 2 1 (k*5) (1 + k % 4) .fetched 0 0
    let s0 : State := s0
    let c : HostCmd := { c with opcode := IoOp.zoneSend, nsid := 2, slba := 0, arg := 3, nlb := 0 }
    let st : Nat := 0
    let s : State := let c := { c with opcode := IoOp.zoneSend, nsid := 2, slba := 0, arg := 3, nlb := 0 }; let s0 : State := wrN (modZtb (setF (setF (withCmds (serving s0) [c] [1]) Reg.SYS_MODE 0 4 Mode.ready) Reg.SYS_STS 0 6 0) fun z => { z with zones := [], conv := [] }) Reg.ZTB_NZONE 16; setZoneState 0 zExpOpen s0
    (s.wf = true) ∧ (cmdAt s n = some c ∧ c.nvm = true ∧ c.opcode = IoOp.zoneSend ∧ c.phase ≠ .firmware ∧ engineRuns s = true ∧ atMode s Mode.ready = true) ∧ (c.action = ZAct.openZ) ∧ (c.selectAll = false) ∧ (actStatus s c (zoneOfLba s c.slba) = some st))
    ∧ (
    let k : Nat := 0
    let s0 : State := State.reset
    let n : Fin 16384 := Fin.ofNat 16384 (k % 7)
    let c : HostCmd := cmd0 (k % 7) 1 2 1 (k*5) (1 + k % 4) .fetched 0 0
    let s0 : State := s0
    let c : HostCmd := { c with opcode := IoOp.zoneSend, nsid := 2, slba := 0, arg := 3, nlb := 0 }
    let st : Nat := Status.zoneTransition
    let s : State := let c := { c with opcode := IoOp.zoneSend, nsid := 2, slba := 0, arg := 3, nlb := 0 }; let s0 : State := wrN (modZtb (setF (setF (withCmds (serving s0) [c] [1]) Reg.SYS_MODE 0 4 Mode.ready) Reg.SYS_STS 0 6 0) fun z => { z with zones := [], conv := [] }) Reg.ZTB_NZONE 16; setZoneState 0 zReadOnly s0
    (s.wf = true) ∧ (cmdAt s n = some c ∧ c.nvm = true ∧ c.opcode = IoOp.zoneSend ∧ c.phase ≠ .firmware ∧ engineRuns s = true ∧ atMode s Mode.ready = true) ∧ (c.action = ZAct.openZ) ∧ (c.selectAll = false) ∧ (actStatus s c (zoneOfLba s c.slba) = some st))
    ∧ (
    let k : Nat := 0
    let s0 : State := State.reset
    let n : Fin 16384 := Fin.ofNat 16384 (k % 7)
    let c : HostCmd := cmd0 (k % 7) 1 2 1 (k*5) (1 + k % 4) .fetched 0 0
    let s0 : State := s0
    let c : HostCmd := { c with opcode := IoOp.zoneSend, nsid := 2, slba := 0, arg := 3, nlb := 0 }
    let s : State := let c := { c with opcode := IoOp.zoneSend, nsid := 2, slba := 0, arg := 3, nlb := 0 }; let s0 : State := setBit (wrN (modZtb { setF (setF (withCmds (serving s0) [c] [1]) Reg.SYS_MODE 0 4 Mode.ready) Reg.SYS_STS 0 6 0 with tsq := State.reset.tsq } fun z => { z with zones := [], conv := [], zcmd := none, slpend := [] }) Reg.ZTB_NZONE 16) Reg.ZTB_CTL 0 true; setZoneState 0 zEmpty (setEpoch 0 5 <| setCptr 0 5 <| setRptr 0 5 (wrN s0 Reg.ZTB_ZCMDSTS 0))
    (s.wf = true) ∧ (cmdAt s n = some c ∧ c.nvm = true ∧ c.opcode = IoOp.zoneSend ∧ c.phase ≠ .firmware ∧ engineRuns s = true ∧ atMode s Mode.ready = true) ∧ (c.action = ZAct.openZ) ∧ (c.selectAll = false) ∧ (actStatus s c (zoneOfLba s c.slba) = none) ∧ (bit s Reg.ZTB_ZCMDSTS 0 = false) ∧ (zoneIdle s c (zoneOfLba s c.slba) = true) ∧ (ztbEn s = true) ∧ ((zoneOfLba s c.slba) < numZones s))
    ∧ (
    let k : Nat := 0
    let s0 : State := State.reset
    let n : Fin 16384 := Fin.ofNat 16384 (k % 7)
    let c : HostCmd := cmd0 (k % 7) 1 2 1 (k*5) (1 + k % 4) .fetched 0 0
    let s0 : State := s0
    let c : HostCmd := { c with opcode := IoOp.zoneSend, nsid := 2, slba := 0, arg := 1, nlb := 0 }
    let st : Nat := 0
    let s : State := let c := { c with opcode := IoOp.zoneSend, nsid := 2, slba := 0, arg := 1, nlb := 0 }; let s0 : State := wrN (modZtb (setF (setF (withCmds (serving s0) [c] [1]) Reg.SYS_MODE 0 4 Mode.ready) Reg.SYS_STS 0 6 0) fun z => { z with zones := [], conv := [] }) Reg.ZTB_NZONE 16; setZoneState 0 zClosed s0
    (s.wf = true) ∧ (cmdAt s n = some c ∧ c.nvm = true ∧ c.opcode = IoOp.zoneSend ∧ c.phase ≠ .firmware ∧ engineRuns s = true ∧ atMode s Mode.ready = true) ∧ (c.action = ZAct.close) ∧ (c.selectAll = false) ∧ (actStatus s c (zoneOfLba s c.slba) = some st))
    ∧ (
    let k : Nat := 0
    let s0 : State := State.reset
    let n : Fin 16384 := Fin.ofNat 16384 (k % 7)
    let c : HostCmd := cmd0 (k % 7) 1 2 1 (k*5) (1 + k % 4) .fetched 0 0
    let s0 : State := s0
    let c : HostCmd := { c with opcode := IoOp.zoneSend, nsid := 2, slba := 0, arg := 1, nlb := 0 }
    let st : Nat := Status.zoneTransition
    let s : State := let c := { c with opcode := IoOp.zoneSend, nsid := 2, slba := 0, arg := 1, nlb := 0 }; let s0 : State := wrN (modZtb (setF (setF (withCmds (serving s0) [c] [1]) Reg.SYS_MODE 0 4 Mode.ready) Reg.SYS_STS 0 6 0) fun z => { z with zones := [], conv := [] }) Reg.ZTB_NZONE 16; setZoneState 0 zReadOnly s0
    (s.wf = true) ∧ (cmdAt s n = some c ∧ c.nvm = true ∧ c.opcode = IoOp.zoneSend ∧ c.phase ≠ .firmware ∧ engineRuns s = true ∧ atMode s Mode.ready = true) ∧ (c.action = ZAct.close) ∧ (c.selectAll = false) ∧ (actStatus s c (zoneOfLba s c.slba) = some st))
    ∧ (
    let k : Nat := 0
    let s0 : State := State.reset
    let n : Fin 16384 := Fin.ofNat 16384 (k % 7)
    let c : HostCmd := cmd0 (k % 7) 1 2 1 (k*5) (1 + k % 4) .fetched 0 0
    let s0 : State := s0
    let c : HostCmd := { c with opcode := IoOp.zoneSend, nsid := 2, slba := 0, arg := 1, nlb := 0 }
    let s : State := let c := { c with opcode := IoOp.zoneSend, nsid := 2, slba := 0, arg := 1, nlb := 0 }; let s0 : State := setBit (wrN (modZtb { setF (setF (withCmds (serving s0) [c] [1]) Reg.SYS_MODE 0 4 Mode.ready) Reg.SYS_STS 0 6 0 with tsq := State.reset.tsq } fun z => { z with zones := [], conv := [], zcmd := none, slpend := [] }) Reg.ZTB_NZONE 16) Reg.ZTB_CTL 0 true; setZoneState 0 zExpOpen (setEpoch 0 5 <| setCptr 0 5 <| setRptr 0 5 (wrN s0 Reg.ZTB_ZCMDSTS 0))
    (s.wf = true) ∧ (cmdAt s n = some c ∧ c.nvm = true ∧ c.opcode = IoOp.zoneSend ∧ c.phase ≠ .firmware ∧ engineRuns s = true ∧ atMode s Mode.ready = true) ∧ (c.action = ZAct.close) ∧ (c.selectAll = false) ∧ (actStatus s c (zoneOfLba s c.slba) = none) ∧ (bit s Reg.ZTB_ZCMDSTS 0 = false) ∧ (zoneIdle s c (zoneOfLba s c.slba) = true) ∧ (ztbEn s = true) ∧ ((zoneOfLba s c.slba) < numZones s))
    ∧ (
    let k : Nat := 0
    let s0 : State := State.reset
    let n : Fin 16384 := Fin.ofNat 16384 (k % 7)
    let c : HostCmd := cmd0 (k % 7) 1 2 1 (k*5) (1 + k % 4) .fetched 0 0
    let s0 : State := s0
    let c : HostCmd := { c with opcode := IoOp.zoneSend, nsid := 2, slba := 0, arg := 2, nlb := 0 }
    let st : Nat := 0
    let s : State := let c := { c with opcode := IoOp.zoneSend, nsid := 2, slba := 0, arg := 2, nlb := 0 }; let s0 : State := wrN (modZtb (setF (setF (withCmds (serving s0) [c] [1]) Reg.SYS_MODE 0 4 Mode.ready) Reg.SYS_STS 0 6 0) fun z => { z with zones := [], conv := [] }) Reg.ZTB_NZONE 16; setZoneState 0 zFull s0
    (s.wf = true) ∧ (cmdAt s n = some c ∧ c.nvm = true ∧ c.opcode = IoOp.zoneSend ∧ c.phase ≠ .firmware ∧ engineRuns s = true ∧ atMode s Mode.ready = true) ∧ (c.action = ZAct.finish) ∧ (c.selectAll = false) ∧ (actStatus s c (zoneOfLba s c.slba) = some st))
    ∧ (
    let k : Nat := 0
    let s0 : State := State.reset
    let n : Fin 16384 := Fin.ofNat 16384 (k % 7)
    let c : HostCmd := cmd0 (k % 7) 1 2 1 (k*5) (1 + k % 4) .fetched 0 0
    let s0 : State := s0
    let c : HostCmd := { c with opcode := IoOp.zoneSend, nsid := 2, slba := 0, arg := 2, nlb := 0 }
    let st : Nat := Status.zoneTransition
    let s : State := let c := { c with opcode := IoOp.zoneSend, nsid := 2, slba := 0, arg := 2, nlb := 0 }; let s0 : State := wrN (modZtb (setF (setF (withCmds (serving s0) [c] [1]) Reg.SYS_MODE 0 4 Mode.ready) Reg.SYS_STS 0 6 0) fun z => { z with zones := [], conv := [] }) Reg.ZTB_NZONE 16; setZoneState 0 zReadOnly s0
    (s.wf = true) ∧ (cmdAt s n = some c ∧ c.nvm = true ∧ c.opcode = IoOp.zoneSend ∧ c.phase ≠ .firmware ∧ engineRuns s = true ∧ atMode s Mode.ready = true) ∧ (c.action = ZAct.finish) ∧ (c.selectAll = false) ∧ (actStatus s c (zoneOfLba s c.slba) = some st))
    ∧ (
    let k : Nat := 0
    let s0 : State := State.reset
    let n : Fin 16384 := Fin.ofNat 16384 (k % 7)
    let c : HostCmd := cmd0 (k % 7) 1 2 1 (k*5) (1 + k % 4) .fetched 0 0
    let s0 : State := s0
    let c : HostCmd := { c with opcode := IoOp.zoneSend, nsid := 2, slba := 0, arg := 2, nlb := 0 }
    let s : State := let c := { c with opcode := IoOp.zoneSend, nsid := 2, slba := 0, arg := 2, nlb := 0 }; let s0 : State := setBit (wrN (modZtb { setF (setF (withCmds (serving s0) [c] [1]) Reg.SYS_MODE 0 4 Mode.ready) Reg.SYS_STS 0 6 0 with tsq := State.reset.tsq } fun z => { z with zones := [], conv := [], zcmd := none, slpend := [] }) Reg.ZTB_NZONE 16) Reg.ZTB_CTL 0 true; setZoneState 0 zExpOpen (setEpoch 0 5 <| setCptr 0 5 <| setRptr 0 5 (wrN s0 Reg.ZTB_ZCMDSTS 0))
    (s.wf = true) ∧ (cmdAt s n = some c ∧ c.nvm = true ∧ c.opcode = IoOp.zoneSend ∧ c.phase ≠ .firmware ∧ engineRuns s = true ∧ atMode s Mode.ready = true) ∧ (c.action = ZAct.finish) ∧ (c.selectAll = false) ∧ (actStatus s c (zoneOfLba s c.slba) = none) ∧ (bit s Reg.ZTB_ZCMDSTS 0 = false) ∧ (zoneIdle s c (zoneOfLba s c.slba) = true) ∧ (ztbEn s = true) ∧ ((zoneOfLba s c.slba) < numZones s) ∧ ((workAt s (zoneOfLba s c.slba)).tail.all TailSector.committed = true) ∧ ((workAt s (zoneOfLba s c.slba)).queue.isEmpty = true) ∧ (zCptr s (zoneOfLba s c.slba) = zRptr s (zoneOfLba s c.slba)) ∧ (zoneOp s (zoneOfLba s c.slba) 3 = false) ∧ (zoneOp s (zoneOfLba s c.slba) 4 = false))
    ∧ (
    let k : Nat := 0
    let s0 : State := State.reset
    let n : Fin 16384 := Fin.ofNat 16384 (k % 7)
    let c : HostCmd := cmd0 (k % 7) 1 2 1 (k*5) (1 + k % 4) .fetched 0 0
    let s0 : State := s0
    let c : HostCmd := { c with opcode := IoOp.zoneSend, nsid := 2, slba := 0, arg := 4, nlb := 0 }
    let st : Nat := 0
    let s : State := let c := { c with opcode := IoOp.zoneSend, nsid := 2, slba := 0, arg := 4, nlb := 0 }; let s0 : State := wrN (modZtb (setF (setF (withCmds (serving s0) [c] [1]) Reg.SYS_MODE 0 4 Mode.ready) Reg.SYS_STS 0 6 0) fun z => { z with zones := [], conv := [] }) Reg.ZTB_NZONE 16; setZoneState 0 zEmpty s0
    (s.wf = true) ∧ (cmdAt s n = some c ∧ c.nvm = true ∧ c.opcode = IoOp.zoneSend ∧ c.phase ≠ .firmware ∧ engineRuns s = true ∧ atMode s Mode.ready = true) ∧ (c.action = ZAct.reset) ∧ (c.selectAll = false) ∧ (actStatus s c (zoneOfLba s c.slba) = some st))
    ∧ (
    let k : Nat := 0
    let s0 : State := State.reset
    let n : Fin 16384 := Fin.ofNat 16384 (k % 7)
    let c : HostCmd := cmd0 (k % 7) 1 2 1 (k*5) (1 + k % 4) .fetched 0 0
    let s0 : State := s0
    let c : HostCmd := { c with opcode := IoOp.zoneSend, nsid := 2, slba := 0, arg := 4, nlb := 0 }
    let st : Nat := Status.zoneTransition
    let s : State := let c := { c with opcode := IoOp.zoneSend, nsid := 2, slba := 0, arg := 4, nlb := 0 }; let s0 : State := wrN (modZtb (setF (setF (withCmds (serving s0) [c] [1]) Reg.SYS_MODE 0 4 Mode.ready) Reg.SYS_STS 0 6 0) fun z => { z with zones := [], conv := [] }) Reg.ZTB_NZONE 16; setZoneState 0 zReadOnly s0
    (s.wf = true) ∧ (cmdAt s n = some c ∧ c.nvm = true ∧ c.opcode = IoOp.zoneSend ∧ c.phase ≠ .firmware ∧ engineRuns s = true ∧ atMode s Mode.ready = true) ∧ (c.action = ZAct.reset) ∧ (c.selectAll = false) ∧ (actStatus s c (zoneOfLba s c.slba) = some st))
    ∧ (
    let k : Nat := 0
    let s0 : State := State.reset
    let n : Fin 16384 := Fin.ofNat 16384 (k % 7)
    let c : HostCmd := cmd0 (k % 7) 1 2 1 (k*5) (1 + k % 4) .fetched 0 0
    let s0 : State := s0
    let c : HostCmd := { c with opcode := IoOp.zoneSend, nsid := 2, slba := 0, arg := 4, nlb := 0 }
    let s : State := let c := { c with opcode := IoOp.zoneSend, nsid := 2, slba := 0, arg := 4, nlb := 0 }; let s0 : State := setBit (wrN (modZtb { setF (setF (withCmds (serving s0) [c] [1]) Reg.SYS_MODE 0 4 Mode.ready) Reg.SYS_STS 0 6 0 with tsq := State.reset.tsq } fun z => { z with zones := [], conv := [], zcmd := none, slpend := [] }) Reg.ZTB_NZONE 16) Reg.ZTB_CTL 0 true; setZoneState 0 zFull (setEpoch 0 5 <| setCptr 0 5 <| setRptr 0 5 (wrN s0 Reg.ZTB_ZCMDSTS 0))
    (s.wf = true) ∧ (cmdAt s n = some c ∧ c.nvm = true ∧ c.opcode = IoOp.zoneSend ∧ c.phase ≠ .firmware ∧ engineRuns s = true ∧ atMode s Mode.ready = true) ∧ (c.action = ZAct.reset) ∧ (c.selectAll = false) ∧ (actStatus s c (zoneOfLba s c.slba) = none) ∧ (bit s Reg.ZTB_ZCMDSTS 0 = false) ∧ (zoneIdle s c (zoneOfLba s c.slba) = true) ∧ (ztbEn s = true) ∧ ((zoneOfLba s c.slba) < numZones s) ∧ (zEpoch s (zoneOfLba s c.slba) ≠ 0xFFFFFFFF) ∧ (zoneOp s (zoneOfLba s c.slba) 4 = false) ∧ (zoneOp s (zoneOfLba s c.slba) 5 = false)) := by
  repeat refine And.intro (by decide +kernel) ?_
  decide +kernel

/-- Hypotheses of NoileMessagesArrive hold together, of one clause after another. -/
theorem witness_noile_messages_arrive :
    (
    let k : Nat := 0
    let s0 : State := State.reset
    let s0 : State := s0
    let d : NoiDatagram := ⟨Fin.ofNat 2 k, 0xFFFF0A000001#128, 4000#16, (k%2==1), noiReq (if k%2=0 then 5 else 1) 0 12 5 0x110 0 2 0 []⟩
    let s : State := noiUp s0
    (s.wf = true) ∧ (bit s Reg.NOI_CTL 0 = true) ∧ (mode s ≠ Mode.fill) ∧ (mode s ≠ Mode.boot) ∧ (familyOk s d.addr.toNat = true) ∧ (d.fragmented = true ∨ 1232 < d.bytes.length ∨ wellFormed (d.bytes.map BitVec.toNat) = false))
    ∧ (
    let k : Nat := 0
    let s0 : State := State.reset
    let s0 : State := s0
    let d : NoiDatagram := ⟨Fin.ofNat 2 k, 0xFFFF0A000001#128, 4000#16, false, noiReq 1 0 12 (k+5) 0x0110 0 2 0 []⟩
    let s : State := noiUp s0
    (s.wf = true) ∧ (NoileNew s d) ∧ (noiCheck s (messagePriv s (datagramRequest d).who) (datagramRequest d) = 0) ∧ (hardwareServed (datagramRequest d) = true))
    ∧ (
    let k : Nat := 0
    let s0 : State := State.reset
    let s0 : State := s0
    let d : NoiDatagram := ⟨Fin.ofNat 2 k, 0xFFFF0A000001#128, 4000#16, false, noiReq 1 0 12 (k+5) (0x0110+k%3*7) 0 3 0 []⟩
    let s : State := noiUp s0
    (s.wf = true) ∧ (NoileNew s d) ∧ (noiCheck s (messagePriv s (datagramRequest d).who) (datagramRequest d) ≠ 0))
    ∧ (
    let k : Nat := 0
    let s0 : State := State.reset
    let s0 : State := s0
    let d : NoiDatagram := ⟨Fin.ofNat 2 k, 0xFFFF0A000001#128, 4000#16, false, noiReq 1 0 12 (k+5) 0x2324 1 4 0 []⟩
    let n : Nat := 0
    let s : State := noiUp s0
    (s.wf = true) ∧ (NoileNew s d) ∧ (noiCheck s (messagePriv s (datagramRequest d).who) (datagramRequest d) = 0) ∧ (hardwareServed (datagramRequest d) = false) ∧ (fwServes s = true) ∧ (((List.range 64).find? fun i => s.noi.slots.all fun y => y.slot != i) = some n))
    ∧ (
    let k : Nat := 0
    let s0 : State := State.reset
    let s0 : State := s0
    let d : NoiDatagram := ⟨Fin.ofNat 2 k, 0xFFFF0A000001#128, 4000#16, false, noiReq 1 1 12 (k+5) 0x110 0 2 0 [] ++ List.replicate 16 0#8⟩
    let n : Nat := 0
    let s : State := noiUp s0
    (s.wf = true) ∧ (NoileArrives s d) ∧ (hdr (d.bytes.map BitVec.toNat) 4 4 = getF s Reg.NOI_NODE 0 20) ∧ ((datagramRequest d).who.session = some n) ∧ (hdr (d.bytes.map BitVec.toNat) 4 4 ≠ broadcastNode) ∧ ((sessionAt s n).all (fun x => !tagPasses x (d.bytes.map BitVec.toNat)) = true))
    ∧ (
    let k : Nat := 0
    let s0 : State := State.reset
    let s0 : State := s0
    let d : NoiDatagram := ⟨Fin.ofNat 2 k, 0xFFFF0A000001#128, 4000#16, false, noiReq 1 0 0xFFFFF (k+5) 0x0110 0 2 0 []⟩
    let s : State := noiUp s0
    (s.wf = true) ∧ (NoileArrives s d) ∧ (hdr (d.bytes.map BitVec.toNat) 4 4 = broadcastNode) ∧ ((datagramRequest d).who.session = none) ∧ ((datagramRequest d).op = NoiOp.read) ∧ (noiCheck s (messagePriv s (datagramRequest d).who) (datagramRequest d) = 0))
    ∧ (
    let k : Nat := 0
    let s0 : State := State.reset
    let s0 : State := s0
    let d : NoiDatagram := ⟨Fin.ofNat 2 k, 0xFFFF0A000001#128, 4000#16, false, noiReq 6 2 12 5 0x110 0 2 0 []⟩
    let s : State := { noiUp s0 with noi := { (noiUp s0).noi with subs := [⟨4, ⟨none, 0xFFFF0A000001, 4000, 0⟩, 7, [0x10, 1, 0, 0, 1, 0, 0, 0], [9], none, some (5, 0, k%4), false⟩] } }
    (s.wf = true) ∧ (NoileArrives s d) ∧ (hdr (d.bytes.map BitVec.toNat) 4 4 = getF s Reg.NOI_NODE 0 20) ∧ (hdr (d.bytes.map BitVec.toNat) 4 4 ≠ broadcastNode) ∧ ((datagramRequest d).who.session = none) ∧ ((datagramRequest d).op = NoiOp.ack) ∧ ((s.noi.subs.any fun y => sameRequester y.who (datagramRequest d).who && y.await.map Prod.fst == some (datagramRequest d).reqid) = true))
    ∧ (
    let k : Nat := 0
    let s0 : State := State.reset
    let s0 : State := s0
    let d : NoiDatagram := ⟨Fin.ofNat 2 k, 0xFFFF0A000001#128, 4000#16, false, noiReq 6 2 12 5 0x110 0 2 0 []⟩
    let s : State := noiUp s0
    (s.wf = true) ∧ (NoileArrives s d) ∧ (hdr (d.bytes.map BitVec.toNat) 4 4 = getF s Reg.NOI_NODE 0 20) ∧ (hdr (d.bytes.map BitVec.toNat) 4 4 ≠ broadcastNode) ∧ ((datagramRequest d).who.session = none) ∧ ((datagramRequest d).op = NoiOp.ack) ∧ ((s.noi.subs.any fun y => sameRequester y.who (datagramRequest d).who && y.await.map Prod.fst == some (datagramRequest d).reqid) = false))
    ∧ (
    let k : Nat := 0
    let s0 : State := State.reset
    let s0 : State := s0
    let d : NoiDatagram := ⟨Fin.ofNat 2 k, 0xFFFF0A000001#128, 4000#16, false, noiReq 1 0 12 (k+5) 0x0110 0 2 0 []⟩
    let s : State := noiUp s0
    (s.wf = true) ∧ (hdr (d.bytes.map BitVec.toNat) 1 1 ≠ NoiOp.ack))
    ∧ (
    let k : Nat := 0
    let s0 : State := State.reset
    let s0 : State := s0
    let n : Nat := k%2
    let r : NoiMessage := ⟨⟨none, 5, 6, 1⟩, 1, 2, 7, 12, k, 0x110, 0, 0, 0, 0, [k], []⟩
    let s : State := { noiUp s0 with noi := { (noiUp s0).noi with broadcast := [⟨⟨none, 5, 6, 1⟩, 1, 2, 7, 12, k, 0x110, 0, 0, 0, 0, [k], []⟩, r] } }
    (s.wf = true) ∧ (s.noi.broadcast[n]? = some r))
    ∧ (
    let k : Nat := 0
    let s0 : State := State.reset
    let s0 : State := s0
    let s : State := let s0 : State := { s0 with clock := 2000000003 }; { noiUp s0 with noi := { (noiUp s0).noi with cache := [⟨(slot3 1 0 0 0 0 0 []).req, some ⟨⟨none, 5, 6, 1⟩, 1, 2, 7, 12, k, 0x110, 0, 0, 0, 0, [k], []⟩, k⟩, ⟨(slot3 1 0 0 0 0 0 []).req, none, 0⟩] } }
    (s.wf = true))
    ∧ (
    let k : Nat := 0
    let s0 : State := State.reset
    let s0 : State := s0
    let n : Nat := 3
    let l : List Nat := [5]
    let s : State := { noiUp s0 with noi := { (noiUp s0).noi with fwq := n :: l, slots := [{ slot3 1 0 0x2201 0 2 0 [] with popped := false }] } }
    (s.wf = true) ∧ (s.noi.fwq = n :: l))
    ∧ (
    let k : Nat := 0
    let s0 : State := State.reset
    let s0 : State := s0
    let s : State := noiUp s0
    (s.wf = true) ∧ (s.noi.fwq = []))
    ∧ (
    let k : Nat := 0
    let s0 : State := State.reset
    let s0 : State := s0
    let n : Fin 64 := 3
    let x : NoiSlot := slot3 2 0 0x2201 0 2 0 [1]
    let s : State := let s0 : State := { s0 with clock := 2000000+k }; { noiUp s0 with noi := { (noiUp s0).noi with slots := [x] } }
    (s.wf = true) ∧ (noiSlot s n = some x) ∧ (x.late = false) ∧ (x.arrived + 1000 * getF s Reg.NOI_FWTMO 0 10 ≤ s.clock) ∧ (x.popped = true))
    ∧ (
    let k : Nat := 0
    let s0 : State := State.reset
    let s0 : State := s0
    let n : Fin 64 := 3
    let x : NoiSlot := { slot3 2 0 0x2201 0 2 0 [1] with popped := false }
    let s : State := let s0 : State := { s0 with clock := 2000000+k }; { noiUp s0 with noi := { (noiUp s0).noi with slots := [x], fwq := [3] } }
    (s.wf = true) ∧ (noiSlot s n = some x) ∧ (x.late = false) ∧ (x.arrived + 1000 * getF s Reg.NOI_FWTMO 0 10 ≤ s.clock) ∧ (x.popped = false))
    ∧ (
    let k : Nat := 0
    let s0 : State := State.reset
    let s0 : State := s0
    let v : Word := BitVec.ofNat 32 (3 + 256*(k+1))
    let x : NoiSlot := slot3 2 0 0x2201 0 2 0 [1]
    let s : State := { noiUp s0 with noi := { (noiUp s0).noi with slots := [x] } }
    (s.wf = true) ∧ (noiSlot s (bitsOf v.toNat 0 6) = some x) ∧ (x.popped = true) ∧ (x.late = false) ∧ (bitsOf v.toNat 8 16 ≠ 0))
    ∧ (
    let k : Nat := 0
    let s0 : State := State.reset
    let s0 : State := s0
    let v : Word := BitVec.ofNat 32 (3 + 256*k)
    let x : NoiSlot := { slot3 2 0 0x2201 0 2 0 [1] with late := true }
    let s : State := { noiUp s0 with noi := { (noiUp s0).noi with slots := [x] } }
    (s.wf = true) ∧ (noiSlot s (bitsOf v.toNat 0 6) = some x) ∧ (x.popped = true) ∧ (x.late = true)) := by
  repeat refine And.intro (by decide +kernel) ?_
  decide +kernel

/-- Hypotheses of NoileObjectsAreServed hold together, of one clause after another. -/
theorem witness_noile_objects_are_served :
    (
    let k : Nat := 0
    let s0 : State := State.reset
    let s0 : State := s0
    let n : Fin 64 := 3
    let x : NoiSlot := slot3 1 0 0x2203 1 3 0 []
    let s : State := { noiUp s0 with noi := { (noiUp s0).noi with slots := [x] } }
    (s.wf = true) ∧ (NoileServed s n x) ∧ (x.req.op = NoiOp.read) ∧ ((valueOf s x.req).all (fun b => decide (b < 256)) = true) ∧ ((valueOf s x.req).length < 65536))
    ∧ (
    let k : Nat := 0
    let s0 : State := State.reset
    let s0 : State := s0
    let n : Fin 64 := 3
    let x : NoiSlot := slot3 1 0 0x2203 1 2 0 []
    let s : State := { noiUp s0 with noi := { (noiUp s0).noi with slots := [x] } }
    (s.wf = true) ∧ (noiSlot s n = some x) ∧ (x.popped = true) ∧ (x.late = false) ∧ (fwServes s = true) ∧ (makerIndex x.req.index = false) ∧ (noiCheck s x.priv x.req ≠ 0) ∧ (x.req.op = NoiOp.read))
    ∧ (
    let k : Nat := 0
    let s0 : State := State.reset
    let s0 : State := s0
    let n : Fin 64 := 3
    let x : NoiSlot := slot3 2 0 0x2203 1 3 0 [k, 200]
    let s : State := { noiUp s0 with noi := { (noiUp s0).noi with slots := [x] } }
    (s.wf = true) ∧ (NoileServed s n x) ∧ (x.req.op = NoiOp.write) ∧ (x.req.index = 0x2203) ∧ (x.req.sub = 1))
    ∧ (
    let k : Nat := 0
    let s0 : State := State.reset
    let s0 : State := s0
    let n : Fin 64 := 3
    let x : NoiSlot := slot3 2 0 0x2323 1 2 0 [k%32+1]
    let s : State := { noiUp s0 with noi := { (noiUp s0).noi with slots := [x] } }
    (s.wf = true) ∧ (NoileServed s n x) ∧ (x.req.op = NoiOp.write) ∧ (x.req.index = 0x2323) ∧ (x.req.sub = 1))
    ∧ (
    let k : Nat := 0
    let s0 : State := State.reset
    let s0 : State := s0
    let n : Fin 64 := 3
    let x : NoiSlot := { slot3 3 0 0x1021 0 13 0 [0, 0, 0, 0] with req := { (slot3 3 0 0x1021 0 13 0 [0, 0, 0, 0]).req with offset := k, len := 20 } }
    let s : State := { noiUp s0 with noi := { (noiUp s0).noi with slots := [x], domains := [((0x1021, 0), (5, (List.range (17*k)).map (· % 256)))] } }
    (s.wf = true) ∧ (NoileServed s n x) ∧ (x.req.op = NoiOp.readSeg) ∧ (captureBusy s x.req = false) ∧ ((domainContent s x.req.who x.req.index x.req.sub).all (fun b => decide (b < 256)) = true))
    ∧ (
    let k : Nat := 0
    let s0 : State := State.reset
    let s0 : State := s0
    let n : Fin 64 := 3
    let x : NoiSlot := slot3 4 4 0x1021 0 13 0 [34, 0, 0, 0, 1, 2, 3, k]
    let s : State := { noiUp s0 with noi := { (noiUp s0).noi with slots := [x] } }
    (s.wf = true) ∧ (NoileServed s n x) ∧ (x.req.op = NoiOp.writeSeg) ∧ (x.req.has NoiFlag.last = false))
    ∧ (
    let k : Nat := 0
    let s0 : State := State.reset
    let s0 : State := s0
    let n : Fin 64 := 3
    let x : NoiSlot := slot3 4 12 0x1021 0 13 0 ([17, 0, 0, 0] ++ (List.range 16).map (· + k) ++ [64])
    let s : State := { noiUp s0 with noi := { (noiUp s0).noi with slots := [x] } }
    (s.wf = true) ∧ (NoileServed s n x) ∧ (x.req.op = NoiOp.writeSeg) ∧ (x.req.has NoiFlag.last = true) ∧ (x.req.index = 0x1021 ∨ x.req.index = 0x1103))
    ∧ (
    let k : Nat := 0
    let s0 : State := State.reset
    let s0 : State := s0
    let i : BitVec 16 := 0x1021#16
    let j : Byte := 0#8
    let x : NoiXfer := ⟨⟨none, 5, 6, 1⟩, i.toNat, j.toNat, 100, [1, 2], k⟩
    let s : State := let s0 : State := { s0 with clock := 2000000100 }; { noiUp s0 with noi := { (noiUp s0).noi with xfers := [x] } }
    (s.wf = true) ∧ (xferAt s i.toNat j.toNat = some x) ∧ (x.clock + 2000000000 ≤ s.clock))
    ∧ (
    let k : Nat := 0
    let s0 : State := State.reset
    let s0 : State := s0
    let i : BitVec 16 := 0x1021#16
    let j : Byte := 0#8
    let x : NoiXfer := ⟨⟨none, 5, 6, 1⟩, i.toNat, j.toNat, 100, [1, 2], k⟩
    let s : State := let s0 : State := { s0 with clock := 200000 }; { noiUp s0 with noi := { (noiUp s0).noi with xfers := [x] } }
    (s.wf = true) ∧ (xferAt s i.toNat j.toNat = some x) ∧ (s.clock < x.clock + 2000000000))
    ∧ (
    let k : Nat := 0
    let s0 : State := State.reset
    let s0 : State := s0
    let n : Word := 5#32
    let x : NoiSession := ⟨5, 1, k, [k], 3, k, [], []⟩
    let s : State := let s0 : State := { s0 with clock := 600000000100 }; { noiUp s0 with noi := { (noiUp s0).noi with sessions := [x], subs := [⟨4, ⟨none, 0xFFFF0A000001, 4000, 0⟩, 7, [0x10, 1, 0, 0, 1, 0, 0, 0], [9], none, some (5, 0, k%4), false⟩, { (⟨4, ⟨none, 0xFFFF0A000001, 4000, 0⟩, 7, [0x10, 1, 0, 0, 1, 0, 0, 0], [9], none, some (5, 0, k%4), false⟩ : NoiSub) with who := ⟨some 5, 1, 2, 0⟩ }] } }
    (s.wf = true) ∧ (sessionAt s n.toNat = some x) ∧ (x.last + 1000000000 * leNat (fwValue s 0x1020 4) ≤ s.clock))
    ∧ (
    let k : Nat := 0
    let s0 : State := State.reset
    let s0 : State := s0
    let n : Word := 5#32
    let x : NoiSession := ⟨5, 1, k, [k], 3, k, [], []⟩
    let s : State := let s0 : State := { s0 with clock := 60000 }; { noiUp s0 with noi := { (noiUp s0).noi with sessions := [x] } }
    (s.wf = true) ∧ (sessionAt s n.toNat = some x) ∧ (s.clock < x.last + 1000000000 * leNat (fwValue s 0x1020 4)))
    ∧ (
    let k : Nat := 0
    let s0 : State := State.reset
    let s0 : State := s0
    let n : Fin 64 := 3
    let x : NoiSlot := slot3 2 0 0x0180 1 11 0 [0x10, 1, 0, k%2, 1, 0, k%2*9, 0, 0, 0, 0, 0, 0, 0, 0, 0]
    let i : Nat := 0
    let s : State := { noiUp s0 with noi := { (noiUp s0).noi with slots := [x] } }
    (s.wf = true) ∧ (NoileServed s n x) ∧ (x.req.op = NoiOp.write) ∧ (x.req.index = 0x0180) ∧ (x.req.sub = 1) ∧ (subCheck s x.priv x.req.payload = 0) ∧ (((List.range 255).find? fun j => s.noi.subs.all fun y => y.handle != j + 1) = some i))
    ∧ (
    let k : Nat := 0
    let s0 : State := State.reset
    let s0 : State := s0
    let n : Fin 64 := 3
    let x : NoiSlot := slot3 2 0 0x0180 2 2 0 [4]
    let s : State := { noiUp s0 with noi := { (noiUp s0).noi with slots := [x], subs := [{ (⟨4, ⟨none, 0xFFFF0A000001, 4000, 0⟩, 7, [0x10, 1, 0, 0, 1, 0, 0, 0], [9], none, some (5, 0, k%4), false⟩ : NoiSub) with handle := 4 }] } }
    (s.wf = true) ∧ (NoileServed s n x) ∧ (x.req.op = NoiOp.write) ∧ (x.req.index = 0x0180) ∧ (x.req.sub = 2))
    ∧ (
    let k : Nat := 0
    let s0 : State := State.reset
    let s0 : State := s0
    let h : Byte := 4#8
    let x : NoiSub := { (⟨4, ⟨none, 0xFFFF0A000001, 4000, 0⟩, 7, [0x10, 1, 0, 0, 1, 0, 0, 0], [9], none, some (5, 0, k%4), false⟩ : NoiSub) with await := none }
    let s : State := { noiUp s0 with noi := { (noiUp s0).noi with subs := [x] } }
    (s.wf = true) ∧ (subAt s h.toNat = some x) ∧ (noiRuns s = true) ∧ (notifyDue s x = true))
    ∧ (
    let k : Nat := 0
    let s0 : State := State.reset
    let s0 : State := s0
    let h : Byte := 4#8
    let x : NoiSub := ⟨4, ⟨none, 0xFFFF0A000001, 4000, 0⟩, 7, [0x10, 1, 0, 0, 1, 0, 0, 0], [9], none, some (5, 0, k%4), false⟩
    let s : State := { noiUp s0 with noi := { (noiUp s0).noi with subs := [x] } }
    (s.wf = true) ∧ (subAt s h.toNat = some x) ∧ (noiRuns s = false ∨ notifyDue s x = false))
    ∧ (
    let k : Nat := 0
    let s0 : State := State.reset
    let s0 : State := s0
    let h : Byte := 4#8
    let x : NoiSub := { (⟨4, ⟨none, 0xFFFF0A000001, 4000, 0⟩, 7, [0x10, 1, 0, 0, 1, 0, 0, 0], [9], none, some (5, 0, k%4), false⟩ : NoiSub) with await := some (5, k, k%3) }
    let i : Nat := 5
    let q : Nat := k
    let c : Nat := k%3
    let s : State := let s0 : State := { s0 with clock := 100000100 }; { noiUp s0 with noi := { (noiUp s0).noi with subs := [x] } }
    (s.wf = true) ∧ (subAt s h.toNat = some x) ∧ (x.await = some (i, q, c)) ∧ (noiRuns s = true) ∧ (q + 100000000 ≤ s.clock) ∧ (c < 3))
    ∧ (
    let k : Nat := 0
    let s0 : State := State.reset
    let s0 : State := s0
    let h : Byte := 4#8
    let x : NoiSub := { (⟨4, ⟨none, 0xFFFF0A000001, 4000, 0⟩, 7, [0x10, 1, 0, 0, 1, 0, 0, 0], [9], none, some (5, 0, k%4), false⟩ : NoiSub) with await := some (5, k, 3) }
    let i : Nat := 5
    let q : Nat := k
    let c : Nat := 3
    let s : State := let s0 : State := { s0 with clock := 100000100 }; { noiUp s0 with noi := { (noiUp s0).noi with subs := [x] } }
    (s.wf = true) ∧ (subAt s h.toNat = some x) ∧ (x.await = some (i, q, c)) ∧ (noiRuns s = true) ∧ (q + 100000000 ≤ s.clock) ∧ (3 ≤ c))
    ∧ (
    let k : Nat := 0
    let s0 : State := State.reset
    let s0 : State := s0
    let v : Word := BitVec.ofNat 32 (0x110 + 2^16*(k%2))
    let h : Nat := 4
    let x : NoiSub := { (⟨4, ⟨none, 0xFFFF0A000001, 4000, 0⟩, 7, [0x10, 1, 0, 0, 1, 0, 0, 0], [9], none, some (5, 0, k%4), false⟩ : NoiSub) with value := [] }
    let s : State := { noiUp s0 with noi := { (noiUp s0).noi with subs := [x] } }
    (s.wf = true) ∧ (subAt s h = some x))
    ∧ (
    let k : Nat := 0
    let s0 : State := State.reset
    let s0 : State := s0
    let n : Fin 64 := 3
    let x : NoiSlot := slot3 4 12 0x6100 1 13 0 [2, 0, 0, 0, 1, k]
    let response : List Byte := [1#8, 2#8]
    let ended : Bool := false
    let s : State := { noiUp s0 with noi := { (noiUp s0).noi with slots := [x] } }
    (s.wf = true) ∧ (NoileServed s n x) ∧ (lastOf 0x6100 x.req = true) ∧ (x.req.who.session = none))
    ∧ (
    let k : Nat := 0
    let s0 : State := State.reset
    let s0 : State := s0
    let n : Fin 64 := 3
    let x : NoiSlot := slot3 4 12 0x6100 1 13 0 [2, 0, 0, 0, 1, k]
    let response : List Byte := [1#8, 2#8]
    let ended : Bool := false
    let f : SpdmSession := ⟨BitVec.ofNat 32 (k+9), 77#256, [], 1#256, 2#256⟩
    let s : State := { noiUp s0 with noi := { (noiUp s0).noi with slots := [x] } }
    (s.wf = true) ∧ (NoileServed s n x) ∧ (lastOf 0x6100 x.req = true) ∧ (x.req.who.session = none) ∧ (s.noi.sessions.length < 16) ∧ (sessionAt s f.id.toNat = none))
    ∧ (
    let k : Nat := 0
    let s0 : State := State.reset
    let s0 : State := s0
    let n : Fin 64 := 3
    let x : NoiSlot := slot3 4 12 0x1003 0 13 0 ([20, 0, 0, 0] ++ (List.range 16).map (· + k) ++ [64, 0, 0, 0])
    let s : State := { noiUp s0 with noi := { (noiUp s0).noi with slots := [x] } }
    (s.wf = true) ∧ (NoileServed s n x) ∧ (lastOf 0x1003 x.req = true)) := by
  repeat refine And.intro (by decide +kernel) ?_
  decide +kernel

/-- Hypotheses of PortsFollowTheirLinks hold together, of one clause after another. -/
theorem witness_ports_follow_their_links :
    (
    let k : Nat := 0
    let s0 : State := State.reset
    let p : Fin 2 := Fin.ofNat 2 k
    let s0 : State := s0
    let partner : BitVec 14 := BitVec.ofNat 14 (2^(k%9))
    let m : Nat := k%9+1
    let s : State := let s0 : State := wrN (setBit (setBit (setBit (s0) (Reg.ETH_CTL p) 0 true) (Reg.ETH_CTL p) 1 true) (Reg.ETH_STS p) 0 false) (Reg.ETH_ANEFF p) 0x1FF; modPort s0 p fun y => { y with attempts := 1 }
    (s.wf = true) ∧ (bit s (Reg.ETH_CTL p) 0 = true) ∧ (bit s (Reg.ETH_CTL p) 1 = true) ∧ (linkUp s p = false) ∧ (typeOrder.find? (fun m => (rdN s (Reg.ETH_ANEFF p)).testBit (m - 1) && partner.toNat.testBit (m - 1)) = some m))
    ∧ (
    let k : Nat := 0
    let s0 : State := State.reset
    let p : Fin 2 := Fin.ofNat 2 k
    let s0 : State := s0
    let partner : BitVec 14 := BitVec.ofNat 14 (2^(k%9))
    let m : Nat := k%9+1
    let s : State := let s0 : State := wrN (setBit (setBit (setBit (s0) (Reg.ETH_CTL p) 0 true) (Reg.ETH_CTL p) 1 true) (Reg.ETH_STS p) 0 false) (Reg.ETH_ANEFF p) 0x1FF; modPort s0 p fun y => { y with attempts := k%2 }
    (s.wf = true) ∧ (bit s (Reg.ETH_CTL p) 0 = true) ∧ (bit s (Reg.ETH_CTL p) 1 = true) ∧ (linkUp s p = false) ∧ (typeOrder.find? (fun m => (rdN s (Reg.ETH_ANEFF p)).testBit (m - 1) && partner.toNat.testBit (m - 1)) = some m) ∧ ((portAt s p).attempts < 2))
    ∧ (
    let k : Nat := 0
    let s0 : State := State.reset
    let p : Fin 2 := Fin.ofNat 2 k
    let s0 : State := s0
    let partner : BitVec 14 := BitVec.ofNat 14 (2^(k%9))
    let m : Nat := k%9+1
    let s : State := let s0 : State := wrN (setBit (setBit (setBit (s0) (Reg.ETH_CTL p) 0 true) (Reg.ETH_CTL p) 1 true) (Reg.ETH_STS p) 0 false) (Reg.ETH_ANEFF p) 0x1FF; modPort s0 p fun y => { y with attempts := 2 }
    (s.wf = true) ∧ (bit s (Reg.ETH_CTL p) 0 = true) ∧ (bit s (Reg.ETH_CTL p) 1 = true) ∧ (linkUp s p = false) ∧ (typeOrder.find? (fun m => (rdN s (Reg.ETH_ANEFF p)).testBit (m - 1) && partner.toNat.testBit (m - 1)) = some m) ∧ (2 ≤ (portAt s p).attempts))
    ∧ (
    let k : Nat := 0
    let s0 : State := State.reset
    let p : Fin 2 := Fin.ofNat 2 k
    let s0 : State := s0
    let c : Nat := k
    let s : State := let s0 : State := { s0 with clock := 1000000100 }; modPort s0 p fun y => { y with emptied := some c }
    (s.wf = true) ∧ ((portAt s p).emptied = some c) ∧ (c + 1000000000 ≤ s.clock))
    ∧ (
    let k : Nat := 0
    let s0 : State := State.reset
    let p : Fin 2 := Fin.ofNat 2 k
    let s0 : State := s0
    let s : State := let s0 : State := s0; modPort s0 p fun y => { y with emptied := none }
    (s.wf = true) ∧ ((portAt s p).emptied = none))
    ∧ (
    let k : Nat := 0
    let s0 : State := State.reset
    let p : Fin 2 := Fin.ofNat 2 k
    let s0 : State := s0
    let v : Word := BitVec.ofNat 32 (k*300)
    let s : State := s0
    (s.wf = true))
    ∧ (
    let k : Nat := 0
    let s0 : State := State.reset
    let p : Fin 2 := Fin.ofNat 2 k
    let s0 : State := s0
    let m : Nat := k%9+1
    let f : Nat := k%4
    let s : State := let s0 := modPort s0 (1 - p.val) fun n => { n with failed := none }; let s0 : State := setBit (setBit (setBit (s0) (Reg.ETH_CTL p) 0 true) (Reg.ETH_CTL p) 1 true) (Reg.ETH_STS p) 0 false; modPort s0 p fun y => { y with failed := none, resolved := (m, f) }
    (s.wf = true) ∧ (bit s (Reg.ETH_CTL p) 0 = true) ∧ (linkUp s p = false) ∧ (portType s p = (m, f)) ∧ (m ≠ 0) ∧ (m ≤ 9) ∧ (f ≤ 3) ∧ (portFailed s (1 - p) = false))
    ∧ (
    let k : Nat := 0
    let s0 : State := State.reset
    let p : Fin 2 := Fin.ofNat 2 k
    let s0 : State := s0
    let m : Nat := k%9+1
    let f : Nat := k%4
    let s : State := let s0 := modPort s0 (1 - p.val) fun n => { n with failed := some .link }; let s0 : State := setBit (setBit (setBit (s0) (Reg.ETH_CTL p) 0 true) (Reg.ETH_CTL p) 1 true) (Reg.ETH_STS p) 0 false; modPort s0 p fun y => { y with failed := none, resolved := (m, f) }
    (s.wf = true) ∧ (bit s (Reg.ETH_CTL p) 0 = true) ∧ (linkUp s p = false) ∧ (portType s p = (m, f)) ∧ (m ≠ 0) ∧ (m ≤ 9) ∧ (f ≤ 3) ∧ (portFailed s (1 - p) = true) ∧ ((portAt s p).failed = none))
    ∧ (
    let k : Nat := 0
    let s0 : State := State.reset
    let p : Fin 2 := Fin.ofNat 2 k
    let s0 : State := s0
    let s : State := let s0 : State := setBit (s0) (Reg.ETH_STS p) 0 true; modPort s0 p fun y => { y with failed := none }
    (s.wf = true) ∧ (linkUp s p = true) ∧ (portFailed s p = false))
    ∧ (
    let k : Nat := 0
    let s0 : State := State.reset
    let p : Fin 2 := Fin.ofNat 2 k
    let s0 : State := s0
    let s : State := setBit (s0) (Reg.ETH_STS p) 0 false
    (s.wf = true) ∧ (linkUp s p = false))
    ∧ (
    let k : Nat := 0
    let s0 : State := State.reset
    let p : Fin 2 := Fin.ofNat 2 k
    let s0 : State := s0
    let s : State := let s0 : State := setBit { s0 with net := { s0.net with holders := [k%2, (k/2)%2] } } (Reg.ETH_STS (1 - p.val)) 0 true; let s0 := modPort s0 (1 - p.val) fun n => { n with failed := none }; modPort s0 p fun n => { n with failed := none }
    (s.wf = true) ∧ (portFailed s p = false) ∧ (portFailed s (1 - p.val) = false) ∧ (linkUp s (1 - p.val) = true))
    ∧ (
    let k : Nat := 0
    let s0 : State := State.reset
    let p : Fin 2 := Fin.ofNat 2 k
    let s0 : State := s0
    let s : State := let s0 : State := s0; let s0 := modPort s0 (1 - p.val) fun n => { n with failed := some .link }; modPort s0 p fun n => { n with failed := none }
    (s.wf = true) ∧ (portFailed s p = false) ∧ (portFailed s (1 - p.val) = true))
    ∧ (
    let k : Nat := 0
    let s0 : State := State.reset
    let p : Fin 2 := Fin.ofNat 2 k
    let s0 : State := s0
    let s : State := let s0 : State := setBit (s0) (Reg.ETH_STS p) 0 true; let s0 := modPort s0 (1 - p.val) fun n => { n with failed := none }; modPort s0 p fun n => { n with failed := some .move }
    (s.wf = true) ∧ ((portAt s p).failed = some .move) ∧ (linkUp s p = true))
    ∧ (
    let k : Nat := 0
    let s0 : State := State.reset
    let p : Fin 2 := Fin.ofNat 2 k
    let s0 : State := s0
    let s : State := let s0 : State := setBit (s0) (Reg.ETH_STS p) 0 false; let s0 := modPort s0 (1 - p.val) fun n => { n with failed := none }; modPort s0 p fun n => { n with failed := some .move }
    (s.wf = true) ∧ ((portAt s p).failed = some .move) ∧ (linkUp s p = false))
    ∧ (
    let k : Nat := 0
    let s0 : State := State.reset
    let p : Fin 2 := Fin.ofNat 2 k
    let s0 : State := s0
    let s : State := let s0 : State := { setBit (setBit (s0) (Reg.ETH_STS p) 0 true) (Reg.ETH_FOCFG p) 8 true with clock := 300000000000 }; modPort s0 p fun y => { y with failed := some .link, linkClock := k }
    (s.wf = true) ∧ ((portAt s p).failed = some .link) ∧ (linkUp s p = true) ∧ (bit s (Reg.ETH_FOCFG p) 8 = true) ∧ ((portAt s p).linkClock + 1000000000 * getF s (Reg.ETH_FOCFG p) 16 8 ≤ s.clock))
    ∧ (
    let k : Nat := 0
    let s0 : State := State.reset
    let p : Fin 2 := Fin.ofNat 2 k
    let s0 : State := s0
    let s : State := let s0 : State := s0; modPort s0 p fun y => { y with failed := none }
    (s.wf = true) ∧ ((portAt s p).failed ≠ some .link ∨ linkUp s p = false ∨ s.clock < (portAt s p).linkClock + 1000000000 * getF s (Reg.ETH_FOCFG p) 16 8))
    ∧ (
    let k : Nat := 0
    let s0 : State := State.reset
    let p : Fin 2 := Fin.ofNat 2 k
    let s0 : State := s0
    let n : Nat := k%2
    let s : State := let s0 : State := { s0 with clock := 200000000 }; modPort s0 p fun y => { y with announces := n + 1, announceClock := k }
    (s.wf = true) ∧ ((portAt s p).announces = n + 1) ∧ ((portAt s p).announceClock + 100000000 ≤ s.clock))
    ∧ (
    let k : Nat := 0
    let s0 : State := State.reset
    let p : Fin 2 := Fin.ofNat 2 k
    let s0 : State := s0
    let s : State := let s0 : State := s0; modPort s0 p fun y => { y with announces := 0 }
    (s.wf = true) ∧ ((portAt s p).announces = 0 ∨ s.clock < (portAt s p).announceClock + 100000000))
    ∧ (
    let k : Nat := 0
    let s0 : State := State.reset
    let p : Fin 2 := Fin.ofNat 2 k
    let s0 : State := s0
    let s : State := let s0 : State := let s0 : State := s0; modPort s0 p fun y => { y with fwtx := [] }; modNet s0 fun n => { n with runnels := n.runnels.map fun _ => [⟨[1, 2, 3], k%8, k, false, 0, []⟩] }
    (s.wf = true) ∧ ((portAt s p).fwtx = []))
    ∧ (
    let k : Nat := 0
    let s0 : State := State.reset
    let p : Fin 2 := Fin.ofNat 2 k
    let s0 : State := s0
    let r : Fin 3 := Fin.ofNat 3 k
    let v : Word := if k%3=0 then 100#32 else if k%3=1 then BitVec.ofNat 32 k else 0xFFFE#32
    let s : State := wrN (wrN (wrN s0 (Reg.ETH_TSA p) 0xFE) (Reg.ETH_ETS0 p) 100) (Reg.ETH_ETS1 p) 0
    (s.wf = true) ∧ (etsOk (if r.val = 0 then v.toNat else rdN s (Reg.ETH_ETS0 p)) (if r.val = 1 then v.toNat else rdN s (Reg.ETH_ETS1 p)) (if r.val = 2 then v.toNat % 256 else rdN s (Reg.ETH_TSA p)) = true))
    ∧ (
    let k : Nat := 0
    let s0 : State := State.reset
    let p : Fin 2 := Fin.ofNat 2 k
    let s0 : State := s0
    let r : Fin 3 := 0
    let v : Word := BitVec.ofNat 32 k
    let s : State := wrN (wrN (wrN s0 (Reg.ETH_TSA p) 0xFE) (Reg.ETH_ETS0 p) 100) (Reg.ETH_ETS1 p) 0
    (s.wf = true) ∧ (etsOk (if r.val = 0 then v.toNat else rdN s (Reg.ETH_ETS0 p)) (if r.val = 1 then v.toNat else rdN s (Reg.ETH_ETS1 p)) (if r.val = 2 then v.toNat % 256 else rdN s (Reg.ETH_TSA p)) = false))
    ∧ (
    let k : Nat := 0
    let s0 : State := State.reset
    let p : Fin 2 := Fin.ofNat 2 k
    let s0 : State := s0
    let v : Word := BitVec.ofNat 32 (k*6)
    let s : State := s0
    (s.wf = true) ∧ (bitsOf v.toNat 0 9 < 260))
    ∧ (
    let k : Nat := 0
    let s0 : State := State.reset
    let p : Fin 2 := Fin.ofNat 2 k
    let s0 : State := s0
    let v : Word := BitVec.ofNat 32 (260+k)
    let s : State := s0
    (s.wf = true) ∧ (260 ≤ bitsOf v.toNat 0 9))
    ∧ (
    let k : Nat := 0
    let s0 : State := State.reset
    let p : Fin 2 := Fin.ofNat 2 k
    let s0 : State := s0
    let v : DWord := BitVec.ofNat 64 (2^40+k)
    let s : State := let s0 : State := s0; modPort s0 p fun y => { y with txpn := [1, 2, 3, 4] }
    (s.wf = true) ∧ (txAn s p < (portAt s p).txpn.length))
    ∧ (
    let k : Nat := 0
    let s0 : State := State.reset
    let p : Fin 2 := Fin.ofNat 2 k
    let s0 : State := s0
    let v : DWord := BitVec.ofNat 64 (k*2^33)
    let s : State := s0
    (s.wf = true) ∧ (0 ≤ ((ptp s : Int) + signedOf 64 v.toNat)))
    ∧ (
    let k : Nat := 0
    let s0 : State := State.reset
    let p : Fin 2 := Fin.ofNat 2 k
    let s0 : State := s0
    let v : DWord := BitVec.ofNat 64 (2^63+k)
    let s : State := wr64 { s0 with clock := 0 } Reg.ETH_PTPTIME 7
    (s.wf = true) ∧ (((ptp s : Int) + signedOf 64 v.toNat) < 0))
    ∧ (
    let k : Nat := 0
    let s0 : State := State.reset
    let p : Fin 2 := Fin.ofNat 2 k
    let s0 : State := s0
    let i : Nat := k
    let q : Nat := k%2
    let w : Nat := 2^35+k
    let l : List (Nat × Nat × Nat) := [(1, 2, 3)]
    let s : State := modNet s0 fun n => { n with stamps := (i, q, w) :: l }
    (s.wf = true) ∧ (s.net.stamps = (i, q, w) :: l))
    ∧ (
    let k : Nat := 0
    let s0 : State := State.reset
    let p : Fin 2 := Fin.ofNat 2 k
    let s0 : State := s0
    let s : State := modNet s0 fun n => { n with stamps := [] }
    (s.wf = true) ∧ (s.net.stamps = [])) := by
  repeat refine And.intro (by decide +kernel) ?_
  decide +kernel

/-- Hypotheses of FramesCrossTheRunnels hold together, of one clause after another. -/
theorem witness_frames_cross_the_runnels :
    (
    let k : Nat := 0
    let s0 : State := State.reset
    let p : Fin 2 := Fin.ofNat 2 k
    let s0 : State := s0
    let b : List Byte := List.replicate 64 0#8
    let faulty : Bool := false
    let s : State := setBit (s0) (Reg.ETH_STS p) 0 false
    (s.wf = true) ∧ (bit s (Reg.ETH_CTL p) 0 = false ∨ linkUp s p = false))
    ∧ (
    let k : Nat := 0
    let s0 : State := State.reset
    let p : Fin 2 := Fin.ofNat 2 k
    let s0 : State := s0
    let b : List Byte := List.replicate (63+k%2) 0#8
    let faulty : Bool := (k%2==1)
    let s : State := let s0 : State := wrN (setBit (setBit (setBit (s0) (Reg.ETH_CTL p) 0 true) (Reg.ETH_CTL p) 1 true) (Reg.ETH_STS p) 0 true) (Reg.ETH_MAXFR p) 1518; s0
    (s.wf = true) ∧ (bit s (Reg.ETH_CTL p) 0 = true) ∧ (linkUp s p = true) ∧ (faulty = true ∨ b.length < 64 ∨ getF s (Reg.ETH_MAXFR p) 0 14 < b.length))
    ∧ (
    let k : Nat := 0
    let s0 : State := State.reset
    let p : Fin 2 := Fin.ofNat 2 k
    let s0 : State := s0
    let b : List Byte := List.replicate 12 0#8 ++ [0x88#8, 0x08#8, 0#8, 1#8] ++ List.replicate (48+k) 0#8
    let faulty : Bool := false
    let s : State := let s0 : State := wrN (setBit (setBit (setBit (s0) (Reg.ETH_CTL p) 0 true) (Reg.ETH_CTL p) 1 true) (Reg.ETH_STS p) 0 true) (Reg.ETH_MAXFR p) 1518; s0
    (s.wf = true) ∧ (bit s (Reg.ETH_CTL p) 0 = true) ∧ (linkUp s p = true) ∧ (faulty = false) ∧ (64 ≤ b.length) ∧ (b.length ≤ getF s (Reg.ETH_MAXFR p) 0 14) ∧ (isPause (b.map BitVec.toNat) = true))
    ∧ (
    let k : Nat := 0
    let s0 : State := State.reset
    let p : Fin 2 := Fin.ofNat 2 k
    let s0 : State := s0
    let b : List Byte := List.replicate 12 0#8 ++ [0x81#8, 0#8, BitVec.ofNat 8 (k*32), 77#8, 8#8, 0#8] ++ List.replicate (48+k) 0#8
    let faulty : Bool := false
    let s : State := let s0 : State := wrN (setBit (setBit (setBit (s0) (Reg.ETH_CTL p) 0 true) (Reg.ETH_CTL p) 1 true) (Reg.ETH_STS p) 0 true) (Reg.ETH_MAXFR p) 1518; wrN s0 (Reg.ETH_VLAN p) 78
    (s.wf = true) ∧ (bit s (Reg.ETH_CTL p) 0 = true) ∧ (linkUp s p = true) ∧ (faulty = false) ∧ (64 ≤ b.length) ∧ (b.length ≤ getF s (Reg.ETH_MAXFR p) 0 14) ∧ (isPause (b.map BitVec.toNat) = false) ∧ (((frameVid (rxClear s p (b.map BitVec.toNat))).isSome && (frameVid (rxClear s p (b.map BitVec.toNat))) != some (getF s (Reg.ETH_VLAN p) 0 12)) = true))
    ∧ (
    let k : Nat := 0
    let s0 : State := State.reset
    let p : Fin 2 := Fin.ofNat 2 k
    let s0 : State := s0
    let b : List Byte := if k%2=0 then (List.replicate 12 0#8 ++ [0x08#8, 0#8, 0x45#8, BitVec.ofNat 8 (k*40)] ++ List.replicate (48+k) 0#8) else (List.replicate 12 0#8 ++ [0x81#8, 0#8, BitVec.ofNat 8 (k*32), 77#8, 8#8, 0#8] ++ List.replicate (48+k) 0#8)
    let faulty : Bool := false
    let s : State := let s0 : State := wrN (setBit (setBit (setBit (s0) (Reg.ETH_CTL p) 0 true) (Reg.ETH_CTL p) 1 true) (Reg.ETH_STS p) 0 true) (Reg.ETH_MAXFR p) 1518; let s0 := (List.range 8).foldl (fun u c => wrN (wrN u (Reg.RUN_WPTR (runnelOf p false c)) 16384) (Reg.RUN_RPTR (runnelOf p false c)) k) s0; wrN s0 (Reg.ETH_VLAN p) 77
    (s.wf = true) ∧ (bit s (Reg.ETH_CTL p) 0 = true) ∧ (linkUp s p = true) ∧ (faulty = false) ∧ (64 ≤ b.length) ∧ (b.length ≤ getF s (Reg.ETH_MAXFR p) 0 14) ∧ (isPause (b.map BitVec.toNat) = false) ∧ (((frameVid (rxClear s p (b.map BitVec.toNat))).isSome && (frameVid (rxClear s p (b.map BitVec.toNat))) != some (getF s (Reg.ETH_VLAN p) 0 12)) = false) ∧ (hasRoom s (runnelOf p false (classOf s p (framePrio (rxClear s p (b.map BitVec.toNat))))) b.length = false))
    ∧ (
    let k : Nat := 0
    let s0 : State := State.reset
    let p : Fin 2 := Fin.ofNat 2 k
    let s0 : State := s0
    let b : List Byte := if k%2=0 then (List.replicate 12 0#8 ++ [0x08#8, 0#8, 0x45#8, BitVec.ofNat 8 (k*40)] ++ List.replicate (48+k) 0#8) else (List.replicate 12 0#8 ++ [0x81#8, 0#8, BitVec.ofNat 8 (k*32), 77#8, 8#8, 0#8] ++ List.replicate (48+k) 0#8)
    let faulty : Bool := false
    let s : State := let s0 : State := wrN (setBit (setBit (setBit (s0) (Reg.ETH_CTL p) 0 true) (Reg.ETH_CTL p) 1 true) (Reg.ETH_STS p) 0 true) (Reg.ETH_MAXFR p) 1518; let s0 := (List.range 8).foldl (fun u c => wrN (wrN u (Reg.RUN_WPTR (runnelOf p false c)) (16384-k)) (Reg.RUN_RPTR (runnelOf p false c)) (16384-5*k)) s0; wrN s0 (Reg.ETH_VLAN p) 77
    (s.wf = true) ∧ (bit s (Reg.ETH_CTL p) 0 = true) ∧ (linkUp s p = true) ∧ (faulty = false) ∧ (64 ≤ b.length) ∧ (b.length ≤ getF s (Reg.ETH_MAXFR p) 0 14) ∧ (isPause (b.map BitVec.toNat) = false) ∧ (((frameVid (rxClear s p (b.map BitVec.toNat))).isSome && (frameVid (rxClear s p (b.map BitVec.toNat))) != some (getF s (Reg.ETH_VLAN p) 0 12)) = false) ∧ (hasRoom s (runnelOf p false (classOf s p (framePrio (rxClear s p (b.map BitVec.toNat))))) b.length = true))
    ∧ (
    let k : Nat := 0
    let s0 : State := State.reset
    let p : Fin 2 := Fin.ofNat 2 k
    let s0 : State := s0
    let m : Byte := BitVec.ofNat 8 (k*37)
    let times : BitVec 128 := BitVec.ofNat 128 (k*0x10000000100000001000100)
    let s : State := setBit (setBit (setBit (s0) (Reg.ETH_CTL p) 0 true) (Reg.ETH_CTL p) 1 true) (Reg.ETH_STS p) 0 true
    (s.wf = true))
    ∧ (
    let k : Nat := 0
    let s0 : State := State.reset
    let p : Fin 2 := Fin.ofNat 2 k
    let s0 : State := s0
    let s : State := let s0 : State := setBit { s0 with clock := 10^9 } (Reg.ETH_PFC p) 3 true; modPort s0 p fun y => { y with xoff := [0, 1, 2, 3, 4, 5, 6, 7], pfcClock := 3 }
    (s.wf = true) ∧ (2 * (portAt s p).pfcClock + quantaNs s p (getF s (Reg.ETH_PFC p) 8 16) ≤ 2 * s.clock) ∧ (stopped s p ≠ []) ∧ (pfcPrios s p (stopped s p) ≠ 0))
    ∧ (
    let k : Nat := 0
    let s0 : State := State.reset
    let p : Fin 2 := Fin.ofNat 2 k
    let s0 : State := s0
    let s : State := let s0 : State := setBit s0 Reg.CIS_STS 2 false; modPort s0 p fun y => { y with xoff := [] }
    (s.wf = true) ∧ (stopped s p = []))
    ∧ (
    let k : Nat := 0
    let s0 : State := State.reset
    let p : Fin 2 := Fin.ofNat 2 k
    let s0 : State := s0
    let tc : Fin 8 := Fin.ofNat 8 k
    let header : Bool := true
    let intact : Bool := true
    let digests : Bool := true
    let s : State := modNet s0 fun n => { n with runnels := modAt n.runnels (runnelOf p false tc) fun _ => [] }
    (s.wf = true) ∧ (runnelAt s (runnelOf p false tc) = []))
    ∧ (
    let k : Nat := 0
    let s0 : State := State.reset
    let p : Fin 2 := Fin.ofNat 2 k
    let s0 : State := s0
    let tc : Fin 8 := Fin.ofNat 8 k
    let header : Bool := false
    let intact : Bool := true
    let digests : Bool := true
    let x : Packet := ⟨List.replicate 64 0, 0, k, false, 0, []⟩
    let l : List Packet := []
    let s : State := let s0 : State := s0; modNet s0 fun n => { n with runnels := modAt n.runnels (runnelOf p false tc) fun _ => x :: l }
    (s.wf = true) ∧ (runnelAt s (runnelOf p false tc) = x :: l) ∧ (header = false ∨ x.bytes.length < 64))
    ∧ (
    let k : Nat := 0
    let s0 : State := State.reset
    let p : Fin 2 := Fin.ofNat 2 k
    let s0 : State := s0
    let tc : Fin 8 := Fin.ofNat 8 k
    let header : Bool := true
    let intact : Bool := k%2==0
    let digests : Bool := true
    let x : Packet := ⟨List.replicate 64 0, 0, k, false, 0, []⟩
    let l : List Packet := []
    let s : State := let s0 : State := wrN (setBit s0 (Reg.ETH_CTL p) 2 false) (Reg.ETH_MAXFR p) 1518; modNet s0 fun n => { n with runnels := modAt n.runnels (runnelOf p false tc) fun _ => x :: l }
    (s.wf = true) ∧ (runnelAt s (runnelOf p false tc) = x :: l) ∧ (header = true) ∧ (64 ≤ x.bytes.length) ∧ (x.bytes.length ≤ getF s (Reg.ETH_MAXFR p) 0 14) ∧ (waitsForLattice s p x.bytes = false) ∧ (intact = false ∨ fcsOk x.bytes = false))
    ∧ (
    let k : Nat := 0
    let s0 : State := State.reset
    let p : Fin 2 := Fin.ofNat 2 k
    let s0 : State := s0
    let tc : Fin 8 := Fin.ofNat 8 k
    let header : Bool := true
    let intact : Bool := true
    let digests : Bool := true
    let x : Packet := ⟨withFcs (List.replicate 12 0 ++ [8, 0] ++ List.replicate 46 0), 0, k, false, 0, []⟩
    let l : List Packet := []
    let c : Nat := Reg.ETH_MSNOTAG p
    let s : State := let s0 : State := wrN (setBit s0 (Reg.ETH_CTL p) 2 true) (Reg.ETH_MAXFR p) 1518; modNet s0 fun n => { n with runnels := modAt n.runnels (runnelOf p false tc) fun _ => x :: l }
    (s.wf = true) ∧ (runnelAt s (runnelOf p false tc) = x :: l) ∧ (header = true) ∧ (64 ≤ x.bytes.length) ∧ (x.bytes.length ≤ getF s (Reg.ETH_MAXFR p) 0 14) ∧ (intact = true) ∧ (fcsOk x.bytes = true) ∧ (waitsForLattice s p x.bytes = false) ∧ (msAdmit s p (x.bytes.take (x.bytes.length - 4)) = .inl c))
    ∧ (
    let k : Nat := 0
    let s0 : State := State.reset
    let p : Fin 2 := Fin.ofNat 2 k
    let s0 : State := s0
    let tc : Fin 8 := Fin.ofNat 8 k
    let header : Bool := true
    let intact : Bool := true
    let digests : Bool := true
    let x : Packet := ⟨withFcs (List.replicate 12 0 ++ [8, 0, 69] ++ List.replicate 46 0), 0, k, false, 0, []⟩
    let l : List Packet := []
    let s : State := let s0 : State := wrN (setBit s0 (Reg.ETH_CTL p) 2 false) (Reg.ETH_MAXFR p) 1518; modNet s0 fun n => { n with runnels := modAt n.runnels (runnelOf p false tc) fun _ => x :: l }
    (s.wf = true) ∧ (runnelAt s (runnelOf p false tc) = x :: l) ∧ (header = true) ∧ (64 ≤ x.bytes.length) ∧ (x.bytes.length ≤ getF s (Reg.ETH_MAXFR p) 0 14) ∧ (intact = true) ∧ (fcsOk x.bytes = true) ∧ (msec s p = false) ∧ ((ipPacket (x.bytes.take (x.bytes.length - 4))).all packetOk = false ∨ (digests = false ∧ serviceOf s (x.bytes.take (x.bytes.length - 4)) = .tcp)))
    ∧ (
    let k : Nat := 0
    let s0 : State := State.reset
    let p : Fin 2 := Fin.ofNat 2 k
    let s0 : State := s0
    let tc : Fin 8 := Fin.ofNat 8 k
    let header : Bool := true
    let intact : Bool := true
    let digests : Bool := true
    let x : Packet := ⟨withFcs (List.replicate 12 0 ++ [0, 0] ++ List.replicate 46 0), 0, k, false, 0, []⟩
    let l : List Packet := []
    let s : State := let s0 : State := wrN (setBit s0 (Reg.ETH_CTL p) 2 false) (Reg.ETH_MAXFR p) 1518; modNet s0 fun n => { n with runnels := modAt n.runnels (runnelOf p false tc) fun _ => x :: l }
    (s.wf = true) ∧ (runnelAt s (runnelOf p false tc) = x :: l) ∧ (header = true) ∧ (64 ≤ x.bytes.length) ∧ (x.bytes.length ≤ getF s (Reg.ETH_MAXFR p) 0 14) ∧ (intact = true) ∧ (fcsOk x.bytes = true) ∧ (msec s p = false) ∧ ((ipPacket (x.bytes.take (x.bytes.length - 4))).all packetOk = true) ∧ (digests = true ∨ serviceOf s (x.bytes.take (x.bytes.length - 4)) ≠ .tcp) ∧ (serves s p (serviceOf s (x.bytes.take (x.bytes.length - 4))) (ipPacket (x.bytes.take (x.bytes.length - 4))) = false))
    ∧ (
    let k : Nat := 0
    let s0 : State := State.reset
    let p : Fin 2 := Fin.ofNat 2 k
    let s0 : State := s0
    let tc : Fin 8 := Fin.ofNat 8 k
    let header : Bool := true
    let intact : Bool := true
    let digests : Bool := true
    let x : Packet := ⟨withFcs (List.replicate 12 0 ++ [8, 6] ++ List.replicate 46 0), 0, k, false, 0, []⟩
    let l : List Packet := []
    let n : Nat := 0
    let c : CisState := { CisState.reset with fresh := 1 }
    let s : State := let s0 : State := wrN (setBit { s0 with cis := { CisState.reset with fresh := 0 } } Reg.CIS_STS 4 false) Reg.CIS_FREECNT 90000; let s0 : State := wrN (setBit s0 (Reg.ETH_CTL p) 2 false) (Reg.ETH_MAXFR p) 1518; modNet s0 fun n => { n with runnels := modAt n.runnels (runnelOf p false tc) fun _ => x :: l }
    (s.wf = true) ∧ (runnelAt s (runnelOf p false tc) = x :: l) ∧ (header = true) ∧ (64 ≤ x.bytes.length) ∧ (x.bytes.length ≤ getF s (Reg.ETH_MAXFR p) 0 14) ∧ (intact = true) ∧ (fcsOk x.bytes = true) ∧ (msec s p = false) ∧ ((ipPacket (x.bytes.take (x.bytes.length - 4))).all packetOk = true) ∧ (digests = true ∨ serviceOf s (x.bytes.take (x.bytes.length - 4)) ≠ .tcp) ∧ (serviceOf s (x.bytes.take (x.bytes.length - 4)) = .firmware) ∧ (x.bytes.length ≤ 4080) ∧ (freeCount s ≠ 0) ∧ (wInEffect s 3 = false) ∧ (s.cis.pop = some (n, c)))
    ∧ (
    let k : Nat := 0
    let s0 : State := State.reset
    let p : Fin 2 := Fin.ofNat 2 k
    let s0 : State := s0
    let tc : Fin 8 := Fin.ofNat 8 k
    let s : State := setBit (s0) (Reg.ETH_STS p) 0 false
    (s.wf = true) ∧ (bit s (Reg.ETH_CTL p) 0 = false ∨ linkUp s p = false))
    ∧ (
    let k : Nat := 0
    let s0 : State := State.reset
    let p : Fin 2 := Fin.ofNat 2 k
    let s0 : State := s0
    let tc : Fin 8 := Fin.ofNat 8 k
    let x : Packet := ⟨List.replicate 6 9 ++ [1, 2, 3, 4, 5, 6] ++ [0x88, 0xCC] ++ List.replicate 45 0, 0, k, false, 0, List.replicate 6 9 ++ [1, 2, 3, 4, 5, 6] ++ [0x88, 0xCC] ++ List.replicate 45 0⟩
    let l : List Packet := []
    let s : State := let s0 : State := modNet (wrN (setBit (setBit (setBit (s0) (Reg.ETH_CTL p) 0 true) (Reg.ETH_CTL p) 1 true) (Reg.ETH_STS p) 0 true) (Reg.ETH_MAXFR p) 1518) fun n => { n with runnels := n.runnels.map fun _ => [] }; let s0 : State := { s0 with sys := { s0.sys with resetLow := false }, slu := { s0.slu with tokens := [(2000, 0), (2000, 0)] } }; let s0 : State := modPort s0 p fun n => { n with fwtx := [], paused := [] }; let s0 : State := s0; modNet s0 fun n => { n with runnels := modAt n.runnels (runnelOf p true tc) fun _ => x :: l }
    (s.wf = true) ∧ (bit s (Reg.ETH_CTL p) 0 = true) ∧ (linkUp s p = true) ∧ (mayServe s p tc = true) ∧ (runnelAt s (runnelOf p true tc) = x :: l) ∧ ((portAt s p).fwtx = []) ∧ (x.bytes.length < 60 ∨ getF s (Reg.ETH_MAXFR p) 0 14 < x.bytes.length + 4))
    ∧ (
    let k : Nat := 0
    let s0 : State := State.reset
    let p : Fin 2 := Fin.ofNat 2 k
    let s0 : State := s0
    let r : Fin 32 := Fin.ofNat 32 k
    let x : Packet := ⟨List.replicate 64 0, 0, k, false, 0, []⟩
    let l : List Packet := []
    let s : State := let s0 := modNet s0 fun n => { n with runnels := modAt n.runnels r fun _ => x :: l }; let s0 := setF s0 Reg.SYS_MODE 0 4 Mode.test; modPort s0 (r.val / 16) fun n => { n with fwtx := [] }
    (s.wf = true) ∧ (runCmdOk s r = true) ∧ (runnelAt s r = x :: l) ∧ ((portAt s (r / 16)).fwtx = []))
    ∧ (
    let k : Nat := 0
    let s0 : State := State.reset
    let p : Fin 2 := Fin.ofNat 2 k
    let s0 : State := s0
    let r : Fin 32 := Fin.ofNat 32 k
    let s : State := let s0 := setF s0 Reg.SYS_MODE 0 4 Mode.test; modPort s0 (r.val / 16) fun n => { n with fwtx := [] }
    (s.wf = true) ∧ (runCmdOk s r = true) ∧ ((portAt s (r / 16)).fwtx = []))
    ∧ (
    let k : Nat := 0
    let s0 : State := State.reset
    let p : Fin 2 := Fin.ofNat 2 k
    let s0 : State := s0
    let r : Fin 32 := Fin.ofNat 32 k
    let s : State := let s0 := setF s0 Reg.SYS_MODE 0 4 Mode.standby; setBit s0 (Reg.ETH_CTL (r.val / 16)) 0 true
    (s.wf = true) ∧ (runCmdOk s r = false))
    ∧ (
    let k : Nat := 0
    let s0 : State := State.reset
    let p : Fin 2 := Fin.ofNat 2 k
    let s0 : State := s0
    let r : Fin 32 := Fin.ofNat 32 k
    let s : State := let s0 := setF s0 Reg.SYS_MODE 0 4 Mode.standby; setBit s0 (Reg.ETH_CTL (r.val / 16)) 0 true
    (s.wf = true) ∧ (runCmdOk s r = false))
    ∧ (
    let k : Nat := 0
    let s0 : State := State.reset
    let p : Fin 2 := Fin.ofNat 2 k
    let s0 : State := s0
    let v : Word := BitVec.ofNat 32 (k*100+2^20*(k%8))
    let w : List Nat := let s0 := (let s0 := modPort s0 p fun n => { n with fwtx := [] }; let s0 := (List.range 8).foldl (fun u c => wrN (wrN u (Reg.RUN_WPTR (runnelOf p true c)) 100) (Reg.RUN_RPTR (runnelOf p true c)) 90) s0; sramPut16 (setOwner (bitsOf v.toNat 0 17) Owner.core s0) (4096 * bitsOf v.toNat 0 17) 70); sramBytes s0 (4096 * (bitsOf v.toNat 0 17) + 16) 70
    let s : State := let s0 := setBit s0 (Reg.ETH_CTL p) 2 false; let s0 := wrN s0 (Reg.ETH_VLAN p) 0; let s0 := modPort s0 p fun n => { n with fwtx := [] }; let s0 := (List.range 8).foldl (fun u c => wrN (wrN u (Reg.RUN_WPTR (runnelOf p true c)) 100) (Reg.RUN_RPTR (runnelOf p true c)) 90) s0; sramPut16 (setOwner (bitsOf v.toNat 0 17) Owner.core s0) (4096 * bitsOf v.toNat 0 17) 70
    (s.wf = true) ∧ ((bitsOf v.toNat 0 17) < 94208) ∧ (ownerOf s (bitsOf v.toNat 0 17) = Owner.core) ∧ ((portAt s p).fwtx = []) ∧ (protects s p (sramBytes s (4096 * (bitsOf v.toNat 0 17) + 16) (sram16 s (4096 * (bitsOf v.toNat 0 17)))) = false ∨ latticeTakes s = true) ∧ (wireFrame s p (((List.range 8).find? fun q => classOf s p q == bitsOf v.toNat 20 3).getD 0) (sramBytes s (4096 * (bitsOf v.toNat 0 17) + 16) (sram16 s (4096 * (bitsOf v.toNat 0 17)))) = some w) ∧ (hasRoom s (runnelOf p true (bitsOf v.toNat 20 3)) w.length = true))
    ∧ (
    let k : Nat := 0
    let s0 : State := State.reset
    let p : Fin 2 := Fin.ofNat 2 k
    let s0 : State := s0
    let v : Word := BitVec.ofNat 32 (k*100+2^20*(k%8))
    let s : State := { s0 with cis := { s0.cis with owners := [] } }
    (s.wf = true) ∧ (ownerOf s (bitsOf v.toNat 0 17) ≠ Owner.core))
    ∧ (
    let k : Nat := 0
    let s0 : State := State.reset
    let p : Fin 2 := Fin.ofNat 2 k
    let s0 : State := s0
    let n : Nat := k*7
    let l : List Nat := [3]
    let s : State := let s0 := modPort s0 p fun m => { m with fwrx := n :: l }; setOwner n Owner.netrx s0
    (s.wf = true) ∧ ((portAt s p).fwrx = n :: l) ∧ (n < 94208) ∧ (ownerOf s n = Owner.netrx))
    ∧ (
    let k : Nat := 0
    let s0 : State := State.reset
    let p : Fin 2 := Fin.ofNat 2 k
    let s0 : State := s0
    let s : State := let s0 : State := s0; modPort s0 p fun y => { y with fwrx := [] }
    (s.wf = true) ∧ ((portAt s p).fwrx = [])) := by
  repeat refine And.intro (by decide +kernel) ?_
  decide +kernel

/-- Hypotheses of a clause of FramesCrossTheRunnels whose values evaluation alone does not give. -/
theorem witness_frames_cross_the_runnels_a :
    (
    let k : Nat := 0
    let s0 : State := State.reset
    let p : Fin 2 := Fin.ofNat 2 k
    let s0 : State := s0
    let tc : Fin 8 := Fin.ofNat 8 k
    let x : Packet := ⟨List.replicate 6 9 ++ [1, 2, 3, 4, 5, 6] ++ [8, 0] ++ List.replicate 46 0, 0, k, false, 0, List.replicate 6 9 ++ [1, 2, 3, 4, 5, 6] ++ [8, 0] ++ List.replicate 46 0⟩
    let l : List Packet := []
    let s : State := let s0 : State := modNet (wrN (setBit (setBit (setBit (s0) (Reg.ETH_CTL p) 0 true) (Reg.ETH_CTL p) 1 true) (Reg.ETH_STS p) 0 true) (Reg.ETH_MAXFR p) 1518) fun n => { n with runnels := n.runnels.map fun _ => [] }; let s0 : State := { s0 with sys := { s0.sys with resetLow := false }, slu := { s0.slu with tokens := [(2000, 0), (2000, 0)] } }; let s0 : State := setBit (modPort s0 p fun n => { n with fwtx := [], paused := [] }) (Reg.ETH_CTL p) 2 false; modNet s0 fun n => { n with runnels := modAt n.runnels (runnelOf p true tc) fun _ => x :: l }
    ((s.wf = true) ∧ (bit s (Reg.ETH_CTL p) 0 = true) ∧ (linkUp s p = true) ∧ (mayServe s p tc = true) ∧ (runnelAt s (runnelOf p true tc) = x :: l) ∧ ((portAt s p).fwtx = []) ∧ (60 ≤ x.bytes.length) ∧ (x.bytes.length + 4 ≤ getF s (Reg.ETH_MAXFR p) 0 14)) ∧ (sourceOk s p x.clear = false)) :=
  ⟨by decide +kernel,
   by
    unfold sourceOk; exact Bool.and_eq_false_imp.mpr fun _ => by decide +kernel⟩

/-- Hypotheses of a clause of FramesCrossTheRunnels whose values evaluation alone does not give. -/
theorem witness_frames_cross_the_runnels_b :
    (
    let k : Nat := 0
    let s0 : State := State.reset
    let p : Fin 2 := Fin.ofNat 2 k
    let s0 : State := s0
    let tc : Fin 8 := Fin.ofNat 8 k
    let x : Packet := ⟨List.replicate 6 9 ++ macOf State.reset p ++ [0x88, 0xCC] ++ List.replicate 46 0, 0, k, false, 0, List.replicate 6 9 ++ macOf State.reset p ++ [0x88, 0xCC] ++ List.replicate 46 0⟩
    let l : List Packet := []
    let s : State := let s0 : State := modNet (wrN (setBit (setBit (setBit (s0) (Reg.ETH_CTL p) 0 true) (Reg.ETH_CTL p) 1 true) (Reg.ETH_STS p) 0 true) (Reg.ETH_MAXFR p) 1518) fun n => { n with runnels := n.runnels.map fun _ => [] }; let s0 : State := { s0 with sys := { s0.sys with resetLow := false }, slu := { s0.slu with tokens := [(2000, 0), (2000, 0)] } }; let s0 : State := setBit (modPort s0 p fun n => { n with fwtx := [], paused := [] }) (Reg.ETH_CTL p) 2 false; modNet s0 fun n => { n with runnels := modAt n.runnels (runnelOf p true tc) fun _ => x :: l }
    ((s.wf = true) ∧ (bit s (Reg.ETH_CTL p) 0 = true) ∧ (linkUp s p = true) ∧ (mayServe s p tc = true)) ∧ (runnelAt s (runnelOf p true tc) = x :: l) ∧ (((portAt s p).fwtx = []) ∧ (60 ≤ x.bytes.length) ∧ (x.bytes.length + 4 ≤ getF s (Reg.ETH_MAXFR p) 0 14)) ∧ (sourceOk s p x.clear = true) ∧ (((x.bytes.length + 4 : Nat) : Rat) ≤ tokensNow s p)) :=
  ⟨by decide +kernel,
   rfl,
   by decide +kernel,
   by
    unfold sourceOk; exact Bool.and_eq_true_iff.mpr ⟨beq_iff_eq.mpr rfl, by decide +kernel⟩,
   by decide +kernel⟩

/-- Hypotheses of BuffersAreGivenAndFreed hold together, of one clause after another. -/
theorem witness_buffers_are_given_and_freed :
    (
    let k : Nat := 0
    let s0 : State := State.reset
    let s0 : State := s0
    let m : BitVec 8 := BitVec.ofNat 8 (if k%6=5 then 64 else 2^(1+k%6) + 64)
    let spec : Bool := k%2==0
    let o : Nat := 1 + k%6
    let l : List Nat := if k%6=5 then [] else [6]
    let i : Nat := 7*k
    let c : CisState := { owners := [], stack := [3], fresh := 94208, errlog := [], waiting := [], again := [], ahead := false, held := [], last := none }
    let s : State := let s0 : State := { s0 with cis := { owners := [], stack := [7*k, 3], fresh := 94208, errlog := [], waiting := [], again := [], ahead := false, held := [], last := none } }; let s0 : State := setF s0 Reg.CIS_STS 0 5 1; let s0 : State := wrN (wrN s0 Reg.CIS_FREECNT (5000+k)) Reg.CIS_CTL 64; (List.range 4).foldl (fun u j => wrN u (Reg.CIS_W j) 100) s0
    (s.wf = true) ∧ (requesters s m = o :: l) ∧ (cisReady s = true) ∧ (1 < freeCount s) ∧ (wInEffect s 3 = false) ∧ (s.cis.pop = some (i, c)) ∧ (ownerOf s i = Owner.free))
    ∧ (
    let k : Nat := 0
    let s0 : State := State.reset
    let s0 : State := s0
    let m : BitVec 8 := BitVec.ofNat 8 (if k%6=5 then 64 else 2^(1+k%6) + 64)
    let spec : Bool := k%2==0
    let o : Nat := 1 + k%6
    let l : List Nat := if k%6=5 then [] else [6]
    let s : State := wrN (let s0 : State := { s0 with cis := { owners := [], stack := [7*k, 3], fresh := 94208, errlog := [], waiting := [], again := [], ahead := false, held := [], last := none } }; let s0 : State := setF s0 Reg.CIS_STS 0 5 1; let s0 : State := wrN (wrN s0 Reg.CIS_FREECNT 0) Reg.CIS_CTL 64; (List.range 4).foldl (fun u j => wrN u (Reg.CIS_W j) 100) s0) Reg.CIS_EMPTYCNT (k*k)
    (s.wf = true) ∧ (requesters s m = o :: l) ∧ (cisReady s = true) ∧ (freeCount s = 0) ∧ (rdN s Reg.CIS_EMPTYCNT < 2 ^ 32 - 8))
    ∧ (
    let k : Nat := 0
    let s0 : State := State.reset
    let s0 : State := s0
    let m : BitVec 8 := BitVec.ofNat 8 (if k%6=5 then 64 else 2^(1+k%6) + 64)
    let spec : Bool := k%2==0
    let o : Nat := 1 + k%6
    let l : List Nat := if k%6=5 then [] else [6]
    let s : State := setBit (let s0 : State := { s0 with cis := { owners := [], stack := [7*k, 3], fresh := 94208, errlog := [], waiting := [], again := [], ahead := false, held := [], last := none } }; let s0 : State := setF s0 Reg.CIS_STS 0 5 1; let s0 : State := wrN (wrN s0 Reg.CIS_FREECNT (5000+k)) Reg.CIS_CTL 64; (List.range 4).foldl (fun u j => wrN u (Reg.CIS_W j) 100) s0) Reg.CIS_STS 0 false
    (s.wf = true) ∧ (requesters s m = o :: l) ∧ (cisReady s = false))
    ∧ (
    let k : Nat := 0
    let s0 : State := State.reset
    let s0 : State := s0
    let o : Fin 8 := Fin.ofNat 8 (1+k%6)
    let i : Nat := 7*k
    let c : CisState := { owners := [], stack := [3], fresh := 94208, errlog := [], waiting := if k%2=0 then [o.val, 9] else [9], again := if k%2=0 then [] else [3, o.val], ahead := false, held := [], last := none }
    let s : State := let s0 : State := { s0 with cis := { owners := [], stack := [7*k, 3], fresh := 94208, errlog := [], waiting := if k%2=0 then [o.val, 9] else [9], again := if k%2=0 then [] else [3, o.val], ahead := false, held := [], last := none } }; let s0 : State := setF s0 Reg.CIS_STS 0 5 1; let s0 : State := wrN (wrN s0 Reg.CIS_FREECNT (5000+k)) Reg.CIS_CTL 64; (List.range 4).foldl (fun u j => wrN u (Reg.CIS_W j) 100) s0
    (s.wf = true) ∧ (cisReady s = true) ∧ (s.cis.waiting.contains o.val = true ∨ s.cis.again.contains o.val = true) ∧ (1 < freeCount s) ∧ (wInEffect s 3 = false) ∧ (s.cis.pop = some (i, c)) ∧ (ownerOf s i = Owner.free))
    ∧ (
    let k : Nat := 0
    let s0 : State := State.reset
    let s0 : State := s0
    let o : Fin 8 := Fin.ofNat 8 k
    let s : State := let s0 : State := { s0 with cis := { owners := [], stack := [7*k, 3], fresh := 94208, errlog := [], waiting := [], again := [], ahead := false, held := [], last := none } }; let s0 : State := setF s0 Reg.CIS_STS 0 5 1; let s0 : State := wrN (wrN s0 Reg.CIS_FREECNT (5000+k)) Reg.CIS_CTL 64; (List.range 4).foldl (fun u j => wrN u (Reg.CIS_W j) 100) s0
    (s.wf = true) ∧ (cisReady s = false ∨ ((wInEffect s 3 = true ∨ s.cis.waiting.contains o.val = false) ∧ s.cis.again.contains o.val = false)))
    ∧ (
    let k : Nat := 0
    let s0 : State := State.reset
    let s0 : State := s0
    let r : Fin 8 := Fin.ofNat 8 (1+k%6)
    let i : BitVec 17 := BitVec.ofNat 17 (k*1000)
    let o : Byte := BitVec.ofNat 8 (1+k%7)
    let s : State := setOwner (i.toNat) r (let s0 : State := { s0 with cis := { owners := [], stack := [], fresh := 94208, errlog := [], waiting := [], again := [], ahead := false, held := [], last := none } }; let s0 : State := setF s0 Reg.CIS_STS 0 5 1; let s0 : State := wrN (wrN s0 Reg.CIS_FREECNT (5000+k)) Reg.CIS_CTL 64; (List.range 4).foldl (fun u j => wrN u (Reg.CIS_W j) 100) s0)
    (s.wf = true) ∧ (cisReady s = true) ∧ (opCheck s r i.toNat true (some o.toNat) = 0))
    ∧ (
    let k : Nat := 0
    let s0 : State := State.reset
    let s0 : State := s0
    let r : Fin 8 := Fin.ofNat 8 (1+k%6)
    let i : BitVec 17 := BitVec.ofNat 17 (k*1000)
    let o : Byte := BitVec.ofNat 8 (8*(k%2))
    let s : State := setOwner (i.toNat) (if k%2=0 then r.val else 0) (let s0 : State := { s0 with cis := { owners := [], stack := [], fresh := 94208, errlog := [], waiting := [], again := [], ahead := false, held := [], last := none } }; let s0 : State := setF s0 Reg.CIS_STS 0 5 1; let s0 : State := wrN (wrN s0 Reg.CIS_FREECNT (5000+k)) Reg.CIS_CTL 64; (List.range 4).foldl (fun u j => wrN u (Reg.CIS_W j) 100) s0)
    (s.wf = true) ∧ (cisReady s = true) ∧ (opCheck s r i.toNat true (some o.toNat) ≠ 0))
    ∧ (
    let k : Nat := 0
    let s0 : State := State.reset
    let s0 : State := s0
    let r : Fin 8 := Fin.ofNat 8 (1+k%6)
    let i : BitVec 17 := BitVec.ofNat 17 (k*1000)
    let o : Byte := 2#8
    let s : State := setBit s0 Reg.CIS_STS 0 false
    (s.wf = true) ∧ (cisReady s = false))
    ∧ (
    let k : Nat := 0
    let s0 : State := State.reset
    let s0 : State := s0
    let r : Fin 8 := Fin.ofNat 8 (1+k%6)
    let i : BitVec 17 := BitVec.ofNat 17 (k*1000)
    let s : State := setOwner (i.toNat) r (let s0 : State := { s0 with cis := { owners := [], stack := [], fresh := 94208, errlog := [], waiting := [], again := [], ahead := false, held := [], last := none } }; let s0 : State := setF s0 Reg.CIS_STS 0 5 1; let s0 : State := wrN (wrN s0 Reg.CIS_FREECNT (5000+k)) Reg.CIS_CTL 64; (List.range 4).foldl (fun u j => wrN u (Reg.CIS_W j) 100) s0)
    (s.wf = true) ∧ (cisReady s = true) ∧ (opCheck s r i.toNat true none = 0) ∧ (freeCount s < 94208))
    ∧ (
    let k : Nat := 0
    let s0 : State := State.reset
    let s0 : State := s0
    let r : Fin 8 := Fin.ofNat 8 (1+k%6)
    let i : BitVec 17 := BitVec.ofNat 17 (k*1000)
    let s : State := setOwner (i.toNat) 0 (let s0 : State := { s0 with cis := { owners := [], stack := [], fresh := 94208, errlog := [], waiting := [], again := [], ahead := false, held := [], last := none } }; let s0 : State := setF s0 Reg.CIS_STS 0 5 1; let s0 : State := wrN (wrN s0 Reg.CIS_FREECNT (5000+k)) Reg.CIS_CTL 64; (List.range 4).foldl (fun u j => wrN u (Reg.CIS_W j) 100) s0)
    (s.wf = true) ∧ (cisReady s = true) ∧ (opCheck s r i.toNat true none ≠ 0))
    ∧ (
    let k : Nat := 0
    let s0 : State := State.reset
    let s0 : State := s0
    let r : Fin 8 := Fin.ofNat 8 (1+k%6)
    let i : BitVec 17 := BitVec.ofNat 17 (k*1000)
    let s : State := setBit s0 Reg.CIS_STS 0 false
    (s.wf = true) ∧ (cisReady s = false))
    ∧ (
    let k : Nat := 0
    let s0 : State := State.reset
    let s0 : State := s0
    let i : Nat := 700
    let s : State := let s0 : State := setSpec 700 true (setOwner 700 2 (let s0 : State := { s0 with cis := { owners := [], stack := [], fresh := 94208, errlog := [], waiting := [], again := [], ahead := false, held := [], last := none } }; let s0 : State := setF s0 Reg.CIS_STS 0 5 1; let s0 : State := wrN (wrN s0 Reg.CIS_FREECNT (5000+k)) Reg.CIS_CTL 64; (List.range 4).foldl (fun u j => wrN u (Reg.CIS_W j) 100) s0)); setBit { s0 with tsq := State.reset.tsq } Reg.CIS_STS 1 true
    (s.wf = true) ∧ (wInEffect s 0 = true) ∧ (((s.cis.owners.map Prod.fst).find? fun j => isSpec s j && !inOperation s j) = some i))
    ∧ (
    let k : Nat := 0
    let s0 : State := State.reset
    let s0 : State := s0
    let s : State := setBit s0 Reg.CIS_STS 1 false
    (s.wf = true) ∧ (wInEffect s 0 = false))
    ∧ (
    let k : Nat := 0
    let s0 : State := State.reset
    let s0 : State := s0
    let s : State := setBit s0 Reg.CIS_STS 0 false
    (s.wf = true) ∧ (cisReady s = false))
    ∧ (
    let k : Nat := 0
    let s0 : State := State.reset
    let s0 : State := s0
    let s : State := setBit { s0 with cis := { s0.cis with held := [] } } Reg.CIS_STS 0 false
    (s.wf = true) ∧ (cisReady s = false) ∧ (s.cis.held = []))
    ∧ (
    let k : Nat := 0
    let s0 : State := State.reset
    let s0 : State := s0
    let s : State := setBit s0 Reg.CIS_STS 0 true
    (s.wf = true) ∧ (cisReady s = true))
    ∧ (
    let k : Nat := 0
    let s0 : State := State.reset
    let s0 : State := s0
    let i : Nat := 7*k
    let c : CisState := { owners := [], stack := [3], fresh := 94208, errlog := [], waiting := [], again := [], ahead := false, held := [], last := none }
    let s : State := let s0 : State := { s0 with cis := { owners := [], stack := [7*k, 3], fresh := 94208, errlog := [], waiting := [], again := [], ahead := false, held := [], last := none } }; let s0 : State := setF s0 Reg.CIS_STS 0 5 1; let s0 : State := wrN (wrN s0 Reg.CIS_FREECNT (5000+k)) Reg.CIS_CTL 64; (List.range 4).foldl (fun u j => wrN u (Reg.CIS_W j) 100) s0
    (s.wf = true) ∧ (cisReady s = true) ∧ (1 < freeCount s) ∧ (wInEffect s 3 = false) ∧ (s.cis.pop = some (i, c)) ∧ (ownerOf s i = Owner.free))
    ∧ (
    let k : Nat := 0
    let s0 : State := State.reset
    let s0 : State := s0
    let s : State := setBit (let s0 : State := { s0 with cis := { owners := [], stack := [7*k, 3], fresh := 94208, errlog := [], waiting := [], again := [], ahead := false, held := [], last := none } }; let s0 : State := setF s0 Reg.CIS_STS 0 5 1; let s0 : State := wrN (wrN s0 Reg.CIS_FREECNT (5000+k)) Reg.CIS_CTL 64; (List.range 4).foldl (fun u j => wrN u (Reg.CIS_W j) 100) s0) Reg.CIS_STS 4 true
    (s.wf = true) ∧ (cisReady s = true) ∧ (freeCount s ≠ 0) ∧ (wInEffect s 3 = true))
    ∧ (
    let k : Nat := 0
    let s0 : State := State.reset
    let s0 : State := s0
    let i : Nat := 7*k
    let c : CisState := { owners := [], stack := [3], fresh := 94208, errlog := [], waiting := [], again := [], ahead := false, held := [], last := none }
    let s : State := setBit (let s0 : State := { s0 with cis := { owners := [], stack := [7*k, 3], fresh := 94208, errlog := [], waiting := [], again := [], ahead := false, held := [], last := none } }; let s0 : State := setF s0 Reg.CIS_STS 0 5 1; let s0 : State := wrN (wrN s0 Reg.CIS_FREECNT (5000+k)) Reg.CIS_CTL 64; (List.range 4).foldl (fun u j => wrN u (Reg.CIS_W j) 100) s0) Reg.CIS_STS 4 (k%2==0)
    (s.wf = true) ∧ (cisReady s = true) ∧ (1 < freeCount s) ∧ (s.cis.pop = some (i, c)) ∧ (ownerOf s i = Owner.free))
    ∧ (
    let k : Nat := 0
    let s0 : State := State.reset
    let s0 : State := s0
    let s : State := let s0 : State := { s0 with cis := { owners := [], stack := [7*k, 3], fresh := 94208, errlog := [], waiting := [], again := [], ahead := false, held := [], last := none } }; let s0 : State := setF s0 Reg.CIS_STS 0 5 1; let s0 : State := wrN (wrN s0 Reg.CIS_FREECNT 0) Reg.CIS_CTL 64; (List.range 4).foldl (fun u j => wrN u (Reg.CIS_W j) 100) s0
    (s.wf = true) ∧ (cisReady s = true) ∧ (freeCount s = 0))
    ∧ (
    let k : Nat := 0
    let s0 : State := State.reset
    let s0 : State := s0
    let s : State := setBit s0 Reg.CIS_STS 0 false
    (s.wf = true) ∧ (cisReady s = false))
    ∧ (
    let k : Nat := 0
    let s0 : State := State.reset
    let s0 : State := s0
    let s : State := let s0 : State := { s0 with cis := { owners := [], stack := [7*k, 3], fresh := 94208, errlog := [], waiting := [], again := [], ahead := false, held := [], last := none } }; let s0 : State := setF s0 Reg.CIS_STS 0 5 1; let s0 : State := wrN (wrN s0 Reg.CIS_FREECNT 0) Reg.CIS_CTL 64; (List.range 4).foldl (fun u j => wrN u (Reg.CIS_W j) 100) s0
    (s.wf = true) ∧ (cisReady s = true) ∧ (freeCount s = 0))
    ∧ (
    let k : Nat := 0
    let s0 : State := State.reset
    let s0 : State := s0
    let s : State := setBit s0 Reg.CIS_STS 0 false
    (s.wf = true) ∧ (cisReady s = false))
    ∧ (
    let k : Nat := 0
    let s0 : State := State.reset
    let s0 : State := s0
    let v : Word := BitVec.ofNat 32 (7*k*4096)
    let s : State := setOwner (7*k) Owner.core (let s0 : State := { s0 with cis := { owners := [], stack := [], fresh := 94208, errlog := [], waiting := [], again := [], ahead := false, held := [], last := none } }; let s0 : State := setF s0 Reg.CIS_STS 0 5 1; let s0 : State := wrN (wrN s0 Reg.CIS_FREECNT (5000+k)) Reg.CIS_CTL 64; (List.range 4).foldl (fun u j => wrN u (Reg.CIS_W j) 100) s0)
    (s.wf = true) ∧ (cisReady s = true) ∧ ((bitsOf v.toNat 0 29) < 0x17000000) ∧ (opCheck s Owner.core ((bitsOf v.toNat 0 29) / 4096) ((bitsOf v.toNat 0 29) % 4096 == 0) none = 0))
    ∧ (
    let k : Nat := 0
    let s0 : State := State.reset
    let s0 : State := s0
    let v : Word := BitVec.ofNat 32 (7*k*4096+k%2)
    let s : State := setOwner (7*k) (k%3) (let s0 : State := { s0 with cis := { owners := [], stack := [], fresh := 94208, errlog := [], waiting := [], again := [], ahead := false, held := [], last := none } }; let s0 : State := setF s0 Reg.CIS_STS 0 5 1; let s0 : State := wrN (wrN s0 Reg.CIS_FREECNT (5000+k)) Reg.CIS_CTL 64; (List.range 4).foldl (fun u j => wrN u (Reg.CIS_W j) 100) s0)
    (s.wf = true) ∧ (cisReady s = true) ∧ ((bitsOf v.toNat 0 29) < 0x17000000) ∧ (opCheck s Owner.core ((bitsOf v.toNat 0 29) / 4096) ((bitsOf v.toNat 0 29) % 4096 == 0) none ≠ 0))
    ∧ (
    let k : Nat := 0
    let s0 : State := State.reset
    let s0 : State := s0
    let v : DWord := BitVec.ofNat 64 (7*k*4096+2^32*(1+k%7))
    let s : State := setOwner (7*k) Owner.core (let s0 : State := { s0 with cis := { owners := [], stack := [], fresh := 94208, errlog := [], waiting := [], again := [], ahead := false, held := [], last := none } }; let s0 : State := setF s0 Reg.CIS_STS 0 5 1; let s0 : State := wrN (wrN s0 Reg.CIS_FREECNT (5000+k)) Reg.CIS_CTL 64; (List.range 4).foldl (fun u j => wrN u (Reg.CIS_W j) 100) s0)
    (s.wf = true) ∧ (cisReady s = true) ∧ ((bitsOf v.toNat 0 29) < 0x17000000) ∧ (opCheck s Owner.core ((bitsOf v.toNat 0 29) / 4096) ((bitsOf v.toNat 0 29) % 4096 == 0) (some (bitsOf v.toNat 32 8)) = 0))
    ∧ (
    let k : Nat := 0
    let s0 : State := State.reset
    let s0 : State := s0
    let v : DWord := BitVec.ofNat 64 (7*k*4096+2^32*8*(k%2))
    let s : State := setOwner (7*k) Owner.core (let s0 : State := { s0 with cis := { owners := [], stack := [], fresh := 94208, errlog := [], waiting := [], again := [], ahead := false, held := [], last := none } }; let s0 : State := setF s0 Reg.CIS_STS 0 5 1; let s0 : State := wrN (wrN s0 Reg.CIS_FREECNT (5000+k)) Reg.CIS_CTL 64; (List.range 4).foldl (fun u j => wrN u (Reg.CIS_W j) 100) s0)
    (s.wf = true) ∧ (cisReady s = true) ∧ ((bitsOf v.toNat 0 29) < 0x17000000) ∧ (opCheck s Owner.core ((bitsOf v.toNat 0 29) / 4096) ((bitsOf v.toNat 0 29) % 4096 == 0) (some (bitsOf v.toNat 32 8)) ≠ 0))
    ∧ (
    let k : Nat := 0
    let s0 : State := State.reset
    let s0 : State := s0
    let v : Word := BitVec.ofNat 32 (k*4096)
    let s : State := setBit s0 Reg.CIS_STS 0 false
    (s.wf = true) ∧ (cisReady s = false))
    ∧ (
    let k : Nat := 0
    let s0 : State := State.reset
    let s0 : State := s0
    let v : DWord := BitVec.ofNat 64 (k*4096)
    let s : State := setBit s0 Reg.CIS_STS 0 false
    (s.wf = true) ∧ (cisReady s = false))
    ∧ (
    let k : Nat := 0
    let s0 : State := State.reset
    let s0 : State := s0
    let e : Nat := k
    let l : List Nat := [4]
    let s : State := { s0 with cis := { s0.cis with errlog := e :: l } }
    (s.wf = true) ∧ (s.cis.errlog = e :: l))
    ∧ (
    let k : Nat := 0
    let s0 : State := State.reset
    let s0 : State := s0
    let s : State := { s0 with cis := { s0.cis with errlog := [] } }
    (s.wf = true) ∧ (s.cis.errlog = []))
    ∧ (
    let k : Nat := 0
    let s0 : State := State.reset
    let s0 : State := s0
    let v : Word := 5#32
    let s : State := s0
    (s.wf = true))
    ∧ (
    let k : Nat := 0
    let s0 : State := State.reset
    let s0 : State := s0
    let v : Word := BitVec.ofNat 32 (64+k*100+2^13*k)
    let s : State := s0
    (s.wf = true) ∧ (64 ≤ bitsOf v.toNat 0 13) ∧ (bitsOf v.toNat 0 13 ≤ 4096))
    ∧ (
    let k : Nat := 0
    let s0 : State := State.reset
    let s0 : State := s0
    let v : Word := BitVec.ofNat 32 (4097+k)
    let s : State := s0
    (s.wf = true) ∧ (bitsOf v.toNat 0 13 < 64 ∨ 4096 < bitsOf v.toNat 0 13)) := by
  repeat refine And.intro (by decide +kernel) ?_
  decide +kernel

/-- Hypotheses of WordsAreReadWrittenAndScrubbed hold together, of one clause after another. -/
theorem witness_words_are_read_written_and_scrubbed :
    (
    let k : Nat := 0
    let s0 : State := State.reset
    let s0 : State := s0
    let r : Byte := BitVec.ofNat 8 (k%20)
    let i : BitVec 26 := BitVec.ofNat 26 (k*7)
    let w : Fin 16 := 0
    let s : State := sramPutWord s0 i.toNat ⟨BitVec.ofNat 64 (k*0x123456789), .clean⟩
    (s.wf = true) ∧ (cached s r.toNat i.toNat = false) ∧ ((sramWord s i.toNat).cond = .clean))
    ∧ (
    let k : Nat := 0
    let s0 : State := State.reset
    let s0 : State := s0
    let r : Byte := BitVec.ofNat 8 (k%20)
    let i : BitVec 26 := BitVec.ofNat 26 (k*7)
    let w : Fin 16 := 0
    let s : State := sramPutWord s0 i.toNat ⟨BitVec.ofNat 64 (k*0x123456789), .single⟩
    (s.wf = true) ∧ (cached s r.toNat i.toNat = false) ∧ ((sramWord s i.toNat).cond = .single))
    ∧ (
    let k : Nat := 0
    let s0 : State := State.reset
    let s0 : State := s0
    let r : Byte := BitVec.ofNat 8 (k%20)
    let i : BitVec 26 := BitVec.ofNat 26 (k*7)
    let w : Fin 16 := 0
    let s : State := sramPutWord s0 i.toNat ⟨BitVec.ofNat 64 (k*0x123456789), .multi⟩
    (s.wf = true) ∧ (cached s r.toNat i.toNat = false) ∧ ((sramWord s i.toNat).cond = .multi))
    ∧ (
    let k : Nat := 0
    let s0 : State := State.reset
    let s0 : State := s0
    let r : Byte := BitVec.ofNat 8 (k%20)
    let i : BitVec 26 := BitVec.ofNat 26 (k*7)
    let w : Fin 16 := 0
    let s : State := sramPutWord s0 i.toNat ⟨BitVec.ofNat 64 (k*0x123456789), .poison⟩
    (s.wf = true) ∧ (cached s r.toNat i.toNat = false) ∧ ((sramWord s i.toNat).cond = .poison))
    ∧ (
    let k : Nat := 0
    let s0 : State := State.reset
    let s0 : State := s0
    let r : Byte := BitVec.ofNat 8 (k%6)
    let i : BitVec 26 := BitVec.ofNat 26 (0x19600000/8 + 64*k)
    let w : Fin 16 := 0
    let c : CacheLine := ⟨i.toNat / 8, k%2==0, List.replicate 8 ⟨BitVec.ofNat 64 (k*99), .clean⟩⟩
    let s : State := let s0 : State := setF (setF s0 Reg.CCH_STS 0 4 12) (Reg.CCH_NCSIZE 0) 12 17 0; let s0 : State := (List.range 4).foldl (fun u n => wrN u (Reg.CCH_NCSIZE n) 0) s0; { s0 with cch := { s0.cch with l2 := [c] } }
    (s.wf = true) ∧ (cached s r.toNat i.toNat = true) ∧ (draining s = false) ∧ (l2Line s (i.toNat / 8) = some c) ∧ ((c.words.getD (i.toNat % 8) ⟨0, .clean⟩).cond = .clean))
    ∧ (
    let k : Nat := 0
    let s0 : State := State.reset
    let s0 : State := s0
    let r : Byte := BitVec.ofNat 8 (6+k)
    let i : BitVec 26 := BitVec.ofNat 26 (k*7)
    let d : DWord := BitVec.ofNat 64 (k*0x987654321)
    let w : Fin 16 := 0
    let s : State := sramPutWord s0 i.toNat ⟨BitVec.ofNat 64 (k*0x123456789), .multi⟩
    (s.wf = true) ∧ (cached s r.toNat i.toNat = false) ∧ (6 ≤ r.toNat) ∧ (armedFlip s i.toNat = none))
    ∧ (
    let k : Nat := 0
    let s0 : State := State.reset
    let s0 : State := s0
    let r : Byte := BitVec.ofNat 8 (k%6)
    let i : BitVec 26 := BitVec.ofNat 26 (0x17000000/8 + 8*k + 1 + k%2)
    let d : DWord := 5#64
    let w : Fin 16 := 0
    let s : State := s0
    (s.wf = true) ∧ (r.toNat < 6) ∧ (touchesTag i.toNat 0xFF = true))
    ∧ (
    let k : Nat := 0
    let s0 : State := State.reset
    let s0 : State := s0
    let r : Byte := BitVec.ofNat 8 (k%6)
    let i : BitVec 26 := BitVec.ofNat 26 (zoneTableBase/8 + k)
    let d : DWord := 5#64
    let w : Fin 16 := 0
    let s : State := setBit s0 Reg.ZTB_CTL 0 true
    (s.wf = true) ∧ (r.toNat < 6) ∧ (touchesTag i.toNat 0xFF = false) ∧ (touchesZones s i.toNat = true))
    ∧ (
    let k : Nat := 0
    let s0 : State := State.reset
    let s0 : State := s0
    let r : Byte := BitVec.ofNat 8 (k%6)
    let i : BitVec 26 := BitVec.ofNat 26 (0x19600000/8 + 64*k)
    let d : DWord := BitVec.ofNat 64 (k*0x987654321)
    let w : Fin 16 := 0
    let c : CacheLine := ⟨i.toNat / 8, k%2==0, List.replicate 8 ⟨BitVec.ofNat 64 (k*99), .clean⟩⟩
    let s : State := let s0 : State := setF (setF s0 Reg.CCH_STS 0 4 12) (Reg.CCH_NCSIZE 0) 12 17 0; let s0 : State := (List.range 4).foldl (fun u n => wrN u (Reg.CCH_NCSIZE n) 0) s0; { s0 with cch := { s0.cch with l2 := [c] } }
    (s.wf = true) ∧ (cached s r.toNat i.toNat = true) ∧ (draining s = false) ∧ (touchesTag i.toNat 0xFF = false) ∧ (touchesZones s i.toNat = false) ∧ (l2Line s (i.toNat / 8) = some c) ∧ (c.words.length = 8) ∧ ((c.words.getD (i.toNat % 8) ⟨0, .clean⟩).cond = .clean))
    ∧ (
    let k : Nat := 0
    let s0 : State := State.reset
    let s0 : State := s0
    let r : Byte := BitVec.ofNat 8 (6+k)
    let i : BitVec 26 := BitVec.ofNat 26 (k*7)
    let d : DWord := BitVec.ofNat 64 (k*0x987654321)
    let m : Byte := BitVec.ofNat 8 (k*13 % 255)
    let w : Fin 16 := 0
    let s : State := sramPutWord s0 i.toNat ⟨BitVec.ofNat 64 (k*0x123456789), .clean⟩
    (s.wf = true) ∧ (cached s r.toNat i.toNat = false) ∧ (6 ≤ r.toNat) ∧ (m.toNat ≠ 0xFF) ∧ (armedFlip s i.toNat = none) ∧ ((sramWord s i.toNat).cond = .clean))
    ∧ (
    let k : Nat := 0
    let s0 : State := State.reset
    let s0 : State := s0
    let r : Byte := BitVec.ofNat 8 (6+k)
    let i : BitVec 26 := BitVec.ofNat 26 (k*7)
    let d : DWord := BitVec.ofNat 64 (k*0x987654321)
    let m : Byte := BitVec.ofNat 8 (k*13 % 255)
    let w : Fin 16 := 0
    let s : State := sramPutWord s0 i.toNat ⟨BitVec.ofNat 64 (k*0x123456789), .multi⟩
    (s.wf = true) ∧ (cached s r.toNat i.toNat = false) ∧ (6 ≤ r.toNat) ∧ (m.toNat ≠ 0xFF) ∧ ((sramWord s i.toNat).cond = .multi))
    ∧ (
    let k : Nat := 0
    let s0 : State := State.reset
    let s0 : State := s0
    let r : Byte := BitVec.ofNat 8 (6+k)
    let i : BitVec 26 := BitVec.ofNat 26 (k*7)
    let d : DWord := BitVec.ofNat 64 (k*0x987654321)
    let m : Byte := BitVec.ofNat 8 (k*13 % 255)
    let w : Fin 16 := 0
    let s : State := sramPutWord s0 i.toNat ⟨BitVec.ofNat 64 (k*0x123456789), .poison⟩
    (s.wf = true) ∧ (cached s r.toNat i.toNat = false) ∧ (6 ≤ r.toNat) ∧ (m.toNat ≠ 0xFF) ∧ ((sramWord s i.toNat).cond = .poison))
    ∧ (
    let k : Nat := 0
    let s0 : State := State.reset
    let s0 : State := s0
    let i : Nat := k*5
    let l : List Nat := [1]
    let s : State := let s0 : State := { s0 with ecc := { s0.ecc with fixes := i :: l } }; sramPutWord s0 i ⟨BitVec.ofNat 64 (k*0x123456789), .single⟩
    (s.wf = true) ∧ (s.ecc.fixes = i :: l) ∧ ((l.contains i) = false) ∧ ((sramWord s i).cond = .single) ∧ (armedFlip s i = none))
    ∧ (
    let k : Nat := 0
    let s0 : State := State.reset
    let s0 : State := s0
    let s : State := { s0 with ecc := { s0.ecc with fixes := [] } }
    (s.wf = true) ∧ (s.ecc.fixes = []))
    ∧ (
    let k : Nat := 0
    let s0 : State := State.reset
    let s0 : State := s0
    let bad : Word := BitVec.ofNat 32 (k*1000)
    let failed : BitVec 4 := 0#4
    let s : State := setF { s0 with sys := { s0.sys with resetLow := false, powerLost := false } } Reg.SYS_MODE 0 4 Mode.fill
    (s.wf = true) ∧ (mode s = Mode.fill) ∧ (s.sys.resetLow = false) ∧ (failed.toNat = 0))
    ∧ (
    let k : Nat := 0
    let s0 : State := State.reset
    let s0 : State := s0
    let bad : Word := BitVec.ofNat 32 (k*1000)
    let failed : BitVec 4 := BitVec.ofNat 4 (1+k%15)
    let s : State := setF { s0 with sys := { s0.sys with resetLow := false, powerLost := false } } Reg.SYS_MODE 0 4 Mode.fill
    (s.wf = true) ∧ (mode s = Mode.fill) ∧ (s.sys.resetLow = false) ∧ (s.sys.powerLost = false) ∧ (failed.toNat ≠ 0))
    ∧ (
    let k : Nat := 0
    let s0 : State := State.reset
    let s0 : State := s0
    let bad : Word := BitVec.ofNat 32 (k*1000)
    let failed : BitVec 4 := 0#4
    let s : State := setF s0 Reg.SYS_MODE 0 4 Mode.standby
    (s.wf = true) ∧ (mode s ≠ Mode.fill))
    ∧ (
    let k : Nat := 0
    let s0 : State := State.reset
    let s0 : State := s0
    let s : State := wrN (setBit s0 Reg.ECC_STS 8 true) Reg.ECC_SCRUB_POS (if k%3=0 then 2^29-8 else 8*k)
    (s.wf = true) ∧ (bit s Reg.ECC_STS 8 = true))
    ∧ (
    let k : Nat := 0
    let s0 : State := State.reset
    let s0 : State := s0
    let s : State := wrN (setBit s0 Reg.ECC_STS 8 true) Reg.ECC_SCRUB_POS (2^29-8)
    (s.wf = true) ∧ (bit s Reg.ECC_STS 8 = true) ∧ ((getF s Reg.ECC_SCRUB_POS 3 26) = 2 ^ 26 - 1))
    ∧ (
    let k : Nat := 0
    let s0 : State := State.reset
    let s0 : State := s0
    let s : State := setBit s0 Reg.ECC_STS 8 false
    (s.wf = true) ∧ (bit s Reg.ECC_STS 8 = false))
    ∧ (
    let k : Nat := 0
    let s0 : State := State.reset
    let s0 : State := s0
    let s : State := let s0 : State := { s0 with ecc := { s0.ecc with late := false, lapStart := k }, clock := 1000*k+2000 }; wrN (setBit s0 Reg.ECC_STS 8 true) Reg.ECC_SCRUB_LIM (k/2)
    (s.wf = true) ∧ (bit s Reg.ECC_STS 8 = true) ∧ (s.ecc.late = false) ∧ (1000 * rdN s Reg.ECC_SCRUB_LIM < s.clock - s.ecc.lapStart))
    ∧ (
    let k : Nat := 0
    let s0 : State := State.reset
    let s0 : State := s0
    let v : Word := BitVec.ofNat 32 k
    let s : State := s0
    (s.wf = true))
    ∧ (
    let k : Nat := 0
    let s0 : State := State.reset
    let s0 : State := s0
    let v : DWord := BitVec.ofNat 64 (k*0x8123456789ABCDE)
    let s : State := setF s0 Reg.SYS_MODE 0 4 Mode.test
    (s.wf = true) ∧ (mode s = Mode.test))
    ∧ (
    let k : Nat := 0
    let s0 : State := State.reset
    let s0 : State := s0
    let v : DWord := BitVec.ofNat 64 (k*0x8123456789ABCDE)
    let s : State := setF s0 Reg.SYS_MODE 0 4 Mode.ready
    (s.wf = true) ∧ (mode s ≠ Mode.test))
    ∧ (
    let k : Nat := 0
    let s0 : State := State.reset
    let s0 : State := s0
    let v : Word := BitVec.ofNat 32 (2*k+1)
    let s : State := wr64 s0 (Reg.ECC_CELOG k) (2^63+k)
    (s.wf = true) ∧ (v.toNat.testBit 0 = true))
    ∧ (
    let k : Nat := 0
    let s0 : State := State.reset
    let s0 : State := s0
    let v : Word := BitVec.ofNat 32 (2*k)
    let s : State := s0
    (s.wf = true) ∧ (v.toNat.testBit 0 = false)) := by
  repeat refine And.intro (by decide +kernel) ?_
  decide +kernel

/-- Hypotheses of CachesAndWatchdogs hold together, of one clause after another. -/
theorem witness_caches_and_watchdogs :
    (
    let k : Nat := 0
    let s0 : State := State.reset
    let s0 : State := s0
    let r : Fin 6 := Fin.ofNat 6 k
    let l : BitVec 23 := BitVec.ofNat 23 (0x19600000/64+k)
    let w : Fin 16 := 0
    let c : CacheLine := ⟨l.toNat, true, List.replicate 8 ⟨BitVec.ofNat 64 (k*99), .clean⟩⟩
    let s : State := let s0 : State := setF s0 Reg.CCH_STS 0 4 12; let s0 : State := (List.range 4).foldl (fun u n => wrN u (Reg.CCH_NCSIZE n) 0) s0; { s0 with cch := { s0.cch with l2 := [], basin := [c], wback := [] } }
    (s.wf = true) ∧ (l2Serves s l.toNat = true) ∧ (l2Line s l.toNat = none) ∧ ((l2Set s l.toNat).length < 16) ∧ (s.cch.basin.find? (fun y => y.line == l.toNat) = some c))
    ∧ (
    let k : Nat := 0
    let s0 : State := State.reset
    let s0 : State := s0
    let r : Fin 6 := Fin.ofNat 6 k
    let l : BitVec 23 := BitVec.ofNat 23 (0x19600000/64+k)
    let w : Fin 16 := 0
    let s : State := let s0 : State := setF s0 Reg.CCH_STS 0 4 12; let s0 : State := (List.range 4).foldl (fun u n => wrN u (Reg.CCH_NCSIZE n) 0) s0; { s0 with cch := { s0.cch with l2 := [], basin := [], wback := [] } }
    (s.wf = true) ∧ (l2Serves s l.toNat = true) ∧ (l2Line s l.toNat = none) ∧ ((l2Set s l.toNat).length < 16) ∧ ((s.cch.basin.any fun y => y.line == l.toNat) = false) ∧ ((s.cch.wback.any fun y => y.line == l.toNat) = false) ∧ (((List.range 8).all fun j => (sramWord s (8 * l.toNat + j)).cond == .clean) = true))
    ∧ (
    let k : Nat := 0
    let s0 : State := State.reset
    let s0 : State := s0
    let r : Fin 6 := 0
    let l : BitVec 23 := BitVec.ofNat 23 k
    let w : Fin 16 := 0
    let s : State := let s0 : State := setF s0 Reg.CCH_STS 0 4 12; let s0 : State := (List.range 4).foldl (fun u n => wrN u (Reg.CCH_NCSIZE n) 0) s0; { s0 with cch := { s0.cch with l2 := [], basin := [], wback := [] } }
    (s.wf = true) ∧ (l2Serves s l.toNat = false ∨ (l2Line s l.toNat).isSome = true))
    ∧ (
    let k : Nat := 0
    let s0 : State := State.reset
    let s0 : State := s0
    let c : CacheLine := ⟨k*7, true, List.replicate 8 ⟨BitVec.ofNat 64 (k*99), .clean⟩⟩
    let l : List CacheLine := []
    let s : State := let s0 : State := setBit s0 (Reg.ECC_INJ + 4) 31 false; { s0 with cch := { s0.cch with wback := c :: l } }
    (s.wf = true) ∧ (s.cch.wback = c :: l) ∧ ((c.words.all fun y => y.cond == .clean) = true) ∧ (bit s (Reg.ECC_INJ + 4) 31 = false))
    ∧ (
    let k : Nat := 0
    let s0 : State := State.reset
    let s0 : State := s0
    let s : State := { s0 with cch := { s0.cch with wback := [] } }
    (s.wf = true) ∧ (s.cch.wback = []))
    ∧ (
    let k : Nat := 0
    let s0 : State := State.reset
    let s0 : State := s0
    let s : State := setF s0 Reg.CCH_STS 0 4 12
    (s.wf = true) ∧ (l2On s = true) ∧ (draining s = false))
    ∧ (
    let k : Nat := 0
    let s0 : State := State.reset
    let s0 : State := s0
    let s : State := setF s0 Reg.CCH_STS 0 4 0
    (s.wf = true) ∧ (l2On s = false) ∧ (draining s = false))
    ∧ (
    let k : Nat := 0
    let s0 : State := State.reset
    let s0 : State := s0
    let s : State := setBit s0 Reg.CCH_STS 0 true
    (s.wf = true) ∧ (draining s = true))
    ∧ (
    let k : Nat := 0
    let s0 : State := State.reset
    let s0 : State := s0
    let s : State := setBit s0 Reg.CCH_STS 0 true
    (s.wf = true) ∧ (draining s = true))
    ∧ (
    let k : Nat := 0
    let s0 : State := State.reset
    let s0 : State := s0
    let s : State := setBit s0 Reg.CCH_STS 0 false
    (s.wf = true) ∧ (draining s = false))
    ∧ (
    let k : Nat := 0
    let s0 : State := State.reset
    let s0 : State := s0
    let s : State := setBit (setBit s0 Reg.CCH_STS 0 false) Reg.CCH_STS 3 true
    (s.wf = true) ∧ (draining s = false) ∧ (basinOn s = true))
    ∧ (
    let k : Nat := 0
    let s0 : State := State.reset
    let s0 : State := s0
    let n : Fin 4 := Fin.ofNat 4 k
    let size : Bool := k%2==0
    let v : Word := BitVec.ofNat 32 (4096*k)
    let s : State := setF s0 Reg.CCH_STS 0 4 0
    (s.wf = true) ∧ (l2On s = false) ∧ (draining s = false))
    ∧ (
    let k : Nat := 0
    let s0 : State := State.reset
    let s0 : State := s0
    let n : Fin 4 := Fin.ofNat 4 k
    let size : Bool := k%2==0
    let v : Word := BitVec.ofNat 32 (4096*k)
    let s : State := setF s0 Reg.CCH_STS 0 4 (if k%2=0 then 4 else 1)
    (s.wf = true) ∧ (l2On s = true ∨ draining s = true))
    ∧ (
    let k : Nat := 0
    let s0 : State := State.reset
    let s0 : State := s0
    let c : Fin 6 := Fin.ofNat 6 k
    let v : Word := BitVec.ofNat 32 (2*k+1)
    let s : State := { s0 with cch := { s0.cch with kicks := [0, 1, 2, 3, 4, 5] } }
    (s.wf = true) ∧ (v.toNat.testBit 0 = true))
    ∧ (
    let k : Nat := 0
    let s0 : State := State.reset
    let s0 : State := s0
    let c : Fin 6 := Fin.ofNat 6 k
    let v : Word := BitVec.ofNat 32 (2*k)
    let s : State := s0
    (s.wf = true) ∧ (v.toNat.testBit 0 = false))
    ∧ (
    let k : Nat := 0
    let s0 : State := State.reset
    let s0 : State := s0
    let c : Fin 6 := Fin.ofNat 6 k
    let s : State := let s0 : State := { s0 with sys := { s0.sys with coresHeld := false }, clock := 10^12, cch := { s0.cch with kicks := [0, 1, 2, 3, 4, 5] } }; wrN s0 Reg.CCH_WDCTL (0x1003F + 256*(k%2))
    (s.wf = true) ∧ (wdExpired s c = true))
    ∧ (
    let k : Nat := 0
    let s0 : State := State.reset
    let s0 : State := s0
    let c : Fin 6 := Fin.ofNat 6 k
    let s : State := wrN s0 Reg.CCH_WDCTL 0
    (s.wf = true) ∧ (wdExpired s c = false)) := by
  repeat refine And.intro (by decide +kernel) ?_
  decide +kernel

/-- Hypotheses of CipherJobsRun hold together, of one clause after another. -/
theorem witness_cipher_jobs_run :
    (
    let k : Nat := 0
    let s0 : State := State.reset
    let s0 : State := s0
    let v : DWord := BitVec.ofNat 64 (64*k)
    let s : State := let s0 : State := s0; { s0 with cph := { s0.cph with jobs := [] } }
    (s.wf = true) ∧ (v.toNat % 64 = 0) ∧ (v.toNat < 2 ^ 29) ∧ (firmwareJobs s < 64))
    ∧ (
    let k : Nat := 0
    let s0 : State := State.reset
    let s0 : State := s0
    let v : DWord := BitVec.ofNat 64 (64*k+1+k)
    let s : State := let s0 : State := s0; { s0 with cph := { s0.cph with jobs := [] } }
    (s.wf = true) ∧ (v.toNat % 64 ≠ 0))
    ∧ (
    let k : Nat := 0
    let s0 : State := State.reset
    let s0 : State := s0
    let v : DWord := BitVec.ofNat 64 (64*k)
    let s : State := let s0 : State := s0; { s0 with cph := { s0.cph with jobs := (List.range 64).map fun n => { job0 n 4 0 0 16 0 0 with cluster := none, key := 0 } } }
    (s.wf = true) ∧ (v.toNat % 64 = 0) ∧ (64 ≤ firmwareJobs s))
    ∧ (
    let k : Nat := 0
    let s0 : State := State.reset
    let s0 : State := s0
    let j : CphJob := { job0 7 (1+k%4) 4096 0 16 0 0 with cluster := none }
    let c : Nat := 0
    let n : Nat := 1
    let s : State := let s0 : State := wr64 (wrN (setF s0 Reg.THM_CAPS 16 6 40) Reg.CPH_CTL (1 + 2^8*40)) Reg.CPH_CLOK (2^40-1); let s0 : State := s0; { s0 with cph := { s0.cph with jobs := [j], keys := [], pairs := [] } }
    (s.wf = true) ∧ (bit s Reg.CPH_CTL 0 = true) ∧ (pickJob s = some j) ∧ (pickCluster s = some c) ∧ (jobSlot s j = some n) ∧ (keyAt s n = none))
    ∧ (
    let k : Nat := 0
    let s0 : State := State.reset
    let s0 : State := s0
    let j : CphJob := { job0 7 (1+k%4) 4096 0 16 0 0 with cluster := none }
    let c : Nat := 0
    let n : Nat := 1
    let x : KeySlot := key0 1 (if k%4<2 then 3 else 1) 0
    let s : State := let s0 : State := wr64 (wrN (setF s0 Reg.THM_CAPS 16 6 40) Reg.CPH_CTL (1 + 2^8*40)) Reg.CPH_CLOK (2^40-1); let s0 : State := s0; { s0 with cph := { s0.cph with jobs := [j], keys := [x], pairs := [] } }
    (s.wf = true) ∧ (bit s Reg.CPH_CTL 0 = true) ∧ (pickJob s = some j) ∧ (pickCluster s = some c) ∧ (jobSlot s j = some n) ∧ (keyAt s n = some x) ∧ (x.ending = none) ∧ (useAdmits x j = false))
    ∧ (
    let k : Nat := 0
    let s0 : State := State.reset
    let s0 : State := s0
    let j : CphJob := { job0 7 (1+2*(k%2)) 4096 0 16 0 0 with cluster := none }
    let c : Nat := 0
    let n : Nat := 1
    let x : KeySlot := key0 1 0 (2^48)
    let s : State := let s0 : State := wr64 (wrN (setF s0 Reg.THM_CAPS 16 6 40) Reg.CPH_CTL (1 + 2^8*40)) Reg.CPH_CLOK (2^40-1); let s0 : State := s0; { s0 with cph := { s0.cph with jobs := [j], keys := [x], pairs := [] } }
    (s.wf = true) ∧ (bit s Reg.CPH_CTL 0 = true) ∧ (pickJob s = some j) ∧ (pickCluster s = some c) ∧ (jobSlot s j = some n) ∧ (keyAt s n = some x) ∧ (x.ending = none) ∧ (useAdmits x j = true) ∧ (j.encrypts = true) ∧ (x.use = KeyUse.atRest) ∧ (2 ^ 48 ≤ x.counter))
    ∧ (
    let k : Nat := 0
    let s0 : State := State.reset
    let s0 : State := s0
    let j : CphJob := { job0 7 (2+2*(k%2)) 4096 0 16 0 0 with cluster := none }
    let c : Nat := 0
    let n : Nat := 1
    let x : KeySlot := key0 1 0 5
    let s : State := let s0 : State := wr64 (wrN (setF s0 Reg.THM_CAPS 16 6 40) Reg.CPH_CTL (1 + 2^8*40)) Reg.CPH_CLOK (2^40-1); let s0 : State := s0; { s0 with cph := { s0.cph with jobs := [j], keys := [x], pairs := [] } }
    (s.wf = true) ∧ (bit s Reg.CPH_CTL 0 = true) ∧ (pickJob s = some j) ∧ (pickCluster s = some c) ∧ (jobSlot s j = some n) ∧ (keyAt s n = some x) ∧ (x.ending = none) ∧ (useAdmits x j = true) ∧ (j.encrypts = false))
    ∧ (
    let k : Nat := 0
    let s0 : State := State.reset
    let s0 : State := s0
    let j : CphJob := { job0 7 (1+2*(k%2)) 4096 0 16 0 0 with cluster := none }
    let c : Nat := 0
    let n : Nat := 1
    let x : KeySlot := key0 1 0 (k*1000)
    let s : State := let s0 : State := wr64 (wrN (setF s0 Reg.THM_CAPS 16 6 40) Reg.CPH_CTL (1 + 2^8*40)) Reg.CPH_CLOK (2^40-1); let s0 : State := s0; { s0 with cph := { s0.cph with jobs := [j], keys := [x], pairs := [⟨6, 5, 2^20, false⟩] } }
    (s.wf = true) ∧ (bit s Reg.CPH_CTL 0 = true) ∧ (pickJob s = some j) ∧ (pickCluster s = some c) ∧ (jobSlot s j = some n) ∧ (keyAt s n = some x) ∧ (x.slot = n) ∧ (x.ending = none) ∧ (useAdmits x j = true) ∧ (j.encrypts = true) ∧ (x.use = KeyUse.atRest) ∧ (x.counter < 2 ^ 48) ∧ (blockBound x.counter ≤ pairBound s x.fixed x.kcv))
    ∧ (
    let k : Nat := 0
    let s0 : State := State.reset
    let s0 : State := s0
    let j : CphJob := { job0 7 (1+2*(k%2)) 4096 0 16 0 0 with cluster := none }
    let c : Nat := 0
    let n : Nat := 1
    let x : KeySlot := key0 1 0 (k*1000)
    let s : State := let s0 : State := wr64 (wrN (setF s0 Reg.THM_CAPS 16 6 40) Reg.CPH_CTL (1 + 2^8*40)) Reg.CPH_CLOK (2^40-1); let s0 : State := s0; { s0 with cph := { s0.cph with jobs := [j], keys := [x], pairs := [] } }
    (s.wf = true) ∧ (bit s Reg.CPH_CTL 0 = true) ∧ (pickJob s = some j) ∧ (pickCluster s = some c) ∧ (jobSlot s j = some n) ∧ (keyAt s n = some x) ∧ (x.ending = none) ∧ (useAdmits x j = true) ∧ (j.encrypts = true) ∧ (x.use = KeyUse.atRest) ∧ (x.counter < 2 ^ 48) ∧ (pairBound s x.fixed x.kcv < blockBound x.counter))
    ∧ (
    let k : Nat := 0
    let s0 : State := State.reset
    let s0 : State := s0
    let s : State := setBit s0 Reg.CPH_CTL 0 false
    (s.wf = true) ∧ (bit s Reg.CPH_CTL 0 = false))
    ∧ (
    let k : Nat := 0
    let s0 : State := State.reset
    let s0 : State := s0
    let n : Nat := 7
    let j : CphJob := job0 7 1 4096 0 0 0 0
    let s : State := let s0 : State := { s0 with sram := [] }; let s0 : State := (List.range 40).foldl (fun u i => sramPut8 u (4096 + i) (i*3)) s0; let s0 : State := sramPutWord s0 512 ⟨5, .multi⟩; let s0 : State := s0; { s0 with cph := { s0.cph with jobs := [j], keys := [key0 1 0 5] } }
    (s.wf = true) ∧ (jobRuns s n 1 = some j) ∧ (readable s j.src 4096 = false))
    ∧ (
    let k : Nat := 0
    let s0 : State := State.reset
    let s0 : State := s0
    let n : Nat := 7
    let j : CphJob := job0 7 2 4096 0 0 0 0
    let s : State := let s0 : State := { s0 with sram := [] }; let s0 : State := (List.range 40).foldl (fun u i => sramPut8 u (4096 + i) (i*3)) s0; let s0 : State := sramPutWord s0 512 ⟨5, .multi⟩; let s0 : State := s0; { s0 with cph := { s0.cph with jobs := [j], keys := [key0 1 0 5] } }
    (s.wf = true) ∧ (jobRuns s n 2 = some j) ∧ (readable s j.src 4096 = false))
    ∧ (
    let k : Nat := 0
    let s0 : State := State.reset
    let s0 : State := s0
    let n : Nat := 7
    let j : CphJob := job0 7 1 4096 0 0 0 0
    let s : State := let s0 : State := { s0 with sram := [] }; let s0 : State := (List.range 40).foldl (fun u i => sramPut8 u (4096 + i) (i*3)) s0; let s0 : State := s0; { s0 with cph := { s0.cph with jobs := [j], keys := [key0 1 0 5] } }
    (s.wf = true) ∧ (jobRuns s n 1 = some j) ∧ (readable s j.src 4096 = true) ∧ (j.src % 4096 = 0) ∧ (j.src < 4096 * numBuffers))
    ∧ (
    let k : Nat := 0
    let s0 : State := State.reset
    let s0 : State := s0
    let n : Nat := 7
    let j : CphJob := job0 7 2 4096 0 0 0 0
    let s : State := let s0 : State := { s0 with sram := [] }; let s0 : State := (List.range 40).foldl (fun u i => sramPut8 u (4096 + i) (i*3)) s0; let s0 : State := s0; { s0 with cph := { s0.cph with jobs := [j], keys := [key0 1 0 5] } }
    (s.wf = true) ∧ (jobRuns s n 2 = some j) ∧ (readable s j.src 4096 = true) ∧ (readable s (tagMeta (j.src / 4096)) 36 = true) ∧ (j.src % 4096 = 0) ∧ (j.src < 4096 * numBuffers))
    ∧ (
    let k : Nat := 0
    let s0 : State := State.reset
    let s0 : State := s0
    let n : Nat := 7
    let j : CphJob := job0 7 3 4100 8192 20 4096 3
    let s : State := let s0 : State := { s0 with sram := [] }; let s0 : State := (List.range 40).foldl (fun u i => sramPut8 u (4096 + i) (i*3)) s0; let s0 : State := s0; { s0 with cph := { s0.cph with jobs := [j], keys := [key0 1 0 5] } }
    (s.wf = true) ∧ (jobRuns s n 3 = some j) ∧ (readable s j.src j.len = true) ∧ (readable s j.aad j.aadLen = true))
    ∧ (
    let k : Nat := 0
    let s0 : State := State.reset
    let s0 : State := s0
    let n : Nat := 7
    let j : CphJob := job0 7 4 4100 8192 20 4096 3
    let s : State := let s0 : State := { s0 with sram := [] }; let s0 : State := (List.range 40).foldl (fun u i => sramPut8 u (4096 + i) (i*3)) s0; let s0 : State := s0; { s0 with cph := { s0.cph with jobs := [j], keys := [key0 1 0 5] } }
    (s.wf = true) ∧ (jobRuns s n 4 = some j) ∧ (readable s j.src (j.len + 16) = true) ∧ (readable s j.aad j.aadLen = true))
    ∧ (
    let k : Nat := 0
    let s0 : State := State.reset
    let s0 : State := s0
    let n : Nat := 7
    let j : CphJob := job0 7 4 4096 8192 20 0 0
    let s : State := let s0 : State := { s0 with sram := [] }; let s0 : State := (List.range 40).foldl (fun u i => sramPut8 u (4096 + i) (i*3)) s0; let s0 : State := sramPutWord s0 512 ⟨5, .multi⟩; let s0 : State := s0; { s0 with cph := { s0.cph with jobs := [j], keys := [key0 1 0 5] } }
    (s.wf = true) ∧ (jobRuns s n 4 = some j) ∧ (readable s j.src (j.len + 16) = false))
    ∧ (
    let k : Nat := 0
    let s0 : State := State.reset
    let s0 : State := s0
    let n : Nat := 7
    let d : Nat := 64*k+64
    let st : Nat := k%5
    let j : CphJob := { job0 7 4 0 0 16 0 0 with desc := some d, status := some st }
    let s : State := let s0 : State := s0; { s0 with cph := { s0.cph with jobs := [j] } }
    (s.wf = true) ∧ (s.cph.jobs = [j]) ∧ (j.id = n) ∧ (j.source = 5) ∧ (j.desc = some d) ∧ (j.status = some st) ∧ (j.ended = false))
    ∧ (
    let k : Nat := 0
    let s0 : State := State.reset
    let s0 : State := s0
    let n : Nat := 7
    let j : CphJob := job0 7 4 4096 0 0 0 0
    let s : State := let s0 : State := s0; { s0 with cph := { s0.cph with jobs := [j] } }
    (s.wf = true) ∧ (jobAt s n = some j) ∧ (j.status = none))
    ∧ (
    let k : Nat := 0
    let s0 : State := State.reset
    let s0 : State := s0
    let d : Nat := 64*k
    let l : List Nat := [3]
    let s : State := let s0 : State := s0; { s0 with cph := { s0.cph with fwcq := d :: l } }
    (s.wf = true) ∧ (s.cph.fwcq = d :: l))
    ∧ (
    let k : Nat := 0
    let s0 : State := State.reset
    let s0 : State := s0
    let s : State := let s0 : State := s0; { s0 with cph := { s0.cph with fwcq := [] } }
    (s.wf = true) ∧ (s.cph.fwcq = []))
    ∧ (
    let k : Nat := 0
    let s0 : State := State.reset
    let s0 : State := s0
    let s : State := setBit (setBit s0 Reg.CPH_RNGSTS 1 true) Reg.CPH_RNGSTS 2 false
    (s.wf = true) ∧ (drbgOk s = true))
    ∧ (
    let k : Nat := 0
    let s0 : State := State.reset
    let s0 : State := s0
    let s : State := setBit s0 Reg.CPH_RNGSTS 2 true
    (s.wf = true) ∧ (drbgOk s = false))
    ∧ (
    let k : Nat := 0
    let s0 : State := State.reset
    let s0 : State := s0
    let s : State := s0
    (s.wf = true))
    ∧ (
    let k : Nat := 0
    let s0 : State := State.reset
    let s0 : State := s0
    let s : State := setBit (setBit s0 Reg.CPH_RNGSTS 1 true) Reg.CPH_RNGSTS 2 false
    (s.wf = true) ∧ (drbgOk s = true))
    ∧ (
    let k : Nat := 0
    let s0 : State := State.reset
    let s0 : State := s0
    let s : State := setBit s0 Reg.CPH_RNGSTS 2 true
    (s.wf = true) ∧ (drbgOk s = false))
    ∧ (
    let k : Nat := 0
    let s0 : State := State.reset
    let s0 : State := s0
    let pass : BitVec 40 := BitVec.ofNat 40 (k*0x123456789)
    let drbg : Bool := k%2==0
    let s : State := setF s0 Reg.SYS_MODE 0 4 Mode.boot
    (s.wf = true) ∧ (mode s = Mode.boot))
    ∧ (
    let k : Nat := 0
    let s0 : State := State.reset
    let s0 : State := s0
    let pass : BitVec 40 := BitVec.ofNat 40 (1+k*0x123456789)
    let drbg : Bool := k%2==0
    let s : State := setF (setBit s0 Reg.CPH_CTL 16 true) Reg.SYS_MODE 0 4 Mode.test
    (s.wf = true) ∧ (mode s = Mode.test) ∧ (bit s Reg.CPH_CTL 16 = true) ∧ (pass.toNat ≠ 0))
    ∧ (
    let k : Nat := 0
    let s0 : State := State.reset
    let s0 : State := s0
    let pass : BitVec 40 := BitVec.ofNat 40 (1+k*0x123456789)
    let drbg : Bool := k%2==0
    let s : State := setF s0 Reg.SYS_MODE 0 4 Mode.ready
    (s.wf = true) ∧ (mode s ≠ Mode.boot) ∧ (mode s ≠ Mode.test ∨ bit s Reg.CPH_CTL 16 = false)) := by
  repeat refine And.intro (by decide +kernel) ?_
  decide +kernel

/-- Hypotheses of KeysAndNonces hold together, of one clause after another. -/
theorem witness_keys_and_nonces :
    (
    let k : Nat := 0
    let s0 : State := State.reset
    let s0 : State := s0
    let s : State := setBit s0 Reg.CPH_KSTS 0 true
    (s.wf = true) ∧ (loadCheck s ≠ 0))
    ∧ (
    let k : Nat := 0
    let s0 : State := State.reset
    let s0 : State := s0
    let s : State := let s0 : State := setBit (setBit (wrN s0 Reg.CPH_KSEL (k + 2^16*(k%4) + 2^20*(k%2))) Reg.CPH_KSTS 0 false) Reg.CPH_STS 17 true; let s0 : State := s0; { s0 with cph := { s0.cph with keys := [], pairs := [] } }
    (s.wf = true) ∧ (loadCheck s = 0))
    ∧ (
    let k : Nat := 0
    let s0 : State := State.reset
    let s0 : State := s0
    let x : KeySlot := key0 k (k%4) k
    let s : State := let s0 : State := setBit (wrN s0 Reg.CPH_KSEL k) Reg.CPH_KSTS 0 false; { s0 with cph := { s0.cph with keys := [x] } }
    (s.wf = true) ∧ (keyBusy s = false) ∧ (keyAt s (selSlot s) = some x))
    ∧ (
    let k : Nat := 0
    let s0 : State := State.reset
    let s0 : State := s0
    let s : State := let s0 : State := setBit s0 Reg.CPH_KSTS 0 false; { s0 with cph := { s0.cph with keys := [] } }
    (s.wf = true) ∧ (keyBusy s = false) ∧ (keyAt s (selSlot s) = none))
    ∧ (
    let k : Nat := 0
    let s0 : State := State.reset
    let s0 : State := s0
    let x : KeySlot := key0 k (k%4) k
    let s : State := let s0 : State := setBit (wrN s0 Reg.CPH_KSEL k) Reg.CPH_KSTS 0 false; { s0 with cph := { s0.cph with keys := [x] } }
    (s.wf = true) ∧ (keyBusy s = false) ∧ (keyAt s (selSlot s) = some x))
    ∧ (
    let k : Nat := 0
    let s0 : State := State.reset
    let s0 : State := s0
    let s : State := let s0 : State := setBit s0 Reg.CPH_KSTS 0 false; { s0 with cph := { s0.cph with keys := [] } }
    (s.wf = true) ∧ (keyBusy s = false) ∧ (keyAt s (selSlot s) = none))
    ∧ (
    let k : Nat := 0
    let s0 : State := State.reset
    let s0 : State := s0
    let x : KeySlot := { key0 k (k%4) k with ending := some (k%2==0) }
    let s : State := let s0 : State := s0; { s0 with cph := { s0.cph with keys := [x], jobs := [] } }
    (s.wf = true) ∧ ((s.cph.keys.find? fun y => y.ending.isSome) = some x) ∧ ((s.cph.jobs.any fun j => j.running && j.key == x.slot) = false))
    ∧ (
    let k : Nat := 0
    let s0 : State := State.reset
    let s0 : State := s0
    let s : State := let s0 : State := s0; { s0 with cph := { s0.cph with keys := [key0 3 0 5] } }
    (s.wf = true) ∧ ((s.cph.keys.any fun y => y.ending.isSome) = false))
    ∧ (
    let k : Nat := 0
    let s0 : State := State.reset
    let s0 : State := s0
    let r : NonceRecord := ⟨1, 6, 5, 2^20*(k+1)⟩
    let l : List NonceRecord := [⟨1, 9, 9, 5⟩]
    let s : State := let s0 : State := setF (setBit s0 Reg.CPH_NJSTS 2 false) Reg.CPH_NJSTS 15 17 k; { s0 with cph := { s0.cph with records := r :: l, pairs := [⟨6, 5, 7, false⟩], tries := 0, jobs := [{ job0 3 1 0 0 0 0 0 with cluster := none, journal := true }], keys := [key0 1 0 3] } }
    (s.wf = true) ∧ (s.cph.records = r :: l) ∧ (compacting s = false) ∧ (getF s Reg.CPH_NJSTS 15 17 < 65536))
    ∧ (
    let k : Nat := 0
    let s0 : State := State.reset
    let s0 : State := s0
    let r : NonceRecord := ⟨1, 6, 5, 2^20*(k+1)⟩
    let l : List NonceRecord := [⟨1, 9, 9, 5⟩]
    let s : State := let s0 : State := setF (setBit s0 Reg.CPH_NJSTS 2 false) Reg.CPH_NJSTS 15 17 k; { s0 with cph := { s0.cph with records := r :: l, pairs := [⟨6, 5, 7, false⟩], tries := k%2, jobs := [{ job0 3 1 0 0 0 0 0 with cluster := none, journal := true }], keys := [key0 1 0 3] } }
    (s.wf = true) ∧ (s.cph.records = r :: l) ∧ (compacting s = false) ∧ (s.cph.tries < 2))
    ∧ (
    let k : Nat := 0
    let s0 : State := State.reset
    let s0 : State := s0
    let r : NonceRecord := ⟨1, 6, 5, 2^20*(k+1)⟩
    let l : List NonceRecord := [⟨1, 9, 9, 5⟩]
    let s : State := let s0 : State := setF (setBit s0 Reg.CPH_NJSTS 2 false) Reg.CPH_NJSTS 15 17 k; { s0 with cph := { s0.cph with records := r :: l, pairs := [⟨6, 5, 7, false⟩], tries := 2, jobs := [{ job0 3 1 0 0 0 0 0 with cluster := none, journal := true }], keys := [key0 1 0 3] } }
    (s.wf = true) ∧ (s.cph.records = r :: l) ∧ (compacting s = false) ∧ (2 ≤ s.cph.tries))
    ∧ (
    let k : Nat := 0
    let s0 : State := State.reset
    let s0 : State := s0
    let ok : Bool := k%2==0
    let s : State := let s0 : State := s0; { s0 with cph := { s0.cph with records := [] } }
    (s.wf = true) ∧ (s.cph.records = [] ∨ compacting s = true))
    ∧ (
    let k : Nat := 0
    let s0 : State := State.reset
    let s0 : State := s0
    let s : State := let s0 : State := setBit s0 Reg.CPH_NJSTS 2 true; { s0 with cph := { s0.cph with pairs := [⟨6, 5, 7, false⟩, ⟨6, 6, 7, true⟩, ⟨7, 5, 8, false⟩] } }
    (s.wf = true) ∧ (compacting s = true))
    ∧ (
    let k : Nat := 0
    let s0 : State := State.reset
    let s0 : State := s0
    let s : State := setBit s0 Reg.CPH_NJSTS 2 false
    (s.wf = true) ∧ (compacting s = false))
    ∧ (
    let k : Nat := 0
    let s0 : State := State.reset
    let s0 : State := s0
    let s : State := setBit s0 Reg.CPH_NJSTS 0 true
    (s.wf = true) ∧ (bit s Reg.CPH_NJSTS 0 = true))
    ∧ (
    let k : Nat := 0
    let s0 : State := State.reset
    let s0 : State := s0
    let s : State := setBit s0 Reg.CPH_NJSTS 0 false
    (s.wf = true) ∧ (bit s Reg.CPH_NJSTS 0 = false)) := by
  repeat refine And.intro (by decide +kernel) ?_
  decide +kernel

/-- Hypotheses of TrustIsKept hold together, of one clause after another. -/
theorem witness_trust_is_kept :
    (
    let k : Nat := 0
    let s0 : State := State.reset
    let s0 : State := s0
    let n : Fin 4 := Fin.ofNat 4 (1+k%3)
    let s : State := let s0 : State := s0; { s0 with sec := { s0.sec with otp := none, keyHash := [9, 0, 0, 0] } }
    (s.wf = true) ∧ (s.sec.otp = none) ∧ (n.val ≠ 0) ∧ (keyHash s n = 0))
    ∧ (
    let k : Nat := 0
    let s0 : State := State.reset
    let s0 : State := s0
    let n : Fin 4 := Fin.ofNat 4 (1+k%3)
    let s : State := let s0 : State := s0; { s0 with sec := { s0.sec with otp := none, keyHash := [9, 1, 2, 3] } }
    (s.wf = true) ∧ (s.sec.otp = none) ∧ (n.val ≠ 0) ∧ (keyHash s n ≠ 0))
    ∧ (
    let k : Nat := 0
    let s0 : State := State.reset
    let s0 : State := s0
    let s : State := let s0 : State := s0; { s0 with sec := { s0.sec with otp := none } }
    (s.wf = true) ∧ (s.sec.otp = none))
    ∧ (
    let k : Nat := 0
    let s0 : State := State.reset
    let s0 : State := s0
    let n : Fin 4 := Fin.ofNat 4 k
    let s : State := let s0 : State := setBit s0 Reg.SEC_STS 0 false; { s0 with sec := { s0.sec with otp := none, keyHash := [0, 0, 0, 0] } }
    (s.wf = true) ∧ (s.sec.otp = none) ∧ (s.sec.runKey ≠ n.val ∨ bit s Reg.SEC_STS 0 = false) ∧ (lastKey s n = false))
    ∧ (
    let k : Nat := 0
    let s0 : State := State.reset
    let s0 : State := s0
    let n : Fin 4 := Fin.ofNat 4 k
    let s : State := let s0 : State := setBit s0 Reg.SEC_STS 0 true; { s0 with sec := { s0.sec with otp := none, runKey := n.val } }
    (s.wf = true) ∧ (s.sec.otp = none) ∧ (s.sec.runKey = n.val) ∧ (bit s Reg.SEC_STS 0 = true))
    ∧ (
    let k : Nat := 0
    let s0 : State := State.reset
    let s0 : State := s0
    let v : BitVec 7 := BitVec.ofNat 7 (5+k)
    let s : State := let s0 : State := wrN s0 Reg.SEC_FWSVN 64; { s0 with sec := { s0.sec with otp := none, arb := k%5 } }
    (s.wf = true) ∧ (s.sec.otp = none) ∧ (s.sec.arb < v.toNat) ∧ (v.toNat ≤ 64) ∧ (v.toNat ≤ getF s Reg.SEC_FWSVN 0 7))
    ∧ (
    let k : Nat := 0
    let s0 : State := State.reset
    let s0 : State := s0
    let v : BitVec 7 := BitVec.ofNat 7 k
    let s : State := let s0 : State := s0; { s0 with sec := { s0.sec with otp := none, arb := 40 } }
    (s.wf = true) ∧ (s.sec.otp = none) ∧ (v.toNat ≤ s.sec.arb ∨ 64 < v.toNat ∨ getF s Reg.SEC_FWSVN 0 7 < v.toNat))
    ∧ (
    let k : Nat := 0
    let s0 : State := State.reset
    let s0 : State := s0
    let v : BitVec 7 := BitVec.ofNat 7 k
    let op : OtpOp := .arb 3
    let s : State := let s0 : State := s0; { s0 with sec := { s0.sec with otp := some op } }
    (s.wf = true) ∧ (s.sec.otp = some op))
    ∧ (
    let k : Nat := 0
    let s0 : State := State.reset
    let s0 : State := s0
    let n : Nat := k%4
    let h : Nat := k+1
    let s : State := let s0 : State := s0; { s0 with sec := { s0.sec with otp := some (.keyHash n h), keyHash := [1, 0, 0, 0], arb := 5 } }
    (s.wf = true) ∧ (s.sec.otp = some (.keyHash n h)) ∧ (n < s.sec.keyHash.length))
    ∧ (
    let k : Nat := 0
    let s0 : State := State.reset
    let s0 : State := s0
    let n : Nat := k%4
    let s : State := let s0 : State := s0; { s0 with sec := { s0.sec with otp := some (.revoke n), keyHash := [1, 0, 0, 0], arb := 5 } }
    (s.wf = true) ∧ (s.sec.otp = some (.revoke n)))
    ∧ (
    let k : Nat := 0
    let s0 : State := State.reset
    let s0 : State := s0
    let h : Nat := k+1
    let s : State := let s0 : State := s0; { s0 with sec := { s0.sec with otp := some (.arb h), keyHash := [1, 0, 0, 0], arb := 5 } }
    (s.wf = true) ∧ (s.sec.otp = some (.arb h)))
    ∧ (
    let k : Nat := 0
    let s0 : State := State.reset
    let s0 : State := s0
    let op : OtpOp := if k%3=0 then .keyHash 1 77 else if k%3=1 then .revoke (k%4) else .arb (k+3)
    let s : State := let s0 : State := s0; { s0 with sec := { s0.sec with otp := some op, revoke := k%16, arb := k%3 } }
    (s.wf = true) ∧ (s.sec.otp = some op))
    ∧ (
    let k : Nat := 0
    let s0 : State := State.reset
    let s0 : State := s0
    let ok : Bool := k%2==0
    let s : State := let s0 : State := s0; { s0 with sec := { s0.sec with otp := none } }
    (s.wf = true) ∧ (s.sec.otp = none))
    ∧ (
    let k : Nat := 0
    let s0 : State := State.reset
    let s0 : State := s0
    let s : State := let s0 : State := s0; { s0 with sec := { s0.sec with verify := none, sign := none } }
    (s.wf = true) ∧ (secBusy s = false))
    ∧ (
    let k : Nat := 0
    let s0 : State := State.reset
    let s0 : State := s0
    let s : State := let s0 : State := s0; { s0 with sec := { s0.sec with verify := none, sign := none } }
    (s.wf = true) ∧ (secBusy s = false))
    ∧ (
    let k : Nat := 0
    let s0 : State := State.reset
    let s0 : State := s0
    let s : State := let s0 : State := s0; { s0 with sec := { s0.sec with verify := some 64 } }
    (s.wf = true) ∧ (secBusy s = true))
    ∧ (
    let k : Nat := 0
    let s0 : State := State.reset
    let s0 : State := s0
    let s : State := let s0 : State := s0; { s0 with sec := { s0.sec with verify := some 64 } }
    (s.wf = true) ∧ (secBusy s = true))
    ∧ (
    let k : Nat := 0
    let s0 : State := State.reset
    let s0 : State := s0
    let a : Nat := 64*k
    let s : State := let s0 : State := s0; { s0 with sec := { s0.sec with verify := some a } }
    (s.wf = true) ∧ (s.sec.verify = some a))
    ∧ (
    let k : Nat := 0
    let s0 : State := State.reset
    let s0 : State := s0
    let a : Nat := 64*k
    let s : State := let s0 : State := s0; { s0 with sec := { s0.sec with sign := some a, idKey := k%2==0 } }
    (s.wf = true) ∧ (s.sec.sign = some a))
    ∧ (
    let k : Nat := 0
    let s0 : State := State.reset
    let s0 : State := s0
    let s : State := s0
    (s.wf = true))
    ∧ (
    let k : Nat := 0
    let s0 : State := State.reset
    let s0 : State := s0
    let o : BitVec 10 := BitVec.ofNat 10 ((if k%5=0 then Reg.SLU_PESHARD else if k%5=1 then Reg.SLU_SPNMAX else if k%5=2 then Reg.SLU_TXCAP0 else if k%5=3 then Reg.SLU_APMAX (k%24) else Reg.SLU_DBCAP (k%24)) - 0x100000)
    let v : Word := BitVec.ofNat 32 (k*3)
    let w : Nat := if k%5=0 then 8 else if k%5=1 then 14 else if k%5=2 then 32 else if k%5=3 then 16 else 32
    let s : State := setBit (wrN s0 (if k%5=0 then Reg.SLU_PESHARD else if k%5=1 then Reg.SLU_SPNMAX else if k%5=2 then Reg.SLU_TXCAP0 else if k%5=3 then Reg.SLU_APMAX (k%24) else Reg.SLU_DBCAP (k%24)) 120) Reg.SLU_LOCK 0 true
    (s.wf = true) ∧ (sluLocked s = true) ∧ (limitFloat (0x100000 + o.toNat) = false) ∧ ((0x100000 + o.toNat) ≠ Reg.SLU_SHKHARD) ∧ (limitWidth (0x100000 + o.toNat) = some w) ∧ (v.toNat % 2 ^ w ≤ rdN s (0x100000 + o.toNat)))
    ∧ (
    let k : Nat := 0
    let s0 : State := State.reset
    let s0 : State := s0
    let o : BitVec 10 := BitVec.ofNat 10 ((if k%5=0 then Reg.SLU_PESHARD else if k%5=1 then Reg.SLU_SPNMAX else if k%5=2 then Reg.SLU_TXCAP0 else if k%5=3 then Reg.SLU_APMAX (k%24) else Reg.SLU_DBCAP (k%24)) - 0x100000)
    let v : Word := BitVec.ofNat 32 (k*3+1)
    let w : Nat := if k%5=0 then 8 else if k%5=1 then 14 else if k%5=2 then 32 else if k%5=3 then 16 else 32
    let s : State := setBit (wrN s0 (if k%5=0 then Reg.SLU_PESHARD else if k%5=1 then Reg.SLU_SPNMAX else if k%5=2 then Reg.SLU_TXCAP0 else if k%5=3 then Reg.SLU_APMAX (k%24) else Reg.SLU_DBCAP (k%24)) (k*2)) Reg.SLU_LOCK 0 true
    (s.wf = true) ∧ (sluLocked s = true) ∧ (limitFloat (0x100000 + o.toNat) = false) ∧ ((0x100000 + o.toNat) ≠ Reg.SLU_SHKHARD) ∧ (limitWidth (0x100000 + o.toNat) = some w) ∧ (rdN s (0x100000 + o.toNat) < v.toNat % 2 ^ w))
    ∧ (
    let k : Nat := 0
    let s0 : State := State.reset
    let s0 : State := s0
    let o : BitVec 10 := BitVec.ofNat 10 ((if k%3=0 then Reg.SLU_VCMMAX0 else if k%3=1 then Reg.SLU_VCMMAX1 else Reg.SLU_MAVMAX) - 0x100000)
    let v : Word := BitVec.ofNat 32 (0x3F000000+k)
    let s : State := setBit (wrN s0 (if k%3=0 then Reg.SLU_VCMMAX0 else if k%3=1 then Reg.SLU_VCMMAX1 else Reg.SLU_MAVMAX) 0x40000000) Reg.SLU_LOCK 0 true
    (s.wf = true) ∧ (sluLocked s = true) ∧ (limitFloat (0x100000 + o.toNat) = true) ∧ (v.toNat ≠ rdN s (0x100000 + o.toNat)) ∧ (fpNonFinite v.toNat = false) ∧ (0 < fpVal v.toNat) ∧ (fpVal v.toNat ≤ fpVal (rdN s (0x100000 + o.toNat))))
    ∧ (
    let k : Nat := 0
    let s0 : State := State.reset
    let s0 : State := s0
    let o : BitVec 10 := BitVec.ofNat 10 ((if k%3=0 then Reg.SLU_VCMMAX0 else if k%3=1 then Reg.SLU_VCMMAX1 else Reg.SLU_MAVMAX) - 0x100000)
    let v : Word := if k%3=0 then 0xBF000000#32 else if k%3=1 then 0x7F800000#32 else 0x40000001#32
    let s : State := setBit (wrN s0 (if k%3=0 then Reg.SLU_VCMMAX0 else if k%3=1 then Reg.SLU_VCMMAX1 else Reg.SLU_MAVMAX) 0x40000000) Reg.SLU_LOCK 0 true
    (s.wf = true) ∧ (sluLocked s = true) ∧ (limitFloat (0x100000 + o.toNat) = true) ∧ (v.toNat ≠ rdN s (0x100000 + o.toNat)) ∧ (fpNonFinite v.toNat = true ∨ fpVal v.toNat ≤ 0 ∨ fpVal (rdN s (0x100000 + o.toNat)) < fpVal v.toNat))
    ∧ (
    let k : Nat := 0
    let s0 : State := State.reset
    let s0 : State := s0
    let o : BitVec 10 := 0x180#10
    let v : Word := 5#32
    let s : State := setBit s0 Reg.SLU_LOCK 0 false
    (s.wf = true) ∧ (sluLocked s = false))
    ∧ (
    let k : Nat := 0
    let s0 : State := State.reset
    let s0 : State := s0
    let v : Word := BitVec.ofNat 32 (5+k%25+256*k)
    let s : State := setBit (wrN s0 Reg.SLU_PESHARD 30) Reg.SLU_LOCK 0 true
    (s.wf = true) ∧ (sluLocked s = true) ∧ (5 ≤ bitsOf v.toNat 0 8) ∧ (bitsOf v.toNat 0 8 ≤ 29) ∧ (bitsOf v.toNat 0 8 ≤ getF s Reg.SLU_PESHARD 0 8))
    ∧ (
    let k : Nat := 0
    let s0 : State := State.reset
    let s0 : State := s0
    let v : Word := BitVec.ofNat 32 (if k%2=0 then k%5 else 13+k)
    let s : State := setBit (wrN s0 Reg.SLU_PESHARD 12) Reg.SLU_LOCK 0 true
    (s.wf = true) ∧ (sluLocked s = true) ∧ (bitsOf v.toNat 0 8 < 5 ∨ 29 < bitsOf v.toNat 0 8 ∨ getF s Reg.SLU_PESHARD 0 8 < bitsOf v.toNat 0 8))
    ∧ (
    let k : Nat := 0
    let s0 : State := State.reset
    let s0 : State := s0
    let v : Word := BitVec.ofNat 32 (k*0x100010)
    let s : State := setBit (wrN s0 Reg.SLU_SHKHARD 0x10001000) Reg.SLU_LOCK 0 true
    (s.wf = true) ∧ (sluLocked s = true) ∧ (bitsOf v.toNat 0 16 ≤ getF s Reg.SLU_SHKHARD 0 16) ∧ (bitsOf v.toNat 16 16 ≤ getF s Reg.SLU_SHKHARD 16 16)) := by
  repeat refine And.intro (by decide +kernel) ?_
  decide +kernel

/-- Hypotheses of StartUpAndRequests hold together, of one clause after another. -/
theorem witness_start_up_and_requests :
    (
    let k : Nat := 0
    let s0 : State := State.reset
    let s0 : State := s0
    let identity : Bool := k%2==0
    let s : State := setF (let s0 : State := s0; { s0 with sys := { s0.sys with resetLow := false, powerLost := false, resetRank := none } }) Reg.SYS_MODE 0 4 Mode.boot
    (s.wf = true) ∧ (mode s = Mode.boot) ∧ (s.sys.resetLow = false) ∧ (s.sys.powerLost = false))
    ∧ (
    let k : Nat := 0
    let s0 : State := State.reset
    let s0 : State := s0
    let identity : Bool := k%2==0
    let s : State := setF (s0) Reg.SYS_MODE 0 4 Mode.ready
    (s.wf = true) ∧ (mode s ≠ Mode.boot))
    ∧ (
    let k : Nat := 0
    let s0 : State := State.reset
    let s0 : State := s0
    let pa : Option (List Byte) := if k%2=0 then none else some ((List.range (k*40)).map (BitVec.ofNat 8 ·))
    let pb : Option (List Byte) := none
    let hda : Option (List Byte) := if k%3=0 then none else some [1#8]
    let s : State := setF (let s0 : State := s0; { s0 with sys := { s0.sys with resetLow := false, powerLost := false, resetRank := none } }) Reg.SYS_MODE 0 4 Mode.survey
    (s.wf = true) ∧ (mode s = Mode.survey) ∧ (s.sys.resetLow = false) ∧ (s.sys.powerLost = false))
    ∧ (
    let k : Nat := 0
    let s0 : State := State.reset
    let s0 : State := s0
    let pa : Option (List Byte) := if k%2=0 then none else some ((List.range (k*40)).map (BitVec.ofNat 8 ·))
    let pb : Option (List Byte) := none
    let hda : Option (List Byte) := if k%3=0 then none else some [1#8]
    let s : State := setF (let s0 : State := s0; { s0 with sys := { s0.sys with resetLow := false, powerLost := false, resetRank := none } }) Reg.SYS_MODE 0 4 Mode.survey
    (s.wf = true) ∧ (mode s = Mode.survey) ∧ (s.sys.resetLow = false) ∧ (s.sys.powerLost = false) ∧ ((findings (pa.map fun l => l.map BitVec.toNat) (pb.map fun l => l.map BitVec.toNat) (hda.map fun l => l.map BitVec.toNat)).1 ≠ 0))
    ∧ (
    let k : Nat := 0
    let s0 : State := State.reset
    let s0 : State := s0
    let pa : Option (List Byte) := if k%2=0 then none else some ((List.range (k*40)).map (BitVec.ofNat 8 ·))
    let pb : Option (List Byte) := none
    let hda : Option (List Byte) := if k%3=0 then none else some [1#8]
    let s : State := setF (let s0 : State := s0; { s0 with sys := { s0.sys with resetLow := false, powerLost := false, resetRank := none } }) Reg.SYS_MODE 0 4 Mode.survey
    (s.wf = true) ∧ (mode s = Mode.survey) ∧ (s.sys.resetLow = false) ∧ (s.sys.powerLost = false) ∧ ((findings (pa.map fun l => l.map BitVec.toNat) (pb.map fun l => l.map BitVec.toNat) (hda.map fun l => l.map BitVec.toNat)).2.1 ≠ 0))
    ∧ (
    let k : Nat := 0
    let s0 : State := State.reset
    let s0 : State := s0
    let pa : Option (List Byte) := if k%2=0 then none else some ((List.range (k*40)).map (BitVec.ofNat 8 ·))
    let pb : Option (List Byte) := none
    let hda : Option (List Byte) := if k%3=0 then none else some [1#8]
    let s : State := setF (let s0 : State := s0; { s0 with sys := { s0.sys with resetLow := false, powerLost := false, resetRank := none } }) Reg.SYS_MODE 0 4 Mode.survey
    (s.wf = true) ∧ (mode s = Mode.survey) ∧ (s.sys.resetLow = false) ∧ (s.sys.powerLost = false) ∧ ((findings (pa.map fun l => l.map BitVec.toNat) (pb.map fun l => l.map BitVec.toNat) (hda.map fun l => l.map BitVec.toNat)).2.2 ≠ 0))
    ∧ (
    let k : Nat := 0
    let s0 : State := State.reset
    let s0 : State := s0
    let pa : Option (List Byte) := if k%2=0 then none else some ((List.range (k*40)).map (BitVec.ofNat 8 ·))
    let pb : Option (List Byte) := none
    let hda : Option (List Byte) := if k%3=0 then none else some [1#8]
    let s : State := setF (let s0 : State := s0; { s0 with sys := { s0.sys with resetLow := false, powerLost := false, resetRank := none } }) Reg.SYS_MODE 0 4 Mode.survey
    (s.wf = true) ∧ (mode s = Mode.survey) ∧ (s.sys.resetLow = false) ∧ (s.sys.powerLost = false) ∧ ((findings (pa.map fun l => l.map BitVec.toNat) (pb.map fun l => l.map BitVec.toNat) (hda.map fun l => l.map BitVec.toNat)).1 ≠ 0) ∧ ((findings (pa.map fun l => l.map BitVec.toNat) (pb.map fun l => l.map BitVec.toNat) (hda.map fun l => l.map BitVec.toNat)).2.1 ≠ 0))
    ∧ (
    let k : Nat := 0
    let s0 : State := State.reset
    let s0 : State := s0
    let pa : Option (List Byte) := none
    let pb : Option (List Byte) := none
    let hda : Option (List Byte) := none
    let s : State := setF (s0) Reg.SYS_MODE 0 4 Mode.ready
    (s.wf = true) ∧ (mode s ≠ Mode.survey))
    ∧ (
    let k : Nat := 0
    let s0 : State := State.reset
    let s0 : State := s0
    let v : Word := BitVec.ofNat 32 (2^31+2^30*(k%2)+k%3+4*k)
    let s : State := setBit (setF (s0) Reg.SYS_MODE 0 4 Mode.test) Reg.IDN_ASTS 0 false
    (s.wf = true) ∧ (v.toNat.testBit 31 = true) ∧ (bit s Reg.IDN_ASTS 0 = false) ∧ (mode s ≠ Mode.survey) ∧ ((bitsOf v.toNat 0 2) ≠ 3) ∧ ((bitsOf v.toNat 2 16) < idnWords (bitsOf v.toNat 0 2)) ∧ (v.toNat.testBit 30 = false ∨ mode s = Mode.test))
    ∧ (
    let k : Nat := 0
    let s0 : State := State.reset
    let s0 : State := s0
    let v : Word := BitVec.ofNat 32 (2^31+3+4*k)
    let s : State := setBit (setF (s0) Reg.SYS_MODE 0 4 Mode.test) Reg.IDN_ASTS 0 false
    (s.wf = true) ∧ (v.toNat.testBit 31 = true) ∧ (bit s Reg.IDN_ASTS 0 = false) ∧ (mode s ≠ Mode.survey) ∧ ((bitsOf v.toNat 0 2) = 3 ∨ idnWords (bitsOf v.toNat 0 2) ≤ (bitsOf v.toNat 2 16)))
    ∧ (
    let k : Nat := 0
    let s0 : State := State.reset
    let s0 : State := s0
    let v : Word := BitVec.ofNat 32 (2^31+2^30+k%3+4*k)
    let s : State := setBit (setF (s0) Reg.SYS_MODE 0 4 Mode.ready) Reg.IDN_ASTS 0 false
    (s.wf = true) ∧ (v.toNat.testBit 31 = true) ∧ (bit s Reg.IDN_ASTS 0 = false) ∧ (mode s ≠ Mode.survey) ∧ ((bitsOf v.toNat 0 2) ≠ 3) ∧ ((bitsOf v.toNat 2 16) < idnWords (bitsOf v.toNat 0 2)) ∧ (v.toNat.testBit 30 = true) ∧ (mode s ≠ Mode.test))
    ∧ (
    let k : Nat := 0
    let s0 : State := State.reset
    let s0 : State := s0
    let d : Word := BitVec.ofNat 32 (k*999)
    let x : IdnAccess := ⟨k%3, k, k%2==0⟩
    let s : State := let s0 : State := s0; { s0 with sys := { s0.sys with access := some x } }
    (s.wf = true) ∧ (s.sys.access = some x))
    ∧ (
    let k : Nat := 0
    let s0 : State := State.reset
    let s0 : State := s0
    let x : IdnAccess := ⟨k%3, k, k%2==0⟩
    let s : State := let s0 : State := s0; { s0 with sys := { s0.sys with access := some x } }
    (s.wf = true) ∧ (s.sys.access = some x))
    ∧ (
    let k : Nat := 0
    let s0 : State := State.reset
    let s0 : State := s0
    let s : State := setF (let s0 : State := setBit s0 Reg.CAL_STS 0 false; { s0 with sys := { s0.sys with target := none, step := none, next := none, loadedA := false, loadedB := false } }) Reg.SYS_MODE 0 4 Mode.standby
    (s.wf = true) ∧ (bit s Reg.CAL_STS 0 = false) ∧ (s.sys.step = none) ∧ (atMode s Mode.standby = true))
    ∧ (
    let k : Nat := 0
    let s0 : State := State.reset
    let s0 : State := s0
    let i : Nat := 3+k%4
    let s : State := let s0 : State := setBit s0 Reg.CAL_STS 0 false; { s0 with sys := { s0.sys with step := some i } }
    (s.wf = true) ∧ (bit s Reg.CAL_STS 0 = false) ∧ (s.sys.step = some i))
    ∧ (
    let k : Nat := 0
    let s0 : State := State.reset
    let s0 : State := s0
    let s : State := setBit s0 Reg.CAL_STS 0 true
    (s.wf = true) ∧ (bit s Reg.CAL_STS 0 = true))
    ∧ (
    let k : Nat := 0
    let s0 : State := State.reset
    let s0 : State := s0
    let s : State := setF (let s0 : State := setBit s0 Reg.CAL_STS 0 false; { s0 with sys := { s0.sys with target := none, step := none, next := none, loadedA := false, loadedB := false } }) Reg.SYS_MODE 0 4 Mode.safeHold
    (s.wf = true) ∧ (bit s Reg.CAL_STS 0 = false) ∧ (s.sys.step = none) ∧ (mode s ≠ Mode.test) ∧ (runsMode (mode s) = false))
    ∧ (
    let k : Nat := 0
    let s0 : State := State.reset
    let s0 : State := s0
    let s : State := setF (let s0 : State := setBit s0 Reg.CAL_STS 0 false; { s0 with sys := { s0.sys with target := none, step := none, next := none, loadedA := false, loadedB := false } }) Reg.SYS_MODE 0 4 Mode.spinning
    (s.wf = true) ∧ (bit s Reg.CAL_STS 0 = false) ∧ (s.sys.step = none) ∧ (atMode s Mode.spinning = true))
    ∧ (
    let k : Nat := 0
    let s0 : State := State.reset
    let s0 : State := s0
    let i : Nat := 3+k%4
    let s : State := let s0 : State := setBit s0 Reg.CAL_STS 0 false; { s0 with sys := { s0.sys with step := some i } }
    (s.wf = true) ∧ (bit s Reg.CAL_STS 0 = false) ∧ (s.sys.step = some i))
    ∧ (
    let k : Nat := 0
    let s0 : State := State.reset
    let s0 : State := s0
    let s : State := setBit s0 Reg.CAL_STS 0 true
    (s.wf = true) ∧ (bit s Reg.CAL_STS 0 = true))
    ∧ (
    let k : Nat := 0
    let s0 : State := State.reset
    let s0 : State := s0
    let s : State := setF (let s0 : State := setBit s0 Reg.CAL_STS 0 false; { s0 with sys := { s0.sys with target := none, step := none, next := none, loadedA := false, loadedB := false } }) Reg.SYS_MODE 0 4 Mode.safeHold
    (s.wf = true) ∧ (bit s Reg.CAL_STS 0 = false) ∧ (s.sys.step = none) ∧ (mode s ≠ Mode.test) ∧ (runsMode (mode s) = false))
    ∧ (
    let k : Nat := 0
    let s0 : State := State.reset
    let s0 : State := s0
    let s : State := setF (let s0 : State := setBit s0 Reg.CAL_STS 0 false; { s0 with sys := { s0.sys with target := none, step := none, next := none, loadedA := false, loadedB := false } }) Reg.SYS_MODE 0 4 Mode.slow
    (s.wf = true) ∧ (bit s Reg.CAL_STS 0 = false) ∧ (s.sys.step = none) ∧ (atMode s Mode.slow = true))
    ∧ (
    let k : Nat := 0
    let s0 : State := State.reset
    let s0 : State := s0
    let i : Nat := 3+k%4
    let s : State := let s0 : State := setBit s0 Reg.CAL_STS 0 false; { s0 with sys := { s0.sys with step := some i } }
    (s.wf = true) ∧ (bit s Reg.CAL_STS 0 = false) ∧ (s.sys.step = some i))
    ∧ (
    let k : Nat := 0
    let s0 : State := State.reset
    let s0 : State := s0
    let s : State := setBit s0 Reg.CAL_STS 0 true
    (s.wf = true) ∧ (bit s Reg.CAL_STS 0 = true))
    ∧ (
    let k : Nat := 0
    let s0 : State := State.reset
    let s0 : State := s0
    let s : State := setF (let s0 : State := setBit s0 Reg.CAL_STS 0 false; { s0 with sys := { s0.sys with target := none, step := none, next := none, loadedA := false, loadedB := false } }) Reg.SYS_MODE 0 4 Mode.safeHold
    (s.wf = true) ∧ (bit s Reg.CAL_STS 0 = false) ∧ (s.sys.step = none) ∧ (mode s ≠ Mode.test) ∧ (runsMode (mode s) = false))
    ∧ (
    let k : Nat := 0
    let s0 : State := State.reset
    let s0 : State := s0
    let s : State := setF (let s0 : State := setBit s0 Reg.CAL_STS 0 false; { s0 with sys := { s0.sys with target := none, step := none, next := none, loadedA := false, loadedB := false } }) Reg.SYS_MODE 0 4 Mode.ready
    (s.wf = true) ∧ (bit s Reg.CAL_STS 0 = false) ∧ (s.sys.step = none) ∧ (atMode s Mode.ready = true))
    ∧ (
    let k : Nat := 0
    let s0 : State := State.reset
    let s0 : State := s0
    let i : Nat := 3+k%4
    let s : State := let s0 : State := setBit s0 Reg.CAL_STS 0 false; { s0 with sys := { s0.sys with step := some i } }
    (s.wf = true) ∧ (bit s Reg.CAL_STS 0 = false) ∧ (s.sys.step = some i))
    ∧ (
    let k : Nat := 0
    let s0 : State := State.reset
    let s0 : State := s0
    let s : State := setBit s0 Reg.CAL_STS 0 true
    (s.wf = true) ∧ (bit s Reg.CAL_STS 0 = true))
    ∧ (
    let k : Nat := 0
    let s0 : State := State.reset
    let s0 : State := s0
    let s : State := setF (let s0 : State := setBit s0 Reg.CAL_STS 0 false; { s0 with sys := { s0.sys with target := none, step := none, next := none, loadedA := false, loadedB := false } }) Reg.SYS_MODE 0 4 Mode.safeHold
    (s.wf = true) ∧ (bit s Reg.CAL_STS 0 = false) ∧ (s.sys.step = none) ∧ (mode s ≠ Mode.test) ∧ (runsMode (mode s) = false))
    ∧ (
    let k : Nat := 0
    let s0 : State := State.reset
    let s0 : State := s0
    let s : State := setF (let s0 : State := setBit s0 Reg.CAL_STS 0 false; { s0 with sys := { s0.sys with target := none, step := none, next := none, loadedA := false, loadedB := false } }) Reg.SYS_MODE 0 4 Mode.test
    (s.wf = true) ∧ (bit s Reg.CAL_STS 0 = false) ∧ (s.sys.step = none) ∧ (atMode s Mode.test = true))
    ∧ (
    let k : Nat := 0
    let s0 : State := State.reset
    let s0 : State := s0
    let i : Nat := 3+k%4
    let s : State := let s0 : State := setBit s0 Reg.CAL_STS 0 false; { s0 with sys := { s0.sys with step := some i } }
    (s.wf = true) ∧ (bit s Reg.CAL_STS 0 = false) ∧ (s.sys.step = some i))
    ∧ (
    let k : Nat := 0
    let s0 : State := State.reset
    let s0 : State := s0
    let s : State := setBit s0 Reg.CAL_STS 0 true
    (s.wf = true) ∧ (bit s Reg.CAL_STS 0 = true))
    ∧ (
    let k : Nat := 0
    let s0 : State := State.reset
    let s0 : State := s0
    let s : State := let s0 : State := setF (setBit (wrN (wrN (wrN (wrN s0 Reg.SPN_MOT (4+k%5)) Reg.SPN_KE 0x3C000000) Reg.SPN_RW 0x40000000) Reg.SPN_TGT (5400+k)) Reg.SPN_CTL 0 true) Reg.SPN_STS 0 4 0; setF (let s0 : State := setBit s0 Reg.CAL_STS 0 false; { s0 with sys := { s0.sys with target := none, step := none, next := none, loadedA := false, loadedB := false } }) Reg.SYS_MODE 0 4 Mode.standby
    (s.wf = true) ∧ (bit s Reg.CAL_STS 0 = false) ∧ (s.sys.step = none) ∧ (mode s = Mode.standby) ∧ (bit s Reg.SPN_CTL 0 = true) ∧ (spnConfigOk s = true) ∧ (spnPhase s = SpnPhase.stopped))
    ∧ (
    let k : Nat := 0
    let s0 : State := State.reset
    let s0 : State := s0
    let s : State := setF (let s0 : State := setBit { s0 with tsq := State.reset.tsq } Reg.CAL_STS 0 false; { s0 with sys := { s0.sys with target := none, step := none, next := none, loadedA := false, loadedB := false } }) Reg.SYS_MODE 0 4 Mode.standby
    (s.wf = true) ∧ (bit s Reg.CAL_STS 0 = false) ∧ (s.sys.step = none) ∧ (runsMode (mode s) = true) ∧ (opsActive s = false))
    ∧ (
    let k : Nat := 0
    let s0 : State := State.reset
    let s0 : State := s0
    let s : State := setF (let s0 : State := setF (setBit (wrN s0 Reg.ZTB_STS 0) Reg.CAL_STS 0 false) Reg.SYS_STS 1 4 0; { s0 with sys := { s0.sys with target := none, step := none, next := none, loadedA := false, loadedB := false } }) Reg.SYS_MODE 0 4 Mode.standby
    (s.wf = true) ∧ (bit s Reg.CAL_STS 0 = false) ∧ (s.sys.step = none) ∧ (runsMode (mode s) = true) ∧ (atMode s Mode.ready = false) ∧ (loadReady s = false))
    ∧ (
    let k : Nat := 0
    let s0 : State := State.reset
    let s0 : State := s0
    let m : Nat := 4
    let s : State := let s0 : State := { s0 with cal := { s0.cal with run := none } }; let s0 : State := s0; { s0 with sys := { s0.sys with step := some m, next := none } }
    (s.wf = true) ∧ (s.cal.run = none) ∧ (s.sys.step = some m) ∧ (s.sys.next = none))
    ∧ (
    let k : Nat := 0
    let s0 : State := State.reset
    let s0 : State := s0
    let m : Nat := 3+k%3
    let s : State := let s0 : State := modNqe s0 fun n => { n with cmds := [] }; let s0 : State := setBit (setF (setBit s0 Reg.SPN_STS 11 true) Reg.SPN_STS 0 4 0) Reg.SPN_STS 7 true; setF (let s0 : State := { s0 with cal := { s0.cal with run := none } }; let s0 : State := s0; { s0 with sys := { s0.sys with step := some m, target := some m, next := none } }) Reg.SYS_MODE 0 4 Mode.standby
    (s.wf = true) ∧ (s.cal.run = none) ∧ (s.sys.step = some m) ∧ (s.sys.target = some m) ∧ (s.sys.next = none) ∧ (m = Mode.spinning ∨ m = Mode.slow ∨ m = Mode.standby) ∧ (stepReached s m = true) ∧ (atMode s Mode.ready = false) ∧ ((s.nqe.cmds.any HostCmd.media) = false))
    ∧ (
    let k : Nat := 0
    let s0 : State := State.reset
    let s0 : State := s0
    let ok : Bool := k%2==0
    let s : State := let s0 : State := { s0 with cal := { s0.cal with run := none } }; let s0 : State := s0; { s0 with sys := { s0.sys with step := none } }
    (s.wf = true) ∧ (s.cal.run = none) ∧ (s.sys.step = none))
    ∧ (
    let k : Nat := 0
    let s0 : State := State.reset
    let s0 : State := s0
    let s : State := let s0 : State := { s0 with cal := { s0.cal with run := none } }; wrN s0 Reg.ANG_STS 0
    (s.wf = true) ∧ (s.cal.run = none) ∧ (loadEnded s = false))
    ∧ (
    let k : Nat := 0
    let s0 : State := State.reset
    let s0 : State := s0
    let s : State := let s0 : State := { s0 with cal := { s0.cal with run := none } }; wrN (let s0 : State := s0; { s0 with sys := { s0.sys with loading := true, step := some Mode.ready, target := some Mode.ready, next := none, loadedA := false, loadedB := false } }) Reg.ANG_STS 3
    (s.wf = true) ∧ (s.cal.run = none) ∧ (loadEnded s = true) ∧ (s.sys.loading = true) ∧ (s.sys.step = some Mode.ready) ∧ (s.sys.target = some Mode.ready) ∧ (s.sys.next = none))
    ∧ (
    let k : Nat := 0
    let s0 : State := State.reset
    let s0 : State := s0
    let s : State := let s0 : State := { s0 with cal := { s0.cal with run := none } }; wrN (let s0 : State := s0; { s0 with sys := { s0.sys with loading := false, loadedA := false, loadedB := false, offA := true } }) Reg.ANG_STS 3
    (s.wf = true) ∧ (s.cal.run = none) ∧ (loadEnded s = true) ∧ (s.sys.loading = false))
    ∧ (
    let k : Nat := 0
    let s0 : State := State.reset
    let s0 : State := s0
    let s : State := let s0 : State := { s0 with cal := { s0.cal with run := none } }; let s0 : State := { s0 with clock := 10^9 }; let s0 : State := s0; { s0 with sys := { s0.sys with loading := true, next := none, loadClock := k } }
    (s.wf = true) ∧ (s.cal.run = none) ∧ (s.sys.loadClock + 450000000 ≤ s.clock) ∧ (s.sys.loading = true) ∧ (s.sys.next = none))
    ∧ (
    let k : Nat := 0
    let s0 : State := State.reset
    let s0 : State := s0
    let s : State := let s0 : State := { s0 with cal := { s0.cal with run := none } }; let s0 : State := { s0 with clock := 10^9 }; let s0 : State := s0; { s0 with sys := { s0.sys with loading := false, offA := k%2==0, loadClock := k } }
    (s.wf = true) ∧ (s.cal.run = none) ∧ (s.sys.loadClock + 450000000 ≤ s.clock) ∧ (s.sys.loading = false)) := by
  repeat refine And.intro (by decide +kernel) ?_
  decide +kernel

/-- Hypotheses of a clause of StartUpAndRequests whose values evaluation alone does not give. -/
theorem witness_start_up_and_requests_a :
    (
    let k : Nat := 0
    let s0 : State := State.reset
    let s0 : State := s0
    let pa : Option (List Byte) := if k%2=0 then some preamp0 else none
    let pb : Option (List Byte) := if k%4=0 then some preamp0 else if k%4=2 then none else some preamp0
    let hda : Option (List Byte) := some hda0
    let s : State := setF (let s0 : State := s0; { s0 with sys := { s0.sys with resetLow := false, powerLost := false, resetRank := none, offAtPowerA := false, offAtPowerB := false } }) Reg.SYS_MODE 0 4 Mode.survey
    ((s.wf = true) ∧ (mode s = Mode.survey) ∧ (s.sys.resetLow = false) ∧ (s.sys.powerLost = false) ∧ ((findings (pa.map fun l => l.map BitVec.toNat) (pb.map fun l => l.map BitVec.toNat) (hda.map fun l => l.map BitVec.toNat)).1 = 0 ∨ (findings (pa.map fun l => l.map BitVec.toNat) (pb.map fun l => l.map BitVec.toNat) (hda.map fun l => l.map BitVec.toNat)).2.1 = 0) ∧ ((findings (pa.map fun l => l.map BitVec.toNat) (pb.map fun l => l.map BitVec.toNat) (hda.map fun l => l.map BitVec.toNat)).2.2 = 0) ∧ (s.sys.offAtPowerA = false) ∧ (s.sys.offAtPowerB = false))) :=
  by
    simp only [findings, hdaFinding, preampFinding, hdaValid, preampValid, idnCrcOk, crc32_eq]; decide +kernel

/-- Hypotheses of ResetsRun hold together, of one clause after another. -/
theorem witness_resets_run :
    (
    let k : Nat := 0
    let s0 : State := State.reset
    let s0 : State := s0
    let s : State := s0
    (s.wf = true))
    ∧ (
    let k : Nat := 0
    let s0 : State := State.reset
    let s0 : State := s0
    let s : State := let s0 : State := { s0 with sec := { s0.sec with otp := none } }; s0
    (s.wf = true) ∧ (s.sec.otp = none))
    ∧ (
    let k : Nat := 0
    let s0 : State := State.reset
    let s0 : State := s0
    let n : Fin 24 := Fin.ofNat 24 k
    let s : State := let s0 : State := s0; { s0 with sys := { s0.sys with resetLow := true, powerLost := false, resetRank := none } }
    (s.wf = true) ∧ (s.sys.resetLow = true) ∧ (s.sys.powerLost = false) ∧ (s.sys.resetRank = none))
    ∧ (
    let k : Nat := 0
    let s0 : State := State.reset
    let s0 : State := s0
    let s : State := let s0 : State := s0; { s0 with sys := { s0.sys with resetLow := false } }
    (s.wf = true) ∧ (s.sys.resetLow = false))
    ∧ (
    let k : Nat := 0
    let s0 : State := State.reset
    let s0 : State := s0
    let s : State := let s0 : State := s0; { s0 with sys := { s0.sys with resetLow := true, powerLost := true } }
    (s.wf = true) ∧ (s.sys.resetLow = true) ∧ (s.sys.powerLost = true))
    ∧ (
    let k : Nat := 0
    let s0 : State := State.reset
    let s0 : State := s0
    let n : Fin 24 := Fin.ofNat 24 k
    let s : State := let s0 : State := s0; { s0 with sys := { s0.sys with resetLow := false, powerLost := false, resetRank := none } }
    (s.wf = true) ∧ (s.sys.resetLow = false) ∧ (s.sys.powerLost = false) ∧ (s.sys.resetRank = none))
    ∧ (
    let k : Nat := 0
    let s0 : State := State.reset
    let s0 : State := s0
    let n : Fin 24 := Fin.ofNat 24 k
    let s : State := let s0 : State := s0; { s0 with sys := { s0.sys with resetLow := false, powerLost := false, resetRank := none } }
    (s.wf = true) ∧ (s.sys.resetLow = false) ∧ (s.sys.powerLost = false) ∧ (s.sys.resetRank = none))
    ∧ (
    let k : Nat := 0
    let s0 : State := State.reset
    let s0 : State := s0
    let s : State := let s0 : State := s0; { s0 with sys := { s0.sys with resetLow := k%2==0, powerLost := k%2==1 } }
    (s.wf = true) ∧ (s.sys.resetLow = true ∨ s.sys.powerLost = true))
    ∧ (
    let k : Nat := 0
    let s0 : State := State.reset
    let s0 : State := s0
    let r : Nat := k%3
    let s : State := setF (let s0 : State := s0; { s0 with sys := { s0.sys with resetLow := false, powerLost := false, resetRank := some r } }) Reg.SYS_MODE 0 4 Mode.survey
    (s.wf = true) ∧ (s.sys.resetLow = false) ∧ (s.sys.powerLost = false) ∧ (s.sys.resetRank = some r) ∧ (r ≤ RstRank.full) ∧ (mode s ≠ Mode.fill) ∧ (mode s ≠ Mode.boot))
    ∧ (
    let k : Nat := 0
    let s0 : State := State.reset
    let s0 : State := s0
    let s : State := let s0 : State := s0; { s0 with sys := { s0.sys with resetLow := k%2==0, powerLost := k%2==1 } }
    (s.wf = true) ∧ (s.sys.resetLow = true ∨ s.sys.powerLost = true))
    ∧ (
    let k : Nat := 0
    let s0 : State := State.reset
    let s0 : State := s0
    let r : Nat := k%3
    let s : State := setF (let s0 : State := s0; { s0 with sys := { s0.sys with resetLow := false, powerLost := false, resetRank := some r } }) Reg.SYS_MODE 0 4 Mode.survey
    (s.wf = true) ∧ (s.sys.resetLow = false) ∧ (s.sys.powerLost = false) ∧ (s.sys.resetRank = some r) ∧ (r ≤ RstRank.subsys) ∧ (mode s ≠ Mode.fill) ∧ (mode s ≠ Mode.boot))
    ∧ (
    let k : Nat := 0
    let s0 : State := State.reset
    let s0 : State := s0
    let s : State := let s0 : State := s0; { s0 with sys := { s0.sys with resetLow := false } }
    (s.wf = true) ∧ (s.sys.resetLow = false))
    ∧ (
    let k : Nat := 0
    let s0 : State := State.reset
    let s0 : State := s0
    let s : State := let s0 : State := s0; { s0 with sys := { s0.sys with resetLow := true } }
    (s.wf = true) ∧ (s.sys.resetLow = true))
    ∧ (
    let k : Nat := 0
    let s0 : State := State.reset
    let s0 : State := s0
    let s : State := let s0 : State := { s0 with slu := { s0.slu with v12Bad := true } }; let s0 : State := s0; { s0 with sys := { s0.sys with powerLost := false } }
    (s.wf = true) ∧ (s.sys.powerLost = false) ∧ (s.slu.v12Bad = true ∨ s.slu.v5Bad = true) ∧ (s.imone.length = 2))
    ∧ (
    let k : Nat := 0
    let s0 : State := State.reset
    let s0 : State := s0
    let s : State := let s0 : State := s0; { s0 with sys := { s0.sys with powerLost := true } }
    (s.wf = true) ∧ (s.sys.powerLost = true ∨ (s.slu.v12Bad = false ∧ s.slu.v5Bad = false))) := by
  repeat refine And.intro (by decide +kernel) ?_
  decide +kernel

/-- Hypotheses of ModulesAreHeld hold together, of one clause after another. -/
theorem witness_modules_are_held :
    (
    let k : Nat := 0
    let s0 : State := State.reset
    let s0 : State := s0
    let s : State := setF (let s0 : State := s0; { s0 with sys := { s0.sys with resetLow := false, powerLost := false, resetRank := none, target := none, step := none } }) Reg.SYS_MODE 0 4 Mode.ready
    (s.wf = true) ∧ (s.sys.resetLow = false) ∧ (s.sys.powerLost = false) ∧ (s.sys.step = none) ∧ (mode s ≠ Mode.safeHold))
    ∧ (
    let k : Nat := 0
    let s0 : State := State.reset
    let s0 : State := s0
    let s : State := setF (let s0 : State := s0; { s0 with sys := { s0.sys with resetLow := false, powerLost := false, resetRank := none } }) Reg.SYS_MODE 0 4 Mode.safeHold
    (s.wf = true) ∧ (s.sys.resetLow = false) ∧ (s.sys.powerLost = false) ∧ (mode s = Mode.safeHold))
    ∧ (
    let k : Nat := 0
    let s0 : State := State.reset
    let s0 : State := s0
    let r : Bool := true
    let g : Option (Fin 3) := if k%4=0 then none else some (Fin.ofNat 3 k)
    let s : State := setF (let s0 : State := s0; { s0 with sys := { s0.sys with resetLow := false, powerLost := false, resetRank := none, target := none, step := none } }) Reg.SYS_MODE 0 4 Mode.ready
    (s.wf = true) ∧ (s.sys.resetLow = false) ∧ (s.sys.powerLost = false) ∧ (s.sys.step = none) ∧ (mode s ≠ Mode.safeHold) ∧ (r = true ∨ g ≠ none))
    ∧ (
    let k : Nat := 0
    let s0 : State := State.reset
    let s0 : State := s0
    let s : State := s0
    (s.wf = true))
    ∧ (
    let k : Nat := 0
    let s0 : State := State.reset
    let s0 : State := s0
    let a : Fin 2 := Fin.ofNat 2 k
    let s : State := let s0 : State := setBit (setBit s0 Reg.SYS_STS (1 + a) false) Reg.SYS_STS (3 + a) false; s0
    (s.wf = true) ∧ (disabled s a = false) ∧ (held s a = false))
    ∧ (
    let k : Nat := 0
    let s0 : State := State.reset
    let s0 : State := s0
    let a : Fin 2 := Fin.ofNat 2 k
    let s : State := setBit s0 Reg.SYS_STS (1 + a) true
    (s.wf = true) ∧ (disabled s a = true ∨ held s a = true))
    ∧ (
    let k : Nat := 0
    let s0 : State := State.reset
    let s0 : State := s0
    let a : Fin 2 := Fin.ofNat 2 k
    let s : State := let s0 : State := setBit (setBit s0 Reg.SYS_STS (1 + a) false) Reg.SYS_STS (3 + a) false; { s0 with clock := 10^9, slu := { s0.slu with fltLowA := true, fltLowB := true, fltClock := [k, 2*k] } }
    (s.wf = true) ∧ (disabled s a = false) ∧ (held s a = false) ∧ (fltHeld s a = true) ∧ (s.slu.fltClock.getD a 0 + 10000000 ≤ s.clock))
    ∧ (
    let k : Nat := 0
    let s0 : State := State.reset
    let s0 : State := s0
    let a : Fin 2 := Fin.ofNat 2 k
    let s : State := setBit s0 Reg.SYS_STS (1 + a) true
    (s.wf = true) ∧ (fltHeld s a = false ∨ s.clock < s.slu.fltClock.getD a 0 + 10000000 ∨ disabled s a = true ∨ held s a = true))
    ∧ (
    let k : Nat := 0
    let s0 : State := State.reset
    let s0 : State := s0
    let a : Fin 2 := Fin.ofNat 2 k
    let s : State := let s0 : State := wrN (setBit s0 Reg.SYS_STS (1 + a) true) Reg.SYS_AHCAUSE 0x0707; if k%2=0 then setF s0 Reg.SYS_MODE 0 4 Mode.ready else s0
    (s.wf = true) ∧ (held s a = true) ∧ (holdPersists s a = false))
    ∧ (
    let k : Nat := 0
    let s0 : State := State.reset
    let s0 : State := s0
    let a : Fin 2 := Fin.ofNat 2 k
    let s : State := setBit s0 Reg.SYS_STS (1 + a) false
    (s.wf = true) ∧ (held s a = false ∨ holdPersists s a = true)) := by
  repeat refine And.intro (by decide +kernel) ?_
  decide +kernel

/-- Hypotheses of TemperatureIsFollowed hold together, of one clause after another. -/
theorem witness_temperature_is_followed :
    (
    let k : Nat := 0
    let s0 : State := State.reset
    let s0 : State := s0
    let v : BitVec 16 := BitVec.ofNat 16 (k*28+5)
    let i5 : Word := BitVec.ofNat 32 (0x3F000000+k)
    let pin : Word := BitVec.ofNat 32 (0x40000000+k)
    let s : State := { s0 with cal := { s0.cal with run := none } }
    (s.wf = true) ∧ (chainsOffline s = false) ∧ (inRange (signedOf 16 v.toNat) = true))
    ∧ (
    let k : Nat := 0
    let s0 : State := State.reset
    let s0 : State := s0
    let v : BitVec 16 := BitVec.ofNat 16 (k*28+5)
    let i5 : Word := BitVec.ofNat 32 (0x3F000000+k)
    let pin : Word := BitVec.ofNat 32 (0x40000000+k)
    let s : State := setBit ({ s0 with thm := { s0.thm with hot := 0 }, cal := { s0.cal with run := none } }) Reg.THM_STS 0 false
    (s.wf = true) ∧ (chainsOffline s = false) ∧ (inRange (signedOf 16 v.toNat) = true) ∧ (sensorBad s = false))
    ∧ (
    let k : Nat := 0
    let s0 : State := State.reset
    let s0 : State := s0
    let v : BitVec 16 := BitVec.ofNat 16 (896+k)
    let i5 : Word := BitVec.ofNat 32 (0x3F000000+k)
    let pin : Word := BitVec.ofNat 32 (0x40000000+k)
    let s : State := setF (setBit ({ s0 with thm := { s0.thm with hot := 1 }, cal := { s0.cal with run := none }, sys := { s0.sys with resetLow := false, powerLost := false } }) Reg.THM_STS 0 false) Reg.SYS_MODE 0 4 Mode.spinning
    (s.wf = true) ∧ (chainsOffline s = false) ∧ (inRange (signedOf 16 v.toNat) = true) ∧ (sensorBad s = false) ∧ (1 ≤ s.thm.hot) ∧ (8 * 112 ≤ (signedOf 16 v.toNat)) ∧ (mode s ≠ Mode.safeHold) ∧ (s.sys.resetLow = false) ∧ (s.sys.powerLost = false))
    ∧ (
    let k : Nat := 0
    let s0 : State := State.reset
    let s0 : State := s0
    let v : BitVec 16 := BitVec.ofNat 16 (k*28+5)
    let i5 : Word := BitVec.ofNat 32 (0x3F000000+k)
    let pin : Word := BitVec.ofNat 32 (0x40000000+k)
    let s : State := setBit ({ s0 with cal := { s0.cal with run := none } }) Reg.THM_STS 0 false
    (s.wf = true) ∧ (chainsOffline s = false) ∧ (inRange (signedOf 16 v.toNat) = true) ∧ (sensorBad s = false))
    ∧ (
    let k : Nat := 0
    let s0 : State := State.reset
    let s0 : State := s0
    let v : BitVec 16 := BitVec.ofNat 16 (k*28+5)
    let i5 : Word := BitVec.ofNat 32 (0x3F000000+k)
    let pin : Word := BitVec.ofNat 32 (0x40000000+k)
    let s : State := setBit ({ s0 with thm := { s0.thm with good := k }, cal := { s0.cal with run := none } }) Reg.THM_STS 0 true
    (s.wf = true) ∧ (chainsOffline s = false) ∧ (inRange (signedOf 16 v.toNat) = true) ∧ (sensorBad s = true) ∧ (s.thm.good < 999))
    ∧ (
    let k : Nat := 0
    let s0 : State := State.reset
    let s0 : State := s0
    let v : BitVec 16 := BitVec.ofNat 16 (k*28+5)
    let i5 : Word := BitVec.ofNat 32 (0x3F000000+k)
    let pin : Word := BitVec.ofNat 32 (0x40000000+k)
    let s : State := setBit ({ s0 with thm := { s0.thm with good := 999 }, cal := { s0.cal with run := none } }) Reg.THM_STS 0 true
    (s.wf = true) ∧ (chainsOffline s = false) ∧ (inRange (signedOf 16 v.toNat) = true) ∧ (sensorBad s = true) ∧ (s.thm.good = 999))
    ∧ (
    let k : Nat := 0
    let s0 : State := State.reset
    let s0 : State := s0
    let v : Option (BitVec 16) := if k%2=0 then none else some 1201#16
    let i5 : Word := BitVec.ofNat 32 (0x3F000000+k)
    let pin : Word := BitVec.ofNat 32 (0x40000000+k)
    let s : State := { s0 with cal := { s0.cal with run := none } }
    (s.wf = true) ∧ (chainsOffline s = false) ∧ ((v.filter fun x => inRange (signedOf 16 x.toNat)) = none))
    ∧ (
    let k : Nat := 0
    let s0 : State := State.reset
    let s0 : State := s0
    let v : Option (BitVec 16) := some (BitVec.ofNat 16 k)
    let i5 : Word := BitVec.ofNat 32 (0x3F000000+k)
    let pin : Word := BitVec.ofNat 32 (0x40000000+k)
    let s : State := { s0 with cal := { s0.cal with run := some ⟨3, false, true, false, List.replicate 12 0⟩ } }
    (s.wf = true) ∧ (chainsOffline s = true))
    ∧ (
    let k : Nat := 0
    let s0 : State := State.reset
    let s0 : State := s0
    let c : Nat := k*1000
    let s : State := let s0 : State := { s0 with thm := { s0.thm with rise := some c }, clock := 250000000 + c + k }; setBit (setBit s0 Reg.THM_STS 0 false) Reg.THM_STS 2 true
    (s.wf = true) ∧ (s.thm.rise = some c) ∧ (sensorBad s = false) ∧ (bit s Reg.THM_STS 2 = true) ∧ (c + 250000000 ≤ s.clock))
    ∧ (
    let k : Nat := 0
    let s0 : State := State.reset
    let s0 : State := s0
    let c : Nat := k*1000
    let s : State := { s0 with thm := { s0.thm with rise := some c }, clock := c + k }
    (s.wf = true) ∧ (s.thm.rise = some c) ∧ (s.clock < c + 250000000))
    ∧ (
    let k : Nat := 0
    let s0 : State := State.reset
    let s0 : State := s0
    let c : Nat := k*1000
    let s : State := let s0 : State := { s0 with thm := { s0.thm with below := some c }, clock := 2000000000 + c + k }; setF (setBit s0 Reg.THM_STS 0 false) Reg.THM_LADDER 4 4 (1+k%15)
    (s.wf = true) ∧ (s.thm.below = some c) ∧ (sensorBad s = false) ∧ (0 < tstep s) ∧ (c + 2000000000 ≤ s.clock))
    ∧ (
    let k : Nat := 0
    let s0 : State := State.reset
    let s0 : State := s0
    let c : Nat := k*1000
    let s : State := { s0 with thm := { s0.thm with below := some c }, clock := c + k }
    (s.wf = true) ∧ (s.thm.below = some c) ∧ (tstep s = 0 ∨ s.clock < c + 2000000000))
    ∧ (
    let k : Nat := 0
    let s0 : State := State.reset
    let s0 : State := s0
    let s : State := setF { s0 with clock := 10^9, thm := { s0.thm with exceeded := true, interval := k } } Reg.THM_LADDER 8 4 (k%13)
    (s.wf = true) ∧ (s.thm.interval + 250000000 ≤ s.clock) ∧ ((100 ≤ s.spn.govReq ∨ s.thm.exceeded = true)) ∧ (gstep s < 13))
    ∧ (
    let k : Nat := 0
    let s0 : State := State.reset
    let s0 : State := s0
    let s : State := setF { s0 with clock := 10^9, thm := { s0.thm with exceeded := true, interval := k } } Reg.THM_LADDER 8 4 13
    (s.wf = true) ∧ (s.thm.interval + 250000000 ≤ s.clock) ∧ ((100 ≤ s.spn.govReq ∨ s.thm.exceeded = true)) ∧ (13 ≤ gstep s))
    ∧ (
    let k : Nat := 0
    let s0 : State := State.reset
    let s0 : State := s0
    let s : State := { s0 with clock := 10^9, thm := { s0.thm with interval := k, exceeded := false, quiet := k%7 }, spn := { s0.spn with govReq := 0 } }
    (s.wf = true) ∧ (s.thm.interval + 250000000 ≤ s.clock) ∧ (s.spn.govReq < 100) ∧ (s.thm.exceeded = false) ∧ (s.thm.quiet < 7))
    ∧ (
    let k : Nat := 0
    let s0 : State := State.reset
    let s0 : State := s0
    let s : State := { s0 with clock := 10^9, thm := { s0.thm with interval := k, exceeded := false, quiet := 7 }, spn := { s0.spn with govReq := 0 } }
    (s.wf = true) ∧ (s.thm.interval + 250000000 ≤ s.clock) ∧ (s.spn.govReq < 100) ∧ (s.thm.exceeded = false) ∧ (7 ≤ s.thm.quiet))
    ∧ (
    let k : Nat := 0
    let s0 : State := State.reset
    let s0 : State := s0
    let v : Word := BitVec.ofNat 32 (70+k%10 + 256*(80+k%20) + 65536*(50+k%20))
    let s : State := s0
    (s.wf = true) ∧ ((60 ≤ bitsOf v.toNat 0 8 ∧ bitsOf v.toNat 0 8 ≤ 100 ∧ bitsOf v.toNat 0 8 ≤ bitsOf v.toNat 8 8 ∧ 70 ≤ bitsOf v.toNat 8 8 ∧ bitsOf v.toNat 8 8 ≤ 100 ∧ 50 ≤ bitsOf v.toNat 16 8 ∧ bitsOf v.toNat 16 8 < bitsOf v.toNat 8 8)))
    ∧ (
    let k : Nat := 0
    let s0 : State := State.reset
    let s0 : State := s0
    let v : Word := BitVec.ofNat 32 (k*7777)
    let s : State := s0
    (s.wf = true) ∧ (¬ (60 ≤ bitsOf v.toNat 0 8 ∧ bitsOf v.toNat 0 8 ≤ 100 ∧ bitsOf v.toNat 0 8 ≤ bitsOf v.toNat 8 8 ∧ 70 ≤ bitsOf v.toNat 8 8 ∧ bitsOf v.toNat 8 8 ≤ 100 ∧ 50 ≤ bitsOf v.toNat 16 8 ∧ bitsOf v.toNat 16 8 < bitsOf v.toNat 8 8)))
    ∧ (
    let k : Nat := 0
    let s0 : State := State.reset
    let s0 : State := s0
    let v : Word := BitVec.ofNat 32 k
    let s : State := s0
    (s.wf = true))
    ∧ (
    let k : Nat := 0
    let s0 : State := State.reset
    let s0 : State := s0
    let v : Word := BitVec.ofNat 32 (0x3F000000+k)
    let s : State := s0
    (s.wf = true) ∧ ((fpNonFinite v.toNat = false ∧ 1 / 2 ≤ fpVal v.toNat ∧ fpVal v.toNat ≤ 2)))
    ∧ (
    let k : Nat := 0
    let s0 : State := State.reset
    let s0 : State := s0
    let v : Word := BitVec.ofNat 32 (if k%2=0 then 0x7FC00000 else 0x3EFFFFFF+k*0)
    let s : State := s0
    (s.wf = true) ∧ (¬ (fpNonFinite v.toNat = false ∧ 1 / 2 ≤ fpVal v.toNat ∧ fpVal v.toNat ≤ 2))) := by
  repeat refine And.intro (by decide +kernel) ?_
  decide +kernel

/-- Hypotheses of RecordsAreCaptured hold together, of one clause after another. -/
theorem witness_records_are_captured :
    (
    let k : Nat := 0
    let s0 : State := State.reset
    let s0 : State := s0
    let r : Trigger := ⟨k%64, k%4, 1000*k, 77*k, k*65537 % 2^32, k%12⟩
    let l : List Trigger := if k%2=0 then [] else [⟨9,0,1000*k,5,6,3⟩]
    let s : State := let s0 : State := setBit s0 Reg.EVR_STS 1 false; { s0 with evr := { s0.evr with waiting := r :: l, stgCount := k*11, stgHead := k*2611 } }
    (s.wf = true) ∧ (s.evr.waiting = r :: l) ∧ (bit s Reg.EVR_STS 1 = false) ∧ (s.evr.stgCount < ringSize) ∧ (r.chan < 64))
    ∧ (
    let k : Nat := 0
    let s0 : State := State.reset
    let s0 : State := s0
    let r : Trigger := ⟨k%64, k%4, 1000*k, 77*k, k*65537 % 2^32, k%12⟩
    let l : List Trigger := if k%2=0 then [] else [⟨9,0,1000*k,5,6,3⟩]
    let s : State := let s0 : State := setBit s0 Reg.EVR_STS 1 false; { s0 with evr := { s0.evr with waiting := r :: l, stgCount := k*11, stgHead := k*2611 } }
    (s.wf = true) ∧ (s.evr.waiting = r :: l) ∧ (bit s Reg.EVR_STS 1 = false) ∧ (s.evr.stgCount < ringSize) ∧ (s.evr.stgHead < ringSize) ∧ (r.chan < 256) ∧ (r.mode < 256) ∧ (r.trig < 256))
    ∧ (
    let k : Nat := 0
    let s0 : State := State.reset
    let s0 : State := s0
    let r : Trigger := ⟨k%64, k%4, 1000*k, 77*k, k*65537 % 2^32, k%12⟩
    let l : List Trigger := if k%2=0 then [] else [⟨9,0,1000*k,5,6,3⟩]
    let s : State := let s0 : State := setBit s0 Reg.EVR_STS 1 false; { s0 with evr := { s0.evr with waiting := r :: l, stgCount := ringSize } }
    (s.wf = true) ∧ (s.evr.waiting = r :: l) ∧ (bit s Reg.EVR_STS 1 = false) ∧ (ringSize ≤ s.evr.stgCount))
    ∧ (
    let k : Nat := 0
    let s0 : State := State.reset
    let s0 : State := s0
    let r : Trigger := ⟨k%64, k%4, 1000*k, 77*k, k*65537 % 2^32, k%12⟩
    let l : List Trigger := if k%2=0 then [] else [⟨9,0,1000*k,5,6,3⟩]
    let s : State := let s0 : State := setBit s0 Reg.EVR_STS 1 true; { s0 with evr := { s0.evr with waiting := r :: l } }
    (s.wf = true) ∧ (s.evr.waiting = r :: l) ∧ (bit s Reg.EVR_STS 1 = true))
    ∧ (
    let k : Nat := 0
    let s0 : State := State.reset
    let s0 : State := s0
    let s : State := let s0 : State := s0; { s0 with evr := { s0.evr with waiting := [] } }
    (s.wf = true) ∧ (s.evr.waiting = []))
    ∧ (
    let k : Nat := 0
    let s0 : State := State.reset
    let s0 : State := s0
    let c : Fin 64 := Fin.ofNat 64 (16+k%48)
    let s : State := let s0 : State := setBit (setBit (setF s0 (Reg.EVR_CHCFG c) 0 2 2) Reg.EVR_CTL 0 true) Reg.EVR_STS 1 false; { s0 with evr := { s0.evr with waiting := [⟨3,1,5,5,6,3⟩], lastRec := [] } }
    (s.wf = true) ∧ (16 ≤ c.val) ∧ (getF s (Reg.EVR_CHCFG c) 0 2 = 2) ∧ (bit s Reg.EVR_CTL 0 = true) ∧ (bit s Reg.EVR_STS 1 = false) ∧ (suppressed s c = false) ∧ (s.evr.waiting.length < 64))
    ∧ (
    let k : Nat := 0
    let s0 : State := State.reset
    let s0 : State := s0
    let c : Fin 64 := Fin.ofNat 64 (16+k%48)
    let s : State := let s0 : State := setBit (setBit (setF s0 (Reg.EVR_CHCFG c) 0 2 2) Reg.EVR_CTL 0 true) Reg.EVR_STS 1 false; { s0 with evr := { s0.evr with waiting := [⟨c,1,5,5,6,3⟩] } }
    (s.wf = true) ∧ (16 ≤ c.val) ∧ (getF s (Reg.EVR_CHCFG c) 0 2 = 2) ∧ (bit s Reg.EVR_CTL 0 = true) ∧ (bit s Reg.EVR_STS 1 = false) ∧ (suppressed s c = true))
    ∧ (
    let k : Nat := 0
    let s0 : State := State.reset
    let s0 : State := s0
    let c : Fin 64 := Fin.ofNat 64 (16+k%48)
    let s : State := setF s0 (Reg.EVR_CHCFG c) 0 2 1
    (s.wf = true) ∧ (c.val < 16 ∨ getF s (Reg.EVR_CHCFG c) 0 2 ≠ 2 ∨ bit s Reg.EVR_CTL 0 = false))
    ∧ (
    let k : Nat := 0
    let s0 : State := State.reset
    let s0 : State := s0
    let c : Fin 64 := Fin.ofNat 64 (16+k%48)
    let d : Nat := s0.clock + 3000000 - k % 2 * k
    let s : State := let s0 : State := { s0 with clock := s0.clock + 3000000 }; let s0 : State := wrN (setBit (setBit (setF s0 (Reg.EVR_CHCFG c) 0 2 3) Reg.EVR_CTL 0 true) Reg.EVR_STS 1 false) (Reg.EVR_CHHOLD c) (2 ^ 16 * (1 + k % 3)); { s0 with evr := { s0.evr with waiting := [⟨3,1,5,5,6,3⟩], lastRec := [], periods := [(c, d - 1000000 * (1 + k % 3))] } }
    (s.wf = true) ∧ (16 ≤ c.val) ∧ (getF s (Reg.EVR_CHCFG c) 0 2 = 3) ∧ (bit s Reg.EVR_CTL 0 = true) ∧ (periodEnd s c = some d) ∧ (d ≤ s.clock) ∧ (bit s Reg.EVR_STS 1 = false) ∧ (suppressed s c = false) ∧ (s.evr.waiting.length < 64))
    ∧ (
    let k : Nat := 0
    let s0 : State := State.reset
    let s0 : State := s0
    let c : Fin 64 := Fin.ofNat 64 (16+k%48)
    let d : Nat := s0.clock + 3000000 - k % 2 * k
    let s : State := let s0 : State := { s0 with clock := s0.clock + 3000000 }; let s0 : State := wrN (setBit (setBit (setF s0 (Reg.EVR_CHCFG c) 0 2 3) Reg.EVR_CTL 0 true) Reg.EVR_STS 1 false) (Reg.EVR_CHHOLD c) (2 ^ 16 * (1 + k % 3)); { s0 with evr := { s0.evr with waiting := [⟨c,1,5,5,6,3⟩], periods := [(c, d - 1000000 * (1 + k % 3))] } }
    (s.wf = true) ∧ (16 ≤ c.val) ∧ (getF s (Reg.EVR_CHCFG c) 0 2 = 3) ∧ (bit s Reg.EVR_CTL 0 = true) ∧ (periodEnd s c = some d) ∧ (d ≤ s.clock) ∧ (bit s Reg.EVR_STS 1 = false) ∧ (suppressed s c = true))
    ∧ (
    let k : Nat := 0
    let s0 : State := State.reset
    let s0 : State := s0
    let c : Fin 64 := Fin.ofNat 64 (16+k%48)
    let d : Nat := s0.clock + 3000000 - k % 2 * k
    let s : State := let s0 : State := { s0 with clock := s0.clock + 3000000 }; let s0 : State := wrN (setF s0 (Reg.EVR_CHCFG c) 0 2 2) (Reg.EVR_CHHOLD c) (2 ^ 16 * (1 + k % 3)); { s0 with evr := { s0.evr with waiting := [], periods := [(c, d - 1000000 * (1 + k % 3))] } }
    (s.wf = true) ∧ (c.val < 16 ∨ getF s (Reg.EVR_CHCFG c) 0 2 ≠ 3 ∨ bit s Reg.EVR_CTL 0 = false) ∧ (periodEnd s c = some d) ∧ (d ≤ s.clock))
    ∧ (
    let k : Nat := 0
    let s0 : State := State.reset
    let s0 : State := s0
    let c : Fin 64 := Fin.ofNat 64 (16+k%48)
    let d : Nat := s0.clock + 2000000 - 5
    let s : State := let s0 : State := { s0 with clock := s0.clock + 1000000 }; let s0 : State := wrN s0 (Reg.EVR_CHHOLD c) (2 ^ 16); { s0 with evr := { s0.evr with periods := [(c, s0.clock - 5)] } }
    (s.wf = true) ∧ (periodEnd s c = some d) ∧ (s.clock < d))
    ∧ (
    let k : Nat := 0
    let s0 : State := State.reset
    let s0 : State := s0
    let c : Fin 64 := Fin.ofNat 64 (16+k%48)
    let s : State := wrN s0 (Reg.EVR_CHHOLD c) 0
    (s.wf = true) ∧ (periodEnd s c = none))
    ∧ (
    let k : Nat := 0
    let s0 : State := State.reset
    let s0 : State := s0
    let c : Fin 64 := Fin.ofNat 64 (16+k%48)
    let v : Word := BitVec.ofNat 32 (k*77777+65536)
    let s : State := s0
    (s.wf = true) ∧ (16 ≤ c.val))
    ∧ (
    let k : Nat := 0
    let s0 : State := State.reset
    let s0 : State := s0
    let c : Fin 64 := Fin.ofNat 64 (16+k%48)
    let v : Word := BitVec.ofNat 32 (k*77777+65536)
    let s : State := s0
    (s.wf = true) ∧ (16 ≤ c.val) ∧ (bitsOf v.toNat 16 16 ≠ 0))
    ∧ (
    let k : Nat := 0
    let s0 : State := State.reset
    let s0 : State := s0
    let c : Fin 64 := Fin.ofNat 64 (16+k%48)
    let m : Fin 16 := Fin.ofNat 16 k
    let v : Word := BitVec.ofNat 32 (k*77777+2^31)
    let s : State := setF s0 (Reg.EVR_CHCFG c) 0 2 0
    (s.wf = true) ∧ (16 ≤ c.val) ∧ (getF s (Reg.EVR_CHCFG c) 0 2 = 0))
    ∧ (
    let k : Nat := 0
    let s0 : State := State.reset
    let s0 : State := s0
    let c : Fin 64 := Fin.ofNat 64 (16+k%48)
    let m : Fin 16 := Fin.ofNat 16 k
    let v : Word := BitVec.ofNat 32 (k*77777+2^31)
    let s : State := setF s0 (Reg.EVR_CHCFG c) 0 2 2
    (s.wf = true) ∧ (16 ≤ c.val) ∧ (getF s (Reg.EVR_CHCFG c) 0 2 ≠ 0))
    ∧ (
    let k : Nat := 0
    let s0 : State := State.reset
    let s0 : State := s0
    let c : Fin 64 := Fin.ofNat 64 (k%16)
    let w : Fin 32 := Fin.ofNat 32 k
    let v : Word := BitVec.ofNat 32 (k*77777)
    let s : State := s0
    (s.wf = true) ∧ (c.val < 16))
    ∧ (
    let k : Nat := 0
    let s0 : State := State.reset
    let s0 : State := s0
    let s : State := let s0 : State := { s0 with clock := s0.clock + 1000000 }; { s0 with evr := { s0.evr with published := 0, gauges := s0.evr.gauges.map fun x => { x with clearPending := k%2==0 } } }
    (s.wf = true) ∧ (s.evr.published < s.clock / 1000000))
    ∧ (
    let k : Nat := 0
    let s0 : State := State.reset
    let s0 : State := s0
    let n : Fin 8 := Fin.ofNat 8 k
    let s : State := let s0 : State := { s0 with clock := s0.clock + 1000000 }; { s0 with evr := { s0.evr with published := 0, gauges := s0.evr.gauges.map fun x => { x with clearPending := true } } }
    (s.wf = true) ∧ (s.evr.published < s.clock / 1000000) ∧ ((s.evr.gauges.getD n Gauge.reset).clearPending = true))
    ∧ (
    let k : Nat := 0
    let s0 : State := State.reset
    let s0 : State := s0
    let s : State := let s0 : State := s0; { s0 with evr := { s0.evr with published := s0.clock / 1000000 } }
    (s.wf = true) ∧ (s.clock / 1000000 ≤ s.evr.published))
    ∧ (
    let k : Nat := 0
    let s0 : State := State.reset
    let s0 : State := s0
    let m : Byte := BitVec.ofNat 8 (k*13)
    let s : State := s0
    (s.wf = true)) := by
  repeat refine And.intro (by decide +kernel) ?_
  decide +kernel

/-- Hypotheses of TheLogIsKept hold together, of one clause after another. -/
theorem witness_the_log_is_kept :
    (
    let k : Nat := 0
    let s0 : State := State.reset
    let s0 : State := s0
    let s : State := setF (setBit (let s0 : State := { (nandErase s0 0x09000000 0x09010000) with sys := { s0.sys with powerLost := false } }; { s0 with evr := { s0.evr with scanned := true, commit := none, clear := none, waiting := [], stgHead := 100+k, urgent := true, stgCount := 1+k%3 } }) Reg.EVR_STS 1 false) Reg.EVR_LOGPOS 0 21 k
    (s.wf = true) ∧ (mayCommit s = true) ∧ (commitDue s = true) ∧ (getF s Reg.EVR_LOGPOS 0 21 + 255 ≤ logSize) ∧ (logErased s (getF s Reg.EVR_LOGPOS 0 21) = true))
    ∧ (
    let k : Nat := 0
    let s0 : State := State.reset
    let s0 : State := s0
    let f : List Nat := [k]
    let s : State := let s0 : State := s0; { s0 with evr := { s0.evr with stgCount := 0 } }
    (s.wf = true) ∧ (mayCommit s = false ∨ commitDue s = false))
    ∧ (
    let k : Nat := 0
    let s0 : State := State.reset
    let s0 : State := s0
    let q : Nat := k%50
    let i : Nat := k%7
    let p : Nat := k%50+1
    let s : State := setF (setBit (let s0 : State := nandErase s0 0x09000000 0x09010000; { s0 with evr := { s0.evr with commit := some ⟨[(q, i)], p⟩, stgCount := 3+k%2, waiting := [] } }) Reg.EVR_STS 1 false) Reg.EVR_LOGPOS 0 21 q
    (s.wf = true) ∧ (s.evr.commit = some ⟨[(q, i)], p⟩) ∧ (p < logSize) ∧ (q < logSize) ∧ ((nandBytes s (logAddr q + 152) 8).all (· == 255) = true))
    ∧ (
    let k : Nat := 0
    let s0 : State := State.reset
    let s0 : State := s0
    let l : List (Nat × Nat) := [(logSize - 1, k)]
    let p : Nat := logSize
    let s : State := setBit (let s0 : State := s0; { s0 with evr := { s0.evr with commit := some ⟨l, p⟩, stgCount := 3, waiting := [] } }) Reg.EVR_STS 1 false
    (s.wf = true) ∧ (s.evr.commit = some ⟨l, p⟩) ∧ (logSize ≤ p) ∧ (p < 2 ^ 21))
    ∧ (
    let k : Nat := 0
    let s0 : State := State.reset
    let s0 : State := s0
    let q : Nat := k%50
    let i : Nat := k%7
    let p : Nat := k%50+1
    let s : State := setF (setBit (let s0 : State := nandErase s0 0x09000000 0x09010000; { s0 with evr := { s0.evr with commit := some ⟨[(q, i)], p⟩, stgCount := 3+k%2, waiting := [] } }) Reg.EVR_STS 1 false) Reg.EVR_LOGPOS 0 21 q
    (s.wf = true) ∧ (s.evr.commit = some ⟨[(q, i)], p⟩) ∧ (p + 1 < logSize) ∧ (logErased s p = true))
    ∧ (
    let k : Nat := 0
    let s0 : State := State.reset
    let s0 : State := s0
    let f : List Nat := [k]
    let s : State := let s0 : State := s0; { s0 with evr := { s0.evr with commit := none } }
    (s.wf = true) ∧ (s.evr.commit = none))
    ∧ (
    let k : Nat := 0
    let s0 : State := State.reset
    let s0 : State := s0
    let s : State := let s0 : State := nandErase (s0) 0x09000000 0x09100000; { s0 with evr := { s0.evr with scanned := false, stgCount := k%3, commit := none } }
    (s.wf = true) ∧ (s.evr.scanned = false) ∧ (clearCount s = 0) ∧ ((bisect s 22 0 logSize) < logSize))
    ∧ (
    let k : Nat := 0
    let s0 : State := State.reset
    let s0 : State := s0
    let s : State := let s0 : State := writeClearRecord (3+k) (nandErase (wrN (nandErase s0 0x1A000000 0x1A100000) Reg.EVR_CLRBASE (0x1A000000/128)) 0x09000000 0x09100000); { s0 with evr := { s0.evr with scanned := false, stgCount := k%3, commit := none } }
    (s.wf = true) ∧ (s.evr.scanned = false) ∧ (clearCount s ≠ 0) ∧ (clearMarked s (clearCount s) = false))
    ∧ (
    let k : Nat := 0
    let s0 : State := State.reset
    let s0 : State := s0
    let s : State := let s0 : State := s0; { s0 with evr := { s0.evr with scanned := true } }
    (s.wf = true) ∧ (s.evr.scanned = true))
    ∧ (
    let k : Nat := 0
    let s0 : State := State.reset
    let s0 : State := s0
    let token : List Byte := List.replicate k 3#8
    let s : State := s0
    (s.wf = true) ∧ (token.length ≠ 448))
    ∧ (
    let k : Nat := 0
    let s0 : State := State.reset
    let s0 : State := s0
    let token : List Byte := List.replicate 448 3#8
    let s : State := s0
    (s.wf = true) ∧ (token.length = 448))
    ∧ (
    let k : Nat := 0
    let s0 : State := State.reset
    let s0 : State := s0
    let c : LogClear := ⟨k, 5⟩
    let s : State := let s0 : State := s0; { s0 with evr := { s0.evr with clear := some c } }
    (s.wf = true) ∧ (s.evr.clear = some c))
    ∧ (
    let k : Nat := 0
    let s0 : State := State.reset
    let s0 : State := s0
    let c : LogClear := ⟨k, 5⟩
    let p : Nat := 1+k*7
    let s : State := let s0 : State := s0; { s0 with evr := { s0.evr with clear := some c } }
    (s.wf = true) ∧ (s.evr.clear = some c) ∧ (1 ≤ p) ∧ (p < logSize))
    ∧ (
    let k : Nat := 0
    let s0 : State := State.reset
    let s0 : State := s0
    let s : State := let s0 : State := s0; { s0 with evr := { s0.evr with clear := none } }
    (s.wf = true) ∧ (s.evr.clear = none))
    ∧ (
    let k : Nat := 0
    let s0 : State := State.reset
    let s0 : State := s0
    let a : Fin 2 := Fin.ofNat 2 k
    let s : State := let s0 : State := wrN { s0 with ztb := { s0.ztb with bands := [(0, 2^32*3000 + 2^64*2000 + 2^112*1000 + 2^127)] } } Reg.ZTB_GEOM 0x101; setF (wrN (setBit (setF (setBit (setBit (setF (setF (wrN (modNqe (let s0 : State := s0; { s0 with evr := { s0.evr with mirStopA := false, mirStopB := false, mirFailA := k%3, mirFailB := k%3 } }) fun n => { n with cmds := [], mediaClock := none }) (mirPos a) (k*10)) Reg.EVR_PVROWS 0 8 200) Reg.EVR_PVFIRST 0 24 0) Reg.SYS_STS (3+a) false) Reg.SYS_STS (1+a) false) Reg.SYS_MODE 0 4 Mode.ready) Reg.EVR_CTL 1 true) (mirPos a) (k*10)) Reg.EVR_LOGPOS 0 21 (k*11+1)
    (s.wf = true) ∧ (mayMirror s a = true) ∧ (mirrorRangeOk s = true))
    ∧ (
    let k : Nat := 0
    let s0 : State := State.reset
    let s0 : State := s0
    let a : Fin 2 := Fin.ofNat 2 k
    let s : State := let s0 : State := wrN { s0 with ztb := { s0.ztb with bands := [(0, 2^32*3000 + 2^64*2000 + 2^112*1000 + 2^127)] } } Reg.ZTB_GEOM 0x101; setF (wrN (setBit (setF (setBit (setBit (setF (setF (wrN (modNqe (let s0 : State := s0; { s0 with evr := { s0.evr with mirStopA := false, mirStopB := false, mirFailA := k%2, mirFailB := k%2 } }) fun n => { n with cmds := [], mediaClock := none }) (mirPos a) (k*10)) Reg.EVR_PVROWS 0 8 200) Reg.EVR_PVFIRST 0 24 0) Reg.SYS_STS (3+a) false) Reg.SYS_STS (1+a) false) Reg.SYS_MODE 0 4 Mode.ready) Reg.EVR_CTL 1 true) (mirPos a) (k*10)) Reg.EVR_LOGPOS 0 21 (k*11+1)
    (s.wf = true) ∧ (mayMirror s a = true) ∧ (mirrorRangeOk s = true) ∧ (mirFails s a < 2))
    ∧ (
    let k : Nat := 0
    let s0 : State := State.reset
    let s0 : State := s0
    let a : Fin 2 := Fin.ofNat 2 k
    let s : State := let s0 : State := wrN { s0 with ztb := { s0.ztb with bands := [(0, 2^32*3000 + 2^64*2000 + 2^112*1000 + 2^127)] } } Reg.ZTB_GEOM 0x101; setF (wrN (setBit (setF (setBit (setBit (setF (setF (wrN (modNqe (let s0 : State := s0; { s0 with evr := { s0.evr with mirStopA := false, mirStopB := false, mirFailA := 2, mirFailB := 2 } }) fun n => { n with cmds := [], mediaClock := none }) (mirPos a) (k*10)) Reg.EVR_PVROWS 0 8 200) Reg.EVR_PVFIRST 0 24 0) Reg.SYS_STS (3+a) false) Reg.SYS_STS (1+a) false) Reg.SYS_MODE 0 4 Mode.ready) Reg.EVR_CTL 1 true) (mirPos a) (k*10)) Reg.EVR_LOGPOS 0 21 (k*11+1)
    (s.wf = true) ∧ (mayMirror s a = true) ∧ (mirrorRangeOk s = true) ∧ (2 ≤ mirFails s a))
    ∧ (
    let k : Nat := 0
    let s0 : State := State.reset
    let s0 : State := s0
    let a : Fin 2 := Fin.ofNat 2 k
    let ok : Bool := k%2==0
    let s : State := let s0 : State := { s0 with ztb := { s0.ztb with bands := [] } }; setF (wrN (setBit (setF (setBit (setBit (setF (setF (wrN (modNqe (let s0 : State := s0; { s0 with evr := { s0.evr with mirStopA := false, mirStopB := false, mirFailA := k%2, mirFailB := k%2 } }) fun n => { n with cmds := [], mediaClock := none }) (mirPos a) (k*10)) Reg.EVR_PVROWS 0 8 200) Reg.EVR_PVFIRST 0 24 0) Reg.SYS_STS (3+a) false) Reg.SYS_STS (1+a) false) Reg.SYS_MODE 0 4 Mode.ready) Reg.EVR_CTL 1 true) (mirPos a) (k*10)) Reg.EVR_LOGPOS 0 21 (k*11+1)
    (s.wf = true) ∧ (mayMirror s a = true) ∧ (mirrorRangeOk s = false))
    ∧ (
    let k : Nat := 0
    let s0 : State := State.reset
    let s0 : State := s0
    let a : Fin 2 := Fin.ofNat 2 k
    let ok : Bool := k%2==0
    let s : State := setBit s0 Reg.EVR_CTL 1 false
    (s.wf = true) ∧ (mayMirror s a = false)) := by
  repeat refine And.intro (by decide +kernel) ?_
  decide +kernel

/-- Hypotheses of ZonesAreRewrapped hold together, of one clause after another. -/
theorem witness_zones_are_rewrapped :
    (
    let k : Nat := 0
    let s0 : State := State.reset
    let s0 : State := s0
    let e : Nat := k*7+1
    let l : List Nat := List.range (k%4)
    let s : State := { s0 with ztb := { s0.ztb with ptlog := e :: l } }
    (s.wf = true) ∧ (s.ztb.ptlog = e :: l))
    ∧ (
    let k : Nat := 0
    let s0 : State := State.reset
    let s0 : State := s0
    let s : State := { s0 with ztb := { s0.ztb with ptlog := [] } }
    (s.wf = true) ∧ (s.ztb.ptlog = []))
    ∧ (
    let k : Nat := 0
    let s0 : State := State.reset
    let s0 : State := s0
    let s : State := let s1 : State := (setF (setBit (wrN (wrN (wrN s0 Reg.ZTB_ZCMDSTS 0) Reg.ZTB_NZONE 1000) Reg.ZTB_ACTZ (k%30)) Reg.ZTB_CTL 0 true) Reg.SYS_STS 3 2 0); let s0 : State := { (s1 : State) with nqe := { s1.nqe with cmds := [] }, ztb := { s1.ztb with zones := [], zcmd := none }, cis := CisState.reset, arc := ArcState.reset, tsq := s1.tsq.map fun q => { q with ctxs := q.ctxs.map fun c => { c with phase := .idle, queue := [] } } }; let s0 : State := { s0 with cph := { s0.cph with keys := [key0 5 0 77] } }; setZState 2 zEmpty (setZState 1 zFull (wrN (wrN s0 Reg.ZTB_RWSRC 1) Reg.ZTB_RWTGT (2 + 2 ^ 20 * 5)))
    (s.wf = true) ∧ ((rwCheck s (getF s Reg.ZTB_RWSRC 0 20) (getF s Reg.ZTB_RWTGT 0 20) (getF s Reg.ZTB_RWTGT 20 12)) = 0))
    ∧ (
    let k : Nat := 0
    let s0 : State := State.reset
    let s0 : State := s0
    let s : State := wrN s0 Reg.ZTB_NZONE 0
    (s.wf = true) ∧ ((rwCheck s (getF s Reg.ZTB_RWSRC 0 20) (getF s Reg.ZTB_RWTGT 0 20) (getF s Reg.ZTB_RWTGT 20 12)) ≠ 0))
    ∧ (
    let k : Nat := 0
    let s0 : State := State.reset
    let s0 : State := s0
    let r : RewrapRun := ⟨1, 2, 5, false, false, .fresh, []⟩
    let s : State := let s1 : State := (setF (setBit (wrN (wrN (wrN s0 Reg.ZTB_ZCMDSTS 0) Reg.ZTB_NZONE 1000) Reg.ZTB_ACTZ (k%30)) Reg.ZTB_CTL 0 true) Reg.SYS_STS 3 2 0); let s0 : State := { (s1 : State) with nqe := { s1.nqe with cmds := [] }, ztb := { s1.ztb with zones := [], zcmd := none }, cis := CisState.reset, arc := ArcState.reset, tsq := s1.tsq.map fun q => { q with ctxs := q.ctxs.map fun c => { c with phase := .idle, queue := [] } } }; { setF s0 Reg.ZTB_RWSTS 1 3 (k%4) with arc := { s0.arc with rewrap := some r } }
    (s.wf = true) ∧ (s.arc.rewrap = some r) ∧ (r.committed = false) ∧ (rwPhase s ≠ 5))
    ∧ (
    let k : Nat := 0
    let s0 : State := State.reset
    let s0 : State := s0
    let r : RewrapRun := ⟨1, 2, 5, true, false, .fresh, []⟩
    let s : State := let s1 : State := (setF (setBit (wrN (wrN (wrN s0 Reg.ZTB_ZCMDSTS 0) Reg.ZTB_NZONE 1000) Reg.ZTB_ACTZ (k%30)) Reg.ZTB_CTL 0 true) Reg.SYS_STS 3 2 0); let s0 : State := { (s1 : State) with nqe := { s1.nqe with cmds := [] }, ztb := { s1.ztb with zones := [], zcmd := none }, cis := CisState.reset, arc := ArcState.reset, tsq := s1.tsq.map fun q => { q with ctxs := q.ctxs.map fun c => { c with phase := .idle, queue := [] } } }; { setF s0 Reg.ZTB_RWSTS 1 3 4 with arc := { s0.arc with rewrap := some r } }
    (s.wf = true) ∧ (s.arc.rewrap = some r) ∧ (r.committed = true ∨ rwPhase s = 5))
    ∧ (
    let k : Nat := 0
    let s0 : State := State.reset
    let s0 : State := s0
    let s : State := let s1 : State := (setF (setBit (wrN (wrN (wrN s0 Reg.ZTB_ZCMDSTS 0) Reg.ZTB_NZONE 1000) Reg.ZTB_ACTZ (k%30)) Reg.ZTB_CTL 0 true) Reg.SYS_STS 3 2 0); let s0 : State := { (s1 : State) with nqe := { s1.nqe with cmds := [] }, ztb := { s1.ztb with zones := [], zcmd := none }, cis := CisState.reset, arc := ArcState.reset, tsq := s1.tsq.map fun q => { q with ctxs := q.ctxs.map fun c => { c with phase := .idle, queue := [] } } }; s0
    (s.wf = true) ∧ (s.arc.rewrap = none))
    ∧ (
    let k : Nat := 0
    let s0 : State := State.reset
    let s0 : State := s0
    let r : RewrapRun := ⟨1, 2, 5, false, false, .fresh, []⟩
    let s : State := let s1 : State := (setF (setBit (wrN (wrN (wrN s0 Reg.ZTB_ZCMDSTS 0) Reg.ZTB_NZONE 1000) Reg.ZTB_ACTZ (k%30)) Reg.ZTB_CTL 0 true) Reg.SYS_STS 3 2 0); let s0 : State := { (s1 : State) with nqe := { s1.nqe with cmds := [] }, ztb := { s1.ztb with zones := [], zcmd := none }, cis := CisState.reset, arc := ArcState.reset, tsq := s1.tsq.map fun q => { q with ctxs := q.ctxs.map fun c => { c with phase := .idle, queue := [] } } }; let s0 : State := setF s0 Reg.CPH_KMBASE 1 28 0x2000000; { setF s0 Reg.ZTB_RWSTS 1 3 1 with arc := { s0.arc with rewrap := some r } }
    (s.wf = true) ∧ (s.arc.rewrap = some r) ∧ (rwPhase s = 1) ∧ (disabled s (surfaceAct s (zoneSurface s r.tgt)) = false) ∧ (r.tgt < 1000) ∧ (getF s Reg.CPH_KMBASE 1 28 = 0x2000000))
    ∧ (
    let k : Nat := 0
    let s0 : State := State.reset
    let s0 : State := s0
    let r : RewrapRun := ⟨1, 2, 5, false, false, .fresh, []⟩
    let s : State := let s1 : State := (setF (setBit (wrN (wrN (wrN s0 Reg.ZTB_ZCMDSTS 0) Reg.ZTB_NZONE 1000) Reg.ZTB_ACTZ (k%30)) Reg.ZTB_CTL 0 true) Reg.SYS_STS 3 2 0); let s0 : State := { (s1 : State) with nqe := { s1.nqe with cmds := [] }, ztb := { s1.ztb with zones := [], zcmd := none }, cis := CisState.reset, arc := ArcState.reset, tsq := s1.tsq.map fun q => { q with ctxs := q.ctxs.map fun c => { c with phase := .idle, queue := [] } } }; { setF s0 Reg.ZTB_RWSTS 1 3 3 with arc := { s0.arc with rewrap := some r } }
    (s.wf = true) ∧ (s.arc.rewrap = some r) ∧ (rwPhase s = 3))
    ∧ (
    let k : Nat := 0
    let s0 : State := State.reset
    let s0 : State := s0
    let r : RewrapRun := ⟨1, 2, 5, true, false, .fresh, []⟩
    let s : State := let s1 : State := (setF (setBit (wrN (wrN (wrN s0 Reg.ZTB_ZCMDSTS 0) Reg.ZTB_NZONE 1000) Reg.ZTB_ACTZ (k%30)) Reg.ZTB_CTL 0 true) Reg.SYS_STS 3 2 0); let s0 : State := { (s1 : State) with nqe := { s1.nqe with cmds := [] }, ztb := { s1.ztb with zones := [], zcmd := none }, cis := CisState.reset, arc := ArcState.reset, tsq := s1.tsq.map fun q => { q with ctxs := q.ctxs.map fun c => { c with phase := .idle, queue := [] } } }; { setF s0 Reg.ZTB_RWSTS 1 3 4 with arc := { s0.arc with rewrap := some r } }
    (s.wf = true) ∧ (s.arc.rewrap = some r) ∧ (rwPhase s = 4) ∧ (r.committed = true) ∧ (zoneQuiet s r.src = true) ∧ (disabled s (surfaceAct s (zoneSurface s r.src)) = false) ∧ (zEpoch (dropSpec r.src (releaseZone r.src s)) r.src ≠ 0xFFFFFFFF))
    ∧ (
    let k : Nat := 0
    let s0 : State := State.reset
    let s0 : State := s0
    let r : RewrapRun := ⟨1, 2, 5, false, false, .fresh, []⟩
    let s : State := let s1 : State := (setF (setBit (wrN (wrN (wrN s0 Reg.ZTB_ZCMDSTS 0) Reg.ZTB_NZONE 1000) Reg.ZTB_ACTZ (k%30)) Reg.ZTB_CTL 0 true) Reg.SYS_STS 3 2 0); let s0 : State := { (s1 : State) with nqe := { s1.nqe with cmds := [] }, ztb := { s1.ztb with zones := [], zcmd := none }, cis := CisState.reset, arc := ArcState.reset, tsq := s1.tsq.map fun q => { q with ctxs := q.ctxs.map fun c => { c with phase := .idle, queue := [] } } }; { setF s0 Reg.ZTB_RWSTS 1 3 5 with arc := { s0.arc with rewrap := some r } }
    (s.wf = true) ∧ (s.arc.rewrap = some r) ∧ (rwPhase s = 5) ∧ (r.committed = false) ∧ (zoneQuiet s r.tgt = true) ∧ (disabled s (surfaceAct s (zoneSurface s r.tgt)) = false) ∧ (zEpoch (dropSpec r.tgt (releaseZone r.tgt s)) r.tgt ≠ 0xFFFFFFFF))
    ∧ (
    let k : Nat := 0
    let s0 : State := State.reset
    let s0 : State := s0
    let r : RewrapRun := ⟨1, 2, 5, true, false, .fresh, []⟩
    let s : State := let s1 : State := (setF (setBit (wrN (wrN (wrN s0 Reg.ZTB_ZCMDSTS 0) Reg.ZTB_NZONE 1000) Reg.ZTB_ACTZ (k%30)) Reg.ZTB_CTL 0 true) Reg.SYS_STS 3 2 0); let s0 : State := { (s1 : State) with nqe := { s1.nqe with cmds := [] }, ztb := { s1.ztb with zones := [], zcmd := none }, cis := CisState.reset, arc := ArcState.reset, tsq := s1.tsq.map fun q => { q with ctxs := q.ctxs.map fun c => { c with phase := .idle, queue := [] } } }; let s0 : State := withCmds s0 [cmd0 3 1 0x02 2 (zoneStart s0 1) 1 .media 0 0] [1]; { setF s0 Reg.ZTB_RWSTS 1 3 4 with arc := { s0.arc with rewrap := some r } }
    (s.wf = true) ∧ (s.arc.rewrap = some r) ∧ (rwPhase s = 4) ∧ (r.committed = true) ∧ (zoneQuiet s r.src = false))
    ∧ (
    let k : Nat := 0
    let s0 : State := State.reset
    let s0 : State := s0
    let s : State := let s1 : State := (setF (setBit (wrN (wrN (wrN s0 Reg.ZTB_ZCMDSTS 0) Reg.ZTB_NZONE 1000) Reg.ZTB_ACTZ (k%30)) Reg.ZTB_CTL 0 true) Reg.SYS_STS 3 2 0); let s0 : State := { (s1 : State) with nqe := { s1.nqe with cmds := [] }, ztb := { s1.ztb with zones := [], zcmd := none }, cis := CisState.reset, arc := ArcState.reset, tsq := s1.tsq.map fun q => { q with ctxs := q.ctxs.map fun c => { c with phase := .idle, queue := [] } } }; setF s0 Reg.ZTB_RWSTS 1 3 2
    (s.wf = true) ∧ (s.arc.rewrap = none ∨ rwPhase s = 2))
    ∧ (
    let k : Nat := 0
    let s0 : State := State.reset
    let s0 : State := s0
    let r : RewrapRun := ⟨1, 2, 5, false, false, .fresh, []⟩
    let s : State := let s1 : State := (setF (setBit (wrN (wrN (wrN s0 Reg.ZTB_ZCMDSTS 0) Reg.ZTB_NZONE 1000) Reg.ZTB_ACTZ (k%30)) Reg.ZTB_CTL 0 true) Reg.SYS_STS 3 2 0); let s0 : State := { (s1 : State) with nqe := { s1.nqe with cmds := [] }, ztb := { s1.ztb with zones := [], zcmd := none }, cis := CisState.reset, arc := ArcState.reset, tsq := s1.tsq.map fun q => { q with ctxs := q.ctxs.map fun c => { c with phase := .idle, queue := [] } } }; let s0 : State := setCptr 1 (k+5) (setCptr 2 (k+5) (setZState 2 zImpOpen s0)); { setF s0 Reg.ZTB_RWSTS 1 3 2 with arc := { s0.arc with rewrap := some r } }
    (s.wf = true) ∧ (s.arc.rewrap = some r) ∧ (rwPhase s = 2) ∧ (zCptr s r.tgt = zCptr s r.src) ∧ (disabled s (surfaceAct s (zoneSurface s r.tgt)) = false))
    ∧ (
    let k : Nat := 0
    let s0 : State := State.reset
    let s0 : State := s0
    let r : RewrapRun := ⟨1, 2, 5, false, false, .fresh, []⟩
    let s : State := let s1 : State := (setF (setBit (wrN (wrN (wrN s0 Reg.ZTB_ZCMDSTS 0) Reg.ZTB_NZONE 1000) Reg.ZTB_ACTZ (k%30)) Reg.ZTB_CTL 0 true) Reg.SYS_STS 3 2 0); let s0 : State := { (s1 : State) with nqe := { s1.nqe with cmds := [] }, ztb := { s1.ztb with zones := [], zcmd := none }, cis := CisState.reset, arc := ArcState.reset, tsq := s1.tsq.map fun q => { q with ctxs := q.ctxs.map fun c => { c with phase := .idle, queue := [] } } }; { setF s0 Reg.ZTB_RWSTS 1 3 3 with arc := { s0.arc with rewrap := some r } }
    (s.wf = true) ∧ (s.arc.rewrap = some r) ∧ (rwPhase s ≠ 2 ∨ zCptr s r.tgt ≠ zCptr s r.src))
    ∧ (
    let k : Nat := 0
    let s0 : State := State.reset
    let s0 : State := s0
    let s : State := let s1 : State := (setF (setBit (wrN (wrN (wrN s0 Reg.ZTB_ZCMDSTS 0) Reg.ZTB_NZONE 1000) Reg.ZTB_ACTZ (k%30)) Reg.ZTB_CTL 0 true) Reg.SYS_STS 3 2 0); let s0 : State := { (s1 : State) with nqe := { s1.nqe with cmds := [] }, ztb := { s1.ztb with zones := [], zcmd := none }, cis := CisState.reset, arc := ArcState.reset, tsq := s1.tsq.map fun q => { q with ctxs := q.ctxs.map fun c => { c with phase := .idle, queue := [] } } }; s0
    (s.wf = true) ∧ (s.arc.rewrap = none)) := by
  repeat refine And.intro (by decide +kernel) ?_
  decide +kernel

/-- Hypotheses of ZonesAreStreamed hold together, of one clause after another. -/
theorem witness_zones_are_streamed :
    (
    let k : Nat := 0
    let s0 : State := State.reset
    let s0 : State := s0
    let s : State := let s0 : State := setF s0 Reg.SYS_MODE 0 4 Mode.ready; { s0 with arc := { s0.arc with mode := if k%2=0 then .off else .paused, entries := [] } }
    (s.wf = true) ∧ (s.arc.mode ≠ .running) ∧ (streamMode s = true) ∧ (s.arc.entries = []))
    ∧ (
    let k : Nat := 0
    let s0 : State := State.reset
    let s0 : State := s0
    let s : State := let s0 : State := setF s0 Reg.SYS_MODE 0 4 Mode.standby; { s0 with arc := { s0.arc with mode := if k%2=0 then .off else .paused } }
    (s.wf = true) ∧ (s.arc.mode ≠ .running) ∧ (streamMode s = false))
    ∧ (
    let k : Nat := 0
    let s0 : State := State.reset
    let s0 : State := s0
    let s : State := { s0 with arc := { s0.arc with mode := .running } }
    (s.wf = true) ∧ (s.arc.mode = .running))
    ∧ (
    let k : Nat := 0
    let s0 : State := State.reset
    let s0 : State := s0
    let s : State := { s0 with arc := { s0.arc with mode := if k%2=0 then .off else .running } }
    (s.wf = true))
    ∧ (
    let k : Nat := 0
    let s0 : State := State.reset
    let s0 : State := s0
    let x : StreamEntry := ⟨0, 16, 4, ⟨8, 8, none, []⟩, [], 8, 4, [(4, 4)], false, false, false⟩
    let s : State := let s1 : State := (setF (setBit (wrN (wrN (wrN s0 Reg.ZTB_ZCMDSTS 0) Reg.ZTB_NZONE 1000) Reg.ZTB_ACTZ (k%30)) Reg.ZTB_CTL 0 true) Reg.SYS_STS 3 2 0); let s0 : State := { (s1 : State) with nqe := { s1.nqe with cmds := [] }, ztb := { s1.ztb with zones := [], zcmd := none }, cis := CisState.reset, arc := ArcState.reset, tsq := s1.tsq.map fun q => { q with ctxs := q.ctxs.map fun c => { c with phase := .idle, queue := [] } } }; let s0 : State := { s0 with noi := { s0.noi with domains := [((0x2321, 0), 3, leBytes 4 7 ++ leBytes 4 0 ++ leBytes 8 5000 ++ leBytes 4 8 ++ leBytes 4 0 ++ leBytes 8 90000)], values := [] } }; { s0 with arc := { s0.arc with mode := .running, states := [1, 0], entries := [x] } }
    (s.wf = true) ∧ (s.arc.entries = [x]) ∧ (s.arc.mode = .running) ∧ (x.held = []) ∧ (x.entry < s.arc.states.length))
    ∧ (
    let k : Nat := 0
    let s0 : State := State.reset
    let s0 : State := s0
    let s : State := { s0 with arc := { s0.arc with mode := .off, entries := [] } }
    (s.wf = true) ∧ (s.arc.entries = []) ∧ (s.arc.mode = .off))
    ∧ (
    let k : Nat := 0
    let s0 : State := State.reset
    let s0 : State := s0
    let e : Nat := 1
    let peer : Bool := true
    let cap : DWord := BitVec.ofNat 64 (k+100)
    let zasl : Word := BitVec.ofNat 32 (k%9+1)
    let s : State := let s1 : State := (setF (setBit (wrN (wrN (wrN s0 Reg.ZTB_ZCMDSTS 0) Reg.ZTB_NZONE 1000) Reg.ZTB_ACTZ (k%30)) Reg.ZTB_CTL 0 true) Reg.SYS_STS 3 2 0); let s0 : State := { (s1 : State) with nqe := { s1.nqe with cmds := [] }, ztb := { s1.ztb with zones := [], zcmd := none }, cis := CisState.reset, arc := ArcState.reset, tsq := s1.tsq.map fun q => { q with ctxs := q.ctxs.map fun c => { c with phase := .idle, queue := [] } } }; let s0 : State := { s0 with noi := { s0.noi with domains := [((0x2321, 0), 3, leBytes 4 7 ++ leBytes 4 0 ++ leBytes 8 5000 ++ leBytes 4 8 ++ leBytes 4 0 ++ leBytes 8 90000)], values := [] } }; let s0 : State := setCptr 8 (k+5) (setZState 8 zFull s0); { s0 with arc := { s0.arc with mode := .running, states := [1, 0], entries := [] } }
    (s.wf = true) ∧ (s.arc.mode = .running) ∧ (s.arc.entries.length < streamWidth s) ∧ (((List.range (planEntries s)).find? fun i => entryState s i == 0) = some e) ∧ (peer = true) ∧ (zCptr s (planZone s e) ≤ cap.toNat) ∧ (streamSource s e = true) ∧ (s.arc.entries = []) ∧ (e < s.arc.states.length) ∧ (0 < zCptr s (planZone s e)))
    ∧ (
    let k : Nat := 0
    let s0 : State := State.reset
    let s0 : State := s0
    let e : Nat := 1
    let peer : Bool := false
    let cap : DWord := BitVec.ofNat 64 (k+100)
    let zasl : Word := BitVec.ofNat 32 (k%9+1)
    let s : State := let s1 : State := (setF (setBit (wrN (wrN (wrN s0 Reg.ZTB_ZCMDSTS 0) Reg.ZTB_NZONE 1000) Reg.ZTB_ACTZ (k%30)) Reg.ZTB_CTL 0 true) Reg.SYS_STS 3 2 0); let s0 : State := { (s1 : State) with nqe := { s1.nqe with cmds := [] }, ztb := { s1.ztb with zones := [], zcmd := none }, cis := CisState.reset, arc := ArcState.reset, tsq := s1.tsq.map fun q => { q with ctxs := q.ctxs.map fun c => { c with phase := .idle, queue := [] } } }; let s0 : State := { s0 with noi := { s0.noi with domains := [((0x2321, 0), 3, leBytes 4 7 ++ leBytes 4 0 ++ leBytes 8 5000 ++ leBytes 4 8 ++ leBytes 4 0 ++ leBytes 8 90000)], values := [] } }; let s0 : State := setCptr 8 (k+5) (setZState 8 zFull s0); { s0 with arc := { s0.arc with mode := .running, states := [1, 0], entries := [] } }
    (s.wf = true) ∧ (s.arc.mode = .running) ∧ (s.arc.entries.length < streamWidth s) ∧ (((List.range (planEntries s)).find? fun i => entryState s i == 0) = some e) ∧ (peer = false ∨ cap.toNat < zCptr s (planZone s e)) ∧ (e < s.arc.states.length))
    ∧ (
    let k : Nat := 0
    let s0 : State := State.reset
    let s0 : State := s0
    let e : Nat := 1
    let peer : Bool := true
    let cap : DWord := BitVec.ofNat 64 (k+100)
    let zasl : Word := BitVec.ofNat 32 (k%9+1)
    let s : State := let s1 : State := (setF (setBit (wrN (wrN (wrN s0 Reg.ZTB_ZCMDSTS 0) Reg.ZTB_NZONE 1000) Reg.ZTB_ACTZ (k%30)) Reg.ZTB_CTL 0 true) Reg.SYS_STS 3 2 0); let s0 : State := { (s1 : State) with nqe := { s1.nqe with cmds := [] }, ztb := { s1.ztb with zones := [], zcmd := none }, cis := CisState.reset, arc := ArcState.reset, tsq := s1.tsq.map fun q => { q with ctxs := q.ctxs.map fun c => { c with phase := .idle, queue := [] } } }; let s0 : State := { s0 with noi := { s0.noi with domains := [((0x2321, 0), 3, leBytes 4 7 ++ leBytes 4 0 ++ leBytes 8 5000 ++ leBytes 4 8 ++ leBytes 4 0 ++ leBytes 8 90000)], values := [] } }; let s0 : State := setCptr 8 (k+5) (setZState 8 zEmpty s0); { s0 with arc := { s0.arc with mode := .running, states := [1, 0], entries := [] } }
    (s.wf = true) ∧ (s.arc.mode = .running) ∧ (s.arc.entries.length < streamWidth s) ∧ (((List.range (planEntries s)).find? fun i => entryState s i == 0) = some e) ∧ (peer = true) ∧ (zCptr s (planZone s e) ≤ cap.toNat) ∧ (streamSource s e = false) ∧ (e < s.arc.states.length))
    ∧ (
    let k : Nat := 0
    let s0 : State := State.reset
    let s0 : State := s0
    let peer : Bool := true
    let cap : DWord := BitVec.ofNat 64 (k+100)
    let zasl : Word := BitVec.ofNat 32 (k%9+1)
    let s : State := { s0 with arc := { s0.arc with mode := .paused } }
    (s.wf = true) ∧ (s.arc.mode ≠ .running ∨ streamWidth s ≤ s.arc.entries.length))
    ∧ (
    let k : Nat := 0
    let s0 : State := State.reset
    let s0 : State := s0
    let x : StreamEntry := ⟨0, 16, 4, ⟨8, 8, none, []⟩, [], 8, 4, [(4, 4)], false, false, false⟩
    let e : Fin 524288 := 0
    let lba : DWord := 5004
    let s : State := let s1 : State := (setF (setBit (wrN (wrN (wrN s0 Reg.ZTB_ZCMDSTS 0) Reg.ZTB_NZONE 1000) Reg.ZTB_ACTZ (k%30)) Reg.ZTB_CTL 0 true) Reg.SYS_STS 3 2 0); let s0 : State := { (s1 : State) with nqe := { s1.nqe with cmds := [] }, ztb := { s1.ztb with zones := [], zcmd := none }, cis := CisState.reset, arc := ArcState.reset, tsq := s1.tsq.map fun q => { q with ctxs := q.ctxs.map fun c => { c with phase := .idle, queue := [] } } }; let s0 : State := { s0 with noi := { s0.noi with domains := [((0x2321, 0), 3, leBytes 4 7 ++ leBytes 4 0 ++ leBytes 8 5000 ++ leBytes 4 8 ++ leBytes 4 0 ++ leBytes 8 90000)], values := [] } }; let s0 : State := setCptr 7 16 (setZState 7 zFull s0); { s0 with arc := { s0.arc with mode := .running, states := [1, 0], entries := [x] } }
    (s.wf = true) ∧ (s.arc.entries = [x]) ∧ (x.entry = e.val) ∧ (s.arc.mode = .running) ∧ (planZone s e = 7) ∧ (zCptr s 7 = x.size) ∧ (x.flying = [(4, 4)]) ∧ (lba.toNat = planPeer s e + 4) ∧ (x.held = []) ∧ (x.reader.ready = x.issued) ∧ (x.issued < x.size) ∧ (0 < x.chunk) ∧ (x.flush = false))
    ∧ (
    let k : Nat := 0
    let s0 : State := State.reset
    let s0 : State := s0
    let x : StreamEntry := ⟨0, 16, 4, ⟨16, 16, none, []⟩, [], 16, 12, [(4, 4)], false, false, false⟩
    let e : Fin 524288 := 0
    let lba : DWord := 5004
    let s : State := let s1 : State := (setF (setBit (wrN (wrN (wrN s0 Reg.ZTB_ZCMDSTS 0) Reg.ZTB_NZONE 1000) Reg.ZTB_ACTZ (k%30)) Reg.ZTB_CTL 0 true) Reg.SYS_STS 3 2 0); let s0 : State := { (s1 : State) with nqe := { s1.nqe with cmds := [] }, ztb := { s1.ztb with zones := [], zcmd := none }, cis := CisState.reset, arc := ArcState.reset, tsq := s1.tsq.map fun q => { q with ctxs := q.ctxs.map fun c => { c with phase := .idle, queue := [] } } }; let s0 : State := { s0 with noi := { s0.noi with domains := [((0x2321, 0), 3, leBytes 4 7 ++ leBytes 4 0 ++ leBytes 8 5000 ++ leBytes 4 8 ++ leBytes 4 0 ++ leBytes 8 90000)], values := [] } }; let s0 : State := setCptr 7 16 (setZState 7 zFull s0); { s0 with arc := { s0.arc with mode := .running, states := [1, 0], entries := [x] } }
    (s.wf = true) ∧ (s.arc.entries = [x]) ∧ (x.entry = e.val) ∧ (s.arc.mode = .running) ∧ (planZone s e = 7) ∧ (zCptr s 7 = x.size) ∧ (x.flying = [(4, 4)]) ∧ (lba.toNat = planPeer s e + 4) ∧ (x.held = []) ∧ (x.issued = x.size) ∧ (x.flush = false))
    ∧ (
    let k : Nat := 0
    let s0 : State := State.reset
    let s0 : State := s0
    let x : StreamEntry := ⟨0, 16, 4, ⟨8, 8, none, []⟩, [], 8, 4, [(4, 4)], false, false, false⟩
    let e : Fin 524288 := 0
    let o : BitVec 18 := 4
    let status : BitVec 15 := BitVec.ofNat 15 (k+1)
    let lba : DWord := 5004
    let s : State := let s1 : State := (setF (setBit (wrN (wrN (wrN s0 Reg.ZTB_ZCMDSTS 0) Reg.ZTB_NZONE 1000) Reg.ZTB_ACTZ (k%30)) Reg.ZTB_CTL 0 true) Reg.SYS_STS 3 2 0); let s0 : State := { (s1 : State) with nqe := { s1.nqe with cmds := [] }, ztb := { s1.ztb with zones := [], zcmd := none }, cis := CisState.reset, arc := ArcState.reset, tsq := s1.tsq.map fun q => { q with ctxs := q.ctxs.map fun c => { c with phase := .idle, queue := [] } } }; let s0 : State := { s0 with noi := { s0.noi with domains := [((0x2321, 0), 3, leBytes 4 7 ++ leBytes 4 0 ++ leBytes 8 5000 ++ leBytes 4 8 ++ leBytes 4 0 ++ leBytes 8 90000)], values := [] } }; let s0 : State := setCptr 7 16 (setZState 7 zFull s0); { s0 with arc := { s0.arc with mode := .running, states := [1, 0], entries := [x] } }
    (s.wf = true) ∧ (s.arc.entries = [x]) ∧ (x.entry = e.val) ∧ (s.arc.mode = .running) ∧ (planZone s e = 7) ∧ (zCptr s 7 = x.size) ∧ (x.flying = [(o.toNat, 4)]) ∧ (status.toNat ≠ 0) ∧ (x.held = []) ∧ (x.entry < s.arc.states.length))
    ∧ (
    let k : Nat := 0
    let s0 : State := State.reset
    let s0 : State := s0
    let x : StreamEntry := ⟨0, 16, 4, ⟨8, 8, none, []⟩, [], 8, 4, [(4, 4)], false, false, false⟩
    let e : Fin 524288 := 0
    let o : BitVec 18 := 4
    let lba : DWord := 5005
    let s : State := let s1 : State := (setF (setBit (wrN (wrN (wrN s0 Reg.ZTB_ZCMDSTS 0) Reg.ZTB_NZONE 1000) Reg.ZTB_ACTZ (k%30)) Reg.ZTB_CTL 0 true) Reg.SYS_STS 3 2 0); let s0 : State := { (s1 : State) with nqe := { s1.nqe with cmds := [] }, ztb := { s1.ztb with zones := [], zcmd := none }, cis := CisState.reset, arc := ArcState.reset, tsq := s1.tsq.map fun q => { q with ctxs := q.ctxs.map fun c => { c with phase := .idle, queue := [] } } }; let s0 : State := { s0 with noi := { s0.noi with domains := [((0x2321, 0), 3, leBytes 4 7 ++ leBytes 4 0 ++ leBytes 8 5000 ++ leBytes 4 8 ++ leBytes 4 0 ++ leBytes 8 90000)], values := [] } }; let s0 : State := setCptr 7 16 (setZState 7 zFull s0); { s0 with arc := { s0.arc with mode := .running, states := [1, 0], entries := [x] } }
    (s.wf = true) ∧ (s.arc.entries = [x]) ∧ (x.entry = e.val) ∧ (s.arc.mode = .running) ∧ (planZone s e = 7) ∧ (zCptr s 7 = x.size) ∧ (x.flying = [(o.toNat, 4)]) ∧ (lba.toNat ≠ planPeer s e + o.toNat) ∧ (x.mismatch = false) ∧ (x.held = []))
    ∧ (
    let k : Nat := 0
    let s0 : State := State.reset
    let s0 : State := s0
    let x : StreamEntry := ⟨0, 16, 4, ⟨8, 8, none, []⟩, [], 8, 4, [(4, 4)], false, true, false⟩
    let e : Fin 524288 := 0
    let o : BitVec 18 := 4
    let lba : DWord := 5005
    let s : State := let s1 : State := (setF (setBit (wrN (wrN (wrN s0 Reg.ZTB_ZCMDSTS 0) Reg.ZTB_NZONE 1000) Reg.ZTB_ACTZ (k%30)) Reg.ZTB_CTL 0 true) Reg.SYS_STS 3 2 0); let s0 : State := { (s1 : State) with nqe := { s1.nqe with cmds := [] }, ztb := { s1.ztb with zones := [], zcmd := none }, cis := CisState.reset, arc := ArcState.reset, tsq := s1.tsq.map fun q => { q with ctxs := q.ctxs.map fun c => { c with phase := .idle, queue := [] } } }; let s0 : State := { s0 with noi := { s0.noi with domains := [((0x2321, 0), 3, leBytes 4 7 ++ leBytes 4 0 ++ leBytes 8 5000 ++ leBytes 4 8 ++ leBytes 4 0 ++ leBytes 8 90000)], values := [] } }; let s0 : State := setCptr 7 16 (setZState 7 zFull s0); { s0 with arc := { s0.arc with mode := .running, states := [1, 0], entries := [x] } }
    (s.wf = true) ∧ (s.arc.entries = [x]) ∧ (x.entry = e.val) ∧ (s.arc.mode = .running) ∧ (planZone s e = 7) ∧ (zCptr s 7 = x.size) ∧ (x.flying = [(o.toNat, 4)]) ∧ (lba.toNat ≠ planPeer s e + o.toNat) ∧ (x.mismatch = true) ∧ (x.held = []) ∧ (x.entry < s.arc.states.length))
    ∧ (
    let k : Nat := 0
    let s0 : State := State.reset
    let s0 : State := s0
    let x : StreamEntry := ⟨0, 16, 4, ⟨8, 8, none, []⟩, [], 8, 4, [(4, 4)], false, false, true⟩
    let e : Fin 524288 := 0
    let o : BitVec 18 := 4
    let status : BitVec 15 := BitVec.ofNat 15 (k%2)
    let lba : DWord := 5004
    let s : State := let s1 : State := (setF (setBit (wrN (wrN (wrN s0 Reg.ZTB_ZCMDSTS 0) Reg.ZTB_NZONE 1000) Reg.ZTB_ACTZ (k%30)) Reg.ZTB_CTL 0 true) Reg.SYS_STS 3 2 0); let s0 : State := { (s1 : State) with nqe := { s1.nqe with cmds := [] }, ztb := { s1.ztb with zones := [], zcmd := none }, cis := CisState.reset, arc := ArcState.reset, tsq := s1.tsq.map fun q => { q with ctxs := q.ctxs.map fun c => { c with phase := .idle, queue := [] } } }; let s0 : State := { s0 with noi := { s0.noi with domains := [((0x2321, 0), 3, leBytes 4 7 ++ leBytes 4 0 ++ leBytes 8 5000 ++ leBytes 4 8 ++ leBytes 4 0 ++ leBytes 8 90000)], values := [] } }; let s0 : State := setCptr 7 16 (setZState 7 zFull s0); { s0 with arc := { s0.arc with mode := .running, states := [1, 0], entries := [x] } }
    (s.wf = true) ∧ (s.arc.entries = [x]) ∧ (x.entry = e.val) ∧ (s.arc.mode = .running) ∧ (planZone s e = 7) ∧ (zCptr s 7 = x.size) ∧ (x.flush = true) ∧ (x.held = []) ∧ (x.entry < s.arc.states.length))
    ∧ (
    let k : Nat := 0
    let s0 : State := State.reset
    let s0 : State := s0
    let e : Fin 524288 := 9
    let f : Bool := true
    let o : BitVec 18 := 4
    let status : BitVec 15 := 0
    let lba : DWord := 0
    let s : State := { s0 with arc := { s0.arc with entries := [] } }
    (s.wf = true) ∧ ((s.arc.entries.find? fun y => y.entry == e.val) = none)) := by
  repeat refine And.intro (by decide +kernel) ?_
  decide +kernel

/-- Hypotheses of CalibrationsRun hold together, of one clause after another. -/
theorem witness_calibrations_run :
    (
    let k : Nat := 0
    let s0 : State := State.reset
    let s0 : State := s0
    let s : State := setBit s0 Reg.CAL_STS 0 true
    (s.wf = true) ∧ (calCheck s false ≠ CalRes.accepted))
    ∧ (
    let k : Nat := 0
    let s0 : State := State.reset
    let s0 : State := s0
    let s : State := setF (let s0 : State := setBit (setBit (let s0 : State := s0; { s0 with sys := { s0.sys with target := none, step := none, next := none } }) Reg.CAL_STS 0 false) Reg.SYS_STS 5 false; { s0 with cal := { s0.cal with run := none, held := none } }) Reg.SYS_MODE 0 4 Mode.standby
    (s.wf = true) ∧ (calCheck s false = CalRes.accepted) ∧ (hotMode (mode s) = false))
    ∧ (
    let k : Nat := 0
    let s0 : State := State.reset
    let s0 : State := s0
    let s : State := setF (let s0 : State := setBit (setBit (let s0 : State := s0; { s0 with sys := { s0.sys with target := none, step := none, next := none } }) Reg.CAL_STS 0 false) Reg.SYS_STS 5 false; { s0 with cal := { s0.cal with run := none, held := none } }) Reg.SYS_MODE 0 4 Mode.standby
    (s.wf = true) ∧ (calCheck s true = CalRes.accepted) ∧ (hotMode (mode s) = false))
    ∧ (
    let k : Nat := 0
    let s0 : State := State.reset
    let s0 : State := s0
    let s : State := setBit s0 Reg.CAL_STS 0 true
    (s.wf = true) ∧ (calCheck s true ≠ CalRes.accepted))
    ∧ (
    let k : Nat := 0
    let s0 : State := State.reset
    let s0 : State := s0
    let s : State := setF (let s0 : State := setBit (setBit (let s0 : State := s0; { s0 with sys := { s0.sys with target := none, step := none, next := none } }) Reg.CAL_STS 0 false) Reg.SYS_STS 5 false; { s0 with cal := { s0.cal with run := none, held := none } }) Reg.SYS_MODE 0 4 Mode.ready
    (s.wf = true) ∧ (calCheck s true = CalRes.accepted) ∧ (hotMode (mode s) = true) ∧ (s.sys.step = none))
    ∧ (
    let k : Nat := 0
    let s0 : State := State.reset
    let s0 : State := s0
    let r : CalRun := ⟨Mode.standby, false, true, false, []⟩
    let ref : Word := 0x3FA00000#32
    let trims : BitVec 384 := BitVec.ofNat 384 ((List.range 6).foldl (fun a n => a + 2 ^ (64 * n) * 0x3F800000) 0)
    let s : State := setF (let s0 : State := setBit (let s0 : State := s0; { s0 with sys := { s0.sys with target := none, step := none, next := none } }) Reg.CAL_STS 0 true; { s0 with cal := { s0.cal with run := some r, held := none } }) Reg.SYS_MODE 0 4 Mode.calibrate
    (s.wf = true) ∧ (s.cal.run = some r) ∧ (r.offline = true) ∧ (mode s = Mode.calibrate) ∧ (fpNonFinite ref.toNat = false) ∧ (12375 / 10000 ≤ fpVal ref.toNat ∧ fpVal ref.toNat ≤ 12625 / 10000) ∧ (∀ n : Fin 6, chainUsed s n = true → trimOk (bitsOf trims.toNat (64 * n.val) 32) (bitsOf trims.toNat (64 * n.val + 32) 32) = true))
    ∧ (
    let k : Nat := 0
    let s0 : State := State.reset
    let s0 : State := s0
    let r : CalRun := ⟨Mode.standby, false, true, false, []⟩
    let ref : Word := 0x3D000000#32
    let trims : BitVec 384 := BitVec.ofNat 384 ((List.range 6).foldl (fun a n => a + 2 ^ (64 * n) * 0x3F800000) 0)
    let s : State := setF (let s0 : State := setBit (let s0 : State := s0; { s0 with sys := { s0.sys with target := none, step := none, next := none } }) Reg.CAL_STS 0 true; { s0 with cal := { s0.cal with run := some r, held := none } }) Reg.SYS_MODE 0 4 Mode.calibrate
    (s.wf = true) ∧ (s.cal.run = some r) ∧ (r.offline = true) ∧ (mode s = Mode.calibrate) ∧ (s.cal.held = none) ∧ (r.origin = Mode.standby) ∧ (r.deferred = false) ∧ (fpNonFinite ref.toNat = false) ∧ (fpVal ref.toNat < 1 / 10))
    ∧ (
    let k : Nat := 0
    let s0 : State := State.reset
    let s0 : State := s0
    let r : CalRun := ⟨Mode.standby, false, true, false, []⟩
    let ref : Word := if k%2=0 then 0x7F800000#32 else 0x40000000#32
    let trims : BitVec 384 := BitVec.ofNat 384 ((List.range 6).foldl (fun a n => a + 2 ^ (64 * n) * 0x3F800000) 0)
    let s : State := setF (let s0 : State := setBit (let s0 : State := s0; { s0 with sys := { s0.sys with target := none, step := none, next := none } }) Reg.CAL_STS 0 true; { s0 with cal := { s0.cal with run := some r, held := none } }) Reg.SYS_MODE 0 4 Mode.calibrate
    (s.wf = true) ∧ (s.cal.run = some r) ∧ (r.offline = true) ∧ (mode s = Mode.calibrate) ∧ (s.cal.held = none) ∧ (r.origin = Mode.standby) ∧ (r.deferred = false) ∧ (fpNonFinite ref.toNat = true ∨ (1 / 10 ≤ fpVal ref.toNat ∧ (fpVal ref.toNat < 12375 / 10000 ∨ 12625 / 10000 < fpVal ref.toNat))))
    ∧ (
    let k : Nat := 0
    let s0 : State := State.reset
    let s0 : State := s0
    let r : CalRun := ⟨Mode.standby, false, true, false, []⟩
    let ref : Word := 0x3FA00000#32
    let trims : BitVec 384 := BitVec.ofNat 384 (if k%2=0 then 7*k else 0x3F800000)
    let s : State := setF (let s0 : State := setBit (let s0 : State := s0; { s0 with sys := { s0.sys with target := none, step := none, next := none } }) Reg.CAL_STS 0 true; { s0 with cal := { s0.cal with run := some r, held := none } }) Reg.SYS_MODE 0 4 Mode.calibrate
    (s.wf = true) ∧ (s.cal.run = some r) ∧ (r.offline = true) ∧ (mode s = Mode.calibrate) ∧ (s.cal.held = none) ∧ (fpNonFinite ref.toNat = false) ∧ (12375 / 10000 ≤ fpVal ref.toNat ∧ fpVal ref.toNat ≤ 12625 / 10000) ∧ (∃ n : Fin 6, chainUsed s n = true ∧ trimOk (bitsOf trims.toNat (64 * n.val) 32) (bitsOf trims.toNat (64 * n.val + 32) 32) = false))
    ∧ (
    let k : Nat := 0
    let s0 : State := State.reset
    let s0 : State := s0
    let ref : Word := 5#32
    let trims : BitVec 384 := 6#384
    let s : State := let s0 : State := s0; { s0 with cal := { s0.cal with run := none } }
    (s.wf = true) ∧ (s.cal.run = none))
    ∧ (
    let k : Nat := 0
    let s0 : State := State.reset
    let s0 : State := s0
    let r : CalRun := ⟨Mode.standby, false, false, false, (List.range 12).map (0x3F800000 + ·)⟩
    let s : State := setF (let s0 : State := setF (setBit (let s0 : State := s0; { s0 with sys := { s0.sys with target := none, step := none, next := none } }) Reg.CAL_STS 0 true) Reg.CAL_STS 1 3 4; { s0 with cal := { s0.cal with run := some r, held := none, copy := k % 2 } }) Reg.SYS_MODE 0 4 Mode.calibrate
    (s.wf = true) ∧ (s.cal.run = some r) ∧ (calPhase s = 4) ∧ (mode s = Mode.calibrate) ∧ (s.cal.held = none))
    ∧ (
    let k : Nat := 0
    let s0 : State := State.reset
    let s0 : State := s0
    let r : CalRun := ⟨Mode.standby, false, false, false, (List.range 12).map (0x3F800000 + ·)⟩
    let s : State := setF (let s0 : State := setF (setBit (let s0 : State := s0; { s0 with sys := { s0.sys with target := none, step := none, next := none } }) Reg.CAL_STS 0 true) Reg.CAL_STS 1 3 4; { s0 with cal := { s0.cal with run := some r, held := none, copy := k % 2 } }) Reg.SYS_MODE 0 4 Mode.calibrate
    (s.wf = true) ∧ (s.cal.run = some r) ∧ (calPhase s = 4) ∧ (mode s = Mode.calibrate) ∧ (s.cal.held = none) ∧ (s.cal.copy ≤ 1) ∧ (r.trims.length = 12))
    ∧ (
    let k : Nat := 0
    let s0 : State := State.reset
    let s0 : State := s0
    let r : CalRun := ⟨Mode.standby, false, false, false, (List.range 12).map (0x3F800000 + ·)⟩
    let ok : Bool := k%2==0
    let s : State := setF (let s0 : State := setF (setBit (let s0 : State := s0; { s0 with sys := { s0.sys with target := none, step := none, next := none } }) Reg.CAL_STS 0 true) Reg.CAL_STS 1 3 4; { s0 with cal := { s0.cal with run := some r, held := none, copy := k % 2 } }) Reg.SYS_MODE 0 4 Mode.calibrate
    (s.wf = true) ∧ (s.cal.run = some r) ∧ (calPhase s = 4) ∧ (mode s = Mode.calibrate) ∧ (s.cal.held = none) ∧ (r.origin = Mode.standby) ∧ (r.deferred = false))
    ∧ (
    let k : Nat := 0
    let s0 : State := State.reset
    let s0 : State := s0
    let r : CalRun := ⟨Mode.standby, false, false, false, (List.range 12).map (0x3F800000 + ·)⟩
    let s : State := setF (let s0 : State := setF (setBit (let s0 : State := s0; { s0 with sys := { s0.sys with target := none, step := none, next := none } }) Reg.CAL_STS 0 true) Reg.CAL_STS 1 3 4; { s0 with cal := { s0.cal with run := some r, held := none, copy := k % 2 } }) Reg.SYS_MODE 0 4 Mode.calibrate
    (s.wf = true) ∧ (s.cal.run = some r) ∧ (calPhase s = 4) ∧ (mode s = Mode.calibrate) ∧ (s.cal.held = none))
    ∧ (
    let k : Nat := 0
    let s0 : State := State.reset
    let s0 : State := s0
    let ok : Bool := true
    let s : State := let s0 : State := s0; { s0 with cal := { s0.cal with run := none } }
    (s.wf = true) ∧ (s.cal.run = none ∨ calPhase s ≠ 4)) := by
  repeat refine And.intro (by decide +kernel) ?_
  decide +kernel

/-- Hypotheses of LinkTestsRun hold together, of one clause after another. -/
theorem witness_link_tests_run :
    (
    let k : Nat := 0
    let s0 : State := State.reset
    let n : Fin 8 := Fin.ofNat 8 k
    let s0 : State := s0
    let s : State := let s0 : State := (List.range 8).foldl (fun s i => wrN s (Reg.TST_STS i) 0) { s0 with tsq := State.reset.tsq }; setF (wrN (wrN (wrN (setF (s0) Reg.SYS_MODE 0 4 Mode.test) (Reg.TST_STS n) 0) (Reg.TST_CFG n) (0x10 + n.val + 256 * 1)) (Reg.TST_ADDR n) 0) Reg.SYS_STS 1 4 0
    (s.wf = true) ∧ (tstCheck s n = TstRes.ok) ∧ (targetPort (tstTarget s n) = none))
    ∧ (
    let k : Nat := 0
    let s0 : State := State.reset
    let n : Fin 8 := Fin.ofNat 8 k
    let s0 : State := s0
    let p : Nat := 0
    let s : State := let s0 : State := (List.range 8).foldl (fun s i => wrN s (Reg.TST_STS i) 0) { s0 with tsq := State.reset.tsq }; let s0 : State := { s0 with net := { s0.net with ports := State.reset.net.ports } }; setF (setF (setF (wrN (wrN (wrN (setF (s0) Reg.SYS_MODE 0 4 Mode.test) (Reg.TST_STS n) 0) (Reg.TST_CFG n) (0 + 256 * 4)) (Reg.TST_ADDR n) 0) Reg.SYS_STS 1 4 0) (Reg.ETH_STS 0) 0 5 0) (Reg.ETH_CTL 0) 4 4 1
    (s.wf = true) ∧ (tstCheck s n = TstRes.ok) ∧ (targetPort (tstTarget s n) = some p))
    ∧ (
    let k : Nat := 0
    let s0 : State := State.reset
    let n : Fin 8 := Fin.ofNat 8 k
    let s0 : State := s0
    let s : State := let s0 : State := (List.range 8).foldl (fun s i => wrN s (Reg.TST_STS i) 0) { s0 with tsq := State.reset.tsq }; setF (wrN (wrN (wrN (setF (s0) Reg.SYS_MODE 0 4 Mode.fill) (Reg.TST_STS n) 0) (Reg.TST_CFG n) (if k%2=0 then 0x10 else 0x60 + 256 * if k%3=0 then 2 else 1)) (Reg.TST_ADDR n) 0) Reg.SYS_STS 1 4 0
    (s.wf = true) ∧ (tstRun s n = false) ∧ (tstCheck s n ≠ TstRes.ok))
    ∧ (
    let k : Nat := 0
    let s0 : State := State.reset
    let n : Fin 8 := Fin.ofNat 8 k
    let s0 : State := s0
    let s : State := wrN s0 (Reg.TST_STS n) 1
    (s.wf = true) ∧ (tstRun s n = true))
    ∧ (
    let k : Nat := 0
    let s0 : State := State.reset
    let n : Fin 8 := Fin.ofNat 8 k
    let s0 : State := s0
    let e : Word := BitVec.ofNat 32 (k*77)
    let b : DWord := BitVec.ofNat 64 (k*2^33+5)
    let f : Word := BitVec.ofNat 32 k
    let lock : Bool := k%2==0
    let s : State := wrN (wrN (wrN s0 (Reg.TST_STS n) 1) (Reg.TST_CFG n) (0x10 + 256 * 6 + 0)) (Reg.TST_DUR n) 0
    (s.wf = true) ∧ (tstRun s n = true) ∧ (rdN s (Reg.TST_DUR n) = 0) ∧ ((bit s (Reg.TST_CFG n) 13 = false ∧ (lock = true ∨ locks (getF s (Reg.TST_CFG n) 8 4) = false))))
    ∧ (
    let k : Nat := 0
    let s0 : State := State.reset
    let n : Fin 8 := Fin.ofNat 8 k
    let s0 : State := s0
    let e : Word := BitVec.ofNat 32 (k*77)
    let b : DWord := BitVec.ofNat 64 (k*2^33+5)
    let f : Word := BitVec.ofNat 32 k
    let lock : Bool := k%2==0
    let s : State := wrN (wrN (wrN s0 (Reg.TST_STS n) 1) (Reg.TST_CFG n) (0x10 + 256 * (k % 9) + 2^13)) (Reg.TST_DUR n) 0
    (s.wf = true) ∧ (tstRun s n = true) ∧ (rdN s (Reg.TST_DUR n) = 0) ∧ (¬ (bit s (Reg.TST_CFG n) 13 = false ∧ (lock = true ∨ locks (getF s (Reg.TST_CFG n) 8 4) = false))))
    ∧ (
    let k : Nat := 0
    let s0 : State := State.reset
    let n : Fin 8 := Fin.ofNat 8 k
    let s0 : State := s0
    let e : Word := BitVec.ofNat 32 (k*77)
    let b : DWord := BitVec.ofNat 64 (k*2^33+5)
    let f : Word := BitVec.ofNat 32 k
    let lock : Bool := k%2==0
    let s : State := wrN (wrN (wrN { s0 with clock := 50000000 + k, cal := { s0.cal with tests := s0.cal.tests.map fun _ => k } } (Reg.TST_STS n) 1) (Reg.TST_CFG n) (0x10 + 256 * 6 + 0)) (Reg.TST_DUR n) (1+k%50)
    (s.wf = true) ∧ (tstRun s n = true) ∧ (rdN s (Reg.TST_DUR n) ≠ 0) ∧ (s.cal.tests.getD n 0 + 1000000 * rdN s (Reg.TST_DUR n) ≤ s.clock) ∧ ((bit s (Reg.TST_CFG n) 13 = false ∧ (lock = true ∨ locks (getF s (Reg.TST_CFG n) 8 4) = false))))
    ∧ (
    let k : Nat := 0
    let s0 : State := State.reset
    let n : Fin 8 := Fin.ofNat 8 k
    let s0 : State := s0
    let e : Word := BitVec.ofNat 32 (k*77)
    let b : DWord := BitVec.ofNat 64 (k*2^33+5)
    let f : Word := BitVec.ofNat 32 k
    let lock : Bool := k%2==0
    let s : State := wrN (wrN (wrN { s0 with clock := 50000000 + k, cal := { s0.cal with tests := s0.cal.tests.map fun _ => k } } (Reg.TST_STS n) 1) (Reg.TST_CFG n) (0x10 + 256 * (k % 9) + 2^13)) (Reg.TST_DUR n) (1+k%50)
    (s.wf = true) ∧ (tstRun s n = true) ∧ (rdN s (Reg.TST_DUR n) ≠ 0) ∧ (s.cal.tests.getD n 0 + 1000000 * rdN s (Reg.TST_DUR n) ≤ s.clock) ∧ (¬ (bit s (Reg.TST_CFG n) 13 = false ∧ (lock = true ∨ locks (getF s (Reg.TST_CFG n) 8 4) = false))))
    ∧ (
    let k : Nat := 0
    let s0 : State := State.reset
    let n : Fin 8 := Fin.ofNat 8 k
    let s0 : State := s0
    let e : Word := BitVec.ofNat 32 (k*77)
    let b : DWord := BitVec.ofNat 64 (k*2^33+5)
    let f : Word := BitVec.ofNat 32 k
    let lock : Bool := k%2==0
    let s : State := wrN s0 (Reg.TST_DUR n) 4
    (s.wf = true) ∧ (tstRun s n = false ∨ rdN s (Reg.TST_DUR n) ≠ 0))
    ∧ (
    let k : Nat := 0
    let s0 : State := State.reset
    let n : Fin 8 := Fin.ofNat 8 k
    let s0 : State := s0
    let e : Word := BitVec.ofNat 32 (k*77)
    let b : DWord := BitVec.ofNat 64 (k*2^33+5)
    let f : Word := BitVec.ofNat 32 k
    let lock : Bool := k%2==0
    let s : State := wrN s0 (Reg.TST_DUR n) 0
    (s.wf = true) ∧ (tstRun s n = false ∨ rdN s (Reg.TST_DUR n) = 0)) := by
  repeat refine And.intro (by decide +kernel) ?_
  decide +kernel

/-- Hypotheses of TapInstructionsRun hold together, of one clause after another. -/
theorem witness_tap_instructions_run :
    (
    let k : Nat := 0
    let s0 : State := State.reset
    let s0 : State := s0
    let s : State := s0
    (s.wf = true))
    ∧ (
    let k : Nat := 0
    let s0 : State := State.reset
    let s0 : State := s0
    let s : State := { s0 with sys := { s0.sys with resetLow := true } }
    (s.wf = true) ∧ (s.sys.resetLow = true))
    ∧ (
    let k : Nat := 0
    let s0 : State := State.reset
    let s0 : State := s0
    let s : State := { s0 with sys := { s0.sys with resetLow := false } }
    (s.wf = true) ∧ (s.sys.resetLow = false))
    ∧ (
    let k : Nat := 0
    let s0 : State := State.reset
    let s0 : State := s0
    let s : State := { s0 with sys := { s0.sys with resetLow := true } }
    (s.wf = true) ∧ (s.sys.resetLow = true))
    ∧ (
    let k : Nat := 0
    let s0 : State := State.reset
    let s0 : State := s0
    let s : State := { s0 with sys := { s0.sys with resetLow := false } }
    (s.wf = true) ∧ (s.sys.resetLow = false))
    ∧ (
    let k : Nat := 0
    let s0 : State := State.reset
    let s0 : State := s0
    let s : State := { s0 with sys := { s0.sys with resetLow := true } }
    (s.wf = true) ∧ (s.sys.resetLow = true))
    ∧ (
    let k : Nat := 0
    let s0 : State := State.reset
    let s0 : State := s0
    let s : State := { s0 with sys := { s0.sys with resetLow := false } }
    (s.wf = true) ∧ (s.sys.resetLow = false))
    ∧ (
    let k : Nat := 0
    let s0 : State := State.reset
    let s0 : State := s0
    let s : State := { s0 with sys := { s0.sys with resetLow := true } }
    (s.wf = true) ∧ (s.sys.resetLow = true))
    ∧ (
    let k : Nat := 0
    let s0 : State := State.reset
    let s0 : State := s0
    let s : State := { s0 with sys := { s0.sys with resetLow := false } }
    (s.wf = true) ∧ (s.sys.resetLow = false))
    ∧ (
    let k : Nat := 0
    let s0 : State := State.reset
    let s0 : State := s0
    let m : Fin 2 := Fin.ofNat 2 k
    let image : List Byte := (List.range 40).map fun i => BitVec.ofNat 8 (i*7)
    let i : Nat := k%60
    let s : State := wrN (setF s0 Reg.SYS_MODE 0 4 Mode.safeHold) Reg.SYS_SHCAUSE (2 ^ 31 + ShCause.noFw)
    (s.wf = true) ∧ (fwloadOk s = true) ∧ (i < fwSlotSize))
    ∧ (
    let k : Nat := 0
    let s0 : State := State.reset
    let s0 : State := s0
    let m : Fin 2 := Fin.ofNat 2 k
    let image : List Byte := (List.range 40).map fun i => BitVec.ofNat 8 (i*7)
    let s : State := wrN (setF s0 Reg.SYS_MODE 0 4 Mode.safeHold) Reg.SYS_SHCAUSE (2 ^ 31 + ShCause.noFw)
    (s.wf = true) ∧ (fwloadOk s = true))
    ∧ (
    let k : Nat := 0
    let s0 : State := State.reset
    let s0 : State := s0
    let m : Fin 2 := Fin.ofNat 2 k
    let image : List Byte := (List.range 40).map fun i => BitVec.ofNat 8 (i*7)
    let a : Nat := fwSlotSize * (m.val + 1) + k
    let s : State := wrN (setF s0 Reg.SYS_MODE 0 4 Mode.safeHold) Reg.SYS_SHCAUSE (2 ^ 31 + ShCause.noFw)
    (s.wf = true) ∧ (fwloadOk s = true) ∧ (a < fwSlotSize * m ∨ fwSlotSize * (m.val + 1) ≤ a))
    ∧ (
    let k : Nat := 0
    let s0 : State := State.reset
    let s0 : State := s0
    let m : Fin 2 := Fin.ofNat 2 k
    let image : List Byte := []
    let s : State := setF s0 Reg.SYS_MODE 0 4 Mode.ready
    (s.wf = true) ∧ (fwloadOk s = false)) := by
  repeat refine And.intro (by decide +kernel) ?_
  decide +kernel

/-- Hypotheses of FlashIsReadAndWritten hold together, of one clause after another. -/
theorem witness_flash_is_read_and_written :
    (
    let k : Nat := 0
    let s0 : State := State.reset
    let c : Fin 6 := Fin.ofNat 6 k
    let s0 : State := s0
    let off : BitVec 29 := BitVec.ofNat 29 (0x1A100000+k*13)
    let size : AccessSize := (if k%4=0 then .byte else if k%4=1 then .half else if k%4=2 then .word else .double)
    let ok : Bool := true
    let s : State := { nandErase s0 0x1A100000 0x1A200000 with flash := ⟨[], []⟩ }
    (s.wf = true) ∧ (off.toNat + accessBytes size ≤ 0x20000000) ∧ (s.flash.posts = []) ∧ (c.val ∉ s.flash.failed))
    ∧ (
    let k : Nat := 0
    let s0 : State := State.reset
    let c : Fin 6 := Fin.ofNat 6 k
    let s0 : State := s0
    let off : BitVec 29 := BitVec.ofNat 29 (0x1A100000+k*13)
    let size : AccessSize := (if k%4=0 then .byte else if k%4=1 then .half else if k%4=2 then .word else .double)
    let ok : Bool := true
    let s : State := { nandErase s0 0x1A100000 0x1A200000 with flash := ⟨[], [c.val, 5]⟩ }
    (s.wf = true) ∧ (off.toNat + accessBytes size ≤ 0x20000000) ∧ (s.flash.posts = []) ∧ (c.val ∈ s.flash.failed))
    ∧ (
    let k : Nat := 0
    let s0 : State := State.reset
    let c : Fin 6 := Fin.ofNat 6 k
    let s0 : State := s0
    let off : BitVec 29 := 0x1FFFFFFF#29
    let size : AccessSize := .half
    let ok : Bool := true
    let s : State := { nandErase s0 0x1A100000 0x1A200000 with flash := ⟨[], []⟩ }
    (s.wf = true) ∧ (0x20000000 < off.toNat + accessBytes size))
    ∧ (
    let k : Nat := 0
    let s0 : State := State.reset
    let c : Fin 6 := Fin.ofNat 6 k
    let s0 : State := s0
    let off : BitVec 29 := BitVec.ofNat 29 (0x1A100000+8*k)
    let d : DWord := BitVec.ofNat 64 (k*2^40+77*k+1)
    let clk : Nat := k
    let s : State := { nandErase s0 0x1A100000 0x1A200000 with flash := ⟨[⟨c.val, off.toNat, some d, true, clk⟩], []⟩ }
    (s.wf = true) ∧ (off.toNat % 8 = 0) ∧ (s.flash.posts = [⟨c.val, off.toNat, some d, true, clk⟩]) ∧ (c.val ∉ s.flash.failed) ∧ ((nandBytes s off.toNat 8).all (· == 255) = true))
    ∧ (
    let k : Nat := 0
    let s0 : State := State.reset
    let c : Fin 6 := Fin.ofNat 6 k
    let s0 : State := s0
    let off : BitVec 29 := BitVec.ofNat 29 (0x1A100000+8*k)
    let d : DWord := BitVec.ofNat 64 (k*2^40+77*k+1)
    let clk : Nat := k
    let s : State := { nandErase s0 0x1A100000 0x1A200000 with flash := ⟨[⟨c.val, off.toNat, some d, true, clk⟩], []⟩ }
    (s.wf = true) ∧ (off.toNat % 8 = 0) ∧ (s.flash.posts = [⟨c.val, off.toNat, some d, true, clk⟩]))
    ∧ (
    let k : Nat := 0
    let s0 : State := State.reset
    let c : Fin 6 := Fin.ofNat 6 k
    let s0 : State := s0
    let off : BitVec 29 := BitVec.ofNat 29 (0x1A100000+8*k)
    let size : AccessSize := .double
    let d : DWord := BitVec.ofNat 64 (k*2^40+77*k+1)
    let s : State := { nandErase s0 0x1A100000 0x1A200000 with flash := ⟨[], []⟩ }
    (s.wf = true) ∧ (alignedDouble off.toNat size = true) ∧ (nandRefuses s off.toNat (off.toNat + 8) = false) ∧ (s.flash.posts = []))
    ∧ (
    let k : Nat := 0
    let s0 : State := State.reset
    let c : Fin 6 := Fin.ofNat 6 k
    let s0 : State := s0
    let off : BitVec 29 := BitVec.ofNat 29 (if k%2=0 then 0x09000000+8*k else 0x1A000800)
    let size : AccessSize := .double
    let d : DWord := BitVec.ofNat 64 (k*2^40+77*k+1)
    let s : State := { nandErase s0 0x1A100000 0x1A200000 with flash := ⟨[], []⟩ }
    (s.wf = true) ∧ (alignedDouble off.toNat size = true) ∧ (nandRefuses s off.toNat (off.toNat + 8) = true))
    ∧ (
    let k : Nat := 0
    let s0 : State := State.reset
    let c : Fin 6 := Fin.ofNat 6 k
    let s0 : State := s0
    let off : BitVec 29 := BitVec.ofNat 29 (0x1A100001+8*k)
    let size : AccessSize := (if k%4=0 then .byte else if k%4=1 then .half else if k%4=2 then .word else .double)
    let d : DWord := BitVec.ofNat 64 (k*2^40+77*k+1)
    let s : State := { nandErase s0 0x1A100000 0x1A200000 with flash := ⟨[], []⟩ }
    (s.wf = true) ∧ (alignedDouble off.toNat size = false))
    ∧ (
    let k : Nat := 0
    let s0 : State := State.reset
    let c : Fin 6 := Fin.ofNat 6 k
    let s0 : State := s0
    let off : BitVec 29 := BitVec.ofNat 29 (0x1A100000+8*k)
    let size : AccessSize := .double
    let s : State := nandProg ({ nandErase s0 0x1A100000 0x1A200000 with flash := ⟨[], []⟩ }) 0x1A100000 (List.range 50)
    (s.wf = true) ∧ (alignedDouble off.toNat size = true) ∧ (nandRefuses s (off.toNat / blockSize * blockSize) ((off.toNat / blockSize * blockSize) + blockSize) = false) ∧ (s.flash.posts = []))
    ∧ (
    let k : Nat := 0
    let s0 : State := State.reset
    let c : Fin 6 := Fin.ofNat 6 k
    let s0 : State := s0
    let off : BitVec 29 := BitVec.ofNat 29 (if k%2=0 then 0x09000000+8*k else 0x1A100000)
    let size : AccessSize := (if k%2=0 then .double else .word)
    let ok : Bool := true
    let s : State := { nandErase s0 0x1A100000 0x1A200000 with flash := ⟨[], []⟩ }
    (s.wf = true) ∧ (alignedDouble off.toNat size = false ∨ nandRefuses s (off.toNat / blockSize * blockSize) ((off.toNat / blockSize * blockSize) + blockSize) = true))
    ∧ (
    let k : Nat := 0
    let s0 : State := State.reset
    let c : Fin 6 := Fin.ofNat 6 k
    let s0 : State := s0
    let page : Fin 262144 := Fin.ofNat _ (0x34200+k)
    let d : DWord := BitVec.ofNat 64 (k*99)
    let clk : Nat := k
    let s : State := { { nandErase s0 0x1A100000 0x1A200000 with flash := ⟨[⟨c.val, page.val * pageSize + 2040, some d, true, clk⟩], []⟩ } with sys := { s0.sys with powerLost := false } }
    (s.wf = true) ∧ (s.sys.powerLost = false) ∧ (s.flash.posts = [⟨c.val, page.val * pageSize + 2040, some d, true, clk⟩]) ∧ ((nandBytes s (page.val * pageSize + 2040) 8).all (· == 255) = true))
    ∧ (
    let k : Nat := 0
    let s0 : State := State.reset
    let c : Fin 6 := Fin.ofNat 6 k
    let s0 : State := s0
    let page : Fin 262144 := Fin.ofNat _ (0x34200+k)
    let d : DWord := BitVec.ofNat 64 (k*99)
    let clk : Nat := k
    let s : State := { { nandErase s0 0x1A100000 0x1A200000 with flash := ⟨[⟨c.val, page.val * pageSize, some d, true, clk⟩], []⟩ } with sys := { s0.sys with powerLost := false }, clock := 1000000 + clk + k }
    (s.wf = true) ∧ (s.sys.powerLost = false) ∧ (s.flash.posts = [⟨c.val, page.val * pageSize, some d, true, clk⟩]) ∧ (clk + 1000000 ≤ s.clock))
    ∧ (
    let k : Nat := 0
    let s0 : State := State.reset
    let c : Fin 6 := Fin.ofNat 6 k
    let s0 : State := s0
    let page : Fin 262144 := 0
    let ok : Bool := true
    let s : State := { nandErase s0 0x1A100000 0x1A200000 with flash := ⟨[], []⟩ }
    (s.wf = true) ∧ (s.sys.powerLost = true ∨ pageDue s page (pagePosts s page) = false)) := by
  repeat refine And.intro (by decide +kernel) ?_
  decide +kernel

/-- Hypotheses of BusWritesReachRegisters hold together, of one clause after another. -/
theorem witness_bus_writes_reach_registers :
    (
    let k : Nat := 0
    let s0 : State := State.reset
    let c : Fin 6 := Fin.ofNat 6 k
    let v : DWord := BitVec.ofNat 64 (k*0x123456789ABCD+k)
    let s0 : State := s0
    let off : BitVec 29 := BitVec.ofNat 29 (k*12345+1)
    let size : AccessSize := (if k%4=0 then .byte else if k%4=1 then .half else if k%4=2 then .word else .double)
    let s : State := s0
    (s.wf = true) ∧ (0x190000 ≤ off.toNat ∨ size = .byte ∨ size = .half ∨ (size = .word ∧ off.toNat % 4 ≠ 0) ∨ (size = .double ∧ off.toNat % 8 ≠ 0)))
    ∧ (
    let k : Nat := 0
    let s0 : State := State.reset
    let c : Fin 6 := Fin.ofNat 6 k
    let v : DWord := BitVec.ofNat 64 (k*0x123456789ABCD+k)
    let s0 : State := s0
    let off : BitVec 29 := BitVec.ofNat 29 ([Reg.SYS_EVT, Reg.ECC_EVT, Reg.CCH_EVT, Reg.CIS_EVT, Reg.NQE_EVT, Reg.CPH_EVT, Reg.ANG_EVT, Reg.SPN_EVT, Reg.SLU_EVT, Reg.THM_EVT, Reg.CAL_EVT, Reg.EVR_EVT, Reg.IDN_EVT, Reg.TST_EVT, Reg.NOI_EVT, Reg.SEC_EVT, Reg.ZTB_EVT, Reg.ZTB_WPEVT, Reg.ZTB_AREVT].getD (k % 19) Reg.SYS_EVT)
    let m : Nat := (((regRow off.toNat).map fun r => r.wmask).getD 0)
    let s : State := { s0 with regs := s0.regs }
    (s.wf = true) ∧ (off.toNat ∈ [Reg.SYS_EVT, Reg.ECC_EVT, Reg.CCH_EVT, Reg.CIS_EVT, Reg.NQE_EVT, Reg.CPH_EVT, Reg.ANG_EVT, Reg.SPN_EVT, Reg.SLU_EVT, Reg.THM_EVT, Reg.CAL_EVT, Reg.EVR_EVT, Reg.IDN_EVT, Reg.TST_EVT, Reg.NOI_EVT, Reg.SEC_EVT, Reg.ZTB_EVT, Reg.ZTB_WPEVT, Reg.ZTB_AREVT]) ∧ (((regRow off.toNat).map fun r => r.wmask) = some m))
    ∧ (
    let k : Nat := 0
    let s0 : State := State.reset
    let c : Fin 6 := Fin.ofNat 6 k
    let v : DWord := BitVec.ofNat 64 (k*0x123456789ABCD+k)
    let s0 : State := s0
    let off : BitVec 29 := BitVec.ofNat 29 ([Reg.ECC_IEN, Reg.CCH_IEN, Reg.CIS_IEN, Reg.NQE_IEN, Reg.CPH_IEN, Reg.ANG_IEN, Reg.SPN_IEN, Reg.SLU_IEN, Reg.THM_IEN, Reg.CAL_IEN, Reg.EVR_IEN, Reg.IDN_IEN, Reg.TST_IEN, Reg.SEC_IEN, Reg.ZTB_IEN, Reg.ZTB_AREIEN].getD (k % 16) Reg.ECC_IEN)
    let m : Nat := (((regRow off.toNat).map fun r => r.wmask).getD 0)
    let s : State := s0
    (s.wf = true) ∧ (off.toNat ∈ [Reg.ECC_IEN, Reg.CCH_IEN, Reg.CIS_IEN, Reg.NQE_IEN, Reg.CPH_IEN, Reg.ANG_IEN, Reg.SPN_IEN, Reg.SLU_IEN, Reg.THM_IEN, Reg.CAL_IEN, Reg.EVR_IEN, Reg.IDN_IEN, Reg.TST_IEN, Reg.SEC_IEN, Reg.ZTB_IEN, Reg.ZTB_AREIEN]) ∧ (((regRow off.toNat).map fun r => r.wmask) = some m))
    ∧ (
    let k : Nat := 0
    let s0 : State := State.reset
    let c : Fin 6 := Fin.ofNat 6 k
    let v : DWord := BitVec.ofNat 64 (k*0x123456789ABCD+k)
    let s0 : State := s0
    let off : BitVec 29 := BitVec.ofNat 29 ([Reg.SYS_STS, Reg.ANG_NOW, Reg.ANG_REV, Reg.ZTB_CONVCAP, Reg.NQE_INFL, Reg.SPN_SPEED, Reg.THM_TEMP, Reg.THM_LADDER, Reg.EVR_LOGPOS, Reg.EVR_NEXTSEQ, Reg.CAL_RES, Reg.SEC_ARB, Reg.SLU_STS, Reg.ECC_UECNT, Reg.CIS_FREECNT, Reg.ZTB_RWSTS].getD (k % 16) 0)
    let s : State := s0
    (s.wf = true) ∧ (off.toNat ∈ [Reg.SYS_STS, Reg.ANG_NOW, Reg.ANG_REV, Reg.ZTB_CONVCAP, Reg.NQE_INFL, Reg.SPN_SPEED, Reg.THM_TEMP, Reg.THM_LADDER, Reg.EVR_LOGPOS, Reg.EVR_NEXTSEQ, Reg.CAL_RES, Reg.SEC_ARB, Reg.SLU_STS, Reg.ECC_UECNT, Reg.CIS_FREECNT, Reg.ZTB_RWSTS]))
    ∧ (
    let k : Nat := 0
    let s0 : State := State.reset
    let c : Fin 6 := Fin.ofNat 6 k
    let v : DWord := BitVec.ofNat 64 (k*0x123456789ABCD+k)
    let s0 : State := s0
    let off : BitVec 29 := BitVec.ofNat 29 (0x10000*(if k%25 ∈ [4,9,13,19,21,15] then 0 else k%25)+0xFFF0)
    let s : State := s0
    (s.wf = true) ∧ (off.toNat < 0x190000) ∧ (off.toNat % 4 = 0) ∧ (regRow off.toNat = none) ∧ (off.toNat / 0x10000 ≠ 4) ∧ (off.toNat / 0x10000 ≠ 9) ∧ (off.toNat / 0x10000 ≠ 13) ∧ (off.toNat / 0x10000 ≠ 19) ∧ (off.toNat / 0x10000 ≠ 21) ∧ (off.toNat / 0x10000 ≠ 15))
    ∧ (
    let k : Nat := 0
    let s0 : State := State.reset
    let c : Fin 6 := Fin.ofNat 6 k
    let v : DWord := BitVec.ofNat 64 (k*0x123456789ABCD+k)
    let s0 : State := s0
    let s : State := s0
    (s.wf = true))
    ∧ (
    let k : Nat := 0
    let s0 : State := State.reset
    let c : Fin 6 := Fin.ofNat 6 k
    let v : DWord := BitVec.ofNat 64 (k*0x123456789ABCD+k)
    let s0 : State := s0
    let off : BitVec 29 := BitVec.ofNat 29 (8*(k*977 % 0x20000))
    let s : State := s0
    (s.wf = true) ∧ (off.toNat < 0x190000) ∧ (off.toNat % 8 = 0) ∧ (wideOp off.toNat = none)) := by
  repeat refine And.intro (by decide +kernel) ?_
  decide +kernel

/-- Hypotheses of DutyLevelsOutliveResets hold together, of one clause after another. -/
theorem witness_duty_levels_outlive_resets :
    (
    let k : Nat := 0
    let s0 : State := State.reset
    let s0 : State := s0
    let s : State := let s0 := { s0 with dbLevel := (List.range 24).map fun j => ((j + k : Nat) : Rat), dbStop := (List.range 24).map fun j => j % 2 == k % 2 }; (List.range 12).foldl (fun u h => wrN (wrN u (Reg.LANE_DBLVL 0 h) (h + k + 1)) (Reg.LANE_DBLVL 1 h) (h + 2 * k + 9)) s0
    (s.wf = true)) := by
  decide +kernel

/-- Hypotheses of LatticeIsTestedAtRest hold together, of one clause after another. -/
theorem witness_lattice_is_tested_at_rest :
    (
    let k : Nat := 0
    let s0 : State := State.reset
    let s0 : State := setF s0 Reg.SYS_MODE 0 4 Mode.test
    let c : Fin 6 := Fin.ofNat 6 k
    let v : DWord := BitVec.ofNat 64 (k*131+2^16)
    let s : State := { s0 with cph := { s0.cph with jobs := [] } }
    (s.wf = true) ∧ (mode s = Mode.test) ∧ (v.toNat.testBit 16 = true) ∧ (s.cph.jobs = []))
    ∧ (
    let k : Nat := 0
    let s0 : State := State.reset
    let s0 : State := setF s0 Reg.SYS_MODE 0 4 Mode.test
    let pass : BitVec 40 := BitVec.ofNat 40 (k*1234567891+1)
    let drbg : Bool := k % 3 == 0
    let s : State := { setBit s0 Reg.CPH_CTL 16 true with cph := { s0.cph with jobs := [] } }
    (s.wf = true) ∧ (mode s = Mode.test) ∧ (bit s Reg.CPH_CTL 16 = true) ∧ (pass.toNat ≠ 0))
    ∧ (
    let k : Nat := 0
    let s0 : State := State.reset
    let s0 : State := setF s0 Reg.SYS_MODE 0 4 Mode.test
    let c : Fin 6 := Fin.ofNat 6 k
    let v : DWord := BitVec.ofNat 64 (k*131+2^16)
    let s : State := { s0 with cph := { s0.cph with jobs := [job0 3 1 64 128 32 0 0] } }
    (s.wf = true) ∧ (mode s = Mode.test) ∧ (v.toNat.testBit 16 = true) ∧ (s.cph.jobs ≠ [])) := by
  repeat refine And.intro (by decide +kernel) ?_
  decide +kernel


end Sys2Proof.Tests
end

section
/-! PROOF. Core writes to the register space (O58): the clause that splits a 64-bit write into two 32-bit writes
fails, because the second of two accesses does not report the bus error of the first. -/

namespace Sys2Proof.Machine

/-- REGISTER_WRITE always completes, with what the register space makes of the write. -/
theorem exec_registerWrite (c : Fin 6) (off : BitVec 29) (size : AccessSize) (v : DWord) (s : State) :
    exec (.registerWrite c off size v) s = .next (registerWrite c off.toNat size v.toNat s) := rfl

/-- No register stands beside CIS_FREE, so a 32-bit write there ends without a bus error and changes nothing else. -/
theorem registerWrite_beside_cisFree (c v : Nat) (s : State) :
    registerWrite c (Reg.CIS_FREE + 4) .word v s = busOk s := rfl

/-- A 64-bit write at CIS_FREE frees with its low half; the high half goes to no register (R7). -/
theorem registerWrite_double_cisFree (c v : Nat) (s : State) :
    registerWrite c Reg.CIS_FREE .double v s = cisFreeWrite (v % 2 ^ 32) (busOk s) := rfl

/-- A free of the buffer at offset 0 while it is free is refused, and the store ends with a bus error (R334). -/
theorem cisFreeWrite_zero_busError {s : State} (hready : cisReady s = true) (hfree : ownerOf s 0 = Owner.free) :
    (cisFreeWrite 0 s).busError = true := by
  have hcheck : opCheck s Owner.core 0 true none = 3 := by simp [opCheck, hfree, numBuffers]
  have hfreeBuf : freeBuf Owner.core 0 true s = (3, reject Owner.core 0 3 s) := by simp only [freeBuf, hcheck]
  have hop : performOp s (.coreFree 0) = coreOp (freeBuf Owner.core 0 true s) := rfl
  rw [cisFreeWrite, submitOp, if_pos hready, hop, hfreeBuf]
  rfl

/-- Refutes O58, in its last clause: with READY up and every buffer free, a 64-bit write of 0 at CIS_FREE ends with the
bus error of the refused free, while of the two 32-bit writes the second reaches no register and clears it. -/
theorem not_busWritesReachRegisters : ¬ Obligations.BusWritesReachRegisters := by
  unfold Obligations.BusWritesReachRegisters
  intro h
  have hwf : (setBit State.reset Reg.CIS_STS 0 true).wf = true := by decide +kernel
  obtain ⟨-, -, -, -, -, -, -, -, -, -, -, -, -, -, -, -, -, -, -, -, -, -, -, -, -, -, -, -, -, -, -, -, -, -, -,
    hsplit⟩ := h (setBit State.reset Reg.CIS_STS 0 true) 0 0 hwf
  obtain ⟨t, ht, u, -, hu⟩ := hsplit (BitVec.ofNat 29 Reg.CIS_FREE) (by decide) (by decide) rfl
  rw [exec_registerWrite] at ht hu
  have hdouble : t = cisFreeWrite 0 (busOk (setBit State.reset Reg.CIS_STS 0 true)) :=
    (Host.Outcome.next.inj ht).symm.trans (registerWrite_double_cisFree 0 0 _)
  have hsecond : t = busOk u := (Host.Outcome.next.inj hu).symm.trans (registerWrite_beside_cisFree 0 0 u)
  have herr : t.busError = true := by
    rw [hdouble]
    exact cisFreeWrite_zero_busError (by decide +kernel) (by decide +kernel)
  rw [hsecond] at herr
  exact Bool.false_ne_true herr

end Sys2Proof.Machine
end

section
/-! PROOF. The lock states of the angle clock (R14, R28): what entering a state shows in ANG_STS and ANG_EVT (O9). -/

namespace Sys2Proof.Machine

/-! ## States that are well formed -/

theorem wf_regsOk {s : State} (h : s.wf = true) : regsOk s :=
  (wf_iff.1 ((Bool.and_eq_true _ _).mp h).1).1

theorem wf_sized {s : State} (h : s.wf = true) : s.sized = true := ((Bool.and_eq_true _ _).mp h).2

theorem Keeps.regsOk {m : Nat} {s t : State} (h : Keeps m s t) (w : s.wf = true) : regsOk t :=
  (wf_iff.1 (h.canon ((Bool.and_eq_true _ _).mp w).1)).1

/-! ## Writing ANG_STS.STATE and F -/

@[simp] theorem setAngState_ang (m : Nat) (s : State) : (setAngState m s).ang = s.ang :=
  (setAngState_keeps m s (keeps_refl _ s) (within_refl _)).frame .ang rfl

theorem regsOk_setAngState {s : State} {m : Nat} (h : regsOk s) : regsOk (setAngState m s) :=
  (sluAll_frame (regsOk_setF h)).ok

theorem angState_setAngState {s : State} {m : Nat} (h : regsOk s) (hm : m < 8) :
    angState (setAngState m s) = m := by
  have hslu : angState (setAngState m s) = getF (setF s Reg.ANG_STS 0 3 m) Reg.ANG_STS 0 3 :=
    (sluAll_frame (regsOk_setF h)).getF not_slu 0 3
  rw [hslu, getF_setF_same h (by decide)]
  exact Nat.mod_eq_of_lt hm

theorem bit_setAngState {s : State} {m b i : Nat} (h : regsOk s) (hb : b ≠ Reg.ANG_STS) (hslu : ¬sluTouches b) :
    bit (setAngState m s) b i = bit s b i :=
  ((sluAll_frame (regsOk_setF h)).bit hslu i).trans (bit_setF_ne h hb)

theorem regsOk_setFreq {s : State} {f : Rat} (h : regsOk s) : regsOk (setFreq f s) := regsOk_wrN h

@[simp] theorem setFreq_freq (f : Rat) (s : State) : (setFreq f s).ang.freq = f := rfl

theorem bit_setFreq {s : State} {f : Rat} {b i : Nat} (h : regsOk s) (hb : b ≠ Reg.ANG_FREQ) :
    bit (setFreq f s) b i = bit s b i := by
  unfold bit setFreq
  rw [rd_wrN (regsOk_modAng _ h), if_neg hb, rd_modAng]

/-! ## Event bits of ANG_EVT -/

/-- An event bit of a register after one of them is set. -/
theorem bit_evt {s : State} {a i j : Nat} (h : regsOk s) (hb : ¬recorderCounter a) (hj : j < 32) :
    bit (evt a j s) a i = (bit s a i || i == j) := by
  by_cases e : i = j
  · simp [e, bit_evt_same h hb hj]
  · simp [e, bit_evt_other h hb hj e]

theorem angEvt_notRecorder : ¬recorderCounter Reg.ANG_EVT := fun h => absurd rfl (offAngEvt_rec _ h)

theorem angSts_notRecorder : ¬recorderCounter Reg.ANG_STS := fun h => absurd rfl (offAngSts_rec _ h)

theorem RegFrame.angState {s t : State} (h : RegFrame OffAngSts s t) : Machine.angState t = Machine.angState s :=
  h.getF (fun k => absurd rfl k) 0 3

theorem RegFrame.angEvt {s t : State} (h : RegFrame OffAngEvt s t) (i : Nat) :
    Machine.bit t Reg.ANG_EVT i = Machine.bit s Reg.ANG_EVT i :=
  h.bit (fun k => absurd rfl k) i

/-- The flush of every queue shows in ANG_EVT as FLUSH alone (R28). -/
theorem bit_flushAll {s : State} (h : regsOk s) (i : Nat) :
    bit (flushAll s) Reg.ANG_EVT i = (bit s Reg.ANG_EVT i || i == 4) := by
  have hflush : RegFrame OffAngEvt s ((List.range 8).foldl (fun s n => flushSlot n s) s) :=
    RegFrame.foldl (fun u n _ hu => flushSlot_stayAngEvt n u hu) (regFrame_refl h)
  have hraise : RegFrame OffAngEvt (evt Reg.ANG_EVT 4 ((List.range 8).foldl (fun s n => flushSlot n s) s)) (flushAll s) :=
    RegFrame.foldl (fun u n _ hu => RegFrame.ite (raiseS_stayAngEvt _ _ _ u hu) hu)
      (regFrame_refl (regsOk_evt hflush.ok))
  rw [hraise.angEvt, bit_evt hflush.ok angEvt_notRecorder (by decide), hflush.angEvt]

/-! ## COARSE and FREE -/

/-- In LOCKED or HOLDOVER: the states that COARSE leaves with a flush. -/
def angHolds (s : State) : Bool := angState s == angLocked || angState s == angHoldover

/-- COARSE as it is entered: the counter runs at the crossing rate, and nothing has been flushed yet. -/
def coarseClock (s : State) : State :=
  setAngState angCoarse (setFreq s.ang.coarseFreq (modAng s fun a => { a with spread := 0, spreadLeft := 0 }))

theorem enterCoarse_eq (s : State) :
    enterCoarse s = if angHolds s then spnAngleLost (flushAll (evt Reg.ANG_EVT 1 (coarseClock s))) else coarseClock s :=
  rfl

theorem regsOk_coarseClock {s : State} (h : regsOk s) : regsOk (coarseClock s) :=
  regsOk_setAngState (regsOk_setFreq (regsOk_modAng _ h))

theorem angState_coarseClock {s : State} (h : regsOk s) : angState (coarseClock s) = angCoarse :=
  angState_setAngState (regsOk_setFreq (regsOk_modAng _ h)) (by decide)

theorem bit_coarseClock {s : State} (h : regsOk s) (i : Nat) :
    bit (coarseClock s) Reg.ANG_EVT i = bit s Reg.ANG_EVT i := by
  unfold coarseClock
  rw [bit_setAngState (regsOk_setFreq (regsOk_modAng _ h)) (by decide) not_slu,
    bit_setFreq (regsOk_modAng _ h) (by decide), bit_modAng]

theorem angState_enterCoarse {s : State} (h : regsOk s) : angState (enterCoarse s) = angCoarse := by
  rw [enterCoarse_eq]
  split
  · have hloss : RegFrame OffAngSts (coarseClock s) (spnAngleLost (flushAll (evt Reg.ANG_EVT 1 (coarseClock s)))) :=
      spnAngleLost_stayAngSts _ (flushAll_stayAngSts _
        ((regFrame_refl (regsOk_coarseClock h)).evt (by decide) offAngSts_rec))
    rw [hloss.angState, angState_coarseClock h]
  · exact angState_coarseClock h

/-- Entering COARSE from LOCKED or HOLDOVER shows UNLOCK and FLUSH; from ACQUIRE it shows no event. -/
theorem bit_enterCoarse {s : State} (h : regsOk s) (i : Nat) :
    bit (enterCoarse s) Reg.ANG_EVT i = (bit s Reg.ANG_EVT i || (angHolds s && (i == 1 || i == 4))) := by
  have hc := regsOk_coarseClock h
  rw [enterCoarse_eq]
  split
  · rename_i hl
    have hflush : regsOk (flushAll (evt Reg.ANG_EVT 1 (coarseClock s))) :=
      (flushAll_stayAngSts _ (regFrame_refl (regsOk_evt hc))).ok
    have hspn := spnAngleLost_stayAngEvt _ (regFrame_refl hflush)
    rw [hspn.angEvt, bit_flushAll (regsOk_evt hc), bit_evt hc angEvt_notRecorder (by decide), bit_coarseClock h, hl,
      Bool.true_and, Bool.or_assoc]
  · rename_i hl
    rw [bit_coarseClock h, Bool.eq_false_iff.2 hl, Bool.false_and, Bool.or_false]

/-- FREE as it is entered: the counter has stopped, and the queues have not been drained yet. -/
def freeClock (s : State) : State :=
  modAng (setAngState angFree (setFreq 0 s)) fun a => { a with frac := 0, wrapClock := none }

theorem drainQueue_freq (n : Nat) (notify : Bool) (s : State) : (drainQueue n notify s).ang.freq = s.ang.freq := by
  have hfire : (drainQueue n notify s).ang = (setQueue n [] s).ang :=
    (fireAll_keeps n notify (queueOf s n) (setQueue n [] s) (keeps_refl _ _) (within_refl _)).frame .ang rfl
  rw [hfire]
  rfl

theorem enterFree_eq (s : State) :
    enterFree s = (List.range 8).foldl (fun s n => drainQueue n true s) (freeClock s) := rfl

theorem drainQueues_freq (l : List Nat) (s : State) :
    (l.foldl (fun s n => drainQueue n true s) s).ang.freq = s.ang.freq := by
  induction l generalizing s with
  | nil => rfl
  | cons n l ih => exact (ih _).trans (drainQueue_freq n true s)

/-- A stopped counter stays stopped while its queues drain, and ANG_STS shows FREE (R29). -/
theorem enterFree_stops {s : State} (h : regsOk s) :
    angState (enterFree s) = angFree ∧ (enterFree s).ang.freq = 0 := by
  have hok : regsOk (freeClock s) := regsOk_modAng _ (regsOk_setAngState (regsOk_setFreq h))
  have hfree : angState (freeClock s) = angFree := angState_setAngState (regsOk_setFreq h) (by decide)
  rw [enterFree_eq]
  have hdrain := RegFrame.foldl (f := fun s n => drainQueue n true s) (l := List.range 8)
    (fun u n _ hu => drainQueue_stayAngSts n true u hu) (regFrame_refl hok)
  refine ⟨hdrain.angState.trans hfree, (drainQueues_freq _ _).trans ?_⟩
  simp [freeClock]

/-! ## ACQUIRE and HOLDOVER -/

theorem zeroCrossings_free {s : State} {period : Nat} (h : regsOk s) (hfree : angState s = angFree)
    (hp : getF s Reg.SPN_MOT 0 4 * period ≠ 0) :
    angState (zeroCrossings period s) = angCoarse
      ∧ (zeroCrossings period s).ang.freq = (ticksPerRev : Rat) / ((getF s Reg.SPN_MOT 0 4 * period : Nat) : Rat) := by
  have hfree' : ∀ f, angState (modAng s f) = angFree := fun _ => hfree
  unfold zeroCrossings
  simp only [if_neg hp, if_pos (hfree' _)]
  exact ⟨angState_setAngState (regsOk_setFreq (regsOk_modAng _ h)) (by decide), by rw [setAngState_ang, setFreq_freq]⟩

theorem acquireEntry_loaded {s : State} (h : regsOk s) (hc : angState s = angCoarse)
    (hl : (loaded s 0 || loaded s 1) = true) :
    angState (acquireEntry s) = angAcquire ∧ (acquireEntry s).ang.freq = s.ang.coarseFreq
      ∧ (acquireEntry s).ang.acqStart = s.ang.incs := by
  unfold acquireEntry
  rw [if_pos ⟨hc, hl⟩]
  refine ⟨angState_setAngState (regsOk_modAng _ (regsOk_setFreq h)) (by decide), ?_, ?_⟩ <;> rw [setAngState_ang] <;> rfl

theorem enterHoldover_shows {s : State} (h : regsOk s) :
    angState (enterHoldover s) = angHoldover ∧ bit (enterHoldover s) Reg.ANG_EVT 2 = true := by
  have hok := regsOk_setAngState (m := angHoldover) h
  refine ⟨?_, bit_evt_same hok angEvt_notRecorder (by decide)⟩
  have hevt : angState (enterHoldover s) = angState (setAngState angHoldover s) :=
    getF_evt_ne hok angSts_notRecorder (by decide)
  rw [hevt, angState_setAngState h (by decide)]

theorem exec_coarseTimeout {s : State} (hc : angState s = angCoarse) :
    exec .coarseTimeout s = .next (enterFree s) := by
  change execCoarseTimeout s = _
  rw [execCoarseTimeout, if_pos hc]

theorem acquireTimeout_acquire {s : State} (hwf : s.wf = true) (hacq : angState s = angAcquire) :
    angState (acquireTimeout s) = angCoarse ∧ bit (acquireTimeout s) Reg.ANG_EVT 3 = true := by
  have hrun : regsOk (advanceTo (s.ang.acqStart + 2 ^ 23) s) :=
    (advanceTo_keeps _ s (keeps_refl _ s) (within_refl _)).regsOk hwf
  have hevt := regsOk_evt (a := Reg.ANG_EVT) (i := 3) hrun
  rw [acquireTimeout, if_pos hacq, bit_enterCoarse hevt, bit_evt_same hrun angEvt_notRecorder (by decide)]
  exact ⟨angState_enterCoarse hevt, rfl⟩

theorem regsOk_emptyIntervals {s : State} (hwf : s.wf = true) (n k : Nat) : regsOk (emptyIntervals n k s) :=
  (emptyIntervals_keeps n k s (keeps_refl _ s) (within_refl _)).regsOk hwf

theorem holdover_locked {s : State} (hwf : s.wf = true) (hlock : angState s = angLocked) :
    angState (holdover s) = angHoldover ∧ bit (holdover s) Reg.ANG_EVT 2 = true := by
  rw [holdover, if_pos hlock]
  exact enterHoldover_shows (regsOk_emptyIntervals hwf 1 2)

theorem holdoverExpiry_holdover {s : State} (hwf : s.wf = true) (hhold : angState s = angHoldover) :
    angState (holdoverExpiry s) = angCoarse := by
  rw [holdoverExpiry, if_pos hhold]
  exact angState_enterCoarse (regsOk_emptyIntervals hwf _ _)

theorem headsUnloaded_holds {s : State} (h : regsOk s) (hst : angState s = angLocked ∨ angState s = angHoldover)
    (hl : (loaded s 0 || loaded s 1) = false) :
    angState (headsUnloaded s) = angCoarse ∧ bit (headsUnloaded s) Reg.ANG_EVT 1 = true
      ∧ bit (headsUnloaded s) Reg.ANG_EVT 4 = true := by
  have hholds : angHolds s = true := by simpa [angHolds] using hst
  rw [headsUnloaded, if_pos ⟨hl, hst⟩, bit_enterCoarse h, bit_enterCoarse h, hholds]
  exact ⟨angState_enterCoarse h, by simp, by simp⟩

/-- Settles O9: each command's guard holds, and the state it enters is shown by the lemma of that entry. -/
theorem angleClockStates : Obligations.AngleClockStates := by
  unfold Obligations.AngleClockStates
  intro s hwf
  have h := wf_regsOk hwf
  exact ⟨fun _ hfree hp => ⟨_, rfl, zeroCrossings_free h hfree hp⟩,
    fun hc => ⟨_, exec_coarseTimeout hc, enterFree_stops h⟩,
    fun hc hl => ⟨_, rfl, acquireEntry_loaded h hc hl⟩,
    fun hacq => ⟨_, rfl, acquireTimeout_acquire hwf hacq⟩,
    fun hlock => ⟨_, rfl, holdover_locked hwf hlock⟩,
    fun hhold => ⟨_, rfl, holdoverExpiry_holdover hwf hhold⟩,
    fun hst hl => ⟨_, rfl, headsUnloaded_holds h hst hl⟩⟩

end Sys2Proof.Machine
end

section
/-! PROOF. Entries that fire at their angle (O10): the clause of MARK fails where the counter runs backwards.
`State.wf` bounds neither F nor the fraction below ANG_NOW, and `FiresNow` asks of F only that it is not 0. Of such
a state, fabric clocks pass both before an entry that is due fires and after it, so that the PTP time has moved on
from the one that MARK latched. -/

namespace Sys2Proof.Machine

/-- A MARK that is due at increment 0. -/
def dueMark : AngEntry := ⟨0x0D, 0, 0, 0, 0⟩

/-- Reset with `dueMark` in the queue of slot 0, F = -1 and a fraction of -1 tick. The correction that is being
spread makes the rate 2 for the next 2 ticks: one clock takes the fraction to 1 and ends the correction, and at
F = -1 another clock passes until the fraction is used up. -/
def backwardClock : State :=
  { State.reset with
    ang := { State.reset.ang with
      freq := -1, frac := -1, spread := -6, spreadLeft := 2, queues := [dueMark] :: List.replicate 7 [] } }

theorem backwardClock_wf : backwardClock.wf = true := by decide +kernel

theorem backwardClock_firesNow : FiresNow backwardClock 0 dueMark := by decide +kernel

/-- MARK latches the PTP time after the first clock. -/
theorem markTime_backwardClock : rd64 (fireNext 0 0x0D backwardClock) (Reg.ANG_MARKTIME 0) = 1 := by decide +kernel

/-- The command leaves the PTP time after the second clock. -/
theorem ptp_backwardClock : ptp (fireNext 0 0x0D backwardClock) = 2 := by decide +kernel

/-- Refutes O10, in its last clause: where F and the fraction are negative, MARK latches a PTP time that is not the
one at the end of the command. -/
theorem not_angleEntriesFire : ¬ Obligations.AngleEntriesFire := by
  unfold Obligations.AngleEntriesFire
  intro h
  obtain ⟨-, -, -, -, -, -, -, -, -, -, -, -, hmark⟩ :=
    h backwardClock 0 dueMark backwardClock_wf backwardClock_firesNow
  obtain ⟨t, ht, hlatch, -⟩ := hmark rfl
  have htime : t = fireNext 0 0x0D backwardClock := (Host.Outcome.next.inj ht).symm
  rw [htime] at hlatch
  have hsame : (1 : Nat) = 2 := markTime_backwardClock.symm.trans (hlatch.trans ptp_backwardClock)
  exact absurd hsame (by decide)

end Sys2Proof.Machine
end

section
/-! PROOF. The counter of the angle clock (O11): what passing time writes (R11, R31), the re-base of the first good
sample (R16), postings (R21, R22) and the flush of one slot (R28). -/

namespace Sys2Proof.Machine

/-! ## 64-bit registers -/

theorem rd64_lt (s : State) (a : Nat) : rd64 s a < 2 ^ 64 := by
  have hlo := (rd s a).isLt
  have hhi := (rd s (a + 4)).isLt
  unfold rd64 rdN
  omega

theorem rdN_wrN_same {s : State} {a v : Nat} (h : regsOk s) : rdN (wrN s a v) a = v % 2 ^ 32 := by
  unfold rdN
  rw [rd_wrN h, if_pos rfl, BitVec.toNat_ofNat]

theorem RegFrame.rdN {T : Nat → Prop} {s t : State} (h : RegFrame T s t) {b : Nat} (hb : ¬T b) :
    Machine.rdN t b = Machine.rdN s b := congrArg BitVec.toNat (h.rd b hb)

theorem RegFrame.rd64 {T : Nat → Prop} {s t : State} (h : RegFrame T s t) {b : Nat} (hb : ¬T b) (hb4 : ¬T (b + 4)) :
    Machine.rd64 t b = Machine.rd64 s b := by
  unfold Machine.rd64
  rw [h.rdN hb, h.rdN hb4]

theorem rd64_wr64_same {s : State} {a v : Nat} (h : regsOk s) (hv : v < 2 ^ 64) : rd64 (wr64 s a v) a = v := by
  have hhigh : RegFrame (· ∈ [a + 4]) (wrN s a v) (wr64 s a v) := (regFrame_refl (regsOk_wrN h)).wr (by simp)
  have hlo : rdN (wr64 s a v) a = v % 2 ^ 32 := (hhigh.rdN (by simp)).trans (rdN_wrN_same h)
  have hhi : rdN (wr64 s a v) (a + 4) = v / 2 ^ 32 % 2 ^ 32 := rdN_wrN_same (regsOk_wrN h)
  unfold rd64
  omega

theorem wr64_frame {s : State} (a v : Nat) (h : regsOk s) : RegFrame (· ∈ [a, a + 4]) s (wr64 s a v) :=
  (regFrame_refl h).wr64 (by simp) (by simp)

/-! ## Time that passes -/

/-- What the registers show of clocks and ticks that pass without a pass through 0. -/
abbrev clockRegs : List Nat := [Reg.ANG_NOW, Reg.ANG_STS, Reg.ETH_PTPTIME, Reg.ETH_PTPTIME + 4, Reg.ZTB_PTCUR]

/-- What the registers show of a pass through 0 (R31). -/
abbrev wrapRegs : List Nat :=
  [Reg.ANG_REV, Reg.ANG_IDXTIME, Reg.ANG_IDXTIME + 4, Reg.ANG_IDXREV, Reg.ANG_PERIOD]

/-- From `s` to `t` time has passed, and no entry has fired: the registers show it in the clock's and the
counter's alone, ANG_STS in VALA and VALB alone, and no re-base has taken place. -/
structure TimePassed (s t : State) : Prop where
  regs : RegFrame (· ∈ clockRegs ++ wrapRegs) s t
  sts : ∀ i, i ≠ 4 → i ≠ 5 → bit t Reg.ANG_STS i = bit s Reg.ANG_STS i
  reBased : t.ang.reBased = s.ang.reBased

theorem timePassed_refl {s : State} (h : regsOk s) : TimePassed s s := ⟨regFrame_refl h, fun _ _ _ => rfl, rfl⟩

theorem TimePassed.trans {r s t : State} (h : TimePassed r s) (k : TimePassed s t) : TimePassed r t :=
  ⟨h.regs.trans k.regs, fun i h4 h5 => (k.sts i h4 h5).trans (h.sts i h4 h5), k.reBased.trans h.reBased⟩

theorem TimePassed.angState {s t : State} (h : TimePassed s t) : Machine.angState t = Machine.angState s :=
  bitsOf_ext fun i hi => by
    have hbit := h.sts (0 + i) (by omega) (by omega)
    simpa only [Machine.bit, ← BitVec.testBit_toNat] using hbit

theorem TimePassed.drifted {s t : State} (h : TimePassed s t) (a : Nat) : Machine.drifted t a = Machine.drifted s a :=
  h.sts (6 + a) (by omega) (by omega)

@[simp] theorem passClocks_ang (k : Nat) (s : State) : (passClocks k s).ang = s.ang :=
  (passClocks_keeps k s (keeps_refl _ s) (within_refl _)).frame .ang rfl

theorem passClocks_frame {s : State} (k : Nat) (h : regsOk s) :
    RegFrame (· ∈ [Reg.ETH_PTPTIME, Reg.ETH_PTPTIME + 4, Reg.ZTB_PTCUR]) s (passClocks k s) := by
  have hclock := fun c p => (regFrame_refl (T := (· ∈ [Reg.ETH_PTPTIME, Reg.ETH_PTPTIME + 4, Reg.ZTB_PTCUR])) h).regs
    (u := { s with clock := c, ptpFrac := p }) rfl
  exact (RegFrame.ite ((hclock _ _).wr (by simp)) (hclock _ _)).wr64 (by simp) (by simp)

theorem passBoundaries_frame {s : State} (k : Nat) (h : regsOk s) :
    RegFrame (· ∈ [Reg.ANG_STS]) s (passBoundaries k s) :=
  RegFrame.ite (regFrame_refl h) ((((regFrame_refl h).wr (by simp)).wr (by simp)).regs rfl)

/-- The end of a wedge interval shows in VALA and VALB (R14). -/
theorem passBoundaries_passes {s : State} (k : Nat) (h : regsOk s) : TimePassed s (passBoundaries k s) := by
  refine ⟨(passBoundaries_frame k h).mono (by simp), fun i h4 h5 => ?_, ?_⟩ <;> unfold passBoundaries <;> split
  · rfl
  · rw [bit_modAng, bit_setBit_other (regsOk_setBit h) (by decide) h5, bit_setBit_other h (by decide) h4]
  · rfl
  · rfl

/-- Ticks that pass without a pass through 0 are clocks, the angle, and wedge intervals that end. -/
theorem passWithin_eq (m : Nat) (s : State) : ∃ k n f, (∀ a : AngState, (f a).reBased = a.reBased) ∧
    passWithin m s = passBoundaries n (modAng (setF (passClocks k s) Reg.ANG_NOW 0 22 (angNow s + m)) f) :=
  ⟨_, _, fun a => useSpread _ { a with incs := a.incs + m, frac := _ }, fun _ => rfl, rfl⟩

theorem passWithin_frame {s : State} (m : Nat) (h : regsOk s) : RegFrame (· ∈ clockRegs) s (passWithin m s) := by
  obtain ⟨k, n, f, -, e⟩ := passWithin_eq m s
  have hangle : RegFrame (· ∈ clockRegs) s (modAng (setF (passClocks k s) Reg.ANG_NOW 0 22 (angNow s + m)) f) :=
    (((passClocks_frame k h).mono fun b hb => by simp_all).wr (by simp)).regs rfl
  rw [e]
  exact hangle.trans ((passBoundaries_frame n hangle.ok).mono fun b hb => by simp_all)

theorem passWithin_passes {s : State} (m : Nat) (h : regsOk s) : TimePassed s (passWithin m s) := by
  obtain ⟨k, n, f, hf, e⟩ := passWithin_eq m s
  have hc := passClocks_frame k h
  have hb := passBoundaries_passes n (regsOk_modAng f (regsOk_setF (a := Reg.ANG_NOW) (lo := 0) (w := 22)
    (v := angNow s + m) hc.ok))
  refine ⟨(passWithin_frame m h).mono fun b hb => List.mem_append_left _ hb, fun i h4 h5 => ?_, ?_⟩
  · rw [e, hb.sts i h4 h5, bit_modAng, bit_setF_ne hc.ok (by decide), hc.bit (by decide)]
  · rw [e, hb.reBased, modAng_ang, hf, setF_ang, passClocks_ang]

theorem angNow_passWithin {s : State} (m : Nat) (h : regsOk s) :
    angNow (passWithin m s) = (angNow s + m) % ticksPerRev := by
  obtain ⟨k, n, f, -, e⟩ := passWithin_eq m s
  have hok := (passClocks_frame k h).ok
  have hb := passBoundaries_frame n (regsOk_modAng f (regsOk_setF (a := Reg.ANG_NOW) (lo := 0) (w := 22)
    (v := angNow s + m) hok))
  rw [e]
  exact (hb.getF (by decide) 0 22).trans (getF_setF_same hok (by decide))

/-! ## The pass through 0 (R11, R31) -/

/-- ANG_REV counts, and the PTP time and ANG_REV are latched as one pair. -/
def latchIndex (s : State) : State :=
  wrN (wr64 (wrapInc s Reg.ANG_REV) Reg.ANG_IDXTIME (ptp (wrapInc s Reg.ANG_REV))) Reg.ANG_IDXREV
    (rdN (wrapInc s Reg.ANG_REV) Reg.ANG_REV)

theorem latchIndex_frame {s : State} (h : regsOk s) : RegFrame (· ∈ wrapRegs) s (latchIndex s) :=
  (((regFrame_refl h).wr (by simp)).wr64 (by simp) (by simp)).wr (by simp)

/-- After the latch a pass through 0 writes ANG_PERIOD. -/
theorem onWrap_latchIndex {s : State} (h : regsOk s) : RegFrame (· ∈ [Reg.ANG_PERIOD]) (latchIndex s) (onWrap s) := by
  have hidx := regFrame_refl (T := (· ∈ [Reg.ANG_PERIOD])) (latchIndex_frame h).ok
  unfold onWrap
  dsimp only
  split
  · exact (hidx.wr (by simp)).regs rfl
  · exact hidx.regs rfl

theorem onWrap_frame {s : State} (h : regsOk s) : RegFrame (· ∈ wrapRegs) s (onWrap s) :=
  (latchIndex_frame h).trans ((onWrap_latchIndex h).mono (by simp))

theorem onWrap_passes {s : State} (h : regsOk s) : TimePassed s (onWrap s) := by
  refine ⟨(onWrap_frame h).mono fun _ hb => List.mem_append_right _ hb, fun i _ _ => (onWrap_frame h).bit (by decide) i, ?_⟩
  unfold onWrap
  dsimp only
  split <;> rfl

theorem rdN_latchIndex_rev {s : State} (h : regsOk s) :
    rdN (latchIndex s) Reg.ANG_REV = (rdN s Reg.ANG_REV + 1) % 2 ^ 32 := by
  have hrev := regsOk_wrN (a := Reg.ANG_REV) (v := rdN s Reg.ANG_REV + 1) h
  have hidx : RegFrame (· ∈ [Reg.ANG_IDXTIME, Reg.ANG_IDXTIME + 4, Reg.ANG_IDXREV]) (wrapInc s Reg.ANG_REV) (latchIndex s) :=
    ((regFrame_refl hrev).wr64 (by simp) (by simp)).wr (by simp)
  exact (hidx.rdN (by decide)).trans (rdN_wrN_same h)

theorem rdN_latchIndex_idxRev {s : State} (h : regsOk s) :
    rdN (latchIndex s) Reg.ANG_IDXREV = (rdN s Reg.ANG_REV + 1) % 2 ^ 32 := by
  have hrev := regsOk_wrN (a := Reg.ANG_REV) (v := rdN s Reg.ANG_REV + 1) h
  have hcount : rdN (wrapInc s Reg.ANG_REV) Reg.ANG_REV = (rdN s Reg.ANG_REV + 1) % 2 ^ 32 := rdN_wrN_same h
  refine (rdN_wrN_same (regsOk_wr64 hrev)).trans ?_
  rw [hcount, Nat.mod_mod]

/-! ## Running the counter on -/

theorem angNow_lt (s : State) : angNow s < ticksPerRev := bitsOf_lt _ _ _

theorem passTicks_below {m : Nat} {s : State} (fuel : Nat) (hm : m < ticksPerRev - angNow s) :
    passTicks (fuel + 1) m s = passWithin m s := if_pos hm

theorem passTicks_toZero (fuel : Nat) (s : State) :
    passTicks (fuel + 1) (ticksPerRev - angNow s) s = passTicks fuel 0 (onWrap (passWithin (ticksPerRev - angNow s) s)) := by
  rw [passTicks, if_neg (Nat.lt_irrefl _), Nat.sub_self]

theorem passTicks_passes (fuel : Nat) {m : Nat} {s : State} (h : regsOk s) : TimePassed s (passTicks fuel m s) := by
  induction fuel generalizing m s with
  | zero => exact timePassed_refl h
  | succ fuel ih =>
    rw [passTicks]
    split
    · exact passWithin_passes m h
    · have hw := passWithin_passes (ticksPerRev - angNow s) h
      have hz := onWrap_passes hw.regs.ok
      exact (hw.trans hz).trans (ih hz.regs.ok)

theorem nextDue_empty {s : State} (hq : QueuesEmpty s) (t : Nat) : nextDue s t = none := by
  simp [nextDue, List.range_succ, hq, firstDue]

/-- With every queue empty the counter runs on without an entry that fires. -/
theorem advanceTo_empty {s : State} (hf : s.ang.freq ≠ 0) (hq : QueuesEmpty s) (t : Nat) :
    advanceTo t s = passTicks 4 (t - s.ang.incs) s := by
  rw [advanceTo, if_neg hf, runTo, nextDue_empty hq]

theorem advanceTo_passes {s : State} (h : regsOk s) (hq : QueuesEmpty s) (t : Nat) : TimePassed s (advanceTo t s) := by
  by_cases hf : s.ang.freq = 0
  · rw [advanceTo, if_pos hf]
    exact timePassed_refl h
  · rw [advanceTo_empty hf hq]
    exact passTicks_passes 4 h

/-- At angle 0 a pass through 0 counts ANG_REV, and ANG_IDXREV takes it (R11, R31). -/
theorem onWrap_atZero {u : State} (h : regsOk u) (hu : angNow u = 0) :
    angNow (passWithin 0 (onWrap u)) = 0
      ∧ rdN (passWithin 0 (onWrap u)) Reg.ANG_REV = (rdN u Reg.ANG_REV + 1) % 2 ^ 32
      ∧ rdN (passWithin 0 (onWrap u)) Reg.ANG_IDXREV = rdN (passWithin 0 (onWrap u)) Reg.ANG_REV := by
  have hz := onWrap_frame h
  have hnow : angNow (onWrap u) = 0 := (hz.getF (by decide) 0 22).trans hu
  have hstay : ∀ b ∉ clockRegs ++ [Reg.ANG_PERIOD], rdN (passWithin 0 (onWrap u)) b = rdN (latchIndex u) b := by
    intro b hb
    rw [List.mem_append, not_or] at hb
    exact ((passWithin_frame 0 hz.ok).rdN hb.1).trans ((onWrap_latchIndex h).rdN hb.2)
  rw [angNow_passWithin _ hz.ok, hnow, hstay _ (by decide), hstay _ (by decide), rdN_latchIndex_rev h,
    rdN_latchIndex_idxRev h]
  exact ⟨rfl, rfl, rfl⟩

/-- With every queue empty the counter runs on to 0 and through it. -/
theorem advanceTo_zero {s : State} (h : regsOk s) (hf : s.ang.freq ≠ 0) (hq : QueuesEmpty s) :
    angNow (advanceTo (s.ang.incs + (ticksPerRev - angNow s)) s) = 0
      ∧ rdN (advanceTo (s.ang.incs + (ticksPerRev - angNow s)) s) Reg.ANG_REV = (rdN s Reg.ANG_REV + 1) % 2 ^ 32
      ∧ rdN (advanceTo (s.ang.incs + (ticksPerRev - angNow s)) s) Reg.ANG_IDXREV
        = rdN (advanceTo (s.ang.incs + (ticksPerRev - angNow s)) s) Reg.ANG_REV := by
  have hw := passWithin_frame (ticksPerRev - angNow s) h
  have hzero : angNow (passWithin (ticksPerRev - angNow s) s) = 0 := by
    rw [angNow_passWithin _ h, Nat.add_sub_cancel' (Nat.le_of_lt (angNow_lt s)), Nat.mod_self]
  have hnow : angNow (onWrap (passWithin (ticksPerRev - angNow s) s)) = 0 :=
    ((onWrap_frame hw.ok).getF (by decide) 0 22).trans hzero
  have hrun : advanceTo (s.ang.incs + (ticksPerRev - angNow s)) s
      = passWithin 0 (onWrap (passWithin (ticksPerRev - angNow s) s)) := by
    rw [advanceTo_empty hf hq, Nat.add_sub_cancel_left, passTicks_toZero, passTicks_below _ (by rw [hnow]; decide)]
  rw [hrun, ← hw.rdN (b := Reg.ANG_REV) (by decide)]
  exact onWrap_atZero hw.ok hzero

/-! ## The read of ANG_NOW and the write of a skew -/

/-- A read of ANG_NOW latches ANG_REV and the PTP time and changes no other register (R31). -/
theorem angNowRead_latches {s : State} (h : regsOk s) :
    (angNowRead s).busData = angNow s ∧ rdN (angNowRead s) Reg.ANG_NOWREV = rdN s Reg.ANG_REV
      ∧ rd64 (angNowRead s) Reg.ANG_NOWTIME = ptp s
      ∧ OnlyRegs [Reg.ANG_NOWREV, Reg.ANG_NOWTIME, Reg.ANG_NOWTIME + 4] s (angNowRead s) := by
  have hok := regsOk_wrN (a := Reg.ANG_NOWREV) (v := rdN s Reg.ANG_REV) h
  have hrev : RegFrame (· ∈ [Reg.ANG_NOWREV]) s (wrN s Reg.ANG_NOWREV (rdN s Reg.ANG_REV)) :=
    (regFrame_refl h).wr (by simp)
  have htime := wr64_frame Reg.ANG_NOWTIME (ptp (wrN s Reg.ANG_NOWREV (rdN s Reg.ANG_REV))) hok
  have hptp : ptp (wrN s Reg.ANG_NOWREV (rdN s Reg.ANG_REV)) = ptp s := hrev.rd64 (by decide) (by decide)
  refine ⟨hrev.getF (by decide) 0 22, ?_, ?_, ?_⟩
  · refine ((htime.rdN (by decide)).trans (rdN_wrN_same h)).trans ?_
    exact Nat.mod_eq_of_lt (rd s Reg.ANG_REV).isLt
  · exact (rd64_wr64_same hok (rd64_lt _ _)).trans hptp
  · exact ((hrev.mono (by simp)).trans (htime.mono (by simp))).rd

/-- A write of ANG_SKEW stores its 22 bits; of the other registers it may write ANG_STS, to end a drift exclusion
(R13, R19). -/
theorem skewWrite_stores {s : State} (h : regsOk s) (f v : Nat) :
    rdN (skewWrite f v s) (Reg.ANG_SKEW f) = v % 2 ^ 22 ∧ OnlyRegs [Reg.ANG_SKEW f, Reg.ANG_STS] s (skewWrite f v s) := by
  have hskew : regsOk (wrN s (Reg.ANG_SKEW f) (v % 2 ^ 22)) := regsOk_wrN h
  have hsts : RegFrame (· ∈ [Reg.ANG_STS]) (wrN s (Reg.ANG_SKEW f) (v % 2 ^ 22)) (skewWrite f v s) := by
    have hnone := regFrame_refl (T := (· ∈ [Reg.ANG_STS])) hskew
    unfold skewWrite
    refine RegFrame.ite (setBit_st _ _ _ _ ?_ (by simp)) ?_ <;>
      exact RegFrame.ite (setBit_st _ _ _ _ hnone (by simp)) hnone
  have hne : Reg.ANG_SKEW f ≠ Reg.ANG_STS := by simp only [Reg.ANG_SKEW, Reg.ANG_STS]; omega
  refine ⟨?_, ?_⟩
  · rw [hsts.rdN (by simpa using hne), rdN_wrN_same h]
    omega
  · exact (((regFrame_refl h).wr (by simp)).trans (hsts.mono (by simp))).rd

/-! ## Queues -/

theorem queueOf_setQueue_same {s : State} {n : Nat} (hn : n < s.ang.queues.length) (q : List AngEntry) :
    queueOf (setQueue n q s) n = q := getD_modAt_same hn

theorem queueOf_setQueue_ne {s : State} {n k : Nat} (hk : k ≠ n) (q : List AngEntry) :
    queueOf (setQueue n q s) k = queueOf s k := getD_modAt_ne hk

/-- The flush of a slot changes the angle clock in the slot's queue alone. -/
theorem flushSlot_ang (n : Nat) (s : State) : (flushSlot n s).ang = (setQueue n [] s).ang :=
  (fireAll_keeps n true (queueOf s n) (setQueue n [] s) (keeps_refl _ _) (within_refl _)).frame .ang rfl

theorem queueOf_of_ang {s t : State} (h : t.ang = s.ang) (n : Nat) : queueOf t n = queueOf s n := by
  rw [queueOf, queueOf, h]

theorem exec_angQflush (n : Fin 8) {v : Word} (s : State) (hv : v.getLsbD 0 = true) :
    exec (.angQflush n v) s = .next (flushSlot n s) := by
  change execAngQflush n v s = _
  rw [execAngQflush, if_pos hv]

/-! ## Postings (R21, R22) -/

/-- A posting's answer is found from the angle, the state, the surface's skew and the slot's queue. -/
theorem postCheck_congr {s t : State} {n surf : Nat} (hnow : angNow t = angNow s) (hst : angState t = angState s)
    (hskew : skewOf t surf = skewOf s surf) (hq : queueOf t n = queueOf s n) (action arg angle : Nat) :
    postCheck t n action arg surf angle = postCheck s n action arg surf angle := by
  have hangle : globalAngle t surf angle = globalAngle s surf angle := by simp only [globalAngle, hskew]
  have hticks : ticksTo t = ticksTo s := by simp only [funext_iff, ticksTo, hnow, implies_true]
  have hlate : isLate t = isLate s := by simp only [funext_iff, isLate, hticks, implies_true]
  rw [postCheck, postCheck, hst, hq, hangle, hticks, hlate]

/-- The entry that a posting puts in a queue. -/
def postedEntry (s : State) (action arg surf angle : Nat) : AngEntry :=
  ⟨action, arg, globalAngle s surf angle, s.ang.incs + ticksTo s (globalAngle s surf angle), s.ang.nextIdent⟩

/-- Entry `e` joins the end of the queue of slot `n`, and its number is used up. -/
def joinQueue (n : Nat) (e : AngEntry) (s : State) : State :=
  modAng (setQueue n (queueOf s n ++ [e]) s) fun a => { a with nextIdent := s.ang.nextIdent + 1 }

theorem regsOk_joinQueue {s : State} {n : Nat} {e : AngEntry} (h : regsOk s) : regsOk (joinQueue n e s) :=
  regsOk_modAng _ (regsOk_wrN h)

theorem queueOf_joinQueue {s : State} {n : Nat} (hn : n < s.ang.queues.length) (e : AngEntry) :
    queueOf (joinQueue n e s) n = queueOf s n ++ [e] := queueOf_setQueue_same hn _

theorem postEntry_ok {s : State} {n action arg surf angle : Nat} (h : postCheck s n action arg surf angle = .ok) :
    postEntry n action arg surf angle s
      = (.ok, s.ang.nextIdent, joinQueue n (postedEntry s action arg surf angle) s) := by
  simp only [postEntry, h, postedEntry, joinQueue]

theorem postEntry_refused {s : State} {n action arg surf angle : Nat} {st : PostStatus}
    (h : postCheck s n action arg surf angle = st) (hok : st ≠ .ok) (hlate : st ≠ .late) :
    postEntry n action arg surf angle s = (st, s.ang.nextIdent, s) := by
  cases st <;> simp_all [postEntry]

/-- ANG_QPOST as it is written, before the entry is posted. -/
theorem qpost_frame {s : State} (v : Nat) (h : regsOk s) :
    RegFrame (· ∈ [Reg.ANG_QPOST, Reg.ANG_QPOST + 4]) s (wr64 s Reg.ANG_QPOST v) := wr64_frame _ _ h

theorem skewOf_qpost {s : State} (v : Nat) {surf : Nat} (h : regsOk s) (hs : surf < 32) :
    skewOf (wr64 s Reg.ANG_QPOST v) surf = skewOf s surf := by
  refine (qpost_frame v h).getF ?_ 0 22
  simp only [Reg.ANG_SKEW, Reg.ANG_QPOST, List.mem_cons, List.not_mem_nil, or_false, not_or]
  omega

/-- The write of ANG_QPOST leaves what the check of a posting sees. -/
theorem postCheck_qpost {s : State} (v : Nat) {surf : Nat} (h : regsOk s) (hs : surf < 32) (n action arg angle : Nat) :
    postCheck (wr64 s Reg.ANG_QPOST v) n action arg surf angle = postCheck s n action arg surf angle :=
  postCheck_congr ((qpost_frame v h).getF (by decide) 0 22) ((qpost_frame v h).getF (by decide) 0 3)
    (skewOf_qpost v h hs) rfl action arg angle

theorem angQpost_test {s t : State} {v id : Nat} {st : PostStatus} (h : regsOk s) (hm : mode s = Mode.test)
    (hpost : postEntry (getF s Reg.ANG_QPSEL 0 3) (bitsOf v 32 8) (bitsOf v 40 16) (bitsOf v 27 5) (bitsOf v 0 22)
      (wr64 s Reg.ANG_QPOST v) = (st, id, t)) :
    angQpost v s = setF t Reg.ANG_QPSEL 8 3 st.code := by
  rw [← (qpost_frame v h).getF (by decide) 0 3] at hpost
  rw [angQpost, if_pos hm]
  simp only [hpost]

theorem bitsOf_surf_lt (v : Nat) : bitsOf v 27 5 < 32 := bitsOf_lt v 27 5

theorem globalAngle_qpost {s : State} (h : regsOk s) (v : Nat) :
    globalAngle (wr64 s Reg.ANG_QPOST v) (bitsOf v 27 5) (bitsOf v 0 22) = globalAngle s (bitsOf v 27 5) (bitsOf v 0 22) := by
  rw [globalAngle, globalAngle, skewOf_qpost v h (bitsOf_surf_lt v)]

/-- In TEST a posting that passes its checks joins the end of its queue, and ANG_QPSEL shows OK. -/
theorem angQpost_ok {s : State} {v : Nat} (h : regsOk s) (hz : s.sized = true) (hm : mode s = Mode.test)
    (hok : postCheck s (getF s Reg.ANG_QPSEL 0 3) (bitsOf v 32 8) (bitsOf v 40 16) (bitsOf v 27 5) (bitsOf v 0 22) = .ok) :
    getF (angQpost v s) Reg.ANG_QPSEL 8 3 = 0
      ∧ ∃ e : AngEntry, queueOf (angQpost v s) (getF s Reg.ANG_QPSEL 0 3) = queueOf s (getF s Reg.ANG_QPSEL 0 3) ++ [e]
        ∧ e.action = bitsOf v 32 8 ∧ e.arg = bitsOf v 40 16 ∧ e.angle = globalAngle s (bitsOf v 27 5) (bitsOf v 0 22) := by
  rw [← postCheck_qpost v h (bitsOf_surf_lt v)] at hok
  have hslot : getF s Reg.ANG_QPSEL 0 3 < (wr64 s Reg.ANG_QPOST v).ang.queues.length := by
    rw [wr64_ang, sized_queues hz]
    exact bitsOf_lt _ 0 3
  have hpost : regsOk (wr64 s Reg.ANG_QPOST v) := regsOk_wr64 h
  rw [angQpost_test h hm (postEntry_ok hok)]
  refine ⟨getF_setF_same (regsOk_joinQueue hpost) (by decide),
    postedEntry (wr64 s Reg.ANG_QPOST v) (bitsOf v 32 8) (bitsOf v 40 16) (bitsOf v 27 5) (bitsOf v 0 22),
    ?_, rfl, rfl, globalAngle_qpost h v⟩
  rw [queueOf_of_ang (setF_ang _ _ _ _ _), queueOf_joinQueue hslot, queueOf_of_ang (wr64_ang _ _ _)]

/-- In TEST a posting that is refused shows its status in ANG_QPSEL and leaves the queues. -/
theorem angQpost_refused {s : State} {v : Nat} {st : PostStatus} (h : regsOk s) (hm : mode s = Mode.test)
    (hok : st ≠ .ok) (hlate : st ≠ .late)
    (hst : postCheck s (getF s Reg.ANG_QPSEL 0 3) (bitsOf v 32 8) (bitsOf v 40 16) (bitsOf v 27 5) (bitsOf v 0 22) = st) :
    getF (angQpost v s) Reg.ANG_QPSEL 8 3 = st.code
      ∧ OnlyRegs [Reg.ANG_QPSEL, Reg.ANG_QPOST, Reg.ANG_QPOST + 4] s (angQpost v s) ∧ (angQpost v s).ang = s.ang := by
  rw [← postCheck_qpost v h (bitsOf_surf_lt v)] at hst
  have hframe : RegFrame (· ∈ [Reg.ANG_QPSEL, Reg.ANG_QPOST, Reg.ANG_QPOST + 4]) s (wr64 s Reg.ANG_QPOST v) :=
    (qpost_frame v h).mono fun _ hb => List.mem_cons_of_mem _ hb
  rw [angQpost_test h hm (postEntry_refused hst hok hlate)]
  refine ⟨?_, (setF_st _ _ 8 3 st.code hframe (by simp)).rd, rfl⟩
  rw [getF_setF_same hframe.ok (by decide)]
  cases st <;> rfl

/-! ## The first good sample in ACQUIRE (R16) -/

/-- From `s` to `t` the registers but ANG_NOW may change, and whether the counter has been re-based does not. -/
structure AngleKept (s t : State) : Prop where
  regs : RegFrame (· ≠ Reg.ANG_NOW) s t
  reBased : t.ang.reBased = s.ang.reBased

theorem angleKept_refl {s : State} (h : regsOk s) : AngleKept s s := ⟨regFrame_refl h, rfl⟩

theorem AngleKept.angNow {s t : State} (h : AngleKept s t) : Machine.angNow t = Machine.angNow s :=
  h.regs.getF (fun k => absurd rfl k) 0 22

theorem AngleKept.trans {r s t : State} (h : AngleKept r s) (k : AngleKept s t) : AngleKept r t :=
  ⟨h.regs.trans k.regs, k.reBased.trans h.reBased⟩

theorem AngleKept.ite {c : Prop} [Decidable c] {s t u : State} (h : AngleKept s t) (k : AngleKept s u) :
    AngleKept s (if c then t else u) := by
  split
  · exact h
  · exact k

theorem AngleKept.modAng {s t : State} (h : AngleKept s t) {f : AngState → AngState}
    (hf : ∀ a, (f a).reBased = a.reBased) : AngleKept s (modAng t f) := ⟨h.regs.regs rfl, (hf _).trans h.reBased⟩

theorem AngleKept.wrN {s t : State} (h : AngleKept s t) {a v : Nat} (ha : a ≠ Reg.ANG_NOW) : AngleKept s (wrN t a v) :=
  ⟨h.regs.wr ha, h.reBased⟩

theorem AngleKept.setBit {s t : State} (h : AngleKept s t) {a i : Nat} {b : Bool} (ha : a ≠ Reg.ANG_NOW) :
    AngleKept s (setBit t a i b) := ⟨h.regs.wr ha, h.reBased⟩

theorem angNow_notRecorder {b : Nat} (h : recorderCounter b) : b ≠ Reg.ANG_NOW := by
  simp only [recorderCounter, Reg.EVR_FULLDROP, Reg.EVR_STGDROP] at h
  simp only [Reg.ANG_NOW]
  omega

theorem AngleKept.evt {s t : State} (h : AngleKept s t) {a i : Nat} (ha : a ≠ Reg.ANG_NOW) : AngleKept s (evt a i t) :=
  ⟨h.regs.evt ha fun _ => angNow_notRecorder, by rw [evt_ang, h.reBased]⟩

theorem AngleKept.setAngState {s t : State} (h : AngleKept s t) (m : Nat) : AngleKept s (setAngState m t) := by
  have hsts : AngleKept s (setF t Reg.ANG_STS 0 3 m) := ⟨h.regs.wr (by decide), h.reBased⟩
  have hslu := (sluAll_frame hsts.regs.ok).mono (U := (· ≠ Reg.ANG_NOW)) fun _ hb e =>
    (not_slu : ¬sluTouches Reg.ANG_NOW) (e ▸ hb)
  exact ⟨hsts.regs.trans hslu, by rw [setAngState_ang, h.reBased]⟩

theorem AngleKept.setFreq {s t : State} (h : AngleKept s t) (f : Rat) : AngleKept s (setFreq f t) := by
  refine AngleKept.wrN (h.modAng ?_) (by decide)
  exact fun _ => rfl

theorem residual_keepsAngle {s : State} (h : regsOk s) (a : Nat) (e8 : Int) : AngleKept s (residual a e8 s) := by
  have hhist : ∀ l : List Int, AngleKept s (modAng s fun g => if a = 0 then { g with histA := l } else { g with histB := l }) :=
    fun l => (angleKept_refl h).modAng fun g => by split <;> rfl
  have hres : (if a = 0 then Reg.ANG_RESA else Reg.ANG_RESB) ≠ Reg.ANG_NOW := by split <;> decide
  unfold residual
  exact (hhist _).ite (((((hhist _).wrN hres).setBit (by decide)).evt (by decide)).ite ((hhist _).wrN hres))

theorem loopTakes_keepsAngle {s t : State} (h : AngleKept s t) (e8 : Int) : AngleKept s (loopTakes e8 t) := by
  unfold loopTakes
  refine AngleKept.modAng (h.setFreq _) ?_
  exact fun _ => rfl

theorem enterLocked_keepsAngle {s t : State} (h : AngleKept s t) : AngleKept s (enterLocked t) := by
  refine AngleKept.setAngState (AngleKept.modAng (h.evt (by decide)) ?_) angLocked
  exact fun _ => rfl

theorem lockStep_keepsAngle {s : State} (h : regsOk s) (e8 : Int) : AngleKept s (lockStep e8 s) := by
  have htaken : AngleKept s (modAng s fun a => { a with taken := true, emptyRun := 0 }) :=
    (angleKept_refl h).modAng fun _ => rfl
  have hrun : ∀ n, AngleKept s (modAng (loopTakes e8 (modAng s fun a => { a with taken := true, emptyRun := 0 }))
      fun a => { a with lockRun := n }) := fun n => (loopTakes_keepsAngle htaken e8).modAng fun _ => rfl
  unfold lockStep
  exact ((enterLocked_keepsAngle (hrun _)).ite (hrun _)).ite
    ((loopTakes_keepsAngle htaken e8).ite ((enterLocked_keepsAngle htaken).ite htaken))

theorem reBase_angle {s : State} (h : regsOk s) (g : Nat) :
    angNow (reBase g s) = g % ticksPerRev ∧ (reBase g s).ang.reBased = true :=
  ⟨getF_setF_same h (by decide), rfl⟩

/-- The angle of wedge `w` on surface `f` (R12). -/
abbrev markAngle (s : State) (f w : Nat) : Nat := (wedgeAngle (wedges s) w + skewOf s f) % ticksPerRev

/-- The first sample that the loop takes in ACQUIRE puts the counter at the angle of its wedge (R16). -/
theorem phaseSample_first {s : State} {a : Nat} (h : regsOk s) (t8 f wedge : Nat) (hst : angState s = angAcquire)
    (hnot : s.ang.reBased = false) (htakes : bit s Reg.ANG_CTL a = true) (hdrift : drifted s a = false) :
    angNow (phaseSample a t8 f wedge s) = markAngle s f wedge
      ∧ (phaseSample a t8 f wedge s).ang.reBased = true := by
  obtain ⟨hnow, hbased⟩ := reBase_angle h (markAngle s f wedge)
  have hok : regsOk (reBase (markAngle s f wedge) s) := regsOk_modAng _ (regsOk_modAng _ (regsOk_setF h))
  have hval : AngleKept (reBase (markAngle s f wedge) s)
      (modAng (reBase (markAngle s f wedge) s) fun g =>
        if a = 0 then { g with curValA := true } else { g with curValB := true }) :=
    (angleKept_refl hok).modAng fun g => by split <;> rfl
  have hres := hval.trans (residual_keepsAngle hval.regs.ok a 0)
  have hkept : AngleKept (reBase (markAngle s f wedge) s) (phaseSample a t8 f wedge s) := by
    have htaken : (bit s Reg.ANG_CTL a && !drifted s a) = true := by rw [htakes, hdrift]; rfl
    simp only [phaseSample, htaken, hst, hnot, and_self, decide_true, if_true]
    exact (hres.trans (lockStep_keepsAngle hres.regs.ok 0)).ite hres
  exact ⟨(hkept.angNow.trans hnow).trans (Nat.mod_mod _ _), hkept.reBased.trans hbased⟩

theorem slotSurface_lt {s : State} {n f : Nat} (h : slotSurface s n = some f) : f < 48 := by
  obtain ⟨head, hhead, rfl⟩ := Option.map_eq_some_iff.1 h
  have hgeom := bitsOf_lt (rd s Reg.ZTB_GEOM).toNat 0 5
  have hlt : head < 16 := by
    unfold slotHead at hhead
    split at hhead
    · exact Option.some.inj hhead ▸ bitsOf_lt _ 0 4
    · cases hhead
  unfold surfaceOf getF
  split <;> omega

/-- No register of the skews is among those that passing time writes. -/
theorem skew_notTimed {f : Nat} (hf : f < 48) : Reg.ANG_SKEW f ∉ clockRegs ++ wrapRegs := by
  have hrange : ∀ b ∈ clockRegs ++ wrapRegs, b < 0x90080 ∨ 0x90200 ≤ b := by decide
  intro hb
  have hskew := hrange _ hb
  simp only [Reg.ANG_SKEW] at hskew
  omega

theorem TimePassed.skewOf {s t : State} (h : TimePassed s t) {f : Nat} (hf : f < 48) :
    Machine.skewOf t f = Machine.skewOf s f := h.regs.getF (skew_notTimed hf) 0 22

theorem exec_phaseSample {s : State} {a : Fin 2} {f : Nat} (x : Fin (2 ^ 25)) (w : Fin 1024)
    (hst : angState s = angAcquire) (hl : loaded s a = true) (hf : slotSurface s (anchorSlot s a) = some f)
    (hw : w.val < wedges (advanceTo (s.ang.incs + ticksTo s (x / 8)) s)) :
    exec (.phaseSample a x true w) s
      = .next (phaseSample a x f w (advanceTo (s.ang.incs + ticksTo s (x / 8)) s)) := by
  change execPhaseSample a x true w s = _
  rw [execPhaseSample, if_neg (by simp [hst, hl]), hf]
  exact congrArg _ (if_pos ⟨rfl, hw⟩)

/-- The mark's time has come, and its sample re-bases the counter. -/
theorem phaseSample_reBases {s : State} {a : Fin 2} {f : Nat} (x : Fin (2 ^ 25)) (w : Fin 1024) (hwf : s.wf = true)
    (hst : angState s = angAcquire) (hnot : s.ang.reBased = false) (hq : QueuesEmpty s) (hl : loaded s a = true)
    (hf : slotSurface s (anchorSlot s a) = some f) (htakes : bit s Reg.ANG_CTL a = true) (hdrift : drifted s a = false)
    (hw : w.val < wedges s) :
    Completes (.phaseSample a x true w) s fun t =>
      angNow t = (wedgeAngle (wedges s) w + skewOf s f) % ticksPerRev ∧ t.ang.reBased = true := by
  have hpass := advanceTo_passes (wf_regsOk hwf) hq (s.ang.incs + ticksTo s (x / 8))
  have hsys : wedges (advanceTo (s.ang.incs + ticksTo s (x / 8)) s) = wedges s :=
    congrArg SysState.wedges ((advanceTo_keeps _ s (keeps_refl _ s) (within_refl _)).frame .sys rfl)
  refine ⟨_, exec_phaseSample x w hst hl hf (hsys.symm ▸ hw), ?_⟩
  have hfirst := phaseSample_first hpass.regs.ok x f w (hpass.angState.trans hst) (hpass.reBased.trans hnot)
    ((hpass.regs.bit (by decide) a).trans htakes) ((hpass.drifted a).trans hdrift)
  rwa [markAngle, hsys, hpass.skewOf (slotSurface_lt hf)] at hfirst

theorem exec_revolutionWrap {s : State} (hst : angState s ≠ angFree) :
    exec .revolutionWrap s = .next (advanceTo (s.ang.incs + (ticksPerRev - angNow s)) s) := by
  change execRevolutionWrap s = _
  rw [execRevolutionWrap, if_neg hst]

/-- Settles O11: each command's clause is the lemma of its operation. -/
theorem angleCounterCommands : Obligations.AngleCounterCommands := by
  unfold Obligations.AngleCounterCommands
  intro s hwf
  have h := wf_regsOk hwf
  have hz := wf_sized hwf
  refine ⟨fun hst hf hq => ⟨_, exec_revolutionWrap hst, advanceTo_zero h hf hq⟩,
    ⟨_, rfl, angNowRead_latches h⟩,
    fun f v => ⟨_, rfl, skewWrite_stores h f v.toNat⟩,
    fun v hm hok => ?posted,
    fun _ _ hm hok hlate hst => ⟨_, rfl, angQpost_refused h hm hok hlate hst⟩,
    fun n v hv => ?flush,
    fun _ x w _ => phaseSample_reBases x w hwf⟩
  case posted =>
    obtain ⟨hsel, e, hqueue, hfields⟩ := angQpost_ok h hz hm hok
    refine ⟨_, rfl, hsel, ?_, e, ?_, hfields⟩
    · rw [hqueue, List.length_append, List.length_singleton]
    · rw [hqueue]
      exact List.mem_append_right _ (List.mem_singleton_self e)
  case flush =>
    refine ⟨_, exec_angQflush n s hv, ?_, fun k hk => ?_⟩
    · rw [queueOf_of_ang (flushSlot_ang n s), queueOf_setQueue_same (by rw [sized_queues hz]; exact n.isLt)]
    · rw [queueOf_of_ang (flushSlot_ang n s), queueOf_setQueue_ne (Fin.val_ne_of_ne hk)]

end Sys2Proof.Machine
end

section
/-! PROOF. What a move of CPTR leaves of the zone engine's registers (R98, R117): the completions and the buffers
that it releases write ZTB_RETUSE and ZTB_RETPEAK, the zone's new state ZTB_ACTZ, a rewrap's progress ZTB_RWSTS,
and all else is in registers of other blocks. -/

namespace Sys2Proof.Machine

/-- A register of another block than the zone engine's, or one of the four of this block that a move of CPTR may
write. -/
abbrev cptrTouches (b : Nat) : Prop :=
  b / 0x10000 ≠ 24 ∨ b ∈ [Reg.ZTB_RETUSE, Reg.ZTB_RETPEAK, Reg.ZTB_ACTZ, Reg.ZTB_RWSTS]

/-- What a move of CPTR leaves in the registers. -/
abbrev CptrFrame (s t : State) : Prop := RegFrame cptrTouches s t

theorem recorderCounter_block {b : Nat} (h : recorderCounter b) : b / 0x10000 = 19 := by
  simp only [recorderCounter, Reg.EVR_FULLDROP, Reg.EVR_STGDROP] at h
  omega

theorem cptr_rec (b : Nat) (h : recorderCounter b) : cptrTouches b := .inl (by rw [recorderCounter_block h]; decide)

theorem cptr_slu (b : Nat) (h : sluTouches b) : cptrTouches b :=
  .inl fun e => absurd (sluTouches_block h) (by rw [e]; decide)

variable {s t : State}

theorem CptrFrame.setBit {a i : Nat} {b : Bool} (h : CptrFrame s t) (ha : cptrTouches a := by decide) :
    CptrFrame s (setBit t a i b) := h.wr ha

theorem CptrFrame.wrN {a v : Nat} (h : CptrFrame s t) (ha : cptrTouches a := by decide) :
    CptrFrame s (wrN t a v) := h.wr ha

theorem CptrFrame.raise {a i : Nat} (h : CptrFrame s t) (ha : cptrTouches a := by decide) :
    CptrFrame s (evt a i t) := h.evt ha cptr_rec

theorem CptrFrame.raiseIf {c : Bool} {a i : Nat} (h : CptrFrame s t) (ha : cptrTouches a := by decide) :
    CptrFrame s (evtIf c a i t) := h.evtIf ha cptr_rec

/-! ## Buffers that are freed (R334, R336, R338) -/

theorem updateThreshold_cptr (n : Nat) (h : CptrFrame s t) : CptrFrame s (updateThreshold n t) :=
  RegFrame.ite (RegFrame.ite h h.setBit.raise) (RegFrame.ite h.setBit h)

theorem pfcAll_regs (stop : Bool) (s : State) : (pfcAll stop s).regs = s.regs :=
  (pfcAll_keeps stop s (keeps_refl _ s) (within_refl _)).frame .regs rfl

theorem updateThresholds_cptr (h : CptrFrame s t) : CptrFrame s (updateThresholds t) := by
  have hfold : CptrFrame s ((List.range 4).foldl (fun s n => updateThreshold n s) t) :=
    RegFrame.foldl (fun _ n _ hu => updateThreshold_cptr n hu) h
  exact RegFrame.ite hfold.setBit.setBit (hfold.setBit.setBit.regs (pfcAll_regs _ _))

theorem setFreeCount_cptr (c : Nat) (h : CptrFrame s t) : CptrFrame s (setFreeCount c t) :=
  updateThresholds_cptr (RegFrame.ite h.wrN.wrN h.wrN)

theorem ownCount_cptr {o : Nat} (ho : ¬(o = 0 ∨ 8 ≤ o)) : cptrTouches (Reg.CIS_OWNCNT (o - 1)) := by
  left
  simp only [Reg.CIS_OWNCNT]
  omega

theorem setOwnCount_cptr (o c : Nat) (h : CptrFrame s t) : CptrFrame s (setOwnCount o c t) := by
  unfold setOwnCount
  split
  · exact h
  · rename_i ho
    have hcount : CptrFrame s (wrN t (Reg.CIS_OWNCNT (o - 1)) c) := h.wrN (ownCount_cptr ho)
    exact RegFrame.ite (RegFrame.ite hcount.wrN.wrN hcount.wrN) hcount

theorem setOwner_cptr (i o : Nat) (h : CptrFrame s t) : CptrFrame s (setOwner i o t) :=
  setOwnCount_cptr _ _ (setOwnCount_cptr _ _ (h.regs rfl))

theorem setSpec_cptr (i : Nat) (b : Bool) (h : CptrFrame s t) : CptrFrame s (setSpec i b t) := by
  have htag : CptrFrame s (sramPut8 t (tagAddr i + 0x0C) (if b then 1 else 0)) := h.regs rfl
  exact RegFrame.ite h (RegFrame.ite htag.wrN htag.wrN)

theorem pushFree_cptr (i : Nat) (h : CptrFrame s t) : CptrFrame s (pushFree i t) :=
  setFreeCount_cptr _ ((setOwner_cptr i _ (setSpec_cptr i false h)).regs rfl)

theorem reject_cptr (req i code : Nat) (h : CptrFrame s t) : CptrFrame s (reject req i code t) := by
  have hlog : ∀ u, CptrFrame s u → CptrFrame s (evt Reg.CIS_EVT 5 (satInc u Reg.CIS_ERRCNT 32)) :=
    fun u hu => CptrFrame.raise (hu.satInc (by decide))
  exact hlog _ (RegFrame.ite (h.regs rfl) (CptrFrame.raise (h.satInc (by decide))))

theorem freeBuf_cptr (req i : Nat) (aligned : Bool) (h : CptrFrame s t) : CptrFrame s (freeBuf req i aligned t).2 := by
  unfold freeBuf
  split
  · exact pushFree_cptr i h
  · exact reject_cptr req i _ h

theorem freeAll_cptr (o : Nat) (l : List Nat) (h : CptrFrame s t) : CptrFrame s (freeAll o l t) := by
  induction l generalizing t with
  | nil => exact h
  | cons i l ih => exact ih (RegFrame.ite (freeBuf_cptr o i true h) h)

/-! ## Commands that complete (R243, R263, R421) -/

theorem countCmds_cptr (h : CptrFrame s t) : CptrFrame s (countCmds t) := h.wrN.wrN.raiseIf.raiseIf.setBit.setBit

theorem setMode_cptr (m : Nat) (h : CptrFrame s t) : CptrFrame s (setMode m t) := by
  have hmode : CptrFrame s (setF (setF t Reg.SYS_MODE 8 4 (mode t)) Reg.SYS_MODE 0 4 m) :=
    (h.wr (by decide)).wr (by decide)
  have htrig : ∀ u v, CptrFrame s u → CptrFrame s (trigger 2 0 (evt Reg.SYS_EVT 0 (wr64 u Reg.SYS_MTIME v))) :=
    fun u v hu => RegFrame.trigger (CptrFrame.raise (hu.wr64 (by decide) (by decide))) (by decide) cptr_rec
  exact RegFrame.ite h (RegFrame.ite ((htrig _ _ hmode).trigger (by decide) cptr_rec) (htrig _ _ hmode))

theorem settleActive_cptr (h : CptrFrame s t) : CptrFrame s (settleActive t) :=
  RegFrame.ite (setMode_cptr _ h) (RegFrame.ite (setMode_cptr _ h) h)

theorem post_cptr (c : Completion) (lba : Option Nat) (h : CptrFrame s t) : CptrFrame s (post c lba t) := by
  have hposted : CptrFrame s (wrapInc (modNqe t fun n => { n with posted := n.posted ++ [c] }) Reg.NQE_CMDCNT) :=
    CptrFrame.wrN (h.regs rfl)
  have hcount := RegFrame.ite (c := c.status = 0) hposted (hposted.satInc (a := Reg.NQE_ERRCNT) (w := 32) (by decide))
  exact RegFrame.ite hcount (hcount.regs rfl)

theorem dropCmd_cptr (k : Nat) (h : CptrFrame s t) : CptrFrame s (dropCmd k t) := countCmds_cptr (h.regs rfl)

theorem finishFlushes_cptr (k : Nat) (h : CptrFrame s t) : CptrFrame s (finishFlushes k t) :=
  RegFrame.foldl (fun _ c _ hu => RegFrame.ite (dropCmd_cptr c.slot (post_cptr _ none hu)) hu) (h.regs rfl)

theorem complete_cptr (k status : Nat) (dnr : Bool) (h : CptrFrame s t) : CptrFrame s (complete k status dnr t) := by
  unfold complete
  split
  · exact h
  · rename_i c _
    have hposted : ∀ d v, CptrFrame s (gauge 5 v (post d c.badLba t)) := fun d _ => (post_cptr d c.badLba h).regs rfl
    exact settleActive_cptr (finishFlushes_cptr k (dropCmd_cptr k (freeAll_cptr _ _ (freeAll_cptr _ _ (hposted _ _)))))

theorem completeWrites_cptr (z : Nat) (h : CptrFrame s t) : CptrFrame s (completeWrites z t) :=
  RegFrame.foldl (fun _ c _ hu => complete_cptr c.slot _ false hu) h

/-! ## The zone -/

theorem sealSectors_cptr (z : Nat) (which : TailSector → Bool) (h : CptrFrame s t) :
    CptrFrame s (sealSectors z which t) := freeAll_cptr _ _ (h.regs rfl)

theorem targetPendingZone_slu (z : Nat) (h : SluFrame s t) : SluFrame s (targetPendingZone z t) := by
  refine RegFrame.foldl (fun u n hn hu => ?_) h
  split
  · exact RegFrame.ite (sluApply_slu (List.mem_range.1 hn) (hu.regs rfl)) hu
  · exact hu

theorem targetPendingZone_cptr (z : Nat) (h : CptrFrame s t) : CptrFrame s (targetPendingZone z t) :=
  h.trans ((targetPendingZone_slu z (regFrame_refl h.ok)).mono cptr_slu)

theorem setZoneState_cptr (z v : Nat) (h : CptrFrame s t) : CptrFrame s (setZoneState z v t) :=
  RegFrame.ite h (targetPendingZone_cptr z (CptrFrame.wrN (h.regs rfl)))

theorem updateCptr_cptr (z : Nat) (h : CptrFrame s t) : CptrFrame s (updateCptr z t) := by
  have hmove : CptrFrame s (rwOffset z (commitLimit t z) (setCptr z (commitLimit t z) t)) := by
    have hset : CptrFrame s (setCptr z (commitLimit t z) t) := h.regs rfl
    exact RegFrame.ite (hset.wr (by decide)) hset
  have hfull := RegFrame.ite
    (c := commitLimit t z = zcap (rwOffset z (commitLimit t z) (setCptr z (commitLimit t z) t))
      ∧ zActive (zState (rwOffset z (commitLimit t z) (setCptr z (commitLimit t z) t)) z) = true)
    (setZoneState_cptr z zFull hmove) hmove
  exact RegFrame.ite h (completeWrites_cptr z (RegFrame.ite (sealSectors_cptr z _ hfull) hfull))

end Sys2Proof.Machine
end

section
/-! PROOF. The fields of a zone-table entry (R64): what they read after a write of one of them. -/

namespace Sys2Proof.Machine

/-- The SRAM is in canonical form. -/
def sramOk (s : State) : Prop := scanon sramDflt s.sram = true

theorem wf_sramOk {s : State} (h : s.wf = true) : sramOk s := (wf_iff.1 ((Bool.and_eq_true _ _).mp h).1).2.1

theorem sramOk_of_sram {s t : State} (e : t.sram = s.sram) (h : sramOk s) : sramOk t := by
  rw [sramOk, e]
  exact h

theorem sramOk_sramPutPart {s : State} (off lo w v : Nat) (h : sramOk s) : sramOk (sramPutPart s off lo w v) :=
  scanon_sput _ _ h

theorem sram64_lt (s : State) (off : Nat) : sram64 s off < 2 ^ 64 := (sramWord s (off / 8)).data.isLt

theorem sram64_sramPut64 {s : State} (off v : Nat) (h : sramOk s) : sram64 (sramPut64 s off v) off = v % 2 ^ 64 := by
  have hword : sramWord (sramPut64 s off v) (off / 8) = ⟨BitVec.ofNat 64 v, .clean⟩ := sget_sput_same _ _ h
  rw [sram64, hword, BitVec.toNat_ofNat]

theorem sram64_sramPutPart {s : State} (off : Nat) {lo w : Nat} (v : Nat) (h : sramOk s) (hw : lo + w ≤ 64) :
    sram64 (sramPutPart s off lo w v) off = putBits (sram64 s off) lo w v :=
  (sram64_sramPut64 off _ h).trans (Nat.mod_eq_of_lt (putBits_lt (sram64_lt s off) hw))

theorem zoneLow_of_sram {s t : State} (h : t.sram = s.sram) (z : Nat) : zoneLow t z = zoneLow s z := by
  simp only [zoneLow, sram64, sramWord, h]

/-- The pointers and TAILU of zone `z` are in `t` as in `s`. -/
structure PointersKept (z : Nat) (s t : State) : Prop where
  cptr : zCptr t z = zCptr s z
  rptr : zRptr t z = zRptr s z
  tailu : zTailu t z = zTailu s z

theorem pointersKept_of_sram {s t : State} (h : t.sram = s.sram) (z : Nat) : PointersKept z s t := by
  constructor <;> simp only [zCptr, zRptr, zTailu, zoneLow_of_sram h]

theorem PointersKept.trans {z : Nat} {r s t : State} (h : PointersKept z r s) (k : PointersKept z s t) :
    PointersKept z r t :=
  ⟨k.cptr.trans h.cptr, k.rptr.trans h.rptr, k.tailu.trans h.tailu⟩

theorem setZState_pointers {s : State} (z v : Nat) (h : sramOk s) : PointersKept z s (setZState z v s) := by
  have hlow : zoneLow (setZState z v s) z = putBits (zoneLow s z) 18 4 v := sram64_sramPutPart _ v h (by decide)
  constructor
  · rw [zCptr, hlow, bitsOf_putBits_apart (by decide), zCptr]
  · rw [zRptr, hlow, bitsOf_putBits_apart (by decide), zRptr]
  · rw [zTailu, hlow, testBit_putBits, if_neg (by decide), zTailu]

theorem targetPendingZone_sram (z : Nat) (s : State) : (targetPendingZone z s).sram = s.sram :=
  (targetPendingZone_keeps z s (keeps_refl _ s) (within_refl _)).frame .sram rfl

theorem setZoneState_pointers {s : State} (z v : Nat) (h : sramOk s) : PointersKept z s (setZoneState z v s) := by
  unfold setZoneState
  dsimp only
  split
  · exact pointersKept_of_sram rfl z
  · refine (setZState_pointers z v h).trans (pointersKept_of_sram ?_ z)
    rw [targetPendingZone_sram]
    rfl

theorem modWork_sram (z : Nat) (f : ZoneWork → ZoneWork) (s : State) : (modWork z f s).sram = s.sram := rfl

theorem setZoneState_ztb (z v : Nat) (s : State) : (setZoneState z v s).ztb = s.ztb :=
  (setZoneState_keeps z v s (keeps_refl _ s) (within_refl _)).frame .ztb rfl

/-- Zone `z` with both pointers at `c`, and with TAILU as given. -/
def placeZone (z c : Nat) (tailu : Bool) (s : State) : State := setTailu z tailu (setRptr z c (setCptr z c s))

theorem sramOk_placeZone {s : State} (z c : Nat) (tailu : Bool) (h : sramOk s) : sramOk (placeZone z c tailu s) :=
  sramOk_sramPutPart _ _ _ _ (sramOk_sramPutPart _ _ _ _ (sramOk_sramPutPart _ _ _ _ h))

theorem placeZone_pointers {s : State} (z c : Nat) (tailu : Bool) (h : sramOk s) :
    zCptr (placeZone z c tailu s) z = c % 2 ^ 18 ∧ zRptr (placeZone z c tailu s) z = c % 2 ^ 18
      ∧ zTailu (placeZone z c tailu s) z = tailu := by
  have hcptr : sramOk (setCptr z c s) := sramOk_sramPutPart _ _ _ _ h
  have hlow : zoneLow (placeZone z c tailu s) z
      = putBits (putBits (putBits (zoneLow s z) 0 18 c) 32 18 c) 22 1 (if tailu then 1 else 0) := by
    refine (sram64_sramPutPart _ _ (sramOk_sramPutPart _ _ _ _ hcptr) (by decide)).trans ?_
    refine congrArg (putBits · 22 1 _) ((sram64_sramPutPart _ _ hcptr (by decide)).trans ?_)
    exact congrArg (putBits · 32 18 c) (sram64_sramPutPart _ _ h (by decide))
  refine ⟨?_, ?_, ?_⟩
  · rw [zCptr, hlow, bitsOf_putBits_apart (by decide), bitsOf_putBits_apart (by decide), bitsOf_putBits_same]
  · rw [zRptr, hlow, bitsOf_putBits_apart (by decide), bitsOf_putBits_same]
  · rw [zTailu, hlow, testBit_putBits, if_pos (by decide)]
    cases tailu <;> rfl

end Sys2Proof.Machine
end

section
/-! PROOF. The commands of the zone engine (O18): the write guard mode (R116, R118), acknowledgements (R125), zone
recovery (R126) and the peak of retention (R114). -/

namespace Sys2Proof.Machine

theorem not_recorderCounter {a : Nat} (h : a / 0x10000 ≠ 19 := by decide) : ¬recorderCounter a :=
  fun k => h (recorderCounter_block k)

theorem rdN_evt_ne {s : State} {a i b : Nat} (h : regsOk s) (hb : ¬recorderCounter b) (hne : b ≠ a) :
    rdN (evt a i s) b = rdN s b := congrArg BitVec.toNat (rd_evt_ne h hb hne)

/-! ## The write guard mode -/

/-- A write of a mode to SLU_WGUARD asks for it, and WPSTS.PEND shows whether it is another than the one in effect
(R118). -/
theorem wguardWrite_asks {s : State} {v : Nat} (h : regsOk s) (hv : bitsOf v 0 2 ≠ 3) :
    rdN (wguardWrite v s) Reg.SLU_WGUARD = bitsOf v 0 2 ∧ (wguardWrite v s).ztb.guardReq = bitsOf v 0 2
      ∧ bit (wguardWrite v s) Reg.ZTB_WPSTS 0 = (bitsOf v 0 2 != guardMode s)
      ∧ OnlyRegs [Reg.SLU_WGUARD, Reg.ZTB_WPSTS] s (wguardWrite v s) := by
  have hasked : RegFrame (· ∈ [Reg.SLU_WGUARD]) s (wrN s Reg.SLU_WGUARD (bitsOf v 0 2)) :=
    (regFrame_refl h).wr (by simp)
  have hpend : RegFrame (· ∈ [Reg.ZTB_WPSTS]) (wrN s Reg.SLU_WGUARD (bitsOf v 0 2)) (wguardWrite v s) := by
    rw [wguardWrite, if_neg hv]
    exact RegFrame.wr (a := Reg.ZTB_WPSTS) ((regFrame_refl hasked.ok).regs rfl) (by simp)
  refine ⟨?_, ?_, ?_, ((hasked.mono (by simp)).trans (hpend.mono (by simp))).rd⟩
  · rw [hpend.rdN (by decide), rdN_wrN_same h]
    exact Nat.mod_eq_of_lt (Nat.lt_of_lt_of_le (bitsOf_lt v 0 2) (by decide))
  · rw [wguardWrite, if_neg hv]
    rfl
  · have hmode : guardMode (wrN s Reg.SLU_WGUARD (bitsOf v 0 2)) = guardMode s := hasked.getF (by decide) 1 2
    rw [wguardWrite, if_neg hv, ← hmode]
    exact bit_setBit_same hasked.ok (by decide)

theorem wguardWrite_three {s : State} {v : Nat} (hv : bitsOf v 0 2 = 3) : wguardWrite v s = s := if_pos hv

/-- The mode asked for takes effect once no guarded operation is left (R118). -/
theorem wguardEffect_applies {s : State} (h : regsOk s) (hpend : bit s Reg.ZTB_WPSTS 0 = true)
    (hops : guardedOps s = false) :
    guardMode (wguardEffect s) = s.ztb.guardReq % 4 ∧ bit (wguardEffect s) Reg.ZTB_WPSTS 0 = false := by
  have hclear : regsOk (setBit s Reg.ZTB_WPSTS 0 false) := regsOk_setBit h
  have hslu := sluAll_frame (regsOk_setF (a := Reg.ZTB_WPSTS) (lo := 1) (w := 2) (v := s.ztb.guardReq) hclear)
  rw [wguardEffect, if_pos (by rw [hpend, hops]; rfl)]
  refine ⟨(hslu.getF not_slu 1 2).trans (getF_setF_same hclear (by decide)), (hslu.bit not_slu 0).trans ?_⟩
  rw [bit_setF hclear (by decide), if_neg (by decide), bit_setBit_same h (by decide)]

/-! ## Acknowledgements of opened zones -/

/-- What ZTB_OPPEND shows of the zones that wait: the oldest, with V. -/
def oppendWord : List Nat → Nat
  | y :: _ => y + 2 ^ 31
  | [] => 0

theorem showOppend_eq (s : State) : showOppend s = wrN s Reg.ZTB_OPPEND (oppendWord s.ztb.oppend) := by
  unfold showOppend
  split <;> rename_i e <;> rw [e] <;> rfl

theorem rdN_showOppend {s : State} (h : regsOk s) :
    rdN (showOppend s) Reg.ZTB_OPPEND = oppendWord s.ztb.oppend % 2 ^ 32 := by
  rw [showOppend_eq, rdN_wrN_same h]

theorem opack_oldest {s : State} {z : Nat} {l : List Nat} (hopp : s.ztb.oppend = z :: l) :
    opack z s = updateCptr z (modWork z (fun w => { w with waitOpen := l.contains z })
      (showOppend (modZtb s fun t => { t with oppend := l }))) := by
  rw [opack, hopp]
  exact if_neg fun hne => hne rfl

/-- After the acknowledgement of the oldest zone ZTB_OPPEND shows the next. -/
theorem opack_showsNext {s : State} {z : Nat} {l : List Nat} (h : regsOk s) (hopp : s.ztb.oppend = z :: l) :
    rdN (opack z s) Reg.ZTB_OPPEND = oppendWord l % 2 ^ 32 := by
  have hnext : regsOk (showOppend (modZtb s fun t => { t with oppend := l })) := by
    rw [showOppend_eq]
    exact regsOk_wrN h
  have hwork : CptrFrame (showOppend (modZtb s fun t => { t with oppend := l }))
      (modWork z (fun w => { w with waitOpen := l.contains z })
        (showOppend (modZtb s fun t => { t with oppend := l }))) := (regFrame_refl hnext).regs rfl
  rw [opack_oldest hopp, (updateCptr_cptr z hwork).rdN (by decide)]
  exact rdN_showOppend (regsOk_modZtb _ h)

/-! ## Zone recovery -/

theorem rcmd_starts {s : State} {v : Nat} (h : regsOk s) (hgo : v.testBit 31 = true)
    (hbusy : bit s Reg.ZTB_RCSTS 0 = false) (hen : ztbEn s = true) (hz : bitsOf v 0 20 < numZones s)
    (hoff : zState s (bitsOf v 0 20) ≠ zOffline) (hro : zState s (bitsOf v 0 20) ≠ zReadOnly) :
    rdN (rcmd v s) Reg.ZTB_RCSTS = 1 ∧ (rcmd v s).ztb.recovery = some ⟨bitsOf v 0 20⟩
      ∧ OnlyRegs [Reg.ZTB_RCSTS] s (rcmd v s) := by
  have hstart : rcmd v s = modZtb (wrN s Reg.ZTB_RCSTS 1) fun t => { t with recovery := some ⟨bitsOf v 0 20⟩ } := by
    rw [rcmd, if_neg (by simp [hgo, hbusy, hen]), if_neg (Nat.not_le.2 hz), if_neg (not_or.2 ⟨hoff, hro⟩)]
  rw [hstart]
  exact ⟨rdN_wrN_same h, rfl, (((regFrame_refl h).wr (by simp)).regs rfl).rd⟩

theorem rcmd_noZone {s : State} {v : Nat} (h : regsOk s) (hgo : v.testBit 31 = true)
    (hbusy : bit s Reg.ZTB_RCSTS 0 = false) (hen : ztbEn s = true) (hz : numZones s ≤ bitsOf v 0 20) :
    rdN (rcmd v s) Reg.ZTB_RCSTS = 2 ∧ (rcmd v s).ztb.recovery = s.ztb.recovery
      ∧ OnlyRegs [Reg.ZTB_RCSTS] s (rcmd v s) := by
  have hrefuse : rcmd v s = wrN s Reg.ZTB_RCSTS (2 * 1) := by
    rw [rcmd, if_neg (by simp [hgo, hbusy, hen]), if_pos hz]
  rw [hrefuse]
  exact ⟨rdN_wrN_same h, rfl, ((regFrame_refl h).wr (by simp)).rd⟩

/-- The zone engine without the recovery that has ended. -/
def endRecovery (s : State) : State := modZtb s fun t => { t with recovery := none }

/-! ### The end of a recovery leaves what its probes are found from -/

theorem walkSlips_endRecovery (s : State) : walkSlips (endRecovery s) = walkSlips s := by
  funext fuel
  induction fuel with
  | zero => rfl
  | succ fuel ih =>
    funext i
    rw [walkSlips, walkSlips, ih]
    rfl

theorem zoneSlips_endRecovery (s : State) : zoneSlips (endRecovery s) = zoneSlips s := by
  funext z
  rw [zoneSlips, walkSlips_endRecovery]
  rfl

theorem zonePhys_endRecovery (s : State) : zonePhys (endRecovery s) = zonePhys s := rfl

theorem zoneToPhys_endRecovery (s : State) : zoneToPhys (endRecovery s) = zoneToPhys s := by
  funext z q
  rw [zoneToPhys, zoneSlips_endRecovery]
  rfl

theorem zoneToLogical_endRecovery (s : State) : zoneToLogical (endRecovery s) = zoneToLogical s := by
  funext z p
  rw [zoneToLogical, zoneSlips_endRecovery]
  rfl

theorem sectorOffset_endRecovery (s : State) : sectorOffset (endRecovery s) = sectorOffset s := by
  funext z t k
  rw [sectorOffset, zonePhys_endRecovery, zoneToPhys_endRecovery, zoneToLogical_endRecovery]
  rfl

theorem probeClean_endRecovery (s : State) : probeClean (endRecovery s) = probeClean s := by
  funext z clean t
  rw [probeClean, sectorOffset_endRecovery, zonePhys_endRecovery]
  rfl

theorem trackOffsets_endRecovery (s : State) : trackOffsets (endRecovery s) = trackOffsets s := by
  funext z t
  rw [trackOffsets, sectorOffset_endRecovery]
  rfl

theorem lastDataTrack_endRecovery (s : State) : lastDataTrack (endRecovery s) = lastDataTrack s := by
  funext z
  rw [lastDataTrack, zoneToPhys_endRecovery]
  rfl

theorem recoveredOffset_endRecovery (s : State) : recoveredOffset (endRecovery s) = recoveredOffset s := by
  funext z clean
  rw [recoveredOffset, probeClean_endRecovery, lastDataTrack_endRecovery, trackOffsets_endRecovery,
    zoneToPhys_endRecovery]
  rfl

theorem zoneFirstTrack_endRecovery (s : State) (z : Nat) : zoneFirstTrack (endRecovery s) z = zoneFirstTrack s z := rfl

theorem zcap_endRecovery (s : State) : zcap (endRecovery s) = zcap s := rfl

/-! ### What a recovery shows -/

theorem regsOk_setZoneState {s : State} {z v : Nat} (h : regsOk s) : regsOk (setZoneState z v s) :=
  (setZoneState_cptr z v (regFrame_refl h)).ok

/-- Zone `z` with what a recovery has found of it, before it takes its state. -/
def foundZone (z st c : Nat) (s : State) : State :=
  modWork z (fun w => { w with assignEnd := c }) (placeZone z c (st == zClosed) s)

theorem foundZone_sram (z st c : Nat) (s : State) :
    (foundZone z st c s).sram = (placeZone z c (st == zClosed) s).sram := modWork_sram z _ _

theorem sramOk_foundZone {s : State} (z st c : Nat) (h : sramOk s) : sramOk (foundZone z st c s) :=
  sramOk_of_sram (foundZone_sram z st c s) (sramOk_placeZone z c (st == zClosed) h)

theorem foundZone_pointers {s : State} (z st c : Nat) (h : sramOk s) :
    zCptr (foundZone z st c s) z = c % 2 ^ 18 ∧ zRptr (foundZone z st c s) z = c % 2 ^ 18
      ∧ zTailu (foundZone z st c s) z = (st == zClosed) := by
  have hkept := pointersKept_of_sram (foundZone_sram z st c s) z
  rw [hkept.cptr, hkept.rptr, hkept.tailu]
  exact placeZone_pointers z c (st == zClosed) h

theorem recovered_eq (z st code c : Nat) (s : State) :
    recovered z st code c s = evt Reg.ZTB_WPEVT 9
      (wrN (setZoneState z st (foundZone z st c s)) Reg.ZTB_RCSTS (2 ^ 14 * c + 2 ^ 4 * code)) := rfl

theorem recovered_pointers {s : State} (z st code c : Nat) (h : sramOk s) :
    zCptr (recovered z st code c s) z = c % 2 ^ 18 ∧ zRptr (recovered z st code c s) z = c % 2 ^ 18
      ∧ zTailu (recovered z st code c s) z = (st == zClosed) := by
  have hsram : (recovered z st code c s).sram = (setZoneState z st (foundZone z st c s)).sram := by
    rw [recovered_eq, evt_sram]
    rfl
  have hkept := (setZoneState_pointers z st (sramOk_foundZone z st c h)).trans (pointersKept_of_sram hsram z)
  rw [hkept.cptr, hkept.rptr, hkept.tailu]
  exact foundZone_pointers z st c h

theorem recovered_recovery (z st code c : Nat) (s : State) :
    (recovered z st code c s).ztb.recovery = s.ztb.recovery := by
  rw [recovered_eq, evt_ztb, wrN_ztb, setZoneState_ztb]
  rfl

/-- The end of a recovery shows its result in ZTB_RCSTS, with the event. -/
theorem recovered_result {s : State} (z st code c : Nat) (h : regsOk s) :
    rdN (recovered z st code c s) Reg.ZTB_RCSTS = (2 ^ 14 * c + 2 ^ 4 * code) % 2 ^ 32
      ∧ bit (recovered z st code c s) Reg.ZTB_WPEVT 9 = true := by
  have hset : regsOk (setZoneState z st (foundZone z st c s)) := regsOk_setZoneState (regsOk_of_regs rfl h)
  have hres := regsOk_wrN (a := Reg.ZTB_RCSTS) (v := 2 ^ 14 * c + 2 ^ 4 * code) hset
  rw [recovered_eq]
  exact ⟨(rdN_evt_ne hres not_recorderCounter (by decide)).trans (rdN_wrN_same hset),
    bit_evt_same hres not_recorderCounter (by decide)⟩

/-- A recovery ends as the medium and its first probe have it, and with data by where the data ends (R126). -/
theorem rcvdone_recovering {s : State} {r : Recovery} (media : Bool) (clean : List (Nat × Nat))
    (hr : s.ztb.recovery = some r) :
    rcvdone media clean s
      = if media then evt Reg.ZTB_WPEVT 9 (wrN (endRecovery s) Reg.ZTB_RCSTS (2 * 3))
        else if !probeClean s r.zone clean (zoneFirstTrack s r.zone) then recovered r.zone zEmpty 0 0 (endRecovery s)
        else if recoveredOffset s r.zone clean = zcap s
        then recovered r.zone zFull 2 (recoveredOffset s r.zone clean) (endRecovery s)
        else recovered r.zone zClosed 1 (recoveredOffset s r.zone clean) (endRecovery s) := by
  rw [← probeClean_endRecovery, ← zoneFirstTrack_endRecovery, ← recoveredOffset_endRecovery, ← zcap_endRecovery,
    rcvdone, hr]
  rfl

theorem rcvdone_media_shows {s : State} {r : Recovery} (clean : List (Nat × Nat)) (h : regsOk s)
    (hr : s.ztb.recovery = some r) :
    rdN (rcvdone true clean s) Reg.ZTB_RCSTS = 6 ∧ (rcvdone true clean s).ztb.recovery = none
      ∧ bit (rcvdone true clean s) Reg.ZTB_WPEVT 9 = true ∧ (rcvdone true clean s).sram = s.sram := by
  have hres : regsOk (wrN (endRecovery s) Reg.ZTB_RCSTS (2 * 3)) := regsOk_wrN h
  rw [rcvdone_recovering true clean hr, if_pos rfl]
  exact ⟨(rdN_evt_ne hres not_recorderCounter (by decide)).trans (rdN_wrN_same (s := endRecovery s) h),
    congrArg ZtbState.recovery (evt_ztb _ _ _), bit_evt_same hres not_recorderCounter (by decide), evt_sram _ _ _⟩

theorem rcvdone_empty_shows {s : State} {r : Recovery} {clean : List (Nat × Nat)} (h : regsOk s) (hm : sramOk s)
    (hr : s.ztb.recovery = some r) (hprobe : probeClean s r.zone clean (zoneFirstTrack s r.zone) = false) :
    zCptr (rcvdone false clean s) r.zone = 0 ∧ zRptr (rcvdone false clean s) r.zone = 0
      ∧ zTailu (rcvdone false clean s) r.zone = false ∧ (rcvdone false clean s).ztb.recovery = none
      ∧ rdN (rcvdone false clean s) Reg.ZTB_RCSTS = 0 ∧ bit (rcvdone false clean s) Reg.ZTB_WPEVT 9 = true := by
  rw [rcvdone_recovering false clean hr, if_neg Bool.false_ne_true, hprobe, if_pos (by decide), recovered_recovery]
  obtain ⟨hcptr, hrptr, htailu⟩ := recovered_pointers (s := endRecovery s) r.zone zEmpty 0 0 hm
  exact ⟨hcptr, hrptr, htailu, rfl, recovered_result (s := endRecovery s) r.zone zEmpty 0 0 h⟩

theorem rcvdone_found_shows {s : State} {r : Recovery} {clean : List (Nat × Nat)} (h : regsOk s) (hm : sramOk s)
    (hr : s.ztb.recovery = some r) (hprobe : probeClean s r.zone clean (zoneFirstTrack s r.zone) = true) :
    zCptr (rcvdone false clean s) r.zone = recoveredOffset s r.zone clean % 2 ^ 18
      ∧ zRptr (rcvdone false clean s) r.zone = recoveredOffset s r.zone clean % 2 ^ 18
      ∧ (recoveredOffset s r.zone clean < zcap s → zTailu (rcvdone false clean s) r.zone = true)
      ∧ (rcvdone false clean s).ztb.recovery = none ∧ bit (rcvdone false clean s) Reg.ZTB_WPEVT 9 = true := by
  rw [rcvdone_recovering false clean hr, if_neg Bool.false_ne_true, hprobe, if_neg (by decide)]
  split
  · rename_i hfull
    obtain ⟨hcptr, hrptr, -⟩ :=
      recovered_pointers (s := endRecovery s) r.zone zFull 2 (recoveredOffset s r.zone clean) hm
    exact ⟨hcptr, hrptr, fun hlt => absurd hfull (Nat.ne_of_lt hlt), recovered_recovery ..,
      (recovered_result (s := endRecovery s) r.zone zFull 2 _ h).2⟩
  · obtain ⟨hcptr, hrptr, htailu⟩ :=
      recovered_pointers (s := endRecovery s) r.zone zClosed 1 (recoveredOffset s r.zone clean) hm
    exact ⟨hcptr, hrptr, fun _ => htailu, recovered_recovery ..,
      (recovered_result (s := endRecovery s) r.zone zClosed 1 _ h).2⟩

/-! ## The peak of retention -/

theorem retpeak_takesUse {s : State} (h : regsOk s) :
    rdN (wrN s Reg.ZTB_RETPEAK (getF s Reg.ZTB_RETUSE 0 16)) Reg.ZTB_RETPEAK = getF s Reg.ZTB_RETUSE 0 16 := by
  rw [rdN_wrN_same h]
  exact Nat.mod_eq_of_lt (Nat.lt_of_lt_of_le (bitsOf_lt _ 0 16) (by decide))

/-- Settles O18: each command's clause is the lemma of its operation. -/
theorem zoneEngineCommands : Obligations.ZoneEngineCommands := by
  unfold Obligations.ZoneEngineCommands
  intro s hwf
  have h := wf_regsOk hwf
  have hm := wf_sramOk hwf
  refine ⟨fun _ hv => ⟨_, rfl, wguardWrite_asks h hv⟩,
    fun v hv => ⟨_, rfl, ?ignored⟩,
    fun hpend hops => ⟨_, rfl, wguardEffect_applies h hpend hops⟩,
    fun z l hopp => ⟨_, rfl, ?next⟩,
    fun _ hgo hbusy hen hz hoff hro => ⟨_, rfl, rcmd_starts h hgo hbusy hen hz hoff hro⟩,
    fun _ hgo hbusy hen hz => ⟨_, rfl, rcmd_noZone h hgo hbusy hen hz⟩,
    fun media _ _ hr hmedia => ⟨_, rfl, ?media⟩,
    fun media _ r hr hmedia hprobe => ⟨_, rfl, ?empty⟩,
    fun media _ _ hr hmedia hprobe => ⟨_, rfl, ?found⟩,
    fun _ => ⟨_, rfl, retpeak_takesUse h, ((regFrame_refl h).wr (by simp)).rd⟩⟩
  case ignored =>
    rw [wguardWrite_three hv]
    exact ⟨fun _ _ => rfl, rfl⟩
  case next =>
    refine (opack_showsNext h hopp).trans ?_
    cases l <;> rfl
  case media =>
    subst hmedia
    exact rcvdone_media_shows _ h hr
  case empty =>
    subst hmedia
    exact rcvdone_empty_shows h hm hr hprobe
  case found =>
    subst hmedia
    exact rcvdone_found_shows h hm hr hprobe

end Sys2Proof.Machine
end
